-- ==== Sys2Proof/Word.lean ====
section
/-! DEFINITION. The words of the CX-8 model: bytes, byte strings and sparse tables. The spec writes every multi-byte
field little-endian (R8) and every index from 0 (R9). -/

namespace Sys2Proof

/-- One byte. -/
abbrev Byte := BitVec 8

/-- A run of bytes, the lowest address first. -/
abbrev Bytes := List Byte

/-- A 64-bit word: a Sound flit, a Harbour word, a Tide value. -/
abbrev Word64 := BitVec 64

/-- A sparse table: entries by number, in rising order of number; a number that is not listed holds the table's
default, which each reader names. -/
abbrev Tab (α : Type) := List (Nat × α)

/-- A 48-byte SHA-384 digest. -/
abbrev Digest := List (BitVec 8)

end Sys2Proof
end

