-- ==== Sys2Proof/Syntax.lean ====
section
/-! DEFINITION. The commands of the module: one constructor of `Instr` for each row of spec/opcode_table.json, in the
table's order. A command's operands are what comes from outside the block at that step: who acts, the words written,
the bytes that a host read returned, the physical outcome that a sensor or a cell gave, and the choices that the spec
leaves to firmware (the placer's banks). What the block itself knows is taken from its state. -/

namespace Sys2Proof

/-- A PCIe port (R342). -/
inductive Port where
  | u
  | d
  deriving DecidableEq, Repr

/-- Who accesses BAR0 (R446): an application core in machine mode, Port U or Port D. -/
inductive Initiator where
  | core (n : Fin 8)
  | portU
  | portD
  deriving DecidableEq, Repr

/-- Who asks for a dictionary write (R429, R432): an admitted command in admission slot `a`, or a management-bus
endpoint with the TAG of its message. -/
inductive Requester where
  | queue (a : Fin 4096)
  | mctp (ep : Nat) (tag : Byte)
  deriving DecidableEq, Repr

/-- What a read of host or engine memory returned (R348): data, data whose completion had EP set, or an error. -/
inductive HostRead where
  | data (b : Bytes)
  | poisoned (b : Bytes)
  | failed
  deriving DecidableEq, Repr

/-- Why a module reset starts (R528). -/
inductive ResetCause where
  | p54Low
  | railLost
  | vcoreReset
  | auxLost
  | request
  | thermalTrip
  deriving DecidableEq, Repr

/-- A target of a power-domain request (R471). -/
inductive PTarget where
  | off
  | ret
  | on
  deriving DecidableEq, Repr

/-- Where a power-domain request comes from (R471): a write of PWR_DOM_REQ after PWR_DOM_SEL, a write of
`pwr.domain`, or Uzomel itself. -/
inductive DomSource where
  | reg (i : Initiator)
  | dict (r : Requester) (data : Bytes)
  | uzomel
  deriving DecidableEq, Repr

/-- How a queue pair is enabled or disabled (R353): a write of its record, or of QUE_ADM_CTRL for pair 0. -/
inductive QpWrite where
  | record (r : Requester) (pair : Nat) (data : Bytes)
  | adm (i : Initiator) (value : BitVec 32)
  deriving DecidableEq, Repr

/-- One placement of a slice or of a piece of a spilled group: slice number, bank number, and for a storage-mode
bank the third of the bank that it takes (R239). -/
structure Placed where
  slice : Nat
  bank  : Nat
  third : Nat
  spill : Bool
  deriving DecidableEq, Repr

/-- A flit as it arrives: 64 data bits, 8 check bits (R172, R320). -/
structure Flit where
  data  : BitVec 64
  check : BitVec 8
  deriving DecidableEq, Repr

/-- The physical disturbance of one pulse cycle: word lines raised or dropped against the group (1,024 + k is reference
row k), displacements of column edges, in thousandths of τ, by logical column (R44, R49, R51), and the picoseconds by which
the cycle differs from its typical length (R47). An undisturbed cycle has none. -/
structure Disturb where
  rows  : List Nat
  edges : List (Nat × Int)
  slip  : Int
  deriving DecidableEq, Repr

/-- What a full known-sum test meets (R58, R59, R299): the disturbances of its cycles, by subset 0 to 9 and run 0 to 2, an
unlisted cycle being undisturbed; the measured deviations of logical columns in millionths of τ over 127 stages; the trim
codes written, by physical column; and the subset in which a thread's group takes the converters, if one does (R72). -/
structure KsResult where
  cycles   : List (Nat × Nat × Disturb)
  devMicro : List (Nat × Nat)
  trims    : List (Nat × BitVec 6)
  cut      : Option Nat
  deriving DecidableEq, Repr

/-- How an Awl operation ended physically: the logical columns whose cells did not reach the verify level, a column that is listed
again failing on each spare in turn that it is moved to; reference rows and columns of cells that did not, where the program wrote
the reference rows first; the cells pulsed by a top-up, and the fewest steps of 1/64 of a level spacing after which a margin read differs, with its threshold
(R278, R280, R287). -/
structure OpEnd where
  failing : List Nat
  refFailing : List (Fin 8 × Nat)
  pulsed  : Nat
  steps   : Nat
  thresh  : BitVec 3
  deriving DecidableEq, Repr

/-- A unit that a handshake waited for (R21, R336). -/
inductive UnitRef where
  | island (i : Nat)
  | ferry (f : Fin 256)
  | cluster (c : Fin 16)
  | other (u : Nat)
  deriving DecidableEq, Repr

/-- What stops a core (R416): its watchdog has expired, or its read of a word of the cores' SRAM, 0 to 4,194,303 (R414), met the named
bits inverted, which Uzomel can confine to a discarded command or not. -/
inductive CoreFault where
  | expired
  | sram (word : Nat) (bits : List (Fin 72)) (confined : Bool)
  deriving DecidableEq, Repr

/-- What a cover is for (R147). -/
inductive CoverRef where
  | bank (b : Nat)
  | island (i : Nat)
  deriving DecidableEq, Repr

/-- How a host or engine access ended in error (R348). -/
inductive AccessError where
  | unsupportedRequest
  | completerAbort
  | completionTimeout
  | aerWrite
  deriving DecidableEq, Repr

/-- What enumeration of the engine link found (R349). -/
inductive EnumResult where
  | device (config : Bytes)
  | secondDevice
  | isSwitch
  | noTraining
  deriving DecidableEq, Repr

/-- The commands: one constructor per row of spec/opcode_table.json, in the table's order. -/
inductive Instr where
  -- power, boot and recovery
  | auxPowerUp
  | mainPowerUp
  | moduleResetEnd (straps : BitVec 3)
  | moduleReset (cause : ResetCause)
  | bootOscTimeout
  | bootRomRun (unwrapOk : Bool)
  | uzomelReady (lost : List Nat)
  | recoveryTimeout
  | secRcvGo (i : Initiator) (value : BitVec 32) (image : HostRead)
  | recoveryImageDone (writeOk : Bool)
  | requestUpdate
  | passComponentTable (component : BitVec 16)
  | updateComponent (component : BitVec 16) (size : BitVec 32)
  | requestFirmwareData (offset : BitVec 32) (data : Bytes)
  | transferComplete (ok : Bool)
  | verifyComplete
  | applyComplete (writeOk : Bool)
  | activateFirmware
  | cancelUpdate
  -- attestation
  | getVersion (conn : Nat) (msg : Bytes)
  | getCapabilities (conn : Nat) (msg : Bytes)
  | negotiateAlgorithms (conn : Nat) (msg : Bytes) (offersRsaPss3072 offersSha384 : Bool)
  | getDigests (conn : Nat) (msg : Bytes)
  | getCertificate (conn : Nat) (msg : Bytes) (slot : BitVec 8) (offset length : BitVec 16)
  | challenge (conn : Nat) (msg : Bytes) (slot : BitVec 8)
  | getMeasurements (conn : Nat) (msg : Bytes) (slot : BitVec 8) (index : BitVec 8) (signed : Bool)
  | chunkSend (conn : Nat) (chunk : Bytes) (last : Bool)
  | chunkGet (conn : Nat) (size : Nat)
  | pqSign (conn : Nat) (msg : Bytes)
  -- firmware update, policy and keys
  | secFwStage (r : Requester) (image : Bytes)
  | secFwCommit (r : Requester) (data : Bytes)
  | fwSlotWriteDone (ok : Bool)
  | secModuleReset (r : Requester) (data : Bytes)
  | secPolicyWrite (r : Requester) (data : Bytes)
  | pubkeyWrite (r : Requester) (slot : Nat) (data : Bytes)
  -- queue engine
  | submissionRead (pair : Fin 16384) (entry : HostRead)
  | duplicateReplay (pair : Fin 16384) (key : BitVec 64) (log : HostRead)
  | sqTailDoorbell (port : Port) (pair : Fin 16384) (value : BitVec 32)
  | cqHeadDoorbell (port : Port) (pair : Fin 16384) (value : BitVec 32)
  | interruptTimer (pair : Fin 16384)
  -- inference and contexts
  | infer (a : Fin 4096) (list : HostRead)
  | inferComplete (a : Fin 4096)
  | ctxOpen (a : Fin 4096)
  | ctxClose (a : Fin 4096)
  | ctxCloseRelease (a : Fin 4096)
  | ctxSave (a : Fin 4096)
  | ctxSaveWrite (a : Fin 4096)
  | ctxRestore (a : Fin 4096) (saved : HostRead)
  | cancel (a : Fin 4096)
  | fence (a : Fin 4096)
  | fenceRelease (a : Fin 4096)
  -- weight images
  | loadManifest (a : Fin 4096) (manifest : HostRead)
  | loadShard (a : Fin 4096) (hash : HostRead)
  | verifyPassDone (a : Fin 4096) (shard : HostRead)
  | programPassDone (a : Fin 4096) (shard : HostRead)
  | commitImage (a : Fin 4096) (hash : HostRead)
  | dropImage (a : Fin 4096) (hash : HostRead)
  | refetchReminder
  -- swaps
  | swapStage (a : Fin 4096) (file : HostRead) (table : HostRead) (choice : List Placed)
  | swapSwitch (a : Fin 4096)
  | swapAbort (a : Fin 4096)
  | groupSwitchTide (slot : Fin 64)
  | generationRetire (slot : Fin 64)
  | layerRewriteDone (slot : Fin 64) (layer : Nat) (shards : List HostRead)
  -- placement and binding
  | place (a : Fin 4096) (file : HostRead) (choice : List Placed)
  | attach (a : Fin 4096) (groups : HostRead)
  | bindQueue (a : Fin 4096)
  | bindSegment (a : Fin 4096)
  | detach (a : Fin 4096)
  | release (a : Fin 4096)
  | unbindSegment (a : Fin 4096)
  | bindDrainEnd (a : Fin 4096)
  | lastSlotFreed (slot : Fin 64)
  | segmentHandover (seg : Fin 16)
  | sharedSegmentTake (seg : Fin 16)
  | sharedSegmentReturn (seg : Fin 16)
  | rePlacement (slot : Fin 64) (slice : Nat) (target : Option Placed)
  -- dictionary
  | dictRead (a : Fin 4096) (hash : HostRead)
  | dictWrite (a : Fin 4096) (value : HostRead)
  | queuePairEnable (w : QpWrite)
  | queuePairDisable (w : QpWrite)
  | queuePairDisabled (pair : Fin 16384)
  | cfgCommit (r : Requester) (data : Bytes)
  | monClear (r : Requester) (data : Bytes)
  | mctpDictRead (ep : Nat) (tag : Byte) (flags : Byte) (index : BitVec 16) (sub : Byte) (argument : BitVec 64) (offset : BitVec 32) (length : BitVec 16) (hash : Digest)
  | mctpDictWrite (ep : Nat) (tag : Byte) (flags : Byte) (index : BitVec 16) (sub : Byte) (argument : BitVec 64) (offset : BitVec 32) (data : Bytes)
  | mctpSnapshotExpiry (ep : Nat)
  | mctpWriteTimeout (ep : Nat)
  -- registers
  | regWrite (i : Initiator) (offset : BitVec 24) (size : Nat) (value : BitVec 64)
  | mwWrite (i : Initiator) (offset : BitVec 24) (value : BitVec 32)
  | pairLoRead (i : Initiator) (offset : BitVec 24)
  | pairHiWrite (i : Initiator) (offset : BitVec 24) (value : BitVec 32)
  | pairLoWrite (i : Initiator) (offset : BitVec 24) (value : BitVec 32)
  | w1cWrite (i : Initiator) (offset : BitVec 24) (value : BitVec 32)
  | configRegWrite (i : Initiator) (offset : BitVec 24) (value : BitVec 32)
  | cfgCrcRefWrite (i : Initiator) (value : BitVec 32)
  | cfgHoldWrite (i : Initiator) (value : BitVec 32)
  | holdLongTimer
  | checkPassEnd
  | configActivate
  | xdomCrossingDone
  | tideAlarmWrite (i : Initiator) (lo : BitVec 32)
  | tideAlarmFire
  | tideEpochOpen
  -- Awl
  | awlCplPop (i : Initiator)
  | awlBankSelWrite (i : Initiator) (ch : Fin 8) (value : BitVec 32)
  | awlUnlockStep (i : Initiator) (ch : Fin 8) (offset : BitVec 12) (byte : Byte)
  | awlWideWrite (i : Initiator) (ch : Fin 8) (offset : BitVec 12)
  | awlStrayByte (i : Initiator) (ch : Fin 8) (offset : BitVec 12) (byte : Byte)
  | programRow (i : Initiator) (ch : Fin 8)
  | programWord (i : Initiator) (ch : Fin 8)
  | eraseBank (i : Initiator) (ch : Fin 8)
  | topUpRow (i : Initiator) (ch : Fin 8)
  | readRow (i : Initiator) (ch : Fin 8)
  | readMargin (i : Initiator) (ch : Fin 8)
  | setComputeMode (i : Initiator) (ch : Fin 8)
  | setStorageMode (i : Initiator) (ch : Fin 8)
  | sealBank (i : Initiator) (ch : Fin 8)
  | markBank (i : Initiator) (ch : Fin 8)
  | readStatus (i : Initiator) (ch : Fin 8)
  | resetToRead (i : Initiator) (ch : Fin 8)
  | suspend (i : Initiator) (ch : Fin 8)
  | resume (i : Initiator) (ch : Fin 8)
  | awlOpStart (bank : Nat)
  | awlOpComplete (bank : Nat) (r : OpEnd)
  | eraseStarvation (bank : Nat)
  -- launches, Ferries and Laces
  | launchAdmit
  | ferryDescriptorIssue (desc : Bytes)
  | ferrySlotStart (f : Fin 256)
  | slabFillStart (f : Fin 256) (stream : Fin 16)
  | slabPush (f : Fin 256) (stream : Fin 16) (source : HostRead)
  | requestDeadlinePass (a : Fin 4096)
  | laceEntryReceive (lace : Fin 4096) (consumer : Nat)
  | handleRelease (handle : BitVec 16) (consumer : Nat)
  | slabCleared (handle : BitVec 16)
  | cancelledSlabRecall (f : Fin 256) (stream : Fin 16)
  -- arrays and the Welt
  | rowGroupStart (island : Nat) (array : Fin 256)
  | pulseCycleEnd (island : Nat) (array : Fin 256) (d : Disturb)
  | weltAccept (island : Nat) (array : Fin 256) (upsets : List (Nat × Nat × Nat))
  | longSumReceive (island : Nat) (packet : List Flit)
  -- Shank
  | recomputeReceive (cluster : Fin 16)
  | shankTileBoundary (cluster : Fin 16) (upsets : List (Nat × Nat))
  | streamReadRow (cluster : Fin 16) (recompute : Nat) (reads : List Bytes)
  | coverStart (c : CoverRef)
  -- Harbour and Sound
  | harbourRead (port : BitVec 12) (h : BitVec 30) (flits : Nat) (upsets : List (Nat × Nat))
  | harbourWrite (port : BitVec 12) (h : BitVec 30) (data : Bytes) (poison : BitVec 8)
  | harbourPartialWrite (port : BitVec 12) (h : BitVec 30) (data : Bytes) (poison : BitVec 8)
  | regionClearDone (base : BitVec 30)
  | patrolScrub (upsets : List (Nat × Nat))
  | bar4Access (i : Initiator) (x : BitVec 30) (len : Nat) (write : Option Bytes)
  | soundHop (port : BitVec 12) (packet : List Flit) (resends : List Nat)
  | handshakeWatchdog (u : UnitRef)
  | ceBucketDrain (kind : Fin 5)
  -- Cobbler
  | driftAgeTick
  | topupRunStart (bank : Nat)
  | topupResume (bank : Nat)
  | fullKnownSumTest (bank : Nat) (r : KsResult)
  | marginSample (bank : Nat) (steps : List Nat)
  | ksPeriodTimer (bank : Nat)
  | idleWindowOpen (slot : Fin 64) (spillGroup : Nat)
  | forceAfterTimer (bank : Nat)
  | columnRetestTimer (bank : Nat) (r : KsResult)
  | rebuildCycle (bank : Nat) (target : Option Nat)
  | rerunBucketRoll
  | poweredTimeStore
  -- power
  | domainRequestOn (src : DomSource) (dom : Nat)
  | domainRequestRet (src : DomSource) (dom : Nat)
  | domainRequestOff (src : DomSource) (dom : Nat)
  | domainIdleRetTimer (dom : Nat)
  | domainIdleOffTimer (dom : Nat)
  | domainDrainEnd (dom : Nat)
  | wakeStepTimeout (dom : Nat)
  | domainWakeDone (dom : Nat) (tests : List (Nat × KsResult))
  | domainDownDone (dom : Nat)
  | powerSample (milliwatts : Nat)
  | governorPeriodEnd
  | tjSample (key : Nat) (quarterDegrees : Int)
  | vcoreSample (millivolts : BitVec 32)
  | occupancySample
  | vcoreWarningTrip
  | vcoreRecover
  | dipHoldEnd (checks : List (Nat × Disturb))
  | dipResume
  | tideSourceChange (present : Bool)
  -- PCIe ports
  | functionLevelReset (port : Port)
  | perstNAssert (port : Port)
  | perstNRelease (port : Port)
  | pcieLinkDown (port : Port)
  | d3hotEntry (port : Port)
  | d0Return (port : Port)
  | rootPortEnumerate (r : EnumResult)
  | engineInterruptWrite (offset : BitVec 12)
  | engineHarbourAccess (addr : BitVec 64) (len : Nat) (write : Option Bytes)
  | downstreamWindowAccess (i : Initiator) (offset : BitVec 24) (write : Option Bytes) (engine : HostRead)
  -- Strait links and device groups
  | linkTraining (link : Fin 7) (lanes : BitVec 4) (halves : Bool) (peerA peerB : BitVec 3)
  | linkTrained (peer : BitVec 3)
  | manifestReceive (manifest : Bytes)
  | flitReceive (half : Fin 14) (flit : Bytes) (badLanes : BitVec 4) (corrected : List Nat)
  | laneCeInterval (half : Fin 14) (lane : Fin 4)
  | linkRetrainDone (half : Fin 14)
  | nakReceive (half : Fin 14) (ack : BitVec 12)
  | linkLost (half : Fin 14) (accepted : BitVec 12)
  | syncTimer (member : BitVec 3) (results : List Int)
  | syncMessage (half : Fin 14) (t1 : BitVec 64) (t4 : Option (BitVec 64 × BitVec 64 × BitVec 64))
  | slewTick
  | groupCommit
  | requestReport (member : BitVec 3) (slot : Fin 64) (key : BitVec 64) (ctx : BitVec 32)
  | launchMessage (keys : List (BitVec 64)) (gen : BitVec 16) (tl : BitVec 64)
  | groupLaunchAtTide (launch : Nat)
  | barrierDeadline (launch : Nat)
  | reportTimeout (key : BitVec 64)
  | abortMessage (keys : List (BitVec 64))
  | mcastGrant (slot : Fin 64) (group : Fin 256) (member : BitVec 3) (h : BitVec 30)
  | mcastPush (half : Fin 14) (lace : Fin 4096) (entry : BitVec 64)
  | mcastCredit (slot : Fin 64) (group : Fin 256) (member : BitVec 3) (handle : BitVec 16)
  | shedStallTimeout (slot : Fin 64) (group : Fin 256) (member : BitVec 3)
  -- module-level events
  | coreWatchdogExpiry (core : Fin 8) (why : CoreFault)
  | hostAccessError (a : Fin 4096) (e : AccessError) (detail : BitVec 16)
  | pcieLinkUp (port : Port) (speed : BitVec 3) (width : BitVec 5) (flit : Bool)
  | suspendTakesEffect (bank : Nat)
  deriving DecidableEq, Repr

end Sys2Proof
end

