-- ==== Sys2Proof/Decode.lean ====
section
/-! DEFINITION. The words of commands. No row of spec/opcode_table.json gives bits: a command of this block is an
operation or an event, which no word spells. -/

namespace Sys2Proof

/-- The command that a word of the table's bits spells: no row gives bits, so no word spells one. -/
def decodeTableWord (_nbits _w : Nat) : Option Instr := none

end Sys2Proof
end

