-- ==== Sys2Proof/Machine/State.lean ====
section
/-! DEFINITION. The state of the module as plain data: everything the spec gives it, by subsystem. Each field's
docstring names the rule that gives it, its width, and its value after reset; the value after reset is the field's
default. A value marked DESIGN CHOICE is the model's own (notes/assumptions/2.md). -/

namespace Sys2Proof.Machine

/-! ## Arrays and banks (02_arrays.md) -/

/-- The state of a bank (R73), in the order of its codes 0 to 7. -/
inductive BankState where
  | erased
  | programming
  | ready
  | storage
  | erasing
  | eraseSuspended
  | worn
  | retired
  deriving DecidableEq, Repr

/-- One remap entry (R63). -/
structure RemapEntry where
  /-- R63, 1 bit: spare s replaces LCOL; reset 0 (delivered: DESIGN CHOICE). -/
  valid : Bool := false
  /-- R63, 1 bit: spare s has failed; reset 0 (delivered: DESIGN CHOICE). -/
  failed : Bool := false
  /-- R63, 11 bits: logical column replaced; reset 0. -/
  lcol : BitVec 11 := 0
  deriving DecidableEq, Repr

/-- The Awl operations (R272), in the order of AWL_STATUS.OP codes 1 to 6. -/
inductive AwlKind where
  | programRow
  | programWord
  | eraseBank
  | topUpRow
  | readRow
  | readMargin
  deriving DecidableEq, Repr

/-- How far an Awl operation has come (R272, R282, R283). -/
inductive OpPhase where
  | queued
  | running
  | suspending
  | suspended
  | resuming
  deriving DecidableEq, Repr

/-- One Awl operation of a bank (R272). -/
structure AwlOp where
  /-- R272: which operation. -/
  kind : AwlKind
  /-- R264: the channel that started it; none for a row of a top-up run or an erase at boot, whose channel the spec leaves to Uzomel. -/
  chan : Option (Fin 8)
  /-- R274, 11 bits: AWL_ROW.ROW at the command. -/
  row : BitVec 11
  /-- R274, 6 bits: AWL_ROW.WORD at the command. -/
  word : BitVec 6
  /-- R274, 64 bits: AWL_WORD at the command. -/
  wordData : BitVec 64
  /-- R274, 64 bits: AWL_DATA_ADDR at the command. -/
  addr : BitVec 64
  /-- R274, 5 bits: AWL_ARG.REF_SHIFT at the command. -/
  refShift : BitVec 5
  /-- R274, 1 bit: AWL_ARG.POLARITY at the command. -/
  polarity : Bool
  /-- R272, R282: queued, running, suspending, suspended or resuming. -/
  phase : OpPhase
  /-- R243: its place in the slot order. -/
  order : Nat
  /-- R243, R296: it belongs to a floor top-up. -/
  floor : Bool
  /-- R78, R279: the bank was ERASED when an erase or a program began. -/
  fromErased : Bool
  /-- R74: the bank was WORN when an erase began. -/
  fromWorn : Bool
  /-- R297: it is a row of a top-up run. -/
  run : Bool
  /-- R297: it waits for its completion entry and keeps the run's slot and switch. -/
  held : Bool
  /-- R305: a floor top-up on the sister bank suspended it. -/
  byFloor : Bool
  /-- R275: the physical cells that the row takes. -/
  target : BitVec 3456
  /-- R288: the count of the PLL at its start. -/
  started : BitVec 64
  /-- R284: Tide at its present suspend. -/
  suspendedAt : BitVec 64
  /-- R284: suspended time so far, in Tide ticks. -/
  suspendedFor : Nat
  /-- R284: its ERASE_STARVED event has been raised. -/
  starved : Bool
  deriving DecidableEq, Repr

/-- One bank: its record, cells, trim codes and running operation. -/
structure Bank where
  /-- R73, 3 bits; reset ERASED (delivered: DESIGN CHOICE). -/
  state : BankState := .erased
  /-- R79 FLAGS bit 0, 1 bit: storage mode; reset 0 (delivered: DESIGN CHOICE). -/
  storageMode : Bool := false
  /-- R38, R79 FLAGS bit 1, 1 bit; reset 0 (delivered: DESIGN CHOICE). -/
  polarity : Bool := false
  /-- R59, R79 FLAGS bit 2, 1 bit; reset 0. -/
  suspect : Bool := false
  /-- R78, 32 bits: wear units; reset 0 (delivered: DESIGN CHOICE). -/
  wear : Nat := 0
  /-- R78: last programmed in storage mode; reset 0. -/
  lastStorage : Bool := false
  /-- R55, R79, 10 bits: last margin index; reset 1000 (delivered: DESIGN CHOICE). -/
  margin : Nat := 1000
  /-- R79, 32 bits: power-cycle count at the last margin measurement; reset 0. -/
  marginPcycle : BitVec 32 := 0
  /-- R79, 64 bits: Tide at the last margin measurement; reset 0. -/
  marginTide : BitVec 64 := 0
  /-- R63: 32 entries of 16 bits, by spare; reset no entry. -/
  remap : Tab RemapEntry := []
  /-- R36, R40: physical bits of the 1,032 rows of a compute-mode bank, by row, 1,152 columns each; an unlisted row is erased (all ones). -/
  cells : Tab (BitVec 1152) := []
  /-- R39, R67: levels of the 1,024 rows of a storage-mode bank as Gray codes, 3 bits for each of 1,152 cells; an unlisted row is erased (all ones). -/
  levels : Tab (BitVec 3456) := []
  /-- R239: the thirds, 0 to 2, into which pieces of spilled slices have been programmed since the last erase; reset none. -/
  thirds : List Nat := []
  /-- R39, R239: cells that two thirds share and whose lower third is still to come, with the row, which has the cell's number, and
  the bits of the upper third: until then the cell is not pulsed; reset none. -/
  split : List (Nat × Nat) := []
  /-- R45: trim codes by physical column, 6 bits each; reset 0 (DESIGN CHOICE). -/
  trims : Tab (BitVec 6) := []
  /-- R269, R272: the operations queued, running or suspended on the bank, oldest first; reset none. -/
  ops : List AwlOp := []
  /-- R306: Tide when the bank's last group or digital read ended; reset none. -/
  lastUse : Option (BitVec 64) := none
  /-- R206: the Last slots that the bank's slices belong to; reset none. -/
  owners : List Nat := []
  /-- R273: reserved for a pending placement, the adapter pool or the store; reset 0. -/
  reserved : Bool := false
  deriving DecidableEq, Repr

/-- Numbers of the banks that hold the configuration store's areas 0 and 1 (16 each, R426) and the firmware slot (64, R501): on array
die 0 the slot and area 0, on array die 1 area 1. DESIGN CHOICE (notes/assumptions/2.md): the spec gives the dies and no numbers; here
they are the last banks of each die. -/
def systemBanks : List Nat := (List.range 80).map (fun k => 65456 + k) ++ (List.range 16).map fun k => 131056 + k

/-- A bank of the store or of the slot as it is delivered: in storage mode, in STORAGE (R426, R501). -/
def systemBankRecord : Bank := { state := .storage, storageMode := true, lastStorage := true }

/-! ## Island sequencers, pulse cycles and the Welt (03_driving_arrays.md) -/

/-- A row group (R84). -/
structure Group where
  /-- R84: the vector of the micro-batch that the group belongs to. -/
  vec : Nat
  /-- R83: the bit plane. -/
  plane : Nat
  /-- R121: the plane count B of the vector. -/
  planes : Nat
  /-- R84, 1,024 bits: the row mask. -/
  mask : BitVec 1024
  /-- R84: population P. -/
  pop : Nat
  /-- R84, 16 bits: row-index sum. -/
  isum : BitVec 16
  /-- R89: the scale block of the group's rows. -/
  scaleBlock : Nat
  /-- R143: the slab whose planes formed the group. -/
  handle : BitVec 16
  /-- R186: offset of the row block within the slab. -/
  offset : Nat
  deriving DecidableEq, Repr

/-- The work of one slice in a thread (R83, R96, R104). -/
structure SliceWork where
  slice : Nat
  /-- R200: the row block that the slice takes. -/
  rowBlock : Nat
  bank : Nat
  /-- R178: the hardware Lace whose vectors it multiplies. -/
  lace : Nat
  /-- R90: A columns per weight. -/
  cols : Nat
  /-- R93: fraction shift f. -/
  frac : Nat
  /-- R200: rows and outputs of the slice, first output. -/
  rows : Nat
  outputs : Nat
  firstOutput : Nat
  /-- R84: block scales in use. -/
  scaled : Bool
  /-- R106: runs in the tolerant class. -/
  tolerant : Bool
  /-- R95: the join of vector v is `joinBase + v`. -/
  joinBase : Nat
  /-- R84: groups not yet converted, in order. -/
  groups : List Group
  /-- R103: the first group of `groups` is being re-run. -/
  rerun : Bool
  deriving DecidableEq, Repr

/-- One of an island's 16 threads (R43, R188, R189). -/
structure Thread where
  launch : Nat
  /-- R23: the deadline in Tide ticks, or none. -/
  deadline : Option (BitVec 64)
  /-- R23: the launch's age. -/
  order : Nat
  works : List SliceWork
  deriving DecidableEq, Repr

/-- An array's pulse cycle (R46, R87, R105): running, or held at t4 until the Welt accepts it. -/
structure Pulse where
  thread : Fin 16
  /-- R190: the launch that began it. -/
  launch : Nat
  slice : Nat
  bank : Nat
  group : Group
  /-- R46: t4 has been reached and the result is held. -/
  ended : Bool
  /-- R87: the code of each of the 1,120 logical columns; reset none. -/
  codes : List Nat := []
  /-- R49: columns with the UNDER flag. -/
  unders : List Nat := []
  /-- R49: columns with the OVER flag. -/
  overs : List Nat := []
  /-- R51: word lines raised. -/
  echoCount : Nat := 0
  /-- R51, 16 bits: sum of their row indices. -/
  echoSum : BitVec 16 := 0
  deriving DecidableEq, Repr

/-- A source of a join (R95, R102). -/
inductive SourceId where
  | slice (n : Nat)
  | remote (module island : Nat)
  | shank (cluster : Nat) (replaces : Nat)
  deriving DecidableEq, Repr

/-- A source and whether its final mark is set (R96). -/
structure Source where
  id : SourceId
  final : Bool
  deriving DecidableEq, Repr

/-- An open join (R95). -/
structure Join where
  launch : Nat
  /-- R198: the join's number within the Last, and the vector of the micro-batch. -/
  plan : Nat
  vec : Nat
  /-- R99, R102: the island on whose Welt it is open, or for which a cluster's block holds it. -/
  island : Nat
  /-- R92: one 320-bit lane per output, as its limbs' data bits stand. -/
  lanes : List (BitVec 320)
  /-- R92, R319: stored check byte XOR computed check byte of limb k of lane n, at 5n + k; an unlisted limb is 0 (a valid
  codeword); reset none. -/
  dev : Tab (BitVec 8)
  /-- R98, R175: outputs whose lane is poisoned. -/
  bad : List Nat
  sources : List Source
  /-- R81, R186: the input exponent e_x of the vector. -/
  ex : Int
  /-- R81, R123: e_x and the marks of the vector have reached the join. -/
  known : Bool
  /-- R123: an input vector carried the SPECIAL mark. -/
  special : Bool
  /-- R130: an input was poisoned. -/
  poisoned : Bool
  /-- R107: a source ran in the tolerant class. -/
  tolerant : Bool
  deriving DecidableEq, Repr

/-- One island (R43): sequencer, Welt and status. -/
structure Island where
  /-- R25, R465, 1 bit; reset 0 (kept in the fault history, R338). -/
  quarantined : Bool := false
  /-- R487: in a thermal hold; reset 0. -/
  hot : Bool := false
  /-- R208, R465: Last slot of the island program; reset none (0xFF). -/
  program : Option Nat := none
  /-- R250: generation of the second program; reset none. -/
  second : Option (BitVec 16) := none
  /-- R43: threads 0 to 15; reset none in use. -/
  threads : Tab Thread := []
  /-- R95: open joins by JOIN_ID; reset none. -/
  joins : Tab Join := []
  /-- R46: arrays in a pulse cycle or holding its result; reset none. -/
  pulses : Tab Pulse := []
  /-- R48: the computing bank of each array (0 A, 1 B); reset A (DESIGN CHOICE). -/
  computing : Tab Nat := []
  /-- R95, 16 bits: the next JOIN_ID to be given; reset 0 (DESIGN CHOICE). -/
  nextJoin : Nat := 0
  deriving DecidableEq, Repr

/-! ## Harbour, Ferries and Laces (06_harbour.md) -/

/-- The use of a segment (R159, R465), in the order of HBR_SEG.USE codes 0 to 6. -/
inductive SegUse where
  | free
  | context
  | system
  | last
  | kv
  | host
  | shared
  deriving DecidableEq, Repr

/-- One Harbour segment (R159, R161, R465). -/
structure Segment where
  /-- R159, 3 bits; reset FREE (segment 0 CONTEXT, segment 1 SYSTEM). -/
  use : SegUse := .free
  /-- R465, 16 bits: slot or group that holds it; reset 0xFFFF. -/
  holder : BitVec 16 := 0xFFFF
  /-- R161: the use and holder that take over once its handles have returned; reset none. -/
  next : Option (SegUse × BitVec 16) := none
  /-- R218: the bind command that waits for the handover; reset none. -/
  waiter : Option Nat := none
  deriving DecidableEq, Repr

/-- A Harbour access (R158): a granule read or write, a partial write (R163), an access of Port U's BAR4 or of the
engine (R167, R350). -/
inductive AccessKind where
  | read (flits : Nat)
  | write (data : Bytes) (poison : BitVec 8)
  | partialWrite (data : Bytes) (poison : BitVec 8)
  | bar (i : Initiator) (len : Nat) (data : Option Bytes)
  | engine (len : Nat) (data : Option Bytes)
  deriving DecidableEq, Repr

/-- An access that the Harbour has taken in and not yet served (R164, R174). -/
structure Access where
  /-- R170: the Sound port that asks. -/
  port : BitVec 12
  /-- R157: the Harbour address. -/
  h : BitVec 30
  /-- R163, R174: what it asks for. -/
  kind : AccessKind
  deriving DecidableEq, Repr

/-- One bank's window of 20 access slots (R169): slots used by each class. -/
structure SlotWindow where
  /-- R169: read-class slots used in the present window; reset 0. -/
  read : Nat := 0
  /-- R169: write-class slots used; reset 0. -/
  write : Nat := 0
  /-- R169: remote-class slots used; reset 0. -/
  remote : Nat := 0
  deriving DecidableEq, Repr

/-- The Harbour (R157 to R170). -/
structure Harbour where
  /-- R157, R162: the data bytes by Harbour address; an unlisted byte reads 0; reset nothing listed. -/
  data : List Host.Cell := []
  /-- R319, R321: stored check byte XOR computed check byte of each 64-bit word, by word number; an unlisted word is 0 (a valid codeword), 0xFF is a poison mark. -/
  dev : Tab (BitVec 8) := []
  /-- R162: granules whose valid bit is set, rising; reset none. -/
  valid : List Nat := []
  /-- R159: segments 0 to 15. -/
  segs : Tab Segment := [(0, { use := .context }), (1, { use := .system })]
  /-- R164: regions under clear, (base, length); reset none. -/
  clears : List (Nat × Nat) := []
  /-- R196: bytes cleared by region clears (R164); reset 0. -/
  cleared : Nat := 0
  /-- R170: READ, WRITE and REMOTE of the split in effect in every bank; reset the shipped 50, 30, 20. -/
  split : Nat × Nat × Nat := (50, 30, 20)
  /-- R164, R166: accesses that wait for a clear or a wake, oldest first; reset none. -/
  waiting : List Access := []
  /-- R169: slot windows by Harbour bank, 0 to 2,047; reset all unused. -/
  windows : Tab SlotWindow := []
  deriving DecidableEq, Repr

/-- A Ferry descriptor (R183), field by field. -/
structure Desc where
  conv : BitVec 8
  depth : BitVec 8
  fmtIn : BitVec 8
  fmtOut : BitVec 8
  planes : BitVec 8
  srcKind : BitVec 8
  dstKind : BitVec 8
  flags : BitVec 8
  srcAddr : BitVec 64
  dstAddr : BitVec 64
  length : BitVec 64
  elems : BitVec 32
  laceIn : BitVec 16
  laceOut : BitVec 16
  scaleAddr : BitVec 64
  deadline : BitVec 64
  request : BitVec 32
  gen : BitVec 16
  stream : BitVec 16
  deriving DecidableEq, Repr

/-- One active stream of a Ferry (R182, R185). -/
structure Stream where
  desc : Desc
  /-- R182: its age. -/
  order : Nat
  /-- R185: source bytes moved so far. -/
  pos : Nat
  /-- R177, 12 bits: SEQ of the next slab. -/
  seq : BitVec 12
  /-- R185: handles whose slabs are being filled, oldest first. -/
  filling : List (BitVec 16)
  /-- R190: its request has been cancelled. -/
  cancelled : Bool
  /-- R184: it stands for a descriptor that is not executed: its data are zeros, poisoned. -/
  dud : Bool
  /-- R186: row blocks of the present vector already written. -/
  blocksDone : Nat
  /-- R182: vectors begun. -/
  vecs : Nat
  /-- R124: the integers of the vector that continues in the next slab, with its e_x and marks. -/
  xs : List Int
  ex : Int
  special : Bool
  poison : Bool
  /-- R181: bytes received from the source Lace and not yet moved, with their marks. -/
  buf : Bytes
  /-- R181: the bytes of `buf` that are poisoned. -/
  bufBad : List Bool
  bufSpecial : Bool
  /-- R193: slabs whose bytes `buf` holds. -/
  bufSlabs : Nat
  deriving DecidableEq, Repr

/-- One Ferry (R182, R465). -/
structure Ferry where
  /-- R336, R465, 1 bit; reset 0 (kept across power cycles). -/
  retired : Bool := false
  /-- R182: stream slots 0 to 15; reset none in use. -/
  streams : Tab Stream := []
  deriving DecidableEq, Repr

/-- A Lace entry (R177). -/
structure LaceEntry where
  slab : BitVec 16
  fill : BitVec 15
  poison : Bool
  special : Bool
  last : Bool
  late : Bool
  gen : BitVec 16
  seq : BitVec 12
  deriving DecidableEq, Repr

/-- Who consumes a Lace (R178). -/
inductive Consumer where
  | thread (island thread : Nat)
  | cluster (c : Nat)
  /-- R81, R123: the Welt of an island whose joins the vectors feed, where nothing of this module multiplies them. -/
  | welt (island : Nat)
  | ferry (f : Nat) (stream : Nat)
  | drain (stream request : Nat)
  deriving DecidableEq, Repr

/-- One consumer's view of a Lace: entries received by nobody yet, and the slab that it reads now. -/
structure LaceConsumer where
  /-- R178: the thread, stream or cluster that consumes. -/
  who : Consumer
  /-- R178, R179: entries pushed to it that it has not received, oldest first. -/
  waiting : List LaceEntry
  /-- R186: vectors begun and row blocks of the present vector that the consumer has read. -/
  vecs : Nat
  blocks : Nat
  /-- R186: integers of the present vector read so far, with its e_x, planes and marks. -/
  acc : List Int
  ex : Int
  planes : Nat
  special : Bool
  poison : Bool
  /-- R184: vectors that no slab brings: their data are poisoned. -/
  skips : List Nat
  deriving DecidableEq, Repr

/-- A handle that a Lace has taken and that is not yet free (R178, R179). -/
structure Held where
  h : BitVec 16
  /-- R189, R190: admission slots of the requests whose data the slab carries. -/
  reqs : List Nat
  /-- R179: consumers that have not released it. -/
  waits : List Nat
  /-- R186, R189: the vector of the launch that the slab begins in, and the row blocks (bytes, where no planes are formed)
  of that vector that earlier slabs carry. -/
  vec : Nat
  off : Nat
  /-- R191: a Ferry filled it. -/
  ferry : Bool
  /-- R408: it is granted to a multicast sender, whose push has not yet come. -/
  awaits : Bool := false
  deriving DecidableEq, Repr

/-- A slab that a stream has left open for the next request's vectors (R186, R189). -/
structure OpenSlab where
  h : BitVec 16
  /-- R186: CONT, the headers of the vectors begun in it, its row blocks; its bytes where no planes are formed. -/
  cont : Bool
  heads : List Bytes
  blocks : List Bytes
  data : Bytes
  poison : Bool
  special : Bool
  /-- R193: the requests whose data it carries, each with its slab deadline. -/
  dues : List (Nat × BitVec 64)
  deriving DecidableEq, Repr

/-- One Lace (R178). -/
structure Lace where
  launch : Nat
  /-- R178: depth 1 to 16. -/
  depth : Nat
  consumers : List LaceConsumer
  held : List Held
  /-- R178: entries pushed so far. -/
  pushed : Nat
  /-- R189: requests whose streams have ended on it. -/
  fed : List Nat
  /-- R189: the slab that the next request's stream goes on filling. -/
  partialSlab : Option OpenSlab
  /-- R186, R408: row blocks (bytes, where no planes are formed) that multicast slabs have brought. -/
  came : Nat := 0
  deriving DecidableEq, Repr

/-! ## Shank (05_shank.md) -/

/-- A recompute request at a cluster (R143, R144). -/
structure Recompute where
  island : Nat
  join : Nat
  slice : Nat
  bank : Nat
  plane : Nat
  row : Nat
  handle : BitVec 16
  offset : Nat
  planes : Nat
  cols : Nat
  frac : Nat
  outputs : Nat
  firstOutput : Nat
  rows : Nat
  scaled : Bool
  /-- R145: the streaming read has started. -/
  started : Bool
  /-- R145: rows still to be streamed. -/
  rowsLeft : List Nat
  /-- R144: the exact lanes so far. -/
  lanes : List (BitVec 320)
  poisoned : Bool
  /-- R146: Tide when the request left the sequencer. -/
  since : BitVec 64
  /-- R146: re-reads so far. -/
  rereads : Nat
  deriving DecidableEq, Repr

/-- A result of a step before its rounding: an FP32 code, or the exact value n × 2^e of an integer or exact-dot sum (R137,
R138, R141). -/
inductive StepNum where
  | f32 (c : BitVec 32)
  | exact (n e : Int)
  deriving DecidableEq, Repr

/-- What a tile works on (R135). -/
inductive TileWork where
  | recompute (n : Nat)
  | cover (launch slice vec : Nat) (xs : List Int) (special poison : Bool)
  | step (launch vec : Nat) (input : Bytes) (special poison : Bool) (done : List StepNum)
  | adapter (launch context vec : Nat) (xs : List Int) (poison : Bool)
  deriving DecidableEq, Repr

/-- A tile waiting at a cluster (R136). -/
structure Tile where
  /-- R135: priority 1 to 3. -/
  prio : Nat
  deadline : Option (BitVec 64)
  order : Nat
  work : TileWork
  /-- R136: tiles that have been spent on the result in progress, whose partial sums they hold. -/
  part : Nat := 0
  deriving DecidableEq, Repr

/-- One Shank cluster (R132). -/
structure Cluster where
  /-- R336: retired, kept across power cycles; reset 0. -/
  retired : Bool := false
  /-- R136: waiting tiles; reset none. -/
  tiles : List Tile := []
  /-- R136: the tile in progress; reset none. -/
  current : Option Tile := none
  /-- R146: recomputes outstanding, by number; reset none. -/
  recomputes : Tab Recompute := []
  /-- R102, R132: joins of quarantined islands held on the long-accumulator block; reset none. -/
  joins : Tab Join := []
  /-- R132: the 2 MiB operand buffer, as the data bits of its 64-bit words stand, by word number below 262,144; an unlisted
  word is 0; reset none. -/
  buffer : Tab (BitVec 64) := []
  /-- R132, R319: stored check byte XOR computed check byte of each of its words; an unlisted word is 0 (a valid codeword);
  reset none. -/
  bufferDev : Tab (BitVec 8) := []
  /-- R140: the FP32 accumulator of a relaxed reduction, as its code; reset +0. -/
  acc : BitVec 32 := 0
  deriving DecidableEq, Repr

/-- The cover of a bank (R147). -/
structure Cover where
  /-- R147, R304: why: below the floor, retired, quarantined island, open classification, rebuild or forced. -/
  forced : Bool
  /-- R147: Harbour slabs of the cover copy; none when slices are read from the bank at each launch. -/
  slabs : List (BitVec 16)
  /-- R330: rows that were not copied. -/
  missing : List Nat
  deriving DecidableEq, Repr

/-! ## Queues and commands (12_host_ports.md) -/

/-- The state of a queue pair (R353 to R356); `disabling` is DISABLED to come, once its commands have completed. -/
inductive QState where
  | disabled
  | enabled
  | error
  | disabling
  deriving DecidableEq, Repr

/-- One queue pair (R353, R354, R365). -/
structure QPair where
  /-- R354, R355; reset DISABLED. -/
  state : QState := .disabled
  /-- R354; reset Port U. -/
  port : Port := .u
  /-- R354, 16 bits: FLAGS; reset 0. -/
  flags : BitVec 16 := 0
  /-- R354, 32 bits: SQ_ENTRIES; reset 0 (DESIGN CHOICE). -/
  sqEntries : Nat := 0
  /-- R354, 32 bits: CQ_ENTRIES; reset 0 (DESIGN CHOICE). -/
  cqEntries : Nat := 0
  /-- R354, 16 bits: GROUP; reset 0xFFFF (none). -/
  group : BitVec 16 := 0xFFFF
  /-- R354, 16 bits: VECTOR; reset 0 (DESIGN CHOICE). -/
  vector : BitVec 16 := 0
  /-- R354, 64 bits: SQ_BASE; reset 0 (DESIGN CHOICE). -/
  sqBase : BitVec 64 := 0
  /-- R354, 64 bits: CQ_BASE; reset 0 (DESIGN CHOICE). -/
  cqBase : BitVec 64 := 0
  /-- R354, 64 bits: LOG_BASE; reset 0 (DESIGN CHOICE). -/
  logBase : BitVec 64 := 0
  /-- R354, 16 bits: INTR_COUNT; reset 0 (DESIGN CHOICE). -/
  intrCount : Nat := 0
  /-- R354, 16 bits: INTR_TIME_US; reset 0 (DESIGN CHOICE). -/
  intrTime : Nat := 0
  /-- R356, 16 bits: submission tail; reset 0. -/
  sqTail : Nat := 0
  /-- R357, 16 bits: next submission entry to read; reset 0. -/
  sqHead : Nat := 0
  /-- R358, 16 bits: next completion entry to write; reset 0. -/
  cqTail : Nat := 0
  /-- R356, 16 bits: completion head; reset 0. -/
  cqHead : Nat := 0
  /-- R358, 1 bit: phase; reset 1 at an enable. -/
  phase : Bool := true
  /-- R365, 50 bits: HS; reset 0. -/
  hs : Nat := 0
  /-- R365, 4,096 bits: sequence numbers HS − 4,095 to HS that have been seen, bit s mod 4,096; reset 0. -/
  seen : BitVec 4096 := 0
  /-- R358: completions not yet signalled; reset 0. -/
  unsignalled : Nat := 0
  /-- R358: Tide of the first completion not yet signalled; reset none. -/
  firstUnsignalled : Option (BitVec 64) := none
  /-- R372: the FENCE that holds the pair; reset none. -/
  fence : Option Nat := none
  /-- R366, R367: duplicates that wait to be answered, oldest first: key, NO_INTR, Tide when read; reset none. -/
  duplicates : List (BitVec 64 × Bool × BitVec 64) := []
  deriving DecidableEq, Repr

/-- How far an admitted command has come. -/
inductive CmdStage where
  | admitted
  | running
  | draining
  | parked
  deriving DecidableEq, Repr

/-- What a completion entry says of its command (R364). -/
structure Reply where
  status : Nat
  result : Nat := 0
  detail : Nat := 0
  poison : Nat := 0
  discarded : Bool := false
  deriving DecidableEq, Repr

/-- An admitted command in an admission slot (R357, R363). -/
structure Cmd where
  pair : Nat
  /-- R220: the context group that the pair served when the entry was read. -/
  group : BitVec 16
  /-- R359: the 64-byte entry. -/
  entry : Bytes
  /-- R369: order of admission. -/
  order : Nat
  stage : CmdStage
  /-- R443: Tide when the entry was read. -/
  readAt : BitVec 64
  /-- R372: admission orders of the commands that a FENCE waits for; R218: the drain in µs of a bind operation whose drain
  has ended, as its one entry. -/
  waitsFor : List Nat
  /-- R218: Tide when the drain began. -/
  drainFrom : BitVec 64
  deriving DecidableEq, Repr

/-- A data stream of an INFER (R361). -/
structure IoStream where
  stream : Nat
  space : Nat
  output : Bool
  bytes : Nat
  addr : BitVec 64
  deriving DecidableEq, Repr

/-- An INFER request (R189, R192, R194). -/
structure Req where
  slot : Nat
  ctx : Nat
  gen : BitVec 16
  /-- R361: input vectors n. -/
  vectors : Nat
  deadline : Option (BitVec 64)
  streams : List IoStream
  /-- R198: the schedule step that the request is at. -/
  step : Nat
  /-- R33: its present step has been asked of the governor. -/
  asked : Bool
  /-- R255: it has been found waiting at a layer barrier. -/
  barred : Bool
  /-- R361: result bytes written. -/
  written : Nat
  /-- R333: outputs delivered poisoned. -/
  poison : Nat
  /-- R193: a slab was late. -/
  late : Bool
  /-- R194, R190: stopped, with the status that its completion takes. -/
  stopped : Option (BitVec 8)
  /-- R194: no result data is written. -/
  discarded : Bool
  /-- R345: every result write has been issued. -/
  done : Bool
  /-- R154: KV slabs that the request has taken. -/
  kvTaken : List (BitVec 16)
  /-- R198: vectors of the present step that have not yet come out of it. -/
  left : Nat
  /-- R189: vectors of the present step that launches have taken. -/
  taken : Nat
  deriving DecidableEq, Repr

/-! ## Lasts, launches, images (07, 08) -/

/-- A slice record (R200). -/
structure SliceRec where
  slice : Nat
  layer : Nat
  spillGroup : Nat
  format : BitVec 8
  flags : BitVec 8
  rowBlock : Nat
  rows : Nat
  firstOutput : Nat
  outputs : Nat
  join : Nat
  shard : Nat
  deriving DecidableEq, Repr

/-- How a join ends (R97). -/
inductive JoinEnd where
  | round (format : BitVec 8) (m : Nat) (ey : Int) (lace : Nat)
  | forward (rank join : Nat)
  deriving DecidableEq, Repr

/-- A join of a Last (R198). -/
structure JoinPlan where
  join : Nat
  layer : Nat
  /-- R200: its first output within the layer, and its outputs. -/
  firstOutput : Nat
  outputs : Nat
  /-- R95: slices that feed it, and ranks of the modules that send a partial. -/
  slices : List Nat
  remotes : List Nat
  ending : JoinEnd
  /-- R178: the Lace of the Last whose vectors feed it. -/
  input : Nat
  deriving DecidableEq, Repr

/-- What fills a Lace (R178, R180): an input Ferry's stream, or the joins or the Shank step of its layer. -/
inductive Producer where
  | stream (n : Nat)
  | layer
  deriving DecidableEq, Repr

/-- A Lace of a Last (R178, R198): its producer and consumers are declared with it. -/
structure LacePlan where
  lace : Nat
  layer : Nat
  depth : Nat
  producer : Producer
  /-- R178: consumer ports that the Last declares, 1 to 64. -/
  ports : Nat
  /-- R180: the islands or Shank of the layer consume it. -/
  compute : Bool
  /-- R180: the output Ferries' streams that consume it. -/
  drains : List Nat
  deriving DecidableEq, Repr

/-- A Ferry stream of a Last (R198). -/
structure StreamPlan where
  stream : Nat
  layer : Nat
  output : Bool
  conv : BitVec 8
  fmtIn : BitVec 8
  fmtOut : BitVec 8
  planes : Nat
  /-- R361: bytes per vector. -/
  bytes : Nat
  elems : Nat
  depth : Nat
  /-- R192: slack in Tide ticks. -/
  slack : Nat
  lace : Nat
  /-- R198: the tensor that it reads or writes, where that is not a stream of the request; 0 none. -/
  tensor : Nat
  interleaved : Bool
  /-- R126: the declared element order of an output vector, as the produced outputs in the order written; none where it is
  the order in which they are produced. -/
  order : List Nat
  deriving DecidableEq, Repr

/-- What a Shank step computes (R135, R137, R141, R148, R154). -/
inductive StepKind where
  /-- R137: a dot product of `len` indices for each output, of operands in two formats. -/
  | dot (fmtX fmtW : BitVec 8) (len : Nat)
  /-- R141: exact-dot mode, of an input in `fmtX` at `planes` planes and weights in `fmtW`. -/
  | exact (fmtX fmtW : BitVec 8) (planes len : Nat)
  /-- R148: a lookup of the rows of an embedding table that these slices hold. -/
  | lookup (slices : List Nat)
  /-- R139, R140: the results of this many modules for each output, in the order of MOD_ID, are combined. -/
  | combine (modules : Nat)
  /-- R154: attention over the KV slabs of the vector's context; the first bytes of the input are the query, the rest is the
  key and value that the step stores. -/
  | attention (query : Nat)
  /-- R135: softmax, a normalisation, an output head, a non-linear function. -/
  | other
  deriving DecidableEq, Repr

/-- A layer of a Last (R189, R198). -/
structure LayerPlan where
  layer : Nat
  spillGroup : Nat
  /-- R189: vectors per micro-batch. -/
  microBatch : Nat
  /-- R135: a Shank step and not an array layer. -/
  onShank : Bool
  /-- R135: what the step computes. -/
  kind : StepKind
  /-- R128, R131: the requantisation pair of the step's outputs. -/
  m : Nat
  ey : Int
  /-- R222: random draws that one vector of the step makes. -/
  draws : Nat
  /-- R131, R541: bytes of the input tensors of one vector, as the step reads them. -/
  inputBytes : List Nat
  /-- R154: tokens of the layer that one KV slab holds; 0 where the layer keeps no KV state. -/
  kvTokens : Nat
  /-- R151: the curve that a Shank step ends with; 0 none. -/
  curve : Nat
  /-- R138: output format, outputs per vector and output Lace of a Shank step. -/
  outFmt : Nat
  outputs : Nat
  outLace : Nat
  deriving DecidableEq, Repr

/-- A spill group (R211, R213): rank, passes per step in thousandths, array time per pass in ns, work per pass. -/
structure SpillPlan where
  group : Nat
  rank : Nat
  usesMilli : Nat
  arrayNs : Nat
  ops : Nat
  noSpill : Bool
  deriving DecidableEq, Repr

/-- A multicast group of a Last (R407). -/
structure McastPlan where
  group : Nat
  sender : Nat
  receivers : BitVec 8
  lace : Nat
  shed : Bool
  stallUs : Nat
  deriving DecidableEq, Repr

/-- What the sections of a Last hold (R198), as Uzomel reads them. -/
structure LastPlan where
  layers : List LayerPlan
  slices : List SliceRec
  joins : List JoinPlan
  laces : List LacePlan
  streams : List StreamPlan
  spills : List SpillPlan
  /-- R198, R213: reference step time in ns. -/
  refNs : Nat
  /-- R303: idle windows, (spill group, schedule step). -/
  idle : List (Nat × Nat)
  /-- R222: bytes of private context state. -/
  privateBytes : Nat
  mcasts : List McastPlan
  /-- R361: output vectors for n input vectors are `outNum * n / outDen`. -/
  outNum : Nat
  outDen : Nat
  deriving DecidableEq, Repr

/-- The state of a Last slot (R201), codes 0 to 4. -/
inductive LastState where
  | free
  | placed
  | resident
  | bound
  | releasing
  deriving DecidableEq, Repr

/-- How a swap is done (R248, R254). -/
inductive SwapMode where
  | shadow
  | inPlace
  deriving DecidableEq, Repr

/-- A pending or running swap of a slot (R248 to R257). -/
structure Swap where
  mode : SwapMode
  lastHash : Digest
  imageHash : Digest
  plan : LastPlan
  /-- R203: the SLICES section of the pending Last. -/
  slicesSection : Bytes
  places : List Placed
  keySlot : Nat
  /-- R241: the pending image has been committed. -/
  committed : Bool
  /-- R251: SWITCH has taken effect. -/
  switched : Bool
  /-- R258: SWITCH_TIDE of a group swap that has not come. -/
  switchTide : Option (BitVec 64)
  /-- R255: layers not yet resealed, in schedule order. -/
  front : List Nat
  /-- R255: the layer at the front has been programmed and waits for its seals. -/
  rewritten : Bool
  /-- R256: the front has stopped at a rejected shard. -/
  stopped : Bool
  /-- R254: bus address per shard. -/
  shardAddrs : List (BitVec 64)
  /-- R257: cut by a loss of power. -/
  interrupted : Bool
  deriving DecidableEq, Repr

/-- One Last slot (R201). -/
structure Slot where
  /-- R201, 3 bits; reset FREE. -/
  state : LastState := .free
  /-- R197, 48 bytes: Last hash; reset empty. -/
  lastHash : Digest := []
  /-- R197, 48 bytes: IMAGE_HASH; reset empty. -/
  imageHash : Digest := []
  /-- R198, 4 bits: publisher key slot; reset 0. -/
  keySlot : Nat := 0
  /-- R197, 1 bit: STRICT; reset 0. -/
  strict : Bool := false
  /-- R197, 4 bits: MODULES; reset 1. -/
  modules : Nat := 1
  /-- R197, 8 bits: PARTS; reset 0. -/
  parts : BitVec 8 := 0
  /-- R198: what its sections hold; reset none. -/
  plan : Option LastPlan := none
  /-- R198: the SLICES section, for R203; reset empty. -/
  slicesSection : Bytes := []
  /-- R206: where each slice lies; reset nowhere. -/
  places : List Placed := []
  /-- R214, 64 bytes: last placement report; reset empty. -/
  report : Bytes := []
  /-- R245, 16 bits: current generation; reset 0, 1 at the first commit. -/
  gen : BitVec 16 := 0
  /-- R252: the generation that drains after a switch, with the banks it leaves; reset none. -/
  oldGen : Option (BitVec 16) := none
  oldPlaces : List Placed := []
  oldPlan : Option LastPlan := none
  oldImage : Digest := []
  /-- R216: a DETACH waits for admitted launches; reset 0. -/
  detaching : Bool := false
  /-- R219: the swap of the slot; reset none. -/
  swap : Option Swap := none
  deriving DecidableEq, Repr

/-- An image record's state (R231). -/
inductive ImageState where
  | partly
  | complete
  | committed
  deriving DecidableEq, Repr

/-- A shard table entry (R227). -/
structure ShardRec where
  bytes : Nat
  firstPiece : Nat
  pieces : Nat
  hash : Digest
  deriving DecidableEq, Repr

/-- One image record (R231). -/
structure ImageRec where
  hash : Digest
  /-- R227: KIND is ADAPTERS. -/
  adapters : Bool
  keySlot : Nat
  state : ImageState
  shards : List ShardRec
  /-- R232: shards present. -/
  present : List Nat
  /-- R242: shards flagged for refetch, each with its slices. -/
  refetch : Tab (List Nat)
  target : Digest
  /-- R226, R227: NAME and the two signatures of its manifest. -/
  name : Bytes
  rsaSig : Bytes
  slhSig : Bytes
  /-- R232: shards programmed whose banks have not all been sealed. -/
  written : List Nat
  /-- R89, R230: E8M0 scale codes of a piece, block by block, by piece. -/
  scales : Tab Bytes
  deriving DecidableEq, Repr

/-- A running shard load (R237). -/
structure Load where
  image : Nat
  shard : Nat
  /-- R237: the attempt, from 1. -/
  attempt : Nat
  /-- R237: the verify pass has been done. -/
  programming : Bool
  /-- R232, R309: its pieces have been programmed and its banks wait for their seals. -/
  sealing : Bool
  /-- R242: it programs only the flagged slices. -/
  refetch : Bool
  deriving DecidableEq, Repr

/-- One adapter slot (R259, R260). -/
structure Adapter where
  image : Nat
  /-- R230, R259: its piece of the image. -/
  piece : Nat
  layer : Nat
  inputs : Nat
  outputs : Nat
  rank : Nat
  fmtA : BitVec 8
  fmtB : BitVec 8
  fmtH : BitVec 8
  planesH : Nat
  mH : Nat
  eyH : Int
  target : Digest
  usable : Bool
  /-- R260: the 512-byte lines that hold its payload, (bank, line), and the payload's length. -/
  lines : List (Nat × Nat)
  bytes : Nat
  deriving DecidableEq, Repr

/-- A launch (R33, R180, R189). -/
structure Launch where
  slot : Nat
  gen : BitVec 16
  layer : Nat
  /-- R189: admission slots and the vectors taken from each. -/
  reqs : List (Nat × Nat)
  /-- R24: age. -/
  order : Nat
  deadline : Option (BitVec 64)
  /-- R180: hardware Laces, by the Last's Lace number. -/
  laces : List (Nat × Nat)
  /-- R180: handles reserved and not yet taken. -/
  reserved : List (BitVec 16)
  /-- R189: vectors of the micro-batch. -/
  vectors : Nat
  /-- R102, R147: slices served by a cluster, (slice, cluster). -/
  shank : List (Nat × Nat)
  /-- R150: contexts whose adapter is served by a cluster, (context, cluster). -/
  adapters : List (Nat × Nat)
  /-- R97: joins handed on, (join of the Last, vector). -/
  delivered : List (Nat × Nat)
  /-- R154: vectors whose key and value an attention step has stored. -/
  stored : List Nat
  /-- R484: arrays on which it runs. -/
  arrays : Nat
  /-- R484: its array charge is held. -/
  charged : Bool
  /-- R402: the agreed count of a group launch. -/
  agreed : Option (BitVec 64)
  /-- R402: its agreed count has come, or it has none. -/
  begun : Bool
  /-- R189: cancelled. -/
  cancelled : Bool
  /-- R189: of each request, the vectors of its step that earlier launches took. -/
  offsets : List (Nat × Nat)
  /-- R33, R34: the strict-mode bit in force when it was admitted. -/
  strict : Bool
  /-- R33, R118, R151: the format descriptors and curve records in force when it was admitted, by object. -/
  values : Tab Bytes
  deriving DecidableEq, Repr

/-- A request to the governor that has not been admitted (R24). -/
inductive GovWork where
  | step (slot : Nat) (gen : BitVec 16) (layer : Nat) (reqs : List (Nat × Nat)) (agreed : Option (BitVec 64))
  | cluster (c : Nat)
  deriving DecidableEq, Repr

/-- An item of the governor's queue (R24). -/
structure GovItem where
  order : Nat
  work : GovWork
  /-- R483: its wait has been counted. -/
  counted : Bool
  deriving DecidableEq, Repr

/-! ## Awl and Cobbler (09, 10) -/

/-- The unlock state of a channel (R266). -/
inductive Unlock where
  | idle
  | unlock1
  | unlock2
  deriving DecidableEq, Repr

/-- One Awl channel (R264, R274). -/
structure Channel where
  /-- R266; reset idle. -/
  unlock : Unlock := .idle
  /-- R274, 32 bits: AWL_BANK_SEL; reset 0. -/
  bankSel : BitVec 32 := 0
  /-- R274, 32 bits: AWL_ROW; reset 0. -/
  row : BitVec 32 := 0
  /-- R274, 32 bits: AWL_ARG; reset 0. -/
  arg : BitVec 32 := 0
  /-- R274, 64 bits: AWL_DATA_ADDR; reset 0 (DESIGN CHOICE). -/
  dataAddr : BitVec 64 := 0
  /-- R274, 64 bits: AWL_WORD; reset 0 (DESIGN CHOICE). -/
  word : BitVec 64 := 0
  /-- R274, 7 bits: AWL_STATUS [10:4], SEQ_ERR lowest; reset 0. -/
  errors : BitVec 7 := 0
  /-- R274, 1 bit: DONE; reset 0. -/
  done : Bool := false
  /-- R265, 1 bit: STATUS_MODE; reset 0. -/
  statusMode : Bool := false
  /-- R272: bank and place in the slot order of the channel's last operation; reset none. -/
  lastOp : Option (Nat × Nat) := none
  /-- R274, 10 bits: AWL_RESULT.MARGIN; reset 0. -/
  resMargin : BitVec 10 := 0
  /-- R274, 3 bits: AWL_RESULT.THRESH; reset 0. -/
  resThresh : BitVec 3 := 0
  /-- R274, 11 bits: AWL_RESULT.CELLS; reset 0. -/
  resCells : BitVec 11 := 0
  deriving DecidableEq, Repr

/-- Awl (R264, R272, R274, R288). -/
structure Awl where
  /-- R264: channels 0 to 7. -/
  chans : Tab Channel := []
  /-- R288: completion FIFO, oldest first, (LO, HI); reset empty. -/
  fifo : List (BitVec 32 × BitVec 32) := []
  /-- R274, 32 bits: AWL_CTRL; reset 0. -/
  ctrl : BitVec 32 := 0
  /-- R243: next place in the slot order; reset 0 (DESIGN CHOICE). -/
  nextOrder : Nat := 0
  /-- R285: pulses paused by a supply dip; reset 0. -/
  paused : Bool := false
  deriving DecidableEq, Repr

/-- A top-up run (R297, R305, R306). -/
structure Run where
  /-- R297: the next row to top up. -/
  next : Nat
  /-- R296: it is a floor top-up. -/
  floor : Bool
  /-- R305: preempted. -/
  preempted : Bool
  /-- R315: permille of its interval at its start. -/
  permille : Nat
  deriving DecidableEq, Repr

/-- A bank's schedule record (R316), with the run and the work that is due. -/
structure Sched where
  /-- R294, 32 bits of 2^−16 and 32 bits below them: drift age A in units of 2^−48; reset 0. -/
  drift : Nat := 0
  /-- R316, bits of DUE; reset 0. -/
  dueTopup : Bool := false
  dueFloor : Bool := false
  dueKs : Bool := false
  dueRebuild : Bool := false
  dueForced : Bool := false
  /-- R304: powered time when a top-up, a measurement and a rebuild fell due, in s; reset none. -/
  sinceTopup : Option Nat := none
  sinceKs : Option Nat := none
  sinceRebuild : Option Nat := none
  /-- R315, bits of SYMPTOMS; reset 0. -/
  symRate : Bool := false
  symMargin : Bool := false
  symMismatch : Bool := false
  symSpares : Bool := false
  symPastLife : Bool := false
  /-- R315: the bank has been WORN; reset 0. -/
  symWorn : Bool := false
  /-- R316, 10 bits: POST_MARGIN; reset 0 (DESIGN CHOICE). -/
  postMargin : Nat := 0
  /-- R315: permille of the last 8 top-ups, newest first; reset none. -/
  rates : List Nat := []
  /-- R316, 32 bits: TOPUP_PCYCLE; reset 0. -/
  topupPcycle : BitVec 32 := 0
  /-- R316, 64 bits: TOPUP_TIDE; reset 0. -/
  topupTide : BitVec 64 := 0
  /-- R315: re-run buckets of the last 24 h, newest first; reset none. -/
  reruns : List Nat := []
  /-- R491: drift age and re-run buckets as last stored; reset 0 and none (delivered: DESIGN CHOICE). -/
  storedDrift : Nat := 0
  storedReruns : List Nat := []
  /-- R301: margin samples taken; reset 0. -/
  samples : Nat := 0
  /-- R297: the measurement after a top-up run is still to come; reset 0. -/
  afterTopup : Bool := false
  /-- R303: an idle window of the bank's spill group is open; reset 0. -/
  window : Bool := false
  /-- R310: Tide of the last full known-sum test; reset 0. -/
  testedAt : BitVec 64 := 0
  /-- R309: the seal test has passed since the last program; reset 0. -/
  sealTested : Bool := false
  /-- R302: powered time of the last measurement, in s; reset 0. -/
  measuredAt : Nat := 0
  /-- R297: top-up run; reset none. -/
  run : Option Run := none
  /-- R310: failing columns under classification, with the tests that reported each; reset none. -/
  failing : Tab Nat := []
  /-- R310: full tests still owed for the classification; reset 0. -/
  retests : Nat := 0
  /-- R310: a recompute asks for a full test first; reset 0. -/
  afterRecompute : Bool := false
  /-- R309: seal tests that failed without naming a column; reset 0. -/
  sealFails : Nat := 0
  /-- R312: the bank is in steps 2 to 5 of a rebuild cycle, until its seal; reset 0. -/
  rebuilding : Bool := false
  /-- R209, R312: the bank whose slices move here once this bank is sealed; reset none. -/
  moveFrom : Option Nat := none
  /-- R72: the subset at which an interrupted full test goes on; reset none. -/
  calib : Option Nat := none
  /-- R59, R72: columns reported and subsets failed without a column, in the subsets that an interrupted test has run;
  reset none. -/
  calibCols : List Nat := []
  calibUnnamed : Bool := false
  /-- R56: Tide since when the margin index is below the exact floor, and the time spent below it so far, in Tide ticks;
  reset none and 0. -/
  belowSince : Option (BitVec 64) := none
  belowFor : Nat := 0
  deriving DecidableEq, Repr

/-! ## Integrity (11) -/

/-- A memory instance's bucket (R325, R327). -/
structure Bucket where
  /-- R327: C; reset 0. -/
  count : Nat := 0
  /-- R327: overflows; reset 0. -/
  overflows : Nat := 0
  /-- R325: permanent words, (word, bit), in the order they turned so; the first four form the hard-word table; reset none. -/
  hard : List (Nat × Nat) := []
  /-- R336: corrected errors after a write-back, (word, bit) with stamps in s; reset none. -/
  soft : List (Nat × Nat × Nat) := []
  deriving DecidableEq, Repr

/-- The kind of a unit that can fail (R336). -/
inductive UnitKind where
  | sramWord
  | harbourBank
  | column
  | array
  | island
  | ferry
  | cluster
  | lane
  deriving DecidableEq, Repr

/-- Failure history of one unit (R334, R338): stamps (power-cycle count, powered seconds), newest first. -/
structure History where
  stamps : List (Nat × Nat) := []
  /-- R334; reset 0. -/
  permanent : Bool := false
  deriving DecidableEq, Repr

/-! ## Events, monitors and the dictionary (14) -/

/-- The events that the manual names or says are raised; their code numbers are given at `evt.codes` only (R438). -/
inductive EventName where
  | islandQuarantine | throughputFall | moduleFault | belowFloor | tolerantNone
  | packetFault | lanePoison | badDescriptor | snBadType | deadlineMissed
  | bankWorn | bankRetired | replaced | refetch | swapFrontStopped
  | eraseStarved | forcedCover | wearSymptom | columnFailing | columnRebuilt
  | hardTableFull | ceBurst | uncorrectable | permanentFault | harbourBankFault
  | doorbellError | submissionFailed | portDevice | groupRefused | disagree
  | memberLeft | groupAborted | duplicateModId | storeLoss | cfgMismatch | holdLong
  | wakeFailed | supplyLow | throttle | islandHot | tideSource | watchdog
  | transientFault | linkFailed | identityLost | recovery | oscFailed | thermalTrip
  deriving DecidableEq, Repr

/-- An event record (R438). -/
structure Event where
  seq : Nat
  tide : BitVec 64
  epoch : BitVec 32
  pcycle : BitVec 32
  name : EventName
  severity : Nat
  unitKind : Nat
  unit : Nat
  /-- R438: it has been read from the log. -/
  read : Bool := false
  deriving DecidableEq, Repr

/-- A monitor record (R441). -/
structure Mon where
  count : BitVec 64 := 0
  sum : BitVec 64 := 0
  min : BitVec 32 := 0xFFFFFFFF
  max : BitVec 32 := 0
  last : BitVec 32 := 0
  clearTide : BitVec 64 := 0
  clearEpoch : BitVec 32 := 0
  /-- R442: bins 0 to 31. -/
  bins : Tab (BitVec 64) := []
  deriving DecidableEq, Repr

/-- A store entry of the configuration store (R426). -/
structure StoreEntry where
  object : Nat
  key : Nat
  seq : Nat
  value : Bytes
  deriving DecidableEq, Repr

/-- A management-bus endpoint's snapshot or pieces (R431). -/
structure MctpPieces where
  object : Nat
  key : Nat
  tag : Byte
  bytes : Bytes
  deriving DecidableEq, Repr

/-- The object dictionary (R417 to R445). -/
structure Dict where
  /-- R419: active values of RW and RWS objects that differ from their default, by object and key. -/
  active : Tab Bytes := []
  /-- R423: staged values; reset none. -/
  staged : Tab Bytes := []
  /-- R395: values held for a group commit; reset none. -/
  heldGroup : Tab Bytes := []
  /-- R395: a group commit of changes is pending; reset 0. -/
  groupPending : Bool := false
  /-- R421: 64-bit counters of RO objects, by object; reset 0. -/
  counters : Tab (BitVec 64) := []
  /-- R424, 32 bits: dev.cfg_reject; reset 0. -/
  cfgReject : BitVec 32 := 0
  /-- R426: store areas 0 and 1, newest entry first; reset empty (delivered: DESIGN CHOICE). -/
  area0 : List StoreEntry := []
  area1 : List StoreEntry := []
  /-- R426, 32 bits: next store sequence number; reset 0 (DESIGN CHOICE). -/
  storeSeq : Nat := 0
  /-- R438: the last 4,096 events, newest first; reset none. -/
  events : List Event := []
  /-- R438: SEQ of the next event; reset 1. -/
  nextSeq : Nat := 1
  /-- R440: the last 256 events of severity 2 and 3, newest first, kept across power loss; reset none. -/
  faultLog : List Event := []
  /-- R440: the endpoint that last read evt.log; reset none. -/
  logReader : Option Nat := none
  /-- R441: monitors by object and unit; reset every record empty. -/
  monitors : Tab Mon := []
  /-- R441: Tide and epoch of each monitor's last clear, by object; reset none (0, 0). -/
  monClears : Tab (BitVec 64 × BitVec 32) := []
  /-- R471: messages that wait for the core complex to wake, oldest first; reset none. -/
  waitingMsgs : List Instr := []
  /-- R442: the unit of each keyed monitor sampled most recently; reset none. -/
  monLast : Tab Nat := []
  /-- R431: read snapshots by endpoint; reset none. -/
  snapshots : Tab MctpPieces := []
  /-- R431: write pieces by endpoint; reset none. -/
  pieces : Tab MctpPieces := []
  deriving DecidableEq, Repr

/-! ## Registers (15) -/

/-- The BAR0 registers that are not held elsewhere (R461 to R466). -/
structure Regs where
  /-- R462, 32 bits: SYS_CTRL; reset 0. -/
  sysCtrl : BitVec 32 := 0
  /-- R462, 1 bit: SYS_STATUS.CFG_MATCH; reset 0. -/
  cfgMatch : Bool := false
  /-- R458, 1 bit: XDOM_BUSY; reset 0. -/
  xdomBusy : Bool := false
  /-- R458, 1 bit: XDOM_DROP; reset 0. -/
  xdomDrop : Bool := false
  /-- R459, 1 bit: DOM_OFF; reset 0. -/
  domOff : Bool := false
  /-- R456, 1 bit: HOLD_LONG; reset 0. -/
  holdLong : Bool := false
  /-- R452, 1 bit: RANGE_DROP; reset 0. -/
  rangeDrop : Bool := false
  /-- R462, 32 bits: SYS_CFG_CRC; reset 0. -/
  cfgCrc : BitVec 32 := 0
  /-- R462, 32 bits: SYS_CFG_CRC_REF; reset 0. -/
  cfgCrcRef : BitVec 32 := 0
  /-- R454: the check pass in progress has met a write; reset 0. -/
  passDirty : Bool := false
  /-- R462, 32 bits: SYS_CFG_CTRL, bit 0 HOLD; reset 1. -/
  cfgCtrl : BitVec 32 := 1
  /-- R456: HOLD_LONG has been raised in the present time of HOLD; reset 0. -/
  holdRaised : Bool := false
  /-- R456: Tide when HOLD became 1; reset 0. -/
  holdSince : BitVec 64 := 0
  /-- R462, 32 bits: SYS_PRIV_DROPS; reset 0. -/
  privDrops : BitVec 32 := 0
  /-- R462, 3 bits: SYS_MODID.MOD_ID; reset 0 (straps; DESIGN CHOICE). -/
  modId : BitVec 3 := 0
  /-- R342, R462, 2 bits: Port D mode in force; reset 0. -/
  dMode : BitVec 2 := 0
  /-- R462, 32 bits: SYS_MODE, active and pending; reset 0. -/
  modeActive : BitVec 32 := 0
  modePending : BitVec 32 := 0
  /-- R463, 32 bits: PWR_CAP, active and pending; reset the default cap of R3 (500). -/
  capActive : BitVec 32 := 500
  capPending : BitVec 32 := 500
  /-- R465, 32 bits: HBR_SPLIT, active and pending; reset 0x0014_1E32. -/
  splitActive : BitVec 32 := 0x00141E32
  splitPending : BitVec 32 := 0x00141E32
  /-- R464, 64 bits: TIDE_OFFSET, active and pending; reset 0. -/
  offsetActive : BitVec 64 := 0
  offsetPending : BitVec 64 := 0
  /-- R464, 64 bits: TIDE_ALARM; reset all ones. -/
  alarm : BitVec 64 := 0xFFFFFFFFFFFFFFFF
  /-- R464: the alarm as written has fired; reset 0. -/
  alarmFired : Bool := false
  /-- R463, 32 bits: PWR_DOM_SEL; reset 0. -/
  domSel : BitVec 32 := 0
  /-- R466, 32 bits: INT_CAUSE; reset 0. -/
  intCause : BitVec 32 := 0
  /-- R466, 32 bits: INT_MASK; reset 0. -/
  intMask : BitVec 32 := 0
  /-- R352, 64 bits: QUE_ADM_SQ, QUE_ADM_CQ, QUE_ADM_LOG; reset 0 (DESIGN CHOICE). -/
  admSq : BitVec 64 := 0
  admCq : BitVec 64 := 0
  admLog : BitVec 64 := 0
  /-- R352, 32 bits: QUE_ADM_CTRL; reset 0. -/
  admCtrl : BitVec 32 := 0
  /-- R352, 64 bits: PRT_DWIN; reset 0. -/
  dwin : BitVec 64 := 0
  /-- R349: the engine's configuration space; reset empty. -/
  dConfig : Bytes := []
  /-- R349: a device has been enumerated on Port D; reset 0. -/
  engineFound : Bool := false
  /-- R509, 64 bits: SEC_RCV_ADDR; reset 0. -/
  rcvAddr : BitVec 64 := 0
  /-- R509, 32 bits: SEC_RCV_LEN; reset 0. -/
  rcvLen : BitVec 32 := 0
  /-- R509, 4 bits: SEC_RCV_STATUS.STATE; reset 0. -/
  rcvState : BitVec 4 := 0
  /-- R498, R509, 8 bits: SEC_RCV_STATUS.REASON; reset 0. -/
  rcvReason : BitVec 8 := 0
  /-- R351, R352: MSI-X table and PBA words by offset; reset 0 (Per PCIe; DESIGN CHOICE). -/
  msix : Tab (BitVec 32) := []
  /-- R450, 32 bits: shadows by initiator and pair; reset 0. -/
  shadows : Tab (BitVec 32) := []
  /-- R451, 32 bits: stages by initiator and pair; reset 0. -/
  stages : Tab (BitVec 32) := []
  deriving DecidableEq, Repr

/-! ## Power, supply, heat and time (16, 18) -/

/-- The state of a power domain (R467), in the order of codes 0 to 3. -/
inductive PState where
  | off
  | ret
  | on
  | failed
  deriving DecidableEq, Repr

/-- One power domain (R467, R473, R475). -/
structure Domain where
  /-- R467, 2 bits; reset OFF except as R467 states. -/
  state : PState := .off
  /-- R473: request in progress; reset none. -/
  current : Option PTarget := none
  /-- R475: failed attempts of the wake in progress; reset 0. -/
  attempts : Nat := 0
  /-- R472, R473: the request that has not started, or that waits; reset none. -/
  queued : Option PTarget := none
  /-- R474, 1 bit: REFUSED; reset 0. -/
  refused : Bool := false
  /-- R494, 32 bits: wakes; reset 0. -/
  wakes : Nat := 0
  /-- R494, 32 bits: wake failures; reset 0. -/
  failures : Nat := 0
  /-- R476: it is FAILED because its unit was retired; reset 0. -/
  retired : Bool := false
  deriving DecidableEq, Repr

/-- How far the module has come up (R497, R506, R526). -/
inductive Phase where
  | off
  | aux
  | rails
  | rom
  | oscFailed
  | firmware
  | ready
  | recovery
  deriving DecidableEq, Repr

/-- A main rail (R524). -/
inductive Rail where
  | vddio
  | vser
  | vcore
  | vpp
  deriving DecidableEq, Repr

/-- Where a supply dip stands (R481). -/
inductive Dip where
  | none
  | tripped
  | hold
  | checking
  deriving DecidableEq, Repr

/-- Power, pins, the governor and heat. -/
structure Power where
  /-- R497, R526: reset `rom`, the end of the module reset. -/
  phase : Phase := .rom
  /-- R524: main rails in regulation, in the order of R526; reset all four. -/
  rails : List Rail := [.vddio, .vser, .vcore, .vpp]
  /-- R530, 1 bit: PWR_GOOD; reset 1. -/
  pwrGood : Bool := true
  /-- R530, 1 bit: FAULT_N is asserted; reset 0. -/
  faultN : Bool := false
  /-- R530, 1 bit: THERM_N is asserted; reset 0. -/
  thermN : Bool := false
  /-- R528: a thermal trip keeps the main rails off; reset 0. -/
  tripped : Bool := false
  /-- R26: the module cannot place every bound Last, or has had a module fault; reset 0. -/
  moduleFault : Bool := false
  /-- R26: Last slots that could not be placed again; reset none. -/
  unplaceable : List Nat := []
  /-- R467: domains by number; reset core complex, always-on, segments 0 and 1 ON, all others OFF. -/
  doms : Tab Domain := [(2048, { state := .on }), (2049, { state := .on }), (2080, { state := .on }), (2090, { state := .on })]
  /-- R24: requests that wait for admission, oldest first; reset none. -/
  waiting : List GovItem := []
  /-- R24: age of the next request; reset 0 (DESIGN CHOICE). -/
  nextOrder : Nat := 0
  /-- R484: clusters whose 13.75 W is held; reset none. -/
  shankCharged : List Nat := []
  /-- R134: the standing cluster; reset none (0xFF). -/
  standing : Option Nat := none
  /-- R486: throttle offset in seventieths of a milliwatt; reset 0. -/
  theta : Nat := 0
  /-- R486: power samples of the present period in mW, newest first; reset none. -/
  samples : List Nat := []
  /-- R487: the logic die limit halves B′; reset 0. -/
  logicHot : Bool := false
  /-- R471: Tide when the core complex entered RET; reset 0. -/
  retSince : BitVec 64 := 0
  /-- R471: highest Tj monitor value sampled while the core complex was in RET; reset 0. -/
  retHot : Nat := 0
  /-- R481: where a supply dip stands; reset none. -/
  dip : Dip := .none
  /-- R481: Tide at the dip's start; reset 0. -/
  dipSince : BitVec 64 := 0
  /-- R481, 32 bits: pwr.dip_longest_us; reset 0. -/
  dipLongest : Nat := 0
  /-- R481: islands that have not yet passed their short check, or the full test that followed it; reset none. -/
  dipIslands : List Nat := []
  /-- R481: the dip has raised its SUPPLY_LOW event; reset 0. -/
  dipLow : Bool := false
  /-- R534, 1 bit: SREF is present; reset 1 (an input; DESIGN CHOICE). -/
  sref : Bool := true
  deriving DecidableEq, Repr

/-- Tide and powered time. -/
structure Time where
  /-- R397, R464, 64 bits: the count of the PLL; reset 0. -/
  pll : BitVec 64 := 0
  /-- R400, 32 bits: Tide epoch; reset 0. -/
  epoch : BitVec 32 := 0
  /-- R492, 1 bit: Tide runs from the internal oscillator; reset 0. -/
  internal : Bool := false
  /-- R464: an epoch is to be opened for a committed write of a TIDE_ register; reset 0. -/
  epochDue : Bool := false
  /-- R401: ticks still to be slewed, in the sense of θ; reset 0. -/
  slew : Int := 0
  /-- R491: tide.powered_total_s as stored; reset 0 (delivered: DESIGN CHOICE). -/
  storedTotal : Nat := 0
  /-- R491: Tide when the total was stored; reset 0. -/
  storedAt : BitVec 64 := 0
  /-- R491: tide.powered_total_s at the last store of the total with drift ages and re-run buckets; reset 0 (delivered: DESIGN
  CHOICE). -/
  storedAllAt : Nat := 0
  /-- R315: hours of powered time at the last bucket roll; reset 0. -/
  bucketHour : Nat := 0
  /-- R294: powered seconds that drift ages have been advanced by; reset 0. -/
  driftAt : Nat := 0
  deriving DecidableEq, Repr

/-! ## Boot, keys and attestation (17) -/

/-- A pair of a ratchet count (R511). -/
structure RatchetPair where
  base : BitVec 32
  word : BitVec 64
  deriving DecidableEq, Repr

/-- A publisher key record (R513). -/
structure PubKey where
  trusted : Bool := false
  rsaE : BitVec 32 := 0
  rsaN : Bytes := []
  slhPk : Bytes := []
  keyId : Digest := []
  deriving DecidableEq, Repr

/-- Where the PLDM exchange stands (R508). -/
inductive PldmStage where
  | idle
  | requested
  | described
  | transferring
  | transferred
  | verified
  | applied
  deriving DecidableEq, Repr

/-- One SPDM connection (R517, R520). -/
structure Conn where
  /-- R517: GET_VERSION, GET_CAPABILITIES and NEGOTIATE_ALGORITHMS done, 0 to 3; reset 0. -/
  stage : Nat := 0
  /-- R519: the transcript; reset empty. -/
  transcript : Bytes := []
  /-- R519: the digest that the last RSA signature covered; reset none. -/
  signed : Option Digest := none
  /-- R517: chunks of a large request; reset empty. -/
  inbound : Bytes := []
  /-- R517: what is left of a large response; reset empty. -/
  outbound : Bytes := []
  deriving DecidableEq, Repr

/-- Boot and security. -/
structure Sec where
  /-- R510, 64 bits: sec.policy; reset all ones. -/
  policy : BitVec 64 := 0xFFFFFFFFFFFFFFFF
  /-- R511, R512: pairs of sec.fw_svn, newest first; reset none (count 0). -/
  svnPairs : List RatchetPair := []
  /-- R489, R511: pairs of tide.power_cycles, newest first; reset none (count 0; delivered: DESIGN CHOICE). -/
  cyclePairs : List RatchetPair := []
  /-- R513: publisher key slots 0 to 15; reset EMPTY (delivered: DESIGN CHOICE). -/
  keys : Tab PubKey := []
  /-- R501: the firmware slot's bytes; reset empty (delivered: DESIGN CHOICE). -/
  slot : Bytes := []
  /-- R498: every line of the slot reads without poison; reset 0 (DESIGN CHOICE, as the slot is empty). -/
  slotReadable : Bool := false
  /-- R504: a slot write is running; reset 0. -/
  slotWriting : Bool := false
  /-- R505: a module reset waits for the slot write; reset none. -/
  deferredReset : Option (BitVec 8) := none
  /-- R505: the boot that the next reset runs: recovery was asked for; reset 0. -/
  recoveryAsked : Bool := false
  /-- R503: the staged image in segment 1; reset empty. -/
  stage : Bytes := []
  /-- R521, 4 bits: STATE of sec.fw_stage_status; reset 0. -/
  stageState : BitVec 4 := 0
  /-- R521, 8 bits: REASON of sec.fw_stage_status; reset 0. -/
  stageReason : BitVec 8 := 0
  /-- R521, 32 bits: sec.fw_stage_id; reset 0. -/
  stageId : BitVec 32 := 0
  /-- R515: the identity keys are in the engine; reset 0. -/
  identity : Bool := false
  /-- R497: measurement register 2; reset empty. -/
  measure2 : Digest := []
  /-- R497: the engine is locked; reset 0. -/
  locked : Bool := false
  /-- R502: header fields of the running image; reset 0. -/
  release : BitVec 32 := 0
  runningKey : Nat := 0
  /-- R507: a recovery image received into segment 1; reset empty. -/
  recoveryImage : Bytes := []
  /-- R508: PLDM stage, announced size and reason; reset idle, 0, 0. -/
  pldm : PldmStage := .idle
  pldmSize : Nat := 0
  pldmReason : BitVec 8 := 0
  /-- R517: SPDM connections; reset none. -/
  conns : Tab Conn := []
  deriving DecidableEq, Repr

/-! ## Ports and Strait (12, 13) -/

/-- A PCIe port (R343, R346, R347, R465). -/
structure PortState where
  /-- R533: PERST_N of the port is asserted; reset 1. -/
  perst : Bool := true
  /-- R465, 3 bits: SPEED; reset 0. -/
  speed : BitVec 3 := 0
  /-- R465, 5 bits: WIDTH; reset 0. -/
  width : BitVec 5 := 0
  /-- R465, 1 bit: FLIT; reset 0. -/
  flit : Bool := false
  /-- R465, 1 bit: LINK_UP; reset 0. -/
  linkUp : Bool := false
  /-- R346, 1 bit: D3HOT; reset 0. -/
  d3hot : Bool := false
  /-- R379: AER errors counted; reset 0. -/
  aer : Nat := 0
  deriving DecidableEq, Repr

/-- The state of a Strait link (R389, R465), in the order of codes 0 to 6. -/
inductive LinkState where
  | disabled
  | down
  | training
  | exchange
  | active
  | quarantine
  | failed
  deriving DecidableEq, Repr

/-- One Strait link (R380, R385, R389). -/
structure Link where
  /-- R389, 3 bits; reset DISABLED. -/
  state : LinkState := .disabled
  /-- R380, 1 bit: two half-links; reset 0. A trained link holds EXCHANGE here; its gang's state is in `Strait.gangs`. -/
  halves : Bool := false
  /-- R465, 4 bits: active lanes; reset 0. -/
  lanes : BitVec 4 := 0
  /-- R336, 4 bits: lanes retired, kept across power cycles; reset 0. -/
  retired : BitVec 4 := 0
  /-- R465, 3 bits each: peers; reset 0. -/
  peerA : BitVec 3 := 0
  peerB : BitVec 3 := 0
  /-- R385, 12 bits: last SEQ received intact; reset 0 (DESIGN CHOICE). -/
  rxSeq : BitVec 12 := 0
  /-- R385, 12 bits: last SEQ sent; reset 0 (DESIGN CHOICE). -/
  txSeq : BitVec 12 := 0
  /-- R385: replay buffer, oldest first: its first 2,048 FLITs have been sent, later ones wait for room; reset empty. -/
  replay : List (BitVec 12 × Bytes) := []
  /-- R465, 32 bits: STR_REPLAYS; reset 0. -/
  replays : BitVec 32 := 0
  /-- R387: Tide of each lane's last episode; reset none. -/
  episodes : Tab (BitVec 64) := []
  /-- R387: bytes corrected by FEC in the present 1 ms interval, by lane; reset 0. -/
  corrected : Tab Nat := []
  /-- R384: Sound words of a packet that runs across FLITs; reset none. -/
  partialPacket : List Flit := []
  /-- R388: it retrains on its remaining lanes, and its traffic waits; reset 0. -/
  retraining : Bool := false
  deriving DecidableEq, Repr

/-- A group request that members have reported (R402). -/
structure GroupReq where
  key : BitVec 64
  slot : Nat
  ctx : Nat
  members : List Nat
  since : BitVec 64
  deriving DecidableEq, Repr

/-- A multicast group of a bound Last (R407 to R410). -/
structure Mcast where
  slot : Nat
  plan : McastPlan
  /-- R410: receivers cut for the present launch. -/
  cut : List Nat
  /-- R408: grants held, (member, Harbour address). -/
  grants : List (Nat × BitVec 30)
  /-- R409: credits outstanding, (member, handle, Tide since it is awaited). -/
  credits : List (Nat × BitVec 16 × BitVec 64)
  deriving DecidableEq, Repr

/-- The device group and Strait (R380 to R411). -/
structure Strait where
  /-- R380: links 0 to 6, each with its whole link or its first half-link; the second half-link of link n at n + 7. -/
  links : Tab Link := []
  /-- R390, 8 bits: grp.members in force; reset 0. -/
  members : BitVec 8 := 0
  /-- R390: refused, its own bit is clear; reset 0. -/
  refused : Bool := false
  /-- R394: the last manifest received, by MOD_ID; reset none. -/
  manifests : Tab Bytes := []
  /-- R394: members whose manifest has come in the present exchange; reset none. -/
  collected : List Nat := []
  /-- R389, R394: the state of the gang to each member, by MOD_ID: EXCHANGE, ACTIVE or QUARANTINE; reset none. -/
  gangs : Tab LinkState := []
  /-- R392, R395: LAST entries of the manifest in force, by Last slot; reset none. -/
  listed : Tab Bytes := []
  /-- R396: Tide when the present disagreement began; reset none. -/
  disagreeSince : Option (BitVec 64) := none
  /-- R401: left under R401 and not rejoined; reset 0. -/
  left : Bool := false
  /-- R400: joined: Tide aligned to the leader; reset 0. -/
  aligned : Bool := false
  /-- R401: members that have left; reset none. -/
  gone : List Nat := []
  /-- R402: requests reported, by key; reset none. -/
  reports : List GroupReq := []
  /-- R402: group launches agreed, (KEYs, generation, T_L), not yet launched; reset none. -/
  agreed : List (List (BitVec 64) × BitVec 16 × BitVec 64) := []
  /-- R401: measurements taken in the present attempt; reset 0. -/
  measures : Nat := 0
  /-- R400: a module joins or rejoins, and the group's new epoch has not been opened yet; reset 0. -/
  joining : Bool := false
  /-- R399: θ of each exchange of the present measurement, oldest first; reset none. -/
  thetas : List Int := []
  /-- R399: the last measurement's result; reset none. -/
  theta : Option Int := none
  /-- R407: multicast groups; reset none. -/
  mcasts : List Mcast := []
  deriving DecidableEq, Repr

/-! ## What the module sends -/

/-- A message that leaves the module: a posted write, an interrupt, a bus response, a link message, a register read's
result. The list of them is the model's own record of its outputs. -/
inductive OutMsg where
  | hostWrite (port : Port) (addr : BitVec 64) (data : Bytes) (poison : Bool)
  | completion (port : Port) (addr : BitVec 64) (entry : Bytes)
  | zeroRead (port : Port)
  | msix (port : Port) (vector : Nat)
  | regData (i : Initiator) (value : BitVec 64)
  | portData (i : Initiator) (data : Bytes) (poison : Bool)
  | unsupported (i : Initiator)
  | accessFault (i : Initiator)
  | mctp (ep : Nat) (tag : Byte) (op : Byte) (status : Byte) (data : Bytes)
  | eventNotice (ep : Nat) (record : Bytes)
  | spdm (conn : Nat) (data : Bytes)
  | spdmError (conn : Nat) (code : Nat)
  | pldm (code : Byte) (data : Bytes)
  | soundData (port : BitVec 12) (words : List Flit) (poison : Bool)
  | straitFlit (link : Nat) (seq : BitVec 12) (flit : Bytes)
  | straitNak (link : Nat) (ack : BitVec 12)
  | straitControl (member : Nat) (kind : Nat) (words : List Nat)
  | engineAccess (addr : BitVec 64) (data : Option Bytes)
  deriving DecidableEq, Repr

/-! ## The whole state -/

/-- Why a step faults. Each is raised only where a command names something that the spec says does not exist. -/
inductive Fault where
  /-- Raised by a command that names an island, array, bank or domain that the part does not have (R1, R43). Safe. -/
  | absentUnit
  deriving DecidableEq, Repr

/-- Why a step refuses. -/
inductive Refusal where
  /-- Raised by an arm of `exec` whose command has no meaning yet. Safe. -/
  | notModelled (mnemonic : String)
  deriving DecidableEq, Repr

/-- Queues, commands and requests (12_host_ports.md). -/
structure Que where
  /-- R353: queue pairs 0 to 16,383. -/
  pairs : Tab QPair := []
  /-- R357: admission slots 0 to 4,095. -/
  cmds : Tab Cmd := []
  /-- R369: order of the next admission; reset 0 (DESIGN CHOICE). -/
  nextOrder : Nat := 0
  /-- R361: INFER requests by admission slot. -/
  reqs : Tab Req := []
  /-- R370: contexts that a close or a save is waiting on, with its admission slot. -/
  closing : Tab Nat := []
  /-- R357: the pair read last; reset 0 (DESIGN CHOICE). -/
  lastPair : Nat := 0
  /-- R357: entries read in its present burst; reset 8, a burst that has ended (DESIGN CHOICE). -/
  burst : Nat := 8
  /-- R355: completions that wait for the disable of a pair in ERROR, by admission slot; reset none. -/
  parked : List (Nat × Reply) := []
  /-- R221: owner slot of each context group; reset none. -/
  groups : Tab Nat := []
  /-- R154, R376: KV slabs of each context, (slab, layer, first token). -/
  kv : Tab (List (BitVec 16 × Nat × Nat)) := []
  /-- R346: writes and completions held while a port is in D3hot, oldest first. -/
  held : List OutMsg := []
  deriving DecidableEq, Repr

/-- Lasts, images, launches and adapters (07, 08). -/
structure Model where
  /-- R201: Last slots 0 to 63. -/
  slots : Tab Slot := []
  /-- R231: image records 0 to 127. -/
  images : Tab ImageRec := []
  /-- R237: loads running, by admission slot. -/
  loads : Tab Load := []
  /-- R259: adapter slots 0 to 65,535. -/
  adapters : Tab Adapter := []
  /-- R260: banks of the adapter pool. -/
  pool : List Nat := []
  /-- R150, R160: adapters kept in SHARED space, oldest use first, each with its slabs; reset none. -/
  cache : List (Nat × List (BitVec 16)) := []
  /-- R33: launches admitted and not ended, by number. -/
  launches : Tab Launch := []
  /-- number of the next launch; reset 0 (DESIGN CHOICE). -/
  nextLaunch : Nat := 0
  /-- R147: covers by bank. -/
  covers : Tab Cover := []
  deriving DecidableEq, Repr

/-- Ferries, Laces and handles (06). -/
structure Flow where
  /-- R182: Ferries 0 to 255. -/
  ferries : Tab Ferry := []
  /-- R182: descriptors that wait for a slot, with their age. -/
  waiting : List (Nat × Desc) := []
  /-- R182: age of the next stream; reset 0 (DESIGN CHOICE). -/
  nextOrder : Nat := 0
  /-- R178: Laces 0 to 4,095 in use. -/
  laces : Tab Lace := []
  /-- R176: free pools: slot n at n, KV pool of group g at 64 + g. -/
  pools : Tab (List (BitVec 16)) := []
  /-- R179: handles whose slab is being cleared, with the pool they return to. -/
  clearing : List (BitVec 16 × Nat) := []
  /-- R143: handles held beyond their release by a recompute. -/
  recomputeHolds : List (BitVec 16) := []
  /-- R19, R21: long-sum packets and copies to other modules that have been sent and not yet acknowledged, with their port
  and their poison, oldest first; reset none. -/
  unacked : List (BitVec 12 × List Flit × Bool) := []
  deriving DecidableEq, Repr

/-- Integrity (11). -/
structure Integ where
  /-- R414: the cores' 32 MiB of SRAM in eight 4 MiB banks of one core each, as the data bits of its 64-bit words stand, by word
  number below 4,194,304; word n lies in bank n ÷ 524,288; an unlisted word is 0; reset 0 (DESIGN CHOICE). -/
  sram : Tab (BitVec 64) := []
  /-- R319, R414: stored check byte XOR computed check byte of each of its words; an unlisted word is 0 (a valid codeword);
  reset none. -/
  sramDev : Tab (BitVec 8) := []
  /-- R327: buckets by instance: kind × 65,536 + number. -/
  buckets : Tab Bucket := []
  /-- R334, R338: failure history by unit kind and number. -/
  history : List (UnitKind × Nat × History) := []
  deriving DecidableEq, Repr

/-- The state of the module. -/
structure State where
  /-- The commands that wait, first in, first out (the model's own). -/
  pending : List Instr := []
  /-- R1, 1 bit: CX-816 and not CX-808; reset CX-816 (DESIGN CHOICE). -/
  part816 : Bool := true
  /-- R2, 1 bit: suffix -L; reset none (DESIGN CHOICE). -/
  liquid : Bool := false
  /-- R4, 1 bit: suffix -P; reset none (DESIGN CHOICE). -/
  preloaded : Bool := false
  power : Power := {}
  time : Time := {}
  regs : Regs := {}
  dict : Dict := {}
  sec : Sec := {}
  portU : PortState := {}
  portD : PortState := {}
  que : Que := {}
  model : Model := {}
  flow : Flow := {}
  hbr : Harbour := {}
  /-- R43: banks by global number; reset the banks of the store and the firmware slot in STORAGE (R426, R501; their numbers: DESIGN
  CHOICE), and no other entry. -/
  banks : Tab Bank := systemBanks.map fun n => (n, systemBankRecord)
  /-- R43: islands by global number. -/
  islands : Tab Island := []
  /-- R132: Shank clusters 0 to 15. -/
  clusters : Tab Cluster := []
  awl : Awl := {}
  /-- R316: schedule records by bank. -/
  scheds : Tab Sched := []
  integ : Integ := {}
  strait : Strait := {}
  /-- The messages that the module has sent, oldest first (the model's own record of its outputs). -/
  out : List OutMsg := []
  /-- The free-value counter (the model's own; notes/assumptions/3.md); reset 0 (DESIGN CHOICE). -/
  free : Nat := 0
  deriving DecidableEq, Repr

/-- The module at the end of a module reset (t4 of R526, t0 of R497): PWR_GOOD is asserted, the boot ROM has not yet
run, every register holds its reset value, no command waits. -/
def State.reset : State := {}

end Sys2Proof.Machine
end

