-- ==== Sys2Proof/Machine/Clock.lean ====
section
/-! DEFINITION. The passage of time (notes/assumptions/1.md). -/

namespace Sys2Proof.Machine

/-- One 1 ns tick of the PLL's count, while the always-on domain is powered (R397, R488). -/
def tick (s : State) : State :=
  match s.power.phase with
  | .off => s
  | _ => { s with time := { s.time with pll := s.time.pll + 1 } }

end Sys2Proof.Machine
end

