-- ==== Sys2Proof/Config.lean ====
section
/-! DEFINITION. What the part fixes and the spec leaves open, as constants without a body (notes/assumptions/3.md): no
proof can see a value of any of them. Cryptographic functions stand here too, as uninterpreted functions. -/

namespace Sys2Proof.Config

/-- A fresh free value, by the model's counter `State.free`. -/
opaque freeNat : Nat → Nat

/-- The SHA-384 digest of a byte string (R197, R227, R498). -/
opaque sha384 : Bytes → Digest

/-- RSASSA-PSS verification: exponent, modulus, digest, signature (R204, R228, R498). -/
opaque rsaVerify : BitVec 32 → Bytes → Digest → Bytes → Bool

/-- SLH-DSA verification: public key, digest, signature (R204, R228, R498). -/
opaque slhVerify : Bytes → Digest → Bytes → Bool

/-- An RSA signature of the module's identity key over a digest (R519). -/
opaque rsaSign : Digest → Bytes

/-- An SLH-DSA signature of the module's identity key over a digest (R519). -/
opaque slhSign : Digest → Bytes

/-- Vexden's firmware keys in the boot ROM, by key index 0 to 3: exponent, modulus, SLH-DSA key (R498, R502). -/
opaque fwKey : Nat → BitVec 32 × Bytes × Bytes

/-- The 16-bit code of an event, published at `evt.codes` only (R438), by the event's number in the model. -/
opaque eventCode : Nat → BitVec 16

/-- The severity 0 to 3 of an event, which the spec does not give event by event (R438), by its number. -/
opaque eventSeverity : Nat → Fin 4

/-- The bytes of an RO record whose layout the spec does not give, from the object's number and the values in it. -/
opaque layout : Nat → List Nat → Bytes

/-- A FACTORY value set at manufacture (R421), by object. -/
opaque factory : Nat → Bytes

/-- The 64-byte entry of the configuration store is not laid out (R426): an area of these entry sizes is short of lines. -/
opaque storeShort : List Nat → Bool

/-- The two interleaved Reed-Solomon check byte pairs of a FLIT (R383), whose field polynomial the manual does not give. -/
opaque fecBytes : Bytes → Bytes

/-- The payload words of a link message in CONTROL FLITs (R384), which the manual does not lay out, by kind and values. -/
opaque controlWords : Nat → List Nat → List Nat

/-- An SPDM response body for a request that the SPDM standard lays out (R517): code, request, values. -/
opaque spdmBody : Nat → Bytes → List Bytes → Bytes

/-- The messages of an SPDM connection that the SPDM standard has a signature cover (R519): response code, messages. -/
opaque spdmCovered : Nat → Bytes → Bytes

/-- The SHA-384 digest of the mask ROM, in measurement register 1 (R497, R518). -/
opaque romHash : Digest

/-- What Uzomel reads in the private sections 1 and 3 to 8 of a Last file (R541); none where it cannot read them. -/
opaque lastPlan : Bytes → Option Machine.LastPlan

/-- The result of a step that is no dot product, which the private sections of the Last define (R14, R198): the layer and the
output, the order of arrival that a relaxed reduction sees (R140; 0 in strict mode), and every byte and random number that it
reads. -/
opaque stepResult : Nat → Nat → List Nat → BitVec 32

/-- The operands of one output's reduction, which the private sections of the Last define (R137, R198): the layer and the
output, and the input bytes, to the element codes of the two operands by reduction index. -/
opaque stepOperands : Nat → List Nat → List (Nat × Nat)

/-- The E8M0 scale codes of the two operands of each chunk of that reduction (R113, R137). -/
opaque stepScales : Nat → List Nat → List (Nat × Nat)

/-- The random number that sampling draws (R223): seed, number of the draw. -/
opaque randomDraw : Nat → Nat → Nat

/-- The Harbour address of a context's KV slab map (R222), which the manual does not place. -/
opaque kvRoot : Nat → BitVec 64

/-- The Harbour address of a tensor that a request's layers hand on to one another (R180, R183): admission slot, tensor. -/
opaque activation : Nat → Nat → BitVec 64

/-- The slab of the SYSTEM segment at which the copy of a vector begins that is longer than a Ferry's staging buffer (R124): Ferry,
stream slot. -/
opaque stagingSlab : Nat → Nat → Nat

/-- A lane at a higher exponent than its join's, whose low bits the lane cannot hold (R93, R149): the difference, the lane. -/
opaque laneBelow : Int → BitVec 320 → BitVec 320

/-- What the power of 2^k makes of a curve's polynomial value where the manual does not state it (R152): function, k, value. -/
opaque curveScale : Nat → Int → BitVec 32 → BitVec 32

/-- An out-of-range curve result that the manual does not state (R152): function, argument. -/
opaque curveOut : Nat → BitVec 32 → BitVec 32

end Sys2Proof.Config
end

