-- ==== Sys2Proof/Machine/Tab.lean ====
section
/-! DEFINITION. Reading and writing sparse tables, lists and little-endian fields (R8). -/

namespace Sys2Proof.Machine

/-- The entry of number `n`, if it is listed. -/
def tget? {α : Type} : Tab α → Nat → Option α
  | [], _ => none
  | (k, v) :: t, n => if k = n then some v else tget? t n

/-- The entry of number `n`, `d` where it is not listed. -/
def tget {α : Type} (t : Tab α) (n : Nat) (d : α) : α := (tget? t n).getD d

/-- The table with entry `n` set to `v`, in rising order. -/
def tset {α : Type} : Tab α → Nat → α → Tab α
  | [], n, v => [(n, v)]
  | (k, w) :: t, n, v =>
    if n < k then (n, v) :: (k, w) :: t
    else if n = k then (n, v) :: t
    else (k, w) :: tset t n v

/-- The table without entry `n`. -/
def tdel {α : Type} : Tab α → Nat → Tab α
  | [], _ => []
  | (k, w) :: t, n => if k = n then t else (k, w) :: tdel t n

/-- Change entry `n`, read as `d` where it is not listed. -/
def tmod {α : Type} (t : Tab α) (n : Nat) (d : α) (f : α → α) : Tab α := tset t n (f (tget t n d))

/-- The numbers listed. -/
def tkeys {α : Type} (t : Tab α) : List Nat := t.map Prod.fst

/-- The lowest number below `bound` that is not listed. -/
def freeKey {α : Type} (t : Tab α) (bound : Nat) : Option Nat :=
  (List.range bound).find? fun n => (tget? t n).isNone

/-- The lowest unlisted number at or above `n` among `fuel` candidates, counting cyclically below `bound`. -/
def nextKey {α : Type} (t : Tab α) (bound : Nat) : Nat → Nat → Option Nat
  | 0, _ => none
  | fuel + 1, n =>
    if (tget? t (n % bound)).isNone then some (n % bound) else nextKey t bound fuel (n + 1)

/-- Insert a number into a rising list without repeats. -/
def insertUp (n : Nat) : List Nat → List Nat
  | [] => [n]
  | k :: t => if n < k then n :: k :: t else if n = k then k :: t else k :: insertUp n t

/-- The number that little-endian bytes spell. -/
def leNat : Bytes → Nat
  | [] => 0
  | b :: t => b.toNat + 256 * leNat t

/-- The `len` little-endian bytes of a number. -/
def leBytes : Nat → Nat → Bytes
  | 0, _ => []
  | len + 1, n => BitVec.ofNat 8 n :: leBytes len (n / 256)

/-- The field of `len` bytes at `off`; bytes past the end read as 0. -/
def fld (b : Bytes) (off len : Nat) : Nat := leNat ((b.drop off).take len)

/-- The bytes of the field of `len` bytes at `off`. -/
def sub (b : Bytes) (off len : Nat) : Bytes := (b.drop off).take len

/-- Exactly `len` bytes: cut, or filled with zeros. -/
def fit (b : Bytes) (len : Nat) : Bytes := b.take len ++ List.replicate (len - b.length) 0

/-- All bytes from `off` for `len` are 0 or absent. -/
def zeroAt (b : Bytes) (off len : Nat) : Bool := (sub b off len).all (· = 0)

/-- Bit `i` of a number. -/
def bitAt (n i : Nat) : Bool := (n >>> i) % 2 = 1

/-- Bits `hi` down to `lo` of a number. -/
def bitsAt (n hi lo : Nat) : Nat := (n >>> lo) % 2 ^ (hi + 1 - lo)

/-- A signed reading of the low `w` bits. -/
def signedAt (w n : Nat) : Int := if n % 2 ^ w < 2 ^ (w - 1) then (n % 2 ^ w : Nat) else (n % 2 ^ w : Nat) - (2 ^ w : Nat)

/-- 1 or 0. -/
def b2n (b : Bool) : Nat := if b then 1 else 0

/-- Round up a division. -/
def ceilDiv (a b : Nat) : Nat := (a + b - 1) / b

/-- Replace the bytes of a run from `off`. -/
def splice (b : Bytes) (off : Nat) (d : Bytes) : Bytes := b.take off ++ d ++ b.drop (off + d.length)

/-- Cut a run into pieces of `k` bytes (`k` positive; the last may be shorter). -/
def chunksOf {α : Type} (k : Nat) : Nat → List α → List (List α)
  | 0, _ => []
  | _ + 1, [] => []
  | fuel + 1, l => l.take k :: chunksOf k fuel (l.drop k)

end Sys2Proof.Machine
end

