-- ==== Sys2Proof/Machine/Flags.lean ====
section
/-! DEFINITION. The check computations: CRC-32C (R329), the SEC-DED (72,64) code (R320 to R322), residue bits and the
residue identity (R60, R61), row groups (R84), converter codes and their flags (R49, R52). -/

namespace Sys2Proof.Machine

/-- One bit of the reflected CRC-32C register (R329). -/
def crcBit (c : Nat) : Nat := if c % 2 = 1 then (c / 2) ^^^ 0x82F63B78 else c / 2

/-- One byte of the CRC-32C register (R329). -/
def crcByte (c : Nat) (b : Byte) : Nat :=
  crcBit (crcBit (crcBit (crcBit (crcBit (crcBit (crcBit (crcBit (c ^^^ b.toNat))))))))

/-- CRC-32C of a byte string (R329): initial value and final XOR 0xFFFF_FFFF. -/
def crc32c (b : Bytes) : BitVec 32 := BitVec.ofNat 32 (b.foldl crcByte 0xFFFFFFFF ^^^ 0xFFFFFFFF)

/-- The H-matrix columns of data bits 0 to 63 (R320). -/
def hCols : List Nat :=
  [0x07, 0x0B, 0x0D, 0x0E, 0x13, 0x15, 0x16, 0x19, 0x1A, 0x1C, 0x23, 0x25, 0x26, 0x29, 0x2A, 0x2C] ++
  [0x31, 0x32, 0x34, 0x38, 0x43, 0x45, 0x46, 0x49, 0x4A, 0x4C, 0x51, 0x52, 0x54, 0x58, 0x61, 0x62] ++
  [0x64, 0x68, 0x70, 0x83, 0x85, 0x86, 0x89, 0x8A, 0x8C, 0x91, 0x92, 0x94, 0x98, 0xA1, 0xA2, 0xA4] ++
  [0xA8, 0xB0, 0xC1, 0xC2, 0xC4, 0xC8, 0xD0, 0xE0, 0x1F, 0x2F, 0x37, 0x3B, 0x3D, 0x3E, 0x4F, 0x57]

/-- XOR of the columns of the set bits. -/
def checkFold : List Nat → Nat → Nat
  | [], _ => 0
  | h :: t, d => (if d % 2 = 1 then h else 0) ^^^ checkFold t (d / 2)

/-- The check byte of a 64-bit word (R320). -/
def eccCheck (d : BitVec 64) : BitVec 8 := BitVec.ofNat 8 (checkFold hCols d.toNat)

/-- The outcomes of a decode (R321). -/
inductive EccOut where
  | clean
  | checkBit (k : Nat)
  | dataBit (i : Nat)
  | poison
  | uncorrectable
  deriving DecidableEq, Repr

/-- The number of set bits. -/
def popNat : Nat → Nat → Nat
  | 0, _ => 0
  | fuel + 1, n => n % 2 + popNat fuel (n / 2)

/-- Decode by syndrome (R321). -/
def eccDecode (syn : BitVec 8) : EccOut :=
  if syn = 0 then .clean
  else if syn = 0xFF then .poison
  else if popNat 8 syn.toNat = 1 then .checkBit (Nat.log2 syn.toNat)
  else match hCols.findIdx? (· = syn.toNat) with
    | some i => .dataBit i
    | none => .uncorrectable

/-- The syndrome of a word and its check byte (R321). -/
def syndrome (d : BitVec 64) (c : BitVec 8) : BitVec 8 := c ^^^ eccCheck d

/-- The residue bits j0, j1 and j2 of a check group: bits 0 to 2 of its popcount (R60). -/
def residueBits (groupWord : Nat) : Nat := popNat 32 groupWord % 8

/-- The residue identity of one group: data count sum and the three check counts (R61). -/
def residueOk (d c0 c1 c2 : Nat) : Bool := d % 8 = (c0 + 2 * c1 + 4 * c2) % 8

/-- The residue identity over the 32 check groups of the codes of the 1,120 logical columns (R41, R61). -/
def residuesOk (codes : List Nat) : Bool :=
  (List.range 32).all fun g =>
    residueOk (((codes.drop (32 * g)).take 32).sum)
      (codes.getD (1024 + 3 * g) 0) (codes.getD (1025 + 3 * g) 0) (codes.getD (1026 + 3 * g) 0)

/-- The running row group: mask, population, row-index sum. -/
abbrev RowGroup := BitVec 1024 × Nat × BitVec 16

/-- R84's procedure over the rows from `row` up; `plane` is shifted so that its bit 0 is that row. -/
def formGroupsFrom (limit : Nat) (scaled : Bool) : Nat → Nat → Nat → RowGroup → List RowGroup
  | 0, _, _, g => if g.2.1 > 0 then [g] else []
  | fuel + 1, row, plane, g =>
    let close := scaled && row % 32 == 0 && decide (g.2.1 > 0)
    let g₁ : RowGroup := if close then (0, 0, 0) else g
    let rest :=
      if plane % 2 = 1 then
        let g₂ : RowGroup := (g₁.1 ||| BitVec.ofNat 1024 (2 ^ row), g₁.2.1 + 1, g₁.2.2 + BitVec.ofNat 16 row)
        if g₂.2.1 = limit then g₂ :: formGroupsFrom limit scaled fuel (row + 1) (plane / 2) (0, 0, 0)
        else formGroupsFrom limit scaled fuel (row + 1) (plane / 2) g₂
      else formGroupsFrom limit scaled fuel (row + 1) (plane / 2) g₁
    if close then g :: rest else rest

/-- The row groups of a plane (R84). -/
def formGroups (plane : BitVec 1024) (limit : Nat) (scaled : Bool) : List RowGroup :=
  formGroupsFrom limit scaled 1024 0 plane.toNat (0, 0, 0)

/-- Round to nearest, ties to even, of `n / d` for a positive `d`. -/
def rneDiv (n : Int) (d : Nat) : Int :=
  let q := n / (d : Int)
  let r := n % (d : Int)
  if 2 * r < d then q else if 2 * r > d then q + 1 else if q % 2 = 0 then q else q + 1

/-- RNE of `n * 2^k` (R121). -/
def rne (n k : Int) : Int := if 0 ≤ k then n * 2 ^ k.toNat else rneDiv n (2 ^ (-k).toNat)

/-- Floor division by a positive number. -/
def floorDiv (n : Int) (d : Nat) : Int := n / (d : Int)

/-- An exact-class conversion of an edge `e` thousandths of τ after the zero edge, for population P (R49):
code and the UNDER and OVER flags. An edge on a threshold goes to the higher count (notes/assumptions/20.md). -/
def exactCode (p : Nat) (e : Int) : Nat × Bool × Bool :=
  if e < -500 then (0, true, false)
  else if e > (p : Int) * 1000 + 500 then (p + 1, false, true)
  else (min p (floorDiv (e + 500) 1000).toNat, false, false)

/-- The tolerant converter step q of population P (R52). -/
def tolStep (p : Nat) : Nat := if p ≤ 127 then 1 else if p ≤ 254 then 2 else if p ≤ 508 then 4 else 8

/-- A tolerant-class conversion (R52): code and whether it saturated. DESIGN CHOICE (notes/assumptions/20.md): a rounding
above P of an edge that is not later than (P + 0.5)τ counts as a saturation too; R52 counts "each such saturation, late or
early" and leaves this one open. -/
def tolerantCode (p : Nat) (e : Int) : Nat × Bool :=
  let q := tolStep p
  if 2 * e < -((q : Int) * 1000) then (0, true)
  else if e > (p : Int) * 1000 + 500 then (p, true)
  else
    let c := (q : Int) * rneDiv e (q * 1000)
    if c > p then (p, true) else if c < 0 then (0, true) else (c.toNat, false)

/-- A margin index from a largest deviation in millionths of τ (R55): 1,000 − 2,000 d, rounded down, at least 0. -/
def marginIndex (devMicro : Nat) : Nat := 1000 - min 1000 (ceilDiv devMicro 500)

/-- A margin index from the fewest steps of 1/64 of a level spacing, at most half a spacing (R287). -/
def marginOfSteps (steps : Nat) : Nat := min 1000 (2000 * min 32 steps / 64)

/-- The subsets of reference rows that a known-sum test drives (R58), by number 0 to 9. -/
def ksSubsets : List (List Nat) := (List.range 8).map (fun r => [r]) ++ [[1, 2], List.range 8]

/-! ## The speed factor (R47) -/

/-- k(V, T) in hundredths at VCORE 0.69 V to 0.81 V in steps of 0.03 V and Tj 0, 30, 60 and 95 °C, as shipped (R47). -/
def tauCurve : List (List Nat) :=
  [[110, 113, 118, 124], [101, 104, 108, 114], [93, 96, 100, 105], [87, 90, 93, 98], [82, 85, 88, 92]]

/-- The Tj points of the table, in quarter degrees above −40 °C. -/
def tauTj : List Nat := [160, 280, 400, 540]

/-- A row of the table at a Tj, as hundredths over a denominator: linear between points, held outside them (R47). -/
def tauRow (row : List Nat) (tj : Nat) : Nat × Nat :=
  match (List.range 3).find? fun i => decide (tauTj.getD i 0 ≤ tj) && decide (tj < tauTj.getD (i + 1) 0) with
  | some i =>
    let x := tauTj.getD i 0
    let y := tauTj.getD (i + 1) 0
    (row.getD i 0 * (y - tj) + row.getD (i + 1) 0 * (tj - x), y - x)
  | none => (if tj < 160 then row.getD 0 0 else row.getD 3 0, 1)

/-- The speed factor at a VCORE in millivolts and a Tj in quarter degrees above −40 °C, as a fraction (R47). -/
def speedFactor (mv tj : Nat) : Nat × Nat :=
  let v := min 810 (max 690 mv)
  let i := min 3 ((v - 690) / 30)
  let a := tauRow (tauCurve.getD i []) tj
  let b := tauRow (tauCurve.getD (i + 1) []) tj
  (a.1 * (720 + 30 * i - v) + b.1 * (v - (690 + 30 * i)), 3000 * a.2)

/-- The typical length of a pulse cycle of population P, in picoseconds rounded down (R47). -/
def pulsePicos (mv tj p : Nat) : Nat :=
  let k := speedFactor mv tj
  (1200 + 38 * p) * k.1 / k.2

/-- The check bits of reference-row patterns aside, logical data bit of reference row `r` in column offset `m` (R57). -/
def refBit (r m : Nat) : Bool :=
  match r with
  | 0 => true
  | 1 => m < 5
  | 2 => m < 3
  | 3 => m % 2 = 1
  | 4 => m / 2 % 2 = 1
  | 5 => m / 4 % 2 = 1
  | 6 => m / 8 % 2 = 1
  | _ => m / 16 % 2 = 1

/-- The known sum of logical column `c` over the reference rows `rows` (R57, R58). -/
def knownSum (rows : List Nat) (c : Nat) : Nat :=
  if c < 1024 then (rows.filter fun r => refBit r (c % 32)).length
  else
    let j := (c - 1024) % 3
    (rows.filter fun r => bitAt (residueBits (if r = 1 then 31 else if r = 2 then 7 else 0)) j).length

end Sys2Proof.Machine
end

