-- ==== Sys2Proof/Machine/Formats.lean ====
section
/-! DEFINITION. The thirteen number formats (R109 to R117), the conversion on the way in (R119 to R125) and the rounding
on the way out (R127 to R131). An exact value is a pair (n, e), meaning n × 2^e. -/

namespace Sys2Proof.Machine

/-- The shipped format descriptor of a format code (R117, R118): CODE, KIND, WIDTH, EXP_BITS, MAN_BITS, BIAS, EMAX,
COLUMNS, FRAC_SHIFT, ROLES, POLICY, NAN_OUT. Empty for a reserved code. -/
def fmtRow (code : Nat) : List Nat :=
  match code with
  | 1 => [1, 0, 2, 0, 0, 0, 0, 2, 0, 13, 1, 0]
  | 2 => [2, 0, 4, 0, 0, 0, 0, 4, 0, 15, 1, 0]
  | 3 => [3, 0, 8, 0, 0, 0, 0, 8, 0, 15, 1, 0]
  | 4 => [4, 0, 16, 0, 0, 0, 0, 0, 0, 14, 1, 0]
  | 5 => [5, 2, 8, 0, 0, 0, 0, 8, 6, 15, 1, 0]
  | 6 => [6, 3, 4, 2, 1, 1, 2, 5, 1, 13, 1, 0]
  | 7 => [7, 3, 6, 2, 3, 1, 2, 7, 3, 13, 1, 0]
  | 8 => [8, 3, 6, 3, 2, 3, 4, 10, 4, 13, 1, 0]
  | 9 => [9, 3, 8, 4, 3, 7, 8, 19, 9, 13, 1, 0x7F]
  | 10 => [10, 3, 8, 5, 2, 15, 15, 0, 0, 12, 1, 0x7E]
  | 11 => [11, 1, 16, 5, 10, 15, 0, 0, 0, 14, 0, 0x7E00]
  | 12 => [12, 1, 16, 8, 7, 127, 0, 0, 0, 14, 0, 0x7FC0]
  | 13 => [13, 1, 32, 8, 23, 127, 0, 0, 0, 12, 0, 0x7FC00000]
  | _ => []

def fmtField (code i : Nat) : Nat := (fmtRow code).getD i 0

/-- Element width in bits (R109). -/
def fmtWidth (code : Nat) : Nat := fmtField code 2

/-- The kind: 0 integer, 1 IEEE float, 2 MX integer, 3 MX float (R117). -/
def fmtKind (code : Nat) : Nat := fmtField code 1

/-- A columns per weight (R88). -/
def fmtCols (code : Nat) : Nat := fmtField code 7

/-- Fraction shift f (R88). -/
def fmtFrac (code : Nat) : Nat := fmtField code 8

/-- The format carries block scales (R113). -/
def fmtScaled (code : Nat) : Bool := fmtKind code = 2 || fmtKind code = 3

/-- The shipped 16-byte record (R117). -/
def fmtRecord (code : Nat) : Bytes :=
  ((fmtRow code).take 11).map (BitVec.ofNat 8) ++ [0] ++ leBytes 4 (fmtField code 11)

/-- The greatest finite magnitude code of a float format (R112, R113). -/
def fmtMaxCode (code : Nat) : Nat :=
  match code with
  | 9 => 0x7E
  | 10 => 0x7B
  | 11 => 0x7BFF
  | 12 => 0x7F7F
  | 13 => 0x7F7FFFFF
  | c => 2 ^ (fmtField c 3 + fmtField c 4) - 1

/-- The format has an infinity (R112, R113). -/
def fmtHasInf (code : Nat) : Bool := code = 10 || code = 11 || code = 12 || code = 13

/-- A code is a NaN of its format (R112, R113). -/
def isNanCode (fmt c : Nat) : Bool :=
  let mag := c % 2 ^ (fmtWidth fmt - 1)
  match fmt with
  | 9 => mag = 0x7F
  | 10 => mag > 0x7C
  | 11 => mag > 0x7C00
  | 12 => mag > 0x7F80
  | 13 => mag > 0x7F800000
  | _ => false

/-- A code is an infinity or a NaN of its format (R123). -/
def isSpecialCode (fmt c : Nat) : Bool :=
  let mag := c % 2 ^ (fmtWidth fmt - 1)
  match fmt with
  | 9 => mag = 0x7F
  | 10 => mag ≥ 0x7C
  | 11 => mag ≥ 0x7C00
  | 12 => mag ≥ 0x7F80
  | 13 => mag ≥ 0x7F800000
  | _ => false

/-- The finite value of an element code before any block scale (R111 to R113). -/
def elemValue (fmt c : Nat) : Int × Int :=
  let w := fmtWidth fmt
  match fmtKind fmt with
  | 0 => (signedAt w c, 0)
  | 2 => (signedAt w c, -6)
  | _ =>
    let m := fmtField fmt 4
    let b := fmtField fmt 5
    let e := (c / 2 ^ m) % 2 ^ fmtField fmt 3
    let f := c % 2 ^ m
    let s : Int := if bitAt c (w - 1) then -1 else 1
    if e = 0 then (s * (f : Int), 1 - (b : Int) - m) else (s * ((2 ^ m + f : Nat) : Int), (e : Int) - b - m)

/-- The column integer W of an array-resident element code (R115). -/
def weightInt (fmt c : Nat) : Int :=
  let w := fmtWidth fmt
  match fmtKind fmt with
  | 3 =>
    let m := fmtField fmt 4
    let e := (c / 2 ^ m) % 2 ^ fmtField fmt 3
    let f := c % 2 ^ m
    let mag := if e = 0 then f else (2 ^ m + f) * 2 ^ (e - 1)
    if bitAt c (w - 1) then -(mag : Int) else mag
  | _ => signedAt w c

/-- Element `i` of a packed array of width `w` (R111). -/
def unpackElem (bits w i : Nat) : Nat := (bits >>> (w * i)) % 2 ^ w

/-- The `n` element codes of packed bytes (R111). -/
def unpackElems (b : Bytes) (w n : Nat) : List Nat :=
  let bits := leNat b
  (List.range n).map fun i => unpackElem bits w i

/-- Packed bytes of element codes (R111). -/
def packElems (w : Nat) (codes : List Nat) : Bytes :=
  leBytes (ceilDiv (w * codes.length) 8) (codes.foldr (fun c acc => c % 2 ^ w + 2 ^ w * acc) 0)

/-- Bytes of the packed elements of a tensor of `n` elements (R111). -/
def packedBytes (fmt n : Nat) : Nat := ceilDiv (fmtWidth fmt * n) 8

/-- Codes and scale codes of a tensor in SEPARATE or INTERLEAVED layout (R114). A last INTERLEAVED block of fewer than 32
elements is as short as `tensorBytes` writes it. -/
def tensorCodes (fmt n : Nat) (interleaved : Bool) (b : Bytes) : List Nat × List Nat :=
  if fmtScaled fmt then
    if interleaved then
      let blockLen := packedBytes fmt 32 + 1
      let blocks := ((List.range (ceilDiv n 32)).zip (chunksOf blockLen (ceilDiv n 32) b)).map fun p =>
        (min 32 (n - 32 * p.1), p.2)
      ((blocks.map fun k => unpackElems (k.2.take (packedBytes fmt k.1)) (fmtWidth fmt) k.1).flatten,
       blocks.map fun k => (k.2.getD (packedBytes fmt k.1) 0).toNat)
    else
      let e := packedBytes fmt n
      (unpackElems (b.take e) (fmtWidth fmt) n, ((b.drop e).take (ceilDiv n 32)).map BitVec.toNat)
  else (unpackElems b (fmtWidth fmt) n, [])

/-- The declared layout of codes and scale codes (R114, R126). DESIGN CHOICE (notes/assumptions/45.md): a last INTERLEAVED block
of fewer than 32 elements is written short and counts as short, its scale byte directly after its own packed elements; R114
does not say whether it is padded. -/
def tensorBytes (fmt : Nat) (interleaved : Bool) (codes scales : List Nat) : Bytes :=
  if fmtScaled fmt then
    if interleaved then
      ((chunksOf 32 codes.length codes).zip scales).flatMap
        fun p => packElems (fmtWidth fmt) p.1 ++ [BitVec.ofNat 8 p.2]
    else packElems (fmtWidth fmt) codes ++ scales.map (BitVec.ofNat 8)
  else packElems (fmtWidth fmt) codes

/-! ## ALIGN (R121 to R123) -/

/-- The value of an input element, or none for a special input (R123): its code and its block's scale code. -/
def inputValue (fmt c scale : Nat) : Option (Int × Int) :=
  if fmtScaled fmt then
    if scale = 0xFF || isSpecialCode fmt c then none
    else let v := elemValue fmt c; some (v.1, v.2 + (scale : Int) - 127)
  else if isSpecialCode fmt c then none
  else some (elemValue fmt c)

/-- ⌊log2 |n × 2^e|⌋ for a nonzero n. -/
def logMag (v : Int × Int) : Int := (Nat.log2 v.1.natAbs : Int) + v.2

/-- Every finite value fits B bits at exponent e (R121). -/
def alignFits (b : Nat) (vs : List (Option (Int × Int))) (e : Int) : Bool :=
  vs.all fun v =>
    match v with
    | none => true
    | some (n, x) => let r := rne n (x - e); -(2 ^ (b - 1) : Int) ≤ r && r ≤ (2 ^ (b - 1) : Int) - 1

/-- The input exponent e_x of R121: the smallest e that fits, one of E − B + 1, E − B + 2 and E − B + 3. DEDUCED
(notes/assumptions/45.md): an MXINT8 vector of one shared scale takes the smallest e too, which lies below s − 6 where every
element is small; R121's sentence on such a vector gives s − 6. -/
def alignExp (b : Nat) (vs : List (Option (Int × Int))) : Int :=
  let mags := vs.filterMap fun v =>
    match v with
    | some (n, x) => if n = 0 then none else some (logMag (n, x))
    | none => none
  match mags with
  | [] => 0
  | m :: t =>
    let top := t.foldl max m
    let e₁ := top - b + 1
    if alignFits b vs e₁ then e₁ else if alignFits b vs (e₁ + 1) then e₁ + 1 else e₁ + 2

/-- ALIGN's outcome: e_x, the integers, whether a special input was met, specials and inexact elements. -/
structure Aligned where
  ex : Int
  xs : List Int
  special : Bool
  specials : Nat
  inexact : Nat
  deriving DecidableEq, Repr

/-- ALIGN (R121 to R123). DEDUCED (notes/assumptions/45.md): a special input, which has no finite value v, is not counted as an
inexact element. -/
def alignVec (b : Nat) (vs : List (Option (Int × Int))) : Aligned :=
  let ex := alignExp b vs
  let xs := vs.map fun v =>
    match v with
    | none => 0
    | some (n, x) => rne n (x - ex)
  let exact := fun (v : Option (Int × Int)) =>
    match v with
    | none => true
    | some (n, x) =>
      -- n × 2^x equals its rounded integer × 2^ex
      if x ≥ ex then true else n % (2 ^ (ex - x).toNat : Int) == 0
  { ex, xs, special := vs.any Option.isNone,
    specials := (vs.filter Option.isNone).length,
    inexact := (vs.filter fun v => !exact v).length }

/-- Bit plane `b` of integers, element i at bit i (R80). -/
def planeOf (xs : List Int) (b : Nat) : BitVec 1024 :=
  BitVec.ofNat 1024 (xs.foldr (fun x acc => (if (x / 2 ^ b) % 2 = 1 then 1 else 0) + 2 * acc) 0)

/-- WIDEN's pairs (R125). -/
def widenPair (from_ to_ : Nat) : Bool :=
  (from_ = 1 && (to_ = 2 || to_ = 3 || to_ = 4)) || (from_ = 2 && (to_ = 3 || to_ = 4)) ||
  (from_ = 3 && to_ = 4) || (from_ = 11 && to_ = 13) || (from_ = 12 && to_ = 13)

/-! ## Rounding on the way out (R127 to R130) -/

/-- A rounded element: its code, saturated, overflowed to infinity. -/
abbrev Rounded := Nat × Bool × Bool

/-- Round an exact value into a float format (R127, R129). -/
def roundFloat (fmt : Nat) (sat : Bool) (v : Int × Int) : Rounded :=
  let mb := fmtField fmt 4
  let p := mb + 1
  let bias := fmtField fmt 5
  let emin : Int := 1 - (bias : Int)
  let signBit := 2 ^ (fmtWidth fmt - 1)
  if v.1 = 0 then (0, false, false)
  else
    let sgn := if v.1 < 0 then signBit else 0
    let q := max (logMag v) emin - p + 1
    let m := (rne v.1.natAbs (v.2 - q)).natAbs
    if m = 0 then (sgn, false, false)
    else
      let mag :=
        if m < 2 ^ (p - 1) then m
        else
          let lg := Nat.log2 m
          let e := (q + lg + bias).toNat
          e * 2 ^ mb + (m / 2 ^ (lg - (p - 1))) % 2 ^ mb
      if mag > fmtMaxCode fmt then
        if sat || !fmtHasInf fmt then (sgn + fmtMaxCode fmt, true, false)
        else (sgn + (2 ^ fmtField fmt 3 - 1) * 2 ^ mb, false, true)
      else (sgn + mag, false, false)

/-- Round into an integer format with the requantisation pair (R128). -/
def roundInt (fmt m : Nat) (ey : Int) (v : Int × Int) : Rounded :=
  let w := fmtWidth fmt
  let y := rne (v.1 * m) (v.2 - ey)
  let hi := (2 ^ (w - 1) : Int) - 1
  let lo := -(2 ^ (w - 1) : Int)
  if y > hi then (hi.toNat, true, false)
  else if y < lo then (2 ^ (w - 1), true, false)
  else ((y % (2 ^ w : Int)).toNat, false, false)

/-- Compare magnitudes of exact values. -/
def magLe (a b : Int × Int) : Bool :=
  let e := min a.2 b.2
  a.1.natAbs * 2 ^ (a.2 - e).toNat ≤ b.1.natAbs * 2 ^ (b.2 - e).toNat

/-- The scale exponent of an MX block (R129). -/
def mxExp (fmt : Nat) (vs : List (Int × Int)) : Option Int :=
  let top := vs.foldl (fun m v => if v.1 = 0 then m else match m with
    | none => some v
    | some w => if magLe w v then some v else some w) none
  top.map fun v => min (max (logMag v - (fmtField fmt 6 : Int)) (-127)) 127

/-- One MX element at scale exponent x (R129). -/
def roundMxElem (fmt : Nat) (sat : Bool) (x : Int) (v : Int × Int) : Rounded :=
  if fmtKind fmt = 2 then
    let y := rne v.1 (v.2 + 6 - x)
    if y > 127 then (127, true, false) else if y < -128 then (128, true, false)
    else ((y % 256).toNat, false, false)
  else roundFloat fmt sat (v.1, v.2 - x)

/-- Round one MX block (R129): scale code and elements. -/
def roundMxBlock (fmt : Nat) (sat : Bool) (vs : List (Int × Int)) (bad : List Bool) : Nat × List Rounded :=
  let live := (vs.zip bad).filterMap fun p => if p.2 then none else some p.1
  match mxExp fmt live with
  | none => (127, vs.map fun _ => (0, false, false))
  | some x => ((x + 127).toNat, vs.map (roundMxElem fmt sat x))

/-- What a join delivers: element codes, scale codes, poison flags, saturations, overflows to infinity. -/
structure JoinOut where
  codes : List Nat
  scales : List Nat
  poison : List Bool
  sats : Nat
  infs : Nat
  deriving DecidableEq, Repr

/-- Round the values of a join into a format (R97, R127 to R130). `ovfSat` and `nan` are POLICY.OVF_SAT and NAN_OUT of
the format's descriptor; `bad` marks poisoned lanes, `special` and `poisonIn` are the marks of R123 and R130. -/
def roundJoin (fmt m : Nat) (ey : Int) (ovfSat : Bool) (nan : Nat) (special poisonIn : Bool)
    (vs : List (Int × Int)) (bad : List Bool) : JoinOut :=
  if special then
    let scales := if fmtScaled fmt then List.replicate (ceilDiv vs.length 32) 0xFF else []
    let code := if fmtKind fmt = 1 then nan else 0
    { codes := vs.map fun _ => code, scales,
      poison := bad.map fun b => b || poisonIn || fmtKind fmt == 0, sats := 0, infs := 0 }
  else
    let parts : List (List Nat × List Rounded) :=
      if fmtScaled fmt then
        ((chunksOf 32 vs.length vs).zip (chunksOf 32 bad.length bad)).map fun p =>
          let r := roundMxBlock fmt ovfSat p.1 p.2
          ([r.1], r.2)
      else [([], vs.map fun v => if fmtKind fmt = 0 then roundInt fmt m ey v else roundFloat fmt ovfSat v)]
    let rs := (parts.map Prod.snd).flatten
    { codes := rs.map Prod.fst, scales := (parts.map Prod.fst).flatten,
      poison := bad.map fun b => b || poisonIn,
      sats := (rs.filter fun r => r.2.1).length, infs := (rs.filter fun r => r.2.2).length }

/-! ## Lanes (R90 to R93) -/

/-- The signed value of a lane. -/
def laneInt (l : BitVec 320) : Int := l.toInt

/-- The signed weight of column bit `a` and plane `b` (R90). -/
def bitSign (cols planes a b : Nat) : Int := if decide (a + 1 = cols) == decide (b + 1 = planes) then 1 else -1

/-- The integer Σ_a σ_a τ_b 2^(a+b) c(a, b) of one output and plane (R90, R91). -/
def planeSum (cols planes b : Nat) (counts : List Nat) : Int :=
  ((List.range cols).map fun a => bitSign cols planes a b * 2 ^ (a + b) * (counts.getD a 0 : Int)).sum

/-- Lane position p = 136 + s − f (R93). -/
def lanePos (s : Int) (f : Nat) : Int := 136 + s - f

/-- Add an integer into a lane at position p (R93); a position below 0 cannot occur in a format of R88. -/
def laneAdd (l : BitVec 320) (x p : Int) : BitVec 320 := l + BitVec.ofInt 320 (x * 2 ^ p.toNat)

/-- The exact value of a lane at input exponent e_x (R93). -/
def laneValue (ex : Int) (l : BitVec 320) : Int × Int := (laneInt l, ex - 136)

/-! ## FP32 arithmetic on Shank (R137 to R141) -/

/-- The value of an FP32 code, none for infinity and NaN. -/
def f32Value (c : BitVec 32) : Option (Int × Int) :=
  if isSpecialCode 13 c.toNat then none else some (elemValue 13 c.toNat)

/-- The exact sum of two values. -/
def addExact (a b : Int × Int) : Int × Int :=
  let e := min a.2 b.2
  (a.1 * 2 ^ (a.2 - e).toNat + b.1 * 2 ^ (b.2 - e).toNat, e)

/-- The exact product of two values. -/
def mulExact (a b : Int × Int) : Int × Int := (a.1 * b.1, a.2 + b.2)

end Sys2Proof.Machine
end

