-- ==== Sys2Proof/Machine/Operands.lean ====
section
/-! DEFINITION. Shank's operands: FP32 arithmetic (R137, R138), the strict tree (R139), curve records (R151 to R153), and the
rounding of a floating step's outputs (R138). Where the manual gives no rounding of a curve's argument split, the split is an
uninterpreted constant (notes/assumptions/26.md). -/

namespace Sys2Proof.Machine

/-! ## FP32 (R137, R138) -/

def f32Nan : BitVec 32 := 0x7FC00000
def f32Inf (neg : Bool) : BitVec 32 := if neg then 0xFF800000 else 0x7F800000
def f32Zero (neg : Bool) : BitVec 32 := if neg then 0x80000000 else 0
def f32Neg (a : BitVec 32) : Bool := a.getLsbD 31
def f32IsNan (a : BitVec 32) : Bool := isNanCode 13 a.toNat
def f32IsInf (a : BitVec 32) : Bool := a.toNat % 2 ^ 31 = 0x7F800000
def f32IsZero (a : BitVec 32) : Bool := a.toNat % 2 ^ 31 = 0

/-- Round an exact value to FP32, to nearest even; an overflow is infinity (R137, R138). -/
def f32Round (v : Int × Int) : BitVec 32 := BitVec.ofNat 32 (roundFloat 13 false v).1

/-- The exact value of a finite FP32 code. -/
def f32Val (a : BitVec 32) : Int × Int := elemValue 13 a.toNat

/-- The rounded sum of two exact values, whose zero has the sign that IEEE 754 gives it. -/
def f32Sum (a b : Int × Int) (negA negB : Bool) : BitVec 32 :=
  let v := addExact a b
  if v.1 = 0 then f32Zero (a.1 = 0 && b.1 = 0 && negA && negB) else f32Round v

/-- FP32 addition (R137, R138). -/
def f32Add (a b : BitVec 32) : BitVec 32 :=
  if f32IsNan a || f32IsNan b then f32Nan
  else if f32IsInf a then (if f32IsInf b && f32Neg a != f32Neg b then f32Nan else a)
  else if f32IsInf b then b
  else f32Sum (f32Val a) (f32Val b) (f32Neg a) (f32Neg b)

/-- FP32 fused multiply-add a × b + c (R152). -/
def f32Fma (a b c : BitVec 32) : BitVec 32 :=
  let neg := f32Neg a != f32Neg b
  if f32IsNan a || f32IsNan b || f32IsNan c then f32Nan
  else if (f32IsInf a && f32IsZero b) || (f32IsZero a && f32IsInf b) then f32Nan
  else if f32IsInf a || f32IsInf b then
    (if f32IsInf c && f32Neg c != neg then f32Nan else f32Inf neg)
  else if f32IsInf c then c
  else f32Sum (mulExact (f32Val a) (f32Val b)) (f32Val c) neg (f32Neg c)

/-- A finite FP32 value times 2^k. DESIGN CHOICE (notes/assumptions/26.md): a result that FP32 does not hold, a subnormal or an
overflow, is rounded once more to nearest even; R152 does not say how the scaling rounds. -/
def f32Scale (a : BitVec 32) (k : Int) : BitVec 32 :=
  if f32IsNan a || f32IsInf a || f32IsZero a then a
  else let v := f32Val a; f32Round (v.1, v.2 + k)

/-- `num / den × 2^e` rounded to FP32, for a positive `den`: 200 further bits and one sticky bit decide every tie. DESIGN CHOICE
(notes/assumptions/26.md): the local argument t of a curve is rounded once to FP32, to nearest even, before the polynomial;
R152 states a rounding for the three fused multiply-adds only. -/
def f32Ratio (num : Int) (den : Nat) (e : Int) : BitVec 32 :=
  let q := num.natAbs * 2 ^ 200 / den
  let sticky := if num.natAbs * 2 ^ 200 % den = 0 then 0 else 1
  let m : Int := (2 * q + sticky : Nat)
  f32Round (if num < 0 then -m else m, e - 201)

/-! ## Chunk sums (R137, R138) -/

/-- Chunks hold 32 consecutive reduction indices (R137). -/
def chunkLen : Nat := 32

/-- An operand of a floating dot product: none for a NaN, the sign of an infinity, or an exact finite value. -/
inductive DotNum where
  | nan
  | inf (neg : Bool)
  | fin (v : Int × Int) (neg : Bool)
  deriving DecidableEq, Repr

/-- The value of an element code in any format (R111 to R113, R137); the scale of an MX block is applied to the chunk sum. -/
def dotNum (fmt c : Nat) : DotNum :=
  let neg := bitAt c (fmtWidth fmt - 1)
  if fmtKind fmt = 0 || fmtKind fmt = 2 then
    let n := signedAt (fmtWidth fmt) c
    .fin (n, if fmtKind fmt = 2 then -6 else 0) (decide (n < 0))
  else if isNanCode fmt c then .nan
  else if isSpecialCode fmt c then .inf neg
  else .fin (elemValue fmt c) neg

/-- A product of two operands (R138): an infinity times zero is NaN. -/
def dotMul (a b : DotNum) : DotNum :=
  match a, b with
  | .nan, _ => .nan
  | _, .nan => .nan
  | .inf m, .inf n => .inf (m != n)
  | .inf m, .fin v n => if v.1 = 0 then .nan else .inf (m != n)
  | .fin v m, .inf n => if v.1 = 0 then .nan else .inf (m != n)
  | .fin v m, .fin w n => .fin (mulExact v w) (m != n)

/-- The exact sum of products (R137, R138): opposite infinities give NaN. A zero sum is negative where every term is a negative
zero. -/
def dotAdd (a b : DotNum) : DotNum :=
  match a, b with
  | .nan, _ => .nan
  | _, .nan => .nan
  | .inf m, .inf n => if m = n then .inf m else .nan
  | .inf m, .fin _ _ => .inf m
  | .fin _ _, .inf n => .inf n
  | .fin v m, .fin w n =>
    let x := addExact v w
    .fin x (if x.1 = 0 then v.1 = 0 && w.1 = 0 && m && n else decide (x.1 < 0))

/-- The exact sum of one chunk's products. -/
def chunkExact (fx fw : Nat) (l : List (Nat × Nat)) : DotNum :=
  match l.map fun p => dotMul (dotNum fx p.1) (dotNum fw p.2) with
  | [] => .fin (0, 0) false
  | a :: t => t.foldl dotAdd a

/-- The exponent that the two block scales of a chunk give, or none where one of them is NaN (R113). -/
def chunkScale (fx fw : Nat) (sc : Nat × Nat) : Option Int :=
  let one := fun (f c : Nat) => if fmtScaled f then (if c % 256 = 255 then none else some ((c % 256 : Nat) : Int) |>.map fun x => x - 127) else some 0
  match one fx sc.1, one fw sc.2 with
  | some a, some b => some (a + b)
  | _, _ => none

/-- An FP32 result and whether a finite value overflowed to infinity in it (R138). -/
abbrev F32Out := BitVec 32 × Bool

/-- An exact chunk sum rounded once to FP32 (R137). -/
def chunkRound (sc : Option Int) (d : DotNum) : F32Out :=
  match sc, d with
  | none, _ => (f32Nan, false)
  | _, .nan => (f32Nan, false)
  | _, .inf n => (f32Inf n, false)
  | some k, .fin v n =>
    if v.1 = 0 then (f32Zero n, false)
    else let r := f32Round (v.1, v.2 + k); (r, f32IsInf r)

/-- The chunks of a reduction. -/
def chunksOfOps (l : List (Nat × Nat)) : List (List (Nat × Nat)) := chunksOf chunkLen l.length l

/-- The FP32 chunk sums of a floating dot product (R137). -/
def chunkSums (fx fw : Nat) (l : List (Nat × Nat)) (scales : List (Nat × Nat)) : List F32Out :=
  let cs := chunksOfOps l
  ((List.range cs.length).zip cs).map fun p =>
    chunkRound (chunkScale fx fw (scales.getD p.1 (127, 127))) (chunkExact fx fw p.2)

/-- Both operand formats are integers, MXINT8 among them: chunk sums are held exactly (R133, R137). -/
def intDot (fx fw : Nat) : Bool := fmtKind fx % 2 = 0 && fmtKind fw % 2 = 0

/-- The sum of an integer dot product (R133, R137): exact chunk sums, each at the exponent of its two block scales, or none where
a block's scale is NaN (R113). DEDUCED (notes/assumptions/26.md): MXINT8 chunk sums of different scales are added exactly too, as
R133 tables them; R137 states a rounding for the additions of floating chunk sums only. -/
def intSum (fx fw : Nat) (l scales : List (Nat × Nat)) : Option (Int × Int) :=
  let cs := chunksOfOps l
  ((List.range cs.length).zip cs).foldl (fun acc p =>
    match acc, chunkScale fx fw (scales.getD p.1 (127, 127)), chunkExact fx fw p.2 with
    | some a, some k, .fin v _ => some (addExact a (v.1, v.2 + k))
    | _, _, _ => none) (some (0, 0))

/-- FP32 addition, with its overflow of finite operands (R138). -/
def f32AddOut (a b : BitVec 32) : F32Out :=
  let r := f32Add a b
  (r, f32IsInf r && !f32IsInf a && !f32IsInf b)

/-! ## Reductions (R139, R140) -/

/-- One level of the strict tree: neighbours are added, an odd one is carried up. -/
def strictPairs : List (BitVec 32) → List (BitVec 32)
  | a :: b :: t => f32Add a b :: strictPairs t
  | l => l

/-- strict_combine (R139); `fuel` bounds the number of levels. -/
def strictCombine : Nat → List (BitVec 32) → BitVec 32
  | _, [] => 0
  | _, [a] => a
  | 0, a :: _ => a
  | fuel + 1, l => strictCombine fuel (strictPairs l)

/-- Overflows to infinity in one level of the strict tree (R138, R139). -/
def strictOverflows : List (BitVec 32) → Nat
  | a :: b :: t => b2n (f32AddOut a b).2 + strictOverflows t
  | _ => 0

/-- Overflows to infinity in the whole strict tree. -/
def treeOverflows : Nat → List (BitVec 32) → Nat
  | 0, _ => 0
  | fuel + 1, l => if l.length ≤ 1 then 0 else strictOverflows l + treeOverflows fuel (strictPairs l)

/-- An order of arrival: position `v` mod the length goes first, and so on (R140). `v` is a free value. -/
def arrivalOrder {α : Type} : Nat → Nat → List α → List α
  | 0, _, l => l
  | _ + 1, _, [] => []
  | fuel + 1, v, l =>
    let k := v % l.length
    match l[k]? with
    | some a => a :: arrivalOrder fuel (v / l.length) (l.take k ++ l.drop (k + 1))
    | none => l

/-- The relaxed accumulation of chunk sums in the order of their arrival (R140). -/
def relaxedCombine (l : List (BitVec 32)) : BitVec 32 :=
  match l with
  | [] => 0
  | a :: t => t.foldl f32Add a

/-- Overflows to infinity in the relaxed accumulation (R138, R140). -/
def relaxedOverflows : BitVec 32 → List (BitVec 32) → Nat
  | _, [] => 0
  | a, b :: t => let r := f32AddOut a b; b2n r.2 + relaxedOverflows r.1 t

/-- Combine chunk sums or module results (R139, R140): the value, and the overflows to infinity on the way. `order` is the
order of arrival, which strict mode does not see. -/
def combineSums (strict : Bool) (order : Nat) (l : List (BitVec 32)) : BitVec 32 × Nat :=
  if strict then (strictCombine l.length l, treeOverflows l.length l)
  else
    let a := arrivalOrder l.length order l
    (relaxedCombine a, match a with
      | [] => 0
      | x :: t => relaxedOverflows x t)

/-! ## Curve records (R151 to R153) -/

def curveSegs (r : Bytes) : Nat := fld r 2 2
def curveReduce (r : Bytes) : Nat := fld r 1 1

/-- Coefficient `i` of segment `j`. -/
def curveCoef (r : Bytes) (j i : Nat) : BitVec 32 := BitVec.ofNat 32 (fld r (16 + 16 * j + 4 * i) 4)

/-- c0 + t × (c1 + t × (c2 + t × c3)) by three fused multiply-adds (R152). -/
def curvePoly (r : Bytes) (j : Nat) (t : BitVec 32) : BitVec 32 :=
  f32Fma t (f32Fma t (f32Fma t (curveCoef r j 3) (curveCoef r j 2)) (curveCoef r j 1)) (curveCoef r j 0)

/-- The out-of-range result above or below the limits (R152). -/
def curveBeyond (func : Nat) (above : Bool) (x : BitVec 32) : BitVec 32 :=
  match func with
  | 5 => if above then 0x3F800000 else 0xBF800000
  | 6 => if above then 0x3F800000 else 0
  | 7 => if above then x else 0x80000000
  | 8 => if above then x else 0x80000000
  | _ => Config.curveOut func x

/-- The result of a special argument (R153), or none where the curve is evaluated. -/
def curveSpecial (func : Nat) (x : BitVec 32) : Option (BitVec 32) :=
  let neg := f32Neg x
  if f32IsNan x then some f32Nan
  else if f32IsInf x then
    match func with
    | 1 => some (if neg then 0 else f32Inf false)
    | 2 => some (if neg then f32Nan else f32Inf false)
    | 3 => some (f32Zero neg)
    | 4 => some (if neg then f32Nan else 0)
    | _ => some (curveBeyond func (!neg) x)
  else if f32IsZero x then
    match func with
    | 1 => some 0x3F800000
    | 2 => some (f32Inf true)
    | 3 => some (f32Inf neg)
    | 4 => some (f32Inf neg)
    | _ => none
  else if neg && (func = 2 || func = 4) then some f32Nan
  else none

/-- A uniform curve (R152, REDUCE 0). -/
def curveUniform (func : Nat) (r : Bytes) (x : BitVec 32) : BitVec 32 :=
  let v := f32Val x
  let lo := f32Val (BitVec.ofNat 32 (fld r 4 4))
  let hi := f32Val (BitVec.ofNat 32 (fld r 8 4))
  let e := min v.2 (min lo.2 hi.2)
  let at_ := fun (a : Int × Int) => a.1 * 2 ^ (a.2 - e).toNat
  let d := at_ v - at_ lo
  let w := at_ hi - at_ lo
  if d < 0 then curveBeyond func false x
  else if w ≤ d then curveBeyond func true x
  else
    let segs := curveSegs r
    let j := (d * segs / w).toNat
    curvePoly r j (f32Ratio (d * segs - j * w) segs e)

/-- log2(e), in units of 2^-320. -/
def log2e : Nat := 3081577904126213121686167198097690134163479766071396094403848907535455306605342191083616308484524

/-- x × log2(e) as an integer k and a fraction g in [0, 1), g in units of 2^-320 (R152). DEDUCED (notes/assumptions/26.md): log2(e)
is irrational; it is taken to 320 fraction bits, and what lies below the last of them is cut off. -/
def expSplit (x : BitVec 32) : Int × Nat :=
  let v := f32Val x
  let p := if 0 ≤ v.2 then v.1 * log2e * 2 ^ v.2.toNat else v.1 * log2e / 2 ^ (-v.2).toNat
  (p / 2 ^ 320, (p % 2 ^ 320).toNat)

/-- A curve by base-2 exponent split (R152, REDUCE 1): j = ⌊g × SEGS⌋ and t = g − j ÷ SEGS. -/
def curveExp (func : Nat) (r : Bytes) (x : BitVec 32) : BitVec 32 :=
  let (k, g) := expSplit x
  let segs := max 1 (curveSegs r)
  let j := g * segs / 2 ^ 320
  let v := curvePoly r j (f32Ratio ((g * segs - j * 2 ^ 320 : Nat) : Int) segs (-320))
  -- beyond 2^±1000 every FP32 value has overflowed or vanished
  if func = 1 then f32Scale v (max (-1000) (min 1000 k)) else Config.curveScale func k v

/-- A curve by mantissa split (R152, REDUCE 2): mantissa in [1, 2) and exponent k of the magnitude. -/
def curveMantissa (func : Nat) (r : Bytes) (x : BitVec 32) : BitVec 32 :=
  let v := f32Val x
  let lg := Nat.log2 v.1.natAbs
  let k := (lg : Int) + v.2
  let frac : Int := (v.1.natAbs : Int) - 2 ^ lg
  let segs := curveSegs r
  let (j, t) :=
    if func = 4 then
      -- each half of the segments covers one octave of [1, 4)
      let half := segs / 2
      let i := (frac * half / 2 ^ lg).toNat
      let odd := k % 2 ≠ 0
      (if odd then half + i else i,
       f32Ratio ((frac * half - i * 2 ^ lg) * (if odd then 2 else 1)) (max 1 half) (-(lg : Int)))
    else
      let i := (frac * segs / 2 ^ lg).toNat
      (i, f32Ratio (frac * segs - i * 2 ^ lg) (max 1 segs) (-(lg : Int)))
  let y := curvePoly r j t
  match func with
  | 3 => let z := f32Scale y (-k); if f32Neg x then z ^^^ 0x80000000 else z
  | 4 => f32Scale y (-(k / 2))
  | _ => Config.curveScale func k y

/-- A non-linear function of an FP32 argument (R151 to R153). A zero result at a zero argument keeps the argument's sign. -/
def curveEval (func : Nat) (r : Bytes) (x : BitVec 32) : BitVec 32 :=
  match curveSpecial func x with
  | some y => y
  | none =>
    let y := match curveReduce r with
      | 0 => curveUniform func r x
      | 1 => curveExp func r x
      | _ => curveMantissa func r x
    if f32IsZero x && f32IsZero y then f32Zero (f32Neg x) else y

/-! ## Outputs of a floating step (R127 to R129, R138) -/

/-- The exact value that stands for an FP32 result when it is rounded: an infinity lies beyond every format (R127). -/
def f32OutValue (c : BitVec 32) : Int × Int :=
  if f32IsNan c then (0, 0)
  else if f32IsInf c then (if f32Neg c then -1 else 1, 200)
  else f32Val c

/-- The exact value that stands for a step's result when it is rounded. -/
def stepValue (x : StepNum) : Int × Int :=
  match x with
  | .f32 c => f32OutValue c
  | .exact n e => (n, e)

/-- A result that is finite, and that its output format makes an infinity (R127, R138). -/
def newInf (fmt : Nat) (p : Nat × StepNum) : Bool :=
  fmtHasInf fmt && isSpecialCode fmt p.1 && !isNanCode fmt p.1 && match p.2 with
    | .f32 c => !f32IsNan c && !f32IsInf c
    | .exact _ _ => true

/-- Round a step's results into its output format (R130, R131, R138), counting as overflows the finite results alone: a NaN takes NAN_OUT, a zero keeps its sign; marked inputs
give the NaN form. -/
def roundStep (fmt m : Nat) (ey : Int) (sat : Bool) (nan : Nat) (special poison : Bool) (cs : List StepNum) : JoinOut :=
  let o := roundJoin fmt m ey sat nan special poison (cs.map stepValue) (cs.map fun _ => false)
  let fix := fun (p : Nat × StepNum) => match p.2 with
    | .f32 c =>
      if f32IsNan c then nan
      else if c = 0x80000000 && fmtKind fmt % 2 = 1 then 2 ^ (fmtWidth fmt - 1)
      else p.1
    | .exact _ _ => p.1
  if special then o
  else
    let codes := (o.codes.zip cs).map fix
    { o with codes, infs := ((codes.zip cs).filter (newInf fmt)).length }

/-! ## Pieces (R230) -/

/-- Bytes of one row of a piece. -/
def pieceRow (fmt outs : Nat) : Nat := packedBytes fmt outs

/-- Bytes of a piece of `rows` rows and `outs` outputs, with or without block scales (R230). -/
def pieceLen (fmt : Nat) (scaled : Bool) (rows outs : Nat) : Nat :=
  rows * pieceRow fmt outs + if scaled then ceilDiv rows 32 * outs else 0

/-- The element code of row `i`, output `k` (R111, R230). -/
def pieceCode (fmt outs : Nat) (b : Bytes) (i k : Nat) : Nat :=
  unpackElem (leNat (sub b (i * pieceRow fmt outs) (pieceRow fmt outs))) (fmtWidth fmt) k

/-- The scale exponent of row `i`, output `k` (R113, R230). -/
def pieceScale (fmt : Nat) (scaled : Bool) (rows outs : Nat) (b : Bytes) (i k : Nat) : Int :=
  if scaled then ((b.getD (rows * pieceRow fmt outs + i / 32 * outs + k) 127).toNat : Int) - 127 else 0

/-- One row of weights dotted into exact lanes (R141): W × X at position 136 + s − f. -/
def addWeights (x : Int) (frac : Nat) (ws : List (Int × Int)) (lanes : List (BitVec 320)) : List (BitVec 320) :=
  (lanes.zip ws).map fun p => laneAdd p.1 (p.2.1 * x) (lanePos p.2.2 frac)

/-- A piece's matrix applied to integers in exact-dot mode (R141, R149). -/
def pieceDot (fmt rows outs : Nat) (b : Bytes) (xs : List Int) : List (BitVec 320) :=
  (List.range rows).foldl (fun lanes i =>
    let x := xs.getD i 0
    if x = 0 then lanes
    else addWeights x (fmtFrac fmt) ((List.range outs).map fun k =>
      (weightInt fmt (pieceCode fmt outs b i k), pieceScale fmt (fmtScaled fmt) rows outs b i k)) lanes) (List.replicate outs 0)

end Sys2Proof.Machine
end

