-- ==== Sys2Proof/Machine/Dictionary.lean ====
section
/-! DEFINITION. The object dictionary's definitions (R417 to R422, R435 to R437): one row per object, from the objects'
tables of each chapter. An object's number is index × 256 + subindex; a value's key in a table is number × 2^64 +
argument. Layouts of TABLE objects that the chapters do not lay out are DESIGN CHOICE (notes/assumptions/5.md). -/

namespace Sys2Proof.Machine

/-- The number of index:subindex. -/
def ob (index sub : Nat) : Nat := index * 256 + sub

/-- The table key of an object's value under an argument. -/
def okey (obj arg : Nat) : Nat := obj * 2 ^ 64 + arg

/-- Object types (R418). -/
inductive ObjType where
  | bool
  | unsigned (bytes : Nat)
  | signed (bytes : Nat)
  | f32
  | string
  | table (bytes : Nat)
  | blob
  deriving DecidableEq, Repr

/-- Access rights (R419). -/
inductive ObjAccess where
  | ro
  | rw
  | rws
  | wo
  | priv
  deriving DecidableEq, Repr

/-- Persistence classes (R421). -/
inductive ObjClass where
  | volatile
  | persistent
  | ratchet
  | factory
  deriving DecidableEq, Repr

/-- What an object's argument names (R417). -/
inductive ObjKey where
  | fixed
  | bank
  | island
  | tjSensor
  | pair
  | domain
  | lastSlot
  | imageHash
  | event
  | member
  | memInstance
  | unit
  | offset
  | pubSlot
  deriving DecidableEq, Repr

/-- One object (R417 to R422). -/
structure ObjDef where
  obj : Nat
  ty : ObjType
  acc : ObjAccess
  cls : ObjClass := .volatile
  key : ObjKey := .fixed
  lo : Int := 0
  hi : Int := 0
  dflt : Bytes := []
  deriving DecidableEq, Repr

/-- A U64 RO counter with default 0. -/
def objCount (i s : Nat) : ObjDef := { obj := ob i s, ty := .unsigned 8, acc := .ro, dflt := leBytes 8 0 }

/-- An RO number that is computed when it is read. -/
def objRead (i s bytes : Nat) : ObjDef := { obj := ob i s, ty := .unsigned bytes, acc := .ro }

/-- An RO table or record that is composed when it is read. -/
def objBlob (i s : Nat) (key : ObjKey := .fixed) : ObjDef := { obj := ob i s, ty := .blob, acc := .ro, key }

/-- An RWS number, PERSISTENT (R421), with its range and default. -/
def objSet (i s bytes lo hi dflt : Nat) : ObjDef :=
  { obj := ob i s, ty := .unsigned bytes, acc := .rws, cls := .persistent, lo, hi, dflt := leBytes bytes dflt }

/-- An RWS table, PERSISTENT. -/
def objTable (i s : Nat) (dflt : Bytes) : ObjDef :=
  { obj := ob i s, ty := .table dflt.length, acc := .rws, cls := .persistent, dflt }

/-- Shipped `int.bucket_params` (R328): T and D, 4 B each, per instance kind. -/
def bucketParamsShipped : Bytes :=
  [(16, 60), (8, 60), (16, 60), (8, 60), (32, 10)].flatMap fun (p : Nat × Nat) => leBytes 4 p.1 ++ leBytes 4 p.2

/-- Shipped `tbl.fault_class` (R336): W in seconds, 4 B per unit kind, in the order of the table. -/
def faultClassShipped : Bytes := [3600, 3600, 600, 3600, 60, 60, 60, 60].flatMap (leBytes 4)

/-- Shipped `tbl.topup_curve` (R295). -/
def topupCurveShipped : Bytes :=
  [518400, 172800, 60480, 43200, 21600, 7200, 3600].flatMap (leBytes 4) ++ leBytes 2 500 ++ leBytes 2 300

/-- Shipped `tbl.pd_fsm` record of a domain kind (R470). -/
def pdFsmShipped (kind : Nat) : Bytes :=
  let idle : Nat × Nat := match kind with
    | 1 => (100, 0)
    | 2 => (0, 1000)
    | 3 => (100, 10000)
    | _ => (0, 0)
  [BitVec.ofNat 8 kind, 3] ++ leBytes 2 0 ++ leBytes 2 500 ++ leBytes 2 (if 4 ≤ kind then 2000 else 0) ++
    leBytes 4 idle.1 ++ leBytes 4 idle.2

/-- Shipped header of a curve record (R151, R152); its coefficients are not in the spec. -/
def nlHeaderShipped (func : Nat) : Bytes :=
  let row : Nat × Nat × Nat × Nat := match func with
    | 1 => (1, 64, 0, 0)
    | 2 => (2, 64, 0, 0)
    | 3 => (2, 64, 0, 0)
    | 4 => (2, 128, 0, 0)
    | 5 => (0, 256, 0xC1100000, 0x41100000)
    | 6 => (0, 256, 0xC1880000, 0x41880000)
    | 7 => (0, 256, 0xC0C00000, 0x40C00000)
    | _ => (0, 256, 0xC1A00000, 0x41A00000)
  [BitVec.ofNat 8 func, BitVec.ofNat 8 row.1] ++ leBytes 2 row.2.1 ++ leBytes 4 row.2.2.1 ++
    leBytes 4 row.2.2.2 ++ leBytes 4 0

/-- 0x1000: identity, device and commit (R436). -/
def objs1000 : List ObjDef :=
  [{ obj := ob 0x1001 1, ty := .string, acc := .ro, cls := .factory },
   { obj := ob 0x1001 2, ty := .string, acc := .ro, cls := .factory },
   { obj := ob 0x1001 3, ty := .string, acc := .ro, cls := .factory },
   objRead 0x1001 4 1, objRead 0x1001 5 4, objBlob 0x1001 6,
   { obj := ob 0x1001 7, ty := .unsigned 4, acc := .ro, cls := .factory },
   { obj := ob 0x1002 1, ty := .unsigned 4, acc := .wo, hi := 0xFFFFFFFF },
   objRead 0x1002 2 4, objRead 0x1002 3 4, objCount 0x1002 4,
   { obj := ob 0x1010 1, ty := .bool, acc := .rws, cls := .persistent, dflt := [0] }]

/-- 0x2000: power, clocks and time (R413, R436, R494). -/
def objs2000 (liquid : Bool) : List ObjDef :=
  [(if liquid then objSet 0x2001 1 2 400 750 600 else objSet 0x2001 1 2 400 500 500),
   objRead 0x2002 1 2, objRead 0x2002 2 2, objBlob 0x2003 1,
   objCount 0x2004 1, objCount 0x2004 2, objCount 0x2005 1,
   { obj := ob 0x2006 0, ty := .blob, acc := .rw, key := .domain },
   objCount 0x2007 1, objRead 0x2007 2 4, objCount 0x2008 1, objCount 0x2009 1,
   objRead 0x2010 1 4, objCount 0x2011 1, objCount 0x2012 1,
   { obj := ob 0x2020 1, ty := .unsigned 4, acc := .ro, cls := .ratchet },
   { obj := ob 0x2021 1, ty := .unsigned 8, acc := .ro, cls := .persistent },
   objRead 0x2022 1 1]

/-- 0x3000: islands, arrays and the Welt. -/
def objs3000 : List ObjDef :=
  [objCount 0x3012 1, objCount 0x3013 1, objCount 0x3014 1, objCount 0x3015 1, objCount 0x3016 1,
   objCount 0x3017 1, objCount 0x3018 1, objCount 0x3019 1, objBlob 0x3200 0 .bank]

/-- 0x4000: Harbour, Sound, Ferries and Laces (R196). -/
def objs4000 : List ObjDef :=
  [objBlob 0x4001 1, objCount 0x4002 1,
   { obj := ob 0x4010 1, ty := .unsigned 4, acc := .rw, lo := 100, hi := 100000, dflt := leBytes 4 1000 },
   objCount 0x4011 1, objCount 0x4020 1, objCount 0x4021 1, objCount 0x4022 1, objCount 0x4023 1,
   objRead 0x4024 1 2, objCount 0x4030 1, objCount 0x4031 1, objCount 0x4032 1, objCount 0x4033 1,
   objRead 0x4040 1 4, objCount 0x4041 1, objCount 0x4050 1, objCount 0x4051 1, objCount 0x4052 1,
   objCount 0x4053 1]

/-- 0x5000: Shank (R156). -/
def objs5000 : List ObjDef :=
  [objRead 0x5001 1 2, objRead 0x5002 1 1, objRead 0x5010 1 2, objBlob 0x5011 1, objCount 0x5012 1, objCount 0x5013 1,
   objSet 0x5020 1 4 0 512 128, objSet 0x5030 1 4 0 256 64, objCount 0x5041 1, objCount 0x5042 1, objRead 0x5050 1 4]

/-- 0x6000: ports, queues, groups and Strait (R379, R413). -/
def objs6000 : List ObjDef :=
  [objSet 0x6001 1 1 0 2 0, objBlob 0x6002 0, objCount 0x6003 1,
   { obj := ob 0x6030 0, ty := .blob, acc := .priv, key := .offset },
   { obj := ob 0x6100 0, ty := .blob, acc := .rw, key := .pair },
   objRead 0x6101 1 2, objRead 0x6102 1 2, objCount 0x6103 1, objCount 0x6104 1, objCount 0x6105 1, objCount 0x6106 1,
   objCount 0x6107 1,
   objSet 0x6200 1 1 0 255 0, objRead 0x6201 1 1, objRead 0x6202 1 1, objRead 0x6203 1 4,
   { obj := ob 0x6204 1, ty := .unsigned 8, acc := .rw, hi := 0xFFFFFFFFFFFFFFFF, dflt := leBytes 8 0 },
   objSet 0x6205 1 4 2000 1000000 20000, objSet 0x6206 1 4 100 1000000 10000, objBlob 0x6207 0 .member,
   objCount 0x6208 1, objCount 0x6209 1, objCount 0x620A 1, objBlob 0x6210 0, objSet 0x6211 1 4 10 1000000 1000,
   objCount 0x6212 1, objRead 0x6213 1 1, objCount 0x6214 1, objBlob 0x6220 0, objCount 0x6221 1, objCount 0x6222 1]

/-- 0x7000: Lasts, images and placement (R225, R261). -/
def objs7000 : List ObjDef :=
  [objRead 0x7001 1 1, objBlob 0x7002 0 .lastSlot, objSet 0x7010 1 1 0 50 10, objSet 0x7011 1 2 0 1000 1000,
   objSet 0x7013 1 2 520 1000 680, objSet 0x7014 1 1 60 95 85, objCount 0x7020 1, objCount 0x7021 1, objBlob 0x7030 0,
   objRead 0x7040 1 1, objBlob 0x7041 0 .imageHash, objSet 0x7042 1 1 0 15 3, objCount 0x7043 1, objCount 0x7044 1,
   objRead 0x7045 1 4, objCount 0x7050 1, objCount 0x7051 1, objCount 0x7052 1, objSet 0x7060 1 4 0 8192 1024,
   objRead 0x7061 1 4]

/-- 0x8000: maintenance and integrity (R291, R317, R341). -/
def objs8000 : List ObjDef :=
  [{ obj := ob 0x8001 1, ty := .bool, acc := .rws, cls := .persistent, dflt := [1] },
   objSet 0x8002 1 2 560 900 640, objSet 0x8003 1 2 300 900 640, objSet 0x8004 1 4 60 86400 3600,
   objSet 0x8005 1 4 3600 2592000 86400, objSet 0x8006 1 4 10 100000 100, objSet 0x8007 1 2 560 1000 700,
   objSet 0x8008 1 2 1 1000 4, objSet 0x8009 1 1 4 31 8, objBlob 0x8010 0 .bank,
   objCount 0x8011 1, objCount 0x8012 1, objCount 0x8013 1, objCount 0x8014 1, objCount 0x8015 1, objCount 0x8016 1,
   objCount 0x8017 1, objCount 0x8018 1,
   objRead 0x8020 1 4, objRead 0x8021 1 4, objRead 0x8022 1 4, objRead 0x8023 1 4, objRead 0x8024 1 4,
   objRead 0x8025 1 4, objRead 0x8026 1 4,
   objSet 0x8030 1 4 10 3600000 1000, objCount 0x8031 1, objCount 0x8032 1, objCount 0x8033 1, objCount 0x8034 1,
   objCount 0x8035 1, objCount 0x8036 1, objCount 0x8037 1,
   objTable 0x8040 1 bucketParamsShipped, objBlob 0x8040 2 .memInstance, objSet 0x8040 3 4 3600 604800 86400,
   objTable 0x8041 1 [4, 0xFC, 8], objCount 0x8042 1, objCount 0x8043 1, objCount 0x8044 1, objCount 0x8045 1,
   objCount 0x8046 1, objCount 0x8047 1, objCount 0x8048 1, objBlob 0x8049 0 .unit, objBlob 0x804A 1]

/-- 0x9000: monitors and events (R438 to R444). -/
def objs9000 : List ObjDef :=
  [{ obj := ob 0x9001 1, ty := .unsigned 4, acc := .wo, hi := 0xFFFFFFFF },
   objBlob 0x9010 0 .pair, objBlob 0x9011 0 .island, objBlob 0x9012 0 .island, objBlob 0x9020 1, objBlob 0x9030 1,
   objBlob 0x9031 0 .tjSensor, objBlob 0x9040 0 .event, objSet 0x9041 1 2 0 65535 0, objSet 0x9041 2 1 0 255 1,
   objBlob 0x9041 3, objCount 0x9041 4, objBlob 0x9042 0, objCount 0x9043 1]

/-- 0xA000: security (R436, R521). -/
def objsA000 : List ObjDef :=
  [{ obj := ob 0xA001 1, ty := .unsigned 8, acc := .rw, cls := .ratchet, hi := 0xFFFFFFFFFFFFFFFF,
     dflt := List.replicate 8 0xFF },
   { obj := ob 0xA002 1, ty := .unsigned 4, acc := .ro, cls := .ratchet },
   { obj := ob 0xA010 0, ty := .blob, acc := .priv },
   objRead 0xA011 1 4, objRead 0xA011 2 4,
   { obj := ob 0xA012 1, ty := .unsigned 4, acc := .priv, hi := 0xFFFFFFFF },
   { obj := ob 0xA013 1, ty := .unsigned 1, acc := .priv, hi := 255 },
   { obj := ob 0xA030 0, ty := .blob, acc := .ro, cls := .persistent, key := .pubSlot },
   { obj := ob 0xA031 0, ty := .blob, acc := .priv, cls := .persistent, key := .pubSlot },
   { obj := ob 0xA040 1, ty := .blob, acc := .ro, cls := .factory },
   { obj := ob 0xA040 2, ty := .blob, acc := .ro, cls := .factory }]

/-- 0xB000: behaviour tables (R437). -/
def objsB000 : List ObjDef :=
  ((List.range 13).map fun i => objTable 0xB010 (i + 1) (fmtRecord (i + 1))) ++
  [objBlob 0xB020 1, objTable 0xB022 1 topupCurveShipped] ++
  ((List.range 8).map fun i => { objTable 0xB030 (i + 1)
      (nlHeaderShipped (i + 1)) with ty := .blob }) ++
  [objTable 0xB040 1 [50, 30, 20], objTable 0xB050 1 faultClassShipped] ++
  ((List.range 7).map fun i => objTable 0xB060 (i + 1) (pdFsmShipped (i + 1)))

/-- Every object, in ascending index:subindex order. -/
def allObjs (liquid : Bool) : List ObjDef :=
  objs1000 ++ objs2000 liquid ++ objs3000 ++ objs4000 ++ objs5000 ++ objs6000 ++ objs7000 ++ objs8000 ++ objs9000 ++
    objsA000 ++ objsB000

/-- The objects of the range that an object's number lies in. -/
def objRange (liquid : Bool) (obj : Nat) : List ObjDef :=
  match obj / 0x100000 with
  | 1 => objs1000
  | 2 => objs2000 liquid
  | 3 => objs3000
  | 4 => objs4000
  | 5 => objs5000
  | 6 => objs6000
  | 7 => objs7000
  | 8 => objs8000
  | 9 => objs9000
  | 10 => objsA000
  | 11 => objsB000
  | _ => []

/-- The definition of an object (R417). -/
def findObj (liquid : Bool) (obj : Nat) : Option ObjDef := (objRange liquid obj).find? fun d => d.obj = obj

/-- The shipped coefficients of a curve, 16 bytes for each of its SEGS segments (R151), whose values the manual does not give. -/
def curveShipped (obj : Nat) (header : Bytes) : Bytes :=
  (List.range (16 * fld header 2 2)).map fun i => (Config.factory obj).getD i 0

/-- An object's default value (R422); a curve's shipped coefficients are uninterpreted. -/
def dfltOf (liquid : Bool) (obj : Nat) : Bytes :=
  match findObj liquid obj with
  | some d => if obj / 256 = 0xB030 then d.dflt ++ curveShipped obj d.dflt else d.dflt
  | none => []

/-- The monitors (R443). -/
def monObjs : List Nat :=
  [ob 0x5011 1, ob 0x9010 0, ob 0x9011 0, ob 0x9012 0, ob 0x9020 1, ob 0x9030 1, ob 0x9031 0]

/-! ## Checks of written values (R418 and the tables' own rules) -/

/-- Rising comparisons over the seven intervals of the top-up curve (R295). -/
def topupCurveOk (b : Bytes) : Bool :=
  let iv := (List.range 7).map fun i => fld b (4 * i) 4
  iv.all (fun m => 1440 ≤ m && m ≤ 5256000) &&
  (iv.zip (iv.drop 1)).all (fun p => p.2 ≤ p.1) &&
  1 ≤ fld b 28 2 && fld b 28 2 ≤ 1000 && fld b 30 2 ≤ 1000

/-- `tbl.bw_split` (R170). -/
def bwSplitOk (r w m : Nat) : Bool :=
  [r, w, m].all (fun x => x % 5 = 0 && 5 ≤ x) && r + w + m = 100

/-- A format descriptor write (R118). -/
def fmtDescOk (code : Nat) (b : Bytes) : Bool :=
  let ship := fmtRecord code
  let fixed := b.take 10 = ship.take 10 && b.getD 11 0 = 0
  let pol := fld b 10 1
  let nan := fld b 12 4
  let polOk := pol ≤ 1 && (fmtHasInf code || pol = fmtField code 10)
  let nanOk := if 9 ≤ code then decide (nan < 2 ^ fmtWidth code) && isNanCode code nan else decide (nan = 0)
  fixed && polOk && nanOk

/-- A curve record write (R151). -/
def nlCurveOk (func : Nat) (b : Bytes) : Bool :=
  let segs := fld b 2 2
  fld b 0 1 = func && fld b 1 1 ≤ 2 && 1 ≤ segs && segs ≤ 256 && fld b 12 4 = 0 && b.length = 16 + 16 * segs

/-- A `tbl.pd_fsm` write (R470). -/
def pdFsmOk (kind : Nat) (b : Bytes) : Bool :=
  let ret := fld b 8 4
  let off := fld b 12 4
  b.take 8 = (pdFsmShipped kind).take 8 && ret ≤ 1000000000 && off ≤ 1000000000 &&
    (off = 0 || ret = 0 || ret ≤ off)

/-- A U8 table of REF_SHIFT values, −16 to 15 (R341). -/
def shiftsOk (b : Bytes) : Bool := b.all fun x => -16 ≤ x.toInt && x.toInt ≤ 15

/-- `int.bucket_params` (R328). -/
def bucketParamsOk (b : Bytes) : Bool :=
  (List.range 5).all fun k =>
    1 ≤ fld b (8 * k) 4 && fld b (8 * k) 4 ≤ 65535 && 1 ≤ fld b (8 * k + 4) 4 && fld b (8 * k + 4) 4 ≤ 86400

/-- `tbl.fault_class` (R335). -/
def faultClassOk (b : Bytes) : Bool :=
  (List.range 8).all fun k => 1 ≤ fld b (4 * k) 4 && fld b (4 * k) 4 ≤ 86400

/-- The rule of an RWS table (R418). -/
def tableOk (obj : Nat) (b : Bytes) : Bool :=
  if obj / 256 = 0xB010 then fmtDescOk (obj % 256) b
  else if obj / 256 = 0xB030 then nlCurveOk (obj % 256) b
  else if obj / 256 = 0xB060 then pdFsmOk (obj % 256) b
  else if obj = ob 0xB022 1 then topupCurveOk b
  else if obj = ob 0xB040 1 then bwSplitOk (fld b 0 1) (fld b 1 1) (fld b 2 1)
  else if obj = ob 0xB050 1 then faultClassOk b
  else if obj = ob 0x8040 1 then bucketParamsOk b
  else if obj = ob 0x8041 1 then shiftsOk b
  else true

/-- UTF-8 (R418): `need` continuation bytes are still due, the next of them from `lo` to `hi`. -/
def utf8From : Bytes → Nat → Nat → Nat → Bool
  | [], need, _, _ => need = 0
  | x :: t, 0, _, _ =>
    let b := x.toNat
    if b < 0x80 then utf8From t 0 0x80 0xBF
    else if 0xC2 ≤ b && b < 0xE0 then utf8From t 1 0x80 0xBF
    else if 0xE0 ≤ b && b < 0xF0 then
      utf8From t 2 (if b = 0xE0 then 0xA0 else 0x80) (if b = 0xED then 0x9F else 0xBF)
    else if 0xF0 ≤ b && b < 0xF5 then
      utf8From t 3 (if b = 0xF0 then 0x90 else 0x80) (if b = 0xF4 then 0x8F else 0xBF)
    else false
  | x :: t, need + 1, lo, hi => lo ≤ x.toNat && x.toNat ≤ hi && utf8From t need 0x80 0xBF

/-- A written value passes its object's own range and type (R418). -/
def valueOk (d : ObjDef) (b : Bytes) : Bool :=
  match d.ty with
  | .bool => b.length = 1 && (b.getD 0 0).toNat ≤ 1
  | .unsigned n => b.length = n && d.lo ≤ (leNat b : Int) && (leNat b : Int) ≤ d.hi
  | .signed n => b.length = n && d.lo ≤ signedAt (8 * n) (leNat b) && signedAt (8 * n) (leNat b) ≤ d.hi
  | .f32 => b.length = 4 && !isSpecialCode 13 (leNat b)
  | .string => b.length ≤ 255 && utf8From b 0 0x80 0xBF
  | .table n => b.length = n && tableOk d.obj b
  | .blob => tableOk d.obj b

end Sys2Proof.Machine
end

