-- ==== Sys2Proof/Machine/Ops.lean ====
section
/-! DEFINITION. The named operations over the state that several commands share: unit access, Tide and powered time,
dictionary values, events, monitors, fault classification, messages, power domains, the governor's budget. -/

namespace Sys2Proof.Machine

/-- The answer of a meaning. -/
abbrev Res := Host.Outcome State Fault Refusal

/-! ## Units -/

/-- Islands of the part (R1). -/
def nIslands (s : State) : Nat := if s.part816 then 2048 else 1024

/-- Banks of the part (R1, R43). -/
def nBanks (s : State) : Nat := nIslands s * 512

/-- The island of a bank (R43). -/
def bankIsland (b : Nat) : Nat := b / 512

/-- The global array of a bank (R43). -/
def bankArray (b : Nat) : Nat := b / 2

/-- The sister bank of the same array (R40). -/
def sister (b : Nat) : Nat := if b % 2 = 0 then b + 1 else b - 1

def bankOf (s : State) (b : Nat) : Bank := tget s.banks b {}
def islandOf (s : State) (i : Nat) : Island := tget s.islands i {}
def clusterOf (s : State) (c : Nat) : Cluster := tget s.clusters c {}
def schedOf (s : State) (b : Nat) : Sched := tget s.scheds b {}
def slotOf (s : State) (n : Nat) : Slot := tget s.model.slots n {}
def pairOf (s : State) (q : Nat) : QPair := tget s.que.pairs q {}
def segOf (s : State) (n : Nat) : Segment := tget s.hbr.segs n {}
def ferryOf (s : State) (f : Nat) : Ferry := tget s.flow.ferries f {}
def chanOf (s : State) (c : Nat) : Channel := tget s.awl.chans c {}
def linkOf (s : State) (n : Nat) : Link := tget s.strait.links n {}
def domOf (s : State) (n : Nat) : Domain := tget s.power.doms n {}
def portOf (s : State) (p : Port) : PortState := match p with | .u => s.portU | .d => s.portD

def modBank (b : Nat) (f : Bank → Bank) (s : State) : State := { s with banks := tmod s.banks b {} f }
def modIsland (i : Nat) (f : Island → Island) (s : State) : State := { s with islands := tmod s.islands i {} f }
def modCluster (c : Nat) (f : Cluster → Cluster) (s : State) : State := { s with clusters := tmod s.clusters c {} f }
def modSched (b : Nat) (f : Sched → Sched) (s : State) : State := { s with scheds := tmod s.scheds b {} f }
def modSlot (n : Nat) (f : Slot → Slot) (s : State) : State :=
  { s with model := { s.model with slots := tmod s.model.slots n {} f } }
def modPair (q : Nat) (f : QPair → QPair) (s : State) : State :=
  { s with que := { s.que with pairs := tmod s.que.pairs q {} f } }
def modSeg (n : Nat) (f : Segment → Segment) (s : State) : State :=
  { s with hbr := { s.hbr with segs := tmod s.hbr.segs n {} f } }
def modFerry (n : Nat) (f : Ferry → Ferry) (s : State) : State :=
  { s with flow := { s.flow with ferries := tmod s.flow.ferries n {} f } }
def modChan (n : Nat) (f : Channel → Channel) (s : State) : State :=
  { s with awl := { s.awl with chans := tmod s.awl.chans n {} f } }
def modLink (n : Nat) (f : Link → Link) (s : State) : State :=
  { s with strait := { s.strait with links := tmod s.strait.links n {} f } }
def modDom (n : Nat) (f : Domain → Domain) (s : State) : State :=
  { s with power := { s.power with doms := tmod s.power.doms n {} f } }
def modPort (p : Port) (f : PortState → PortState) (s : State) : State :=
  match p with
  | .u => { s with portU := f s.portU }
  | .d => { s with portD := f s.portD }

/-! ## Domain numbers (R463) -/

def domSeg (n : Nat) : Nat := 2048 + n
def domCluster (n : Nat) : Nat := 2064 + n
def domCore : Nat := 2080
def domPort (p : Port) : Nat := match p with | .u => 2081 | .d => 2082
def domLink (n : Nat) : Nat := 2083 + n
def domAlways : Nat := 2090

/-- The kind of a domain, a subindex of `tbl.pd_fsm` (R467). -/
def domKind (n : Nat) : Nat :=
  if n < 2048 then 1 else if n < 2064 then 2 else if n < 2080 then 3 else if n = 2080 then 4
  else if n < 2083 then 5 else if n < 2090 then 6 else 7

def domState (s : State) (n : Nat) : PState := (domOf s n).state
def domIsOn (s : State) (n : Nat) : Bool := domState s n == .on

/-- The code of a domain state (R463). -/
def pstateCode (p : PState) : Nat := match p with | .off => 0 | .ret => 1 | .on => 2 | .failed => 3

/-- Uzomel runs (R433, R497). -/
def uzomelRuns (s : State) : Bool :=
  (s.power.phase == .firmware || s.power.phase == .ready) && domIsOn s domCore

/-- The module has reached t7 of R497. -/
def isReady (s : State) : Bool := s.power.phase == .ready && domIsOn s domCore

/-! ## Tide and powered time (R397, R464, R491) -/

/-- Tide: the PLL's count plus the active offset (R464). -/
def tideOf (s : State) : BitVec 64 := s.time.pll + s.regs.offsetActive

/-- After a step of Tide, an alarm that lies ahead again fires again (R464). -/
def rearmAlarm (s : State) : State :=
  { s with regs := { s.regs with alarmFired := s.regs.alarmFired && decide (s.regs.alarm.toNat ≤ (tideOf s).toNat) } }

/-- Powered time in seconds (R491): the stored total and the ticks since it was stored. -/
def poweredS (s : State) : Nat := s.time.storedTotal + (s.time.pll - s.time.storedAt).toNat / 1000000000

/-- The count of a ratchet's pairs (R511): the largest value among them. -/
def ratchetValue (p : RatchetPair) : Nat := p.base.toNat + (64 - popNat 64 p.word.toNat)

def ratchetCount (ps : List RatchetPair) : Nat := (ps.map ratchetValue).foldl max 0

/-- Clear `n` bits of a ratchet word from bit `from_` up (R511). -/
def clearBits (w : BitVec 64) (from_ n : Nat) : BitVec 64 :=
  w &&& ~~~(BitVec.ofNat 64 ((2 ^ n - 1) * 2 ^ from_))

/-- Advance a ratchet count to v (R511). -/
def ratchetAdvance (ps : List RatchetPair) (v : Nat) : List RatchetPair :=
  let fresh : RatchetPair := { base := BitVec.ofNat 32 (v - 1), word := 0xFFFFFFFFFFFFFFFE }
  match ps with
  | [] => [fresh]
  | p :: t =>
    let z := 64 - popNat 64 p.word.toNat
    let b := p.base.toNat
    if b + 1 ≤ v && v - b ≤ 64 - z then
      { p with word := clearBits p.word z (v - b - z) } :: t
    else fresh :: ps

/-- The power-cycle count (R489). -/
def pcycleOf (s : State) : Nat := ratchetCount s.sec.cyclePairs

/-! ## Dictionary values (R419, R423) -/

/-- The active value of a written object. -/
def dictActive (s : State) (obj arg : Nat) : Bytes := (tget? s.dict.active (okey obj arg)).getD (dfltOf s.liquid obj)

/-- The active value of a scalar object. -/
def dictNum (s : State) (obj : Nat) : Nat := leNat (dictActive s obj 0)

def modDict (f : Dict → Dict) (s : State) : State := { s with dict := f s.dict }

/-- Add to a U64 counter (R421). -/
def bumpBy (obj n : Nat) (s : State) : State :=
  modDict (fun d => { d with counters := tmod d.counters obj 0 fun c => c + BitVec.ofNat 64 n }) s

def bump (obj : Nat) (s : State) : State := bumpBy obj 1 s

def counterOf (s : State) (obj : Nat) : BitVec 64 := tget s.dict.counters obj 0

/-- Strict mode in force (R34, R452): the active value of SYS_MODE.STRICT. -/
def strictOn (s : State) : Bool := bitAt s.regs.modeActive.toNat 0

/-! ## Messages -/

/-- A message leaves the module. -/
def send (m : OutMsg) (s : State) : State := { s with out := s.out ++ [m] }

/-- A write towards a port's memory, held while the port is in D3hot (R346). -/
def sendPort (p : Port) (m : OutMsg) (s : State) : State :=
  if (portOf s p).d3hot then { s with que := { s.que with held := s.que.held ++ [m] } } else send m s

/-- Set an INT_CAUSE bit (R466). -/
def cause (k : Nat) (s : State) : State :=
  { s with regs := { s.regs with intCause := s.regs.intCause ||| BitVec.ofNat 32 (2 ^ k) } }

/-! ## Free values (notes/assumptions/3.md) -/

/-- A fresh free value, and the state that has used it. -/
def takeFree (s : State) : Nat × State := (Config.freeNat s.free, { s with free := s.free + 1 })

/-! ## Events (R438 to R440) -/

/-- An event's number in the model, by its place in the list of names. -/
def eventIndex (e : EventName) : Nat :=
  match e with
  | .islandQuarantine => 0 | .throughputFall => 1 | .moduleFault => 2 | .belowFloor => 3 | .tolerantNone => 4
  | .packetFault => 5 | .lanePoison => 6 | .badDescriptor => 7 | .snBadType => 8 | .deadlineMissed => 9
  | .bankWorn => 10 | .bankRetired => 11 | .replaced => 12 | .refetch => 13 | .swapFrontStopped => 14
  | .eraseStarved => 15 | .forcedCover => 16 | .wearSymptom => 17 | .columnFailing => 18 | .columnRebuilt => 19
  | .hardTableFull => 20 | .ceBurst => 21 | .uncorrectable => 22 | .permanentFault => 23 | .harbourBankFault => 24
  | .doorbellError => 25 | .submissionFailed => 26 | .portDevice => 27 | .groupRefused => 28 | .disagree => 29
  | .memberLeft => 30 | .groupAborted => 31 | .duplicateModId => 32 | .storeLoss => 33 | .cfgMismatch => 34
  | .holdLong => 35 | .wakeFailed => 36 | .supplyLow => 37 | .throttle => 38 | .islandHot => 39 | .tideSource => 40
  | .watchdog => 41 | .transientFault => 42 | .linkFailed => 43 | .identityLost => 44 | .recovery => 45
  | .oscFailed => 46 | .thermalTrip => 47

/-- The 32-byte record of an event (R438). -/
def eventRecord (e : Event) : Bytes :=
  leBytes 8 e.seq ++ leBytes 8 e.tide.toNat ++ leBytes 4 e.epoch.toNat ++ leBytes 4 e.pcycle.toNat ++
    leBytes 2 (Config.eventCode (eventIndex e.name)).toNat ++ leBytes 1 e.severity ++ leBytes 1 e.unitKind ++
    leBytes 4 e.unit

/-- The event that a new one of this triple would repeat within 1 ms (R439). -/
def repeats (s : State) (e : Event) : Bool :=
  match s.dict.events.find? fun o => o.name == e.name && o.unitKind == e.unitKind && o.unit == e.unit with
  | some o => o.pcycle == e.pcycle && o.epoch == e.epoch && decide ((e.tide - o.tide).toNat ≤ 1000000)
  | none => false

/-- Append to the fault log, which holds 256 records (R440). -/
def faultRecord (e : Event) (s : State) : State :=
  modDict (fun d => { d with faultLog := (e :: d.faultLog).take 256 }) s

/-- Log an event, overwriting the oldest of 4,096 (R438), and tell the host and the bus (R440). -/
def logEvent (e : Event) (s : State) : State :=
  let lost := decide (4096 ≤ s.dict.events.length) && !(s.dict.events.getLastD e).read
  let s := if lost then bump (ob 0x9043 1) s else s
  let s := modDict (fun d => { d with events := (e :: d.events).take 4096, nextSeq := d.nextSeq + 1 }) s
  let s := if 2 ≤ e.severity then faultRecord e s else s
  if dictNum s (ob 0x9041 2) ≤ e.severity then
    let s := sendPort .u (.msix .u (dictNum s (ob 0x9041 1))) s
    match s.dict.logReader with
    | some ep => send (.eventNotice ep (eventRecord e)) s
    | none => s
  else s

/-- Raise an event of the given severity about a unit (R438, R439). -/
def raiseSev (sev : Nat) (name : EventName) (unitKind unit : Nat) (s : State) : State :=
  let e : Event :=
    { seq := s.dict.nextSeq, tide := tideOf s, epoch := s.time.epoch, pcycle := BitVec.ofNat 32 (pcycleOf s), name,
      severity := sev, unitKind, unit }
  if repeats s e then bump (ob 0x9041 4) s else logEvent e s

/-- Raise an event whose severity the spec does not give. -/
def raise (name : EventName) (unitKind unit : Nat) (s : State) : State :=
  raiseSev (Config.eventSeverity (eventIndex name)).val name unitKind unit s

/-- Raise an event that the spec says is recorded in `evt.fault_log` (severity FAULT, R440). -/
def raiseFault (name : EventName) (unitKind unit : Nat) (s : State) : State := raiseSev 3 name unitKind unit s

/-! ## Monitors (R441, R442) -/

/-- The bin of a sample (R442). -/
def monBin (v : Nat) : Nat := if v = 0 then 0 else min 31 (Nat.log2 v + 1)

/-- Take a sample into a record (R441). -/
def monSample (v : Nat) (m : Mon) : Mon :=
  let v := min v 0xFFFFFFFF
  { m with
    count := m.count + 1
    sum := m.sum + BitVec.ofNat 64 v
    min := BitVec.ofNat 32 (Nat.min m.min.toNat v)
    max := BitVec.ofNat 32 (Nat.max m.max.toNat v)
    last := BitVec.ofNat 32 v
    bins := tmod m.bins (monBin v) 0 fun c => c + 1 }

/-- An empty record, with the monitor's last clear (R441). -/
def monEmpty (s : State) (obj : Nat) : Mon :=
  let c := tget s.dict.monClears obj (0, 0)
  { clearTide := c.1, clearEpoch := c.2 }

/-- The record of a unit of a monitor. -/
def monOf (s : State) (obj unit : Nat) : Mon := tget s.dict.monitors (okey obj unit) (monEmpty s obj)

/-- Sample a monitor (R443). -/
def sample (obj unit v : Nat) (s : State) : State :=
  let rec_ := monSample v (monOf s obj unit)
  modDict (fun d =>
    { d with monitors := tset d.monitors (okey obj unit) rec_, monLast := tset d.monLast obj unit }) s

/-- A record after a clear (R441): LAST is kept. -/
def monCleared (s : State) (m : Mon) : Mon :=
  { last := m.last, clearTide := tideOf s, clearEpoch := s.time.epoch }

/-- Clear every unit of a monitor as one step (R444). -/
def monClearAll (obj : Nat) (s : State) : State :=
  modDict (fun d =>
    { d with
      monitors := d.monitors.map fun e => if e.1 / 2 ^ 64 = obj then (e.1, monCleared s e.2) else e
      monClears := tset d.monClears obj (tideOf s, s.time.epoch) }) s

/-! ## Pins and module faults -/

/-- Assert FAULT_N (R531). -/
def assertFault (s : State) : State := { s with power := { s.power with faultN := true } }

/-- A module fault: FAULT_N, one event, and R26 from now on. -/
def moduleFault (s : State) : State :=
  let s := assertFault { s with power := { s.power with moduleFault := true } }
  raiseFault .moduleFault 0 0 s

/-! ## Fault classification (R334 to R339) -/

/-- A dip is under way, up to the end of its hold (R337). -/
def dipCounts (s : State) : Bool := s.power.dip == .tripped || s.power.dip == .hold

/-- Work is held by a dip (R481, t1 to t6). -/
def dipHolds (s : State) : Bool := !(s.power.dip == .none)

/-- A unit kind's place in the table of R336, and its UNIT_KIND in events (R438). -/
def unitIndex (k : UnitKind) : Nat :=
  match k with
  | .sramWord => 0 | .harbourBank => 1 | .column => 2 | .array => 3 | .island => 4 | .ferry => 5 | .cluster => 6
  | .lane => 7

def unitEventKind (k : UnitKind) : Nat :=
  match k with
  | .sramWord => 0 | .harbourBank => 4 | .column => 1 | .array => 2 | .island => 3 | .ferry => 5 | .cluster => 6
  | .lane => 8

/-- The window W of a unit kind, in seconds (R335). -/
def faultWindow (s : State) (k : UnitKind) : Nat := fld (dictActive s (ob 0xB050 1) 0) (4 * unitIndex k) 4

def histGet (l : List (UnitKind × Nat × History)) (k : UnitKind) (n : Nat) : History :=
  ((l.find? fun e => e.1 == k && e.2.1 == n).map fun e => e.2.2).getD {}

def histSet (l : List (UnitKind × Nat × History)) (k : UnitKind) (n : Nat) (h : History) :
    List (UnitKind × Nat × History) :=
  (k, n, h) :: l.filter fun e => !(e.1 == k && e.2.1 == n)

def historyOf (s : State) (k : UnitKind) (n : Nat) : History := histGet s.integ.history k n

def setHistory (k : UnitKind) (n : Nat) (h : History) (s : State) : State :=
  { s with integ := { s.integ with history := histSet s.integ.history k n h } }

/-- Store the powered-time total (R491). -/
def storeTotal (s : State) : State :=
  { s with time := { s.time with storedTotal := poweredS s, storedAt := s.time.pll } }

/-- Count one failure of a unit and classify it (R334, R337): the new state, and whether it has just turned permanent. -/
def countFailure (k : UnitKind) (n : Nat) (s : State) : State × Bool :=
  if dipCounts s then (bump (ob 0x8048 1) s, false)
  else
    let h := historyOf s k n
    if h.permanent then (s, false)
    else
      let now := poweredS s
      let kept := h.stamps.filter fun st => now ≤ st.2 + faultWindow s k
      let stamps := (pcycleOf s, now) :: kept
      let perm := decide (3 ≤ stamps.length)
      (storeTotal (setHistory k n { stamps, permanent := perm } s), perm)

/-- One event for a fault turned permanent (R339). -/
def permanentEvent (k : UnitKind) (n : Nat) (s : State) : State :=
  raise (if k = .harbourBank then .harbourBankFault else .permanentFault) (unitEventKind k) n s

/-! ## Corrected errors (R323 to R328) -/

/-- The bucket of a memory instance: kind 0 Harbour bank, 1 Welt, 2 Shank, 3 core SRAM, 4 Sound port. -/
def bucketKey (kind n : Nat) : Nat := kind * 65536 + n

def bucketT (s : State) (kind : Nat) : Nat := fld (dictActive s (ob 0x8040 1) 0) (8 * kind) 4

def bucketD (s : State) (kind : Nat) : Nat := fld (dictActive s (ob 0x8040 1) 0) (8 * kind + 4) 4

def modBucket (key : Nat) (f : Bucket → Bucket) (s : State) : State :=
  { s with integ := { s.integ with buckets := tmod s.integ.buckets key {} f } }

def bucketOf (s : State) (key : Nat) : Bucket := tget s.integ.buckets key {}

/-- Add one to a bucket (R327). -/
def bucketAdd (kind n : Nat) (s : State) : State :=
  let key := bucketKey kind n
  if bucketT s kind < (bucketOf s key).count + 1 then
    let s := modBucket key (fun b => { b with count := 0, overflows := b.overflows + 1 }) s
    raise .ceBurst 12 key (cause 3 (bump (ob 0x8045 1) s))
  else modBucket key (fun b => { b with count := b.count + 1 }) s

/-- The hard-word table of an instance (R325): the first four words that turned permanent; later ones found no entry. -/
def hardTable (b : Bucket) : List (Nat × Nat) := b.hard.take 4

/-- A corrected error at (word, bit) of an instance (R323, R325, R327): the words of the hard-word table count apart. One that
comes after a write-back of the same word and bit is a failure (R336): the third within the window makes the word permanent, and
the fifth word to turn permanent raises one event. -/
def correctedError (kind n word bit : Nat) (s : State) : State :=
  let key := bucketKey kind n
  let s := bump (ob 0x8042 1) s
  let b := bucketOf s key
  if (hardTable b).any fun h => h.1 = word && h.2 = bit then bump (ob 0x8044 1) s
  else
    let s := bucketAdd kind n s
    let now := poweredS s
    let rest := b.soft.filter fun e => !(e.1 = word && e.2.1 = bit)
    let keep := fun (l : List (Nat × Nat × Nat)) => modBucket key (fun b => { b with soft := rest ++ l }) s
    if b.hard.any fun h => h.1 = word && h.2 = bit then s
    else match b.soft.filter fun e => e.1 = word && e.2.1 = bit with
      | [] => keep [(word, bit, now)]
      | first :: failures =>
        let seen := failures.filter fun e => decide (now ≤ e.2.2 + faultWindow s .sramWord)
        if dipCounts s then bump (ob 0x8048 1) s
        else if 3 ≤ seen.length + 1 then
          let s := modBucket key (fun b => { b with soft := rest, hard := b.hard ++ [(word, bit)] }) s
          if b.hard.length = 4 then raise .hardTableFull 12 key s else s
        else keep (first :: seen ++ [(word, bit, now)])

/-- Whether (word, bit) is in the hard-word table of an instance (R325). -/
def isHard (s : State) (kind n word bit : Nat) : Bool :=
  (hardTable (bucketOf s (bucketKey kind n))).any fun h => h.1 = word && h.2 = bit

/-- An uncorrectable error (R327): counted, one event at once, INT_CAUSE.UE. -/
def uncorrectable (unitKind n : Nat) (s : State) : State :=
  raise .uncorrectable unitKind n (cause 4 (bump (ob 0x8043 1) s))

/-! ## The governor's budget (R483 to R487), in seventieths of a milliwatt -/

/-- The standing reserve N (R483). -/
def standingReserve (s : State) : Nat :=
  let lit := fun n => domState s n == .on || domState s n == .ret || (domOf s n).current == some .on
  let count := fun (l : List Nat) => (l.filter lit).length
  240625 * count ((List.range 16).map domSeg) + (if domIsOn s domCore then 1750000 else 0) +
    525000 * count [2081, 2082] + 200000 * count ((List.range 7).map domLink) + 1050000

/-- The cap in force (R3, R453). -/
def capUnits (s : State) : Nat := bitsAt s.regs.capActive.toNat 9 0 * 70000

/-- The compute budget B (R483). -/
def budgetB (s : State) : Nat := min 44800000 (capUnits s - standingReserve s)

/-- The throttle offset Θ, which never exceeds B − 13.75 W (R486). -/
def thetaOf (s : State) : Nat := min s.power.theta (budgetB s - 962500)

/-- The effective budget B′ (R486, R487). -/
def budgetEff (s : State) : Nat :=
  let b := budgetB s - thetaOf s
  if s.power.logicHot then min b (budgetB s / 2) else b

/-- Array charges held now (R484). -/
def arrayCharges (s : State) : Nat :=
  ((s.model.launches.filter fun l => l.2.charged).map fun l => 3150 * l.2.arrays).sum

/-- Shank charges held now (R484). -/
def shankCharges (s : State) : Nat := 962500 * s.power.shankCharged.length

/-- A new array charge fits all three limits (R484). -/
def arrayFits (s : State) (charge : Nat) : Bool :=
  arrayCharges s + charge ≤ 26600000 && arrayCharges s + shankCharges s + charge ≤ budgetEff s

/-- A new Shank charge fits all three limits (R484). -/
def shankFits (s : State) : Bool :=
  shankCharges s + 962500 ≤ 15400000 && arrayCharges s + shankCharges s + 962500 ≤ budgetEff s

/-! ## Power-domain requests of Uzomel (R470, R473) -/

/-- Start or queue a request of Uzomel for ON, unless the domain is ON or the request is already there (R470). -/
def wantOn (n : Nat) (s : State) : State :=
  let d := domOf s n
  if d.state == .on && d.current.isNone && d.queued.isNone then s
  else if d.current == some .on || d.queued == some .on then s
  else if d.current.isSome then
    modDom n (fun d => { d with queued := some .on, refused := false })
      (if d.queued.isSome then bump (ob 0x2009 1) s else s)
  else
    let s := if d.queued.isSome then bump (ob 0x2009 1) s else s
    if d.state == .on then cause 6 (modDom n (fun d => { d with queued := none, refused := false }) s)
    else modDom n (fun d => { d with current := some .on, queued := none, refused := false, attempts := 0 }) s

end Sys2Proof.Machine
end

