-- ==== Sys2Proof/Machine/Memory.lean ====
section
/-! DEFINITION. The Harbour's bytes, check state and valid bits (R157 to R165, R322). A byte that no entry lists reads 0,
as R162 says of a granule that was never written; the list is rising and holds no entry equal to 0. Choices of the
model: notes/assumptions/14.md (DEDUCED). -/

namespace Sys2Proof.Machine

/-- The byte at an address of a cell list. -/
def cellGet : List Host.Cell → Nat → Byte
  | [], _ => 0
  | (a, v) :: t, n => if a = n then v else cellGet t n

/-- The list with the byte at `n` set to `v`; writing 0 removes the entry. -/
def cellSet : List Host.Cell → Nat → Byte → List Host.Cell
  | [], n, v => if v = 0 then [] else [(n, v)]
  | (a, w) :: t, n, v =>
    if n < a then (if v = 0 then (a, w) :: t else (n, v) :: (a, w) :: t)
    else if n = a then (if v = 0 then t else (n, v) :: t)
    else (a, w) :: cellSet t n v

/-- The canonical form: every address above `lo`, strictly rising, no zero entry. -/
def cellsAbove : Nat → List Host.Cell → Bool
  | _, [] => true
  | lo, (a, v) :: t => decide (lo ≤ a) && !(v == 0) && cellsAbove (a + 1) t

/-- The canonical form of a memory list. -/
def Memory.wf (l : List Host.Cell) : Bool := cellsAbove 0 l

/-- Write a run of bytes. -/
def cellsWrite (l : List Host.Cell) : Nat → Bytes → List Host.Cell
  | _, [] => l
  | a, b :: t => cellsWrite (cellSet l a b) (a + 1) t

/-- Set the syndrome of a word; 0 is not listed. -/
def devSet (t : Tab (BitVec 8)) (w : Nat) (v : BitVec 8) : Tab (BitVec 8) :=
  if v = 0 then tdel t w else tset t w v

/-- The valid bit of a granule (R162). -/
def isValid (h : Harbour) (g : Nat) : Bool := h.valid.contains g

/-- The stored syndrome of a word; 0 in a granule whose valid bit is clear (R162). -/
def wordSyn (h : Harbour) (w : Nat) : BitVec 8 := if isValid h (w / 8) then tget h.dev w 0 else 0

/-- The stored byte at an address, before any correction (R162). -/
def rawByte (h : Harbour) (a : Nat) : Byte := if isValid h (a / 64) then cellGet h.data a else 0

/-- The byte at an address as a reader delivers it: corrected by its word's syndrome (R321). -/
def byteAt (h : Harbour) (a : Nat) : Byte :=
  match eccDecode (wordSyn h (a / 8)) with
  | .dataBit i => if i / 8 = a % 8 then rawByte h a ^^^ BitVec.ofNat 8 (2 ^ (i % 8)) else rawByte h a
  | _ => rawByte h a

/-- A word is delivered poisoned: a poison mark or an uncorrectable error (R321, R322). -/
def wordBad (h : Harbour) (w : Nat) : Bool :=
  match eccDecode (wordSyn h w) with
  | .poison => true
  | .uncorrectable => true
  | _ => false

/-- Read `len` bytes from `a`. -/
def hRead (h : Harbour) (a len : Nat) : Bytes := (List.range len).map fun i => byteAt h (a + i)

/-- Some word of a range is delivered poisoned. -/
def hPoison (h : Harbour) (a len : Nat) : Bool :=
  (List.range ((a + len + 7) / 8 - a / 8)).any fun i => wordBad h (a / 8 + i)

/-- The word's new syndrome after a write that covers `n` of its 8 bytes (R163, R322): a word that the merge read finds
poisoned or uncorrectable stays poisoned unless the write covers it wholly. -/
def wordAfter (h : Harbour) (w n : Nat) (poison : Bool) : BitVec 8 :=
  if n = 8 then (if poison then 0xFF else 0)
  else if wordBad h w then 0xFF
  else if n = 0 then wordSyn h w
  else if poison then 0xFF
  else 0

/-- Write the bytes of one granule that `mask` names (R162, R163). `data` and `mask` have 64 places; bit k of `poison`
marks word k of the written data. -/
def writeGranule (h : Harbour) (g : Nat) (mask : List Bool) (data : Bytes) (poison : BitVec 8) : Harbour :=
  let merged := (List.range 64).map fun i => if mask.getD i false then data.getD i 0 else
    (if ((mask.drop (i / 8 * 8)).take 8).any id then byteAt h (64 * g + i) else rawByte h (64 * g + i))
  let syns := (List.range 8).map fun k =>
    wordAfter h (8 * g + k) (((mask.drop (8 * k)).take 8).filter id).length (poison.getLsbD k)
  { h with
    data := cellsWrite h.data (64 * g) merged
    dev := (List.range 8).foldl (fun t k => devSet t (8 * g + k) (syns.getD k 0)) h.dev
    valid := insertUp g h.valid }

/-- Write a run of bytes from `a`, granule by granule; every written word takes the poison mark or none. -/
def hWrite (h : Harbour) (a : Nat) (d : Bytes) (poison : Bool) : Harbour :=
  if d = [] then h
  else
    let g₀ := a / 64
    let n := (a + d.length + 63) / 64 - g₀
    (List.range n).foldl (fun h j =>
      let base := 64 * (g₀ + j)
      let mask := (List.range 64).map fun i => decide (a ≤ base + i) && decide (base + i < a + d.length)
      let bytes := (List.range 64).map fun i => if a ≤ base + i then d.getD (base + i - a) 0 else 0
      writeGranule h (g₀ + j) mask bytes (if poison then 0xFF else 0)) h

/-- Clear a region: every valid bit in it is reset (R164), and its bytes and marks are forgotten. -/
def hClear (h : Harbour) (a len : Nat) : Harbour :=
  { h with
    data := h.data.filter fun c => !(decide (a ≤ c.1) && decide (c.1 < a + len))
    dev := h.dev.filter fun c => !(decide (a ≤ 8 * c.1) && decide (8 * c.1 < a + len))
    valid := h.valid.filter fun g => !(decide (a ≤ 64 * g) && decide (64 * g < a + len)) }

/-- The segment of an address (R157). -/
def addrSeg (a : Nat) : Nat := a / 2 ^ 26

/-- The Harbour bank of an address (R157). -/
def addrBank (a : Nat) : Nat := 128 * addrSeg a + ((a / 64 % 128) ^^^ (a / 8192 % 128))

/-- The Harbour address of a slab (R157, R176). -/
def slabAddr (h : Nat) : Nat := h * 16384

/-- An address lies in a region under clear (R164). -/
def underClear (s : State) (a : Nat) : Bool := s.hbr.clears.any fun r => r.1 ≤ a && a < r.1 + r.2

/-- Write into the Harbour. -/
def harbWrite (a : Nat) (d : Bytes) (poison : Bool) (s : State) : State :=
  if domState s (domSeg (addrSeg a)) == .failed then s else { s with hbr := hWrite s.hbr a d poison }

/-- Read from the Harbour. -/
def harbRead (s : State) (a len : Nat) : Bytes := hRead s.hbr a len

/-- The context record n (R222): 256 bytes at H = 256 n. -/
def ctxRecord (s : State) (n : Nat) : Bytes := harbRead s (256 * n) 256

/-- Write a field of a context record. -/
def ctxWrite (n off : Nat) (d : Bytes) (s : State) : State := harbWrite (256 * n + off) d false s

end Sys2Proof.Machine
end

