-- ==== Sys2Proof/Machine/Access.lean ====
section
/-! DEFINITION. Accesses to the Harbour by the module's units (R163 to R170, R321 to R326): access slots, corrections and
write-backs, what makes an access wait, and the reads and writes that every unit shares. Choices of the model:
notes/assumptions/14.md (DEDUCED). -/

namespace Sys2Proof.Machine

/-! ## Slots (R168, R169) -/

/-- A transfer has a port at either end (R168, R183): Port U, Port D or Strait. -/
def remoteDesc (d : Desc) : Bool := 2 ≤ d.srcKind.toNat || 2 ≤ d.dstKind.toNat

/-- The port by which Ferry `f` reaches the Harbour for a transfer. Numbers from 3,088 on, which no port of R171 has, stand for Ferry
p − 3,088 on a transfer with a port at either end: they tell the class of the access (R168). -/
def ferryPort (f : Nat) (d : Desc) : BitVec 12 := BitVec.ofNat 12 (2064 + f + if remoteDesc d then 1024 else 0)

/-- The class of an access (R168): 0 read, 1 write, 2 remote. The ports and the Strait links are remote, and so is a Ferry
on a transfer that has a port at either end. -/
def accessClass (port : BitVec 12) (write : Bool) : Nat :=
  let p := port.toNat
  if (2337 ≤ p && p ≤ 2345) || 3088 ≤ p then 2 else if write then 1 else 0

/-- A stream reads, writes or fills the Harbour at this address. -/
def streamTouches (st : Stream) (a : Nat) : Bool :=
  let d := st.desc
  let within := fun (base : Nat) => decide (base ≤ a) && decide (a < base + d.length.toNat)
  (d.srcKind = 1 && within d.srcAddr.toNat) || (d.dstKind = 1 && within d.dstAddr.toNat) ||
    st.filling.any fun h => decide (h.toNat = a / 16384)

/-- The port that tells the class of an access by packet (R168): a Ferry's is that of its transfer over the address. -/
def classPort (s : State) (port : BitVec 12) (a : Nat) : BitVec 12 :=
  let p := port.toNat
  if 2064 ≤ p && p ≤ 2319 then
    match (ferryOf s (p - 2064)).streams.find? fun t => streamTouches t.2 a with
    | some t => ferryPort (p - 2064) t.2.desc
    | none => port
  else port

/-- Use one access slot of a bank (R169): a window ends after 20. -/
def useSlot (bank cls : Nat) (s : State) : State :=
  let w := tget s.hbr.windows bank {}
  let w : SlotWindow := if 20 ≤ w.read + w.write + w.remote then {} else w
  let w := if cls = 0 then { w with read := w.read + 1 } else if cls = 1 then { w with write := w.write + 1 } else { w with remote := w.remote + 1 }
  { s with hbr := { s.hbr with windows := tset s.hbr.windows bank w } }

/-- The slots of a window that the split gives a class (R169, R170). -/
def classShare (s : State) (cls : Nat) : Nat :=
  let p := s.hbr.split
  (if cls = 0 then p.1 else if cls = 1 then p.2.1 else p.2.2) / 5

/-- A class has slots of its share left in a bank's present window (R169). -/
def shareLeft (s : State) (bank cls : Nat) : Bool :=
  let w := tget s.hbr.windows bank {}
  let w : SlotWindow := if 20 ≤ w.read + w.write + w.remote then {} else w
  decide ((if cls = 0 then w.read else if cls = 1 then w.write else w.remote) < classShare s cls)

/-- The class that a bank serves next among those that have an access waiting (R169): one with slots of its share left, else
the first in the order read, write, remote. -/
def nextClass (s : State) (bank : Nat) (waits : Nat → Bool) : Option Nat :=
  match [0, 1, 2].find? fun c => waits c && shareLeft s bank c with
  | some c => some c
  | none => [0, 1, 2].find? waits

/-! ## Upsets, correction and write-back (R321 to R326, R336) -/

/-- A bit of a stored codeword is inverted: data bits 0 to 63, check bits 64 to 71. -/
def upsetBit (word bit : Nat) (h : Harbour) : Harbour :=
  if !isValid h (word / 8) || 72 ≤ bit then h
  else
    let syn := tget h.dev word 0
    if bit < 64 then
      let a := 8 * word + bit / 8
      { h with data := cellSet h.data a (cellGet h.data a ^^^ BitVec.ofNat 8 (2 ^ (bit % 8)))
               dev := devSet h.dev word (syn ^^^ BitVec.ofNat 8 (hCols.getD bit 0)) }
    else { h with dev := devSet h.dev word (syn ^^^ BitVec.ofNat 8 (2 ^ (bit - 64))) }

/-- Write a corrected word back to its location (R323), by a write-class access. -/
def writeBack (word : Nat) (h : Harbour) : Harbour :=
  let bytes := hRead h (8 * word) 8
  { h with data := cellsWrite h.data (8 * word) bytes, dev := devSet h.dev word 0 }

/-- One failure of a Harbour bank (R336): once it turns permanent, one event names it. -/
def bankHit (bank : Nat) (s : State) : State :=
  let (s, perm) := countFailure .harbourBank bank s
  if perm then permanentEvent .harbourBank bank s else s

/-- A correction at a word and bit of the Harbour: counted, and written back unless the word is hard there (R323, R325). -/
def harbourCorrect (word bit : Nat) (s : State) : State :=
  let bank := addrBank (8 * word)
  let hard := isHard s 0 bank word bit
  let s := correctedError 0 bank word bit s
  if hard then s else useSlot bank 1 { s with hbr := writeBack word s.hbr }

/-- What a read does to one word (R321, R323, R327, R336). -/
def touchWord (word : Nat) (s : State) : State :=
  match eccDecode (wordSyn s.hbr word) with
  | .clean => s
  | .poison => s
  | .checkBit k => harbourCorrect word (64 + k) s
  | .dataBit i => harbourCorrect word i s
  | .uncorrectable =>
    let bank := addrBank (8 * word)
    bankHit bank (uncorrectable 4 bank s)

/-- What a read does to a granule: the data that it delivers is read before the write-backs. -/
def touchGranule (g : Nat) (s : State) : State :=
  if isValid s.hbr g then (List.range 8).foldl (fun s k => touchWord (8 * g + k) s) s else s

/-! ## Waiting (R19, R164, R166) -/

/-- The granules of a run. -/
def granulesOf (a len : Nat) : List Nat := (List.range ((a + len + 63) / 64 - a / 64)).map fun k => a / 64 + k

/-- An access waits: its region is under clear, or its segment is in RET or OFF (R164, R166). -/
def accessWaits (s : State) (a : Nat) : Bool :=
  let st := domState s (domSeg (addrSeg a))
  underClear s a || st == .ret || st == .off

/-- Some granule of a run waits. A run of no bytes waits for nothing. -/
def runWaits (s : State) (a len : Nat) : Bool := (granulesOf a len).any fun g => accessWaits s (64 * g)

/-- Wake the segments of a run that are in RET (R166). -/
def runWake (a len : Nat) (s : State) : State :=
  if len = 0 then s
  else (List.range (addrSeg (a + len - 1) + 1 - addrSeg a)).foldl (fun s k =>
    let d := domSeg (addrSeg a + k)
    if domState s d == .ret then wantOn d s else s) s

/-- Some run of a list waits. -/
def runsWait (s : State) (l : List (Nat × Nat)) : Bool := l.any fun r => runWaits s r.1 r.2

/-- Wake the segments of a list of runs. -/
def runsWake (l : List (Nat × Nat)) (s : State) : State := l.foldl (fun s r => runWake r.1 r.2 s) s

/-! ## Reads and writes of the units -/

/-- What a unit's read does to the granules of a run: one access slot for each valid one (R162, R169), corrections and their
counts (R321, R323). -/
def touchRun (port : BitVec 12) (a len : Nat) (s : State) : State :=
  let cls := accessClass port false
  (granulesOf a len).foldl (fun s g =>
    if isValid s.hbr g then touchGranule g (useSlot (addrBank (64 * g)) cls s) else s) s

/-- A unit reads a run: its bytes, whether some word is poisoned (R165, R322), and the state after. A FAILED segment answers
poisoned (R476). -/
def fetchRun (port : BitVec 12) (a len : Nat) (s : State) : (Bytes × Bool) × State :=
  let failed := (granulesOf a len).any fun g => domState s (domSeg (addrSeg (64 * g))) == .failed
  ((harbRead s a len, hPoison s.hbr a len || failed), touchRun port a len s)

/-- A unit reads several runs, one after the other: their bytes, and which of them it found poisoned (R165, R322, R476). -/
def fetchRuns (port : BitVec 12) (runs : List (Nat × Nat)) (s : State) : (Bytes × List Bool) × State :=
  runs.foldl (fun acc r =>
    let ((b, _), s) := fetchRun port r.1 r.2 acc.2
    let bad := fun (a : Nat) => domState acc.2 (domSeg (addrSeg a)) == .failed || wordBad acc.2.hbr (a / 8)
    ((acc.1.1 ++ b, acc.1.2 ++ (List.range r.2).map fun i => bad (r.1 + i)), s)) (([], []), s)

/-- A unit writes a run: access slots, the merge reads of granules that it covers in part (R163), the bytes. -/
def storeRun (port : BitVec 12) (a : Nat) (d : Bytes) (poison : Bool) (s : State) : State :=
  if d = [] then s
  else
    let cls := accessClass port true
    let s := (granulesOf a d.length).foldl (fun s g =>
      let whole := decide (a ≤ 64 * g) && decide (64 * g + 64 ≤ a + d.length)
      let s := useSlot (addrBank (64 * g)) cls s
      if whole then s else touchGranule g s) s
    harbWrite a d poison s

/-- Write a run from a granule's start, each of its words with its own mark (R163, R322): access slots and merge reads as for
any write of a unit. -/
def storeMarked (port : BitVec 12) (a : Nat) (d : Bytes) (bad : List Bool) (s : State) : State :=
  if domState s (domSeg (addrSeg a)) == .failed then s
  else
    let cls := accessClass port true
    ((List.range (ceilDiv d.length 64)).zip (chunksOf 64 d.length d)).foldl (fun s p =>
      let g := a / 64 + p.1
      let n := p.2.length
      let mask := (List.range 64).map fun i => decide (i < n)
      let poison := BitVec.ofNat 8 (((List.range 8).map fun k => b2n (bad.getD (8 * p.1 + k) false) * 2 ^ k).sum)
      let s := useSlot (addrBank (64 * g)) cls s
      let s := if n = 64 then s else touchGranule g s
      { s with hbr := writeGranule s.hbr g mask (fit p.2 64) poison }) s

/-- Bytes cleared by region clears, counted in whole MiB (R164, R196). -/
def noteCleared (len : Nat) (s : State) : State :=
  let n := s.hbr.cleared + len
  bumpBy (ob 0x4002 1) (n / 2 ^ 20 - s.hbr.cleared / 2 ^ 20) { s with hbr := { s.hbr with cleared := n } }

end Sys2Proof.Machine
end

