-- ==== Sys2Proof/Machine/Banks.lean ====
section
/-! DEFINITION. Banks (R36 to R79): the cells of a row in logical order, reference rows, remaps, row buffers, states,
maintenance classes. Choices of the model: notes/assumptions/22.md (DESIGN CHOICE). -/

namespace Sys2Proof.Machine

/-- The code of a bank state (R73). -/
def bankCode (st : BankState) : Nat :=
  match st with
  | .erased => 0 | .programming => 1 | .ready => 2 | .storage => 3 | .erasing => 4 | .eraseSuspended => 5 | .worn => 6
  | .retired => 7

/-- The bank number exists on this part (R1, R43). -/
def bankExists (s : State) (b : Nat) : Bool := b < nBanks s

/-! ## Cells (R39 to R41, R63, R64) -/

/-- The physical column of a logical column before any remap (R41). -/
def physCol (c : Nat) : Nat :=
  if c < 1024 then 35 * (c / 32) + c % 32 else 35 * ((c - 1024) / 3) + 32 + (c - 1024) % 3

/-- The spare that holds a logical column, if one does (R64). -/
def spareOf (b : Bank) (c : Nat) : Option Nat :=
  (b.remap.find? fun e => e.2.valid && e.2.lcol.toNat = c).map Prod.fst

/-- The physical column that a logical column is read from (R64). -/
def mappedCol (b : Bank) (c : Nat) : Nat :=
  match spareOf b c with
  | some s => 1120 + s
  | none => physCol c

/-- Cells in logical order from cells in physical order, `k` bits per cell (R41). -/
def gather (k phys : Nat) : Nat :=
  ((List.range 32).map fun g =>
    (phys >>> (k * (35 * g))) % 2 ^ (k * 32) * 2 ^ (k * (32 * g)) +
      (phys >>> (k * (35 * g + 32))) % 2 ^ (k * 3) * 2 ^ (k * (1024 + 3 * g))).sum

/-- Replace a field of `k` bits at cell `i`. -/
def setCell (k i v row : Nat) : Nat :=
  let cell := (row >>> (k * i)) % 2 ^ k
  row - cell * 2 ^ (k * i) + v % 2 ^ k * 2 ^ (k * i)

def getCell (k i row : Nat) : Nat := (row >>> (k * i)) % 2 ^ k

/-- The logical cells of a physical row, spares in place (R64), before any polarity. -/
def logicalCells (b : Bank) (k phys : Nat) : Nat :=
  b.remap.foldl (fun row e => if e.2.valid then setCell k e.2.lcol.toNat (getCell k (1120 + e.1) phys) row else row)
    (gather k phys)

/-- A physical row that holds the logical cells `row`; other cells keep what `old` holds. -/
def physicalCells (b : Bank) (k old row : Nat) : Nat :=
  let base := ((List.range 32).map fun g =>
    (row >>> (k * (32 * g))) % 2 ^ (k * 32) * 2 ^ (k * (35 * g)) +
      (row >>> (k * (1024 + 3 * g))) % 2 ^ (k * 3) * 2 ^ (k * (35 * g + 32))).sum +
    (old >>> (k * 1120)) * 2 ^ (k * 1120)
  b.remap.foldl (fun p e =>
    if e.2.valid then
      let c := e.2.lcol.toNat
      setCell k (1120 + e.1) (getCell k c row) (setCell k (physCol c) (getCell k (physCol c) old) p)
    else p) base

/-- All cells of a row erased. -/
def erasedRow (k : Nat) : Nat := 2 ^ (k * 1152) - 1

/-- The physical bits of a compute-mode row; rows 1,024 to 1,031 are the reference rows. -/
def physRow (b : Bank) (r : Nat) : Nat := ((tget? b.cells r).map BitVec.toNat).getD (erasedRow 1)

/-- The Gray codes of a storage-mode row. -/
def physLevels (b : Bank) (r : Nat) : Nat := ((tget? b.levels r).map BitVec.toNat).getD (erasedRow 3)

/-- The 1,120 logical bits of a compute-mode row (R37, R64). -/
def logicalRow (b : Bank) (r : Nat) : Nat :=
  let bits := logicalCells b 1 (physRow b r)
  if b.polarity then (2 ^ 1120 - 1) - bits else bits

/-- The 3,360 logical bits of a storage-mode row (R67, R277). -/
def storageRow (b : Bank) (r : Nat) : Nat := logicalCells b 3 (physLevels b r)

/-- The logical vector of a row in the bank's mode (R277). -/
def rowVector (b : Bank) (r : Nat) : Nat := if b.storageMode then storageRow b r else logicalRow b r

/-- The physical bits that a logical compute row takes (R37, R275). -/
def physOfLogical (b : Bank) (old row : Nat) : Nat :=
  physicalCells b 1 old (if b.polarity then (2 ^ 1120 - 1) - row % 2 ^ 1120 else row % 2 ^ 1120)

def setPhysRow (r phys : Nat) (b : Bank) : Bank :=
  { b with cells := if phys = erasedRow 1 then tdel b.cells r else tset b.cells r (BitVec.ofNat 1152 phys) }

def setLevels (r phys : Nat) (b : Bank) : Bank :=
  { b with levels := if phys = erasedRow 3 then tdel b.levels r else tset b.levels r (BitVec.ofNat 3456 phys) }

/-- The level of a Gray code (R39). -/
def grayLevel (code : Nat) : Nat :=
  match code with
  | 7 => 0 | 6 => 1 | 4 => 2 | 5 => 3 | 1 => 4 | 0 => 5 | 2 => 6 | _ => 7

/-- The Gray code of a level (R39). -/
def grayCode (level : Nat) : Nat := (List.range 8).find? (fun c => grayLevel c = level) |>.getD 0

/-- Some bit rises from `old` to `new` (R276). -/
def rises (old new : Nat) : Bool := new &&& old ≠ new

/-- Some cell's level falls from `old` to `new` (R276). -/
def levelFalls (cells old new : Nat) : Bool :=
  (List.range cells).any fun i => grayLevel (getCell 3 i new) < grayLevel (getCell 3 i old)

/-! ## Counts (R44) -/

/-- The counts of the logical columns 0 to `cols` − 1 over driven rows (R44). -/
def columnCounts (b : Bank) (rows : List Nat) (cols : Nat) : List Nat :=
  let bits := rows.map (logicalRow b)
  (List.range cols).map fun c => (bits.filter fun row => bitAt row c).length

/-- The displacement of a column's edge. -/
def edgeShift (d : Disturb) (c : Nat) : Int := ((d.edges.find? fun e => e.1 = c).map Prod.snd).getD 0

/-! ## Reference rows (R57, R60) -/

/-- The 32-bit pattern of a reference row's check group (R57). -/
def refPattern (r : Nat) : Nat :=
  match r with
  | 0 => 0xFFFFFFFF | 1 => 0x1F | 2 => 0x7 | 3 => 0xAAAAAAAA | 4 => 0xCCCCCCCC | 5 => 0xF0F0F0F0 | 6 => 0xFF00FF00
  | _ => 0xFFFF0000

/-- A logical row with its check bits (R60), from its 1,024 data bits. -/
def withChecks (data : Nat) : Nat :=
  data % 2 ^ 1024 +
    ((List.range 32).map fun g => residueBits ((data >>> (32 * g)) % 2 ^ 32) * 2 ^ (1024 + 3 * g)).sum

/-- The logical bits of reference row `r` (R57). -/
def refRow (r : Nat) : Nat := withChecks ((List.range 32).map fun g => refPattern r * 2 ^ (32 * g)).sum

/-- Program the reference rows (R279). -/
def withRefRows (b : Bank) : Bank :=
  (List.range 8).foldl (fun b r => setPhysRow (1024 + r) (physOfLogical b (erasedRow 1) (refRow r)) b) b

/-! ## Row buffers (R275) -/

/-- The logical vector that a row buffer holds, by mode. -/
def vectorOfBuffer (storage : Bool) (buf : Bytes) : Nat :=
  if storage then fld buf 0 384 + fld buf 0x180 36 * 2 ^ 3072 else fld buf 0 128 + fld buf 0x180 12 * 2 ^ 1024

/-- The data bytes and the check bytes of a row buffer, by mode (R275, R286). -/
def bufferParts (storage : Bool) (vec : Nat) : Bytes × Bytes :=
  if storage then (leBytes 384 vec, leBytes 36 (vec >>> 3072)) else (leBytes 128 vec, leBytes 12 (vec >>> 1024))

/-! ## Spares, states and classes -/

/-- A spare has neither VALID nor FAILED (R64). -/
def spareFree (b : Bank) (n : Nat) : Bool :=
  match tget? b.remap n with
  | some e => !e.valid && !e.failed
  | none => true

/-- SPARES_FREE (R79). -/
def sparesFree (b : Bank) : Nat := ((List.range 32).filter (spareFree b)).length

/-- Mark the spare that holds a column, if one does, FAILED with VALID cleared (R64). -/
def failSpare (c : Nat) (b : Bank) : Bank :=
  match spareOf b c with
  | some s => { b with remap := tset b.remap s { valid := false, failed := true, lcol := BitVec.ofNat 11 c } }
  | none => b

/-- Map a failing logical column to a free spare (R64, R308), with whether one was free; the spare that held the column
before is marked FAILED in either case. DESIGN CHOICE (notes/assumptions/22.md): the spec does not say which free spare a
column takes nor what LCOL a FAILED entry keeps: the model takes the lowest-numbered and keeps the column that it held. -/
def remapColumn (c : Nat) (b : Bank) : Bank × Bool :=
  let b := failSpare c b
  match (List.range 32).find? (spareFree b) with
  | none => (b, false)
  | some s => ({ b with remap := tset b.remap s { valid := true, failed := false, lcol := BitVec.ofNat 11 c } }, true)

/-- Map failing columns in turn, with whether each found a spare. -/
def remapColumns (cols : List Nat) (b : Bank) : Bank × Bool :=
  cols.foldl (fun p c => let q := remapColumn c p.1; (q.1, p.2 && q.2)) (b, true)

/-- The 16-bit remap entry of a spare (R63). -/
def remapWord (b : Bank) (n : Nat) : Nat :=
  match tget? b.remap n with
  | some e => 2 ^ 15 * b2n e.valid + 2 ^ 14 * b2n e.failed + e.lcol.toNat
  | none => 0

/-- The wear units that an erase adds (R78). -/
def wearOf (b : Bank) (fromErased : Bool) : Nat :=
  if (if fromErased then b.storageMode else b.lastStorage) then 10 else 3

/-- The generations of a slot that have banks (R245, R249, R252): image, plan and places of the current one, of the one that drains and
of one that is staged in shadow. -/
def generations (sl : Slot) : List (Digest × LastPlan × List Placed) :=
  (sl.plan.map fun p => (sl.imageHash, p, sl.places)).toList ++ (sl.oldPlan.map fun p => (sl.oldImage, p, sl.oldPlaces)).toList ++
    ((sl.swap.filter fun w => w.mode == .shadow && !w.switched).map fun w => (w.imageHash, w.plan, w.places)).toList

/-- The slices that lie on a bank, each with the image that its weights come from (R206). -/
def slicesOn (s : State) (b : Nat) : List (Digest × SliceRec) :=
  s.model.slots.flatMap fun e => (generations e.2).flatMap fun (h, pl, places) =>
    (places.filter fun p => p.bank = b).flatMap fun p => (pl.slices.filter fun r => r.slice = p.slice).map fun r => (h, r)

/-- A slice is marked TOLERANT (R200). -/
def sliceTolerant (r : SliceRec) : Bool := r.flags.getLsbD 0

/-- A slice carries block scales (R200). -/
def sliceScaled (r : SliceRec) : Bool := r.flags.getLsbD 1

/-- A bank of the configuration store or of the firmware slot (R426, R501): never placed, bound or covered. -/
def systemBank (n : Nat) : Bool := decide (65456 ≤ n ∧ n < 65536) || decide (131056 ≤ n ∧ n < 131072)

/-- Maintenance class (R293): 0 EXACT, 1 TOLERANT, 2 STORAGE, 3 unplaced. The banks of the store and of the firmware slot are topped up
as STORAGE banks (R426, R501). -/
def bankClass (s : State) (n : Nat) : Nat :=
  let b := bankOf s n
  if systemBank n then 2
  else if b.owners = [] && !s.model.pool.contains n then 3
  else if b.storageMode then 2
  else if !strictOn s && (slicesOn s n).all fun e => sliceTolerant e.2 then 1
  else 0

/-- A bank takes part in maintenance (R293). -/
def bankPlaced (s : State) (n : Nat) : Bool := bankClass s n ≠ 3

/-- Some exact-class work needs the bank's floor (R56, R293). -/
def floorApplies (s : State) (n : Nat) : Bool := bankClass s n = 0

/-- BELOW_FLOOR (R56, R79): exact-class work, and the last margin index below the exact floor. -/
def belowFloor (s : State) (n : Nat) : Bool := floorApplies s n && decide ((bankOf s n).margin < 520)

/-- The bank record (R79). -/
def bankRecord (s : State) (n : Nat) : Bytes :=
  let b := bankOf s n
  leBytes 4 n ++ leBytes 1 (bankCode b.state) ++
    leBytes 1 (b2n b.storageMode + 2 * b2n b.polarity + 4 * b2n b.suspect + 8 * b2n (belowFloor s n)) ++
    leBytes 1 (sparesFree b) ++ leBytes 1 0 ++ leBytes 4 b.wear ++ leBytes 2 b.margin ++ leBytes 2 0 ++
    leBytes 4 b.marginPcycle.toNat ++ leBytes 4 0 ++ leBytes 8 b.marginTide.toNat ++
    (List.range 32).flatMap fun i => leBytes 2 (remapWord b i)

/-- Set a bank's state and tell nobody. -/
def setBankState (n : Nat) (st : BankState) (s : State) : State := modBank n (fun b => { b with state := st }) s

/-- A bank becomes WORN (R66, R76, R315). -/
def markWorn (n : Nat) (s : State) : State :=
  raise .bankWorn 1 n (modSched n (fun d => { d with symWorn := true }) (setBankState n .worn s))

/-- A bank becomes RETIRED (R66, R76). -/
def markRetired (n : Nat) (s : State) : State :=
  raise .throughputFall 1 n (raise .bankRetired 1 n (setBankState n .retired s))

/-- Follow a bank across the exact floor (R56): an event when it falls below and one when it is at the floor again, which
adds the time spent below to the bank's count. -/
def noteFloor (n : Nat) (s : State) : State :=
  match (schedOf s n).belowSince with
  | none =>
    if belowFloor s n then raise .belowFloor 1 n (modSched n (fun d => { d with belowSince := some (tideOf s) }) s) else s
  | some t =>
    if belowFloor s n then s
    else raise .belowFloor 1 n (modSched n (fun d =>
      { d with belowSince := none, belowFor := d.belowFor + (tideOf s - t).toNat }) s)

/-- Record a margin index measured now (R55, R56, R299): MARGIN and its stamps, and the bank's place against the exact
floor. -/
def setMargin (n m : Nat) (s : State) : State :=
  let s := modBank n (fun b =>
    { b with margin := m, marginPcycle := BitVec.ofNat 32 (pcycleOf s), marginTide := tideOf s }) s
  sample (ob 0x9012 0) (bankIsland n) m (noteFloor n s)

/-! ## Storage lines (R67, R68) -/

/-- The data bytes of the storage rows from `r` for `k` rows. -/
def storageBytes (b : Bank) (r k : Nat) : Bytes :=
  (List.range k).flatMap fun i => leBytes 384 (storageRow b (r + i))

/-- The row that holds the CRC of line n (R68). -/
def lineRow (n : Nat) : Nat := (512 * n + 511) / 384

/-- The bytes of line n (R67). -/
def lineBytes (b : Bank) (n : Nat) : Bytes :=
  let r := 512 * n / 384
  sub (storageBytes b r (lineRow n + 1 - r)) (512 * n - 384 * r) 512

/-- The CRC-32C stored for line n (R68). -/
def lineCrc (b : Bank) (n : Nat) : Nat := (storageRow b (lineRow n) >>> 3072) % 2 ^ 32

/-- The check cells of a storage row whose line has CRC `c` (R68): cells 0 to 10, bit 2 of cell 10 at 1; other check
cells erased. -/
def storageChecks (c : Option Nat) : Nat :=
  let all := 2 ^ 288 - 1
  match c with
  | some v => all - (2 ^ 32 - 1) + v % 2 ^ 32
  | none => all

end Sys2Proof.Machine
end

