-- ==== Sys2Proof/Machine/Group.lean ====
section
/-! DEFINITION. The device group as a member sees it (R380, R389 to R400): gangs, leader, manifests and the reference,
what a group holds back, and the state shown for a link. Choices of the model: notes/assumptions/19.md (DEDUCED). -/

namespace Sys2Proof.Machine

/-- Kinds of the link messages that CONTROL FLITs carry (R384), as `OutMsg.straitControl` numbers them. -/
def ctlManifest : Nat := 0
def ctlSync : Nat := 1
def ctlReport : Nat := 2
def ctlLaunch : Nat := 3
def ctlAbort : Nat := 4
def ctlCredit : Nat := 5
def ctlGrant : Nat := 6
def ctlPush : Nat := 7
def ctlAccepted : Nat := 8
def ctlCut : Nat := 9

def modStrait (f : Strait → Strait) (s : State) : State := { s with strait := f s.strait }

/-- This module's MOD_ID. -/
def selfId (s : State) : Nat := s.regs.modId.toNat

/-- The members of the group in force, by MOD_ID (R390); none where the module is refused. -/
def membersOf (s : State) : List Nat :=
  if s.strait.refused then [] else (List.range 8).filter fun m => s.strait.members.getLsbD m

/-- The group size n (R390). -/
def groupSize (s : State) : Nat := (membersOf s).length

/-- The other members. -/
def peersOf (s : State) : List Nat := (membersOf s).filter fun m => m ≠ selfId s

/-- The rank of a member (R390). -/
def rankOf (s : State) (m : Nat) : Nat := ((membersOf s).filter fun k => decide (k < m)).length

/-- The MOD_ID of a rank (R199, R390). -/
def modOfRank (s : State) (r : Nat) : Nat := (membersOf s).getD r 0

/-- The record of a half-link 2n or 2n + 1 (R380): that of link n, or n + 7 for its second half. -/
def linkKey (half : Nat) : Nat := half / 2 + 7 * (half % 2)

/-- The Sound port of a link record (R171). -/
def linkPort (k : Nat) : BitVec 12 := BitVec.ofNat 12 (2339 + k % 7)

/-- A link or half-link is trained and joins this module to member m (R381). -/
def linkReaches (l : Link) (m : Nat) : Bool := l.state == .exchange && l.peerA.toNat = m

/-- The links and half-links of the gang to member m (R381). -/
def gangLinks (s : State) (m : Nat) : List Nat :=
  (List.range 14).filter fun n => linkReaches (linkOf s n) m

/-- The link of a gang that carries the packets of a sending Sound port (R386). -/
def gangLink (s : State) (m src : Nat) : Option Nat :=
  let ks := gangLinks s m
  ks[src % max 1 ks.length]?

/-- The state of the gang to member m (R389). -/
def gangState (s : State) (m : Nat) : LinkState :=
  if gangLinks s m = [] then .down else tget s.strait.gangs m .exchange

def setGang (m : Nat) (st : LinkState) (s : State) : State :=
  modStrait (fun g => { g with gangs := tset g.gangs m st }) s

/-- The state that STR_LINK shows (R389, R465): a trained link shows its gang's, of PEER_A (notes/assumptions/21.md). -/
def linkShown (s : State) (n : Nat) : LinkState :=
  let l := linkOf s n
  if l.state == .exchange then gangState s l.peerA.toNat else l.state

def linkCode (st : LinkState) : Nat :=
  match st with
  | .disabled => 0 | .down => 1 | .training => 2 | .exchange => 3 | .active => 4 | .quarantine => 5 | .failed => 6

/-! ## FLITs (R383, R385) -/

/-- A 256-byte FLIT (R383): type, SEQ, ACK, NAK, POISON bits, at most 30 payload words. -/
def flitBytes (type seq ack : Nat) (nak : Bool) (poison : Nat) (words : List Nat) : Bytes :=
  let head := type + seq % 4096 * 2 ^ 4 + ack % 4096 * 2 ^ 16 + b2n nak * 2 ^ 28 + poison % 2 ^ 30 * 2 ^ 29
  let b := fit (leBytes 8 head ++ words.flatMap (leBytes 8)) 248
  let c := b ++ leBytes 4 (crc32c b).toNat
  c ++ fit (Config.fecBytes c) 4

/-- FLITs that the replay buffer holds (R385). -/
def replayDepth : Nat := 2048

/-- Give a FLIT its SEQ, keep it in the replay buffer and send it, unless the buffer is full or the link retrains (R385,
R388). -/
def transmit (k type poison : Nat) (words : List Nat) (s : State) : State :=
  let l := linkOf s k
  let seq := l.txSeq + 1
  let f := flitBytes type seq.toNat l.rxSeq.toNat false poison words
  let s := modLink k (fun l => { l with txSeq := seq, replay := l.replay ++ [(seq, f)] }) s
  if l.retraining || replayDepth ≤ l.replay.length then s else send (.straitFlit k seq f) s

/-- The link of the sending port carries a link message to member m in CONTROL FLITs (R384). -/
def sendCtlBy (src m kind : Nat) (ws : List Nat) (s : State) : State :=
  match gangLink s m src with
  | none => s
  | some k =>
    let words := Config.controlWords kind ws
    (chunksOf 30 (words.length + 1) words).foldl (fun s c => transmit k 2 0 c s) (send (.straitControl m kind ws) s)

/-- A link message of the core complex to member m. -/
def sendCtl (m kind : Nat) (ws : List Nat) (s : State) : State := sendCtlBy 2336 m kind ws s

/-- The gang to member m carries traffic as R398 needs. -/
def gangUp (s : State) (m : Nat) : Bool := gangState s m == .exchange || gangState s m == .active

/-- The leader of the group (R398): this module counts once one of its gangs is in EXCHANGE or ACTIVE. -/
def leaderOf (s : State) : Option Nat :=
  let up := (peersOf s).filter (gangUp s)
  if up = [] then none
  else ((membersOf s).filter fun m => up.contains m || (m = selfId s && !s.strait.left)).head?

def isLeader (s : State) : Bool := leaderOf s == some (selfId s)

/-- Every gang of this module among the members is ACTIVE (R396). -/
def reconciled (s : State) : Bool :=
  membersOf s ≠ [] && !s.strait.left && (peersOf s).all fun m => gangState s m == .active

/-- `grp.state` (R413): 0 NONE, 1 FORMING, 2 RECONCILED, 3 QUARANTINE. -/
def groupStateCode (s : State) : Nat :=
  if membersOf s = [] then 0
  else if (peersOf s).any fun m => gangState s m == .quarantine then 3
  else if reconciled s then 2 else 1

/-- The group configuration CRC (R393). -/
def groupCrc (s : State) : BitVec 32 :=
  crc32c (((List.range 13).flatMap fun i => dictActive s (ob 0xB010 (i + 1)) 0) ++
    ((List.range 8).flatMap fun i => dictActive s (ob 0xB030 (i + 1)) 0))

/-- A group Last is in BOUND in this slot (R391). -/
def groupBound (sl : Slot) : Bool := sl.state == .bound && 1 < sl.modules

/-- The LAST entry of a manifest for a slot (R392). -/
def listEntry (sl : Slot) : Bytes :=
  fit sl.lastHash 48 ++ leBytes 2 sl.gen.toNat ++ leBytes 1 sl.modules ++ List.replicate 13 0

/-- The entries of the group Lasts that are BOUND now, by slot. -/
def listedNow (s : State) : Tab Bytes :=
  (s.model.slots.filter fun e => groupBound e.2).map fun e => (e.1, listEntry e.2)

/-- A LAST entry before another in ascending LAST_HASH order (R392). -/
def bytesLt : Bytes → Bytes → Bool
  | [], [] => false
  | [], _ => true
  | _, [] => false
  | a :: s, b :: t => if a.toNat < b.toNat then true else if b.toNat < a.toNat then false else bytesLt s t

def insertEntry (e : Bytes) : List Bytes → List Bytes
  | [] => [e]
  | k :: t => if bytesLt e k then e :: k :: t else k :: insertEntry e t

def sortEntries (l : List Bytes) : List Bytes := l.foldr insertEntry []

/-- This module's manifest (R392). -/
def ownManifest (s : State) : Bytes :=
  let es := sortEntries (s.strait.listed.map Prod.snd)
  leBytes 4 0x4D475856 ++ leBytes 2 1 ++ leBytes 1 (selfId s) ++ leBytes 1 s.strait.members.toNat ++
    leBytes 1 (leNat (dictActive s (ob 0x1010 1) 0)) ++ leBytes 1 es.length ++ leBytes 2 0 ++
    leBytes 4 s.time.epoch.toNat ++ leBytes 4 (groupCrc s).toNat ++ List.replicate 12 0 ++
    fit s.sec.measure2 48 ++ es.flatten

/-- The manifest of a member as this module holds it. -/
def manifestOf (s : State) (m : Nat) : Bytes :=
  if m = selfId s then ownManifest s else tget s.strait.manifests m []

/-- A manifest without the field that is not compared, MOD_ID (R394). -/
def comparedPart (b : Bytes) : Bytes := b.take 6 ++ b.drop 7

/-- The reference manifest among the members' (R394). -/
def referenceManifest (s : State) : Bytes :=
  let ms := (membersOf s).map fun m => comparedPart (manifestOf s m)
  let count := fun b => (ms.filter fun c => c = b).length
  ms.foldl (fun best b => if count best < count b then b else best) (ms.headD [])

/-- The mask of the compared fields that differ from the reference (R394): bit k is field k of R392's table, MOD_ID left
out. -/
def fieldMask (b ref : Bytes) : Nat :=
  let fields : List (Nat × Nat) := [(0, 4), (4, 2), (6, 1), (7, 1), (8, 1), (11, 4), (15, 4), (0x1F, 48), (0x4F, 4096)]
  ((List.range fields.length).map fun i =>
    let f := fields.getD i (0, 0)
    if sub b f.1 f.2 = sub ref f.1 f.2 then 0 else 2 ^ i).sum

/-- Every member's manifest has come in the present exchange. -/
def allCollected (s : State) : Bool := (peersOf s).all fun m => s.strait.collected.contains m

/-- Set the gangs by the reference manifest (R394), count quarantines and name the members that differ.
DESIGN CHOICE (notes/assumptions/19.md): the DISAGREE event's UNIT is the member + 256 × the mask of `fieldMask`, whose bit order is
the model's; R394 gives neither layout. -/
def judgeManifests (s : State) : State :=
  let ref := referenceManifest s
  let agrees := fun m => comparedPart (manifestOf s m) = ref
  let s := (peersOf s).foldl (fun s m =>
    if gangLinks s m = [] then s
    else if agrees m && agrees (selfId s) && !s.strait.left then cause 7 (setGang m .active s)
    else if gangState s m == .quarantine then s
    else bump (ob 0x6209 1) (cause 7 (setGang m .quarantine s))) s
  let s := (membersOf s).foldl (fun s m =>
    if agrees m then s else raise .disagree 8 (m + 256 * fieldMask (comparedPart (manifestOf s m)) ref) s) s
  let since := if reconciled s then none else some (s.strait.disagreeSince.getD (tideOf s))
  modStrait (fun g => { g with disagreeSince := since }) s

/-- Send this module's manifest over each gang (R392). -/
def sendManifest (s : State) : State :=
  (peersOf s).foldl (fun s m =>
    if gangLinks s m = [] then s
    else sendCtl m ctlManifest ((ownManifest s).map BitVec.toNat) s) s

/-- Start a manifest exchange (R394). -/
def startExchange (s : State) : State :=
  if membersOf s = [] then s else sendManifest (modStrait (fun g => { g with collected := [] }) s)

/-- Launches agreed before the disagreement began still run (R396). -/
def oldTraffic (s : State) : Bool :=
  s.model.launches.any fun l => match l.2.agreed, s.strait.disagreeSince with
    | some t, some d => decide (t.toNat ≤ d.toNat)
    | _, _ => false

/-- Data may cross the gang to member m (R389, R396, R405). -/
def mayCarry (s : State) (m : Nat) : Bool :=
  gangState s m == .active || (gangState s m == .quarantine && oldTraffic s)

/-- A group commit lies ahead (R395): changes are held for it. -/
def groupHolds (s : State) : Bool :=
  membersOf s ≠ [] && decide ((tideOf s).toNat < leNat (dictActive s (ob 0x6204 1) 0))

/-- The entry or exit of a group Last in BOUND has happened (R395): at once, or held for the group commit. -/
def groupListChange (s : State) : State :=
  if membersOf s = [] then s
  else if groupHolds s then modDict (fun d => { d with groupPending := true }) s
  else startExchange (modStrait (fun g => { g with listed := listedNow s }) s)

end Sys2Proof.Machine
end

