-- ==== Sys2Proof/Machine/Serve.lean ====
section
/-! DEFINITION. The Harbour's answers (R158 to R173): flits and DATA packets, accesses of ports, accesses that wait and the order
in which they are served. Choices of the model: notes/assumptions/14.md (DEDUCED). -/

namespace Sys2Proof.Machine

/-! ## Flits and DATA packets (R172, R173, R320, R322) -/

/-- A flit with its check bits (R172, R320). -/
def mkFlit (d : BitVec 64) : Flit := { data := d, check := eccCheck d }

/-- A flit whose data is poisoned (R175, R322). -/
def poisonFlit (f : Flit) : Flit := { f with check := eccCheck f.data ^^^ 0xFF }

/-- The DATA packets of a copy to another module (R173): at most 32 payload flits each. -/
def dataPackets (dm dport sport h : Nat) (b : Bytes) (poison : Bool) : List (List Flit) :=
  ((List.range (ceilDiv b.length 256)).zip (chunksOf 256 b.length b)).map fun p =>
    let words := chunksOf 8 p.2.length p.2
    let a := h + 256 * p.1
    let header := 2 * 2 ^ 60 + dm * 2 ^ 57 + dport * 2 ^ 45 + sport * 2 ^ 33 + (words.length - 1) * 2 ^ 28 +
      b2n poison * 2 ^ 27 + a / 8 % 8 * 2 ^ 24 + a / 64 % 2 ^ 24
    mkFlit (BitVec.ofNat 64 header) :: words.map fun w => mkFlit (BitVec.ofNat 64 (leNat w))

/-! ## Serving accesses (R158, R162 to R166, R476) -/

/-- The flits of a run of words, with their marks. -/
def readFlits (h : Harbour) (a n : Nat) : List Flit :=
  (List.range n).map fun k =>
    let f := mkFlit (BitVec.ofNat 64 (leNat (hRead h (a + 8 * k) 8)))
    if wordBad h ((a + 8 * k) / 8) then poisonFlit f else f

/-- The module that asks by a port (R173): the peer of a Strait link, or this module. -/
def askerOf (s : State) (port : BitVec 12) : Nat :=
  let p := port.toNat
  if 2339 ≤ p && p ≤ 2345 then (linkOf s (p - 2339)).peerA.toNat else selfId s

/-- The header flit of the DATA packet that answers a READ_REQ of `n` flits from address `a` (R173). -/
def dataHeader (s : State) (port : BitVec 12) (a n : Nat) (poison : Bool) : Flit :=
  mkFlit (BitVec.ofNat 64 (2 * 2 ^ 60 + askerOf s port * 2 ^ 57 + port.toNat * 2 ^ 45 + (2320 + addrSeg a) * 2 ^ 33 + (n - 1) * 2 ^ 28 +
    b2n poison * 2 ^ 27 + a / 8 % 8 * 2 ^ 24 + a / 64 % 2 ^ 24))

/-- Answer a READ_REQ of `n` flits from the word at `a` with one DATA packet (R158, R162, R165, R173). A FAILED segment
answers poisoned (R476). -/
def serveRead (port : BitVec 12) (a n : Nat) (s : State) : State :=
  let a := a / 8 * 8
  if domState s (domSeg (addrSeg a)) == .failed then
    send (.soundData port (dataHeader s port a n true :: (List.range n).map fun _ => poisonFlit (mkFlit 0)) true) s
  else
    let bad := hPoison s.hbr a (8 * n)
    send (.soundData port (dataHeader s port a n bad :: readFlits s.hbr a n) bad) (touchRun (classPort s port a) a (8 * n) s)

/-- Write a whole granule (R158, R162, R322). -/
def serveWrite (port : BitVec 12) (a : Nat) (d : Bytes) (poison : BitVec 8) (s : State) : State :=
  if domState s (domSeg (addrSeg a)) == .failed then s
  else
    let s := useSlot (addrBank a) (accessClass (classPort s port a) true) s
    { s with hbr := writeGranule s.hbr (a / 64) (List.replicate 64 true) (fit d 64) poison }

/-- Write part of a granule (R163): the bytes from `a` up to the granule's end. -/
def servePartial (port : BitVec 12) (a : Nat) (d : Bytes) (poison : BitVec 8) (s : State) : State :=
  if domState s (domSeg (addrSeg a)) == .failed then s
  else
    let o := a % 64
    let d := d.take (64 - o)
    let mask := (List.range 64).map fun i => decide (o ≤ i) && decide (i < o + d.length)
    let bytes := (List.range 64).map fun i => if o ≤ i then d.getD (i - o) 0 else 0
    let s := useSlot (addrBank a) (accessClass (classPort s port a) true) s
    let s := touchGranule (a / 64) s
    { s with hbr := writeGranule s.hbr (a / 64) mask bytes poison }

/-- An access of a port to a HOST segment (R162, R163, R167, R350). -/
def servePort (i : Initiator) (port : BitVec 12) (a len : Nat) (data : Option Bytes) (s : State) : State :=
  match data with
  | none =>
    let out := OutMsg.portData i (harbRead s a len) (hPoison s.hbr a len)
    send out (touchRun port a len s)
  | some d => storeRun port a (fit d len) false s

/-- The port of an initiator's memory accesses. -/
def initPort (i : Initiator) : BitVec 12 := match i with | .core _ => 2336 | .portU => 2337 | .portD => 2338

/-- Serve an access that waits for nothing. -/
def serve (x : Access) (s : State) : State :=
  match x.kind with
  | .read n => serveRead x.port x.h.toNat n s
  | .write d p => serveWrite x.port x.h.toNat d p s
  | .partialWrite d p => servePartial x.port x.h.toNat d p s
  | .bar i len d => servePort i x.port x.h.toNat len d s
  | .engine len d => servePort .portD x.port x.h.toNat len d s

/-- The bytes that an access takes. -/
def accessRun (x : Access) : Nat × Nat :=
  let a := x.h.toNat
  match x.kind with
  | .read n => (a / 8 * 8, 8 * n)
  | .write _ _ => (a / 64 * 64, 64)
  | .partialWrite d _ => (a, min (max 1 d.length) (64 - a % 64))
  | .bar _ len _ => (a, len)
  | .engine len _ => (a, len)

/-- The class of an access (R168). -/
def kindClass (s : State) (x : Access) : Nat :=
  let port := classPort s x.port (accessRun x).1
  match x.kind with
  | .read _ => accessClass port false
  | .write _ _ => accessClass port true
  | .partialWrite _ _ => accessClass port true
  | .bar _ _ d => accessClass port d.isSome
  | .engine _ d => accessClass port d.isSome

/-- Two accesses meet in a granule. -/
def accessMeets (x y : Access) : Bool :=
  let a := accessRun x
  let b := accessRun y
  (granulesOf a.1 a.2).any fun g => (granulesOf b.1 b.2).contains g

/-- Two READ_REQs of one requester at one segment port (R174). -/
def sameReader (x y : Access) : Bool :=
  match x.kind, y.kind with
  | .read _, .read _ => x.port = y.port && addrSeg x.h.toNat = addrSeg y.h.toNat
  | _, _ => false

/-- An access that waits, or that an older waiting access holds back: of one of its granules (R158), or a read whose answer must
leave before its own (R174). -/
def accessHeld (s : State) (older : List Access) (x : Access) : Bool :=
  let r := accessRun x
  runWaits s r.1 r.2 || older.any fun y => accessMeets x y || sameReader x y

/-- Serve an access, or hold it until its clear or its wake has ended (R164, R166). -/
def access (x : Access) (s : State) : State :=
  let r := accessRun x
  if accessHeld s s.hbr.waiting x then runWake r.1 r.2 { s with hbr := { s.hbr with waiting := s.hbr.waiting ++ [x] } }
  else serve x s

/-- The held accesses that wait for nothing any more, each with those before it. -/
def freeAccesses (s : State) : List Access → List Access → List Access
  | _, [] => []
  | older, x :: t => (if accessHeld s older x then [] else [x]) ++ freeAccesses s (older ++ [x]) t

/-- The access that is served next (R169): at the bank of the oldest one, the class that the bank's window gives, oldest
first. -/
def nextAccess (s : State) (l : List Access) : Option Access :=
  match l with
  | [] => none
  | x :: _ =>
    let bank := fun (y : Access) => addrBank (accessRun y).1
    let mine := l.filter fun y => bank y = bank x
    match nextClass s (bank x) fun c => mine.any fun y => kindClass s y = c with
    | some c => mine.find? fun y => kindClass s y = c
    | none => some x

/-- Serve held accesses that wait for nothing any more, one by one. -/
def serveNext : Nat → State → State
  | 0, s => s
  | fuel + 1, s =>
    match nextAccess s (freeAccesses s [] s.hbr.waiting) with
    | none => s
    | some x => serveNext fuel (serve x { s with hbr := { s.hbr with waiting := s.hbr.waiting.erase x } })

/-- Serve every held access that waits for nothing any more (R158, R164, R166, R169). -/
def serveWaiting (s : State) : State := serveNext s.hbr.waiting.length s

end Sys2Proof.Machine
end

