-- ==== Sys2Proof/Machine/Queue.lean ====
section
/-! DEFINITION. The queue engine (R353 to R358, R363 to R368): completion entries, the key log, admission, doorbells,
enabling and disabling of queue pairs. Choices of the model: notes/assumptions/9.md (DEDUCED). -/

namespace Sys2Proof.Machine

/-! ## Completion statuses (R368) -/

namespace St

def success : Nat := 0x00
def duplicateReplayed : Nat := 0x01
def deadlineMissed : Nat := 0x02
def cancelled : Nat := 0x03
def staleKey : Nat := 0x08
def replayLost : Nat := 0x09
def invalidCommand : Nat := 0x0A
def notPermitted : Nat := 0x0B
def outOfRange : Nat := 0x0C
def hostAccess : Nat := 0x0D
def notBound : Nat := 0x10
def strictMismatch : Nat := 0x11
def contextInvalid : Nat := 0x12
def contextMismatch : Nat := 0x13
def contextImageInvalid : Nat := 0x14
def bufferTooSmall : Nat := 0x15
def kvFull : Nat := 0x16
def capacity : Nat := 0x17
def invalidLast : Nat := 0x20
def signatureInvalid : Nat := 0x21
def unsupported : Nat := 0x22
def imageMismatch : Nat := 0x23
def resourceLimit : Nat := 0x24
def spillRefused : Nat := 0x25
def lastState : Nat := 0x26
def busy : Nat := 0x27
def segmentBusy : Nat := 0x28
def bankState : Nat := 0x29
def imageUnknown : Nat := 0x30
def shardPresent : Nat := 0x31
def notPlaced : Nat := 0x32
def shardRejected : Nat := 0x33
def shardFormat : Nat := 0x34
def imagePartial : Nat := 0x35
def swapIncompatible : Nat := 0x36
def swapState : Nat := 0x37
def groupQuarantined : Nat := 0x40
def groupAborted : Nat := 0x41
def streamBroken : Nat := 0x42
def objectUnknown : Nat := 0x48
def accessDenied : Nat := 0x49

end St

/-! ## Fields of a submission entry (R359) -/

def entOpcode (e : Bytes) : Nat := fld e 0 1
def entFlags (e : Bytes) : Nat := fld e 1 1
def entSlot (e : Bytes) : Nat := fld e 2 1
def entSubop (e : Bytes) : Nat := fld e 3 1
def entArg (e : Bytes) : Nat := fld e 4 4
def entKey (e : Bytes) : Nat := fld e 8 8
def entNoIntr (e : Bytes) : Bool := bitAt (entFlags e) 7

/-- The sequence number of a key (R365). -/
def keySeq (k : Nat) : Nat := k % 2 ^ 50

/-- The queue pair that a key names (R365). -/
def keyPair (k : Nat) : Nat := k / 2 ^ 50

def pairAdmin (p : QPair) : Bool := bitAt p.flags.toNat 0
def pairRt (p : QPair) : Bool := bitAt p.flags.toNat 1
def pairDiscard (p : QPair) : Bool := bitAt p.flags.toNat 2
def pairSqHarbour (p : QPair) : Bool := bitAt p.flags.toNat 3
def pairCqHarbour (p : QPair) : Bool := bitAt p.flags.toNat 4
def pairLogHarbour (p : QPair) : Bool := bitAt p.flags.toNat 5

/-! ## Writing completions (R358, R364, R366) -/

/-- A completion entry or log record (R364). -/
def cplEntry (key : Nat) (r : Reply) (tideLo sqHead orig : Nat) (phase : Bool) : Bytes :=
  leBytes 8 key ++ leBytes 8 r.result ++ leBytes 4 r.poison ++ leBytes 4 tideLo ++ leBytes 2 sqHead ++
    leBytes 2 r.detail ++ leBytes 1 r.status ++ leBytes 1 orig ++
    leBytes 2 (b2n phase + 2 * b2n (decide (r.poison ≠ 0)) + 4 * b2n r.discarded)

/-- Send the interrupt of a pair and begin to count anew (R358). -/
def pairInterrupt (q : Nat) (s : State) : State :=
  let p := pairOf s q
  let s := modPair q (fun p => { p with unsignalled := 0, firstUnsignalled := none }) s
  sendPort p.port (.msix p.port p.vector.toNat) s

/-- Count a completion towards an interrupt (R358). -/
def countCompletion (q : Nat) (s : State) : State :=
  let p := pairOf s q
  if max 1 p.intrCount ≤ p.unsignalled + 1 then pairInterrupt q s
  else modPair q (fun p =>
    { p with unsignalled := p.unsignalled + 1
             firstUnsignalled := some (p.firstUnsignalled.getD (tideOf s)) }) s

/-- The queue engine writes to the Harbour from the core complex (R19, R166): a segment in RET makes the write wait. -/
def coreWrite (a : Nat) (d : Bytes) (s : State) : State :=
  access { port := 2336, h := BitVec.ofNat 30 a, kind := .bar (.core 0) d.length (some d) } s

/-- Write an entry to the ring of a pair (R358, R364), sample `mon.queue_latency` (R443). -/
def postEntry (q key : Nat) (r : Reply) (orig : Nat) (noIntr : Bool) (readAt : BitVec 64) (s : State) : State :=
  let p := pairOf s q
  let entry := cplEntry key r (tideOf s).toNat p.sqHead orig p.phase
  let addr := p.cqBase.toNat + 32 * p.cqTail
  let s := if pairCqHarbour p then coreWrite addr entry s
    else sendPort p.port (.completion p.port (BitVec.ofNat 64 addr) entry) s
  let wrap := decide (p.cqEntries ≤ p.cqTail + 1)
  let s := modPair q (fun p =>
    { p with cqTail := if wrap then 0 else p.cqTail + 1, phase := if wrap then !p.phase else p.phase }) s
  let s := sample (ob 0x9010 0) q ((tideOf s - readAt).toNat) s
  if noIntr then s else countCompletion q s

/-- Write the key log record of a command, with PHASE 0 (R366). -/
def logEntry (q key : Nat) (r : Reply) (s : State) : State :=
  let p := pairOf s q
  let entry := cplEntry key r (tideOf s).toNat p.sqHead 0 false
  let addr := p.logBase.toNat + 32 * (keySeq key % 4096)
  if pairLogHarbour p then coreWrite addr entry s
  else sendPort p.port (.hostWrite p.port (BitVec.ofNat 64 addr) entry false) s

/-- Log and post a completion, from check 3 of R363 on. -/
def logAndPost (q key : Nat) (r : Reply) (noIntr : Bool) (readAt : BitVec 64) (s : State) : State :=
  postEntry q key r 0 noIntr readAt (logEntry q key r s)

/-- Free an admission slot, and the fence that it held (R357, R372). -/
def freeSlot (a : Nat) (q : Nat) (s : State) : State :=
  let s := { s with que := { s.que with cmds := tdel s.que.cmds a, reqs := tdel s.que.reqs a } }
  modPair q (fun p => if p.fence = some a then { p with fence := none } else p) s

/-- A command completes (R358, R366). On a pair in ERROR nothing is written before a disable (R355): the completion is
parked. -/
def finish (a : Nat) (r : Reply) (s : State) : State :=
  match tget? s.que.cmds a with
  | none => s
  | some c =>
    if (pairOf s c.pair).state == .error then
      { s with que := { s.que with
          cmds := tset s.que.cmds a { c with stage := .parked }, parked := s.que.parked ++ [(a, r)] } }
    else freeSlot a c.pair (logAndPost c.pair (entKey c.entry) r (entNoIntr c.entry) c.readAt s)

/-- A command completes with a status alone. -/
def finishSt (a status : Nat) (s : State) : State := finish a { status } s

/-- A command completes with a status and a DETAIL (R363). -/
def finishAt (a status detail : Nat) (s : State) : State := finish a { status, detail } s

/-- Give a command's outcome to who asked for it: a completion, or a management-bus response (R430). -/
def answer (r : Requester) (rep : Reply) (s : State) : State :=
  match r with
  | .queue a => finish a.val rep s
  | .mctp ep tag => send (.mctp ep tag 0x82 (BitVec.ofNat 8 rep.status) []) s

/-- The command in an admission slot, if its opcode is `op` and it has not yet been interpreted. -/
def cmdAt (s : State) (a op : Nat) : Option Cmd :=
  match tget? s.que.cmds a with
  | some c => if entOpcode c.entry = op && c.stage == .admitted then some c else none
  | none => none

/-- As `cmdAt`, with a SUBOP. -/
def cmdSub (s : State) (a op sub : Nat) : Option Cmd :=
  match cmdAt s a op with
  | some c => if entSubop c.entry = sub then some c else none
  | none => none

/-- Set the stage of a command. -/
def setStage (a : Nat) (st : CmdStage) (s : State) : State :=
  match tget? s.que.cmds a with
  | some c => { s with que := { s.que with cmds := tset s.que.cmds a { c with stage := st } } }
  | none => s

/-- The port of the pair that a command came from. -/
def cmdPort (s : State) (c : Cmd) : Port := (pairOf s c.pair).port

/-! ## Submission checks (R363) -/

/-- The first byte of 0x10 to 0x3F outside the used ranges that is not 0, if any. -/
def reservedAt (e : Bytes) (used : List (Nat × Nat)) : Option Nat :=
  (List.range 48).find? fun i =>
    let o := 16 + i
    !(used.any fun r => r.1 ≤ o && o < r.1 + r.2) && decide (e.getD o 0 ≠ 0)

/-- The form of a command (R360): greatest SUBOP, FLAGS bits used, ARG used, byte ranges used from 0x10. -/
structure CmdForm where
  flags : Nat
  arg : Bool
  used : List (Nat × Nat)
  admin : Bool
  group : Bool

/-- The forms of R360; none for an unknown opcode or SUBOP. -/
def cmdForm (e : Bytes) : Option CmdForm :=
  let op := entOpcode e
  let sub := entSubop e
  let plain := fun (f : CmdForm) => if sub = 0 then some f else none
  match op with
  | 0x01 => plain ⟨0x1F, true, [(0x10, 0x20)], false, true⟩
  | 0x02 => plain ⟨0, true, [(0x10, 0x1E)], false, true⟩
  | 0x03 => plain ⟨0, true, [], false, true⟩
  | 0x04 => plain ⟨0, true, [(0x10, 0x10)], false, true⟩
  | 0x05 => plain ⟨0, true, [(0x10, 0x10)], false, true⟩
  | 0x08 => plain ⟨0, false, [(0x10, 8)], false, false⟩
  | 0x09 => plain ⟨1, false, [], false, false⟩
  | 0x10 => plain ⟨0, true, [(0x10, 0x18)], true, false⟩
  | 0x11 => plain ⟨0, false, [(0x20, 8)], true, false⟩
  | 0x12 =>
    match sub with
    | 0 => some ⟨0, true, [(0x10, 0x20)], true, false⟩
    | 1 => some ⟨0, false, [(0x10, 8)], true, false⟩
    | 2 => some ⟨0, false, [], true, false⟩
    | _ => none
  | 0x18 =>
    match sub with
    | 0 => some ⟨0, false, [(0x10, 0x18)], true, false⟩
    | 1 => some ⟨1, true, [(0x10, 8)], true, false⟩
    | 2 => some ⟨0, true, [(0x10, 2)], true, false⟩
    | 3 => some ⟨0, true, [(0x10, 1), (0x12, 2)], true, false⟩
    | _ => none
  | 0x19 =>
    match sub with
    | 0 => some ⟨0, false, [], true, false⟩
    | 1 => some ⟨0, false, [], true, false⟩
    | 2 => some ⟨0, true, [], true, false⟩
    | 3 => some ⟨0, false, [(0x20, 8)], true, false⟩
    | _ => none
  | 0x20 => plain ⟨1, false, [(0x10, 3), (0x18, 0x14)], false, false⟩
  | 0x21 => plain ⟨0, false, [(0x10, 3), (0x18, 0x14)], true, false⟩
  | _ => none

/-- A context of the pair's group that is OPEN and that no close or save has taken (R363 check 5, R370). -/
def ctxUsable (s : State) (ctx : Nat) (group : BitVec 16) : Bool :=
  let r := ctxRecord s ctx
  decide (ctx < 262144) && decide (fld r 0 1 = 1) && decide (fld r 2 2 = group.toNat) &&
    (tget? s.que.closing ctx).isNone

/-- The slot that owns a context group (R221). -/
def groupSlot (s : State) (g : Nat) : Option Nat := tget? s.que.groups g

/-- The strict requirement of a slot is met (R216). -/
def strictMet (s : State) (sl : Slot) : Bool := !sl.strict || leNat (dictActive s (ob 0x1010 1) 0) = 1

/-- The Last slot that a command works on (R26, R360): its group's, or the one that it names. -/
def slotNamed (s : State) (p : QPair) (e : Bytes) : Option Nat :=
  let op := entOpcode e
  let sub := entSubop e
  if 1 ≤ op && op ≤ 5 then groupSlot s p.group.toNat
  else if op = 0x12 || ((op = 0x18 || op = 0x19) && sub ≤ 1) then some (entSlot e) else none

/-- The module could not place the bound Last again that a new command works on (R26). -/
def onLostLast (s : State) (p : QPair) (e : Bytes) : Bool :=
  match slotNamed s p e with
  | some n => s.power.unplaceable.contains n
  | none => false

/-- Checks 3 to 6 of R363, and R26: none when all pass, else status and DETAIL. -/
def admissionFault (s : State) (p : QPair) (e : Bytes) : Option (Nat × Nat) :=
  match cmdForm e with
  | none =>
    -- an unknown SUBOP of a known opcode lies at offset 3, an unknown opcode at offset 0
    some (St.invalidCommand,
      if [1, 2, 3, 4, 5, 8, 9, 0x10, 0x11, 0x12, 0x18, 0x19, 0x20, 0x21].contains (entOpcode e) then 3 else 0)
  | some f =>
    if entFlags e % 128 &&& f.flags ≠ entFlags e % 128 then some (St.invalidCommand, 1)
    else if !f.arg && entArg e ≠ 0 then some (St.invalidCommand, 4)
    else match reservedAt e f.used with
      | some o => some (St.invalidCommand, o)
      | none =>
        if f.admin && !pairAdmin p then some (St.notPermitted, 0)
        else if f.group && p.group = 0xFFFF then some (St.notPermitted, 0)
        else
          let op := entOpcode e
          if (op = 1 || op = 3 || op = 4) && !ctxUsable s (entArg e) p.group then some (St.contextInvalid, 0)
          else if (op = 2 || op = 5) &&
              !(entArg e < 262144 && fld (ctxRecord s (entArg e)) 0 1 = 0) then some (St.contextInvalid, 0)
          else if op = 1 then
            match groupSlot s p.group.toNat with
            | none => some (St.notBound, 0)
            | some n =>
              let sl := slotOf s n
              if !(sl.state == .bound) || sl.detaching then some (St.notBound, 0)
              else if !strictMet s sl then some (St.strictMismatch, 0)
              else if s.power.moduleFault || onLostLast s p e then some (St.capacity, 0)
              else none
          else if onLostLast s p e then some (St.capacity, 0)
          else none

/-! ## Which pair is read next (R357) -/

/-- Commands of a pair that are outstanding (R357, R367). -/
def outstanding (s : State) (q : Nat) : Nat :=
  (s.que.cmds.filter fun c => c.2.pair = q).length + (pairOf s q).duplicates.length

/-- A context command waits to be interpreted: the moment of its admission is not over (R370). -/
def contextMoment (s : State) : Bool :=
  s.que.cmds.any fun c => c.2.stage == .admitted && [2, 3, 4, 5].contains (entOpcode c.2.entry)

/-- A pair holds an entry that the engine may read, a free slot apart (R346, R354, R357, R372). -/
def readable (s : State) (q : Nat) : Bool :=
  let p := pairOf s q
  p.state == .enabled && !(portOf s p.port).d3hot && decide (p.sqHead ≠ p.sqTail) && p.fence.isNone &&
    decide (outstanding s q + 1 < p.cqEntries)

/-- The pair that the engine serves next (R357): RT pairs first, round robin by number, bursts of up to 8. -/
def nextPair (s : State) : Option Nat :=
  let ok := (tkeys s.que.pairs).filter (readable s)
  let rt := ok.filter fun q => pairRt (pairOf s q)
  let cls := if rt = [] then ok else rt
  if cls.contains s.que.lastPair && s.que.burst < 8 then some s.que.lastPair
  else match cls.find? fun q => decide (s.que.lastPair < q) with
    | some q => some q
    | none => cls.head?

/-! ## Key window (R365) -/

/-- What the window says of a sequence number (R365). -/
inductive KeyClass where
  | new
  | duplicate
  | stale
  deriving DecidableEq, Repr

def keyClass (p : QPair) (n : Nat) : KeyClass :=
  if p.hs < n then .new
  else if n + 4096 ≤ p.hs then .stale
  else if p.seen.getLsbD (n % 4096) then .duplicate else .new

/-- Clear the marks of the numbers above HS up to `n` (R365), as the window moves. -/
def windowMove (seen : BitVec 4096) (hs n : Nat) : BitVec 4096 :=
  if 4096 ≤ n - hs then 0
  else
    let gone := (List.range (n - hs)).foldl (fun m i => m ||| 2 ^ ((hs + 1 + i) % 4096)) 0
    seen &&& ~~~(BitVec.ofNat 4096 gone)

/-- Take a new number into the window (R365). -/
def keyTake (n : Nat) (p : QPair) : QPair :=
  let p := if p.hs < n then { p with hs := n, seen := windowMove p.seen p.hs n } else p
  { p with seen := p.seen ||| BitVec.ofNat 4096 (2 ^ (n % 4096)) }

/-- Mark a number unseen again (R367), where the window still holds it. -/
def keyForget (n : Nat) (p : QPair) : QPair :=
  if n + 4096 ≤ p.hs then p else { p with seen := p.seen &&& ~~~(BitVec.ofNat 4096 (2 ^ (n % 4096))) }

/-! ## Rows -/

/-- A pair enters ERROR, with an event (R348, R355, R356). -/
def pairError (q : Nat) (name : EventName) (s : State) : State :=
  raise name 9 q (modPair q (fun p => { p with state := .error }) s)

/-- Admit an entry into slot `a` (R357, R363). -/
def admitEntry (a q : Nat) (e : Bytes) (s : State) : State :=
  let c : Cmd := { pair := q, group := (pairOf s q).group, entry := e, order := s.que.nextOrder, stage := .admitted, readAt := tideOf s,
                   waitsFor := [], drainFrom := 0 }
  let s := { s with que := { s.que with cmds := tset s.que.cmds a c, nextOrder := s.que.nextOrder + 1 } }
  if entOpcode e = 3 || entOpcode e = 4 then
    { s with que := { s.que with closing := tset s.que.closing (entArg e) a } }
  else if entOpcode e = 9 then modPair q (fun p => { p with fence := some a }) s
  else s

/-- What an entry that has been read leads to (R363, R365 to R367). -/
def takeEntry (a q : Nat) (e : Bytes) (s : State) : State :=
  let p := pairOf s q
  let key := entKey e
  let now := tideOf s
  if keyPair key ≠ q then
    postEntry q key { status := St.invalidCommand, detail := 8 } 0 (entNoIntr e) now s
  else match keyClass p (keySeq key) with
    | .stale => postEntry q key { status := St.staleKey } 0 (entNoIntr e) now (bump (ob 0x6106 1) s)
    | .duplicate =>
      modPair q (fun p =>
        { p with duplicates := p.duplicates ++ [(BitVec.ofNat 64 key, entNoIntr e, now)] }) s
    | .new =>
      let s := modPair q (keyTake (keySeq key)) s
      match admissionFault s p e with
      | some (st, d) => logAndPost q key { status := st, detail := d } (entNoIntr e) now s
      | none => admitEntry a q e s

/-- The address of the submission entry that a pair's head names (R354, R357). -/
def sqAddr (p : QPair) : Nat := p.sqBase.toNat + 64 * p.sqHead

/-- The address of a key's log record (R366). -/
def logAddr (p : QPair) (key : Nat) : Nat := p.logBase.toNat + 32 * (keySeq key % 4096)

/-- A read of a ring or a key log: from the Harbour, where it lies there (R354), else what the port gave. -/
def ringRead (harbour : Bool) (a len : Nat) (port : HostRead) (s : State) : HostRead × State :=
  if harbour then
    let ((b, bad), s) := fetchRun 2336 a len s
    (if bad then .failed else .data b, s)
  else (port, s)

/-- SUBMISSION_READ (R357, R348): the queue engine reads the next entry of `pair`, if it is the pair to be served. -/
def execSubmissionRead (pair : Fin 16384) (entry : HostRead) (s : State) : Res :=
  let q := pair.val
  if !(isReady s) || contextMoment s || nextPair s ≠ some q then .next s
  else if pairSqHarbour (pairOf s q) && runWaits s (sqAddr (pairOf s q)) 64 then .next (runWake (sqAddr (pairOf s q)) 64 s)
  else match freeKey s.que.cmds 4096 with
    | none => .next (bump (ob 0x6103 1) s)
    | some a =>
      let p := pairOf s q
      let (read, s) := ringRead (pairSqHarbour p) (sqAddr p) 64 entry s
      let burst := if s.que.lastPair = q && s.que.burst < 8 then s.que.burst + 1 else 1
      let s := { s with que := { s.que with lastPair := q, burst } }
      let s := modPair q (fun p => { p with sqHead := (p.sqHead + 1) % max 1 p.sqEntries }) s
      match read with
      | .data b => .next (takeEntry a q (fit b 64) s)
      | _ => .next (pairError q .submissionFailed s)

/-- DUPLICATE_REPLAY (R366, R367): a waiting duplicate whose original has completed is answered from the key log. -/
def execDuplicateReplay (pair : Fin 16384) (key : BitVec 64) (log : HostRead) (s : State) : Res :=
  let q := pair.val
  let p := pairOf s q
  let live := s.que.cmds.any fun c => c.2.pair = q && entKey c.2.entry = key.toNat
  match p.duplicates.find? fun d => d.1 = key with
  | none => .next s
  | some d =>
    if live || p.state == .error || p.state == .disabled then .next s
    else if pairLogHarbour p && runWaits s (logAddr p key.toNat) 32 then .next (runWake (logAddr p key.toNat) 32 s)
    else
      let (read, s) := ringRead (pairLogHarbour p) (logAddr p key.toNat) 32 log s
      let s := modPair q (fun p => { p with duplicates := p.duplicates.erase d }) s
      match read with
      | .data b =>
        let b := fit b 32
        if fld b 0 8 = key.toNat then
          let r : Reply := { status := St.duplicateReplayed, result := fld b 8 8, detail := fld b 0x1A 2,
                             poison := fld b 0x10 4, discarded := bitAt (fld b 0x1E 2) 2 }
          .next (postEntry q key.toNat r (fld b 0x1C 1) d.2.1 d.2.2 (bump (ob 0x6105 1) s))
        else .next (postEntry q key.toNat { status := St.replayLost } 0 d.2.1 d.2.2 (bump (ob 0x6107 1) s))
      | _ => .next (postEntry q key.toNat { status := St.replayLost } 0 d.2.1 d.2.2 (bump (ob 0x6107 1) s))

/-- A doorbell write that is dropped (R356). -/
def doorbellDrop (s : State) : State := bump (ob 0x6104 1) s

/-- An invalid doorbell write (R356). -/
def doorbellBad (q : Nat) (s : State) : State := pairError q .doorbellError (bump (ob 0x6104 1) s)

/-- The checks that both doorbells share (R356, R500): the pair's own port, ENABLED, the module ready. -/
def doorbellOpen (s : State) (port : Port) (q : Nat) : Bool :=
  (pairOf s q).state == .enabled && (pairOf s q).port == port

/-- SQ_TAIL_DOORBELL (R356, R471). -/
def execSqTailDoorbell (port : Port) (pair : Fin 16384) (value : BitVec 32) (s : State) : Res :=
  let q := pair.val
  let p := pairOf s q
  let tail := value.toNat % 65536
  if !(s.power.phase == .ready) then .next s
  else if !doorbellOpen s port q then .next (doorbellDrop s)
  else
    let n := p.sqEntries
    let pend := (p.sqTail + n - p.sqHead) % n
    let adv := (tail + n - p.sqTail) % n
    let s := wantOn domCore (cause 8 s)
    if n ≤ tail || n ≤ pend + adv then .next (doorbellBad q s)
    else .next (modPair q (fun p => { p with sqTail := tail }) s)

/-- CQ_HEAD_DOORBELL (R356, R471). -/
def execCqHeadDoorbell (port : Port) (pair : Fin 16384) (value : BitVec 32) (s : State) : Res :=
  let q := pair.val
  let p := pairOf s q
  let head := value.toNat % 65536
  if !(s.power.phase == .ready) then .next s
  else if !doorbellOpen s port q then .next (doorbellDrop s)
  else
    let n := p.cqEntries
    let written := (p.cqTail + n - p.cqHead) % n
    let adv := (head + n - p.cqHead) % n
    let s := wantOn domCore (cause 8 s)
    if n ≤ head || written < adv then .next (doorbellBad q s)
    else .next (modPair q (fun p => { p with cqHead := head }) s)

/-- INTERRUPT_TIMER (R358): INTR_TIME_US has passed since the first completion not yet signalled. -/
def execInterruptTimer (pair : Fin 16384) (s : State) : Res :=
  let q := pair.val
  let p := pairOf s q
  match p.firstUnsignalled with
  | none => .next s
  | some t =>
    if decide (p.intrTime * 1000 ≤ (tideOf s - t).toNat) && decide (0 < p.unsignalled) then
      .next (pairInterrupt q s)
    else .next s

/-! ## Enabling and disabling (R353 to R355) -/

/-- A power of two from 16 to 65,536. -/
def ringSizeOk (n : Nat) : Bool := 16 ≤ n && n ≤ 65536 && n = 2 ^ Nat.log2 n

/-- A run of bytes lies in one HOST segment (R159, R354). -/
def inHostSegment (s : State) (a len : Nat) : Bool :=
  decide (a + len ≤ 2 ^ 30) && decide (0 < len) && addrSeg a = addrSeg (a + len - 1) &&
    (segOf s (addrSeg a)).use == .host && !(domState s (domSeg (addrSeg a)) == .failed)

/-- Port D's mode in force (R342). -/
def dRoot (s : State) : Bool := s.regs.dMode = 1
def dEndpoint (s : State) : Bool := s.regs.dMode = 0

/-- The pair that a 64-byte record describes (R354), enabled with rings at their starts (R355, R365). -/
def pairFromRecord (b : Bytes) (old : QPair) : QPair :=
  let flags := fld b 2 2
  let keep := bitAt flags 6
  { state := .enabled
    port := if fld b 1 1 = 0 then .u else .d
    flags := BitVec.ofNat 16 flags
    sqEntries := fld b 4 4
    cqEntries := fld b 8 4
    group := BitVec.ofNat 16 (fld b 0xC 2)
    vector := BitVec.ofNat 16 (fld b 0xE 2)
    sqBase := BitVec.ofNat 64 (fld b 0x10 8)
    cqBase := BitVec.ofNat 64 (fld b 0x18 8)
    logBase := BitVec.ofNat 64 (fld b 0x20 8)
    intrCount := fld b 0x28 2
    intrTime := fld b 0x2A 2
    hs := if keep then old.hs else 0
    seen := if keep then old.seen else 0 }

/-- The fields of a record are valid for an enable (R350, R354, R355). -/
def recordValid (s : State) (b : Bytes) : Bool :=
  let flags := fld b 2 2
  let sq := fld b 4 4
  let cq := fld b 8 4
  let spaceOk := fun (bit base len : Nat) => !bitAt flags bit || inHostSegment s base len
  fld b 1 1 ≤ 1 && (fld b 1 1 = 0 || dEndpoint s) && flags < 128 && !(fld b 1 1 = 1 && bitAt flags 0) &&
    ringSizeOk sq && ringSizeOk cq && (fld b 0xC 2 < 4096 || fld b 0xC 2 = 0xFFFF) &&
    fld b 0xE 2 < (if dRoot s && fld b 1 1 = 0 then 1792 else 2048) &&
    fld b 0x10 8 % 4096 = 0 && fld b 0x18 8 % 4096 = 0 && fld b 0x20 8 % 4096 = 0 &&
    spaceOk 3 (fld b 0x10 8) (64 * sq) && spaceOk 4 (fld b 0x18 8) (32 * cq) && spaceOk 5 (fld b 0x20 8) 131072 &&
    zeroAt b 0x2C 20

/-- The requester may set ADMIN (R355): an ADMIN queue pair on Port U. -/
def maySetAdmin (s : State) (r : Requester) : Bool :=
  match r with
  | .queue a =>
    match tget? s.que.cmds a.val with
    | some c => let p := pairOf s c.pair; pairAdmin p && p.port == .u
    | none => false
  | .mctp _ _ => false

/-- An enable of pair `q` by its record: the status, and the state (R355). -/
def enableRecord (r : Requester) (q : Nat) (b : Bytes) (s : State) : Nat × State :=
  if b.length ≠ 64 || 16384 ≤ q then (St.outOfRange, s)
  else if q = 0 then (St.accessDenied, s)
  else match (pairOf s q).state with
    | .disabled =>
      if !recordValid s b || fld b 0 1 ≠ 1 then (St.outOfRange, s)
      else if bitAt (fld b 2 2) 0 && !maySetAdmin s r then (St.accessDenied, s)
      else (St.success, modPair q (pairFromRecord b) s)
    | _ => (St.busy, s)

/-- Log and post the parked completions of a pair whose disable has come (R355). -/
def unpark (q : Nat) (s : State) : State :=
  let mine := s.que.parked.filter fun e => ((tget? s.que.cmds e.1).map (·.pair)) = some q
  let s := { s with que := { s.que with parked := s.que.parked.filter fun e => !mine.contains e } }
  mine.foldl (fun s e => finish e.1 e.2 s) s

/-- A disable of pair `q` (R355): reads stop at once. -/
def disablePair (q : Nat) (s : State) : State :=
  match (pairOf s q).state with
  | .enabled => modPair q (fun p => { p with state := .disabling }) s
  | .error => unpark q (modPair q (fun p => { p with state := .disabling }) s)
  | _ => s

/-- A disable by the record: the status, and the state (R355). -/
def disableRecord (q : Nat) (b : Bytes) (s : State) : Nat × State :=
  if b.length ≠ 64 || 16384 ≤ q || fld b 0 1 ≠ 0 then (St.outOfRange, s)
  else if q = 0 then (St.accessDenied, s)
  else (St.success, disablePair q s)

/-- The record that QUE_ADM registers describe for pair 0 (R352). -/
def admPair (s : State) (v : Nat) (old : QPair) : QPair :=
  let keep := bitAt v 1
  { state := .enabled, port := .u, flags := 1, sqEntries := 2 ^ bitsAt v 12 8, cqEntries := 2 ^ bitsAt v 20 16,
    vector := BitVec.ofNat 16 (bitsAt v 31 21), sqBase := s.regs.admSq, cqBase := s.regs.admCq,
    logBase := s.regs.admLog, hs := if keep then old.hs else 0, seen := if keep then old.seen else 0 }

/-- The QUE_ADM fields are valid for an enable of pair 0 (R350, R352). -/
def admValid (s : State) (v : Nat) : Bool :=
  4 ≤ bitsAt v 12 8 && bitsAt v 12 8 ≤ 16 && 4 ≤ bitsAt v 20 16 && bitsAt v 20 16 ≤ 16 &&
    s.regs.admSq.toNat % 4096 = 0 && s.regs.admCq.toNat % 4096 = 0 && s.regs.admLog.toNat % 4096 = 0 &&
    bitsAt v 31 21 < (if dRoot s then 1792 else 2048)

/-- The initiator may reach a register of class U (R446). -/
def classU (i : Initiator) : Bool := match i with | .portD => false | _ => true

/-- A write dropped under R447. -/
def privDrop (s : State) : State :=
  if s.regs.privDrops = 0xFFFFFFFF then s
  else { s with regs := { s.regs with privDrops := s.regs.privDrops + 1 } }

/-- A write of a register outside the core complex crosses into its domain (R458): dropped while a posted crossing is
in progress; in POSTED mode the crossing goes on after the write. -/
def crossing (f : State → State) (s : State) : State :=
  if s.regs.xdomBusy then cause 5 { s with regs := { s.regs with xdomDrop := true } }
  else
    let t := f s
    if bitAt s.regs.sysCtrl.toNat 0 then { t with regs := { t.regs with xdomBusy := true } } else t

/-- The outcome of a write of QUE_ADM_CTRL (R352, R355, R447). -/
def admCtrlWrite (i : Initiator) (v : BitVec 32) (s : State) : State :=
  if !classU i then privDrop s
  else
    let s := { s with regs := { s.regs with admCtrl := v } }
    if bitAt v.toNat 0 then
      if (pairOf s 0).state == .disabled && admValid s v.toNat && s.power.phase == .ready then
        modPair 0 (admPair s v.toNat) s
      else s
    else disablePair 0 s

/-- QUEUE_PAIR_DISABLED (R355): every admitted command has written its completion. -/
def execQueuePairDisabled (pair : Fin 16384) (s : State) : Res :=
  let q := pair.val
  if (pairOf s q).state == .disabling && outstanding s q = 0 then
    .next (modPair q (fun p => { p with state := .disabled }) s)
  else .next s

end Sys2Proof.Machine
end

