-- ==== Sys2Proof/Machine/Values.lean ====
section
/-! DEFINITION. What a read of a dictionary object returns (R417, R419, R423, R436, R441): every object of the chapters'
tables. A record whose layout the spec does not give is an uninterpreted function of the values in it
(notes/assumptions/6.md). -/

namespace Sys2Proof.Machine

/-- An ASCII string's bytes. -/
def asciiBytes (l : List Nat) : Bytes := l.map (BitVec.ofNat 8)

/-- `id.part` (R436). -/
def partName (s : State) : Bytes :=
  asciiBytes ([0x43, 0x58, 0x2D, 0x38] ++ if s.part816 then [0x31, 0x36] else [0x30, 0x38])

/-- `id.ordering_code` (R2). -/
def orderingCode (s : State) : Bytes :=
  partName s ++ asciiBytes ((if s.liquid then [0x2D, 0x4C] else []) ++ if s.preloaded then [0x2D, 0x50] else [])

/-! ## Counts and records of the units -/

/-- Handles free in the pools of LAST segments (R196). -/
def lastHandlesFree (s : State) : Nat := ((s.flow.pools.filter fun p => p.1 < 64).map fun p => p.2.length).sum

/-- Free KV slabs (R156). -/
def kvSlabsFree (s : State) : Nat := ((s.flow.pools.filter fun p => 64 ≤ p.1).map fun p => p.2.length).sum

/-- Active streams of a Ferry (R465). -/
def ferryStreams (s : State) (f : Nat) : Nat := (ferryOf s f).streams.length

/-- Recomputes outstanding at a cluster (R146). -/
def recomputesAt (s : State) (c : Nat) : Nat := (clusterOf s c).recomputes.length

/-- PWR_DOM_STATUS of a domain (R463, R473). -/
def domStatus (s : State) (n : Nat) : Nat :=
  let d := domOf s n
  let q := match d.queued with
    | some .off => 0
    | some .ret => 1
    | some .on => 2
    | none => 0
  pstateCode d.state + 4 * b2n d.current.isSome + 8 * b2n d.queued.isSome + 16 * q + 64 * b2n d.refused

/-- `pwr.domain` (R494): the fields of PWR_DOM_STATUS, wakes, wake failures. -/
def domRecord (s : State) (n : Nat) : Bytes :=
  let d := domOf s n
  leBytes 4 (domStatus s n) ++ leBytes 4 d.wakes ++ leBytes 4 d.failures ++ leBytes 4 0

/-- The domain number names a domain of this part (R463, R474). -/
def domExists (s : State) (n : Nat) : Bool := n < nIslands s || (2048 ≤ n && n ≤ 2090)

/-- HBR_SEG's USE code (R465). -/
def useCode (u : SegUse) : Nat :=
  match u with
  | .free => 0 | .context => 1 | .system => 2 | .last => 3 | .kv => 4 | .host => 5 | .shared => 6

/-- The state code of a queue pair (R354): a pair whose disable waits for its commands still reads ENABLED. -/
def qstateCode (st : QState) : Nat :=
  match st with
  | .disabled => 0 | .enabled => 1 | .disabling => 1 | .error => 2

/-- `que.pair` (R354). -/
def pairRecord (s : State) (q : Nat) : Bytes :=
  let p := pairOf s q
  leBytes 1 (qstateCode p.state) ++ leBytes 1 (match p.port with | .u => 0 | .d => 1) ++ leBytes 2 p.flags.toNat ++
    leBytes 4 p.sqEntries ++ leBytes 4 p.cqEntries ++ leBytes 2 p.group.toNat ++ leBytes 2 p.vector.toNat ++
    leBytes 8 p.sqBase.toNat ++ leBytes 8 p.cqBase.toNat ++ leBytes 8 p.logBase.toNat ++ leBytes 2 p.intrCount ++
    leBytes 2 p.intrTime ++ List.replicate 20 0

/-- The code of a Last slot's state (R201). -/
def lastCode (st : LastState) : Nat :=
  match st with
  | .free => 0 | .placed => 1 | .resident => 2 | .bound => 3 | .releasing => 4

/-- The island set of a slot (R206): islands that hold one of its compute-mode slices. -/
def islandSet (s : State) (n : Nat) : List Nat :=
  let sl := slotOf s n
  (sl.places.filter fun p => !(bankOf s p.bank).storageMode).foldl (fun l p => insertUp (bankIsland p.bank) l) []

/-- The LAST segments that a slot holds (R217). -/
def lastSegments (s : State) (n : Nat) : List Nat :=
  (List.range 16).filter fun i => (segOf s i).use == .last && (segOf s i).holder.toNat = n

/-- Contexts of a group that are OPEN (R225), among the contexts with a stored record. -/
def openContexts (s : State) (g : Nat) : Nat :=
  ((s.hbr.valid.filter fun k => k % 4 = 0 && k / 4 < 262144).filter fun k =>
    let r := ctxRecord s (k / 4)
    fld r 0 1 = 1 && fld r 2 2 = g).length

/-- Queue pairs bound to a group (R225). -/
def groupPairs (s : State) (g : Nat) : Nat :=
  (s.que.pairs.filter fun p => p.2.state != .disabled && p.2.group.toNat = g).length

/-- The context groups that 0x7030 lists (R225), rising: those that a slot owns, that a queue pair is bound to, or that have an open
context. The owner stands as its slot number plus 1, 0 for none. -/
def usedGroups (s : State) : List Nat :=
  let pairs := (s.que.pairs.filter fun p => p.2.state != .disabled && p.2.group.toNat < 4096).map fun p => p.2.group.toNat
  let open_ := (s.hbr.valid.filter fun k => k % 4 = 0 && k / 4 < 262144).filterMap fun k =>
    let r := ctxRecord s (k / 4)
    if fld r 0 1 = 1 then some (fld r 2 2) else none
  (pairs ++ open_).foldl (fun l g => insertUp g l) (tkeys s.que.groups)

/-- The schedule record of a bank (R316). -/
def schedRecord (s : State) (n : Nat) : Bytes :=
  let d := schedOf s n
  let rate := if d.rates = [] then 0 else d.rates.sum / d.rates.length
  leBytes 4 n ++ leBytes 1 (bankClass s n) ++
    leBytes 1 (b2n d.dueTopup + 2 * b2n d.dueFloor + 4 * b2n d.dueKs + 8 * b2n d.dueRebuild + 16 * b2n d.dueForced) ++
    leBytes 1 (b2n d.symRate + 2 * b2n d.symMargin + 4 * b2n d.symMismatch + 8 * b2n d.symSpares + 16 * b2n d.symPastLife) ++
    leBytes 1 0 ++ leBytes 4 (d.drift / 2 ^ 32) ++ leBytes 2 d.postMargin ++ leBytes 2 rate ++ leBytes 4 d.topupPcycle.toNat ++
    leBytes 4 d.reruns.sum ++ leBytes 8 d.topupTide.toNat

/-- The number of banks whose schedule record shows a symptom (R315). -/
def symptomCount (s : State) (f : Sched → Bool) : Nat := (s.scheds.filter fun e => f e.2).length

/-- `sec.pubkey` of a slot (R513). -/
def pubkeyRecord (s : State) (n : Nat) : Bytes :=
  let k := tget s.sec.keys n {}
  if k.trusted then
    leBytes 1 1 ++ leBytes 3 0 ++ (leBytes 4 k.rsaE.toNat).reverse ++ fit k.rsaN 384 ++ fit k.slhPk 48 ++ fit k.keyId 48 ++
      List.replicate 24 0
  else List.replicate 512 0

/-! ## Monitors (R441, R442) -/

/-- The UNIT code of a monitor (R443). -/
def monUnit (obj : Nat) : Nat :=
  if obj = ob 0x9011 0 then 1 else if obj = ob 0x9012 0 then 2 else if obj = ob 0x9020 1 then 3
  else if obj = ob 0x9030 1 then 4 else if obj = ob 0x9031 0 then 5 else 0

/-- The 304-byte record (R441). -/
def monBytes (obj : Nat) (m : Mon) : Bytes :=
  leBytes 8 m.count.toNat ++ leBytes 8 m.sum.toNat ++ leBytes 4 m.min.toNat ++ leBytes 4 m.max.toNat ++
    leBytes 4 m.last.toNat ++ leBytes 1 (monUnit obj) ++ leBytes 3 0 ++ leBytes 8 m.clearTide.toNat ++
    leBytes 4 m.clearEpoch.toNat ++ leBytes 4 0 ++ (List.range 32).flatMap fun k => leBytes 8 (tget m.bins k 0).toNat

/-- Add two records (R442). -/
def monMerge (a b : Mon) : Mon :=
  { a with
    count := a.count + b.count
    sum := a.sum + b.sum
    min := if b.min.toNat < a.min.toNat then b.min else a.min
    max := if a.max.toNat < b.max.toNat then b.max else a.max
    bins := b.bins.foldl (fun t e => tmod t e.1 0 fun c => c + e.2) a.bins }

/-- The merge of a keyed monitor's units (R442): LAST of the unit sampled most recently. -/
def monAll (s : State) (obj : Nat) : Mon :=
  let base := (s.dict.monitors.filter fun e => e.1 / 2 ^ 64 = obj).foldl (fun m e => monMerge m e.2) (monEmpty s obj)
  match tget? s.dict.monLast obj with
  | some u => { base with last := (monOf s obj u).last }
  | none => base

/-! ## Values -/

/-- The merge argument of a keyed monitor (R442). -/
def mergeArg : Nat := 0xFFFFFFFFFFFFFFFF

/-- The fixed argument, or the key, names something (R417). -/
def keyOk (s : State) (d : ObjDef) (arg : Nat) : Bool :=
  let mon := monObjs.contains d.obj
  match d.key with
  | .fixed => arg = 0
  | .bank => arg < nBanks s
  | .island => arg < nIslands s || (mon && arg = mergeArg)
  | .tjSensor => arg < nIslands s || (0x10000 ≤ arg && arg < 0x10010) || (mon && arg = mergeArg)
  | .pair => arg < 16384 || (mon && arg = mergeArg)
  | .domain => domExists s arg
  | .lastSlot => arg < 64
  | .imageHash => true
  | .event => s.dict.events.any fun e => arg = 0 || e.seq = arg
  | .member => arg < 8
  | .memInstance => arg / 65536 < 5
  | .unit => arg / 2 ^ 32 < 8
  | .offset => arg < 4096
  | .pubSlot => arg < 16

def unitKindOf (n : Nat) : UnitKind :=
  match n with
  | 0 => .sramWord | 1 => .harbourBank | 2 => .column | 3 => .array | 4 => .island | 5 => .ferry | 6 => .cluster
  | _ => .lane

/-- The values in a record whose layout the spec does not give. -/
def recordValues (s : State) (obj arg : Nat) : List Nat :=
  if obj = ob 0x4001 1 then
    (List.range 16).flatMap fun i =>
      [useCode (segOf s i).use, (segOf s i).holder.toNat, pstateCode (domState s (domSeg i))]
  else if obj = ob 0x6002 0 then
    [s.portU, s.portD].flatMap fun p => [p.speed.toNat, p.width.toNat, b2n p.flit, b2n p.d3hot, p.aer]
  else if obj = ob 0x6210 0 then
    (List.range 7).flatMap fun i =>
      let l := linkOf s i
      [linkCode (linkShown s i), b2n l.halves, l.peerA.toNat, l.peerB.toNat, l.lanes.toNat]
  else if obj = ob 0x6220 0 then
    s.strait.mcasts.flatMap fun m =>
      [m.slot, m.plan.group, m.plan.sender, m.plan.receivers.toNat, m.plan.lace, b2n m.plan.shed, m.plan.stallUs]
  else if obj = ob 0x7002 0 then
    let sl := slotOf s arg
    [lastCode sl.state, leNat sl.lastHash, (islandSet s arg).length] ++ lastSegments s arg ++ [leNat sl.report]
  else if obj = ob 0x7030 0 then
    (usedGroups s).flatMap fun g => [g, ((tget? s.que.groups g).map fun n => n + 1).getD 0, openContexts s g, groupPairs s g]
  else if obj = ob 0x8040 2 then
    let b := bucketOf s arg
    [b.count, b.overflows] ++ (hardTable b).flatMap fun h => [h.1, h.2]
  else if obj = ob 0x8049 0 then
    let h := historyOf s (unitKindOf (arg / 2 ^ 32)) (arg % 2 ^ 32)
    [b2n h.permanent] ++ h.stamps.flatMap fun t => [t.1, t.2]
  else if obj = ob 0x804A 1 then
    (s.integ.history.filter fun e => e.2.2.permanent).flatMap fun e => [unitIndex e.1, e.2.1]
  else []

/-- The values in an image record (R261). -/
def imageValues (r : ImageRec) : List Nat :=
  [b2n r.adapters, (match r.state with | .partly => 0 | .complete => 1 | .committed => 2)] ++ r.present ++
    r.refetch.map Prod.fst

/-- The record of an image by its manifest hash (R231). -/
def imageByHash (s : State) (h : Digest) : Option (Nat × ImageRec) := s.model.images.find? fun e => e.2.hash = h

/-- The number held in an RO number that is composed at the read. -/
def readNumber (s : State) (obj : Nat) : Nat :=
  match obj / 256, obj % 256 with
  | 0x1001, 4 => s.regs.modId.toNat
  | 0x1001, 5 => s.sec.release.toNat
  | 0x1002, 3 => s.dict.cfgReject.toNat
  | 0x2002, 1 => budgetB s / 70000
  | 0x2002, 2 => ceilDiv (thetaOf s) 70000
  | 0x2007, 2 => s.power.dipLongest
  | 0x2010, 1 => s.time.epoch.toNat
  | 0x2020, 1 => pcycleOf s
  | 0x2021, 1 => poweredS s
  | 0x2022, 1 => b2n s.time.internal
  | 0x4024, 1 => (s.flow.ferries.map fun f => f.2.streams.length).sum
  | 0x4040, 1 => lastHandlesFree s
  | 0x5001, 1 => ((List.range 16).map fun c => if domIsOn s (domCluster c) then 2 ^ c else 0).sum
  | 0x5002, 1 => s.power.standing.getD 0xFF
  | 0x5010, 1 => ((List.range 16).map (recomputesAt s)).sum
  | 0x5050, 1 => kvSlabsFree s
  | 0x6101, 1 => (s.que.pairs.filter fun p => qstateCode p.2.state = 1).length
  | 0x6102, 1 => s.que.cmds.length
  | 0x6201, 1 => groupStateCode s
  | 0x6202, 1 => (leaderOf s).getD 0xFF
  | 0x6203, 1 => (groupCrc s).toNat
  | 0x6213, 1 => ((List.range 7).map fun n => popNat 4 (linkOf s n).retired.toNat).sum
  | 0x7001, 1 => (s.model.slots.filter fun e => e.2.state != .free).length
  | 0x7040, 1 => s.model.images.length
  | 0x7045, 1 => (s.model.images.map fun e => e.2.refetch.length).sum
  | 0x7061, 1 => s.model.adapters.length
  | 0x8020, 1 => symptomCount s fun d => d.symRate
  | 0x8021, 1 => symptomCount s fun d => d.symMargin
  | 0x8022, 1 => symptomCount s fun d => d.symMismatch
  | 0x8023, 1 => symptomCount s fun d => d.symSpares
  | 0x8024, 1 => symptomCount s fun d => d.symWorn
  | 0x8025, 1 => (s.banks.filter fun e => e.2.state == .retired).length
  | 0x8026, 1 => (s.banks.filter fun e => decide (30000 ≤ e.2.wear)).length
  | 0xA002, 1 => ratchetCount s.sec.svnPairs
  | 0xA011, 1 => s.sec.stageState.toNat + 16 * s.sec.stageReason.toNat
  | 0xA011, 2 => s.sec.stageId.toNat
  | _, _ => (counterOf s obj).toNat

/-- The bytes of a record that the spec lays out, or none. -/
def recordBytes (s : State) (obj arg : Nat) : Option Bytes :=
  if obj = ob 0x1001 1 then some (partName s)
  else if obj = ob 0x1001 2 then some (orderingCode s)
  else if obj = ob 0x1001 6 then some (fit s.sec.measure2 48)
  else if obj = ob 0x2003 1 then some (leBytes 4 (arrayCharges s / 70) ++ leBytes 4 (shankCharges s / 70))
  else if obj = ob 0x2006 0 then some (domRecord s arg)
  else if obj = ob 0x3200 0 then some (bankRecord s arg)
  else if obj = ob 0x6030 0 then some (s.regs.dConfig.drop arg)
  else if obj = ob 0x6100 0 then some (pairRecord s arg)
  else if obj = ob 0x6207 0 then some (manifestOf s arg)
  else if obj = ob 0x8010 0 then some (schedRecord s arg)
  else if obj = ob 0x9040 0 then
    (if arg = 0 then s.dict.events.head? else s.dict.events.find? fun e => e.seq = arg).map eventRecord
  else if obj = ob 0x9042 0 then some (s.dict.faultLog.flatMap eventRecord)
  else if obj = ob 0xA001 1 then some (leBytes 8 s.sec.policy.toNat)
  else if obj = ob 0xA010 0 then some s.sec.stage
  else if obj = ob 0xA030 0 then some (pubkeyRecord s arg)
  else if monObjs.contains obj then
    some (monBytes obj (if arg = mergeArg then monAll s obj else monOf s obj arg))
  else none

/-- Every RWS object's staged value, or its active value where nothing is staged, in ascending order (R424). -/
def stagedConfig (s : State) : Bytes :=
  (allObjs s.liquid).flatMap fun d =>
    if d.acc == .rws then (tget? s.dict.staged (okey d.obj 0)).getD (dictActive s d.obj 0) else []

/-- `dev.cfg_crc_staged` (R424). -/
def stagedCrc (s : State) : BitVec 32 := crc32c (stagedConfig s)

/-- The value of an object (R417 to R423); `hash` is the key of a hash-keyed object. None where the key names nothing. -/
def objValue (s : State) (d : ObjDef) (arg : Nat) (hash : Digest) (staged : Bool) : Option Bytes :=
  if !keyOk s d arg then none
  else if d.obj = ob 0x7041 0 then
    (imageByHash s hash).map fun e => Config.layout d.obj (imageValues e.2)
  else if d.obj = ob 0x1002 2 then some (leBytes 4 (stagedCrc s).toNat)
  else match recordBytes s d.obj arg with
    | some b => some b
    | none =>
      match d.acc with
      | .rws =>
        some (if staged then (tget? s.dict.staged (okey d.obj arg)).getD (dictActive s d.obj arg)
          else dictActive s d.obj arg)
      | .rw => some (dictActive s d.obj arg)
      | _ =>
        if d.obj = ob 0xB020 1 then some (Config.layout d.obj tauCurve.flatten)
        else if d.cls == .factory then some (Config.factory d.obj)
        else match d.ty with
          | .unsigned n => some (leBytes n (readNumber s d.obj))
          | _ => some (Config.layout d.obj (recordValues s d.obj arg))

/-- The side of a read of the event log (R438, R440): the record counts as read, and a bus endpoint is noted. -/
def noteLogRead (arg : Nat) (ep : Option Nat) (s : State) : State :=
  modDict (fun d =>
    let newest := (d.events.head?.map fun e => e.seq).getD 0
    { d with
      events := d.events.map fun e => if e.seq = (if arg = 0 then newest else arg) then { e with read := true } else e
      logReader := match ep with | some n => some n | none => d.logReader }) s

end Sys2Proof.Machine
end

