-- ==== Sys2Proof/Machine/Store.lean ====
section
/-! DEFINITION. The configuration store (R426 to R428), configuration registers and the check pass's CRC (R452 to R457),
and the commit (R424, R395). Choices of the model: notes/assumptions/11.md (DEDUCED), notes/assumptions/18.md
(DEDUCED). -/

namespace Sys2Proof.Machine

/-! ## The store (R426) -/

/-- The live entries of an area: the newest of each object and key. -/
def liveEntries : List StoreEntry → List StoreEntry
  | [] => []
  | e :: t => e :: (liveEntries t).filter fun o => !(o.object = e.object && o.key = e.key)

/-- An area is short of free lines (R426). -/
def areaShort (l : List StoreEntry) : Bool := Config.storeShort (l.map fun e => e.value.length)

/-- Compact an area that has run short: its live entries go to the other area, and it is erased (R426). -/
def compactStore (d : Dict) : Dict :=
  let d := if areaShort d.area0 then { d with area1 := liveEntries d.area0 ++ d.area1, area0 := [] } else d
  if areaShort d.area1 then { d with area0 := liveEntries d.area1 ++ d.area0, area1 := [] } else d

/-- Append a value to both areas (R426). -/
def storeAppend (object key : Nat) (value : Bytes) (s : State) : State :=
  modDict (fun d =>
    let e : StoreEntry := { object, key, seq := d.storeSeq, value }
    compactStore { d with area0 := e :: d.area0, area1 := e :: d.area1, storeSeq := d.storeSeq + 1 }) s

/-- The stored value of an object and key: the highest sequence number in either area (R426). -/
def storedValue (d : Dict) (object key : Nat) : Option Bytes :=
  ((d.area0 ++ d.area1).foldl (fun best e =>
    if e.object = object && e.key = key then
      match best with
      | none => some e
      | some (b : StoreEntry) => if b.seq < e.seq then some e else some b
    else best) none).map fun e => e.value

/-- POWERED_TIME_STORE's write (R491): the total, drift ages and re-run buckets go to the store together. -/
def storePoweredTime (s : State) : State :=
  let s := storeTotal s
  let s := { s with time := { s.time with storedAllAt := s.time.storedTotal } }
  let s := { s with scheds := s.scheds.map fun e =>
    (e.1, { e.2 with storedDrift := e.2.drift, storedReruns := e.2.reruns }) }
  storeAppend (ob 0x2021 1) 0 (leBytes 8 s.time.storedTotal) s

/-! ## Configuration registers (R452 to R457, R462 to R465) -/

/-- Pending values of the configuration registers in ascending offset order (R454). -/
def pendingWords (s : State) : List Nat :=
  [s.regs.modePending.toNat, s.regs.capPending.toNat, s.regs.offsetPending.toNat % 2 ^ 32,
   s.regs.offsetPending.toNat / 2 ^ 32, s.regs.splitPending.toNat]

/-- The CRC of a check pass (R454). -/
def passCrc (s : State) : BitVec 32 := crc32c ((pendingWords s).flatMap (leBytes 4))

/-- CFG_PENDING (R452). -/
def cfgPending (s : State) : Bool :=
  s.regs.modePending != s.regs.modeActive || s.regs.capPending != s.regs.capActive ||
    s.regs.splitPending != s.regs.splitActive || s.regs.offsetPending != s.regs.offsetActive

/-- A reserved test control differs from its reset value (R460). DESIGN CHOICE (notes/assumptions/34.md): the spec says that some
reserved bits of configuration registers are test controls and not which: every reserved bit of SYS_MODE, PWR_CAP and HBR_SPLIT
counts as one, by its active value. -/
def testActive (s : State) : Bool :=
  s.regs.modeActive.toNat / 2 ≠ 0 || s.regs.capActive.toNat / 1024 ≠ 0 || s.regs.splitActive.toNat / 2 ^ 24 ≠ 0

/-- A configuration register or the reference has been written: the pass in progress is discarded (R454). -/
def dirtyPass (s : State) : State := { s with regs := { s.regs with passDirty := true } }

/-- The pending values that mirror the dictionary's active values (R457). -/
def mirrorRegs (s : State) : State :=
  let strict := leNat (dictActive s (ob 0x1010 1) 0)
  let cap := dictNum s (ob 0x2001 1)
  let split := dictActive s (ob 0xB040 1) 0
  { s with regs := { s.regs with
      modePending := BitVec.ofNat 32 (s.regs.modePending.toNat / 2 * 2 + strict % 2)
      capPending := BitVec.ofNat 32 (s.regs.capPending.toNat / 1024 * 1024 + cap % 1024)
      splitPending := BitVec.ofNat 32 (s.regs.splitPending.toNat / 2 ^ 24 * 2 ^ 24 + fld split 0 3) } }

/-- Steps 1 to 4 of R457: HOLD is set and cleared again within the step. -/
def syncRegisters (s : State) : State :=
  let s := mirrorRegs s
  dirtyPass { s with regs := { s.regs with
    cfgCrcRef := passCrc s, cfgCtrl := s.regs.cfgCtrl &&& ~~~(1 : BitVec 32), holdRaised := false } }

/-- All pending values but those of the TIDE_ registers become active together (R453). -/
def activateConfig (s : State) : State :=
  { s with regs := { s.regs with
    modeActive := s.regs.modePending, capActive := s.regs.capPending, splitActive := s.regs.splitPending } }

/-- SYS_CFG_CTRL.HOLD (R456). -/
def cfgHeld (s : State) : Bool := bitAt s.regs.cfgCtrl.toNat 0

/-- A cap inside the variant's range (R3, R463). -/
def capOk (s : State) (w : Nat) : Bool := 400 ≤ w && w ≤ (if s.liquid then 750 else 500)

/-! ## The commit (R424, R395, R318) -/

/-- The staged value of an object, or its active value. -/
def stagedOrActive (s : State) (obj : Nat) : Bytes := (tget? s.dict.staged (okey obj 0)).getD (dictActive s obj 0)

/-- The constrained object of the first relation that fails (R424): R318 is the one relation that spans objects. -/
def failedRelation (s : State) : Option Nat :=
  let trigger := leNat (stagedOrActive s (ob 0x8002 1))
  let guard := leNat (stagedOrActive s (ob 0x7013 1))
  if trigger + 40 ≤ guard then none else some (ob 0x8002 1)

/-- A committed change of this object waits for the group commit (R395). -/
def groupObject (obj : Nat) : Bool := obj = ob 0x1010 1 || obj / 256 = 0xB010 || obj / 256 = 0xB030

/-- A committed change of a kind's parameters resets every bucket of the kind (R328). -/
def resetBuckets (old : Bytes) (s : State) : State :=
  let new := dictActive s (ob 0x8040 1) 0
  let kinds := (List.range 5).filter fun k => sub old (8 * k) 8 ≠ sub new (8 * k) 8
  let one := fun (e : Nat × Bucket) => if kinds.contains (e.1 / 65536) then (e.1, { e.2 with count := 0 }) else e
  { s with integ := { s.integ with buckets := s.integ.buckets.map one } }

/-- Store and activate committed values together (R424 steps 3 and 4). -/
def applyValues (vals : Tab Bytes) (s : State) : State :=
  let old := dictActive s (ob 0x8040 1) 0
  let s := vals.foldl (fun s e => storeAppend (e.1 / 2 ^ 64) (e.1 % 2 ^ 64) e.2 s) s
  let s := modDict (fun d => { d with active := vals.foldl (fun t e => tset t e.1 e.2) d.active }) s
  syncRegisters (resetBuckets old s)

/-- Commit the staged values (R424, R395): the status, and the state. -/
def commitStaged (value : Nat) (s : State) : Nat × State :=
  if value ≠ (stagedCrc s).toNat then (St.outOfRange, s)
  else match failedRelation s with
    | some o =>
      (St.outOfRange, modDict (fun d => { d with cfgReject := BitVec.ofNat 32 (o / 256 * 65536 + o % 256 * 256) }) s)
    | none =>
      let held := membersOf s ≠ [] && groupHolds s
      let isGroup := fun (e : Nat × Bytes) => groupObject (e.1 / 2 ^ 64)
      let later := if held then s.dict.staged.filter isGroup else []
      let now := if held then s.dict.staged.filter fun e => !isGroup e else s.dict.staged
      let crcBefore := ownManifest s
      let s := modDict (fun d =>
        { d with staged := [], heldGroup := later.foldl (fun t e => tset t e.1 e.2) d.heldGroup,
                 groupPending := d.groupPending || !later.isEmpty }) s
      let s := bump (ob 0x1002 4) (applyValues now s)
      (St.success, if ownManifest s = crcBefore then s else startExchange s)

/-- `dev.cfg_commit`'s write (R424): the status, and the state. -/
def commitWrite (data : Bytes) (s : State) : Nat × State :=
  if data.length = 4 then commitStaged (leNat data) s else (St.outOfRange, s)

/-- `mon.clear`'s write (R444): the status, and the state. -/
def clearWrite (data : Bytes) (s : State) : Nat × State :=
  let v := leNat data
  let obj := ob (v / 65536) (v / 256 % 256)
  if data.length = 4 && monObjs.contains obj then (St.success, monClearAll obj s) else (St.outOfRange, s)

end Sys2Proof.Machine
end

