-- ==== Sys2Proof/Machine/Drift.lean ====
section
/-! DEFINITION. What Cobbler keeps for each bank (R292 to R306, R315): drift age, what is due, the symptoms of wear, when
a bank is idle and when its work is covered by Shank. Choices of the model: notes/assumptions/11.md (DEDUCED),
notes/assumptions/36.md (DEDUCED). -/

namespace Sys2Proof.Machine

/-! ## Drift age (R294, R295) -/

/-- The island's present Tj monitor value in 0.25 °C above −40 °C (R294, R443). -/
def islandTj (s : State) (i : Nat) : Nat := (monOf s (ob 0x9031 0) i).last.toNat

/-- The active `tbl.topup_curve`. -/
def topupCurve (s : State) : Bytes := dictActive s (ob 0xB022 1) 0

/-- The fixed Tj points of the curve, as monitor values (R295). -/
def curveTj : List Nat := [260, 320, 380, 400, 440, 500, 540]

/-- The compute-mode interval at a Tj, in minutes, as a fraction (R294): linear between points, held outside them. -/
def curveInterval (b : Bytes) (tj : Nat) : Nat × Nat :=
  let iv := fun i => fld b (4 * i) 4
  if tj ≤ 260 then (iv 0, 1)
  else if 540 ≤ tj then (iv 6, 1)
  else match (List.range 6).find? fun i => decide (curveTj.getD i 0 ≤ tj) && decide (tj < curveTj.getD (i + 1) 0) with
    | some i =>
      let x := curveTj.getD i 0
      let y := curveTj.getD (i + 1) 0
      (iv i * (y - tj) + iv (i + 1) * (tj - x), y - x)
    | none => (iv 6, 1)

/-- What one second adds to drift age, in units of 2^−48 (R294). DESIGN CHOICE (notes/assumptions/36.md): the rule gives A in units of
2^−16 and no rounding of what a second adds: the model keeps 32 bits below them and rounds each second's share down. -/
def driftPerSecond (b : Bytes) (storage : Bool) (tj : Nat) : Nat :=
  let iv := curveInterval b tj
  let factor := if storage then fld b 28 2 else 1000
  2 ^ 48 * iv.2 * 1000 / max 1 (60 * iv.1 * factor)

/-- Drift age 1.0 (R294). -/
def driftOne : Nat := 2 ^ 48

/-- Advance a bank's drift age by `sec` seconds at one Tj; a U32 of 2^−16 holds it (R294). -/
def driftAdd (s : State) (n sec tj : Nat) (d : Sched) : Sched :=
  { d with drift := min (2 ^ 64 - 1) (d.drift + sec * driftPerSecond (topupCurve s) (bankClass s n = 2) tj) }

/-- The banks that take part in maintenance (R293, R426, R501), rising. -/
def placedBanks (s : State) : List Nat :=
  s.model.pool.foldl (fun l n => insertUp n l) (tkeys (s.banks.filter fun e => e.2.owners ≠ [] || systemBank e.1))

/-! ## What is due (R296, R304) -/

/-- The margin that a bank's class tops up below (R293, R296). -/
def topupTrigger (s : State) (n : Nat) : Nat :=
  match bankClass s n with
  | 0 => dictNum s (ob 0x8002 1)
  | 1 => fld (topupCurve s) 30 2
  | 2 => dictNum s (ob 0x8003 1)
  | _ => 0

/-- A top-up is due (R296). A margin measured before a top-up run says nothing after it. -/
def topupDue (s : State) (n : Nat) : Bool :=
  let c := bankClass s n
  let d := schedOf s n
  ((c = 0 || c = 2) && decide (driftOne ≤ d.drift)) ||
    (c ≠ 3 && !d.afterTopup && decide ((bankOf s n).margin < topupTrigger s n))

/-- A floor top-up is due (R296). -/
def floorDue (s : State) (n : Nat) : Bool := belowFloor s n && !(schedOf s n).afterTopup

/-- Some maintenance of a bank is due. -/
def anyDue (d : Sched) : Bool := d.dueTopup || d.dueFloor || d.dueKs || d.dueRebuild

/-- The classification of a fault of one of the bank's columns is open, or its rebuild is to come (R310, R312). -/
def columnOpen (s : State) (n : Nat) : Bool :=
  let d := schedOf s n
  decide (0 < d.retests) || d.dueRebuild || d.rebuilding

/-- The bank's compute-mode slices run on Shank (R56, R76, R108, R147, R304, R310). -/
def bankCovered (s : State) (n : Nat) : Bool :=
  let b := bankOf s n
  b.state == .retired || belowFloor s n || (islandOf s (bankIsland n)).quarantined || columnOpen s n ||
    domState s (bankIsland n) == .failed || b.state == .erasing || b.state == .eraseSuspended || b.state == .programming ||
    b.state == .erased || (s.power.dipIslands.contains (bankIsland n) && !dipHolds s) ||
    ((tget? s.model.covers n).map (·.forced)).getD false

/-- The times since when a top-up, a measurement and a rebuild are due (R304). -/
def stampDue (now : Nat) (d : Sched) : Sched :=
  let since := fun (due : Bool) (t : Option Nat) => if due then some (t.getD now) else none
  { d with sinceTopup := since (d.dueTopup || d.dueFloor) d.sinceTopup, sinceKs := since d.dueKs d.sinceKs,
           sinceRebuild := since d.dueRebuild d.sinceRebuild }

/-- Some kind of work has been due for longer than `cob.force_after_s` (R304). -/
def overdue (s : State) (d : Sched) : Bool :=
  [d.sinceTopup, d.sinceKs, d.sinceRebuild].any fun t => t.any fun t => decide (t + dictNum s (ob 0x8005 1) < poweredS s)

/-- End the forced cover of a bank, and any cover that it no longer needs (R147, R304). -/
def dropCover (n : Nat) (s : State) : State :=
  match tget? s.model.covers n with
  | none => s
  | some c =>
    let s := { s with model := { s.model with covers := tset s.model.covers n { c with forced := false } } }
    if bankCovered s n then s else { s with model := { s.model with covers := tdel s.model.covers n } }

/-- The bank has fallen below the floor in a top-up run: the run goes ahead as a floor top-up (R243, R296). -/
def floorNow (n : Nat) (s : State) : State :=
  modBank n (fun b => { b with ops := b.ops.map fun o => if o.run then { o with floor := true } else o })
    (modSched n (fun d => { d with run := d.run.map fun r => { r with floor := true } }) s)

/-- Set the due bits of a bank (R296), and end a forced cover whose work is done (R304). -/
def refreshDue (n : Nat) (s : State) : State :=
  let t := topupDue s n || floorDue s n
  let f := floorDue s n
  let s := noteFloor n (modSched n (fun d =>
    let d := stampDue (poweredS s) { d with dueTopup := t, dueFloor := f }
    { d with dueForced := d.dueForced && overdue s d }) s)
  let s := if f && (schedOf s n).run.any fun r => !r.floor then floorNow n s else s
  if (schedOf s n).dueForced then s else dropCover n s

/-- Activate the pending configuration (R453); where the strict-mode bit moves, every placed bank changes class at once
(R293, R108). -/
def activateNow (s : State) : State :=
  let t := activateConfig s
  if strictOn t == strictOn s then t else (placedBanks t).foldl (fun t n => refreshDue n t) t

/-! ## Symptoms of wear (R315) -/

/-- The event of a symptom: it names the bank, and the symptom in bits [31:24] of UNIT. -/
def symptomEvent (n k : Nat) (s : State) : State := raise .wearSymptom 1 (n + k * 2 ^ 24) s

/-- Set or clear one symptom, with an event when it is gained. -/
def setSymptom (n k : Nat) (was now : Bool) (put : Sched → Sched) (s : State) : State :=
  let s := modSched n put s
  if now && !was then symptomEvent n k s else s

/-- Refresh the symptoms of a bank (R315). DESIGN CHOICE (notes/assumptions/36.md): the rule speaks of the last 8 top-ups: with fewer
TOPUP_RATE stays as it is. -/
def refreshSymptoms (n : Nat) (s : State) : State :=
  let b := bankOf s n
  let d := schedOf s n
  let full := d.rates.length = 8
  let rate := if full && d.rates.sum < 8 * 500 then true else if full && 8 * 700 < d.rates.sum then false else d.symRate
  let mis := decide (dictNum s (ob 0x8008 1) ≤ d.reruns.sum)
  let spares := d.symSpares || decide (sparesFree b ≤ dictNum s (ob 0x8009 1))
  let s := setSymptom n 1 d.symRate rate (fun d => { d with symRate := rate }) s
  let s := setSymptom n 3 d.symMismatch mis (fun d => { d with symMismatch := mis }) s
  let s := setSymptom n 4 d.symSpares spares (fun d => { d with symSpares := spares }) s
  modSched n (fun d => { d with symPastLife := decide (30000 ≤ b.wear) }) s

/-- Count one re-run of R103 on a bank (R315). -/
def countRerun (n : Nat) (s : State) : State :=
  refreshSymptoms n (modSched n (fun d =>
    { d with reruns := match d.reruns with | [] => [1] | k :: t => (k + 1) :: t }) s)

/-- The margin after a top-up (R297, R315). -/
def setPostMargin (n m : Nat) (s : State) : State :=
  let low := decide (m < dictNum s (ob 0x8007 1))
  let was := (schedOf s n).symMargin
  setSymptom n 2 was low (fun d => { d with postMargin := m, symMargin := low, afterTopup := false }) s

/-! ## Plans and adapters in use (R149, R222, R245, R252) -/

/-- The plan of a slot's generation (R245, R252). -/
def planOf (s : State) (slot : Nat) (gen : BitVec 16) : Option LastPlan :=
  let sl := slotOf s slot
  if sl.oldGen = some gen then sl.oldPlan else sl.plan

/-- The places of a slot's generation (R252). -/
def placesOf (s : State) (slot : Nat) (gen : BitVec 16) : List Placed :=
  let sl := slotOf s slot
  if sl.oldGen = some gen then sl.oldPlaces else sl.places

def layerOf (p : LastPlan) (layer : Nat) : Option LayerPlan := p.layers.find? fun y => y.layer = layer

/-- The plan of a launch. -/
def launchPlan (s : State) (x : Launch) : Option LastPlan := planOf s x.slot x.gen

/-- The adapter slot that a context names (R149, R222). -/
def ctxAdapterSlot (s : State) (ctx : Nat) : Option Nat :=
  let r := ctxRecord s ctx
  if bitAt (fld r 6 2) 0 then some (fld r 0x18 4) else none

/-- The adapter of a context (R149, R222). -/
def ctxAdapter (s : State) (ctx : Nat) : Option Adapter := (ctxAdapterSlot s ctx).bind fun k => tget? s.model.adapters k

/-! ## Idle banks and covered banks (R72, R147, R306) -/

/-- The bank is computing: from the moment a thread queues a group on it until that group's t4 (R72, R306). -/
def bankComputing (s : State) (n : Nat) : Bool :=
  let i := islandOf s (bankIsland n)
  (i.threads.any fun t => t.2.works.any fun w => w.bank = n && w.groups ≠ []) ||
    (i.pulses.any fun p => p.2.bank = n && !p.2.ended)

/-- A compute cycle runs or waits on one of the array's two banks: the converters' time is claimed (R71). -/
def convertersClaimed (s : State) (n : Nat) : Bool := bankComputing s n || bankComputing s (sister n)

/-- The slices of a step's embedding table that hold the indexed row (R148). -/
def lookupSlices (p : LastPlan) (slices : List Nat) (idx : Nat) : List SliceRec :=
  p.slices.filter fun r => slices.contains r.slice && r.rowBlock = idx / 1024

/-- The banks of slices of a launch. -/
def sliceBanks (s : State) (x : Launch) (slices : List Nat) : List Nat :=
  ((placesOf s x.slot x.gen).filter fun p => slices.contains p.slice).map fun p => p.bank

/-- A cover copy holds every row of the bank, none of it poisoned: no read goes to the bank itself (R147, R330). -/
def copied (s : State) (n : Nat) : Bool :=
  ((tget? s.model.covers n).map fun c =>
    c.slabs ≠ [] && c.missing = [] && !(c.slabs.any fun h => hPoison s.hbr (slabAddr h.toNat) 16384)).getD false

/-- The banks that a tile reads (R145, R147, R148, R150): not those whose rows it takes from a cover copy or the cache. -/
def tileBanks (s : State) (t : Tile) : List Nat :=
  match t.work with
  | .cover l slice _ _ _ _ => (((tget? s.model.launches l).map fun x => sliceBanks s x [slice]).getD []).filter fun n => !copied s n
  | .adapter _ ctx _ _ _ =>
    match ctxAdapterSlot s ctx, ctxAdapter s ctx with
    | some k, some a =>
      if s.model.cache.any fun e => e.1 = k && !(e.2.any fun h => hPoison s.hbr (slabAddr h.toNat) 16384) then []
      else (a.lines.map Prod.fst).eraseDups
    | _, _ => []
  | .step l _ input _ _ _ =>
    (((tget? s.model.launches l).bind fun x => (launchPlan s x).bind fun p => (layerOf p x.layer).map fun y =>
      match y.kind with
      | .lookup slices => (sliceBanks s x ((lookupSlices p slices (leNat input)).map fun r => r.slice)).filter fun n => !copied s n
      | _ => []).getD [])
  | .recompute _ => []

/-- A streaming or storage-tier read is outstanding on the bank (R306). -/
def bankStreaming (s : State) (n : Nat) : Bool :=
  s.clusters.any fun c => (c.2.recomputes.any fun r => r.2.bank = n) ||
    (c.2.current.toList ++ c.2.tiles).any fun t => (tileBanks s t).contains n

/-- Note that compute or a digital read of a bank has just ended (R306). -/
def noteUse (n : Nat) (s : State) : State := modBank n (fun b => { b with lastUse := some (tideOf s) }) s

/-- A bank is idle (R306). -/
def bankIdle (s : State) (n : Nat) : Bool :=
  !bankComputing s n && !bankStreaming s n &&
    match (bankOf s n).lastUse with
    | none => true
    | some t => decide (dictNum s (ob 0x8006 1) * 1000 ≤ (tideOf s - t).toNat)

/-- Both banks of an array are RETIRED after a permanent array fault (R331, R336). -/
def retireArray (array : Nat) (s : State) : State :=
  [2 * array, 2 * array + 1].foldl (fun s n =>
    if (bankOf s n).state == .retired then s else markRetired n s) s

/-- One failure of the array that holds a bank (R331, R336). -/
def arrayFailure (n : Nat) (s : State) : State :=
  let a := bankArray n
  let (s, perm) := countFailure .array a s
  if perm then retireArray a (permanentEvent .array a s) else s

/-- A line or row passed on a shifted re-read (R330, R341). -/
def nvRetried (s : State) : State := bump (ob 0x8046 1) s

/-- `k` lines or rows of a bank are poisoned (R331): each is counted, and is one failure of the bank's array. -/
def nvPoisoned (n k : Nat) (s : State) : State :=
  (List.range k).foldl (fun s _ => arrayFailure n (bump (ob 0x8047 1) s)) s

end Sys2Proof.Machine
end

