-- ==== Sys2Proof/Machine/Awl.lean ====
section
/-! DEFINITION. Awl (R262 to R291): the channels' unlock sequence, the command codes, bank operations with their pump
slots, and the completion FIFO. Choices of the model: notes/assumptions/22.md (DESIGN CHOICE), notes/assumptions/23.md
(DEDUCED). -/

namespace Sys2Proof.Machine

/-! ## Channels and their error bits (R264 to R270, R274) -/

/-- Bits of `Channel.errors`, AWL_STATUS [10:4]. -/
def errSeq : Nat := 0
def errState : Nat := 1
def errBusy : Nat := 2
def errRise : Nat := 3
def errLevel : Nat := 4
def errVerify : Nat := 5
def errPoison : Nat := 6

def setErr (c k : Nat) (s : State) : State :=
  modChan c (fun ch => { ch with errors := ch.errors ||| BitVec.ofNat 7 (2 ^ k) }) s

/-- A broken sequence or an unknown code: SEQ_ERR, the unlock state idle, counted (R266, R291). -/
def seqError (c : Nat) (s : State) : State :=
  bump (ob 0x8036 1) (setErr c errSeq (modChan c (fun ch => { ch with unlock := .idle }) s))

/-- The initiator is an application core (R262, R446). -/
def isCore (i : Initiator) : Bool := match i with | .core _ => true | _ => false

/-- An accepted command byte clears the error bits (R270); an operation is not yet done. -/
def acceptCmd (c : Nat) (done : Bool) (s : State) : State :=
  modChan c (fun ch => { ch with errors := 0, done }) s

/-- The bank that a channel selects (R264). -/
def selBank (s : State) (c : Nat) : Nat := bitsAt (chanOf s c).bankSel.toNat 19 0

/-- The third byte of the unlock sequence (R266): a command byte counts only after UNLOCK2. -/
def unlocked (i : Initiator) (c : Nat) (s : State) (k : State → State) : Res :=
  if !isCore i then .next (privDrop s)
  else if (chanOf s c).unlock == .unlock2 then .next (k (modChan c (fun ch => { ch with unlock := .idle }) s))
  else .next (seqError c s)

/-! ## Operations, pump slots and switches (R71, R243, R272) -/

/-- The code of an operation in AWL_STATUS.OP and the completion entry (R274, R288). -/
def opCode (k : AwlKind) : Nat :=
  match k with
  | .programRow => 1 | .programWord => 2 | .eraseBank => 3 | .topUpRow => 4 | .readRow => 5 | .readMargin => 6

/-- The operation needs a pump slot and the array's high-voltage switch (R272). -/
def opPumps (k : AwlKind) : Bool := match k with | .readRow => false | .readMargin => false | _ => true

/-- The operation is running: it has not stopped or not yet started. -/
def opRunning (o : AwlOp) : Bool := o.phase == .running || o.phase == .suspending

/-- The operation waits for resources (R272, R283). -/
def opWaiting (o : AwlOp) : Bool := o.phase == .queued || o.phase == .resuming

/-- A bank has an operation running (R269). -/
def bankRunning (s : State) (n : Nat) : Bool := (bankOf s n).ops.any opRunning

/-- The operation holds a pump slot and its array's switch (R272, R297). -/
def opHolds (o : AwlOp) : Bool := opPumps o.kind && (opRunning o || o.held)

/-- Pump slots in use (R243). -/
def slotsUsed (s : State) : Nat :=
  (s.banks.map fun b => (b.2.ops.filter opHolds).length).sum

/-- Completion entries held or reserved (R274, R288). -/
def entriesUsed (s : State) : Nat :=
  s.awl.fifo.length + (s.banks.map fun b => (b.2.ops.filter fun o => !(o.phase == .queued)).length).sum

/-- The array's high-voltage switch is free (R71). -/
def switchFree (s : State) (n : Nat) : Bool :=
  [n, sister n].all fun k => (bankOf s k).ops.all fun o => !opHolds o

/-- A bank is in a pulse cycle that has not reached t4 (R69). -/
def bankPulsing (s : State) (n : Nat) : Bool :=
  (islandOf s (bankIsland n)).pulses.any fun p => p.2.bank = n && !p.2.ended

/-- A waiting operation has its bank, its switch or its sense amplifiers (R69, R71, R272, R285). -/
def opReady (s : State) (n : Nat) (o : AwlOp) : Bool :=
  opWaiting o && !bankRunning s n &&
    (if opPumps o.kind then !s.awl.paused && (o.held || switchFree s n) else !bankPulsing s n)

/-- The slot order (R243): floor top-ups first, then the order of requests. -/
def slotBefore (a b : AwlOp) : Bool :=
  if a.floor == b.floor then decide (a.order < b.order) else a.floor

/-- Some other pump operation that is ready goes before `o` (R243). -/
def outranked (s : State) (o : AwlOp) : Bool :=
  s.banks.any fun b => b.2.ops.any fun p => opPumps p.kind && opReady s b.1 p && slotBefore p o

/-- The Harbour runs of an operation's row buffer (R274, R275). -/
def bufferRun (o : AwlOp) : Nat × Nat := (o.addr.toNat / 64 * 64 % 2 ^ 30, 512)

/-- A program whose row buffer lies in a segment in RET waits for it (R19, R166). -/
def bufferWaits (s : State) (o : AwlOp) : Bool :=
  o.kind == .programRow && o.phase == .queued && runWaits s (bufferRun o).1 (bufferRun o).2

/-- Wake the segment that a program's row buffer waits for (R166). -/
def bufferWake (o : AwlOp) (s : State) : State := if bufferWaits s o then runWake (bufferRun o).1 (bufferRun o).2 s else s

/-- A waiting operation may start now (R272). -/
def opMayStart (s : State) (n : Nat) (o : AwlOp) : Bool :=
  opReady s n o && !bufferWaits s o && (o.phase == .resuming || decide (entriesUsed s < 2048)) &&
    (!opPumps o.kind || o.held || (decide (slotsUsed s < 1536) && !outranked s o))

def modOp (n order : Nat) (f : AwlOp → AwlOp) (s : State) : State :=
  modBank n (fun b => { b with ops := b.ops.map fun o => if o.order = order then f o else o }) s

/-- Write the completion entry of an operation that ends (R288), with the error bits of its channel and its own, take it off the bank, and show its outcome to the
channel whose last operation it is (R274). -/
def endOp (n : Nat) (o : AwlOp) (errs : Nat) (s : State) : State :=
  let seen := (o.chan.map fun c => (chanOf s c.val).errors.toNat).getD 0
  let lo := n + opCode o.kind * 2 ^ 20 + (seen ||| errs) * 2 ^ 24 + 2 ^ 31
  let hi := (s.time.pll - o.started).toNat / 1000
  let s := modBank n (fun b => { b with ops := b.ops.filter fun p => p.order ≠ o.order }) s
  let s := { s with awl := { s.awl with fifo := s.awl.fifo ++ [(BitVec.ofNat 32 lo, BitVec.ofNat 32 hi)] } }
  let s := match o.chan with
    | some c =>
      if (chanOf s c.val).lastOp = some (n, o.order) then
        modChan c.val (fun ch => { ch with done := true, errors := ch.errors ||| BitVec.ofNat 7 errs }) s
      else s
    | none => s
  if bitAt s.awl.ctrl.toNat 0 then cause 0 s else s

/-! ## Starting an operation -/

/-- Replace `k` bits of a vector from bit `off`. -/
def putBits (vec off k v : Nat) : Nat :=
  vec - ((vec >>> off) % 2 ^ k) * 2 ^ off + (v % 2 ^ k) * 2 ^ off

/-- Words of a row's logical vector, and the valid bits of word w (R277). -/
def rowWords (storage : Bool) : Nat := if storage then 53 else 18
def wordBits (storage : Bool) (w : Nat) : Nat := if w + 1 = rowWords storage then 32 else 64

/-- The logical vector that a program leaves in its row (R275, R277). -/
def programVector (s : State) (b : Bank) (o : AwlOp) : Nat :=
  if o.kind = .programRow then
    vectorOfBuffer b.storageMode (harbRead s (bufferRun o).1 (bufferRun o).2)
  else
    putBits (rowVector b o.row.toNat) (64 * o.word.toNat) (wordBits b.storageMode o.word.toNat) o.wordData.toNat

/-- The physical cells before and after a program of vector `vec` (R275, R276). -/
def programCells (b : Bank) (row vec : Nat) : Nat × Nat :=
  if b.storageMode then
    let old := physLevels b row
    (old, physicalCells b 3 old vec)
  else
    let old := physRow b row
    (old, physOfLogical b old vec)

/-- The bits that R276 sets for a program: RISE_REJ and LEVEL_REJ. -/
def programErrors (storage : Bool) (old new : Nat) : Nat :=
  let rise := if rises old new then 2 ^ errRise else 0
  let level := if storage && levelFalls 1152 old new then 2 ^ errLevel else 0
  rise + level

/-- The bank as the first program leaves it (R279): PROGRAMMING, the polarity latched, the reference rows written. -/
def firstProgram (o : AwlOp) (b : Bank) : Bank :=
  if b.state == .erased then
    let b := { b with state := .programming, lastStorage := b.storageMode }
    if b.storageMode then b else withRefRows { b with polarity := o.polarity }
  else b

/-- Start a program: it ends at once where R276 rejects it. -/
def startProgram (n : Nat) (o : AwlOp) (s : State) : State :=
  let first := (bankOf s n).state == .erased
  let s := modSched n (fun d => { d with sealTested := false }) (modBank n (firstProgram o) s)
  let b := bankOf s n
  let vec := programVector s b o
  let (old, new) := programCells b o.row.toNat vec
  let errs := programErrors b.storageMode old new
  let o := { o with phase := .running, target := BitVec.ofNat 3456 new, started := s.time.pll, fromErased := first }
  let s := if o.kind == .programRow then touchRun 2336 (bufferRun o).1 (bufferRun o).2 s else s
  let s := modOp n o.order (fun _ => o) s
  if errs = 0 then s
  else
    let s := if bitAt errs errRise then bump (ob 0x8033 1) s else s
    let s := if bitAt errs errLevel then bump (ob 0x8034 1) s else s
    endOp n o errs s

/-- An erase that a boot restarts: its bank was found in ERASING (R77). -/
def eraseRestarts (s : State) (n : Nat) (o : AwlOp) : Bool :=
  o.kind == .eraseBank && o.chan.isNone && (bankOf s n).state == .erasing

/-- Start an erase (R74, R281): a suspended program of the bank is abandoned. -/
def startErase (n : Nat) (o : AwlOp) (s : State) : State :=
  let b := bankOf s n
  let again := eraseRestarts s n o
  let gone := b.ops.filter fun p => p.phase == .suspended && (p.kind == .programRow || p.kind == .programWord)
  let s := gone.foldl (fun s p => endOp n p 0 s) s
  let s := modOp n o.order (fun o =>
    { o with phase := .running, started := s.time.pll, fromErased := if again then o.fromErased else b.state == .erased,
             fromWorn := if again then o.fromWorn else b.state == .worn }) s
  setBankState n .erasing s

/-- The bank's state allows the operation (R268). -/
def opAllowed (st : BankState) (k : AwlKind) : Bool :=
  match k with
  | .programRow => st == .erased || st == .programming
  | .programWord => st == .erased || st == .programming
  | .eraseBank => st == .erased || st == .programming || st == .ready || st == .storage || st == .worn
  | .topUpRow => st == .ready || st == .storage || st == .worn
  | .readRow => !(st == .erasing)
  | .readMargin => st == .ready || st == .storage || st == .worn

/-- Start a queued operation, or go on with a resumed one (R272, R283). A queued operation that the bank's state no longer
allows ends with STATE_REJ. -/
def startOp (n : Nat) (o : AwlOp) (s : State) : State :=
  if o.phase == .resuming then
    let s := if o.kind = .eraseBank then setBankState n .erasing s else s
    modOp n o.order (fun o =>
      { o with phase := .running, suspendedFor := o.suspendedFor + (tideOf s - o.suspendedAt).toNat }) s
  else if !opAllowed (bankOf s n).state o.kind && !eraseRestarts s n o then endOp n { o with started := s.time.pll } (2 ^ errState) s
  else
    match o.kind with
    | .programRow => startProgram n o s
    | .programWord => startProgram n o s
    | .eraseBank => startErase n o s
    | _ => modOp n o.order (fun o => { o with phase := .running, held := false, started := s.time.pll }) s

/-- Queue an operation on a bank, and start it if it can start at once (R272). -/
def queueOp (n : Nat) (o : AwlOp) (s : State) : State :=
  let s := { s with awl := { s.awl with nextOrder := s.awl.nextOrder + 1 } }
  let s := modBank n (fun b => { b with ops := b.ops ++ [o] }) s
  if opMayStart s n o then startOp n o s else bufferWake o s

/-- An operation as a channel describes it (R274), or as Uzomel issues it on a channel that the spec leaves open. -/
def newOp (s : State) (kind : AwlKind) (chan : Option (Fin 8)) (row : Nat) (floor run : Bool) : AwlOp :=
  let ch := match chan with | some c => chanOf s c.val | none => {}
  { kind, chan, row := BitVec.ofNat 11 row, word := BitVec.ofNat 6 (bitsAt ch.row.toNat 21 16), wordData := ch.word,
    addr := ch.dataAddr, refShift := BitVec.ofNat 5 (bitsAt ch.arg.toNat 8 4), polarity := bitAt ch.arg.toNat 0,
    phase := .queued, order := s.awl.nextOrder, floor, fromErased := false, fromWorn := false, run, held := false, byFloor := false,
    target := 0, started := 0, suspendedAt := 0, suspendedFor := 0, starved := false }

/-- The row lies in the range of its command and mode (R268). -/
def rowAllowed (b : Bank) (k : AwlKind) (row : Nat) : Bool :=
  match k with
  | .topUpRow => row < (if b.storageMode then 1024 else 1032)
  | .readRow => row < (if b.storageMode then 1024 else 1032)
  | .eraseBank => true
  | _ => row < 1024

/-- An operation is suspended: it has stopped, and may wait to go on (R282, R283). -/
def opStopped (o : AwlOp) : Bool := o.phase == .suspended || o.phase == .resuming

/-- What a suspended operation of the bank leaves acceptable (R269). -/
def suspendAllows (b : Bank) (k : AwlKind) : Bool :=
  if b.ops.any fun o => opStopped o && o.kind ≠ .eraseBank then k == .readRow || k == .eraseBank
  else !(b.ops.any fun o => opStopped o && o.kind == .eraseBank) || k == .readRow

/-- A command that the bank's state does not allow sets STATE_REJ (R268); one on a bank with a running operation sets BUSY_REJ
(R269), each for itself. -/
def rejectBusy (c : Nat) (allowed : Bool) (s : State) : State := setErr c errBusy (if allowed then s else setErr c errState s)

/-- A command byte that starts an operation, after a complete unlock (R268, R269, R272). DESIGN CHOICE (notes/assumptions/23.md): the
spec does not say what AWL_RESULT holds between the acceptance of an operation and its end: the model clears it at acceptance. -/
def operationCmd (c : Fin 8) (k : AwlKind) (s : State) : State :=
  let n := selBank s c.val
  let ch := chanOf s c.val
  let b := bankOf s n
  let row := bitsAt ch.row.toNat 10 0
  let keyOk := bitsAt ch.arg.toNat 31 12 = 2 ^ 20 - 1 - n
  let wordOk := k ≠ .programWord || decide (bitsAt ch.row.toNat 21 16 < rowWords b.storageMode)
  if !bankExists s n then setErr c.val errState s
  else if b.ops.any opRunning then rejectBusy c.val (opAllowed b.state k) s
  else if k = .eraseBank && !keyOk then seqError c.val s
  else if !opAllowed b.state k || !rowAllowed b k row || !wordOk then setErr c.val errState s
  else if !suspendAllows b k then setErr c.val errBusy s
  else
    let o := newOp s k (some c) row false false
    let s := acceptCmd c.val false s
    let s := modChan c.val (fun ch => { ch with lastOp := some (n, o.order), resCells := 0, resMargin := 0, resThresh := 0 }) s
    queueOp n o s

/-- PROGRAM_ROW (R268, R275, R276, R279). -/
def execProgramRow (i : Initiator) (ch : Fin 8) (s : State) : Res := unlocked i ch.val s (operationCmd ch .programRow)

/-- PROGRAM_WORD (R268, R276, R277, R279). -/
def execProgramWord (i : Initiator) (ch : Fin 8) (s : State) : Res := unlocked i ch.val s (operationCmd ch .programWord)

/-- ERASE_BANK (R268, R281). -/
def execEraseBank (i : Initiator) (ch : Fin 8) (s : State) : Res := unlocked i ch.val s (operationCmd ch .eraseBank)

/-- TOP_UP_ROW (R268, R280). -/
def execTopUpRow (i : Initiator) (ch : Fin 8) (s : State) : Res := unlocked i ch.val s (operationCmd ch .topUpRow)

/-- READ_ROW (R268, R286). -/
def execReadRow (i : Initiator) (ch : Fin 8) (s : State) : Res := unlocked i ch.val s (operationCmd ch .readRow)

/-- READ_MARGIN (R268, R287). -/
def execReadMargin (i : Initiator) (ch : Fin 8) (s : State) : Res := unlocked i ch.val s (operationCmd ch .readMargin)

/-! ## Commands that start no operation (R270, R271, R288, R289) -/

/-- A command byte that changes the bank's record at once: rejected by range, by R269 or by state. -/
def stateCmd (c : Fin 8) (ok : Bank → Bool) (f : Nat → State → State) (s : State) : State :=
  let n := selBank s c.val
  let b := bankOf s n
  if !bankExists s n then setErr c.val errState s
  else if b.ops.any opRunning then rejectBusy c.val (ok b) s
  else if !ok b then setErr c.val errState s
  else if b.ops.any opStopped then setErr c.val errBusy s
  else f n (acceptCmd c.val true s)

/-- Set the mode of an ERASED bank (R70, R289). -/
def setMode (storage : Bool) (n : Nat) (s : State) : State :=
  modBank n (fun b => { b with storageMode := storage, polarity := false }) s

/-- SET_COMPUTE_MODE (R70, R289). -/
def execSetComputeMode (i : Initiator) (ch : Fin 8) (s : State) : Res :=
  unlocked i ch.val s (stateCmd ch (fun b => b.state == .erased) (setMode false))

/-- SET_STORAGE_MODE (R70, R289). -/
def execSetStorageMode (i : Initiator) (ch : Fin 8) (s : State) : Res :=
  unlocked i ch.val s (stateCmd ch (fun b => b.state == .erased) (setMode true))

/-- The row, and the cell of that row, that third `k` shares with the third below it (R39, R67, R239). -/
def sharedRow (k : Nat) : Nat := if k = 1 then 341 else 682

/-- Write cell `r` of storage row `r`. -/
def setShared (r v : Nat) (b : Bank) : Bank :=
  setLevels r (physicalCells b 3 (physLevels b r) (putBits (storageRow b r) (3 * r) 3 v)) b

/-- The upper third of a shared cell has come first: the cell stays erased and its bits wait, since a cell can be programmed to a
higher level only (R39). -/
def holdShared (r : Nat) (b : Bank) : Bank :=
  let v := (storageRow b r >>> (3 * r)) % 8
  { setShared r 7 b with split := b.split ++ [(r, v)] }

/-- Program a shared cell whose bits waited: each third brings its own, and has left the other's at 1. -/
def freeShared (r : Nat) (b : Bank) : Bank :=
  match b.split.find? fun e => e.1 = r with
  | none => b
  | some e => { setShared r (((storageRow b r >>> (3 * r)) % 8) &&& e.2) b with split := b.split.erase e }

/-- Program every shared cell that still waits: no lower third is to come. -/
def freeAllShared (b : Bank) : Bank := freeShared 682 (freeShared 341 b)

/-- Seal a bank (R66, R74, R289, R294): READY or STORAGE by its mode, WORN below 4 free spares; drift age 0. -/
def sealNow (n : Nat) (s : State) : State :=
  let b := bankOf s n
  let s := if b.split = [] then s else modBank n freeAllShared s
  let s := modSched n (fun d => { d with drift := 0, sealFails := 0, sealTested := false }) s
  refreshDue n (if sparesFree b < 4 then markWorn n s else setBankState n (if b.storageMode then .storage else .ready) s)

/-- MARK_BANK's states (R268, R271): MARK_STATE 6 or 7. -/
def markAllowed (mark : Nat) (b : Bank) : Bool :=
  (mark = 6 && (b.state == .ready || b.state == .storage)) ||
    (mark = 7 && (b.state == .programming || b.state == .ready || b.state == .storage || b.state == .worn))

/-- MARK_BANK's effect (R271). -/
def markCmd (c : Fin 8) (s : State) : State :=
  let mark := bitsAt (chanOf s c.val).arg.toNat 3 1
  stateCmd c (markAllowed mark) (if mark = 6 then markWorn else markRetired) s

/-- MARK_BANK (R271). -/
def execMarkBank (i : Initiator) (ch : Fin 8) (s : State) : Res := unlocked i ch.val s (markCmd ch)

/-- A command that acts on the channel alone: a bank number out of range still sets STATE_REJ (R268, R270). -/
def channelCmd (c : Fin 8) (f : Channel → Channel) (s : State) : State :=
  if !bankExists s (selBank s c.val) then setErr c.val errState s else modChan c.val f (acceptCmd c.val true s)

/-- READ_STATUS (R270). -/
def execReadStatus (i : Initiator) (ch : Fin 8) (s : State) : Res :=
  unlocked i ch.val s (channelCmd ch fun c => { c with statusMode := true })

/-- RESET_TO_READ (R270). -/
def execResetToRead (i : Initiator) (ch : Fin 8) (s : State) : Res :=
  unlocked i ch.val s (channelCmd ch fun c => { c with statusMode := false })

/-! ## The bank selection, SUSPEND and RESUME (R266, R267) -/

/-- A core's write of AWL_BANK_SEL (R266, R274): it breaks a sequence in progress. -/
def bankSelWrite (c : Nat) (value : BitVec 32) (s : State) : State :=
  let s := if (chanOf s c).unlock == .idle then s else seqError c s
  modChan c (fun x => { x with bankSel := value }) s

/-- AWL_BANK_SEL (R266, R274). -/
def execAwlBankSelWrite (i : Initiator) (ch : Fin 8) (value : BitVec 32) (s : State) : Res :=
  if !isCore i then .next (privDrop s) else .next (bankSelWrite ch.val value s)

/-- SUSPEND (R267, R282): an erase or a program stops at its next pulse boundary. -/
def suspendBank (n : Nat) (byFloor : Bool) (s : State) : State :=
  modBank n (fun b => { b with ops := b.ops.map fun o =>
    if o.phase == .running && (o.kind == .eraseBank || o.kind == .programRow || o.kind == .programWord) then
      { o with phase := .suspending, byFloor } else o }) s

/-- A command on a bank number that the part does not have sets STATE_REJ (R268). -/
def noSuchBank (c : Nat) (s : State) : State := if bankExists s (selBank s c) then s else setErr c errState s

/-- SUSPEND (R267, R282): it acts on the operation of the selected bank and needs no unlock sequence. -/
def suspendByte (c : Nat) (s : State) : State :=
  suspendBank (selBank s c) false (noSuchBank c (modChan c (fun x => { x with unlock := .idle }) s))

/-- SUSPEND (R267, R282). -/
def execSuspend (i : Initiator) (ch : Fin 8) (s : State) : Res :=
  if !isCore i then .next (privDrop s)
  else .next (suspendByte ch.val s)

/-- Resume a bank's suspended operation, at once if its resources are free (R283). -/
def resumeBank (n : Nat) (s : State) : State :=
  match (bankOf s n).ops.find? fun o => o.phase == .suspended with
  | none => s
  | some o =>
    let s := modOp n o.order (fun o => { o with phase := .resuming, byFloor := false }) s
    let o := { o with phase := .resuming, byFloor := false }
    if opMayStart s n o then startOp n o s else s

/-- RESUME (R267, R283): it acts on the operation of the selected bank and needs no unlock sequence. -/
def resumeByte (c : Nat) (s : State) : State :=
  resumeBank (selBank s c) (noSuchBank c (modChan c (fun x => { x with unlock := .idle }) s))

/-- RESUME (R267, R283). -/
def execResume (i : Initiator) (ch : Fin 8) (s : State) : Res :=
  if !isCore i then .next (privDrop s)
  else .next (resumeByte ch.val s)

/-- AWL_WIDE_WRITE (R265): a write wider than one byte is not interpreted. -/
def execAwlWideWrite (i : Initiator) (ch : Fin 8) (_offset : BitVec 12) (s : State) : Res :=
  if !isCore i then .next (privDrop s) else .next (seqError ch.val s)

/-- SUSPEND_TAKES_EFFECT (R282): the operation has stopped; the switch and the slot are free. -/
def execSuspendTakesEffect (bank : Nat) (s : State) : Res :=
  if !bankExists s bank then .fault .absentUnit
  else match (bankOf s bank).ops.find? fun o => o.phase == .suspending with
    | none => .next s
    | some o =>
      let s := modOp bank o.order (fun o => { o with phase := .suspended, suspendedAt := tideOf s, starved := o.starved }) s
      let s := if o.kind = .eraseBank then setBankState bank .eraseSuspended s else s
      .next (bump (ob 0x8032 1) s)

/-- ERASE_STARVATION (R284): the suspended time of an erase has passed `awl.erase_starvation_ms`. -/
def execEraseStarvation (bank : Nat) (s : State) : Res :=
  if !bankExists s bank then .fault .absentUnit
  else match (bankOf s bank).ops.find? fun o => o.kind == .eraseBank && !(o.phase == .queued) with
    | none => .next s
    | some o =>
      let now := if o.phase == .suspended || o.phase == .resuming then (tideOf s - o.suspendedAt).toNat else 0
      if !o.starved && decide (dictNum s (ob 0x8030 1) * 1000000 < o.suspendedFor + now) then
        let s := modOp bank o.order (fun o => { o with starved := true }) s
        .next (bump (ob 0x8031 1) (raise .eraseStarved 1 bank s))
      else .next s

/-- A core's read of AWL_CPL_LO (R288, R450): the oldest entry leaves the FIFO; its high half goes to the core's shadow. -/
def popCpl (i : Initiator) (n : Nat) (s : State) : State :=
  let key := n * 2 ^ 24 + 0x608400
  let (lo, hi, rest) := match s.awl.fifo with
    | [] => ((0 : BitVec 32), (0 : BitVec 32), [])
    | e :: t => (e.1, e.2, t)
  let s := { s with awl := { s.awl with fifo := rest } }
  let s := { s with regs := { s.regs with shadows := tset s.regs.shadows key hi } }
  send (.regData i (lo.setWidth 64)) s

/-- AWL_CPL_POP (R288, R450). -/
def execAwlCplPop (i : Initiator) (s : State) : Res :=
  match i with
  | .core n => .next (popCpl i n.val s)
  | _ => .next (send (.regData i 0) s)

/-! ## Registers (R265, R274) -/

/-- AWL_STATUS of a channel (R274): QUEUED shows its own last operation, and a resumed operation of the selected bank that waits
(R283). DESIGN CHOICE (notes/assumptions/23.md): while it waits SUSPENDED reads 0; the spec does not say. -/
def awlStatus (s : State) (c : Nat) : Nat :=
  let ch := chanOf s c
  let n := selBank s c
  let b := bankOf s n
  let run := b.ops.find? opRunning
  let queued := match ch.lastOp with
    | some (k, order) => (bankOf s k).ops.any fun o => o.order = order && opWaiting o
    | none => false
  let resumes := b.ops.any fun o => o.phase == .resuming
  let opField := match run with | some o => opCode o.kind | none => 0
  let rowField := match run with | some o => if o.kind = .eraseBank then 0 else o.row.toNat | none => 0
  b2n run.isSome + 2 * b2n (b.ops.any fun o => o.phase == .suspended) + 4 * b2n (queued || resumes) + 8 * b2n ch.done +
    16 * ch.errors.toNat + 2 ^ 11 * b2n ch.statusMode + 2 ^ 12 * opField + 2 ^ 16 * rowField +
    2 ^ 27 * bankCode b.state + 2 ^ 30 * b2n b.storageMode + 2 ^ 31 * b2n b.polarity

/-- AWL_RESULT of a channel (R274). -/
def awlResult (s : State) (c : Nat) : Nat :=
  let ch := chanOf s c
  ch.resMargin.toNat + 2 ^ 10 * ch.resThresh.toNat + 2 ^ 16 * ch.resCells.toNat

/-- AWL_SLOTS (R274). -/
def awlSlots (s : State) : Nat := slotsUsed s + 2 ^ 16 * entriesUsed s

/-- A read of a command window (R265). -/
def windowRead (s : State) (c : Nat) : Nat := if (chanOf s c).statusMode then awlStatus s c else 0

/-! ## Starting and ending operations -/

/-- AWL_OP_START (R243, R272, R283): the first waiting operation of the bank that may start. -/
def execAwlOpStart (bank : Nat) (s : State) : Res :=
  if !bankExists s bank then .fault .absentUnit
  else match (bankOf s bank).ops.find? fun o => opMayStart s bank o with
    | none => .next ((bankOf s bank).ops.foldl (fun s o => bufferWake o s) s)
    | some o => .next (startOp bank o s)

/-- The logical rows that a bank holds, with row `row` taken as `vec`: the rows that are programmed again (R308). -/
def heldRows (b : Bank) (row vec : Nat) : List (Nat × Nat) :=
  let rows := if b.storageMode then tkeys b.levels else tkeys b.cells
  (insertUp row rows).map fun r => (r, if r = row then vec else rowVector b r)

/-- Program logical rows again from their row buffers (R275, R308). -/
def programAgain (rows : List (Nat × Nat)) (b : Bank) : Bank :=
  rows.foldl (fun b e =>
    let (_, new) := programCells b e.1 e.2
    if b.storageMode then setLevels e.1 new b else setPhysRow e.1 new b) b

/-- SPARE_REMAP (R308): each failing column goes to a free spare and every row is programmed again; where no spare is
free, the bank is RETIRED from PROGRAMMING. -/
def spareRemap (n row vec : Nat) (cols : List Nat) (s : State) : State :=
  let b := bankOf s n
  let rows := heldRows b row vec
  let (b', ok) := remapColumns cols b
  if ok then refreshSymptoms n (modBank n (fun _ => programAgain rows b') s)
  else markRetired n (modBank n (fun _ => b') s)

/-- What a cell that did not reach its verify level reads as (R278): the charge that it has reached lies between the old
and the new content, at a place that `v` chooses freely. -/
def weakCell (k old new v : Nat) : Nat :=
  if k = 3 then
    let x := grayLevel old
    grayCode (x + v % (grayLevel new + 1 - x))
  else if v % 2 = 1 then new else old

/-- Cells that did not reach their verify level hold free values between the old and the new content (R278). -/
def weakCells (k old new : Nat) : List Nat → State → Nat × State
  | [], s => (new, s)
  | c :: t, s =>
    let (v, s) := takeFree s
    let (row, s) := weakCells k old new t s
    (setCell k c (weakCell k (getCell k c old) (getCell k c new) v) row, s)

/-- Reference cells that did not reach their verify level hold free values (R278, R279). -/
def weakRefs (n : Nat) : List (Fin 8 × Nat) → State → State
  | [], s => s
  | e :: t, s =>
    let (v, s) := takeFree s
    let b := bankOf s n
    let row := 1024 + e.1.val
    let c := mappedCol b e.2
    let phys := physRow b row
    weakRefs n t (modBank n (fun b => setPhysRow row (setCell 1 c (weakCell 1 1 (getCell 1 c phys) v) phys) b) s)

/-- A program ends (R278, R308): a column that is listed again fails on the spare that it was moved to. -/
def endProgram (n : Nat) (o : AwlOp) (r : OpEnd) (s : State) : State :=
  let b := bankOf s n
  let k := if b.storageMode then 3 else 1
  let vec := if b.storageMode then logicalCells b 3 o.target.toNat else
    (let bits := logicalCells b 1 (o.target.toNat % 2 ^ 1152); if b.polarity then 2 ^ 1120 - 1 - bits else bits)
  let old := if b.storageMode then physLevels b o.row.toNat else physRow b o.row.toNat
  let fails := r.failing.filter fun c => decide (c < 1120)
  let refs := if o.fromErased && !b.storageMode then r.refFailing.eraseDups.filter fun e => decide (e.2 < 1120) else []
  let cols := fails.eraseDups
  let (cells, s) := weakCells k old o.target.toNat (cols.map (mappedCol b)) s
  let put := fun b => if b.storageMode then setLevels o.row.toNat cells b else setPhysRow o.row.toNat (cells % 2 ^ 1152) b
  let s := weakRefs n refs (modBank n put s)
  if cols = [] && refs = [] then endOp n o 0 s
  else
    let s := match o.chan with
      | some c => modChan c.val (fun ch => { ch with resCells := BitVec.ofNat 11 (cols.length + refs.length) }) s
      | none => s
    let s := spareRemap n o.row.toNat vec (fails ++ (refs.map fun e => e.2).filter fun c => !fails.contains c)
      (endOp n o (2 ^ errVerify) (bump (ob 0x8035 1) s))
    if (bankOf s n).state == .programming && refs ≠ [] then modBank n withRefRows s else s

/-- An erase ends (R74, R78, R281). -/
def endErase (n : Nat) (o : AwlOp) (s : State) : State :=
  let b := bankOf s n
  let b := { b with wear := b.wear + wearOf b o.fromErased, cells := [], levels := [], thirds := [], split := [],
                    state := if o.fromWorn then .retired else .erased }
  let s := endOp n o 0 (modBank n (fun _ => b) s)
  let s := if o.fromWorn then raise .throughputFall 1 n (raise .bankRetired 1 n s) else s
  refreshSymptoms n s

/-- The row that a read delivers, and whether it is poisoned (R286). -/
def readOut (n : Nat) (row : Nat) (s : State) : Nat × Bool × State :=
  let b := bankOf s n
  let ones := if b.storageMode then 2 ^ 3360 - 1 else 2 ^ 1120 - 1
  let cut := b.ops.any fun p =>
    opStopped p && (p.kind == .programRow || p.kind == .programWord) && p.row.toNat = row
  if b.state == .erased then (ones, false, s)
  else if b.state == .eraseSuspended then (ones, true, s)
  else if cut then
    let (v, s) := takeFree s
    (v % (ones + 1), true, s)
  else (rowVector b row, false, s)

/-- A digital read ends (R275, R286). -/
def endRead (n : Nat) (o : AwlOp) (s : State) : State :=
  let b := bankOf s n
  let (vec, bad, s) := readOut n o.row.toNat s
  let parts := bufferParts b.storageMode vec
  let a := (bufferRun o).1
  let s := storeRun 2336 (a + 0x180) parts.2 bad (storeRun 2336 a parts.1 bad s)
  noteUse n (endOp n o (if bad then 2 ^ errPoison else 0) s)

/-- A margin read ends (R287). -/
def endMargin (n : Nat) (o : AwlOp) (r : OpEnd) (s : State) : State :=
  let s := match o.chan with
    | some c => modChan c.val (fun ch => { ch with resMargin := BitVec.ofNat 10 (marginOfSteps r.steps), resThresh := if (bankOf s n).storageMode then r.thresh else 0 }) s
    | none => s
  noteUse n (endOp n o 0 s)

/-- The last row of a bank's top-up run (R297). -/
def lastRow (b : Bank) : Nat := if b.storageMode then 1023 else 1031

/-- TOPUP_RUN_END (R294, R297, R305): drift age 0, the counters and stamps, and a program or erase that the run
suspended on the sister bank goes on. -/
def endRun (n : Nat) (run : Run) (s : State) : State :=
  let s := modSched n (fun d =>
    { d with drift := 0, run := none, rates := (run.permille :: d.rates).take 8, afterTopup := true, dueKs := true
             topupPcycle := BitVec.ofNat 32 (pcycleOf s), topupTide := tideOf s, dueTopup := false, dueFloor := false }) s
  let s := bump (ob 0x8011 1) (if run.floor then bump (ob 0x8013 1) s else s)
  let s := refreshSymptoms n s
  if (bankOf s (sister n)).ops.any fun o => o.byFloor then resumeBank (sister n) s else s

/-- A top-up row ends (R280, R297, R305): the next row follows, unless the run has been preempted or is at its end. -/
def endTopUp (n : Nat) (o : AwlOp) (r : OpEnd) (s : State) : State :=
  let s := match o.chan with
    | some c => modChan c.val (fun ch => { ch with resCells := BitVec.ofNat 11 r.pulsed }) s
    | none => s
  let s := endOp n o 0 (bumpBy (ob 0x8037 1) r.pulsed s)
  if !o.run then s
  else match (schedOf s n).run with
    | none => s
    | some run =>
      if lastRow (bankOf s n) ≤ o.row.toNat then endRun n run s
      else
        let next := o.row.toNat + 1
        let s := modSched n (fun d => { d with run := some { run with next } }) s
        if run.preempted then
          (if (bankOf s (sister n)).ops.any fun o => o.byFloor then resumeBank (sister n) s else s)
        else
          let full := decide (2048 ≤ entriesUsed s)
          let ph : OpPhase := if full then .queued else .running
          let p := { newOp s .topUpRow none next run.floor true with order := o.order, started := s.time.pll, phase := ph, held := full }
          modBank n (fun b => { b with ops := b.ops ++ [p] }) s

/-- AWL_OP_COMPLETE (R288): the running operation of a bank ends; while pulses are paused no pulse operation ends (R285). -/
def execAwlOpComplete (bank : Nat) (r : OpEnd) (s : State) : Res :=
  if !bankExists s bank then .fault .absentUnit
  else match (bankOf s bank).ops.find? opRunning with
    | none => .next s
    | some o =>
      if s.awl.paused && opPumps o.kind then .next s
      else match o.kind with
        | .programRow => .next (endProgram bank o r s)
        | .programWord => .next (endProgram bank o r s)
        | .eraseBank => .next (endErase bank o s)
        | .topUpRow => .next (endTopUp bank o r s)
        | .readRow =>
          if runWaits s (bufferRun o).1 (bufferRun o).2 then .next (runWake (bufferRun o).1 (bufferRun o).2 s)
          else .next (endRead bank o s)
        | .readMargin => .next (endMargin bank o r s)

/-- Release a bank for erase: the erase runs under Awl (R243, R272). A bank that is erased already is simply free. -/
def releaseBank (n : Nat) (s : State) : State :=
  let s := modBank n (fun b => { b with owners := [], reserved := false }) s
  let s := { s with model := { s.model with covers := tdel s.model.covers n } }
  let b := bankOf s n
  if opAllowed b.state .eraseBank && !(b.state == .erased) then queueOp n (newOp s .eraseBank none 0 false false) s else s

end Sys2Proof.Machine
end

