-- ==== Sys2Proof/Machine/Placer.lean ====
section
/-! DEFINITION. The placer (R205 to R213): which banks may take a slice, the swap reserve, the order in which spill groups are
spilled, the choice itself. Choices of the model: notes/assumptions/28.md (DEDUCED). -/

namespace Sys2Proof.Machine

/-! ## Banks that may take a slice (R205) -/

/-- An island may receive new slices (R205): the limit `plc.hot_island_c` is in °C, the monitor counts 0.25 °C above −40 °C. -/
def islandOpen (s : State) (i : Nat) : Bool :=
  !(islandOf s i).quarantined && !(domState s i == .failed) && decide (islandTj s i ≤ 4 * (dictNum s (ob 0x7014 1) + 40))

/-- Nothing has placed, reserved or begun to use a bank, and it is ERASED. -/
def bankFree (b : Bank) : Bool := b.state == .erased && b.owners = [] && !b.reserved && b.ops = []

/-- A bank may receive a slice or a piece (R205, R209): ERASED, unplaced, on an island that takes new slices, and not `from_`. -/
def targetOk (s : State) (from_ to_ : Nat) : Bool :=
  bankExists s to_ && to_ ≠ from_ && !systemBank to_ && bankFree (bankOf s to_) && islandOpen s (bankIsland to_)

/-- At or above the margin guard, for exact-class work (R205). -/
def guardOk (s : State) (n : Nat) : Bool := decide (dictNum s (ob 0x7013 1) ≤ (bankOf s n).margin)

/-- Past its endurance (R78, R205). -/
def pastLife (s : State) (n : Nat) : Bool := decide (30000 ≤ (bankOf s n).wear)

/-- A bank of full spares and no wear: none is preferred to it (R205). -/
def bankPerfect (s : State) (n : Nat) : Bool := (bankOf s n).wear = 0 && sparesFree (bankOf s n) = 32

/-- Bank `a` is preferred to bank `b` (R205): not past its endurance, more free spares, fewer wear units. -/
def bankBetter (s : State) (a b : Nat) : Bool :=
  let x := bankOf s a
  let y := bankOf s b
  if pastLife s a != pastLife s b then pastLife s b
  else decide (sparesFree y < sparesFree x) || (sparesFree x = sparesFree y && decide (x.wear < y.wear))

/-- The first number from `k` on that satisfies `p`, among `fuel` of them. -/
def scanUp (p : Nat → Bool) : Nat → Nat → Option Nat
  | 0, _ => none
  | fuel + 1, k => if p k then some k else scanUp p fuel (k + 1)

/-- The preferred bank among those that satisfy `p`, the lowest number on a tie: a bank that the state does not list is
perfect. -/
def bestBank (s : State) (p : Nat → Bool) : Option Nat :=
  match scanUp (fun n => p n && bankPerfect s n) (nBanks s) 0 with
  | some n => some n
  | none => (tkeys s.banks).foldl (fun best n =>
    if !(bankExists s n && p n) then best
    else match best with
      | some b => if bankBetter s n b then some n else best
      | none => some n) none

/-- The preferred bank of the first test that some bank meets. -/
def bestOf (s : State) : List (Nat → Bool) → Option Nat
  | [] => none
  | p :: t => match bestBank s p with
    | some n => some n
    | none => bestOf s t

/-! ## The swap reserve (R207) -/

/-- The banks of the swap reserve (R207): the share of the banks that are neither WORN nor RETIRED, rounded up. -/
def reserveBanks (s : State) : Nat :=
  let out := (s.banks.filter fun e => e.2.state == .worn || e.2.state == .retired).length
  ceilDiv (dictNum s (ob 0x7010 1) * (nBanks s - out)) 100

/-- ERASED banks that nothing has placed or reserved. -/
def freeBanks (s : State) : Nat :=
  nBanks s - (s.banks.filter fun e => !(e.2.state == .erased) || e.2.owners ≠ [] || e.2.reserved || systemBank e.1).length

/-! ## Slices, groups and islands of a choice -/

/-- A slice is marked NO_SPILL (R200). -/
def sliceNoSpill (r : SliceRec) : Bool := r.flags.getLsbD 2

def recOf (p : LastPlan) (slice : Nat) : Option SliceRec := p.slices.find? fun r => r.slice = slice

/-- The slices of a spill group. -/
def groupSlices (p : LastPlan) (g : Nat) : List SliceRec := p.slices.filter fun r => r.spillGroup = g

/-- The banks that a choice takes, rising. -/
def choiceBanks (l : List Placed) : List Nat := l.foldl (fun a q => insertUp q.bank a) []

/-- The islands of a choice's compute-mode slices. -/
def choiceIslands (l : List Placed) : List Nat :=
  (l.filter fun q => !q.spill).foldl (fun a q => insertUp (bankIsland q.bank) a) []

/-- Slots whose island sets overlap the given islands (R208). -/
def overlapSlots (s : State) (slot : Nat) (islands : List Nat) : List Nat :=
  ((s.model.slots.filter fun e => e.1 ≠ slot && !(e.2.state == .free)).map Prod.fst).filter fun n =>
    (islandSet s n).any fun i => islands.contains i

/-- Islands of the other slots' island sets (R208); `bound` keeps those of BOUND slots only. -/
def othersIslands (s : State) (slot : Nat) (bound : Bool) : List Nat :=
  (s.model.slots.filter fun e => e.1 ≠ slot && !(e.2.state == .free) && (!bound || e.2.state == .bound)).flatMap fun e =>
    islandSet s e.1

/-- Spill groups that a choice spills. -/
def spilledGroups (p : LastPlan) (l : List Placed) : List Nat :=
  (p.slices.filter fun r => l.any fun q => q.slice = r.slice && q.spill).foldl (fun g r => insertUp r.spillGroup g) []

/-! ## What fits (R204, R211, R212) -/

/-- Islands that take new slices, among those that `on` names. -/
def openIslands (s : State) (on : Nat → Bool) : List Nat := (List.range (nIslands s)).filter fun i => on i && islandOpen s i

/-- Free banks on islands that take new slices, of those that `keep` allows. -/
def usableBanks (s : State) (on : Nat → Bool) (keep : Nat → Bool) : Nat :=
  ((openIslands s on).map fun i =>
    512 - (s.banks.filter fun e => bankIsland e.1 = i && !(bankFree e.2 && keep e.1)).length).sum

/-- Storage-mode banks that a spill group takes (R211). -/
def groupBanks (p : LastPlan) (g : Nat) : Nat := ceilDiv (groupSlices p g).length 3

/-- Banks that a Last takes with the spill groups `gs` spilled. -/
def banksNeeded (p : LastPlan) (gs : List Nat) : Nat :=
  (p.slices.filter fun r => !gs.contains r.spillGroup).length + (gs.map (groupBanks p)).sum

/-- The banks suffice by their number with the spill groups `gs` spilled (R205, R207, R212), on the islands that `on` names. -/
def banksSuffice (s : State) (p : LastPlan) (on : Nat → Bool) (reserve : Bool) (gs : List Nat) : Bool :=
  decide (banksNeeded p gs ≤ usableBanks s on fun _ => true) && (reserve || decide (banksNeeded p gs + reserveBanks s ≤ freeBanks s))

/-- A spill group before another (R211): by SPILL_RANK, the lower group number on a tie. -/
def insertRank (x : SpillPlan) : List SpillPlan → List SpillPlan
  | [] => [x]
  | y :: t => if decide (x.rank < y.rank) || (x.rank = y.rank && decide (x.group ≤ y.group)) then x :: y :: t else y :: insertRank x t

/-- The groups that may be spilled, in ascending SPILL_RANK (R211): a group with a NO_SPILL slice never is. -/
def spillOrder (p : LastPlan) : List Nat :=
  ((p.spills.filter fun x => !x.noSpill && !(groupSlices p x.group).any sliceNoSpill && groupSlices p x.group ≠ []).foldr insertRank []).map
    fun x => x.group

/-- SHORTFALL_BANKS (R212, R214): banks still missing with every group spilled that may be, of those that R205 admits. DESIGN CHOICE
(notes/assumptions/28.md): it is at least 1 on every CAPACITY, also where the slices fail to fit for another reason than the number
of banks. -/
def shortfallBanks (s : State) (p : LastPlan) : Nat :=
  let n := banksNeeded p (spillOrder p)
  max 1 (max (n + reserveBanks s - freeBanks s) (n - usableBanks s (fun _ => true) fun _ => true))

/-! ## A given choice (R205 to R211) -/

/-- A bank may take a slice of a placement (R205). -/
def bankFits (s : State) (q : Placed) (r : SliceRec) : Bool :=
  targetOk s (nBanks s) q.bank && (q.spill || sliceTolerant r || guardOk s q.bank)

/-- Spill goes by the groups of R212, and each group is packed three pieces to a bank (R211). -/
def spillOk (p : LastPlan) (gs : List Nat) (l : List Placed) : Bool :=
  (p.slices.all fun r => l.all fun q => q.slice ≠ r.slice || q.spill == gs.contains r.spillGroup) &&
    gs.all fun g => decide ((choiceBanks (l.filter fun q => q.spill && (recOf p q.slice).any fun r => r.spillGroup = g)).length ≤ groupBanks p g)

/-- No two entries take the same place: a bank, or a third of a storage-mode bank that holds one group only (R206, R211). -/
def placesApart (p : LastPlan) : List Placed → Bool
  | [] => true
  | q :: t =>
    let group := fun (n : Nat) => (recOf p n).map fun r => r.spillGroup
    t.all (fun o => o.slice ≠ q.slice && (o.bank ≠ q.bank ||
      (o.spill && q.spill && o.third ≠ q.third && group o.slice = group q.slice))) && placesApart p t

/-- Compute-mode slices of a layer that a choice puts on an island. -/
def layerAt (p : LastPlan) (l : List Placed) (island layer : Nat) : Nat :=
  (l.filter fun q => !q.spill && bankIsland q.bank = island && (recOf p q.slice).any fun r => r.layer = layer).length

/-- At most 64 slices of one layer on one island (R205). -/
def layerSpread (p : LastPlan) (l : List Placed) : Bool :=
  l.all fun q => q.spill || (recOf p q.slice).all fun r => layerAt p l (bankIsland q.bank) r.layer ≤ 64

/-- No bank of the same island that a slice could take instead is preferred to the one that it has (R205). -/
def undominated (s : State) (l : List Placed) (q : Placed) (r : SliceRec) : Bool :=
  bankPerfect s q.bank || !(List.range 512).any fun k =>
    let n := 512 * bankIsland q.bank + k
    targetOk s q.bank n && !(l.any fun o => o.bank = n) && (q.spill || sliceTolerant r || guardOk s n) && bankBetter s n q.bank

/-- A bank past its endurance is taken only where no other bank fits (R205). -/
def lifeOk (s : State) (on : Nat → Bool) (l : List Placed) : Bool :=
  let young := (choiceBanks l).filter fun n => !pastLife s n
  young.length = (choiceBanks l).length || decide (usableBanks s on (fun n => !pastLife s n) ≤ young.length)

/-- The island on which a choice gathers a join: that of its first slice in an array bank (R206). -/
def joinIsland (p : LastPlan) (l : List Placed) (join : Nat) : Option Nat :=
  (p.slices.filter fun r => r.join = join).findSome? fun r => (l.find? fun q => q.slice = r.slice && !q.spill).map fun q => bankIsland q.bank

/-- An island has room for one more slice of a layer beside a choice (R206). -/
def islandRoom (s : State) (p : LastPlan) (l : List Placed) (r : SliceRec) (i : Nat) : Bool :=
  decide (layerAt p l i r.layer < 64) && (List.range 512).any fun k =>
    let n := 512 * i + k
    targetOk s (nBanks s) n && (sliceTolerant r || guardOk s n) && !(l.any fun o => o.bank = n)

/-- Outputs of the joins of a layer that a choice gathers on an island. -/
def lanesAt (p : LastPlan) (l : List Placed) (island layer : Nat) : Nat :=
  ((p.joins.filter fun (j : JoinPlan) => j.layer = layer && joinIsland p l j.join = some island).map fun (j : JoinPlan) => j.outputs).sum

/-- The joins of one layer that a choice gathers on an island find lanes enough on its Welt (R95, R206). -/
def lanesFit (p : LastPlan) (l : List Placed) (island layer : Nat) : Bool := decide (lanesAt p l island layer ≤ 2048)

/-- Every join of a choice finds its lanes (R95, R206). -/
def joinsFit (p : LastPlan) (l : List Placed) : Bool :=
  l.all fun q => q.spill || (recOf p q.slice).all fun r => lanesFit p l (bankIsland q.bank) r.layer

/-- The slices that feed one join lie on that join's island where they fit (R206). -/
def joinsLocal (s : State) (p : LastPlan) (on : Nat → Bool) (l : List Placed) : Bool :=
  l.all fun q => q.spill || (recOf p q.slice).all fun r => match joinIsland p l r.join with
    | some i => i = bankIsland q.bank || !on i || !islandOpen s i || !islandRoom s p l r i
    | none => true

/-- Free banks beside a choice whose sister bank is placed or chosen: the reserve is taken from these first (R207). -/
def sisterBanks (s : State) (l : List Placed) : Nat :=
  let placed := (tkeys (s.banks.filter fun e => e.2.owners ≠ [])).foldl (fun a n => insertUp n a) (choiceBanks l)
  (placed.filter fun n => bankFree (bankOf s (sister n)) && !placed.contains (sister n)).length

/-- The island of a bank has an array of which both banks are free and not chosen. -/
def arrayLeft (s : State) (l : List Placed) (n : Nat) : Bool :=
  (List.range 256).any fun k =>
    let m := 512 * bankIsland n + 2 * k
    targetOk s (nBanks s) m && targetOk s (nBanks s) (m + 1) && !(l.any fun q => q.bank = m || q.bank = m + 1)

/-- The reserve is kept as sister banks wherever it can be (R207): a choice takes both banks of an array only where the sisters
that are left hold the reserve, or where its island has no whole array left. -/
def reserveKept (s : State) (l : List Placed) : Bool :=
  let banks := choiceBanks l
  decide (reserveBanks s ≤ sisterBanks s l) || banks.all fun n => !banks.contains (sister n) || !arrayLeft s l n

/-- A choice keeps R205 to R211, with the groups `gs` spilled, on the islands that `on` names. `reserve` says whether it may use
the swap reserve (R207, R249). -/
def choiceOk (s : State) (p : LastPlan) (on : Nat → Bool) (gs : List Nat) (reserve : Bool) (l : List Placed) : Bool :=
  p.slices.all (fun r => match l.find? fun q => q.slice = r.slice with
    | some q => bankFits s q r && q.third < 3 && on (bankIsland q.bank) && undominated s l q r
    | none => false) &&
  l.all (fun q => p.slices.any fun r => r.slice = q.slice) && placesApart p l && layerSpread p l && joinsFit p l && spillOk p gs l && lifeOk s on l &&
    (reserve || (joinsLocal s p on l && reserveKept s l && decide ((choiceBanks l).length + reserveBanks s ≤ freeBanks s)))

/-! ## The model's own choice -/

/-- A bank may hold a compute-mode slice beside the places `l` (R205, R206); `young` leaves out banks past their endurance. -/
def sliceFits (s : State) (p : LastPlan) (on : Nat → Bool) (young : Bool) (l : List Placed) (r : SliceRec) (n : Nat) : Bool :=
  targetOk s (nBanks s) n && on (bankIsland n) && (sliceTolerant r || guardOk s n) && !(young && pastLife s n) &&
    !(l.any fun q => q.bank = n) && decide (layerAt p l (bankIsland n) r.layer < 64) &&
    lanesFit p (l ++ [{ slice := r.slice, bank := n, third := 0, spill := false }]) (bankIsland n) r.layer

/-- An array that the places `l` leave whole: its sister bank stays for the reserve (R207). -/
def aloneFor (s : State) (l : List Placed) (n : Nat) : Bool := bankFree (bankOf s (sister n)) && !(l.any fun q => q.bank = sister n)

/-- The preferred bank for a compute-mode slice beside the places `l` (R205, R206, R207): on the island of its join, in an array of
its own while there is one. `first` names a bank that is taken before any other. -/
def pickBank (s : State) (p : LastPlan) (on : Nat → Bool) (young : Bool) (l : List Placed) (r : SliceRec) (first : Option Nat) : Option Nat :=
  let fits := sliceFits s p on young l r
  let home := fun (n : Nat) => (joinIsland p l r.join).all fun i => i = bankIsland n
  match first.filter fits with
  | some n => some n
  | none => bestOf s [fun n => fits n && home n && aloneFor s l n, fun n => fits n && home n, fun n => fits n && aloneFor s l n, fits]

/-- Banks that stand for every other choice of a slice: of each island the preferred one at the margin guard, and the preferred one
below it where the slice is TOLERANT. Two banks of one island on the same side of the guard serve the slices that follow alike. -/
def otherBanks (s : State) (p : LastPlan) (on : Nat → Bool) (young : Bool) (l : List Placed) (r : SliceRec) : List Nat :=
  (openIslands s on).flatMap fun i =>
    let here := fun (n : Nat) => bankIsland n = i && sliceFits s p on young l r n
    (bestBank s fun n => here n && !guardOk s n).toList ++ (bestBank s fun n => here n && guardOk s n).toList

/-- Places for compute-mode slices, one after the other: the preferred bank of each, else any other from which the rest find places
(R204 check 6: none only where the slices do not fit). -/
def pickSlices (s : State) (p : LastPlan) (on : Nat → Bool) (young : Bool) (first : Nat → Option Nat) :
    List SliceRec → List Placed → Option (List Placed)
  | [], l => some l
  | r :: t, l =>
    let go := fun (n : Nat) => pickSlices s p on young first t (l ++ [{ slice := r.slice, bank := n, third := 0, spill := false }])
    match (pickBank s p on young l r (first r.slice)).bind go with
    | some l => some l
    | none => (otherBanks s p on young l r).findSome? go

/-- Places for the pieces of one spill group: three to a storage-mode bank (R211), sister banks of placed ones last (R207). -/
def pickGroup (s : State) (on : Nat → Bool) (young : Bool) : Nat → List SliceRec → List Placed → Option (List Placed)
  | 0, rs, l => if rs = [] then some l else none
  | fuel + 1, rs, l =>
    if rs = [] then some l
    else
      let fits := fun (n : Nat) => targetOk s (nBanks s) n && on (bankIsland n) && !(young && pastLife s n) && !(l.any fun q => q.bank = n)
      match bestOf s [fun n => fits n && aloneFor s l n, fits] with
      | none => none
      | some n =>
        let three := rs.take 3
        let l := l ++ ((List.range 3).zip three).map fun e => { slice := e.2.slice, bank := n, third := e.1, spill := true }
        pickGroup s on young fuel (rs.drop 3) l

/-- Places for a Last with the groups `gs` spilled, exact-class slices first. -/
def pickWith (s : State) (p : LastPlan) (on : Nat → Bool) (young : Bool) (gs : List Nat) (first : Nat → Option Nat) : Option (List Placed) :=
  let compute := p.slices.filter fun r => !gs.contains r.spillGroup
  let order := compute.filter (fun r => !sliceTolerant r) ++ compute.filter sliceTolerant
  gs.foldl (fun o g => o.bind fun l => pickGroup s on young (groupBanks p g) (groupSlices p g) l) (pickSlices s p on young first order [])

/-- The model's choice for a Last with the groups `gs` spilled: banks past their endurance only where no others fit (R205). -/
def pickAll (s : State) (p : LastPlan) (on : Nat → Bool) (reserve : Bool) (gs : List Nat) (first : Nat → Option Nat) : Option (List Placed) :=
  if !banksSuffice s p on reserve gs then none
  else match pickWith s p on true gs first with
    | some l => some l
    | none => pickWith s p on false gs first

/-- The groups that the placer spills, with its places (R211, R212): it stops at the first group after which all fits; none where
nothing fits. -/
def spillChoice (s : State) (p : LastPlan) (on : Nat → Bool) (reserve : Bool) (first : Nat → Option Nat) : Option (List Nat × List Placed) :=
  let order := spillOrder p
  ((List.range (order.length + 1)).map fun k => order.take k).findSome? fun gs => (pickAll s p on reserve gs first).map fun l => (gs, l)

/-- The placer's choice for a Last (R205 to R212): on islands disjoint from every other slot's where the free banks allow it with no
further spill, else on any but those that `bar` names (R208); the given places where they keep the rules, else the model's own; none
where the slices do not fit. DESIGN CHOICE (notes/assumptions/28.md): the spec names the placer's inputs and conditions and leaves
open which of the banks that meet them it takes. -/
def placerChoice (s : State) (slot : Nat) (p : LastPlan) (reserve : Bool) (bar : List Nat) (first : Nat → Option Nat) (given : List Placed) :
    Option (List Placed) :=
  let others := othersIslands s slot false
  let shared := fun (i : Nat) => !bar.contains i
  let apart := fun (i : Nat) => shared i && !others.contains i
  match spillChoice s p shared reserve first with
  | none => none
  | some (gs, l) =>
    let own := pickAll s p apart reserve gs first
    if choiceOk s p (if own.isSome then apart else shared) gs reserve given && given.all fun q => (first q.slice).all fun n => n = q.bank then some given
    else some (own.getD l)

/-! ## One slice (R209, R210) -/

/-- A bank for one slice of a slot's Last `p`, beside its other places `l` (R205, R208, R209): outside the reserve, whose banks are
sisters of placed ones, while there are banks outside it, else from the reserve; one past its endurance only where no other fits;
never on an island that another BOUND slot computes on where the slot is BOUND. -/
def freshBank (s : State) (slot : Nat) (p : LastPlan) (l : List Placed) (from_ slice : Nat) (spill : Bool) (given : Option Nat) :
    Option Nat :=
  let bad := if (slotOf s slot).state == .bound then othersIslands s slot true else []
  let l := l.filter fun q => q.slice ≠ slice
  let outside := fun (n : Nat) => (bankOf s (sister n)).owners = []
  let home := fun (r : SliceRec) (n : Nat) => (joinIsland p l r.join).all fun i => i = bankIsland n
  match recOf p slice with
  | none => none
  | some r =>
    let fits := fun (young : Bool) (n : Nat) => targetOk s from_ n &&
      (if spill then !(young && pastLife s n) && !(l.any fun q => q.bank = n) else sliceFits s p (fun i => !bad.contains i) young l r n)
    let order := [true, false].flatMap fun young =>
      [fun n => fits young n && outside n && home r n, fun n => fits young n && outside n, fun n => fits young n && home r n, fits young]
    match order.find? fun t => (bestBank s t).isSome with
    | none => none
    | some t => match given.filter t with
      | some n => some n
      | none => bestBank s t

end Sys2Proof.Machine
end

