-- ==== Sys2Proof/Machine/Cobbler.lean ====
section
/-! DEFINITION. Cobbler (R292 to R318): drift age, top-up runs, known-sum tests and margin samples, the classification of
failing columns, the rebuild of rows (R311) and rebuild cycles (R312, R313). Choices of the model:
notes/assumptions/36.md (DEDUCED). -/

namespace Sys2Proof.Machine

/-! ## Drift age and top-up runs -/

/-- DRIFT_AGE_TICK (R294, R296): a further second of powered time has passed. -/
def execDriftAgeTick (s : State) : Res :=
  if !uzomelRuns s || poweredS s ≤ s.time.driftAt then .next s
  else
    let s := { s with time := { s.time with driftAt := s.time.driftAt + 1 } }
    .next ((placedBanks s).foldl (fun s n =>
      refreshDue n (modSched n (driftAdd s n 1 (islandTj s (bankIsland n))) s)) s)

/-- A top-up run may start on a bank (R75, R296, R298, R303, R305). -/
def runAllowed (s : State) (n : Nat) : Bool :=
  let b := bankOf s n
  let d := schedOf s n
  (d.dueTopup || d.dueFloor) && d.run.isNone && (d.dueFloor || dictNum s (ob 0x8001 1) = 1) &&
    (b.state == .ready || b.state == .storage || b.state == .worn) && b.ops = [] && bankIdle s n

/-- Some other bank has due work and an open idle window (R303). -/
def windowElsewhere (s : State) (n : Nat) : Bool :=
  !(schedOf s n).window && s.scheds.any fun e => e.2.window && e.1 ≠ n && runAllowed s e.1

/-- Suspend a program or erase on the sister bank for a floor top-up (R305). -/
def floorSuspend (n : Nat) (s : State) : State :=
  if switchFree s n then s else suspendBank (sister n) true s

/-- TOPUP_RUN_START (R297, R298, R305): a due run takes a pump slot, or waits for it, and starts at row 0. -/
def execTopupRunStart (bank : Nat) (s : State) : Res :=
  if !bankExists s bank then .fault .absentUnit
  else if !runAllowed s bank || (!(schedOf s bank).dueFloor && windowElsewhere s bank) then .next s
  else
    let d := schedOf s bank
    let floor := d.dueFloor
    let permille := min 1000 (d.drift * 1000 / driftOne)
    let s := if floor then floorSuspend bank s else s
    let s := modSched bank (fun d => { d with run := some { next := 0, floor, preempted := false, permille } }) s
    .next (queueOp bank (newOp s .topUpRow none 0 floor true) s)

/-- TOPUP_RESUME (R306): a preempted run goes on at its next row on an idle bank. -/
def execTopupResume (bank : Nat) (s : State) : Res :=
  if !bankExists s bank then .fault .absentUnit
  else match (schedOf s bank).run with
    | none => .next s
    | some run =>
      if !run.preempted || !bankIdle s bank || (bankOf s bank).ops ≠ [] then .next s
      else
        let s := if run.floor then floorSuspend bank s else s
        let s := modSched bank (fun d => { d with run := some { run with preempted := false } }) s
        .next (queueOp bank (newOp s .topUpRow none run.next run.floor true) s)

/-- Compute has arrived on a bank in a top-up run (R305, R306): no further row is issued. -/
def preemptRun (n : Nat) (s : State) : State :=
  let s := modSched n (fun d => { d with window := false }) s
  match (schedOf s n).run with
  | none => s
  | some run =>
    if run.preempted then s
    else
      let s := modSched n (fun d => { d with run := some { run with preempted := true } }) s
      -- a row that still waits for its slot is not issued
      let waits := (bankOf s n).ops.any fun o => o.run && o.phase == .queued
      let s := modBank n (fun b => { b with ops := b.ops.filter fun o => !(o.run && o.phase == .queued) }) s
      let s := bump (ob 0x8012 1) s
      if waits && (bankOf s (sister n)).ops.any fun o => o.byFloor then resumeBank (sister n) s else s

/-- The check group of a logical column (R41). -/
def groupOf (c : Nat) : Nat := if c < 1024 then c / 32 else (c - 1024) / 3

/-! ## Refetch flags (R242) -/

/-- Flag the shard of a slice of an image for refetch and raise the event (R242). DESIGN CHOICE (notes/assumptions/36.md): an event
record has no room for a hash and a list: UNIT names the image record and the shard, and the record itself the flagged slices. -/
def flagRefetch (hash : Digest) (r : SliceRec) (s : State) : State :=
  match s.model.images.find? fun e => e.2.hash = hash with
  | some (k, img) =>
    let img := { img with refetch := tmod img.refetch r.shard [] fun l => insertUp r.slice l }
    raise .refetch 12 (k * 65536 + r.shard) { s with model := { s.model with images := tset s.model.images k img } }
  | none => s

/-- Flag the shards of every slice on a bank. -/
def flagBank (n : Nat) (s : State) : State := (slicesOn s n).foldl (fun s e => flagRefetch e.1 e.2 s) s

/-- Flag the shard of a slice of a launch's generation (R242, R245). -/
def flagSlice (x : Launch) (slice : Nat) (s : State) : State :=
  let sl := slotOf s x.slot
  match (launchPlan s x).bind fun p => p.slices.find? fun r => r.slice = slice with
  | some r => flagRefetch (if sl.oldGen = some x.gen then sl.oldImage else sl.imageHash) r s
  | none => s

/-! ## Known-sum cycles (R51, R57 to R59, R61, R72, R299, R300) -/

/-- One cycle of the reference rows `rows` on a bank (R58): the mapped columns whose count differs from their known sum, and
whether the cycle fails: by such a column, by its row echo (R51) or by the residue identity (R61). -/
def ksCycle (b : Bank) (rows : List Nat) (d : Disturb) : List Nat × Bool :=
  let want := rows.map fun r => 1024 + r
  let up := (want.filter fun r => !d.rows.contains r) ++ (d.rows.filter fun r => !want.contains r)
  let codes := ((List.range 1120).zip (columnCounts b up 1120)).map fun e => (e.1, exactCode rows.length ((e.2 : Int) * 1000 + edgeShift d e.1))
  let wrong := (codes.filter fun e => e.2 != (knownSum rows e.1, false, false)).map Prod.fst
  let echo := decide (up.length ≠ rows.length) || decide (up.sum % 65536 ≠ want.sum % 65536)
  (wrong, wrong ≠ [] || echo || !residuesOk (codes.map fun e => e.2.1))

/-- The disturbance of run `run` of subset `k`. -/
def ksDisturb (r : KsResult) (k run : Nat) : Disturb :=
  ((r.cycles.find? fun e => e.1 = k && e.2.1 = run).map fun e => e.2.2).getD { rows := [], edges := [], slip := 0 }

/-- One subset of a known-sum test (R59): a failing repetition is run twice more; the columns wrong in two of the three runs,
and whether two of them failed without such a column. -/
def ksSubset (b : Bank) (r : KsResult) (k : Nat) : List Nat × Bool :=
  let rows := ksSubsets.getD k []
  let one := fun (run : Nat) => ksCycle b rows (ksDisturb r k run)
  let first := one 0
  if !first.2 then ([], false)
  else
    let runs := [first, one 1, one 2]
    let cols := (List.range 1120).filter fun c => decide (2 ≤ (runs.filter fun x => x.1.contains c).length)
    (cols, cols = [] && decide (2 ≤ (runs.filter Prod.snd).length))

/-- What a known-sum test reports: failing columns, and a failure that names none. -/
structure KsReport where
  cols : List Nat
  unnamed : Bool
  deriving DecidableEq, Repr

/-- The subsets from `from_` up to, not including, `to_`, after what earlier ones have reported. -/
def ksRun (b : Bank) (r : KsResult) (from_ to_ : Nat) (sofar : KsReport) : KsReport :=
  (List.range (to_ - from_)).foldl (fun k i =>
    let o := ksSubset b r (from_ + i)
    { cols := (k.cols ++ o.1).eraseDups, unnamed := k.unnamed || o.2 }) sofar

/-- The largest deviation among the logical columns, in millionths of τ (R55). -/
def ksDeviation (r : KsResult) : Nat := ((r.devMicro.filter fun e => decide (e.1 < 1120)).map Prod.snd).foldl max 0

/-- A short check fails (R300): all eight reference rows, once. -/
def shortFails (b : Bank) (d : Disturb) : Bool := (ksCycle b (List.range 8) d).2

/-! ## Measurements (R299 to R302, R309, R310) -/

/-- The converters and the bank are free for a full known-sum test (R71, R72, R75, R299, R302, R305, R306): no compute cycle claims the
array's converters and the bank is idle; in a dip only the tests that its short checks ask for (R300). A RETIRED bank is tested until
its slices have left it. -/
def testReady (s : State) (n : Nat) : Bool :=
  let b := bankOf s n
  !b.storageMode && (b.state == .ready || b.state == .worn || b.state == .programming || (b.state == .retired && b.owners ≠ [])) &&
    !convertersClaimed s n && bankIdle s n && (!dipHolds s || s.power.dip == .checking) && domIsOn s (bankIsland n) && !bankRunning s n

/-- Another bank of the island waits for its test after a recompute, which goes ahead of every other measurement of the island's
measurement engine (R310), and could be tested now. -/
def retestAhead (s : State) (n : Nat) : Bool :=
  s.scheds.any fun e => e.1 ≠ n && bankIsland e.1 = bankIsland n && e.2.afterRecompute && testReady s e.1

/-- A full known-sum test may run on the bank (R299, R310). -/
def testAllowed (s : State) (n : Nat) : Bool := testReady s n && ((schedOf s n).afterRecompute || !retestAhead s n)

/-- Count a measurement, and one that comes more than a period late (R302, R317). -/
def countMeasure (n : Nat) (s : State) : State :=
  let late := decide ((schedOf s n).measuredAt + 2 * dictNum s (ob 0x8004 1) < poweredS s)
  let s := bump (ob 0x8014 1) s
  let s := if late && bankPlaced s n then bump (ob 0x8015 1) s else s
  modSched n (fun d => { d with measuredAt := poweredS s, dueKs := false, testedAt := tideOf s }) s

/-- The unit number of a logical column in the fault history (R336). -/
def columnUnit (n c : Nat) : Nat := n * 2048 + c

/-- One failure of a column (R336). -/
def columnFailure (n c : Nat) (s : State) : State :=
  let (s, perm) := countFailure .column (columnUnit n c) s
  if perm then permanentEvent .column (columnUnit n c) s else s

/-- A column is reported failing (R59, R310): one failure of the column. -/
def reportColumn (n c : Nat) (s : State) : State :=
  columnFailure n c (modSched n (fun d => { d with failing := tmod d.failing c 0 fun k => k + 1 }) s)

/-- The end of a classification (R310): a permanent column fault asks for a rebuild, a transient one ends the cover. -/
def closeColumns (n : Nat) (s : State) : State :=
  let perm := (tkeys (schedOf s n).failing).filter fun c => (historyOf s .column (columnUnit n c)).permanent
  if perm = [] then
    refreshDue n (modSched n (fun d => { d with failing := [] }) (modBank n (fun b => { b with suspect := false }) s))
  else
    refreshDue n (modSched n (fun d =>
      { d with failing := d.failing.filter fun e => perm.contains e.1, dueRebuild := true }) s)

/-- The full tests that a failing short check asked for on an island have passed (R300, R481): its banks need no cover. -/
def dipPassed (i : Nat) (s : State) : State :=
  if s.power.dipIslands.contains i && (!dipHolds s || s.power.dip == .checking) && !(s.scheds.any fun e => bankIsland e.1 = i && e.2.dueKs) then
    { s with power := { s.power with dipIslands := s.power.dipIslands.filter fun k => k ≠ i } }
  else s

/-- A passing full test of a compute-mode bank (R299): the margin index and its stamps. -/
def testPassed (n : Nat) (r : KsResult) (s : State) : State :=
  let m := marginIndex (ksDeviation r)
  let post := (schedOf s n).afterTopup
  let s := setMargin n m s
  let s := if post then setPostMargin n m s else s
  refreshDue n (dipPassed (bankIsland n) s)

/-- The cells of a bank do not change when a seal test makes the scheduler erase and program it again (R309): the erase
adds its wear. -/
def eraseAndAgain (n : Nat) (s : State) : State :=
  refreshSymptoms n (modBank n (fun b => { b with wear := b.wear + wearOf b false, lastStorage := b.storageMode }) s)

/-- A bank in PROGRAMMING has been RETIRED: what was to move to it, or to be rebuilt on it, needs another bank (R309). -/
def dropMove (n : Nat) (s : State) : State :=
  if !((bankOf s n).state == .retired) then s
  else
    let s := match (schedOf s n).moveFrom with
      | some k => modSched k (fun d => { d with rebuilding := false }) s
      | none => s
    modBank n (fun b => { b with reserved := false }) (modSched n (fun d => { d with rebuilding := false, moveFrom := none }) s)

/-- The seal test of a bank in PROGRAMMING (R59, R309). -/
def sealTest (n : Nat) (r : KsResult) (k : KsReport) (s : State) : State :=
  if k.cols ≠ [] then
    let row := (tkeys (bankOf s n).cells).headD 0
    let s := k.cols.foldl (fun s c => columnFailure n c s) (modBank n (fun b => { b with suspect := true }) s)
    dropMove n (spareRemap n row (rowVector (bankOf s n) row) k.cols s)
  else if k.unnamed then
    if (schedOf s n).sealFails = 0 then
      eraseAndAgain n (modSched n (fun d => { d with sealFails := 1 }) s)
    else
      let a := bankArray n
      let h := historyOf s .array a
      dropMove n (retireArray a (permanentEvent .array a (setHistory .array a { h with permanent := true } s)))
  else modSched n (fun d => { d with sealTested := true }) (testPassed n r (modBank n (fun b => { b with suspect := false }) s))

/-- Two failing columns lie in one check group, so that R311 can rebuild neither (R76). -/
def groupLost (cols : List Nat) : Bool := cols.any fun c => cols.any fun d => c ≠ d && groupOf c = groupOf d

/-- What a full test of a sealed bank reports (R59, R76, R299, R310). -/
def serviceTest (n : Nat) (r : KsResult) (k : KsReport) (s : State) : State :=
  let after := (schedOf s n).afterRecompute
  let s := modSched n (fun d => { d with afterRecompute := false }) s
  if k.cols ≠ [] then
    let open_ := decide (0 < (schedOf s n).retests)
    let s := k.cols.foldl (fun s c => reportColumn n c s) s
    let s := modBank n (fun b => { b with suspect := true }) s
    let s := if open_ then s else raise .columnFailing 1 n (modSched n (fun d => { d with retests := 2 }) s)
    let s := if (bankOf s n).state == .retired && groupLost (tkeys (schedOf s n).failing) then flagBank n s else s
    refreshDue n s
  else
    let s := if k.unnamed then s else testPassed n r s
    if after || k.unnamed then arrayFailure n s else s

/-- A full known-sum test (R45, R72, R299, R309, R310): every one writes trim codes; compute that takes the converters interrupts it, and it goes on from the
start of that subset. -/
def fullTest (n : Nat) (r : KsResult) (s : State) : State :=
  let d := schedOf s n
  let from_ := d.calib.getD 0
  let to_ := match r.cut with | some k => if from_ ≤ k && k < 10 then k else 10 | none => 10
  let k := ksRun (bankOf s n) r from_ to_ { cols := d.calibCols, unnamed := d.calibUnnamed }
  if to_ < 10 then
    modSched n (fun d => { d with calib := some to_, calibCols := k.cols, calibUnnamed := k.unnamed }) s
  else
    let s := countMeasure n (modSched n (fun d => { d with calib := none, calibCols := [], calibUnnamed := false }) s)
    let s := modBank n (fun b =>
      { b with trims := r.trims.foldl (fun t e => if e.1 < 1152 then tset t e.1 e.2 else t) b.trims }) s
    if (bankOf s n).state == .programming then sealTest n r k s else serviceTest n r k s

/-- The rows of the next margin sample (R301). -/
def sampleRows (s : State) (n : Nat) : List Nat := (List.range 16).map fun k => 64 * k + (schedOf s n).samples % 64

/-- The least margin index of a sample (R287, R301): READ_MARGIN on each of its rows, of which `steps` gives the steps of 1/64 of a
level spacing, 32 where it lists none. -/
def sampleMargin (rows steps : List Nat) : Nat :=
  ((List.range rows.length).map fun k => marginOfSteps (steps.getD k 32)).foldl min 1000

/-- MARGIN_SAMPLE (R301): READ_MARGIN on 16 rows of a storage-mode bank, the least M found. -/
def execMarginSample (bank : Nat) (steps : List Nat) (s : State) : Res :=
  if !bankExists s bank then .fault .absentUnit
  else
    let b := bankOf s bank
    if !b.storageMode || !(b.state == .storage || b.state == .worn) || b.ops.any opRunning || !bankIdle s bank ||
        dipHolds s || retestAhead s bank then .next s
    else
      let m := sampleMargin (sampleRows s bank) steps
      let post := (schedOf s bank).afterTopup
      let s := setMargin bank m (countMeasure bank s)
      let s := modSched bank (fun d => { d with samples := d.samples + 1 }) s
      let s := if post then setPostMargin bank m s else s
      .next (refreshDue bank s)

/-- KS_PERIOD_TIMER (R302): a period of powered time has passed since the bank's last measurement. -/
def execKsPeriodTimer (bank : Nat) (s : State) : Res :=
  if !bankExists s bank then .fault .absentUnit
  else if bankPlaced s bank && decide ((schedOf s bank).measuredAt + dictNum s (ob 0x8004 1) ≤ poweredS s) then
    .next (modSched bank (fun d => stampDue (poweredS s) { d with dueKs := true }) s)
  else .next s

/-- IDLE_WINDOW_OPEN (R303): work on the banks of the spill group that is due, or falls due, has the window first, until compute
arrives on the bank. -/
def execIdleWindowOpen (slot : Fin 64) (spillGroup : Nat) (s : State) : Res :=
  let sl := slotOf s slot.val
  let slices := match sl.plan with
    | some p => if p.idle.any (fun e => e.1 = spillGroup) then
        (p.slices.filter fun (r : SliceRec) => r.spillGroup = spillGroup).map fun (r : SliceRec) => r.slice else []
    | none => []
  let banks := (sl.places.filter fun p => slices.contains p.slice).map fun p => p.bank
  .next (banks.foldl (fun s n => modSched n (fun d => { d with window := true }) s) s)

/-- FORCE_AFTER_TIMER (R304): work has been due for longer than `cob.force_after_s`. -/
def execForceAfterTimer (bank : Nat) (s : State) : Res :=
  if !bankExists s bank then .fault .absentUnit
  else
    let d := schedOf s bank
    if d.dueForced || !bankPlaced s bank || !overdue s d then .next s
    else
      let s := modSched bank (fun d => { d with dueForced := true }) s
      let cov := (tget? s.model.covers bank).getD { forced := true, slabs := [], missing := [] }
      let s := { s with model := { s.model with covers := tset s.model.covers bank { cov with forced := true } } }
      .next (bump (ob 0x8016 1) (raise .forcedCover 1 bank s))

/-- RERUN_BUCKET_ROLL (R315): an hour of powered time opens a new bucket. -/
def execRerunBucketRoll (s : State) : Res :=
  if poweredS s / 3600 ≤ s.time.bucketHour then .next s
  else
    let s := { s with time := { s.time with bucketHour := s.time.bucketHour + 1 } }
    .next ((tkeys s.scheds).foldl (fun s n =>
      refreshSymptoms n (modSched n (fun d => { d with reruns := (0 :: d.reruns).take 24 }) s)) s)

/-- POWERED_TIME_STORE (R491): 60 s of powered time since the last store. -/
def execPoweredTimeStore (s : State) : Res :=
  if uzomelRuns s && decide (s.time.storedAllAt + 60 ≤ poweredS s) then .next (storePoweredTime s) else .next s

/-! ## Rebuilding rows (R311, R330) -/

/-- Check groups of a compute-mode logical row that fail their residue bits (R60). -/
def badGroups (vec : Nat) : List Nat :=
  (List.range 32).filter fun g =>
    residueBits ((vec >>> (32 * g)) % 2 ^ 32) ≠ (vec >>> (1024 + 3 * g)) % 8

/-- The bit of column `c` as R311 rebuilds it, or none where the rebuild is invalid. -/
def rebuildBit (vec c : Nat) : Option Nat :=
  let g := groupOf c
  let word := (vec >>> (32 * g)) % 2 ^ 32
  let j := (vec >>> (1024 + 3 * g)) % 8
  if c < 1024 then
    let others := word - (if bitAt word (c % 32) then 2 ^ (c % 32) else 0)
    let x := (j + 8 * 8 - popNat 32 others) % 8
    if x ≤ 1 then some x else none
  else some (if bitAt (residueBits word) ((c - 1024) % 3) then 1 else 0)

/-- Rebuild the failing columns of a row (R311): none where one rebuild is invalid or a check group holds two. -/
def rebuildRow (cols : List Nat) (vec : Nat) : Option Nat :=
  cols.foldl (fun o c => o.bind fun v =>
    if 1 < (cols.filter fun d => groupOf d = groupOf c).length then none
    else (rebuildBit v c).map fun x => setCell 1 c x v) (some vec)

/-- A row as a streaming read delivers it from the true cells (R145, R330): rebuilt in each failing group that holds a
known failing column; none where it stays poisoned. -/
def streamRow (s : State) (n row : Nat) (vec : Nat) : Option Nat :=
  let bad := badGroups vec
  if bad = [] then some vec
  else
    let known := (tkeys (schedOf s n).failing).filter fun c => bad.contains (groupOf c)
    if row < 1032 && bad.all (fun g => known.any fun c => groupOf c = g) then
      match rebuildRow known vec with
      | some v => if badGroups v = [] then some v else none
      | none => none
    else none

/-- A row of a bank with an open classification never trusts the failing columns (R310). -/
def coverRow (s : State) (n row : Nat) : Option Nat :=
  let vec := logicalRow (bankOf s n) row
  let failing := tkeys (schedOf s n).failing
  if failing = [] then streamRow s n row vec
  else match rebuildRow failing vec with
    | some v => if badGroups v = [] then some v else none
    | none => none

/-! ## Storage lines (R68, R311) -/

/-- The stored CRC of line n agrees (R68, R329). -/
def lineOk (b : Bank) (n : Nat) : Bool := (crc32c (lineBytes b n)).toNat = lineCrc b n

/-- The lines that a storage row touches. -/
def rowLines (row : Nat) : List Nat := ((List.range 2).map fun k => (384 * row) / 512 + k).filter fun n =>
  decide (n < 768) && decide (512 * n < 384 * row + 384)

/-- The lines that a data cell of a storage row touches: its three bits lie in one line or in two (R67). -/
def cellLines (row c : Nat) : List Nat :=
  let bit := 3072 * row + 3 * c
  [bit / 4096, (bit + 2) / 4096].eraseDups

/-- The level of a failing storage cell that passes every line that it touches, tried in turn (R311). -/
def rebuildCell (b : Bank) (row c : Nat) : Option Nat :=
  if 1024 ≤ c then
    -- a check cell is computed again from its line's data
    match (rowLines row).find? fun n => lineRow n = row with
    | some n => some (getCell 3 (c - 1024) (storageChecks (some (crc32c (lineBytes b n)).toNat)))
    | none => some 7
  else
    let ok := (List.range 8).filter fun v =>
      let b' := setLevels row (physicalCells b 3 (physLevels b row) (setCell 3 c v (storageRow b row))) b
      (cellLines row c).all (lineOk b')
    match ok with
    | [v] => some v
    | _ => none

/-- The rebuilt storage row, or none. -/
def rebuildStorageRow (b : Bank) (row : Nat) (cols : List Nat) : Option Nat :=
  cols.foldl (fun o c => o.bind fun v =>
    let b' := setLevels row (physicalCells b 3 (physLevels b row) v) b
    (rebuildCell b' row c).map fun x => setCell 3 c x v) (some (storageRow b row))

/-- The rebuilt logical rows of a bank (R312 step 1), and the rows that could not be rebuilt. -/
def rebuildImage (s : State) (n : Nat) (cols : List Nat) : List (Nat × Nat) × List Nat :=
  let b := bankOf s n
  let one := fun row =>
    if b.storageMode then rebuildStorageRow b row cols
    else match rebuildRow cols (logicalRow b row) with
      | some v => if badGroups v = [] then some v else none
      | none => none
  let rows := List.range 1024
  (rows.filterMap fun r => (one r).map fun v => (r, v), rows.filter fun r => (one r).isNone)

/-! ## Moving slices and rebuild cycles (R209, R312, R313) -/

/-- A bank in PROGRAMMING with logical rows programmed, reference rows included (R57, R239, R279). -/
def programmedBank (polarity : Bool) (rows : List (Nat × Nat)) (b : Bank) : Bank :=
  let b := { b with cells := [], levels := [], thirds := [], split := [], lastStorage := b.storageMode, state := .programming }
  let b := if b.storageMode then b else withRefRows { b with polarity }
  programAgain rows b

/-- The polarity that programs fewer data and check cells (R38): polarity 0 programs the logical 0s. -/
def chosenPolarity (rows : List (Nat × Nat)) : Bool :=
  let ones := (rows.map fun e => popNat 1120 e.2).sum
  decide (2 * ones < 1024 * 1120)

/-- Program an ERASED bank from logical rows (R38, R239): it stays in PROGRAMMING until its seal (R74). -/
def writeBank (n : Nat) (rows : List (Nat × Nat)) (s : State) : State :=
  modSched n (fun d => { d with failing := [], retests := 0, dueRebuild := false, sealFails := 0, sealTested := false })
    (modBank n (programmedBank (chosenPolarity rows) rows) s)

/-- Every slot that places slices on bank `from_` places them on `to_` instead (R203, R209). -/
def moveSlices (from_ to_ : Nat) (s : State) : State :=
  let b := bankOf s from_
  let move := fun (p : Placed) => if p.bank = from_ then { p with bank := to_ } else p
  let slots := s.model.slots.map fun e =>
    (e.1, { e.2 with places := e.2.places.map move, oldPlaces := e.2.oldPlaces.map move,
                     swap := e.2.swap.map fun (w : Swap) => { w with places := w.places.map move } })
  let count := ((s.model.slots.map fun e => (e.2.places.filter fun p => p.bank = from_).length).sum)
  let s := { s with model := { s.model with slots } }
  let s := modBank to_ (fun t => { t with owners := b.owners, reserved := false }) s
  releaseBank from_ (raise .replaced 1 from_ (bumpBy (ob 0x7020 1) count s))

/-- End a rebuild: the cover ends and the cycle is counted (R312). -/
def rebuilt (n : Nat) (s : State) : State :=
  let s := modSched n (fun d => { d with dueRebuild := false, failing := [], rebuilding := false }) s
  let s := { s with model := { s.model with covers := tdel s.model.covers n } }
  refreshDue n (raise .columnRebuilt 1 n (bump (ob 0x8017 1) s))

/-- The moves and the rebuild that wait for a bank's seal end with it (R209, R312). -/
def sealedMoves (t : Nat) (s : State) : State :=
  let d := schedOf s t
  let s := modSched t (fun d => { d with moveFrom := none }) s
  match d.moveFrom with
  | some n =>
    let again := (schedOf s n).rebuilding || (schedOf s n).dueRebuild
    let s := moveSlices n t s
    if again then rebuilt n s else { s with model := { s.model with covers := tdel s.model.covers n } }
  | none => if d.rebuilding then rebuilt t s else s

/-- Seal a bank in storage mode, which has no known-sum test (R74, R301). -/
def sealIfStorage (n : Nat) (s : State) : State :=
  if (bankOf s n).storageMode then sealedMoves n (sealNow n s) else s

/-- Program a bank's content into another bank, to which its slices move at the seal (R209, R312, R313). -/
def programInto (n t : Nat) (storage : Bool) (rows : List (Nat × Nat)) (s : State) : State :=
  let s := writeBank t rows (modBank t (fun b => { b with storageMode := storage, reserved := true }) s)
  sealIfStorage t (modSched t (fun d => { d with moveFrom := some n }) s)

/-- The bank that re-placement gives a bank's slices (R209, R312): one that suits each of them, beside the other places of its slot. -/
def rebuildTarget (s : State) (bank : Nat) (target : Option Nat) : Option Nat :=
  let spill := (bankOf s bank).storageMode
  let one := fun (given : Option Nat) => s.model.slots.findSome? fun e => (generations e.2).findSome? fun (_, p, places) =>
    (places.find? fun q => q.bank = bank).bind fun q => freshBank s e.1 p (places.filter fun o => o.bank ≠ bank) bank q.slice spill given
  one target

/-- Step 1 of a rebuild has its image (R312, R313): READY and STORAGE banks with spares enough are erased and programmed
again; the content of any other goes to the bank that re-placement chose. -/
def rebuildFrom (bank : Nat) (target : Option Nat) (cols : List Nat) (rows : List (Nat × Nat)) (s : State) : State :=
  let b := bankOf s bank
  let (b', ok) := remapColumns cols b
  if ok && !(b.state == .worn || b.state == .retired) then
    let b' := { b' with wear := b'.wear + wearOf b' false }
    let s := modBank bank (fun _ => programmedBank b.polarity rows b') s
    let s := modSched bank (fun d => { d with rebuilding := true, sealFails := 0, sealTested := false }) s
    sealIfStorage bank (refreshSymptoms bank s)
  else
    let s := modBank bank (fun x => cols.foldl (fun x c => failSpare c x) x) s
    let s := if ok || b.state == .retired then s else markRetired bank s
    match (rebuildTarget s bank target) with
    | some t => programInto bank t b.storageMode rows (modSched bank (fun d => { d with rebuilding := true }) s)
    | none => s

/-- REBUILD_CYCLE (R312, R313): a bank with a permanent column fault is read and rebuilt, and its content programmed again,
here or into `target`, the bank that re-placement gives it. The cycle ends with that bank's seal. -/
def execRebuildCycle (bank : Nat) (target : Option Nat) (s : State) : Res :=
  if !bankExists s bank then .fault .absentUnit
  else
    let d := schedOf s bank
    let b := bankOf s bank
    let refused := ((tget? s.model.covers bank).map (fun c => !c.missing.isEmpty)).getD false
    if !d.dueRebuild || d.rebuilding || refused || b.ops ≠ [] || !bankIdle s bank || s.awl.paused || 1536 ≤ slotsUsed s then .next s
    else
      let cols := tkeys d.failing
      let (rows, lost) := rebuildImage s bank cols
      if lost ≠ [] then
        -- R313: the cycle is not started; without a free spare the bank is RETIRED all the same (R66)
        let (b', ok) := remapColumns cols b
        let s := if ok || b.state == .retired then s else markRetired bank (modBank bank (fun _ => b') s)
        let cov := (tget? s.model.covers bank).getD { forced := false, slabs := [], missing := [] }
        let s := { s with model := { s.model with covers := tset s.model.covers bank { cov with missing := lost } } }
        .next (nvPoisoned bank lost.length (bump (ob 0x8018 1) (flagBank bank s)))
      else .next (rebuildFrom bank target cols rows s)

/-- Seal a bank whose seal test has passed (R66, R74, R289, R294), with what waits for it. -/
def sealTested (n : Nat) (s : State) : State :=
  if (schedOf s n).sealTested && (bankOf s n).state == .programming then sealedMoves n (sealNow n s) else s

end Sys2Proof.Machine
end

