-- ==== Sys2Proof/Machine/Failures.lean ====
section
/-! DEFINITION. Failures of islands, Ferries and Shank clusters (R21, R25, R334 to R340): work issued again, retirement, and who takes
over. Choices of the model: notes/assumptions/16.md (DEDUCED). -/

namespace Sys2Proof.Machine

/-- Ask the governor for admission (R24). -/
def pushWork (w : GovWork) (s : State) : State :=
  let item : GovItem := { order := s.power.nextOrder, work := w, counted := false }
  { s with power := { s.power with waiting := s.power.waiting ++ [item], nextOrder := s.power.nextOrder + 1 } }

/-- The standing cluster is ON, with its budget held, while any Last is bound (R134). -/
def takeStanding (s : State) : State :=
  match s.power.standing with
  | some _ => s
  | none =>
    match (List.range 16).find? fun c => !(clusterOf s c).retired && !(domState s (domCluster c) == .failed) with
    | none => s
    | some c =>
      let charged := if s.power.shankCharged.contains c then s.power.shankCharged else s.power.shankCharged ++ [c]
      wantOn (domCluster c) { s with power := { s.power with standing := some c, shankCharged := charged } }

/-! ## Packets that wait for their acknowledgement (R19, R21, R175) -/

/-- Send a packet that its sender holds until it has been taken (R19). -/
def sendHeld (port : BitVec 12) (p : List Flit) (poison : Bool) (s : State) : State :=
  send (.soundData port p poison) { s with flow := { s.flow with unacked := s.flow.unacked ++ [(port, p, poison)] } }

/-- Two packets have one header. -/
def sameHeader (a b : List Flit) : Bool := (a.head?.map fun f => f.data) == b.head?.map fun f => f.data

/-- A packet has been taken: its sender lets go of it (R19). -/
def ackPacket (p : List Flit) (s : State) : State :=
  match s.flow.unacked.find? fun e => sameHeader e.2.1 p with
  | some e => { s with flow := { s.flow with unacked := s.flow.unacked.erase e } }
  | none => s

/-- Issue again every packet that a unit's port has not acknowledged (R21). -/
def resendTo (port : BitVec 12) (s : State) : State :=
  (s.flow.unacked.filter fun e => e.1 = port).foldl (fun s e => send (.soundData e.1 e.2.1 e.2.2) s) s

/-- Issue again the packet that a hop discarded (R21, R175): the oldest unacknowledged one for that port that agrees with it in
every flit that can still be read. -/
def resendLost (port : BitVec 12) (p : List Flit) (s : State) : State :=
  let agrees := fun (q : List Flit) => decide (q.length = p.length) && (q.zip p).all fun e =>
    eccDecode (syndrome e.2.data e.2.check) == .uncorrectable || e.1 == e.2
  match s.flow.unacked.find? fun e => e.1 = port && agrees e.2.1 with
  | some e => send (.soundData e.1 e.2.1 e.2.2) s
  | none => s

/-! ## Islands, Ferries and clusters (R25, R336) -/

/-- An island enters quarantine (R25). -/
def quarantineIsland (i : Nat) (s : State) : State :=
  let s := modIsland i (fun y => { y with quarantined := true }) s
  raise .throughputFall 3 i (raise .islandQuarantine 3 i s)

/-- The pulse cycles of an island that nobody has acknowledged are issued again (R21): each group goes back to the front of its
slice's groups. -/
def reissueIsland (i : Nat) (s : State) : State :=
  let back := fun (p : Pulse) (w : SliceWork) => if w.slice = p.slice then { w with groups := p.group :: w.groups } else w
  let one := fun (y : Island) (e : Nat × Pulse) =>
    { y with threads := y.threads.map fun t =>
      (t.1, if t.1 = e.2.thread.val && t.2.launch = e.2.launch then { t.2 with works := t.2.works.map (back e.2) } else t.2) }
  modIsland i (fun y => { y.pulses.foldr (fun e y => one y e) y with pulses := [] }) s

/-- One failure of an island (R336): its unacknowledged work is issued again. -/
def islandFailure (i : Nat) (s : State) : State :=
  let (s, perm) := countFailure .island i s
  let s := reissueIsland i s
  if perm then quarantineIsland i s else s

/-- A stream slot of a Ferry that takes no more: the lowest Ferry in service with a free slot. -/
def streamHome (s : State) (not_ : Nat) : Option (Nat × Nat) :=
  (List.range 256).findSome? fun f =>
    let y := ferryOf s f
    if f = not_ || y.retired then none else (freeKey y.streams 16).map fun k => (f, k)

/-- A stream goes on at another Ferry (R336). -/
def moveStream (f : Nat) (k : Nat) (s : State) : State :=
  match tget? (ferryOf s f).streams k, streamHome s f with
  | some st, some (g, j) =>
    let s := modFerry f (fun y => { y with streams := tdel y.streams k }) s
    let s := modFerry g (fun y => { y with streams := tset y.streams j st }) s
    let who := fun (c : LaceConsumer) => if c.who == .ferry f k then { c with who := .ferry g j } else c
    { s with flow := { s.flow with laces := s.flow.laces.map fun l => (l.1, { l.2 with consumers := l.2.consumers.map who }) } }
  | _, _ => s

/-- A Ferry takes no further descriptors; its streams move (R336). -/
def retireFerry (f : Nat) (s : State) : State :=
  let ks := tkeys (ferryOf s f).streams
  ks.foldl (fun s k => moveStream f k s) (permanentEvent .ferry f (modFerry f (fun y => { y with retired := true }) s))

/-- Two tables have no number in common. -/
def disjointKeys {α β : Type} (a : Tab α) (b : Tab β) : Bool := (tkeys a).all fun k => !(tkeys b).contains k

/-- The cluster that takes over a cluster's work: one in service, ON where there is one, whose numbers do not clash. -/
def clusterHeir (s : State) (c : Nat) : Option Nat :=
  let y := clusterOf s c
  let ok := (List.range 16).filter fun d =>
    let z := clusterOf s d
    d ≠ c && !z.retired && !(domState s (domCluster d) == .failed) && disjointKeys y.joins z.joins && disjointKeys y.recomputes z.recomputes
  match ok.find? fun d => domIsOn s (domCluster d) with
  | some d => some d
  | none => ok.head?

/-- Rename a cluster in a join's sources. -/
def heirSource (c d : Nat) (j : Join) : Join :=
  { j with sources := j.sources.map fun x => match x.id with
    | .shank k r => if k = c then { x with id := .shank d r } else x
    | _ => x }

/-- Move a cluster's work and the standing role to another (R336). -/
def moveCluster (c d : Nat) (s : State) : State :=
  let y := clusterOf s c
  let s := modCluster c (fun z => { z with tiles := [], current := none, recomputes := [], joins := [] }) s
  let s := modCluster d (fun z =>
    { z with tiles := z.tiles ++ y.current.toList ++ y.tiles, recomputes := y.recomputes.foldl (fun t e => tset t e.1 e.2) z.recomputes,
             joins := y.joins.foldl (fun t e => tset t e.1 e.2) z.joins }) s
  let hj := fun (t : Tab Join) => t.map fun (e : Nat × Join) => (e.1, heirSource c d e.2)
  let to_ := fun (e : Nat × Nat) => if e.2 = c then (e.1, d) else e
  let s := { s with
    islands := s.islands.map (fun e => (e.1, { e.2 with joins := hj e.2.joins }))
    clusters := s.clusters.map (fun e => (e.1, { e.2 with joins := hj e.2.joins }))
    model := { s.model with launches := s.model.launches.map fun e =>
      (e.1, { e.2 with shank := e.2.shank.map to_, adapters := e.2.adapters.map to_ }) } }
  let work := y.tiles ≠ [] || y.current.isSome || y.recomputes ≠ []
  if work && !s.power.shankCharged.contains d then wantOn (domCluster d) (pushWork (.cluster d) s) else s

/-- A cluster is retired and unpowered (R336, R476): its domain reads FAILED. -/
def retireCluster (c : Nat) (s : State) : State :=
  let s := modCluster c (fun y => { y with retired := true }) s
  let s := modDom (domCluster c) (fun d => { d with state := .failed, retired := true, current := none, queued := none }) s
  let was := s.power.standing == some c
  let s := { s with power := { s.power with
    shankCharged := s.power.shankCharged.filter (fun k => k ≠ c), standing := if was then none else s.power.standing } }
  let s := match clusterHeir s c with
    | some d => moveCluster c d s
    | none => s
  permanentEvent .cluster c (if was then takeStanding s else s)

/-- One failure of a cluster (R336): the tile in progress is run again. -/
def clusterFailure (c : Nat) (s : State) : State :=
  let (s, perm) := countFailure .cluster c s
  if perm then retireCluster c s
  else modCluster c (fun y => { y with tiles := y.current.toList ++ y.tiles, current := none }) s

/-- One failure of a Ferry (R336): its streams go on from their last acknowledged slabs. -/
def ferryFailure (f : Nat) (s : State) : State :=
  let (s, perm) := countFailure .ferry f s
  if perm then retireFerry f s else s

end Sys2Proof.Machine
end

