-- ==== Sys2Proof/Machine/Flow.lean ====
section
/-! DEFINITION. Launches with their Laces and handles (R176 to R181), the stop of requests (R190, R191, R194) and the
delivery of joins into Laces (R95 to R98, R127 to R130). How one slab carries the vectors of
several requests: notes/assumptions/24.md (DEDUCED). Choices of the model: notes/assumptions/17.md (DESIGN CHOICE). -/

namespace Sys2Proof.Machine

/-! ## Launches and plans -/

def modLaunch (l : Nat) (f : Launch → Launch) (s : State) : State :=
  match tget? s.model.launches l with
  | some x => { s with model := { s.model with launches := tset s.model.launches l (f x) } }
  | none => s

def modReq (a : Nat) (f : Req → Req) (s : State) : State :=
  match tget? s.que.reqs a with
  | some r => { s with que := { s.que with reqs := tset s.que.reqs a (f r) } }
  | none => s

def modLace (n : Nat) (f : Lace → Lace) (s : State) : State :=
  match tget? s.flow.laces n with
  | some x => { s with flow := { s.flow with laces := tset s.flow.laces n (f x) } }
  | none => s

/-- The next generation (R245). -/
def nextGen (g : BitVec 16) : BitVec 16 := if g + 1 = 0 then 1 else g + 1

/-- The image hash of a slot's generation (R252). -/
def imageOf (s : State) (slot : Nat) (gen : BitVec 16) : Digest :=
  let sl := slotOf s slot
  if sl.oldGen = some gen then sl.oldImage else sl.imageHash

def layerJoins (p : LastPlan) (layer : Nat) : List JoinPlan := p.joins.filter fun j => j.layer = layer
def layerLaces (p : LastPlan) (layer : Nat) : List LacePlan := p.laces.filter fun y => y.layer = layer
def streamPlan (p : LastPlan) (n : Nat) : Option StreamPlan := p.streams.find? fun y => y.stream = n

/-- The sum of the depths of a layer's Laces (R180). -/
def depthSum (p : LastPlan) (layer : Nat) : Nat := ((layerLaces p layer).map fun y => y.depth).sum

/-- Outputs that a vector of a layer gives: one for each join, or one for a Shank step. -/
def layerOuts (p : LastPlan) (layer : Nat) : Nat :=
  match layerOf p layer with
  | some y => if y.onShank then 1 else (layerJoins p layer).length
  | none => 0

/-- The request that vector `v` of a launch belongs to (R189). -/
def vecReq : List (Nat × Nat) → Nat → Option Nat
  | [], _ => none
  | (a, n) :: t, v => if v < n then some a else vecReq t (v - n)

/-- The first vector of a request within a launch, and how many it has there. -/
def reqRange : List (Nat × Nat) → Nat → Nat → Option (Nat × Nat)
  | [], _, _ => none
  | (b, n) :: t, a, off => if b = a then some (off, n) else reqRange t a (off + n)

/-- A request is stopped, or has gone. -/
def reqStopped (s : State) (a : Nat) : Bool :=
  match tget? s.que.reqs a with
  | some r => r.stopped.isSome
  | none => true

/-- The descriptor of a format that a launch was admitted under (R33, R117, R118): POLICY.OVF_SAT and NAN_OUT. -/
def fmtPolicy (x : Launch) (fmt : Nat) : Bool × Nat :=
  let b := tget x.values (ob 0xB010 fmt) []
  (bitAt (fld b 10 1) 0, fld b 12 4)

/-- The format descriptors and the curve records in force (R33, R117, R151). -/
def launchValues (s : State) : Tab Bytes :=
  ((List.range 13).map fun k => (ob 0xB010 (k + 1), dictActive s (ob 0xB010 (k + 1)) 0)) ++
    (List.range 8).map fun k => (ob 0xB030 (k + 1), dictActive s (ob 0xB030 (k + 1)) 0)

/-- The vectors of a launch that belong to requests which have not been stopped (R190). -/
def liveVec (s : State) (x : Launch) (v : Nat) : Bool :=
  match vecReq x.reqs v with
  | some a => !reqStopped s a
  | none => false

/-! ## Handles (R176, R178 to R180) -/

/-- The number of a context group's KV pool. -/
def kvPool (g : Nat) : Nat := 64 + g

/-- The segment of a handle. -/
def handleSeg (h : BitVec 16) : Nat := h.toNat / 4096

/-- Return handles to a pool; those of a segment that is changing hands (R161) or has FAILED (R476) stay out of it. -/
def poolReturn (pool : Nat) (hs : List (BitVec 16)) (s : State) : State :=
  let back := hs.filter fun h => (segOf s (handleSeg h)).next.isNone && !(domState s (domSeg (handleSeg h)) == .failed)
  { s with flow := { s.flow with pools := tmod s.flow.pools pool [] fun l => l ++ back } }

/-- Take `n` handles out of a pool. -/
def poolTake (pool n : Nat) (s : State) : List (BitVec 16) × State :=
  let l := tget s.flow.pools pool []
  (l.take n, { s with flow := { s.flow with pools := tset s.flow.pools pool (l.drop n) } })

/-- The handle that a producer of Lace `n` would take next (R178, R180): none where the Lace is full or nothing is reserved. -/
def nextHandle (s : State) (n : Nat) : Option (BitVec 16) :=
  match tget? s.flow.laces n with
  | none => none
  | some la => if la.depth ≤ la.held.length then none else (tget? s.model.launches la.launch).bind fun l => l.reserved.head?

/-- A producer takes a handle of its launch's reservation for Lace `n` (R178, R180): the requests whose data its slab
carries, where the slab begins, whether a Ferry fills it. -/
def laceTake (n : Nat) (reqs : List Nat) (vec off : Nat) (ferry : Bool) (s : State) : Option (BitVec 16 × State) :=
  match tget? s.flow.laces n with
  | none => none
  | some la =>
    if la.depth ≤ la.held.length then none
    else match tget? s.model.launches la.launch with
      | none => none
      | some l =>
        match l.reserved with
        | [] => none
        | h :: t =>
          let all := List.range la.consumers.length
          let s := modLaunch la.launch (fun l => { l with reserved := t }) s
          some (h, modLace n (fun la => { la with held := la.held ++ [{ h, reqs, waits := all, vec, off, ferry }] }) s)

/-- Push an entry onto a Lace (R178, R179): every consumer receives it. -/
def pushEntry (n : Nat) (e : LaceEntry) (s : State) : State :=
  modLace n (fun la =>
    { la with pushed := la.pushed + 1, consumers := la.consumers.map fun c => { c with waiting := c.waiting ++ [e] } }) s

/-- The Lace that holds a handle. -/
def laceOfHandle (s : State) (h : BitVec 16) : Option (Nat × Lace) :=
  s.flow.laces.find? fun e => e.2.held.any fun k => k.h = h

/-- Start the clear of a slab that every consumer has released and no recompute holds (R143, R164, R179): until it has ended,
the slab is a region under clear. -/
def clearReleased (h : BitVec 16) (s : State) : State :=
  match laceOfHandle s h with
  | none => s
  | some (_, la) =>
    let free := la.held.any fun k => k.h = h && k.waits = []
    if free && !s.flow.recomputeHolds.contains h && !(s.flow.clearing.any fun c => c.1 = h) then
      let pool := ((tget? s.model.launches la.launch).map fun l => l.slot).getD 0
      { s with flow := { s.flow with clearing := s.flow.clearing ++ [(h, pool)] }
               hbr := { s.hbr with clears := s.hbr.clears ++ [(slabAddr h.toNat, 16384)] } }
    else s

/-- A consumer of Lace `n` releases a handle (R179). -/
def releaseHandle (n : Nat) (h : BitVec 16) (c : Nat) (s : State) : State :=
  clearReleased h (modLace n (fun la =>
    { la with held := la.held.map fun k => if k.h = h then { k with waits := k.waits.filter fun i => i ≠ c } else k }) s)

/-- A consumer still has to read this handle's entry. -/
def entryWaits (c : LaceConsumer) (h : BitVec 16) : Bool := c.waiting.any fun e => e.slab = h

/-! ## Reading a slab of planes (R186) -/

/-- The header of a slab of bit planes: VCOUNT, CONT, BLOCKS and, for each beginning vector, e_x, B and SPECIAL. -/
def slabHeader (b : Bytes) : Nat × Bool × Nat × List (Int × Nat × Bool) :=
  let n := min 15 (fld b 0 1)
  (n, bitAt (fld b 1 1) 0, fld b 2 2,
   (List.range n).map fun k =>
     (signedAt 16 (fld b (4 + 4 * k) 2), fld b (6 + 4 * k) 1, bitAt (fld b (7 + 4 * k) 1) 0))

/-- Plane `b` of the row block at `off` of a slab's bytes. -/
def planeAt (slab : Bytes) (off b : Nat) : BitVec 1024 := BitVec.ofNat 1024 (fld slab (off + 128 * b) 128)

/-- The integers of a row block of B planes (R80, R90). -/
def blockInts (slab : Bytes) (off planes : Nat) : List Int :=
  let ps := (List.range planes).map fun b => (planeAt slab off b).toNat
  (List.range 1024).map fun i =>
    ((List.range planes).map fun b =>
      let bit : Int := if bitAt (ps.getD b 0) i then 1 else 0
      if b + 1 = planes then -(2 ^ b * bit) else 2 ^ b * bit).sum

/-! ## Where a join lives (R95, R102) -/

/-- A join's home: an island's Welt, by island number, or a cluster's long-accumulator block, 2,048 + cluster. -/
def homeJoins (s : State) (home : Nat) : Tab Join :=
  if home < 2048 then (islandOf s home).joins else (clusterOf s (home - 2048)).joins

def setHomeJoins (home : Nat) (t : Tab Join) (s : State) : State :=
  if home < 2048 then modIsland home (fun i => { i with joins := t }) s
  else modCluster (home - 2048) (fun c => { c with joins := t }) s

def modJoin (home id : Nat) (f : Join → Join) (s : State) : State :=
  match tget? (homeJoins s home) id with
  | some j => setHomeJoins home (tset (homeJoins s home) id (f j)) s
  | none => s

/-- Every open join, as (home, JOIN_ID, join). -/
def allJoins (s : State) : List (Nat × Nat × Join) :=
  (s.islands.flatMap fun i => i.2.joins.map fun j => (i.1, j.1, j.2)) ++
    s.clusters.flatMap fun c => c.2.joins.map fun j => (2048 + c.1, j.1, j.2)

/-- The open joins of a launch. -/
def launchJoins (s : State) (l : Nat) : List (Nat × Nat × Join) := (allJoins s).filter fun e => e.2.2.launch = l

/-- The open join of a join of the Last and a vector. -/
def joinAt (s : State) (l plan vec : Nat) : Option (Nat × Nat × Join) :=
  (launchJoins s l).find? fun e => e.2.2.plan = plan && e.2.2.vec = vec

/-- Free lanes of a Welt or of a cluster's block (R95, R132). -/
def lanesFree (s : State) (home : Nat) : Nat :=
  2048 - ((homeJoins s home).map fun j => j.2.lanes.length).sum

/-- Set the final mark of the first source that `p` names and that has not set it (R96). -/
def markSource (p : SourceId → Bool) : List Source → List Source
  | [] => []
  | x :: t => if p x.id && !x.final then { x with final := true } :: t else x :: markSource p t

/-- Every declared source has set its final mark (R96). -/
def joinEnded (j : Join) : Bool := j.sources.all fun x => x.final

/-! ## Long-sum packets (R99, R100) -/

/-- Magnitude limbs of a lane. -/
def limbOf (m : BitVec 320) (k : Nat) : BitVec 64 := BitVec.ofNat 64 (m.toNat >>> (64 * k))

/-- The descriptor flit and the limbs of one lane (R99, R100). -/
def laneFlits (lane : Nat) (l : BitVec 320) : List (BitVec 64) :=
  let neg := l.toInt < 0
  let m : BitVec 320 := if neg then 0 - l else l
  let present := (List.range 5).filter fun k => limbOf m k ≠ 0
  let mask := (present.map fun k => 2 ^ k).sum
  BitVec.ofNat 64 (lane * 2 ^ 53 + b2n neg * 2 ^ 52 + mask * 2 ^ 47) :: present.map (limbOf m)

/-- The flits of a poisoned lane (R322): LIMB_MASK 0b11111, limb 0 marked. -/
def badLane (lane : Nat) (l : BitVec 320) : List Flit :=
  let neg := l.toInt < 0
  let m : BitVec 320 := if neg then 0 - l else l
  let limbs := (List.range 5).map fun k => mkFlit (limbOf m k)
  mkFlit (BitVec.ofNat 64 (lane * 2 ^ 53 + b2n neg * 2 ^ 52 + 31 * 2 ^ 47)) :: match limbs with
    | [] => []
    | x :: t => poisonFlit x :: t

/-- A long-sum packet (R99): destination module and island, source, JOIN_ID, the lanes from `first` on with those of `bad`
poisoned, FINAL. -/
def longSumPacket (dm di sm : Nat) (shank : Bool) (unit id first : Nat) (lanes : List (BitVec 320)) (bad : Nat → Bool)
    (final : Bool) : List Flit :=
  let header := 3 * 2 ^ 60 + dm * 2 ^ 57 + di * 2 ^ 46 + sm * 2 ^ 43 + b2n shank * 2 ^ 42 + unit % 2048 * 2 ^ 31 +
    id % 65536 * 2 ^ 15 + lanes.length * 2 ^ 3 + b2n final
  let one := fun (p : Nat × BitVec 320) => if bad (first + p.1) then badLane (first + p.1) p.2 else (laneFlits (first + p.1) p.2).map mkFlit
  mkFlit (BitVec.ofNat 64 header) :: ((List.range lanes.length).zip lanes).flatMap one

/-- The Sound port of a join's home (R171): islands have ports 0 to 2,047, clusters 2,048 on. -/
def homePort (home : Nat) : BitVec 12 := BitVec.ofNat 12 home

/-! ## Joins end (R97, R98) -/

/-- The poison flag of each 64-bit word of packed elements of `w` bits (R322). -/
def wordPoison (w : Nat) (bad : List Bool) (words : Nat) : List Bool :=
  (List.range words).map fun k =>
    (List.range (64 / max 1 w + 2)).any fun i =>
      let e := 64 * k / max 1 w + i
      decide (e * w < 64 * (k + 1)) && decide (64 * k < (e + 1) * w) && bad.getD e false

/-- One output of a request's present step has come out of it (R198). -/
def countOut (a n : Nat) (s : State) : State :=
  modReq a (fun r =>
    let left := r.left - n
    if left = 0 then { r with left := 0, step := r.step + 1, asked := false, barred := false } else { r with left }) s

/-- The Lace feeds a stream that carries the request's results (R333). -/
def resultLace (s : State) (x : Launch) (lace a : Nat) : Bool :=
  match (launchPlan s x).bind (fun p => p.laces.find? fun y => y.lace = lace), tget? s.que.reqs a with
  | some y, some r => r.streams.any fun t => t.output && y.drains.contains t.stream
  | _, _ => false

/-- The outputs that a Lace of a launch carries (R97): the joins of the Last that round into it, or 0 for a Shank step. -/
def lacePlans (s : State) (x : Launch) (lace : Nat) : List Nat :=
  match launchPlan s x with
  | none => []
  | some p =>
    if ((layerOf p x.layer).map fun y => y.onShank).getD false then [0]
    else (layerJoins p x.layer).filterMap fun j => match j.ending with
      | .round _ _ _ k => if k = lace then some j.join else none
      | .forward _ _ => none

/-- Nothing but this output is still to come onto the Lace (R177): its slab is the last of the stream. -/
def lastOutput (s : State) (x : Launch) (lace plan vec : Nat) : Bool :=
  (List.range x.vectors).all fun v => (lacePlans s x lace).all fun j =>
    (j = plan && v = vec) || x.delivered.contains (j, v) || !liveVec s x v

/-- The hardware Lace of a launch's Lace. -/
def hwLace (x : Launch) (lace : Nat) : Option Nat := (x.laces.find? fun e => e.1 = lace).map Prod.snd

/-- The slab that the next output of a Lace goes to cannot be written yet (R19, R164, R166). -/
def deliverWaits (s : State) (l lace : Nat) : Bool :=
  match ((tget? s.model.launches l).bind fun x => hwLace x lace).bind fun n => nextHandle s n with
  | some h => runWaits s (slabAddr h.toNat) 16384
  | none => false

/-- Wake the segment that a Lace's next output waits for (R166). -/
def deliverWake (l lace : Nat) (s : State) : State :=
  match ((tget? s.model.launches l).bind fun x => hwLace x lace).bind fun n => nextHandle s n with
  | some h => runWake (slabAddr h.toNat) 16384 s
  | none => s

/-- Hand the outputs of a join or of a Shank step on by Lace (R97, R181): none where the Lace has no room yet. `port` is the
unit that writes. -/
def deliver (port : BitVec 12) (l lace plan vec fmt : Nat) (o : JoinOut) (special : Bool) (s : State) : Option State :=
  match tget? s.model.launches l with
  | none => none
  | some x =>
    match hwLace x lace, vecReq x.reqs vec with
    | some hw, some a =>
      match laceTake hw [a] vec 0 false s with
      | none => none
      | some (h, s) =>
        let bytes := tensorBytes fmt false o.codes o.scales
        let words := ceilDiv bytes.length 8
        let s := storeMarked port (slabAddr h.toNat) bytes (wordPoison (fmtWidth fmt) o.poison words) s
        let seq := ((tget? s.flow.laces hw).map fun la => la.pushed).getD 0
        let e : LaceEntry :=
          { slab := h, fill := BitVec.ofNat 15 bytes.length, poison := o.poison.any id, special,
            last := lastOutput s x lace plan vec, late := false,
            gen := x.gen, seq := BitVec.ofNat 12 seq }
        let s := pushEntry hw e s
        let s := modLaunch l (fun x => { x with delivered := x.delivered ++ [(plan, vec)] }) s
        let s := if resultLace s x lace a then
            modReq a (fun r => { r with poison := r.poison + (o.poison.filter id).length }) s else s
        some (countOut a 1 s)
    | _, _ => none

/-- The rounded outputs of a join, and the counts that go with them (R97, R98, R118, R127 to R130). -/
def roundedJoin (x : Launch) (j : Join) (fmt m : Nat) (ey : Int) : JoinOut :=
  let pol := fmtPolicy x fmt
  let bad := (List.range j.lanes.length).map fun k => j.bad.contains k
  roundJoin fmt m ey pol.1 pol.2 j.special j.poisoned (j.lanes.map (laneValue j.ex)) bad

/-- The lanes of a join that a packet poisons (R98, R130, R332). -/
def forwardBad (j : Join) (k : Nat) : Bool := j.poisoned || j.bad.contains k

/-- Send a join's lanes unrounded to an open join of this module (R97, R99). -/
def forwardHere (home : Nat) (j : Join) (plan : Nat) (s : State) : State :=
  let unit := if home < 2048 then home else home - 2048
  let shank := decide (2048 ≤ home)
  match joinAt s j.launch plan j.vec with
  | some (h, id, d) =>
    sendHeld (homePort h) (longSumPacket (selfId s) d.island (selfId s) shank unit id 0 j.lanes (forwardBad j) true) false s
  | none => s

/-- Send a join's lanes unrounded to the join that the Last names (R97, R405). -/
def forwardJoin (home : Nat) (j : Join) (rank join : Nat) (s : State) : State :=
  let unit := if home < 2048 then home else home - 2048
  let shank := decide (2048 ≤ home)
  let dm := modOfRank s rank
  if membersOf s = [] || dm = selfId s then forwardHere home j join s
  else if mayCarry s dm then
    let (di, s) := takeFree s
    let (id, s) := takeFree s
    let port := linkPort ((gangLink s dm home).getD 0)
    sendHeld port (longSumPacket dm (di % 2048) (selfId s) shank unit id 0 j.lanes (forwardBad j) true) false s
  else bump (ob 0x6214 1) s

/-- Joins from this number on gather the slices of one join of the Last that lie on another island than it (R206): their
partial is forwarded to it. -/
def partialBase : Nat := 2 ^ 32

/-- What the SEC-DED code finds when limbs of the `touched` lanes are read (R92, R98, R321 to R323): a correction is counted and
written back; a limb beyond correction poisons its lane, is counted, and is a failure of the island, or of the cluster that
holds the lanes (R336). -/
def limbFailure (home : Nat) (s : State) : State :=
  if home < 2048 then islandFailure home (uncorrectable 3 home s) else clusterFailure (home - 2048) (uncorrectable 6 (home - 2048) s)

/-- Read limbs of a join's lanes, as `limbFailure` says. -/
def limbRead (home : Nat) (touched : Nat → Bool) (j : Join) (s : State) : Join × State :=
  j.dev.foldl (fun (acc : Join × State) e =>
    let (j, s) := acc
    let lane := e.1 / 5
    let limb := e.1 % 5
    if !touched lane then (j, s)
    else match eccDecode e.2 with
    | .clean => (j, s)
    | .poison => (j, s)
    | .checkBit k =>
      ({ j with dev := tdel j.dev e.1 }, correctedError (if home < 2048 then 1 else 2) (home % 2048) e.1 (64 + k) s)
    | .dataBit i =>
      ({ j with dev := tdel j.dev e.1
                lanes := j.lanes.set lane ((j.lanes.getD lane 0) ^^^ BitVec.ofNat 320 (2 ^ (64 * limb + i))) },
       correctedError (if home < 2048 then 1 else 2) (home % 2048) e.1 i s)
    | .uncorrectable =>
      ({ j with bad := j.bad ++ [lane], dev := tset j.dev e.1 0xFF }, limbFailure home s)) (j, s)

/-- Read every limb of a join (R98). -/
def joinRead (home id : Nat) (s : State) : State :=
  match tget? (homeJoins s home) id with
  | none => s
  | some j =>
    if j.dev = [] then s
    else
      let (k, s) := limbRead home (fun _ => true) j s
      setHomeJoins home (tset (homeJoins s home) id k) s

/-- End a join of the Last with its rounding or its forward (R97). -/
def endJoin (home id : Nat) (j : Join) (x : Launch) (ending : JoinEnd) (s : State) : State :=
  match ending with
  | .forward rank join =>
    let s := setHomeJoins home (tdel (homeJoins s home) id) (forwardJoin home j rank join s)
    let s := modLaunch j.launch (fun x => { x with delivered := x.delivered ++ [(j.plan, j.vec)] }) s
    match vecReq x.reqs j.vec with
    | some a => countOut a 1 s
    | none => s
  | .round fmt m ey lace =>
    let o := roundedJoin x j fmt.toNat m ey
    if deliverWaits s j.launch lace then deliverWake j.launch lace s
    else match deliver (homePort home) j.launch lace j.plan j.vec fmt.toNat o j.special s with
      | none => s
      | some s =>
        let s := bumpBy (ob 0x3018 1) o.sats (bumpBy (ob 0x3019 1) o.infs (bumpBy (ob 0x3016 1) j.bad.eraseDups.length s))
        setHomeJoins home (tdel (homeJoins s home) id) s

/-- Another module fills this Lace by multicast (R407). -/
def filledByPeer (s : State) (slot lace : Nat) : Bool :=
  let self := rankOf s (selfId s)
  s.strait.mcasts.any fun m => m.slot = slot && m.plan.lace = lace && m.plan.sender ≠ self && m.plan.receivers.getLsbD self

/-- A Lace of the Last brings vectors to this module: a stream of the Last fills it here, or another module does. -/
def laceFed (s : State) (slot : Nat) (p : LastPlan) (lace : Nat) : Bool :=
  (p.streams.any fun y => !y.output && y.lace = lace) || filledByPeer s slot lace

/-- A join that ends by rounding has the e_x and the marks of its vector (R81, R97, R123). -/
def joinKnown (s : State) (x : Launch) (p : LastPlan) (jp : JoinPlan) (j : Join) : Bool :=
  match jp.ending with
  | .round _ _ _ _ => j.known || !laceFed s x.slot p jp.input
  | .forward _ _ => true

/-- End a join whose sources have all finished (R96, R97), its limbs read once more (R98): joins of one join of the Last come
out in vector order. -/
def settleJoin (home id : Nat) (s₀ : State) : State :=
  let ended := ((tget? (homeJoins s₀ home) id).map joinEnded).getD false
  let s := if ended then joinRead home id s₀ else s₀
  match tget? (homeJoins s home) id with
  | none => s
  | some j =>
    match tget? s.model.launches j.launch with
    | none => s
    | some x =>
      if !joinEnded j then s
      else if partialBase ≤ j.plan then
        setHomeJoins home (tdel (homeJoins s home) id) (forwardHere home j (j.plan - partialBase) s)
      else match (launchPlan s x).bind fun p => (p.joins.find? fun y => y.join = j.plan).map fun jp => (p, jp) with
        | none => s
        | some (p, jp) =>
          if !joinKnown s x p jp j then s
          else if (List.range j.vec).all fun v => x.delivered.contains (j.plan, v) || !liveVec s x v then
            endJoin home id j x jp.ending s else s

/-- Insert a join in rising vector order. -/
def insertJoin (e : Nat × Nat × Join) : List (Nat × Nat × Join) → List (Nat × Nat × Join)
  | [] => [e]
  | k :: t => if e.2.2.vec < k.2.2.vec then e :: k :: t else k :: insertJoin e t

/-- End every join of a launch that can end now, in vector order. -/
def settleLaunch (l : Nat) (s : State) : State :=
  ((launchJoins s l).foldr insertJoin []).foldl (fun s e => settleJoin e.1 e.2.1 s) s

/-- The launch that a tile of cluster `c` works for. -/
def tileLaunch (s : State) (c : Nat) (t : Tile) : Option Nat :=
  match t.work with
  | .recompute n => ((tget? (clusterOf s c).recomputes n).bind fun r =>
      ((tget? (islandOf s r.island).joins r.join).map fun j => j.launch))
  | .cover l _ _ _ _ _ => some l
  | .step l _ _ _ _ _ => some l
  | .adapter l _ _ _ _ => some l

/-- The vector that a tile works on. -/
def tileVec (t : Tile) : Option Nat :=
  match t.work with
  | .recompute _ => none
  | .cover _ _ v _ _ _ => some v
  | .step _ v _ _ _ _ => some v
  | .adapter _ _ v _ _ => some v

/-! ## Ends of launches (R180, R484) -/

/-- Outputs that a launch owes for its live vectors, handed on or not. -/
def launchOwes (s : State) (x : Launch) : Bool :=
  match launchPlan s x with
  | none => false
  | some p =>
    let plans : List Nat := match layerOf p x.layer with
      | some y => if y.onShank then [0] else (layerJoins p x.layer).map fun (j : JoinPlan) => j.join
      | none => []
    (List.range x.vectors).any fun v => liveVec s x v && plans.any fun j => !x.delivered.contains (j, v)

/-- Some tile or recompute of a launch is at a cluster. -/
def launchOnShank (s : State) (l : Nat) : Bool :=
  s.clusters.any fun c => (c.2.tiles ++ c.2.current.toList).any fun t => tileLaunch s c.1 t = some l

/-- A stream still moves, or is still to move, data of one of a launch's Laces (R180). -/
def launchStreams (s : State) (x : Launch) : Bool :=
  let mine := fun (d : Desc) => x.laces.any fun e =>
    (d.srcKind = 0 && d.laceIn.toNat = e.2) || (x.reqs.any fun r => r.1 = d.request.toNat) && d.laceOut.toNat = e.2
  (s.flow.waiting.any fun d => mine d.2) || s.flow.ferries.any fun f => f.2.streams.any fun t => mine t.2.desc

/-- A launch has done all its work, drained its Laces and ended its streams. -/
def launchDone (s : State) (l : Nat) (x : Launch) : Bool :=
  !(s.islands.any fun i => i.2.threads.any fun t => t.2.launch = l) && launchJoins s l = [] && !launchOnShank s l && !launchStreams s x &&
    (x.laces.all fun e => match tget? s.flow.laces e.2 with
      | some la => (la.held.all fun k => k.awaits) && la.consumers.all fun c => c.waiting = []
      | none => true) &&
    (x.cancelled || !launchOwes s x)

/-- The handles of a launch's Laces that have been granted to a multicast sender and not been used (R408). -/
def unusedGrants (s : State) (x : Launch) : List (BitVec 16) :=
  x.laces.flatMap fun e => ((tget? s.flow.laces e.2).map fun la => (la.held.filter fun k => k.awaits).map fun k => k.h).getD []

/-- The grants that a sender keeps when a launch ends (R408): of each receiver, those beyond the launch's reservation, which is the
Lace's depth less the copies that have not been cleared; a grant of the next launch may have come already. -/
def grantsLeft (s : State) (x : Launch) (m : Mcast) : List (Nat × BitVec 30) :=
  let depth := (((launchPlan s x).bind fun p => p.laces.find? fun y => y.lace = m.plan.lace).map fun y => y.depth).getD 0
  (tkeys m.grants).eraseDups.flatMap fun k =>
    (m.grants.filter fun g => g.1 = k).drop (depth - (m.credits.filter fun c => c.1 = k).length)

/-- End a launch that is done (R180): its Laces are free, unused handles return to the pool. -/
def endLaunch (l : Nat) (s : State) : State :=
  match tget? s.model.launches l with
  | none => s
  | some x =>
    if launchDone s l x then
      let back := x.reserved ++ unusedGrants s x
      let sends := fun (m : Mcast) => m.plan.sender = rankOf s (selfId s) && x.laces.any fun y => y.1 = m.plan.lace
      let s := { s with
        flow := { s.flow with laces := s.flow.laces.filter fun e => !(x.laces.any fun y => y.2 = e.1) }
        model := { s.model with launches := tdel s.model.launches l }
        strait := { s.strait with mcasts := s.strait.mcasts.map fun m =>
          if m.slot = x.slot then { m with cut := [], grants := if sends m then grantsLeft s x m else m.grants } else m } }
      poolReturn x.slot back s
    else s

/-- End the launches of a request that are done. -/
def endFor (a : Nat) (s : State) : State :=
  (s.model.launches.filter fun l => l.2.reqs.any fun r => r.1 = a).foldl (fun s l => endLaunch l.1 s) s

/-- The array charge of a launch ends with its last pulse cycle (R484). -/
def dropCharge (l : Nat) (s : State) : State :=
  let busy := s.islands.any fun i =>
    (i.2.threads.any fun t => t.2.launch = l)
  if busy then s else modLaunch l (fun x => { x with charged := false }) s

/-! ## Final marks of a thread's slices (R96) -/

def setConsumer (n c : Nat) (x : LaceConsumer) (s : State) : State :=
  modLace n (fun la => { la with consumers := la.consumers.set c x }) s

/-- A thread's consumer has read the row block of vector `v` that a slice takes. -/
def blockRead (c : LaceConsumer) (rowBlock v : Nat) : Bool :=
  c.skips.contains v || decide (v + 1 < c.vecs) || (decide (v + 1 = c.vecs) && decide (rowBlock < c.blocks))

/-- The consumer that a thread is on the Lace that one of its slices reads. -/
def sliceConsumer (s : State) (i t : Nat) (w : SliceWork) : Option LaceConsumer :=
  (tget? s.flow.laces w.lace).bind fun la => la.consumers.find? fun c => c.who == Consumer.thread i t

/-- A slice has nothing left to convert for vector `v`; a stopped request's vectors ask for nothing (R190). -/
def sliceFinal (s : State) (x : Launch) (i t : Nat) (w : SliceWork) (v : Nat) : Bool :=
  (!liveVec s x v || ((sliceConsumer s i t w).map fun c => blockRead c w.rowBlock v).getD false) &&
    !(w.groups.any fun g => g.vec = v) &&
    !((islandOf s i).pulses.any fun p => p.2.thread.val = t && p.2.slice = w.slice && p.2.group.vec = v)

/-- Set the final marks of a thread's slices (R96), and free the thread when all its work is done. -/
def markFinals (i t : Nat) (s : State) : State :=
  match tget? (islandOf s i).threads t with
  | none => s
  | some th =>
    match tget? s.model.launches th.launch with
    | some x =>
      let vs := List.range x.vectors
      let s := th.works.foldl (fun s w => vs.foldl (fun s v =>
        if sliceFinal s x i t w v then
          modJoin i (w.joinBase + v) (fun j =>
            { j with sources := markSource (fun id => id == .slice w.slice) j.sources }) s
        else s) s) s
      let allDone := th.works.all fun w => vs.all fun v => sliceFinal s x i t w v
      let s := if allDone then dropCharge th.launch (modIsland i (fun y => { y with threads := tdel y.threads t }) s) else s
      endLaunch th.launch (settleLaunch th.launch s)
    | none => s

/-- Set the final marks of every thread of a launch. -/
def markLaunch (l : Nat) (s : State) : State :=
  s.islands.foldl (fun s e => e.2.threads.foldl (fun s t => if t.2.launch = l then markFinals e.1 t.1 s else s) s) s

/-! ## Slabs that the next request's vectors go on filling (R186, R189) -/

/-- The bytes of a slab: planes with their header (R186), or plain bytes. -/
def openBytes (planes : Bool) (o : OpenSlab) : Bytes :=
  if planes then
    leBytes 1 o.heads.length ++ leBytes 1 (b2n o.cont) ++ leBytes 2 o.blocks.length ++ fit o.heads.flatten 60 ++ o.blocks.flatten
  else o.data

/-- The requests of a Lace's launch whose streams are still to feed it (R189). -/
def stillToFeed (s : State) (n : Nat) : List Nat :=
  match tget? s.flow.laces n with
  | none => []
  | some la =>
    match tget? s.model.launches la.launch with
    | none => []
    | some x => (x.reqs.map Prod.fst).filter fun a => !la.fed.contains a && !reqStopped s a

/-- The stream of the Last that fills a Lace forms bit planes (R186). -/
def lacePlanes (s : State) (n : Nat) : Bool :=
  match tget? s.flow.laces n with
  | none => false
  | some la =>
    match tget? s.model.launches la.launch with
    | none => false
    | some x => match launchPlan s x, (x.laces.find? fun e => e.2 = n).map Prod.fst with
      | some p, some lace => ((p.streams.find? fun y => !y.output && y.lace = lace).map fun y => y.conv = 1 || y.conv = 2).getD false
      | _, _ => false

/-- Write and push a slab that a Ferry has filled (R177, R179). -/
def pushFilled (port : BitVec 12) (n : Nat) (o : OpenSlab) (planes last late : Bool) (s : State) : State :=
  match tget? s.flow.laces n with
  | none => s
  | some la =>
    let b := openBytes planes o
    let gen := ((tget? s.model.launches la.launch).map fun x => x.gen).getD 0
    let e : LaceEntry := { slab := o.h, fill := BitVec.ofNat 15 b.length, poison := o.poison, special := o.special, last, late, gen,
                           seq := BitVec.ofNat 12 la.pushed }
    pushEntry n e (storeRun port (slabAddr o.h.toNat) b o.poison s)

/-- A slab deadline has passed (R193). -/
def pastDue (s : State) (due : BitVec 64) : Bool := decide (due ≠ 0) && decide (due.toNat < (tideOf s).toNat)

/-- The requests for which a slab is late (R193): each by its own slab deadline. -/
def lateFor (s : State) (dues : List (Nat × BitVec 64)) : List Nat := ((dues.filter fun e => pastDue s e.2).map Prod.fst).eraseDups

/-- A slab is late for these requests: it is counted once (R193). -/
def markLate (as_ : List Nat) (s : State) : State :=
  if as_ = [] then s
  else as_.foldl (fun s a => modReq a (fun r => { r with late := true }) s) (bump (ob 0x4051 1) s)

/-- Push the open slab of a Lace once no further request is to fill it (R189, R190); it is late as any slab is (R193). -/
def flushOpen (n : Nat) (s : State) : State :=
  match (tget? s.flow.laces n).bind fun la => la.partialSlab with
  | none => s
  | some o =>
    if stillToFeed s n ≠ [] then s
    else
      let late := lateFor s o.dues
      markLate late (pushFilled 2336 n o (lacePlanes s n) true (late ≠ []) (modLace n (fun la => { la with partialSlab := none }) s))

/-! ## Stopping a request (R190, R191, R194, R247) -/

/-- A slice's work without the groups of the vectors that `mine` names. -/
def workWithout (mine : Nat → Bool) (w : SliceWork) : SliceWork :=
  let rerun := match w.groups with
    | g :: _ => w.rerun && !mine g.vec
    | [] => false
  { w with groups := w.groups.filter fun g => !mine g.vec, rerun }

/-- Drop the groups of a request's vectors from a launch's threads (R190). -/
def dropGroups (l start n : Nat) (s : State) : State :=
  let mine := fun (v : Nat) => decide (start ≤ v) && decide (v < start + n)
  let thread := fun (t : Thread) => if t.launch = l then { t with works := t.works.map (workWithout mine) } else t
  { s with islands := s.islands.map fun i =>
    (i.1, { i.2 with threads := i.2.threads.map fun t => (t.1, thread t.2) }) }

/-- End the joins of a request's vectors without output; their lanes are free again (R190). -/
def dropJoins (l start n : Nat) (s : State) : State :=
  let mine := fun (j : Join) => j.launch = l && decide (start ≤ j.vec) && decide (j.vec < start + n)
  let gone := ((launchJoins s l).filter fun e => mine e.2.2).map fun e => (e.2.2.plan, e.2.2.vec)
  let s := { s with
    islands := s.islands.map fun i => (i.1, { i.2 with joins := i.2.joins.filter fun j => !mine j.2 })
    clusters := s.clusters.map fun c => (c.1, { c.2 with joins := c.2.joins.filter fun j => !mine j.2 }) }
  modLaunch l (fun x => { x with delivered := x.delivered ++ gone }) s

/-- A stream is filling this handle. -/
def beingFilled (s : State) (h : BitVec 16) : Bool :=
  s.flow.ferries.any fun f => f.2.streams.any fun t => t.2.filling.contains h

/-- A held slab carries no data of a request that goes on (R190, R191). -/
def onlyStopped (s : State) (a : Nat) (k : Held) : Bool :=
  k.reqs.contains a && k.reqs.all fun b => b = a || reqStopped s b

/-- Recall the handles of a request in Lace `n` (R190, R191): slabs that a Ferry filled for the request and nobody has begun to read
are counted, those that carry other requests' data among them; such a slab stays, and its consumers skip the request's data; a slab
that is being filled is recalled, and counted, by CANCELLED_SLAB_RECALL. -/
def recallLace (n a : Nat) (s : State) : State :=
  match tget? s.flow.laces n with
  | none => s
  | some la =>
    let slabs := la.held.filter fun k => onlyStopped s a k && !beingFilled s k.h
    let mine := slabs.map fun k => k.h
    let isOpen := fun (h : BitVec 16) => (la.partialSlab.map fun o => o.h) = some h
    let unread := la.held.filter fun k => k.reqs.contains a && !beingFilled s k.h && k.ferry &&
      (isOpen k.h || la.consumers.all fun c => entryWaits c k.h)
    let s := bumpBy (ob 0x4022 1) unread.length s
    let s := modLace n (fun la => { la with
      held := la.held.map fun k => if mine.contains k.h then { k with waits := [] } else k
      partialSlab := (if mine.any isOpen then none else la.partialSlab)
      consumers := la.consumers.map fun c => { c with waiting := c.waiting.filter fun e => !mine.contains e.slab } }) s
    flushOpen n (mine.foldl (fun s h => clearReleased h s) s)

/-- Stop the work of a request in one launch (R190). -/
def stopInLaunch (a l : Nat) (s : State) : State :=
  match tget? s.model.launches l with
  | none => s
  | some x =>
    match reqRange x.reqs a 0 with
    | none => s
    | some (start, n) =>
      let s := dropJoins l start n (dropGroups l start n s)
      let mine := fun (t : Tile) => tileLaunch s 0 t = some l &&
        (match tileVec t with | some v => decide (start ≤ v) && decide (v < start + n) | none => false)
      let s := { s with clusters := s.clusters.map fun c =>
        (c.1, { c.2 with tiles := c.2.tiles.filter fun t => !mine t }) }
      let s := (x.laces.map Prod.snd).foldl (fun s k => recallLace k a s) s
      if x.reqs.all fun r => r.1 = a || reqStopped s r.1 then
        let s := modLaunch l (fun x => { x with cancelled := true, charged := false }) s
        endLaunch l { s with islands := s.islands.map fun i =>
          (i.1, { i.2 with threads := i.2.threads.filter fun t => t.2.launch ≠ l }) }
      else endLaunch l (settleLaunch l (markLaunch l s))

/-- A Ferry's streams once request `a` is stopped: a stream that still fills slabs stays until they are recalled. -/
def ferryWithout (a : Nat) (f : Ferry) : Ferry :=
  let mine := fun (t : Stream) => decide (t.desc.request.toNat = a)
  let kept := f.streams.filter fun t => !(mine t.2 && t.2.filling.isEmpty)
  { f with streams := kept.map fun t => if mine t.2 then (t.1, { t.2 with cancelled := true }) else t }

/-- An item of the governor's queue without request `a`. -/
def itemWithout (a : Nat) (g : GovItem) : Option GovItem :=
  match g.work with
  | .step slot gen layer reqs agreed =>
    let rest := reqs.filter fun r => r.1 ≠ a
    if rest = [] then none else some { g with work := .step slot gen layer rest agreed }
  | .cluster _ => some g

/-- Stop a request (R190): its Ferries take no further handles, its work ends, its handles are recalled. -/
def recallRequest (a : Nat) (s : State) : State :=
  let s := { s with
    flow := { s.flow with
      waiting := s.flow.waiting.filter fun d => d.2.request.toNat ≠ a
      ferries := s.flow.ferries.map fun (e : Nat × Ferry) => (e.1, ferryWithout a e.2) }
    power := { s.power with waiting := s.power.waiting.filterMap (itemWithout a) } }
  (s.model.launches.map Prod.fst).foldl (fun s l => stopInLaunch a l s) s

/-- A context's record says how many KV slabs it holds and where their map lies (R222). -/
def noteKv (ctx : Nat) (s : State) : State :=
  let n := (tget s.que.kv ctx []).length
  ctxWrite ctx 0x40 (leBytes 8 (if n = 0 then 0 else (Config.kvRoot ctx).toNat)) (ctxWrite ctx 0x1C (leBytes 4 n) s)

/-- Give back the KV slabs that a request took and that its end without success leaves unused (R154). -/
def revertKv (a : Nat) (s : State) : State :=
  match tget? s.que.reqs a with
  | none => s
  | some r =>
    if r.kvTaken = [] then s
    else
      let g := fld (ctxRecord s r.ctx) 2 2
      let s := { s with que := { s.que with
        kv := tmod s.que.kv r.ctx [] fun l => l.filter fun e => !r.kvTaken.contains e.1 } }
      poolReturn (kvPool g) r.kvTaken (noteKv r.ctx s)

/-- The RESULT of an INFER (R360). -/
def inferResult (r : Req) : Nat := r.written % 2 ^ 32 + r.gen.toNat * 2 ^ 32

/-- Stop a request and complete its command with `status` (R190, R247). -/
def stopRequest (a status detail : Nat) (discarded : Bool) (s : State) : State :=
  match tget? s.que.reqs a with
  | none => s
  | some r =>
    if r.stopped.isSome then s
    else
      let s := modReq a (fun r => { r with stopped := some (BitVec.ofNat 8 status), discarded }) s
      let s := revertKv a (recallRequest a s)
      finish a { status, detail, result := inferResult r, poison := r.poison, discarded } s

/-- The deadline policy of a request's pair is DISCARD (R194, R354). -/
def reqDiscards (s : State) (a : Nat) : Bool :=
  match tget? s.que.cmds a with
  | some c => pairDiscard (pairOf s c.pair)
  | none => false

/-- A request misses its deadline (R194): counted once, one event. -/
def countMiss (a : Nat) (s : State) : State := raise .deadlineMissed 9 a (bump (ob 0x4050 1) s)

/-- Under DISCARD, stop a request at its first late slab or at its deadline (R194). -/
def discardRequest (a : Nat) (s : State) : State :=
  match tget? s.que.reqs a with
  | none => s
  | some r =>
    if r.stopped.isSome then s
    else stopRequest a St.deadlineMissed 0 true (bump (ob 0x4053 1) (countMiss a s))

/-- Under DISCARD, stop every request that has had a late slab (R194). -/
def discardLate (s : State) : State :=
  s.que.reqs.foldl (fun s e => if e.2.late && reqDiscards s e.1 then discardRequest e.1 s else s) s

/-- A slab is late for these requests (R193, R194). -/
def lateSlabs (as_ : List Nat) (s : State) : State := if as_ = [] then s else discardLate (markLate as_ s)

/-- A slab of a request is late (R193, R194). -/
def lateSlab (a : Nat) (s : State) : State := lateSlabs [a] s

/-- The slab deadline of a descriptor has passed (R193). -/
def slabLate (s : State) (d : Desc) : Bool := pastDue s d.deadline

/-! ## Rows over handles -/

/-- Row groups of a slab that a thread has not yet converted (R179): they are formed from the slab's planes. -/
def groupsLeft (s : State) (i t : Nat) (h : BitVec 16) : Bool :=
  (((tget? (islandOf s i).threads t).map fun th => th.works.any fun w => w.groups.any fun g => g.handle = h).getD false) ||
    (islandOf s i).pulses.any fun p => p.2.thread.val = t && p.2.group.handle = h

/-- A consumer still reads from a slab that it has received (R179). -/
def stillReads (s : State) (w : Consumer) (h : BitVec 16) : Bool :=
  match w with
  | .thread i t => groupsLeft s i t h
  | _ => false

/-- HANDLE_RELEASE (R179): a consumer has read what it consumes of the slab. -/
def execHandleRelease (handle : BitVec 16) (consumer : Nat) (s : State) : Res :=
  match laceOfHandle s handle with
  | none => .next s
  | some (n, la) =>
    match la.consumers[consumer]? with
    | none => .next s
    | some c =>
      -- an entry that waits, or a slab that no entry names yet, has not been read
      if entryWaits c handle || (la.held.any fun k => k.h = handle && k.awaits) || beingFilled s handle || (la.partialSlab.map fun o => o.h) = some handle || stillReads s c.who handle then
        .next s
      else .next (releaseHandle n handle consumer s)

/-- The receiving side of a multicast slab that has been cleared (R408): its credit goes back, and, where `again`, the grant. -/
def mcastReturn (l hw : Nat) (h : BitVec 16) (again : Bool) (s : State) : State × Bool :=
  match tget? s.model.launches l with
  | none => (s, false)
  | some x =>
    match (x.laces.find? fun e => e.2 = hw).map Prod.fst with
    | none => (s, false)
    | some lace =>
      match s.strait.mcasts.find? fun m => m.slot = x.slot && m.plan.lace = lace &&
          m.plan.sender ≠ rankOf s (selfId s) with
      | none => (s, false)
      | some m =>
        let dest := modOfRank s m.plan.sender
        let s := sendCtl dest ctlCredit [m.plan.group, h.toNat] s
        if again then (sendCtl dest ctlGrant [m.plan.group, 16384 * h.toNat] s, true) else (s, false)

/-- SLAB_CLEARED (R179): the slab's clear has ended. While its launch runs, the handle goes back into the launch's
reservation (R180); after it, into the free pool. -/
def execSlabCleared (handle : BitVec 16) (s : State) : Res :=
  match s.flow.clearing.find? fun c => c.1 = handle with
  | none => .next s
  | some (_, pool) =>
    let h := hClear s.hbr (slabAddr handle.toNat) 16384
    let s := { s with hbr := { h with clears := h.clears.erase (slabAddr handle.toNat, 16384) }
                      flow := { s.flow with clearing := s.flow.clearing.filter fun c => c.1 ≠ handle } }
    let s := serveWaiting (noteCleared 16384 s)
    match laceOfHandle s handle with
    | none => .next (poolReturn pool [handle] s)
    | some (n, la) =>
      let s := modLace n (fun la => { la with held := la.held.filter fun k => k.h ≠ handle }) s
      match tget? s.model.launches la.launch with
      | none => .next (poolReturn pool [handle] s)
      | some x =>
        let (s, granted) := mcastReturn la.launch n handle (!x.cancelled) s
        let s := if granted then
            modLace n (fun la => { la with held := la.held ++
              [{ h := handle, reqs := [], waits := List.range la.consumers.length, vec := 0, off := 0, ferry := true, awaits := true }] }) s
          else modLaunch la.launch (fun x => { x with reserved := x.reserved ++ [handle] }) s
        .next (endLaunch la.launch (settleLaunch la.launch s))

end Sys2Proof.Machine
end

