-- ==== Sys2Proof/Machine/Feed.lean ====
section
/-! DEFINITION. What a slab tells its consumers (R81 to R84, R123, R130, R135, R179, R184, R186): row blocks and their row groups,
the marks that reach the joins, the tiles of Shank clusters. Choices of the model: notes/assumptions/17.md (DESIGN CHOICE). -/

namespace Sys2Proof.Machine

/-! ## Row blocks and row groups (R82 to R84, R186) -/

/-- The stream that fills a Lace of a launch. -/
def feedStream (s : State) (n : Nat) : Option StreamPlan :=
  match tget? s.flow.laces n with
  | none => none
  | some la =>
    match tget? s.model.launches la.launch with
    | none => none
    | some x =>
      match launchPlan s x, (x.laces.find? fun e => e.2 = n).map Prod.fst with
      | some p, some lace => p.streams.find? fun y => !y.output && y.lace = lace
      | _, _ => none

/-- One row block as a consumer meets it: vector, row block, planes, offset of its planes in the slab. -/
structure BlockRef where
  vec : Nat
  block : Nat
  planes : Nat
  offset : Nat
  ex : Int
  special : Bool

/-- Walk a slab's row blocks (R186): the blocks read, and the consumer's place after them. -/
def walkBlocks (nb : Nat) : Nat → Nat → List (Int × Nat × Bool) → LaceConsumer → List BlockRef × LaceConsumer
  | 0, _, _, c => ([], c)
  | fuel + 1, off, heads, c =>
    let fresh := decide (c.vecs = 0) || decide (nb ≤ c.blocks)
    let (c, heads) :=
      if fresh then
        let h := heads.headD (0, 1, false)
        ({ c with vecs := c.vecs + 1, blocks := 0, ex := h.1, planes := h.2.1, special := h.2.2 }, heads.drop 1)
      else (c, heads)
    let r : BlockRef :=
      { vec := c.vecs - 1, block := c.blocks, planes := c.planes, offset := off, ex := c.ex, special := c.special }
    let (rest, c) := walkBlocks nb fuel (off + 128 * c.planes) heads { c with blocks := c.blocks + 1 }
    (r :: rest, c)

/-- The row groups of one row block for one slice (R82 to R84). -/
def blockGroups (slab : Bytes) (h : BitVec 16) (w : SliceWork) (r : BlockRef) : List Group :=
  (List.range r.planes).flatMap fun b =>
    let plane := planeAt slab r.offset b &&& BitVec.ofNat 1024 (2 ^ w.rows - 1)
    (formGroups plane (if w.tolerant then 1024 else 127) w.scaled).map fun g =>
      let first := ((List.range 1024).find? fun i => g.1.getLsbD i).getD 0
      { vec := r.vec, plane := b, planes := r.planes, mask := g.1, pop := g.2.1, isum := g.2.2, scaleBlock := first / 32,
        handle := h, offset := r.offset }

/-! ## What a vector tells the joins that it feeds (R81, R97, R123, R130, R184) -/

/-- The Last's number of a launch's hardware Lace. -/
def planLace (x : Launch) (n : Nat) : Option Nat := (x.laces.find? fun e => e.2 = n).map Prod.fst

/-- The join of this module that a join of the Last forwards its lanes to (R97). -/
def forwardsHere (s : State) (p : LastPlan) (plan : Nat) : Option Nat :=
  match p.joins.find? fun j => j.join = plan with
  | none => none
  | some j => match j.ending with
    | .forward rank k => if membersOf s = [] || modOfRank s rank = selfId s then some k else none
    | .round _ _ _ _ => none

/-- Joins and those that their lanes reach on this module, over at most `fuel` forwards. -/
def forwardsFrom (s : State) (p : LastPlan) : Nat → List Nat → List Nat
  | 0, l => l
  | fuel + 1, l => l ++ forwardsFrom s p fuel (l.filterMap (forwardsHere s p))

/-- The joins of the Last that a vector of one of its Laces feeds, and every join of this module that their partials are forwarded
to (R97, R123). -/
def fedPlans (s : State) (x : Launch) (lace : Nat) : List Nat :=
  match launchPlan s x with
  | none => []
  | some p =>
    (forwardsFrom s p p.joins.length (((layerJoins p x.layer).filter fun j => j.input = lace).map fun j => j.join)).eraseDups

/-- What an input vector tells a join that it feeds (R81, R123, R130). -/
def feedJoin (ex : Int) (special poison : Bool) (j : Join) : Join :=
  { j with ex, known := true, special := j.special || special, poisoned := j.poisoned || poison }

/-- A join of the launch gathers the slices of one of these joins of the Last, or is one of them (R206). -/
def joinOfPlans (plans : List Nat) (j : Join) : Bool :=
  plans.contains (if partialBase ≤ j.plan then j.plan - partialBase else j.plan)

/-- Tell every join that vector `v` of a Lace feeds, and every partial of one, what the vector carries. -/
def feedVector (l n v : Nat) (f : Join → Join) (s : State) : State :=
  match tget? s.model.launches l with
  | none => s
  | some x =>
    match planLace x n with
    | none => s
    | some lace =>
      let plans := fedPlans s x lace
      ((launchJoins s l).filter fun e => e.2.2.vec = v && joinOfPlans plans e.2.2).foldl (fun s e => modJoin e.1 e.2.1 f s) s

/-! ## Tiles (R132, R135, R136) -/

/-- A cluster's power is admitted or asked for (R134, R484). -/
def clusterAsked (s : State) (c : Nat) : Bool :=
  s.power.standing == some c || s.power.shankCharged.contains c || s.power.waiting.any fun g => g.work == GovWork.cluster c

/-- Queue a tile at a cluster (R136); its first tile asks the governor for the cluster's power (R484). -/
def addTile (c : Nat) (t : Tile) (s : State) : State :=
  let s := modCluster c (fun y => { y with tiles := y.tiles ++ [t] }) s
  if clusterAsked s c then s else pushWork (.cluster c) s

/-- A request came by a real-time queue (R354). -/
def reqRt (s : State) (a : Nat) : Bool := ((tget? s.que.cmds a).map fun c => pairRt (pairOf s c.pair)).getD false

/-- The priority of a step (R135): 2 where a request of its launch came by a real-time queue, else 3. -/
def stepPrio (s : State) (x : Launch) : Nat := if x.reqs.any fun r => reqRt s r.1 then 2 else 3

/-- The context of a vector. -/
def vecCtx (s : State) (x : Launch) (v : Nat) : Option Nat := (vecReq x.reqs v).bind fun a => (tget? s.que.reqs a).map fun r => r.ctx

/-- The slices of a launch whose join a Lace feeds. -/
def feedsSlice (s : State) (x : Launch) (n slice : Nat) : Bool :=
  match launchPlan s x, planLace x n with
  | some p, some lace => p.joins.any fun j => j.input = lace && j.slices.contains slice
  | _, _ => false

/-- The tiles that one whole vector of a Lace gives a cluster (R135, R147 to R150). -/
def vectorTiles (l n c v : Nat) (xs : List Int) (special poison : Bool) (s : State) : State :=
  match tget? s.model.launches l with
  | none => s
  | some x =>
    match launchPlan s x with
    | none => s
    | some p =>
      let tile := fun prio work => ({ prio, deadline := x.deadline, order := x.order, work } : Tile)
      let s := x.shank.foldl (fun s e =>
        if e.2 = c && feedsSlice s x n e.1 then
          match p.slices.find? fun r => r.slice = e.1 with
          | some r =>
            let chunk := (xs.drop (1024 * r.rowBlock)).take r.rows
            let spilled := (placesOf s x.slot x.gen).any fun q => q.slice = e.1 && q.spill
            addTile c (tile (if spilled then 3 else 1) (.cover l e.1 v chunk special poison)) s
          | none => s
        else s) s
      let ctx := vecCtx s x v
      -- an adapter takes the layer's input vector once, whatever further Laces the layer reads
      let first := (layerJoins p x.layer).head?.map fun j => j.input
      x.adapters.foldl (fun s e =>
        if e.2 = c && ctx = some e.1 && first.isSome && planLace x n = first then addTile c (tile 3 (.adapter l e.1 v xs poison)) s else s) s

/-- A whole vector of planes has been read by a cluster; a stopped request's gives no work (R190). -/
def clusterVector (l n c : Nat) (k : LaceConsumer) (s : State) : State :=
  let v := k.vecs - 1
  if ((tget? s.model.launches l).map fun x => liveVec s x v).getD false then
    vectorTiles l n c v k.acc k.special k.poison (feedVector l n v (feedJoin k.ex k.special k.poison) s)
  else s

/-- Read the row blocks of a slab at a cluster, vector by vector. -/
def clusterBlocks (nb l n c : Nat) (slab : Bytes) (bad : Bool) : List BlockRef → LaceConsumer → State → LaceConsumer × State
  | [], k, s => (k, s)
  | r :: t, k, s =>
    let fresh := decide (r.block = 0)
    let k := if fresh then { k with acc := [], poison := false } else k
    let k := { k with vecs := r.vec + 1, blocks := r.block + 1, acc := k.acc ++ blockInts slab r.offset r.planes, ex := r.ex
                      planes := r.planes, special := r.special, poison := k.poison || bad }
    let s := if r.block + 1 = nb then clusterVector l n c k s else s
    clusterBlocks nb l n c slab bad t k s

/-- Bytes of one vector of a stream as a Shank step holds them: as the stream brings them, or, where it brings bit planes, 4 for
each input integer and 2 for e_x (R80, R141). -/
def feedBytes (z : StreamPlan) : Nat := if z.conv = 1 || z.conv = 2 then 4 * z.elems + 2 else z.bytes

/-- The bytes that the row blocks of a slab add to a step's operands (R80, R141). -/
def planeBytes (z : StreamPlan) (slab : Bytes) (refs : List BlockRef) : Bytes :=
  let ints := fun (r : BlockRef) =>
    ((blockInts slab r.offset r.planes).take (z.elems - 1024 * r.block)).flatMap fun v => leBytes 4 (v % 2 ^ 32).toNat
  refs.flatMap fun r => ints r ++ if r.block + 1 = ceilDiv z.elems 1024 then leBytes 2 (r.ex % 65536).toNat else []

/-- The Laces that a cluster reads for a launch, in the Last's order, with the consumer's place and the bytes of a vector. -/
def stepFeeds (s : State) (x : Launch) (c : Nat) : List (Nat × Nat × LaceConsumer × Nat) :=
  match launchPlan s x with
  | none => []
  | some p => (layerLaces p x.layer).filterMap fun y =>
    match hwLace x y.lace with
    | none => none
    | some n =>
      match tget? s.flow.laces n with
      | none => none
      | some la =>
        match la.consumers.findIdx? fun k => k.who == Consumer.cluster c with
        | none => none
        | some i =>
          let vb := ((p.streams.find? fun z => !z.output && z.lace = y.lace).map feedBytes).getD 0
          (la.consumers[i]?).map fun k => (n, i, k, vb)

/-- Form the tiles of a Shank step for every vector that all its input Laces have delivered (R135); a vector that one of them
passes over has its poisoned tile already (R184). -/
def stepGather (l c : Nat) : Nat → State → State
  | 0, s => s
  | fuel + 1, s =>
    match tget? s.model.launches l with
    | none => s
    | some x =>
      let feeds := stepFeeds s x c
      let v := (feeds.map fun e => e.2.2.1.vecs).foldl min x.vectors
      let skips := fun (e : Nat × Nat × LaceConsumer × Nat) => v < e.2.2.1.vecs || e.2.2.1.skips.contains v
      if feeds = [] || x.vectors ≤ v || feeds.any fun e => e.2.2.2 = 0 || (!skips e && e.2.2.1.acc.length < e.2.2.2) then s
      else
        let whole := !(feeds.any skips)
        let input := feeds.flatMap fun e => (e.2.2.1.acc.take e.2.2.2).map fun b => BitVec.ofNat 8 b.toNat
        let special := feeds.any fun e => e.2.2.1.special
        let poison := feeds.any fun e => e.2.2.1.poison
        let s := (feeds.filter fun e => e.2.2.1.vecs = v).foldl (fun s e =>
          let left := e.2.2.1.acc.drop e.2.2.2
          setConsumer e.1 e.2.1 { e.2.2.1 with acc := left, vecs := v + 1, poison := e.2.2.1.poison && left ≠ []
                                               special := e.2.2.1.special && left ≠ [] } s) s
        let s := if whole && liveVec s x v then
            addTile c { prio := stepPrio s x, deadline := x.deadline, order := x.order,
                        work := .step l v input special poison [] } s
          else s
        stepGather l c fuel s

/-! ## Poisoned vectors (R119, R184) -/

/-- The layer of a launch is a Shank step. -/
def launchStep (s : State) (x : Launch) : Bool :=
  ((launchPlan s x).bind fun p => (layerOf p x.layer).map fun z => z.onShank).getD false

/-- Every consumer of Lace `n` receives poisoned data in place of the vectors of request `a` (R119, R184): they count as
read, the joins that they feed are poisoned, and a cluster's tiles are. -/
def poisonVectors (n a : Nat) (s : State) : State :=
  match tget? s.flow.laces n with
  | none => s
  | some la =>
    match (tget? s.model.launches la.launch).bind fun x => (reqRange x.reqs a 0).map fun r => (r, x) with
    | none => s
    | some ((start, len), x) =>
      let l := la.launch
      let vs := (List.range len).map fun v => start + v
      let s := modLace n (fun la => { la with
        fed := la.fed ++ [a], consumers := la.consumers.map fun c => { c with skips := c.skips ++ vs } }) s
      let s := vs.foldl (fun s v => feedVector l n v (fun j => { j with poisoned := true, known := true }) s) s
      let s := la.consumers.foldl (fun s c => match c.who with
        | .cluster k => vs.foldl (fun s v =>
          if launchStep s x then
            addTile k { prio := stepPrio s x, deadline := x.deadline, order := x.order, work := .step l v [] false true [] } s
          else vectorTiles l n k v [] false true s) s
        | _ => s) s
      flushOpen n (markLaunch l s)

end Sys2Proof.Machine
end

