-- ==== Sys2Proof/Machine/Ferry.lean ====
section
/-! DEFINITION. The Ferries (R119 to R126, R182 to R187, R190 to R195): descriptors, fills, conversions, pushes and
writes. Choices of the model: notes/assumptions/25.md (DEDUCED). -/

namespace Sys2Proof.Machine

/-! ## Descriptors (R183, R184) -/

/-- The fields of a 64-byte descriptor (R183). -/
def descOf (b : Bytes) : Desc :=
  let f := fun off len => fld b off len
  { conv := BitVec.ofNat 8 (f 0 1), depth := BitVec.ofNat 8 (f 1 1), fmtIn := BitVec.ofNat 8 (f 2 1),
    fmtOut := BitVec.ofNat 8 (f 3 1), planes := BitVec.ofNat 8 (f 4 1), srcKind := BitVec.ofNat 8 (f 5 1),
    dstKind := BitVec.ofNat 8 (f 6 1), flags := BitVec.ofNat 8 (f 7 1), srcAddr := BitVec.ofNat 64 (f 8 8),
    dstAddr := BitVec.ofNat 64 (f 0x10 8), length := BitVec.ofNat 64 (f 0x18 8), elems := BitVec.ofNat 32 (f 0x20 4),
    laceIn := BitVec.ofNat 16 (f 0x24 2), laceOut := BitVec.ofNat 16 (f 0x26 2),
    scaleAddr := BitVec.ofNat 64 (f 0x28 8), deadline := BitVec.ofNat 64 (f 0x30 8),
    request := BitVec.ofNat 32 (f 0x38 4), gen := BitVec.ofNat 16 (f 0x3C 2), stream := BitVec.ofNat 16 (f 0x3E 2) }

/-- The planes of a conversion are in its range (R183, R184). -/
def planesOk (d : Desc) : Bool :=
  let b := d.planes.toNat
  match d.conv.toNat with
  | 1 => b = fmtWidth d.fmtIn.toNat
  | 2 => 8 ≤ b && b ≤ 24
  | _ => b = 0

/-- The pair of formats is one that R119 and R125 allow. -/
def fmtPairOk (d : Desc) : Bool :=
  let i := d.fmtIn.toNat
  let o := d.fmtOut.toNat
  match d.conv.toNat with
  | 1 => i = 2 || i = 3 || i = 4
  | 2 => i = 5 || i = 11 || i = 12
  | 3 => widenPair i o
  | _ => i = o && fmtRow i ≠ []

/-- A descriptor that is not executed (R184). -/
def descBad (d : Desc) : Bool :=
  decide (4 < d.conv.toNat) || decide (d.depth.toNat = 0) || decide (16 < d.depth.toNat) || !planesOk d ||
    !fmtPairOk d || (d.laceIn = 0xFFFF && d.laceOut = 0xFFFF && (d.srcKind = 0 || d.dstKind = 0))

/-- The descriptor writes bit planes (R186). -/
def descPlanes (d : Desc) : Bool := d.conv = 1 || d.conv = 2

def descMcast (d : Desc) : Bool := d.flags.getLsbD 2

/-- Source bytes of one vector, scales included (R114, R183). -/
def srcVecBytes (d : Desc) : Nat :=
  let n := d.elems.toNat
  packedBytes d.fmtIn.toNat n + if fmtScaled d.fmtIn.toNat then ceilDiv n 32 else 0

/-- Vectors of a descriptor. -/
def descVecs (d : Desc) : Nat := d.length.toNat / max 1 (srcVecBytes d)

/-- Row blocks of a vector (R186). -/
def vecBlocks (d : Desc) : Nat := ceilDiv d.elems.toNat 1024

/-- Row blocks that one slab holds (R186). -/
def blockCap (d : Desc) : Nat := (16384 - 64) / (128 * max 1 d.planes.toNat)

/-- Source bytes that fill one slab when no planes are formed (R125). -/
def srcPerSlab (d : Desc) : Nat :=
  if d.conv = 3 then 16384 * fmtWidth d.fmtIn.toNat / max 1 (fmtWidth d.fmtOut.toNat) else 16384

/-- How a slab of planes is packed (R186), in counts: row blocks of the present vector done, vectors begun so far,
vectors begun in the slab, row blocks in it. -/
def packCount (nb total cap : Nat) : Nat → Nat × Nat × Nat × Nat → Nat × Nat × Nat × Nat
  | 0, c => c
  | fuel + 1, (done, vecs, begun, blocks) =>
    if blocks = cap then (done, vecs, begun, blocks)
    else if 0 < done then
      packCount nb total cap fuel ((if done + 1 = nb then 0 else done + 1), vecs, begun, blocks + 1)
    else if begun = 15 || vecs = total then (done, vecs, begun, blocks)
    else packCount nb total cap fuel ((if nb = 1 then 0 else 1), vecs + 1, begun + 1, blocks + 1)

/-- The packing of the next slab after (done, vecs), in a slab that holds `open_` begun vectors and row blocks already. -/
def packNext (d : Desc) (open_ : Nat × Nat) (c : Nat × Nat) : Nat × Nat × Nat × Nat :=
  packCount (vecBlocks d) (descVecs d) (blockCap d) (blockCap d + 1) (c.1, c.2, open_.1, open_.2)

/-- A stream has data for one more slab beyond those that it is filling (R185). -/
def moreToFetch (st : Stream) : Bool :=
  let d := st.desc
  if descPlanes d then
    let c := st.filling.foldl (fun c _ => let p := packNext d (0, 0) c; (p.1, p.2.1)) (st.blocksDone, st.vecs)
    decide (0 < c.1) || decide (c.2 < descVecs d)
  else decide (st.pos + st.filling.length * srcPerSlab d < d.length.toNat)

/-! ## Starting a stream (R182) -/

/-- A deadline and an age before another (R23, R182). -/
def dueBefore (a b : BitVec 64 × Nat) : Bool :=
  if a.1 = 0 && b.1 = 0 then decide (a.2 < b.2)
  else if a.1 = 0 then false
  else if b.1 = 0 then true
  else decide (a.1.toNat < b.1.toNat) || (a.1 = b.1 && decide (a.2 < b.2))

/-- The waiting descriptor that goes first. -/
def firstWaiting : List (Nat × Desc) → Option (Nat × Desc)
  | [] => none
  | e :: t => match firstWaiting t with
    | none => some e
    | some k => if dueBefore (k.2.deadline, k.1) (e.2.deadline, e.1) then some k else some e

/-- The Ferry with the fewest active streams among those with a free slot (R182). -/
def emptiestFerry (s : State) : Option Nat :=
  (List.range 256).foldl (fun best f =>
    let y := ferryOf s f
    if y.retired || 16 ≤ y.streams.length then best
    else match best with
      | some b => if y.streams.length < (ferryOf s b).streams.length then some f else best
      | none => some f) none

/-- The Lace that a descriptor's data was for (R178, R183): LACE_OUT, or the Lace of its stream in its request's launch where the
descriptor names none. -/
def consumerLace (s : State) (d : Desc) : Option Nat :=
  if (tget? s.flow.laces d.laceOut.toNat).isSome then some d.laceOut.toNat
  else s.model.launches.findSome? fun l =>
    if l.2.reqs.any fun r => r.1 = d.request.toNat then
      ((launchPlan s l.2).bind fun p => streamPlan p d.stream.toNat).bind fun y => hwLace l.2 y.lace
    else none

/-- The consumer of a Lace that a descriptor's stream becomes (R180). -/
def bindDrain (f k : Nat) (d : Desc) (s : State) : State :=
  let mine : Consumer := .drain d.stream.toNat d.request.toNat
  let bind := fun (c : LaceConsumer) => if c.who == mine then { c with who := .ferry f k } else c
  if d.srcKind ≠ 0 then s
  else modLace d.laceIn.toNat (fun la => { la with consumers := la.consumers.map bind }) s

/-! ## Filling slabs (R185) -/

def streamOf (s : State) (f k : Nat) : Option Stream := tget? (ferryOf s f).streams k

def modStream (f k : Nat) (g : Stream → Stream) (s : State) : State :=
  modFerry f (fun y => match tget? y.streams k with
    | some st => { y with streams := tset y.streams k (g st) }
    | none => y) s

def dropStream (f k : Nat) (s : State) : State := modFerry f (fun y => { y with streams := tdel y.streams k }) s

/-- The multicast group of a descriptor (R407). -/
def descGroup (s : State) (d : Desc) : Option Mcast :=
  match tget? s.que.reqs d.request.toNat with
  | some r => s.strait.mcasts.find? fun m => m.slot = r.slot && m.plan.group = d.dstAddr.toNat % 256
  | none => none

/-- The remote receivers of a group that have not been cut (R407, R410). -/
def mcastRemotes (s : State) (m : Mcast) : List Nat :=
  (((List.range 8).filter fun r => m.plan.receivers.getLsbD r).map (modOfRank s)).filter fun k =>
    k ≠ selfId s && !m.cut.contains k

/-- This module is a receiver of the group. -/
def mcastLocal (s : State) (m : Mcast) : Bool := m.plan.receivers.getLsbD (rankOf s (selfId s))

/-- Every remote receiver has a grant to give, and its credits leave room (R408, R409). -/
def mcastReady (s : State) (m : Mcast) (depth : Nat) : Bool :=
  (mcastRemotes s m).all fun k => (m.grants.any fun g => g.1 = k) &&
    decide ((m.credits.filter fun c => c.1 = k).length < depth)

/-- The hardware Lace that a stream fills. -/
def destLace (s : State) (d : Desc) : Option Nat :=
  if descMcast d then
    match descGroup s d, tget? s.que.reqs d.request.toNat with
    | some m, some _ =>
      (s.model.launches.findSome? fun l =>
        if l.2.reqs.any (fun r => r.1 = d.request.toNat) then (l.2.laces.find? fun e => e.1 = m.plan.lace).map Prod.snd
        else none)
    | _, _ => none
  else if d.dstKind = 0 then some d.laceOut.toNat else none

/-- The request's vectors are the next that the Lace takes (R189): every earlier request of its launch has fed it, or has been
stopped. -/
def streamsTurn (s : State) (n : Nat) (d : Desc) : Bool :=
  match tget? s.flow.laces n with
  | none => false
  | some la =>
    match tget? s.model.launches la.launch with
    | none => false
    | some l =>
      (l.reqs.any fun r => r.1 = d.request.toNat) &&
        (l.reqs.takeWhile fun r => r.1 ≠ d.request.toNat).all fun r => la.fed.contains r.1 || reqStopped s r.1

/-- Slabs of the request that its stream holds in the Lace (R185). -/
def streamHolds (s : State) (n a : Nat) : Nat :=
  match tget? s.flow.laces n with
  | some la => (la.held.filter fun k => k.reqs.contains a).length
  | none => 0

/-- The slab of its Lace that a stream which has not begun goes on filling (R186, R189). -/
def openFor (s : State) (n : Nat) (st : Stream) : Option OpenSlab :=
  if st.filling = [] && st.pos = 0 && st.vecs = 0 then (tget? s.flow.laces n).bind fun la => la.partialSlab else none

/-- An output stream has an entry of its request to read, or bytes to write. -/
def drainReady (s : State) (f k : Nat) (st : Stream) : Bool :=
  st.buf ≠ [] || ((tget? s.flow.laces st.desc.laceIn.toNat).map fun la =>
    la.consumers.any fun c => c.who == Consumer.ferry f k && c.waiting ≠ []).getD false

/-- A stream fills slabs of a Lace, of its own module's or of a multicast group's. -/
def fillsSlabs (d : Desc) : Bool := d.dstKind = 0 || descMcast d

/-- A stream may take one more handle (R185, R190), or, writing to a port or the Harbour, one more slab to write. -/
def readyToFetch (s : State) (f k : Nat) (st : Stream) : Bool :=
  let d := st.desc
  if !fillsSlabs d then !st.cancelled && (if d.srcKind = 0 then drainReady s f k st else moreToFetch st)
  else !st.cancelled && (d.srcKind ≠ 0 || st.buf ≠ []) && moreToFetch st &&
    match destLace s d with
    | none => descMcast d && ((descGroup s d).map fun m => mcastReady s m d.depth.toNat).getD false &&
        decide (st.filling = [])
    | some n =>
      streamsTurn s n d && decide (streamHolds s n d.request.toNat < d.depth.toNat) &&
        ((openFor s n st).isSome || (nextHandle s n).isSome) &&
        (!descMcast d || ((descGroup s d).map fun m => mcastReady s m d.depth.toNat).getD false)

/-- The stream is the first of its Ferry's ready streams (R182): earliest deadline, then none, then age. -/
def firstStream (s : State) (f k : Nat) (st : Stream) : Bool :=
  (ferryOf s f).streams.all fun t => t.1 = k || !readyToFetch s f t.1 t.2 ||
    dueBefore (st.desc.deadline, st.order) (t.2.desc.deadline, t.2.order)

/-- SLAB_FILL_START (R182, R185): the stream takes a handle and starts to fill its slab, if it is the first of its Ferry's
ready streams. A request's first slab may be one that the request before it left open (R189). -/
def execSlabFillStart (f : Fin 256) (stream : Fin 16) (s : State) : Res :=
  match streamOf s f.val stream.val with
  | none => .next s
  | some st =>
    let a := st.desc.request.toNat
    if !fillsSlabs st.desc || !readyToFetch s f.val stream.val st || !firstStream s f.val stream.val st then .next s
    else match destLace s st.desc with
      | none => .next (modStream f.val stream.val (fun t => { t with filling := t.filling ++ [0xFFFF] }) s)
      | some n =>
        match openFor s n st with
        | some o =>
          let s := modLace n (fun la => { la with
            held := la.held.map fun k => if k.h = o.h then { k with reqs := k.reqs ++ [a] } else k }) s
          .next (modStream f.val stream.val (fun t => { t with filling := [o.h] }) s)
        | none =>
          match laceTake n [a] 0 0 true s with
          | none => .next s
          | some (h, s) => .next (modStream f.val stream.val (fun t => { t with filling := t.filling ++ [h] }) s)

/-! ## Conversions (R119 to R126) -/

/-- WIDEN of one element (R125). -/
def widenElem (i o c : Nat) : Nat :=
  if i ≤ 4 then ((signedAt (fmtWidth i) c) % (2 ^ fmtWidth o : Int)).toNat
  else
    let w := fmtWidth i
    let m := fmtField i 4
    let sign := if bitAt c (w - 1) then 2 ^ 31 else 0
    let frac := (c % 2 ^ m) * 2 ^ (23 - m)
    if isNanCode i c then sign + 0x7F800000 + (frac ||| 0x400000)
    else if isSpecialCode i c then sign + 0x7F800000
    else
      let v := elemValue i c
      sign + (roundFloat 13 false (v.1.natAbs, v.2)).1

/-- Bytes after a conversion that forms no planes. -/
def convertBytes (d : Desc) (b : Bytes) : Bytes :=
  if d.conv = 3 then
    let i := d.fmtIn.toNat
    let o := d.fmtOut.toNat
    packElems (fmtWidth o) ((unpackElems b (fmtWidth i) (8 * b.length / max 1 (fmtWidth i))).map (widenElem i o))
  else b

/-- One vector's integers (R120 to R123). -/
def convertVec (d : Desc) (b : Bytes) : Aligned :=
  let i := d.fmtIn.toNat
  let n := d.elems.toNat
  let (codes, scales) := tensorCodes i n (d.flags.getLsbD 0) b
  if d.conv = 1 then
    { ex := 0, xs := codes.map (signedAt (fmtWidth i)), special := false, specials := 0, inexact := 0 }
  else
    alignVec d.planes.toNat (((List.range n).zip codes).map fun p => inputValue i p.2 (scales.getD (p.1 / 32) 127))

/-- A slab of planes under construction. -/
structure PlaneFill where
  done : Nat
  vecs : Nat
  begun : Nat
  blocks : List Bytes
  heads : List Bytes
  vec : Aligned
  specials : Nat
  inexact : Nat
  anySpecial : Bool
  src : Bytes

/-- Row block `k` of a vector's planes (R186). -/
def blockBytes (planes k : Nat) (xs : List Int) : Bytes :=
  let chunk := (xs.drop (1024 * k)).take 1024
  (List.range planes).flatMap fun b => leBytes 128 (planeOf chunk b).toNat

/-- Pack a slab of planes (R186), as `packCount` counts it. -/
def fillPlanes (d : Desc) : Nat → PlaneFill → PlaneFill
  | 0, p => p
  | fuel + 1, p =>
    let nb := vecBlocks d
    let b := d.planes.toNat
    if p.blocks.length = blockCap d then p
    else if 0 < p.done then
      fillPlanes d fuel { p with done := (if p.done + 1 = nb then 0 else p.done + 1)
                                 blocks := p.blocks ++ [blockBytes b p.done p.vec.xs]
                                 anySpecial := p.anySpecial || p.vec.special }
    else if p.begun = 15 || p.vecs = descVecs d then p
    else
      let v := convertVec d (p.src.take (srcVecBytes d))
      let head := leBytes 2 (v.ex % 65536).toNat ++ leBytes 1 b ++ leBytes 1 (b2n v.special)
      fillPlanes d fuel { p with done := (if nb = 1 then 0 else 1), vecs := p.vecs + 1, begun := p.begun + 1
                                 blocks := p.blocks ++ [blockBytes b 0 v.xs], heads := p.heads ++ [head], vec := v
                                 specials := p.specials + v.specials, inexact := p.inexact + v.inexact
                                 anySpecial := p.anySpecial || v.special, src := p.src.drop (srcVecBytes d) }

/-- The tensor that a descriptor names by SRC_ADDR or DST_ADDR has its scale array at SCALE_ADDR (R114, R183). -/
def descSplit (d : Desc) : Bool := fmtScaled d.fmtIn.toNat && !d.flags.getLsbD 0 && decide (d.elems ≠ 0)

/-- The part of the bytes from `pos` to `end_` that lies from `lo` up to `hi`, which are held at `base`. -/
def cutRun (pos end_ lo hi base : Nat) : List (Nat × Nat) :=
  if max pos lo < min end_ hi then [(base + (max pos lo - lo), min end_ hi - max pos lo)] else []

/-- Where `len` bytes from `pos` on of a tensor lie (R114, R183), the bytes of each vector taken as its packed elements and then its
scales: in SEPARATE layout the scales lie in their own array. -/
def tensorRuns (d : Desc) (base pos len : Nat) : List (Nat × Nat) :=
  if !descSplit d then (if len = 0 then [] else [(base + pos, len)])
  else
    let e := packedBytes d.fmtIn.toNat d.elems.toNat
    let all := srcVecBytes d
    (List.range (ceilDiv (pos + len) all - pos / all)).flatMap fun k =>
      let v := pos / all + k
      cutRun pos (pos + len) (v * all) (v * all + e) (base + v * e) ++
        cutRun pos (pos + len) (v * all + e) (v * all + all) (d.scaleAddr.toNat + v * (all - e))

/-- The Harbour runs of `len` source bytes from `pos` on. -/
def srcRuns (d : Desc) (pos len : Nat) : List (Nat × Nat) := tensorRuns d d.srcAddr.toNat pos len

/-- The Harbour runs of `n` vectors from vector `v` on (R114, R183). -/
def vectorRuns (d : Desc) (v n : Nat) : List (Nat × Nat) := srcRuns d (v * srcVecBytes d) (n * srcVecBytes d)

/-- What a read of the source gives: bytes and whether they are poisoned; none where the access failed (R181, R348). -/
def sourceRead (len : Nat) (r : HostRead) : Option (Bytes × Bool) :=
  match r with
  | .data b => some (fit b len, false)
  | .poisoned b => some (fit b len, true)
  | .failed => none

/-! ## Pushing a slab (R179, R193) -/

/-- Send bytes into another module's Harbour over the gang to it (R173, R405). -/
def sendRemote (f dm h : Nat) (b : Bytes) (poison : Bool) (s : State) : State :=
  if mayCarry s dm then
    let port := linkPort ((gangLink s dm (2064 + f)).getD 0)
    (dataPackets dm (2320 + addrSeg h) (2064 + f) h b poison).foldl (fun s p => sendHeld port p poison s) s
  else bumpBy (ob 0x6214 1) (ceilDiv b.length 256) s

/-- The 64 bits of a Lace entry (R177). -/
def entryWord (e : LaceEntry) : Nat :=
  e.slab.toNat + 2 ^ 16 * (e.fill.toNat % 2 ^ 15) + 2 ^ 31 * b2n e.poison + 2 ^ 32 * b2n e.special + 2 ^ 33 * b2n e.last +
    2 ^ 34 * b2n e.late + 2 ^ 36 * e.gen.toNat + 2 ^ 52 * e.seq.toNat

/-- Send a multicast slab to its remote receivers (R408): one grant each, the data, then the push. -/
def mcastSend (f : Nat) (d : Desc) (b : Bytes) (e : LaceEntry) (s : State) : State :=
  match descGroup s d with
  | none => s
  | some m =>
    (mcastRemotes s m).foldl (fun s k =>
      match s.strait.mcasts.find? fun g => g.slot = m.slot && g.plan.group = m.plan.group with
      | none => s
      | some g =>
        match g.grants.find? fun x => x.1 = k with
        | none => s
        | some (_, h) =>
          let s := sendRemote f k h.toNat b e.poison s
          let handle := BitVec.ofNat 16 (h.toNat / 16384)
          let s := sendCtlBy (2064 + f) k ctlPush [g.plan.lace, entryWord { e with slab := handle }] s
          let upd := fun (y : Mcast) => if y.slot = g.slot && y.plan.group = g.plan.group then
            { y with grants := y.grants.erase (k, h), credits := y.credits ++ [(k, handle, tideOf s)] } else y
          modStrait (fun t => { t with mcasts := t.mcasts.map upd }) s) s

/-- A multicast sender's slab that goes to no Lace of its own module (R407). -/
def pushAway (f : Nat) (st : Stream) (b : Bytes) (poison special last late : Bool) (s : State) : State :=
  let d := st.desc
  let e : LaceEntry := { slab := 0xFFFF, fill := BitVec.ofNat 15 b.length, poison, special, last, late, gen := d.gen, seq := st.seq }
  mcastSend f d b e s

/-- The open slab that a stream's handle continues, or a fresh one. -/
def slabInHand (s : State) (n : Option Nat) (h : BitVec 16) (cont : Bool) : OpenSlab :=
  let fresh : OpenSlab := { h, cont, heads := [], blocks := [], data := [], poison := false, special := false, dues := [] }
  match n.bind fun n => (tget? s.flow.laces n).bind fun la => la.partialSlab with
  | some o => if o.h = h then o else fresh
  | none => fresh

/-- Where a fresh slab begins in the vectors of its launch (R186, R189). -/
def placeHeld (n : Nat) (h : BitVec 16) (a vec off : Nat) (s : State) : State :=
  let start := match (tget? s.flow.laces n).bind fun la => tget? s.model.launches la.launch with
    | some x => ((reqRange x.reqs a 0).map Prod.fst).getD 0
    | none => 0
  modLace n (fun la => { la with held := la.held.map fun k => if k.h = h then { k with vec := start + vec, off } else k }) s

/-- A stream's slab has been filled (R177, R179, R189, R193): it is pushed, or, where the stream has ended, room is left and a
further request of the launch is to feed the Lace, left open for that request. It is late for each request whose data it carries by
that request's slab deadline. -/
def pushSlab (f k : Nat) (st : Stream) (o : OpenSlab) (planes room last : Bool) (s : State) : State :=
  let d := st.desc
  let a := d.request.toNat
  let o := { o with dues := o.dues ++ [(a, d.deadline)] }
  let late := lateFor s o.dues
  match destLace s d with
  | none =>
    let s := pushAway f st (openBytes planes o) o.poison o.special last (late ≠ []) s
    lateSlabs late (if last then dropStream f k s else s)
  | some n =>
    let more := (stillToFeed s n).any fun b => b ≠ a
    let s := if last then dropStream f k (modLace n (fun la => { la with fed := la.fed ++ [a] }) s) else s
    if last && room && more && !descMcast d then modLace n (fun la => { la with partialSlab := some o }) s
    else
      let s := modLace n (fun la => { la with
        partialSlab := if (la.partialSlab.map fun p => p.h) = some o.h then none else la.partialSlab }) s
      let s := if descMcast d then pushAway f st (openBytes planes o) o.poison o.special (last && !more) (late ≠ []) s else s
      lateSlabs late (pushFilled (ferryPort f d) n o planes (last && !more) (late ≠ []) s)

/-- The offset of the address field that a request's stream reads or writes (R348, R363): IN_ADDR or OUT_ADDR, or the
list offset of ADDR. -/
def streamDetail (s : State) (d : Desc) : Nat :=
  match tget? s.que.cmds d.request.toNat, tget? s.que.reqs d.request.toNat with
  | some c, some r =>
    if bitAt (entFlags c.entry) 4 then
      match r.streams.findIdx? fun t => t.stream = d.stream.toNat with
      | some i => 0x8000 + 16 * i + 8
      | none => 0x10
    else if r.streams.any (fun t => t.stream = d.stream.toNat && t.output) then 0x18 else 0x10
  | _, _ => 0x10

/-- Bytes of one vector that a Ferry's staging buffer holds (R124). -/
def stagingBytes : Nat := 65536

/-- The Harbour slabs that hold the copy of `len` bytes of a vector that is longer than the staging buffer (R124); none where no copy
is made. DESIGN CHOICE (notes/assumptions/46.md): they are slabs of the SYSTEM segment, where Uzomel's working areas lie (R159); which
of them is a free value. -/
def stagingRuns (f k : Nat) (d : Desc) (len : Nat) : List (Nat × Nat) :=
  if d.conv ≠ 2 || srcVecBytes d ≤ stagingBytes || len = 0 then []
  else [(2 ^ 26 + 16384 * (Config.stagingSlab f k % (4097 - ceilDiv len 16384)), len)]

/-- A vector that is longer than the staging buffer is copied whole into Harbour slabs and read twice from that copy, once to fix e_x
and once to convert (R124). -/
def stageLong (f k : Nat) (d : Desc) (b : Bytes) (bad : Bool) (s : State) : (Bytes × Bool) × State :=
  match stagingRuns f k d b.length with
  | [] => ((b, bad), s)
  | r :: _ =>
    let port := ferryPort f d
    fetchRun port r.1 r.2 (touchRun port r.1 r.2 (storeRun port r.1 b bad s))

/-- What a Ferry reads of its source (R181, R183): bytes and marks; none where the access failed. A transfer that stands for a bad
descriptor has zeros, poisoned (R184). -/
def sourceBytes (f : Nat) (st : Stream) (runs : List (Nat × Nat)) (len : Nat) (source : HostRead) (s : State) :
    Option (Bytes × List Bool) × State :=
  let d := st.desc
  if st.dud then (some (List.replicate len 0, List.replicate len true), s)
  else if d.srcKind = 1 then let (r, s) := fetchRuns (ferryPort f d) runs s; (some r, s)
  else if d.srcKind = 0 then (some (fit st.buf len, st.bufBad.take len), s)
  else ((sourceRead len source).map fun r => (r.1, r.1.map fun _ => r.2), s)

/-- Vectors that a stream begins in the slab that it fills next (R186). -/
def vecsBegun (s : State) (st : Stream) (h : BitVec 16) : Nat :=
  let o := slabInHand s (destLace s st.desc) h (decide (0 < st.blocksDone))
  (packNext st.desc (o.heads.length, o.blocks.length) (st.blocksDone, st.vecs)).2.1 - st.vecs

/-- Fill and push one slab of planes (R120 to R124, R186). -/
def pushPlanes (f k : Nat) (st : Stream) (h : BitVec 16) (rest : List (BitVec 16)) (source : HostRead) (s : State) :
    State :=
  let d := st.desc
  let n := destLace s d
  let o := slabInHand s n h (decide (0 < st.blocksDone))
  let begun := vecsBegun s st h
  let used := begun * srcVecBytes d
  let (read, s) := sourceBytes f st (vectorRuns d st.vecs begun) used source s
  match read with
  | none => stopRequest d.request.toNat St.hostAccess (streamDetail s d) false s
  | some (b, marks) =>
    let ((b, bad), s) := stageLong f k d b (marks.any id) s
    let p := fillPlanes d (blockCap d + 1)
      { done := st.blocksDone, vecs := st.vecs, begun := o.heads.length, blocks := o.blocks, heads := o.heads,
        vec := { ex := st.ex, xs := st.xs, special := st.special, specials := 0, inexact := 0 }, specials := 0, inexact := 0,
        anySpecial := o.special, src := b }
    let poison := o.poison || (begun ≠ 0 && bad) || (st.blocksDone ≠ 0 && st.poison)
    let s := bumpBy (ob 0x4020 1) p.specials (bumpBy (ob 0x4021 1) p.inexact s)
    let last := p.done = 0 && p.vecs = descVecs d
    let st' := { st with
      filling := rest, blocksDone := p.done, vecs := p.vecs, xs := (if p.done = 0 then [] else p.vec.xs), ex := p.vec.ex
      special := p.vec.special, poison := (if begun = 0 then st.poison else bad), seq := st.seq + 1
      pos := p.vecs * srcVecBytes d, buf := st.buf.drop used, bufBad := st.bufBad.drop used }
    let s := modStream f k (fun _ => st') s
    let s := match n with
      | some n => if o.blocks = [] then
          placeHeld n h d.request.toNat (if st.blocksDone = 0 then st.vecs else st.vecs - 1) st.blocksDone s
        else s
      | none => s
    let room := decide (p.blocks.length < blockCap d) && decide (p.begun < 15)
    pushSlab f k st { o with heads := p.heads, blocks := p.blocks, poison, special := p.anySpecial } true room last s

/-- Bytes of one vector of a stream without planes. -/
def streamVecBytes (s : State) (d : Desc) : Nat :=
  match tget? s.que.reqs d.request.toNat with
  | some r => ((planOf s r.slot r.gen).bind fun p => streamPlan p d.stream.toNat).elim d.length.toNat fun y => y.bytes
  | none => d.length.toNat

/-- Source bytes that a stream without planes moves into the slab that it fills next (R125). -/
def bytesNext (s : State) (st : Stream) (h : BitVec 16) : Nat :=
  let d := st.desc
  let left := 16384 - (slabInHand s (destLace s d) h false).data.length
  let room := if d.conv = 3 then left * fmtWidth d.fmtIn.toNat / max 1 (fmtWidth d.fmtOut.toNat) else left
  min room (d.length.toNat - st.pos)

/-- Fill and push one slab without planes (COPY, WIDEN, PACK_OUT into a Lace). -/
def pushBytes (f k : Nat) (st : Stream) (h : BitVec 16) (rest : List (BitVec 16)) (source : HostRead) (s : State) : State :=
  let d := st.desc
  let n := destLace s d
  let o := slabInHand s n h false
  let len := bytesNext s st h
  let (read, s) := sourceBytes f st (srcRuns d st.pos len) len source s
  match read with
  | none => stopRequest d.request.toNat St.hostAccess (streamDetail s d) false s
  | some (b, marks) =>
    let bad := marks.any id
    let vb := max 1 (streamVecBytes s d)
    let pos := st.pos + len
    let last := decide (d.length.toNat ≤ pos)
    let s := modStream f k (fun t =>
      { t with filling := rest, pos, seq := t.seq + 1, buf := t.buf.drop len, bufBad := t.bufBad.drop len }) s
    let s := match n with
      | some n => if o.data = [] then placeHeld n h d.request.toNat (st.pos / vb) (st.pos % vb) s else s
      | none => s
    let data := o.data ++ convertBytes d b
    pushSlab f k st { o with data, poison := o.poison || bad, special := o.special || (d.srcKind = 0 && st.bufSpecial) } false
      (decide (data.length < 16384)) last s

/-! ## Output streams (R126, R181, R193) -/

/-- The outputs of each piece of one vector that a Lace carries: one piece for each join, or one for a Shank step. -/
def lacePieces (s : State) (n : Nat) : List Nat :=
  match tget? s.flow.laces n with
  | none => []
  | some la =>
    match tget? s.model.launches la.launch with
    | none => []
    | some x =>
      match launchPlan s x, (x.laces.find? fun e => e.2 = n).map Prod.fst with
      | some p, some lace =>
        match layerOf p x.layer with
        | some y =>
          if y.onShank then [y.outputs]
          else ((layerJoins p x.layer).filter fun j => match j.ending with
            | .round _ _ _ k => k = lace
            | .forward _ _ => false).map fun j => j.outputs
        | none => []
      | _, _ => []

/-- Bytes of a piece as the Welt or Shank wrote it. -/
def pieceBytes (fmt n : Nat) : Nat := packedBytes fmt n + if fmtScaled fmt then ceilDiv n 32 else 0

/-- The elements of one vector's pieces: codes, scale codes, and which elements lie in poisoned bytes. -/
def piecesElems (fmt : Nat) : List Nat → Bytes → List Bool → List Nat × List Nat × List Bool
  | [], _, _ => ([], [], [])
  | n :: t, b, bad =>
    let len := pieceBytes fmt n
    let (codes, scales) := tensorCodes fmt n false (b.take len)
    let w := fmtWidth fmt
    let hit := fun (i : Nat) => (List.range (w / 8 + 2)).any fun k =>
      decide (8 * (w * i / 8 + k) < w * (i + 1)) && bad.getD (w * i / 8 + k) false
    let scaleHit := fun (i : Nat) => fmtScaled fmt && bad.getD (packedBytes fmt n + i / 32) false
    let marks := (List.range n).map fun i => hit i || scaleHit i
    let rest := piecesElems fmt t (b.drop len) (bad.drop len)
    (codes ++ rest.1, scales ++ rest.2.1, marks ++ rest.2.2)

/-- Reorder an output vector's elements as the Last declares (R126). -/
def declaredOrder {α : Type} (order : List Nat) (d : α) (l : List α) : List α := if order = [] then l else order.map fun i => l.getD i d

/-- The poison of each byte of packed elements of `w` bits. -/
def byteMarks (w n : Nat) (marks : List Bool) : List Bool :=
  (List.range n).map fun k => (List.range (8 / max 1 w + 2)).any fun i =>
    let e := 8 * k / max 1 w + i
    decide (e * w < 8 * (k + 1)) && decide (8 * k < (e + 1) * w) && marks.getD e false

/-- A write of an output stream: offset from its address, bytes, which of them are poisoned. -/
abbrev OutWrite := BitVec 64 × Bytes × List Bool

/-- One vector's pieces in the output layout (R114, R126): the writes of its packed elements and, in SEPARATE layout, of its
scales at SCALE_ADDR. -/
def packOut (d : Desc) (order pieces : List Nat) (vec : Nat) (b : Bytes) (bad : List Bool) : List OutWrite :=
  let fmt := d.fmtIn.toNat
  let (codes, scales, marks) := piecesElems fmt pieces b bad
  let codes := declaredOrder order 0 codes
  let marks := declaredOrder order false marks
  if fmtScaled fmt && d.flags.getLsbD 0 then
    let all := tensorBytes fmt true codes scales
    let blocks := (List.range (ceilDiv codes.length 32)).flatMap fun k =>
      let n := min 32 (codes.length - 32 * k)
      let ms := (marks.drop (32 * k)).take n
      byteMarks (fmtWidth fmt) (packedBytes fmt n) ms ++ [ms.any id]
    [(d.dstAddr + BitVec.ofNat 64 (vec * all.length), all, blocks)]
  else
    let e := packElems (fmtWidth fmt) codes
    let first : OutWrite := (d.dstAddr + BitVec.ofNat 64 (vec * e.length), e, byteMarks (fmtWidth fmt) e.length marks)
    if fmtScaled fmt then
      let sb := scales.map (BitVec.ofNat 8)
      let sm := (List.range sb.length).map fun k => ((marks.drop (32 * k)).take 32).any id
      [first, (d.scaleAddr + BitVec.ofNat 64 (vec * sb.length), sb, sm)]
    else [first]

/-- Runs of bytes of one mark: offset, bytes, mark. -/
def markRuns : Nat → Bytes → List Bool → List (Nat × Bytes × Bool)
  | _, [], _ => []
  | off, b :: t, ms =>
    let m := ms.headD false
    match markRuns (off + 1) t (ms.drop 1) with
    | (_, bs, k) :: rest => if k = m then (off, b :: bs, m) :: rest else (off, [b], m) :: (off + 1, bs, k) :: rest
    | [] => [(off, [b], m)]

/-- Issue one write of an output stream: only what is poisoned is marked so (R181, R322). -/
def issueWrite (f : Nat) (d : Desc) (w : OutWrite) (s : State) : State :=
  (markRuns 0 w.2.1 w.2.2).foldl (fun s r =>
    let a := w.1 + BitVec.ofNat 64 r.1
    match d.dstKind.toNat with
    | 1 => storeRun (ferryPort f d) (a.toNat % 2 ^ 30) r.2.1 r.2.2 s
    | 2 => sendPort .u (.hostWrite .u a r.2.1 r.2.2) s
    | 3 => sendPort .d (.hostWrite .d a r.2.1 r.2.2) s
    | _ => sendRemote f (bitsAt d.dstAddr.toNat 62 60) (a.toNat % 2 ^ 30) r.2.1 r.2.2 s) s

/-- The declared element order of a descriptor's stream (R126). -/
def streamOrder (s : State) (d : Desc) : List Nat :=
  match tget? s.que.reqs d.request.toNat with
  | some r => (((planOf s r.slot r.gen).bind fun p => streamPlan p d.stream.toNat).map fun y => y.order).getD []
  | none => []

/-- The marks of a conversion's bytes (R181): an element is poisoned where one of its source bytes is. -/
def convertMarks (d : Desc) (bad : List Bool) : List Bool :=
  if d.conv = 3 then
    let i := fmtWidth d.fmtIn.toNat
    let o := fmtWidth d.fmtOut.toNat
    let n := 8 * bad.length / max 1 i
    let marks := (List.range n).map fun k => (List.range (i / 8 + 2)).any fun j =>
      decide (8 * (i * k / 8 + j) < i * (k + 1)) && bad.getD (i * k / 8 + j) false
    byteMarks o (o * n / 8) marks
  else bad

/-- Bytes with their marks, cut along the runs that they are written to. -/
def cutWrites : List (Nat × Nat) → Bytes → List Bool → List OutWrite
  | [], _, _ => []
  | r :: t, b, bad => (BitVec.ofNat 64 r.1, b.take r.2, bad.take r.2) :: cutWrites t (b.drop r.2) (bad.drop r.2)

/-- What an output stream writes next: the bytes of its buffer that it uses, its writes, and the slabs that they end. -/
def nextWrites (s : State) (st : Stream) : Nat × List OutWrite × Nat :=
  let d := st.desc
  if d.conv = 4 then
    let pieces := lacePieces s d.laceIn.toNat
    let len := (pieces.map (pieceBytes d.fmtIn.toNat)).sum
    if len = 0 || st.buf.length < len then (0, [], 0)
    else (len, packOut d (streamOrder s d) pieces st.vecs (st.buf.take len) (st.bufBad.take len), pieces.length)
  else
    let b := convertBytes d st.buf
    let bad := convertMarks d st.bufBad
    let runs := if d.conv = 0 then tensorRuns d d.dstAddr.toNat st.pos b.length else [(d.dstAddr.toNat + st.pos, b.length)]
    (st.buf.length, cutWrites runs b bad, st.bufSlabs)

/-- Bytes that an output stream writes in all (R125, R183). -/
def writtenBytes (d : Desc) : Nat :=
  if d.conv = 3 then d.length.toNat * fmtWidth d.fmtOut.toNat / max 1 (fmtWidth d.fmtIn.toNat) else d.length.toNat

/-- The result bytes that a request has to write in all. -/
def resultBytes (r : Req) : Nat := ((r.streams.filter fun t => t.output).map fun t => t.bytes).sum

/-- After the last result write of a request, a zero-length read goes to each port that carried results and is not the port of its
completion queue (R345): Port D of a request from Port U that writes to engine memory. -/
def flushResults (a : Nat) (s : State) : State :=
  match tget? s.que.reqs a, tget? s.que.cmds a with
  | some r, some c =>
    if resultBytes r ≤ r.written && (r.streams.any fun t => t.output && t.space = 1 && t.bytes ≠ 0) && !(cmdPort s c == .d) then
      sendPort .d (.zeroRead .d) s
    else s
  | _, _ => s

/-- Count `n` result bytes of the request whose output stream a descriptor serves. -/
def countResult (d : Desc) (n : Nat) (s : State) : State :=
  let a := d.request.toNat
  match tget? s.que.reqs a with
  | some r =>
    if r.streams.any fun t => t.output && t.stream = d.stream.toNat then
      flushResults a (modReq a (fun r => { r with written := r.written + n }) s)
    else s
  | none => s

/-- Issue the next writes of an output stream (R126, R181, R193): a slab is late when its last write is issued after its
deadline, and is counted once. -/
def writeOut (f k : Nat) (st : Stream) (s : State) : State :=
  let d := st.desc
  let (len, ws, slabs) := nextWrites s st
  if len = 0 then s
  else
    let s := ws.foldl (fun s w => issueWrite f d w s) s
    let n := (ws.map fun w => w.2.1.length).sum
    let s := countResult d n s
    let late := slabLate s d
    let pos := st.pos + n
    let left := st.buf.drop len
    let s := modStream f k (fun t =>
      { t with pos, vecs := t.vecs + 1, seq := t.seq + 1, buf := left, bufBad := t.bufBad.drop len, bufSlabs := t.bufSlabs - slabs }) s
    let s := if writtenBytes d ≤ pos then dropStream f k s else s
    if late then lateSlab d.request.toNat (bumpBy (ob 0x4051 1) (slabs - 1) s) else s

/-- Source bytes that a stream moves next which no Lace feeds and which feeds none. -/
def throughNext (st : Stream) : Nat := min (srcPerSlab st.desc) (st.desc.length.toNat - st.pos)

/-- Move one slab's bytes of a stream that no Lace feeds to a port, the Harbour or another module (R183): `source` is what the
read of a port gave. DESIGN CHOICE (notes/assumptions/45.md): between two memories SCALE_ADDR is the source's; the copy has the
scales of each vector directly after its elements. -/
def writeThrough (f k : Nat) (st : Stream) (source : HostRead) (s : State) : State :=
  let d := st.desc
  let len := throughNext st
  let (read, s) := sourceBytes f st (srcRuns d st.pos len) len source s
  match read with
  | none => stopRequest d.request.toNat St.hostAccess (streamDetail s d) false s
  | some (b, bad) =>
    let out := convertBytes d b
    let s := issueWrite f d (d.dstAddr + BitVec.ofNat 64 (convertBytes d (fit [] st.pos)).length, out, convertMarks d bad) s
    let s := countResult d out.length s
    let late := slabLate s d
    let pos := st.pos + len
    let s := modStream f k (fun t => { t with pos, seq := t.seq + 1 }) s
    let s := if d.length.toNat ≤ pos then dropStream f k s else s
    if late then lateSlab d.request.toNat s else s

/-- The Harbour runs that a stream's next push reads or writes, and no others (R19, R124, R166). -/
def pushRuns (s : State) (f k : Nat) (st : Stream) : List (Nat × Nat) :=
  let d := st.desc
  let reads := fun (l : List (Nat × Nat)) => if d.srcKind = 1 && !st.dud then l else []
  if fillsSlabs d then
    match st.filling with
    | [] => []
    | h :: _ =>
      (if descPlanes d then
        reads (vectorRuns d st.vecs (vecsBegun s st h)) ++ stagingRuns f k d (vecsBegun s st h * srcVecBytes d)
      else reads (srcRuns d st.pos (bytesNext s st h))) ++
        if destLace s d = none then [] else [(slabAddr h.toNat, 16384)]
  else
    let n := throughNext st
    reads (srcRuns d st.pos n) ++
      (if d.dstKind = 1 then
        (if d.srcKind = 0 then (nextWrites s st).2.1.map fun w => (w.1.toNat % 2 ^ 30, w.2.1.length)
         else [((d.dstAddr + BitVec.ofNat 64 (convertBytes d (fit [] st.pos)).length).toNat % 2 ^ 30,
           (convertBytes d (fit [] n)).length)])
      else [])

/-- SLAB_PUSH (R179, R121 to R126, R193): a filled slab is pushed onto its Lace, or an output stream issues its writes.
`source` is what the read of the source returned, for a source outside the Harbour. A run of the Harbour that is under clear
or in RET makes the Ferry wait (R19, R164, R166). -/
def execSlabPush (f : Fin 256) (stream : Fin 16) (source : HostRead) (s : State) : Res :=
  match streamOf s f.val stream.val with
  | none => .next s
  | some st =>
    if st.cancelled then .next s
    else if runsWait s (pushRuns s f.val stream.val st) then .next (runsWake (pushRuns s f.val stream.val st) s)
    else if fillsSlabs st.desc then
      match st.filling with
      | [] => .next s
      | h :: rest =>
        let s := if descPlanes st.desc then pushPlanes f.val stream.val st h rest source s
          else pushBytes f.val stream.val st h rest source s
        .next (endFor st.desc.request.toNat s)
    else if st.desc.srcKind = 0 then .next (endFor st.desc.request.toNat (writeOut f.val stream.val st s))
    else .next (endFor st.desc.request.toNat (writeThrough f.val stream.val st source s))

/-! ## Starting a stream (R119, R182, R184, R192) -/

/-- Poisoned data for the consumers of a descriptor that is not executed (R119, R184): the consumers of its Lace, the receivers
of its multicast group, or the port, Harbour range or module that it was to write. -/
def poisonStream (f : Nat) (d : Desc) (s : State) : State :=
  let a := d.request.toNat
  let len := d.length.toNat
  let s := if descMcast d then
      mcastSend f d [] { slab := 0xFFFF, fill := 64, poison := true, special := false, last := true, late := false, gen := d.gen,
                         seq := 0 } s
    else s
  if fillsSlabs d then
    match if descMcast d then destLace s d else consumerLace s d with
    | some n => poisonVectors n a s
    | none => s
  else
    let s := issueWrite f d (d.dstAddr, List.replicate len 0, List.replicate len true) s
    flushResults a (modReq a (fun r => { r with poison := r.poison + 1, written := r.written + len }) s)

/-- The transfer that stands for a multicast descriptor which is not executed (R184): what the Last declares for the stream, so that
every receiver gets the vectors that it expects, poisoned. -/
def dudDesc (s : State) (d : Desc) : Option Desc :=
  let a := d.request.toNat
  match tget? s.que.reqs a, s.model.launches.findSome? fun l => (reqRange l.2.reqs a 0).map fun r => (l.2, r.2) with
  | some r, some (x, n) =>
    match (planOf s r.slot r.gen).bind fun p => streamPlan p d.stream.toNat with
    | none => none
    | some y =>
      let e := { d with conv := y.conv, depth := BitVec.ofNat 8 y.depth, fmtIn := y.fmtIn, fmtOut := y.fmtOut
                        planes := BitVec.ofNat 8 y.planes, srcKind := 1, dstKind := 4, flags := d.flags ||| 4
                        length := BitVec.ofNat 64 (n * y.bytes), elems := BitVec.ofNat 32 y.elems, gen := x.gen }
      if descBad e then none else some e
  | _, _ => none

/-- Put a transfer into a free slot of Ferry `f`. -/
def beginStream (f order : Nat) (d : Desc) (dud : Bool) (s : State) : State :=
  match freeKey (ferryOf s f).streams 16 with
  | none => s
  | some k =>
    let st : Stream :=
      { desc := d, order, pos := 0, seq := 0, filling := [], cancelled := false, dud, blocksDone := 0, vecs := 0, xs := [],
        ex := 0, special := false, poison := false, buf := [], bufBad := [], bufSpecial := false, bufSlabs := 0 }
    bindDrain f k d (modFerry f (fun y => { y with streams := tset y.streams k st }) s)

/-- Start a descriptor in a free slot of Ferry `f`, or turn it away as bad (R182, R184). -/
def startStream (f order : Nat) (d : Desc) (s : State) : State :=
  if descBad d then
    let s := raise .badDescriptor 5 f (bump (ob 0x4023 1) s)
    match if descMcast d then dudDesc s d else none with
    | some e => beginStream f order e true s
    | none => poisonStream f d s
  else beginStream f order d false s

/-- Waiting descriptors take free slots, in order (R182). -/
def startWaiting : Nat → State → State
  | 0, s => s
  | fuel + 1, s =>
    match emptiestFerry s, firstWaiting s.flow.waiting with
    | some f, some e =>
      startWaiting fuel (startStream f e.1 e.2
        { s with flow := { s.flow with waiting := s.flow.waiting.filter fun k => k.1 ≠ e.1 } })
    | _, _ => s

/-- Uzomel issues a descriptor (R182): it takes its turn among those that wait. -/
def issueDesc (d : Desc) (s : State) : State :=
  let order := s.flow.nextOrder
  let s := { s with flow := { s.flow with nextOrder := order + 1, waiting := s.flow.waiting ++ [(order, d)] } }
  startWaiting s.flow.waiting.length s

/-- A stream of this request, generation and number runs or waits already. -/
def streamKnown (s : State) (d : Desc) : Bool :=
  let same := fun (e : Desc) => e.request = d.request && e.gen = d.gen && e.stream = d.stream
  (tget? s.que.reqs d.request.toNat).isSome &&
    ((s.flow.waiting.any fun e => same e.2) || s.flow.ferries.any fun f => f.2.streams.any fun t => same t.2.desc)

/-- A request has been stopped and has not yet gone (R190). -/
def reqRecalled (s : State) (a : Nat) : Bool := ((tget? s.que.reqs a).map fun r => r.stopped.isSome).getD false

/-- FERRY_DESCRIPTOR_ISSUE (R182, R183, R188, R192): Uzomel issues a descriptor to the Ferry with the fewest active streams, and
without a free slot it waits. Those of a launch's streams are issued at its admission; a stream that runs or waits already is
not issued twice, and a stopped request's takes nothing further (R190). -/
def execFerryDescriptorIssue (desc : Bytes) (s : State) : Res :=
  let d := descOf (fit desc 64)
  if reqRecalled s d.request.toNat || streamKnown s d then .next s else .next (issueDesc d s)

/-- FERRY_SLOT_START (R182): a waiting descriptor takes a free slot of the Ferry, if that is the one with the fewest active
streams. -/
def execFerrySlotStart (f : Fin 256) (s : State) : Res :=
  if emptiestFerry s ≠ some f.val then .next s
  else match firstWaiting s.flow.waiting with
    | none => .next s
    | some e =>
      let s := { s with flow := { s.flow with waiting := s.flow.waiting.filter fun k => k.1 ≠ e.1 } }
      .next (startStream f.val e.1 e.2 s)

/-- CANCELLED_SLAB_RECALL (R190, R191): the last write of a cancelled fill has been acknowledged; its data is discarded. -/
def execCancelledSlabRecall (f : Fin 256) (stream : Fin 16) (s : State) : Res :=
  match streamOf s f.val stream.val with
  | none => .next s
  | some st =>
    if !st.cancelled then .next s
    else match st.filling with
      | [] => .next (endFor st.desc.request.toNat (dropStream f.val stream.val s))
      | h :: rest =>
        let s := bump (ob 0x4022 1) s
        let s := if rest = [] then dropStream f.val stream.val s
          else modStream f.val stream.val (fun t => { t with filling := rest }) s
        match laceOfHandle s h with
        | none => .next (endFor st.desc.request.toNat s)
        | some (n, _) =>
          let open_ := (((tget? s.flow.laces n).bind fun la => la.partialSlab).map fun o => o.h) = some h
          let others := ((tget? s.flow.laces n).map fun la =>
            la.held.any fun k => k.h = h && !onlyStopped s st.desc.request.toNat k).getD false
          if open_ && others then .next (endFor st.desc.request.toNat (discardLate (flushOpen n s)))
          else
            let s := modLace n (fun la => { la with
              held := la.held.map fun k => if k.h = h then { k with waits := [] } else k
              partialSlab := if open_ then none else la.partialSlab }) s
            .next (endFor st.desc.request.toNat (clearReleased h s))

/-- REQUEST_DEADLINE_PASS (R194, R195): under DISCARD, Tide has passed the request deadline before its completion. -/
def execRequestDeadlinePass (a : Fin 4096) (s : State) : Res :=
  match tget? s.que.reqs a.val with
  | none => .next s
  | some r =>
    match r.deadline with
    | none => .next s
    | some t =>
      if decide (t.toNat < (tideOf s).toNat) && reqDiscards s a.val then .next (discardRequest a.val s) else .next s

end Sys2Proof.Machine
end

