-- ==== Sys2Proof/Machine/Welt.lean ====
section
/-! DEFINITION. The island sequencer and the Welt (R23, R44 to R53, R80 to R108): slabs received, row groups started,
pulse cycles and their checks, re-runs, recompute requests, long-sum packets. Choices of the model:
notes/assumptions/8.md (DESIGN CHOICE), notes/assumptions/17.md (DESIGN CHOICE). -/

namespace Sys2Proof.Machine

/-! ## Weights and scales (R88, R89, R115) -/

/-- The image record of a manifest hash. -/
def imageRec (s : State) (h : Digest) : Option (Nat × ImageRec) := s.model.images.find? fun e => e.2.hash = h

/-- The scale exponent of output `k` of a slice in scale block `blk` (R89, R230). -/
def sliceScale (s : State) (slot : Nat) (gen : BitVec 16) (slice outputs blk k : Nat) : Int :=
  match imageRec s (imageOf s slot gen) with
  | some (_, r) => (((tget r.scales slice []).getD (blk * outputs + k) 127).toNat : Int) - 127
  | none => 0

/-- The weight integer of output `k` in a row's logical bits (R88, R115). -/
def rowWeight (cols k row : Nat) : Int := signedAt cols (row >>> (cols * k))

/-! ## Receiving slabs (R84, R179, R186) -/

/-- The place of a held slab in its launch's vectors: vector, and what of it earlier slabs carry. -/
def heldPlace (s : State) (n : Nat) (h : BitVec 16) : Nat × Nat :=
  ((tget? s.flow.laces n).bind fun la => (la.held.find? fun k => k.h = h).map fun k => (k.vec, k.off)).getD (0, 0)

/-- A consumer of row blocks as it stands before a slab: every earlier vector and row block counts as read (R186). -/
def atSlab (place : Nat × Nat) (nb : Nat) (c : LaceConsumer) : LaceConsumer :=
  if place.2 = 0 then { c with vecs := place.1, blocks := nb } else { c with vecs := place.1 + 1, blocks := place.2 }

/-- Row blocks of a vector of the stream that fills a Lace. -/
def laceBlocks (s : State) (n : Nat) : Nat := ((feedStream s n).map fun y => ceilDiv y.elems 1024).getD 1

/-- Read an entry's slab into a thread's slices (R84, R186). A stopped request's vectors are skipped (R191). -/
def receiveThread (n k i t : Nat) (c : LaceConsumer) (e : LaceEntry) (s : State) : State :=
  let a := slabAddr e.slab.toNat
  let ((slab, marked), s) := fetchRun (BitVec.ofNat 12 i) a e.fill.toNat s
  let bad := e.poison || marked
  let nb := laceBlocks s n
  let (_, cont, blocks, heads) := slabHeader slab
  let c₀ := atSlab (heldPlace s n e.slab) nb c
  let (refs, c') := walkBlocks nb blocks 64 heads c₀
  let carried := c.poison && cont
  let c' := { c' with waiting := c.waiting.drop 1, poison := bad || (carried && c'.vecs = c₀.vecs) }
  let s := setConsumer n k c' s
  match tget? (islandOf s i).threads t with
  | none => s
  | some th =>
    match tget? s.model.launches th.launch with
    | none => s
    | some x =>
      let refs := refs.filter fun r => liveVec s x r.vec
      let add := fun (w : SliceWork) =>
        if w.lace = n then
          { w with groups := w.groups ++ refs.flatMap fun r => if r.block = w.rowBlock then blockGroups slab e.slab w r else [] }
        else w
      let s := modIsland i (fun y => { y with threads := tset y.threads t { th with works := th.works.map add } }) s
      -- R305: a top-up run on a bank that now has a row group waiting stops after its row
      let s := (th.works.filter fun w => w.lace = n && refs.any fun r => r.block = w.rowBlock).foldl (fun s w => preemptRun w.bank s) s
      let s := refs.foldl (fun s r =>
        let p := bad || (carried && r.vec + 1 = c₀.vecs)
        feedVector th.launch n r.vec (feedJoin r.ex r.special p) s) s
      markFinals i t s

/-- Bytes of a stream without planes as a consumer holds them, with zeros in the place of what no slab brings (R191). -/
def padBytes (place : Nat × Nat) (vb : Nat) (x : LaceConsumer) : LaceConsumer :=
  { x with acc := x.acc ++ List.replicate (place.1 * vb + place.2 - (x.vecs * vb + x.acc.length)) 0 }

/-- Read an entry's slab at a Welt whose joins its vectors feed (R81, R97, R123): e_x and the marks of the vectors that it carries. -/
def receiveWelt (n k i : Nat) (c : LaceConsumer) (e : LaceEntry) (s : State) : State :=
  match tget? s.flow.laces n with
  | none => s
  | some la =>
    let ((slab, marked), s) := fetchRun (BitVec.ofNat 12 i) (slabAddr e.slab.toNat) e.fill.toNat s
    let bad := e.poison || marked
    let nb := laceBlocks s n
    let (_, _, blocks, heads) := slabHeader slab
    let (refs, c') := walkBlocks nb blocks 64 heads (atSlab (heldPlace s n e.slab) nb c)
    let s := setConsumer n k { c' with waiting := c.waiting.drop 1 } s
    let s := (refs.filter fun r => ((tget? s.model.launches la.launch).map fun x => liveVec s x r.vec).getD false).foldl (fun s r =>
      feedVector la.launch n r.vec (feedJoin r.ex r.special bad) s) s
    endLaunch la.launch (settleLaunch la.launch s)

/-- Read an entry's slab into a cluster (R132, R135). -/
def receiveCluster (n k c : Nat) (x : LaceConsumer) (e : LaceEntry) (s : State) : State :=
  match tget? s.flow.laces n with
  | none => s
  | some la =>
    let l := la.launch
    let a := slabAddr e.slab.toNat
    let ((slab, marked), s) := fetchRun (BitVec.ofNat 12 (2048 + c)) a e.fill.toNat s
    let bad := e.poison || marked
    let place := heldPlace s n e.slab
    let x := { x with waiting := x.waiting.drop 1 }
    let step := ((tget? s.model.launches l).map fun y => launchStep s y).getD false
    if lacePlanes s n && step then
      match feedStream s n with
      | none => setConsumer n k x s
      | some z =>
        let nb := laceBlocks s n
        let (_, _, blocks, heads) := slabHeader slab
        let (refs, y) := walkBlocks nb blocks 64 heads (atSlab place nb x)
        let x := padBytes (place.1, 4096 * place.2) (feedBytes z) x
        let x := { x with acc := x.acc ++ (planeBytes z slab refs).map (fun b => (b.toNat : Int)), ex := y.ex, planes := y.planes
                          poison := x.poison || bad, special := x.special || refs.any fun r => r.special }
        stepGather l c (x.acc.length + 1) (setConsumer n k x s)
    else if lacePlanes s n then
      let nb := laceBlocks s n
      let (_, _, blocks, heads) := slabHeader slab
      let (refs, _) := walkBlocks nb blocks 64 heads (atSlab place nb x)
      let (x, s) := clusterBlocks nb l n c slab bad refs x s
      setConsumer n k x s
    else
      let vb := ((feedStream s n).map fun y => y.bytes).getD 0
      let x := padBytes place vb x
      let x := { x with acc := x.acc ++ slab.map fun b => (b.toNat : Int), poison := x.poison || bad
                        special := x.special || e.special }
      let s := setConsumer n k x s
      stepGather l c (x.acc.length + 1) s

/-- Elements of a result that lie in words beyond correction or in a FAILED segment (R165, R181, R476): they reach the output poisoned. -/
def lostElements (s : State) (fmt a len : Nat) : Nat :=
  let failed := domState s (domSeg (addrSeg a)) == .failed
  let broken := fun (w : Nat) => failed || eccDecode (wordSyn s.hbr w) == .uncorrectable
  let n := 8 * len / max 1 (fmtWidth fmt)
  ((List.range n).filter fun i =>
    broken ((a + fmtWidth fmt * i / 8) / 8) || broken ((a + (fmtWidth fmt * (i + 1) - 1) / 8) / 8)).length

/-- Read an entry into an output stream (R181): a stream takes the slabs of its own request and skips the others. -/
def receiveFerry (n k f t : Nat) (x : LaceConsumer) (e : LaceEntry) (s : State) : State :=
  match streamOf s f t with
  | none => setConsumer n k { x with waiting := x.waiting.drop 1 } s
  | some st =>
    let a := st.desc.request.toNat
    let mine := ((tget? s.flow.laces n).map fun la => la.held.any fun k => k.h = e.slab && k.reqs.contains a).getD false
    if !mine then setConsumer n k { x with waiting := x.waiting.drop 1 } s
    else if !firstStream s f t st then s
    else
      let s := setConsumer n k { x with waiting := x.waiting.drop 1 } s
      let p := slabAddr e.slab.toNat
      let len := e.fill.toNat
      let lost := lostElements s st.desc.fmtIn.toNat p len
      let result := ((tget? s.que.reqs a).map fun r => r.streams.any fun t => t.output && t.stream = st.desc.stream.toNat).getD false
      let ((b, marks), s) := fetchRuns (ferryPort f st.desc) [(p, len)] s
      let s := if result then modReq a (fun r => { r with poison := r.poison + lost }) s else s
      modStream f t (fun y =>
        { y with buf := y.buf ++ b, bufBad := y.bufBad ++ marks, bufSpecial := y.bufSpecial || e.special
                 bufSlabs := y.bufSlabs + 1 }) s

/-! ## Threads in R23's order -/

/-- A thread before another in R23's order. -/
def threadBefore (a b : Nat × Thread) : Bool :=
  let tie := decide (a.2.order < b.2.order) || (a.2.order = b.2.order && decide (a.1 < b.1))
  match a.2.deadline, b.2.deadline with
  | some x, some y => decide (x.toNat < y.toNat) || (x = y && tie)
  | some _, none => true
  | none, some _ => false
  | none, none => tie

def firstThread : List (Nat × Thread) → Option (Nat × Thread)
  | [] => none
  | e :: t => match firstThread t with
    | none => some e
    | some k => if threadBefore k e then some k else some e

/-- A thread of an island has an entry to read whose slab can be read now. -/
def threadReads (s : State) (i t : Nat) : Bool :=
  s.flow.laces.any fun la => la.2.consumers.any fun c => c.who == Consumer.thread i t && match c.waiting with
    | [] => false
    | e :: _ => !runWaits s (slabAddr e.slab.toNat) e.fill.toNat

/-- A thread has the island's Sound port (R22, R23): no thread that comes before it has an entry to read. -/
def portTurn (s : State) (i t : Nat) : Bool :=
  let ready := (islandOf s i).threads.filter fun y => y.1 = t || threadReads s i y.1
  (tget? (islandOf s i).threads t).isNone || (firstThread ready).map Prod.fst = some t

/-- LACE_ENTRY_RECEIVE (R22, R178, R179): the consumer takes the oldest entry that waits for it and reads its slab; a segment in RET
makes it wait (R166). -/
def execLaceEntryReceive (lace : Fin 4096) (consumer : Nat) (s : State) : Res :=
  let n := lace.val
  match tget? s.flow.laces n with
  | none => .next s
  | some la =>
    match la.consumers[consumer]? with
    | none => .next s
    | some c =>
      match c.waiting with
      | [] => .next s
      | e :: _ =>
        let run := (slabAddr e.slab.toNat, e.fill.toNat)
        if runWaits s run.1 run.2 then .next (runWake run.1 run.2 s)
        else match c.who with
          | .thread i t => if portTurn s i t then .next (receiveThread n consumer i t c e s) else .next s
          | .welt i => .next (receiveWelt n consumer i c e s)
          | .cluster k => .next (receiveCluster n consumer k c e s)
          | .ferry f t => .next (receiveFerry n consumer f t c e s)
          -- an output stream that waits for a Ferry's slot reads later; without a stream nothing is written
          | .drain y a =>
            if s.flow.waiting.any fun d => d.2.request.toNat = a && d.2.stream.toNat = y then .next s
            else .next (setConsumer n consumer { c with waiting := c.waiting.drop 1 } s)

/-! ## Starting a row group (R23, R46, R48, R71, R305) -/

/-- A thread's work that has a row group ready for an array. DESIGN CHOICE (notes/assumptions/17.md): where a thread has groups
ready on both banks of one array, the slice that comes first in its work list goes first; R83 does not say which does. -/
def readyWork (array : Nat) (th : Thread) : Option SliceWork :=
  th.works.find? fun w => bankArray w.bank = array && w.groups ≠ []

/-- A thread's launch has begun (R402). -/
def threadBegun (s : State) (th : Thread) : Bool :=
  ((tget? s.model.launches th.launch).map fun x => x.begun && !x.cancelled).getD false

/-- The bank's cells are in use by an Awl operation (R22, R71). -/
def bankBusy (s : State) (n : Nat) : Bool := (bankOf s n).ops.any opRunning

def setWork (i t : Nat) (w : SliceWork) (s : State) : State :=
  modIsland i (fun y => match tget? y.threads t with
    | some th =>
      let works := th.works.map fun (k : SliceWork) => if k.slice = w.slice then w else k
      { y with threads := tset y.threads t { th with works } }
    | none => y) s

/-- ROW_GROUP_START (R23, R46, R48, R305): the first thread with a group ready takes the array. Compute that meets a top-up
run stops it after its row. -/
def execRowGroupStart (island : Nat) (array : Fin 256) (s : State) : Res :=
  let arr := island * 256 + array.val
  if !(island < nIslands s) then .fault .absentUnit
  else
    let y := islandOf s island
    let ready := y.threads.filter fun t => threadBegun s t.2 && (readyWork arr t.2).isSome
    match firstThread ready with
    | none => .next s
    | some (t, th) =>
      match readyWork arr th with
      | none => .next s
      | some w =>
        let s := preemptRun w.bank s
        if (tget? y.pulses array.val).isSome || dipHolds s || !domIsOn s island || bankBusy s w.bank then .next s
        else match w.groups with
          | [] => .next s
          | g :: rest =>
            let p : Pulse := { thread := Fin.ofNat 16 t, launch := th.launch, slice := w.slice, bank := w.bank, group := g, ended := false }
            let s := setWork island t { w with groups := rest } s
            .next (modIsland island (fun y =>
              { y with pulses := tset y.pulses array.val p, computing := tset y.computing array.val (w.bank % 2) }) s)

/-! ## The pulse cycle (R44, R46, R49, R51, R52) -/

/-- The rows that are really driven: the group's, with the word lines that the disturbance toggles. -/
def drivenRows (g : Group) (d : Disturb) : List Nat :=
  (List.range 1024).filter fun r => g.mask.getLsbD r != d.rows.contains r

/-- The work of a pulse: none where its launch has left the thread (R190). -/
def pulseWork (s : State) (island : Nat) (p : Pulse) : Option (Thread × SliceWork) :=
  match tget? (islandOf s island).threads p.thread.val with
  | none => none
  | some th => if th.launch ≠ p.launch then none else (th.works.find? fun w => w.slice = p.slice).map fun w => (th, w)

/-- PULSE_CYCLE_END (R46, R49, R51, R52): the converters deliver codes, flags and the row echo. -/
def execPulseCycleEnd (island : Nat) (array : Fin 256) (d : Disturb) (s : State) : Res :=
  if !(island < nIslands s) then .fault .absentUnit
  else match tget? (islandOf s island).pulses array.val with
    | none => .next s
    | some p =>
      if p.ended then .next s
      else
        let tol := ((pulseWork s island p).map fun w => w.2.tolerant).getD false
        let rows := drivenRows p.group d
        let pop := p.group.pop
        let cols := if tol then 1024 else 1120
        let edges := ((List.range cols).zip (columnCounts (bankOf s p.bank) rows cols)).map fun c =>
          (c.1, (c.2 : Int) * 1000 + edgeShift d c.1)
        let exact := edges.map fun e => (e.1, exactCode pop e.2)
        let coarse := edges.map fun e => tolerantCode pop e.2
        let p := { p with
          ended := true, codes := if tol then coarse.map Prod.fst else exact.map fun c => c.2.1
          unders := if tol then [] else (exact.filter fun c => c.2.2.1).map Prod.fst
          overs := if tol then [] else (exact.filter fun c => c.2.2.2).map Prod.fst
          echoCount := rows.length, echoSum := BitVec.ofNat 16 rows.sum }
        let s := if tol then bumpBy (ob 0x3012 1) (coarse.filter Prod.snd).length s else s
        let s := noteUse p.bank (modIsland island (fun y => { y with pulses := tset y.pulses array.val p }) s)
        -- R47: the typical length scales with k(V, T); the disturbance says by how much this cycle differs from it
        let typ := pulsePicos (monOf s (ob 0x9030 1) 0).last.toNat (islandTj s island) pop
        .next (sample (ob 0x9011 0) island (((typ : Int) + d.slip).toNat % 2 ^ 32) s)

/-! ## The Welt (R90, R93, R103 to R105) -/

/-- A pulse-cycle result passes its checks (R50, R51, R61, R87, R106). -/
def pulsePasses (tolerant : Bool) (p : Pulse) : Bool :=
  decide (p.echoCount = p.group.pop) && p.echoSum == p.group.isum &&
    (tolerant || (p.unders = [] && p.overs = [] && residuesOk p.codes))

/-- Add a conversion's counts into lanes (R90, R91, R93). -/
def addCounts (s : State) (x : Launch) (w : SliceWork) (g : Group) (codes : List Nat) (lanes : List (BitVec 320)) :
    List (BitVec 320) :=
  (List.range w.outputs).foldl (fun ls k =>
    let counts := (codes.drop (w.cols * k)).take w.cols
    let sum := planeSum w.cols g.planes g.plane counts
    let sc := if w.scaled then sliceScale s x.slot x.gen w.slice w.outputs g.scaleBlock k else 0
    let lane := w.firstOutput + k
    ls.set lane (laneAdd (ls.getD lane 0) sum (lanePos sc w.frac))) lanes

/-- Clusters that are ON, not retired and below 32 recomputes (R143, R146). -/
def recomputeClusters (s : State) : List Nat :=
  (List.range 16).filter fun c =>
    domIsOn s (domCluster c) && !(clusterOf s c).retired && decide ((clusterOf s c).recomputes.length < 32)

/-- The ON cluster with the fewest outstanding recomputes (R143); the lower number on a tie. -/
def recomputeCluster (s : State) : Option Nat :=
  (recomputeClusters s).foldl (fun best c => match best with
    | some b => if (clusterOf s c).recomputes.length < (clusterOf s b).recomputes.length then some c else best
    | none => some c) none

/-- Wake a further cluster when every ON cluster has 8 or more recomputes outstanding (R146). -/
def wakeForRecomputes (s : State) : State :=
  let on := (List.range 16).filter fun c => domIsOn s (domCluster c)
  if on.all fun c => decide (8 ≤ (clusterOf s c).recomputes.length) then
    match (List.range 16).find? fun c => domState s (domCluster c) == .off && !(clusterOf s c).retired with
    | some c => wantOn (domCluster c) s
    | none => s
  else s

/-- A recompute request (R102 to R104, R143): the failing slice's source is replaced by the cluster that will answer. -/
def requestRecompute (island : Nat) (x : Launch) (p : Pulse) (w : SliceWork) (c : Nat) (s : State) : State :=
  let g := p.group
  let id := w.joinBase + g.vec
  let row := ((List.range 1024).find? fun i => g.mask.getLsbD i).getD 0
  let replace := fun (y : Source) => if y.id == SourceId.slice w.slice && !y.final then { y with id := SourceId.shank c w.slice } else y
  let s := modJoin island id (fun j => { j with sources := j.sources.map replace }) s
  let r : Recompute :=
    { island, join := id, slice := w.slice, bank := w.bank, plane := g.plane, row, handle := g.handle, offset := g.offset,
      planes := g.planes, cols := w.cols, frac := w.frac, outputs := w.outputs, firstOutput := w.firstOutput,
      rows := w.rows, scaled := w.scaled, started := false, rowsLeft := [], lanes := List.replicate w.outputs 0,
      poisoned := false, since := tideOf s, rereads := 0 }
  let n := ((clusterOf s c).recomputes.map fun e => e.1 + 1).foldl max 0
  let s := modCluster c (fun y => { y with recomputes := tset y.recomputes n r }) s
  let s := { s with flow := { s.flow with recomputeHolds := s.flow.recomputeHolds ++ [g.handle] } }
  let s := modBank w.bank (fun b => { b with suspect := true }) s
  let s := modSched w.bank (fun d => { d with afterRecompute := true }) s
  let _ := x
  wakeForRecomputes (bump (ob 0x3014 1) s)

def dropPulse (island array : Nat) (s : State) : State :=
  modIsland island (fun y => { y with pulses := tdel y.pulses array }) s

/-- A bit of a limb's codeword is inverted (R92, R320): data bits 0 to 63, check bits 64 to 71. -/
def upsetLimb (u : Nat × Nat × Nat) (j : Join) : Join :=
  let (lane, limb, bit) := u
  if j.lanes.length ≤ lane || 5 ≤ limb || 72 ≤ bit then j
  else
    let w := 5 * lane + limb
    let syn := tget j.dev w 0
    if bit < 64 then
      { j with lanes := j.lanes.set lane ((j.lanes.getD lane 0) ^^^ BitVec.ofNat 320 (2 ^ (64 * limb + bit)))
               dev := devSet j.dev w (syn ^^^ BitVec.ofNat 8 (hCols.getD bit 0)) }
    else { j with dev := devSet j.dev w (syn ^^^ BitVec.ofNat 8 (2 ^ (bit - 64))) }

/-- The results that a Welt accepts at once (R105). -/
def weltIntake : Nat := 16

/-- The results that an island's arrays hold at t4, in the order in which the Welt takes them (R22, R105): by thread as R23
says, then by array. -/
def resultsBefore (y : Island) (array : Nat) (p : Pulse) : Nat :=
  let th := fun (k : Pulse) => (tget? y.threads k.thread.val).map fun t => (k.thread.val, t)
  (y.pulses.filter fun e => e.2.ended && e.1 ≠ array &&
    match th e.2, th p with
    | some a, some b => threadBefore a b || (a.1 = b.1 && decide (e.1 < array))
    | _, none => true
    | none, _ => false).length

/-- The Welt takes this result now (R22, R105). -/
def weltTakes (s : State) (island array : Nat) (p : Pulse) : Bool := decide (resultsBefore (islandOf s island) array p < weltIntake)

/-- The limbs of the lanes that an addition touches are read first (R92, R321, R323). -/
def touchLanes (home id : Nat) (touched : Nat → Bool) (s : State) : State :=
  match tget? (homeJoins s home) id with
  | none => s
  | some j =>
    if j.dev = [] then s
    else
      let (k, s) := limbRead home touched j s
      setHomeJoins home (tset (homeJoins s home) id k) s

/-- WELT_ACCEPT (R92, R96, R103 to R105): the Welt takes a pulse-cycle result that an array holds at t4, if it is among the 16
that it takes first. `upsets` are bits of the join's limbs (lane, limb, bit of the codeword) that have been upset since they
were last read. -/
def execWeltAccept (island : Nat) (array : Fin 256) (upsets : List (Nat × Nat × Nat)) (s : State) : Res :=
  if !(island < nIslands s) then .fault .absentUnit
  else match tget? (islandOf s island).pulses array.val with
    | none => .next s
    | some p =>
      if !p.ended || !weltTakes s island array.val p then .next s
      else match pulseWork s island p with
        | none => .next (dropPulse island array.val s)
        | some (th, w) =>
          match tget? s.model.launches th.launch with
          | none => .next (dropPulse island array.val s)
          | some x =>
            let t := p.thread.val
            let id := w.joinBase + p.group.vec
            let s := modJoin island id (fun j => upsets.foldl (fun j u => upsetLimb u j) j) s
            if pulsePasses w.tolerant p then
              let s := touchLanes island id (fun k => decide (w.firstOutput ≤ k) && decide (k < w.firstOutput + w.outputs)) s
              let s := modJoin island id (fun j =>
                { j with lanes := addCounts s x w p.group p.codes j.lanes }) (dropPulse island array.val s)
              .next (markFinals island t (setWork island t { w with rerun := false } s))
            else
              let echo := decide (p.echoCount ≠ p.group.pop) || p.echoSum != p.group.isum
              let fail := fun (s : State) => if echo then arrayFailure w.bank s else s
              if !w.rerun then
                -- R103: the same group and plane again on the same bank
                let s := fail (dropPulse island array.val s)
                let s := setWork island t { w with groups := p.group :: w.groups, rerun := true } s
                .next (countRerun w.bank (bump (ob 0x3013 1) s))
              else match recomputeCluster s with
                | none => .next s
                | some c =>
                  let s := fail (dropPulse island array.val s)
                  let s := requestRecompute island x p w c s
                  let w := { w with groups := w.groups.filter fun g => g.vec ≠ p.group.vec, rerun := false }
                  .next (markFinals island t (setWork island t w s))

/-! ## Long-sum packets (R99 to R102, R175) -/

/-- A flit's data after its check, and whether it is beyond correction or poisoned (R175, R321). -/
def flitData (f : Flit) : BitVec 64 × Bool :=
  match eccDecode (syndrome f.data f.check) with
  | .dataBit i => (f.data ^^^ BitVec.ofNat 64 (2 ^ i), false)
  | .clean => (f.data, false)
  | .checkBit _ => (f.data, false)
  | .poison => (f.data, true)
  | .uncorrectable => (f.data, true)

/-- A flit is beyond correction, and not a poison mark (R175, R321, R322). -/
def flitBroken (f : Flit) : Bool := eccDecode (syndrome f.data f.check) == .uncorrectable

/-- The lanes of a packet's payload (R99, R100): lane, signed partial, whether one of its flits is marked (R322). -/
def parseLanes : Nat → List (BitVec 64 × Bool) → List (Nat × BitVec 320 × Bool)
  | 0, _ => []
  | _ + 1, [] => []
  | fuel + 1, d :: t =>
    let n := d.1.toNat
    let mask := bitsAt n 51 47
    let ks := (List.range 5).filter fun k => bitAt mask k
    let mag := ((ks.zip t).map fun p => p.2.1.toNat * 2 ^ (64 * p.1)).sum
    let v := BitVec.ofNat 320 mag
    (bitsAt n 63 53, if bitAt n 52 then 0 - v else v, d.2 || (t.take ks.length).any Prod.snd) :: parseLanes fuel (t.drop ks.length)

/-- The open join that a packet names at an island's port (R101, R102): on its Welt, or on the cluster that holds the joins of
that island while it is in quarantine. -/
def packetHome (s : State) (island id : Nat) : Option Nat :=
  if (tget? (islandOf s island).joins id).isSome then some island
  else (s.clusters.find? fun c => ((tget? c.2.joins id).map fun j => decide (j.island = island)).getD false).map fun c => 2048 + c.1

/-- The Last names the module of a remote source, not its island (R199). -/
def anyUnit : Nat := 2048

/-- A Shank source that a packet's header names (R102): a cluster of this module. -/
def shankNamed (self header : Nat) (id : SourceId) : Bool :=
  match id with
  | .shank c _ => bitsAt header 45 43 = self && bitAt header 42 && c = bitsAt header 34 31
  | _ => false

/-- A declared partial that a packet's header names (R97, R102): of a module whose island or cluster holds the join that sends
it, or of an island of this module. -/
def remoteNamed (header : Nat) (id : SourceId) : Bool :=
  match id with
  | .remote m u => m = bitsAt header 45 43 && (u = anyUnit || (!bitAt header 42 && u = bitsAt header 41 31))
  | _ => false

/-- The sources of a join that a packet's header names and that have not set their final mark: a Shank source of its cluster
first, else a declared partial (R97, R101, R102). -/
def packetSource (self header : Nat) (sources : List Source) (id : SourceId) : Bool :=
  if sources.any fun x => !x.final && shankNamed self header x.id then shankNamed self header id else remoteNamed header id

/-- A recompute ends once the Welt has accepted its packet (R143, R146): the slab is no longer held, its latency is known. -/
def endRecompute (c n : Nat) (r : Recompute) (s : State) : State :=
  let t := (tideOf s - r.since).toNat
  let s := modCluster c (fun y => { y with recomputes := tdel y.recomputes n }) s
  let s := { s with flow := { s.flow with recomputeHolds := s.flow.recomputeHolds.erase r.handle } }
  let s := sample (ob 0x5011 1) 0 t (clearReleased r.handle s)
  if 40000 < t then bump (ob 0x5012 1) s else s

/-- A packet with FINAL from a cluster ends the oldest recompute of that join that has sent its lanes. -/
def recomputeAccepted (c island id : Nat) (s : State) : State :=
  match (clusterOf s c).recomputes.find? fun e =>
      e.2.island = island && e.2.join = id && e.2.started && e.2.rowsLeft = [] with
  | some (n, r) => endRecompute c n r s
  | none => s

/-- LONG_SUM_RECEIVE (R96, R100, R101): a long-sum packet reaches an island's Welt. -/
def execLongSumReceive (island : Nat) (packet : List Flit) (s : State) : Res :=
  if !(island < nIslands s) then .fault .absentUnit
  else
    let ds := packet.map flitData
    match ds with
    | [] => .next s
    | h :: body =>
      let header := h.1.toNat
      -- a packet whose header can be read has been taken, whatever becomes of it (R19)
      let s := if h.2 then s else ackPacket [mkFlit h.1] s
      let id := bitsAt header 30 15
      let discard := raise .packetFault 3 (bitsAt header 45 31) (bump (ob 0x3015 1) s)
      match if h.2 then none else packetHome s island id with
      | none => .next discard
      | some home =>
        match tget? (homeJoins s home) id with
        | none => .next discard
        | some j =>
          let lanes := parseLanes (bitsAt header 14 3) body
          let named := packetSource (selfId s) header j.sources
          let known := j.sources.any fun x => named x.id && !x.final
          if !known || lanes.any fun e => decide (j.lanes.length ≤ e.1) then .next discard
          else
            let broken := (packet.drop 1).any flitBroken
            let bad := (lanes.filter fun e => broken || e.2.2).map Prod.fst
            let s := touchLanes home id (fun k => lanes.any fun e => e.1 = k) s
            let final := bitAt header 0
            let s := modJoin home id (fun j =>
              { j with lanes := lanes.foldl (fun ls e => ls.set e.1 (ls.getD e.1 0 + e.2.1)) j.lanes, bad := j.bad ++ bad
                       sources := if final then markSource named j.sources else j.sources }) s
            let s := if final && bitAt header 42 && bitsAt header 45 43 = selfId s then recomputeAccepted (bitsAt header 34 31) island id s else s
            .next (endLaunch j.launch (settleLaunch j.launch s))

end Sys2Proof.Machine
end

