-- ==== Sys2Proof/Machine/Shank.lean ====
section
/-! DEFINITION. Shank (R132 to R156): tiles, recomputes and their streaming reads, covers, spilled layers, adapters and the
steps that the Last places on a cluster. Choices of the model: notes/assumptions/17.md (DESIGN CHOICE),
notes/assumptions/26.md (DESIGN CHOICE). -/

namespace Sys2Proof.Machine

/-! ## Weights as Shank reads them (R145, R147, R148, R330) -/

/-- Where a slice of a launch lies. -/
def slicePlace (s : State) (x : Launch) (slice : Nat) : Option Placed :=
  (placesOf s x.slot x.gen).find? fun p => p.slice = slice

/-- A row of a spilled slice from its third of a storage-mode bank (R148, R239): 128 bytes in a line with a CRC. -/
def spilledRow (b : Bank) (third row : Nat) : Option Nat :=
  let a := third * 131072 + 128 * row
  if lineOk b (a / 512) then some (leNat (sub (lineBytes b (a / 512)) (a % 512) 128)) else none

/-- The lines that hold rows of a spilled slice. -/
def spilledLines (third : Nat) (rows : List Nat) : List Nat := (rows.map fun r => (third * 131072 + 128 * r) / 512).eraseDups

/-- A row of a covered slice: from the cover copy, or from the bank by streaming read where the copy has not got it
(R147, R330). -/
def coveredRow (s : State) (bank row : Nat) : Option Nat :=
  match tget? s.model.covers bank with
  | some c =>
    if c.slabs = [] || c.missing.contains row then coverRow s bank row
    else
      let a := slabAddr ((c.slabs.getD (row / 128) 0).toNat) + 128 * (row % 128)
      if hPoison s.hbr a 128 then coverRow s bank row else some (leNat (harbRead s a 128))
  | none => coverRow s bank row

/-- The logical bits of a slice's row, or none where it stays poisoned. -/
def sliceRow (s : State) (p : Placed) (row : Nat) : Option Nat :=
  if p.spill then spilledRow (bankOf s p.bank) p.third row else coveredRow s p.bank row

/-- Add one row of column bits into exact lanes (R141). -/
def addRow (x : Int) (cols frac outs : Nat) (scale : Nat → Int) (bits : Nat) (lanes : List (BitVec 320)) :
    List (BitVec 320) :=
  addWeights x frac ((List.range outs).map fun k => (rowWeight cols k bits, scale k)) lanes

/-- The contribution of a whole slice (R141, R147, R148): lanes, and the rows that stay poisoned. -/
def sliceDot (s : State) (x : Launch) (r : SliceRec) (p : Placed) (xs : List Int) : List (BitVec 320) × List Nat :=
  let fmt := r.format.toNat
  (List.range r.rows).foldl (fun (acc : List (BitVec 320) × List Nat) i =>
    let v := xs.getD i 0
    if v = 0 then acc
    else match sliceRow s p i with
      | some bits =>
        let scale := fun k => if sliceScaled r then sliceScale s x.slot x.gen r.slice r.outputs (i / 32) k else 0
        (addRow v (fmtCols fmt) (fmtFrac fmt) r.outputs scale bits acc.1, acc.2)
      | none => (acc.1, acc.2 ++ [i])) (List.replicate r.outputs 0, [])

/-! ## Handing lanes to a join (R95, R99, R132) -/

/-- A long-sum packet of a cluster with FINAL (R99, R144). -/
def clusterPacket (s : State) (c island id first : Nat) (lanes : List (BitVec 320)) (poison : Bool) : List Flit :=
  longSumPacket (selfId s) island (selfId s) true c id first lanes (fun _ => poison) true

/-- A source of a cluster that stands for a slice or an adapter. -/
def shankSource (c replaces : Nat) (id : SourceId) : Bool := id == .shank c replaces

/-- Add a cluster's whole contribution to the join of a join of the Last (R95, R102): by packet, or directly where the join
lies on the cluster's own block. -/
def shankAdd (c l plan vec replaces first : Nat) (lanes : List (BitVec 320)) (poison : Bool) (s : State) : State :=
  match joinAt s l plan vec with
  | none => s
  | some (home, id, j) =>
    if home = 2048 + c then
      let sum := ((List.range lanes.length).zip lanes).foldl (fun (ls : List (BitVec 320)) e =>
        ls.set (first + e.1) (ls.getD (first + e.1) 0 + e.2)) j.lanes
      let bad := if poison then (List.range lanes.length).map fun k => first + k else []
      let s := modJoin home id (fun j =>
        { j with lanes := sum, bad := j.bad ++ bad, sources := markSource (shankSource c replaces) j.sources }) s
      endLaunch l (settleLaunch l s)
    else sendHeld (homePort home) (clusterPacket s c j.island id first lanes poison) poison s

/-- The join of a Last that a slice feeds, and the slice's first lane in it. -/
def slicePlan (s : State) (x : Launch) (slice : Nat) : Option (SliceRec × JoinPlan) :=
  match launchPlan s x with
  | none => none
  | some p =>
    match p.slices.find? fun r => r.slice = slice with
    | none => none
    | some r => (p.joins.find? fun j => j.join = r.join).map fun j => (r, j)

/-! ## Tiles (R135, R136) -/

/-- A tile before another of the same priority (R136): recomputes before covers, then the earlier deadline, then age. -/
def tileBefore (a b : Tile) : Bool :=
  match a.work, b.work with
  | .recompute m, .recompute n => decide (m < n)
  | .recompute _, _ => true
  | _, .recompute _ => false
  | _, _ =>
    match a.deadline, b.deadline with
    | some x, some y => decide (x.toNat < y.toNat)
    | some _, none => true
    | _, _ => false

/-- The next tile of a cluster (R136): of the highest priority present, the first in order; the oldest on a tie. -/
def nextTile (l : List Tile) : Option Tile :=
  l.foldl (fun best t => match best with
    | none => some t
    | some b => if t.prio < b.prio || (t.prio = b.prio && tileBefore t b) then some t else best) none

/-- A cluster may work (R134, R469, R484): ON, not retired, its power admitted, no dip. -/
def clusterRuns (s : State) (c : Nat) : Bool :=
  domIsOn s (domCluster c) && !(clusterOf s c).retired && !dipHolds s &&
    (s.power.shankCharged.contains c || s.power.standing == some c)

/-- The rows that a recompute needs (R144): those with a remaining input integer other than 0. -/
def remainingInts (s : State) (r : Recompute) : List Int :=
  let slab := harbRead s (slabAddr r.handle.toNat) 16384
  let ps := (List.range r.planes).map fun b => (planeAt slab r.offset b).toNat
  (List.range r.rows).map fun i =>
    ((List.range r.planes).map fun b =>
      let taken := decide (r.plane < b) || (b = r.plane && decide (r.row ≤ i))
      let bit : Int := if taken && bitAt (ps.getD b 0) i then 1 else 0
      if b + 1 = r.planes then -(2 ^ b * bit) else 2 ^ b * bit).sum

/-- The run of a recompute's input planes in their slab (R143). -/
def recomputeRun (r : Recompute) : Nat × Nat := (slabAddr r.handle.toNat + r.offset, 128 * r.planes)

/-- A recompute's tile starts its streaming read (R136, R145): it reads the planes that the array used, whose segment may have
to wake first (R166); poison among them poisons the outputs (R181). -/
def startRecompute (c n : Nat) (s : State) : State :=
  match tget? (clusterOf s c).recomputes n with
  | none => s
  | some r =>
    let (a, len) := recomputeRun r
    if r.started then s
    else if runWaits s a len then runWake a len s
    else
      let xs := remainingInts s r
      let rows := (List.range r.rows).filter fun i => xs.getD i 0 ≠ 0
      let r := { r with started := true, rowsLeft := rows, poisoned := r.poisoned || hPoison s.hbr a len }
      -- R305: the streaming read stops a top-up run on the bank after its row
      preemptRun r.bank (touchRun (BitVec.ofNat 12 (2048 + c)) a len
        (modCluster c (fun y => { y with recomputes := tset y.recomputes n r }) s))

/-- A recompute's lanes go to its join once every row has been added (R144). Where the join has gone, it ends unseen. -/
def sendRecompute (c n : Nat) (s : State) : State :=
  match tget? (clusterOf s c).recomputes n with
  | none => s
  | some r =>
    if !r.started || r.rowsLeft ≠ [] then s
    else if (tget? (islandOf s r.island).joins r.join).isSome then
      sendHeld (homePort r.island) (clusterPacket s c r.island r.join r.firstOutput r.lanes r.poisoned) r.poisoned s
    else endRecompute c n r s

/-- A cover or a spilled slice for one vector (R147, R148). -/
def coverTile (c l slice vec : Nat) (xs : List Int) (poison : Bool) (s : State) : State :=
  match tget? s.model.launches l with
  | none => s
  | some x =>
    match slicePlan s x slice, slicePlace s x slice with
    | some (r, j), some p =>
      let (lanes, lost) := sliceDot s x r p xs
      let s := if lost = [] then s
        else if p.spill then nvPoisoned p.bank (spilledLines p.third lost).length (flagSlice x slice s)
        else nvPoisoned p.bank lost.length (flagSlice x slice (bumpBy (ob 0x5013 1) lost.length s))
      shankAdd c l j.join vec slice (r.firstOutput - j.firstOutput) lanes (poison || lost ≠ []) s
    | _, _ => s

/-! ## SHARED space: cover copies and the adapter cache (R147, R150, R160) -/

/-- The free slabs of the SHARED segments (R147, R160): those that no cover copy and no cached adapter holds, of segments whose use is
not about to change (R161). -/
def sharedSlabs (s : State) : List (BitVec 16) :=
  let used := s.model.covers.flatMap (fun e => e.2.slabs) ++ s.model.cache.flatMap Prod.snd
  ((List.range 16).filter fun i => (segOf s i).use == .shared && (segOf s i).next.isNone && domIsOn s (domSeg i)).flatMap fun i =>
    ((List.range 4096).map fun k => BitVec.ofNat 16 (4096 * i + k)).filter fun h => !used.contains h

/-- Slabs that the adapter cache may hold (R150, R156): `shk.adapter_cache_mib`, at 64 slabs per MiB. -/
def cacheLimit (s : State) : Nat := 64 * dictNum s (ob 0x5030 1)

/-- Slabs that the adapter cache holds. -/
def cacheHeld (s : State) : Nat := (s.model.cache.map fun e => e.2.length).sum

/-- Drop an adapter from the cache: its slabs are free. -/
def cacheDrop (a : Nat) (s : State) : State := { s with model := { s.model with cache := s.model.cache.filter fun e => e.1 ≠ a } }

/-- Make room in the cache for `n` slabs by dropping the adapters used longest ago (R150). -/
def cacheRoom (n : Nat) : Nat → State → State
  | 0, s => s
  | fuel + 1, s =>
    if cacheHeld s + n ≤ cacheLimit s && n ≤ (sharedSlabs s).length then s
    else match s.model.cache with
      | [] => s
      | e :: _ => cacheRoom n fuel (cacheDrop e.1 s)

/-- Keep an adapter's payload in the cache where its limit and the SHARED space allow it (R150, R160). -/
def cacheKeep (c a : Nat) (b : Bytes) (s : State) : State :=
  let n := ceilDiv b.length 16384
  if n = 0 || cacheLimit s < n || ((sharedSlabs s).length + cacheHeld s) < n then s
  else
    let s := cacheRoom n s.model.cache.length s
    let hs := (sharedSlabs s).take n
    if hs.length < n || cacheLimit s < cacheHeld s + n then s
    else
      let s := ((List.range n).zip hs).foldl (fun s e =>
        storeRun (BitVec.ofNat 12 (2048 + c)) (slabAddr e.2.toNat) (sub b (16384 * e.1) (min 16384 (b.length - 16384 * e.1))) false s) s
      { s with model := { s.model with cache := s.model.cache ++ [(a, hs)] } }

/-- The payload of an adapter (R259, R260), and whether each of its lines passes. -/
def adapterBytes (s : State) (a : Adapter) : Bytes × Bool :=
  let ok := a.lines.all fun e => lineOk (bankOf s e.1) e.2
  ((a.lines.flatMap fun e => lineBytes (bankOf s e.1) e.2).take a.bytes, ok)

/-- The failing lines of an adapter are poisoned (R331). -/
def adapterLost (a : Adapter) (s : State) : State :=
  (a.lines.filter fun e => !lineOk (bankOf s e.1) e.2).foldl (fun s e => nvPoisoned e.1 1 s) s

/-- Move lanes at exponent `from_` to lanes at exponent `to_`. Bits below the lane are a free value of the lane and the
difference (notes/assumptions/3.md), which the manual does not state: the same operands give the same bits (R13). -/
def shiftLane (from_ to_ : Int) (l : BitVec 320) : BitVec 320 :=
  let k := from_ - to_
  if 0 ≤ k then BitVec.ofInt 320 (l.toInt * 2 ^ k.toNat)
  else if l.toInt % 2 ^ (-k).toNat = 0 then BitVec.ofInt 320 (l.toInt / 2 ^ (-k).toNat)
  else Config.laneBelow k l

/-- The integers of the intermediate vector h (R149): rounded once, then aligned by R120 or R121. -/
def adapterH (x : Launch) (a : Adapter) (ex : Int) (h : List (BitVec 320)) : Aligned :=
  let fmt := a.fmtH.toNat
  let pol := fmtPolicy x fmt
  let o := roundJoin fmt a.mH a.eyH pol.1 pol.2 false false (h.map (laneValue ex)) (h.map fun _ => false)
  if fmtKind fmt = 0 then
    { ex := 0, xs := o.codes.map (signedAt (fmtWidth fmt)), special := false, specials := 0, inexact := 0 }
  else alignVec a.planesH (((List.range o.codes.length).zip o.codes).map fun p => inputValue fmt p.2 (o.scales.getD (p.1 / 32) 127))

/-- Read an adapter at a cluster (R150): from the cache, where it is then the one used last, or from its banks, after which the
cache keeps it if it may. -/
def adapterFetch (c k : Nat) (a : Adapter) (s : State) : (Bytes × Bool) × State :=
  let port := BitVec.ofNat 12 (2048 + c)
  match s.model.cache.find? fun e => e.1 = k with
  | some (_, hs) =>
    let bad := hs.any fun h => hPoison s.hbr (slabAddr h.toNat) 16384
    let b := (hs.flatMap fun h => harbRead s (slabAddr h.toNat) 16384).take a.bytes
    let s := hs.foldl (fun s h => touchRun port (slabAddr h.toNat) 16384 s) s
    if bad then (adapterBytes s a, cacheDrop k s)
    else ((b, true), { s with model := { s.model with cache := s.model.cache.filter (fun e => e.1 ≠ k) ++ [(k, hs)] } })
  | none =>
    let (b, ok) := adapterBytes s a
    ((b, ok), if ok then cacheKeep c k b s else s)

/-- An adapter for one vector (R149, R150): B × h goes unrounded to each join of the layer. DESIGN CHOICE
(notes/assumptions/47.md): an element of h that rounds to infinity or NaN is a special input of ALIGN, so it adds nothing to
B × h, and its mark does not reach the join; R149 does not say what B × h then is. -/
def adapterTile (c l ctx vec : Nat) (xs : List Int) (poison : Bool) (s : State) : State :=
  match tget? s.model.launches l, ctxAdapterSlot s ctx, ctxAdapter s ctx with
  | some x, some k, some a =>
    match launchPlan s x with
    | none => s
    | some p =>
      let ((b, ok), s) := adapterFetch c k a s
      let s := if ok then s
        else match tget? s.model.images a.image with
          | some img =>
            let shard := (img.shards.findIdx? fun k => k.firstPiece ≤ a.piece && a.piece < k.firstPiece + k.pieces).getD 0
            let img := { img with refetch := tmod img.refetch shard [] fun k => insertUp a.piece k }
            raise .refetch 12 (a.image * 65536 + shard) { s with model := { s.model with images := tset s.model.images a.image img } }
          | none => s
      let s := if ok then s else adapterLost a s
      let matA := sub b 32 (pieceLen a.fmtA.toNat (fmtScaled a.fmtA.toNat) a.inputs a.rank)
      let matB := b.drop (32 + pieceLen a.fmtA.toNat (fmtScaled a.fmtA.toNat) a.inputs a.rank)
      let bad := poison || !ok
      (layerJoins p x.layer).foldl (fun s (j : JoinPlan) =>
        match joinAt s l j.join vec with
        | none => s
        | some (_, _, join) =>
          let h := adapterH x a join.ex (pieceDot a.fmtA.toNat a.inputs a.rank matA xs)
          let out := pieceDot a.fmtB.toNat a.rank a.outputs matB h.xs
          let lanes := ((out.drop j.firstOutput).take j.outputs).map (shiftLane h.ex join.ex)
          shankAdd c l j.join vec (2 ^ 32 + ctx) 0 lanes bad s) s
  | _, _, _ => s

/-! ## Steps (R131, R135 to R140, R148, R151, R154, R223) -/

/-- Operations of one microsecond at a cluster's typical rate for a step (R133, R136). DESIGN CHOICE (notes/assumptions/17.md): where
R133 gives no rate, attention runs at the rate of BF16, a combination at that of FP32, everything else at that of curve
evaluations. -/
def stepRate (k : StepKind) (strict : Bool) : Nat :=
  let ops := match k with
    | .dot fx fw _ =>
      let any_ := fun (l : List Nat) => l.contains fx.toNat || l.contains fw.toNat
      if any_ [13] then 1625000 else if any_ [4] then 12800000 else if any_ [11, 12] then 25625000 else 51250000
    | .exact _ _ _ _ => 6400000
    | .attention _ => 25625000
    | .combine _ => 1625000
    | .lookup _ => 500000
    | .other => 500000
  match k with
  | .dot _ _ _ => if strict then ops * 92 / 100 else ops
  | .combine _ => if strict then ops * 92 / 100 else ops
  | _ => ops

/-- Operations of one result of a step (R133): two for each reduction index. DESIGN CHOICE (notes/assumptions/17.md): attention takes
two for each of the `kv` bytes of KV state that it reads. -/
def resultOps (k : StepKind) (kv : Nat) : Nat :=
  match k with
  | .dot _ _ len => 2 * max 1 len
  | .exact _ _ _ len => 2 * max 1 len
  | .attention _ => 2 * max 1 kv
  | .combine n => max 1 n
  | .lookup _ => 1
  | .other => 1

/-- Tiles of at most 1 µs that one result takes (R133, R136). -/
def resultTiles (y : LayerPlan) (strict : Bool) (kv : Nat) : Nat := max 1 (ceilDiv (resultOps y.kind kv) (stepRate y.kind strict))

/-- Results of a step that one tile of at most 1 µs computes (R133, R136). DEDUCED (notes/assumptions/17.md): from the rates of
R133. -/
def tileOutputs (y : LayerPlan) (strict : Bool) (kv : Nat) : Nat :=
  let n := max 1 (stepRate y.kind strict / resultOps y.kind kv)
  if y.curve = 0 then n else min n 500000

/-- Tiles of at most 1 µs that an adapter takes for one vector (R133, R149): two operations for each weight, in exact-dot mode. -/
def adapterTiles (a : Adapter) (joins : Nat) : Nat := max 1 (ceilDiv (2 * a.rank * (a.inputs * max 1 joins + a.outputs)) 6400000)

/-- The token of a vector's context that the vector carries (R154, R222): POSITION, and the vector's place in its request. -/
def vecToken (s : State) (x : Launch) (v : Nat) : Nat :=
  match vecReq x.reqs v with
  | none => 0
  | some a =>
    let start := ((reqRange x.reqs a 0).map Prod.fst).getD 0
    let before := ((x.offsets.find? fun e => e.1 = a).map Prod.snd).getD 0
    let pos := ((tget? s.que.reqs a).map fun r => fld (ctxRecord s r.ctx) 8 8).getD 0
    pos + before + (v - start)

/-- Random draws of one token before a layer (R223): the draws of the layers that the schedule runs first. -/
def drawsBefore (p : LastPlan) (layer : Nat) : Nat := ((p.layers.takeWhile fun y => y.layer ≠ layer).map fun y => y.draws).sum

/-- Random draws that one token makes in all (R222, R223). -/
def drawsOf (p : LastPlan) : Nat := (p.layers.map fun y => y.draws).sum

/-- The random numbers of a step for one vector (R223): from SEED and DRAWS of its context only, in the order of its steps. -/
def stepDraws (s : State) (x : Launch) (y : LayerPlan) (v : Nat) : List Nat :=
  match vecCtx s x v, launchPlan s x with
  | some ctx, some p =>
    let r := ctxRecord s ctx
    let token := vecToken s x v - fld r 8 8
    let base := fld r 0x28 8 + token * drawsOf p + drawsBefore p y.layer
    (List.range y.draws).map fun i => Config.randomDraw (fld r 0x20 8) (base + i)
  | _, _ => []

/-- Bytes of one token in a KV slab of a layer (R154). -/
def kvBytes (y : LayerPlan) : Nat := 16384 / max 1 y.kvTokens

/-- The KV slabs that a context holds for a layer, with the first token of each (R154, R155). -/
def kvSlabs (s : State) (ctx layer : Nat) : List (BitVec 16 × Nat) :=
  ((tget s.que.kv ctx []).filter fun e => e.2.1 = layer).map fun e => (e.1, e.2.2)

/-- Store a token's key and value into its context's slab (R154). -/
def kvStore (c : Nat) (y : LayerPlan) (ctx token : Nat) (b : Bytes) (poison : Bool) (s : State) : State :=
  match (kvSlabs s ctx y.layer).find? fun e => e.2 ≤ token && token < e.2 + y.kvTokens with
  | none => s
  | some (h, first) =>
    storeRun (BitVec.ofNat 12 (2048 + c)) (slabAddr h.toNat + (token - first) * kvBytes y) (b.take (kvBytes y)) poison s

/-- The runs of the KV state of a context that attention over tokens up to `token` reads (R154, R155): its own slabs only. -/
def kvRuns (s : State) (y : LayerPlan) (ctx token : Nat) : List (Nat × Nat) :=
  (kvSlabs s ctx y.layer).filterMap fun e =>
    if e.2 ≤ token then some (slabAddr e.1.toNat, min y.kvTokens (token + 1 - e.2) * kvBytes y) else none

/-- Store a vector's key and value once, before any attention of a later token reads them (R154). -/
def kvPut (c l : Nat) (x : Launch) (y : LayerPlan) (v : Nat) (input : Bytes) (poison : Bool) (s : State) : State :=
  match y.kind, vecCtx s x v with
  | .attention q, some ctx =>
    if x.stored.contains v then s
    else modLaunch l (fun x => { x with stored := x.stored ++ [v] }) (kvStore c y ctx (vecToken s x v) (input.drop q) poison s)
  | _, _ => s

/-- Every vector of request `a` in a launch has stored its key and value, of those before vector `v`. -/
def kvStoredBefore (x : Launch) (a v : Nat) : Bool := (List.range (min v x.vectors)).all fun k => vecReq x.reqs k ≠ some a || x.stored.contains k

/-- The keys and values of every earlier token have been stored (R14, R16, R154, R189): those of the earlier vectors of the request in
this launch, and of the launches that took its vectors before. Attention reads them whatever the order in which tiles run. -/
def kvReady (s : State) (l : Nat) (x : Launch) (y : LayerPlan) (v : Nat) : Bool :=
  match y.kind, vecReq x.reqs v with
  | .attention _, some a =>
    let off := fun (z : Launch) => ((z.offsets.find? fun e => e.1 = a).map Prod.snd).getD 0
    kvStoredBefore x a v && s.model.launches.all fun e =>
      e.1 = l || e.2.layer ≠ x.layer || !(e.2.reqs.any fun r => r.1 = a) || decide (off x ≤ off e.2) || kvStoredBefore e.2 a e.2.vectors
  | _, _ => true

/-- The KV runs that a vector's attention reads. -/
def attentionRuns (s : State) (x : Launch) (y : LayerPlan) (v : Nat) : List (Nat × Nat) :=
  match y.kind, vecCtx s x v with
  | .attention _, some ctx => kvRuns s y ctx (vecToken s x v)
  | _, _ => []

/-- Read the KV state of a vector's context: what attention adds to a step's operands, and whether some of it is poisoned. -/
def kvRead (c : Nat) (x : Launch) (y : LayerPlan) (v : Nat) (s : State) : (Bytes × Bool) × State :=
  let ((b, bad), s) := fetchRuns (BitVec.ofNat 12 (2048 + c)) (attentionRuns s x y v) s
  ((b, bad.any id), s)

/-- The input tensors of one vector of a step, each with its stream (R131, R141). -/
def stepParts (p : LastPlan) (layer : Nat) (input : Bytes) : List (StreamPlan × Bytes) :=
  (((layerLaces p layer).filterMap fun y => p.streams.find? fun z => !z.output && z.lace = y.lace).foldl
    (fun (acc : List (StreamPlan × Bytes) × Bytes) z => (acc.1 ++ [(z, acc.2.take (feedBytes z))], acc.2.drop (feedBytes z))) ([], input)).1

/-- Input integers of an exact-dot step (R141): those that a Ferry formed (R80), with its e_x, or formed here by the same rules
(R113, R114, R120, R121) from the tensors' elements and block scales. -/
def exactInput (fx planes : Nat) (parts : List (StreamPlan × Bytes)) : Aligned :=
  let formed := fun (z : StreamPlan) => z.conv = 1 || z.conv = 2
  match parts.find? fun e => formed e.1 with
  | some (z, b) =>
    let ints := fun (e : StreamPlan × Bytes) => (List.range e.1.elems).map fun i => signedAt 32 (fld e.2 (4 * i) 4)
    { ex := signedAt 16 (fld b (4 * z.elems) 2), xs := (parts.filter fun e => formed e.1).flatMap ints, special := false, specials := 0, inexact := 0 }
  | none =>
    let elems := fun (e : StreamPlan × Bytes) =>
      let (codes, scales) := tensorCodes fx e.1.elems e.1.interleaved e.2
      ((List.range codes.length).zip codes).map fun p => (p.2, scales.getD (p.1 / 32) 127)
    let all := parts.flatMap elems
    if fmtKind fx = 0 then
      { ex := 0, xs := all.map fun e => signedAt (fmtWidth fx) e.1, special := false, specials := 0, inexact := 0 }
    else alignVec planes (all.map fun e => inputValue fx e.1 e.2)

/-- One lane of an exact-dot step (R141): each operand pair is the place of an input integer and a weight's element code. -/
def exactLane (fw : Nat) (xs : List Int) (ops scales : List (Nat × Nat)) : BitVec 320 :=
  ((List.range ops.length).zip ops).foldl (fun l e =>
    let sc : Int := if fmtScaled fw then (((scales.getD (e.1 / 32) (127, 127)).2 : Nat) : Int) - 127 else 0
    laneAdd l (weightInt fw e.2.2 * xs.getD e.2.1 0) (lanePos sc (fmtFrac fw))) 0

/-- One result of a step before its rounding (R137 to R141), and its overflows to infinity (R138). `a` are the input integers of an
exact-dot step, `order` is the order of arrival that relaxed mode sees (R140). -/
def stepOne (strict : Bool) (y : LayerPlan) (a : Aligned) (input extra : List Nat) (order k : Nat) : StepNum × Nat :=
  let key := y.layer * 2 ^ 32 + k
  match y.kind with
  | .dot fx fw len =>
    let ops := (Config.stepOperands key input).take len
    if intDot fx.toNat fw.toNat then
      match intSum fx.toNat fw.toNat ops (Config.stepScales key input) with
      | some v => (.exact v.1 v.2, 0)
      | none => (.f32 f32Nan, 0)
    else
      let cs := chunkSums fx.toNat fw.toNat ops (Config.stepScales key input)
      let r := combineSums strict order (cs.map Prod.fst)
      (.f32 r.1, r.2 + (cs.filter Prod.snd).length)
  | .exact _ fw _ len =>
    let v := laneValue a.ex (exactLane fw.toNat a.xs ((Config.stepOperands key input).take len) (Config.stepScales key input))
    (.exact v.1 v.2, 0)
  | .combine n =>
    let b := input.map fun n => BitVec.ofNat 8 n
    let r := combineSums strict order ((List.range n).map fun m => BitVec.ofNat 32 (fld b (4 * (m * y.outputs + k)) 4))
    (.f32 r.1, r.2)
  | _ => (.f32 (Config.stepResult key order (input ++ extra)), 0)

/-- An FP32 argument of a curve. -/
def stepF32 (v : StepNum) : BitVec 32 :=
  match v with
  | .f32 c => c
  | .exact n e => f32Round (n, e)

/-- End a result with the layer's curve (R151), as it stood at the launch's admission (R33). -/
def stepCurve (x : Launch) (y : LayerPlan) (v : StepNum) : StepNum :=
  if y.curve = 0 then v else .f32 (curveEval y.curve (tget x.values (ob 0xB030 y.curve) []) (stepF32 v))

/-- The row of an embedding table that an index names (R148): the weights of each of the table's slices that holds it, copied
without rounding, and whether every line of them passes. -/
def lookupRow (s : State) (x : Launch) (p : LastPlan) (slices : List Nat) (idx : Nat) : List (StepNum × Bool) :=
  (lookupSlices p slices idx).flatMap fun r =>
    let row := idx % 1024
    let bits := (slicePlace s x r.slice).bind fun q => sliceRow s q row
    let fmt := r.format.toNat
    (List.range r.outputs).map fun k =>
      let sc := if sliceScaled r then sliceScale s x.slot x.gen r.slice r.outputs (row / 32) k else 0
      match bits with
      | some b => (.exact (rowWeight (fmtCols fmt) k b) (sc - fmtFrac fmt), false)
      | none => (.exact 0 0, true)

/-- Rows of slices that a lookup found broken are flagged for refetch (R148, R242). -/
def lookupLost (x : Launch) (p : LastPlan) (slices : List Nat) (idx : Nat) (s : State) : State :=
  (lookupSlices p slices idx).foldl (fun s r =>
    match slicePlace s x r.slice with
    | some q => if (sliceRow s q (idx % 1024)).isNone then nvPoisoned q.bank 1 (flagSlice x r.slice s) else s
    | none => s) s

/-- The next results of a step's vector, one for each output, and the state after them (R136). -/
def stepMore (c : Nat) (x : Launch) (y : LayerPlan) (a : Aligned) (input extra : List Nat) : Nat → Nat → State → List StepNum × State
  | 0, _, s => ([], s)
  | n + 1, k, s =>
    let (order, s) := if x.strict then (0, s) else takeFree s
    let r := stepOne x.strict y a input extra order k
    let s := bumpBy (ob 0x5042 1) r.2 s
    let s := match y.kind, r.1 with
      | .dot _ _ _, .f32 a => if x.strict then s else modCluster c (fun z => { z with acc := a }) s
      | .combine _, .f32 a => if x.strict then s else modCluster c (fun z => { z with acc := a }) s
      | _, _ => s
    let rest := stepMore c x y a input extra n (k + 1) s
    (stepCurve x y r.1 :: rest.1, rest.2)

/-- A step copies rows without rounding (R148): a lookup that ends with no curve. -/
def stepCopies (y : LayerPlan) : Bool :=
  match y.kind with
  | .lookup _ => y.curve = 0
  | _ => false

/-- The counter of a step's overflows to infinity (R127, R131, R138): an exact-dot step's are counted as a Welt's. -/
def infCounter (y : LayerPlan) : Nat :=
  match y.kind with
  | .exact _ _ _ _ => ob 0x3019 1
  | _ => ob 0x5042 1

/-- Round a step's results and hand them on (R130, R131, R138, R181): none where they cannot be handed on yet. A lookup's rows take
no requantisation (R148). DESIGN CHOICE (notes/assumptions/26.md): a row whose values the output format does not hold is rounded into
it as any other result; R148 does not say what its copy then is. -/
def stepEnd (c l vec : Nat) (x : Launch) (y : LayerPlan) (rs : List StepNum) (bad : List Bool) (special poison : Bool) (s : State) :
    Option State :=
  let pol := fmtPolicy x y.outFmt
  let o := roundStep y.outFmt (if stepCopies y then 1 else y.m) (if stepCopies y then 0 else y.ey) pol.1 pol.2 special poison rs
  let o := { o with poison := (o.poison.zip (bad ++ List.replicate o.poison.length false)).map fun e => e.1 || e.2 }
  let nans := (rs.filter fun r => match r with | .f32 a => f32IsNan a | .exact _ _ => false).length
  let s := bumpBy (ob 0x5041 1) nans s
  let s := bumpBy (infCounter y) o.infs (bumpBy (ob 0x3018 1) o.sats s)
  deliver (BitVec.ofNat 12 (2048 + c)) l y.outLace 0 vec y.outFmt o special s

/-- Hand on a vector's results, all computed (R131, R136): the vectors of a launch come out in order. The tile that stays where they
cannot be handed on yet, and the state. -/
def stepOut (c l vec : Nat) (x : Launch) (y : LayerPlan) (t : Tile) (rs : List StepNum) (bad : List Bool) (special poison : Bool)
    (lose : State → State) (s : State) : Option Tile × State :=
  let ready := (List.range vec).all fun v => x.delivered.contains (0, v) || !liveVec s x v
  if !ready || deliverWaits s l y.outLace then (some t, deliverWake l y.outLace s)
  else match stepEnd c l vec x y rs bad special poison (lose s) with
    | some s => (none, s)
    | none => (some t, lose s)

/-- What a tile of a step does: the tile that goes on, if one does, and the state; nothing where the launch has gone. -/
def stepTile (c : Nat) (t : Tile) (l vec : Nat) (input : Bytes) (special poison : Bool) (done : List StepNum) (s : State) :
    Option Tile × State :=
  match (tget? s.model.launches l).bind fun x => (launchPlan s x).bind fun p => (layerOf p x.layer).map fun y => (x, p, y) with
  | none => (none, s)
  | some (x, p, y) =>
    match y.kind with
    | .lookup slices =>
      let idx := leNat input
      let rs := lookupRow s x p slices idx
      stepOut c l vec x y t (rs.map fun r => stepCurve x y r.1) (rs.map Prod.snd) special poison (lookupLost x p slices idx) s
    | _ =>
      let runs := match y.kind, vecCtx s x vec with
        | .attention _, some ctx => (kvSlabs s ctx y.layer).map fun e => (slabAddr e.1.toNat, 16384)
        | _, _ => []
      if runsWait s runs then (some t, runsWake runs s)
      else
        let s := kvPut c l x y vec input poison s
        let x := (tget? s.model.launches l).getD x
        let kv := ((attentionRuns s x y vec).map Prod.snd).sum
        if !kvReady s l x y vec then (some t, s)
        else if done.length < y.outputs && t.part + 1 < resultTiles y x.strict kv then (some { t with part := t.part + 1 }, s)
        else
          let todo := min (tileOutputs y x.strict kv) (y.outputs - done.length)
          let ((state, bad), s) := if todo = 0 then (([], false), s) else kvRead c x y vec s
          let parts := stepParts p x.layer input
          let a := match y.kind with
            | .exact fx _ planes _ => exactInput fx.toNat planes parts
            | _ => { ex := 0, xs := [], special := false, specials := 0, inexact := 0 }
          let (new, s) := stepMore c x y a (input.map BitVec.toNat) (stepDraws s x y vec ++ state.map BitVec.toNat) todo done.length s
          let done := done ++ new
          let seedBad := ((vecCtx s x vec).map fun ctx => stepDraws s x y vec ≠ [] && hPoison s.hbr (256 * ctx) 256).getD false
          let poison := poison || bad || seedBad
          let stay := { t with work := TileWork.step l vec input special poison done, part := 0 }
          if done.length < y.outputs then (some stay, s)
          else stepOut c l vec x y stay done [] (special || a.special) poison id s

/-! ## The operand buffer (R132, R319, R321, R336) -/

/-- Bytes of the operand buffer. -/
def bufferBytes : Nat := 2 ^ 21

/-- The operands of a tile as they lie in the buffer: a step's input bytes, or input integers of 4 bytes each. -/
def tileBytes (t : Tile) : Bytes :=
  let ints := fun (xs : List Int) => xs.flatMap fun v => leBytes 4 (v % 2 ^ 32).toNat
  (match t.work with
    | .recompute _ => []
    | .cover _ _ _ xs _ _ => ints xs
    | .step _ _ input _ _ _ => input
    | .adapter _ _ _ xs _ => ints xs).take bufferBytes

/-- Load a tile's operands into its cluster's buffer. -/
def loadBuffer (c : Nat) (t : Tile) (s : State) : State :=
  let b := tileBytes t
  let words := ((List.range (ceilDiv b.length 8)).zip (chunksOf 8 b.length b)).map fun p => (p.1, BitVec.ofNat 64 (leNat p.2))
  modCluster c (fun y => { y with buffer := words.filter (fun e => e.2 ≠ 0), bufferDev := [] }) s

/-- A bit of a buffer word's codeword is inverted. -/
def upsetBuffer (u : Nat × Nat) (y : Cluster) : Cluster :=
  let (w, bit) := u
  if 2 ^ 18 ≤ w || 72 ≤ bit then y
  else
    let syn := tget y.bufferDev w 0
    if bit < 64 then
      { y with buffer := tset y.buffer w ((tget y.buffer w 0) ^^^ BitVec.ofNat 64 (2 ^ bit))
               bufferDev := devSet y.bufferDev w (syn ^^^ BitVec.ofNat 8 (hCols.getD bit 0)) }
    else { y with bufferDev := devSet y.bufferDev w (syn ^^^ BitVec.ofNat 8 (2 ^ (bit - 64))) }

/-- Read the buffer (R321, R323): corrections are counted and written back; true where a word lies beyond correction. -/
def readBuffer (c : Nat) (s : State) : Bool × State :=
  (clusterOf s c).bufferDev.foldl (fun (acc : Bool × State) e =>
    let (bad, s) := acc
    match eccDecode e.2 with
    | .checkBit k => (bad, modCluster c (fun y => { y with bufferDev := tdel y.bufferDev e.1 }) (correctedError 2 c e.1 (64 + k) s))
    | .dataBit i =>
      (bad, modCluster c (fun y => { y with
        buffer := tset y.buffer e.1 ((tget y.buffer e.1 0) ^^^ BitVec.ofNat 64 (2 ^ i)), bufferDev := tdel y.bufferDev e.1 })
        (correctedError 2 c e.1 i s))
    | .uncorrectable => (true, uncorrectable 6 c s)
    | _ => (bad, s)) (false, s)

/-! ## Tile boundaries (R136) -/

/-- The Harbour runs that a step's lookup reads (R147, R148): the indexed rows of covered slices. -/
def lookupRuns (s : State) (x : Launch) (p : LastPlan) (slices : List Nat) (idx : Nat) : List (Nat × Nat) :=
  (lookupSlices p slices idx).filterMap fun r => (slicePlace s x r.slice).bind fun q =>
    (tget? s.model.covers q.bank).bind fun c => (c.slabs[idx % 1024 / 128]?).map fun h => (slabAddr h.toNat + 128 * (idx % 128), 128)

/-- The Harbour runs that a tile of a cover, of a lookup or of an adapter reads (R147, R148, R150). -/
def tileRuns (s : State) (t : Tile) : List (Nat × Nat) :=
  match t.work with
  | .cover l slice _ _ _ _ =>
    (((tget? s.model.launches l).map fun x => sliceBanks s x [slice]).getD []).flatMap fun n =>
      (((tget? s.model.covers n).map fun c => c.slabs).getD []).map fun h => (slabAddr h.toNat, 16384)
  | .adapter _ ctx _ _ _ =>
    (((ctxAdapterSlot s ctx).bind fun k => s.model.cache.find? fun e => e.1 = k).map fun e => e.2.map fun h =>
      (slabAddr h.toNat, 16384)).getD []
  | .step l _ input _ _ _ =>
    match (tget? s.model.launches l).bind fun x => (launchPlan s x).bind fun p => (layerOf p x.layer).map fun y => (x, p, y) with
    | none => []
    | some (x, p, y) => match y.kind with
      | .lookup slices => lookupRuns s x p slices (leNat input)
      | _ => []
  | .recompute _ => []

/-- A tile waits: for a bank in a pulse cycle or an Awl operation (R69, R305), or for a segment in RET (R166). -/
def tileWaits (s : State) (t : Tile) : Bool :=
  (tileBanks s t).any (fun n => bankBusy s n || bankPulsing s n) || runsWait s (tileRuns s t)

/-- What a waiting tile asks for: its segments wake, and a top-up run on its banks stops after its row (R305). -/
def tileAsks (t : Tile) (s : State) : State := runsWake (tileRuns s t) ((tileBanks s t).foldl (fun s n => preemptRun n s) s)

/-- What a tile's reads leave behind (R169, R306): access slots of its Harbour runs, the time of use of its banks. -/
def tileUses (c : Nat) (t : Tile) (s : State) : State :=
  let s := match t.work with
    | .adapter _ _ _ _ _ => s
    | _ => (tileRuns s t).foldl (fun s r => touchRun (BitVec.ofNat 12 (2048 + c)) r.1 r.2 s) s
  (tileBanks s t).foldl (fun s n => noteUse n (preemptRun n s)) s

/-- Tiles of at most 1 µs that an adapter's vector takes at its launch (R136). -/
def adapterParts (s : State) (l ctx : Nat) : Nat :=
  match tget? s.model.launches l, ctxAdapter s ctx with
  | some x, some a => adapterTiles a (((launchPlan s x).map fun p => (layerJoins p x.layer).length).getD 1)
  | _, _ => 1

/-- What the end of a tile does: the tile that goes on, if one does, and the state (R136, R181). -/
def endTile (c : Nat) (t : Tile) (s : State) : Option Tile × State :=
  if tileWaits s t then (some t, tileAsks t s)
  else
  let s := tileUses c t s
  match t.work with
  | .recompute n => (none, sendRecompute c n s)
  | .cover l slice vec xs _ poison => (none, coverTile c l slice vec xs poison s)
  | .step l vec input special poison done => stepTile c t l vec input special poison done s
  | .adapter l ctx vec xs poison =>
    if t.part + 1 < adapterParts s l ctx then (some { t with part := t.part + 1 }, s) else (none, adapterTile c l ctx vec xs poison s)

/-- Every recompute whose tile waits starts its streaming read (R136): up to 32 read at the same time. -/
def startQueued (c : Nat) (s : State) : State :=
  (clusterOf s c).tiles.foldl (fun s t => match t.work with
    | .recompute n => startRecompute c n s
    | _ => s) s

/-- Take the next tile (R136): its operands are loaded. -/
def takeTile (c : Nat) (s : State) : State :=
  let s := startQueued c s
  match nextTile (clusterOf s c).tiles with
  | none => modCluster c (fun y => { y with current := none }) s
  | some t => loadBuffer c t (modCluster c (fun y => { y with current := some t, tiles := y.tiles.erase t }) s)

/-- A cluster's charge ends when its work queue empties (R484); the standing cluster stays charged (R134). -/
def dropShank (c : Nat) (s : State) : State :=
  let y := clusterOf s c
  if s.power.standing == some c then s
  else if y.tiles = [] && y.current.isNone && y.recomputes = [] then
    { s with power := { s.power with shankCharged := s.power.shankCharged.filter fun k => k ≠ c } }
  else s

/-- A tile that goes on waits for its next turn, its partial results kept (R136). DESIGN CHOICE (notes/assumptions/17.md): it waits
as the youngest of the cluster's tiles; R136 does not say how old the next tile of a running step is. -/
def keepTile (c : Nat) (t : Option Tile) (s : State) : State :=
  match t with
  | none => s
  | some t => modCluster c (fun y => { y with tiles := y.tiles ++ [t] }) s

/-- SHANK_TILE_BOUNDARY (R136): the tile in progress ends, and the first waiting tile of the highest priority is taken. `upsets`
are bits of the operand buffer's words that have been upset since the tile began (R132); a word beyond correction is a failure
of the cluster, and its tile is run again (R336). -/
def execShankTileBoundary (cluster : Fin 16) (upsets : List (Nat × Nat)) (s : State) : Res :=
  let c := cluster.val
  if !clusterRuns s c then .next s
  else match (clusterOf s c).current with
    | none => .next (takeTile c s)
    | some t =>
      let s := modCluster c (fun y => upsets.foldl (fun y u => upsetBuffer u y) y) s
      let (bad, s) := readBuffer c s
      if bad then .next (clusterFailure c s)
      else
        let (w, s') := endTile c t (modCluster c (fun y => { y with current := none }) s)
        let s' := dropShank c (takeTile c (keepTile c w s'))
        match tileLaunch s c t with
        | some l => .next (endLaunch l (settleLaunch l s'))
        | none => .next s'

/-- A recompute that has no tile at its cluster. -/
def newRecompute (y : Cluster) : Option Nat :=
  let queued := fun (n : Nat) => (y.tiles ++ y.current.toList).any fun t => match t.work with
    | .recompute m => m = n
    | _ => false
  (y.recomputes.find? fun e => !e.2.started && !queued e.1).map Prod.fst

/-- RECOMPUTE_RECEIVE (R136, R143, R146): the oldest request that the cluster has not queued becomes a tile of priority 1. -/
def execRecomputeReceive (cluster : Fin 16) (s : State) : Res :=
  let c := cluster.val
  match newRecompute (clusterOf s c) with
  | none => .next s
  | some n =>
    .next (wakeForRecomputes (addTile c { prio := 1, deadline := none, order := n, work := .recompute n } s))

/-- The logical vector that one read of a row delivered, as the command gives it: 128 data bytes and 12 check bytes. -/
def readVector (b : Bytes) : Nat := fld b 0 128 % 2 ^ 1024 + fld b 128 12 * 2 ^ 1024

/-- The outcome of up to four reads of a row (R145, R330): the bits used and the re-reads; none where it stays poisoned. -/
def tryReads (s : State) (bank row : Nat) (reads : List Bytes) : Option Nat × Nat :=
  let cells := logicalRow (bankOf s bank) row
  let vecs := ((List.range 4).map fun k => ((reads[k]?).map readVector).getD cells)
  match vecs.findIdx? fun v => badGroups v = [] with
  | some k => (vecs[k]?, k)
  | none => (streamRow s bank row (vecs.getD 3 cells), 3)

/-- One of the reads of a row passes its check. -/
def passedRead (s : State) (bank row : Nat) (reads : List Bytes) : Bool :=
  let cells := logicalRow (bankOf s bank) row
  (List.range 4).any fun k => badGroups (((reads[k]?).map readVector).getD cells) = []

/-- STREAM_READ_ROW (R69, R136, R145, R330, R311, R242): a row of recompute `n` of the cluster arrives and is added into its
lanes; up to 32 recomputes stream at the same time. `reads` are the row's bits as each attempt delivered them, the true cells
where it gives none. A bank's pulse cycle and its digital reads do not overlap (R69). -/
def execStreamReadRow (cluster : Fin 16) (n : Nat) (reads : List Bytes) (s : State) : Res :=
  let c := cluster.val
  match (tget? (clusterOf s c).recomputes n).bind fun r => if r.started then some r else none with
  | none => .next s
  | some r =>
    match r.rowsLeft with
    | [] => .next s
    | row :: rest =>
      if !clusterRuns s c || bankPulsing s r.bank then .next s
      -- R305, R307: a top-up run in its way stops after the row that it is at
      else if bankBusy s r.bank then .next (preemptRun r.bank s)
      else
        let (bits, again) := tryReads s r.bank row reads
        let x := (remainingInts s r).getD row 0
        let launch := (tget? (islandOf s r.island).joins r.join).bind fun j => tget? s.model.launches j.launch
        let scale := fun k => match launch with
          | some l => if r.scaled then sliceScale s l.slot l.gen r.slice r.outputs (row / 32) k else 0
          | none => 0
        let lanes := match bits with
          | some v => addRow x r.cols r.frac r.outputs scale v r.lanes
          | none => r.lanes
        let r' := { r with rowsLeft := rest, lanes, poisoned := r.poisoned || bits.isNone, rereads := r.rereads + again }
        let s := modCluster c (fun y => { y with recomputes := tset y.recomputes n r' }) s
        let s := noteUse r.bank s
        let s := match bits, launch with
          | none, some l => nvPoisoned r.bank 1 (flagSlice l r.slice (bump (ob 0x5013 1) s))
          | none, none => nvPoisoned r.bank 1 (bump (ob 0x5013 1) s)
          | some _, _ => if 0 < again && again ≤ 3 && passedRead s r.bank row reads then nvRetried s else s
        let busy := ((clusterOf s c).current.toList ++ (clusterOf s c).tiles).any fun t => match t.work with
          | .recompute m => m = n
          | _ => false
        .next (if rest = [] && !busy then addTile c { prio := 1, deadline := none, order := n, work := .recompute n } s else s)

/-! ## Cover copies (R147) -/

/-- Cover copies that exist. -/
def coverCopies (s : State) : Nat := (s.model.covers.filter fun e => e.2.slabs ≠ []).length

/-- Copy a covered bank's rows into eight slabs (R147, R330): data bits only; rows that fail are left out. -/
def copyBank (n : Nat) (slabs : List (BitVec 16)) (s : State) : State :=
  let rows := (List.range 1024).map fun r => (r, coverRow s n r)
  let missing := (rows.filter fun e => e.2.isNone).map Prod.fst
  let cov := (tget? s.model.covers n).getD { forced := false, slabs := [], missing := [] }
  let s := rows.foldl (fun s e => match e.2 with
    | some bits => storeRun 2336 (slabAddr (slabs.getD (e.1 / 128) 0).toNat + 128 * (e.1 % 128)) (leBytes 128 bits) false s
    | none => s) s
  let s := nvPoisoned n missing.length (bumpBy (ob 0x5013 1) missing.length s)
  noteUse n { s with model := { s.model with covers := tset s.model.covers n { cov with slabs, missing } } }

/-- Start the cover of one bank (R147): a copy where the budget and the SHARED space allow it. A read for a copy preempts
maintenance of the bank. -/
def coverBank (n : Nat) (s : State) : State :=
  let cov := (tget? s.model.covers n).getD { forced := false, slabs := [], missing := [] }
  if !bankCovered s n || (bankOf s n).storageMode || !bankPlaced s n || cov.slabs ≠ [] then s
  else
    let s := preemptRun n s
    let free := (sharedSlabs s).take 8
    if free.length = 8 && decide (coverCopies s + 1 ≤ 8 * dictNum s (ob 0x5020 1)) && !bankBusy s n &&
        !bankPulsing s n && !runsWait s (free.map fun h => (slabAddr h.toNat, 16384)) then copyBank n free s
    else { s with model := { s.model with covers := tset s.model.covers n cov } }

/-- COVER_START (R25, R147): a bank below the floor, retired or forced, or every bank of a quarantined island. -/
def execCoverStart (c : CoverRef) (s : State) : Res :=
  match c with
  | .bank b => if bankExists s b then .next (coverBank b s) else .fault .absentUnit
  | .island i =>
    if !(i < nIslands s) then .fault .absentUnit
    else
      let banks := (tkeys s.banks).filter fun b => bankIsland b = i && (bankOf s b).owners ≠ []
      .next (banks.foldl (fun s b => coverBank b s) s)

end Sys2Proof.Machine
end

