-- ==== Sys2Proof/Machine/Launch.lean ====
section
/-! DEFINITION. The admission of launches (R24, R33, R95, R134, R180, R188, R189, R246, R455, R483 to R487): what requests ask
of the governor, what a launch takes when it is admitted, and the admission of Shank clusters' power. Choices of the
model: notes/assumptions/10.md (DESIGN CHOICE), notes/assumptions/17.md (DESIGN CHOICE). -/

namespace Sys2Proof.Machine

/-! ## What requests ask for (R189, R255, R369) -/

/-- The layer that a request's present step runs (R198). -/
def reqLayer (s : State) (r : Req) : Option LayerPlan := (planOf s r.slot r.gen).bind fun p => p.layers[r.step]?

/-- An outstanding request of the same context was admitted earlier (R369). -/
def earlierStep (s : State) (a : Nat) (r : Req) : Bool :=
  let at_ := fun (b : Nat) => ((tget? s.que.cmds b).map fun c => c.order).getD 0
  s.que.reqs.any fun e => e.2.ctx = r.ctx && decide (at_ e.1 < at_ a)

/-- The request waits at the barrier of a layer that an in-place swap has not yet rewritten (R255, R256). -/
def atBarrier (s : State) (r : Req) (layer : Nat) : Bool :=
  match (slotOf s r.slot).swap with
  | some w => w.mode == .inPlace && w.switched && r.gen = (slotOf s r.slot).gen && w.front.contains layer
  | none => false

/-- The Last of a request spans the modules of a group (R402). -/
def groupLast (s : State) (slot : Nat) : Bool := decide (1 < (slotOf s slot).modules) && membersOf s ≠ []

/-- KV slabs of one layer that a step of `n` tokens from `pos` still needs (R154). -/
def kvNeed (tokens pos n : Nat) : Nat := if tokens = 0 then 0 else ceilDiv (pos + n) tokens - ceilDiv pos tokens

/-- The KV slabs that a step takes, by layer (R154): (layer, first token of the slab). -/
def kvPlan (p : LastPlan) (pos n : Nat) : List (Nat × Nat) :=
  p.layers.flatMap fun y => (List.range (kvNeed y.kvTokens pos n)).map fun k =>
    (y.layer, (ceilDiv pos y.kvTokens + k) * y.kvTokens)

/-- Take the KV slabs of a request's step out of its group's pool (R154); none where they do not suffice. -/
def takeKv (a : Nat) (r : Req) (p : LastPlan) (s : State) : Option State :=
  let rec_ := ctxRecord s r.ctx
  let g := fld rec_ 2 2
  let want := kvPlan p (fld rec_ 8 8) r.vectors
  if (tget s.flow.pools (kvPool g) []).length < want.length then none
  else
    let (hs, s) := poolTake (kvPool g) want.length s
    let new := (hs.zip want).map fun e => (e.1, e.2.1, e.2.2)
    let s := { s with que := { s.que with kv := tmod s.que.kv r.ctx [] fun l => l ++ new } }
    some (modReq a (fun r => { r with kvTaken := hs }) (noteKv r.ctx s))

/-- Ask the governor for a step of request `a`, in parts of at most the layer's micro-batch (R189). -/
def askStep (a : Nat) (r : Req) (p : LastPlan) (y : LayerPlan) (s : State) : State :=
  let mb := max 1 y.microBatch
  let s := modReq a (fun r => { r with asked := true, left := r.vectors * layerOuts p y.layer, taken := 0 }) s
  (List.range (ceilDiv r.vectors mb)).foldl (fun s k =>
    pushWork (.step r.slot r.gen y.layer [(a, min mb (r.vectors - k * mb))] none) s) s

/-- Take a request's KV slabs before its first step; a step that finds too few ends with KV_FULL (R154). -/
def startKv (a : Nat) (r : Req) (p : LastPlan) (s : State) : Option State :=
  if r.step = 0 && r.kvTaken = [] then takeKv a r p s else some s

/-- A launch still works for the request: the next step reads what its output streams write (R180, R198). -/
def inLaunch (s : State) (a : Nat) : Bool := s.model.launches.any fun l => l.2.reqs.any fun r => r.1 = a

/-- Ask for one request's step where it may be asked for. -/
def askOne (a : Nat) (s : State) : State :=
  match tget? s.que.reqs a with
  | none => s
  | some r =>
    if r.asked || r.stopped.isSome || groupLast s r.slot || earlierStep s a r || inLaunch s a then s
    else match planOf s r.slot r.gen, reqLayer s r with
      | some p, some y =>
        if atBarrier s r y.layer then
          (if r.barred then s else bump (ob 0x7052 1) (modReq a (fun r => { r with barred := true }) s))
        else match startKv a r p s with
          | none => stopRequest a St.kvFull 0 false s
          | some s => askStep a r p y s
      | _, _ => s

/-- Admission slots in the order of admission. -/
def insertSlot (s : State) (a : Nat) : List Nat → List Nat
  | [] => [a]
  | b :: t =>
    let at_ := fun (c : Nat) => ((tget? s.que.cmds c).map fun c => c.order).getD 0
    if at_ a < at_ b then a :: b :: t else b :: insertSlot s a t

/-! ## Group launches (R402, R404) -/

/-- The KEY of an admitted command. -/
def keyAt (s : State) (a : Nat) : BitVec 64 := ((tget? s.que.cmds a).map fun c => BitVec.ofNat 64 (entKey c.entry)).getD 0

/-- The admission slots of the outstanding requests that carry these KEYs. -/
def reqsOfKeys (s : State) (keys : List (BitVec 64)) : List Nat :=
  keys.filterMap fun k => (s.que.reqs.find? fun e => keyAt s e.1 = k && e.2.stopped.isNone).map Prod.fst

/-- Every member has reported the request (R402). -/
def fullyReported (s : State) (key : BitVec 64) : Bool :=
  s.strait.reports.any fun r => r.key = key && (membersOf s).all fun m => r.members.contains m

/-- The generation that a group launch at `t` carries (R258, R404): the request's own after its first step. -/
def launchGen (s : State) (r : Req) (t : BitVec 64) : BitVec 16 :=
  let sl := slotOf s r.slot
  if 0 < r.step then r.gen
  else match sl.swap.bind fun w => w.switchTide with
    | some ts => if ts.toNat ≤ t.toNat then nextGen sl.gen else sl.gen
    | none => sl.gen

/-- The leader may form a launch with the request's present step (R402), whose layer no in-place swap holds here (R255, R258;
notes/assumptions/30.md). -/
def groupReady (s : State) (a : Nat) : Bool :=
  match tget? s.que.reqs a with
  | none => false
  | some r =>
    let k := keyAt s a
    r.stopped.isNone && !r.asked && groupLast s r.slot && !earlierStep s a r && !inLaunch s a && fullyReported s k &&
      !(s.strait.agreed.any fun g => g.1.contains k) && match reqLayer s r with
        | some y => !atBarrier s { r with gen := launchGen s r (tideOf s + BitVec.ofNat 64 (dictNum s (ob 0x6205 1))) } y.layer
        | none => false

/-- The requests that go into one launch with request `a` (R189, R402): ready ones of its slot, generation and step, each
context once, in the order of admission, within the layer's micro-batch. -/
def groupBatch (s : State) (r : Req) (mb : Nat) : List Nat → List Nat → List Nat
  | [], acc => acc
  | b :: t, acc =>
    let fits : Bool := match tget? s.que.reqs b with
      | none => false
      | some q =>
        let size := ((acc.filterMap fun c => (tget? s.que.reqs c).map fun x => x.vectors).sum + q.vectors)
        let clash := acc.any fun c => ((tget? s.que.reqs c).map fun x => x.ctx) = some q.ctx
        groupReady s b && q.slot = r.slot && q.gen = r.gen && q.step = r.step && !clash && decide (size ≤ mb)
    groupBatch s r mb t (if fits then acc ++ [b] else acc)

/-- Form the leader's next launches, with one LAUNCH message to each member (R402). -/
def formLaunches : Nat → List Nat → State → State
  | 0, _, s => s
  | fuel + 1, order, s =>
    match order.find? (groupReady s) with
    | none => s
    | some a =>
      match tget? s.que.reqs a with
      | none => s
      | some r =>
        let mb := ((reqLayer s r).map fun y => max 1 y.microBatch).getD 1
        let batch := a :: (groupBatch s r mb (order.filter fun b => b ≠ a) [a]).drop 1
        let t := tideOf s + BitVec.ofNat 64 (dictNum s (ob 0x6205 1))
        let gen := launchGen s r t
        let keys := batch.map (keyAt s)
        let s := modStrait (fun g => { g with agreed := g.agreed ++ [(keys, gen, t)] }) s
        let s := (peersOf s).foldl (fun s m => sendCtl m ctlLaunch (gen.toNat :: t.toNat :: keys.map BitVec.toNat) s) s
        formLaunches fuel order s

/-- The group disagrees, and the agreed count lies after the start of the disagreement (R396). -/
def groupRefuses (s : State) (t : BitVec 64) : Bool :=
  !reconciled s && match s.strait.disagreeSince with
    | some d => decide (d.toNat < t.toNat)
    | none => true

/-- The requests of an agreed launch may be asked of the governor: their earlier steps are done, their generation is current,
and no barrier holds the layer (R255, R402, R404). -/
def agreedReady (s : State) (g : List (BitVec 64) × BitVec 16 × BitVec 64) : Bool :=
  (reqsOfKeys s g.1).all fun a => match tget? s.que.reqs a with
    | none => true
    | some r =>
      let sl := slotOf s r.slot
      !r.asked && !inLaunch s a && (sl.gen = g.2.1 || sl.oldGen = some g.2.1) && match reqLayer s { r with gen := g.2.1 } with
        | some y => !atBarrier s { r with gen := g.2.1 } y.layer
        | none => true

/-- Ask the governor for an agreed launch: one micro-batch, or parts of a request that is larger than one (R189, R402). -/
def askAgreed (g : List (BitVec 64) × BitVec 16 × BitVec 64) (s : State) : State :=
  let as_ := reqsOfKeys s g.1
  let one := fun (s : State) (a : Nat) =>
    match tget? s.que.reqs a with
    | none => s
    | some r =>
      let r := { r with gen := g.2.1 }
      let s := ctxWrite r.ctx 4 (leBytes 2 g.2.1.toNat) (modReq a (fun q => { q with gen := g.2.1 }) s)
      match planOf s r.slot r.gen, reqLayer s r with
      | some p, some y =>
        match startKv a r p s with
        | none => stopRequest a St.kvFull 0 false s
        | some s => modReq a (fun q => { q with asked := true, left := q.vectors * layerOuts p y.layer, taken := 0 }) s
      | _, _ => s
  let s := as_.foldl one s
  let live := as_.filterMap fun a => (tget? s.que.reqs a).bind fun r => if r.asked then some (a, r) else none
  match live with
  | [] => s
  | (a, r) :: _ =>
    match reqLayer s r with
    | none => s
    | some y =>
      let mb := max 1 y.microBatch
      let all := live.map fun e => (e.1, e.2.vectors)
      if (all.map Prod.snd).sum ≤ mb then pushWork (.step r.slot r.gen y.layer all (some g.2.2)) s
      else (List.range (ceilDiv r.vectors mb)).foldl (fun s k =>
        pushWork (.step r.slot r.gen y.layer [(a, min mb (r.vectors - k * mb))] (some g.2.2)) s) s

/-- Refuse an agreed launch: its requests complete with GROUP_QUARANTINED (R396). -/
def refuseAgreed (g : List (BitVec 64) × BitVec 16 × BitVec 64) (s : State) : State :=
  (reqsOfKeys s g.1).foldl (fun s a => stopRequest a St.groupQuarantined 0 false s) s

/-- Ask for, refuse or keep each agreed launch, in order. -/
def sweepAgreed (s : State) : State :=
  s.strait.agreed.foldl (fun s g =>
    if groupRefuses s g.2.2 then refuseAgreed g (modStrait (fun x => { x with agreed := x.agreed.erase g }) s)
    else if agreedReady s g then askAgreed g (modStrait (fun x => { x with agreed := x.agreed.erase g }) s)
    else s) s

/-- Drop the reports of requests that have ended here (R402). -/
def dropReports (s : State) : State :=
  let ended := fun (r : GroupReq) => r.members.contains (selfId s) && reqsOfKeys s [r.key] = []
  modStrait (fun g => { g with reports := g.reports.filter fun r => !ended r }) s

/-- Ask for every step that may be asked for, in the order of admission (R24, R189); a group's leader forms the launches of
its group (R402). -/
def askReady (s : State) : State :=
  let order := (tkeys s.que.reqs).foldr (insertSlot s) []
  let s := order.foldl (fun s a => askOne a s) s
  if membersOf s = [] then s
  else
    let s := dropReports s
    sweepAgreed (if isLeader s then formLaunches order.length order s else s)

/-! ## Forming a launch (R189, R246) -/

/-- Merge the steps that follow at the head of the queue into one micro-batch: one slot, generation and layer, each context
once. -/
def mergeSteps (s : State) (slot : Nat) (gen : BitVec 16) (layer mb : Nat) :
    List GovItem → List (Nat × Nat) → List (Nat × Nat) × List GovItem
  | [], acc => (acc, [])
  | g :: t, acc =>
    match g.work with
    | .step sl gn ly reqs none =>
      let ctx := fun (a : Nat) => (tget? s.que.reqs a).map fun r => r.ctx
      let clash := reqs.any fun r => acc.any fun b => ctx b.1 = ctx r.1
      let size := ((acc ++ reqs).map Prod.snd).sum
      if sl = slot && gn = gen && ly = layer && !clash && decide (size ≤ mb) then mergeSteps s slot gen layer mb t (acc ++ reqs)
      else (acc, g :: t)
    | _ => (acc, g :: t)

/-! ## What a launch needs -/

/-- The Shank cluster that serves a launch: ON with the fewest tiles, the lower number on a tie. -/
def workCluster (s : State) : Option Nat :=
  ((List.range 16).filter fun c => domIsOn s (domCluster c) && !(clusterOf s c).retired).foldl (fun best c => match best with
    | some b => if (clusterOf s c).tiles.length < (clusterOf s b).tiles.length then some c else best
    | none => some c) none

/-- One slice of a launch and where it lies; `shank` where a cluster computes it (R147, R148). -/
structure SliceAt where
  r : SliceRec
  p : Placed
  shank : Bool

/-- The slices of a layer with their places. -/
def slicesAt (s : State) (slot : Nat) (gen : BitVec 16) (p : LastPlan) (layer : Nat) : List SliceAt :=
  (p.slices.filter fun r => r.layer = layer).filterMap fun r =>
    ((placesOf s slot gen).find? fun q => q.slice = r.slice).map fun q =>
      { r, p := q, shank := q.spill || bankCovered s q.bank }

/-- One join of a launch: its home, the other islands that gather partials for it, and its slices. -/
structure JoinAt where
  j : JoinPlan
  home : Nat
  island : Nat
  parts : List Nat
  slices : List SliceAt

/-- The islands of slices that arrays compute, rising. -/
def arrayIslands (l : List SliceAt) : List Nat :=
  (l.filter fun x => !x.shank).foldl (fun l x => insertUp (bankIsland x.p.bank) l) []

/-- Lanes that the joins placed so far take at a home, for a micro-batch of `v` vectors. -/
def lanesTaken (v home : Nat) (placed : List JoinAt) : Nat :=
  (placed.map fun x => if x.home = home || x.parts.contains home then x.j.outputs * v else 0).sum

/-- The island of a join that no array of this module feeds (R95). DESIGN CHOICE (notes/assumptions/17.md): the first island in
service with enough free lanes, those of the Last's island set first. -/
def freeHome (s : State) (v : Nat) (set : List Nat) (placed : List JoinAt) (j : JoinPlan) : Nat :=
  let up := fun (i : Nat) => !(islandOf s i).quarantined && !(domState s i == .failed)
  let room := fun (i : Nat) => up i && decide (lanesTaken v i placed + j.outputs * v ≤ lanesFree s i)
  match (set ++ List.range (nIslands s)).find? room with
  | some i => i
  | none => ((set ++ List.range (nIslands s)).find? up).getD 0

/-- Where a join lives (R95, R102, R200, R206): the island of its first slice in an array bank, or the cluster's block where
that island is in quarantine or has FAILED. -/
def joinHome (s : State) (c v : Nat) (set : List Nat) (all : List SliceAt) (placed : List JoinAt) (j : JoinPlan) : JoinAt :=
  let mine := all.filter fun x => x.r.join = j.join
  let island := match mine.find? fun x => !x.p.spill with
    | some x => bankIsland x.p.bank
    | none => freeHome s v set placed j
  let home := if (islandOf s island).quarantined || domState s island == .failed then 2048 + c else island
  { j, home, island, parts := (arrayIslands mine).filter fun i => i ≠ home, slices := mine }

/-- The joins of a layer with their homes, in the Last's order. -/
def joinHomes (s : State) (c v : Nat) (set : List Nat) (all : List SliceAt) (js : List JoinPlan) : List JoinAt :=
  js.foldl (fun placed j => placed ++ [joinHome s c v set all placed j]) []

/-- The joins that open at a home, in order: the Last's joins, then partials. -/
def homeRuns (js : List JoinAt) (home : Nat) : List (JoinAt × Bool) :=
  (js.filter fun x => x.home = home).map (fun x => (x, false)) ++
    (js.filter fun x => x.parts.contains home).map fun x => (x, true)

/-- The homes that a launch uses, rising. -/
def launchHomes (js : List JoinAt) : List Nat :=
  js.foldl (fun l x => (x.home :: x.parts).foldl (fun l h => insertUp h l) l) []

/-- The JOIN_IDs that a home's new joins keep clear of (R102): those open on the island's Welt; for a cluster's block, those of every
cluster's block, so that another cluster can take the joins over, and those still open on the Welts of islands in quarantine, whose
packets bear the same island number. -/
def usedIds (s : State) (home : Nat) : List Nat :=
  if home < 2048 then tkeys (islandOf s home).joins
  else (s.clusters.flatMap fun c => tkeys c.2.joins) ++
    (s.islands.filter fun i => i.2.quarantined || domState s i.1 == .failed).flatMap fun i => tkeys i.2.joins

/-- The first JOIN_ID of a home's run of `n` joins: the island's next number, or 0 where that would pass 65,535; for a
cluster's block, the first number from which `n` are free. -/
def runBase (s : State) (home n : Nat) : Nat :=
  if home < 2048 then (let b := (islandOf s home).nextJoin; if b + n ≤ 65536 then b else 0)
  else
    let used := usedIds s home
    ((0 :: used.map fun e => e + 1).find? fun b => decide (b + n ≤ 65536) && used.all fun e => e < b || b + n ≤ e).getD 0

/-- The lanes and the JOIN_IDs of a home suffice (R95). -/
def homeFits (s : State) (js : List JoinAt) (v home : Nat) : Bool :=
  let runs := homeRuns js home
  let lanes := (runs.map fun x => x.1.j.outputs * v).sum
  let n := runs.length * v
  let b := runBase s home n
  decide (lanes ≤ lanesFree s home) && decide (b + n ≤ 65536) && (usedIds s home).all fun e => e < b || b + n ≤ e

/-- The JOIN_ID of vector 0 of a join's run at a home. -/
def joinBaseAt (s : State) (js : List JoinAt) (v home join : Nat) (part : Bool) : Nat :=
  let runs := homeRuns js home
  let i := (runs.findIdx? fun x => x.1.j.join = join && x.2 == part).getD 0
  runBase s home (runs.length * v) + i * v

/-- The module of a rank as a source (R199). -/
def sourceModule (s : State) (rank : Nat) : Nat := if membersOf s = [] then selfId s else modOfRank s rank

/-- The sources of one join for a vector of context `ctx` (R95, R102). -/
def joinSources (s : State) (c : Nat) (adapters : List Nat) (ctx : Option Nat) (x : JoinAt) : List SourceId :=
  (x.slices.filterMap fun q =>
    if q.shank then some (.shank c q.r.slice)
    else if bankIsland q.p.bank = x.home then some (.slice q.r.slice) else none) ++
    x.parts.map (fun i => .remote (selfId s) i) ++ x.j.remotes.map (fun r => .remote (sourceModule s r) anyUnit) ++
    match ctx with
    | some k => if adapters.contains k then [.shank c (2 ^ 32 + k)] else []
    | none => []

/-- The sources of a partial on island `i`. -/
def partSources (x : JoinAt) (i : Nat) : List SourceId :=
  (x.slices.filter fun q => !q.shank && bankIsland q.p.bank = i).map fun q => .slice q.r.slice

def newJoin (l plan vec island lanes : Nat) (tolerant : Bool) (ids : List SourceId) : Join :=
  { launch := l, plan, vec, island, lanes := List.replicate lanes 0, dev := [], bad := [],
    sources := ids.map fun id => { id, final := false }, ex := 0, known := false, special := false, poisoned := false, tolerant }

/-- Open the joins of a launch (JOIN_OPEN, R95). -/
def openJoins (l c v : Nat) (js : List JoinAt) (adapters : List Nat) (ctxOf : Nat → Option Nat) (s : State) : State :=
  (launchHomes js).foldl (fun s home =>
    let runs := homeRuns js home
    let base := runBase s home (runs.length * v)
    let made := (List.range runs.length).zip runs |>.flatMap fun e =>
      (List.range v).map fun k =>
        let x := e.2.1
        let ids := if e.2.2 then partSources x home else joinSources s c adapters (ctxOf k) x
        let tolerant := !strictOn s && x.slices.any fun q => !q.shank && sliceTolerant q.r
        let plan := if e.2.2 then partialBase + x.j.join else x.j.join
        (base + e.1 * v + k, newJoin l plan k (if e.2.2 then home else x.island) x.j.outputs tolerant ids)
    let s := setHomeJoins home (made.foldl (fun t e => tset t e.1 e.2) (homeJoins s home)) s
    if home < 2048 then modIsland home (fun y => { y with nextJoin := (base + runs.length * v) % 65536 }) s else s) s

/-- The work of one slice in a thread; `laces` are the launch's hardware Laces. -/
def sliceWork (s : State) (js : List JoinAt) (laces : List (Nat × Nat)) (v : Nat) (x : JoinAt) (q : SliceAt) : SliceWork :=
  let i := bankIsland q.p.bank
  let fmt := q.r.format.toNat
  { slice := q.r.slice, rowBlock := q.r.rowBlock, bank := q.p.bank
    lace := ((laces.find? fun e => e.1 = x.j.input).map Prod.snd).getD 4096
    cols := fmtCols fmt, frac := fmtFrac fmt, rows := q.r.rows,
    outputs := q.r.outputs, firstOutput := q.r.firstOutput - x.j.firstOutput, scaled := sliceScaled q.r,
    tolerant := sliceTolerant q.r && !strictOn s, joinBase := joinBaseAt s js v i x.j.join (decide (i ≠ x.home)),
    groups := [], rerun := false }

/-- The works of an island's thread. -/
def islandWorks (s : State) (js : List JoinAt) (laces : List (Nat × Nat)) (v i : Nat) : List SliceWork :=
  js.flatMap fun x =>
    (x.slices.filter fun q => !q.shank && bankIsland q.p.bank = i).map fun q => sliceWork s js laces v x q

def newConsumer (w : Consumer) : LaceConsumer :=
  { who := w, waiting := [], vecs := 0, blocks := 0, acc := [], ex := 0, planes := 1, special := false, poison := false,
    skips := [] }

/-- The earliest deadline among the requests of a launch (R23). -/
def launchDeadline (s : State) (reqs : List (Nat × Nat)) : Option (BitVec 64) :=
  reqs.foldl (fun best r =>
    match best, (tget? s.que.reqs r.1).bind fun q => q.deadline with
    | some b, some d => some (if d.toNat < b.toNat then d else b)
    | none, d => d
    | b, none => b) none

/-- Everything about a launch that admission decides from. -/
structure LaunchSpec where
  slot : Nat
  gen : BitVec 16
  layer : Nat
  reqs : List (Nat × Nat)
  agreed : Option (BitVec 64)
  plan : LastPlan
  y : LayerPlan
  all : List SliceAt
  joins : List JoinAt
  cluster : Nat
  needsShank : Bool
  adapters : List Nat
  vectors : Nat

/-- Contexts of the launch's requests whose adapter applies to the layer (R150). -/
def launchAdapters (s : State) (layer : Nat) (reqs : List (Nat × Nat)) : List Nat :=
  reqs.filterMap fun r => (tget? s.que.reqs r.1).bind fun q =>
    match ctxAdapter s q.ctx with
    | some a => if a.usable && a.layer = layer then some q.ctx else none
    | none => none

/-- What a step asks for, on the places of its generation. -/
def launchSpec (s : State) (slot : Nat) (gen : BitVec 16) (layer : Nat) (reqs : List (Nat × Nat))
    (agreed : Option (BitVec 64)) : Option LaunchSpec :=
  match planOf s slot gen with
  | none => none
  | some p =>
    match layerOf p layer with
    | none => none
    | some y =>
      let c := (workCluster s).getD 0
      let all := if y.onShank then [] else slicesAt s slot gen p layer
      let vectors := (reqs.map Prod.snd).sum
      let set := (placesOf s slot gen).filterMap fun q => if q.spill then none else some (bankIsland q.bank)
      let joins := if y.onShank then [] else joinHomes s c vectors set all (layerJoins p layer)
      let adapters := if y.onShank then [] else launchAdapters s layer reqs
      let need := y.onShank || all.any (fun x => x.shank) || adapters ≠ [] || joins.any fun x => 2048 ≤ x.home
      some { slot, gen, layer, reqs, agreed, plan := p, y, all, joins, cluster := c, needsShank := need, adapters, vectors }

/-- Arrays on which a launch runs (R484). -/
def specArrays (x : LaunchSpec) : List Nat :=
  (x.all.filter fun q => !q.shank).foldl (fun l q => insertUp (bankArray q.p.bank) l) []

/-- An island may take the launch (R43, R189, R487). -/
def islandReady (s : State) (i : Nat) : Bool :=
  domIsOn s i && !(islandOf s i).hot && decide ((islandOf s i).threads.length < 16)

/-- The islands that a launch names: those of its arrays and those whose Welts hold its joins (R30). -/
def specIslands (x : LaunchSpec) : List Nat :=
  ((launchHomes x.joins).filter fun h => h < 2048).foldl (fun l h => insertUp h l) (arrayIslands x.all)

/-- Everything but the handles and the budget is there (R30, R95, R189, R487). -/
def specReady (s : State) (x : LaunchSpec) : Bool :=
  (arrayIslands x.all).all (islandReady s) && (specIslands x).all (domIsOn s) &&
    (launchHomes x.joins).all (homeFits s x.joins x.vectors) &&
    (!x.needsShank || (workCluster s).isSome) &&
    decide ((layerLaces x.plan x.layer).length + s.flow.laces.length ≤ 4096)

/-- Wake what a waiting launch names (R30, R470). -/
def wakeFor (x : LaunchSpec) (s : State) : State :=
  let s := (specIslands x).foldl (fun s i => wantOn i s) s
  if x.needsShank && (workCluster s).isNone then
    match (List.range 16).find? fun c => !(clusterOf s c).retired with
    | some c => wantOn (domCluster c) s
    | none => s
  else s

/-- The numbers of the launch's Laces: free numbers in order, with the Last's Laces. -/
def freeLaces (s : State) : Nat → List LacePlan → List (LacePlan × Nat)
  | _, [] => []
  | from_, y :: t => match (List.range 4096).find? fun n => decide (from_ ≤ n) && (tget? s.flow.laces n).isNone with
    | some n => (y, n) :: freeLaces s (n + 1) t
    | none => []

/-- A Shank cluster reads a Lace of the launch: a step does, a slice that it computes, or an adapter (R135, R147 to R150). -/
def clusterReads (x : LaunchSpec) (lace : Nat) : Bool :=
  x.needsShank && (x.y.onShank || (x.joins.any fun j => j.j.input = lace && j.slices.any fun q => q.shank) ||
    (x.adapters ≠ [] && (x.joins.head?.map fun j => j.j.input) = some lace))

/-- The consumers of a Lace of the launch (R178, R180): the threads and the cluster that read its vectors, and for each of its output
streams one for each request. Where nothing of this module multiplies the vectors but a join that they feed is rounded here, the
join's Welt, or the cluster that holds the join, reads their e_x and marks (R81, R123). -/
def laceConsumers (x : LaunchSpec) (threads : List (Nat × Nat)) (works : List (Nat × List SliceWork)) (hw : Nat) (y : LacePlan) :
    List LaceConsumer :=
  let reads := fun (i : Nat) => works.any fun w => w.1 = i && w.2.any fun k => k.lace = hw
  let inner := (threads.filter fun e => reads e.1).map (fun e => Consumer.thread e.1 e.2) ++
    if clusterReads x y.lace then [Consumer.cluster x.cluster] else []
  let rounds := fun (j : JoinAt) => j.j.input = y.lace && match j.j.ending with
    | .round _ _ _ _ => true
    | .forward _ _ => false
  let inner := if inner ≠ [] then inner
    else match x.joins.find? rounds with
      | some j => [if j.home < 2048 then Consumer.welt j.home else Consumer.cluster (j.home - 2048)]
      | none => []
  inner.map newConsumer ++ y.drains.flatMap fun st => x.reqs.map fun r => newConsumer (.drain st r.1)

/-- Reserve the receiver's slabs of the multicast groups of a layer and grant them (R408 step 1). -/
def grantMcast (l : Nat) (x : LaunchSpec) (laces : List (LacePlan × Nat)) (s : State) : State :=
  let self := rankOf s (selfId s)
  (s.strait.mcasts.filter fun m => m.slot = x.slot && m.plan.sender ≠ self && m.plan.receivers.getLsbD self).foldl (fun s m =>
    match laces.find? fun e => e.1.lace = m.plan.lace with
    | none => s
    | some (y, hw) =>
      match tget? s.model.launches l with
      | none => s
      | some k =>
        let hs := k.reserved.take y.depth
        let s := modLaunch l (fun k => { k with reserved := k.reserved.drop y.depth }) s
        let s := modLace hw (fun la =>
          { la with held := la.held ++ hs.map fun h =>
              { h, reqs := [], waits := List.range la.consumers.length, vec := 0, off := 0, ferry := true, awaits := true } }) s
        hs.foldl (fun s h =>
          sendCtl (modOfRank s m.plan.sender) ctlGrant [m.plan.group, 16384 * h.toNat] s) s) s

/-! ## The streams of a launch (R126, R180, R183, R188, R192, R361) -/

/-- Vectors that a stream moves for `m` vectors of a request from its vector `off` on: as many, or, on an output stream of the
request, what the Last's schedule produces for them (R361). -/
def streamVecs (p : LastPlan) (own output : Bool) (off m : Nat) : Nat :=
  if own && output then p.outNum * (off + m) / max 1 p.outDen - p.outNum * off / max 1 p.outDen else m

/-- The vectors that a stream moves before vector `off` of its request. -/
def streamOff (p : LastPlan) (own output : Bool) (off : Nat) : Nat :=
  if own && output then p.outNum * off / max 1 p.outDen else off

/-- The kind and the address of a stream's far end (R183, R361): a port, a HOST segment, or a tensor in the Harbour. -/
def streamEnd (s : State) (a : Nat) (y : StreamPlan) (io : Option IoStream) : Nat × Nat :=
  match io with
  | none => (1, (Config.activation a y.tensor).toNat)
  | some t =>
    let port : Port := match tget? s.que.cmds a with
      | some c => cmdPort s c
      | none => .u
    let kind := if t.space = 2 then 1 else if t.space = 1 || port == .d then 3 else 2
    (kind, t.addr.toNat)

/-- The multicast group whose sender this module is for a Lace of a slot (R407). -/
def sentGroup (s : State) (slot lace : Nat) : Option Mcast :=
  s.strait.mcasts.find? fun m => m.slot = slot && m.plan.lace = lace && m.plan.sender = rankOf s (selfId s)

/-- The descriptor of a stream for `m` vectors of request `a` from its vector `off` on (R183, R192), as Uzomel builds it; none
for an output stream without vectors to write. -/
def streamDesc (s : State) (x : LaunchSpec) (laces : List (LacePlan × Nat)) (a m off : Nat) (y : StreamPlan) : Option Desc :=
  match tget? s.que.reqs a, laces.find? fun e => e.1.lace = y.lace with
  | some r, some (_, hw) =>
    let io := r.streams.find? fun t => t.stream = y.stream
    let n := streamVecs x.plan io.isSome y.output off m
    let skip := streamOff x.plan io.isSome y.output off
    let total := streamVecs x.plan io.isSome y.output 0 r.vectors
    let fmt := if y.output then y.fmtOut.toNat else y.fmtIn.toNat
    let split := fmtScaled fmt && !y.interleaved
    let scales := ceilDiv y.elems 32
    let unit := if split then y.bytes - scales else y.bytes
    let (kind, base) := streamEnd s a y io
    let addr := base + skip * unit
    let scaleAt := if split then base + total * unit + skip * scales else 0
    let src := if y.output && y.conv = 3 then y.bytes * fmtWidth y.fmtIn.toNat / max 1 (fmtWidth y.fmtOut.toNat) else y.bytes
    let group := if y.output then none else sentGroup s x.slot y.lace
    let due := (r.deadline.map fun d => max 1 (d.toNat - y.slack)).getD 0
    if n = 0 then none
    else some
      { conv := y.conv, depth := BitVec.ofNat 8 y.depth, fmtIn := y.fmtIn, fmtOut := y.fmtOut, planes := BitVec.ofNat 8 y.planes
        srcKind := BitVec.ofNat 8 (if y.output then 0 else kind)
        dstKind := BitVec.ofNat 8 (if y.output then kind else if group.isSome then 4 else 0)
        flags := BitVec.ofNat 8 (b2n y.interleaved + 2 * b2n (decide (due ≠ 0)) + 4 * b2n group.isSome)
        srcAddr := BitVec.ofNat 64 (if y.output then 0 else addr)
        dstAddr := BitVec.ofNat 64 (if y.output then addr else (group.map fun g => g.plan.group).getD 0)
        length := BitVec.ofNat 64 (n * src), elems := BitVec.ofNat 32 y.elems
        laceIn := BitVec.ofNat 16 (if y.output then hw else 0xFFFF)
        laceOut := BitVec.ofNat 16 (if y.output || group.isSome then 0xFFFF else hw)
        scaleAddr := BitVec.ofNat 64 scaleAt, deadline := BitVec.ofNat 64 due
        request := BitVec.ofNat 32 a, gen := x.gen, stream := BitVec.ofNat 16 y.stream }
  | _, _ => none

/-- Start a launch's Ferries: issue the descriptors of its streams, request by request (R182, R183, R188, R192). -/
def issueStreams (x : LaunchSpec) (laces : List (LacePlan × Nat)) (offsets : List (Nat × Nat)) (s : State) : State :=
  let streams := x.plan.streams.filter fun y => y.layer = x.layer && (y.output || !filledByPeer s x.slot y.lace)
  x.reqs.foldl (fun s r =>
    let off := ((offsets.find? fun e => e.1 = r.1).map Prod.snd).getD 0
    streams.foldl (fun s y => match streamDesc s x laces r.1 r.2 off y with
      | some d => if reqStopped s r.1 then s else issueDesc d s
      | none => s) s) s

/-- Vectors of each request's step that earlier launches took (R189). -/
def takenBefore (s : State) (reqs : List (Nat × Nat)) : List (Nat × Nat) :=
  reqs.map fun r => (r.1, ((tget? s.que.reqs r.1).map fun q => q.taken).getD 0)

/-- The bandwidth split as committed (R170): it takes effect with the first launch admitted after the commit. -/
def committedSplit (s : State) : Nat × Nat × Nat :=
  let b := dictActive s (ob 0xB040 1) 0
  (fld b 0 1, fld b 1 1, fld b 2 1)

/-- Admit a launch (R33, R95, R170, R180, R188, R189, R484). -/
def admitLaunch (x : LaunchSpec) (s : State) : State :=
  let l := s.model.nextLaunch
  let depth := depthSum x.plan x.layer
  let (reserved, s) := poolTake x.slot depth s
  let laces := freeLaces s 0 (layerLaces x.plan x.layer)
  let islands := arrayIslands x.all
  let threads := islands.map fun i => (i, (freeKey (islandOf s i).threads 16).getD 0)
  let deadline := launchDeadline s x.reqs
  let order := s.power.nextOrder
  let arrays := (specArrays x).length
  let k : Launch :=
    { slot := x.slot, gen := x.gen, layer := x.layer, reqs := x.reqs, order, deadline,
      laces := laces.map (fun e => (e.1.lace, e.2)), reserved, vectors := x.vectors,
      shank := (x.all.filter fun q => q.shank).map (fun q => (q.r.slice, x.cluster)),
      adapters := x.adapters.map (fun a => (a, x.cluster)), delivered := [], stored := [], arrays, charged := decide (0 < arrays),
      agreed := x.agreed, begun := (match x.agreed with | some t => decide (t.toNat ≤ (tideOf s).toNat) | none => true),
      cancelled := false, offsets := takenBefore s x.reqs, strict := strictOn s, values := launchValues s }
  let s := x.reqs.foldl (fun s r => modReq r.1 (fun q => { q with taken := q.taken + r.2 }) s) s
  let s := { s with hbr := { s.hbr with split := committedSplit s } }
  let s := { s with model := { s.model with launches := tset s.model.launches l k, nextLaunch := l + 1 } }
  let s := { s with power := { s.power with nextOrder := order + 1 } }
  let works := islands.map fun i => (i, islandWorks s x.joins k.laces x.vectors i)
  let ctxOf := fun (v : Nat) => (vecReq x.reqs v).bind fun a => (tget? s.que.reqs a).map fun r => r.ctx
  let s := openJoins l x.cluster x.vectors x.joins x.adapters ctxOf s
  let s := threads.foldl (fun s e =>
    let th : Thread := { launch := l, deadline, order, works := ((works.find? fun w => w.1 = e.1).map Prod.snd).getD [] }
    modIsland e.1 (fun y => { y with threads := tset y.threads e.2 th }) s) s
  let made := laces.map fun e =>
    (e.2, ({ launch := l, depth := e.1.depth, consumers := laceConsumers x threads works e.2 e.1, held := [], pushed := 0, fed := [],
             partialSlab := none } : Lace))
  let s := { s with flow := { s.flow with laces := made.foldl (fun t e => tset t e.1 e.2) s.flow.laces } }
  let s := grantMcast l x laces s
  let tolerant := x.all.any fun q => sliceTolerant q.r
  let shed := s.strait.mcasts.any fun m => m.slot = x.slot && m.plan.shed && laces.any fun e => e.1.lace = m.plan.lace
  let s := if strictOn s && tolerant then bump (ob 0x3017 1) s else s
  let s := if strictOn s && shed then bump (ob 0x6222 1) s else s
  settleLaunch l (issueStreams x laces k.offsets s)

/-! ## LAUNCH_ADMIT -/

/-- No launch is admitted now (R454 to R456, R481). -/
def admissionClosed (s : State) : Bool := cfgHeld s || !s.regs.cfgMatch || dipHolds s

/-- Count a launch that waits for handles, once (R180). -/
def countWait (g : GovItem) (s : State) : State :=
  if g.counted then s
  else
    let mark := fun (k : GovItem) => if k.order = g.order then { k with counted := true } else k
    bump (ob 0x4041 1) { s with power := { s.power with waiting := s.power.waiting.map mark } }

/-- Admit the step at the head of the queue, with the steps that its micro-batch takes (R24, R189), or wait. -/
def admitHead (g : GovItem) (rest : List GovItem) (s : State) : State :=
  match g.work with
  | .cluster c =>
    if s.power.standing == some c || s.power.shankCharged.contains c then { s with power := { s.power with waiting := rest } }
    else if shankFits s then
      { s with power := { s.power with waiting := rest, shankCharged := s.power.shankCharged ++ [c] } }
    else s
  | .step slot gen layer reqs agreed =>
    let mb := ((planOf s slot gen).bind fun p => (layerOf p layer).map fun y => y.microBatch).getD 1
    let (all, left) := if agreed.isSome then (reqs, rest) else mergeSteps s slot gen layer (max 1 mb) rest reqs
    match launchSpec s slot gen layer all agreed with
    | none => { s with power := { s.power with waiting := rest } }
    | some x =>
      if !specReady s x then wakeFor x s
      else if (tget s.flow.pools slot []).length < depthSum x.plan layer then countWait g s
      else if !arrayFits s (3150 * (specArrays x).length) then s
      else admitLaunch x { s with power := { s.power with waiting := left } }

/-- LAUNCH_ADMIT (R24, R33): pending configuration becomes active at the launch boundary (R453); then the oldest request of the
governor is admitted once its budget, handles and lanes fit. -/
def execLaunchAdmit (s : State) : Res :=
  let s := askReady s
  if admissionClosed s then .next s
  else
    let s := activateNow s
    match s.power.waiting with
    | [] => .next s
    | g :: rest => .next (admitHead g rest s)

end Sys2Proof.Machine
end

