-- ==== Sys2Proof/Machine/Infer.lean ====
section
/-! DEFINITION. INFER, its completion, the context commands and FENCE (R193 to R195, R222, R225, R360 to R362, R369 to R378,
R402). Choices of the model: notes/assumptions/17.md (DESIGN CHOICE). -/

namespace Sys2Proof.Machine

/-! ## INFER's own checks (R361, R362) -/

/-- One data stream as an INFER names it, with the offsets of its SPACE, BYTES, ADDR and STREAM fields for DETAIL. -/
structure IoField where
  io : IoStream
  atSpace : Nat
  atBytes : Nat
  atAddr : Nat
  atStream : Nat

/-- The streams of an entry without IO_LIST (R361): the Last's first input stream and its first output stream. -/
def plainStreams (p : LastPlan) (e : Bytes) : List IoField :=
  let f := entFlags e
  let one := fun (out : Bool) (space bytes addr atSpace atBytes atAddr : Nat) =>
    let n := ((p.streams.find? fun y => y.output = out).map fun y => y.stream).getD 65536
    ({ io := { stream := n, space, output := out, bytes, addr := BitVec.ofNat 64 addr }, atSpace, atBytes, atAddr,
       atStream := 0 } : IoField)
  [one false (f % 4) (fld e 0x20 4) (fld e 0x10 8) 1 0x20 0x10,
   one true (f / 4 % 4) (fld e 0x24 4) (fld e 0x18 8) 1 0x24 0x18]

/-- The entries of an IO_LIST (R361). -/
def listStreams (b : Bytes) (n : Nat) : List IoField :=
  (List.range n).map fun i =>
    let o := 16 * i
    { io := { stream := fld b o 2, space := fld b (o + 2) 1, output := fld b (o + 3) 1 ≠ 0, bytes := fld b (o + 4) 4,
              addr := BitVec.ofNat 64 (fld b (o + 8) 8) },
      atSpace := 0x8000 + o + 2, atBytes := 0x8000 + o + 4, atAddr := 0x8000 + o + 8, atStream := 0x8000 + o }

/-- SPACE is one that the port's mode allows (R361). -/
def spaceOk (s : State) (space : Nat) : Bool := space = 0 || (space = 1 && dRoot s) || space = 2

/-- The first fault of one stream's fields (R361): the offset for DETAIL. -/
def ioFault (s : State) (p : LastPlan) (list : Bool) (f : IoField) : Option Nat :=
  if !spaceOk s f.io.space then some f.atSpace
  else if f.io.space = 2 && f.io.bytes ≠ 0 && !inHostSegment s f.io.addr.toNat f.io.bytes then some f.atAddr
  else match streamPlan p f.io.stream with
    | none => if list then some f.atStream else if f.io.bytes = 0 then none else some f.atBytes
    | some y => if list && y.output != f.io.output then some (f.atStream + 3) else none

/-- The number of input vectors n (R361): what the first input stream's length gives. -/
def ioVectors (p : LastPlan) (fs : List IoField) : Nat :=
  match fs.find? fun f => !f.io.output with
  | some f => match streamPlan p f.io.stream with
    | some y => f.io.bytes / max 1 y.bytes
    | none => 0
  | none => 0

/-- The length of a stream for n input vectors (R361). -/
def ioLength (p : LastPlan) (y : StreamPlan) (n : Nat) : Nat :=
  if y.output then p.outNum * n / max 1 p.outDen * y.bytes else n * y.bytes

/-- A stream's length breaks R361. -/
def lengthBad (p : LastPlan) (n : Nat) (f : IoField) : Bool :=
  match streamPlan p f.io.stream with
  | some y => !(1 ≤ n && n ≤ 65536) || f.io.bytes ≠ ioLength p y n
  | none => false

/-- The IO_LIST of an INFER: bytes, or none where the read failed; from the HOST segment for space 2. -/
def listRead (s : State) (e : Bytes) (list : HostRead) : Option Bytes :=
  let n := fld e 0x20 4
  if entFlags e % 4 = 2 then
    (if hPoison s.hbr (fld e 0x10 8) n then none else some (harbRead s (fld e 0x10 8) n))
  else match list with
    | .data b => some (fit b n)
    | _ => none

/-- The Harbour run of an IO_LIST in a HOST segment (R361). -/
def listRun (e : Bytes) : Nat × Nat :=
  if bitAt (entFlags e) 4 && entFlags e % 4 = 2 then (fld e 0x10 8 % 2 ^ 30, min 1024 (fld e 0x20 4)) else (0, 0)

/-- The fault of an INFER's fields (R361, R362): status and DETAIL; or its streams. -/
def inferFields (s : State) (q : QPair) (p : LastPlan) (e : Bytes) (list : HostRead) : Sum (Nat × Nat) (List IoField) :=
  let f := entFlags e
  let bytes := fld e 0x20 4
  let useList := bitAt f 4
  if !spaceOk s (f % 4) || !spaceOk s (f / 4 % 4) then .inl (St.invalidCommand, 1)
  else if useList && (bytes % 16 ≠ 0 || bytes = 0 || 1024 < bytes) then .inl (St.invalidCommand, 0x20)
  else if useList && fld e 0x18 8 ≠ 0 then .inl (St.invalidCommand, 0x18)
  else if useList && fld e 0x24 4 ≠ 0 then .inl (St.invalidCommand, 0x24)
  else if !pairRt q && fld e 0x28 8 ≠ 0 then .inl (St.invalidCommand, 0x28)
  else if useList && f % 4 = 2 && !inHostSegment s (fld e 0x10 8) bytes then .inl (St.invalidCommand, 0x10)
  else
    match if useList then listRead s e list else some [] with
    | none => .inl (St.hostAccess, 0x10)
    | some b =>
      let fs := if useList then listStreams b (bytes / 16) else plainStreams p e
      match fs.findSome? (ioFault s p useList) with
      | some d => .inl (St.invalidCommand, d)
      | none =>
        match fs.find? (lengthBad p (ioVectors p fs)) with
        | some x => .inl (St.invalidCommand, x.atBytes)
        | none => .inr fs

/-- The request deadline (R362). -/
def inferDeadline (s : State) (q : QPair) (c : Cmd) : Option (BitVec 64) :=
  let d := fld c.entry 0x28 8
  let r := ctxRecord s (entArg c.entry)
  if !pairRt q then none
  else if d ≠ 0 then some (BitVec.ofNat 64 d)
  else if bitAt (fld r 6 2) 1 then some (c.readAt + BitVec.ofNat 64 (fld r 0x10 8))
  else none

/-! ## Group requests (R402) -/

/-- Note that a member has reported a request. -/
def addReport (member slot ctx : Nat) (key : BitVec 64) (s : State) : State :=
  modStrait (fun g =>
    match g.reports.find? fun r => r.key = key with
    | some _ =>
      let add := fun (r : GroupReq) => if r.key = key then { r with members := insertUp member r.members } else r
      { g with reports := g.reports.map add }
    | none => { g with reports := g.reports ++ [{ key, slot, ctx, members := [member], since := tideOf s }] }) s

/-- Report a group request to the leader (R402). -/
def reportRequest (slot ctx : Nat) (key : BitVec 64) (s : State) : State :=
  match leaderOf s with
  | some l =>
    if l = selfId s then addReport l slot ctx key s else sendCtl l ctlReport [slot, key.toNat, ctx] s
  | none => addReport (selfId s) slot ctx key s

/-- INFER (R246, R361, R362, R402): the request is tagged with the slot's generation and asks for its first step. -/
def execInfer (a : Fin 4096) (list : HostRead) (s : State) : Res :=
  match cmdAt s a.val 1 with
  | none => .next s
  | some c =>
    let q := pairOf s c.pair
    match groupSlot s c.group.toNat with
    | none => .next (finishSt a.val St.notBound s)
    | some n =>
      let sl := slotOf s n
      match sl.plan with
      | none => .next (finishSt a.val St.notBound s)
      | some p =>
        -- R391: a group Last whose MODULES differs from the group size is never launched
        if 1 < sl.modules && sl.modules ≠ groupSize s then .next (finishSt a.val St.groupQuarantined s)
        else if runWaits s (listRun c.entry).1 (listRun c.entry).2 then
          .next (runWake (listRun c.entry).1 (listRun c.entry).2 s)
        else match inferFields s q p c.entry list with
        | .inl (st, d) => .next (finishAt a.val st d s)
        | .inr fs =>
          let ctx := entArg c.entry
          let r : Req :=
            { slot := n, ctx, gen := sl.gen, vectors := ioVectors p fs, deadline := inferDeadline s q c,
              streams := fs.map (fun f => f.io), step := 0, asked := false, barred := false, written := 0, poison := 0,
              late := false, stopped := none, discarded := false, done := false, kvTaken := [], left := 0, taken := 0 }
          let s := { s with que := { s.que with reqs := tset s.que.reqs a.val r } }
          let s := setStage a.val .running (ctxWrite ctx 4 (leBytes 2 sl.gen.toNat) s)
          let s := if groupLast s n then reportRequest n ctx (BitVec.ofNat 64 (entKey c.entry)) s else s
          .next (askReady s)

/-- Every layer has run and every result write has been issued (R345). -/
def inferDone (s : State) (r : Req) : Bool :=
  decide (resultBytes r ≤ r.written) && match planOf s r.slot r.gen with
    | some p => decide (p.layers.length ≤ r.step)
    | none => false

/-- What a finished step leaves in its context's record (R222, R223): POSITION and DRAWS advance; PRIVATE follows the Last's own
schedule and is a free value. -/
def advanceContext (s : State) (r : Req) : State :=
  let rec_ := ctxRecord s r.ctx
  let draws := ((planOf s r.slot r.gen).map drawsOf).getD 0 * r.vectors
  let s := ctxWrite r.ctx 8 (leBytes 8 (fld rec_ 8 8 + r.vectors)) s
  let s := ctxWrite r.ctx 0x28 (leBytes 8 (fld rec_ 0x28 8 + draws)) s
  let n := min 96 (((planOf s r.slot r.gen).map fun p => p.privateBytes).getD 0)
  if n = 0 then s
  else
    let (v, s) := takeFree s
    ctxWrite r.ctx 0x80 (leBytes n v) s

/-- INFER_COMPLETE (R193 to R195, R345, R360): all result writes have been issued and the zero-length reads after them have completed; the completion says whether the deadline was
missed. -/
def execInferComplete (a : Fin 4096) (s : State) : Res :=
  match tget? s.que.reqs a.val with
  | none => .next s
  | some r =>
    if r.stopped.isSome || !inferDone s r then .next s
    else
      let late := match r.deadline with
        | some d => decide (d.toNat < (tideOf s).toNat)
        | none => false
      if late && reqDiscards s a.val then .next (askReady (discardRequest a.val s))
      else
        let s := if late then bump (ob 0x4052 1) s else s
        let missed := late || r.late
        let s := if missed then countMiss a.val s else s
        let s := modReq a.val (fun r => { r with done := true }) (advanceContext s r)
        let rep : Reply :=
          { status := if missed then St.deadlineMissed else St.success, result := inferResult r, poison := r.poison }
        .next (askReady (finish a.val rep s))

/-! ## Contexts (R222, R373 to R378) -/

/-- An adapter slot serves a slot's Last (R260, R373). -/
def adapterFits (s : State) (slot ad : Nat) : Bool :=
  match tget? s.model.adapters ad with
  | some x => x.usable && x.target = (slotOf s slot).imageHash
  | none => false

/-- The 256-byte record that CTX_OPEN writes (R222, R373). -/
def openRecord (slot group : Nat) (e : Bytes) : Bytes :=
  let ad := fld e 0x20 4
  let flags := b2n (decide (ad ≠ 0xFFFFFFFF)) + 2 * b2n (decide (fld e 0x18 8 ≠ 0))
  leBytes 1 1 ++ leBytes 1 slot ++ leBytes 2 group ++ leBytes 2 0 ++ leBytes 2 flags ++ leBytes 8 0 ++
    leBytes 8 (fld e 0x18 8) ++ leBytes 4 (if ad = 0xFFFFFFFF then 0 else ad) ++ leBytes 4 0 ++ leBytes 8 (fld e 0x10 8) ++
    leBytes 8 0 ++ leBytes 4 (fld e 0x24 4) ++ leBytes 4 (fld e 0x28 4) ++ leBytes 2 (fld e 0x2C 2) ++
    List.replicate 198 0

/-- CTX_OPEN (R373). -/
def execCtxOpen (a : Fin 4096) (s : State) : Res :=
  match cmdAt s a.val 2 with
  | none => .next s
  | some c =>
    let n := entArg c.entry
    let g := c.group.toNat
    let ad := fld c.entry 0x20 4
    match groupSlot s g with
    | none => .next (finishSt a.val St.contextInvalid s)
    | some sl =>
      let up := (slotOf s sl).state == .resident || (slotOf s sl).state == .bound
      if fld (ctxRecord s n) 0 1 ≠ 0 || !up || (ad ≠ 0xFFFFFFFF && !adapterFits s sl ad) then
        .next (finishSt a.val St.contextInvalid s)
      else .next (finishSt a.val St.success (ctxWrite n 0 (openRecord sl g c.entry) s))

/-- A context has a step that has not retired (R374, R375). -/
def ctxBusy (s : State) (ctx : Nat) : Bool := s.que.reqs.any fun r => r.2.ctx = ctx

/-- Return a context to FREE: its KV slabs go back to its group's pool (R155, R374). -/
def freeContext (ctx : Nat) (s : State) : State :=
  let g := fld (ctxRecord s ctx) 2 2
  let hs := (tget s.que.kv ctx []).map Prod.fst
  let s := { s with que := { s.que with kv := tdel s.que.kv ctx, closing := tdel s.que.closing ctx } }
  poolReturn (kvPool g) hs (ctxWrite ctx 0 (List.replicate 256 0) s)

/-- CTX_CLOSE (R370, R374): it waits for the context's admitted steps. -/
def execCtxClose (a : Fin 4096) (s : State) : Res :=
  match cmdAt s a.val 3 with
  | none => .next s
  | some _ => .next (setStage a.val .draining s)

/-- A context command that waits for steps to retire, once they have. -/
def drainedCmd (s : State) (a op : Nat) : Option Cmd :=
  match tget? s.que.cmds a with
  | some c => if entOpcode c.entry = op && c.stage == .draining && !ctxBusy s (entArg c.entry) then some c else none
  | none => none

/-- CTX_CLOSE_RELEASE (R374). -/
def execCtxCloseRelease (a : Fin 4096) (s : State) : Res :=
  match drainedCmd s a.val 3 with
  | none => .next s
  | some c => .next (finishSt a.val St.success (freeContext (entArg c.entry) s))

/-- CTX_SAVE (R370, R375): it waits for the context's admitted steps. -/
def execCtxSave (a : Fin 4096) (s : State) : Res :=
  match cmdAt s a.val 4 with
  | none => .next s
  | some _ => .next (setStage a.val .draining s)

/-- The Harbour runs of slabs (R176). -/
def slabRuns (hs : List (BitVec 16)) : List (Nat × Nat) := hs.map fun h => (slabAddr h.toNat, 16384)

/-- The KV map of a saved context (R376), padded to 64 bytes. -/
def kvMap (kv : List (BitVec 16 × Nat × Nat)) : Bytes :=
  let m := kv.flatMap fun e => leBytes 4 e.2.1 ++ leBytes 4 e.2.2
  m ++ List.replicate (ceilDiv m.length 64 * 64 - m.length) 0

/-- The length of a saved context of `n` KV slabs (R376). -/
def savedLength (n : Nat) : Nat := 128 + 256 + ceilDiv (8 * n) 64 * 64 + 16384 * n

/-- A saved context's header with its CRC field as given (R376). -/
def savedHeader (flags bytes : Nat) (hash : Digest) (gen n crc : Nat) : Bytes :=
  leBytes 4 0x58435856 ++ leBytes 2 1 ++ leBytes 2 flags ++ leBytes 8 bytes ++ fit hash 48 ++ leBytes 2 gen ++ leBytes 2 0 ++
    leBytes 4 n ++ leBytes 4 crc ++ List.replicate 52 0

/-- The saved context (R376). -/
def savedContext (s : State) (ctx : Nat) : Bytes :=
  let r := ctxRecord s ctx
  let kv := tget s.que.kv ctx []
  let n := kv.length
  let body := r.take 2 ++ leBytes 2 0 ++ sub r 4 0x3C ++ leBytes 8 0 ++ r.drop 0x48 ++ kvMap kv ++
    kv.flatMap fun e => harbRead s (slabAddr e.1.toNat) 16384
  let head := savedHeader (b2n (bitAt (fld r 6 2) 0)) (savedLength n) (slotOf s (fld r 1 1)).lastHash (fld r 4 2) n
  head (crc32c (head 0 ++ body)).toNat ++ body

/-- Some data of a context to be saved is poisoned (R332). -/
def savedPoison (s : State) (ctx : Nat) : Bool :=
  hPoison s.hbr (256 * ctx) 256 || (tget s.que.kv ctx []).any fun e => hPoison s.hbr (slabAddr e.1.toNat) 16384

/-- CTX_SAVE_WRITE (R375, R376). -/
def execCtxSaveWrite (a : Fin 4096) (s : State) : Res :=
  match drainedCmd s a.val 4 with
  | none => .next s
  | some c =>
    let ctx := entArg c.entry
    let need := savedLength (tget s.que.kv ctx []).length
    if fld c.entry 0x18 8 < need then
      let s := { s with que := { s.que with closing := tdel s.que.closing ctx } }
      .next (finish a.val { status := St.bufferTooSmall, result := need } s)
    else if runsWait s (slabRuns ((tget s.que.kv ctx []).map Prod.fst)) then
      .next (runsWake (slabRuns ((tget s.que.kv ctx []).map Prod.fst)) s)
    else
      let p := cmdPort s c
      let bad := savedPoison s ctx
      let image := savedContext s ctx
      let s := (slabRuns ((tget s.que.kv ctx []).map Prod.fst)).foldl (fun s r => touchRun 2336 r.1 r.2 s) s
      let s := sendPort p (.hostWrite p (BitVec.ofNat 64 (fld c.entry 0x10 8)) image bad) s
      .next (finish a.val { status := St.success, result := need, poison := b2n bad } (freeContext ctx s))

/-- MAGIC, VERSION, BYTES and CRC of a saved context are correct (R377 check 2). -/
def savedOk (b : Bytes) (room : Nat) : Bool :=
  let n := fld b 0x44 4
  fld b 0 4 = 0x58435856 && fld b 4 2 = 1 && fld b 8 8 = savedLength n && decide (savedLength n ≤ room) &&
    fld b 0x48 4 = (crc32c (splice (b.take (savedLength n)) 0x48 [0, 0, 0, 0])).toNat

/-- Write a saved context's slabs into `hs` in map order (R376, R377); poison of the read travels with them (R332, R348). -/
def restoreSlabs (b : Bytes) (bad : Bool) (hs : List (BitVec 16)) (s : State) : State :=
  let n := hs.length
  let from_ := 384 + ceilDiv (8 * n) 64 * 64
  ((List.range n).zip hs).foldl (fun s e =>
    storeRun 2336 (slabAddr e.2.toNat) (sub b (from_ + 16384 * e.1) 16384) bad s) s

/-- The bytes that a read of a port gave, and whether they are poisoned (R348); none where it failed. -/
def readData (r : HostRead) : Option (Bytes × Bool) :=
  match r with
  | .data b => some (b, false)
  | .poisoned b => some (b, true)
  | .failed => none

/-- CTX_RESTORE (R348, R377). DESIGN CHOICE (notes/assumptions/9.md): on a pair whose group has no slot there is no Last that the
saved hash could name: CONTEXT_MISMATCH; the spec lists no status for it. -/
def execCtxRestore (a : Fin 4096) (saved : HostRead) (s : State) : Res :=
  match cmdAt s a.val 5 with
  | none => .next s
  | some c =>
    let n := entArg c.entry
    let g := c.group.toNat
    let room := fld c.entry 0x18 8
    if fld (ctxRecord s n) 0 1 ≠ 0 then .next (finishSt a.val St.contextInvalid s)
    else match readData saved with
      | some (b, bad) =>
        let b := b.take room
        if !savedOk b room then .next (finishSt a.val St.contextImageInvalid s)
        else match groupSlot s g with
          | none => .next (finishSt a.val St.contextMismatch s)
          | some sl =>
            let k := fld b 0x44 4
            if sub b 0x10 48 ≠ fit (slotOf s sl).lastHash 48 then .next (finishSt a.val St.contextMismatch s)
            else if bitAt (fld b (128 + 6) 2) 0 && !adapterFits s sl (fld b (128 + 0x18) 4) then
              .next (finishSt a.val St.contextInvalid s)
            else if (tget s.flow.pools (kvPool g) []).length < k then .next (finishSt a.val St.kvFull s)
            else if runsWait s (slabRuns ((tget s.flow.pools (kvPool g) []).take k)) then
              .next (runsWake (slabRuns ((tget s.flow.pools (kvPool g) []).take k)) s)
            else
              let (hs, s) := poolTake (kvPool g) k s
              let kv := ((List.range k).zip hs).map fun e => (e.2, fld b (384 + 8 * e.1) 4, fld b (388 + 8 * e.1) 4)
              let r := sub b 128 256
              let r := leBytes 1 1 ++ leBytes 1 sl ++ leBytes 2 g ++ sub r 4 0x3C ++ leBytes 8 0 ++ r.drop 0x48
              let s := { s with que := { s.que with kv := if kv = [] then tdel s.que.kv n else tset s.que.kv n kv } }
              .next (finishSt a.val St.success (noteKv n (restoreSlabs b bad hs (harbWrite (256 * n) r bad s))))
      | none => .next (finishAt a.val St.hostAccess 0x10 s)

/-! ## FENCE (R372) -/

/-- FENCE (R372): the commands admitted before it, on its pair or on every pair of its port. -/
def execFence (a : Fin 4096) (s : State) : Res :=
  match cmdAt s a.val 9 with
  | none => .next s
  | some c =>
    let all := bitAt (entFlags c.entry) 0
    let mine := s.que.cmds.filter fun e =>
      decide (e.2.order < c.order) && (e.2.pair = c.pair || (all && (pairOf s e.2.pair).port == cmdPort s c))
    let c := { c with stage := .running, waitsFor := mine.map fun e => e.2.order }
    .next { s with que := { s.que with cmds := tset s.que.cmds a.val c } }

/-- FENCE_RELEASE (R372): every command that the FENCE waits for has written its completion. -/
def execFenceRelease (a : Fin 4096) (s : State) : Res :=
  match tget? s.que.cmds a.val with
  | none => .next s
  | some c =>
    if entOpcode c.entry = 9 && c.stage == .running && !(s.que.cmds.any fun e => c.waitsFor.contains e.2.order) then
      .next (finishSt a.val St.success s)
    else .next s

end Sys2Proof.Machine
end

