-- ==== Sys2Proof/Machine/Image.lean ====
section
/-! DEFINITION. Weight and adapter images (R226 to R242, R259, R260): manifests, shard loads with their two passes, commit, drop
and refetch. Choices of the model: notes/assumptions/27.md (DEDUCED). -/

namespace Sys2Proof.Machine

/-! ## Reading what a command names -/

/-- What a host read of `len` bytes gave; none where it failed or came poisoned. -/
def hostData (len : Nat) (r : HostRead) : Option Bytes :=
  match r with
  | .data b => some (fit b len)
  | _ => none

/-- The image that a 48-byte manifest hash names. -/
def imageNamed (s : State) (hash : Bytes) : Option (Nat × ImageRec) := imageByHash s (fit hash 48)

def setImage (k : Nat) (r : ImageRec) (s : State) : State :=
  { s with model := { s.model with images := tset s.model.images k r } }

/-! ## Manifests (R227, R228, R236) -/

/-- Entry `n` of a shard table. -/
def shardEntry (b : Bytes) (n : Nat) : ShardRec :=
  let o := 0x80 + 64 * n
  { bytes := fld b (o + 4) 4, firstPiece := fld b (o + 8) 4, pieces := fld b (o + 12) 4, hash := sub b (o + 16) 48 }

/-- The shards' pieces are consecutive from `from_` up to `pieces`. -/
def piecesConsecutive (pieces : Nat) : Nat → List ShardRec → Bool
  | from_, [] => from_ = pieces
  | from_, r :: t => r.firstPiece = from_ && piecesConsecutive pieces (from_ + r.pieces) t

/-- Check 1 of R236. -/
def manifestOk (b : Bytes) (room : Nat) : Bool :=
  let n := fld b 8 4
  let shards := (List.range n).map (shardEntry b)
  decide (1 ≤ n) && decide (n ≤ 4096) && fld b 0 4 = 0x4D495856 && fld b 4 2 = 1 && decide (fld b 6 1 ≤ 1) &&
    fld b 0x18 8 = room && fld b 0x18 8 = 16736 + 64 * n &&
    (List.range n).all (fun i => fld b (0x80 + 64 * i) 4 = i) && piecesConsecutive (fld b 0xC 4) 0 shards &&
    fld b 0x10 8 = (shards.map fun r => r.bytes).sum

/-- The manifest hash (R228). -/
def manifestHash (b : Bytes) : Digest := Config.sha384 (b.take (0x80 + 64 * fld b 8 4))

/-- A digest is signed by a trusted publisher key slot, RSA first, then SLH-DSA (R204, R228). -/
def publisherSigned (s : State) (slot : Nat) (hash : Digest) (rsa slh : Bytes) : Bool :=
  let k := tget s.sec.keys slot {}
  decide (slot < 16) && k.trusted && Config.rsaVerify k.rsaE k.rsaN hash rsa && Config.slhVerify k.slhPk hash slh

/-- The record of a new manifest (R226, R231, R236): every shard is missing. -/
def newImage (b : Bytes) : ImageRec :=
  let o := 0x80 + 64 * fld b 8 4
  { hash := manifestHash b, adapters := fld b 6 1 = 1, keySlot := fld b 7 1, state := .partly,
    shards := (List.range (fld b 8 4)).map (shardEntry b), present := [], refetch := [], target := sub b 0x40 48,
    name := sub b 0x20 32, rsaSig := sub b o 384, slhSig := sub b (o + 384) 16224, written := [], scales := [] }

/-- LOAD_MANIFEST (R228, R233, R234, R236). -/
def execLoadManifest (a : Fin 4096) (manifest : HostRead) (s : State) : Res :=
  match cmdAt s a.val 0x10 with
  | none => .next s
  | some c =>
    if entArg c.entry ≠ 0xFFFFFFFF then .next s
    else
      let room := fld c.entry 0x18 8
      let done := fun st => Host.Outcome.next (finish a.val { status := st, result := 1 } s)
      match hostData room manifest with
      | none => .next (finishAt a.val St.hostAccess 0x10 s)
      | some b =>
        if !manifestOk b room then .next (finish a.val { status := St.shardFormat, result := 1 } (bump (ob 0x7044 1) s))
        else if (imageNamed s (manifestHash b)).isSome then done St.success
        else match freeKey s.model.images 128 with
          | none => done St.resourceLimit
          | some k =>
            let r := newImage b
            if !publisherSigned s r.keySlot r.hash r.rsaSig r.slhSig then done St.signatureInvalid
            else
              let base := match imageNamed s r.target with
                | some e => !e.2.adapters
                | none => false
              if r.adapters && !base then done St.imageUnknown
              else .next (finish a.val { status := St.success, result := 1 } (setImage k r s))

/-! ## Where a weight image's pieces go (R230, R235, R242, R255) -/

/-- A placement of an image's slices: a slot's own, or its pending swap's. -/
structure Target where
  slot : Nat
  plan : LastPlan
  places : List Placed
  /-- The places are those of the slot's pending swap. -/
  pending : Bool
  inPlace : Bool

/-- The PLACED slots and the pending swaps on an image; every slot on it where `all` is set (R235 check 4). -/
def imageTargets (s : State) (hash : Digest) (all : Bool) : List Target :=
  s.model.slots.flatMap fun e =>
    let sl := e.2
    let own := sl.imageHash = hash && (sl.state == .placed || (all && (sl.state == .resident || sl.state == .bound)))
    let mine := match sl.plan with
      | some p => if own then [({ slot := e.1, plan := p, places := sl.places, pending := false, inPlace := false } : Target)] else []
      | none => []
    mine ++ match sl.swap with
      | some w =>
        if w.imageHash = hash && !(w.mode == .shadow && w.switched) then
          [{ slot := e.1, plan := w.plan, places := w.places, pending := true, inPlace := w.mode == .inPlace }] else []
      | none => []

/-- A new placement on an image, or the release of its last one, makes its shards missing, and the image PARTIAL (R231, R233). -/
def placedAnew (hash : Digest) (s : State) : State :=
  match imageNamed s hash with
  | some (k, r) => setImage k { r with present := [], written := [], state := .partly, refetch := [] } s
  | none => s

/-- The image that no placement holds any more becomes PARTIAL (R232, R233, R253). -/
def imageReleased (hash : Digest) (s : State) : State :=
  if (imageTargets s hash true).isEmpty && !(s.model.slots.any fun e => e.2.oldPlaces ≠ [] && e.2.oldImage = hash) then placedAnew hash s else s

/-- LOAD_SHARD (R234, R235 checks 1 to 4, R240): the verify pass begins. DESIGN CHOICE (notes/assumptions/27.md): a shard that is
programmed, and whose spilled bank still waits for other shards, counts as present here (SHARD_PRESENT). -/
def execLoadShard (a : Fin 4096) (hash : HostRead) (s : State) : Res :=
  match cmdAt s a.val 0x10 with
  | none => .next s
  | some c =>
    let n := entArg c.entry
    if n = 0xFFFFFFFF then .next s
    else match hostData 48 hash with
      | none => .next (finishAt a.val St.hostAccess 0x20 s)
      | some h =>
        match imageNamed s h with
        | none => .next (finishSt a.val St.imageUnknown s)
        | some (k, r) =>
          let flagged := (tget? r.refetch n).isSome
          if r.shards.length ≤ n then .next (finishAt a.val St.outOfRange 4 s)
          else if s.model.loads.any (fun l => l.2.image = k && l.2.shard = n) then .next (finishSt a.val St.busy s)
          else if (r.present.contains n || r.written.contains n) && !flagged then .next (finishSt a.val St.shardPresent s)
          else if !r.adapters && (imageTargets s r.hash flagged).isEmpty then .next (finishSt a.val St.notPlaced s)
          else
            let l : Load := { image := k, shard := n, attempt := 1, programming := false, sealing := false, refetch := flagged && r.present.contains n }
            .next (setStage a.val .running { s with model := { s.model with loads := tset s.model.loads a.val l } })

/-! ## The format check (R116, R229, R230, R238, R259) -/

/-- One entry of a piece table (R229). -/
structure Piece where
  piece : Nat
  offset : Nat
  format : Nat
  flags : Nat
  rows : Nat
  outputs : Nat
  deriving DecidableEq, Repr

def pieceEntry (b : Bytes) (i : Nat) : Piece :=
  let o := 0x40 + 16 * i
  { piece := fld b o 4, offset := fld b (o + 4) 4, format := fld b (o + 8) 1, flags := fld b (o + 9) 1,
    rows := fld b (o + 10) 2, outputs := fld b (o + 12) 2 }

def pieceScaled (p : Piece) : Bool := p.flags % 2 = 1

/-- A packed matrix holds no NaN, no infinity and no E8M0 scale of 0xFF (R116). -/
def codesClean (fmt : Nat) (scaled : Bool) (rows outs : Nat) (b : Bytes) : Bool :=
  (List.range rows).all (fun i => (List.range outs).all fun k => !isSpecialCode fmt (pieceCode fmt outs b i k)) &&
    (!scaled || (sub b (rows * pieceRow fmt outs) (ceilDiv rows 32 * outs)).all fun x => x ≠ 0xFF)

/-- A weight piece matches its slice record in every Last placed on the image (R238). -/
def pieceMatches (ts : List Target) (p : Piece) : Bool :=
  ts.all fun t => (t.plan.slices.filter fun r => r.slice = p.piece).all fun r =>
    r.format.toNat = p.format && sliceScaled r == pieceScaled p && r.rows = p.rows && r.outputs = p.outputs

/-- A weight piece passes (R88, R116, R229, R230). -/
def weightPieceOk (ts : List Target) (b : Bytes) (p : Piece) : Bool :=
  let cols := fmtCols p.format
  let len := pieceLen p.format (pieceScaled p) p.rows p.outputs
  decide (0 < cols) && 1 ≤ p.rows && p.rows ≤ 1024 && 1 ≤ p.outputs && cols * p.outputs ≤ 1024 &&
    p.offset % 64 = 0 && p.offset + len ≤ b.length && pieceMatches ts p &&
    codesClean p.format (pieceScaled p) p.rows p.outputs (sub b p.offset len)

/-- The adapter that a piece's payload describes (R259). -/
def adapterOf (image piece : Nat) (target : Digest) (b : Bytes) : Adapter :=
  { image, piece, layer := fld b 4 4, inputs := fld b 8 4, outputs := fld b 12 4, rank := fld b 16 2,
    fmtA := BitVec.ofNat 8 (fld b 18 1), fmtB := BitVec.ofNat 8 (fld b 19 1), fmtH := BitVec.ofNat 8 (fld b 20 1),
    planesH := fld b 21 1, mH := fld b 22 2, eyH := signedAt 16 (fld b 24 2), target, usable := false, lines := [], bytes := 0 }

/-- The length of an adapter's payload (R259). -/
def adapterLen (x : Adapter) : Nat :=
  32 + pieceLen x.fmtA.toNat (fmtScaled x.fmtA.toNat) x.inputs x.rank + pieceLen x.fmtB.toNat (fmtScaled x.fmtB.toNat) x.rank x.outputs

/-- The array input formats (R109). -/
def arrayInput (fmt : Nat) : Bool := [2, 3, 4, 5, 11, 12].contains fmt

/-- An adapter piece passes (R116, R229, R259). -/
def adapterPieceOk (b : Bytes) (p : Piece) : Bool :=
  let x := adapterOf 0 p.piece [] (b.drop p.offset)
  let len := adapterLen x
  let d := sub b p.offset len
  let lenA := pieceLen x.fmtA.toNat (fmtScaled x.fmtA.toNat) x.inputs x.rank
  let planes := if fmtKind x.fmtH.toNat = 0 then decide (x.planesH = 0) else decide (8 ≤ x.planesH) && decide (x.planesH ≤ 24)
  p.rows = 0 && p.outputs = 0 && p.offset % 64 = 0 && p.offset + len ≤ b.length && fld d 0 4 < 65536 && 1 ≤ x.rank &&
    x.rank ≤ 256 && decide (0 < fmtCols x.fmtA.toNat) && decide (0 < fmtCols x.fmtB.toNat) && arrayInput x.fmtH.toNat && planes &&
    zeroAt d 0x1A 6 && codesClean x.fmtA.toNat (fmtScaled x.fmtA.toNat) x.inputs x.rank (d.drop 32) &&
    codesClean x.fmtB.toNat (fmtScaled x.fmtB.toNat) x.rank x.outputs (d.drop (32 + lenA))

/-- The pieces of a shard. -/
def shardPieces (r : ShardRec) (b : Bytes) : List Piece := (List.range r.pieces).map (pieceEntry b)

/-- The format check (R238). -/
def shardFormatOk (s : State) (img : ImageRec) (n : Nat) (r : ShardRec) (all : Bool) (b : Bytes) : Bool :=
  let ps := shardPieces r b
  fld b 0 4 = 0x48535856 && fld b 4 2 = 1 && fld b 6 2 = b2n img.adapters && fld b 8 4 = n && fld b 12 4 = r.pieces &&
    zeroAt b 16 48 && ((List.range r.pieces).zip ps).all (fun e => e.2.piece = r.firstPiece + e.1 && zeroAt b (0x4E + 16 * e.1) 2 &&
      decide (e.2.flags ≤ 1) && decide (0x40 + 16 * r.pieces ≤ e.2.offset)) &&
    ps.all fun p => if img.adapters then adapterPieceOk b p else weightPieceOk (imageTargets s img.hash all) b p

/-! ## The verify pass (R235, R237) -/

/-- End a load: the command completes with the attempts used (R360). -/
def endLoad (a st : Nat) (l : Load) (s : State) : State :=
  let s := if st = St.shardFormat then bump (ob 0x7044 1) s else s
  finish a { status := st, result := l.attempt } { s with model := { s.model with loads := tdel s.model.loads a } }

/-- A hash has failed: a new verify pass, or the end after the last attempt (R237, R256). -/
def retryLoad (a : Nat) (l : Load) (s : State) : State :=
  if l.attempt ≤ dictNum s (ob 0x7042 1) then
    let l := { l with attempt := l.attempt + 1, programming := false, sealing := false }
    bump (ob 0x7043 1) { s with model := { s.model with loads := tset s.model.loads a l } }
  else endLoad a St.shardRejected l (bump (ob 0x7044 1) s)

/-- What a pass over the host buffer read: none where the access failed; a poisoned read never matches its hash. -/
def passData (room : Nat) (r : HostRead) : Option (Bytes × Bool) :=
  match r with
  | .data b => some (fit b room, true)
  | .poisoned b => some (fit b room, false)
  | .failed => none

/-- The bytes of a pass are the shard that the manifest lists (R235 checks 5 and 7). -/
def shardMatches (r : ShardRec) (b : Bytes) (sound : Bool) : Bool :=
  sound && b.length = r.bytes && Config.sha384 b = r.hash

/-- A running load with its image and its shard table entry. -/
def loadOf (s : State) (a : Nat) : Option (Load × ImageRec × ShardRec) :=
  match tget? s.model.loads a with
  | none => none
  | some l =>
    match tget? s.model.images l.image with
    | none => none
    | some img => (img.shards[l.shard]?).map fun r => (l, img, r)

/-- The length of the host buffer of a load (R360). -/
def loadRoom (s : State) (a : Nat) : Nat := ((tget? s.que.cmds a).map fun c => fld c.entry 0x18 8).getD 0

/-- VERIFY_PASS_DONE (R235 checks 5 and 6, R237, R238). -/
def execVerifyPassDone (a : Fin 4096) (shard : HostRead) (s : State) : Res :=
  match loadOf s a.val with
  | none => .next s
  | some (l, img, r) =>
    if l.programming then .next s
    else match passData (loadRoom s a.val) shard with
      | none => .next (finishAt a.val St.hostAccess 0x10 { s with model := { s.model with loads := tdel s.model.loads a.val } })
      | some (b, sound) =>
        if !shardMatches r b sound then .next (retryLoad a.val l s)
        else if !shardFormatOk s img l.shard r l.refetch b then .next (endLoad a.val St.shardFormat l s)
        else .next { s with model := { s.model with loads := tset s.model.loads a.val { l with programming := true } } }

/-! ## Programming pieces (R38, R57, R115, R239, R260) -/

/-- The logical data bits of one row of a piece (R88, R115, R230). -/
def pieceBits (p : Piece) (d : Bytes) (i : Nat) : Nat :=
  if i < p.rows then
    let cols := fmtCols p.format
    ((List.range p.outputs).map fun k =>
      (weightInt p.format (pieceCode p.format p.outputs d i k) % (2 ^ cols : Int)).toNat * 2 ^ (cols * k)).sum
  else 0

/-- The 1,024 logical rows of a piece, check bits included (R60, R239). -/
def pieceRows (p : Piece) (d : Bytes) : List (Nat × Nat) := (List.range 1024).map fun i => (i, withChecks (pieceBits p d i))

/-- The scale codes of a piece (R89, R230). -/
def pieceScales (p : Piece) (d : Bytes) : Bytes :=
  if pieceScaled p then sub d (p.rows * pieceRow p.format p.outputs) (ceilDiv p.rows 32 * p.outputs) else []

/-- Put the bytes of line `n` that row `r` holds, and the line's CRC where the row holds its check cells (R67, R68). -/
def lineIntoRow (n : Nat) (d : Bytes) (r vec : Nat) : Nat :=
  let lo := max (512 * n) (384 * r)
  let hi := min (512 * n + 512) (384 * r + 384)
  let vec := putBits vec (8 * (lo - 384 * r)) (8 * (hi - lo)) (leNat (sub d (lo - 512 * n) (hi - lo)))
  if r = lineRow n then putBits vec 3072 288 (storageChecks (some (crc32c d).toNat)) else vec

/-- Write one 512-byte line of a storage-mode bank. -/
def writeLine (n : Nat) (d : Bytes) (b : Bank) : Bank :=
  let r₀ := 512 * n / 384
  (List.range (lineRow n + 1 - r₀)).foldl (fun b i =>
    let r := r₀ + i
    setLevels r (physicalCells b 3 (physLevels b r) (lineIntoRow n d r (storageRow b r))) b) b

/-- Write bytes from line `n` on. -/
def writeLines (n : Nat) (d : Bytes) (b : Bank) : Bank :=
  ((List.range (ceilDiv d.length 512)).zip (chunksOf 512 d.length d)).foldl (fun b e => writeLine (n + e.1) (fit e.2 512) b) b

/-- A bank begins to hold storage-mode lines (R70, R74). -/
def storageBegin (b : Bank) : Bank :=
  if b.state == .erased then { b with state := .programming, storageMode := true, lastStorage := true } else b

/-- Program a piece of a spilled slice into third `k` of a bank (R239). -/
def writeThird (k : Nat) (d : Bytes) (b : Bank) : Bank :=
  let had := b.thirds
  let b := writeLines (256 * k) d (storageBegin b)
  let b := { b with thirds := insertUp k had }
  let b := if 0 < k && !had.contains (k - 1) then holdShared (sharedRow k) b else b
  if k < 2 then freeShared (sharedRow (k + 1)) b else b

/-- Erase a bank whatever it holds, as an in-place rewrite does first (R74, R78, R255): a WORN bank is then RETIRED. -/
def eraseNow (n : Nat) (s : State) : State :=
  let b := bankOf s n
  if b.state == .erased || b.state == .retired then s
  else
    let s := modBank n (fun b => { b with wear := b.wear + wearOf b false, cells := [], levels := [], thirds := [], split := [], state := .erased }) s
    if b.state == .worn then markRetired n s else s

/-- A bank is sealed (R74, R232). -/
def bankSealed (s : State) (n : Nat) : Bool :=
  let st := (bankOf s n).state
  st == .ready || st == .storage || st == .worn

/-- A place takes its piece now: in a sealing pass only where re-placement gave it a fresh bank (R309), else unless its bank holds
the piece already (R232, R240); an in-place rewrite writes every place (R255). -/
def placeTakes (s : State) (l : Load) (t : Target) (q : Placed) : Bool :=
  if l.sealing then (bankOf s q.bank).state == .erased else t.inPlace || !bankSealed s q.bank

/-- The place of a piece. -/
def placeOf (t : Target) (p : Piece) : Option Placed := t.places.find? fun q => q.slice = p.piece

/-- Program one piece into its place (R239): its bank is sealed later. -/
def programPiece (l : Load) (t : Target) (p : Piece) (d : Bytes) (s : State) : State :=
  match placeOf t p with
  | none => s
  | some q =>
    if !placeTakes s l t q then s
    else if q.spill then
      let bytes := (List.range 1024).flatMap fun i => leBytes 128 (pieceBits p d i)
      modBank q.bank (writeThird q.third bytes)
        (if t.inPlace && bankSealed s q.bank then eraseNow q.bank s else s)
    else writeBank q.bank (pieceRows p d) (if t.inPlace then eraseNow q.bank s else s)

/-- The places of a layer's slices. -/
def layerPlaces (t : Target) (layer : Nat) : List Placed :=
  t.places.filter fun q => (recOf t.plan q.slice).any fun r => r.layer = layer

/-- The shards that feed the banks of a layer, rising. -/
def shardsOfLayer (t : Target) (layer : Nat) : List Nat :=
  let banks := choiceBanks (layerPlaces t layer)
  (t.plan.slices.filter fun r => t.places.any fun q => q.slice = r.slice && banks.contains q.bank).foldl (fun l r => insertUp r.shard l) []

/-- The rewrite front of an in-place swap stands stopped at a layer whose banks the shard feeds (R256). -/
def frontAt (s : State) (t : Target) (shard : Nat) : Bool :=
  match (slotOf s t.slot).swap with
  | some w => w.switched && w.stopped && (slotOf s t.slot).oldGen.isNone && w.front.head?.any fun y => (shardsOfLayer t y).contains shard
  | none => false

/-- The place of a piece may be programmed: its bank is ERASED, takes a further third (R239) while no erase of it waits (R237), or
holds the piece already; in place, only where the front has stopped (R256). -/
def placeReady (s : State) (l : Load) (t : Target) (p : Piece) : Bool :=
  match placeOf t p with
  | none => true
  | some q =>
    let b := bankOf s q.bank
    if t.inPlace && !l.refetch then l.sealing || frontAt s t l.shard
    else b.state == .erased || (b.state == .programming && ((q.spill && b.ops = []) || l.sealing)) || bankSealed s q.bank

/-- The pieces that a load programs: those of the flagged slices only where it answers a refetch (R242). -/
def loadPieces (l : Load) (img : ImageRec) (r : ShardRec) (b : Bytes) : List Piece :=
  let ps := shardPieces r b
  if l.refetch then ps.filter fun p => (tget img.refetch l.shard []).contains p.piece else ps

/-- Note the scales of the pieces in their image record (R89). -/
def keepScales (ps : List Piece) (b : Bytes) (img : ImageRec) : ImageRec :=
  ps.foldl (fun (img : ImageRec) p =>
    if pieceScaled p then { img with scales := tset img.scales p.piece (pieceScales p (b.drop p.offset)) } else img) img

/-! ## Present shards (R231, R232) -/

/-- A shard has become present (R231, R232): it is no longer flagged. -/
def shardStored (n : Nat) (img : ImageRec) : ImageRec :=
  let present := insertUp n img.present
  let state := if img.state == .partly && present.length = img.shards.length then ImageState.complete else img.state
  { img with present, written := img.written.filter fun k => k ≠ n, refetch := tdel img.refetch n, state }

/-- The slices that shard `n` feeds in a placement: the flagged ones where it answers a refetch (R242). -/
def shardSlices (img : ImageRec) (n : Nat) (t : Target) : List SliceRec :=
  t.plan.slices.filter fun r => r.shard = n && (!img.present.contains n || (tget img.refetch n []).contains r.slice)

/-- Every bank that the shard's pieces feed is sealed (R232); `spill` says whether storage-mode banks count too. -/
def shardSealed (s : State) (img : ImageRec) (n : Nat) (spill : Bool) : Bool :=
  (imageTargets s img.hash true).all fun t => (shardSlices img n t).all fun r =>
    match t.places.find? fun q => q.slice = r.slice with
    | some q => (q.spill && !spill) || bankSealed s q.bank
    | none => true

/-- A written shard is present once its banks are sealed (R232), and a load ends once its compute-mode banks are (R235, R239).
DESIGN CHOICE (notes/assumptions/27.md): a load whose shard is programmed ends with SUCCESS also while a spilled bank of it waits,
unsealed, for the pieces of other shards; R235 does not say. -/
def settleImages (s : State) : State :=
  let s := s.model.images.foldl (fun s e =>
    e.2.written.foldl (fun s n => match tget? s.model.images e.1 with
      | some img => if shardSealed s img n true then setImage e.1 (shardStored n img) s else s
      | none => s) s) s
  s.model.loads.foldl (fun s e => match tget? s.model.images e.2.image with
    | some img => if e.2.sealing && (!img.written.contains e.2.shard || shardSealed s img e.2.shard false) then endLoad e.1 St.success e.2 s else s
    | none => s) s

/-- Seal the storage-mode banks of a target of which every piece has been programmed (R239). -/
def sealReady (img : ImageRec) (t : Target) (s : State) : State :=
  let banks := (t.places.filter fun q => q.spill).foldl (fun l q => insertUp q.bank l) []
  banks.foldl (fun s n =>
    let whole := (t.places.filter fun q => q.bank = n).all fun q =>
      (t.plan.slices.filter fun x => x.slice = q.slice).all fun x => img.present.contains x.shard || img.written.contains x.shard
    if whole && (bankOf s n).state == .programming then sealIfStorage n s else s) s

/-- The banks into which a load's pieces go. -/
def passBanks (ts : List Target) (ps : List Piece) : List Nat :=
  ts.foldl (fun l t => ps.foldl (fun l p => match placeOf t p with
    | some q => insertUp q.bank l
    | none => l) l) []

/-- Erase under Awl the banks of a pass that are not sealed (R237, R240); a shard that another piece of them holds is missing
again (R232). -/
def unsealPieces (k : Nat) (banks : List Nat) (s : State) : State :=
  let gone := banks.filter fun n => (bankOf s n).state == .programming
  let s := gone.foldl (fun s n => queueOp n (newOp s .eraseBank none 0 false false) s) s
  match tget? s.model.images k with
  | none => s
  | some img =>
    let feeds := fun (n : Nat) => (imageTargets s img.hash true).any fun t => (shardSlices img n t).any fun r =>
      t.places.any fun q => q.slice = r.slice && gone.contains q.bank
    setImage k { img with written := img.written.filter fun n => !feeds n } s

/-- Undo what a load has programmed (R232, R240): sealed banks are kept, a bank in PROGRAMMING is erased. -/
def undoLoad (l : Load) (s : State) : State :=
  match l.sealing, tget? s.model.images l.image with
  | true, some img =>
    let banks := (imageTargets s img.hash true).flatMap fun t =>
      (shardSlices img l.shard t).filterMap fun r => (t.places.find? fun q => q.slice = r.slice).map fun q => q.bank
    let s := unsealPieces l.image banks s
    match tget? s.model.images l.image with
    | some img => setImage l.image { img with written := img.written.filter fun n => n ≠ l.shard } s
    | none => s
  | _, _ => s

/-! ## Re-placement before a piece is programmed (R210, R242, R309) -/

/-- Move one slice from a bank to the place `t`, in every slot that shares it; where nothing is left on the old bank it is
released for erase. -/
def replaceSlice (from_ : Nat) (t : Placed) (s : State) : State :=
  let move := fun (q : Placed) => if q.bank = from_ && q.slice = t.slice then t else q
  let swap := fun (w : Swap) => { w with places := w.places.map move }
  let owners := (bankOf s from_).owners
  let s := { s with model := { s.model with slots := s.model.slots.map fun e =>
    (e.1, { e.2 with places := e.2.places.map move, oldPlaces := e.2.oldPlaces.map move, swap := e.2.swap.map swap }) } }
  let s := modBank t.bank (fun b => { b with owners := owners.foldl (fun l n => insertUp n l) b.owners, reserved := false,
                                             storageMode := t.spill }) s
  let s := bump (ob 0x7020 1) (raise .replaced 1 from_ s)
  let still := s.model.slots.any fun e =>
    (e.2.places ++ e.2.oldPlaces ++ ((e.2.swap.map fun w => w.places).getD [])).any fun q => q.bank = from_
  if still then s else releaseBank from_ s

/-- A piece's bank must be changed before it is programmed: a flagged slice's (R242), one that has left ERASED without the
piece (R210), one that is RETIRED (R309), or one that an in-place rewrite may not write any more (R76). A sealed bank holds the piece of
a load that was stopped (R240); a bank that a failed pass erases takes the next attempt (R237). -/
def mustMove (s : State) (l : Load) (t : Target) (q : Placed) : Bool :=
  let b := bankOf s q.bank
  if b.state == .retired then true
  else if l.sealing then false
  else if l.refetch then !(b.state == .erased)
  else if t.inPlace then b.state == .worn
  else match b.state with
    | .worn => true
    | .programming => !q.spill && b.ops = []
    | .erasing | .eraseSuspended => l.attempt = 1
    | _ => false

/-- A target as the state holds it now. -/
def targetNow (s : State) (t : Target) : Target :=
  let sl := slotOf s t.slot
  { t with places := if t.pending then ((sl.swap.map fun w => w.places).getD []) else sl.places }

/-- Re-place the piece of one place where it must be; none where no bank was found. -/
def movePiece (l : Load) (t : Target) (p : Piece) (s : State) : Option State :=
  let t := targetNow s t
  match placeOf t p with
  | none => some s
  | some q =>
    if !mustMove s l t q then some s
    else match freshBank s t.slot t.plan t.places q.bank p.piece q.spill none with
      | some n => some (replaceSlice q.bank { q with bank := n } s)
      | none => none

/-- Re-place every piece of a load that needs it; none where no bank was found. -/
def movePieces (l : Load) (ps : List Piece) (ts : List Target) (s : State) : Option State :=
  ts.foldl (fun o t => ps.foldl (fun o p => o.bind (movePiece l t p)) o) (some s)

/-! ## The program pass of a weight shard (R237, R239, R242, R309) -/

/-- A stopped rewrite front goes on once the shards that its layer needs have been stored (R256). -/
def resumeFront (img : ImageRec) (s : State) : State :=
  let stored := fun (t : Target) (y : Nat) => (shardsOfLayer t y).all fun k => img.present.contains k || img.written.contains k
  let one := fun (n : Nat) (w : Swap) =>
    let t : Target := { slot := n, plan := w.plan, places := w.places, pending := true, inPlace := true }
    if w.imageHash = img.hash && w.front.head?.all (stored t) then { w with stopped := false } else w
  { s with model := { s.model with slots := s.model.slots.map fun e => (e.1, { e.2 with swap := e.2.swap.map (one e.1) }) } }

/-- The pieces of a shard are programmed: the load waits for the seals of its banks (R232, R239). -/
def passWritten (a : Nat) (l : Load) (ps : List Piece) (b : Bytes) (s : State) : State :=
  match tget? s.model.images l.image with
  | none => s
  | some img =>
    let img := keepScales ps b { img with written := insertUp l.shard img.written }
    let s := setImage l.image img { s with model := { s.model with loads := tset s.model.loads a { l with sealing := true } } }
    let s := (imageTargets s img.hash true).foldl (fun s t => sealReady img t s) s
    settleImages (resumeFront img s)

/-- Program the pieces of a weight shard; in a load that waits for its seals, those that had to be re-placed (R309). -/
def weightPass (a : Nat) (l : Load) (img : ImageRec) (r : ShardRec) (b : Bytes) (sound : Bool) (s : State) : State :=
  let ps := loadPieces l img r b
  let banks := fun (s : State) => passBanks (imageTargets s img.hash l.refetch) ps
  match movePieces l ps (imageTargets s img.hash l.refetch) s with
  | none => endLoad a St.capacity l (undoLoad l s)
  | some s =>
    let ts := imageTargets s img.hash l.refetch
    if !(ts.all fun t => ps.all fun p => placeReady s l t p) then s
    else
      let s := ts.foldl (fun s t => ps.foldl (fun s p => programPiece l t p (b.drop p.offset) s) s) s
      if l.sealing then (if shardMatches r b sound then settleImages s else retryLoad a l (undoLoad l s))
      else if !shardMatches r b sound then retryLoad a l (unsealPieces l.image (banks s) s)
      else passWritten a l ps b s

/-! ## The adapter pool (R260) -/

/-- The lines of the adapter pool that a load may still program (R75, R260): those of its banks that are not sealed. -/
def poolLines (s : State) : List (Nat × Nat) :=
  let used := s.model.adapters.flatMap fun e => e.2.lines
  (s.model.pool.filter fun n => !bankSealed s n).flatMap fun n => ((List.range 768).map fun i => (n, i)).filter fun x => !used.contains x

/-- Grow the adapter pool until it holds `n` free lines (R260): with ERASED banks outside the swap reserve, sister
banks of placed ones last (R207). -/
def growPool (n : Nat) : Nat → State → Option State
  | 0, _ => none
  | fuel + 1, s =>
    if n ≤ (poolLines s).length then some s
    else if dictNum s (ob 0x7060 1) ≤ s.model.pool.length || freeBanks s ≤ reserveBanks s then none
    else match bestOf s [fun k => targetOk s (nBanks s) k && (bankOf s (sister k)).owners = [], fun k => targetOk s (nBanks s) k] with
      | none => none
      | some k =>
        let s := modBank k (fun b => { storageBegin b with reserved := true }) s
        growPool n fuel { s with model := { s.model with pool := insertUp k s.model.pool } }

/-- Write an adapter's payload into whole lines of the pool (R260). -/
def writeAdapter (slot : Nat) (x : Adapter) (d : Bytes) (s : State) : Option State :=
  let n := ceilDiv d.length 512
  match growPool n (n + 1) s with
  | none => none
  | some s =>
    let lines := (poolLines s).take n
    let s := (lines.zip (chunksOf 512 d.length d)).foldl (fun s e =>
      modBank e.1.1 (fun b => { writeLine e.1.2 (fit e.2 512) (storageBegin b) with reserved := false }) s) s
    let x := { x with lines, bytes := d.length }
    some { s with model := { s.model with adapters := tset s.model.adapters slot x } }

/-- Seal the pool banks that a load has programmed (R74, R232). DESIGN CHOICE (notes/assumptions/27.md): a load seals them at its
end, so a later load takes fresh banks. -/
def sealPool (s : State) : State :=
  s.model.pool.foldl (fun s n => if (bankOf s n).state == .programming then sealIfStorage n s else s) s

/-- Give back an adapter's lines; a pool bank that then holds none is erased and returned (R233, R260). -/
def dropAdapter (slot : Nat) (s : State) : State :=
  let lines := ((tget? s.model.adapters slot).map fun x => x.lines).getD []
  let s := cacheDrop slot { s with model := { s.model with adapters := tdel s.model.adapters slot } }
  let banks := lines.foldl (fun l e => insertUp e.1 l) []
  banks.foldl (fun s n =>
    if s.model.adapters.any fun e => e.2.lines.any fun x => x.1 = n then s
    else releaseBank n { s with model := { s.model with pool := s.model.pool.filter fun k => k ≠ n } }) s

/-- Store the adapters of a shard (R260): all of them or none; two that name one slot find it in use. -/
def adapterPass (a : Nat) (l : Load) (img : ImageRec) (r : ShardRec) (b : Bytes) (sound : Bool) (s : State) : State :=
  let ps := shardPieces r b
  let named := ps.map fun p => (fld b p.offset 4, adapterOf l.image p.piece img.target (b.drop p.offset), p)
  let mine := fun (n : Nat) => match tget? s.model.adapters n with
    | some x => x.image = l.image && l.refetch
    | none => true
  if !(named.all fun e => mine e.1) || !decide ((named.map Prod.fst).Nodup) then endLoad a St.resourceLimit l s
  else if !shardMatches r b sound then retryLoad a l s
  else
    let usable := img.state == .committed
    let s₁ := named.foldl (fun s e => dropAdapter e.1 s) s
    let stored := named.foldl (fun (o : Option State) e => o.bind fun s =>
      writeAdapter e.1 { e.2.1 with usable } (sub b e.2.2.offset (adapterLen e.2.1)) s) (some s₁)
    match stored with
    | none => endLoad a St.resourceLimit l s
    | some s => endLoad a St.success l (setImage l.image (shardStored l.shard img) (sealPool s))

/-- PROGRAM_PASS_DONE (R235 check 7, R237, R239, R242, R260, R309): every piece has been programmed from the buffer as read now;
issued again while the banks wait for their seals, the pieces that had to be re-placed. While pulses are paused no pass ends (R285). -/
def execProgramPassDone (a : Fin 4096) (shard : HostRead) (s : State) : Res :=
  match loadOf s a.val with
  | none => .next s
  | some (l, img, r) =>
    if !l.programming || s.awl.paused || 1536 ≤ slotsUsed s then .next s
    else match passData (loadRoom s a.val) shard with
      | none =>
        let s := undoLoad l s
        .next (finishAt a.val St.hostAccess 0x10 { s with model := { s.model with loads := tdel s.model.loads a.val } })
      | some (b, sound) =>
        if img.adapters then .next (adapterPass a.val l img r b sound s)
        else .next (weightPass a.val l img r b sound s)

/-- A load is cancelled, or the slot that it feeds is released (R240): sealed banks are kept, a bank in PROGRAMMING is erased. -/
def stopLoad (a : Nat) (s : State) : State :=
  match tget? s.model.loads a with
  | some l => endLoad a St.cancelled l (undoLoad l s)
  | none => s

/-! ## Commit, drop, refetch (R233, R241, R242, R260) -/

/-- Generation 1 at the first commit of a slot's image (R245). -/
def firstGen (sl : Slot) : Slot := if sl.gen = 0 then { sl with gen := 1 } else sl

/-- Commit a COMPLETE image (R241): PLACED slots become RESIDENT, pending swaps are ready, adapters usable. -/
def commitImage (k : Nat) (r : ImageRec) (s : State) : State :=
  let s := setImage k { r with state := .committed } s
  let ready := fun (w : Swap) => if w.imageHash = r.hash then { w with committed := true } else w
  let one := fun (sl : Slot) =>
    let sl := { sl with swap := sl.swap.map ready }
    if sl.state == .placed && sl.imageHash = r.hash then firstGen { sl with state := .resident } else sl
  let adapter := fun (x : Adapter) => if x.image = k then { x with usable := true } else x
  { s with model := { s.model with
    slots := s.model.slots.map (fun e => (e.1, one e.2)), adapters := s.model.adapters.map (fun e => (e.1, adapter e.2)) } }

/-- COMMIT_IMAGE (R241, R260). -/
def execCommitImage (a : Fin 4096) (hash : HostRead) (s : State) : Res :=
  match cmdAt s a.val 0x11 with
  | none => .next s
  | some _ =>
    match hostData 48 hash with
    | none => .next (finishAt a.val St.hostAccess 0x20 s)
    | some h =>
      match imageNamed s h with
      | none => .next (finishSt a.val St.imageUnknown s)
      | some (k, r) =>
        match r.state with
        | .partly =>
          let missing := (List.range r.shards.length).filter fun n => !r.present.contains n
          .next (finish a.val { status := St.imagePartial, result := missing.length + missing.headD 0 * 2 ^ 32 } s)
        | _ => .next (finishSt a.val St.success (commitImage k r s))

/-- An open context names an adapter of the image (R233). -/
def adapterInUse (s : State) (k : Nat) : Bool :=
  (s.hbr.valid.filter fun g => g % 4 = 0 && g / 4 < 262144).any fun g =>
    fld (ctxRecord s (g / 4)) 0 1 = 1 && match ctxAdapter s (g / 4) with
      | some x => x.image = k
      | none => false

/-- A Last slot or a pending swap uses an image (R233). -/
def imageUsed (s : State) (hash : Digest) : Bool :=
  s.model.slots.any fun e => !(e.2.state == .free) && (e.2.imageHash = hash || e.2.oldImage = hash ||
    (e.2.swap.map fun w => decide (w.imageHash = hash)).getD false)

/-- DROP_IMAGE (R233, R260). -/
def execDropImage (a : Fin 4096) (hash : HostRead) (s : State) : Res :=
  match cmdSub s a.val 0x19 3 with
  | none => .next s
  | some _ =>
    match hostData 48 hash with
    | none => .next (finishAt a.val St.hostAccess 0x20 s)
    | some h =>
      match imageNamed s h with
      | none => .next (finishSt a.val St.imageUnknown s)
      | some (k, r) =>
        if imageUsed s r.hash || adapterInUse s k || s.model.loads.any fun l => l.2.image = k then
          .next (finishSt a.val St.busy s)
        else
          let mine := (s.model.adapters.filter fun e => e.2.image = k).map Prod.fst
          let s := mine.foldl (fun s n => dropAdapter n s) s
          .next (finishSt a.val St.success { s with model := { s.model with images := tdel s.model.images k } })

/-- Raise the REFETCH event of every flagged shard (R242). -/
def raiseRefetch (s : State) : State :=
  s.model.images.foldl (fun s e => e.2.refetch.foldl (fun s f => raise .refetch 12 (e.1 * 65536 + f.1) s) s) s

/-- REFETCH_REMINDER (R242): 10 s of Tide have passed while Uzomel runs. -/
def execRefetchReminder (s : State) : Res := if uzomelRuns s then .next (raiseRefetch s) else .next s

end Sys2Proof.Machine
end

