-- ==== Sys2Proof/Machine/Plan.lean ====
section
/-! DEFINITION. The limits that the contents of a Last must keep (R541): R92, R94, R99, R109, R110, R119, R125, R128, R129, R178, R184, R185, R200
and the tensors that its steps hand to one another. -/

namespace Sys2Proof.Machine

/-- A join's lanes reach another over at most `fuel` forwards (R97). -/
def joinReaches (p : LastPlan) : Nat → Nat → Nat → Bool
  | 0, a, b => decide (a = b)
  | fuel + 1, a, b => decide (a = b) || p.joins.any fun (j : JoinPlan) => decide (j.join = a) && match j.ending with
    | .forward _ n => joinReaches p fuel n b
    | .round _ _ _ _ => false

/-- A join feeds another: it is that join, or its lanes reach it over forwards (R97). -/
def joinFeeds (p : LastPlan) (a b : Nat) : Bool := joinReaches p p.joins.length a b

/-- The lane of its join at which a slice begins. -/
def sliceLane (p : LastPlan) (r : SliceRec) : Nat :=
  r.firstOutput - ((p.joins.find? fun (j : JoinPlan) => j.join = r.join).map fun (j : JoinPlan) => j.firstOutput).getD 0

/-- Elements of the input tensor of a join (R178): those of the input stream that fills its Lace. -/
def joinElems (p : LastPlan) (j : JoinPlan) : Nat :=
  ((p.streams.filter fun (x : StreamPlan) => !x.output && decide (x.lace = j.input)).map fun (x : StreamPlan) => x.elems).foldl max 0

/-- Rows that a join adds to lane `k` (R94): those of its slices, and, where other modules of the group send partials to it, all
row blocks of its input tensor, of which its own slices are a part. DEDUCED (notes/assumptions/27.md). -/
def joinRows (p : LastPlan) (j : JoinPlan) (k : Nat) : Nat :=
  let own := ((p.slices.filter fun r => decide (r.join = j.join) && decide (sliceLane p r ≤ k) &&
    decide (k < sliceLane p r + r.outputs)).map fun r => r.rows).sum
  if j.remotes = [] then own else max own (joinElems p j)

/-- The reduction length of lane `k` of a join (R94): what every join that feeds it adds. -/
def reductionLength (p : LastPlan) (join k : Nat) : Nat :=
  ((p.joins.filter fun (j : JoinPlan) => joinFeeds p j.join join).map fun j => joinRows p j k).sum

/-- No reduction is longer than 2^24 elements (R94). The length changes only where a slice begins. -/
def reductionsOk (p : LastPlan) : Bool :=
  p.joins.all (fun (j : JoinPlan) => decide (reductionLength p j.join 0 ≤ 2 ^ 24) && p.slices.all fun r =>
    !joinFeeds p r.join j.join || decide (reductionLength p j.join (sliceLane p r) ≤ 2 ^ 24)) &&
  p.layers.all fun (y : LayerPlan) => match y.kind with
    | .exact _ _ _ len => decide (len ≤ 2 ^ 24)
    | _ => true

/-- A format code of R109. -/
def fmtKnown (f : Nat) : Bool := decide (1 ≤ f) && decide (f ≤ 13)

/-- An array input that PLANES takes, or one that ALIGN takes (R109). -/
def planesInput (f : Nat) : Bool := [2, 3, 4].contains f
def alignInput (f : Nat) : Bool := [5, 11, 12].contains f

/-- A stream's conversion, formats and planes agree (R110, R119, R125, R183). -/
def streamFormatsOk (x : StreamPlan) : Bool :=
  let a := x.fmtIn.toNat
  let b := x.fmtOut.toNat
  match x.conv.toNat with
  | 0 => fmtKnown a && a = b && x.planes = 0
  | 1 => planesInput a && x.planes = fmtWidth a
  | 2 => alignInput a && decide (8 ≤ x.planes) && decide (x.planes ≤ 24)
  | 3 => widenPair a b && x.planes = 0
  | 4 => fmtKnown a && a = b && x.planes = 0
  | _ => false

/-- A requantisation pair (R128): m from 1 to 65,535, e_y a signed 16-bit number. -/
def requantOk (m : Nat) (ey : Int) : Bool := decide (1 ≤ m) && decide (m < 65536) && decide (-32768 ≤ ey) && decide (ey < 32768)

/-- No MX output block of a join spans two joins (R129): its outputs begin at a block. -/
def mxJoinOk (f : Nat) (j : JoinPlan) : Bool := !fmtScaled f || decide (j.firstOutput % 32 = 0)

/-- The formats of the joins and steps (R110, R128, R129). -/
def resultsOk (p : LastPlan) : Bool :=
  p.joins.all (fun (j : JoinPlan) => match j.ending with
    | .round f m ey _ => fmtKnown f.toNat && requantOk m ey && mxJoinOk f.toNat j
    | .forward rank _ => decide (rank < 8)) &&
  p.layers.all fun (y : LayerPlan) => !y.onShank || (fmtKnown y.outFmt && requantOk y.m y.ey && match y.kind with
    | .dot x w _ => fmtKnown x.toNat && fmtKnown w.toNat
    | .exact x w _ _ => arrayInput x.toNat && decide (0 < fmtCols w.toNat)
    | _ => true)

/-- A join: at most 2,048 outputs (R92, R99), and partials from ranks of a group (R95). -/
def joinOk (j : JoinPlan) : Bool :=
  decide (1 ≤ j.outputs) && decide (j.outputs ≤ 2048) && j.remotes.all fun n => decide (n < 8)

/-- A Lace: its depth and its consumer ports (R178). -/
def laceOk (x : LacePlan) : Bool :=
  decide (1 ≤ x.depth) && decide (x.depth ≤ 16) && decide (1 ≤ x.ports) && decide (x.ports ≤ 64)

/-- A stream's fetch-ahead depth (R183, R185). -/
def streamOk (x : StreamPlan) : Bool := streamFormatsOk x && decide (1 ≤ x.depth) && decide (x.depth ≤ 16)

/-- Every slice record is listed once, and feeds the join of the JOINS section that lists it, inside its outputs (R198, R200). -/
def slicesJoined (p : LastPlan) : Bool :=
  decide ((p.slices.map fun r => r.slice).Nodup) &&
  p.slices.all (fun r => p.joins.any fun (j : JoinPlan) => j.join = r.join && j.slices.contains r.slice && j.layer = r.layer &&
    decide (j.firstOutput ≤ r.firstOutput) && decide (r.firstOutput + r.outputs ≤ j.firstOutput + j.outputs)) &&
  p.joins.all fun (j : JoinPlan) => j.slices.all fun n => p.slices.any fun r => r.slice = n && r.join = j.join

/-- What the joins and the Shank step of a Last write into a Lace for one vector: format and outputs. -/
def laceWrites (p : LastPlan) (lace : Nat) : List (Nat × Nat) :=
  (p.joins.filterMap fun (j : JoinPlan) => match j.ending with
    | .round f _ _ l => if l = lace then some (f.toNat, j.outputs) else none
    | .forward _ _ => none) ++
  (p.layers.filter fun (y : LayerPlan) => y.onShank && y.outLace = lace).map fun (y : LayerPlan) => (y.outFmt, y.outputs)

/-- The bytes of `n` elements of a vector, scales included (R114). -/
def vectorBytes (f n : Nat) : Nat := packedBytes f n + if fmtScaled f then ceilDiv n 32 else 0

/-- What a Lace carries for one vector, in bytes. -/
def laceCarries (p : LastPlan) (x : LacePlan) : Nat :=
  match x.producer with
  | .stream n => ((p.streams.filter fun (y : StreamPlan) => y.stream = n).map fun (y : StreamPlan) => vectorBytes y.fmtOut.toNat y.elems).sum
  | .layer => ((laceWrites p x.lace).map fun e => vectorBytes e.1 e.2).sum

/-- The elements that the joins of an array layer read of a vector. -/
def laceReads (p : LastPlan) (lace : Nat) : Nat :=
  (p.slices.filter fun r => p.joins.any fun (j : JoinPlan) => j.join = r.join && j.input = lace).foldl
    (fun n r => max n (1024 * r.rowBlock + r.rows)) 0

/-- The tensor in a Lace is the one that its consumers read (R110, R541): an output stream's in elements and format, an array
layer's as the planes that an input stream makes, a Shank step's in bytes. A module of a group may hold a part of the layer's
row blocks only. -/
def laceTensorOk (p : LastPlan) (modules : Nat) (x : LacePlan) : Bool :=
  let writes := laceWrites p x.lace
  (match x.producer with
    | .stream _ => true
    | .layer => p.streams.all fun (y : StreamPlan) => !x.drains.contains y.stream ||
        (writes.all (fun e => e.1 = y.fmtIn.toNat) && (writes.map Prod.snd).sum = y.elems)) &&
  (let n := laceReads p x.lace
   n = 0 || match x.producer with
    | .layer => false
    | .stream k => p.streams.any fun (y : StreamPlan) => y.stream = k && (y.conv = 1 || y.conv = 2) &&
        (if modules = 1 then decide (n = y.elems) else decide (n ≤ y.elems))) &&
  p.layers.all fun (y : LayerPlan) => !(y.onShank && x.compute && x.layer = y.layer) || y.inputBytes.contains (laceCarries p x) ||
    (match x.producer with
      | .stream k => p.streams.any fun (z : StreamPlan) => z.stream = k && (z.conv = 1 || z.conv = 2)
      | .layer => false)

/-- A tensor that an output stream writes and an input stream reads is one tensor (R541). -/
def streamTensorsOk (p : LastPlan) : Bool :=
  p.streams.all fun (w : StreamPlan) => p.streams.all fun (r : StreamPlan) =>
    !w.output || r.output || w.tensor = 0 || r.tensor ≠ w.tensor || (r.fmtIn = w.fmtOut && r.elems = w.elems && r.bytes = w.bytes)

/-- The contents of a Last keep the limits of the manual (check 2 of R204, R541). -/
def planOk (p : LastPlan) (modules : Nat) : Bool :=
  reductionsOk p && resultsOk p && p.joins.all joinOk && p.laces.all laceOk && p.streams.all streamOk && slicesJoined p &&
    p.laces.all (laceTensorOk p modules) && streamTensorsOk p && p.mcasts.all (fun (m : McastPlan) => decide (m.sender < 8)) &&
    decide (1 ≤ p.outDen) && decide (p.privateBytes ≤ 96)

end Sys2Proof.Machine
end

