-- ==== Sys2Proof/Machine/Place.lean ====
section
/-! DEFINITION. Placement and binding (R197 to R221): the checks of a Last, the report of a placement, ATTACH and DETACH,
queues and segments, re-placement. Choices of the model: notes/assumptions/28.md (DEDUCED). -/

namespace Sys2Proof.Machine

/-! ## Last files (R197, R198, R200, R541) -/

/-- Section `i` of a Last file: TYPE, LENGTH, OFFSET. -/
def lastSection (b : Bytes) (i : Nat) : Nat × Nat × Nat :=
  (fld b (0x80 + 16 * i) 4, fld b (0x84 + 16 * i) 4, fld b (0x88 + 16 * i) 8)

def sectionBytes (b : Bytes) (i : Nat) : Bytes := sub b (lastSection b i).2.2 (lastSection b i).2.1

/-- The header, FILE_BYTES and the section table locate a SIGNATURES section of the form of R541. -/
def signaturesLocated (b : Bytes) : Bool :=
  let x := lastSection b 8
  fld b 0 4 = 0x544C5856 && fld b 4 2 = 1 && fld b 6 2 = 9 && fld b 8 8 = b.length && x.1 = 9 && x.2.1 = 16672 &&
    x.2.2 % 64 = 0 && x.2.2 + 16672 = b.length

/-- The Last hash (R197). -/
def lastHashOf (b : Bytes) : Digest := Config.sha384 (b.take (lastSection b 8).2.2)

/-- The publisher key slot that the SIGNATURES section names (R198). -/
def lastKeySlot (b : Bytes) : Nat := fld b (lastSection b 8).2.2 1

/-- Check 1 of R204. -/
def lastSigned (s : State) (b : Bytes) : Bool :=
  let o := (lastSection b 8).2.2
  publisherSigned s (lastKeySlot b) (lastHashOf b) (sub b (o + 0x40) 384) (sub b (o + 0x1C0) 16224)

/-- Two runs of bytes do not overlap. -/
def apart (a la b lb : Nat) : Bool := a + la ≤ b || b + lb ≤ a

/-- The section table is well formed (R541). -/
def tableWellFormed (b : Bytes) : Bool :=
  let xs := (List.range 9).map (lastSection b)
  (List.range 9).all fun i =>
    let x := lastSection b i
    x.1 = i + 1 && x.2.2 % 64 = 0 && x.2.2 + x.2.1 ≤ b.length && 0x80 + 144 ≤ x.2.2 &&
      (List.range 9).all fun j => i = j || apart x.2.2 x.2.1 (xs.getD j (0, 0, 0)).2.2 (xs.getD j (0, 0, 0)).2.1

/-- Slice record `i` of a SLICES section (R200). -/
def sliceRecord (b : Bytes) (i : Nat) : SliceRec :=
  let o := 32 * i
  { slice := fld b o 4, layer := fld b (o + 4) 4, spillGroup := fld b (o + 8) 2, format := BitVec.ofNat 8 (fld b (o + 0xA) 1),
    flags := BitVec.ofNat 8 (fld b (o + 0xB) 1), rowBlock := fld b (o + 0xC) 2, rows := fld b (o + 0xE) 2,
    firstOutput := fld b (o + 0x10) 4, outputs := fld b (o + 0x14) 2, join := fld b (o + 0x18) 4, shard := fld b (o + 0x1C) 4 }

def sliceRecords (sec : Bytes) : List SliceRec := (List.range (sec.length / 32)).map (sliceRecord sec)

/-- A slice record lies inside the ranges of R200. -/
def sliceOk (r : SliceRec) : Bool :=
  let cols := fmtCols r.format.toNat
  decide (0 < cols) && r.flags.toNat < 8 && 1 ≤ r.rows && r.rows ≤ 1024 && 1 ≤ r.outputs && cols * r.outputs ≤ 1024

/-- The SLICES section is whole records with their reserved bytes 0 (R200). -/
def slicesOk (sec : Bytes) : Bool :=
  sec.length % 32 = 0 && (List.range (sec.length / 32)).all (fun i => fld sec (32 * i + 0x16) 2 = 0) &&
    (sliceRecords sec).all sliceOk

/-- The header is well formed (R197). -/
def headerOk (b : Bytes) : Bool :=
  1 ≤ fld b 0x44 1 && fld b 0x44 1 ≤ 8 && fld b 0x45 1 ≤ 1 && fld b 0x46 1 < 4 && zeroAt b 0x47 57

/-- A checked Last: what its header and sections hold. -/
structure LastFile where
  hash : Digest
  image : Digest
  keySlot : Nat
  modules : Nat
  strict : Bool
  parts : BitVec 8
  minUzomel : Nat
  plan : LastPlan
  slices : Bytes

/-- What Uzomel reads of a Last (R198, R541), or none where check 2 of R204 fails. -/
def readLast (b : Bytes) : Option LastFile :=
  let sec := sectionBytes b 1
  let sigs := sectionBytes b 8
  match Config.lastPlan b with
  | none => none
  | some p =>
    if headerOk b && tableWellFormed b && slicesOk sec && zeroAt sigs 1 63 && planOk { p with slices := sliceRecords sec } (fld b 0x44 1) then
      some { hash := lastHashOf b, image := sub b 0x10 48, keySlot := lastKeySlot b, modules := fld b 0x44 1,
             strict := fld b 0x45 1 = 1, parts := BitVec.ofNat 8 (fld b 0x46 1), minUzomel := fld b 0x40 4,
             plan := { p with slices := sliceRecords sec }, slices := sec }
    else none

/-- Another slot under which the image is resident, committed (R202, R203). -/
def residentOn (s : State) (hash : Digest) : Option (Nat × Slot) :=
  if (imageNamed s hash).any fun e => e.2.state == .committed then
    s.model.slots.find? fun e => (e.2.state == .resident || e.2.state == .bound) && e.2.imageHash = hash
  else none

/-- Checks 1 to 4 of R204: a status, or the Last. -/
def checkLast (s : State) (b : Bytes) : Sum Nat LastFile :=
  if !signaturesLocated b then .inl St.invalidLast
  else if !lastSigned s b then .inl St.signatureInvalid
  else match readLast b with
    | none => .inl St.invalidLast
    | some f =>
      if s.sec.release.toNat < f.minUzomel || !f.parts.getLsbD (if s.part816 then 0 else 1) then .inl St.unsupported
      else match imageNamed s f.image with
        | none => .inl St.imageMismatch
        | some (_, r) =>
          if r.adapters then .inl St.imageMismatch
          else match residentOn s f.image with
            | some (_, sl) => if sl.slicesSection = f.slices then .inr f else .inl St.imageMismatch
            | none => .inr f

/-! ## The expected loss (R213) -/

/-- Σ a of R213, in units of 1 / (41 × 10⁹) ns. -/
def addedTime (p : LastPlan) (l : List Placed) : Int :=
  ((spilledGroups p l).map fun g =>
    match p.spills.find? fun x => x.group = g with
    | none => 0
    | some x =>
      let bytes := 131072 * (p.slices.filter fun r => r.spillGroup = g).length
      let longest : Int := max (102500 * bytes : Nat) (400 * x.ops : Nat)
      (x.usesMilli : Int) * (longest - 41000000 * (x.arrayNs : Int))).sum

/-- The expected throughput loss in permille, rounded up (R213). DESIGN CHOICE (notes/assumptions/28.md): where the sum of the added
times is not positive the loss is 0; the rule gives no floor. -/
def expectedLoss (p : LastPlan) (l : List Placed) : Nat :=
  let a := addedTime p l
  let t : Int := 41000000000 * (p.refNs : Int)
  if a ≤ 0 then 0 else ((1000 * a + (t + a) - 1) / (t + a)).toNat

/-! ## The placement report (R214) -/

/-- The 64-byte report of a placement. -/
def placementReport (s : State) (slot state shownSlot : Nat) (p : LastPlan) (l : List Placed) (shared : Bool) (shortfall : Nat) : Bytes :=
  let islands := choiceIslands l
  let laps := overlapSlots s slot islands
  let spilled := (l.filter fun q => q.spill).length
  let left := freeBanks s - (if shared then 0 else (choiceBanks l).length)
  let past := l.any fun q => 30000 ≤ (bankOf s q.bank).wear
  let flags := b2n (decide (spilled ≠ 0)) + 2 * b2n (decide (laps ≠ [])) + 4 * b2n (decide (left < reserveBanks s)) + 8 * b2n past +
    16 * b2n shared
  leBytes 1 shownSlot ++ leBytes 1 state ++ leBytes 2 flags ++ leBytes 4 p.slices.length ++
    leBytes 4 (choiceBanks (l.filter fun q => !q.spill)).length ++ leBytes 4 (choiceBanks (l.filter fun q => q.spill)).length ++
    leBytes 4 islands.length ++ leBytes 2 (spilledGroups p l).length ++ leBytes 2 (expectedLoss p l) ++
    leBytes 8 (131072 * spilled) ++ leBytes 4 shortfall ++ leBytes 4 (min left (reserveBanks s)) ++
    leBytes 8 (laps.map fun n => 2 ^ n).sum ++ List.replicate 16 0

/-- The report of a placement that failed (R214): the reserve and RESERVE_SHORT as the banks stand; a Last that PLACE could not
read has no slices to show. -/
def failedReport (s : State) (p : Option LastPlan) (shortfall : Nat) : Bytes :=
  let n := (p.map fun p => p.slices.length).getD 0
  leBytes 1 0xFF ++ leBytes 1 0 ++ leBytes 2 (4 * b2n (decide (freeBanks s < reserveBanks s))) ++ leBytes 4 n ++ List.replicate 24 0 ++
    leBytes 4 shortfall ++ leBytes 4 (min (freeBanks s) (reserveBanks s)) ++ List.replicate 24 0

/-- The Last that a file of which a check fails would place, as far as it can be read (R214). -/
def reportPlan (b : Bytes) : Option LastPlan :=
  if signaturesLocated b && tableWellFormed b then
    (Config.lastPlan b).map fun (p : LastPlan) => { p with slices := sliceRecords (sectionBytes b 1) }
  else none

/-- Write a report to the host buffer that the command names. -/
def sendReport (c : Cmd) (rep : Bytes) (s : State) : State :=
  sendPort (cmdPort s c) (.hostWrite (cmdPort s c) (BitVec.ofNat 64 (fld c.entry 0x20 8)) rep false) s

/-! ## PLACE (R202 to R204, R214) -/

/-- Reserve the banks of a new placement; spilled slices take storage mode (R70, R204, R211). -/
def takeBanks (slot : Nat) (l : List Placed) (s : State) : State :=
  l.foldl (fun s q => modBank q.bank (fun b => { b with owners := insertUp slot b.owners, storageMode := q.spill }) s) s

/-- The slot of a Last that has been placed. -/
def newSlot (f : LastFile) (st : LastState) (places : List Placed) (rep : Bytes) : Slot :=
  { state := st, lastHash := f.hash, imageHash := f.image, keySlot := f.keySlot, strict := f.strict, modules := f.modules,
    parts := f.parts, plan := some f.plan, slicesSection := f.slices, places, report := rep, gen := if st = .resident then 1 else 0 }

def setSlot (n : Nat) (sl : Slot) (s : State) : State :=
  { s with model := { s.model with slots := tset s.model.slots n sl } }

/-- A PLACE fails: the report, then the completion. -/
def placeFails (a : Nat) (c : Cmd) (st : Nat) (rep : Bytes) (s : State) : State :=
  finish a { status := st, result := 0xFF } (sendReport c rep s)

/-- A free Last slot; a slot that is not listed is FREE (R201). -/
def freeSlotNumber (s : State) : Option Nat := (List.range 64).find? fun n => (slotOf s n).state == .free

/-- PLACE of a Last that passed checks 1 to 4 (R203 to R213). -/
def placeChecked (a : Nat) (c : Cmd) (f : LastFile) (choice : List Placed) (s : State) : State :=
  match freeSlotNumber s with
  | none => placeFails a c St.resourceLimit (failedReport s (some f.plan) 0) s
  | some n =>
    let done := fun (st : LastState) (l : List Placed) (rep : Bytes) (s : State) =>
      finish a { status := St.success, result := n } (sendReport c rep (setSlot n (newSlot f st l rep) s))
    match residentOn s f.image with
    | some (_, other) =>
      let rep := placementReport s n 2 n f.plan other.places true 0
      let s := other.places.foldl (fun s q => modBank q.bank (fun b => { b with owners := insertUp n b.owners }) s) s
      done .resident other.places rep s
    | none =>
      match placerChoice s n f.plan false [] (fun _ => none) choice with
      | none => placeFails a c St.capacity (failedReport s (some f.plan) (shortfallBanks s f.plan)) s
      | some l =>
        if dictNum s (ob 0x7011 1) < expectedLoss f.plan l then
          placeFails a c St.spillRefused (placementReport s n 0 0xFF f.plan l false 0) s
        else done .placed l (placementReport s n 1 n f.plan l false 0) (placedAnew f.image (takeBanks n l s))

/-- PLACE (R197 to R214): every one writes its report before its completion. -/
def execPlace (a : Fin 4096) (file : HostRead) (choice : List Placed) (s : State) : Res :=
  match cmdSub s a.val 0x18 0 with
  | none => .next s
  | some c =>
    match hostData (fld c.entry 0x18 8) file with
    | none => .next (finishAt a.val St.hostAccess 0x10 (sendReport c (failedReport s none 0) s))
    | some b =>
      match checkLast s b with
      | .inl st => .next (placeFails a.val c st (failedReport s (reportPlan b) 0) s)
      | .inr f => .next (placeChecked a.val c f choice s)

/-! ## The order of bind operations, drains (R218, R219) -/

/-- What a bind or unbind command names (R219): slots, segments from 64 up, queue pairs from 128 up. -/
def bindNames (s : State) (e : Bytes) : List Nat :=
  let slot := entSlot e
  if entOpcode e = 0x18 then
    match entSubop e with
    | 1 => slot :: overlapSlots s slot (islandSet s slot)
    | 2 => [128 + entArg e]
    | 3 => (64 + entArg e) :: (if fld e 0x10 1 = 3 then [fld e 0x12 2] else if fld e 0x10 1 = 4 then (groupSlot s (fld e 0x12 2)).toList else [])
    | _ => []
  else if entOpcode e = 0x19 then
    match entSubop e with
    | 0 => slot :: overlapSlots s slot (islandSet s slot)
    | 1 => slot :: overlapSlots s slot (islandSet s slot)
    | 2 => [64 + entArg e]
    | _ => []
  else []

/-- A bind operation admitted earlier that names something in common has not completed (R219). -/
def bindWaits (s : State) (c : Cmd) : Bool :=
  let mine := bindNames s c.entry
  s.que.cmds.any fun e => decide (e.2.order < c.order) && !(e.2.stage == .parked) &&
    (bindNames s e.2.entry).any fun n => mine.contains n

/-- A swap of the slot is in progress (R219, R252, R257): until the erases of the banks that it left have ended. -/
def swapBusy (s : State) (sl : Slot) : Bool :=
  match sl.swap with
  | none => false
  | some w =>
    !(w.mode == .shadow && w.switched && sl.oldGen.isNone && w.places.all fun q => (bankOf s q.bank).ops = [])

/-- A Last has no launch, and no admitted request, that is not over (R216, R218). -/
def slotDrained (s : State) (n : Nat) : Bool :=
  !(s.model.launches.any fun l => l.2.slot = n) && !(s.que.reqs.any fun r => r.2.slot = n) &&
    !(s.que.cmds.any fun c => entOpcode c.2.entry = 1 && c.2.stage == .admitted &&
      groupSlot s c.2.group.toNat = some n)

/-- The drain so far, in µs (R218). -/
def drainUs (s : State) (c : Cmd) : Nat := (tideOf s - c.drainFrom).toNat / 1000

/-- Begin to wait for a drain. -/
def startDrain (a : Nat) (none_ : Bool) (s : State) : State :=
  match tget? s.que.cmds a with
  | some c =>
    let c := { c with stage := CmdStage.draining, drainFrom := tideOf s, waitsFor := if none_ then [0] else [] }
    { s with que := { s.que with cmds := tset s.que.cmds a c } }
  | none => s

/-- Keep the drain of a command whose drain has ended. -/
def endDrain (a : Nat) (s : State) : State :=
  match tget? s.que.cmds a with
  | some c =>
    if c.waitsFor = [] then { s with que := { s.que with cmds := tset s.que.cmds a { c with waitsFor := [drainUs s c] } } } else s
  | none => s

/-- Complete a bind operation with its drain. -/
def finishDrain (a : Nat) (s : State) : State :=
  let d := ((tget? s.que.cmds a).map fun c => c.waitsFor.headD 0).getD 0
  finish a { status := St.success, result := d % 2 ^ 32 } s

/-! ## ATTACH and DETACH (R134, R208, R215, R216, R407) -/

/-- Give up the standing cluster once no Last is bound (R134). -/
def dropStanding (s : State) : State :=
  match s.power.standing with
  | none => s
  | some c =>
    if s.model.slots.any fun e => e.2.state == .bound then s
    else { s with power := { s.power with standing := none, shankCharged := s.power.shankCharged.filter fun k => k ≠ c } }

/-- Clear the island programs of a slot (R216). -/
def clearPrograms (n : Nat) (s : State) : State :=
  { s with islands := s.islands.map fun e =>
    (e.1, if e.2.program = some n then { e.2 with program := none, second := none } else e.2) }

/-- A drained Last goes to RESIDENT (R202, R216). -/
def detachNow (n : Nat) (s : State) : State :=
  let was := groupBound (slotOf s n)
  let s := clearPrograms n (modSlot n (fun sl => { sl with state := .resident, detaching := false }) s)
  let s := modStrait (fun g => { g with mcasts := g.mcasts.filter fun m => m.slot ≠ n }) s
  let s := dropStanding s
  if was then groupListChange s else s

/-- The multicast groups of a Last (R407). -/
def newMcasts (n : Nat) (p : LastPlan) : List Mcast :=
  p.mcasts.map fun m => { slot := n, plan := m, cut := [], grants := [], credits := [] }

/-- The islands of a set can take their programs, ON or served by Shank, and no erase runs on its banks (R77). -/
def setReady (s : State) (n : Nat) : Bool :=
  ((islandSet s n).all fun i => domIsOn s i || domState s i == .failed || (islandOf s i).quarantined) &&
    (slotOf s n).places.all fun q => !((bankOf s q.bank).state == .erasing)

/-- A RESIDENT Last becomes BOUND (R202, R208, R215). -/
def attachNow (n : Nat) (s : State) : State :=
  let s := (islandSet s n).foldl (fun s i => modIsland i (fun y => { y with program := some n, second := none }) s) s
  let s := modSlot n (fun sl => { sl with state := .bound }) s
  let s := match (slotOf s n).plan with
    | some p => modStrait (fun g => { g with mcasts := g.mcasts ++ newMcasts n p }) s
    | none => s
  let s := takeStanding s
  if groupBound (slotOf s n) then groupListChange s else s

/-- The islands on which a slot computes or will: those of its current places, of its old generation and of a staged swap (R208,
R250). -/
def slotIslands (s : State) (n : Nat) : List Nat :=
  let sl := slotOf s n
  choiceIslands (sl.places ++ sl.oldPlaces ++ ((sl.swap.map fun w => w.places).getD []))

/-- The bound slots of which an island holds a program that a slot's own would displace (R208, R215, R250). -/
def rivals (s : State) (n : Nat) : List Nat :=
  ((s.model.slots.filter fun e => e.1 ≠ n && e.2.state == .bound).map Prod.fst).filter fun m =>
    (slotIslands s m).any fun i => (slotIslands s n).contains i

/-- The 16-bit context groups of an ATTACH. -/
def attachGroups (b : Bytes) (k : Nat) : List Nat := (List.range k).map fun i => fld b (2 * i) 2

/-- Go on with an ATTACH or a DETACH as far as it can go now (R215, R216, R218). -/
def bindProgress (a : Nat) (s : State) : State :=
  match tget? s.que.cmds a with
  | none => s
  | some c =>
    let n := entSlot c.entry
    if entOpcode c.entry = 0x19 then
      if slotDrained s n then finishDrain a (detachNow n (endDrain a s)) else s
    else
      let rs := rivals s n
      if !(rs.all fun m => slotDrained s m) then s
      else
        let s := rs.foldl (fun s m => detachNow m s) (endDrain a s)
        if setReady s n then finishDrain a (attachNow n s)
        else (islandSet s n).foldl (fun s i => if (islandOf s i).quarantined then s else wantOn i s) s

/-- ATTACH (R203, R208, R215, R219, R257). -/
def execAttach (a : Fin 4096) (groups : HostRead) (s : State) : Res :=
  match cmdSub s a.val 0x18 1 with
  | none => .next s
  | some c =>
    let n := entSlot c.entry
    let sl := slotOf s n
    let k := entArg c.entry
    let displace := bitAt (entFlags c.entry) 0
    if bindWaits s c then .next s
    else if 64 ≤ n then .next (finishAt a.val St.outOfRange 2 s)
    else if !(sl.state == .resident) then .next (finishSt a.val St.lastState s)
    else if swapBusy s sl then .next (finishSt a.val St.busy s)
    else if !strictMet s sl then .next (finishSt a.val St.strictMismatch s)
    else if 4096 < k then .next (finishAt a.val St.outOfRange 4 s)
    else match hostData (2 * k) groups with
      | none => .next (finishAt a.val St.hostAccess 0x10 s)
      | some b =>
        let gs := attachGroups b k
        let taken := fun g => match groupSlot s g with
          | some m => m ≠ n
          | none => false
        if gs.any fun g => 4096 ≤ g then .next (finishAt a.val St.outOfRange 0x10 s)
        else if gs.any taken || (rivals s n ≠ [] && !displace) || (rivals s n).any (fun m => swapBusy s (slotOf s m)) then
          .next (finishSt a.val St.busy s)
        else
          let rs := rivals s n
          let s := { s with que := { s.que with groups := gs.foldl (fun t g => tset t g n) s.que.groups } }
          let s := bumpBy (ob 0x7021 1) rs.length (rs.foldl (fun s m => modSlot m (fun x => { x with detaching := true }) s) s)
          .next (bindProgress a.val (startDrain a.val rs.isEmpty s))

/-- DETACH (R202, R216, R219). -/
def execDetach (a : Fin 4096) (s : State) : Res :=
  match cmdSub s a.val 0x19 0 with
  | none => .next s
  | some c =>
    let n := entSlot c.entry
    let sl := slotOf s n
    if bindWaits s c then .next s
    else if 64 ≤ n then .next (finishAt a.val St.outOfRange 2 s)
    else if !(sl.state == .bound) then .next (finishSt a.val St.lastState s)
    else if swapBusy s sl then .next (finishSt a.val St.busy s)
    else
      let s := modSlot n (fun sl => { sl with detaching := true }) s
      .next (bindProgress a.val (startDrain a.val (slotDrained s n) s))

/-! ## RELEASE (R202, R203, R210, R233, R240) -/

/-- Banks that a slot's generations and its pending swap hold. -/
def slotBanks (sl : Slot) : List Nat :=
  choiceBanks (sl.places ++ sl.oldPlaces ++ ((sl.swap.map fun w => if w.mode = .shadow && !w.switched then w.places else []).getD []))

/-- Some slot other than `n` holds a bank (R203). -/
def heldByOther (s : State) (n bank : Nat) : Bool :=
  s.model.slots.any fun e => e.1 ≠ n && (slotBanks e.2).contains bank

/-- Give a slot's banks back: shared banks stay with the other slot. -/
def returnBanks (n : Nat) (banks : List Nat) (s : State) : State :=
  banks.foldl (fun s k =>
    if heldByOther s n k then modBank k (fun b => { b with owners := b.owners.filter fun m => m ≠ n }) s else releaseBank k s) s

/-- Re-placement of a slot that is being released is abandoned (R210): its new banks are released with the rest. -/
def abandonMoves (n : Nat) (banks : List Nat) (s : State) : State :=
  let gone := banks.filter fun k => !heldByOther s n k
  let mine := (s.scheds.filter fun e => e.2.moveFrom.any fun k => gone.contains k).map Prod.fst
  let s := mine.foldl (fun s t => releaseBank t (modSched t (fun d => { d with moveFrom := none }) s)) s
  gone.foldl (fun s k => if (schedOf s k).rebuilding then modSched k (fun d => { d with rebuilding := false }) s else s) s

/-- Stop the loads of an image that feed no placement any more (R240). -/
def stopOrphanLoads (hash : Digest) (s : State) : State :=
  if imageTargets s hash true ≠ [] then s
  else (s.model.loads.filter fun l => ((tget? s.model.images l.2.image).map fun r => decide (r.hash = hash)).getD false).foldl
    (fun s l => stopLoad l.1 s) s

/-- RELEASE (R202, R203, R233). -/
def execRelease (a : Fin 4096) (s : State) : Res :=
  match cmdSub s a.val 0x19 1 with
  | none => .next s
  | some c =>
    let n := entSlot c.entry
    let sl := slotOf s n
    if bindWaits s c then .next s
    else if 64 ≤ n then .next (finishAt a.val St.outOfRange 2 s)
    else if !(sl.state == .placed || sl.state == .resident) then .next (finishSt a.val St.lastState s)
    else if swapBusy s sl then .next (finishSt a.val St.busy s)
    else
      let s := setSlot n { sl with state := .releasing, plan := none, places := [], oldPlaces := [], swap := none, detaching := false } s
      let s := { s with que := { s.que with groups := s.que.groups.filter fun g => g.2 ≠ n },
                        power := { s.power with unplaceable := s.power.unplaceable.filter fun m => m ≠ n } }
      let s := returnBanks n (slotBanks sl) (abandonMoves n (slotBanks sl) s)
      .next (finish a.val { status := St.success, result := 0 } (imageReleased sl.imageHash (stopOrphanLoads sl.imageHash s)))

/-- LAST_SLOT_FREED (R201, R202): a RELEASING slot has returned all its banks. -/
def execLastSlotFreed (slot : Fin 64) (s : State) : Res :=
  let n := slot.val
  if (slotOf s n).state == .releasing && !(s.banks.any fun b => b.2.owners.contains n) then
    .next { s with model := { s.model with slots := tdel s.model.slots n } }
  else .next s

/-! ## Queues (R220) -/

/-- BIND_QUEUE (R219, R220): an entry keeps the group that its pair served when it was read. -/
def execBindQueue (a : Fin 4096) (s : State) : Res :=
  match cmdSub s a.val 0x18 2 with
  | none => .next s
  | some c =>
    let q := entArg c.entry
    let g := fld c.entry 0x10 2
    if bindWaits s c then .next s
    else if 16384 ≤ q then .next (finishAt a.val St.outOfRange 4 s)
    else if 4096 ≤ g && g ≠ 0xFFFF then .next (finishAt a.val St.outOfRange 0x10 s)
    else .next (finish a.val { status := St.success, result := 0 } (modPair q (fun p => { p with group := BitVec.ofNat 16 g }) s))

/-! ## Segments (R159 to R161, R166, R217, R219, R354, R476) -/

/-- The handles of a segment. -/
def inSeg (n : Nat) (h : BitVec 16) : Bool := handleSeg h = n

/-- Some handle of a segment is held (R161, R176). -/
def segHeld (s : State) (n : Nat) : Bool :=
  (s.model.launches.any fun l => l.2.reserved.any (inSeg n)) || (s.flow.laces.any fun l => l.2.held.any fun k => inSeg n k.h) ||
    (s.flow.clearing.any fun c => inSeg n c.1) || s.flow.recomputeHolds.any (inSeg n) ||
    (s.que.kv.any fun c => c.2.any fun h => inSeg n h.1)

/-- Take a segment's free handles out of every pool (R161 step 1). -/
def dropFree (n : Nat) (s : State) : State :=
  { s with flow := { s.flow with pools := s.flow.pools.map fun p => (p.1, p.2.filter fun h => !inSeg n h) } }

/-- Cover copies and cached adapters in a segment are given up: they are read from the banks (R147, R150, R160). -/
def dropCopies (n : Nat) (s : State) : State :=
  { s with model := { s.model with
    covers := s.model.covers.map fun c => (c.1, if c.2.slabs.any (inSeg n) then { c.2 with slabs := [], missing := [] } else c.2),
    cache := s.model.cache.filter fun e => !e.2.any (inSeg n) } }

/-- Begin the change of use of a segment (R161). -/
def segChange (n : Nat) (use : SegUse) (holder : Nat) (waiter : Option Nat) (s : State) : State :=
  let s := dropCopies n (dropFree n s)
  wantOn (domSeg n) (modSeg n (fun g => { g with next := some (use, BitVec.ofNat 16 holder), waiter }) s)

/-- A queue pair that is not DISABLED keeps a ring or its log in a segment (R354). A pair in ERROR, or one whose disable waits for its
commands, still has them there. -/
def pairInSeg (s : State) (n : Nat) : Bool :=
  s.que.pairs.any fun e =>
    let p := e.2
    !(p.state == .disabled) && ((pairSqHarbour p && addrSeg p.sqBase.toNat = n) || (pairCqHarbour p && addrSeg p.cqBase.toNat = n) ||
      (pairLogHarbour p && addrSeg p.logBase.toNat = n))

/-- It is the only LAST segment of a BOUND Last (R219). -/
def onlySegment (s : State) (n : Nat) : Bool :=
  let g := segOf s n
  g.use == .last && (slotOf s g.holder.toNat).state == .bound && lastSegments s g.holder.toNat = [n]

/-- BIND_SEGMENT (R161, R219, R476). -/
def execBindSegment (a : Fin 4096) (s : State) : Res :=
  match cmdSub s a.val 0x18 3 with
  | none => .next s
  | some c =>
    let n := entArg c.entry
    let use := fld c.entry 0x10 1
    let holder := fld c.entry 0x12 2
    let g := segOf s n
    let next := if use = 3 then SegUse.last else if use = 4 then .kv else .host
    let holderBad := (use = 3 && (64 ≤ holder || (slotOf s holder).state == .free)) ||
      (use = 4 && match groupSlot s holder with
        | some m => (slotOf s m).state == .free
        | none => true)
    let same := g.use == next && (use = 5 || g.holder.toNat = holder)
    if bindWaits s c then .next s
    else if n < 2 || 15 < n then .next (finishAt a.val St.outOfRange 4 s)
    else if !(use = 3 || use = 4 || use = 5) then .next (finishAt a.val St.outOfRange 0x10 s)
    else if holderBad then .next (finishAt a.val St.outOfRange 0x12 s)
    else if use = 3 && swapBusy s (slotOf s holder) then .next (finishSt a.val St.busy s)
    else if domState s (domSeg n) == .failed || (onlySegment s n && !same) || pairInSeg s n || g.next.isSome then
      .next (finishSt a.val St.segmentBusy s)
    else .next (startDrain a.val (!segHeld s n) (segChange n next (if use = 5 then 0xFFFF else holder) (some a.val) s))

/-- UNBIND_SEGMENT (R161, R219, R354, R476). -/
def execUnbindSegment (a : Fin 4096) (s : State) : Res :=
  match cmdSub s a.val 0x19 2 with
  | none => .next s
  | some c =>
    let n := entArg c.entry
    if bindWaits s c then .next s
    else if n < 2 || 15 < n then .next (finishAt a.val St.outOfRange 4 s)
    else if domState s (domSeg n) == .failed then
      let s := modSeg n (fun g => { g with use := .free, holder := 0xFFFF, next := none, waiter := none }) (dropCopies n (dropFree n s))
      .next (finish a.val { status := St.success, result := 0 } s)
    else if pairInSeg s n || (segOf s n).next.isSome then .next (finishSt a.val St.segmentBusy s)
    else .next (startDrain a.val (!segHeld s n) (segChange n .free 0xFFFF (some a.val) s))

/-- BIND_DRAIN_END (R216, R218): the drain of an ATTACH or a DETACH ends. -/
def execBindDrainEnd (a : Fin 4096) (s : State) : Res :=
  match tget? s.que.cmds a.val with
  | none => .next s
  | some c =>
    let mine := (entOpcode c.entry = 0x18 && entSubop c.entry = 1) || (entOpcode c.entry = 0x19 && entSubop c.entry = 0)
    if mine && c.stage == .draining then .next (bindProgress a.val s) else .next s

/-- SEGMENT_HANDOVER (R161): the last held handle has returned; the whole segment is cleared. -/
def execSegmentHandover (seg : Fin 16) (s : State) : Res :=
  let n := seg.val
  let g := segOf s n
  let base := n * 2 ^ 26
  if g.next.isNone || segHeld s n || !domIsOn s (domSeg n) || underClear s base then .next s
  else
    let s := match g.waiter with
      | some a => endDrain a s
      | none => s
    .next { s with hbr := { s.hbr with clears := s.hbr.clears ++ [(base, 2 ^ 26)] } }

/-- Segments that SHARED use may take (R160). -/
def sharedLimit (s : State) : Nat := ceilDiv (dictNum s (ob 0x5020 1) + dictNum s (ob 0x5030 1)) 64

/-- Cover copies need space (R147, R160): a covered bank has no copy, the budget holds one more, and fewer than 8 slabs are free. -/
def coverNeeds (s : State) : Bool :=
  decide ((sharedSlabs s).length < 8) && decide (coverCopies s + 1 ≤ 8 * dictNum s (ob 0x5020 1)) &&
    s.model.covers.any fun e => e.2.slabs = [] && bankCovered s e.1 && bankPlaced s e.1 && !(bankOf s e.1).storageMode

/-- The adapter cache needs space (R150, R160): an outstanding request's context has an adapter that the cache may hold and does not,
and the free slabs do not take it. -/
def cacheNeeds (s : State) : Bool :=
  s.que.reqs.any fun e => match ctxAdapterSlot s e.2.ctx, ctxAdapter s e.2.ctx with
    | some k, some a =>
      let n := ceilDiv a.bytes 16384
      !(s.model.cache.any fun c => c.1 = k) && decide (n ≤ cacheLimit s) && decide ((sharedSlabs s).length < n)
    | _, _ => false

/-- Cover copies or cached adapters need SHARED space (R160), and no segment is on its way there. -/
def sharedNeeded (s : State) : Bool :=
  (coverNeeds s || cacheNeeds s) && !((List.range 16).any fun i => (segOf s i).next == some (.shared, 0xFFFF))

/-- SHARED_SEGMENT_TAKE (R160). -/
def execSharedSegmentTake (seg : Fin 16) (s : State) : Res :=
  let n := seg.val
  let g := segOf s n
  let held := ((List.range 16).filter fun i => (segOf s i).use == .shared || (segOf s i).next == some (.shared, 0xFFFF)).length
  if sharedNeeded s && 2 ≤ n && g.use == .free && g.next.isNone && !(domState s (domSeg n) == .failed) && decide (held < sharedLimit s) then
    .next (segChange n .shared 0xFFFF none s)
  else .next s

/-- SHARED_SEGMENT_RETURN (R160): the segment holds no cover copy and no cached adapter. -/
def execSharedSegmentReturn (seg : Fin 16) (s : State) : Res :=
  let n := seg.val
  let g := segOf s n
  let used := (s.model.covers.any fun c => c.2.slabs.any (inSeg n)) || s.model.cache.any fun e => e.2.any (inSeg n)
  if g.use == .shared && g.next.isNone && !used then .next (segChange n .free 0xFFFF none s) else .next s

/-! ## Re-placement (R26, R76, R209, R210) -/

/-- A place must be left: its bank is WORN or RETIRED, or its island is quarantined or FAILED (R209, R476). -/
def placeLost (s : State) (q : Placed) : Bool :=
  let st := (bankOf s q.bank).state
  st == .worn || st == .retired || (islandOf s (bankIsland q.bank)).quarantined || domState s (bankIsland q.bank) == .failed

/-- No place of a Last is lost: it can run again (R26). -/
def clearUnplaceable (n : Nat) (s : State) : State :=
  if (slotOf s n).places.any (placeLost s) then s
  else { s with power := { s.power with unplaceable := s.power.unplaceable.filter fun m => m ≠ n } }

/-- The module cannot place a bound Last (R26). -/
def cannotPlace (n : Nat) (s : State) : State :=
  if s.power.unplaceable.contains n then s
  else raiseFault .moduleFault 0 n (assertFault { s with power := { s.power with unplaceable := insertUp n s.power.unplaceable } })

/-- The rows of a bank, from the cover copy's source or rebuilt (R76, R209): none for a row that is lost. -/
def movableRows (s : State) (n : Nat) : List (Nat × Option Nat) :=
  if (bankOf s n).storageMode then
    let (rows, _) := rebuildImage s n (tkeys (schedOf s n).failing)
    (List.range 1024).map fun r => (r, (rows.find? fun e => e.1 = r).map Prod.snd)
  else (List.range 1024).map fun r => (r, (coverRow s n r).map withChecks)

/-- How many rows are lost. -/
def lostRows (rows : List (Nat × Option Nat)) : Nat := (rows.filter fun e => e.2.isNone).length

/-- The islands of a BOUND Last's set hold its program (R208), after a slice has moved. -/
def reloadPrograms (n : Nat) (s : State) : State :=
  if (slotOf s n).state == .bound then
    (islandSet s n).foldl (fun s i => if (islandOf s i).program.isNone then modIsland i (fun y => { y with program := some n }) s else s) s
  else s

/-- Slices have moved: island programs and the Lasts that could not be placed follow (R26, R208). -/
def afterMoves (s : State) : State := s.model.slots.foldl (fun s e => reloadPrograms e.1 (clearUnplaceable e.1 s)) s

/-- Give the slices of a bank another bank (R209): a bank that holds no pieces yet at once, else when the new bank, programmed with
its content, is sealed. A row that is lost has its shard fetched again (R242). -/
def replaceBank (from_ to_ : Nat) (spill : Bool) (s : State) : State :=
  let b := bankOf s from_
  if b.state == .erased then afterMoves (moveSlices from_ to_ (modBank to_ (fun t => { t with storageMode := spill }) s))
  else if b.state == .programming && spill then s
  else
    let rows := movableRows s from_
    if rows.any fun e => e.2.isNone then nvPoisoned from_ (lostRows rows) (flagBank from_ s)
    else afterMoves (programInto from_ to_ b.storageMode (rows.filterMap fun e => e.2.map fun v => (e.1, v)) s)

/-- A re-placement of a bank's slices is under way. -/
def moving (s : State) (n : Nat) : Bool := s.scheds.any fun e => e.2.moveFrom = some n

/-- A slice that finds no ERASED bank could take the bank of one that is spilled, once that bank is erased (R205, R209). -/
def takesFreed (s : State) (p : LastPlan) (l : List Placed) (r : SliceRec) (q : Placed) : Bool :=
  let b := bankOf s q.bank
  !q.spill && !(b.state == .worn || b.state == .retired) && islandOpen s (bankIsland q.bank) && (sliceTolerant r || guardOk s q.bank) &&
    decide (layerAt p (l.filter fun o => o.slice ≠ r.slice && o.slice ≠ q.slice) (bankIsland q.bank) r.layer < 64)

/-- Storage-mode places for the fewest further spill groups, in ascending rank, after which a slice has a place (R209, R211,
R212); none where no spill helps. -/
def spillFor (s : State) (p : LastPlan) (l : List Placed) (r : SliceRec) : Option (List Placed) :=
  let rest := (spillOrder p).filter fun g => !(spilledGroups p l).contains g
  let helps := fun (gs : List Nat) => gs.contains r.spillGroup ||
    l.any fun q => ((recOf p q.slice).any fun x => gs.contains x.spillGroup) && takesFreed s p l r q
  (((List.range rest.length).map fun k => rest.take (k + 1)).find? helps).bind fun gs =>
    let all := fun (young : Bool) =>
      gs.foldl (fun o g => o.bind fun t => pickGroup s (fun _ => true) young (groupBanks p g) (groupSlices p g) t) (some [])
    match all true with
    | some t => some t
    | none => all false

/-- The content of the bank that a slice leaves: none where a row is lost, no rows where the bank holds no pieces yet. -/
def leavingRows (s : State) (n : Nat) : Option (List Nat) :=
  if (bankOf s n).state == .erased then some []
  else (movableRows s n).foldr (fun e o => o.bind fun l => e.2.map fun v => v :: l) (some [])

/-- Spill slices into the places `t` (R209, R211): their content is written in storage mode, and sealed with its bank. -/
def spillInto (n : Nat) (t : List Placed) (s : State) : State :=
  let old := (slotOf s n).places
  let one := fun (s : State) (x : Placed) =>
    match old.find? fun q => q.slice = x.slice with
    | none => s
    | some q =>
      match leavingRows s q.bank with
      | none => nvPoisoned q.bank (lostRows (movableRows s q.bank)) (flagBank q.bank s)
      | some rows =>
        let bytes := rows.flatMap fun v => leBytes 128 (v % 2 ^ 1024)
        let s := if rows = [] then s else modBank x.bank (writeThird x.third bytes) s
        replaceSlice q.bank x s
  let s := t.foldl one s
  match imageNamed s (slotOf s n).imageHash with
  | some (_, img) => afterMoves ((imageTargets s img.hash true).foldl (fun s x => sealReady img x s) s)
  | none => s

/-- RE_PLACEMENT (R26, R76, R209, R210): the slices of a place that is lost go to an ERASED bank, that of `target` where it fits;
else spill groups are spilled; else R26 applies. -/
def execRePlacement (slot : Fin 64) (slice : Nat) (target : Option Placed) (s : State) : Res :=
  let n := slot.val
  let sl := slotOf s n
  let live := sl.state == .placed || sl.state == .resident || sl.state == .bound
  match sl.places.find? fun q => q.slice = slice, sl.plan with
  | some q, some p =>
    if !live || !placeLost s q || moving s q.bank then .next s
    else match freshBank s n p sl.places q.bank slice q.spill (target.map fun t => t.bank) with
      | some t => .next (replaceBank q.bank t q.spill s)
      | none =>
        match if q.spill then none else (recOf p slice).bind fun r => spillFor s p sl.places r with
        | some t => .next (spillInto n t s)
        | none => .next (if sl.state == .bound then cannotPlace n s else s)
  | _, _ => .next s

end Sys2Proof.Machine
end

