-- ==== Sys2Proof/Machine/Swap.lean ====
section
/-! DEFINITION. Swaps of a slot's image (R245 to R258) and CANCEL (R371). Choices of the model:
notes/assumptions/30.md (DEDUCED). -/

namespace Sys2Proof.Machine

/-! ## STAGE (R248, R249, R254, R257) -/

/-- The new Last serves the slot as the old one does (R248). -/
def swapCompatible (sl : Slot) (f : LastFile) : Bool :=
  f.modules = sl.modules && f.strict = sl.strict && f.parts = sl.parts &&
    ((sl.plan.map fun p => p.privateBytes).getD 0) = f.plan.privateBytes

/-- Everything of a slice record but its shard (R254). -/
def withoutShard (r : SliceRec) : SliceRec := { r with shard := 0 }

/-- No shard holds pieces of two layers (R254). -/
def shardsOfOneLayer (p : LastPlan) : Bool :=
  p.slices.all fun r => p.slices.all fun q => r.shard ≠ q.shard || r.layer = q.layer

/-- What the LAYERS section says of a layer and of a spill group, and the JOINS section of a join (R198): the rest of these plans comes
from SCHEDULE, NUMERICS and CONSTRAINTS, and may differ. -/
def layersSection (y : LayerPlan) : Nat × Nat := (y.layer, y.spillGroup)
def spillSection (x : SpillPlan) : Nat × Nat × Nat × Nat := (x.group, x.rank, x.usesMilli, x.arrayNs)
def joinsSection (j : JoinPlan) : JoinPlan :=
  match j.ending with
  | .round _ _ _ l => { j with ending := .round 0 0 0 l }
  | .forward _ _ => j

/-- An in-place rewrite is possible (R254). DESIGN CHOICE (notes/assumptions/30.md): an image that is resident under a slot is not
rewritten in place, since its record cannot be PARTIAL and COMMITTED at once (R203, R256). -/
def inPlaceOk (s : State) (n : Nat) (sl : Slot) (f : LastFile) : Bool :=
  match sl.plan with
  | none => false
  | some p =>
    p.layers.map layersSection = f.plan.layers.map layersSection && p.spills.map spillSection = f.plan.spills.map spillSection &&
      p.joins.map joinsSection = f.plan.joins.map joinsSection &&
      p.slices.map withoutShard = f.plan.slices.map withoutShard && shardsOfOneLayer f.plan &&
      !(sl.places.any fun q => heldByOther s n q.bank) && (residentOn s f.image).isNone

/-- The layers of a Last that hold slices, in schedule order (R198, R255). -/
def rewriteFront (p : LastPlan) : List Nat :=
  (p.layers.map fun y => y.layer).filter fun l => p.slices.any fun r => r.layer = l

/-- A pending swap as STAGE leaves it. -/
def newSwap (mode : SwapMode) (f : LastFile) (places : List Placed) (committed : Bool) (addrs : List (BitVec 64)) : Swap :=
  { mode, lastHash := f.hash, imageHash := f.image, plan := f.plan, slicesSection := f.slices, places, keySlot := f.keySlot, committed,
    switched := false, switchTide := none, front := if mode = .inPlace then rewriteFront f.plan else [], rewritten := false, stopped := false,
    shardAddrs := addrs, interrupted := false }

/-- Each island of a BOUND slot holds the second program while a shadow swap is staged or draining (R250). -/
def secondPrograms (n : Nat) (gen : BitVec 16) (places : List Placed) (s : State) : State :=
  if !((slotOf s n).state == .bound) then s
  else
    (choiceIslands (places ++ (slotOf s n).places)).foldl (fun s i => modIsland i (fun y =>
      if y.program = some n then { y with second := some gen }
      else if y.program.isNone then { y with program := some n, second := some gen } else y) s) s

/-- The shards' bus addresses (R254). -/
def shardTable (b : Bytes) : List (BitVec 64) := (List.range (b.length / 8)).map fun i => BitVec.ofNat 64 (fld b (8 * i) 8)

/-- Islands on which another BOUND slot computes or will, where the slot is BOUND itself: no new place may lie there (R208, R250). -/
def barredIslands (s : State) (n : Nat) : List Nat :=
  if (slotOf s n).state == .bound then
    (s.model.slots.filter fun e => e.1 ≠ n && e.2.state == .bound).flatMap fun e => slotIslands s e.1
  else []

/-- Stage in place (R254): the host's table of shard addresses is read. -/
def stageInPlace (a : Nat) (n : Nat) (f : LastFile) (table : HostRead) (s : State) : State :=
  let sl := slotOf s n
  if !inPlaceOk s n sl f then finishSt a St.swapIncompatible s
  else
    let shards := ((imageNamed s f.image).map fun e => e.2.shards.length).getD 0
    match hostData (8 * shards) table with
    | none => finishAt a St.hostAccess 0x28 s
    | some t =>
      let w := newSwap .inPlace f sl.places false (shardTable t)
      finish a { status := St.success, result := 1 } (placedAnew f.image (modSlot n (fun sl => { sl with swap := some w }) s))

/-- Stage in shadow on the places given (R249, R250). -/
def stageShadow (a : Nat) (c : Cmd) (n : Nat) (f : LastFile) (l : List Placed) (shared : Bool) (s : State) : State :=
  let sl := slotOf s n
  let rep := placementReport s n (lastCode sl.state) n f.plan l shared 0
  let w := newSwap .shadow f l shared []
  let s := if shared then s else placedAnew f.image (takeBanks n l s)
  let s := modSlot n (fun sl => { sl with swap := some w, report := rep }) s
  finish a { status := St.success, result := 0 } (sendReport c rep (secondPrograms n (nextGen sl.gen) l s))

/-- The sister bank of the one that holds the slice of this number now (R207, R249): the new slice goes there where it can. -/
def sisterOf (s : State) (n slice : Nat) : Option Nat :=
  ((slotOf s n).places.find? fun q => q.slice = slice && !q.spill).map fun q => sister q.bank

/-- STAGE of a Last that passed its checks, by mode (R249, R254). -/
def stageChecked (a : Nat) (c : Cmd) (n : Nat) (f : LastFile) (table : HostRead) (choice : List Placed) (s : State) : State :=
  let mode := entArg c.entry
  if mode = 1 then stageInPlace a n f table s
  else match residentOn s f.image with
    | some (_, other) =>
      if (choiceIslands other.places).any fun i => (barredIslands s n).contains i then
        finishSt a St.capacity (sendReport c (failedReport s (some f.plan) (shortfallBanks s f.plan)) s)
      else stageShadow a c n f other.places true s
    | none =>
      match placerChoice s n f.plan true (barredIslands s n) (sisterOf s n) choice with
      | none =>
        if mode = 2 then stageInPlace a n f table s
        else finishSt a St.capacity (sendReport c (failedReport s (some f.plan) (shortfallBanks s f.plan)) s)
      | some l =>
        if dictNum s (ob 0x7011 1) < expectedLoss f.plan l then finishSt a St.spillRefused s
        else stageShadow a c n f l false s

/-- STAGE issued again for an interrupted in-place swap (R254, R257): the host's table is read again, and the rewrite resumes at the
first layer that is not fully sealed. -/
def resumeStage (a n : Nat) (f : LastFile) (w : Swap) (table : HostRead) (s : State) : State :=
  match hostData (8 * ((imageNamed s f.image).map fun e => e.2.shards.length).getD 0) table with
  | none => finishAt a St.hostAccess 0x28 s
  | some t =>
    let w := { w with interrupted := false, switched := false, stopped := false, rewritten := false, shardAddrs := shardTable t }
    finish a { status := St.success, result := 1 } (modSlot n (fun sl => { sl with swap := some w }) s)

/-- SWAP_STAGE (R248 to R250, R252, R254, R257). DESIGN CHOICE (notes/assumptions/30.md): the spec does not place SWAP_INCOMPATIBLE
among the checks of R204: it is tested after checks 1 to 4 and before CAPACITY and SPILL_REFUSED. -/
def execSwapStage (a : Fin 4096) (file : HostRead) (table : HostRead) (choice : List Placed) (s : State) : Res :=
  match cmdSub s a.val 0x12 0 with
  | none => .next s
  | some c =>
    let n := entSlot c.entry
    let sl := slotOf s n
    let cut := match sl.swap with
      | some w => w.interrupted
      | none => false
    if 64 ≤ n then .next (finishAt a.val St.outOfRange 2 s)
    else if 2 < entArg c.entry then .next (finishAt a.val St.outOfRange 4 s)
    else if !(sl.state == .resident || sl.state == .bound) then .next (finishSt a.val St.lastState s)
    else if sl.detaching || (swapBusy s sl && !cut) then .next (finishSt a.val St.busy s)
    else match hostData (fld c.entry 0x18 8) file with
      | none => .next (finishAt a.val St.hostAccess 0x10 s)
      | some b =>
        match checkLast s b with
        | .inl st => .next (finishSt a.val st s)
        | .inr f =>
          match sl.swap with
          | some w =>
            if w.interrupted then
              (if f.hash = w.lastHash then .next (resumeStage a.val n f w table s) else .next (finishSt a.val St.busy s))
            else if swapCompatible sl f then .next (stageChecked a.val c n f table choice s)
            else .next (finishSt a.val St.swapIncompatible s)
          | none =>
            if swapCompatible sl f then .next (stageChecked a.val c n f table choice s)
            else .next (finishSt a.val St.swapIncompatible s)

/-! ## SWITCH and ABORT (R245, R251, R253, R255, R258) -/

/-- The switch takes effect (R245, R251, R255): the pending generation is the current one. -/
def switchNow (n : Nat) (s : State) : State :=
  match (slotOf s n).swap with
  | none => s
  | some w =>
    let sl := slotOf s n
    let resumed := sl.lastHash = w.lastHash && w.mode == .inPlace
    let sl :=
      if resumed then { sl with swap := some { w with switched := true, switchTide := none } }
      else
        { sl with gen := nextGen sl.gen, oldGen := some sl.gen, oldPlaces := sl.places, oldPlan := sl.plan, oldImage := sl.imageHash,
                  lastHash := w.lastHash, imageHash := w.imageHash, plan := some w.plan, places := w.places, keySlot := w.keySlot,
                  slicesSection := w.slicesSection, swap := some { w with switched := true, switchTide := none } }
    let s := setSlot n sl s
    let s := if w.mode == .shadow then bump (ob 0x7050 1) s else s
    if groupBound sl then groupListChange s else s

/-- The command's slot belongs to a Last that spans the modules of a group (R258). -/
def swapInGroup (s : State) (sl : Slot) : Bool := decide (1 < sl.modules) && membersOf s ≠ []

/-- SWAP_SWITCH (R250, R251, R253, R255, R258): it waits for the slot's admitted requests to take their generation. -/
def execSwapSwitch (a : Fin 4096) (s : State) : Res :=
  match cmdSub s a.val 0x12 1 with
  | none => .next s
  | some c =>
    let n := entSlot c.entry
    let sl := slotOf s n
    let t := fld c.entry 0x10 8
    let early := s.que.cmds.any fun e => entOpcode e.2.entry = 1 && e.2.stage == .admitted && decide (e.2.order < c.order) &&
      groupSlot s e.2.group.toNat = some n
    if early then .next s
    else if 64 ≤ n then .next (finishAt a.val St.outOfRange 2 s)
    else match sl.swap with
      | none => .next (finishSt a.val St.swapState s)
      | some w =>
        if w.switched || w.interrupted || w.switchTide.isSome then .next (finishSt a.val St.swapState s)
        else if (t = 0) = swapInGroup s sl then .next (finishAt a.val St.outOfRange 0x10 s)
        else if w.mode == .shadow && !(w.committed && (imageNamed s w.imageHash).any fun e => e.2.state == .committed) then .next (finishSt a.val St.imagePartial s)
        else
          let s := if t = 0 then switchNow n s
            else modSlot n (fun sl => { sl with swap := some { w with switchTide := some (BitVec.ofNat 64 t) } }) s
          .next (finish a.val { status := St.success } s)

/-- GROUP_SWITCH_TIDE (R258): Tide reaches SWITCH_TIDE. -/
def execGroupSwitchTide (slot : Fin 64) (s : State) : Res :=
  match (slotOf s slot.val).swap with
  | none => .next s
  | some w =>
    match w.switchTide with
    | none => .next s
    | some t => if t.toNat ≤ (tideOf s).toNat then .next (switchNow slot.val s) else .next s

/-- Give up a pending swap before its switch (R253): its banks go back, its image record stays. -/
def abortSwap (n : Nat) (w : Swap) (s : State) : State :=
  let mine := (slotOf s n).places
  let back := if w.mode = .shadow then choiceBanks (w.places.filter fun q => !(mine.any fun p => p.bank = q.bank)) else []
  let s := modSlot n (fun sl => { sl with swap := none }) s
  let s := { s with islands := s.islands.map fun e =>
    (e.1, if e.2.program = some n && e.2.second.isSome then
      { e.2 with second := none, program := if (islandSet s n).contains e.1 then e.2.program else none } else e.2) }
  imageReleased w.imageHash (stopOrphanLoads w.imageHash (returnBanks n back (abandonMoves n back s)))

/-- SWITCH of a swap has been taken (R251, R253, R258): also where SWITCH_TIDE is still to come, and where a power loss has interrupted
the rewrite, before or after the STAGE that resumes it (R257). -/
def afterSwitch (sl : Slot) (w : Swap) : Bool :=
  w.switched || w.interrupted || w.switchTide.isSome || (w.mode == .inPlace && sl.lastHash = w.lastHash)

/-- SWAP_ABORT (R253). -/
def execSwapAbort (a : Fin 4096) (s : State) : Res :=
  match cmdSub s a.val 0x12 2 with
  | none => .next s
  | some c =>
    let n := entSlot c.entry
    if 64 ≤ n then .next (finishAt a.val St.outOfRange 2 s)
    else match (slotOf s n).swap with
      | none => .next (finishSt a.val St.swapState s)
      | some w =>
        if afterSwitch (slotOf s n) w then .next (finishSt a.val St.swapState s)
        else .next (finishSt a.val St.success (abortSwap n w s))

/-! ## The old generation retires (R247, R252, R255) -/

/-- A generation of a slot has no request and no launch left (R247). -/
def genRetired (s : State) (n : Nat) (g : BitVec 16) : Bool :=
  !(s.que.reqs.any fun r => r.2.slot = n && r.2.gen = g) && !(s.model.launches.any fun l => l.2.slot = n && l.2.gen = g)

/-- Drop an image record that no slot uses (R252, R255). -/
def dropUnused (hash : Digest) (s : State) : State :=
  match imageNamed s hash with
  | some (k, r) =>
    if imageUsed s r.hash then s else { s with model := { s.model with images := tdel s.model.images k } }
  | none => s

/-- The old generation of a shadow swap ends (R252). -/
def retireShadow (n : Nat) (w : Swap) (s : State) : State :=
  let sl := slotOf s n
  let gone := sl.oldPlaces.filter fun q => !(sl.places.any fun p => p.bank = q.bank)
  let s := setSlot n { sl with oldGen := none, oldPlaces := [], oldPlan := none, oldImage := [], swap := some { w with places := gone } } s
  let set := islandSet s n
  let s := { s with islands := s.islands.map fun e =>
    (e.1, if e.2.program = some n then { e.2 with second := none, program := if set.contains e.1 then some n else none } else e.2) }
  dropUnused sl.oldImage (returnBanks n (choiceBanks gone) s)

/-- GENERATION_RETIRE (R247, R252, R255 steps 3 and 4). -/
def execGenerationRetire (slot : Fin 64) (s : State) : Res :=
  let n := slot.val
  let sl := slotOf s n
  match sl.oldGen, sl.swap with
  | some g, some w =>
    if !genRetired s n g then .next s
    else if w.mode == .shadow then .next (retireShadow n w s)
    else .next (modSlot n (fun sl => { sl with oldGen := none, oldPlaces := [], oldPlan := none }) s)
  | _, _ => .next s

/-! ## The rewrite front (R255, R256) -/

/-- The shards of a layer's banks whose bytes the rewrite has yet to read: neither present nor programmed. -/
def layerShards (t : Target) (layer : Nat) (img : ImageRec) : List Nat :=
  (shardsOfLayer t layer).filter fun k => !img.present.contains k && !img.written.contains k

/-- The bytes of a shard that passed the checks of R235, as the rewrite read it. -/
def soundShard (s : State) (img : ImageRec) (k : Nat) (r : HostRead) : Option Bytes :=
  match img.shards[k]?, r with
  | some e, .data b => if shardMatches e b true && shardFormatOk s img k e true b then some b else none
  | _, _ => none

/-- What a rewrite does with one shard: the load of R237 on its last attempt. -/
def rewriteLoad (image k : Nat) (sealing : Bool) : Load :=
  { image, shard := k, attempt := 1, programming := true, sealing, refetch := false }

/-- Reprogram the pieces of one shard in place (R255, R309): those that must move get a fresh bank; none where no bank was found. -/
def rewriteShard (t : Target) (image k : Nat) (again : Bool) (b : Bytes) (s : State) : Option State :=
  match (tget? s.model.images image).bind fun img => (img.shards[k]?).map fun e => (img, e) with
  | none => some s
  | some (img, e) =>
    let ps := shardPieces e b
    let l := rewriteLoad image k again
    (movePieces l ps [t] s).map fun s =>
      let t := targetNow s t
      let s := ps.foldl (fun s p => programPiece l t p (b.drop p.offset) s) s
      setImage image (keepScales ps b { img with written := if again then img.written else insertUp k img.written }) s

/-- Rewrite shards in turn. -/
def rewriteShards (t : Target) (image : Nat) (again : Bool) (l : List (Nat × Bytes)) (s : State) : Option State :=
  l.foldl (fun o e => o.bind (rewriteShard t image e.1 again e.2)) (some s)

/-- The swap is complete (R255 step 6): the new image is COMMITTED, the old record is dropped. -/
def swapComplete (n image : Nat) (s : State) : State :=
  let old := (slotOf s n).oldImage
  let s := match tget? s.model.images image with
    | some img => setImage image { img with state := .committed } s
    | none => s
  dropUnused old (modSlot n (fun sl => { sl with swap := none, oldImage := [] }) (bump (ob 0x7051 1) s))

/-- The front stops at a layer (R256): its image stays PARTIAL, with an event. Each of the `bad` shards has failed its last attempt, so
its repeats are counted too (R237, R261). -/
def stopFront (n : Nat) (w : Swap) (bad : Nat) (s : State) : State :=
  let s := modSlot n (fun sl => { sl with swap := sl.swap.map fun x => { x with front := w.front, stopped := true } }) s
  raise .swapFrontStopped 10 n (bumpBy (ob 0x7044 1) bad (bumpBy (ob 0x7043 1) (bad * dictNum s (ob 0x7042 1)) s))

/-- Every place of the layer at the front is sealed with the new pieces. -/
def layerSealed (s : State) (t : Target) (layer : Nat) (img : ImageRec) : Bool :=
  layerShards t layer img = [] && (layerPlaces t layer).all fun q => bankSealed s q.bank

/-- Open the barrier of a layer whose banks are sealed (R255): the front goes on, and ends after the last one. -/
def openBarrier (n image : Nat) (w : Swap) (s : State) : State :=
  let rest := w.front.drop 1
  let s := modSlot n (fun sl => { sl with swap := sl.swap.map fun x => { x with front := rest, stopped := false, rewritten := false } }) s
  askReady (if rest = [] then swapComplete n image s else s)

/-- The front has erased and reprogrammed the banks of its layer from the shards read (R255, R256). -/
def programLayer (n image : Nat) (img : ImageRec) (w : Swap) (t : Target) (reads : List (Nat × HostRead)) (s : State) : State :=
  let sound := reads.filterMap fun e => (soundShard s img e.1 e.2).map fun b => (e.1, b)
  let bad := reads.length - sound.length
  match rewriteShards t image false sound s with
  | none => stopFront n w 0 s
  | some s =>
    let s := match tget? s.model.images image with
      | some img => settleImages (sealReady img (targetNow s t) s)
      | none => s
    if bad ≠ 0 then stopFront n w bad s
    else modSlot n (fun sl => { sl with swap := sl.swap.map fun x => { x with rewritten := true, stopped := false } }) s

/-- The layer at the front waits for its seals: pieces whose bank was RETIRED are programmed into a fresh one (R309). -/
def reprogramLayer (n image : Nat) (img : ImageRec) (w : Swap) (t : Target) (layer : Nat) (reads : List (Nat × HostRead)) (s : State) : State :=
  if layerSealed s t layer img then openBarrier n image w s
  else
    let sound := reads.filterMap fun e => (soundShard s img e.1 e.2).map fun b => (e.1, b)
    match rewriteShards t image true sound s with
    | none => stopFront n w 0 s
    | some s => match tget? s.model.images image with
      | some img => settleImages (sealReady img (targetNow s t) s)
      | none => s

/-- LAYER_REWRITE_DONE (R255, R256): the front has erased and reprogrammed a layer's banks from the shards that it read, the last
attempt at each; a rejected one stops it. Issued again, it opens the layer's barrier once every bank is sealed. `shards` are the
layer's shards that are not yet programmed, rising, or, issued again, all of its shards. -/
def execLayerRewriteDone (slot : Fin 64) (layer : Nat) (shards : List HostRead) (s : State) : Res :=
  let n := slot.val
  let sl := slotOf s n
  match sl.swap with
  | none => .next s
  | some w =>
    let up := w.mode == .inPlace && w.switched && !w.interrupted && sl.oldGen.isNone && w.front.head? = some layer
    match imageNamed s w.imageHash with
    | none => .next s
    | some (k, img) =>
      let t : Target := { slot := n, plan := w.plan, places := w.places, pending := true, inPlace := true }
      if !up || s.awl.paused || 1536 ≤ slotsUsed s then .next s
      else if w.rewritten then .next (reprogramLayer n k img w t layer ((shardsOfLayer t layer).zip shards) s)
      else
        let need := layerShards t layer img
        if shards.length < need.length then .next s else .next (programLayer n k img w t (need.zip shards) s)

/-! ## CANCEL (R190, R240, R371) -/

/-- The outstanding command of a key. -/
def cmdOfKey (s : State) (key : Nat) : Option (Nat × Cmd) := s.que.cmds.find? fun e => entKey e.2.entry = key

/-- A key whose command has completed: seen in the window of its pair and not outstanding. -/
def keyDone (s : State) (key : Nat) : Bool :=
  let p := pairOf s (keyPair key)
  keyClass p (keySeq key) == .duplicate

/-- Stop an outstanding command where R371 allows it: the CANCEL's RESULT, and the state. -/
def cancelCmd (t : Nat) (c : Cmd) (s : State) : Nat × State :=
  let op := entOpcode c.entry
  if c.stage == .parked then (3, s)
  else if op = 1 then
    match tget? s.que.reqs t with
    | some r => if r.stopped.isSome then (1, s) else (0, askReady (stopRequest t St.cancelled 0 false s))
    | none => (0, finishSt t St.cancelled s)
  else if op = 0x10 then
    (0, if (tget? s.model.loads t).isSome then stopLoad t s else finishSt t St.cancelled s)
  else if op = 0x12 && entSubop c.entry = 0 then (0, finishSt t St.cancelled s)
  else (3, s)

/-- CANCEL (R371). -/
def execCancel (a : Fin 4096) (s : State) : Res :=
  match cmdAt s a.val 8 with
  | none => .next s
  | some c =>
    let key := fld c.entry 0x10 8
    let done := fun (r : Nat) (s : State) => Host.Outcome.next (finish a.val { status := St.success, result := r } s)
    if keyPair key ≠ c.pair && !pairAdmin (pairOf s c.pair) then .next (finishSt a.val St.notPermitted s)
    else match cmdOfKey s key with
      | some (t, k) => let (r, s) := cancelCmd t k s; done r s
      | none => done (if keyDone s key then 1 else 2) s

end Sys2Proof.Machine
end

