-- ==== Sys2Proof/Machine/Seal.lean ====
section
/-! DEFINITION. Seals and what waits for them (R66, R74, R232, R255, R289, R299, R309, R310): known-sum tests of a bank, SEAL_BANK. -/

namespace Sys2Proof.Machine

/-- A seal test or a seal of a bank has ended: shards whose banks are all sealed are present, loads end, moved slices run again. -/
def afterSeal (s : State) : State := afterMoves (settleImages s)

/-- FULL_KNOWN_SUM_TEST (R45, R58, R59, R299, R309): a bank in PROGRAMMING whose test has passed is sealed. -/
def execFullKnownSumTest (bank : Nat) (r : KsResult) (s : State) : Res :=
  if !bankExists s bank then .fault .absentUnit
  else if !testAllowed s bank then .next s
  else .next (afterSeal (sealTested bank (fullTest bank r s)))

/-- COLUMN_RETEST_TIMER (R310): a full test of the bank, at least 1 s after the one before; the last one ends the classification. -/
def execColumnRetestTimer (bank : Nat) (r : KsResult) (s : State) : Res :=
  if !bankExists s bank then .fault .absentUnit
  else
    let d := schedOf s bank
    if d.retests = 0 || !testAllowed s bank || !(decide (1000000000 ≤ (tideOf s - d.testedAt).toNat)) then .next s
    else
      let s := fullTest bank r s
      if (schedOf s bank).calib.isSome then .next s
      else
        let s := modSched bank (fun d => { d with retests := d.retests - 1 }) s
        .next (if (schedOf s bank).retests = 0 then closeColumns bank s else s)

/-- SEAL_BANK's effect (R289). -/
def sealCmd (c : Fin 8) (s : State) : State :=
  stateCmd c (fun b => b.state == .programming && !b.ops.any opStopped) (fun n s => afterSeal (sealedMoves n (sealNow n s))) s

/-- SEAL_BANK (R289). -/
def execSealBank (i : Initiator) (ch : Fin 8) (s : State) : Res := unlocked i ch.val s (sealCmd ch)

/-! ## Bytes of the window (R265 to R268) -/

/-- What a listed command code does (R268); any other code sets SEQ_ERR. -/
def codeCmd (c : Fin 8) (code : Nat) (s : State) : State :=
  match code with
  | 0x10 => operationCmd c .programRow s
  | 0x40 => operationCmd c .programWord s
  | 0x20 => operationCmd c .eraseBank s
  | 0x21 => operationCmd c .topUpRow s
  | 0x03 => operationCmd c .readRow s
  | 0x90 => operationCmd c .readMargin s
  | 0x61 => stateCmd c (fun b => b.state == .erased) (setMode false) s
  | 0x62 => stateCmd c (fun b => b.state == .erased) (setMode true) s
  | 0xC1 => sealCmd c s
  | 0xC4 => markCmd c s
  | 0x70 => channelCmd c (fun x => { x with statusMode := true }) s
  | 0xF0 => channelCmd c (fun x => { x with statusMode := false }) s
  | _ => seqError c.val s

/-- One byte written to a command window (R266 to R268): SUSPEND and RESUME at any offset, the three steps of the unlock
sequence at theirs; every other write breaks the sequence. -/
def windowByte (c : Fin 8) (offset : BitVec 12) (byte : Byte) (s : State) : State :=
  if byte == 0xB0 then suspendByte c.val s
  else if byte == 0x30 then resumeByte c.val s
  else match (chanOf s c.val).unlock with
    | .idle =>
      if offset == 0xE38 && byte == 0x5C then modChan c.val (fun x => { x with unlock := .unlock1 }) s else seqError c.val s
    | .unlock1 =>
      if offset == 0x71C && byte == 0xA3 then modChan c.val (fun x => { x with unlock := .unlock2 }) s else seqError c.val s
    | .unlock2 =>
      if offset == 0xE38 then codeCmd c byte.toNat (modChan c.val (fun x => { x with unlock := .idle }) s)
      else seqError c.val s

/-- AWL_UNLOCK_STEP (R266): 0x5C at 0xE38 from idle, 0xA3 at 0x71C after it. -/
def execAwlUnlockStep (i : Initiator) (ch : Fin 8) (offset : BitVec 12) (byte : Byte) (s : State) : Res :=
  if !isCore i then .next (privDrop s) else .next (windowByte ch offset byte s)

/-- AWL_STRAY_BYTE (R266 to R268): a byte that no other row names, an unlisted code after a complete unlock among them. -/
def execAwlStrayByte (i : Initiator) (ch : Fin 8) (offset : BitVec 12) (byte : Byte) (s : State) : Res :=
  if !isCore i then .next (privDrop s) else .next (windowByte ch offset byte s)

end Sys2Proof.Machine
end

