-- ==== Sys2Proof/Machine/Harbour.lean ====
section
/-! DEFINITION. Harbour accesses (R157 to R169, R319 to R327) and the BAR4 window (R167), region clears, the patrol scrub, the
drain of the buckets. Choices of the model: notes/assumptions/14.md (DEDUCED), notes/assumptions/16.md (DEDUCED). -/

namespace Sys2Proof.Machine

/-! ## Rows of the Harbour (R158, R162 to R166) -/

/-- HARBOUR_READ (R158, R162, R173, R321 to R327): a READ_REQ of 1 to 32 flits from the word at `h`; `upsets` are bits of the
first granule's words that have been upset since the last access. -/
def execHarbourRead (port : BitVec 12) (h : BitVec 30) (flits : Nat) (upsets : List (Nat × Nat)) (s : State) : Res :=
  let g := h.toNat / 64
  let s := { s with hbr := upsets.foldl (fun hb e => if e.1 < 8 then upsetBit (8 * g + e.1) e.2 hb else hb) s.hbr }
  .next (access { port, h, kind := .read (max 1 (min 32 flits)) } s)

/-- HARBOUR_WRITE (R158, R162, R322, R332). -/
def execHarbourWrite (port : BitVec 12) (h : BitVec 30) (data : Bytes) (poison : BitVec 8) (s : State) : Res :=
  .next (access { port, h, kind := .write data poison } s)

/-- HARBOUR_PARTIAL_WRITE (R158, R163). -/
def execHarbourPartialWrite (port : BitVec 12) (h : BitVec 30) (data : Bytes) (poison : BitVec 8) (s : State) : Res :=
  .next (access { port, h, kind := .partialWrite data poison } s)

/-! ## Region clears and handovers (R161, R164) -/

/-- The new holder receives a cleared segment (R161 step 4). -/
def handOver (n : Nat) (s : State) : State :=
  let g := segOf s n
  match g.next with
  | none => s
  | some (use, holder) =>
    let s := modSeg n (fun _ => { use, holder, next := none, waiter := none }) s
    let hs := (List.range 4096).map fun k => BitVec.ofNat 16 (4096 * n + k)
    let s := match use with
      | .last => poolReturn holder.toNat hs s
      | .kv => poolReturn (kvPool holder.toNat) hs s
      | _ => s
    match g.waiter with
    | some a => finishDrain a s
    | none => s

/-- REGION_CLEAR_DONE (R161, R162, R164): the valid bits of the region are reset, and what waited for the clear goes on. -/
def execRegionClearDone (base : BitVec 30) (s : State) : Res :=
  let b := base.toNat
  match s.hbr.clears.find? fun r => r.1 = b with
  | none => .next s
  | some r =>
    let h := hClear s.hbr b r.2
    let s := noteCleared r.2 { s with hbr := { h with clears := h.clears.erase r } }
    let n := addrSeg b
    let s := if b = n * 2 ^ 26 && r.2 = 2 ^ 26 then handOver n s else s
    .next (serveWaiting s)

/-! ## BAR4 (R167, R446) -/

/-- An initiator is privileged (R446, R510): a core, or Port U while the policy allows it. -/
def privileged (s : State) (i : Initiator) : Bool :=
  match i with
  | .core _ => true
  | .portU => s.sec.policy.getLsbD 0
  | .portD => false

/-- A BAR4 access is dropped (R167): reads return zeros. -/
def barDrop (i : Initiator) (len : Nat) (write : Option Bytes) (s : State) : State :=
  let s := bump (ob 0x4011 1) s
  if write.isNone then send (.portData i (List.replicate len 0) false) s else s

/-- BAR4_ACCESS (R166, R167). DESIGN CHOICE (notes/assumptions/14.md): an access of length 0, and one that runs from one segment into
the next, is dropped and counted; the rule speaks of the addressed segment only. -/
def execBar4Access (i : Initiator) (x : BitVec 30) (len : Nat) (write : Option Bytes) (s : State) : Res :=
  let a := x.toNat
  let n := addrSeg a
  let g := segOf s n
  let open_ := match i with
    | .portD => false
    | _ => (g.use == .host) || ((g.use == .context || g.use == .system) && privileged s i)
  let inside := decide (0 < len) && addrSeg (a + len - 1) = n
  if open_ && inside && !(domState s (domSeg n) == .failed) then
    .next (access { port := initPort i, h := x, kind := .bar i len write } s)
  else .next (barDrop i len write s)

/-! ## The patrol scrub and the buckets (R324, R327) -/

/-- PATROL_SCRUB (R323, R324): one pass over every valid granule of every ON segment. -/
def execPatrolScrub (upsets : List (Nat × Nat)) (s : State) : Res :=
  let s := { s with hbr := upsets.foldl (fun hb (e : Nat × Nat) => upsetBit e.1 e.2 hb) s.hbr }
  let due := s.hbr.valid.filter fun g => domIsOn s (domSeg (addrSeg (64 * g))) && !underClear s (64 * g)
  .next (due.foldl (fun s g => touchGranule g s) s)

/-- CE_BUCKET_DRAIN (R327): the drain interval of one instance kind has passed. -/
def execCeBucketDrain (kind : Fin 5) (s : State) : Res :=
  let one := fun (e : Nat × Bucket) => if e.1 / 65536 = kind.val then (e.1, { e.2 with count := e.2.count - 1 }) else e
  .next { s with integ := { s.integ with buckets := s.integ.buckets.map one } }

/-! ## The handshake watchdog (R21) -/

/-- HANDSHAKE_WATCHDOG (R21, R25, R175, R334, R336, R339): packets that the unit's port has not acknowledged are issued again. -/
def execHandshakeWatchdog (u : UnitRef) (s : State) : Res :=
  match u with
  | .island i =>
    if i < nIslands s then .next (resendTo (homePort i) (islandFailure i (raise .watchdog 3 i s))) else .fault .absentUnit
  | .ferry f => .next (ferryFailure f.val (raise .watchdog 5 f.val s))
  | .cluster c => .next (resendTo (homePort (2048 + c.val)) (clusterFailure c.val (raise .watchdog 6 c.val s)))
  | .other n => .next (moduleFault (raise .watchdog 0 n s))

end Sys2Proof.Machine
end

