-- ==== Sys2Proof/Machine/Strait.lean ====
section
/-! DEFINITION. Strait links, Tide alignment and device groups (R380 to R411), and a packet's hop over the Sound (R172 to
R175). Choices of the model: notes/assumptions/15.md (DEDUCED), notes/assumptions/19.md (DEDUCED). -/

namespace Sys2Proof.Machine

/-! ## The Sound hop (R172 to R175, R321, R322) -/

/-- A flit as a hop delivers it: corrected, a poison mark kept (R175, R321). -/
def hopFlit (f : Flit) : Flit :=
  match eccDecode (syndrome f.data f.check) with
  | .dataBit i => mkFlit (f.data ^^^ BitVec.ofNat 64 (2 ^ i))
  | .checkBit _ => mkFlit f.data
  | _ => f

/-- A flit that the hop corrects. -/
def flitCorrected (f : Flit) : Bool :=
  match eccDecode (syndrome f.data f.check) with
  | .dataBit _ => true
  | .checkBit _ => true
  | _ => false

/-- The type of a packet by its header (R172). -/
def packetType (h : Flit) : Nat := bitsAt h.data.toNat 63 60

/-- The packet carries a poison mark (R173, R322). -/
def packetPoison (p : List Flit) : Bool :=
  match p with
  | [] => false
  | h :: t => (packetType h = 2 && bitAt h.data.toNat 27) || t.any fun f => eccDecode (syndrome f.data f.check) == .poison

/-- The Sound port that a packet's header names as its sender: SRC_PORT, or the source unit of a long sum (R99, R173). -/
def packetSender (h : Flit) : Nat :=
  let n := h.data.toNat
  if packetType h = 3 then (if bitAt n 42 then 2048 + bitsAt n 34 31 else bitsAt n 41 31) else bitsAt n 44 33

/-- The record of the link port's link or half-link that reaches member m. -/
def portLink (s : State) (port m : Nat) : Option Nat :=
  [port - 2339, port - 2339 + 7].find? fun k => linkReaches (linkOf s k) m

/-- The POISON bits and payload words of a DATA FLIT (R383, R384). -/
def flitWords (p : List Flit) : Nat × List Nat :=
  ((((List.range p.length).zip p).map fun e => if (flitData e.2).2 then 2 ^ e.1 else 0).sum,
   p.map fun f => (flitData f).1.toNat)

/-- The DATA packet that answers a READ_REQ which is not carried: its payload is poisoned (R405, R406). -/
def poisonAnswer (h : Flit) : List Flit :=
  let n := h.data.toNat
  let head := 2 * 2 ^ 60 + bitsAt n 59 57 * 2 ^ 57 + bitsAt n 44 33 * 2 ^ 45 + bitsAt n 56 45 * 2 ^ 33 +
    bitsAt n 32 28 * 2 ^ 28 + 2 ^ 27 + bitsAt n 26 0
  mkFlit (BitVec.ofNat 64 head) :: (List.range (bitsAt n 32 28 + 1)).map fun _ => poisonFlit (mkFlit 0)

/-- The sending link port takes a packet for another module (R384, R396, R405): each packet begins a FLIT. -/
def sendPacket (port : Nat) (h : Flit) (body : List Flit) (s : State) : State :=
  let dm := bitsAt h.data.toNat 59 57
  let t := packetType h
  if t ≠ 1 && t ≠ 2 && t ≠ 3 then bump (ob 0x6214 1) s
  else match (if mayCarry s dm then portLink s port dm else none) with
    | some k =>
      (chunksOf 30 (body.length + 1) (h :: body)).foldl (fun s c => transmit k 1 (flitWords c).1 (flitWords c).2 s) s
    | none =>
      if t = 1 then send (.soundData (BitVec.ofNat 12 (packetSender h)) (poisonAnswer h) true) s
      else bump (ob 0x6214 1) s

/-- A packet leaves the hop towards its port. -/
def hopDeliver (port : BitVec 12) (h : Flit) (body : List Flit) (s : State) : State :=
  -- the link layer delivers exactly once (R102): from here on the sender holds nothing
  if 2339 ≤ port.toNat then ackPacket [h] (sendPacket port.toNat h body s)
  else send (.soundData port (h :: body) (packetPoison (h :: body))) s

/-- A packet is discarded or delivered poisoned by a hop (R175): counted; a discarded one is issued
again (R21), and at an island's port it is a failure of the island (R336). -/
def hopFault (port : BitVec 12) (packet : List Flit) (discarded : Bool) (s : State) : State :=
  let s := bump (ob 0x4032 1) s
  if discarded then resendLost port packet (if port.toNat < 2048 then islandFailure port.toNat s else s) else s

/-- Sound ports of the part (R171). -/
def portExists (s : State) (port : BitVec 12) : Bool :=
  port.toNat < nIslands s || (2048 ≤ port.toNat && port.toNat ≤ 2345)

/-- Count the corrected flits of a packet (R175, R323). -/
def countCorrected (port : BitVec 12) (p : List Flit) (s : State) : State :=
  (p.filter flitCorrected).foldl (fun s _ =>
    bucketAdd 4 port.toNat (bump (ob 0x8042 1) (bump (ob 0x4030 1) s))) s

/-- SOUND_HOP (R172, R175, R384, R405): a packet with its flits as they finally arrived, and how often each was resent. -/
def execSoundHop (port : BitVec 12) (packet : List Flit) (resends : List Nat) (s : State) : Res :=
  if !portExists s port then .fault .absentUnit
  else
    match packet with
    | [] => .next s
    | h0 :: rest =>
      let n := (((List.range packet.length).zip packet).map fun e =>
        if flitBroken e.2 then 2 else min 2 (resends.getD e.1 0)).sum
      let s := countCorrected port packet (bumpBy (ob 0x4031 1) n s)
      let h := hopFlit h0
      let body := rest.map hopFlit
      let t := packetType h
      if flitBroken h0 then .next (hopFault port packet true s)
      else if t = 0 || 8 ≤ t then .next (raise .snBadType 8 port.toNat (bump (ob 0x4033 1) s))
      else if !(rest.any flitBroken) then .next (hopDeliver port h body s)
      else if t = 2 then
        let h := mkFlit (h.data ||| BitVec.ofNat 64 (2 ^ 27))
        .next (hopFault port packet false (hopDeliver port h (body.map fun f => if flitBroken f then poisonFlit f else f) s))
      else if t = 3 then .next (hopFault port packet false (hopDeliver port h (body.map poisonFlit) s))
      else .next (hopFault port packet true s)

/-! ## The replay buffer (R385, R386, R388) -/

/-- FLITs of a replay buffer after the acknowledged SEQ. -/
def afterAck (ack : BitVec 12) (l : List (BitVec 12 × Bytes)) : List (BitVec 12 × Bytes) :=
  if l.any fun e => e.1 = ack then (l.dropWhile fun e => e.1 ≠ ack).drop 1 else l

/-- Free the replay buffer up to the acknowledged SEQ, and send the FLITs that waited for the room (R385). -/
def acknowledge (k : Nat) (ack : BitVec 12) (s : State) : State :=
  let l := linkOf s k
  let left := afterAck ack l.replay
  let sent := min replayDepth l.replay.length - (l.replay.length - left.length)
  let s := modLink k (fun l => { l with replay := left }) s
  if l.retraining then s
  else ((left.take replayDepth).drop sent).foldl (fun s e => send (.straitFlit k e.1 e.2) s) s

/-- Re-send what the replay buffer holds, in order, and count the replay (R385). -/
def replayAll (k : Nat) (s : State) : State :=
  let l := linkOf s k
  if l.replay = [] then s
  else
    let s := modLink k (fun l => { l with replays := l.replays + 1 }) (bump (ob 0x6212 1) s)
    (l.replay.take replayDepth).foldl (fun s e => send (.straitFlit k e.1 e.2) s) s

/-! ## Aborts of group launches (R403) -/

/-- The group requests of these KEYs that this module holds (R402). -/
def groupReqs (s : State) (keys : List (BitVec 64)) : List Nat :=
  (reqsOfKeys s keys).filter fun a => ((tget? s.que.reqs a).map fun r => groupLast s r.slot).getD false

/-- Stop the requests of these KEYs here and drop what was agreed of them; count one abort (R403). -/
def abortKeys (unit : Nat) (keys : List (BitVec 64)) (s : State) : State :=
  let as_ := groupReqs s keys
  let s := modStrait (fun g =>
    { g with agreed := g.agreed.filter (fun e => !(e.1.any fun k => keys.contains k))
             reports := g.reports.filter fun r => !keys.contains r.key }) s
  if as_ = [] then s
  else
    let s := as_.foldl (fun s a => stopRequest a St.groupAborted 0 false s) s
    raise .groupAborted 8 unit (bump (ob 0x6208 1) s)

/-- Send ABORT to every member and abort here (R403); the member that detects it names what is missing also where it holds no
request of these KEYs itself. -/
def sendAbort (unit : Nat) (keys : List (BitVec 64)) (s : State) : State :=
  if keys = [] then s
  else
    let t := (peersOf s).foldl (fun s m => sendCtl m ctlAbort (keys.map BitVec.toNat) s) s
    let t := abortKeys unit keys t
    if groupReqs s keys = [] then raise .groupAborted 8 unit (bump (ob 0x6208 1) t) else t

/-- The KEYs of a launch. -/
def launchKeys (s : State) (x : Launch) : List (BitVec 64) := x.reqs.map fun r => keyAt s r.1

/-- Abort every group launch that runs (R403): a gang is lost or a member leaves. -/
def abortRunning (unit : Nat) (s : State) : State :=
  let keys := (s.model.launches.filter fun e => e.2.agreed.isSome).flatMap fun e => launchKeys s e.2
  sendAbort unit keys s

/-- The group disagrees from now on (R396). -/
def startDisagree (s : State) : State :=
  modStrait (fun g => { g with disagreeSince := some (g.disagreeSince.getD (tideOf s)) }) s

/-- The gang to member m has no link left (R389, R403). DESIGN CHOICE (notes/assumptions/19.md): the abort event's UNIT is m for a
missing module and m + 256 for a missing gang; R403 gives no layout. -/
def gangLost (m : Nat) (s : State) : State :=
  if (membersOf s).contains m then
    let s := startDisagree (modStrait (fun g => { g with gangs := tdel g.gangs m, collected := g.collected.erase m }) s)
    abortRunning (m + 256) s
  else modStrait (fun g => { g with gangs := tdel g.gangs m }) s

/-! ## Links (R380 to R389) -/

/-- Lanes of a link record that are retired: those of its physical link (R388). -/
def retiredLanes (s : State) (k : Nat) : BitVec 4 := (linkOf s (k % 7)).retired

/-- Set a link record's state (R389), with INT_CAUSE.STR_LINK on a change (R466). -/
def setLink (k : Nat) (st : LinkState) (s : State) : State :=
  if (linkOf s k).state == st then s else cause 7 (modLink k (fun l => { l with state := st }) s)

/-- Re-send a FLIT of a lost link on link `k` (R386), with its type, POISON bits and payload. -/
def resendOn (k : Nat) (f : Bytes) (s : State) : State :=
  let head := fld f 0 8
  transmit k (head % 16) (bitsAt head 58 29) ((List.range 30).map fun i => fld f (8 + 8 * i) 8) s

/-- A link or half-link is lost (R386): FLITs after the last one that its peer accepted go over another link of the gang,
ahead of newer ones. -/
def loseLink (k : Nat) (accepted : BitVec 12) (s : State) : State :=
  let l := linkOf s k
  if !(l.state == .exchange || (l.state == .failed && l.replay ≠ [])) then s
  else
    let m := l.peerA.toNat
    let st := if l.lanes = 0 then LinkState.failed else .down
    let s := setLink k st (modLink k (fun l => { l with replay := [], partialPacket := [], retraining := false }) s)
    match gangLink s m (k % 7) with
    | none => gangLost m s
    | some o =>
      let s := modLink o (fun y => if y.partialPacket = [] then { y with partialPacket := l.partialPacket } else y) s
      (afterAck accepted l.replay).foldl (fun s e => resendOn o e.2 s) s

/-- A lane turns permanent (R388): it is retired, and its link retrains on the others. -/
def retireLane (k lane : Nat) (s : State) : State :=
  let s := permanentEvent .lane (4 * (k % 7) + lane) s
  let bit := BitVec.ofNat 4 (2 ^ lane)
  let s := modLink (k % 7) (fun l => { l with retired := l.retired ||| bit }) s
  let s := modLink k (fun l => { l with lanes := l.lanes &&& ~~~bit, retraining := true }) s
  if (linkOf s k).lanes = 0 then
    let s := raise .linkFailed 8 (k % 7) (setLink k .failed (modLink k (fun l => { l with retraining := false }) s))
    let m := (linkOf s k).peerA.toNat
    if gangLinks s m = [] then gangLost m s else s
  else s

/-- A lane error episode (R387): one failure of the lane, unless one came within 1 ms. -/
def laneEpisode (k lane : Nat) (s : State) : State :=
  let fresh := match tget? (linkOf s k).episodes lane with
    | some t => decide (1000000 ≤ (tideOf s - t).toNat)
    | none => true
  if !fresh then s
  else
    let s := modLink k (fun l => { l with episodes := tset l.episodes lane (tideOf s) }) s
    let (s, perm) := countFailure .lane (4 * (k % 7) + lane) s
    if perm then retireLane k lane s else s

/-- The members of the group reach this module's links (R382, R389, R390). -/
def linksEnabled (s : State) : Bool := s.power.sref && membersOf s ≠ []

/-- One link record after training found a peer (R380, R389, R532). -/
def trainRecord (k : Nat) (lanes : BitVec 4) (halves : Bool) (a b : BitVec 3) (s : State) : State :=
  let l : Link := linkOf s k
  let st := if lanes = 0 then (if retiredLanes s k = 15 then LinkState.failed else .down)
    else if !(membersOf s).contains a.toNat then .disabled else .training
  let fresh : Link :=
    { state := l.state, halves, lanes, retired := l.retired, peerA := a, peerB := b, replays := l.replays, episodes := l.episodes }
  let s := setLink k st { s with strait := { s.strait with links := tset s.strait.links k fresh } }
  if lanes ≠ 0 && a.toNat = selfId s then raise .duplicateModId 8 a.toNat s else s

/-- LINK_TRAINING (R380, R382, R389, R532): the lanes, the form and the peers that training found. -/
def execLinkTraining (link : Fin 7) (lanes : BitVec 4) (halves : Bool) (peerA peerB : BitVec 3) (s : State) : Res :=
  let n := link.val
  let idle := fun (k : Nat) => !((linkOf s k).state == .exchange || (linkOf s k).state == .failed)
  if !linksEnabled s || !domIsOn s (domLink n) || !idle n || !idle (n + 7) then .next s
  else
    let lanes := lanes &&& ~~~retiredLanes s n
    if halves && peerA ≠ peerB then
      .next (trainRecord (n + 7) (lanes &&& 12) true peerB peerB (trainRecord n (lanes &&& 3) true peerA peerB s))
    else
      let s := { s with strait := { s.strait with links := tdel s.strait.links (n + 7) } }
      .next (trainRecord n lanes false peerA peerA s)

/-- The gang to member m enters EXCHANGE (R389, R394, R400). -/
def enterExchange (m : Nat) (s : State) : State :=
  let s := modStrait (fun g => { g with joining := true, disagreeSince := some (g.disagreeSince.getD (tideOf s)) })
    (cause 7 (setGang m .exchange s))
  startExchange s

/-- LINK_TRAINED (R389, R394, R400): the gang to `peer` enters EXCHANGE and manifests are exchanged; so does the gang of a
member that has left and rejoins. -/
def execLinkTrained (peer : BitVec 3) (s : State) : Res :=
  let m := peer.toNat
  let ks := (List.range 14).filter fun k => (linkOf s k).state == .training && (linkOf s k).peerA.toNat = m
  let back := gangState s m == .quarantine && (s.strait.left || s.strait.gone.contains m)
  if !linksEnabled s || !(peersOf s).contains m || (ks = [] && !back) then .next s
  else
    let was := gangLinks s m ≠ []
    let s := ks.foldl (fun s k => setLink k .exchange s) s
    .next (if was && !back then s else enterExchange m s)

/-- LANE_CE_INTERVAL (R387): a 1 ms interval of FEC corrections on a lane ends. -/
def execLaneCeInterval (half : Fin 14) (lane : Fin 4) (s : State) : Res :=
  let k := linkKey half.val
  let n := tget (linkOf s k).corrected lane.val 0
  let s := modLink k (fun l => { l with corrected := tdel l.corrected lane.val }) s
  .next (if dictNum s (ob 0x6211 1) < n then laneEpisode k lane.val s else s)

/-- LINK_RETRAIN_DONE (R388): traffic goes on, and unacknowledged FLITs are replayed. -/
def execLinkRetrainDone (half : Fin 14) (s : State) : Res :=
  let k := linkKey half.val
  if (linkOf s k).retraining then .next (replayAll k (modLink k (fun l => { l with retraining := false }) s)) else .next s

/-- NAK_RECEIVE (R385): every FLIT after the acknowledged SEQ is sent again. -/
def execNakReceive (half : Fin 14) (ack : BitVec 12) (s : State) : Res :=
  let k := linkKey half.val
  if (linkOf s k).state == .exchange then .next (replayAll k (acknowledge k ack s)) else .next s

/-- LINK_LOST (R386, R403). -/
def execLinkLost (half : Fin 14) (accepted : BitVec 12) (s : State) : Res := .next (loseLink (linkKey half.val) accepted s)

/-! ## Receiving FLITs (R383 to R385, R405, R406) -/

/-- Words of the packet that a header begins (R99, R173): none where the words so far do not tell yet. -/
def laneSpan : Nat → List Flit → Option Nat
  | 0, _ => some 0
  | _ + 1, [] => none
  | n + 1, d :: t =>
    let k := popNat 5 (bitsAt d.data.toNat 51 47)
    if t.length < k then none else (laneSpan n (t.drop k)).map fun m => m + 1 + k

def packetSpan (h : Flit) (t : List Flit) : Option Nat :=
  let n := h.data.toNat
  match packetType h with
  | 1 => some 0
  | 2 => if t.length < bitsAt n 32 28 + 1 then none else some (bitsAt n 32 28 + 1)
  | 3 => laneSpan (bitsAt n 14 3) t
  | _ => some 0

/-- The address of a packet lies in a LAST segment that a group Last holds (R406). -/
def remoteAllowed (s : State) (h : Flit) : Bool :=
  let n := h.data.toNat
  let a := bitsAt n 23 0 * 64 + bitsAt n 26 24 * 8
  let g := segOf s (addrSeg a)
  bitsAt n 56 45 = 2320 + addrSeg a && addrSeg a = addrSeg (a + 8 * bitsAt n 32 28 + 7) && g.use == .last &&
    decide (1 < (slotOf s g.holder.toNat).modules)

/-- A packet that has crossed a link goes to its port, or is refused (R101, R406). -/
def receivePacket (k : Nat) (h : Flit) (body : List Flit) (s : State) : State :=
  let n := h.data.toNat
  let poison := packetPoison (h :: body)
  match packetType h with
  | 3 => send (.soundData (BitVec.ofNat 12 (bitsAt n 56 46)) (h :: body) poison) s
  | t =>
    let port := bitsAt n 56 45
    if t = 1 || (2320 ≤ port && port ≤ 2335) then
      if remoteAllowed s h then send (.soundData (BitVec.ofNat 12 port) (h :: body) poison) s
      else
        let s := bump (ob 0x6214 1) s
        if t = 1 then
          let m := (linkOf s k).peerA.toNat
          let back := (poisonAnswer h).map fun f =>
            if packetType f = 2 then mkFlit (BitVec.ofNat 64 (f.data.toNat - bitsAt f.data.toNat 59 57 * 2 ^ 57 + m * 2 ^ 57)) else f
          match back with
          | [] => s
          | b :: r => sendPacket (2339 + k % 7) b r s
        else s
    else send (.soundData (BitVec.ofNat 12 port) (h :: body) poison) s

/-- Take the whole packets off the words that a link has received; a word of type 0 fills a FLIT's end. -/
def drainPackets (k : Nat) : Nat → List Flit → State → State
  | 0, l, s => modLink k (fun y => { y with partialPacket := l }) s
  | _ + 1, [], s => modLink k (fun y => { y with partialPacket := [] }) s
  | fuel + 1, h :: t, s =>
    if packetType h = 0 then drainPackets k fuel t s
    else match packetSpan h t with
      | none => modLink k (fun y => { y with partialPacket := h :: t }) s
      | some n => drainPackets k fuel (t.drop n) (receivePacket k h (t.take n) s)

/-- The Sound words of a DATA FLIT: check bytes computed anew, inverted where POISON is set (R384). -/
def flitPayload (f : Bytes) : List Flit :=
  let head := fld f 0 8
  (List.range 30).map fun i =>
    let w := mkFlit (BitVec.ofNat 64 (fld f (8 + 8 * i) 8))
    if bitAt head (29 + i) then poisonFlit w else w

/-- Add the bytes that FEC corrected to each lane's interval (R387). -/
def addCorrected (k : Nat) (counts : List Nat) (s : State) : State :=
  ((List.range 4).zip counts).foldl (fun s e =>
    if e.2 = 0 then s else modLink k (fun l => { l with corrected := tmod l.corrected e.1 0 fun c => c + e.2 }) s) s

/-- The single lane of a mask. -/
def onlyLane (m : BitVec 4) : Option Nat :=
  if m = 1 then some 0 else if m = 2 then some 1 else if m = 4 then some 2 else if m = 8 then some 3 else none

/-- FLIT_RECEIVE (R383 to R388): the FLIT as its FEC left it, the lanes with bytes that FEC could not correct, and the
bytes that it corrected on each lane. -/
def execFlitReceive (half : Fin 14) (flit : Bytes) (badLanes : BitVec 4) (corrected : List Nat) (s : State) : Res :=
  let k := linkKey half.val
  let l := linkOf s k
  if !(l.state == .exchange) || l.retraining then .next s
  else
    let f := fit flit 256
    let s := addCorrected k corrected s
    if fld f 248 4 ≠ (crc32c (f.take 248)).toNat then
      let s := send (.straitNak k l.rxSeq) s
      .next (match onlyLane badLanes with
        | some lane => laneEpisode k lane s
        | none => s)
    else
      let head := fld f 0 8
      let seq := BitVec.ofNat 12 (bitsAt head 15 4)
      if seq ≠ l.rxSeq + 1 then .next s
      else
        let s := acknowledge k (BitVec.ofNat 12 (bitsAt head 27 16)) (modLink k (fun l => { l with rxSeq := seq }) s)
        if head % 16 = 1 then
          let ws := l.partialPacket ++ flitPayload f
          .next (drainPackets k (ws.length + 1) ws s)
        else .next s

/-! ## Tide alignment (R397 to R401) -/

/-- Tide as a signed whole number, for differences of stamps. -/
def tideDiff (a b : BitVec 64) : Int := (a - b).toInt

/-- θ of one exchange (R399): rounded to the nearest tick, ties to even. -/
def syncTheta (t1 t2 t3 t4 : BitVec 64) : Int := rneDiv (tideDiff t2 t1 + tideDiff t3 t4) 2

/-- The one-way delay δ of one exchange (R399). -/
def syncDelta (t1 t2 t3 t4 : BitVec 64) : Int := rneDiv (tideDiff t2 t1 - tideDiff t3 t4) 2

/-- Insert into a rising list of offsets. -/
def insertInt (n : Int) : List Int → List Int
  | [] => [n]
  | k :: t => if n ≤ k then n :: k :: t else k :: insertInt n t

/-- A measurement of 16 exchanges: its result is the 8th smallest θ (R399). -/
def measureResult (l : List Int) : Int := (l.foldr insertInt []).getD 7 0

/-- The largest Tide epoch in the manifests of the members (R400). -/
def largestEpoch (s : State) : Nat := ((membersOf s).map fun m => fld (manifestOf s m) 12 4).foldl max 0

/-- Open the group epoch `e` (R400, R464): a joining module steps its Tide by −θ, an aligned one does not. -/
def openGroupEpoch (e : Nat) (step : Int) (s : State) : State :=
  let s := if step = 0 then s else bump (ob 0x2011 1) s
  let off := s.regs.offsetActive - BitVec.ofInt 64 step
  let s := { s with
    time := { s.time with epoch := BitVec.ofNat 32 e, slew := 0 }
    regs := { s.regs with offsetActive := off, offsetPending := off } }
  let s := rearmAlarm s
  let s := modStrait (fun g => { g with joining := false, aligned := true, left := false, gone := [], theta := none, thetas := [] }) s
  let s := sendManifest s
  modStrait (fun g => { g with collected := (peersOf s).filter fun m => fld (manifestOf s m) 12 4 = e }) s

/-- Open the epoch of a join that is under way, once it can be opened (R400): the leader when every manifest is in, another
member when the leader's manifest carries the new epoch and, where it is not aligned, a measurement has been made. -/
def tryOpenEpoch (s : State) : State :=
  if !s.strait.joining then s
  else if isLeader s then
    if allCollected s then openGroupEpoch (1 + largestEpoch s) 0 s else s
  else match leaderOf s with
    | none => s
    | some l =>
      let e := fld (manifestOf s l) 12 4
      if e ≤ s.time.epoch.toNat then s
      else if s.strait.aligned && !s.strait.left then openGroupEpoch e 0 s
      else match s.strait.theta with
        | some th => openGroupEpoch e th s
        | none => s

/-- What follows once manifests have come in (R394, R400). -/
def afterManifest (s : State) : State :=
  let s := tryOpenEpoch s
  if s.strait.joining || !allCollected s then s else judgeManifests s

/-- MANIFEST_RECEIVE (R392, R394, R400). -/
def execManifestReceive (manifest : Bytes) (s : State) : Res :=
  let m := fld manifest 6 1
  if !(peersOf s).contains m || gangLinks s m = [] then .next s
  else
    let s := modStrait (fun g => { g with manifests := tset g.manifests m manifest, collected := insertUp m g.collected }) s
    .next (askReady (afterManifest s))

/-- SYNC_MESSAGE (R399): a sync message arrives with the leader's t1 and is answered; or the exchange's last message closes
it with t2, t3 and t4, and its θ joins the present measurement. -/
def execSyncMessage (half : Fin 14) (t1 : BitVec 64) (t4 : Option (BitVec 64 × BitVec 64 × BitVec 64)) (s : State) : Res :=
  let l := linkOf s (linkKey half.val)
  if !(l.state == .exchange) then .next s
  else match t4 with
    | none => .next (sendCtl l.peerA.toNat ctlSync [t1.toNat, (tideOf s).toNat, (tideOf s).toNat] s)
    | some (t2, t3, t4) =>
      let ths := s.strait.thetas ++ [syncTheta t1 t2 t3 t4]
      if ths.length < 16 then .next (modStrait (fun g => { g with thetas := ths }) s)
      else
        let s := modStrait (fun g => { g with thetas := [], theta := some (measureResult ths) }) s
        .next (askReady (afterManifest s))

/-- Member m leaves the group (R401, R403): its gangs enter QUARANTINE, one event names it with reason TIDE (bit 16 of the
unit), and running group launches are aborted. -/
def memberLeaves (m : Nat) (s : State) : State :=
  let mine := decide (m = selfId s)
  let gangs := if mine then peersOf s else [m]
  let s := gangs.foldl (fun s k =>
    if gangLinks s k = [] || gangState s k == .quarantine then s
    else bump (ob 0x6209 1) (cause 7 (setGang k .quarantine s))) s
  let s := raise .memberLeft 8 (m + 2 ^ 16) s
  let s := if mine then bump (ob 0x2012 1) (modStrait (fun g => { g with left := true, aligned := false, measures := 0 }) s)
    else modStrait (fun g => { g with gone := insertUp m g.gone }) s
  abortRunning m (startDisagree { s with time := { s.time with slew := if mine then 0 else s.time.slew } })

/-- θ lies within two ticks (R401). -/
def smallTheta (t : Int) : Bool := decide (t.natAbs ≤ 2)

/-- SYNC_TIMER (R401): the 1 ms sync exchange with a member; `results` holds its θ and, where it exceeds 2 ticks, the
results of the measurements that follow. -/
def execSyncTimer (member : BitVec 3) (results : List Int) (s : State) : Res :=
  let m := member.toNat
  let mine := decide (m = selfId s)
  if !(membersOf s).contains m || leaderOf s = none || (mine && (isLeader s || !s.strait.aligned)) then .next s
  else
    let s := if isLeader s then sendCtl m ctlSync [(tideOf s).toNat] s else s
    match results with
    | [] => .next s
    | t :: ms =>
      let ms := ms.take (3 - s.strait.measures)
      let found := if smallTheta t then some t else ms.find? smallTheta
      match found with
      | some th =>
        .next (if mine then modStrait (fun g => { g with measures := 0 }) { s with time := { s.time with slew := th } } else s)
      | none =>
        if s.strait.measures + ms.length < 3 then
          .next (if mine then modStrait (fun g => { g with measures := g.measures + ms.length }) s else s)
        else .next (memberLeaves m s)

/-- SLEW_TICK (R401): one tick of a slew: the count is held while the member is ahead, and advances by two while it is
behind. -/
def execSlewTick (s : State) : Res :=
  let w := s.time.slew
  if w = 0 then .next s
  else if 0 < w then .next { s with time := { s.time with slew := w - 1 } }
  else .next { s with time := { s.time with slew := w + 1, pll := s.time.pll + 2 } }

/-! ## The group commit (R395) -/

/-- GROUP_COMMIT (R395): at `grp.commit_tide` the held changes apply as one and manifests are exchanged. -/
def execGroupCommit (s : State) : Res :=
  let t := dictNum s (ob 0x6204 1)
  if membersOf s = [] || t = 0 || (tideOf s).toNat < t then .next s
  else
    let s := if s.dict.heldGroup = [] then s else applyValues s.dict.heldGroup s
    let s := modDict (fun d => { d with heldGroup := [], groupPending := false }) s
    .next (startExchange (modStrait (fun g => { g with listed := listedNow s }) s))

/-! ## Launching at an agreed count (R402 to R404) -/

/-- REQUEST_REPORT (R402): the leader takes a member's report. -/
def execRequestReport (member : BitVec 3) (slot : Fin 64) (key : BitVec 64) (ctx : BitVec 32) (s : State) : Res :=
  if isLeader s && (peersOf s).contains member.toNat then
    .next (askReady (addReport member.toNat slot.val ctx.toNat key s))
  else .next s

/-- LAUNCH_MESSAGE (R396, R402, R404): the member asks for the launch, whose joins open when the governor admits it. -/
def execLaunchMessage (keys : List (BitVec 64)) (gen : BitVec 16) (tl : BitVec 64) (s : State) : Res :=
  if membersOf s = [] || reqsOfKeys s keys = [] then .next s
  else
    let s := if tl.toNat < (tideOf s).toNat then bump (ob 0x620A 1) s else s
    .next (askReady (modStrait (fun g => { g with agreed := g.agreed ++ [(keys, gen, tl)] }) s))

/-- GROUP_LAUNCH_AT_TIDE (R396, R402): Tide reaches the agreed count of an admitted launch. -/
def execGroupLaunchAtTide (launch : Nat) (s : State) : Res :=
  match tget? s.model.launches launch with
  | none => .next s
  | some x =>
    match x.agreed with
    | none => .next s
    | some t =>
      if x.begun || (tideOf s).toNat < t.toNat then .next s
      else if groupRefuses s t then .next (refuseAgreed (launchKeys s x, x.gen, t) s)
      else .next (modLaunch launch (fun x => { x with begun := true }) s)

/-- A join of the launch lacks a remote source's final mark (R403): the module that it waits for. -/
def missingRemote (s : State) (launch : Nat) : Option Nat :=
  (launchJoins s launch).findSome? fun e => e.2.2.sources.findSome? fun x => match x.id with
    | .remote m _ => if x.final || m = selfId s then none else some m
    | _ => none

/-- BARRIER_DEADLINE (R403). -/
def execBarrierDeadline (launch : Nat) (s : State) : Res :=
  match tget? s.model.launches launch with
  | none => .next s
  | some x =>
    match x.agreed, missingRemote s launch with
    | some t, some m =>
      if t.toNat + 1000 * dictNum s (ob 0x6206 1) ≤ (tideOf s).toNat then .next (askReady (sendAbort m (launchKeys s x) s))
      else .next s
    | _, _ => .next s

/-- REPORT_TIMEOUT (R403): the leader aborts a request that not every member has reported in time. -/
def execReportTimeout (key : BitVec 64) (s : State) : Res :=
  match s.strait.reports.find? fun r => r.key = key with
  | none => .next s
  | some r =>
    let silent := (membersOf s).find? fun m => !r.members.contains m
    match silent with
    | none => .next s
    | some m =>
      if isLeader s && 1000 * dictNum s (ob 0x6206 1) ≤ (tideOf s - r.since).toNat then
        .next (askReady (sendAbort m [key] s))
      else .next s

/-- ABORT_MESSAGE (R403): a launch that has completed here is not touched. -/
def execAbortMessage (keys : List (BitVec 64)) (s : State) : Res := .next (askReady (abortKeys 255 keys s))

/-! ## Multicast (R407 to R411) -/

/-- Change a multicast group of a slot. -/
def modMcast (slot group : Nat) (f : Mcast → Mcast) (s : State) : State :=
  modStrait (fun g => { g with mcasts := g.mcasts.map fun m => if m.slot = slot && m.plan.group = group then f m else m }) s

def mcastOf (s : State) (slot group : Nat) : Option Mcast :=
  s.strait.mcasts.find? fun m => m.slot = slot && m.plan.group = group

/-- This module sends for the group. -/
def mcastSends (s : State) (m : Mcast) : Bool := membersOf s ≠ [] && m.plan.sender = rankOf s (selfId s)

/-- MCAST_GRANT (R408 steps 1 and 5): the sender takes a receiver's grant of a slab. -/
def execMcastGrant (slot : Fin 64) (group : Fin 256) (member : BitVec 3) (h : BitVec 30) (s : State) : Res :=
  match mcastOf s slot.val group.val with
  | none => .next s
  | some m =>
    if mcastSends s m && m.plan.receivers.getLsbD (rankOf s member.toNat) && (peersOf s).contains member.toNat then
      .next (modMcast slot.val group.val (fun m => { m with grants := m.grants ++ [(member.toNat, h)] }) s)
    else .next s

/-- The Lace entry that 64 bits spell (R177). -/
def entryOfWord (w : Nat) : LaceEntry :=
  { slab := BitVec.ofNat 16 (bitsAt w 15 0), fill := BitVec.ofNat 15 (bitsAt w 30 16), poison := bitAt w 31, special := bitAt w 32,
    last := bitAt w 33, late := bitAt w 34, gen := BitVec.ofNat 16 (bitsAt w 51 36), seq := BitVec.ofNat 12 (bitsAt w 63 52) }

/-- Where a copy that has come begins in the vectors of its launch, and the requests whose data it carries (R186, R189). -/
def placeCopy (n : Nat) (e : LaceEntry) (s : State) : State :=
  match tget? s.flow.laces n with
  | none => s
  | some la =>
    let planes := lacePlanes s n
    let unit := max 1 (if planes then laceBlocks s n else ((feedStream s n).map fun y => y.bytes).getD 1)
    let size := if planes then (slabHeader (harbRead s (slabAddr e.slab.toNat) 64)).2.2.1 else e.fill.toNat
    let vec := la.came / unit
    let past := (la.came + size + unit - 1) / unit
    let reqs := ((tget? s.model.launches la.launch).map fun x =>
      ((List.range (past - vec)).filterMap fun i => vecReq x.reqs (vec + i)).eraseDups).getD []
    modLace n (fun la => { la with
      came := la.came + size
      held := la.held.map fun k => if k.h = e.slab then { k with vec, off := la.came % unit, reqs, awaits := false } else k }) s

/-- MCAST_PUSH (R408 step 4): the link port passes the entry to the Lace engine, which pushes it onto the destination Lace of
the launch that granted the slab. -/
def execMcastPush (half : Fin 14) (lace : Fin 4096) (entry : BitVec 64) (s : State) : Res :=
  let e := entryOfWord entry.toNat
  if !((linkOf s (linkKey half.val)).state == .exchange) then .next s
  else
    let hw := s.model.launches.findSome? fun x => (x.2.laces.find? fun y => y.1 = lace.val &&
      ((tget? s.flow.laces y.2).map fun la => la.held.any fun k => k.h = e.slab && k.awaits).getD false).map Prod.snd
    match hw with
    | none => .next s
    | some n => .next (pushEntry n e (placeCopy n e s))

/-- MCAST_CREDIT (R409): a receiver's copy has been released by all its consumers. -/
def execMcastCredit (slot : Fin 64) (group : Fin 256) (member : BitVec 3) (handle : BitVec 16) (s : State) : Res :=
  let drop := fun (m : Mcast) =>
    match m.credits.find? fun c => c.1 = member.toNat && c.2.1 = handle with
    | some c => { m with credits := m.credits.erase c }
    | none => m
  .next (modMcast slot.val group.val drop s)

/-- The depth of the stream that feeds a multicast group (R185). -/
def mcastDepth (s : State) (m : Mcast) : Nat :=
  ((s.flow.ferries.flatMap fun f => f.2.streams).findSome? fun t =>
    if descMcast t.2.desc && (descGroup s t.2.desc).map (fun g => (g.slot, g.plan.group)) = some (m.slot, m.plan.group) then
      some t.2.desc.depth.toNat else none).getD 0

/-- The sender waits on this member's credit alone, for longer than the threshold (R410). -/
def mcastStalled (s : State) (m : Mcast) (member : Nat) : Bool :=
  let mine := m.credits.filter fun c => c.1 = member
  let d := mcastDepth s m
  (mine.any fun c => decide (1000 * m.plan.stallUs < (tideOf s - c.2.2).toNat)) && decide (d ≤ mine.length) &&
    (mcastRemotes s m).all fun k => k = member || decide ((m.credits.filter fun c => c.1 = k).length < d)

/-- The requests of this module's running launches that consume a multicast Lace (R410). -/
def mcastReqs (s : State) (m : Mcast) : List Nat :=
  (s.model.launches.filter fun x => x.2.slot = m.slot && x.2.laces.any fun y => y.1 = m.plan.lace).flatMap fun x =>
    x.2.reqs.map Prod.fst

/-- SHED_STALL_TIMEOUT (R410, R411): the sender cuts a stalled receiver; the receiver that is cut stops the launch. -/
def execShedStallTimeout (slot : Fin 64) (group : Fin 256) (member : BitVec 3) (s : State) : Res :=
  match mcastOf s slot.val group.val with
  | none => .next s
  | some m =>
    let k := member.toNat
    if !m.plan.shed || strictOn s then .next s
    else if k = selfId s then
      if mcastSends s m || !m.plan.receivers.getLsbD (rankOf s k) then .next s
      else .next (askReady ((mcastReqs s m).foldl (fun s a => stopRequest a St.streamBroken 0 false s) s))
    else if mcastSends s m && (mcastRemotes s m).contains k && mcastStalled s m k then
      let cut := fun (m : Mcast) =>
        { m with cut := insertUp k m.cut, grants := m.grants.filter (fun g => g.1 ≠ k), credits := m.credits.filter fun c => c.1 ≠ k }
      .next (sendCtl k ctlCut [slot.val, group.val] (bump (ob 0x6221 1) (modMcast slot.val group.val cut s)))
    else .next s

end Sys2Proof.Machine
end

