-- ==== Sys2Proof/Machine/Ports.lean ====
section
/-! DEFINITION. The two PCIe ports (R342 to R352): resets, power states, the root port and its engine, and host accesses that
end in error. Choices of the model: notes/assumptions/31.md (DEDUCED). -/

namespace Sys2Proof.Machine

/-! ## What a port's reset does to its queues (R190, R347) -/

/-- An admitted command is cancelled and no completion is written for it (R190, R347); its key is unseen again (R367). -/
def dropCmd (a : Nat) (s : State) : State :=
  match tget? s.que.cmds a with
  | none => s
  | some c =>
    let s := modPair c.pair (keyForget (keySeq (entKey c.entry))) s
    let s := { s with que := { s.que with
      cmds := tdel s.que.cmds a, closing := s.que.closing.filter (fun e => e.2 ≠ a), parked := s.que.parked.filter fun e => e.1 ≠ a } }
    let s := revertKv a (recallRequest a s)
    let s := { s with que := { s.que with reqs := tdel s.que.reqs a } }
    let s := stopLoad a s
    let n := entSlot c.entry
    let undo := if !(c.stage == .draining) then []
      else if entOpcode c.entry = 0x19 && entSubop c.entry = 0 then [n]
      else if entOpcode c.entry = 0x18 && entSubop c.entry = 1 then rivals s n
      else []
    let s := undo.foldl (fun s m => modSlot m (fun sl => { sl with detaching := false }) s) s
    { s with hbr := { s.hbr with segs := s.hbr.segs.map fun e => (e.1, if e.2.waiter = some a then { e.2 with waiter := none } else e.2) } }

/-- A queue pair becomes DISABLED at once (R347). -/
def dropPair (q : Nat) (s : State) : State :=
  let mine := (s.que.cmds.filter fun e => e.2.pair = q).map Prod.fst
  let s := mine.foldl (fun s a => dropCmd a s) s
  modPair q (fun p => { p with state := .disabled, duplicates := [], fence := none, unsignalled := 0, firstUnsignalled := none }) s

/-- A message goes to this port. -/
def towards (p : Port) (m : OutMsg) : Bool :=
  match m with
  | .hostWrite q _ _ _ => q == p
  | .completion q _ _ => q == p
  | .zeroRead q => q == p
  | .msix q _ => q == p
  | _ => false

/-- A Function Level Reset, a link down or PERST_N acts on every queue pair of the port (R347). -/
def portQueues (p : Port) (s : State) : State :=
  if p == .d && dRoot s then s
  else
    let qs := (s.que.pairs.filter fun e => e.2.port == p && !(e.2.state == .disabled)).map Prod.fst
    let s := qs.foldl (fun s q => dropPair q s) s
    askReady { s with que := { s.que with held := s.que.held.filter fun m => !towards p m } }

/-- The engine is no longer there (R347, R349). -/
def dropEngine (p : Port) (s : State) : State :=
  if p == .d then { s with regs := { s.regs with engineFound := false, dConfig := [] } } else s

/-- The link of a port is down (R347). -/
def portLinkDown (p : Port) (s : State) : State :=
  let s := portQueues p s
  dropEngine p (modPort p (fun x => { x with linkUp := false, speed := 0, width := 0, flit := false, d3hot := false }) s)

/-- A port's domain is OFF: its configuration space, BARs and MSI-X table are lost (R467). -/
def portOff (p : Port) (s : State) : State :=
  let n := match p with | .u => 0 | .d => 1
  let s := modDom (domPort p) (fun d => { d with state := .off, current := none, queued := none }) s
  { s with regs := { s.regs with msix := s.regs.msix.filter fun e => e.1 / 65536 ≠ n } }

/-! ## Rows -/

/-- FUNCTION_LEVEL_RESET (R347). -/
def execFunctionLevelReset (port : Port) (s : State) : Res :=
  if (portOf s port).linkUp then .next (portQueues port s) else .next s

/-- PERST_N_ASSERT (R347, R467, R471): the port is OFF while its PERST_N is asserted. -/
def execPerstNAssert (port : Port) (s : State) : Res :=
  let s := portLinkDown port s
  .next (portOff port (modPort port (fun x => { x with perst := true }) s))

/-- The module is up far enough to bring a port up (R477, R497); in recovery Port D stays down (R506). -/
def portsRun (s : State) (p : Port) : Bool :=
  match s.power.phase with
  | .rom => true
  | .firmware => true
  | .ready => true
  | .recovery => p == .u
  | _ => false

/-- Start the wake of a port whose PERST_N is released (R467, R475). -/
def wakePort (p : Port) (s : State) : State :=
  let d := domOf s (domPort p)
  if !portsRun s p || (portOf s p).perst || d.current.isSome || !(d.state == .off || d.state == .failed) then s
  else modDom (domPort p) (fun d => { d with current := some .on, attempts := 0 }) s

/-- PERST_N_RELEASE (R349, R467): by the baseboard in ENDPOINT mode, by Uzomel in ROOT mode; a DISABLED port stays OFF. -/
def execPerstNRelease (port : Port) (s : State) : Res :=
  if port == .d && (s.regs.dMode = 2 || (dRoot s && !isReady s)) then .next s
  else .next (wakePort port (modPort port (fun x => { x with perst := false }) s))

/-- PCIE_LINK_DOWN (R347). -/
def execPcieLinkDown (port : Port) (s : State) : Res :=
  if !(portOf s port).linkUp then .next s
  else
    let s := if domState s (domPort port) == .ret then modDom (domPort port) (fun d => { d with state := .on }) s else s
    .next (portLinkDown port s)

/-- PCIE_LINK_UP (R343, R465): the link trains to L0. -/
def execPcieLinkUp (port : Port) (speed : BitVec 3) (width : BitVec 5) (flit : Bool) (s : State) : Res :=
  let x := portOf s port
  if !domIsOn s (domPort port) || x.perst || x.linkUp then .next s
  else .next (modPort port (fun x => { x with linkUp := true, speed, width, flit }) s)

/-- D3HOT_ENTRY (R346, R471). -/
def execD3hotEntry (port : Port) (s : State) : Res :=
  let x := portOf s port
  if !x.linkUp || x.d3hot then .next s
  else .next (modDom (domPort port) (fun d => { d with state := .ret }) (modPort port (fun x => { x with d3hot := true }) s))

/-- D0_RETURN (R346): held writes and completions are delivered unchanged, in order. -/
def execD0Return (port : Port) (s : State) : Res :=
  if !(portOf s port).d3hot then .next s
  else
    let s := modDom (domPort port) (fun d => { d with state := .on }) (modPort port (fun x => { x with d3hot := false }) s)
    let now := s.que.held.filter (towards port)
    let s := { s with que := { s.que with held := s.que.held.filter fun m => !towards port m } }
    .next (now.foldl (fun s m => send m s) s)

/-- ROOT_PORT_ENUMERATE (R349). -/
def execRootPortEnumerate (r : EnumResult) (s : State) : Res :=
  if !dRoot s || !isReady s || s.portD.perst then .next s
  else match r with
    | .device config =>
      if !s.portD.linkUp then .next s
      else .next { s with regs := { s.regs with engineFound := true, dConfig := fit config 4096 } }
    | .secondDevice => .next (raise .portDevice 7 1 (dropEngine .d s))
    | .isSwitch => .next (raise .portDevice 7 1 (dropEngine .d s))
    | .noTraining => .next (raise .portDevice 7 1 (dropEngine .d s))

/-- The engine is there and its link is up (R349, R350). -/
def engineUp (s : State) : Bool := dRoot s && s.regs.engineFound && s.portD.linkUp

/-- ENGINE_INTERRUPT_WRITE (R350): offset 4 × v of the interrupt page sends Port U's vector 1,792 + v. -/
def execEngineInterruptWrite (offset : BitVec 12) (s : State) : Res :=
  let o := offset.toNat
  if !engineUp s then .next s
  else if o % 4 = 0 && o < 1024 then .next (sendPort .u (.msix .u (1792 + o / 4)) s)
  else .next (send (.unsupported .portD) s)

/-- ENGINE_HARBOUR_ACCESS (R167, R350): HOST segments only; every other address is an Unsupported Request. -/
def execEngineHarbourAccess (addr : BitVec 64) (len : Nat) (write : Option Bytes) (s : State) : Res :=
  let a := addr.toNat
  if !engineUp s then .next s
  else if 2 ^ 30 ≤ a then .next (send (.unsupported .portD) s)
  else if inHostSegment s a len then
    .next (access { port := initPort .portD, h := BitVec.ofNat 30 a, kind := .engine len write } s)
  else .next (barDrop .portD len write s)

/-- The engine bus address of a window offset (R352). -/
def windowAddress (s : State) (offset : Nat) : BitVec 64 :=
  BitVec.ofNat 64 (s.regs.dwin.toNat / 2 ^ 23 * 2 ^ 23 + (offset - 0x800000))

/-- DOWNSTREAM_WINDOW_ACCESS (R352): `engine` is what the engine answered. -/
def execDownstreamWindowAccess (i : Initiator) (offset : BitVec 24) (write : Option Bytes) (engine : HostRead) (s : State) : Res :=
  if offset.toNat < 0x800000 then .next s
  else if !(i == .portU) || !dRoot s then
    .next (if write.isNone then send (.regData i 0) s else s)
  else
    let s := if engineUp s then send (.engineAccess (windowAddress s offset.toNat) write) s else s
    let answer : HostRead := if engineUp s then engine else .failed
    match answer with
    | .data b => .next (if write.isNone then send (.portData i b false) s else s)
    | .poisoned b => .next (if write.isNone then send (.portData i b true) s else s)
    | .failed =>
      let s := bump (ob 0x6003 1) s
      .next (if write.isNone then send (.regData i 0xFFFFFFFFFFFFFFFF) s else s)

/-- The command reads or writes host or engine memory (R360). -/
def namesHost (e : Bytes) : Bool :=
  let op := entOpcode e
  let sub := entSubop e
  [1, 4, 5, 0x10, 0x11, 0x20, 0x21].contains op || (op = 0x12 && sub = 0) || (op = 0x18 && sub ≤ 1) || (op = 0x19 && sub = 3)

/-- HOST_ACCESS_ERROR (R348): a read, or a posted write reported through AER, ends a command with HOST_ACCESS. -/
def execHostAccessError (a : Fin 4096) (e : AccessError) (detail : BitVec 16) (s : State) : Res :=
  match tget? s.que.cmds a.val with
  | none => .next s
  | some c =>
    let s := if e == .aerWrite then modPort (cmdPort s c) (fun x => { x with aer := x.aer + 1 }) s else s
    if c.stage == .parked || !namesHost c.entry then .next s
    else if (tget? s.que.reqs a.val).isSome then
      .next (askReady (stopRequest a.val St.hostAccess detail.toNat false s))
    else match tget? s.model.loads a.val with
      | some l =>
        let s := undoLoad l s
        let s := { s with model := { s.model with loads := tdel s.model.loads a.val } }
        .next (finish a.val { status := St.hostAccess, result := l.attempt, detail := detail.toNat } s)
      | none =>
        let s := { s with que := { s.que with closing := s.que.closing.filter fun e => e.2 ≠ a.val } }
        -- R214: a PLACE that fails writes its report before its completion
        let s := if entOpcode c.entry = 0x18 && entSubop c.entry = 0 then sendReport c (failedReport s none 0) s else s
        .next (finishAt a.val St.hostAccess detail.toNat s)

end Sys2Proof.Machine
end

