-- ==== Sys2Proof/Machine/Domains.lean ====
section
/-! DEFINITION. Requests to power domains (R470 to R474): what is refused, what drains first, what waits behind what; and the
common front of a write of one dictionary object (R419, R420, R429 to R433). Choices of the model:
notes/assumptions/35.md (DEDUCED). -/

namespace Sys2Proof.Machine

/-! ## Who may write an object (R419, R420, R429, R432, R433) -/

/-- The requester is privileged (R420). -/
def reqPrivileged (s : State) (r : Requester) : Bool :=
  match r with
  | .queue a =>
    match tget? s.que.cmds a.val with
    | some c => pairAdmin (pairOf s c.pair) && cmdPort s c == .u && s.sec.policy.getLsbD 0
    | none => false
  | .mctp _ _ => s.sec.policy.getLsbD 1

/-- A management-bus or DOE message waits for the core complex to wake (R471). -/
def holdMessage (i : Instr) (s : State) : State :=
  wantOn domCore (modDict (fun d => { d with waitingMsgs := d.waitingMsgs ++ [i] }) s)

/-- The core complex is in RET: what addresses it waits for its wake (R471). -/
def coreSleeps (s : State) : Bool := s.power.phase == .ready && domState s domCore == .ret

/-- The object that a DICT_READ or DICT_WRITE entry names (R360). -/
def entObject (e : Bytes) : Nat := fld e 0x10 2 * 256 + fld e 0x12 1

/-- A written value has the wrong length for its object (R418); a BLOB's chapter gives its length. -/
def lengthWrong (s : State) (obj : Nat) (b : Bytes) : Bool :=
  if obj = ob 0x6100 0 then decide (b.length ≠ 64)
  else if obj = ob 0x2006 0 then decide (b.length ≠ 1)
  else if obj = ob 0xA031 0 then decide (b.length ≠ 512)
  else match findObj s.liquid obj with
    | none => false
    | some d =>
      match d.ty with
      | .bool => decide (b.length ≠ 1)
      | .unsigned n => decide (b.length ≠ n)
      | .signed n => decide (b.length ≠ n)
      | .table n => decide (b.length ≠ n)
      | _ => false

/-- DETAIL of a dictionary write (R363, R417): the offset of the field at fault. -/
def writeDetail (s : State) (obj arg : Nat) (b : Bytes) (st : Nat) : Nat :=
  if st ≠ St.outOfRange then 0
  else if !(match findObj s.liquid obj with | some d => keyOk s d arg | none => true) then 0x18
  else if lengthWrong s obj b then 0x28
  else 0x20

/-- The reply to a dictionary write. -/
def writeReply (s : State) (obj arg : Nat) (b : Bytes) (st : Nat) : Reply :=
  { status := st, result := if st = St.success then b.length else 0, detail := writeDetail s obj arg b st }

/-- A write of one object: by an admitted DICT_WRITE that names it, or by a management-bus message. `f` gives the status and
the state for the bytes written; a queue's buffer is BUF_BYTES long. -/
def ownWrite (i : Instr) (r : Requester) (obj arg : Nat) (data : Bytes) (f : Bytes → State → Nat × State) (s : State) : State :=
  match r with
  | .queue a =>
    match cmdAt s a.val 0x21 with
    | none => s
    | some c =>
      if !isReady s || entObject c.entry ≠ obj || fld c.entry 0x18 8 ≠ arg then s
      else
        let b := fit data (fld c.entry 0x28 4)
        let (st, t) := f b s
        finish a.val (writeReply s obj arg b st) t
  | .mctp _ _ =>
    if coreSleeps s then holdMessage i s
    else if !uzomelRuns s then answer r { status := St.busy } s
    else
      let (st, t) := f data s
      answer r { status := st } t

/-! ## Requests (R471 to R474) -/

/-- The code of a target (R463). -/
def targetCode (t : PTarget) : Nat := match t with | .off => 0 | .ret => 1 | .on => 2

/-- The state that a target names. -/
def targetState (t : PTarget) : PState := match t with | .off => .off | .ret => .ret | .on => .on

/-- The core complex may enter RET (R471). -/
def coreMayRest (s : State) : Bool :=
  !(s.model.slots.any fun e => e.2.state == .bound) && s.que.cmds = [] &&
    s.power.doms.all fun e =>
      !(e.1 < 2048 || (2064 ≤ e.1 && e.1 < 2080)) || ((e.2.state == .ret || e.2.state == .off) && e.2.current ≠ some .on)

/-- The status with which a request is refused (R467, R474); none where it is accepted. DESIGN CHOICE (notes/assumptions/35.md): the
core complex takes RET only (R467), and R474 lists no status for ON and OFF: they are refused with NOT_PERMITTED. -/
def requestRefused (s : State) (n : Nat) (t : PTarget) : Option Nat :=
  let down := !(t == .on)
  if !domExists s n then some St.outOfRange
  else if n = domAlways || n = domPort .u || n = domPort .d || n = domSeg 0 || n = domSeg 1 then some St.notPermitted
  else if n = domCore then
    (if !(t == .ret) then some St.notPermitted else if coreMayRest s then none else some St.busy)
  else if domKind n = 2 && t == .off && !((segOf s (n - 2048)).use == .free) then some St.segmentBusy
  else if domKind n = 3 && down && s.power.standing = some (n - 2064) then some St.busy
  else if domKind n = 6 && down && s.model.slots.any (fun e => groupBound e.2) then some St.busy
  else if t == .on && (domOf s n).retired then some St.notPermitted
  else none

/-- The domain has no admitted work (R472). -/
def domDrained (s : State) (n : Nat) : Bool :=
  match domKind n with
  | 1 =>
    let i := islandOf s n
    i.threads = [] && i.joins = [] && i.pulses = [] && s.banks.all fun b => bankIsland b.1 ≠ n || b.2.ops = []
  | 2 =>
    let g := n - 2048
    !segHeld s g && !(s.hbr.waiting.any fun x => addrSeg x.h.toNat = g) && !(s.hbr.clears.any fun r => addrSeg r.1 = g) &&
      (segOf s g).next.isNone
  | 3 =>
    let c := clusterOf s (n - 2064)
    c.tiles = [] && c.current.isNone && c.recomputes = [] && c.joins = []
  | 4 => s.que.cmds = []
  | _ => true

/-- Start an accepted request that nothing precedes, or let it wait for the drain (R472). -/
def startRequest (n : Nat) (t : PTarget) (s : State) : State :=
  let d := domOf s n
  if d.state == targetState t then cause 6 s
  else match t with
    | .on => modDom n (fun d => { d with current := some .on, attempts := 0 }) s
    | _ =>
      if d.state == .failed then cause 6 s
      else if d.state == .on && !domDrained s n then modDom n (fun d => { d with queued := some t }) s
      else modDom n (fun d => { d with current := some t }) s

/-- A request of any source (R471 to R474): its status, and the state. -/
def domainRequest (n : Nat) (t : PTarget) (s : State) : Nat × State :=
  match requestRefused s n t with
  | some st =>
    (st, if domExists s n then cause 6 (modDom n (fun d => { d with refused := true }) s) else s)
  | none =>
    let d := domOf s n
    let s := if d.queued.isSome then bump (ob 0x2009 1) s else s
    let s := modDom n (fun d => { d with refused := false, queued := none }) s
    if d.current.isSome then (St.success, modDom n (fun d => { d with queued := some t }) s)
    else (St.success, startRequest n t s)

/-- One of the three request rows: from PWR_DOM_REQ, from `pwr.domain`, or from Uzomel. -/
def requestRow (i : Instr) (src : DomSource) (n : Nat) (t : PTarget) (s : State) : Res :=
  match src with
  | .reg who =>
    if !privileged s who then .next (privDrop s)
    else if s.regs.domSel.toNat % 4096 ≠ n then .next s
    else .next (crossing (fun s => (domainRequest n t s).2) s)
  | .dict r data =>
    if fld data 0 1 ≠ targetCode t then .next s
    else .next (ownWrite i r (ob 0x2006 0) n data
      (fun b s => if b.length = 1 then domainRequest n t s else (St.outOfRange, s)) s)
  | .uzomel => if uzomelRuns s then .next (domainRequest n t s).2 else .next s

/-- DOMAIN_REQUEST_ON (R471 to R474). -/
def execDomainRequestOn (src : DomSource) (dom : Nat) (s : State) : Res := requestRow (.domainRequestOn src dom) src dom .on s

/-- DOMAIN_REQUEST_RET (R471 to R474). -/
def execDomainRequestRet (src : DomSource) (dom : Nat) (s : State) : Res := requestRow (.domainRequestRet src dom) src dom .ret s

/-- DOMAIN_REQUEST_OFF (R471 to R474). -/
def execDomainRequestOff (src : DomSource) (dom : Nat) (s : State) : Res := requestRow (.domainRequestOff src dom) src dom .off s

/-! ## Idle timers and drains (R470, R472) -/

/-- The `tbl.pd_fsm` record of a domain's kind. -/
def pdRecord (s : State) (n : Nat) : Bytes := dictActive s (ob 0xB060 (domKind n)) 0

/-- A domain is idle with no request about it (R470). -/
def domIdle (s : State) (n : Nat) : Bool :=
  let d := domOf s n
  d.current.isNone && d.queued.isNone && domDrained s n

/-- DOMAIN_IDLE_RET_TIMER (R470): the domain has been idle for IDLE_RET_US. -/
def execDomainIdleRetTimer (dom : Nat) (s : State) : Res :=
  if !domExists s dom then .fault .absentUnit
  else if !uzomelRuns s || fld (pdRecord s dom) 8 4 = 0 || !domIsOn s dom || !domIdle s dom then .next s
  else .next (domainRequest dom .ret s).2

/-- The domain's kind takes OFF requests, and the segment is FREE (R467, R470). -/
def idleOffKind (s : State) (n : Nat) : Bool :=
  match domKind n with
  | 1 => true
  | 2 => (segOf s (n - 2048)).use == .free
  | 3 => true
  | 6 => true
  | _ => false

/-- DOMAIN_IDLE_OFF_TIMER (R470): the domain has been idle for IDLE_OFF_US. -/
def execDomainIdleOffTimer (dom : Nat) (s : State) : Res :=
  if !domExists s dom then .fault .absentUnit
  else if !uzomelRuns s || fld (pdRecord s dom) 12 4 = 0 || !(domIsOn s dom || domState s dom == .ret) || !domIdle s dom ||
      !idleOffKind s dom then .next s
  else .next (domainRequest dom .off s).2

/-- DOMAIN_DRAIN_END (R472): the work that a request to RET or OFF waited for has drained. -/
def execDomainDrainEnd (dom : Nat) (s : State) : Res :=
  if !domExists s dom then .fault .absentUnit
  else
    let d := domOf s dom
    if d.current.isSome || !domDrained s dom then .next s
    else match d.queued with
      | some .ret => .next (modDom dom (fun d => { d with current := some .ret, queued := none }) s)
      | some .off => .next (modDom dom (fun d => { d with current := some .off, queued := none }) s)
      | _ => .next s

end Sys2Proof.Machine
end

