-- ==== Sys2Proof/Machine/Boot.lean ====
section
/-! DEFINITION. Power-up, module reset, the boot ROM, the start of Uzomel, and recovery (R477, R482, R488, R495 to R509, R526
to R532). Choices of the model: notes/assumptions/4.md (DEDUCED), notes/assumptions/13.md (DEDUCED),
notes/assumptions/32.md (DEDUCED). -/

namespace Sys2Proof.Machine

/-! ## Firmware images (R495, R498, R502) -/

/-- Bytes of an image before its signatures (R502). -/
def imageBody (b : Bytes) : Nat := 0x80 + fld b 0x10 4

/-- The firmware hash (R502). -/
def firmwareHash (b : Bytes) : Digest := Config.sha384 (b.take (imageBody b))

/-- The slot's size (R501). -/
def slotBytes : Nat := 25165824

/-- The checks of R498 in order, on an image whose lines read without poison or not: the reason code, 0 where all pass. -/
def imageReason (s : State) (b : Bytes) (readable : Bool) : Nat :=
  let body := fld b 0x10 4
  let sigs := imageBody b
  let key := fld b 6 1
  let k := Config.fwKey key
  let hash := firmwareHash b
  if !readable then 1
  else if fld b 0 4 ≠ 0x57465856 || fld b 4 2 ≠ 1 || body = 0 || 25149088 < body || b.length < sigs + 16608 then 2
  else if Config.sha384 (sub b 0x80 body) ≠ sub b 0x20 48 then 3
  else if 1 < key || !s.sec.policy.getLsbD (3 + key) then 4
  else if !Config.rsaVerify k.1 k.2.1 hash (sub b sigs 384) then 5
  else if !Config.slhVerify k.2.2 hash (sub b (sigs + 384) 16224) then 6
  else if fld b 0xC 2 < ratchetCount s.sec.svnPairs then 7
  else if !bitAt (fld b 7 1) (if s.part816 then 0 else 1) then 8
  else 0

def modSec (f : Sec → Sec) (s : State) : State := { s with sec := f s.sec }

/-- The boot ROM appends a record to `evt.fault_log` (R440, R477, R506, R515). -/
def romRecord (name : EventName) (unit : Nat) (s : State) : State :=
  let e : Event := { seq := s.dict.nextSeq, tide := tideOf s, epoch := s.time.epoch, pcycle := BitVec.ofNat 32 (pcycleOf s),
                     name, severity := 3, unitKind := 0, unit }
  faultRecord e (modDict (fun d => { d with nextSeq := d.nextSeq + 1 }) s)

/-! ## What a module reset leaves (R25, R73, R77, R201, R231, R257, R338, R476, R482, R488) -/

/-- A bank after a module reset: trim codes are gone; an erase that ran, or that Uzomel had asked for, stays to be restarted. -/
def bankAfterReset (b : Bank) : Bank :=
  let erases := b.ops.filter fun o => o.kind == .eraseBank && (!(o.phase == .queued) || o.chan.isNone)
  let op := (erases.take 1).map fun o =>
    { o with chan := none, phase := .suspended, floor := false, run := false, suspendedFor := 0, starved := false }
  { b with trims := [], lastUse := none, ops := op, reserved := false }

/-- A schedule record after a module reset (R491): what was stored last. -/
def schedAfterReset (total : Nat) (d : Sched) : Sched :=
  { d with
    drift := d.storedDrift, reruns := d.storedReruns, run := none, window := false, afterTopup := false,
    retests := 0, afterRecompute := false, sealFails := 0, rebuilding := false, dueRebuild := d.dueRebuild || d.rebuilding,
    dueForced := false, testedAt := 0, measuredAt := min d.measuredAt total, calib := none, calibCols := [], calibUnnamed := false,
    sealTested := false, moveFrom := none, belowSince := none }

/-- A swap after a module reset (R257). -/
def swapAfterReset (w : Swap) : Swap :=
  if w.mode == .inPlace && w.switched then { w with interrupted := true, switchTide := none, stopped := false, rewritten := false }
  else { w with switchTide := none, rewritten := false }

/-- A Last slot after a module reset (R201). -/
def slotAfterReset (sl : Slot) : Slot :=
  { sl with state := if sl.state == .bound then .resident else sl.state, detaching := false, swap := sl.swap.map swapAfterReset }

/-- An image record after a module reset (R231, R232, R240): shards whose banks had not all been sealed are missing. -/
def imagesAfterReset (s : State) : Tab ImageRec := s.model.images.map fun e => (e.1, { e.2 with written := [] })

/-- Objects whose active value does not outlast power: RW objects that are VOLATILE (R421). -/
def volatileObject (obj : Nat) : Bool := obj = ob 0x4010 1 || obj = ob 0x6204 1

/-- Domains after a module reset (R467, R476, R487): FAILED outlasts it, and a thermal trip leaves every domain except
always-on OFF. -/
def domsAfterReset (aux tripped : Bool) (doms : Tab Domain) : Tab Domain :=
  let on : Domain := { state := .on }
  let base : Tab Domain := (if tripped then [] else [(2048, on), (2049, on), (2080, on)]) ++ (if aux then [(2090, on)] else [])
  (doms.filter fun e => e.2.state == .failed).foldl (fun t e =>
    tset t e.1 { state := .failed, retired := e.2.retired }) base

/-- The state in which a module reset holds the module (R482, R488, R527): what is kept is what the manual keeps in
non-volatile storage, the pins' levels, and the always-on sensors' THERM_N while auxiliary power stays. -/
def resetState (aux : Bool) (s : State) : State :=
  let cap : BitVec 32 := if s.liquid then 600 else 500
  let total := s.time.storedTotal
  { pending := s.pending
    part816 := s.part816
    liquid := s.liquid
    preloaded := s.preloaded
    power :=
      { phase := if aux then .aux else .off
        rails := []
        pwrGood := false
        thermN := s.power.thermN && aux
        tripped := s.power.tripped
        doms := domsAfterReset aux s.power.tripped s.power.doms
        sref := s.power.sref }
    time := { internal := !s.power.sref, storedTotal := total, storedAllAt := total, bucketHour := total / 3600, driftAt := total }
    regs := { capActive := cap, capPending := cap }
    dict :=
      { active := s.dict.active.filter fun e => !volatileObject (e.1 / 2 ^ 64)
        area0 := s.dict.area0
        area1 := s.dict.area1
        storeSeq := s.dict.storeSeq
        faultLog := s.dict.faultLog }
    sec :=
      { policy := s.sec.policy
        svnPairs := s.sec.svnPairs
        cyclePairs := s.sec.cyclePairs
        keys := s.sec.keys
        slot := s.sec.slot
        slotReadable := s.sec.slotReadable && !s.sec.slotWriting
        recoveryAsked := s.sec.deferredReset = some 2 && aux }
    portU := { perst := s.portU.perst }
    portD := { perst := s.portD.perst }
    que := { groups := s.que.groups }
    model :=
      { slots := s.model.slots.map fun e => (e.1, slotAfterReset e.2)
        images := imagesAfterReset s
        adapters := s.model.adapters
        pool := s.model.pool }
    flow := { ferries := (s.flow.ferries.filter fun e => e.2.retired).map fun e => (e.1, { retired := true }) }
    banks := s.banks.map fun e => (e.1, bankAfterReset e.2)
    islands := (s.islands.filter fun e => e.2.quarantined).map fun e => (e.1, { quarantined := true })
    clusters := (s.clusters.filter fun e => e.2.retired).map fun e => (e.1, { retired := true })
    scheds := s.scheds.map fun e => (e.1, schedAfterReset total e.2)
    integ := { history := s.integ.history.filter fun e => !(e.1 == .sramWord) }
    strait := { links := (s.strait.links.filter fun e => e.1 < 7 && e.2.retired ≠ 0).map fun e => (e.1, { retired := e.2.retired }) }
    out := s.out
    free := s.free }

/-- A module reset starts (R482, R528): FAULT_N is released; a thermal trip keeps the main rails off, asserts FAULT_N and
leaves a record (R487, R531). -/
def startReset (c : ResetCause) (s : State) : State :=
  let s := if c == .thermalTrip then romRecord .thermalTrip 0 s else s
  let aux := !(c == .auxLost)
  let tripped := if c == .thermalTrip then true else if c == .p54Low || c == .auxLost then false else s.power.tripped
  let s := if c == .request then s else { s with sec := { s.sec with deferredReset := none } }
  let s := resetState aux { s with power := { s.power with tripped } }
  if c == .thermalTrip then assertFault s else s

/-! ## A preloaded part (R4, R244, R513) -/

/-- A -P part as it is delivered (R4, R244, R513): the customer's key pair TRUSTED in slot 0, the image COMMITTED with every shard
present, its Last RESIDENT in slot 0, and no Last bound. The image, the Last, its places and the banks that hold the weights are
the customer's order. -/
def preload (key : PubKey) (img : ImageRec) (sl : Slot) (banks : List (Nat × Bank)) (s : State) : State :=
  -- R513: the customer's pair is in slot 0; that it signed the image and the Last: notes/assumptions/32.md
  let img := { img with keySlot := 0, state := ImageState.committed, present := List.range img.shards.length, written := [], refetch := [] }
  let sl := { sl with keySlot := 0, state := LastState.resident, imageHash := img.hash, gen := 1, oldGen := none, detaching := false, swap := none }
  { s with
    preloaded := true
    sec := { s.sec with keys := tset s.sec.keys 0 { key with trusted := true } }
    model := { s.model with images := tset s.model.images 0 img, slots := tset s.model.slots 0 sl }
    banks := banks.foldl (fun t e => tset t e.1 { e.2 with owners := [0] }) s.banks }

/-! ## Power-up (R526, R527, R532) -/

/-- AUX_POWER_UP (R526): VAO is in regulation, and the always-on domain runs from Tide 0. -/
def execAuxPowerUp (s : State) : Res :=
  if s.power.phase == .off then
    .next (modDom domAlways (fun d => { d with state := .on }) { s with power := { s.power with phase := .aux } })
  else .next s

/-- MAIN_POWER_UP (R526, R528): the main rails have ramped, unless a thermal trip keeps them off. -/
def execMainPowerUp (s : State) : Res :=
  if s.power.phase == .aux && !s.power.tripped then
    .next { s with power := { s.power with phase := .rails, rails := [.vddio, .vser, .vcore, .vpp] } }
  else .next s

/-- What is read once, at the end of a module reset (R342, R390, R526, R532). -/
def readAtReset (straps : BitVec 3) (s : State) : State :=
  let mask : BitVec 8 := BitVec.ofNat 8 (dictNum s (ob 0x6200 1))
  let s := { s with regs := { s.regs with modId := straps, dMode := BitVec.ofNat 2 (dictNum s (ob 0x6001 1)) } }
  modStrait (fun g => { g with members := mask, refused := decide (mask ≠ 0) && !mask.getLsbD straps.toNat }) s

/-- MODULE_RESET_END (R526): every rail has been in regulation for 1 ms; ports whose PERST_N is released start. -/
def execModuleResetEnd (straps : BitVec 3) (s : State) : Res :=
  if !(s.power.phase == .rails) then .next s
  else
    let s := readAtReset straps { s with power := { s.power with phase := .rom, pwrGood := true } }
    let s := wakePort .u s
    .next (if s.regs.dMode = 0 then wakePort .d s else s)

/-- MODULE_RESET (R482, R528): a reset that was requested waits for a slot write (R505). -/
def execModuleReset (cause : ResetCause) (s : State) : Res :=
  if s.power.phase == .off then .next s
  else if cause == .request && (s.sec.deferredReset.isNone || s.sec.slotWriting) then .next s
  else .next (startReset cause s)

/-! ## The boot ROM (R496 to R499, R506, R515) -/

/-- BOOT_OSC_TIMEOUT (R477): FAULT_N, a record, and no port and no Strait link. -/
def execBootOscTimeout (s : State) : Res :=
  if !(s.power.phase == .rom) then .next s
  else
    let s := portOff .d (portOff .u { s with power := { s.power with phase := .oscFailed } })
    .next (assertFault (romRecord .oscFailed 0 s))

/-- The ROM enters recovery (R506, R509): FAULT_N, a record, Port U as in normal operation, Port D and the links down. -/
def enterRecovery (reason : Nat) (s : State) : State :=
  let s := portOff .d (portLinkDown .d { s with power := { s.power with phase := .recovery } })
  let s := { s with regs := { s.regs with rcvState := 0, rcvReason := BitVec.ofNat 8 reason } }
  let s := modSec (fun x => { x with recoveryAsked := false, pldm := .idle, recoveryImage := [] }) s
  wakePort .u (assertFault (romRecord .recovery reason s))

/-- The identity keys are unwrapped into the engine, or lost (R515). -/
def unwrapIdentity (ok : Bool) (s : State) : State :=
  let s := modSec (fun x => { x with identity := ok }) s
  if ok then s else assertFault (romRecord .identityLost 0 s)

/-- A firmware image that passed its checks is started (R497 t6, R499): the counter first. -/
def startFirmware (s : State) : State :=
  let b := s.sec.slot
  let svn := fld b 0xC 2
  let s := modSec (fun x =>
    { x with
      svnPairs := if ratchetCount x.svnPairs < svn then ratchetAdvance x.svnPairs svn else x.svnPairs
      measure2 := firmwareHash b
      locked := true
      release := BitVec.ofNat 32 (fld b 8 4)
      runningKey := fld b 6 1 }) s
  { s with power := { s.power with phase := .firmware } }

/-- BOOT_ROM_RUN (R497 t1 to t6): `unwrapOk` is whether the identity keys were unwrapped. -/
def execBootRomRun (unwrapOk : Bool) (s : State) : Res :=
  if !(s.power.phase == .rom) then .next s
  else
    let s := unwrapIdentity unwrapOk s
    if s.sec.recoveryAsked then .next (enterRecovery 0 s)
    else
      let reason := imageReason s s.sec.slot s.sec.slotReadable
      .next (if reason = 0 then startFirmware s else enterRecovery reason s)

/-- RECOVERY_TIMEOUT (R506): Uzomel has not reached t7 within 10 s. -/
def execRecoveryTimeout (s : State) : Res :=
  if s.power.phase == .firmware then .next (enterRecovery 0 s) else .next s

/-! ## The start of Uzomel (R77, R428, R489, R497 t7) -/

/-- The object number of a lost bank record in `lost`, for bank n (R428). -/
def lostBank : Nat := 2 ^ 24

/-- One stored value, or every copy of a bank record, that failed in both areas (R428). -/
def loseObject (o : Nat) (s : State) : State :=
  if lostBank ≤ o then (if o < lostBank + nBanks s then moduleFault s else s)
  else match findObj s.liquid o with
    | none => s
    | some d =>
      match d.cls with
      | .persistent =>
        let s := modDict (fun x => { x with active := x.active.filter fun e => e.1 / 2 ^ 64 ≠ o }) s
        let s := if o = ob 0xA030 0 then modSec (fun x => { x with keys := [] }) s else s
        raise .storeLoss 12 (o / 256 * 65536 + o % 256 * 256) s
      | .volatile => s
      | _ => moduleFault s

/-- The erase that a boot issues on a bank found in PROGRAMMING, ERASING or ERASE_SUSPENDED, or that Uzomel still owes (R77). -/
def bootErase (n : Nat) (s : State) : State :=
  let b := bankOf s n
  let found := b.state == .programming || b.state == .erasing || b.state == .eraseSuspended
  let old := b.ops.head?
  if !found && old.isNone then s
  else
    let o := newOp s .eraseBank none 0 false false
    let o := { o with fromErased := (old.map (·.fromErased)).getD false, fromWorn := (old.map (·.fromWorn)).getD false }
    let s := modBank n (fun b => { b with ops := [], state := if found then .erasing else b.state }) s
    queueOp n o s

/-- The Strait links of a group member are enabled (R382, R389, R467): Uzomel wakes their domains. -/
def wakeLinks (s : State) : State :=
  if linksEnabled s then (List.range 7).foldl (fun s n => wantOn (domLink n) s) s else s

/-- UZOMEL_READY (R497 t7): `lost` are the objects whose stored value failed in both areas. -/
def execUzomelReady (lost : List Nat) (s : State) : Res :=
  if !(s.power.phase == .firmware) then .next s
  else
    let s := modSec (fun x => { x with cyclePairs := ratchetAdvance x.cyclePairs (ratchetCount x.cyclePairs + 1) }) s
    let s := lost.foldl (fun s o => loseObject o s) s
    let s := (tkeys s.banks).foldl (fun s n => bootErase n s) s
    let s := syncRegisters s
    let s := { s with power := { s.power with phase := .ready } }
    let s := if s.strait.refused then raise .groupRefused 0 0 s else s
    .next (raiseRefetch (wakeLinks s))

/-! ## Recovery through the Port U mailbox (R507, R509) -/

/-- The mailbox is active (R509, R510). -/
def mailboxOn (s : State) : Bool := s.power.phase == .recovery && s.sec.policy.getLsbD 5

def setRcv (state reason : Nat) (s : State) : State :=
  { s with regs := { s.regs with rcvState := BitVec.ofNat 4 state, rcvReason := BitVec.ofNat 8 reason } }

/-- Receive a recovery image into segment 1 and check it (R498, R507): the reason. -/
def receiveImage (b : Bytes) (poisoned : Bool) (s : State) : Nat × State :=
  let reason := imageReason s b (!poisoned)
  (reason, modSec (fun x => { x with recoveryImage := b }) s)

/-- SEC_RCV_GO (R509): `image` is what the reads of host memory returned. -/
def execSecRcvGo (i : Initiator) (value : BitVec 32) (image : HostRead) (s : State) : Res :=
  let len := bitsAt s.regs.rcvLen.toNat 24 0
  let st := s.regs.rcvState.toNat
  if !classU i then .next (privDrop s)
  else if !mailboxOn s then .next s
  else .next (crossing (fun s =>
    if !value.getLsbD 0 || (1 ≤ st && st ≤ 3) then s
    else match image with
      | .failed => setRcv 5 9 s
      | .data b =>
        if slotBytes < len then setRcv 5 2 s
        else
          let (r, s) := receiveImage (fit b len) false s
          if r = 0 then setRcv 3 0 s else setRcv 5 r s
      | .poisoned b =>
        if slotBytes < len then setRcv 5 2 s
        else
          let (r, s) := receiveImage (fit b len) true s
          setRcv 5 r s) s)

/-- The slot holds a new image (R504 steps 1 to 3). -/
def slotWritten (b : Bytes) (s : State) : State := modSec (fun x => { x with slot := b, slotReadable := true }) s

/-- A slot bank failed its program or its read-back: the slot does not read as an image (R498 reason 10). -/
def slotSpoilt (s : State) : State := modSec (fun x => { x with slotReadable := false }) s

/-- The normal boot that follows a recovery (R507, R531): FAULT_N is released. -/
def recoveryBoot (s : State) : State :=
  { s with power := { s.power with faultN := false, phase := .rom } }

/-- RECOVERY_IMAGE_DONE (R507, R509, R531). -/
def execRecoveryImageDone (writeOk : Bool) (s : State) : Res :=
  if !mailboxOn s || s.regs.rcvState ≠ 3 then .next s
  else if writeOk then .next (recoveryBoot (setRcv 4 0 (slotWritten s.sec.recoveryImage s)))
  else .next (setRcv 5 10 (slotSpoilt s))

/-! ## Recovery over the management bus: PLDM for Firmware Update (R508) -/

/-- PLDM recovery is open (R508, R510). -/
def pldmOn (s : State) : Bool := s.power.phase == .recovery && s.sec.policy.getLsbD 6

/-- Answer a PLDM request with a completion code and data. -/
def pldmAnswer (code : Byte) (data : Bytes) (s : State) : State := send (.pldm code data) s

def setPldm (st : PldmStage) (s : State) : State := modSec (fun x => { x with pldm := st }) s

/-- REQUEST_UPDATE (R508). -/
def execRequestUpdate (s : State) : Res :=
  if !pldmOn s then .next s
  else if s.sec.pldm == .idle then
    .next (pldmAnswer 0 [] (modSec (fun x => { x with pldm := .requested, recoveryImage := [], pldmReason := 0 }) s))
  else .next (pldmAnswer 0x81 [] s)

/-- PASS_COMPONENT_TABLE (R508): the one component is 0x0001. -/
def execPassComponentTable (component : BitVec 16) (s : State) : Res :=
  if !pldmOn s then .next s
  else match s.sec.pldm with
    | .idle => .next (pldmAnswer 0x80 [] s)
    | .requested =>
      if component = 1 then .next (pldmAnswer 0 [0] (setPldm .described s)) else .next (pldmAnswer 0 [1] s)
    | _ => .next (pldmAnswer 0x84 [] s)

/-- UPDATE_COMPONENT (R508): the transfer of component 0x0001 starts. -/
def execUpdateComponent (component : BitVec 16) (size : BitVec 32) (s : State) : Res :=
  if !pldmOn s then .next s
  else match s.sec.pldm with
    | .idle => .next (pldmAnswer 0x80 [] s)
    | .described =>
      if component = 1 && decide (size.toNat ≤ slotBytes) then
        .next (pldmAnswer 0 [0] (modSec (fun x => { x with pldm := .transferring, pldmSize := size.toNat, recoveryImage := [] }) s))
      else .next (pldmAnswer 0 [1] s)
    | _ => .next (pldmAnswer 0x84 [] s)

/-- REQUEST_FIRMWARE_DATA (R508): the module asks for the next piece, of at most 1,024 bytes, and receives it. -/
def execRequestFirmwareData (offset : BitVec 32) (data : Bytes) (s : State) : Res :=
  let have_ := s.sec.recoveryImage.length
  if !pldmOn s || !(s.sec.pldm == .transferring) || offset.toNat ≠ have_ || data.length = 0 || 1024 < data.length ||
      s.sec.pldmSize < have_ + data.length then .next s
  else
    let s := pldmAnswer 0 (leBytes 4 offset.toNat ++ leBytes 4 data.length) s
    .next (modSec (fun x => { x with recoveryImage := x.recoveryImage ++ data }) s)

/-- TRANSFER_COMPLETE (R508): the transfer ends, whole or broken off. -/
def execTransferComplete (ok : Bool) (s : State) : Res :=
  if !pldmOn s || !(s.sec.pldm == .transferring) then .next s
  else if ok then
    if s.sec.recoveryImage.length = s.sec.pldmSize then .next (pldmAnswer 0 [0] (setPldm .transferred s)) else .next s
  else .next (pldmAnswer 0 [1] (setPldm .described s))

/-- VERIFY_COMPLETE (R498, R508): its result is the REASON. -/
def execVerifyComplete (s : State) : Res :=
  if !pldmOn s || !(s.sec.pldm == .transferred) then .next s
  else
    let r := imageReason s s.sec.recoveryImage true
    let s := modSec (fun x => { x with pldmReason := BitVec.ofNat 8 r }) s
    .next (pldmAnswer 0 [BitVec.ofNat 8 r] (setPldm (if r = 0 then .verified else .described) s))

/-- APPLY_COMPLETE (R504, R507, R508): the image has been written to the slot and read back, or a slot bank failed. -/
def execApplyComplete (writeOk : Bool) (s : State) : Res :=
  if !pldmOn s || !(s.sec.pldm == .verified) then .next s
  else if writeOk then .next (pldmAnswer 0 [0] (setPldm .applied (slotWritten s.sec.recoveryImage s)))
  else
    let s := modSec (fun x => { x with pldmReason := 10 }) (slotSpoilt s)
    .next (pldmAnswer 0 [10] (setPldm .described s))

/-- ACTIVATE_FIRMWARE (R508, R531): the normal boot starts. -/
def execActivateFirmware (s : State) : Res :=
  if !pldmOn s then .next s
  else match s.sec.pldm with
    | .idle => .next (pldmAnswer 0x80 [] s)
    | .applied => .next (recoveryBoot (setPldm .idle (pldmAnswer 0 [] s)))
    | _ => .next (pldmAnswer 0x85 [] s)

/-- CANCEL_UPDATE (R508): the recovery transfer is abandoned. -/
def execCancelUpdate (s : State) : Res :=
  if !pldmOn s then .next s
  else if s.sec.pldm == .idle then .next (pldmAnswer 0x80 [] s)
  else .next (pldmAnswer 0 [] (modSec (fun x => { x with pldm := .idle, recoveryImage := [] }) s))

end Sys2Proof.Machine
end

