-- ==== Sys2Proof/Machine/Attest.lean ====
section
/-! DEFINITION. The SPDM responder (R515 to R520): one connection per requester, each with its own transcript. A connection's
number is transport × 65,536 + a number: transport 0 is the management bus, 1 Port U's DOE mailbox, 2 Port D's. What the
SPDM standard lays out is uninterpreted (`Config.spdmBody`). Choices of the model: notes/assumptions/29.md (DESIGN
CHOICE), notes/assumptions/37.md (PRESUMED), notes/assumptions/38.md (DESIGN CHOICE). -/

namespace Sys2Proof.Machine

def connOf (s : State) (c : Nat) : Conn := tget s.sec.conns c {}

def modConn (c : Nat) (f : Conn → Conn) (s : State) : State := modSec (fun x => { x with conns := tmod x.conns c {} f }) s

/-- A request on this connection can arrive (R517): Port D answers only as an endpoint. -/
def connOpen (s : State) (c : Nat) : Bool :=
  match c / 65536 with
  | 0 => !(s.power.phase == .off)
  | 1 => s.portU.linkUp
  | 2 => s.portD.linkUp && dEndpoint s
  | _ => false

/-- SPDM error codes. -/
def spdmInvalid : Nat := 0x01
def spdmBusy : Nat := 0x03
def spdmUnexpected : Nat := 0x04
def spdmUnspecified : Nat := 0x05
def spdmLargeResponse : Nat := 0x0F

/-- Answer with an SPDM ERROR. -/
def spdmFail (c code : Nat) (s : State) : State := send (.spdmError c code) s

/-- Send a response; both messages join the transcript of the connection. -/
def spdmReply (c : Nat) (msg resp : Bytes) (s : State) : State :=
  send (.spdm c resp) (modConn c (fun x => { x with transcript := x.transcript ++ msg ++ resp, inbound := [] }) s)

/-- A request that needs `stage` of the connection: it waits for the core complex where that is in RET (R471), and gets
ERROR Busy while Uzomel does not run (R433). -/
def spdmRow (i : Instr) (c stage : Nat) (f : State → State) (s : State) : Res :=
  if !connOpen s c then .next s
  else if coreSleeps s then .next (holdMessage i s)
  else if !uzomelRuns s then .next (spdmFail c spdmBusy s)
  else if (connOf s c).stage < stage then .next (spdmFail c spdmUnexpected s)
  else .next (f s)

/-- The certificate chain of a slot (R516, R517). -/
def certChain (slot : Nat) : Bytes := Config.factory (if slot = 0 then ob 0xA040 1 else ob 0xA040 2)

/-- GET_VERSION (R517, R519): the transcript starts anew. -/
def execGetVersion (conn : Nat) (msg : Bytes) (s : State) : Res :=
  spdmRow (.getVersion conn msg) conn 0 (fun s =>
    let fresh : Conn := { stage := 1 }
    spdmReply conn msg (Config.spdmBody 0x04 msg []) (modConn conn (fun _ => fresh) s)) s

/-- GET_CAPABILITIES (R517). -/
def execGetCapabilities (conn : Nat) (msg : Bytes) (s : State) : Res :=
  spdmRow (.getCapabilities conn msg) conn 1 (fun s =>
    spdmReply conn msg (Config.spdmBody 0x61 msg []) (modConn conn (fun x => { x with stage := max 2 x.stage }) s)) s

/-- NEGOTIATE_ALGORITHMS (R517): SHA-384 and RSA-PSS-3072, which the request must offer. -/
def execNegotiateAlgorithms (conn : Nat) (msg : Bytes) (offersRsaPss3072 offersSha384 : Bool) (s : State) : Res :=
  spdmRow (.negotiateAlgorithms conn msg offersRsaPss3072 offersSha384) conn 2 (fun s =>
    if offersRsaPss3072 && offersSha384 then
      spdmReply conn msg (Config.spdmBody 0x63 msg []) (modConn conn (fun x => { x with stage := 3 }) s)
    else spdmFail conn spdmInvalid s) s

/-- GET_DIGESTS (R516, R517): the digests of both chains. -/
def execGetDigests (conn : Nat) (msg : Bytes) (s : State) : Res :=
  spdmRow (.getDigests conn msg) conn 3 (fun s =>
    spdmReply conn msg (Config.spdmBody 0x01 msg [Config.sha384 (certChain 0), Config.sha384 (certChain 1)]) s) s

/-- GET_CERTIFICATE (R516, R517): a portion of a chain, and how much remains. -/
def execGetCertificate (conn : Nat) (msg : Bytes) (slot : BitVec 8) (offset length : BitVec 16) (s : State) : Res :=
  spdmRow (.getCertificate conn msg slot offset length) conn 3 (fun s =>
    let chain := certChain slot.toNat
    if 1 < slot.toNat || chain.length ≤ offset.toNat then spdmFail conn spdmInvalid s
    else
      let part := sub chain offset.toNat length.toNat
      let rest := chain.length - offset.toNat - part.length
      spdmReply conn msg (Config.spdmBody 0x02 msg [part, leBytes 2 rest]) s) s

/-- A signed response (R515, R519): the digest of what SPDM has it cover is signed with the identity key of slot 0. -/
def spdmSigned (conn code : Nat) (msg : Bytes) (vals : List Bytes) (s : State) : State :=
  let body := Config.spdmBody code msg vals
  let digest := Config.sha384 (Config.spdmCovered code ((connOf s conn).transcript ++ msg ++ body))
  let s := modConn conn (fun x => { x with signed := some digest }) s
  spdmReply conn msg (body ++ Config.rsaSign digest) s

/-- CHALLENGE (R515, R517): slot 0 signs. -/
def execChallenge (conn : Nat) (msg : Bytes) (slot : BitVec 8) (s : State) : Res :=
  spdmRow (.challenge conn msg slot) conn 3 (fun s =>
    if slot ≠ 0 then spdmFail conn spdmInvalid s
    else if !s.sec.identity then spdmFail conn spdmUnspecified s
    else spdmSigned conn 0x03 msg [Config.sha384 (certChain 0)] s) s

/-! ## Measurements (R518) -/

/-- The state code of an image record in block 6. -/
def imageStateCode (st : ImageState) : Nat := match st with | .partly => 0 | .complete => 1 | .committed => 2

/-- Measurement block `k`, 1 to 8 (R518). -/
def measurement (s : State) (k : Nat) : Bytes :=
  match k with
  | 1 => Config.romHash
  | 2 => s.sec.measure2
  | 3 =>
    leBytes 4 s.sec.release.toNat ++ leBytes 4 (ratchetCount s.sec.svnPairs) ++ leBytes 8 s.sec.policy.toNat ++
      leBytes 4 (pcycleOf s) ++ leBytes 4 s.time.epoch.toNat ++ leBytes 8 0
  | 4 => (List.range 16).flatMap fun n =>
      let p := tget s.sec.keys n {}
      leBytes 1 (b2n p.trusted) ++ fit (if p.trusted then p.keyId else []) 48
  | 5 =>
    let l := s.model.slots.filter fun e => !(e.2.state == .free)
    leBytes 4 l.length ++ l.flatMap fun e =>
      leBytes 1 e.1 ++ leBytes 1 (lastCode e.2.state) ++ leBytes 2 e.2.gen.toNat ++ fit e.2.lastHash 48
  | 6 =>
    leBytes 4 s.model.images.length ++ s.model.images.flatMap fun e =>
      leBytes 1 (b2n e.2.adapters) ++ leBytes 1 (imageStateCode e.2.state) ++ leBytes 2 0 ++ fit e.2.hash 48
  | 7 =>
    leBytes 4 s.regs.cfgCrcRef.toNat ++ leBytes 4 (groupCrc s).toNat ++ leBytes 1 (leNat (dictActive s (ob 0x1010 1) 0)) ++
      leBytes 1 (dictNum s (ob 0x6200 1)) ++ leBytes 6 0
  | _ => fit (partName s) 32 ++ fit (orderingCode s) 32 ++ fit (Config.factory (ob 0x1001 3)) 32

/-- The blocks that an index asks for: none for the count, one, or all; `none` where it names nothing. -/
def askedBlocks (index : Nat) : Option (List Nat) :=
  if index = 0 then some []
  else if index ≤ 8 then some [index]
  else if index = 0xFF then some [1, 2, 3, 4, 5, 6, 7, 8]
  else none

/-- GET_MEASUREMENTS (R515, R517, R518): blocks 3 to 8 are one snapshot. -/
def execGetMeasurements (conn : Nat) (msg : Bytes) (slot : BitVec 8) (index : BitVec 8) (signed : Bool) (s : State) : Res :=
  spdmRow (.getMeasurements conn msg slot index signed) conn 3 (fun s =>
    match askedBlocks index.toNat with
    | none => spdmFail conn spdmInvalid s
    | some ks =>
      let vals := leBytes 1 8 :: ks.map (measurement s)
      if !signed then spdmReply conn msg (Config.spdmBody 0x60 msg vals) s
      else if slot ≠ 0 then spdmFail conn spdmInvalid s
      else if !s.sec.identity then spdmFail conn spdmUnspecified s
      else spdmSigned conn 0x60 msg vals s) s

/-! ## Large messages, and the second signature (R517, R519) -/

/-- CHUNK_SEND (R517): one chunk of a large request, which is served as its own request once its last chunk is in. -/
def execChunkSend (conn : Nat) (chunk : Bytes) (last : Bool) (s : State) : Res :=
  spdmRow (.chunkSend conn chunk last) conn 3 (fun s =>
    let s := modConn conn (fun x => { x with inbound := x.inbound ++ chunk }) s
    send (.spdm conn (Config.spdmBody 0x05 chunk [leBytes 1 (b2n last)])) s) s

/-- CHUNK_GET (R517): the next chunk of a large response, at most `size` bytes. -/
def execChunkGet (conn : Nat) (size : Nat) (s : State) : Res :=
  spdmRow (.chunkGet conn size) conn 3 (fun s =>
    let x := connOf s conn
    if x.outbound = [] then spdmFail conn spdmUnexpected s
    else
      send (.spdm conn (x.outbound.take size)) (modConn conn (fun x => { x with outbound := x.outbound.drop size }) s)) s

/-- The four bytes "VXPQ" (R519). -/
def vxpq : Bytes := [0x56, 0x58, 0x50, 0x51]

/-- PQ_SIGN (R515, R519): the SLH-DSA signature over what the last RSA signature covered, carried by CHUNK_GET. -/
def execPqSign (conn : Nat) (msg : Bytes) (s : State) : Res :=
  spdmRow (.pqSign conn msg) conn 0 (fun s =>
    match (connOf s conn).signed with
    | none => spdmFail conn spdmUnexpected s
    | some d =>
      if !s.sec.identity then spdmFail conn spdmUnspecified s
      else
        let body := [0x81, 0, 0, 0] ++ Config.slhSign (Config.sha384 (vxpq ++ d))
        let resp := Config.spdmBody 0x7E msg [body]
        spdmFail conn spdmLargeResponse
          (modConn conn (fun x => { x with outbound := resp, inbound := [], transcript := x.transcript ++ msg ++ resp }) s)) s

end Sys2Proof.Machine
end

