-- ==== Sys2Proof/Machine/Security.lean ====
section
/-! DEFINITION. Firmware updates, `sec.policy` and the publisher keys (R503 to R505, R510 to R514, R521). Choices of
the model: notes/assumptions/32.md (DEDUCED). -/

namespace Sys2Proof.Machine

/-! ## Firmware update (R503 to R505) -/

def setStageStatus (state reason : Nat) (s : State) : State :=
  modSec (fun x => { x with stageState := BitVec.ofNat 4 state, stageReason := BitVec.ofNat 8 reason }) s

/-- A write of `sec.fw_stage` (R503): the image is staged in segment 1, and checks 2 to 8 of R498 are applied. The STATE of an
image that passed them is not stated: a free value among the codes that do not say REJECTED. -/
def stageWrite (b : Bytes) (s : State) : Nat × State :=
  if s.sec.slotWriting then (St.busy, s)
  else if b = [] then (St.success, modSec (fun x => { x with stage := [], stageState := 0, stageReason := 0, stageId := 0 }) s)
  else
    let reason := if slotBytes < b.length then 2 else imageReason s b true
    let s := modSec (fun x => { x with stage := b, stageId := BitVec.ofNat 32 (fld (firmwareHash b) 0 4) }) s
    let (v, s) := takeFree s
    (St.success, if reason = 0 then setStageStatus (v % 5) 0 s else setStageStatus 5 reason s)

/-- The staged image has passed its checks (R504): a slot write of it may have failed. -/
def stagePassed (s : State) : Bool := s.sec.stage ≠ [] && (s.sec.stageReason = 0 || s.sec.stageReason = 10)

/-- A write of `sec.fw_commit` (R504): the slot write starts. -/
def commitFirmware (b : Bytes) (s : State) : Nat × State :=
  if b.length ≠ 4 || leNat b ≠ s.sec.stageId.toNat || !stagePassed s then (St.outOfRange, s)
  else if s.sec.slotWriting then (St.busy, s)
  else (St.success, setStageStatus 3 0 (modSec (fun x => { x with slotWriting := true }) s))

/-- A write of `sec.module_reset` (R505): the reset is asked for; MODULE_RESET starts it, after a slot write. -/
def resetWrite (b : Bytes) (s : State) : Nat × State :=
  if b = [1] then (St.success, modSec (fun x => { x with deferredReset := some 1 }) s)
  else if b = [2] then (St.success, modSec (fun x => { x with deferredReset := some 2 }) s)
  else (St.outOfRange, s)

/-! ## The policy (R419, R422, R427, R510) -/

/-- A write clears bit `n` of the policy. -/
def clearsBit (old new : BitVec 64) (n : Nat) : Bool := old.getLsbD n && !new.getLsbD n

/-- The value that a write would leave is refused (R510). -/
def policyRefused (s : State) (new : BitVec 64) : Bool :=
  let old := s.sec.policy
  let gone := clearsBit old new
  decide (new &&& old ≠ new) || (List.range 57).any (fun i => gone (i + 7)) ||
    (gone 3 && (s.sec.runningKey = 0 || !new.getLsbD 4)) || (gone 4 && (s.sec.runningKey = 1 || !new.getLsbD 3)) ||
    (gone 5 && !new.getLsbD 6) || (gone 6 && !new.getLsbD 5)

/-- A write of `sec.policy` (R419, R422, R510). -/
def policyWrite (r : Requester) (b : Bytes) (s : State) : Nat × State :=
  if !reqPrivileged s r || b = [] then (St.accessDenied, s)
  else if b.length ≠ 8 then (St.outOfRange, s)
  else
    let new := BitVec.ofNat 64 (leNat b)
    if policyRefused s new then (St.outOfRange, s)
    else (St.success, modSec (fun x => { x with policy := new }) s)

/-! ## Publisher keys (R513, R514) -/

/-- A publisher key slot is named by an image record, a Last slot or a pending swap (R514). -/
def keyNamed (s : State) (n : Nat) : Bool :=
  (s.model.images.any fun e => e.2.keySlot = n) ||
    s.model.slots.any fun e => !(e.2.state == .free) &&
      (e.2.keySlot = n || (match e.2.swap with | some w => decide (w.keySlot = n) | none => false))

/-- The key pair of a record is well formed (R513). -/
def keyFormed (b : Bytes) : Bool :=
  let e := leNat (sub b 4 4).reverse
  zeroAt b 1 3 && zeroAt b 0x1E8 24 && e % 2 = 1 && 65537 ≤ e && 128 ≤ (b.getD 8 0).toNat

/-- The key pair of a record; KEY_ID is computed (R514). -/
def keyOfRecord (b : Bytes) : PubKey :=
  { trusted := true, rsaE := BitVec.ofNat 32 (leNat (sub b 4 4).reverse), rsaN := sub b 8 384, slhPk := sub b 0x188 48,
    keyId := Config.sha384 (sub b 4 436) }

/-- Install or empty a publisher key slot, stored at once (R514). -/
def keepKey (n : Nat) (k : Option PubKey) (s : State) : State :=
  let s := modSec (fun x => { x with keys := match k with | some k => tset x.keys n k | none => tdel x.keys n }) s
  storeAppend (ob 0xA030 0) n (pubkeyRecord s n) s

/-- A write of `sec.pubkey_write` (R420, R514); a write of length 0 empties the slot (R422). -/
def keyWrite (r : Requester) (n : Nat) (b : Bytes) (s : State) : Nat × State :=
  let k := tget s.sec.keys n {}
  if !reqPrivileged s r then (St.accessDenied, s)
  else if 16 ≤ n then (St.outOfRange, s)
  else if !s.sec.policy.getLsbD 2 then (St.accessDenied, s)
  else if b ≠ [] && b.length ≠ 512 then (St.outOfRange, s)
  else if fld b 0 1 = 1 then
    if k.trusted || !keyFormed b then (St.outOfRange, s) else (St.success, keepKey n (some (keyOfRecord b)) s)
  else if fld b 0 1 = 0 then
    if keyNamed s n then (St.busy, s) else (St.success, keepKey n none s)
  else (St.outOfRange, s)

/-- A write that only a privileged initiator may make (R419, R420). -/
def privWrite (r : Requester) (f : Bytes → State → Nat × State) (b : Bytes) (s : State) : Nat × State :=
  if reqPrivileged s r then f b s else (St.accessDenied, s)

/-! ## Rows -/

/-- SEC_FW_STAGE (R503). -/
def execSecFwStage (r : Requester) (image : Bytes) (s : State) : Res :=
  .next (ownWrite (.secFwStage r image) r (ob 0xA010 0) 0 image (privWrite r stageWrite) s)

/-- SEC_FW_COMMIT (R504). -/
def execSecFwCommit (r : Requester) (data : Bytes) (s : State) : Res :=
  .next (ownWrite (.secFwCommit r data) r (ob 0xA012 1) 0 data (privWrite r commitFirmware) s)

/-- FW_SLOT_WRITE_DONE (R504, R505): the slot write ends, and a reset that waited for it starts. -/
def execFwSlotWriteDone (ok : Bool) (s : State) : Res :=
  if !s.sec.slotWriting then .next s
  else
    let s := modSec (fun x => { x with slotWriting := false }) s
    let s := if ok then setStageStatus 4 0 (slotWritten s.sec.stage s) else setStageStatus 5 10 (slotSpoilt s)
    .next (if s.sec.deferredReset.isSome then startReset .request s else s)

/-- SEC_MODULE_RESET (R505). -/
def execSecModuleReset (r : Requester) (data : Bytes) (s : State) : Res :=
  .next (ownWrite (.secModuleReset r data) r (ob 0xA013 1) 0 data (privWrite r resetWrite) s)

/-- SEC_POLICY_WRITE (R510). -/
def execSecPolicyWrite (r : Requester) (data : Bytes) (s : State) : Res :=
  .next (ownWrite (.secPolicyWrite r data) r (ob 0xA001 1) 0 data (policyWrite r) s)

/-- PUBKEY_WRITE (R514). -/
def execPubkeyWrite (r : Requester) (slot : Nat) (data : Bytes) (s : State) : Res :=
  .next (ownWrite (.pubkeyWrite r slot data) r (ob 0xA031 0) slot data (keyWrite r slot) s)

end Sys2Proof.Machine
end

