-- ==== Sys2Proof/Machine/DictOps.lean ====
section
/-! DEFINITION. Reads and writes of dictionary objects, through queues and over the management bus (R417 to R425, R429 to R434,
R444), and the queue pair records (R353 to R355). Choices of the model: notes/assumptions/18.md (DEDUCED). -/

namespace Sys2Proof.Machine

/-! ## One write (R417 to R420, R422, R423, R432) -/

/-- A write of `que.pair` (R354, R355). -/
def pairWrite (r : Requester) (q : Nat) (b : Bytes) (s : State) : Nat × State :=
  if b.length ≠ 64 then (St.outOfRange, s)
  else if fld b 0 1 = 0 then disableRecord q b s
  else enableRecord r q b s

/-- The target that a byte of `pwr.domain` names (R463, R494). -/
def targetOf (n : Nat) : Option PTarget :=
  match n with
  | 0 => some .off
  | 1 => some .ret
  | 2 => some .on
  | _ => none

/-- A write of `pwr.domain` (R471, R494). -/
def domainWrite (n : Nat) (b : Bytes) (s : State) : Nat × State :=
  match b.length, targetOf (fld b 0 1) with
  | 1, some t => domainRequest n t s
  | _, _ => (St.outOfRange, s)

/-- A write of `prt.d_config` (R349): configuration bytes of the engine. -/
def configWrite (off : Nat) (b : Bytes) (s : State) : Nat × State :=
  if !s.regs.engineFound || 4096 < off + b.length then (St.outOfRange, s)
  else (St.success, { s with regs := { s.regs with dConfig := splice s.regs.dConfig off b } })

/-- A write of an RWS object is staged; one of an RW object is active at once; length 0 writes the default (R419, R422). -/
def plainWrite (d : ObjDef) (arg : Nat) (b : Bytes) (s : State) : Nat × State :=
  let v := if b = [] then dfltOf s.liquid d.obj else b
  if b ≠ [] && !valueOk d b then (St.outOfRange, s)
  else match d.acc with
    | .rws => (St.success, modDict (fun x => { x with staged := tset x.staged (okey d.obj arg) v }) s)
    | _ => (St.success, modDict (fun x => { x with active := tset x.active (okey d.obj arg) v }) s)

/-- The objects whose write is an effect of its own; none for the others. -/
def effectWrite (r : Requester) (obj arg : Nat) : Option (Bytes → State → Nat × State) :=
  if obj = ob 0x1002 1 then some commitWrite
  else if obj = ob 0x9001 1 then some clearWrite
  else if obj = ob 0x2006 0 then some (domainWrite arg)
  else if obj = ob 0x6100 0 then some (pairWrite r arg)
  else if obj = ob 0x6030 0 then some (configWrite arg)
  else if obj = ob 0xA001 1 then some (policyWrite r)
  else if obj = ob 0xA010 0 then some stageWrite
  else if obj = ob 0xA012 1 then some commitFirmware
  else if obj = ob 0xA013 1 then some resetWrite
  else if obj = ob 0xA031 0 then some (keyWrite r arg)
  else none

/-- A write of an object: its status, and the state. -/
def writeObject (r : Requester) (obj arg : Nat) (b : Bytes) (s : State) : Nat × State :=
  match findObj s.liquid obj with
  | none => (St.objectUnknown, s)
  | some d =>
    if d.acc == .ro || (d.acc == .priv && !reqPrivileged s r) then (St.accessDenied, s)
    else if !keyOk s d arg then (St.outOfRange, s)
    else match effectWrite r obj arg with
      | some f => f b s
      | none => plainWrite d arg b s

/-! ## One read (R417, R419, R423) -/

/-- What a read gives: a status other than SUCCESS, or the object's bytes. -/
def readObject (s : State) (priv : Bool) (obj arg : Nat) (hash : Digest) (staged : Bool) : Sum Nat Bytes :=
  match findObj s.liquid obj with
  | none => .inl St.objectUnknown
  | some d =>
    if d.acc == .wo || (d.acc == .priv && !priv) then .inl St.accessDenied
    else match objValue s d arg hash staged with
      | none => .inl St.outOfRange
      | some b => .inr b

/-- The side effects of a read (R438, R440). -/
def afterRead (obj arg : Nat) (ep : Option Nat) (s : State) : State :=
  if obj = ob 0x9040 0 then noteLogRead arg ep s else s

/-- The object is keyed by a hash (R417). -/
def hashKeyed (s : State) (obj : Nat) : Bool := ((findObj s.liquid obj).map fun d => d.key == .imageHash).getD false

/-! ## Through queues (R360, R429) -/

/-- DICT_READ (R360, R417, R423, R429): `hash` is the read of a hash key. -/
def execDictRead (a : Fin 4096) (hash : HostRead) (s : State) : Res :=
  match cmdAt s a.val 0x20 with
  | none => .next s
  | some c =>
    if !isReady s then .next s
    else
      let e := c.entry
      let obj := entObject e
      let arg := fld e 0x18 8
      let priv := reqPrivileged s (.queue a)
      let h := hostData 48 hash
      if hashKeyed s obj && h.isNone then .next (finishAt a.val St.hostAccess 0 s)
      else match readObject s priv obj arg (h.getD []) (bitAt (entFlags e) 0) with
        | .inl st => .next (finishAt a.val st (if st = St.outOfRange then 0x18 else 0) s)
        | .inr b =>
          if fld e 0x28 4 < b.length then .next (finish a.val { status := St.bufferTooSmall, result := b.length } s)
          else
            let p := cmdPort s c
            let s := sendPort p (.hostWrite p (BitVec.ofNat 64 (fld e 0x20 8)) b false) s
            .next (finish a.val { status := St.success, result := b.length } (afterRead obj arg none s))

/-- DICT_WRITE (R360, R417 to R423, R429): `value` is what the read of the buffer returned. -/
def execDictWrite (a : Fin 4096) (value : HostRead) (s : State) : Res :=
  match cmdAt s a.val 0x21 with
  | none => .next s
  | some c =>
    if !isReady s then .next s
    else
      let e := c.entry
      match hostData (fld e 0x28 4) value with
      | none => .next (finishAt a.val St.hostAccess 0 s)
      | some b =>
        let obj := entObject e
        let arg := fld e 0x18 8
        let (st, t) := writeObject (.queue a) obj arg b s
        .next (finish a.val (writeReply s obj arg b st) t)

/-! ## Rows of single objects -/

/-- QUEUE_PAIR_ENABLE (R352 to R355). -/
def execQueuePairEnable (w : QpWrite) (s : State) : Res :=
  match w with
  | .record r q b =>
    if fld b 0 1 = 0 then .next s
    else .next (ownWrite (.queuePairEnable (.record r q b)) r (ob 0x6100 0) q b (pairWrite r q) s)
  | .adm i v => .next (admCtrlWrite i (v ||| 1) s)

/-- QUEUE_PAIR_DISABLE (R352, R355). -/
def execQueuePairDisable (w : QpWrite) (s : State) : Res :=
  match w with
  | .record r q b =>
    if fld b 0 1 ≠ 0 then .next s
    else .next (ownWrite (.queuePairDisable (.record r q b)) r (ob 0x6100 0) q b (pairWrite r q) s)
  | .adm i v => .next (admCtrlWrite i (v &&& ~~~(1 : BitVec 32)) s)

/-- CFG_COMMIT (R395, R424). -/
def execCfgCommit (r : Requester) (data : Bytes) (s : State) : Res :=
  .next (ownWrite (.cfgCommit r data) r (ob 0x1002 1) 0 data commitWrite s)

/-- MON_CLEAR (R444). -/
def execMonClear (r : Requester) (data : Bytes) (s : State) : Res :=
  .next (ownWrite (.monClear r data) r (ob 0x9001 1) 0 data clearWrite s)

/-! ## Over the management bus (R430 to R433) -/

/-- What the always-on domain's management controller reads while Uzomel does not run (R433). -/
def aonReadable (obj : Nat) : Bool := obj / 256 = 0x1001 || obj = ob 0x9030 1 || obj = ob 0x9031 0 || obj = ob 0x9042 0

/-- The key of a management-bus message (R417, R430). -/
def mctpKey (s : State) (obj arg : Nat) (hash : Digest) : Nat := if hashKeyed s obj then leNat hash else arg

/-- Answer a READ (R430). -/
def mctpReadAnswer (ep : Nat) (tag : Byte) (st : Nat) (b : Bytes) (s : State) : State :=
  send (.mctp ep tag 0x81 (BitVec.ofNat 8 st) b) s

/-- Answer a WRITE (R430). -/
def mctpWriteAnswer (ep : Nat) (tag : Byte) (st : Nat) (s : State) : State :=
  send (.mctp ep tag 0x82 (BitVec.ofNat 8 st) []) s

def dropSnapshot (ep : Nat) (s : State) : State := modDict (fun d => { d with snapshots := tdel d.snapshots ep }) s
def dropPieces (ep : Nat) (s : State) : State := modDict (fun d => { d with pieces := tdel d.pieces ep }) s

/-- A READ that is served (R431): OFFSET 0 takes a snapshot, a greater OFFSET reads it. -/
def mctpRead (ep : Nat) (tag : Byte) (flags : Byte) (obj arg : Nat) (offset len : Nat) (hash : Digest) (s : State) : State :=
  let key := mctpKey s obj arg hash
  if 4 ≤ flags.toNat || 1024 < len then mctpReadAnswer ep tag St.outOfRange [] s
  else if offset = 0 then
    let s := dropSnapshot ep s
    match readObject s (s.sec.policy.getLsbD 1) obj arg hash (bitAt flags.toNat 0) with
    | .inl st => mctpReadAnswer ep tag st [] s
    | .inr b =>
      let shot : MctpPieces := { object := obj, key, tag, bytes := b }
      let s := modDict (fun d => { d with snapshots := tset d.snapshots ep shot }) s
      mctpReadAnswer ep tag St.success (b.take len) (afterRead obj arg (some ep) s)
  else match tget? s.dict.snapshots ep with
    | some shot =>
      if shot.object = obj && shot.key = key then mctpReadAnswer ep tag St.success (sub shot.bytes offset len) s
      else mctpReadAnswer ep tag St.outOfRange [] s
    | none => mctpReadAnswer ep tag St.outOfRange [] s

/-- MCTP_DICT_READ (R430 to R433). -/
def execMctpDictRead (ep : Nat) (tag : Byte) (flags : Byte) (index : BitVec 16) (sub : Byte) (argument : BitVec 64)
    (offset : BitVec 32) (length : BitVec 16) (hash : Digest) (s : State) : Res :=
  let obj := ob index.toNat sub.toNat
  if s.power.phase == .off then .next s
  else if coreSleeps s then .next (holdMessage (.mctpDictRead ep tag flags index sub argument offset length hash) s)
  else if !uzomelRuns s && !aonReadable obj then .next (mctpReadAnswer ep tag St.busy [] s)
  else .next (mctpRead ep tag flags obj argument.toNat offset.toNat length.toNat hash s)

/-- A piece of a WRITE (R431): it starts anew at OFFSET 0, or it follows the pieces that are there. -/
def mctpPiece (ep : Nat) (tag : Byte) (obj arg offset : Nat) (data : Bytes) (s : State) : Option MctpPieces :=
  if offset = 0 then some { object := obj, key := arg, tag, bytes := data }
  else match tget? s.dict.pieces ep with
    | some p =>
      if p.object = obj && p.key = arg && p.bytes.length = offset then some { p with tag, bytes := p.bytes ++ data } else none
    | none => none

/-- MCTP_DICT_WRITE (R430 to R433): applied as one write on the piece with FINAL set. -/
def execMctpDictWrite (ep : Nat) (tag : Byte) (flags : Byte) (index : BitVec 16) (sub : Byte) (argument : BitVec 64)
    (offset : BitVec 32) (data : Bytes) (s : State) : Res :=
  let obj := ob index.toNat sub.toNat
  let arg := argument.toNat
  if s.power.phase == .off then .next s
  else if coreSleeps s then .next (holdMessage (.mctpDictWrite ep tag flags index sub argument offset data) s)
  else if !uzomelRuns s then .next (mctpWriteAnswer ep tag St.busy s)
  else if 4 ≤ flags.toNat || 1024 < data.length then .next (mctpWriteAnswer ep tag St.outOfRange s)
  else match mctpPiece ep tag obj arg offset.toNat data s with
    | none => .next (mctpWriteAnswer ep tag St.outOfRange (dropPieces ep s))
    | some p =>
      if bitAt flags.toNat 1 then
        let (st, s) := writeObject (.mctp ep tag) obj arg p.bytes (dropPieces ep s)
        .next (mctpWriteAnswer ep tag st s)
      else .next (mctpWriteAnswer ep tag St.success (modDict (fun d => { d with pieces := tset d.pieces ep p }) s))

/-- MCTP_SNAPSHOT_EXPIRY (R431): 100 ms after the snapshot's last read. -/
def execMctpSnapshotExpiry (ep : Nat) (s : State) : Res := .next (dropSnapshot ep s)

/-- MCTP_WRITE_TIMEOUT (R431): no FINAL within 100 ms. -/
def execMctpWriteTimeout (ep : Nat) (s : State) : Res :=
  match tget? s.dict.pieces ep with
  | none => .next s
  | some p => .next (mctpWriteAnswer ep p.tag St.outOfRange (dropPieces ep s))

end Sys2Proof.Machine
end

