-- ==== Sys2Proof/Machine/Power.lean ====
section
/-! DEFINITION. How a power domain's transition ends (R166, R467 to R469, R475, R476), the governor's measured loop (R486), heat
(R487), the supply's dips (R480, R481), the monitors' samples (R443) and Tide's source (R492). Choices of the model:
notes/assumptions/35.md (DEDUCED). -/

namespace Sys2Proof.Machine

/-! ## Links that a domain or the reference takes down (R382, R389, R467) -/

/-- A link record without traffic: in RET it keeps its lanes and its peer; otherwise only its retired lanes stay. -/
def linkAsleep (keep : Bool) (k : Nat) (st : LinkState) (s : State) : State :=
  let l := linkOf s k
  let m := l.peerA.toNat
  let was := l.state == .exchange
  let bare : Link := { state := l.state, retired := l.retired, replays := l.replays }
  let next : Link := if keep then { l with replay := [], partialPacket := [], retraining := false } else bare
  let s := modLink k (fun _ => next) s
  let s := if l.state == .failed then s else setLink k st s
  if was && gangLinks s m = [] then gangLost m s else s

/-- Both records of link n. -/
def linkBoth (keep : Bool) (n : Nat) (st : LinkState) (s : State) : State :=
  linkAsleep keep (n + 7) st (linkAsleep keep n st s)

/-- A link record that wakes from RET is in EXCHANGE with its peer (R389, R469). -/
def linkAwake (k : Nat) (s : State) : State :=
  let l := linkOf s k
  let m := l.peerA.toNat
  if !(l.state == .down) || l.lanes = 0 || !linksEnabled s || !(peersOf s).contains m then s
  else
    let was := gangLinks s m ≠ []
    let s := setLink k .exchange s
    if was then s else enterExchange m s

/-! ## What a domain loses (R166, R467) -/

/-- An island has lost its programs, scale table, lanes and trim codes. -/
def islandLost (i : Nat) (s : State) : State :=
  let s := modIsland i (fun y => { quarantined := y.quarantined, hot := y.hot, nextJoin := y.nextJoin }) s
  { s with banks := s.banks.map fun e => (e.1, if bankIsland e.1 = i then { e.2 with trims := [] } else e.2) }

/-- A segment has lost its data and valid bits. -/
def segLost (g : Nat) (s : State) : State := { s with hbr := hClear s.hbr (g * 2 ^ 26) (2 ^ 26) }

/-- What a domain keeps in neither OFF nor FAILED is gone (R467). -/
def domLost (n : Nat) (s : State) : State :=
  match domKind n with
  | 1 => islandLost n s
  | 2 => segLost (n - 2048) s
  | 3 => modCluster (n - 2064) (fun y => { y with acc := 0, buffer := [], bufferDev := [] }) s
  | 6 => linkBoth false (n - 2083) .down s
  | _ => s

/-- The request that waited behind another runs (R473). -/
def runQueued (n : Nat) (s : State) : State :=
  match (domOf s n).queued with
  | none => s
  | some t => startRequest n t (modDom n (fun d => { d with queued := none }) s)

/-! ## Maintenance over a sleep of the core complex (R294, R471, R491) -/

/-- Seconds until a bank's maintenance falls due (R296, R302). -/
def dueIn (s : State) (n : Nat) : Nat :=
  let d := schedOf s n
  let ks := d.measuredAt + dictNum s (ob 0x8004 1) - poweredS s
  let rate := driftPerSecond (topupCurve s) (bankClass s n = 2) (islandTj s (bankIsland n))
  if anyDue d then 0
  else if bankClass s n = 1 || rate = 0 then ks
  else min ks (ceilDiv (driftOne - d.drift) rate)

/-- The Tide at which maintenance next falls due; all ones where there is none (R471). -/
def nextDue (s : State) : BitVec 64 :=
  match (placedBanks s).map (dueIn s) with
  | [] => 0xFFFFFFFFFFFFFFFF
  | k :: t => tideOf s + BitVec.ofNat 64 (1000000000 * t.foldl min k)

/-- The core complex enters RET (R166, R471, R491). -/
def coreRests (s : State) : State :=
  let s := storePoweredTime s
  let s := { s with regs := { s.regs with alarm := nextDue s, alarmFired := false } }
  let s := { s with power := { s.power with retSince := tideOf s, retHot := 0 } }
  modDom (domSeg 1) (fun d => { d with state := .ret }) (modDom (domSeg 0) (fun d => { d with state := .ret }) s)

/-- Drift age over the sleep, at the highest island Tj sampled in it (R491). -/
def driftOverSleep (s : State) : State :=
  let sec := poweredS s - s.time.driftAt
  let s := { s with time := { s.time with driftAt := poweredS s } }
  (placedBanks s).foldl (fun s n =>
    let tj := if s.power.retHot = 0 then islandTj s (bankIsland n) else s.power.retHot
    refreshDue n (modSched n (driftAdd s n sec tj) s)) s

/-- The state after a meaning, or the state before it. -/
def stateAfter (s : State) (r : Res) : State :=
  match r with
  | .next t => t
  | _ => s

/-- Serve a message that woke the core complex (R471). -/
def serveMessage (i : Instr) (s : State) : State :=
  match i with
  | .getVersion c m => stateAfter s (execGetVersion c m s)
  | .getCapabilities c m => stateAfter s (execGetCapabilities c m s)
  | .negotiateAlgorithms c m a b => stateAfter s (execNegotiateAlgorithms c m a b s)
  | .getDigests c m => stateAfter s (execGetDigests c m s)
  | .getCertificate c m k o l => stateAfter s (execGetCertificate c m k o l s)
  | .challenge c m k => stateAfter s (execChallenge c m k s)
  | .getMeasurements c m k x g => stateAfter s (execGetMeasurements c m k x g s)
  | .chunkSend c m l => stateAfter s (execChunkSend c m l s)
  | .chunkGet c n => stateAfter s (execChunkGet c n s)
  | .pqSign c m => stateAfter s (execPqSign c m s)
  | .secFwStage r b => stateAfter s (execSecFwStage r b s)
  | .secFwCommit r b => stateAfter s (execSecFwCommit r b s)
  | .secModuleReset r b => stateAfter s (execSecModuleReset r b s)
  | .secPolicyWrite r b => stateAfter s (execSecPolicyWrite r b s)
  | .pubkeyWrite r n b => stateAfter s (execPubkeyWrite r n b s)
  | .queuePairEnable w => stateAfter s (execQueuePairEnable w s)
  | .queuePairDisable w => stateAfter s (execQueuePairDisable w s)
  | .cfgCommit r b => stateAfter s (execCfgCommit r b s)
  | .monClear r b => stateAfter s (execMonClear r b s)
  | .domainRequestOn src n => stateAfter s (execDomainRequestOn src n s)
  | .domainRequestRet src n => stateAfter s (execDomainRequestRet src n s)
  | .domainRequestOff src n => stateAfter s (execDomainRequestOff src n s)
  | .mctpDictRead ep tag fl i u a o l h => stateAfter s (execMctpDictRead ep tag fl i u a o l h s)
  | .mctpDictWrite ep tag fl i u a o d => stateAfter s (execMctpDictWrite ep tag fl i u a o d s)
  | _ => s

/-- The core complex is ON again (R166, R242, R471, R491). -/
def coreWakes (s : State) : State :=
  let s := modDom (domSeg 1) (fun d => { d with state := .on }) (modDom (domSeg 0) (fun d => { d with state := .on }) s)
  let s := raiseRefetch (driftOverSleep s)
  let msgs := s.dict.waitingMsgs
  serveWaiting (msgs.foldl (fun s i => serveMessage i s) (modDict (fun d => { d with waitingMsgs := [] }) s))

/-! ## A wake ends (R250, R302, R468, R469, R476) -/

/-- A bank that the known-sum test of an island's wake takes (R302). -/
def wakeTested (s : State) (i n : Nat) : Bool :=
  let b := bankOf s n
  bankIsland n = i && !b.storageMode && (b.state == .ready || b.state == .worn)

/-- The programs of an island are loaded again (R208, R250, R468). -/
def islandReload (i : Nat) (s : State) : State :=
  (s.model.slots.filter fun e => e.2.state == .bound).foldl (fun s e =>
    let n := e.1
    let sl := e.2
    let on := fun (l : List Placed) => l.any fun q => bankIsland q.bank = i
    let mine := (islandSet s n).contains i
    let gen : Option (BitVec 16) :=
      if sl.oldGen.isSome then (if on sl.oldPlaces || mine then some sl.gen else none)
      else match sl.swap with
        | some w => if w.mode == .shadow && !w.switched && (on w.places || mine) then some (nextGen sl.gen) else none
        | none => none
    let y := islandOf s i
    if y.program.isSome || !(mine || gen.isSome) then s
    else modIsland i (fun y => { y with program := some n, second := gen }) s) s

/-- A handle is held (R176). -/
def handleHeld (s : State) (h : BitVec 16) : Bool :=
  (s.model.launches.any fun l => l.2.reserved.contains h) || (s.flow.laces.any fun l => l.2.held.any fun k => k.h = h) ||
    (s.flow.clearing.any fun c => c.1 = h) || s.flow.recomputeHolds.contains h ||
    (s.que.kv.any fun c => c.2.any fun e => e.1 = h)

/-- The storage-mode banks of an island whose margin has not been measured in this power cycle are due for a sample (R77, R244). -/
def firstWake (i : Nat) (s : State) : State :=
  let due := s.banks.filter fun e => bankIsland e.1 = i && e.2.storageMode && (e.2.state == .storage || e.2.state == .worn) &&
    decide (e.2.marginPcycle ≠ BitVec.ofNat 32 (pcycleOf s))
  due.foldl (fun s e => modSched e.1 (fun d => stampDue (poweredS s) { d with dueKs := true }) s) s

/-- What becomes of a domain's work when its wake ends; `was` is its state before. -/
def wakeEffects (n : Nat) (was : PState) (tests : List (Nat × KsResult)) (s : State) : State :=
  match domKind n with
  | 1 =>
    let s := islandReload n s
    -- R300, R302: after RET a short check, which a full test follows where it fails; after OFF the full test
    let tests := if was == .ret then tests.filter fun t => shortFails (bankOf s t.1) (ksDisturb t.2 9 0) else tests
    let s := (tests.filter fun t => wakeTested s n t.1).foldl (fun s t => fullTest t.1 { t.2 with cut := none } s) s
    firstWake n s
  | 2 =>
    let g := n - 2048
    let s := if was == .ret then s else segLost g s
    let hs := ((List.range 4096).map fun k => BitVec.ofNat 16 (4096 * g + k)).filter fun h => !handleHeld s h
    let back := fun (pool : Nat) => poolReturn pool hs s
    let s := if !(was == .failed) then s
      else match (segOf s g).use with
        | .last => back (segOf s g).holder.toNat
        | .kv => back (kvPool (segOf s g).holder.toNat)
        | _ => s
    serveWaiting s
  | 4 => coreWakes s
  | 6 => if was == .ret then linkAwake (n - 2083 + 7) (linkAwake (n - 2083) s) else s
  | _ => s

/-- Every bank that the wake of an island from OFF tests has its result (R302). -/
def testsComplete (s : State) (n : Nat) (was : PState) (tests : List (Nat × KsResult)) : Bool :=
  domKind n ≠ 1 || was == .ret || s.banks.all fun b => !wakeTested s n b.1 || tests.any fun t => t.1 = b.1

/-- DOMAIN_WAKE_DONE (R302, R468, R469, R473): `tests` are the full known-sum tests of an island's wake, after a failed short
check where it wakes from RET. -/
def execDomainWakeDone (dom : Nat) (tests : List (Nat × KsResult)) (s : State) : Res :=
  if !domExists s dom then .fault .absentUnit
  else
    let d := domOf s dom
    if d.current ≠ some .on || !testsComplete s dom d.state tests then .next s
    else
      let s := modDom dom (fun d => { d with state := .on, current := none, attempts := 0, wakes := d.wakes + 1 }) s
      .next (runQueued dom (cause 6 (wakeEffects dom d.state tests s)))

/-- DOMAIN_DOWN_DONE (R467, R469, R473): the domain has fenced its crossings and reached RET or OFF. -/
def execDomainDownDone (dom : Nat) (s : State) : Res :=
  if !domExists s dom then .fault .absentUnit
  else match (domOf s dom).current with
    | some .ret =>
      let s := match domKind dom with
        | 3 => domLost dom s
        | 4 => coreRests s
        | 6 => linkBoth true (dom - 2083) .down s
        | _ => s
      .next (runQueued dom (cause 6 (modDom dom (fun d => { d with state := .ret, current := none }) s)))
    | some .off =>
      .next (runQueued dom (cause 6 (modDom dom (fun d => { d with state := .off, current := none }) (domLost dom s))))
    | _ => .next s

/-! ## A wake fails (R161, R219, R475, R476) -/

/-- A queue pair keeps a ring or its log in a segment (R354, R476). -/
def pairUses (p : QPair) (g : Nat) : Bool :=
  (pairSqHarbour p && addrSeg p.sqBase.toNat = g) || (pairCqHarbour p && addrSeg p.cqBase.toNat = g) ||
    (pairLogHarbour p && addrSeg p.logBase.toNat = g)

/-- Segment g is FAILED (R476). -/
def segFailed (g : Nat) (s : State) : State :=
  let s := dropCopies g (dropFree g s)
  let hit := fun (p : QPair) => !(p.state == .disabled) && pairUses p g
  let s := { s with que := { s.que with pairs := s.que.pairs.map fun e => (e.1, if hit e.2 then { e.2 with state := .error } else e.2) } }
  let w := (segOf s g).waiter
  let s := modSeg g (fun x => { x with next := none, waiter := none }) s
  match w with
  | some a => finishSt a St.segmentBusy s
  | none => s

/-- The consequences of FAILED (R476). -/
def wakeFailed (n : Nat) (s : State) : State :=
  match domKind n with
  | 2 => if n < 2050 then moduleFault s else serveWaiting (segFailed (n - 2048) s)
  | 3 =>
    let c := n - 2064
    let h := historyOf s .cluster c
    retireCluster c (setHistory .cluster c { h with permanent := true } s)
  | 4 => moduleFault s
  | 5 => portLinkDown (if n = 2081 then .u else .d) s
  | 6 =>
    let m := n - 2083
    raise .linkFailed 8 m (setLink m .failed (linkBoth false m .down s))
  | _ => s

/-- WAKE_STEP_TIMEOUT (R475, R476): the domain is back in OFF; the fourth failed attempt leaves it FAILED. -/
def execWakeStepTimeout (dom : Nat) (s : State) : Res :=
  if !domExists s dom then .fault .absentUnit
  else
    let d := domOf s dom
    if d.current ≠ some .on then .next s
    else
      let s := if d.state == .ret then domLost dom s else s
      if d.attempts < 3 then
        .next (modDom dom (fun d => { d with attempts := d.attempts + 1, state := if d.state == .failed then .failed else .off }) s)
      else
        let s := modDom dom (fun d =>
          { d with state := .failed, current := none, attempts := 0, failures := d.failures + 1 }) s
        let s := cause 6 (raise .wakeFailed 0 dom (bump (ob 0x2008 1) s))
        .next (runQueued dom (wakeFailed dom s))

/-! ## The governor's measured loop (R486) -/

/-- POWER_SAMPLE (R486): one of the ten samples of a 100 µs period, in mW. -/
def execPowerSample (milliwatts : Nat) (s : State) : Res :=
  if !s.power.pwrGood || 10 ≤ s.power.samples.length then .next s
  else .next { s with power := { s.power with samples := milliwatts :: s.power.samples } }

/-- Θ after a period whose mean is `mean` (R486), in seventieths of a milliwatt. -/
def thetaNext (s : State) (mean : Nat) : Nat :=
  let cap := capUnits s
  let t := thetaOf s
  let t := if cap < mean then t + (mean - cap) else if mean + 350000 ≤ cap then t - min t 350000 else t
  min t (budgetB s - 962500)

/-- GOVERNOR_PERIOD_END (R486): the mean of the ten samples updates Θ. -/
def execGovernorPeriodEnd (s : State) : Res :=
  if s.power.samples.length ≠ 10 then .next s
  else
    let mean := 7 * s.power.samples.sum
    let old := thetaOf s
    let new := thetaNext s mean
    let s := { s with power := { s.power with samples := [], theta := new } }
    let s := if 0 < old then bumpBy (ob 0x2004 2) 100 s else s
    .next (if old = 0 && 0 < new then raise .throttle 0 0 (bump (ob 0x2004 1) s) else s)

/-! ## Samples and heat (R441 to R443, R487) -/

/-- The `mon.tj` value of a temperature in °C (R443). -/
def tjOf (c : Nat) : Nat := 4 * c + 160

/-- The sensors' present values: those of the islands, or those of the logic die (R443). -/
def tjValues (s : State) (logic : Bool) : List Nat :=
  (s.dict.monitors.filter fun e =>
    e.1 / 2 ^ 64 = ob 0x9031 0 && decide (0x10000 ≤ e.1 % 2 ^ 64) = logic).map fun e => e.2.last.toNat

/-- The limit of one island (R487). -/
def islandHeat (i v : Nat) (s : State) : State :=
  let y := islandOf s i
  if !y.hot && tjOf 92 ≤ v then raise .islandHot 3 i (bump (ob 0x2005 1) (modIsland i (fun y => { y with hot := true }) s))
  else if y.hot && v ≤ tjOf 88 then modIsland i (fun y => { y with hot := false }) s
  else s

/-- THERM_N (R487, R531). -/
def thermPin (s : State) : State :=
  let on := (tjValues s false).any (fun v => tjOf 93 ≤ v) || (tjValues s true).any (fun v => tjOf 103 ≤ v)
  let off := (tjValues s false).all (fun v => v ≤ tjOf 90) && (tjValues s true).all (fun v => v ≤ tjOf 100)
  { s with power := { s.power with thermN := if on then true else if off then false else s.power.thermN } }

/-- The limit of B′ by the logic die (R487). -/
def logicHeat (s : State) : State :=
  let on := (tjValues s true).any fun v => tjOf 102 ≤ v
  let off := (tjValues s true).all fun v => v ≤ tjOf 98
  if !s.power.logicHot && on then bump (ob 0x2005 1) { s with power := { s.power with logicHot := true } }
  else if s.power.logicHot && off then { s with power := { s.power with logicHot := false } }
  else s

/-- TJ_SAMPLE (R443, R487, R528): an island's sensor, or logic die sensor 0x1_0000 + k. -/
def execTjSample (key : Nat) (quarterDegrees : Int) (s : State) : Res :=
  let logic := decide (0x10000 ≤ key)
  let v := (quarterDegrees + 160).toNat
  if !(key < nIslands s || (0x10000 ≤ key && key < 0x10010)) then .fault .absentUnit
  else if s.power.phase == .off then .next s
  else
    let s := sample (ob 0x9031 0) key v s
    let s := if logic then logicHeat s else islandHeat key v s
    let s := if !logic && domState s domCore == .ret then
      { s with power := { s.power with retHot := max s.power.retHot v } } else s
    let s := thermPin s
    let trip := s.power.rails ≠ [] && decide (tjOf (if logic then 110 else 100) ≤ v)
    .next (if trip then startReset .thermalTrip s else s)

/-- VCORE_SAMPLE (R443). -/
def execVcoreSample (millivolts : BitVec 32) (s : State) : Res :=
  if s.power.phase == .off then .next s else .next (sample (ob 0x9030 1) 0 millivolts.toNat s)

/-- Handles held (R176). -/
def handlesHeld (s : State) : Nat :=
  (s.model.launches.map fun l => l.2.reserved.length).sum + (s.flow.laces.map fun l => l.2.held.length).sum +
    s.flow.clearing.length + (s.que.kv.map fun c => c.2.length).sum

/-- OCCUPANCY_SAMPLE (R443). -/
def execOccupancySample (s : State) : Res :=
  if s.power.rails = [] then .next s else .next (sample (ob 0x9020 1) 0 (handlesHeld s) s)

/-! ## Dips (R480, R481) -/

/-- Islands that are ON. -/
def onIslands (s : State) : List Nat := (s.power.doms.filter fun e => decide (e.1 < 2048) && e.2.state == .on).map Prod.fst

/-- VCORE_WARNING_TRIP (R285, R481 t1): a trip in the hold belongs to the same dip. -/
def execVcoreWarningTrip (s : State) : Res :=
  if s.power.rails = [] || s.power.dip == .tripped then .next s
  else
    let same := s.power.dip == .hold
    let s := if same then s else bump (ob 0x2007 1) s
    let islands := (onIslands s).foldl (fun l i => insertUp i l) s.power.dipIslands
    -- R305: measurements in progress are discarded
    .next { s with
      scheds := s.scheds.map fun e => (e.1, { e.2 with calib := none, calibCols := [], calibUnnamed := false })
      power := { s.power with
        dip := .tripped
        dipSince := if same then s.power.dipSince else tideOf s
        dipLow := same && s.power.dipLow
        dipIslands := islands }
      awl := { s.awl with paused := true } }

/-- VCORE_RECOVER (R480, R481 t3): the hold starts. -/
def execVcoreRecover (s : State) : Res :=
  if !(s.power.dip == .tripped) then .next s
  else
    let ticks := (tideOf s - s.power.dipSince).toNat
    let low := decide (10000000 < ticks)
    let first := low && !s.power.dipLow
    let s := { s with power := { s.power with
      dip := .hold, dipLongest := max s.power.dipLongest (ticks / 1000), dipLow := s.power.dipLow || low } }
    .next (if first then raise .supplyLow 0 0 s else s)

/-- DIP_HOLD_END (R300, R302, R481 t4): short checks run on the banks of every island that was ON; `checks` are those that meet a
disturbance. -/
def execDipHoldEnd (checks : List (Nat × Disturb)) (s : State) : Res :=
  if !(s.power.dip == .hold) then .next s
  else
    let failed := fun (n : Nat) => s.power.dipIslands.contains (bankIsland n) && wakeTested s (bankIsland n) n &&
      shortFails (bankOf s n) (((checks.find? fun e => e.1 = n).map Prod.snd).getD { rows := [], edges := [], slip := 0 })
    let bad := (tkeys s.banks).filter failed
    let s := bad.foldl (fun s n => modSched n (fun d => stampDue (poweredS s) { d with dueKs := true }) s) s
    let left := s.power.dipIslands.filter fun i => bad.any fun n => bankIsland n = i
    .next { s with power := { s.power with dip := .checking, dipIslands := left } }

/-- DIP_RESUME (R481 t5, t6): admission, row groups, tiles and pulses resume. -/
def execDipResume (s : State) : Res :=
  if !(s.power.dip == .checking) then .next s
  else .next { s with power := { s.power with dip := .none }, awl := { s.awl with paused := false } }

/-! ## Tide's source and the cores' watchdogs (R382, R416, R492) -/

/-- TIDE_SOURCE_CHANGE (R382, R492): without the reference every link is DISABLED. -/
def execTideSourceChange (present : Bool) (s : State) : Res :=
  if s.power.phase == .off || present == s.power.sref then .next s
  else
    let s := { s with power := { s.power with sref := present }, time := { s.time with internal := !present } }
    let s := if uzomelRuns s then raise .tideSource 0 0 s else s
    if present then
      let s := if linksEnabled s then (List.range 14).foldl (fun s k => if (linkOf s k).state == .disabled then setLink k .down s else s) s else s
      .next (if isReady s then wakeLinks s else s)
    else .next ((List.range 7).foldl (fun s n => linkBoth false n .disabled s) s)

/-- The syndrome of a codeword with the named bits inverted (R320, R321). -/
def upsetSyndrome (bits : List (Fin 72)) : BitVec 8 :=
  bits.foldl (fun v b => v ^^^ BitVec.ofNat 8 (if b.val < 64 then hCols.getD b.val 0 else 2 ^ (b.val - 64))) 0

/-- Words of one core's SRAM (R414): 4 MiB. -/
def sramWords : Nat := 524288

/-- The data bits among inverted bits of a codeword, as a mask. -/
def upsetMask (bits : List (Fin 72)) : BitVec 64 :=
  bits.foldl (fun v b => if b.val < 64 then v ^^^ BitVec.ofNat 64 (2 ^ b.val) else v) 0

/-- Set a word of the cores' SRAM and what its check bits differ by. -/
def setSram (word : Nat) (v : BitVec 64) (dev : BitVec 8) (s : State) : State :=
  { s with integ := { s.integ with
    sram := if v = 0 then tdel s.integ.sram word else tset s.integ.sram word v
    sramDev := if dev = 0 then tdel s.integ.sramDev word else tset s.integ.sramDev word dev } }

/-- A core reads a word of the cores' SRAM, whose bank is that of one core (R319, R321, R323, R414, R416), after the named bits of its
codeword have been inverted: a correction counts in that bank's bucket and is written back; an uncorrectable error stands, and is a
module fault where Uzomel cannot confine it. -/
def coreSramRead (word : Nat) (bits : List (Fin 72)) (confined : Bool) (s : State) : State :=
  let bank := word / sramWords
  let at_ := word % sramWords
  let v := tget s.integ.sram word 0 ^^^ upsetMask bits
  let dev := tget s.integ.sramDev word 0 ^^^ upsetSyndrome bits
  match eccDecode dev with
  | .checkBit k => correctedError 3 bank at_ (64 + k) (setSram word v 0 s)
  | .dataBit i => correctedError 3 bank at_ i (setSram word (v ^^^ BitVec.ofNat 64 (2 ^ i)) 0 s)
  | .uncorrectable =>
    let s := uncorrectable 0 bank (setSram word v dev s)
    if confined then s else moduleFault s
  | _ => setSram word v dev s

/-- CORE_WATCHDOG_EXPIRY (R414, R416): a module fault, as is an error in core SRAM that Uzomel cannot confine. Every core can reach
every word of the 32 MiB; a word beyond them does not exist. -/
def execCoreWatchdogExpiry (_core : Fin 8) (why : CoreFault) (s : State) : Res :=
  if !uzomelRuns s then .next s
  else match why with
    | .expired => .next (moduleFault s)
    | .sram word bits confined =>
      if 8 * sramWords ≤ word then .fault .absentUnit else .next (coreSramRead word bits confined s)

end Sys2Proof.Machine
end

