-- ==== Sys2Proof/Machine/Registers.lean ====
section
/-! DEFINITION. The registers of BAR0 (R445 to R466): who reaches which register, what each reads, what a write does, the
staged configuration with its check pass, the Tide alarm and the opening of a Tide epoch. A register write of one kind has a
row of its own in the table; every such row is one call of `regStore`, kept to the offsets of its kind. Choices of the
model: notes/assumptions/33.md (DEDUCED), notes/assumptions/34.md (DEDUCED). -/

namespace Sys2Proof.Machine

/-! ## The map (R461) -/

/-- The initiator class of a register (R446). -/
inductive RegClass where
  | any
  | u
  | priv
  | core
  deriving DecidableEq, Repr

/-- The rows of registers that repeat: offset from `base`, in `count` groups of `stride` bytes: the group. -/
def regGroup (o base stride count : Nat) : Option Nat :=
  if base ≤ o ∧ o < base + stride * count then some ((o - base) / stride) else none

/-- The offset lies in a register group at one of the given offsets within it. -/
def inGroupAt (o base stride count : Nat) (offs : List Nat) : Bool :=
  (regGroup o base stride count).isSome && offs.contains ((o - base) % stride)

/-- Registers of the core complex (R461): class by offset. -/
def coreReg (o : Nat) : Option RegClass :=
  if [0x0, 0xC, 0x10, 0x1C, 0x20].contains o then some .any
  else if [0x4, 0x8, 0x14, 0x18, 0x24, 0x200040].contains o then some .priv
  else if inGroupAt o 0x200000 4 16 [0] || inGroupAt o 0x210000 4 256 [0] then some .any
  else if inGroupAt o 0x400000 4 8 [0] || o = 0x410000 || o = 0x410004 then some .u
  else if 0x600000 ≤ o ∧ o < 0x608000 then some .core
  else if inGroupAt o 0x608000 0x40 8 [0, 4, 8, 0xC, 0x10, 0x14, 0x18, 0x1C, 0x20] then some .core
  else if inGroupAt o 0x608400 4 4 [0] || [0x700000, 0x700004, 0x700008].contains o then some .core
  else if [0x610000, 0x780000, 0x780004, 0x780008].contains o then some .any
  else none

/-- Registers outside the core complex (R461, R509): class and domain by offset. -/
def outerReg (s : State) (o : Nat) : Option (RegClass × Nat) :=
  if [0x10000, 0x10004, 0x10008].contains o then some (.priv, domAlways)
  else if [0x1000C, 0x10010, 0x20000, 0x20004, 0x20008, 0x2000C].contains o then some (.any, domAlways)
  else if [0x20010, 0x20014, 0x20018, 0x2001C].contains o then some (.core, domAlways)
  else if inGroupAt o 0x780010 4 5 [0] && mailboxOn s then some (.u, domAlways)
  else if inGroupAt o 0x100000 0x10 (nIslands s) [0, 4] then some (.any, (o - 0x100000) / 0x10)
  else if inGroupAt o 0x300000 0x10 16 [0] then some (.any, domCluster ((o - 0x300000) / 0x10))
  else if o = 0x410008 then some (.any, domPort .u)
  else if o = 0x41000C then some (.any, domPort .d)
  else if inGroupAt o 0x420000 0x10 7 [0, 4] then some (.any, domLink ((o - 0x420000) / 0x10))
  else none

/-- The class and the domain of the register at an offset; none where no table names one (R445, R461). -/
def regInfo (s : State) (o : Nat) : Option (RegClass × Nat) :=
  if o % 4 ≠ 0 then none
  else match coreReg o with
    | some c => some (c, domCore)
    | none => outerReg s o

/-- The initiator is in the class (R446): Port D reaches class ANY only. -/
def inClass (s : State) (i : Initiator) (c : RegClass) : Bool :=
  match c with
  | .any => true
  | .u => classU i
  | .priv => privileged s i
  | .core => isCore i

/-- What the register interface makes of an access (R445, R447, R459). -/
inductive RegGate where
  | absent
  | denied
  | asleep
  | reach (dom : Nat)
  deriving DecidableEq, Repr

def regGate (s : State) (i : Initiator) (o : Nat) : RegGate :=
  match regInfo s o with
  | none => .absent
  | some (c, d) =>
    if !inClass s i c then .denied
    else if domState s d == .ret || domState s d == .off then .asleep
    else .reach d

/-- The low halves of the register pairs (R450, R461). -/
def isPairLo (o : Nat) : Bool :=
  [0x20000, 0x20010, 0x20018, 0x400000, 0x400008, 0x400010, 0x410000, 0x608400, 0x780000, 0x780010].contains o ||
    inGroupAt o 0x608000 0x40 8 [0xC, 0x14]

/-- The high halves, four bytes above. -/
def isPairHi (o : Nat) : Bool := 4 ≤ o && isPairLo (o - 4)

/-- An initiator's number in the keys of shadows and stages (R450, R451). -/
def initKey (i : Initiator) : Nat := match i with | .core n => n.val | .portU => 8 | .portD => 9

/-- The key of an initiator's shadow or stage of the pair whose low half is at `o`. -/
def halfKey (i : Initiator) (o : Nat) : Nat := initKey i * 2 ^ 24 + o

/-- The register interface is up (R482, R500): the module is out of its reset. -/
def barUp (s : State) : Bool :=
  match s.power.phase with
  | .off => false
  | .aux => false
  | .rails => false
  | _ => true

/-- Port D has no BAR0 but as an endpoint (R351, R446). -/
def barSeen (s : State) (i : Initiator) : Bool := !(i == .portD && s.regs.dMode ≠ 0)

/-- An access that no port completes: Unsupported Request, or an access fault at a core (R445). -/
def badAccess (i : Initiator) (s : State) : State :=
  match i with
  | .core _ => send (.accessFault i) s
  | _ => send (.unsupported i) s

/-! ## What registers read (R450, R462 to R466) -/

/-- SYS_STATUS (R462). -/
def sysStatus (s : State) : Nat :=
  b2n s.regs.cfgMatch + 2 * b2n (cfgPending s) + 4 * b2n s.regs.xdomBusy + 8 * b2n s.regs.xdomDrop +
    16 * b2n s.regs.domOff + 32 * b2n (testActive s) + 64 * b2n s.regs.holdLong + 128 * b2n s.regs.rangeDrop

/-- SYS_ID (R462). -/
def sysId (s : State) : Nat :=
  (if s.part816 then 0x0816 + 16 * 2 ^ 16 else 0x0808 + 8 * 2 ^ 16) + 2 ^ 24 * b2n s.liquid

/-- TIDE_STATUS (R464). -/
def tideStatus (s : State) : Nat :=
  b2n s.power.sref + 2 * b2n s.time.internal +
    4 * b2n (membersOf s ≠ [] && s.strait.aligned && !s.strait.left) + 8 * b2n (isLeader s)

/-- ISL_STATUS and ISL_PROGRAM of island i (R465). -/
def islStatus (s : State) (i : Nat) : Nat :=
  let x := islandOf s i
  pstateCode (domState s i) + 4 * b2n x.quarantined + 2 ^ 8 * x.threads.length + 2 ^ 16 * lanesFree s i

def islProgram (s : State) (i : Nat) : Nat :=
  let x := islandOf s i
  (x.program.getD 0xFF) % 256 + 2 ^ 8 * b2n x.second.isSome

/-- HBR_SEG of segment n (R465). -/
def hbrSeg (s : State) (n : Nat) : Nat :=
  let g := segOf s n
  useCode g.use + 8 * pstateCode (domState s (domSeg n)) + 32 * b2n (s.hbr.clears.any fun r => addrSeg r.1 = n) +
    2 ^ 16 * g.holder.toNat

/-- FRY_STATUS of Ferry f (R465). -/
def fryStatus (s : State) (f : Nat) : Nat := (ferryOf s f).streams.length + 32 * b2n (ferryOf s f).retired

/-- SHK_STATUS of cluster c (R465). -/
def shkStatus (s : State) (c : Nat) : Nat :=
  pstateCode (domState s (domCluster c)) + 4 * b2n (s.power.standing = some c) + 2 ^ 8 * recomputesAt s c

/-- PRT_U_STATUS and PRT_D_STATUS (R465). -/
def prtStatus (s : State) (p : Port) : Nat :=
  let x := portOf s p
  x.speed.toNat + 8 * x.width.toNat + 2 ^ 8 * b2n x.flit + 2 ^ 9 * b2n x.linkUp + 2 ^ 10 * b2n x.d3hot

/-- STR_LINK and STR_REPLAYS of link n (R465). -/
def strLink (s : State) (n : Nat) : Nat :=
  let l := linkOf s n
  let other := if l.halves then (linkOf s (n + 7)).lanes else 0
  let peerB := if l.halves then (linkOf s (n + 7)).peerA else l.peerB
  linkCode (linkShown s n) + 8 * b2n l.halves + 16 * (l.lanes ||| other).toNat + 2 ^ 8 * l.peerA.toNat + 2 ^ 11 * peerB.toNat

def strReplays (s : State) (n : Nat) : Nat := ((linkOf s n).replays + (linkOf s (n + 7)).replays).toNat

/-- COB_STATUS (R465): runs that hold a pump slot. -/
def cobStatus (s : State) : Nat :=
  let holds := fun (e : Nat × Sched) => e.2.run.isSome && (bankOf s e.1).ops.any fun o => o.run && opRunning o
  (s.scheds.filter holds).length + 2 ^ 11 * b2n (dictNum s (ob 0x8001 1) = 1)

/-- SEC_STATE.BOOT (R466). -/
def bootState (s : State) : Nat :=
  match s.power.phase with
  | .firmware => 1
  | .ready => 1
  | .recovery => 2
  | _ => 0

/-- SEC_RCV_STATUS (R509). -/
def rcvStatus (s : State) : Nat := s.regs.rcvState.toNat + 16 * s.regs.rcvReason.toNat

/-- The 64-bit value of the pair whose low half is at `o`; the Awl FIFO's pair has a row of its own. -/
def pairValue (s : State) (o : Nat) : BitVec 64 :=
  if o = 0x20000 then tideOf s
  else if o = 0x20010 then s.regs.offsetPending
  else if o = 0x20018 then s.regs.alarm
  else if o = 0x400000 then s.regs.admSq
  else if o = 0x400008 then s.regs.admCq
  else if o = 0x400010 then s.regs.admLog
  else if o = 0x410000 then s.regs.dwin
  else if o = 0x780000 then s.sec.policy
  else if o = 0x780010 then s.regs.rcvAddr
  else if 0x608000 ≤ o ∧ o < 0x608200 then
    let ch := chanOf s ((o - 0x608000) / 0x40)
    if (o - 0x608000) % 0x40 = 0xC then ch.dataAddr else ch.word
  else 0

/-- A channel register of Awl (R274). -/
def awlRegRead (s : State) (o : Nat) : Nat :=
  let c := (o - 0x608000) / 0x40
  match (o - 0x608000) % 0x40 with
  | 0x00 => (chanOf s c).bankSel.toNat
  | 0x04 => (chanOf s c).row.toNat
  | 0x08 => (chanOf s c).arg.toNat
  | 0x1C => awlStatus s c
  | _ => awlResult s c

/-- A register of the SYS_, PWR_, TIDE_, INT_ and SEC_ groups by offset (R462 to R464, R466); 0 where it reads zero. -/
def controlRead (s : State) (o : Nat) : Nat :=
  match o with
  | 0x0 => sysId s
  | 0x4 => s.regs.sysCtrl.toNat
  | 0x8 => s.regs.sysCtrl.toNat % 2 ^ 16
  | 0xC => sysStatus s
  | 0x10 => s.regs.cfgCrc.toNat
  | 0x14 => s.regs.cfgCrcRef.toNat
  | 0x18 => s.regs.cfgCtrl.toNat
  | 0x1C => s.regs.privDrops.toNat
  | 0x20 => s.regs.modId.toNat + 8 * s.regs.dMode.toNat
  | 0x24 => s.regs.modePending.toNat
  | 0x10000 => s.regs.capPending.toNat
  | 0x10004 => s.regs.domSel.toNat
  | 0x1000C => if domExists s (s.regs.domSel.toNat % 4096) then domStatus s (s.regs.domSel.toNat % 4096) else 0
  | 0x10010 => (arrayCharges s + shankCharges s) / 70000 % 1024
  | 0x20008 => s.time.epoch.toNat
  | 0x2000C => tideStatus s
  | 0x200040 => s.regs.splitPending.toNat
  | 0x400018 => s.regs.admCtrl.toNat
  | 0x40001C => qstateCode (pairOf s 0).state
  | 0x410008 => prtStatus s .u
  | 0x41000C => prtStatus s .d
  | 0x608408 => s.awl.ctrl.toNat
  | 0x60840C => awlSlots s
  | 0x610000 => cobStatus s
  | 0x700000 => s.regs.intCause.toNat
  | 0x700004 => s.regs.intMask.toNat
  | 0x700008 => s.regs.intMask.toNat % 2 ^ 16
  | 0x780008 => bootState s
  | 0x780018 => s.regs.rcvLen.toNat
  | 0x780020 => rcvStatus s
  | _ => 0

/-- A 32-bit register that is no half of a pair (R461 to R466). -/
def wordRead (s : State) (o : Nat) : Nat :=
  if 0x100000 ≤ o ∧ o < 0x200000 then
    (if o % 16 = 0 then islStatus s ((o - 0x100000) / 16) else islProgram s ((o - 0x100000) / 16))
  else if 0x200000 ≤ o ∧ o < 0x200040 then hbrSeg s ((o - 0x200000) / 4)
  else if 0x210000 ≤ o ∧ o < 0x210400 then fryStatus s ((o - 0x210000) / 4)
  else if 0x300000 ≤ o ∧ o < 0x300100 then shkStatus s ((o - 0x300000) / 16)
  else if 0x420000 ≤ o ∧ o < 0x420070 then
    (if o % 16 = 0 then strLink s ((o - 0x420000) / 16) else strReplays s ((o - 0x420000) / 16))
  else if 0x600000 ≤ o ∧ o < 0x608000 then windowRead s ((o - 0x600000) / 4096)
  else if 0x608000 ≤ o ∧ o < 0x608400 then awlRegRead s o
  else controlRead s o

/-- The value after reset of a status register that has a reset value; none where the register's present value is read
(R462 to R466). -/
def statusReset (s : State) (o : Nat) : Option Nat :=
  if [0xC, 0x10, 0x1C, 0x10010, 0x20000, 0x20008, 0x780008].contains o then some 0
  else if o = 0x2000C then some (tideStatus s % 4)
  else if 0x100000 ≤ o ∧ o < 0x200000 then
    some (if o % 16 = 0 then pstateCode (domState s ((o - 0x100000) / 16)) + 2048 * 2 ^ 16 else 0xFF)
  else if 0x200000 ≤ o ∧ o < 0x200040 then some (hbrSeg s ((o - 0x200000) / 4) % 32 + 0xFFFF * 2 ^ 16)
  else if 0x210000 ≤ o ∧ o < 0x210400 then some 0
  else if 0x300000 ≤ o ∧ o < 0x300100 then some (shkStatus s ((o - 0x300000) / 16) % 4)
  else if o = 0x410008 then some (prtStatus s .u % 512)
  else if o = 0x41000C then some (prtStatus s .d % 512)
  else if 0x420000 ≤ o ∧ o < 0x420070 then some 0
  else if o = 0x610000 then some 2048
  else none

/-- Until t7 a port reads status registers at their values after reset (R500). -/
def statusHidden (s : State) (i : Initiator) : Bool :=
  !isCore i && (s.power.phase == .rom || s.power.phase == .oscFailed || s.power.phase == .firmware)

/-- The value that an initiator reads from a word register, past its class and domain. -/
def visibleRead (s : State) (i : Initiator) (o : Nat) : Nat :=
  match (if statusHidden s i then statusReset s o else none) with
  | some v => v
  | none => wordRead s o

def setShadow (i : Initiator) (o : Nat) (v : BitVec 32) (s : State) : State :=
  { s with regs := { s.regs with shadows := tset s.regs.shadows (halfKey i o) v } }

/-- An access met a domain in RET or OFF (R459). -/
def domainOff (s : State) : State := { s with regs := { s.regs with domOff := true } }

/-- The value of a pair that an initiator reads (R450, R500). -/
def visiblePair (s : State) (i : Initiator) (o : Nat) : BitVec 64 :=
  if o = 0x20000 && statusHidden s i then 0 else pairValue s o

/-- A 32-bit read (R445, R447, R450, R459): the value is sent to the initiator. -/
def regRead (i : Initiator) (o : Nat) (s : State) : State :=
  match regGate s i o with
  | .absent => send (.regData i 0) s
  | .denied => send (.regData i 0) s
  | .asleep => send (.regData i 0) (domainOff s)
  | .reach _ =>
    if o = 0x608400 then popCpl i (initKey i) s
    else if isPairLo o then
      let v := visiblePair s i o
      send (.regData i (v.setWidth 32).toNat) (setShadow i o (BitVec.ofNat 32 (v.toNat / 2 ^ 32)) s)
    else if isPairHi o then send (.regData i (tget s.regs.shadows (halfKey i (o - 4)) 0).toNat) s
    else send (.regData i (BitVec.ofNat 64 (visibleRead s i o))) s

/-! ## What writes do -/

/-- A mask-write (R449): for each base bit of `mask` that bit 16 + i selects, bit i of the value. -/
def maskWrite (mask : BitVec 32) (base v : BitVec 32) : BitVec 32 :=
  let sel := (v >>> 16) &&& mask &&& 0xFFFF
  (base &&& ~~~sel) ||| (v &&& sel)

/-- A refused staged value (R452). -/
def rangeDrop (s : State) : State := { s with regs := { s.regs with rangeDrop := true } }

/-- A field of `n` bits from bit `lo` is staged where `ok`, and keeps its pending value otherwise (R452). -/
def stageField (ok : Bool) (lo n : Nat) (old v : BitVec 32) : BitVec 32 :=
  let m := BitVec.ofNat 32 ((2 ^ n - 1) * 2 ^ lo)
  if ok then (old &&& ~~~m) ||| (v &&& m) else old

/-- PWR_CAP (R3, R463): the cap inside the variant's range, and the reserved bits. -/
def capWrite (v : BitVec 32) (s : State) : State :=
  let ok := capOk s (v.toNat % 1024)
  let p := stageField true 10 22 (stageField ok 0 10 s.regs.capPending v) v
  let s := { s with regs := { s.regs with capPending := p } }
  if ok then s else rangeDrop s

/-- HBR_SPLIT (R170, R465): the three fields keep the rule together. -/
def splitWrite (v : BitVec 32) (s : State) : State :=
  let n := v.toNat
  let ok := bwSplitOk (bitsAt n 7 0) (bitsAt n 15 8) (bitsAt n 23 16)
  let p := stageField true 24 8 (stageField ok 0 24 s.regs.splitPending v) v
  let s := { s with regs := { s.regs with splitPending := p } }
  if ok then s else rangeDrop s

/-- SYS_CFG_CTRL (R456). -/
def holdWrite (v : BitVec 32) (s : State) : State :=
  let was := cfgHeld s
  let s := { s with regs := { s.regs with cfgCtrl := v } }
  if !v.getLsbD 0 then { s with regs := { s.regs with holdRaised := false } }
  else if was then s
  else { s with regs := { s.regs with holdSince := tideOf s, holdRaised := false } }

/-- SYS_CFG_CRC_REF (R454). -/
def crcRefWrite (v : BitVec 32) (s : State) : State := dirtyPass { s with regs := { s.regs with cfgCrcRef := v } }

/-- SYS_STATUS (R462): its four W1C bits. -/
def statusClear (v : BitVec 32) (s : State) : State :=
  { s with regs := { s.regs with
      xdomDrop := s.regs.xdomDrop && !v.getLsbD 3
      domOff := s.regs.domOff && !v.getLsbD 4
      holdLong := s.regs.holdLong && !v.getLsbD 6
      rangeDrop := s.regs.rangeDrop && !v.getLsbD 7 } }

/-- INT_CAUSE (R466): every bit is W1C. -/
def causeClear (v : BitVec 32) (s : State) : State :=
  { s with regs := { s.regs with intCause := s.regs.intCause &&& ~~~v } }

/-- TIDE_ALARM has been reached (R464): its cause, and a core complex in RET wakes (R471). -/
def alarmReached (s : State) : State :=
  let s := cause 1 { s with regs := { s.regs with alarmFired := true } }
  if domState s domCore == .ret then wantOn domCore s else s

/-- TIDE_ALARM (R464): a value that Tide has already reached sets the cause at once. -/
def alarmWrite (v : BitVec 64) (s : State) : State :=
  let s := { s with regs := { s.regs with alarm := v, alarmFired := false } }
  if v.toNat ≤ (tideOf s).toNat then alarmReached s else s

/-- PWR_DOM_REQ (R463): one request for the selected domain; TARGET 3 and a selection of nothing are ignored. -/
def domReqWrite (v : BitVec 32) (s : State) : State :=
  let n := s.regs.domSel.toNat % 4096
  if !domExists s n then s
  else match v.toNat % 4 with
    | 0 => (domainRequest n .off s).2
    | 1 => (domainRequest n .ret s).2
    | 2 => (domainRequest n .on s).2
    | _ => s

/-- AWL_CTRL (R274): the cores are interrupted while completion entries wait. -/
def awlCtrlWrite (v : BitVec 32) (s : State) : State :=
  let s := { s with awl := { s.awl with ctrl := v } }
  if v.getLsbD 0 && !s.awl.fifo.isEmpty then cause 0 s else s

/-- A channel register of Awl that is no half of a pair (R274). -/
def awlRegWrite (o : Nat) (v : BitVec 32) (s : State) : State :=
  let c := (o - 0x608000) / 0x40
  match (o - 0x608000) % 0x40 with
  | 0x00 => bankSelWrite c v s
  | 0x04 => modChan c (fun x => { x with row := v }) s
  | 0x08 => modChan c (fun x => { x with arg := v }) s
  | _ => s

/-- The whole value of the pair whose low half is at `o` (R451). Read-only pairs are unchanged. -/
def pairStore (o : Nat) (v : BitVec 64) (s : State) : State :=
  if o = 0x20010 then
    dirtyPass { s with regs := { s.regs with offsetPending := v }, time := { s.time with epochDue := true } }
  else if o = 0x20018 then alarmWrite v s
  else if o = 0x400000 then { s with regs := { s.regs with admSq := v } }
  else if o = 0x400008 then { s with regs := { s.regs with admCq := v } }
  else if o = 0x400010 then { s with regs := { s.regs with admLog := v } }
  else if o = 0x410000 then { s with regs := { s.regs with dwin := v } }
  else if o = 0x780010 then { s with regs := { s.regs with rcvAddr := v } }
  else if 0x608000 ≤ o ∧ o < 0x608200 then
    let c := (o - 0x608000) / 0x40
    if (o - 0x608000) % 0x40 = 0xC then modChan c (fun x => { x with dataAddr := v }) s
    else modChan c (fun x => { x with word := v }) s
  else s

/-- The pairs that can be written (R451). -/
def pairWritable (o : Nat) : Bool := isPairLo o && !(o = 0x20000 || o = 0x608400 || o = 0x780000)

/-- A write of a word register, past its class and domain (R448, R462 to R466). RO registers ignore it. SEC_RCV_CTRL.GO and
the bytes of Awl's windows have rows of their own. -/
def wordStore (i : Initiator) (o : Nat) (v : BitVec 32) (s : State) : State :=
  match o with
  | 0x4 => { s with regs := { s.regs with sysCtrl := v } }
  | 0x8 => { s with regs := { s.regs with sysCtrl := maskWrite 1 s.regs.sysCtrl v } }
  | 0xC => statusClear v s
  | 0x14 => crcRefWrite v s
  | 0x18 => holdWrite v s
  | 0x24 => dirtyPass { s with regs := { s.regs with modePending := v } }
  | 0x10000 => dirtyPass (capWrite v s)
  | 0x10004 => { s with regs := { s.regs with domSel := v } }
  | 0x10008 => domReqWrite v s
  | 0x200040 => dirtyPass (splitWrite v s)
  | 0x400018 => admCtrlWrite i v s
  | 0x608408 => awlCtrlWrite v s
  | 0x700000 => causeClear v s
  | 0x700004 => { s with regs := { s.regs with intMask := v } }
  | 0x700008 => { s with regs := { s.regs with intMask := maskWrite 0x1FF s.regs.intMask v } }
  | 0x780018 => { s with regs := { s.regs with rcvLen := v } }
  | _ =>
    if 0x600000 ≤ o ∧ o < 0x608000 then seqError ((o - 0x600000) / 4096) s
    else if 0x608000 ≤ o ∧ o < 0x608200 then awlRegWrite o v s
    else s

def setHalf (i : Initiator) (o : Nat) (v : BitVec 32) (s : State) : State :=
  { s with regs := { s.regs with stages := tset s.regs.stages (halfKey i o) v } }

/-- The stage and the written low half (R451). -/
def stagedPair (i : Initiator) (o : Nat) (v : BitVec 32) (s : State) : BitVec 64 :=
  (tget s.regs.stages (halfKey i o) 0) ++ v

/-- A write of the register at `o`, past its class and domain: a high half goes to the stage, a low half writes the pair. -/
def openStore (i : Initiator) (o : Nat) (v : BitVec 32) (s : State) : State :=
  if pairWritable o then setHalf i o 0 (pairStore o (stagedPair i o v s) s)
  else wordStore i o v s

/-- A 32-bit write (R445, R447, R451, R458, R459). -/
def regStore (i : Initiator) (o : Nat) (v : BitVec 32) (s : State) : State :=
  match regGate s i o with
  | .absent => s
  | .denied => privDrop s
  | .asleep => domainOff s
  | .reach d =>
    if 4 ≤ o && pairWritable (o - 4) then setHalf i (o - 4) v s
    else if d = domCore then openStore i o v s
    else crossing (openStore i o v) s

/-- A write that a row of its own kind carries: BAR0 is up, the initiator has it, and the offset is of the kind. -/
def kindWrite (ok : Nat → Bool) (i : Initiator) (offset : BitVec 24) (v : BitVec 32) (s : State) : Res :=
  if !barUp s || !ok offset.toNat then .next s
  else if !barSeen s i then .next (badAccess i s)
  else .next (regStore i offset.toNat v s)

/-- A word of a port's MSI-X table (R351, R445): the PBA is read-only. Its entries mean what the PCIe specification says. -/
def msixWrite (i : Initiator) (o : Nat) (v : BitVec 32) (s : State) : State :=
  let p := match i with | .portD => 1 | _ => 0
  if isCore i || 0x508000 ≤ o then s
  else { s with regs := { s.regs with msix := tset s.regs.msix (p * 65536 + (o - 0x500000)) v } }

/-- One 32-bit half of a REG_WRITE. -/
def plainStore (i : Initiator) (o : Nat) (v : BitVec 32) (s : State) : State :=
  if 0x500000 ≤ o ∧ o < 0x508100 then msixWrite i o v s else regStore i o v s

/-- An aligned 8-byte write (R445): of a pair, _HI and then _LO; of any other two registers, the lower address first. -/
def wideStore (i : Initiator) (o : Nat) (value : BitVec 64) (s : State) : State :=
  let lo := value.setWidth 32
  let hi := (value >>> 32).setWidth 32
  if isPairLo o then regStore i o lo (regStore i (o + 4) hi s)
  else plainStore i (o + 4) hi (plainStore i o lo s)

/-! ## The rows -/

/-- REG_WRITE (R445 to R448, R458, R459). A byte write of an Awl window and an access to the downstream window have rows of
their own. -/
def execRegWrite (i : Initiator) (offset : BitVec 24) (size : Nat) (value : BitVec 64) (s : State) : Res :=
  let o := offset.toNat
  if !barUp s || 0x800000 ≤ o then .next s
  else if !barSeen s i then .next (badAccess i s)
  else if 0x600000 ≤ o ∧ o < 0x608000 then
    (if size = 1 then .next s else .next (regStore i (o / 4 * 4) 0 s))
  else if size = 4 && o % 4 = 0 then .next (plainStore i o (value.setWidth 32) s)
  else if size = 8 && o % 8 = 0 then .next (wideStore i o value s)
  else .next (badAccess i s)

/-- MW_WRITE (R449). -/
def execMwWrite (i : Initiator) (offset : BitVec 24) (value : BitVec 32) (s : State) : Res :=
  kindWrite (fun o => o = 0x8 || o = 0x700008) i offset value s

/-- PAIR_LO_READ (R450): the low half with its latch. A read of any other register has no row of its own: here it answers
the register's value, and of state it changes DOM_OFF only (R445, R447, R459). -/
def execPairLoRead (i : Initiator) (offset : BitVec 24) (s : State) : Res :=
  let o := offset.toNat
  if !barUp s || 0x800000 ≤ o then .next s
  else if o % 4 ≠ 0 || !barSeen s i then .next (badAccess i s)
  else if 0x500000 ≤ o ∧ o < 0x508100 then
    let p := match i with | .portD => 1 | _ => 0
    let dflt : BitVec 32 := if o % 16 = 12 && o < 0x508000 then 1 else 0
    .next (send (.regData i (if isCore i then 0 else ((tget s.regs.msix (p * 65536 + (o - 0x500000)) dflt).setWidth 64))) s)
  else .next (regRead i o s)

/-- PAIR_HI_WRITE (R451). -/
def execPairHiWrite (i : Initiator) (offset : BitVec 24) (value : BitVec 32) (s : State) : Res :=
  kindWrite isPairHi i offset value s

/-- PAIR_LO_WRITE (R451). -/
def execPairLoWrite (i : Initiator) (offset : BitVec 24) (value : BitVec 32) (s : State) : Res :=
  kindWrite isPairLo i offset value s

/-- W1C_WRITE (R448, R462, R466): SYS_STATUS and INT_CAUSE. -/
def execW1cWrite (i : Initiator) (offset : BitVec 24) (value : BitVec 32) (s : State) : Res :=
  kindWrite (fun o => o = 0xC || o = 0x700000) i offset value s

/-- CONFIG_REG_WRITE (R452): the configuration registers of the map. -/
def execConfigRegWrite (i : Initiator) (offset : BitVec 24) (value : BitVec 32) (s : State) : Res :=
  kindWrite (fun o => [0x24, 0x10000, 0x20010, 0x20014, 0x200040].contains o) i offset value s

/-- CFG_CRC_REF_WRITE (R454). -/
def execCfgCrcRefWrite (i : Initiator) (value : BitVec 32) (s : State) : Res :=
  kindWrite (fun _ => true) i 0x14 value s

/-- CFG_HOLD_WRITE (R456). -/
def execCfgHoldWrite (i : Initiator) (value : BitVec 32) (s : State) : Res :=
  kindWrite (fun _ => true) i 0x18 value s

/-- HOLD_LONG_TIMER (R456): HOLD has been 1 for more than 10 ms. -/
def execHoldLongTimer (s : State) : Res :=
  if !cfgHeld s || s.regs.holdRaised || (tideOf s - s.regs.holdSince).toNat ≤ 10000000 then .next s
  else
    let s := { s with regs := { s.regs with holdLong := true, holdRaised := true } }
    .next (raise .holdLong 0 0 s)

/-- CHECK_PASS_END (R454 to R456): a pass that met a write is discarded. -/
def execCheckPassEnd (s : State) : Res :=
  if !domIsOn s domCore then .next s
  else if s.regs.passDirty then .next { s with regs := { s.regs with passDirty := false } }
  else
    let c := passCrc s
    let hit := decide (c = s.regs.cfgCrcRef)
    let s := { s with regs := { s.regs with cfgCrc := c, cfgMatch := hit } }
    if hit || cfgHeld s then .next s else .next (cause 2 (raise .cfgMismatch 0 0 s))

/-- CONFIG_ACTIVATE (R453, R455, R456). -/
def execConfigActivate (s : State) : Res :=
  if cfgHeld s || !s.regs.cfgMatch then .next s else .next (activateNow s)

/-- XDOM_CROSSING_DONE (R458). -/
def execXdomCrossingDone (s : State) : Res := .next { s with regs := { s.regs with xdomBusy := false } }

/-- TIDE_ALARM_WRITE (R451, R464): the write of TIDE_ALARM_LO, which takes the stage for its high half. -/
def execTideAlarmWrite (i : Initiator) (lo : BitVec 32) (s : State) : Res :=
  kindWrite (fun _ => true) i 0x20018 lo s

/-- TIDE_ALARM_FIRE (R464, R471). -/
def execTideAlarmFire (s : State) : Res :=
  if s.regs.alarmFired || (tideOf s).toNat < s.regs.alarm.toNat then .next s else .next (alarmReached s)

/-- TIDE_EPOCH_OPEN (R400, R453, R464): on a module in no group. -/
def execTideEpochOpen (s : State) : Res :=
  if !uzomelRuns s || membersOf s ≠ [] || !s.time.epochDue then .next s
  else
    let s := if s.regs.offsetPending = s.regs.offsetActive then s else bump (ob 0x2011 1) s
    .next (rearmAlarm { s with
      regs := { s.regs with offsetActive := s.regs.offsetPending }
      time := { s.time with epoch := s.time.epoch + 1, epochDue := false } })

end Sys2Proof.Machine
end

