-- ==== Sys2Proof/Machine/Dispatch.lean ====
section
/-! DEFINITION. One arm per command: the call of its meaning. -/

namespace Sys2Proof.Machine

def exec (i : Instr) (s : State) : Host.Outcome State Fault Refusal :=
  match i with
  | .auxPowerUp => Sys2Proof.Machine.execAuxPowerUp s
  | .mainPowerUp => Sys2Proof.Machine.execMainPowerUp s
  | .moduleResetEnd straps => Sys2Proof.Machine.execModuleResetEnd straps s
  | .moduleReset cause => Sys2Proof.Machine.execModuleReset cause s
  | .bootOscTimeout => Sys2Proof.Machine.execBootOscTimeout s
  | .bootRomRun unwrapOk => Sys2Proof.Machine.execBootRomRun unwrapOk s
  | .uzomelReady lost => Sys2Proof.Machine.execUzomelReady lost s
  | .recoveryTimeout => Sys2Proof.Machine.execRecoveryTimeout s
  | .secRcvGo ini value image => Sys2Proof.Machine.execSecRcvGo ini value image s
  | .recoveryImageDone writeOk => Sys2Proof.Machine.execRecoveryImageDone writeOk s
  | .requestUpdate => Sys2Proof.Machine.execRequestUpdate s
  | .passComponentTable component => Sys2Proof.Machine.execPassComponentTable component s
  | .updateComponent component size => Sys2Proof.Machine.execUpdateComponent component size s
  | .requestFirmwareData offset data => Sys2Proof.Machine.execRequestFirmwareData offset data s
  | .transferComplete ok => Sys2Proof.Machine.execTransferComplete ok s
  | .verifyComplete => Sys2Proof.Machine.execVerifyComplete s
  | .applyComplete writeOk => Sys2Proof.Machine.execApplyComplete writeOk s
  | .activateFirmware => Sys2Proof.Machine.execActivateFirmware s
  | .cancelUpdate => Sys2Proof.Machine.execCancelUpdate s
  | .getVersion conn msg => Sys2Proof.Machine.execGetVersion conn msg s
  | .getCapabilities conn msg => Sys2Proof.Machine.execGetCapabilities conn msg s
  | .negotiateAlgorithms conn msg offersRsaPss3072 offersSha384 => Sys2Proof.Machine.execNegotiateAlgorithms conn msg offersRsaPss3072 offersSha384 s
  | .getDigests conn msg => Sys2Proof.Machine.execGetDigests conn msg s
  | .getCertificate conn msg slot offset length => Sys2Proof.Machine.execGetCertificate conn msg slot offset length s
  | .challenge conn msg slot => Sys2Proof.Machine.execChallenge conn msg slot s
  | .getMeasurements conn msg slot index signed => Sys2Proof.Machine.execGetMeasurements conn msg slot index signed s
  | .chunkSend conn chunk last => Sys2Proof.Machine.execChunkSend conn chunk last s
  | .chunkGet conn size => Sys2Proof.Machine.execChunkGet conn size s
  | .pqSign conn msg => Sys2Proof.Machine.execPqSign conn msg s
  | .secFwStage r image => Sys2Proof.Machine.execSecFwStage r image s
  | .secFwCommit r data => Sys2Proof.Machine.execSecFwCommit r data s
  | .fwSlotWriteDone ok => Sys2Proof.Machine.execFwSlotWriteDone ok s
  | .secModuleReset r data => Sys2Proof.Machine.execSecModuleReset r data s
  | .secPolicyWrite r data => Sys2Proof.Machine.execSecPolicyWrite r data s
  | .pubkeyWrite r slot data => Sys2Proof.Machine.execPubkeyWrite r slot data s
  | .submissionRead pair entry => Sys2Proof.Machine.execSubmissionRead pair entry s
  | .duplicateReplay pair key log => Sys2Proof.Machine.execDuplicateReplay pair key log s
  | .sqTailDoorbell port pair value => Sys2Proof.Machine.execSqTailDoorbell port pair value s
  | .cqHeadDoorbell port pair value => Sys2Proof.Machine.execCqHeadDoorbell port pair value s
  | .interruptTimer pair => Sys2Proof.Machine.execInterruptTimer pair s
  | .infer a list => Sys2Proof.Machine.execInfer a list s
  | .inferComplete a => Sys2Proof.Machine.execInferComplete a s
  | .ctxOpen a => Sys2Proof.Machine.execCtxOpen a s
  | .ctxClose a => Sys2Proof.Machine.execCtxClose a s
  | .ctxCloseRelease a => Sys2Proof.Machine.execCtxCloseRelease a s
  | .ctxSave a => Sys2Proof.Machine.execCtxSave a s
  | .ctxSaveWrite a => Sys2Proof.Machine.execCtxSaveWrite a s
  | .ctxRestore a saved => Sys2Proof.Machine.execCtxRestore a saved s
  | .cancel a => Sys2Proof.Machine.execCancel a s
  | .fence a => Sys2Proof.Machine.execFence a s
  | .fenceRelease a => Sys2Proof.Machine.execFenceRelease a s
  | .loadManifest a manifest => Sys2Proof.Machine.execLoadManifest a manifest s
  | .loadShard a hash => Sys2Proof.Machine.execLoadShard a hash s
  | .verifyPassDone a shard => Sys2Proof.Machine.execVerifyPassDone a shard s
  | .programPassDone a shard => Sys2Proof.Machine.execProgramPassDone a shard s
  | .commitImage a hash => Sys2Proof.Machine.execCommitImage a hash s
  | .dropImage a hash => Sys2Proof.Machine.execDropImage a hash s
  | .refetchReminder => Sys2Proof.Machine.execRefetchReminder s
  | .swapStage a file table choice => Sys2Proof.Machine.execSwapStage a file table choice s
  | .swapSwitch a => Sys2Proof.Machine.execSwapSwitch a s
  | .swapAbort a => Sys2Proof.Machine.execSwapAbort a s
  | .groupSwitchTide slot => Sys2Proof.Machine.execGroupSwitchTide slot s
  | .generationRetire slot => Sys2Proof.Machine.execGenerationRetire slot s
  | .layerRewriteDone slot layer shards => Sys2Proof.Machine.execLayerRewriteDone slot layer shards s
  | .place a file choice => Sys2Proof.Machine.execPlace a file choice s
  | .attach a groups => Sys2Proof.Machine.execAttach a groups s
  | .bindQueue a => Sys2Proof.Machine.execBindQueue a s
  | .bindSegment a => Sys2Proof.Machine.execBindSegment a s
  | .detach a => Sys2Proof.Machine.execDetach a s
  | .release a => Sys2Proof.Machine.execRelease a s
  | .unbindSegment a => Sys2Proof.Machine.execUnbindSegment a s
  | .bindDrainEnd a => Sys2Proof.Machine.execBindDrainEnd a s
  | .lastSlotFreed slot => Sys2Proof.Machine.execLastSlotFreed slot s
  | .segmentHandover seg => Sys2Proof.Machine.execSegmentHandover seg s
  | .sharedSegmentTake seg => Sys2Proof.Machine.execSharedSegmentTake seg s
  | .sharedSegmentReturn seg => Sys2Proof.Machine.execSharedSegmentReturn seg s
  | .rePlacement slot slice target => Sys2Proof.Machine.execRePlacement slot slice target s
  | .dictRead a hash => Sys2Proof.Machine.execDictRead a hash s
  | .dictWrite a value => Sys2Proof.Machine.execDictWrite a value s
  | .queuePairEnable w => Sys2Proof.Machine.execQueuePairEnable w s
  | .queuePairDisable w => Sys2Proof.Machine.execQueuePairDisable w s
  | .queuePairDisabled pair => Sys2Proof.Machine.execQueuePairDisabled pair s
  | .cfgCommit r data => Sys2Proof.Machine.execCfgCommit r data s
  | .monClear r data => Sys2Proof.Machine.execMonClear r data s
  | .mctpDictRead ep tag flags index sub argument offset length hash => Sys2Proof.Machine.execMctpDictRead ep tag flags index sub argument offset length hash s
  | .mctpDictWrite ep tag flags index sub argument offset data => Sys2Proof.Machine.execMctpDictWrite ep tag flags index sub argument offset data s
  | .mctpSnapshotExpiry ep => Sys2Proof.Machine.execMctpSnapshotExpiry ep s
  | .mctpWriteTimeout ep => Sys2Proof.Machine.execMctpWriteTimeout ep s
  | .regWrite ini offset size value => Sys2Proof.Machine.execRegWrite ini offset size value s
  | .mwWrite ini offset value => Sys2Proof.Machine.execMwWrite ini offset value s
  | .pairLoRead ini offset => Sys2Proof.Machine.execPairLoRead ini offset s
  | .pairHiWrite ini offset value => Sys2Proof.Machine.execPairHiWrite ini offset value s
  | .pairLoWrite ini offset value => Sys2Proof.Machine.execPairLoWrite ini offset value s
  | .w1cWrite ini offset value => Sys2Proof.Machine.execW1cWrite ini offset value s
  | .configRegWrite ini offset value => Sys2Proof.Machine.execConfigRegWrite ini offset value s
  | .cfgCrcRefWrite ini value => Sys2Proof.Machine.execCfgCrcRefWrite ini value s
  | .cfgHoldWrite ini value => Sys2Proof.Machine.execCfgHoldWrite ini value s
  | .holdLongTimer => Sys2Proof.Machine.execHoldLongTimer s
  | .checkPassEnd => Sys2Proof.Machine.execCheckPassEnd s
  | .configActivate => Sys2Proof.Machine.execConfigActivate s
  | .xdomCrossingDone => Sys2Proof.Machine.execXdomCrossingDone s
  | .tideAlarmWrite ini lo => Sys2Proof.Machine.execTideAlarmWrite ini lo s
  | .tideAlarmFire => Sys2Proof.Machine.execTideAlarmFire s
  | .tideEpochOpen => Sys2Proof.Machine.execTideEpochOpen s
  | .awlCplPop ini => Sys2Proof.Machine.execAwlCplPop ini s
  | .awlBankSelWrite ini ch value => Sys2Proof.Machine.execAwlBankSelWrite ini ch value s
  | .awlUnlockStep ini ch offset byte => Sys2Proof.Machine.execAwlUnlockStep ini ch offset byte s
  | .awlWideWrite ini ch offset => Sys2Proof.Machine.execAwlWideWrite ini ch offset s
  | .awlStrayByte ini ch offset byte => Sys2Proof.Machine.execAwlStrayByte ini ch offset byte s
  | .programRow ini ch => Sys2Proof.Machine.execProgramRow ini ch s
  | .programWord ini ch => Sys2Proof.Machine.execProgramWord ini ch s
  | .eraseBank ini ch => Sys2Proof.Machine.execEraseBank ini ch s
  | .topUpRow ini ch => Sys2Proof.Machine.execTopUpRow ini ch s
  | .readRow ini ch => Sys2Proof.Machine.execReadRow ini ch s
  | .readMargin ini ch => Sys2Proof.Machine.execReadMargin ini ch s
  | .setComputeMode ini ch => Sys2Proof.Machine.execSetComputeMode ini ch s
  | .setStorageMode ini ch => Sys2Proof.Machine.execSetStorageMode ini ch s
  | .sealBank ini ch => Sys2Proof.Machine.execSealBank ini ch s
  | .markBank ini ch => Sys2Proof.Machine.execMarkBank ini ch s
  | .readStatus ini ch => Sys2Proof.Machine.execReadStatus ini ch s
  | .resetToRead ini ch => Sys2Proof.Machine.execResetToRead ini ch s
  | .suspend ini ch => Sys2Proof.Machine.execSuspend ini ch s
  | .resume ini ch => Sys2Proof.Machine.execResume ini ch s
  | .awlOpStart bank => Sys2Proof.Machine.execAwlOpStart bank s
  | .awlOpComplete bank r => Sys2Proof.Machine.execAwlOpComplete bank r s
  | .eraseStarvation bank => Sys2Proof.Machine.execEraseStarvation bank s
  | .launchAdmit => Sys2Proof.Machine.execLaunchAdmit s
  | .ferryDescriptorIssue desc => Sys2Proof.Machine.execFerryDescriptorIssue desc s
  | .ferrySlotStart f => Sys2Proof.Machine.execFerrySlotStart f s
  | .slabFillStart f stream => Sys2Proof.Machine.execSlabFillStart f stream s
  | .slabPush f stream source => Sys2Proof.Machine.execSlabPush f stream source s
  | .requestDeadlinePass a => Sys2Proof.Machine.execRequestDeadlinePass a s
  | .laceEntryReceive lace consumer => Sys2Proof.Machine.execLaceEntryReceive lace consumer s
  | .handleRelease handle consumer => Sys2Proof.Machine.execHandleRelease handle consumer s
  | .slabCleared handle => Sys2Proof.Machine.execSlabCleared handle s
  | .cancelledSlabRecall f stream => Sys2Proof.Machine.execCancelledSlabRecall f stream s
  | .rowGroupStart island array => Sys2Proof.Machine.execRowGroupStart island array s
  | .pulseCycleEnd island array d => Sys2Proof.Machine.execPulseCycleEnd island array d s
  | .weltAccept island array upsets => Sys2Proof.Machine.execWeltAccept island array upsets s
  | .longSumReceive island packet => Sys2Proof.Machine.execLongSumReceive island packet s
  | .recomputeReceive cluster => Sys2Proof.Machine.execRecomputeReceive cluster s
  | .shankTileBoundary cluster upsets => Sys2Proof.Machine.execShankTileBoundary cluster upsets s
  | .streamReadRow cluster recompute reads => Sys2Proof.Machine.execStreamReadRow cluster recompute reads s
  | .coverStart c => Sys2Proof.Machine.execCoverStart c s
  | .harbourRead port h flits upsets => Sys2Proof.Machine.execHarbourRead port h flits upsets s
  | .harbourWrite port h data poison => Sys2Proof.Machine.execHarbourWrite port h data poison s
  | .harbourPartialWrite port h data poison => Sys2Proof.Machine.execHarbourPartialWrite port h data poison s
  | .regionClearDone base => Sys2Proof.Machine.execRegionClearDone base s
  | .patrolScrub upsets => Sys2Proof.Machine.execPatrolScrub upsets s
  | .bar4Access ini x len write => Sys2Proof.Machine.execBar4Access ini x len write s
  | .soundHop port packet resends => Sys2Proof.Machine.execSoundHop port packet resends s
  | .handshakeWatchdog u => Sys2Proof.Machine.execHandshakeWatchdog u s
  | .ceBucketDrain kind => Sys2Proof.Machine.execCeBucketDrain kind s
  | .driftAgeTick => Sys2Proof.Machine.execDriftAgeTick s
  | .topupRunStart bank => Sys2Proof.Machine.execTopupRunStart bank s
  | .topupResume bank => Sys2Proof.Machine.execTopupResume bank s
  | .fullKnownSumTest bank r => Sys2Proof.Machine.execFullKnownSumTest bank r s
  | .marginSample bank steps => Sys2Proof.Machine.execMarginSample bank steps s
  | .ksPeriodTimer bank => Sys2Proof.Machine.execKsPeriodTimer bank s
  | .idleWindowOpen slot spillGroup => Sys2Proof.Machine.execIdleWindowOpen slot spillGroup s
  | .forceAfterTimer bank => Sys2Proof.Machine.execForceAfterTimer bank s
  | .columnRetestTimer bank r => Sys2Proof.Machine.execColumnRetestTimer bank r s
  | .rebuildCycle bank target => Sys2Proof.Machine.execRebuildCycle bank target s
  | .rerunBucketRoll => Sys2Proof.Machine.execRerunBucketRoll s
  | .poweredTimeStore => Sys2Proof.Machine.execPoweredTimeStore s
  | .domainRequestOn src dom => Sys2Proof.Machine.execDomainRequestOn src dom s
  | .domainRequestRet src dom => Sys2Proof.Machine.execDomainRequestRet src dom s
  | .domainRequestOff src dom => Sys2Proof.Machine.execDomainRequestOff src dom s
  | .domainIdleRetTimer dom => Sys2Proof.Machine.execDomainIdleRetTimer dom s
  | .domainIdleOffTimer dom => Sys2Proof.Machine.execDomainIdleOffTimer dom s
  | .domainDrainEnd dom => Sys2Proof.Machine.execDomainDrainEnd dom s
  | .wakeStepTimeout dom => Sys2Proof.Machine.execWakeStepTimeout dom s
  | .domainWakeDone dom tests => Sys2Proof.Machine.execDomainWakeDone dom tests s
  | .domainDownDone dom => Sys2Proof.Machine.execDomainDownDone dom s
  | .powerSample milliwatts => Sys2Proof.Machine.execPowerSample milliwatts s
  | .governorPeriodEnd => Sys2Proof.Machine.execGovernorPeriodEnd s
  | .tjSample key quarterDegrees => Sys2Proof.Machine.execTjSample key quarterDegrees s
  | .vcoreSample millivolts => Sys2Proof.Machine.execVcoreSample millivolts s
  | .occupancySample => Sys2Proof.Machine.execOccupancySample s
  | .vcoreWarningTrip => Sys2Proof.Machine.execVcoreWarningTrip s
  | .vcoreRecover => Sys2Proof.Machine.execVcoreRecover s
  | .dipHoldEnd checks => Sys2Proof.Machine.execDipHoldEnd checks s
  | .dipResume => Sys2Proof.Machine.execDipResume s
  | .tideSourceChange present => Sys2Proof.Machine.execTideSourceChange present s
  | .functionLevelReset port => Sys2Proof.Machine.execFunctionLevelReset port s
  | .perstNAssert port => Sys2Proof.Machine.execPerstNAssert port s
  | .perstNRelease port => Sys2Proof.Machine.execPerstNRelease port s
  | .pcieLinkDown port => Sys2Proof.Machine.execPcieLinkDown port s
  | .d3hotEntry port => Sys2Proof.Machine.execD3hotEntry port s
  | .d0Return port => Sys2Proof.Machine.execD0Return port s
  | .rootPortEnumerate r => Sys2Proof.Machine.execRootPortEnumerate r s
  | .engineInterruptWrite offset => Sys2Proof.Machine.execEngineInterruptWrite offset s
  | .engineHarbourAccess addr len write => Sys2Proof.Machine.execEngineHarbourAccess addr len write s
  | .downstreamWindowAccess ini offset write engine => Sys2Proof.Machine.execDownstreamWindowAccess ini offset write engine s
  | .linkTraining link lanes halves peerA peerB => Sys2Proof.Machine.execLinkTraining link lanes halves peerA peerB s
  | .linkTrained peer => Sys2Proof.Machine.execLinkTrained peer s
  | .manifestReceive manifest => Sys2Proof.Machine.execManifestReceive manifest s
  | .flitReceive half flit badLanes corrected => Sys2Proof.Machine.execFlitReceive half flit badLanes corrected s
  | .laneCeInterval half lane => Sys2Proof.Machine.execLaneCeInterval half lane s
  | .linkRetrainDone half => Sys2Proof.Machine.execLinkRetrainDone half s
  | .nakReceive half ack => Sys2Proof.Machine.execNakReceive half ack s
  | .linkLost half accepted => Sys2Proof.Machine.execLinkLost half accepted s
  | .syncTimer member results => Sys2Proof.Machine.execSyncTimer member results s
  | .syncMessage half t1 t4 => Sys2Proof.Machine.execSyncMessage half t1 t4 s
  | .slewTick => Sys2Proof.Machine.execSlewTick s
  | .groupCommit => Sys2Proof.Machine.execGroupCommit s
  | .requestReport member slot key ctx => Sys2Proof.Machine.execRequestReport member slot key ctx s
  | .launchMessage keys gen tl => Sys2Proof.Machine.execLaunchMessage keys gen tl s
  | .groupLaunchAtTide launch => Sys2Proof.Machine.execGroupLaunchAtTide launch s
  | .barrierDeadline launch => Sys2Proof.Machine.execBarrierDeadline launch s
  | .reportTimeout key => Sys2Proof.Machine.execReportTimeout key s
  | .abortMessage keys => Sys2Proof.Machine.execAbortMessage keys s
  | .mcastGrant slot group member h => Sys2Proof.Machine.execMcastGrant slot group member h s
  | .mcastPush half lace entry => Sys2Proof.Machine.execMcastPush half lace entry s
  | .mcastCredit slot group member handle => Sys2Proof.Machine.execMcastCredit slot group member handle s
  | .shedStallTimeout slot group member => Sys2Proof.Machine.execShedStallTimeout slot group member s
  | .coreWatchdogExpiry core why => Sys2Proof.Machine.execCoreWatchdogExpiry core why s
  | .hostAccessError a e detail => Sys2Proof.Machine.execHostAccessError a e detail s
  | .pcieLinkUp port speed width flit => Sys2Proof.Machine.execPcieLinkUp port speed width flit s
  | .suspendTakesEffect bank => Sys2Proof.Machine.execSuspendTakesEffect bank s

end Sys2Proof.Machine
end

