-- ==== Sys2Proof/Safety.lean ====
section
/-! DEFINITION. What claims are stated in: the completion of a command and the answer to a write, the parts of the state and what a command leaves
unchanged of them, the recovery paths and firmware keys that stay open, and the canonical form of the Harbour's memory list. -/

namespace Sys2Proof

open Sys2Proof.Machine

/-- The parts of the state, for frames. Messages held for a port are apart from the other queues, INT_CAUSE from the other
registers, power domains and the governor's queue from the rest of power, segments from the rest of the Harbour, and counters, events and monitors
from the rest of the dictionary. -/
inductive Part where
  | power | doms | gov | time | regs | cause | values | counters | events | monitors | sec | portU | portD
  | que | held | model | flow | hbr | segs | banks | islands | clusters | awl | scheds | integ | strait | out | free
  deriving DecidableEq, Repr

/-- A part is the same in two states. -/
def Part.same (p : Part) (s t : State) : Prop :=
  match p with
  | .power =>
    { t.power with
      doms := s.power.doms, waiting := s.power.waiting, nextOrder := s.power.nextOrder
      shankCharged := s.power.shankCharged } = s.power
  | .doms => t.power.doms = s.power.doms
  | .gov =>
    t.power.waiting = s.power.waiting ∧ t.power.nextOrder = s.power.nextOrder ∧
      t.power.shankCharged = s.power.shankCharged
  | .time => t.time = s.time
  | .regs => { t.regs with intCause := s.regs.intCause } = s.regs
  | .cause => t.regs.intCause = s.regs.intCause
  | .values =>
    { t.dict with
      counters := s.dict.counters, events := s.dict.events, nextSeq := s.dict.nextSeq, faultLog := s.dict.faultLog
      monitors := s.dict.monitors, monClears := s.dict.monClears, monLast := s.dict.monLast } = s.dict
  | .counters => t.dict.counters = s.dict.counters
  | .events => t.dict.events = s.dict.events ∧ t.dict.nextSeq = s.dict.nextSeq ∧ t.dict.faultLog = s.dict.faultLog
  | .monitors =>
    t.dict.monitors = s.dict.monitors ∧ t.dict.monClears = s.dict.monClears ∧ t.dict.monLast = s.dict.monLast
  | .sec => t.sec = s.sec
  | .portU => t.portU = s.portU
  | .portD => t.portD = s.portD
  | .que => { t.que with held := s.que.held } = s.que
  | .held => t.que.held = s.que.held
  | .model => t.model = s.model
  | .flow => t.flow = s.flow
  | .hbr => { t.hbr with segs := s.hbr.segs } = s.hbr
  | .segs => t.hbr.segs = s.hbr.segs
  | .banks => t.banks = s.banks
  | .islands => t.islands = s.islands
  | .clusters => t.clusters = s.clusters
  | .awl => t.awl = s.awl
  | .scheds => t.scheds = s.scheds
  | .integ => t.integ = s.integ
  | .strait => t.strait = s.strait
  | .out => t.out = s.out
  | .free => t.free = s.free

/-- What no command changes: the queue of waiting commands, and which part the module is. -/
def SamePart (s t : State) : Prop :=
  t.pending = s.pending ∧ t.part816 = s.part816 ∧ t.liquid = s.liquid ∧ t.preloaded = s.preloaded

/-- Every part outside the list is unchanged. -/
def Only (ps : List Part) (s t : State) : Prop := SamePart s t ∧ ∀ p, p ∉ ps → p.same s t

/-- Every part in the list is unchanged. -/
def Keeps (ps : List Part) (s t : State) : Prop := SamePart s t ∧ ∀ p, p ∈ ps → p.same s t

/-- The command answers a next state, of which `post` holds. -/
def Completes (c : Instr) (s : State) (post : State → Prop) : Prop := ∃ t, exec c s = .next t ∧ post t

/-- The command in admission slot `a` ends in a completion with this status, on a state of which `post` holds. -/
def Finishes (c : Instr) (s : State) (a status : Nat) (post : State → Prop) : Prop :=
  ∃ (r : Reply) (u : State), exec c s = .next (finish a r u) ∧ r.status = status ∧ post u

/-- The command's requester is answered with this status (R430), on a state of which `post` holds. -/
def Answers (c : Instr) (s : State) (r : Requester) (status : Nat) (post : State → Prop) : Prop :=
  ∃ (rep : Reply) (u : State), exec c s = .next (answer r rep u) ∧ rep.status = status ∧ post u

/-- A write of object `obj` with key `arg` is served now: by an admitted DICT_WRITE that names it, in a ready module, or by a
management-bus message, while Uzomel runs and the core complex does not sleep. -/
def heard (s : State) (r : Requester) (obj arg : Nat) : Bool :=
  match r with
  | .queue a =>
    match cmdAt s a.val 0x21 with
    | some c => isReady s && decide (entObject c.entry = obj) && decide (fld c.entry 0x18 8 = arg)
    | none => false
  | .mctp _ _ => !coreSleeps s && uzomelRuns s

/-- The value that a write carries: an admitted DICT_WRITE gives its length. -/
def valueFrom (s : State) (r : Requester) (data : Bytes) : Bytes :=
  match r with
  | .queue a =>
    match cmdAt s a.val 0x21 with
    | some c => fit data (fld c.entry 0x28 4)
    | none => data
  | .mctp _ _ => data

/-- From `s` to `t`, an event of this name about this unit has been raised: it is the newest of the log (R438), or, where it repeats one of the last
millisecond, it is counted as suppressed (R439). -/
def Raised (name : EventName) (kind unit : Nat) (s t : State) : Prop :=
  (∃ e : Event, e.name = name ∧ e.unitKind = kind ∧ e.unit = unit ∧ e.seq = s.dict.nextSeq ∧
    t.dict.events = (e :: s.dict.events).take 4096 ∧ t.dict.nextSeq = s.dict.nextSeq + 1) ∨
  (t.dict.events = s.dict.events ∧ t.dict.nextSeq = s.dict.nextSeq ∧
    counterOf t (ob 0x9041 4) = counterOf s (ob 0x9041 4) + 1 ∧
    ∃ o ∈ s.dict.events, o.name = name ∧ o.unitKind = kind ∧ o.unit = unit)

/-- Of Awl's own state, only channel `c` has changed, by `f` (R264, R274). -/
def ChanStep (c : Nat) (f : Channel → Channel) (s t : State) : Prop :=
  chanOf t c = f (chanOf s c) ∧ (∀ k, k ≠ c → chanOf t k = chanOf s k) ∧ { t.awl with chans := s.awl.chans } = s.awl

/-- Of the banks' records, only bank `n` has changed, by `f`. -/
def BankStep (n : Nat) (f : Bank → Bank) (s t : State) : Prop :=
  bankOf t n = f (bankOf s n) ∧ ∀ k, k ≠ n → tget? t.banks k = tget? s.banks k

/-- At least one firmware key and one recovery path are open, and no reserved bit of `sec.policy` has been cleared (R510). -/
def PolicyOpen (s : State) : Prop :=
  (s.sec.policy.getLsbD 3 || s.sec.policy.getLsbD 4) = true ∧
    (s.sec.policy.getLsbD 5 || s.sec.policy.getLsbD 6) = true ∧
    ∀ n, 7 ≤ n → n < 64 → s.sec.policy.getLsbD n = true

/-- No bit of `sec.policy` that is 0 in `s` is 1 in `t` (R427, R510): the policy is only ever cleared. -/
def PolicyShrinks (s t : State) : Prop := ∀ n, t.sec.policy.getLsbD n = true → s.sec.policy.getLsbD n = true

/-- The Harbour's list of bytes is in its canonical form. -/
def HarbourCanonical (s : State) : Prop := Memory.wf s.hbr.data = true

end Sys2Proof
end

