-- ==== Sys2Proof/Certificates/Slice0/Obligations.lean ====
section
/-! DEFINITION. The statements for the provers. A statement's docstring says what it states and which rules it rests on. -/

open Sys2Proof Sys2Proof.Machine

/-- O1 (tier 1). When the queue of waiting commands is c followed by rest, a step is exec of c on the state whose queue is
rest. On an empty queue a step is one tick of Tide (a choice of the model: notes/assumptions/1.md). Rests on R410. -/
def Obligations.StepRunsFrontCommand : Prop :=
  (∀ (c : Instr) (rest : List Instr) (s : State), s.pending = c :: rest → step s = exec c { s with pending := rest }) ∧
  (∀ s : State, s.pending = [] → step s = .next (tick s))

/-- O2 (tier 1). At reset no command waits, Tide and its epoch are 0, sec.policy is all ones, the throttle offset is 0,
every queue pair is DISABLED, no event is logged and the first sequence number is 1, SYS_CFG_CTRL.HOLD is 1, INT_CAUSE
and INT_MASK are 0, TIDE_ALARM is all ones, SEC_RCV_STATUS.STATE is 0, and of the islands, segments and clusters only
Harbour segments 0 and 1 are ON, every other one OFF. Rests on R353, R427, R439, R462, R464, R466, R467, R486, R488,
R509, R510, R527. -/
def Obligations.ResetValuesOfTheSpec : Prop :=
  let s := State.reset
  s.pending = [] ∧ tideOf s = 0 ∧ s.time.epoch = 0 ∧ s.sec.policy = 0xFFFFFFFFFFFFFFFF ∧ s.power.theta = 0 ∧
  (∀ q, (pairOf s q).state = .disabled) ∧ s.dict.events = [] ∧ s.dict.nextSeq = 1 ∧ bitAt s.regs.cfgCtrl.toNat 0 = true ∧
  s.regs.intCause = 0 ∧ s.regs.intMask = 0 ∧ s.regs.alarm = 0xFFFFFFFFFFFFFFFF ∧ s.regs.rcvState = 0 ∧
  (∀ n, n < 2080 → domState s n = if n < 2048 ∨ 2049 < n then .off else .on)

/-- O3 (tier 1). At reset a firmware key and a recovery path are open, no reserved bit of sec.policy is clear, and the
Harbour's list of bytes is in its canonical form. Rests on R427, R510. -/
def Obligations.InvariantsAtReset : Prop := PolicyOpen State.reset ∧ HarbourCanonical State.reset

/-- O4 (tier 3). In every state in which a firmware key and a recovery path are open and no reserved bit of sec.policy is
clear, a step that answers a next state keeps all of this, whatever the command. Rests on R510. -/
def Obligations.RecoveryAlwaysStaysOpen : Prop :=
  ∀ s t : State, PolicyOpen s → step s = .next t → PolicyOpen t

/-- O5 (tier 3). Whatever the state and the command, a step that answers a next state sets no bit of sec.policy that was
0. Rests on R427, R510. -/
def Obligations.PolicyOnlyCleared : Prop :=
  ∀ s t : State, step s = .next t → PolicyShrinks s t

/-- O6 (tier 3). In every state whose Harbour list has rising addresses and lists no byte equal to what an unlisted
address reads as, a step that answers a next state keeps that form, whatever the command. The form is the model's own
(notes/assumptions/3.md). Rests on R157, R162. -/
def Obligations.HarbourListStaysCanonical : Prop :=
  ∀ s t : State, HarbourCanonical s → step s = .next t → HarbourCanonical t

/-- O7 (tier 2). A command that answers a next state leaves the queue of waiting commands as it is, and leaves which part
the module is (CX-816 or CX-808, air or liquid cooled, preloaded). A part as the factory delivers it with suffix -P
says so in its ordering code, has its key pair TRUSTED in publisher slot 0, its image COMMITTED with every shard, and
the image's Last resident in slot 0 and bound nowhere; which slots those are is the model's choice
(notes/assumptions/32.md). Rests on R1, R2, R4, R410, R513. -/
def Obligations.CommandsLeaveQueueAndPart : Prop :=
  (∀ (c : Instr) (s t : State), exec c s = .next t → SamePart s t) ∧
  (∀ (key : PubKey) (img : ImageRec) (sl : Slot) (banks : List (Nat × Bank)) (s : State), let t := preload key img sl banks s
    t.preloaded = true ∧ ([0x2D, 0x50] : Bytes) <:+ orderingCode t ∧
    (∃ k, tget? t.sec.keys 0 = some k ∧ k.trusted = true ∧ k.keyId = key.keyId) ∧
    (∃ i, tget? t.model.images 0 = some i ∧ i.state = .committed ∧ i.hash = img.hash ∧ i.present = List.range img.shards.length ∧
      i.refetch = [] ∧ i.keySlot = 0 ∧ slotOf t 0 = { sl with
        keySlot := 0, state := .resident, imageHash := i.hash, gen := 1, oldGen := none, detaching := false, swap := none }) ∧
    (∀ n, n ≠ 0 → slotOf t n = slotOf s n) ∧ Only [.sec, .model, .banks] s { t with preloaded := s.preloaded })

/-- O8 (tier 2). With no auxiliary power, AUX_POWER_UP brings the always-on domain ON. With auxiliary power and no thermal
trip in force, MAIN_POWER_UP brings up VDDIO, VSER, VCORE and VPP in that order; after a thermal trip it changes
nothing. With the rails up, MODULE_RESET_END asserts PWR_GOOD, samples MOD_ID and starts the boot ROM. Each leaves
every other part of the state as it was. Rests on R526, R528, R532. -/
def Obligations.PowerUpCommands : Prop :=
  (∀ s : State, s.power.phase = .off → Completes .auxPowerUp s fun t =>
    t.power.phase = .aux ∧ domState t domAlways = .on ∧ Only [.power, .doms] s t) ∧
  (∀ s : State, s.power.phase = .aux → s.power.tripped = false → Completes .mainPowerUp s fun t =>
    t.power.phase = .rails ∧ t.power.rails = [.vddio, .vser, .vcore, .vpp] ∧ Only [.power] s t) ∧
  (∀ s : State, s.power.tripped = true → exec .mainPowerUp s = .next s) ∧
  (∀ (straps : BitVec 3) (s : State), s.power.phase = .rails → Completes (.moduleResetEnd straps) s fun t =>
    t.power.phase = .rom ∧ t.power.pwrGood = true ∧ t.regs.modId = straps ∧ Only [.power, .doms, .regs, .strait] s t)

/-- O9 (tier 2). A module reset, from any source (a requested one once it has been asked for and no slot write runs),
restarts Tide and its epoch at 0, switches every rail off and deasserts PWR_GOOD, loses every outstanding command
without a completion, takes both links down, clears every valid bit of the Harbour, and asserts FAULT_N after a
thermal trip only. The always-on domain goes down with P3V3_AUX alone. sec.policy, the two ratchet counts, the
publisher keys and the list of what has left the module are kept. A reset requested while a slot write runs waits.
Rests on R427, R482, R488, R505, R527, R528, R531. -/
def Obligations.ModuleResetEffect : Prop :=
  (∀ (c : ResetCause) (s : State), s.power.phase ≠ .off →
    (c = .request → s.sec.deferredReset.isSome = true ∧ s.sec.slotWriting = false) →
    Completes (.moduleReset c) s fun t =>
      tideOf t = 0 ∧ t.time.epoch = 0 ∧ t.power.rails = [] ∧ t.power.pwrGood = false ∧
      t.power.phase = (if c = .auxLost then .off else .aux) ∧ t.power.faultN = decide (c = .thermalTrip) ∧
      t.que.cmds = [] ∧ t.out = s.out ∧ t.portU.linkUp = false ∧ t.portD.linkUp = false ∧ t.hbr.valid = [] ∧
      t.sec.policy = s.sec.policy ∧ t.sec.svnPairs = s.sec.svnPairs ∧ t.sec.cyclePairs = s.sec.cyclePairs ∧
      t.sec.keys = s.sec.keys ∧ SamePart s t ∧ t.free = s.free) ∧
  (∀ s : State, s.sec.slotWriting = true → exec (.moduleReset .request) s = .next s)

/-- O10 (tier 2). In the ROM, BOOT_OSC_TIMEOUT asserts FAULT_N and takes both ports OFF. BOOT_ROM_RUN enters recovery with
reason 0 where recovery was asked for; else it applies the checks to the slot and either starts Uzomel, with the
firmware counter at the image's SVN at the least where it was below it by a storable advance, the engine locked and
the firmware hash measured, or enters recovery with the reason of the first check that failed. RECOVERY_TIMEOUT enters
recovery from the firmware phase. UZOMEL_READY makes the module ready and advances the power-cycle pairs by one count.
Rests on R477, R489, R497, R498, R499, R506. -/
def Obligations.BootRomCommands : Prop :=
  (∀ s : State, s.power.phase = .rom → Completes .bootOscTimeout s fun t =>
    t.power.phase = .oscFailed ∧ t.power.faultN = true ∧ domState t (domPort .u) = .off ∧ domState t (domPort .d) = .off ∧
    Only [.power, .doms, .regs, .events] s t) ∧
  (∀ (ok : Bool) (s : State), s.power.phase = .rom → s.sec.recoveryAsked = true → Completes (.bootRomRun ok) s fun t =>
    t.power.phase = .recovery ∧ t.regs.rcvReason = 0 ∧ t.power.faultN = true ∧ t.sec.identity = ok ∧
    t.sec.recoveryAsked = false ∧ t.sec.policy = s.sec.policy) ∧
  (∀ (ok : Bool) (s : State), s.power.phase = .rom → s.sec.recoveryAsked = false → Completes (.bootRomRun ok) s fun t =>
    let reason := imageReason s s.sec.slot s.sec.slotReadable
    if reason = 0 then
      t.power.phase = .firmware ∧ t.sec.locked = true ∧ t.sec.measure2 = firmwareHash s.sec.slot ∧ t.sec.identity = ok ∧
      t.sec.svnPairs = (if ratchetCount s.sec.svnPairs < fld s.sec.slot 0xC 2
        then ratchetAdvance s.sec.svnPairs (fld s.sec.slot 0xC 2) else s.sec.svnPairs) ∧
      t.sec.policy = s.sec.policy
    else
      t.power.phase = .recovery ∧ t.regs.rcvReason = BitVec.ofNat 8 reason ∧ t.power.faultN = true ∧ t.sec.identity = ok ∧
      t.sec.svnPairs = s.sec.svnPairs ∧ t.sec.policy = s.sec.policy) ∧
  (∀ s : State, s.power.phase = .firmware → Completes .recoveryTimeout s fun t =>
    t.power.phase = .recovery ∧ t.regs.rcvReason = 0 ∧ t.power.faultN = true ∧ t.sec.policy = s.sec.policy) ∧
  (∀ (lost : List Nat) (s : State), s.power.phase = .firmware → Completes (.uzomelReady lost) s fun t =>
    t.power.phase = .ready ∧ t.sec.cyclePairs = ratchetAdvance s.sec.cyclePairs (pcycleOf s + 1) ∧
    t.sec.policy = s.sec.policy ∧ t.sec.svnPairs = s.sec.svnPairs ∧ t.que = { s.que with held := t.que.held } ∧
    Only [.power, .doms, .time, .regs, .cause, .values, .counters, .events, .sec, .held, .hbr, .banks, .awl, .scheds, .integ, .out] s t)

/-- O11 (tier 2). Outside recovery, or while RECOVERY_PORT_U is 0, a write of SEC_RCV_CTRL changes nothing; from Port D it
is dropped and counted. In recovery, a GO while STATE is not 1 to 3 and no crossing is in progress receives the image:
a failed host read gives REJECTED with reason 9; an image of at most 25,165,824 bytes is checked, and STATE becomes
WRITING where it passed, REJECTED with the reason where it did not. RECOVERY_IMAGE_DONE then writes the slot, releases
FAULT_N and starts a normal boot, or reports reason 10. Rests on R447, R498, R507, R509, R531. -/
def Obligations.RecoveryMailbox : Prop :=
  (∀ (i : Initiator) (v : BitVec 32) (image : HostRead) (s : State), classU i = true → mailboxOn s = false →
    exec (.secRcvGo i v image) s = .next s) ∧
  (∀ (v : BitVec 32) (image : HostRead) (s : State), exec (.secRcvGo .portD v image) s = .next (privDrop s)) ∧
  (∀ (i : Initiator) (v : BitVec 32) (image : HostRead) (s : State), classU i = true → mailboxOn s = true →
    s.regs.xdomBusy = false → v.getLsbD 0 = true → (s.regs.rcvState = 0 ∨ s.regs.rcvState = 5) →
    Completes (.secRcvGo i v image) s fun t =>
      t.sec.slot = s.sec.slot ∧ t.sec.policy = s.sec.policy ∧ Only [.regs, .cause, .sec] s t ∧
      match image with
      | .failed => t.regs.rcvState = 5 ∧ t.regs.rcvReason = 9
      | .data b =>
        let len := bitsAt s.regs.rcvLen.toNat 24 0
        if slotBytes < len then t.regs.rcvState = 5 ∧ t.regs.rcvReason = 2
        else
          let r := imageReason s (fit b len) true
          t.sec.recoveryImage = fit b len ∧
            (if r = 0 then t.regs.rcvState = 3 else t.regs.rcvState = 5 ∧ t.regs.rcvReason = BitVec.ofNat 8 r)
      | .poisoned _ => t.regs.rcvState = 5) ∧
  (∀ (ok : Bool) (s : State), mailboxOn s = true → s.regs.rcvState = 3 → Completes (.recoveryImageDone ok) s fun t =>
    Only [.power, .regs, .sec] s t ∧ t.sec.policy = s.sec.policy ∧
    if ok then
      t.sec.slot = s.sec.recoveryImage ∧ t.sec.slotReadable = true ∧ t.power.phase = .rom ∧ t.power.faultN = false ∧
        t.regs.rcvState = 4
    else t.sec.slotReadable = false ∧ t.regs.rcvState = 5 ∧ t.regs.rcvReason = 10 ∧ t.power = s.power)

/-- O12 (tier 2). While PLDM recovery is open, the nine PLDM requests run one transfer: RequestUpdate, then the component
table and component 0x0001 of at most 25,165,824 bytes, then pieces of at most 1,024 bytes in order, then
TransferComplete, VerifyComplete whose result is the reason of the checks, ApplyComplete, which writes the slot, and
ActivateFirmware, which releases FAULT_N and starts the normal boot. CancelUpdate ends a transfer. While it is not
open, a RequestUpdate changes nothing. Each changes security state, messages sent, and (ActivateFirmware) power alone.
Rests on R498, R504, R507, R508, R510, R531. -/
def Obligations.PldmRecovery : Prop :=
  (∀ s : State, pldmOn s = false → exec .requestUpdate s = .next s) ∧
  (∀ s : State, pldmOn s = true → s.sec.pldm = .idle → Completes .requestUpdate s fun t =>
    t.sec.pldm = .requested ∧ t.out = s.out ++ [.pldm 0 []] ∧ Only [.sec, .out] s t) ∧
  (∀ s : State, pldmOn s = true → s.sec.pldm = .requested → Completes (.passComponentTable 1) s fun t =>
    t.sec = { s.sec with pldm := .described } ∧ t.out = s.out ++ [.pldm 0 [0]] ∧ Only [.sec, .out] s t) ∧
  (∀ (size : BitVec 32) (s : State), pldmOn s = true → s.sec.pldm = .described → size.toNat ≤ 25165824 →
    Completes (.updateComponent 1 size) s fun t =>
      t.sec = { s.sec with pldm := .transferring, pldmSize := size.toNat, recoveryImage := [] } ∧
      t.out = s.out ++ [.pldm 0 [0]] ∧ Only [.sec, .out] s t) ∧
  (∀ (offset : BitVec 32) (data : Bytes) (s : State), pldmOn s = true → s.sec.pldm = .transferring →
    offset.toNat = s.sec.recoveryImage.length → 0 < data.length → data.length ≤ 1024 →
    s.sec.recoveryImage.length + data.length ≤ s.sec.pldmSize →
    Completes (.requestFirmwareData offset data) s fun t =>
      t.sec = { s.sec with recoveryImage := s.sec.recoveryImage ++ data } ∧
      t.out = s.out ++ [.pldm 0 (leBytes 4 offset.toNat ++ leBytes 4 data.length)] ∧ Only [.sec, .out] s t) ∧
  (∀ s : State, pldmOn s = true → s.sec.pldm = .transferring → s.sec.recoveryImage.length = s.sec.pldmSize →
    Completes (.transferComplete true) s fun t =>
      t.sec = { s.sec with pldm := .transferred } ∧ t.out = s.out ++ [.pldm 0 [0]] ∧ Only [.sec, .out] s t) ∧
  (∀ s : State, pldmOn s = true → s.sec.pldm = .transferred → Completes .verifyComplete s fun t =>
    let r := imageReason s s.sec.recoveryImage true
    t.sec = { s.sec with pldmReason := BitVec.ofNat 8 r, pldm := if r = 0 then .verified else .described } ∧
    t.out = s.out ++ [.pldm 0 [BitVec.ofNat 8 r]] ∧ Only [.sec, .out] s t) ∧
  (∀ (ok : Bool) (s : State), pldmOn s = true → s.sec.pldm = .verified → Completes (.applyComplete ok) s fun t =>
    t.out = s.out ++ [.pldm 0 [if ok then 0 else 10]] ∧ Only [.sec, .out] s t ∧
    if ok then t.sec = { s.sec with slot := s.sec.recoveryImage, slotReadable := true, pldm := .applied }
    else t.sec = { s.sec with slotReadable := false, pldmReason := 10, pldm := .described }) ∧
  (∀ s : State, pldmOn s = true → s.sec.pldm = .applied → Completes .activateFirmware s fun t =>
    t.power = { s.power with faultN := false, phase := .rom } ∧ t.sec = { s.sec with pldm := .idle } ∧
    t.out = s.out ++ [.pldm 0 []] ∧ Only [.power, .sec, .out] s t) ∧
  (∀ s : State, pldmOn s = true → s.sec.pldm ≠ .idle → Completes .cancelUpdate s fun t =>
    t.sec.pldm = .idle ∧ t.sec.slot = s.sec.slot ∧ Only [.sec, .out] s t)

/-- O13 (tier 2). On an open connection, while Uzomel runs and the core complex does not sleep: GET_VERSION starts the
transcript anew with its request and response; GET_CAPABILITIES, after it, appends to the transcript;
NEGOTIATE_ALGORITHMS, after that, opens the connection for the other requests where it offers both algorithms and
answers InvalidRequest where it does not. A request out of order gets UnexpectedRequest. While Uzomel does not run, a
request gets Busy. Only security state and messages sent change. The bytes of a message are uninterpreted
(notes/assumptions/37.md). Rests on R433, R515, R517, R519. -/
def Obligations.SpdmSession : Prop :=
  (∀ (conn : Nat) (msg : Bytes) (s : State), connOpen s conn = true → coreSleeps s = false → uzomelRuns s = true →
    Completes (.getVersion conn msg) s fun t =>
      let resp := Config.spdmBody 0x04 msg []
      connOf t conn = { stage := 1, transcript := msg ++ resp } ∧ t.out = s.out ++ [.spdm conn resp] ∧ Only [.sec, .out] s t) ∧
  (∀ (conn : Nat) (msg : Bytes) (s : State), connOpen s conn = true → coreSleeps s = false → uzomelRuns s = true →
    1 ≤ (connOf s conn).stage → Completes (.getCapabilities conn msg) s fun t =>
      let resp := Config.spdmBody 0x61 msg []
      connOf t conn = { connOf s conn with
        stage := max 2 (connOf s conn).stage, transcript := (connOf s conn).transcript ++ msg ++ resp, inbound := [] } ∧
      t.out = s.out ++ [.spdm conn resp] ∧ Only [.sec, .out] s t) ∧
  (∀ (conn : Nat) (msg : Bytes) (rsa sha : Bool) (s : State), connOpen s conn = true → coreSleeps s = false →
    uzomelRuns s = true → 2 ≤ (connOf s conn).stage → Completes (.negotiateAlgorithms conn msg rsa sha) s fun t =>
      let resp := Config.spdmBody 0x63 msg []
      (if rsa && sha then
        connOf t conn = { connOf s conn with
          stage := 3, transcript := (connOf s conn).transcript ++ msg ++ resp, inbound := [] } ∧
        t.out = s.out ++ [.spdm conn resp]
      else t = { s with out := s.out ++ [.spdmError conn 0x01] }) ∧ Only [.sec, .out] s t) ∧
  (∀ (conn : Nat) (msg : Bytes) (s : State), connOpen s conn = true → coreSleeps s = false → uzomelRuns s = true →
    (connOf s conn).stage = 0 →
    exec (.getCapabilities conn msg) s = .next { s with out := s.out ++ [.spdmError conn 0x04] }) ∧
  (∀ (conn : Nat) (msg : Bytes) (s : State), connOpen s conn = true → coreSleeps s = false → uzomelRuns s = false →
    exec (.getVersion conn msg) s = .next { s with out := s.out ++ [.spdmError conn 0x03] })

/-- O14 (tier 2). On an open connection whose algorithms are agreed, while Uzomel runs and the core complex does not
sleep, GET_DIGESTS answers with the digests of both chains, and GET_CERTIFICATE with a portion of a chain, or with
InvalidRequest past a chain or for a slot above 1. For slot 0 with the identity keys present, CHALLENGE and a signed
GET_MEASUREMENTS of a block, of all or of none sign the digest of what SPDM has them cover and keep that digest; for
another slot they get InvalidRequest. An unsigned GET_MEASUREMENTS answers the blocks. CHUNK_SEND appends to the large
request, CHUNK_GET delivers the next piece of the large response. PQ_SIGN, of a connection that keeps a signed digest,
has its second signature over that digest delivered by CHUNK_GET, and gets UnexpectedRequest where none is kept. Only
security state and messages sent change. Rests on R515, R516, R517, R518, R519. -/
def Obligations.SpdmReads : Prop :=
  (∀ (conn : Nat) (msg : Bytes) (s : State), connOpen s conn = true → coreSleeps s = false → uzomelRuns s = true →
    3 ≤ (connOf s conn).stage → Completes (.getDigests conn msg) s fun t =>
      let resp := Config.spdmBody 0x01 msg [Config.sha384 (certChain 0), Config.sha384 (certChain 1)]
      (connOf t conn).transcript = (connOf s conn).transcript ++ msg ++ resp ∧
      t.out = s.out ++ [.spdm conn resp] ∧ Only [.sec, .out] s t) ∧
  (∀ (conn : Nat) (msg : Bytes) (slot : BitVec 8) (offset length : BitVec 16) (s : State), connOpen s conn = true →
    coreSleeps s = false → uzomelRuns s = true → 3 ≤ (connOf s conn).stage →
    Completes (.getCertificate conn msg slot offset length) s fun t =>
      let chain := certChain slot.toNat
      let part := sub chain offset.toNat length.toNat
      let resp := Config.spdmBody 0x02 msg [part, leBytes 2 (chain.length - offset.toNat - part.length)]
      (if 1 < slot.toNat ∨ chain.length ≤ offset.toNat then t = { s with out := s.out ++ [.spdmError conn 0x01] }
      else t.out = s.out ++ [.spdm conn resp] ∧
        (connOf t conn).transcript = (connOf s conn).transcript ++ msg ++ resp) ∧ Only [.sec, .out] s t) ∧
  (∀ (conn : Nat) (msg : Bytes) (s : State), connOpen s conn = true → coreSleeps s = false → uzomelRuns s = true →
    3 ≤ (connOf s conn).stage → s.sec.identity = true → Completes (.challenge conn msg 0) s fun t =>
      let body := Config.spdmBody 0x03 msg [Config.sha384 (certChain 0)]
      let digest := Config.sha384 (Config.spdmCovered 0x03 ((connOf s conn).transcript ++ msg ++ body))
      (connOf t conn).signed = some digest ∧ t.out = s.out ++ [.spdm conn (body ++ Config.rsaSign digest)] ∧
      Only [.sec, .out] s t) ∧
  (∀ (conn : Nat) (msg : Bytes) (slot : BitVec 8) (s : State), connOpen s conn = true → coreSleeps s = false →
    uzomelRuns s = true → 3 ≤ (connOf s conn).stage → slot ≠ 0 →
    exec (.challenge conn msg slot) s = .next { s with out := s.out ++ [.spdmError conn 0x01] }) ∧
  (∀ (conn : Nat) (msg : Bytes) (slot index : BitVec 8) (s : State), connOpen s conn = true → coreSleeps s = false →
    uzomelRuns s = true → 3 ≤ (connOf s conn).stage → (index.toNat ≤ 8 ∨ index = 0xFF) →
    Completes (.getMeasurements conn msg slot index false) s fun t =>
      let blocks := if index = 0 then [] else if index = 0xFF then [1, 2, 3, 4, 5, 6, 7, 8] else [index.toNat]
      t.out = s.out ++ [.spdm conn (Config.spdmBody 0x60 msg (leBytes 1 8 :: blocks.map (measurement s)))] ∧
      Only [.sec, .out] s t) ∧
  (∀ (conn : Nat) (msg : Bytes) (index : BitVec 8) (s : State), connOpen s conn = true → coreSleeps s = false →
    uzomelRuns s = true → 3 ≤ (connOf s conn).stage → (index.toNat ≤ 8 ∨ index = 0xFF) → s.sec.identity = true →
    Completes (.getMeasurements conn msg 0 index true) s fun t =>
      let blocks := if index = 0 then [] else if index = 0xFF then [1, 2, 3, 4, 5, 6, 7, 8] else [index.toNat]
      let body := Config.spdmBody 0x60 msg (leBytes 1 8 :: blocks.map (measurement s))
      let digest := Config.sha384 (Config.spdmCovered 0x60 ((connOf s conn).transcript ++ msg ++ body))
      (connOf t conn).signed = some digest ∧ t.out = s.out ++ [.spdm conn (body ++ Config.rsaSign digest)] ∧
      Only [.sec, .out] s t) ∧
  (∀ (conn : Nat) (msg : Bytes) (slot index : BitVec 8) (s : State), connOpen s conn = true → coreSleeps s = false →
    uzomelRuns s = true → 3 ≤ (connOf s conn).stage → (index.toNat ≤ 8 ∨ index = 0xFF) → slot ≠ 0 →
    exec (.getMeasurements conn msg slot index true) s = .next { s with out := s.out ++ [.spdmError conn 0x01] }) ∧
  (∀ (conn : Nat) (chunk : Bytes) (last : Bool) (s : State), connOpen s conn = true → coreSleeps s = false →
    uzomelRuns s = true → 3 ≤ (connOf s conn).stage → Completes (.chunkSend conn chunk last) s fun t =>
      (connOf t conn).inbound = (connOf s conn).inbound ++ chunk ∧
      t.out = s.out ++ [.spdm conn (Config.spdmBody 0x05 chunk [leBytes 1 (b2n last)])] ∧ Only [.sec, .out] s t) ∧
  (∀ (conn size : Nat) (s : State), connOpen s conn = true → coreSleeps s = false → uzomelRuns s = true →
    3 ≤ (connOf s conn).stage → (connOf s conn).outbound ≠ [] → Completes (.chunkGet conn size) s fun t =>
      (connOf t conn).outbound = (connOf s conn).outbound.drop size ∧
      t.out = s.out ++ [.spdm conn ((connOf s conn).outbound.take size)] ∧ Only [.sec, .out] s t) ∧
  (∀ (conn : Nat) (msg : Bytes) (d : Digest) (s : State), connOpen s conn = true → coreSleeps s = false → uzomelRuns s = true →
    (connOf s conn).signed = some d → s.sec.identity = true → Completes (.pqSign conn msg) s fun t =>
      (connOf t conn).outbound =
        Config.spdmBody 0x7E msg [[0x81, 0, 0, 0] ++ Config.slhSign (Config.sha384 (vxpq ++ d))] ∧
      t.out = s.out ++ [.spdmError conn 0x0F] ∧ Only [.sec, .out] s t) ∧
  (∀ (conn : Nat) (msg : Bytes) (s : State), connOpen s conn = true → coreSleeps s = false → uzomelRuns s = true →
    (connOf s conn).signed = none →
    exec (.pqSign conn msg) s = .next { s with out := s.out ++ [.spdmError conn 0x04] })

/-- O15 (tier 2). A privileged write of sec.fw_stage, over either path, while no slot write runs stages the image and
reports the first check it fails, or a state other than REJECTED (a free value: notes/assumptions/32.md); while one
runs it is answered BUSY and changes nothing. A write of sec.fw_commit that holds the staged image's id, for an image
that has passed its checks, starts the slot write; any other value is answered OUT_OF_RANGE and changes nothing.
FW_SLOT_WRITE_DONE ends the slot write with DONE, or with REJECTED and reason 10, and a module reset that waited for
it starts. A write of 1 or 2 to sec.module_reset asks for a reset; another value is answered OUT_OF_RANGE. Rests on
R430, R498, R503, R504, R505. -/
def Obligations.FirmwareUpdate : Prop :=
  (∀ (r : Requester) (image : Bytes) (s : State), heard s r (ob 0xA010 0) 0 = true → reqPrivileged s r = true →
    s.sec.slotWriting = false → valueFrom s r image ≠ [] →
    Answers (.secFwStage r image) s r St.success fun u =>
      let b := valueFrom s r image
      let reason := if slotBytes < b.length then 2 else imageReason s b true
      u.sec.stage = b ∧ u.sec.stageId = BitVec.ofNat 32 (fld (firmwareHash b) 0 4) ∧
      u.sec.stageReason = BitVec.ofNat 8 reason ∧ (u.sec.stageState = 5 ↔ reason ≠ 0) ∧ Only [.sec, .free] s u) ∧
  (∀ (r : Requester) (image : Bytes) (s : State), heard s r (ob 0xA010 0) 0 = true → reqPrivileged s r = true →
    s.sec.slotWriting = true → Answers (.secFwStage r image) s r St.busy fun u => u = s) ∧
  (∀ (r : Requester) (data : Bytes) (s : State), heard s r (ob 0xA012 1) 0 = true → reqPrivileged s r = true →
    (valueFrom s r data).length = 4 → leNat (valueFrom s r data) = s.sec.stageId.toNat → stagePassed s = true →
    s.sec.slotWriting = false → Answers (.secFwCommit r data) s r St.success fun u =>
      u.sec = { s.sec with slotWriting := true, stageState := 3, stageReason := 0 } ∧ Only [.sec] s u) ∧
  (∀ (r : Requester) (data : Bytes) (s : State), heard s r (ob 0xA012 1) 0 = true → reqPrivileged s r = true →
    leNat (valueFrom s r data) ≠ s.sec.stageId.toNat →
    Answers (.secFwCommit r data) s r St.outOfRange fun u => u = s) ∧
  (∀ (ok : Bool) (s : State), s.sec.slotWriting = true → s.sec.deferredReset = none →
    Completes (.fwSlotWriteDone ok) s fun t =>
      t.sec.slotWriting = false ∧ Only [.sec] s t ∧
      if ok then t.sec.slot = s.sec.stage ∧ t.sec.slotReadable = true ∧ t.sec.stageState = 4 ∧ t.sec.stageReason = 0
      else t.sec.slotReadable = false ∧ t.sec.stageState = 5 ∧ t.sec.stageReason = 10) ∧
  (∀ (ok : Bool) (s : State), s.sec.slotWriting = true → s.sec.deferredReset.isSome = true →
    Completes (.fwSlotWriteDone ok) s fun t =>
      t.power.phase = .aux ∧ t.sec.slotWriting = false ∧ t.sec.slot = (if ok then s.sec.stage else s.sec.slot) ∧
      t.sec.recoveryAsked = decide (s.sec.deferredReset = some 2)) ∧
  (∀ (r : Requester) (data : Bytes) (n : BitVec 8) (s : State), heard s r (ob 0xA013 1) 0 = true → reqPrivileged s r = true →
    valueFrom s r data = [n] → (n = 1 ∨ n = 2) → Answers (.secModuleReset r data) s r St.success fun u =>
      u.sec = { s.sec with deferredReset := some n } ∧ Only [.sec] s u) ∧
  (∀ (r : Requester) (data : Bytes) (s : State), heard s r (ob 0xA013 1) 0 = true → reqPrivileged s r = true →
    valueFrom s r data ≠ [1] → valueFrom s r data ≠ [2] →
    Answers (.secModuleReset r data) s r St.outOfRange fun u => u = s)

/-- O16 (tier 2). A write of sec.policy of 8 bytes from a privileged initiator replaces the policy, unless it would set a
bit that is 0, clear a reserved bit, clear the running firmware key's bit, or leave both keys or both recovery paths
closed: then it is answered OUT_OF_RANGE and the policy is unchanged. From another initiator it is answered
ACCESS_DENIED. A privileged write of sec.pubkey_write while KEY_INSTALL is 1 installs a well-formed key in an EMPTY
slot, with the KEY_ID that the module computes, and empties a slot that no image, Last or swap names; while
KEY_INSTALL is 0 it is answered ACCESS_DENIED. Rests on R419, R420, R422, R427, R510, R513, R514. -/
def Obligations.PolicyAndKeyWrites : Prop :=
  (∀ (r : Requester) (data : Bytes) (s : State), heard s r (ob 0xA001 1) 0 = true → reqPrivileged s r = true →
    (valueFrom s r data).length = 8 →
    let new := BitVec.ofNat 64 (leNat (valueFrom s r data))
    if policyRefused s new then Answers (.secPolicyWrite r data) s r St.outOfRange fun u => u = s
    else Answers (.secPolicyWrite r data) s r St.success fun u =>
      u.sec = { s.sec with policy := new } ∧ Only [.sec] s u) ∧
  (∀ (s : State) (new : BitVec 64), policyRefused s new = true ↔
    (∃ n, n < 64 ∧ new.getLsbD n = true ∧ s.sec.policy.getLsbD n = false) ∨
    (∃ n, n < 64 ∧ clearsBit s.sec.policy new n = true ∧
      (7 ≤ n ∨ (n = 3 ∧ (s.sec.runningKey = 0 ∨ new.getLsbD 4 = false)) ∨ (n = 4 ∧ (s.sec.runningKey = 1 ∨ new.getLsbD 3 = false)) ∨
        (n = 5 ∧ new.getLsbD 6 = false) ∨ (n = 6 ∧ new.getLsbD 5 = false)))) ∧
  (∀ (r : Requester) (data : Bytes) (s : State), heard s r (ob 0xA001 1) 0 = true → reqPrivileged s r = false →
    Answers (.secPolicyWrite r data) s r St.accessDenied fun u => u = s) ∧
  (∀ (r : Requester) (n : Nat) (data : Bytes) (s : State), heard s r (ob 0xA031 0) n = true → reqPrivileged s r = true →
    n < 16 → s.sec.policy.getLsbD 2 = true → (valueFrom s r data).length = 512 → fld (valueFrom s r data) 0 1 = 1 →
    (tget s.sec.keys n {}).trusted = false → keyFormed (valueFrom s r data) = true →
    Answers (.pubkeyWrite r n data) s r St.success fun u =>
      u.sec = { s.sec with keys := tset s.sec.keys n (keyOfRecord (valueFrom s r data)) } ∧ Only [.sec, .values] s u) ∧
  (∀ (r : Requester) (n : Nat) (data : Bytes) (s : State), heard s r (ob 0xA031 0) n = true → reqPrivileged s r = true →
    n < 16 → s.sec.policy.getLsbD 2 = true → valueFrom s r data = [] → keyNamed s n = false →
    Answers (.pubkeyWrite r n data) s r St.success fun u =>
      u.sec = { s.sec with keys := tdel s.sec.keys n } ∧ Only [.sec, .values] s u) ∧
  (∀ (r : Requester) (n : Nat) (data : Bytes) (s : State), heard s r (ob 0xA031 0) n = true → reqPrivileged s r = true →
    n < 16 → s.sec.policy.getLsbD 2 = false → Answers (.pubkeyWrite r n data) s r St.accessDenied fun u => u = s)

/-- O17 (tier 2). When a pair takes a new sequence number n, HS becomes the greater of HS and n, n is a duplicate from
then on, a number that lies 4,096 or more below HS is stale, and every other number in the window is classified as
before, one above the old HS being new. Rests on R365. -/
def Obligations.KeyWindowMoves : Prop :=
  ∀ (p : QPair) (n : Nat), keyClass p n = .new →
    (keyTake n p).hs = max p.hs n ∧ keyClass (keyTake n p) n = .duplicate ∧
    ∀ m, m ≠ n → keyClass (keyTake n p) m =
      if m + 4096 ≤ max p.hs n then .stale else if p.hs < m then .new else keyClass p m

/-- O18 (tier 2). A command that ends on a pair that is not in ERROR, whose ring and log lie in host memory behind a port
in D0, sends first its key log record with PHASE 0, then its completion entry with the pair's PHASE at the ring's
tail, and then at most one interrupt. The tail moves on by one, PHASE turns at the ring's end, and the admission slot
is freed. On a pair in ERROR nothing is written and the completion is parked. Rests on R355, R358, R364, R366. -/
def Obligations.FinishWritesLogThenCompletion : Prop :=
  (∀ (a : Nat) (r : Reply) (s : State) (c : Cmd), tget? s.que.cmds a = some c → (pairOf s c.pair).state ≠ .error →
    pairCqHarbour (pairOf s c.pair) = false → pairLogHarbour (pairOf s c.pair) = false →
    (portOf s (pairOf s c.pair).port).d3hot = false →
    let p := pairOf s c.pair
    let key := entKey c.entry
    let tide := (tideOf s).toNat
    let t := finish a r s
    t.que.cmds = tdel s.que.cmds a ∧
    (∃ l, t.out = s.out ++
        [.hostWrite p.port (BitVec.ofNat 64 (p.logBase.toNat + 32 * (keySeq key % 4096))) (cplEntry key r tide p.sqHead 0 false) false,
         .completion p.port (BitVec.ofNat 64 (p.cqBase.toNat + 32 * p.cqTail)) (cplEntry key r tide p.sqHead 0 p.phase)] ++ l ∧
      (l = [] ∨ l = [.msix p.port p.vector.toNat])) ∧
    (pairOf t c.pair).cqTail = (if p.cqEntries ≤ p.cqTail + 1 then 0 else p.cqTail + 1) ∧
    (pairOf t c.pair).phase = (if p.cqEntries ≤ p.cqTail + 1 then !p.phase else p.phase) ∧
    t.hbr = s.hbr) ∧
  (∀ (a : Nat) (r : Reply) (s : State) (c : Cmd), tget? s.que.cmds a = some c → (pairOf s c.pair).state = .error →
    let t := finish a r s
    t.out = s.out ∧ t.hbr = s.hbr ∧ t.que.parked = s.que.parked ++ [(a, r)] ∧
    tget? t.que.cmds a = some { c with stage := .parked })

/-- O19 (tier 2). A submission read of a pair that is not to be served next, or of any pair before the module is ready,
changes nothing. Of the pair to be served, with an admission slot free and its ring in host memory: a new key that
passes the checks is admitted with its entry, the read pointer moves on and the number is taken into the window; a key
whose number is not in the pair's top bits ends with INVALID_COMMAND at offset 8; a stale one ends with STALE_KEY and
is counted; a duplicate waits for its original; a failed read puts the pair in ERROR. Rests on R348, R357, R363, R365,
R366, R367, R500. -/
def Obligations.SubmissionReading : Prop :=
  (∀ (pair : Fin 16384) (e : HostRead) (s : State), isReady s = false ∨ nextPair s ≠ some pair.val →
    exec (.submissionRead pair e) s = .next s) ∧
  (∀ (pair : Fin 16384) (b : Bytes) (a : Nat) (s : State), isReady s = true → contextMoment s = false →
    nextPair s = some pair.val → freeKey s.que.cmds 4096 = some a → pairSqHarbour (pairOf s pair.val) = false →
    keyPair (entKey (fit b 64)) = pair.val → keyClass (pairOf s pair.val) (keySeq (entKey (fit b 64))) = .new →
    admissionFault s (pairOf s pair.val) (fit b 64) = none →
    Completes (.submissionRead pair (.data b)) s fun t =>
      let p := pairOf s pair.val
      tget? t.que.cmds a = some { pair := pair.val, group := p.group, entry := fit b 64, order := s.que.nextOrder, stage := .admitted,
                                  readAt := tideOf s, waitsFor := [], drainFrom := 0 } ∧
      (pairOf t pair.val).sqHead = (p.sqHead + 1) % max 1 p.sqEntries ∧
      (pairOf t pair.val).seen = (keyTake (keySeq (entKey (fit b 64))) p).seen ∧ Only [.que] s t) ∧
  (∀ (pair : Fin 16384) (b : Bytes) (a : Nat) (s : State), isReady s = true → contextMoment s = false →
    nextPair s = some pair.val → freeKey s.que.cmds 4096 = some a → pairSqHarbour (pairOf s pair.val) = false →
    keyPair (entKey (fit b 64)) ≠ pair.val →
    ∃ u, exec (.submissionRead pair (.data b)) s = .next
        (postEntry pair.val (entKey (fit b 64)) { status := St.invalidCommand, detail := 8 } 0 (entNoIntr (fit b 64)) (tideOf s) u) ∧
      u.que.cmds = s.que.cmds ∧ Only [.que] s u) ∧
  (∀ (pair : Fin 16384) (b : Bytes) (a : Nat) (s : State), isReady s = true → contextMoment s = false →
    nextPair s = some pair.val → freeKey s.que.cmds 4096 = some a → pairSqHarbour (pairOf s pair.val) = false →
    keyPair (entKey (fit b 64)) = pair.val → keyClass (pairOf s pair.val) (keySeq (entKey (fit b 64))) = .stale →
    ∃ u, exec (.submissionRead pair (.data b)) s = .next
        (postEntry pair.val (entKey (fit b 64)) { status := St.staleKey } 0 (entNoIntr (fit b 64)) (tideOf s) u) ∧
      counterOf u (ob 0x6106 1) = counterOf s (ob 0x6106 1) + 1 ∧ u.que.cmds = s.que.cmds ∧ Only [.que, .counters] s u) ∧
  (∀ (pair : Fin 16384) (b : Bytes) (a : Nat) (s : State), isReady s = true → contextMoment s = false →
    nextPair s = some pair.val → freeKey s.que.cmds 4096 = some a → pairSqHarbour (pairOf s pair.val) = false →
    keyPair (entKey (fit b 64)) = pair.val → keyClass (pairOf s pair.val) (keySeq (entKey (fit b 64))) = .duplicate →
    Completes (.submissionRead pair (.data b)) s fun t =>
      (pairOf t pair.val).duplicates = (pairOf s pair.val).duplicates ++
        [(BitVec.ofNat 64 (entKey (fit b 64)), entNoIntr (fit b 64), tideOf s)] ∧
      t.que.cmds = s.que.cmds ∧ Only [.que] s t) ∧
  (∀ (pair : Fin 16384) (a : Nat) (s : State), isReady s = true → contextMoment s = false → nextPair s = some pair.val →
    freeKey s.que.cmds 4096 = some a → pairSqHarbour (pairOf s pair.val) = false →
    Completes (.submissionRead pair .failed) s fun t =>
      (pairOf t pair.val).state = .error ∧ t.que.cmds = s.que.cmds ∧ Only [.doms, .time, .cause, .counters, .events, .monitors, .que, .held, .hbr, .integ, .out] s t)

/-- O20 (tier 2). When the original of a waiting duplicate has completed and the log lies in host memory, the log record
of that key is posted again with DUPLICATE_REPLAYED, the original's RESULT, DETAIL, POISON and status, and is counted;
a record of another key, or one that cannot be read, gives REPLAY_LOST, counted apart. The duplicate no longer waits.
Rests on R366, R367. -/
def Obligations.DuplicateReplays : Prop :=
  (∀ (pair : Fin 16384) (key : BitVec 64) (b : Bytes) (d : BitVec 64 × Bool × BitVec 64) (s : State),
    ((pairOf s pair.val).duplicates.find? fun x => x.1 = key) = some d →
    (s.que.cmds.any fun c => c.2.pair = pair.val && entKey c.2.entry = key.toNat) = false →
    (pairOf s pair.val).state = .enabled → pairLogHarbour (pairOf s pair.val) = false → fld (fit b 32) 0 8 = key.toNat →
    ∃ u, exec (.duplicateReplay pair key (.data b)) s = .next
        (postEntry pair.val key.toNat
          { status := St.duplicateReplayed, result := fld (fit b 32) 8 8, detail := fld (fit b 32) 0x1A 2,
            poison := fld (fit b 32) 0x10 4, discarded := bitAt (fld (fit b 32) 0x1E 2) 2 }
          (fld (fit b 32) 0x1C 1) d.2.1 d.2.2 u) ∧
      (pairOf u pair.val).duplicates = (pairOf s pair.val).duplicates.erase d ∧
      counterOf u (ob 0x6105 1) = counterOf s (ob 0x6105 1) + 1 ∧ Only [.que, .counters] s u) ∧
  (∀ (pair : Fin 16384) (key : BitVec 64) (read : HostRead) (d : BitVec 64 × Bool × BitVec 64) (s : State),
    ((pairOf s pair.val).duplicates.find? fun x => x.1 = key) = some d →
    (s.que.cmds.any fun c => c.2.pair = pair.val && entKey c.2.entry = key.toNat) = false →
    (pairOf s pair.val).state = .enabled → pairLogHarbour (pairOf s pair.val) = false →
    (∀ b, read = .data b → fld (fit b 32) 0 8 ≠ key.toNat) →
    ∃ u, exec (.duplicateReplay pair key read) s = .next
        (postEntry pair.val key.toNat { status := St.replayLost } 0 d.2.1 d.2.2 u) ∧
      counterOf u (ob 0x6107 1) = counterOf s (ob 0x6107 1) + 1 ∧ Only [.que, .counters] s u)

/-- O21 (tier 2). Before the module is ready a doorbell changes nothing. On a pair that is not ENABLED, or through the
other port, it is dropped and counted. A valid tail or head is stored, sets INT_CAUSE.DOORBELL and asks for the core
complex; a value outside the ring, or past the entries that can be pending, puts the pair in ERROR. When INTR_TIME_US
has passed since the first completion not yet signalled, one interrupt is sent, or held for a port in D3hot. A pair
that is being disabled is DISABLED once no command of it is outstanding. Rests on R355, R356, R358, R471, R500. -/
def Obligations.DoorbellsAndInterrupts : Prop :=
  (∀ (port : Port) (pair : Fin 16384) (v : BitVec 32) (s : State), s.power.phase ≠ .ready →
    exec (.sqTailDoorbell port pair v) s = .next s ∧ exec (.cqHeadDoorbell port pair v) s = .next s) ∧
  (∀ (port : Port) (pair : Fin 16384) (v : BitVec 32) (s : State), s.power.phase = .ready → doorbellOpen s port pair.val = false →
    exec (.sqTailDoorbell port pair v) s = .next (bump (ob 0x6104 1) s) ∧
    exec (.cqHeadDoorbell port pair v) s = .next (bump (ob 0x6104 1) s)) ∧
  (∀ (port : Port) (pair : Fin 16384) (v : BitVec 32) (s : State), s.power.phase = .ready → doorbellOpen s port pair.val = true →
    let p := pairOf s pair.val
    let tail := v.toNat % 65536
    if p.sqEntries ≤ tail ∨ p.sqEntries ≤
        (p.sqTail + p.sqEntries - p.sqHead) % p.sqEntries + (tail + p.sqEntries - p.sqTail) % p.sqEntries then
      Completes (.sqTailDoorbell port pair v) s fun t =>
        (pairOf t pair.val).state = .error ∧ (pairOf t pair.val).sqTail = p.sqTail ∧ Only [.doms, .cause, .counters, .events, .que, .held, .out] s t
    else
      Completes (.sqTailDoorbell port pair v) s fun t =>
        pairOf t pair.val = { p with sqTail := tail } ∧ t.regs.intCause.getLsbD 8 = true ∧
        Only [.doms, .cause, .counters, .que] s t) ∧
  (∀ (port : Port) (pair : Fin 16384) (v : BitVec 32) (s : State), s.power.phase = .ready → doorbellOpen s port pair.val = true →
    let p := pairOf s pair.val
    let head := v.toNat % 65536
    if p.cqEntries ≤ head ∨
        (p.cqTail + p.cqEntries - p.cqHead) % p.cqEntries < (head + p.cqEntries - p.cqHead) % p.cqEntries then
      Completes (.cqHeadDoorbell port pair v) s fun t =>
        (pairOf t pair.val).state = .error ∧ (pairOf t pair.val).cqHead = p.cqHead ∧ Only [.doms, .cause, .counters, .events, .que, .held, .out] s t
    else
      Completes (.cqHeadDoorbell port pair v) s fun t =>
        pairOf t pair.val = { p with cqHead := head } ∧ Only [.doms, .cause, .counters, .que] s t) ∧
  (∀ (pair : Fin 16384) (first : BitVec 64) (s : State), (pairOf s pair.val).firstUnsignalled = some first →
    (pairOf s pair.val).intrTime * 1000 ≤ (tideOf s - first).toNat → 0 < (pairOf s pair.val).unsignalled →
    Completes (.interruptTimer pair) s fun t =>
      let p := pairOf s pair.val
      pairOf t pair.val = { p with unsignalled := 0, firstUnsignalled := none } ∧
      (if (portOf s p.port).d3hot then t.out = s.out ∧ t.que.held = s.que.held ++ [.msix p.port p.vector.toNat]
       else t.out = s.out ++ [.msix p.port p.vector.toNat] ∧ t.que.held = s.que.held) ∧ Only [.que, .held, .out] s t) ∧
  (∀ (pair : Fin 16384) (s : State), (pairOf s pair.val).state = .disabling → outstanding s pair.val = 0 →
    Completes (.queuePairDisabled pair) s fun t =>
      pairOf t pair.val = { pairOf s pair.val with state := .disabled } ∧ t.que.cmds = s.que.cmds ∧ Only [.que] s t)

/-- O22 (tier 2). CTX_OPEN of a FREE context, for a group whose slot is RESIDENT or BOUND, with no adapter or a fitting
one, writes the context's record and completes with SUCCESS; else it completes with CONTEXT_INVALID and nothing else
changes. CTX_CLOSE and CTX_SAVE wait for the context's steps; when none is left, a close frees the context, and a save
with room enough writes the saved context to the command's port, reports its length and frees the context, while one
without room ends with BUFFER_TOO_SMALL, the length needed, and the context kept. A save waits while a Harbour segment
that holds one of its slabs cannot be read. CTX_RESTORE of a context that is not FREE ends with CONTEXT_INVALID, and
of data that is no saved context with CONTEXT_IMAGE_INVALID; one of a sound saved context of the same Last without an
adapter, for which the pool holds slabs enough, takes its slabs from the front of the group's pool and completes with
SUCCESS. Rests on R155, R222, R370, R373, R374, R375, R376, R377. -/
def Obligations.ContextCommands : Prop :=
  (∀ (a : Fin 4096) (c : Cmd) (n : Nat) (s : State), cmdAt s a.val 2 = some c →
    groupSlot s c.group.toNat = some n →
    if fld (ctxRecord s (entArg c.entry)) 0 1 = 0 ∧ ((slotOf s n).state = .resident ∨ (slotOf s n).state = .bound) ∧
        (fld c.entry 0x20 4 = 0xFFFFFFFF ∨ adapterFits s n (fld c.entry 0x20 4) = true) then
      Finishes (.ctxOpen a) s a.val St.success fun u =>
        u = ctxWrite (entArg c.entry) 0 (openRecord n c.group.toNat c.entry) s ∧ Only [.hbr] s u
    else Finishes (.ctxOpen a) s a.val St.contextInvalid fun u => u = s) ∧
  (∀ (a : Fin 4096) (c : Cmd) (s : State), cmdAt s a.val 3 = some c → Completes (.ctxClose a) s fun t =>
    tget? t.que.cmds a.val = some { c with stage := .draining } ∧ Only [.que] s t) ∧
  (∀ (a : Fin 4096) (c : Cmd) (s : State), cmdAt s a.val 4 = some c → Completes (.ctxSave a) s fun t =>
    tget? t.que.cmds a.val = some { c with stage := .draining } ∧ Only [.que] s t) ∧
  (∀ (a : Fin 4096) (c : Cmd) (s : State), drainedCmd s a.val 3 = some c →
    Finishes (.ctxCloseRelease a) s a.val St.success fun u =>
      u = freeContext (entArg c.entry) s ∧ u.que.closing = tdel s.que.closing (entArg c.entry) ∧
      u.que.kv = tdel s.que.kv (entArg c.entry) ∧ Only [.que, .flow, .hbr] s u) ∧
  (∀ (a : Fin 4096) (c : Cmd) (s : State), drainedCmd s a.val 4 = some c →
    let need := savedLength (tget s.que.kv (entArg c.entry) []).length
    let runs := slabRuns ((tget s.que.kv (entArg c.entry) []).map Prod.fst)
    if fld c.entry 0x18 8 < need then
      ∃ u, exec (.ctxSaveWrite a) s = .next (finish a.val { status := St.bufferTooSmall, result := need } u) ∧
        u.que.closing = tdel s.que.closing (entArg c.entry) ∧ u.que.kv = s.que.kv ∧ Only [.que] s u
    else if runsWait s runs then exec (.ctxSaveWrite a) s = .next (runsWake runs s)
    else
      let bad := savedPoison s (entArg c.entry)
      let m := OutMsg.hostWrite (cmdPort s c) (BitVec.ofNat 64 (fld c.entry 0x10 8)) (savedContext s (entArg c.entry)) bad
      exec (.ctxSaveWrite a) s = .next (finish a.val { status := St.success, result := need, poison := b2n bad }
        (freeContext (entArg c.entry) (sendPort (cmdPort s c) m (runs.foldl (fun s r => touchRun 2336 r.1 r.2 s) s))))) ∧
  (∀ (a : Fin 4096) (c : Cmd) (saved : HostRead) (s : State), cmdAt s a.val 5 = some c →
    fld (ctxRecord s (entArg c.entry)) 0 1 ≠ 0 → Finishes (.ctxRestore a saved) s a.val St.contextInvalid fun u => u = s) ∧
  (∀ (a : Fin 4096) (c : Cmd) (b : Bytes) (s : State), cmdAt s a.val 5 = some c →
    fld (ctxRecord s (entArg c.entry)) 0 1 = 0 → savedOk (b.take (fld c.entry 0x18 8)) (fld c.entry 0x18 8) = false →
    Finishes (.ctxRestore a (.data b)) s a.val St.contextImageInvalid fun u => u = s) ∧
  (∀ (a : Fin 4096) (c : Cmd) (b : Bytes) (n : Nat) (s : State), cmdAt s a.val 5 = some c →
    fld (ctxRecord s (entArg c.entry)) 0 1 = 0 → groupSlot s c.group.toNat = some n →
    let x := b.take (fld c.entry 0x18 8)
    savedOk x (fld c.entry 0x18 8) = true → sub x 0x10 48 = fit (slotOf s n).lastHash 48 →
    bitAt (fld x (128 + 6) 2) 0 = false →
    let pool := tget s.flow.pools (kvPool c.group.toNat) []
    fld x 0x44 4 ≤ pool.length → runsWait s (slabRuns (pool.take (fld x 0x44 4))) = false →
    Finishes (.ctxRestore a (.data b)) s a.val St.success fun u =>
      tget u.flow.pools (kvPool c.group.toNat) [] = pool.drop (fld x 0x44 4) ∧
      ((tget u.que.kv (entArg c.entry) []).map fun e => e.1) = pool.take (fld x 0x44 4) ∧
      Only [.que, .flow, .time, .cause, .counters, .events, .held, .hbr, .integ, .out] s u)

/-- O23 (tier 2). FENCE waits for the commands admitted before it, of its pair or, with ALL_PAIRS, of every pair of its
port, and completes with SUCCESS when none of them is outstanding. A CANCEL of an INFER that runs stops it with
CANCELLED and completes with RESULT 0; of a command that cannot be cancelled, with RESULT 3. CANCEL of another pair's
key from a pair that is not ADMIN completes with NOT_PERMITTED. A key that is not outstanding gives SUCCESS with
RESULT 1 where its command has completed and 2 where it has not been seen. Rests on R371, R372. -/
def Obligations.FencesAndCancels : Prop :=
  (∀ (a : Fin 4096) (c : Cmd) (s : State), cmdAt s a.val 9 = some c → Completes (.fence a) s fun t =>
    (∃ w, tget? t.que.cmds a.val = some { c with stage := .running, waitsFor := w } ∧
      ∀ n, n ∈ w ↔ ∃ e, e ∈ s.que.cmds ∧ e.2.order = n ∧ e.2.order < c.order ∧
        (e.2.pair = c.pair ∨ (bitAt (entFlags c.entry) 0 = true ∧ (pairOf s e.2.pair).port = cmdPort s c))) ∧
    Only [.que] s t) ∧
  (∀ (a : Fin 4096) (c : Cmd) (s : State), tget? s.que.cmds a.val = some c → entOpcode c.entry = 9 → c.stage = .running →
    (∀ e, e ∈ s.que.cmds → e.2.order ∉ c.waitsFor) → Finishes (.fenceRelease a) s a.val St.success fun u => u = s) ∧
  (∀ (a : Fin 4096) (c : Cmd) (e : Nat × Cmd) (s : State), tget? s.que.cmds a.val = some c → entOpcode c.entry = 9 →
    e ∈ s.que.cmds → e.2.order ∈ c.waitsFor → exec (.fenceRelease a) s = .next s) ∧
  (∀ (a : Fin 4096) (c : Cmd) (s : State), cmdAt s a.val 8 = some c → keyPair (fld c.entry 0x10 8) ≠ c.pair →
    pairAdmin (pairOf s c.pair) = false → Finishes (.cancel a) s a.val St.notPermitted fun u => u = s) ∧
  (∀ (a : Fin 4096) (c : Cmd) (s : State), cmdAt s a.val 8 = some c →
    (keyPair (fld c.entry 0x10 8) = c.pair ∨ pairAdmin (pairOf s c.pair) = true) → cmdOfKey s (fld c.entry 0x10 8) = none →
    exec (.cancel a) s = .next
      (finish a.val { status := St.success, result := if keyDone s (fld c.entry 0x10 8) then 1 else 2 } s)) ∧
  (∀ (a : Fin 4096) (c : Cmd) (t : Nat) (k : Cmd) (r : Req) (s : State), cmdAt s a.val 8 = some c →
    (keyPair (fld c.entry 0x10 8) = c.pair ∨ pairAdmin (pairOf s c.pair) = true) →
    cmdOfKey s (fld c.entry 0x10 8) = some (t, k) → entOpcode k.entry = 1 → k.stage ≠ .parked →
    tget? s.que.reqs t = some r → r.stopped = none →
    exec (.cancel a) s = .next
      (finish a.val { status := St.success, result := 0 } (askReady (stopRequest t St.cancelled 0 false s)))) ∧
  (∀ (a : Fin 4096) (c : Cmd) (t : Nat) (k : Cmd) (s : State), cmdAt s a.val 8 = some c →
    (keyPair (fld c.entry 0x10 8) = c.pair ∨ pairAdmin (pairOf s c.pair) = true) →
    cmdOfKey s (fld c.entry 0x10 8) = some (t, k) →
    (k.stage = .parked ∨ (entOpcode k.entry ≠ 1 ∧ entOpcode k.entry ≠ 0x10 ∧ entOpcode k.entry ≠ 0x12)) →
    exec (.cancel a) s = .next (finish a.val { status := St.success, result := 3 } s))

/-- O24 (tier 2). An INFER for a Last of this module alone, or whose MODULES is the group's size, whose fields pass is a
running request of its slot's current generation at step 0, and the requests that can are asked for their next step; a
fault of its fields completes it with its status and DETAIL and changes nothing else; a group Last whose MODULES
differs from the group's size completes with GROUP_QUARANTINED. A request whose every layer has run and whose results
have been issued, and that is not late, completes with SUCCESS after its context has moved on by its vectors. A
real-time request past its deadline whose pair completes late reports DEADLINE_MISSED. Rests on R194, R246, R345,
R361, R362, R391, R402. -/
def Obligations.InferCommands : Prop :=
  (∀ (a : Fin 4096) (list : HostRead) (c : Cmd) (n : Nat) (p : LastPlan) (fs : List IoField) (s : State),
    cmdAt s a.val 1 = some c → groupSlot s c.group.toNat = some n → (slotOf s n).plan = some p →
    ((slotOf s n).modules ≤ 1 ∨ (slotOf s n).modules = groupSize s) →
    runWaits s (listRun c.entry).1 (listRun c.entry).2 = false → inferFields s (pairOf s c.pair) p c.entry list = .inr fs →
    ∃ u, exec (.infer a list) s = .next (askReady u) ∧
      tget? u.que.reqs a.val = some
        { slot := n, ctx := entArg c.entry, gen := (slotOf s n).gen, vectors := ioVectors p fs,
          deadline := inferDeadline s (pairOf s c.pair) c, streams := fs.map fun f => f.io, step := 0, asked := false,
          barred := false, written := 0, poison := 0, late := false, stopped := none, discarded := false, done := false,
          kvTaken := [], left := 0, taken := 0 } ∧
      tget? u.que.cmds a.val = some { c with stage := .running } ∧ Only [.que, .hbr, .strait, .out] s u) ∧
  (∀ (a : Fin 4096) (list : HostRead) (c : Cmd) (n : Nat) (p : LastPlan) (st d : Nat) (s : State),
    cmdAt s a.val 1 = some c → groupSlot s c.group.toNat = some n → (slotOf s n).plan = some p →
    ((slotOf s n).modules ≤ 1 ∨ (slotOf s n).modules = groupSize s) →
    runWaits s (listRun c.entry).1 (listRun c.entry).2 = false →
    inferFields s (pairOf s c.pair) p c.entry list = .inl (st, d) →
    exec (.infer a list) s = .next (finish a.val { status := st, detail := d } s)) ∧
  (∀ (a : Fin 4096) (list : HostRead) (c : Cmd) (n : Nat) (p : LastPlan) (s : State),
    cmdAt s a.val 1 = some c → groupSlot s c.group.toNat = some n → (slotOf s n).plan = some p →
    1 < (slotOf s n).modules → (slotOf s n).modules ≠ groupSize s →
    Finishes (.infer a list) s a.val St.groupQuarantined fun u => u = s) ∧
  (∀ (a : Fin 4096) (r : Req) (s : State), tget? s.que.reqs a.val = some r → r.stopped = none → inferDone s r = true →
    r.late = false → (r.deadline = none ∨ ∃ d, r.deadline = some d ∧ (tideOf s).toNat ≤ d.toNat) →
    exec (.inferComplete a) s = .next (askReady (finish a.val
      { status := St.success, result := inferResult r, poison := r.poison }
      (modReq a.val (fun r => { r with done := true }) (advanceContext s r))))) ∧
  (∀ (a : Fin 4096) (r : Req) (d : BitVec 64) (s : State), tget? s.que.reqs a.val = some r → r.stopped = none →
    inferDone s r = true → r.deadline = some d → d.toNat < (tideOf s).toNat → reqDiscards s a.val = false →
    ∃ u, exec (.inferComplete a) s = .next (askReady (finish a.val
        { status := St.deadlineMissed, result := inferResult r, poison := r.poison } u)) ∧
      Only [.counters, .events, .held, .out, .que, .hbr, .free] s u)

/-- O25 (tier 2). LOAD_MANIFEST of a well-formed manifest: one already recorded completes with SUCCESS; else, with a
record free, one that no trusted key pair signed with SIGNATURE_INVALID, an adapter image whose target is no weight
image here with IMAGE_UNKNOWN, any other with SUCCESS and a new record. One that is not well formed ends with
SHARD_FORMAT and is counted. LOAD_SHARD begins its verify pass where the image is known, the shard listed, not already
loading and neither present nor written unless flagged, and a slot is placed on it. A verify pass that fails its hash
starts anew up to the limit and then ends with SHARD_REJECTED; one whose bytes are no shard of the image ends with
SHARD_FORMAT; a sound one goes on to programming; a failed host read ends either pass with HOST_ACCESS. A program pass
waits while pulses are paused or every program slot is taken; one whose slices must move and find no bank ends with
CAPACITY. Rests on R228, R231, R232, R233, R235, R236, R237, R239, R240, R260. -/
def Obligations.ImageLoading : Prop :=
  (∀ (a : Fin 4096) (c : Cmd) (m : HostRead) (b : Bytes) (k : Nat) (s : State), cmdAt s a.val 0x10 = some c →
    entArg c.entry = 0xFFFFFFFF → hostData (fld c.entry 0x18 8) m = some b → manifestOk b (fld c.entry 0x18 8) = true →
    freeKey s.model.images 128 = some k →
    let r := newImage b
    let o := 0x80 + 64 * fld b 8 4
    let status :=
      if (imageNamed s (manifestHash b)).isSome then St.success
      else if publisherSigned s r.keySlot r.hash (sub b o 384) (sub b (o + 384) 16224) = false then St.signatureInvalid
      else if r.adapters = true ∧ ¬ (∃ e, imageNamed s r.target = some e ∧ e.2.adapters = false) then St.imageUnknown
      else St.success
    Finishes (.loadManifest a m) s a.val status fun u =>
      Only [.model] s u ∧ u.model = (if status = St.success ∧ imageNamed s (manifestHash b) = none
        then { s.model with images := tset s.model.images k r } else s.model)) ∧
  (∀ (a : Fin 4096) (c : Cmd) (m : HostRead) (b : Bytes) (s : State), cmdAt s a.val 0x10 = some c →
    entArg c.entry = 0xFFFFFFFF → hostData (fld c.entry 0x18 8) m = some b → manifestOk b (fld c.entry 0x18 8) = false →
    Finishes (.loadManifest a m) s a.val St.shardFormat fun u => u = bump (ob 0x7044 1) s) ∧
  (∀ (a : Fin 4096) (c : Cmd) (hash : HostRead) (h : Bytes) (k : Nat) (r : ImageRec) (s : State), cmdAt s a.val 0x10 = some c →
    entArg c.entry ≠ 0xFFFFFFFF → hostData 48 hash = some h → imageNamed s h = some (k, r) →
    entArg c.entry < r.shards.length → (s.model.loads.any fun l => l.2.image = k && l.2.shard = entArg c.entry) = false →
    ((r.present.contains (entArg c.entry) = false ∧ r.written.contains (entArg c.entry) = false) ∨
      (tget? r.refetch (entArg c.entry)).isSome = true) →
    (r.adapters = true ∨ imageTargets s r.hash (tget? r.refetch (entArg c.entry)).isSome ≠ []) →
    Completes (.loadShard a hash) s fun t =>
      tget? t.model.loads a.val = some
        { image := k, shard := entArg c.entry, attempt := 1, programming := false, sealing := false,
          refetch := (tget? r.refetch (entArg c.entry)).isSome && r.present.contains (entArg c.entry) } ∧
      tget? t.que.cmds a.val = some { c with stage := .running } ∧ Only [.model, .que] s t) ∧
  (∀ (a : Fin 4096) (l : Load) (img : ImageRec) (r : ShardRec) (shard : HostRead) (b : Bytes) (sound : Bool) (s : State),
    loadOf s a.val = some (l, img, r) → l.programming = false → passData (loadRoom s a.val) shard = some (b, sound) →
    if shardMatches r b sound = false then
      if l.attempt ≤ dictNum s (ob 0x7042 1) then
        Completes (.verifyPassDone a shard) s fun t =>
          tget? t.model.loads a.val = some { l with attempt := l.attempt + 1, programming := false, sealing := false } ∧
          counterOf t (ob 0x7043 1) = counterOf s (ob 0x7043 1) + 1 ∧ Only [.model, .counters] s t
      else Finishes (.verifyPassDone a shard) s a.val St.shardRejected fun u =>
        u.model.loads = tdel s.model.loads a.val ∧ counterOf u (ob 0x7044 1) = counterOf s (ob 0x7044 1) + 1 ∧
        Only [.model, .counters] s u
    else if shardFormatOk s img l.shard r l.refetch b = false then
      Finishes (.verifyPassDone a shard) s a.val St.shardFormat fun u =>
        u.model.loads = tdel s.model.loads a.val ∧ counterOf u (ob 0x7044 1) = counterOf s (ob 0x7044 1) + 1 ∧
        Only [.model, .counters] s u
    else Completes (.verifyPassDone a shard) s fun t =>
      tget? t.model.loads a.val = some { l with programming := true } ∧ Only [.model] s t) ∧
  (∀ (a : Fin 4096) (l : Load) (img : ImageRec) (r : ShardRec) (s : State), loadOf s a.val = some (l, img, r) →
    l.programming = false →
    Finishes (.verifyPassDone a .failed) s a.val St.hostAccess fun u =>
      u.model = { s.model with loads := tdel s.model.loads a.val } ∧ Only [.model] s u) ∧
  (∀ (a : Fin 4096) (l : Load) (img : ImageRec) (r : ShardRec) (s : State), loadOf s a.val = some (l, img, r) →
    l.programming = true → l.sealing = false → s.awl.paused = false → slotsUsed s < 1536 →
    Finishes (.programPassDone a .failed) s a.val St.hostAccess fun u =>
      u.model = { s.model with loads := tdel s.model.loads a.val } ∧ Only [.model] s u) ∧
  (∀ (a : Fin 4096) (l : Load) (img : ImageRec) (r : ShardRec) (shard : HostRead) (b : Bytes) (sound : Bool) (s : State),
    loadOf s a.val = some (l, img, r) → l.programming = true → passData (loadRoom s a.val) shard = some (b, sound) →
    if s.awl.paused = true ∨ 1536 ≤ slotsUsed s then exec (.programPassDone a shard) s = .next s
    else Completes (.programPassDone a shard) s fun t =>
      t = (if img.adapters then adapterPass a.val l img r b sound s else weightPass a.val l img r b sound s) ∧
      Only [.doms, .time, .cause, .counters, .events, .monitors, .que, .held, .model, .hbr, .banks, .awl, .scheds, .integ, .out] s t) ∧
  (∀ (a : Fin 4096) (l : Load) (img : ImageRec) (r : ShardRec) (shard : HostRead) (b : Bytes) (sound : Bool) (s : State),
    loadOf s a.val = some (l, img, r) → l.programming = true → l.sealing = false → img.adapters = false →
    passData (loadRoom s a.val) shard = some (b, sound) → s.awl.paused = false → slotsUsed s < 1536 →
    movePieces l (loadPieces l img r b) (imageTargets s img.hash l.refetch) s = none →
    Finishes (.programPassDone a shard) s a.val St.capacity fun u =>
      u.model = { s.model with loads := tdel s.model.loads a.val } ∧ Only [.model] s u)

/-- O26 (tier 2). A program pass over places that are ready, none of which must move or is spilled, of bytes that hash to
the manifest's entry, leaves the shard written and its load waiting for its banks to seal, until the loads and images
are settled. Of other bytes it undoes what it wrote and starts a new verify pass, or ends the load with SHARD_REJECTED
after the last attempt. Rests on R231, R232, R237, R239, R240. -/
def Obligations.ImagePassSealsOrRetries : Prop :=
  ∀ (a : Fin 4096) (l : Load) (img : ImageRec) (r : ShardRec) (b : Bytes) (sound : Bool) (s : State),
    tget? s.model.images l.image = some img → l.sealing = false →
    (∀ t ∈ imageTargets s img.hash true, ∀ q ∈ t.places, q.spill = false) →
    (∀ t ∈ imageTargets s img.hash l.refetch, ∀ p ∈ loadPieces l img r b,
      placeReady s l t p = true ∧ ∀ q ∈ (targetNow s t).places, mustMove s l (targetNow s t) q = false) →
    if shardMatches r b sound then
      ∃ u, weightPass a.val l img r b sound s = settleImages u ∧
        (∃ i, tget? u.model.images l.image = some i ∧ l.shard ∈ i.written) ∧
        tget? u.model.loads a.val = some { l with sealing := true }
    else ∃ u, weightPass a.val l img r b sound s =
        retryLoad a.val l (unsealPieces l.image (passBanks (imageTargets s img.hash l.refetch) (loadPieces l img r b)) u) ∧
      u.model = s.model

/-- O27 (tier 2). COMMIT_IMAGE of an image whose shards are not all present completes with IMAGE_PARTIAL, the number
missing and the first of them; of a COMPLETE image it commits the record, makes the slots PLACED on it RESIDENT at
generation 1, and its adapters usable. DROP_IMAGE of an image that no slot, swap, load or context uses deletes its
record and completes with SUCCESS; of one in use it completes with BUSY. A hash that names no record gives
IMAGE_UNKNOWN. REFETCH_REMINDER only raises events. Rests on R233, R241, R242, R245, R260. -/
def Obligations.ImageCommitAndDrop : Prop :=
  (∀ (a : Fin 4096) (c : Cmd) (hash : HostRead) (h : Bytes) (s : State), cmdAt s a.val 0x11 = some c →
    hostData 48 hash = some h → imageNamed s h = none → Finishes (.commitImage a hash) s a.val St.imageUnknown fun u => u = s) ∧
  (∀ (a : Fin 4096) (c : Cmd) (hash : HostRead) (h : Bytes) (k : Nat) (r : ImageRec) (s : State), cmdAt s a.val 0x11 = some c →
    hostData 48 hash = some h → imageNamed s h = some (k, r) → r.state = .partly →
    let missing := (List.range r.shards.length).filter fun n => !r.present.contains n
    exec (.commitImage a hash) s = .next
      (finish a.val { status := St.imagePartial, result := missing.length + missing.headD 0 * 2 ^ 32 } s)) ∧
  (∀ (a : Fin 4096) (c : Cmd) (hash : HostRead) (h : Bytes) (k : Nat) (r : ImageRec) (s : State), cmdAt s a.val 0x11 = some c →
    hostData 48 hash = some h → imageNamed s h = some (k, r) → r.state ≠ .partly →
    Finishes (.commitImage a hash) s a.val St.success fun u =>
      tget? u.model.images k = some { r with state := .committed } ∧ Only [.model] s u ∧
      (∀ n sl, tget? s.model.slots n = some sl → sl.state = .placed → sl.imageHash = r.hash →
        ∃ v, tget? u.model.slots n = some v ∧ v.state = .resident ∧ v.gen = (if sl.gen = 0 then 1 else sl.gen)) ∧
      (∀ n x, tget? s.model.adapters n = some x → x.image = k → ∃ y, tget? u.model.adapters n = some y ∧ y.usable = true)) ∧
  (∀ (a : Fin 4096) (c : Cmd) (hash : HostRead) (h : Bytes) (k : Nat) (r : ImageRec) (s : State),
    cmdSub s a.val 0x19 3 = some c → hostData 48 hash = some h → imageNamed s h = some (k, r) →
    if imageUsed s r.hash ∨ adapterInUse s k = true ∨ (s.model.loads.any fun l => l.2.image = k) = true then
      Finishes (.dropImage a hash) s a.val St.busy fun u => u = s
    else Finishes (.dropImage a hash) s a.val St.success fun u =>
      u.model.images = tdel s.model.images k ∧ u.model.slots = s.model.slots ∧ Only [.doms, .time, .cause, .counters, .events, .held, .model, .hbr, .banks, .awl, .scheds, .integ, .out] s u) ∧
  (∀ s : State, uzomelRuns s = true → Completes .refetchReminder s fun t => Only [.counters, .events, .held, .out] s t)

/-- O28 (tier 2). SWAP_STAGE on a slot that is neither RESIDENT nor BOUND completes with LAST_STATE; on one with no swap,
a file that fails its checks completes with their status, one that may not replace the slot's Last with
SWAP_INCOMPATIBLE, and any other is staged by its mode. SWAP_SWITCH of a staged swap outside a group makes the pending
generation current at once and completes with SUCCESS; of a slot without one it completes with SWAP_STATE; of a shadow
swap whose image is not committed with IMAGE_PARTIAL. In a group it waits for its SWITCH_TIDE. SWAP_ABORT before the
switch gives the swap up, after it completes with SWAP_STATE. When the old generation has no request and no launch
left it retires. Then LAYER_REWRITE_DONE of the layer at an in-place swap's front programs the layer, and of one that
is programmed and sealed opens its barrier: the front moves on and the waiting requests are asked for their next step.
Rests on R245, R248, R250, R251, R252, R253, R255, R257, R258. -/
def Obligations.SwapCommands : Prop :=
  (∀ (a : Fin 4096) (c : Cmd) (file table : HostRead) (choice : List Placed) (s : State), cmdSub s a.val 0x12 0 = some c →
    entSlot c.entry < 64 → entArg c.entry ≤ 2 → (slotOf s (entSlot c.entry)).state ≠ .resident →
    (slotOf s (entSlot c.entry)).state ≠ .bound → Finishes (.swapStage a file table choice) s a.val St.lastState fun u => u = s) ∧
  (∀ (a : Fin 4096) (c : Cmd) (file table : HostRead) (choice : List Placed) (b : Bytes) (s : State),
    cmdSub s a.val 0x12 0 = some c → entSlot c.entry < 64 → entArg c.entry ≤ 2 →
    ((slotOf s (entSlot c.entry)).state = .resident ∨ (slotOf s (entSlot c.entry)).state = .bound) →
    (slotOf s (entSlot c.entry)).detaching = false → (slotOf s (entSlot c.entry)).swap = none →
    hostData (fld c.entry 0x18 8) file = some b →
    match checkLast s b with
    | .inl st => Finishes (.swapStage a file table choice) s a.val st fun u => u = s
    | .inr f =>
      if swapCompatible (slotOf s (entSlot c.entry)) f = false then
        Finishes (.swapStage a file table choice) s a.val St.swapIncompatible fun u => u = s
      else Completes (.swapStage a file table choice) s fun t =>
        t = stageChecked a.val c (entSlot c.entry) f table choice s ∧ Only [.doms, .time, .cause, .counters, .events, .monitors, .que, .held, .model, .hbr, .banks, .islands, .integ, .out] s t) ∧
  (∀ (a : Fin 4096) (c : Cmd) (s : State), cmdSub s a.val 0x12 1 = some c → entSlot c.entry < 64 →
    (∀ e ∈ s.que.cmds, e.2.stage ≠ .admitted ∨ entOpcode e.2.entry ≠ 1) → (slotOf s (entSlot c.entry)).swap = none →
    Finishes (.swapSwitch a) s a.val St.swapState fun u => u = s) ∧
  (∀ (a : Fin 4096) (c : Cmd) (w : Swap) (s : State), cmdSub s a.val 0x12 1 = some c → entSlot c.entry < 64 →
    (∀ e ∈ s.que.cmds, e.2.stage ≠ .admitted ∨ entOpcode e.2.entry ≠ 1) → (slotOf s (entSlot c.entry)).swap = some w →
    w.switched = false → w.interrupted = false → w.switchTide = none → (slotOf s (entSlot c.entry)).modules ≤ 1 →
    fld c.entry 0x10 8 = 0 →
    if w.mode = .shadow ∧ (w.committed = false ∨ ((imageNamed s w.imageHash).any fun e => e.2.state == .committed) = false) then Finishes (.swapSwitch a) s a.val St.imagePartial fun u => u = s
    else Finishes (.swapSwitch a) s a.val St.success fun u =>
      let old := slotOf s (entSlot c.entry)
      let new := slotOf u (entSlot c.entry)
      (if old.lastHash = w.lastHash ∧ w.mode = .inPlace then new.gen = old.gen
       else new.gen = nextGen old.gen ∧ new.oldGen = some old.gen ∧ new.oldPlan = old.plan ∧ new.oldPlaces = old.places ∧
        new.oldImage = old.imageHash) ∧
      (old.lastHash = w.lastHash ∧ w.mode = .inPlace ∨ (new.plan = some w.plan ∧ new.places = w.places ∧ new.lastHash = w.lastHash)) ∧
      new.swap = some { w with switched := true, switchTide := none } ∧ Only [.values, .counters, .model, .strait, .out] s u) ∧
  (∀ (a : Fin 4096) (c : Cmd) (w : Swap) (s : State), cmdSub s a.val 0x12 1 = some c → entSlot c.entry < 64 →
    (∀ e ∈ s.que.cmds, e.2.stage ≠ .admitted ∨ entOpcode e.2.entry ≠ 1) → (slotOf s (entSlot c.entry)).swap = some w →
    w.switched = false → w.interrupted = false → w.switchTide = none →
    1 < (slotOf s (entSlot c.entry)).modules → membersOf s ≠ [] → w.mode = .inPlace → fld c.entry 0x10 8 ≠ 0 →
    Finishes (.swapSwitch a) s a.val St.success fun u =>
      (slotOf u (entSlot c.entry)).swap = some { w with switchTide := some (BitVec.ofNat 64 (fld c.entry 0x10 8)) } ∧
      Only [.model] s u) ∧
  (∀ (slot : Fin 64) (w : Swap) (tide : BitVec 64) (s : State), (slotOf s slot.val).swap = some w → w.switchTide = some tide →
    if tide.toNat ≤ (tideOf s).toNat then Completes (.groupSwitchTide slot) s fun t => t = switchNow slot.val s ∧ Only [.values, .counters, .model, .strait, .out] s t
    else exec (.groupSwitchTide slot) s = .next s) ∧
  (∀ (a : Fin 4096) (c : Cmd) (w : Swap) (s : State), cmdSub s a.val 0x12 2 = some c → entSlot c.entry < 64 →
    (slotOf s (entSlot c.entry)).swap = some w → w.switched = false → w.interrupted = false → w.switchTide = none →
    ¬(w.mode = .inPlace ∧ (slotOf s (entSlot c.entry)).lastHash = w.lastHash) →
    Finishes (.swapAbort a) s a.val St.success fun u =>
      u = abortSwap (entSlot c.entry) w s ∧ (slotOf u (entSlot c.entry)).swap = none) ∧
  (∀ (a : Fin 4096) (c : Cmd) (w : Swap) (s : State), cmdSub s a.val 0x12 2 = some c → entSlot c.entry < 64 →
    (slotOf s (entSlot c.entry)).swap = some w → (w.switched = true ∨ w.interrupted = true ∨ w.switchTide ≠ none ∨
      (w.mode = .inPlace ∧ (slotOf s (entSlot c.entry)).lastHash = w.lastHash)) →
    Finishes (.swapAbort a) s a.val St.swapState fun u => u = s) ∧
  (∀ (a : Fin 4096) (c : Cmd) (s : State), cmdSub s a.val 0x12 2 = some c → entSlot c.entry < 64 →
    (slotOf s (entSlot c.entry)).swap = none → Finishes (.swapAbort a) s a.val St.swapState fun u => u = s) ∧
  (∀ (slot : Fin 64) (g : BitVec 16) (w : Swap) (s : State), (slotOf s slot.val).oldGen = some g →
    (slotOf s slot.val).swap = some w → genRetired s slot.val g = true → Completes (.generationRetire slot) s fun t =>
      (slotOf t slot.val).oldGen = none ∧ (slotOf t slot.val).oldPlaces = [] ∧ (slotOf t slot.val).oldPlan = none ∧
      (slotOf t slot.val).gen = (slotOf s slot.val).gen ∧ Only [.doms, .time, .cause, .counters, .events, .held, .model, .hbr, .banks, .islands, .awl, .scheds, .integ, .out] s t) ∧
  (∀ (slot : Fin 64) (g : BitVec 16) (s : State), (slotOf s slot.val).oldGen = some g → genRetired s slot.val g = false →
    exec (.generationRetire slot) s = .next s) ∧
  (∀ (slot : Fin 64) (layer k : Nat) (shards : List HostRead) (w : Swap) (img : ImageRec) (s : State),
    (slotOf s slot.val).swap = some w → w.mode = .inPlace → w.switched = true → w.interrupted = false →
    (slotOf s slot.val).oldGen = none → w.front.head? = some layer → imageNamed s w.imageHash = some (k, img) →
    let target : Target := { slot := slot.val, plan := w.plan, places := w.places, pending := true, inPlace := true }
    let need := layerShards target layer img
    if s.awl.paused = true ∨ 1536 ≤ slotsUsed s then exec (.layerRewriteDone slot layer shards) s = .next s
    else if w.rewritten = false ∧ need.length ≤ shards.length then
      Completes (.layerRewriteDone slot layer shards) s fun t =>
        t = programLayer slot.val k img w target (need.zip shards) s ∧ Only [.power, .doms, .gov, .time, .cause, .counters, .events, .monitors, .que, .held, .model, .flow, .hbr, .banks, .islands, .clusters, .awl, .scheds, .integ, .strait, .out, .free] s t
    else if w.rewritten = false then exec (.layerRewriteDone slot layer shards) s = .next s
    else if layerSealed s target layer img = true ∧ 1 < w.front.length then
      Completes (.layerRewriteDone slot layer shards) s fun t =>
        t = askReady (modSlot slot.val (fun sl => { sl with
          swap := sl.swap.map fun x => { x with front := w.front.drop 1, stopped := false, rewritten := false } }) s)
    else Completes (.layerRewriteDone slot layer shards) s fun t => Only [.power, .doms, .gov, .time, .cause, .counters, .events, .monitors, .que, .held, .model, .flow, .hbr, .banks, .islands, .clusters, .awl, .scheds, .integ, .strait, .out, .free] s t)

/-- O29 (tier 2). PLACE writes a report before its completion. A file that cannot be read gives HOST_ACCESS at offset
0x10, one that fails a check that check's status and result 255; a sound one, with no slot free, RESOURCE_LIMIT; for
an image already resident it takes the lowest free slot, RESIDENT at once, on the same banks; else, where the placer
finds no fit, CAPACITY; with a fit whose expected loss is beyond the limit SPILL_REFUSED, and within it the slot is
PLACED on the chosen banks. RELEASE of a PLACED or RESIDENT slot that no swap or earlier bind holds begins to release
it; of another it completes with LAST_STATE. A RELEASING slot that owns no bank is FREE. RE_PLACEMENT of a lost place
moves its bank to a fresh bank where the placer has one, asserts FAULT_N for a BOUND Last where it has none and spills
nothing, and changes nothing where the place is not lost. Rests on R201, R202, R203, R204, R209, R210, R211, R213,
R214, R217, R26. -/
def Obligations.PlacementCommands : Prop :=
  (∀ (a : Fin 4096) (c : Cmd) (file : HostRead) (choice : List Placed) (b : Bytes) (s : State), cmdSub s a.val 0x18 0 = some c →
    hostData (fld c.entry 0x18 8) file = some b →
    match checkLast s b with
    | .inl st => ∃ rep, exec (.place a file choice) s = .next (finish a.val { status := st, result := 0xFF } (sendReport c rep s))
    | .inr f =>
      match freeSlotNumber s with
      | none => ∃ rep, exec (.place a file choice) s = .next
          (finish a.val { status := St.resourceLimit, result := 0xFF } (sendReport c rep s))
      | some n =>
        match residentOn s f.image with
        | some other => ∃ u rep, exec (.place a file choice) s = .next
            (finish a.val { status := St.success, result := n } (sendReport c rep u)) ∧
            (slotOf u n).state = .resident ∧ (slotOf u n).places = other.2.places ∧ Only [.model, .banks] s u
        | none =>
          match placerChoice s n f.plan false [] (fun _ => none) choice with
          | none => ∃ rep, exec (.place a file choice) s = .next
              (finish a.val { status := St.capacity, result := 0xFF } (sendReport c rep s))
          | some l =>
            if dictNum s (ob 0x7011 1) < expectedLoss f.plan l then ∃ rep, exec (.place a file choice) s = .next
              (finish a.val { status := St.spillRefused, result := 0xFF } (sendReport c rep s))
            else ∃ u rep, exec (.place a file choice) s = .next
              (finish a.val { status := St.success, result := n } (sendReport c rep u)) ∧
              (slotOf u n).state = .placed ∧ (slotOf u n).places = l ∧ Only [.model, .banks] s u) ∧
  (∀ (a : Fin 4096) (c : Cmd) (choice : List Placed) (s : State), cmdSub s a.val 0x18 0 = some c →
    ∃ rep, exec (.place a .failed choice) s = .next (finish a.val { status := St.hostAccess, detail := 0x10 } (sendReport c rep s))) ∧
  (∀ (a : Fin 4096) (c : Cmd) (s : State), cmdSub s a.val 0x19 1 = some c → bindWaits s c = false → entSlot c.entry < 64 →
    ((slotOf s (entSlot c.entry)).state = .placed ∨ (slotOf s (entSlot c.entry)).state = .resident) →
    swapBusy s (slotOf s (entSlot c.entry)) = false →
    ∃ u v, exec (.release a) s = .next (finish a.val { status := St.success, result := 0 } u) ∧
      (slotOf v (entSlot c.entry)).state = .releasing ∧ (slotOf v (entSlot c.entry)).places = [] ∧
      (slotOf v (entSlot c.entry)).swap = none ∧
      u = imageReleased (slotOf s (entSlot c.entry)).imageHash (stopOrphanLoads (slotOf s (entSlot c.entry)).imageHash
        (returnBanks (entSlot c.entry) (slotBanks (slotOf s (entSlot c.entry)))
          (abandonMoves (entSlot c.entry) (slotBanks (slotOf s (entSlot c.entry))) v))) ∧
      (∀ g ∈ v.que.groups, g.2 ≠ entSlot c.entry) ∧ Only [.model, .que, .power] s v) ∧
  (∀ (a : Fin 4096) (c : Cmd) (s : State), cmdSub s a.val 0x19 1 = some c → bindWaits s c = false → entSlot c.entry < 64 →
    (slotOf s (entSlot c.entry)).state ≠ .placed → (slotOf s (entSlot c.entry)).state ≠ .resident →
    Finishes (.release a) s a.val St.lastState fun u => u = s) ∧
  (∀ (slot : Fin 64) (s : State), (slotOf s slot.val).state = .releasing →
    if (s.banks.any fun b => b.2.owners.contains slot.val) = true then exec (.lastSlotFreed slot) s = .next s
    else Completes (.lastSlotFreed slot) s fun t => t.model = { s.model with slots := tdel s.model.slots slot.val } ∧ Only [.model] s t) ∧
  (∀ (slot : Fin 64) (slice : Nat) (target : Option Placed) (q : Placed) (p : LastPlan) (s : State),
    ((slotOf s slot.val).state = .placed ∨ (slotOf s slot.val).state = .resident ∨ (slotOf s slot.val).state = .bound) →
    ((slotOf s slot.val).places.find? fun q => q.slice = slice) = some q → (slotOf s slot.val).plan = some p →
    placeLost s q = true → moving s q.bank = false →
    match freshBank s slot.val p (slotOf s slot.val).places q.bank slice q.spill (target.map fun t => t.bank) with
    | some n => Completes (.rePlacement slot slice target) s fun t =>
        t = replaceBank q.bank n q.spill s ∧ Only [.power, .doms, .time, .cause, .counters, .events, .held, .model, .hbr, .banks, .islands, .awl, .scheds, .integ, .out] s t
    | none =>
      match if q.spill then none else (recOf p slice).bind fun r => spillFor s p (slotOf s slot.val).places r with
      | some l => Completes (.rePlacement slot slice target) s fun t => t = spillInto slot.val l s ∧ Only [.power, .doms, .time, .cause, .counters, .events, .held, .model, .hbr, .banks, .islands, .awl, .scheds, .integ, .out] s t
      | none =>
        if (slotOf s slot.val).state = .bound ∧ s.power.unplaceable.contains slot.val = false then
          Completes (.rePlacement slot slice target) s fun t =>
            t.power.unplaceable = insertUp slot.val s.power.unplaceable ∧ t.power.faultN = true ∧ t.model = s.model ∧ t.banks = s.banks
        else exec (.rePlacement slot slice target) s = .next s) ∧
  (∀ (slot : Fin 64) (slice : Nat) (q : Placed) (target : Option Placed) (s : State),
    ((slotOf s slot.val).places.find? fun q => q.slice = slice) = some q → placeLost s q = false →
    exec (.rePlacement slot slice target) s = .next s)

/-- O30 (tier 2). ATTACH of a RESIDENT slot whose groups are free and whose island set no BOUND Last overlaps (or with
DISPLACE) gives the slot its groups, begins to drain the Lasts that it displaces, and goes on as far as it can. DETACH
of a BOUND slot drains it. BIND_QUEUE sets a pair's group. An operation that names something that an earlier one still
holds waits. BIND_DRAIN_END lets a draining ATTACH or DETACH go on. Rests on R202, R208, R215, R216, R218, R219, R221. -/
def Obligations.BindCommands : Prop :=
  (∀ (a : Fin 4096) (c : Cmd) (groups : HostRead) (b : Bytes) (s : State), cmdSub s a.val 0x18 1 = some c → bindWaits s c = false →
    entSlot c.entry < 64 → (slotOf s (entSlot c.entry)).state = .resident → swapBusy s (slotOf s (entSlot c.entry)) = false →
    strictMet s (slotOf s (entSlot c.entry)) = true → entArg c.entry ≤ 4096 → hostData (2 * entArg c.entry) groups = some b →
    (∀ g ∈ attachGroups b (entArg c.entry), g < 4096 ∧ (groupSlot s g = none ∨ groupSlot s g = some (entSlot c.entry))) →
    (rivals s (entSlot c.entry) = [] ∨ bitAt (entFlags c.entry) 0 = true) →
    (∀ m ∈ rivals s (entSlot c.entry), swapBusy s (slotOf s m) = false) →
    ∃ u, exec (.attach a groups) s = .next (bindProgress a.val u) ∧
      (∀ g ∈ attachGroups b (entArg c.entry), groupSlot u g = some (entSlot c.entry)) ∧
      (∀ m ∈ rivals s (entSlot c.entry), (slotOf u m).detaching = true) ∧
      (tget? u.que.cmds a.val).map (fun x => x.stage) = some .draining ∧ Only [.que, .model, .counters] s u) ∧
  (∀ (a : Fin 4096) (c : Cmd) (groups : HostRead) (s : State), cmdSub s a.val 0x18 1 = some c → bindWaits s c = false →
    entSlot c.entry < 64 → (slotOf s (entSlot c.entry)).state ≠ .resident →
    Finishes (.attach a groups) s a.val St.lastState fun u => u = s) ∧
  (∀ (a : Fin 4096) (c : Cmd) (s : State), cmdSub s a.val 0x19 0 = some c → bindWaits s c = false → entSlot c.entry < 64 →
    (slotOf s (entSlot c.entry)).state = .bound → swapBusy s (slotOf s (entSlot c.entry)) = false →
    ∃ u, exec (.detach a) s = .next (bindProgress a.val u) ∧ (slotOf u (entSlot c.entry)).detaching = true ∧
      (tget? u.que.cmds a.val).map (fun x => x.stage) = some .draining ∧ Only [.que, .model] s u) ∧
  (∀ (a : Fin 4096) (c : Cmd) (s : State), cmdSub s a.val 0x19 0 = some c → bindWaits s c = false → entSlot c.entry < 64 →
    (slotOf s (entSlot c.entry)).state ≠ .bound → Finishes (.detach a) s a.val St.lastState fun u => u = s) ∧
  (∀ (a : Fin 4096) (c : Cmd) (s : State), cmdSub s a.val 0x18 2 = some c → bindWaits s c = false →
    entArg c.entry < 16384 →
    (fld c.entry 0x10 2 < 4096 ∨ fld c.entry 0x10 2 = 0xFFFF) → Finishes (.bindQueue a) s a.val St.success fun u =>
      pairOf u (entArg c.entry) = { pairOf s (entArg c.entry) with group := BitVec.ofNat 16 (fld c.entry 0x10 2) } ∧
      Only [.que] s u) ∧
  (∀ (a : Fin 4096) (c : Cmd) (s : State), cmdSub s a.val 0x18 2 = some c → bindWaits s c = true →
    exec (.bindQueue a) s = .next s) ∧
  (∀ (a : Fin 4096) (c : Cmd) (s : State), tget? s.que.cmds a.val = some c → c.stage = .draining →
    ((entOpcode c.entry = 0x18 ∧ entSubop c.entry = 1) ∨ (entOpcode c.entry = 0x19 ∧ entSubop c.entry = 0)) →
    exec (.bindDrainEnd a) s = .next (bindProgress a.val s)) ∧
  (∀ (a : Nat) (c : Cmd) (s : State), tget? s.que.cmds a = some c → entOpcode c.entry = 0x19 →
    if slotDrained s (entSlot c.entry) then
      ∃ u, bindProgress a s = finishDrain a u ∧ (slotOf u (entSlot c.entry)).state = .resident ∧
        (slotOf u (entSlot c.entry)).detaching = false
    else bindProgress a s = s)

/-- O31 (tier 2). BIND_SEGMENT to HOST, of a segment above 1 that no change, no other operation and no enabled ring holds
and that no BOUND Last needs, begins the change: its free handles leave every pool and the command waits.
UNBIND_SEGMENT of one whose domain has not FAILED does the same towards FREE, and of a FAILED one frees it at once.
When no handle of the segment is held and its domain is ON, SEGMENT_HANDOVER starts its clear. While cover copies or
cached adapters need space, a FREE segment above 1 becomes SHARED while fewer are held than the limit, and a SHARED
one that no cover and no cached adapter uses is given back. Rests on R159, R160, R161, R164, R219, R354. -/
def Obligations.SegmentCommands : Prop :=
  (∀ (a : Fin 4096) (c : Cmd) (s : State), cmdSub s a.val 0x18 3 = some c → bindWaits s c = false → 2 ≤ entArg c.entry →
    entArg c.entry ≤ 15 → fld c.entry 0x10 1 = 5 → domState s (domSeg (entArg c.entry)) ≠ .failed →
    onlySegment s (entArg c.entry) = false → pairInSeg s (entArg c.entry) = false → (segOf s (entArg c.entry)).next = none →
    ∃ u, exec (.bindSegment a) s = .next (startDrain a.val (!segHeld s (entArg c.entry)) u) ∧
      segOf u (entArg c.entry) = { segOf s (entArg c.entry) with next := some (.host, 0xFFFF), waiter := some a.val } ∧
      (∀ p ∈ u.flow.pools, ∀ h ∈ p.2, inSeg (entArg c.entry) h = false) ∧
      Only [.doms, .cause, .counters, .model, .flow, .segs] s u) ∧
  (∀ (a : Fin 4096) (c : Cmd) (s : State), cmdSub s a.val 0x18 3 = some c → bindWaits s c = false →
    (entArg c.entry < 2 ∨ 15 < entArg c.entry) →
    exec (.bindSegment a) s = .next (finish a.val { status := St.outOfRange, detail := 4 } s)) ∧
  (∀ (a : Fin 4096) (c : Cmd) (s : State), cmdSub s a.val 0x19 2 = some c → bindWaits s c = false → 2 ≤ entArg c.entry →
    entArg c.entry ≤ 15 →
    if domState s (domSeg (entArg c.entry)) = .failed then
      Finishes (.unbindSegment a) s a.val St.success fun u =>
        segOf u (entArg c.entry) = { use := .free, holder := 0xFFFF, next := none, waiter := none } ∧
        Only [.model, .flow, .segs] s u
    else if pairInSeg s (entArg c.entry) = true ∨ (segOf s (entArg c.entry)).next ≠ none then
      Finishes (.unbindSegment a) s a.val St.segmentBusy fun u => u = s
    else ∃ u, exec (.unbindSegment a) s = .next (startDrain a.val (!segHeld s (entArg c.entry)) u) ∧
      segOf u (entArg c.entry) = { segOf s (entArg c.entry) with next := some (.free, 0xFFFF), waiter := some a.val } ∧
      Only [.doms, .cause, .counters, .model, .flow, .segs] s u) ∧
  (∀ (seg : Fin 16) (s : State), (segOf s seg.val).next.isSome = true → segHeld s seg.val = false →
    domIsOn s (domSeg seg.val) = true → underClear s (seg.val * 2 ^ 26) = false → Completes (.segmentHandover seg) s fun t =>
      t.hbr.clears = s.hbr.clears ++ [(seg.val * 2 ^ 26, 2 ^ 26)] ∧ Only [.hbr, .que] s t) ∧
  (∀ (seg : Fin 16) (s : State), segHeld s seg.val = true → exec (.segmentHandover seg) s = .next s) ∧
  (∀ (seg : Fin 16) (s : State), 2 ≤ seg.val → (segOf s seg.val).use = .free → (segOf s seg.val).next = none →
    domState s (domSeg seg.val) ≠ .failed →
    let held := ((List.range 16).filter fun i => (segOf s i).use == .shared || (segOf s i).next == some (.shared, 0xFFFF)).length
    if sharedNeeded s = true ∧ held < sharedLimit s then Completes (.sharedSegmentTake seg) s fun t =>
      (segOf t seg.val).next = some (.shared, 0xFFFF) ∧ Only [.doms, .cause, .counters, .model, .flow, .segs] s t
    else exec (.sharedSegmentTake seg) s = .next s) ∧
  (∀ (seg : Fin 16) (s : State), (segOf s seg.val).use = .shared → (segOf s seg.val).next = none →
    (∀ c ∈ s.model.covers, ∀ h ∈ c.2.slabs, inSeg seg.val h = false) →
    (∀ e ∈ s.model.cache, ∀ h ∈ e.2, inSeg seg.val h = false) → Completes (.sharedSegmentReturn seg) s fun t =>
      (segOf t seg.val).next = some (.free, 0xFFFF) ∧ Only [.doms, .cause, .counters, .model, .flow, .segs] s t)

/-- O32 (tier 2). An access to a register by an initiator outside the register's class: a read answers zero and changes
nothing else, and a write, by whichever row it comes, changes nothing but SYS_PRIV_DROPS, which takes 1 more and stays
at 0xFFFF_FFFF. No Unsupported Request and no event follows. The bytes and reads of Awl's windows and completion FIFO,
of class CORE, do the same. Formalises R447. -/
def Obligations.AccessesOutsideTheClass : Prop :=
  (∀ (i : Initiator) (o : BitVec 24) (v : BitVec 32) (w : BitVec 64) (s : State) (c : RegClass) (d : Nat),
    barUp s = true → barSeen s i = true → regInfo s o.toNat = some (c, d) → inClass s i c = false →
    let dropped := { s with regs := { s.regs with
      privDrops := if s.regs.privDrops = 0xFFFFFFFF then 0xFFFFFFFF else s.regs.privDrops + 1 } }
    exec (.pairLoRead i o) s = .next { s with out := s.out ++ [.regData i 0] } ∧
    exec (.regWrite i o 4 w) s = .next dropped ∧
    (o = 0x8 ∨ o = 0x700008 → exec (.mwWrite i o v) s = .next dropped) ∧
    (isPairHi o.toNat = true → exec (.pairHiWrite i o v) s = .next dropped) ∧
    (isPairLo o.toNat = true → exec (.pairLoWrite i o v) s = .next dropped) ∧
    (o = 0xC ∨ o = 0x700000 → exec (.w1cWrite i o v) s = .next dropped) ∧
    (o ∈ [0x24, 0x10000, 0x20010, 0x20014, 0x200040] → exec (.configRegWrite i o v) s = .next dropped) ∧
    (o = 0x14 → exec (.cfgCrcRefWrite i v) s = .next dropped) ∧
    (o = 0x18 → exec (.cfgHoldWrite i v) s = .next dropped) ∧
    (o = 0x20018 → exec (.tideAlarmWrite i v) s = .next dropped)) ∧
  (∀ (i : Initiator) (ch : Fin 8) (o : BitVec 12) (b : Byte) (v : BitVec 32) (s : State), isCore i = false →
    let dropped := { s with regs := { s.regs with
      privDrops := if s.regs.privDrops = 0xFFFFFFFF then 0xFFFFFFFF else s.regs.privDrops + 1 } }
    exec (.awlCplPop i) s = .next { s with out := s.out ++ [.regData i 0] } ∧
    ∀ c ∈ [.awlBankSelWrite i ch v, .awlUnlockStep i ch o b, .awlWideWrite i ch o, .awlStrayByte i ch o b, .programRow i ch,
        .programWord i ch, .eraseBank i ch, .topUpRow i ch, .readRow i ch, .readMargin i ch, .setComputeMode i ch,
        .setStorageMode i ch, .sealBank i ch, .markBank i ch, .readStatus i ch, .resetToRead i ch, .suspend i ch, .resume i ch],
      exec c s = .next dropped)

/-- O33 (tier 2). An access, by an initiator in the class, to a register whose domain is in RET or OFF: a read answers
zero, a write is dropped, SYS_STATUS.DOM_OFF is set and reads back as 1 in SYS_STATUS bit 4, and nothing else changes,
so that the domain is not woken. Formalises R459. -/
def Obligations.SleepingDomainsAreNotWoken : Prop :=
  ∀ (i : Initiator) (o : BitVec 24) (v : BitVec 32) (w : BitVec 64) (s : State) (c : RegClass) (d : Nat),
    barUp s = true → barSeen s i = true → regInfo s o.toNat = some (c, d) → inClass s i c = true →
    domState s d = .ret ∨ domState s d = .off →
    let marked := { s with regs := { s.regs with domOff := true } }
    exec (.pairLoRead i o) s = .next { marked with out := s.out ++ [.regData i 0] } ∧
    exec (.regWrite i o 4 w) s = .next marked ∧
    (o = 0x8 ∨ o = 0x700008 → exec (.mwWrite i o v) s = .next marked) ∧
    (isPairHi o.toNat = true → exec (.pairHiWrite i o v) s = .next marked) ∧
    (isPairLo o.toNat = true → exec (.pairLoWrite i o v) s = .next marked) ∧
    (o = 0xC ∨ o = 0x700000 → exec (.w1cWrite i o v) s = .next marked) ∧
    (o ∈ [0x24, 0x10000, 0x20010, 0x20014, 0x200040] → exec (.configRegWrite i o v) s = .next marked) ∧
    (o = 0x14 → exec (.cfgCrcRefWrite i v) s = .next marked) ∧
    (o = 0x18 → exec (.cfgHoldWrite i v) s = .next marked) ∧
    (o = 0x20018 → exec (.tideAlarmWrite i v) s = .next marked) ∧
    bitAt (sysStatus marked) 4 = true

/-- O34 (tier 2). A mask-write that reaches its helper sets, of the base register's defined bits, exactly those that the
upper half of the value selects, each to the value's bit; every other bit and register is unchanged. A read of a
helper answers the base's low half, and a helper has the class of its base. A mask-write to an offset that holds no
helper changes nothing. A write of INT_CAUSE clears exactly the causes whose bit is 1 in the value; a write of
SYS_STATUS clears XDOM_DROP, DOM_OFF, HOLD_LONG and RANGE_DROP where bits 3, 4, 6 and 7 are 1, and changes nothing
else. Rests on R448, R449, R462, R466. -/
def Obligations.MaskWriteHelpers : Prop :=
  (∀ (i : Initiator) (v : BitVec 32) (s : State), barUp s = true → barSeen s i = true → regGate s i 0x700008 = .reach domCore →
    Completes (.mwWrite i 0x700008 v) s fun t =>
      { t.regs with intMask := s.regs.intMask } = s.regs ∧ Only [.regs] s t ∧
      ∀ n, t.regs.intMask.getLsbD n =
        if n < 9 ∧ v.getLsbD (16 + n) = true then v.getLsbD n else s.regs.intMask.getLsbD n) ∧
  (∀ (i : Initiator) (v : BitVec 32) (s : State), barUp s = true → barSeen s i = true → regGate s i 0x8 = .reach domCore →
    Completes (.mwWrite i 0x8 v) s fun t =>
      { t.regs with sysCtrl := s.regs.sysCtrl } = s.regs ∧ Only [.regs] s t ∧
      ∀ n, t.regs.sysCtrl.getLsbD n =
        if n < 1 ∧ v.getLsbD (16 + n) = true then v.getLsbD n else s.regs.sysCtrl.getLsbD n) ∧
  (∀ (i : Initiator) (s : State), barUp s = true → barSeen s i = true →
    (regGate s i 0x700008 = .reach domCore → exec (.pairLoRead i 0x700008) s =
      .next { s with out := s.out ++ [.regData i (BitVec.ofNat 64 (s.regs.intMask.toNat % 65536))] }) ∧
    (regGate s i 0x8 = .reach domCore → exec (.pairLoRead i 0x8) s =
      .next { s with out := s.out ++ [.regData i (BitVec.ofNat 64 (s.regs.sysCtrl.toNat % 65536))] })) ∧
  (∀ s : State, regInfo s 0x700008 = regInfo s 0x700004 ∧ regInfo s 0x8 = regInfo s 0x4) ∧
  (∀ (i : Initiator) (o : BitVec 24) (v : BitVec 32) (s : State), o ≠ 0x8 → o ≠ 0x700008 → exec (.mwWrite i o v) s = .next s) ∧
  (∀ (i : Initiator) (v : BitVec 32) (s : State), barUp s = true → barSeen s i = true → regGate s i 0x700000 = .reach domCore →
    Completes (.w1cWrite i 0x700000 v) s fun t =>
      (∀ n, t.regs.intCause.getLsbD n = (s.regs.intCause.getLsbD n && !v.getLsbD n)) ∧ Only [.cause] s t) ∧
  (∀ (i : Initiator) (v : BitVec 32) (s : State), barUp s = true → barSeen s i = true → regGate s i 0xC = .reach domCore →
    exec (.w1cWrite i 0xC v) s = .next { s with regs := { s.regs with
      xdomDrop := s.regs.xdomDrop && !v.getLsbD 3, domOff := s.regs.domOff && !v.getLsbD 4,
      holdLong := s.regs.holdLong && !v.getLsbD 6, rangeDrop := s.regs.rangeDrop && !v.getLsbD 7 } }) ∧
  (∀ (i : Initiator) (o : BitVec 24) (v : BitVec 32) (s : State), o ≠ 0xC → o ≠ 0x700000 → exec (.w1cWrite i o v) s = .next s)

/-- O35 (tier 2). A read of the low half of a pair answers bits 31:0 and copies bits 63:32 of the same instant into that
initiator's shadow; a read of the high half answers the shadow and changes nothing. A write of the high half of a
writable pair changes that initiator's stage alone. A write of the low half gives the pair the stage and the written
half as one value and clears that stage; no other initiator's stage changes. An aligned 8-byte write of a pair writes
the whole value. Rests on R445, R450, R451. -/
def Obligations.RegisterPairsDoNotTear : Prop :=
  (∀ (i : Initiator) (o : BitVec 24) (d : Nat) (s : State), barUp s = true → barSeen s i = true → isPairLo o.toNat = true →
    o ≠ 0x608400 → regGate s i o.toNat = .reach d →
    Completes (.pairLoRead i o) s fun t =>
      let v := visiblePair s i o.toNat
      t.out = s.out ++ [.regData i (BitVec.ofNat 64 (v.toNat % 2 ^ 32))] ∧
      (tget t.regs.shadows (halfKey i o.toNat) 0).toNat = v.toNat / 2 ^ 32 ∧
      { t.regs with shadows := s.regs.shadows } = s.regs ∧ Only [.regs, .out] s t ∧
      Completes (.pairLoRead i (o + 4)) t fun t' => regGate s i (o.toNat + 4) = .reach d →
        t'.out = t.out ++ [.regData i (BitVec.ofNat 64 (v.toNat / 2 ^ 32))] ∧ Only [.out] t t') ∧
  (∀ (i : Initiator) (o : BitVec 24) (d : Nat) (v : BitVec 32) (s : State), barUp s = true → barSeen s i = true →
    4 ≤ o.toNat → pairWritable (o.toNat - 4) = true → regGate s i o.toNat = .reach d →
    exec (.pairHiWrite i o v) s =
      .next { s with regs := { s.regs with stages := tset s.regs.stages (halfKey i (o.toNat - 4)) v } }) ∧
  (∀ (i : Initiator) (o : BitVec 24) (d : Nat) (v : BitVec 32) (s : State), barUp s = true → barSeen s i = true →
    pairWritable o.toNat = true → regGate s i o.toNat = .reach d → d = domCore ∨ s.regs.xdomBusy = false →
    Completes (.pairLoWrite i o v) s fun t =>
      pairValue t o.toNat = (tget s.regs.stages (halfKey i o.toNat) 0) ++ v ∧
      tget t.regs.stages (halfKey i o.toNat) 0 = 0 ∧
      (∀ k, k ≠ halfKey i o.toNat → tget? t.regs.stages k = tget? s.regs.stages k) ∧ Only [.doms, .time, .regs, .cause, .counters, .events, .monitors, .que, .held, .hbr, .awl, .integ, .out] s t) ∧
  (∀ (i : Initiator) (o : BitVec 24) (d : Nat) (w : BitVec 64) (s : State), barUp s = true → barSeen s i = true →
    pairWritable o.toNat = true → o.toNat % 8 = 0 → regGate s i o.toNat = .reach d → regGate s i (o.toNat + 4) = .reach d →
    d = domCore ∨ s.regs.xdomBusy = false →
    Completes (.regWrite i o 8 w) s fun t => pairValue t o.toNat = w ∧ Only [.doms, .time, .regs, .cause, .counters, .events, .monitors, .que, .held, .hbr, .awl, .integ, .out] s t)

/-- O36 (tier 2). An aligned 4-byte write that reaches SYS_CTRL, INT_MASK or PWR_DOM_SEL stores the whole value and
nothing else, but that a write to another domain also starts its crossing in POSTED mode, and is dropped with
XDOM_DROP and its interrupt cause while a crossing is in progress. A write of an offset that no table names changes
nothing. An access of another width or alignment ends in Unsupported Request at a port and in an access fault at a
core. The end of a crossing clears XDOM_BUSY alone. Rests on R445, R448, R458, R462, R463, R466. -/
def Obligations.PlainRegisterWrites : Prop :=
  (∀ (i : Initiator) (w : BitVec 64) (s : State), barUp s = true → barSeen s i = true →
    (regGate s i 0x4 = .reach domCore →
      exec (.regWrite i 0x4 4 w) s = .next { s with regs := { s.regs with sysCtrl := w.setWidth 32 } }) ∧
    (regGate s i 0x700004 = .reach domCore →
      exec (.regWrite i 0x700004 4 w) s = .next { s with regs := { s.regs with intMask := w.setWidth 32 } }) ∧
    (regGate s i 0x10004 = .reach domAlways → s.regs.xdomBusy = false →
      exec (.regWrite i 0x10004 4 w) s = .next { s with regs := { s.regs with
        domSel := w.setWidth 32, xdomBusy := s.regs.sysCtrl.getLsbD 0 } }) ∧
    (regGate s i 0x10004 = .reach domAlways → s.regs.xdomBusy = true →
      exec (.regWrite i 0x10004 4 w) s = .next { s with regs := { s.regs with
        xdomDrop := true, intCause := s.regs.intCause ||| 0x20 } })) ∧
  (∀ (i : Initiator) (o : BitVec 24) (w : BitVec 64) (s : State), barSeen s i = true → o.toNat % 4 = 0 →
    regInfo s o.toNat = none → ¬(0x500000 ≤ o.toNat ∧ o.toNat < 0x508100) → exec (.regWrite i o 4 w) s = .next s) ∧
  (∀ (i : Initiator) (o : BitVec 24) (n : Nat) (w : BitVec 64) (s : State), barUp s = true → barSeen s i = true →
    o.toNat < 0x800000 → ¬(0x600000 ≤ o.toNat ∧ o.toNat < 0x608000) → ¬(n = 4 ∧ o.toNat % 4 = 0) → ¬(n = 8 ∧ o.toNat % 8 = 0) →
    exec (.regWrite i o n w) s = .next { s with out := s.out ++ [if isCore i then .accessFault i else .unsupported i] }) ∧
  (∀ s : State, exec .xdomCrossingDone s = .next { s with regs := { s.regs with xdomBusy := false } })

/-- O37 (tier 2). A write that reaches PWR_CAP, SYS_MODE or HBR_SPLIT changes the pending value alone and discards the
check pass in progress; a cap or a split out of range keeps the pending field and sets RANGE_DROP, while the reserved
bits beside it are written. A write of SYS_CFG_CRC_REF also discards the pass. A discarded pass leaves CFG_MATCH as it
was. A complete pass stores the CRC-32C of the pending values and its comparison; a mismatch while HOLD is 0 raises
CFG_MISMATCH and sets its cause. Pending values become active together only when CFG_MATCH is 1 and HOLD is 0. Rests
on R3, R170, R452, R453, R454, R455, R463, R465. -/
def Obligations.StagedConfiguration : Prop :=
  (∀ (i : Initiator) (v : BitVec 32) (s : State), barUp s = true → barSeen s i = true → regGate s i 0x10000 = .reach domAlways →
    s.regs.xdomBusy = false →
    exec (.configRegWrite i 0x10000 v) s = .next { s with regs := { s.regs with
      capPending := if 400 ≤ v.toNat % 1024 ∧ v.toNat % 1024 ≤ (if s.liquid then 750 else 500) then v
        else BitVec.ofNat 32 (v.toNat / 1024 * 1024 + s.regs.capPending.toNat % 1024)
      rangeDrop := s.regs.rangeDrop ||
        !(decide (400 ≤ v.toNat % 1024) && decide (v.toNat % 1024 ≤ (if s.liquid then 750 else 500)))
      passDirty := true, xdomBusy := s.regs.sysCtrl.getLsbD 0 } }) ∧
  (∀ (i : Initiator) (v : BitVec 32) (s : State), barUp s = true → barSeen s i = true →
    (regGate s i 0x24 = .reach domCore →
      exec (.configRegWrite i 0x24 v) s = .next { s with regs := { s.regs with modePending := v, passDirty := true } }) ∧
    (regGate s i 0x200040 = .reach domCore →
      exec (.configRegWrite i 0x200040 v) s = .next { s with regs := { s.regs with
        splitPending := if bwSplitOk (bitsAt v.toNat 7 0) (bitsAt v.toNat 15 8) (bitsAt v.toNat 23 16) then v
          else BitVec.ofNat 32 (v.toNat / 2 ^ 24 * 2 ^ 24 + s.regs.splitPending.toNat % 2 ^ 24)
        rangeDrop := s.regs.rangeDrop || !bwSplitOk (bitsAt v.toNat 7 0) (bitsAt v.toNat 15 8) (bitsAt v.toNat 23 16)
        passDirty := true } }) ∧
    (regGate s i 0x14 = .reach domCore →
      exec (.cfgCrcRefWrite i v) s = .next { s with regs := { s.regs with cfgCrcRef := v, passDirty := true } })) ∧
  (∀ s : State, domIsOn s domCore = true → s.regs.passDirty = true →
    exec .checkPassEnd s = .next { s with regs := { s.regs with passDirty := false } }) ∧
  (∀ s : State, domIsOn s domCore = true → s.regs.passDirty = false →
    Completes .checkPassEnd s fun t =>
      t.regs.cfgCrc = crc32c ((pendingWords s).flatMap (leBytes 4)) ∧
      t.regs.cfgMatch = decide (t.regs.cfgCrc = s.regs.cfgCrcRef) ∧
      (if t.regs.cfgMatch = false ∧ cfgHeld s = false then
        Raised .cfgMismatch 0 0 s t ∧ t.regs.intCause.getLsbD 2 = true ∧ Only [.regs, .cause, .counters, .events, .held, .out] s t
      else Only [.regs] s t)) ∧
  (∀ s : State, if cfgHeld s = true ∨ s.regs.cfgMatch = false then exec .configActivate s = .next s
    else Completes .configActivate s fun t =>
      t.regs = { s.regs with
        modeActive := s.regs.modePending, capActive := s.regs.capPending, splitActive := s.regs.splitPending } ∧ Only [.regs, .counters, .events, .held, .model, .banks, .scheds, .out] s t)

/-- O38 (tier 2). SYS_CFG_CTRL takes the written value; HOLD newly set notes the time. While HOLD is 1, or CFG_MATCH is 0,
no launch is admitted, requests being asked for alone, and no pending value becomes active, and a pass that ends in a
mismatch under HOLD raises no event and no cause. When HOLD has been 1 for more than 10 ms, HOLD_LONG is set and one
HOLD_LONG event is raised, once. Rests on R455, R456, R462. -/
def Obligations.ConfigurationHold : Prop :=
  (∀ (i : Initiator) (v : BitVec 32) (s : State), barUp s = true → barSeen s i = true → regGate s i 0x18 = .reach domCore →
    Completes (.cfgHoldWrite i v) s fun t =>
      t.regs.cfgCtrl = v ∧ cfgHeld t = v.getLsbD 0 ∧
      t.regs.holdSince = (if v.getLsbD 0 && !cfgHeld s then tideOf s else s.regs.holdSince) ∧
      t.regs.holdRaised = (v.getLsbD 0 && cfgHeld s && s.regs.holdRaised) ∧
      { t.regs with cfgCtrl := s.regs.cfgCtrl, holdSince := s.regs.holdSince, holdRaised := s.regs.holdRaised } = s.regs ∧
      Only [.regs] s t) ∧
  (∀ s : State, cfgHeld s = true ∨ s.regs.cfgMatch = false →
    exec .launchAdmit s = .next (askReady s) ∧ exec .configActivate s = .next s) ∧
  (∀ s : State, (askReady s).model.nextLaunch = s.model.nextLaunch) ∧
  (∀ s : State, cfgHeld s = true → domIsOn s domCore = true → Completes .checkPassEnd s fun t => Only [.regs] s t) ∧
  (∀ s : State, cfgHeld s = true → s.regs.holdRaised = false → 10000000 < (tideOf s - s.regs.holdSince).toNat →
    Completes .holdLongTimer s fun t =>
      t.regs = { s.regs with holdLong := true, holdRaised := true } ∧ Raised .holdLong 0 0 s t ∧
      Only [.regs, .counters, .events, .held, .out] s t ∧ exec .holdLongTimer t = .next t) ∧
  (∀ s : State, cfgHeld s = false ∨ (tideOf s - s.regs.holdSince).toNat ≤ 10000000 → exec .holdLongTimer s = .next s)

/-- O39 (tier 2). A write of TIDE_ALARM takes the stage as its high half; a value that Tide has reached sets
INT_CAUSE.TIDE_ALARM at once, and a later one fires when Tide reaches it, once, waking a core complex in RET. The
opening of an epoch on a module in no group makes the pending TIDE_OFFSET active and adds 1 to TIDE_EPOCH. Rests on
R453, R464, R471, R400. -/
def Obligations.TideAlarmAndEpoch : Prop :=
  (∀ (i : Initiator) (lo : BitVec 32) (s : State), barUp s = true → barSeen s i = true → regGate s i 0x20018 = .reach domAlways →
    s.regs.xdomBusy = false →
    let v := (tget s.regs.stages (halfKey i 0x20018) 0) ++ lo
    Completes (.tideAlarmWrite i lo) s fun t =>
      t.regs.alarm = v ∧ tget t.regs.stages (halfKey i 0x20018) 0 = 0 ∧
      (if v.toNat ≤ (tideOf s).toNat then t.regs.alarmFired = true ∧ t.regs.intCause = s.regs.intCause ||| 2
       else t.regs.alarmFired = false ∧ t.regs.intCause = s.regs.intCause) ∧ Only [.doms, .regs, .cause, .counters] s t) ∧
  (∀ s : State, s.regs.alarmFired = false → s.regs.alarm.toNat ≤ (tideOf s).toNat →
    Completes .tideAlarmFire s fun t =>
      t.regs = { s.regs with alarmFired := true, intCause := s.regs.intCause ||| 2 } ∧
      (domState s domCore = .ret → (domOf t domCore).current = some .on ∨ (domOf t domCore).queued = some .on) ∧ Only [.doms, .regs, .cause, .counters] s t ∧
      exec .tideAlarmFire t = .next t) ∧
  (∀ s : State, s.regs.alarmFired = true ∨ (tideOf s).toNat < s.regs.alarm.toNat → exec .tideAlarmFire s = .next s) ∧
  (∀ s : State, uzomelRuns s = true → membersOf s = [] → s.time.epochDue = true →
    Completes .tideEpochOpen s fun t =>
      t.regs.offsetActive = s.regs.offsetPending ∧ t.regs.offsetPending = s.regs.offsetPending ∧
      tideOf t = s.time.pll + s.regs.offsetPending ∧
      t.time.epoch = s.time.epoch + 1 ∧ t.time.epochDue = false ∧ Only [.time, .regs, .counters] s t) ∧
  (∀ s : State, membersOf s ≠ [] ∨ s.time.epochDue = false → exec .tideEpochOpen s = .next s)

/-- O40 (tier 2). An admitted DICT_WRITE in a ready module whose buffer was read: an object that no row names ends with
OBJECT_UNKNOWN, one that is read-only, or PRIV to a requester without privilege, with ACCESS_DENIED, and a key or a
value outside the object's range with OUT_OF_RANGE, the state being unchanged before the completion. Otherwise an RWS
object's value is staged and an RW object's value is active at once, length 0 writing the default; nothing else
changes. A failed read of the buffer ends with HOST_ACCESS. Rests on R360, R417, R418, R419, R420, R422, R423. -/
def Obligations.DictionaryWrites : Prop :=
  (∀ (a : Fin 4096) (b : Bytes) (c : Cmd) (s : State), cmdAt s a.val 0x21 = some c → isReady s = true →
    let obj := entObject c.entry
    let arg := fld c.entry 0x18 8
    let v := fit b (fld c.entry 0x28 4)
    match findObj s.liquid obj with
    | none => Finishes (.dictWrite a (.data b)) s a St.objectUnknown fun u => u = s
    | some d =>
      if d.acc = .ro ∨ (d.acc = .priv ∧ reqPrivileged s (.queue a) = false) then
        Finishes (.dictWrite a (.data b)) s a St.accessDenied fun u => u = s
      else if keyOk s d arg = false then Finishes (.dictWrite a (.data b)) s a St.outOfRange fun u => u = s
      else effectWrite (.queue a) obj arg = none →
        if v ≠ [] ∧ valueOk d v = false then Finishes (.dictWrite a (.data b)) s a St.outOfRange fun u => u = s
        else Finishes (.dictWrite a (.data b)) s a St.success fun u =>
          let w := if v = [] then dfltOf s.liquid d.obj else v
          Only [.values] s u ∧
          if d.acc = .rws then u.dict = { s.dict with staged := tset s.dict.staged (okey d.obj arg) w }
          else u.dict = { s.dict with active := tset s.dict.active (okey d.obj arg) w }) ∧
  (∀ (a : Fin 4096) (v : HostRead) (c : Cmd) (s : State), cmdAt s a.val 0x21 = some c → isReady s = true → (∀ b, v ≠ .data b) →
    Finishes (.dictWrite a v) s a St.hostAccess fun u => u = s) ∧
  (∀ (a : Fin 4096) (v : HostRead) (s : State), cmdAt s a.val 0x21 = none ∨ isReady s = false → exec (.dictWrite a v) s = .next s)

/-- O41 (tier 2). An admitted DICT_READ in a ready module ends with OBJECT_UNKNOWN, with ACCESS_DENIED for a write-only
object or a PRIV one read without privilege, with OUT_OF_RANGE at offset 0x18 for a key that names nothing, with
HOST_ACCESS where the hash of a hash-keyed object could not be read, and with BUFFER_TOO_SMALL and the length where
the buffer is too short. Otherwise it writes the object's bytes, the staged ones where the flag asks for them, to the
buffer and ends with SUCCESS and their length; a read of the event log marks the event read. Rests on R360, R417,
R419, R423, R429, R438. -/
def Obligations.DictionaryReads : Prop :=
  ∀ (a : Fin 4096) (h : HostRead) (c : Cmd) (s : State), cmdAt s a.val 0x20 = some c → isReady s = true →
    let obj := entObject c.entry
    let arg := fld c.entry 0x18 8
    let hash := (hostData 48 h).getD []
    if hashKeyed s obj = true ∧ hostData 48 h = none then Finishes (.dictRead a h) s a St.hostAccess fun u => u = s
    else match findObj s.liquid obj with
    | none => Finishes (.dictRead a h) s a St.objectUnknown fun u => u = s
    | some d =>
      if d.acc = .wo ∨ (d.acc = .priv ∧ reqPrivileged s (.queue a) = false) then
        Finishes (.dictRead a h) s a St.accessDenied fun u => u = s
      else match objValue s d arg hash (bitAt (entFlags c.entry) 0) with
      | none => exec (.dictRead a h) s = .next (finish a.val { status := St.outOfRange, detail := 0x18 } s)
      | some b =>
        if fld c.entry 0x28 4 < b.length then
          exec (.dictRead a h) s = .next (finish a.val { status := St.bufferTooSmall, result := b.length } s)
        else Completes (.dictRead a h) s fun t =>
          let w := OutMsg.hostWrite (cmdPort s c) (BitVec.ofNat 64 (fld c.entry 0x20 8)) b false
          ∃ u, t = finish a.val { status := St.success, result := b.length } u ∧
            (if (portOf s (cmdPort s c)).d3hot then u.que.held = s.que.held ++ [w] ∧ u.out = s.out
             else u.out = s.out ++ [w] ∧ u.que.held = s.que.held) ∧ Only [.events, .values, .held, .out] s u ∧
            (obj ≠ ob 0x9040 0 → u.dict = s.dict)

/-- O42 (tier 2). A served write of que.pair with STATE 1 to a DISABLED pair other than 0, with valid fields, enables it
with the record's fields and starts its ring afresh; ADMIN may be set only from an ADMIN pair on Port U. A pair in
another state is answered BUSY, pair 0 is answered ACCESS_DENIED and an invalid record OUT_OF_RANGE, with nothing
changed. STATE 0 starts an ENABLED pair's disable. QUE_ADM_CTRL is stored, enables a DISABLED pair 0 from the QUE_ADM
registers where they are valid, and starts its disable. Rests on R352, R354, R355. -/
def Obligations.QueuePairLifecycle : Prop :=
  (∀ (r : Requester) (q : Nat) (b : Bytes) (s : State), heard s r (ob 0x6100 0) q = true → fld b 0 1 = 1 →
    valueFrom s r b = b → b.length = 64 → q < 16384 →
    let c : Instr := .queuePairEnable (.record r q b)
    if q = 0 then Answers c s r St.accessDenied fun u => u = s
    else if (pairOf s q).state ≠ .disabled then Answers c s r St.busy fun u => u = s
    else if recordValid s b = false then Answers c s r St.outOfRange fun u => u = s
    else if bitAt (fld b 2 2) 0 = true ∧ maySetAdmin s r = false then Answers c s r St.accessDenied fun u => u = s
    else Answers c s r St.success fun u =>
      pairOf u q = pairFromRecord b (pairOf s q) ∧ (pairOf u q).state = .enabled ∧ (pairOf u q).sqHead = 0 ∧ (pairOf u q).cqTail = 0 ∧
      (∀ p, p ≠ q → pairOf u p = pairOf s p) ∧ Only [.que] s u) ∧
  (∀ (r : Requester) (q : Nat) (b : Bytes) (s : State), heard s r (ob 0x6100 0) q = true → fld b 0 1 = 0 →
    valueFrom s r b = b → b.length = 64 → 0 < q → q < 16384 → (pairOf s q).state ≠ .error →
    Answers (.queuePairDisable (.record r q b)) s r St.success fun u =>
      (pairOf u q).state = (if (pairOf s q).state = .enabled then .disabling else (pairOf s q).state) ∧
      (∀ p, p ≠ q → pairOf u p = pairOf s p) ∧ Only [.que] s u) ∧
  (∀ (i : Initiator) (v : BitVec 32) (s : State), classU i = true →
    Completes (.queuePairEnable (.adm i v)) s fun t =>
      t.regs = { s.regs with admCtrl := v ||| 1 } ∧
      (if (pairOf s 0).state = .disabled ∧ admValid t (v ||| 1).toNat = true ∧ s.power.phase = .ready then
        (pairOf t 0).state = .enabled ∧ (pairOf t 0).sqBase = s.regs.admSq ∧ (pairOf t 0).cqBase = s.regs.admCq ∧
        (pairOf t 0).logBase = s.regs.admLog ∧ Only [.regs, .que] s t
      else Only [.regs] s t)) ∧
  (∀ (i : Initiator) (v : BitVec 32) (s : State), classU i = true → (pairOf s 0).state ≠ .error →
    Completes (.queuePairDisable (.adm i v)) s fun t =>
      t.regs = { s.regs with admCtrl := v &&& ~~~(1 : BitVec 32) } ∧ Only [.regs, .que] s t ∧
      (pairOf t 0).state = (if (pairOf s 0).state = .enabled then .disabling else (pairOf s 0).state))

/-- O43 (tier 2). A served write of dev.cfg_commit that holds the CRC of the staged configuration, with R318 kept, on a
module in no group: every staged value is stored and active, nothing is staged any more, the commits are counted, the
mirrored registers take the new pending values and SYS_CFG_CRC_REF their CRC. A value that is not the CRC, or a
relation that fails, is answered OUT_OF_RANGE and no value changes; the relation's object is named in dev.cfg_reject.
Rests on R318, R328, R395, R424, R426, R457. -/
def Obligations.ConfigurationCommit : Prop :=
  (∀ (r : Requester) (data : Bytes) (s : State), heard s r (ob 0x1002 1) 0 = true → (valueFrom s r data).length = 4 →
    leNat (valueFrom s r data) = (stagedCrc s).toNat → failedRelation s = none → membersOf s = [] →
    Answers (.cfgCommit r data) s r St.success fun u =>
      u.dict.active = s.dict.staged.foldl (fun t e => tset t e.1 e.2) s.dict.active ∧ u.dict.staged = [] ∧
      counterOf u (ob 0x1002 4) = counterOf s (ob 0x1002 4) + 1 ∧
      u.regs.capPending.toNat % 1024 = dictNum u (ob 0x2001 1) % 1024 ∧
      u.regs.cfgCrcRef = crc32c ((pendingWords u).flatMap (leBytes 4)) ∧ u.regs.capActive = s.regs.capActive ∧
      Only [.values, .counters, .regs, .integ, .strait, .out] s u) ∧
  (∀ (r : Requester) (data : Bytes) (s : State), heard s r (ob 0x1002 1) 0 = true →
    ((valueFrom s r data).length ≠ 4 ∨ leNat (valueFrom s r data) ≠ (stagedCrc s).toNat) →
    Answers (.cfgCommit r data) s r St.outOfRange fun u => u = s) ∧
  (∀ (r : Requester) (data : Bytes) (o : Nat) (s : State), heard s r (ob 0x1002 1) 0 = true → (valueFrom s r data).length = 4 →
    leNat (valueFrom s r data) = (stagedCrc s).toNat → failedRelation s = some o →
    Answers (.cfgCommit r data) s r St.outOfRange fun u =>
      u = { s with dict := { s.dict with cfgReject := BitVec.ofNat 32 (o / 256 * 65536 + o % 256 * 256) } }) ∧
  (∀ s : State, failedRelation s =
    if leNat (stagedOrActive s (ob 0x8002 1)) + 40 ≤ leNat (stagedOrActive s (ob 0x7013 1)) then none else some (ob 0x8002 1))

/-- O44 (tier 2). A sample of 0 goes to bin 0, one with 2^(k−1) ≤ v < 2^k to bin k for k from 1 to 30, and one of 2^30 or
more to bin 31. Sampling takes it into COUNT, SUM, MIN, MAX, LAST and that bin alone (R441). The merge of a keyed
monitor's units has the sums of COUNT, SUM and of each bin, the least MIN, the largest MAX and the LAST of the unit
sampled most recently. A served write of mon.clear that names a monitor clears every unit of it, and of no other; any
other value is OUT_OF_RANGE (R444). The samples of the core voltage and of occupancy go to their monitors. Formalises
R442. -/
def Obligations.MonitorsSampleAndClear : Prop :=
  (∀ v, monBin v = 0 ↔ v = 0) ∧ (∀ v k, 1 ≤ k → k ≤ 30 → (monBin v = k ↔ 2 ^ (k - 1) ≤ v ∧ v < 2 ^ k)) ∧
  (∀ v, monBin v = 31 ↔ 2 ^ 30 ≤ v) ∧
  (∀ (v : Nat) (m : Mon), v < 2 ^ 32 → (monSample v m).count = m.count + 1 ∧ (monSample v m).sum = m.sum + BitVec.ofNat 64 v ∧
    (monSample v m).min.toNat = min m.min.toNat v ∧ (monSample v m).max.toNat = max m.max.toNat v ∧
    (monSample v m).last.toNat = v ∧
    ∀ k, tget (monSample v m).bins k 0 = tget m.bins k 0 + (if k = monBin v then 1 else 0)) ∧
  (∀ (s : State) (obj : Nat),
    let us := (s.dict.monitors.filter fun e => e.1 / 2 ^ 64 = obj).map Prod.snd
    let m := monAll s obj
    (∀ u ∈ us, (tkeys u.bins).Nodup) →
    m.count = (us.map Mon.count).sum ∧ m.sum = (us.map Mon.sum).sum ∧
    (∀ k, tget m.bins k 0 = (us.map fun u => tget u.bins k 0).sum) ∧
    (∀ u ∈ us, m.min.toNat ≤ u.min.toNat ∧ u.max.toNat ≤ m.max.toNat) ∧
    (us ≠ [] → (∃ u ∈ us, m.min = u.min) ∧ ∃ u ∈ us, m.max = u.max) ∧
    ∀ unit, tget? s.dict.monLast obj = some unit → m.last = (monOf s obj unit).last) ∧
  (∀ (s : State) (priv : Bool), ∀ obj ∈ [ob 0x9010 0, ob 0x9011 0, ob 0x9012 0, ob 0x9031 0],
    readObject s priv obj 0xFFFFFFFFFFFFFFFF [] false = .inr (monBytes obj (monAll s obj))) ∧
  (∀ (mv : BitVec 32) (s : State), s.power.phase ≠ .off → Completes (.vcoreSample mv) s fun t =>
    monOf t (ob 0x9030 1) 0 = monSample mv.toNat (monOf s (ob 0x9030 1) 0) ∧
    (∀ k, k ≠ okey (ob 0x9030 1) 0 → tget? t.dict.monitors k = tget? s.dict.monitors k) ∧ Only [.monitors] s t) ∧
  (∀ s : State, s.power.rails ≠ [] → Completes .occupancySample s fun t =>
    monOf t (ob 0x9020 1) 0 = monSample (handlesHeld s) (monOf s (ob 0x9020 1) 0) ∧
    (∀ k, k ≠ okey (ob 0x9020 1) 0 → tget? t.dict.monitors k = tget? s.dict.monitors k) ∧ Only [.monitors] s t) ∧
  (∀ (r : Requester) (data : Bytes) (s : State), heard s r (ob 0x9001 1) 0 = true →
    let v := valueFrom s r data
    let obj := ob (leNat v / 65536) (leNat v / 256 % 256)
    if v.length = 4 ∧ obj ∈ monObjs then
      Answers (.monClear r data) s r St.success fun u => Only [.monitors] s u ∧
        ∀ k, (k / 2 ^ 64 ≠ obj → tget? u.dict.monitors k = tget? s.dict.monitors k) ∧
          (k / 2 ^ 64 = obj → tget? u.dict.monitors k = (tget? s.dict.monitors k).map fun m =>
            { last := m.last, clearTide := tideOf s, clearEpoch := s.time.epoch })
    else Answers (.monClear r data) s r St.outOfRange fun u => u = s)

/-- O45 (tier 2). While Uzomel runs and the core complex does not sleep: a READ at OFFSET 0 of a readable object takes a
snapshot of it and answers its first LENGTH bytes, and a later one of the same object answers the snapshot's bytes
from OFFSET; a WRITE at OFFSET 0 starts a value, a piece that follows on is appended and answered SUCCESS, a piece
that does not is answered OUT_OF_RANGE and drops the value, and FINAL applies the whole value as one write. A request
of more than 1,024 bytes is OUT_OF_RANGE. A sleeping core complex is asked to wake and the request is kept. While
Uzomel does not run a WRITE is answered BUSY. The timers end a snapshot and an unfinished write. Rests on R430, R431,
R432, R433, R471. -/
def Obligations.ManagementBusAccess : Prop :=
  (∀ (ep : Nat) (tag flags sub_ : Byte) (index length : BitVec 16) (arg : BitVec 64) (h : Digest) (s : State), s.power.phase ≠ .off →
    coreSleeps s = false → uzomelRuns s = true → flags.toNat < 4 → length.toNat ≤ 1024 →
    let obj := ob index.toNat sub_.toNat
    ∀ b, readObject s (s.sec.policy.getLsbD 1) obj arg.toNat h (bitAt flags.toNat 0) = .inr b →
    Completes (.mctpDictRead ep tag flags index sub_ arg 0 length h) s fun t =>
      t.out = s.out ++ [.mctp ep tag 0x81 (BitVec.ofNat 8 St.success) (b.take length.toNat)] ∧
      tget? t.dict.snapshots ep = some { object := obj, key := mctpKey s obj arg.toNat h, tag := tag, bytes := b } ∧
      Only [.values, .events, .out] s t) ∧
  (∀ (ep : Nat) (tag flags sub_ : Byte) (index length : BitVec 16) (arg : BitVec 64) (offset : BitVec 32) (h : Digest) (s : State)
    (shot : MctpPieces), s.power.phase ≠ .off → coreSleeps s = false → uzomelRuns s = true → flags.toNat < 4 → length.toNat ≤ 1024 →
    offset ≠ 0 → tget? s.dict.snapshots ep = some shot → shot.object = ob index.toNat sub_.toNat →
    shot.key = mctpKey s shot.object arg.toNat h →
    exec (.mctpDictRead ep tag flags index sub_ arg offset length h) s = .next { s with
      out := s.out ++ [.mctp ep tag 0x81 (BitVec.ofNat 8 St.success) (sub shot.bytes offset.toNat length.toNat)] }) ∧
  (∀ (ep : Nat) (tag flags sub_ : Byte) (index : BitVec 16) (arg : BitVec 64) (offset : BitVec 32) (data : Bytes) (p : MctpPieces) (s : State),
    s.power.phase ≠ .off → coreSleeps s = false → uzomelRuns s = true → flags.toNat < 4 → data.length ≤ 1024 →
    mctpPiece ep tag (ob index.toNat sub_.toNat) arg.toNat offset.toNat data s = some p →
    (bitAt flags.toNat 1 = false → exec (.mctpDictWrite ep tag flags index sub_ arg offset data) s = .next { s with
      dict := { s.dict with pieces := tset s.dict.pieces ep p }
      out := s.out ++ [.mctp ep tag 0x82 (BitVec.ofNat 8 St.success) []] }) ∧
    (bitAt flags.toNat 1 = true → Completes (.mctpDictWrite ep tag flags index sub_ arg offset data) s fun t =>
      let r := writeObject (.mctp ep tag) p.object p.key p.bytes { s with dict := { s.dict with pieces := tdel s.dict.pieces ep } }
      t = { r.2 with out := r.2.out ++ [.mctp ep tag 0x82 (BitVec.ofNat 8 r.1) []] })) ∧
  (∀ (ep : Nat) (tag : Byte) (obj arg offset : Nat) (data : Bytes) (s : State),
    mctpPiece ep tag obj arg offset data s =
      if offset = 0 then some { object := obj, key := arg, tag := tag, bytes := data }
      else match tget? s.dict.pieces ep with
        | some p => if p.object = obj ∧ p.key = arg ∧ p.bytes.length = offset then
            some { p with tag := tag, bytes := p.bytes ++ data } else none
        | none => none) ∧
  (∀ (ep : Nat) (tag flags sub_ : Byte) (index : BitVec 16) (arg : BitVec 64) (offset : BitVec 32) (data : Bytes) (s : State),
    s.power.phase ≠ .off →
    (coreSleeps s = false → uzomelRuns s = false → exec (.mctpDictWrite ep tag flags index sub_ arg offset data) s =
      .next { s with out := s.out ++ [.mctp ep tag 0x82 (BitVec.ofNat 8 St.busy) []] }) ∧
    (coreSleeps s = true → Completes (.mctpDictWrite ep tag flags index sub_ arg offset data) s fun t =>
      t.dict.waitingMsgs = s.dict.waitingMsgs ++ [.mctpDictWrite ep tag flags index sub_ arg offset data] ∧
      Only [.values, .doms, .cause, .counters] s t) ∧
    (coreSleeps s = false → uzomelRuns s = true → 1024 < data.length →
      exec (.mctpDictWrite ep tag flags index sub_ arg offset data) s =
        .next { s with out := s.out ++ [.mctp ep tag 0x82 (BitVec.ofNat 8 St.outOfRange) []] })) ∧
  (∀ (ep : Nat) (s : State), exec (.mctpSnapshotExpiry ep) s =
    .next { s with dict := { s.dict with snapshots := tdel s.dict.snapshots ep } }) ∧
  (∀ (ep : Nat) (p : MctpPieces) (s : State), tget? s.dict.pieces ep = some p → exec (.mctpWriteTimeout ep) s = .next { s with
    dict := { s.dict with pieces := tdel s.dict.pieces ep }
    out := s.out ++ [.mctp ep p.tag 0x82 (BitVec.ofNat 8 St.outOfRange) []] }) ∧
  (∀ (ep : Nat) (s : State), tget? s.dict.pieces ep = none → exec (.mctpWriteTimeout ep) s = .next s)

/-- O46 (tier 2). From a core: a byte 0xB0 or 0x30 anywhere in a window is SUSPEND or RESUME. Of any other byte, the two
unlock bytes in order move the channel on, and after them a listed code at 0xE38 is its command; every other byte, a
wide write, or a command without the sequence sets SEQ_ERR, returns the unlock state to idle, is counted and changes
no bank; a write of AWL_BANK_SEL between the steps does so too, but for the count. After the sequence, READ_STATUS and
RESET_TO_READ turn status mode on and off, clear the error bits and touch no bank; the modes of an ERASED bank,
SEAL_BANK from PROGRAMMING and MARK_BANK change the bank as the rules say where it has no operation running or
suspended, and what waited for the seal then goes on; while an operation runs they set BUSY_REJ, and in a state that
does not allow them STATE_REJ. SUSPEND stops the running program or erase; RESUME lets the suspended operation go on,
at once where it may start; with nothing suspended it changes the unlock state alone. A core that pops the completion
FIFO gets the oldest entry's low half, 0 where there is none, and the high half in its shadow. Rests on R264, R265,
R266, R267, R268, R269, R270, R271, R281, R283, R288, R289. -/
def Obligations.AwlChannels : Prop :=
  (∀ (i : Initiator) (ch : Fin 8) (o : BitVec 12) (b : Byte) (s : State), isCore i = true → b ≠ 0xB0 → b ≠ 0x30 →
    let moved := fun (x : Instr) (u : Unlock) => Completes x s fun t =>
      ChanStep ch (fun c => { c with unlock := u }) s t ∧ Only [.awl] s t
    let broken := fun (x : Instr) => Completes x s fun t =>
      ChanStep ch (fun c => { c with unlock := .idle, errors := c.errors ||| 1 }) s t ∧
      counterOf t (ob 0x8036 1) = counterOf s (ob 0x8036 1) + 1 ∧ Only [.awl, .counters] s t
    broken (.awlWideWrite i ch o) ∧
    (if (chanOf s ch).unlock = .idle ∧ o = 0xE38 ∧ b = 0x5C then moved (.awlUnlockStep i ch o b) .unlock1 ∧ moved (.awlStrayByte i ch o b) .unlock1
     else if (chanOf s ch).unlock = .unlock1 ∧ o = 0x71C ∧ b = 0xA3 then
      moved (.awlUnlockStep i ch o b) .unlock2 ∧ moved (.awlStrayByte i ch o b) .unlock2
     else if (chanOf s ch).unlock = .unlock2 ∧ o = 0xE38 ∧ b ∈ [0x10, 0x40, 0x20, 0x21, 0x03, 0x90, 0x61, 0x62, 0xC1, 0xC4, 0x70, 0xF0] then
      ∀ p ∈ [((0x10 : Byte), Instr.programRow i ch), (0x40, .programWord i ch), (0x20, .eraseBank i ch), (0x21, .topUpRow i ch),
        (0x03, .readRow i ch), (0x90, .readMargin i ch), (0x61, .setComputeMode i ch), (0x62, .setStorageMode i ch),
        (0xC1, .sealBank i ch), (0xC4, .markBank i ch), (0x70, .readStatus i ch), (0xF0, .resetToRead i ch)],
        b = p.1 → exec (.awlUnlockStep i ch o b) s = exec p.2 s ∧ exec (.awlStrayByte i ch o b) s = exec p.2 s
     else broken (.awlUnlockStep i ch o b) ∧ broken (.awlStrayByte i ch o b)) ∧
    ((chanOf s ch).unlock ≠ .unlock2 →
      broken (.programRow i ch) ∧ broken (.programWord i ch) ∧ broken (.eraseBank i ch) ∧ broken (.topUpRow i ch) ∧
      broken (.readRow i ch) ∧ broken (.readMargin i ch) ∧ broken (.setComputeMode i ch) ∧ broken (.setStorageMode i ch) ∧
      broken (.sealBank i ch) ∧ broken (.markBank i ch) ∧ broken (.readStatus i ch) ∧ broken (.resetToRead i ch))) ∧
  (∀ (i : Initiator) (ch : Fin 8) (o : BitVec 12) (s : State), isCore i = true →
    exec (.awlStrayByte i ch o 0xB0) s = exec (.suspend i ch) s ∧ exec (.awlUnlockStep i ch o 0xB0) s = exec (.suspend i ch) s ∧
    exec (.awlStrayByte i ch o 0x30) s = exec (.resume i ch) s ∧ exec (.awlUnlockStep i ch o 0x30) s = exec (.resume i ch) s) ∧
  (∀ (i : Initiator) (ch : Fin 8) (v : BitVec 32) (s : State), isCore i = true → Completes (.awlBankSelWrite i ch v) s fun t =>
    ChanStep ch (fun c => { c with
      bankSel := v, unlock := .idle, errors := if c.unlock = .idle then c.errors else c.errors ||| 1 }) s t ∧
    Only [.awl, .counters] s t) ∧
  (∀ (i : Initiator) (ch : Fin 8) (s : State), isCore i = true → (chanOf s ch).unlock = .unlock2 →
    bankExists s (selBank s ch) = true →
    (Completes (.readStatus i ch) s fun t =>
      ChanStep ch (fun c => { c with unlock := .idle, errors := 0, done := true, statusMode := true }) s t ∧ Only [.awl] s t) ∧
    (Completes (.resetToRead i ch) s fun t =>
      ChanStep ch (fun c => { c with unlock := .idle, errors := 0, done := true, statusMode := false }) s t ∧ Only [.awl] s t)) ∧
  (∀ (i : Initiator) (ch : Fin 8) (s : State), isCore i = true → (chanOf s ch).unlock = .unlock2 →
    let n := selBank s ch
    let b := bankOf s n
    let mark := bitsAt (chanOf s ch).arg.toNat 3 1
    let refused := fun (k : Nat) (c : Instr) => Completes c s fun t =>
      ChanStep ch (fun c => { c with unlock := .idle, errors := c.errors ||| BitVec.ofNat 7 (2 ^ k) }) s t ∧ Only [.awl] s t
    let done := fun (t : State) => ChanStep ch (fun c => { c with unlock := .idle, errors := 0, done := true }) s t
    if bankExists s n = false then
      refused errState (.setComputeMode i ch) ∧ refused errState (.setStorageMode i ch) ∧ refused errState (.sealBank i ch) ∧
      refused errState (.markBank i ch)
    else if (∃ o ∈ b.ops, opRunning o = true) then
      ∀ p ∈ [(decide (b.state = .erased), Instr.setComputeMode i ch), (decide (b.state = .erased), .setStorageMode i ch),
        (decide (b.state = .programming), .sealBank i ch), (markAllowed mark b, .markBank i ch)],
        let bits := BitVec.ofNat 7 (2 ^ errBusy + if p.1 then 0 else 2 ^ errState)
        Completes p.2 s fun t => ChanStep ch (fun c => { c with unlock := .idle, errors := c.errors ||| bits }) s t ∧ Only [.awl] s t
    else if (∃ o ∈ b.ops, o.phase = .suspended ∨ o.phase = .resuming) then
      ∀ p ∈ [(decide (b.state = .erased), Instr.setComputeMode i ch), (decide (b.state = .erased), .setStorageMode i ch),
        (decide (b.state = .programming), .sealBank i ch), (markAllowed mark b, .markBank i ch)],
        refused (if p.1 then errBusy else errState) p.2
    else
      (if b.state = .erased then
        (Completes (.setComputeMode i ch) s fun t => done t ∧
          BankStep n (fun b => { b with storageMode := false, polarity := false }) s t ∧ Only [.awl, .banks] s t) ∧
        (Completes (.setStorageMode i ch) s fun t => done t ∧
          BankStep n (fun b => { b with storageMode := true, polarity := false }) s t ∧ Only [.awl, .banks] s t)
      else refused errState (.setComputeMode i ch) ∧ refused errState (.setStorageMode i ch)) ∧
      (if b.state = .programming then Completes (.sealBank i ch) s fun t => ∃ u, t = afterSeal (sealedMoves n u) ∧ done u ∧
        ((schedOf s n).run = none → BankStep n (fun b => { (if b.split = [] then b else freeAllShared b) with
          state := if sparesFree b < 4 then .worn else if b.storageMode then .storage else .ready }) s u) ∧
        (schedOf u n).drift = 0 ∧ (sparesFree b < 4 → ∃ v, u = refreshDue n v ∧ Raised .bankWorn 1 n s v) ∧
        Only [.awl, .banks, .scheds, .counters, .events, .held, .model, .out] s u
      else refused errState (.sealBank i ch)) ∧
      (if mark = 6 ∧ (b.state = .ready ∨ b.state = .storage) ∨
          mark = 7 ∧ (b.state = .programming ∨ b.state = .ready ∨ b.state = .storage ∨ b.state = .worn) then
        Completes (.markBank i ch) s fun t => done t ∧
          BankStep n (fun b => { b with state := if mark = 6 then .worn else .retired }) s t ∧
          Only [.awl, .banks, .scheds, .counters, .events, .held, .out] s t
      else refused errState (.markBank i ch))) ∧
  (∀ (i : Initiator) (ch : Fin 8) (s : State), isCore i = true →
    let n := selBank s ch
    let step := fun (t : State) => ChanStep ch (fun c => { c with
      unlock := .idle, errors := if bankExists s n then c.errors else c.errors ||| BitVec.ofNat 7 (2 ^ errState) }) s t
    (Completes (.suspend i ch) s fun t => step t ∧ Only [.awl, .banks] s t ∧
      BankStep n (fun b => { b with ops := b.ops.map fun o =>
        if o.phase = .running ∧ (o.kind = .eraseBank ∨ o.kind = .programRow ∨ o.kind = .programWord) then
          { o with phase := .suspending, byFloor := false } else o }) s t) ∧
    (Completes (.resume i ch) s fun t => step t ∧ Only [.awl, .banks] s t ∧
      (∀ k, k ≠ n → tget? t.banks k = tget? s.banks k) ∧
      (match (bankOf s n).ops.find? fun o => o.phase == .suspended with
        | none => bankOf t n = bankOf s n
        | some o => ∃ u, u.awl = t.awl ∧ Only [.awl, .banks] s u ∧ (∃ q ∈ (bankOf t n).ops, q.order = o.order ∧ q.kind = o.kind ∧
            q = (if opMayStart u n { o with phase := .resuming, byFloor := false } then
              { o with phase := .running, byFloor := false, suspendedFor := o.suspendedFor + (tideOf s - o.suspendedAt).toNat }
              else { o with phase := .resuming, byFloor := false })) ∧
          BankStep n (fun b => { b with ops := b.ops.map fun p => if p.order = o.order then { p with phase := .resuming, byFloor := false } else p }) s u ∧
          (bankOf t n).state = (if opMayStart u n { o with phase := .resuming, byFloor := false } = true ∧ o.kind = .eraseBank then .erasing
            else (bankOf s n).state)))) ∧
  (∀ (n : Fin 8) (s : State), Completes (.awlCplPop (.core n)) s fun t =>
    let e := s.awl.fifo.head?.getD (0, 0)
    t.awl = { s.awl with fifo := s.awl.fifo.tail } ∧ t.out = s.out ++ [.regData (.core n) (e.1.setWidth 64)] ∧
    t.regs = { s.regs with shadows := tset s.regs.shadows (n.val * 2 ^ 24 + 0x608400) e.2 } ∧ Only [.regs, .awl, .out] s t)

/-- O47 (tier 2). After the unlock sequence, an operation on a bank whose other operation forbids it sets BUSY_REJ, an
erase with a wrong key SEQ_ERR, and one that the state, the row or the word does not allow STATE_REJ, no bank being
changed. Any other is accepted: it takes the next place in the order, waits where it cannot start, and where it can,
starts: an erase puts the bank in ERASING, and a program in PROGRAMMING. The start row starts the first operation that
may start, or only asks for the domains of the buffers that wait. A suspend takes effect on the suspending operation.
An operation that ends puts one entry in the completion FIFO; an erase leaves the bank without cells, ERASED or
RETIRED, with its wear; a program that met no failing column leaves the row's new cells; a read fills its row buffer,
and waits while the buffer's segment cannot be written. While pulses are paused no pulse operation ends. An erase
suspended for too long raises ERASE_STARVED once. Rests on R74, R78, R243, R268, R272, R275, R276, R281, R282, R284,
R286, R288. -/
def Obligations.AwlOperations : Prop :=
  (∀ (i : Initiator) (ch : Fin 8) (s : State), isCore i = true → (chanOf s ch).unlock = .unlock2 →
    let n := selBank s ch
    let b := bankOf s n
    let row := bitsAt (chanOf s ch).row.toNat 10 0
    let word := bitsAt (chanOf s ch).row.toNat 21 16
    let refused := fun (x : Instr) (k : Nat) => Completes x s fun t =>
      ChanStep ch (fun c => { c with unlock := .idle, errors := c.errors ||| BitVec.ofNat 7 k }) s t ∧ Only [.awl, .counters] s t
    let accepted := fun (k : AwlKind) (t : State) =>
      let o := newOp s k (some ch) row false false
      t.awl.nextOrder = s.awl.nextOrder + 1 ∧ (chanOf t ch).lastOp = some (n, o.order) ∧ (chanOf t ch).unlock = .idle ∧
      (∀ k, k ≠ n → tget? t.banks k = tget? s.banks k) ∧ Only [.doms, .time, .regs, .cause, .counters, .events, .held, .hbr, .banks, .awl, .scheds, .integ, .out] s t ∧
      ((bankOf t n = { b with ops := b.ops ++ [o] } ∧ t.awl.fifo = s.awl.fifo) ∨
       ((k = .programRow ∨ k = .programWord) ∧ (bankOf t n).state = .programming) ∨
       (k = .eraseBank ∧ (bankOf t n).state = .erasing) ∨
       (k ≠ .programRow ∧ k ≠ .programWord ∧ k ≠ .eraseBank ∧ (bankOf t n).state = b.state ∧ t.awl.fifo = s.awl.fifo ∧
        ∃ q ∈ (bankOf t n).ops, q.order = o.order ∧ q.kind = k ∧ q.phase = .running))
    let fault := fun (k : AwlKind) =>
      if bankExists s n = false then some (2 ^ errState)
      else if bankRunning s n = true then some (2 ^ errBusy + if opAllowed b.state k then 0 else 2 ^ errState)
      else if k = .eraseBank ∧ bitsAt (chanOf s ch).arg.toNat 31 12 ≠ 2 ^ 20 - 1 - n then some (2 ^ errSeq)
      else if opAllowed b.state k = false ∨ rowAllowed b k row = false ∨
        (k = .programWord ∧ (if b.storageMode then 53 else 18) ≤ word) then some (2 ^ errState)
      else if suspendAllows b k = false then some (2 ^ errBusy)
      else none
    (∀ p ∈ [(AwlKind.programRow, Instr.programRow i ch), (.programWord, .programWord i ch), (.eraseBank, .eraseBank i ch),
      (.topUpRow, .topUpRow i ch), (.readRow, .readRow i ch), (.readMargin, .readMargin i ch)],
      ∀ k, fault p.1 = some k → refused p.2 k) ∧
    (fault .programRow = none → Completes (.programRow i ch) s (accepted .programRow)) ∧
    (fault .programWord = none → Completes (.programWord i ch) s (accepted .programWord)) ∧
    (fault .eraseBank = none → Completes (.eraseBank i ch) s (accepted .eraseBank)) ∧
    (fault .topUpRow = none → Completes (.topUpRow i ch) s (accepted .topUpRow)) ∧
    (fault .readRow = none → Completes (.readRow i ch) s (accepted .readRow)) ∧
    (fault .readMargin = none → Completes (.readMargin i ch) s (accepted .readMargin))) ∧
  (∀ (n : Nat) (o : AwlOp) (s : State), bankExists s n = true → (bankOf s n).ops.find? (fun o => opMayStart s n o) = some o →
    (o.kind = .topUpRow ∨ o.kind = .readRow ∨ o.kind = .readMargin) → opAllowed (bankOf s n).state o.kind = true →
    o.phase = .queued → Completes (.awlOpStart n) s fun t =>
      BankStep n (fun b => { b with ops := b.ops.map fun p =>
        if p.order = o.order then { p with phase := .running, held := false, started := s.time.pll } else p }) s t ∧ Only [.banks] s t) ∧
  (∀ (n : Nat) (s : State), bankExists s n = true → (∀ o ∈ (bankOf s n).ops, opMayStart s n o = false) →
    exec (.awlOpStart n) s = .next ((bankOf s n).ops.foldl (fun s o => bufferWake o s) s)) ∧
  (∀ (n : Nat) (o : AwlOp) (s : State), bankExists s n = true →
    (bankOf s n).ops.find? (fun o => o.phase == .suspending) = some o → Completes (.suspendTakesEffect n) s fun t =>
      BankStep n (fun b => { b with
        ops := b.ops.map (fun p => if p.order = o.order then { p with phase := .suspended, suspendedAt := tideOf s } else p)
        state := if o.kind = .eraseBank then .eraseSuspended else b.state }) s t ∧
      counterOf t (ob 0x8032 1) = counterOf s (ob 0x8032 1) + 1 ∧ Only [.banks, .counters] s t) ∧
  (∀ (n : Nat) (r : OpEnd) (o : AwlOp) (s : State), bankExists s n = true → (bankOf s n).ops.find? opRunning = some o →
    (if s.awl.paused && opPumps o.kind then exec (.awlOpComplete n r) s = .next s
    else if o.kind = .readRow ∧ runWaits s (bufferRun o).1 512 = true then
      exec (.awlOpComplete n r) s = .next (runWake (bufferRun o).1 512 s)
    else Completes (.awlOpComplete n r) s fun t =>
      (∃ e, t.awl.fifo = s.awl.fifo ++ [e] ∧ e.1.toNat % 2 ^ 24 = (n + opCode o.kind * 2 ^ 20) % 2 ^ 24 ∧ e.1.getLsbD 31 = true) ∧
      Only [.doms, .time, .cause, .counters, .events, .held, .hbr, .banks, .awl, .scheds, .integ, .out, .free] s t ∧
      (o.kind = .eraseBank →
        let b := bankOf s n
        (bankOf t n).cells = [] ∧ (bankOf t n).levels = [] ∧ (bankOf t n).state = (if o.fromWorn then .retired else .erased) ∧
        (bankOf t n).wear = b.wear + (if (if o.fromErased then b.storageMode else b.lastStorage) then 10 else 3)) ∧
      (o.kind = .programRow ∨ o.kind = .programWord → (∀ c ∈ r.failing, 1120 ≤ c) → (∀ e ∈ r.refFailing, 1120 ≤ e.2) →
        bankOf t n = { (if (bankOf s n).storageMode then setLevels o.row.toNat o.target.toNat (bankOf s n)
          else setPhysRow o.row.toNat (o.target.toNat % 2 ^ 1152) (bankOf s n)) with
          ops := (bankOf s n).ops.filter fun p => p.order ≠ o.order }) ∧
      (o.kind = .readRow → (∀ p ∈ (bankOf s n).ops, opStopped p = false) → (bankOf s n).state = .ready ∨ (bankOf s n).state = .storage ∨ (bankOf s n).state = .worn →
        let parts := bufferParts (bankOf s n).storageMode (rowVector (bankOf s n) o.row.toNat)
        let a := o.addr.toNat / 64 * 64 % 2 ^ 30
        t.hbr = (storeRun 2336 (a + 0x180) parts.2 false (storeRun 2336 a parts.1 false s)).hbr))) ∧
  (∀ (n : Nat) (r : OpEnd) (s : State), bankExists s n = true → (∀ o ∈ (bankOf s n).ops, opRunning o = false) →
    exec (.awlOpComplete n r) s = .next s) ∧
  (∀ (n : Nat) (o : AwlOp) (s : State), bankExists s n = true →
    (bankOf s n).ops.find? (fun o => o.kind == .eraseBank && !(o.phase == .queued)) = some o → o.starved = false →
    let now := if o.phase = .suspended ∨ o.phase = .resuming then (tideOf s - o.suspendedAt).toNat else 0
    if dictNum s (ob 0x8030 1) * 1000000 < o.suspendedFor + now then Completes (.eraseStarvation n) s fun t =>
      BankStep n (fun b => { b with ops := b.ops.map fun p => if p.order = o.order then { p with starved := true } else p }) s t ∧
      Raised .eraseStarved 1 n s t ∧ counterOf t (ob 0x8031 1) = counterOf s (ob 0x8031 1) + 1 ∧ Only [.counters, .events, .held, .banks, .out] s t
    else exec (.eraseStarvation n) s = .next s)

/-- O48 (tier 2). A descriptor of a stopped request, or of a stream that is already known, does nothing. With none before
it, a good descriptor starts in the first free slot of the Ferry with the fewest streams, a bad one starts no stream,
raises BAD_DESCRIPTOR and poisons its stream's data; where no slot is free it waits. A waiting descriptor that takes a
slot is one that no other goes before. A stream whose turn it is goes on with the slab that its Lace's former stream
left open, or takes the first reserved handle of its launch. A filled slab of a Harbour source that is the last of its
stream or has no room left is written to its handle's slab, converted, and pushed as one entry to every consumer, and
the stream moves on. A source that cannot be read stops the request with HOST_ACCESS. A cancelled stream with no slab
left is gone; one with a slab gives it up to its clear, and it is counted; a slab that holds other requests' data too
goes on to them. Rests on R120, R179, R181, R182, R183, R184, R185, R186, R189, R190, R192, R193. -/
def Obligations.FerryStreams : Prop :=
  (∀ (b : Bytes) (s : State), reqRecalled s (descOf (fit b 64)).request.toNat = true ∨ streamKnown s (descOf (fit b 64)) = true →
    exec (.ferryDescriptorIssue b) s = .next s) ∧
  (∀ (b : Bytes) (f k : Nat) (s : State), let d := descOf (fit b 64)
    reqRecalled s d.request.toNat = false → streamKnown s d = false → s.flow.waiting = [] → descBad d = false → emptiestFerry s = some f →
    freeKey (ferryOf s f).streams 16 = some k → Completes (.ferryDescriptorIssue b) s fun t =>
      (∃ st, streamOf t f k = some st ∧ st.desc = d ∧ st.order = s.flow.nextOrder ∧ st.pos = 0 ∧ st.seq = 0 ∧ st.filling = [] ∧
        st.cancelled = false) ∧
      (∀ g, g ≠ f → ferryOf t g = ferryOf s g) ∧ t.flow.nextOrder = s.flow.nextOrder + 1 ∧ t.flow.waiting = [] ∧ Only [.flow] s t) ∧
  (∀ (b : Bytes) (f : Nat) (s : State), let d := descOf (fit b 64)
    reqRecalled s d.request.toNat = false → streamKnown s d = false → s.flow.waiting = [] → descBad d = true → emptiestFerry s = some f →
    ∃ u, u.flow.ferries = s.flow.ferries ∧ u.flow.waiting = [] ∧
      Raised .badDescriptor 5 f s u ∧ counterOf u (ob 0x4023 1) = counterOf s (ob 0x4023 1) + 1 ∧
      Only [.counters, .events, .held, .flow, .out] s u ∧
      (descMcast d = false ∨ dudDesc s d = none → exec (.ferryDescriptorIssue b) s = .next (poisonStream f d u)) ∧
      (∀ e, descMcast d = true → dudDesc s d = some e → exec (.ferryDescriptorIssue b) s = .next (beginStream f s.flow.nextOrder e true u) ∧
        descBad e = false ∧ e.request = d.request ∧ e.stream = d.stream)) ∧
  (∀ (b : Bytes) (s : State), let d := descOf (fit b 64)
    reqRecalled s d.request.toNat = false → streamKnown s d = false → emptiestFerry s = none →
    exec (.ferryDescriptorIssue b) s = .next { s with flow := { s.flow with
      nextOrder := s.flow.nextOrder + 1, waiting := s.flow.waiting ++ [(s.flow.nextOrder, d)] } }) ∧
  (∀ (s : State) (f : Nat), emptiestFerry s = some f → f < 256 ∧ (ferryOf s f).retired = false ∧ (ferryOf s f).streams.length < 16 ∧
    ∀ g, g < 256 → (ferryOf s g).retired = false → (ferryOf s f).streams.length ≤ (ferryOf s g).streams.length) ∧
  (∀ (f : Fin 256) (s : State), emptiestFerry s ≠ some f.val → exec (.ferrySlotStart f) s = .next s) ∧
  (∀ (f : Fin 256) (e : Nat × Desc) (k : Nat) (s : State), emptiestFerry s = some f.val →
    firstWaiting s.flow.waiting = some e → descBad e.2 = false → freeKey (ferryOf s f).streams 16 = some k →
    Completes (.ferrySlotStart f) s fun t =>
      (∃ st, streamOf t f k = some st ∧ st.desc = e.2 ∧ st.order = e.1 ∧ st.dud = false) ∧
      t.flow.waiting = s.flow.waiting.filter (fun x => x.1 ≠ e.1) ∧ Only [.flow] s t) ∧
  (∀ (l : List (Nat × Desc)) (e : Nat × Desc), firstWaiting l = some e → e ∈ l ∧
    ∀ k ∈ l, dueBefore (k.2.deadline, k.1) (e.2.deadline, e.1) = false) ∧
  (∀ (f : Fin 256) (j : Fin 16) (st : Stream) (n : Nat) (la : Lace) (s : State),
    streamOf s f j = some st → fillsSlabs st.desc = true → readyToFetch s f j st = true → firstStream s f j st = true →
    destLace s st.desc = some n → tget? s.flow.laces n = some la →
    (∀ o, openFor s n st = some o → Completes (.slabFillStart f j) s fun t =>
      streamOf t f j = some { st with filling := [o.h] } ∧ Only [.flow] s t ∧
      tget? t.flow.laces n = some { la with
        held := la.held.map fun k => if k.h = o.h then { k with reqs := k.reqs ++ [st.desc.request.toNat] } else k }) ∧
    (∀ (x : Launch) (h : BitVec 16) (rest : List (BitVec 16)), openFor s n st = none → la.held.length < la.depth →
      tget? s.model.launches la.launch = some x → x.reserved = h :: rest → Completes (.slabFillStart f j) s fun t =>
        streamOf t f j = some { st with filling := st.filling ++ [h] } ∧
        tget? t.flow.laces n = some { la with held := la.held ++
          [{ h, reqs := [st.desc.request.toNat], waits := List.range la.consumers.length, vec := 0, off := 0, ferry := true }] } ∧
        tget? t.model.launches la.launch = some { x with reserved := rest } ∧ Only [.model, .flow] s t)) ∧
  (∀ (f : Fin 256) (j : Fin 16) (r : HostRead) (st : Stream) (n : Nat) (la : Lace) (h : BitVec 16) (rest : List (BitVec 16)) (s : State),
    (tkeys (ferryOf s f).streams).Pairwise (· < ·) → streamOf s f j = some st → st.cancelled = false → runsWait s (pushRuns s f j st) = false →
    st.desc.dstKind = 0 → descMcast st.desc = false → st.dud = false → st.filling = h :: rest → st.desc.srcKind = 1 →
    slabLate s st.desc = false →
    n = st.desc.laceOut.toNat → tget? s.flow.laces n = some la → la.partialSlab = none →
    (∀ a ∈ stillToFeed s n, a = st.desc.request.toNat) → ∃ u, exec (.slabPush f j r) s = .next (endFor st.desc.request.toNat u) ∧
      ∃ (b : Bytes) (e : LaceEntry) (v : State),
        u.hbr = (storeRun (ferryPort f st.desc) (slabAddr h.toNat) b e.poison v).hbr ∧ e.slab = h ∧
        e.fill = BitVec.ofNat 15 b.length ∧ e.late = false ∧ e.seq = BitVec.ofNat 12 la.pushed ∧
        (∀ x, tget? s.model.launches la.launch = some x → e.gen = x.gen) ∧
        (∃ la', tget? u.flow.laces n = some la' ∧ la'.pushed = la.pushed + 1 ∧ la'.held.map (fun k => k.h) = la.held.map (fun k => k.h) ∧
          la'.partialSlab = none ∧ la'.fed = (if e.last then la.fed ++ [st.desc.request.toNat] else la.fed) ∧
          la'.consumers = la.consumers.map fun c => { c with waiting := c.waiting ++ [e] }) ∧
        (if e.last then streamOf u f j = none
          else ∃ st', streamOf u f j = some st' ∧ st'.filling = rest ∧ st'.seq = st.seq + 1) ∧
        (descPlanes st.desc = false → descSplit st.desc = false →
          let len := min (srcPerSlab st.desc) (st.desc.length.toNat - st.pos)
          let a := st.desc.srcAddr.toNat + st.pos
          b = convertBytes st.desc (harbRead s a len) ∧ e.special = false ∧
          e.poison = (List.range len).any (fun i => domState s (domSeg (addrSeg (a + i))) == .failed || wordBad s.hbr ((a + i) / 8)) ∧
          e.last = decide (st.desc.length.toNat ≤ st.pos + len)) ∧
        Only [.time, .cause, .counters, .events, .held, .flow, .hbr, .integ, .out] s u) ∧
  (∀ (f : Fin 256) (j : Fin 16) (st : Stream) (h : BitVec 16) (rest : List (BitVec 16)) (s : State),
    streamOf s f j = some st → st.cancelled = false → runsWait s (pushRuns s f j st) = false → fillsSlabs st.desc = true →
    st.dud = false → st.filling = h :: rest → 2 ≤ st.desc.srcKind.toNat → exec (.slabPush f j .failed) s =
      .next (endFor st.desc.request.toNat (stopRequest st.desc.request.toNat St.hostAccess (streamDetail s st.desc) false s))) ∧
  (∀ (f : Fin 256) (j : Fin 16) (r : HostRead) (st : Stream) (s : State), streamOf s f j = some st → st.cancelled = true →
    exec (.slabPush f j r) s = .next s ∧
    (st.filling = [] → ∃ u, exec (.cancelledSlabRecall f j) s = .next (endFor st.desc.request.toNat u) ∧
      (ferryOf u f).streams = tdel (ferryOf s f).streams j ∧ Only [.flow] s u) ∧
    (∀ h rest n la, st.filling = h :: rest → laceOfHandle s h = some (n, la) → tget? s.flow.laces n = some la → la.partialSlab = none →
      ∃ u, exec (.cancelledSlabRecall f j) s = .next (endFor st.desc.request.toNat u) ∧
        counterOf u (ob 0x4022 1) = counterOf s (ob 0x4022 1) + 1 ∧
        (if rest = [] then (ferryOf u f).streams = tdel (ferryOf s f).streams j
          else streamOf u f j = some { st with filling := rest }) ∧
        tget? u.flow.laces n = some { la with held := la.held.map fun k => if k.h = h then { k with waits := [] } else k } ∧
        (h ∉ s.flow.recomputeHolds → (∀ c ∈ s.flow.clearing, c.1 ≠ h) →
          (∃ p, u.flow.clearing = s.flow.clearing ++ [(h, p)]) ∧
          u.hbr = { s.hbr with clears := s.hbr.clears ++ [(slabAddr h.toNat, 16384)] }) ∧
        Only [.counters, .flow, .hbr] s u) ∧
    (∀ h rest n la o, st.filling = h :: rest → laceOfHandle s h = some (n, la) → tget? s.flow.laces n = some la → la.partialSlab = some o →
      o.h = h → (∃ k ∈ la.held, k.h = h ∧ onlyStopped s st.desc.request.toNat k = false) →
      ∃ u, exec (.cancelledSlabRecall f j) s = .next (endFor st.desc.request.toNat (discardLate (flushOpen n u))) ∧
        counterOf u (ob 0x4022 1) = counterOf s (ob 0x4022 1) + 1 ∧ u.flow.laces = s.flow.laces ∧ Only [.counters, .flow] s u))

/-- O49 (tier 2). Where launches may be admitted, pending configuration becomes active first; a launch at the head whose
islands, homes and Shank are ready and that fits the handles and the budget is admitted with the values of that
moment; one whose islands are not ready has them woken, and one that does not fit waits. An output stream's consumer
takes the oldest entry that waits for it and appends its slab to what it has. A handle is released by a consumer that
has no entry of it waiting and no row group of it left, and the clear of its slab starts when all have released it and
no recompute holds it. At the end of a clear of a slab that no Lace holds, its bytes read 0 and every other byte as
before, and the handle is back in its pool. Under DISCARD a request whose deadline has passed completes with
DEADLINE_MISSED, counted and reported once. Rests on R24, R33, R143, R178, R179, R180, R189, R190, R194, R195, R453,
R484. -/
def Obligations.HandlesAndLaunches : Prop :=
  (∀ (s : State), admissionClosed (askReady s) = true → exec .launchAdmit s = .next (askReady s)) ∧
  (∀ (g : GovItem) (rest : List GovItem) (s : State), admissionClosed (askReady s) = false → let u := activateNow (askReady s)
    u.power.waiting = g :: rest →
    Completes .launchAdmit s (fun t => Only [.power, .doms, .gov, .time, .regs, .cause, .counters, .events, .monitors, .que, .held, .model, .flow, .hbr, .banks, .islands, .clusters, .scheds, .integ, .strait, .out, .free] s t ∧ u.regs.capActive = s.regs.capPending ∧
      u.regs.modeActive = s.regs.modePending ∧ u.regs.splitActive = s.regs.splitPending) ∧
    (∀ (slot : Nat) (gen : BitVec 16) (layer : Nat) (reqs : List (Nat × Nat)) (agreed : Option (BitVec 64)) (x : LaunchSpec),
      g.work = .step slot gen layer reqs agreed →
      (let mb := ((planOf u slot gen).bind fun p => (layerOf p layer).map fun y => y.microBatch).getD 1
       let all := if agreed.isSome then reqs else (mergeSteps u slot gen layer (max 1 mb) rest reqs).1
       launchSpec u slot gen layer all agreed = some x) →
      (specReady u x = false → exec .launchAdmit s = .next (wakeFor x u)) ∧
      (specReady u x = true → (tget u.flow.pools slot []).length < depthSum x.plan layer →
        Completes .launchAdmit s fun t => t.model = u.model ∧ t.flow = u.flow ∧ t.islands = u.islands) ∧
      (specReady u x = true → depthSum x.plan layer ≤ (tget u.flow.pools slot []).length →
        (arrayFits u (3150 * (specArrays x).length) = false → exec .launchAdmit s = .next u) ∧
        (arrayFits u (3150 * (specArrays x).length) = true →
          ∃ (v : State) (k : Launch) (ls : List (LacePlan × Nat)) (offs : List (Nat × Nat)),
            exec .launchAdmit s = .next (settleLaunch u.model.nextLaunch (issueStreams x ls offs v)) ∧
            v.model.nextLaunch = u.model.nextLaunch + 1 ∧ tget? v.model.launches u.model.nextLaunch = some k ∧
            k.slot = slot ∧ k.layer = layer ∧ k.reqs = x.reqs ∧ k.strict = strictOn u ∧ k.values = launchValues u ∧
            k.charged = decide (0 < (specArrays x).length)))) ∧
    (∀ c, g.work = .cluster c → exec .launchAdmit s = .next (
      if u.power.standing = some c ∨ c ∈ u.power.shankCharged then { u with power := { u.power with waiting := rest } }
      else if shankFits u then { u with power := { u.power with waiting := rest, shankCharged := u.power.shankCharged ++ [c] } }
      else u))) ∧
  (∀ (n : Fin 4096) (k f j : Nat) (la : Lace) (c : LaceConsumer) (e : LaceEntry) (w : List LaceEntry) (st : Stream) (s : State),
    tget? s.flow.laces n = some la → la.consumers[k]? = some c → c.waiting = e :: w → c.who = .ferry f j →
    streamOf s f j = some st → (∃ x ∈ la.held, x.h = e.slab ∧ st.desc.request.toNat ∈ x.reqs) → firstStream s f j st = true →
    runWaits s (slabAddr e.slab.toNat) e.fill.toNat = false → Completes (.laceEntryReceive n k) s fun t =>
      (∃ st', streamOf t f j = some st' ∧ st'.buf = st.buf ++ harbRead s (slabAddr e.slab.toNat) e.fill.toNat ∧
        st'.bufBad = st.bufBad ++ (List.range e.fill.toNat).map (fun i =>
          domState s (domSeg (addrSeg (slabAddr e.slab.toNat + i))) == .failed || wordBad s.hbr ((slabAddr e.slab.toNat + i) / 8)) ∧
        st'.bufSlabs = st.bufSlabs + 1) ∧
      (∃ la', tget? t.flow.laces n = some la' ∧ la'.consumers[k]? = some { c with waiting := w } ∧ la'.held = la.held) ∧
      Only [.time, .cause, .counters, .events, .que, .held, .flow, .hbr, .integ, .out] s t) ∧
  (∀ (n : Fin 4096) (k : Nat) (s : State), (∀ la c, tget? s.flow.laces n = some la → la.consumers[k]? = some c → c.waiting = []) →
    exec (.laceEntryReceive n k) s = .next s) ∧
  (∀ (h : BitVec 16) (k n : Nat) (la : Lace) (c : LaceConsumer) (s : State), laceOfHandle s h = some (n, la) →
    tget? s.flow.laces n = some la → la.consumers[k]? = some c →
    if entryWaits c h = true ∨ (∃ x ∈ la.held, x.h = h ∧ x.awaits = true) ∨ beingFilled s h = true ∨ la.partialSlab.map (fun o => o.h) = some h ∨ stillReads s c.who h = true then
      exec (.handleRelease h k) s = .next s
    else Completes (.handleRelease h k) s fun t =>
      tget? t.flow.laces n = some { la with
        held := la.held.map fun x => if x.h = h then { x with waits := x.waits.filter fun i => i ≠ k } else x } ∧
      (if (∃ x ∈ la.held, x.h = h ∧ (∀ i ∈ x.waits, i = k)) ∧ h ∉ s.flow.recomputeHolds ∧ (∀ x ∈ s.flow.clearing, x.1 ≠ h) then
        (∃ p, t.flow.clearing = s.flow.clearing ++ [(h, p)]) ∧
        t.hbr = { s.hbr with clears := s.hbr.clears ++ [(slabAddr h.toNat, 16384)] }
      else t.flow.clearing = s.flow.clearing ∧ t.hbr = s.hbr) ∧ Only [.flow, .hbr] s t) ∧
  (∀ (h : BitVec 16) (pool : Nat) (s : State), s.flow.clearing.find? (fun c => c.1 = h) = some (h, pool) → laceOfHandle s h = none →
    s.hbr.waiting = [] → (segOf s (handleSeg h)).next = none → domState s (domSeg (handleSeg h)) ≠ .failed →
    Completes (.slabCleared h) s fun t =>
      (∀ a, byteAt t.hbr a = if slabAddr h.toNat ≤ a ∧ a < slabAddr h.toNat + 16384 then 0 else byteAt s.hbr a) ∧
      tget t.flow.pools pool [] = tget s.flow.pools pool [] ++ [h] ∧ (∀ c ∈ t.flow.clearing, c.1 ≠ h) ∧
      t.hbr.clears = s.hbr.clears.erase (slabAddr h.toNat, 16384) ∧ Only [.counters, .flow, .hbr] s t) ∧
  (∀ (a : Fin 4096) (r : Req) (d : BitVec 64) (s : State), tget? s.que.reqs a = some r → r.deadline = some d → r.stopped = none →
    d.toNat < (tideOf s).toNat → reqDiscards s a = true → Finishes (.requestDeadlinePass a) s a St.deadlineMissed fun u =>
      ∃ v, u = revertKv a (recallRequest a v) ∧ Raised .deadlineMissed 9 a s v ∧
        counterOf v (ob 0x4050 1) = counterOf s (ob 0x4050 1) + 1 ∧ counterOf v (ob 0x4053 1) = counterOf s (ob 0x4053 1) + 1 ∧
        ∃ r', tget? v.que.reqs a = some r' ∧ r'.discarded = true ∧ r'.stopped = some (BitVec.ofNat 8 St.deadlineMissed)) ∧
  (∀ (a : Fin 4096) (s : State), reqDiscards s a = false → exec (.requestDeadlinePass a) s = .next s)

/-- O50 (tier 2). For any driven rows of 32 data bits, the sum D of the data-column counts and the counts of the three
check columns, which hold bits 0 to 2 of each row's popcount, agree: D ≡ C0 + 2 × C1 + 4 × C2 (mod 8). An exact-class
result passes the Welt only if its row echo agrees, no column is UNDER or OVER, and the identity holds in each of the
32 groups; a tolerant one is tested by the echo alone. Also: the sum of the plane sums over the column counts is Σ W ×
X (R90), and ALIGN's exponent is the least for which every rounded finite element fits B bits, 0 where none is nonzero
(R121). Formalises R61. -/
def Obligations.ExactSums : Prop :=
  (∀ rows : List Nat, (∀ w ∈ rows, w < 2 ^ 32) →
    let d := (rows.map (popNat 32)).sum
    let c := fun k => (rows.filter fun w => bitAt (residueBits w) k).length
    d % 8 = (c 0 + 2 * c 1 + 4 * c 2) % 8 ∧ residueOk d (c 0) (c 1) (c 2) = true) ∧
  (∀ p : Pulse,
    (pulsePasses false p = true ↔ p.echoCount = p.group.pop ∧ p.echoSum = p.group.isum ∧ p.unders = [] ∧ p.overs = [] ∧
      ∀ g, g < 32 → ((p.codes.drop (32 * g)).take 32).sum % 8 =
        (p.codes.getD (1024 + 3 * g) 0 + 2 * p.codes.getD (1025 + 3 * g) 0 + 4 * p.codes.getD (1026 + 3 * g) 0) % 8) ∧
    (pulsePasses true p = true ↔ p.echoCount = p.group.pop ∧ p.echoSum = p.group.isum)) ∧
  (∀ (cols planes : Nat) (rows : List (Nat × Nat)), 1 ≤ cols → 1 ≤ planes → (∀ r ∈ rows, r.1 < 2 ^ cols ∧ r.2 < 2 ^ planes) →
    ((List.range planes).map fun b => planeSum cols planes b ((List.range cols).map fun a =>
      (rows.filter fun r => bitAt r.1 a && bitAt r.2 b).length)).sum =
    (rows.map fun r => signedAt cols r.1 * signedAt planes r.2).sum) ∧
  (∀ (b : Nat) (vs : List (Option (Int × Int))), 2 ≤ b →
    ((∃ n x, some (n, x) ∈ vs ∧ n ≠ 0) →
      alignFits b vs (alignVec b vs).ex = true ∧ ∀ e, e < (alignVec b vs).ex → alignFits b vs e = false) ∧
    ((∀ n x, some (n, x) ∈ vs → n = 0) → (alignVec b vs).ex = 0) ∧
    (alignVec b vs).xs = vs.map (fun v => match v with | none => 0 | some (n, x) => rne n (x - (alignVec b vs).ex)) ∧
    (alignVec b vs).specials = vs.count none)

/-- O51 (tier 2). The first thread with a group ready for an idle array of an island that is ON starts its next row group
there. An undisturbed exact cycle delivers, for every logical column, the number of driven rows whose cell holds
logical 1, with no flag and with the group's row echo. The Welt takes a limited number of results at once and adds a
result that passes into the lanes of its join; a first failure is not added, is counted, and puts the same group back
in front for one re-run; a second sends a recompute request to a cluster with the fewest outstanding, holds the slab,
and marks the bank suspect. A long-sum packet for an open join from a source that is still to come adds its lanes; any
other is discarded, counted and reported. Rests on R23, R44, R46, R49, R51, R90, R93, R100, R101, R103, R104, R143. -/
def Obligations.PulseCyclesAndWelt : Prop :=
  (∀ (i : Nat) (a : Fin 256) (t : Nat) (th : Thread) (w : SliceWork) (g : Group) (rest : List Group) (s : State), i < nIslands s →
    firstThread ((islandOf s i).threads.filter fun t => threadBegun s t.2 && (readyWork (i * 256 + a) t.2).isSome) = some (t, th) →
    tget? (islandOf s i).threads t = some th → t < 16 → readyWork (i * 256 + a) th = some w → w.groups = g :: rest →
    tget? (islandOf s i).pulses a = none → dipHolds s = false → domIsOn s i = true → bankBusy s w.bank = false →
    (schedOf s w.bank).run = none → Completes (.rowGroupStart i a) s fun u =>
      tget? (islandOf u i).computing a = some (w.bank % 2) ∧ (∃ p, tget? (islandOf u i).pulses a = some p ∧ p.thread.val = t ∧ p.slice = w.slice ∧ p.bank = w.bank ∧ p.group = g ∧
        p.ended = false) ∧
      tget? (islandOf u i).threads t = some { th with works := th.works.map fun k =>
        if k.slice = w.slice then { w with groups := rest } else k } ∧
      (∀ k, k ≠ i → islandOf u k = islandOf s k) ∧ Only [.islands, .scheds] s u) ∧
  (∀ (i : Nat) (a : Fin 256) (s : State), i < nIslands s →
    (∀ t ∈ (islandOf s i).threads, threadBegun s t.2 = false ∨ readyWork (i * 256 + a) t.2 = none) →
    exec (.rowGroupStart i a) s = .next s) ∧
  (∀ (i : Nat) (a : Fin 256) (p : Pulse) (th : Thread) (w : SliceWork) (s : State), i < nIslands s →
    tget? (islandOf s i).pulses a = some p → p.ended = false → pulseWork s i p = some (th, w) → w.tolerant = false →
    let rows := (List.range 1024).filter fun r => p.group.mask.getLsbD r
    p.group.pop = rows.length → Completes (.pulseCycleEnd i a { rows := [], edges := [], slip := 0 }) s fun u =>
      tget? (islandOf u i).pulses a = some { p with
        ended := true
        codes := (List.range 1120).map fun c => (rows.filter fun r => bitAt (logicalRow (bankOf s p.bank) r) c).length
        unders := [], overs := [], echoCount := rows.length, echoSum := BitVec.ofNat 16 rows.sum } ∧
      Only [.counters, .monitors, .banks, .islands] s u) ∧
  (∀ (i : Nat) (a : Fin 256) (d : Disturb) (p : Pulse) (s : State), i < nIslands s → tget? (islandOf s i).pulses a = some p →
    p.ended = true → exec (.pulseCycleEnd i a d) s = .next s) ∧
  (∀ (i : Nat) (a : Fin 256) (p : Pulse) (th : Thread) (w : SliceWork) (x : Launch) (s : State), i < nIslands s →
    tget? (islandOf s i).pulses a = some p → p.ended = true → pulseWork s i p = some (th, w) →
    tget? s.model.launches th.launch = some x →
    let id := w.joinBase + p.group.vec
    (weltTakes s i a p = false → ∀ us, exec (.weltAccept i a us) s = .next s) ∧
    (weltTakes s i a p = true → pulsePasses w.tolerant p = true → ∀ j, tget? (islandOf s i).joins id = some j → j.dev = [] → i < 2048 →
      ∃ u, exec (.weltAccept i a []) s = .next (markFinals i p.thread u) ∧ (islandOf u i).pulses = tdel (islandOf s i).pulses a ∧
        tget? (islandOf u i).joins id = some { j with lanes := addCounts s x w p.group p.codes j.lanes } ∧ Only [.islands] s u) ∧
    (weltTakes s i a p = true → pulsePasses w.tolerant p = false → w.rerun = false → p.echoCount = p.group.pop →
      p.echoSum = p.group.isum → Completes (.weltAccept i a []) s fun u =>
        (islandOf u i).pulses = tdel (islandOf s i).pulses a ∧ (∀ k, tget? (islandOf u i).joins k = tget? (islandOf s i).joins k) ∧
        counterOf u (ob 0x3013 1) = counterOf s (ob 0x3013 1) + 1 ∧
        tget? (islandOf u i).threads p.thread = some { th with works := th.works.map fun k =>
          if k.slice = w.slice then { w with groups := p.group :: w.groups, rerun := true } else k } ∧
        Only [.power, .doms, .gov, .time, .cause, .counters, .events, .que, .held, .model, .flow, .hbr, .banks, .islands, .clusters, .scheds, .integ, .strait, .out, .free] s u) ∧
    (weltTakes s i a p = true → pulsePasses w.tolerant p = false → w.rerun = true → recomputeCluster s = none →
      Completes (.weltAccept i a []) s fun u => (islandOf u i).pulses = (islandOf s i).pulses ∧
        (islandOf u i).threads = (islandOf s i).threads ∧ (∀ k, tget? (islandOf u i).joins k = tget? (islandOf s i).joins k) ∧
        Only [.islands, .clusters] s u) ∧
    (∀ c, weltTakes s i a p = true → pulsePasses w.tolerant p = false → w.rerun = true → recomputeCluster s = some c →
      p.echoCount = p.group.pop → p.echoSum = p.group.isum → ∃ u, exec (.weltAccept i a []) s = .next (markFinals i p.thread u) ∧
        (∃ n r, tget? (clusterOf u c).recomputes n = some r ∧ r.island = i ∧ r.join = id ∧ r.slice = w.slice ∧ r.bank = w.bank ∧
          r.plane = p.group.plane ∧ r.handle = p.group.handle ∧ r.started = false ∧ r.since = tideOf s) ∧
        u.flow.recomputeHolds = s.flow.recomputeHolds ++ [p.group.handle] ∧ (bankOf u w.bank).suspect = true ∧
        counterOf u (ob 0x3014 1) = counterOf s (ob 0x3014 1) + 1)) ∧
  (∀ (i : Nat) (h : Flit) (body : List Flit) (s : State), i < nIslands s →
    ((flitData h).2 = true ∨ packetHome s i (bitsAt (flitData h).1.toNat 30 15) = none) →
    Completes (.longSumReceive i (h :: body)) s fun u => Raised .packetFault 3 (bitsAt (flitData h).1.toNat 45 31) s u ∧
      counterOf u (ob 0x3015 1) = counterOf s (ob 0x3015 1) + 1 ∧ Only [.counters, .events, .held, .flow, .out] s u) ∧
  (∀ (i : Nat) (h : Flit) (body : List Flit) (j : Join) (s : State), i < nIslands s → i < 2048 → (flitData h).2 = false →
    let header := (flitData h).1.toNat
    let id := bitsAt header 30 15
    let lanes := parseLanes (bitsAt header 14 3) (body.map flitData)
    tget? (islandOf s i).joins id = some j → j.dev = [] →
    (∃ x ∈ j.sources, packetSource (selfId s) header j.sources x.id = true ∧ x.final = false) →
    (∀ e ∈ lanes, e.1 < j.lanes.length) → (bitAt header 0 && bitAt header 42 && decide (bitsAt header 45 43 = selfId s)) = false →
    ∃ u, exec (.longSumReceive i (h :: body)) s = .next (endLaunch j.launch (settleLaunch j.launch u)) ∧ Only [.flow, .islands] s u ∧
      ∃ j', tget? (islandOf u i).joins id = some j' ∧
        j'.lanes = lanes.foldl (fun ls e => ls.set e.1 (ls.getD e.1 0 + e.2.1)) j.lanes ∧
        (bitAt header 0 = false → j'.sources = j.sources)) ∧
  (∀ (s : State) (c : Nat), recomputeCluster s = some c → domIsOn s (domCluster c) = true ∧ (clusterOf s c).retired = false ∧
    (clusterOf s c).recomputes.length < 32 ∧ ∀ k, k ∈ recomputeClusters s →
      (clusterOf s c).recomputes.length ≤ (clusterOf s k).recomputes.length)

/-- O52 (tier 2). A recompute request that has no tile becomes one of priority 1 at its cluster. A running cluster that is
between tiles takes a waiting tile of the highest priority present, and idles where none waits; one that may not run
takes none. A recompute whose tile is taken starts with the rows of its remaining non-zero integers. A row that its
streaming read delivers leaves its list and is added into its exact lanes, or marks the recompute poisoned where no
read of it passes. The tile of a recompute with every row added sends its long-sum packet, with FINAL, to its join. A
bank that needs no cover gets none; one that does is covered, with a copy of its rows in 8 SHARED slabs, and with no
copy where the budget is spent. Rests on R132, R134, R136, R143, R144, R145, R146, R147, R330, R484. -/
def Obligations.ShankWork : Prop :=
  (∀ (c : Fin 16) (n : Nat) (s : State), newRecompute (clusterOf s c) = some n → Completes (.recomputeReceive c) s fun t =>
    (clusterOf t c).tiles = (clusterOf s c).tiles ++ [{ prio := 1, deadline := none, order := n, work := .recompute n }] ∧
    (clusterOf t c).recomputes = (clusterOf s c).recomputes ∧
    (clusterAsked s c = false → ∃ g, t.power.waiting = s.power.waiting ++ [g] ∧ g.work = .cluster c) ∧ Only [.doms, .gov, .cause, .counters, .clusters] s t) ∧
  (∀ (c : Fin 16) (s : State), newRecompute (clusterOf s c) = none → exec (.recomputeReceive c) s = .next s) ∧
  (∀ l : List Tile, (nextTile l = none ↔ l = []) ∧ ∀ t, nextTile l = some t → t ∈ l ∧ ∀ u ∈ l, t.prio ≤ u.prio) ∧
  (∀ (c : Fin 16) (us : List (Nat × Nat)) (s : State), clusterRuns s c = false → exec (.shankTileBoundary c us) s = .next s) ∧
  (∀ (c : Fin 16) (us : List (Nat × Nat)) (s : State), clusterRuns s c = true → (clusterOf s c).current = none →
    Completes (.shankTileBoundary c us) s fun t =>
      Only [.doms, .time, .cause, .counters, .events, .held, .hbr, .banks, .clusters, .awl, .scheds, .integ, .out] s t ∧
      (clusterOf t c).current = nextTile (clusterOf s c).tiles ∧
      (clusterOf t c).tiles = (match nextTile (clusterOf s c).tiles with
        | some k => (clusterOf s c).tiles.erase k
        | none => (clusterOf s c).tiles) ∧
      (∀ k n r, (clusterOf s c).tiles = [k] → k.work = .recompute n → tget? (clusterOf s c).recomputes n = some r →
        r.started = false → runWaits s (recomputeRun r).1 (recomputeRun r).2 = false →
        tget? (clusterOf t c).recomputes n = some { r with
          started := true, rowsLeft := (List.range r.rows).filter (fun i => (remainingInts s r).getD i 0 ≠ 0),
          poisoned := r.poisoned || hPoison s.hbr (recomputeRun r).1 (recomputeRun r).2 })) ∧
  (∀ (c : Fin 16) (k : Tile) (n : Nat) (r : Recompute) (j : Join) (s : State), clusterRuns s c = true →
    (clusterOf s c).current = some k → (clusterOf s c).bufferDev = [] → k.work = .recompute n →
    tget? (clusterOf s c).recomputes n = some r → r.started = true → r.rowsLeft = [] →
    tget? (islandOf s r.island).joins r.join = some j →
    ∃ v, exec (.shankTileBoundary c []) s = .next (endLaunch j.launch (settleLaunch j.launch (dropShank c (takeTile c v)))) ∧
      v.out = s.out ++ [.soundData (homePort r.island)
        (longSumPacket (selfId s) r.island (selfId s) true c r.join r.firstOutput r.lanes (fun _ => r.poisoned) true) r.poisoned] ∧
      (clusterOf v c).current = none ∧ (clusterOf v c).tiles = (clusterOf s c).tiles ∧ Only [.clusters, .flow, .out] s v) ∧
  (∀ (c : Fin 16) (reads : List Bytes) (n row : Nat) (rest : List Nat) (r : Recompute) (s : State),
    tget? (clusterOf s c).recomputes n = some r → r.started = true → r.rowsLeft = row :: rest → clusterRuns s c = true →
    bankBusy s r.bank = false → bankPulsing s r.bank = false → Completes (.streamReadRow c n reads) s fun t =>
      (∃ r', tget? (clusterOf t c).recomputes n = some r' ∧ r'.rowsLeft = rest ∧
        (match (tryReads s r.bank row reads).1 with
        | none => r'.lanes = r.lanes ∧ r'.poisoned = true
        | some v => r'.poisoned = r.poisoned ∧ (r.scaled = false →
            r'.lanes = addRow ((remainingInts s r).getD row 0) r.cols r.frac r.outputs (fun _ => 0) v r.lanes))) ∧
      (rest = [] → ∃ k ∈ (clusterOf t c).current.toList ++ (clusterOf t c).tiles, k.work = .recompute n) ∧
      (bankOf t r.bank).lastUse = some (tideOf s) ∧ Only [.gov, .time, .cause, .counters, .events, .held, .model, .hbr, .banks, .clusters, .awl, .scheds, .integ, .out] s t) ∧
  (∀ (c : Fin 16) (n : Nat) (reads : List Bytes) (s : State),
    (∀ r, tget? (clusterOf s c).recomputes n = some r → r.started = false ∨ r.rowsLeft = []) →
    exec (.streamReadRow c n reads) s = .next s) ∧
  (∀ (b : Nat) (s : State), bankExists s b = true → bankCovered s b = false → exec (.coverStart (.bank b)) s = .next s) ∧
  (∀ (b : Nat) (s : State), bankExists s b = true → bankCovered s b = true → (bankOf s b).storageMode = false →
    bankPlaced s b = true → tget? s.model.covers b = none → (schedOf s b).run = none →
    (8 * dictNum s (ob 0x5020 1) < coverCopies s + 1 → Completes (.coverStart (.bank b)) s fun t =>
      tget? t.model.covers b = some { forced := false, slabs := [], missing := [] } ∧ t.hbr = s.hbr ∧ Only [.time, .cause, .counters, .events, .held, .model, .hbr, .banks, .awl, .scheds, .integ, .out] s t) ∧
    (coverCopies s + 1 ≤ 8 * dictNum s (ob 0x5020 1) → 8 ≤ (sharedSlabs s).length → bankBusy s b = false → bankPulsing s b = false →
      runsWait s (((sharedSlabs s).take 8).map fun h => (slabAddr h.toNat, 16384)) = false →
      Completes (.coverStart (.bank b)) s fun t => ∃ lost, tget? t.model.covers b = some { forced := false, slabs := (sharedSlabs s).take 8, missing := lost } ∧
        lost = (List.range 1024).filter (fun r => (coverRow s b r).isNone) ∧ Only [.time, .cause, .counters, .events, .held, .model, .hbr, .banks, .awl, .scheds, .integ, .out] s t)) ∧
  (∀ (b : Nat) (s : State), bankExists s b = false → exec (.coverStart (.bank b)) s = .fault .absentUnit)

/-- O53 (tier 2). A read whose granules' valid bits are clear, in a segment that is ON and under no clear, answers a DATA
packet of zero flits with correct check bits, uses no slot, counts no error and changes nothing else; a write of a
whole granule sets the bit. Also: clean granules are answered as stored, a one-bit upset is corrected and written
back; a whole write reads back, with its poison marks, and no byte of another granule changes; a partial write changes
its own bytes alone, the rest of an invalid granule reading 0 (R163). An access to a region under clear or to a
segment in RET or OFF is held, RET being asked to wake. The end of a clear makes its region read 0 and no other byte.
BAR4 reaches a HOST segment and is dropped at a closed one (R167). A clean scrub changes nothing. A drain takes 1 from
each bucket of its kind. Formalises R162. -/
def Obligations.HarbourGranules : Prop :=
  (∀ (port : BitVec 12) (h : BitVec 30) (flits : Nat) (s : State), let n := max 1 (min 32 flits)
    let a := h.toNat / 8 * 8
    s.hbr.waiting = [] → runWaits s a (8 * n) = false → domState s (domSeg (addrSeg a)) ≠ .failed →
    ((∀ g ∈ granulesOf a (8 * n), isValid s.hbr g = false) →
      exec (.harbourRead port h flits []) s = .next { s with out := s.out ++
        [.soundData port (dataHeader s port a n false :: List.replicate n (mkFlit 0)) false] }) ∧
    ((∀ g ∈ granulesOf a (8 * n), ∀ k, k < 8 → wordSyn s.hbr (8 * g + k) = 0) → Completes (.harbourRead port h flits []) s fun t =>
      t.out = s.out ++ [.soundData port (dataHeader s port a n false :: (List.range n).map fun k =>
        mkFlit (BitVec.ofNat 64 (leNat (hRead s.hbr (a + 8 * k) 8)))) false] ∧
      t.hbr.data = s.hbr.data ∧ t.hbr.valid = s.hbr.valid ∧ t.hbr.dev = s.hbr.dev ∧ Only [.hbr, .out] s t)) ∧
  (∀ (port : BitVec 12) (h : BitVec 30) (k b : Nat) (s : State), s.hbr.waiting = [] → h.toNat % 64 = 0 → runWaits s h.toNat 64 = false →
    domState s (domSeg (addrSeg h.toNat)) ≠ .failed → isValid s.hbr (h.toNat / 64) = true → HarbourCanonical s → k < 8 → b < 64 →
    (∀ j, j < 8 → tget? s.hbr.dev (8 * (h.toNat / 64) + j) = none) →
    isHard s 0 (addrBank (8 * (8 * (h.toNat / 64) + k))) (8 * (h.toNat / 64) + k) b = false →
    Completes (.harbourRead port h 8 [(k, b)]) s fun t =>
      (∃ l, t.out = s.out ++ l ++ [.soundData port (dataHeader s port h.toNat 8 false :: (List.range 8).map fun j =>
        mkFlit (BitVec.ofNat 64 (leNat (hRead s.hbr (h.toNat + 8 * j) 8)))) false]) ∧
      (∀ a, byteAt t.hbr a = byteAt s.hbr a)) ∧
  (∀ (port : BitVec 12) (h : BitVec 30) (d : Bytes) (p : BitVec 8) (s : State), s.hbr.waiting = [] →
    runWaits s (64 * (h.toNat / 64)) 64 = false → domState s (domSeg (addrSeg h.toNat)) ≠ .failed → HarbourCanonical s →
    (tkeys s.hbr.dev).Pairwise (· < ·) →
    (Completes (.harbourWrite port h d p) s fun t =>
      isValid t.hbr (h.toNat / 64) = true ∧ hRead t.hbr (64 * (h.toNat / 64)) 64 = fit d 64 ∧
      (∀ k : Nat, k < 8 → wordBad t.hbr (8 * (h.toNat / 64) + k) = p.getLsbD k) ∧
      (∀ a, a / 64 ≠ h.toNat / 64 → byteAt t.hbr a = byteAt s.hbr a) ∧ HarbourCanonical t ∧ Only [.hbr] s t) ∧
    ((∀ j, j < 8 → tget? s.hbr.dev (8 * (h.toNat / 64) + j) = none) → Completes (.harbourPartialWrite port h d 0) s fun t =>
      isValid t.hbr (h.toNat / 64) = true ∧ Only [.hbr] s t ∧
      ∀ a, byteAt t.hbr a =
        if h.toNat ≤ a ∧ a < h.toNat + min d.length (64 - h.toNat % 64) then d.getD (a - h.toNat) 0 else byteAt s.hbr a)) ∧
  (∀ (port : BitVec 12) (h : BitVec 30) (d : Bytes) (p : BitVec 8) (flits : Nat) (s : State),
    accessWaits s (64 * (h.toNat / 64)) = true →
    let held := fun (c : Instr) (k : AccessKind) => Completes c s fun t =>
      t.hbr = { s.hbr with waiting := s.hbr.waiting ++ [{ port := port, h := h, kind := k }] } ∧ t.out = s.out ∧
      (domState s (domSeg (addrSeg h.toNat)) = .ret →
        (domOf t (domSeg (addrSeg h.toNat))).current = some .on ∨ (domOf t (domSeg (addrSeg h.toNat))).queued = some .on) ∧
      Only [.doms, .cause, .counters, .hbr] s t
    held (.harbourRead port h flits []) (.read (max 1 (min 32 flits))) ∧ held (.harbourWrite port h d p) (.write d p) ∧
    held (.harbourPartialWrite port h d p) (.partialWrite d p)) ∧
  (∀ (base : BitVec 30) (len : Nat) (s : State), s.hbr.clears.find? (fun r => r.1 = base.toNat) = some (base.toNat, len) →
    len < 2 ^ 26 → base.toNat % 64 = 0 → len % 64 = 0 → s.hbr.waiting = [] → Completes (.regionClearDone base) s fun t =>
      (∀ a, byteAt t.hbr a = if base.toNat ≤ a ∧ a < base.toNat + len then 0 else byteAt s.hbr a) ∧
      t.hbr.clears = s.hbr.clears.erase (base.toNat, len) ∧ t.hbr.cleared = s.hbr.cleared + len ∧
      counterOf t (ob 0x4002 1) = counterOf s (ob 0x4002 1) +
        BitVec.ofNat 64 ((s.hbr.cleared + len) / 2 ^ 20 - s.hbr.cleared / 2 ^ 20) ∧ Only [.counters, .hbr] s t) ∧
  (∀ (i : Initiator) (x : BitVec 30) (len : Nat) (s : State),
    i = .portD ∨ ((segOf s (addrSeg x.toNat)).use ≠ .host ∧
      (privileged s i = false ∨ ((segOf s (addrSeg x.toNat)).use ≠ .context ∧ (segOf s (addrSeg x.toNat)).use ≠ .system))) →
    (∀ d, exec (.bar4Access i x len (some d)) s = .next (bump (ob 0x4011 1) s)) ∧
    Completes (.bar4Access i x len none) s fun t => t.out = s.out ++ [.portData i (List.replicate len 0) false] ∧
      counterOf t (ob 0x4011 1) = counterOf s (ob 0x4011 1) + 1 ∧ Only [.counters, .out] s t) ∧
  (∀ (i : Initiator) (x : BitVec 30) (d : Bytes) (s : State), (segOf s (addrSeg x.toNat)).use = .host → i ≠ .portD → d ≠ [] →
    addrSeg (x.toNat + d.length - 1) = addrSeg x.toNat → s.hbr.waiting = [] → runWaits s x.toNat d.length = false →
    domState s (domSeg (addrSeg x.toNat)) ≠ .failed → (∀ w, wordSyn s.hbr w = 0) →
    Completes (.bar4Access i x d.length (some d)) s fun t =>
      t.hbr.data = (hWrite s.hbr x.toNat d false).data ∧ t.hbr.valid = (hWrite s.hbr x.toNat d false).valid ∧ Only [.hbr] s t) ∧
  (∀ s : State, (∀ w, wordSyn s.hbr w = 0) → exec (.patrolScrub []) s = .next s) ∧
  (∀ (kind : Fin 5) (s : State), Completes (.ceBucketDrain kind) s fun t =>
    (∀ k, tget? t.integ.buckets k = (tget? s.integ.buckets k).map fun b =>
      if k / 65536 = kind.val then { b with count := b.count - 1 } else b) ∧
    { t.integ with buckets := s.integ.buckets } = s.integ ∧ Only [.integ] s t)

/-- O54 (tier 2). A second of powered time adds one step of the curve to the drift age of every placed bank and to no
other. A due top-up run on an idle bank starts at row 0 with an operation of its own, and a preempted one goes on at
its next row; one that is not due or not allowed changes nothing. The period timer marks a placed bank's test due once
its period has passed. An idle window opens on the spill group's banks. Work of one kind that is due for longer than
the limit forces a cover, once, with an event. Each hour opens one re-run bucket on every bank. Every 60 s the powered
time, the drift ages and the re-run buckets are stored. Rests on R294, R296, R297, R302, R303, R304, R305, R306, R315,
R491. -/
def Obligations.CobblerDueWork : Prop :=
  (∀ s : State, (tkeys s.banks).Pairwise (· < ·) →
    if uzomelRuns s = false ∨ poweredS s ≤ s.time.driftAt then exec .driftAgeTick s = .next s
    else Completes .driftAgeTick s fun t => t.time = { s.time with driftAt := s.time.driftAt + 1 } ∧
      (∀ n, (schedOf t n).drift = if n ∈ placedBanks s then
          min (2 ^ 64 - 1) ((schedOf s n).drift +
            driftPerSecond (topupCurve s) (bankClass s n = 2) (monOf s (ob 0x9031 0) (bankIsland n)).last.toNat)
        else (schedOf s n).drift) ∧ Only [.time, .counters, .events, .held, .model, .banks, .scheds, .out] s t) ∧
  (∀ (n : Nat) (s : State), bankExists s n = true →
    let d := schedOf s n
    if runAllowed s n = true ∧ (d.dueFloor = true ∨ windowElsewhere s n = false) then Completes (.topupRunStart n) s fun t =>
      (schedOf t n).run = some { next := 0, floor := d.dueFloor, preempted := false, permille := min 1000 (d.drift * 1000 / 2 ^ 48) } ∧
      (∃ o ∈ (bankOf t n).ops, o.kind = .topUpRow ∧ o.run = true ∧ o.row = 0 ∧ o.floor = d.dueFloor) ∧
      (bankOf t n).state = (bankOf s n).state ∧
      (∀ k, k ≠ n → (k ≠ sister n ∨ d.dueFloor = false) → tget? t.banks k = tget? s.banks k) ∧ Only [.doms, .time, .cause, .counters, .events, .held, .hbr, .banks, .awl, .scheds, .integ, .out] s t
    else exec (.topupRunStart n) s = .next s) ∧
  (∀ (n : Nat) (run : Run) (s : State), bankExists s n = true → (schedOf s n).run = some run →
    if run.preempted = true ∧ bankIdle s n = true ∧ (bankOf s n).ops = [] then opAllowed (bankOf s n).state .topUpRow = true → Completes (.topupResume n) s fun t =>
      (schedOf t n).run = some { run with preempted := false } ∧
      (∃ o ∈ (bankOf t n).ops, o.kind = .topUpRow ∧ o.run = true ∧ o.row = BitVec.ofNat 11 run.next ∧ o.floor = run.floor) ∧
      (∀ k, k ≠ n → (k ≠ sister n ∨ run.floor = false) → tget? t.banks k = tget? s.banks k) ∧ Only [.doms, .time, .cause, .counters, .events, .held, .hbr, .banks, .awl, .scheds, .integ, .out] s t
    else exec (.topupResume n) s = .next s) ∧
  (∀ (n : Nat) (s : State), bankExists s n = true → (schedOf s n).run = none → exec (.topupResume n) s = .next s) ∧
  (∀ (n : Nat) (s : State), bankExists s n = true →
    let d := schedOf s n
    if bankPlaced s n = true ∧ d.measuredAt + dictNum s (ob 0x8004 1) ≤ poweredS s then Completes (.ksPeriodTimer n) s fun t =>
      schedOf t n = stampDue (poweredS s) { d with dueKs := true } ∧ (schedOf t n).sinceKs = some (d.sinceKs.getD (poweredS s)) ∧
      (∀ k, k ≠ n → tget? t.scheds k = tget? s.scheds k) ∧ Only [.scheds] s t
    else exec (.ksPeriodTimer n) s = .next s) ∧
  (∀ (slot : Fin 64) (g : Nat) (s : State), Completes (.idleWindowOpen slot g) s fun t =>
    (∀ n, schedOf t n =
      match (slotOf s slot.val).plan with
      | some p =>
        if (∃ e ∈ p.idle, e.1 = g) ∧
            (∃ r ∈ p.slices, r.spillGroup = g ∧ ∃ q ∈ (slotOf s slot.val).places, q.slice = r.slice ∧ q.bank = n)
        then { schedOf s n with window := true } else schedOf s n
      | none => schedOf s n) ∧ Only [.scheds] s t) ∧
  (∀ (n : Nat) (s : State), bankExists s n = true →
    let d := schedOf s n
    let late := fun (t : Option Nat) => t.any fun t => decide (t + dictNum s (ob 0x8005 1) < poweredS s)
    if d.dueForced = false ∧ bankPlaced s n = true ∧ (late d.sinceTopup || late d.sinceKs || late d.sinceRebuild) = true then
      Completes (.forceAfterTimer n) s fun t => schedOf t n = { d with dueForced := true } ∧
        (∃ c, tget? t.model.covers n = some c ∧ c.forced = true) ∧ Raised .forcedCover 1 n s t ∧
        counterOf t (ob 0x8016 1) = counterOf s (ob 0x8016 1) + 1 ∧ Only [.counters, .events, .held, .model, .scheds, .out] s t
    else exec (.forceAfterTimer n) s = .next s) ∧
  (∀ s : State, (tkeys s.scheds).Pairwise (· < ·) →
    if poweredS s / 3600 ≤ s.time.bucketHour then exec .rerunBucketRoll s = .next s
    else Completes .rerunBucketRoll s fun t => t.time = { s.time with bucketHour := s.time.bucketHour + 1 } ∧
      (∀ n d, tget? s.scheds n = some d → (schedOf t n).reruns = (0 :: d.reruns).take 24 ∧ (schedOf t n).drift = d.drift) ∧
      Only [.time, .counters, .events, .held, .scheds, .out] s t) ∧
  (∀ s : State, (∀ e ∈ s.dict.area0 ++ s.dict.area1, e.seq < s.dict.storeSeq) →
    if uzomelRuns s = true ∧ s.time.storedAllAt + 60 ≤ poweredS s then Completes .poweredTimeStore s fun t =>
      t.time = { s.time with storedTotal := poweredS s, storedAt := s.time.pll, storedAllAt := poweredS s } ∧
      storedValue t.dict (ob 0x2021 1) 0 = some (leBytes 8 (poweredS s)) ∧
      (∀ n d, tget? s.scheds n = some d →
        tget? t.scheds n = some { d with storedDrift := d.drift, storedReruns := d.reruns }) ∧ Only [.time, .values, .scheds] s t
    else exec .poweredTimeStore s = .next s)

/-- O55 (tier 2). A full test that is not allowed changes nothing; one whose converters are claimed keeps the subset at
which it goes on. A complete one ends the due test and counts. A passing one records the margin index now; one that
names failing columns leaves the margin, marks the bank suspect, opens or goes on with the classification and records
each column. A passing seal test of a compute bank is remembered and seals it; a first failure without a named column
asks for the erase and the program again, with its wear, and a second retires the array. A margin sample of an idle
storage bank, while no other bank of its island waits for its test after a recompute, records the least M found. A
column retest counts down; after the last, the fault is classified. A rebuild cycle starts only when due, and not on a
bank that is not idle; where a row cannot be rebuilt it counts that and keeps the lost rows; else the bank is
programmed again with spares in place of the failing columns, or a free bank is programmed and takes its slices once
it is sealed. Rests on R55, R58, R59, R72, R299, R301, R302, R309, R310, R311, R312, R313. -/
def Obligations.CobblerTestsAndRebuilds : Prop :=
  (∀ (n : Nat) (r : KsResult) (s : State), bankExists s n = true → testAllowed s n = false →
    exec (.fullKnownSumTest n r) s = .next s ∧ exec (.columnRetestTimer n r) s = .next s) ∧
  (∀ (n : Nat) (r : KsResult) (s : State), bankExists s n = true → testAllowed s n = true →
    ∃ u, exec (.fullKnownSumTest n r) s = .next (afterSeal (sealTested n u)) ∧
      let b := bankOf s n
      let d := schedOf s n
      let k := ksRun b r (d.calib.getD 0) 10 { cols := d.calibCols, unnamed := d.calibUnnamed }
      let trims := r.trims.foldl (fun t e => if e.1 < 1152 then tset t e.1 e.2 else t) b.trims
      (∀ j, r.cut = some j → d.calib.getD 0 ≤ j → j < 10 → (schedOf u n).calib = some j ∧ (schedOf u n).dueKs = d.dueKs ∧
        Only [.scheds] s u) ∧
      (r.cut = none →
        ((schedOf u n).dueKs = false ∧ (schedOf u n).measuredAt = poweredS s ∧ (schedOf u n).testedAt = tideOf s ∧
          (schedOf u n).calib = none ∧ (bankOf u n).trims = trims ∧ counterOf u (ob 0x8014 1) = counterOf s (ob 0x8014 1) + 1) ∧
        (k.cols = [] → k.unnamed = false → d.afterRecompute = false ∨ b.state = .programming →
          (bankOf u n).margin = marginIndex (ksDeviation r) ∧ (bankOf u n).marginTide = tideOf s ∧ (bankOf u n).cells = b.cells ∧
          (bankOf u n).state = b.state ∧ (b.state = .programming → (schedOf u n).sealTested = true)) ∧
        (b.state ≠ .programming → k.cols ≠ [] →
          (bankOf u n).suspect = true ∧ (bankOf u n).margin = b.margin ∧
          (schedOf u n).retests = (if 0 < d.retests then d.retests else 2) ∧ ∀ c ∈ k.cols, c ∈ tkeys (schedOf u n).failing) ∧
        (b.state = .programming → k.cols = [] → k.unnamed = true → d.sealFails = 0 → (schedOf u n).sealFails = 1 ∧
          bankOf u n = { b with trims := trims, wear := b.wear + (if b.lastStorage then 10 else 3), lastStorage := b.storageMode }) ∧
        (b.state = .programming → k.cols = [] → k.unnamed = true → d.sealFails ≠ 0 →
          (bankOf u n).state = .retired ∧ (bankOf u (sister n)).state = .retired)) ∧
      Only [.power, .time, .counters, .events, .monitors, .held, .model, .banks, .scheds, .integ, .out] s u) ∧
  (∀ (n : Nat) (s : State), (schedOf s n).sealTested = true → (bankOf s n).state = .programming →
    sealTested n s = sealedMoves n (sealNow n s) ∧ (schedOf (sealNow n s) n).drift = 0 ∧
    (bankOf (sealNow n s) n).state = if sparesFree (bankOf s n) < 4 then .worn else if (bankOf s n).storageMode then .storage else .ready) ∧
  (∀ (n : Nat) (steps : List Nat) (s : State), bankExists s n = true →
    let b := bankOf s n
    if b.storageMode = true ∧ (b.state = .storage ∨ b.state = .worn) ∧ b.ops.any opRunning = false ∧ bankIdle s n = true ∧
        dipHolds s = false ∧ retestAhead s n = false then
      Completes (.marginSample n steps) s fun t =>
        (∀ j, j < 16 → (bankOf t n).margin ≤ marginOfSteps (steps.getD j 32)) ∧
        (∃ j, j < 16 ∧ (bankOf t n).margin = marginOfSteps (steps.getD j 32)) ∧ (bankOf t n).marginTide = tideOf s ∧
        (schedOf t n).samples = (schedOf s n).samples + 1 ∧ (schedOf t n).measuredAt = poweredS s ∧
        (schedOf t n).dueKs = false ∧ counterOf t (ob 0x8014 1) = counterOf s (ob 0x8014 1) + 1 ∧
        (∀ k, k ≠ n → k ≠ sister n → tget? t.banks k = tget? s.banks k) ∧ Only [.counters, .events, .monitors, .held, .model, .banks, .scheds, .out] s t
    else exec (.marginSample n steps) s = .next s) ∧
  (∀ (n : Nat) (r : KsResult) (s : State), bankExists s n = true → testAllowed s n = true →
    if (schedOf s n).retests = 0 ∨ (tideOf s - (schedOf s n).testedAt).toNat < 10 ^ 9 then exec (.columnRetestTimer n r) s = .next s
    else Completes (.columnRetestTimer n r) s fun t => Only [.power, .time, .counters, .events, .monitors, .held, .model, .banks, .scheds, .integ, .out] s t ∧
      (r.cut = none → (bankOf s n).state ≠ .programming → (schedOf t n).retests = (schedOf s n).retests - 1 ∧
        (schedOf t n).testedAt = tideOf s ∧ counterOf t (ob 0x8014 1) = counterOf s (ob 0x8014 1) + 1 ∧
        ((schedOf s n).retests = 1 → ((schedOf t n).failing = [] ∧ (bankOf t n).suspect = false) ∨ (schedOf t n).dueRebuild = true)) ∧
      (∀ j, r.cut = some j → (schedOf s n).calib.getD 0 ≤ j → j < 10 → (schedOf t n).retests = (schedOf s n).retests ∧
        (schedOf t n).calib = some j)) ∧
  (∀ (n : Nat) (target : Option Nat) (s : State), bankExists s n = true →
    (schedOf s n).dueRebuild = false ∨ (schedOf s n).rebuilding = true ∨
      (∃ c, tget? s.model.covers n = some c ∧ c.missing ≠ []) ∨ (bankOf s n).ops ≠ [] ∨ bankIdle s n = false ∨
      s.awl.paused = true ∨ 1536 ≤ slotsUsed s →
    exec (.rebuildCycle n target) s = .next s) ∧
  (∀ (n : Nat) (target : Option Nat) (s : State), bankExists s n = true → (schedOf s n).dueRebuild = true →
    (schedOf s n).rebuilding = false → (∀ c, tget? s.model.covers n = some c → c.missing = []) → (bankOf s n).ops = [] →
    bankIdle s n = true → s.awl.paused = false → slotsUsed s < 1536 →
    let b := bankOf s n
    let cols := tkeys (schedOf s n).failing
    let rows := (rebuildImage s n cols).1
    let lost := (rebuildImage s n cols).2
    let spared := remapColumns cols b
    if lost ≠ [] then ∃ u, exec (.rebuildCycle n target) s = .next (nvPoisoned n lost.length u) ∧
        (∃ c, tget? u.model.covers n = some c ∧ c.missing = lost) ∧
        counterOf u (ob 0x8018 1) = counterOf s (ob 0x8018 1) + 1 ∧
        (bankOf u n).state = (if spared.2 = true then b.state else .retired) ∧
        (∀ k, k ≠ n → tget? u.banks k = tget? s.banks k) ∧ Only [.counters, .events, .held, .model, .banks, .out] s u
    else if spared.2 = true ∧ b.state ≠ .worn ∧ b.state ≠ .retired then
      ∃ u, exec (.rebuildCycle n target) s = .next (sealIfStorage n u) ∧
        bankOf u n = programmedBank b.polarity rows
          { spared.1 with wear := spared.1.wear + (if spared.1.lastStorage then 10 else 3) } ∧
        (schedOf u n).rebuilding = true ∧ (schedOf u n).sealTested = false ∧
        (∀ k, k ≠ n → tget? u.banks k = tget? s.banks k) ∧ Only [.counters, .events, .held, .banks, .scheds, .out] s u
    else
      let marked := modBank n (fun x => cols.foldl (fun x c => failSpare c x) x) s
      let v := if spared.2 = true ∨ b.state = .retired then marked else markRetired n marked
      (bankOf v n).state = (if spared.2 = true ∨ b.state = .retired then b.state else .retired) ∧
      (rebuildTarget v n target = none → exec (.rebuildCycle n target) s = .next v) ∧
      (∀ k, rebuildTarget v n target = some k → ∃ u, exec (.rebuildCycle n target) s = .next (sealIfStorage k u) ∧
        (bankOf u k).reserved = true ∧ (bankOf u k).storageMode = b.storageMode ∧ (schedOf u k).moveFrom = some n ∧
        (schedOf u n).rebuilding = true ∧ bankOf u n = bankOf v n ∧ u.model.slots = s.model.slots))

/-- O56 (tier 2). A request has one effect whether a privileged write, pwr.domain or Uzomel makes it: refused as R467 and
R474 list, it sets REFUSED alone and a DICT_WRITE ends with the status; accepted, it clears REFUSED and waits behind a
request in progress, completes at once in the target state, starts, or, for RET or OFF of a domain with work, waits
for the drain; a replaced one is counted. The idle timers request RET and OFF of an idle domain alone. A drained
request starts when the work has gone. A wake step that times out leaves the domain OFF for another attempt; the
fourth leaves it FAILED, counted. A wake that ends leaves the domain ON, a segment woken from OFF reading zero; RET
and OFF take from the domain what R467 says. Rests on R166, R467, R468, R470, R471, R472, R473, R474, R475, R476. -/
def Obligations.PowerDomains : Prop :=
  (∀ (n : Nat) (tgt : PTarget) (s : State),
    let d := domOf s n
    let req := fun (src : DomSource) => match tgt with
      | .on => Instr.domainRequestOn src n
      | .ret => Instr.domainRequestRet src n
      | .off => Instr.domainRequestOff src n
    let refusal : Option Nat :=
      if 2090 < n ∨ (nIslands s ≤ n ∧ n < 2048) then some St.outOfRange
      else if n = 2090 ∨ n = 2081 ∨ n = 2082 ∨ n = 2048 ∨ n = 2049 then some St.notPermitted
      else if n = 2080 then (if tgt ≠ .ret then some St.notPermitted else if coreMayRest s then none else some St.busy)
      else if 2048 ≤ n ∧ n < 2064 ∧ tgt = .off ∧ (segOf s (n - 2048)).use ≠ .free then some St.segmentBusy
      else if 2064 ≤ n ∧ n < 2080 ∧ tgt ≠ .on ∧ s.power.standing = some (n - 2064) then some St.busy
      else if 2083 ≤ n ∧ tgt ≠ .on ∧ s.model.slots.any (fun e => groupBound e.2) = true then some St.busy
      else if tgt = .on ∧ d.retired = true then some St.notPermitted
      else none
    let state : PState := match tgt with | .on => .on | .ret => .ret | .off => .off
    let post := fun (t : State) => Only [.doms, .cause, .counters] s t ∧ (∀ k, k ≠ n → domOf t k = domOf s k) ∧
      match refusal with
      | some st =>
        if st = St.outOfRange then t = s
        else domOf t n = { d with refused := true } ∧ t.regs.intCause.getLsbD 6 = true ∧ Only [.doms, .cause] s t
      | none =>
        counterOf t (ob 0x2009 1) = (counterOf s (ob 0x2009 1) + if d.queued.isSome then 1 else 0) ∧
        (if d.current.isSome then domOf t n = { d with refused := false, queued := some tgt }
         else if d.state = state then domOf t n = { d with refused := false, queued := none } ∧ t.regs.intCause.getLsbD 6 = true
         else if tgt = .on then domOf t n = { d with refused := false, queued := none, current := some .on, attempts := 0 }
         else if d.state = .failed then domOf t n = { d with refused := false, queued := none } ∧ t.regs.intCause.getLsbD 6 = true
         else if d.state = .on ∧ domDrained s n = false then domOf t n = { d with refused := false, queued := some tgt }
         else domOf t n = { d with refused := false, queued := none, current := some tgt })
    (tgt = .on → uzomelRuns s = true → Completes (.domainRequestOn .uzomel n) s post) ∧
    (tgt = .ret → uzomelRuns s = true → Completes (.domainRequestRet .uzomel n) s post) ∧
    (tgt = .off → uzomelRuns s = true → Completes (.domainRequestOff .uzomel n) s post) ∧
    (uzomelRuns s = false → exec (req .uzomel) s = .next s) ∧
    (∀ i, privileged s i = true → s.regs.domSel.toNat % 4096 = n → s.regs.xdomBusy = false → Completes (req (.reg i)) s fun t =>
      post { t with regs := { t.regs with xdomBusy := false } } ∧ t.regs.xdomBusy = bitAt s.regs.sysCtrl.toNat 0) ∧
    (∀ i, privileged s i = false → Completes (req (.reg i)) s fun t => t = { s with regs := { s.regs with privDrops := t.regs.privDrops } } ∧
      t.regs.privDrops = if s.regs.privDrops = 0xFFFFFFFF then 0xFFFFFFFF else s.regs.privDrops + 1) ∧
    (∀ r, let code : Bytes := [BitVec.ofNat 8 (targetCode tgt)]
      heard s r (ob 0x2006 0) n = true → valueFrom s r code = code →
      Answers (req (.dict r code)) s r (refusal.getD St.success) post) ∧
    (refusal ≠ some St.outOfRange →
      (tgt = .ret → if uzomelRuns s = true ∧ fld (dictActive s (ob 0xB060 (domKind n)) 0) 8 4 ≠ 0 ∧ d.state = .on ∧ domIdle s n = true
        then Completes (.domainIdleRetTimer n) s post else exec (.domainIdleRetTimer n) s = .next s) ∧
      (tgt = .off → if uzomelRuns s = true ∧ fld (dictActive s (ob 0xB060 (domKind n)) 0) 12 4 ≠ 0 ∧ (d.state = .on ∨ d.state = .ret) ∧
          domIdle s n = true ∧ idleOffKind s n = true
        then Completes (.domainIdleOffTimer n) s post else exec (.domainIdleOffTimer n) s = .next s))) ∧
  (∀ (n : Nat) (s : State), domExists s n = true →
    if (domOf s n).current = none ∧ domDrained s n = true ∧ ((domOf s n).queued = some .ret ∨ (domOf s n).queued = some .off) then
      Completes (.domainDrainEnd n) s fun t => domOf t n = { domOf s n with current := (domOf s n).queued, queued := none } ∧
        (∀ k, k ≠ n → domOf t k = domOf s k) ∧ Only [.doms] s t
    else exec (.domainDrainEnd n) s = .next s) ∧
  (∀ (n : Nat) (s : State), domExists s n = true → (domOf s n).current = some .on →
    let d := domOf s n
    (d.attempts < 3 → d.state ≠ .ret → Completes (.wakeStepTimeout n) s fun t =>
      domOf t n = { d with attempts := d.attempts + 1, state := if d.state = .failed then .failed else .off } ∧
      (∀ k, k ≠ n → domOf t k = domOf s k) ∧ Only [.doms] s t) ∧
    (d.attempts < 3 → d.state = .ret → domKind n = 1 → Completes (.wakeStepTimeout n) s fun t =>
      domOf t n = { d with attempts := d.attempts + 1, state := .off } ∧ (islandOf t n).program = none ∧
      Only [.doms, .islands, .banks] s t) ∧
    (3 ≤ d.attempts → d.queued = none → Completes (.wakeStepTimeout n) s fun t =>
      (domOf t n).state = .failed ∧ (domOf t n).current = none ∧ (domOf t n).failures = d.failures + 1 ∧
      counterOf t (ob 0x2008 1) = counterOf s (ob 0x2008 1) + 1 ∧ t.regs.intCause.getLsbD 6 = true ∧
      (domKind n = 1 → Raised .wakeFailed 0 n s t) ∧ (domKind n = 4 ∨ n = 2048 ∨ n = 2049 → t.power.moduleFault = true ∧ t.power.faultN = true) ∧
      (domKind n = 3 → (clusterOf t (n - 2064)).retired = true) ∧ (domKind n = 6 → (linkOf t (n - 2083)).state = .failed) ∧
      Only [.power, .doms, .gov, .time, .regs, .cause, .counters, .events, .monitors, .portU, .portD, .que, .held, .model, .flow, .hbr, .segs, .banks, .islands, .clusters, .awl, .scheds, .integ, .strait, .out, .free] s t)) ∧
  (∀ (n : Nat) (tests : List (Nat × KsResult)) (s : State), domExists s n = true →
    ((domOf s n).current ≠ some .on → exec (.wakeStepTimeout n) s = .next s ∧ exec (.domainWakeDone n tests) s = .next s) ∧
    ((domOf s n).current ≠ some .ret → (domOf s n).current ≠ some .off → exec (.domainDownDone n) s = .next s)) ∧
  (∀ (n : Nat) (tests : List (Nat × KsResult)) (s : State), domExists s n = true →
    let d := domOf s n
    d.current = some .on → d.queued = none → testsComplete s n d.state tests = true → (n = 2080 → s.dict.waitingMsgs = []) →
    s.hbr.waiting = [] → Completes (.domainWakeDone n tests) s fun t =>
      domOf t n = { d with state := .on, current := none, attempts := 0, wakes := d.wakes + 1 } ∧
      t.regs.intCause.getLsbD 6 = true ∧ Only [.power, .doms, .time, .regs, .cause, .values, .counters, .events, .monitors, .sec, .que, .held, .model, .flow, .hbr, .banks, .islands, .scheds, .integ, .strait, .out, .free] s t ∧
      (n = 2080 → domState t 2048 = .on ∧ domState t 2049 = .on) ∧
      (n ≠ 2080 → ∀ k, k ≠ n → domOf t k = domOf s k) ∧
      (domKind n = 2 → ∀ a, byteAt t.hbr a = if a / 2 ^ 26 = n - 2048 ∧ d.state ≠ .ret then 0 else byteAt s.hbr a)) ∧
  (∀ (n : Nat) (s : State), domExists s n = true → (domOf s n).queued = none →
    ((domOf s n).current = some .ret → Completes (.domainDownDone n) s fun t =>
      domOf t n = { domOf s n with state := .ret, current := none } ∧ t.regs.intCause.getLsbD 6 = true ∧
      (domKind n = 1 → Only [.doms, .cause] s t) ∧ (domKind n = 2 → Only [.doms, .cause] s t) ∧
      (domKind n = 3 → (clusterOf t (n - 2064)).acc = 0) ∧
      (n = 2080 → domState t 2048 = .ret ∧ domState t 2049 = .ret ∧ t.time.storedTotal = poweredS s ∧ t.regs.alarmFired = false) ∧
      (domKind n = 6 → (linkOf t (n - 2083)).state = (if (linkOf s (n - 2083)).state = .failed then .failed else .down)) ∧
      Only [.power, .doms, .gov, .time, .regs, .cause, .values, .counters, .events, .monitors, .que, .held, .model, .flow, .hbr, .banks, .islands, .clusters, .scheds, .integ, .strait, .out, .free] s t) ∧
    ((domOf s n).current = some .off → Completes (.domainDownDone n) s fun t =>
      domOf t n = { domOf s n with state := .off, current := none } ∧ t.regs.intCause.getLsbD 6 = true ∧
      (domKind n = 1 → (islandOf t n).program = none ∧ Only [.doms, .cause, .islands, .banks] s t) ∧
      (domKind n = 2 → ∀ a, byteAt t.hbr a = if a / 2 ^ 26 = n - 2048 then 0 else byteAt s.hbr a) ∧
      (domKind n = 3 → (clusterOf t (n - 2064)).acc = 0) ∧
      (domKind n = 6 → (linkOf t (n - 2083)).state = (if (linkOf s (n - 2083)).state = .failed then .failed else .down)) ∧
      Only [.power, .doms, .gov, .time, .regs, .cause, .values, .counters, .events, .monitors, .que, .held, .model, .flow, .hbr, .banks, .islands, .clusters, .scheds, .integ, .strait, .out, .free] s t))

/-- O57 (tier 2). Ten samples close a period: the throttle offset rises by the mean above the cap, falls by at most 5 W,
and stays at B − 13.75 W at the most; throttled time and the start of a throttle are counted. A Tj sample enters its
monitor; an island is held from 92 °C to 88 °C, THERM_N follows its limits, and a trip leaves every domain but
always-on OFF with FAULT_N. A dip holds work from its trip to its resume, counted once; its hold end asks for the full
test of each bank that fails the short check. Without the reference every link is DISABLED and Tide goes on. A core's
watchdog is a module fault, and so is an uncorrectable word of its SRAM that is not confined; a correctable one is
corrected and counted. A handshake watchdog raises its event, gives an island's or a cluster's work back and counts
one failure of the unit, but during a dip only there; the third in the window retires or quarantines the unit. Rests
on R285, R302, R334, R336, R337, R416, R443, R480, R481, R486, R487, R492. -/
def Obligations.SupplyHeatAndWatchdogs : Prop :=
  (∀ (mw : Nat) (s : State), exec (.powerSample mw) s =
    .next (if s.power.pwrGood = true ∧ s.power.samples.length < 10
      then { s with power := { s.power with samples := mw :: s.power.samples } } else s)) ∧
  (∀ s : State, s.power.samples.length ≠ 10 → exec .governorPeriodEnd s = .next s) ∧
  (∀ s : State, s.power.samples.length = 10 → Completes .governorPeriodEnd s fun t =>
    let mean := 7 * s.power.samples.sum
    let cap := 70000 * (s.regs.capActive.toNat % 1024)
    let old := min s.power.theta (budgetB s - 962500)
    let new := min (if cap < mean then old + (mean - cap) else if mean + 350000 ≤ cap then old - 350000 else old) (budgetB s - 962500)
    t.power = { s.power with samples := [], theta := new } ∧
    counterOf t (ob 0x2004 2) = (counterOf s (ob 0x2004 2) + if 0 < old then 100 else 0) ∧
    counterOf t (ob 0x2004 1) = (counterOf s (ob 0x2004 1) + if old = 0 ∧ 0 < new then 1 else 0) ∧
    (old = 0 → 0 < new → Raised .throttle 0 0 s t) ∧ (0 < old ∨ new = 0 → Only [.power, .counters] s t) ∧
    Only [.power, .counters, .events, .held, .out] s t) ∧
  (∀ (key : Nat) (q : Int) (s : State), (nIslands s ≤ key ∧ key < 0x10000) ∨ 0x10010 ≤ key →
    exec (.tjSample key q) s = .fault .absentUnit) ∧
  (∀ (key : Nat) (q : Int) (s : State), key < nIslands s ∨ (0x10000 ≤ key ∧ key < 0x10010) → s.power.phase ≠ .off →
    let v := (q + 160).toNat
    if s.power.rails ≠ [] ∧ (if key < 0x10000 then 560 else 600) ≤ v then Completes (.tjSample key q) s fun t =>
      (∀ n, n ≠ 2090 → domState t n = .off ∨ domState t n = .failed) ∧ t.power.faultN = true ∧ t.power.tripped = true ∧
      t.power.rails = [] ∧ (∃ e, t.dict.faultLog.head? = some e ∧ e.name = .thermalTrip)
    else Completes (.tjSample key q) s fun t =>
      monOf t (ob 0x9031 0) key = monSample v (monOf s (ob 0x9031 0) key) ∧
      ((if key < 0x10000 then 532 else 572) ≤ v → t.power.thermN = true) ∧
      (0x10000 ≤ key → 568 ≤ v → t.power.logicHot = true) ∧
      (key < 0x10000 →
        (islandOf t key).hot = (if 528 ≤ v then true else if v ≤ 512 then false else (islandOf s key).hot) ∧
        t.power.logicHot = s.power.logicHot ∧
        counterOf t (ob 0x2005 1) = (counterOf s (ob 0x2005 1) + if (islandOf s key).hot = false ∧ 528 ≤ v then 1 else 0) ∧
        ((islandOf s key).hot = false → 528 ≤ v → Raised .islandHot 3 key s t)) ∧
      (∀ k, k ≠ key → (islandOf t k).hot = (islandOf s k).hot) ∧
      Only [.power, .counters, .events, .monitors, .held, .islands, .out] s t) ∧
  (∀ s : State, if s.power.rails = [] ∨ s.power.dip = .tripped then exec .vcoreWarningTrip s = .next s
    else Completes .vcoreWarningTrip s fun t => t.power.dip = .tripped ∧ t.awl = { s.awl with paused := true } ∧
      t.power.dipSince = (if s.power.dip = .hold then s.power.dipSince else tideOf s) ∧
      counterOf t (ob 0x2007 1) = (counterOf s (ob 0x2007 1) + if s.power.dip = .hold then 0 else 1) ∧
      (∀ i, i < 2048 → domIsOn s i = true → i ∈ t.power.dipIslands) ∧ (∀ i ∈ s.power.dipIslands, i ∈ t.power.dipIslands) ∧
      (∀ n, (schedOf t n).calib = none) ∧ Only [.power, .counters, .awl, .scheds] s t) ∧
  (∀ s : State, if s.power.dip ≠ .tripped then exec .vcoreRecover s = .next s else Completes .vcoreRecover s fun t =>
    let ticks := (tideOf s - s.power.dipSince).toNat
    t.power = { s.power with
      dip := .hold, dipLongest := max s.power.dipLongest (ticks / 1000), dipLow := s.power.dipLow || decide (10 ^ 7 < ticks) } ∧
    (10 ^ 7 < ticks → s.power.dipLow = false → Raised .supplyLow 0 0 s t) ∧
    (ticks ≤ 10 ^ 7 ∨ s.power.dipLow = true → Only [.power] s t) ∧ Only [.power, .counters, .events, .held, .out] s t) ∧
  (∀ (checks : List (Nat × Disturb)) (s : State), if s.power.dip ≠ .hold then exec (.dipHoldEnd checks) s = .next s
    else Completes (.dipHoldEnd checks) s fun t =>
      let bad := fun (n : Nat) => (tkeys s.banks).contains n && s.power.dipIslands.contains (n / 512) && wakeTested s (n / 512) n &&
        shortFails (bankOf s n) (((checks.find? fun e => e.1 = n).map Prod.snd).getD { rows := [], edges := [], slip := 0 })
      t.power.dip = .checking ∧ (∀ n, (schedOf t n).dueKs = ((schedOf s n).dueKs || bad n)) ∧
      (∀ i, i ∈ t.power.dipIslands ↔ ∃ n, bad n = true ∧ n / 512 = i) ∧ Only [.power, .scheds] s t) ∧
  (∀ s : State, exec .dipResume s = .next (if s.power.dip = .checking
    then { s with power := { s.power with dip := .none }, awl := { s.awl with paused := false } } else s)) ∧
  (∀ (present : Bool) (s : State), if s.power.phase = .off ∨ present = s.power.sref then exec (.tideSourceChange present) s = .next s
    else Completes (.tideSourceChange present) s fun t => t.power.sref = present ∧ t.time.internal = !present ∧
      tideOf t = tideOf s ∧ (present = true → uzomelRuns s = true → Raised .tideSource 0 0 s t) ∧
      (present = false → ∀ k, k < 14 → (linkOf t k).state = .disabled ∨ (linkOf t k).state = .failed) ∧ Only [.power, .doms, .gov, .time, .cause, .counters, .events, .monitors, .que, .held, .model, .flow, .hbr, .islands, .clusters, .integ, .strait, .out, .free] s t) ∧
  (∀ (c : Fin 8) (why : CoreFault) (s : State), uzomelRuns s = false → exec (.coreWatchdogExpiry c why) s = .next s) ∧
  (∀ (c : Fin 8) (s : State), uzomelRuns s = true → Completes (.coreWatchdogExpiry c .expired) s fun t =>
    t.power = { s.power with moduleFault := true, faultN := true } ∧ Raised .moduleFault 0 0 s t ∧ Only [.power, .cause, .counters, .events, .held, .integ, .out] s t) ∧
  (∀ (c : Fin 8) (w : Nat) (bits : List (Fin 72)) (confined : Bool) (s : State), uzomelRuns s = true →
    (4194304 ≤ w → exec (.coreWatchdogExpiry c (.sram w bits confined)) s = .fault .absentUnit) ∧
    (w < 4194304 → (tkeys s.integ.sram).Pairwise (· < ·) → (tkeys s.integ.sramDev).Pairwise (· < ·) →
      let v := tget s.integ.sram w 0 ^^^ upsetMask bits
      let dev := tget s.integ.sramDev w 0 ^^^ upsetSyndrome bits
      (∀ i, eccDecode dev = .dataBit i → Completes (.coreWatchdogExpiry c (.sram w bits confined)) s fun t =>
        tget t.integ.sram w 0 = v ^^^ BitVec.ofNat 64 (2 ^ i) ∧ tget t.integ.sramDev w 0 = 0 ∧
        counterOf t (ob 0x8042 1) = counterOf s (ob 0x8042 1) + 1 ∧ t.power = s.power ∧ Only [.power, .cause, .counters, .events, .held, .integ, .out] s t) ∧
      (eccDecode dev = .uncorrectable → ∃ u, exec (.coreWatchdogExpiry c (.sram w bits confined)) s =
          .next (if confined then u else moduleFault u) ∧ Raised .uncorrectable 0 (w / 524288) s u ∧ u.power = s.power ∧
          tget u.integ.sram w 0 = v ∧ counterOf u (ob 0x8043 1) = counterOf s (ob 0x8043 1) + 1 ∧
          Only [.power, .cause, .counters, .events, .held, .integ, .out] s u))) ∧
  (∀ (n : Nat) (s : State), Completes (.handshakeWatchdog (.other n)) s fun t =>
    t.power = { s.power with moduleFault := true, faultN := true } ∧ Only [.power, .counters, .events, .held, .out] s t) ∧
  (∀ (i : Nat) (s : State), nIslands s ≤ i → exec (.handshakeWatchdog (.island i)) s = .fault .absentUnit) ∧
  (∀ (u : UnitRef) (k : UnitKind) (n e : Nat) (s : State),
    (u = .island n ∧ n < nIslands s ∧ k = .island ∧ e = 3) ∨ (∃ f : Fin 256, u = .ferry f ∧ n = f.val ∧ k = .ferry ∧ e = 5) ∨
      (∃ c : Fin 16, u = .cluster c ∧ n = c.val ∧ k = .cluster ∧ e = 6) →
    let h := historyOf s k n
    let kept := h.stamps.filter fun st => decide (poweredS s ≤ st.2 + faultWindow s k)
    Completes (.handshakeWatchdog u) s fun t => Only [.power, .doms, .gov, .time, .cause, .counters, .events, .held, .model, .flow, .islands, .clusters, .integ, .out] s t ∧
      (dipCounts s = true ∨ h.permanent = true ∨ kept.length < 2 → match u with
        | .island i => (islandOf t i).pulses = []
        | .cluster c => (clusterOf t c).current = none ∧
          (clusterOf t c).tiles = (clusterOf s c).current.toList ++ (clusterOf s c).tiles
        | _ => t.flow.ferries = s.flow.ferries) ∧
      if dipCounts s = true then historyOf t k n = h ∧ counterOf t (ob 0x8048 1) = counterOf s (ob 0x8048 1) + 1 ∧
        Raised .watchdog e n s t
      else if h.permanent = true then historyOf t k n = h ∧ Raised .watchdog e n s t
      else if kept.length < 2 then historyOf t k n = { stamps := (pcycleOf s, poweredS s) :: kept, permanent := false } ∧
        t.time.storedTotal = poweredS s ∧ Raised .watchdog e n s t
      else (historyOf t k n).permanent = true ∧ match u with
        | .island i => (islandOf t i).quarantined = true
        | .ferry f => (ferryOf t f.val).retired = true
        | .cluster c => (clusterOf t c.val).retired = true ∧ domState t (2064 + c.val) = .failed
        | .other _ => False)

/-- O58 (tier 2). A Function Level Reset disables every queue pair of the port and drops what is held for it; in ROOT mode
Port D has none. A link down does so too, clears the link and, on Port D, the engine; PERST_N turns the port OFF and
loses its MSI-X table. A release starts the wake of a port that the module has brought up. D3hot holds writes,
delivered in order on the return to D0. Enumeration keeps one device and refuses a second, a switch or a link that did
not train, with an event. An aligned write to an engine's first 256 interrupt offsets sends vector 1,792 + v; every
other one is an Unsupported Request, as is an engine address outside the Harbour; HOST segments alone are read and
written. The downstream window passes Port U's accesses alone; a failed one is counted and reads all ones. A host
access error ends its command with HOST_ACCESS, after the report of a PLACE. Rests on R167, R343, R346, R347, R348,
R349, R350, R352, R467, R471, R497. -/
def Obligations.PortsAndTheEngine : Prop :=
  (∀ (p : Port) (s : State), (tkeys s.que.pairs).Pairwise (· < ·) →
    let queuesGone := fun (t : State) =>
      if p = .d ∧ s.regs.dMode = 1 then t.que.pairs = s.que.pairs ∧ t.que.cmds = s.que.cmds
      else (∀ q, (pairOf s q).port = p → (pairOf t q).state = .disabled) ∧
        (∀ q, (pairOf s q).port ≠ p → (pairOf t q).state = (pairOf s q).state) ∧
        (s.que.reqs = [] → membersOf s = [] → ∀ m ∈ t.que.held, towards p m = false)
    ((portOf s p).linkUp = false → exec (.functionLevelReset p) s = .next s ∧ exec (.pcieLinkDown p) s = .next s) ∧
    ((portOf s p).linkUp = true → Completes (.functionLevelReset p) s fun t => queuesGone t ∧ Only [.power, .doms, .gov, .time, .cause, .counters, .events, .monitors, .que, .held, .model, .flow, .hbr, .segs, .banks, .islands, .clusters, .awl, .scheds, .integ, .strait, .out, .free] s t) ∧
    ((portOf s p).linkUp = true → Completes (.pcieLinkDown p) s fun t => queuesGone t ∧
      portOf t p = { portOf s p with linkUp := false, speed := 0, width := 0, flit := false, d3hot := false } ∧
      (domState s (domPort p) = .ret → domState t (domPort p) = .on) ∧
      (p = .d → t.regs.engineFound = false ∧ t.regs.dConfig = []) ∧ Only [.power, .doms, .gov, .time, .regs, .cause, .counters, .events, .monitors, .portU, .portD, .que, .held, .model, .flow, .hbr, .segs, .banks, .islands, .clusters, .awl, .scheds, .integ, .strait, .out, .free] s t) ∧
    (Completes (.perstNAssert p) s fun t => queuesGone t ∧
      portOf t p = { portOf s p with linkUp := false, speed := 0, width := 0, flit := false, d3hot := false, perst := true } ∧
      domState t (domPort p) = .off ∧ (domOf t (domPort p)).current = none ∧
      (p = .d → t.regs.engineFound = false ∧ t.regs.dConfig = []) ∧
      (∀ e ∈ t.regs.msix, e.1 / 65536 ≠ (if p = .u then 0 else 1)) ∧ Only [.power, .doms, .gov, .time, .regs, .cause, .counters, .events, .monitors, .portU, .portD, .que, .held, .model, .flow, .hbr, .segs, .banks, .islands, .clusters, .awl, .scheds, .integ, .strait, .out, .free] s t)) ∧
  (∀ (p : Port) (s : State),
    if p = .d ∧ (s.regs.dMode = 2 ∨ (s.regs.dMode = 1 ∧ isReady s = false)) then exec (.perstNRelease p) s = .next s
    else Completes (.perstNRelease p) s fun t => portOf t p = { portOf s p with perst := false } ∧
      let d := domOf s (domPort p)
      domOf t (domPort p) = (if portsRun s p = true ∧ d.current = none ∧ (d.state = .off ∨ d.state = .failed)
        then { d with current := some .on, attempts := 0 } else d) ∧ Only [.doms, .portU, .portD] s t) ∧
  (∀ (p : Port) (speed : BitVec 3) (width : BitVec 5) (flit : Bool) (s : State),
    if domIsOn s (domPort p) = true ∧ (portOf s p).perst = false ∧ (portOf s p).linkUp = false then
      Completes (.pcieLinkUp p speed width flit) s fun t =>
        portOf t p = { portOf s p with linkUp := true, speed := speed, width := width, flit := flit } ∧ Only [.portU, .portD] s t
    else exec (.pcieLinkUp p speed width flit) s = .next s) ∧
  (∀ (p : Port) (s : State), if (portOf s p).linkUp = true ∧ (portOf s p).d3hot = false then Completes (.d3hotEntry p) s fun t =>
      portOf t p = { portOf s p with d3hot := true } ∧ domState t (domPort p) = .ret ∧ Only [.doms, .portU, .portD] s t
    else exec (.d3hotEntry p) s = .next s) ∧
  (∀ (p : Port) (s : State), if (portOf s p).d3hot = false then exec (.d0Return p) s = .next s else Completes (.d0Return p) s fun t =>
    portOf t p = { portOf s p with d3hot := false } ∧ domState t (domPort p) = .on ∧
    t.out = s.out ++ s.que.held.filter (towards p) ∧ t.que.held = (s.que.held.filter fun m => !towards p m) ∧ Only [.doms, .portU, .portD, .held, .out] s t) ∧
  (∀ (r : EnumResult) (s : State),
    if s.regs.dMode ≠ 1 ∨ isReady s = false ∨ s.portD.perst = true then exec (.rootPortEnumerate r) s = .next s
    else match r with
      | .device config => exec (.rootPortEnumerate r) s = .next (if s.portD.linkUp = true
          then { s with regs := { s.regs with engineFound := true, dConfig := fit config 4096 } } else s)
      | _ => Completes (.rootPortEnumerate r) s fun t => t.regs = { s.regs with engineFound := false, dConfig := [] } ∧
          Raised .portDevice 7 1 s t ∧ Only [.regs, .counters, .events, .held, .out] s t) ∧
  (∀ (o : BitVec 12) (a : BitVec 64) (len : Nat) (w : Option Bytes) (s : State), engineUp s = false →
    exec (.engineInterruptWrite o) s = .next s ∧ exec (.engineHarbourAccess a len w) s = .next s) ∧
  (∀ (o : BitVec 12) (s : State), engineUp s = true → Completes (.engineInterruptWrite o) s fun t =>
    if o.toNat % 4 = 0 ∧ o.toNat < 1024 then
      (if s.portU.d3hot then t.que.held = s.que.held ++ [.msix .u (1792 + o.toNat / 4)] ∧ Only [.held] s t
       else t = { s with out := s.out ++ [.msix .u (1792 + o.toNat / 4)] })
    else t = { s with out := s.out ++ [.unsupported .portD] }) ∧
  (∀ (a : BitVec 64) (len : Nat) (w : Option Bytes) (s : State), engineUp s = true →
    if 2 ^ 30 ≤ a.toNat then exec (.engineHarbourAccess a len w) s = .next { s with out := s.out ++ [.unsupported .portD] }
    else if inHostSegment s a.toNat len = false then Completes (.engineHarbourAccess a len w) s fun t =>
      counterOf t (ob 0x4011 1) = counterOf s (ob 0x4011 1) + 1 ∧
      t.out = s.out ++ (if w = none then [.portData .portD (List.replicate len 0) false] else []) ∧ Only [.counters, .out] s t
    else if runWaits s a.toNat len = true then Completes (.engineHarbourAccess a len w) s fun t =>
      t.hbr = { s.hbr with waiting := s.hbr.waiting ++ [{ port := 2338, h := BitVec.ofNat 30 a.toNat, kind := .engine len w }] } ∧
      t.out = s.out ∧ Only [.doms, .cause, .counters, .hbr] s t
    else s.hbr.waiting = [] → Completes (.engineHarbourAccess a len w) s fun t =>
      (∀ d, w = some d → d.length = len → (∀ k, wordSyn s.hbr k = 0) →
        t.hbr.data = (hWrite s.hbr a.toNat d false).data ∧ t.hbr.valid = (hWrite s.hbr a.toNat d false).valid ∧ Only [.hbr] s t) ∧
      (w = none → t.out.getLast? = some (.portData .portD (harbRead s a.toNat len) (hPoison s.hbr a.toNat len))) ∧
      Only [.doms, .time, .cause, .counters, .events, .held, .hbr, .integ, .out] s t) ∧
  (∀ (i : Initiator) (o : BitVec 24) (w : Option Bytes) (e : HostRead) (s : State),
    if o.toNat < 2 ^ 23 then exec (.downstreamWindowAccess i o w e) s = .next s
    else if i ≠ .portU ∨ s.regs.dMode ≠ 1 then exec (.downstreamWindowAccess i o w e) s =
      .next (if w = none then { s with out := s.out ++ [.regData i 0] } else s)
    else Completes (.downstreamWindowAccess i o w e) s fun t =>
      let asked : List OutMsg := if engineUp s then
        [.engineAccess (BitVec.ofNat 64 (s.regs.dwin.toNat / 2 ^ 23 * 2 ^ 23 + (o.toNat - 2 ^ 23))) w] else []
      let (answer, lost) : List OutMsg × Nat := match (if engineUp s then e else .failed) with
        | .data b => ([.portData .portU b false], 0)
        | .poisoned b => ([.portData .portU b true], 0)
        | .failed => ([.regData .portU 0xFFFFFFFFFFFFFFFF], 1)
      t.out = s.out ++ asked ++ (if w = none then answer else []) ∧
      counterOf t (ob 0x6003 1) = counterOf s (ob 0x6003 1) + BitVec.ofNat 64 lost ∧ Only [.counters, .out] s t) ∧
  (∀ (a : Fin 4096) (e : AccessError) (detail : BitVec 16) (s : State),
    match tget? s.que.cmds a.val with
    | none => exec (.hostAccessError a e detail) s = .next s
    | some c =>
      let aer := fun (t : State) => (portOf t (cmdPort s c)).aer =
        ((portOf s (cmdPort s c)).aer + if e = .aerWrite then 1 else 0)
      if c.stage = .parked ∨ namesHost c.entry = false then Completes (.hostAccessError a e detail) s fun t => aer t ∧ Only [.portU, .portD] s t
      else match tget? s.que.reqs a.val with
      | some r => Completes (.hostAccessError a e detail) s fun t => aer t ∧ Only [.power, .doms, .gov, .time, .cause, .counters, .events, .monitors, .portU, .portD, .que, .held, .model, .flow, .hbr, .banks, .islands, .clusters, .awl, .scheds, .integ, .strait, .out, .free] s t ∧
          (r.stopped = none → (tkeys s.que.cmds).Pairwise (· < ·) → tget? t.que.cmds a.val = none ∨
            ∃ x, tget? t.que.cmds a.val = some x ∧ x.stage = .parked)
      | none => Finishes (.hostAccessError a e detail) s a.val St.hostAccess fun u => aer u ∧
          u.model.loads = (if (tget? s.model.loads a.val).isSome then tdel s.model.loads a.val else s.model.loads) ∧
          u.que.closing = (if (tget? s.model.loads a.val).isSome then s.que.closing else s.que.closing.filter fun x => x.2 ≠ a.val) ∧
          (entOpcode c.entry = 0x18 → entSubop c.entry = 0 → tget? s.model.loads a.val = none →
            ∃ v, u = sendReport c (failedReport v none 0) v ∧ v.que.held = s.que.held ∧ v.out = s.out) ∧
          Only [.power, .doms, .gov, .time, .cause, .counters, .events, .monitors, .portU, .portD, .que, .held, .model, .flow, .hbr, .banks, .islands, .clusters, .awl, .scheds, .integ, .strait, .out, .free] s u)

/-- O59 (tier 2). A hop corrects and counts single errors and resends; a packet with a broken header, of a reserved type,
or of a type without poison whose payload stays broken, is discarded, counted and re-sent by a sender that still holds
it, a DATA packet is delivered with its broken flits and its header poisoned, a long sum with all its lanes poisoned.
At a link's port a packet goes out in a FLIT with the next SEQ and stays in the replay buffer; one that no link may
carry is dropped and counted, or answered poisoned. Training leaves each record with the lanes that are not retired,
DISABLED for a peer outside the group; a trained link enters EXCHANGE with its gang. A FLIT with a bad CRC is answered
with a NAK, one out of order is dropped, a good one advances SEQ and frees what it acknowledges. A NAK and the end of
a retrain re-send what is not acknowledged. Many corrections in an interval are an episode of the lane. A lost link
ends with an empty buffer. Rests on R172, R173, R175, R380, R382, R383, R384, R385, R386, R387, R388, R389. -/
def Obligations.SoundHopsAndStraitLinks : Prop :=
  (∀ (port : BitVec 12) (p : List Flit) (r : List Nat) (s : State), portExists s port = false →
    exec (.soundHop port p r) s = .fault .absentUnit) ∧
  (∀ (port : BitVec 12) (r : List Nat) (s : State), portExists s port = true → exec (.soundHop port [] r) s = .next s) ∧
  (∀ (port : BitVec 12) (h0 : Flit) (rest : List Flit) (r : List Nat) (s : State), portExists s port = true → port.toNat < 2339 →
    let h := hopFlit h0
    let body := rest.map hopFlit
    let reserved := decide (packetType h = 0 ∨ 8 ≤ packetType h)
    let delivered : Option (List Flit) :=
      if flitBroken h0 || reserved then none
      else if rest.any flitBroken = false then some (h :: body)
      else if packetType h = 2 then
        some (mkFlit (h.data ||| BitVec.ofNat 64 (2 ^ 27)) :: body.map fun f => if flitBroken f then poisonFlit f else f)
      else if packetType h = 3 then some (h :: body.map poisonFlit) else none
    let sound := fun (m : OutMsg) => match m with | .soundData _ _ _ => true | _ => false
    Completes (.soundHop port (h0 :: rest) r) s fun t => Only [.time, .cause, .counters, .events, .held, .flow, .islands, .integ, .strait, .out] s t ∧
      counterOf t (ob 0x4030 1) = counterOf s (ob 0x4030 1) + BitVec.ofNat 64 ((h0 :: rest).filter flitCorrected).length ∧
      counterOf t (ob 0x4032 1) = (counterOf s (ob 0x4032 1) +
        if flitBroken h0 || (!reserved && rest.any flitBroken) then 1 else 0) ∧
      counterOf t (ob 0x4033 1) = (counterOf s (ob 0x4033 1) + if !flitBroken h0 && reserved then 1 else 0) ∧
      ((∀ f ∈ h0 :: rest, flitBroken f = false) → counterOf t (ob 0x4031 1) = counterOf s (ob 0x4031 1) +
        BitVec.ofNat 64 ((List.range (rest.length + 1)).map fun k => min 2 (r.getD k 0)).sum) ∧
      match delivered with
      | some q => t.out.getLast? = some (.soundData port q (packetPoison q))
      | none => if flitBroken h0 || !reserved
        then ∃ v, t = resendLost port (h0 :: rest) v ∧ v.out.filter sound = s.out.filter sound ∧ (2048 ≤ port.toNat → v.flow = s.flow)
        else t.out.filter sound = s.out.filter sound) ∧
  (∀ (port : BitVec 12) (h : Flit) (body : List Flit) (s : State), 2339 ≤ port.toNat → port.toNat ≤ 2345 → body.length < 30 →
    (∀ f ∈ h :: body, flitBroken f = false ∧ flitCorrected f = false) → 1 ≤ packetType h → packetType h ≤ 3 →
    let m := h.data.toNat / 2 ^ 57 % 8
    Completes (.soundHop port (h :: body) []) s fun t =>
      match (if mayCarry s m then portLink s port.toNat m else none) with
      | some k =>
        let l := linkOf s k
        let f := flitBytes 1 (l.txSeq + 1).toNat l.rxSeq.toNat false (flitWords (h :: body)).1 (flitWords (h :: body)).2
        linkOf t k = { l with txSeq := l.txSeq + 1, replay := l.replay ++ [(l.txSeq + 1, f)] } ∧
        t.out = s.out ++ (if l.retraining = true ∨ 2048 ≤ l.replay.length then [] else [.straitFlit k (l.txSeq + 1) f]) ∧
        Only [.counters, .flow, .strait, .out] s t
      | none =>
        if packetType h = 1 then
          t.out = s.out ++ [.soundData (BitVec.ofNat 12 (packetSender h)) (poisonAnswer h) true] ∧ Only [.counters, .flow, .out] s t
        else counterOf t (ob 0x6214 1) = counterOf s (ob 0x6214 1) + 1 ∧ Only [.counters, .flow] s t) ∧
  (∀ (n : Fin 7) (lanes : BitVec 4) (halves : Bool) (a b : BitVec 3) (s : State),
    let idle := fun (k : Nat) => decide ((linkOf s k).state ≠ .exchange ∧ (linkOf s k).state ≠ .failed)
    let kept := lanes &&& ~~~(linkOf s n.val).retired
    let state := fun (ls : BitVec 4) (p : BitVec 3) => if ls = 0 then (if (linkOf s n.val).retired = 15 then LinkState.failed else .down)
      else if p.toNat ∈ membersOf s then .training else .disabled
    if linksEnabled s = true ∧ domIsOn s (2083 + n.val) = true ∧ idle n.val = true ∧ idle (n.val + 7) = true then
      Completes (.linkTraining n lanes halves a b) s fun t => Only [.cause, .counters, .events, .held, .strait, .out] s t ∧
        if halves = true ∧ a ≠ b then
          (linkOf t n.val).lanes = (kept &&& 3) ∧ (linkOf t n.val).peerA = a ∧ (linkOf t n.val).state = state (kept &&& 3) a ∧
          (linkOf t (n.val + 7)).lanes = (kept &&& 12) ∧ (linkOf t (n.val + 7)).peerA = b ∧
          (linkOf t (n.val + 7)).state = state (kept &&& 12) b
        else (linkOf t n.val).lanes = kept ∧ (linkOf t n.val).peerA = a ∧ (linkOf t n.val).halves = false ∧
          (linkOf t n.val).state = state kept a ∧
          ((tkeys s.strait.links).Pairwise (· < ·) → tget? t.strait.links (n.val + 7) = none)
    else exec (.linkTraining n lanes halves a b) s = .next s) ∧
  (∀ (peer : BitVec 3) (s : State),
    let m := peer.toNat
    let ks := (List.range 14).filter fun k => decide ((linkOf s k).state = .training ∧ (linkOf s k).peerA.toNat = m)
    let back := gangState s m == .quarantine && (s.strait.left || s.strait.gone.contains m)
    if linksEnabled s = false ∨ (peersOf s).contains m = false ∨ (ks = [] ∧ back = false) then exec (.linkTrained peer) s = .next s
    else Completes (.linkTrained peer) s fun t => (∀ k ∈ ks, (linkOf t k).state = .exchange) ∧
      (∀ k, k ∉ ks → (linkOf t k).state = (linkOf s k).state) ∧
      (gangLinks s m = [] ∨ back = true → tget? t.strait.gangs m = some .exchange ∧ t.strait.joining = true ∧
        t.strait.collected = [] ∧ t.regs.intCause.getLsbD 7 = true) ∧ Only [.cause, .strait, .out] s t) ∧
  (∀ (half : Fin 14) (flit : Bytes) (bad : BitVec 4) (s : State), flit.length = 256 →
    let k := linkKey half.val
    let l := linkOf s k
    let head := fld flit 0 8
    let seq := BitVec.ofNat 12 (head / 16)
    if l.state ≠ .exchange ∨ l.retraining = true then exec (.flitReceive half flit bad []) s = .next s
    else if fld flit 248 4 ≠ (crc32c (flit.take 248)).toNat then
      onlyLane bad = none → exec (.flitReceive half flit bad []) s = .next { s with out := s.out ++ [.straitNak k l.rxSeq] }
    else if seq ≠ l.rxSeq + 1 then exec (.flitReceive half flit bad []) s = .next s
    else Completes (.flitReceive half flit bad []) s fun t => (linkOf t k).rxSeq = seq ∧ Only [.power, .doms, .gov, .time, .cause, .counters, .events, .monitors, .que, .held, .model, .flow, .hbr, .islands, .clusters, .integ, .strait, .out, .free] s t ∧
      (head % 16 ≠ 1 → l.replay.length ≤ 2048 →
        linkOf t k = { l with rxSeq := seq, replay := afterAck (BitVec.ofNat 12 (head / 2 ^ 16)) l.replay } ∧ Only [.strait] s t)) ∧
  (∀ (half : Fin 14) (lane : Fin 4) (s : State), Completes (.laneCeInterval half lane) s fun t =>
    let k := linkKey half.val
    (linkOf t k).corrected = tdel (linkOf s k).corrected lane.val ∧ Only [.power, .doms, .gov, .time, .cause, .counters, .events, .monitors, .que, .held, .model, .flow, .hbr, .islands, .clusters, .integ, .strait, .out, .free] s t ∧
    if tget (linkOf s k).corrected lane.val 0 ≤ dictNum s (ob 0x6211 1) then
      linkOf t k = { linkOf s k with corrected := tdel (linkOf s k).corrected lane.val } ∧ Only [.strait] s t
    else tget? (linkOf s k).episodes lane.val = none → tget? (linkOf t k).episodes lane.val = some (tideOf s)) ∧
  (∀ (half : Fin 14) (s : State),
    let k := linkKey half.val
    let l := linkOf s k
    if l.retraining = false then exec (.linkRetrainDone half) s = .next s
    else Completes (.linkRetrainDone half) s fun t => (linkOf t k).retraining = false ∧ (linkOf t k).replay = l.replay ∧
      t.out = s.out ++ (l.replay.take 2048).map (fun e => .straitFlit k e.1 e.2) ∧
      counterOf t (ob 0x6212 1) = (counterOf s (ob 0x6212 1) + if l.replay = [] then 0 else 1) ∧ Only [.counters, .strait, .out] s t) ∧
  (∀ (half : Fin 14) (ack : BitVec 12) (s : State),
    let k := linkKey half.val
    let l := linkOf s k
    let left := afterAck ack l.replay
    if l.state ≠ .exchange then exec (.nakReceive half ack) s = .next s
    else l.replay.length ≤ 2048 → Completes (.nakReceive half ack) s fun t => (linkOf t k).replay = left ∧
      t.out = s.out ++ left.map (fun e => .straitFlit k e.1 e.2) ∧
      counterOf t (ob 0x6212 1) = (counterOf s (ob 0x6212 1) + if left = [] then 0 else 1) ∧ Only [.counters, .strait, .out] s t) ∧
  (∀ (half : Fin 14) (acc : BitVec 12) (s : State),
    let k := linkKey half.val
    let l := linkOf s k
    if l.state = .exchange ∨ (l.state = .failed ∧ l.replay ≠ []) then Completes (.linkLost half acc) s fun t =>
      (linkOf t k).state = (if l.lanes = 0 then .failed else .down) ∧ (linkOf t k).replay = [] ∧
      (∀ o, o ≠ k → (linkOf t o).state = (linkOf s o).state) ∧
      (l.state = .exchange → t.regs.intCause.getLsbD 7 = true) ∧ Only [.power, .doms, .gov, .time, .cause, .counters, .events, .monitors, .que, .held, .model, .flow, .hbr, .islands, .clusters, .integ, .strait, .out, .free] s t
    else exec (.linkLost half acc) s = .next s)

/-- O60 (tier 2). A manifest from a peer is kept; once all have come and no join is open, a gang is ACTIVE exactly where
both manifests agree with the reference and QUARANTINE elsewhere. A sync message is answered with this module's Tide;
sixteen exchanges give the 8th smallest of their θ, halved to even. A small θ slews the member, three failed
measurements take it out of the group. A slew tick holds or doubles one tick. The group commit makes the held values
active, once Tide reaches it. The leader takes reports; an agreed launch opens at its Tide, unless the group
disagrees; one that a member never joins is aborted. An ABORT drops the agreed launches and reports of its keys and
stops their requests. The sender of a multicast group takes grants from its receivers and credits back, and cuts a
stalled one; a push goes to the Lace that granted the slab. Rests on R392, R394, R395, R396, R399, R400, R401, R402,
R403, R408, R409, R410. -/
def Obligations.DeviceGroups : Prop :=
  (∀ (b : Bytes) (s : State),
    let m := fld b 6 1
    let u := { s with strait := { s.strait with manifests := tset s.strait.manifests m b } }
    let agrees := fun (k : Nat) => decide (comparedPart (manifestOf u k) = referenceManifest u)
    if (peersOf s).contains m = false ∨ gangLinks s m = [] then exec (.manifestReceive b) s = .next s
    else Completes (.manifestReceive b) s fun t => tget? t.strait.manifests m = some b ∧ Only [.power, .doms, .gov, .time, .regs, .cause, .counters, .events, .monitors, .que, .held, .model, .flow, .hbr, .islands, .clusters, .integ, .strait, .out, .free] s t ∧
      (s.strait.joining = false → (∀ p ∈ peersOf s, p = m ∨ p ∈ s.strait.collected) → ∀ p ∈ peersOf s, gangLinks s p ≠ [] →
        gangState t p = if agrees p && agrees (selfId s) && !s.strait.left then .active else .quarantine)) ∧
  (∀ (half : Fin 14) (t1 : BitVec 64) (s : State), (linkOf s (linkKey half.val)).state ≠ .exchange →
    ∀ x, exec (.syncMessage half t1 x) s = .next s) ∧
  (∀ (half : Fin 14) (t1 : BitVec 64) (s : State), (linkOf s (linkKey half.val)).state = .exchange →
    Completes (.syncMessage half t1 none) s fun t =>
      .straitControl (linkOf s (linkKey half.val)).peerA.toNat 1 [t1.toNat, (tideOf s).toNat, (tideOf s).toNat] ∈ t.out ∧
      Only [.strait, .out] s t) ∧
  (∀ (half : Fin 14) (t1 t2 t3 t4 : BitVec 64) (s : State), (linkOf s (linkKey half.val)).state = .exchange →
    let d := (t2 - t1).toInt + (t3 - t4).toInt
    let theta := if d % 2 = 0 ∨ d / 2 % 2 = 0 then d / 2 else d / 2 + 1
    let l := s.strait.thetas ++ [theta]
    if l.length < 16 then exec (.syncMessage half t1 (some (t2, t3, t4))) s = .next { s with strait := { s.strait with thetas := l } }
    else Completes (.syncMessage half t1 (some (t2, t3, t4))) s fun t => t.strait.thetas = [] ∧ Only [.power, .doms, .gov, .time, .regs, .cause, .counters, .events, .monitors, .que, .held, .model, .flow, .hbr, .islands, .clusters, .integ, .strait, .out, .free] s t ∧
      (s.strait.joining = false → ∃ x, t.strait.theta = some x ∧ x ∈ l ∧ (l.filter fun y => decide (y < x)).length ≤ 7 ∧
        8 ≤ (l.filter fun y => decide (y ≤ x)).length)) ∧
  (∀ (member : BitVec 3) (results : List Int) (s : State),
    let m := member.toNat
    let big := fun (x : Int) => decide (2 < x.natAbs)
    if (membersOf s).contains m = false ∨ leaderOf s = none ∨ (m = selfId s ∧ (isLeader s = true ∨ s.strait.aligned = false)) then
      exec (.syncTimer member results) s = .next s
    else if isLeader s = false then
      if results = [] ∨ (m ≠ selfId s ∧ results.head?.any (fun x => !big x) = true) then exec (.syncTimer member results) s = .next s
      else ∀ x rest, results = x :: rest → m = selfId s →
        if big x = false then exec (.syncTimer member results) s =
          .next { s with time := { s.time with slew := x }, strait := { s.strait with measures := 0 } }
        else rest.all big = true → 3 ≤ s.strait.measures + rest.length → s.strait.measures ≤ 3 →
          Completes (.syncTimer member results) s fun t => t.strait.left = true ∧ t.strait.aligned = false ∧ t.strait.measures = 0 ∧
            t.time.slew = 0 ∧ t.strait.disagreeSince.isSome = true ∧
            counterOf t (ob 0x2012 1) = counterOf s (ob 0x2012 1) + 1 ∧ Only [.power, .doms, .gov, .time, .cause, .counters, .events, .monitors, .que, .held, .model, .flow, .hbr, .islands, .clusters, .integ, .strait, .out, .free] s t
    else Completes (.syncTimer member results) s fun t => Only [.power, .doms, .gov, .time, .cause, .counters, .events, .monitors, .que, .held, .model, .flow, .hbr, .islands, .clusters, .integ, .strait, .out, .free] s t ∧
      (gangLinks s m ≠ [] → .straitControl m 1 [(tideOf s).toNat] ∈ t.out) ∧
      (results.head?.any big = true → results.all big = true → 3 ≤ s.strait.measures + (results.length - 1) →
        s.strait.measures ≤ 3 → m ∈ t.strait.gone ∧ (gangLinks s m ≠ [] → gangState t m = .quarantine))) ∧
  (∀ s : State, exec .slewTick s = .next { s with time := { s.time with
    slew := s.time.slew - Int.sign s.time.slew, pll := if s.time.slew < 0 then s.time.pll + 2 else s.time.pll } }) ∧
  (∀ s : State,
    let at_ := leNat (dictActive s (ob 0x6204 1) 0)
    if membersOf s = [] ∨ at_ = 0 ∨ (tideOf s).toNat < at_ then exec .groupCommit s = .next s
    else Completes .groupCommit s fun t => t.dict.heldGroup = [] ∧ t.dict.groupPending = false ∧ t.strait.listed = listedNow s ∧
      t.strait.collected = [] ∧ ((tkeys s.dict.heldGroup).Pairwise (· < ·) →
        ∀ k v, tget? s.dict.heldGroup k = some v → tget? t.dict.active k = some v) ∧ Only [.regs, .values, .integ, .strait, .out] s t) ∧
  (∀ (member : BitVec 3) (slot : Fin 64) (key : BitVec 64) (ctx : BitVec 32) (s : State),
    if isLeader s = false ∨ (peersOf s).contains member.toNat = false then exec (.requestReport member slot key ctx) s = .next s
    else Completes (.requestReport member slot key ctx) s fun t => Only [.power, .doms, .gov, .time, .cause, .counters, .events, .monitors, .que, .held, .model, .flow, .hbr, .islands, .clusters, .integ, .strait, .out, .free] s t ∧
      (s.que.reqs = [] → (∀ r ∈ s.strait.reports, selfId s ∉ r.members) →
        ∃ r ∈ t.strait.reports, r.key = key ∧ member.toNat ∈ r.members)) ∧
  (∀ (keys : List (BitVec 64)) (gen : BitVec 16) (tl : BitVec 64) (s : State),
    if membersOf s = [] ∨ reqsOfKeys s keys = [] then exec (.launchMessage keys gen tl) s = .next s
    else Completes (.launchMessage keys gen tl) s fun t => Only [.power, .doms, .gov, .time, .cause, .counters, .events, .monitors, .que, .held, .model, .flow, .hbr, .islands, .clusters, .integ, .strait, .out, .free] s t ∧
      counterOf t (ob 0x620A 1) = (counterOf s (ob 0x620A 1) + if tl.toNat < (tideOf s).toNat then 1 else 0)) ∧
  (∀ (l : Nat) (s : State), match tget? s.model.launches l with
    | none => exec (.groupLaunchAtTide l) s = .next s ∧ exec (.barrierDeadline l) s = .next s
    | some x => match x.agreed with
      | none => exec (.groupLaunchAtTide l) s = .next s ∧ exec (.barrierDeadline l) s = .next s
      | some at_ =>
        (if x.begun = true ∨ (tideOf s).toNat < at_.toNat then exec (.groupLaunchAtTide l) s = .next s
        else if groupRefuses s at_ = false then Completes (.groupLaunchAtTide l) s fun t =>
          tget? t.model.launches l = some { x with begun := true } ∧ Only [.model] s t
        else Completes (.groupLaunchAtTide l) s fun t => Only [.power, .doms, .gov, .time, .cause, .counters, .events, .monitors, .que, .held, .model, .flow, .hbr, .islands, .clusters, .integ, .strait, .out, .free] s t) ∧
        (match missingRemote s l with
        | none => exec (.barrierDeadline l) s = .next s
        | some _ => if at_.toNat + 1000 * dictNum s (ob 0x6206 1) ≤ (tideOf s).toNat then
            Completes (.barrierDeadline l) s fun t => Only [.power, .doms, .gov, .time, .cause, .counters, .events, .monitors, .que, .held, .model, .flow, .hbr, .islands, .clusters, .integ, .strait, .out, .free] s t ∧
              (∀ r ∈ t.strait.reports, r.key ∉ launchKeys s x) ∧
              ∀ p ∈ peersOf s, gangLinks s p ≠ [] → launchKeys s x ≠ [] →
                .straitControl p 4 ((launchKeys s x).map BitVec.toNat) ∈ t.out
          else exec (.barrierDeadline l) s = .next s)) ∧
  (∀ (key : BitVec 64) (s : State), match s.strait.reports.find? (fun r => r.key = key) with
    | none => exec (.reportTimeout key) s = .next s
    | some r => if isLeader s = true ∧ (∃ m ∈ membersOf s, m ∉ r.members) ∧
        1000 * dictNum s (ob 0x6206 1) ≤ (tideOf s - r.since).toNat then
        Completes (.reportTimeout key) s fun t => Only [.power, .doms, .gov, .time, .cause, .counters, .events, .monitors, .que, .held, .model, .flow, .hbr, .islands, .clusters, .integ, .strait, .out, .free] s t ∧ (∀ r ∈ t.strait.reports, r.key ≠ key) ∧
          ∀ p ∈ peersOf s, gangLinks s p ≠ [] → .straitControl p 4 [key.toNat] ∈ t.out
      else exec (.reportTimeout key) s = .next s) ∧
  (∀ (keys : List (BitVec 64)) (s : State), Completes (.abortMessage keys) s fun t => Only [.power, .doms, .gov, .time, .cause, .counters, .events, .monitors, .que, .held, .model, .flow, .hbr, .islands, .clusters, .integ, .strait, .out, .free] s t ∧
    (∀ r ∈ t.strait.reports, r.key ∉ keys) ∧ (∀ g ∈ t.strait.agreed, ∀ k ∈ g.1, k ∉ keys) ∧
    ((tkeys s.que.reqs).Pairwise (· < ·) → ∀ a ∈ reqsOfKeys s keys, ∀ r, tget? s.que.reqs a = some r → groupLast s r.slot = true →
      ∀ q, tget? t.que.reqs a = some q → q.stopped.isSome = true)) ∧
  (∀ (slot : Fin 64) (group : Fin 256) (member : BitVec 3) (h : BitVec 30) (hd : BitVec 16) (s : State),
    let here := fun (m : Mcast) => decide (m.slot = slot.val ∧ m.plan.group = group.val)
    let put := fun (f : Mcast → Mcast) =>
      { s with strait := { s.strait with mcasts := s.strait.mcasts.map fun m => if here m then f m else m } }
    let k := member.toNat
    exec (.mcastCredit slot group member hd) s = .next (put fun m =>
      match m.credits.find? (fun c => c.1 = k && c.2.1 = hd) with
      | some c => { m with credits := m.credits.erase c }
      | none => m) ∧
    match s.strait.mcasts.find? here with
    | none => exec (.mcastGrant slot group member h) s = .next s ∧ exec (.shedStallTimeout slot group member) s = .next s
    | some m =>
      let sends := decide (membersOf s ≠ [] ∧ m.plan.sender = rankOf s (selfId s))
      exec (.mcastGrant slot group member h) s = .next
        (if sends && m.plan.receivers.getLsbD (rankOf s k) && (peersOf s).contains k then
          put fun m => { m with grants := m.grants ++ [(k, h)] } else s) ∧
      if m.plan.shed = false ∨ strictOn s = true then exec (.shedStallTimeout slot group member) s = .next s
      else if k = selfId s then
        if sends = true ∨ m.plan.receivers.getLsbD (rankOf s k) = false then exec (.shedStallTimeout slot group member) s = .next s
        else Completes (.shedStallTimeout slot group member) s fun t => Only [.power, .doms, .gov, .time, .cause, .counters, .events, .monitors, .que, .held, .model, .flow, .hbr, .islands, .clusters, .integ, .strait, .out, .free] s t ∧
          ((tkeys s.que.reqs).Pairwise (· < ·) → ∀ a ∈ mcastReqs s m, ∀ q, tget? t.que.reqs a = some q → q.stopped.isSome = true)
      else if sends && (mcastRemotes s m).contains k && mcastStalled s m k then
        Completes (.shedStallTimeout slot group member) s fun t =>
          t.strait.mcasts = (put fun m => { m with
            cut := insertUp k m.cut, grants := m.grants.filter (fun g => g.1 ≠ k),
            credits := m.credits.filter fun c => c.1 ≠ k }).strait.mcasts ∧
          counterOf t (ob 0x6221 1) = counterOf s (ob 0x6221 1) + 1 ∧ Only [.counters, .strait, .out] s t
      else exec (.shedStallTimeout slot group member) s = .next s) ∧
  (∀ (half : Fin 14) (lace : Fin 4096) (entry : BitVec 64) (s : State),
    let e := entryOfWord entry.toNat
    let takes := fun (n : Nat) => ∃ x ∈ s.model.launches, ∃ y ∈ x.2.laces, y.1 = lace.val ∧ y.2 = n ∧
      ∃ la, tget? s.flow.laces n = some la ∧ ∃ k ∈ la.held, k.h = e.slab ∧ k.awaits = true
    ((linkOf s (linkKey half.val)).state ≠ .exchange ∨ (∀ n, ¬takes n) → exec (.mcastPush half lace entry) s = .next s) ∧
    (∀ n la, (linkOf s (linkKey half.val)).state = .exchange → takes n → (∀ j, takes j → j = n) →
      tget? s.flow.laces n = some la → Completes (.mcastPush half lace entry) s fun t =>
        (∃ la', tget? t.flow.laces n = some la' ∧ la'.pushed = la.pushed + 1 ∧
          la'.consumers = (la.consumers.map fun c => { c with waiting := c.waiting ++ [e] }) ∧
          la'.held.map (fun k => k.h) = la.held.map (fun k => k.h) ∧ la'.fed = la.fed) ∧ Only [.flow] s t))
end

