-- ==== Sys2Proof/Laws/Frame.lean ====
section
/-! SUPPORT. The laws of `Only`, by which frames compose. -/

namespace Sys2Proof
open Sys2Proof.Machine

theorem Only.refl (P : List Part) (s : State) : Only P s s :=
  ⟨⟨rfl, rfl, rfl, rfl⟩, fun p _ => by cases p <;> first | rfl | exact ⟨rfl, rfl, rfl⟩⟩

theorem SamePart.trans {s t u : State} (h : SamePart s t) (k : SamePart t u) : SamePart s u :=
  ⟨k.1.trans h.1, k.2.1.trans h.2.1, k.2.2.1.trans h.2.2.1, k.2.2.2.trans h.2.2.2⟩

theorem Part.same.trans {p : Part} {s t u : State} (h : p.same s t) (k : p.same t u) : p.same s u := by
  cases p <;> simp only [Part.same] at h k ⊢
  all_goals first
    | exact k.trans h
    | exact ⟨k.1.trans h.1, k.2.1.trans h.2.1, k.2.2.trans h.2.2⟩
    | (rw [← h, ← k])

theorem Only.trans {P : List Part} {s t u : State} (h : Only P s t) (k : Only P t u) : Only P s u :=
  ⟨h.1.trans k.1, fun p hp => (h.2 p hp).trans (k.2 p hp)⟩

def subParts (q p : List Part) : Bool := q.all fun x => p.any fun y => y == x

theorem Only.mono {Q P : List Part} {s t : State} (h : Only Q s t) (hs : subParts Q P = true) : Only P s t :=
  ⟨h.1, fun p hp => h.2 p fun hq => hp (by
    have := List.all_eq_true.1 hs p hq
    obtain ⟨y, hy, e⟩ := List.any_eq_true.1 this
    have : y = p := by simpa using e
    exact this ▸ hy)⟩

theorem Only.step {Q P : List Part} {s t u : State} (h : Only Q t u) (hs : subParts Q P = true) (k : Only P s t) : Only P s u :=
  k.trans (h.mono hs)

theorem Only.ite {P : List Part} {s a b : State} {c : Prop} [Decidable c] (ha : c → Only P s a) (hb : ¬c → Only P s b) :
    Only P s (if c then a else b) := by split <;> simp_all

theorem Only.ite2 {α : Type} {P : List Part} {s : State} {a b : α × State} {c : Prop} [Decidable c] (ha : c → Only P s a.2) (hb : ¬c → Only P s b.2) :
    Only P s (if c then a else b).2 := by split <;> simp_all

theorem Only.ite1 {α : Type} {P : List Part} {s : State} {a b : State × α} {c : Prop} [Decidable c] (ha : c → Only P s a.1) (hb : ¬c → Only P s b.1) :
    Only P s (if c then a else b).1 := by split <;> simp_all

theorem Only.foldl {α : Type} {P : List Part} {s x : State} {f : State → α → State} {l : List α}
    (hf : ∀ x a, Only P s x → Only P s (f x a)) (h : Only P s x) : Only P s (l.foldl f x) := by
  induction l generalizing x with
  | nil => exact h
  | cons a l ih => exact ih (hf x a h)

theorem Only.foldr {α : Type} {P : List Part} {s x : State} {f : α → State → State} {l : List α}
    (hf : ∀ a x, Only P s x → Only P s (f a x)) (h : Only P s x) : Only P s (l.foldr f x) := by
  induction l with
  | nil => exact h
  | cons a l ih => exact hf a _ ih

def OnlyR (P : List Part) (s : State) (r : Res) : Prop := ∀ t, r = .next t → Only P s t
theorem OnlyR.next {P s t} (h : Only P s t) : OnlyR P s (.next t) := by intro u hu; cases hu; exact h
theorem OnlyR.fault {P s f} : OnlyR P s (.fault f) := by intro u hu; cases hu
theorem OnlyR.refused {P s f} : OnlyR P s (.refused f) := by intro u hu; cases hu
theorem OnlyR.ite {P : List Part} {s} {a b : Res} {c : Prop} [Decidable c] (ha : c → OnlyR P s a) (hb : ¬c → OnlyR P s b) :
    OnlyR P s (if c then a else b) := by split <;> simp_all
theorem OnlyR.step {Q P : List Part} {s t : State} {r : Res} (h : OnlyR Q t r) (hs : subParts Q P = true) (k : Only P s t) : OnlyR P s r :=
  fun u hu => k.trans ((h u hu).mono hs)
def OnlyO (P : List Part) (s : State) (r : Option State) : Prop := ∀ t, r = some t → Only P s t
theorem OnlyO.some {P s t} (h : Only P s t) : OnlyO P s (some t) := by intro u hu; cases hu; exact h
theorem OnlyO.none {P s} : OnlyO P s none := by intro u hu; cases hu
theorem OnlyO.ite {P : List Part} {s} {a b : Option State} {c : Prop} [Decidable c] (ha : c → OnlyO P s a) (hb : ¬c → OnlyO P s b) :
    OnlyO P s (if c then a else b) := by split <;> simp_all
theorem OnlyO.step {Q P : List Part} {s t : State} {r : Option State} (h : OnlyO Q t r) (hs : subParts Q P = true) (k : Only P s t) : OnlyO P s r :=
  fun u hu => k.trans ((h u hu).mono hs)
theorem OnlyO.got {Q P : List Part} {s t u : State} {r : Option State} (h : OnlyO Q t r) (e : r = Option.some u) (hs : subParts Q P = true) (k : Only P s t) : Only P s u :=
  k.trans ((h u e).mono hs)
theorem Only.pair {α : Type} {Q P : List Part} {s t u : State} {a : α} {p : α × State} (e : p = (a, u)) (h : Only Q t p.2) (hs : subParts Q P = true) (k : Only P s t) : Only P s u := by
  subst e; exact k.trans (h.mono hs)
theorem Only.pair1 {α : Type} {Q P : List Part} {s t u : State} {a : α} {p : State × α} (e : p = (u, a)) (h : Only Q t p.1) (hs : subParts Q P = true) (k : Only P s t) : Only P s u := by
  subst e; exact k.trans (h.mono hs)

theorem Only.upd {P : List Part} {s y : State} {pw ti re di se pu pd qu mo fl hb ba is cl aw sc it st ou fr}
    (k : Only P s y)
    (h : ∀ p, p ∉ P → p.same y ⟨y.pending, y.part816, y.liquid, y.preloaded, pw, ti, re, di, se, pu, pd, qu, mo, fl, hb, ba, is, cl, aw, sc, it, st, ou, fr⟩) :
    Only P s ⟨y.pending, y.part816, y.liquid, y.preloaded, pw, ti, re, di, se, pu, pd, qu, mo, fl, hb, ba, is, cl, aw, sc, it, st, ou, fr⟩ :=
  k.trans ⟨⟨rfl, rfl, rfl, rfl⟩, h⟩

theorem Only.hbr {P : List Part} {s t : State} {h : Harbour} (k : Only P s t) (e : h.segs = t.hbr.segs)
    (hs : subParts [.hbr] P = true) : Only P s { t with hbr := h } := by
  refine Only.step (Q := [.hbr]) (t := t) ⟨⟨rfl, rfl, rfl, rfl⟩, fun p hp => ?_⟩ hs k
  cases p
  case hbr => exact absurd (by decide) hp
  case segs => exact e
  all_goals first | rfl | exact ⟨rfl, rfl, rfl⟩
end Sys2Proof
end

