-- ==== Sys2Proof/Laws/FrameOps.lean ====
section
/-! SUPPORT. For each function of the shared operations, the group, the Harbour accesses, the queue pairs, the banks and the store that answers a state: the parts of the state that it may change. -/

namespace Sys2Proof.Laws

open Sys2Proof.Machine

theorem modBank_only (b : Nat) (f : Bank → Bank) (s : State) :
    Only [.banks] s (modBank b f s) := by
  unfold modBank
  repeat' first
    | with_reducible exact Only.refl _ _
    | with_reducible assumption
    | ((with_reducible apply Only.upd); rotate_left; focus (intro p hp; cases p <;> first | rfl | exact ⟨rfl, rfl, rfl⟩ | exact absurd (by decide) hp))

theorem modIsland_only (i : Nat) (f : Island → Island) (s : State) :
    Only [.islands] s (modIsland i f s) := by
  unfold modIsland
  repeat' first
    | with_reducible exact Only.refl _ _
    | with_reducible assumption
    | ((with_reducible apply Only.upd); rotate_left; focus (intro p hp; cases p <;> first | rfl | exact ⟨rfl, rfl, rfl⟩ | exact absurd (by decide) hp))

theorem modCluster_only (c : Nat) (f : Cluster → Cluster) (s : State) :
    Only [.clusters] s (modCluster c f s) := by
  unfold modCluster
  repeat' first
    | with_reducible exact Only.refl _ _
    | with_reducible assumption
    | ((with_reducible apply Only.upd); rotate_left; focus (intro p hp; cases p <;> first | rfl | exact ⟨rfl, rfl, rfl⟩ | exact absurd (by decide) hp))

theorem modSched_only (b : Nat) (f : Sched → Sched) (s : State) :
    Only [.scheds] s (modSched b f s) := by
  unfold modSched
  repeat' first
    | with_reducible exact Only.refl _ _
    | with_reducible assumption
    | ((with_reducible apply Only.upd); rotate_left; focus (intro p hp; cases p <;> first | rfl | exact ⟨rfl, rfl, rfl⟩ | exact absurd (by decide) hp))

theorem modSlot_only (n : Nat) (f : Slot → Slot) (s : State) :
    Only [.model] s (modSlot n f s) := by
  unfold modSlot
  repeat' first
    | with_reducible exact Only.refl _ _
    | with_reducible assumption
    | ((with_reducible apply Only.upd); rotate_left; focus (intro p hp; cases p <;> first | rfl | exact ⟨rfl, rfl, rfl⟩ | exact absurd (by decide) hp))

theorem modPair_only (q : Nat) (f : QPair → QPair) (s : State) :
    Only [.que] s (modPair q f s) := by
  unfold modPair
  repeat' first
    | with_reducible exact Only.refl _ _
    | with_reducible assumption
    | ((with_reducible apply Only.upd); rotate_left; focus (intro p hp; cases p <;> first | rfl | exact ⟨rfl, rfl, rfl⟩ | exact absurd (by decide) hp))

theorem modSeg_only (n : Nat) (f : Segment → Segment) (s : State) :
    Only [.segs] s (modSeg n f s) := by
  unfold modSeg
  repeat' first
    | with_reducible exact Only.refl _ _
    | with_reducible assumption
    | ((with_reducible apply Only.upd); rotate_left; focus (intro p hp; cases p <;> first | rfl | exact ⟨rfl, rfl, rfl⟩ | exact absurd (by decide) hp))

theorem modFerry_only (n : Nat) (f : Ferry → Ferry) (s : State) :
    Only [.flow] s (modFerry n f s) := by
  unfold modFerry
  repeat' first
    | with_reducible exact Only.refl _ _
    | with_reducible assumption
    | ((with_reducible apply Only.upd); rotate_left; focus (intro p hp; cases p <;> first | rfl | exact ⟨rfl, rfl, rfl⟩ | exact absurd (by decide) hp))

theorem modChan_only (n : Nat) (f : Channel → Channel) (s : State) :
    Only [.awl] s (modChan n f s) := by
  unfold modChan
  repeat' first
    | with_reducible exact Only.refl _ _
    | with_reducible assumption
    | ((with_reducible apply Only.upd); rotate_left; focus (intro p hp; cases p <;> first | rfl | exact ⟨rfl, rfl, rfl⟩ | exact absurd (by decide) hp))

theorem modLink_only (n : Nat) (f : Link → Link) (s : State) :
    Only [.strait] s (modLink n f s) := by
  unfold modLink
  repeat' first
    | with_reducible exact Only.refl _ _
    | with_reducible assumption
    | ((with_reducible apply Only.upd); rotate_left; focus (intro p hp; cases p <;> first | rfl | exact ⟨rfl, rfl, rfl⟩ | exact absurd (by decide) hp))

theorem modDom_only (n : Nat) (f : Domain → Domain) (s : State) :
    Only [.doms] s (modDom n f s) := by
  unfold modDom
  repeat' first
    | with_reducible exact Only.refl _ _
    | with_reducible assumption
    | ((with_reducible apply Only.upd); rotate_left; focus (intro p hp; cases p <;> first | rfl | exact ⟨rfl, rfl, rfl⟩ | exact absurd (by decide) hp))

theorem modPort_only (p : Port) (f : PortState → PortState) (s : State) :
    Only [.portU, .portD] s (modPort p f s) := by
  unfold modPort
  repeat' first
    | with_reducible exact Only.refl _ _
    | with_reducible assumption
    | (split)
    | ((with_reducible apply Only.upd); rotate_left; focus (intro p hp; cases p <;> first | rfl | exact ⟨rfl, rfl, rfl⟩ | exact absurd (by decide) hp))

theorem rearmAlarm_only (s : State) :
    Only [.regs] s (rearmAlarm s) := by
  unfold rearmAlarm
  repeat' first
    | with_reducible exact Only.refl _ _
    | with_reducible assumption
    | ((with_reducible apply Only.upd); rotate_left; focus (intro p hp; cases p <;> first | rfl | exact ⟨rfl, rfl, rfl⟩ | exact absurd (by decide) hp))

theorem bumpBy_only (obj : Nat) (n : Nat) (s : State) :
    Only [.counters] s (bumpBy obj n s) := by
  unfold bumpBy
  repeat' first
    | with_reducible exact Only.refl _ _
    | with_reducible assumption
    | (unfold modDict)
    | ((with_reducible apply Only.upd); rotate_left; focus (intro p hp; cases p <;> first | rfl | exact ⟨rfl, rfl, rfl⟩ | exact absurd (by decide) hp))

theorem bump_only (obj : Nat) (s : State) :
    Only [.counters] s (bump obj s) := by
  unfold bump
  repeat' first
    | with_reducible exact Only.refl _ _
    | with_reducible assumption
    | ((with_reducible apply Only.step (bumpBy_only _ _ _)); focus rfl)

theorem send_only (m : OutMsg) (s : State) :
    Only [.out] s (send m s) := by
  unfold send
  repeat' first
    | with_reducible exact Only.refl _ _
    | with_reducible assumption
    | ((with_reducible apply Only.upd); rotate_left; focus (intro p hp; cases p <;> first | rfl | exact ⟨rfl, rfl, rfl⟩ | exact absurd (by decide) hp))

theorem sendPort_only (p : Port) (m : OutMsg) (s : State) :
    Only [.held, .out] s (sendPort p m s) := by
  unfold sendPort
  repeat' first
    | with_reducible exact Only.refl _ _
    | with_reducible assumption
    | ((with_reducible apply Only.ite) <;> intro _)
    | ((with_reducible apply Only.step (send_only _ _)); focus rfl)
    | (split)
    | ((with_reducible apply Only.upd); rotate_left; focus (intro p hp; cases p <;> first | rfl | exact ⟨rfl, rfl, rfl⟩ | exact absurd (by decide) hp))

theorem cause_only (k : Nat) (s : State) :
    Only [.cause] s (cause k s) := by
  unfold cause
  repeat' first
    | with_reducible exact Only.refl _ _
    | with_reducible assumption
    | ((with_reducible apply Only.upd); rotate_left; focus (intro p hp; cases p <;> first | rfl | exact ⟨rfl, rfl, rfl⟩ | exact absurd (by decide) hp))

theorem takeFree_only (s : State) :
    Only [.free] s (takeFree s).2 := by
  unfold takeFree
  repeat' first
    | with_reducible exact Only.refl _ _
    | with_reducible assumption
    | ((with_reducible apply Only.upd); rotate_left; focus (intro p hp; cases p <;> first | rfl | exact ⟨rfl, rfl, rfl⟩ | exact absurd (by decide) hp))

theorem faultRecord_only (e : Event) (s : State) :
    Only [.events] s (faultRecord e s) := by
  unfold faultRecord
  repeat' first
    | with_reducible exact Only.refl _ _
    | with_reducible assumption
    | (unfold modDict)
    | ((with_reducible apply Only.upd); rotate_left; focus (intro p hp; cases p <;> first | rfl | exact ⟨rfl, rfl, rfl⟩ | exact absurd (by decide) hp))

theorem logEvent_only (e : Event) (s : State) :
    Only [.counters, .events, .held, .out] s (logEvent e s) := by
  unfold logEvent
  repeat' first
    | with_reducible exact Only.refl _ _
    | with_reducible assumption
    | (extract_lets +onlyGivenNames x; refine (have hx : Only [.counters, .events, .held, .out] s x := ?_; ?_); unfold x; clear x; rotate_left; clear_value x; rotate_right)
    | (extract_lets +onlyGivenNames x; unfold x; clear x)
    | ((with_reducible apply Only.ite) <;> intro _)
    | ((with_reducible apply Only.step (bump_only _ _)); focus rfl)
    | ((with_reducible apply Only.step (faultRecord_only _ _)); focus rfl)
    | ((with_reducible apply Only.step (send_only _ _)); focus rfl)
    | ((with_reducible apply Only.step (sendPort_only _ _ _)); focus rfl)
    | (unfold modDict)
    | (split)
    | ((with_reducible apply Only.upd); rotate_left; focus (intro p hp; cases p <;> first | rfl | exact ⟨rfl, rfl, rfl⟩ | exact absurd (by decide) hp))

theorem raiseSev_only (sev : Nat) (name : EventName) (unitKind : Nat) (unit : Nat) (s : State) :
    Only [.counters, .events, .held, .out] s (raiseSev sev name unitKind unit s) := by
  unfold raiseSev
  repeat' first
    | with_reducible exact Only.refl _ _
    | with_reducible assumption
    | (extract_lets +onlyGivenNames x; unfold x; clear x)
    | ((with_reducible apply Only.ite) <;> intro _)
    | ((with_reducible apply Only.step (bump_only _ _)); focus rfl)
    | ((with_reducible apply Only.step (logEvent_only _ _)); focus rfl)

theorem raise_only (name : EventName) (unitKind : Nat) (unit : Nat) (s : State) :
    Only [.counters, .events, .held, .out] s (raise name unitKind unit s) := by
  unfold raise
  repeat' first
    | with_reducible exact Only.refl _ _
    | with_reducible assumption
    | ((with_reducible apply Only.step (raiseSev_only _ _ _ _ _)); focus rfl)

theorem raiseFault_only (name : EventName) (unitKind : Nat) (unit : Nat) (s : State) :
    Only [.counters, .events, .held, .out] s (raiseFault name unitKind unit s) := by
  unfold raiseFault
  repeat' first
    | with_reducible exact Only.refl _ _
    | with_reducible assumption
    | ((with_reducible apply Only.step (raiseSev_only _ _ _ _ _)); focus rfl)

theorem sample_only (obj : Nat) (unit : Nat) (v : Nat) (s : State) :
    Only [.monitors] s (sample obj unit v s) := by
  unfold sample
  repeat' first
    | with_reducible exact Only.refl _ _
    | with_reducible assumption
    | (extract_lets +onlyGivenNames x; unfold x; clear x)
    | (unfold modDict)
    | ((with_reducible apply Only.upd); rotate_left; focus (intro p hp; cases p <;> first | rfl | exact ⟨rfl, rfl, rfl⟩ | exact absurd (by decide) hp))

theorem monClearAll_only (obj : Nat) (s : State) :
    Only [.monitors] s (monClearAll obj s) := by
  unfold monClearAll
  repeat' first
    | with_reducible exact Only.refl _ _
    | with_reducible assumption
    | (unfold modDict)
    | (split)
    | ((with_reducible apply Only.upd); rotate_left; focus (intro p hp; cases p <;> first | rfl | exact ⟨rfl, rfl, rfl⟩ | exact absurd (by decide) hp))

theorem assertFault_only (s : State) :
    Only [.power] s (assertFault s) := by
  unfold assertFault
  repeat' first
    | with_reducible exact Only.refl _ _
    | with_reducible assumption
    | ((with_reducible apply Only.upd); rotate_left; focus (intro p hp; cases p <;> first | rfl | exact ⟨rfl, rfl, rfl⟩ | exact absurd (by decide) hp))

theorem moduleFault_only (s : State) :
    Only [.power, .counters, .events, .held, .out] s (moduleFault s) := by
  unfold moduleFault
  repeat' first
    | with_reducible exact Only.refl _ _
    | with_reducible assumption
    | (extract_lets +onlyGivenNames x; refine (have hx : Only [.power, .counters, .events, .held, .out] s x := ?_; ?_); unfold x; clear x; rotate_left; clear_value x; rotate_right)
    | (extract_lets +onlyGivenNames x; unfold x; clear x)
    | ((with_reducible apply Only.step (assertFault_only _)); focus rfl)
    | ((with_reducible apply Only.step (raiseFault_only _ _ _ _)); focus rfl)
    | ((with_reducible apply Only.upd); rotate_left; focus (intro p hp; cases p <;> first | rfl | exact ⟨rfl, rfl, rfl⟩ | exact absurd (by decide) hp))

theorem setHistory_only (k : UnitKind) (n : Nat) (h : History) (s : State) :
    Only [.integ] s (setHistory k n h s) := by
  unfold setHistory
  repeat' first
    | with_reducible exact Only.refl _ _
    | with_reducible assumption
    | ((with_reducible apply Only.upd); rotate_left; focus (intro p hp; cases p <;> first | rfl | exact ⟨rfl, rfl, rfl⟩ | exact absurd (by decide) hp))

theorem storeTotal_only (s : State) :
    Only [.time] s (storeTotal s) := by
  unfold storeTotal
  repeat' first
    | with_reducible exact Only.refl _ _
    | with_reducible assumption
    | ((with_reducible apply Only.upd); rotate_left; focus (intro p hp; cases p <;> first | rfl | exact ⟨rfl, rfl, rfl⟩ | exact absurd (by decide) hp))

theorem countFailure_only (k : UnitKind) (n : Nat) (s : State) :
    Only [.time, .counters, .integ] s (countFailure k n s).1 := by
  unfold countFailure
  repeat' first
    | with_reducible exact Only.refl _ _
    | with_reducible assumption
    | (extract_lets +onlyGivenNames x; unfold x; clear x)
    | ((with_reducible apply Only.ite1) <;> intro _)
    | ((with_reducible apply Only.step (bump_only _ _)); focus rfl)
    | ((with_reducible apply Only.step (setHistory_only _ _ _ _)); focus rfl)
    | ((with_reducible apply Only.step (storeTotal_only _)); focus rfl)

theorem permanentEvent_only (k : UnitKind) (n : Nat) (s : State) :
    Only [.counters, .events, .held, .out] s (permanentEvent k n s) := by
  unfold permanentEvent
  repeat' first
    | with_reducible exact Only.refl _ _
    | with_reducible assumption
    | ((with_reducible apply Only.step (raise_only _ _ _ _)); focus rfl)

theorem modBucket_only (key : Nat) (f : Bucket → Bucket) (s : State) :
    Only [.integ] s (modBucket key f s) := by
  unfold modBucket
  repeat' first
    | with_reducible exact Only.refl _ _
    | with_reducible assumption
    | ((with_reducible apply Only.upd); rotate_left; focus (intro p hp; cases p <;> first | rfl | exact ⟨rfl, rfl, rfl⟩ | exact absurd (by decide) hp))

theorem bucketAdd_only (kind : Nat) (n : Nat) (s : State) :
    Only [.cause, .counters, .events, .held, .integ, .out] s (bucketAdd kind n s) := by
  unfold bucketAdd
  repeat' first
    | with_reducible exact Only.refl _ _
    | with_reducible assumption
    | (extract_lets +onlyGivenNames x; refine (have hx : Only [.cause, .counters, .events, .held, .integ, .out] s x := ?_; ?_); unfold x; clear x; rotate_left; clear_value x; rotate_right)
    | (extract_lets +onlyGivenNames x; unfold x; clear x)
    | ((with_reducible apply Only.ite) <;> intro _)
    | ((with_reducible apply Only.step (bump_only _ _)); focus rfl)
    | ((with_reducible apply Only.step (cause_only _ _)); focus rfl)
    | ((with_reducible apply Only.step (modBucket_only _ _ _)); focus rfl)
    | ((with_reducible apply Only.step (raise_only _ _ _ _)); focus rfl)

theorem correctedError_only (kind : Nat) (n : Nat) (word : Nat) (bit : Nat) (s : State) :
    Only [.cause, .counters, .events, .held, .integ, .out] s (correctedError kind n word bit s) := by
  unfold correctedError
  repeat' first
    | with_reducible exact Only.refl _ _
    | with_reducible assumption
    | (extract_lets +onlyGivenNames x; refine (have hx : Only [.cause, .counters, .events, .held, .integ, .out] s x := ?_; ?_); unfold x; clear x; rotate_left; clear_value x; rotate_right)
    | (extract_lets +onlyGivenNames x; unfold x; clear x)
    | ((with_reducible apply Only.ite) <;> intro _)
    | (with_reducible split)
    | ((with_reducible apply Only.step (bucketAdd_only _ _ _)); focus rfl)
    | ((with_reducible apply Only.step (bump_only _ _)); focus rfl)
    | ((with_reducible apply Only.step (modBucket_only _ _ _)); focus rfl)
    | ((with_reducible apply Only.step (raise_only _ _ _ _)); focus rfl)

theorem uncorrectable_only (unitKind : Nat) (n : Nat) (s : State) :
    Only [.cause, .counters, .events, .held, .out] s (uncorrectable unitKind n s) := by
  unfold uncorrectable
  repeat' first
    | with_reducible exact Only.refl _ _
    | with_reducible assumption
    | ((with_reducible apply Only.step (bump_only _ _)); focus rfl)
    | ((with_reducible apply Only.step (cause_only _ _)); focus rfl)
    | ((with_reducible apply Only.step (raise_only _ _ _ _)); focus rfl)

theorem wantOn_only (n : Nat) (s : State) :
    Only [.doms, .cause, .counters] s (wantOn n s) := by
  unfold wantOn
  repeat' first
    | with_reducible exact Only.refl _ _
    | with_reducible assumption
    | (extract_lets +onlyGivenNames x; refine (have hx : Only [.doms, .cause, .counters] s x := ?_; ?_); unfold x; clear x; rotate_left; clear_value x; rotate_right)
    | (extract_lets +onlyGivenNames x; unfold x; clear x)
    | ((with_reducible apply Only.ite) <;> intro _)
    | ((with_reducible apply Only.step (bump_only _ _)); focus rfl)
    | ((with_reducible apply Only.step (cause_only _ _)); focus rfl)
    | ((with_reducible apply Only.step (modDom_only _ _ _)); focus rfl)

theorem writeGranule_segs (h : Harbour) (g : Nat) (m : List Bool) (d : Bytes) (p : BitVec 8) : (writeGranule h g m d p).segs = h.segs := by
  unfold writeGranule
  rfl

theorem hWrite_segs (h : Harbour) (a : Nat) (d : Bytes) (p : Bool) : (hWrite h a d p).segs = h.segs := by
  unfold hWrite
  split
  · rfl
  · exact List.foldlRecOn (motive := fun x : Harbour => x.segs = h.segs) _ _ rfl (fun _ e _ _ => (writeGranule_segs _ _ _ _ _).trans e)

theorem harbWrite_only (a : Nat) (d : Bytes) (poison : Bool) (s : State) : Only [.hbr] s (harbWrite a d poison s) := by
  unfold harbWrite
  split
  · exact Only.refl _ _
  · exact Only.hbr (P := [.hbr]) (s := s) (t := s) (Only.refl _ _) (hWrite_segs s.hbr a d poison) rfl

theorem ctxWrite_only (n : Nat) (off : Nat) (d : Bytes) (s : State) :
    Only [.hbr] s (ctxWrite n off d s) := by
  unfold ctxWrite
  repeat' first
    | with_reducible exact Only.refl _ _
    | with_reducible assumption
    | ((with_reducible apply Only.step (harbWrite_only _ _ _ _)); focus rfl)

theorem setGang_only (m : Nat) (st : LinkState) (s : State) :
    Only [.strait] s (setGang m st s) := by
  unfold setGang
  repeat' first
    | with_reducible exact Only.refl _ _
    | with_reducible assumption
    | (unfold modStrait)
    | ((with_reducible apply Only.upd); rotate_left; focus (intro p hp; cases p <;> first | rfl | exact ⟨rfl, rfl, rfl⟩ | exact absurd (by decide) hp))

theorem transmit_only (k : Nat) (type : Nat) (poison : Nat) (words : List Nat) (s : State) :
    Only [.strait, .out] s (transmit k type poison words s) := by
  unfold transmit
  repeat' first
    | with_reducible exact Only.refl _ _
    | with_reducible assumption
    | (extract_lets +onlyGivenNames x; refine (have hx : Only [.strait, .out] s x := ?_; ?_); unfold x; clear x; rotate_left; clear_value x; rotate_right)
    | (extract_lets +onlyGivenNames x; unfold x; clear x)
    | ((with_reducible apply Only.ite) <;> intro _)
    | ((with_reducible apply Only.step (modLink_only _ _ _)); focus rfl)
    | ((with_reducible apply Only.step (send_only _ _)); focus rfl)

theorem sendCtlBy_only (src : Nat) (m : Nat) (kind : Nat) (ws : List Nat) (s : State) :
    Only [.strait, .out] s (sendCtlBy src m kind ws s) := by
  unfold sendCtlBy
  repeat' first
    | with_reducible exact Only.refl _ _
    | with_reducible assumption
    | (extract_lets +onlyGivenNames x; unfold x; clear x)
    | ((with_reducible apply Only.step (send_only _ _)); focus rfl)
    | ((with_reducible apply Only.step (transmit_only _ _ _ _ _)); focus rfl)
    | ((with_reducible apply Only.foldl); intro x a hx; try beta_reduce)
    | (split)

theorem sendCtl_only (m : Nat) (kind : Nat) (ws : List Nat) (s : State) :
    Only [.strait, .out] s (sendCtl m kind ws s) := by
  unfold sendCtl
  repeat' first
    | with_reducible exact Only.refl _ _
    | with_reducible assumption
    | ((with_reducible apply Only.step (sendCtlBy_only _ _ _ _ _)); focus rfl)

theorem judgeManifests_only (s : State) :
    Only [.cause, .counters, .events, .held, .strait, .out] s (judgeManifests s) := by
  unfold judgeManifests
  repeat' first
    | with_reducible exact Only.refl _ _
    | with_reducible assumption
    | (extract_lets +onlyGivenNames x; refine (have hx : Only [.cause, .counters, .events, .held, .strait, .out] s x := ?_; ?_); unfold x; clear x; rotate_left; clear_value x; rotate_right)
    | (extract_lets +onlyGivenNames x; unfold x; clear x)
    | ((with_reducible apply Only.ite) <;> intro _)
    | ((with_reducible apply Only.step (bump_only _ _)); focus rfl)
    | ((with_reducible apply Only.step (cause_only _ _)); focus rfl)
    | ((with_reducible apply Only.step (raise_only _ _ _ _)); focus rfl)
    | ((with_reducible apply Only.step (setGang_only _ _ _)); focus rfl)
    | ((with_reducible apply Only.foldl); intro x a hx; try beta_reduce)
    | (unfold modStrait)
    | (split)
    | ((with_reducible apply Only.upd); rotate_left; focus (intro p hp; cases p <;> first | rfl | exact ⟨rfl, rfl, rfl⟩ | exact absurd (by decide) hp))

theorem sendManifest_only (s : State) :
    Only [.strait, .out] s (sendManifest s) := by
  unfold sendManifest
  repeat' first
    | with_reducible exact Only.refl _ _
    | with_reducible assumption
    | ((with_reducible apply Only.ite) <;> intro _)
    | ((with_reducible apply Only.step (sendCtl_only _ _ _ _)); focus rfl)
    | ((with_reducible apply Only.foldl); intro x a hx; try beta_reduce)

theorem startExchange_only (s : State) :
    Only [.strait, .out] s (startExchange s) := by
  unfold startExchange
  repeat' first
    | with_reducible exact Only.refl _ _
    | with_reducible assumption
    | ((with_reducible apply Only.ite) <;> intro _)
    | ((with_reducible apply Only.step (sendManifest_only _)); focus rfl)
    | (unfold modStrait)
    | (split)
    | ((with_reducible apply Only.upd); rotate_left; focus (intro p hp; cases p <;> first | rfl | exact ⟨rfl, rfl, rfl⟩ | exact absurd (by decide) hp))

theorem groupListChange_only (s : State) :
    Only [.values, .strait, .out] s (groupListChange s) := by
  unfold groupListChange
  repeat' first
    | with_reducible exact Only.refl _ _
    | with_reducible assumption
    | ((with_reducible apply Only.ite) <;> intro _)
    | ((with_reducible apply Only.step (startExchange_only _)); focus rfl)
    | (unfold modDict)
    | (unfold modStrait)
    | (split)
    | ((with_reducible apply Only.upd); rotate_left; focus (intro p hp; cases p <;> first | rfl | exact ⟨rfl, rfl, rfl⟩ | exact absurd (by decide) hp))

theorem useSlot_only (bank : Nat) (cls : Nat) (s : State) :
    Only [.hbr] s (useSlot bank cls s) := by
  unfold useSlot
  repeat' first
    | with_reducible exact Only.refl _ _
    | with_reducible assumption
    | (extract_lets +onlyGivenNames x; unfold x; clear x)
    | (split)
    | ((with_reducible apply Only.upd); rotate_left; focus (intro p hp; cases p <;> first | rfl | exact ⟨rfl, rfl, rfl⟩ | exact absurd (by decide) hp))

theorem bankHit_only (bank : Nat) (s : State) :
    Only [.time, .counters, .events, .held, .integ, .out] s (bankHit bank s) := by
  unfold bankHit
  repeat' first
    | with_reducible exact Only.refl _ _
    | with_reducible assumption
    | ((with_reducible apply Only.ite) <;> intro _)
    | ((with_reducible apply Only.step (countFailure_only _ _ _)); focus rfl)
    | ((with_reducible apply Only.step (permanentEvent_only _ _ _)); focus rfl)

theorem harbourCorrect_only (word : Nat) (bit : Nat) (s : State) :
    Only [.cause, .counters, .events, .held, .hbr, .integ, .out] s (harbourCorrect word bit s) := by
  unfold harbourCorrect
  repeat' first
    | with_reducible exact Only.refl _ _
    | with_reducible assumption
    | (extract_lets +onlyGivenNames x; refine (have hx : Only [.cause, .counters, .events, .held, .hbr, .integ, .out] s x := ?_; ?_); unfold x; clear x; rotate_left; clear_value x; rotate_right)
    | (extract_lets +onlyGivenNames x; unfold x; clear x)
    | ((with_reducible apply Only.ite) <;> intro _)
    | ((with_reducible apply Only.step (correctedError_only _ _ _ _ _)); focus rfl)
    | ((with_reducible apply Only.step (useSlot_only _ _ _)); focus rfl)
    | (split)
    | ((with_reducible apply Only.upd); rotate_left; focus (intro p hp; cases p <;> first | rfl | exact ⟨rfl, rfl, rfl⟩ | exact absurd (by decide) hp))

theorem touchWord_only (word : Nat) (s : State) :
    Only [.time, .cause, .counters, .events, .held, .hbr, .integ, .out] s (touchWord word s) := by
  unfold touchWord
  repeat' first
    | with_reducible exact Only.refl _ _
    | with_reducible assumption
    | (extract_lets +onlyGivenNames x; unfold x; clear x)
    | ((with_reducible apply Only.step (bankHit_only _ _)); focus rfl)
    | ((with_reducible apply Only.step (harbourCorrect_only _ _ _)); focus rfl)
    | ((with_reducible apply Only.step (uncorrectable_only _ _ _)); focus rfl)
    | (split)

theorem touchGranule_only (g : Nat) (s : State) :
    Only [.time, .cause, .counters, .events, .held, .hbr, .integ, .out] s (touchGranule g s) := by
  unfold touchGranule
  repeat' first
    | with_reducible exact Only.refl _ _
    | with_reducible assumption
    | ((with_reducible apply Only.ite) <;> intro _)
    | ((with_reducible apply Only.step (touchWord_only _ _)); focus rfl)
    | ((with_reducible apply Only.foldl); intro x a hx; try beta_reduce)

theorem runWake_only (a : Nat) (len : Nat) (s : State) :
    Only [.doms, .cause, .counters] s (runWake a len s) := by
  unfold runWake
  repeat' first
    | with_reducible exact Only.refl _ _
    | with_reducible assumption
    | (extract_lets +onlyGivenNames x; unfold x; clear x)
    | ((with_reducible apply Only.ite) <;> intro _)
    | ((with_reducible apply Only.step (wantOn_only _ _)); focus rfl)
    | ((with_reducible apply Only.foldl); intro x a hx; try beta_reduce)

theorem runsWake_only (l : List (Nat × Nat)) (s : State) :
    Only [.doms, .cause, .counters] s (runsWake l s) := by
  unfold runsWake
  repeat' first
    | with_reducible exact Only.refl _ _
    | with_reducible assumption
    | ((with_reducible apply Only.step (runWake_only _ _ _)); focus rfl)
    | ((with_reducible apply Only.foldl); intro x a hx; try beta_reduce)

theorem touchRun_only (port : BitVec 12) (a : Nat) (len : Nat) (s : State) :
    Only [.time, .cause, .counters, .events, .held, .hbr, .integ, .out] s (touchRun port a len s) := by
  unfold touchRun
  repeat' first
    | with_reducible exact Only.refl _ _
    | with_reducible assumption
    | (extract_lets +onlyGivenNames x; unfold x; clear x)
    | ((with_reducible apply Only.ite) <;> intro _)
    | ((with_reducible apply Only.step (touchGranule_only _ _)); focus rfl)
    | ((with_reducible apply Only.step (useSlot_only _ _ _)); focus rfl)
    | ((with_reducible apply Only.foldl); intro x a hx; try beta_reduce)

theorem fetchRun_only (port : BitVec 12) (a : Nat) (len : Nat) (s : State) :
    Only [.time, .cause, .counters, .events, .held, .hbr, .integ, .out] s (fetchRun port a len s).2 := by
  unfold fetchRun
  repeat' first
    | with_reducible exact Only.refl _ _
    | with_reducible assumption
    | (extract_lets +onlyGivenNames x; unfold x; clear x)
    | ((with_reducible apply Only.step (touchRun_only _ _ _ _)); focus rfl)

theorem fetchRuns_only (port : BitVec 12) (runs : List (Nat × Nat)) (s : State) :
    Only [.time, .cause, .counters, .events, .held, .hbr, .integ, .out] s (fetchRuns port runs s).2 := by
  unfold fetchRuns
  have h : ∀ (acc : (Bytes × List Bool) × State), Only [.time, .cause, .counters, .events, .held, .hbr, .integ, .out] s acc.2 → Only [.time, .cause, .counters, .events, .held, .hbr, .integ, .out] s (runs.foldl (fun acc r =>
      let ((b, _), t) := fetchRun port r.1 r.2 acc.2
      let bad := fun (a : Nat) => domState acc.2 (domSeg (addrSeg a)) == .failed || wordBad acc.2.hbr (a / 8)
      ((acc.1.1 ++ b, acc.1.2 ++ (List.range r.2).map fun i => bad (r.1 + i)), t)) acc).2 := by
    induction runs with
    | nil => exact fun _ h => h
    | cons r l ih => exact fun acc h => ih _ (Only.step (fetchRun_only _ _ _ _) rfl h)
  exact h _ (Only.refl _ _)

theorem storeRun_only (port : BitVec 12) (a : Nat) (d : Bytes) (poison : Bool) (s : State) :
    Only [.time, .cause, .counters, .events, .held, .hbr, .integ, .out] s (storeRun port a d poison s) := by
  unfold storeRun
  repeat' first
    | with_reducible exact Only.refl _ _
    | with_reducible assumption
    | (extract_lets +onlyGivenNames x; refine (have hx : Only [.time, .cause, .counters, .events, .held, .hbr, .integ, .out] s x := ?_; ?_); unfold x; clear x; rotate_left; clear_value x; rotate_right)
    | (extract_lets +onlyGivenNames x; unfold x; clear x)
    | ((with_reducible apply Only.ite) <;> intro _)
    | ((with_reducible apply Only.step (harbWrite_only _ _ _ _)); focus rfl)
    | ((with_reducible apply Only.step (touchGranule_only _ _)); focus rfl)
    | ((with_reducible apply Only.step (useSlot_only _ _ _)); focus rfl)
    | ((with_reducible apply Only.foldl); intro x a hx; try beta_reduce)

theorem storeMarked_only (port : BitVec 12) (a : Nat) (d : Bytes) (bad : List Bool) (s : State) :
    Only [.time, .cause, .counters, .events, .held, .hbr, .integ, .out] s (storeMarked port a d bad s) := by
  unfold storeMarked
  repeat' first
    | with_reducible exact Only.refl _ _
    | with_reducible assumption
    | (extract_lets +onlyGivenNames x; refine (have hx : Only [.time, .cause, .counters, .events, .held, .hbr, .integ, .out] s x := ?_; ?_); unfold x; clear x; rotate_left; clear_value x; rotate_right)
    | (extract_lets +onlyGivenNames x; unfold x; clear x)
    | ((with_reducible apply Only.ite) <;> intro _)
    | ((with_reducible apply Only.step (touchGranule_only _ _)); focus rfl)
    | ((with_reducible apply Only.step (useSlot_only _ _ _)); focus rfl)
    | ((with_reducible apply Only.foldl); intro x a hx; try beta_reduce)
    | (split)
    | with_reducible refine Only.hbr ?_ (writeGranule_segs _ _ _ _ _) rfl

theorem noteCleared_only (len : Nat) (s : State) :
    Only [.counters, .hbr] s (noteCleared len s) := by
  unfold noteCleared
  repeat' first
    | with_reducible exact Only.refl _ _
    | with_reducible assumption
    | (extract_lets +onlyGivenNames x; unfold x; clear x)
    | ((with_reducible apply Only.step (bumpBy_only _ _ _)); focus rfl)
    | ((with_reducible apply Only.upd); rotate_left; focus (intro p hp; cases p <;> first | rfl | exact ⟨rfl, rfl, rfl⟩ | exact absurd (by decide) hp))

theorem serveRead_only (port : BitVec 12) (a : Nat) (n : Nat) (s : State) :
    Only [.time, .cause, .counters, .events, .held, .hbr, .integ, .out] s (serveRead port a n s) := by
  unfold serveRead
  repeat' first
    | with_reducible exact Only.refl _ _
    | with_reducible assumption
    | (extract_lets +onlyGivenNames x; unfold x; clear x)
    | ((with_reducible apply Only.ite) <;> intro _)
    | ((with_reducible apply Only.step (send_only _ _)); focus rfl)
    | ((with_reducible apply Only.step (touchRun_only _ _ _ _)); focus rfl)

theorem serveWrite_only (port : BitVec 12) (a : Nat) (d : Bytes) (poison : BitVec 8) (s : State) : Only [.hbr] s (serveWrite port a d poison s) := by
  unfold serveWrite
  split
  · exact Only.refl _ _
  · exact Only.hbr (Only.step (useSlot_only _ _ _) rfl (Only.refl _ _)) (writeGranule_segs _ _ _ _ _) rfl

theorem servePartial_only (port : BitVec 12) (a : Nat) (d : Bytes) (poison : BitVec 8) (s : State) : Only [.time, .cause, .counters, .events, .held, .hbr, .integ, .out] s (servePartial port a d poison s) := by
  unfold servePartial
  split
  · exact Only.refl _ _
  · exact Only.hbr (Only.step (touchGranule_only _ _) rfl (Only.step (useSlot_only _ _ _) rfl (Only.refl _ _))) (writeGranule_segs _ _ _ _ _) rfl

theorem servePort_only (i : Initiator) (port : BitVec 12) (a : Nat) (len : Nat) (data : Option Bytes) (s : State) :
    Only [.time, .cause, .counters, .events, .held, .hbr, .integ, .out] s (servePort i port a len data s) := by
  unfold servePort
  repeat' first
    | with_reducible exact Only.refl _ _
    | with_reducible assumption
    | (extract_lets +onlyGivenNames x; unfold x; clear x)
    | ((with_reducible apply Only.step (send_only _ _)); focus rfl)
    | ((with_reducible apply Only.step (storeRun_only _ _ _ _ _)); focus rfl)
    | ((with_reducible apply Only.step (touchRun_only _ _ _ _)); focus rfl)
    | (split)

theorem serve_only (x : Access) (s : State) :
    Only [.time, .cause, .counters, .events, .held, .hbr, .integ, .out] s (serve x s) := by
  unfold serve
  repeat' first
    | with_reducible exact Only.refl _ _
    | with_reducible assumption
    | ((with_reducible apply Only.step (servePartial_only _ _ _ _ _)); focus rfl)
    | ((with_reducible apply Only.step (servePort_only _ _ _ _ _ _)); focus rfl)
    | ((with_reducible apply Only.step (serveRead_only _ _ _ _)); focus rfl)
    | ((with_reducible apply Only.step (serveWrite_only _ _ _ _ _)); focus rfl)
    | (split)

theorem access_only (x : Access) (s : State) :
    Only [.doms, .time, .cause, .counters, .events, .held, .hbr, .integ, .out] s (access x s) := by
  unfold access
  repeat' first
    | with_reducible exact Only.refl _ _
    | with_reducible assumption
    | (extract_lets +onlyGivenNames x; unfold x; clear x)
    | ((with_reducible apply Only.ite) <;> intro _)
    | ((with_reducible apply Only.step (runWake_only _ _ _)); focus rfl)
    | ((with_reducible apply Only.step (serve_only _ _)); focus rfl)
    | (split)
    | ((with_reducible apply Only.upd); rotate_left; focus (intro p hp; cases p <;> first | rfl | exact ⟨rfl, rfl, rfl⟩ | exact absurd (by decide) hp))

theorem serveNext_only (n : Nat) (s : State) : Only [.time, .cause, .counters, .events, .held, .hbr, .integ, .out] s (serveNext n s) := by
  induction n generalizing s with
  | zero => exact Only.refl _ _
  | succ n ih =>
    unfold serveNext
    split
    · exact Only.refl _ _
    · refine Only.step (ih _) rfl (Only.step (serve_only _ _) rfl ?_)
      with_reducible apply Only.upd
      · exact Only.refl _ _
      · intro p hp; cases p <;> first | rfl | exact ⟨rfl, rfl, rfl⟩ | exact absurd (by decide) hp

theorem serveWaiting_only (s : State) :
    Only [.time, .cause, .counters, .events, .held, .hbr, .integ, .out] s (serveWaiting s) := by
  unfold serveWaiting
  repeat' first
    | with_reducible exact Only.refl _ _
    | with_reducible assumption
    | ((with_reducible apply Only.step (serveNext_only _ _)); focus rfl)

theorem pairInterrupt_only (q : Nat) (s : State) :
    Only [.que, .held, .out] s (pairInterrupt q s) := by
  unfold pairInterrupt
  repeat' first
    | with_reducible exact Only.refl _ _
    | with_reducible assumption
    | (extract_lets +onlyGivenNames x; refine (have hx : Only [.que, .held, .out] s x := ?_; ?_); unfold x; clear x; rotate_left; clear_value x; rotate_right)
    | (extract_lets +onlyGivenNames x; unfold x; clear x)
    | ((with_reducible apply Only.step (modPair_only _ _ _)); focus rfl)
    | ((with_reducible apply Only.step (sendPort_only _ _ _)); focus rfl)

theorem countCompletion_only (q : Nat) (s : State) :
    Only [.que, .held, .out] s (countCompletion q s) := by
  unfold countCompletion
  repeat' first
    | with_reducible exact Only.refl _ _
    | with_reducible assumption
    | (extract_lets +onlyGivenNames x; unfold x; clear x)
    | ((with_reducible apply Only.ite) <;> intro _)
    | ((with_reducible apply Only.step (modPair_only _ _ _)); focus rfl)
    | ((with_reducible apply Only.step (pairInterrupt_only _ _)); focus rfl)

theorem coreWrite_only (a : Nat) (d : Bytes) (s : State) :
    Only [.doms, .time, .cause, .counters, .events, .held, .hbr, .integ, .out] s (coreWrite a d s) := by
  unfold coreWrite
  repeat' first
    | with_reducible exact Only.refl _ _
    | with_reducible assumption
    | ((with_reducible apply Only.step (access_only _ _)); focus rfl)

theorem postEntry_only (q : Nat) (key : Nat) (r : Reply) (orig : Nat) (noIntr : Bool) (readAt : BitVec 64) (s : State) :
    Only [.doms, .time, .cause, .counters, .events, .monitors, .que, .held, .hbr, .integ, .out] s (postEntry q key r orig noIntr readAt s) := by
  unfold postEntry
  repeat' first
    | with_reducible exact Only.refl _ _
    | with_reducible assumption
    | (extract_lets +onlyGivenNames x; refine (have hx : Only [.doms, .time, .cause, .counters, .events, .monitors, .que, .held, .hbr, .integ, .out] s x := ?_; ?_); unfold x; clear x; rotate_left; clear_value x; rotate_right)
    | (extract_lets +onlyGivenNames x; unfold x; clear x)
    | ((with_reducible apply Only.ite) <;> intro _)
    | ((with_reducible apply Only.step (coreWrite_only _ _ _)); focus rfl)
    | ((with_reducible apply Only.step (countCompletion_only _ _)); focus rfl)
    | ((with_reducible apply Only.step (modPair_only _ _ _)); focus rfl)
    | ((with_reducible apply Only.step (sample_only _ _ _ _)); focus rfl)
    | ((with_reducible apply Only.step (sendPort_only _ _ _)); focus rfl)

theorem logEntry_only (q : Nat) (key : Nat) (r : Reply) (s : State) :
    Only [.doms, .time, .cause, .counters, .events, .held, .hbr, .integ, .out] s (logEntry q key r s) := by
  unfold logEntry
  repeat' first
    | with_reducible exact Only.refl _ _
    | with_reducible assumption
    | (extract_lets +onlyGivenNames x; unfold x; clear x)
    | ((with_reducible apply Only.ite) <;> intro _)
    | ((with_reducible apply Only.step (coreWrite_only _ _ _)); focus rfl)
    | ((with_reducible apply Only.step (sendPort_only _ _ _)); focus rfl)

theorem logAndPost_only (q : Nat) (key : Nat) (r : Reply) (noIntr : Bool) (readAt : BitVec 64) (s : State) :
    Only [.doms, .time, .cause, .counters, .events, .monitors, .que, .held, .hbr, .integ, .out] s (logAndPost q key r noIntr readAt s) := by
  unfold logAndPost
  repeat' first
    | with_reducible exact Only.refl _ _
    | with_reducible assumption
    | ((with_reducible apply Only.step (logEntry_only _ _ _ _)); focus rfl)
    | ((with_reducible apply Only.step (postEntry_only _ _ _ _ _ _ _)); focus rfl)

theorem freeSlot_only (a : Nat) (q : Nat) (s : State) :
    Only [.que] s (freeSlot a q s) := by
  unfold freeSlot
  repeat' first
    | with_reducible exact Only.refl _ _
    | with_reducible assumption
    | (extract_lets +onlyGivenNames x; refine (have hx : Only [.que] s x := ?_; ?_); unfold x; clear x; rotate_left; clear_value x; rotate_right)
    | (extract_lets +onlyGivenNames x; unfold x; clear x)
    | ((with_reducible apply Only.step (modPair_only _ _ _)); focus rfl)
    | (split)
    | ((with_reducible apply Only.upd); rotate_left; focus (intro p hp; cases p <;> first | rfl | exact ⟨rfl, rfl, rfl⟩ | exact absurd (by decide) hp))

theorem finish_only (a : Nat) (r : Reply) (s : State) :
    Only [.doms, .time, .cause, .counters, .events, .monitors, .que, .held, .hbr, .integ, .out] s (finish a r s) := by
  unfold finish
  repeat' first
    | with_reducible exact Only.refl _ _
    | with_reducible assumption
    | ((with_reducible apply Only.ite) <;> intro _)
    | ((with_reducible apply Only.step (freeSlot_only _ _ _)); focus rfl)
    | ((with_reducible apply Only.step (logAndPost_only _ _ _ _ _ _)); focus rfl)
    | (split)
    | ((with_reducible apply Only.upd); rotate_left; focus (intro p hp; cases p <;> first | rfl | exact ⟨rfl, rfl, rfl⟩ | exact absurd (by decide) hp))

theorem finishSt_only (a : Nat) (status : Nat) (s : State) :
    Only [.doms, .time, .cause, .counters, .events, .monitors, .que, .held, .hbr, .integ, .out] s (finishSt a status s) := by
  unfold finishSt
  repeat' first
    | with_reducible exact Only.refl _ _
    | with_reducible assumption
    | ((with_reducible apply Only.step (finish_only _ _ _)); focus rfl)

theorem finishAt_only (a : Nat) (status : Nat) (detail : Nat) (s : State) :
    Only [.doms, .time, .cause, .counters, .events, .monitors, .que, .held, .hbr, .integ, .out] s (finishAt a status detail s) := by
  unfold finishAt
  repeat' first
    | with_reducible exact Only.refl _ _
    | with_reducible assumption
    | ((with_reducible apply Only.step (finish_only _ _ _)); focus rfl)

theorem answer_only (r : Requester) (rep : Reply) (s : State) :
    Only [.doms, .time, .cause, .counters, .events, .monitors, .que, .held, .hbr, .integ, .out] s (answer r rep s) := by
  unfold answer
  repeat' first
    | with_reducible exact Only.refl _ _
    | with_reducible assumption
    | ((with_reducible apply Only.step (finish_only _ _ _)); focus rfl)
    | ((with_reducible apply Only.step (send_only _ _)); focus rfl)
    | (split)

theorem setStage_only (a : Nat) (st : CmdStage) (s : State) :
    Only [.que] s (setStage a st s) := by
  unfold setStage
  repeat' first
    | with_reducible exact Only.refl _ _
    | with_reducible assumption
    | (split)
    | ((with_reducible apply Only.upd); rotate_left; focus (intro p hp; cases p <;> first | rfl | exact ⟨rfl, rfl, rfl⟩ | exact absurd (by decide) hp))

theorem pairError_only (q : Nat) (name : EventName) (s : State) :
    Only [.counters, .events, .que, .held, .out] s (pairError q name s) := by
  unfold pairError
  repeat' first
    | with_reducible exact Only.refl _ _
    | with_reducible assumption
    | ((with_reducible apply Only.step (modPair_only _ _ _)); focus rfl)
    | ((with_reducible apply Only.step (raise_only _ _ _ _)); focus rfl)

theorem admitEntry_only (a : Nat) (q : Nat) (e : Bytes) (s : State) :
    Only [.que] s (admitEntry a q e s) := by
  unfold admitEntry
  repeat' first
    | with_reducible exact Only.refl _ _
    | with_reducible assumption
    | (extract_lets +onlyGivenNames x; refine (have hx : Only [.que] s x := ?_; ?_); unfold x; clear x; rotate_left; clear_value x; rotate_right)
    | (extract_lets +onlyGivenNames x; unfold x; clear x)
    | ((with_reducible apply Only.ite) <;> intro _)
    | ((with_reducible apply Only.step (modPair_only _ _ _)); focus rfl)
    | (split)
    | ((with_reducible apply Only.upd); rotate_left; focus (intro p hp; cases p <;> first | rfl | exact ⟨rfl, rfl, rfl⟩ | exact absurd (by decide) hp))

theorem takeEntry_only (a : Nat) (q : Nat) (e : Bytes) (s : State) :
    Only [.doms, .time, .cause, .counters, .events, .monitors, .que, .held, .hbr, .integ, .out] s (takeEntry a q e s) := by
  unfold takeEntry
  repeat' first
    | with_reducible exact Only.refl _ _
    | with_reducible assumption
    | (extract_lets +onlyGivenNames x; refine (have hx : Only [.doms, .time, .cause, .counters, .events, .monitors, .que, .held, .hbr, .integ, .out] s x := ?_; ?_); unfold x; clear x; rotate_left; clear_value x; rotate_right)
    | (extract_lets +onlyGivenNames x; unfold x; clear x)
    | ((with_reducible apply Only.ite) <;> intro _)
    | ((with_reducible apply Only.step (admitEntry_only _ _ _ _)); focus rfl)
    | ((with_reducible apply Only.step (bump_only _ _)); focus rfl)
    | ((with_reducible apply Only.step (logAndPost_only _ _ _ _ _ _)); focus rfl)
    | ((with_reducible apply Only.step (modPair_only _ _ _)); focus rfl)
    | ((with_reducible apply Only.step (postEntry_only _ _ _ _ _ _ _)); focus rfl)
    | (split)

theorem ringRead_only (harbour : Bool) (a : Nat) (len : Nat) (port : HostRead) (s : State) :
    Only [.time, .cause, .counters, .events, .held, .hbr, .integ, .out] s (ringRead harbour a len port s).2 := by
  unfold ringRead
  repeat' first
    | with_reducible exact Only.refl _ _
    | with_reducible assumption
    | ((with_reducible apply Only.ite2) <;> intro _)
    | ((with_reducible apply Only.step (fetchRun_only _ _ _ _)); focus rfl)

theorem execSubmissionRead_only (pair : Fin 16384) (entry : HostRead) (s : State) :
    OnlyR [.doms, .time, .cause, .counters, .events, .monitors, .que, .held, .hbr, .integ, .out] s (execSubmissionRead pair entry s) := by
  unfold execSubmissionRead
  repeat' first
    | with_reducible exact Only.refl _ _
    | with_reducible assumption
    | (extract_lets +onlyGivenNames x; refine (have hx : Only [.doms, .time, .cause, .counters, .events, .monitors, .que, .held, .hbr, .integ, .out] s x := ?_; ?_); unfold x; clear x; rotate_left; clear_value x; rotate_right)
    | (extract_lets +onlyGivenNames x; unfold x; clear x)
    | ((with_reducible apply OnlyR.ite) <;> intro _)
    | with_reducible apply OnlyR.next
    | ((with_reducible apply Only.step (bump_only _ _)); focus rfl)
    | ((with_reducible apply Only.step (modPair_only _ _ _)); focus rfl)
    | ((with_reducible apply Only.step (pairError_only _ _ _)); focus rfl)
    | ((with_reducible apply Only.pair (by assumption) (ringRead_only _ _ _ _ _)); focus rfl)
    | ((with_reducible apply Only.step (runWake_only _ _ _)); focus rfl)
    | ((with_reducible apply Only.step (takeEntry_only _ _ _ _)); focus rfl)
    | (split)
    | ((with_reducible apply Only.upd); rotate_left; focus (intro p hp; cases p <;> first | rfl | exact ⟨rfl, rfl, rfl⟩ | exact absurd (by decide) hp))

theorem execDuplicateReplay_only (pair : Fin 16384) (key : BitVec 64) (log : HostRead) (s : State) :
    OnlyR [.doms, .time, .cause, .counters, .events, .monitors, .que, .held, .hbr, .integ, .out] s (execDuplicateReplay pair key log s) := by
  unfold execDuplicateReplay
  repeat' first
    | with_reducible exact Only.refl _ _
    | with_reducible assumption
    | (extract_lets +onlyGivenNames x; refine (have hx : Only [.doms, .time, .cause, .counters, .events, .monitors, .que, .held, .hbr, .integ, .out] s x := ?_; ?_); unfold x; clear x; rotate_left; clear_value x; rotate_right)
    | (extract_lets +onlyGivenNames x; unfold x; clear x)
    | ((with_reducible apply OnlyR.ite) <;> intro _)
    | with_reducible apply OnlyR.next
    | ((with_reducible apply Only.step (bump_only _ _)); focus rfl)
    | ((with_reducible apply Only.step (modPair_only _ _ _)); focus rfl)
    | ((with_reducible apply Only.step (postEntry_only _ _ _ _ _ _ _)); focus rfl)
    | ((with_reducible apply Only.pair (by assumption) (ringRead_only _ _ _ _ _)); focus rfl)
    | ((with_reducible apply Only.step (runWake_only _ _ _)); focus rfl)
    | (split)

theorem doorbellDrop_only (s : State) :
    Only [.counters] s (doorbellDrop s) := by
  unfold doorbellDrop
  repeat' first
    | with_reducible exact Only.refl _ _
    | with_reducible assumption
    | ((with_reducible apply Only.step (bump_only _ _)); focus rfl)

theorem doorbellBad_only (q : Nat) (s : State) :
    Only [.counters, .events, .que, .held, .out] s (doorbellBad q s) := by
  unfold doorbellBad
  repeat' first
    | with_reducible exact Only.refl _ _
    | with_reducible assumption
    | ((with_reducible apply Only.step (bump_only _ _)); focus rfl)
    | ((with_reducible apply Only.step (pairError_only _ _ _)); focus rfl)

theorem execSqTailDoorbell_only (port : Port) (pair : Fin 16384) (value : BitVec 32) (s : State) :
    OnlyR [.doms, .cause, .counters, .events, .que, .held, .out] s (execSqTailDoorbell port pair value s) := by
  unfold execSqTailDoorbell
  repeat' first
    | with_reducible exact Only.refl _ _
    | with_reducible assumption
    | (extract_lets +onlyGivenNames x; refine (have hx : Only [.doms, .cause, .counters, .events, .que, .held, .out] s x := ?_; ?_); unfold x; clear x; rotate_left; clear_value x; rotate_right)
    | (extract_lets +onlyGivenNames x; unfold x; clear x)
    | ((with_reducible apply OnlyR.ite) <;> intro _)
    | with_reducible apply OnlyR.next
    | ((with_reducible apply Only.step (cause_only _ _)); focus rfl)
    | ((with_reducible apply Only.step (doorbellBad_only _ _)); focus rfl)
    | ((with_reducible apply Only.step (doorbellDrop_only _)); focus rfl)
    | ((with_reducible apply Only.step (modPair_only _ _ _)); focus rfl)
    | ((with_reducible apply Only.step (wantOn_only _ _)); focus rfl)

theorem execCqHeadDoorbell_only (port : Port) (pair : Fin 16384) (value : BitVec 32) (s : State) :
    OnlyR [.doms, .cause, .counters, .events, .que, .held, .out] s (execCqHeadDoorbell port pair value s) := by
  unfold execCqHeadDoorbell
  repeat' first
    | with_reducible exact Only.refl _ _
    | with_reducible assumption
    | (extract_lets +onlyGivenNames x; refine (have hx : Only [.doms, .cause, .counters, .events, .que, .held, .out] s x := ?_; ?_); unfold x; clear x; rotate_left; clear_value x; rotate_right)
    | (extract_lets +onlyGivenNames x; unfold x; clear x)
    | ((with_reducible apply OnlyR.ite) <;> intro _)
    | with_reducible apply OnlyR.next
    | ((with_reducible apply Only.step (cause_only _ _)); focus rfl)
    | ((with_reducible apply Only.step (doorbellBad_only _ _)); focus rfl)
    | ((with_reducible apply Only.step (doorbellDrop_only _)); focus rfl)
    | ((with_reducible apply Only.step (modPair_only _ _ _)); focus rfl)
    | ((with_reducible apply Only.step (wantOn_only _ _)); focus rfl)

theorem execInterruptTimer_only (pair : Fin 16384) (s : State) :
    OnlyR [.que, .held, .out] s (execInterruptTimer pair s) := by
  unfold execInterruptTimer
  repeat' first
    | with_reducible exact Only.refl _ _
    | with_reducible assumption
    | (extract_lets +onlyGivenNames x; unfold x; clear x)
    | ((with_reducible apply OnlyR.ite) <;> intro _)
    | with_reducible apply OnlyR.next
    | ((with_reducible apply Only.step (pairInterrupt_only _ _)); focus rfl)
    | (split)

theorem enableRecord_only (r : Requester) (q : Nat) (b : Bytes) (s : State) :
    Only [.que] s (enableRecord r q b s).2 := by
  unfold enableRecord
  repeat' first
    | with_reducible exact Only.refl _ _
    | with_reducible assumption
    | ((with_reducible apply Only.ite2) <;> intro _)
    | ((with_reducible apply Only.step (modPair_only _ _ _)); focus rfl)
    | (split)

theorem unpark_only (q : Nat) (s : State) :
    Only [.doms, .time, .cause, .counters, .events, .monitors, .que, .held, .hbr, .integ, .out] s (unpark q s) := by
  unfold unpark
  repeat' first
    | with_reducible exact Only.refl _ _
    | with_reducible assumption
    | (extract_lets +onlyGivenNames x; refine (have hx : Only [.doms, .time, .cause, .counters, .events, .monitors, .que, .held, .hbr, .integ, .out] s x := ?_; ?_); unfold x; clear x; rotate_left; clear_value x; rotate_right)
    | (extract_lets +onlyGivenNames x; unfold x; clear x)
    | ((with_reducible apply Only.step (finish_only _ _ _)); focus rfl)
    | ((with_reducible apply Only.foldl); intro x a hx; try beta_reduce)
    | ((with_reducible apply Only.upd); rotate_left; focus (intro p hp; cases p <;> first | rfl | exact ⟨rfl, rfl, rfl⟩ | exact absurd (by decide) hp))

theorem disablePair_only (q : Nat) (s : State) :
    Only [.doms, .time, .cause, .counters, .events, .monitors, .que, .held, .hbr, .integ, .out] s (disablePair q s) := by
  unfold disablePair
  repeat' first
    | with_reducible exact Only.refl _ _
    | with_reducible assumption
    | ((with_reducible apply Only.step (modPair_only _ _ _)); focus rfl)
    | ((with_reducible apply Only.step (unpark_only _ _)); focus rfl)
    | (split)

theorem disableRecord_only (q : Nat) (b : Bytes) (s : State) :
    Only [.doms, .time, .cause, .counters, .events, .monitors, .que, .held, .hbr, .integ, .out] s (disableRecord q b s).2 := by
  unfold disableRecord
  repeat' first
    | with_reducible exact Only.refl _ _
    | with_reducible assumption
    | ((with_reducible apply Only.ite2) <;> intro _)
    | ((with_reducible apply Only.step (disablePair_only _ _)); focus rfl)

theorem privDrop_only (s : State) :
    Only [.regs] s (privDrop s) := by
  unfold privDrop
  repeat' first
    | with_reducible exact Only.refl _ _
    | with_reducible assumption
    | ((with_reducible apply Only.ite) <;> intro _)
    | (split)
    | ((with_reducible apply Only.upd); rotate_left; focus (intro p hp; cases p <;> first | rfl | exact ⟨rfl, rfl, rfl⟩ | exact absurd (by decide) hp))

theorem crossing_only {P : List Part} {s₀ : State} (hs : subParts [.regs, .cause] P = true) (f : State → State) (s : State)
    (hf : ∀ x, Only P s₀ x → Only P s₀ (f x)) (h : Only P s₀ s) : Only P s₀ (crossing f s) := by
  unfold crossing
  split
  · exact Only.step (Q := [.regs, .cause]) (t := s) ⟨⟨rfl, rfl, rfl, rfl⟩, fun p hp => by cases p <;> first | rfl | exact ⟨rfl, rfl, rfl⟩ | exact absurd (by decide) hp⟩ hs h
  · dsimp only
    split
    · exact Only.step (Q := [.regs, .cause]) (t := f s) ⟨⟨rfl, rfl, rfl, rfl⟩, fun p hp => by cases p <;> first | rfl | exact ⟨rfl, rfl, rfl⟩ | exact absurd (by decide) hp⟩ hs (hf _ h)
    · exact hf _ h

theorem admCtrlWrite_only (i : Initiator) (v : BitVec 32) (s : State) :
    Only [.doms, .time, .regs, .cause, .counters, .events, .monitors, .que, .held, .hbr, .integ, .out] s (admCtrlWrite i v s) := by
  unfold admCtrlWrite
  repeat' first
    | with_reducible exact Only.refl _ _
    | with_reducible assumption
    | (extract_lets +onlyGivenNames x; refine (have hx : Only [.doms, .time, .regs, .cause, .counters, .events, .monitors, .que, .held, .hbr, .integ, .out] s x := ?_; ?_); unfold x; clear x; rotate_left; clear_value x; rotate_right)
    | (extract_lets +onlyGivenNames x; unfold x; clear x)
    | ((with_reducible apply Only.ite) <;> intro _)
    | ((with_reducible apply Only.step (disablePair_only _ _)); focus rfl)
    | ((with_reducible apply Only.step (modPair_only _ _ _)); focus rfl)
    | ((with_reducible apply Only.step (privDrop_only _)); focus rfl)
    | (split)
    | ((with_reducible apply Only.upd); rotate_left; focus (intro p hp; cases p <;> first | rfl | exact ⟨rfl, rfl, rfl⟩ | exact absurd (by decide) hp))

theorem execQueuePairDisabled_only (pair : Fin 16384) (s : State) :
    OnlyR [.que] s (execQueuePairDisabled pair s) := by
  unfold execQueuePairDisabled
  repeat' first
    | with_reducible exact Only.refl _ _
    | with_reducible assumption
    | (extract_lets +onlyGivenNames x; unfold x; clear x)
    | ((with_reducible apply OnlyR.ite) <;> intro _)
    | with_reducible apply OnlyR.next
    | ((with_reducible apply Only.step (modPair_only _ _ _)); focus rfl)

theorem setBankState_only (n : Nat) (st : BankState) (s : State) :
    Only [.banks] s (setBankState n st s) := by
  unfold setBankState
  repeat' first
    | with_reducible exact Only.refl _ _
    | with_reducible assumption
    | ((with_reducible apply Only.step (modBank_only _ _ _)); focus rfl)

theorem markWorn_only (n : Nat) (s : State) :
    Only [.counters, .events, .held, .banks, .scheds, .out] s (markWorn n s) := by
  unfold markWorn
  repeat' first
    | with_reducible exact Only.refl _ _
    | with_reducible assumption
    | ((with_reducible apply Only.step (modSched_only _ _ _)); focus rfl)
    | ((with_reducible apply Only.step (raise_only _ _ _ _)); focus rfl)
    | ((with_reducible apply Only.step (setBankState_only _ _ _)); focus rfl)

theorem markRetired_only (n : Nat) (s : State) :
    Only [.counters, .events, .held, .banks, .out] s (markRetired n s) := by
  unfold markRetired
  repeat' first
    | with_reducible exact Only.refl _ _
    | with_reducible assumption
    | ((with_reducible apply Only.step (raise_only _ _ _ _)); focus rfl)
    | ((with_reducible apply Only.step (setBankState_only _ _ _)); focus rfl)

theorem noteFloor_only (n : Nat) (s : State) :
    Only [.counters, .events, .held, .scheds, .out] s (noteFloor n s) := by
  unfold noteFloor
  repeat' first
    | with_reducible exact Only.refl _ _
    | with_reducible assumption
    | ((with_reducible apply Only.ite) <;> intro _)
    | ((with_reducible apply Only.step (modSched_only _ _ _)); focus rfl)
    | ((with_reducible apply Only.step (raise_only _ _ _ _)); focus rfl)
    | (split)

theorem setMargin_only (n : Nat) (m : Nat) (s : State) :
    Only [.counters, .events, .monitors, .held, .banks, .scheds, .out] s (setMargin n m s) := by
  unfold setMargin
  repeat' first
    | with_reducible exact Only.refl _ _
    | with_reducible assumption
    | (extract_lets +onlyGivenNames x; refine (have hx : Only [.counters, .events, .monitors, .held, .banks, .scheds, .out] s x := ?_; ?_); unfold x; clear x; rotate_left; clear_value x; rotate_right)
    | ((with_reducible apply Only.step (modBank_only _ _ _)); focus rfl)
    | ((with_reducible apply Only.step (noteFloor_only _ _)); focus rfl)
    | ((with_reducible apply Only.step (sample_only _ _ _ _)); focus rfl)

theorem noteLogRead_only (arg : Nat) (ep : Option Nat) (s : State) : Only [.values, .events] s (noteLogRead arg ep s) :=
  ⟨⟨rfl, rfl, rfl, rfl⟩, fun p hp => by cases p <;> first | rfl | exact ⟨rfl, rfl, rfl⟩ | exact absurd (by decide) hp⟩

theorem storeAppend_only (object key : Nat) (value : Bytes) (s : State) : Only [.values] s (storeAppend object key value s) := by
  have hd : ∀ d : Dict, (compactStore d).counters = d.counters ∧ (compactStore d).events = d.events ∧
      (compactStore d).nextSeq = d.nextSeq ∧ (compactStore d).faultLog = d.faultLog ∧ (compactStore d).monitors = d.monitors ∧
      (compactStore d).monClears = d.monClears ∧ (compactStore d).monLast = d.monLast := by
    intro d
    unfold compactStore
    dsimp only
    split <;> split <;> exact ⟨rfl, rfl, rfl, rfl, rfl, rfl, rfl⟩
  refine ⟨⟨rfl, rfl, rfl, rfl⟩, fun p hp => ?_⟩
  unfold storeAppend modDict
  cases p
  case values => exact absurd (by decide) hp
  case counters => exact (hd _).1
  case events => exact ⟨(hd _).2.1, (hd _).2.2.1, (hd _).2.2.2.1⟩
  case monitors => exact ⟨(hd _).2.2.2.2.1, (hd _).2.2.2.2.2.1, (hd _).2.2.2.2.2.2⟩
  all_goals first | rfl | exact ⟨rfl, rfl, rfl⟩

theorem storePoweredTime_only (s : State) :
    Only [.time, .values, .scheds] s (storePoweredTime s) := by
  unfold storePoweredTime
  repeat' first
    | with_reducible exact Only.refl _ _
    | with_reducible assumption
    | (extract_lets +onlyGivenNames x; refine (have hx : Only [.time, .values, .scheds] s x := ?_; ?_); unfold x; clear x; rotate_left; clear_value x; rotate_right)
    | (extract_lets +onlyGivenNames x; unfold x; clear x)
    | ((with_reducible apply Only.step (storeAppend_only _ _ _ _)); focus rfl)
    | ((with_reducible apply Only.step (storeTotal_only _)); focus rfl)
    | ((with_reducible apply Only.upd); rotate_left; focus (intro p hp; cases p <;> first | rfl | exact ⟨rfl, rfl, rfl⟩ | exact absurd (by decide) hp))

theorem dirtyPass_only (s : State) :
    Only [.regs] s (dirtyPass s) := by
  unfold dirtyPass
  repeat' first
    | with_reducible exact Only.refl _ _
    | with_reducible assumption
    | ((with_reducible apply Only.upd); rotate_left; focus (intro p hp; cases p <;> first | rfl | exact ⟨rfl, rfl, rfl⟩ | exact absurd (by decide) hp))

theorem mirrorRegs_only (s : State) :
    Only [.regs] s (mirrorRegs s) := by
  unfold mirrorRegs
  repeat' first
    | with_reducible exact Only.refl _ _
    | with_reducible assumption
    | (extract_lets +onlyGivenNames x; unfold x; clear x)
    | ((with_reducible apply Only.upd); rotate_left; focus (intro p hp; cases p <;> first | rfl | exact ⟨rfl, rfl, rfl⟩ | exact absurd (by decide) hp))

theorem syncRegisters_only (s : State) :
    Only [.regs] s (syncRegisters s) := by
  unfold syncRegisters
  repeat' first
    | with_reducible exact Only.refl _ _
    | with_reducible assumption
    | (extract_lets +onlyGivenNames x; refine (have hx : Only [.regs] s x := ?_; ?_); unfold x; clear x; rotate_left; clear_value x; rotate_right)
    | (extract_lets +onlyGivenNames x; unfold x; clear x)
    | ((with_reducible apply Only.step (dirtyPass_only _)); focus rfl)
    | ((with_reducible apply Only.step (mirrorRegs_only _)); focus rfl)
    | ((with_reducible apply Only.upd); rotate_left; focus (intro p hp; cases p <;> first | rfl | exact ⟨rfl, rfl, rfl⟩ | exact absurd (by decide) hp))

theorem activateConfig_only (s : State) :
    Only [.regs] s (activateConfig s) := by
  unfold activateConfig
  repeat' first
    | with_reducible exact Only.refl _ _
    | with_reducible assumption
    | ((with_reducible apply Only.upd); rotate_left; focus (intro p hp; cases p <;> first | rfl | exact ⟨rfl, rfl, rfl⟩ | exact absurd (by decide) hp))

theorem resetBuckets_only (old : Bytes) (s : State) :
    Only [.integ] s (resetBuckets old s) := by
  unfold resetBuckets
  repeat' first
    | with_reducible exact Only.refl _ _
    | with_reducible assumption
    | (extract_lets +onlyGivenNames x; unfold x; clear x)
    | (split)
    | ((with_reducible apply Only.upd); rotate_left; focus (intro p hp; cases p <;> first | rfl | exact ⟨rfl, rfl, rfl⟩ | exact absurd (by decide) hp))

theorem applyValues_only (vals : Tab Bytes) (s : State) :
    Only [.regs, .values, .integ] s (applyValues vals s) := by
  unfold applyValues
  repeat' first
    | with_reducible exact Only.refl _ _
    | with_reducible assumption
    | (extract_lets +onlyGivenNames x; refine (have hx : Only [.regs, .values, .integ] s x := ?_; ?_); unfold x; clear x; rotate_left; clear_value x; rotate_right)
    | (extract_lets +onlyGivenNames x; unfold x; clear x)
    | ((with_reducible apply Only.step (resetBuckets_only _ _)); focus rfl)
    | ((with_reducible apply Only.step (storeAppend_only _ _ _ _)); focus rfl)
    | ((with_reducible apply Only.step (syncRegisters_only _)); focus rfl)
    | ((with_reducible apply Only.foldl); intro x a hx; try beta_reduce)
    | (unfold modDict)
    | ((with_reducible apply Only.upd); rotate_left; focus (intro p hp; cases p <;> first | rfl | exact ⟨rfl, rfl, rfl⟩ | exact absurd (by decide) hp))

theorem commitStaged_only (value : Nat) (s : State) :
    Only [.regs, .values, .counters, .integ, .strait, .out] s (commitStaged value s).2 := by
  unfold commitStaged
  repeat' first
    | with_reducible exact Only.refl _ _
    | with_reducible assumption
    | (extract_lets +onlyGivenNames x; refine (have hx : Only [.regs, .values, .counters, .integ, .strait, .out] s x := ?_; ?_); unfold x; clear x; rotate_left; clear_value x; rotate_right)
    | (extract_lets +onlyGivenNames x; unfold x; clear x)
    | ((with_reducible apply Only.ite) <;> intro _)
    | ((with_reducible apply Only.ite2) <;> intro _)
    | ((with_reducible apply Only.step (applyValues_only _ _)); focus rfl)
    | ((with_reducible apply Only.step (bump_only _ _)); focus rfl)
    | ((with_reducible apply Only.step (startExchange_only _)); focus rfl)
    | (unfold modDict)
    | (split)
    | ((with_reducible apply Only.upd); rotate_left; focus (intro p hp; cases p <;> first | rfl | exact ⟨rfl, rfl, rfl⟩ | exact absurd (by decide) hp))

theorem commitWrite_only (data : Bytes) (s : State) :
    Only [.regs, .values, .counters, .integ, .strait, .out] s (commitWrite data s).2 := by
  unfold commitWrite
  repeat' first
    | with_reducible exact Only.refl _ _
    | with_reducible assumption
    | ((with_reducible apply Only.ite2) <;> intro _)
    | ((with_reducible apply Only.step (commitStaged_only _ _)); focus rfl)

theorem clearWrite_only (data : Bytes) (s : State) :
    Only [.monitors] s (clearWrite data s).2 := by
  unfold clearWrite
  repeat' first
    | with_reducible exact Only.refl _ _
    | with_reducible assumption
    | (extract_lets +onlyGivenNames x; unfold x; clear x)
    | ((with_reducible apply Only.ite2) <;> intro _)
    | ((with_reducible apply Only.step (monClearAll_only _ _)); focus rfl)

end Sys2Proof.Laws
end

