-- ==== Sys2Proof/Laws/FrameAwl.lean ====
section
/-! SUPPORT. For each function of the Awl, drift, Cobblers and failures that answers a state: the parts of the state that it may change. -/

namespace Sys2Proof.Laws

open Sys2Proof.Machine

theorem dropCover_only (n : Nat) (s : State) :
    Only [.model] s (dropCover n s) := by
  unfold dropCover
  repeat' first
    | with_reducible exact Only.refl _ _
    | with_reducible assumption
    | (extract_lets +onlyGivenNames x; refine (have hx : Only [.model] s x := ?_; ?_); unfold x; clear x; rotate_left; clear_value x; rotate_right)
    | (extract_lets +onlyGivenNames x; unfold x; clear x)
    | ((with_reducible apply Only.ite) <;> intro _)
    | (split)
    | ((with_reducible apply Only.upd); rotate_left; focus (intro p hp; cases p <;> first | rfl | exact ⟨rfl, rfl, rfl⟩ | exact absurd (by decide) hp))

theorem floorNow_only (n : Nat) (s : State) :
    Only [.banks, .scheds] s (floorNow n s) := by
  unfold floorNow
  repeat' first
    | with_reducible exact Only.refl _ _
    | with_reducible assumption
    | ((with_reducible apply Only.step (modBank_only _ _ _)); focus rfl)
    | ((with_reducible apply Only.step (modSched_only _ _ _)); focus rfl)

theorem refreshDue_only (n : Nat) (s : State) :
    Only [.counters, .events, .held, .model, .banks, .scheds, .out] s (refreshDue n s) := by
  unfold refreshDue
  repeat' first
    | with_reducible exact Only.refl _ _
    | with_reducible assumption
    | (extract_lets +onlyGivenNames x; refine (have hx : Only [.counters, .events, .held, .model, .banks, .scheds, .out] s x := ?_; ?_); unfold x; clear x; rotate_left; clear_value x; rotate_right)
    | (extract_lets +onlyGivenNames x; unfold x; clear x)
    | ((with_reducible apply Only.ite) <;> intro _)
    | ((with_reducible apply Only.step (dropCover_only _ _)); focus rfl)
    | ((with_reducible apply Only.step (floorNow_only _ _)); focus rfl)
    | ((with_reducible apply Only.step (modSched_only _ _ _)); focus rfl)
    | ((with_reducible apply Only.step (noteFloor_only _ _)); focus rfl)

theorem activateNow_only (s : State) :
    Only [.regs, .counters, .events, .held, .model, .banks, .scheds, .out] s (activateNow s) := by
  unfold activateNow
  repeat' first
    | with_reducible exact Only.refl _ _
    | with_reducible assumption
    | (extract_lets +onlyGivenNames x; refine (have hx : Only [.regs, .counters, .events, .held, .model, .banks, .scheds, .out] s x := ?_; ?_); unfold x; clear x; rotate_left; clear_value x; rotate_right)
    | ((with_reducible apply Only.ite) <;> intro _)
    | ((with_reducible apply Only.step (activateConfig_only _)); focus rfl)
    | ((with_reducible apply Only.step (refreshDue_only _ _)); focus rfl)
    | ((with_reducible apply Only.foldl); intro x a hx; try beta_reduce)

theorem symptomEvent_only (n : Nat) (k : Nat) (s : State) :
    Only [.counters, .events, .held, .out] s (symptomEvent n k s) := by
  unfold symptomEvent
  repeat' first
    | with_reducible exact Only.refl _ _
    | with_reducible assumption
    | ((with_reducible apply Only.step (raise_only _ _ _ _)); focus rfl)

theorem setSymptom_only (n : Nat) (k : Nat) (was : Bool) (now : Bool) (put : Sched → Sched) (s : State) :
    Only [.counters, .events, .held, .scheds, .out] s (setSymptom n k was now put s) := by
  unfold setSymptom
  repeat' first
    | with_reducible exact Only.refl _ _
    | with_reducible assumption
    | (extract_lets +onlyGivenNames x; refine (have hx : Only [.counters, .events, .held, .scheds, .out] s x := ?_; ?_); unfold x; clear x; rotate_left; clear_value x; rotate_right)
    | ((with_reducible apply Only.ite) <;> intro _)
    | ((with_reducible apply Only.step (modSched_only _ _ _)); focus rfl)
    | ((with_reducible apply Only.step (symptomEvent_only _ _ _)); focus rfl)

theorem refreshSymptoms_only (n : Nat) (s : State) :
    Only [.counters, .events, .held, .scheds, .out] s (refreshSymptoms n s) := by
  unfold refreshSymptoms
  repeat' first
    | with_reducible exact Only.refl _ _
    | with_reducible assumption
    | (extract_lets +onlyGivenNames x; refine (have hx : Only [.counters, .events, .held, .scheds, .out] s x := ?_; ?_); unfold x; clear x; rotate_left; clear_value x; rotate_right)
    | (extract_lets +onlyGivenNames x; unfold x; clear x)
    | ((with_reducible apply Only.step (modSched_only _ _ _)); focus rfl)
    | ((with_reducible apply Only.step (setSymptom_only _ _ _ _ _ _)); focus rfl)

theorem countRerun_only (n : Nat) (s : State) :
    Only [.counters, .events, .held, .scheds, .out] s (countRerun n s) := by
  unfold countRerun
  repeat' first
    | with_reducible exact Only.refl _ _
    | with_reducible assumption
    | ((with_reducible apply Only.step (modSched_only _ _ _)); focus rfl)
    | ((with_reducible apply Only.step (refreshSymptoms_only _ _)); focus rfl)

theorem setPostMargin_only (n : Nat) (m : Nat) (s : State) :
    Only [.counters, .events, .held, .scheds, .out] s (setPostMargin n m s) := by
  unfold setPostMargin
  repeat' first
    | with_reducible exact Only.refl _ _
    | with_reducible assumption
    | (extract_lets +onlyGivenNames x; unfold x; clear x)
    | ((with_reducible apply Only.step (setSymptom_only _ _ _ _ _ _)); focus rfl)

theorem noteUse_only (n : Nat) (s : State) :
    Only [.banks] s (noteUse n s) := by
  unfold noteUse
  repeat' first
    | with_reducible exact Only.refl _ _
    | with_reducible assumption
    | ((with_reducible apply Only.step (modBank_only _ _ _)); focus rfl)

theorem retireArray_only (array : Nat) (s : State) :
    Only [.counters, .events, .held, .banks, .out] s (retireArray array s) := by
  unfold retireArray
  repeat' first
    | with_reducible exact Only.refl _ _
    | with_reducible assumption
    | ((with_reducible apply Only.ite) <;> intro _)
    | ((with_reducible apply Only.step (markRetired_only _ _)); focus rfl)
    | ((with_reducible apply Only.foldl); intro x a hx; try beta_reduce)

theorem arrayFailure_only (n : Nat) (s : State) :
    Only [.time, .counters, .events, .held, .banks, .integ, .out] s (arrayFailure n s) := by
  unfold arrayFailure
  repeat' first
    | with_reducible exact Only.refl _ _
    | with_reducible assumption
    | (extract_lets +onlyGivenNames x; unfold x; clear x)
    | ((with_reducible apply Only.ite) <;> intro _)
    | ((with_reducible apply Only.step (countFailure_only _ _ _)); focus rfl)
    | ((with_reducible apply Only.step (permanentEvent_only _ _ _)); focus rfl)
    | ((with_reducible apply Only.step (retireArray_only _ _)); focus rfl)

theorem nvRetried_only (s : State) :
    Only [.counters] s (nvRetried s) := by
  unfold nvRetried
  repeat' first
    | with_reducible exact Only.refl _ _
    | with_reducible assumption
    | ((with_reducible apply Only.step (bump_only _ _)); focus rfl)

theorem nvPoisoned_only (n : Nat) (k : Nat) (s : State) :
    Only [.time, .counters, .events, .held, .banks, .integ, .out] s (nvPoisoned n k s) := by
  unfold nvPoisoned
  repeat' first
    | with_reducible exact Only.refl _ _
    | with_reducible assumption
    | ((with_reducible apply Only.step (arrayFailure_only _ _)); focus rfl)
    | ((with_reducible apply Only.step (bump_only _ _)); focus rfl)
    | ((with_reducible apply Only.foldl); intro x a hx; try beta_reduce)

theorem setErr_only (c : Nat) (k : Nat) (s : State) :
    Only [.awl] s (setErr c k s) := by
  unfold setErr
  repeat' first
    | with_reducible exact Only.refl _ _
    | with_reducible assumption
    | ((with_reducible apply Only.step (modChan_only _ _ _)); focus rfl)

theorem seqError_only (c : Nat) (s : State) :
    Only [.counters, .awl] s (seqError c s) := by
  unfold seqError
  repeat' first
    | with_reducible exact Only.refl _ _
    | with_reducible assumption
    | ((with_reducible apply Only.step (bump_only _ _)); focus rfl)
    | ((with_reducible apply Only.step (modChan_only _ _ _)); focus rfl)
    | ((with_reducible apply Only.step (setErr_only _ _ _)); focus rfl)

theorem acceptCmd_only (c : Nat) (done : Bool) (s : State) :
    Only [.awl] s (acceptCmd c done s) := by
  unfold acceptCmd
  repeat' first
    | with_reducible exact Only.refl _ _
    | with_reducible assumption
    | ((with_reducible apply Only.step (modChan_only _ _ _)); focus rfl)

theorem unlocked_only {P : List Part} {s₀ : State} (hs : subParts [.regs, .awl, .counters] P = true) (i : Initiator) (c : Nat) (s : State)
    (k : State → State) (hf : ∀ x, Only P s₀ x → Only P s₀ (k x)) (h : Only P s₀ s) : OnlyR P s₀ (unlocked i c s k) := by
  unfold unlocked
  split
  · exact OnlyR.next (Only.step ((privDrop_only _).mono (P := [.regs, .awl, .counters]) rfl) hs h)
  · split
    · exact OnlyR.next (hf _ (Only.step ((modChan_only _ _ _).mono (P := [.regs, .awl, .counters]) rfl) hs h))
    · exact OnlyR.next (Only.step ((seqError_only _ _).mono (P := [.regs, .awl, .counters]) rfl) hs h)

theorem bufferWake_only (o : AwlOp) (s : State) :
    Only [.doms, .cause, .counters] s (bufferWake o s) := by
  unfold bufferWake
  repeat' first
    | with_reducible exact Only.refl _ _
    | with_reducible assumption
    | ((with_reducible apply Only.ite) <;> intro _)
    | ((with_reducible apply Only.step (runWake_only _ _ _)); focus rfl)

theorem modOp_only (n : Nat) (order : Nat) (f : AwlOp → AwlOp) (s : State) :
    Only [.banks] s (modOp n order f s) := by
  unfold modOp
  repeat' first
    | with_reducible exact Only.refl _ _
    | with_reducible assumption
    | ((with_reducible apply Only.step (modBank_only _ _ _)); focus rfl)

theorem endOp_only (n : Nat) (o : AwlOp) (errs : Nat) (s : State) :
    Only [.cause, .banks, .awl] s (endOp n o errs s) := by
  unfold endOp
  repeat' first
    | with_reducible exact Only.refl _ _
    | with_reducible assumption
    | (extract_lets +onlyGivenNames x; refine (have hx : Only [.cause, .banks, .awl] s x := ?_; ?_); unfold x; clear x; rotate_left; clear_value x; rotate_right)
    | (extract_lets +onlyGivenNames x; unfold x; clear x)
    | ((with_reducible apply Only.ite) <;> intro _)
    | ((with_reducible apply Only.step (cause_only _ _)); focus rfl)
    | ((with_reducible apply Only.step (modBank_only _ _ _)); focus rfl)
    | ((with_reducible apply Only.step (modChan_only _ _ _)); focus rfl)
    | (split)
    | ((with_reducible apply Only.upd); rotate_left; focus (intro p hp; cases p <;> first | rfl | exact ⟨rfl, rfl, rfl⟩ | exact absurd (by decide) hp))

theorem startProgram_only (n : Nat) (o : AwlOp) (s : State) :
    Only [.time, .cause, .counters, .events, .held, .hbr, .banks, .awl, .scheds, .integ, .out] s (startProgram n o s) := by
  unfold startProgram
  repeat' first
    | with_reducible exact Only.refl _ _
    | with_reducible assumption
    | (extract_lets +onlyGivenNames x; refine (have hx : Only [.time, .cause, .counters, .events, .held, .hbr, .banks, .awl, .scheds, .integ, .out] s x := ?_; ?_); unfold x; clear x; rotate_left; clear_value x; rotate_right)
    | (extract_lets +onlyGivenNames x; unfold x; clear x)
    | ((with_reducible apply Only.ite) <;> intro _)
    | ((with_reducible apply Only.step (bump_only _ _)); focus rfl)
    | ((with_reducible apply Only.step (endOp_only _ _ _ _)); focus rfl)
    | ((with_reducible apply Only.step (modBank_only _ _ _)); focus rfl)
    | ((with_reducible apply Only.step (modOp_only _ _ _ _)); focus rfl)
    | ((with_reducible apply Only.step (modSched_only _ _ _)); focus rfl)
    | ((with_reducible apply Only.step (touchRun_only _ _ _ _)); focus rfl)

theorem startErase_only (n : Nat) (o : AwlOp) (s : State) :
    Only [.cause, .banks, .awl] s (startErase n o s) := by
  unfold startErase
  repeat' first
    | with_reducible exact Only.refl _ _
    | with_reducible assumption
    | (extract_lets +onlyGivenNames x; refine (have hx : Only [.cause, .banks, .awl] s x := ?_; ?_); unfold x; clear x; rotate_left; clear_value x; rotate_right)
    | (extract_lets +onlyGivenNames x; unfold x; clear x)
    | ((with_reducible apply Only.step (endOp_only _ _ _ _)); focus rfl)
    | ((with_reducible apply Only.step (modOp_only _ _ _ _)); focus rfl)
    | ((with_reducible apply Only.step (setBankState_only _ _ _)); focus rfl)
    | ((with_reducible apply Only.foldl); intro x a hx; try beta_reduce)

theorem startOp_only (n : Nat) (o : AwlOp) (s : State) :
    Only [.time, .cause, .counters, .events, .held, .hbr, .banks, .awl, .scheds, .integ, .out] s (startOp n o s) := by
  unfold startOp
  repeat' first
    | with_reducible exact Only.refl _ _
    | with_reducible assumption
    | (extract_lets +onlyGivenNames x; refine (have hx : Only [.time, .cause, .counters, .events, .held, .hbr, .banks, .awl, .scheds, .integ, .out] s x := ?_; ?_); unfold x; clear x; rotate_left; clear_value x; rotate_right)
    | ((with_reducible apply Only.ite) <;> intro _)
    | ((with_reducible apply Only.step (endOp_only _ _ _ _)); focus rfl)
    | ((with_reducible apply Only.step (modOp_only _ _ _ _)); focus rfl)
    | ((with_reducible apply Only.step (setBankState_only _ _ _)); focus rfl)
    | ((with_reducible apply Only.step (startErase_only _ _ _)); focus rfl)
    | ((with_reducible apply Only.step (startProgram_only _ _ _)); focus rfl)
    | (split)

theorem queueOp_only (n : Nat) (o : AwlOp) (s : State) :
    Only [.doms, .time, .cause, .counters, .events, .held, .hbr, .banks, .awl, .scheds, .integ, .out] s (queueOp n o s) := by
  unfold queueOp
  repeat' first
    | with_reducible exact Only.refl _ _
    | with_reducible assumption
    | (extract_lets +onlyGivenNames x; refine (have hx : Only [.doms, .time, .cause, .counters, .events, .held, .hbr, .banks, .awl, .scheds, .integ, .out] s x := ?_; ?_); unfold x; clear x; rotate_left; clear_value x; rotate_right)
    | (extract_lets +onlyGivenNames x; unfold x; clear x)
    | ((with_reducible apply Only.ite) <;> intro _)
    | ((with_reducible apply Only.step (bufferWake_only _ _)); focus rfl)
    | ((with_reducible apply Only.step (modBank_only _ _ _)); focus rfl)
    | ((with_reducible apply Only.step (startOp_only _ _ _)); focus rfl)
    | (split)
    | ((with_reducible apply Only.upd); rotate_left; focus (intro p hp; cases p <;> first | rfl | exact ⟨rfl, rfl, rfl⟩ | exact absurd (by decide) hp))

theorem rejectBusy_only (c : Nat) (allowed : Bool) (s : State) :
    Only [.awl] s (rejectBusy c allowed s) := by
  unfold rejectBusy
  repeat' first
    | with_reducible exact Only.refl _ _
    | with_reducible assumption
    | ((with_reducible apply Only.ite) <;> intro _)
    | ((with_reducible apply Only.step (setErr_only _ _ _)); focus rfl)

theorem operationCmd_only (c : Fin 8) (k : AwlKind) (s : State) :
    Only [.doms, .time, .cause, .counters, .events, .held, .hbr, .banks, .awl, .scheds, .integ, .out] s (operationCmd c k s) := by
  unfold operationCmd
  repeat' first
    | with_reducible exact Only.refl _ _
    | with_reducible assumption
    | (extract_lets +onlyGivenNames x; refine (have hx : Only [.doms, .time, .cause, .counters, .events, .held, .hbr, .banks, .awl, .scheds, .integ, .out] s x := ?_; ?_); unfold x; clear x; rotate_left; clear_value x; rotate_right)
    | (extract_lets +onlyGivenNames x; unfold x; clear x)
    | ((with_reducible apply Only.ite) <;> intro _)
    | ((with_reducible apply Only.step (acceptCmd_only _ _ _)); focus rfl)
    | ((with_reducible apply Only.step (modChan_only _ _ _)); focus rfl)
    | ((with_reducible apply Only.step (queueOp_only _ _ _)); focus rfl)
    | ((with_reducible apply Only.step (rejectBusy_only _ _ _)); focus rfl)
    | ((with_reducible apply Only.step (seqError_only _ _)); focus rfl)
    | ((with_reducible apply Only.step (setErr_only _ _ _)); focus rfl)

theorem execProgramRow_only (i : Initiator) (ch : Fin 8) (s : State) :
    OnlyR [.doms, .time, .regs, .cause, .counters, .events, .held, .hbr, .banks, .awl, .scheds, .integ, .out] s (execProgramRow i ch s) := by
  unfold execProgramRow
  repeat' first
    | with_reducible exact Only.refl _ _
    | with_reducible assumption
    | with_reducible apply OnlyR.next
    | ((with_reducible apply Only.step (operationCmd_only _ _ _)); focus rfl)
    | ((with_reducible apply unlocked_only); (focus rfl))
    | (intro x hx; try beta_reduce)

theorem execProgramWord_only (i : Initiator) (ch : Fin 8) (s : State) :
    OnlyR [.doms, .time, .regs, .cause, .counters, .events, .held, .hbr, .banks, .awl, .scheds, .integ, .out] s (execProgramWord i ch s) := by
  unfold execProgramWord
  repeat' first
    | with_reducible exact Only.refl _ _
    | with_reducible assumption
    | with_reducible apply OnlyR.next
    | ((with_reducible apply Only.step (operationCmd_only _ _ _)); focus rfl)
    | ((with_reducible apply unlocked_only); (focus rfl))
    | (intro x hx; try beta_reduce)

theorem execEraseBank_only (i : Initiator) (ch : Fin 8) (s : State) :
    OnlyR [.doms, .time, .regs, .cause, .counters, .events, .held, .hbr, .banks, .awl, .scheds, .integ, .out] s (execEraseBank i ch s) := by
  unfold execEraseBank
  repeat' first
    | with_reducible exact Only.refl _ _
    | with_reducible assumption
    | with_reducible apply OnlyR.next
    | ((with_reducible apply Only.step (operationCmd_only _ _ _)); focus rfl)
    | ((with_reducible apply unlocked_only); (focus rfl))
    | (intro x hx; try beta_reduce)

theorem execTopUpRow_only (i : Initiator) (ch : Fin 8) (s : State) :
    OnlyR [.doms, .time, .regs, .cause, .counters, .events, .held, .hbr, .banks, .awl, .scheds, .integ, .out] s (execTopUpRow i ch s) := by
  unfold execTopUpRow
  repeat' first
    | with_reducible exact Only.refl _ _
    | with_reducible assumption
    | with_reducible apply OnlyR.next
    | ((with_reducible apply Only.step (operationCmd_only _ _ _)); focus rfl)
    | ((with_reducible apply unlocked_only); (focus rfl))
    | (intro x hx; try beta_reduce)

theorem execReadRow_only (i : Initiator) (ch : Fin 8) (s : State) :
    OnlyR [.doms, .time, .regs, .cause, .counters, .events, .held, .hbr, .banks, .awl, .scheds, .integ, .out] s (execReadRow i ch s) := by
  unfold execReadRow
  repeat' first
    | with_reducible exact Only.refl _ _
    | with_reducible assumption
    | with_reducible apply OnlyR.next
    | ((with_reducible apply Only.step (operationCmd_only _ _ _)); focus rfl)
    | ((with_reducible apply unlocked_only); (focus rfl))
    | (intro x hx; try beta_reduce)

theorem execReadMargin_only (i : Initiator) (ch : Fin 8) (s : State) :
    OnlyR [.doms, .time, .regs, .cause, .counters, .events, .held, .hbr, .banks, .awl, .scheds, .integ, .out] s (execReadMargin i ch s) := by
  unfold execReadMargin
  repeat' first
    | with_reducible exact Only.refl _ _
    | with_reducible assumption
    | with_reducible apply OnlyR.next
    | ((with_reducible apply Only.step (operationCmd_only _ _ _)); focus rfl)
    | ((with_reducible apply unlocked_only); (focus rfl))
    | (intro x hx; try beta_reduce)

theorem stateCmd_only {P : List Part} {s₀ : State} (hs : subParts [.awl] P = true) (c : Fin 8) (ok : Bank → Bool) (f : Nat → State → State)
    (s : State) (hf : ∀ n x, Only P s₀ x → Only P s₀ (f n x)) (h : Only P s₀ s) : Only P s₀ (stateCmd c ok f s) := by
  have e := fun k => Only.step ((setErr_only c.val k s).mono (P := [.awl]) rfl) hs h
  unfold stateCmd
  dsimp only
  refine Only.ite (fun _ => e _) fun _ => Only.ite (fun _ => ?_) fun _ => Only.ite (fun _ => e _) fun _ => Only.ite (fun _ => e _) fun _ => ?_
  · exact Only.step ((rejectBusy_only _ _ _).mono (P := [.awl]) rfl) hs h
  · exact hf _ _ (Only.step ((acceptCmd_only _ _ _).mono (P := [.awl]) rfl) hs h)

theorem setMode_only (storage : Bool) (n : Nat) (s : State) :
    Only [.banks] s (setMode storage n s) := by
  unfold setMode
  repeat' first
    | with_reducible exact Only.refl _ _
    | with_reducible assumption
    | ((with_reducible apply Only.step (modBank_only _ _ _)); focus rfl)

theorem execSetComputeMode_only (i : Initiator) (ch : Fin 8) (s : State) :
    OnlyR [.regs, .counters, .banks, .awl] s (execSetComputeMode i ch s) := by
  unfold execSetComputeMode
  repeat' first
    | with_reducible exact Only.refl _ _
    | with_reducible assumption
    | with_reducible apply OnlyR.next
    | ((with_reducible apply Only.step (setMode_only _ _ _)); focus rfl)
    | ((with_reducible apply stateCmd_only); (focus rfl))
    | ((with_reducible apply unlocked_only); (focus rfl))
    | (intro b x hx; try beta_reduce)
    | (intro x hx; try beta_reduce)

theorem execSetStorageMode_only (i : Initiator) (ch : Fin 8) (s : State) :
    OnlyR [.regs, .counters, .banks, .awl] s (execSetStorageMode i ch s) := by
  unfold execSetStorageMode
  repeat' first
    | with_reducible exact Only.refl _ _
    | with_reducible assumption
    | with_reducible apply OnlyR.next
    | ((with_reducible apply Only.step (setMode_only _ _ _)); focus rfl)
    | ((with_reducible apply stateCmd_only); (focus rfl))
    | ((with_reducible apply unlocked_only); (focus rfl))
    | (intro b x hx; try beta_reduce)
    | (intro x hx; try beta_reduce)

theorem sealNow_only (n : Nat) (s : State) :
    Only [.counters, .events, .held, .model, .banks, .scheds, .out] s (sealNow n s) := by
  unfold sealNow
  repeat' first
    | with_reducible exact Only.refl _ _
    | with_reducible assumption
    | (extract_lets +onlyGivenNames x; refine (have hx : Only [.counters, .events, .held, .model, .banks, .scheds, .out] s x := ?_; ?_); unfold x; clear x; rotate_left; clear_value x; rotate_right)
    | (extract_lets +onlyGivenNames x; unfold x; clear x)
    | ((with_reducible apply Only.ite) <;> intro _)
    | ((with_reducible apply Only.step (markWorn_only _ _)); focus rfl)
    | ((with_reducible apply Only.step (modBank_only _ _ _)); focus rfl)
    | ((with_reducible apply Only.step (modSched_only _ _ _)); focus rfl)
    | ((with_reducible apply Only.step (refreshDue_only _ _)); focus rfl)
    | ((with_reducible apply Only.step (setBankState_only _ _ _)); focus rfl)

theorem markCmd_only (c : Fin 8) (s : State) :
    Only [.counters, .events, .held, .banks, .awl, .scheds, .out] s (markCmd c s) := by
  unfold markCmd
  repeat' first
    | with_reducible exact Only.refl _ _
    | with_reducible assumption
    | (extract_lets +onlyGivenNames x; unfold x; clear x)
    | ((with_reducible apply Only.step (markRetired_only _ _)); focus rfl)
    | ((with_reducible apply Only.step (markWorn_only _ _)); focus rfl)
    | ((with_reducible apply stateCmd_only); (focus rfl))
    | (split)
    | (intro b x hx; try beta_reduce)

theorem execMarkBank_only (i : Initiator) (ch : Fin 8) (s : State) :
    OnlyR [.regs, .counters, .events, .held, .banks, .awl, .scheds, .out] s (execMarkBank i ch s) := by
  unfold execMarkBank
  repeat' first
    | with_reducible exact Only.refl _ _
    | with_reducible assumption
    | with_reducible apply OnlyR.next
    | ((with_reducible apply Only.step (markCmd_only _ _)); focus rfl)
    | ((with_reducible apply unlocked_only); (focus rfl))
    | (intro x hx; try beta_reduce)

theorem channelCmd_only (c : Fin 8) (f : Channel → Channel) (s : State) :
    Only [.awl] s (channelCmd c f s) := by
  unfold channelCmd
  repeat' first
    | with_reducible exact Only.refl _ _
    | with_reducible assumption
    | ((with_reducible apply Only.ite) <;> intro _)
    | ((with_reducible apply Only.step (acceptCmd_only _ _ _)); focus rfl)
    | ((with_reducible apply Only.step (modChan_only _ _ _)); focus rfl)
    | ((with_reducible apply Only.step (setErr_only _ _ _)); focus rfl)

theorem execReadStatus_only (i : Initiator) (ch : Fin 8) (s : State) :
    OnlyR [.regs, .counters, .awl] s (execReadStatus i ch s) := by
  unfold execReadStatus
  repeat' first
    | with_reducible exact Only.refl _ _
    | with_reducible assumption
    | with_reducible apply OnlyR.next
    | ((with_reducible apply Only.step (channelCmd_only _ _ _)); focus rfl)
    | ((with_reducible apply unlocked_only); (focus rfl))
    | (intro x hx; try beta_reduce)

theorem execResetToRead_only (i : Initiator) (ch : Fin 8) (s : State) :
    OnlyR [.regs, .counters, .awl] s (execResetToRead i ch s) := by
  unfold execResetToRead
  repeat' first
    | with_reducible exact Only.refl _ _
    | with_reducible assumption
    | with_reducible apply OnlyR.next
    | ((with_reducible apply Only.step (channelCmd_only _ _ _)); focus rfl)
    | ((with_reducible apply unlocked_only); (focus rfl))
    | (intro x hx; try beta_reduce)

theorem bankSelWrite_only (c : Nat) (value : BitVec 32) (s : State) :
    Only [.counters, .awl] s (bankSelWrite c value s) := by
  unfold bankSelWrite
  repeat' first
    | with_reducible exact Only.refl _ _
    | with_reducible assumption
    | (extract_lets +onlyGivenNames x; refine (have hx : Only [.counters, .awl] s x := ?_; ?_); unfold x; clear x; rotate_left; clear_value x; rotate_right)
    | ((with_reducible apply Only.ite) <;> intro _)
    | ((with_reducible apply Only.step (modChan_only _ _ _)); focus rfl)
    | ((with_reducible apply Only.step (seqError_only _ _)); focus rfl)

theorem execAwlBankSelWrite_only (i : Initiator) (ch : Fin 8) (value : BitVec 32) (s : State) :
    OnlyR [.regs, .counters, .awl] s (execAwlBankSelWrite i ch value s) := by
  unfold execAwlBankSelWrite
  repeat' first
    | with_reducible exact Only.refl _ _
    | with_reducible assumption
    | ((with_reducible apply OnlyR.ite) <;> intro _)
    | with_reducible apply OnlyR.next
    | ((with_reducible apply Only.step (bankSelWrite_only _ _ _)); focus rfl)
    | ((with_reducible apply Only.step (privDrop_only _)); focus rfl)

theorem suspendBank_only (n : Nat) (byFloor : Bool) (s : State) :
    Only [.banks] s (suspendBank n byFloor s) := by
  unfold suspendBank
  repeat' first
    | with_reducible exact Only.refl _ _
    | with_reducible assumption
    | ((with_reducible apply Only.step (modBank_only _ _ _)); focus rfl)

theorem noSuchBank_only (c : Nat) (s : State) :
    Only [.awl] s (noSuchBank c s) := by
  unfold noSuchBank
  repeat' first
    | with_reducible exact Only.refl _ _
    | with_reducible assumption
    | ((with_reducible apply Only.ite) <;> intro _)
    | ((with_reducible apply Only.step (setErr_only _ _ _)); focus rfl)

theorem suspendByte_only (c : Nat) (s : State) :
    Only [.banks, .awl] s (suspendByte c s) := by
  unfold suspendByte
  repeat' first
    | with_reducible exact Only.refl _ _
    | with_reducible assumption
    | ((with_reducible apply Only.step (modChan_only _ _ _)); focus rfl)
    | ((with_reducible apply Only.step (noSuchBank_only _ _)); focus rfl)
    | ((with_reducible apply Only.step (suspendBank_only _ _ _)); focus rfl)

theorem execSuspend_only (i : Initiator) (ch : Fin 8) (s : State) :
    OnlyR [.regs, .banks, .awl] s (execSuspend i ch s) := by
  unfold execSuspend
  repeat' first
    | with_reducible exact Only.refl _ _
    | with_reducible assumption
    | ((with_reducible apply OnlyR.ite) <;> intro _)
    | with_reducible apply OnlyR.next
    | ((with_reducible apply Only.step (privDrop_only _)); focus rfl)
    | ((with_reducible apply Only.step (suspendByte_only _ _)); focus rfl)

theorem resumeBank_only (n : Nat) (s : State) :
    Only [.time, .cause, .counters, .events, .held, .hbr, .banks, .awl, .scheds, .integ, .out] s (resumeBank n s) := by
  unfold resumeBank
  repeat' first
    | with_reducible exact Only.refl _ _
    | with_reducible assumption
    | (extract_lets +onlyGivenNames x; refine (have hx : Only [.time, .cause, .counters, .events, .held, .hbr, .banks, .awl, .scheds, .integ, .out] s x := ?_; ?_); unfold x; clear x; rotate_left; clear_value x; rotate_right)
    | (extract_lets +onlyGivenNames x; unfold x; clear x)
    | ((with_reducible apply Only.ite) <;> intro _)
    | ((with_reducible apply Only.step (modOp_only _ _ _ _)); focus rfl)
    | ((with_reducible apply Only.step (startOp_only _ _ _)); focus rfl)
    | (split)

theorem resumeByte_only (c : Nat) (s : State) :
    Only [.time, .cause, .counters, .events, .held, .hbr, .banks, .awl, .scheds, .integ, .out] s (resumeByte c s) := by
  unfold resumeByte
  repeat' first
    | with_reducible exact Only.refl _ _
    | with_reducible assumption
    | ((with_reducible apply Only.step (modChan_only _ _ _)); focus rfl)
    | ((with_reducible apply Only.step (noSuchBank_only _ _)); focus rfl)
    | ((with_reducible apply Only.step (resumeBank_only _ _)); focus rfl)

theorem execResume_only (i : Initiator) (ch : Fin 8) (s : State) :
    OnlyR [.time, .regs, .cause, .counters, .events, .held, .hbr, .banks, .awl, .scheds, .integ, .out] s (execResume i ch s) := by
  unfold execResume
  repeat' first
    | with_reducible exact Only.refl _ _
    | with_reducible assumption
    | ((with_reducible apply OnlyR.ite) <;> intro _)
    | with_reducible apply OnlyR.next
    | ((with_reducible apply Only.step (privDrop_only _)); focus rfl)
    | ((with_reducible apply Only.step (resumeByte_only _ _)); focus rfl)

theorem execAwlWideWrite_only (i : Initiator) (ch : Fin 8) (_offset : BitVec 12) (s : State) :
    OnlyR [.regs, .counters, .awl] s (execAwlWideWrite i ch _offset s) := by
  unfold execAwlWideWrite
  repeat' first
    | with_reducible exact Only.refl _ _
    | with_reducible assumption
    | ((with_reducible apply OnlyR.ite) <;> intro _)
    | with_reducible apply OnlyR.next
    | ((with_reducible apply Only.step (privDrop_only _)); focus rfl)
    | ((with_reducible apply Only.step (seqError_only _ _)); focus rfl)

theorem execSuspendTakesEffect_only (bank : Nat) (s : State) :
    OnlyR [.counters, .banks] s (execSuspendTakesEffect bank s) := by
  unfold execSuspendTakesEffect
  repeat' first
    | with_reducible exact Only.refl _ _
    | with_reducible assumption
    | with_reducible exact OnlyR.fault
    | with_reducible exact OnlyR.refused
    | (extract_lets +onlyGivenNames x; refine (have hx : Only [.counters, .banks] s x := ?_; ?_); unfold x; clear x; rotate_left; clear_value x; rotate_right)
    | ((with_reducible apply Only.ite) <;> intro _)
    | ((with_reducible apply OnlyR.ite) <;> intro _)
    | with_reducible apply OnlyR.next
    | ((with_reducible apply Only.step (bump_only _ _)); focus rfl)
    | ((with_reducible apply Only.step (modOp_only _ _ _ _)); focus rfl)
    | ((with_reducible apply Only.step (setBankState_only _ _ _)); focus rfl)
    | (split)

theorem execEraseStarvation_only (bank : Nat) (s : State) :
    OnlyR [.counters, .events, .held, .banks, .out] s (execEraseStarvation bank s) := by
  unfold execEraseStarvation
  repeat' first
    | with_reducible exact Only.refl _ _
    | with_reducible assumption
    | with_reducible exact OnlyR.fault
    | with_reducible exact OnlyR.refused
    | (extract_lets +onlyGivenNames x; refine (have hx : Only [.counters, .events, .held, .banks, .out] s x := ?_; ?_); unfold x; clear x; rotate_left; clear_value x; rotate_right)
    | (extract_lets +onlyGivenNames x; unfold x; clear x)
    | ((with_reducible apply OnlyR.ite) <;> intro _)
    | with_reducible apply OnlyR.next
    | ((with_reducible apply Only.step (bump_only _ _)); focus rfl)
    | ((with_reducible apply Only.step (modOp_only _ _ _ _)); focus rfl)
    | ((with_reducible apply Only.step (raise_only _ _ _ _)); focus rfl)
    | (split)

theorem popCpl_only (i : Initiator) (n : Nat) (s : State) :
    Only [.regs, .awl, .out] s (popCpl i n s) := by
  unfold popCpl
  repeat' first
    | with_reducible exact Only.refl _ _
    | with_reducible assumption
    | (extract_lets +onlyGivenNames x; unfold x; clear x)
    | ((with_reducible apply Only.step (send_only _ _)); focus rfl)
    | (split)
    | ((with_reducible apply Only.upd); rotate_left; focus (intro p hp; cases p <;> first | rfl | exact ⟨rfl, rfl, rfl⟩ | exact absurd (by decide) hp))

theorem execAwlCplPop_only (i : Initiator) (s : State) :
    OnlyR [.regs, .awl, .out] s (execAwlCplPop i s) := by
  unfold execAwlCplPop
  repeat' first
    | with_reducible exact Only.refl _ _
    | with_reducible assumption
    | with_reducible apply OnlyR.next
    | ((with_reducible apply Only.step (popCpl_only _ _ _)); focus rfl)
    | ((with_reducible apply Only.step (send_only _ _)); focus rfl)
    | (split)

theorem execAwlOpStart_only (bank : Nat) (s : State) :
    OnlyR [.doms, .time, .cause, .counters, .events, .held, .hbr, .banks, .awl, .scheds, .integ, .out] s (execAwlOpStart bank s) := by
  unfold execAwlOpStart
  repeat' first
    | with_reducible exact Only.refl _ _
    | with_reducible assumption
    | with_reducible exact OnlyR.fault
    | with_reducible exact OnlyR.refused
    | ((with_reducible apply OnlyR.ite) <;> intro _)
    | with_reducible apply OnlyR.next
    | ((with_reducible apply Only.step (bufferWake_only _ _)); focus rfl)
    | ((with_reducible apply Only.step (startOp_only _ _ _)); focus rfl)
    | ((with_reducible apply Only.foldl); intro x a hx; try beta_reduce)
    | (split)

theorem spareRemap_only (n : Nat) (row : Nat) (vec : Nat) (cols : List Nat) (s : State) :
    Only [.counters, .events, .held, .banks, .scheds, .out] s (spareRemap n row vec cols s) := by
  unfold spareRemap
  repeat' first
    | with_reducible exact Only.refl _ _
    | with_reducible assumption
    | (extract_lets +onlyGivenNames x; unfold x; clear x)
    | ((with_reducible apply Only.ite) <;> intro _)
    | ((with_reducible apply Only.step (markRetired_only _ _)); focus rfl)
    | ((with_reducible apply Only.step (modBank_only _ _ _)); focus rfl)
    | ((with_reducible apply Only.step (refreshSymptoms_only _ _)); focus rfl)

theorem weakCells_only (k old new : Nat) (l : List Nat) (s : State) : Only [.free] s (weakCells k old new l s).2 := by
  induction l generalizing s with
  | nil => exact Only.refl _ _
  | cons c t ih => exact Only.step (ih _) rfl (takeFree_only s)

theorem weakRefs_only (n : Nat) (l : List (Fin 8 × Nat)) (s : State) : Only [.banks, .free] s (weakRefs n l s) := by
  induction l generalizing s with
  | nil => exact Only.refl _ _
  | cons e t ih => exact Only.step (ih _) rfl (Only.step (modBank_only _ _ _) rfl (Only.step (takeFree_only s) rfl (Only.refl _ s)))

theorem endProgram_only (n : Nat) (o : AwlOp) (r : OpEnd) (s : State) :
    Only [.cause, .counters, .events, .held, .banks, .awl, .scheds, .out, .free] s (endProgram n o r s) := by
  unfold endProgram
  extract_lets b k bits vec old fails refs cols
  clear_value b k bits vec old fails refs cols
  split
  rename_i cells t e
  have ht : Only [.cause, .counters, .events, .held, .banks, .awl, .scheds, .out, .free] s t := Only.pair e (weakCells_only _ _ _ _ _) rfl (Only.refl _ _)
  clear e
  extract_lets put u v w
  have hu : Only [.cause, .counters, .events, .held, .banks, .awl, .scheds, .out, .free] s u := Only.step (weakRefs_only _ _ _) rfl (Only.step (modBank_only _ _ _) rfl ht)
  have hv : Only [.cause, .counters, .events, .held, .banks, .awl, .scheds, .out, .free] s v := by
    unfold v
    split
    · exact Only.step (modChan_only _ _ _) rfl hu
    · exact hu
  have hw : Only [.cause, .counters, .events, .held, .banks, .awl, .scheds, .out, .free] s w := Only.step (spareRemap_only _ _ _ _ _) rfl (Only.step (endOp_only _ _ _ _) rfl
    (Only.step (bump_only _ _) rfl hv))
  clear_value v w u put
  exact Only.ite (fun _ => Only.step (endOp_only _ _ _ _) rfl hu) fun _ => Only.ite (fun _ => Only.step (modBank_only _ _ _) rfl hw) fun _ => hw

theorem endErase_only (n : Nat) (o : AwlOp) (s : State) :
    Only [.cause, .counters, .events, .held, .banks, .awl, .scheds, .out] s (endErase n o s) := by
  unfold endErase
  repeat' first
    | with_reducible exact Only.refl _ _
    | with_reducible assumption
    | (extract_lets +onlyGivenNames x; refine (have hx : Only [.cause, .counters, .events, .held, .banks, .awl, .scheds, .out] s x := ?_; ?_); unfold x; clear x; rotate_left; clear_value x; rotate_right)
    | (extract_lets +onlyGivenNames x; unfold x; clear x)
    | ((with_reducible apply Only.ite) <;> intro _)
    | ((with_reducible apply Only.step (endOp_only _ _ _ _)); focus rfl)
    | ((with_reducible apply Only.step (modBank_only _ _ _)); focus rfl)
    | ((with_reducible apply Only.step (raise_only _ _ _ _)); focus rfl)
    | ((with_reducible apply Only.step (refreshSymptoms_only _ _)); focus rfl)

theorem readOut_only (n : Nat) (row : Nat) (s : State) :
    Only [.free] s (readOut n row s).2.2 := by
  unfold readOut
  repeat' first
    | with_reducible exact Only.refl _ _
    | with_reducible assumption
    | (extract_lets +onlyGivenNames x; unfold x; clear x)
    | ((with_reducible apply Only.step (takeFree_only _)); focus rfl)
    | (split)

theorem endRead_only (n : Nat) (o : AwlOp) (s : State) :
    Only [.time, .cause, .counters, .events, .held, .hbr, .banks, .awl, .integ, .out, .free] s (endRead n o s) := by
  unfold endRead
  repeat' first
    | with_reducible exact Only.refl _ _
    | with_reducible assumption
    | (extract_lets +onlyGivenNames x; unfold x; clear x)
    | ((with_reducible apply Only.step (endOp_only _ _ _ _)); focus rfl)
    | ((with_reducible apply Only.step (noteUse_only _ _)); focus rfl)
    | ((with_reducible apply Only.step (readOut_only _ _ _)); focus rfl)
    | ((with_reducible apply Only.step (storeRun_only _ _ _ _ _)); focus rfl)

theorem endMargin_only (n : Nat) (o : AwlOp) (r : OpEnd) (s : State) :
    Only [.cause, .banks, .awl] s (endMargin n o r s) := by
  unfold endMargin
  repeat' first
    | with_reducible exact Only.refl _ _
    | with_reducible assumption
    | (extract_lets +onlyGivenNames x; refine (have hx : Only [.cause, .banks, .awl] s x := ?_; ?_); unfold x; clear x; rotate_left; clear_value x; rotate_right)
    | ((with_reducible apply Only.step (endOp_only _ _ _ _)); focus rfl)
    | ((with_reducible apply Only.step (modChan_only _ _ _)); focus rfl)
    | ((with_reducible apply Only.step (noteUse_only _ _)); focus rfl)
    | (split)

theorem endRun_only (n : Nat) (run : Run) (s : State) :
    Only [.time, .cause, .counters, .events, .held, .hbr, .banks, .awl, .scheds, .integ, .out] s (endRun n run s) := by
  unfold endRun
  repeat' first
    | with_reducible exact Only.refl _ _
    | with_reducible assumption
    | (extract_lets +onlyGivenNames x; refine (have hx : Only [.time, .cause, .counters, .events, .held, .hbr, .banks, .awl, .scheds, .integ, .out] s x := ?_; ?_); unfold x; clear x; rotate_left; clear_value x; rotate_right)
    | ((with_reducible apply Only.ite) <;> intro _)
    | ((with_reducible apply Only.step (bump_only _ _)); focus rfl)
    | ((with_reducible apply Only.step (modSched_only _ _ _)); focus rfl)
    | ((with_reducible apply Only.step (refreshSymptoms_only _ _)); focus rfl)
    | ((with_reducible apply Only.step (resumeBank_only _ _)); focus rfl)

theorem endTopUp_only (n : Nat) (o : AwlOp) (r : OpEnd) (s : State) :
    Only [.time, .cause, .counters, .events, .held, .hbr, .banks, .awl, .scheds, .integ, .out] s (endTopUp n o r s) := by
  unfold endTopUp
  repeat' first
    | with_reducible exact Only.refl _ _
    | with_reducible assumption
    | (extract_lets +onlyGivenNames x; refine (have hx : Only [.time, .cause, .counters, .events, .held, .hbr, .banks, .awl, .scheds, .integ, .out] s x := ?_; ?_); unfold x; clear x; rotate_left; clear_value x; rotate_right)
    | (extract_lets +onlyGivenNames x; unfold x; clear x)
    | ((with_reducible apply Only.ite) <;> intro _)
    | ((with_reducible apply Only.step (bumpBy_only _ _ _)); focus rfl)
    | ((with_reducible apply Only.step (endOp_only _ _ _ _)); focus rfl)
    | ((with_reducible apply Only.step (endRun_only _ _ _)); focus rfl)
    | ((with_reducible apply Only.step (modBank_only _ _ _)); focus rfl)
    | ((with_reducible apply Only.step (modChan_only _ _ _)); focus rfl)
    | ((with_reducible apply Only.step (modSched_only _ _ _)); focus rfl)
    | ((with_reducible apply Only.step (resumeBank_only _ _)); focus rfl)
    | (split)

theorem execAwlOpComplete_only (bank : Nat) (r : OpEnd) (s : State) :
    OnlyR [.doms, .time, .cause, .counters, .events, .held, .hbr, .banks, .awl, .scheds, .integ, .out, .free] s (execAwlOpComplete bank r s) := by
  unfold execAwlOpComplete
  repeat' first
    | with_reducible exact Only.refl _ _
    | with_reducible assumption
    | with_reducible exact OnlyR.fault
    | with_reducible exact OnlyR.refused
    | ((with_reducible apply OnlyR.ite) <;> intro _)
    | with_reducible apply OnlyR.next
    | ((with_reducible apply Only.step (endErase_only _ _ _)); focus rfl)
    | ((with_reducible apply Only.step (endMargin_only _ _ _ _)); focus rfl)
    | ((with_reducible apply Only.step (endProgram_only _ _ _ _)); focus rfl)
    | ((with_reducible apply Only.step (endRead_only _ _ _)); focus rfl)
    | ((with_reducible apply Only.step (endTopUp_only _ _ _ _)); focus rfl)
    | ((with_reducible apply Only.step (runWake_only _ _ _)); focus rfl)
    | (split)

theorem releaseBank_only (n : Nat) (s : State) :
    Only [.doms, .time, .cause, .counters, .events, .held, .model, .hbr, .banks, .awl, .scheds, .integ, .out] s (releaseBank n s) := by
  unfold releaseBank
  repeat' first
    | with_reducible exact Only.refl _ _
    | with_reducible assumption
    | (extract_lets +onlyGivenNames x; refine (have hx : Only [.doms, .time, .cause, .counters, .events, .held, .model, .hbr, .banks, .awl, .scheds, .integ, .out] s x := ?_; ?_); unfold x; clear x; rotate_left; clear_value x; rotate_right)
    | (extract_lets +onlyGivenNames x; unfold x; clear x)
    | ((with_reducible apply Only.ite) <;> intro _)
    | ((with_reducible apply Only.step (modBank_only _ _ _)); focus rfl)
    | ((with_reducible apply Only.step (queueOp_only _ _ _)); focus rfl)
    | (split)
    | ((with_reducible apply Only.upd); rotate_left; focus (intro p hp; cases p <;> first | rfl | exact ⟨rfl, rfl, rfl⟩ | exact absurd (by decide) hp))

theorem execDriftAgeTick_only (s : State) :
    OnlyR [.time, .counters, .events, .held, .model, .banks, .scheds, .out] s (execDriftAgeTick s) := by
  unfold execDriftAgeTick
  repeat' first
    | with_reducible exact Only.refl _ _
    | with_reducible assumption
    | (extract_lets +onlyGivenNames x; refine (have hx : Only [.time, .counters, .events, .held, .model, .banks, .scheds, .out] s x := ?_; ?_); unfold x; clear x; rotate_left; clear_value x; rotate_right)
    | (extract_lets +onlyGivenNames x; unfold x; clear x)
    | ((with_reducible apply OnlyR.ite) <;> intro _)
    | with_reducible apply OnlyR.next
    | ((with_reducible apply Only.step (modSched_only _ _ _)); focus rfl)
    | ((with_reducible apply Only.step (refreshDue_only _ _)); focus rfl)
    | ((with_reducible apply Only.foldl); intro x a hx; try beta_reduce)
    | (split)
    | ((with_reducible apply Only.upd); rotate_left; focus (intro p hp; cases p <;> first | rfl | exact ⟨rfl, rfl, rfl⟩ | exact absurd (by decide) hp))

theorem floorSuspend_only (n : Nat) (s : State) :
    Only [.banks] s (floorSuspend n s) := by
  unfold floorSuspend
  repeat' first
    | with_reducible exact Only.refl _ _
    | with_reducible assumption
    | ((with_reducible apply Only.ite) <;> intro _)
    | ((with_reducible apply Only.step (suspendBank_only _ _ _)); focus rfl)

theorem execTopupRunStart_only (bank : Nat) (s : State) :
    OnlyR [.doms, .time, .cause, .counters, .events, .held, .hbr, .banks, .awl, .scheds, .integ, .out] s (execTopupRunStart bank s) := by
  unfold execTopupRunStart
  repeat' first
    | with_reducible exact Only.refl _ _
    | with_reducible assumption
    | with_reducible exact OnlyR.fault
    | with_reducible exact OnlyR.refused
    | (extract_lets +onlyGivenNames x; refine (have hx : Only [.doms, .time, .cause, .counters, .events, .held, .hbr, .banks, .awl, .scheds, .integ, .out] s x := ?_; ?_); unfold x; clear x; rotate_left; clear_value x; rotate_right)
    | (extract_lets +onlyGivenNames x; unfold x; clear x)
    | ((with_reducible apply Only.ite) <;> intro _)
    | ((with_reducible apply OnlyR.ite) <;> intro _)
    | with_reducible apply OnlyR.next
    | ((with_reducible apply Only.step (floorSuspend_only _ _)); focus rfl)
    | ((with_reducible apply Only.step (modSched_only _ _ _)); focus rfl)
    | ((with_reducible apply Only.step (queueOp_only _ _ _)); focus rfl)

theorem execTopupResume_only (bank : Nat) (s : State) :
    OnlyR [.doms, .time, .cause, .counters, .events, .held, .hbr, .banks, .awl, .scheds, .integ, .out] s (execTopupResume bank s) := by
  unfold execTopupResume
  repeat' first
    | with_reducible exact Only.refl _ _
    | with_reducible assumption
    | with_reducible exact OnlyR.fault
    | with_reducible exact OnlyR.refused
    | (extract_lets +onlyGivenNames x; refine (have hx : Only [.doms, .time, .cause, .counters, .events, .held, .hbr, .banks, .awl, .scheds, .integ, .out] s x := ?_; ?_); unfold x; clear x; rotate_left; clear_value x; rotate_right)
    | ((with_reducible apply Only.ite) <;> intro _)
    | ((with_reducible apply OnlyR.ite) <;> intro _)
    | with_reducible apply OnlyR.next
    | ((with_reducible apply Only.step (floorSuspend_only _ _)); focus rfl)
    | ((with_reducible apply Only.step (modSched_only _ _ _)); focus rfl)
    | ((with_reducible apply Only.step (queueOp_only _ _ _)); focus rfl)
    | (split)

theorem preemptRun_only (n : Nat) (s : State) :
    Only [.time, .cause, .counters, .events, .held, .hbr, .banks, .awl, .scheds, .integ, .out] s (preemptRun n s) := by
  unfold preemptRun
  repeat' first
    | with_reducible exact Only.refl _ _
    | with_reducible assumption
    | (extract_lets +onlyGivenNames x; refine (have hx : Only [.time, .cause, .counters, .events, .held, .hbr, .banks, .awl, .scheds, .integ, .out] s x := ?_; ?_); unfold x; clear x; rotate_left; clear_value x; rotate_right)
    | (extract_lets +onlyGivenNames x; unfold x; clear x)
    | ((with_reducible apply Only.ite) <;> intro _)
    | ((with_reducible apply Only.step (bump_only _ _)); focus rfl)
    | ((with_reducible apply Only.step (modBank_only _ _ _)); focus rfl)
    | ((with_reducible apply Only.step (modSched_only _ _ _)); focus rfl)
    | ((with_reducible apply Only.step (resumeBank_only _ _)); focus rfl)
    | (split)

theorem flagRefetch_only (hash : Digest) (r : SliceRec) (s : State) :
    Only [.counters, .events, .held, .model, .out] s (flagRefetch hash r s) := by
  unfold flagRefetch
  repeat' first
    | with_reducible exact Only.refl _ _
    | with_reducible assumption
    | (extract_lets +onlyGivenNames x; unfold x; clear x)
    | ((with_reducible apply Only.step (raise_only _ _ _ _)); focus rfl)
    | (split)
    | ((with_reducible apply Only.upd); rotate_left; focus (intro p hp; cases p <;> first | rfl | exact ⟨rfl, rfl, rfl⟩ | exact absurd (by decide) hp))

theorem flagBank_only (n : Nat) (s : State) :
    Only [.counters, .events, .held, .model, .out] s (flagBank n s) := by
  unfold flagBank
  repeat' first
    | with_reducible exact Only.refl _ _
    | with_reducible assumption
    | ((with_reducible apply Only.step (flagRefetch_only _ _ _)); focus rfl)
    | ((with_reducible apply Only.foldl); intro x a hx; try beta_reduce)

theorem flagSlice_only (x : Launch) (slice : Nat) (s : State) :
    Only [.counters, .events, .held, .model, .out] s (flagSlice x slice s) := by
  unfold flagSlice
  repeat' first
    | with_reducible exact Only.refl _ _
    | with_reducible assumption
    | (extract_lets +onlyGivenNames x; unfold x; clear x)
    | ((with_reducible apply Only.step (flagRefetch_only _ _ _)); focus rfl)
    | (split)

theorem countMeasure_only (n : Nat) (s : State) :
    Only [.counters, .scheds] s (countMeasure n s) := by
  unfold countMeasure
  repeat' first
    | with_reducible exact Only.refl _ _
    | with_reducible assumption
    | (extract_lets +onlyGivenNames x; refine (have hx : Only [.counters, .scheds] s x := ?_; ?_); unfold x; clear x; rotate_left; clear_value x; rotate_right)
    | (extract_lets +onlyGivenNames x; unfold x; clear x)
    | ((with_reducible apply Only.ite) <;> intro _)
    | ((with_reducible apply Only.step (bump_only _ _)); focus rfl)
    | ((with_reducible apply Only.step (modSched_only _ _ _)); focus rfl)

theorem columnFailure_only (n : Nat) (c : Nat) (s : State) :
    Only [.time, .counters, .events, .held, .integ, .out] s (columnFailure n c s) := by
  unfold columnFailure
  repeat' first
    | with_reducible exact Only.refl _ _
    | with_reducible assumption
    | ((with_reducible apply Only.ite) <;> intro _)
    | ((with_reducible apply Only.step (countFailure_only _ _ _)); focus rfl)
    | ((with_reducible apply Only.step (permanentEvent_only _ _ _)); focus rfl)

theorem reportColumn_only (n : Nat) (c : Nat) (s : State) :
    Only [.time, .counters, .events, .held, .scheds, .integ, .out] s (reportColumn n c s) := by
  unfold reportColumn
  repeat' first
    | with_reducible exact Only.refl _ _
    | with_reducible assumption
    | ((with_reducible apply Only.step (columnFailure_only _ _ _)); focus rfl)
    | ((with_reducible apply Only.step (modSched_only _ _ _)); focus rfl)

theorem closeColumns_only (n : Nat) (s : State) :
    Only [.counters, .events, .held, .model, .banks, .scheds, .out] s (closeColumns n s) := by
  unfold closeColumns
  repeat' first
    | with_reducible exact Only.refl _ _
    | with_reducible assumption
    | (extract_lets +onlyGivenNames x; unfold x; clear x)
    | ((with_reducible apply Only.ite) <;> intro _)
    | ((with_reducible apply Only.step (modBank_only _ _ _)); focus rfl)
    | ((with_reducible apply Only.step (modSched_only _ _ _)); focus rfl)
    | ((with_reducible apply Only.step (refreshDue_only _ _)); focus rfl)

theorem dipPassed_only (i : Nat) (s : State) :
    Only [.power] s (dipPassed i s) := by
  unfold dipPassed
  repeat' first
    | with_reducible exact Only.refl _ _
    | with_reducible assumption
    | ((with_reducible apply Only.ite) <;> intro _)
    | (split)
    | ((with_reducible apply Only.upd); rotate_left; focus (intro p hp; cases p <;> first | rfl | exact ⟨rfl, rfl, rfl⟩ | exact absurd (by decide) hp))

theorem testPassed_only (n : Nat) (r : KsResult) (s : State) :
    Only [.power, .counters, .events, .monitors, .held, .model, .banks, .scheds, .out] s (testPassed n r s) := by
  unfold testPassed
  repeat' first
    | with_reducible exact Only.refl _ _
    | with_reducible assumption
    | (extract_lets +onlyGivenNames x; refine (have hx : Only [.power, .counters, .events, .monitors, .held, .model, .banks, .scheds, .out] s x := ?_; ?_); unfold x; clear x; rotate_left; clear_value x; rotate_right)
    | (extract_lets +onlyGivenNames x; unfold x; clear x)
    | ((with_reducible apply Only.ite) <;> intro _)
    | ((with_reducible apply Only.step (dipPassed_only _ _)); focus rfl)
    | ((with_reducible apply Only.step (refreshDue_only _ _)); focus rfl)
    | ((with_reducible apply Only.step (setMargin_only _ _ _)); focus rfl)
    | ((with_reducible apply Only.step (setPostMargin_only _ _ _)); focus rfl)

theorem eraseAndAgain_only (n : Nat) (s : State) :
    Only [.counters, .events, .held, .banks, .scheds, .out] s (eraseAndAgain n s) := by
  unfold eraseAndAgain
  repeat' first
    | with_reducible exact Only.refl _ _
    | with_reducible assumption
    | ((with_reducible apply Only.step (modBank_only _ _ _)); focus rfl)
    | ((with_reducible apply Only.step (refreshSymptoms_only _ _)); focus rfl)

theorem dropMove_only (n : Nat) (s : State) :
    Only [.banks, .scheds] s (dropMove n s) := by
  unfold dropMove
  repeat' first
    | with_reducible exact Only.refl _ _
    | with_reducible assumption
    | (extract_lets +onlyGivenNames x; refine (have hx : Only [.banks, .scheds] s x := ?_; ?_); unfold x; clear x; rotate_left; clear_value x; rotate_right)
    | ((with_reducible apply Only.ite) <;> intro _)
    | ((with_reducible apply Only.step (modBank_only _ _ _)); focus rfl)
    | ((with_reducible apply Only.step (modSched_only _ _ _)); focus rfl)
    | (split)

theorem sealTest_only (n : Nat) (r : KsResult) (k : KsReport) (s : State) :
    Only [.power, .time, .counters, .events, .monitors, .held, .model, .banks, .scheds, .integ, .out] s (sealTest n r k s) := by
  unfold sealTest
  repeat' first
    | with_reducible exact Only.refl _ _
    | with_reducible assumption
    | (extract_lets +onlyGivenNames x; refine (have hx : Only [.power, .time, .counters, .events, .monitors, .held, .model, .banks, .scheds, .integ, .out] s x := ?_; ?_); unfold x; clear x; rotate_left; clear_value x; rotate_right)
    | (extract_lets +onlyGivenNames x; unfold x; clear x)
    | ((with_reducible apply Only.ite) <;> intro _)
    | ((with_reducible apply Only.step (columnFailure_only _ _ _)); focus rfl)
    | ((with_reducible apply Only.step (dropMove_only _ _)); focus rfl)
    | ((with_reducible apply Only.step (eraseAndAgain_only _ _)); focus rfl)
    | ((with_reducible apply Only.step (modBank_only _ _ _)); focus rfl)
    | ((with_reducible apply Only.step (modSched_only _ _ _)); focus rfl)
    | ((with_reducible apply Only.step (permanentEvent_only _ _ _)); focus rfl)
    | ((with_reducible apply Only.step (retireArray_only _ _)); focus rfl)
    | ((with_reducible apply Only.step (setHistory_only _ _ _ _)); focus rfl)
    | ((with_reducible apply Only.step (spareRemap_only _ _ _ _ _)); focus rfl)
    | ((with_reducible apply Only.step (testPassed_only _ _ _)); focus rfl)
    | ((with_reducible apply Only.foldl); intro x a hx; try beta_reduce)

theorem serviceTest_only (n : Nat) (r : KsResult) (k : KsReport) (s : State) :
    Only [.power, .time, .counters, .events, .monitors, .held, .model, .banks, .scheds, .integ, .out] s (serviceTest n r k s) := by
  unfold serviceTest
  repeat' first
    | with_reducible exact Only.refl _ _
    | with_reducible assumption
    | (extract_lets +onlyGivenNames x; refine (have hx : Only [.power, .time, .counters, .events, .monitors, .held, .model, .banks, .scheds, .integ, .out] s x := ?_; ?_); unfold x; clear x; rotate_left; clear_value x; rotate_right)
    | (extract_lets +onlyGivenNames x; unfold x; clear x)
    | ((with_reducible apply Only.ite) <;> intro _)
    | ((with_reducible apply Only.step (arrayFailure_only _ _)); focus rfl)
    | ((with_reducible apply Only.step (flagBank_only _ _)); focus rfl)
    | ((with_reducible apply Only.step (modBank_only _ _ _)); focus rfl)
    | ((with_reducible apply Only.step (modSched_only _ _ _)); focus rfl)
    | ((with_reducible apply Only.step (raise_only _ _ _ _)); focus rfl)
    | ((with_reducible apply Only.step (refreshDue_only _ _)); focus rfl)
    | ((with_reducible apply Only.step (reportColumn_only _ _ _)); focus rfl)
    | ((with_reducible apply Only.step (testPassed_only _ _ _)); focus rfl)
    | ((with_reducible apply Only.foldl); intro x a hx; try beta_reduce)

theorem fullTest_only (n : Nat) (r : KsResult) (s : State) :
    Only [.power, .time, .counters, .events, .monitors, .held, .model, .banks, .scheds, .integ, .out] s (fullTest n r s) := by
  unfold fullTest
  repeat' first
    | with_reducible exact Only.refl _ _
    | with_reducible assumption
    | (extract_lets +onlyGivenNames x; refine (have hx : Only [.power, .time, .counters, .events, .monitors, .held, .model, .banks, .scheds, .integ, .out] s x := ?_; ?_); unfold x; clear x; rotate_left; clear_value x; rotate_right)
    | (extract_lets +onlyGivenNames x; unfold x; clear x)
    | ((with_reducible apply Only.ite) <;> intro _)
    | ((with_reducible apply Only.step (countMeasure_only _ _)); focus rfl)
    | ((with_reducible apply Only.step (modBank_only _ _ _)); focus rfl)
    | ((with_reducible apply Only.step (modSched_only _ _ _)); focus rfl)
    | ((with_reducible apply Only.step (sealTest_only _ _ _ _)); focus rfl)
    | ((with_reducible apply Only.step (serviceTest_only _ _ _ _)); focus rfl)

theorem execMarginSample_only (bank : Nat) (steps : List Nat) (s : State) :
    OnlyR [.counters, .events, .monitors, .held, .model, .banks, .scheds, .out] s (execMarginSample bank steps s) := by
  unfold execMarginSample
  repeat' first
    | with_reducible exact Only.refl _ _
    | with_reducible assumption
    | with_reducible exact OnlyR.fault
    | with_reducible exact OnlyR.refused
    | (extract_lets +onlyGivenNames x; refine (have hx : Only [.counters, .events, .monitors, .held, .model, .banks, .scheds, .out] s x := ?_; ?_); unfold x; clear x; rotate_left; clear_value x; rotate_right)
    | (extract_lets +onlyGivenNames x; unfold x; clear x)
    | ((with_reducible apply Only.ite) <;> intro _)
    | ((with_reducible apply OnlyR.ite) <;> intro _)
    | with_reducible apply OnlyR.next
    | ((with_reducible apply Only.step (countMeasure_only _ _)); focus rfl)
    | ((with_reducible apply Only.step (modSched_only _ _ _)); focus rfl)
    | ((with_reducible apply Only.step (refreshDue_only _ _)); focus rfl)
    | ((with_reducible apply Only.step (setMargin_only _ _ _)); focus rfl)
    | ((with_reducible apply Only.step (setPostMargin_only _ _ _)); focus rfl)

theorem execKsPeriodTimer_only (bank : Nat) (s : State) :
    OnlyR [.scheds] s (execKsPeriodTimer bank s) := by
  unfold execKsPeriodTimer
  repeat' first
    | with_reducible exact Only.refl _ _
    | with_reducible assumption
    | with_reducible exact OnlyR.fault
    | with_reducible exact OnlyR.refused
    | ((with_reducible apply OnlyR.ite) <;> intro _)
    | with_reducible apply OnlyR.next
    | ((with_reducible apply Only.step (modSched_only _ _ _)); focus rfl)

theorem execIdleWindowOpen_only (slot : Fin 64) (spillGroup : Nat) (s : State) :
    OnlyR [.scheds] s (execIdleWindowOpen slot spillGroup s) := by
  unfold execIdleWindowOpen
  repeat' first
    | with_reducible exact Only.refl _ _
    | with_reducible assumption
    | (extract_lets +onlyGivenNames x; unfold x; clear x)
    | with_reducible apply OnlyR.next
    | ((with_reducible apply Only.step (modSched_only _ _ _)); focus rfl)
    | ((with_reducible apply Only.foldl); intro x a hx; try beta_reduce)

theorem execForceAfterTimer_only (bank : Nat) (s : State) :
    OnlyR [.counters, .events, .held, .model, .scheds, .out] s (execForceAfterTimer bank s) := by
  unfold execForceAfterTimer
  repeat' first
    | with_reducible exact Only.refl _ _
    | with_reducible assumption
    | with_reducible exact OnlyR.fault
    | with_reducible exact OnlyR.refused
    | (extract_lets +onlyGivenNames x; refine (have hx : Only [.counters, .events, .held, .model, .scheds, .out] s x := ?_; ?_); unfold x; clear x; rotate_left; clear_value x; rotate_right)
    | (extract_lets +onlyGivenNames x; unfold x; clear x)
    | ((with_reducible apply OnlyR.ite) <;> intro _)
    | with_reducible apply OnlyR.next
    | ((with_reducible apply Only.step (bump_only _ _)); focus rfl)
    | ((with_reducible apply Only.step (modSched_only _ _ _)); focus rfl)
    | ((with_reducible apply Only.step (raise_only _ _ _ _)); focus rfl)
    | (split)
    | ((with_reducible apply Only.upd); rotate_left; focus (intro p hp; cases p <;> first | rfl | exact ⟨rfl, rfl, rfl⟩ | exact absurd (by decide) hp))

theorem execRerunBucketRoll_only (s : State) :
    OnlyR [.time, .counters, .events, .held, .scheds, .out] s (execRerunBucketRoll s) := by
  unfold execRerunBucketRoll
  repeat' first
    | with_reducible exact Only.refl _ _
    | with_reducible assumption
    | (extract_lets +onlyGivenNames x; refine (have hx : Only [.time, .counters, .events, .held, .scheds, .out] s x := ?_; ?_); unfold x; clear x; rotate_left; clear_value x; rotate_right)
    | (extract_lets +onlyGivenNames x; unfold x; clear x)
    | ((with_reducible apply OnlyR.ite) <;> intro _)
    | with_reducible apply OnlyR.next
    | ((with_reducible apply Only.step (modSched_only _ _ _)); focus rfl)
    | ((with_reducible apply Only.step (refreshSymptoms_only _ _)); focus rfl)
    | ((with_reducible apply Only.foldl); intro x a hx; try beta_reduce)
    | (split)
    | ((with_reducible apply Only.upd); rotate_left; focus (intro p hp; cases p <;> first | rfl | exact ⟨rfl, rfl, rfl⟩ | exact absurd (by decide) hp))

theorem execPoweredTimeStore_only (s : State) :
    OnlyR [.time, .values, .scheds] s (execPoweredTimeStore s) := by
  unfold execPoweredTimeStore
  repeat' first
    | with_reducible exact Only.refl _ _
    | with_reducible assumption
    | ((with_reducible apply OnlyR.ite) <;> intro _)
    | with_reducible apply OnlyR.next
    | ((with_reducible apply Only.step (storePoweredTime_only _)); focus rfl)

theorem writeBank_only (n : Nat) (rows : List (Nat × Nat)) (s : State) :
    Only [.banks, .scheds] s (writeBank n rows s) := by
  unfold writeBank
  repeat' first
    | with_reducible exact Only.refl _ _
    | with_reducible assumption
    | ((with_reducible apply Only.step (modBank_only _ _ _)); focus rfl)
    | ((with_reducible apply Only.step (modSched_only _ _ _)); focus rfl)

theorem moveSlices_only (from_ : Nat) (to_ : Nat) (s : State) :
    Only [.doms, .time, .cause, .counters, .events, .held, .model, .hbr, .banks, .awl, .scheds, .integ, .out] s (moveSlices from_ to_ s) := by
  unfold moveSlices
  repeat' first
    | with_reducible exact Only.refl _ _
    | with_reducible assumption
    | (extract_lets +onlyGivenNames x; refine (have hx : Only [.doms, .time, .cause, .counters, .events, .held, .model, .hbr, .banks, .awl, .scheds, .integ, .out] s x := ?_; ?_); unfold x; clear x; rotate_left; clear_value x; rotate_right)
    | (extract_lets +onlyGivenNames x; unfold x; clear x)
    | ((with_reducible apply Only.step (bumpBy_only _ _ _)); focus rfl)
    | ((with_reducible apply Only.step (modBank_only _ _ _)); focus rfl)
    | ((with_reducible apply Only.step (raise_only _ _ _ _)); focus rfl)
    | ((with_reducible apply Only.step (releaseBank_only _ _)); focus rfl)
    | (split)
    | ((with_reducible apply Only.upd); rotate_left; focus (intro p hp; cases p <;> first | rfl | exact ⟨rfl, rfl, rfl⟩ | exact absurd (by decide) hp))

theorem rebuilt_only (n : Nat) (s : State) :
    Only [.counters, .events, .held, .model, .banks, .scheds, .out] s (rebuilt n s) := by
  unfold rebuilt
  repeat' first
    | with_reducible exact Only.refl _ _
    | with_reducible assumption
    | (extract_lets +onlyGivenNames x; refine (have hx : Only [.counters, .events, .held, .model, .banks, .scheds, .out] s x := ?_; ?_); unfold x; clear x; rotate_left; clear_value x; rotate_right)
    | (extract_lets +onlyGivenNames x; unfold x; clear x)
    | ((with_reducible apply Only.step (bump_only _ _)); focus rfl)
    | ((with_reducible apply Only.step (modSched_only _ _ _)); focus rfl)
    | ((with_reducible apply Only.step (raise_only _ _ _ _)); focus rfl)
    | ((with_reducible apply Only.step (refreshDue_only _ _)); focus rfl)
    | ((with_reducible apply Only.upd); rotate_left; focus (intro p hp; cases p <;> first | rfl | exact ⟨rfl, rfl, rfl⟩ | exact absurd (by decide) hp))

theorem sealedMoves_only (t : Nat) (s : State) :
    Only [.doms, .time, .cause, .counters, .events, .held, .model, .hbr, .banks, .awl, .scheds, .integ, .out] s (sealedMoves t s) := by
  unfold sealedMoves
  repeat' first
    | with_reducible exact Only.refl _ _
    | with_reducible assumption
    | (extract_lets +onlyGivenNames x; refine (have hx : Only [.doms, .time, .cause, .counters, .events, .held, .model, .hbr, .banks, .awl, .scheds, .integ, .out] s x := ?_; ?_); unfold x; clear x; rotate_left; clear_value x; rotate_right)
    | (extract_lets +onlyGivenNames x; unfold x; clear x)
    | ((with_reducible apply Only.ite) <;> intro _)
    | ((with_reducible apply Only.step (modSched_only _ _ _)); focus rfl)
    | ((with_reducible apply Only.step (moveSlices_only _ _ _)); focus rfl)
    | ((with_reducible apply Only.step (rebuilt_only _ _)); focus rfl)
    | (split)
    | ((with_reducible apply Only.upd); rotate_left; focus (intro p hp; cases p <;> first | rfl | exact ⟨rfl, rfl, rfl⟩ | exact absurd (by decide) hp))

theorem sealIfStorage_only (n : Nat) (s : State) :
    Only [.doms, .time, .cause, .counters, .events, .held, .model, .hbr, .banks, .awl, .scheds, .integ, .out] s (sealIfStorage n s) := by
  unfold sealIfStorage
  repeat' first
    | with_reducible exact Only.refl _ _
    | with_reducible assumption
    | ((with_reducible apply Only.ite) <;> intro _)
    | ((with_reducible apply Only.step (sealNow_only _ _)); focus rfl)
    | ((with_reducible apply Only.step (sealedMoves_only _ _)); focus rfl)

theorem programInto_only (n : Nat) (t : Nat) (storage : Bool) (rows : List (Nat × Nat)) (s : State) :
    Only [.doms, .time, .cause, .counters, .events, .held, .model, .hbr, .banks, .awl, .scheds, .integ, .out] s (programInto n t storage rows s) := by
  unfold programInto
  repeat' first
    | with_reducible exact Only.refl _ _
    | with_reducible assumption
    | (extract_lets +onlyGivenNames x; refine (have hx : Only [.doms, .time, .cause, .counters, .events, .held, .model, .hbr, .banks, .awl, .scheds, .integ, .out] s x := ?_; ?_); unfold x; clear x; rotate_left; clear_value x; rotate_right)
    | ((with_reducible apply Only.step (modBank_only _ _ _)); focus rfl)
    | ((with_reducible apply Only.step (modSched_only _ _ _)); focus rfl)
    | ((with_reducible apply Only.step (sealIfStorage_only _ _)); focus rfl)
    | ((with_reducible apply Only.step (writeBank_only _ _ _)); focus rfl)

theorem rebuildFrom_only (bank : Nat) (target : Option Nat) (cols : List Nat) (rows : List (Nat × Nat)) (s : State) :
    Only [.doms, .time, .cause, .counters, .events, .held, .model, .hbr, .banks, .awl, .scheds, .integ, .out] s (rebuildFrom bank target cols rows s) := by
  unfold rebuildFrom
  repeat' first
    | with_reducible exact Only.refl _ _
    | with_reducible assumption
    | (extract_lets +onlyGivenNames x; refine (have hx : Only [.doms, .time, .cause, .counters, .events, .held, .model, .hbr, .banks, .awl, .scheds, .integ, .out] s x := ?_; ?_); unfold x; clear x; rotate_left; clear_value x; rotate_right)
    | (extract_lets +onlyGivenNames x; unfold x; clear x)
    | ((with_reducible apply Only.ite) <;> intro _)
    | ((with_reducible apply Only.step (markRetired_only _ _)); focus rfl)
    | ((with_reducible apply Only.step (modBank_only _ _ _)); focus rfl)
    | ((with_reducible apply Only.step (modSched_only _ _ _)); focus rfl)
    | ((with_reducible apply Only.step (programInto_only _ _ _ _ _)); focus rfl)
    | ((with_reducible apply Only.step (refreshSymptoms_only _ _)); focus rfl)
    | ((with_reducible apply Only.step (sealIfStorage_only _ _)); focus rfl)
    | (split)

theorem execRebuildCycle_only (bank : Nat) (target : Option Nat) (s : State) :
    OnlyR [.doms, .time, .cause, .counters, .events, .held, .model, .hbr, .banks, .awl, .scheds, .integ, .out] s (execRebuildCycle bank target s) := by
  unfold execRebuildCycle
  repeat' first
    | with_reducible exact Only.refl _ _
    | with_reducible assumption
    | with_reducible exact OnlyR.fault
    | with_reducible exact OnlyR.refused
    | (extract_lets +onlyGivenNames x; unfold x; clear x)
    | ((with_reducible apply OnlyR.ite) <;> intro _)
    | with_reducible apply OnlyR.next
    | ((with_reducible apply Only.step (bump_only _ _)); focus rfl)
    | ((with_reducible apply Only.step (flagBank_only _ _)); focus rfl)
    | ((with_reducible apply Only.step (markRetired_only _ _)); focus rfl)
    | ((with_reducible apply Only.step (modBank_only _ _ _)); focus rfl)
    | ((with_reducible apply Only.step (nvPoisoned_only _ _ _)); focus rfl)
    | ((with_reducible apply Only.step (rebuildFrom_only _ _ _ _ _)); focus rfl)
    | (split)
    | ((with_reducible apply Only.upd); rotate_left; focus (intro p hp; cases p <;> first | rfl | exact ⟨rfl, rfl, rfl⟩ | exact absurd (by decide) hp))

theorem sealTested_only (n : Nat) (s : State) :
    Only [.doms, .time, .cause, .counters, .events, .held, .model, .hbr, .banks, .awl, .scheds, .integ, .out] s (sealTested n s) := by
  unfold sealTested
  repeat' first
    | with_reducible exact Only.refl _ _
    | with_reducible assumption
    | ((with_reducible apply Only.ite) <;> intro _)
    | ((with_reducible apply Only.step (sealNow_only _ _)); focus rfl)
    | ((with_reducible apply Only.step (sealedMoves_only _ _)); focus rfl)

end Sys2Proof.Laws
end

