-- ==== Sys2Proof/Laws/FrameFlow.lean ====
section
/-! SUPPORT. For each function of dataflow, Ferries, Welts and Shanks that answers a state: the parts of the state that it may change. -/

namespace Sys2Proof.Laws

open Sys2Proof.Machine

theorem pushWork_only (w : GovWork) (s : State) :
    Only [.gov] s (pushWork w s) := by
  unfold pushWork
  repeat' first
    | with_reducible exact Only.refl _ _
    | with_reducible assumption
    | (extract_lets +onlyGivenNames x; unfold x; clear x)
    | ((with_reducible apply Only.upd); rotate_left; focus (intro p hp; cases p <;> first | rfl | exact ⟨rfl, rfl, rfl⟩ | exact absurd (by decide) hp))

theorem takeStanding_only (s : State) :
    Only [.power, .doms, .gov, .cause, .counters] s (takeStanding s) := by
  unfold takeStanding
  repeat' first
    | with_reducible exact Only.refl _ _
    | with_reducible assumption
    | (extract_lets +onlyGivenNames x; unfold x; clear x)
    | ((with_reducible apply Only.step (wantOn_only _ _)); focus rfl)
    | (split)
    | ((with_reducible apply Only.upd); rotate_left; focus (intro p hp; cases p <;> first | rfl | exact ⟨rfl, rfl, rfl⟩ | exact absurd (by decide) hp))

theorem sendHeld_only (port : BitVec 12) (p : List Flit) (poison : Bool) (s : State) :
    Only [.flow, .out] s (sendHeld port p poison s) := by
  unfold sendHeld
  repeat' first
    | with_reducible exact Only.refl _ _
    | with_reducible assumption
    | ((with_reducible apply Only.step (send_only _ _)); focus rfl)
    | ((with_reducible apply Only.upd); rotate_left; focus (intro p hp; cases p <;> first | rfl | exact ⟨rfl, rfl, rfl⟩ | exact absurd (by decide) hp))

theorem ackPacket_only (p : List Flit) (s : State) :
    Only [.flow] s (ackPacket p s) := by
  unfold ackPacket
  repeat' first
    | with_reducible exact Only.refl _ _
    | with_reducible assumption
    | (split)
    | ((with_reducible apply Only.upd); rotate_left; focus (intro p hp; cases p <;> first | rfl | exact ⟨rfl, rfl, rfl⟩ | exact absurd (by decide) hp))

theorem resendTo_only (port : BitVec 12) (s : State) :
    Only [.out] s (resendTo port s) := by
  unfold resendTo
  repeat' first
    | with_reducible exact Only.refl _ _
    | with_reducible assumption
    | ((with_reducible apply Only.step (send_only _ _)); focus rfl)
    | ((with_reducible apply Only.foldl); intro x a hx; try beta_reduce)

theorem resendLost_only (port : BitVec 12) (p : List Flit) (s : State) :
    Only [.cause, .counters, .events, .held, .out] s (resendLost port p s) := by
  unfold resendLost
  repeat' first
    | with_reducible exact Only.refl _ _
    | with_reducible assumption
    | (extract_lets +onlyGivenNames x; unfold x; clear x)
    | ((with_reducible apply Only.step (send_only _ _)); focus rfl)
    | (split)

theorem quarantineIsland_only (i : Nat) (s : State) :
    Only [.counters, .events, .held, .islands, .out] s (quarantineIsland i s) := by
  unfold quarantineIsland
  repeat' first
    | with_reducible exact Only.refl _ _
    | with_reducible assumption
    | (extract_lets +onlyGivenNames x; refine (have hx : Only [.counters, .events, .held, .islands, .out] s x := ?_; ?_); unfold x; clear x; rotate_left; clear_value x; rotate_right)
    | ((with_reducible apply Only.step (modIsland_only _ _ _)); focus rfl)
    | ((with_reducible apply Only.step (raise_only _ _ _ _)); focus rfl)

theorem reissueIsland_only (i : Nat) (s : State) :
    Only [.islands] s (reissueIsland i s) := by
  unfold reissueIsland
  repeat' first
    | with_reducible exact Only.refl _ _
    | with_reducible assumption
    | (extract_lets +onlyGivenNames x; unfold x; clear x)
    | ((with_reducible apply Only.step (modIsland_only _ _ _)); focus rfl)

theorem islandFailure_only (i : Nat) (s : State) :
    Only [.time, .counters, .events, .held, .islands, .integ, .out] s (islandFailure i s) := by
  unfold islandFailure
  repeat' first
    | with_reducible exact Only.refl _ _
    | with_reducible assumption
    | ((with_reducible apply Only.ite) <;> intro _)
    | ((with_reducible apply Only.step (countFailure_only _ _ _)); focus rfl)
    | ((with_reducible apply Only.step (quarantineIsland_only _ _)); focus rfl)
    | ((with_reducible apply Only.step (reissueIsland_only _ _)); focus rfl)

theorem moveStream_only (f : Nat) (k : Nat) (s : State) :
    Only [.flow] s (moveStream f k s) := by
  unfold moveStream
  repeat' first
    | with_reducible exact Only.refl _ _
    | with_reducible assumption
    | (extract_lets +onlyGivenNames x; refine (have hx : Only [.flow] s x := ?_; ?_); unfold x; clear x; rotate_left; clear_value x; rotate_right)
    | (extract_lets +onlyGivenNames x; unfold x; clear x)
    | ((with_reducible apply Only.step (modFerry_only _ _ _)); focus rfl)
    | (split)
    | ((with_reducible apply Only.upd); rotate_left; focus (intro p hp; cases p <;> first | rfl | exact ⟨rfl, rfl, rfl⟩ | exact absurd (by decide) hp))

theorem retireFerry_only (f : Nat) (s : State) :
    Only [.counters, .events, .held, .flow, .out] s (retireFerry f s) := by
  unfold retireFerry
  repeat' first
    | with_reducible exact Only.refl _ _
    | with_reducible assumption
    | (extract_lets +onlyGivenNames x; unfold x; clear x)
    | ((with_reducible apply Only.step (modFerry_only _ _ _)); focus rfl)
    | ((with_reducible apply Only.step (moveStream_only _ _ _)); focus rfl)
    | ((with_reducible apply Only.step (permanentEvent_only _ _ _)); focus rfl)
    | ((with_reducible apply Only.foldl); intro x a hx; try beta_reduce)

theorem moveCluster_only (c : Nat) (d : Nat) (s : State) :
    Only [.doms, .gov, .cause, .counters, .model, .islands, .clusters] s (moveCluster c d s) := by
  unfold moveCluster
  repeat' first
    | with_reducible exact Only.refl _ _
    | with_reducible assumption
    | (extract_lets +onlyGivenNames x; refine (have hx : Only [.doms, .gov, .cause, .counters, .model, .islands, .clusters] s x := ?_; ?_); unfold x; clear x; rotate_left; clear_value x; rotate_right)
    | (extract_lets +onlyGivenNames x; unfold x; clear x)
    | ((with_reducible apply Only.ite) <;> intro _)
    | ((with_reducible apply Only.step (modCluster_only _ _ _)); focus rfl)
    | ((with_reducible apply Only.step (pushWork_only _ _)); focus rfl)
    | ((with_reducible apply Only.step (wantOn_only _ _)); focus rfl)
    | (split)
    | ((with_reducible apply Only.upd); rotate_left; focus (intro p hp; cases p <;> first | rfl | exact ⟨rfl, rfl, rfl⟩ | exact absurd (by decide) hp))

theorem retireCluster_only (c : Nat) (s : State) :
    Only [.power, .doms, .gov, .cause, .counters, .events, .held, .model, .islands, .clusters, .out] s (retireCluster c s) := by
  unfold retireCluster
  repeat' first
    | with_reducible exact Only.refl _ _
    | with_reducible assumption
    | (extract_lets +onlyGivenNames x; refine (have hx : Only [.power, .doms, .gov, .cause, .counters, .events, .held, .model, .islands, .clusters, .out] s x := ?_; ?_); unfold x; clear x; rotate_left; clear_value x; rotate_right)
    | (extract_lets +onlyGivenNames x; unfold x; clear x)
    | ((with_reducible apply Only.ite) <;> intro _)
    | ((with_reducible apply Only.step (modCluster_only _ _ _)); focus rfl)
    | ((with_reducible apply Only.step (modDom_only _ _ _)); focus rfl)
    | ((with_reducible apply Only.step (moveCluster_only _ _ _)); focus rfl)
    | ((with_reducible apply Only.step (permanentEvent_only _ _ _)); focus rfl)
    | ((with_reducible apply Only.step (takeStanding_only _)); focus rfl)
    | (split)
    | ((with_reducible apply Only.upd); rotate_left; focus (intro p hp; cases p <;> first | rfl | exact ⟨rfl, rfl, rfl⟩ | exact absurd (by decide) hp))

theorem clusterFailure_only (c : Nat) (s : State) :
    Only [.power, .doms, .gov, .time, .cause, .counters, .events, .held, .model, .islands, .clusters, .integ, .out] s (clusterFailure c s) := by
  unfold clusterFailure
  repeat' first
    | with_reducible exact Only.refl _ _
    | with_reducible assumption
    | ((with_reducible apply Only.ite) <;> intro _)
    | ((with_reducible apply Only.step (countFailure_only _ _ _)); focus rfl)
    | ((with_reducible apply Only.step (modCluster_only _ _ _)); focus rfl)
    | ((with_reducible apply Only.step (retireCluster_only _ _)); focus rfl)

theorem ferryFailure_only (f : Nat) (s : State) :
    Only [.time, .counters, .events, .held, .flow, .integ, .out] s (ferryFailure f s) := by
  unfold ferryFailure
  repeat' first
    | with_reducible exact Only.refl _ _
    | with_reducible assumption
    | ((with_reducible apply Only.ite) <;> intro _)
    | ((with_reducible apply Only.step (countFailure_only _ _ _)); focus rfl)
    | ((with_reducible apply Only.step (retireFerry_only _ _)); focus rfl)

theorem modLaunch_only (l : Nat) (f : Launch → Launch) (s : State) :
    Only [.model] s (modLaunch l f s) := by
  unfold modLaunch
  repeat' first
    | with_reducible exact Only.refl _ _
    | with_reducible assumption
    | (split)
    | ((with_reducible apply Only.upd); rotate_left; focus (intro p hp; cases p <;> first | rfl | exact ⟨rfl, rfl, rfl⟩ | exact absurd (by decide) hp))

theorem modReq_only (a : Nat) (f : Req → Req) (s : State) :
    Only [.que] s (modReq a f s) := by
  unfold modReq
  repeat' first
    | with_reducible exact Only.refl _ _
    | with_reducible assumption
    | (split)
    | ((with_reducible apply Only.upd); rotate_left; focus (intro p hp; cases p <;> first | rfl | exact ⟨rfl, rfl, rfl⟩ | exact absurd (by decide) hp))

theorem modLace_only (n : Nat) (f : Lace → Lace) (s : State) :
    Only [.flow] s (modLace n f s) := by
  unfold modLace
  repeat' first
    | with_reducible exact Only.refl _ _
    | with_reducible assumption
    | (split)
    | ((with_reducible apply Only.upd); rotate_left; focus (intro p hp; cases p <;> first | rfl | exact ⟨rfl, rfl, rfl⟩ | exact absurd (by decide) hp))

theorem poolReturn_only (pool : Nat) (hs : List (BitVec 16)) (s : State) :
    Only [.flow] s (poolReturn pool hs s) := by
  unfold poolReturn
  repeat' first
    | with_reducible exact Only.refl _ _
    | with_reducible assumption
    | (extract_lets +onlyGivenNames x; unfold x; clear x)
    | ((with_reducible apply Only.upd); rotate_left; focus (intro p hp; cases p <;> first | rfl | exact ⟨rfl, rfl, rfl⟩ | exact absurd (by decide) hp))

theorem poolTake_only (pool : Nat) (n : Nat) (s : State) :
    Only [.flow] s (poolTake pool n s).2 := by
  unfold poolTake
  repeat' first
    | with_reducible exact Only.refl _ _
    | with_reducible assumption
    | (extract_lets +onlyGivenNames x; unfold x; clear x)
    | ((with_reducible apply Only.upd); rotate_left; focus (intro p hp; cases p <;> first | rfl | exact ⟨rfl, rfl, rfl⟩ | exact absurd (by decide) hp))

theorem laceTake_only (n : Nat) (reqs : List Nat) (vec off : Nat) (ferry : Bool) (s : State) (h : BitVec 16) (t : State) (e : laceTake n reqs vec off ferry s = some (h, t)) : Only [.model, .flow] s t := by
  unfold laceTake at e
  split at e
  · cases e
  · split at e
    · cases e
    · split at e
      · cases e
      · split at e
        · cases e
        · dsimp only at e
          cases e
          exact Only.step (modLace_only _ _ _) rfl ((modLaunch_only _ _ _).mono rfl)

theorem pushEntry_only (n : Nat) (e : LaceEntry) (s : State) :
    Only [.flow] s (pushEntry n e s) := by
  unfold pushEntry
  repeat' first
    | with_reducible exact Only.refl _ _
    | with_reducible assumption
    | ((with_reducible apply Only.step (modLace_only _ _ _)); focus rfl)

theorem clearReleased_only (h : BitVec 16) (s : State) :
    Only [.flow, .hbr] s (clearReleased h s) := by
  unfold clearReleased
  repeat' first
    | with_reducible exact Only.refl _ _
    | with_reducible assumption
    | (extract_lets +onlyGivenNames x; unfold x; clear x)
    | ((with_reducible apply Only.ite) <;> intro _)
    | (split)
    | ((with_reducible apply Only.upd); rotate_left; focus (intro p hp; cases p <;> first | rfl | exact ⟨rfl, rfl, rfl⟩ | exact absurd (by decide) hp))

theorem releaseHandle_only (n : Nat) (h : BitVec 16) (c : Nat) (s : State) :
    Only [.flow, .hbr] s (releaseHandle n h c s) := by
  unfold releaseHandle
  repeat' first
    | with_reducible exact Only.refl _ _
    | with_reducible assumption
    | ((with_reducible apply Only.step (clearReleased_only _ _)); focus rfl)
    | ((with_reducible apply Only.step (modLace_only _ _ _)); focus rfl)

theorem setHomeJoins_only (home : Nat) (t : Tab Join) (s : State) :
    Only [.islands, .clusters] s (setHomeJoins home t s) := by
  unfold setHomeJoins
  repeat' first
    | with_reducible exact Only.refl _ _
    | with_reducible assumption
    | ((with_reducible apply Only.ite) <;> intro _)
    | ((with_reducible apply Only.step (modCluster_only _ _ _)); focus rfl)
    | ((with_reducible apply Only.step (modIsland_only _ _ _)); focus rfl)

theorem modJoin_only (home : Nat) (id : Nat) (f : Join → Join) (s : State) :
    Only [.islands, .clusters] s (modJoin home id f s) := by
  unfold modJoin
  repeat' first
    | with_reducible exact Only.refl _ _
    | with_reducible assumption
    | ((with_reducible apply Only.step (setHomeJoins_only _ _ _)); focus rfl)
    | (split)

theorem countOut_only (a : Nat) (n : Nat) (s : State) :
    Only [.que] s (countOut a n s) := by
  unfold countOut
  repeat' first
    | with_reducible exact Only.refl _ _
    | with_reducible assumption
    | ((with_reducible apply Only.step (modReq_only _ _ _)); focus rfl)

theorem deliverWake_only (l : Nat) (lace : Nat) (s : State) :
    Only [.doms, .cause, .counters] s (deliverWake l lace s) := by
  unfold deliverWake
  repeat' first
    | with_reducible exact Only.refl _ _
    | with_reducible assumption
    | ((with_reducible apply Only.step (runWake_only _ _ _)); focus rfl)
    | (split)

theorem deliver_only (port : BitVec 12) (l lace plan vec fmt : Nat) (o : JoinOut) (special : Bool) (s : State) :
    OnlyO [.time, .cause, .counters, .events, .que, .held, .model, .flow, .hbr, .integ, .out] s (deliver port l lace plan vec fmt o special s) := by
  unfold deliver
  split
  · exact OnlyO.none
  · split
    · split
      · exact OnlyO.none
      · rename_i s1 e
        have h1 := laceTake_only _ _ _ _ _ _ _ _ e
        refine OnlyO.some (Only.step (countOut_only _ _ _) rfl ?_)
        have h2 := fun (f : Launch → Launch) (w : Nat) (en : LaceEntry) (a : Nat) (d : Bytes) (bad : List Bool) =>
          Only.step (modLaunch_only l f _) (P := [.time, .cause, .counters, .events, .que, .held, .model, .flow, .hbr, .integ, .out]) rfl (Only.step (pushEntry_only w en _) rfl
            (Only.step (storeMarked_only port a d bad _) rfl (h1.mono rfl)))
        split
        · exact Only.step (modReq_only _ _ _) rfl (h2 _ _ _ _ _ _)
        · exact h2 _ _ _ _ _ _
    · exact OnlyO.none

theorem forwardHere_only (home : Nat) (j : Join) (plan : Nat) (s : State) :
    Only [.cause, .counters, .events, .held, .flow, .out] s (forwardHere home j plan s) := by
  unfold forwardHere
  repeat' first
    | with_reducible exact Only.refl _ _
    | with_reducible assumption
    | (extract_lets +onlyGivenNames x; unfold x; clear x)
    | ((with_reducible apply Only.step (sendHeld_only _ _ _ _)); focus rfl)
    | (split)

theorem forwardJoin_only (home : Nat) (j : Join) (rank : Nat) (join : Nat) (s : State) :
    Only [.cause, .counters, .events, .held, .flow, .out, .free] s (forwardJoin home j rank join s) := by
  unfold forwardJoin
  repeat' first
    | with_reducible exact Only.refl _ _
    | with_reducible assumption
    | (extract_lets +onlyGivenNames x; unfold x; clear x)
    | ((with_reducible apply Only.ite) <;> intro _)
    | ((with_reducible apply Only.step (bump_only _ _)); focus rfl)
    | ((with_reducible apply Only.step (forwardHere_only _ _ _ _)); focus rfl)
    | ((with_reducible apply Only.step (sendHeld_only _ _ _ _)); focus rfl)
    | ((with_reducible apply Only.step (takeFree_only _)); focus rfl)

theorem limbFailure_only (home : Nat) (s : State) :
    Only [.power, .doms, .gov, .time, .cause, .counters, .events, .held, .model, .islands, .clusters, .integ, .out] s (limbFailure home s) := by
  unfold limbFailure
  repeat' first
    | with_reducible exact Only.refl _ _
    | with_reducible assumption
    | ((with_reducible apply Only.ite) <;> intro _)
    | ((with_reducible apply Only.step (clusterFailure_only _ _)); focus rfl)
    | ((with_reducible apply Only.step (islandFailure_only _ _)); focus rfl)
    | ((with_reducible apply Only.step (uncorrectable_only _ _ _)); focus rfl)

theorem limbRead_only (home : Nat) (touched : Nat → Bool) (j : Join) (s : State) :
    Only [.power, .doms, .gov, .time, .cause, .counters, .events, .held, .model, .islands, .clusters, .integ, .out] s (limbRead home touched j s).2 := by
  refine List.foldlRecOn (motive := fun x : Join × State => Only [.power, .doms, .gov, .time, .cause, .counters, .events, .held, .model, .islands, .clusters, .integ, .out] s x.2) _ _ (Only.refl _ _) ?_
  rintro ⟨j, t⟩ h e -
  dsimp only
  split
  · exact h
  · split
    · exact h
    · exact h
    · exact Only.step (correctedError_only _ _ _ _ _) rfl h
    · exact Only.step (correctedError_only _ _ _ _ _) rfl h
    · exact Only.step (limbFailure_only _ _) rfl h

theorem joinRead_only (home : Nat) (id : Nat) (s : State) :
    Only [.power, .doms, .gov, .time, .cause, .counters, .events, .held, .model, .islands, .clusters, .integ, .out] s (joinRead home id s) := by
  unfold joinRead
  repeat' first
    | with_reducible exact Only.refl _ _
    | with_reducible assumption
    | ((with_reducible apply Only.ite) <;> intro _)
    | ((with_reducible apply Only.step (limbRead_only _ _ _ _)); focus rfl)
    | ((with_reducible apply Only.step (setHomeJoins_only _ _ _)); focus rfl)
    | (split)

theorem endJoin_only (home : Nat) (id : Nat) (j : Join) (x : Launch) (ending : JoinEnd) (s : State) :
    Only [.doms, .time, .cause, .counters, .events, .que, .held, .model, .flow, .hbr, .islands, .clusters, .integ, .out, .free] s (endJoin home id j x ending s) := by
  unfold endJoin
  split
  · rename_i rank join
    have h := Only.step (modLaunch_only j.launch (fun x => { x with delivered := x.delivered ++ [(j.plan, j.vec)] }) _)
      (P := [.doms, .time, .cause, .counters, .events, .que, .held, .model, .flow, .hbr, .islands, .clusters, .integ, .out, .free]) rfl (Only.step (setHomeJoins_only home (tdel (homeJoins s home) id) _) rfl
        ((forwardJoin_only home j rank join s).mono rfl))
    dsimp only
    split
    · exact Only.step (countOut_only _ _ _) rfl h
    · exact h
  · dsimp only
    split
    · exact (deliverWake_only _ _ _).mono rfl
    · split
      · exact Only.refl _ _
      · exact Only.step (setHomeJoins_only _ _ _) rfl (Only.step (bumpBy_only _ _ _) rfl (Only.step (bumpBy_only _ _ _) rfl
          (Only.step (bumpBy_only _ _ _) rfl ((deliver_only _ _ _ _ _ _ _ _ _ _ ‹_›).mono rfl))))

theorem settleJoin_only (home : Nat) (id : Nat) (s₀ : State) :
    Only [.power, .doms, .gov, .time, .cause, .counters, .events, .que, .held, .model, .flow, .hbr, .islands, .clusters, .integ, .out, .free] s₀ (settleJoin home id s₀) := by
  unfold settleJoin
  repeat' first
    | with_reducible exact Only.refl _ _
    | with_reducible assumption
    | (extract_lets +onlyGivenNames x; refine (have hx : Only [.power, .doms, .gov, .time, .cause, .counters, .events, .que, .held, .model, .flow, .hbr, .islands, .clusters, .integ, .out, .free] s₀ x := ?_; ?_); unfold x; clear x; rotate_left; clear_value x; rotate_right)
    | (extract_lets +onlyGivenNames x; unfold x; clear x)
    | ((with_reducible apply Only.ite) <;> intro _)
    | ((with_reducible apply Only.step (endJoin_only _ _ _ _ _ _)); focus rfl)
    | ((with_reducible apply Only.step (forwardHere_only _ _ _ _)); focus rfl)
    | ((with_reducible apply Only.step (joinRead_only _ _ _)); focus rfl)
    | ((with_reducible apply Only.step (setHomeJoins_only _ _ _)); focus rfl)
    | (split)

theorem settleLaunch_only (l : Nat) (s : State) :
    Only [.power, .doms, .gov, .time, .cause, .counters, .events, .que, .held, .model, .flow, .hbr, .islands, .clusters, .integ, .out, .free] s (settleLaunch l s) := by
  unfold settleLaunch
  repeat' first
    | with_reducible exact Only.refl _ _
    | with_reducible assumption
    | ((with_reducible apply Only.step (settleJoin_only _ _ _)); focus rfl)
    | ((with_reducible apply Only.foldl); intro x a hx; try beta_reduce)

theorem endLaunch_only (l : Nat) (s : State) :
    Only [.model, .flow, .strait] s (endLaunch l s) := by
  unfold endLaunch
  repeat' first
    | with_reducible exact Only.refl _ _
    | with_reducible assumption
    | (extract_lets +onlyGivenNames x; refine (have hx : Only [.model, .flow, .strait] s x := ?_; ?_); unfold x; clear x; rotate_left; clear_value x; rotate_right)
    | (extract_lets +onlyGivenNames x; unfold x; clear x)
    | ((with_reducible apply Only.ite) <;> intro _)
    | ((with_reducible apply Only.step (poolReturn_only _ _ _)); focus rfl)
    | (split)
    | ((with_reducible apply Only.upd); rotate_left; focus (intro p hp; cases p <;> first | rfl | exact ⟨rfl, rfl, rfl⟩ | exact absurd (by decide) hp))

theorem endFor_only (a : Nat) (s : State) :
    Only [.model, .flow, .strait] s (endFor a s) := by
  unfold endFor
  repeat' first
    | with_reducible exact Only.refl _ _
    | with_reducible assumption
    | ((with_reducible apply Only.step (endLaunch_only _ _)); focus rfl)
    | ((with_reducible apply Only.foldl); intro x a hx; try beta_reduce)

theorem dropCharge_only (l : Nat) (s : State) :
    Only [.model] s (dropCharge l s) := by
  unfold dropCharge
  repeat' first
    | with_reducible exact Only.refl _ _
    | with_reducible assumption
    | (extract_lets +onlyGivenNames x; unfold x; clear x)
    | ((with_reducible apply Only.ite) <;> intro _)
    | ((with_reducible apply Only.step (modLaunch_only _ _ _)); focus rfl)

theorem setConsumer_only (n : Nat) (c : Nat) (x : LaceConsumer) (s : State) :
    Only [.flow] s (setConsumer n c x s) := by
  unfold setConsumer
  repeat' first
    | with_reducible exact Only.refl _ _
    | with_reducible assumption
    | ((with_reducible apply Only.step (modLace_only _ _ _)); focus rfl)

theorem markFinals_only (i : Nat) (t : Nat) (s : State) :
    Only [.power, .doms, .gov, .time, .cause, .counters, .events, .que, .held, .model, .flow, .hbr, .islands, .clusters, .integ, .strait, .out, .free] s (markFinals i t s) := by
  unfold markFinals
  repeat' first
    | with_reducible exact Only.refl _ _
    | with_reducible assumption
    | (extract_lets +onlyGivenNames x; refine (have hx : Only [.power, .doms, .gov, .time, .cause, .counters, .events, .que, .held, .model, .flow, .hbr, .islands, .clusters, .integ, .strait, .out, .free] s x := ?_; ?_); unfold x; clear x; rotate_left; clear_value x; rotate_right)
    | (extract_lets +onlyGivenNames x; unfold x; clear x)
    | ((with_reducible apply Only.ite) <;> intro _)
    | ((with_reducible apply Only.step (dropCharge_only _ _)); focus rfl)
    | ((with_reducible apply Only.step (endLaunch_only _ _)); focus rfl)
    | ((with_reducible apply Only.step (modIsland_only _ _ _)); focus rfl)
    | ((with_reducible apply Only.step (modJoin_only _ _ _ _)); focus rfl)
    | ((with_reducible apply Only.step (settleLaunch_only _ _)); focus rfl)
    | ((with_reducible apply Only.foldl); intro x a hx; try beta_reduce)
    | (split)

theorem markLaunch_only (l : Nat) (s : State) :
    Only [.power, .doms, .gov, .time, .cause, .counters, .events, .que, .held, .model, .flow, .hbr, .islands, .clusters, .integ, .strait, .out, .free] s (markLaunch l s) := by
  unfold markLaunch
  repeat' first
    | with_reducible exact Only.refl _ _
    | with_reducible assumption
    | ((with_reducible apply Only.ite) <;> intro _)
    | ((with_reducible apply Only.step (markFinals_only _ _ _)); focus rfl)
    | ((with_reducible apply Only.foldl); intro x a hx; try beta_reduce)

theorem pushFilled_only (port : BitVec 12) (n : Nat) (o : OpenSlab) (planes : Bool) (last : Bool) (late : Bool) (s : State) :
    Only [.time, .cause, .counters, .events, .held, .flow, .hbr, .integ, .out] s (pushFilled port n o planes last late s) := by
  unfold pushFilled
  repeat' first
    | with_reducible exact Only.refl _ _
    | with_reducible assumption
    | (extract_lets +onlyGivenNames x; unfold x; clear x)
    | ((with_reducible apply Only.step (pushEntry_only _ _ _)); focus rfl)
    | ((with_reducible apply Only.step (storeRun_only _ _ _ _ _)); focus rfl)
    | (split)

theorem markLate_only (as_ : List Nat) (s : State) :
    Only [.counters, .que] s (markLate as_ s) := by
  unfold markLate
  repeat' first
    | with_reducible exact Only.refl _ _
    | with_reducible assumption
    | ((with_reducible apply Only.ite) <;> intro _)
    | ((with_reducible apply Only.step (bump_only _ _)); focus rfl)
    | ((with_reducible apply Only.step (modReq_only _ _ _)); focus rfl)
    | ((with_reducible apply Only.foldl); intro x a hx; try beta_reduce)

theorem flushOpen_only (n : Nat) (s : State) :
    Only [.time, .cause, .counters, .events, .que, .held, .flow, .hbr, .integ, .out] s (flushOpen n s) := by
  unfold flushOpen
  repeat' first
    | with_reducible exact Only.refl _ _
    | with_reducible assumption
    | (extract_lets +onlyGivenNames x; unfold x; clear x)
    | ((with_reducible apply Only.ite) <;> intro _)
    | ((with_reducible apply Only.step (markLate_only _ _)); focus rfl)
    | ((with_reducible apply Only.step (modLace_only _ _ _)); focus rfl)
    | ((with_reducible apply Only.step (pushFilled_only _ _ _ _ _ _ _)); focus rfl)
    | (split)

theorem dropGroups_only (l : Nat) (start : Nat) (n : Nat) (s : State) :
    Only [.islands] s (dropGroups l start n s) := by
  unfold dropGroups
  repeat' first
    | with_reducible exact Only.refl _ _
    | with_reducible assumption
    | (extract_lets +onlyGivenNames x; unfold x; clear x)
    | (split)
    | ((with_reducible apply Only.upd); rotate_left; focus (intro p hp; cases p <;> first | rfl | exact ⟨rfl, rfl, rfl⟩ | exact absurd (by decide) hp))

theorem dropJoins_only (l : Nat) (start : Nat) (n : Nat) (s : State) :
    Only [.model, .islands, .clusters] s (dropJoins l start n s) := by
  unfold dropJoins
  repeat' first
    | with_reducible exact Only.refl _ _
    | with_reducible assumption
    | (extract_lets +onlyGivenNames x; refine (have hx : Only [.model, .islands, .clusters] s x := ?_; ?_); unfold x; clear x; rotate_left; clear_value x; rotate_right)
    | (extract_lets +onlyGivenNames x; unfold x; clear x)
    | ((with_reducible apply Only.step (modLaunch_only _ _ _)); focus rfl)
    | ((with_reducible apply Only.upd); rotate_left; focus (intro p hp; cases p <;> first | rfl | exact ⟨rfl, rfl, rfl⟩ | exact absurd (by decide) hp))

theorem recallLace_only (n : Nat) (a : Nat) (s : State) :
    Only [.time, .cause, .counters, .events, .que, .held, .flow, .hbr, .integ, .out] s (recallLace n a s) := by
  unfold recallLace
  repeat' first
    | with_reducible exact Only.refl _ _
    | with_reducible assumption
    | (extract_lets +onlyGivenNames x; refine (have hx : Only [.time, .cause, .counters, .events, .que, .held, .flow, .hbr, .integ, .out] s x := ?_; ?_); unfold x; clear x; rotate_left; clear_value x; rotate_right)
    | (extract_lets +onlyGivenNames x; unfold x; clear x)
    | ((with_reducible apply Only.step (bumpBy_only _ _ _)); focus rfl)
    | ((with_reducible apply Only.step (clearReleased_only _ _)); focus rfl)
    | ((with_reducible apply Only.step (flushOpen_only _ _)); focus rfl)
    | ((with_reducible apply Only.step (modLace_only _ _ _)); focus rfl)
    | ((with_reducible apply Only.foldl); intro x a hx; try beta_reduce)
    | (split)

theorem stopInLaunch_only (a : Nat) (l : Nat) (s : State) :
    Only [.power, .doms, .gov, .time, .cause, .counters, .events, .que, .held, .model, .flow, .hbr, .islands, .clusters, .integ, .strait, .out, .free] s (stopInLaunch a l s) := by
  unfold stopInLaunch
  repeat' first
    | with_reducible exact Only.refl _ _
    | with_reducible assumption
    | (extract_lets +onlyGivenNames x; refine (have hx : Only [.power, .doms, .gov, .time, .cause, .counters, .events, .que, .held, .model, .flow, .hbr, .islands, .clusters, .integ, .strait, .out, .free] s x := ?_; ?_); unfold x; clear x; rotate_left; clear_value x; rotate_right)
    | (extract_lets +onlyGivenNames x; unfold x; clear x)
    | ((with_reducible apply Only.ite) <;> intro _)
    | ((with_reducible apply Only.step (dropGroups_only _ _ _ _)); focus rfl)
    | ((with_reducible apply Only.step (dropJoins_only _ _ _ _)); focus rfl)
    | ((with_reducible apply Only.step (endLaunch_only _ _)); focus rfl)
    | ((with_reducible apply Only.step (markLaunch_only _ _)); focus rfl)
    | ((with_reducible apply Only.step (modLaunch_only _ _ _)); focus rfl)
    | ((with_reducible apply Only.step (recallLace_only _ _ _)); focus rfl)
    | ((with_reducible apply Only.step (settleLaunch_only _ _)); focus rfl)
    | ((with_reducible apply Only.foldl); intro x a hx; try beta_reduce)
    | (split)
    | ((with_reducible apply Only.upd); rotate_left; focus (intro p hp; cases p <;> first | rfl | exact ⟨rfl, rfl, rfl⟩ | exact absurd (by decide) hp))

theorem recallRequest_only (a : Nat) (s : State) :
    Only [.power, .doms, .gov, .time, .cause, .counters, .events, .que, .held, .model, .flow, .hbr, .islands, .clusters, .integ, .strait, .out, .free] s (recallRequest a s) := by
  unfold recallRequest
  repeat' first
    | with_reducible exact Only.refl _ _
    | with_reducible assumption
    | (extract_lets +onlyGivenNames x; refine (have hx : Only [.power, .doms, .gov, .time, .cause, .counters, .events, .que, .held, .model, .flow, .hbr, .islands, .clusters, .integ, .strait, .out, .free] s x := ?_; ?_); unfold x; clear x; rotate_left; clear_value x; rotate_right)
    | (extract_lets +onlyGivenNames x; unfold x; clear x)
    | ((with_reducible apply Only.step (stopInLaunch_only _ _ _)); focus rfl)
    | ((with_reducible apply Only.foldl); intro x a hx; try beta_reduce)
    | ((with_reducible apply Only.upd); rotate_left; focus (intro p hp; cases p <;> first | rfl | exact ⟨rfl, rfl, rfl⟩ | exact absurd (by decide) hp))

theorem noteKv_only (ctx : Nat) (s : State) :
    Only [.hbr] s (noteKv ctx s) := by
  unfold noteKv
  repeat' first
    | with_reducible exact Only.refl _ _
    | with_reducible assumption
    | (extract_lets +onlyGivenNames x; unfold x; clear x)
    | ((with_reducible apply Only.step (ctxWrite_only _ _ _ _)); focus rfl)

theorem revertKv_only (a : Nat) (s : State) :
    Only [.que, .flow, .hbr] s (revertKv a s) := by
  unfold revertKv
  repeat' first
    | with_reducible exact Only.refl _ _
    | with_reducible assumption
    | (extract_lets +onlyGivenNames x; refine (have hx : Only [.que, .flow, .hbr] s x := ?_; ?_); unfold x; clear x; rotate_left; clear_value x; rotate_right)
    | (extract_lets +onlyGivenNames x; unfold x; clear x)
    | ((with_reducible apply Only.ite) <;> intro _)
    | ((with_reducible apply Only.step (noteKv_only _ _)); focus rfl)
    | ((with_reducible apply Only.step (poolReturn_only _ _ _)); focus rfl)
    | (split)
    | ((with_reducible apply Only.upd); rotate_left; focus (intro p hp; cases p <;> first | rfl | exact ⟨rfl, rfl, rfl⟩ | exact absurd (by decide) hp))

theorem stopRequest_only (a : Nat) (status : Nat) (detail : Nat) (discarded : Bool) (s : State) :
    Only [.power, .doms, .gov, .time, .cause, .counters, .events, .monitors, .que, .held, .model, .flow, .hbr, .islands, .clusters, .integ, .strait, .out, .free] s (stopRequest a status detail discarded s) := by
  unfold stopRequest
  repeat' first
    | with_reducible exact Only.refl _ _
    | with_reducible assumption
    | (extract_lets +onlyGivenNames x; refine (have hx : Only [.power, .doms, .gov, .time, .cause, .counters, .events, .monitors, .que, .held, .model, .flow, .hbr, .islands, .clusters, .integ, .strait, .out, .free] s x := ?_; ?_); unfold x; clear x; rotate_left; clear_value x; rotate_right)
    | ((with_reducible apply Only.ite) <;> intro _)
    | ((with_reducible apply Only.step (finish_only _ _ _)); focus rfl)
    | ((with_reducible apply Only.step (modReq_only _ _ _)); focus rfl)
    | ((with_reducible apply Only.step (recallRequest_only _ _)); focus rfl)
    | ((with_reducible apply Only.step (revertKv_only _ _)); focus rfl)
    | (split)

theorem countMiss_only (a : Nat) (s : State) :
    Only [.counters, .events, .held, .out] s (countMiss a s) := by
  unfold countMiss
  repeat' first
    | with_reducible exact Only.refl _ _
    | with_reducible assumption
    | ((with_reducible apply Only.step (bump_only _ _)); focus rfl)
    | ((with_reducible apply Only.step (raise_only _ _ _ _)); focus rfl)

theorem discardRequest_only (a : Nat) (s : State) :
    Only [.power, .doms, .gov, .time, .cause, .counters, .events, .monitors, .que, .held, .model, .flow, .hbr, .islands, .clusters, .integ, .strait, .out, .free] s (discardRequest a s) := by
  unfold discardRequest
  repeat' first
    | with_reducible exact Only.refl _ _
    | with_reducible assumption
    | ((with_reducible apply Only.ite) <;> intro _)
    | ((with_reducible apply Only.step (bump_only _ _)); focus rfl)
    | ((with_reducible apply Only.step (countMiss_only _ _)); focus rfl)
    | ((with_reducible apply Only.step (stopRequest_only _ _ _ _ _)); focus rfl)
    | (split)

theorem discardLate_only (s : State) :
    Only [.power, .doms, .gov, .time, .cause, .counters, .events, .monitors, .que, .held, .model, .flow, .hbr, .islands, .clusters, .integ, .strait, .out, .free] s (discardLate s) := by
  unfold discardLate
  repeat' first
    | with_reducible exact Only.refl _ _
    | with_reducible assumption
    | ((with_reducible apply Only.ite) <;> intro _)
    | ((with_reducible apply Only.step (discardRequest_only _ _)); focus rfl)
    | ((with_reducible apply Only.foldl); intro x a hx; try beta_reduce)

theorem lateSlabs_only (as_ : List Nat) (s : State) :
    Only [.power, .doms, .gov, .time, .cause, .counters, .events, .monitors, .que, .held, .model, .flow, .hbr, .islands, .clusters, .integ, .strait, .out, .free] s (lateSlabs as_ s) := by
  unfold lateSlabs
  repeat' first
    | with_reducible exact Only.refl _ _
    | with_reducible assumption
    | ((with_reducible apply Only.ite) <;> intro _)
    | ((with_reducible apply Only.step (discardLate_only _)); focus rfl)
    | ((with_reducible apply Only.step (markLate_only _ _)); focus rfl)

theorem lateSlab_only (a : Nat) (s : State) :
    Only [.power, .doms, .gov, .time, .cause, .counters, .events, .monitors, .que, .held, .model, .flow, .hbr, .islands, .clusters, .integ, .strait, .out, .free] s (lateSlab a s) := by
  unfold lateSlab
  repeat' first
    | with_reducible exact Only.refl _ _
    | with_reducible assumption
    | ((with_reducible apply Only.step (lateSlabs_only _ _)); focus rfl)

theorem execHandleRelease_only (handle : BitVec 16) (consumer : Nat) (s : State) :
    OnlyR [.flow, .hbr] s (execHandleRelease handle consumer s) := by
  unfold execHandleRelease
  repeat' first
    | with_reducible exact Only.refl _ _
    | with_reducible assumption
    | ((with_reducible apply OnlyR.ite) <;> intro _)
    | with_reducible apply OnlyR.next
    | ((with_reducible apply Only.step (releaseHandle_only _ _ _ _)); focus rfl)
    | (split)

theorem mcastReturn_only (l : Nat) (hw : Nat) (h : BitVec 16) (again : Bool) (s : State) :
    Only [.strait, .out] s (mcastReturn l hw h again s).1 := by
  unfold mcastReturn
  repeat' first
    | with_reducible exact Only.refl _ _
    | with_reducible assumption
    | (extract_lets +onlyGivenNames x; refine (have hx : Only [.strait, .out] s x := ?_; ?_); unfold x; clear x; rotate_left; clear_value x; rotate_right)
    | (extract_lets +onlyGivenNames x; unfold x; clear x)
    | ((with_reducible apply Only.ite1) <;> intro _)
    | ((with_reducible apply Only.step (sendCtl_only _ _ _ _)); focus rfl)
    | (split)

theorem execSlabCleared_only (handle : BitVec 16) (s : State) :
    OnlyR [.power, .doms, .gov, .time, .cause, .counters, .events, .que, .held, .model, .flow, .hbr, .islands, .clusters, .integ, .strait, .out, .free] s (execSlabCleared handle s) := by
  unfold execSlabCleared
  repeat' first
    | with_reducible exact Only.refl _ _
    | with_reducible assumption
    | (extract_lets +onlyGivenNames x; refine (have hx : Only [.power, .doms, .gov, .time, .cause, .counters, .events, .que, .held, .model, .flow, .hbr, .islands, .clusters, .integ, .strait, .out, .free] s x := ?_; ?_); unfold x; clear x; rotate_left; clear_value x; rotate_right)
    | (extract_lets +onlyGivenNames x; unfold x; clear x)
    | ((with_reducible apply Only.ite) <;> intro _)
    | with_reducible apply OnlyR.next
    | ((with_reducible apply Only.step (endLaunch_only _ _)); focus rfl)
    | ((with_reducible apply Only.step (mcastReturn_only _ _ _ _ _)); focus rfl)
    | ((with_reducible apply Only.step (modLace_only _ _ _)); focus rfl)
    | ((with_reducible apply Only.step (modLaunch_only _ _ _)); focus rfl)
    | ((with_reducible apply Only.step (noteCleared_only _ _)); focus rfl)
    | ((with_reducible apply Only.step (poolReturn_only _ _ _)); focus rfl)
    | ((with_reducible apply Only.step (serveWaiting_only _)); focus rfl)
    | ((with_reducible apply Only.step (settleLaunch_only _ _)); focus rfl)
    | (split)
    | ((with_reducible apply Only.upd); rotate_left; focus (intro p hp; cases p <;> first | rfl | exact ⟨rfl, rfl, rfl⟩ | exact absurd (by decide) hp))

theorem feedVector_only (l : Nat) (n : Nat) (v : Nat) (f : Join → Join) (s : State) :
    Only [.islands, .clusters] s (feedVector l n v f s) := by
  unfold feedVector
  repeat' first
    | with_reducible exact Only.refl _ _
    | with_reducible assumption
    | (extract_lets +onlyGivenNames x; unfold x; clear x)
    | ((with_reducible apply Only.step (modJoin_only _ _ _ _)); focus rfl)
    | ((with_reducible apply Only.foldl); intro x a hx; try beta_reduce)
    | (split)

theorem addTile_only (c : Nat) (t : Tile) (s : State) :
    Only [.gov, .clusters] s (addTile c t s) := by
  unfold addTile
  repeat' first
    | with_reducible exact Only.refl _ _
    | with_reducible assumption
    | (extract_lets +onlyGivenNames x; refine (have hx : Only [.gov, .clusters] s x := ?_; ?_); unfold x; clear x; rotate_left; clear_value x; rotate_right)
    | ((with_reducible apply Only.ite) <;> intro _)
    | ((with_reducible apply Only.step (modCluster_only _ _ _)); focus rfl)
    | ((with_reducible apply Only.step (pushWork_only _ _)); focus rfl)

theorem vectorTiles_only (l : Nat) (n : Nat) (c : Nat) (v : Nat) (xs : List Int) (special : Bool) (poison : Bool) (s : State) :
    Only [.gov, .clusters] s (vectorTiles l n c v xs special poison s) := by
  unfold vectorTiles
  repeat' first
    | with_reducible exact Only.refl _ _
    | with_reducible assumption
    | (extract_lets +onlyGivenNames x; refine (have hx : Only [.gov, .clusters] s x := ?_; ?_); unfold x; clear x; rotate_left; clear_value x; rotate_right)
    | (extract_lets +onlyGivenNames x; unfold x; clear x)
    | ((with_reducible apply Only.ite) <;> intro _)
    | ((with_reducible apply Only.step (addTile_only _ _ _)); focus rfl)
    | ((with_reducible apply Only.foldl); intro x a hx; try beta_reduce)
    | (split)

theorem clusterVector_only (l : Nat) (n : Nat) (c : Nat) (k : LaceConsumer) (s : State) :
    Only [.gov, .islands, .clusters] s (clusterVector l n c k s) := by
  unfold clusterVector
  repeat' first
    | with_reducible exact Only.refl _ _
    | with_reducible assumption
    | (extract_lets +onlyGivenNames x; unfold x; clear x)
    | ((with_reducible apply Only.ite) <;> intro _)
    | ((with_reducible apply Only.step (feedVector_only _ _ _ _ _)); focus rfl)
    | ((with_reducible apply Only.step (vectorTiles_only _ _ _ _ _ _ _ _)); focus rfl)

theorem clusterBlocks_only (nb l n c : Nat) (slab : Bytes) (bad : Bool) (rs : List BlockRef) (k : LaceConsumer) (s : State) :
    Only [.gov, .islands, .clusters] s (clusterBlocks nb l n c slab bad rs k s).2 := by
  induction rs generalizing k s with
  | nil => exact Only.refl _ _
  | cons r t ih =>
    unfold clusterBlocks
    dsimp only
    refine Only.step (ih _ _) rfl ?_
    split
    · exact (clusterVector_only _ _ _ _ _).mono rfl
    · exact Only.refl _ _

theorem stepGather_only (l c n : Nat) (s : State) : Only [.gov, .flow, .clusters] s (stepGather l c n s) := by
  induction n generalizing s with
  | zero => exact Only.refl _ _
  | succ n ih =>
    unfold stepGather
    split
    · exact Only.refl _ _
    · dsimp only
      split
      · exact Only.refl _ _
      · refine Only.step (ih _) rfl ?_
        refine Only.ite (fun _ => Only.step (addTile_only _ _ _) rfl ?_) (fun _ => ?_)
        all_goals exact Only.foldl (fun x a hx => Only.step (setConsumer_only _ _ _ _) rfl hx) (Only.refl _ _)

theorem poisonVectors_only (n : Nat) (a : Nat) (s : State) :
    Only [.power, .doms, .gov, .time, .cause, .counters, .events, .que, .held, .model, .flow, .hbr, .islands, .clusters, .integ, .strait, .out, .free] s (poisonVectors n a s) := by
  unfold poisonVectors
  repeat' first
    | with_reducible exact Only.refl _ _
    | with_reducible assumption
    | (extract_lets +onlyGivenNames x; refine (have hx : Only [.power, .doms, .gov, .time, .cause, .counters, .events, .que, .held, .model, .flow, .hbr, .islands, .clusters, .integ, .strait, .out, .free] s x := ?_; ?_); unfold x; clear x; rotate_left; clear_value x; rotate_right)
    | (extract_lets +onlyGivenNames x; unfold x; clear x)
    | ((with_reducible apply Only.ite) <;> intro _)
    | ((with_reducible apply Only.step (addTile_only _ _ _)); focus rfl)
    | ((with_reducible apply Only.step (feedVector_only _ _ _ _ _)); focus rfl)
    | ((with_reducible apply Only.step (flushOpen_only _ _)); focus rfl)
    | ((with_reducible apply Only.step (markLaunch_only _ _)); focus rfl)
    | ((with_reducible apply Only.step (modLace_only _ _ _)); focus rfl)
    | ((with_reducible apply Only.step (vectorTiles_only _ _ _ _ _ _ _ _)); focus rfl)
    | ((with_reducible apply Only.foldl); intro x a hx; try beta_reduce)
    | (split)

theorem bindDrain_only (f : Nat) (k : Nat) (d : Desc) (s : State) :
    Only [.flow] s (bindDrain f k d s) := by
  unfold bindDrain
  repeat' first
    | with_reducible exact Only.refl _ _
    | with_reducible assumption
    | (extract_lets +onlyGivenNames x; unfold x; clear x)
    | ((with_reducible apply Only.ite) <;> intro _)
    | ((with_reducible apply Only.step (modLace_only _ _ _)); focus rfl)

theorem modStream_only (f : Nat) (k : Nat) (g : Stream → Stream) (s : State) :
    Only [.flow] s (modStream f k g s) := by
  unfold modStream
  repeat' first
    | with_reducible exact Only.refl _ _
    | with_reducible assumption
    | ((with_reducible apply Only.step (modFerry_only _ _ _)); focus rfl)

theorem dropStream_only (f : Nat) (k : Nat) (s : State) :
    Only [.flow] s (dropStream f k s) := by
  unfold dropStream
  repeat' first
    | with_reducible exact Only.refl _ _
    | with_reducible assumption
    | ((with_reducible apply Only.step (modFerry_only _ _ _)); focus rfl)

theorem execSlabFillStart_only (f : Fin 256) (stream : Fin 16) (s : State) :
    OnlyR [.model, .flow] s (execSlabFillStart f stream s) := by
  unfold execSlabFillStart
  repeat' first
    | with_reducible exact Only.refl _ _
    | with_reducible assumption
    | (extract_lets +onlyGivenNames x; refine (have hx : Only [.model, .flow] s x := ?_; ?_); unfold x; clear x; rotate_left; clear_value x; rotate_right)
    | (extract_lets +onlyGivenNames x; unfold x; clear x)
    | ((with_reducible apply OnlyR.ite) <;> intro _)
    | with_reducible apply OnlyR.next
    | ((with_reducible apply Only.step (laceTake_only _ _ _ _ _ _ _ _ (by assumption))); focus rfl)
    | ((with_reducible apply Only.step (modLace_only _ _ _)); focus rfl)
    | ((with_reducible apply Only.step (modStream_only _ _ _ _)); focus rfl)
    | (split)

theorem sendRemote_only (f : Nat) (dm : Nat) (h : Nat) (b : Bytes) (poison : Bool) (s : State) :
    Only [.cause, .counters, .events, .held, .flow, .out] s (sendRemote f dm h b poison s) := by
  unfold sendRemote
  repeat' first
    | with_reducible exact Only.refl _ _
    | with_reducible assumption
    | (extract_lets +onlyGivenNames x; unfold x; clear x)
    | ((with_reducible apply Only.ite) <;> intro _)
    | ((with_reducible apply Only.step (bumpBy_only _ _ _)); focus rfl)
    | ((with_reducible apply Only.step (sendHeld_only _ _ _ _)); focus rfl)
    | ((with_reducible apply Only.foldl); intro x a hx; try beta_reduce)

theorem mcastSend_only (f : Nat) (d : Desc) (b : Bytes) (e : LaceEntry) (s : State) :
    Only [.cause, .counters, .events, .held, .flow, .strait, .out] s (mcastSend f d b e s) := by
  unfold mcastSend
  repeat' first
    | with_reducible exact Only.refl _ _
    | with_reducible assumption
    | (extract_lets +onlyGivenNames x; refine (have hx : Only [.cause, .counters, .events, .held, .flow, .strait, .out] s x := ?_; ?_); unfold x; clear x; rotate_left; clear_value x; rotate_right)
    | (extract_lets +onlyGivenNames x; unfold x; clear x)
    | ((with_reducible apply Only.step (sendCtlBy_only _ _ _ _ _)); focus rfl)
    | ((with_reducible apply Only.step (sendRemote_only _ _ _ _ _ _)); focus rfl)
    | ((with_reducible apply Only.foldl); intro x a hx; try beta_reduce)
    | (unfold modStrait)
    | (split)
    | ((with_reducible apply Only.upd); rotate_left; focus (intro p hp; cases p <;> first | rfl | exact ⟨rfl, rfl, rfl⟩ | exact absurd (by decide) hp))

theorem pushAway_only (f : Nat) (st : Stream) (b : Bytes) (poison : Bool) (special : Bool) (last : Bool) (late : Bool) (s : State) :
    Only [.cause, .counters, .events, .held, .flow, .strait, .out] s (pushAway f st b poison special last late s) := by
  unfold pushAway
  repeat' first
    | with_reducible exact Only.refl _ _
    | with_reducible assumption
    | (extract_lets +onlyGivenNames x; unfold x; clear x)
    | ((with_reducible apply Only.step (mcastSend_only _ _ _ _ _)); focus rfl)

theorem placeHeld_only (n : Nat) (h : BitVec 16) (a : Nat) (vec : Nat) (off : Nat) (s : State) :
    Only [.flow] s (placeHeld n h a vec off s) := by
  unfold placeHeld
  repeat' first
    | with_reducible exact Only.refl _ _
    | with_reducible assumption
    | (extract_lets +onlyGivenNames x; unfold x; clear x)
    | ((with_reducible apply Only.step (modLace_only _ _ _)); focus rfl)

theorem pushSlab_only (f : Nat) (k : Nat) (st : Stream) (o : OpenSlab) (planes : Bool) (room : Bool) (last : Bool) (s : State) :
    Only [.power, .doms, .gov, .time, .cause, .counters, .events, .monitors, .que, .held, .model, .flow, .hbr, .islands, .clusters, .integ, .strait, .out, .free] s (pushSlab f k st o planes room last s) := by
  unfold pushSlab
  repeat' first
    | with_reducible exact Only.refl _ _
    | with_reducible assumption
    | (extract_lets +onlyGivenNames x; refine (have hx : Only [.power, .doms, .gov, .time, .cause, .counters, .events, .monitors, .que, .held, .model, .flow, .hbr, .islands, .clusters, .integ, .strait, .out, .free] s x := ?_; ?_); unfold x; clear x; rotate_left; clear_value x; rotate_right)
    | (extract_lets +onlyGivenNames x; unfold x; clear x)
    | ((with_reducible apply Only.ite) <;> intro _)
    | ((with_reducible apply Only.step (dropStream_only _ _ _)); focus rfl)
    | ((with_reducible apply Only.step (lateSlabs_only _ _)); focus rfl)
    | ((with_reducible apply Only.step (modLace_only _ _ _)); focus rfl)
    | ((with_reducible apply Only.step (pushAway_only _ _ _ _ _ _ _ _)); focus rfl)
    | ((with_reducible apply Only.step (pushFilled_only _ _ _ _ _ _ _)); focus rfl)
    | (split)

theorem stageLong_only (f : Nat) (k : Nat) (d : Desc) (b : Bytes) (bad : Bool) (s : State) :
    Only [.time, .cause, .counters, .events, .held, .hbr, .integ, .out] s (stageLong f k d b bad s).2 := by
  unfold stageLong
  split
  · exact Only.refl _ _
  · exact Only.step (fetchRun_only _ _ _ _) rfl (Only.step (touchRun_only _ _ _ _) rfl
      (Only.step (storeRun_only _ _ _ _ _) rfl (Only.refl _ _)))

theorem sourceBytes_only (f : Nat) (st : Stream) (runs : List (Nat × Nat)) (len : Nat) (source : HostRead) (s : State) :
    Only [.time, .cause, .counters, .events, .held, .hbr, .integ, .out] s (sourceBytes f st runs len source s).2 := by
  unfold sourceBytes
  extract_lets d
  exact Only.ite2 (fun _ => Only.refl _ _) fun _ => Only.ite2 (fun _ => fetchRuns_only _ _ _) fun _ =>
    Only.ite2 (fun _ => Only.refl _ _) fun _ => Only.refl _ _

theorem pushPlanes_only (f : Nat) (k : Nat) (st : Stream) (h : BitVec 16) (rest : List (BitVec 16)) (source : HostRead) (s : State) :
    Only [.power, .doms, .gov, .time, .cause, .counters, .events, .monitors, .que, .held, .model, .flow, .hbr, .islands, .clusters, .integ, .strait, .out, .free] s (pushPlanes f k st h rest source s) := by
  unfold pushPlanes
  repeat' first
    | with_reducible exact Only.refl _ _
    | with_reducible assumption
    | (extract_lets +onlyGivenNames x; unfold x; clear x)
    | ((with_reducible apply Only.ite) <;> intro _)
    | ((with_reducible apply Only.step (bumpBy_only _ _ _)); focus rfl)
    | ((with_reducible apply Only.step (modStream_only _ _ _ _)); focus rfl)
    | ((with_reducible apply Only.step (placeHeld_only _ _ _ _ _ _)); focus rfl)
    | ((with_reducible apply Only.step (pushSlab_only _ _ _ _ _ _ _ _)); focus rfl)
    | ((with_reducible apply Only.pair (by assumption) (sourceBytes_only _ _ _ _ _ _)); focus rfl)
    | ((with_reducible apply Only.step (stageLong_only _ _ _ _ _ _)); focus rfl)
    | ((with_reducible apply Only.step (stopRequest_only _ _ _ _ _)); focus rfl)
    | (split)

theorem pushBytes_only (f : Nat) (k : Nat) (st : Stream) (h : BitVec 16) (rest : List (BitVec 16)) (source : HostRead) (s : State) :
    Only [.power, .doms, .gov, .time, .cause, .counters, .events, .monitors, .que, .held, .model, .flow, .hbr, .islands, .clusters, .integ, .strait, .out, .free] s (pushBytes f k st h rest source s) := by
  unfold pushBytes
  repeat' first
    | with_reducible exact Only.refl _ _
    | with_reducible assumption
    | (extract_lets +onlyGivenNames x; refine (have hx : Only [.power, .doms, .gov, .time, .cause, .counters, .events, .monitors, .que, .held, .model, .flow, .hbr, .islands, .clusters, .integ, .strait, .out, .free] s x := ?_; ?_); unfold x; clear x; rotate_left; clear_value x; rotate_right)
    | (extract_lets +onlyGivenNames x; unfold x; clear x)
    | ((with_reducible apply Only.ite) <;> intro _)
    | ((with_reducible apply Only.step (modStream_only _ _ _ _)); focus rfl)
    | ((with_reducible apply Only.step (placeHeld_only _ _ _ _ _ _)); focus rfl)
    | ((with_reducible apply Only.step (pushSlab_only _ _ _ _ _ _ _ _)); focus rfl)
    | ((with_reducible apply Only.pair (by assumption) (sourceBytes_only _ _ _ _ _ _)); focus rfl)
    | ((with_reducible apply Only.step (stopRequest_only _ _ _ _ _)); focus rfl)
    | (split)

theorem issueWrite_only (f : Nat) (d : Desc) (w : OutWrite) (s : State) :
    Only [.time, .cause, .counters, .events, .held, .flow, .hbr, .integ, .out] s (issueWrite f d w s) := by
  unfold issueWrite
  repeat' first
    | with_reducible exact Only.refl _ _
    | with_reducible assumption
    | (extract_lets +onlyGivenNames x; unfold x; clear x)
    | ((with_reducible apply Only.step (sendPort_only _ _ _)); focus rfl)
    | ((with_reducible apply Only.step (sendRemote_only _ _ _ _ _ _)); focus rfl)
    | ((with_reducible apply Only.step (storeRun_only _ _ _ _ _)); focus rfl)
    | ((with_reducible apply Only.foldl); intro x a hx; try beta_reduce)
    | (split)

theorem flushResults_only (a : Nat) (s : State) :
    Only [.held, .out] s (flushResults a s) := by
  unfold flushResults
  repeat' first
    | with_reducible exact Only.refl _ _
    | with_reducible assumption
    | ((with_reducible apply Only.ite) <;> intro _)
    | ((with_reducible apply Only.step (sendPort_only _ _ _)); focus rfl)
    | (split)

theorem countResult_only (d : Desc) (n : Nat) (s : State) :
    Only [.que, .held, .out] s (countResult d n s) := by
  unfold countResult
  repeat' first
    | with_reducible exact Only.refl _ _
    | with_reducible assumption
    | (extract_lets +onlyGivenNames x; unfold x; clear x)
    | ((with_reducible apply Only.ite) <;> intro _)
    | ((with_reducible apply Only.step (flushResults_only _ _)); focus rfl)
    | ((with_reducible apply Only.step (modReq_only _ _ _)); focus rfl)
    | (split)

theorem writeOut_only (f : Nat) (k : Nat) (st : Stream) (s : State) :
    Only [.power, .doms, .gov, .time, .cause, .counters, .events, .monitors, .que, .held, .model, .flow, .hbr, .islands, .clusters, .integ, .strait, .out, .free] s (writeOut f k st s) := by
  unfold writeOut
  repeat' first
    | with_reducible exact Only.refl _ _
    | with_reducible assumption
    | (extract_lets +onlyGivenNames x; refine (have hx : Only [.power, .doms, .gov, .time, .cause, .counters, .events, .monitors, .que, .held, .model, .flow, .hbr, .islands, .clusters, .integ, .strait, .out, .free] s x := ?_; ?_); unfold x; clear x; rotate_left; clear_value x; rotate_right)
    | (extract_lets +onlyGivenNames x; unfold x; clear x)
    | ((with_reducible apply Only.ite) <;> intro _)
    | ((with_reducible apply Only.step (bumpBy_only _ _ _)); focus rfl)
    | ((with_reducible apply Only.step (countResult_only _ _ _)); focus rfl)
    | ((with_reducible apply Only.step (dropStream_only _ _ _)); focus rfl)
    | ((with_reducible apply Only.step (issueWrite_only _ _ _ _)); focus rfl)
    | ((with_reducible apply Only.step (lateSlab_only _ _)); focus rfl)
    | ((with_reducible apply Only.step (modStream_only _ _ _ _)); focus rfl)
    | ((with_reducible apply Only.foldl); intro x a hx; try beta_reduce)

theorem writeThrough_only (f : Nat) (k : Nat) (st : Stream) (source : HostRead) (s : State) :
    Only [.power, .doms, .gov, .time, .cause, .counters, .events, .monitors, .que, .held, .model, .flow, .hbr, .islands, .clusters, .integ, .strait, .out, .free] s (writeThrough f k st source s) := by
  unfold writeThrough
  repeat' first
    | with_reducible exact Only.refl _ _
    | with_reducible assumption
    | (extract_lets +onlyGivenNames x; refine (have hx : Only [.power, .doms, .gov, .time, .cause, .counters, .events, .monitors, .que, .held, .model, .flow, .hbr, .islands, .clusters, .integ, .strait, .out, .free] s x := ?_; ?_); unfold x; clear x; rotate_left; clear_value x; rotate_right)
    | (extract_lets +onlyGivenNames x; unfold x; clear x)
    | ((with_reducible apply Only.ite) <;> intro _)
    | ((with_reducible apply Only.step (countResult_only _ _ _)); focus rfl)
    | ((with_reducible apply Only.step (dropStream_only _ _ _)); focus rfl)
    | ((with_reducible apply Only.step (issueWrite_only _ _ _ _)); focus rfl)
    | ((with_reducible apply Only.step (lateSlab_only _ _)); focus rfl)
    | ((with_reducible apply Only.step (modStream_only _ _ _ _)); focus rfl)
    | ((with_reducible apply Only.pair (by assumption) (sourceBytes_only _ _ _ _ _ _)); focus rfl)
    | ((with_reducible apply Only.step (stopRequest_only _ _ _ _ _)); focus rfl)
    | (split)

theorem execSlabPush_only (f : Fin 256) (stream : Fin 16) (source : HostRead) (s : State) :
    OnlyR [.power, .doms, .gov, .time, .cause, .counters, .events, .monitors, .que, .held, .model, .flow, .hbr, .islands, .clusters, .integ, .strait, .out, .free] s (execSlabPush f stream source s) := by
  unfold execSlabPush
  repeat' first
    | with_reducible exact Only.refl _ _
    | with_reducible assumption
    | (extract_lets +onlyGivenNames x; refine (have hx : Only [.power, .doms, .gov, .time, .cause, .counters, .events, .monitors, .que, .held, .model, .flow, .hbr, .islands, .clusters, .integ, .strait, .out, .free] s x := ?_; ?_); unfold x; clear x; rotate_left; clear_value x; rotate_right)
    | ((with_reducible apply Only.ite) <;> intro _)
    | ((with_reducible apply OnlyR.ite) <;> intro _)
    | with_reducible apply OnlyR.next
    | ((with_reducible apply Only.step (endFor_only _ _)); focus rfl)
    | ((with_reducible apply Only.step (pushBytes_only _ _ _ _ _ _ _)); focus rfl)
    | ((with_reducible apply Only.step (pushPlanes_only _ _ _ _ _ _ _)); focus rfl)
    | ((with_reducible apply Only.step (runsWake_only _ _)); focus rfl)
    | ((with_reducible apply Only.step (writeOut_only _ _ _ _)); focus rfl)
    | ((with_reducible apply Only.step (writeThrough_only _ _ _ _ _)); focus rfl)
    | (split)

theorem poisonStream_only (f : Nat) (d : Desc) (s : State) :
    Only [.power, .doms, .gov, .time, .cause, .counters, .events, .que, .held, .model, .flow, .hbr, .islands, .clusters, .integ, .strait, .out, .free] s (poisonStream f d s) := by
  unfold poisonStream
  repeat' first
    | with_reducible exact Only.refl _ _
    | with_reducible assumption
    | (extract_lets +onlyGivenNames x; refine (have hx : Only [.power, .doms, .gov, .time, .cause, .counters, .events, .que, .held, .model, .flow, .hbr, .islands, .clusters, .integ, .strait, .out, .free] s x := ?_; ?_); unfold x; clear x; rotate_left; clear_value x; rotate_right)
    | (extract_lets +onlyGivenNames x; unfold x; clear x)
    | ((with_reducible apply Only.ite) <;> intro _)
    | ((with_reducible apply Only.step (flushResults_only _ _)); focus rfl)
    | ((with_reducible apply Only.step (issueWrite_only _ _ _ _)); focus rfl)
    | ((with_reducible apply Only.step (mcastSend_only _ _ _ _ _)); focus rfl)
    | ((with_reducible apply Only.step (modReq_only _ _ _)); focus rfl)
    | ((with_reducible apply Only.step (poisonVectors_only _ _ _)); focus rfl)
    | (split)

theorem beginStream_only (f : Nat) (order : Nat) (d : Desc) (dud : Bool) (s : State) :
    Only [.flow] s (beginStream f order d dud s) := by
  unfold beginStream
  repeat' first
    | with_reducible exact Only.refl _ _
    | with_reducible assumption
    | (extract_lets +onlyGivenNames x; unfold x; clear x)
    | ((with_reducible apply Only.step (bindDrain_only _ _ _ _)); focus rfl)
    | ((with_reducible apply Only.step (modFerry_only _ _ _)); focus rfl)
    | (split)

theorem startStream_only (f : Nat) (order : Nat) (d : Desc) (s : State) :
    Only [.power, .doms, .gov, .time, .cause, .counters, .events, .que, .held, .model, .flow, .hbr, .islands, .clusters, .integ, .strait, .out, .free] s (startStream f order d s) := by
  unfold startStream
  repeat' first
    | with_reducible exact Only.refl _ _
    | with_reducible assumption
    | (extract_lets +onlyGivenNames x; refine (have hx : Only [.power, .doms, .gov, .time, .cause, .counters, .events, .que, .held, .model, .flow, .hbr, .islands, .clusters, .integ, .strait, .out, .free] s x := ?_; ?_); unfold x; clear x; rotate_left; clear_value x; rotate_right)
    | ((with_reducible apply Only.ite) <;> intro _)
    | ((with_reducible apply Only.step (beginStream_only _ _ _ _ _)); focus rfl)
    | ((with_reducible apply Only.step (bump_only _ _)); focus rfl)
    | ((with_reducible apply Only.step (poisonStream_only _ _ _)); focus rfl)
    | ((with_reducible apply Only.step (raise_only _ _ _ _)); focus rfl)
    | (split)

theorem startWaiting_only (n : Nat) (s : State) : Only [.power, .doms, .gov, .time, .cause, .counters, .events, .que, .held, .model, .flow, .hbr, .islands, .clusters, .integ, .strait, .out, .free] s (startWaiting n s) := by
  induction n generalizing s with
  | zero => exact Only.refl _ _
  | succ n ih =>
    unfold startWaiting
    split
    · refine Only.step (ih _) rfl (Only.step (startStream_only _ _ _ _) rfl ?_)
      with_reducible apply Only.upd
      · exact Only.refl _ _
      · intro p hp; cases p <;> first | rfl | exact ⟨rfl, rfl, rfl⟩ | exact absurd (by decide) hp
    · exact Only.refl _ _

theorem issueDesc_only (d : Desc) (s : State) :
    Only [.power, .doms, .gov, .time, .cause, .counters, .events, .que, .held, .model, .flow, .hbr, .islands, .clusters, .integ, .strait, .out, .free] s (issueDesc d s) := by
  unfold issueDesc
  repeat' first
    | with_reducible exact Only.refl _ _
    | with_reducible assumption
    | (extract_lets +onlyGivenNames x; refine (have hx : Only [.power, .doms, .gov, .time, .cause, .counters, .events, .que, .held, .model, .flow, .hbr, .islands, .clusters, .integ, .strait, .out, .free] s x := ?_; ?_); unfold x; clear x; rotate_left; clear_value x; rotate_right)
    | (extract_lets +onlyGivenNames x; unfold x; clear x)
    | ((with_reducible apply Only.step (startWaiting_only _ _)); focus rfl)
    | ((with_reducible apply Only.upd); rotate_left; focus (intro p hp; cases p <;> first | rfl | exact ⟨rfl, rfl, rfl⟩ | exact absurd (by decide) hp))

theorem execFerryDescriptorIssue_only (desc : Bytes) (s : State) :
    OnlyR [.power, .doms, .gov, .time, .cause, .counters, .events, .que, .held, .model, .flow, .hbr, .islands, .clusters, .integ, .strait, .out, .free] s (execFerryDescriptorIssue desc s) := by
  unfold execFerryDescriptorIssue
  repeat' first
    | with_reducible exact Only.refl _ _
    | with_reducible assumption
    | (extract_lets +onlyGivenNames x; unfold x; clear x)
    | ((with_reducible apply OnlyR.ite) <;> intro _)
    | with_reducible apply OnlyR.next
    | ((with_reducible apply Only.step (issueDesc_only _ _)); focus rfl)

theorem execFerrySlotStart_only (f : Fin 256) (s : State) :
    OnlyR [.power, .doms, .gov, .time, .cause, .counters, .events, .que, .held, .model, .flow, .hbr, .islands, .clusters, .integ, .strait, .out, .free] s (execFerrySlotStart f s) := by
  unfold execFerrySlotStart
  repeat' first
    | with_reducible exact Only.refl _ _
    | with_reducible assumption
    | (extract_lets +onlyGivenNames x; refine (have hx : Only [.power, .doms, .gov, .time, .cause, .counters, .events, .que, .held, .model, .flow, .hbr, .islands, .clusters, .integ, .strait, .out, .free] s x := ?_; ?_); unfold x; clear x; rotate_left; clear_value x; rotate_right)
    | (extract_lets +onlyGivenNames x; unfold x; clear x)
    | ((with_reducible apply OnlyR.ite) <;> intro _)
    | with_reducible apply OnlyR.next
    | ((with_reducible apply Only.step (startStream_only _ _ _ _)); focus rfl)
    | (split)
    | ((with_reducible apply Only.upd); rotate_left; focus (intro p hp; cases p <;> first | rfl | exact ⟨rfl, rfl, rfl⟩ | exact absurd (by decide) hp))

theorem execCancelledSlabRecall_only (f : Fin 256) (stream : Fin 16) (s : State) :
    OnlyR [.power, .doms, .gov, .time, .cause, .counters, .events, .monitors, .que, .held, .model, .flow, .hbr, .islands, .clusters, .integ, .strait, .out, .free] s (execCancelledSlabRecall f stream s) := by
  unfold execCancelledSlabRecall
  repeat' first
    | with_reducible exact Only.refl _ _
    | with_reducible assumption
    | (extract_lets +onlyGivenNames x; refine (have hx : Only [.power, .doms, .gov, .time, .cause, .counters, .events, .monitors, .que, .held, .model, .flow, .hbr, .islands, .clusters, .integ, .strait, .out, .free] s x := ?_; ?_); unfold x; clear x; rotate_left; clear_value x; rotate_right)
    | (extract_lets +onlyGivenNames x; unfold x; clear x)
    | ((with_reducible apply Only.ite) <;> intro _)
    | ((with_reducible apply OnlyR.ite) <;> intro _)
    | with_reducible apply OnlyR.next
    | ((with_reducible apply Only.step (bump_only _ _)); focus rfl)
    | ((with_reducible apply Only.step (clearReleased_only _ _)); focus rfl)
    | ((with_reducible apply Only.step (discardLate_only _)); focus rfl)
    | ((with_reducible apply Only.step (dropStream_only _ _ _)); focus rfl)
    | ((with_reducible apply Only.step (endFor_only _ _)); focus rfl)
    | ((with_reducible apply Only.step (flushOpen_only _ _)); focus rfl)
    | ((with_reducible apply Only.step (modLace_only _ _ _)); focus rfl)
    | ((with_reducible apply Only.step (modStream_only _ _ _ _)); focus rfl)
    | (split)

theorem execRequestDeadlinePass_only (a : Fin 4096) (s : State) :
    OnlyR [.power, .doms, .gov, .time, .cause, .counters, .events, .monitors, .que, .held, .model, .flow, .hbr, .islands, .clusters, .integ, .strait, .out, .free] s (execRequestDeadlinePass a s) := by
  unfold execRequestDeadlinePass
  repeat' first
    | with_reducible exact Only.refl _ _
    | with_reducible assumption
    | ((with_reducible apply OnlyR.ite) <;> intro _)
    | with_reducible apply OnlyR.next
    | ((with_reducible apply Only.step (discardRequest_only _ _)); focus rfl)
    | (split)

theorem receiveThread_only (n : Nat) (k : Nat) (i : Nat) (t : Nat) (c : LaceConsumer) (e : LaceEntry) (s : State) :
    Only [.power, .doms, .gov, .time, .cause, .counters, .events, .que, .held, .model, .flow, .hbr, .banks, .islands, .clusters, .awl, .scheds, .integ, .strait, .out, .free] s (receiveThread n k i t c e s) := by
  unfold receiveThread
  repeat' first
    | with_reducible exact Only.refl _ _
    | with_reducible assumption
    | (extract_lets +onlyGivenNames x; refine (have hx : Only [.power, .doms, .gov, .time, .cause, .counters, .events, .que, .held, .model, .flow, .hbr, .banks, .islands, .clusters, .awl, .scheds, .integ, .strait, .out, .free] s x := ?_; ?_); unfold x; clear x; rotate_left; clear_value x; rotate_right)
    | (extract_lets +onlyGivenNames x; unfold x; clear x)
    | ((with_reducible apply Only.step (feedVector_only _ _ _ _ _)); focus rfl)
    | ((with_reducible apply Only.pair (by assumption) (fetchRun_only _ _ _ _)); focus rfl)
    | ((with_reducible apply Only.step (markFinals_only _ _ _)); focus rfl)
    | ((with_reducible apply Only.step (modIsland_only _ _ _)); focus rfl)
    | ((with_reducible apply Only.step (preemptRun_only _ _)); focus rfl)
    | ((with_reducible apply Only.step (setConsumer_only _ _ _ _)); focus rfl)
    | ((with_reducible apply Only.foldl); intro x a hx; try beta_reduce)
    | (split)

theorem receiveWelt_only (n : Nat) (k : Nat) (i : Nat) (c : LaceConsumer) (e : LaceEntry) (s : State) :
    Only [.power, .doms, .gov, .time, .cause, .counters, .events, .que, .held, .model, .flow, .hbr, .islands, .clusters, .integ, .strait, .out, .free] s (receiveWelt n k i c e s) := by
  unfold receiveWelt
  repeat' first
    | with_reducible exact Only.refl _ _
    | with_reducible assumption
    | ((with_reducible apply Only.step (endLaunch_only _ _)); focus rfl)
    | ((with_reducible apply Only.step (feedVector_only _ _ _ _ _)); focus rfl)
    | ((with_reducible apply Only.step (fetchRun_only _ _ _ _)); focus rfl)
    | ((with_reducible apply Only.step (setConsumer_only _ _ _ _)); focus rfl)
    | ((with_reducible apply Only.step (settleLaunch_only _ _)); focus rfl)
    | ((with_reducible apply Only.foldl); intro x a hx; try beta_reduce)
    | (split)

theorem receiveCluster_only (n : Nat) (k : Nat) (c : Nat) (x : LaceConsumer) (e : LaceEntry) (s : State) :
    Only [.gov, .time, .cause, .counters, .events, .held, .flow, .hbr, .islands, .clusters, .integ, .out] s (receiveCluster n k c x e s) := by
  unfold receiveCluster
  split
  · exact Only.refl _ _
  · extract_lets l a
    clear_value l a
    split
    rename_i slab marked t e
    have ht : Only [.gov, .time, .cause, .counters, .events, .held, .flow, .hbr, .islands, .clusters, .integ, .out] s t := Only.pair e (fetchRun_only _ _ _ _) rfl (Only.refl _ _)
    clear e
    have hc : ∀ y, Only [.gov, .time, .cause, .counters, .events, .held, .flow, .hbr, .islands, .clusters, .integ, .out] s (setConsumer n k y t) := fun y => Only.step (setConsumer_only _ _ _ _) rfl ht
    have hg : ∀ y m, Only [.gov, .time, .cause, .counters, .events, .held, .flow, .hbr, .islands, .clusters, .integ, .out] s (stepGather l c m (setConsumer n k y t)) := fun y m => Only.step (stepGather_only _ _ _ _) rfl (hc y)
    dsimp only
    refine Only.ite (fun _ => ?_) fun _ => Only.ite (fun _ => ?_) fun _ => hg _ _
    · split
      · exact hc _
      · exact hg _ _
    · exact Only.step (setConsumer_only _ _ _ _) rfl (Only.step (clusterBlocks_only _ _ _ _ _ _ _ _ _) rfl ht)

theorem receiveFerry_only (n : Nat) (k : Nat) (f : Nat) (t : Nat) (x : LaceConsumer) (e : LaceEntry) (s : State) :
    Only [.time, .cause, .counters, .events, .que, .held, .flow, .hbr, .integ, .out] s (receiveFerry n k f t x e s) := by
  unfold receiveFerry
  repeat' first
    | with_reducible exact Only.refl _ _
    | with_reducible assumption
    | (extract_lets +onlyGivenNames x; refine (have hx : Only [.time, .cause, .counters, .events, .que, .held, .flow, .hbr, .integ, .out] s x := ?_; ?_); unfold x; clear x; rotate_left; clear_value x; rotate_right)
    | (extract_lets +onlyGivenNames x; unfold x; clear x)
    | ((with_reducible apply Only.ite) <;> intro _)
    | ((with_reducible apply Only.step (fetchRuns_only _ _ _)); focus rfl)
    | ((with_reducible apply Only.step (modReq_only _ _ _)); focus rfl)
    | ((with_reducible apply Only.step (modStream_only _ _ _ _)); focus rfl)
    | ((with_reducible apply Only.step (setConsumer_only _ _ _ _)); focus rfl)
    | (split)

theorem execLaceEntryReceive_only (lace : Fin 4096) (consumer : Nat) (s : State) :
    OnlyR [.power, .doms, .gov, .time, .cause, .counters, .events, .que, .held, .model, .flow, .hbr, .banks, .islands, .clusters, .awl, .scheds, .integ, .strait, .out, .free] s (execLaceEntryReceive lace consumer s) := by
  unfold execLaceEntryReceive
  repeat' first
    | with_reducible exact Only.refl _ _
    | with_reducible assumption
    | (extract_lets +onlyGivenNames x; unfold x; clear x)
    | ((with_reducible apply OnlyR.ite) <;> intro _)
    | with_reducible apply OnlyR.next
    | ((with_reducible apply Only.step (receiveCluster_only _ _ _ _ _ _)); focus rfl)
    | ((with_reducible apply Only.step (receiveFerry_only _ _ _ _ _ _ _)); focus rfl)
    | ((with_reducible apply Only.step (receiveThread_only _ _ _ _ _ _ _)); focus rfl)
    | ((with_reducible apply Only.step (receiveWelt_only _ _ _ _ _ _)); focus rfl)
    | ((with_reducible apply Only.step (runWake_only _ _ _)); focus rfl)
    | ((with_reducible apply Only.step (setConsumer_only _ _ _ _)); focus rfl)
    | (split)

theorem setWork_only (i : Nat) (t : Nat) (w : SliceWork) (s : State) :
    Only [.islands] s (setWork i t w s) := by
  unfold setWork
  repeat' first
    | with_reducible exact Only.refl _ _
    | with_reducible assumption
    | ((with_reducible apply Only.step (modIsland_only _ _ _)); focus rfl)

theorem execRowGroupStart_only (island : Nat) (array : Fin 256) (s : State) :
    OnlyR [.time, .cause, .counters, .events, .held, .hbr, .banks, .islands, .awl, .scheds, .integ, .out] s (execRowGroupStart island array s) := by
  unfold execRowGroupStart
  repeat' first
    | with_reducible exact Only.refl _ _
    | with_reducible assumption
    | with_reducible exact OnlyR.fault
    | with_reducible exact OnlyR.refused
    | (extract_lets +onlyGivenNames x; refine (have hx : Only [.time, .cause, .counters, .events, .held, .hbr, .banks, .islands, .awl, .scheds, .integ, .out] s x := ?_; ?_); unfold x; clear x; rotate_left; clear_value x; rotate_right)
    | (extract_lets +onlyGivenNames x; unfold x; clear x)
    | ((with_reducible apply OnlyR.ite) <;> intro _)
    | with_reducible apply OnlyR.next
    | ((with_reducible apply Only.step (modIsland_only _ _ _)); focus rfl)
    | ((with_reducible apply Only.step (preemptRun_only _ _)); focus rfl)
    | ((with_reducible apply Only.step (setWork_only _ _ _ _)); focus rfl)
    | (split)

theorem execPulseCycleEnd_only (island : Nat) (array : Fin 256) (d : Disturb) (s : State) :
    OnlyR [.counters, .monitors, .banks, .islands] s (execPulseCycleEnd island array d s) := by
  unfold execPulseCycleEnd
  repeat' first
    | with_reducible exact Only.refl _ _
    | with_reducible assumption
    | with_reducible exact OnlyR.fault
    | with_reducible exact OnlyR.refused
    | (extract_lets +onlyGivenNames x; refine (have hx : Only [.counters, .monitors, .banks, .islands] s x := ?_; ?_); unfold x; clear x; rotate_left; clear_value x; rotate_right)
    | (extract_lets +onlyGivenNames x; unfold x; clear x)
    | ((with_reducible apply Only.ite) <;> intro _)
    | ((with_reducible apply OnlyR.ite) <;> intro _)
    | with_reducible apply OnlyR.next
    | ((with_reducible apply Only.step (bumpBy_only _ _ _)); focus rfl)
    | ((with_reducible apply Only.step (modIsland_only _ _ _)); focus rfl)
    | ((with_reducible apply Only.step (noteUse_only _ _)); focus rfl)
    | ((with_reducible apply Only.step (sample_only _ _ _ _)); focus rfl)
    | (split)

theorem wakeForRecomputes_only (s : State) :
    Only [.doms, .cause, .counters] s (wakeForRecomputes s) := by
  unfold wakeForRecomputes
  repeat' first
    | with_reducible exact Only.refl _ _
    | with_reducible assumption
    | (extract_lets +onlyGivenNames x; unfold x; clear x)
    | ((with_reducible apply Only.ite) <;> intro _)
    | ((with_reducible apply Only.step (wantOn_only _ _)); focus rfl)
    | (split)

theorem requestRecompute_only (island : Nat) (x : Launch) (p : Pulse) (w : SliceWork) (c : Nat) (s : State) :
    Only [.doms, .cause, .counters, .flow, .banks, .islands, .clusters, .scheds] s (requestRecompute island x p w c s) := by
  unfold requestRecompute
  repeat' first
    | with_reducible exact Only.refl _ _
    | with_reducible assumption
    | (extract_lets +onlyGivenNames x; refine (have hx : Only [.doms, .cause, .counters, .flow, .banks, .islands, .clusters, .scheds] s x := ?_; ?_); unfold x; clear x; rotate_left; clear_value x; rotate_right)
    | (extract_lets +onlyGivenNames x; unfold x; clear x)
    | ((with_reducible apply Only.step (bump_only _ _)); focus rfl)
    | ((with_reducible apply Only.step (modBank_only _ _ _)); focus rfl)
    | ((with_reducible apply Only.step (modCluster_only _ _ _)); focus rfl)
    | ((with_reducible apply Only.step (modJoin_only _ _ _ _)); focus rfl)
    | ((with_reducible apply Only.step (modSched_only _ _ _)); focus rfl)
    | ((with_reducible apply Only.step (wakeForRecomputes_only _)); focus rfl)
    | (split)
    | ((with_reducible apply Only.upd); rotate_left; focus (intro p hp; cases p <;> first | rfl | exact ⟨rfl, rfl, rfl⟩ | exact absurd (by decide) hp))

theorem dropPulse_only (island : Nat) (array : Nat) (s : State) :
    Only [.islands] s (dropPulse island array s) := by
  unfold dropPulse
  repeat' first
    | with_reducible exact Only.refl _ _
    | with_reducible assumption
    | ((with_reducible apply Only.step (modIsland_only _ _ _)); focus rfl)

theorem touchLanes_only (home : Nat) (id : Nat) (touched : Nat → Bool) (s : State) :
    Only [.power, .doms, .gov, .time, .cause, .counters, .events, .held, .model, .islands, .clusters, .integ, .out] s (touchLanes home id touched s) := by
  unfold touchLanes
  repeat' first
    | with_reducible exact Only.refl _ _
    | with_reducible assumption
    | ((with_reducible apply Only.ite) <;> intro _)
    | ((with_reducible apply Only.step (limbRead_only _ _ _ _)); focus rfl)
    | ((with_reducible apply Only.step (setHomeJoins_only _ _ _)); focus rfl)
    | (split)

theorem execWeltAccept_only (island : Nat) (array : Fin 256) (upsets : List (Nat × Nat × Nat)) (s : State) :
    OnlyR [.power, .doms, .gov, .time, .cause, .counters, .events, .que, .held, .model, .flow, .hbr, .banks, .islands, .clusters, .scheds, .integ, .strait, .out, .free] s (execWeltAccept island array upsets s) := by
  unfold execWeltAccept
  repeat' first
    | with_reducible exact Only.refl _ _
    | with_reducible assumption
    | with_reducible exact OnlyR.fault
    | with_reducible exact OnlyR.refused
    | (extract_lets +onlyGivenNames x; refine (have hx : Only [.power, .doms, .gov, .time, .cause, .counters, .events, .que, .held, .model, .flow, .hbr, .banks, .islands, .clusters, .scheds, .integ, .strait, .out, .free] s x := ?_; ?_); unfold x; clear x; rotate_left; clear_value x; rotate_right)
    | (extract_lets +onlyGivenNames x; unfold x; clear x)
    | ((with_reducible apply Only.ite) <;> intro _)
    | ((with_reducible apply OnlyR.ite) <;> intro _)
    | with_reducible apply OnlyR.next
    | ((with_reducible apply Only.step (arrayFailure_only _ _)); focus rfl)
    | ((with_reducible apply Only.step (bump_only _ _)); focus rfl)
    | ((with_reducible apply Only.step (countRerun_only _ _)); focus rfl)
    | ((with_reducible apply Only.step (dropPulse_only _ _ _)); focus rfl)
    | ((with_reducible apply Only.step (markFinals_only _ _ _)); focus rfl)
    | ((with_reducible apply Only.step (modJoin_only _ _ _ _)); focus rfl)
    | ((with_reducible apply Only.step (requestRecompute_only _ _ _ _ _ _)); focus rfl)
    | ((with_reducible apply Only.step (setWork_only _ _ _ _)); focus rfl)
    | ((with_reducible apply Only.step (touchLanes_only _ _ _ _)); focus rfl)
    | (split)

theorem endRecompute_only (c : Nat) (n : Nat) (r : Recompute) (s : State) :
    Only [.counters, .monitors, .flow, .hbr, .clusters] s (endRecompute c n r s) := by
  unfold endRecompute
  repeat' first
    | with_reducible exact Only.refl _ _
    | with_reducible assumption
    | (extract_lets +onlyGivenNames x; refine (have hx : Only [.counters, .monitors, .flow, .hbr, .clusters] s x := ?_; ?_); unfold x; clear x; rotate_left; clear_value x; rotate_right)
    | (extract_lets +onlyGivenNames x; unfold x; clear x)
    | ((with_reducible apply Only.ite) <;> intro _)
    | ((with_reducible apply Only.step (bump_only _ _)); focus rfl)
    | ((with_reducible apply Only.step (clearReleased_only _ _)); focus rfl)
    | ((with_reducible apply Only.step (modCluster_only _ _ _)); focus rfl)
    | ((with_reducible apply Only.step (sample_only _ _ _ _)); focus rfl)
    | (split)
    | ((with_reducible apply Only.upd); rotate_left; focus (intro p hp; cases p <;> first | rfl | exact ⟨rfl, rfl, rfl⟩ | exact absurd (by decide) hp))

theorem recomputeAccepted_only (c : Nat) (island : Nat) (id : Nat) (s : State) :
    Only [.counters, .monitors, .flow, .hbr, .clusters] s (recomputeAccepted c island id s) := by
  unfold recomputeAccepted
  repeat' first
    | with_reducible exact Only.refl _ _
    | with_reducible assumption
    | ((with_reducible apply Only.step (endRecompute_only _ _ _ _)); focus rfl)
    | (split)

theorem execLongSumReceive_only (island : Nat) (packet : List Flit) (s : State) :
    OnlyR [.power, .doms, .gov, .time, .cause, .counters, .events, .monitors, .que, .held, .model, .flow, .hbr, .islands, .clusters, .integ, .strait, .out, .free] s (execLongSumReceive island packet s) := by
  unfold execLongSumReceive
  repeat' first
    | with_reducible exact Only.refl _ _
    | with_reducible assumption
    | with_reducible exact OnlyR.fault
    | with_reducible exact OnlyR.refused
    | (extract_lets +onlyGivenNames x; refine (have hx : Only [.power, .doms, .gov, .time, .cause, .counters, .events, .monitors, .que, .held, .model, .flow, .hbr, .islands, .clusters, .integ, .strait, .out, .free] s x := ?_; ?_); unfold x; clear x; rotate_left; clear_value x; rotate_right)
    | (extract_lets +onlyGivenNames x; unfold x; clear x)
    | ((with_reducible apply Only.ite) <;> intro _)
    | ((with_reducible apply OnlyR.ite) <;> intro _)
    | with_reducible apply OnlyR.next
    | ((with_reducible apply Only.step (ackPacket_only _ _)); focus rfl)
    | ((with_reducible apply Only.step (bump_only _ _)); focus rfl)
    | ((with_reducible apply Only.step (endLaunch_only _ _)); focus rfl)
    | ((with_reducible apply Only.step (modJoin_only _ _ _ _)); focus rfl)
    | ((with_reducible apply Only.step (raise_only _ _ _ _)); focus rfl)
    | ((with_reducible apply Only.step (recomputeAccepted_only _ _ _ _)); focus rfl)
    | ((with_reducible apply Only.step (settleLaunch_only _ _)); focus rfl)
    | ((with_reducible apply Only.step (touchLanes_only _ _ _ _)); focus rfl)
    | (split)

theorem shankAdd_only (c : Nat) (l : Nat) (plan : Nat) (vec : Nat) (replaces : Nat) (first : Nat) (lanes : List (BitVec 320)) (poison : Bool) (s : State) :
    Only [.power, .doms, .gov, .time, .cause, .counters, .events, .que, .held, .model, .flow, .hbr, .islands, .clusters, .integ, .strait, .out, .free] s (shankAdd c l plan vec replaces first lanes poison s) := by
  unfold shankAdd
  repeat' first
    | with_reducible exact Only.refl _ _
    | with_reducible assumption
    | (extract_lets +onlyGivenNames x; refine (have hx : Only [.power, .doms, .gov, .time, .cause, .counters, .events, .que, .held, .model, .flow, .hbr, .islands, .clusters, .integ, .strait, .out, .free] s x := ?_; ?_); unfold x; clear x; rotate_left; clear_value x; rotate_right)
    | (extract_lets +onlyGivenNames x; unfold x; clear x)
    | ((with_reducible apply Only.ite) <;> intro _)
    | ((with_reducible apply Only.step (endLaunch_only _ _)); focus rfl)
    | ((with_reducible apply Only.step (modJoin_only _ _ _ _)); focus rfl)
    | ((with_reducible apply Only.step (sendHeld_only _ _ _ _)); focus rfl)
    | ((with_reducible apply Only.step (settleLaunch_only _ _)); focus rfl)
    | (split)

theorem startRecompute_only (c : Nat) (n : Nat) (s : State) :
    Only [.doms, .time, .cause, .counters, .events, .held, .hbr, .banks, .clusters, .awl, .scheds, .integ, .out] s (startRecompute c n s) := by
  unfold startRecompute
  repeat' first
    | with_reducible exact Only.refl _ _
    | with_reducible assumption
    | (extract_lets +onlyGivenNames x; unfold x; clear x)
    | ((with_reducible apply Only.ite) <;> intro _)
    | ((with_reducible apply Only.step (modCluster_only _ _ _)); focus rfl)
    | ((with_reducible apply Only.step (preemptRun_only _ _)); focus rfl)
    | ((with_reducible apply Only.step (runWake_only _ _ _)); focus rfl)
    | ((with_reducible apply Only.step (touchRun_only _ _ _ _)); focus rfl)
    | (split)

theorem sendRecompute_only (c : Nat) (n : Nat) (s : State) :
    Only [.cause, .counters, .events, .monitors, .held, .flow, .hbr, .clusters, .out] s (sendRecompute c n s) := by
  unfold sendRecompute
  repeat' first
    | with_reducible exact Only.refl _ _
    | with_reducible assumption
    | ((with_reducible apply Only.ite) <;> intro _)
    | ((with_reducible apply Only.step (endRecompute_only _ _ _ _)); focus rfl)
    | ((with_reducible apply Only.step (sendHeld_only _ _ _ _)); focus rfl)
    | (split)

theorem coverTile_only (c : Nat) (l : Nat) (slice : Nat) (vec : Nat) (xs : List Int) (poison : Bool) (s : State) :
    Only [.power, .doms, .gov, .time, .cause, .counters, .events, .que, .held, .model, .flow, .hbr, .banks, .islands, .clusters, .integ, .strait, .out, .free] s (coverTile c l slice vec xs poison s) := by
  unfold coverTile
  repeat' first
    | with_reducible exact Only.refl _ _
    | with_reducible assumption
    | ((with_reducible apply Only.ite) <;> intro _)
    | ((with_reducible apply Only.step (bumpBy_only _ _ _)); focus rfl)
    | ((with_reducible apply Only.step (flagSlice_only _ _ _)); focus rfl)
    | ((with_reducible apply Only.step (nvPoisoned_only _ _ _)); focus rfl)
    | ((with_reducible apply Only.step (shankAdd_only _ _ _ _ _ _ _ _ _)); focus rfl)
    | (split)

theorem cacheDrop_only (a : Nat) (s : State) :
    Only [.model] s (cacheDrop a s) := by
  unfold cacheDrop
  repeat' first
    | with_reducible exact Only.refl _ _
    | with_reducible assumption
    | ((with_reducible apply Only.upd); rotate_left; focus (intro p hp; cases p <;> first | rfl | exact ⟨rfl, rfl, rfl⟩ | exact absurd (by decide) hp))

theorem cacheRoom_only (m n : Nat) (s : State) : Only [.model] s (cacheRoom m n s) := by
  induction n generalizing s with
  | zero => exact Only.refl _ _
  | succ n ih =>
    unfold cacheRoom
    split
    · exact Only.refl _ _
    · split
      · exact Only.refl _ _
      · exact Only.step (ih _) rfl (cacheDrop_only _ _)

theorem cacheKeep_only (c : Nat) (a : Nat) (b : Bytes) (s : State) :
    Only [.time, .cause, .counters, .events, .held, .model, .hbr, .integ, .out] s (cacheKeep c a b s) := by
  unfold cacheKeep
  repeat' first
    | with_reducible exact Only.refl _ _
    | with_reducible assumption
    | (extract_lets +onlyGivenNames x; refine (have hx : Only [.time, .cause, .counters, .events, .held, .model, .hbr, .integ, .out] s x := ?_; ?_); unfold x; clear x; rotate_left; clear_value x; rotate_right)
    | (extract_lets +onlyGivenNames x; unfold x; clear x)
    | ((with_reducible apply Only.ite) <;> intro _)
    | ((with_reducible apply Only.step (cacheRoom_only _ _ _)); focus rfl)
    | ((with_reducible apply Only.step (storeRun_only _ _ _ _ _)); focus rfl)
    | ((with_reducible apply Only.foldl); intro x a hx; try beta_reduce)
    | (split)
    | ((with_reducible apply Only.upd); rotate_left; focus (intro p hp; cases p <;> first | rfl | exact ⟨rfl, rfl, rfl⟩ | exact absurd (by decide) hp))

theorem adapterLost_only (a : Adapter) (s : State) :
    Only [.time, .counters, .events, .held, .banks, .integ, .out] s (adapterLost a s) := by
  unfold adapterLost
  repeat' first
    | with_reducible exact Only.refl _ _
    | with_reducible assumption
    | ((with_reducible apply Only.step (nvPoisoned_only _ _ _)); focus rfl)
    | ((with_reducible apply Only.foldl); intro x a hx; try beta_reduce)

theorem adapterFetch_only (c : Nat) (k : Nat) (a : Adapter) (s : State) :
    Only [.time, .cause, .counters, .events, .held, .model, .hbr, .integ, .out] s (adapterFetch c k a s).2 := by
  unfold adapterFetch
  repeat' first
    | with_reducible exact Only.refl _ _
    | with_reducible assumption
    | (extract_lets +onlyGivenNames x; refine (have hx : Only [.time, .cause, .counters, .events, .held, .model, .hbr, .integ, .out] s x := ?_; ?_); unfold x; clear x; rotate_left; clear_value x; rotate_right)
    | (extract_lets +onlyGivenNames x; unfold x; clear x)
    | ((with_reducible apply Only.ite) <;> intro _)
    | ((with_reducible apply Only.ite2) <;> intro _)
    | ((with_reducible apply Only.step (cacheDrop_only _ _)); focus rfl)
    | ((with_reducible apply Only.step (cacheKeep_only _ _ _ _)); focus rfl)
    | ((with_reducible apply Only.step (touchRun_only _ _ _ _)); focus rfl)
    | ((with_reducible apply Only.foldl); intro x a hx; try beta_reduce)
    | (split)
    | ((with_reducible apply Only.upd); rotate_left; focus (intro p hp; cases p <;> first | rfl | exact ⟨rfl, rfl, rfl⟩ | exact absurd (by decide) hp))

theorem adapterTile_only (c : Nat) (l : Nat) (ctx : Nat) (vec : Nat) (xs : List Int) (poison : Bool) (s : State) :
    Only [.power, .doms, .gov, .time, .cause, .counters, .events, .que, .held, .model, .flow, .hbr, .banks, .islands, .clusters, .integ, .strait, .out, .free] s (adapterTile c l ctx vec xs poison s) := by
  unfold adapterTile
  repeat' first
    | with_reducible exact Only.refl _ _
    | with_reducible assumption
    | (extract_lets +onlyGivenNames x; unfold x; clear x)
    | ((with_reducible apply Only.ite) <;> intro _)
    | ((with_reducible apply Only.step (adapterFetch_only _ _ _ _)); focus rfl)
    | ((with_reducible apply Only.step (adapterLost_only _ _)); focus rfl)
    | ((with_reducible apply Only.step (raise_only _ _ _ _)); focus rfl)
    | ((with_reducible apply Only.step (shankAdd_only _ _ _ _ _ _ _ _ _)); focus rfl)
    | ((with_reducible apply Only.foldl); intro x a hx; try beta_reduce)
    | (split)
    | ((with_reducible apply Only.upd); rotate_left; focus (intro p hp; cases p <;> first | rfl | exact ⟨rfl, rfl, rfl⟩ | exact absurd (by decide) hp))

theorem kvStore_only (c : Nat) (y : LayerPlan) (ctx : Nat) (token : Nat) (b : Bytes) (poison : Bool) (s : State) :
    Only [.time, .cause, .counters, .events, .held, .hbr, .integ, .out] s (kvStore c y ctx token b poison s) := by
  unfold kvStore
  repeat' first
    | with_reducible exact Only.refl _ _
    | with_reducible assumption
    | ((with_reducible apply Only.step (storeRun_only _ _ _ _ _)); focus rfl)
    | (split)

theorem kvPut_only (c : Nat) (l : Nat) (x : Launch) (y : LayerPlan) (v : Nat) (input : Bytes) (poison : Bool) (s : State) :
    Only [.time, .cause, .counters, .events, .held, .model, .hbr, .integ, .out] s (kvPut c l x y v input poison s) := by
  unfold kvPut
  repeat' first
    | with_reducible exact Only.refl _ _
    | with_reducible assumption
    | ((with_reducible apply Only.ite) <;> intro _)
    | ((with_reducible apply Only.step (kvStore_only _ _ _ _ _ _ _)); focus rfl)
    | ((with_reducible apply Only.step (modLaunch_only _ _ _)); focus rfl)
    | (split)

theorem lookupLost_only (x : Launch) (p : LastPlan) (slices : List Nat) (idx : Nat) (s : State) :
    Only [.time, .counters, .events, .held, .model, .banks, .integ, .out] s (lookupLost x p slices idx s) := by
  unfold lookupLost
  repeat' first
    | with_reducible exact Only.refl _ _
    | with_reducible assumption
    | ((with_reducible apply Only.ite) <;> intro _)
    | ((with_reducible apply Only.step (flagSlice_only _ _ _)); focus rfl)
    | ((with_reducible apply Only.step (nvPoisoned_only _ _ _)); focus rfl)
    | ((with_reducible apply Only.foldl); intro x a hx; try beta_reduce)
    | (split)

theorem stepMore_only (c : Nat) (x : Launch) (y : LayerPlan) (a : Aligned) (input extra : List Nat) (n k : Nat) (s : State) :
    Only [.counters, .clusters, .free] s (stepMore c x y a input extra n k s).2 := by
  induction n generalizing k s with
  | zero => exact Only.refl _ _
  | succ n ih =>
    unfold stepMore
    dsimp only
    refine Only.step (ih _ _) rfl ?_
    have h0 : ∀ p q, Only [.counters, .clusters, .free] s (bumpBy p q (if x.strict then (0, s) else takeFree s).2) := fun p q => by
      refine Only.step (bumpBy_only _ _ _) rfl ?_
      split
      · exact Only.refl _ _
      · exact (takeFree_only _).mono rfl
    generalize (stepOne x.strict y a input extra _ k).1 = r
    obtain ⟨t, ht⟩ : ∃ t, t = bumpBy (ob 0x5042 1) (stepOne x.strict y a input extra (if x.strict then (0, s) else takeFree s).1 k).2 (if x.strict then (0, s) else takeFree s).2 := ⟨_, rfl⟩
    replace h0 := ht ▸ h0 _ _
    rw [← ht]
    split <;> first | exact h0 | (refine Only.ite (fun _ => ?_) (fun _ => ?_) <;> first | exact h0 | exact Only.step (modCluster_only _ _ _) rfl h0)

theorem stepEnd_only (c : Nat) (l : Nat) (vec : Nat) (x : Launch) (y : LayerPlan) (rs : List StepNum) (bad : List Bool) (special : Bool) (poison : Bool) (s : State) :
    OnlyO [.time, .cause, .counters, .events, .que, .held, .model, .flow, .hbr, .integ, .out] s (stepEnd c l vec x y rs bad special poison s) := by
  unfold stepEnd
  repeat' first
    | with_reducible exact Only.refl _ _
    | with_reducible assumption
    | with_reducible exact OnlyO.none
    | (extract_lets +onlyGivenNames x; refine (have hx : Only [.time, .cause, .counters, .events, .que, .held, .model, .flow, .hbr, .integ, .out] s x := ?_; ?_); unfold x; clear x; rotate_left; clear_value x; rotate_right)
    | (extract_lets +onlyGivenNames x; unfold x; clear x)
    | with_reducible apply OnlyO.some
    | ((with_reducible apply Only.step (bumpBy_only _ _ _)); focus rfl)
    | ((with_reducible apply OnlyO.step (deliver_only _ _ _ _ _ _ _ _ _)); focus rfl)

theorem stepOut_only {P : List Part} {s₀ : State} (hs : subParts [.doms, .time, .cause, .counters, .events, .que, .held, .model, .flow, .hbr, .integ, .out] P = true)
    (c : Nat) (l : Nat) (vec : Nat) (x : Launch) (y : LayerPlan) (t : Tile) (rs : List StepNum) (bad : List Bool) (special : Bool) (poison : Bool) (lose : State → State)
    (hl : ∀ u, Only P s₀ u → Only P s₀ (lose u)) (s : State) (h : Only P s₀ s) :
    Only P s₀ (stepOut c l vec x y t rs bad special poison lose s).2 := by
  unfold stepOut
  extract_lets ready
  refine Only.ite2 (fun _ => Only.step ((deliverWake_only _ _ _).mono (P := [.doms, .time, .cause, .counters, .events, .que, .held, .model, .flow, .hbr, .integ, .out]) rfl) hs h) fun _ => ?_
  split
  · rename_i u e
    exact Only.step (((stepEnd_only _ _ _ _ _ _ _ _ _ _) u e).mono (P := [.doms, .time, .cause, .counters, .events, .que, .held, .model, .flow, .hbr, .integ, .out]) rfl) hs (hl _ h)
  · exact hl _ h

theorem kvRead_only (c : Nat) (x : Launch) (y : LayerPlan) (v : Nat) (s : State) : Only [.time, .cause, .counters, .events, .held, .hbr, .integ, .out] s (kvRead c x y v s).2 :=
  fetchRuns_only _ _ _

theorem stepTile_only (c : Nat) (t : Tile) (l : Nat) (vec : Nat) (input : Bytes) (special : Bool) (poison : Bool) (done : List StepNum) (s : State) :
    Only [.doms, .time, .cause, .counters, .events, .que, .held, .model, .flow, .hbr, .banks, .clusters, .integ, .out, .free] s (stepTile c t l vec input special poison done s).2 := by
  unfold stepTile
  split
  · exact Only.refl _ _
  · split
    · exact stepOut_only rfl _ _ _ _ _ _ _ _ _ _ _ (fun u h => Only.step (lookupLost_only _ _ _ _ _) rfl h) _ (Only.refl _ _)
    · extract_lets runs u z kv todo parts a
      have hu : Only [.doms, .time, .cause, .counters, .events, .que, .held, .model, .flow, .hbr, .banks, .clusters, .integ, .out, .free] s u := Only.step (kvPut_only _ _ _ _ _ _ _ _) rfl (Only.refl _ s)
      clear_value a parts todo kv z u runs
      refine Only.ite2 (fun _ => Only.step (runsWake_only _ _) rfl (Only.refl _ _)) fun _ => ?_
      refine Only.ite2 (fun _ => hu) fun _ => Only.ite2 (fun _ => hu) fun _ => ?_
      split
      rename_i state bad w e
      have hw : Only [.doms, .time, .cause, .counters, .events, .que, .held, .model, .flow, .hbr, .banks, .clusters, .integ, .out, .free] s w := by
        split at e
        · cases e; exact hu
        · exact Only.pair e (kvRead_only _ _ _ _ _) rfl hu
      split
      rename_i new v e
      have hv : Only [.doms, .time, .cause, .counters, .events, .que, .held, .model, .flow, .hbr, .banks, .clusters, .integ, .out, .free] s v := Only.pair e (stepMore_only _ _ _ _ _ _ _ _ _) rfl hw
      exact Only.ite2 (fun _ => hv) fun _ => stepOut_only rfl _ _ _ _ _ _ _ _ _ _ _ (fun u h => h) _ hv

theorem loadBuffer_only (c : Nat) (t : Tile) (s : State) :
    Only [.clusters] s (loadBuffer c t s) := by
  unfold loadBuffer
  repeat' first
    | with_reducible exact Only.refl _ _
    | with_reducible assumption
    | (extract_lets +onlyGivenNames x; unfold x; clear x)
    | ((with_reducible apply Only.step (modCluster_only _ _ _)); focus rfl)

theorem readBuffer_only (c : Nat) (s : State) : Only [.cause, .counters, .events, .held, .clusters, .integ, .out] s (readBuffer c s).2 := by
  refine List.foldlRecOn (motive := fun x : Bool × State => Only [.cause, .counters, .events, .held, .clusters, .integ, .out] s x.2) _ _ (Only.refl _ _) ?_
  rintro ⟨b, t⟩ h e -
  dsimp only
  split
  · exact Only.step (modCluster_only _ _ _) rfl (Only.step (correctedError_only _ _ _ _ _) rfl h)
  · exact Only.step (modCluster_only _ _ _) rfl (Only.step (correctedError_only _ _ _ _ _) rfl h)
  · exact Only.step (uncorrectable_only _ _ _) rfl h
  · exact h

theorem tileAsks_only (t : Tile) (s : State) :
    Only [.doms, .time, .cause, .counters, .events, .held, .hbr, .banks, .awl, .scheds, .integ, .out] s (tileAsks t s) := by
  unfold tileAsks
  repeat' first
    | with_reducible exact Only.refl _ _
    | with_reducible assumption
    | ((with_reducible apply Only.step (preemptRun_only _ _)); focus rfl)
    | ((with_reducible apply Only.step (runsWake_only _ _)); focus rfl)
    | ((with_reducible apply Only.foldl); intro x a hx; try beta_reduce)

theorem tileUses_only (c : Nat) (t : Tile) (s : State) :
    Only [.time, .cause, .counters, .events, .held, .hbr, .banks, .awl, .scheds, .integ, .out] s (tileUses c t s) := by
  unfold tileUses
  repeat' first
    | with_reducible exact Only.refl _ _
    | with_reducible assumption
    | (extract_lets +onlyGivenNames x; refine (have hx : Only [.time, .cause, .counters, .events, .held, .hbr, .banks, .awl, .scheds, .integ, .out] s x := ?_; ?_); unfold x; clear x; rotate_left; clear_value x; rotate_right)
    | ((with_reducible apply Only.step (noteUse_only _ _)); focus rfl)
    | ((with_reducible apply Only.step (preemptRun_only _ _)); focus rfl)
    | ((with_reducible apply Only.step (touchRun_only _ _ _ _)); focus rfl)
    | ((with_reducible apply Only.foldl); intro x a hx; try beta_reduce)
    | (split)

theorem endTile_only (c : Nat) (t : Tile) (s : State) :
    Only [.power, .doms, .gov, .time, .cause, .counters, .events, .monitors, .que, .held, .model, .flow, .hbr, .banks, .islands, .clusters, .awl, .scheds, .integ, .strait, .out, .free] s (endTile c t s).2 := by
  unfold endTile
  repeat' first
    | with_reducible exact Only.refl _ _
    | with_reducible assumption
    | (extract_lets +onlyGivenNames x; refine (have hx : Only [.power, .doms, .gov, .time, .cause, .counters, .events, .monitors, .que, .held, .model, .flow, .hbr, .banks, .islands, .clusters, .awl, .scheds, .integ, .strait, .out, .free] s x := ?_; ?_); unfold x; clear x; rotate_left; clear_value x; rotate_right)
    | ((with_reducible apply Only.ite2) <;> intro _)
    | ((with_reducible apply Only.step (adapterTile_only _ _ _ _ _ _ _)); focus rfl)
    | ((with_reducible apply Only.step (coverTile_only _ _ _ _ _ _ _)); focus rfl)
    | ((with_reducible apply Only.step (sendRecompute_only _ _ _)); focus rfl)
    | ((with_reducible apply Only.step (stepTile_only _ _ _ _ _ _ _ _ _)); focus rfl)
    | ((with_reducible apply Only.step (tileAsks_only _ _)); focus rfl)
    | ((with_reducible apply Only.step (tileUses_only _ _ _)); focus rfl)
    | (split)

theorem startQueued_only (c : Nat) (s : State) :
    Only [.doms, .time, .cause, .counters, .events, .held, .hbr, .banks, .clusters, .awl, .scheds, .integ, .out] s (startQueued c s) := by
  unfold startQueued
  repeat' first
    | with_reducible exact Only.refl _ _
    | with_reducible assumption
    | ((with_reducible apply Only.step (startRecompute_only _ _ _)); focus rfl)
    | ((with_reducible apply Only.foldl); intro x a hx; try beta_reduce)
    | (split)

theorem takeTile_only (c : Nat) (s : State) :
    Only [.doms, .time, .cause, .counters, .events, .held, .hbr, .banks, .clusters, .awl, .scheds, .integ, .out] s (takeTile c s) := by
  unfold takeTile
  repeat' first
    | with_reducible exact Only.refl _ _
    | with_reducible assumption
    | (extract_lets +onlyGivenNames x; refine (have hx : Only [.doms, .time, .cause, .counters, .events, .held, .hbr, .banks, .clusters, .awl, .scheds, .integ, .out] s x := ?_; ?_); unfold x; clear x; rotate_left; clear_value x; rotate_right)
    | ((with_reducible apply Only.step (loadBuffer_only _ _ _)); focus rfl)
    | ((with_reducible apply Only.step (modCluster_only _ _ _)); focus rfl)
    | ((with_reducible apply Only.step (startQueued_only _ _)); focus rfl)
    | (split)

theorem dropShank_only (c : Nat) (s : State) :
    Only [.gov] s (dropShank c s) := by
  unfold dropShank
  repeat' first
    | with_reducible exact Only.refl _ _
    | with_reducible assumption
    | (extract_lets +onlyGivenNames x; unfold x; clear x)
    | ((with_reducible apply Only.ite) <;> intro _)
    | (split)
    | ((with_reducible apply Only.upd); rotate_left; focus (intro p hp; cases p <;> first | rfl | exact ⟨rfl, rfl, rfl⟩ | exact absurd (by decide) hp))

theorem keepTile_only (c : Nat) (t : Option Tile) (s : State) :
    Only [.clusters] s (keepTile c t s) := by
  unfold keepTile
  repeat' first
    | with_reducible exact Only.refl _ _
    | with_reducible assumption
    | ((with_reducible apply Only.step (modCluster_only _ _ _)); focus rfl)
    | (split)

theorem execShankTileBoundary_only (cluster : Fin 16) (upsets : List (Nat × Nat)) (s : State) :
    OnlyR [.power, .doms, .gov, .time, .cause, .counters, .events, .monitors, .que, .held, .model, .flow, .hbr, .banks, .islands, .clusters, .awl, .scheds, .integ, .strait, .out, .free] s (execShankTileBoundary cluster upsets s) := by
  unfold execShankTileBoundary
  repeat' first
    | with_reducible exact Only.refl _ _
    | with_reducible assumption
    | (extract_lets +onlyGivenNames x; refine (have hx : Only [.power, .doms, .gov, .time, .cause, .counters, .events, .monitors, .que, .held, .model, .flow, .hbr, .banks, .islands, .clusters, .awl, .scheds, .integ, .strait, .out, .free] s x := ?_; ?_); unfold x; clear x; rotate_left; clear_value x; rotate_right)
    | (extract_lets +onlyGivenNames x; unfold x; clear x)
    | ((with_reducible apply OnlyR.ite) <;> intro _)
    | with_reducible apply OnlyR.next
    | ((with_reducible apply Only.step (clusterFailure_only _ _)); focus rfl)
    | ((with_reducible apply Only.step (dropShank_only _ _)); focus rfl)
    | ((with_reducible apply Only.step (endLaunch_only _ _)); focus rfl)
    | ((with_reducible apply Only.pair (by assumption) (endTile_only _ _ _)); focus rfl)
    | ((with_reducible apply Only.step (keepTile_only _ _ _)); focus rfl)
    | ((with_reducible apply Only.step (modCluster_only _ _ _)); focus rfl)
    | ((with_reducible apply Only.step (readBuffer_only _ _)); focus rfl)
    | ((with_reducible apply Only.step (settleLaunch_only _ _)); focus rfl)
    | ((with_reducible apply Only.step (takeTile_only _ _)); focus rfl)
    | (split)

theorem execRecomputeReceive_only (cluster : Fin 16) (s : State) :
    OnlyR [.doms, .gov, .cause, .counters, .clusters] s (execRecomputeReceive cluster s) := by
  unfold execRecomputeReceive
  repeat' first
    | with_reducible exact Only.refl _ _
    | with_reducible assumption
    | (extract_lets +onlyGivenNames x; unfold x; clear x)
    | with_reducible apply OnlyR.next
    | ((with_reducible apply Only.step (addTile_only _ _ _)); focus rfl)
    | ((with_reducible apply Only.step (wakeForRecomputes_only _)); focus rfl)
    | (split)

theorem execStreamReadRow_only (cluster : Fin 16) (n : Nat) (reads : List Bytes) (s : State) :
    OnlyR [.gov, .time, .cause, .counters, .events, .held, .model, .hbr, .banks, .clusters, .awl, .scheds, .integ, .out] s (execStreamReadRow cluster n reads s) := by
  unfold execStreamReadRow
  repeat' first
    | with_reducible exact Only.refl _ _
    | with_reducible assumption
    | (extract_lets +onlyGivenNames x; unfold x; clear x)
    | ((with_reducible apply Only.ite) <;> intro _)
    | ((with_reducible apply OnlyR.ite) <;> intro _)
    | with_reducible apply OnlyR.next
    | ((with_reducible apply Only.step (addTile_only _ _ _)); focus rfl)
    | ((with_reducible apply Only.step (bump_only _ _)); focus rfl)
    | ((with_reducible apply Only.step (flagSlice_only _ _ _)); focus rfl)
    | ((with_reducible apply Only.step (modCluster_only _ _ _)); focus rfl)
    | ((with_reducible apply Only.step (noteUse_only _ _)); focus rfl)
    | ((with_reducible apply Only.step (nvPoisoned_only _ _ _)); focus rfl)
    | ((with_reducible apply Only.step (nvRetried_only _)); focus rfl)
    | ((with_reducible apply Only.step (preemptRun_only _ _)); focus rfl)
    | (split)

theorem copyBank_only (n : Nat) (slabs : List (BitVec 16)) (s : State) :
    Only [.time, .cause, .counters, .events, .held, .model, .hbr, .banks, .integ, .out] s (copyBank n slabs s) := by
  unfold copyBank
  repeat' first
    | with_reducible exact Only.refl _ _
    | with_reducible assumption
    | (extract_lets +onlyGivenNames x; refine (have hx : Only [.time, .cause, .counters, .events, .held, .model, .hbr, .banks, .integ, .out] s x := ?_; ?_); unfold x; clear x; rotate_left; clear_value x; rotate_right)
    | (extract_lets +onlyGivenNames x; unfold x; clear x)
    | ((with_reducible apply Only.step (bumpBy_only _ _ _)); focus rfl)
    | ((with_reducible apply Only.step (noteUse_only _ _)); focus rfl)
    | ((with_reducible apply Only.step (nvPoisoned_only _ _ _)); focus rfl)
    | ((with_reducible apply Only.step (storeRun_only _ _ _ _ _)); focus rfl)
    | ((with_reducible apply Only.foldl); intro x a hx; try beta_reduce)
    | (split)
    | ((with_reducible apply Only.upd); rotate_left; focus (intro p hp; cases p <;> first | rfl | exact ⟨rfl, rfl, rfl⟩ | exact absurd (by decide) hp))

theorem coverBank_only (n : Nat) (s : State) :
    Only [.time, .cause, .counters, .events, .held, .model, .hbr, .banks, .awl, .scheds, .integ, .out] s (coverBank n s) := by
  unfold coverBank
  repeat' first
    | with_reducible exact Only.refl _ _
    | with_reducible assumption
    | (extract_lets +onlyGivenNames x; refine (have hx : Only [.time, .cause, .counters, .events, .held, .model, .hbr, .banks, .awl, .scheds, .integ, .out] s x := ?_; ?_); unfold x; clear x; rotate_left; clear_value x; rotate_right)
    | (extract_lets +onlyGivenNames x; unfold x; clear x)
    | ((with_reducible apply Only.ite) <;> intro _)
    | ((with_reducible apply Only.step (copyBank_only _ _ _)); focus rfl)
    | ((with_reducible apply Only.step (preemptRun_only _ _)); focus rfl)
    | (split)
    | ((with_reducible apply Only.upd); rotate_left; focus (intro p hp; cases p <;> first | rfl | exact ⟨rfl, rfl, rfl⟩ | exact absurd (by decide) hp))

theorem execCoverStart_only (c : CoverRef) (s : State) :
    OnlyR [.time, .cause, .counters, .events, .held, .model, .hbr, .banks, .awl, .scheds, .integ, .out] s (execCoverStart c s) := by
  unfold execCoverStart
  repeat' first
    | with_reducible exact Only.refl _ _
    | with_reducible assumption
    | with_reducible exact OnlyR.fault
    | with_reducible exact OnlyR.refused
    | (extract_lets +onlyGivenNames x; unfold x; clear x)
    | ((with_reducible apply OnlyR.ite) <;> intro _)
    | with_reducible apply OnlyR.next
    | ((with_reducible apply Only.step (coverBank_only _ _)); focus rfl)
    | ((with_reducible apply Only.foldl); intro x a hx; try beta_reduce)
    | (split)

end Sys2Proof.Laws
end

