-- ==== Sys2Proof/Laws/FrameLaunch.lean ====
section
/-! SUPPORT. For each function of launches and INFER that answers a state: the parts of the state that it may change. -/

namespace Sys2Proof.Laws

open Sys2Proof.Machine

theorem takeKv_only (a : Nat) (r : Req) (p : LastPlan) (s : State) :
    OnlyO [.que, .flow, .hbr] s (takeKv a r p s) := by
  unfold takeKv
  repeat' first
    | with_reducible exact Only.refl _ _
    | with_reducible assumption
    | with_reducible exact OnlyO.none
    | (extract_lets +onlyGivenNames x; unfold x; clear x)
    | ((with_reducible apply OnlyO.ite) <;> intro _)
    | with_reducible apply OnlyO.some
    | ((with_reducible apply Only.step (modReq_only _ _ _)); focus rfl)
    | ((with_reducible apply Only.step (noteKv_only _ _)); focus rfl)
    | ((with_reducible apply Only.step (poolTake_only _ _ _)); focus rfl)
    | (split)
    | ((with_reducible apply Only.upd); rotate_left; focus (intro p hp; cases p <;> first | rfl | exact ⟨rfl, rfl, rfl⟩ | exact absurd (by decide) hp))

theorem askStep_only (a : Nat) (r : Req) (p : LastPlan) (y : LayerPlan) (s : State) :
    Only [.gov, .que] s (askStep a r p y s) := by
  unfold askStep
  repeat' first
    | with_reducible exact Only.refl _ _
    | with_reducible assumption
    | (extract_lets +onlyGivenNames x; refine (have hx : Only [.gov, .que] s x := ?_; ?_); unfold x; clear x; rotate_left; clear_value x; rotate_right)
    | (extract_lets +onlyGivenNames x; unfold x; clear x)
    | ((with_reducible apply Only.step (modReq_only _ _ _)); focus rfl)
    | ((with_reducible apply Only.step (pushWork_only _ _)); focus rfl)
    | ((with_reducible apply Only.foldl); intro x a hx; try beta_reduce)

theorem startKv_only (a : Nat) (r : Req) (p : LastPlan) (s : State) :
    OnlyO [.que, .flow, .hbr] s (startKv a r p s) := by
  unfold startKv
  repeat' first
    | with_reducible exact Only.refl _ _
    | with_reducible assumption
    | with_reducible exact OnlyO.none
    | ((with_reducible apply OnlyO.ite) <;> intro _)
    | with_reducible apply OnlyO.some
    | ((with_reducible apply OnlyO.step (takeKv_only _ _ _ _)); focus rfl)

theorem askOne_only (a : Nat) (s : State) :
    Only [.power, .doms, .gov, .time, .cause, .counters, .events, .monitors, .que, .held, .model, .flow, .hbr, .islands, .clusters, .integ, .strait, .out, .free] s (askOne a s) := by
  unfold askOne
  repeat' first
    | with_reducible exact Only.refl _ _
    | with_reducible assumption
    | ((with_reducible apply Only.ite) <;> intro _)
    | ((with_reducible apply Only.step (askStep_only _ _ _ _ _)); focus rfl)
    | ((with_reducible apply Only.step (bump_only _ _)); focus rfl)
    | ((with_reducible apply Only.step (modReq_only _ _ _)); focus rfl)
    | ((with_reducible apply OnlyO.got (startKv_only _ _ _ _) (by assumption)); focus rfl)
    | ((with_reducible apply Only.step (stopRequest_only _ _ _ _ _)); focus rfl)
    | (split)

theorem formLaunches_only (n : Nat) (o : List Nat) (s : State) : Only [.strait, .out] s (formLaunches n o s) := by
  induction n generalizing s with
  | zero => exact Only.refl _ _
  | succ n ih =>
    unfold formLaunches
    split
    · exact Only.refl _ _
    · split
      · exact Only.refl _ _
      · extract_lets mb batch t gen keys s1 s2
        refine Only.step (ih _) rfl ?_
        have h1 : Only [.strait, .out] s s1 := by
          unfold s1 modStrait
          with_reducible apply Only.upd
          · exact Only.refl _ _
          · intro p hp; cases p <;> first | rfl | exact ⟨rfl, rfl, rfl⟩ | exact absurd (by decide) hp
        exact Only.foldl (fun x a hx => Only.step (sendCtl_only _ _ _ _) rfl hx) h1

theorem askAgreed_only (g : List (BitVec 64) × BitVec 16 × BitVec 64) (s : State) :
    Only [.power, .doms, .gov, .time, .cause, .counters, .events, .monitors, .que, .held, .model, .flow, .hbr, .islands, .clusters, .integ, .strait, .out, .free] s (askAgreed g s) := by
  unfold askAgreed
  repeat' first
    | with_reducible exact Only.refl _ _
    | with_reducible assumption
    | (extract_lets +onlyGivenNames x; refine (have hx : Only [.power, .doms, .gov, .time, .cause, .counters, .events, .monitors, .que, .held, .model, .flow, .hbr, .islands, .clusters, .integ, .strait, .out, .free] s x := ?_; ?_); unfold x; clear x; rotate_left; clear_value x; rotate_right)
    | (extract_lets +onlyGivenNames x; unfold x; clear x)
    | ((with_reducible apply Only.ite) <;> intro _)
    | ((with_reducible apply Only.step (ctxWrite_only _ _ _ _)); focus rfl)
    | ((with_reducible apply Only.step (modReq_only _ _ _)); focus rfl)
    | ((with_reducible apply Only.step (pushWork_only _ _)); focus rfl)
    | ((with_reducible apply OnlyO.got (startKv_only _ _ _ _) (by assumption)); focus rfl)
    | ((with_reducible apply Only.step (stopRequest_only _ _ _ _ _)); focus rfl)
    | ((with_reducible apply Only.foldl); intro x a hx; try beta_reduce)
    | (split)

theorem refuseAgreed_only (g : List (BitVec 64) × BitVec 16 × BitVec 64) (s : State) :
    Only [.power, .doms, .gov, .time, .cause, .counters, .events, .monitors, .que, .held, .model, .flow, .hbr, .islands, .clusters, .integ, .strait, .out, .free] s (refuseAgreed g s) := by
  unfold refuseAgreed
  repeat' first
    | with_reducible exact Only.refl _ _
    | with_reducible assumption
    | ((with_reducible apply Only.step (stopRequest_only _ _ _ _ _)); focus rfl)
    | ((with_reducible apply Only.foldl); intro x a hx; try beta_reduce)

theorem sweepAgreed_only (s : State) :
    Only [.power, .doms, .gov, .time, .cause, .counters, .events, .monitors, .que, .held, .model, .flow, .hbr, .islands, .clusters, .integ, .strait, .out, .free] s (sweepAgreed s) := by
  unfold sweepAgreed
  repeat' first
    | with_reducible exact Only.refl _ _
    | with_reducible assumption
    | ((with_reducible apply Only.ite) <;> intro _)
    | ((with_reducible apply Only.step (askAgreed_only _ _)); focus rfl)
    | ((with_reducible apply Only.step (refuseAgreed_only _ _)); focus rfl)
    | ((with_reducible apply Only.foldl); intro x a hx; try beta_reduce)
    | (unfold modStrait)
    | (split)
    | ((with_reducible apply Only.upd); rotate_left; focus (intro p hp; cases p <;> first | rfl | exact ⟨rfl, rfl, rfl⟩ | exact absurd (by decide) hp))

theorem dropReports_only (s : State) :
    Only [.strait] s (dropReports s) := by
  unfold dropReports
  repeat' first
    | with_reducible exact Only.refl _ _
    | with_reducible assumption
    | (extract_lets +onlyGivenNames x; unfold x; clear x)
    | (unfold modStrait)
    | ((with_reducible apply Only.upd); rotate_left; focus (intro p hp; cases p <;> first | rfl | exact ⟨rfl, rfl, rfl⟩ | exact absurd (by decide) hp))

theorem askReady_only (s : State) :
    Only [.power, .doms, .gov, .time, .cause, .counters, .events, .monitors, .que, .held, .model, .flow, .hbr, .islands, .clusters, .integ, .strait, .out, .free] s (askReady s) := by
  unfold askReady
  repeat' first
    | with_reducible exact Only.refl _ _
    | with_reducible assumption
    | (extract_lets +onlyGivenNames x; refine (have hx : Only [.power, .doms, .gov, .time, .cause, .counters, .events, .monitors, .que, .held, .model, .flow, .hbr, .islands, .clusters, .integ, .strait, .out, .free] s x := ?_; ?_); unfold x; clear x; rotate_left; clear_value x; rotate_right)
    | (extract_lets +onlyGivenNames x; unfold x; clear x)
    | ((with_reducible apply Only.ite) <;> intro _)
    | ((with_reducible apply Only.step (askOne_only _ _)); focus rfl)
    | ((with_reducible apply Only.step (dropReports_only _)); focus rfl)
    | ((with_reducible apply Only.step (formLaunches_only _ _ _)); focus rfl)
    | ((with_reducible apply Only.step (sweepAgreed_only _)); focus rfl)
    | ((with_reducible apply Only.foldl); intro x a hx; try beta_reduce)

theorem openJoins_only (l : Nat) (c : Nat) (v : Nat) (js : List JoinAt) (adapters : List Nat) (ctxOf : Nat → Option Nat) (s : State) :
    Only [.islands, .clusters] s (openJoins l c v js adapters ctxOf s) := by
  unfold openJoins
  repeat' first
    | with_reducible exact Only.refl _ _
    | with_reducible assumption
    | (extract_lets +onlyGivenNames x; refine (have hx : Only [.islands, .clusters] s x := ?_; ?_); unfold x; clear x; rotate_left; clear_value x; rotate_right)
    | (extract_lets +onlyGivenNames x; unfold x; clear x)
    | ((with_reducible apply Only.ite) <;> intro _)
    | ((with_reducible apply Only.step (modIsland_only _ _ _)); focus rfl)
    | ((with_reducible apply Only.step (setHomeJoins_only _ _ _)); focus rfl)
    | ((with_reducible apply Only.foldl); intro x a hx; try beta_reduce)

theorem wakeFor_only (x : LaunchSpec) (s : State) :
    Only [.doms, .cause, .counters] s (wakeFor x s) := by
  unfold wakeFor
  repeat' first
    | with_reducible exact Only.refl _ _
    | with_reducible assumption
    | (extract_lets +onlyGivenNames x; refine (have hx : Only [.doms, .cause, .counters] s x := ?_; ?_); unfold x; clear x; rotate_left; clear_value x; rotate_right)
    | ((with_reducible apply Only.ite) <;> intro _)
    | ((with_reducible apply Only.step (wantOn_only _ _)); focus rfl)
    | ((with_reducible apply Only.foldl); intro x a hx; try beta_reduce)
    | (split)

theorem grantMcast_only (l : Nat) (x : LaunchSpec) (laces : List (LacePlan × Nat)) (s : State) :
    Only [.model, .flow, .strait, .out] s (grantMcast l x laces s) := by
  unfold grantMcast
  repeat' first
    | with_reducible exact Only.refl _ _
    | with_reducible assumption
    | (extract_lets +onlyGivenNames x; refine (have hx : Only [.model, .flow, .strait, .out] s x := ?_; ?_); unfold x; clear x; rotate_left; clear_value x; rotate_right)
    | (extract_lets +onlyGivenNames x; unfold x; clear x)
    | ((with_reducible apply Only.step (modLace_only _ _ _)); focus rfl)
    | ((with_reducible apply Only.step (modLaunch_only _ _ _)); focus rfl)
    | ((with_reducible apply Only.step (sendCtl_only _ _ _ _)); focus rfl)
    | ((with_reducible apply Only.foldl); intro x a hx; try beta_reduce)
    | (split)

theorem issueStreams_only (x : LaunchSpec) (laces : List (LacePlan × Nat)) (offsets : List (Nat × Nat)) (s : State) :
    Only [.power, .doms, .gov, .time, .cause, .counters, .events, .que, .held, .model, .flow, .hbr, .islands, .clusters, .integ, .strait, .out, .free] s (issueStreams x laces offsets s) := by
  unfold issueStreams
  repeat' first
    | with_reducible exact Only.refl _ _
    | with_reducible assumption
    | (extract_lets +onlyGivenNames x; unfold x; clear x)
    | ((with_reducible apply Only.ite) <;> intro _)
    | ((with_reducible apply Only.step (issueDesc_only _ _)); focus rfl)
    | ((with_reducible apply Only.foldl); intro x a hx; try beta_reduce)
    | (split)

theorem admitLaunch_only (x : LaunchSpec) (s : State) :
    Only [.power, .doms, .gov, .time, .cause, .counters, .events, .que, .held, .model, .flow, .hbr, .islands, .clusters, .integ, .strait, .out, .free] s (admitLaunch x s) := by
  unfold admitLaunch
  repeat' first
    | with_reducible exact Only.refl _ _
    | with_reducible assumption
    | (extract_lets +onlyGivenNames x; unfold x; clear x)
    | ((with_reducible apply Only.ite) <;> intro _)
    | ((with_reducible apply Only.step (bump_only _ _)); focus rfl)
    | ((with_reducible apply Only.step (grantMcast_only _ _ _ _)); focus rfl)
    | ((with_reducible apply Only.step (issueStreams_only _ _ _ _)); focus rfl)
    | ((with_reducible apply Only.step (modIsland_only _ _ _)); focus rfl)
    | ((with_reducible apply Only.step (modReq_only _ _ _)); focus rfl)
    | ((with_reducible apply Only.step (openJoins_only _ _ _ _ _ _ _)); focus rfl)
    | ((with_reducible apply Only.step (poolTake_only _ _ _)); focus rfl)
    | ((with_reducible apply Only.step (settleLaunch_only _ _)); focus rfl)
    | ((with_reducible apply Only.foldl); intro x a hx; try beta_reduce)
    | (split)
    | ((with_reducible apply Only.upd); rotate_left; focus (intro p hp; cases p <;> first | rfl | exact ⟨rfl, rfl, rfl⟩ | exact absurd (by decide) hp))

theorem countWait_only (g : GovItem) (s : State) :
    Only [.gov, .counters] s (countWait g s) := by
  unfold countWait
  repeat' first
    | with_reducible exact Only.refl _ _
    | with_reducible assumption
    | (extract_lets +onlyGivenNames x; unfold x; clear x)
    | ((with_reducible apply Only.ite) <;> intro _)
    | ((with_reducible apply Only.step (bump_only _ _)); focus rfl)
    | (split)
    | ((with_reducible apply Only.upd); rotate_left; focus (intro p hp; cases p <;> first | rfl | exact ⟨rfl, rfl, rfl⟩ | exact absurd (by decide) hp))

theorem admitHead_only (g : GovItem) (rest : List GovItem) (s : State) :
    Only [.power, .doms, .gov, .time, .cause, .counters, .events, .que, .held, .model, .flow, .hbr, .islands, .clusters, .integ, .strait, .out, .free] s (admitHead g rest s) := by
  unfold admitHead
  repeat' first
    | with_reducible exact Only.refl _ _
    | with_reducible assumption
    | (extract_lets +onlyGivenNames x; unfold x; clear x)
    | ((with_reducible apply Only.ite) <;> intro _)
    | ((with_reducible apply Only.step (admitLaunch_only _ _)); focus rfl)
    | ((with_reducible apply Only.step (countWait_only _ _)); focus rfl)
    | ((with_reducible apply Only.step (wakeFor_only _ _)); focus rfl)
    | (split)
    | ((with_reducible apply Only.upd); rotate_left; focus (intro p hp; cases p <;> first | rfl | exact ⟨rfl, rfl, rfl⟩ | exact absurd (by decide) hp))

theorem execLaunchAdmit_only (s : State) :
    OnlyR [.power, .doms, .gov, .time, .regs, .cause, .counters, .events, .monitors, .que, .held, .model, .flow, .hbr, .banks, .islands, .clusters, .scheds, .integ, .strait, .out, .free] s (execLaunchAdmit s) := by
  unfold execLaunchAdmit
  repeat' first
    | with_reducible exact Only.refl _ _
    | with_reducible assumption
    | (extract_lets +onlyGivenNames x; refine (have hx : Only [.power, .doms, .gov, .time, .regs, .cause, .counters, .events, .monitors, .que, .held, .model, .flow, .hbr, .banks, .islands, .clusters, .scheds, .integ, .strait, .out, .free] s x := ?_; ?_); unfold x; clear x; rotate_left; clear_value x; rotate_right)
    | ((with_reducible apply OnlyR.ite) <;> intro _)
    | with_reducible apply OnlyR.next
    | ((with_reducible apply Only.step (activateNow_only _)); focus rfl)
    | ((with_reducible apply Only.step (admitHead_only _ _ _)); focus rfl)
    | ((with_reducible apply Only.step (askReady_only _)); focus rfl)
    | (split)

theorem addReport_only (member slot ctx : Nat) (key : BitVec 64) (s : State) : Only [.strait] s (addReport member slot ctx key s) := by
  unfold addReport modStrait
  with_reducible apply Only.upd
  · exact Only.refl _ _
  · intro p hp; cases p <;> first | rfl | exact ⟨rfl, rfl, rfl⟩ | exact absurd (by decide) hp

theorem reportRequest_only (slot : Nat) (ctx : Nat) (key : BitVec 64) (s : State) :
    Only [.strait, .out] s (reportRequest slot ctx key s) := by
  unfold reportRequest
  repeat' first
    | with_reducible exact Only.refl _ _
    | with_reducible assumption
    | ((with_reducible apply Only.ite) <;> intro _)
    | ((with_reducible apply Only.step (addReport_only _ _ _ _ _)); focus rfl)
    | ((with_reducible apply Only.step (sendCtl_only _ _ _ _)); focus rfl)
    | (split)

theorem execInfer_only (a : Fin 4096) (list : HostRead) (s : State) :
    OnlyR [.power, .doms, .gov, .time, .cause, .counters, .events, .monitors, .que, .held, .model, .flow, .hbr, .islands, .clusters, .integ, .strait, .out, .free] s (execInfer a list s) := by
  unfold execInfer
  repeat' first
    | with_reducible exact Only.refl _ _
    | with_reducible assumption
    | (extract_lets +onlyGivenNames x; refine (have hx : Only [.power, .doms, .gov, .time, .cause, .counters, .events, .monitors, .que, .held, .model, .flow, .hbr, .islands, .clusters, .integ, .strait, .out, .free] s x := ?_; ?_); unfold x; clear x; rotate_left; clear_value x; rotate_right)
    | (extract_lets +onlyGivenNames x; unfold x; clear x)
    | ((with_reducible apply Only.ite) <;> intro _)
    | ((with_reducible apply OnlyR.ite) <;> intro _)
    | with_reducible apply OnlyR.next
    | ((with_reducible apply Only.step (askReady_only _)); focus rfl)
    | ((with_reducible apply Only.step (ctxWrite_only _ _ _ _)); focus rfl)
    | ((with_reducible apply Only.step (finishAt_only _ _ _ _)); focus rfl)
    | ((with_reducible apply Only.step (finishSt_only _ _ _)); focus rfl)
    | ((with_reducible apply Only.step (reportRequest_only _ _ _ _)); focus rfl)
    | ((with_reducible apply Only.step (runWake_only _ _ _)); focus rfl)
    | ((with_reducible apply Only.step (setStage_only _ _ _)); focus rfl)
    | (split)
    | ((with_reducible apply Only.upd); rotate_left; focus (intro p hp; cases p <;> first | rfl | exact ⟨rfl, rfl, rfl⟩ | exact absurd (by decide) hp))

theorem advanceContext_only (s : State) (r : Req) :
    Only [.hbr, .free] s (advanceContext s r) := by
  unfold advanceContext
  repeat' first
    | with_reducible exact Only.refl _ _
    | with_reducible assumption
    | (extract_lets +onlyGivenNames x; refine (have hx : Only [.hbr, .free] s x := ?_; ?_); unfold x; clear x; rotate_left; clear_value x; rotate_right)
    | (extract_lets +onlyGivenNames x; unfold x; clear x)
    | ((with_reducible apply Only.ite) <;> intro _)
    | ((with_reducible apply Only.step (ctxWrite_only _ _ _ _)); focus rfl)
    | ((with_reducible apply Only.step (takeFree_only _)); focus rfl)

theorem execInferComplete_only (a : Fin 4096) (s : State) :
    OnlyR [.power, .doms, .gov, .time, .cause, .counters, .events, .monitors, .que, .held, .model, .flow, .hbr, .islands, .clusters, .integ, .strait, .out, .free] s (execInferComplete a s) := by
  unfold execInferComplete
  repeat' first
    | with_reducible exact Only.refl _ _
    | with_reducible assumption
    | (extract_lets +onlyGivenNames x; refine (have hx : Only [.power, .doms, .gov, .time, .cause, .counters, .events, .monitors, .que, .held, .model, .flow, .hbr, .islands, .clusters, .integ, .strait, .out, .free] s x := ?_; ?_); unfold x; clear x; rotate_left; clear_value x; rotate_right)
    | (extract_lets +onlyGivenNames x; unfold x; clear x)
    | ((with_reducible apply Only.ite) <;> intro _)
    | ((with_reducible apply OnlyR.ite) <;> intro _)
    | with_reducible apply OnlyR.next
    | ((with_reducible apply Only.step (advanceContext_only _ _)); focus rfl)
    | ((with_reducible apply Only.step (askReady_only _)); focus rfl)
    | ((with_reducible apply Only.step (bump_only _ _)); focus rfl)
    | ((with_reducible apply Only.step (countMiss_only _ _)); focus rfl)
    | ((with_reducible apply Only.step (discardRequest_only _ _)); focus rfl)
    | ((with_reducible apply Only.step (finish_only _ _ _)); focus rfl)
    | ((with_reducible apply Only.step (modReq_only _ _ _)); focus rfl)
    | (split)

theorem execCtxOpen_only (a : Fin 4096) (s : State) :
    OnlyR [.doms, .time, .cause, .counters, .events, .monitors, .que, .held, .hbr, .integ, .out] s (execCtxOpen a s) := by
  unfold execCtxOpen
  repeat' first
    | with_reducible exact Only.refl _ _
    | with_reducible assumption
    | (extract_lets +onlyGivenNames x; unfold x; clear x)
    | ((with_reducible apply OnlyR.ite) <;> intro _)
    | with_reducible apply OnlyR.next
    | ((with_reducible apply Only.step (ctxWrite_only _ _ _ _)); focus rfl)
    | ((with_reducible apply Only.step (finishSt_only _ _ _)); focus rfl)
    | (split)

theorem freeContext_only (ctx : Nat) (s : State) :
    Only [.que, .flow, .hbr] s (freeContext ctx s) := by
  unfold freeContext
  repeat' first
    | with_reducible exact Only.refl _ _
    | with_reducible assumption
    | (extract_lets +onlyGivenNames x; refine (have hx : Only [.que, .flow, .hbr] s x := ?_; ?_); unfold x; clear x; rotate_left; clear_value x; rotate_right)
    | (extract_lets +onlyGivenNames x; unfold x; clear x)
    | ((with_reducible apply Only.step (ctxWrite_only _ _ _ _)); focus rfl)
    | ((with_reducible apply Only.step (poolReturn_only _ _ _)); focus rfl)
    | ((with_reducible apply Only.upd); rotate_left; focus (intro p hp; cases p <;> first | rfl | exact ⟨rfl, rfl, rfl⟩ | exact absurd (by decide) hp))

theorem execCtxClose_only (a : Fin 4096) (s : State) :
    OnlyR [.que] s (execCtxClose a s) := by
  unfold execCtxClose
  repeat' first
    | with_reducible exact Only.refl _ _
    | with_reducible assumption
    | with_reducible apply OnlyR.next
    | ((with_reducible apply Only.step (setStage_only _ _ _)); focus rfl)
    | (split)

theorem execCtxCloseRelease_only (a : Fin 4096) (s : State) :
    OnlyR [.doms, .time, .cause, .counters, .events, .monitors, .que, .held, .flow, .hbr, .integ, .out] s (execCtxCloseRelease a s) := by
  unfold execCtxCloseRelease
  repeat' first
    | with_reducible exact Only.refl _ _
    | with_reducible assumption
    | with_reducible apply OnlyR.next
    | ((with_reducible apply Only.step (finishSt_only _ _ _)); focus rfl)
    | ((with_reducible apply Only.step (freeContext_only _ _)); focus rfl)
    | (split)

theorem execCtxSave_only (a : Fin 4096) (s : State) :
    OnlyR [.que] s (execCtxSave a s) := by
  unfold execCtxSave
  repeat' first
    | with_reducible exact Only.refl _ _
    | with_reducible assumption
    | with_reducible apply OnlyR.next
    | ((with_reducible apply Only.step (setStage_only _ _ _)); focus rfl)
    | (split)

theorem execCtxSaveWrite_only (a : Fin 4096) (s : State) :
    OnlyR [.doms, .time, .cause, .counters, .events, .monitors, .que, .held, .flow, .hbr, .integ, .out] s (execCtxSaveWrite a s) := by
  unfold execCtxSaveWrite
  repeat' first
    | with_reducible exact Only.refl _ _
    | with_reducible assumption
    | (extract_lets +onlyGivenNames x; refine (have hx : Only [.doms, .time, .cause, .counters, .events, .monitors, .que, .held, .flow, .hbr, .integ, .out] s x := ?_; ?_); unfold x; clear x; rotate_left; clear_value x; rotate_right)
    | (extract_lets +onlyGivenNames x; unfold x; clear x)
    | ((with_reducible apply OnlyR.ite) <;> intro _)
    | with_reducible apply OnlyR.next
    | ((with_reducible apply Only.step (finish_only _ _ _)); focus rfl)
    | ((with_reducible apply Only.step (freeContext_only _ _)); focus rfl)
    | ((with_reducible apply Only.step (runsWake_only _ _)); focus rfl)
    | ((with_reducible apply Only.step (sendPort_only _ _ _)); focus rfl)
    | ((with_reducible apply Only.step (touchRun_only _ _ _ _)); focus rfl)
    | ((with_reducible apply Only.foldl); intro x a hx; try beta_reduce)
    | (split)
    | ((with_reducible apply Only.upd); rotate_left; focus (intro p hp; cases p <;> first | rfl | exact ⟨rfl, rfl, rfl⟩ | exact absurd (by decide) hp))

theorem restoreSlabs_only (b : Bytes) (bad : Bool) (hs : List (BitVec 16)) (s : State) :
    Only [.time, .cause, .counters, .events, .held, .hbr, .integ, .out] s (restoreSlabs b bad hs s) := by
  unfold restoreSlabs
  repeat' first
    | with_reducible exact Only.refl _ _
    | with_reducible assumption
    | (extract_lets +onlyGivenNames x; unfold x; clear x)
    | ((with_reducible apply Only.step (storeRun_only _ _ _ _ _)); focus rfl)
    | ((with_reducible apply Only.foldl); intro x a hx; try beta_reduce)

theorem execCtxRestore_only (a : Fin 4096) (saved : HostRead) (s : State) :
    OnlyR [.doms, .time, .cause, .counters, .events, .monitors, .que, .held, .flow, .hbr, .integ, .out] s (execCtxRestore a saved s) := by
  unfold execCtxRestore
  repeat' first
    | with_reducible exact Only.refl _ _
    | with_reducible assumption
    | (extract_lets +onlyGivenNames x; unfold x; clear x)
    | ((with_reducible apply OnlyR.ite) <;> intro _)
    | with_reducible apply OnlyR.next
    | ((with_reducible apply Only.step (finishAt_only _ _ _ _)); focus rfl)
    | ((with_reducible apply Only.step (finishSt_only _ _ _)); focus rfl)
    | ((with_reducible apply Only.step (harbWrite_only _ _ _ _)); focus rfl)
    | ((with_reducible apply Only.step (noteKv_only _ _)); focus rfl)
    | ((with_reducible apply Only.step (poolTake_only _ _ _)); focus rfl)
    | ((with_reducible apply Only.step (restoreSlabs_only _ _ _ _)); focus rfl)
    | ((with_reducible apply Only.step (runsWake_only _ _)); focus rfl)
    | (split)
    | ((with_reducible apply Only.upd); rotate_left; focus (intro p hp; cases p <;> first | rfl | exact ⟨rfl, rfl, rfl⟩ | exact absurd (by decide) hp))

theorem execFence_only (a : Fin 4096) (s : State) :
    OnlyR [.que] s (execFence a s) := by
  unfold execFence
  repeat' first
    | with_reducible exact Only.refl _ _
    | with_reducible assumption
    | (extract_lets +onlyGivenNames x; unfold x; clear x)
    | with_reducible apply OnlyR.next
    | (split)
    | ((with_reducible apply Only.upd); rotate_left; focus (intro p hp; cases p <;> first | rfl | exact ⟨rfl, rfl, rfl⟩ | exact absurd (by decide) hp))

theorem execFenceRelease_only (a : Fin 4096) (s : State) :
    OnlyR [.doms, .time, .cause, .counters, .events, .monitors, .que, .held, .hbr, .integ, .out] s (execFenceRelease a s) := by
  unfold execFenceRelease
  repeat' first
    | with_reducible exact Only.refl _ _
    | with_reducible assumption
    | ((with_reducible apply OnlyR.ite) <;> intro _)
    | with_reducible apply OnlyR.next
    | ((with_reducible apply Only.step (finishSt_only _ _ _)); focus rfl)
    | (split)

end Sys2Proof.Laws
end

