-- ==== Sys2Proof/Laws/FrameImage.lean ====
section
/-! SUPPORT. For each function of images, placements, swaps and sealing that answers a state: the parts of the state that it may change. -/

namespace Sys2Proof.Laws

open Sys2Proof.Machine

theorem setImage_only (k : Nat) (r : ImageRec) (s : State) :
    Only [.model] s (setImage k r s) := by
  unfold setImage
  repeat' first
    | with_reducible exact Only.refl _ _
    | with_reducible assumption
    | ((with_reducible apply Only.upd); rotate_left; focus (intro p hp; cases p <;> first | rfl | exact ⟨rfl, rfl, rfl⟩ | exact absurd (by decide) hp))

theorem execLoadManifest_only (a : Fin 4096) (manifest : HostRead) (s : State) :
    OnlyR [.doms, .time, .cause, .counters, .events, .monitors, .que, .held, .model, .hbr, .integ, .out] s (execLoadManifest a manifest s) := by
  unfold execLoadManifest
  repeat' first
    | with_reducible exact Only.refl _ _
    | with_reducible assumption
    | (extract_lets +onlyGivenNames x; unfold x; clear x)
    | ((with_reducible apply OnlyR.ite) <;> intro _)
    | with_reducible apply OnlyR.next
    | ((with_reducible apply Only.step (bump_only _ _)); focus rfl)
    | ((with_reducible apply Only.step (finish_only _ _ _)); focus rfl)
    | ((with_reducible apply Only.step (finishAt_only _ _ _ _)); focus rfl)
    | ((with_reducible apply Only.step (setImage_only _ _ _)); focus rfl)
    | (split)

theorem placedAnew_only (hash : Digest) (s : State) :
    Only [.model] s (placedAnew hash s) := by
  unfold placedAnew
  repeat' first
    | with_reducible exact Only.refl _ _
    | with_reducible assumption
    | ((with_reducible apply Only.step (setImage_only _ _ _)); focus rfl)
    | (split)

theorem imageReleased_only (hash : Digest) (s : State) :
    Only [.model] s (imageReleased hash s) := by
  unfold imageReleased
  repeat' first
    | with_reducible exact Only.refl _ _
    | with_reducible assumption
    | ((with_reducible apply Only.ite) <;> intro _)
    | ((with_reducible apply Only.step (placedAnew_only _ _)); focus rfl)

theorem execLoadShard_only (a : Fin 4096) (hash : HostRead) (s : State) :
    OnlyR [.doms, .time, .cause, .counters, .events, .monitors, .que, .held, .model, .hbr, .integ, .out] s (execLoadShard a hash s) := by
  unfold execLoadShard
  repeat' first
    | with_reducible exact Only.refl _ _
    | with_reducible assumption
    | (extract_lets +onlyGivenNames x; unfold x; clear x)
    | ((with_reducible apply OnlyR.ite) <;> intro _)
    | with_reducible apply OnlyR.next
    | ((with_reducible apply Only.step (finishAt_only _ _ _ _)); focus rfl)
    | ((with_reducible apply Only.step (finishSt_only _ _ _)); focus rfl)
    | ((with_reducible apply Only.step (setStage_only _ _ _)); focus rfl)
    | (split)
    | ((with_reducible apply Only.upd); rotate_left; focus (intro p hp; cases p <;> first | rfl | exact ⟨rfl, rfl, rfl⟩ | exact absurd (by decide) hp))

theorem endLoad_only (a : Nat) (st : Nat) (l : Load) (s : State) :
    Only [.doms, .time, .cause, .counters, .events, .monitors, .que, .held, .model, .hbr, .integ, .out] s (endLoad a st l s) := by
  unfold endLoad
  repeat' first
    | with_reducible exact Only.refl _ _
    | with_reducible assumption
    | (extract_lets +onlyGivenNames x; refine (have hx : Only [.doms, .time, .cause, .counters, .events, .monitors, .que, .held, .model, .hbr, .integ, .out] s x := ?_; ?_); unfold x; clear x; rotate_left; clear_value x; rotate_right)
    | (extract_lets +onlyGivenNames x; unfold x; clear x)
    | ((with_reducible apply Only.ite) <;> intro _)
    | ((with_reducible apply Only.step (bump_only _ _)); focus rfl)
    | ((with_reducible apply Only.step (finish_only _ _ _)); focus rfl)
    | (split)
    | ((with_reducible apply Only.upd); rotate_left; focus (intro p hp; cases p <;> first | rfl | exact ⟨rfl, rfl, rfl⟩ | exact absurd (by decide) hp))

theorem retryLoad_only (a : Nat) (l : Load) (s : State) :
    Only [.doms, .time, .cause, .counters, .events, .monitors, .que, .held, .model, .hbr, .integ, .out] s (retryLoad a l s) := by
  unfold retryLoad
  repeat' first
    | with_reducible exact Only.refl _ _
    | with_reducible assumption
    | (extract_lets +onlyGivenNames x; unfold x; clear x)
    | ((with_reducible apply Only.ite) <;> intro _)
    | ((with_reducible apply Only.step (bump_only _ _)); focus rfl)
    | ((with_reducible apply Only.step (endLoad_only _ _ _ _)); focus rfl)
    | (split)
    | ((with_reducible apply Only.upd); rotate_left; focus (intro p hp; cases p <;> first | rfl | exact ⟨rfl, rfl, rfl⟩ | exact absurd (by decide) hp))

theorem execVerifyPassDone_only (a : Fin 4096) (shard : HostRead) (s : State) :
    OnlyR [.doms, .time, .cause, .counters, .events, .monitors, .que, .held, .model, .hbr, .integ, .out] s (execVerifyPassDone a shard s) := by
  unfold execVerifyPassDone
  repeat' first
    | with_reducible exact Only.refl _ _
    | with_reducible assumption
    | ((with_reducible apply OnlyR.ite) <;> intro _)
    | with_reducible apply OnlyR.next
    | ((with_reducible apply Only.step (endLoad_only _ _ _ _)); focus rfl)
    | ((with_reducible apply Only.step (finishAt_only _ _ _ _)); focus rfl)
    | ((with_reducible apply Only.step (retryLoad_only _ _ _)); focus rfl)
    | (split)
    | ((with_reducible apply Only.upd); rotate_left; focus (intro p hp; cases p <;> first | rfl | exact ⟨rfl, rfl, rfl⟩ | exact absurd (by decide) hp))

theorem eraseNow_only (n : Nat) (s : State) :
    Only [.counters, .events, .held, .banks, .out] s (eraseNow n s) := by
  unfold eraseNow
  repeat' first
    | with_reducible exact Only.refl _ _
    | with_reducible assumption
    | (extract_lets +onlyGivenNames x; refine (have hx : Only [.counters, .events, .held, .banks, .out] s x := ?_; ?_); unfold x; clear x; rotate_left; clear_value x; rotate_right)
    | (extract_lets +onlyGivenNames x; unfold x; clear x)
    | ((with_reducible apply Only.ite) <;> intro _)
    | ((with_reducible apply Only.step (markRetired_only _ _)); focus rfl)
    | ((with_reducible apply Only.step (modBank_only _ _ _)); focus rfl)

theorem programPiece_only (l : Load) (t : Target) (p : Piece) (d : Bytes) (s : State) :
    Only [.counters, .events, .held, .banks, .scheds, .out] s (programPiece l t p d s) := by
  unfold programPiece
  repeat' first
    | with_reducible exact Only.refl _ _
    | with_reducible assumption
    | (extract_lets +onlyGivenNames x; unfold x; clear x)
    | ((with_reducible apply Only.ite) <;> intro _)
    | ((with_reducible apply Only.step (eraseNow_only _ _)); focus rfl)
    | ((with_reducible apply Only.step (modBank_only _ _ _)); focus rfl)
    | ((with_reducible apply Only.step (writeBank_only _ _ _)); focus rfl)
    | (split)

theorem settleImages_only (s : State) :
    Only [.doms, .time, .cause, .counters, .events, .monitors, .que, .held, .model, .hbr, .integ, .out] s (settleImages s) := by
  unfold settleImages
  repeat' first
    | with_reducible exact Only.refl _ _
    | with_reducible assumption
    | (extract_lets +onlyGivenNames x; refine (have hx : Only [.doms, .time, .cause, .counters, .events, .monitors, .que, .held, .model, .hbr, .integ, .out] s x := ?_; ?_); unfold x; clear x; rotate_left; clear_value x; rotate_right)
    | ((with_reducible apply Only.ite) <;> intro _)
    | ((with_reducible apply Only.step (endLoad_only _ _ _ _)); focus rfl)
    | ((with_reducible apply Only.step (setImage_only _ _ _)); focus rfl)
    | ((with_reducible apply Only.foldl); intro x a hx; try beta_reduce)
    | (split)

theorem sealReady_only (img : ImageRec) (t : Target) (s : State) :
    Only [.doms, .time, .cause, .counters, .events, .held, .model, .hbr, .banks, .awl, .scheds, .integ, .out] s (sealReady img t s) := by
  unfold sealReady
  repeat' first
    | with_reducible exact Only.refl _ _
    | with_reducible assumption
    | (extract_lets +onlyGivenNames x; unfold x; clear x)
    | ((with_reducible apply Only.ite) <;> intro _)
    | ((with_reducible apply Only.step (sealIfStorage_only _ _)); focus rfl)
    | ((with_reducible apply Only.foldl); intro x a hx; try beta_reduce)

theorem unsealPieces_only (k : Nat) (banks : List Nat) (s : State) :
    Only [.doms, .time, .cause, .counters, .events, .held, .model, .hbr, .banks, .awl, .scheds, .integ, .out] s (unsealPieces k banks s) := by
  unfold unsealPieces
  repeat' first
    | with_reducible exact Only.refl _ _
    | with_reducible assumption
    | (extract_lets +onlyGivenNames x; refine (have hx : Only [.doms, .time, .cause, .counters, .events, .held, .model, .hbr, .banks, .awl, .scheds, .integ, .out] s x := ?_; ?_); unfold x; clear x; rotate_left; clear_value x; rotate_right)
    | (extract_lets +onlyGivenNames x; unfold x; clear x)
    | ((with_reducible apply Only.step (queueOp_only _ _ _)); focus rfl)
    | ((with_reducible apply Only.step (setImage_only _ _ _)); focus rfl)
    | ((with_reducible apply Only.foldl); intro x a hx; try beta_reduce)
    | (split)

theorem undoLoad_only (l : Load) (s : State) :
    Only [.doms, .time, .cause, .counters, .events, .held, .model, .hbr, .banks, .awl, .scheds, .integ, .out] s (undoLoad l s) := by
  unfold undoLoad
  repeat' first
    | with_reducible exact Only.refl _ _
    | with_reducible assumption
    | (extract_lets +onlyGivenNames x; refine (have hx : Only [.doms, .time, .cause, .counters, .events, .held, .model, .hbr, .banks, .awl, .scheds, .integ, .out] s x := ?_; ?_); unfold x; clear x; rotate_left; clear_value x; rotate_right)
    | (extract_lets +onlyGivenNames x; unfold x; clear x)
    | ((with_reducible apply Only.step (setImage_only _ _ _)); focus rfl)
    | ((with_reducible apply Only.step (unsealPieces_only _ _ _)); focus rfl)
    | (split)

theorem replaceSlice_only (from_ : Nat) (t : Placed) (s : State) :
    Only [.doms, .time, .cause, .counters, .events, .held, .model, .hbr, .banks, .awl, .scheds, .integ, .out] s (replaceSlice from_ t s) := by
  unfold replaceSlice
  repeat' first
    | with_reducible exact Only.refl _ _
    | with_reducible assumption
    | (extract_lets +onlyGivenNames x; refine (have hx : Only [.doms, .time, .cause, .counters, .events, .held, .model, .hbr, .banks, .awl, .scheds, .integ, .out] s x := ?_; ?_); unfold x; clear x; rotate_left; clear_value x; rotate_right)
    | (extract_lets +onlyGivenNames x; unfold x; clear x)
    | ((with_reducible apply Only.ite) <;> intro _)
    | ((with_reducible apply Only.step (bump_only _ _)); focus rfl)
    | ((with_reducible apply Only.step (modBank_only _ _ _)); focus rfl)
    | ((with_reducible apply Only.step (raise_only _ _ _ _)); focus rfl)
    | ((with_reducible apply Only.step (releaseBank_only _ _)); focus rfl)
    | (split)
    | ((with_reducible apply Only.upd); rotate_left; focus (intro p hp; cases p <;> first | rfl | exact ⟨rfl, rfl, rfl⟩ | exact absurd (by decide) hp))

theorem movePiece_only (l : Load) (t : Target) (p : Piece) (s : State) :
    OnlyO [.doms, .time, .cause, .counters, .events, .held, .model, .hbr, .banks, .awl, .scheds, .integ, .out] s (movePiece l t p s) := by
  unfold movePiece
  repeat' first
    | with_reducible exact Only.refl _ _
    | with_reducible assumption
    | with_reducible exact OnlyO.none
    | (extract_lets +onlyGivenNames x; unfold x; clear x)
    | ((with_reducible apply OnlyO.ite) <;> intro _)
    | with_reducible apply OnlyO.some
    | ((with_reducible apply Only.step (replaceSlice_only _ _ _)); focus rfl)
    | (split)

theorem movePieces_only (l : Load) (ps : List Piece) (ts : List Target) (s : State) : OnlyO [.doms, .time, .cause, .counters, .events, .held, .model, .hbr, .banks, .awl, .scheds, .integ, .out] s (movePieces l ps ts s) := by
  refine List.foldlRecOn (motive := fun o : Option State => OnlyO [.doms, .time, .cause, .counters, .events, .held, .model, .hbr, .banks, .awl, .scheds, .integ, .out] s o) _ _ (OnlyO.some (Only.refl _ _)) ?_
  intro o ho t _
  refine List.foldlRecOn (motive := fun o : Option State => OnlyO [.doms, .time, .cause, .counters, .events, .held, .model, .hbr, .banks, .awl, .scheds, .integ, .out] s o) _ _ ho ?_
  intro o ho p _ y e
  obtain ⟨x, rfl, hy⟩ := Option.bind_eq_some_iff.1 e
  exact (ho x rfl).trans (movePiece_only _ _ _ _ _ hy)

theorem resumeFront_only (img : ImageRec) (s : State) :
    Only [.model] s (resumeFront img s) := by
  unfold resumeFront
  repeat' first
    | with_reducible exact Only.refl _ _
    | with_reducible assumption
    | (extract_lets +onlyGivenNames x; unfold x; clear x)
    | (split)
    | ((with_reducible apply Only.upd); rotate_left; focus (intro p hp; cases p <;> first | rfl | exact ⟨rfl, rfl, rfl⟩ | exact absurd (by decide) hp))

theorem passWritten_only (a : Nat) (l : Load) (ps : List Piece) (b : Bytes) (s : State) :
    Only [.doms, .time, .cause, .counters, .events, .monitors, .que, .held, .model, .hbr, .banks, .awl, .scheds, .integ, .out] s (passWritten a l ps b s) := by
  unfold passWritten
  repeat' first
    | with_reducible exact Only.refl _ _
    | with_reducible assumption
    | (extract_lets +onlyGivenNames x; refine (have hx : Only [.doms, .time, .cause, .counters, .events, .monitors, .que, .held, .model, .hbr, .banks, .awl, .scheds, .integ, .out] s x := ?_; ?_); unfold x; clear x; rotate_left; clear_value x; rotate_right)
    | (extract_lets +onlyGivenNames x; unfold x; clear x)
    | ((with_reducible apply Only.step (resumeFront_only _ _)); focus rfl)
    | ((with_reducible apply Only.step (sealReady_only _ _ _)); focus rfl)
    | ((with_reducible apply Only.step (setImage_only _ _ _)); focus rfl)
    | ((with_reducible apply Only.step (settleImages_only _)); focus rfl)
    | ((with_reducible apply Only.foldl); intro x a hx; try beta_reduce)
    | (split)
    | ((with_reducible apply Only.upd); rotate_left; focus (intro p hp; cases p <;> first | rfl | exact ⟨rfl, rfl, rfl⟩ | exact absurd (by decide) hp))

theorem weightPass_only (a : Nat) (l : Load) (img : ImageRec) (r : ShardRec) (b : Bytes) (sound : Bool) (s : State) :
    Only [.doms, .time, .cause, .counters, .events, .monitors, .que, .held, .model, .hbr, .banks, .awl, .scheds, .integ, .out] s (weightPass a l img r b sound s) := by
  unfold weightPass
  repeat' first
    | with_reducible exact Only.refl _ _
    | with_reducible assumption
    | (extract_lets +onlyGivenNames x; refine (have hx : Only [.doms, .time, .cause, .counters, .events, .monitors, .que, .held, .model, .hbr, .banks, .awl, .scheds, .integ, .out] s x := ?_; ?_); unfold x; clear x; rotate_left; clear_value x; rotate_right)
    | (extract_lets +onlyGivenNames x; unfold x; clear x)
    | ((with_reducible apply Only.ite) <;> intro _)
    | ((with_reducible apply Only.step (endLoad_only _ _ _ _)); focus rfl)
    | ((with_reducible apply OnlyO.got (movePieces_only _ _ _ _) (by assumption)); focus rfl)
    | ((with_reducible apply Only.step (passWritten_only _ _ _ _ _)); focus rfl)
    | ((with_reducible apply Only.step (programPiece_only _ _ _ _ _)); focus rfl)
    | ((with_reducible apply Only.step (retryLoad_only _ _ _)); focus rfl)
    | ((with_reducible apply Only.step (settleImages_only _)); focus rfl)
    | ((with_reducible apply Only.step (undoLoad_only _ _)); focus rfl)
    | ((with_reducible apply Only.step (unsealPieces_only _ _ _)); focus rfl)
    | ((with_reducible apply Only.foldl); intro x a hx; try beta_reduce)
    | (split)

theorem growPool_only (n m : Nat) (s : State) : OnlyO [.model, .banks] s (growPool n m s) := by
  induction m generalizing s with
  | zero => exact OnlyO.none
  | succ m ih =>
    unfold growPool
    split
    · exact OnlyO.some (Only.refl _ _)
    · split
      · exact OnlyO.none
      · split
        · exact OnlyO.none
        · refine OnlyO.step (ih _) rfl ?_
          with_reducible apply Only.upd
          · exact (modBank_only _ _ _).mono rfl
          · intro p hp; cases p <;> first | rfl | exact ⟨rfl, rfl, rfl⟩ | exact absurd (by decide) hp

theorem writeAdapter_only (slot : Nat) (x : Adapter) (d : Bytes) (s : State) :
    OnlyO [.model, .banks] s (writeAdapter slot x d s) := by
  unfold writeAdapter
  repeat' first
    | with_reducible exact Only.refl _ _
    | with_reducible assumption
    | with_reducible exact OnlyO.none
    | (extract_lets +onlyGivenNames x; refine (have hx : Only [.model, .banks] s x := ?_; ?_); unfold x; clear x; rotate_left; clear_value x; rotate_right)
    | (extract_lets +onlyGivenNames x; unfold x; clear x)
    | with_reducible apply OnlyO.some
    | ((with_reducible apply OnlyO.got (growPool_only _ _ _) (by assumption)); focus rfl)
    | ((with_reducible apply Only.step (modBank_only _ _ _)); focus rfl)
    | ((with_reducible apply Only.foldl); intro x a hx; try beta_reduce)
    | (split)
    | ((with_reducible apply Only.upd); rotate_left; focus (intro p hp; cases p <;> first | rfl | exact ⟨rfl, rfl, rfl⟩ | exact absurd (by decide) hp))

theorem sealPool_only (s : State) :
    Only [.doms, .time, .cause, .counters, .events, .held, .model, .hbr, .banks, .awl, .scheds, .integ, .out] s (sealPool s) := by
  unfold sealPool
  repeat' first
    | with_reducible exact Only.refl _ _
    | with_reducible assumption
    | ((with_reducible apply Only.ite) <;> intro _)
    | ((with_reducible apply Only.step (sealIfStorage_only _ _)); focus rfl)
    | ((with_reducible apply Only.foldl); intro x a hx; try beta_reduce)

theorem dropAdapter_only (slot : Nat) (s : State) :
    Only [.doms, .time, .cause, .counters, .events, .held, .model, .hbr, .banks, .awl, .scheds, .integ, .out] s (dropAdapter slot s) := by
  unfold dropAdapter
  repeat' first
    | with_reducible exact Only.refl _ _
    | with_reducible assumption
    | (extract_lets +onlyGivenNames x; refine (have hx : Only [.doms, .time, .cause, .counters, .events, .held, .model, .hbr, .banks, .awl, .scheds, .integ, .out] s x := ?_; ?_); unfold x; clear x; rotate_left; clear_value x; rotate_right)
    | (extract_lets +onlyGivenNames x; unfold x; clear x)
    | ((with_reducible apply Only.ite) <;> intro _)
    | ((with_reducible apply Only.step (cacheDrop_only _ _)); focus rfl)
    | ((with_reducible apply Only.step (releaseBank_only _ _)); focus rfl)
    | ((with_reducible apply Only.foldl); intro x a hx; try beta_reduce)
    | (split)
    | ((with_reducible apply Only.upd); rotate_left; focus (intro p hp; cases p <;> first | rfl | exact ⟨rfl, rfl, rfl⟩ | exact absurd (by decide) hp))

theorem adapterPass_only (a : Nat) (l : Load) (img : ImageRec) (r : ShardRec) (b : Bytes) (sound : Bool) (s : State) :
    Only [.doms, .time, .cause, .counters, .events, .monitors, .que, .held, .model, .hbr, .banks, .awl, .scheds, .integ, .out] s (adapterPass a l img r b sound s) := by
  have hf : ∀ (u : Bool) (named : List (Nat × Adapter × Piece)) (s₁ : State), Only [.doms, .time, .cause, .counters, .events, .monitors, .que, .held, .model, .hbr, .banks, .awl, .scheds, .integ, .out] s s₁ →
      OnlyO [.doms, .time, .cause, .counters, .events, .monitors, .que, .held, .model, .hbr, .banks, .awl, .scheds, .integ, .out] s (named.foldl (fun (o : Option State) e => o.bind fun s =>
        writeAdapter e.1 { e.2.1 with usable := u } (sub b e.2.2.offset (adapterLen e.2.1)) s) (some s₁)) := by
    intro u named s₁ h
    refine List.foldlRecOn (motive := fun o : Option State => OnlyO [.doms, .time, .cause, .counters, .events, .monitors, .que, .held, .model, .hbr, .banks, .awl, .scheds, .integ, .out] s o) _ _ (OnlyO.some h) ?_
    intro o ho p _ y e
    obtain ⟨x, rfl, hy⟩ := Option.bind_eq_some_iff.1 e
    exact (ho x rfl).trans ((writeAdapter_only _ _ _ _ _ hy).mono rfl)
  unfold adapterPass
  dsimp only
  refine Only.ite (fun _ => (endLoad_only _ _ _ _).mono rfl) (fun _ => ?_)
  refine Only.ite (fun _ => (retryLoad_only _ _ _).mono rfl) (fun _ => ?_)
  split
  · exact (endLoad_only _ _ _ _).mono rfl
  · rename_i t e
    refine Only.step (endLoad_only _ _ _ _) rfl (Only.step (setImage_only _ _ _) rfl (Only.step (sealPool_only _) rfl ?_))
    exact hf _ _ _ (Only.foldl (fun x a hx => Only.step (dropAdapter_only _ _) rfl hx) (Only.refl _ _)) t e

theorem execProgramPassDone_only (a : Fin 4096) (shard : HostRead) (s : State) :
    OnlyR [.doms, .time, .cause, .counters, .events, .monitors, .que, .held, .model, .hbr, .banks, .awl, .scheds, .integ, .out] s (execProgramPassDone a shard s) := by
  unfold execProgramPassDone
  repeat' first
    | with_reducible exact Only.refl _ _
    | with_reducible assumption
    | (extract_lets +onlyGivenNames x; refine (have hx : Only [.doms, .time, .cause, .counters, .events, .monitors, .que, .held, .model, .hbr, .banks, .awl, .scheds, .integ, .out] s x := ?_; ?_); unfold x; clear x; rotate_left; clear_value x; rotate_right)
    | (extract_lets +onlyGivenNames x; unfold x; clear x)
    | ((with_reducible apply OnlyR.ite) <;> intro _)
    | with_reducible apply OnlyR.next
    | ((with_reducible apply Only.step (adapterPass_only _ _ _ _ _ _ _)); focus rfl)
    | ((with_reducible apply Only.step (finishAt_only _ _ _ _)); focus rfl)
    | ((with_reducible apply Only.step (undoLoad_only _ _)); focus rfl)
    | ((with_reducible apply Only.step (weightPass_only _ _ _ _ _ _ _)); focus rfl)
    | (split)
    | ((with_reducible apply Only.upd); rotate_left; focus (intro p hp; cases p <;> first | rfl | exact ⟨rfl, rfl, rfl⟩ | exact absurd (by decide) hp))

theorem stopLoad_only (a : Nat) (s : State) :
    Only [.doms, .time, .cause, .counters, .events, .monitors, .que, .held, .model, .hbr, .banks, .awl, .scheds, .integ, .out] s (stopLoad a s) := by
  unfold stopLoad
  repeat' first
    | with_reducible exact Only.refl _ _
    | with_reducible assumption
    | ((with_reducible apply Only.step (endLoad_only _ _ _ _)); focus rfl)
    | ((with_reducible apply Only.step (undoLoad_only _ _)); focus rfl)
    | (split)

theorem commitImage_only (k : Nat) (r : ImageRec) (s : State) :
    Only [.model] s (commitImage k r s) := by
  unfold commitImage
  repeat' first
    | with_reducible exact Only.refl _ _
    | with_reducible assumption
    | (extract_lets +onlyGivenNames x; refine (have hx : Only [.model] s x := ?_; ?_); unfold x; clear x; rotate_left; clear_value x; rotate_right)
    | (extract_lets +onlyGivenNames x; unfold x; clear x)
    | ((with_reducible apply Only.step (setImage_only _ _ _)); focus rfl)
    | (split)
    | ((with_reducible apply Only.upd); rotate_left; focus (intro p hp; cases p <;> first | rfl | exact ⟨rfl, rfl, rfl⟩ | exact absurd (by decide) hp))

theorem execCommitImage_only (a : Fin 4096) (hash : HostRead) (s : State) :
    OnlyR [.doms, .time, .cause, .counters, .events, .monitors, .que, .held, .model, .hbr, .integ, .out] s (execCommitImage a hash s) := by
  unfold execCommitImage
  repeat' first
    | with_reducible exact Only.refl _ _
    | with_reducible assumption
    | (extract_lets +onlyGivenNames x; unfold x; clear x)
    | with_reducible apply OnlyR.next
    | ((with_reducible apply Only.step (commitImage_only _ _ _)); focus rfl)
    | ((with_reducible apply Only.step (finish_only _ _ _)); focus rfl)
    | ((with_reducible apply Only.step (finishAt_only _ _ _ _)); focus rfl)
    | ((with_reducible apply Only.step (finishSt_only _ _ _)); focus rfl)
    | (split)

theorem execDropImage_only (a : Fin 4096) (hash : HostRead) (s : State) :
    OnlyR [.doms, .time, .cause, .counters, .events, .monitors, .que, .held, .model, .hbr, .banks, .awl, .scheds, .integ, .out] s (execDropImage a hash s) := by
  unfold execDropImage
  repeat' first
    | with_reducible exact Only.refl _ _
    | with_reducible assumption
    | (extract_lets +onlyGivenNames x; refine (have hx : Only [.doms, .time, .cause, .counters, .events, .monitors, .que, .held, .model, .hbr, .banks, .awl, .scheds, .integ, .out] s x := ?_; ?_); unfold x; clear x; rotate_left; clear_value x; rotate_right)
    | (extract_lets +onlyGivenNames x; unfold x; clear x)
    | ((with_reducible apply OnlyR.ite) <;> intro _)
    | with_reducible apply OnlyR.next
    | ((with_reducible apply Only.step (dropAdapter_only _ _)); focus rfl)
    | ((with_reducible apply Only.step (finishAt_only _ _ _ _)); focus rfl)
    | ((with_reducible apply Only.step (finishSt_only _ _ _)); focus rfl)
    | ((with_reducible apply Only.foldl); intro x a hx; try beta_reduce)
    | (split)
    | ((with_reducible apply Only.upd); rotate_left; focus (intro p hp; cases p <;> first | rfl | exact ⟨rfl, rfl, rfl⟩ | exact absurd (by decide) hp))

theorem raiseRefetch_only (s : State) :
    Only [.counters, .events, .held, .out] s (raiseRefetch s) := by
  unfold raiseRefetch
  repeat' first
    | with_reducible exact Only.refl _ _
    | with_reducible assumption
    | ((with_reducible apply Only.step (raise_only _ _ _ _)); focus rfl)
    | ((with_reducible apply Only.foldl); intro x a hx; try beta_reduce)

theorem execRefetchReminder_only (s : State) :
    OnlyR [.counters, .events, .held, .out] s (execRefetchReminder s) := by
  unfold execRefetchReminder
  repeat' first
    | with_reducible exact Only.refl _ _
    | with_reducible assumption
    | ((with_reducible apply OnlyR.ite) <;> intro _)
    | with_reducible apply OnlyR.next
    | ((with_reducible apply Only.step (raiseRefetch_only _)); focus rfl)

theorem sendReport_only (c : Cmd) (rep : Bytes) (s : State) :
    Only [.held, .out] s (sendReport c rep s) := by
  unfold sendReport
  repeat' first
    | with_reducible exact Only.refl _ _
    | with_reducible assumption
    | ((with_reducible apply Only.step (sendPort_only _ _ _)); focus rfl)

theorem takeBanks_only (slot : Nat) (l : List Placed) (s : State) :
    Only [.banks] s (takeBanks slot l s) := by
  unfold takeBanks
  repeat' first
    | with_reducible exact Only.refl _ _
    | with_reducible assumption
    | ((with_reducible apply Only.step (modBank_only _ _ _)); focus rfl)
    | ((with_reducible apply Only.foldl); intro x a hx; try beta_reduce)

theorem setSlot_only (n : Nat) (sl : Slot) (s : State) :
    Only [.model] s (setSlot n sl s) := by
  unfold setSlot
  repeat' first
    | with_reducible exact Only.refl _ _
    | with_reducible assumption
    | ((with_reducible apply Only.upd); rotate_left; focus (intro p hp; cases p <;> first | rfl | exact ⟨rfl, rfl, rfl⟩ | exact absurd (by decide) hp))

theorem placeFails_only (a : Nat) (c : Cmd) (st : Nat) (rep : Bytes) (s : State) :
    Only [.doms, .time, .cause, .counters, .events, .monitors, .que, .held, .hbr, .integ, .out] s (placeFails a c st rep s) := by
  unfold placeFails
  repeat' first
    | with_reducible exact Only.refl _ _
    | with_reducible assumption
    | ((with_reducible apply Only.step (finish_only _ _ _)); focus rfl)
    | ((with_reducible apply Only.step (sendReport_only _ _ _)); focus rfl)

theorem placeChecked_only (a : Nat) (c : Cmd) (f : LastFile) (choice : List Placed) (s : State) :
    Only [.doms, .time, .cause, .counters, .events, .monitors, .que, .held, .model, .hbr, .banks, .integ, .out] s (placeChecked a c f choice s) := by
  unfold placeChecked
  repeat' first
    | with_reducible exact Only.refl _ _
    | with_reducible assumption
    | (extract_lets +onlyGivenNames x; refine (have hx : Only [.doms, .time, .cause, .counters, .events, .monitors, .que, .held, .model, .hbr, .banks, .integ, .out] s x := ?_; ?_); unfold x; clear x; rotate_left; clear_value x; rotate_right)
    | (extract_lets +onlyGivenNames x; unfold x; clear x)
    | ((with_reducible apply Only.ite) <;> intro _)
    | ((with_reducible apply Only.step (finish_only _ _ _)); focus rfl)
    | ((with_reducible apply Only.step (modBank_only _ _ _)); focus rfl)
    | ((with_reducible apply Only.step (placeFails_only _ _ _ _ _)); focus rfl)
    | ((with_reducible apply Only.step (placedAnew_only _ _)); focus rfl)
    | ((with_reducible apply Only.step (sendReport_only _ _ _)); focus rfl)
    | ((with_reducible apply Only.step (setSlot_only _ _ _)); focus rfl)
    | ((with_reducible apply Only.step (takeBanks_only _ _ _)); focus rfl)
    | ((with_reducible apply Only.foldl); intro x a hx; try beta_reduce)
    | (split)

theorem execPlace_only (a : Fin 4096) (file : HostRead) (choice : List Placed) (s : State) :
    OnlyR [.doms, .time, .cause, .counters, .events, .monitors, .que, .held, .model, .hbr, .banks, .integ, .out] s (execPlace a file choice s) := by
  unfold execPlace
  repeat' first
    | with_reducible exact Only.refl _ _
    | with_reducible assumption
    | with_reducible apply OnlyR.next
    | ((with_reducible apply Only.step (finishAt_only _ _ _ _)); focus rfl)
    | ((with_reducible apply Only.step (placeChecked_only _ _ _ _ _)); focus rfl)
    | ((with_reducible apply Only.step (placeFails_only _ _ _ _ _)); focus rfl)
    | ((with_reducible apply Only.step (sendReport_only _ _ _)); focus rfl)
    | (split)

theorem startDrain_only (a : Nat) (none_ : Bool) (s : State) :
    Only [.que] s (startDrain a none_ s) := by
  unfold startDrain
  repeat' first
    | with_reducible exact Only.refl _ _
    | with_reducible assumption
    | (extract_lets +onlyGivenNames x; unfold x; clear x)
    | (split)
    | ((with_reducible apply Only.upd); rotate_left; focus (intro p hp; cases p <;> first | rfl | exact ⟨rfl, rfl, rfl⟩ | exact absurd (by decide) hp))

theorem endDrain_only (a : Nat) (s : State) :
    Only [.que] s (endDrain a s) := by
  unfold endDrain
  repeat' first
    | with_reducible exact Only.refl _ _
    | with_reducible assumption
    | ((with_reducible apply Only.ite) <;> intro _)
    | (split)
    | ((with_reducible apply Only.upd); rotate_left; focus (intro p hp; cases p <;> first | rfl | exact ⟨rfl, rfl, rfl⟩ | exact absurd (by decide) hp))

theorem finishDrain_only (a : Nat) (s : State) :
    Only [.doms, .time, .cause, .counters, .events, .monitors, .que, .held, .hbr, .integ, .out] s (finishDrain a s) := by
  unfold finishDrain
  repeat' first
    | with_reducible exact Only.refl _ _
    | with_reducible assumption
    | (extract_lets +onlyGivenNames x; unfold x; clear x)
    | ((with_reducible apply Only.step (finish_only _ _ _)); focus rfl)

theorem dropStanding_only (s : State) :
    Only [.power, .gov] s (dropStanding s) := by
  unfold dropStanding
  repeat' first
    | with_reducible exact Only.refl _ _
    | with_reducible assumption
    | ((with_reducible apply Only.ite) <;> intro _)
    | (split)
    | ((with_reducible apply Only.upd); rotate_left; focus (intro p hp; cases p <;> first | rfl | exact ⟨rfl, rfl, rfl⟩ | exact absurd (by decide) hp))

theorem clearPrograms_only (n : Nat) (s : State) :
    Only [.islands] s (clearPrograms n s) := by
  unfold clearPrograms
  repeat' first
    | with_reducible exact Only.refl _ _
    | with_reducible assumption
    | (split)
    | ((with_reducible apply Only.upd); rotate_left; focus (intro p hp; cases p <;> first | rfl | exact ⟨rfl, rfl, rfl⟩ | exact absurd (by decide) hp))

theorem detachNow_only (n : Nat) (s : State) :
    Only [.power, .gov, .values, .model, .islands, .strait, .out] s (detachNow n s) := by
  unfold detachNow
  repeat' first
    | with_reducible exact Only.refl _ _
    | with_reducible assumption
    | (extract_lets +onlyGivenNames x; refine (have hx : Only [.power, .gov, .values, .model, .islands, .strait, .out] s x := ?_; ?_); unfold x; clear x; rotate_left; clear_value x; rotate_right)
    | (extract_lets +onlyGivenNames x; unfold x; clear x)
    | ((with_reducible apply Only.ite) <;> intro _)
    | ((with_reducible apply Only.step (clearPrograms_only _ _)); focus rfl)
    | ((with_reducible apply Only.step (dropStanding_only _)); focus rfl)
    | ((with_reducible apply Only.step (groupListChange_only _)); focus rfl)
    | ((with_reducible apply Only.step (modSlot_only _ _ _)); focus rfl)
    | (unfold modStrait)
    | (split)
    | ((with_reducible apply Only.upd); rotate_left; focus (intro p hp; cases p <;> first | rfl | exact ⟨rfl, rfl, rfl⟩ | exact absurd (by decide) hp))

theorem attachNow_only (n : Nat) (s : State) :
    Only [.power, .doms, .gov, .cause, .values, .counters, .model, .islands, .strait, .out] s (attachNow n s) := by
  unfold attachNow
  extract_lets t u v w
  have ht : Only [.power, .doms, .gov, .cause, .values, .counters, .model, .islands, .strait, .out] s t := Only.foldl (fun x a hx => Only.step (modIsland_only _ _ _) rfl hx) (Only.refl _ _)
  clear_value t
  have hu : Only [.power, .doms, .gov, .cause, .values, .counters, .model, .islands, .strait, .out] s u := Only.step (modSlot_only _ _ _) rfl ht
  clear_value u
  have hv : Only [.power, .doms, .gov, .cause, .values, .counters, .model, .islands, .strait, .out] s v := by
    unfold v
    split
    · unfold modStrait
      with_reducible apply Only.upd hu
      intro p hp; cases p <;> first | rfl | exact ⟨rfl, rfl, rfl⟩ | exact absurd (by decide) hp
    · exact hu
  clear_value v
  have hw : Only [.power, .doms, .gov, .cause, .values, .counters, .model, .islands, .strait, .out] s w := Only.step (takeStanding_only _) rfl hv
  clear_value w
  exact Only.ite (fun _ => Only.step (groupListChange_only _) rfl hw) fun _ => hw

theorem bindProgress_only (a : Nat) (s : State) :
    Only [.power, .doms, .gov, .time, .cause, .values, .counters, .events, .monitors, .que, .held, .model, .hbr, .islands, .integ, .strait, .out] s (bindProgress a s) := by
  unfold bindProgress
  repeat' first
    | with_reducible exact Only.refl _ _
    | with_reducible assumption
    | (extract_lets +onlyGivenNames x; refine (have hx : Only [.power, .doms, .gov, .time, .cause, .values, .counters, .events, .monitors, .que, .held, .model, .hbr, .islands, .integ, .strait, .out] s x := ?_; ?_); unfold x; clear x; rotate_left; clear_value x; rotate_right)
    | (extract_lets +onlyGivenNames x; unfold x; clear x)
    | ((with_reducible apply Only.ite) <;> intro _)
    | ((with_reducible apply Only.step (attachNow_only _ _)); focus rfl)
    | ((with_reducible apply Only.step (detachNow_only _ _)); focus rfl)
    | ((with_reducible apply Only.step (endDrain_only _ _)); focus rfl)
    | ((with_reducible apply Only.step (finishDrain_only _ _)); focus rfl)
    | ((with_reducible apply Only.step (wantOn_only _ _)); focus rfl)
    | ((with_reducible apply Only.foldl); intro x a hx; try beta_reduce)
    | (split)

theorem execAttach_only (a : Fin 4096) (groups : HostRead) (s : State) :
    OnlyR [.power, .doms, .gov, .time, .cause, .values, .counters, .events, .monitors, .que, .held, .model, .hbr, .islands, .integ, .strait, .out] s (execAttach a groups s) := by
  unfold execAttach
  repeat' first
    | with_reducible exact Only.refl _ _
    | with_reducible assumption
    | (extract_lets +onlyGivenNames x; refine (have hx : Only [.power, .doms, .gov, .time, .cause, .values, .counters, .events, .monitors, .que, .held, .model, .hbr, .islands, .integ, .strait, .out] s x := ?_; ?_); unfold x; clear x; rotate_left; clear_value x; rotate_right)
    | (extract_lets +onlyGivenNames x; unfold x; clear x)
    | ((with_reducible apply OnlyR.ite) <;> intro _)
    | with_reducible apply OnlyR.next
    | ((with_reducible apply Only.step (bindProgress_only _ _)); focus rfl)
    | ((with_reducible apply Only.step (bumpBy_only _ _ _)); focus rfl)
    | ((with_reducible apply Only.step (finishAt_only _ _ _ _)); focus rfl)
    | ((with_reducible apply Only.step (finishSt_only _ _ _)); focus rfl)
    | ((with_reducible apply Only.step (modSlot_only _ _ _)); focus rfl)
    | ((with_reducible apply Only.step (startDrain_only _ _ _)); focus rfl)
    | ((with_reducible apply Only.foldl); intro x a hx; try beta_reduce)
    | (split)
    | ((with_reducible apply Only.upd); rotate_left; focus (intro p hp; cases p <;> first | rfl | exact ⟨rfl, rfl, rfl⟩ | exact absurd (by decide) hp))

theorem execDetach_only (a : Fin 4096) (s : State) :
    OnlyR [.power, .doms, .gov, .time, .cause, .values, .counters, .events, .monitors, .que, .held, .model, .hbr, .islands, .integ, .strait, .out] s (execDetach a s) := by
  unfold execDetach
  repeat' first
    | with_reducible exact Only.refl _ _
    | with_reducible assumption
    | (extract_lets +onlyGivenNames x; refine (have hx : Only [.power, .doms, .gov, .time, .cause, .values, .counters, .events, .monitors, .que, .held, .model, .hbr, .islands, .integ, .strait, .out] s x := ?_; ?_); unfold x; clear x; rotate_left; clear_value x; rotate_right)
    | (extract_lets +onlyGivenNames x; unfold x; clear x)
    | ((with_reducible apply OnlyR.ite) <;> intro _)
    | with_reducible apply OnlyR.next
    | ((with_reducible apply Only.step (bindProgress_only _ _)); focus rfl)
    | ((with_reducible apply Only.step (finishAt_only _ _ _ _)); focus rfl)
    | ((with_reducible apply Only.step (finishSt_only _ _ _)); focus rfl)
    | ((with_reducible apply Only.step (modSlot_only _ _ _)); focus rfl)
    | ((with_reducible apply Only.step (startDrain_only _ _ _)); focus rfl)
    | (split)

theorem returnBanks_only (n : Nat) (banks : List Nat) (s : State) :
    Only [.doms, .time, .cause, .counters, .events, .held, .model, .hbr, .banks, .awl, .scheds, .integ, .out] s (returnBanks n banks s) := by
  unfold returnBanks
  repeat' first
    | with_reducible exact Only.refl _ _
    | with_reducible assumption
    | ((with_reducible apply Only.ite) <;> intro _)
    | ((with_reducible apply Only.step (modBank_only _ _ _)); focus rfl)
    | ((with_reducible apply Only.step (releaseBank_only _ _)); focus rfl)
    | ((with_reducible apply Only.foldl); intro x a hx; try beta_reduce)

theorem abandonMoves_only (n : Nat) (banks : List Nat) (s : State) :
    Only [.doms, .time, .cause, .counters, .events, .held, .model, .hbr, .banks, .awl, .scheds, .integ, .out] s (abandonMoves n banks s) := by
  unfold abandonMoves
  repeat' first
    | with_reducible exact Only.refl _ _
    | with_reducible assumption
    | (extract_lets +onlyGivenNames x; refine (have hx : Only [.doms, .time, .cause, .counters, .events, .held, .model, .hbr, .banks, .awl, .scheds, .integ, .out] s x := ?_; ?_); unfold x; clear x; rotate_left; clear_value x; rotate_right)
    | (extract_lets +onlyGivenNames x; unfold x; clear x)
    | ((with_reducible apply Only.ite) <;> intro _)
    | ((with_reducible apply Only.step (modSched_only _ _ _)); focus rfl)
    | ((with_reducible apply Only.step (releaseBank_only _ _)); focus rfl)
    | ((with_reducible apply Only.foldl); intro x a hx; try beta_reduce)

theorem stopOrphanLoads_only (hash : Digest) (s : State) :
    Only [.doms, .time, .cause, .counters, .events, .monitors, .que, .held, .model, .hbr, .banks, .awl, .scheds, .integ, .out] s (stopOrphanLoads hash s) := by
  unfold stopOrphanLoads
  repeat' first
    | with_reducible exact Only.refl _ _
    | with_reducible assumption
    | ((with_reducible apply Only.ite) <;> intro _)
    | ((with_reducible apply Only.step (stopLoad_only _ _)); focus rfl)
    | ((with_reducible apply Only.foldl); intro x a hx; try beta_reduce)

theorem execRelease_only (a : Fin 4096) (s : State) :
    OnlyR [.power, .doms, .time, .cause, .counters, .events, .monitors, .que, .held, .model, .hbr, .banks, .awl, .scheds, .integ, .out] s (execRelease a s) := by
  unfold execRelease
  repeat' first
    | with_reducible exact Only.refl _ _
    | with_reducible assumption
    | (extract_lets +onlyGivenNames x; refine (have hx : Only [.power, .doms, .time, .cause, .counters, .events, .monitors, .que, .held, .model, .hbr, .banks, .awl, .scheds, .integ, .out] s x := ?_; ?_); unfold x; clear x; rotate_left; clear_value x; rotate_right)
    | (extract_lets +onlyGivenNames x; unfold x; clear x)
    | ((with_reducible apply OnlyR.ite) <;> intro _)
    | with_reducible apply OnlyR.next
    | ((with_reducible apply Only.step (abandonMoves_only _ _ _)); focus rfl)
    | ((with_reducible apply Only.step (finish_only _ _ _)); focus rfl)
    | ((with_reducible apply Only.step (finishAt_only _ _ _ _)); focus rfl)
    | ((with_reducible apply Only.step (finishSt_only _ _ _)); focus rfl)
    | ((with_reducible apply Only.step (imageReleased_only _ _)); focus rfl)
    | ((with_reducible apply Only.step (returnBanks_only _ _ _)); focus rfl)
    | ((with_reducible apply Only.step (setSlot_only _ _ _)); focus rfl)
    | ((with_reducible apply Only.step (stopOrphanLoads_only _ _)); focus rfl)
    | (split)
    | ((with_reducible apply Only.upd); rotate_left; focus (intro p hp; cases p <;> first | rfl | exact ⟨rfl, rfl, rfl⟩ | exact absurd (by decide) hp))

theorem execLastSlotFreed_only (slot : Fin 64) (s : State) :
    OnlyR [.model] s (execLastSlotFreed slot s) := by
  unfold execLastSlotFreed
  repeat' first
    | with_reducible exact Only.refl _ _
    | with_reducible assumption
    | (extract_lets +onlyGivenNames x; unfold x; clear x)
    | ((with_reducible apply OnlyR.ite) <;> intro _)
    | with_reducible apply OnlyR.next
    | (split)
    | ((with_reducible apply Only.upd); rotate_left; focus (intro p hp; cases p <;> first | rfl | exact ⟨rfl, rfl, rfl⟩ | exact absurd (by decide) hp))

theorem execBindQueue_only (a : Fin 4096) (s : State) :
    OnlyR [.doms, .time, .cause, .counters, .events, .monitors, .que, .held, .hbr, .integ, .out] s (execBindQueue a s) := by
  unfold execBindQueue
  repeat' first
    | with_reducible exact Only.refl _ _
    | with_reducible assumption
    | (extract_lets +onlyGivenNames x; unfold x; clear x)
    | ((with_reducible apply OnlyR.ite) <;> intro _)
    | with_reducible apply OnlyR.next
    | ((with_reducible apply Only.step (finish_only _ _ _)); focus rfl)
    | ((with_reducible apply Only.step (finishAt_only _ _ _ _)); focus rfl)
    | ((with_reducible apply Only.step (modPair_only _ _ _)); focus rfl)
    | (split)

theorem dropFree_only (n : Nat) (s : State) :
    Only [.flow] s (dropFree n s) := by
  unfold dropFree
  repeat' first
    | with_reducible exact Only.refl _ _
    | with_reducible assumption
    | ((with_reducible apply Only.upd); rotate_left; focus (intro p hp; cases p <;> first | rfl | exact ⟨rfl, rfl, rfl⟩ | exact absurd (by decide) hp))

theorem dropCopies_only (n : Nat) (s : State) :
    Only [.model] s (dropCopies n s) := by
  unfold dropCopies
  repeat' first
    | with_reducible exact Only.refl _ _
    | with_reducible assumption
    | (split)
    | ((with_reducible apply Only.upd); rotate_left; focus (intro p hp; cases p <;> first | rfl | exact ⟨rfl, rfl, rfl⟩ | exact absurd (by decide) hp))

theorem segChange_only (n : Nat) (use : SegUse) (holder : Nat) (waiter : Option Nat) (s : State) :
    Only [.doms, .cause, .counters, .model, .flow, .segs] s (segChange n use holder waiter s) := by
  unfold segChange
  repeat' first
    | with_reducible exact Only.refl _ _
    | with_reducible assumption
    | (extract_lets +onlyGivenNames x; refine (have hx : Only [.doms, .cause, .counters, .model, .flow, .segs] s x := ?_; ?_); unfold x; clear x; rotate_left; clear_value x; rotate_right)
    | ((with_reducible apply Only.step (dropCopies_only _ _)); focus rfl)
    | ((with_reducible apply Only.step (dropFree_only _ _)); focus rfl)
    | ((with_reducible apply Only.step (modSeg_only _ _ _)); focus rfl)
    | ((with_reducible apply Only.step (wantOn_only _ _)); focus rfl)

theorem execBindSegment_only (a : Fin 4096) (s : State) :
    OnlyR [.doms, .time, .cause, .counters, .events, .monitors, .que, .held, .model, .flow, .hbr, .segs, .integ, .out] s (execBindSegment a s) := by
  unfold execBindSegment
  repeat' first
    | with_reducible exact Only.refl _ _
    | with_reducible assumption
    | (extract_lets +onlyGivenNames x; unfold x; clear x)
    | ((with_reducible apply OnlyR.ite) <;> intro _)
    | with_reducible apply OnlyR.next
    | ((with_reducible apply Only.step (finishAt_only _ _ _ _)); focus rfl)
    | ((with_reducible apply Only.step (finishSt_only _ _ _)); focus rfl)
    | ((with_reducible apply Only.step (segChange_only _ _ _ _ _)); focus rfl)
    | ((with_reducible apply Only.step (startDrain_only _ _ _)); focus rfl)
    | (split)

theorem execUnbindSegment_only (a : Fin 4096) (s : State) :
    OnlyR [.doms, .time, .cause, .counters, .events, .monitors, .que, .held, .model, .flow, .hbr, .segs, .integ, .out] s (execUnbindSegment a s) := by
  unfold execUnbindSegment
  repeat' first
    | with_reducible exact Only.refl _ _
    | with_reducible assumption
    | (extract_lets +onlyGivenNames x; refine (have hx : Only [.doms, .time, .cause, .counters, .events, .monitors, .que, .held, .model, .flow, .hbr, .segs, .integ, .out] s x := ?_; ?_); unfold x; clear x; rotate_left; clear_value x; rotate_right)
    | (extract_lets +onlyGivenNames x; unfold x; clear x)
    | ((with_reducible apply OnlyR.ite) <;> intro _)
    | with_reducible apply OnlyR.next
    | ((with_reducible apply Only.step (dropCopies_only _ _)); focus rfl)
    | ((with_reducible apply Only.step (dropFree_only _ _)); focus rfl)
    | ((with_reducible apply Only.step (finish_only _ _ _)); focus rfl)
    | ((with_reducible apply Only.step (finishAt_only _ _ _ _)); focus rfl)
    | ((with_reducible apply Only.step (finishSt_only _ _ _)); focus rfl)
    | ((with_reducible apply Only.step (modSeg_only _ _ _)); focus rfl)
    | ((with_reducible apply Only.step (segChange_only _ _ _ _ _)); focus rfl)
    | ((with_reducible apply Only.step (startDrain_only _ _ _)); focus rfl)
    | (split)

theorem execBindDrainEnd_only (a : Fin 4096) (s : State) :
    OnlyR [.power, .doms, .gov, .time, .cause, .values, .counters, .events, .monitors, .que, .held, .model, .hbr, .islands, .integ, .strait, .out] s (execBindDrainEnd a s) := by
  unfold execBindDrainEnd
  repeat' first
    | with_reducible exact Only.refl _ _
    | with_reducible assumption
    | (extract_lets +onlyGivenNames x; unfold x; clear x)
    | ((with_reducible apply OnlyR.ite) <;> intro _)
    | with_reducible apply OnlyR.next
    | ((with_reducible apply Only.step (bindProgress_only _ _)); focus rfl)
    | (split)

theorem execSegmentHandover_only (seg : Fin 16) (s : State) :
    OnlyR [.que, .hbr] s (execSegmentHandover seg s) := by
  unfold execSegmentHandover
  repeat' first
    | with_reducible exact Only.refl _ _
    | with_reducible assumption
    | (extract_lets +onlyGivenNames x; refine (have hx : Only [.que, .hbr] s x := ?_; ?_); unfold x; clear x; rotate_left; clear_value x; rotate_right)
    | (extract_lets +onlyGivenNames x; unfold x; clear x)
    | ((with_reducible apply OnlyR.ite) <;> intro _)
    | with_reducible apply OnlyR.next
    | ((with_reducible apply Only.step (endDrain_only _ _)); focus rfl)
    | (split)
    | ((with_reducible apply Only.upd); rotate_left; focus (intro p hp; cases p <;> first | rfl | exact ⟨rfl, rfl, rfl⟩ | exact absurd (by decide) hp))

theorem execSharedSegmentTake_only (seg : Fin 16) (s : State) :
    OnlyR [.doms, .cause, .counters, .model, .flow, .segs] s (execSharedSegmentTake seg s) := by
  unfold execSharedSegmentTake
  repeat' first
    | with_reducible exact Only.refl _ _
    | with_reducible assumption
    | (extract_lets +onlyGivenNames x; unfold x; clear x)
    | ((with_reducible apply OnlyR.ite) <;> intro _)
    | with_reducible apply OnlyR.next
    | ((with_reducible apply Only.step (segChange_only _ _ _ _ _)); focus rfl)

theorem execSharedSegmentReturn_only (seg : Fin 16) (s : State) :
    OnlyR [.doms, .cause, .counters, .model, .flow, .segs] s (execSharedSegmentReturn seg s) := by
  unfold execSharedSegmentReturn
  repeat' first
    | with_reducible exact Only.refl _ _
    | with_reducible assumption
    | (extract_lets +onlyGivenNames x; unfold x; clear x)
    | ((with_reducible apply OnlyR.ite) <;> intro _)
    | with_reducible apply OnlyR.next
    | ((with_reducible apply Only.step (segChange_only _ _ _ _ _)); focus rfl)

theorem clearUnplaceable_only (n : Nat) (s : State) :
    Only [.power] s (clearUnplaceable n s) := by
  unfold clearUnplaceable
  repeat' first
    | with_reducible exact Only.refl _ _
    | with_reducible assumption
    | ((with_reducible apply Only.ite) <;> intro _)
    | (split)
    | ((with_reducible apply Only.upd); rotate_left; focus (intro p hp; cases p <;> first | rfl | exact ⟨rfl, rfl, rfl⟩ | exact absurd (by decide) hp))

theorem cannotPlace_only (n : Nat) (s : State) :
    Only [.power, .counters, .events, .held, .out] s (cannotPlace n s) := by
  unfold cannotPlace
  repeat' first
    | with_reducible exact Only.refl _ _
    | with_reducible assumption
    | ((with_reducible apply Only.ite) <;> intro _)
    | ((with_reducible apply Only.step (assertFault_only _)); focus rfl)
    | ((with_reducible apply Only.step (raiseFault_only _ _ _ _)); focus rfl)
    | (split)
    | ((with_reducible apply Only.upd); rotate_left; focus (intro p hp; cases p <;> first | rfl | exact ⟨rfl, rfl, rfl⟩ | exact absurd (by decide) hp))

theorem reloadPrograms_only (n : Nat) (s : State) :
    Only [.islands] s (reloadPrograms n s) := by
  unfold reloadPrograms
  repeat' first
    | with_reducible exact Only.refl _ _
    | with_reducible assumption
    | ((with_reducible apply Only.ite) <;> intro _)
    | ((with_reducible apply Only.step (modIsland_only _ _ _)); focus rfl)
    | ((with_reducible apply Only.foldl); intro x a hx; try beta_reduce)

theorem afterMoves_only (s : State) :
    Only [.power, .islands] s (afterMoves s) := by
  unfold afterMoves
  repeat' first
    | with_reducible exact Only.refl _ _
    | with_reducible assumption
    | ((with_reducible apply Only.step (clearUnplaceable_only _ _)); focus rfl)
    | ((with_reducible apply Only.step (reloadPrograms_only _ _)); focus rfl)
    | ((with_reducible apply Only.foldl); intro x a hx; try beta_reduce)

theorem replaceBank_only (from_ : Nat) (to_ : Nat) (spill : Bool) (s : State) :
    Only [.power, .doms, .time, .cause, .counters, .events, .held, .model, .hbr, .banks, .islands, .awl, .scheds, .integ, .out] s (replaceBank from_ to_ spill s) := by
  unfold replaceBank
  repeat' first
    | with_reducible exact Only.refl _ _
    | with_reducible assumption
    | (extract_lets +onlyGivenNames x; unfold x; clear x)
    | ((with_reducible apply Only.ite) <;> intro _)
    | ((with_reducible apply Only.step (afterMoves_only _)); focus rfl)
    | ((with_reducible apply Only.step (flagBank_only _ _)); focus rfl)
    | ((with_reducible apply Only.step (modBank_only _ _ _)); focus rfl)
    | ((with_reducible apply Only.step (moveSlices_only _ _ _)); focus rfl)
    | ((with_reducible apply Only.step (nvPoisoned_only _ _ _)); focus rfl)
    | ((with_reducible apply Only.step (programInto_only _ _ _ _ _)); focus rfl)

theorem spillInto_only (n : Nat) (t : List Placed) (s : State) :
    Only [.power, .doms, .time, .cause, .counters, .events, .held, .model, .hbr, .banks, .islands, .awl, .scheds, .integ, .out] s (spillInto n t s) := by
  unfold spillInto
  repeat' first
    | with_reducible exact Only.refl _ _
    | with_reducible assumption
    | (extract_lets +onlyGivenNames x; refine (have hx : Only [.power, .doms, .time, .cause, .counters, .events, .held, .model, .hbr, .banks, .islands, .awl, .scheds, .integ, .out] s x := ?_; ?_); unfold x; clear x; rotate_left; clear_value x; rotate_right)
    | (extract_lets +onlyGivenNames x; unfold x; clear x)
    | ((with_reducible apply Only.ite) <;> intro _)
    | ((with_reducible apply Only.step (afterMoves_only _)); focus rfl)
    | ((with_reducible apply Only.step (flagBank_only _ _)); focus rfl)
    | ((with_reducible apply Only.step (modBank_only _ _ _)); focus rfl)
    | ((with_reducible apply Only.step (nvPoisoned_only _ _ _)); focus rfl)
    | ((with_reducible apply Only.step (replaceSlice_only _ _ _)); focus rfl)
    | ((with_reducible apply Only.step (sealReady_only _ _ _)); focus rfl)
    | ((with_reducible apply Only.foldl); intro x a hx; try beta_reduce)
    | (split)

theorem execRePlacement_only (slot : Fin 64) (slice : Nat) (target : Option Placed) (s : State) :
    OnlyR [.power, .doms, .time, .cause, .counters, .events, .held, .model, .hbr, .banks, .islands, .awl, .scheds, .integ, .out] s (execRePlacement slot slice target s) := by
  unfold execRePlacement
  repeat' first
    | with_reducible exact Only.refl _ _
    | with_reducible assumption
    | (extract_lets +onlyGivenNames x; unfold x; clear x)
    | ((with_reducible apply Only.ite) <;> intro _)
    | ((with_reducible apply OnlyR.ite) <;> intro _)
    | with_reducible apply OnlyR.next
    | ((with_reducible apply Only.step (cannotPlace_only _ _)); focus rfl)
    | ((with_reducible apply Only.step (replaceBank_only _ _ _ _)); focus rfl)
    | ((with_reducible apply Only.step (spillInto_only _ _ _)); focus rfl)
    | (split)

theorem secondPrograms_only (n : Nat) (gen : BitVec 16) (places : List Placed) (s : State) :
    Only [.islands] s (secondPrograms n gen places s) := by
  unfold secondPrograms
  repeat' first
    | with_reducible exact Only.refl _ _
    | with_reducible assumption
    | ((with_reducible apply Only.ite) <;> intro _)
    | ((with_reducible apply Only.step (modIsland_only _ _ _)); focus rfl)
    | ((with_reducible apply Only.foldl); intro x a hx; try beta_reduce)

theorem stageInPlace_only (a : Nat) (n : Nat) (f : LastFile) (table : HostRead) (s : State) :
    Only [.doms, .time, .cause, .counters, .events, .monitors, .que, .held, .model, .hbr, .integ, .out] s (stageInPlace a n f table s) := by
  unfold stageInPlace
  repeat' first
    | with_reducible exact Only.refl _ _
    | with_reducible assumption
    | (extract_lets +onlyGivenNames x; unfold x; clear x)
    | ((with_reducible apply Only.ite) <;> intro _)
    | ((with_reducible apply Only.step (finish_only _ _ _)); focus rfl)
    | ((with_reducible apply Only.step (finishAt_only _ _ _ _)); focus rfl)
    | ((with_reducible apply Only.step (finishSt_only _ _ _)); focus rfl)
    | ((with_reducible apply Only.step (modSlot_only _ _ _)); focus rfl)
    | ((with_reducible apply Only.step (placedAnew_only _ _)); focus rfl)
    | (split)

theorem stageShadow_only (a : Nat) (c : Cmd) (n : Nat) (f : LastFile) (l : List Placed) (shared : Bool) (s : State) :
    Only [.doms, .time, .cause, .counters, .events, .monitors, .que, .held, .model, .hbr, .banks, .islands, .integ, .out] s (stageShadow a c n f l shared s) := by
  unfold stageShadow
  repeat' first
    | with_reducible exact Only.refl _ _
    | with_reducible assumption
    | (extract_lets +onlyGivenNames x; refine (have hx : Only [.doms, .time, .cause, .counters, .events, .monitors, .que, .held, .model, .hbr, .banks, .islands, .integ, .out] s x := ?_; ?_); unfold x; clear x; rotate_left; clear_value x; rotate_right)
    | (extract_lets +onlyGivenNames x; unfold x; clear x)
    | ((with_reducible apply Only.ite) <;> intro _)
    | ((with_reducible apply Only.step (finish_only _ _ _)); focus rfl)
    | ((with_reducible apply Only.step (modSlot_only _ _ _)); focus rfl)
    | ((with_reducible apply Only.step (placedAnew_only _ _)); focus rfl)
    | ((with_reducible apply Only.step (secondPrograms_only _ _ _ _)); focus rfl)
    | ((with_reducible apply Only.step (sendReport_only _ _ _)); focus rfl)
    | ((with_reducible apply Only.step (takeBanks_only _ _ _)); focus rfl)

theorem stageChecked_only (a : Nat) (c : Cmd) (n : Nat) (f : LastFile) (table : HostRead) (choice : List Placed) (s : State) :
    Only [.doms, .time, .cause, .counters, .events, .monitors, .que, .held, .model, .hbr, .banks, .islands, .integ, .out] s (stageChecked a c n f table choice s) := by
  unfold stageChecked
  repeat' first
    | with_reducible exact Only.refl _ _
    | with_reducible assumption
    | (extract_lets +onlyGivenNames x; unfold x; clear x)
    | ((with_reducible apply Only.ite) <;> intro _)
    | ((with_reducible apply Only.step (finishSt_only _ _ _)); focus rfl)
    | ((with_reducible apply Only.step (sendReport_only _ _ _)); focus rfl)
    | ((with_reducible apply Only.step (stageInPlace_only _ _ _ _ _)); focus rfl)
    | ((with_reducible apply Only.step (stageShadow_only _ _ _ _ _ _ _)); focus rfl)
    | (split)

theorem resumeStage_only (a : Nat) (n : Nat) (f : LastFile) (w : Swap) (table : HostRead) (s : State) :
    Only [.doms, .time, .cause, .counters, .events, .monitors, .que, .held, .model, .hbr, .integ, .out] s (resumeStage a n f w table s) := by
  unfold resumeStage
  repeat' first
    | with_reducible exact Only.refl _ _
    | with_reducible assumption
    | (extract_lets +onlyGivenNames x; unfold x; clear x)
    | ((with_reducible apply Only.step (finish_only _ _ _)); focus rfl)
    | ((with_reducible apply Only.step (finishAt_only _ _ _ _)); focus rfl)
    | ((with_reducible apply Only.step (modSlot_only _ _ _)); focus rfl)
    | (split)

theorem execSwapStage_only (a : Fin 4096) (file : HostRead) (table : HostRead) (choice : List Placed) (s : State) :
    OnlyR [.doms, .time, .cause, .counters, .events, .monitors, .que, .held, .model, .hbr, .banks, .islands, .integ, .out] s (execSwapStage a file table choice s) := by
  unfold execSwapStage
  repeat' first
    | with_reducible exact Only.refl _ _
    | with_reducible assumption
    | (extract_lets +onlyGivenNames x; unfold x; clear x)
    | ((with_reducible apply OnlyR.ite) <;> intro _)
    | with_reducible apply OnlyR.next
    | ((with_reducible apply Only.step (finishAt_only _ _ _ _)); focus rfl)
    | ((with_reducible apply Only.step (finishSt_only _ _ _)); focus rfl)
    | ((with_reducible apply Only.step (resumeStage_only _ _ _ _ _ _)); focus rfl)
    | ((with_reducible apply Only.step (stageChecked_only _ _ _ _ _ _ _)); focus rfl)
    | (split)

theorem switchNow_only (n : Nat) (s : State) :
    Only [.values, .counters, .model, .strait, .out] s (switchNow n s) := by
  unfold switchNow
  repeat' first
    | with_reducible exact Only.refl _ _
    | with_reducible assumption
    | (extract_lets +onlyGivenNames x; refine (have hx : Only [.values, .counters, .model, .strait, .out] s x := ?_; ?_); unfold x; clear x; rotate_left; clear_value x; rotate_right)
    | (extract_lets +onlyGivenNames x; unfold x; clear x)
    | ((with_reducible apply Only.ite) <;> intro _)
    | ((with_reducible apply Only.step (bump_only _ _)); focus rfl)
    | ((with_reducible apply Only.step (groupListChange_only _)); focus rfl)
    | ((with_reducible apply Only.step (setSlot_only _ _ _)); focus rfl)
    | (split)

theorem execSwapSwitch_only (a : Fin 4096) (s : State) :
    OnlyR [.doms, .time, .cause, .values, .counters, .events, .monitors, .que, .held, .model, .hbr, .integ, .strait, .out] s (execSwapSwitch a s) := by
  unfold execSwapSwitch
  repeat' first
    | with_reducible exact Only.refl _ _
    | with_reducible assumption
    | (extract_lets +onlyGivenNames x; refine (have hx : Only [.doms, .time, .cause, .values, .counters, .events, .monitors, .que, .held, .model, .hbr, .integ, .strait, .out] s x := ?_; ?_); unfold x; clear x; rotate_left; clear_value x; rotate_right)
    | (extract_lets +onlyGivenNames x; unfold x; clear x)
    | ((with_reducible apply Only.ite) <;> intro _)
    | ((with_reducible apply OnlyR.ite) <;> intro _)
    | with_reducible apply OnlyR.next
    | ((with_reducible apply Only.step (finish_only _ _ _)); focus rfl)
    | ((with_reducible apply Only.step (finishAt_only _ _ _ _)); focus rfl)
    | ((with_reducible apply Only.step (finishSt_only _ _ _)); focus rfl)
    | ((with_reducible apply Only.step (modSlot_only _ _ _)); focus rfl)
    | ((with_reducible apply Only.step (switchNow_only _ _)); focus rfl)
    | (split)

theorem execGroupSwitchTide_only (slot : Fin 64) (s : State) :
    OnlyR [.values, .counters, .model, .strait, .out] s (execGroupSwitchTide slot s) := by
  unfold execGroupSwitchTide
  repeat' first
    | with_reducible exact Only.refl _ _
    | with_reducible assumption
    | ((with_reducible apply OnlyR.ite) <;> intro _)
    | with_reducible apply OnlyR.next
    | ((with_reducible apply Only.step (switchNow_only _ _)); focus rfl)
    | (split)

theorem abortSwap_only (n : Nat) (w : Swap) (s : State) :
    Only [.doms, .time, .cause, .counters, .events, .monitors, .que, .held, .model, .hbr, .banks, .islands, .awl, .scheds, .integ, .out] s (abortSwap n w s) := by
  unfold abortSwap
  repeat' first
    | with_reducible exact Only.refl _ _
    | with_reducible assumption
    | (extract_lets +onlyGivenNames x; refine (have hx : Only [.doms, .time, .cause, .counters, .events, .monitors, .que, .held, .model, .hbr, .banks, .islands, .awl, .scheds, .integ, .out] s x := ?_; ?_); unfold x; clear x; rotate_left; clear_value x; rotate_right)
    | (extract_lets +onlyGivenNames x; unfold x; clear x)
    | ((with_reducible apply Only.step (abandonMoves_only _ _ _)); focus rfl)
    | ((with_reducible apply Only.step (imageReleased_only _ _)); focus rfl)
    | ((with_reducible apply Only.step (modSlot_only _ _ _)); focus rfl)
    | ((with_reducible apply Only.step (returnBanks_only _ _ _)); focus rfl)
    | ((with_reducible apply Only.step (stopOrphanLoads_only _ _)); focus rfl)
    | (split)
    | ((with_reducible apply Only.upd); rotate_left; focus (intro p hp; cases p <;> first | rfl | exact ⟨rfl, rfl, rfl⟩ | exact absurd (by decide) hp))

theorem execSwapAbort_only (a : Fin 4096) (s : State) :
    OnlyR [.doms, .time, .cause, .counters, .events, .monitors, .que, .held, .model, .hbr, .banks, .islands, .awl, .scheds, .integ, .out] s (execSwapAbort a s) := by
  unfold execSwapAbort
  repeat' first
    | with_reducible exact Only.refl _ _
    | with_reducible assumption
    | (extract_lets +onlyGivenNames x; unfold x; clear x)
    | ((with_reducible apply OnlyR.ite) <;> intro _)
    | with_reducible apply OnlyR.next
    | ((with_reducible apply Only.step (abortSwap_only _ _ _)); focus rfl)
    | ((with_reducible apply Only.step (finishAt_only _ _ _ _)); focus rfl)
    | ((with_reducible apply Only.step (finishSt_only _ _ _)); focus rfl)
    | (split)

theorem dropUnused_only (hash : Digest) (s : State) :
    Only [.model] s (dropUnused hash s) := by
  unfold dropUnused
  repeat' first
    | with_reducible exact Only.refl _ _
    | with_reducible assumption
    | ((with_reducible apply Only.ite) <;> intro _)
    | (split)
    | ((with_reducible apply Only.upd); rotate_left; focus (intro p hp; cases p <;> first | rfl | exact ⟨rfl, rfl, rfl⟩ | exact absurd (by decide) hp))

theorem retireShadow_only (n : Nat) (w : Swap) (s : State) :
    Only [.doms, .time, .cause, .counters, .events, .held, .model, .hbr, .banks, .islands, .awl, .scheds, .integ, .out] s (retireShadow n w s) := by
  unfold retireShadow
  repeat' first
    | with_reducible exact Only.refl _ _
    | with_reducible assumption
    | (extract_lets +onlyGivenNames x; refine (have hx : Only [.doms, .time, .cause, .counters, .events, .held, .model, .hbr, .banks, .islands, .awl, .scheds, .integ, .out] s x := ?_; ?_); unfold x; clear x; rotate_left; clear_value x; rotate_right)
    | (extract_lets +onlyGivenNames x; unfold x; clear x)
    | ((with_reducible apply Only.step (dropUnused_only _ _)); focus rfl)
    | ((with_reducible apply Only.step (returnBanks_only _ _ _)); focus rfl)
    | ((with_reducible apply Only.step (setSlot_only _ _ _)); focus rfl)
    | (split)
    | ((with_reducible apply Only.upd); rotate_left; focus (intro p hp; cases p <;> first | rfl | exact ⟨rfl, rfl, rfl⟩ | exact absurd (by decide) hp))

theorem execGenerationRetire_only (slot : Fin 64) (s : State) :
    OnlyR [.doms, .time, .cause, .counters, .events, .held, .model, .hbr, .banks, .islands, .awl, .scheds, .integ, .out] s (execGenerationRetire slot s) := by
  unfold execGenerationRetire
  repeat' first
    | with_reducible exact Only.refl _ _
    | with_reducible assumption
    | (extract_lets +onlyGivenNames x; unfold x; clear x)
    | ((with_reducible apply OnlyR.ite) <;> intro _)
    | with_reducible apply OnlyR.next
    | ((with_reducible apply Only.step (modSlot_only _ _ _)); focus rfl)
    | ((with_reducible apply Only.step (retireShadow_only _ _ _)); focus rfl)
    | (split)

theorem rewriteShard_only (t : Target) (image : Nat) (k : Nat) (again : Bool) (b : Bytes) (s : State) :
    OnlyO [.doms, .time, .cause, .counters, .events, .held, .model, .hbr, .banks, .awl, .scheds, .integ, .out] s (rewriteShard t image k again b s) := by
  unfold rewriteShard
  split
  · exact OnlyO.some (Only.refl _ _)
  · intro y e
    obtain ⟨x, hx, rfl⟩ := Option.map_eq_some_iff.1 e
    dsimp only
    refine Only.step (setImage_only _ _ _) rfl ?_
    exact Only.foldl (fun y b hy => Only.step (programPiece_only _ _ _ _ _) rfl hy) ((movePieces_only _ _ _ _ _ hx).mono rfl)

theorem rewriteShards_only (t : Target) (image : Nat) (again : Bool) (l : List (Nat × Bytes)) (s : State) :
    OnlyO [.doms, .time, .cause, .counters, .events, .held, .model, .hbr, .banks, .awl, .scheds, .integ, .out] s (rewriteShards t image again l s) := by
  refine List.foldlRecOn (motive := fun o : Option State => OnlyO [.doms, .time, .cause, .counters, .events, .held, .model, .hbr, .banks, .awl, .scheds, .integ, .out] s o) _ _ (OnlyO.some (Only.refl _ _)) ?_
  intro o ho p _ y e
  obtain ⟨x, rfl, hy⟩ := Option.bind_eq_some_iff.1 e
  exact (ho x rfl).trans (rewriteShard_only _ _ _ _ _ _ _ hy)

theorem swapComplete_only (n : Nat) (image : Nat) (s : State) :
    Only [.counters, .model] s (swapComplete n image s) := by
  unfold swapComplete
  repeat' first
    | with_reducible exact Only.refl _ _
    | with_reducible assumption
    | (extract_lets +onlyGivenNames x; refine (have hx : Only [.counters, .model] s x := ?_; ?_); unfold x; clear x; rotate_left; clear_value x; rotate_right)
    | (extract_lets +onlyGivenNames x; unfold x; clear x)
    | ((with_reducible apply Only.step (bump_only _ _)); focus rfl)
    | ((with_reducible apply Only.step (dropUnused_only _ _)); focus rfl)
    | ((with_reducible apply Only.step (modSlot_only _ _ _)); focus rfl)
    | ((with_reducible apply Only.step (setImage_only _ _ _)); focus rfl)
    | (split)

theorem stopFront_only (n : Nat) (w : Swap) (bad : Nat) (s : State) :
    Only [.counters, .events, .held, .model, .out] s (stopFront n w bad s) := by
  unfold stopFront
  repeat' first
    | with_reducible exact Only.refl _ _
    | with_reducible assumption
    | (extract_lets +onlyGivenNames x; refine (have hx : Only [.counters, .events, .held, .model, .out] s x := ?_; ?_); unfold x; clear x; rotate_left; clear_value x; rotate_right)
    | ((with_reducible apply Only.step (bumpBy_only _ _ _)); focus rfl)
    | ((with_reducible apply Only.step (modSlot_only _ _ _)); focus rfl)
    | ((with_reducible apply Only.step (raise_only _ _ _ _)); focus rfl)

theorem openBarrier_only (n : Nat) (image : Nat) (w : Swap) (s : State) :
    Only [.power, .doms, .gov, .time, .cause, .counters, .events, .monitors, .que, .held, .model, .flow, .hbr, .islands, .clusters, .integ, .strait, .out, .free] s (openBarrier n image w s) := by
  unfold openBarrier
  repeat' first
    | with_reducible exact Only.refl _ _
    | with_reducible assumption
    | (extract_lets +onlyGivenNames x; refine (have hx : Only [.power, .doms, .gov, .time, .cause, .counters, .events, .monitors, .que, .held, .model, .flow, .hbr, .islands, .clusters, .integ, .strait, .out, .free] s x := ?_; ?_); unfold x; clear x; rotate_left; clear_value x; rotate_right)
    | (extract_lets +onlyGivenNames x; unfold x; clear x)
    | ((with_reducible apply Only.ite) <;> intro _)
    | ((with_reducible apply Only.step (askReady_only _)); focus rfl)
    | ((with_reducible apply Only.step (modSlot_only _ _ _)); focus rfl)
    | ((with_reducible apply Only.step (swapComplete_only _ _ _)); focus rfl)

theorem programLayer_only (n : Nat) (image : Nat) (img : ImageRec) (w : Swap) (t : Target) (reads : List (Nat × HostRead)) (s : State) :
    Only [.doms, .time, .cause, .counters, .events, .monitors, .que, .held, .model, .hbr, .banks, .awl, .scheds, .integ, .out] s (programLayer n image img w t reads s) := by
  unfold programLayer
  repeat' first
    | with_reducible exact Only.refl _ _
    | with_reducible assumption
    | (extract_lets +onlyGivenNames x; refine (have hx : Only [.doms, .time, .cause, .counters, .events, .monitors, .que, .held, .model, .hbr, .banks, .awl, .scheds, .integ, .out] s x := ?_; ?_); unfold x; clear x; rotate_left; clear_value x; rotate_right)
    | (extract_lets +onlyGivenNames x; unfold x; clear x)
    | ((with_reducible apply Only.ite) <;> intro _)
    | ((with_reducible apply Only.step (modSlot_only _ _ _)); focus rfl)
    | ((with_reducible apply OnlyO.got (rewriteShards_only _ _ _ _ _) (by assumption)); focus rfl)
    | ((with_reducible apply Only.step (sealReady_only _ _ _)); focus rfl)
    | ((with_reducible apply Only.step (settleImages_only _)); focus rfl)
    | ((with_reducible apply Only.step (stopFront_only _ _ _ _)); focus rfl)
    | (split)

theorem reprogramLayer_only (n : Nat) (image : Nat) (img : ImageRec) (w : Swap) (t : Target) (layer : Nat) (reads : List (Nat × HostRead)) (s : State) :
    Only [.power, .doms, .gov, .time, .cause, .counters, .events, .monitors, .que, .held, .model, .flow, .hbr, .banks, .islands, .clusters, .awl, .scheds, .integ, .strait, .out, .free] s (reprogramLayer n image img w t layer reads s) := by
  unfold reprogramLayer
  repeat' first
    | with_reducible exact Only.refl _ _
    | with_reducible assumption
    | (extract_lets +onlyGivenNames x; unfold x; clear x)
    | ((with_reducible apply Only.ite) <;> intro _)
    | ((with_reducible apply Only.step (openBarrier_only _ _ _ _)); focus rfl)
    | ((with_reducible apply OnlyO.got (rewriteShards_only _ _ _ _ _) (by assumption)); focus rfl)
    | ((with_reducible apply Only.step (sealReady_only _ _ _)); focus rfl)
    | ((with_reducible apply Only.step (settleImages_only _)); focus rfl)
    | ((with_reducible apply Only.step (stopFront_only _ _ _ _)); focus rfl)
    | (split)

theorem execLayerRewriteDone_only (slot : Fin 64) (layer : Nat) (shards : List HostRead) (s : State) :
    OnlyR [.power, .doms, .gov, .time, .cause, .counters, .events, .monitors, .que, .held, .model, .flow, .hbr, .banks, .islands, .clusters, .awl, .scheds, .integ, .strait, .out, .free] s (execLayerRewriteDone slot layer shards s) := by
  unfold execLayerRewriteDone
  repeat' first
    | with_reducible exact Only.refl _ _
    | with_reducible assumption
    | (extract_lets +onlyGivenNames x; unfold x; clear x)
    | ((with_reducible apply OnlyR.ite) <;> intro _)
    | with_reducible apply OnlyR.next
    | ((with_reducible apply Only.step (programLayer_only _ _ _ _ _ _ _)); focus rfl)
    | ((with_reducible apply Only.step (reprogramLayer_only _ _ _ _ _ _ _ _)); focus rfl)
    | (split)

theorem cancelCmd_only (t : Nat) (c : Cmd) (s : State) :
    Only [.power, .doms, .gov, .time, .cause, .counters, .events, .monitors, .que, .held, .model, .flow, .hbr, .banks, .islands, .clusters, .awl, .scheds, .integ, .strait, .out, .free] s (cancelCmd t c s).2 := by
  unfold cancelCmd
  repeat' first
    | with_reducible exact Only.refl _ _
    | with_reducible assumption
    | (extract_lets +onlyGivenNames x; unfold x; clear x)
    | ((with_reducible apply Only.ite) <;> intro _)
    | ((with_reducible apply Only.ite2) <;> intro _)
    | ((with_reducible apply Only.step (askReady_only _)); focus rfl)
    | ((with_reducible apply Only.step (finishSt_only _ _ _)); focus rfl)
    | ((with_reducible apply Only.step (stopLoad_only _ _)); focus rfl)
    | ((with_reducible apply Only.step (stopRequest_only _ _ _ _ _)); focus rfl)
    | (split)

theorem execCancel_only (a : Fin 4096) (s : State) :
    OnlyR [.power, .doms, .gov, .time, .cause, .counters, .events, .monitors, .que, .held, .model, .flow, .hbr, .banks, .islands, .clusters, .awl, .scheds, .integ, .strait, .out, .free] s (execCancel a s) := by
  unfold execCancel
  repeat' first
    | with_reducible exact Only.refl _ _
    | with_reducible assumption
    | (extract_lets +onlyGivenNames x; unfold x; clear x)
    | ((with_reducible apply OnlyR.ite) <;> intro _)
    | with_reducible apply OnlyR.next
    | ((with_reducible apply Only.step (cancelCmd_only _ _ _)); focus rfl)
    | ((with_reducible apply Only.step (finish_only _ _ _)); focus rfl)
    | ((with_reducible apply Only.step (finishSt_only _ _ _)); focus rfl)
    | (split)

end Sys2Proof.Laws
end

