-- ==== Sys2Proof/Laws/FrameHarbour.lean ====
section
/-! SUPPORT. For each function of the Harbour, the Strait and the ports that answers a state: the parts of the state that it may change. -/

namespace Sys2Proof.Laws

open Sys2Proof.Machine

theorem afterSeal_only (s : State) :
    Only [.power, .doms, .time, .cause, .counters, .events, .monitors, .que, .held, .model, .hbr, .islands, .integ, .out] s (afterSeal s) := by
  unfold afterSeal
  repeat' first
    | with_reducible exact Only.refl _ _
    | with_reducible assumption
    | ((with_reducible apply Only.step (afterMoves_only _)); focus rfl)
    | ((with_reducible apply Only.step (settleImages_only _)); focus rfl)

theorem execFullKnownSumTest_only (bank : Nat) (r : KsResult) (s : State) :
    OnlyR [.power, .doms, .time, .cause, .counters, .events, .monitors, .que, .held, .model, .hbr, .banks, .islands, .awl, .scheds, .integ, .out] s (execFullKnownSumTest bank r s) := by
  unfold execFullKnownSumTest
  repeat' first
    | with_reducible exact Only.refl _ _
    | with_reducible assumption
    | with_reducible exact OnlyR.fault
    | with_reducible exact OnlyR.refused
    | ((with_reducible apply OnlyR.ite) <;> intro _)
    | with_reducible apply OnlyR.next
    | ((with_reducible apply Only.step (afterSeal_only _)); focus rfl)
    | ((with_reducible apply Only.step (fullTest_only _ _ _)); focus rfl)
    | ((with_reducible apply Only.step (sealTested_only _ _)); focus rfl)

theorem execColumnRetestTimer_only (bank : Nat) (r : KsResult) (s : State) :
    OnlyR [.power, .time, .counters, .events, .monitors, .held, .model, .banks, .scheds, .integ, .out] s (execColumnRetestTimer bank r s) := by
  unfold execColumnRetestTimer
  repeat' first
    | with_reducible exact Only.refl _ _
    | with_reducible assumption
    | with_reducible exact OnlyR.fault
    | with_reducible exact OnlyR.refused
    | (extract_lets +onlyGivenNames x; refine (have hx : Only [.power, .time, .counters, .events, .monitors, .held, .model, .banks, .scheds, .integ, .out] s x := ?_; ?_); unfold x; clear x; rotate_left; clear_value x; rotate_right)
    | (extract_lets +onlyGivenNames x; unfold x; clear x)
    | ((with_reducible apply Only.ite) <;> intro _)
    | ((with_reducible apply OnlyR.ite) <;> intro _)
    | with_reducible apply OnlyR.next
    | ((with_reducible apply Only.step (closeColumns_only _ _)); focus rfl)
    | ((with_reducible apply Only.step (fullTest_only _ _ _)); focus rfl)
    | ((with_reducible apply Only.step (modSched_only _ _ _)); focus rfl)

theorem sealCmd_only (c : Fin 8) (s : State) :
    Only [.power, .doms, .time, .cause, .counters, .events, .monitors, .que, .held, .model, .hbr, .banks, .islands, .awl, .scheds, .integ, .out] s (sealCmd c s) := by
  unfold sealCmd
  repeat' first
    | with_reducible exact Only.refl _ _
    | with_reducible assumption
    | ((with_reducible apply Only.step (afterSeal_only _)); focus rfl)
    | ((with_reducible apply Only.step (sealNow_only _ _)); focus rfl)
    | ((with_reducible apply Only.step (sealedMoves_only _ _)); focus rfl)
    | ((with_reducible apply stateCmd_only); (focus rfl))
    | (intro b x hx; try beta_reduce)

theorem execSealBank_only (i : Initiator) (ch : Fin 8) (s : State) :
    OnlyR [.power, .doms, .time, .regs, .cause, .counters, .events, .monitors, .que, .held, .model, .hbr, .banks, .islands, .awl, .scheds, .integ, .out] s (execSealBank i ch s) := by
  unfold execSealBank
  repeat' first
    | with_reducible exact Only.refl _ _
    | with_reducible assumption
    | with_reducible apply OnlyR.next
    | ((with_reducible apply Only.step (sealCmd_only _ _)); focus rfl)
    | ((with_reducible apply unlocked_only); (focus rfl))
    | (intro x hx; try beta_reduce)

theorem codeCmd_only (c : Fin 8) (code : Nat) (s : State) :
    Only [.power, .doms, .time, .cause, .counters, .events, .monitors, .que, .held, .model, .hbr, .banks, .islands, .awl, .scheds, .integ, .out] s (codeCmd c code s) := by
  unfold codeCmd
  repeat' first
    | with_reducible exact Only.refl _ _
    | with_reducible assumption
    | ((with_reducible apply Only.step (channelCmd_only _ _ _)); focus rfl)
    | ((with_reducible apply Only.step (markCmd_only _ _)); focus rfl)
    | ((with_reducible apply Only.step (operationCmd_only _ _ _)); focus rfl)
    | ((with_reducible apply Only.step (sealCmd_only _ _)); focus rfl)
    | ((with_reducible apply Only.step (seqError_only _ _)); focus rfl)
    | ((with_reducible apply Only.step (setMode_only _ _ _)); focus rfl)
    | ((with_reducible apply stateCmd_only); (focus rfl))
    | (split)
    | (intro b x hx; try beta_reduce)

theorem windowByte_only (c : Fin 8) (offset : BitVec 12) (byte : Byte) (s : State) :
    Only [.power, .doms, .time, .cause, .counters, .events, .monitors, .que, .held, .model, .hbr, .banks, .islands, .awl, .scheds, .integ, .out] s (windowByte c offset byte s) := by
  unfold windowByte
  repeat' first
    | with_reducible exact Only.refl _ _
    | with_reducible assumption
    | ((with_reducible apply Only.ite) <;> intro _)
    | ((with_reducible apply Only.step (codeCmd_only _ _ _)); focus rfl)
    | ((with_reducible apply Only.step (modChan_only _ _ _)); focus rfl)
    | ((with_reducible apply Only.step (resumeByte_only _ _)); focus rfl)
    | ((with_reducible apply Only.step (seqError_only _ _)); focus rfl)
    | ((with_reducible apply Only.step (suspendByte_only _ _)); focus rfl)
    | (split)

theorem execAwlUnlockStep_only (i : Initiator) (ch : Fin 8) (offset : BitVec 12) (byte : Byte) (s : State) :
    OnlyR [.power, .doms, .time, .regs, .cause, .counters, .events, .monitors, .que, .held, .model, .hbr, .banks, .islands, .awl, .scheds, .integ, .out] s (execAwlUnlockStep i ch offset byte s) := by
  unfold execAwlUnlockStep
  repeat' first
    | with_reducible exact Only.refl _ _
    | with_reducible assumption
    | ((with_reducible apply OnlyR.ite) <;> intro _)
    | with_reducible apply OnlyR.next
    | ((with_reducible apply Only.step (privDrop_only _)); focus rfl)
    | ((with_reducible apply Only.step (windowByte_only _ _ _ _)); focus rfl)

theorem execAwlStrayByte_only (i : Initiator) (ch : Fin 8) (offset : BitVec 12) (byte : Byte) (s : State) :
    OnlyR [.power, .doms, .time, .regs, .cause, .counters, .events, .monitors, .que, .held, .model, .hbr, .banks, .islands, .awl, .scheds, .integ, .out] s (execAwlStrayByte i ch offset byte s) := by
  unfold execAwlStrayByte
  repeat' first
    | with_reducible exact Only.refl _ _
    | with_reducible assumption
    | ((with_reducible apply OnlyR.ite) <;> intro _)
    | with_reducible apply OnlyR.next
    | ((with_reducible apply Only.step (privDrop_only _)); focus rfl)
    | ((with_reducible apply Only.step (windowByte_only _ _ _ _)); focus rfl)

theorem upsetBit_segs (w b : Nat) (h : Harbour) : (upsetBit w b h).segs = h.segs := by
  unfold upsetBit
  split
  · rfl
  · dsimp only
    split <;> rfl

theorem execHarbourRead_only (port : BitVec 12) (h : BitVec 30) (flits : Nat) (upsets : List (Nat × Nat)) (s : State) :
    OnlyR [.doms, .time, .cause, .counters, .events, .held, .hbr, .integ, .out] s (execHarbourRead port h flits upsets s) := by
  refine OnlyR.next (Only.step (access_only _ _) rfl (Only.hbr (Only.refl _ _) ?_ rfl))
  refine List.foldlRecOn (motive := fun x : Harbour => x.segs = s.hbr.segs) _ _ rfl (fun x e b _ => ?_)
  split
  · exact (upsetBit_segs _ _ _).trans e
  · exact e

theorem execHarbourWrite_only (port : BitVec 12) (h : BitVec 30) (data : Bytes) (poison : BitVec 8) (s : State) :
    OnlyR [.doms, .time, .cause, .counters, .events, .held, .hbr, .integ, .out] s (execHarbourWrite port h data poison s) := by
  unfold execHarbourWrite
  repeat' first
    | with_reducible exact Only.refl _ _
    | with_reducible assumption
    | with_reducible apply OnlyR.next
    | ((with_reducible apply Only.step (access_only _ _)); focus rfl)

theorem execHarbourPartialWrite_only (port : BitVec 12) (h : BitVec 30) (data : Bytes) (poison : BitVec 8) (s : State) :
    OnlyR [.doms, .time, .cause, .counters, .events, .held, .hbr, .integ, .out] s (execHarbourPartialWrite port h data poison s) := by
  unfold execHarbourPartialWrite
  repeat' first
    | with_reducible exact Only.refl _ _
    | with_reducible assumption
    | with_reducible apply OnlyR.next
    | ((with_reducible apply Only.step (access_only _ _)); focus rfl)

theorem handOver_only (n : Nat) (s : State) :
    Only [.doms, .time, .cause, .counters, .events, .monitors, .que, .held, .flow, .hbr, .segs, .integ, .out] s (handOver n s) := by
  unfold handOver
  repeat' first
    | with_reducible exact Only.refl _ _
    | with_reducible assumption
    | (extract_lets +onlyGivenNames x; refine (have hx : Only [.doms, .time, .cause, .counters, .events, .monitors, .que, .held, .flow, .hbr, .segs, .integ, .out] s x := ?_; ?_); unfold x; clear x; rotate_left; clear_value x; rotate_right)
    | (extract_lets +onlyGivenNames x; unfold x; clear x)
    | ((with_reducible apply Only.step (finishDrain_only _ _)); focus rfl)
    | ((with_reducible apply Only.step (modSeg_only _ _ _)); focus rfl)
    | ((with_reducible apply Only.step (poolReturn_only _ _ _)); focus rfl)
    | (split)

theorem execRegionClearDone_only (base : BitVec 30) (s : State) :
    OnlyR [.doms, .time, .cause, .counters, .events, .monitors, .que, .held, .flow, .hbr, .segs, .integ, .out] s (execRegionClearDone base s) := by
  unfold execRegionClearDone
  repeat' first
    | with_reducible exact Only.refl _ _
    | with_reducible assumption
    | (extract_lets +onlyGivenNames x; refine (have hx : Only [.doms, .time, .cause, .counters, .events, .monitors, .que, .held, .flow, .hbr, .segs, .integ, .out] s x := ?_; ?_); unfold x; clear x; rotate_left; clear_value x; rotate_right)
    | (extract_lets +onlyGivenNames x; unfold x; clear x)
    | ((with_reducible apply Only.ite) <;> intro _)
    | with_reducible apply OnlyR.next
    | ((with_reducible apply Only.step (handOver_only _ _)); focus rfl)
    | ((with_reducible apply Only.step (noteCleared_only _ _)); focus rfl)
    | ((with_reducible apply Only.step (serveWaiting_only _)); focus rfl)
    | (split)
    | ((with_reducible apply Only.upd); rotate_left; focus (intro p hp; cases p <;> first | rfl | exact ⟨rfl, rfl, rfl⟩ | exact absurd (by decide) hp))

theorem barDrop_only (i : Initiator) (len : Nat) (write : Option Bytes) (s : State) :
    Only [.counters, .out] s (barDrop i len write s) := by
  unfold barDrop
  repeat' first
    | with_reducible exact Only.refl _ _
    | with_reducible assumption
    | (extract_lets +onlyGivenNames x; refine (have hx : Only [.counters, .out] s x := ?_; ?_); unfold x; clear x; rotate_left; clear_value x; rotate_right)
    | ((with_reducible apply Only.ite) <;> intro _)
    | ((with_reducible apply Only.step (bump_only _ _)); focus rfl)
    | ((with_reducible apply Only.step (send_only _ _)); focus rfl)

theorem execBar4Access_only (i : Initiator) (x : BitVec 30) (len : Nat) (write : Option Bytes) (s : State) :
    OnlyR [.doms, .time, .cause, .counters, .events, .held, .hbr, .integ, .out] s (execBar4Access i x len write s) := by
  unfold execBar4Access
  repeat' first
    | with_reducible exact Only.refl _ _
    | with_reducible assumption
    | (extract_lets +onlyGivenNames x; unfold x; clear x)
    | ((with_reducible apply OnlyR.ite) <;> intro _)
    | with_reducible apply OnlyR.next
    | ((with_reducible apply Only.step (access_only _ _)); focus rfl)
    | ((with_reducible apply Only.step (barDrop_only _ _ _ _)); focus rfl)

theorem execPatrolScrub_only (upsets : List (Nat × Nat)) (s : State) : OnlyR [.time, .cause, .counters, .events, .held, .hbr, .integ, .out] s (execPatrolScrub upsets s) := by
  refine OnlyR.next (Only.foldl (fun x a h => Only.step (touchGranule_only _ _) rfl h) (Only.hbr (Only.refl _ _) ?_ rfl))
  exact List.foldlRecOn (motive := fun x : Harbour => x.segs = s.hbr.segs) _ _ rfl (fun x e b _ => (upsetBit_segs _ _ _).trans e)

theorem execCeBucketDrain_only (kind : Fin 5) (s : State) :
    OnlyR [.integ] s (execCeBucketDrain kind s) := by
  unfold execCeBucketDrain
  repeat' first
    | with_reducible exact Only.refl _ _
    | with_reducible assumption
    | (extract_lets +onlyGivenNames x; unfold x; clear x)
    | with_reducible apply OnlyR.next
    | (split)
    | ((with_reducible apply Only.upd); rotate_left; focus (intro p hp; cases p <;> first | rfl | exact ⟨rfl, rfl, rfl⟩ | exact absurd (by decide) hp))

theorem execHandshakeWatchdog_only (u : UnitRef) (s : State) :
    OnlyR [.power, .doms, .gov, .time, .cause, .counters, .events, .held, .model, .flow, .islands, .clusters, .integ, .out] s (execHandshakeWatchdog u s) := by
  unfold execHandshakeWatchdog
  repeat' first
    | with_reducible exact Only.refl _ _
    | with_reducible assumption
    | with_reducible exact OnlyR.fault
    | with_reducible exact OnlyR.refused
    | ((with_reducible apply OnlyR.ite) <;> intro _)
    | with_reducible apply OnlyR.next
    | ((with_reducible apply Only.step (clusterFailure_only _ _)); focus rfl)
    | ((with_reducible apply Only.step (ferryFailure_only _ _)); focus rfl)
    | ((with_reducible apply Only.step (islandFailure_only _ _)); focus rfl)
    | ((with_reducible apply Only.step (moduleFault_only _)); focus rfl)
    | ((with_reducible apply Only.step (raise_only _ _ _ _)); focus rfl)
    | ((with_reducible apply Only.step (resendTo_only _ _)); focus rfl)
    | (split)

theorem sendPacket_only (port : Nat) (h : Flit) (body : List Flit) (s : State) :
    Only [.cause, .counters, .events, .held, .strait, .out] s (sendPacket port h body s) := by
  unfold sendPacket
  repeat' first
    | with_reducible exact Only.refl _ _
    | with_reducible assumption
    | (extract_lets +onlyGivenNames x; unfold x; clear x)
    | ((with_reducible apply Only.ite) <;> intro _)
    | ((with_reducible apply Only.step (bump_only _ _)); focus rfl)
    | ((with_reducible apply Only.step (send_only _ _)); focus rfl)
    | ((with_reducible apply Only.step (transmit_only _ _ _ _ _)); focus rfl)
    | ((with_reducible apply Only.foldl); intro x a hx; try beta_reduce)
    | (split)

theorem hopDeliver_only (port : BitVec 12) (h : Flit) (body : List Flit) (s : State) :
    Only [.cause, .counters, .events, .held, .flow, .strait, .out] s (hopDeliver port h body s) := by
  unfold hopDeliver
  repeat' first
    | with_reducible exact Only.refl _ _
    | with_reducible assumption
    | ((with_reducible apply Only.ite) <;> intro _)
    | ((with_reducible apply Only.step (ackPacket_only _ _)); focus rfl)
    | ((with_reducible apply Only.step (send_only _ _)); focus rfl)
    | ((with_reducible apply Only.step (sendPacket_only _ _ _ _)); focus rfl)

theorem hopFault_only (port : BitVec 12) (packet : List Flit) (discarded : Bool) (s : State) :
    Only [.time, .cause, .counters, .events, .held, .islands, .integ, .out] s (hopFault port packet discarded s) := by
  unfold hopFault
  repeat' first
    | with_reducible exact Only.refl _ _
    | with_reducible assumption
    | (extract_lets +onlyGivenNames x; refine (have hx : Only [.time, .cause, .counters, .events, .held, .islands, .integ, .out] s x := ?_; ?_); unfold x; clear x; rotate_left; clear_value x; rotate_right)
    | ((with_reducible apply Only.ite) <;> intro _)
    | ((with_reducible apply Only.step (bump_only _ _)); focus rfl)
    | ((with_reducible apply Only.step (islandFailure_only _ _)); focus rfl)
    | ((with_reducible apply Only.step (resendLost_only _ _ _)); focus rfl)

theorem countCorrected_only (port : BitVec 12) (p : List Flit) (s : State) :
    Only [.cause, .counters, .events, .held, .integ, .out] s (countCorrected port p s) := by
  unfold countCorrected
  repeat' first
    | with_reducible exact Only.refl _ _
    | with_reducible assumption
    | ((with_reducible apply Only.step (bucketAdd_only _ _ _)); focus rfl)
    | ((with_reducible apply Only.step (bump_only _ _)); focus rfl)
    | ((with_reducible apply Only.foldl); intro x a hx; try beta_reduce)

theorem execSoundHop_only (port : BitVec 12) (packet : List Flit) (resends : List Nat) (s : State) :
    OnlyR [.time, .cause, .counters, .events, .held, .flow, .islands, .integ, .strait, .out] s (execSoundHop port packet resends s) := by
  unfold execSoundHop
  repeat' first
    | with_reducible exact Only.refl _ _
    | with_reducible assumption
    | with_reducible exact OnlyR.fault
    | with_reducible exact OnlyR.refused
    | (extract_lets +onlyGivenNames x; refine (have hx : Only [.time, .cause, .counters, .events, .held, .flow, .islands, .integ, .strait, .out] s x := ?_; ?_); unfold x; clear x; rotate_left; clear_value x; rotate_right)
    | (extract_lets +onlyGivenNames x; unfold x; clear x)
    | ((with_reducible apply OnlyR.ite) <;> intro _)
    | with_reducible apply OnlyR.next
    | ((with_reducible apply Only.step (bump_only _ _)); focus rfl)
    | ((with_reducible apply Only.step (bumpBy_only _ _ _)); focus rfl)
    | ((with_reducible apply Only.step (countCorrected_only _ _ _)); focus rfl)
    | ((with_reducible apply Only.step (hopDeliver_only _ _ _ _)); focus rfl)
    | ((with_reducible apply Only.step (hopFault_only _ _ _ _)); focus rfl)
    | ((with_reducible apply Only.step (raise_only _ _ _ _)); focus rfl)
    | (split)

theorem acknowledge_only (k : Nat) (ack : BitVec 12) (s : State) :
    Only [.strait, .out] s (acknowledge k ack s) := by
  unfold acknowledge
  repeat' first
    | with_reducible exact Only.refl _ _
    | with_reducible assumption
    | (extract_lets +onlyGivenNames x; refine (have hx : Only [.strait, .out] s x := ?_; ?_); unfold x; clear x; rotate_left; clear_value x; rotate_right)
    | (extract_lets +onlyGivenNames x; unfold x; clear x)
    | ((with_reducible apply Only.ite) <;> intro _)
    | ((with_reducible apply Only.step (modLink_only _ _ _)); focus rfl)
    | ((with_reducible apply Only.step (send_only _ _)); focus rfl)
    | ((with_reducible apply Only.foldl); intro x a hx; try beta_reduce)

theorem replayAll_only (k : Nat) (s : State) :
    Only [.counters, .strait, .out] s (replayAll k s) := by
  unfold replayAll
  repeat' first
    | with_reducible exact Only.refl _ _
    | with_reducible assumption
    | (extract_lets +onlyGivenNames x; refine (have hx : Only [.counters, .strait, .out] s x := ?_; ?_); unfold x; clear x; rotate_left; clear_value x; rotate_right)
    | (extract_lets +onlyGivenNames x; unfold x; clear x)
    | ((with_reducible apply Only.ite) <;> intro _)
    | ((with_reducible apply Only.step (bump_only _ _)); focus rfl)
    | ((with_reducible apply Only.step (modLink_only _ _ _)); focus rfl)
    | ((with_reducible apply Only.step (send_only _ _)); focus rfl)
    | ((with_reducible apply Only.foldl); intro x a hx; try beta_reduce)

theorem abortKeys_only (unit : Nat) (keys : List (BitVec 64)) (s : State) :
    Only [.power, .doms, .gov, .time, .cause, .counters, .events, .monitors, .que, .held, .model, .flow, .hbr, .islands, .clusters, .integ, .strait, .out, .free] s (abortKeys unit keys s) := by
  unfold abortKeys
  repeat' first
    | with_reducible exact Only.refl _ _
    | with_reducible assumption
    | (extract_lets +onlyGivenNames x; refine (have hx : Only [.power, .doms, .gov, .time, .cause, .counters, .events, .monitors, .que, .held, .model, .flow, .hbr, .islands, .clusters, .integ, .strait, .out, .free] s x := ?_; ?_); unfold x; clear x; rotate_left; clear_value x; rotate_right)
    | (extract_lets +onlyGivenNames x; unfold x; clear x)
    | ((with_reducible apply Only.ite) <;> intro _)
    | ((with_reducible apply Only.step (bump_only _ _)); focus rfl)
    | ((with_reducible apply Only.step (raise_only _ _ _ _)); focus rfl)
    | ((with_reducible apply Only.step (stopRequest_only _ _ _ _ _)); focus rfl)
    | ((with_reducible apply Only.foldl); intro x a hx; try beta_reduce)
    | (unfold modStrait)
    | (split)
    | ((with_reducible apply Only.upd); rotate_left; focus (intro p hp; cases p <;> first | rfl | exact ⟨rfl, rfl, rfl⟩ | exact absurd (by decide) hp))

theorem sendAbort_only (unit : Nat) (keys : List (BitVec 64)) (s : State) :
    Only [.power, .doms, .gov, .time, .cause, .counters, .events, .monitors, .que, .held, .model, .flow, .hbr, .islands, .clusters, .integ, .strait, .out, .free] s (sendAbort unit keys s) := by
  unfold sendAbort
  repeat' first
    | with_reducible exact Only.refl _ _
    | with_reducible assumption
    | ((with_reducible apply Only.ite) <;> intro _)
    | (extract_lets +onlyGivenNames x; unfold x; clear x)
    | ((with_reducible apply Only.step (abortKeys_only _ _ _)); focus rfl)
    | ((with_reducible apply Only.step (bump_only _ _)); focus rfl)
    | ((with_reducible apply Only.step (raise_only _ _ _ _)); focus rfl)
    | ((with_reducible apply Only.step (sendCtl_only _ _ _ _)); focus rfl)
    | ((with_reducible apply Only.foldl); intro x a hx; try beta_reduce)

theorem abortRunning_only (unit : Nat) (s : State) :
    Only [.power, .doms, .gov, .time, .cause, .counters, .events, .monitors, .que, .held, .model, .flow, .hbr, .islands, .clusters, .integ, .strait, .out, .free] s (abortRunning unit s) := by
  unfold abortRunning
  repeat' first
    | with_reducible exact Only.refl _ _
    | with_reducible assumption
    | (extract_lets +onlyGivenNames x; unfold x; clear x)
    | ((with_reducible apply Only.step (sendAbort_only _ _ _)); focus rfl)

theorem startDisagree_only (s : State) :
    Only [.strait] s (startDisagree s) := by
  unfold startDisagree
  repeat' first
    | with_reducible exact Only.refl _ _
    | with_reducible assumption
    | (unfold modStrait)
    | ((with_reducible apply Only.upd); rotate_left; focus (intro p hp; cases p <;> first | rfl | exact ⟨rfl, rfl, rfl⟩ | exact absurd (by decide) hp))

theorem gangLost_only (m : Nat) (s : State) :
    Only [.power, .doms, .gov, .time, .cause, .counters, .events, .monitors, .que, .held, .model, .flow, .hbr, .islands, .clusters, .integ, .strait, .out, .free] s (gangLost m s) := by
  unfold gangLost
  repeat' first
    | with_reducible exact Only.refl _ _
    | with_reducible assumption
    | (extract_lets +onlyGivenNames x; refine (have hx : Only [.power, .doms, .gov, .time, .cause, .counters, .events, .monitors, .que, .held, .model, .flow, .hbr, .islands, .clusters, .integ, .strait, .out, .free] s x := ?_; ?_); unfold x; clear x; rotate_left; clear_value x; rotate_right)
    | ((with_reducible apply Only.ite) <;> intro _)
    | ((with_reducible apply Only.step (abortRunning_only _ _)); focus rfl)
    | ((with_reducible apply Only.step (startDisagree_only _)); focus rfl)
    | (unfold modStrait)
    | (split)
    | ((with_reducible apply Only.upd); rotate_left; focus (intro p hp; cases p <;> first | rfl | exact ⟨rfl, rfl, rfl⟩ | exact absurd (by decide) hp))

theorem setLink_only (k : Nat) (st : LinkState) (s : State) :
    Only [.cause, .strait] s (setLink k st s) := by
  unfold setLink
  repeat' first
    | with_reducible exact Only.refl _ _
    | with_reducible assumption
    | ((with_reducible apply Only.ite) <;> intro _)
    | ((with_reducible apply Only.step (cause_only _ _)); focus rfl)
    | ((with_reducible apply Only.step (modLink_only _ _ _)); focus rfl)

theorem resendOn_only (k : Nat) (f : Bytes) (s : State) :
    Only [.strait, .out] s (resendOn k f s) := by
  unfold resendOn
  repeat' first
    | with_reducible exact Only.refl _ _
    | with_reducible assumption
    | (extract_lets +onlyGivenNames x; unfold x; clear x)
    | ((with_reducible apply Only.step (transmit_only _ _ _ _ _)); focus rfl)

theorem loseLink_only (k : Nat) (accepted : BitVec 12) (s : State) :
    Only [.power, .doms, .gov, .time, .cause, .counters, .events, .monitors, .que, .held, .model, .flow, .hbr, .islands, .clusters, .integ, .strait, .out, .free] s (loseLink k accepted s) := by
  unfold loseLink
  repeat' first
    | with_reducible exact Only.refl _ _
    | with_reducible assumption
    | (extract_lets +onlyGivenNames x; refine (have hx : Only [.power, .doms, .gov, .time, .cause, .counters, .events, .monitors, .que, .held, .model, .flow, .hbr, .islands, .clusters, .integ, .strait, .out, .free] s x := ?_; ?_); unfold x; clear x; rotate_left; clear_value x; rotate_right)
    | (extract_lets +onlyGivenNames x; unfold x; clear x)
    | ((with_reducible apply Only.ite) <;> intro _)
    | ((with_reducible apply Only.step (gangLost_only _ _)); focus rfl)
    | ((with_reducible apply Only.step (modLink_only _ _ _)); focus rfl)
    | ((with_reducible apply Only.step (resendOn_only _ _ _)); focus rfl)
    | ((with_reducible apply Only.step (setLink_only _ _ _)); focus rfl)
    | ((with_reducible apply Only.foldl); intro x a hx; try beta_reduce)
    | (split)

theorem retireLane_only (k : Nat) (lane : Nat) (s : State) :
    Only [.power, .doms, .gov, .time, .cause, .counters, .events, .monitors, .que, .held, .model, .flow, .hbr, .islands, .clusters, .integ, .strait, .out, .free] s (retireLane k lane s) := by
  unfold retireLane
  repeat' first
    | with_reducible exact Only.refl _ _
    | with_reducible assumption
    | (extract_lets +onlyGivenNames x; refine (have hx : Only [.power, .doms, .gov, .time, .cause, .counters, .events, .monitors, .que, .held, .model, .flow, .hbr, .islands, .clusters, .integ, .strait, .out, .free] s x := ?_; ?_); unfold x; clear x; rotate_left; clear_value x; rotate_right)
    | (extract_lets +onlyGivenNames x; unfold x; clear x)
    | ((with_reducible apply Only.ite) <;> intro _)
    | ((with_reducible apply Only.step (gangLost_only _ _)); focus rfl)
    | ((with_reducible apply Only.step (modLink_only _ _ _)); focus rfl)
    | ((with_reducible apply Only.step (permanentEvent_only _ _ _)); focus rfl)
    | ((with_reducible apply Only.step (raise_only _ _ _ _)); focus rfl)
    | ((with_reducible apply Only.step (setLink_only _ _ _)); focus rfl)

theorem laneEpisode_only (k : Nat) (lane : Nat) (s : State) :
    Only [.power, .doms, .gov, .time, .cause, .counters, .events, .monitors, .que, .held, .model, .flow, .hbr, .islands, .clusters, .integ, .strait, .out, .free] s (laneEpisode k lane s) := by
  unfold laneEpisode
  repeat' first
    | with_reducible exact Only.refl _ _
    | with_reducible assumption
    | (extract_lets +onlyGivenNames x; refine (have hx : Only [.power, .doms, .gov, .time, .cause, .counters, .events, .monitors, .que, .held, .model, .flow, .hbr, .islands, .clusters, .integ, .strait, .out, .free] s x := ?_; ?_); unfold x; clear x; rotate_left; clear_value x; rotate_right)
    | (extract_lets +onlyGivenNames x; unfold x; clear x)
    | ((with_reducible apply Only.ite) <;> intro _)
    | ((with_reducible apply Only.step (countFailure_only _ _ _)); focus rfl)
    | ((with_reducible apply Only.step (modLink_only _ _ _)); focus rfl)
    | ((with_reducible apply Only.step (retireLane_only _ _ _)); focus rfl)

theorem trainRecord_only (k : Nat) (lanes : BitVec 4) (halves : Bool) (a : BitVec 3) (b : BitVec 3) (s : State) :
    Only [.cause, .counters, .events, .held, .strait, .out] s (trainRecord k lanes halves a b s) := by
  unfold trainRecord
  repeat' first
    | with_reducible exact Only.refl _ _
    | with_reducible assumption
    | (extract_lets +onlyGivenNames x; refine (have hx : Only [.cause, .counters, .events, .held, .strait, .out] s x := ?_; ?_); unfold x; clear x; rotate_left; clear_value x; rotate_right)
    | (extract_lets +onlyGivenNames x; unfold x; clear x)
    | ((with_reducible apply Only.ite) <;> intro _)
    | ((with_reducible apply Only.step (raise_only _ _ _ _)); focus rfl)
    | ((with_reducible apply Only.step (setLink_only _ _ _)); focus rfl)
    | (split)
    | ((with_reducible apply Only.upd); rotate_left; focus (intro p hp; cases p <;> first | rfl | exact ⟨rfl, rfl, rfl⟩ | exact absurd (by decide) hp))

theorem execLinkTraining_only (link : Fin 7) (lanes : BitVec 4) (halves : Bool) (peerA : BitVec 3) (peerB : BitVec 3) (s : State) :
    OnlyR [.cause, .counters, .events, .held, .strait, .out] s (execLinkTraining link lanes halves peerA peerB s) := by
  unfold execLinkTraining
  repeat' first
    | with_reducible exact Only.refl _ _
    | with_reducible assumption
    | (extract_lets +onlyGivenNames x; refine (have hx : Only [.cause, .counters, .events, .held, .strait, .out] s x := ?_; ?_); unfold x; clear x; rotate_left; clear_value x; rotate_right)
    | (extract_lets +onlyGivenNames x; unfold x; clear x)
    | ((with_reducible apply OnlyR.ite) <;> intro _)
    | with_reducible apply OnlyR.next
    | ((with_reducible apply Only.step (trainRecord_only _ _ _ _ _ _)); focus rfl)
    | (split)
    | ((with_reducible apply Only.upd); rotate_left; focus (intro p hp; cases p <;> first | rfl | exact ⟨rfl, rfl, rfl⟩ | exact absurd (by decide) hp))

theorem enterExchange_only (m : Nat) (s : State) :
    Only [.cause, .strait, .out] s (enterExchange m s) := by
  unfold enterExchange
  repeat' first
    | with_reducible exact Only.refl _ _
    | with_reducible assumption
    | (extract_lets +onlyGivenNames x; refine (have hx : Only [.cause, .strait, .out] s x := ?_; ?_); unfold x; clear x; rotate_left; clear_value x; rotate_right)
    | ((with_reducible apply Only.step (cause_only _ _)); focus rfl)
    | ((with_reducible apply Only.step (setGang_only _ _ _)); focus rfl)
    | ((with_reducible apply Only.step (startExchange_only _)); focus rfl)
    | (unfold modStrait)
    | ((with_reducible apply Only.upd); rotate_left; focus (intro p hp; cases p <;> first | rfl | exact ⟨rfl, rfl, rfl⟩ | exact absurd (by decide) hp))

theorem execLinkTrained_only (peer : BitVec 3) (s : State) :
    OnlyR [.cause, .strait, .out] s (execLinkTrained peer s) := by
  unfold execLinkTrained
  repeat' first
    | with_reducible exact Only.refl _ _
    | with_reducible assumption
    | (extract_lets +onlyGivenNames x; refine (have hx : Only [.cause, .strait, .out] s x := ?_; ?_); unfold x; clear x; rotate_left; clear_value x; rotate_right)
    | (extract_lets +onlyGivenNames x; unfold x; clear x)
    | ((with_reducible apply Only.ite) <;> intro _)
    | ((with_reducible apply OnlyR.ite) <;> intro _)
    | with_reducible apply OnlyR.next
    | ((with_reducible apply Only.step (enterExchange_only _ _)); focus rfl)
    | ((with_reducible apply Only.step (setLink_only _ _ _)); focus rfl)
    | ((with_reducible apply Only.foldl); intro x a hx; try beta_reduce)

theorem execLaneCeInterval_only (half : Fin 14) (lane : Fin 4) (s : State) :
    OnlyR [.power, .doms, .gov, .time, .cause, .counters, .events, .monitors, .que, .held, .model, .flow, .hbr, .islands, .clusters, .integ, .strait, .out, .free] s (execLaneCeInterval half lane s) := by
  unfold execLaneCeInterval
  repeat' first
    | with_reducible exact Only.refl _ _
    | with_reducible assumption
    | (extract_lets +onlyGivenNames x; refine (have hx : Only [.power, .doms, .gov, .time, .cause, .counters, .events, .monitors, .que, .held, .model, .flow, .hbr, .islands, .clusters, .integ, .strait, .out, .free] s x := ?_; ?_); unfold x; clear x; rotate_left; clear_value x; rotate_right)
    | (extract_lets +onlyGivenNames x; unfold x; clear x)
    | ((with_reducible apply Only.ite) <;> intro _)
    | with_reducible apply OnlyR.next
    | ((with_reducible apply Only.step (laneEpisode_only _ _ _)); focus rfl)
    | ((with_reducible apply Only.step (modLink_only _ _ _)); focus rfl)

theorem execLinkRetrainDone_only (half : Fin 14) (s : State) :
    OnlyR [.counters, .strait, .out] s (execLinkRetrainDone half s) := by
  unfold execLinkRetrainDone
  repeat' first
    | with_reducible exact Only.refl _ _
    | with_reducible assumption
    | (extract_lets +onlyGivenNames x; unfold x; clear x)
    | ((with_reducible apply OnlyR.ite) <;> intro _)
    | with_reducible apply OnlyR.next
    | ((with_reducible apply Only.step (modLink_only _ _ _)); focus rfl)
    | ((with_reducible apply Only.step (replayAll_only _ _)); focus rfl)

theorem execNakReceive_only (half : Fin 14) (ack : BitVec 12) (s : State) :
    OnlyR [.counters, .strait, .out] s (execNakReceive half ack s) := by
  unfold execNakReceive
  repeat' first
    | with_reducible exact Only.refl _ _
    | with_reducible assumption
    | (extract_lets +onlyGivenNames x; unfold x; clear x)
    | ((with_reducible apply OnlyR.ite) <;> intro _)
    | with_reducible apply OnlyR.next
    | ((with_reducible apply Only.step (acknowledge_only _ _ _)); focus rfl)
    | ((with_reducible apply Only.step (replayAll_only _ _)); focus rfl)

theorem execLinkLost_only (half : Fin 14) (accepted : BitVec 12) (s : State) :
    OnlyR [.power, .doms, .gov, .time, .cause, .counters, .events, .monitors, .que, .held, .model, .flow, .hbr, .islands, .clusters, .integ, .strait, .out, .free] s (execLinkLost half accepted s) := by
  unfold execLinkLost
  repeat' first
    | with_reducible exact Only.refl _ _
    | with_reducible assumption
    | with_reducible apply OnlyR.next
    | ((with_reducible apply Only.step (loseLink_only _ _ _)); focus rfl)

theorem receivePacket_only (k : Nat) (h : Flit) (body : List Flit) (s : State) :
    Only [.cause, .counters, .events, .held, .strait, .out] s (receivePacket k h body s) := by
  unfold receivePacket
  repeat' first
    | with_reducible exact Only.refl _ _
    | with_reducible assumption
    | (extract_lets +onlyGivenNames x; refine (have hx : Only [.cause, .counters, .events, .held, .strait, .out] s x := ?_; ?_); unfold x; clear x; rotate_left; clear_value x; rotate_right)
    | (extract_lets +onlyGivenNames x; unfold x; clear x)
    | ((with_reducible apply Only.ite) <;> intro _)
    | ((with_reducible apply Only.step (bump_only _ _)); focus rfl)
    | ((with_reducible apply Only.step (send_only _ _)); focus rfl)
    | ((with_reducible apply Only.step (sendPacket_only _ _ _ _)); focus rfl)
    | (split)

theorem drainPackets_only (k n : Nat) (l : List Flit) (s : State) : Only [.cause, .counters, .events, .held, .strait, .out] s (drainPackets k n l s) := by
  induction n generalizing l s with
  | zero => exact (modLink_only _ _ _).mono rfl
  | succ n ih =>
    unfold drainPackets
    split
    · exact (modLink_only _ _ _).mono rfl
    · exact (modLink_only _ _ _).mono rfl
    · rename_i h
      cases h
      split
      · exact ih _ _
      · split
        · exact (modLink_only _ _ _).mono rfl
        · exact Only.step (ih _ _) rfl ((receivePacket_only _ _ _ _).mono rfl)

theorem addCorrected_only (k : Nat) (counts : List Nat) (s : State) :
    Only [.strait] s (addCorrected k counts s) := by
  unfold addCorrected
  repeat' first
    | with_reducible exact Only.refl _ _
    | with_reducible assumption
    | ((with_reducible apply Only.ite) <;> intro _)
    | ((with_reducible apply Only.step (modLink_only _ _ _)); focus rfl)
    | ((with_reducible apply Only.foldl); intro x a hx; try beta_reduce)

theorem execFlitReceive_only (half : Fin 14) (flit : Bytes) (badLanes : BitVec 4) (corrected : List Nat) (s : State) :
    OnlyR [.power, .doms, .gov, .time, .cause, .counters, .events, .monitors, .que, .held, .model, .flow, .hbr, .islands, .clusters, .integ, .strait, .out, .free] s (execFlitReceive half flit badLanes corrected s) := by
  unfold execFlitReceive
  repeat' first
    | with_reducible exact Only.refl _ _
    | with_reducible assumption
    | (extract_lets +onlyGivenNames x; refine (have hx : Only [.power, .doms, .gov, .time, .cause, .counters, .events, .monitors, .que, .held, .model, .flow, .hbr, .islands, .clusters, .integ, .strait, .out, .free] s x := ?_; ?_); unfold x; clear x; rotate_left; clear_value x; rotate_right)
    | (extract_lets +onlyGivenNames x; unfold x; clear x)
    | ((with_reducible apply OnlyR.ite) <;> intro _)
    | with_reducible apply OnlyR.next
    | ((with_reducible apply Only.step (acknowledge_only _ _ _)); focus rfl)
    | ((with_reducible apply Only.step (addCorrected_only _ _ _)); focus rfl)
    | ((with_reducible apply Only.step (drainPackets_only _ _ _ _)); focus rfl)
    | ((with_reducible apply Only.step (laneEpisode_only _ _ _)); focus rfl)
    | ((with_reducible apply Only.step (modLink_only _ _ _)); focus rfl)
    | ((with_reducible apply Only.step (send_only _ _)); focus rfl)
    | (split)

theorem openGroupEpoch_only (e : Nat) (step : Int) (s : State) :
    Only [.time, .regs, .counters, .strait, .out] s (openGroupEpoch e step s) := by
  unfold openGroupEpoch
  repeat' first
    | with_reducible exact Only.refl _ _
    | with_reducible assumption
    | (extract_lets +onlyGivenNames x; refine (have hx : Only [.time, .regs, .counters, .strait, .out] s x := ?_; ?_); unfold x; clear x; rotate_left; clear_value x; rotate_right)
    | (extract_lets +onlyGivenNames x; unfold x; clear x)
    | ((with_reducible apply Only.ite) <;> intro _)
    | ((with_reducible apply Only.step (bump_only _ _)); focus rfl)
    | ((with_reducible apply Only.step (rearmAlarm_only _)); focus rfl)
    | ((with_reducible apply Only.step (sendManifest_only _)); focus rfl)
    | (unfold modStrait)
    | (split)
    | ((with_reducible apply Only.upd); rotate_left; focus (intro p hp; cases p <;> first | rfl | exact ⟨rfl, rfl, rfl⟩ | exact absurd (by decide) hp))

theorem tryOpenEpoch_only (s : State) :
    Only [.time, .regs, .counters, .strait, .out] s (tryOpenEpoch s) := by
  unfold tryOpenEpoch
  repeat' first
    | with_reducible exact Only.refl _ _
    | with_reducible assumption
    | (extract_lets +onlyGivenNames x; unfold x; clear x)
    | ((with_reducible apply Only.ite) <;> intro _)
    | ((with_reducible apply Only.step (openGroupEpoch_only _ _ _)); focus rfl)
    | (split)

theorem afterManifest_only (s : State) :
    Only [.time, .regs, .cause, .counters, .events, .held, .strait, .out] s (afterManifest s) := by
  unfold afterManifest
  repeat' first
    | with_reducible exact Only.refl _ _
    | with_reducible assumption
    | (extract_lets +onlyGivenNames x; refine (have hx : Only [.time, .regs, .cause, .counters, .events, .held, .strait, .out] s x := ?_; ?_); unfold x; clear x; rotate_left; clear_value x; rotate_right)
    | ((with_reducible apply Only.ite) <;> intro _)
    | ((with_reducible apply Only.step (judgeManifests_only _)); focus rfl)
    | ((with_reducible apply Only.step (tryOpenEpoch_only _)); focus rfl)

theorem execManifestReceive_only (manifest : Bytes) (s : State) :
    OnlyR [.power, .doms, .gov, .time, .regs, .cause, .counters, .events, .monitors, .que, .held, .model, .flow, .hbr, .islands, .clusters, .integ, .strait, .out, .free] s (execManifestReceive manifest s) := by
  unfold execManifestReceive
  repeat' first
    | with_reducible exact Only.refl _ _
    | with_reducible assumption
    | (extract_lets +onlyGivenNames x; refine (have hx : Only [.power, .doms, .gov, .time, .regs, .cause, .counters, .events, .monitors, .que, .held, .model, .flow, .hbr, .islands, .clusters, .integ, .strait, .out, .free] s x := ?_; ?_); unfold x; clear x; rotate_left; clear_value x; rotate_right)
    | (extract_lets +onlyGivenNames x; unfold x; clear x)
    | ((with_reducible apply OnlyR.ite) <;> intro _)
    | with_reducible apply OnlyR.next
    | ((with_reducible apply Only.step (afterManifest_only _)); focus rfl)
    | ((with_reducible apply Only.step (askReady_only _)); focus rfl)
    | (unfold modStrait)
    | (split)
    | ((with_reducible apply Only.upd); rotate_left; focus (intro p hp; cases p <;> first | rfl | exact ⟨rfl, rfl, rfl⟩ | exact absurd (by decide) hp))

theorem execSyncMessage_only (half : Fin 14) (t1 : BitVec 64) (t4 : Option (BitVec 64 × BitVec 64 × BitVec 64)) (s : State) :
    OnlyR [.power, .doms, .gov, .time, .regs, .cause, .counters, .events, .monitors, .que, .held, .model, .flow, .hbr, .islands, .clusters, .integ, .strait, .out, .free] s (execSyncMessage half t1 t4 s) := by
  unfold execSyncMessage
  repeat' first
    | with_reducible exact Only.refl _ _
    | with_reducible assumption
    | (extract_lets +onlyGivenNames x; refine (have hx : Only [.power, .doms, .gov, .time, .regs, .cause, .counters, .events, .monitors, .que, .held, .model, .flow, .hbr, .islands, .clusters, .integ, .strait, .out, .free] s x := ?_; ?_); unfold x; clear x; rotate_left; clear_value x; rotate_right)
    | (extract_lets +onlyGivenNames x; unfold x; clear x)
    | ((with_reducible apply OnlyR.ite) <;> intro _)
    | with_reducible apply OnlyR.next
    | ((with_reducible apply Only.step (afterManifest_only _)); focus rfl)
    | ((with_reducible apply Only.step (askReady_only _)); focus rfl)
    | ((with_reducible apply Only.step (sendCtl_only _ _ _ _)); focus rfl)
    | (unfold modStrait)
    | (split)
    | ((with_reducible apply Only.upd); rotate_left; focus (intro p hp; cases p <;> first | rfl | exact ⟨rfl, rfl, rfl⟩ | exact absurd (by decide) hp))

theorem memberLeaves_only (m : Nat) (s : State) :
    Only [.power, .doms, .gov, .time, .cause, .counters, .events, .monitors, .que, .held, .model, .flow, .hbr, .islands, .clusters, .integ, .strait, .out, .free] s (memberLeaves m s) := by
  unfold memberLeaves
  repeat' first
    | with_reducible exact Only.refl _ _
    | with_reducible assumption
    | (extract_lets +onlyGivenNames x; refine (have hx : Only [.power, .doms, .gov, .time, .cause, .counters, .events, .monitors, .que, .held, .model, .flow, .hbr, .islands, .clusters, .integ, .strait, .out, .free] s x := ?_; ?_); unfold x; clear x; rotate_left; clear_value x; rotate_right)
    | (extract_lets +onlyGivenNames x; unfold x; clear x)
    | ((with_reducible apply Only.ite) <;> intro _)
    | ((with_reducible apply Only.step (abortRunning_only _ _)); focus rfl)
    | ((with_reducible apply Only.step (bump_only _ _)); focus rfl)
    | ((with_reducible apply Only.step (cause_only _ _)); focus rfl)
    | ((with_reducible apply Only.step (raise_only _ _ _ _)); focus rfl)
    | ((with_reducible apply Only.step (setGang_only _ _ _)); focus rfl)
    | ((with_reducible apply Only.step (startDisagree_only _)); focus rfl)
    | ((with_reducible apply Only.foldl); intro x a hx; try beta_reduce)
    | (unfold modStrait)
    | (split)
    | ((with_reducible apply Only.upd); rotate_left; focus (intro p hp; cases p <;> first | rfl | exact ⟨rfl, rfl, rfl⟩ | exact absurd (by decide) hp))

theorem execSyncTimer_only (member : BitVec 3) (results : List Int) (s : State) :
    OnlyR [.power, .doms, .gov, .time, .cause, .counters, .events, .monitors, .que, .held, .model, .flow, .hbr, .islands, .clusters, .integ, .strait, .out, .free] s (execSyncTimer member results s) := by
  unfold execSyncTimer
  repeat' first
    | with_reducible exact Only.refl _ _
    | with_reducible assumption
    | (extract_lets +onlyGivenNames x; refine (have hx : Only [.power, .doms, .gov, .time, .cause, .counters, .events, .monitors, .que, .held, .model, .flow, .hbr, .islands, .clusters, .integ, .strait, .out, .free] s x := ?_; ?_); unfold x; clear x; rotate_left; clear_value x; rotate_right)
    | (extract_lets +onlyGivenNames x; unfold x; clear x)
    | ((with_reducible apply Only.ite) <;> intro _)
    | ((with_reducible apply OnlyR.ite) <;> intro _)
    | with_reducible apply OnlyR.next
    | ((with_reducible apply Only.step (memberLeaves_only _ _)); focus rfl)
    | ((with_reducible apply Only.step (sendCtl_only _ _ _ _)); focus rfl)
    | (unfold modStrait)
    | (split)
    | ((with_reducible apply Only.upd); rotate_left; focus (intro p hp; cases p <;> first | rfl | exact ⟨rfl, rfl, rfl⟩ | exact absurd (by decide) hp))

theorem execSlewTick_only (s : State) :
    OnlyR [.time] s (execSlewTick s) := by
  unfold execSlewTick
  repeat' first
    | with_reducible exact Only.refl _ _
    | with_reducible assumption
    | (extract_lets +onlyGivenNames x; unfold x; clear x)
    | ((with_reducible apply OnlyR.ite) <;> intro _)
    | with_reducible apply OnlyR.next
    | (split)
    | ((with_reducible apply Only.upd); rotate_left; focus (intro p hp; cases p <;> first | rfl | exact ⟨rfl, rfl, rfl⟩ | exact absurd (by decide) hp))

theorem execGroupCommit_only (s : State) :
    OnlyR [.regs, .values, .integ, .strait, .out] s (execGroupCommit s) := by
  unfold execGroupCommit
  repeat' first
    | with_reducible exact Only.refl _ _
    | with_reducible assumption
    | (extract_lets +onlyGivenNames x; refine (have hx : Only [.regs, .values, .integ, .strait, .out] s x := ?_; ?_); unfold x; clear x; rotate_left; clear_value x; rotate_right)
    | (extract_lets +onlyGivenNames x; unfold x; clear x)
    | ((with_reducible apply Only.ite) <;> intro _)
    | ((with_reducible apply OnlyR.ite) <;> intro _)
    | with_reducible apply OnlyR.next
    | ((with_reducible apply Only.step (applyValues_only _ _)); focus rfl)
    | ((with_reducible apply Only.step (startExchange_only _)); focus rfl)
    | (unfold modDict)
    | (unfold modStrait)
    | (split)
    | ((with_reducible apply Only.upd); rotate_left; focus (intro p hp; cases p <;> first | rfl | exact ⟨rfl, rfl, rfl⟩ | exact absurd (by decide) hp))

theorem execRequestReport_only (member : BitVec 3) (slot : Fin 64) (key : BitVec 64) (ctx : BitVec 32) (s : State) :
    OnlyR [.power, .doms, .gov, .time, .cause, .counters, .events, .monitors, .que, .held, .model, .flow, .hbr, .islands, .clusters, .integ, .strait, .out, .free] s (execRequestReport member slot key ctx s) := by
  unfold execRequestReport
  repeat' first
    | with_reducible exact Only.refl _ _
    | with_reducible assumption
    | ((with_reducible apply OnlyR.ite) <;> intro _)
    | with_reducible apply OnlyR.next
    | ((with_reducible apply Only.step (addReport_only _ _ _ _ _)); focus rfl)
    | ((with_reducible apply Only.step (askReady_only _)); focus rfl)

theorem execLaunchMessage_only (keys : List (BitVec 64)) (gen : BitVec 16) (tl : BitVec 64) (s : State) :
    OnlyR [.power, .doms, .gov, .time, .cause, .counters, .events, .monitors, .que, .held, .model, .flow, .hbr, .islands, .clusters, .integ, .strait, .out, .free] s (execLaunchMessage keys gen tl s) := by
  unfold execLaunchMessage
  repeat' first
    | with_reducible exact Only.refl _ _
    | with_reducible assumption
    | (extract_lets +onlyGivenNames x; refine (have hx : Only [.power, .doms, .gov, .time, .cause, .counters, .events, .monitors, .que, .held, .model, .flow, .hbr, .islands, .clusters, .integ, .strait, .out, .free] s x := ?_; ?_); unfold x; clear x; rotate_left; clear_value x; rotate_right)
    | ((with_reducible apply Only.ite) <;> intro _)
    | ((with_reducible apply OnlyR.ite) <;> intro _)
    | with_reducible apply OnlyR.next
    | ((with_reducible apply Only.step (askReady_only _)); focus rfl)
    | ((with_reducible apply Only.step (bump_only _ _)); focus rfl)
    | (unfold modStrait)
    | (split)
    | ((with_reducible apply Only.upd); rotate_left; focus (intro p hp; cases p <;> first | rfl | exact ⟨rfl, rfl, rfl⟩ | exact absurd (by decide) hp))

theorem execGroupLaunchAtTide_only (launch : Nat) (s : State) :
    OnlyR [.power, .doms, .gov, .time, .cause, .counters, .events, .monitors, .que, .held, .model, .flow, .hbr, .islands, .clusters, .integ, .strait, .out, .free] s (execGroupLaunchAtTide launch s) := by
  unfold execGroupLaunchAtTide
  repeat' first
    | with_reducible exact Only.refl _ _
    | with_reducible assumption
    | ((with_reducible apply OnlyR.ite) <;> intro _)
    | with_reducible apply OnlyR.next
    | ((with_reducible apply Only.step (modLaunch_only _ _ _)); focus rfl)
    | ((with_reducible apply Only.step (refuseAgreed_only _ _)); focus rfl)
    | (split)

theorem execBarrierDeadline_only (launch : Nat) (s : State) :
    OnlyR [.power, .doms, .gov, .time, .cause, .counters, .events, .monitors, .que, .held, .model, .flow, .hbr, .islands, .clusters, .integ, .strait, .out, .free] s (execBarrierDeadline launch s) := by
  unfold execBarrierDeadline
  repeat' first
    | with_reducible exact Only.refl _ _
    | with_reducible assumption
    | ((with_reducible apply OnlyR.ite) <;> intro _)
    | with_reducible apply OnlyR.next
    | ((with_reducible apply Only.step (askReady_only _)); focus rfl)
    | ((with_reducible apply Only.step (sendAbort_only _ _ _)); focus rfl)
    | (split)

theorem execReportTimeout_only (key : BitVec 64) (s : State) :
    OnlyR [.power, .doms, .gov, .time, .cause, .counters, .events, .monitors, .que, .held, .model, .flow, .hbr, .islands, .clusters, .integ, .strait, .out, .free] s (execReportTimeout key s) := by
  unfold execReportTimeout
  repeat' first
    | with_reducible exact Only.refl _ _
    | with_reducible assumption
    | (extract_lets +onlyGivenNames x; unfold x; clear x)
    | ((with_reducible apply OnlyR.ite) <;> intro _)
    | with_reducible apply OnlyR.next
    | ((with_reducible apply Only.step (askReady_only _)); focus rfl)
    | ((with_reducible apply Only.step (sendAbort_only _ _ _)); focus rfl)
    | (split)

theorem execAbortMessage_only (keys : List (BitVec 64)) (s : State) :
    OnlyR [.power, .doms, .gov, .time, .cause, .counters, .events, .monitors, .que, .held, .model, .flow, .hbr, .islands, .clusters, .integ, .strait, .out, .free] s (execAbortMessage keys s) := by
  unfold execAbortMessage
  repeat' first
    | with_reducible exact Only.refl _ _
    | with_reducible assumption
    | with_reducible apply OnlyR.next
    | ((with_reducible apply Only.step (abortKeys_only _ _ _)); focus rfl)
    | ((with_reducible apply Only.step (askReady_only _)); focus rfl)

theorem modMcast_only (slot : Nat) (group : Nat) (f : Mcast → Mcast) (s : State) :
    Only [.strait] s (modMcast slot group f s) := by
  unfold modMcast
  repeat' first
    | with_reducible exact Only.refl _ _
    | with_reducible assumption
    | (unfold modStrait)
    | (split)
    | ((with_reducible apply Only.upd); rotate_left; focus (intro p hp; cases p <;> first | rfl | exact ⟨rfl, rfl, rfl⟩ | exact absurd (by decide) hp))

theorem execMcastGrant_only (slot : Fin 64) (group : Fin 256) (member : BitVec 3) (h : BitVec 30) (s : State) :
    OnlyR [.strait] s (execMcastGrant slot group member h s) := by
  unfold execMcastGrant
  repeat' first
    | with_reducible exact Only.refl _ _
    | with_reducible assumption
    | ((with_reducible apply OnlyR.ite) <;> intro _)
    | with_reducible apply OnlyR.next
    | ((with_reducible apply Only.step (modMcast_only _ _ _ _)); focus rfl)
    | (split)

theorem placeCopy_only (n : Nat) (e : LaceEntry) (s : State) :
    Only [.flow] s (placeCopy n e s) := by
  unfold placeCopy
  repeat' first
    | with_reducible exact Only.refl _ _
    | with_reducible assumption
    | (extract_lets +onlyGivenNames x; unfold x; clear x)
    | ((with_reducible apply Only.step (modLace_only _ _ _)); focus rfl)
    | (split)

theorem execMcastPush_only (half : Fin 14) (lace : Fin 4096) (entry : BitVec 64) (s : State) :
    OnlyR [.flow] s (execMcastPush half lace entry s) := by
  unfold execMcastPush
  repeat' first
    | with_reducible exact Only.refl _ _
    | with_reducible assumption
    | (extract_lets +onlyGivenNames x; unfold x; clear x)
    | ((with_reducible apply OnlyR.ite) <;> intro _)
    | with_reducible apply OnlyR.next
    | ((with_reducible apply Only.step (placeCopy_only _ _ _)); focus rfl)
    | ((with_reducible apply Only.step (pushEntry_only _ _ _)); focus rfl)
    | (split)

theorem execMcastCredit_only (slot : Fin 64) (group : Fin 256) (member : BitVec 3) (handle : BitVec 16) (s : State) :
    OnlyR [.strait] s (execMcastCredit slot group member handle s) := by
  unfold execMcastCredit
  repeat' first
    | with_reducible exact Only.refl _ _
    | with_reducible assumption
    | (extract_lets +onlyGivenNames x; unfold x; clear x)
    | with_reducible apply OnlyR.next
    | ((with_reducible apply Only.step (modMcast_only _ _ _ _)); focus rfl)

theorem execShedStallTimeout_only (slot : Fin 64) (group : Fin 256) (member : BitVec 3) (s : State) :
    OnlyR [.power, .doms, .gov, .time, .cause, .counters, .events, .monitors, .que, .held, .model, .flow, .hbr, .islands, .clusters, .integ, .strait, .out, .free] s (execShedStallTimeout slot group member s) := by
  unfold execShedStallTimeout
  repeat' first
    | with_reducible exact Only.refl _ _
    | with_reducible assumption
    | (extract_lets +onlyGivenNames x; unfold x; clear x)
    | ((with_reducible apply OnlyR.ite) <;> intro _)
    | with_reducible apply OnlyR.next
    | ((with_reducible apply Only.step (askReady_only _)); focus rfl)
    | ((with_reducible apply Only.step (bump_only _ _)); focus rfl)
    | ((with_reducible apply Only.step (modMcast_only _ _ _ _)); focus rfl)
    | ((with_reducible apply Only.step (sendCtl_only _ _ _ _)); focus rfl)
    | ((with_reducible apply Only.step (stopRequest_only _ _ _ _ _)); focus rfl)
    | ((with_reducible apply Only.foldl); intro x a hx; try beta_reduce)
    | (split)

theorem dropCmd_only (a : Nat) (s : State) :
    Only [.power, .doms, .gov, .time, .cause, .counters, .events, .monitors, .que, .held, .model, .flow, .hbr, .segs, .banks, .islands, .clusters, .awl, .scheds, .integ, .strait, .out, .free] s (dropCmd a s) := by
  unfold dropCmd
  repeat' first
    | with_reducible exact Only.refl _ _
    | with_reducible assumption
    | (extract_lets +onlyGivenNames x; refine (have hx : Only [.power, .doms, .gov, .time, .cause, .counters, .events, .monitors, .que, .held, .model, .flow, .hbr, .segs, .banks, .islands, .clusters, .awl, .scheds, .integ, .strait, .out, .free] s x := ?_; ?_); unfold x; clear x; rotate_left; clear_value x; rotate_right)
    | (extract_lets +onlyGivenNames x; unfold x; clear x)
    | ((with_reducible apply Only.step (modPair_only _ _ _)); focus rfl)
    | ((with_reducible apply Only.step (modSlot_only _ _ _)); focus rfl)
    | ((with_reducible apply Only.step (recallRequest_only _ _)); focus rfl)
    | ((with_reducible apply Only.step (revertKv_only _ _)); focus rfl)
    | ((with_reducible apply Only.step (stopLoad_only _ _)); focus rfl)
    | ((with_reducible apply Only.foldl); intro x a hx; try beta_reduce)
    | (split)
    | ((with_reducible apply Only.upd); rotate_left; focus (intro p hp; cases p <;> first | rfl | exact ⟨rfl, rfl, rfl⟩ | exact absurd (by decide) hp))

theorem dropPair_only (q : Nat) (s : State) :
    Only [.power, .doms, .gov, .time, .cause, .counters, .events, .monitors, .que, .held, .model, .flow, .hbr, .segs, .banks, .islands, .clusters, .awl, .scheds, .integ, .strait, .out, .free] s (dropPair q s) := by
  unfold dropPair
  repeat' first
    | with_reducible exact Only.refl _ _
    | with_reducible assumption
    | (extract_lets +onlyGivenNames x; refine (have hx : Only [.power, .doms, .gov, .time, .cause, .counters, .events, .monitors, .que, .held, .model, .flow, .hbr, .segs, .banks, .islands, .clusters, .awl, .scheds, .integ, .strait, .out, .free] s x := ?_; ?_); unfold x; clear x; rotate_left; clear_value x; rotate_right)
    | (extract_lets +onlyGivenNames x; unfold x; clear x)
    | ((with_reducible apply Only.step (dropCmd_only _ _)); focus rfl)
    | ((with_reducible apply Only.step (modPair_only _ _ _)); focus rfl)
    | ((with_reducible apply Only.foldl); intro x a hx; try beta_reduce)

theorem portQueues_only (p : Port) (s : State) :
    Only [.power, .doms, .gov, .time, .cause, .counters, .events, .monitors, .que, .held, .model, .flow, .hbr, .segs, .banks, .islands, .clusters, .awl, .scheds, .integ, .strait, .out, .free] s (portQueues p s) := by
  unfold portQueues
  repeat' first
    | with_reducible exact Only.refl _ _
    | with_reducible assumption
    | (extract_lets +onlyGivenNames x; refine (have hx : Only [.power, .doms, .gov, .time, .cause, .counters, .events, .monitors, .que, .held, .model, .flow, .hbr, .segs, .banks, .islands, .clusters, .awl, .scheds, .integ, .strait, .out, .free] s x := ?_; ?_); unfold x; clear x; rotate_left; clear_value x; rotate_right)
    | (extract_lets +onlyGivenNames x; unfold x; clear x)
    | ((with_reducible apply Only.ite) <;> intro _)
    | ((with_reducible apply Only.step (askReady_only _)); focus rfl)
    | ((with_reducible apply Only.step (dropPair_only _ _)); focus rfl)
    | ((with_reducible apply Only.foldl); intro x a hx; try beta_reduce)
    | (split)
    | ((with_reducible apply Only.upd); rotate_left; focus (intro p hp; cases p <;> first | rfl | exact ⟨rfl, rfl, rfl⟩ | exact absurd (by decide) hp))

theorem dropEngine_only (p : Port) (s : State) :
    Only [.regs] s (dropEngine p s) := by
  unfold dropEngine
  repeat' first
    | with_reducible exact Only.refl _ _
    | with_reducible assumption
    | ((with_reducible apply Only.ite) <;> intro _)
    | (split)
    | ((with_reducible apply Only.upd); rotate_left; focus (intro p hp; cases p <;> first | rfl | exact ⟨rfl, rfl, rfl⟩ | exact absurd (by decide) hp))

theorem portLinkDown_only (p : Port) (s : State) :
    Only [.power, .doms, .gov, .time, .regs, .cause, .counters, .events, .monitors, .portU, .portD, .que, .held, .model, .flow, .hbr, .segs, .banks, .islands, .clusters, .awl, .scheds, .integ, .strait, .out, .free] s (portLinkDown p s) := by
  unfold portLinkDown
  repeat' first
    | with_reducible exact Only.refl _ _
    | with_reducible assumption
    | (extract_lets +onlyGivenNames x; refine (have hx : Only [.power, .doms, .gov, .time, .regs, .cause, .counters, .events, .monitors, .portU, .portD, .que, .held, .model, .flow, .hbr, .segs, .banks, .islands, .clusters, .awl, .scheds, .integ, .strait, .out, .free] s x := ?_; ?_); unfold x; clear x; rotate_left; clear_value x; rotate_right)
    | ((with_reducible apply Only.step (dropEngine_only _ _)); focus rfl)
    | ((with_reducible apply Only.step (modPort_only _ _ _)); focus rfl)
    | ((with_reducible apply Only.step (portQueues_only _ _)); focus rfl)

theorem portOff_only (p : Port) (s : State) :
    Only [.doms, .regs] s (portOff p s) := by
  unfold portOff
  repeat' first
    | with_reducible exact Only.refl _ _
    | with_reducible assumption
    | (extract_lets +onlyGivenNames x; refine (have hx : Only [.doms, .regs] s x := ?_; ?_); unfold x; clear x; rotate_left; clear_value x; rotate_right)
    | (extract_lets +onlyGivenNames x; unfold x; clear x)
    | ((with_reducible apply Only.step (modDom_only _ _ _)); focus rfl)
    | (split)
    | ((with_reducible apply Only.upd); rotate_left; focus (intro p hp; cases p <;> first | rfl | exact ⟨rfl, rfl, rfl⟩ | exact absurd (by decide) hp))

theorem execFunctionLevelReset_only (port : Port) (s : State) :
    OnlyR [.power, .doms, .gov, .time, .cause, .counters, .events, .monitors, .que, .held, .model, .flow, .hbr, .segs, .banks, .islands, .clusters, .awl, .scheds, .integ, .strait, .out, .free] s (execFunctionLevelReset port s) := by
  unfold execFunctionLevelReset
  repeat' first
    | with_reducible exact Only.refl _ _
    | with_reducible assumption
    | ((with_reducible apply OnlyR.ite) <;> intro _)
    | with_reducible apply OnlyR.next
    | ((with_reducible apply Only.step (portQueues_only _ _)); focus rfl)

theorem execPerstNAssert_only (port : Port) (s : State) :
    OnlyR [.power, .doms, .gov, .time, .regs, .cause, .counters, .events, .monitors, .portU, .portD, .que, .held, .model, .flow, .hbr, .segs, .banks, .islands, .clusters, .awl, .scheds, .integ, .strait, .out, .free] s (execPerstNAssert port s) := by
  unfold execPerstNAssert
  repeat' first
    | with_reducible exact Only.refl _ _
    | with_reducible assumption
    | (extract_lets +onlyGivenNames x; refine (have hx : Only [.power, .doms, .gov, .time, .regs, .cause, .counters, .events, .monitors, .portU, .portD, .que, .held, .model, .flow, .hbr, .segs, .banks, .islands, .clusters, .awl, .scheds, .integ, .strait, .out, .free] s x := ?_; ?_); unfold x; clear x; rotate_left; clear_value x; rotate_right)
    | with_reducible apply OnlyR.next
    | ((with_reducible apply Only.step (modPort_only _ _ _)); focus rfl)
    | ((with_reducible apply Only.step (portLinkDown_only _ _)); focus rfl)
    | ((with_reducible apply Only.step (portOff_only _ _)); focus rfl)

theorem wakePort_only (p : Port) (s : State) :
    Only [.doms] s (wakePort p s) := by
  unfold wakePort
  repeat' first
    | with_reducible exact Only.refl _ _
    | with_reducible assumption
    | (extract_lets +onlyGivenNames x; unfold x; clear x)
    | ((with_reducible apply Only.ite) <;> intro _)
    | ((with_reducible apply Only.step (modDom_only _ _ _)); focus rfl)

theorem execPerstNRelease_only (port : Port) (s : State) :
    OnlyR [.doms, .portU, .portD] s (execPerstNRelease port s) := by
  unfold execPerstNRelease
  repeat' first
    | with_reducible exact Only.refl _ _
    | with_reducible assumption
    | ((with_reducible apply OnlyR.ite) <;> intro _)
    | with_reducible apply OnlyR.next
    | ((with_reducible apply Only.step (modPort_only _ _ _)); focus rfl)
    | ((with_reducible apply Only.step (wakePort_only _ _)); focus rfl)

theorem execPcieLinkDown_only (port : Port) (s : State) :
    OnlyR [.power, .doms, .gov, .time, .regs, .cause, .counters, .events, .monitors, .portU, .portD, .que, .held, .model, .flow, .hbr, .segs, .banks, .islands, .clusters, .awl, .scheds, .integ, .strait, .out, .free] s (execPcieLinkDown port s) := by
  unfold execPcieLinkDown
  repeat' first
    | with_reducible exact Only.refl _ _
    | with_reducible assumption
    | (extract_lets +onlyGivenNames x; refine (have hx : Only [.power, .doms, .gov, .time, .regs, .cause, .counters, .events, .monitors, .portU, .portD, .que, .held, .model, .flow, .hbr, .segs, .banks, .islands, .clusters, .awl, .scheds, .integ, .strait, .out, .free] s x := ?_; ?_); unfold x; clear x; rotate_left; clear_value x; rotate_right)
    | ((with_reducible apply Only.ite) <;> intro _)
    | ((with_reducible apply OnlyR.ite) <;> intro _)
    | with_reducible apply OnlyR.next
    | ((with_reducible apply Only.step (modDom_only _ _ _)); focus rfl)
    | ((with_reducible apply Only.step (portLinkDown_only _ _)); focus rfl)

theorem execPcieLinkUp_only (port : Port) (speed : BitVec 3) (width : BitVec 5) (flit : Bool) (s : State) :
    OnlyR [.portU, .portD] s (execPcieLinkUp port speed width flit s) := by
  unfold execPcieLinkUp
  repeat' first
    | with_reducible exact Only.refl _ _
    | with_reducible assumption
    | (extract_lets +onlyGivenNames x; unfold x; clear x)
    | ((with_reducible apply OnlyR.ite) <;> intro _)
    | with_reducible apply OnlyR.next
    | ((with_reducible apply Only.step (modPort_only _ _ _)); focus rfl)

theorem execD3hotEntry_only (port : Port) (s : State) :
    OnlyR [.doms, .portU, .portD] s (execD3hotEntry port s) := by
  unfold execD3hotEntry
  repeat' first
    | with_reducible exact Only.refl _ _
    | with_reducible assumption
    | (extract_lets +onlyGivenNames x; unfold x; clear x)
    | ((with_reducible apply OnlyR.ite) <;> intro _)
    | with_reducible apply OnlyR.next
    | ((with_reducible apply Only.step (modDom_only _ _ _)); focus rfl)
    | ((with_reducible apply Only.step (modPort_only _ _ _)); focus rfl)

theorem execD0Return_only (port : Port) (s : State) :
    OnlyR [.doms, .portU, .portD, .held, .out] s (execD0Return port s) := by
  unfold execD0Return
  repeat' first
    | with_reducible exact Only.refl _ _
    | with_reducible assumption
    | (extract_lets +onlyGivenNames x; refine (have hx : Only [.doms, .portU, .portD, .held, .out] s x := ?_; ?_); unfold x; clear x; rotate_left; clear_value x; rotate_right)
    | (extract_lets +onlyGivenNames x; unfold x; clear x)
    | ((with_reducible apply OnlyR.ite) <;> intro _)
    | with_reducible apply OnlyR.next
    | ((with_reducible apply Only.step (modDom_only _ _ _)); focus rfl)
    | ((with_reducible apply Only.step (modPort_only _ _ _)); focus rfl)
    | ((with_reducible apply Only.step (send_only _ _)); focus rfl)
    | ((with_reducible apply Only.foldl); intro x a hx; try beta_reduce)
    | (split)
    | ((with_reducible apply Only.upd); rotate_left; focus (intro p hp; cases p <;> first | rfl | exact ⟨rfl, rfl, rfl⟩ | exact absurd (by decide) hp))

theorem execRootPortEnumerate_only (r : EnumResult) (s : State) :
    OnlyR [.regs, .counters, .events, .held, .out] s (execRootPortEnumerate r s) := by
  unfold execRootPortEnumerate
  repeat' first
    | with_reducible exact Only.refl _ _
    | with_reducible assumption
    | ((with_reducible apply OnlyR.ite) <;> intro _)
    | with_reducible apply OnlyR.next
    | ((with_reducible apply Only.step (dropEngine_only _ _)); focus rfl)
    | ((with_reducible apply Only.step (raise_only _ _ _ _)); focus rfl)
    | (split)
    | ((with_reducible apply Only.upd); rotate_left; focus (intro p hp; cases p <;> first | rfl | exact ⟨rfl, rfl, rfl⟩ | exact absurd (by decide) hp))

theorem execEngineInterruptWrite_only (offset : BitVec 12) (s : State) :
    OnlyR [.held, .out] s (execEngineInterruptWrite offset s) := by
  unfold execEngineInterruptWrite
  repeat' first
    | with_reducible exact Only.refl _ _
    | with_reducible assumption
    | (extract_lets +onlyGivenNames x; unfold x; clear x)
    | ((with_reducible apply OnlyR.ite) <;> intro _)
    | with_reducible apply OnlyR.next
    | ((with_reducible apply Only.step (send_only _ _)); focus rfl)
    | ((with_reducible apply Only.step (sendPort_only _ _ _)); focus rfl)

theorem execEngineHarbourAccess_only (addr : BitVec 64) (len : Nat) (write : Option Bytes) (s : State) :
    OnlyR [.doms, .time, .cause, .counters, .events, .held, .hbr, .integ, .out] s (execEngineHarbourAccess addr len write s) := by
  unfold execEngineHarbourAccess
  repeat' first
    | with_reducible exact Only.refl _ _
    | with_reducible assumption
    | (extract_lets +onlyGivenNames x; unfold x; clear x)
    | ((with_reducible apply OnlyR.ite) <;> intro _)
    | with_reducible apply OnlyR.next
    | ((with_reducible apply Only.step (access_only _ _)); focus rfl)
    | ((with_reducible apply Only.step (barDrop_only _ _ _ _)); focus rfl)
    | ((with_reducible apply Only.step (send_only _ _)); focus rfl)

theorem execDownstreamWindowAccess_only (i : Initiator) (offset : BitVec 24) (write : Option Bytes) (engine : HostRead) (s : State) :
    OnlyR [.doms, .time, .cause, .counters, .events, .monitors, .que, .held, .hbr, .integ, .out] s (execDownstreamWindowAccess i offset write engine s) := by
  unfold execDownstreamWindowAccess
  repeat' first
    | with_reducible exact Only.refl _ _
    | with_reducible assumption
    | (extract_lets +onlyGivenNames x; refine (have hx : Only [.doms, .time, .cause, .counters, .events, .monitors, .que, .held, .hbr, .integ, .out] s x := ?_; ?_); unfold x; clear x; rotate_left; clear_value x; rotate_right)
    | (extract_lets +onlyGivenNames x; unfold x; clear x)
    | ((with_reducible apply Only.ite) <;> intro _)
    | ((with_reducible apply OnlyR.ite) <;> intro _)
    | with_reducible apply OnlyR.next
    | ((with_reducible apply Only.step (bump_only _ _)); focus rfl)
    | ((with_reducible apply Only.step (send_only _ _)); focus rfl)
    | (split)

theorem execHostAccessError_only (a : Fin 4096) (e : AccessError) (detail : BitVec 16) (s : State) :
    OnlyR [.power, .doms, .gov, .time, .cause, .counters, .events, .monitors, .portU, .portD, .que, .held, .model, .flow, .hbr, .banks, .islands, .clusters, .awl, .scheds, .integ, .strait, .out, .free] s (execHostAccessError a e detail s) := by
  unfold execHostAccessError
  repeat' first
    | with_reducible exact Only.refl _ _
    | with_reducible assumption
    | (extract_lets +onlyGivenNames x; refine (have hx : Only [.power, .doms, .gov, .time, .cause, .counters, .events, .monitors, .portU, .portD, .que, .held, .model, .flow, .hbr, .banks, .islands, .clusters, .awl, .scheds, .integ, .strait, .out, .free] s x := ?_; ?_); unfold x; clear x; rotate_left; clear_value x; rotate_right)
    | (extract_lets +onlyGivenNames x; unfold x; clear x)
    | ((with_reducible apply Only.ite) <;> intro _)
    | ((with_reducible apply OnlyR.ite) <;> intro _)
    | with_reducible apply OnlyR.next
    | ((with_reducible apply Only.step (askReady_only _)); focus rfl)
    | ((with_reducible apply Only.step (finish_only _ _ _)); focus rfl)
    | ((with_reducible apply Only.step (finishAt_only _ _ _ _)); focus rfl)
    | ((with_reducible apply Only.step (modPort_only _ _ _)); focus rfl)
    | ((with_reducible apply Only.step (sendReport_only _ _ _)); focus rfl)
    | ((with_reducible apply Only.step (stopRequest_only _ _ _ _ _)); focus rfl)
    | ((with_reducible apply Only.step (undoLoad_only _ _)); focus rfl)
    | (split)
    | ((with_reducible apply Only.upd); rotate_left; focus (intro p hp; cases p <;> first | rfl | exact ⟨rfl, rfl, rfl⟩ | exact absurd (by decide) hp))

end Sys2Proof.Laws
end

