-- ==== Sys2Proof/Laws/FrameSecurity.lean ====
section
/-! SUPPORT. For each function of domains, boot, attestation, security and dictionary commands that answers a state: the parts of the state that it may change. -/

namespace Sys2Proof.Laws

open Sys2Proof.Machine

theorem holdMessage_only (i : Instr) (s : State) :
    Only [.doms, .cause, .values, .counters] s (holdMessage i s) := by
  unfold holdMessage
  repeat' first
    | with_reducible exact Only.refl _ _
    | with_reducible assumption
    | ((with_reducible apply Only.step (wantOn_only _ _)); focus rfl)
    | (unfold modDict)
    | ((with_reducible apply Only.upd); rotate_left; focus (intro p hp; cases p <;> first | rfl | exact ⟨rfl, rfl, rfl⟩ | exact absurd (by decide) hp))

theorem ownWrite_only {P : List Part} {s₀ : State}
    (hs : subParts [.doms, .time, .cause, .values, .counters, .events, .monitors, .que, .held, .hbr, .integ, .out] P = true) (i : Instr) (r : Requester)
    (obj arg : Nat) (data : Bytes) (f : Bytes → State → Nat × State) (s : State)
    (hf : ∀ b x, Only P s₀ x → Only P s₀ (f b x).2) (h : Only P s₀ s) : Only P s₀ (ownWrite i r obj arg data f s) := by
  unfold ownWrite
  split
  · split
    · exact h
    · split
      · exact h
      · dsimp only
        exact Only.step ((finish_only _ _ _).mono (P := [.doms, .time, .cause, .values, .counters, .events, .monitors, .que, .held, .hbr, .integ, .out]) rfl) hs (hf _ _ h)
  · split
    · exact Only.step ((holdMessage_only _ _).mono (P := [.doms, .time, .cause, .values, .counters, .events, .monitors, .que, .held, .hbr, .integ, .out]) rfl) hs h
    · split
      · exact Only.step ((answer_only _ _ _).mono (P := [.doms, .time, .cause, .values, .counters, .events, .monitors, .que, .held, .hbr, .integ, .out]) rfl) hs h
      · dsimp only
        exact Only.step ((answer_only _ _ _).mono (P := [.doms, .time, .cause, .values, .counters, .events, .monitors, .que, .held, .hbr, .integ, .out]) rfl) hs (hf _ _ h)

theorem startRequest_only (n : Nat) (t : PTarget) (s : State) :
    Only [.doms, .cause] s (startRequest n t s) := by
  unfold startRequest
  repeat' first
    | with_reducible exact Only.refl _ _
    | with_reducible assumption
    | (extract_lets +onlyGivenNames x; unfold x; clear x)
    | ((with_reducible apply Only.ite) <;> intro _)
    | ((with_reducible apply Only.step (cause_only _ _)); focus rfl)
    | ((with_reducible apply Only.step (modDom_only _ _ _)); focus rfl)
    | (split)

theorem domainRequest_only (n : Nat) (t : PTarget) (s : State) :
    Only [.doms, .cause, .counters] s (domainRequest n t s).2 := by
  unfold domainRequest
  repeat' first
    | with_reducible exact Only.refl _ _
    | with_reducible assumption
    | (extract_lets +onlyGivenNames x; refine (have hx : Only [.doms, .cause, .counters] s x := ?_; ?_); unfold x; clear x; rotate_left; clear_value x; rotate_right)
    | (extract_lets +onlyGivenNames x; unfold x; clear x)
    | ((with_reducible apply Only.ite) <;> intro _)
    | ((with_reducible apply Only.ite2) <;> intro _)
    | ((with_reducible apply Only.step (bump_only _ _)); focus rfl)
    | ((with_reducible apply Only.step (cause_only _ _)); focus rfl)
    | ((with_reducible apply Only.step (modDom_only _ _ _)); focus rfl)
    | ((with_reducible apply Only.step (startRequest_only _ _ _)); focus rfl)
    | (split)

theorem requestRow_only (i : Instr) (src : DomSource) (n : Nat) (t : PTarget) (s : State) :
    OnlyR [.doms, .time, .regs, .cause, .values, .counters, .events, .monitors, .que, .held, .hbr, .integ, .out] s (requestRow i src n t s) := by
  unfold requestRow
  repeat' first
    | with_reducible exact Only.refl _ _
    | with_reducible assumption
    | ((with_reducible apply Only.ite2) <;> intro _)
    | ((with_reducible apply OnlyR.ite) <;> intro _)
    | with_reducible apply OnlyR.next
    | ((with_reducible apply crossing_only); (focus rfl))
    | ((with_reducible apply Only.step (domainRequest_only _ _ _)); focus rfl)
    | ((with_reducible apply ownWrite_only); (focus rfl))
    | ((with_reducible apply Only.step (privDrop_only _)); focus rfl)
    | (split)
    | (intro b x hx; try beta_reduce)
    | (intro x hx; try beta_reduce)

theorem execDomainRequestOn_only (src : DomSource) (dom : Nat) (s : State) :
    OnlyR [.doms, .time, .regs, .cause, .values, .counters, .events, .monitors, .que, .held, .hbr, .integ, .out] s (execDomainRequestOn src dom s) := by
  unfold execDomainRequestOn
  repeat' first
    | with_reducible exact Only.refl _ _
    | with_reducible assumption
    | with_reducible apply OnlyR.next
    | ((with_reducible apply OnlyR.step (requestRow_only _ _ _ _ _)); focus rfl)

theorem execDomainRequestRet_only (src : DomSource) (dom : Nat) (s : State) :
    OnlyR [.doms, .time, .regs, .cause, .values, .counters, .events, .monitors, .que, .held, .hbr, .integ, .out] s (execDomainRequestRet src dom s) := by
  unfold execDomainRequestRet
  repeat' first
    | with_reducible exact Only.refl _ _
    | with_reducible assumption
    | with_reducible apply OnlyR.next
    | ((with_reducible apply OnlyR.step (requestRow_only _ _ _ _ _)); focus rfl)

theorem execDomainRequestOff_only (src : DomSource) (dom : Nat) (s : State) :
    OnlyR [.doms, .time, .regs, .cause, .values, .counters, .events, .monitors, .que, .held, .hbr, .integ, .out] s (execDomainRequestOff src dom s) := by
  unfold execDomainRequestOff
  repeat' first
    | with_reducible exact Only.refl _ _
    | with_reducible assumption
    | with_reducible apply OnlyR.next
    | ((with_reducible apply OnlyR.step (requestRow_only _ _ _ _ _)); focus rfl)

theorem execDomainIdleRetTimer_only (dom : Nat) (s : State) :
    OnlyR [.doms, .cause, .counters] s (execDomainIdleRetTimer dom s) := by
  unfold execDomainIdleRetTimer
  repeat' first
    | with_reducible exact Only.refl _ _
    | with_reducible assumption
    | with_reducible exact OnlyR.fault
    | with_reducible exact OnlyR.refused
    | ((with_reducible apply OnlyR.ite) <;> intro _)
    | with_reducible apply OnlyR.next
    | ((with_reducible apply Only.step (domainRequest_only _ _ _)); focus rfl)

theorem execDomainIdleOffTimer_only (dom : Nat) (s : State) :
    OnlyR [.doms, .cause, .counters] s (execDomainIdleOffTimer dom s) := by
  unfold execDomainIdleOffTimer
  repeat' first
    | with_reducible exact Only.refl _ _
    | with_reducible assumption
    | with_reducible exact OnlyR.fault
    | with_reducible exact OnlyR.refused
    | ((with_reducible apply OnlyR.ite) <;> intro _)
    | with_reducible apply OnlyR.next
    | ((with_reducible apply Only.step (domainRequest_only _ _ _)); focus rfl)

theorem execDomainDrainEnd_only (dom : Nat) (s : State) :
    OnlyR [.doms] s (execDomainDrainEnd dom s) := by
  unfold execDomainDrainEnd
  repeat' first
    | with_reducible exact Only.refl _ _
    | with_reducible assumption
    | with_reducible exact OnlyR.fault
    | with_reducible exact OnlyR.refused
    | (extract_lets +onlyGivenNames x; unfold x; clear x)
    | ((with_reducible apply OnlyR.ite) <;> intro _)
    | with_reducible apply OnlyR.next
    | ((with_reducible apply Only.step (modDom_only _ _ _)); focus rfl)
    | (split)

theorem romRecord_only (name : EventName) (unit : Nat) (s : State) :
    Only [.events] s (romRecord name unit s) := by
  unfold romRecord
  repeat' first
    | with_reducible exact Only.refl _ _
    | with_reducible assumption
    | (extract_lets +onlyGivenNames x; unfold x; clear x)
    | ((with_reducible apply Only.step (faultRecord_only _ _)); focus rfl)
    | (unfold modDict)
    | ((with_reducible apply Only.upd); rotate_left; focus (intro p hp; cases p <;> first | rfl | exact ⟨rfl, rfl, rfl⟩ | exact absurd (by decide) hp))

theorem resetState_only (aux : Bool) (s : State) :
    Only [.power, .doms, .gov, .time, .regs, .cause, .values, .counters, .events, .monitors, .sec, .portU, .portD, .que, .held, .model, .flow, .hbr, .segs, .banks, .islands, .clusters, .awl, .scheds, .integ, .strait] s (resetState aux s) := by
  unfold resetState
  repeat' first
    | with_reducible exact Only.refl _ _
    | with_reducible assumption
    | with_reducible exact OnlyO.none
    | (extract_lets +onlyGivenNames x; unfold x; clear x)
    | with_reducible apply OnlyO.some
    | (unfold modDict)
    | (unfold modSec)
    | (unfold modStrait)
    | (split)
    | ((with_reducible apply Only.upd); rotate_left; focus (intro p hp; cases p <;> first | rfl | exact ⟨rfl, rfl, rfl⟩ | exact absurd (by decide) hp))

theorem startReset_only (c : ResetCause) (s : State) :
    Only [.power, .doms, .gov, .time, .regs, .cause, .values, .counters, .events, .monitors, .sec, .portU, .portD, .que, .held, .model, .flow, .hbr, .segs, .banks, .islands, .clusters, .awl, .scheds, .integ, .strait] s (startReset c s) := by
  unfold startReset
  repeat' first
    | with_reducible exact Only.refl _ _
    | with_reducible assumption
    | (extract_lets +onlyGivenNames x; refine (have hx : Only [.power, .doms, .gov, .time, .regs, .cause, .values, .counters, .events, .monitors, .sec, .portU, .portD, .que, .held, .model, .flow, .hbr, .segs, .banks, .islands, .clusters, .awl, .scheds, .integ, .strait] s x := ?_; ?_); unfold x; clear x; rotate_left; clear_value x; rotate_right)
    | (extract_lets +onlyGivenNames x; unfold x; clear x)
    | ((with_reducible apply Only.ite) <;> intro _)
    | ((with_reducible apply Only.step (assertFault_only _)); focus rfl)
    | ((with_reducible apply Only.step (resetState_only _ _)); focus rfl)
    | ((with_reducible apply Only.step (romRecord_only _ _ _)); focus rfl)
    | (split)
    | ((with_reducible apply Only.upd); rotate_left; focus (intro p hp; cases p <;> first | rfl | exact ⟨rfl, rfl, rfl⟩ | exact absurd (by decide) hp))

theorem preload_only (key : PubKey) (img : ImageRec) (sl : Slot) (banks : List (Nat × Bank)) (s : State) :
    Only [.sec, .model, .banks] s { preload key img sl banks s with preloaded := s.preloaded } := by
  refine ⟨⟨rfl, rfl, rfl, rfl⟩, fun p hp => ?_⟩
  cases p <;> first | rfl | exact ⟨rfl, rfl, rfl⟩ | exact absurd (by decide) hp

theorem execAuxPowerUp_only (s : State) :
    OnlyR [.power, .doms] s (execAuxPowerUp s) := by
  unfold execAuxPowerUp
  repeat' first
    | with_reducible exact Only.refl _ _
    | with_reducible assumption
    | ((with_reducible apply OnlyR.ite) <;> intro _)
    | with_reducible apply OnlyR.next
    | ((with_reducible apply Only.step (modDom_only _ _ _)); focus rfl)
    | (split)
    | ((with_reducible apply Only.upd); rotate_left; focus (intro p hp; cases p <;> first | rfl | exact ⟨rfl, rfl, rfl⟩ | exact absurd (by decide) hp))

theorem execMainPowerUp_only (s : State) :
    OnlyR [.power] s (execMainPowerUp s) := by
  unfold execMainPowerUp
  repeat' first
    | with_reducible exact Only.refl _ _
    | with_reducible assumption
    | ((with_reducible apply OnlyR.ite) <;> intro _)
    | with_reducible apply OnlyR.next
    | (split)
    | ((with_reducible apply Only.upd); rotate_left; focus (intro p hp; cases p <;> first | rfl | exact ⟨rfl, rfl, rfl⟩ | exact absurd (by decide) hp))

theorem readAtReset_only (straps : BitVec 3) (s : State) :
    Only [.regs, .strait] s (readAtReset straps s) := by
  unfold readAtReset
  repeat' first
    | with_reducible exact Only.refl _ _
    | with_reducible assumption
    | (extract_lets +onlyGivenNames x; refine (have hx : Only [.regs, .strait] s x := ?_; ?_); unfold x; clear x; rotate_left; clear_value x; rotate_right)
    | (extract_lets +onlyGivenNames x; unfold x; clear x)
    | (unfold modStrait)
    | ((with_reducible apply Only.upd); rotate_left; focus (intro p hp; cases p <;> first | rfl | exact ⟨rfl, rfl, rfl⟩ | exact absurd (by decide) hp))

theorem execModuleResetEnd_only (straps : BitVec 3) (s : State) :
    OnlyR [.power, .doms, .regs, .strait] s (execModuleResetEnd straps s) := by
  unfold execModuleResetEnd
  repeat' first
    | with_reducible exact Only.refl _ _
    | with_reducible assumption
    | (extract_lets +onlyGivenNames x; refine (have hx : Only [.power, .doms, .regs, .strait] s x := ?_; ?_); unfold x; clear x; rotate_left; clear_value x; rotate_right)
    | (extract_lets +onlyGivenNames x; unfold x; clear x)
    | ((with_reducible apply Only.ite) <;> intro _)
    | ((with_reducible apply OnlyR.ite) <;> intro _)
    | with_reducible apply OnlyR.next
    | ((with_reducible apply Only.step (readAtReset_only _ _)); focus rfl)
    | ((with_reducible apply Only.step (wakePort_only _ _)); focus rfl)
    | (split)
    | ((with_reducible apply Only.upd); rotate_left; focus (intro p hp; cases p <;> first | rfl | exact ⟨rfl, rfl, rfl⟩ | exact absurd (by decide) hp))

theorem execModuleReset_only (cause : ResetCause) (s : State) :
    OnlyR [.power, .doms, .gov, .time, .regs, .cause, .values, .counters, .events, .monitors, .sec, .portU, .portD, .que, .held, .model, .flow, .hbr, .segs, .banks, .islands, .clusters, .awl, .scheds, .integ, .strait] s (execModuleReset cause s) := by
  unfold execModuleReset
  repeat' first
    | with_reducible exact Only.refl _ _
    | with_reducible assumption
    | ((with_reducible apply OnlyR.ite) <;> intro _)
    | with_reducible apply OnlyR.next
    | ((with_reducible apply Only.step (startReset_only _ _)); focus rfl)

theorem execBootOscTimeout_only (s : State) :
    OnlyR [.power, .doms, .regs, .events] s (execBootOscTimeout s) := by
  unfold execBootOscTimeout
  repeat' first
    | with_reducible exact Only.refl _ _
    | with_reducible assumption
    | (extract_lets +onlyGivenNames x; refine (have hx : Only [.power, .doms, .regs, .events] s x := ?_; ?_); unfold x; clear x; rotate_left; clear_value x; rotate_right)
    | (extract_lets +onlyGivenNames x; unfold x; clear x)
    | ((with_reducible apply OnlyR.ite) <;> intro _)
    | with_reducible apply OnlyR.next
    | ((with_reducible apply Only.step (assertFault_only _)); focus rfl)
    | ((with_reducible apply Only.step (portOff_only _ _)); focus rfl)
    | ((with_reducible apply Only.step (romRecord_only _ _ _)); focus rfl)
    | (split)
    | ((with_reducible apply Only.upd); rotate_left; focus (intro p hp; cases p <;> first | rfl | exact ⟨rfl, rfl, rfl⟩ | exact absurd (by decide) hp))

theorem enterRecovery_only (reason : Nat) (s : State) :
    Only [.power, .doms, .gov, .time, .regs, .cause, .counters, .events, .monitors, .sec, .portU, .portD, .que, .held, .model, .flow, .hbr, .segs, .banks, .islands, .clusters, .awl, .scheds, .integ, .strait, .out, .free] s (enterRecovery reason s) := by
  unfold enterRecovery
  repeat' first
    | with_reducible exact Only.refl _ _
    | with_reducible assumption
    | (extract_lets +onlyGivenNames x; refine (have hx : Only [.power, .doms, .gov, .time, .regs, .cause, .counters, .events, .monitors, .sec, .portU, .portD, .que, .held, .model, .flow, .hbr, .segs, .banks, .islands, .clusters, .awl, .scheds, .integ, .strait, .out, .free] s x := ?_; ?_); unfold x; clear x; rotate_left; clear_value x; rotate_right)
    | (extract_lets +onlyGivenNames x; unfold x; clear x)
    | ((with_reducible apply Only.step (assertFault_only _)); focus rfl)
    | ((with_reducible apply Only.step (portLinkDown_only _ _)); focus rfl)
    | ((with_reducible apply Only.step (portOff_only _ _)); focus rfl)
    | ((with_reducible apply Only.step (romRecord_only _ _ _)); focus rfl)
    | ((with_reducible apply Only.step (wakePort_only _ _)); focus rfl)
    | (unfold modSec)
    | ((with_reducible apply Only.upd); rotate_left; focus (intro p hp; cases p <;> first | rfl | exact ⟨rfl, rfl, rfl⟩ | exact absurd (by decide) hp))

theorem unwrapIdentity_only (ok : Bool) (s : State) :
    Only [.power, .events, .sec] s (unwrapIdentity ok s) := by
  unfold unwrapIdentity
  repeat' first
    | with_reducible exact Only.refl _ _
    | with_reducible assumption
    | (extract_lets +onlyGivenNames x; refine (have hx : Only [.power, .events, .sec] s x := ?_; ?_); unfold x; clear x; rotate_left; clear_value x; rotate_right)
    | ((with_reducible apply Only.ite) <;> intro _)
    | ((with_reducible apply Only.step (assertFault_only _)); focus rfl)
    | ((with_reducible apply Only.step (romRecord_only _ _ _)); focus rfl)
    | (unfold modSec)
    | (split)
    | ((with_reducible apply Only.upd); rotate_left; focus (intro p hp; cases p <;> first | rfl | exact ⟨rfl, rfl, rfl⟩ | exact absurd (by decide) hp))

theorem startFirmware_only (s : State) :
    Only [.power, .sec] s (startFirmware s) := by
  unfold startFirmware
  repeat' first
    | with_reducible exact Only.refl _ _
    | with_reducible assumption
    | (extract_lets +onlyGivenNames x; refine (have hx : Only [.power, .sec] s x := ?_; ?_); unfold x; clear x; rotate_left; clear_value x; rotate_right)
    | (extract_lets +onlyGivenNames x; unfold x; clear x)
    | (unfold modSec)
    | (split)
    | ((with_reducible apply Only.upd); rotate_left; focus (intro p hp; cases p <;> first | rfl | exact ⟨rfl, rfl, rfl⟩ | exact absurd (by decide) hp))

theorem execBootRomRun_only (unwrapOk : Bool) (s : State) :
    OnlyR [.power, .doms, .gov, .time, .regs, .cause, .counters, .events, .monitors, .sec, .portU, .portD, .que, .held, .model, .flow, .hbr, .segs, .banks, .islands, .clusters, .awl, .scheds, .integ, .strait, .out, .free] s (execBootRomRun unwrapOk s) := by
  unfold execBootRomRun
  repeat' first
    | with_reducible exact Only.refl _ _
    | with_reducible assumption
    | (extract_lets +onlyGivenNames x; refine (have hx : Only [.power, .doms, .gov, .time, .regs, .cause, .counters, .events, .monitors, .sec, .portU, .portD, .que, .held, .model, .flow, .hbr, .segs, .banks, .islands, .clusters, .awl, .scheds, .integ, .strait, .out, .free] s x := ?_; ?_); unfold x; clear x; rotate_left; clear_value x; rotate_right)
    | (extract_lets +onlyGivenNames x; unfold x; clear x)
    | ((with_reducible apply Only.ite) <;> intro _)
    | ((with_reducible apply OnlyR.ite) <;> intro _)
    | with_reducible apply OnlyR.next
    | ((with_reducible apply Only.step (enterRecovery_only _ _)); focus rfl)
    | ((with_reducible apply Only.step (startFirmware_only _)); focus rfl)
    | ((with_reducible apply Only.step (unwrapIdentity_only _ _)); focus rfl)

theorem execRecoveryTimeout_only (s : State) :
    OnlyR [.power, .doms, .gov, .time, .regs, .cause, .counters, .events, .monitors, .sec, .portU, .portD, .que, .held, .model, .flow, .hbr, .segs, .banks, .islands, .clusters, .awl, .scheds, .integ, .strait, .out, .free] s (execRecoveryTimeout s) := by
  unfold execRecoveryTimeout
  repeat' first
    | with_reducible exact Only.refl _ _
    | with_reducible assumption
    | ((with_reducible apply OnlyR.ite) <;> intro _)
    | with_reducible apply OnlyR.next
    | ((with_reducible apply Only.step (enterRecovery_only _ _)); focus rfl)

theorem loseObject_only (o : Nat) (s : State) :
    Only [.power, .values, .counters, .events, .sec, .held, .out] s (loseObject o s) := by
  unfold loseObject
  repeat' first
    | with_reducible exact Only.refl _ _
    | with_reducible assumption
    | (extract_lets +onlyGivenNames x; refine (have hx : Only [.power, .values, .counters, .events, .sec, .held, .out] s x := ?_; ?_); unfold x; clear x; rotate_left; clear_value x; rotate_right)
    | ((with_reducible apply Only.ite) <;> intro _)
    | ((with_reducible apply Only.step (moduleFault_only _)); focus rfl)
    | ((with_reducible apply Only.step (raise_only _ _ _ _)); focus rfl)
    | (unfold modDict)
    | (unfold modSec)
    | (split)
    | ((with_reducible apply Only.upd); rotate_left; focus (intro p hp; cases p <;> first | rfl | exact ⟨rfl, rfl, rfl⟩ | exact absurd (by decide) hp))

theorem bootErase_only (n : Nat) (s : State) :
    Only [.doms, .time, .cause, .counters, .events, .held, .hbr, .banks, .awl, .scheds, .integ, .out] s (bootErase n s) := by
  unfold bootErase
  repeat' first
    | with_reducible exact Only.refl _ _
    | with_reducible assumption
    | (extract_lets +onlyGivenNames x; refine (have hx : Only [.doms, .time, .cause, .counters, .events, .held, .hbr, .banks, .awl, .scheds, .integ, .out] s x := ?_; ?_); unfold x; clear x; rotate_left; clear_value x; rotate_right)
    | (extract_lets +onlyGivenNames x; unfold x; clear x)
    | ((with_reducible apply Only.ite) <;> intro _)
    | ((with_reducible apply Only.step (modBank_only _ _ _)); focus rfl)
    | ((with_reducible apply Only.step (queueOp_only _ _ _)); focus rfl)

theorem wakeLinks_only (s : State) :
    Only [.doms, .cause, .counters] s (wakeLinks s) := by
  unfold wakeLinks
  repeat' first
    | with_reducible exact Only.refl _ _
    | with_reducible assumption
    | ((with_reducible apply Only.ite) <;> intro _)
    | ((with_reducible apply Only.step (wantOn_only _ _)); focus rfl)
    | ((with_reducible apply Only.foldl); intro x a hx; try beta_reduce)

theorem execUzomelReady_only (lost : List Nat) (s : State) :
    OnlyR [.power, .doms, .time, .regs, .cause, .values, .counters, .events, .sec, .held, .hbr, .banks, .awl, .scheds, .integ, .out] s (execUzomelReady lost s) := by
  unfold execUzomelReady
  repeat' first
    | with_reducible exact Only.refl _ _
    | with_reducible assumption
    | with_reducible exact OnlyR.fault
    | with_reducible exact OnlyR.refused
    | (extract_lets +onlyGivenNames x; refine (have hx : Only [.power, .doms, .time, .regs, .cause, .values, .counters, .events, .sec, .held, .hbr, .banks, .awl, .scheds, .integ, .out] s x := ?_; ?_); unfold x; clear x; rotate_left; clear_value x; rotate_right)
    | (extract_lets +onlyGivenNames x; unfold x; clear x)
    | ((with_reducible apply Only.ite) <;> intro _)
    | ((with_reducible apply OnlyR.ite) <;> intro _)
    | with_reducible apply OnlyR.next
    | ((with_reducible apply Only.step (bootErase_only _ _)); focus rfl)
    | ((with_reducible apply Only.step (loseObject_only _ _)); focus rfl)
    | ((with_reducible apply Only.step (raise_only _ _ _ _)); focus rfl)
    | ((with_reducible apply Only.step (raiseRefetch_only _)); focus rfl)
    | ((with_reducible apply Only.step (syncRegisters_only _)); focus rfl)
    | ((with_reducible apply Only.step (wakeLinks_only _)); focus rfl)
    | ((with_reducible apply Only.foldl); intro x a hx; try beta_reduce)
    | (unfold modSec)
    | (split)
    | ((with_reducible apply Only.upd); rotate_left; focus (intro p hp; cases p <;> first | rfl | exact ⟨rfl, rfl, rfl⟩ | exact absurd (by decide) hp))

theorem setRcv_only (state : Nat) (reason : Nat) (s : State) :
    Only [.regs] s (setRcv state reason s) := by
  unfold setRcv
  repeat' first
    | with_reducible exact Only.refl _ _
    | with_reducible assumption
    | ((with_reducible apply Only.upd); rotate_left; focus (intro p hp; cases p <;> first | rfl | exact ⟨rfl, rfl, rfl⟩ | exact absurd (by decide) hp))

theorem receiveImage_only (b : Bytes) (poisoned : Bool) (s : State) :
    Only [.sec] s (receiveImage b poisoned s).2 := by
  unfold receiveImage
  repeat' first
    | with_reducible exact Only.refl _ _
    | with_reducible assumption
    | (extract_lets +onlyGivenNames x; unfold x; clear x)
    | (unfold modSec)
    | ((with_reducible apply Only.upd); rotate_left; focus (intro p hp; cases p <;> first | rfl | exact ⟨rfl, rfl, rfl⟩ | exact absurd (by decide) hp))

theorem execSecRcvGo_only (i : Initiator) (value : BitVec 32) (image : HostRead) (s : State) :
    OnlyR [.regs, .cause, .sec] s (execSecRcvGo i value image s) := by
  unfold execSecRcvGo
  repeat' first
    | with_reducible exact Only.refl _ _
    | with_reducible assumption
    | (extract_lets +onlyGivenNames x; unfold x; clear x)
    | ((with_reducible apply Only.ite) <;> intro _)
    | ((with_reducible apply OnlyR.ite) <;> intro _)
    | with_reducible apply OnlyR.next
    | ((with_reducible apply crossing_only); (focus rfl))
    | ((with_reducible apply Only.step (privDrop_only _)); focus rfl)
    | ((with_reducible apply Only.step (receiveImage_only _ _ _)); focus rfl)
    | ((with_reducible apply Only.step (setRcv_only _ _ _)); focus rfl)
    | (split)
    | (intro x hx; try beta_reduce)

theorem slotWritten_only (b : Bytes) (s : State) :
    Only [.sec] s (slotWritten b s) := by
  unfold slotWritten
  repeat' first
    | with_reducible exact Only.refl _ _
    | with_reducible assumption
    | (unfold modSec)
    | ((with_reducible apply Only.upd); rotate_left; focus (intro p hp; cases p <;> first | rfl | exact ⟨rfl, rfl, rfl⟩ | exact absurd (by decide) hp))

theorem slotSpoilt_only (s : State) :
    Only [.sec] s (slotSpoilt s) := by
  unfold slotSpoilt
  repeat' first
    | with_reducible exact Only.refl _ _
    | with_reducible assumption
    | (unfold modSec)
    | ((with_reducible apply Only.upd); rotate_left; focus (intro p hp; cases p <;> first | rfl | exact ⟨rfl, rfl, rfl⟩ | exact absurd (by decide) hp))

theorem recoveryBoot_only (s : State) :
    Only [.power] s (recoveryBoot s) := by
  unfold recoveryBoot
  repeat' first
    | with_reducible exact Only.refl _ _
    | with_reducible assumption
    | ((with_reducible apply Only.upd); rotate_left; focus (intro p hp; cases p <;> first | rfl | exact ⟨rfl, rfl, rfl⟩ | exact absurd (by decide) hp))

theorem execRecoveryImageDone_only (writeOk : Bool) (s : State) :
    OnlyR [.power, .regs, .sec] s (execRecoveryImageDone writeOk s) := by
  unfold execRecoveryImageDone
  repeat' first
    | with_reducible exact Only.refl _ _
    | with_reducible assumption
    | ((with_reducible apply OnlyR.ite) <;> intro _)
    | with_reducible apply OnlyR.next
    | ((with_reducible apply Only.step (recoveryBoot_only _)); focus rfl)
    | ((with_reducible apply Only.step (setRcv_only _ _ _)); focus rfl)
    | ((with_reducible apply Only.step (slotSpoilt_only _)); focus rfl)
    | ((with_reducible apply Only.step (slotWritten_only _ _)); focus rfl)

theorem pldmAnswer_only (code : Byte) (data : Bytes) (s : State) :
    Only [.out] s (pldmAnswer code data s) := by
  unfold pldmAnswer
  repeat' first
    | with_reducible exact Only.refl _ _
    | with_reducible assumption
    | ((with_reducible apply Only.step (send_only _ _)); focus rfl)

theorem setPldm_only (st : PldmStage) (s : State) :
    Only [.sec] s (setPldm st s) := by
  unfold setPldm
  repeat' first
    | with_reducible exact Only.refl _ _
    | with_reducible assumption
    | (unfold modSec)
    | ((with_reducible apply Only.upd); rotate_left; focus (intro p hp; cases p <;> first | rfl | exact ⟨rfl, rfl, rfl⟩ | exact absurd (by decide) hp))

theorem execRequestUpdate_only (s : State) :
    OnlyR [.sec, .out] s (execRequestUpdate s) := by
  unfold execRequestUpdate
  repeat' first
    | with_reducible exact Only.refl _ _
    | with_reducible assumption
    | ((with_reducible apply OnlyR.ite) <;> intro _)
    | with_reducible apply OnlyR.next
    | ((with_reducible apply Only.step (pldmAnswer_only _ _ _)); focus rfl)
    | (unfold modSec)
    | (split)
    | ((with_reducible apply Only.upd); rotate_left; focus (intro p hp; cases p <;> first | rfl | exact ⟨rfl, rfl, rfl⟩ | exact absurd (by decide) hp))

theorem execPassComponentTable_only (component : BitVec 16) (s : State) :
    OnlyR [.sec, .out] s (execPassComponentTable component s) := by
  unfold execPassComponentTable
  repeat' first
    | with_reducible exact Only.refl _ _
    | with_reducible assumption
    | ((with_reducible apply OnlyR.ite) <;> intro _)
    | with_reducible apply OnlyR.next
    | ((with_reducible apply Only.step (pldmAnswer_only _ _ _)); focus rfl)
    | ((with_reducible apply Only.step (setPldm_only _ _)); focus rfl)
    | (split)

theorem execUpdateComponent_only (component : BitVec 16) (size : BitVec 32) (s : State) :
    OnlyR [.sec, .out] s (execUpdateComponent component size s) := by
  unfold execUpdateComponent
  repeat' first
    | with_reducible exact Only.refl _ _
    | with_reducible assumption
    | ((with_reducible apply OnlyR.ite) <;> intro _)
    | with_reducible apply OnlyR.next
    | ((with_reducible apply Only.step (pldmAnswer_only _ _ _)); focus rfl)
    | (unfold modSec)
    | (split)
    | ((with_reducible apply Only.upd); rotate_left; focus (intro p hp; cases p <;> first | rfl | exact ⟨rfl, rfl, rfl⟩ | exact absurd (by decide) hp))

theorem execRequestFirmwareData_only (offset : BitVec 32) (data : Bytes) (s : State) :
    OnlyR [.sec, .out] s (execRequestFirmwareData offset data s) := by
  unfold execRequestFirmwareData
  repeat' first
    | with_reducible exact Only.refl _ _
    | with_reducible assumption
    | (extract_lets +onlyGivenNames x; refine (have hx : Only [.sec, .out] s x := ?_; ?_); unfold x; clear x; rotate_left; clear_value x; rotate_right)
    | (extract_lets +onlyGivenNames x; unfold x; clear x)
    | ((with_reducible apply OnlyR.ite) <;> intro _)
    | with_reducible apply OnlyR.next
    | ((with_reducible apply Only.step (pldmAnswer_only _ _ _)); focus rfl)
    | (unfold modSec)
    | (split)
    | ((with_reducible apply Only.upd); rotate_left; focus (intro p hp; cases p <;> first | rfl | exact ⟨rfl, rfl, rfl⟩ | exact absurd (by decide) hp))

theorem execTransferComplete_only (ok : Bool) (s : State) :
    OnlyR [.sec, .out] s (execTransferComplete ok s) := by
  unfold execTransferComplete
  repeat' first
    | with_reducible exact Only.refl _ _
    | with_reducible assumption
    | ((with_reducible apply OnlyR.ite) <;> intro _)
    | with_reducible apply OnlyR.next
    | ((with_reducible apply Only.step (pldmAnswer_only _ _ _)); focus rfl)
    | ((with_reducible apply Only.step (setPldm_only _ _)); focus rfl)

theorem execVerifyComplete_only (s : State) :
    OnlyR [.sec, .out] s (execVerifyComplete s) := by
  unfold execVerifyComplete
  repeat' first
    | with_reducible exact Only.refl _ _
    | with_reducible assumption
    | (extract_lets +onlyGivenNames x; refine (have hx : Only [.sec, .out] s x := ?_; ?_); unfold x; clear x; rotate_left; clear_value x; rotate_right)
    | (extract_lets +onlyGivenNames x; unfold x; clear x)
    | ((with_reducible apply OnlyR.ite) <;> intro _)
    | with_reducible apply OnlyR.next
    | ((with_reducible apply Only.step (pldmAnswer_only _ _ _)); focus rfl)
    | ((with_reducible apply Only.step (setPldm_only _ _)); focus rfl)
    | (unfold modSec)
    | (split)
    | ((with_reducible apply Only.upd); rotate_left; focus (intro p hp; cases p <;> first | rfl | exact ⟨rfl, rfl, rfl⟩ | exact absurd (by decide) hp))

theorem execApplyComplete_only (writeOk : Bool) (s : State) :
    OnlyR [.sec, .out] s (execApplyComplete writeOk s) := by
  unfold execApplyComplete
  repeat' first
    | with_reducible exact Only.refl _ _
    | with_reducible assumption
    | (extract_lets +onlyGivenNames x; refine (have hx : Only [.sec, .out] s x := ?_; ?_); unfold x; clear x; rotate_left; clear_value x; rotate_right)
    | ((with_reducible apply OnlyR.ite) <;> intro _)
    | with_reducible apply OnlyR.next
    | ((with_reducible apply Only.step (pldmAnswer_only _ _ _)); focus rfl)
    | ((with_reducible apply Only.step (setPldm_only _ _)); focus rfl)
    | ((with_reducible apply Only.step (slotSpoilt_only _)); focus rfl)
    | ((with_reducible apply Only.step (slotWritten_only _ _)); focus rfl)
    | (unfold modSec)
    | (split)
    | ((with_reducible apply Only.upd); rotate_left; focus (intro p hp; cases p <;> first | rfl | exact ⟨rfl, rfl, rfl⟩ | exact absurd (by decide) hp))

theorem execActivateFirmware_only (s : State) :
    OnlyR [.power, .sec, .out] s (execActivateFirmware s) := by
  unfold execActivateFirmware
  repeat' first
    | with_reducible exact Only.refl _ _
    | with_reducible assumption
    | ((with_reducible apply OnlyR.ite) <;> intro _)
    | with_reducible apply OnlyR.next
    | ((with_reducible apply Only.step (pldmAnswer_only _ _ _)); focus rfl)
    | ((with_reducible apply Only.step (recoveryBoot_only _)); focus rfl)
    | ((with_reducible apply Only.step (setPldm_only _ _)); focus rfl)
    | (split)

theorem execCancelUpdate_only (s : State) :
    OnlyR [.sec, .out] s (execCancelUpdate s) := by
  unfold execCancelUpdate
  repeat' first
    | with_reducible exact Only.refl _ _
    | with_reducible assumption
    | ((with_reducible apply OnlyR.ite) <;> intro _)
    | with_reducible apply OnlyR.next
    | ((with_reducible apply Only.step (pldmAnswer_only _ _ _)); focus rfl)
    | (unfold modSec)
    | (split)
    | ((with_reducible apply Only.upd); rotate_left; focus (intro p hp; cases p <;> first | rfl | exact ⟨rfl, rfl, rfl⟩ | exact absurd (by decide) hp))

theorem modConn_only (c : Nat) (f : Conn → Conn) (s : State) :
    Only [.sec] s (modConn c f s) := by
  unfold modConn
  repeat' first
    | with_reducible exact Only.refl _ _
    | with_reducible assumption
    | (unfold modSec)
    | ((with_reducible apply Only.upd); rotate_left; focus (intro p hp; cases p <;> first | rfl | exact ⟨rfl, rfl, rfl⟩ | exact absurd (by decide) hp))

theorem spdmFail_only (c : Nat) (code : Nat) (s : State) :
    Only [.out] s (spdmFail c code s) := by
  unfold spdmFail
  repeat' first
    | with_reducible exact Only.refl _ _
    | with_reducible assumption
    | ((with_reducible apply Only.step (send_only _ _)); focus rfl)

theorem spdmReply_only (c : Nat) (msg : Bytes) (resp : Bytes) (s : State) :
    Only [.sec, .out] s (spdmReply c msg resp s) := by
  unfold spdmReply
  repeat' first
    | with_reducible exact Only.refl _ _
    | with_reducible assumption
    | ((with_reducible apply Only.step (modConn_only _ _ _)); focus rfl)
    | ((with_reducible apply Only.step (send_only _ _)); focus rfl)

theorem spdmRow_only {P : List Part} {s₀ : State} (hs : subParts [.out, .counters, .values, .doms, .cause] P = true) (i : Instr)
    (c stage : Nat) (f : State → State) (s : State) (hf : ∀ x, Only P s₀ x → Only P s₀ (f x)) (h : Only P s₀ s) :
    OnlyR P s₀ (spdmRow i c stage f s) := by
  unfold spdmRow
  split
  · exact OnlyR.next h
  · split
    · exact OnlyR.next (Only.step ((holdMessage_only _ _).mono rfl) hs h)
    · split
      · exact OnlyR.next (Only.step ((spdmFail_only _ _ _).mono rfl) hs h)
      · split
        · exact OnlyR.next (Only.step ((spdmFail_only _ _ _).mono rfl) hs h)
        · exact OnlyR.next (hf _ h)

theorem execGetVersion_only (conn : Nat) (msg : Bytes) (s : State) :
    OnlyR [.doms, .cause, .values, .counters, .sec, .out] s (execGetVersion conn msg s) := by
  unfold execGetVersion
  repeat' first
    | with_reducible exact Only.refl _ _
    | with_reducible assumption
    | (extract_lets +onlyGivenNames x; unfold x; clear x)
    | with_reducible apply OnlyR.next
    | ((with_reducible apply Only.step (modConn_only _ _ _)); focus rfl)
    | ((with_reducible apply Only.step (spdmReply_only _ _ _ _)); focus rfl)
    | ((with_reducible apply spdmRow_only); (focus rfl))
    | (intro x hx; try beta_reduce)

theorem execGetCapabilities_only (conn : Nat) (msg : Bytes) (s : State) :
    OnlyR [.doms, .cause, .values, .counters, .sec, .out] s (execGetCapabilities conn msg s) := by
  unfold execGetCapabilities
  repeat' first
    | with_reducible exact Only.refl _ _
    | with_reducible assumption
    | with_reducible apply OnlyR.next
    | ((with_reducible apply Only.step (modConn_only _ _ _)); focus rfl)
    | ((with_reducible apply Only.step (spdmReply_only _ _ _ _)); focus rfl)
    | ((with_reducible apply spdmRow_only); (focus rfl))
    | (intro x hx; try beta_reduce)

theorem execNegotiateAlgorithms_only (conn : Nat) (msg : Bytes) (offersRsaPss3072 : Bool) (offersSha384 : Bool) (s : State) :
    OnlyR [.doms, .cause, .values, .counters, .sec, .out] s (execNegotiateAlgorithms conn msg offersRsaPss3072 offersSha384 s) := by
  unfold execNegotiateAlgorithms
  repeat' first
    | with_reducible exact Only.refl _ _
    | with_reducible assumption
    | with_reducible apply OnlyR.next
    | ((with_reducible apply Only.step (modConn_only _ _ _)); focus rfl)
    | ((with_reducible apply Only.step (spdmFail_only _ _ _)); focus rfl)
    | ((with_reducible apply Only.step (spdmReply_only _ _ _ _)); focus rfl)
    | ((with_reducible apply spdmRow_only); (focus rfl))
    | (split)
    | (intro x hx; try beta_reduce)

theorem execGetDigests_only (conn : Nat) (msg : Bytes) (s : State) :
    OnlyR [.doms, .cause, .values, .counters, .sec, .out] s (execGetDigests conn msg s) := by
  unfold execGetDigests
  repeat' first
    | with_reducible exact Only.refl _ _
    | with_reducible assumption
    | with_reducible apply OnlyR.next
    | ((with_reducible apply Only.step (spdmReply_only _ _ _ _)); focus rfl)
    | ((with_reducible apply spdmRow_only); (focus rfl))
    | (intro x hx; try beta_reduce)

theorem execGetCertificate_only (conn : Nat) (msg : Bytes) (slot : BitVec 8) (offset : BitVec 16) (length : BitVec 16) (s : State) :
    OnlyR [.doms, .cause, .values, .counters, .sec, .out] s (execGetCertificate conn msg slot offset length s) := by
  unfold execGetCertificate
  repeat' first
    | with_reducible exact Only.refl _ _
    | with_reducible assumption
    | (extract_lets +onlyGivenNames x; unfold x; clear x)
    | with_reducible apply OnlyR.next
    | ((with_reducible apply Only.step (spdmFail_only _ _ _)); focus rfl)
    | ((with_reducible apply Only.step (spdmReply_only _ _ _ _)); focus rfl)
    | ((with_reducible apply spdmRow_only); (focus rfl))
    | (split)
    | (intro x hx; try beta_reduce)

theorem spdmSigned_only (conn : Nat) (code : Nat) (msg : Bytes) (vals : List Bytes) (s : State) :
    Only [.sec, .out] s (spdmSigned conn code msg vals s) := by
  unfold spdmSigned
  repeat' first
    | with_reducible exact Only.refl _ _
    | with_reducible assumption
    | (extract_lets +onlyGivenNames x; refine (have hx : Only [.sec, .out] s x := ?_; ?_); unfold x; clear x; rotate_left; clear_value x; rotate_right)
    | (extract_lets +onlyGivenNames x; unfold x; clear x)
    | ((with_reducible apply Only.step (modConn_only _ _ _)); focus rfl)
    | ((with_reducible apply Only.step (spdmReply_only _ _ _ _)); focus rfl)

theorem execChallenge_only (conn : Nat) (msg : Bytes) (slot : BitVec 8) (s : State) :
    OnlyR [.doms, .cause, .values, .counters, .sec, .out] s (execChallenge conn msg slot s) := by
  unfold execChallenge
  repeat' first
    | with_reducible exact Only.refl _ _
    | with_reducible assumption
    | ((with_reducible apply Only.ite) <;> intro _)
    | with_reducible apply OnlyR.next
    | ((with_reducible apply Only.step (spdmFail_only _ _ _)); focus rfl)
    | ((with_reducible apply spdmRow_only); (focus rfl))
    | ((with_reducible apply Only.step (spdmSigned_only _ _ _ _ _)); focus rfl)
    | (split)
    | (intro x hx; try beta_reduce)

theorem execGetMeasurements_only (conn : Nat) (msg : Bytes) (slot : BitVec 8) (index : BitVec 8) (signed : Bool) (s : State) :
    OnlyR [.doms, .cause, .values, .counters, .sec, .out] s (execGetMeasurements conn msg slot index signed s) := by
  unfold execGetMeasurements
  repeat' first
    | with_reducible exact Only.refl _ _
    | with_reducible assumption
    | (extract_lets +onlyGivenNames x; unfold x; clear x)
    | ((with_reducible apply Only.ite) <;> intro _)
    | with_reducible apply OnlyR.next
    | ((with_reducible apply Only.step (spdmFail_only _ _ _)); focus rfl)
    | ((with_reducible apply Only.step (spdmReply_only _ _ _ _)); focus rfl)
    | ((with_reducible apply spdmRow_only); (focus rfl))
    | ((with_reducible apply Only.step (spdmSigned_only _ _ _ _ _)); focus rfl)
    | (split)
    | (intro x hx; try beta_reduce)

theorem execChunkSend_only (conn : Nat) (chunk : Bytes) (last : Bool) (s : State) :
    OnlyR [.doms, .cause, .values, .counters, .sec, .out] s (execChunkSend conn chunk last s) := by
  unfold execChunkSend
  repeat' first
    | with_reducible exact Only.refl _ _
    | with_reducible assumption
    | (extract_lets +onlyGivenNames x; refine (have hx : Only [.doms, .cause, .values, .counters, .sec, .out] s x := ?_; ?_); unfold x; clear x; rotate_left; clear_value x; rotate_right)
    | with_reducible apply OnlyR.next
    | ((with_reducible apply Only.step (modConn_only _ _ _)); focus rfl)
    | ((with_reducible apply Only.step (send_only _ _)); focus rfl)
    | ((with_reducible apply spdmRow_only); (focus rfl))
    | (intro x hx; try beta_reduce)

theorem execChunkGet_only (conn : Nat) (size : Nat) (s : State) :
    OnlyR [.doms, .cause, .values, .counters, .sec, .out] s (execChunkGet conn size s) := by
  unfold execChunkGet
  repeat' first
    | with_reducible exact Only.refl _ _
    | with_reducible assumption
    | (extract_lets +onlyGivenNames x; unfold x; clear x)
    | ((with_reducible apply Only.ite) <;> intro _)
    | with_reducible apply OnlyR.next
    | ((with_reducible apply Only.step (modConn_only _ _ _)); focus rfl)
    | ((with_reducible apply Only.step (send_only _ _)); focus rfl)
    | ((with_reducible apply Only.step (spdmFail_only _ _ _)); focus rfl)
    | ((with_reducible apply spdmRow_only); (focus rfl))
    | (split)
    | (intro x hx; try beta_reduce)

theorem execPqSign_only (conn : Nat) (msg : Bytes) (s : State) :
    OnlyR [.doms, .cause, .values, .counters, .sec, .out] s (execPqSign conn msg s) := by
  unfold execPqSign
  repeat' first
    | with_reducible exact Only.refl _ _
    | with_reducible assumption
    | (extract_lets +onlyGivenNames x; unfold x; clear x)
    | ((with_reducible apply Only.ite) <;> intro _)
    | with_reducible apply OnlyR.next
    | ((with_reducible apply Only.step (modConn_only _ _ _)); focus rfl)
    | ((with_reducible apply Only.step (spdmFail_only _ _ _)); focus rfl)
    | ((with_reducible apply spdmRow_only); (focus rfl))
    | (split)
    | (intro x hx; try beta_reduce)

theorem setStageStatus_only (state : Nat) (reason : Nat) (s : State) :
    Only [.sec] s (setStageStatus state reason s) := by
  unfold setStageStatus
  repeat' first
    | with_reducible exact Only.refl _ _
    | with_reducible assumption
    | (unfold modSec)
    | ((with_reducible apply Only.upd); rotate_left; focus (intro p hp; cases p <;> first | rfl | exact ⟨rfl, rfl, rfl⟩ | exact absurd (by decide) hp))

theorem stageWrite_only (b : Bytes) (s : State) :
    Only [.sec, .free] s (stageWrite b s).2 := by
  unfold stageWrite
  repeat' first
    | with_reducible exact Only.refl _ _
    | with_reducible assumption
    | (extract_lets +onlyGivenNames x; refine (have hx : Only [.sec, .free] s x := ?_; ?_); unfold x; clear x; rotate_left; clear_value x; rotate_right)
    | (extract_lets +onlyGivenNames x; unfold x; clear x)
    | ((with_reducible apply Only.ite) <;> intro _)
    | ((with_reducible apply Only.ite2) <;> intro _)
    | ((with_reducible apply Only.step (setStageStatus_only _ _ _)); focus rfl)
    | ((with_reducible apply Only.step (takeFree_only _)); focus rfl)
    | (unfold modSec)
    | (split)
    | ((with_reducible apply Only.upd); rotate_left; focus (intro p hp; cases p <;> first | rfl | exact ⟨rfl, rfl, rfl⟩ | exact absurd (by decide) hp))

theorem commitFirmware_only (b : Bytes) (s : State) :
    Only [.sec] s (commitFirmware b s).2 := by
  unfold commitFirmware
  repeat' first
    | with_reducible exact Only.refl _ _
    | with_reducible assumption
    | ((with_reducible apply Only.ite2) <;> intro _)
    | ((with_reducible apply Only.step (setStageStatus_only _ _ _)); focus rfl)
    | (unfold modSec)
    | (split)
    | ((with_reducible apply Only.upd); rotate_left; focus (intro p hp; cases p <;> first | rfl | exact ⟨rfl, rfl, rfl⟩ | exact absurd (by decide) hp))

theorem resetWrite_only (b : Bytes) (s : State) :
    Only [.sec] s (resetWrite b s).2 := by
  unfold resetWrite
  repeat' first
    | with_reducible exact Only.refl _ _
    | with_reducible assumption
    | ((with_reducible apply Only.ite2) <;> intro _)
    | (unfold modSec)
    | (split)
    | ((with_reducible apply Only.upd); rotate_left; focus (intro p hp; cases p <;> first | rfl | exact ⟨rfl, rfl, rfl⟩ | exact absurd (by decide) hp))

theorem policyWrite_only (r : Requester) (b : Bytes) (s : State) :
    Only [.sec] s (policyWrite r b s).2 := by
  unfold policyWrite
  repeat' first
    | with_reducible exact Only.refl _ _
    | with_reducible assumption
    | (extract_lets +onlyGivenNames x; unfold x; clear x)
    | ((with_reducible apply Only.ite2) <;> intro _)
    | (unfold modSec)
    | (split)
    | ((with_reducible apply Only.upd); rotate_left; focus (intro p hp; cases p <;> first | rfl | exact ⟨rfl, rfl, rfl⟩ | exact absurd (by decide) hp))

theorem keepKey_only (n : Nat) (k : Option PubKey) (s : State) :
    Only [.values, .sec] s (keepKey n k s) := by
  unfold keepKey
  repeat' first
    | with_reducible exact Only.refl _ _
    | with_reducible assumption
    | (extract_lets +onlyGivenNames x; refine (have hx : Only [.values, .sec] s x := ?_; ?_); unfold x; clear x; rotate_left; clear_value x; rotate_right)
    | ((with_reducible apply Only.step (storeAppend_only _ _ _ _)); focus rfl)
    | (unfold modSec)
    | (split)
    | ((with_reducible apply Only.upd); rotate_left; focus (intro p hp; cases p <;> first | rfl | exact ⟨rfl, rfl, rfl⟩ | exact absurd (by decide) hp))

theorem keyWrite_only (r : Requester) (n : Nat) (b : Bytes) (s : State) :
    Only [.values, .sec] s (keyWrite r n b s).2 := by
  unfold keyWrite
  repeat' first
    | with_reducible exact Only.refl _ _
    | with_reducible assumption
    | (extract_lets +onlyGivenNames x; unfold x; clear x)
    | ((with_reducible apply Only.ite2) <;> intro _)
    | ((with_reducible apply Only.step (keepKey_only _ _ _)); focus rfl)

theorem privWrite_only {P : List Part} {s₀ : State} (r : Requester) (f : Bytes → State → Nat × State) (b : Bytes) (s : State)
    (hf : ∀ b x, Only P s₀ x → Only P s₀ (f b x).2) (h : Only P s₀ s) : Only P s₀ (privWrite r f b s).2 := by
  unfold privWrite
  split
  · exact hf _ _ h
  · exact h

theorem execSecFwStage_only (r : Requester) (image : Bytes) (s : State) :
    OnlyR [.doms, .time, .cause, .values, .counters, .events, .monitors, .sec, .que, .held, .hbr, .integ, .out, .free] s (execSecFwStage r image s) := by
  unfold execSecFwStage
  repeat' first
    | with_reducible exact Only.refl _ _
    | with_reducible assumption
    | with_reducible apply OnlyR.next
    | ((with_reducible apply ownWrite_only); (focus rfl))
    | (with_reducible apply privWrite_only)
    | ((with_reducible apply Only.step (stageWrite_only _ _)); focus rfl)
    | (intro b x hx; try beta_reduce)

theorem execSecFwCommit_only (r : Requester) (data : Bytes) (s : State) :
    OnlyR [.doms, .time, .cause, .values, .counters, .events, .monitors, .sec, .que, .held, .hbr, .integ, .out] s (execSecFwCommit r data s) := by
  unfold execSecFwCommit
  repeat' first
    | with_reducible exact Only.refl _ _
    | with_reducible assumption
    | with_reducible apply OnlyR.next
    | ((with_reducible apply Only.step (commitFirmware_only _ _)); focus rfl)
    | ((with_reducible apply ownWrite_only); (focus rfl))
    | (with_reducible apply privWrite_only)
    | (intro b x hx; try beta_reduce)

theorem execFwSlotWriteDone_only (ok : Bool) (s : State) :
    OnlyR [.power, .doms, .gov, .time, .regs, .cause, .values, .counters, .events, .monitors, .sec, .portU, .portD, .que, .held, .model, .flow, .hbr, .segs, .banks, .islands, .clusters, .awl, .scheds, .integ, .strait] s (execFwSlotWriteDone ok s) := by
  unfold execFwSlotWriteDone
  repeat' first
    | with_reducible exact Only.refl _ _
    | with_reducible assumption
    | (extract_lets +onlyGivenNames x; refine (have hx : Only [.power, .doms, .gov, .time, .regs, .cause, .values, .counters, .events, .monitors, .sec, .portU, .portD, .que, .held, .model, .flow, .hbr, .segs, .banks, .islands, .clusters, .awl, .scheds, .integ, .strait] s x := ?_; ?_); unfold x; clear x; rotate_left; clear_value x; rotate_right)
    | ((with_reducible apply Only.ite) <;> intro _)
    | ((with_reducible apply OnlyR.ite) <;> intro _)
    | with_reducible apply OnlyR.next
    | ((with_reducible apply Only.step (setStageStatus_only _ _ _)); focus rfl)
    | ((with_reducible apply Only.step (slotSpoilt_only _)); focus rfl)
    | ((with_reducible apply Only.step (slotWritten_only _ _)); focus rfl)
    | ((with_reducible apply Only.step (startReset_only _ _)); focus rfl)
    | (unfold modSec)
    | (split)
    | ((with_reducible apply Only.upd); rotate_left; focus (intro p hp; cases p <;> first | rfl | exact ⟨rfl, rfl, rfl⟩ | exact absurd (by decide) hp))

theorem execSecModuleReset_only (r : Requester) (data : Bytes) (s : State) :
    OnlyR [.doms, .time, .cause, .values, .counters, .events, .monitors, .sec, .que, .held, .hbr, .integ, .out] s (execSecModuleReset r data s) := by
  unfold execSecModuleReset
  repeat' first
    | with_reducible exact Only.refl _ _
    | with_reducible assumption
    | with_reducible apply OnlyR.next
    | ((with_reducible apply ownWrite_only); (focus rfl))
    | (with_reducible apply privWrite_only)
    | ((with_reducible apply Only.step (resetWrite_only _ _)); focus rfl)
    | (intro b x hx; try beta_reduce)

theorem execSecPolicyWrite_only (r : Requester) (data : Bytes) (s : State) :
    OnlyR [.doms, .time, .cause, .values, .counters, .events, .monitors, .sec, .que, .held, .hbr, .integ, .out] s (execSecPolicyWrite r data s) := by
  unfold execSecPolicyWrite
  repeat' first
    | with_reducible exact Only.refl _ _
    | with_reducible assumption
    | with_reducible apply OnlyR.next
    | ((with_reducible apply ownWrite_only); (focus rfl))
    | ((with_reducible apply Only.step (policyWrite_only _ _ _)); focus rfl)
    | (intro b x hx; try beta_reduce)

theorem execPubkeyWrite_only (r : Requester) (slot : Nat) (data : Bytes) (s : State) :
    OnlyR [.doms, .time, .cause, .values, .counters, .events, .monitors, .sec, .que, .held, .hbr, .integ, .out] s (execPubkeyWrite r slot data s) := by
  unfold execPubkeyWrite
  repeat' first
    | with_reducible exact Only.refl _ _
    | with_reducible assumption
    | with_reducible apply OnlyR.next
    | ((with_reducible apply Only.step (keyWrite_only _ _ _ _)); focus rfl)
    | ((with_reducible apply ownWrite_only); (focus rfl))
    | (intro b x hx; try beta_reduce)

theorem pairWrite_only (r : Requester) (q : Nat) (b : Bytes) (s : State) :
    Only [.doms, .time, .cause, .counters, .events, .monitors, .que, .held, .hbr, .integ, .out] s (pairWrite r q b s).2 := by
  unfold pairWrite
  repeat' first
    | with_reducible exact Only.refl _ _
    | with_reducible assumption
    | ((with_reducible apply Only.ite2) <;> intro _)
    | ((with_reducible apply Only.step (disableRecord_only _ _ _)); focus rfl)
    | ((with_reducible apply Only.step (enableRecord_only _ _ _ _)); focus rfl)

theorem domainWrite_only (n : Nat) (b : Bytes) (s : State) :
    Only [.doms, .cause, .counters] s (domainWrite n b s).2 := by
  unfold domainWrite
  repeat' first
    | with_reducible exact Only.refl _ _
    | with_reducible assumption
    | ((with_reducible apply Only.step (domainRequest_only _ _ _)); focus rfl)
    | (split)

theorem configWrite_only (off : Nat) (b : Bytes) (s : State) :
    Only [.regs] s (configWrite off b s).2 := by
  unfold configWrite
  repeat' first
    | with_reducible exact Only.refl _ _
    | with_reducible assumption
    | ((with_reducible apply Only.ite2) <;> intro _)
    | (split)
    | ((with_reducible apply Only.upd); rotate_left; focus (intro p hp; cases p <;> first | rfl | exact ⟨rfl, rfl, rfl⟩ | exact absurd (by decide) hp))

theorem plainWrite_only (d : ObjDef) (arg : Nat) (b : Bytes) (s : State) :
    Only [.values] s (plainWrite d arg b s).2 := by
  unfold plainWrite
  repeat' first
    | with_reducible exact Only.refl _ _
    | with_reducible assumption
    | (extract_lets +onlyGivenNames x; unfold x; clear x)
    | ((with_reducible apply Only.ite2) <;> intro _)
    | (unfold modDict)
    | (split)
    | ((with_reducible apply Only.upd); rotate_left; focus (intro p hp; cases p <;> first | rfl | exact ⟨rfl, rfl, rfl⟩ | exact absurd (by decide) hp))

theorem effectWrite_only (r : Requester) (obj arg : Nat) (f : Bytes → State → Nat × State) (e : effectWrite r obj arg = some f)
    (b : Bytes) (s : State) : Only [.doms, .time, .regs, .cause, .values, .counters, .events, .monitors, .sec, .que, .held, .hbr, .integ, .strait, .out, .free] s (f b s).2 := by
  unfold effectWrite at e
  repeat' split at e
  all_goals first | (cases e; done) | (cases e; first
    | exact (commitWrite_only _ _).mono rfl
    | exact (clearWrite_only _ _).mono rfl
    | exact (domainWrite_only _ _ _).mono rfl
    | exact (pairWrite_only _ _ _ _).mono rfl
    | exact (configWrite_only _ _ _).mono rfl
    | exact (policyWrite_only _ _ _).mono rfl
    | exact (stageWrite_only _ _).mono rfl
    | exact (commitFirmware_only _ _).mono rfl
    | exact (resetWrite_only _ _).mono rfl
    | exact (keyWrite_only _ _ _ _).mono rfl)

theorem writeObject_only (r : Requester) (obj arg : Nat) (b : Bytes) (s : State) : Only [.doms, .time, .regs, .cause, .values, .counters, .events, .monitors, .sec, .que, .held, .hbr, .integ, .strait, .out, .free] s (writeObject r obj arg b s).2 := by
  unfold writeObject
  split
  · exact Only.refl _ _
  · split
    · exact Only.refl _ _
    · split
      · exact Only.refl _ _
      · split
        · exact effectWrite_only _ _ _ _ ‹_› _ _
        · exact (plainWrite_only _ _ _ _).mono rfl

theorem afterRead_only (obj : Nat) (arg : Nat) (ep : Option Nat) (s : State) :
    Only [.values, .events] s (afterRead obj arg ep s) := by
  unfold afterRead
  repeat' first
    | with_reducible exact Only.refl _ _
    | with_reducible assumption
    | ((with_reducible apply Only.ite) <;> intro _)
    | ((with_reducible apply Only.step (noteLogRead_only _ _ _)); focus rfl)

theorem execDictRead_only (a : Fin 4096) (hash : HostRead) (s : State) :
    OnlyR [.doms, .time, .cause, .values, .counters, .events, .monitors, .que, .held, .hbr, .integ, .out] s (execDictRead a hash s) := by
  unfold execDictRead
  repeat' first
    | with_reducible exact Only.refl _ _
    | with_reducible assumption
    | (extract_lets +onlyGivenNames x; refine (have hx : Only [.doms, .time, .cause, .values, .counters, .events, .monitors, .que, .held, .hbr, .integ, .out] s x := ?_; ?_); unfold x; clear x; rotate_left; clear_value x; rotate_right)
    | (extract_lets +onlyGivenNames x; unfold x; clear x)
    | ((with_reducible apply OnlyR.ite) <;> intro _)
    | with_reducible apply OnlyR.next
    | ((with_reducible apply Only.step (afterRead_only _ _ _ _)); focus rfl)
    | ((with_reducible apply Only.step (finish_only _ _ _)); focus rfl)
    | ((with_reducible apply Only.step (finishAt_only _ _ _ _)); focus rfl)
    | ((with_reducible apply Only.step (sendPort_only _ _ _)); focus rfl)
    | (split)

theorem execDictWrite_only (a : Fin 4096) (value : HostRead) (s : State) :
    OnlyR [.doms, .time, .regs, .cause, .values, .counters, .events, .monitors, .sec, .que, .held, .hbr, .integ, .strait, .out, .free] s (execDictWrite a value s) := by
  unfold execDictWrite
  repeat' first
    | with_reducible exact Only.refl _ _
    | with_reducible assumption
    | (extract_lets +onlyGivenNames x; unfold x; clear x)
    | ((with_reducible apply OnlyR.ite) <;> intro _)
    | with_reducible apply OnlyR.next
    | ((with_reducible apply Only.step (finish_only _ _ _)); focus rfl)
    | ((with_reducible apply Only.step (finishAt_only _ _ _ _)); focus rfl)
    | ((with_reducible apply Only.step (writeObject_only _ _ _ _ _)); focus rfl)
    | (split)

theorem execQueuePairEnable_only (w : QpWrite) (s : State) :
    OnlyR [.doms, .time, .regs, .cause, .values, .counters, .events, .monitors, .que, .held, .hbr, .integ, .out] s (execQueuePairEnable w s) := by
  unfold execQueuePairEnable
  repeat' first
    | with_reducible exact Only.refl _ _
    | with_reducible assumption
    | ((with_reducible apply OnlyR.ite) <;> intro _)
    | with_reducible apply OnlyR.next
    | ((with_reducible apply Only.step (admCtrlWrite_only _ _ _)); focus rfl)
    | ((with_reducible apply ownWrite_only); (focus rfl))
    | ((with_reducible apply Only.step (pairWrite_only _ _ _ _)); focus rfl)
    | (split)
    | (intro b x hx; try beta_reduce)

theorem execQueuePairDisable_only (w : QpWrite) (s : State) :
    OnlyR [.doms, .time, .regs, .cause, .values, .counters, .events, .monitors, .que, .held, .hbr, .integ, .out] s (execQueuePairDisable w s) := by
  unfold execQueuePairDisable
  repeat' first
    | with_reducible exact Only.refl _ _
    | with_reducible assumption
    | ((with_reducible apply OnlyR.ite) <;> intro _)
    | with_reducible apply OnlyR.next
    | ((with_reducible apply Only.step (admCtrlWrite_only _ _ _)); focus rfl)
    | ((with_reducible apply ownWrite_only); (focus rfl))
    | ((with_reducible apply Only.step (pairWrite_only _ _ _ _)); focus rfl)
    | (split)
    | (intro b x hx; try beta_reduce)

theorem execCfgCommit_only (r : Requester) (data : Bytes) (s : State) :
    OnlyR [.doms, .time, .regs, .cause, .values, .counters, .events, .monitors, .que, .held, .hbr, .integ, .strait, .out] s (execCfgCommit r data s) := by
  unfold execCfgCommit
  repeat' first
    | with_reducible exact Only.refl _ _
    | with_reducible assumption
    | with_reducible apply OnlyR.next
    | ((with_reducible apply Only.step (commitWrite_only _ _)); focus rfl)
    | ((with_reducible apply ownWrite_only); (focus rfl))
    | (intro b x hx; try beta_reduce)

theorem execMonClear_only (r : Requester) (data : Bytes) (s : State) :
    OnlyR [.doms, .time, .cause, .values, .counters, .events, .monitors, .que, .held, .hbr, .integ, .out] s (execMonClear r data s) := by
  unfold execMonClear
  repeat' first
    | with_reducible exact Only.refl _ _
    | with_reducible assumption
    | with_reducible apply OnlyR.next
    | ((with_reducible apply Only.step (clearWrite_only _ _)); focus rfl)
    | ((with_reducible apply ownWrite_only); (focus rfl))
    | (intro b x hx; try beta_reduce)

theorem mctpReadAnswer_only (ep : Nat) (tag : Byte) (st : Nat) (b : Bytes) (s : State) :
    Only [.out] s (mctpReadAnswer ep tag st b s) := by
  unfold mctpReadAnswer
  repeat' first
    | with_reducible exact Only.refl _ _
    | with_reducible assumption
    | ((with_reducible apply Only.step (send_only _ _)); focus rfl)

theorem mctpWriteAnswer_only (ep : Nat) (tag : Byte) (st : Nat) (s : State) :
    Only [.out] s (mctpWriteAnswer ep tag st s) := by
  unfold mctpWriteAnswer
  repeat' first
    | with_reducible exact Only.refl _ _
    | with_reducible assumption
    | ((with_reducible apply Only.step (send_only _ _)); focus rfl)

theorem dropSnapshot_only (ep : Nat) (s : State) :
    Only [.values] s (dropSnapshot ep s) := by
  unfold dropSnapshot
  repeat' first
    | with_reducible exact Only.refl _ _
    | with_reducible assumption
    | (unfold modDict)
    | ((with_reducible apply Only.upd); rotate_left; focus (intro p hp; cases p <;> first | rfl | exact ⟨rfl, rfl, rfl⟩ | exact absurd (by decide) hp))

theorem dropPieces_only (ep : Nat) (s : State) :
    Only [.values] s (dropPieces ep s) := by
  unfold dropPieces
  repeat' first
    | with_reducible exact Only.refl _ _
    | with_reducible assumption
    | (unfold modDict)
    | ((with_reducible apply Only.upd); rotate_left; focus (intro p hp; cases p <;> first | rfl | exact ⟨rfl, rfl, rfl⟩ | exact absurd (by decide) hp))

theorem mctpRead_only (ep : Nat) (tag : Byte) (flags : Byte) (obj : Nat) (arg : Nat) (offset : Nat) (len : Nat) (hash : Digest) (s : State) :
    Only [.values, .events, .out] s (mctpRead ep tag flags obj arg offset len hash s) := by
  unfold mctpRead
  repeat' first
    | with_reducible exact Only.refl _ _
    | with_reducible assumption
    | (extract_lets +onlyGivenNames x; refine (have hx : Only [.values, .events, .out] s x := ?_; ?_); unfold x; clear x; rotate_left; clear_value x; rotate_right)
    | (extract_lets +onlyGivenNames x; unfold x; clear x)
    | ((with_reducible apply Only.ite) <;> intro _)
    | ((with_reducible apply Only.step (afterRead_only _ _ _ _)); focus rfl)
    | ((with_reducible apply Only.step (dropSnapshot_only _ _)); focus rfl)
    | ((with_reducible apply Only.step (mctpReadAnswer_only _ _ _ _ _)); focus rfl)
    | (unfold modDict)
    | (split)
    | ((with_reducible apply Only.upd); rotate_left; focus (intro p hp; cases p <;> first | rfl | exact ⟨rfl, rfl, rfl⟩ | exact absurd (by decide) hp))

theorem execMctpDictRead_only (ep : Nat) (tag : Byte) (flags : Byte) (index : BitVec 16) (sub : Byte) (argument : BitVec 64) (offset : BitVec 32) (length : BitVec 16) (hash : Digest) (s : State) :
    OnlyR [.doms, .cause, .values, .counters, .events, .out] s (execMctpDictRead ep tag flags index sub argument offset length hash s) := by
  unfold execMctpDictRead
  repeat' first
    | with_reducible exact Only.refl _ _
    | with_reducible assumption
    | (extract_lets +onlyGivenNames x; unfold x; clear x)
    | ((with_reducible apply OnlyR.ite) <;> intro _)
    | with_reducible apply OnlyR.next
    | ((with_reducible apply Only.step (holdMessage_only _ _)); focus rfl)
    | ((with_reducible apply Only.step (mctpRead_only _ _ _ _ _ _ _ _ _)); focus rfl)
    | ((with_reducible apply Only.step (mctpReadAnswer_only _ _ _ _ _)); focus rfl)

theorem execMctpDictWrite_only (ep : Nat) (tag : Byte) (flags : Byte) (index : BitVec 16) (sub : Byte) (argument : BitVec 64) (offset : BitVec 32) (data : Bytes) (s : State) :
    OnlyR [.doms, .time, .regs, .cause, .values, .counters, .events, .monitors, .sec, .que, .held, .hbr, .integ, .strait, .out, .free] s (execMctpDictWrite ep tag flags index sub argument offset data s) := by
  unfold execMctpDictWrite
  repeat' first
    | with_reducible exact Only.refl _ _
    | with_reducible assumption
    | (extract_lets +onlyGivenNames x; unfold x; clear x)
    | ((with_reducible apply OnlyR.ite) <;> intro _)
    | with_reducible apply OnlyR.next
    | ((with_reducible apply Only.step (dropPieces_only _ _)); focus rfl)
    | ((with_reducible apply Only.step (holdMessage_only _ _)); focus rfl)
    | ((with_reducible apply Only.step (mctpWriteAnswer_only _ _ _ _)); focus rfl)
    | ((with_reducible apply Only.step (writeObject_only _ _ _ _ _)); focus rfl)
    | (unfold modDict)
    | (split)
    | ((with_reducible apply Only.upd); rotate_left; focus (intro p hp; cases p <;> first | rfl | exact ⟨rfl, rfl, rfl⟩ | exact absurd (by decide) hp))

theorem execMctpSnapshotExpiry_only (ep : Nat) (s : State) :
    OnlyR [.values] s (execMctpSnapshotExpiry ep s) := by
  unfold execMctpSnapshotExpiry
  repeat' first
    | with_reducible exact Only.refl _ _
    | with_reducible assumption
    | with_reducible apply OnlyR.next
    | ((with_reducible apply Only.step (dropSnapshot_only _ _)); focus rfl)

theorem execMctpWriteTimeout_only (ep : Nat) (s : State) :
    OnlyR [.values, .out] s (execMctpWriteTimeout ep s) := by
  unfold execMctpWriteTimeout
  repeat' first
    | with_reducible exact Only.refl _ _
    | with_reducible assumption
    | with_reducible apply OnlyR.next
    | ((with_reducible apply Only.step (dropPieces_only _ _)); focus rfl)
    | ((with_reducible apply Only.step (mctpWriteAnswer_only _ _ _ _)); focus rfl)
    | (split)

end Sys2Proof.Laws
end

