-- ==== Sys2Proof/Laws/FramePower.lean ====
section
/-! SUPPORT. For each function of power, the registers and the clock that answers a state: the parts of the state that it may change. -/

namespace Sys2Proof.Laws

open Sys2Proof.Machine

theorem linkAsleep_only (keep : Bool) (k : Nat) (st : LinkState) (s : State) :
    Only [.power, .doms, .gov, .time, .cause, .counters, .events, .monitors, .que, .held, .model, .flow, .hbr, .islands, .clusters, .integ, .strait, .out, .free] s (linkAsleep keep k st s) := by
  unfold linkAsleep
  repeat' first
    | with_reducible exact Only.refl _ _
    | with_reducible assumption
    | (extract_lets +onlyGivenNames x; refine (have hx : Only [.power, .doms, .gov, .time, .cause, .counters, .events, .monitors, .que, .held, .model, .flow, .hbr, .islands, .clusters, .integ, .strait, .out, .free] s x := ?_; ?_); unfold x; clear x; rotate_left; clear_value x; rotate_right)
    | (extract_lets +onlyGivenNames x; unfold x; clear x)
    | ((with_reducible apply Only.ite) <;> intro _)
    | ((with_reducible apply Only.step (gangLost_only _ _)); focus rfl)
    | ((with_reducible apply Only.step (modLink_only _ _ _)); focus rfl)
    | ((with_reducible apply Only.step (setLink_only _ _ _)); focus rfl)

theorem linkBoth_only (keep : Bool) (n : Nat) (st : LinkState) (s : State) :
    Only [.power, .doms, .gov, .time, .cause, .counters, .events, .monitors, .que, .held, .model, .flow, .hbr, .islands, .clusters, .integ, .strait, .out, .free] s (linkBoth keep n st s) := by
  unfold linkBoth
  repeat' first
    | with_reducible exact Only.refl _ _
    | with_reducible assumption
    | ((with_reducible apply Only.step (linkAsleep_only _ _ _ _)); focus rfl)

theorem linkAwake_only (k : Nat) (s : State) :
    Only [.cause, .strait, .out] s (linkAwake k s) := by
  unfold linkAwake
  repeat' first
    | with_reducible exact Only.refl _ _
    | with_reducible assumption
    | (extract_lets +onlyGivenNames x; refine (have hx : Only [.cause, .strait, .out] s x := ?_; ?_); unfold x; clear x; rotate_left; clear_value x; rotate_right)
    | (extract_lets +onlyGivenNames x; unfold x; clear x)
    | ((with_reducible apply Only.ite) <;> intro _)
    | ((with_reducible apply Only.step (enterExchange_only _ _)); focus rfl)
    | ((with_reducible apply Only.step (setLink_only _ _ _)); focus rfl)

theorem islandLost_only (i : Nat) (s : State) :
    Only [.banks, .islands] s (islandLost i s) := by
  unfold islandLost
  repeat' first
    | with_reducible exact Only.refl _ _
    | with_reducible assumption
    | (extract_lets +onlyGivenNames x; refine (have hx : Only [.banks, .islands] s x := ?_; ?_); unfold x; clear x; rotate_left; clear_value x; rotate_right)
    | ((with_reducible apply Only.step (modIsland_only _ _ _)); focus rfl)
    | (split)
    | ((with_reducible apply Only.upd); rotate_left; focus (intro p hp; cases p <;> first | rfl | exact ⟨rfl, rfl, rfl⟩ | exact absurd (by decide) hp))

theorem segLost_only (g : Nat) (s : State) :
    Only [.hbr] s (segLost g s) := by
  unfold segLost
  repeat' first
    | with_reducible exact Only.refl _ _
    | with_reducible assumption
    | ((with_reducible apply Only.upd); rotate_left; focus (intro p hp; cases p <;> first | rfl | exact ⟨rfl, rfl, rfl⟩ | exact absurd (by decide) hp))

theorem domLost_only (n : Nat) (s : State) :
    Only [.power, .doms, .gov, .time, .cause, .counters, .events, .monitors, .que, .held, .model, .flow, .hbr, .banks, .islands, .clusters, .integ, .strait, .out, .free] s (domLost n s) := by
  unfold domLost
  repeat' first
    | with_reducible exact Only.refl _ _
    | with_reducible assumption
    | ((with_reducible apply Only.step (islandLost_only _ _)); focus rfl)
    | ((with_reducible apply Only.step (linkBoth_only _ _ _ _)); focus rfl)
    | ((with_reducible apply Only.step (modCluster_only _ _ _)); focus rfl)
    | ((with_reducible apply Only.step (segLost_only _ _)); focus rfl)
    | (split)

theorem runQueued_only (n : Nat) (s : State) :
    Only [.doms, .cause] s (runQueued n s) := by
  unfold runQueued
  repeat' first
    | with_reducible exact Only.refl _ _
    | with_reducible assumption
    | ((with_reducible apply Only.step (modDom_only _ _ _)); focus rfl)
    | ((with_reducible apply Only.step (startRequest_only _ _ _)); focus rfl)
    | (split)

theorem coreRests_only (s : State) :
    Only [.power, .doms, .time, .regs, .values, .scheds] s (coreRests s) := by
  unfold coreRests
  repeat' first
    | with_reducible exact Only.refl _ _
    | with_reducible assumption
    | (extract_lets +onlyGivenNames x; refine (have hx : Only [.power, .doms, .time, .regs, .values, .scheds] s x := ?_; ?_); unfold x; clear x; rotate_left; clear_value x; rotate_right)
    | (extract_lets +onlyGivenNames x; unfold x; clear x)
    | ((with_reducible apply Only.step (modDom_only _ _ _)); focus rfl)
    | ((with_reducible apply Only.step (storePoweredTime_only _)); focus rfl)
    | ((with_reducible apply Only.upd); rotate_left; focus (intro p hp; cases p <;> first | rfl | exact ⟨rfl, rfl, rfl⟩ | exact absurd (by decide) hp))

theorem driftOverSleep_only (s : State) :
    Only [.time, .counters, .events, .held, .model, .banks, .scheds, .out] s (driftOverSleep s) := by
  unfold driftOverSleep
  repeat' first
    | with_reducible exact Only.refl _ _
    | with_reducible assumption
    | (extract_lets +onlyGivenNames x; refine (have hx : Only [.time, .counters, .events, .held, .model, .banks, .scheds, .out] s x := ?_; ?_); unfold x; clear x; rotate_left; clear_value x; rotate_right)
    | (extract_lets +onlyGivenNames x; unfold x; clear x)
    | ((with_reducible apply Only.step (modSched_only _ _ _)); focus rfl)
    | ((with_reducible apply Only.step (refreshDue_only _ _)); focus rfl)
    | ((with_reducible apply Only.foldl); intro x a hx; try beta_reduce)
    | (split)
    | ((with_reducible apply Only.upd); rotate_left; focus (intro p hp; cases p <;> first | rfl | exact ⟨rfl, rfl, rfl⟩ | exact absurd (by decide) hp))

theorem stateAfter_only {P : List Part} {s : State} {r : Res} (h : OnlyR P s r) : Only P s (stateAfter s r) := by
  unfold stateAfter
  split
  · exact h _ rfl
  · exact Only.refl _ _

theorem serveMessage_only (i : Instr) (s : State) :
    Only [.doms, .time, .regs, .cause, .values, .counters, .events, .monitors, .sec, .que, .held, .hbr, .integ, .strait, .out, .free] s (serveMessage i s) := by
  unfold serveMessage
  repeat' first
    | with_reducible exact Only.refl _ _
    | with_reducible assumption
    | ((with_reducible apply OnlyR.step (execCfgCommit_only _ _ _)); focus rfl)
    | ((with_reducible apply OnlyR.step (execChallenge_only _ _ _ _)); focus rfl)
    | ((with_reducible apply OnlyR.step (execChunkGet_only _ _ _)); focus rfl)
    | ((with_reducible apply OnlyR.step (execChunkSend_only _ _ _ _)); focus rfl)
    | ((with_reducible apply OnlyR.step (execDomainRequestOff_only _ _ _)); focus rfl)
    | ((with_reducible apply OnlyR.step (execDomainRequestOn_only _ _ _)); focus rfl)
    | ((with_reducible apply OnlyR.step (execDomainRequestRet_only _ _ _)); focus rfl)
    | ((with_reducible apply OnlyR.step (execGetCapabilities_only _ _ _)); focus rfl)
    | ((with_reducible apply OnlyR.step (execGetCertificate_only _ _ _ _ _ _)); focus rfl)
    | ((with_reducible apply OnlyR.step (execGetDigests_only _ _ _)); focus rfl)
    | ((with_reducible apply OnlyR.step (execGetMeasurements_only _ _ _ _ _ _)); focus rfl)
    | ((with_reducible apply OnlyR.step (execGetVersion_only _ _ _)); focus rfl)
    | ((with_reducible apply OnlyR.step (execMctpDictRead_only _ _ _ _ _ _ _ _ _ _)); focus rfl)
    | ((with_reducible apply OnlyR.step (execMctpDictWrite_only _ _ _ _ _ _ _ _ _)); focus rfl)
    | ((with_reducible apply OnlyR.step (execMonClear_only _ _ _)); focus rfl)
    | ((with_reducible apply OnlyR.step (execNegotiateAlgorithms_only _ _ _ _ _)); focus rfl)
    | ((with_reducible apply OnlyR.step (execPqSign_only _ _ _)); focus rfl)
    | ((with_reducible apply OnlyR.step (execPubkeyWrite_only _ _ _ _)); focus rfl)
    | ((with_reducible apply OnlyR.step (execQueuePairDisable_only _ _)); focus rfl)
    | ((with_reducible apply OnlyR.step (execQueuePairEnable_only _ _)); focus rfl)
    | ((with_reducible apply OnlyR.step (execSecFwCommit_only _ _ _)); focus rfl)
    | ((with_reducible apply OnlyR.step (execSecFwStage_only _ _ _)); focus rfl)
    | ((with_reducible apply OnlyR.step (execSecModuleReset_only _ _ _)); focus rfl)
    | ((with_reducible apply OnlyR.step (execSecPolicyWrite_only _ _ _)); focus rfl)
    | (with_reducible apply stateAfter_only)
    | (split)

theorem coreWakes_only (s : State) :
    Only [.doms, .time, .regs, .cause, .values, .counters, .events, .monitors, .sec, .que, .held, .model, .hbr, .banks, .scheds, .integ, .strait, .out, .free] s (coreWakes s) := by
  unfold coreWakes
  repeat' first
    | with_reducible exact Only.refl _ _
    | with_reducible assumption
    | (extract_lets +onlyGivenNames x; refine (have hx : Only [.doms, .time, .regs, .cause, .values, .counters, .events, .monitors, .sec, .que, .held, .model, .hbr, .banks, .scheds, .integ, .strait, .out, .free] s x := ?_; ?_); unfold x; clear x; rotate_left; clear_value x; rotate_right)
    | (extract_lets +onlyGivenNames x; unfold x; clear x)
    | ((with_reducible apply Only.step (driftOverSleep_only _)); focus rfl)
    | ((with_reducible apply Only.step (modDom_only _ _ _)); focus rfl)
    | ((with_reducible apply Only.step (raiseRefetch_only _)); focus rfl)
    | ((with_reducible apply Only.step (serveMessage_only _ _)); focus rfl)
    | ((with_reducible apply Only.step (serveWaiting_only _)); focus rfl)
    | ((with_reducible apply Only.foldl); intro x a hx; try beta_reduce)
    | (unfold modDict)
    | ((with_reducible apply Only.upd); rotate_left; focus (intro p hp; cases p <;> first | rfl | exact ⟨rfl, rfl, rfl⟩ | exact absurd (by decide) hp))

theorem islandReload_only (i : Nat) (s : State) :
    Only [.islands] s (islandReload i s) := by
  unfold islandReload
  repeat' first
    | with_reducible exact Only.refl _ _
    | with_reducible assumption
    | (extract_lets +onlyGivenNames x; unfold x; clear x)
    | ((with_reducible apply Only.ite) <;> intro _)
    | ((with_reducible apply Only.step (modIsland_only _ _ _)); focus rfl)
    | ((with_reducible apply Only.foldl); intro x a hx; try beta_reduce)

theorem firstWake_only (i : Nat) (s : State) :
    Only [.scheds] s (firstWake i s) := by
  unfold firstWake
  repeat' first
    | with_reducible exact Only.refl _ _
    | with_reducible assumption
    | (extract_lets +onlyGivenNames x; unfold x; clear x)
    | ((with_reducible apply Only.step (modSched_only _ _ _)); focus rfl)
    | ((with_reducible apply Only.foldl); intro x a hx; try beta_reduce)

theorem wakeEffects_only (n : Nat) (was : PState) (tests : List (Nat × KsResult)) (s : State) :
    Only [.power, .doms, .time, .regs, .cause, .values, .counters, .events, .monitors, .sec, .que, .held, .model, .flow, .hbr, .banks, .islands, .scheds, .integ, .strait, .out, .free] s (wakeEffects n was tests s) := by
  unfold wakeEffects
  repeat' first
    | with_reducible exact Only.refl _ _
    | with_reducible assumption
    | (extract_lets +onlyGivenNames x; refine (have hx : Only [.power, .doms, .time, .regs, .cause, .values, .counters, .events, .monitors, .sec, .que, .held, .model, .flow, .hbr, .banks, .islands, .scheds, .integ, .strait, .out, .free] s x := ?_; ?_); unfold x; clear x; rotate_left; clear_value x; rotate_right)
    | (extract_lets +onlyGivenNames x; unfold x; clear x)
    | ((with_reducible apply Only.ite) <;> intro _)
    | ((with_reducible apply Only.step (coreWakes_only _)); focus rfl)
    | ((with_reducible apply Only.step (firstWake_only _ _)); focus rfl)
    | ((with_reducible apply Only.step (fullTest_only _ _ _)); focus rfl)
    | ((with_reducible apply Only.step (islandReload_only _ _)); focus rfl)
    | ((with_reducible apply Only.step (linkAwake_only _ _)); focus rfl)
    | ((with_reducible apply Only.step (poolReturn_only _ _ _)); focus rfl)
    | ((with_reducible apply Only.step (segLost_only _ _)); focus rfl)
    | ((with_reducible apply Only.step (serveWaiting_only _)); focus rfl)
    | ((with_reducible apply Only.foldl); intro x a hx; try beta_reduce)
    | (split)

theorem execDomainWakeDone_only (dom : Nat) (tests : List (Nat × KsResult)) (s : State) :
    OnlyR [.power, .doms, .time, .regs, .cause, .values, .counters, .events, .monitors, .sec, .que, .held, .model, .flow, .hbr, .banks, .islands, .scheds, .integ, .strait, .out, .free] s (execDomainWakeDone dom tests s) := by
  unfold execDomainWakeDone
  repeat' first
    | with_reducible exact Only.refl _ _
    | with_reducible assumption
    | with_reducible exact OnlyR.fault
    | with_reducible exact OnlyR.refused
    | (extract_lets +onlyGivenNames x; refine (have hx : Only [.power, .doms, .time, .regs, .cause, .values, .counters, .events, .monitors, .sec, .que, .held, .model, .flow, .hbr, .banks, .islands, .scheds, .integ, .strait, .out, .free] s x := ?_; ?_); unfold x; clear x; rotate_left; clear_value x; rotate_right)
    | (extract_lets +onlyGivenNames x; unfold x; clear x)
    | ((with_reducible apply OnlyR.ite) <;> intro _)
    | with_reducible apply OnlyR.next
    | ((with_reducible apply Only.step (cause_only _ _)); focus rfl)
    | ((with_reducible apply Only.step (modDom_only _ _ _)); focus rfl)
    | ((with_reducible apply Only.step (runQueued_only _ _)); focus rfl)
    | ((with_reducible apply Only.step (wakeEffects_only _ _ _ _)); focus rfl)

theorem execDomainDownDone_only (dom : Nat) (s : State) :
    OnlyR [.power, .doms, .gov, .time, .regs, .cause, .values, .counters, .events, .monitors, .que, .held, .model, .flow, .hbr, .banks, .islands, .clusters, .scheds, .integ, .strait, .out, .free] s (execDomainDownDone dom s) := by
  unfold execDomainDownDone
  repeat' first
    | with_reducible exact Only.refl _ _
    | with_reducible assumption
    | with_reducible exact OnlyR.fault
    | with_reducible exact OnlyR.refused
    | (extract_lets +onlyGivenNames x; refine (have hx : Only [.power, .doms, .gov, .time, .regs, .cause, .values, .counters, .events, .monitors, .que, .held, .model, .flow, .hbr, .banks, .islands, .clusters, .scheds, .integ, .strait, .out, .free] s x := ?_; ?_); unfold x; clear x; rotate_left; clear_value x; rotate_right)
    | ((with_reducible apply OnlyR.ite) <;> intro _)
    | with_reducible apply OnlyR.next
    | ((with_reducible apply Only.step (cause_only _ _)); focus rfl)
    | ((with_reducible apply Only.step (coreRests_only _)); focus rfl)
    | ((with_reducible apply Only.step (domLost_only _ _)); focus rfl)
    | ((with_reducible apply Only.step (linkBoth_only _ _ _ _)); focus rfl)
    | ((with_reducible apply Only.step (modDom_only _ _ _)); focus rfl)
    | ((with_reducible apply Only.step (runQueued_only _ _)); focus rfl)
    | (split)

theorem segFailed_only (g : Nat) (s : State) :
    Only [.doms, .time, .cause, .counters, .events, .monitors, .que, .held, .model, .flow, .hbr, .segs, .integ, .out] s (segFailed g s) := by
  unfold segFailed
  repeat' first
    | with_reducible exact Only.refl _ _
    | with_reducible assumption
    | (extract_lets +onlyGivenNames x; refine (have hx : Only [.doms, .time, .cause, .counters, .events, .monitors, .que, .held, .model, .flow, .hbr, .segs, .integ, .out] s x := ?_; ?_); unfold x; clear x; rotate_left; clear_value x; rotate_right)
    | (extract_lets +onlyGivenNames x; unfold x; clear x)
    | ((with_reducible apply Only.step (dropCopies_only _ _)); focus rfl)
    | ((with_reducible apply Only.step (dropFree_only _ _)); focus rfl)
    | ((with_reducible apply Only.step (finishSt_only _ _ _)); focus rfl)
    | ((with_reducible apply Only.step (modSeg_only _ _ _)); focus rfl)
    | (split)
    | ((with_reducible apply Only.upd); rotate_left; focus (intro p hp; cases p <;> first | rfl | exact ⟨rfl, rfl, rfl⟩ | exact absurd (by decide) hp))

theorem wakeFailed_only (n : Nat) (s : State) :
    Only [.power, .doms, .gov, .time, .regs, .cause, .counters, .events, .monitors, .portU, .portD, .que, .held, .model, .flow, .hbr, .segs, .banks, .islands, .clusters, .awl, .scheds, .integ, .strait, .out, .free] s (wakeFailed n s) := by
  unfold wakeFailed
  repeat' first
    | with_reducible exact Only.refl _ _
    | with_reducible assumption
    | (extract_lets +onlyGivenNames x; unfold x; clear x)
    | ((with_reducible apply Only.ite) <;> intro _)
    | ((with_reducible apply Only.step (linkBoth_only _ _ _ _)); focus rfl)
    | ((with_reducible apply Only.step (moduleFault_only _)); focus rfl)
    | ((with_reducible apply Only.step (portLinkDown_only _ _)); focus rfl)
    | ((with_reducible apply Only.step (raise_only _ _ _ _)); focus rfl)
    | ((with_reducible apply Only.step (retireCluster_only _ _)); focus rfl)
    | ((with_reducible apply Only.step (segFailed_only _ _)); focus rfl)
    | ((with_reducible apply Only.step (serveWaiting_only _)); focus rfl)
    | ((with_reducible apply Only.step (setHistory_only _ _ _ _)); focus rfl)
    | ((with_reducible apply Only.step (setLink_only _ _ _)); focus rfl)
    | (split)

theorem execWakeStepTimeout_only (dom : Nat) (s : State) :
    OnlyR [.power, .doms, .gov, .time, .regs, .cause, .counters, .events, .monitors, .portU, .portD, .que, .held, .model, .flow, .hbr, .segs, .banks, .islands, .clusters, .awl, .scheds, .integ, .strait, .out, .free] s (execWakeStepTimeout dom s) := by
  unfold execWakeStepTimeout
  repeat' first
    | with_reducible exact Only.refl _ _
    | with_reducible assumption
    | with_reducible exact OnlyR.fault
    | with_reducible exact OnlyR.refused
    | (extract_lets +onlyGivenNames x; refine (have hx : Only [.power, .doms, .gov, .time, .regs, .cause, .counters, .events, .monitors, .portU, .portD, .que, .held, .model, .flow, .hbr, .segs, .banks, .islands, .clusters, .awl, .scheds, .integ, .strait, .out, .free] s x := ?_; ?_); unfold x; clear x; rotate_left; clear_value x; rotate_right)
    | (extract_lets +onlyGivenNames x; unfold x; clear x)
    | ((with_reducible apply Only.ite) <;> intro _)
    | ((with_reducible apply OnlyR.ite) <;> intro _)
    | with_reducible apply OnlyR.next
    | ((with_reducible apply Only.step (bump_only _ _)); focus rfl)
    | ((with_reducible apply Only.step (cause_only _ _)); focus rfl)
    | ((with_reducible apply Only.step (domLost_only _ _)); focus rfl)
    | ((with_reducible apply Only.step (modDom_only _ _ _)); focus rfl)
    | ((with_reducible apply Only.step (raise_only _ _ _ _)); focus rfl)
    | ((with_reducible apply Only.step (runQueued_only _ _)); focus rfl)
    | ((with_reducible apply Only.step (wakeFailed_only _ _)); focus rfl)

theorem execPowerSample_only (milliwatts : Nat) (s : State) :
    OnlyR [.power] s (execPowerSample milliwatts s) := by
  unfold execPowerSample
  repeat' first
    | with_reducible exact Only.refl _ _
    | with_reducible assumption
    | ((with_reducible apply OnlyR.ite) <;> intro _)
    | with_reducible apply OnlyR.next
    | (split)
    | ((with_reducible apply Only.upd); rotate_left; focus (intro p hp; cases p <;> first | rfl | exact ⟨rfl, rfl, rfl⟩ | exact absurd (by decide) hp))

theorem execGovernorPeriodEnd_only (s : State) :
    OnlyR [.power, .counters, .events, .held, .out] s (execGovernorPeriodEnd s) := by
  unfold execGovernorPeriodEnd
  repeat' first
    | with_reducible exact Only.refl _ _
    | with_reducible assumption
    | (extract_lets +onlyGivenNames x; refine (have hx : Only [.power, .counters, .events, .held, .out] s x := ?_; ?_); unfold x; clear x; rotate_left; clear_value x; rotate_right)
    | (extract_lets +onlyGivenNames x; unfold x; clear x)
    | ((with_reducible apply Only.ite) <;> intro _)
    | ((with_reducible apply OnlyR.ite) <;> intro _)
    | with_reducible apply OnlyR.next
    | ((with_reducible apply Only.step (bump_only _ _)); focus rfl)
    | ((with_reducible apply Only.step (bumpBy_only _ _ _)); focus rfl)
    | ((with_reducible apply Only.step (raise_only _ _ _ _)); focus rfl)
    | (split)
    | ((with_reducible apply Only.upd); rotate_left; focus (intro p hp; cases p <;> first | rfl | exact ⟨rfl, rfl, rfl⟩ | exact absurd (by decide) hp))

theorem islandHeat_only (i : Nat) (v : Nat) (s : State) :
    Only [.counters, .events, .held, .islands, .out] s (islandHeat i v s) := by
  unfold islandHeat
  repeat' first
    | with_reducible exact Only.refl _ _
    | with_reducible assumption
    | (extract_lets +onlyGivenNames x; unfold x; clear x)
    | ((with_reducible apply Only.ite) <;> intro _)
    | ((with_reducible apply Only.step (bump_only _ _)); focus rfl)
    | ((with_reducible apply Only.step (modIsland_only _ _ _)); focus rfl)
    | ((with_reducible apply Only.step (raise_only _ _ _ _)); focus rfl)

theorem thermPin_only (s : State) :
    Only [.power] s (thermPin s) := by
  unfold thermPin
  repeat' first
    | with_reducible exact Only.refl _ _
    | with_reducible assumption
    | (extract_lets +onlyGivenNames x; unfold x; clear x)
    | (split)
    | ((with_reducible apply Only.upd); rotate_left; focus (intro p hp; cases p <;> first | rfl | exact ⟨rfl, rfl, rfl⟩ | exact absurd (by decide) hp))

theorem logicHeat_only (s : State) :
    Only [.power, .counters] s (logicHeat s) := by
  unfold logicHeat
  repeat' first
    | with_reducible exact Only.refl _ _
    | with_reducible assumption
    | (extract_lets +onlyGivenNames x; unfold x; clear x)
    | ((with_reducible apply Only.ite) <;> intro _)
    | ((with_reducible apply Only.step (bump_only _ _)); focus rfl)
    | (split)
    | ((with_reducible apply Only.upd); rotate_left; focus (intro p hp; cases p <;> first | rfl | exact ⟨rfl, rfl, rfl⟩ | exact absurd (by decide) hp))

theorem execTjSample_only (key : Nat) (quarterDegrees : Int) (s : State) :
    OnlyR [.power, .doms, .gov, .time, .regs, .cause, .values, .counters, .events, .monitors, .sec, .portU, .portD, .que, .held, .model, .flow, .hbr, .segs, .banks, .islands, .clusters, .awl, .scheds, .integ, .strait, .out] s (execTjSample key quarterDegrees s) := by
  unfold execTjSample
  repeat' first
    | with_reducible exact Only.refl _ _
    | with_reducible assumption
    | with_reducible exact OnlyR.fault
    | with_reducible exact OnlyR.refused
    | (extract_lets +onlyGivenNames x; refine (have hx : Only [.power, .doms, .gov, .time, .regs, .cause, .values, .counters, .events, .monitors, .sec, .portU, .portD, .que, .held, .model, .flow, .hbr, .segs, .banks, .islands, .clusters, .awl, .scheds, .integ, .strait, .out] s x := ?_; ?_); unfold x; clear x; rotate_left; clear_value x; rotate_right)
    | (extract_lets +onlyGivenNames x; unfold x; clear x)
    | ((with_reducible apply Only.ite) <;> intro _)
    | ((with_reducible apply OnlyR.ite) <;> intro _)
    | with_reducible apply OnlyR.next
    | ((with_reducible apply Only.step (islandHeat_only _ _ _)); focus rfl)
    | ((with_reducible apply Only.step (logicHeat_only _)); focus rfl)
    | ((with_reducible apply Only.step (sample_only _ _ _ _)); focus rfl)
    | ((with_reducible apply Only.step (startReset_only _ _)); focus rfl)
    | ((with_reducible apply Only.step (thermPin_only _)); focus rfl)
    | (split)
    | ((with_reducible apply Only.upd); rotate_left; focus (intro p hp; cases p <;> first | rfl | exact ⟨rfl, rfl, rfl⟩ | exact absurd (by decide) hp))

theorem execVcoreSample_only (millivolts : BitVec 32) (s : State) :
    OnlyR [.monitors] s (execVcoreSample millivolts s) := by
  unfold execVcoreSample
  repeat' first
    | with_reducible exact Only.refl _ _
    | with_reducible assumption
    | ((with_reducible apply OnlyR.ite) <;> intro _)
    | with_reducible apply OnlyR.next
    | ((with_reducible apply Only.step (sample_only _ _ _ _)); focus rfl)

theorem execOccupancySample_only (s : State) :
    OnlyR [.monitors] s (execOccupancySample s) := by
  unfold execOccupancySample
  repeat' first
    | with_reducible exact Only.refl _ _
    | with_reducible assumption
    | ((with_reducible apply OnlyR.ite) <;> intro _)
    | with_reducible apply OnlyR.next
    | ((with_reducible apply Only.step (sample_only _ _ _ _)); focus rfl)

theorem execVcoreWarningTrip_only (s : State) :
    OnlyR [.power, .counters, .awl, .scheds] s (execVcoreWarningTrip s) := by
  unfold execVcoreWarningTrip
  repeat' first
    | with_reducible exact Only.refl _ _
    | with_reducible assumption
    | (extract_lets +onlyGivenNames x; refine (have hx : Only [.power, .counters, .awl, .scheds] s x := ?_; ?_); unfold x; clear x; rotate_left; clear_value x; rotate_right)
    | (extract_lets +onlyGivenNames x; unfold x; clear x)
    | ((with_reducible apply Only.ite) <;> intro _)
    | ((with_reducible apply OnlyR.ite) <;> intro _)
    | with_reducible apply OnlyR.next
    | ((with_reducible apply Only.step (bump_only _ _)); focus rfl)
    | (split)
    | ((with_reducible apply Only.upd); rotate_left; focus (intro p hp; cases p <;> first | rfl | exact ⟨rfl, rfl, rfl⟩ | exact absurd (by decide) hp))

theorem execVcoreRecover_only (s : State) :
    OnlyR [.power, .counters, .events, .held, .out] s (execVcoreRecover s) := by
  unfold execVcoreRecover
  repeat' first
    | with_reducible exact Only.refl _ _
    | with_reducible assumption
    | (extract_lets +onlyGivenNames x; refine (have hx : Only [.power, .counters, .events, .held, .out] s x := ?_; ?_); unfold x; clear x; rotate_left; clear_value x; rotate_right)
    | (extract_lets +onlyGivenNames x; unfold x; clear x)
    | ((with_reducible apply Only.ite) <;> intro _)
    | ((with_reducible apply OnlyR.ite) <;> intro _)
    | with_reducible apply OnlyR.next
    | ((with_reducible apply Only.step (raise_only _ _ _ _)); focus rfl)
    | (split)
    | ((with_reducible apply Only.upd); rotate_left; focus (intro p hp; cases p <;> first | rfl | exact ⟨rfl, rfl, rfl⟩ | exact absurd (by decide) hp))

theorem execDipHoldEnd_only (checks : List (Nat × Disturb)) (s : State) :
    OnlyR [.power, .scheds] s (execDipHoldEnd checks s) := by
  unfold execDipHoldEnd
  repeat' first
    | with_reducible exact Only.refl _ _
    | with_reducible assumption
    | (extract_lets +onlyGivenNames x; refine (have hx : Only [.power, .scheds] s x := ?_; ?_); unfold x; clear x; rotate_left; clear_value x; rotate_right)
    | (extract_lets +onlyGivenNames x; unfold x; clear x)
    | ((with_reducible apply OnlyR.ite) <;> intro _)
    | with_reducible apply OnlyR.next
    | ((with_reducible apply Only.step (modSched_only _ _ _)); focus rfl)
    | ((with_reducible apply Only.foldl); intro x a hx; try beta_reduce)
    | (split)
    | ((with_reducible apply Only.upd); rotate_left; focus (intro p hp; cases p <;> first | rfl | exact ⟨rfl, rfl, rfl⟩ | exact absurd (by decide) hp))

theorem execDipResume_only (s : State) :
    OnlyR [.power, .awl] s (execDipResume s) := by
  unfold execDipResume
  repeat' first
    | with_reducible exact Only.refl _ _
    | with_reducible assumption
    | ((with_reducible apply OnlyR.ite) <;> intro _)
    | with_reducible apply OnlyR.next
    | (split)
    | ((with_reducible apply Only.upd); rotate_left; focus (intro p hp; cases p <;> first | rfl | exact ⟨rfl, rfl, rfl⟩ | exact absurd (by decide) hp))

theorem execTideSourceChange_only (present : Bool) (s : State) :
    OnlyR [.power, .doms, .gov, .time, .cause, .counters, .events, .monitors, .que, .held, .model, .flow, .hbr, .islands, .clusters, .integ, .strait, .out, .free] s (execTideSourceChange present s) := by
  unfold execTideSourceChange
  repeat' first
    | with_reducible exact Only.refl _ _
    | with_reducible assumption
    | (extract_lets +onlyGivenNames x; refine (have hx : Only [.power, .doms, .gov, .time, .cause, .counters, .events, .monitors, .que, .held, .model, .flow, .hbr, .islands, .clusters, .integ, .strait, .out, .free] s x := ?_; ?_); unfold x; clear x; rotate_left; clear_value x; rotate_right)
    | (extract_lets +onlyGivenNames x; unfold x; clear x)
    | ((with_reducible apply Only.ite) <;> intro _)
    | ((with_reducible apply OnlyR.ite) <;> intro _)
    | with_reducible apply OnlyR.next
    | ((with_reducible apply Only.step (linkBoth_only _ _ _ _)); focus rfl)
    | ((with_reducible apply Only.step (raise_only _ _ _ _)); focus rfl)
    | ((with_reducible apply Only.step (setLink_only _ _ _)); focus rfl)
    | ((with_reducible apply Only.step (wakeLinks_only _)); focus rfl)
    | ((with_reducible apply Only.foldl); intro x a hx; try beta_reduce)
    | (split)
    | ((with_reducible apply Only.upd); rotate_left; focus (intro p hp; cases p <;> first | rfl | exact ⟨rfl, rfl, rfl⟩ | exact absurd (by decide) hp))

theorem setSram_only (word : Nat) (v : BitVec 64) (dev : BitVec 8) (s : State) :
    Only [.integ] s (setSram word v dev s) := by
  unfold setSram
  repeat' first
    | with_reducible exact Only.refl _ _
    | with_reducible assumption
    | (split)
    | ((with_reducible apply Only.upd); rotate_left; focus (intro p hp; cases p <;> first | rfl | exact ⟨rfl, rfl, rfl⟩ | exact absurd (by decide) hp))

theorem coreSramRead_only (word : Nat) (bits : List (Fin 72)) (confined : Bool) (s : State) :
    Only [.power, .cause, .counters, .events, .held, .integ, .out] s (coreSramRead word bits confined s) := by
  unfold coreSramRead
  repeat' first
    | with_reducible exact Only.refl _ _
    | with_reducible assumption
    | (extract_lets +onlyGivenNames x; refine (have hx : Only [.power, .cause, .counters, .events, .held, .integ, .out] s x := ?_; ?_); unfold x; clear x; rotate_left; clear_value x; rotate_right)
    | (extract_lets +onlyGivenNames x; unfold x; clear x)
    | ((with_reducible apply Only.ite) <;> intro _)
    | ((with_reducible apply Only.step (correctedError_only _ _ _ _ _)); focus rfl)
    | ((with_reducible apply Only.step (moduleFault_only _)); focus rfl)
    | ((with_reducible apply Only.step (setSram_only _ _ _ _)); focus rfl)
    | ((with_reducible apply Only.step (uncorrectable_only _ _ _)); focus rfl)
    | (split)

theorem execCoreWatchdogExpiry_only (_core : Fin 8) (why : CoreFault) (s : State) :
    OnlyR [.power, .cause, .counters, .events, .held, .integ, .out] s (execCoreWatchdogExpiry _core why s) := by
  unfold execCoreWatchdogExpiry
  repeat' first
    | with_reducible exact Only.refl _ _
    | with_reducible assumption
    | with_reducible exact OnlyR.fault
    | with_reducible exact OnlyR.refused
    | ((with_reducible apply OnlyR.ite) <;> intro _)
    | with_reducible apply OnlyR.next
    | ((with_reducible apply Only.step (coreSramRead_only _ _ _ _)); focus rfl)
    | ((with_reducible apply Only.step (moduleFault_only _)); focus rfl)
    | (split)

theorem badAccess_only (i : Initiator) (s : State) :
    Only [.out] s (badAccess i s) := by
  unfold badAccess
  repeat' first
    | with_reducible exact Only.refl _ _
    | with_reducible assumption
    | ((with_reducible apply Only.step (send_only _ _)); focus rfl)
    | (split)

theorem setShadow_only (i : Initiator) (o : Nat) (v : BitVec 32) (s : State) :
    Only [.regs] s (setShadow i o v s) := by
  unfold setShadow
  repeat' first
    | with_reducible exact Only.refl _ _
    | with_reducible assumption
    | ((with_reducible apply Only.upd); rotate_left; focus (intro p hp; cases p <;> first | rfl | exact ⟨rfl, rfl, rfl⟩ | exact absurd (by decide) hp))

theorem domainOff_only (s : State) :
    Only [.regs] s (domainOff s) := by
  unfold domainOff
  repeat' first
    | with_reducible exact Only.refl _ _
    | with_reducible assumption
    | ((with_reducible apply Only.upd); rotate_left; focus (intro p hp; cases p <;> first | rfl | exact ⟨rfl, rfl, rfl⟩ | exact absurd (by decide) hp))

theorem regRead_only (i : Initiator) (o : Nat) (s : State) :
    Only [.regs, .awl, .out] s (regRead i o s) := by
  unfold regRead
  repeat' first
    | with_reducible exact Only.refl _ _
    | with_reducible assumption
    | (extract_lets +onlyGivenNames x; unfold x; clear x)
    | ((with_reducible apply Only.ite) <;> intro _)
    | ((with_reducible apply Only.step (domainOff_only _)); focus rfl)
    | ((with_reducible apply Only.step (popCpl_only _ _ _)); focus rfl)
    | ((with_reducible apply Only.step (send_only _ _)); focus rfl)
    | ((with_reducible apply Only.step (setShadow_only _ _ _ _)); focus rfl)
    | (split)

theorem rangeDrop_only (s : State) :
    Only [.regs] s (rangeDrop s) := by
  unfold rangeDrop
  repeat' first
    | with_reducible exact Only.refl _ _
    | with_reducible assumption
    | ((with_reducible apply Only.upd); rotate_left; focus (intro p hp; cases p <;> first | rfl | exact ⟨rfl, rfl, rfl⟩ | exact absurd (by decide) hp))

theorem capWrite_only (v : BitVec 32) (s : State) :
    Only [.regs] s (capWrite v s) := by
  unfold capWrite
  repeat' first
    | with_reducible exact Only.refl _ _
    | with_reducible assumption
    | (extract_lets +onlyGivenNames x; refine (have hx : Only [.regs] s x := ?_; ?_); unfold x; clear x; rotate_left; clear_value x; rotate_right)
    | (extract_lets +onlyGivenNames x; unfold x; clear x)
    | ((with_reducible apply Only.ite) <;> intro _)
    | ((with_reducible apply Only.step (rangeDrop_only _)); focus rfl)
    | (split)
    | ((with_reducible apply Only.upd); rotate_left; focus (intro p hp; cases p <;> first | rfl | exact ⟨rfl, rfl, rfl⟩ | exact absurd (by decide) hp))

theorem splitWrite_only (v : BitVec 32) (s : State) :
    Only [.regs] s (splitWrite v s) := by
  unfold splitWrite
  repeat' first
    | with_reducible exact Only.refl _ _
    | with_reducible assumption
    | (extract_lets +onlyGivenNames x; refine (have hx : Only [.regs] s x := ?_; ?_); unfold x; clear x; rotate_left; clear_value x; rotate_right)
    | (extract_lets +onlyGivenNames x; unfold x; clear x)
    | ((with_reducible apply Only.ite) <;> intro _)
    | ((with_reducible apply Only.step (rangeDrop_only _)); focus rfl)
    | (split)
    | ((with_reducible apply Only.upd); rotate_left; focus (intro p hp; cases p <;> first | rfl | exact ⟨rfl, rfl, rfl⟩ | exact absurd (by decide) hp))

theorem holdWrite_only (v : BitVec 32) (s : State) :
    Only [.regs] s (holdWrite v s) := by
  unfold holdWrite
  repeat' first
    | with_reducible exact Only.refl _ _
    | with_reducible assumption
    | (extract_lets +onlyGivenNames x; refine (have hx : Only [.regs] s x := ?_; ?_); unfold x; clear x; rotate_left; clear_value x; rotate_right)
    | (extract_lets +onlyGivenNames x; unfold x; clear x)
    | ((with_reducible apply Only.ite) <;> intro _)
    | (split)
    | ((with_reducible apply Only.upd); rotate_left; focus (intro p hp; cases p <;> first | rfl | exact ⟨rfl, rfl, rfl⟩ | exact absurd (by decide) hp))

theorem crcRefWrite_only (v : BitVec 32) (s : State) :
    Only [.regs] s (crcRefWrite v s) := by
  unfold crcRefWrite
  repeat' first
    | with_reducible exact Only.refl _ _
    | with_reducible assumption
    | ((with_reducible apply Only.step (dirtyPass_only _)); focus rfl)
    | ((with_reducible apply Only.upd); rotate_left; focus (intro p hp; cases p <;> first | rfl | exact ⟨rfl, rfl, rfl⟩ | exact absurd (by decide) hp))

theorem statusClear_only (v : BitVec 32) (s : State) :
    Only [.regs] s (statusClear v s) := by
  unfold statusClear
  repeat' first
    | with_reducible exact Only.refl _ _
    | with_reducible assumption
    | ((with_reducible apply Only.upd); rotate_left; focus (intro p hp; cases p <;> first | rfl | exact ⟨rfl, rfl, rfl⟩ | exact absurd (by decide) hp))

theorem causeClear_only (v : BitVec 32) (s : State) :
    Only [.cause] s (causeClear v s) := by
  unfold causeClear
  repeat' first
    | with_reducible exact Only.refl _ _
    | with_reducible assumption
    | ((with_reducible apply Only.upd); rotate_left; focus (intro p hp; cases p <;> first | rfl | exact ⟨rfl, rfl, rfl⟩ | exact absurd (by decide) hp))

theorem alarmReached_only (s : State) :
    Only [.doms, .regs, .cause, .counters] s (alarmReached s) := by
  unfold alarmReached
  repeat' first
    | with_reducible exact Only.refl _ _
    | with_reducible assumption
    | (extract_lets +onlyGivenNames x; refine (have hx : Only [.doms, .regs, .cause, .counters] s x := ?_; ?_); unfold x; clear x; rotate_left; clear_value x; rotate_right)
    | (extract_lets +onlyGivenNames x; unfold x; clear x)
    | ((with_reducible apply Only.ite) <;> intro _)
    | ((with_reducible apply Only.step (cause_only _ _)); focus rfl)
    | ((with_reducible apply Only.step (wantOn_only _ _)); focus rfl)
    | (split)
    | ((with_reducible apply Only.upd); rotate_left; focus (intro p hp; cases p <;> first | rfl | exact ⟨rfl, rfl, rfl⟩ | exact absurd (by decide) hp))

theorem alarmWrite_only (v : BitVec 64) (s : State) :
    Only [.doms, .regs, .cause, .counters] s (alarmWrite v s) := by
  unfold alarmWrite
  repeat' first
    | with_reducible exact Only.refl _ _
    | with_reducible assumption
    | (extract_lets +onlyGivenNames x; refine (have hx : Only [.doms, .regs, .cause, .counters] s x := ?_; ?_); unfold x; clear x; rotate_left; clear_value x; rotate_right)
    | (extract_lets +onlyGivenNames x; unfold x; clear x)
    | ((with_reducible apply Only.ite) <;> intro _)
    | ((with_reducible apply Only.step (alarmReached_only _)); focus rfl)
    | (split)
    | ((with_reducible apply Only.upd); rotate_left; focus (intro p hp; cases p <;> first | rfl | exact ⟨rfl, rfl, rfl⟩ | exact absurd (by decide) hp))

theorem domReqWrite_only (v : BitVec 32) (s : State) :
    Only [.doms, .cause, .counters] s (domReqWrite v s) := by
  unfold domReqWrite
  repeat' first
    | with_reducible exact Only.refl _ _
    | with_reducible assumption
    | (extract_lets +onlyGivenNames x; unfold x; clear x)
    | ((with_reducible apply Only.ite) <;> intro _)
    | ((with_reducible apply Only.step (domainRequest_only _ _ _)); focus rfl)
    | (split)

theorem awlCtrlWrite_only (v : BitVec 32) (s : State) :
    Only [.cause, .awl] s (awlCtrlWrite v s) := by
  unfold awlCtrlWrite
  repeat' first
    | with_reducible exact Only.refl _ _
    | with_reducible assumption
    | (extract_lets +onlyGivenNames x; refine (have hx : Only [.cause, .awl] s x := ?_; ?_); unfold x; clear x; rotate_left; clear_value x; rotate_right)
    | (extract_lets +onlyGivenNames x; unfold x; clear x)
    | ((with_reducible apply Only.ite) <;> intro _)
    | ((with_reducible apply Only.step (cause_only _ _)); focus rfl)
    | (split)
    | ((with_reducible apply Only.upd); rotate_left; focus (intro p hp; cases p <;> first | rfl | exact ⟨rfl, rfl, rfl⟩ | exact absurd (by decide) hp))

theorem awlRegWrite_only (o : Nat) (v : BitVec 32) (s : State) : Only [.counters, .awl] s (awlRegWrite o v s) := by
  unfold awlRegWrite
  dsimp only
  split
  · exact (bankSelWrite_only _ _ _).mono rfl
  · exact (modChan_only _ _ _).mono rfl
  · exact (modChan_only _ _ _).mono rfl
  · exact Only.refl _ _

theorem pairStore_only (o : Nat) (v : BitVec 64) (s : State) :
    Only [.doms, .time, .regs, .cause, .counters, .awl] s (pairStore o v s) := by
  unfold pairStore
  repeat' first
    | with_reducible exact Only.refl _ _
    | with_reducible assumption
    | (extract_lets +onlyGivenNames x; unfold x; clear x)
    | ((with_reducible apply Only.ite) <;> intro _)
    | ((with_reducible apply Only.step (alarmWrite_only _ _)); focus rfl)
    | ((with_reducible apply Only.step (dirtyPass_only _)); focus rfl)
    | ((with_reducible apply Only.step (modChan_only _ _ _)); focus rfl)
    | (split)
    | ((with_reducible apply Only.upd); rotate_left; focus (intro p hp; cases p <;> first | rfl | exact ⟨rfl, rfl, rfl⟩ | exact absurd (by decide) hp))

theorem wordStore_only (i : Initiator) (o : Nat) (v : BitVec 32) (s : State) :
    Only [.doms, .time, .regs, .cause, .counters, .events, .monitors, .que, .held, .hbr, .awl, .integ, .out] s (wordStore i o v s) := by
  unfold wordStore
  repeat' first
    | with_reducible exact Only.refl _ _
    | with_reducible assumption
    | ((with_reducible apply Only.ite) <;> intro _)
    | ((with_reducible apply Only.step (admCtrlWrite_only _ _ _)); focus rfl)
    | ((with_reducible apply Only.step (awlCtrlWrite_only _ _)); focus rfl)
    | ((with_reducible apply Only.step (awlRegWrite_only _ _ _)); focus rfl)
    | ((with_reducible apply Only.step (capWrite_only _ _)); focus rfl)
    | ((with_reducible apply Only.step (causeClear_only _ _)); focus rfl)
    | ((with_reducible apply Only.step (crcRefWrite_only _ _)); focus rfl)
    | ((with_reducible apply Only.step (dirtyPass_only _)); focus rfl)
    | ((with_reducible apply Only.step (domReqWrite_only _ _)); focus rfl)
    | ((with_reducible apply Only.step (holdWrite_only _ _)); focus rfl)
    | ((with_reducible apply Only.step (seqError_only _ _)); focus rfl)
    | ((with_reducible apply Only.step (splitWrite_only _ _)); focus rfl)
    | ((with_reducible apply Only.step (statusClear_only _ _)); focus rfl)
    | (split)
    | ((with_reducible apply Only.upd); rotate_left; focus (intro p hp; cases p <;> first | rfl | exact ⟨rfl, rfl, rfl⟩ | exact absurd (by decide) hp))

theorem setHalf_only (i : Initiator) (o : Nat) (v : BitVec 32) (s : State) :
    Only [.regs] s (setHalf i o v s) := by
  unfold setHalf
  repeat' first
    | with_reducible exact Only.refl _ _
    | with_reducible assumption
    | ((with_reducible apply Only.upd); rotate_left; focus (intro p hp; cases p <;> first | rfl | exact ⟨rfl, rfl, rfl⟩ | exact absurd (by decide) hp))

theorem openStore_only (i : Initiator) (o : Nat) (v : BitVec 32) (s : State) :
    Only [.doms, .time, .regs, .cause, .counters, .events, .monitors, .que, .held, .hbr, .awl, .integ, .out] s (openStore i o v s) := by
  unfold openStore
  repeat' first
    | with_reducible exact Only.refl _ _
    | with_reducible assumption
    | ((with_reducible apply Only.ite) <;> intro _)
    | ((with_reducible apply Only.step (pairStore_only _ _ _)); focus rfl)
    | ((with_reducible apply Only.step (setHalf_only _ _ _ _)); focus rfl)
    | ((with_reducible apply Only.step (wordStore_only _ _ _ _)); focus rfl)

theorem regStore_only (i : Initiator) (o : Nat) (v : BitVec 32) (s : State) :
    Only [.doms, .time, .regs, .cause, .counters, .events, .monitors, .que, .held, .hbr, .awl, .integ, .out] s (regStore i o v s) := by
  unfold regStore
  repeat' first
    | with_reducible exact Only.refl _ _
    | with_reducible assumption
    | ((with_reducible apply Only.ite) <;> intro _)
    | ((with_reducible apply crossing_only); (focus rfl))
    | ((with_reducible apply Only.step (domainOff_only _)); focus rfl)
    | ((with_reducible apply Only.step (openStore_only _ _ _ _)); focus rfl)
    | ((with_reducible apply Only.step (privDrop_only _)); focus rfl)
    | ((with_reducible apply Only.step (setHalf_only _ _ _ _)); focus rfl)
    | (split)
    | (intro x hx; try beta_reduce)

theorem kindWrite_only (ok : Nat → Bool) (i : Initiator) (offset : BitVec 24) (v : BitVec 32) (s : State) :
    OnlyR [.doms, .time, .regs, .cause, .counters, .events, .monitors, .que, .held, .hbr, .awl, .integ, .out] s (kindWrite ok i offset v s) := by
  unfold kindWrite
  repeat' first
    | with_reducible exact Only.refl _ _
    | with_reducible assumption
    | ((with_reducible apply OnlyR.ite) <;> intro _)
    | with_reducible apply OnlyR.next
    | ((with_reducible apply Only.step (badAccess_only _ _)); focus rfl)
    | ((with_reducible apply Only.step (regStore_only _ _ _ _)); focus rfl)

theorem msixWrite_only (i : Initiator) (o : Nat) (v : BitVec 32) (s : State) :
    Only [.regs] s (msixWrite i o v s) := by
  unfold msixWrite
  repeat' first
    | with_reducible exact Only.refl _ _
    | with_reducible assumption
    | (extract_lets +onlyGivenNames x; unfold x; clear x)
    | ((with_reducible apply Only.ite) <;> intro _)
    | (split)
    | ((with_reducible apply Only.upd); rotate_left; focus (intro p hp; cases p <;> first | rfl | exact ⟨rfl, rfl, rfl⟩ | exact absurd (by decide) hp))

theorem plainStore_only (i : Initiator) (o : Nat) (v : BitVec 32) (s : State) :
    Only [.doms, .time, .regs, .cause, .counters, .events, .monitors, .que, .held, .hbr, .awl, .integ, .out] s (plainStore i o v s) := by
  unfold plainStore
  repeat' first
    | with_reducible exact Only.refl _ _
    | with_reducible assumption
    | ((with_reducible apply Only.ite) <;> intro _)
    | ((with_reducible apply Only.step (msixWrite_only _ _ _ _)); focus rfl)
    | ((with_reducible apply Only.step (regStore_only _ _ _ _)); focus rfl)

theorem wideStore_only (i : Initiator) (o : Nat) (value : BitVec 64) (s : State) :
    Only [.doms, .time, .regs, .cause, .counters, .events, .monitors, .que, .held, .hbr, .awl, .integ, .out] s (wideStore i o value s) := by
  unfold wideStore
  repeat' first
    | with_reducible exact Only.refl _ _
    | with_reducible assumption
    | (extract_lets +onlyGivenNames x; unfold x; clear x)
    | ((with_reducible apply Only.ite) <;> intro _)
    | ((with_reducible apply Only.step (plainStore_only _ _ _ _)); focus rfl)
    | ((with_reducible apply Only.step (regStore_only _ _ _ _)); focus rfl)

theorem execRegWrite_only (i : Initiator) (offset : BitVec 24) (size : Nat) (value : BitVec 64) (s : State) :
    OnlyR [.doms, .time, .regs, .cause, .counters, .events, .monitors, .que, .held, .hbr, .awl, .integ, .out] s (execRegWrite i offset size value s) := by
  unfold execRegWrite
  repeat' first
    | with_reducible exact Only.refl _ _
    | with_reducible assumption
    | (extract_lets +onlyGivenNames x; unfold x; clear x)
    | ((with_reducible apply OnlyR.ite) <;> intro _)
    | with_reducible apply OnlyR.next
    | ((with_reducible apply Only.step (badAccess_only _ _)); focus rfl)
    | ((with_reducible apply Only.step (plainStore_only _ _ _ _)); focus rfl)
    | ((with_reducible apply Only.step (regStore_only _ _ _ _)); focus rfl)
    | ((with_reducible apply Only.step (wideStore_only _ _ _ _)); focus rfl)

theorem execMwWrite_only (i : Initiator) (offset : BitVec 24) (value : BitVec 32) (s : State) :
    OnlyR [.doms, .time, .regs, .cause, .counters, .events, .monitors, .que, .held, .hbr, .awl, .integ, .out] s (execMwWrite i offset value s) := by
  unfold execMwWrite
  repeat' first
    | with_reducible exact Only.refl _ _
    | with_reducible assumption
    | with_reducible apply OnlyR.next
    | ((with_reducible apply OnlyR.step (kindWrite_only _ _ _ _ _)); focus rfl)

theorem execPairLoRead_only (i : Initiator) (offset : BitVec 24) (s : State) :
    OnlyR [.regs, .awl, .out] s (execPairLoRead i offset s) := by
  unfold execPairLoRead
  repeat' first
    | with_reducible exact Only.refl _ _
    | with_reducible assumption
    | (extract_lets +onlyGivenNames x; unfold x; clear x)
    | ((with_reducible apply OnlyR.ite) <;> intro _)
    | with_reducible apply OnlyR.next
    | ((with_reducible apply Only.step (badAccess_only _ _)); focus rfl)
    | ((with_reducible apply Only.step (regRead_only _ _ _)); focus rfl)
    | ((with_reducible apply Only.step (send_only _ _)); focus rfl)

theorem execPairHiWrite_only (i : Initiator) (offset : BitVec 24) (value : BitVec 32) (s : State) :
    OnlyR [.doms, .time, .regs, .cause, .counters, .events, .monitors, .que, .held, .hbr, .awl, .integ, .out] s (execPairHiWrite i offset value s) := by
  unfold execPairHiWrite
  repeat' first
    | with_reducible exact Only.refl _ _
    | with_reducible assumption
    | with_reducible apply OnlyR.next
    | ((with_reducible apply OnlyR.step (kindWrite_only _ _ _ _ _)); focus rfl)

theorem execPairLoWrite_only (i : Initiator) (offset : BitVec 24) (value : BitVec 32) (s : State) :
    OnlyR [.doms, .time, .regs, .cause, .counters, .events, .monitors, .que, .held, .hbr, .awl, .integ, .out] s (execPairLoWrite i offset value s) := by
  unfold execPairLoWrite
  repeat' first
    | with_reducible exact Only.refl _ _
    | with_reducible assumption
    | with_reducible apply OnlyR.next
    | ((with_reducible apply OnlyR.step (kindWrite_only _ _ _ _ _)); focus rfl)

theorem execW1cWrite_only (i : Initiator) (offset : BitVec 24) (value : BitVec 32) (s : State) :
    OnlyR [.doms, .time, .regs, .cause, .counters, .events, .monitors, .que, .held, .hbr, .awl, .integ, .out] s (execW1cWrite i offset value s) := by
  unfold execW1cWrite
  repeat' first
    | with_reducible exact Only.refl _ _
    | with_reducible assumption
    | with_reducible apply OnlyR.next
    | ((with_reducible apply OnlyR.step (kindWrite_only _ _ _ _ _)); focus rfl)

theorem execConfigRegWrite_only (i : Initiator) (offset : BitVec 24) (value : BitVec 32) (s : State) :
    OnlyR [.doms, .time, .regs, .cause, .counters, .events, .monitors, .que, .held, .hbr, .awl, .integ, .out] s (execConfigRegWrite i offset value s) := by
  unfold execConfigRegWrite
  repeat' first
    | with_reducible exact Only.refl _ _
    | with_reducible assumption
    | with_reducible apply OnlyR.next
    | ((with_reducible apply OnlyR.step (kindWrite_only _ _ _ _ _)); focus rfl)

theorem execCfgCrcRefWrite_only (i : Initiator) (value : BitVec 32) (s : State) :
    OnlyR [.doms, .time, .regs, .cause, .counters, .events, .monitors, .que, .held, .hbr, .awl, .integ, .out] s (execCfgCrcRefWrite i value s) := by
  unfold execCfgCrcRefWrite
  repeat' first
    | with_reducible exact Only.refl _ _
    | with_reducible assumption
    | with_reducible apply OnlyR.next
    | ((with_reducible apply OnlyR.step (kindWrite_only _ _ _ _ _)); focus rfl)

theorem execCfgHoldWrite_only (i : Initiator) (value : BitVec 32) (s : State) :
    OnlyR [.doms, .time, .regs, .cause, .counters, .events, .monitors, .que, .held, .hbr, .awl, .integ, .out] s (execCfgHoldWrite i value s) := by
  unfold execCfgHoldWrite
  repeat' first
    | with_reducible exact Only.refl _ _
    | with_reducible assumption
    | with_reducible apply OnlyR.next
    | ((with_reducible apply OnlyR.step (kindWrite_only _ _ _ _ _)); focus rfl)

theorem execHoldLongTimer_only (s : State) :
    OnlyR [.regs, .counters, .events, .held, .out] s (execHoldLongTimer s) := by
  unfold execHoldLongTimer
  repeat' first
    | with_reducible exact Only.refl _ _
    | with_reducible assumption
    | (extract_lets +onlyGivenNames x; refine (have hx : Only [.regs, .counters, .events, .held, .out] s x := ?_; ?_); unfold x; clear x; rotate_left; clear_value x; rotate_right)
    | (extract_lets +onlyGivenNames x; unfold x; clear x)
    | ((with_reducible apply OnlyR.ite) <;> intro _)
    | with_reducible apply OnlyR.next
    | ((with_reducible apply Only.step (raise_only _ _ _ _)); focus rfl)
    | (split)
    | ((with_reducible apply Only.upd); rotate_left; focus (intro p hp; cases p <;> first | rfl | exact ⟨rfl, rfl, rfl⟩ | exact absurd (by decide) hp))

theorem execCheckPassEnd_only (s : State) :
    OnlyR [.regs, .cause, .counters, .events, .held, .out] s (execCheckPassEnd s) := by
  unfold execCheckPassEnd
  repeat' first
    | with_reducible exact Only.refl _ _
    | with_reducible assumption
    | (extract_lets +onlyGivenNames x; refine (have hx : Only [.regs, .cause, .counters, .events, .held, .out] s x := ?_; ?_); unfold x; clear x; rotate_left; clear_value x; rotate_right)
    | (extract_lets +onlyGivenNames x; unfold x; clear x)
    | ((with_reducible apply OnlyR.ite) <;> intro _)
    | with_reducible apply OnlyR.next
    | ((with_reducible apply Only.step (cause_only _ _)); focus rfl)
    | ((with_reducible apply Only.step (raise_only _ _ _ _)); focus rfl)
    | (split)
    | ((with_reducible apply Only.upd); rotate_left; focus (intro p hp; cases p <;> first | rfl | exact ⟨rfl, rfl, rfl⟩ | exact absurd (by decide) hp))

theorem execConfigActivate_only (s : State) :
    OnlyR [.regs, .counters, .events, .held, .model, .banks, .scheds, .out] s (execConfigActivate s) := by
  unfold execConfigActivate
  repeat' first
    | with_reducible exact Only.refl _ _
    | with_reducible assumption
    | ((with_reducible apply OnlyR.ite) <;> intro _)
    | with_reducible apply OnlyR.next
    | ((with_reducible apply Only.step (activateNow_only _)); focus rfl)

theorem execXdomCrossingDone_only (s : State) :
    OnlyR [.regs] s (execXdomCrossingDone s) := by
  unfold execXdomCrossingDone
  repeat' first
    | with_reducible exact Only.refl _ _
    | with_reducible assumption
    | with_reducible apply OnlyR.next
    | ((with_reducible apply Only.upd); rotate_left; focus (intro p hp; cases p <;> first | rfl | exact ⟨rfl, rfl, rfl⟩ | exact absurd (by decide) hp))

theorem execTideAlarmWrite_only (i : Initiator) (lo : BitVec 32) (s : State) :
    OnlyR [.doms, .time, .regs, .cause, .counters, .events, .monitors, .que, .held, .hbr, .awl, .integ, .out] s (execTideAlarmWrite i lo s) := by
  unfold execTideAlarmWrite
  repeat' first
    | with_reducible exact Only.refl _ _
    | with_reducible assumption
    | with_reducible apply OnlyR.next
    | ((with_reducible apply OnlyR.step (kindWrite_only _ _ _ _ _)); focus rfl)

theorem execTideAlarmFire_only (s : State) :
    OnlyR [.doms, .regs, .cause, .counters] s (execTideAlarmFire s) := by
  unfold execTideAlarmFire
  repeat' first
    | with_reducible exact Only.refl _ _
    | with_reducible assumption
    | ((with_reducible apply OnlyR.ite) <;> intro _)
    | with_reducible apply OnlyR.next
    | ((with_reducible apply Only.step (alarmReached_only _)); focus rfl)

theorem execTideEpochOpen_only (s : State) :
    OnlyR [.time, .regs, .counters] s (execTideEpochOpen s) := by
  unfold execTideEpochOpen
  repeat' first
    | with_reducible exact Only.refl _ _
    | with_reducible assumption
    | (extract_lets +onlyGivenNames x; refine (have hx : Only [.time, .regs, .counters] s x := ?_; ?_); unfold x; clear x; rotate_left; clear_value x; rotate_right)
    | (extract_lets +onlyGivenNames x; unfold x; clear x)
    | ((with_reducible apply Only.ite) <;> intro _)
    | ((with_reducible apply OnlyR.ite) <;> intro _)
    | with_reducible apply OnlyR.next
    | ((with_reducible apply Only.step (bump_only _ _)); focus rfl)
    | ((with_reducible apply Only.step (rearmAlarm_only _)); focus rfl)
    | (split)
    | ((with_reducible apply Only.upd); rotate_left; focus (intro p hp; cases p <;> first | rfl | exact ⟨rfl, rfl, rfl⟩ | exact absurd (by decide) hp))

theorem tick_only (s : State) :
    Only [.time] s (tick s) := by
  unfold tick
  repeat' first
    | with_reducible exact Only.refl _ _
    | with_reducible assumption
    | (split)
    | ((with_reducible apply Only.upd); rotate_left; focus (intro p hp; cases p <;> first | rfl | exact ⟨rfl, rfl, rfl⟩ | exact absurd (by decide) hp))

end Sys2Proof.Laws
end

