-- ==== Sys2Proof/Laws/Tab.lean ====
section
/-! SUPPORT. Reading a table after a write, a removal or a map. -/

namespace Sys2Proof.Machine

variable {α β : Type}

/-- The entry written is read back. -/
@[simp] theorem tget?_tset_self (t : Tab α) (n : Nat) (v : α) : tget? (tset t n v) n = some v := by
  induction t with
  | nil => simp [tset, tget?]
  | cons e t ih =>
    obtain ⟨k, w⟩ := e
    simp only [tset]
    split
    · simp [tget?]
    · split
      · simp [tget?]
      · rename_i h; simp [tget?, Ne.symm h, ih]

/-- Every other entry is unchanged by a write. -/
theorem tget?_tset_ne (t : Tab α) {n m : Nat} (v : α) (h : m ≠ n) : tget? (tset t n v) m = tget? t m := by
  induction t with
  | nil => simp [tset, tget?, Ne.symm h]
  | cons e t ih =>
    obtain ⟨k, w⟩ := e
    simp only [tset]
    split
    · simp [tget?, Ne.symm h]
    · split
      · rename_i hk; subst hk; simp [tget?, Ne.symm h]
      · simp [tget?, ih]

/-- A read after a write, in one equation. -/
theorem tget?_tset (t : Tab α) (n m : Nat) (v : α) :
    tget? (tset t n v) m = if m = n then some v else tget? t m := by
  split
  · rename_i h; subst h; simp
  · rename_i h; exact tget?_tset_ne t v h

/-- A read with a default after a write. -/
theorem tget_tset (t : Tab α) (n m : Nat) (v d : α) : tget (tset t n v) m d = if m = n then v else tget t m d := by
  unfold tget
  rw [tget?_tset]
  split <;> simp

@[simp] theorem tget_tset_self (t : Tab α) (n : Nat) (v d : α) : tget (tset t n v) n d = v := by simp [tget_tset]

theorem tget_tset_ne (t : Tab α) {n m : Nat} (v d : α) (h : m ≠ n) : tget (tset t n v) m d = tget t m d := by
  simp [tget_tset, h]

/-- A read after a change of one entry. -/
theorem tget_tmod (t : Tab α) (n m : Nat) (d : α) (f : α → α) :
    tget (tmod t n d f) m d = if m = n then f (tget t n d) else tget t m d := by
  simp [tmod, tget_tset]

@[simp] theorem tget_tmod_self (t : Tab α) (n : Nat) (d : α) (f : α → α) : tget (tmod t n d f) n d = f (tget t n d) := by
  simp [tget_tmod]

theorem tget_tmod_ne (t : Tab α) {n m : Nat} (d : α) (f : α → α) (h : m ≠ n) : tget (tmod t n d f) m d = tget t m d := by
  simp [tget_tmod, h]

/-- Every other entry is unchanged by a removal. -/
theorem tget?_tdel_ne (t : Tab α) {n m : Nat} (h : m ≠ n) : tget? (tdel t n) m = tget? t m := by
  induction t with
  | nil => rfl
  | cons e t ih =>
    obtain ⟨k, w⟩ := e
    simp only [tdel]
    split
    · rename_i hk; subst hk; simp [tget?, Ne.symm h]
    · simp [tget?, ih]

/-- A map over the entries, read at one number. -/
theorem tget?_map (t : Tab α) (n : Nat) (f : Nat → α → β) :
    tget? (t.map fun e => (e.1, f e.1 e.2)) n = (tget? t n).map (f n) := by
  induction t with
  | nil => rfl
  | cons e t ih =>
    obtain ⟨k, w⟩ := e
    simp only [List.map_cons, tget?]
    split
    · rename_i hk; subst hk; rfl
    · exact ih

end Sys2Proof.Machine
end

