-- ==== Sys2Proof/Laws/Memory.lean ====
section
/-! SUPPORT. The Harbour's list of bytes: a read after a write, and every operation on it keeps the canonical form. Numbers
and their little-endian bytes. -/

namespace Sys2Proof.Machine

theorem not_beq_zero {v : Byte} (h : ¬v = 0) : (!(v == 0)) = true := by
  cases e : v == 0
  · rfl
  · exact absurd (eq_of_beq e) h

/-- Any lower bound of a canonical list may be lowered. -/
theorem cellsAbove_mono {lo hi : Nat} (h : lo ≤ hi) {l : List Host.Cell} (w : cellsAbove hi l = true) : cellsAbove lo l = true := by
  cases l with
  | nil => rfl
  | cons c t =>
    obtain ⟨a, v⟩ := c
    simp only [cellsAbove, Bool.and_eq_true, decide_eq_true_eq] at w ⊢
    exact ⟨⟨by omega, w.1.2⟩, w.2⟩

/-- A write at or above the bound keeps the canonical form above the bound. -/
theorem cellsAbove_cellSet {l : List Host.Cell} {lo n : Nat} (v : Byte) (h : lo ≤ n) (w : cellsAbove lo l = true) :
    cellsAbove lo (cellSet l n v) = true := by
  induction l generalizing lo with
  | nil =>
    simp only [cellSet]
    split
    · rfl
    · rename_i hv
      simp only [cellsAbove, Bool.and_eq_true, decide_eq_true_eq]
      exact ⟨⟨h, not_beq_zero hv⟩, trivial⟩
  | cons c t ih =>
    obtain ⟨a, x⟩ := c
    simp only [cellsAbove, Bool.and_eq_true, decide_eq_true_eq] at w
    simp only [cellSet]
    split
    · split
      · simp only [cellsAbove, Bool.and_eq_true, decide_eq_true_eq]
        exact w
      · rename_i ha hv
        simp only [cellsAbove, Bool.and_eq_true, decide_eq_true_eq]
        exact ⟨⟨h, not_beq_zero hv⟩, ⟨by omega, w.1.2⟩, w.2⟩
    · split
      · rename_i hn
        subst hn
        split
        · exact cellsAbove_mono (by omega) w.2
        · rename_i hv
          simp only [cellsAbove, Bool.and_eq_true, decide_eq_true_eq]
          exact ⟨⟨h, not_beq_zero hv⟩, w.2⟩
      · simp only [cellsAbove, Bool.and_eq_true, decide_eq_true_eq]
        exact ⟨w.1, ih (by omega) w.2⟩

/-- A read after a write of one byte. -/
theorem cellGet_cellSet {l : List Host.Cell} {lo : Nat} (w : cellsAbove lo l = true) (n m : Nat) (v : Byte) :
    cellGet (cellSet l n v) m = if m = n then v else cellGet l m := by
  induction l generalizing lo with
  | nil =>
    simp only [cellSet]
    split
    · rename_i hv; subst hv; simp [cellGet]
    · simp [cellGet, eq_comm]
  | cons c t ih =>
    obtain ⟨a, x⟩ := c
    simp only [cellsAbove, Bool.and_eq_true, decide_eq_true_eq] at w
    have low : ∀ k, k ≤ a → cellGet t k = 0 := by
      intro k hk
      have : ∀ (t : List Host.Cell) (b : Nat), k < b → cellsAbove b t = true → cellGet t k = 0 := by
        intro t
        induction t with
        | nil => intros; rfl
        | cons d t ih =>
          obtain ⟨e, y⟩ := d
          intro b hb hw
          simp only [cellsAbove, Bool.and_eq_true, decide_eq_true_eq] at hw
          simp only [cellGet]
          rw [if_neg (by omega)]
          exact ih (e + 1) (by omega) hw.2
      exact this t (a + 1) (by omega) w.2
    simp only [cellSet]
    split
    · rename_i ha
      split
      · rename_i hv
        subst hv
        split
        · rename_i hm; subst hm
          simp only [cellGet]
          rw [if_neg (by omega)]
          exact low m (by omega)
        · rfl
      · simp only [cellGet]
        by_cases hm : m = n
        · rw [if_pos hm.symm, if_pos hm]
        · rw [if_neg (Ne.symm hm), if_neg hm]
    · split
      · rename_i hn
        subst hn
        split
        · rename_i hv
          subst hv
          by_cases hm : m = n
          · rw [if_pos hm]; exact low m (by omega)
          · simp only [cellGet]; rw [if_neg hm, if_neg (Ne.symm hm)]
        · simp only [cellGet]
          by_cases hm : m = n
          · rw [if_pos hm.symm, if_pos hm]
          · rw [if_neg (Ne.symm hm), if_neg hm, if_neg (Ne.symm hm)]
      · simp only [cellGet]
        rw [ih w.2]
        by_cases ha : a = m
        · have : m ≠ n := by omega
          rw [if_pos ha, if_neg this, if_pos ha]
        · rw [if_neg ha]
          by_cases hm : m = n
          · rw [if_pos hm, if_pos hm]
          · rw [if_neg hm, if_neg hm, if_neg ha]

/-- A write of a run keeps the canonical form. -/
theorem wf_cellsWrite (l : List Host.Cell) (a : Nat) (d : Bytes) (w : Memory.wf l = true) : Memory.wf (cellsWrite l a d) = true := by
  induction d generalizing l a with
  | nil => exact w
  | cons b t ih => exact ih _ _ (cellsAbove_cellSet b (Nat.zero_le a) w)

/-- A read after a write of a run: the run's bytes inside it, the old bytes outside. -/
theorem cellGet_cellsWrite (l : List Host.Cell) (a : Nat) (d : Bytes) (m : Nat) (w : Memory.wf l = true) :
    cellGet (cellsWrite l a d) m = if a ≤ m ∧ m < a + d.length then d.getD (m - a) 0 else cellGet l m := by
  induction d generalizing l a with
  | nil => simp only [cellsWrite, List.length_nil]; rw [if_neg (by omega)]
  | cons b t ih =>
    simp only [cellsWrite, List.length_cons]
    rw [ih _ _ (cellsAbove_cellSet b (Nat.zero_le a) w), cellGet_cellSet w]
    by_cases hm : m = a
    · subst hm
      rw [if_neg (by omega), if_pos rfl, if_pos (by omega), Nat.sub_self]
      rfl
    · by_cases hi : a + 1 ≤ m ∧ m < a + 1 + t.length
      · rw [if_pos hi, if_pos (by omega)]
        obtain ⟨k, rfl⟩ : ∃ k, m = a + 1 + k := ⟨m - (a + 1), by omega⟩
        have h1 : a + 1 + k - (a + 1) = k := by omega
        have h2 : a + 1 + k - a = k + 1 := by omega
        rw [h1, h2, List.getD_cons_succ]
      · rw [if_neg hi, if_neg hm, if_neg (by omega)]

/-- A filter keeps the canonical form. -/
theorem wf_filter (l : List Host.Cell) (p : Host.Cell → Bool) (w : Memory.wf l = true) : Memory.wf (l.filter p) = true := by
  have : ∀ (l : List Host.Cell) (lo : Nat), cellsAbove lo l = true → cellsAbove lo (l.filter p) = true := by
    intro l
    induction l with
    | nil => intros; rfl
    | cons c t ih =>
      obtain ⟨a, v⟩ := c
      intro lo h
      simp only [cellsAbove, Bool.and_eq_true, decide_eq_true_eq] at h
      simp only [List.filter_cons]
      split
      · simp only [cellsAbove, Bool.and_eq_true, decide_eq_true_eq]
        exact ⟨h.1, ih _ h.2⟩
      · exact cellsAbove_mono (by omega) (ih _ h.2)
  exact this l 0 w

/-! ## The operations of the Harbour -/

theorem wf_writeGranule (h : Harbour) (g : Nat) (mask : List Bool) (data : Bytes) (poison : BitVec 8) (w : Memory.wf h.data = true) :
    Memory.wf (writeGranule h g mask data poison).data = true := by
  unfold writeGranule
  extract_lets merged syns
  clear_value merged syns
  exact wf_cellsWrite h.data (64 * g) merged w

/-- What keeps the canonical form at each entry of a list keeps it over the list. -/
theorem wf_foldl {β : Type} {f : Harbour → β → Harbour} (keeps : ∀ h x, Memory.wf h.data = true → Memory.wf (f h x).data = true)
    (l : List β) {h : Harbour} (w : Memory.wf h.data = true) : Memory.wf (l.foldl f h).data = true := by
  induction l generalizing h with
  | nil => exact w
  | cons x t ih => exact ih (keeps h x w)

theorem wf_hWrite (h : Harbour) (a : Nat) (d : Bytes) (poison : Bool) (w : Memory.wf h.data = true) :
    Memory.wf (hWrite h a d poison).data = true := by
  unfold hWrite
  split
  · exact w
  · exact wf_foldl (fun _ _ => wf_writeGranule _ _ _ _ _) _ w

theorem wf_hClear (h : Harbour) (a len : Nat) (w : Memory.wf h.data = true) : Memory.wf (hClear h a len).data = true :=
  wf_filter _ _ w

theorem wf_upsetBit (word bit : Nat) (h : Harbour) (w : Memory.wf h.data = true) : Memory.wf (upsetBit word bit h).data = true := by
  unfold upsetBit
  split
  · exact w
  · dsimp only
    split
    · exact cellsAbove_cellSet _ (Nat.zero_le _) w
    · exact w

theorem wf_writeBack (word : Nat) (h : Harbour) (w : Memory.wf h.data = true) : Memory.wf (writeBack word h).data = true :=
  wf_cellsWrite _ _ _ w

theorem wf_harbWrite (a : Nat) (d : Bytes) (poison : Bool) (s : State) (w : Memory.wf s.hbr.data = true) :
    Memory.wf (harbWrite a d poison s).hbr.data = true := by
  unfold harbWrite
  split
  · exact w
  · exact wf_hWrite _ _ _ _ w

theorem wf_ctxWrite (n off : Nat) (d : Bytes) (s : State) (w : Memory.wf s.hbr.data = true) :
    Memory.wf (ctxWrite n off d s).hbr.data = true := wf_harbWrite _ _ _ _ w

/-! ## Little-endian bytes -/

/-- The number that `k` bytes of a number hold. -/
theorem leNat_leBytes (k n : Nat) : leNat (leBytes k n) = n % 256 ^ k := by
  induction k generalizing n with
  | zero => simp [leBytes, leNat, Nat.mod_one]
  | succ k ih =>
    show (BitVec.ofNat 8 n).toNat + 256 * leNat (leBytes k (n / 256)) = _
    rw [ih, BitVec.toNat_ofNat, Nat.pow_succ (n := 256), Nat.mul_comm (256 ^ k) 256, Nat.mod_mul (a := 256)]

/-- A 32-bit word read back from its bytes. -/
theorem leNat_leBytes_word (x : BitVec 32) : leNat (leBytes 4 x.toNat) = x.toNat := by
  rw [leNat_leBytes]
  exact Nat.mod_eq_of_lt x.isLt

end Sys2Proof.Machine
end

