-- ==== Sys2Proof/Laws/State.lean ====
section
/-! SUPPORT. What each update of the state leaves unchanged, field by field, and what a unit reads after an update of it. -/

namespace Sys2Proof.Machine

variable (s : State)

/-! ## modBank -/

@[simp] theorem modBank_pending (n : Nat) (f : Bank → Bank) : (modBank n f s).pending = s.pending := rfl
@[simp] theorem modBank_part816 (n : Nat) (f : Bank → Bank) : (modBank n f s).part816 = s.part816 := rfl
@[simp] theorem modBank_liquid (n : Nat) (f : Bank → Bank) : (modBank n f s).liquid = s.liquid := rfl
@[simp] theorem modBank_preloaded (n : Nat) (f : Bank → Bank) : (modBank n f s).preloaded = s.preloaded := rfl
@[simp] theorem modBank_power (n : Nat) (f : Bank → Bank) : (modBank n f s).power = s.power := rfl
@[simp] theorem modBank_time (n : Nat) (f : Bank → Bank) : (modBank n f s).time = s.time := rfl
@[simp] theorem modBank_regs (n : Nat) (f : Bank → Bank) : (modBank n f s).regs = s.regs := rfl
@[simp] theorem modBank_dict (n : Nat) (f : Bank → Bank) : (modBank n f s).dict = s.dict := rfl
@[simp] theorem modBank_sec (n : Nat) (f : Bank → Bank) : (modBank n f s).sec = s.sec := rfl
@[simp] theorem modBank_portU (n : Nat) (f : Bank → Bank) : (modBank n f s).portU = s.portU := rfl
@[simp] theorem modBank_portD (n : Nat) (f : Bank → Bank) : (modBank n f s).portD = s.portD := rfl
@[simp] theorem modBank_que (n : Nat) (f : Bank → Bank) : (modBank n f s).que = s.que := rfl
@[simp] theorem modBank_model (n : Nat) (f : Bank → Bank) : (modBank n f s).model = s.model := rfl
@[simp] theorem modBank_flow (n : Nat) (f : Bank → Bank) : (modBank n f s).flow = s.flow := rfl
@[simp] theorem modBank_hbr (n : Nat) (f : Bank → Bank) : (modBank n f s).hbr = s.hbr := rfl
@[simp] theorem modBank_islands (n : Nat) (f : Bank → Bank) : (modBank n f s).islands = s.islands := rfl
@[simp] theorem modBank_clusters (n : Nat) (f : Bank → Bank) : (modBank n f s).clusters = s.clusters := rfl
@[simp] theorem modBank_awl (n : Nat) (f : Bank → Bank) : (modBank n f s).awl = s.awl := rfl
@[simp] theorem modBank_scheds (n : Nat) (f : Bank → Bank) : (modBank n f s).scheds = s.scheds := rfl
@[simp] theorem modBank_integ (n : Nat) (f : Bank → Bank) : (modBank n f s).integ = s.integ := rfl
@[simp] theorem modBank_strait (n : Nat) (f : Bank → Bank) : (modBank n f s).strait = s.strait := rfl
@[simp] theorem modBank_out (n : Nat) (f : Bank → Bank) : (modBank n f s).out = s.out := rfl
@[simp] theorem modBank_free (n : Nat) (f : Bank → Bank) : (modBank n f s).free = s.free := rfl

/-! ## modIsland -/

@[simp] theorem modIsland_pending (n : Nat) (f : Island → Island) : (modIsland n f s).pending = s.pending := rfl
@[simp] theorem modIsland_part816 (n : Nat) (f : Island → Island) : (modIsland n f s).part816 = s.part816 := rfl
@[simp] theorem modIsland_liquid (n : Nat) (f : Island → Island) : (modIsland n f s).liquid = s.liquid := rfl
@[simp] theorem modIsland_preloaded (n : Nat) (f : Island → Island) : (modIsland n f s).preloaded = s.preloaded := rfl
@[simp] theorem modIsland_power (n : Nat) (f : Island → Island) : (modIsland n f s).power = s.power := rfl
@[simp] theorem modIsland_time (n : Nat) (f : Island → Island) : (modIsland n f s).time = s.time := rfl
@[simp] theorem modIsland_regs (n : Nat) (f : Island → Island) : (modIsland n f s).regs = s.regs := rfl
@[simp] theorem modIsland_dict (n : Nat) (f : Island → Island) : (modIsland n f s).dict = s.dict := rfl
@[simp] theorem modIsland_sec (n : Nat) (f : Island → Island) : (modIsland n f s).sec = s.sec := rfl
@[simp] theorem modIsland_portU (n : Nat) (f : Island → Island) : (modIsland n f s).portU = s.portU := rfl
@[simp] theorem modIsland_portD (n : Nat) (f : Island → Island) : (modIsland n f s).portD = s.portD := rfl
@[simp] theorem modIsland_que (n : Nat) (f : Island → Island) : (modIsland n f s).que = s.que := rfl
@[simp] theorem modIsland_model (n : Nat) (f : Island → Island) : (modIsland n f s).model = s.model := rfl
@[simp] theorem modIsland_flow (n : Nat) (f : Island → Island) : (modIsland n f s).flow = s.flow := rfl
@[simp] theorem modIsland_hbr (n : Nat) (f : Island → Island) : (modIsland n f s).hbr = s.hbr := rfl
@[simp] theorem modIsland_banks (n : Nat) (f : Island → Island) : (modIsland n f s).banks = s.banks := rfl
@[simp] theorem modIsland_clusters (n : Nat) (f : Island → Island) : (modIsland n f s).clusters = s.clusters := rfl
@[simp] theorem modIsland_awl (n : Nat) (f : Island → Island) : (modIsland n f s).awl = s.awl := rfl
@[simp] theorem modIsland_scheds (n : Nat) (f : Island → Island) : (modIsland n f s).scheds = s.scheds := rfl
@[simp] theorem modIsland_integ (n : Nat) (f : Island → Island) : (modIsland n f s).integ = s.integ := rfl
@[simp] theorem modIsland_strait (n : Nat) (f : Island → Island) : (modIsland n f s).strait = s.strait := rfl
@[simp] theorem modIsland_out (n : Nat) (f : Island → Island) : (modIsland n f s).out = s.out := rfl
@[simp] theorem modIsland_free (n : Nat) (f : Island → Island) : (modIsland n f s).free = s.free := rfl

/-! ## modCluster -/

@[simp] theorem modCluster_pending (n : Nat) (f : Cluster → Cluster) : (modCluster n f s).pending = s.pending := rfl
@[simp] theorem modCluster_part816 (n : Nat) (f : Cluster → Cluster) : (modCluster n f s).part816 = s.part816 := rfl
@[simp] theorem modCluster_liquid (n : Nat) (f : Cluster → Cluster) : (modCluster n f s).liquid = s.liquid := rfl
@[simp] theorem modCluster_preloaded (n : Nat) (f : Cluster → Cluster) : (modCluster n f s).preloaded = s.preloaded := rfl
@[simp] theorem modCluster_power (n : Nat) (f : Cluster → Cluster) : (modCluster n f s).power = s.power := rfl
@[simp] theorem modCluster_time (n : Nat) (f : Cluster → Cluster) : (modCluster n f s).time = s.time := rfl
@[simp] theorem modCluster_regs (n : Nat) (f : Cluster → Cluster) : (modCluster n f s).regs = s.regs := rfl
@[simp] theorem modCluster_dict (n : Nat) (f : Cluster → Cluster) : (modCluster n f s).dict = s.dict := rfl
@[simp] theorem modCluster_sec (n : Nat) (f : Cluster → Cluster) : (modCluster n f s).sec = s.sec := rfl
@[simp] theorem modCluster_portU (n : Nat) (f : Cluster → Cluster) : (modCluster n f s).portU = s.portU := rfl
@[simp] theorem modCluster_portD (n : Nat) (f : Cluster → Cluster) : (modCluster n f s).portD = s.portD := rfl
@[simp] theorem modCluster_que (n : Nat) (f : Cluster → Cluster) : (modCluster n f s).que = s.que := rfl
@[simp] theorem modCluster_model (n : Nat) (f : Cluster → Cluster) : (modCluster n f s).model = s.model := rfl
@[simp] theorem modCluster_flow (n : Nat) (f : Cluster → Cluster) : (modCluster n f s).flow = s.flow := rfl
@[simp] theorem modCluster_hbr (n : Nat) (f : Cluster → Cluster) : (modCluster n f s).hbr = s.hbr := rfl
@[simp] theorem modCluster_banks (n : Nat) (f : Cluster → Cluster) : (modCluster n f s).banks = s.banks := rfl
@[simp] theorem modCluster_islands (n : Nat) (f : Cluster → Cluster) : (modCluster n f s).islands = s.islands := rfl
@[simp] theorem modCluster_awl (n : Nat) (f : Cluster → Cluster) : (modCluster n f s).awl = s.awl := rfl
@[simp] theorem modCluster_scheds (n : Nat) (f : Cluster → Cluster) : (modCluster n f s).scheds = s.scheds := rfl
@[simp] theorem modCluster_integ (n : Nat) (f : Cluster → Cluster) : (modCluster n f s).integ = s.integ := rfl
@[simp] theorem modCluster_strait (n : Nat) (f : Cluster → Cluster) : (modCluster n f s).strait = s.strait := rfl
@[simp] theorem modCluster_out (n : Nat) (f : Cluster → Cluster) : (modCluster n f s).out = s.out := rfl
@[simp] theorem modCluster_free (n : Nat) (f : Cluster → Cluster) : (modCluster n f s).free = s.free := rfl

/-! ## modSched -/

@[simp] theorem modSched_pending (n : Nat) (f : Sched → Sched) : (modSched n f s).pending = s.pending := rfl
@[simp] theorem modSched_part816 (n : Nat) (f : Sched → Sched) : (modSched n f s).part816 = s.part816 := rfl
@[simp] theorem modSched_liquid (n : Nat) (f : Sched → Sched) : (modSched n f s).liquid = s.liquid := rfl
@[simp] theorem modSched_preloaded (n : Nat) (f : Sched → Sched) : (modSched n f s).preloaded = s.preloaded := rfl
@[simp] theorem modSched_power (n : Nat) (f : Sched → Sched) : (modSched n f s).power = s.power := rfl
@[simp] theorem modSched_time (n : Nat) (f : Sched → Sched) : (modSched n f s).time = s.time := rfl
@[simp] theorem modSched_regs (n : Nat) (f : Sched → Sched) : (modSched n f s).regs = s.regs := rfl
@[simp] theorem modSched_dict (n : Nat) (f : Sched → Sched) : (modSched n f s).dict = s.dict := rfl
@[simp] theorem modSched_sec (n : Nat) (f : Sched → Sched) : (modSched n f s).sec = s.sec := rfl
@[simp] theorem modSched_portU (n : Nat) (f : Sched → Sched) : (modSched n f s).portU = s.portU := rfl
@[simp] theorem modSched_portD (n : Nat) (f : Sched → Sched) : (modSched n f s).portD = s.portD := rfl
@[simp] theorem modSched_que (n : Nat) (f : Sched → Sched) : (modSched n f s).que = s.que := rfl
@[simp] theorem modSched_model (n : Nat) (f : Sched → Sched) : (modSched n f s).model = s.model := rfl
@[simp] theorem modSched_flow (n : Nat) (f : Sched → Sched) : (modSched n f s).flow = s.flow := rfl
@[simp] theorem modSched_hbr (n : Nat) (f : Sched → Sched) : (modSched n f s).hbr = s.hbr := rfl
@[simp] theorem modSched_banks (n : Nat) (f : Sched → Sched) : (modSched n f s).banks = s.banks := rfl
@[simp] theorem modSched_islands (n : Nat) (f : Sched → Sched) : (modSched n f s).islands = s.islands := rfl
@[simp] theorem modSched_clusters (n : Nat) (f : Sched → Sched) : (modSched n f s).clusters = s.clusters := rfl
@[simp] theorem modSched_awl (n : Nat) (f : Sched → Sched) : (modSched n f s).awl = s.awl := rfl
@[simp] theorem modSched_integ (n : Nat) (f : Sched → Sched) : (modSched n f s).integ = s.integ := rfl
@[simp] theorem modSched_strait (n : Nat) (f : Sched → Sched) : (modSched n f s).strait = s.strait := rfl
@[simp] theorem modSched_out (n : Nat) (f : Sched → Sched) : (modSched n f s).out = s.out := rfl
@[simp] theorem modSched_free (n : Nat) (f : Sched → Sched) : (modSched n f s).free = s.free := rfl

/-! ## modSlot -/

@[simp] theorem modSlot_pending (n : Nat) (f : Slot → Slot) : (modSlot n f s).pending = s.pending := rfl
@[simp] theorem modSlot_part816 (n : Nat) (f : Slot → Slot) : (modSlot n f s).part816 = s.part816 := rfl
@[simp] theorem modSlot_liquid (n : Nat) (f : Slot → Slot) : (modSlot n f s).liquid = s.liquid := rfl
@[simp] theorem modSlot_preloaded (n : Nat) (f : Slot → Slot) : (modSlot n f s).preloaded = s.preloaded := rfl
@[simp] theorem modSlot_power (n : Nat) (f : Slot → Slot) : (modSlot n f s).power = s.power := rfl
@[simp] theorem modSlot_time (n : Nat) (f : Slot → Slot) : (modSlot n f s).time = s.time := rfl
@[simp] theorem modSlot_regs (n : Nat) (f : Slot → Slot) : (modSlot n f s).regs = s.regs := rfl
@[simp] theorem modSlot_dict (n : Nat) (f : Slot → Slot) : (modSlot n f s).dict = s.dict := rfl
@[simp] theorem modSlot_sec (n : Nat) (f : Slot → Slot) : (modSlot n f s).sec = s.sec := rfl
@[simp] theorem modSlot_portU (n : Nat) (f : Slot → Slot) : (modSlot n f s).portU = s.portU := rfl
@[simp] theorem modSlot_portD (n : Nat) (f : Slot → Slot) : (modSlot n f s).portD = s.portD := rfl
@[simp] theorem modSlot_que (n : Nat) (f : Slot → Slot) : (modSlot n f s).que = s.que := rfl
@[simp] theorem modSlot_flow (n : Nat) (f : Slot → Slot) : (modSlot n f s).flow = s.flow := rfl
@[simp] theorem modSlot_hbr (n : Nat) (f : Slot → Slot) : (modSlot n f s).hbr = s.hbr := rfl
@[simp] theorem modSlot_banks (n : Nat) (f : Slot → Slot) : (modSlot n f s).banks = s.banks := rfl
@[simp] theorem modSlot_islands (n : Nat) (f : Slot → Slot) : (modSlot n f s).islands = s.islands := rfl
@[simp] theorem modSlot_clusters (n : Nat) (f : Slot → Slot) : (modSlot n f s).clusters = s.clusters := rfl
@[simp] theorem modSlot_awl (n : Nat) (f : Slot → Slot) : (modSlot n f s).awl = s.awl := rfl
@[simp] theorem modSlot_scheds (n : Nat) (f : Slot → Slot) : (modSlot n f s).scheds = s.scheds := rfl
@[simp] theorem modSlot_integ (n : Nat) (f : Slot → Slot) : (modSlot n f s).integ = s.integ := rfl
@[simp] theorem modSlot_strait (n : Nat) (f : Slot → Slot) : (modSlot n f s).strait = s.strait := rfl
@[simp] theorem modSlot_out (n : Nat) (f : Slot → Slot) : (modSlot n f s).out = s.out := rfl
@[simp] theorem modSlot_free (n : Nat) (f : Slot → Slot) : (modSlot n f s).free = s.free := rfl

/-! ## modPair -/

@[simp] theorem modPair_pending (n : Nat) (f : QPair → QPair) : (modPair n f s).pending = s.pending := rfl
@[simp] theorem modPair_part816 (n : Nat) (f : QPair → QPair) : (modPair n f s).part816 = s.part816 := rfl
@[simp] theorem modPair_liquid (n : Nat) (f : QPair → QPair) : (modPair n f s).liquid = s.liquid := rfl
@[simp] theorem modPair_preloaded (n : Nat) (f : QPair → QPair) : (modPair n f s).preloaded = s.preloaded := rfl
@[simp] theorem modPair_power (n : Nat) (f : QPair → QPair) : (modPair n f s).power = s.power := rfl
@[simp] theorem modPair_time (n : Nat) (f : QPair → QPair) : (modPair n f s).time = s.time := rfl
@[simp] theorem modPair_regs (n : Nat) (f : QPair → QPair) : (modPair n f s).regs = s.regs := rfl
@[simp] theorem modPair_dict (n : Nat) (f : QPair → QPair) : (modPair n f s).dict = s.dict := rfl
@[simp] theorem modPair_sec (n : Nat) (f : QPair → QPair) : (modPair n f s).sec = s.sec := rfl
@[simp] theorem modPair_portU (n : Nat) (f : QPair → QPair) : (modPair n f s).portU = s.portU := rfl
@[simp] theorem modPair_portD (n : Nat) (f : QPair → QPair) : (modPair n f s).portD = s.portD := rfl
@[simp] theorem modPair_model (n : Nat) (f : QPair → QPair) : (modPair n f s).model = s.model := rfl
@[simp] theorem modPair_flow (n : Nat) (f : QPair → QPair) : (modPair n f s).flow = s.flow := rfl
@[simp] theorem modPair_hbr (n : Nat) (f : QPair → QPair) : (modPair n f s).hbr = s.hbr := rfl
@[simp] theorem modPair_banks (n : Nat) (f : QPair → QPair) : (modPair n f s).banks = s.banks := rfl
@[simp] theorem modPair_islands (n : Nat) (f : QPair → QPair) : (modPair n f s).islands = s.islands := rfl
@[simp] theorem modPair_clusters (n : Nat) (f : QPair → QPair) : (modPair n f s).clusters = s.clusters := rfl
@[simp] theorem modPair_awl (n : Nat) (f : QPair → QPair) : (modPair n f s).awl = s.awl := rfl
@[simp] theorem modPair_scheds (n : Nat) (f : QPair → QPair) : (modPair n f s).scheds = s.scheds := rfl
@[simp] theorem modPair_integ (n : Nat) (f : QPair → QPair) : (modPair n f s).integ = s.integ := rfl
@[simp] theorem modPair_strait (n : Nat) (f : QPair → QPair) : (modPair n f s).strait = s.strait := rfl
@[simp] theorem modPair_out (n : Nat) (f : QPair → QPair) : (modPair n f s).out = s.out := rfl
@[simp] theorem modPair_free (n : Nat) (f : QPair → QPair) : (modPair n f s).free = s.free := rfl

/-! ## modSeg -/

@[simp] theorem modSeg_pending (n : Nat) (f : Segment → Segment) : (modSeg n f s).pending = s.pending := rfl
@[simp] theorem modSeg_part816 (n : Nat) (f : Segment → Segment) : (modSeg n f s).part816 = s.part816 := rfl
@[simp] theorem modSeg_liquid (n : Nat) (f : Segment → Segment) : (modSeg n f s).liquid = s.liquid := rfl
@[simp] theorem modSeg_preloaded (n : Nat) (f : Segment → Segment) : (modSeg n f s).preloaded = s.preloaded := rfl
@[simp] theorem modSeg_power (n : Nat) (f : Segment → Segment) : (modSeg n f s).power = s.power := rfl
@[simp] theorem modSeg_time (n : Nat) (f : Segment → Segment) : (modSeg n f s).time = s.time := rfl
@[simp] theorem modSeg_regs (n : Nat) (f : Segment → Segment) : (modSeg n f s).regs = s.regs := rfl
@[simp] theorem modSeg_dict (n : Nat) (f : Segment → Segment) : (modSeg n f s).dict = s.dict := rfl
@[simp] theorem modSeg_sec (n : Nat) (f : Segment → Segment) : (modSeg n f s).sec = s.sec := rfl
@[simp] theorem modSeg_portU (n : Nat) (f : Segment → Segment) : (modSeg n f s).portU = s.portU := rfl
@[simp] theorem modSeg_portD (n : Nat) (f : Segment → Segment) : (modSeg n f s).portD = s.portD := rfl
@[simp] theorem modSeg_que (n : Nat) (f : Segment → Segment) : (modSeg n f s).que = s.que := rfl
@[simp] theorem modSeg_model (n : Nat) (f : Segment → Segment) : (modSeg n f s).model = s.model := rfl
@[simp] theorem modSeg_flow (n : Nat) (f : Segment → Segment) : (modSeg n f s).flow = s.flow := rfl
@[simp] theorem modSeg_banks (n : Nat) (f : Segment → Segment) : (modSeg n f s).banks = s.banks := rfl
@[simp] theorem modSeg_islands (n : Nat) (f : Segment → Segment) : (modSeg n f s).islands = s.islands := rfl
@[simp] theorem modSeg_clusters (n : Nat) (f : Segment → Segment) : (modSeg n f s).clusters = s.clusters := rfl
@[simp] theorem modSeg_awl (n : Nat) (f : Segment → Segment) : (modSeg n f s).awl = s.awl := rfl
@[simp] theorem modSeg_scheds (n : Nat) (f : Segment → Segment) : (modSeg n f s).scheds = s.scheds := rfl
@[simp] theorem modSeg_integ (n : Nat) (f : Segment → Segment) : (modSeg n f s).integ = s.integ := rfl
@[simp] theorem modSeg_strait (n : Nat) (f : Segment → Segment) : (modSeg n f s).strait = s.strait := rfl
@[simp] theorem modSeg_out (n : Nat) (f : Segment → Segment) : (modSeg n f s).out = s.out := rfl
@[simp] theorem modSeg_free (n : Nat) (f : Segment → Segment) : (modSeg n f s).free = s.free := rfl

/-! ## modFerry -/

@[simp] theorem modFerry_pending (n : Nat) (f : Ferry → Ferry) : (modFerry n f s).pending = s.pending := rfl
@[simp] theorem modFerry_part816 (n : Nat) (f : Ferry → Ferry) : (modFerry n f s).part816 = s.part816 := rfl
@[simp] theorem modFerry_liquid (n : Nat) (f : Ferry → Ferry) : (modFerry n f s).liquid = s.liquid := rfl
@[simp] theorem modFerry_preloaded (n : Nat) (f : Ferry → Ferry) : (modFerry n f s).preloaded = s.preloaded := rfl
@[simp] theorem modFerry_power (n : Nat) (f : Ferry → Ferry) : (modFerry n f s).power = s.power := rfl
@[simp] theorem modFerry_time (n : Nat) (f : Ferry → Ferry) : (modFerry n f s).time = s.time := rfl
@[simp] theorem modFerry_regs (n : Nat) (f : Ferry → Ferry) : (modFerry n f s).regs = s.regs := rfl
@[simp] theorem modFerry_dict (n : Nat) (f : Ferry → Ferry) : (modFerry n f s).dict = s.dict := rfl
@[simp] theorem modFerry_sec (n : Nat) (f : Ferry → Ferry) : (modFerry n f s).sec = s.sec := rfl
@[simp] theorem modFerry_portU (n : Nat) (f : Ferry → Ferry) : (modFerry n f s).portU = s.portU := rfl
@[simp] theorem modFerry_portD (n : Nat) (f : Ferry → Ferry) : (modFerry n f s).portD = s.portD := rfl
@[simp] theorem modFerry_que (n : Nat) (f : Ferry → Ferry) : (modFerry n f s).que = s.que := rfl
@[simp] theorem modFerry_model (n : Nat) (f : Ferry → Ferry) : (modFerry n f s).model = s.model := rfl
@[simp] theorem modFerry_hbr (n : Nat) (f : Ferry → Ferry) : (modFerry n f s).hbr = s.hbr := rfl
@[simp] theorem modFerry_banks (n : Nat) (f : Ferry → Ferry) : (modFerry n f s).banks = s.banks := rfl
@[simp] theorem modFerry_islands (n : Nat) (f : Ferry → Ferry) : (modFerry n f s).islands = s.islands := rfl
@[simp] theorem modFerry_clusters (n : Nat) (f : Ferry → Ferry) : (modFerry n f s).clusters = s.clusters := rfl
@[simp] theorem modFerry_awl (n : Nat) (f : Ferry → Ferry) : (modFerry n f s).awl = s.awl := rfl
@[simp] theorem modFerry_scheds (n : Nat) (f : Ferry → Ferry) : (modFerry n f s).scheds = s.scheds := rfl
@[simp] theorem modFerry_integ (n : Nat) (f : Ferry → Ferry) : (modFerry n f s).integ = s.integ := rfl
@[simp] theorem modFerry_strait (n : Nat) (f : Ferry → Ferry) : (modFerry n f s).strait = s.strait := rfl
@[simp] theorem modFerry_out (n : Nat) (f : Ferry → Ferry) : (modFerry n f s).out = s.out := rfl
@[simp] theorem modFerry_free (n : Nat) (f : Ferry → Ferry) : (modFerry n f s).free = s.free := rfl

/-! ## modChan -/

@[simp] theorem modChan_pending (n : Nat) (f : Channel → Channel) : (modChan n f s).pending = s.pending := rfl
@[simp] theorem modChan_part816 (n : Nat) (f : Channel → Channel) : (modChan n f s).part816 = s.part816 := rfl
@[simp] theorem modChan_liquid (n : Nat) (f : Channel → Channel) : (modChan n f s).liquid = s.liquid := rfl
@[simp] theorem modChan_preloaded (n : Nat) (f : Channel → Channel) : (modChan n f s).preloaded = s.preloaded := rfl
@[simp] theorem modChan_power (n : Nat) (f : Channel → Channel) : (modChan n f s).power = s.power := rfl
@[simp] theorem modChan_time (n : Nat) (f : Channel → Channel) : (modChan n f s).time = s.time := rfl
@[simp] theorem modChan_regs (n : Nat) (f : Channel → Channel) : (modChan n f s).regs = s.regs := rfl
@[simp] theorem modChan_dict (n : Nat) (f : Channel → Channel) : (modChan n f s).dict = s.dict := rfl
@[simp] theorem modChan_sec (n : Nat) (f : Channel → Channel) : (modChan n f s).sec = s.sec := rfl
@[simp] theorem modChan_portU (n : Nat) (f : Channel → Channel) : (modChan n f s).portU = s.portU := rfl
@[simp] theorem modChan_portD (n : Nat) (f : Channel → Channel) : (modChan n f s).portD = s.portD := rfl
@[simp] theorem modChan_que (n : Nat) (f : Channel → Channel) : (modChan n f s).que = s.que := rfl
@[simp] theorem modChan_model (n : Nat) (f : Channel → Channel) : (modChan n f s).model = s.model := rfl
@[simp] theorem modChan_flow (n : Nat) (f : Channel → Channel) : (modChan n f s).flow = s.flow := rfl
@[simp] theorem modChan_hbr (n : Nat) (f : Channel → Channel) : (modChan n f s).hbr = s.hbr := rfl
@[simp] theorem modChan_banks (n : Nat) (f : Channel → Channel) : (modChan n f s).banks = s.banks := rfl
@[simp] theorem modChan_islands (n : Nat) (f : Channel → Channel) : (modChan n f s).islands = s.islands := rfl
@[simp] theorem modChan_clusters (n : Nat) (f : Channel → Channel) : (modChan n f s).clusters = s.clusters := rfl
@[simp] theorem modChan_scheds (n : Nat) (f : Channel → Channel) : (modChan n f s).scheds = s.scheds := rfl
@[simp] theorem modChan_integ (n : Nat) (f : Channel → Channel) : (modChan n f s).integ = s.integ := rfl
@[simp] theorem modChan_strait (n : Nat) (f : Channel → Channel) : (modChan n f s).strait = s.strait := rfl
@[simp] theorem modChan_out (n : Nat) (f : Channel → Channel) : (modChan n f s).out = s.out := rfl
@[simp] theorem modChan_free (n : Nat) (f : Channel → Channel) : (modChan n f s).free = s.free := rfl

/-! ## modLink -/

@[simp] theorem modLink_pending (n : Nat) (f : Link → Link) : (modLink n f s).pending = s.pending := rfl
@[simp] theorem modLink_part816 (n : Nat) (f : Link → Link) : (modLink n f s).part816 = s.part816 := rfl
@[simp] theorem modLink_liquid (n : Nat) (f : Link → Link) : (modLink n f s).liquid = s.liquid := rfl
@[simp] theorem modLink_preloaded (n : Nat) (f : Link → Link) : (modLink n f s).preloaded = s.preloaded := rfl
@[simp] theorem modLink_power (n : Nat) (f : Link → Link) : (modLink n f s).power = s.power := rfl
@[simp] theorem modLink_time (n : Nat) (f : Link → Link) : (modLink n f s).time = s.time := rfl
@[simp] theorem modLink_regs (n : Nat) (f : Link → Link) : (modLink n f s).regs = s.regs := rfl
@[simp] theorem modLink_dict (n : Nat) (f : Link → Link) : (modLink n f s).dict = s.dict := rfl
@[simp] theorem modLink_sec (n : Nat) (f : Link → Link) : (modLink n f s).sec = s.sec := rfl
@[simp] theorem modLink_portU (n : Nat) (f : Link → Link) : (modLink n f s).portU = s.portU := rfl
@[simp] theorem modLink_portD (n : Nat) (f : Link → Link) : (modLink n f s).portD = s.portD := rfl
@[simp] theorem modLink_que (n : Nat) (f : Link → Link) : (modLink n f s).que = s.que := rfl
@[simp] theorem modLink_model (n : Nat) (f : Link → Link) : (modLink n f s).model = s.model := rfl
@[simp] theorem modLink_flow (n : Nat) (f : Link → Link) : (modLink n f s).flow = s.flow := rfl
@[simp] theorem modLink_hbr (n : Nat) (f : Link → Link) : (modLink n f s).hbr = s.hbr := rfl
@[simp] theorem modLink_banks (n : Nat) (f : Link → Link) : (modLink n f s).banks = s.banks := rfl
@[simp] theorem modLink_islands (n : Nat) (f : Link → Link) : (modLink n f s).islands = s.islands := rfl
@[simp] theorem modLink_clusters (n : Nat) (f : Link → Link) : (modLink n f s).clusters = s.clusters := rfl
@[simp] theorem modLink_awl (n : Nat) (f : Link → Link) : (modLink n f s).awl = s.awl := rfl
@[simp] theorem modLink_scheds (n : Nat) (f : Link → Link) : (modLink n f s).scheds = s.scheds := rfl
@[simp] theorem modLink_integ (n : Nat) (f : Link → Link) : (modLink n f s).integ = s.integ := rfl
@[simp] theorem modLink_out (n : Nat) (f : Link → Link) : (modLink n f s).out = s.out := rfl
@[simp] theorem modLink_free (n : Nat) (f : Link → Link) : (modLink n f s).free = s.free := rfl

/-! ## modDom -/

@[simp] theorem modDom_pending (n : Nat) (f : Domain → Domain) : (modDom n f s).pending = s.pending := rfl
@[simp] theorem modDom_part816 (n : Nat) (f : Domain → Domain) : (modDom n f s).part816 = s.part816 := rfl
@[simp] theorem modDom_liquid (n : Nat) (f : Domain → Domain) : (modDom n f s).liquid = s.liquid := rfl
@[simp] theorem modDom_preloaded (n : Nat) (f : Domain → Domain) : (modDom n f s).preloaded = s.preloaded := rfl
@[simp] theorem modDom_time (n : Nat) (f : Domain → Domain) : (modDom n f s).time = s.time := rfl
@[simp] theorem modDom_regs (n : Nat) (f : Domain → Domain) : (modDom n f s).regs = s.regs := rfl
@[simp] theorem modDom_dict (n : Nat) (f : Domain → Domain) : (modDom n f s).dict = s.dict := rfl
@[simp] theorem modDom_sec (n : Nat) (f : Domain → Domain) : (modDom n f s).sec = s.sec := rfl
@[simp] theorem modDom_portU (n : Nat) (f : Domain → Domain) : (modDom n f s).portU = s.portU := rfl
@[simp] theorem modDom_portD (n : Nat) (f : Domain → Domain) : (modDom n f s).portD = s.portD := rfl
@[simp] theorem modDom_que (n : Nat) (f : Domain → Domain) : (modDom n f s).que = s.que := rfl
@[simp] theorem modDom_model (n : Nat) (f : Domain → Domain) : (modDom n f s).model = s.model := rfl
@[simp] theorem modDom_flow (n : Nat) (f : Domain → Domain) : (modDom n f s).flow = s.flow := rfl
@[simp] theorem modDom_hbr (n : Nat) (f : Domain → Domain) : (modDom n f s).hbr = s.hbr := rfl
@[simp] theorem modDom_banks (n : Nat) (f : Domain → Domain) : (modDom n f s).banks = s.banks := rfl
@[simp] theorem modDom_islands (n : Nat) (f : Domain → Domain) : (modDom n f s).islands = s.islands := rfl
@[simp] theorem modDom_clusters (n : Nat) (f : Domain → Domain) : (modDom n f s).clusters = s.clusters := rfl
@[simp] theorem modDom_awl (n : Nat) (f : Domain → Domain) : (modDom n f s).awl = s.awl := rfl
@[simp] theorem modDom_scheds (n : Nat) (f : Domain → Domain) : (modDom n f s).scheds = s.scheds := rfl
@[simp] theorem modDom_integ (n : Nat) (f : Domain → Domain) : (modDom n f s).integ = s.integ := rfl
@[simp] theorem modDom_strait (n : Nat) (f : Domain → Domain) : (modDom n f s).strait = s.strait := rfl
@[simp] theorem modDom_out (n : Nat) (f : Domain → Domain) : (modDom n f s).out = s.out := rfl
@[simp] theorem modDom_free (n : Nat) (f : Domain → Domain) : (modDom n f s).free = s.free := rfl

/-! ## modDict -/

@[simp] theorem modDict_pending (f : Dict → Dict) : (modDict f s).pending = s.pending := rfl
@[simp] theorem modDict_part816 (f : Dict → Dict) : (modDict f s).part816 = s.part816 := rfl
@[simp] theorem modDict_liquid (f : Dict → Dict) : (modDict f s).liquid = s.liquid := rfl
@[simp] theorem modDict_preloaded (f : Dict → Dict) : (modDict f s).preloaded = s.preloaded := rfl
@[simp] theorem modDict_power (f : Dict → Dict) : (modDict f s).power = s.power := rfl
@[simp] theorem modDict_time (f : Dict → Dict) : (modDict f s).time = s.time := rfl
@[simp] theorem modDict_regs (f : Dict → Dict) : (modDict f s).regs = s.regs := rfl
@[simp] theorem modDict_sec (f : Dict → Dict) : (modDict f s).sec = s.sec := rfl
@[simp] theorem modDict_portU (f : Dict → Dict) : (modDict f s).portU = s.portU := rfl
@[simp] theorem modDict_portD (f : Dict → Dict) : (modDict f s).portD = s.portD := rfl
@[simp] theorem modDict_que (f : Dict → Dict) : (modDict f s).que = s.que := rfl
@[simp] theorem modDict_model (f : Dict → Dict) : (modDict f s).model = s.model := rfl
@[simp] theorem modDict_flow (f : Dict → Dict) : (modDict f s).flow = s.flow := rfl
@[simp] theorem modDict_hbr (f : Dict → Dict) : (modDict f s).hbr = s.hbr := rfl
@[simp] theorem modDict_banks (f : Dict → Dict) : (modDict f s).banks = s.banks := rfl
@[simp] theorem modDict_islands (f : Dict → Dict) : (modDict f s).islands = s.islands := rfl
@[simp] theorem modDict_clusters (f : Dict → Dict) : (modDict f s).clusters = s.clusters := rfl
@[simp] theorem modDict_awl (f : Dict → Dict) : (modDict f s).awl = s.awl := rfl
@[simp] theorem modDict_scheds (f : Dict → Dict) : (modDict f s).scheds = s.scheds := rfl
@[simp] theorem modDict_integ (f : Dict → Dict) : (modDict f s).integ = s.integ := rfl
@[simp] theorem modDict_strait (f : Dict → Dict) : (modDict f s).strait = s.strait := rfl
@[simp] theorem modDict_out (f : Dict → Dict) : (modDict f s).out = s.out := rfl
@[simp] theorem modDict_free (f : Dict → Dict) : (modDict f s).free = s.free := rfl

/-! ## bumpBy -/

@[simp] theorem bumpBy_pending (o n : Nat) : (bumpBy o n s).pending = s.pending := rfl
@[simp] theorem bumpBy_part816 (o n : Nat) : (bumpBy o n s).part816 = s.part816 := rfl
@[simp] theorem bumpBy_liquid (o n : Nat) : (bumpBy o n s).liquid = s.liquid := rfl
@[simp] theorem bumpBy_preloaded (o n : Nat) : (bumpBy o n s).preloaded = s.preloaded := rfl
@[simp] theorem bumpBy_power (o n : Nat) : (bumpBy o n s).power = s.power := rfl
@[simp] theorem bumpBy_time (o n : Nat) : (bumpBy o n s).time = s.time := rfl
@[simp] theorem bumpBy_regs (o n : Nat) : (bumpBy o n s).regs = s.regs := rfl
@[simp] theorem bumpBy_sec (o n : Nat) : (bumpBy o n s).sec = s.sec := rfl
@[simp] theorem bumpBy_portU (o n : Nat) : (bumpBy o n s).portU = s.portU := rfl
@[simp] theorem bumpBy_portD (o n : Nat) : (bumpBy o n s).portD = s.portD := rfl
@[simp] theorem bumpBy_que (o n : Nat) : (bumpBy o n s).que = s.que := rfl
@[simp] theorem bumpBy_model (o n : Nat) : (bumpBy o n s).model = s.model := rfl
@[simp] theorem bumpBy_flow (o n : Nat) : (bumpBy o n s).flow = s.flow := rfl
@[simp] theorem bumpBy_hbr (o n : Nat) : (bumpBy o n s).hbr = s.hbr := rfl
@[simp] theorem bumpBy_banks (o n : Nat) : (bumpBy o n s).banks = s.banks := rfl
@[simp] theorem bumpBy_islands (o n : Nat) : (bumpBy o n s).islands = s.islands := rfl
@[simp] theorem bumpBy_clusters (o n : Nat) : (bumpBy o n s).clusters = s.clusters := rfl
@[simp] theorem bumpBy_awl (o n : Nat) : (bumpBy o n s).awl = s.awl := rfl
@[simp] theorem bumpBy_scheds (o n : Nat) : (bumpBy o n s).scheds = s.scheds := rfl
@[simp] theorem bumpBy_integ (o n : Nat) : (bumpBy o n s).integ = s.integ := rfl
@[simp] theorem bumpBy_strait (o n : Nat) : (bumpBy o n s).strait = s.strait := rfl
@[simp] theorem bumpBy_out (o n : Nat) : (bumpBy o n s).out = s.out := rfl
@[simp] theorem bumpBy_free (o n : Nat) : (bumpBy o n s).free = s.free := rfl

/-! ## bump -/

@[simp] theorem bump_pending (o : Nat) : (bump o s).pending = s.pending := rfl
@[simp] theorem bump_part816 (o : Nat) : (bump o s).part816 = s.part816 := rfl
@[simp] theorem bump_liquid (o : Nat) : (bump o s).liquid = s.liquid := rfl
@[simp] theorem bump_preloaded (o : Nat) : (bump o s).preloaded = s.preloaded := rfl
@[simp] theorem bump_power (o : Nat) : (bump o s).power = s.power := rfl
@[simp] theorem bump_time (o : Nat) : (bump o s).time = s.time := rfl
@[simp] theorem bump_regs (o : Nat) : (bump o s).regs = s.regs := rfl
@[simp] theorem bump_sec (o : Nat) : (bump o s).sec = s.sec := rfl
@[simp] theorem bump_portU (o : Nat) : (bump o s).portU = s.portU := rfl
@[simp] theorem bump_portD (o : Nat) : (bump o s).portD = s.portD := rfl
@[simp] theorem bump_que (o : Nat) : (bump o s).que = s.que := rfl
@[simp] theorem bump_model (o : Nat) : (bump o s).model = s.model := rfl
@[simp] theorem bump_flow (o : Nat) : (bump o s).flow = s.flow := rfl
@[simp] theorem bump_hbr (o : Nat) : (bump o s).hbr = s.hbr := rfl
@[simp] theorem bump_banks (o : Nat) : (bump o s).banks = s.banks := rfl
@[simp] theorem bump_islands (o : Nat) : (bump o s).islands = s.islands := rfl
@[simp] theorem bump_clusters (o : Nat) : (bump o s).clusters = s.clusters := rfl
@[simp] theorem bump_awl (o : Nat) : (bump o s).awl = s.awl := rfl
@[simp] theorem bump_scheds (o : Nat) : (bump o s).scheds = s.scheds := rfl
@[simp] theorem bump_integ (o : Nat) : (bump o s).integ = s.integ := rfl
@[simp] theorem bump_strait (o : Nat) : (bump o s).strait = s.strait := rfl
@[simp] theorem bump_out (o : Nat) : (bump o s).out = s.out := rfl
@[simp] theorem bump_free (o : Nat) : (bump o s).free = s.free := rfl

/-! ## send -/

@[simp] theorem send_pending (m : OutMsg) : (send m s).pending = s.pending := rfl
@[simp] theorem send_part816 (m : OutMsg) : (send m s).part816 = s.part816 := rfl
@[simp] theorem send_liquid (m : OutMsg) : (send m s).liquid = s.liquid := rfl
@[simp] theorem send_preloaded (m : OutMsg) : (send m s).preloaded = s.preloaded := rfl
@[simp] theorem send_power (m : OutMsg) : (send m s).power = s.power := rfl
@[simp] theorem send_time (m : OutMsg) : (send m s).time = s.time := rfl
@[simp] theorem send_regs (m : OutMsg) : (send m s).regs = s.regs := rfl
@[simp] theorem send_dict (m : OutMsg) : (send m s).dict = s.dict := rfl
@[simp] theorem send_sec (m : OutMsg) : (send m s).sec = s.sec := rfl
@[simp] theorem send_portU (m : OutMsg) : (send m s).portU = s.portU := rfl
@[simp] theorem send_portD (m : OutMsg) : (send m s).portD = s.portD := rfl
@[simp] theorem send_que (m : OutMsg) : (send m s).que = s.que := rfl
@[simp] theorem send_model (m : OutMsg) : (send m s).model = s.model := rfl
@[simp] theorem send_flow (m : OutMsg) : (send m s).flow = s.flow := rfl
@[simp] theorem send_hbr (m : OutMsg) : (send m s).hbr = s.hbr := rfl
@[simp] theorem send_banks (m : OutMsg) : (send m s).banks = s.banks := rfl
@[simp] theorem send_islands (m : OutMsg) : (send m s).islands = s.islands := rfl
@[simp] theorem send_clusters (m : OutMsg) : (send m s).clusters = s.clusters := rfl
@[simp] theorem send_awl (m : OutMsg) : (send m s).awl = s.awl := rfl
@[simp] theorem send_scheds (m : OutMsg) : (send m s).scheds = s.scheds := rfl
@[simp] theorem send_integ (m : OutMsg) : (send m s).integ = s.integ := rfl
@[simp] theorem send_strait (m : OutMsg) : (send m s).strait = s.strait := rfl
@[simp] theorem send_free (m : OutMsg) : (send m s).free = s.free := rfl

/-! ## cause -/

@[simp] theorem cause_pending (k : Nat) : (cause k s).pending = s.pending := rfl
@[simp] theorem cause_part816 (k : Nat) : (cause k s).part816 = s.part816 := rfl
@[simp] theorem cause_liquid (k : Nat) : (cause k s).liquid = s.liquid := rfl
@[simp] theorem cause_preloaded (k : Nat) : (cause k s).preloaded = s.preloaded := rfl
@[simp] theorem cause_power (k : Nat) : (cause k s).power = s.power := rfl
@[simp] theorem cause_time (k : Nat) : (cause k s).time = s.time := rfl
@[simp] theorem cause_dict (k : Nat) : (cause k s).dict = s.dict := rfl
@[simp] theorem cause_sec (k : Nat) : (cause k s).sec = s.sec := rfl
@[simp] theorem cause_portU (k : Nat) : (cause k s).portU = s.portU := rfl
@[simp] theorem cause_portD (k : Nat) : (cause k s).portD = s.portD := rfl
@[simp] theorem cause_que (k : Nat) : (cause k s).que = s.que := rfl
@[simp] theorem cause_model (k : Nat) : (cause k s).model = s.model := rfl
@[simp] theorem cause_flow (k : Nat) : (cause k s).flow = s.flow := rfl
@[simp] theorem cause_hbr (k : Nat) : (cause k s).hbr = s.hbr := rfl
@[simp] theorem cause_banks (k : Nat) : (cause k s).banks = s.banks := rfl
@[simp] theorem cause_islands (k : Nat) : (cause k s).islands = s.islands := rfl
@[simp] theorem cause_clusters (k : Nat) : (cause k s).clusters = s.clusters := rfl
@[simp] theorem cause_awl (k : Nat) : (cause k s).awl = s.awl := rfl
@[simp] theorem cause_scheds (k : Nat) : (cause k s).scheds = s.scheds := rfl
@[simp] theorem cause_integ (k : Nat) : (cause k s).integ = s.integ := rfl
@[simp] theorem cause_strait (k : Nat) : (cause k s).strait = s.strait := rfl
@[simp] theorem cause_out (k : Nat) : (cause k s).out = s.out := rfl
@[simp] theorem cause_free (k : Nat) : (cause k s).free = s.free := rfl

/-! ## sample -/

@[simp] theorem sample_pending (o u v : Nat) : (sample o u v s).pending = s.pending := rfl
@[simp] theorem sample_part816 (o u v : Nat) : (sample o u v s).part816 = s.part816 := rfl
@[simp] theorem sample_liquid (o u v : Nat) : (sample o u v s).liquid = s.liquid := rfl
@[simp] theorem sample_preloaded (o u v : Nat) : (sample o u v s).preloaded = s.preloaded := rfl
@[simp] theorem sample_power (o u v : Nat) : (sample o u v s).power = s.power := rfl
@[simp] theorem sample_time (o u v : Nat) : (sample o u v s).time = s.time := rfl
@[simp] theorem sample_regs (o u v : Nat) : (sample o u v s).regs = s.regs := rfl
@[simp] theorem sample_sec (o u v : Nat) : (sample o u v s).sec = s.sec := rfl
@[simp] theorem sample_portU (o u v : Nat) : (sample o u v s).portU = s.portU := rfl
@[simp] theorem sample_portD (o u v : Nat) : (sample o u v s).portD = s.portD := rfl
@[simp] theorem sample_que (o u v : Nat) : (sample o u v s).que = s.que := rfl
@[simp] theorem sample_model (o u v : Nat) : (sample o u v s).model = s.model := rfl
@[simp] theorem sample_flow (o u v : Nat) : (sample o u v s).flow = s.flow := rfl
@[simp] theorem sample_hbr (o u v : Nat) : (sample o u v s).hbr = s.hbr := rfl
@[simp] theorem sample_banks (o u v : Nat) : (sample o u v s).banks = s.banks := rfl
@[simp] theorem sample_islands (o u v : Nat) : (sample o u v s).islands = s.islands := rfl
@[simp] theorem sample_clusters (o u v : Nat) : (sample o u v s).clusters = s.clusters := rfl
@[simp] theorem sample_awl (o u v : Nat) : (sample o u v s).awl = s.awl := rfl
@[simp] theorem sample_scheds (o u v : Nat) : (sample o u v s).scheds = s.scheds := rfl
@[simp] theorem sample_integ (o u v : Nat) : (sample o u v s).integ = s.integ := rfl
@[simp] theorem sample_strait (o u v : Nat) : (sample o u v s).strait = s.strait := rfl
@[simp] theorem sample_out (o u v : Nat) : (sample o u v s).out = s.out := rfl
@[simp] theorem sample_free (o u v : Nat) : (sample o u v s).free = s.free := rfl

/-! ## setHistory -/

@[simp] theorem setHistory_pending (k : UnitKind) (n : Nat) (h : History) : (setHistory k n h s).pending = s.pending := rfl
@[simp] theorem setHistory_part816 (k : UnitKind) (n : Nat) (h : History) : (setHistory k n h s).part816 = s.part816 := rfl
@[simp] theorem setHistory_liquid (k : UnitKind) (n : Nat) (h : History) : (setHistory k n h s).liquid = s.liquid := rfl
@[simp] theorem setHistory_preloaded (k : UnitKind) (n : Nat) (h : History) : (setHistory k n h s).preloaded = s.preloaded := rfl
@[simp] theorem setHistory_power (k : UnitKind) (n : Nat) (h : History) : (setHistory k n h s).power = s.power := rfl
@[simp] theorem setHistory_time (k : UnitKind) (n : Nat) (h : History) : (setHistory k n h s).time = s.time := rfl
@[simp] theorem setHistory_regs (k : UnitKind) (n : Nat) (h : History) : (setHistory k n h s).regs = s.regs := rfl
@[simp] theorem setHistory_dict (k : UnitKind) (n : Nat) (h : History) : (setHistory k n h s).dict = s.dict := rfl
@[simp] theorem setHistory_sec (k : UnitKind) (n : Nat) (h : History) : (setHistory k n h s).sec = s.sec := rfl
@[simp] theorem setHistory_portU (k : UnitKind) (n : Nat) (h : History) : (setHistory k n h s).portU = s.portU := rfl
@[simp] theorem setHistory_portD (k : UnitKind) (n : Nat) (h : History) : (setHistory k n h s).portD = s.portD := rfl
@[simp] theorem setHistory_que (k : UnitKind) (n : Nat) (h : History) : (setHistory k n h s).que = s.que := rfl
@[simp] theorem setHistory_model (k : UnitKind) (n : Nat) (h : History) : (setHistory k n h s).model = s.model := rfl
@[simp] theorem setHistory_flow (k : UnitKind) (n : Nat) (h : History) : (setHistory k n h s).flow = s.flow := rfl
@[simp] theorem setHistory_hbr (k : UnitKind) (n : Nat) (h : History) : (setHistory k n h s).hbr = s.hbr := rfl
@[simp] theorem setHistory_banks (k : UnitKind) (n : Nat) (h : History) : (setHistory k n h s).banks = s.banks := rfl
@[simp] theorem setHistory_islands (k : UnitKind) (n : Nat) (h : History) : (setHistory k n h s).islands = s.islands := rfl
@[simp] theorem setHistory_clusters (k : UnitKind) (n : Nat) (h : History) : (setHistory k n h s).clusters = s.clusters := rfl
@[simp] theorem setHistory_awl (k : UnitKind) (n : Nat) (h : History) : (setHistory k n h s).awl = s.awl := rfl
@[simp] theorem setHistory_scheds (k : UnitKind) (n : Nat) (h : History) : (setHistory k n h s).scheds = s.scheds := rfl
@[simp] theorem setHistory_strait (k : UnitKind) (n : Nat) (h : History) : (setHistory k n h s).strait = s.strait := rfl
@[simp] theorem setHistory_out (k : UnitKind) (n : Nat) (h : History) : (setHistory k n h s).out = s.out := rfl
@[simp] theorem setHistory_free (k : UnitKind) (n : Nat) (h : History) : (setHistory k n h s).free = s.free := rfl

/-! ## modBucket -/

@[simp] theorem modBucket_pending (k : Nat) (f : Bucket → Bucket) : (modBucket k f s).pending = s.pending := rfl
@[simp] theorem modBucket_part816 (k : Nat) (f : Bucket → Bucket) : (modBucket k f s).part816 = s.part816 := rfl
@[simp] theorem modBucket_liquid (k : Nat) (f : Bucket → Bucket) : (modBucket k f s).liquid = s.liquid := rfl
@[simp] theorem modBucket_preloaded (k : Nat) (f : Bucket → Bucket) : (modBucket k f s).preloaded = s.preloaded := rfl
@[simp] theorem modBucket_power (k : Nat) (f : Bucket → Bucket) : (modBucket k f s).power = s.power := rfl
@[simp] theorem modBucket_time (k : Nat) (f : Bucket → Bucket) : (modBucket k f s).time = s.time := rfl
@[simp] theorem modBucket_regs (k : Nat) (f : Bucket → Bucket) : (modBucket k f s).regs = s.regs := rfl
@[simp] theorem modBucket_dict (k : Nat) (f : Bucket → Bucket) : (modBucket k f s).dict = s.dict := rfl
@[simp] theorem modBucket_sec (k : Nat) (f : Bucket → Bucket) : (modBucket k f s).sec = s.sec := rfl
@[simp] theorem modBucket_portU (k : Nat) (f : Bucket → Bucket) : (modBucket k f s).portU = s.portU := rfl
@[simp] theorem modBucket_portD (k : Nat) (f : Bucket → Bucket) : (modBucket k f s).portD = s.portD := rfl
@[simp] theorem modBucket_que (k : Nat) (f : Bucket → Bucket) : (modBucket k f s).que = s.que := rfl
@[simp] theorem modBucket_model (k : Nat) (f : Bucket → Bucket) : (modBucket k f s).model = s.model := rfl
@[simp] theorem modBucket_flow (k : Nat) (f : Bucket → Bucket) : (modBucket k f s).flow = s.flow := rfl
@[simp] theorem modBucket_hbr (k : Nat) (f : Bucket → Bucket) : (modBucket k f s).hbr = s.hbr := rfl
@[simp] theorem modBucket_banks (k : Nat) (f : Bucket → Bucket) : (modBucket k f s).banks = s.banks := rfl
@[simp] theorem modBucket_islands (k : Nat) (f : Bucket → Bucket) : (modBucket k f s).islands = s.islands := rfl
@[simp] theorem modBucket_clusters (k : Nat) (f : Bucket → Bucket) : (modBucket k f s).clusters = s.clusters := rfl
@[simp] theorem modBucket_awl (k : Nat) (f : Bucket → Bucket) : (modBucket k f s).awl = s.awl := rfl
@[simp] theorem modBucket_scheds (k : Nat) (f : Bucket → Bucket) : (modBucket k f s).scheds = s.scheds := rfl
@[simp] theorem modBucket_strait (k : Nat) (f : Bucket → Bucket) : (modBucket k f s).strait = s.strait := rfl
@[simp] theorem modBucket_out (k : Nat) (f : Bucket → Bucket) : (modBucket k f s).out = s.out := rfl
@[simp] theorem modBucket_free (k : Nat) (f : Bucket → Bucket) : (modBucket k f s).free = s.free := rfl

/-! ## storeTotal -/

@[simp] theorem storeTotal_pending : (storeTotal s).pending = s.pending := rfl
@[simp] theorem storeTotal_part816 : (storeTotal s).part816 = s.part816 := rfl
@[simp] theorem storeTotal_liquid : (storeTotal s).liquid = s.liquid := rfl
@[simp] theorem storeTotal_preloaded : (storeTotal s).preloaded = s.preloaded := rfl
@[simp] theorem storeTotal_power : (storeTotal s).power = s.power := rfl
@[simp] theorem storeTotal_regs : (storeTotal s).regs = s.regs := rfl
@[simp] theorem storeTotal_dict : (storeTotal s).dict = s.dict := rfl
@[simp] theorem storeTotal_sec : (storeTotal s).sec = s.sec := rfl
@[simp] theorem storeTotal_portU : (storeTotal s).portU = s.portU := rfl
@[simp] theorem storeTotal_portD : (storeTotal s).portD = s.portD := rfl
@[simp] theorem storeTotal_que : (storeTotal s).que = s.que := rfl
@[simp] theorem storeTotal_model : (storeTotal s).model = s.model := rfl
@[simp] theorem storeTotal_flow : (storeTotal s).flow = s.flow := rfl
@[simp] theorem storeTotal_hbr : (storeTotal s).hbr = s.hbr := rfl
@[simp] theorem storeTotal_banks : (storeTotal s).banks = s.banks := rfl
@[simp] theorem storeTotal_islands : (storeTotal s).islands = s.islands := rfl
@[simp] theorem storeTotal_clusters : (storeTotal s).clusters = s.clusters := rfl
@[simp] theorem storeTotal_awl : (storeTotal s).awl = s.awl := rfl
@[simp] theorem storeTotal_scheds : (storeTotal s).scheds = s.scheds := rfl
@[simp] theorem storeTotal_integ : (storeTotal s).integ = s.integ := rfl
@[simp] theorem storeTotal_strait : (storeTotal s).strait = s.strait := rfl
@[simp] theorem storeTotal_out : (storeTotal s).out = s.out := rfl
@[simp] theorem storeTotal_free : (storeTotal s).free = s.free := rfl

/-! ## assertFault -/

@[simp] theorem assertFault_pending : (assertFault s).pending = s.pending := rfl
@[simp] theorem assertFault_part816 : (assertFault s).part816 = s.part816 := rfl
@[simp] theorem assertFault_liquid : (assertFault s).liquid = s.liquid := rfl
@[simp] theorem assertFault_preloaded : (assertFault s).preloaded = s.preloaded := rfl
@[simp] theorem assertFault_time : (assertFault s).time = s.time := rfl
@[simp] theorem assertFault_regs : (assertFault s).regs = s.regs := rfl
@[simp] theorem assertFault_dict : (assertFault s).dict = s.dict := rfl
@[simp] theorem assertFault_sec : (assertFault s).sec = s.sec := rfl
@[simp] theorem assertFault_portU : (assertFault s).portU = s.portU := rfl
@[simp] theorem assertFault_portD : (assertFault s).portD = s.portD := rfl
@[simp] theorem assertFault_que : (assertFault s).que = s.que := rfl
@[simp] theorem assertFault_model : (assertFault s).model = s.model := rfl
@[simp] theorem assertFault_flow : (assertFault s).flow = s.flow := rfl
@[simp] theorem assertFault_hbr : (assertFault s).hbr = s.hbr := rfl
@[simp] theorem assertFault_banks : (assertFault s).banks = s.banks := rfl
@[simp] theorem assertFault_islands : (assertFault s).islands = s.islands := rfl
@[simp] theorem assertFault_clusters : (assertFault s).clusters = s.clusters := rfl
@[simp] theorem assertFault_awl : (assertFault s).awl = s.awl := rfl
@[simp] theorem assertFault_scheds : (assertFault s).scheds = s.scheds := rfl
@[simp] theorem assertFault_integ : (assertFault s).integ = s.integ := rfl
@[simp] theorem assertFault_strait : (assertFault s).strait = s.strait := rfl
@[simp] theorem assertFault_out : (assertFault s).out = s.out := rfl
@[simp] theorem assertFault_free : (assertFault s).free = s.free := rfl

/-! ## faultRecord -/

@[simp] theorem faultRecord_pending (e : Event) : (faultRecord e s).pending = s.pending := rfl
@[simp] theorem faultRecord_part816 (e : Event) : (faultRecord e s).part816 = s.part816 := rfl
@[simp] theorem faultRecord_liquid (e : Event) : (faultRecord e s).liquid = s.liquid := rfl
@[simp] theorem faultRecord_preloaded (e : Event) : (faultRecord e s).preloaded = s.preloaded := rfl
@[simp] theorem faultRecord_power (e : Event) : (faultRecord e s).power = s.power := rfl
@[simp] theorem faultRecord_time (e : Event) : (faultRecord e s).time = s.time := rfl
@[simp] theorem faultRecord_regs (e : Event) : (faultRecord e s).regs = s.regs := rfl
@[simp] theorem faultRecord_sec (e : Event) : (faultRecord e s).sec = s.sec := rfl
@[simp] theorem faultRecord_portU (e : Event) : (faultRecord e s).portU = s.portU := rfl
@[simp] theorem faultRecord_portD (e : Event) : (faultRecord e s).portD = s.portD := rfl
@[simp] theorem faultRecord_que (e : Event) : (faultRecord e s).que = s.que := rfl
@[simp] theorem faultRecord_model (e : Event) : (faultRecord e s).model = s.model := rfl
@[simp] theorem faultRecord_flow (e : Event) : (faultRecord e s).flow = s.flow := rfl
@[simp] theorem faultRecord_hbr (e : Event) : (faultRecord e s).hbr = s.hbr := rfl
@[simp] theorem faultRecord_banks (e : Event) : (faultRecord e s).banks = s.banks := rfl
@[simp] theorem faultRecord_islands (e : Event) : (faultRecord e s).islands = s.islands := rfl
@[simp] theorem faultRecord_clusters (e : Event) : (faultRecord e s).clusters = s.clusters := rfl
@[simp] theorem faultRecord_awl (e : Event) : (faultRecord e s).awl = s.awl := rfl
@[simp] theorem faultRecord_scheds (e : Event) : (faultRecord e s).scheds = s.scheds := rfl
@[simp] theorem faultRecord_integ (e : Event) : (faultRecord e s).integ = s.integ := rfl
@[simp] theorem faultRecord_strait (e : Event) : (faultRecord e s).strait = s.strait := rfl
@[simp] theorem faultRecord_out (e : Event) : (faultRecord e s).out = s.out := rfl
@[simp] theorem faultRecord_free (e : Event) : (faultRecord e s).free = s.free := rfl

/-! ## rearmAlarm -/

@[simp] theorem rearmAlarm_pending : (rearmAlarm s).pending = s.pending := rfl
@[simp] theorem rearmAlarm_part816 : (rearmAlarm s).part816 = s.part816 := rfl
@[simp] theorem rearmAlarm_liquid : (rearmAlarm s).liquid = s.liquid := rfl
@[simp] theorem rearmAlarm_preloaded : (rearmAlarm s).preloaded = s.preloaded := rfl
@[simp] theorem rearmAlarm_power : (rearmAlarm s).power = s.power := rfl
@[simp] theorem rearmAlarm_time : (rearmAlarm s).time = s.time := rfl
@[simp] theorem rearmAlarm_dict : (rearmAlarm s).dict = s.dict := rfl
@[simp] theorem rearmAlarm_sec : (rearmAlarm s).sec = s.sec := rfl
@[simp] theorem rearmAlarm_portU : (rearmAlarm s).portU = s.portU := rfl
@[simp] theorem rearmAlarm_portD : (rearmAlarm s).portD = s.portD := rfl
@[simp] theorem rearmAlarm_que : (rearmAlarm s).que = s.que := rfl
@[simp] theorem rearmAlarm_model : (rearmAlarm s).model = s.model := rfl
@[simp] theorem rearmAlarm_flow : (rearmAlarm s).flow = s.flow := rfl
@[simp] theorem rearmAlarm_hbr : (rearmAlarm s).hbr = s.hbr := rfl
@[simp] theorem rearmAlarm_banks : (rearmAlarm s).banks = s.banks := rfl
@[simp] theorem rearmAlarm_islands : (rearmAlarm s).islands = s.islands := rfl
@[simp] theorem rearmAlarm_clusters : (rearmAlarm s).clusters = s.clusters := rfl
@[simp] theorem rearmAlarm_awl : (rearmAlarm s).awl = s.awl := rfl
@[simp] theorem rearmAlarm_scheds : (rearmAlarm s).scheds = s.scheds := rfl
@[simp] theorem rearmAlarm_integ : (rearmAlarm s).integ = s.integ := rfl
@[simp] theorem rearmAlarm_strait : (rearmAlarm s).strait = s.strait := rfl
@[simp] theorem rearmAlarm_out : (rearmAlarm s).out = s.out := rfl
@[simp] theorem rearmAlarm_free : (rearmAlarm s).free = s.free := rfl

/-! ## Fields beside the one written -/

@[simp] theorem modSlot_model_images (n : Nat) (f : Slot → Slot) : (modSlot n f s).model.images = s.model.images := rfl
@[simp] theorem modSlot_model_loads (n : Nat) (f : Slot → Slot) : (modSlot n f s).model.loads = s.model.loads := rfl
@[simp] theorem modSlot_model_adapters (n : Nat) (f : Slot → Slot) : (modSlot n f s).model.adapters = s.model.adapters := rfl
@[simp] theorem modSlot_model_pool (n : Nat) (f : Slot → Slot) : (modSlot n f s).model.pool = s.model.pool := rfl
@[simp] theorem modSlot_model_cache (n : Nat) (f : Slot → Slot) : (modSlot n f s).model.cache = s.model.cache := rfl
@[simp] theorem modSlot_model_launches (n : Nat) (f : Slot → Slot) : (modSlot n f s).model.launches = s.model.launches := rfl
@[simp] theorem modSlot_model_nextLaunch (n : Nat) (f : Slot → Slot) : (modSlot n f s).model.nextLaunch = s.model.nextLaunch := rfl
@[simp] theorem modSlot_model_covers (n : Nat) (f : Slot → Slot) : (modSlot n f s).model.covers = s.model.covers := rfl

@[simp] theorem modPair_que_cmds (n : Nat) (f : QPair → QPair) : (modPair n f s).que.cmds = s.que.cmds := rfl
@[simp] theorem modPair_que_nextOrder (n : Nat) (f : QPair → QPair) : (modPair n f s).que.nextOrder = s.que.nextOrder := rfl
@[simp] theorem modPair_que_reqs (n : Nat) (f : QPair → QPair) : (modPair n f s).que.reqs = s.que.reqs := rfl
@[simp] theorem modPair_que_closing (n : Nat) (f : QPair → QPair) : (modPair n f s).que.closing = s.que.closing := rfl
@[simp] theorem modPair_que_lastPair (n : Nat) (f : QPair → QPair) : (modPair n f s).que.lastPair = s.que.lastPair := rfl
@[simp] theorem modPair_que_burst (n : Nat) (f : QPair → QPair) : (modPair n f s).que.burst = s.que.burst := rfl
@[simp] theorem modPair_que_parked (n : Nat) (f : QPair → QPair) : (modPair n f s).que.parked = s.que.parked := rfl
@[simp] theorem modPair_que_groups (n : Nat) (f : QPair → QPair) : (modPair n f s).que.groups = s.que.groups := rfl
@[simp] theorem modPair_que_kv (n : Nat) (f : QPair → QPair) : (modPair n f s).que.kv = s.que.kv := rfl
@[simp] theorem modPair_que_held (n : Nat) (f : QPair → QPair) : (modPair n f s).que.held = s.que.held := rfl

@[simp] theorem modSeg_hbr_data (n : Nat) (f : Segment → Segment) : (modSeg n f s).hbr.data = s.hbr.data := rfl
@[simp] theorem modSeg_hbr_dev (n : Nat) (f : Segment → Segment) : (modSeg n f s).hbr.dev = s.hbr.dev := rfl
@[simp] theorem modSeg_hbr_valid (n : Nat) (f : Segment → Segment) : (modSeg n f s).hbr.valid = s.hbr.valid := rfl
@[simp] theorem modSeg_hbr_clears (n : Nat) (f : Segment → Segment) : (modSeg n f s).hbr.clears = s.hbr.clears := rfl
@[simp] theorem modSeg_hbr_waiting (n : Nat) (f : Segment → Segment) : (modSeg n f s).hbr.waiting = s.hbr.waiting := rfl
@[simp] theorem modSeg_hbr_windows (n : Nat) (f : Segment → Segment) : (modSeg n f s).hbr.windows = s.hbr.windows := rfl
@[simp] theorem modSeg_hbr_cleared (n : Nat) (f : Segment → Segment) : (modSeg n f s).hbr.cleared = s.hbr.cleared := rfl
@[simp] theorem modSeg_hbr_split (n : Nat) (f : Segment → Segment) : (modSeg n f s).hbr.split = s.hbr.split := rfl

@[simp] theorem modFerry_flow_waiting (n : Nat) (f : Ferry → Ferry) : (modFerry n f s).flow.waiting = s.flow.waiting := rfl
@[simp] theorem modFerry_flow_nextOrder (n : Nat) (f : Ferry → Ferry) : (modFerry n f s).flow.nextOrder = s.flow.nextOrder := rfl
@[simp] theorem modFerry_flow_laces (n : Nat) (f : Ferry → Ferry) : (modFerry n f s).flow.laces = s.flow.laces := rfl
@[simp] theorem modFerry_flow_pools (n : Nat) (f : Ferry → Ferry) : (modFerry n f s).flow.pools = s.flow.pools := rfl
@[simp] theorem modFerry_flow_clearing (n : Nat) (f : Ferry → Ferry) : (modFerry n f s).flow.clearing = s.flow.clearing := rfl
@[simp] theorem modFerry_flow_recomputeHolds (n : Nat) (f : Ferry → Ferry) : (modFerry n f s).flow.recomputeHolds = s.flow.recomputeHolds := rfl
@[simp] theorem modFerry_flow_unacked (n : Nat) (f : Ferry → Ferry) : (modFerry n f s).flow.unacked = s.flow.unacked := rfl

@[simp] theorem modChan_awl_fifo (n : Nat) (f : Channel → Channel) : (modChan n f s).awl.fifo = s.awl.fifo := rfl
@[simp] theorem modChan_awl_ctrl (n : Nat) (f : Channel → Channel) : (modChan n f s).awl.ctrl = s.awl.ctrl := rfl
@[simp] theorem modChan_awl_nextOrder (n : Nat) (f : Channel → Channel) : (modChan n f s).awl.nextOrder = s.awl.nextOrder := rfl
@[simp] theorem modChan_awl_paused (n : Nat) (f : Channel → Channel) : (modChan n f s).awl.paused = s.awl.paused := rfl

@[simp] theorem modLink_strait_members (n : Nat) (f : Link → Link) : (modLink n f s).strait.members = s.strait.members := rfl
@[simp] theorem modLink_strait_refused (n : Nat) (f : Link → Link) : (modLink n f s).strait.refused = s.strait.refused := rfl
@[simp] theorem modLink_strait_manifests (n : Nat) (f : Link → Link) : (modLink n f s).strait.manifests = s.strait.manifests := rfl
@[simp] theorem modLink_strait_collected (n : Nat) (f : Link → Link) : (modLink n f s).strait.collected = s.strait.collected := rfl
@[simp] theorem modLink_strait_gangs (n : Nat) (f : Link → Link) : (modLink n f s).strait.gangs = s.strait.gangs := rfl
@[simp] theorem modLink_strait_listed (n : Nat) (f : Link → Link) : (modLink n f s).strait.listed = s.strait.listed := rfl
@[simp] theorem modLink_strait_disagreeSince (n : Nat) (f : Link → Link) : (modLink n f s).strait.disagreeSince = s.strait.disagreeSince := rfl
@[simp] theorem modLink_strait_left (n : Nat) (f : Link → Link) : (modLink n f s).strait.left = s.strait.left := rfl
@[simp] theorem modLink_strait_aligned (n : Nat) (f : Link → Link) : (modLink n f s).strait.aligned = s.strait.aligned := rfl
@[simp] theorem modLink_strait_gone (n : Nat) (f : Link → Link) : (modLink n f s).strait.gone = s.strait.gone := rfl
@[simp] theorem modLink_strait_reports (n : Nat) (f : Link → Link) : (modLink n f s).strait.reports = s.strait.reports := rfl
@[simp] theorem modLink_strait_agreed (n : Nat) (f : Link → Link) : (modLink n f s).strait.agreed = s.strait.agreed := rfl
@[simp] theorem modLink_strait_measures (n : Nat) (f : Link → Link) : (modLink n f s).strait.measures = s.strait.measures := rfl
@[simp] theorem modLink_strait_joining (n : Nat) (f : Link → Link) : (modLink n f s).strait.joining = s.strait.joining := rfl
@[simp] theorem modLink_strait_thetas (n : Nat) (f : Link → Link) : (modLink n f s).strait.thetas = s.strait.thetas := rfl
@[simp] theorem modLink_strait_theta (n : Nat) (f : Link → Link) : (modLink n f s).strait.theta = s.strait.theta := rfl
@[simp] theorem modLink_strait_mcasts (n : Nat) (f : Link → Link) : (modLink n f s).strait.mcasts = s.strait.mcasts := rfl

@[simp] theorem modDom_power_phase (n : Nat) (f : Domain → Domain) : (modDom n f s).power.phase = s.power.phase := rfl
@[simp] theorem modDom_power_rails (n : Nat) (f : Domain → Domain) : (modDom n f s).power.rails = s.power.rails := rfl
@[simp] theorem modDom_power_pwrGood (n : Nat) (f : Domain → Domain) : (modDom n f s).power.pwrGood = s.power.pwrGood := rfl
@[simp] theorem modDom_power_faultN (n : Nat) (f : Domain → Domain) : (modDom n f s).power.faultN = s.power.faultN := rfl
@[simp] theorem modDom_power_thermN (n : Nat) (f : Domain → Domain) : (modDom n f s).power.thermN = s.power.thermN := rfl
@[simp] theorem modDom_power_tripped (n : Nat) (f : Domain → Domain) : (modDom n f s).power.tripped = s.power.tripped := rfl
@[simp] theorem modDom_power_moduleFault (n : Nat) (f : Domain → Domain) : (modDom n f s).power.moduleFault = s.power.moduleFault := rfl
@[simp] theorem modDom_power_unplaceable (n : Nat) (f : Domain → Domain) : (modDom n f s).power.unplaceable = s.power.unplaceable := rfl
@[simp] theorem modDom_power_waiting (n : Nat) (f : Domain → Domain) : (modDom n f s).power.waiting = s.power.waiting := rfl
@[simp] theorem modDom_power_nextOrder (n : Nat) (f : Domain → Domain) : (modDom n f s).power.nextOrder = s.power.nextOrder := rfl
@[simp] theorem modDom_power_shankCharged (n : Nat) (f : Domain → Domain) : (modDom n f s).power.shankCharged = s.power.shankCharged := rfl
@[simp] theorem modDom_power_standing (n : Nat) (f : Domain → Domain) : (modDom n f s).power.standing = s.power.standing := rfl
@[simp] theorem modDom_power_theta (n : Nat) (f : Domain → Domain) : (modDom n f s).power.theta = s.power.theta := rfl
@[simp] theorem modDom_power_samples (n : Nat) (f : Domain → Domain) : (modDom n f s).power.samples = s.power.samples := rfl
@[simp] theorem modDom_power_logicHot (n : Nat) (f : Domain → Domain) : (modDom n f s).power.logicHot = s.power.logicHot := rfl
@[simp] theorem modDom_power_retSince (n : Nat) (f : Domain → Domain) : (modDom n f s).power.retSince = s.power.retSince := rfl
@[simp] theorem modDom_power_retHot (n : Nat) (f : Domain → Domain) : (modDom n f s).power.retHot = s.power.retHot := rfl
@[simp] theorem modDom_power_dip (n : Nat) (f : Domain → Domain) : (modDom n f s).power.dip = s.power.dip := rfl
@[simp] theorem modDom_power_dipSince (n : Nat) (f : Domain → Domain) : (modDom n f s).power.dipSince = s.power.dipSince := rfl
@[simp] theorem modDom_power_dipLongest (n : Nat) (f : Domain → Domain) : (modDom n f s).power.dipLongest = s.power.dipLongest := rfl
@[simp] theorem modDom_power_dipIslands (n : Nat) (f : Domain → Domain) : (modDom n f s).power.dipIslands = s.power.dipIslands := rfl
@[simp] theorem modDom_power_dipLow (n : Nat) (f : Domain → Domain) : (modDom n f s).power.dipLow = s.power.dipLow := rfl
@[simp] theorem modDom_power_sref (n : Nat) (f : Domain → Domain) : (modDom n f s).power.sref = s.power.sref := rfl

@[simp] theorem setHistory_integ_buckets (k : UnitKind) (n : Nat) (h : History) : (setHistory k n h s).integ.buckets = s.integ.buckets := rfl
@[simp] theorem setHistory_integ_sram (k : UnitKind) (n : Nat) (h : History) : (setHistory k n h s).integ.sram = s.integ.sram := rfl
@[simp] theorem setHistory_integ_sramDev (k : UnitKind) (n : Nat) (h : History) : (setHistory k n h s).integ.sramDev = s.integ.sramDev := rfl

@[simp] theorem modBucket_integ_history (k : Nat) (f : Bucket → Bucket) : (modBucket k f s).integ.history = s.integ.history := rfl
@[simp] theorem modBucket_integ_sram (k : Nat) (f : Bucket → Bucket) : (modBucket k f s).integ.sram = s.integ.sram := rfl
@[simp] theorem modBucket_integ_sramDev (k : Nat) (f : Bucket → Bucket) : (modBucket k f s).integ.sramDev = s.integ.sramDev := rfl

@[simp] theorem assertFault_power_phase : (assertFault s).power.phase = s.power.phase := rfl
@[simp] theorem assertFault_power_rails : (assertFault s).power.rails = s.power.rails := rfl
@[simp] theorem assertFault_power_pwrGood : (assertFault s).power.pwrGood = s.power.pwrGood := rfl
@[simp] theorem assertFault_power_thermN : (assertFault s).power.thermN = s.power.thermN := rfl
@[simp] theorem assertFault_power_tripped : (assertFault s).power.tripped = s.power.tripped := rfl
@[simp] theorem assertFault_power_moduleFault : (assertFault s).power.moduleFault = s.power.moduleFault := rfl
@[simp] theorem assertFault_power_unplaceable : (assertFault s).power.unplaceable = s.power.unplaceable := rfl
@[simp] theorem assertFault_power_doms : (assertFault s).power.doms = s.power.doms := rfl
@[simp] theorem assertFault_power_waiting : (assertFault s).power.waiting = s.power.waiting := rfl
@[simp] theorem assertFault_power_nextOrder : (assertFault s).power.nextOrder = s.power.nextOrder := rfl
@[simp] theorem assertFault_power_shankCharged : (assertFault s).power.shankCharged = s.power.shankCharged := rfl
@[simp] theorem assertFault_power_standing : (assertFault s).power.standing = s.power.standing := rfl
@[simp] theorem assertFault_power_theta : (assertFault s).power.theta = s.power.theta := rfl
@[simp] theorem assertFault_power_samples : (assertFault s).power.samples = s.power.samples := rfl
@[simp] theorem assertFault_power_logicHot : (assertFault s).power.logicHot = s.power.logicHot := rfl
@[simp] theorem assertFault_power_retSince : (assertFault s).power.retSince = s.power.retSince := rfl
@[simp] theorem assertFault_power_retHot : (assertFault s).power.retHot = s.power.retHot := rfl
@[simp] theorem assertFault_power_dip : (assertFault s).power.dip = s.power.dip := rfl
@[simp] theorem assertFault_power_dipSince : (assertFault s).power.dipSince = s.power.dipSince := rfl
@[simp] theorem assertFault_power_dipLongest : (assertFault s).power.dipLongest = s.power.dipLongest := rfl
@[simp] theorem assertFault_power_dipIslands : (assertFault s).power.dipIslands = s.power.dipIslands := rfl
@[simp] theorem assertFault_power_dipLow : (assertFault s).power.dipLow = s.power.dipLow := rfl
@[simp] theorem assertFault_power_sref : (assertFault s).power.sref = s.power.sref := rfl

@[simp] theorem bumpBy_dict_active (o n : Nat) : (bumpBy o n s).dict.active = s.dict.active := rfl
@[simp] theorem bumpBy_dict_staged (o n : Nat) : (bumpBy o n s).dict.staged = s.dict.staged := rfl
@[simp] theorem bumpBy_dict_heldGroup (o n : Nat) : (bumpBy o n s).dict.heldGroup = s.dict.heldGroup := rfl
@[simp] theorem bumpBy_dict_groupPending (o n : Nat) : (bumpBy o n s).dict.groupPending = s.dict.groupPending := rfl
@[simp] theorem bumpBy_dict_cfgReject (o n : Nat) : (bumpBy o n s).dict.cfgReject = s.dict.cfgReject := rfl
@[simp] theorem bumpBy_dict_area0 (o n : Nat) : (bumpBy o n s).dict.area0 = s.dict.area0 := rfl
@[simp] theorem bumpBy_dict_area1 (o n : Nat) : (bumpBy o n s).dict.area1 = s.dict.area1 := rfl
@[simp] theorem bumpBy_dict_storeSeq (o n : Nat) : (bumpBy o n s).dict.storeSeq = s.dict.storeSeq := rfl
@[simp] theorem bumpBy_dict_events (o n : Nat) : (bumpBy o n s).dict.events = s.dict.events := rfl
@[simp] theorem bumpBy_dict_nextSeq (o n : Nat) : (bumpBy o n s).dict.nextSeq = s.dict.nextSeq := rfl
@[simp] theorem bumpBy_dict_faultLog (o n : Nat) : (bumpBy o n s).dict.faultLog = s.dict.faultLog := rfl
@[simp] theorem bumpBy_dict_logReader (o n : Nat) : (bumpBy o n s).dict.logReader = s.dict.logReader := rfl
@[simp] theorem bumpBy_dict_monitors (o n : Nat) : (bumpBy o n s).dict.monitors = s.dict.monitors := rfl
@[simp] theorem bumpBy_dict_monClears (o n : Nat) : (bumpBy o n s).dict.monClears = s.dict.monClears := rfl
@[simp] theorem bumpBy_dict_waitingMsgs (o n : Nat) : (bumpBy o n s).dict.waitingMsgs = s.dict.waitingMsgs := rfl
@[simp] theorem bumpBy_dict_monLast (o n : Nat) : (bumpBy o n s).dict.monLast = s.dict.monLast := rfl
@[simp] theorem bumpBy_dict_snapshots (o n : Nat) : (bumpBy o n s).dict.snapshots = s.dict.snapshots := rfl
@[simp] theorem bumpBy_dict_pieces (o n : Nat) : (bumpBy o n s).dict.pieces = s.dict.pieces := rfl

@[simp] theorem bump_dict_active (o : Nat) : (bump o s).dict.active = s.dict.active := rfl
@[simp] theorem bump_dict_staged (o : Nat) : (bump o s).dict.staged = s.dict.staged := rfl
@[simp] theorem bump_dict_heldGroup (o : Nat) : (bump o s).dict.heldGroup = s.dict.heldGroup := rfl
@[simp] theorem bump_dict_groupPending (o : Nat) : (bump o s).dict.groupPending = s.dict.groupPending := rfl
@[simp] theorem bump_dict_cfgReject (o : Nat) : (bump o s).dict.cfgReject = s.dict.cfgReject := rfl
@[simp] theorem bump_dict_area0 (o : Nat) : (bump o s).dict.area0 = s.dict.area0 := rfl
@[simp] theorem bump_dict_area1 (o : Nat) : (bump o s).dict.area1 = s.dict.area1 := rfl
@[simp] theorem bump_dict_storeSeq (o : Nat) : (bump o s).dict.storeSeq = s.dict.storeSeq := rfl
@[simp] theorem bump_dict_events (o : Nat) : (bump o s).dict.events = s.dict.events := rfl
@[simp] theorem bump_dict_nextSeq (o : Nat) : (bump o s).dict.nextSeq = s.dict.nextSeq := rfl
@[simp] theorem bump_dict_faultLog (o : Nat) : (bump o s).dict.faultLog = s.dict.faultLog := rfl
@[simp] theorem bump_dict_logReader (o : Nat) : (bump o s).dict.logReader = s.dict.logReader := rfl
@[simp] theorem bump_dict_monitors (o : Nat) : (bump o s).dict.monitors = s.dict.monitors := rfl
@[simp] theorem bump_dict_monClears (o : Nat) : (bump o s).dict.monClears = s.dict.monClears := rfl
@[simp] theorem bump_dict_waitingMsgs (o : Nat) : (bump o s).dict.waitingMsgs = s.dict.waitingMsgs := rfl
@[simp] theorem bump_dict_monLast (o : Nat) : (bump o s).dict.monLast = s.dict.monLast := rfl
@[simp] theorem bump_dict_snapshots (o : Nat) : (bump o s).dict.snapshots = s.dict.snapshots := rfl
@[simp] theorem bump_dict_pieces (o : Nat) : (bump o s).dict.pieces = s.dict.pieces := rfl

@[simp] theorem sample_dict_active (o u v : Nat) : (sample o u v s).dict.active = s.dict.active := rfl
@[simp] theorem sample_dict_staged (o u v : Nat) : (sample o u v s).dict.staged = s.dict.staged := rfl
@[simp] theorem sample_dict_heldGroup (o u v : Nat) : (sample o u v s).dict.heldGroup = s.dict.heldGroup := rfl
@[simp] theorem sample_dict_groupPending (o u v : Nat) : (sample o u v s).dict.groupPending = s.dict.groupPending := rfl
@[simp] theorem sample_dict_counters (o u v : Nat) : (sample o u v s).dict.counters = s.dict.counters := rfl
@[simp] theorem sample_dict_cfgReject (o u v : Nat) : (sample o u v s).dict.cfgReject = s.dict.cfgReject := rfl
@[simp] theorem sample_dict_area0 (o u v : Nat) : (sample o u v s).dict.area0 = s.dict.area0 := rfl
@[simp] theorem sample_dict_area1 (o u v : Nat) : (sample o u v s).dict.area1 = s.dict.area1 := rfl
@[simp] theorem sample_dict_storeSeq (o u v : Nat) : (sample o u v s).dict.storeSeq = s.dict.storeSeq := rfl
@[simp] theorem sample_dict_events (o u v : Nat) : (sample o u v s).dict.events = s.dict.events := rfl
@[simp] theorem sample_dict_nextSeq (o u v : Nat) : (sample o u v s).dict.nextSeq = s.dict.nextSeq := rfl
@[simp] theorem sample_dict_faultLog (o u v : Nat) : (sample o u v s).dict.faultLog = s.dict.faultLog := rfl
@[simp] theorem sample_dict_logReader (o u v : Nat) : (sample o u v s).dict.logReader = s.dict.logReader := rfl
@[simp] theorem sample_dict_monClears (o u v : Nat) : (sample o u v s).dict.monClears = s.dict.monClears := rfl
@[simp] theorem sample_dict_waitingMsgs (o u v : Nat) : (sample o u v s).dict.waitingMsgs = s.dict.waitingMsgs := rfl
@[simp] theorem sample_dict_snapshots (o u v : Nat) : (sample o u v s).dict.snapshots = s.dict.snapshots := rfl
@[simp] theorem sample_dict_pieces (o u v : Nat) : (sample o u v s).dict.pieces = s.dict.pieces := rfl

@[simp] theorem faultRecord_dict_active (e : Event) : (faultRecord e s).dict.active = s.dict.active := rfl
@[simp] theorem faultRecord_dict_staged (e : Event) : (faultRecord e s).dict.staged = s.dict.staged := rfl
@[simp] theorem faultRecord_dict_heldGroup (e : Event) : (faultRecord e s).dict.heldGroup = s.dict.heldGroup := rfl
@[simp] theorem faultRecord_dict_groupPending (e : Event) : (faultRecord e s).dict.groupPending = s.dict.groupPending := rfl
@[simp] theorem faultRecord_dict_counters (e : Event) : (faultRecord e s).dict.counters = s.dict.counters := rfl
@[simp] theorem faultRecord_dict_cfgReject (e : Event) : (faultRecord e s).dict.cfgReject = s.dict.cfgReject := rfl
@[simp] theorem faultRecord_dict_area0 (e : Event) : (faultRecord e s).dict.area0 = s.dict.area0 := rfl
@[simp] theorem faultRecord_dict_area1 (e : Event) : (faultRecord e s).dict.area1 = s.dict.area1 := rfl
@[simp] theorem faultRecord_dict_storeSeq (e : Event) : (faultRecord e s).dict.storeSeq = s.dict.storeSeq := rfl
@[simp] theorem faultRecord_dict_events (e : Event) : (faultRecord e s).dict.events = s.dict.events := rfl
@[simp] theorem faultRecord_dict_nextSeq (e : Event) : (faultRecord e s).dict.nextSeq = s.dict.nextSeq := rfl
@[simp] theorem faultRecord_dict_logReader (e : Event) : (faultRecord e s).dict.logReader = s.dict.logReader := rfl
@[simp] theorem faultRecord_dict_monitors (e : Event) : (faultRecord e s).dict.monitors = s.dict.monitors := rfl
@[simp] theorem faultRecord_dict_monClears (e : Event) : (faultRecord e s).dict.monClears = s.dict.monClears := rfl
@[simp] theorem faultRecord_dict_waitingMsgs (e : Event) : (faultRecord e s).dict.waitingMsgs = s.dict.waitingMsgs := rfl
@[simp] theorem faultRecord_dict_monLast (e : Event) : (faultRecord e s).dict.monLast = s.dict.monLast := rfl
@[simp] theorem faultRecord_dict_snapshots (e : Event) : (faultRecord e s).dict.snapshots = s.dict.snapshots := rfl
@[simp] theorem faultRecord_dict_pieces (e : Event) : (faultRecord e s).dict.pieces = s.dict.pieces := rfl

@[simp] theorem cause_regs_sysCtrl (k : Nat) : (cause k s).regs.sysCtrl = s.regs.sysCtrl := rfl
@[simp] theorem cause_regs_cfgMatch (k : Nat) : (cause k s).regs.cfgMatch = s.regs.cfgMatch := rfl
@[simp] theorem cause_regs_xdomBusy (k : Nat) : (cause k s).regs.xdomBusy = s.regs.xdomBusy := rfl
@[simp] theorem cause_regs_xdomDrop (k : Nat) : (cause k s).regs.xdomDrop = s.regs.xdomDrop := rfl
@[simp] theorem cause_regs_domOff (k : Nat) : (cause k s).regs.domOff = s.regs.domOff := rfl
@[simp] theorem cause_regs_holdLong (k : Nat) : (cause k s).regs.holdLong = s.regs.holdLong := rfl
@[simp] theorem cause_regs_rangeDrop (k : Nat) : (cause k s).regs.rangeDrop = s.regs.rangeDrop := rfl
@[simp] theorem cause_regs_cfgCrc (k : Nat) : (cause k s).regs.cfgCrc = s.regs.cfgCrc := rfl
@[simp] theorem cause_regs_cfgCrcRef (k : Nat) : (cause k s).regs.cfgCrcRef = s.regs.cfgCrcRef := rfl
@[simp] theorem cause_regs_passDirty (k : Nat) : (cause k s).regs.passDirty = s.regs.passDirty := rfl
@[simp] theorem cause_regs_cfgCtrl (k : Nat) : (cause k s).regs.cfgCtrl = s.regs.cfgCtrl := rfl
@[simp] theorem cause_regs_holdRaised (k : Nat) : (cause k s).regs.holdRaised = s.regs.holdRaised := rfl
@[simp] theorem cause_regs_holdSince (k : Nat) : (cause k s).regs.holdSince = s.regs.holdSince := rfl
@[simp] theorem cause_regs_privDrops (k : Nat) : (cause k s).regs.privDrops = s.regs.privDrops := rfl
@[simp] theorem cause_regs_modId (k : Nat) : (cause k s).regs.modId = s.regs.modId := rfl
@[simp] theorem cause_regs_dMode (k : Nat) : (cause k s).regs.dMode = s.regs.dMode := rfl
@[simp] theorem cause_regs_modeActive (k : Nat) : (cause k s).regs.modeActive = s.regs.modeActive := rfl
@[simp] theorem cause_regs_modePending (k : Nat) : (cause k s).regs.modePending = s.regs.modePending := rfl
@[simp] theorem cause_regs_capActive (k : Nat) : (cause k s).regs.capActive = s.regs.capActive := rfl
@[simp] theorem cause_regs_capPending (k : Nat) : (cause k s).regs.capPending = s.regs.capPending := rfl
@[simp] theorem cause_regs_splitActive (k : Nat) : (cause k s).regs.splitActive = s.regs.splitActive := rfl
@[simp] theorem cause_regs_splitPending (k : Nat) : (cause k s).regs.splitPending = s.regs.splitPending := rfl
@[simp] theorem cause_regs_offsetActive (k : Nat) : (cause k s).regs.offsetActive = s.regs.offsetActive := rfl
@[simp] theorem cause_regs_offsetPending (k : Nat) : (cause k s).regs.offsetPending = s.regs.offsetPending := rfl
@[simp] theorem cause_regs_alarm (k : Nat) : (cause k s).regs.alarm = s.regs.alarm := rfl
@[simp] theorem cause_regs_alarmFired (k : Nat) : (cause k s).regs.alarmFired = s.regs.alarmFired := rfl
@[simp] theorem cause_regs_domSel (k : Nat) : (cause k s).regs.domSel = s.regs.domSel := rfl
@[simp] theorem cause_regs_intMask (k : Nat) : (cause k s).regs.intMask = s.regs.intMask := rfl
@[simp] theorem cause_regs_admSq (k : Nat) : (cause k s).regs.admSq = s.regs.admSq := rfl
@[simp] theorem cause_regs_admCq (k : Nat) : (cause k s).regs.admCq = s.regs.admCq := rfl
@[simp] theorem cause_regs_admLog (k : Nat) : (cause k s).regs.admLog = s.regs.admLog := rfl
@[simp] theorem cause_regs_admCtrl (k : Nat) : (cause k s).regs.admCtrl = s.regs.admCtrl := rfl
@[simp] theorem cause_regs_dwin (k : Nat) : (cause k s).regs.dwin = s.regs.dwin := rfl
@[simp] theorem cause_regs_dConfig (k : Nat) : (cause k s).regs.dConfig = s.regs.dConfig := rfl
@[simp] theorem cause_regs_engineFound (k : Nat) : (cause k s).regs.engineFound = s.regs.engineFound := rfl
@[simp] theorem cause_regs_rcvAddr (k : Nat) : (cause k s).regs.rcvAddr = s.regs.rcvAddr := rfl
@[simp] theorem cause_regs_rcvLen (k : Nat) : (cause k s).regs.rcvLen = s.regs.rcvLen := rfl
@[simp] theorem cause_regs_rcvState (k : Nat) : (cause k s).regs.rcvState = s.regs.rcvState := rfl
@[simp] theorem cause_regs_rcvReason (k : Nat) : (cause k s).regs.rcvReason = s.regs.rcvReason := rfl
@[simp] theorem cause_regs_msix (k : Nat) : (cause k s).regs.msix = s.regs.msix := rfl
@[simp] theorem cause_regs_shadows (k : Nat) : (cause k s).regs.shadows = s.regs.shadows := rfl
@[simp] theorem cause_regs_stages (k : Nat) : (cause k s).regs.stages = s.regs.stages := rfl

/-! ## A unit after an update -/

theorem bankOf_modBank (n m : Nat) (f : Bank → Bank) :
    bankOf (modBank n f s) m = if m = n then f (bankOf s n) else bankOf s m := tget_tmod _ _ _ _ _

@[simp] theorem bankOf_modBank_self (n : Nat) (f : Bank → Bank) : bankOf (modBank n f s) n = f (bankOf s n) :=
  tget_tmod_self _ _ _ _

theorem bankOf_modBank_ne {n m : Nat} (f : Bank → Bank) (h : m ≠ n) : bankOf (modBank n f s) m = bankOf s m :=
  tget_tmod_ne _ _ _ h

theorem islandOf_modIsland (n m : Nat) (f : Island → Island) :
    islandOf (modIsland n f s) m = if m = n then f (islandOf s n) else islandOf s m := tget_tmod _ _ _ _ _

@[simp] theorem islandOf_modIsland_self (n : Nat) (f : Island → Island) : islandOf (modIsland n f s) n = f (islandOf s n) :=
  tget_tmod_self _ _ _ _

theorem islandOf_modIsland_ne {n m : Nat} (f : Island → Island) (h : m ≠ n) : islandOf (modIsland n f s) m = islandOf s m :=
  tget_tmod_ne _ _ _ h

theorem clusterOf_modCluster (n m : Nat) (f : Cluster → Cluster) :
    clusterOf (modCluster n f s) m = if m = n then f (clusterOf s n) else clusterOf s m := tget_tmod _ _ _ _ _

@[simp] theorem clusterOf_modCluster_self (n : Nat) (f : Cluster → Cluster) : clusterOf (modCluster n f s) n = f (clusterOf s n) :=
  tget_tmod_self _ _ _ _

theorem clusterOf_modCluster_ne {n m : Nat} (f : Cluster → Cluster) (h : m ≠ n) : clusterOf (modCluster n f s) m = clusterOf s m :=
  tget_tmod_ne _ _ _ h

theorem schedOf_modSched (n m : Nat) (f : Sched → Sched) :
    schedOf (modSched n f s) m = if m = n then f (schedOf s n) else schedOf s m := tget_tmod _ _ _ _ _

@[simp] theorem schedOf_modSched_self (n : Nat) (f : Sched → Sched) : schedOf (modSched n f s) n = f (schedOf s n) :=
  tget_tmod_self _ _ _ _

theorem schedOf_modSched_ne {n m : Nat} (f : Sched → Sched) (h : m ≠ n) : schedOf (modSched n f s) m = schedOf s m :=
  tget_tmod_ne _ _ _ h

theorem slotOf_modSlot (n m : Nat) (f : Slot → Slot) :
    slotOf (modSlot n f s) m = if m = n then f (slotOf s n) else slotOf s m := tget_tmod _ _ _ _ _

@[simp] theorem slotOf_modSlot_self (n : Nat) (f : Slot → Slot) : slotOf (modSlot n f s) n = f (slotOf s n) :=
  tget_tmod_self _ _ _ _

theorem slotOf_modSlot_ne {n m : Nat} (f : Slot → Slot) (h : m ≠ n) : slotOf (modSlot n f s) m = slotOf s m :=
  tget_tmod_ne _ _ _ h

theorem pairOf_modPair (n m : Nat) (f : QPair → QPair) :
    pairOf (modPair n f s) m = if m = n then f (pairOf s n) else pairOf s m := tget_tmod _ _ _ _ _

@[simp] theorem pairOf_modPair_self (n : Nat) (f : QPair → QPair) : pairOf (modPair n f s) n = f (pairOf s n) :=
  tget_tmod_self _ _ _ _

theorem pairOf_modPair_ne {n m : Nat} (f : QPair → QPair) (h : m ≠ n) : pairOf (modPair n f s) m = pairOf s m :=
  tget_tmod_ne _ _ _ h

theorem segOf_modSeg (n m : Nat) (f : Segment → Segment) :
    segOf (modSeg n f s) m = if m = n then f (segOf s n) else segOf s m := tget_tmod _ _ _ _ _

@[simp] theorem segOf_modSeg_self (n : Nat) (f : Segment → Segment) : segOf (modSeg n f s) n = f (segOf s n) :=
  tget_tmod_self _ _ _ _

theorem segOf_modSeg_ne {n m : Nat} (f : Segment → Segment) (h : m ≠ n) : segOf (modSeg n f s) m = segOf s m :=
  tget_tmod_ne _ _ _ h

theorem ferryOf_modFerry (n m : Nat) (f : Ferry → Ferry) :
    ferryOf (modFerry n f s) m = if m = n then f (ferryOf s n) else ferryOf s m := tget_tmod _ _ _ _ _

@[simp] theorem ferryOf_modFerry_self (n : Nat) (f : Ferry → Ferry) : ferryOf (modFerry n f s) n = f (ferryOf s n) :=
  tget_tmod_self _ _ _ _

theorem ferryOf_modFerry_ne {n m : Nat} (f : Ferry → Ferry) (h : m ≠ n) : ferryOf (modFerry n f s) m = ferryOf s m :=
  tget_tmod_ne _ _ _ h

theorem chanOf_modChan (n m : Nat) (f : Channel → Channel) :
    chanOf (modChan n f s) m = if m = n then f (chanOf s n) else chanOf s m := tget_tmod _ _ _ _ _

@[simp] theorem chanOf_modChan_self (n : Nat) (f : Channel → Channel) : chanOf (modChan n f s) n = f (chanOf s n) :=
  tget_tmod_self _ _ _ _

theorem chanOf_modChan_ne {n m : Nat} (f : Channel → Channel) (h : m ≠ n) : chanOf (modChan n f s) m = chanOf s m :=
  tget_tmod_ne _ _ _ h

theorem linkOf_modLink (n m : Nat) (f : Link → Link) :
    linkOf (modLink n f s) m = if m = n then f (linkOf s n) else linkOf s m := tget_tmod _ _ _ _ _

@[simp] theorem linkOf_modLink_self (n : Nat) (f : Link → Link) : linkOf (modLink n f s) n = f (linkOf s n) :=
  tget_tmod_self _ _ _ _

theorem linkOf_modLink_ne {n m : Nat} (f : Link → Link) (h : m ≠ n) : linkOf (modLink n f s) m = linkOf s m :=
  tget_tmod_ne _ _ _ h

theorem domOf_modDom (n m : Nat) (f : Domain → Domain) :
    domOf (modDom n f s) m = if m = n then f (domOf s n) else domOf s m := tget_tmod _ _ _ _ _

@[simp] theorem domOf_modDom_self (n : Nat) (f : Domain → Domain) : domOf (modDom n f s) n = f (domOf s n) :=
  tget_tmod_self _ _ _ _

theorem domOf_modDom_ne {n m : Nat} (f : Domain → Domain) (h : m ≠ n) : domOf (modDom n f s) m = domOf s m :=
  tget_tmod_ne _ _ _ h

end Sys2Proof.Machine
end

