-- ==== Sys2Proof/WellFormed.lean ====
section
/-! DEFINITION. Well-formed commands: every operand names something that a module of the family has, and every run of bytes
has the length that its place in the spec gives it. The checks take no state: what depends on the part, a mode or a register
is the meaning's to judge. -/

namespace Sys2Proof

namespace Wf

/-- A bank number of the larger part (R43). -/
def bank (b : Nat) : Bool := decide (b < 1048576)

/-- An island number of the larger part (R43). -/
def island (i : Nat) : Bool := decide (i < 2048)

/-- A domain number (R463). -/
def domain (d : Nat) : Bool := decide (d ≤ 2090)

/-- A connection: transport 0 to 2, with a 16-bit number (notes/assumptions/29.md). -/
def conn (c : Nat) : Bool := decide (c < 196608)

/-- A management-bus endpoint's 8-bit number. -/
def endpoint (e : Nat) : Bool := decide (e < 256)

def requester (r : Requester) : Bool :=
  match r with
  | .queue _ => true
  | .mctp ep _ => endpoint ep

/-- Data of a read has the given length; a failed read gives none. -/
def readLen (n : Nat) (r : HostRead) : Bool :=
  match r with
  | .data b => decide (b.length = n)
  | .poisoned b => decide (b.length = n)
  | .failed => true

/-- A placed slice (R206, R239): a bank of the family and a third of it. -/
def placed (p : Placed) : Bool := bank p.bank && decide (p.third < 3)

def choice (l : List Placed) : Bool := l.all placed

/-- An upset bit: word of the Harbour, bit of its codeword (R319, R320). -/
def upset (u : Nat × Nat) : Bool := decide (u.1 < 134217728) && decide (u.2 < 72)

/-- Columns of an array, logical or physical (R41). -/
def column (c : Nat) : Bool := decide (c < 1152)

/-- A disturbance of a pulse cycle (R44, R49): rows of the bank, the reference rows included, and logical columns. -/
def disturb (d : Disturb) : Bool := d.rows.all (fun r => decide (r < 1032)) && d.edges.all fun e => decide (e.1 < 1120)

/-- What a full known-sum test meets (R58, R59, R72): subsets 0 to 9, runs 0 to 2. -/
def ksResult (r : KsResult) : Bool :=
  r.cycles.all (fun e => decide (e.1 < 10) && decide (e.2.1 < 3) && disturb e.2.2) && r.devMicro.all (fun e => column e.1) &&
    r.trims.all (fun t => column t.1) && r.cut.all fun k => decide (k < 10)

def qpWrite (w : QpWrite) : Bool :=
  match w with
  | .record r pair data => requester r && decide (pair < 16384) && decide (data.length = 64)
  | .adm _ _ => true

def domSource (x : DomSource) : Bool :=
  match x with
  | .reg _ => true
  | .dict r data => requester r && decide (data.length = 1)
  | .uzomel => true

def cover (c : CoverRef) : Bool :=
  match c with
  | .bank b => bank b
  | .island i => island i

/-- A 256-byte FLIT (R383). -/
def flit (b : Bytes) : Bool := decide (b.length = 256)

end Wf

/-- The command is well-formed. -/
def Instr.wellFormed (i : Instr) : Bool :=
  match i with
  | .auxPowerUp => true
  | .mainPowerUp => true
  | .moduleResetEnd _ => true
  | .moduleReset _ => true
  | .bootOscTimeout => true
  | .bootRomRun _ => true
  | .uzomelReady _ => true
  | .recoveryTimeout => true
  | .secRcvGo _ _ _ => true
  | .recoveryImageDone _ => true
  | .requestUpdate => true
  | .passComponentTable _ => true
  | .updateComponent _ _ => true
  | .requestFirmwareData _ _ => true
  | .transferComplete _ => true
  | .verifyComplete => true
  | .applyComplete _ => true
  | .activateFirmware => true
  | .cancelUpdate => true
  | .getVersion c _ => Wf.conn c
  | .getCapabilities c _ => Wf.conn c
  | .negotiateAlgorithms c _ _ _ => Wf.conn c
  | .getDigests c _ => Wf.conn c
  | .getCertificate c _ _ _ _ => Wf.conn c
  | .challenge c _ _ => Wf.conn c
  | .getMeasurements c _ _ _ _ => Wf.conn c
  | .chunkSend c _ _ => Wf.conn c
  | .chunkGet c _ => Wf.conn c
  | .pqSign c _ => Wf.conn c
  | .secFwStage r _ => Wf.requester r
  | .secFwCommit r _ => Wf.requester r
  | .fwSlotWriteDone _ => true
  | .secModuleReset r _ => Wf.requester r
  | .secPolicyWrite r _ => Wf.requester r
  | .pubkeyWrite r _ _ => Wf.requester r
  | .submissionRead _ e => Wf.readLen 64 e
  | .duplicateReplay _ _ log => Wf.readLen 32 log
  | .sqTailDoorbell _ _ _ => true
  | .cqHeadDoorbell _ _ _ => true
  | .interruptTimer _ => true
  | .infer _ _ => true
  | .inferComplete _ => true
  | .ctxOpen _ => true
  | .ctxClose _ => true
  | .ctxCloseRelease _ => true
  | .ctxSave _ => true
  | .ctxSaveWrite _ => true
  | .ctxRestore _ _ => true
  | .cancel _ => true
  | .fence _ => true
  | .fenceRelease _ => true
  | .loadManifest _ _ => true
  | .loadShard _ h => Wf.readLen 48 h
  | .verifyPassDone _ _ => true
  | .programPassDone _ _ => true
  | .commitImage _ h => Wf.readLen 48 h
  | .dropImage _ h => Wf.readLen 48 h
  | .refetchReminder => true
  | .swapStage _ _ _ c => Wf.choice c
  | .swapSwitch _ => true
  | .swapAbort _ => true
  | .groupSwitchTide _ => true
  | .generationRetire _ => true
  | .layerRewriteDone _ _ _ => true
  | .place _ _ c => Wf.choice c
  | .attach _ _ => true
  | .bindQueue _ => true
  | .bindSegment _ => true
  | .detach _ => true
  | .release _ => true
  | .unbindSegment _ => true
  | .bindDrainEnd _ => true
  | .lastSlotFreed _ => true
  | .segmentHandover _ => true
  | .sharedSegmentTake _ => true
  | .sharedSegmentReturn _ => true
  | .rePlacement _ _ t => (t.map Wf.placed).getD true
  | .dictRead _ h => Wf.readLen 48 h
  | .dictWrite _ _ => true
  | .queuePairEnable w => Wf.qpWrite w
  | .queuePairDisable w => Wf.qpWrite w
  | .queuePairDisabled _ => true
  | .cfgCommit r _ => Wf.requester r
  | .monClear r _ => Wf.requester r
  | .mctpDictRead ep _ _ _ _ _ _ _ h => Wf.endpoint ep && (h.isEmpty || decide (h.length = 48))
  | .mctpDictWrite ep _ _ _ _ _ _ _ => Wf.endpoint ep
  | .mctpSnapshotExpiry ep => Wf.endpoint ep
  | .mctpWriteTimeout ep => Wf.endpoint ep
  | .regWrite _ _ size _ => decide (1 ≤ size) && decide (size ≤ 8)
  | .mwWrite _ _ _ => true
  | .pairLoRead _ _ => true
  | .pairHiWrite _ _ _ => true
  | .pairLoWrite _ _ _ => true
  | .w1cWrite _ _ _ => true
  | .configRegWrite _ _ _ => true
  | .cfgCrcRefWrite _ _ => true
  | .cfgHoldWrite _ _ => true
  | .holdLongTimer => true
  | .checkPassEnd => true
  | .configActivate => true
  | .xdomCrossingDone => true
  | .tideAlarmWrite _ _ => true
  | .tideAlarmFire => true
  | .tideEpochOpen => true
  | .awlCplPop _ => true
  | .awlBankSelWrite _ _ _ => true
  | .awlUnlockStep _ _ _ _ => true
  | .awlWideWrite _ _ _ => true
  | .awlStrayByte _ _ _ _ => true
  | .programRow _ _ => true
  | .programWord _ _ => true
  | .eraseBank _ _ => true
  | .topUpRow _ _ => true
  | .readRow _ _ => true
  | .readMargin _ _ => true
  | .setComputeMode _ _ => true
  | .setStorageMode _ _ => true
  | .sealBank _ _ => true
  | .markBank _ _ => true
  | .readStatus _ _ => true
  | .resetToRead _ _ => true
  | .suspend _ _ => true
  | .resume _ _ => true
  | .awlOpStart b => Wf.bank b
  | .awlOpComplete b r => Wf.bank b && r.failing.all Wf.column
  | .eraseStarvation b => Wf.bank b
  | .launchAdmit => true
  | .ferryDescriptorIssue d => decide (d.length = 64)
  | .ferrySlotStart _ => true
  | .slabFillStart _ _ => true
  | .slabPush _ _ _ => true
  | .requestDeadlinePass _ => true
  | .laceEntryReceive _ _ => true
  | .handleRelease _ _ => true
  | .slabCleared _ => true
  | .cancelledSlabRecall _ _ => true
  | .rowGroupStart i _ => Wf.island i
  | .pulseCycleEnd i _ d => Wf.island i && Wf.disturb d
  | .weltAccept i _ _ => Wf.island i
  | .longSumReceive i p => Wf.island i && !p.isEmpty
  | .recomputeReceive _ => true
  | .shankTileBoundary _ us => us.all fun u => decide (u.1 < 262144) && decide (u.2 < 72)
  | .streamReadRow _ _ _ => true
  | .coverStart c => Wf.cover c
  | .harbourRead _ _ n us => decide (1 ≤ n) && decide (n ≤ 32) && us.all fun u => decide (u.1 < 8) && Wf.upset u
  | .harbourWrite _ _ d _ => decide (d.length = 64)
  | .harbourPartialWrite _ _ d _ => decide (0 < d.length) && decide (d.length ≤ 64)
  | .regionClearDone _ => true
  | .patrolScrub us => us.all Wf.upset
  | .bar4Access _ _ len _ => decide (0 < len)
  | .soundHop _ p _ => !p.isEmpty
  | .handshakeWatchdog u => (match u with | .island i => Wf.island i | _ => true)
  | .ceBucketDrain _ => true
  | .driftAgeTick => true
  | .topupRunStart b => Wf.bank b
  | .topupResume b => Wf.bank b
  | .fullKnownSumTest b r => Wf.bank b && Wf.ksResult r
  | .marginSample b _ => Wf.bank b
  | .ksPeriodTimer b => Wf.bank b
  | .idleWindowOpen _ _ => true
  | .forceAfterTimer b => Wf.bank b
  | .columnRetestTimer b r => Wf.bank b && Wf.ksResult r
  | .rebuildCycle b t => Wf.bank b && (t.map Wf.bank).getD true
  | .rerunBucketRoll => true
  | .poweredTimeStore => true
  | .domainRequestOn x d => Wf.domSource x && Wf.domain d
  | .domainRequestRet x d => Wf.domSource x && Wf.domain d
  | .domainRequestOff x d => Wf.domSource x && Wf.domain d
  | .domainIdleRetTimer d => Wf.domain d
  | .domainIdleOffTimer d => Wf.domain d
  | .domainDrainEnd d => Wf.domain d
  | .wakeStepTimeout d => Wf.domain d
  | .domainWakeDone d l => Wf.domain d && l.all fun e => Wf.bank e.1 && Wf.ksResult e.2
  | .domainDownDone d => Wf.domain d
  | .powerSample _ => true
  | .governorPeriodEnd => true
  | .tjSample k _ => Wf.island k || (decide (65536 ≤ k) && decide (k < 65552))
  | .vcoreSample _ => true
  | .occupancySample => true
  | .vcoreWarningTrip => true
  | .vcoreRecover => true
  | .dipHoldEnd l => l.all fun e => Wf.bank e.1 && Wf.disturb e.2
  | .dipResume => true
  | .tideSourceChange _ => true
  | .functionLevelReset _ => true
  | .perstNAssert _ => true
  | .perstNRelease _ => true
  | .pcieLinkDown _ => true
  | .d3hotEntry _ => true
  | .d0Return _ => true
  | .rootPortEnumerate _ => true
  | .engineInterruptWrite _ => true
  | .engineHarbourAccess _ len _ => decide (0 < len)
  | .downstreamWindowAccess _ o _ _ => decide (0x800000 ≤ o.toNat)
  | .hostAccessError _ _ _ => true
  | .pcieLinkUp _ _ _ _ => true
  | .linkTraining _ _ _ _ _ => true
  | .linkTrained _ => true
  | .manifestReceive _ => true
  | .flitReceive _ f _ _ => Wf.flit f
  | .laneCeInterval _ _ => true
  | .linkRetrainDone _ => true
  | .nakReceive _ _ => true
  | .linkLost _ _ => true
  | .syncTimer _ _ => true
  | .syncMessage _ _ _ => true
  | .slewTick => true
  | .groupCommit => true
  | .requestReport _ _ _ _ => true
  | .launchMessage _ _ _ => true
  | .groupLaunchAtTide _ => true
  | .barrierDeadline _ => true
  | .reportTimeout _ => true
  | .abortMessage _ => true
  | .mcastGrant _ _ _ _ => true
  | .mcastPush _ _ _ => true
  | .mcastCredit _ _ _ _ => true
  | .shedStallTimeout _ _ _ => true
  | .coreWatchdogExpiry _ .expired => true
  | .coreWatchdogExpiry _ (.sram w _ _) => decide (w < 4194304)
  | .suspendTakesEffect b => Wf.bank b

end Sys2Proof
end

