-- ==== Sys2Proof/Tests/Slice0.lean ====
section
/-! SUPPORT. The tests: the expected results of the worked examples and steps are the spec's own numbers, each named with its
rule; the `test_meets_` theorems give, for each clause of a statement of Obligations.lean that has hypotheses, a state and
operands that meet all of them together. -/

set_option maxRecDepth 100000
set_option Elab.async false

open Sys2Proof Sys2Proof.Machine

namespace Sys2Proof.Tests

/-! ## Small states -/

/-- A module that is ready (t7 of R497). -/
def up : State := { State.reset with power := { State.reset.power with phase := .ready } }
/-- A module in another phase. -/
def inPhase (p : Phase) : State := { State.reset with power := { State.reset.power with phase := p } }
/-- A submission entry (R359): opcode, SUBOP, SLOT and ARG, and the words at 0x10, 0x18, 0x20 and 0x28. -/
def ent (op subop slot arg : Nat) (w1 w2 w3 w4 : Nat) : Bytes :=
  leBytes 1 op ++ leBytes 1 0 ++ leBytes 1 slot ++ leBytes 1 subop ++ leBytes 4 arg ++ leBytes 8 0 ++
    leBytes 8 w1 ++ leBytes 8 w2 ++ leBytes 8 w3 ++ leBytes 8 w4 ++ leBytes 16 0
/-- An admitted command of pair 0. -/
def cmd (e : Bytes) : Cmd :=
  { pair := 0, group := 0, entry := e, order := 0, stage := .admitted, readAt := 0, waitsFor := [], drainFrom := 0 }
/-- The administrative pair, enabled. -/
def admin : QPair := { state := .enabled, flags := 1, sqEntries := 16, cqEntries := 16 }
/-- A ready module whose admission slot 0 holds this command of the administrative pair. -/
def holding (c : Cmd) : State := { up with que := { up.que with pairs := [(0, admin)], cmds := [(0, c)] } }
/-- A ready module with this admitted command. -/
def asked (op subop slot arg w1 w2 w3 w4 : Nat) : State := holding (cmd (ent op subop slot arg w1 w2 w3 w4))
/-- A DICT_WRITE of this object, argument and length. -/
def writes (obj arg len : Nat) : State := asked 0x21 0 0 0 (obj / 256 + 65536 * (obj % 256)) arg 0 len
/-- Some domains switched ON. -/
def on (ds : List Nat) (s : State) : State :=
  { s with power := { s.power with doms := ds.foldl (fun t d => tset t d { state := .on }) s.power.doms } }
/-- A plan without layers. -/
def plan0 : LastPlan :=
  { layers := [], slices := [], joins := [], laces := [], streams := [], spills := [], refNs := 0, idle := [],
    privateBytes := 0, mcasts := [], outNum := 0, outDen := 1 }
/-- The module with its pair 0 in context group 5, which slot 2 owns, and this record of slot 2. -/
def owning (sl : Slot) (s : State) : State :=
  { s with
    que := { s.que with
      pairs := [(0, { admin with group := 5 })], groups := [(5, 2)]
      cmds := s.que.cmds.map fun e => (e.1, { e.2 with group := 5 }) }
    model := { s.model with slots := [(2, sl)] } }
/-- An INFER request. -/
def req0 : Req :=
  { slot := 2, ctx := 0, gen := 0, vectors := 1, deadline := none, streams := [], step := 0, asked := false, barred := false,
    written := 0, poison := 0, late := false, stopped := none, discarded := false, done := false, kvTaken := [], left := 0, taken := 0 }
/-- The module with this request in admission slot 0. -/
def serving (r : Req) (s : State) : State := { s with que := { s.que with reqs := [(0, r)] } }
/-- A weight image of one shard of 8 bytes. -/
def image0 : ImageRec :=
  { hash := List.replicate 48 1, adapters := false, keySlot := 0, state := .partly,
    shards := [{ bytes := 8, firstPiece := 0, pieces := 1, hash := [] }], present := [], refetch := [], target := [],
    name := [], rsaSig := [], slhSig := [], written := [], scales := [] }
/-- The module with this image as record 3. -/
def imaged (r : ImageRec) (s : State) : State := { s with model := { s.model with images := [(3, r)] } }
/-- A load of shard 0 of image 3. -/
def load0 : Load := { image := 3, shard := 0, attempt := 1, programming := false, sealing := false, refetch := false }
/-- The module with this load in admission slot 0. -/
def loading (l : Load) (s : State) : State := { s with model := { s.model with loads := [(0, l)] } }
/-- A shadow swap that has been staged. -/
def swap0 : Swap :=
  { mode := .shadow, lastHash := [7], imageHash := List.replicate 48 1, plan := plan0, slicesSection := [], places := [],
    keySlot := 0, committed := true, switched := false, switchTide := none, front := [], rewritten := false, stopped := false, shardAddrs := [],
    interrupted := false }
/-- Channel 0 after its second unlock byte, at bank 5, with this row register and argument, and this record of bank 5. -/
def channel (row arg : BitVec 32) (b : Bank) : State :=
  { up with
    awl := { up.awl with chans := [(0, { unlock := .unlock2, bankSel := 5, row, arg })] }
    banks := [(5, b)] }
/-- An operation. -/
def op0 (k : AwlKind) (p : OpPhase) : AwlOp :=
  { kind := k, chan := none, row := 3, word := 0, wordData := 0, addr := 0, refShift := 0, polarity := false, phase := p,
    order := 0, floor := false, fromErased := false, fromWorn := false, run := false, held := false, byFloor := false, target := 0,
    started := 0, suspendedAt := 0, suspendedFor := 0, starved := false }
/-- A descriptor that moves bytes from the Harbour to Lace 1. -/
def desc0 : Desc :=
  { conv := 0, depth := 1, fmtIn := 4, fmtOut := 4, planes := 0, srcKind := 1, dstKind := 0, flags := 0, srcAddr := 0,
    dstAddr := 0, length := 64, elems := 64, laceIn := 0xFFFF, laceOut := 1, scaleAddr := 0, deadline := 0, request := 0,
    gen := 0, stream := 0 }
/-- A stream of this descriptor that has moved nothing. -/
def stream0 : Stream :=
  { desc := desc0, order := 0, pos := 0, seq := 0, filling := [], cancelled := false, dud := false, blocksDone := 0, vecs := 0, xs := [],
    ex := 0, special := false, poison := false, buf := [], bufBad := [], bufSpecial := false, bufSlabs := 0 }
/-- A consumer of a Lace: stream 0 of Ferry 0. -/
def consumer0 (w : List LaceEntry) : LaceConsumer :=
  { who := .ferry 0 0, waiting := w, vecs := 0, blocks := 0, acc := [], ex := 0, planes := 0, special := false, poison := false,
    skips := [] }
/-- A slab that a Lace holds. -/
def held0 (h : BitVec 16) (waits : List Nat) : Held := { h, reqs := [0], waits, vec := 0, off := 0, ferry := true }
/-- A Lace of launch 7. -/
def lace0 (h : List Held) (w : List LaceEntry) : Lace :=
  { launch := 7, depth := 2, consumers := [consumer0 w], held := h, pushed := 0, fed := [], partialSlab := none }
/-- A launch of slot 2 with one vector and Lace 1. -/
def launch0 : Launch :=
  { slot := 2, gen := 0, layer := 0, reqs := [(0, 1)], order := 0, deadline := none, laces := [(0, 1)], reserved := [0x2001],
    vectors := 1, shank := [], adapters := [], delivered := [], stored := [], arrays := 0, charged := false, agreed := none, begun := true,
    cancelled := false, offsets := [], strict := false, values := [] }
/-- A module with stream 0 of Ferry 0, Lace 1 and launch 7. -/
def flowing (st : Stream) (la : Lace) : State :=
  { up with
    flow := { up.flow with ferries := [(0, { streams := [(0, st)] })], laces := [(1, la)] }
    que := { up.que with reqs := [(0, req0)] }
    model := { up.model with launches := [(7, launch0)] } }
/-- A row group of rows 0 and 2. -/
def group0 : Group :=
  { vec := 0, plane := 0, planes := 1, mask := 5, pop := 2, isum := 2, scaleBlock := 0, handle := 0x2001, offset := 0 }
/-- A slice of a thread with these groups to run. -/
def work0 (gs : List Group) : SliceWork :=
  { slice := 4, rowBlock := 0, bank := 6, lace := 0, cols := 2, frac := 0, rows := 8, outputs := 3, firstOutput := 0, scaled := false,
    tolerant := false, joinBase := 9, groups := gs, rerun := false }
/-- A thread of launch 7. -/
def thread0 (w : SliceWork) : Thread := { launch := 7, deadline := none, order := 0, works := [w] }
/-- A pulse of array 3 that has ended with every count 0. -/
def pulse0 (ended : Bool) : Pulse := { thread := 1, launch := 7, slice := 4, bank := 6, group := group0, ended }
/-- A join that waits for a slice and for a remote partial. -/
def join0 : Join :=
  { launch := 7, plan := 0, vec := 0, island := 0, lanes := [0, 0, 0], dev := [], bad := [],
    sources := [{ id := .slice 4, final := false }, { id := .remote 3 2048, final := false }], ex := 0, special := false,
    poisoned := false, tolerant := false, known := true }
/-- Island 0, ON, with this work in thread 1, join 9 and these pulses. -/
def island0 (w : SliceWork) (ps : List (Nat × Pulse)) : State :=
  { (on [0] (flowing stream0 (lace0 [] []))) with
    islands := [(0, { threads := [(1, thread0 w)], joins := [(9, join0)], pulses := ps })] }
/-- A recompute of slice 4 that has not begun. -/
def recompute0 : Recompute :=
  { island := 0, join := 9, slice := 4, bank := 6, plane := 0, row := 0, handle := 0x2001, offset := 0, planes := 1, cols := 2,
    frac := 0, outputs := 3, firstOutput := 0, rows := 8, scaled := false, started := false, rowsLeft := [], lanes := [0, 0, 0],
    poisoned := false, since := 0, rereads := 0 }
/-- Cluster 2, ON and charged, with this record. -/
def cluster2 (y : Cluster) : State :=
  let s := on [domCluster 2] (island0 (work0 []) [])
  { s with clusters := [(2, y)], power := { s.power with shankCharged := [2] } }

/-! ## Ill-formed terms, one for each check of WellFormed.lean -/

theorem test_wf_refuses_numbers :
    ([.awlOpStart 1048576, .rowGroupStart 2048 0, .domainIdleRetTimer 2091, .getVersion 196608 [], .mctpSnapshotExpiry 256,
      .tjSample 2048 0, .tjSample 65552 0, .coverStart (.bank 1048576), .coverStart (.island 2048),
      .handshakeWatchdog (.island 2048), .secFwStage (.mctp 256 0) [],
      .coreWatchdogExpiry 0 (.sram 4194304 [] true)] : List Instr).all (fun i => !i.wellFormed) = true := by decide

theorem test_wf_refuses_lengths :
    ([.submissionRead 0 (.data [1]), .duplicateReplay 0 0 (.poisoned [1]), .loadShard 0 (.data []), .dictRead 0 (.data [1]),
      .mctpDictRead 1 0 0 0 0 0 0 0 [1], .regWrite .portU 0 0 0, .regWrite .portU 0 9 0, .ferryDescriptorIssue [1],
      .longSumReceive 0 [], .soundHop 0 [] [], .harbourRead 0 0 0 [], .harbourRead 0 0 33 [], .harbourWrite 0 0 [1] 0,
      .harbourPartialWrite 0 0 [] 0, .harbourPartialWrite 0 0 (List.replicate 65 0) 0, .bar4Access .portU 0 0 none,
      .engineHarbourAccess 0 0 none, .downstreamWindowAccess .portU 0x7FFFFF none .failed, .flitReceive 0 [1] 0 [],
      .queuePairEnable (.record (.queue 0) 0 [1]), .queuePairEnable (.record (.queue 0) 16384 (List.replicate 64 0)),
      .domainRequestOn (.dict (.queue 0) []) 0] : List Instr).all (fun i => !i.wellFormed) = true := by decide

theorem test_wf_refuses_contents :
    ([.place 0 .failed [{ slice := 0, bank := 1048576, third := 0, spill := false }],
      .place 0 .failed [{ slice := 0, bank := 0, third := 3, spill := true }],
      .rePlacement 0 0 (some { slice := 0, bank := 0, third := 3, spill := true }), .rebuildCycle 0 (some 1048576),
      .patrolScrub [(134217728, 0)], .patrolScrub [(0, 72)], .shankTileBoundary 0 [(262144, 0)], .harbourRead 0 0 1 [(8, 0)],
      .pulseCycleEnd 0 0 { rows := [1032], edges := [], slip := 0 },
      .pulseCycleEnd 0 0 { rows := [], edges := [(1120, 5)], slip := 0 },
      .fullKnownSumTest 0 { cycles := [(10, 0, { rows := [], edges := [], slip := 0 })], devMicro := [], trims := [], cut := none },
      .fullKnownSumTest 0 { cycles := [(0, 3, { rows := [], edges := [], slip := 0 })], devMicro := [], trims := [], cut := none },
      .columnRetestTimer 0 { cycles := [], devMicro := [(1152, 0)], trims := [], cut := none },
      .columnRetestTimer 0 { cycles := [], devMicro := [], trims := [(1152, 0)], cut := none },
      .columnRetestTimer 0 { cycles := [], devMicro := [], trims := [], cut := some 10 },
      .awlOpComplete 0 { failing := [1152], refFailing := [], pulsed := 0, steps := 0, thresh := 0 },
      .dipHoldEnd [(1048576, { rows := [], edges := [], slip := 0 })],
      .domainWakeDone 0 [(1048576, { cycles := [], devMicro := [], trims := [], cut := none })]] : List Instr).all
      (fun i => !i.wellFormed) = true := by decide

/-- No word spells a command, and so nothing is put in front of the queue. -/
theorem test_no_word_spells_a_command : decodeTableWord 32 7 = none ∧ State.reset.withFetchWord 32 7 = State.reset :=
  ⟨rfl, rfl⟩

/-! ## Worked examples of the spec -/

/-- The example after R322: the check byte, and what each read finds. -/
theorem test_ecc_example :
    eccCheck 0x8000000000000101 = 0x4A ∧
    eccDecode (syndrome (0x8000000000000101 ^^^ 0x8) 0x4A) = .dataBit 3 ∧
    eccDecode (syndrome 0x8000000000000101 0x0A) = .checkBit 6 ∧
    eccDecode (syndrome 0x8000000000000000 0x4A) = .uncorrectable ∧
    eccDecode (syndrome (0x8000000000000101 ^^^ 0x7) 0x4A) = .checkBit 0 ∧
    eccDecode (syndrome 0x8000000000000101 0xB5) = .poison := by decide +kernel

/-- R329: the CRC-32C of the nine ASCII bytes "123456789". -/
theorem test_crc_check_value : crc32c [0x31, 0x32, 0x33, 0x34, 0x35, 0x36, 0x37, 0x38, 0x39] = 0xE3069283 := by decide +kernel

/-- R39: the Gray code of each storage level. -/
theorem test_gray_levels : [7, 6, 4, 5, 1, 0, 2, 3].map grayLevel = [0, 1, 2, 3, 4, 5, 6, 7] := by decide

/-- The example after R279: 39 to 32 fall, nothing changes, 16 rises; L1 may become L6; L3 may not become L2. -/
theorem test_program_errors_example :
    rises 0xFFFFFFFF0000FFFF 0xFFFFFF000000FFFF = false ∧ rises 0xFFFFFFFF0000FFFF 0xFFFFFFFF0001FFFF = true ∧
    levelFalls 1 6 2 = false ∧ levelFalls 1 5 4 = true := by decide +kernel

/-- The worked example after R61: check bits of the rows, the identity, and a count one too high. -/
theorem test_residue_example :
    [0x1F, 0xF3, 0x10007, 0x80000001].map residueBits = [5, 6, 4, 2] ∧ residueOk 13 1 2 2 = true ∧ residueOk 14 1 2 2 = false ∧
    residueOk 17 1 2 3 = true := by decide +kernel

/-- R41: data column 33, check column 1 of group 2. -/
theorem test_physical_columns : physCol 33 = 36 ∧ physCol 1031 = 103 := by decide

/-- R47: 127 rows take 6.026 ns at the nominal point and 7.47 ns at 0.69 V and 95 °C (Tj in quarter degrees
above −40 °C, R443); outside the table the
edge is held. -/
theorem test_pulse_length : pulsePicos 750 400 127 = 6026 ∧ pulsePicos 690 540 127 = 7472 ∧ pulsePicos 600 560 127 = 7472 := by
  decide +kernel

/-- R157: 0x0000 and 0x2000 fall in banks 0 and 1 of segment 0. -/
theorem test_bank_of_address : addrBank 0 = 0 ∧ addrBank 0x2000 = 1 := by decide

/-- The example after R124: one FP16 vector at two plane counts. -/
theorem test_align_example :
    let v := [0x4580, 0xB500, 0x1400, 0xCD00].map fun c => some (elemValue 11 c)
    ((alignVec 8 v).ex, (alignVec 8 v).xs, (alignVec 8 v).inexact) = (-2, [22, -1, 0, -80], 2) ∧
    ((alignVec 16 v).ex, (alignVec 16 v).xs, (alignVec 16 v).inexact) = (-10, [5632, -320, 1, -20480], 0) := by decide +kernel

/-- The worked example of signed INT4: outputs 0 and 1 by R90 from the counts of each plane. -/
theorem test_int4_example :
    (planeSum 4 4 0 [2, 1, 1, 1] + planeSum 4 4 1 [2, 2, 1, 1] + planeSum 4 4 2 [1, 2, 1, 1] + planeSum 4 4 3 [0, 1, 0, 0] = -8) ∧
    (planeSum 4 4 0 [2, 2, 2, 2] + planeSum 4 4 1 [2, 2, 3, 2] + planeSum 4 4 2 [0, 1, 1, 0] + planeSum 4 4 3 [1, 1, 2, 1] = 2) := by
  decide

/-- R93: unscaled integers are added at lane position 136, so bit 8 of limb 2 is bit 136. -/
theorem test_lane_position : laneAdd 0 1 (lanePos 0 0) = BitVec.ofNat 320 (2 ^ 136) := by decide +kernel

/-- The example of an MXFP8 E4M3 block (R129). -/
theorem test_mx_block_example :
    let r := roundMxBlock 9 true ([(1000, 0), (300, 0), (-11, -2), (10, -10)] ++ List.replicate 28 (0, 0)) (List.replicate 32 false)
    r.1 = 0x80 ∧ (r.2.map Prod.fst).take 5 = [0x7E, 0x71, 0xBB, 0x02, 0] ∧ (r.2.filter fun o => o.2.1).length = 1 ∧
    weightInt 9 0x71 = 73728 ∧ weightInt 9 0xBB = -704 := by decide +kernel

/-- The window example after R366, on queue pair 7: t0, t1, t4, t5, t6. -/
theorem test_key_window_example :
    let p : QPair := { hs := 1203 }
    let q := keyTake 1204 p
    let r := keyTake 5299 q
    keyClass p 1204 = .new ∧ keyClass q 1204 = .duplicate ∧ r.hs = 5299 ∧ keyClass r 1203 = .stale ∧ keyClass r 1204 = .duplicate := by
  decide +kernel

/-- The example after R327: T = 4 and D = 10 s; C after three corrections, a drain tick and two
more corrections. -/
theorem test_leaky_bucket_example :
    let up' := { up with dict := { up.dict with active := [(okey (ob 0x8040 1) 0, leBytes 4 4 ++ leBytes 4 10)] } }
    let c := fun (s : State) => (bucketOf s (bucketKey 0 9)).count
    let s3 := bucketAdd 0 9 (bucketAdd 0 9 (bucketAdd 0 9 up'))
    let s5 := bucketAdd 0 9 (bucketAdd 0 9 (modBucket (bucketKey 0 9) (fun b => { b with count := b.count - 1 }) s3))
    c s3 = 3 ∧ c s5 = 4 ∧ bucketT up' 0 = 4 := by decide +kernel

/-! ## One step of the machine -/

/-- What a step answers, read at one place. -/
def after {α : Type} (r : Host.Outcome State Fault Refusal) (f : State → α) : Option α :=
  match r with
  | .next t => some (f t)
  | _ => none

/-- A command, alone in the queue. -/
def run (c : Instr) (s : State) : Host.Outcome State Fault Refusal := step { s with pending := [c] }

/-- STATUS and RESULT of the completions written since `s`, oldest first (R361). -/
def dones (s : State) (r : Host.Outcome State Fault Refusal) : Option (List (Nat × Nat)) :=
  after r fun t => (t.out.drop s.out.length).filterMap fun m =>
    match m with
    | .completion _ _ b => some (fld b 28 1, fld b 8 8)
    | _ => none

/-- R397, R464: an idle step is one tick. -/
theorem test_idle_step_ticks : after (step up) (fun t => t.time.pll) = some 1 := by decide +kernel

/-- R526: from off, auxiliary power starts the always-on domain. -/
theorem test_auxiliary_power : after (run .auxPowerUp (inPhase .off)) (fun t => t.power.phase) = some .aux := by decide +kernel

/-- R372: a FENCE whose earlier commands have all completed is released with SUCCESS. -/
theorem test_fence_release :
    let s := holding { (cmd (ent 9 0 0 0 0 0 0 0)) with stage := .running }
    dones s (run (.fenceRelease 0) s) = some [(0, 0)] := by decide +kernel

/-- R371: an unknown key gives RESULT 2; another pair's key is not permitted on a pair without ADMIN. -/
theorem test_cancel_unknown_key :
    let s := asked 8 0 0 0 5 0 0 0
    let t : State := { s with que := { s.que with pairs := [(0, { admin with flags := 0 })] } }
    let u : State := { t with que := { t.que with cmds := [(0, cmd (ent 8 0 0 0 (5 + 2 ^ 50) 0 0 0))] } }
    dones s (run (.cancel 0) s) = some [(0, 2)] ∧ (dones u (run (.cancel 0) u)).map (List.map Prod.fst) = some [0x0B] := by decide +kernel

/-- R216: an INFER of a slot that is not BOUND. -/
theorem test_infer_not_bound :
    let s := owning { state := .resident } (asked 1 0 0 3 0 0 0 0)
    (dones s (run (.infer 0 .failed) s)).map (List.map Prod.fst) = some [0x10] := by decide +kernel

/-- R373: CTX_OPEN where the group's slot is only PLACED, then RESIDENT. -/
theorem test_context_open :
    let s := fun (st : LastState) => owning { state := st } (asked 2 0 0 3 0 0 0xFFFFFFFF 0)
    dones (s .placed) (run (.ctxOpen 0) (s .placed)) = some [(0x12, 0)] ∧
    dones (s .resident) (run (.ctxOpen 0) (s .resident)) = some [(0, 0)] := by decide +kernel

/-- R416, R418: a DICT_READ of an object that does not exist. -/
theorem test_unknown_object :
    let s := asked 0x20 0 0 0 0x1FFFF 0 0 4
    (dones s (run (.dictRead 0 .failed) s)).map (List.map Prod.fst) = some [0x48] := by decide +kernel

/-- R253: SWITCH with no swap. R202: RELEASE of an EMPTY slot. R232: DROP_IMAGE of an unknown hash. -/
theorem test_refused_model_commands :
    let s := asked 0x12 1 2 0 0 0 0 0
    let t := asked 0x19 1 2 0 0 0 0 0
    let u := asked 0x19 3 0 0 0 0 0 0
    (dones s (run (.swapSwitch 0) s)).map (List.map Prod.fst) = some [0x37] ∧
    (dones t (run (.release 0) t)).map (List.map Prod.fst) = some [0x26] ∧
    (dones u (run (.dropImage 0 (.data (List.replicate 48 0))) u)).map (List.map Prod.fst) = some [0x30] := by decide +kernel

/-- R510: the value must leave one firmware key open; a cleared bit stays cleared. -/
theorem test_policy_write :
    let s := writes (ob 0xA001 1) 0 8
    let low := fun (b : Byte) => b :: List.replicate 7 255
    after (run (.secPolicyWrite (.queue 0) (low 0xE7)) s) (fun t => t.sec.policy) = some 0xFFFFFFFFFFFFFFFF ∧
    after (run (.secPolicyWrite (.queue 0) (low 0xEF)) s) (fun t => t.sec.policy) = some 0xFFFFFFFFFFFFFFEF := by decide +kernel

/-- R162, R163: a full write of a granule, then a partial one, and a clear of its region (R164). -/
theorem test_harbour_bytes :
    let s := { up with hbr := hWrite up.hbr 0 (List.replicate 64 7) false }
    (after (run (.harbourWrite 3 0 (List.replicate 64 9) 0) up) fun t => hRead t.hbr 0 3) = some [9, 9, 9] ∧
    (after (run (.harbourPartialWrite 3 1 [5] 0) s) fun t => hRead t.hbr 0 3) = some [7, 5, 7] ∧
    (after (run (.regionClearDone 0) { s with hbr := { s.hbr with clears := [(0, 4096)] } }) fun t => hRead t.hbr 0 3) =
      some [0, 0, 0] := by decide +kernel

/-- R322: a word written poisoned reads poisoned, and the other words of the granule do not. -/
theorem test_poisoned_word :
    (after (run (.harbourWrite 3 0 (List.replicate 64 9) 2) up) fun t => (wordBad t.hbr 0, wordBad t.hbr 1)) = some (false, true) := by
  decide +kernel

/-- R265: the two unlock bytes in order, and a wrong second byte. -/
theorem test_unlock_bytes :
    let one : State := { up with awl := { up.awl with chans := [(0, { unlock := .unlock1 })] } }
    let at0 := fun (t : State) => (tget t.awl.chans 0 {}).unlock
    after (run (.awlUnlockStep (.core 0) 0 0xE38 0x5C) up) at0 = some .unlock1 ∧
    after (run (.awlUnlockStep (.core 0) 0 0x71C 0xA3) one) at0 = some .unlock2 ∧
    after (run (.awlUnlockStep (.core 0) 0 0x71C 0x5C) one) at0 = some .idle := by decide +kernel

/-- R269: a command byte on a bank whose operation runs sets BUSY_REJ and has no effect. -/
theorem test_busy_bank :
    let s := channel 0 0 { state := .programming, ops := [op0 .programRow .running] }
    (after (run (.sealBank (.core 0) 0) s) fun t => ((bankOf t 5).state, decide ((tget t.awl.chans 0 {}).errors.toNat ≠ 0))) =
      some (BankState.programming, true) := by decide +kernel

/-- R78, R272: an erase ends: the bank is ERASED and its wear has risen by one compute-mode cycle of 3 units. -/
theorem test_erase_ends :
    let s := modBank 5 (fun b => { b with state := .erasing, ops := [op0 .eraseBank .running] }) up
    let r : OpEnd := { failing := [], refFailing := [], pulsed := 0, steps := 0, thresh := 0 }
    (after (run (.awlOpComplete 5 r) s) fun t => ((bankOf t 5).state, (bankOf t 5).wear)) = some (.erased, 3) := by decide +kernel

/-- R327: a drain tick takes one from every bucket of its kind. -/
theorem test_bucket_drain :
    let s : State := { up with integ := { up.integ with buckets := [(9, { count := 3 }), (65536 + 4, { count := 2 })] } }
    (after (run (.ceBucketDrain 0) s) fun t => ((bucketOf t 9).count, (bucketOf t 65540).count)) = some (2, 2) := by decide +kernel

/-- R487, R443: the trip point of an array die, 100 °C, in quarter degrees above −40 °C; a sample of 60 °C leaves READY. -/
theorem test_thermal_trip_point :
    tjOf 100 = 560 ∧ (after (run (.tjSample 0 240) up) fun t => t.power.phase) = some .ready := by decide +kernel

/-- R1, R43: a command about an island that no part has names no unit. -/
theorem test_absent_island : run (.tjSample 2048 400) up = .fault .absentUnit := by rfl

/-- R481: the comparator's trip starts a dip, in which the Awl pauses. -/
theorem test_dip_pauses_awl :
    (after (run .vcoreWarningTrip up) fun t => t.awl.paused) = some true := by decide +kernel

/-- R361, R354: the tail and head doorbells of pair 0. -/
theorem test_doorbells :
    let s := holding (cmd [])
    (after (run (.sqTailDoorbell .u 0 3) s) fun t => (pairOf t 0).sqTail) = some 3 := by decide +kernel

/-- R446: a write of the configuration hold through Port D has no effect. -/
theorem test_unprivileged_write_has_no_effect :
    (after (run (.cfgHoldWrite .portD 1) up) fun t => t.regs.cfgCtrl) = some up.regs.cfgCtrl := by decide +kernel

/-! ## A state and operands for the hypotheses of each clause of a statement -/

theorem test_meets_StepRunsFrontCommand :
    (∃ (c : Instr) (rest : List Instr) (s : State), (s.pending = c :: rest)) ∧
    (∃ (s : State), (s.pending = [])) :=
  ⟨⟨.auxPowerUp, [], { State.reset with pending := [.auxPowerUp] }, (by decide +kernel)⟩,
   ⟨State.reset, (by decide +kernel)⟩⟩

theorem test_meets_RecoveryAlwaysStaysOpen :
    (∃ (s t : State), (PolicyOpen s) ∧ (step s = .next t)) :=
  ⟨up, tick up, ⟨⟨by decide, by decide, fun n lo hi => (by decide +kernel : ∀ n,
    n < 64 → 7 ≤ n → up.sec.policy.getLsbD n = true) n hi lo⟩, rfl⟩⟩

theorem test_meets_PolicyOnlyCleared :
    (∃ (s t : State), (step s = .next t)) :=
  ⟨State.reset, tick State.reset, rfl⟩

theorem test_meets_HarbourListStaysCanonical :
    (∃ (s t : State), (HarbourCanonical s) ∧ (step s = .next t)) :=
  ⟨up, tick up, ⟨(by decide +kernel : Memory.wf up.hbr.data = true), rfl⟩⟩

theorem test_meets_PowerUpCommands :
    (∃ (s : State), (s.power.phase = .off)) ∧
    (∃ (s : State), (s.power.phase = .aux) ∧ (s.power.tripped = false)) ∧
    (∃ (s : State), (s.power.tripped = true)) ∧
    (∃ (straps : BitVec 3) (s : State), (s.power.phase = .rails)) :=
  ⟨⟨inPhase .off, (by decide +kernel)⟩,
   ⟨inPhase .aux, (by decide +kernel)⟩,
   ⟨{ State.reset with power := { State.reset.power with tripped := true } }, (by decide +kernel)⟩,
   ⟨5, inPhase .rails, (by decide +kernel)⟩⟩

theorem test_meets_ModuleResetEffect :
    (∃ (c : ResetCause) (s : State), (s.power.phase ≠ .off) ∧ ((c = .request → s.sec.deferredReset.isSome = true ∧
      s.sec.slotWriting = false))) ∧
    (∃ (s : State), (s.sec.slotWriting = true)) :=
  ⟨⟨.p54Low, up, (by decide +kernel)⟩,
   ⟨{ up with sec := { up.sec with slotWriting := true } }, (by decide +kernel)⟩⟩

theorem test_meets_BootRomCommands :
    (∃ (s : State), (s.power.phase = .rom)) ∧
    (∃ (ok : Bool) (s : State), (s.power.phase = .rom) ∧ (s.sec.recoveryAsked = true)) ∧
    (∃ (ok : Bool) (s : State), (s.power.phase = .rom) ∧ (s.sec.recoveryAsked = false)) ∧
    (∃ (s : State), (s.power.phase = .firmware)) ∧
    (∃ (lost : List Nat) (s : State), (s.power.phase = .firmware)) :=
  ⟨⟨State.reset, (by decide +kernel)⟩,
   ⟨true, { State.reset with sec := { State.reset.sec with recoveryAsked := true } }, (by decide +kernel)⟩,
   ⟨true, State.reset, (by decide +kernel)⟩,
   ⟨inPhase .firmware, (by decide +kernel)⟩,
   ⟨[], on [2080] (inPhase .firmware), (by decide +kernel)⟩⟩

theorem test_meets_RecoveryMailbox :
    (∃ (i : Initiator) (v : BitVec 32) (image : HostRead) (s : State), (classU i = true) ∧ (mailboxOn s = false)) ∧
    (∃ (i : Initiator) (v : BitVec 32) (image : HostRead) (s : State), (classU i = true) ∧ (mailboxOn s = true) ∧
      (s.regs.xdomBusy = false) ∧ (v.getLsbD 0 = true) ∧ ((s.regs.rcvState = 0 ∨ s.regs.rcvState = 5))) ∧
    (∃ (ok : Bool) (s : State), (mailboxOn s = true) ∧ (s.regs.rcvState = 3)) :=
  ⟨⟨.portU, 1, .failed, up, (by decide +kernel)⟩,
   ⟨.portU, 1, .data [1,2], inPhase .recovery, (by decide +kernel)⟩,
   ⟨true, { (inPhase .recovery) with regs := { State.reset.regs with rcvState := 3 } }, (by decide +kernel)⟩⟩

theorem test_meets_PldmRecovery :
    (∃ (s : State), (pldmOn s = false)) ∧
    (∃ (s : State), (pldmOn s = true) ∧ (s.sec.pldm = .idle)) ∧
    (∃ (s : State), (pldmOn s = true) ∧ (s.sec.pldm = .requested)) ∧
    (∃ (size : BitVec 32) (s : State), (pldmOn s = true) ∧ (s.sec.pldm = .described) ∧ (size.toNat ≤ 25165824)) ∧
    (∃ (offset : BitVec 32) (data : Bytes) (s : State), (pldmOn s = true) ∧ (s.sec.pldm = .transferring) ∧
      (offset.toNat = s.sec.recoveryImage.length) ∧ (0 < data.length) ∧ (data.length ≤ 1024) ∧
      (s.sec.recoveryImage.length + data.length ≤ s.sec.pldmSize)) ∧
    (∃ (s : State), (pldmOn s = true) ∧ (s.sec.pldm = .transferring) ∧ (s.sec.recoveryImage.length = s.sec.pldmSize)) ∧
    (∃ (s : State), (pldmOn s = true) ∧ (s.sec.pldm = .transferred)) ∧
    (∃ (ok : Bool) (s : State), (pldmOn s = true) ∧ (s.sec.pldm = .verified)) ∧
    (∃ (s : State), (pldmOn s = true) ∧ (s.sec.pldm = .applied)) ∧
    (∃ (s : State), (pldmOn s = true) ∧ (s.sec.pldm ≠ .idle)) :=
  ⟨⟨up, (by decide +kernel)⟩,
   ⟨{ (inPhase .recovery) with sec := { State.reset.sec with pldm := .idle } }, (by decide +kernel)⟩,
   ⟨{ (inPhase .recovery) with sec := { State.reset.sec with pldm := .requested } }, (by decide +kernel)⟩,
   ⟨25165824, { (inPhase .recovery) with sec := { State.reset.sec with pldm := .described } }, (by decide +kernel)⟩,
   ⟨0, [1], { (inPhase .recovery) with sec := { State.reset.sec with pldm := .transferring, pldmSize := 1 } }, (by decide +kernel)⟩,
   ⟨{ (inPhase .recovery) with sec := { State.reset.sec with pldm := .transferring, pldmSize := 1, recoveryImage := [7] } },
    (by decide +kernel)⟩,
   ⟨{ (inPhase .recovery) with sec := { State.reset.sec with pldm := .transferred, recoveryImage := [7] } }, (by decide +kernel)⟩,
   ⟨true, { (inPhase .recovery) with sec := { State.reset.sec with pldm := .verified } }, (by decide +kernel)⟩,
   ⟨{ (inPhase .recovery) with sec := { State.reset.sec with pldm := .applied } }, (by decide +kernel)⟩,
   ⟨{ (inPhase .recovery) with sec := { State.reset.sec with pldm := .applied } }, (by decide +kernel)⟩⟩

theorem test_meets_SpdmSession :
    (∃ (conn : Nat) (msg : Bytes) (s : State), (connOpen s conn = true) ∧ (coreSleeps s = false) ∧ (uzomelRuns s = true)) ∧
    (∃ (conn : Nat) (msg : Bytes) (s : State), (connOpen s conn = true) ∧ (coreSleeps s = false) ∧ (uzomelRuns s = true) ∧ (1 ≤
      (connOf s conn).stage)) ∧
    (∃ (conn : Nat) (msg : Bytes) (rsa sha : Bool) (s : State), (connOpen s conn = true) ∧ (coreSleeps s = false) ∧
      (uzomelRuns s = true) ∧ (2 ≤ (connOf s conn).stage)) ∧
    (∃ (conn : Nat) (msg : Bytes) (s : State), (connOpen s conn = true) ∧ (coreSleeps s = false) ∧ (uzomelRuns s = true) ∧
      ((connOf s conn).stage = 0)) ∧
    (∃ (conn : Nat) (msg : Bytes) (s : State), (connOpen s conn = true) ∧ (coreSleeps s = false) ∧ (uzomelRuns s = false)) :=
  ⟨⟨3, [1], up, (by decide +kernel)⟩,
   ⟨3, [1], { up with sec := { up.sec with conns := [(3, { stage := 1, transcript := [2] })] } }, (by decide +kernel)⟩,
   ⟨3, [9], true, true, { up with sec := { up.sec with conns := [(3, { stage := 2 })] } }, (by decide +kernel)⟩,
   ⟨3, [], up, (by decide +kernel)⟩,
   ⟨3, [], State.reset, (by decide +kernel)⟩⟩

theorem test_meets_SpdmReads :
    (∃ (conn : Nat) (msg : Bytes) (s : State), (connOpen s conn = true) ∧ (coreSleeps s = false) ∧ (uzomelRuns s = true) ∧ (3 ≤
      (connOf s conn).stage)) ∧
    (∃ (conn : Nat) (msg : Bytes) (slot : BitVec 8) (offset length : BitVec 16) (s : State), (connOpen s conn = true) ∧
      (coreSleeps s = false) ∧ (uzomelRuns s = true) ∧ (3 ≤ (connOf s conn).stage)) ∧
    (∃ (conn : Nat) (msg : Bytes) (s : State), (connOpen s conn = true) ∧ (coreSleeps s = false) ∧ (uzomelRuns s = true) ∧ (3 ≤
      (connOf s conn).stage) ∧ (s.sec.identity = true)) ∧
    (∃ (conn : Nat) (msg : Bytes) (slot : BitVec 8) (s : State), (connOpen s conn = true) ∧ (coreSleeps s = false) ∧
      (uzomelRuns s = true) ∧ (3 ≤ (connOf s conn).stage) ∧ (slot ≠ 0)) ∧
    (∃ (conn : Nat) (msg : Bytes) (slot index : BitVec 8) (s : State), (connOpen s conn = true) ∧ (coreSleeps s = false) ∧
      (uzomelRuns s = true) ∧ (3 ≤ (connOf s conn).stage) ∧ ((index.toNat ≤ 8 ∨ index = 0xFF))) ∧
    (∃ (conn : Nat) (msg : Bytes) (index : BitVec 8) (s : State), (connOpen s conn = true) ∧ (coreSleeps s = false) ∧
      (uzomelRuns s = true) ∧ (3 ≤ (connOf s conn).stage) ∧ ((index.toNat ≤ 8 ∨ index = 0xFF)) ∧ (s.sec.identity = true)) ∧
    (∃ (conn : Nat) (msg : Bytes) (slot index : BitVec 8) (s : State), (connOpen s conn = true) ∧ (coreSleeps s = false) ∧
      (uzomelRuns s = true) ∧ (3 ≤ (connOf s conn).stage) ∧ ((index.toNat ≤ 8 ∨ index = 0xFF)) ∧ (slot ≠ 0)) ∧
    (∃ (conn : Nat) (chunk : Bytes) (last : Bool) (s : State), (connOpen s conn = true) ∧ (coreSleeps s = false) ∧
      (uzomelRuns s = true) ∧ (3 ≤ (connOf s conn).stage)) ∧
    (∃ (conn size : Nat) (s : State), (connOpen s conn = true) ∧ (coreSleeps s = false) ∧ (uzomelRuns s = true) ∧ (3 ≤
      (connOf s conn).stage) ∧ ((connOf s conn).outbound ≠ [])) ∧
    (∃ (conn : Nat) (msg : Bytes) (d : Digest) (s : State), (connOpen s conn = true) ∧ (coreSleeps s = false) ∧
      (uzomelRuns s = true) ∧ ((connOf s conn).signed = some d) ∧ (s.sec.identity = true)) ∧
    (∃ (conn : Nat) (msg : Bytes) (s : State), (connOpen s conn = true) ∧ (coreSleeps s = false) ∧ (uzomelRuns s = true) ∧
      ((connOf s conn).signed = none)) :=
  ⟨⟨3, [1], { up with sec := { up.sec with conns := [(3, { stage := 3 })] } }, (by decide +kernel)⟩,
   ⟨3, [1], 0, 0, 16, { up with sec := { up.sec with conns := [(3, { stage := 3 })] } }, (by decide +kernel)⟩,
   ⟨3, [1], { up with sec := { up.sec with conns := [(3, { stage := 3 })], identity := true } }, (by decide +kernel)⟩,
   ⟨3, [1], 1, { up with sec := { up.sec with conns := [(3, { stage := 3 })] } }, (by decide +kernel)⟩,
   ⟨3, [1], 0, 0, { up with sec := { up.sec with conns := [(3, { stage := 3 })] } }, (by decide +kernel)⟩,
   ⟨3, [1], 0, { up with sec := { up.sec with conns := [(3, { stage := 3 })], identity := true } }, (by decide +kernel)⟩,
   ⟨3, [1], 2, 8, { up with sec := { up.sec with conns := [(3, { stage := 3 })] } }, (by decide +kernel)⟩,
   ⟨3, [1,2], false, { up with sec := { up.sec with conns := [(3, { stage := 3 })] } }, (by decide +kernel)⟩,
   ⟨3, 2, { up with sec := { up.sec with conns := [(3, { stage := 3, outbound := [1, 2, 3] })] } }, (by decide +kernel)⟩,
   ⟨3, [], [5], { up with sec := { up.sec with conns := [(3, { stage := 3, signed := some [5] })], identity := true } },
    (by decide +kernel)⟩,
   ⟨3, [], { up with sec := { up.sec with conns := [(3, { stage := 3 })] } }, (by decide +kernel)⟩⟩

theorem test_meets_FirmwareUpdate :
    (∃ (r : Requester) (image : Bytes) (s : State), (heard s r (ob 0xA010 0) 0 = true) ∧ (reqPrivileged s r = true) ∧
      (s.sec.slotWriting = false) ∧ (valueFrom s r image ≠ [])) ∧
    (∃ (r : Requester) (image : Bytes) (s : State), (heard s r (ob 0xA010 0) 0 = true) ∧ (reqPrivileged s r = true) ∧
      (s.sec.slotWriting = true)) ∧
    (∃ (r : Requester) (data : Bytes) (s : State), (heard s r (ob 0xA012 1) 0 = true) ∧ (reqPrivileged s r = true) ∧
      ((valueFrom s r data).length = 4) ∧ (leNat (valueFrom s r data) = s.sec.stageId.toNat) ∧ (stagePassed s = true) ∧
      (s.sec.slotWriting = false)) ∧
    (∃ (r : Requester) (data : Bytes) (s : State), (heard s r (ob 0xA012 1) 0 = true) ∧ (reqPrivileged s r = true) ∧ (leNat
      (valueFrom s r data) ≠ s.sec.stageId.toNat)) ∧
    (∃ (ok : Bool) (s : State), (s.sec.slotWriting = true) ∧ (s.sec.deferredReset = none)) ∧
    (∃ (ok : Bool) (s : State), (s.sec.slotWriting = true) ∧ (s.sec.deferredReset.isSome = true)) ∧
    (∃ (r : Requester) (data : Bytes) (n : BitVec 8) (s : State), (heard s r (ob 0xA013 1) 0 = true) ∧ (reqPrivileged s r = true) ∧
      (valueFrom s r data = [n]) ∧ ((n = 1 ∨ n = 2))) ∧
    (∃ (r : Requester) (data : Bytes) (s : State), (heard s r (ob 0xA013 1) 0 = true) ∧ (reqPrivileged s r = true) ∧
      (valueFrom s r data ≠ [1]) ∧ (valueFrom s r data ≠ [2])) :=
  ⟨⟨.queue 0, [1], { (writes (ob 0xA010 0) 0 1) with sec := { up.sec with stageId := 4 } }, (by decide +kernel)⟩,
   ⟨.queue 0, [1], { (writes (ob 0xA010 0) 0 1) with sec := { up.sec with slotWriting := true } }, (by decide +kernel)⟩,
   ⟨.queue 0, [5, 0, 0, 0], { (writes (ob 0xA012 1) 0 4) with sec := { up.sec with stageId := 5, stageState := 2, stage := [1] } },
    (by decide +kernel)⟩,
   ⟨.queue 0, [4, 0, 0, 0], { (writes (ob 0xA012 1) 0 4) with sec := { up.sec with stageId := 5 } }, (by decide +kernel)⟩,
   ⟨true, { up with sec := { up.sec with slotWriting := true, stage := [9] } }, (by decide +kernel)⟩,
   ⟨true, { up with sec := { up.sec with slotWriting := true, stage := [9], deferredReset := some 1 } }, (by decide +kernel)⟩,
   ⟨.queue 0, [1], 1, writes (ob 0xA013 1) 0 1, (by decide +kernel)⟩,
   ⟨.queue 0, [3], writes (ob 0xA013 1) 0 1, (by decide +kernel)⟩⟩

theorem test_meets_PolicyAndKeyWrites :
    (∃ (r : Requester) (data : Bytes) (s : State), (heard s r (ob 0xA001 1) 0 = true) ∧ (reqPrivileged s r = true) ∧
      ((valueFrom s r data).length = 8)) ∧
    (∃ (r : Requester) (data : Bytes) (s : State), (heard s r (ob 0xA001 1) 0 = true) ∧ (reqPrivileged s r = false)) ∧
    (∃ (r : Requester) (n : Nat) (data : Bytes) (s : State), (heard s r (ob 0xA031 0) n = true) ∧ (reqPrivileged s r = true) ∧
      (n < 16) ∧ (s.sec.policy.getLsbD 2 = true) ∧ ((valueFrom s r data).length = 512) ∧ (fld (valueFrom s r data) 0 1 = 1) ∧
      ((tget s.sec.keys n {}).trusted = false) ∧ (keyFormed (valueFrom s r data) = true)) ∧
    (∃ (r : Requester) (n : Nat) (data : Bytes) (s : State), (heard s r (ob 0xA031 0) n = true) ∧ (reqPrivileged s r = true) ∧
      (n < 16) ∧ (s.sec.policy.getLsbD 2 = true) ∧ (valueFrom s r data = []) ∧ (keyNamed s n = false)) ∧
    (∃ (r : Requester) (n : Nat) (data : Bytes) (s : State), (heard s r (ob 0xA031 0) n = true) ∧ (reqPrivileged s r = true) ∧
      (n < 16) ∧ (s.sec.policy.getLsbD 2 = false)) :=
  ⟨⟨.queue 0, [0xFE, 255, 255, 255, 255, 255, 255, 255], writes (ob 0xA001 1) 0 8, (by decide +kernel)⟩,
   ⟨.queue 0, [], { (writes (ob 0xA001 1) 0 8) with sec := { up.sec with policy := 0xFFFFFFFFFFFFFFFE } }, (by decide +kernel)⟩,
   ⟨.queue 0, 15, (leBytes 4 1 ++ [0,1,0,1] ++ List.replicate 384 255 ++ List.replicate 64 3 ++ List.replicate 56 0), writes
    (ob 0xA031 0) 15 512, (by decide +kernel)⟩,
   ⟨.queue 0, 15, [], writes (ob 0xA031 0) 15 0, (by decide +kernel)⟩,
   ⟨.queue 0, 0, [], { (writes (ob 0xA031 0) 0 0) with sec := { up.sec with policy := 0xFFFFFFFFFFFFFFFB } }, (by decide +kernel)⟩⟩

theorem test_meets_KeyWindowMoves :
    (∃ (p : QPair) (n : Nat), (keyClass p n = .new)) :=
  ⟨{}, 5, (by decide +kernel)⟩

theorem test_meets_FinishWritesLogThenCompletion :
    (∃ (a : Nat) (r : Reply) (s : State) (c : Cmd), (tget? s.que.cmds a = some c) ∧ ((pairOf s c.pair).state ≠ .error) ∧
      (pairCqHarbour (pairOf s c.pair) = false) ∧ (pairLogHarbour (pairOf s c.pair) = false) ∧ ((portOf s
      (pairOf s c.pair).port).d3hot = false)) ∧
    (∃ (a : Nat) (r : Reply) (s : State) (c : Cmd), (tget? s.que.cmds a = some c) ∧ ((pairOf s c.pair).state = .error)) :=
  ⟨⟨0, { status := 3 }, asked 1 0 0 0 0 0 0 0, cmd (ent 1 0 0 0 0 0 0 0), (by decide +kernel)⟩,
   ⟨0, { status := 3 }, { (asked 1 0 0 0 0 0 0 0) with que := { (asked 1 0 0 0 0 0 0 0).que with pairs := [(0, { state := .error })] } },
    cmd (ent 1 0 0 0 0 0 0 0), (by decide +kernel)⟩⟩

theorem test_meets_SubmissionReading :
    (∃ (pair : Fin 16384) (e : HostRead) (s : State), (isReady s = false ∨ nextPair s ≠ some pair.val)) ∧
    (∃ (pair : Fin 16384) (b : Bytes) (a : Nat) (s : State), (isReady s = true) ∧ (contextMoment s = false) ∧
      (nextPair s = some pair.val) ∧ (freeKey s.que.cmds 4096 = some a) ∧ (pairSqHarbour (pairOf s pair.val) = false) ∧ (keyPair
      (entKey (fit b 64)) = pair.val) ∧ (keyClass (pairOf s pair.val) (keySeq (entKey (fit b 64))) = .new) ∧ (admissionFault s
      (pairOf s pair.val) (fit b 64) = none)) ∧
    (∃ (pair : Fin 16384) (b : Bytes) (a : Nat) (s : State), (isReady s = true) ∧ (contextMoment s = false) ∧
      (nextPair s = some pair.val) ∧ (freeKey s.que.cmds 4096 = some a) ∧ (pairSqHarbour (pairOf s pair.val) = false) ∧ (keyPair
      (entKey (fit b 64)) ≠ pair.val)) ∧
    (∃ (pair : Fin 16384) (b : Bytes) (a : Nat) (s : State), (isReady s = true) ∧ (contextMoment s = false) ∧
      (nextPair s = some pair.val) ∧ (freeKey s.que.cmds 4096 = some a) ∧ (pairSqHarbour (pairOf s pair.val) = false) ∧ (keyPair
      (entKey (fit b 64)) = pair.val) ∧ (keyClass (pairOf s pair.val) (keySeq (entKey (fit b 64))) = .stale)) ∧
    (∃ (pair : Fin 16384) (b : Bytes) (a : Nat) (s : State), (isReady s = true) ∧ (contextMoment s = false) ∧
      (nextPair s = some pair.val) ∧ (freeKey s.que.cmds 4096 = some a) ∧ (pairSqHarbour (pairOf s pair.val) = false) ∧ (keyPair
      (entKey (fit b 64)) = pair.val) ∧ (keyClass (pairOf s pair.val) (keySeq (entKey (fit b 64))) = .duplicate)) ∧
    (∃ (pair : Fin 16384) (a : Nat) (s : State), (isReady s = true) ∧ (contextMoment s = false) ∧ (nextPair s = some pair.val) ∧
      (freeKey s.que.cmds 4096 = some a) ∧ (pairSqHarbour (pairOf s pair.val) = false)) :=
  ⟨⟨0, .failed, up, (by decide +kernel)⟩,
   ⟨0, leBytes 1 9 ++ leBytes 7 0 ++ leBytes 8 (5 + 0 * 2 ^ 50), 0,
    { up with que := { up.que with pairs := [(0, { admin with sqTail := 1 })] } }, (by decide +kernel)⟩,
   ⟨0, leBytes 1 9 ++ leBytes 7 0 ++ leBytes 8 (5 + 1 * 2 ^ 50), 0,
    { up with que := { up.que with pairs := [(0, { admin with sqTail := 1 })] } }, (by decide +kernel)⟩,
   ⟨0, leBytes 1 9 ++ leBytes 7 0 ++ leBytes 8 (0 + 0 * 2 ^ 50), 0,
    { up with que := { up.que with pairs := [(0, { admin with sqTail := 1, hs := 4096 })] } }, (by decide +kernel)⟩,
   ⟨0, leBytes 1 9 ++ leBytes 7 0 ++ leBytes 8 (5 + 0 * 2 ^ 50), 0,
    { up with que := { up.que with pairs := [(0, { admin with sqTail := 1, hs := 5, seen := 32 })] } }, (by decide +kernel)⟩,
   ⟨0, 0, { up with que := { up.que with pairs := [(0, { admin with sqTail := 1 })] } }, (by decide +kernel)⟩⟩

theorem test_meets_DuplicateReplays :
    (∃ (pair : Fin 16384) (key : BitVec 64) (b : Bytes) (d : BitVec 64 × Bool × BitVec 64) (s : State),
      (((pairOf s pair.val).duplicates.find? fun x => x.1 = key) = some d) ∧
      ((s.que.cmds.any fun c => c.2.pair = pair.val && entKey c.2.entry = key.toNat) = false) ∧
      ((pairOf s pair.val).state = .enabled) ∧ (pairLogHarbour (pairOf s pair.val) = false) ∧ (fld (fit b 32) 0 8 = key.toNat)) ∧
    (∃ (pair : Fin 16384) (key : BitVec 64) (read : HostRead) (d : BitVec 64 × Bool × BitVec 64) (s : State),
      (((pairOf s pair.val).duplicates.find? fun x => x.1 = key) = some d) ∧
      ((s.que.cmds.any fun c => c.2.pair = pair.val && entKey c.2.entry = key.toNat) = false) ∧
      ((pairOf s pair.val).state = .enabled) ∧ (pairLogHarbour (pairOf s pair.val) = false) ∧ ((∀ b, read = .data b → fld
      (fit b 32) 0 8 ≠ key.toNat))) :=
  ⟨⟨0, 7, leBytes 8 7, (7, false, 0),
    { up with que := { up.que with pairs := [(0, { admin with duplicates := [(7, false, 0)] })] } }, (by decide +kernel)⟩,
   ⟨0, 7, .failed, (7, false, 0), { up with que := { up.que with pairs := [(0, { admin with duplicates := [(7, false, 0)] })] } },
    ⟨by decide +kernel, by decide +kernel, by decide +kernel, by decide +kernel, fun _ h => nomatch h⟩⟩⟩

theorem test_meets_DoorbellsAndInterrupts :
    (∃ (port : Port) (pair : Fin 16384) (v : BitVec 32) (s : State), (s.power.phase ≠ .ready)) ∧
    (∃ (port : Port) (pair : Fin 16384) (v : BitVec 32) (s : State), (s.power.phase = .ready) ∧
      (doorbellOpen s port pair.val = false)) ∧
    (∃ (port : Port) (pair : Fin 16384) (v : BitVec 32) (s : State), (s.power.phase = .ready) ∧ (doorbellOpen s port pair.val = true)) ∧
    (∃ (port : Port) (pair : Fin 16384) (v : BitVec 32) (s : State), (s.power.phase = .ready) ∧ (doorbellOpen s port pair.val = true)) ∧
    (∃ (pair : Fin 16384) (first : BitVec 64) (s : State), ((pairOf s pair.val).firstUnsignalled = some first) ∧
      ((pairOf s pair.val).intrTime * 1000 ≤ (tideOf s - first).toNat) ∧ (0 < (pairOf s pair.val).unsignalled)) ∧
    (∃ (pair : Fin 16384) (s : State), ((pairOf s pair.val).state = .disabling) ∧ (outstanding s pair.val = 0)) :=
  ⟨⟨.u, 0, 1, State.reset, (by decide +kernel)⟩,
   ⟨.d, 0, 1, holding (cmd []), (by decide +kernel)⟩,
   ⟨.u, 0, 0, holding (cmd []), (by decide +kernel)⟩,
   ⟨.u, 0, 0, holding (cmd []), (by decide +kernel)⟩,
   ⟨0, 0, { up with que := { up.que with pairs := [(0, { admin with firstUnsignalled := some 0, unsignalled := 1 })] } },
    (by decide +kernel)⟩,
   ⟨0, { up with que := { up.que with pairs := [(0, { admin with state := .disabling })] } }, (by decide +kernel)⟩⟩

theorem test_meets_ContextCommands :
    (∃ (a : Fin 4096) (c : Cmd) (n : Nat) (s : State), (cmdAt s a.val 2 = some c) ∧ (groupSlot s c.group.toNat = some n)) ∧
    (∃ (a : Fin 4096) (c : Cmd) (s : State), (cmdAt s a.val 3 = some c)) ∧
    (∃ (a : Fin 4096) (c : Cmd) (s : State), (cmdAt s a.val 4 = some c)) ∧
    (∃ (a : Fin 4096) (c : Cmd) (s : State), (drainedCmd s a.val 3 = some c)) ∧
    (∃ (a : Fin 4096) (c : Cmd) (s : State), (drainedCmd s a.val 4 = some c)) ∧
    (∃ (a : Fin 4096) (c : Cmd) (saved : HostRead) (s : State), (cmdAt s a.val 5 = some c) ∧ (fld (ctxRecord s
      (entArg c.entry)) 0 1 ≠ 0)) ∧
    (∃ (a : Fin 4096) (c : Cmd) (b : Bytes) (s : State), (cmdAt s a.val 5 = some c) ∧ (fld (ctxRecord s (entArg c.entry)) 0 1 = 0) ∧
      (savedOk (b.take (fld c.entry 0x18 8)) (fld c.entry 0x18 8) = false)) ∧
    (∃ (a : Fin 4096) (c : Cmd) (b : Bytes) (n : Nat) (s : State), (cmdAt s a.val 5 = some c) ∧ (fld (ctxRecord s
      (entArg c.entry)) 0 1 = 0) ∧ (groupSlot s c.group.toNat = some n) ∧ (
  let x := b.take (fld c.entry 0x18 8)
  (savedOk x (fld c.entry 0x18 8) = true) ∧ (sub x 0x10 48 = fit (slotOf s n).lastHash 48) ∧ (bitAt (fld x
      (128 + 6) 2) 0 = false) ∧ (
  let pool := tget s.flow.pools (kvPool c.group.toNat) []
  (fld x 0x44 4 ≤ pool.length) ∧ (runsWait s (slabRuns (pool.take (fld x 0x44 4))) = false)))) :=
  ⟨⟨0, { (cmd (ent 2 0 0 3 0 0 4294967295 0)) with group := 5 }, 2, owning { state := .resident } (asked 2 0 0 3 0 0 4294967295 0),
    (by decide +kernel)⟩,
   ⟨0, cmd (ent 3 0 0 3 0 0 0 0), asked 3 0 0 3 0 0 0 0, (by decide +kernel)⟩,
   ⟨0, cmd (ent 4 0 0 3 0 0 0 0), asked 4 0 0 3 0 0 0 0, (by decide +kernel)⟩,
   ⟨0, { (cmd (ent 3 0 0 3 0 0 0 0)) with stage := .draining }, holding ({ (cmd (ent 3 0 0 3 0 0 0 0)) with stage := .draining }),
    (by decide +kernel)⟩,
   ⟨0, { (cmd (ent 4 0 0 3 0 0 0 0)) with stage := .draining }, holding ({ (cmd (ent 4 0 0 3 0 0 0 0)) with stage := .draining }),
    (by decide +kernel)⟩,
   ⟨0, cmd (ent 5 0 0 3 0 0 0 0), .failed, ctxWrite 3 0 [1] (asked 5 0 0 3 0 0 0 0), (by decide +kernel)⟩,
   ⟨0, cmd (ent 5 0 0 3 0 0 0 0), [1], asked 5 0 0 3 0 0 0 0, (by decide +kernel)⟩,
   ⟨0, { (cmd (ent 5 0 0 3 0 384 0 0)) with group := 5 }, savedContext State.reset 0, 2, owning { lastHash := List.replicate 48 0 }
    (asked 5 0 0 3 0 384 0 0), (by decide +kernel)⟩⟩

theorem test_meets_FencesAndCancels :
    (∃ (a : Fin 4096) (c : Cmd) (s : State), (cmdAt s a.val 9 = some c)) ∧
    (∃ (a : Fin 4096) (c : Cmd) (s : State), (tget? s.que.cmds a.val = some c) ∧ (entOpcode c.entry = 9) ∧ (c.stage = .running) ∧
      ((∀ e, e ∈ s.que.cmds → e.2.order ∉ c.waitsFor))) ∧
    (∃ (a : Fin 4096) (c : Cmd) (e : Nat × Cmd) (s : State), (tget? s.que.cmds a.val = some c) ∧ (entOpcode c.entry = 9) ∧
      (e ∈ s.que.cmds) ∧ (e.2.order ∈ c.waitsFor)) ∧
    (∃ (a : Fin 4096) (c : Cmd) (s : State), (cmdAt s a.val 8 = some c) ∧ (keyPair (fld c.entry 0x10 8) ≠ c.pair) ∧ (pairAdmin
      (pairOf s c.pair) = false)) ∧
    (∃ (a : Fin 4096) (c : Cmd) (s : State), (cmdAt s a.val 8 = some c) ∧ ((keyPair (fld c.entry 0x10 8) = c.pair ∨ pairAdmin
      (pairOf s c.pair) = true)) ∧ (cmdOfKey s (fld c.entry 0x10 8) = none)) ∧
    (∃ (a : Fin 4096) (c : Cmd) (t : Nat) (k : Cmd) (r : Req) (s : State), (cmdAt s a.val 8 = some c) ∧ ((keyPair
      (fld c.entry 0x10 8) = c.pair ∨ pairAdmin (pairOf s c.pair) = true)) ∧ (cmdOfKey s (fld c.entry 0x10 8) = some (t, k)) ∧
      (entOpcode k.entry = 1) ∧ (k.stage ≠ .parked) ∧ (tget? s.que.reqs t = some r) ∧ (r.stopped = none)) ∧
    (∃ (a : Fin 4096) (c : Cmd) (t : Nat) (k : Cmd) (s : State), (cmdAt s a.val 8 = some c) ∧ ((keyPair
      (fld c.entry 0x10 8) = c.pair ∨ pairAdmin (pairOf s c.pair) = true)) ∧ (cmdOfKey s (fld c.entry 0x10 8) = some (t, k)) ∧
      ((k.stage = .parked ∨ (entOpcode k.entry ≠ 1 ∧ entOpcode k.entry ≠ 0x10 ∧ entOpcode k.entry ≠ 0x12)))) :=
  ⟨⟨0, cmd (ent 9 0 0 0 0 0 0 0), asked 9 0 0 0 0 0 0 0, (by decide +kernel)⟩,
   ⟨0, { (cmd (ent 9 0 0 0 0 0 0 0)) with stage := .running, waitsFor := [1], order := 4 }, holding
    ({ (cmd (ent 9 0 0 0 0 0 0 0)) with stage := .running, waitsFor := [1], order := 4 }), (by decide +kernel)⟩,
   ⟨1, { (cmd (ent 9 0 0 0 0 0 0 0)) with stage := .running, waitsFor := [0], order := 4 }, (0, cmd []),
    { up with que := { up.que with cmds := [(0, cmd []), (1, { (cmd (ent 9 0 0 0 0 0 0 0)) with stage := .running, waitsFor := [0], order := 4 })] } },
    (by decide +kernel)⟩,
   ⟨0, { (cmd (ent 8 0 0 0 0 0 0 0)) with pair := 1 }, holding { (cmd (ent 8 0 0 0 0 0 0 0)) with pair := 1 }, (by decide +kernel)⟩,
   ⟨0, cmd (ent 8 0 0 0 5 0 0 0), asked 8 0 0 0 5 0 0 0, (by decide +kernel)⟩,
   ⟨0, cmd (ent 8 0 0 0 5 0 0 0), 1, { (cmd (leBytes 1 1 ++ leBytes 7 0 ++ leBytes 8 5)) with stage := .running }, req0,
    { (asked 8 0 0 0 5 0 0 0) with que := { (asked 8 0 0 0 5 0 0 0).que with cmds := [(0, cmd (ent 8 0 0 0 5 0 0 0)), (1, { (cmd (leBytes 1 1 ++ leBytes 7 0 ++ leBytes 8 5)) with stage := .running })], reqs := [(1, req0)] } },
    (by decide +kernel)⟩,
   ⟨0, cmd (ent 8 0 0 0 5 0 0 0), 1, { (cmd (leBytes 1 3 ++ leBytes 7 0 ++ leBytes 8 5)) with stage := .running },
    { (asked 8 0 0 0 5 0 0 0) with que := { (asked 8 0 0 0 5 0 0 0).que with cmds := [(0, cmd (ent 8 0 0 0 5 0 0 0)), (1, { (cmd (leBytes 1 3 ++ leBytes 7 0 ++ leBytes 8 5)) with stage := .running })] } },
    (by decide +kernel)⟩⟩

theorem test_meets_InferCommands :
    (∃ (a : Fin 4096) (list : HostRead) (c : Cmd) (n : Nat) (p : LastPlan) (fs : List IoField) (s : State),
      (cmdAt s a.val 1 = some c) ∧ (groupSlot s c.group.toNat = some n) ∧ ((slotOf s n).plan = some p) ∧
      (((slotOf s n).modules ≤ 1 ∨ (slotOf s n).modules = groupSize s)) ∧ (runWaits s (listRun c.entry).1
      (listRun c.entry).2 = false) ∧ (inferFields s (pairOf s c.pair) p c.entry list = .inr fs)) ∧
    (∃ (a : Fin 4096) (list : HostRead) (c : Cmd) (n : Nat) (p : LastPlan) (st d : Nat) (s : State), (cmdAt s a.val 1 = some c) ∧
      (groupSlot s c.group.toNat = some n) ∧ ((slotOf s n).plan = some p) ∧ (((slotOf s n).modules ≤ 1 ∨
      (slotOf s n).modules = groupSize s)) ∧ (runWaits s (listRun c.entry).1 (listRun c.entry).2 = false) ∧ (inferFields s
      (pairOf s c.pair) p c.entry list = .inl (st, d))) ∧
    (∃ (a : Fin 4096) (list : HostRead) (c : Cmd) (n : Nat) (p : LastPlan) (s : State), (cmdAt s a.val 1 = some c) ∧
      (groupSlot s c.group.toNat = some n) ∧ ((slotOf s n).plan = some p) ∧ (1 < (slotOf s n).modules) ∧
      ((slotOf s n).modules ≠ groupSize s)) ∧
    (∃ (a : Fin 4096) (r : Req) (s : State), (tget? s.que.reqs a.val = some r) ∧ (r.stopped = none) ∧ (inferDone s r = true) ∧
      (r.late = false) ∧ ((r.deadline = none ∨ ∃ d, r.deadline = some d ∧ (tideOf s).toNat ≤ d.toNat))) ∧
    (∃ (a : Fin 4096) (r : Req) (d : BitVec 64) (s : State), (tget? s.que.reqs a.val = some r) ∧ (r.stopped = none) ∧
      (inferDone s r = true) ∧ (r.deadline = some d) ∧ (d.toNat < (tideOf s).toNat) ∧ (reqDiscards s a.val = false)) :=
  ⟨⟨0, .failed, { (cmd (ent 1 0 0 3 0 0 0 0)) with group := 5 }, 2, plan0, plainStreams plan0 (ent 1 0 0 3 0 0 0 0),
    owning { state := .bound, plan := some plan0 } (asked 1 0 0 3 0 0 0 0), ⟨by decide, by decide, rfl, .inl (by decide),
    by decide +kernel, rfl⟩⟩,
   ⟨0, .failed, { (cmd (ent 1 0 0 3 0 0 0 7)) with group := 5 }, 2, plan0, St.invalidCommand, 0x28,
    owning { state := .bound, plan := some plan0 } (asked 1 0 0 3 0 0 0 7), ⟨by decide, by decide, rfl, .inl (by decide),
    by decide +kernel, rfl⟩⟩,
   ⟨0, .failed, { (cmd (ent 1 0 0 3 0 0 0 0)) with group := 5 }, 2, plan0,
    owning { modules := 2, state := .bound, plan := some plan0 } (asked 1 0 0 3 0 0 0 0), (by decide +kernel)⟩,
   ⟨0, req0, serving req0 (owning { state := .bound, plan := some plan0 } (asked 1 0 0 3 0 0 0 0)), ⟨rfl, rfl, by decide, rfl,
    .inl rfl⟩⟩,
   ⟨0, { req0 with deadline := some 8 }, 8,
    { (serving { req0 with deadline := some 8 } (owning { state := .bound, plan := some plan0 } (asked 1 0 0 3 0 0 0 0))) with time := { State.reset.time with pll := 9 } },
    (by decide +kernel)⟩⟩

theorem test_meets_ImageLoading :
    (∃ (a : Fin 4096) (c : Cmd) (m : HostRead) (b : Bytes) (k : Nat) (s : State), (cmdAt s a.val 0x10 = some c) ∧
      (entArg c.entry = 0xFFFFFFFF) ∧ (hostData (fld c.entry 0x18 8) m = some b) ∧ (manifestOk b (fld c.entry 0x18 8) = true) ∧
      (freeKey s.model.images 128 = some k)) ∧
    (∃ (a : Fin 4096) (c : Cmd) (m : HostRead) (b : Bytes) (s : State), (cmdAt s a.val 0x10 = some c) ∧
      (entArg c.entry = 0xFFFFFFFF) ∧ (hostData (fld c.entry 0x18 8) m = some b) ∧ (manifestOk b (fld c.entry 0x18 8) = false)) ∧
    (∃ (a : Fin 4096) (c : Cmd) (hash : HostRead) (h : Bytes) (k : Nat) (r : ImageRec) (s : State), (cmdAt s a.val 0x10 = some c) ∧
      (entArg c.entry ≠ 0xFFFFFFFF) ∧ (hostData 48 hash = some h) ∧ (imageNamed s h = some (k, r)) ∧
      (entArg c.entry < r.shards.length) ∧ ((s.model.loads.any fun l => l.2.image = k && l.2.shard = entArg c.entry) = false) ∧
      (((r.present.contains (entArg c.entry) = false ∧ r.written.contains (entArg c.entry) = false) ∨
      (tget? r.refetch (entArg c.entry)).isSome = true)) ∧ ((r.adapters = true ∨ imageTargets s r.hash (tget? r.refetch
      (entArg c.entry)).isSome ≠ []))) ∧
    (∃ (a : Fin 4096) (l : Load) (img : ImageRec) (r : ShardRec) (shard : HostRead) (b : Bytes) (sound : Bool) (s : State),
      (loadOf s a.val = some (l, img, r)) ∧ (l.programming = false) ∧ (passData (loadRoom s a.val) shard = some (b, sound))) ∧
    (∃ (a : Fin 4096) (l : Load) (img : ImageRec) (r : ShardRec) (s : State), (loadOf s a.val = some (l, img, r)) ∧
      (l.programming = false)) ∧
    (∃ (a : Fin 4096) (l : Load) (img : ImageRec) (r : ShardRec) (s : State), (loadOf s a.val = some (l, img, r)) ∧
      (l.programming = true) ∧ (l.sealing = false) ∧ (s.awl.paused = false) ∧ (slotsUsed s < 1536)) ∧
    (∃ (a : Fin 4096) (l : Load) (img : ImageRec) (r : ShardRec) (shard : HostRead) (b : Bytes) (sound : Bool) (s : State),
      (loadOf s a.val = some (l, img, r)) ∧ (l.programming = true) ∧ (passData (loadRoom s a.val) shard = some (b, sound))) ∧
    (∃ (a : Fin 4096) (l : Load) (img : ImageRec) (r : ShardRec) (shard : HostRead) (b : Bytes) (sound : Bool) (s : State),
      (loadOf s a.val = some (l, img, r)) ∧ (l.programming = true) ∧ (l.sealing = false) ∧ (img.adapters = false) ∧ (passData
      (loadRoom s a.val) shard = some (b, sound)) ∧ (s.awl.paused = false) ∧ (slotsUsed s < 1536) ∧ (movePieces l
      (loadPieces l img r b) (imageTargets s img.hash l.refetch) s = none)) :=
  ⟨⟨0, cmd (ent 16 0 0 4294967295 0 16800 0 0), .data
    (leBytes 4 0x4D495856 ++ leBytes 2 1 ++ leBytes 2 0 ++ leBytes 4 1 ++ leBytes 4 1 ++ leBytes 8 4096 ++ leBytes 8 16800 ++
    List.replicate 96 0 ++ leBytes 4 0 ++ leBytes 4 4096 ++ leBytes 4 0 ++ leBytes 4 1 ++ List.replicate 16656 0),
    (leBytes 4 0x4D495856 ++ leBytes 2 1 ++ leBytes 2 0 ++ leBytes 4 1 ++ leBytes 4 1 ++ leBytes 8 4096 ++ leBytes 8 16800 ++
    List.replicate 96 0 ++ leBytes 4 0 ++ leBytes 4 4096 ++ leBytes 4 0 ++ leBytes 4 1 ++ List.replicate 16656 0), 0,
    asked 16 0 0 4294967295 0 16800 0 0, (by decide +kernel)⟩,
   ⟨0, cmd (ent 16 0 0 4294967295 0 64 0 0), .data [], List.replicate 64 0, asked 16 0 0 4294967295 0 64 0 0, (by decide +kernel)⟩,
   ⟨0, cmd (ent 16 0 0 0 0 0 0 0), .data (List.replicate 48 1), List.replicate 48 1, 3, image0, modSlot 2
    (fun sl => { sl with state := .placed, imageHash := List.replicate 48 1, plan := some plan0 }) (imaged image0
    (asked 16 0 0 0 0 0 0 0)), (by decide +kernel)⟩,
   ⟨0, load0, image0, { bytes := 8, firstPiece := 0, pieces := 1, hash := [] }, .data [], List.replicate 8 0, true, loading load0
    (imaged image0 (asked 16 0 0 0 0 8 0 0)), (by decide +kernel)⟩,
   ⟨0, load0, image0, { bytes := 8, firstPiece := 0, pieces := 1, hash := [] }, loading load0 (imaged image0
    (asked 16 0 0 0 0 8 0 0)), (by decide +kernel)⟩,
   ⟨0, { load0 with programming := true }, image0, { bytes := 8, firstPiece := 0, pieces := 1, hash := [] },
    loading { load0 with programming := true } (imaged image0 (asked 16 0 0 0 0 8 0 0)), (by decide +kernel)⟩,
   ⟨0, { load0 with programming := true }, image0, { bytes := 8, firstPiece := 0, pieces := 1, hash := [] }, .data [],
    List.replicate 8 0, true, loading { load0 with programming := true } (imaged image0 (asked 16 0 0 0 0 8 0 0)),
    (by decide +kernel)⟩,
   ⟨0, { load0 with programming := true }, image0, { bytes := 8, firstPiece := 0, pieces := 1, hash := [] }, .data [],
    List.replicate 8 0, true, modBank 5 (fun b => { b with state := .retired }) (modSlot 2
    (fun sl => { sl with state := .placed, imageHash := List.replicate 48 1, plan := some plan0, places := [{slice := 0, bank := 5, third := 0, spill := false}] })
    (loading { load0 with programming := true } (imaged image0 (asked 16 0 0 0 0 8 0 0)))), (by decide +kernel)⟩⟩

theorem test_meets_ImagePassSealsOrRetries :
    (∃ (a : Fin 4096) (l : Load) (img : ImageRec) (r : ShardRec) (b : Bytes) (sound : Bool) (s : State),
      (tget? s.model.images l.image = some img) ∧ (l.sealing = false) ∧ ((∀ t ∈ imageTargets s img.hash true, ∀ q ∈ t.places,
      q.spill = false)) ∧ ((∀ t ∈ imageTargets s img.hash l.refetch, ∀ p ∈ loadPieces l img r b,
      placeReady s l t p = true ∧ ∀ q ∈ (targetNow s t).places, mustMove s l (targetNow s t) q = false))) :=
  ⟨0, { load0 with programming := true }, image0, { bytes := 8, firstPiece := 0, pieces := 1, hash := [] }, List.replicate 8 0,
    true, loading { load0 with programming := true } (imaged image0 (asked 16 0 0 0 0 8 0 0)), (by decide +kernel)⟩

theorem test_meets_ImageCommitAndDrop :
    (∃ (a : Fin 4096) (c : Cmd) (hash : HostRead) (h : Bytes) (s : State), (cmdAt s a.val 0x11 = some c) ∧
      (hostData 48 hash = some h) ∧ (imageNamed s h = none)) ∧
    (∃ (a : Fin 4096) (c : Cmd) (hash : HostRead) (h : Bytes) (k : Nat) (r : ImageRec) (s : State), (cmdAt s a.val 0x11 = some c) ∧
      (hostData 48 hash = some h) ∧ (imageNamed s h = some (k, r)) ∧ (r.state = .partly)) ∧
    (∃ (a : Fin 4096) (c : Cmd) (hash : HostRead) (h : Bytes) (k : Nat) (r : ImageRec) (s : State), (cmdAt s a.val 0x11 = some c) ∧
      (hostData 48 hash = some h) ∧ (imageNamed s h = some (k, r)) ∧ (r.state ≠ .partly)) ∧
    (∃ (a : Fin 4096) (c : Cmd) (hash : HostRead) (h : Bytes) (k : Nat) (r : ImageRec) (s : State), (cmdSub s a.val 0x19 3 = some c) ∧
      (hostData 48 hash = some h) ∧ (imageNamed s h = some (k, r))) ∧
    (∃ (s : State), (uzomelRuns s = true)) :=
  ⟨⟨0, cmd (ent 17 0 0 0 0 0 0 0), .data (List.replicate 48 1), List.replicate 48 1, asked 17 0 0 0 0 0 0 0, (by decide +kernel)⟩,
   ⟨0, cmd (ent 17 0 0 0 0 0 0 0), .data (List.replicate 48 1), List.replicate 48 1, 3, image0, imaged image0
    (asked 17 0 0 0 0 0 0 0), (by decide +kernel)⟩,
   ⟨0, cmd (ent 17 0 0 0 0 0 0 0), .data (List.replicate 48 1), List.replicate 48 1, 3, { image0 with state := .complete }, modSlot 2
    (fun sl => { sl with state := .placed, imageHash := List.replicate 48 1, plan := some plan0 }) (imaged
    ({ image0 with state := .complete }) (asked 17 0 0 0 0 0 0 0)), (by decide +kernel)⟩,
   ⟨0, cmd (ent 25 3 0 0 0 0 0 0), .data (List.replicate 48 1), List.replicate 48 1, 3, image0, imaged image0
    (asked 25 3 0 0 0 0 0 0), (by decide +kernel)⟩,
   ⟨up, (by decide +kernel)⟩⟩

theorem test_meets_SwapCommands :
    (∃ (a : Fin 4096) (c : Cmd) (file table : HostRead) (choice : List Placed) (s : State), (cmdSub s a.val 0x12 0 = some c) ∧
      (entSlot c.entry < 64) ∧ (entArg c.entry ≤ 2) ∧ ((slotOf s (entSlot c.entry)).state ≠ .resident) ∧ ((slotOf s
      (entSlot c.entry)).state ≠ .bound)) ∧
    (∃ (a : Fin 4096) (c : Cmd) (file table : HostRead) (choice : List Placed) (b : Bytes) (s : State),
      (cmdSub s a.val 0x12 0 = some c) ∧ (entSlot c.entry < 64) ∧ (entArg c.entry ≤ 2) ∧ (((slotOf s
      (entSlot c.entry)).state = .resident ∨ (slotOf s (entSlot c.entry)).state = .bound)) ∧ ((slotOf s
      (entSlot c.entry)).detaching = false) ∧ ((slotOf s (entSlot c.entry)).swap = none) ∧ (hostData
      (fld c.entry 0x18 8) file = some b)) ∧
    (∃ (a : Fin 4096) (c : Cmd) (s : State), (cmdSub s a.val 0x12 1 = some c) ∧ (entSlot c.entry < 64) ∧ ((∀ e ∈ s.que.cmds,
      e.2.stage ≠ .admitted ∨ entOpcode e.2.entry ≠ 1)) ∧ ((slotOf s (entSlot c.entry)).swap = none)) ∧
    (∃ (a : Fin 4096) (c : Cmd) (w : Swap) (s : State), (cmdSub s a.val 0x12 1 = some c) ∧ (entSlot c.entry < 64) ∧
      ((∀ e ∈ s.que.cmds, e.2.stage ≠ .admitted ∨ entOpcode e.2.entry ≠ 1)) ∧ ((slotOf s (entSlot c.entry)).swap = some w) ∧
      (w.switched = false) ∧ (w.interrupted = false) ∧ (w.switchTide = none) ∧ ((slotOf s (entSlot c.entry)).modules ≤ 1) ∧
      (fld c.entry 0x10 8 = 0)) ∧
    (∃ (a : Fin 4096) (c : Cmd) (w : Swap) (s : State), (cmdSub s a.val 0x12 1 = some c) ∧ (entSlot c.entry < 64) ∧
      ((∀ e ∈ s.que.cmds, e.2.stage ≠ .admitted ∨ entOpcode e.2.entry ≠ 1)) ∧ ((slotOf s (entSlot c.entry)).swap = some w) ∧
      (w.switched = false) ∧ (w.interrupted = false) ∧ (w.switchTide = none) ∧ (1 < (slotOf s (entSlot c.entry)).modules) ∧
      (membersOf s ≠ []) ∧ (w.mode = .inPlace) ∧ (fld c.entry 0x10 8 ≠ 0)) ∧
    (∃ (slot : Fin 64) (w : Swap) (tide : BitVec 64) (s : State), ((slotOf s slot.val).swap = some w) ∧ (w.switchTide = some tide)) ∧
    (∃ (a : Fin 4096) (c : Cmd) (w : Swap) (s : State), (cmdSub s a.val 0x12 2 = some c) ∧ (entSlot c.entry < 64) ∧ ((slotOf s
      (entSlot c.entry)).swap = some w) ∧ (w.switched = false) ∧ (w.interrupted = false) ∧ (w.switchTide = none) ∧
      (¬(w.mode = .inPlace ∧ (slotOf s (entSlot c.entry)).lastHash = w.lastHash))) ∧
    (∃ (a : Fin 4096) (c : Cmd) (w : Swap) (s : State), (cmdSub s a.val 0x12 2 = some c) ∧ (entSlot c.entry < 64) ∧ ((slotOf s
      (entSlot c.entry)).swap = some w) ∧ ((w.switched = true ∨ w.interrupted = true ∨ w.switchTide ≠ none ∨
      (w.mode = .inPlace ∧ (slotOf s (entSlot c.entry)).lastHash = w.lastHash)))) ∧
    (∃ (a : Fin 4096) (c : Cmd) (s : State), (cmdSub s a.val 0x12 2 = some c) ∧ (entSlot c.entry < 64) ∧ ((slotOf s
      (entSlot c.entry)).swap = none)) ∧
    (∃ (slot : Fin 64) (g : BitVec 16) (w : Swap) (s : State), ((slotOf s slot.val).oldGen = some g) ∧
      ((slotOf s slot.val).swap = some w) ∧ (genRetired s slot.val g = true)) ∧
    (∃ (slot : Fin 64) (g : BitVec 16) (s : State), ((slotOf s slot.val).oldGen = some g) ∧ (genRetired s slot.val g = false)) ∧
    (∃ (slot : Fin 64) (layer k : Nat) (shards : List HostRead) (w : Swap) (img : ImageRec) (s : State),
      ((slotOf s slot.val).swap = some w) ∧ (w.mode = .inPlace) ∧ (w.switched = true) ∧ (w.interrupted = false) ∧
      ((slotOf s slot.val).oldGen = none) ∧ (w.front.head? = some layer) ∧ (imageNamed s w.imageHash = some (k, img))) :=
  ⟨⟨0, cmd (ent 18 0 2 0 0 0 0 0), .failed, .failed, [], asked 18 0 2 0 0 0 0 0, (by decide +kernel)⟩,
   ⟨0, cmd (ent 18 0 2 0 0 8 0 0), .data [], .failed, [], List.replicate 8 0, modSlot 2 (fun x => { x with state := .resident })
    (asked 18 0 2 0 0 8 0 0), (by decide +kernel)⟩,
   ⟨0, cmd (ent 18 1 2 0 0 0 0 0), asked 18 1 2 0 0 0 0 0, (by decide +kernel)⟩,
   ⟨0, cmd (ent 18 1 2 0 0 0 0 0), swap0, modSlot 2
    (fun x => { x with state := .bound, plan := some plan0, gen := 7, swap := some (swap0) }) (asked 18 1 2 0 0 0 0 0),
    (by decide +kernel)⟩,
   ⟨0, cmd (ent 18 1 2 0 9 0 0 0), { swap0 with mode := .inPlace },
    { (modSlot 2 (fun x => { x with modules := 2, swap := some ({ swap0 with mode := .inPlace }) }) (asked 18 1 2 0 9 0 0 0)) with strait := { up.strait with members := 3 } },
    (by decide +kernel)⟩,
   ⟨2, { swap0 with mode := .inPlace, switchTide := some 9 }, 9, modSlot 2
    (fun x => { x with swap := some ({ swap0 with mode := .inPlace, switchTide := some 9 }) }) (up), (by decide +kernel)⟩,
   ⟨0, cmd (ent 18 2 2 0 0 0 0 0), swap0, modSlot 2 (fun x => { x with swap := some swap0 }) (asked 18 2 2 0 0 0 0 0),
    (by decide +kernel)⟩,
   ⟨0, cmd (ent 18 2 2 0 0 0 0 0), { swap0 with switched := true }, modSlot 2
    (fun x => { x with swap := some ({ swap0 with switched := true }) }) (asked 18 2 2 0 0 0 0 0), (by decide +kernel)⟩,
   ⟨0, cmd (ent 18 2 2 0 0 0 0 0), asked 18 2 2 0 0 0 0 0, (by decide +kernel)⟩,
   ⟨2, 4, { swap0 with switched := true }, modSlot 2
    (fun x => { x with oldGen := some 4, oldPlaces := [{slice := 0, bank := 5, third := 0, spill := false}], swap := some ({ swap0 with switched := true }) })
    (up), (by decide +kernel)⟩,
   ⟨2, 4, serving { req0 with gen := 4 } (modSlot 2 (fun x => { x with oldGen := some 4 }) (up)), (by decide +kernel)⟩,
   ⟨2, 1, 3, [], { swap0 with mode := .inPlace, switched := true, front := [1] }, image0, modSlot 2
    (fun x => { x with swap := some ({ swap0 with mode := .inPlace, switched := true, front := [1] }), state := .bound, plan := some plan0 })
    (imaged image0 up), (by decide +kernel)⟩⟩

theorem test_meets_PlacementCommands :
    (∃ (a : Fin 4096) (c : Cmd) (file : HostRead) (choice : List Placed) (b : Bytes) (s : State), (cmdSub s a.val 0x18 0 = some c) ∧
      (hostData (fld c.entry 0x18 8) file = some b)) ∧
    (∃ (a : Fin 4096) (c : Cmd) (choice : List Placed) (s : State), (cmdSub s a.val 0x18 0 = some c)) ∧
    (∃ (a : Fin 4096) (c : Cmd) (s : State), (cmdSub s a.val 0x19 1 = some c) ∧ (bindWaits s c = false) ∧ (entSlot c.entry < 64) ∧
      (((slotOf s (entSlot c.entry)).state = .placed ∨ (slotOf s (entSlot c.entry)).state = .resident)) ∧ (swapBusy s (slotOf s
      (entSlot c.entry)) = false)) ∧
    (∃ (a : Fin 4096) (c : Cmd) (s : State), (cmdSub s a.val 0x19 1 = some c) ∧ (bindWaits s c = false) ∧ (entSlot c.entry < 64) ∧
      ((slotOf s (entSlot c.entry)).state ≠ .placed) ∧ ((slotOf s (entSlot c.entry)).state ≠ .resident)) ∧
    (∃ (slot : Fin 64) (s : State), ((slotOf s slot.val).state = .releasing)) ∧
    (∃ (slot : Fin 64) (slice : Nat) (target : Option Placed) (q : Placed) (p : LastPlan) (s : State),
      (((slotOf s slot.val).state = .placed ∨ (slotOf s slot.val).state = .resident ∨ (slotOf s slot.val).state = .bound)) ∧
      (((slotOf s slot.val).places.find? fun q => q.slice = slice) = some q) ∧ ((slotOf s slot.val).plan = some p) ∧
      (placeLost s q = true) ∧ (moving s q.bank = false)) ∧
    (∃ (slot : Fin 64) (slice : Nat) (q : Placed) (target : Option Placed) (s : State),
      (((slotOf s slot.val).places.find? fun q => q.slice = slice) = some q) ∧ (placeLost s q = false)) :=
  ⟨⟨0, cmd (ent 24 0 0 0 0 8 0 0), .data [], [], List.replicate 8 0, asked 24 0 0 0 0 8 0 0, (by decide +kernel)⟩,
   ⟨0, cmd (ent 24 0 0 0 0 0 0 0), [], asked 24 0 0 0 0 0 0 0, (by decide +kernel)⟩,
   ⟨0, cmd (ent 25 1 2 0 0 0 0 0), modSlot 2
    (fun x => { x with state := .placed, places := [{slice := 0, bank := 5, third := 0, spill := false}] })
    (asked 25 1 2 0 0 0 0 0), (by decide +kernel)⟩,
   ⟨0, cmd (ent 25 1 2 0 0 0 0 0), asked 25 1 2 0 0 0 0 0, (by decide +kernel)⟩,
   ⟨2, modSlot 2 (fun x => { x with state := .releasing }) (up), (by decide +kernel)⟩,
   ⟨2, 0, none, {slice := 0, bank := 5, third := 0, spill := false}, plan0, modBank 5
    (fun b => { b with state := .worn, owners := [2] }) (modSlot 2
    (fun x => { x with state := .placed, plan := some plan0, places := [{slice := 0, bank := 5, third := 0, spill := false}] })
    (up)), (by decide +kernel)⟩,
   ⟨2, 0, {slice := 0, bank := 5, third := 0, spill := false}, none, modSlot 2
    (fun x => { x with state := .bound, places := [{slice := 0, bank := 5, third := 0, spill := false}] }) (up),
    (by decide +kernel)⟩⟩

theorem test_meets_BindCommands :
    (∃ (a : Fin 4096) (c : Cmd) (groups : HostRead) (b : Bytes) (s : State), (cmdSub s a.val 0x18 1 = some c) ∧
      (bindWaits s c = false) ∧ (entSlot c.entry < 64) ∧ ((slotOf s (entSlot c.entry)).state = .resident) ∧ (swapBusy s (slotOf s
      (entSlot c.entry)) = false) ∧ (strictMet s (slotOf s (entSlot c.entry)) = true) ∧ (entArg c.entry ≤ 4096) ∧ (hostData
      (2 * entArg c.entry) groups = some b) ∧ ((∀ g ∈ attachGroups b (entArg c.entry), g < 4096 ∧
      (groupSlot s g = none ∨ groupSlot s g = some (entSlot c.entry)))) ∧ ((rivals s (entSlot c.entry) = [] ∨ bitAt
      (entFlags c.entry) 0 = true)) ∧ ((∀ m ∈ rivals s (entSlot c.entry), swapBusy s (slotOf s m) = false))) ∧
    (∃ (a : Fin 4096) (c : Cmd) (groups : HostRead) (s : State), (cmdSub s a.val 0x18 1 = some c) ∧ (bindWaits s c = false) ∧
      (entSlot c.entry < 64) ∧ ((slotOf s (entSlot c.entry)).state ≠ .resident)) ∧
    (∃ (a : Fin 4096) (c : Cmd) (s : State), (cmdSub s a.val 0x19 0 = some c) ∧ (bindWaits s c = false) ∧ (entSlot c.entry < 64) ∧
      ((slotOf s (entSlot c.entry)).state = .bound) ∧ (swapBusy s (slotOf s (entSlot c.entry)) = false)) ∧
    (∃ (a : Fin 4096) (c : Cmd) (s : State), (cmdSub s a.val 0x19 0 = some c) ∧ (bindWaits s c = false) ∧ (entSlot c.entry < 64) ∧
      ((slotOf s (entSlot c.entry)).state ≠ .bound)) ∧
    (∃ (a : Fin 4096) (c : Cmd) (s : State), (cmdSub s a.val 0x18 2 = some c) ∧ (bindWaits s c = false) ∧ (entArg c.entry < 16384) ∧
      ((fld c.entry 0x10 2 < 4096 ∨ fld c.entry 0x10 2 = 0xFFFF))) ∧
    (∃ (a : Fin 4096) (c : Cmd) (s : State), (cmdSub s a.val 0x18 2 = some c) ∧ (bindWaits s c = true)) ∧
    (∃ (a : Fin 4096) (c : Cmd) (s : State), (tget? s.que.cmds a.val = some c) ∧ (c.stage = .draining) ∧ (((entOpcode c.entry = 0x18 ∧
      entSubop c.entry = 1) ∨ (entOpcode c.entry = 0x19 ∧ entSubop c.entry = 0)))) ∧
    (∃ (a : Nat) (c : Cmd) (s : State), (tget? s.que.cmds a = some c) ∧ (entOpcode c.entry = 0x19)) :=
  ⟨⟨0, cmd (ent 24 1 2 1 0 0 0 0), .data [9, 0], [9, 0], modSlot 2 (fun x => { x with state := .resident, plan := some plan0 })
    (asked 24 1 2 1 0 0 0 0), (by decide +kernel)⟩,
   ⟨0, cmd (ent 24 1 2 1 0 0 0 0), .failed, asked 24 1 2 1 0 0 0 0, (by decide +kernel)⟩,
   ⟨0, cmd (ent 25 0 2 0 0 0 0 0), modSlot 2 (fun x => { x with state := .bound, plan := some plan0 }) (asked 25 0 2 0 0 0 0 0),
    (by decide +kernel)⟩,
   ⟨0, cmd (ent 25 0 2 0 0 0 0 0), asked 25 0 2 0 0 0 0 0, (by decide +kernel)⟩,
   ⟨0, cmd (ent 24 2 0 16383 4095 0 0 0), asked 24 2 0 16383 4095 0 0 0, (by decide +kernel)⟩,
   ⟨0, { (cmd (ent 24 2 0 3 7 0 0 0)) with order := 5 },
    { up with que := { up.que with cmds := [(0, { (cmd (ent 24 2 0 3 7 0 0 0)) with order := 5 }), (1, cmd (ent 24 2 0 3 8 0 0 0))] } },
    (by decide +kernel)⟩,
   ⟨0, { (cmd (ent 25 0 2 0 0 0 0 0)) with stage := .draining }, holding ({ (cmd (ent 25 0 2 0 0 0 0 0)) with stage := .draining }),
    (by decide +kernel)⟩,
   ⟨0, { (cmd (ent 25 0 2 0 0 0 0 0)) with stage := .draining }, holding ({ (cmd (ent 25 0 2 0 0 0 0 0)) with stage := .draining }),
    (by decide +kernel)⟩⟩

theorem test_meets_SegmentCommands :
    (∃ (a : Fin 4096) (c : Cmd) (s : State), (cmdSub s a.val 0x18 3 = some c) ∧ (bindWaits s c = false) ∧ (2 ≤ entArg c.entry) ∧
      (entArg c.entry ≤ 15) ∧ (fld c.entry 0x10 1 = 5) ∧ (domState s (domSeg (entArg c.entry)) ≠ .failed) ∧ (onlySegment s
      (entArg c.entry) = false) ∧ (pairInSeg s (entArg c.entry) = false) ∧ ((segOf s (entArg c.entry)).next = none)) ∧
    (∃ (a : Fin 4096) (c : Cmd) (s : State), (cmdSub s a.val 0x18 3 = some c) ∧ (bindWaits s c = false) ∧
      ((entArg c.entry < 2 ∨ 15 < entArg c.entry))) ∧
    (∃ (a : Fin 4096) (c : Cmd) (s : State), (cmdSub s a.val 0x19 2 = some c) ∧ (bindWaits s c = false) ∧ (2 ≤ entArg c.entry) ∧
      (entArg c.entry ≤ 15)) ∧
    (∃ (seg : Fin 16) (s : State), ((segOf s seg.val).next.isSome = true) ∧ (segHeld s seg.val = false) ∧ (domIsOn s
      (domSeg seg.val) = true) ∧ (underClear s (seg.val * 2 ^ 26) = false)) ∧
    (∃ (seg : Fin 16) (s : State), (segHeld s seg.val = true)) ∧
    (∃ (seg : Fin 16) (s : State), (2 ≤ seg.val) ∧ ((segOf s seg.val).use = .free) ∧ ((segOf s seg.val).next = none) ∧ (domState s
      (domSeg seg.val) ≠ .failed)) ∧
    (∃ (seg : Fin 16) (s : State), ((segOf s seg.val).use = .shared) ∧ ((segOf s seg.val).next = none) ∧ ((∀ c ∈ s.model.covers,
      ∀ h ∈ c.2.slabs, inSeg seg.val h = false)) ∧ ((∀ e ∈ s.model.cache, ∀ h ∈ e.2, inSeg seg.val h = false))) :=
  ⟨⟨0, cmd (ent 24 3 0 2 5 0 0 0), asked 24 3 0 2 5 0 0 0, (by decide +kernel)⟩,
   ⟨0, cmd (ent 24 3 0 1 5 0 0 0), asked 24 3 0 1 5 0 0 0, (by decide +kernel)⟩,
   ⟨0, cmd (ent 25 2 0 2 0 0 0 0), asked 25 2 0 2 0 0 0 0, (by decide +kernel)⟩,
   ⟨3, { (on [domSeg 3] up) with hbr := { up.hbr with segs := [(3, { use := .free, next := some (.host, 0xFFFF) })] } },
    (by decide +kernel)⟩,
   ⟨3, { up with flow := { up.flow with clearing := [(0x3001, 0)] } }, (by decide +kernel)⟩,
   ⟨3, up, (by decide +kernel)⟩,
   ⟨3, { (on [domSeg 3] up) with hbr := { up.hbr with segs := [(3, { use := .shared, next := none })] } }, (by decide +kernel)⟩⟩

theorem test_meets_AccessesOutsideTheClass :
    (∃ (i : Initiator) (o : BitVec 24) (v : BitVec 32) (w : BitVec 64) (s : State) (c : RegClass) (d : Nat), (barUp s = true) ∧
      (barSeen s i = true) ∧ (regInfo s o.toNat = some (c, d)) ∧ (inClass s i c = false)) ∧
    (∃ (i : Initiator) (ch : Fin 8) (o : BitVec 12) (b : Byte) (v : BitVec 32) (s : State), (isCore i = false)) :=
  ⟨⟨.portD, 0x4, 0, 0, State.reset, .priv, domCore, (by decide +kernel)⟩,
   ⟨.portU, 0, 0, 0, 0, State.reset, (by decide +kernel)⟩⟩

theorem test_meets_SleepingDomainsAreNotWoken :
    (∃ (i : Initiator) (o : BitVec 24) (v : BitVec 32) (w : BitVec 64) (s : State) (c : RegClass) (d : Nat), (barUp s = true) ∧
      (barSeen s i = true) ∧ (regInfo s o.toNat = some (c, d)) ∧ (inClass s i c = true) ∧
      (domState s d = .ret ∨ domState s d = .off)) :=
  ⟨.portU, 0x100000, 0, 0, up, .any, 0, (by decide +kernel)⟩

theorem test_meets_MaskWriteHelpers :
    (∃ (i : Initiator) (v : BitVec 32) (s : State), (barUp s = true) ∧ (barSeen s i = true) ∧ (regGate s i 0x700008 = .reach domCore)) ∧
    (∃ (i : Initiator) (v : BitVec 32) (s : State), (barUp s = true) ∧ (barSeen s i = true) ∧ (regGate s i 0x8 = .reach domCore)) ∧
    (∃ (i : Initiator) (s : State), (barUp s = true) ∧ (barSeen s i = true)) ∧
    (∃ (i : Initiator) (o : BitVec 24) (v : BitVec 32) (s : State), (o ≠ 0x8) ∧ (o ≠ 0x700008)) ∧
    (∃ (i : Initiator) (v : BitVec 32) (s : State), (barUp s = true) ∧ (barSeen s i = true) ∧ (regGate s i 0x700000 = .reach domCore)) ∧
    (∃ (i : Initiator) (v : BitVec 32) (s : State), (barUp s = true) ∧ (barSeen s i = true) ∧ (regGate s i 0xC = .reach domCore)) ∧
    (∃ (i : Initiator) (o : BitVec 24) (v : BitVec 32) (s : State), (o ≠ 0xC) ∧ (o ≠ 0x700000)) :=
  ⟨⟨.core 0, 0x00050001, { up with regs := { up.regs with intMask := 0x14 } }, (by decide +kernel)⟩,
   ⟨.core 0, 0x00050001, { up with regs := { up.regs with intMask := 0x14 } }, (by decide +kernel)⟩,
   ⟨.core 0, up, (by decide +kernel)⟩,
   ⟨.core 0, 4, 1, up, (by decide +kernel)⟩,
   ⟨.core 0, 0x00050001, { up with regs := { up.regs with intMask := 0x14 } }, (by decide +kernel)⟩,
   ⟨.core 0, 0x00050001, { up with regs := { up.regs with intMask := 0x14 } }, (by decide +kernel)⟩,
   ⟨.core 0, 4, 1, up, (by decide +kernel)⟩⟩

theorem test_meets_RegisterPairsDoNotTear :
    (∃ (i : Initiator) (o : BitVec 24) (d : Nat) (s : State), (barUp s = true) ∧ (barSeen s i = true) ∧ (isPairLo o.toNat = true) ∧
      (o ≠ 0x608400) ∧ (regGate s i o.toNat = .reach d)) ∧
    (∃ (i : Initiator) (o : BitVec 24) (d : Nat) (v : BitVec 32) (s : State), (barUp s = true) ∧ (barSeen s i = true) ∧
      (4 ≤ o.toNat) ∧ (pairWritable (o.toNat - 4) = true) ∧ (regGate s i o.toNat = .reach d)) ∧
    (∃ (i : Initiator) (o : BitVec 24) (d : Nat) (v : BitVec 32) (s : State), (barUp s = true) ∧ (barSeen s i = true) ∧
      (pairWritable o.toNat = true) ∧ (regGate s i o.toNat = .reach d) ∧ (d = domCore ∨ s.regs.xdomBusy = false)) ∧
    (∃ (i : Initiator) (o : BitVec 24) (d : Nat) (w : BitVec 64) (s : State), (barUp s = true) ∧ (barSeen s i = true) ∧
      (pairWritable o.toNat = true) ∧ (o.toNat % 8 = 0) ∧ (regGate s i o.toNat = .reach d) ∧ (regGate s i
      (o.toNat + 4) = .reach d) ∧ (d = domCore ∨ s.regs.xdomBusy = false)) :=
  ⟨⟨.portU, 0x20000, domAlways, State.reset, (by decide +kernel)⟩,
   ⟨.portU, 0x400004, domCore, 7, State.reset, (by decide +kernel)⟩,
   ⟨.portU, 0x400000, domCore, 7, State.reset, (by decide +kernel)⟩,
   ⟨.portU, 0x400000, domCore, 7, State.reset, (by decide +kernel)⟩⟩

theorem test_meets_PlainRegisterWrites :
    (∃ (i : Initiator) (w : BitVec 64) (s : State), (barUp s = true) ∧ (barSeen s i = true)) ∧
    (∃ (i : Initiator) (o : BitVec 24) (w : BitVec 64) (s : State), (barSeen s i = true) ∧ (o.toNat % 4 = 0) ∧
      (regInfo s o.toNat = none) ∧ (¬(0x500000 ≤ o.toNat ∧ o.toNat < 0x508100))) ∧
    (∃ (i : Initiator) (o : BitVec 24) (n : Nat) (w : BitVec 64) (s : State), (barUp s = true) ∧ (barSeen s i = true) ∧
      (o.toNat < 0x800000) ∧ (¬(0x600000 ≤ o.toNat ∧ o.toNat < 0x608000)) ∧ (¬(n = 4 ∧ o.toNat % 4 = 0)) ∧ (¬(n = 8 ∧
      o.toNat % 8 = 0))) :=
  ⟨⟨.core 0, 5, up, (by decide +kernel)⟩,
   ⟨.portU, 0x28, 0, up, (by decide +kernel)⟩,
   ⟨.portU, 1, 4, 0, up, (by decide +kernel)⟩⟩

theorem test_meets_StagedConfiguration :
    (∃ (i : Initiator) (v : BitVec 32) (s : State), (barUp s = true) ∧ (barSeen s i = true) ∧
      (regGate s i 0x10000 = .reach domAlways) ∧ (s.regs.xdomBusy = false)) ∧
    (∃ (i : Initiator) (v : BitVec 32) (s : State), (barUp s = true) ∧ (barSeen s i = true)) ∧
    (∃ (s : State), (domIsOn s domCore = true) ∧ (s.regs.passDirty = true)) ∧
    (∃ (s : State), (domIsOn s domCore = true) ∧ (s.regs.passDirty = false)) :=
  ⟨⟨.portU, 401, { up with dict := { up.dict with active := [] } }, (by decide +kernel)⟩,
   ⟨.core 0, 5, up, (by decide +kernel)⟩,
   ⟨{ up with regs := { up.regs with passDirty := true } }, (by decide +kernel)⟩,
   ⟨up, (by decide +kernel)⟩⟩

theorem test_meets_ConfigurationHold :
    (∃ (i : Initiator) (v : BitVec 32) (s : State), (barUp s = true) ∧ (barSeen s i = true) ∧ (regGate s i 0x18 = .reach domCore)) ∧
    (∃ (s : State), (cfgHeld s = true ∨ s.regs.cfgMatch = false)) ∧
    (∃ (s : State), (cfgHeld s = true) ∧ (domIsOn s domCore = true)) ∧
    (∃ (s : State), (cfgHeld s = true) ∧ (s.regs.holdRaised = false) ∧ (10000000 < (tideOf s - s.regs.holdSince).toNat)) ∧
    (∃ (s : State), (cfgHeld s = false ∨ (tideOf s - s.regs.holdSince).toNat ≤ 10000000)) :=
  ⟨⟨.core 0, 1, { up with time := { up.time with pll := 9 } }, (by decide +kernel)⟩,
   ⟨up, (by decide +kernel)⟩,
   ⟨up, (by decide +kernel)⟩,
   ⟨{ up with time := { up.time with pll := 10000001 } }, (by decide +kernel)⟩,
   ⟨{ up with time := { up.time with pll := 10000000 } }, (by decide +kernel)⟩⟩

theorem test_meets_TideAlarmAndEpoch :
    (∃ (i : Initiator) (lo : BitVec 32) (s : State), (barUp s = true) ∧ (barSeen s i = true) ∧
      (regGate s i 0x20018 = .reach domAlways) ∧ (s.regs.xdomBusy = false)) ∧
    (∃ (s : State), (s.regs.alarmFired = false) ∧ (s.regs.alarm.toNat ≤ (tideOf s).toNat)) ∧
    (∃ (s : State), (s.regs.alarmFired = true ∨ (tideOf s).toNat < s.regs.alarm.toNat)) ∧
    (∃ (s : State), (uzomelRuns s = true) ∧ (membersOf s = []) ∧ (s.time.epochDue = true)) ∧
    (∃ (s : State), (membersOf s ≠ [] ∨ s.time.epochDue = false)) :=
  ⟨⟨.core 0, 5, up, (by decide +kernel)⟩,
   ⟨{ up with regs := { up.regs with alarm := 0 } }, (by decide +kernel)⟩,
   ⟨up, (by decide +kernel)⟩,
   ⟨{ up with time := { up.time with epochDue := true, pll := 4 }, regs := { up.regs with offsetPending := 8 } },
    (by decide +kernel)⟩,
   ⟨up, (by decide +kernel)⟩⟩

theorem test_meets_DictionaryWrites :
    (∃ (a : Fin 4096) (b : Bytes) (c : Cmd) (s : State), (cmdAt s a.val 0x21 = some c) ∧ (isReady s = true)) ∧
    (∃ (a : Fin 4096) (v : HostRead) (c : Cmd) (s : State), (cmdAt s a.val 0x21 = some c) ∧ (isReady s = true) ∧ ((∀ b, v ≠ .data b))) ∧
    (∃ (a : Fin 4096) (v : HostRead) (s : State), (cmdAt s a.val 0x21 = none ∨ isReady s = false)) :=
  ⟨⟨0, [1, 2, 3, 4], cmd (ent 0x21 0 0 0 0x12001 0 0 4), writes (ob 0x2001 1) 0 4, (by decide +kernel)⟩,
   ⟨0, .failed, cmd (ent 0x21 0 0 0 0x12001 0 0 4), writes (ob 0x2001 1) 0 4, ⟨by decide, by decide, fun _ h => nomatch h⟩⟩,
   ⟨0, .failed, up, (by decide +kernel)⟩⟩

theorem test_meets_DictionaryReads :
    (∃ (a : Fin 4096) (h : HostRead) (c : Cmd) (s : State), (cmdAt s a.val 0x20 = some c) ∧ (isReady s = true)) :=
  ⟨0, .failed, cmd (ent 0x20 0 0 0 0x12001 0 0 4), asked 0x20 0 0 0 0x12001 0 0 4, (by decide +kernel)⟩

theorem test_meets_QueuePairLifecycle :
    (∃ (r : Requester) (q : Nat) (b : Bytes) (s : State), (heard s r (ob 0x6100 0) q = true) ∧ (fld b 0 1 = 1) ∧
      (valueFrom s r b = b) ∧ (b.length = 64) ∧ (q < 16384)) ∧
    (∃ (r : Requester) (q : Nat) (b : Bytes) (s : State), (heard s r (ob 0x6100 0) q = true) ∧ (fld b 0 1 = 0) ∧
      (valueFrom s r b = b) ∧ (b.length = 64) ∧ (0 < q) ∧ (q < 16384) ∧ ((pairOf s q).state ≠ .error)) ∧
    (∃ (i : Initiator) (v : BitVec 32) (s : State), (classU i = true)) ∧
    (∃ (i : Initiator) (v : BitVec 32) (s : State), (classU i = true) ∧ ((pairOf s 0).state ≠ .error)) :=
  ⟨⟨.queue 0, 0, (leBytes 1 1 ++ leBytes 1 0 ++ leBytes 2 0 ++ leBytes 4 16 ++ leBytes 4 16 ++ leBytes 2 5 ++ leBytes 2 0 ++ leBytes
    8 4096 ++ leBytes 8 8192 ++ leBytes 8 (16384*16) ++ List.replicate 24 0), writes (ob 0x6100 0) 0 64, (by decide +kernel)⟩,
   ⟨.queue 0, 3, (leBytes 1 0 ++ leBytes 1 0 ++ leBytes 2 0 ++ leBytes 4 16 ++ leBytes 4 16 ++ leBytes 2 5 ++ leBytes 2 0 ++ leBytes
    8 4096 ++ leBytes 8 8192 ++ leBytes 8 (16384*16) ++ List.replicate 24 0), writes (ob 0x6100 0) 3 64, (by decide +kernel)⟩,
   ⟨.portU, 0, up, (by decide +kernel)⟩,
   ⟨.portU, 1, { up with que := { up.que with pairs := [(0, admin)] } }, (by decide +kernel)⟩⟩

theorem test_meets_ConfigurationCommit :
    (∃ (r : Requester) (data : Bytes) (s : State), (heard s r (ob 0x1002 1) 0 = true) ∧ ((valueFrom s r data).length = 4) ∧ (leNat
      (valueFrom s r data) = (stagedCrc s).toNat) ∧ (failedRelation s = none) ∧ (membersOf s = [])) ∧
    (∃ (r : Requester) (data : Bytes) (s : State), (heard s r (ob 0x1002 1) 0 = true) ∧ (((valueFrom s r data).length ≠ 4 ∨ leNat
      (valueFrom s r data) ≠ (stagedCrc s).toNat))) ∧
    (∃ (r : Requester) (data : Bytes) (o : Nat) (s : State), (heard s r (ob 0x1002 1) 0 = true) ∧ ((valueFrom s r data).length = 4) ∧
      (leNat (valueFrom s r data) = (stagedCrc s).toNat) ∧ (failedRelation s = some o)) :=
  ⟨⟨.mctp 0 0, leBytes 4 (stagedCrc up).toNat, up, ⟨by decide +kernel, rfl, leNat_leBytes_word _, by decide +kernel,
    by decide +kernel⟩⟩,
   ⟨.mctp 0 0, [1], up, ⟨by decide +kernel, .inl (by decide)⟩⟩,
   ⟨.mctp 0 0, leBytes 4 (stagedCrc
    ({ (up) with dict := { up.dict with staged := [(okey (ob 0x8002 1) 0, leBytes 4 5000)] } })).toNat, ob 0x8002 1,
    { (up) with dict := { up.dict with staged := [(okey (ob 0x8002 1) 0, leBytes 4 5000)] } }, ⟨by decide +kernel, rfl,
    leNat_leBytes_word _, by decide +kernel⟩⟩⟩

theorem test_meets_MonitorsSampleAndClear :
    (∃ (v k : Nat), (1 ≤ k) ∧ (k ≤ 30)) ∧
    (∃ (v : Nat) (m : Mon), (v < 2 ^ 32)) ∧
    (∃ (s : State) (obj : Nat), let us := (s.dict.monitors.filter fun e => e.1 / 2 ^ 64 = obj).map Prod.snd
  let m := monAll s obj
  ((∀ u ∈ us, (tkeys u.bins).Nodup))) ∧
    (∃ (mv : BitVec 32) (s : State), (s.power.phase ≠ .off)) ∧
    (∃ (s : State), (s.power.rails ≠ [])) ∧
    (∃ (r : Requester) (data : Bytes) (s : State), (heard s r (ob 0x9001 1) 0 = true)) :=
  ⟨⟨1, 1, (by decide +kernel)⟩,
   ⟨0, {}, (by decide +kernel)⟩,
   ⟨{ up with dict := { up.dict with monitors := [(okey (ob 0x9010 0) 3, monSample 5 {}), (okey (ob 0x9010 0) 4, monSample 9 (monSample 700 {}))], monLast := [(ob 0x9010 0, 4)] } },
    ob 0x9010 0, (by decide +kernel)⟩,
   ⟨800, up, (by decide +kernel)⟩,
   ⟨up, (by decide +kernel)⟩,
   ⟨.queue 0, leBytes 4 (0x9010 * 65536),
    { (writes (ob 0x9001 1) 0 4) with dict := ({ up with dict := { up.dict with monitors := [(okey (ob 0x9010 0) 3, monSample 5 {}), (okey (ob 0x9010 0) 4, monSample 9 (monSample 700 {}))], monLast := [(ob 0x9010 0, 4)] } }).dict },
    (by decide +kernel)⟩⟩

theorem test_meets_ManagementBusAccess :
    (∃ (ep : Nat) (tag flags sub_ : Byte) (index length : BitVec 16) (arg : BitVec 64) (h : Digest) (s : State),
      (s.power.phase ≠ .off) ∧ (coreSleeps s = false) ∧ (uzomelRuns s = true) ∧ (flags.toNat < 4) ∧ (length.toNat ≤ 1024)) ∧
    (∃ (ep : Nat) (tag flags sub_ : Byte) (index length : BitVec 16) (arg : BitVec 64) (offset : BitVec 32) (h : Digest) (s : State)
    (shot : MctpPieces), (s.power.phase ≠ .off) ∧ (coreSleeps s = false) ∧ (uzomelRuns s = true) ∧ (flags.toNat < 4) ∧
      (length.toNat ≤ 1024) ∧ (offset ≠ 0) ∧ (tget? s.dict.snapshots ep = some shot) ∧ (shot.object = ob index.toNat sub_.toNat) ∧
      (shot.key = mctpKey s shot.object arg.toNat h)) ∧
    (∃ (ep : Nat) (tag flags sub_ : Byte) (index : BitVec 16) (arg : BitVec 64) (offset : BitVec 32) (data : Bytes) (p : MctpPieces)
      (s : State), (s.power.phase ≠ .off) ∧ (coreSleeps s = false) ∧ (uzomelRuns s = true) ∧ (flags.toNat < 4) ∧
      (data.length ≤ 1024) ∧ (mctpPiece ep tag (ob index.toNat sub_.toNat) arg.toNat offset.toNat data s = some p)) ∧
    (∃ (ep : Nat) (tag flags sub_ : Byte) (index : BitVec 16) (arg : BitVec 64) (offset : BitVec 32) (data : Bytes) (s : State),
      (s.power.phase ≠ .off)) ∧
    (∃ (ep : Nat) (p : MctpPieces) (s : State), (tget? s.dict.pieces ep = some p)) ∧
    (∃ (ep : Nat) (s : State), (tget? s.dict.pieces ep = none)) :=
  ⟨⟨3, 1, 0, 1, 0x2001, 8, 0, [], up, (by decide +kernel)⟩,
   ⟨3, 1, 0, 1, 0x2001, 8, 0, 4, [],
    { up with dict := { up.dict with snapshots := [(3, { object := ob 0x2001 1, key := mctpKey up (ob 0x2001 1) 0 [], tag := 1, bytes := List.replicate 12 7 })] } },
    { object := ob 0x2001 1, key := mctpKey up (ob 0x2001 1) 0 [], tag := 1, bytes := List.replicate 12 7 }, (by decide +kernel)⟩,
   ⟨3, 1, 0, 1, 0x2001, 0, 0, [1, 2, 3, 4], { object := ob 0x2001 1, key := 0, tag := 1, bytes := [1, 2, 3, 4] }, up,
    (by decide +kernel)⟩,
   ⟨3, 1, 0, 1, 0x2001, 0, 0, [], { up with power := { up.power with doms := [(2080, { state := .ret })] } }, (by decide +kernel)⟩,
   ⟨3, { object := 5, key := 0, tag := 9, bytes := [1,2,3,4] },
    { up with dict := { up.dict with pieces := [(3, { object := 5, key := 0, tag := 9, bytes := [1,2,3,4] })] } },
    (by decide +kernel)⟩,
   ⟨3, up, (by decide +kernel)⟩⟩

theorem test_meets_AwlChannels :
    (∃ (i : Initiator) (ch : Fin 8) (o : BitVec 12) (b : Byte) (s : State), (isCore i = true) ∧ (b ≠ 0xB0) ∧ (b ≠ 0x30)) ∧
    (∃ (i : Initiator) (ch : Fin 8) (o : BitVec 12) (s : State), (isCore i = true)) ∧
    (∃ (i : Initiator) (ch : Fin 8) (v : BitVec 32) (s : State), (isCore i = true)) ∧
    (∃ (i : Initiator) (ch : Fin 8) (s : State), (isCore i = true) ∧ ((chanOf s ch).unlock = .unlock2) ∧ (bankExists s
      (selBank s ch) = true)) ∧
    (∃ (i : Initiator) (ch : Fin 8) (s : State), (isCore i = true) ∧ ((chanOf s ch).unlock = .unlock2)) ∧
    (∃ (i : Initiator) (ch : Fin 8) (s : State), (isCore i = true)) :=
  ⟨⟨.core 0, 0, 0xE38, 0x5C, { up with awl := { up.awl with chans := [(0, { unlock := .idle })] } }, (by decide +kernel)⟩,
   ⟨.core 0, 0, 0xE38, { up with awl := { up.awl with chans := [(0, { unlock := .unlock1 })] } }, (by decide +kernel)⟩,
   ⟨.core 0, 0, 7, { up with awl := { up.awl with chans := [(0, { unlock := .unlock1 })] } }, (by decide +kernel)⟩,
   ⟨.core 0, 0, channel 0 0 {}, (by decide +kernel)⟩,
   ⟨.core 0, 0, channel 0 0 {}, (by decide +kernel)⟩,
   ⟨.core 0, 0, channel 0 0 {}, (by decide +kernel)⟩⟩

theorem test_meets_AwlOperations :
    (∃ (i : Initiator) (ch : Fin 8) (s : State), (isCore i = true) ∧ ((chanOf s ch).unlock = .unlock2)) ∧
    (∃ (n : Nat) (o : AwlOp) (s : State), (bankExists s n = true) ∧ ((bankOf s n).ops.find? (fun o => opMayStart s n o) = some o) ∧
      ((o.kind = .topUpRow ∨ o.kind = .readRow ∨ o.kind = .readMargin)) ∧ (opAllowed (bankOf s n).state o.kind = true) ∧
      (o.phase = .queued)) ∧
    (∃ (n : Nat) (s : State), (bankExists s n = true) ∧ ((∀ o ∈ (bankOf s n).ops, opMayStart s n o = false))) ∧
    (∃ (n : Nat) (o : AwlOp) (s : State), (bankExists s n = true) ∧ ((bankOf s n).ops.find?
      (fun o => o.phase == .suspending) = some o)) ∧
    (∃ (n : Nat) (r : OpEnd) (o : AwlOp) (s : State), (bankExists s n = true) ∧ ((bankOf s n).ops.find? opRunning = some o)) ∧
    (∃ (n : Nat) (r : OpEnd) (s : State), (bankExists s n = true) ∧ ((∀ o ∈ (bankOf s n).ops, opRunning o = false))) ∧
    (∃ (n : Nat) (o : AwlOp) (s : State), (bankExists s n = true) ∧ ((bankOf s n).ops.find?
      (fun o => o.kind == .eraseBank && !(o.phase == .queued)) = some o) ∧ (o.starved = false)) :=
  ⟨⟨.core 0, 0, channel 0 0 {}, (by decide +kernel)⟩,
   ⟨5, op0 .topUpRow .queued, channel 0 0 { state := .ready, ops := [op0 .topUpRow .queued] }, (by decide +kernel)⟩,
   ⟨5, channel 0 0 { ops := [op0 .readRow .running] }, (by decide +kernel)⟩,
   ⟨5, op0 .eraseBank .suspending, channel 0 0 { state := .erasing, ops := [op0 .eraseBank .suspending] }, (by decide +kernel)⟩,
   ⟨5, { failing := [], refFailing := [], pulsed := 3, steps := 3, thresh := 1 }, op0 .eraseBank .running,
    channel 0 0 { state := .programming, storageMode := true, ops := [op0 .eraseBank .running] }, (by decide +kernel)⟩,
   ⟨5, { failing := [], refFailing := [], pulsed := 3, steps := 3, thresh := 1 }, channel 0 0 {}, (by decide +kernel)⟩,
   ⟨5, op0 .eraseBank .suspended,
    { (channel 0 0 { ops := [op0 .eraseBank .suspended] }) with time := { up.time with pll := 100000000000 } },
    (by decide +kernel)⟩⟩

theorem test_meets_FerryStreams :
    (∃ (b : Bytes) (s : State), (reqRecalled s (descOf (fit b 64)).request.toNat = true ∨ streamKnown s (descOf (fit b 64)) = true)) ∧
    (∃ (b : Bytes) (f k : Nat) (s : State), let d := descOf (fit b 64)
  (reqRecalled s d.request.toNat = false) ∧ (streamKnown s d = false) ∧ (s.flow.waiting = []) ∧ (descBad d = false) ∧
      (emptiestFerry s = some f) ∧ (freeKey (ferryOf s f).streams 16 = some k)) ∧
    (∃ (b : Bytes) (f : Nat) (s : State), let d := descOf (fit b 64)
  (reqRecalled s d.request.toNat = false) ∧ (streamKnown s d = false) ∧ (s.flow.waiting = []) ∧ (descBad d = true) ∧
      (emptiestFerry s = some f)) ∧
    (∃ (b : Bytes) (s : State), let d := descOf (fit b 64)
  (reqRecalled s d.request.toNat = false) ∧ (streamKnown s d = false) ∧ (emptiestFerry s = none)) ∧
    (∃ (s : State) (f : Nat), (emptiestFerry s = some f)) ∧
    (∃ (f : Fin 256) (s : State), (emptiestFerry s ≠ some f.val)) ∧
    (∃ (f : Fin 256) (e : Nat × Desc) (k : Nat) (s : State), (emptiestFerry s = some f.val) ∧ (firstWaiting s.flow.waiting = some e) ∧
      (descBad e.2 = false) ∧ (freeKey (ferryOf s f).streams 16 = some k)) ∧
    (∃ (l : List (Nat × Desc)) (e : Nat × Desc), (firstWaiting l = some e)) ∧
    (∃ (f : Fin 256) (j : Fin 16) (st : Stream) (n : Nat) (la : Lace) (s : State), (streamOf s f j = some st) ∧
      (fillsSlabs st.desc = true) ∧ (readyToFetch s f j st = true) ∧ (firstStream s f j st = true) ∧
      (destLace s st.desc = some n) ∧ (tget? s.flow.laces n = some la)) ∧
    (∃ (f : Fin 256) (j : Fin 16) (r : HostRead) (st : Stream) (n : Nat) (la : Lace) (h : BitVec 16) (rest : List (BitVec 16))
      (s : State), ((tkeys (ferryOf s f).streams).Pairwise (· < ·)) ∧ (streamOf s f j = some st) ∧ (st.cancelled = false) ∧
      (runsWait s (pushRuns s f j st) = false) ∧ (st.desc.dstKind = 0) ∧ (descMcast st.desc = false) ∧ (st.dud = false) ∧
      (st.filling = h :: rest) ∧ (st.desc.srcKind = 1) ∧ (slabLate s st.desc = false) ∧ (n = st.desc.laceOut.toNat) ∧
      (tget? s.flow.laces n = some la) ∧ (la.partialSlab = none) ∧ ((∀ a ∈ stillToFeed s n, a = st.desc.request.toNat))) ∧
    (∃ (f : Fin 256) (j : Fin 16) (st : Stream) (h : BitVec 16) (rest : List (BitVec 16)) (s : State), (streamOf s f j = some st) ∧
      (st.cancelled = false) ∧ (runsWait s (pushRuns s f j st) = false) ∧ (fillsSlabs st.desc = true) ∧ (st.dud = false) ∧
      (st.filling = h :: rest) ∧ (2 ≤ st.desc.srcKind.toNat)) ∧
    (∃ (f : Fin 256) (j : Fin 16) (r : HostRead) (st : Stream) (s : State), (streamOf s f j = some st) ∧ (st.cancelled = true)) :=
  ⟨⟨(List.replicate 1 0 ++ [1, 4, 4, 0, 1, 0, 0] ++ List.replicate 16 0 ++ leBytes 8 64 ++ leBytes 4 64 ++ [255, 255, 1, 0] ++
    List.replicate 24 0), serving { req0 with stopped := some 3 } up, (by decide +kernel)⟩,
   ⟨(List.replicate 1 0 ++ [1, 4, 4, 0, 1, 0, 0] ++ List.replicate 16 0 ++ leBytes 8 64 ++ leBytes 4 64 ++ [255, 255, 1, 0] ++
    List.replicate 24 0), 0, 0, serving req0 up, (by decide +kernel)⟩,
   ⟨[9], 0, serving req0 up, (by decide +kernel)⟩,
   ⟨(List.replicate 1 0 ++ [1, 4, 4, 0, 1, 0, 0] ++ List.replicate 16 0 ++ leBytes 8 64 ++ leBytes 4 64 ++ [255, 255, 1, 0] ++
    List.replicate 24 0),
    serving req0 { up with flow := { up.flow with ferries := (List.range 256).map fun f => (f, { retired := true }) } },
    (by decide +kernel)⟩,
   ⟨up, 0, (by decide +kernel)⟩,
   ⟨3, up, (by decide +kernel)⟩,
   ⟨0, (4, { desc0 with deadline := 9 }), 0,
    { up with flow := { up.flow with waiting := [(3, desc0), (4, { desc0 with deadline := 9 })] } }, (by decide +kernel)⟩,
   ⟨[(3, desc0), (4, { desc0 with deadline := 9 })], (4, { desc0 with deadline := 9 }), (by decide +kernel)⟩,
   ⟨0, 0, stream0, 1, lace0 [] [], flowing stream0 (lace0 [] []), (by decide +kernel)⟩,
   ⟨0, 0, .failed, { stream0 with filling := [0x2001] }, 1, lace0 [held0 0x2001 [0]] [], 0x2001, [], on [domSeg 0, domSeg 2] (flowing
    ({ stream0 with filling := [0x2001] }) (lace0 [held0 0x2001 [0]] [])), (by decide +kernel)⟩,
   ⟨0, 0, { stream0 with filling := [0x2001], desc := { desc0 with srcKind := 2 } }, 0x2001, [], on [domSeg 0, domSeg 2] (flowing
    ({ stream0 with filling := [0x2001], desc := { desc0 with srcKind := 2 } }) (lace0 [held0 0x2001 [0]] [])),
    (by decide +kernel)⟩,
   ⟨0, 0, .failed, { stream0 with cancelled := true, filling := [0x2001] }, flowing
    ({ stream0 with cancelled := true, filling := [0x2001] }) (lace0 [held0 0x2001 [0]] []), (by decide +kernel)⟩⟩

theorem test_meets_HandlesAndLaunches :
    (∃ (s : State), (admissionClosed (askReady s) = true)) ∧
    (∃ (g : GovItem) (rest : List GovItem) (s : State), (admissionClosed (askReady s) = false) ∧ (
  let u := activateNow (askReady s)
  (u.power.waiting = g :: rest))) ∧
    (∃ (n : Fin 4096) (k f j : Nat) (la : Lace) (c : LaceConsumer) (e : LaceEntry) (w : List LaceEntry) (st : Stream) (s : State),
      (tget? s.flow.laces n = some la) ∧ (la.consumers[k]? = some c) ∧ (c.waiting = e :: w) ∧ (c.who = .ferry f j) ∧
      (streamOf s f j = some st) ∧ ((∃ x ∈ la.held, x.h = e.slab ∧ st.desc.request.toNat ∈ x.reqs)) ∧
      (firstStream s f j st = true) ∧ (runWaits s (slabAddr e.slab.toNat) e.fill.toNat = false)) ∧
    (∃ (n : Fin 4096) (k : Nat) (s : State), ((∀ la c, tget? s.flow.laces n = some la → la.consumers[k]? = some c → c.waiting = []))) ∧
    (∃ (h : BitVec 16) (k n : Nat) (la : Lace) (c : LaceConsumer) (s : State), (laceOfHandle s h = some (n, la)) ∧
      (tget? s.flow.laces n = some la) ∧ (la.consumers[k]? = some c)) ∧
    (∃ (h : BitVec 16) (pool : Nat) (s : State), (s.flow.clearing.find? (fun c => c.1 = h) = some (h, pool)) ∧
      (laceOfHandle s h = none) ∧ (s.hbr.waiting = []) ∧ ((segOf s (handleSeg h)).next = none) ∧ (domState s (domSeg
      (handleSeg h)) ≠ .failed)) ∧
    (∃ (a : Fin 4096) (r : Req) (d : BitVec 64) (s : State), (tget? s.que.reqs a = some r) ∧ (r.deadline = some d) ∧
      (r.stopped = none) ∧ (d.toNat < (tideOf s).toNat) ∧ (reqDiscards s a = true)) ∧
    (∃ (a : Fin 4096) (s : State), (reqDiscards s a = false)) :=
  ⟨⟨inPhase .firmware, (by decide +kernel)⟩,
   ⟨{ order := 0, work := .cluster 3, counted := false }, [],
    { up with regs := { up.regs with cfgCtrl := 0, cfgMatch := true }, power := { up.power with waiting := [{ order := 0, work := .cluster 3, counted := false }] } },
    (by decide +kernel)⟩,
   ⟨1, 0, 0, 0, lace0 [held0 0x2001 [0]]
    [{ slab := 0x2001, fill := 3, poison := false, special := false, last := false, late := false, gen := 0, seq := 0 }],
    consumer0 [{ slab := 0x2001, fill := 3, poison := false, special := false, last := false, late := false, gen := 0, seq := 0 }],
    { slab := 0x2001, fill := 3, poison := false, special := false, last := false, late := false, gen := 0, seq := 0 }, [],
    stream0, on [domSeg 2] (flowing stream0
    (lace0 [held0 0x2001 [0]]
    [{ slab := 0x2001, fill := 3, poison := false, special := false, last := false, late := false, gen := 0, seq := 0 }])),
    (by decide +kernel)⟩,
   ⟨1, 0, up, fun _ _ h => nomatch h⟩,
   ⟨0x2001, 0, 1, lace0 [held0 0x2001 [0]] [], consumer0 [], flowing stream0 (lace0 [held0 0x2001 [0]] []), (by decide +kernel)⟩,
   ⟨0x2001, 2, { up with flow := { up.flow with clearing := [(0x2001, 2)] } }, (by decide +kernel)⟩,
   ⟨0, { req0 with deadline := some 8 }, 8,
    { (asked 1 0 0 0 0 0 0 0) with que := { (asked 1 0 0 0 0 0 0 0).que with pairs := [(0, { admin with flags := 5 })], reqs := [(0, { req0 with deadline := some 8 })] }, time := { up.time with pll := 9 } },
    (by decide +kernel)⟩,
   ⟨0, up, (by decide +kernel)⟩⟩

theorem test_meets_ExactSums :
    (∃ (rows : List Nat), ((∀ w ∈ rows, w < 2 ^ 32))) ∧
    (∃ (cols planes : Nat) (rows : List (Nat × Nat)), (1 ≤ cols) ∧ (1 ≤ planes) ∧ ((∀ r ∈ rows, r.1 < 2 ^ cols ∧ r.2 < 2 ^ planes))) ∧
    (∃ (b : Nat) (vs : List (Option (Int × Int))), (2 ≤ b)) :=
  ⟨⟨[5, 0xFFFFFFFF, 0], (by decide +kernel)⟩,
   ⟨2, 3, [(3, 7), (1, 4), (0, 2)], (by decide +kernel)⟩,
   ⟨8, [none, some (-200, 3), some (0, 0)], (by decide +kernel)⟩⟩

theorem test_meets_PulseCyclesAndWelt :
    (∃ (i : Nat) (a : Fin 256) (t : Nat) (th : Thread) (w : SliceWork) (g : Group) (rest : List Group) (s : State), (i < nIslands s) ∧
      (firstThread ((islandOf s i).threads.filter fun t => threadBegun s t.2 && (readyWork (i * 256 + a) t.2).isSome) = some (t,
      th)) ∧ (tget? (islandOf s i).threads t = some th) ∧ (t < 16) ∧ (readyWork (i * 256 + a) th = some w) ∧
      (w.groups = g :: rest) ∧ (tget? (islandOf s i).pulses a = none) ∧ (dipHolds s = false) ∧ (domIsOn s i = true) ∧
      (bankBusy s w.bank = false) ∧ ((schedOf s w.bank).run = none)) ∧
    (∃ (i : Nat) (a : Fin 256) (s : State), (i < nIslands s) ∧ ((∀ t ∈ (islandOf s i).threads, threadBegun s t.2 = false ∨ readyWork
      (i * 256 + a) t.2 = none))) ∧
    (∃ (i : Nat) (a : Fin 256) (p : Pulse) (th : Thread) (w : SliceWork) (s : State), (i < nIslands s) ∧ (tget?
      (islandOf s i).pulses a = some p) ∧ (p.ended = false) ∧ (pulseWork s i p = some (th, w)) ∧ (w.tolerant = false) ∧ (
  let rows := (List.range 1024).filter fun r => p.group.mask.getLsbD r
  (p.group.pop = rows.length))) ∧
    (∃ (i : Nat) (a : Fin 256) (d : Disturb) (p : Pulse) (s : State), (i < nIslands s) ∧ (tget? (islandOf s i).pulses a = some p) ∧
      (p.ended = true)) ∧
    (∃ (i : Nat) (a : Fin 256) (p : Pulse) (th : Thread) (w : SliceWork) (x : Launch) (s : State), (i < nIslands s) ∧ (tget?
      (islandOf s i).pulses a = some p) ∧ (p.ended = true) ∧ (pulseWork s i p = some (th, w)) ∧
      (tget? s.model.launches th.launch = some x)) ∧
    (∃ (i : Nat) (h : Flit) (body : List Flit) (s : State), (i < nIslands s) ∧ (((flitData h).2 = true ∨ packetHome s i (bitsAt
      (flitData h).1.toNat 30 15) = none))) ∧
    (∃ (i : Nat) (h : Flit) (body : List Flit) (j : Join) (s : State), (i < nIslands s) ∧ (i < 2048) ∧ ((flitData h).2 = false) ∧ (
  let header := (flitData h).1.toNat
  let id := bitsAt header 30 15
  let lanes := parseLanes (bitsAt header 14 3) (body.map flitData)
  (tget? (islandOf s i).joins id = some j) ∧ (j.dev = []) ∧ ((∃ x ∈ j.sources, packetSource
      (selfId s) header j.sources x.id = true ∧ x.final = false)) ∧ ((∀ e ∈ lanes, e.1 < j.lanes.length)) ∧
      ((bitAt header 0 && bitAt header 42 && decide (bitsAt header 45 43 = selfId s)) = false))) ∧
    (∃ (s : State) (c : Nat), (recomputeCluster s = some c)) :=
  ⟨⟨0, 3, 1, thread0 (work0 [group0, { group0 with plane := 3 }]), work0 [group0, { group0 with plane := 3 }], group0,
    [{ group0 with plane := 3 }], island0 (work0 [group0, { group0 with plane := 3 }]) [], (by decide +kernel)⟩,
   ⟨0, 3, up, (by decide +kernel)⟩,
   ⟨0, 3, pulse0 false, thread0 (work0 [group0, { group0 with plane := 3 }]), work0 [group0, { group0 with plane := 3 }],
    { (island0 (work0 [group0, { group0 with plane := 3 }]) [(3, pulse0 false)]) with banks := [(6, { state := .ready })] },
    (by decide +kernel)⟩,
   ⟨0, 3, { rows := [], edges := [], slip := 0 }, pulse0 true, island0
    (work0 [group0, { group0 with plane := 3 }]) [(3, pulse0 true)], (by decide +kernel)⟩,
   ⟨0, 3, { (pulse0 true) with codes := List.replicate 1120 0, echoCount := 2, echoSum := 2 }, thread0
    (work0 [group0, { group0 with plane := 3 }]), work0 [group0, { group0 with plane := 3 }], launch0, island0
    (work0 [group0, { group0 with plane := 3 }])
    [(3, { (pulse0 true) with codes := List.replicate 1120 0, echoCount := 2, echoSum := 2 })], (by decide +kernel)⟩,
   ⟨0, mkFlit 0, [], up, (by decide +kernel)⟩,
   ⟨0, mkFlit (BitVec.ofNat 64 (9 * 2 ^ 15 + 3 * 2 ^ 43 + 0)), [], join0, island0 (work0 []) [], (by decide +kernel)⟩,
   ⟨on [domCluster 3] up, 3, (by decide +kernel)⟩⟩

theorem test_meets_ShankWork :
    (∃ (c : Fin 16) (n : Nat) (s : State), (newRecompute (clusterOf s c) = some n)) ∧
    (∃ (c : Fin 16) (s : State), (newRecompute (clusterOf s c) = none)) ∧
    (∃ (c : Fin 16) (us : List (Nat × Nat)) (s : State), (clusterRuns s c = false)) ∧
    (∃ (c : Fin 16) (us : List (Nat × Nat)) (s : State), (clusterRuns s c = true) ∧ ((clusterOf s c).current = none)) ∧
    (∃ (c : Fin 16) (k : Tile) (n : Nat) (r : Recompute) (j : Join) (s : State), (clusterRuns s c = true) ∧
      ((clusterOf s c).current = some k) ∧ ((clusterOf s c).bufferDev = []) ∧ (k.work = .recompute n) ∧ (tget?
      (clusterOf s c).recomputes n = some r) ∧ (r.started = true) ∧ (r.rowsLeft = []) ∧ (tget?
      (islandOf s r.island).joins r.join = some j)) ∧
    (∃ (c : Fin 16) (reads : List Bytes) (n row : Nat) (rest : List Nat) (r : Recompute) (s : State), (tget?
      (clusterOf s c).recomputes n = some r) ∧ (r.started = true) ∧ (r.rowsLeft = row :: rest) ∧ (clusterRuns s c = true) ∧
      (bankBusy s r.bank = false) ∧ (bankPulsing s r.bank = false)) ∧
    (∃ (c : Fin 16) (n : Nat) (reads : List Bytes) (s : State), ((∀ r, tget?
      (clusterOf s c).recomputes n = some r → r.started = false ∨ r.rowsLeft = []))) ∧
    (∃ (b : Nat) (s : State), (bankExists s b = true) ∧ (bankCovered s b = false)) ∧
    (∃ (b : Nat) (s : State), (bankExists s b = true) ∧ (bankCovered s b = true) ∧ ((bankOf s b).storageMode = false) ∧
      (bankPlaced s b = true) ∧ (tget? s.model.covers b = none) ∧ ((schedOf s b).run = none)) ∧
    (∃ (b : Nat) (s : State), (bankExists s b = false)) :=
  ⟨⟨2, 5, cluster2 { recomputes := [(5, recompute0)] }, (by decide +kernel)⟩,
   ⟨2, up, (by decide +kernel)⟩,
   ⟨2, [], up, (by decide +kernel)⟩,
   ⟨2, [], cluster2 { tiles := [{ prio := 1, deadline := none, order := 5, work := .recompute 5 }], recomputes := [(5, recompute0)] },
    (by decide +kernel)⟩,
   ⟨2, { prio := 1, deadline := none, order := 5, work := .recompute 5 }, 5, { recompute0 with started := true }, join0,
    cluster2 { current := some { prio := 1, deadline := none, order := 5, work := .recompute 5 }, recomputes := [(5, { recompute0 with started := true })] },
    (by decide +kernel)⟩,
   ⟨2, [], 5, 0, [1], { recompute0 with started := true, rowsLeft := [0, 1] },
    cluster2 { recomputes := [(5, { recompute0 with started := true, rowsLeft := [0, 1] })] }, (by decide +kernel)⟩,
   ⟨2, 0, [], up, (by decide +kernel)⟩,
   ⟨5, { up with banks := [(5, { state := .ready })] }, (by decide +kernel)⟩,
   ⟨5, { up with banks := [(5, { state := .retired, owners := [2] })], dict := { up.dict with active := [(okey (ob 0x5020 1) 0, [0, 0])] }, model := { up.model with slots := [(2, { state := .bound, places := [{slice := 0, bank := 5, third := 0, spill := false}], plan := some plan0 })] } },
    (by decide +kernel)⟩,
   ⟨2 ^ 20, up, (by decide +kernel)⟩⟩

theorem test_meets_HarbourGranules :
    (∃ (port : BitVec 12) (h : BitVec 30) (flits : Nat) (s : State), let n := max 1 (min 32 flits)
  let a := h.toNat / 8 * 8
  (s.hbr.waiting = []) ∧ (runWaits s a (8 * n) = false) ∧ (domState s (domSeg (addrSeg a)) ≠ .failed)) ∧
    (∃ (port : BitVec 12) (h : BitVec 30) (k b : Nat) (s : State), (s.hbr.waiting = []) ∧ (h.toNat % 64 = 0) ∧
      (runWaits s h.toNat 64 = false) ∧ (domState s (domSeg (addrSeg h.toNat)) ≠ .failed) ∧ (isValid s.hbr
      (h.toNat / 64) = true) ∧ (HarbourCanonical s) ∧ (k < 8) ∧ (b < 64) ∧ ((∀ j, j < 8 → tget? s.hbr.dev (8 *
      (h.toNat / 64) + j) = none)) ∧ (isHard s 0 (addrBank (8 * (8 * (h.toNat / 64) + k))) (8 * (h.toNat / 64) + k) b = false)) ∧
    (∃ (port : BitVec 12) (h : BitVec 30) (d : Bytes) (p : BitVec 8) (s : State), (s.hbr.waiting = []) ∧ (runWaits s (64 *
      (h.toNat / 64)) 64 = false) ∧ (domState s (domSeg (addrSeg h.toNat)) ≠ .failed) ∧ (HarbourCanonical s) ∧
      ((tkeys s.hbr.dev).Pairwise (· < ·))) ∧
    (∃ (port : BitVec 12) (h : BitVec 30) (d : Bytes) (p : BitVec 8) (flits : Nat) (s : State), (accessWaits s (64 *
      (h.toNat / 64)) = true)) ∧
    (∃ (base : BitVec 30) (len : Nat) (s : State), (s.hbr.clears.find? (fun r => r.1 = base.toNat) = some (base.toNat, len)) ∧
      (len < 2 ^ 26) ∧ (base.toNat % 64 = 0) ∧ (len % 64 = 0) ∧ (s.hbr.waiting = [])) ∧
    (∃ (i : Initiator) (x : BitVec 30) (len : Nat) (s : State), (i = .portD ∨ ((segOf s (addrSeg x.toNat)).use ≠ .host ∧
      (privileged s i = false ∨ ((segOf s (addrSeg x.toNat)).use ≠ .context ∧ (segOf s (addrSeg x.toNat)).use ≠ .system))))) ∧
    (∃ (i : Initiator) (x : BitVec 30) (d : Bytes) (s : State), ((segOf s (addrSeg x.toNat)).use = .host) ∧ (i ≠ .portD) ∧ (d ≠ []) ∧
      (addrSeg (x.toNat + d.length - 1) = addrSeg x.toNat) ∧ (s.hbr.waiting = []) ∧ (runWaits s x.toNat d.length = false) ∧
      (domState s (domSeg (addrSeg x.toNat)) ≠ .failed) ∧ ((∀ w, wordSyn s.hbr w = 0))) ∧
    (∃ (s : State), ((∀ w, wordSyn s.hbr w = 0))) :=
  ⟨⟨3, 64, 4, up, (by decide +kernel)⟩,
   ⟨3, 0, 0, 5, { up with hbr := hWrite up.hbr 0 [1, 2, 3, 4, 5, 6, 7, 8, 9] false }, ⟨rfl, by decide, by decide +kernel,
    by decide +kernel, by decide +kernel, (by decide +kernel : Memory.wf _ = true), by decide, by decide, by decide +kernel,
    by decide +kernel⟩⟩,
   ⟨3, 5, [9], 0, { up with hbr := hWrite up.hbr 0 [1, 2, 3, 4, 5, 6, 7, 8, 9] false }, ⟨rfl, by decide +kernel, by decide +kernel,
    (by decide +kernel : Memory.wf _ = true), by decide +kernel⟩⟩,
   ⟨3, 2 ^ 27, [1], 0, 8, { up with power := { up.power with doms := [(domSeg 2, { state := .ret })] } }, (by decide +kernel)⟩,
   ⟨0, 128, { ({ up with hbr := hWrite up.hbr 0 [1, 2, 3, 4, 5, 6, 7, 8, 9] false }) with hbr := { ({ up with hbr := hWrite up.hbr 0 [1, 2, 3, 4, 5, 6, 7, 8, 9] false }).hbr with clears := [(0, 128), (64, 64)] } },
    (by decide +kernel)⟩,
   ⟨.portU, 2 ^ 27, 4, up, (by decide +kernel)⟩,
   ⟨.portU, 2 ^ 27, [1, 2], { (on [domSeg 2] up) with hbr := { up.hbr with segs := [(2, { use := .host })] } }, ⟨by decide +kernel,
    by decide, by decide, by decide +kernel, rfl, by decide +kernel, by decide +kernel, fun _ => rfl⟩⟩,
   ⟨up, fun _ => rfl⟩⟩

theorem test_meets_CobblerDueWork :
    (∃ (s : State), ((tkeys s.banks).Pairwise (· < ·))) ∧
    (∃ (n : Nat) (s : State), (bankExists s n = true)) ∧
    (∃ (n : Nat) (run : Run) (s : State), (bankExists s n = true) ∧ ((schedOf s n).run = some run)) ∧
    (∃ (n : Nat) (s : State), (bankExists s n = true) ∧ ((schedOf s n).run = none)) ∧
    (∃ (n : Nat) (s : State), (bankExists s n = true)) ∧
    (∃ (n : Nat) (s : State), (bankExists s n = true)) ∧
    (∃ (s : State), ((tkeys s.scheds).Pairwise (· < ·))) ∧
    (∃ (s : State), ((∀ e ∈ s.dict.area0 ++ s.dict.area1, e.seq < s.dict.storeSeq))) :=
  ⟨⟨{ (on [0] up) with banks := [(5, { state := .ready, owners := [2] })], scheds := [(5, {})], model := { up.model with slots := [(2, { state := .placed, places := [{slice := 0, bank := 5, third := 0, spill := false}], plan := some plan0 })] }, time := { up.time with pll := 5000000000, storedTotal := 0 } },
    (by decide +kernel)⟩,
   ⟨5, { (on [0] up) with banks := [(5, { state := .ready, owners := [2] })], scheds := [(5, { dueTopup := true })], model := { up.model with slots := [(2, { state := .placed, places := [{slice := 0, bank := 5, third := 0, spill := false}], plan := some plan0 })] } },
    (by decide +kernel)⟩,
   ⟨5, { next := 7, floor := false, preempted := true, permille := 3 },
    { (on [0] up) with banks := [(5, { state := .ready, owners := [2] })], scheds := [(5, { run := some { next := 7, floor := false, preempted := true, permille := 3 } })], model := { up.model with slots := [(2, { state := .placed, places := [{slice := 0, bank := 5, third := 0, spill := false}], plan := some plan0 })] } },
    (by decide +kernel)⟩,
   ⟨5, { (on [0] up) with banks := [(5, { state := .ready, owners := [2] })], scheds := [(5, {})], model := { up.model with slots := [(2, { state := .placed, places := [{slice := 0, bank := 5, third := 0, spill := false}], plan := some plan0 })] } },
    (by decide +kernel)⟩,
   ⟨5, { (on [0] up) with banks := [(5, { state := .ready, owners := [2] })], scheds := [(5, {})], model := { up.model with slots := [(2, { state := .placed, places := [{slice := 0, bank := 5, third := 0, spill := false}], plan := some plan0 })] }, time := { up.time with pll := 0, storedTotal := 2 ^ 40 } },
    (by decide +kernel)⟩,
   ⟨5, { (on [0] up) with banks := [(5, { state := .ready, owners := [2] })], scheds := [(5, { dueKs := true, sinceKs := some 0 })], model := { up.model with slots := [(2, { state := .placed, places := [{slice := 0, bank := 5, third := 0, spill := false}], plan := some plan0 })] }, time := { up.time with pll := 0, storedTotal := 2 ^ 40 } },
    (by decide +kernel)⟩,
   ⟨{ (on [0] up) with banks := [(5, { state := .ready, owners := [2] })], scheds := [(5, { reruns := [4, 5] })], model := { up.model with slots := [(2, { state := .placed, places := [{slice := 0, bank := 5, third := 0, spill := false}], plan := some plan0 })] }, time := { up.time with pll := 0, storedTotal := 7300 } },
    (by decide +kernel)⟩,
   ⟨{ (on [0] up) with banks := [(5, { state := .ready, owners := [2] })], scheds := [(5, { drift := 77, reruns := [1] })], model := { up.model with slots := [(2, { state := .placed, places := [{slice := 0, bank := 5, third := 0, spill := false}], plan := some plan0 })] }, time := { up.time with pll := 61000000000, storedTotal := 0 } },
    (by decide +kernel)⟩⟩

theorem test_meets_CobblerTestsAndRebuilds :
    (∃ (n : Nat) (r : KsResult) (s : State), (bankExists s n = true) ∧ (testAllowed s n = false)) ∧
    (∃ (n : Nat) (r : KsResult) (s : State), (bankExists s n = true) ∧ (testAllowed s n = true)) ∧
    (∃ (n : Nat) (s : State), ((schedOf s n).sealTested = true) ∧ ((bankOf s n).state = .programming)) ∧
    (∃ (n : Nat) (steps : List Nat) (s : State), (bankExists s n = true)) ∧
    (∃ (n : Nat) (r : KsResult) (s : State), (bankExists s n = true) ∧ (testAllowed s n = true)) ∧
    (∃ (n : Nat) (target : Option Nat) (s : State), (bankExists s n = true) ∧ ((schedOf s n).dueRebuild = false ∨
      (schedOf s n).rebuilding = true ∨
      (∃ c, tget? s.model.covers n = some c ∧ c.missing ≠ []) ∨ (bankOf s n).ops ≠ [] ∨ bankIdle s n = false ∨
      s.awl.paused = true ∨ 1536 ≤ slotsUsed s)) ∧
    (∃ (n : Nat) (target : Option Nat) (s : State), (bankExists s n = true) ∧ ((schedOf s n).dueRebuild = true) ∧
      ((schedOf s n).rebuilding = false) ∧ ((∀ c, tget? s.model.covers n = some c → c.missing = [])) ∧ ((bankOf s n).ops = []) ∧
      (bankIdle s n = true) ∧ (s.awl.paused = false) ∧ (slotsUsed s < 1536)) :=
  ⟨⟨5, { cycles := [], devMicro := [], trims := [(3, 5), (2000, 1)], cut := none },
    { (on [0] up) with banks := [(5, { state := .erased })], scheds := [(5, {})], model := { up.model with slots := [(2, { state := .placed, places := [{slice := 0, bank := 5, third := 0, spill := false}], plan := some plan0 })] } },
    (by decide +kernel)⟩,
   ⟨5, { cycles := [], devMicro := [], trims := [(3, 5), (2000, 1)], cut := none },
    { (on [0] up) with banks := [(5, { state := .ready, owners := [2] })], scheds := [(5, {})], model := { up.model with slots := [(2, { state := .placed, places := [{slice := 0, bank := 5, third := 0, spill := false}], plan := some plan0 })] } },
    (by decide +kernel)⟩,
   ⟨5, { (on [0] up) with banks := [(5, { state := .programming, owners := [2] })], scheds := [(5, { sealTested := true, drift := 9 })], model := { up.model with slots := [(2, { state := .placed, places := [{slice := 0, bank := 5, third := 0, spill := false}], plan := some plan0 })] } },
    (by decide +kernel)⟩,
   ⟨5, [7, 40], { (on [0] up) with banks := [(5, { state := .storage, storageMode := true, owners := [2] })], scheds := [(5, {})], model := { up.model with slots := [(2, { state := .placed, places := [{slice := 0, bank := 5, third := 0, spill := false}], plan := some plan0 })] } },
    (by decide +kernel)⟩,
   ⟨5, { cycles := [], devMicro := [], trims := [(3, 5), (2000, 1)], cut := none },
    { (on [0] up) with banks := [(5, { state := .ready, owners := [2] })], scheds := [(5, { retests := 1, failing := [(3, 0)] })], model := { up.model with slots := [(2, { state := .placed, places := [{slice := 0, bank := 5, third := 0, spill := false}], plan := some plan0 })] }, time := { up.time with pll := 20000000000, storedTotal := 0 } },
    (by decide +kernel)⟩,
   ⟨5, none, { (on [0] up) with banks := [(5, { state := .ready, owners := [2] })], scheds := [(5, {})], model := { up.model with slots := [(2, { state := .placed, places := [{slice := 0, bank := 5, third := 0, spill := false}], plan := some plan0 })] } },
    (by decide +kernel)⟩,
   ⟨5, none, { (on [0] up) with banks := [(5, { state := .ready, owners := [2] })], scheds := [(5, { dueRebuild := true, failing := [(3, 0)] })], model := { up.model with slots := [(2, { state := .placed, places := [{slice := 0, bank := 5, third := 0, spill := false}], plan := some plan0 })] } },
    (by decide +kernel)⟩⟩

theorem test_meets_PowerDomains :
    (∃ (n : Nat) (s : State), (domExists s n = true)) ∧
    (∃ (n : Nat) (s : State), (domExists s n = true) ∧ ((domOf s n).current = some .on)) ∧
    (∃ (n : Nat) (tests : List (Nat × KsResult)) (s : State), (domExists s n = true)) ∧
    (∃ (n : Nat) (tests : List (Nat × KsResult)) (s : State), (domExists s n = true) ∧ (
  let d := domOf s n
  (d.current = some .on) ∧ (d.queued = none) ∧ (testsComplete s n d.state tests = true) ∧ ((n = 2080 → s.dict.waitingMsgs = [])) ∧
      (s.hbr.waiting = []))) ∧
    (∃ (n : Nat) (s : State), (domExists s n = true) ∧ ((domOf s n).queued = none)) :=
  ⟨⟨5, { (up) with power := { up.power with doms := [(5, { state := .on, queued := some .ret })] } }, (by decide +kernel)⟩,
   ⟨5, { (up) with power := { up.power with doms := [(5, { state := .off, current := some .on })] } }, (by decide +kernel)⟩,
   ⟨5, [], up, (by decide +kernel)⟩,
   ⟨5, [], { (up) with power := { up.power with doms := [(5, { state := .off, current := some .on })] } }, (by decide +kernel)⟩,
   ⟨5, { (up) with power := { up.power with doms := [(5, { state := .on, current := some .ret })] } }, (by decide +kernel)⟩⟩

theorem test_meets_SupplyHeatAndWatchdogs :
    (∃ (s : State), (s.power.samples.length ≠ 10)) ∧
    (∃ (s : State), (s.power.samples.length = 10)) ∧
    (∃ (key : Nat) (q : Int) (s : State), ((nIslands s ≤ key ∧ key < 0x10000) ∨ 0x10010 ≤ key)) ∧
    (∃ (key : Nat) (q : Int) (s : State), (key < nIslands s ∨ (0x10000 ≤ key ∧ key < 0x10010)) ∧ (s.power.phase ≠ .off)) ∧
    (∃ (c : Fin 8) (why : CoreFault) (s : State), (uzomelRuns s = false)) ∧
    (∃ (c : Fin 8) (s : State), (uzomelRuns s = true)) ∧
    (∃ (c : Fin 8) (w : Nat) (bits : List (Fin 72)) (confined : Bool) (s : State), (uzomelRuns s = true)) ∧
    (∃ (i : Nat) (s : State), (nIslands s ≤ i)) ∧
    (∃ (u : UnitRef) (k : UnitKind) (n e : Nat) (s : State), ((u = .island n ∧ n < nIslands s ∧ k = .island ∧ e = 3) ∨ (∃ f : Fin 256,
      u = .ferry f ∧ n = f.val ∧ k = .ferry ∧ e = 5) ∨
      (∃ c : Fin 16, u = .cluster c ∧ n = c.val ∧ k = .cluster ∧ e = 6))) :=
  ⟨⟨up, (by decide +kernel)⟩,
   ⟨{ up with power := { up.power with samples := [100000, 100000, 100000, 100000, 100000, 100000, 100000, 100000, 100000, 100000] } },
    (by decide +kernel)⟩,
   ⟨2 ^ 17, 5, up, (by decide +kernel)⟩,
   ⟨7, 370, up, (by decide +kernel)⟩,
   ⟨0, .expired, inPhase .rom, (by decide +kernel)⟩,
   ⟨0, up, (by decide +kernel)⟩,
   ⟨0, 524290, [3], true, up, (by decide +kernel)⟩,
   ⟨3000, up, (by decide +kernel)⟩,
   ⟨.island 3, .island, 3, 3, up, (by decide +kernel)⟩⟩

theorem test_meets_PortsAndTheEngine :
    (∃ (p : Port) (s : State), ((tkeys s.que.pairs).Pairwise (· < ·))) ∧
    (∃ (o : BitVec 12) (a : BitVec 64) (len : Nat) (w : Option Bytes) (s : State), (engineUp s = false)) ∧
    (∃ (o : BitVec 12) (s : State), (engineUp s = true)) ∧
    (∃ (a : BitVec 64) (len : Nat) (w : Option Bytes) (s : State), (engineUp s = true)) :=
  ⟨⟨.u, { up with portU := { up.portU with linkUp := true }, que := { up.que with pairs := [(0, admin), (3, { admin with port := .d })] } },
    (by decide +kernel)⟩,
   ⟨0, 0, 4, none, up, (by decide +kernel)⟩,
   ⟨8, { up with regs := { up.regs with dMode := 1, engineFound := true }, portD := { up.portD with linkUp := true } },
    (by decide +kernel)⟩,
   ⟨2 ^ 27, 4, none, { ({ up with regs := { up.regs with dMode := 1, engineFound := true }, portD := { up.portD with linkUp := true } }) with hbr := { up.hbr with segs := [(2, { use := .host })] }, power := (on [domSeg 2] up).power },
    (by decide +kernel)⟩⟩

theorem test_meets_SoundHopsAndStraitLinks :
    (∃ (port : BitVec 12) (p : List Flit) (r : List Nat) (s : State), (portExists s port = false)) ∧
    (∃ (port : BitVec 12) (r : List Nat) (s : State), (portExists s port = true)) ∧
    (∃ (port : BitVec 12) (h0 : Flit) (rest : List Flit) (r : List Nat) (s : State), (portExists s port = true) ∧ (port.toNat < 2339)) ∧
    (∃ (port : BitVec 12) (h : Flit) (body : List Flit) (s : State), (2339 ≤ port.toNat) ∧ (port.toNat ≤ 2345) ∧ (body.length < 30) ∧
      ((∀ f ∈ h :: body, flitBroken f = false ∧ flitCorrected f = false)) ∧ (1 ≤ packetType h) ∧ (packetType h ≤ 3)) ∧
    (∃ (half : Fin 14) (flit : Bytes) (bad : BitVec 4) (s : State), (flit.length = 256)) :=
  ⟨⟨4000, [], [], up, (by decide +kernel)⟩,
   ⟨3, [], up, (by decide +kernel)⟩,
   ⟨2100, mkFlit (2 * 2 ^ 60), [mkFlit 5], [], up, (by decide +kernel)⟩,
   ⟨2339, mkFlit (2 * 2 ^ 60 + 3 * 2 ^ 57), [mkFlit 5],
    { up with strait := { up.strait with links := [(0, { state := .exchange, peerA := 3, lanes := 15 })] } }, (by decide +kernel)⟩,
   ⟨0, List.replicate 256 0, 0,
    { up with strait := { up.strait with links := [(0, { state := .exchange, peerA := 3, lanes := 15 })] } }, (by decide +kernel)⟩⟩

theorem test_meets_DeviceGroups :
    (∃ (half : Fin 14) (t1 : BitVec 64) (s : State), ((linkOf s (linkKey half.val)).state ≠ .exchange)) ∧
    (∃ (half : Fin 14) (t1 : BitVec 64) (s : State), ((linkOf s (linkKey half.val)).state = .exchange)) ∧
    (∃ (half : Fin 14) (t1 t2 t3 t4 : BitVec 64) (s : State), ((linkOf s (linkKey half.val)).state = .exchange)) :=
  ⟨⟨0, 5, up, (by decide +kernel)⟩,
   ⟨0, 5, { up with strait := { up.strait with links := [(0, { state := .exchange, peerA := 3, lanes := 15 })] } },
    (by decide +kernel)⟩,
   ⟨0, 1, 2, 4, 9, { up with strait := { up.strait with links := [(0, { state := .exchange, peerA := 3, lanes := 15 })] } },
    (by decide +kernel)⟩⟩

end Sys2Proof.Tests
end

section
/-! SUPPORT. What every command leaves as it is, and what a part delivered with suffix -P holds. -/

namespace Sys2Proof.Laws

open Sys2Proof.Machine

/-- Every command has a frame: its meaning's own, from Laws/Frame*.lean. -/
theorem exec_only (c : Instr) (s : State) : ∃ P, OnlyR P s (exec c s) :=
  match c with
  | .auxPowerUp => ⟨_, execAuxPowerUp_only s⟩
  | .mainPowerUp => ⟨_, execMainPowerUp_only s⟩
  | .moduleResetEnd straps => ⟨_, execModuleResetEnd_only straps s⟩
  | .moduleReset cause => ⟨_, execModuleReset_only cause s⟩
  | .bootOscTimeout => ⟨_, execBootOscTimeout_only s⟩
  | .bootRomRun unwrapOk => ⟨_, execBootRomRun_only unwrapOk s⟩
  | .uzomelReady lost => ⟨_, execUzomelReady_only lost s⟩
  | .recoveryTimeout => ⟨_, execRecoveryTimeout_only s⟩
  | .secRcvGo ini value image => ⟨_, execSecRcvGo_only ini value image s⟩
  | .recoveryImageDone writeOk => ⟨_, execRecoveryImageDone_only writeOk s⟩
  | .requestUpdate => ⟨_, execRequestUpdate_only s⟩
  | .passComponentTable component => ⟨_, execPassComponentTable_only component s⟩
  | .updateComponent component size => ⟨_, execUpdateComponent_only component size s⟩
  | .requestFirmwareData offset data => ⟨_, execRequestFirmwareData_only offset data s⟩
  | .transferComplete ok => ⟨_, execTransferComplete_only ok s⟩
  | .verifyComplete => ⟨_, execVerifyComplete_only s⟩
  | .applyComplete writeOk => ⟨_, execApplyComplete_only writeOk s⟩
  | .activateFirmware => ⟨_, execActivateFirmware_only s⟩
  | .cancelUpdate => ⟨_, execCancelUpdate_only s⟩
  | .getVersion conn msg => ⟨_, execGetVersion_only conn msg s⟩
  | .getCapabilities conn msg => ⟨_, execGetCapabilities_only conn msg s⟩
  | .negotiateAlgorithms conn msg offersRsaPss3072 offersSha384 => ⟨_, execNegotiateAlgorithms_only conn msg offersRsaPss3072 offersSha384 s⟩
  | .getDigests conn msg => ⟨_, execGetDigests_only conn msg s⟩
  | .getCertificate conn msg slot offset length => ⟨_, execGetCertificate_only conn msg slot offset length s⟩
  | .challenge conn msg slot => ⟨_, execChallenge_only conn msg slot s⟩
  | .getMeasurements conn msg slot index signed => ⟨_, execGetMeasurements_only conn msg slot index signed s⟩
  | .chunkSend conn chunk last => ⟨_, execChunkSend_only conn chunk last s⟩
  | .chunkGet conn size => ⟨_, execChunkGet_only conn size s⟩
  | .pqSign conn msg => ⟨_, execPqSign_only conn msg s⟩
  | .secFwStage r image => ⟨_, execSecFwStage_only r image s⟩
  | .secFwCommit r data => ⟨_, execSecFwCommit_only r data s⟩
  | .fwSlotWriteDone ok => ⟨_, execFwSlotWriteDone_only ok s⟩
  | .secModuleReset r data => ⟨_, execSecModuleReset_only r data s⟩
  | .secPolicyWrite r data => ⟨_, execSecPolicyWrite_only r data s⟩
  | .pubkeyWrite r slot data => ⟨_, execPubkeyWrite_only r slot data s⟩
  | .submissionRead pair entry => ⟨_, execSubmissionRead_only pair entry s⟩
  | .duplicateReplay pair key log => ⟨_, execDuplicateReplay_only pair key log s⟩
  | .sqTailDoorbell port pair value => ⟨_, execSqTailDoorbell_only port pair value s⟩
  | .cqHeadDoorbell port pair value => ⟨_, execCqHeadDoorbell_only port pair value s⟩
  | .interruptTimer pair => ⟨_, execInterruptTimer_only pair s⟩
  | .infer a list => ⟨_, execInfer_only a list s⟩
  | .inferComplete a => ⟨_, execInferComplete_only a s⟩
  | .ctxOpen a => ⟨_, execCtxOpen_only a s⟩
  | .ctxClose a => ⟨_, execCtxClose_only a s⟩
  | .ctxCloseRelease a => ⟨_, execCtxCloseRelease_only a s⟩
  | .ctxSave a => ⟨_, execCtxSave_only a s⟩
  | .ctxSaveWrite a => ⟨_, execCtxSaveWrite_only a s⟩
  | .ctxRestore a saved => ⟨_, execCtxRestore_only a saved s⟩
  | .cancel a => ⟨_, execCancel_only a s⟩
  | .fence a => ⟨_, execFence_only a s⟩
  | .fenceRelease a => ⟨_, execFenceRelease_only a s⟩
  | .loadManifest a manifest => ⟨_, execLoadManifest_only a manifest s⟩
  | .loadShard a hash => ⟨_, execLoadShard_only a hash s⟩
  | .verifyPassDone a shard => ⟨_, execVerifyPassDone_only a shard s⟩
  | .programPassDone a shard => ⟨_, execProgramPassDone_only a shard s⟩
  | .commitImage a hash => ⟨_, execCommitImage_only a hash s⟩
  | .dropImage a hash => ⟨_, execDropImage_only a hash s⟩
  | .refetchReminder => ⟨_, execRefetchReminder_only s⟩
  | .swapStage a file table choice => ⟨_, execSwapStage_only a file table choice s⟩
  | .swapSwitch a => ⟨_, execSwapSwitch_only a s⟩
  | .swapAbort a => ⟨_, execSwapAbort_only a s⟩
  | .groupSwitchTide slot => ⟨_, execGroupSwitchTide_only slot s⟩
  | .generationRetire slot => ⟨_, execGenerationRetire_only slot s⟩
  | .layerRewriteDone slot layer shards => ⟨_, execLayerRewriteDone_only slot layer shards s⟩
  | .place a file choice => ⟨_, execPlace_only a file choice s⟩
  | .attach a groups => ⟨_, execAttach_only a groups s⟩
  | .bindQueue a => ⟨_, execBindQueue_only a s⟩
  | .bindSegment a => ⟨_, execBindSegment_only a s⟩
  | .detach a => ⟨_, execDetach_only a s⟩
  | .release a => ⟨_, execRelease_only a s⟩
  | .unbindSegment a => ⟨_, execUnbindSegment_only a s⟩
  | .bindDrainEnd a => ⟨_, execBindDrainEnd_only a s⟩
  | .lastSlotFreed slot => ⟨_, execLastSlotFreed_only slot s⟩
  | .segmentHandover seg => ⟨_, execSegmentHandover_only seg s⟩
  | .sharedSegmentTake seg => ⟨_, execSharedSegmentTake_only seg s⟩
  | .sharedSegmentReturn seg => ⟨_, execSharedSegmentReturn_only seg s⟩
  | .rePlacement slot slice target => ⟨_, execRePlacement_only slot slice target s⟩
  | .dictRead a hash => ⟨_, execDictRead_only a hash s⟩
  | .dictWrite a value => ⟨_, execDictWrite_only a value s⟩
  | .queuePairEnable w => ⟨_, execQueuePairEnable_only w s⟩
  | .queuePairDisable w => ⟨_, execQueuePairDisable_only w s⟩
  | .queuePairDisabled pair => ⟨_, execQueuePairDisabled_only pair s⟩
  | .cfgCommit r data => ⟨_, execCfgCommit_only r data s⟩
  | .monClear r data => ⟨_, execMonClear_only r data s⟩
  | .mctpDictRead ep tag flags index sub argument offset length hash => ⟨_, execMctpDictRead_only ep tag flags index sub argument offset length hash s⟩
  | .mctpDictWrite ep tag flags index sub argument offset data => ⟨_, execMctpDictWrite_only ep tag flags index sub argument offset data s⟩
  | .mctpSnapshotExpiry ep => ⟨_, execMctpSnapshotExpiry_only ep s⟩
  | .mctpWriteTimeout ep => ⟨_, execMctpWriteTimeout_only ep s⟩
  | .regWrite ini offset size value => ⟨_, execRegWrite_only ini offset size value s⟩
  | .mwWrite ini offset value => ⟨_, execMwWrite_only ini offset value s⟩
  | .pairLoRead ini offset => ⟨_, execPairLoRead_only ini offset s⟩
  | .pairHiWrite ini offset value => ⟨_, execPairHiWrite_only ini offset value s⟩
  | .pairLoWrite ini offset value => ⟨_, execPairLoWrite_only ini offset value s⟩
  | .w1cWrite ini offset value => ⟨_, execW1cWrite_only ini offset value s⟩
  | .configRegWrite ini offset value => ⟨_, execConfigRegWrite_only ini offset value s⟩
  | .cfgCrcRefWrite ini value => ⟨_, execCfgCrcRefWrite_only ini value s⟩
  | .cfgHoldWrite ini value => ⟨_, execCfgHoldWrite_only ini value s⟩
  | .holdLongTimer => ⟨_, execHoldLongTimer_only s⟩
  | .checkPassEnd => ⟨_, execCheckPassEnd_only s⟩
  | .configActivate => ⟨_, execConfigActivate_only s⟩
  | .xdomCrossingDone => ⟨_, execXdomCrossingDone_only s⟩
  | .tideAlarmWrite ini lo => ⟨_, execTideAlarmWrite_only ini lo s⟩
  | .tideAlarmFire => ⟨_, execTideAlarmFire_only s⟩
  | .tideEpochOpen => ⟨_, execTideEpochOpen_only s⟩
  | .awlCplPop ini => ⟨_, execAwlCplPop_only ini s⟩
  | .awlBankSelWrite ini ch value => ⟨_, execAwlBankSelWrite_only ini ch value s⟩
  | .awlUnlockStep ini ch offset byte => ⟨_, execAwlUnlockStep_only ini ch offset byte s⟩
  | .awlWideWrite ini ch offset => ⟨_, execAwlWideWrite_only ini ch offset s⟩
  | .awlStrayByte ini ch offset byte => ⟨_, execAwlStrayByte_only ini ch offset byte s⟩
  | .programRow ini ch => ⟨_, execProgramRow_only ini ch s⟩
  | .programWord ini ch => ⟨_, execProgramWord_only ini ch s⟩
  | .eraseBank ini ch => ⟨_, execEraseBank_only ini ch s⟩
  | .topUpRow ini ch => ⟨_, execTopUpRow_only ini ch s⟩
  | .readRow ini ch => ⟨_, execReadRow_only ini ch s⟩
  | .readMargin ini ch => ⟨_, execReadMargin_only ini ch s⟩
  | .setComputeMode ini ch => ⟨_, execSetComputeMode_only ini ch s⟩
  | .setStorageMode ini ch => ⟨_, execSetStorageMode_only ini ch s⟩
  | .sealBank ini ch => ⟨_, execSealBank_only ini ch s⟩
  | .markBank ini ch => ⟨_, execMarkBank_only ini ch s⟩
  | .readStatus ini ch => ⟨_, execReadStatus_only ini ch s⟩
  | .resetToRead ini ch => ⟨_, execResetToRead_only ini ch s⟩
  | .suspend ini ch => ⟨_, execSuspend_only ini ch s⟩
  | .resume ini ch => ⟨_, execResume_only ini ch s⟩
  | .awlOpStart bank => ⟨_, execAwlOpStart_only bank s⟩
  | .awlOpComplete bank r => ⟨_, execAwlOpComplete_only bank r s⟩
  | .eraseStarvation bank => ⟨_, execEraseStarvation_only bank s⟩
  | .launchAdmit => ⟨_, execLaunchAdmit_only s⟩
  | .ferryDescriptorIssue desc => ⟨_, execFerryDescriptorIssue_only desc s⟩
  | .ferrySlotStart f => ⟨_, execFerrySlotStart_only f s⟩
  | .slabFillStart f stream => ⟨_, execSlabFillStart_only f stream s⟩
  | .slabPush f stream source => ⟨_, execSlabPush_only f stream source s⟩
  | .requestDeadlinePass a => ⟨_, execRequestDeadlinePass_only a s⟩
  | .laceEntryReceive lace consumer => ⟨_, execLaceEntryReceive_only lace consumer s⟩
  | .handleRelease handle consumer => ⟨_, execHandleRelease_only handle consumer s⟩
  | .slabCleared handle => ⟨_, execSlabCleared_only handle s⟩
  | .cancelledSlabRecall f stream => ⟨_, execCancelledSlabRecall_only f stream s⟩
  | .rowGroupStart island array => ⟨_, execRowGroupStart_only island array s⟩
  | .pulseCycleEnd island array d => ⟨_, execPulseCycleEnd_only island array d s⟩
  | .weltAccept island array upsets => ⟨_, execWeltAccept_only island array upsets s⟩
  | .longSumReceive island packet => ⟨_, execLongSumReceive_only island packet s⟩
  | .recomputeReceive cluster => ⟨_, execRecomputeReceive_only cluster s⟩
  | .shankTileBoundary cluster upsets => ⟨_, execShankTileBoundary_only cluster upsets s⟩
  | .streamReadRow cluster recompute reads => ⟨_, execStreamReadRow_only cluster recompute reads s⟩
  | .coverStart c => ⟨_, execCoverStart_only c s⟩
  | .harbourRead port h flits upsets => ⟨_, execHarbourRead_only port h flits upsets s⟩
  | .harbourWrite port h data poison => ⟨_, execHarbourWrite_only port h data poison s⟩
  | .harbourPartialWrite port h data poison => ⟨_, execHarbourPartialWrite_only port h data poison s⟩
  | .regionClearDone base => ⟨_, execRegionClearDone_only base s⟩
  | .patrolScrub upsets => ⟨_, execPatrolScrub_only upsets s⟩
  | .bar4Access ini x len write => ⟨_, execBar4Access_only ini x len write s⟩
  | .soundHop port packet resends => ⟨_, execSoundHop_only port packet resends s⟩
  | .handshakeWatchdog u => ⟨_, execHandshakeWatchdog_only u s⟩
  | .ceBucketDrain kind => ⟨_, execCeBucketDrain_only kind s⟩
  | .driftAgeTick => ⟨_, execDriftAgeTick_only s⟩
  | .topupRunStart bank => ⟨_, execTopupRunStart_only bank s⟩
  | .topupResume bank => ⟨_, execTopupResume_only bank s⟩
  | .fullKnownSumTest bank r => ⟨_, execFullKnownSumTest_only bank r s⟩
  | .marginSample bank steps => ⟨_, execMarginSample_only bank steps s⟩
  | .ksPeriodTimer bank => ⟨_, execKsPeriodTimer_only bank s⟩
  | .idleWindowOpen slot spillGroup => ⟨_, execIdleWindowOpen_only slot spillGroup s⟩
  | .forceAfterTimer bank => ⟨_, execForceAfterTimer_only bank s⟩
  | .columnRetestTimer bank r => ⟨_, execColumnRetestTimer_only bank r s⟩
  | .rebuildCycle bank target => ⟨_, execRebuildCycle_only bank target s⟩
  | .rerunBucketRoll => ⟨_, execRerunBucketRoll_only s⟩
  | .poweredTimeStore => ⟨_, execPoweredTimeStore_only s⟩
  | .domainRequestOn src dom => ⟨_, execDomainRequestOn_only src dom s⟩
  | .domainRequestRet src dom => ⟨_, execDomainRequestRet_only src dom s⟩
  | .domainRequestOff src dom => ⟨_, execDomainRequestOff_only src dom s⟩
  | .domainIdleRetTimer dom => ⟨_, execDomainIdleRetTimer_only dom s⟩
  | .domainIdleOffTimer dom => ⟨_, execDomainIdleOffTimer_only dom s⟩
  | .domainDrainEnd dom => ⟨_, execDomainDrainEnd_only dom s⟩
  | .wakeStepTimeout dom => ⟨_, execWakeStepTimeout_only dom s⟩
  | .domainWakeDone dom tests => ⟨_, execDomainWakeDone_only dom tests s⟩
  | .domainDownDone dom => ⟨_, execDomainDownDone_only dom s⟩
  | .powerSample milliwatts => ⟨_, execPowerSample_only milliwatts s⟩
  | .governorPeriodEnd => ⟨_, execGovernorPeriodEnd_only s⟩
  | .tjSample key quarterDegrees => ⟨_, execTjSample_only key quarterDegrees s⟩
  | .vcoreSample millivolts => ⟨_, execVcoreSample_only millivolts s⟩
  | .occupancySample => ⟨_, execOccupancySample_only s⟩
  | .vcoreWarningTrip => ⟨_, execVcoreWarningTrip_only s⟩
  | .vcoreRecover => ⟨_, execVcoreRecover_only s⟩
  | .dipHoldEnd checks => ⟨_, execDipHoldEnd_only checks s⟩
  | .dipResume => ⟨_, execDipResume_only s⟩
  | .tideSourceChange present => ⟨_, execTideSourceChange_only present s⟩
  | .functionLevelReset port => ⟨_, execFunctionLevelReset_only port s⟩
  | .perstNAssert port => ⟨_, execPerstNAssert_only port s⟩
  | .perstNRelease port => ⟨_, execPerstNRelease_only port s⟩
  | .pcieLinkDown port => ⟨_, execPcieLinkDown_only port s⟩
  | .d3hotEntry port => ⟨_, execD3hotEntry_only port s⟩
  | .d0Return port => ⟨_, execD0Return_only port s⟩
  | .rootPortEnumerate r => ⟨_, execRootPortEnumerate_only r s⟩
  | .engineInterruptWrite offset => ⟨_, execEngineInterruptWrite_only offset s⟩
  | .engineHarbourAccess addr len write => ⟨_, execEngineHarbourAccess_only addr len write s⟩
  | .downstreamWindowAccess ini offset write engine => ⟨_, execDownstreamWindowAccess_only ini offset write engine s⟩
  | .linkTraining link lanes halves peerA peerB => ⟨_, execLinkTraining_only link lanes halves peerA peerB s⟩
  | .linkTrained peer => ⟨_, execLinkTrained_only peer s⟩
  | .manifestReceive manifest => ⟨_, execManifestReceive_only manifest s⟩
  | .flitReceive half flit badLanes corrected => ⟨_, execFlitReceive_only half flit badLanes corrected s⟩
  | .laneCeInterval half lane => ⟨_, execLaneCeInterval_only half lane s⟩
  | .linkRetrainDone half => ⟨_, execLinkRetrainDone_only half s⟩
  | .nakReceive half ack => ⟨_, execNakReceive_only half ack s⟩
  | .linkLost half accepted => ⟨_, execLinkLost_only half accepted s⟩
  | .syncTimer member results => ⟨_, execSyncTimer_only member results s⟩
  | .syncMessage half t1 t4 => ⟨_, execSyncMessage_only half t1 t4 s⟩
  | .slewTick => ⟨_, execSlewTick_only s⟩
  | .groupCommit => ⟨_, execGroupCommit_only s⟩
  | .requestReport member slot key ctx => ⟨_, execRequestReport_only member slot key ctx s⟩
  | .launchMessage keys gen tl => ⟨_, execLaunchMessage_only keys gen tl s⟩
  | .groupLaunchAtTide launch => ⟨_, execGroupLaunchAtTide_only launch s⟩
  | .barrierDeadline launch => ⟨_, execBarrierDeadline_only launch s⟩
  | .reportTimeout key => ⟨_, execReportTimeout_only key s⟩
  | .abortMessage keys => ⟨_, execAbortMessage_only keys s⟩
  | .mcastGrant slot group member h => ⟨_, execMcastGrant_only slot group member h s⟩
  | .mcastPush half lace entry => ⟨_, execMcastPush_only half lace entry s⟩
  | .mcastCredit slot group member handle => ⟨_, execMcastCredit_only slot group member handle s⟩
  | .shedStallTimeout slot group member => ⟨_, execShedStallTimeout_only slot group member s⟩
  | .coreWatchdogExpiry core why => ⟨_, execCoreWatchdogExpiry_only core why s⟩
  | .hostAccessError a e detail => ⟨_, execHostAccessError_only a e detail s⟩
  | .pcieLinkUp port speed width flit => ⟨_, execPcieLinkUp_only port speed width flit s⟩
  | .suspendTakesEffect bank => ⟨_, execSuspendTakesEffect_only bank s⟩

/-- Whatever the command, a next state has the same waiting queue and is the same part. -/
theorem exec_samePart {c : Instr} {s t : State} (h : exec c s = .next t) : SamePart s t := by
  obtain ⟨_, hP⟩ := exec_only c s
  exact (hP t h).1

/-- R2: the ordering code of a preloaded part ends in `-P`. -/
theorem suffix_orderingCode {s : State} (h : s.preloaded = true) : ([0x2D, 0x50] : Bytes) <:+ orderingCode s := by
  rw [orderingCode, h, asciiBytes, List.map_append, ← List.append_assoc]
  exact List.suffix_append ..

theorem slotOf_preload (key : PubKey) (img : ImageRec) (sl : Slot) (banks : List (Nat × Bank)) (s : State) (n : Nat) :
    slotOf (preload key img sl banks s) n =
      if n = 0 then { sl with
        keySlot := 0, state := .resident, imageHash := img.hash, gen := 1, oldGen := none, detaching := false, swap := none }
      else slotOf s n := tget_tset ..

/-- Settles O7: every command has a frame, which leaves the queue and the part as they are; a delivery with suffix -P writes
slot 0 of each table, and changes nothing beside the keys, the image, its Last and its banks. -/
theorem commandsLeaveQueueAndPart : Obligations.CommandsLeaveQueueAndPart := by
  refine ⟨fun c s t h => exec_samePart h, fun key img sl banks s => ?_⟩
  refine ⟨rfl, suffix_orderingCode rfl, ?key, ?image, fun n hn => ?others, preload_only ..⟩
  case key => exact ⟨_, tget?_tset_self .., rfl, rfl⟩
  case image => exact ⟨_, tget?_tset_self .., rfl, rfl, rfl, rfl, rfl, slotOf_preload .. ▸ if_pos rfl⟩
  case others => rw [slotOf_preload, if_neg hn]

end Sys2Proof.Laws
end

section
/-! SUPPORT. What a write of a word register does once it reaches it, and what raising an event leaves in the log. -/

namespace Sys2Proof

open Sys2Proof.Machine

/-- The registers are in two parts of the frame, INT_CAUSE and the rest. -/
theorem Only.regs_eq {P : List Part} {s t : State} (h : Only P s t) (hr : Part.regs ∉ P) (hc : Part.cause ∉ P) :
    t.regs = s.regs := by
  have hrest : { t.regs with intCause := s.regs.intCause } = s.regs := h.2 .regs hr
  have hcause : t.regs.intCause = s.regs.intCause := h.2 .cause hc
  rw [← hcause] at hrest
  exact hrest

theorem Only.setRegs (s : State) (r : Regs) (hc : r.intCause = s.regs.intCause) : Only [.regs] s { s with regs := r } := by
  refine ⟨⟨rfl, rfl, rfl, rfl⟩, fun p hp => ?_⟩
  cases p
  case regs => exact absurd (List.mem_singleton.2 rfl) hp
  case cause => exact hc
  case gov | events | monitors => exact ⟨rfl, rfl, rfl⟩
  all_goals rfl

end Sys2Proof

namespace Sys2Proof.Laws

open Sys2Proof.Machine

theorem bitAt_toNat {w : Nat} (v : BitVec w) (i : Nat) : bitAt v.toNat i = v.getLsbD i := by
  simp [bitAt, BitVec.getLsbD, Nat.testBit_eq_decide_div_mod_eq, Nat.shiftRight_eq_div_pow]

/-! ## What leaves the registers and the dictionary alone -/

@[simp] theorem sendPort_dict (p : Port) (m : OutMsg) (s : State) : (sendPort p m s).dict = s.dict := by
  unfold sendPort; split <;> rfl

@[simp] theorem raise_regs (name : EventName) (k u : Nat) (s : State) : (raise name k u s).regs = s.regs :=
  (raise_only name k u s).regs_eq (by decide) (by decide)

@[simp] theorem refreshDue_regs (n : Nat) (s : State) : (refreshDue n s).regs = s.regs :=
  (refreshDue_only n s).regs_eq (by decide) (by decide)

theorem foldl_refreshDue_regs (l : List Nat) (s : State) : (l.foldl (fun t n => refreshDue n t) s).regs = s.regs := by
  induction l generalizing s with
  | nil => rfl
  | cons n l ih => exact (ih _).trans (refreshDue_regs n s)

/-! ## The event log (R438, R439) -/

/-- R438: a logged event is the newest of 4,096, and takes a sequence number. -/
theorem logEvent_log (e : Event) (s : State) :
    (logEvent e s).dict.events = (e :: s.dict.events).take 4096 ∧ (logEvent e s).dict.nextSeq = s.dict.nextSeq + 1 := by
  unfold logEvent
  extract_lets lost counted logged faulted sent
  have hcounted : counted.dict.events = s.dict.events ∧ counted.dict.nextSeq = s.dict.nextSeq := by
    unfold counted; split <;> exact ⟨rfl, rfl⟩
  have hfaulted : faulted.dict.events = logged.dict.events ∧ faulted.dict.nextSeq = logged.dict.nextSeq := by
    unfold faulted; split <;> exact ⟨rfl, rfl⟩
  have hlogged : faulted.dict.events = (e :: s.dict.events).take 4096 ∧ faulted.dict.nextSeq = s.dict.nextSeq + 1 := by
    rw [hfaulted.1, hfaulted.2, ← hcounted.1, ← hcounted.2]; exact ⟨rfl, rfl⟩
  split
  next => split <;> simpa [sent] using hlogged
  next => exact hlogged

/-- An event that repeats one of the last millisecond has one of its triple in the log. -/
theorem repeats_mem {s : State} {e : Event} (h : repeats s e = true) :
    ∃ o ∈ s.dict.events, o.name = e.name ∧ o.unitKind = e.unitKind ∧ o.unit = e.unit := by
  unfold repeats at h
  split at h
  next o ho =>
    refine ⟨o, List.mem_of_find?_eq_some ho, ?_⟩
    simpa [and_assoc] using List.find?_some ho
  next => cases h

theorem counterOf_bump_self (o : Nat) (s : State) : counterOf (bump o s) o = counterOf s o + 1 := by
  simp [counterOf, bump, bumpBy, modDict]

/-- R439: raising an event logs it, or counts it as suppressed. -/
theorem raised_raise (name : EventName) (k u : Nat) (s : State) : Raised name k u s (raise name k u s) := by
  simp only [raise, raiseSev]
  split
  next h =>
    exact .inr ⟨bump_dict_events .., bump_dict_nextSeq .., counterOf_bump_self .., repeats_mem h⟩
  next =>
    obtain ⟨hevents, hseq⟩ := logEvent_log _ s
    exact .inl ⟨_, rfl, rfl, rfl, rfl, hevents, hseq⟩

theorem cause_getLsbD_self (s : State) {k : Nat} (h : k < 32) : (cause k s).regs.intCause.getLsbD k = true := by
  simp only [cause, BitVec.getLsbD_or, BitVec.getLsbD_ofNat, Nat.testBit_two_pow_self, h, decide_true, Bool.and_true, Bool.or_true]

/-! ## Writes that reach a word register -/

section Reach

variable {i : Initiator} {o d : Nat} {v : BitVec 32} {s : State}

/-- A register that no pair is made of takes the written word (R445, R451). -/
theorem openStore_word (h : pairWritable o = false) : openStore i o v s = wordStore i o v s := by
  simp [openStore, h]

theorem regStore_core (hg : regGate s i o = .reach domCore) (hhi : pairWritable (o - 4) = false) (hlo : pairWritable o = false) :
    regStore i o v s = wordStore i o v s := by
  simp [regStore, hg, hhi, openStore_word hlo]

/-- R458: a write into another domain goes on crossing after it in POSTED mode. -/
theorem regStore_outer (hg : regGate s i o = .reach d) (hd : d ≠ domCore) (hhi : pairWritable (o - 4) = false)
    (hlo : pairWritable o = false) (hbusy : s.regs.xdomBusy = false) :
    regStore i o v s =
      let t := wordStore i o v s
      { t with regs := { t.regs with xdomBusy := s.regs.sysCtrl.getLsbD 0 || t.regs.xdomBusy } } := by
  rw [← bitAt_toNat]
  cases hposted : bitAt s.regs.sysCtrl.toNat 0 <;>
    simp [regStore, hg, hhi, hd, crossing, hbusy, openStore_word hlo, hposted]

theorem kindWrite_open {ok : Nat → Bool} {o : BitVec 24} (hup : barUp s = true) (hseen : barSeen s i = true)
    (hok : ok o.toNat = true) : kindWrite ok i o v s = .next (regStore i o.toNat v s) := by
  simp [kindWrite, hup, hseen, hok]

end Reach

/-! ## Staged fields (R452) -/

theorem getLsbD_fieldMask {lo n i : Nat} (hi : i < 32) :
    (BitVec.ofNat 32 ((2 ^ n - 1) * 2 ^ lo)).getLsbD i = decide (lo ≤ i ∧ i < lo + n) := by
  rw [BitVec.getLsbD_ofNat, Nat.testBit_mul_two_pow, Nat.testBit_two_pow_sub_one, ← Bool.decide_and, ← Bool.decide_and]
  exact decide_eq_decide.2 (by omega)

theorem getLsbD_stageField {lo n i : Nat} (ok : Bool) (old v : BitVec 32) (hi : i < 32) :
    (stageField ok lo n old v).getLsbD i = if ok = true ∧ lo ≤ i ∧ i < lo + n then v.getLsbD i else old.getLsbD i := by
  cases ok
  case false => rfl
  case true =>
    by_cases h : lo ≤ i ∧ i < lo + n <;>
      simp only [stageField, if_true, BitVec.getLsbD_or, BitVec.getLsbD_and, BitVec.getLsbD_not, getLsbD_fieldMask hi, h, hi] <;>
      simp

/-- The high bits of one word over the low `k` bits of another, bit by bit. -/
theorem getLsbD_splice {i : Nat} (k : Nat) (old v : BitVec 32) (hi : i < 32) :
    (BitVec.ofNat 32 (v.toNat / 2 ^ k * 2 ^ k + old.toNat % 2 ^ k)).getLsbD i =
      if i < k then old.getLsbD i else v.getLsbD i := by
  rw [BitVec.getLsbD_ofNat, Nat.mul_comm, Nat.testBit_two_pow_mul_add _ (Nat.mod_lt _ (Nat.two_pow_pos k))]
  split
  next h => simp [hi, h, BitVec.getLsbD]
  next h => simp [hi, BitVec.getLsbD, Nat.testBit_div_two_pow, Nat.sub_add_cancel (Nat.le_of_not_lt h)]

/-- A checked field of the low `k` bits under reserved bits: a value in range is taken whole, one out of range leaves the
field and writes the reserved bits. -/
theorem stageField_reserved {k n : Nat} (hkn : k + n = 32) (ok : Bool) (old v : BitVec 32) :
    stageField true k n (stageField ok 0 k old v) v =
      if ok then v else BitVec.ofNat 32 (v.toNat / 2 ^ k * 2 ^ k + old.toNat % 2 ^ k) := by
  apply BitVec.eq_of_getLsbD_eq
  intro i hi
  rw [getLsbD_stageField _ _ _ hi, getLsbD_stageField _ _ _ hi]
  by_cases h : i < k
  · have : ¬ k ≤ i := by omega
    cases ok <;> simp [h, this, getLsbD_splice k old v hi]
  · have : k ≤ i ∧ i < k + n := by omega
    cases ok <;> simp [h, this, getLsbD_splice k old v hi]

/-- A refused field sets RANGE_DROP, and an accepted one leaves it. -/
theorem rangeDrop_unless (ok : Bool) (s : State) :
    (if ok = true then s else rangeDrop s) = { s with regs := { s.regs with rangeDrop := s.regs.rangeDrop || !ok } } := by
  cases ok <;> simp [rangeDrop]

theorem capWrite_eq (v : BitVec 32) (s : State) : capWrite v s = { s with regs := { s.regs with
    capPending := if capOk s (v.toNat % 1024) then v
      else BitVec.ofNat 32 (v.toNat / 1024 * 1024 + s.regs.capPending.toNat % 1024)
    rangeDrop := s.regs.rangeDrop || !capOk s (v.toNat % 1024) } } := by
  simp [capWrite, rangeDrop_unless, stageField_reserved (k := 10) (n := 22) rfl]

theorem splitWrite_eq (v : BitVec 32) (s : State) : splitWrite v s = { s with regs := { s.regs with
    splitPending := if bwSplitOk (bitsAt v.toNat 7 0) (bitsAt v.toNat 15 8) (bitsAt v.toNat 23 16) then v
      else BitVec.ofNat 32 (v.toNat / 2 ^ 24 * 2 ^ 24 + s.regs.splitPending.toNat % 2 ^ 24)
    rangeDrop := s.regs.rangeDrop || !bwSplitOk (bitsAt v.toNat 7 0) (bitsAt v.toNat 15 8) (bitsAt v.toNat 23 16) } } := by
  simp only [splitWrite, rangeDrop_unless, stageField_reserved (k := 24) (n := 8) rfl, -Nat.reducePow]

/-! ## The rows of the staged configuration (R452 to R456) -/

section Writes

variable {i : Initiator} {v : BitVec 32} {s : State} (hup : barUp s = true) (hseen : barSeen s i = true)
include hup hseen

theorem exec_cap_write (hg : regGate s i 0x10000 = .reach domAlways) (hbusy : s.regs.xdomBusy = false) :
    exec (.configRegWrite i 0x10000 v) s = .next { s with regs := { s.regs with
      capPending := if 400 ≤ v.toNat % 1024 ∧ v.toNat % 1024 ≤ (if s.liquid then 750 else 500) then v
        else BitVec.ofNat 32 (v.toNat / 1024 * 1024 + s.regs.capPending.toNat % 1024)
      rangeDrop := s.regs.rangeDrop ||
        !(decide (400 ≤ v.toNat % 1024) && decide (v.toNat % 1024 ≤ (if s.liquid then 750 else 500)))
      passDirty := true, xdomBusy := s.regs.sysCtrl.getLsbD 0 } } := by
  have hstore : wordStore i 0x10000 v s = dirtyPass (capWrite v s) := rfl
  refine (kindWrite_open hup hseen (by decide)).trans (congrArg _ ?_)
  refine (regStore_outer hg (by decide) (by decide) (by decide) hbusy).trans ?_
  rw [hstore, capWrite_eq]
  simp only [dirtyPass, capOk, Bool.and_eq_true, decide_eq_true_eq, hbusy, Bool.or_false]

theorem exec_mode_write (hg : regGate s i 0x24 = .reach domCore) :
    exec (.configRegWrite i 0x24 v) s = .next { s with regs := { s.regs with modePending := v, passDirty := true } } :=
  (kindWrite_open hup hseen (by decide)).trans (congrArg _ (regStore_core hg (by decide) (by decide)))

theorem exec_split_write (hg : regGate s i 0x200040 = .reach domCore) :
    exec (.configRegWrite i 0x200040 v) s = .next { s with regs := { s.regs with
      splitPending := if bwSplitOk (bitsAt v.toNat 7 0) (bitsAt v.toNat 15 8) (bitsAt v.toNat 23 16) then v
        else BitVec.ofNat 32 (v.toNat / 2 ^ 24 * 2 ^ 24 + s.regs.splitPending.toNat % 2 ^ 24)
      rangeDrop := s.regs.rangeDrop || !bwSplitOk (bitsAt v.toNat 7 0) (bitsAt v.toNat 15 8) (bitsAt v.toNat 23 16)
      passDirty := true } } := by
  have hstore : wordStore i 0x200040 v s = dirtyPass (splitWrite v s) := rfl
  refine (kindWrite_open hup hseen (by decide)).trans (congrArg _ ?_)
  refine (regStore_core hg (by decide) (by decide)).trans ?_
  rw [hstore, splitWrite_eq, dirtyPass]

theorem exec_crcRef_write (hg : regGate s i 0x14 = .reach domCore) :
    exec (.cfgCrcRefWrite i v) s = .next { s with regs := { s.regs with cfgCrcRef := v, passDirty := true } } :=
  (kindWrite_open (ok := fun _ => true) (o := 0x14) hup hseen rfl).trans (congrArg _ (regStore_core hg (by decide) (by decide)))

end Writes

/-- What a complete pass stores: the CRC of the pending values, and whether it is the reference (R454). -/
def passDone (s : State) : State :=
  { s with regs := { s.regs with cfgCrc := passCrc s, cfgMatch := decide (passCrc s = s.regs.cfgCrcRef) } }

/-- R454, R455: a mismatch is told unless HOLD is 1. -/
theorem execCheckPassEnd_complete {s : State} (hon : domIsOn s domCore = true) (hclean : s.regs.passDirty = false) :
    execCheckPassEnd s = .next (if (passDone s).regs.cfgMatch = false ∧ cfgHeld s = false
      then cause 2 (raise .cfgMismatch 0 0 (passDone s)) else passDone s) := by
  have hend : execCheckPassEnd s = if (decide (passCrc s = s.regs.cfgCrcRef) || cfgHeld s) = true then .next (passDone s)
      else .next (cause 2 (raise .cfgMismatch 0 0 (passDone s))) := by
    unfold execCheckPassEnd
    rw [if_neg (by simp [hon]), if_neg (by simp [hclean])]
    rfl
  have hguard : (decide (passCrc s = s.regs.cfgCrcRef) || cfgHeld s) = true ↔
      ¬((passDone s).regs.cfgMatch = false ∧ cfgHeld s = false) := by
    simp [passDone, or_iff_not_imp_left]
  rw [hend]
  by_cases h : (passDone s).regs.cfgMatch = false ∧ cfgHeld s = false
  · rw [if_neg (mt hguard.1 (not_not.2 h)), if_pos h]
  · rw [if_pos (hguard.2 h), if_neg h]

theorem activateNow_regs (s : State) : (activateNow s).regs = { s.regs with
    modeActive := s.regs.modePending, capActive := s.regs.capPending, splitActive := s.regs.splitPending } := by
  simp only [activateNow]
  split
  · rfl
  · exact foldl_refreshDue_regs _ _

/-- Settles O37: each write reaches `wordStore`, whose staged fields are read bit by bit; a pass and an activation are one case
split on their guards, and raising the event and refreshing the banks leave the registers. -/
theorem stagedConfiguration : Obligations.StagedConfiguration := by
  refine ⟨fun i v s hup hseen hg hbusy => exec_cap_write hup hseen hg hbusy,
    fun i v s hup hseen => ⟨exec_mode_write hup hseen, exec_split_write hup hseen, exec_crcRef_write hup hseen⟩,
    fun s hon hdirty => ?discarded, fun s hon hclean => ?complete, fun s => ?activate⟩
  case discarded => simp [exec, execCheckPassEnd, hon, hdirty]
  case complete =>
    have hexec := execCheckPassEnd_complete hon hclean
    refine ⟨_, hexec, ?_⟩
    have honly := execCheckPassEnd_only s _ hexec
    by_cases h : (passDone s).regs.cfgMatch = false ∧ cfgHeld s = false
    · rw [if_pos h] at honly ⊢
      simp only [cause_regs_cfgCrc, cause_regs_cfgMatch, raise_regs, if_pos h]
      exact ⟨rfl, rfl, raised_raise .cfgMismatch 0 0 (passDone s), cause_getLsbD_self _ (by decide), honly⟩
    · rw [if_neg h]
      simp only [if_neg h]
      exact ⟨rfl, rfl, Only.setRegs s _ rfl⟩
  case activate =>
    have hguard : (cfgHeld s || !s.regs.cfgMatch) = true ↔ cfgHeld s = true ∨ s.regs.cfgMatch = false := by simp
    split
    case isTrue h => exact if_pos (hguard.2 h)
    case isFalse h =>
      have hexec : execConfigActivate s = .next (activateNow s) := if_neg (mt hguard.1 h)
      exact ⟨_, hexec, activateNow_regs s, execConfigActivate_only s _ hexec⟩

end Sys2Proof.Laws
end

section
/-! SUPPORT. What a frame says of single units and counters, and which counters an event changes. -/

namespace Sys2Proof

open Sys2Proof.Machine

section Frames

variable {P : List Part} {s t : State}

theorem Only.islandOf_eq (h : Only P s t) (hp : Part.islands ∉ P) (i : Nat) : islandOf t i = islandOf s i :=
  congrArg (fun l => tget l i ({} : Island)) (h.2 .islands hp)

theorem Only.clusterOf_eq (h : Only P s t) (hp : Part.clusters ∉ P) (c : Nat) : clusterOf t c = clusterOf s c :=
  congrArg (fun l => tget l c ({} : Cluster)) (h.2 .clusters hp)

theorem Only.bankOf_eq (h : Only P s t) (hp : Part.banks ∉ P) (b : Nat) : bankOf t b = bankOf s b :=
  congrArg (fun l => tget l b ({} : Bank)) (h.2 .banks hp)

theorem Only.counterOf_eq (h : Only P s t) (hp : Part.counters ∉ P) (o : Nat) : counterOf t o = counterOf s o :=
  congrArg (tget · o 0) (h.2 .counters hp)

theorem Only.tideOf_eq (h : Only P s t) (ht : Part.time ∉ P) (hr : Part.regs ∉ P) (hc : Part.cause ∉ P) : tideOf t = tideOf s := by
  rw [tideOf, h.regs_eq hr hc, show t.time = s.time from h.2 .time ht, tideOf]

/-- Every part of the queues but the messages held for a port. -/
theorem Only.reqs_eq (h : Only P s t) (hq : Part.que ∉ P) : t.que.reqs = s.que.reqs := by
  have hrest : { t.que with held := s.que.held } = s.que := h.2 .que hq
  exact (congrArg Que.reqs hrest :)

theorem Only.raised {name : EventName} {k u : Nat} {v : State} (h : Only P s t) (he : Part.events ∉ P) (hc : Part.counters ∉ P)
    (hr : Raised name k u t v) : Raised name k u s v := by
  obtain ⟨hevents, hseq, -⟩ := h.2 .events he
  rwa [Raised, h.counterOf_eq hc, hevents, hseq] at hr

theorem Only.raised_after {name : EventName} {k u : Nat} {v : State} (h : Only P t v) (he : Part.events ∉ P)
    (hc : Part.counters ∉ P) (hr : Raised name k u s t) : Raised name k u s v := by
  obtain ⟨hevents, hseq, -⟩ := h.2 .events he
  rwa [Raised, h.counterOf_eq hc, hevents, hseq]

end Frames

end Sys2Proof

namespace Sys2Proof.Laws

open Sys2Proof.Machine

theorem counterOf_bump_ne {o c : Nat} (h : c ≠ o) (s : State) : counterOf (bump o s) c = counterOf s c := by
  simp [counterOf, bump, bumpBy, modDict, tget_tmod_ne _ _ _ h]

/-- R438, R440: logging an event counts only a record that is overwritten unread. -/
theorem counterOf_logEvent {c : Nat} (h : c ≠ ob 0x9043 1) (e : Event) (s : State) :
    counterOf (logEvent e s) c = counterOf s c := by
  unfold logEvent
  extract_lets lost counted logged faulted sent
  have hcounted : counterOf counted c = counterOf s c := by
    unfold counted; split
    · exact counterOf_bump_ne h s
    · rfl
  have hfaulted : counterOf faulted c = counterOf counted c := by
    unfold faulted; split <;> rfl
  have hsent : counterOf sent c = counterOf faulted c := by
    simp [counterOf, sent]
  rw [← hcounted, ← hfaulted]
  split
  · split
    · exact hsent
    · exact hsent
  · rfl

/-- R438 to R440: an event counts only a repeat and a record that is overwritten unread. -/
theorem counterOf_raise {c : Nat} (hlost : c ≠ ob 0x9043 1) (hrepeat : c ≠ ob 0x9041 4) (name : EventName) (k u : Nat) (s : State) :
    counterOf (raise name k u s) c = counterOf s c := by
  simp only [raise, raiseSev]
  split
  · exact counterOf_bump_ne hrepeat s
  · exact counterOf_logEvent hlost _ s

theorem raised_bump {name : EventName} {k u o : Nat} {s t : State} (ho : ob 0x9041 4 ≠ o) (h : Raised name k u s t) :
    Raised name k u s (bump o t) := by
  rwa [Raised, counterOf_bump_ne ho]

/-- A counter other than the one of repeats may count before the event is raised. -/
theorem raised_raise_bump {o : Nat} (h : ob 0x9041 4 ≠ o) (name : EventName) (k u : Nat) (s : State) :
    Raised name k u s (raise name k u (bump o s)) := by
  have hraised := raised_raise name k u (bump o s)
  rwa [Raised, counterOf_bump_ne h] at hraised

end Sys2Proof.Laws
end

section
/-! SUPPORT. What the small updates of an island leave: its joins, its pulse cycles and its threads' works. -/

namespace Sys2Proof.Laws

open Sys2Proof.Machine

theorem homeJoins_island {i : Nat} (hi : i < 2048) (s : State) : homeJoins s i = (islandOf s i).joins := if_pos hi

theorem island_lt_2048 {i : Nat} {s : State} (hi : i < nIslands s) : i < 2048 := by
  unfold nIslands at hi; split at hi <;> omega

/-! ## modJoin -/

theorem modJoin_of_some {i id : Nat} {j : Join} {s : State} (f : Join → Join) (hi : i < 2048)
    (hj : tget? (islandOf s i).joins id = some j) :
    modJoin i id f s = modIsland i (fun y => { y with joins := tset (islandOf s i).joins id (f j) }) s := by
  simp [modJoin, setHomeJoins, homeJoins_island hi, hj, hi]

theorem modJoin_of_none {i id : Nat} {s : State} (f : Join → Join) (hi : i < 2048) (hj : tget? (islandOf s i).joins id = none) :
    modJoin i id f s = s := by
  simp [modJoin, homeJoins_island hi, hj]

theorem modJoin_only_islands {i id : Nat} (f : Join → Join) (s : State) (hi : i < 2048) : Only [.islands] s (modJoin i id f s) := by
  cases hj : tget? (islandOf s i).joins id with
  | some j => rw [modJoin_of_some f hi hj]; exact modIsland_only ..
  | none => rw [modJoin_of_none f hi hj]; exact Only.refl ..

theorem tget?_modJoin {i id : Nat} (f : Join → Join) (s : State) (hi : i < 2048) (k : Nat) :
    tget? (islandOf (modJoin i id f s) i).joins k =
      if k = id then (tget? (islandOf s i).joins id).map f else tget? (islandOf s i).joins k := by
  cases hj : tget? (islandOf s i).joins id with
  | some j => simp [modJoin_of_some f hi hj, tget?_tset]
  | none =>
    rw [modJoin_of_none f hi hj]
    split
    next hk => rw [hk, hj]; rfl
    next => rfl

/-- Reading the limbs of a join without changing it leaves every join. -/
theorem tget?_modJoin_id {i id : Nat} (s : State) (hi : i < 2048) (k : Nat) :
    tget? (islandOf (modJoin i id (fun j => j) s) i).joins k = tget? (islandOf s i).joins k := by
  rw [tget?_modJoin _ s hi]
  split
  next hk => rw [hk, Option.map_id']
  next => rfl

@[simp] theorem modJoin_pulses (home id : Nat) (f : Join → Join) (s : State) (i : Nat) :
    (islandOf (modJoin home id f s) i).pulses = (islandOf s i).pulses := by
  unfold modJoin setHomeJoins
  split
  · split
    · rw [islandOf_modIsland]; split
      next hi => rw [hi]
      next => rfl
    · rfl
  · rfl

@[simp] theorem modJoin_threads (home id : Nat) (f : Join → Join) (s : State) (i : Nat) :
    (islandOf (modJoin home id f s) i).threads = (islandOf s i).threads := by
  unfold modJoin setHomeJoins
  split
  · split
    · rw [islandOf_modIsland]; split
      next hi => rw [hi]
      next => rfl
    · rfl
  · rfl

/-! ## setWork and dropPulse -/

/-- A thread's works with the one of its slice replaced. -/
def withWork (th : Thread) (w : SliceWork) : Thread := { th with works := th.works.map fun k => if k.slice = w.slice then w else k }

theorem islandOf_setWork_self {i t : Nat} {th : Thread} {s : State} (w : SliceWork) (ht : tget? (islandOf s i).threads t = some th) :
    islandOf (setWork i t w s) i = { islandOf s i with threads := tset (islandOf s i).threads t (withWork th w) } := by
  simp [setWork, ht, withWork]

theorem islandOf_setWork_ne {i k : Nat} (t : Nat) (w : SliceWork) (s : State) (hk : k ≠ i) :
    islandOf (setWork i t w s) k = islandOf s k := islandOf_modIsland_ne _ _ hk

@[simp] theorem setWork_pulses (i t : Nat) (w : SliceWork) (s : State) (k : Nat) :
    (islandOf (setWork i t w s) k).pulses = (islandOf s k).pulses := by
  unfold setWork
  rw [islandOf_modIsland]
  split
  next hk => rw [hk]; split <;> rfl
  next => rfl

@[simp] theorem setWork_joins (i t : Nat) (w : SliceWork) (s : State) (k : Nat) :
    (islandOf (setWork i t w s) k).joins = (islandOf s k).joins := by
  unfold setWork
  rw [islandOf_modIsland]
  split
  next hk => rw [hk]; split <;> rfl
  next => rfl

@[simp] theorem islandOf_dropPulse_self (i a : Nat) (s : State) :
    islandOf (dropPulse i a s) i = { islandOf s i with pulses := tdel (islandOf s i).pulses a } := islandOf_modIsland_self ..

theorem touchLanes_clean {home id : Nat} {j : Join} {s : State} (hj : tget? (homeJoins s home) id = some j) (hd : j.dev = [])
    (touched : Nat → Bool) : touchLanes home id touched s = s := by
  simp [touchLanes, hj, hd]

end Sys2Proof.Laws
end

section
/-! SUPPORT. Row groups and pulse cycles (R23, R44, R46, R49, R51). -/

namespace Sys2Proof.Laws

open Sys2Proof.Machine

/-! ## ROW_GROUP_START (R23, R46, R48) -/

/-- R305: where no top-up run is at work, compute only closes the bank's window. -/
theorem preemptRun_idle {n : Nat} {s : State} (h : (schedOf s n).run = none) :
    preemptRun n s = modSched n (fun d => { d with window := false }) s := by
  simp [preemptRun, h]

/-- R46: the pulse cycle that a thread's row group begins. -/
def startedPulse (t : Nat) (th : Thread) (w : SliceWork) (g : Group) : Pulse :=
  { thread := Fin.ofNat 16 t, launch := th.launch, slice := w.slice, bank := w.bank, group := g, ended := false }

/-- R23, R46, R48: the array computes on the work's bank, with the group taken from the thread. -/
def groupStarted (i : Nat) (a : Fin 256) (t : Nat) (th : Thread) (w : SliceWork) (g : Group) (rest : List Group) (s : State) : State :=
  modIsland i (fun y => { y with pulses := tset y.pulses a (startedPulse t th w g), computing := tset y.computing a (w.bank % 2) })
    (setWork i t { w with groups := rest } (modSched w.bank (fun d => { d with window := false }) s))

theorem execRowGroupStart_starts {i : Nat} {a : Fin 256} {t : Nat} {th : Thread} {w : SliceWork} {g : Group} {rest : List Group}
    {s : State} (hi : i < nIslands s)
    (hfirst : firstThread ((islandOf s i).threads.filter fun t => threadBegun s t.2 && (readyWork (i * 256 + a) t.2).isSome) = some (t, th))
    (hwork : readyWork (i * 256 + a) th = some w) (hgroups : w.groups = g :: rest) (hidle : tget? (islandOf s i).pulses a = none)
    (hdip : dipHolds s = false) (hon : domIsOn s i = true) (hbusy : bankBusy s w.bank = false) (hrun : (schedOf s w.bank).run = none) :
    execRowGroupStart i a s = .next (groupStarted i a t th w g rest s) := by
  have hdip' : dipHolds (modSched w.bank (fun d => { d with window := false }) s) = false := hdip
  have hon' : domIsOn (modSched w.bank (fun d => { d with window := false }) s) i = true := hon
  have hbusy' : bankBusy (modSched w.bank (fun d => { d with window := false }) s) w.bank = false := hbusy
  simp only [execRowGroupStart, hi, hfirst, hwork, preemptRun_idle hrun, hidle, hdip', hon', hbusy', hgroups]
  rfl

theorem groupStarted_only (i : Nat) (a : Fin 256) (t : Nat) (th : Thread) (w : SliceWork) (g : Group) (rest : List Group) (s : State) :
    Only [.islands, .scheds] s (groupStarted i a t th w g rest s) :=
  Only.step (modIsland_only ..) rfl (Only.step (setWork_only ..) rfl ((modSched_only ..).mono rfl))

/-- R23, R46, R48: the clause on what a row group that starts leaves. -/
theorem groupStarted_spec {i : Nat} (a : Fin 256) {t : Nat} {th : Thread} (w : SliceWork) (g : Group) (rest : List Group) {s : State}
    (hth : tget? (islandOf s i).threads t = some th) (ht : t < 16) :
    tget? (islandOf (groupStarted i a t th w g rest s) i).computing a = some (w.bank % 2) ∧
    (∃ p, tget? (islandOf (groupStarted i a t th w g rest s) i).pulses a = some p ∧ p.thread.val = t ∧ p.slice = w.slice ∧
      p.bank = w.bank ∧ p.group = g ∧ p.ended = false) ∧
    tget? (islandOf (groupStarted i a t th w g rest s) i).threads t = some (withWork th { w with groups := rest }) ∧
    (∀ k, k ≠ i → islandOf (groupStarted i a t th w g rest s) k = islandOf s k) ∧
    Only [.islands, .scheds] s (groupStarted i a t th w g rest s) := by
  refine ⟨?computing, ⟨startedPulse t th w g, ?pulse, Nat.mod_eq_of_lt ht, rfl, rfl, rfl, rfl⟩, ?thread, fun k hk => ?others,
    groupStarted_only ..⟩
  all_goals unfold groupStarted
  case others =>
    rw [islandOf_modIsland_ne _ _ hk, islandOf_setWork_ne _ _ _ hk]
    rfl
  all_goals rw [islandOf_modIsland_self]
  case computing | pulse => exact tget?_tset_self ..
  case thread =>
    have hth' : tget? (islandOf (modSched w.bank (fun d => { d with window := false }) s) i).threads t = some th := hth
    rw [islandOf_setWork_self _ hth']
    exact tget?_tset_self ..

/-- R46: without a ready thread the array stays idle. -/
theorem execRowGroupStart_noThread {i : Nat} {a : Fin 256} {s : State} (hi : i < nIslands s)
    (hnone : ∀ t ∈ (islandOf s i).threads, threadBegun s t.2 = false ∨ readyWork (i * 256 + a) t.2 = none) :
    execRowGroupStart i a s = .next s := by
  have hready : ((islandOf s i).threads.filter fun t => threadBegun s t.2 && (readyWork (i * 256 + a) t.2).isSome) = [] := by
    refine List.filter_eq_nil_iff.2 fun t ht => ?_
    obtain h | h := hnone t ht <;> simp [h]
  simp [execRowGroupStart, hi, hready, firstThread]

/-! ## PULSE_CYCLE_END (R44, R46, R49, R51) -/

theorem exec_pulseCycleEnd (i : Nat) (a : Fin 256) (d : Disturb) (s : State) :
    exec (.pulseCycleEnd i a d) s = execPulseCycleEnd i a d s := rfl

/-- R44: how many of the rows hold logical 1 in a logical column. -/
def onesIn (b : Bank) (rows : List Nat) (c : Nat) : Nat := (rows.filter fun r => bitAt (logicalRow b r) c).length

theorem columnCounts_eq (b : Bank) (rows : List Nat) (cols : Nat) :
    columnCounts b rows cols = (List.range cols).map (onesIn b rows) := by
  simp [columnCounts, onesIn, List.filter_map, Function.comp_def]

/-- R49: an edge on the count of at most P gives that code and no flag. -/
theorem exactCode_count {p c : Nat} (h : c ≤ p) : exactCode p ((c : Int) * 1000) = (c, false, false) := by
  have hfloor : (floorDiv ((c : Int) * 1000 + 500) 1000).toNat = c := by unfold floorDiv; omega
  rw [exactCode, if_neg (by omega), if_neg (by omega), hfloor, Nat.min_eq_right h]

/-- R49: without a displaced edge every column converts to its count. -/
theorem exactCodes_undisturbed {d : Disturb} (hd : d.edges = []) {b : Bank} {rows : List Nat} {pop : Nat} (hpop : rows.length ≤ pop)
    (cols : Nat) :
    ((List.range cols).zip (columnCounts b rows cols)).map (fun c => (c.1, exactCode pop ((c.2 : Int) * 1000 + edgeShift d c.1))) =
      (List.range cols).map fun c => (c, onesIn b rows c, false, false) := by
  have hcount : ∀ c, onesIn b rows c ≤ pop := fun c => (List.length_filter_le ..).trans hpop
  rw [columnCounts_eq, ← List.map_prod_left_eq_zip, List.map_map]
  refine List.map_congr_left fun c _ => ?_
  simp [edgeShift, hd, exactCode_count (hcount c)]

/-- R84: the rows of a group's mask. -/
def groupRows (g : Group) : List Nat := (List.range 1024).filter fun r => g.mask.getLsbD r

theorem drivenRows_undisturbed (g : Group) {d : Disturb} (hd : d.rows = []) : drivenRows g d = groupRows g := by
  simp [drivenRows, groupRows, hd]

/-- R44, R49, R51: an exact pulse cycle at t4 that nothing has disturbed. -/
def exactEnd (b : Bank) (p : Pulse) : Pulse :=
  { p with
    ended := true, codes := (List.range 1120).map (onesIn b (groupRows p.group)), unders := [], overs := []
    echoCount := (groupRows p.group).length, echoSum := BitVec.ofNat 16 (groupRows p.group).sum }

theorem execPulseCycleEnd_exact {i : Nat} {a : Fin 256} {d : Disturb} {p : Pulse} {th : Thread} {w : SliceWork} {s : State}
    (hrows : d.rows = []) (hedges : d.edges = []) (hi : i < nIslands s) (hp : tget? (islandOf s i).pulses a = some p)
    (hrun : p.ended = false) (hwork : pulseWork s i p = some (th, w)) (htol : w.tolerant = false)
    (hpop : p.group.pop = (groupRows p.group).length) :
    ∃ v, execPulseCycleEnd i a d s = .next (sample (ob 0x9011 0) i v
      (noteUse p.bank (modIsland i (fun y => { y with pulses := tset y.pulses a (exactEnd (bankOf s p.bank) p) }) s))) := by
  have hcodes := exactCodes_undisturbed hedges (b := bankOf s p.bank) hpop.ge 1120
  simp only [execPulseCycleEnd, hi, hp, hrun, hwork, htol, drivenRows_undisturbed _ hrows, Option.map_some, Option.getD_some,
    decide_true, Bool.not_true, Bool.false_eq_true, if_false, List.map_map, Function.comp_def, hcodes, List.filter_map, List.filter_false,
    List.map_nil]
  exact ⟨_, rfl⟩

end Sys2Proof.Laws
end

section
/-! SUPPORT. The Welt: results, recompute requests and long-sum packets (R90, R93, R100 to R105, R143, R146). -/

namespace Sys2Proof.Laws

open Sys2Proof.Machine

/-! ## What a recompute request leaves (R102, R143, R146) -/

theorem counterOf_wantOn {c : Nat} (h : c ≠ ob 0x2009 1) (n : Nat) (s : State) : counterOf (wantOn n s) c = counterOf s c := by
  have hmaybe : ∀ q : Bool, counterOf (if q then bump (ob 0x2009 1) s else s) c = counterOf s c := fun q => by
    cases q
    · rfl
    · exact counterOf_bump_ne h s
  unfold wantOn
  extract_lets d t
  split
  · rfl
  · split
    · rfl
    · split
      · exact hmaybe _
      · split <;> exact hmaybe _

theorem counterOf_wakeForRecomputes {c : Nat} (h : c ≠ ob 0x2009 1) (s : State) :
    counterOf (wakeForRecomputes s) c = counterOf s c := by
  unfold wakeForRecomputes
  extract_lets on
  split
  · split
    · exact counterOf_wantOn h _ s
    · rfl
  · rfl

section Recompute

variable (i : Nat) (x : Launch) (p : Pulse) (w : SliceWork) (c : Nat) (s : State)

/-- R143: the slab of the failed group is held. -/
theorem requestRecompute_holds :
    (requestRecompute i x p w c s).flow.recomputeHolds = s.flow.recomputeHolds ++ [p.group.handle] := by
  unfold requestRecompute
  extract_lets g id row replace sJoin r n sCluster sHeld sBank sSched
  rw [show (wakeForRecomputes _).flow = _ from (wakeForRecomputes_only _).2 .flow (by decide)]
  have hjoin : sJoin.flow = s.flow := (modJoin_only ..).2 .flow (by decide)
  exact congrArg (fun f => f.recomputeHolds ++ [p.group.handle]) hjoin

/-- R104: the bank is suspect. -/
theorem requestRecompute_suspect : (bankOf (requestRecompute i x p w c s) w.bank).suspect = true := by
  unfold requestRecompute
  extract_lets g id row replace sJoin r n sCluster sHeld sBank sSched
  rw [(wakeForRecomputes_only _).bankOf_eq (by decide), (bump_only ..).bankOf_eq (by decide),
    (modSched_only ..).bankOf_eq (by decide), bankOf_modBank_self]

/-- R104: one recompute is counted. -/
theorem counterOf_requestRecompute :
    counterOf (requestRecompute i x p w c s) (ob 0x3014 1) = counterOf s (ob 0x3014 1) + 1 := by
  unfold requestRecompute
  extract_lets g id row replace sJoin r n sCluster sHeld sBank sSched
  rw [counterOf_wakeForRecomputes (by decide), counterOf_bump_self,
    (modSched_only ..).counterOf_eq (by decide), (modBank_only ..).counterOf_eq (by decide)]
  change counterOf sCluster _ + 1 = _
  rw [(modCluster_only ..).counterOf_eq (by decide), (modJoin_only ..).counterOf_eq (by decide)]

/-- R143, R146: the request stands at its cluster, from this moment on. -/
theorem requestRecompute_request : ∃ n r, tget? (clusterOf (requestRecompute i x p w c s) c).recomputes n = some r ∧ r.island = i ∧
    r.join = w.joinBase + p.group.vec ∧ r.slice = w.slice ∧ r.bank = w.bank ∧ r.plane = p.group.plane ∧ r.handle = p.group.handle ∧
    r.started = false ∧ r.since = tideOf s := by
  unfold requestRecompute
  extract_lets g id row replace sJoin r n sCluster sHeld sBank sSched
  refine ⟨n, r, ?_, rfl, rfl, rfl, rfl, rfl, rfl, rfl, (modJoin_only ..).tideOf_eq (by decide) (by decide) (by decide)⟩
  rw [(wakeForRecomputes_only _).clusterOf_eq (by decide), (bump_only ..).clusterOf_eq (by decide),
    (modSched_only ..).clusterOf_eq (by decide), (modBank_only ..).clusterOf_eq (by decide)]
  change tget? (clusterOf sCluster c).recomputes n = _
  rw [clusterOf_modCluster_self]
  exact tget?_tset_self ..

end Recompute

/-! ## The cluster that recomputes (R143) -/

/-- R143: the cluster kept so far, or the next one where it has fewer recomputes outstanding. -/
def fewer (s : State) (best : Option Nat) (c : Nat) : Option Nat :=
  match best with
  | some b => if (clusterOf s c).recomputes.length < (clusterOf s b).recomputes.length then some c else best
  | none => some c

theorem recomputeCluster_eq (s : State) : recomputeCluster s = (recomputeClusters s).foldl (fewer s) none := rfl

/-- One comparison keeps one of the two, and neither has fewer recomputes than it. -/
theorem fewer_least (s : State) (best : Option Nat) (a : Nat) : ∃ d, fewer s best a = some d ∧ (best = some d ∨ d = a) ∧
    ∀ k, best = some k ∨ k = a → (clusterOf s d).recomputes.length ≤ (clusterOf s k).recomputes.length := by
  cases best with
  | none => exact ⟨a, rfl, .inr rfl, fun k hk => by rw [hk.resolve_left nofun]⟩
  | some b =>
    by_cases hlt : (clusterOf s a).recomputes.length < (clusterOf s b).recomputes.length
    · refine ⟨a, if_pos hlt, .inr rfl, fun k hk => ?_⟩
      obtain hk | rfl := hk
      · cases hk; exact hlt.le
      · exact Nat.le_refl _
    · refine ⟨b, if_neg hlt, .inl rfl, fun k hk => ?_⟩
      obtain hk | rfl := hk
      · cases hk; exact Nat.le_refl _
      · exact Nat.le_of_not_lt hlt

/-- A fold of `fewer` ends with a cluster of the list, or the one that it began with, and none of them has fewer recomputes. -/
theorem foldl_fewer {s : State} {c : Nat} (l : List Nat) {best : Option Nat} (h : l.foldl (fewer s) best = some c) :
    (best = some c ∨ c ∈ l) ∧
      ∀ k, best = some k ∨ k ∈ l → (clusterOf s c).recomputes.length ≤ (clusterOf s k).recomputes.length := by
  induction l generalizing best with
  | nil =>
    refine ⟨.inl h, fun k hk => ?_⟩
    cases h.symm.trans (hk.resolve_right List.not_mem_nil)
    exact Nat.le_refl _
  | cons a l ih =>
    obtain ⟨d, hd, hfromd, hleastd⟩ := fewer_least s best a
    obtain ⟨hfrom, hleast⟩ := ih (best := some d) (hd ▸ h)
    have hkept : (clusterOf s c).recomputes.length ≤ (clusterOf s d).recomputes.length := hleast d (.inl rfl)
    constructor
    · obtain hc | hc := hfrom
      · cases hc; exact hfromd.imp_right fun e => List.mem_cons.2 (.inl e)
      · exact .inr (List.mem_cons_of_mem a hc)
    · rintro k (hk | hk)
      · exact hkept.trans (hleastd k (.inl hk))
      · obtain rfl | hk := List.mem_cons.1 hk
        · exact hkept.trans (hleastd k (.inr rfl))
        · exact hleast k (.inr hk)

theorem recomputeClusters_congr {s t : State} (hd : t.power.doms = s.power.doms) (hc : t.clusters = s.clusters) :
    recomputeClusters t = recomputeClusters s := by
  unfold recomputeClusters domIsOn domState domOf clusterOf
  rw [hd, hc]

theorem recomputeCluster_congr {s t : State} (hd : t.power.doms = s.power.doms) (hc : t.clusters = s.clusters) :
    recomputeCluster t = recomputeCluster s := by
  have hfewer : fewer t = fewer s := by unfold fewer clusterOf; rw [hc]
  rw [recomputeCluster_eq, recomputeCluster_eq, recomputeClusters_congr hd hc, hfewer]

/-- R143, R146: the cluster is ON, in service and below 32 recomputes, and none of those has fewer. -/
theorem recomputeCluster_least {s : State} {c : Nat} (h : recomputeCluster s = some c) :
    domIsOn s (domCluster c) = true ∧ (clusterOf s c).retired = false ∧ (clusterOf s c).recomputes.length < 32 ∧
      ∀ k, k ∈ recomputeClusters s → (clusterOf s c).recomputes.length ≤ (clusterOf s k).recomputes.length := by
  obtain ⟨hfrom, hleast⟩ := foldl_fewer _ (recomputeCluster_eq s ▸ h)
  have hmem : c ∈ recomputeClusters s := hfrom.resolve_left nofun
  obtain ⟨-, hon⟩ := List.mem_filter.1 hmem
  simp only [Bool.and_eq_true, Bool.not_eq_true', decide_eq_true_eq] at hon
  exact ⟨hon.1.1, hon.1.2, hon.2, fun k hk => hleast k (.inr hk)⟩

/-! ## WELT_ACCEPT (R103 to R105) -/

theorem addCounts_congr {s t : State} (h : t.model = s.model) (x : Launch) (w : SliceWork) (g : Group) (codes : List Nat) :
    addCounts t x w g codes = addCounts s x w g codes := by
  unfold addCounts sliceScale imageRec imageOf slotOf
  rw [h]

/-- The join that a result belongs to, found before its limbs are read (R95). -/
def joinSeen (i : Nat) (p : Pulse) (w : SliceWork) (s : State) : State := modJoin i (w.joinBase + p.group.vec) (fun j => j) s

/-- The Welt has added a result that passes (R90, R93). -/
def resultAdded (i : Nat) (a : Fin 256) (p : Pulse) (w : SliceWork) (x : Launch) (s : State) : State :=
  setWork i p.thread { w with rerun := false }
    (modJoin i (w.joinBase + p.group.vec) (fun j => { j with lanes := addCounts s x w p.group p.codes j.lanes })
      (dropPulse i a (joinSeen i p w s)))

/-- A first failure goes back in front of its slice's groups (R103). -/
def rerunQueued (i : Nat) (a : Fin 256) (p : Pulse) (w : SliceWork) (s : State) : State :=
  setWork i p.thread { w with groups := p.group :: w.groups, rerun := true } (dropPulse i a (joinSeen i p w s))

/-- A second failure asks cluster `c` to recompute (R104, R143). -/
def recomputeAsked (i : Nat) (a : Fin 256) (p : Pulse) (w : SliceWork) (x : Launch) (c : Nat) (s : State) : State :=
  setWork i p.thread { w with groups := w.groups.filter fun g => g.vec ≠ p.group.vec, rerun := false }
    (requestRecompute i x p w c (dropPulse i a (joinSeen i p w s)))

section WeltAccept

variable {i : Nat} {a : Fin 256} {p : Pulse} {th : Thread} {w : SliceWork} {x : Launch} {s : State}

theorem joinSeen_only (hi : i < 2048) : Only [.islands] s (joinSeen i p w s) := modJoin_only_islands _ s hi

theorem recomputeCluster_joinSeen (hi : i < 2048) : recomputeCluster (joinSeen i p w s) = recomputeCluster s :=
  recomputeCluster_congr ((joinSeen_only hi).2 .doms (by decide)) ((joinSeen_only hi).2 .clusters (by decide))

theorem execWeltAccept_held (hi : i < nIslands s) (hp : tget? (islandOf s i).pulses a = some p)
    (htakes : weltTakes s i a p = false) (us : List (Nat × Nat × Nat)) : execWeltAccept i a us s = .next s := by
  simp [execWeltAccept, hi, hp, htakes]

variable (hi : i < nIslands s) (hp : tget? (islandOf s i).pulses a = some p) (hended : p.ended = true)
  (hwork : pulseWork s i p = some (th, w)) (hx : tget? s.model.launches th.launch = some x) (htakes : weltTakes s i a p = true)

include hi hp hended hwork hx htakes

theorem execWeltAccept_passes (hpass : pulsePasses w.tolerant p = true) {j : Join}
    (hj : tget? (islandOf s i).joins (w.joinBase + p.group.vec) = some j) (hclean : j.dev = []) :
    execWeltAccept i a [] s = .next (markFinals i p.thread (resultAdded i a p w x s)) := by
  have hlt := island_lt_2048 hi
  have hseen : tget? (homeJoins (joinSeen i p w s) i) (w.joinBase + p.group.vec) = some j := by
    rw [homeJoins_island hlt, joinSeen, tget?_modJoin_id s hlt, hj]
  have htouch : ∀ f, touchLanes i (w.joinBase + p.group.vec) f (joinSeen i p w s) = joinSeen i p w s := touchLanes_clean hseen hclean
  have hcounts : addCounts (joinSeen i p w s) = addCounts s := by
    funext x w' g codes
    exact addCounts_congr ((joinSeen_only hlt).2 .model (by decide)) x w' g codes
  unfold joinSeen at htouch hcounts
  simp only [execWeltAccept, hi, hp, hended, htakes, hwork, hx, hpass, List.foldl_nil, htouch, hcounts]
  rfl

theorem execWeltAccept_first (hpass : pulsePasses w.tolerant p = false) (hfirst : w.rerun = false)
    (hpop : p.echoCount = p.group.pop) (hsum : p.echoSum = p.group.isum) :
    execWeltAccept i a [] s = .next (countRerun w.bank (bump (ob 0x3013 1) (rerunQueued i a p w s))) := by
  simp only [execWeltAccept, hi, hp, hended, htakes, hwork, hx, hpass, hfirst, hpop, hsum, List.foldl_nil]
  simp [rerunQueued, joinSeen]

theorem execWeltAccept_noCluster (hpass : pulsePasses w.tolerant p = false) (hagain : w.rerun = true)
    (hnone : recomputeCluster s = none) : execWeltAccept i a [] s = .next (joinSeen i p w s) := by
  have hnone' := (recomputeCluster_joinSeen (p := p) (w := w) (island_lt_2048 hi)).trans hnone
  unfold joinSeen at hnone' ⊢
  simp only [execWeltAccept, hi, hp, hended, htakes, hwork, hx, hpass, hagain, hnone', List.foldl_nil]
  rfl

theorem execWeltAccept_second (hpass : pulsePasses w.tolerant p = false) (hagain : w.rerun = true) {c : Nat}
    (hc : recomputeCluster s = some c) (hpop : p.echoCount = p.group.pop) (hsum : p.echoSum = p.group.isum) :
    execWeltAccept i a [] s = .next (markFinals i p.thread (recomputeAsked i a p w x c s)) := by
  have hc' := (recomputeCluster_joinSeen (p := p) (w := w) (island_lt_2048 hi)).trans hc
  unfold joinSeen at hc'
  simp only [execWeltAccept, hi, hp, hended, htakes, hwork, hx, hpass, hagain, hc', hpop, hsum, List.foldl_nil]
  simp [recomputeAsked, joinSeen]

end WeltAccept

section Outcomes

variable {i : Nat} {a : Fin 256} {p : Pulse} {th : Thread} {w : SliceWork} {x : Launch} {c : Nat} {s : State}

theorem islandOf_dropPulse_joinSeen : islandOf (dropPulse i a (joinSeen i p w s)) i =
    { islandOf (joinSeen i p w s) i with pulses := tdel (islandOf s i).pulses a } := by
  rw [islandOf_dropPulse_self, joinSeen, modJoin_pulses]

theorem dropPulse_joinSeen_only (hi : i < 2048) : Only [.islands] s (dropPulse i a (joinSeen i p w s)) :=
  (joinSeen_only hi).trans (dropPulse_only ..)

theorem resultAdded_only (hi : i < 2048) : Only [.islands] s (resultAdded i a p w x s) :=
  (dropPulse_joinSeen_only hi).trans ((modJoin_only_islands _ _ hi).trans (setWork_only ..))

theorem rerunQueued_only (hi : i < 2048) : Only [.islands] s (rerunQueued i a p w s) :=
  (dropPulse_joinSeen_only hi).trans (setWork_only ..)

theorem resultAdded_pulses : (islandOf (resultAdded i a p w x s) i).pulses = tdel (islandOf s i).pulses a := by
  rw [resultAdded, setWork_pulses, modJoin_pulses, islandOf_dropPulse_joinSeen]

theorem resultAdded_join (hi : i < 2048) {j : Join} (hj : tget? (islandOf s i).joins (w.joinBase + p.group.vec) = some j) :
    tget? (islandOf (resultAdded i a p w x s) i).joins (w.joinBase + p.group.vec) =
      some { j with lanes := addCounts s x w p.group p.codes j.lanes } := by
  rw [resultAdded, setWork_joins, tget?_modJoin _ _ hi, if_pos rfl, islandOf_dropPulse_joinSeen]
  simp only [joinSeen, tget?_modJoin_id s hi, hj, Option.map_some]

theorem islandOf_rerunQueued (hth : tget? (islandOf s i).threads p.thread = some th) :
    islandOf (rerunQueued i a p w s) i = { islandOf (joinSeen i p w s) i with
      pulses := tdel (islandOf s i).pulses a
      threads := tset (islandOf s i).threads p.thread (withWork th { w with groups := p.group :: w.groups, rerun := true }) } := by
  have hseen : tget? (islandOf (dropPulse i a (joinSeen i p w s)) i).threads p.thread = some th := by
    rw [islandOf_dropPulse_joinSeen]; simpa [joinSeen] using hth
  rw [rerunQueued, islandOf_setWork_self _ hseen, islandOf_dropPulse_joinSeen]
  simp [joinSeen]

theorem pulseWork_thread (h : pulseWork s i p = some (th, w)) : tget? (islandOf s i).threads p.thread = some th := by
  unfold pulseWork at h
  split at h
  next => cases h
  next t ht =>
    split at h
    next => cases h
    next =>
      obtain ⟨w', -, hw⟩ := Option.map_eq_some_iff.1 h
      rw [ht, (Prod.mk.inj hw).1]

theorem counterOf_setSymptom {o : Nat} (hlost : o ≠ ob 0x9043 1) (hrepeat : o ≠ ob 0x9041 4) (n k : Nat) (was now : Bool)
    (put : Sched → Sched) (s : State) : counterOf (setSymptom n k was now put s) o = counterOf s o := by
  unfold setSymptom symptomEvent
  extract_lets t
  split
  · exact counterOf_raise hlost hrepeat ..
  · rfl

theorem counterOf_countRerun {o : Nat} (hlost : o ≠ ob 0x9043 1) (hrepeat : o ≠ ob 0x9041 4) (n : Nat) (s : State) :
    counterOf (countRerun n s) o = counterOf s o := by
  unfold countRerun refreshSymptoms
  extract_lets b d full rate mis spares sRate sMis sSpares
  rw [(modSched_only ..).counterOf_eq (by decide)]
  iterate 3 rw [counterOf_setSymptom hlost hrepeat]
  exact (modSched_only ..).counterOf_eq (by decide) o

/-- R104, R143: the request stands at its cluster, the slab is held, the bank is suspect, and one recompute is counted. -/
theorem recomputeAsked_spec (hi : i < 2048) :
    (∃ n r, tget? (clusterOf (recomputeAsked i a p w x c s) c).recomputes n = some r ∧ r.island = i ∧
      r.join = w.joinBase + p.group.vec ∧ r.slice = w.slice ∧ r.bank = w.bank ∧ r.plane = p.group.plane ∧ r.handle = p.group.handle ∧
      r.started = false ∧ r.since = tideOf s) ∧
    (recomputeAsked i a p w x c s).flow.recomputeHolds = s.flow.recomputeHolds ++ [p.group.handle] ∧
    (bankOf (recomputeAsked i a p w x c s) w.bank).suspect = true ∧
    counterOf (recomputeAsked i a p w x c s) (ob 0x3014 1) = counterOf s (ob 0x3014 1) + 1 := by
  have hdrop : Only [.islands] s (dropPulse i a (joinSeen i p w s)) := dropPulse_joinSeen_only hi
  have hset : Only [.islands] (requestRecompute i x p w c (dropPulse i a (joinSeen i p w s))) (recomputeAsked i a p w x c s) :=
    setWork_only ..
  have hflow : (recomputeAsked i a p w x c s).flow = _ := hset.2 .flow (by decide)
  have hdropFlow : (dropPulse i a (joinSeen i p w s)).flow = s.flow := hdrop.2 .flow (by decide)
  refine ⟨?_, ?_, ?_, ?_⟩
  · rw [hset.clusterOf_eq (by decide), ← hdrop.tideOf_eq (by decide) (by decide) (by decide)]
    exact requestRecompute_request ..
  · rw [hflow, requestRecompute_holds, hdropFlow]
  · rw [hset.bankOf_eq (by decide), requestRecompute_suspect]
  · rw [hset.counterOf_eq (by decide), counterOf_requestRecompute, hdrop.counterOf_eq (by decide)]

end Outcomes

/-! ## LONG_SUM_RECEIVE (R100, R101) -/

theorem packetHome_congr {s t : State} (hi : t.islands = s.islands) (hc : t.clusters = s.clusters) (i id : Nat) :
    packetHome t i id = packetHome s i id := by
  unfold packetHome islandOf
  rw [hi, hc]

/-- R101: a packet that is not taken is counted and reported. -/
def discardPacket (header : Nat) (s : State) : State := raise .packetFault 3 (bitsAt header 45 31) (bump (ob 0x3015 1) s)

/-- R19: the sender of a packet whose header can be read lets go of it. -/
def packetSeen (h : Flit) (s : State) : State := if (flitData h).2 then s else ackPacket [mkFlit (flitData h).1] s

theorem packetSeen_only (h : Flit) (s : State) : Only [.flow] s (packetSeen h s) :=
  Only.ite (fun _ => Only.refl ..) (fun _ => ackPacket_only ..)

/-- R90, R100: the lanes of a packet are added to a join's. -/
def addLanes (lanes : List (Nat × BitVec 320 × Bool)) (ls : List (BitVec 320)) : List (BitVec 320) :=
  lanes.foldl (fun ls e => ls.set e.1 (ls.getD e.1 0 + e.2.1)) ls

theorem execLongSumReceive_discards {i : Nat} {h : Flit} {body : List Flit} {s : State} (hi : i < nIslands s)
    (hnone : (flitData h).2 = true ∨ packetHome s i (bitsAt (flitData h).1.toNat 30 15) = none) :
    execLongSumReceive i (h :: body) s = .next (discardPacket (flitData h).1.toNat (packetSeen h s)) := by
  have hseen : packetHome (packetSeen h s) = packetHome s := by
    funext i id
    exact packetHome_congr ((packetSeen_only h s).2 .islands (by decide)) ((packetSeen_only h s).2 .clusters (by decide)) i id
  have hhome : (if (flitData h).2 then none else packetHome (packetSeen h s) i (bitsAt (flitData h).1.toNat 30 15)) = none := by
    rw [hseen]
    obtain hbad | hnone := hnone
    · rw [if_pos hbad]
    · rw [hnone, ite_self]
  unfold packetSeen at hhome
  simp only [execLongSumReceive, hi, List.map_cons, hhome]
  rfl

/-- R90, R96, R100: a packet's lanes are added to the join that it names, and FINAL sets the mark of its source. -/
def packetAdded (header : Nat) (lanes : List (Nat × BitVec 320 × Bool)) (bad : List Nat) (named : SourceId → Bool) (j : Join) : Join :=
  { j with
    lanes := addLanes lanes j.lanes, bad := j.bad ++ bad
    sources := if bitAt header 0 then markSource named j.sources else j.sources }

theorem execLongSumReceive_adds {i : Nat} {h : Flit} {body : List Flit} {j : Join} {s : State} (hi : i < nIslands s)
    (hread : (flitData h).2 = false) {header : Nat} (hheader : header = (flitData h).1.toNat)
    {lanes : List (Nat × BitVec 320 × Bool)} (hlanes : lanes = parseLanes (bitsAt header 14 3) (body.map flitData))
    (hj : tget? (islandOf s i).joins (bitsAt header 30 15) = some j) (hclean : j.dev = [])
    (hsource : ∃ x ∈ j.sources, packetSource (selfId s) header j.sources x.id = true ∧ x.final = false)
    (hfit : ∀ e ∈ lanes, e.1 < j.lanes.length)
    (hown : (bitAt header 0 && bitAt header 42 && decide (bitsAt header 45 43 = selfId s)) = false) :
    ∃ bad named, execLongSumReceive i (h :: body) s = .next (endLaunch j.launch (settleLaunch j.launch
      (modJoin i (bitsAt header 30 15) (packetAdded header lanes bad named) (packetSeen h s)))) := by
  have hlt := island_lt_2048 hi
  have hself : selfId (packetSeen h s) = selfId s :=
    congrArg (fun r : Regs => r.modId.toNat) ((packetSeen_only h s).regs_eq (by decide) (by decide))
  have hseenJoin : tget? (islandOf (packetSeen h s) i).joins (bitsAt header 30 15) = some j := by
    rw [(packetSeen_only h s).islandOf_eq (by decide), hj]
  have hhome : packetHome (packetSeen h s) i (bitsAt header 30 15) = some i := by simp [packetHome, hseenJoin]
  have hjoin : tget? (homeJoins (packetSeen h s) i) (bitsAt header 30 15) = some j := by rw [homeJoins_island hlt, hseenJoin]
  have hknown : (j.sources.any fun x => packetSource (selfId s) header j.sources x.id && !x.final) = true := by
    obtain ⟨x, hx, hnamed, hfinal⟩ := hsource
    exact List.any_eq_true.2 ⟨x, hx, by simp [hnamed, hfinal]⟩
  have hwide : (lanes.any fun e => decide (j.lanes.length ≤ e.1)) = false := by
    simpa [List.any_eq_false] using hfit
  have hselfAfter : ∀ f, selfId (modJoin i (bitsAt header 30 15) f (packetSeen h s)) = selfId s := fun f =>
    (congrArg (fun r : Regs => r.modId.toNat) ((modJoin_only ..).regs_eq (by decide) (by decide))).trans hself
  refine ⟨(lanes.filter fun e => ((h :: body).drop 1).any flitBroken || e.2.2).map Prod.fst,
    packetSource (selfId s) header j.sources, ?_⟩
  have hseen : packetSeen h s = ackPacket [mkFlit (flitData h).1] s := if_neg (by simp [hread])
  rw [hseen] at hself hhome hjoin hselfAfter ⊢
  simp only [execLongSumReceive, hi, List.map_cons, hread, ← hheader, hhome, hjoin, hself, hselfAfter, ← hlanes, hknown, hwide, hown,
    touchLanes_clean hjoin hclean, Bool.false_eq_true, if_false, decide_true, Bool.not_true, Bool.or_false]
  rfl

/-! ## The obligation -/

/-- Settles O51: each outcome of a row is one equation on the command's result, and what it leaves is read off the small
updates of the island; the frames of the commands give the rest. -/
theorem pulseCyclesAndWelt : Obligations.PulseCyclesAndWelt := by
  refine ⟨?starts, fun i a s => execRowGroupStart_noThread, ?cycle, ?ended,
    fun i a p th w x s hi hp hended hwork hx => ⟨?held, ?passes, ?first, ?noCluster, ?second⟩, ?discards, ?adds,
    fun s c => recomputeCluster_least⟩
  case starts =>
    intro i a t th w g rest s hi hfirst hth ht hwork hgroups hidle hdip hon hbusy hrun
    exact ⟨_, execRowGroupStart_starts hi hfirst hwork hgroups hidle hdip hon hbusy hrun, groupStarted_spec a w g rest hth ht⟩
  case cycle =>
    intro i a p th w s hi hp hrun hwork htol rows hpop
    obtain ⟨v, hexec⟩ := execPulseCycleEnd_exact (d := { rows := [], edges := [], slip := 0 }) rfl rfl hi hp hrun hwork htol hpop
    refine ⟨_, hexec, ?_, execPulseCycleEnd_only _ _ _ _ _ hexec⟩
    rw [(sample_only ..).islandOf_eq (by decide), (noteUse_only ..).islandOf_eq (by decide), islandOf_modIsland_self]
    exact tget?_tset_self ..
  case ended =>
    intro i a d p s hi hp hended
    simp [exec_pulseCycleEnd, execPulseCycleEnd, hi, hp, hended]
  case held => exact execWeltAccept_held hi hp
  case passes =>
    intro htakes hpass j hj hclean hlt
    exact ⟨_, execWeltAccept_passes hi hp hended hwork hx htakes hpass hj hclean, resultAdded_pulses, resultAdded_join hlt hj,
      resultAdded_only hlt⟩
  case first =>
    intro htakes hpass hfirst hpop hsum
    have hexec := execWeltAccept_first hi hp hended hwork hx htakes hpass hfirst hpop hsum
    have hisland := islandOf_rerunQueued (a := a) (pulseWork_thread hwork) (w := w)
    have hlt := island_lt_2048 hi
    refine ⟨_, hexec, ?pulses, fun k => ?joins, ?count, ?thread, execWeltAccept_only _ _ _ _ _ hexec⟩
    case count =>
      rw [counterOf_countRerun (by decide) (by decide), counterOf_bump_self, (rerunQueued_only hlt).counterOf_eq (by decide)]
    all_goals rw [(countRerun_only ..).islandOf_eq (by decide), (bump_only ..).islandOf_eq (by decide), hisland]
    case joins => exact tget?_modJoin_id s hlt k
    case thread => exact tget?_tset_self ..
  case noCluster =>
    intro htakes hpass hagain hnone
    have hlt := island_lt_2048 hi
    exact ⟨_, execWeltAccept_noCluster hi hp hended hwork hx htakes hpass hagain hnone, modJoin_pulses .., modJoin_threads ..,
      tget?_modJoin_id s hlt, (joinSeen_only hlt).mono rfl⟩
  case second =>
    intro c htakes hpass hagain hc hpop hsum
    exact ⟨_, execWeltAccept_second hi hp hended hwork hx htakes hpass hagain hc hpop hsum, recomputeAsked_spec (island_lt_2048 hi)⟩
  case discards =>
    intro i h body s hi hnone
    have hseen := packetSeen_only h s
    refine ⟨_, execLongSumReceive_discards hi hnone, hseen.raised (by decide) (by decide) (raised_raise_bump (by decide) ..), ?_,
      (hseen.mono rfl).trans (Only.step (raise_only ..) rfl ((bump_only ..).mono rfl))⟩
    rw [discardPacket, counterOf_raise (by decide) (by decide), counterOf_bump_self, hseen.counterOf_eq (by decide)]
  case adds =>
    intro i h body j s hi hlt hread header id lanes hj hclean hsource hfit hown
    obtain ⟨bad, named, hexec⟩ := execLongSumReceive_adds hi hread (header := header) rfl (lanes := lanes) rfl hj hclean hsource hfit hown
    refine ⟨_, hexec, ((packetSeen_only h s).mono rfl).trans ((modJoin_only_islands _ _ hlt).mono rfl), packetAdded header lanes bad named j, ?_, rfl,
      fun hfinal => ?_⟩
    · rw [tget?_modJoin _ _ hlt, if_pos rfl, (packetSeen_only h s).islandOf_eq (by decide), hj]
      rfl
    · simp [packetAdded, hfinal]

end Sys2Proof.Laws
end

section
/-! SUPPORT. Laces, handles and their slabs (R143, R164, R178, R179, R181). -/

namespace Sys2Proof.Laws

open Sys2Proof.Machine

/-! ## HANDLE_RELEASE (R179) -/

/-- An entry that is the first with a property is still so after a change that keeps the property. -/
theorem find?_tset {α : Type} {p : α → Bool} {t : Tab α} {n : Nat} {v : α} (w : α) (hfind : t.find? (fun e => p e.2) = some (n, v))
    (hget : tget? t n = some v) (hw : p w = true) : (tset t n w).find? (fun e => p e.2) = some (n, w) := by
  induction t with
  | nil => cases hget
  | cons e t ih =>
    obtain ⟨k, x⟩ := e
    have hv : p v = true := List.find?_some (p := fun e : Nat × α => p e.2) hfind
    by_cases hx : p x = true
    · obtain ⟨rfl, rfl⟩ : k = n ∧ x = v := by simpa [hx] using hfind
      simp [tset, hw]
    · have hk : k ≠ n := fun hk => by simp [tget?, hk] at hget; exact hx (hget ▸ hv)
      have hrest := ih (by simpa [hx] using hfind) (by simpa [tget?, hk] using hget)
      simp only [tset]
      split
      · simp [hw]
      · rw [if_neg (Ne.symm hk)]
        simpa [hx] using hrest

theorem tget?_modLace {n : Nat} {la : Lace} {s : State} (f : Lace → Lace) (h : tget? s.flow.laces n = some la) :
    tget? (modLace n f s).flow.laces n = some (f la) := by
  simp [modLace, h]

/-- A Lace as a consumer's release of a handle leaves it (R179). -/
def releasedBy (k : Nat) (h : BitVec 16) (la : Lace) : Lace :=
  { la with held := la.held.map fun x => if x.h = h then { x with waits := x.waits.filter fun i => i ≠ k } else x }

/-- The handle is free once the consumer was the last that had not released it. -/
theorem releasedBy_free {k : Nat} {h : BitVec 16} {la : Lace} :
    (∃ x ∈ (releasedBy k h la).held, x.h = h ∧ x.waits = []) ↔ ∃ x ∈ la.held, x.h = h ∧ ∀ i ∈ x.waits, i = k := by
  have hone : ∀ x : Held, ((if x.h = h then { x with waits := x.waits.filter fun i => i ≠ k } else x : Held).h = h ∧
      (if x.h = h then { x with waits := x.waits.filter fun i => i ≠ k } else x : Held).waits = []) ↔ x.h = h ∧ ∀ i ∈ x.waits, i = k := by
    intro x
    split
    next hx => simp [hx]
    next hx => simp [hx]
  simp only [releasedBy, List.mem_map, exists_exists_and_eq_and, hone]

theorem laceOfHandle_released {h : BitVec 16} {n k : Nat} {la : Lace} {s : State} (hl : laceOfHandle s h = some (n, la))
    (hget : tget? s.flow.laces n = some la) :
    laceOfHandle (modLace n (releasedBy k h) s) h = some (n, releasedBy k h la) := by
  have hheld : (la.held.any fun x => x.h = h) = true := List.find?_some (p := fun e : Nat × Lace => e.2.held.any fun x => x.h = h) hl
  have hkept : ((releasedBy k h la).held.any fun x => x.h = h) = true := by
    obtain ⟨x, hx, hxh⟩ := List.any_eq_true.1 hheld
    refine List.any_eq_true.2 ⟨_, List.mem_map_of_mem hx, ?_⟩
    simp only [decide_eq_true_eq] at hxh ⊢
    rw [if_pos hxh]; exact hxh
  simp only [laceOfHandle, modLace, hget] at hl ⊢
  exact find?_tset (p := fun la : Lace => la.held.any fun x => x.h = h) _ hl hget hkept

/-- R143, R164: every consumer has released the slab, no recompute holds it and no clear of it has started. -/
def Clearable (h : BitVec 16) (la : Lace) (s : State) : Prop :=
  (∃ x ∈ la.held, x.h = h ∧ x.waits = []) ∧ h ∉ s.flow.recomputeHolds ∧ ∀ x ∈ s.flow.clearing, x.1 ≠ h

theorem clearReleased_guard {h : BitVec 16} {la : Lace} {s : State} :
    ((la.held.any fun k => k.h = h && k.waits = []) && !s.flow.recomputeHolds.contains h &&
      !(s.flow.clearing.any fun c => c.1 = h)) = true ↔ Clearable h la s := by
  simp [Clearable, and_assoc]

theorem clearReleased_clears {h : BitVec 16} {n : Nat} {la : Lace} {s : State} (hl : laceOfHandle s h = some (n, la))
    (hfree : Clearable h la s) :
    (∃ p, (clearReleased h s).flow = { s.flow with clearing := s.flow.clearing ++ [(h, p)] }) ∧
      (clearReleased h s).hbr = { s.hbr with clears := s.hbr.clears ++ [(slabAddr h.toNat, 16384)] } := by
  unfold clearReleased
  simp only [hl]
  rw [if_pos (clearReleased_guard.2 hfree)]
  exact ⟨⟨_, rfl⟩, rfl⟩

theorem clearReleased_keeps {h : BitVec 16} {n : Nat} {la : Lace} {s : State} (hl : laceOfHandle s h = some (n, la))
    (hheld : ¬ Clearable h la s) : clearReleased h s = s := by
  unfold clearReleased
  simp only [hl]
  exact if_neg (mt clearReleased_guard.1 hheld)

/-- R179: the clause on a consumer that releases a handle. -/
theorem releaseHandle_spec {h : BitVec 16} {k n : Nat} {la : Lace} {s : State} (hl : laceOfHandle s h = some (n, la))
    (hget : tget? s.flow.laces n = some la) :
    tget? (releaseHandle n h k s).flow.laces n = some (releasedBy k h la) ∧
    if (∃ x ∈ la.held, x.h = h ∧ (∀ i ∈ x.waits, i = k)) ∧ h ∉ s.flow.recomputeHolds ∧ (∀ x ∈ s.flow.clearing, x.1 ≠ h) then
      (∃ p, (releaseHandle n h k s).flow.clearing = s.flow.clearing ++ [(h, p)]) ∧
      (releaseHandle n h k s).hbr = { s.hbr with clears := s.hbr.clears ++ [(slabAddr h.toNat, 16384)] }
    else (releaseHandle n h k s).flow.clearing = s.flow.clearing ∧ (releaseHandle n h k s).hbr = s.hbr := by
  have hlaces := tget?_modLace (releasedBy k h) hget
  have hfound := laceOfHandle_released (k := k) hl hget
  have hrelease : releaseHandle n h k s = clearReleased h (modLace n (releasedBy k h) s) := rfl
  have hmod : modLace n (releasedBy k h) s = { s with flow := { s.flow with laces := tset s.flow.laces n (releasedBy k h la) } } := by
    simp [modLace, hget]
  have hguard : Clearable h (releasedBy k h la) (modLace n (releasedBy k h) s) ↔
      (∃ x ∈ la.held, x.h = h ∧ (∀ i ∈ x.waits, i = k)) ∧ h ∉ s.flow.recomputeHolds ∧ (∀ x ∈ s.flow.clearing, x.1 ≠ h) := by
    rw [Clearable, releasedBy_free, hmod]
  rw [hrelease]
  split
  next hfree =>
    obtain ⟨⟨p, hflow⟩, hhbr⟩ := clearReleased_clears hfound (hguard.2 hfree)
    rw [hflow, hhbr]
    exact ⟨hlaces, ⟨p, by rw [hmod]⟩, by rw [hmod]⟩
  next hheld =>
    rw [clearReleased_keeps hfound (mt hguard.1 hheld)]
    exact ⟨hlaces, by rw [hmod], by rw [hmod]⟩

theorem execHandleRelease_cases {h : BitVec 16} {k n : Nat} {la : Lace} {c : LaceConsumer} {s : State}
    (hl : laceOfHandle s h = some (n, la)) (hc : la.consumers[k]? = some c) :
    execHandleRelease h k s =
      if entryWaits c h = true ∨ (∃ x ∈ la.held, x.h = h ∧ x.awaits = true) ∨ beingFilled s h = true ∨
        la.partialSlab.map (fun o => o.h) = some h ∨ stillReads s c.who h = true then .next s
      else .next (releaseHandle n h k s) := by
  have hguard : (entryWaits c h || (la.held.any fun k => k.h = h && k.awaits) || beingFilled s h ||
      decide ((la.partialSlab.map fun o => o.h) = some h) || stillReads s c.who h) = true ↔
      entryWaits c h = true ∨ (∃ x ∈ la.held, x.h = h ∧ x.awaits = true) ∨ beingFilled s h = true ∨
        la.partialSlab.map (fun o => o.h) = some h ∨ stillReads s c.who h = true := by
    simp only [Bool.or_eq_true, List.any_eq_true, Bool.and_eq_true, decide_eq_true_eq, or_assoc]
  unfold execHandleRelease
  simp only [hl, hc]
  split
  next hreads => rw [if_pos (hguard.1 hreads)]
  next hdone => rw [if_neg (mt hguard.2 hdone)]

/-! ## SLAB_CLEARED (R164, R179) -/

theorem cellGet_filter {p : Host.Cell → Bool} (l : List Host.Cell) {a : Nat} (h : ∀ v, p (a, v) = true) :
    cellGet (l.filter p) a = cellGet l a := by
  induction l with
  | nil => rfl
  | cons c l ih =>
    obtain ⟨b, v⟩ := c
    by_cases hb : b = a
    · subst hb; simp [cellGet, h]
    · by_cases hp : p (b, v) = true <;> simp [cellGet, hb, hp, ih]

theorem tget_filter {α : Type} {p : Nat × α → Bool} (t : Tab α) {n : Nat} (d : α) (h : ∀ v, p (n, v) = true) :
    tget (t.filter p) n d = tget t n d := by
  unfold tget
  induction t with
  | nil => rfl
  | cons e t ih =>
    obtain ⟨k, v⟩ := e
    by_cases hk : k = n
    · subst hk; simp [tget?, h]
    · by_cases hp : p (k, v) = true <;> simp [tget?, hk, hp, ih]

/-- R162: a byte of a granule whose valid bit is clear reads 0. -/
theorem byteAt_invalid {h : Harbour} {a : Nat} (hv : isValid h (a / 64) = false) : byteAt h a = 0 := by
  have hsyn : wordSyn h (a / 8) = 0 := by simp [wordSyn, Nat.div_div_eq_div_mul, hv]
  have hclean : eccDecode (wordSyn h (a / 8)) = .clean := by rw [hsyn]; rfl
  simp [byteAt, hclean, rawByte, hv]

theorem byteAt_congr {g h : Harbour} {a : Nat} (hv : isValid g (a / 64) = isValid h (a / 64))
    (hsyn : tget g.dev (a / 8) 0 = tget h.dev (a / 8) 0) (hdata : cellGet g.data a = cellGet h.data a) : byteAt g a = byteAt h a := by
  have hword : wordSyn g (a / 8) = wordSyn h (a / 8) := by
    rw [wordSyn, wordSyn, Nat.div_div_eq_div_mul, hv, hsyn]
  have hraw : rawByte g a = rawByte h a := by
    rw [rawByte, rawByte, hv, hdata]
  unfold byteAt
  rw [hword, hraw]

/-- R164: after the clear of a region of whole granules its bytes read 0, and every other byte as before. -/
theorem byteAt_hClear (h : Harbour) (g n a : Nat) :
    byteAt (hClear h (64 * g) (64 * n)) a = if 64 * g ≤ a ∧ a < 64 * g + 64 * n then 0 else byteAt h a := by
  split
  next hin =>
    refine byteAt_invalid ?_
    simp [isValid, hClear]
    omega
  next hout =>
    refine byteAt_congr ?_ (tget_filter _ _ fun v => ?_) (cellGet_filter _ fun v => ?_)
    · simp [isValid, hClear]
      omega
    · simp
      omega
    · simp
      omega

/-- R164: the clear of a slab has ended. -/
def clearEnded (h : BitVec 16) (s : State) : State :=
  let cleared := hClear s.hbr (slabAddr h.toNat) 16384
  { s with
    hbr := { cleared with clears := cleared.clears.erase (slabAddr h.toNat, 16384) }
    flow := { s.flow with clearing := s.flow.clearing.filter fun c => c.1 ≠ h } }

/-- R164, R179: the handle of a slab that no Lace holds is free once its clear has ended. -/
def slabFreed (h : BitVec 16) (pool : Nat) (s : State) : State := poolReturn pool [h] (noteCleared 16384 (clearEnded h s))

theorem execSlabCleared_free {h : BitVec 16} {pool : Nat} {s : State}
    (hclear : s.flow.clearing.find? (fun c => c.1 = h) = some (h, pool)) (hlace : laceOfHandle s h = none)
    (hidle : s.hbr.waiting = []) : execSlabCleared h s = .next (slabFreed h pool s) := by
  have hserve : serveWaiting (noteCleared 16384 (clearEnded h s)) = noteCleared 16384 (clearEnded h s) := by
    have hwaiting : (noteCleared 16384 (clearEnded h s)).hbr.waiting = [] := hidle
    simp [serveWaiting, hwaiting, serveNext]
  have hlace' : laceOfHandle (noteCleared 16384 (clearEnded h s)) h = none := hlace
  unfold clearEnded at hserve hlace'
  simp only [execSlabCleared, hclear, hserve, hlace']
  rfl

theorem poolReturn_usable {pool : Nat} {h : BitVec 16} {s : State} (hnext : (segOf s (handleSeg h)).next = none)
    (hup : domState s (domSeg (handleSeg h)) ≠ .failed) :
    poolReturn pool [h] s = { s with flow := { s.flow with pools := tmod s.flow.pools pool [] fun l => l ++ [h] } } := by
  simp [poolReturn, hnext, hup]

/-- R164, R179: the clause on a slab whose clear has ended. -/
theorem slabFreed_spec {h : BitVec 16} (pool : Nat) {s : State} (hnext : (segOf s (handleSeg h)).next = none)
    (hup : domState s (domSeg (handleSeg h)) ≠ .failed) :
    (∀ a, byteAt (slabFreed h pool s).hbr a =
      if slabAddr h.toNat ≤ a ∧ a < slabAddr h.toNat + 16384 then 0 else byteAt s.hbr a) ∧
    tget (slabFreed h pool s).flow.pools pool [] = tget s.flow.pools pool [] ++ [h] ∧
    (∀ c ∈ (slabFreed h pool s).flow.clearing, c.1 ≠ h) ∧
    (slabFreed h pool s).hbr.clears = s.hbr.clears.erase (slabAddr h.toNat, 16384) ∧
    Only [.counters, .flow, .hbr] s (slabFreed h pool s) := by
  have hreturn := poolReturn_usable (pool := pool) (s := noteCleared 16384 (clearEnded h s)) hnext hup
  refine ⟨fun a => ?bytes, ?pool, ?clearing, rfl, ?only⟩
  case bytes =>
    have hregion := byteAt_hClear s.hbr (256 * h.toNat) 256 a
    rw [show 64 * (256 * h.toNat) = slabAddr h.toNat by unfold slabAddr; omega] at hregion
    exact hregion
  case pool =>
    rw [slabFreed, hreturn]
    exact tget_tmod_self s.flow.pools pool [] fun l => l ++ [h]
  case clearing =>
    rw [slabFreed, hreturn]
    exact fun c hc => of_decide_eq_true (List.mem_filter.1 hc).2
  case only =>
    have hended : Only [.flow, .hbr] s (clearEnded h s) := by
      refine Only.upd (Only.refl _ s) fun p hp => ?_
      cases p
      case flow | hbr => exact absurd (by decide) hp
      case gov | events | monitors => exact ⟨rfl, rfl, rfl⟩
      all_goals rfl
    exact Only.step (poolReturn_only ..) rfl (Only.step (noteCleared_only ..) rfl (hended.mono rfl))

/-! ## LACE_ENTRY_RECEIVE by an output stream (R181) -/

@[simp] theorem modReq_flow (a : Nat) (f : Req → Req) (s : State) : (modReq a f s).flow = s.flow := (modReq_only a f s).2 .flow (by decide)

theorem streamOf_modStream {f k : Nat} {st : Stream} {s : State} (g : Stream → Stream) (h : streamOf s f k = some st) :
    streamOf (modStream f k g s) f k = some (g st) := by
  have hst : tget? (ferryOf s f).streams k = some st := h
  simp [streamOf, modStream, hst]

/-- R165, R322, R476: which bytes of a run are read poisoned. -/
def badBytes (s : State) (a len : Nat) : List Bool :=
  (List.range len).map fun i => domState s (domSeg (addrSeg (a + i))) == .failed || wordBad s.hbr ((a + i) / 8)

theorem fetchRuns_one (port : BitVec 12) (a len : Nat) (s : State) :
    fetchRuns port [(a, len)] s = ((harbRead s a len, badBytes s a len), touchRun port a len s) := rfl

/-- R181: an output stream with a slab's bytes behind what it holds. -/
def streamFed (s : State) (e : LaceEntry) (st : Stream) : Stream :=
  { st with
    buf := st.buf ++ harbRead s (slabAddr e.slab.toNat) e.fill.toNat
    bufBad := st.bufBad ++ badBytes s (slabAddr e.slab.toNat) e.fill.toNat
    bufSpecial := st.bufSpecial || e.special, bufSlabs := st.bufSlabs + 1 }

theorem setConsumer_eq {n : Nat} {la : Lace} {s : State} (k : Nat) (x : LaceConsumer) (hla : tget? s.flow.laces n = some la) :
    setConsumer n k x s =
      { s with flow := { s.flow with laces := tset s.flow.laces n { la with consumers := la.consumers.set k x } } } := by
  simp [setConsumer, modLace, hla]

/-- R181: an output stream takes the slab of its own request; what else changes are the reads of the slab and the request's
count of lost elements. -/
theorem receiveFerry_takes {n k f j : Nat} {la : Lace} {c : LaceConsumer} {e : LaceEntry} {st : Stream} {s : State}
    (hla : tget? s.flow.laces n = some la) (hst : streamOf s f j = some st)
    (hmine : ∃ x ∈ la.held, x.h = e.slab ∧ st.desc.request.toNat ∈ x.reqs) (hturn : firstStream s f j st = true) :
    ∃ v, v.flow = (setConsumer n k { c with waiting := c.waiting.drop 1 } s).flow ∧
      receiveFerry n k f j c e s = modStream f j (streamFed s e) v := by
  have hheld : ((tget? s.flow.laces n).map fun la => la.held.any fun k =>
      k.h = e.slab && k.reqs.contains st.desc.request.toNat).getD false = true := by
    obtain ⟨x, hx, hxh, hxr⟩ := hmine
    rw [hla]
    exact List.any_eq_true.2 ⟨x, hx, by simp [hxh, hxr]⟩
  simp only [receiveFerry, hst, hheld, hturn, Bool.not_true, Bool.false_eq_true, if_false, fetchRuns_one, setConsumer_eq _ _ hla]
  refine ⟨_, ?_, rfl⟩
  split
  · rw [modReq_flow]
    exact (touchRun_only ..).2 .flow (by decide)
  · exact (touchRun_only ..).2 .flow (by decide)

theorem execLaceEntryReceive_ferry {n : Fin 4096} {k f j : Nat} {la : Lace} {c : LaceConsumer} {e : LaceEntry} {w : List LaceEntry}
    {s : State} (hla : tget? s.flow.laces n = some la) (hc : la.consumers[k]? = some c) (hw : c.waiting = e :: w)
    (hwho : c.who = .ferry f j) (hrun : runWaits s (slabAddr e.slab.toNat) e.fill.toNat = false) :
    execLaceEntryReceive n k s = .next (receiveFerry n k f j c e s) := by
  simp [execLaceEntryReceive, hla, hc, hw, hwho, hrun]

/-- R181: the clause on an output stream that takes the oldest entry that waits for it. -/
theorem receiveFerry_spec {n k f j : Nat} {la : Lace} {c : LaceConsumer} {e : LaceEntry} {w : List LaceEntry} {st : Stream} {s : State}
    (hla : tget? s.flow.laces n = some la) (hc : la.consumers[k]? = some c) (hw : c.waiting = e :: w) (hst : streamOf s f j = some st)
    (hmine : ∃ x ∈ la.held, x.h = e.slab ∧ st.desc.request.toNat ∈ x.reqs) (hturn : firstStream s f j st = true) :
    streamOf (receiveFerry n k f j c e s) f j = some (streamFed s e st) ∧
    ∃ la', tget? (receiveFerry n k f j c e s).flow.laces n = some la' ∧ la'.consumers[k]? = some { c with waiting := w } ∧
      la'.held = la.held := by
  obtain ⟨v, hflow, htakes⟩ := receiveFerry_takes (k := k) (c := c) hla hst hmine hturn
  rw [setConsumer_eq _ _ hla] at hflow
  have hstream : streamOf v f j = some st := by rw [streamOf, ferryOf, hflow]; exact hst
  rw [htakes]
  refine ⟨streamOf_modStream _ hstream, { la with consumers := la.consumers.set k { c with waiting := c.waiting.drop 1 } }, ?lace,
    ?consumer, rfl⟩
  case lace => rw [modStream, modFerry_flow_laces, hflow, tget?_tset_self]
  case consumer =>
    obtain ⟨hk, -⟩ := List.getElem?_eq_some_iff.1 hc
    rw [List.getElem?_set_self hk, hw]
    rfl

/-- R178: where nothing waits for the consumer it takes nothing. -/
theorem execLaceEntryReceive_idle {n : Fin 4096} {k : Nat} {s : State}
    (hidle : ∀ la c, tget? s.flow.laces n = some la → la.consumers[k]? = some c → c.waiting = []) :
    execLaceEntryReceive n k s = .next s := by
  unfold execLaceEntryReceive
  extract_lets m
  split
  next => rfl
  next la hla =>
    split
    next => rfl
    next c hc => rw [hidle la c hla hc]

end Sys2Proof.Laws
end

section
/-! SUPPORT. A request whose deadline has passed (R194, R195). -/

namespace Sys2Proof.Laws

open Sys2Proof.Machine

/-- R194: the missed deadline has been counted and reported, and the request is marked. -/
def missCounted (a : Nat) (s : State) : State :=
  modReq a (fun r => { r with stopped := some (BitVec.ofNat 8 St.deadlineMissed), discarded := true })
    (bump (ob 0x4053 1) (countMiss a s))

theorem missCounted_spec {a : Nat} {r : Req} {s : State} (hr : tget? s.que.reqs a = some r) :
    Raised .deadlineMissed 9 a s (missCounted a s) ∧
    counterOf (missCounted a s) (ob 0x4050 1) = counterOf s (ob 0x4050 1) + 1 ∧
    counterOf (missCounted a s) (ob 0x4053 1) = counterOf s (ob 0x4053 1) + 1 ∧
    ∃ r', tget? (missCounted a s).que.reqs a = some r' ∧ r'.discarded = true ∧
      r'.stopped = some (BitVec.ofNat 8 St.deadlineMissed) := by
  have hmark : Only [.que] (bump (ob 0x4053 1) (countMiss a s)) (missCounted a s) := modReq_only ..
  have hmiss : (bump (ob 0x4053 1) (countMiss a s)).que.reqs = s.que.reqs :=
    (Only.step (bump_only ..) rfl (countMiss_only a s)).reqs_eq (by decide)
  refine ⟨?raised, ?missed, ?stopped, ?request⟩
  case raised =>
    exact hmark.raised_after (by decide) (by decide) (raised_bump (by decide) (raised_raise_bump (by decide) ..))
  case missed =>
    rw [hmark.counterOf_eq (by decide), counterOf_bump_ne (by decide), countMiss, counterOf_raise (by decide) (by decide),
      counterOf_bump_self]
  case stopped =>
    rw [hmark.counterOf_eq (by decide), counterOf_bump_self, countMiss, counterOf_raise (by decide) (by decide),
      counterOf_bump_ne (by decide)]
  case request =>
    rw [missCounted, modReq, hmiss, hr]
    exact ⟨_, tget?_tset_self .., rfl, rfl⟩

theorem execRequestDeadlinePass_discards {a : Fin 4096} {r : Req} {d : BitVec 64} {s : State} (hr : tget? s.que.reqs a = some r)
    (hd : r.deadline = some d) (hlive : r.stopped = none) (hpast : d.toNat < (tideOf s).toNat) (hdiscards : reqDiscards s a = true) :
    ∃ rep : Reply, execRequestDeadlinePass a s = .next (finish a rep (revertKv a (recallRequest a (missCounted a s)))) ∧
      rep.status = St.deadlineMissed := by
  have hmiss : tget? (bump (ob 0x4053 1) (countMiss a s)).que.reqs a = some r := by
    rw [(Only.step (bump_only ..) rfl (countMiss_only a s)).reqs_eq (by decide), hr]
  simp only [execRequestDeadlinePass, hr, hd, hpast, hdiscards, discardRequest, hlive, stopRequest, hmiss]
  exact ⟨_, rfl, rfl⟩

theorem execRequestDeadlinePass_keeps {a : Fin 4096} {s : State} (h : reqDiscards s a = false) :
    execRequestDeadlinePass a s = .next s := by
  unfold execRequestDeadlinePass
  split
  next => rfl
  next r hr =>
    split
    next => rfl
    next d hd => simp [h]

end Sys2Proof.Laws
end

section
/-! SUPPORT. The admission of launches (R24, R33, R180, R189, R453, R484). -/

namespace Sys2Proof.Laws

open Sys2Proof.Machine

theorem execLaunchAdmit_closed {s : State} (h : admissionClosed (askReady s) = true) : execLaunchAdmit s = .next (askReady s) :=
  if_pos h

theorem execLaunchAdmit_head {s : State} {g : GovItem} {rest : List GovItem} (hopen : admissionClosed (askReady s) = false)
    (hhead : (activateNow (askReady s)).power.waiting = g :: rest) :
    execLaunchAdmit s = .next (admitHead g rest (activateNow (askReady s))) := by
  simp [execLaunchAdmit, hopen, hhead]

/-- R453: at a launch boundary the pending configuration becomes active. -/
theorem activateNow_askReady (s : State) : (activateNow (askReady s)).regs.capActive = s.regs.capPending ∧
    (activateNow (askReady s)).regs.modeActive = s.regs.modePending ∧
    (activateNow (askReady s)).regs.splitActive = s.regs.splitPending := by
  have hregs : { (askReady s).regs with intCause := s.regs.intCause } = s.regs := (askReady_only s).2 .regs (by decide)
  rw [activateNow_regs]
  exact ⟨(congrArg Regs.capPending hregs :), (congrArg Regs.modePending hregs :), (congrArg Regs.splitPending hregs :)⟩

theorem admitHead_cluster {g : GovItem} {c : Nat} (rest : List GovItem) (u : State) (hg : g.work = .cluster c) :
    admitHead g rest u =
      if u.power.standing = some c ∨ c ∈ u.power.shankCharged then { u with power := { u.power with waiting := rest } }
      else if shankFits u then { u with power := { u.power with waiting := rest, shankCharged := u.power.shankCharged ++ [c] } }
      else u := by
  simp [admitHead, hg]

/-- The requests that the step at the head takes into its launch (R189), and the items that stay in the queue. -/
def headBatch (u : State) (slot : Nat) (gen : BitVec 16) (layer : Nat) (reqs : List (Nat × Nat)) (agreed : Option (BitVec 64))
    (rest : List GovItem) : List (Nat × Nat) × List GovItem :=
  let mb := ((planOf u slot gen).bind fun p => (layerOf p layer).map fun y => y.microBatch).getD 1
  if agreed.isSome then (reqs, rest) else mergeSteps u slot gen layer (max 1 mb) rest reqs

theorem headBatch_fst (u : State) (slot : Nat) (gen : BitVec 16) (layer : Nat) (reqs : List (Nat × Nat)) (agreed : Option (BitVec 64))
    (rest : List GovItem) : (headBatch u slot gen layer reqs agreed rest).1 =
      let mb := ((planOf u slot gen).bind fun p => (layerOf p layer).map fun y => y.microBatch).getD 1
      if agreed.isSome then reqs else (mergeSteps u slot gen layer (max 1 mb) rest reqs).1 := by
  unfold headBatch
  extract_lets mb
  split <;> rfl

theorem admitHead_step {g : GovItem} {rest : List GovItem} {u : State} {slot : Nat} {gen : BitVec 16} {layer : Nat}
    {reqs : List (Nat × Nat)} {agreed : Option (BitVec 64)} {x : LaunchSpec} (hg : g.work = .step slot gen layer reqs agreed)
    (hx : launchSpec u slot gen layer (headBatch u slot gen layer reqs agreed rest).1 agreed = some x) :
    admitHead g rest u =
      if !specReady u x then wakeFor x u
      else if (tget u.flow.pools slot []).length < depthSum x.plan layer then countWait g u
      else if !arrayFits u (3150 * (specArrays x).length) then u
      else admitLaunch x { u with power := { u.power with waiting := (headBatch u slot gen layer reqs agreed rest).2 } } := by
  unfold headBatch at hx ⊢
  simp only [admitHead, hg, hx]

theorem launchSpec_names {u : State} {slot : Nat} {gen : BitVec 16} {layer : Nat} {reqs : List (Nat × Nat)}
    {agreed : Option (BitVec 64)} {x : LaunchSpec} (h : launchSpec u slot gen layer reqs agreed = some x) :
    x.slot = slot ∧ x.layer = layer := by
  unfold launchSpec at h
  split at h
  next => cases h
  next =>
    split at h
    next => cases h
    next => cases h; exact ⟨rfl, rfl⟩

/-- The launch of number `l` stands as `k` but for its reserved handles, and `n` is the number of the next one. -/
def LaunchStands (l n : Nat) (k : Launch) (s : State) : Prop :=
  s.model.nextLaunch = n ∧ ∃ hs, tget? s.model.launches l = some { k with reserved := hs }

section Stands

variable {l n : Nat} {k : Launch} {s t : State}

theorem LaunchStands.of_only {P : List Part} (h : LaunchStands l n k s) (honly : Only P s t) (hp : Part.model ∉ P) :
    LaunchStands l n k t := by
  have hmodel : t.model = s.model := honly.2 .model hp
  rwa [LaunchStands, hmodel]

theorem LaunchStands.modLaunch {f : Launch → Launch} (h : LaunchStands l n k s)
    (hf : ∀ hs, ∃ hs', f { k with reserved := hs } = { k with reserved := hs' }) : LaunchStands l n k (modLaunch l f s) := by
  obtain ⟨hn, hs, hl⟩ := h
  obtain ⟨hs', hf⟩ := hf hs
  rw [Machine.modLaunch, hl]
  exact ⟨hn, hs', by rw [← hf]; exact tget?_tset_self ..⟩

/-- R408: the grants of multicast slabs take handles of the launch's reservation and nothing else of it. -/
theorem LaunchStands.grantMcast (x : LaunchSpec) (laces : List (LacePlan × Nat)) (h : LaunchStands l n k s) :
    LaunchStands l n k (grantMcast l x laces s) := by
  unfold Machine.grantMcast
  extract_lets self
  refine List.foldlRecOn _ _ h fun s h m _ => ?_
  split
  next => exact h
  next y hw _ =>
    split
    next => exact h
    next k' _ =>
      extract_lets hs sTaken sHeld
      have htaken : LaunchStands l n k sTaken := h.modLaunch fun _ => ⟨_, rfl⟩
      have hheld : LaunchStands l n k sHeld := htaken.of_only (modLace_only ..) (by decide)
      exact List.foldlRecOn _ _ hheld fun t ht hd _ => ht.of_only (sendCtl_only ..) (by decide)

end Stands

/-- R33, R180, R189, R484: an admitted launch stands with the values of its admission before its streams are issued. -/
theorem admitLaunch_stands (x : LaunchSpec) (s : State) :
    ∃ (v : State) (k : Launch) (ls : List (LacePlan × Nat)) (offs : List (Nat × Nat)),
      admitLaunch x s = settleLaunch s.model.nextLaunch (issueStreams x ls offs v) ∧
      LaunchStands s.model.nextLaunch (s.model.nextLaunch + 1) k v ∧ k.slot = x.slot ∧ k.layer = x.layer ∧ k.reqs = x.reqs ∧
      k.strict = strictOn s ∧ k.values = launchValues s ∧ k.charged = decide (0 < (specArrays x).length) := by
  unfold admitLaunch
  extract_lets l depth islands arrays tolerant
  split
  next reserved sPool hpool =>
    extract_lets laces threads deadline order k sReqs hbr sSplit model sLaunch power sOrder works ctxOf sJoins sThreads made flow sLaces
      sGrants shed sStrict sShed
    obtain rfl : (poolTake x.slot depth s).2 = sPool := congrArg Prod.snd hpool
    refine ⟨sShed, k, laces, k.offsets, rfl, ?_, rfl, rfl, rfl, rfl, rfl, rfl⟩
    have hlaunch : LaunchStands l (l + 1) k sOrder := ⟨rfl, reserved, tget?_tset_self ..⟩
    have hjoins : LaunchStands l (l + 1) k sJoins := hlaunch.of_only (openJoins_only ..) (by decide)
    have hthreads : LaunchStands l (l + 1) k sThreads := List.foldlRecOn _ _ hjoins fun t ht e _ => ht.of_only (modIsland_only ..) (by decide)
    have hgrants : LaunchStands l (l + 1) k sGrants := LaunchStands.grantMcast x laces (s := sLaces) hthreads
    have hcounted : ∀ (b : Bool) (o : Nat) (t : State), LaunchStands l (l + 1) k t → LaunchStands l (l + 1) k (if b then bump o t else t) := by
      intro b o t ht
      cases b
      · exact ht
      · exact ht.of_only (bump_only ..) (by decide)
    exact hcounted _ _ _ (hcounted _ _ _ hgrants)

/-! ## The obligation -/

/-- Settles O49: each row is one equation on its result under the clause's conditions; the launch admitted is followed through its
admission as it stands up to its reserved handles, and the rest is read off the small updates and the frames. -/
theorem handlesAndLaunches : Obligations.HandlesAndLaunches := by
  refine ⟨fun s => execLaunchAdmit_closed, ?launch, ?entry, fun n k s => execLaceEntryReceive_idle, ?release,
    ?cleared, ?deadline, fun a s => execRequestDeadlinePass_keeps⟩
  case launch =>
    intro g rest s hopen u hhead
    have hexec : exec .launchAdmit s = .next (admitHead g rest u) := execLaunchAdmit_head hopen hhead
    refine ⟨⟨_, hexec, execLaunchAdmit_only s _ hexec, activateNow_askReady s⟩, ?step, fun c hc => ?cluster⟩
    case cluster => exact hexec.trans (congrArg _ (admitHead_cluster rest u hc))
    case step =>
      intro slot gen layer reqs agreed x hstep hx
      replace hx : launchSpec u slot gen layer (headBatch u slot gen layer reqs agreed rest).1 agreed = some x := by
        rw [headBatch_fst]; exact hx
      obtain ⟨hslot, hlayer⟩ := launchSpec_names hx
      rw [admitHead_step hstep hx] at hexec
      refine ⟨fun hnot => ?wake, fun hready hfew => ?wait, fun hready henough => ⟨fun hover => ?budget, fun hfits => ?launched⟩⟩
      case wake => rw [hexec]; simp [hnot]
      case wait =>
        have hwait : exec .launchAdmit s = .next (countWait g u) := by rw [hexec]; simp [hready, hfew]
        have hcount := countWait_only g u
        exact ⟨_, hwait, hcount.2 .model (by decide), hcount.2 .flow (by decide), hcount.2 .islands (by decide)⟩
      case budget => rw [hexec]; simp [hready, henough.not_gt, hover]
      case launched =>
        obtain ⟨v, k, ls, offs, hadmit, ⟨hnext, hs, hlaunch⟩, hkslot, hklayer, hreqs, hstrict, hvalues, hcharged⟩ := admitLaunch_stands x
          { u with power := { u.power with waiting := (headBatch u slot gen layer reqs agreed rest).2 } }
        refine ⟨v, { k with reserved := hs }, ls, offs, ?_, hnext, hlaunch, hkslot.trans hslot, hklayer.trans hlayer, hreqs, hstrict,
          hvalues, hcharged⟩
        rw [← hadmit, hexec]
        simp [hready, henough.not_gt, hfits]
  case entry =>
    intro n k f j la c e w st s hla hc hw hwho hst hmine hturn hrun
    obtain ⟨hfed, hlace⟩ := receiveFerry_spec hla hc hw hst hmine hturn
    exact ⟨_, execLaceEntryReceive_ferry hla hc hw hwho hrun, ⟨_, hfed, rfl, rfl, rfl⟩, hlace, receiveFerry_only ..⟩
  case release =>
    intro h k n la c s hl hla hc
    have hexec := execHandleRelease_cases (k := k) hl hc
    split
    next hreads => exact hexec.trans (if_pos hreads)
    next hdone =>
      obtain ⟨hlace, hclear⟩ := releaseHandle_spec (k := k) hl hla
      exact ⟨_, hexec.trans (if_neg hdone), hlace, hclear, releaseHandle_only ..⟩
  case cleared =>
    intro h pool s hclear hlace hidle hnext hup
    exact ⟨_, execSlabCleared_free hclear hlace hidle, slabFreed_spec pool hnext hup⟩
  case deadline =>
    intro a r d s hr hd hlive hpast hdiscards
    obtain ⟨rep, hexec, hstatus⟩ := execRequestDeadlinePass_discards hr hd hlive hpast hdiscards
    exact ⟨rep, _, hexec, hstatus, _, rfl, missCounted_spec hr⟩

end Sys2Proof.Laws
end

section
/-! SUPPORT. The exactness of column counts: residue bits (R60, R61), plane sums (R90), and ALIGN's exponent (R121). -/

namespace Sys2Proof.Laws

open Sys2Proof.Machine

/-! ## The residue identity (R60, R61) -/

theorem bitAt_eq (n i : Nat) : bitAt n i = decide (n / 2 ^ i % 2 = 1) := by
  rw [bitAt, Nat.shiftRight_eq_div_pow]

theorem b2n_bitAt (n i : Nat) : b2n (bitAt n i) = n / 2 ^ i % 2 := by
  rw [bitAt_eq, b2n]
  rcases Nat.mod_two_eq_zero_or_one (n / 2 ^ i) with h | h <;> simp [h]

theorem length_filter_cons {α : Type} (p : α → Bool) (x : α) (l : List α) :
    ((x :: l).filter p).length = b2n (p x) + (l.filter p).length := by
  rw [List.filter_cons, b2n]
  split
  next => rw [List.length_cons, Nat.add_comm]
  next => rw [Nat.zero_add]

/-- R60: the check bits of a row spell its popcount modulo 8. -/
theorem residueBits_spell (w : Nat) : popNat 32 w % 8 =
    b2n (bitAt (residueBits w) 0) + 2 * b2n (bitAt (residueBits w) 1) + 4 * b2n (bitAt (residueBits w) 2) := by
  simp only [b2n_bitAt, residueBits]
  omega

/-- R61: the sum of the data counts and the counts of the check columns agree modulo 8. -/
theorem residue_identity (rows : List Nat) : (rows.map (popNat 32)).sum % 8 =
    ((rows.filter fun w => bitAt (residueBits w) 0).length + 2 * (rows.filter fun w => bitAt (residueBits w) 1).length +
      4 * (rows.filter fun w => bitAt (residueBits w) 2).length) % 8 := by
  induction rows with
  | nil => rfl
  | cons w rows ih =>
    have hw := residueBits_spell w
    simp only [List.map_cons, List.sum_cons, length_filter_cons]
    omega

/-! ## The Welt's test (R50, R51, R61, R106) -/

theorem residuesOk_iff (codes : List Nat) : residuesOk codes = true ↔ ∀ g, g < 32 →
    ((codes.drop (32 * g)).take 32).sum % 8 =
      (codes.getD (1024 + 3 * g) 0 + 2 * codes.getD (1025 + 3 * g) 0 + 4 * codes.getD (1026 + 3 * g) 0) % 8 := by
  simp [residuesOk, residueOk]

theorem pulsePasses_exact_iff (p : Pulse) : pulsePasses false p = true ↔
    p.echoCount = p.group.pop ∧ p.echoSum = p.group.isum ∧ p.unders = [] ∧ p.overs = [] ∧ residuesOk p.codes = true := by
  simp [pulsePasses, and_assoc]

theorem pulsePasses_tolerant_iff (p : Pulse) :
    pulsePasses true p = true ↔ p.echoCount = p.group.pop ∧ p.echoSum = p.group.isum := by
  simp [pulsePasses]

/-! ## Plane sums (R90) -/

/-- The sign of bit `a` in a two's-complement number of `w` bits. -/
def bitWeight (w a : Nat) : Int := if a + 1 = w then -1 else 1

theorem bitSign_eq (cols planes a b : Nat) : bitSign cols planes a b = bitWeight cols a * bitWeight planes b := by
  by_cases ha : a + 1 = cols <;> by_cases hb : b + 1 = planes <;> simp [bitSign, bitWeight, ha, hb]

/-- A number is the sum of its low bits by weight. -/
theorem sum_bits (w n : Nat) : ((List.range w).map fun a => (2 : Int) ^ a * (b2n (bitAt n a) : Nat)).sum = (n % 2 ^ w : Nat) := by
  induction w with
  | zero => simp [Nat.mod_one]
  | succ w ih =>
    rw [List.range_succ, List.map_append, List.sum_append, ih, Nat.mod_pow_succ, List.map_singleton, List.sum_singleton, b2n_bitAt]
    push_cast
    ring

/-- A two's-complement number is the signed sum of its bits by weight. -/
theorem signedAt_eq_sum {w : Nat} (hw : 1 ≤ w) (n : Nat) :
    ((List.range w).map fun a => bitWeight w a * 2 ^ a * (b2n (bitAt n a) : Nat)).sum = signedAt w n := by
  obtain ⟨v, rfl⟩ := Nat.exists_eq_add_of_le' hw
  have hlow : ((List.range v).map fun a => bitWeight (v + 1) a * 2 ^ a * (b2n (bitAt n a) : Nat)) =
      (List.range v).map fun a => (2 : Int) ^ a * (b2n (bitAt n a) : Nat) :=
    List.map_congr_left fun a ha => by
      have : a + 1 ≠ v + 1 := by have := List.mem_range.1 ha; omega
      rw [bitWeight, if_neg this, one_mul]
  have htop : bitWeight (v + 1) v = -1 := if_pos rfl
  have hlt : n % 2 ^ v < 2 ^ v := Nat.mod_lt _ (Nat.two_pow_pos v)
  rw [List.range_succ, List.map_append, List.sum_append, hlow, sum_bits, signedAt, Nat.mod_pow_succ, List.map_singleton,
    List.sum_singleton, b2n_bitAt, htop, Nat.add_sub_cancel]
  rcases Nat.mod_two_eq_zero_or_one (n / 2 ^ v) with h | h
  · simp [h, hlt]
  · simp [h, pow_succ]; omega

/-- The counts of the columns in which plane `b` drives the given rows (R44, R90). -/
def columnsOf (cols b : Nat) (rows : List (Nat × Nat)) : List Nat :=
  (List.range cols).map fun a => (rows.filter fun r => bitAt r.1 a && bitAt r.2 b).length

theorem planeSum_columnsOf (cols planes b : Nat) (rows : List (Nat × Nat)) : planeSum cols planes b (columnsOf cols b rows) =
    ((List.range cols).map fun a =>
      bitSign cols planes a b * 2 ^ (a + b) * ((rows.filter fun r => bitAt r.1 a && bitAt r.2 b).length : Int)).sum := by
  refine congrArg List.sum (List.map_congr_left fun a ha => ?_)
  have := List.mem_range.1 ha
  simp [columnsOf, this]

/-- One row more adds its own product of bits to a plane sum. -/
theorem planeSum_cons {cols : Nat} (hc : 1 ≤ cols) (planes b : Nat) (r : Nat × Nat) (rows : List (Nat × Nat)) :
    planeSum cols planes b (columnsOf cols b (r :: rows)) =
      signedAt cols r.1 * (bitWeight planes b * 2 ^ b * (b2n (bitAt r.2 b) : Nat)) + planeSum cols planes b (columnsOf cols b rows) := by
  rw [planeSum_columnsOf, planeSum_columnsOf, ← signedAt_eq_sum hc, ← List.sum_map_mul_right, ← List.sum_map_add]
  refine congrArg List.sum (List.map_congr_left fun a _ => ?_)
  have hbit : b2n (bitAt r.1 a && bitAt r.2 b) = b2n (bitAt r.1 a) * b2n (bitAt r.2 b) := by
    cases bitAt r.1 a <;> cases bitAt r.2 b <;> rfl
  rw [length_filter_cons, hbit, bitSign_eq]
  push_cast
  ring

/-- R90: the plane sums over the column counts add up to Σ W × X. -/
theorem planeSums_eq_dot {cols planes : Nat} (hc : 1 ≤ cols) (hp : 1 ≤ planes) (rows : List (Nat × Nat)) :
    ((List.range planes).map fun b => planeSum cols planes b (columnsOf cols b rows)).sum =
      (rows.map fun r => signedAt cols r.1 * signedAt planes r.2).sum := by
  induction rows with
  | nil => simp [planeSum_columnsOf]
  | cons r rows ih =>
    simp only [planeSum_cons hc, List.sum_map_add, List.sum_map_mul_left, signedAt_eq_sum hp, ih, List.map_cons, List.sum_cons]

/-! ## ALIGN (R121, R123) -/

/-- Rounding keeps a value at or below an integer bound. -/
theorem rneDiv_le {n m : Int} {d : Nat} (hd : 0 < d) (h : n ≤ m * d) : rneDiv n d ≤ m := by
  have hdiv := Int.mul_ediv_add_emod n d
  have hr := Int.emod_nonneg n (b := d) (by omega)
  have hq : n / d ≤ m := Int.ediv_le_of_le_mul (by omega) h
  have htie : n / d = m → n % d ≤ 0 := fun hqm => by rw [hqm, mul_comm] at hdiv; omega
  simp only [rneDiv]
  split_ifs <;> omega

theorem le_rneDiv {n m : Int} {d : Nat} (hd : 0 < d) (h : m * d ≤ n) : m ≤ rneDiv n d := by
  have hq : m ≤ n / d := (Int.le_ediv_iff_mul_le (by omega)).2 h
  simp only [rneDiv]
  split_ifs <;> omega

/-- Rounding at a scale keeps a value at or below an integer bound. -/
theorem rne_le {n m k : Int} (h : n * 2 ^ k.toNat ≤ m * 2 ^ (-k).toNat) : rne n k ≤ m := by
  unfold rne
  split
  next hk => simpa [Int.toNat_of_nonpos (Int.neg_nonpos_of_nonneg hk)] using h
  next hk => exact rneDiv_le (Nat.two_pow_pos _) (by simpa [Int.toNat_of_nonpos (by omega : k ≤ 0)] using h)

theorem le_rne {n m k : Int} (h : m * 2 ^ (-k).toNat ≤ n * 2 ^ k.toNat) : m ≤ rne n k := by
  unfold rne
  split
  next hk => simpa [Int.toNat_of_nonpos (Int.neg_nonpos_of_nonneg hk)] using h
  next hk => exact le_rneDiv (Nat.two_pow_pos _) (by simpa [Int.toNat_of_nonpos (by omega : k ≤ 0)] using h)

theorem scaled_pow_le {k : Int} {a c : Nat} (h : a + k ≤ c) : (2 : Int) ^ a * 2 ^ k.toNat ≤ 2 ^ c * 2 ^ (-k).toNat := by
  rw [← pow_add, ← pow_add]
  exact pow_le_pow_right₀ one_le_two (by omega)

theorem le_scaled_pow {k : Int} {a c : Nat} (h : c ≤ a + k) : (2 : Int) ^ c * 2 ^ (-k).toNat ≤ 2 ^ a * 2 ^ k.toNat := by
  rw [← pow_add, ← pow_add]
  exact pow_le_pow_right₀ one_le_two (by omega)

/-- A value of magnitude at most 2^(a + k) rounds to at most 2^c where a + k ≤ c. -/
theorem abs_rne_le {n k : Int} {a c : Nat} (hn : |n| ≤ 2 ^ a) (h : a + k ≤ c) : |rne n k| ≤ 2 ^ c := by
  obtain ⟨hlo, hhi⟩ := abs_le.1 hn
  have hk : (0 : Int) ≤ 2 ^ k.toNat := by positivity
  have hpow := scaled_pow_le h
  refine abs_le.2 ⟨le_rne ?_, rne_le ((mul_le_mul_of_nonneg_right hhi hk).trans hpow)⟩
  have := mul_le_mul_of_nonneg_right hlo hk
  linarith

/-- A value of magnitude at least 2^(a + k) rounds to at least 2^c where c ≤ a + k. -/
theorem le_abs_rne {n k : Int} {a c : Nat} (hn : 2 ^ a ≤ |n|) (h : c ≤ a + k) : 2 ^ c ≤ |rne n k| := by
  have hk : (0 : Int) ≤ 2 ^ k.toNat := by positivity
  have hpow := le_scaled_pow h
  rcases le_abs.1 hn with hpos | hneg
  · exact le_abs.2 (.inl (le_rne (hpow.trans (mul_le_mul_of_nonneg_right hpos hk))))
  · have := mul_le_mul_of_nonneg_right hneg hk
    exact le_abs.2 (.inr (le_neg.2 (rne_le (by linarith))))

@[simp] theorem rne_zero (k : Int) : rne 0 k = 0 := by simp [rne, rneDiv]

/-- ⌊log2⌋ bounds a nonzero magnitude on both sides. -/
theorem logMag_bounds {n : Int} (x : Int) (hn : n ≠ 0) :
    ∃ a : Nat, logMag (n, x) = a + x ∧ 2 ^ a ≤ |n| ∧ |n| ≤ 2 ^ (a + 1) := by
  refine ⟨Nat.log2 n.natAbs, rfl, ?_, ?_⟩
  · have := Nat.log2_self_le (Int.natAbs_ne_zero.2 hn)
    rw [Int.abs_eq_natAbs]; exact_mod_cast this
  · have := (Nat.lt_log2_self (n := n.natAbs)).le
    rw [Int.abs_eq_natAbs]; exact_mod_cast this

/-- The element fits B bits at exponent e (R121). -/
def elemFits (b : Nat) (e n x : Int) : Prop := -(2 ^ (b - 1) : Int) ≤ rne n (x - e) ∧ rne n (x - e) ≤ 2 ^ (b - 1) - 1

theorem alignFits_iff (b : Nat) (vs : List (Option (Int × Int))) (e : Int) :
    alignFits b vs e = true ↔ ∀ n x, some (n, x) ∈ vs → elemFits b e n x := by
  rw [alignFits, List.all_eq_true]
  constructor
  · intro h n x hm
    simpa [elemFits] using h _ hm
  · intro h v hv
    match v with
    | none => rfl
    | some (n, x) => simpa [elemFits] using h n x hv

/-- The magnitudes of the nonzero finite elements. -/
def finiteMags (vs : List (Option (Int × Int))) : List Int :=
  vs.filterMap fun v =>
    match v with
    | some (n, x) => if n = 0 then none else some (logMag (n, x))
    | none => none

theorem mem_finiteMags {vs : List (Option (Int × Int))} {m : Int} :
    m ∈ finiteMags vs ↔ ∃ n x, some (n, x) ∈ vs ∧ n ≠ 0 ∧ logMag (n, x) = m := by
  rw [finiteMags, List.mem_filterMap]
  constructor
  · rintro ⟨v, hv, h⟩
    match v with
    | some (n, x) =>
      dsimp only at h
      split_ifs at h with hn
      exact ⟨n, x, hv, hn, Option.some.inj h⟩
  · rintro ⟨n, x, hv, hn, h⟩
    exact ⟨_, hv, by simp [hn, h]⟩

/-- R121: the exponent is the first of three that fits, from the greatest magnitude. -/
theorem alignExp_eq (b : Nat) (vs : List (Option (Int × Int))) : alignExp b vs =
    match (finiteMags vs).max? with
    | none => 0
    | some top =>
      let e := top - b + 1
      if alignFits b vs e then e else if alignFits b vs (e + 1) then e + 1 else e + 2 := by
  show (match finiteMags vs with | [] => (0 : Int) | m :: t => _) = _
  cases finiteMags vs with
  | nil => rfl
  | cons m t => rw [List.max?_cons']

/-- Two above E − B + 1 every element fits: its magnitude has come below half the range. -/
theorem alignFits_above {b : Nat} {vs : List (Option (Int × Int))} {top : Int} (hb : 2 ≤ b)
    (htop : ∀ m ∈ finiteMags vs, m ≤ top) : alignFits b vs (top - b + 1 + 2) = true := by
  obtain ⟨c, rfl⟩ := Nat.exists_eq_add_of_le' hb
  refine (alignFits_iff ..).2 fun n x hv => ?_
  have hpow : (1 : Int) ≤ 2 ^ c := one_le_pow₀ one_le_two
  have hdouble : (2 : Int) ^ (c + 2 - 1) = 2 ^ c * 2 := pow_succ ..
  rw [elemFits, hdouble]
  by_cases hn : n = 0
  · rw [hn, rne_zero]; omega
  · obtain ⟨a, hmag, -, hhi⟩ := logMag_bounds x hn
    have := htop _ (mem_finiteMags.2 ⟨n, x, hv, hn, rfl⟩)
    have := abs_le.1 (abs_rne_le (k := x - (top - (c + 2 : Nat) + 1 + 2)) (c := c) hhi (by push_cast; omega))
    omega

/-- Below E − B + 1 the greatest element does not fit. -/
theorem alignFits_below {b : Nat} {vs : List (Option (Int × Int))} {top e : Int} (hb : 2 ≤ b) (htop : top ∈ finiteMags vs)
    (he : e < top - b + 1) : alignFits b vs e = false := by
  obtain ⟨n, x, hv, hn, rfl⟩ := mem_finiteMags.1 htop
  obtain ⟨a, hmag, hlo, -⟩ := logMag_bounds x hn
  refine Bool.eq_false_iff.2 fun hfits => ?_
  obtain ⟨hge, hle⟩ := (alignFits_iff ..).1 hfits n x hv
  have hbig := le_abs.1 (le_abs_rne (k := x - e) (c := b) hlo (by omega))
  have : (2 : Int) ^ (b - 1) < 2 ^ b := pow_lt_pow_right₀ one_lt_two (by omega)
  omega

theorem alignVec_ex (b : Nat) (vs : List (Option (Int × Int))) : (alignVec b vs).ex = alignExp b vs := rfl

/-- R121: where an element is nonzero, the exponent is the least that fits. -/
theorem alignExp_least {b : Nat} {vs : List (Option (Int × Int))} (hb : 2 ≤ b) (hv : finiteMags vs ≠ []) :
    alignFits b vs (alignExp b vs) = true ∧ ∀ e, e < alignExp b vs → alignFits b vs e = false := by
  obtain ⟨top, hmax⟩ := Option.isSome_iff_exists.1 (List.isSome_max?_of_ne_nil hv)
  obtain ⟨hmem, hle⟩ := List.max?_eq_some_iff.1 hmax
  have hbelow := fun e => alignFits_below (e := e) hb hmem
  rw [alignExp_eq, hmax]
  dsimp only
  cases h₁ : alignFits b vs (top - b + 1)
  case true => exact ⟨h₁, hbelow⟩
  case false =>
    cases h₂ : alignFits b vs (top - b + 1 + 1)
    case true =>
      refine ⟨h₂, fun e he => ?_⟩
      rcases (show e < top - b + 1 ∨ e = top - b + 1 by simp at he; omega) with h | rfl
      · exact hbelow e h
      · exact h₁
    case false =>
      refine ⟨alignFits_above hb hle, fun e he => ?_⟩
      rcases (show e < top - b + 1 ∨ e = top - b + 1 ∨ e = top - b + 1 + 1 by simp at he; omega) with h | rfl | rfl
      · exact hbelow e h
      · exact h₁
      · exact h₂

/-! ## The obligation -/

/-- Settles O50: the residue identity and R90 by induction on the rows, a row adding its own popcount and its own product; ALIGN's
exponent by the bounds of rounding at the greatest magnitude. -/
theorem exactSums : Obligations.ExactSums := by
  refine ⟨fun rows _ => ?residues, fun p => ⟨?exact, pulsePasses_tolerant_iff p⟩, fun cols planes rows hc hp _ => planeSums_eq_dot hc hp rows,
    fun b vs hb => ⟨fun hv => ?least, fun hv => ?zero, ?integers, ?specials⟩⟩
  case residues => exact ⟨residue_identity rows, by simp [residueOk, residue_identity rows]⟩
  case exact => rw [pulsePasses_exact_iff, residuesOk_iff]
  case least =>
    obtain ⟨n, x, hv, hn⟩ := hv
    exact alignExp_least hb (List.ne_nil_of_mem (mem_finiteMags.2 ⟨n, x, hv, hn, rfl⟩))
  case zero =>
    have hmags : finiteMags vs = [] := List.eq_nil_iff_forall_not_mem.2 fun m hm => by
      obtain ⟨n, x, hmem, hn, -⟩ := mem_finiteMags.1 hm
      exact hn (hv n x hmem)
    rw [alignVec_ex, alignExp_eq, hmags]
    rfl
  case integers =>
    refine List.map_congr_left fun v _ => ?_
    cases v <;> rfl
  case specials =>
    rw [List.count_eq_length_filter]
    refine congrArg List.length (List.filter_congr fun v _ => ?_)
    cases v <;> rfl

end Sys2Proof.Laws
end

section
/-! SUPPORT. The small operations of Awl: a channel's error bits, a bank's operations, the end of an operation. -/

namespace Sys2Proof.Laws

open Sys2Proof.Machine

/-! ## Channels and banks -/

theorem chanStep_comp {c : Nat} {f g : Channel → Channel} {s t u : State} (h : ChanStep c f s t) (k : ChanStep c g t u) :
    ChanStep c (fun ch => g (f ch)) s u := by
  obtain ⟨hself, hother, hrest⟩ := h
  obtain ⟨kself, kother, krest⟩ := k
  refine ⟨by rw [kself, hself], fun j hj => (kother j hj).trans (hother j hj), ?_⟩
  rw [← hrest, ← krest]

theorem chanStep_modChan (c : Nat) (f : Channel → Channel) (s : State) : ChanStep c f s (modChan c f s) :=
  ⟨chanOf_modChan_self .., fun _ hk => chanOf_modChan_ne _ _ hk, rfl⟩

/-- Of Awl's own state a frame without Awl leaves everything. -/
theorem chanStep_of_only {P : List Part} {c : Nat} {f : Channel → Channel} {s t u : State} (h : ChanStep c f s t) (honly : Only P t u)
    (hp : Part.awl ∉ P) : ChanStep c f s u := by
  have hawl : u.awl = t.awl := honly.2 .awl hp
  have hchan : ∀ k, chanOf u k = chanOf t k := fun k => by rw [chanOf, hawl, chanOf]
  obtain ⟨hself, hother, hrest⟩ := h
  exact ⟨(hchan c).trans hself, fun k hk => (hchan k).trans (hother k hk), by rw [hawl]; exact hrest⟩

theorem modBank_other {n k : Nat} (f : Bank → Bank) (s : State) (hk : k ≠ n) : tget? (modBank n f s).banks k = tget? s.banks k :=
  tget?_tset_ne _ _ hk

theorem bankStep_modBank (n : Nat) (f : Bank → Bank) (s : State) : BankStep n f s (modBank n f s) :=
  ⟨bankOf_modBank_self .., fun _ hk => modBank_other f s hk⟩

/-- The bank with the operation of one place in the order changed. -/
def mapOp (order : Nat) (f : AwlOp → AwlOp) (b : Bank) : Bank :=
  { b with ops := b.ops.map fun o => if o.order = order then f o else o }

theorem modOp_eq (n order : Nat) (f : AwlOp → AwlOp) (s : State) : modOp n order f s = modBank n (mapOp order f) s := rfl

/-! ## What an operation's start and end leave -/

/-- Of Awl and the banks, only bank `n` and the outcome fields of channels and the completion FIFO have changed. -/
def OpsWithin (n : Nat) (s t : State) : Prop :=
  t.awl.nextOrder = s.awl.nextOrder ∧
  (∀ c, (chanOf t c).lastOp = (chanOf s c).lastOp ∧ (chanOf t c).unlock = (chanOf s c).unlock) ∧
  ∀ k, k ≠ n → tget? t.banks k = tget? s.banks k

section Within

variable {n : Nat} {s t u : State}

theorem OpsWithin.trans (h : OpsWithin n s t) (k : OpsWithin n t u) : OpsWithin n s u :=
  ⟨k.1.trans h.1, fun c => ⟨(k.2.1 c).1.trans (h.2.1 c).1, (k.2.1 c).2.trans (h.2.1 c).2⟩, fun j hj => (k.2.2 j hj).trans (h.2.2 j hj)⟩

theorem OpsWithin.of_only {P : List Part} (h : Only P s t) (ha : Part.awl ∉ P) (hb : Part.banks ∉ P) : OpsWithin n s t := by
  have hawl : t.awl = s.awl := h.2 .awl ha
  have hbanks : t.banks = s.banks := h.2 .banks hb
  rw [OpsWithin, hawl, hbanks]
  exact ⟨rfl, fun c => by rw [chanOf, hawl]; exact ⟨rfl, rfl⟩, fun _ _ => rfl⟩

theorem opsWithin_refl (n : Nat) (s : State) : OpsWithin n s s := .of_only (Only.refl [] s) (by decide) (by decide)

theorem opsWithin_modBank (f : Bank → Bank) (s : State) : OpsWithin n s (modBank n f s) :=
  ⟨rfl, fun _ => ⟨rfl, rfl⟩, fun _ hk => modBank_other f s hk⟩

theorem opsWithin_modChan (c : Nat) {f : Channel → Channel} (s : State) (hlast : ∀ ch, (f ch).lastOp = ch.lastOp)
    (hunlock : ∀ ch, (f ch).unlock = ch.unlock) : OpsWithin n s (modChan c f s) := by
  refine ⟨rfl, fun k => ?_, fun _ _ => rfl⟩
  rw [chanOf_modChan]
  split
  next h => rw [h]; exact ⟨hlast _, hunlock _⟩
  next => exact ⟨rfl, rfl⟩

end Within

/-! ## The end of an operation (R288) -/

/-- The completion entry of an operation that ends with error bits `errs` (R288). -/
def endEntry (n : Nat) (o : AwlOp) (errs : Nat) (s : State) : BitVec 32 × BitVec 32 :=
  let seen := (o.chan.map fun c => (chanOf s c.val).errors.toNat).getD 0
  (BitVec.ofNat 32 (n + opCode o.kind * 2 ^ 20 + (seen ||| errs) * 2 ^ 24 + 2 ^ 31), BitVec.ofNat 32 ((s.time.pll - o.started).toNat / 1000))

/-- The bank without the operations of one place in the order. -/
def dropOp (order : Nat) (b : Bank) : Bank := { b with ops := b.ops.filter fun p => p.order ≠ order }

/-- R288: the operation is off the bank and its entry is in the FIFO. -/
def entryPosted (n : Nat) (o : AwlOp) (errs : Nat) (s : State) : State :=
  let t := modBank n (dropOp o.order) s
  { t with awl := { t.awl with fifo := t.awl.fifo ++ [endEntry n o errs s] } }

/-- R274: the channel whose last operation it is shows the outcome. -/
def outcomeShown (n : Nat) (o : AwlOp) (errs : Nat) (s : State) : State :=
  match o.chan with
  | some c =>
    if (chanOf s c.val).lastOp = some (n, o.order) then
      modChan c.val (fun ch => { ch with done := true, errors := ch.errors ||| BitVec.ofNat 7 errs }) s
    else s
  | none => s

theorem endOp_eq (n : Nat) (o : AwlOp) (errs : Nat) (s : State) : endOp n o errs s =
    let t := outcomeShown n o errs (entryPosted n o errs s)
    if bitAt t.awl.ctrl.toNat 0 then cause 0 t else t := rfl

theorem outcomeShown_spec (n : Nat) (o : AwlOp) (errs : Nat) (s : State) : OpsWithin n s (outcomeShown n o errs s) ∧
    (outcomeShown n o errs s).awl.fifo = s.awl.fifo ∧ (outcomeShown n o errs s).banks = s.banks := by
  have hrefl := opsWithin_refl n s
  unfold outcomeShown
  split
  next c _ =>
    split
    next => exact ⟨opsWithin_modChan _ _ (fun _ => rfl) fun _ => rfl, rfl, rfl⟩
    next => exact ⟨hrefl, rfl, rfl⟩
  next => exact ⟨hrefl, rfl, rfl⟩

theorem endOp_spec (n : Nat) (o : AwlOp) (errs : Nat) (s : State) : OpsWithin n s (endOp n o errs s) ∧
    (endOp n o errs s).awl.fifo = s.awl.fifo ++ [endEntry n o errs s] ∧ bankOf (endOp n o errs s) n = dropOp o.order (bankOf s n) := by
  have hposted : OpsWithin n s (entryPosted n o errs s) := opsWithin_modBank (dropOp o.order) s
  have hbank : bankOf (entryPosted n o errs s) n = dropOp o.order (bankOf s n) := bankOf_modBank_self ..
  obtain ⟨hwithin, hfifo, hbanks⟩ := outcomeShown_spec n o errs (entryPosted n o errs s)
  have hcause : ∀ t : State, OpsWithin n t (cause 0 t) := fun t => .of_only (cause_only 0 t) (by decide) (by decide)
  rw [bankOf, ← hbanks] at hbank
  rw [endOp_eq]
  extract_lets t
  split
  next => exact ⟨(hposted.trans hwithin).trans (hcause t), hfifo, hbank⟩
  next => exact ⟨hposted.trans hwithin, hfifo, hbank⟩

theorem endOp_within (n : Nat) (o : AwlOp) (errs : Nat) (s : State) : OpsWithin n s (endOp n o errs s) := (endOp_spec n o errs s).1

theorem endOp_fifo (n : Nat) (o : AwlOp) (errs : Nat) (s : State) :
    (endOp n o errs s).awl.fifo = s.awl.fifo ++ [endEntry n o errs s] := (endOp_spec n o errs s).2.1

theorem bankOf_endOp (n : Nat) (o : AwlOp) (errs : Nat) (s : State) :
    bankOf (endOp n o errs s) n = dropOp o.order (bankOf s n) := (endOp_spec n o errs s).2.2

theorem bank_lt {n : Nat} {s : State} (h : bankExists s n = true) : n < 2 ^ 20 := by
  have hlt : n < nBanks s := of_decide_eq_true h
  have hle : nIslands s ≤ 2048 := by unfold nIslands; split <;> decide
  rw [nBanks] at hlt
  omega

/-- R288: an entry names the bank and the operation in bits [23:0], and has bit 31 set. -/
theorem endEntry_fields {n : Nat} {s₀ : State} (hn : bankExists s₀ n = true) (o : AwlOp) {errs : Nat} (herrs : errs < 2 ^ 7) (s : State) :
    (endEntry n o errs s).1.toNat % 2 ^ 24 = (n + opCode o.kind * 2 ^ 20) % 2 ^ 24 ∧ (endEntry n o errs s).1.getLsbD 31 = true := by
  unfold endEntry
  extract_lets seen
  have hseen : seen < 2 ^ 7 := by
    unfold seen
    cases o.chan with
    | none => exact Nat.two_pow_pos 7
    | some c => exact BitVec.isLt _
  have hor : seen ||| errs < 2 ^ 7 := Nat.or_lt_two_pow hseen herrs
  have hcode : opCode o.kind ≤ 6 := by cases o.kind <;> decide
  have hlt := bank_lt hn
  generalize hlow : n + opCode o.kind * 2 ^ 20 + (seen ||| errs) * 2 ^ 24 = low
  have hlow' : low < 2 ^ 31 := by omega
  constructor
  · rw [BitVec.toNat_ofNat]; omega
  · rw [BitVec.getLsbD_ofNat, Nat.add_comm, Nat.testBit_two_pow_add_eq, Nat.testBit_lt_two_pow hlow']
    rfl

end Sys2Proof.Laws
end

section
/-! SUPPORT. What a command byte that starts an operation does: refused, queued or started (R268, R269, R272). -/

namespace Sys2Proof.Laws

open Sys2Proof.Machine

/-! ## Refusal -/

/-- The error bits of an operation command that is refused, by the first check that it fails (R268, R269). -/
def opFault (c : Fin 8) (k : AwlKind) (s : State) : Option Nat :=
  let n := selBank s c
  let b := bankOf s n
  if bankExists s n = false then some (2 ^ errState)
  else if bankRunning s n = true then some (2 ^ errBusy + if opAllowed b.state k then 0 else 2 ^ errState)
  else if k = .eraseBank ∧ bitsAt (chanOf s c).arg.toNat 31 12 ≠ 2 ^ 20 - 1 - n then some (2 ^ errSeq)
  else if opAllowed b.state k = false ∨ rowAllowed b k (bitsAt (chanOf s c).row.toNat 10 0) = false ∨
    (k = .programWord ∧ rowWords b.storageMode ≤ bitsAt (chanOf s c).row.toNat 21 16) then some (2 ^ errState)
  else if suspendAllows b k = false then some (2 ^ errBusy)
  else none

/-- R266: the command byte ends the unlock sequence. -/
def relocked (c : Nat) (s : State) : State := modChan c (fun ch => { ch with unlock := .idle }) s

/-- The channel locked again with more error bits. -/
def markErr (e : Nat) (ch : Channel) : Channel := { ch with unlock := .idle, errors := ch.errors ||| BitVec.ofNat 7 e }

theorem chanStep_setErr (c k : Nat) (s : State) : ChanStep c (markErr (2 ^ k)) s (setErr c k (relocked c s)) := by
  have hlock : ChanStep c (fun ch => { ch with unlock := .idle }) s (relocked c s) := chanStep_modChan ..
  have herr := chanStep_comp hlock (chanStep_modChan c (fun ch => { ch with errors := ch.errors ||| BitVec.ofNat 7 (2 ^ k) }) _)
  exact herr

theorem chanStep_seqError (c : Nat) (s : State) : ChanStep c (markErr (2 ^ errSeq)) s (seqError c (relocked c s)) := by
  have hagain : ChanStep c (fun ch => { ch with unlock := .idle }) s (relocked c (relocked c s)) :=
    chanStep_comp (chanStep_modChan c (fun ch => { ch with unlock := .idle }) s) (chanStep_modChan ..)
  have herr := chanStep_comp hagain (chanStep_modChan c (fun ch => { ch with errors := ch.errors ||| BitVec.ofNat 7 (2 ^ errSeq) }) _)
  exact chanStep_of_only herr (bump_only ..) (by decide)

theorem chanStep_rejectBusy (c : Nat) (ok : Bool) (s : State) :
    ChanStep c (markErr (2 ^ errBusy + if ok then 0 else 2 ^ errState)) s (rejectBusy c ok (relocked c s)) := by
  cases ok with
  | true => exact chanStep_setErr c errBusy s
  | false =>
    have hboth : ∀ ch : Channel, markErr (2 ^ errBusy + 2 ^ errState) ch =
        { markErr (2 ^ errState) ch with errors := (markErr (2 ^ errState) ch).errors ||| BitVec.ofNat 7 (2 ^ errBusy) } := fun ch => by
      simp [markErr, BitVec.or_assoc, errBusy, errState]
    have herr := chanStep_comp (chanStep_setErr c errState s)
      (chanStep_modChan c (fun ch => { ch with errors := ch.errors ||| BitVec.ofNat 7 (2 ^ errBusy) }) _)
    rwa [← funext hboth] at herr

theorem unlocked_relocked {i : Initiator} {c : Nat} {s : State} (k : State → State) (hcore : isCore i = true)
    (hunlock : (chanOf s c).unlock = .unlock2) : unlocked i c s k = .next (k (relocked c s)) := by
  simp [unlocked, hcore, hunlock, relocked]

/-- Relocking leaves what the checks of a command read. -/
theorem relocked_reads (c : Nat) (s : State) : selBank (relocked c s) c = selBank s c ∧
    (chanOf (relocked c s) c).row = (chanOf s c).row ∧ (chanOf (relocked c s) c).arg = (chanOf s c).arg ∧
    (∀ n, bankOf (relocked c s) n = bankOf s n) ∧ ∀ n, bankExists (relocked c s) n = bankExists s n := by
  simp only [relocked, selBank, chanOf_modChan_self, true_and]
  exact ⟨fun _ => rfl, fun _ => rfl⟩

theorem newOp_relocked (k : AwlKind) (c : Fin 8) (row : Nat) (floor run : Bool) (s : State) :
    newOp (relocked c s) k (some c) row floor run = newOp s k (some c) row floor run := by
  simp [newOp, relocked]

/-! ## The verdict on a command -/

theorem tset_tset {α : Type} (t : Tab α) (n : Nat) (v w : α) : tset (tset t n v) n w = tset t n w := by
  induction t with
  | nil => simp [tset]
  | cons e t ih =>
    obtain ⟨k, x⟩ := e
    rcases lt_trichotomy n k with h | rfl | h
    · simp [tset, h]
    · simp [tset]
    · simp [tset, h.not_gt, h.ne', ih]

theorem modChan_modChan (c : Nat) (f g : Channel → Channel) (s : State) : modChan c f (modChan c g s) = modChan c (fun ch => f (g ch)) s := by
  simp [modChan, tmod, tset_tset]

/-- R272, R274: the channel of an accepted operation shows it as its last one, not yet done and without errors. -/
def acceptedChan (n order : Nat) (ch : Channel) : Channel :=
  { ch with unlock := .idle, errors := 0, done := false, lastOp := some (n, order), resCells := 0, resMargin := 0, resThresh := 0 }

/-- The operation that a command on channel `c` describes (R274). -/
def cmdOp (c : Fin 8) (k : AwlKind) (s : State) : AwlOp := newOp s k (some c) (bitsAt (chanOf s c).row.toNat 10 0) false false

/-- R272: the operation is queued on the selected bank. -/
def acceptedCmd (c : Fin 8) (k : AwlKind) (s : State) : State :=
  queueOp (selBank s c) (cmdOp c k s) (modChan c (acceptedChan (selBank s c) (cmdOp c k s).order) s)

/-- A command byte that is refused with error bits marks its channel alone; one that is not ends as the accepted command. -/
def Verdict (c : Nat) (s accepted : State) : Option Nat → State → Prop
  | some e, t => ChanStep c (markErr e) s t ∧ Only [.awl, .counters] s t
  | none, t => t = accepted

/-- One check of a command: where it fails the command ends here, else the verdict is that of the later checks. -/
theorem Verdict.check {c e : Nat} {s z x y : State} {later : Option Nat} {p q : Prop} [Decidable p] [Decidable q] (hpq : q ↔ p)
    (hx : Verdict c s z (some e) x) (hy : Verdict c s z later y) :
    Verdict c s z (if q then some e else later) (if p then x else y) := by
  by_cases h : p
  · rwa [if_pos h, if_pos (hpq.2 h)]
  · rwa [if_neg h, if_neg (mt hpq.1 h)]

theorem operationCmd_verdict (c : Fin 8) (k : AwlKind) (s : State) :
    Verdict c s (acceptedCmd c k s) (opFault c k s) (operationCmd c k (relocked c s)) := by
  have hlock : Only [.awl, .counters] s (relocked c s) := (modChan_only ..).mono (by decide)
  obtain ⟨hsel, hrow, harg, hbank, hexists⟩ := relocked_reads c s
  simp only [operationCmd, hsel, hrow, harg, hbank, hexists, opFault]
  refine .check (by simp) ⟨chanStep_setErr .., Only.step (setErr_only ..) (by decide) hlock⟩ ?_
  refine .check Iff.rfl ⟨chanStep_rejectBusy .., Only.step (rejectBusy_only ..) (by decide) hlock⟩ ?_
  refine .check (by simp) ⟨chanStep_seqError .., Only.step (seqError_only ..) (by decide) hlock⟩ ?_
  refine .check (by simp [or_assoc]) ⟨chanStep_setErr .., Only.step (setErr_only ..) (by decide) hlock⟩ ?_
  refine .check (by simp) ⟨chanStep_setErr .., Only.step (setErr_only ..) (by decide) hlock⟩ ?_
  show queueOp _ _ (modChan c _ (modChan c _ (modChan c _ s))) = _
  rw [newOp_relocked, modChan_modChan, modChan_modChan]
  rfl

end Sys2Proof.Laws
end

section
/-! SUPPORT. The start of an operation (R243, R272, R275, R279, R281). -/

namespace Sys2Proof.Laws

open Sys2Proof.Machine

/-- Of Awl and the banks, an operation of bank `n` has changed no more than it may, and leaves the bank in state `st`. -/
def LeavesBank (n : Nat) (st : BankState) (s t : State) : Prop := OpsWithin n s t ∧ (bankOf t n).state = st

section Steps

variable {n : Nat} {st : BankState} {s t u : State}

theorem LeavesBank.only {P : List Part} (h : LeavesBank n st s t) (honly : Only P t u) (ha : Part.awl ∉ P) (hb : Part.banks ∉ P) :
    LeavesBank n st s u :=
  ⟨h.1.trans (.of_only honly ha hb), by rw [honly.bankOf_eq hb]; exact h.2⟩

theorem LeavesBank.modBank {f : Bank → Bank} (h : OpsWithin n s t) (hf : (f (bankOf t n)).state = st) :
    LeavesBank n st s (Machine.modBank n f t) :=
  ⟨h.trans (opsWithin_modBank f t), by rw [bankOf_modBank_self]; exact hf⟩

theorem LeavesBank.modOp (order : Nat) (f : AwlOp → AwlOp) (h : LeavesBank n st s t) : LeavesBank n st s (Machine.modOp n order f t) :=
  .modBank h.1 h.2

theorem LeavesBank.endOp (o : AwlOp) (errs : Nat) (h : LeavesBank n st s t) : LeavesBank n st s (Machine.endOp n o errs t) :=
  ⟨h.1.trans (endOp_within ..), by rw [bankOf_endOp]; exact h.2⟩

end Steps

@[simp] theorem setPhysRow_state (r phys : Nat) (b : Bank) : (setPhysRow r phys b).state = b.state := rfl

@[simp] theorem withRefRows_state (b : Bank) : (withRefRows b).state = b.state :=
  List.foldlRecOn (motive := fun x : Bank => x.state = b.state) _ _ rfl fun _ h _ _ => h

/-- R279: a program leaves a bank that may take it in PROGRAMMING. -/
theorem firstProgram_state (o : AwlOp) {b : Bank} (h : b.state = .erased ∨ b.state = .programming) :
    (firstProgram o b).state = .programming := by
  rcases h with h | h
  · simp only [firstProgram, h]
    cases b.storageMode <;> simp
  · simp [firstProgram, h]

theorem startProgram_leaves (n : Nat) (o : AwlOp) {s : State}
    (h : (bankOf s n).state = .erased ∨ (bankOf s n).state = .programming) : LeavesBank n .programming s (startProgram n o s) := by
  unfold startProgram
  extract_lets first sFirst b vec
  have hfirst : LeavesBank n .programming s sFirst :=
    (LeavesBank.modBank (opsWithin_refl n s) (firstProgram_state o h)).only (modSched_only ..) (by decide) (by decide)
  clear_value sFirst b vec first
  split
  next old new _ =>
    extract_lets errs p sTouched sRuns sRise sLevel
    have htouched : LeavesBank n .programming s sTouched := by
      unfold sTouched
      split
      next => exact hfirst.only (touchRun_only ..) (by decide) (by decide)
      next => exact hfirst
    have hruns : LeavesBank n .programming s sRuns := htouched.modOp ..
    have hrise : LeavesBank n .programming s sRise := by
      unfold sRise
      split
      next => exact hruns.only (bump_only ..) (by decide) (by decide)
      next => exact hruns
    have hlevel : LeavesBank n .programming s sLevel := by
      unfold sLevel
      split
      next => exact hrise.only (bump_only ..) (by decide) (by decide)
      next => exact hrise
    split
    next => exact hruns
    next => exact hlevel.endOp ..

theorem startErase_leaves (n : Nat) (o : AwlOp) (s : State) : LeavesBank n .erasing s (startErase n o s) := by
  unfold startErase
  extract_lets b again gone sGone sRuns
  have hgone : OpsWithin n s sGone := List.foldlRecOn _ _ (opsWithin_refl n s) fun t ht p _ => ht.trans (endOp_within ..)
  exact .modBank (hgone.trans (opsWithin_modBank _ _)) rfl

/-! ## The start of a queued operation -/

/-- A top-up row or a read: its start changes the operation alone. -/
def plainOp (k : AwlKind) : Prop := k = .topUpRow ∨ k = .readRow ∨ k = .readMargin

section Start

variable {n : Nat} {o : AwlOp} {s : State}

theorem startOp_program (hq : o.phase = .queued) (hok : opAllowed (bankOf s n).state o.kind = true)
    (hk : o.kind = .programRow ∨ o.kind = .programWord) : startOp n o s = startProgram n o s := by
  rcases hk with hk | hk <;> rw [hk] at hok <;> simp [startOp, hq, hk, hok]

theorem startOp_erase (hq : o.phase = .queued) (hok : opAllowed (bankOf s n).state o.kind = true) (hk : o.kind = .eraseBank) :
    startOp n o s = startErase n o s := by
  rw [hk] at hok
  simp [startOp, hq, hk, hok]

theorem startOp_plain (hq : o.phase = .queued) (hok : opAllowed (bankOf s n).state o.kind = true) (hk : plainOp o.kind) :
    startOp n o s = modBank n (mapOp o.order fun p => { p with phase := .running, held := false, started := s.time.pll }) s := by
  rcases hk with hk | hk | hk <;> rw [hk] at hok <;> simp [startOp, hq, hk, hok, modOp_eq]

end Start

theorem opAllowed_program {st : BankState} {k : AwlKind} (hk : k = .programRow ∨ k = .programWord) (h : opAllowed st k = true) :
    st = .erased ∨ st = .programming := by
  rcases hk with rfl | rfl <;> simpa [opAllowed] using h

/-! ## A new operation is queued, or started at once (R272) -/

/-- What an accepted operation of kind `k` may have done at once to a bank that was `b`: it waits, or it has started. -/
def QueuedOrStarted (n : Nat) (k : AwlKind) (o : AwlOp) (b : Bank) (s t : State) : Prop :=
  (bankOf t n = { b with ops := b.ops ++ [o] } ∧ t.awl.fifo = s.awl.fifo) ∨
  ((k = .programRow ∨ k = .programWord) ∧ (bankOf t n).state = .programming) ∨
  (k = .eraseBank ∧ (bankOf t n).state = .erasing) ∨
  (k ≠ .programRow ∧ k ≠ .programWord ∧ k ≠ .eraseBank ∧ (bankOf t n).state = b.state ∧ t.awl.fifo = s.awl.fifo ∧
    ∃ q ∈ (bankOf t n).ops, q.order = o.order ∧ q.kind = k ∧ q.phase = .running)

/-- The operation has its place in the order and stands last on its bank. -/
def enqueued (n : Nat) (o : AwlOp) (s : State) : State :=
  modBank n (fun b => { b with ops := b.ops ++ [o] }) { s with awl := { s.awl with nextOrder := s.awl.nextOrder + 1 } }

theorem opKind_cases (k : AwlKind) : (k = .programRow ∨ k = .programWord) ∨ k = .eraseBank ∨ plainOp k := by
  cases k <;> simp [plainOp]

theorem startOp_enqueued {n : Nat} {o : AwlOp} {s : State} (hq : o.phase = .queued) (hok : opAllowed (bankOf s n).state o.kind = true) :
    OpsWithin n (enqueued n o s) (startOp n o (enqueued n o s)) ∧
      QueuedOrStarted n o.kind o (bankOf s n) s (startOp n o (enqueued n o s)) := by
  have hbank : bankOf (enqueued n o s) n = { bankOf s n with ops := (bankOf s n).ops ++ [o] } := bankOf_modBank_self ..
  have hok' : opAllowed (bankOf (enqueued n o s) n).state o.kind = true := by rwa [hbank]
  rcases opKind_cases o.kind with hk | hk | hk
  case inl =>
    rw [startOp_program hq hok' hk]
    obtain ⟨hwithin, hstate⟩ := startProgram_leaves n o (opAllowed_program hk hok')
    exact ⟨hwithin, .inr (.inl ⟨hk, hstate⟩)⟩
  case inr.inl =>
    rw [startOp_erase hq hok' hk]
    obtain ⟨hwithin, hstate⟩ := startErase_leaves n o (enqueued n o s)
    exact ⟨hwithin, .inr (.inr (.inl ⟨hk, hstate⟩))⟩
  case inr.inr =>
    obtain ⟨hrow, hword, herase⟩ : o.kind ≠ .programRow ∧ o.kind ≠ .programWord ∧ o.kind ≠ .eraseBank := by
      rcases hk with h | h | h <;> simp [h]
    rw [startOp_plain hq hok' hk]
    refine ⟨opsWithin_modBank .., .inr (.inr (.inr ⟨hrow, hword, herase, ?_, rfl, ?_⟩))⟩ <;> rw [bankOf_modBank_self, hbank]
    · rfl
    · exact ⟨{ o with phase := .running, held := false, started := s.time.pll }, by simp [mapOp, enqueued], rfl, rfl, rfl⟩

theorem queueOp_eq (n : Nat) (o : AwlOp) (s : State) : queueOp n o s =
    if opMayStart (enqueued n o s) n o then startOp n o (enqueued n o s) else bufferWake o (enqueued n o s) := rfl

theorem queueOp_spec {n : Nat} {o : AwlOp} {s : State} (hq : o.phase = .queued) (hok : opAllowed (bankOf s n).state o.kind = true) :
    OpsWithin n (enqueued n o s) (queueOp n o s) ∧ QueuedOrStarted n o.kind o (bankOf s n) s (queueOp n o s) := by
  rw [queueOp_eq]
  split
  next => exact startOp_enqueued hq hok
  next =>
    have hwake := bufferWake_only o (enqueued n o s)
    have hawl : (bufferWake o (enqueued n o s)).awl = (enqueued n o s).awl := hwake.2 .awl (by decide)
    refine ⟨.of_only hwake (by decide) (by decide), .inl ⟨?_, ?_⟩⟩
    · rw [hwake.bankOf_eq (by decide)]; exact bankOf_modBank_self ..
    · rw [hawl]; rfl

theorem acceptedCmd_only (c : Fin 8) (k : AwlKind) (s : State) :
    Only [.doms, .time, .cause, .counters, .events, .held, .hbr, .banks, .awl, .scheds, .integ, .out] s (acceptedCmd c k s) :=
  Only.step (queueOp_only ..) (by decide) ((modChan_only ..).mono (by decide))

theorem opAllowed_of_noFault {c : Fin 8} {k : AwlKind} {s : State} (h : opFault c k s = none) :
    opAllowed (bankOf s (selBank s c)).state k = true := by
  unfold opFault at h
  extract_lets n b at h
  split_ifs at h with _ _ _ hstate
  exact Bool.not_eq_false _ ▸ fun hno => hstate (.inl hno)

/-- R272: what the acceptance of an operation command does to the channel, the order and the selected bank. -/
theorem acceptedCmd_spec {c : Fin 8} {k : AwlKind} {s : State} (h : opFault c k s = none) :
    (acceptedCmd c k s).awl.nextOrder = s.awl.nextOrder + 1 ∧
    (chanOf (acceptedCmd c k s) c).lastOp = some (selBank s c, (cmdOp c k s).order) ∧ (chanOf (acceptedCmd c k s) c).unlock = .idle ∧
    (∀ j, j ≠ selBank s c → tget? (acceptedCmd c k s).banks j = tget? s.banks j) ∧
    QueuedOrStarted (selBank s c) k (cmdOp c k s) (bankOf s (selBank s c)) s (acceptedCmd c k s) := by
  let n := selBank s c
  let o := cmdOp c k s
  let sChan := modChan c (acceptedChan n o.order) s
  have hchan : chanOf (enqueued n o sChan) c = acceptedChan n o.order (chanOf s c) := chanOf_modChan_self ..
  have hbank : bankOf sChan n = bankOf s n := rfl
  have hkind : o.kind = k := rfl
  have hok : opAllowed (bankOf sChan n).state o.kind = true := by rw [hbank, hkind]; exact opAllowed_of_noFault h
  obtain ⟨⟨horder, hchans, hothers⟩, hcases⟩ := queueOp_spec (n := n) (o := o) (s := sChan) rfl hok
  obtain ⟨hlast, hunlock⟩ := hchans c
  rw [hchan] at hlast hunlock
  rw [hbank, hkind] at hcases
  exact ⟨horder, hlast, hunlock, fun j hj => (hothers j hj).trans (modBank_other _ _ hj), hcases⟩

end Sys2Proof.Laws
end

section
/-! SUPPORT. The end of an operation (R74, R78, R275, R278, R286 to R288). -/

namespace Sys2Proof.Laws

open Sys2Proof.Machine

theorem hbr_eq_of_only {P : List Part} {s t : State} (h : Only P s t) (hh : Part.hbr ∉ P) (hs : Part.segs ∉ P) : t.hbr = s.hbr := by
  have hrest : { t.hbr with segs := s.hbr.segs } = s.hbr := h.2 .hbr hh
  have hsegs : t.hbr.segs = s.hbr.segs := h.2 .segs hs
  rw [← hsegs] at hrest
  exact hrest

theorem fifo_eq_of_only {P : List Part} {s t : State} (h : Only P s t) (hp : Part.awl ∉ P) : t.awl.fifo = s.awl.fifo :=
  congrArg Awl.fifo (h.2 .awl hp)

/-- R288: exactly one completion entry has been put into the FIFO, of operation `o` of bank `n`. -/
def OneEntry (n : Nat) (o : AwlOp) (s t : State) : Prop :=
  ∃ e, t.awl.fifo = s.awl.fifo ++ [e] ∧ e.1.toNat % 2 ^ 24 = (n + opCode o.kind * 2 ^ 20) % 2 ^ 24 ∧ e.1.getLsbD 31 = true

section Entry

variable {n : Nat} {o : AwlOp} {s t u : State}

theorem oneEntry_endOp (hn : bankExists s n = true) (h : t.awl.fifo = s.awl.fifo) {errs : Nat} (herrs : errs < 2 ^ 7) :
    OneEntry n o s (endOp n o errs t) :=
  ⟨endEntry n o errs t, by rw [endOp_fifo, h], endEntry_fields hn o herrs t⟩

theorem OneEntry.same (h : OneEntry n o s t) (hfifo : u.awl.fifo = t.awl.fifo) : OneEntry n o s u := by rwa [OneEntry, hfifo]

end Entry

/-! ## Erase (R74, R78, R281) -/

/-- The record of a bank whose erase has ended, but for the operation (R74, R78). -/
def erasedBank (o : AwlOp) (b : Bank) : Bank :=
  { b with
    wear := b.wear + wearOf b o.fromErased, cells := [], levels := [], thirds := [], split := []
    state := if o.fromWorn then .retired else .erased }

theorem endErase_spec {n : Nat} {o : AwlOp} {s : State} (hn : bankExists s n = true) :
    OneEntry n o s (endErase n o s) ∧ bankOf (endErase n o s) n = dropOp o.order (erasedBank o (bankOf s n)) := by
  unfold endErase
  extract_lets b erased sEnd sRaised
  have hend : OneEntry n o s sEnd := oneEntry_endOp (errs := 0) hn (congrArg Awl.fifo (modBank_awl ..)) (by decide)
  have hbank : bankOf sEnd n = dropOp o.order (erasedBank o b) := by
    unfold sEnd
    rw [bankOf_endOp, bankOf_modBank_self]
    rfl
  have hraised : Only [.counters, .events, .held, .out] sEnd sRaised :=
    Only.ite (fun _ => Only.step (raise_only ..) (by decide) (raise_only ..)) fun _ => Only.refl _ _
  have hlast : Only [.counters, .events, .held, .scheds, .out] sEnd (refreshSymptoms n sRaised) :=
    Only.step (refreshSymptoms_only ..) (by decide) (hraised.mono (by decide))
  exact ⟨hend.same (fifo_eq_of_only hlast (by decide)), by rw [hlast.bankOf_eq (by decide)]; exact hbank⟩

/-! ## Reads (R275, R286, R287) -/

theorem endRead_oneEntry {n : Nat} {o : AwlOp} {s : State} (hn : bankExists s n = true) : OneEntry n o s (endRead n o s) := by
  unfold endRead
  extract_lets b a
  split
  next vec bad sOut hout =>
    extract_lets parts sStored
    have hread : Only [.free] s sOut := by have := readOut_only n o.row.toNat s; rwa [hout] at this
    have hstored : Only [.time, .cause, .counters, .events, .held, .hbr, .integ, .out, .free] s sStored :=
      Only.step (storeRun_only ..) (by decide) (Only.step (storeRun_only ..) (by decide) (hread.mono (by decide)))
    have herrs : (if bad then 2 ^ errPoison else 0) < 2 ^ 7 := by split <;> decide
    exact (oneEntry_endOp hn (fifo_eq_of_only hstored (by decide)) herrs).same rfl

/-- R275: the row of a bank that can be read fills its buffer in two runs. -/
theorem endRead_hbr {n : Nat} {o : AwlOp} {s : State} (hstopped : ∀ p ∈ (bankOf s n).ops, opStopped p = false)
    (hstate : (bankOf s n).state = .ready ∨ (bankOf s n).state = .storage ∨ (bankOf s n).state = .worn) :
    (endRead n o s).hbr =
      (storeRun 2336 ((bufferRun o).1 + 0x180) (bufferParts (bankOf s n).storageMode (rowVector (bankOf s n) o.row.toNat)).2 false
        (storeRun 2336 (bufferRun o).1 (bufferParts (bankOf s n).storageMode (rowVector (bankOf s n) o.row.toNat)).1 false s)).hbr := by
  have hcut : ((bankOf s n).ops.any fun p => opStopped p && (p.kind == .programRow || p.kind == .programWord) && p.row.toNat = o.row.toNat)
      = false := List.any_eq_false.2 fun p hp => by simp [hstopped p hp]
  have hout : readOut n o.row.toNat s = (rowVector (bankOf s n) o.row.toNat, false, s) := by
    unfold readOut
    extract_lets b ones cut
    rw [show cut = false from hcut]
    rcases hstate with h | h | h <;> simp [b, h]
  unfold endRead
  rw [hout]
  exact hbr_eq_of_only (Only.step (noteUse_only ..) (by decide) (endOp_only n o 0 _)) (by decide) (by decide)

theorem endMargin_oneEntry {n : Nat} {o : AwlOp} {s : State} (r : OpEnd) (hn : bankExists s n = true) :
    OneEntry n o s (endMargin n o r s) := by
  unfold endMargin
  extract_lets sShown
  have hshown : sShown.awl.fifo = s.awl.fifo := by unfold sShown; split <;> rfl
  exact (oneEntry_endOp hn hshown (by decide)).same rfl

/-! ## Programs (R276, R278) -/

theorem endProgram_oneEntry {n : Nat} {o : AwlOp} {s : State} (r : OpEnd) (hn : bankExists s n = true) :
    OneEntry n o s (endProgram n o r s) := by
  unfold endProgram
  extract_lets b k bits vec old fails refs cols
  split
  next cells sWeak hweak =>
    extract_lets put sPut sCells sRemapped
    have hcells : Only [.banks, .free] s sPut := by
      have := weakCells_only k old o.target.toNat (cols.map (mappedCol b)) s
      rw [hweak] at this
      exact Only.step (weakRefs_only ..) (by decide) (Only.step (modBank_only ..) (by decide) (this.mono (by decide)))
    have hput : sPut.awl.fifo = s.awl.fifo := fifo_eq_of_only hcells (by decide)
    have hshown : sCells.awl.fifo = s.awl.fifo := by unfold sCells; split <;> exact hput
    have hremapped : OneEntry n o s sRemapped := by
      refine OneEntry.same (oneEntry_endOp hn ?_ (by decide)) (fifo_eq_of_only (spareRemap_only ..) (by decide))
      exact (fifo_eq_of_only (bump_only ..) (by decide)).trans hshown
    split
    next => exact oneEntry_endOp hn hput (by decide)
    next =>
      split
      next => exact hremapped.same rfl
      next => exact hremapped

/-- R278: a program that met no failing column leaves the row's new cells. -/
theorem bankOf_endProgram {n : Nat} {o : AwlOp} {r : OpEnd} {s : State} (hfail : ∀ c ∈ r.failing, 1120 ≤ c)
    (href : ∀ e ∈ r.refFailing, 1120 ≤ e.2) :
    bankOf (endProgram n o r s) n = dropOp o.order (if (bankOf s n).storageMode then setLevels o.row.toNat o.target.toNat (bankOf s n)
      else setPhysRow o.row.toNat (o.target.toNat % 2 ^ 1152) (bankOf s n)) := by
  have hcols : r.failing.filter (fun c => decide (c < 1120)) = [] := List.filter_eq_nil_iff.2 fun c hc => by simpa using hfail c hc
  have hrefs : r.refFailing.eraseDups.filter (fun e => decide (e.2 < 1120)) = [] :=
    List.filter_eq_nil_iff.2 fun e he => by simpa using href e (List.mem_eraseDups.1 he)
  simp [-Nat.reducePow, endProgram, hcols, hrefs, weakCells, weakRefs, bankOf_endOp]

/-! ## Top-up rows (R280, R297, R305) -/

theorem startOp_resuming_awl {n : Nat} {o : AwlOp} {s : State} (h : o.phase = .resuming) : (startOp n o s).awl = s.awl := by
  unfold startOp
  rw [h, if_pos (by rfl)]
  extract_lets sErase
  have herase : sErase.awl = s.awl := by unfold sErase; split <;> rfl
  exact herase

theorem resumeBank_awl (n : Nat) (s : State) : (resumeBank n s).awl = s.awl := by
  unfold resumeBank
  split
  next => rfl
  next o _ =>
    extract_lets sResuming p
    split
    next => exact startOp_resuming_awl rfl
    next => rfl

theorem endRun_awl (n : Nat) (run : Run) (s : State) : (endRun n run s).awl = s.awl := by
  unfold endRun
  extract_lets sSched sBump sSym
  have hbump : Only [.counters, .scheds] s sBump :=
    Only.step (bump_only ..) (by decide) (Only.ite (fun _ => Only.step (bump_only ..) (by decide) ((modSched_only ..).mono (by decide)))
      fun _ => (modSched_only ..).mono (by decide))
  have hsym : sSym.awl = s.awl := (Only.step (P := [.counters, .events, .held, .scheds, .out]) (refreshSymptoms_only n sBump) (by decide)
    (hbump.mono (by decide))).2 .awl (by decide)
  split
  next => rw [resumeBank_awl, hsym]
  next => exact hsym

theorem endTopUp_oneEntry {n : Nat} {o : AwlOp} {s : State} (r : OpEnd) (hn : bankExists s n = true) :
    OneEntry n o s (endTopUp n o r s) := by
  unfold endTopUp
  extract_lets sShown sEnd
  have hshown : sShown.awl.fifo = s.awl.fifo := by unfold sShown; split <;> rfl
  have hend : OneEntry n o s sEnd := oneEntry_endOp hn ((fifo_eq_of_only (bumpBy_only ..) (by decide)).trans hshown) (by decide)
  split
  next => exact hend
  next =>
    split
    next => exact hend
    next run _ =>
      split
      next => exact hend.same (congrArg Awl.fifo (endRun_awl ..))
      next =>
        extract_lets next sNext full ph p
        split
        next =>
          split
          next => exact hend.same (congrArg Awl.fifo (resumeBank_awl ..))
          next => exact hend.same rfl
        next => exact hend.same rfl

end Sys2Proof.Laws
end

section
/-! SUPPORT. The rows of Awl's operations: start, suspension, starvation and completion (R272, R282, R284, R285, R288). -/

namespace Sys2Proof.Laws

open Sys2Proof.Machine

theorem find?_eq_none_of {p : AwlOp → Bool} {l : List AwlOp} (h : ∀ o ∈ l, p o = false) : l.find? p = none :=
  List.find?_eq_none.2 fun o ho => by simp [h o ho]

section Rows

variable {n : Nat} {o : AwlOp} {s : State}

theorem execAwlOpStart_starts (hn : bankExists s n = true) (ho : (bankOf s n).ops.find? (fun o => opMayStart s n o) = some o) :
    execAwlOpStart n s = .next (startOp n o s) := by
  simp [execAwlOpStart, hn, ho]

theorem execAwlOpStart_wakes (hn : bankExists s n = true) (ho : ∀ o ∈ (bankOf s n).ops, opMayStart s n o = false) :
    execAwlOpStart n s = .next ((bankOf s n).ops.foldl (fun s o => bufferWake o s) s) := by
  simp [execAwlOpStart, hn, find?_eq_none_of ho]

/-! ## Suspension and starvation (R282, R284) -/

/-- The operation has stopped, and its bank shows it (R282). -/
def suspendedBank (o : AwlOp) (s : State) (b : Bank) : Bank :=
  { b with
    ops := b.ops.map fun p => if p.order = o.order then { p with phase := .suspended, suspendedAt := tideOf s } else p
    state := if o.kind = .eraseBank then .eraseSuspended else b.state }

/-- R282: the operation has stopped. -/
def opSuspended (n : Nat) (o : AwlOp) (s : State) : State :=
  let t := modOp n o.order (fun o => { o with phase := .suspended, suspendedAt := tideOf s }) s
  if o.kind = .eraseBank then setBankState n .eraseSuspended t else t

theorem opSuspended_step (n : Nat) (o : AwlOp) (s : State) :
    BankStep n (suspendedBank o s) s (opSuspended n o s) ∧ Only [.banks] s (opSuspended n o s) := by
  unfold opSuspended suspendedBank
  extract_lets t
  have hop : BankStep n (mapOp o.order fun o => { o with phase := .suspended, suspendedAt := tideOf s }) s t := bankStep_modBank ..
  have honly : Only [.banks] s t := modOp_only ..
  obtain ⟨hbank, hothers⟩ := hop
  split
  next =>
    refine ⟨⟨?_, fun k hk => (modBank_other _ _ hk).trans (hothers k hk)⟩, Only.step (setBankState_only ..) (by decide) honly⟩
    rw [setBankState, bankOf_modBank_self, hbank]
    rfl
  next => exact ⟨⟨hbank, hothers⟩, honly⟩

theorem execSuspendTakesEffect_stops (hn : bankExists s n = true)
    (ho : (bankOf s n).ops.find? (fun o => o.phase == .suspending) = some o) :
    execSuspendTakesEffect n s = .next (bump (ob 0x8032 1) (opSuspended n o s)) := by
  simp [execSuspendTakesEffect, hn, ho, opSuspended]

/-- The suspended time of an erase at its present suspend (R284). -/
def presentSuspend (o : AwlOp) (s : State) : Nat :=
  if o.phase = .suspended ∨ o.phase = .resuming then (tideOf s - o.suspendedAt).toNat else 0

/-- R284: the erase's one event has been raised and counted. -/
def starvedNoted (n : Nat) (o : AwlOp) (s : State) : State :=
  bump (ob 0x8031 1) (raise .eraseStarved 1 n (modOp n o.order (fun o => { o with starved := true }) s))

theorem execEraseStarvation_cases (hn : bankExists s n = true)
    (ho : (bankOf s n).ops.find? (fun o => o.kind == .eraseBank && !(o.phase == .queued)) = some o) (hfirst : o.starved = false) :
    execEraseStarvation n s =
      if dictNum s (ob 0x8030 1) * 1000000 < o.suspendedFor + presentSuspend o s then .next (starvedNoted n o s) else .next s := by
  simp [execEraseStarvation, hn, ho, hfirst, presentSuspend, starvedNoted]

theorem starvedNoted_spec (n : Nat) (o : AwlOp) (s : State) :
    BankStep n (mapOp o.order fun o => { o with starved := true }) s (starvedNoted n o s) ∧
    Raised .eraseStarved 1 n s (starvedNoted n o s) ∧
    counterOf (starvedNoted n o s) (ob 0x8031 1) = counterOf s (ob 0x8031 1) + 1 ∧
    Only [.counters, .events, .held, .banks, .out] s (starvedNoted n o s) := by
  let t := modOp n o.order (fun o => { o with starved := true }) s
  have hmark : Only [.banks] s t := modOp_only ..
  have hnoted : Only [.counters, .events, .held, .out] t (starvedNoted n o s) :=
    Only.step (bump_only ..) (by decide) ((raise_only ..).mono (by decide))
  obtain ⟨hbank, hothers⟩ : BankStep n (mapOp o.order fun o => { o with starved := true }) s t := bankStep_modBank ..
  have hbanks : (starvedNoted n o s).banks = t.banks := hnoted.2 .banks (by decide)
  refine ⟨⟨?_, fun k hk => ?_⟩, ?_, ?_, Only.step hnoted (by decide) (hmark.mono (by decide))⟩
  · rw [hnoted.bankOf_eq (by decide), hbank]
  · rw [hbanks, hothers k hk]
  · exact raised_bump (by decide) (hmark.raised (by decide) (by decide) (raised_raise ..))
  · rw [starvedNoted, counterOf_bump_self, counterOf_raise (by decide) (by decide), hmark.counterOf_eq (by decide)]

/-! ## Completion (R285, R288) -/

section Complete

variable {r : OpEnd}

theorem execAwlOpComplete_paused (hn : bankExists s n = true) (ho : (bankOf s n).ops.find? opRunning = some o)
    (hp : (s.awl.paused && opPumps o.kind) = true) : execAwlOpComplete n r s = .next s := by
  simp [execAwlOpComplete, hn, ho, hp]

theorem execAwlOpComplete_waits (hn : bankExists s n = true) (ho : (bankOf s n).ops.find? opRunning = some o)
    (hk : o.kind = .readRow) (hw : runWaits s (bufferRun o).1 512 = true) :
    execAwlOpComplete n r s = .next (runWake (bufferRun o).1 512 s) := by
  simp [execAwlOpComplete, hn, ho, hk, opPumps, show runWaits s (bufferRun o).1 (bufferRun o).2 = true from hw]
  rfl

/-- The state in which an operation that may end has ended. -/
def opEnded (n : Nat) (o : AwlOp) (r : OpEnd) (s : State) : State :=
  match o.kind with
  | .programRow => endProgram n o r s
  | .programWord => endProgram n o r s
  | .eraseBank => endErase n o s
  | .topUpRow => endTopUp n o r s
  | .readRow => endRead n o s
  | .readMargin => endMargin n o r s

theorem execAwlOpComplete_ends (hn : bankExists s n = true) (ho : (bankOf s n).ops.find? opRunning = some o)
    (hp : ¬(s.awl.paused && opPumps o.kind) = true) (hw : ¬(o.kind = .readRow ∧ runWaits s (bufferRun o).1 512 = true)) :
    execAwlOpComplete n r s = .next (opEnded n o r s) := by
  rw [execAwlOpComplete, ho]
  dsimp only
  rw [if_neg (by simp [hn]), if_neg hp]
  unfold opEnded
  cases hk : o.kind
  case readRow => exact if_neg fun h => hw ⟨hk, h⟩
  all_goals rfl

theorem opEnded_oneEntry (hn : bankExists s n = true) : OneEntry n o s (opEnded n o r s) := by
  unfold opEnded
  cases o.kind
  case programRow | programWord => exact endProgram_oneEntry r hn
  case eraseBank => exact (endErase_spec hn).1
  case topUpRow => exact endTopUp_oneEntry r hn
  case readRow => exact endRead_oneEntry hn
  case readMargin => exact endMargin_oneEntry r hn

end Complete

end Rows

/-! ## The obligation -/

/-- Settles O47: an operation command has one verdict; its start is followed through the small updates of Awl, which leave other banks
and the order alone; an operation that ends posts one entry, whatever its kind. -/
theorem awlOperations : Obligations.AwlOperations := by
  refine ⟨?commands, ?plain, fun n s => execAwlOpStart_wakes, ?suspend, ?complete, ?nothing, ?starve⟩
  case commands =>
    intro i ch s hcore hunlock n b row word refused accepted fault
    have hbyte : ∀ k, unlocked i ch s (operationCmd ch k) = .next (operationCmd ch k (relocked ch s)) := fun k =>
      unlocked_relocked _ hcore hunlock
    have hrefused : ∀ x k e, exec x s = .next (operationCmd ch k (relocked ch s)) → fault k = some e → refused x e := by
      intro x k e hx he
      have hverdict := operationCmd_verdict ch k s
      rw [show opFault ch k s = some e from he] at hverdict
      exact ⟨_, hx, hverdict⟩
    have haccepted : ∀ x k, exec x s = .next (operationCmd ch k (relocked ch s)) → fault k = none → Completes x s (accepted k) := by
      intro x k hx he
      have hverdict := operationCmd_verdict ch k s
      rw [show opFault ch k s = none from he] at hverdict
      obtain ⟨horder, hlast, hidle, hothers, hcases⟩ := acceptedCmd_spec he
      rw [show operationCmd ch k (relocked ch s) = acceptedCmd ch k s from hverdict] at hx
      exact ⟨_, hx, horder, hlast, hidle, hothers, (acceptedCmd_only ch k s).mono (by decide), hcases⟩
    refine ⟨?refused, fun h => haccepted _ _ (hbyte _) h, fun h => haccepted _ _ (hbyte _) h, fun h => haccepted _ _ (hbyte _) h,
      fun h => haccepted _ _ (hbyte _) h, fun h => haccepted _ _ (hbyte _) h, fun h => haccepted _ _ (hbyte _) h⟩
    simp only [List.forall_mem_cons]
    exact ⟨fun e => hrefused _ _ e (hbyte _), fun e => hrefused _ _ e (hbyte _), fun e => hrefused _ _ e (hbyte _),
      fun e => hrefused _ _ e (hbyte _), fun e => hrefused _ _ e (hbyte _), fun e => hrefused _ _ e (hbyte _), by simp⟩
  case plain =>
    intro n o s hn ho hk hok hq
    have hexec : exec (.awlOpStart n) s = .next (startOp n o s) := execAwlOpStart_starts hn ho
    rw [startOp_plain hq hok hk] at hexec
    exact ⟨_, hexec, bankStep_modBank .., modBank_only ..⟩
  case suspend =>
    intro n o s hn ho
    obtain ⟨⟨hbank, hothers⟩, honly⟩ := opSuspended_step n o s
    refine ⟨_, execSuspendTakesEffect_stops hn ho, ⟨hbank, hothers⟩, ?_, Only.step (bump_only ..) (by decide) (honly.mono (by decide))⟩
    rw [counterOf_bump_self, honly.counterOf_eq (by decide)]
  case complete =>
    intro n r o s hn ho
    split
    next hp => exact execAwlOpComplete_paused hn ho hp
    next hp =>
    split
    next hw => exact execAwlOpComplete_waits hn ho hw.1 hw.2
    next hw =>
    have hexec : exec (.awlOpComplete n r) s = .next (opEnded n o r s) := execAwlOpComplete_ends hn ho hp hw
    refine ⟨_, hexec, opEnded_oneEntry hn, execAwlOpComplete_only n r s _ hexec, fun hk => ?erase, fun hk hfail href => ?program,
      fun hk hstopped hstate => ?read⟩
    case erase =>
      have hbank := (endErase_spec (o := o) hn).2
      simp only [opEnded, hk, hbank]
      exact ⟨rfl, rfl, rfl, rfl⟩
    case program =>
      have hbank := bankOf_endProgram (n := n) (o := o) (s := s) hfail href
      have hend : opEnded n o r s = endProgram n o r s := by rcases hk with hk | hk <;> simp only [opEnded, hk]
      rw [hend, hbank]
      split <;> rfl
    case read =>
      have hend : opEnded n o r s = endRead n o s := by simp only [opEnded, hk]
      rw [hend]
      exact endRead_hbr hstopped hstate
  case nothing =>
    intro n r s hn ho
    show execAwlOpComplete n r s = _
    simp [execAwlOpComplete, hn, find?_eq_none_of ho]
  case starve =>
    intro n o s hn ho hfirst now
    have hexec : exec (.eraseStarvation n) s = _ := execEraseStarvation_cases hn ho hfirst
    split
    next hlate => exact ⟨_, hexec.trans (if_pos hlate), starvedNoted_spec n o s⟩
    next hsoon => exact hexec.trans (if_neg hsoon)

end Sys2Proof.Laws
end

section
/-! SUPPORT. Cobbler's routine upkeep of a bank: due bits, symptoms, the floor and the events that they raise (R56, R296, R315). -/

namespace Sys2Proof.Laws

open Sys2Proof.Machine

/-- A bank's maintenance record without what routine upkeep refreshes: due bits of top-ups, times since, symptoms, the floor. -/
def upkept (d : Sched) : Sched :=
  { d with
    dueTopup := false, dueFloor := false, dueForced := false, sinceTopup := none, sinceKs := none, sinceRebuild := none
    symRate := false, symMargin := false, symMismatch := false, symSpares := false, symPastLife := false, symWorn := false
    postMargin := 0, afterTopup := false, run := none, belowSince := none, belowFor := 0 }

/-- A bank's record without its operations, which upkeep may mark as a floor top-up's (R243). -/
def noOps (b : Bank) : Bank := { b with ops := [] }

/-- Counters that events and failures move on the side: lost and suppressed events, failures in a dip, late measurements. -/
def sideCounters : List Nat := [ob 0x9043 1, ob 0x9041 4, ob 0x8048 1, ob 0x8015 1]

/-- From `s` to `t`, bank `n` has had routine upkeep alone: no other bank has changed, and no counter but the side counters. -/
structure Upkeep (n : Nat) (s t : State) : Prop where
  sched : upkept (schedOf t n) = upkept (schedOf s n)
  bank : noOps (bankOf t n) = noOps (bankOf s n)
  others : ∀ k, k ≠ n → tget? t.banks k = tget? s.banks k
  counters : ∀ c, c ∉ sideCounters → counterOf t c = counterOf s c

namespace Upkeep

variable {n : Nat} {s t u : State}

theorem refl (n : Nat) (s : State) : Upkeep n s s := ⟨rfl, rfl, fun _ _ => rfl, fun _ _ => rfl⟩

theorem trans (h : Upkeep n s t) (k : Upkeep n t u) : Upkeep n s u :=
  ⟨k.sched.trans h.sched, k.bank.trans h.bank, fun j hj => (k.others j hj).trans (h.others j hj),
    fun c hc => (k.counters c hc).trans (h.counters c hc)⟩

/-- A frame without banks and maintenance records, which moves no counter but the side counters. -/
theorem of_counts {P : List Part} (h : Only P s t) (hb : Part.banks ∉ P) (hs : Part.scheds ∉ P)
    (hc : ∀ c, c ∉ sideCounters → counterOf t c = counterOf s c) : Upkeep n s t := by
  have hbanks : t.banks = s.banks := h.2 .banks hb
  have hscheds : t.scheds = s.scheds := h.2 .scheds hs
  exact ⟨by rw [schedOf, hscheds, schedOf], by rw [h.bankOf_eq hb], fun _ _ => by rw [hbanks], hc⟩

theorem of_only {P : List Part} (h : Only P s t) (hb : Part.banks ∉ P) (hs : Part.scheds ∉ P) (hc : Part.counters ∉ P) :
    Upkeep n s t := of_counts h hb hs fun c _ => h.counterOf_eq hc c

theorem modSched {f : Sched → Sched} (hf : ∀ d, upkept (f d) = upkept d) (n : Nat) (s : State) : Upkeep n s (Machine.modSched n f s) :=
  ⟨by rw [schedOf_modSched_self]; exact hf _, rfl, fun _ _ => rfl, fun _ _ => rfl⟩

theorem withModel (n : Nat) (s : State) (m : Model) : Upkeep n s { s with model := m } := ⟨rfl, rfl, fun _ _ => rfl, fun _ _ => rfl⟩

theorem raise (name : EventName) (k u : Nat) (n : Nat) (s : State) : Upkeep n s (Machine.raise name k u s) := by
  refine of_counts (raise_only ..) (by decide) (by decide) fun c hc => counterOf_raise ?_ ?_ ..
  all_goals rintro rfl; exact hc (by decide)

theorem ite {c : Prop} [Decidable c] (ht : c → Upkeep n s t) (hu : ¬c → Upkeep n s u) : Upkeep n s (if c then t else u) := by
  split
  next h => exact ht h
  next h => exact hu h

theorem noteFloor (n : Nat) (s : State) : Upkeep n s (Machine.noteFloor n s) := by
  have hnoted : ∀ f : Sched → Sched, (∀ d, upkept (f d) = upkept d) →
      Upkeep n s (Machine.raise .belowFloor 1 n (Machine.modSched n f s)) := fun f hf => (modSched hf n s).trans (raise ..)
  unfold Machine.noteFloor
  split
  next => exact ite (fun _ => hnoted _ (by intro; rfl)) fun _ => refl n s
  next => exact ite (fun _ => refl n s) fun _ => hnoted _ (by intro; rfl)

theorem floorNow (n : Nat) (s : State) : Upkeep n s (Machine.floorNow n s) := by
  refine (modSched (by intro; rfl) n s).trans ⟨rfl, ?_, fun k hk => modBank_other _ _ hk, fun _ _ => rfl⟩
  unfold Machine.floorNow
  rw [bankOf_modBank_self]
  rfl

theorem refreshDue (n : Nat) (s : State) : Upkeep n s (Machine.refreshDue n s) := by
  unfold Machine.refreshDue
  extract_lets due floor sNoted sFloor
  have hnoted : Upkeep n s sNoted := (modSched (by intro; rfl) n s).trans (noteFloor ..)
  have hfloor : Upkeep n s sFloor := ite (fun _ => hnoted.trans (floorNow ..)) fun _ => hnoted
  exact ite (fun _ => hfloor) fun _ => hfloor.trans (of_only (dropCover_only ..) (by decide) (by decide) (by decide))

theorem setSymptom {put : Sched → Sched} (hput : ∀ d, upkept (put d) = upkept d) (n k : Nat) (was now : Bool) (s : State) :
    Upkeep n s (Machine.setSymptom n k was now put s) := by
  unfold Machine.setSymptom
  extract_lets sPut
  have hsym : Upkeep n s sPut := modSched hput n s
  exact ite (fun _ => hsym.trans (raise ..)) fun _ => hsym

theorem refreshSymptoms (n : Nat) (s : State) : Upkeep n s (Machine.refreshSymptoms n s) := by
  unfold Machine.refreshSymptoms
  extract_lets b d full rate mis spares sRate sMis sSpares
  have hrate : Upkeep n s sRate := setSymptom (by intro; rfl) ..
  have hmis : Upkeep n sRate sMis := setSymptom (by intro; rfl) ..
  have hspares : Upkeep n sMis sSpares := setSymptom (by intro; rfl) ..
  exact ((hrate.trans hmis).trans hspares).trans (modSched (by intro; rfl) ..)

theorem setPostMargin (n m : Nat) (s : State) : Upkeep n s (Machine.setPostMargin n m s) := setSymptom (by intro; rfl) ..

end Upkeep

/-! ## Failures and events on the side -/

theorem counterOf_countFailure {c : Nat} (hc : c ∉ sideCounters) (k : UnitKind) (n : Nat) (s : State) :
    counterOf (countFailure k n s).1 c = counterOf s c := by
  unfold countFailure
  split
  next => exact counterOf_bump_ne (by rintro rfl; exact hc (by decide)) s
  next =>
    extract_lets h
    split
    next => rfl
    next => rfl

theorem Upkeep.columnFailure (n k c : Nat) (s : State) : Upkeep n s (Machine.columnFailure k c s) := by
  unfold Machine.columnFailure
  split
  next sCounted perm hcount =>
    have hcounted : Upkeep n s sCounted := by
      have honly := countFailure_only .column (columnUnit k c) s
      have hcounters := fun j hj => counterOf_countFailure (c := j) hj .column (columnUnit k c) s
      rw [hcount] at honly hcounters
      exact .of_counts honly (by decide) (by decide) hcounters
    exact .ite (fun _ => hcounted.trans (.raise ..)) fun _ => hcounted

theorem Upkeep.flagBank (n k : Nat) (s : State) : Upkeep n s (Machine.flagBank k s) := by
  refine List.foldlRecOn _ _ (.refl n s) fun t ht e _ => ht.trans ?_
  unfold flagRefetch
  split
  next k img hfind =>
    extract_lets img'
    exact (Upkeep.withModel n t _).trans (.raise ..)
  next => exact .refl ..

end Sys2Proof.Laws
end

section
/-! SUPPORT. What a full known-sum test leaves in the bank and in its maintenance record (R59, R72, R299, R309, R310). -/

namespace Sys2Proof.Laws

open Sys2Proof.Machine

/-! ## What a measurement has recorded stays -/

/-- From `s` to `t`, what the measurement of bank `n` has recorded stands: its marks in the maintenance record, the trim codes, and
every counter but the side counters. -/
structure Recorded (n : Nat) (s t : State) : Prop where
  dueKs : (schedOf t n).dueKs = (schedOf s n).dueKs
  measuredAt : (schedOf t n).measuredAt = (schedOf s n).measuredAt
  testedAt : (schedOf t n).testedAt = (schedOf s n).testedAt
  calib : (schedOf t n).calib = (schedOf s n).calib
  trims : (bankOf t n).trims = (bankOf s n).trims
  counters : ∀ c, c ∉ sideCounters → counterOf t c = counterOf s c

theorem Upkeep.recorded {n : Nat} {s t : State} (h : Upkeep n s t) : Recorded n s t :=
  ⟨(congrArg Sched.dueKs h.sched :), (congrArg Sched.measuredAt h.sched :), (congrArg Sched.testedAt h.sched :),
    (congrArg Sched.calib h.sched :), (congrArg Bank.trims h.bank :), h.counters⟩

namespace Recorded

variable {n : Nat} {s t u : State}

theorem refl (n : Nat) (s : State) : Recorded n s s := (Upkeep.refl n s).recorded

theorem trans (h : Recorded n s t) (k : Recorded n t u) : Recorded n s u :=
  ⟨k.dueKs.trans h.dueKs, k.measuredAt.trans h.measuredAt, k.testedAt.trans h.testedAt, k.calib.trans h.calib,
    k.trims.trans h.trims, fun c hc => (k.counters c hc).trans (h.counters c hc)⟩

theorem ite {c : Prop} [Decidable c] (ht : c → Recorded n s t) (hu : ¬c → Recorded n s u) : Recorded n s (if c then t else u) := by
  split
  next h => exact ht h
  next h => exact hu h

/-- A change of a maintenance record that leaves the marks of the measurement. -/
theorem modSched {f : Sched → Sched} (hf : ∀ d, (f d).dueKs = d.dueKs ∧ (f d).measuredAt = d.measuredAt ∧ (f d).testedAt = d.testedAt ∧
    (f d).calib = d.calib) (n k : Nat) (s : State) : Recorded n s (Machine.modSched k f s) := by
  have hsched : schedOf (Machine.modSched k f s) n = if n = k then f (schedOf s k) else schedOf s n := schedOf_modSched ..
  obtain ⟨hdue, hmeasured, htested, hcalib⟩ := hf (schedOf s k)
  split at hsched
  next h => subst h; exact ⟨by rw [hsched, hdue], by rw [hsched, hmeasured], by rw [hsched, htested], by rw [hsched, hcalib], rfl, fun _ _ => rfl⟩
  next => exact ⟨by rw [hsched], by rw [hsched], by rw [hsched], by rw [hsched], rfl, fun _ _ => rfl⟩

theorem modBank {f : Bank → Bank} (n k : Nat) (s : State) (hf : n = k → (f (bankOf s k)).trims = (bankOf s k).trims) :
    Recorded n s (Machine.modBank k f s) := by
  refine ⟨rfl, rfl, rfl, rfl, ?_, fun _ _ => rfl⟩
  rw [bankOf_modBank]
  split
  next h => subst h; exact hf rfl
  next => rfl

theorem markRetired (n k : Nat) (s : State) : Recorded n s (Machine.markRetired k s) := by
  have hstate : Recorded n s (setBankState k .retired s) := modBank n k s fun _ => rfl
  exact (hstate.trans (Upkeep.raise ..).recorded).trans (Upkeep.raise ..).recorded

theorem retireArray (n a : Nat) (s : State) : Recorded n s (Machine.retireArray a s) :=
  List.foldlRecOn _ _ (refl n s) fun t ht k _ => ite (fun _ => ht) fun _ => ht.trans (markRetired n k t)

theorem arrayFailure (n k : Nat) (s : State) : Recorded n s (Machine.arrayFailure k s) := by
  unfold Machine.arrayFailure
  extract_lets a
  split
  next sCounted perm hcount =>
    have hcounted : Recorded n s sCounted := by
      have honly := countFailure_only .array a s
      have hcounters := fun j hj => counterOf_countFailure (c := j) hj .array a s
      rw [hcount] at honly hcounters
      exact (Upkeep.of_counts honly (by decide) (by decide) hcounters).recorded
    exact ite (fun _ => (hcounted.trans (Upkeep.raise ..).recorded).trans (retireArray ..)) fun _ => hcounted

end Recorded

/-! ## Spares and programs leave the trim codes -/

theorem failSpare_keeps (c : Nat) (b : Bank) : (failSpare c b).trims = b.trims ∧ (failSpare c b).state = b.state := by
  unfold failSpare
  split <;> exact ⟨rfl, rfl⟩

theorem remapColumn_keeps (c : Nat) (b : Bank) : (remapColumn c b).1.trims = b.trims ∧ (remapColumn c b).1.state = b.state := by
  unfold remapColumn
  extract_lets b'
  split <;> exact failSpare_keeps c b

theorem remapColumns_keeps (cols : List Nat) (b : Bank) :
    (remapColumns cols b).1.trims = b.trims ∧ (remapColumns cols b).1.state = b.state :=
  List.foldlRecOn (motive := fun p : Bank × Bool => p.1.trims = b.trims ∧ p.1.state = b.state) _ _ ⟨rfl, rfl⟩ fun p ⟨htrims, hstate⟩ c _ => by
    obtain ⟨ht, hs⟩ := remapColumn_keeps c p.1
    exact ⟨ht.trans htrims, hs.trans hstate⟩

theorem programAgain_trims (rows : List (Nat × Nat)) (b : Bank) : (programAgain rows b).trims = b.trims :=
  List.foldlRecOn (motive := fun x : Bank => x.trims = b.trims) _ _ rfl fun x h e _ => by
    dsimp only
    split <;> exact h

theorem Recorded.spareRemap (n row vec : Nat) (cols : List Nat) (s : State) : Recorded n s (Machine.spareRemap n row vec cols s) := by
  unfold Machine.spareRemap
  extract_lets b rows
  split
  next b' ok hremap =>
    have htrims : b'.trims = b.trims := by have := (remapColumns_keeps cols b).1; rwa [hremap] at this
    have hagain : Recorded n s (Machine.modBank n (fun _ => programAgain rows b') s) :=
      .modBank n n s fun _ => (programAgain_trims rows b').trans htrims
    exact .ite (fun _ => hagain.trans (Upkeep.refreshSymptoms ..).recorded) fun _ =>
      (Recorded.modBank n n s fun _ => htrims).trans (.markRetired ..)

/-! ## The parts of a full test -/

theorem Recorded.eraseAndAgain (n : Nat) (s : State) : Recorded n s (Machine.eraseAndAgain n s) :=
  (Recorded.modBank n n s (by intro; rfl)).trans (Upkeep.refreshSymptoms ..).recorded

theorem Recorded.dropMove (n : Nat) (s : State) : Recorded n s (Machine.dropMove n s) := by
  unfold Machine.dropMove
  refine .ite (fun _ => .refl n s) fun _ => ?_
  extract_lets sMove
  have hmove : Recorded n s sMove := by
    unfold sMove
    split
    next k _ => exact .modSched (by intro; exact ⟨rfl, rfl, rfl, rfl⟩) n k s
    next => exact .refl n s
  exact (hmove.trans (.modSched (by intro; exact ⟨rfl, rfl, rfl, rfl⟩) n n sMove)).trans (.modBank n n _ (by intro; rfl))

/-- A margin index measured now and its stamps (R55, R299). -/
def marginStored (n m : Nat) (s : State) : State :=
  modBank n (fun b => { b with margin := m, marginPcycle := BitVec.ofNat 32 (pcycleOf s), marginTide := tideOf s }) s

theorem setMargin_upkeep (n m : Nat) (s : State) : Upkeep n (marginStored n m s) (setMargin n m s) :=
  (Upkeep.noteFloor n (marginStored n m s)).trans (.of_only (sample_only ..) (by decide) (by decide) (by decide))

/-- A passing test records its margin index, with routine upkeep (R299). -/
theorem testPassed_upkeep (n : Nat) (r : KsResult) (s : State) :
    Upkeep n (marginStored n (marginIndex (ksDeviation r)) s) (testPassed n r s) := by
  unfold testPassed
  extract_lets m post sMargin sPost
  have hmargin : Upkeep n (marginStored n m s) sMargin := setMargin_upkeep n m s
  have hpost : Upkeep n (marginStored n m s) sPost := .ite (fun _ => hmargin.trans (.setPostMargin ..)) fun _ => hmargin
  exact (hpost.trans (.of_only (dipPassed_only ..) (by decide) (by decide) (by decide))).trans (.refreshDue ..)

theorem Recorded.testPassed (n : Nat) (r : KsResult) (s : State) : Recorded n s (Machine.testPassed n r s) :=
  (Recorded.modBank n n s (by intro; rfl)).trans (testPassed_upkeep n r s).recorded

theorem Recorded.sealTest (n : Nat) (r : KsResult) (k : KsReport) (s : State) : Recorded n s (Machine.sealTest n r k s) := by
  unfold Machine.sealTest
  refine .ite (fun _ => ?named) fun _ => .ite (fun _ => ?unnamed) fun _ => ?passed
  case named =>
    extract_lets row sFailed
    have hmark : Recorded n s (Machine.modBank n (fun b => { b with suspect := true }) s) := .modBank n n s fun _ => rfl
    have hfailed : Recorded n s sFailed := List.foldlRecOn _ _ hmark fun t ht c _ => ht.trans (Upkeep.columnFailure ..).recorded
    exact (hfailed.trans (.spareRemap ..)).trans (.dropMove ..)
  case unnamed =>
    refine .ite (fun _ => (Recorded.modSched (by intro; exact ⟨rfl, rfl, rfl, rfl⟩) n n s).trans (.eraseAndAgain ..)) fun _ => ?_
    extract_lets a h
    have hperm : Recorded n s (setHistory .array a { h with permanent := true } s) := ⟨rfl, rfl, rfl, rfl, rfl, fun _ _ => rfl⟩
    exact ((hperm.trans (Upkeep.raise ..).recorded).trans (.retireArray ..)).trans (.dropMove ..)
  case passed =>
    exact ((Recorded.modBank n n s (by intro; rfl)).trans (.testPassed ..)).trans (.modSched (by intro; exact ⟨rfl, rfl, rfl, rfl⟩) n n _)

/-! ## A test of a sealed bank (R310) -/

/-- One column's report: one more in the record of failing columns (R59, R310). -/
theorem reportColumn_upkeep (n c : Nat) (s : State) :
    Upkeep n (modSched n (fun d => { d with failing := tmod d.failing c 0 fun k => k + 1 }) s) (reportColumn n c s) := .columnFailure ..

theorem mem_tkeys_tset {α : Type} (t : Tab α) (n k : Nat) (v : α) : k ∈ tkeys (tset t n v) ↔ k = n ∨ k ∈ tkeys t := by
  induction t with
  | nil => simp [tset, tkeys]
  | cons e t ih =>
    obtain ⟨j, w⟩ := e
    simp only [tkeys] at ih
    rcases lt_trichotomy n j with h | rfl | h
    · simp [tset, tkeys, h]
    · simp [tset, tkeys]
    · simp [tset, tkeys, h.not_gt, h.ne', ih, or_left_comm]

/-- The columns reported are among the failing ones; the rest of the maintenance record and the bank have had upkeep alone. -/
theorem reportColumns_spec (n : Nat) (cols : List Nat) (s : State) :
    let t := cols.foldl (fun s c => reportColumn n c s) s
    (∀ c ∈ cols, c ∈ tkeys (schedOf t n).failing) ∧ (∀ c ∈ tkeys (schedOf s n).failing, c ∈ tkeys (schedOf t n).failing) ∧
    upkept { schedOf t n with failing := [] } = upkept { schedOf s n with failing := [] } ∧ noOps (bankOf t n) = noOps (bankOf s n) ∧
    Recorded n s t := by
  induction cols generalizing s with
  | nil => exact ⟨nofun, fun _ h => h, rfl, rfl, .refl n s⟩
  | cons c cols ih =>
    obtain ⟨hnew, hold, hsched, hbank, hrec⟩ := ih (reportColumn n c s)
    have hone := reportColumn_upkeep n c s
    have hfailing : (schedOf (reportColumn n c s) n).failing = tmod (schedOf s n).failing c 0 fun k => k + 1 := by
      have := congrArg Sched.failing hone.sched
      rw [schedOf_modSched_self] at this
      exact this
    have hrest : upkept { schedOf (reportColumn n c s) n with failing := [] } = upkept { schedOf s n with failing := [] } := by
      have := congrArg (fun d : Sched => { d with failing := [] }) hone.sched
      rw [schedOf_modSched_self] at this
      exact this
    have hkeys : ∀ j, j ∈ tkeys (schedOf (reportColumn n c s) n).failing ↔ j = c ∨ j ∈ tkeys (schedOf s n).failing := fun j => by
      rw [hfailing, tmod, mem_tkeys_tset]
    refine ⟨List.forall_mem_cons.2 ⟨hold c ((hkeys c).2 (.inl rfl)), hnew⟩, fun j hj => hold j ((hkeys j).2 (.inr hj)),
      hsched.trans hrest, hbank.trans hone.bank, ?_⟩
    exact ((Recorded.modSched (by intro; exact ⟨rfl, rfl, rfl, rfl⟩) n n s).trans hone.recorded).trans hrec

end Sys2Proof.Laws
end

section
/-! SUPPORT. The outcomes of a full known-sum test (R59, R72, R299, R309, R310). -/

namespace Sys2Proof.Laws

open Sys2Proof.Machine

/-! ## A test of a sealed bank (R310) -/

section Service

variable {n : Nat} {r : KsResult} {k : KsReport} {s : State}

/-- R310: the classification opens, unless it is open. -/
def classified (n : Nat) (s : State) : State :=
  if 0 < (schedOf s n).retests then s else raise .columnFailing 1 n (modSched n (fun d => { d with retests := 2 }) s)

/-- The columns that a test names are reported, and the bank is suspect (R59). -/
def columnsReported (n : Nat) (cols : List Nat) (s : State) : State :=
  modBank n (fun b => { b with suspect := true })
    (cols.foldl (fun s c => reportColumn n c s) (modSched n (fun d => { d with afterRecompute := false }) s))

theorem columnsReported_retests (n : Nat) (cols : List Nat) (s : State) :
    (schedOf (columnsReported n cols s) n).retests = (schedOf s n).retests := by
  obtain ⟨-, -, hsched, -⟩ := reportColumns_spec n cols (modSched n (fun d => { d with afterRecompute := false }) s)
  rw [schedOf_modSched_self] at hsched
  exact (congrArg Sched.retests hsched :)

/-- A test that names columns: they are reported, the classification is open, and the rest is upkeep. -/
theorem serviceTest_named (hcols : k.cols ≠ []) :
    Upkeep n (classified n (columnsReported n k.cols s)) (serviceTest n r k s) := by
  have hretests := columnsReported_retests n k.cols s
  unfold serviceTest
  extract_lets after sAfter open_ sReports sSuspect sOpen sFlagged
  rw [if_pos hcols]
  have hopen : sOpen = classified n (columnsReported n k.cols s) := by
    unfold classified
    rw [hretests, columnsReported]
    simp [sOpen, open_, sSuspect, sReports, sAfter]
  have hflagged : Upkeep n sOpen sFlagged := .ite (fun _ => .flagBank ..) fun _ => .refl ..
  rw [← hopen]
  exact hflagged.trans (.refreshDue ..)

theorem serviceTest_unnamed (hcols : k.cols = []) : serviceTest n r k s =
    let t := modSched n (fun d => { d with afterRecompute := false }) s
    let u := if k.unnamed then t else testPassed n r t
    if (schedOf s n).afterRecompute || k.unnamed then arrayFailure n u else u := by
  simp [serviceTest, hcols]

theorem classified_spec (n : Nat) (s : State) : bankOf (classified n s) n = bankOf s n ∧
    (schedOf (classified n s) n).failing = (schedOf s n).failing ∧
    (schedOf (classified n s) n).retests = (if 0 < (schedOf s n).retests then (schedOf s n).retests else 2) ∧
    Recorded n s (classified n s) := by
  unfold classified
  split
  next h => exact ⟨rfl, rfl, rfl, .refl n s⟩
  next h =>
    let t := modSched n (fun d => { d with retests := 2 }) s
    have hsched : schedOf t n = { schedOf s n with retests := 2 } := schedOf_modSched_self ..
    have hraise : Upkeep n t (raise .columnFailing 1 n t) := .raise ..
    refine ⟨(raise_only .columnFailing 1 n t).bankOf_eq (by decide) n, ?_, ?_, ?_⟩
    · have hfailing : (schedOf t n).failing = (schedOf s n).failing := by rw [hsched]
      exact (congrArg Sched.failing hraise.sched :).trans hfailing
    · have hretests : (schedOf t n).retests = 2 := by rw [hsched]
      exact (congrArg Sched.retests hraise.sched :).trans hretests
    · exact (Recorded.modSched (by intro; exact ⟨rfl, rfl, rfl, rfl⟩) n n s).trans hraise.recorded

theorem columnsReported_spec (n : Nat) (cols : List Nat) (s : State) : (bankOf (columnsReported n cols s) n).suspect = true ∧
    (bankOf (columnsReported n cols s) n).margin = (bankOf s n).margin ∧
    (∀ c ∈ cols, c ∈ tkeys (schedOf (columnsReported n cols s) n).failing) ∧ Recorded n s (columnsReported n cols s) := by
  let t := modSched n (fun d => { d with afterRecompute := false }) s
  have hstart : Recorded n s t := .modSched (by intro; exact ⟨rfl, rfl, rfl, rfl⟩) n n s
  obtain ⟨hnew, -, -, hbank, hrec⟩ := reportColumns_spec n cols t
  have hmargin := congrArg Bank.margin hbank
  unfold columnsReported
  rw [bankOf_modBank_self]
  exact ⟨rfl, hmargin, hnew, (hstart.trans hrec).trans (.modBank n n _ (by intro; rfl))⟩

theorem serviceTest_names (hcols : k.cols ≠ []) : (bankOf (serviceTest n r k s) n).suspect = true ∧
    (bankOf (serviceTest n r k s) n).margin = (bankOf s n).margin ∧
    (schedOf (serviceTest n r k s) n).retests = (if 0 < (schedOf s n).retests then (schedOf s n).retests else 2) ∧
    (∀ c ∈ k.cols, c ∈ tkeys (schedOf (serviceTest n r k s) n).failing) ∧ Recorded n s (serviceTest n r k s) := by
  have hrest := serviceTest_named (n := n) (r := r) (s := s) hcols
  obtain ⟨hbank, hfailing, hretests, hclassified⟩ := classified_spec n (columnsReported n k.cols s)
  obtain ⟨hsuspect, hmargin, hnew, hreported⟩ := columnsReported_spec n k.cols s
  rw [columnsReported_retests] at hretests
  have hfailing' := (congrArg Sched.failing hrest.sched : _).trans hfailing
  refine ⟨?_, ?_, ?_, ?_, (hreported.trans hclassified).trans hrest.recorded⟩
  · exact (congrArg Bank.suspect hrest.bank : _).trans ((congrArg Bank.suspect hbank).trans hsuspect)
  · exact (congrArg Bank.margin hrest.bank : _).trans ((congrArg Bank.margin hbank).trans hmargin)
  · exact (congrArg Sched.retests hrest.sched : _).trans hretests
  · intro c hc
    rw [show (schedOf (serviceTest n r k s) n).failing = _ from hfailing']
    exact hnew c hc

theorem arrayFailure_sched (m : Nat) (s : State) : schedOf (arrayFailure m s) n = schedOf s n := by
  have hscheds : (arrayFailure m s).scheds = s.scheds := (arrayFailure_only m s).2 .scheds (by decide)
  rw [schedOf, hscheds, schedOf]

/-- A test that names no column records what it measured, and leaves an open classification (R310). -/
theorem serviceTest_noColumn (hcols : k.cols = []) : Recorded n s (serviceTest n r k s) ∧
    (schedOf (serviceTest n r k s) n).retests = (schedOf s n).retests := by
  rw [serviceTest_unnamed hcols]
  extract_lets t u
  have hstart : Recorded n s t := .modSched (by intro; exact ⟨rfl, rfl, rfl, rfl⟩) n n s
  have hsched : (schedOf t n).retests = (schedOf s n).retests := by
    rw [show schedOf t n = _ from schedOf_modSched_self ..]
  have hpassed : (schedOf (testPassed n r t) n).retests = (schedOf t n).retests :=
    (congrArg Sched.retests (testPassed_upkeep n r t).sched :)
  have hu : Recorded n s u ∧ (schedOf u n).retests = (schedOf s n).retests := by
    unfold u
    split
    next => exact ⟨hstart, hsched⟩
    next => exact ⟨hstart.trans (.testPassed ..), hpassed.trans hsched⟩
  obtain ⟨hrec, hretests⟩ := hu
  split
  next => exact ⟨hrec.trans (.arrayFailure ..), by rw [arrayFailure_sched]; exact hretests⟩
  next => exact ⟨hrec, hretests⟩

theorem Recorded.serviceTest (n : Nat) (r : KsResult) (k : KsReport) (s : State) : Recorded n s (Machine.serviceTest n r k s) := by
  by_cases hcols : k.cols = []
  · exact (serviceTest_noColumn hcols).1
  · obtain ⟨-, -, -, -, hrec⟩ := serviceTest_names (n := n) (r := r) (s := s) hcols
    exact hrec

theorem serviceTest_retests (hopen : 0 < (schedOf s n).retests) : (schedOf (serviceTest n r k s) n).retests = (schedOf s n).retests := by
  by_cases hcols : k.cols = []
  · exact (serviceTest_noColumn hcols).2
  · obtain ⟨-, -, hretests, -⟩ := serviceTest_names (n := n) (r := r) (s := s) hcols
    rw [hretests, if_pos hopen]

end Service

/-! ## A seal test (R309) -/

theorem markRetired_retires (n : Nat) (s : State) : (bankOf (markRetired n s) n).state = .retired := by
  have hraise : Only [.counters, .events, .held, .out] (setBankState n .retired s) (markRetired n s) :=
    Only.step (raise_only ..) (by decide) (raise_only ..)
  rw [hraise.bankOf_eq (by decide), setBankState, bankOf_modBank_self]

theorem markRetired_other {n k : Nat} (hk : k ≠ n) (s : State) : tget? (markRetired n s).banks k = tget? s.banks k := by
  have hraise : Only [.counters, .events, .held, .out] (setBankState n .retired s) (markRetired n s) :=
    Only.step (raise_only ..) (by decide) (raise_only ..)
  have hbanks : (markRetired n s).banks = (setBankState n .retired s).banks := hraise.2 .banks (by decide)
  rw [hbanks, setBankState, modBank_other _ _ hk]

/-- A bank that is RETIRED stays so while another is marked. -/
theorem markRetired_keeps {n k : Nat} {s : State} (h : (bankOf s k).state = .retired) : (bankOf (markRetired n s) k).state = .retired := by
  by_cases hk : k = n
  · subst hk; exact markRetired_retires k s
  · rw [bankOf, tget, markRetired_other hk]; exact h

/-- R331, R336: both banks of the array are RETIRED. -/
theorem retireArray_retires (a : Nat) (s : State) :
    (bankOf (retireArray a s) (2 * a)).state = .retired ∧ (bankOf (retireArray a s) (2 * a + 1)).state = .retired := by
  have hone : ∀ (k : Nat) (t : State), (bankOf (if (bankOf t k).state == .retired then t else markRetired k t) k).state = .retired := by
    intro k t
    split
    next h => simpa using h
    next => exact markRetired_retires k t
  have hkeep : ∀ (j k : Nat) (t : State), (bankOf t j).state = .retired →
      (bankOf (if (bankOf t k).state == .retired then t else markRetired k t) j).state = .retired := by
    intro j k t h
    split
    next => exact h
    next => exact markRetired_keeps h
  exact ⟨hkeep _ _ _ (hone _ s), hone _ _⟩

theorem dropMove_state (n k : Nat) (s : State) : (bankOf (dropMove n s) k).state = (bankOf s k).state := by
  unfold dropMove
  split
  next => rfl
  next =>
    extract_lets sMove
    have hmove : bankOf sMove k = bankOf s k := by unfold sMove; split <;> rfl
    have hstate : (bankOf sMove k).state = (bankOf s k).state := by rw [hmove]
    rw [bankOf_modBank]
    split
    next h => subst h; exact hstate
    next => exact hstate

section Seal

variable {n : Nat} {r : KsResult} {k : KsReport} {s : State}

theorem sealTest_passed (hcols : k.cols = []) (hnamed : k.unnamed = false) : sealTest n r k s =
    modSched n (fun d => { d with sealTested := true }) (testPassed n r (modBank n (fun b => { b with suspect := false }) s)) := by
  simp [sealTest, hcols, hnamed]

/-- R309: a first failure without a named column asks for the erase and the program again. -/
theorem sealTest_again (hcols : k.cols = []) (hunnamed : k.unnamed = true) (hfirst : (schedOf s n).sealFails = 0) :
    (schedOf (sealTest n r k s) n).sealFails = 1 ∧ bankOf (sealTest n r k s) n =
      { bankOf s n with wear := (bankOf s n).wear + wearOf (bankOf s n) false, lastStorage := (bankOf s n).storageMode } := by
  have hseal : sealTest n r k s = eraseAndAgain n (modSched n (fun d => { d with sealFails := 1 }) s) := by
    simp [sealTest, hcols, hunnamed, hfirst]
  rw [hseal, eraseAndAgain]
  constructor
  · have hfails : (schedOf (modSched n (fun d => { d with sealFails := 1 }) s) n).sealFails = 1 := by rw [schedOf_modSched_self]
    exact (congrArg Sched.sealFails (Upkeep.refreshSymptoms n _).sched :).trans hfails
  · rw [(refreshSymptoms_only n _).bankOf_eq (by decide), bankOf_modBank_self]
    rfl

/-- R309: a second failure without a named column retires the array. -/
theorem sealTest_retires (hcols : k.cols = []) (hunnamed : k.unnamed = true) (hagain : (schedOf s n).sealFails ≠ 0) :
    (bankOf (sealTest n r k s) n).state = .retired ∧ (bankOf (sealTest n r k s) (sister n)).state = .retired := by
  have hseal : ∃ t, sealTest n r k s = dropMove n (retireArray (bankArray n) t) := by
    rw [sealTest, if_neg (not_not.2 hcols), if_pos hunnamed, if_neg hagain]
    exact ⟨_, rfl⟩
  obtain ⟨t, hseal⟩ := hseal
  rw [hseal, dropMove_state, dropMove_state]
  obtain ⟨heven, hodd⟩ := retireArray_retires (bankArray n) t
  unfold bankArray sister at *
  rcases Nat.mod_two_eq_zero_or_one n with h | h
  · rw [show 2 * (n / 2) = n by omega] at heven hodd
    rw [if_pos h]
    exact ⟨heven, hodd⟩
  · rw [show 2 * (n / 2) + 1 = n by omega] at hodd
    rw [if_neg (by omega), show n - 1 = 2 * (n / 2) by omega]
    exact ⟨hodd, heven⟩

end Seal

end Sys2Proof.Laws
end

section
/-! SUPPORT. A full known-sum test and a column retest, whole (R45, R59, R72, R299, R309, R310). -/

namespace Sys2Proof.Laws

open Sys2Proof.Machine

section FullTest

variable {n : Nat} {r : KsResult} {s : State}

/-- The columns that a full test names, from the subset at which it goes on. -/
def testReport (n : Nat) (r : KsResult) (s : State) : KsReport :=
  ksRun (bankOf s n) r ((schedOf s n).calib.getD 0) 10 { cols := (schedOf s n).calibCols, unnamed := (schedOf s n).calibUnnamed }

/-- The trim codes that a full test writes (R45). -/
def testTrims (r : KsResult) (b : Bank) : Tab (BitVec 6) := r.trims.foldl (fun t e => if e.1 < 1152 then tset t e.1 e.2 else t) b.trims

/-- A complete full test is counted, and has written its trim codes. -/
def testMeasured (n : Nat) (r : KsResult) (s : State) : State :=
  modBank n (fun b => { b with trims := testTrims r b })
    (countMeasure n (modSched n (fun d => { d with calib := none, calibCols := [], calibUnnamed := false }) s))

/-- R72: a test whose converters are claimed keeps the subset at which it goes on. -/
theorem fullTest_cut {j : Nat} (hcut : r.cut = some j) (hfrom : (schedOf s n).calib.getD 0 ≤ j) (hto : j < 10) :
    ∃ cols unnamed, fullTest n r s = modSched n (fun d => { d with calib := some j, calibCols := cols, calibUnnamed := unnamed }) s := by
  let k := ksRun (bankOf s n) r ((schedOf s n).calib.getD 0) j { cols := (schedOf s n).calibCols, unnamed := (schedOf s n).calibUnnamed }
  refine ⟨k.cols, k.unnamed, ?_⟩
  simp [fullTest, hcut, hfrom, hto, k]

theorem fullTest_complete (hcut : r.cut = none) : fullTest n r s =
    if (bankOf (testMeasured n r s) n).state = .programming then sealTest n r (testReport n r s) (testMeasured n r s)
    else serviceTest n r (testReport n r s) (testMeasured n r s) := by
  simp [fullTest, hcut, testMeasured, testTrims, testReport]

/-- R302: a measurement is stamped, is due no more, and is counted. -/
theorem countMeasure_spec (n : Nat) (s : State) :
    schedOf (countMeasure n s) n = { schedOf s n with measuredAt := poweredS s, dueKs := false, testedAt := tideOf s } ∧
    counterOf (countMeasure n s) (ob 0x8014 1) = counterOf s (ob 0x8014 1) + 1 := by
  unfold countMeasure
  extract_lets late sBumped sLate
  have hlate : sLate.scheds = s.scheds ∧ poweredS sLate = poweredS s ∧ tideOf sLate = tideOf s ∧
      counterOf sLate (ob 0x8014 1) = counterOf s (ob 0x8014 1) + 1 := by
    unfold sLate
    split
    next => exact ⟨rfl, rfl, rfl, (counterOf_bump_ne (by decide) _).trans (counterOf_bump_self ..)⟩
    next => exact ⟨rfl, rfl, rfl, counterOf_bump_self ..⟩
  obtain ⟨hscheds, hpowered, htide, hcounter⟩ := hlate
  have hsched : schedOf sLate n = schedOf s n := by rw [schedOf, hscheds, schedOf]
  refine ⟨?_, hcounter⟩
  rw [schedOf_modSched_self, hpowered, htide, hsched]

theorem testMeasured_spec (n : Nat) (r : KsResult) (s : State) :
    schedOf (testMeasured n r s) n = { schedOf s n with
      calib := none, calibCols := [], calibUnnamed := false, measuredAt := poweredS s, dueKs := false, testedAt := tideOf s } ∧
    bankOf (testMeasured n r s) n = { bankOf s n with trims := testTrims r (bankOf s n) } ∧ tideOf (testMeasured n r s) = tideOf s ∧
    counterOf (testMeasured n r s) (ob 0x8014 1) = counterOf s (ob 0x8014 1) + 1 := by
  unfold testMeasured
  let t := modSched n (fun d => { d with calib := none, calibCols := [], calibUnnamed := false }) s
  obtain ⟨hsched, hcounter⟩ := countMeasure_spec n t
  have ht : schedOf t n = { schedOf s n with calib := none, calibCols := [], calibUnnamed := false } := schedOf_modSched_self ..
  have honly := countMeasure_only n t
  have htide : tideOf (countMeasure n t) = tideOf t := honly.tideOf_eq (by decide) (by decide) (by decide)
  refine ⟨?_, ?_, htide, hcounter⟩
  · rw [ht] at hsched; exact hsched
  · rw [bankOf_modBank_self, honly.bankOf_eq (by decide)]; rfl

theorem fullTest_recorded (hcut : r.cut = none) : Recorded n (testMeasured n r s) (fullTest n r s) := by
  rw [fullTest_complete hcut]
  exact .ite (fun _ => .sealTest ..) fun _ => .serviceTest ..

/-- What a complete test has recorded, whatever its outcome (R45, R302). -/
theorem fullTest_measured (hcut : r.cut = none) : let u := fullTest n r s
    (schedOf u n).dueKs = false ∧ (schedOf u n).measuredAt = poweredS s ∧ (schedOf u n).testedAt = tideOf s ∧
    (schedOf u n).calib = none ∧ (bankOf u n).trims = testTrims r (bankOf s n) ∧
    counterOf u (ob 0x8014 1) = counterOf s (ob 0x8014 1) + 1 := by
  have hrec := fullTest_recorded (n := n) (s := s) hcut
  obtain ⟨hsched, hbank, -, hcounter⟩ := testMeasured_spec n r s
  exact ⟨by rw [hrec.dueKs, hsched], by rw [hrec.measuredAt, hsched], by rw [hrec.testedAt, hsched], by rw [hrec.calib, hsched],
    by rw [hrec.trims, hbank], by rw [hrec.counters _ (by decide), hcounter]⟩

theorem fullTest_seal (hcut : r.cut = none) (hstate : (bankOf s n).state = .programming) :
    fullTest n r s = sealTest n r (testReport n r s) (testMeasured n r s) := by
  obtain ⟨-, hbank, -⟩ := testMeasured_spec n r s
  rw [fullTest_complete hcut, if_pos (by rw [hbank]; exact hstate)]

theorem fullTest_service (hcut : r.cut = none) (hstate : (bankOf s n).state ≠ .programming) :
    fullTest n r s = serviceTest n r (testReport n r s) (testMeasured n r s) := by
  obtain ⟨-, hbank, -⟩ := testMeasured_spec n r s
  rw [fullTest_complete hcut, if_neg (by rw [hbank]; exact hstate)]

/-- R299: the margin index and its stamp; the state and the cells stay. -/
theorem testPassed_bank (n : Nat) (r : KsResult) (s : State) : let t := testPassed n r s
    (bankOf t n).margin = marginIndex (ksDeviation r) ∧ (bankOf t n).marginTide = tideOf s ∧
    (bankOf t n).cells = (bankOf s n).cells ∧ (bankOf t n).state = (bankOf s n).state := by
  have hbank := (testPassed_upkeep n r s).bank
  rw [marginStored, bankOf_modBank_self] at hbank
  exact ⟨congrArg Bank.margin hbank, congrArg Bank.marginTide hbank, (congrArg Bank.cells hbank :), (congrArg Bank.state hbank :)⟩

theorem fullTest_passes (hcut : r.cut = none) (hcols : (testReport n r s).cols = []) (hnamed : (testReport n r s).unnamed = false)
    (hafter : (schedOf s n).afterRecompute = false ∨ (bankOf s n).state = .programming) : let u := fullTest n r s
    (bankOf u n).margin = marginIndex (ksDeviation r) ∧ (bankOf u n).marginTide = tideOf s ∧
    (bankOf u n).cells = (bankOf s n).cells ∧ (bankOf u n).state = (bankOf s n).state ∧
    ((bankOf s n).state = .programming → (schedOf u n).sealTested = true) := by
  obtain ⟨hsched, hbank, htide, -⟩ := testMeasured_spec n r s
  extract_lets u
  by_cases hstate : (bankOf s n).state = .programming
  · let t := modBank n (fun b => { b with suspect := false }) (testMeasured n r s)
    have hu : u = modSched n (fun d => { d with sealTested := true }) (testPassed n r t) :=
      (fullTest_seal hcut hstate).trans (sealTest_passed hcols hnamed)
    have ht : bankOf t n = { bankOf s n with trims := testTrims r (bankOf s n), suspect := false } := by
      rw [show t = _ from rfl, bankOf_modBank_self, hbank]
    obtain ⟨hmargin, hstamp, hcells, hkeep⟩ := testPassed_bank n r t
    rw [hu]
    refine ⟨hmargin, hstamp.trans htide, hcells.trans ?_, hkeep.trans ?_, fun _ => ?_⟩
    · rw [ht]
    · rw [ht]
    · rw [schedOf_modSched_self]
  · have hafter : (schedOf (testMeasured n r s) n).afterRecompute = false := by rw [hsched]; exact hafter.resolve_right hstate
    let t := modSched n (fun d => { d with afterRecompute := false }) (testMeasured n r s)
    have hu : u = testPassed n r t := by
      rw [show u = _ from fullTest_service hcut hstate, serviceTest_unnamed hcols]
      simp [hafter, hnamed, t]
    have ht : bankOf t n = { bankOf s n with trims := testTrims r (bankOf s n) } := hbank
    obtain ⟨hmargin, hstamp, hcells, hkeep⟩ := testPassed_bank n r t
    rw [hu]
    refine ⟨hmargin, hstamp.trans htide, hcells.trans ?_, hkeep.trans ?_, fun h => absurd h hstate⟩
    · rw [ht]
    · rw [ht]

theorem fullTest_names (hcut : r.cut = none) (hstate : (bankOf s n).state ≠ .programming) (hcols : (testReport n r s).cols ≠ []) :
    let u := fullTest n r s
    (bankOf u n).suspect = true ∧ (bankOf u n).margin = (bankOf s n).margin ∧
    (schedOf u n).retests = (if 0 < (schedOf s n).retests then (schedOf s n).retests else 2) ∧
    ∀ c ∈ (testReport n r s).cols, c ∈ tkeys (schedOf u n).failing := by
  obtain ⟨hsched, hbank, -⟩ := testMeasured_spec n r s
  obtain ⟨hsuspect, hmargin, hretests, hfailing, -⟩ := serviceTest_names (n := n) (r := r) (s := testMeasured n r s) hcols
  rw [fullTest_service hcut hstate]
  rw [hbank] at hmargin
  rw [hsched] at hretests
  exact ⟨hsuspect, hmargin, hretests, hfailing⟩

/-- R309: the first failure of a seal test without a named column adds the wear of an erase. -/
theorem fullTest_again (hcut : r.cut = none) (hstate : (bankOf s n).state = .programming) (hcols : (testReport n r s).cols = [])
    (hunnamed : (testReport n r s).unnamed = true) (hfirst : (schedOf s n).sealFails = 0) : let u := fullTest n r s
    (schedOf u n).sealFails = 1 ∧ bankOf u n = { bankOf s n with
      trims := testTrims r (bankOf s n), wear := (bankOf s n).wear + (if (bankOf s n).lastStorage then 10 else 3)
      lastStorage := (bankOf s n).storageMode } := by
  obtain ⟨hsched, hbank, -⟩ := testMeasured_spec n r s
  obtain ⟨hfails, hu⟩ := sealTest_again (r := r) hcols hunnamed (s := testMeasured n r s) (by rw [hsched]; exact hfirst)
  rw [fullTest_seal hcut hstate]
  refine ⟨hfails, ?_⟩
  rw [hu, hbank]
  simp [wearOf]

theorem fullTest_retires (hcut : r.cut = none) (hstate : (bankOf s n).state = .programming) (hcols : (testReport n r s).cols = [])
    (hunnamed : (testReport n r s).unnamed = true) (hagain : (schedOf s n).sealFails ≠ 0) :
    (bankOf (fullTest n r s) n).state = .retired ∧ (bankOf (fullTest n r s) (sister n)).state = .retired := by
  obtain ⟨hsched, -⟩ := testMeasured_spec n r s
  rw [fullTest_seal hcut hstate]
  exact sealTest_retires hcols hunnamed (by rw [hsched]; exact hagain)

end FullTest

end Sys2Proof.Laws
end

section
/-! SUPPORT. Seals, margin samples and column retests (R74, R289, R294, R301, R302, R310). -/

namespace Sys2Proof.Laws

open Sys2Proof.Machine

theorem Upkeep.modSched_congr {n : Nat} {s t : State} {f : Sched → Sched} (h : Upkeep n s t)
    (hf : ∀ d e, upkept d = upkept e → upkept (f d) = upkept (f e)) : Upkeep n (Machine.modSched n f s) (Machine.modSched n f t) :=
  ⟨by rw [schedOf_modSched_self, schedOf_modSched_self]; exact hf _ _ h.sched, h.bank, h.others, h.counters⟩

/-! ## Seals -/

/-- The state that a seal gives a bank (R66, R74). -/
def sealState (b : Bank) : BankState := if sparesFree b < 4 then .worn else if b.storageMode then .storage else .ready

/-- A bank at its seal: no shared cell waits, and its drift age is 0 (R294). -/
def atSeal (n : Nat) (s : State) : State :=
  modSched n (fun d => { d with drift := 0, sealFails := 0, sealTested := false })
    (if (bankOf s n).split = [] then s else modBank n freeAllShared s)

theorem markWorn_upkeep (n : Nat) (s : State) : Upkeep n (setBankState n .worn s) (markWorn n s) :=
  (Upkeep.modSched (by intro; rfl) n _).trans (.raise ..)

theorem sealNow_upkeep (n : Nat) (s : State) : Upkeep n (setBankState n (sealState (bankOf s n)) (atSeal n s)) (sealNow n s) := by
  unfold sealNow sealState
  extract_lets b sFreed sSeal
  have hseal : sSeal = atSeal n s := rfl
  refine Upkeep.trans ?_ (.refreshDue ..)
  split
  next => rw [hseal]; exact markWorn_upkeep ..
  next => rw [hseal]; exact .refl ..

theorem sealNow_seals (n : Nat) (s : State) :
    (schedOf (sealNow n s) n).drift = 0 ∧ (bankOf (sealNow n s) n).state = sealState (bankOf s n) := by
  have hupkeep := sealNow_upkeep n s
  have hdrift : (schedOf (setBankState n (sealState (bankOf s n)) (atSeal n s)) n).drift = 0 := by
    show (schedOf (atSeal n s) n).drift = 0
    rw [atSeal, schedOf_modSched_self]
  have hstate : (bankOf (setBankState n (sealState (bankOf s n)) (atSeal n s)) n).state = sealState (bankOf s n) := by
    rw [setBankState, bankOf_modBank_self]
  exact ⟨(congrArg Sched.drift hupkeep.sched :).trans hdrift, (congrArg Bank.state hupkeep.bank :).trans hstate⟩

theorem sealTested_seals {n : Nat} {s : State} (htested : (schedOf s n).sealTested = true) (hstate : (bankOf s n).state = .programming) :
    sealTested n s = sealedMoves n (sealNow n s) := by
  simp [sealTested, htested, hstate]

/-! ## Margin samples -/

/-- The least of the values, where none exceeds the start, is at most each and is one of them. -/
theorem foldl_min_range {f : Nat → Nat} {a : Nat} (hf : ∀ j, f j ≤ a) (k : Nat) :
    (∀ j, j ≤ k → ((List.range (k + 1)).map f).foldl min a ≤ f j) ∧ ∃ j, j ≤ k ∧ ((List.range (k + 1)).map f).foldl min a = f j := by
  induction k with
  | zero => simp [hf 0]
  | succ k ih =>
    obtain ⟨hall, j, hj, hfound⟩ := ih
    rw [List.range_succ, List.map_append, List.foldl_append]
    generalize ((List.range (k + 1)).map f).foldl min a = m at *
    refine ⟨fun i hi => ?_, ?_⟩
    · rcases Nat.le_succ_iff.1 hi with h | h
      · exact (min_le_left ..).trans (hall i h)
      · exact h ▸ min_le_right ..
    · rcases min_choice m (f (k + 1)) with h | h
      · exact ⟨j, by omega, h.trans hfound⟩
      · exact ⟨k + 1, le_rfl, h⟩

/-- R301: a sample of 16 rows finds the least of their margin indices. -/
theorem sampleMargin_least {rows : List Nat} (hrows : rows.length = 16) (steps : List Nat) :
    (∀ j, j < 16 → sampleMargin rows steps ≤ marginOfSteps (steps.getD j 32)) ∧
    ∃ j, j < 16 ∧ sampleMargin rows steps = marginOfSteps (steps.getD j 32) := by
  have hbound : ∀ j, marginOfSteps (steps.getD j 32) ≤ 1000 := fun j => min_le_left ..
  obtain ⟨hall, j, hj, hfound⟩ := foldl_min_range hbound 15
  rw [sampleMargin, hrows]
  exact ⟨fun i hi => hall i (Nat.le_of_lt_succ hi), j, Nat.lt_succ_of_le hj, hfound⟩

/-- R301: a storage bank without an operation in its array, outside a dip and with no test ahead of it, is sampled. -/
def SampleAllowed (s : State) (n : Nat) : Prop :=
  (bankOf s n).storageMode = true ∧ ((bankOf s n).state = .storage ∨ (bankOf s n).state = .worn) ∧
    (bankOf s n).ops.any opRunning = false ∧ bankIdle s n = true ∧ dipHolds s = false ∧ retestAhead s n = false

section MarginSample

variable {n : Nat} {s : State}

theorem sampleGuard_iff : (!(bankOf s n).storageMode || !((bankOf s n).state == .storage || (bankOf s n).state == .worn) ||
    (bankOf s n).ops.any opRunning || !bankIdle s n || dipHolds s || retestAhead s n) = true ↔ ¬SampleAllowed s n := by
  unfold SampleAllowed
  generalize (bankOf s n).ops.any opRunning = running
  simp only [Bool.or_eq_true, Bool.not_eq_true', beq_iff_eq, ← Bool.not_eq_true]
  tauto

theorem execMarginSample_refuses (hn : bankExists s n = true) (steps : List Nat) (h : ¬SampleAllowed s n) :
    execMarginSample n steps s = .next s := by
  unfold execMarginSample
  rw [if_neg (by simp [hn])]
  exact if_pos (sampleGuard_iff.2 h)

/-- R301: the sample's margin index is recorded and counted; the next sample takes other rows. -/
def sampled (n : Nat) (steps : List Nat) (s : State) : State :=
  modSched n (fun d => { d with samples := d.samples + 1 }) (marginStored n (sampleMargin (sampleRows s n) steps) (countMeasure n s))

theorem execMarginSample_samples (hn : bankExists s n = true) (steps : List Nat) (h : SampleAllowed s n) :
    ∃ t, execMarginSample n steps s = .next t ∧ Upkeep n (sampled n steps s) t := by
  unfold execMarginSample
  rw [if_neg (by simp [hn])]
  extract_lets b m post sMargin sSamples sPost
  refine ⟨refreshDue n sPost, if_neg fun hg => sampleGuard_iff.1 hg h, ?_⟩
  have hmargin : Upkeep n (marginStored n m (countMeasure n s)) sMargin := setMargin_upkeep ..
  have hsamples : Upkeep n (sampled n steps s) sSamples := hmargin.modSched_congr fun d e h =>
    (congrArg (fun d : Sched => { d with samples := d.samples + 1 }) h :)
  have hpost : Upkeep n sSamples sPost := .ite (fun _ => .setPostMargin ..) fun _ => .refl ..
  exact (hsamples.trans hpost).trans (.refreshDue ..)

theorem marginStored_spec (n m : Nat) (s : State) : (bankOf (marginStored n m s) n).margin = m ∧
    (bankOf (marginStored n m s) n).marginTide = tideOf s ∧ ∀ k, k ≠ n → tget? (marginStored n m s).banks k = tget? s.banks k := by
  refine ⟨?_, ?_, fun k hk => modBank_other _ _ hk⟩
  · rw [marginStored, bankOf_modBank_self]
  · rw [marginStored, bankOf_modBank_self]

theorem sampled_marks (n : Nat) (steps : List Nat) (s : State) : schedOf (sampled n steps s) n = { schedOf s n with
      measuredAt := poweredS s, dueKs := false, testedAt := tideOf s, samples := (schedOf s n).samples + 1 } := by
  obtain ⟨hsched, -⟩ := countMeasure_spec n s
  have hstored : schedOf (marginStored n (sampleMargin (sampleRows s n) steps) (countMeasure n s)) n = schedOf (countMeasure n s) n := rfl
  rw [sampled, schedOf_modSched_self, hstored, hsched]

theorem sampled_banks (n : Nat) (steps : List Nat) (s : State) : let t := sampled n steps s
    (bankOf t n).margin = sampleMargin (sampleRows s n) steps ∧ (bankOf t n).marginTide = tideOf s ∧
    ∀ k, k ≠ n → tget? t.banks k = tget? s.banks k := by
  have honly := countMeasure_only n s
  have hbanks : (countMeasure n s).banks = s.banks := honly.2 .banks (by decide)
  have htide : tideOf (countMeasure n s) = tideOf s := honly.tideOf_eq (by decide) (by decide) (by decide)
  obtain ⟨hmargin, hstamp, hother⟩ := marginStored_spec n (sampleMargin (sampleRows s n) steps) (countMeasure n s)
  rw [htide] at hstamp
  rw [hbanks] at hother
  exact ⟨hmargin, hstamp, hother⟩

theorem sampled_count (n : Nat) (steps : List Nat) (s : State) :
    counterOf (sampled n steps s) (ob 0x8014 1) = counterOf s (ob 0x8014 1) + 1 := by
  obtain ⟨-, hcounter⟩ := countMeasure_spec n s
  have hdict : (sampled n steps s).dict = (countMeasure n s).dict := rfl
  rw [counterOf, hdict, ← counterOf, hcounter]

end MarginSample

end Sys2Proof.Laws
end

section
/-! SUPPORT. Column retests (R310). -/

namespace Sys2Proof.Laws

open Sys2Proof.Machine

/-- From `s` to `t` a classification has ended: the fault is cleared, or a rebuild is due (R310). -/
structure Closed (n : Nat) (s t : State) : Prop where
  outcome : ((schedOf t n).failing = [] ∧ (bankOf t n).suspect = false) ∨ (schedOf t n).dueRebuild = true
  retests : (schedOf t n).retests = (schedOf s n).retests
  recorded : Recorded n s t

theorem closeColumns_closes (n : Nat) (s : State) : Closed n s (closeColumns n s) := by
  unfold closeColumns
  extract_lets perm
  split
  next =>
    let u := modBank n (fun b => { b with suspect := false }) s
    let v := modSched n (fun d => { d with failing := [] }) u
    have hu : Recorded n s u := .modBank n n s (by intro; rfl)
    have hv : Recorded n u v := .modSched (by intro; exact ⟨rfl, rfl, rfl, rfl⟩) n n u
    have hsched : schedOf v n = { schedOf s n with failing := [] } := schedOf_modSched_self ..
    have hbank : (bankOf v n).suspect = false := by
      show (bankOf u n).suspect = false
      rw [bankOf_modBank_self]
    have hdue : Upkeep n v (refreshDue n v) := .refreshDue ..
    have hfailing : (schedOf v n).failing = [] := by rw [hsched]
    have hretests : (schedOf v n).retests = (schedOf s n).retests := by rw [hsched]
    exact ⟨.inl ⟨(congrArg Sched.failing hdue.sched :).trans hfailing, (congrArg Bank.suspect hdue.bank :).trans hbank⟩,
      (congrArg Sched.retests hdue.sched :).trans hretests, (hu.trans hv).trans hdue.recorded⟩
  next =>
    let v := modSched n (fun d => { d with failing := d.failing.filter fun e => perm.contains e.1, dueRebuild := true }) s
    have hv : Recorded n s v := .modSched (by intro; exact ⟨rfl, rfl, rfl, rfl⟩) n n s
    have hsched : schedOf v n = { schedOf s n with
        failing := (schedOf s n).failing.filter fun e => perm.contains e.1, dueRebuild := true } := schedOf_modSched_self ..
    have hdue : Upkeep n v (refreshDue n v) := .refreshDue ..
    have hrebuild : (schedOf v n).dueRebuild = true := by rw [hsched]
    have hretests : (schedOf v n).retests = (schedOf s n).retests := by rw [hsched]
    exact ⟨.inr ((congrArg Sched.dueRebuild hdue.sched :).trans hrebuild),
      (congrArg Sched.retests hdue.sched :).trans hretests, hv.trans hdue.recorded⟩

section Retest

variable {n : Nat} {r : KsResult} {s : State}

theorem execColumnRetestTimer_refuses (hn : bankExists s n = true)
    (h : testAllowed s n = false ∨ (schedOf s n).retests = 0 ∨ (tideOf s - (schedOf s n).testedAt).toNat < 10 ^ 9) :
    execColumnRetestTimer n r s = .next s := by
  unfold execColumnRetestTimer
  rw [if_neg (by simp [hn])]
  refine if_pos ?_
  rcases h with h | h | h
  · simp [h]
  · simp [h]
  · have hearly : ¬1000000000 ≤ (tideOf s - (schedOf s n).testedAt).toNat := Nat.not_le.2 h
    rw [decide_eq_false hearly, Bool.not_false, Bool.or_true]

theorem execColumnRetestTimer_retests (hn : bankExists s n = true) (hallowed : testAllowed s n = true)
    (h : ¬((schedOf s n).retests = 0 ∨ (tideOf s - (schedOf s n).testedAt).toNat < 10 ^ 9)) : execColumnRetestTimer n r s =
      if (schedOf (fullTest n r s) n).calib.isSome then .next (fullTest n r s)
      else
        let t := modSched n (fun d => { d with retests := d.retests - 1 }) (fullTest n r s)
        .next (if (schedOf t n).retests = 0 then closeColumns n t else t) := by
  obtain ⟨hopen, hlater⟩ := not_or.1 h
  have hlater : 1000000000 ≤ (tideOf s - (schedOf s n).testedAt).toNat := not_lt.1 hlater
  unfold execColumnRetestTimer
  rw [if_neg (by simp [hn])]
  extract_lets d
  rw [if_neg]
  rw [decide_eq_true hlater]
  simp [d, hopen, hallowed]

/-- R72: a retest that is interrupted keeps its place in the classification. -/
theorem execColumnRetestTimer_cut (hn : bankExists s n = true) (hallowed : testAllowed s n = true)
    (h : ¬((schedOf s n).retests = 0 ∨ (tideOf s - (schedOf s n).testedAt).toNat < 10 ^ 9)) {j : Nat} (hcut : r.cut = some j)
    (hfrom : (schedOf s n).calib.getD 0 ≤ j) (hto : j < 10) : ∃ t, execColumnRetestTimer n r s = .next t ∧
      (schedOf t n).retests = (schedOf s n).retests ∧ (schedOf t n).calib = some j := by
  obtain ⟨cols, unnamed, hcutTest⟩ := fullTest_cut (n := n) (s := s) hcut hfrom hto
  have hsched : schedOf (fullTest n r s) n = { schedOf s n with calib := some j, calibCols := cols, calibUnnamed := unnamed } := by
    rw [hcutTest, schedOf_modSched_self]
  rw [execColumnRetestTimer_retests hn hallowed h, if_pos (by rw [hsched]; rfl)]
  exact ⟨_, rfl, by rw [hsched], by rw [hsched]⟩

/-- R310: a complete retest counts down, and the last one classifies the fault. -/
theorem execColumnRetestTimer_complete (hn : bankExists s n = true) (hallowed : testAllowed s n = true)
    (h : ¬((schedOf s n).retests = 0 ∨ (tideOf s - (schedOf s n).testedAt).toNat < 10 ^ 9)) (hcut : r.cut = none)
    (hstate : (bankOf s n).state ≠ .programming) : ∃ t, execColumnRetestTimer n r s = .next t ∧
      (schedOf t n).retests = (schedOf s n).retests - 1 ∧ (schedOf t n).testedAt = tideOf s ∧
      counterOf t (ob 0x8014 1) = counterOf s (ob 0x8014 1) + 1 ∧
      ((schedOf s n).retests = 1 → ((schedOf t n).failing = [] ∧ (bankOf t n).suspect = false) ∨ (schedOf t n).dueRebuild = true) := by
  let t := modSched n (fun d => { d with retests := d.retests - 1 }) (fullTest n r s)
  obtain ⟨-, -, htested, hcalib, -, hcounter⟩ := fullTest_measured (n := n) (s := s) hcut
  have hopen : 0 < (schedOf (testMeasured n r s) n).retests := by
    rw [(testMeasured_spec n r s).1]
    exact Nat.pos_of_ne_zero (not_or.1 h).1
  have hkept : (schedOf (fullTest n r s) n).retests = (schedOf s n).retests := by
    rw [fullTest_service hcut hstate, serviceTest_retests hopen, (testMeasured_spec n r s).1]
  have ht : Recorded n (fullTest n r s) t := .modSched (by intro; exact ⟨rfl, rfl, rfl, rfl⟩) n n _
  have hretests : (schedOf t n).retests = (schedOf s n).retests - 1 := by rw [schedOf_modSched_self, hkept]
  rw [execColumnRetestTimer_retests hn hallowed h, if_neg (by rw [hcalib]; decide)]
  by_cases hlast : (schedOf t n).retests = 0
  · obtain ⟨hclosed, hkeeps, hrec⟩ := closeColumns_closes n t
    refine ⟨closeColumns n t, congrArg Host.Outcome.next (if_pos hlast), hkeeps.trans hretests, ?_, ?_, fun _ => hclosed⟩
    · rw [hrec.testedAt, ht.testedAt, htested]
    · rw [hrec.counters _ (by decide), ht.counters _ (by decide), hcounter]
  · refine ⟨t, congrArg Host.Outcome.next (if_neg hlast), hretests, ?_, ?_, fun hone => absurd (hretests.trans (by rw [hone])) hlast⟩
    · rw [ht.testedAt, htested]
    · rw [ht.counters _ (by decide), hcounter]

end Retest

end Sys2Proof.Laws
end

section
/-! SUPPORT. Rebuild cycles: when one starts, and the bank that takes a bank's content (R205, R209, R312, R313). -/

namespace Sys2Proof.Laws

open Sys2Proof.Machine

/-! ## The bank that re-placement gives is another bank (R205, R209) -/

theorem scanUp_satisfies {p : Nat → Bool} {fuel k n : Nat} (h : scanUp p fuel k = some n) : p n = true := by
  induction fuel generalizing k with
  | zero => simp [scanUp] at h
  | succ fuel ih =>
    rw [scanUp] at h
    split at h
    next hp => exact Option.some.inj h ▸ hp
    next => exact ih h

theorem bestBank_satisfies {s : State} {p : Nat → Bool} {n : Nat} (h : bestBank s p = some n) : p n = true := by
  unfold bestBank at h
  split at h
  next k hscan =>
    have hp := scanUp_satisfies hscan
    rw [Bool.and_eq_true] at hp
    exact Option.some.inj h ▸ hp.1
  next =>
    refine List.foldlRecOn (motive := fun best : Option Nat => ∀ n, best = some n → p n = true) _ _ (by simp) ?_ n h
    intro best hbest k _ m hm
    split at hm
    next => exact hbest m hm
    next hk =>
      have hpk : p k = true := by simp at hk; exact hk.2
      split at hm
      next b =>
        split at hm
        next => exact Option.some.inj hm ▸ hpk
        next => exact hbest m hm
      next => exact Option.some.inj hm ▸ hpk

/-- R205: the bank chosen for a slice may receive it. -/
theorem freshBank_targetOk {s : State} {slot : Nat} {p : LastPlan} {l : List Placed} {from_ slice : Nat} {spill : Bool}
    {given : Option Nat} {k : Nat} (h : freshBank s slot p l from_ slice spill given = some k) : targetOk s from_ k = true := by
  unfold freshBank at h
  extract_lets bad l' outside home at h
  split at h
  next => cases h
  next r _ =>
    extract_lets fits order at h
    have horder : ∀ t ∈ order, ∀ n, t n = true → targetOk s from_ n = true := by
      intro t ht n hn
      have hfits : ∀ young, fits young n = true → targetOk s from_ n = true := fun young hy => (Bool.and_eq_true _ _ ▸ hy).1
      obtain ⟨young, -, hmem⟩ := List.mem_flatMap.1 ht
      refine hfits young ?_
      simp only [List.mem_cons, List.not_mem_nil, or_false] at hmem
      rcases hmem with rfl | rfl | rfl | rfl
      · simp only [Bool.and_eq_true] at hn; exact hn.1.1
      · simp only [Bool.and_eq_true] at hn; exact hn.1
      · simp only [Bool.and_eq_true] at hn; exact hn.1
      · exact hn
    split at h
    next => cases h
    next t hfind =>
      have ht := List.mem_of_find?_eq_some hfind
      split at h
      next m hgiven => exact Option.some.inj h ▸ horder t ht m (Option.filter_eq_some_iff.1 hgiven).2
      next => exact horder t ht k (bestBank_satisfies h)

theorem rebuildTarget_ne {s : State} {n : Nat} {target : Option Nat} {k : Nat} (h : rebuildTarget s n target = some k) : k ≠ n := by
  unfold rebuildTarget at h
  obtain ⟨e, -, he⟩ := List.exists_of_findSome?_eq_some h
  obtain ⟨g, -, hg⟩ := List.exists_of_findSome?_eq_some he
  obtain ⟨q, -, hq⟩ := Option.bind_eq_some_iff.1 hg
  have hok := freshBank_targetOk hq
  simp only [targetOk, Bool.and_eq_true, decide_eq_true_eq] at hok
  exact hok.1.1.1.2

/-! ## A programmed bank keeps its mode and its reservation -/

theorem programAgain_keeps (rows : List (Nat × Nat)) (b : Bank) :
    (programAgain rows b).reserved = b.reserved ∧ (programAgain rows b).storageMode = b.storageMode :=
  List.foldlRecOn (motive := fun x : Bank => x.reserved = b.reserved ∧ x.storageMode = b.storageMode) _ _ ⟨rfl, rfl⟩ fun x h e _ => by
    dsimp only
    split <;> exact h

theorem withRefRows_keeps (b : Bank) : (withRefRows b).reserved = b.reserved ∧ (withRefRows b).storageMode = b.storageMode :=
  List.foldlRecOn (motive := fun x : Bank => x.reserved = b.reserved ∧ x.storageMode = b.storageMode) _ _ ⟨rfl, rfl⟩ fun _ h _ _ => h

theorem programmedBank_keeps (polarity : Bool) (rows : List (Nat × Nat)) (b : Bank) :
    (programmedBank polarity rows b).reserved = b.reserved ∧ (programmedBank polarity rows b).storageMode = b.storageMode := by
  unfold programmedBank
  extract_lets b0 b1
  obtain ⟨hreserved, hmode⟩ := programAgain_keeps rows b1
  have hb1 : b1.reserved = b.reserved ∧ b1.storageMode = b.storageMode := by
    unfold b1
    split
    next => exact ⟨rfl, rfl⟩
    next => exact withRefRows_keeps { b0 with polarity }
  exact ⟨hreserved.trans hb1.1, hmode.trans hb1.2⟩

theorem failSpares_state (cols : List Nat) (b : Bank) : (cols.foldl (fun x c => failSpare c x) b).state = b.state :=
  List.foldlRecOn (motive := fun x : Bank => x.state = b.state) _ _ rfl fun x h c _ => (failSpare_keeps c x).2.trans h

theorem flagBank_covers (n : Nat) (s : State) : (flagBank n s).model.covers = s.model.covers :=
  List.foldlRecOn (motive := fun t : State => t.model.covers = s.model.covers) _ _ rfl fun t h e _ => by
    unfold flagRefetch
    split
    next k img _ =>
      extract_lets img'
      have hmodel := (raise_only .refetch 12 (k * 65536 + e.2.shard) { t with model := { t.model with images := tset t.model.images k img' } }).2
        .model (by decide)
      exact (congrArg Model.covers hmodel :).trans h
    next => exact h

/-! ## When a rebuild cycle starts (R312) -/

section Rebuild

variable {n : Nat} {target : Option Nat} {s : State}

/-- A rebuild cycle does not start: none is due, one is under way, rows of the bank are lost, or the array or a pump slot is taken. -/
def RebuildBlocked (n : Nat) (s : State) : Prop :=
  (schedOf s n).dueRebuild = false ∨ (schedOf s n).rebuilding = true ∨ (∃ c, tget? s.model.covers n = some c ∧ c.missing ≠ []) ∨
    (bankOf s n).ops ≠ [] ∨ bankIdle s n = false ∨ s.awl.paused = true ∨ 1536 ≤ slotsUsed s

theorem coverMissing_iff : ((tget? s.model.covers n).map (fun c => !c.missing.isEmpty)).getD false = true ↔
    ∃ c, tget? s.model.covers n = some c ∧ c.missing ≠ [] := by
  cases tget? s.model.covers n with
  | none => simp
  | some c => simp

theorem rebuildGuard_iff : (!(schedOf s n).dueRebuild || (schedOf s n).rebuilding ||
    ((tget? s.model.covers n).map (fun c => !c.missing.isEmpty)).getD false || (bankOf s n).ops ≠ [] || !bankIdle s n ||
    s.awl.paused || 1536 ≤ slotsUsed s) = true ↔ RebuildBlocked n s := by
  unfold RebuildBlocked
  rw [← coverMissing_iff]
  simp only [Bool.or_eq_true, Bool.not_eq_true', decide_eq_true_eq, or_assoc]

theorem execRebuildCycle_refuses (hn : bankExists s n = true) (h : RebuildBlocked n s) : execRebuildCycle n target s = .next s := by
  unfold execRebuildCycle
  rw [if_neg (by simp [hn])]
  exact if_pos (rebuildGuard_iff.2 h)

/-- R66: without a spare for each failing column the bank is RETIRED. -/
def retiredWithoutSpare (n : Nat) (spared : Bank × Bool) (s : State) : State :=
  if spared.2 || (bankOf s n).state == .retired then s else markRetired n (modBank n (fun _ => spared.1) s)

/-- R313: rows are lost, so the bank's content waits for its image. -/
def rebuildLost (n : Nat) (lost : List Nat) (s : State) : State :=
  let t := retiredWithoutSpare n (remapColumns (tkeys (schedOf s n).failing) (bankOf s n)) s
  let cov := (tget? t.model.covers n).getD { forced := false, slabs := [], missing := [] }
  bump (ob 0x8018 1) (flagBank n { t with model := { t.model with covers := tset t.model.covers n { cov with missing := lost } } })

theorem execRebuildCycle_starts (hn : bankExists s n = true) (h : ¬RebuildBlocked n s) : execRebuildCycle n target s =
    let image := rebuildImage s n (tkeys (schedOf s n).failing)
    if image.2 ≠ [] then .next (nvPoisoned n image.2.length (rebuildLost n image.2 s))
    else .next (rebuildFrom n target (tkeys (schedOf s n).failing) image.1 s) := by
  unfold execRebuildCycle
  rw [if_neg (by simp [hn])]
  extract_lets d b refused cols image
  rw [if_neg (show ¬_ from fun hg => h (rebuildGuard_iff.1 hg))]
  have himage : rebuildImage s n cols = image := rfl
  generalize image = image' at himage ⊢
  obtain ⟨rows, lost⟩ := image'
  rw [himage]
  by_cases hlost : lost = []
  · simp only [hlost, ne_eq, not_true_eq_false, if_false, cols, d]
  · simp only [hlost, ne_eq, not_false_eq_true, if_true, rebuildLost, retiredWithoutSpare, cols, d, b]

theorem retiredWithoutSpare_spec (n : Nat) (spared : Bank × Bool) (s : State) : let t := retiredWithoutSpare n spared s
    (bankOf t n).state = (if spared.2 = true then (bankOf s n).state else .retired) ∧
    (∀ k, k ≠ n → tget? t.banks k = tget? s.banks k) ∧ counterOf t (ob 0x8018 1) = counterOf s (ob 0x8018 1) ∧
    Only [.counters, .events, .held, .banks, .out] s t := by
  unfold retiredWithoutSpare
  by_cases hspare : spared.2 = true
  · rw [hspare, Bool.true_or, if_pos rfl, if_pos rfl]
    exact ⟨rfl, fun _ _ => rfl, rfl, .refl ..⟩
  by_cases hstate : (bankOf s n).state = .retired
  · rw [if_pos (by simp [hstate]), if_neg hspare]
    exact ⟨hstate, fun _ _ => rfl, rfl, .refl ..⟩
  · let t := modBank n (fun _ => spared.1) s
    rw [if_neg (by simp [hspare, hstate]), if_neg hspare]
    have hcount := (Recorded.markRetired n n t).counters (ob 0x8018 1) (by decide)
    exact ⟨markRetired_retires n t, fun k hk => (markRetired_other hk t).trans (modBank_other _ _ hk), hcount,
      .step (markRetired_only n t) (by decide) (.mono (modBank_only ..) (by decide))⟩

theorem withModel_only (s : State) (m : Model) : Only [.model] s { s with model := m } := by
  refine ⟨⟨rfl, rfl, rfl, rfl⟩, fun p hp => ?_⟩
  cases p
  case model => exact absurd (by decide) hp
  all_goals simp [Part.same]

theorem rebuildLost_spec (n : Nat) (lost : List Nat) (s : State) : let u := rebuildLost n lost s
    (∃ c, tget? u.model.covers n = some c ∧ c.missing = lost) ∧ counterOf u (ob 0x8018 1) = counterOf s (ob 0x8018 1) + 1 ∧
    (bankOf u n).state =
      (if (remapColumns (tkeys (schedOf s n).failing) (bankOf s n)).2 = true then (bankOf s n).state else .retired) ∧
    (∀ k, k ≠ n → tget? u.banks k = tget? s.banks k) ∧ Only [.counters, .events, .held, .model, .banks, .out] s u := by
  unfold rebuildLost
  obtain ⟨hstate, hother, hcounter, honly⟩ := retiredWithoutSpare_spec n (remapColumns (tkeys (schedOf s n).failing) (bankOf s n)) s
  extract_lets t cov m u
  let v : State := { t with model := { m with covers := tset m.covers n { cov with missing := lost } } }
  have hflag : Only [.counters, .events, .held, .model, .out] v (flagBank n v) := flagBank_only n v
  have hbanks : (flagBank n v).banks = t.banks := hflag.2 .banks (by decide)
  have hcovers : (flagBank n v).model.covers = tset m.covers n { cov with missing := lost } := flagBank_covers n v
  have hcount : counterOf (flagBank n v) (ob 0x8018 1) = counterOf t (ob 0x8018 1) := (Upkeep.flagBank n n v).counters _ (by decide)
  refine ⟨⟨{ cov with missing := lost }, ?_, rfl⟩, ?_, ?_, fun k hk => ?_, ?_⟩
  · show tget? (flagBank n v).model.covers n = _
    rw [hcovers, tget?_tset_self]
  · rw [show u = bump (ob 0x8018 1) (flagBank n v) from rfl, counterOf_bump_self, hcount, hcounter]
  · rw [show bankOf u n = bankOf t n by rw [bankOf, show u.banks = t.banks from hbanks, bankOf], hstate]
  · rw [show u.banks = t.banks from hbanks, hother k hk]
  · have hv : Only [.model] t v := withModel_only t _
    exact .step (bump_only ..) (by decide) (.step hflag (by decide) (.step hv (by decide) (honly.mono (by decide))))

/-! ## Step 1 has its image (R312, R313) -/

/-- The bank is programmed again, with spares in place of the failing columns. -/
def rebuiltHere (n : Nat) (cols : List Nat) (rows : List (Nat × Nat)) (s : State) : State :=
  let spared := (remapColumns cols (bankOf s n)).1
  refreshSymptoms n (modSched n (fun d => { d with rebuilding := true, sealFails := 0, sealTested := false })
    (modBank n (fun _ => programmedBank (bankOf s n).polarity rows { spared with wear := spared.wear + wearOf spared false }) s))

theorem rebuildFrom_here {cols : List Nat} {rows : List (Nat × Nat)} (hspare : (remapColumns cols (bankOf s n)).2 = true)
    (hworn : (bankOf s n).state ≠ .worn) (hretired : (bankOf s n).state ≠ .retired) :
    rebuildFrom n target cols rows s = sealIfStorage n (rebuiltHere n cols rows s) := by
  have hpair : remapColumns cols (bankOf s n) = ((remapColumns cols (bankOf s n)).1, true) := Prod.ext rfl hspare
  unfold rebuildFrom
  extract_lets b
  rw [hpair]
  exact if_pos (by simp [b, hworn, hretired])

theorem rebuiltHere_spec (n : Nat) (cols : List Nat) (rows : List (Nat × Nat)) (s : State) : let u := rebuiltHere n cols rows s
    let spared := (remapColumns cols (bankOf s n)).1
    bankOf u n = programmedBank (bankOf s n).polarity rows { spared with wear := spared.wear + (if spared.lastStorage then 10 else 3) } ∧
    (schedOf u n).rebuilding = true ∧ (schedOf u n).sealTested = false ∧
    (∀ k, k ≠ n → tget? u.banks k = tget? s.banks k) ∧ Only [.counters, .events, .held, .banks, .scheds, .out] s u := by
  unfold rebuiltHere
  extract_lets spared u
  let t := modBank n (fun _ => programmedBank (bankOf s n).polarity rows { spared with wear := spared.wear + wearOf spared false }) s
  let v := modSched n (fun d => { d with rebuilding := true, sealFails := 0, sealTested := false }) t
  have hsched : schedOf v n = { schedOf s n with rebuilding := true, sealFails := 0, sealTested := false } := schedOf_modSched_self ..
  have hrebuilding : (schedOf v n).rebuilding = true := by rw [hsched]
  have hsealTested : (schedOf v n).sealTested = false := by rw [hsched]
  have hsym : Upkeep n v u := .refreshSymptoms n v
  have hfresh := refreshSymptoms_only n v
  have ht : ∀ k, k ≠ n → tget? t.banks k = tget? s.banks k := fun k hk => modBank_other _ _ hk
  refine ⟨?_, (congrArg Sched.rebuilding hsym.sched :).trans hrebuilding, (congrArg Sched.sealTested hsym.sched :).trans hsealTested,
    fun k hk => (hsym.others k hk).trans (ht k hk), ?_⟩
  · rw [show bankOf u n = bankOf v n from hfresh.bankOf_eq (by decide) n]
    show bankOf t n = _
    rw [bankOf_modBank_self]
    simp [wearOf]
  · exact .step hfresh (by decide) (.step (modSched_only ..) (by decide) (.mono (modBank_only ..) (by decide)))

/-- R312, R313: the failing columns' spares are marked, and a bank without spares enough is RETIRED. -/
def markedFailing (n : Nat) (cols : List Nat) (s : State) : State :=
  let marked := modBank n (fun x => cols.foldl (fun x c => failSpare c x) x) s
  if (remapColumns cols (bankOf s n)).2 = true ∨ (bankOf s n).state = .retired then marked else markRetired n marked

theorem markedFailing_state (n : Nat) (cols : List Nat) (s : State) : (bankOf (markedFailing n cols s) n).state =
    if (remapColumns cols (bankOf s n)).2 = true ∨ (bankOf s n).state = .retired then (bankOf s n).state else .retired := by
  unfold markedFailing
  extract_lets marked
  split
  next => rw [bankOf_modBank_self, failSpares_state]
  next => exact markRetired_retires ..

theorem markedFailing_only (n : Nat) (cols : List Nat) (s : State) :
    Only [.counters, .events, .held, .banks, .out] s (markedFailing n cols s) := by
  unfold markedFailing
  extract_lets marked
  have hmarked : Only [.counters, .events, .held, .banks, .out] s marked := .mono (modBank_only ..) (by decide)
  exact .ite (fun _ => hmarked) fun _ => .step (markRetired_only ..) (by decide) hmarked

theorem rebuildFrom_elsewhere {cols : List Nat} {rows : List (Nat × Nat)}
    (h : ¬((remapColumns cols (bankOf s n)).2 = true ∧ (bankOf s n).state ≠ .worn ∧ (bankOf s n).state ≠ .retired)) :
    rebuildFrom n target cols rows s =
      match rebuildTarget (markedFailing n cols s) n target with
      | some k => programInto n k (bankOf s n).storageMode rows
          (modSched n (fun d => { d with rebuilding := true }) (markedFailing n cols s))
      | none => markedFailing n cols s := by
  unfold rebuildFrom markedFailing
  extract_lets b marked
  generalize remapColumns cols b = spared at h ⊢
  obtain ⟨b', ok⟩ := spared
  have hguard : ¬(ok && !(b.state == .worn || b.state == .retired)) = true := by
    simpa only [Bool.and_eq_true, Bool.not_eq_true', Bool.or_eq_false_iff, beq_eq_false_iff_ne] using h
  have hkept : (ok || b.state == .retired) = true ↔ ok = true ∨ b.state = .retired := by simp
  simp only [hguard, hkept]
  rfl

/-- A bank's content is programmed into bank `k`, to which its slices move at the seal (R209, R312). -/
def programmedInto (n k : Nat) (storage : Bool) (rows : List (Nat × Nat)) (s : State) : State :=
  modSched k (fun d => { d with moveFrom := some n })
    (writeBank k rows (modBank k (fun b => { b with storageMode := storage, reserved := true }) s))

theorem programmedInto_spec {k : Nat} (hk : k ≠ n) (storage : Bool) (rows : List (Nat × Nat)) (s : State) :
    let u := programmedInto n k storage rows s
    (bankOf u k).reserved = true ∧ (bankOf u k).storageMode = storage ∧ (schedOf u k).moveFrom = some n ∧
    schedOf u n = schedOf s n ∧ bankOf u n = bankOf s n ∧ u.model = s.model := by
  let t := modBank k (fun b => { b with storageMode := storage, reserved := true }) s
  let v := modBank k (programmedBank (chosenPolarity rows) rows) t
  have htarget : bankOf v k = programmedBank (chosenPolarity rows) rows { bankOf s k with storageMode := storage, reserved := true } := by
    rw [show bankOf v k = _ from bankOf_modBank_self .., show bankOf t k = _ from bankOf_modBank_self ..]
  obtain ⟨hreserved, hmode⟩ := programmedBank_keeps (chosenPolarity rows) rows { bankOf s k with storageMode := storage, reserved := true }
  have hbank : bankOf v n = bankOf s n := by
    have hv : bankOf v n = bankOf t n := by rw [show v = _ from rfl, bankOf_modBank, if_neg hk.symm]
    have ht : bankOf t n = bankOf s n := by rw [show t = _ from rfl, bankOf_modBank, if_neg hk.symm]
    exact hv.trans ht
  refine ⟨?_, ?_, ?_, ?_, hbank, rfl⟩
  · exact (congrArg Bank.reserved htarget).trans hreserved
  · exact (congrArg Bank.storageMode htarget).trans hmode
  · rw [programmedInto, schedOf_modSched_self]
  · rw [programmedInto, schedOf_modSched, if_neg hk.symm, writeBank, schedOf_modSched, if_neg hk.symm]
    rfl

end Rebuild

end Sys2Proof.Laws
end

section
/-! The known-sum tests, margin samples, column retests and rebuild cycles of a bank: O55. -/

namespace Sys2Proof.Laws

open Sys2Proof.Machine

section Measure

variable {n : Nat} {s : State}

/-- R301: what a margin sample has recorded. -/
theorem marginSample_completes (hn : bankExists s n = true) (steps : List Nat) (h : SampleAllowed s n) :
    Completes (.marginSample n steps) s fun t => (∀ j, j < 16 → (bankOf t n).margin ≤ marginOfSteps (steps.getD j 32)) ∧
      (∃ j, j < 16 ∧ (bankOf t n).margin = marginOfSteps (steps.getD j 32)) ∧ (bankOf t n).marginTide = tideOf s ∧
      (schedOf t n).samples = (schedOf s n).samples + 1 ∧ (schedOf t n).measuredAt = poweredS s ∧ (schedOf t n).dueKs = false ∧
      counterOf t (ob 0x8014 1) = counterOf s (ob 0x8014 1) + 1 ∧ (∀ k, k ≠ n → k ≠ sister n → tget? t.banks k = tget? s.banks k) ∧
      Only [.counters, .events, .monitors, .held, .model, .banks, .scheds, .out] s t := by
  obtain ⟨t, hexec, hupkeep⟩ := execMarginSample_samples hn steps h
  have hrec := hupkeep.recorded
  obtain ⟨hmargin, hstamp, hother⟩ := sampled_banks n steps s
  have hmarks := sampled_marks n steps s
  have hcount := sampled_count n steps s
  have hsamples : (schedOf (sampled n steps s) n).samples = (schedOf s n).samples + 1 := by rw [hmarks]
  obtain ⟨hleast, j, hj, hfound⟩ := sampleMargin_least (rows := sampleRows s n) (by simp [sampleRows]) steps
  have hm : (bankOf t n).margin = sampleMargin (sampleRows s n) steps := (congrArg Bank.margin hupkeep.bank :).trans hmargin
  exact ⟨t, hexec, fun i hi => hm ▸ hleast i hi, ⟨j, hj, hm.trans hfound⟩, (congrArg Bank.marginTide hupkeep.bank :).trans hstamp,
    (congrArg Sched.samples hupkeep.sched :).trans hsamples, by rw [hrec.measuredAt, hmarks], by rw [hrec.dueKs, hmarks],
    (hupkeep.counters _ (by decide)).trans hcount, fun k hk _ => (hupkeep.others k hk).trans (hother k hk),
    execMarginSample_only n steps s t hexec⟩

/-- R310: a retest that is due runs, whether it is complete or interrupted. -/
theorem columnRetest_completes {r : KsResult} (hn : bankExists s n = true) (hallowed : testAllowed s n = true)
    (h : ¬((schedOf s n).retests = 0 ∨ (tideOf s - (schedOf s n).testedAt).toNat < 10 ^ 9)) :
    Completes (.columnRetestTimer n r) s fun t =>
      Only [.power, .time, .counters, .events, .monitors, .held, .model, .banks, .scheds, .integ, .out] s t ∧
      (r.cut = none → (bankOf s n).state ≠ .programming → (schedOf t n).retests = (schedOf s n).retests - 1 ∧
        (schedOf t n).testedAt = tideOf s ∧ counterOf t (ob 0x8014 1) = counterOf s (ob 0x8014 1) + 1 ∧
        ((schedOf s n).retests = 1 → ((schedOf t n).failing = [] ∧ (bankOf t n).suspect = false) ∨ (schedOf t n).dueRebuild = true)) ∧
      ∀ j, r.cut = some j → (schedOf s n).calib.getD 0 ≤ j → j < 10 → (schedOf t n).retests = (schedOf s n).retests ∧
        (schedOf t n).calib = some j := by
  obtain ⟨t, hexec⟩ : ∃ t, execColumnRetestTimer n r s = .next t := by
    rw [execColumnRetestTimer_retests hn hallowed h]
    split <;> exact ⟨_, rfl⟩
  have hunique : ∀ u, execColumnRetestTimer n r s = .next u → u = t := fun u hu => Host.Outcome.next.inj (hu.symm.trans hexec)
  refine ⟨t, hexec, execColumnRetestTimer_only n r s t hexec, fun hcut hstate => ?_, fun j hcut hfrom hto => ?_⟩
  · obtain ⟨u, hu, hcomplete⟩ := execColumnRetestTimer_complete hn hallowed h hcut hstate
    exact hunique u hu ▸ hcomplete
  · obtain ⟨u, hu, hcutTest⟩ := execColumnRetestTimer_cut hn hallowed h hcut hfrom hto
    exact hunique u hu ▸ hcutTest

end Measure

section Rebuild

variable {n : Nat} {target : Option Nat} {s : State}

theorem not_rebuildBlocked (hdue : (schedOf s n).dueRebuild = true) (hidle : (schedOf s n).rebuilding = false)
    (hcover : ∀ c, tget? s.model.covers n = some c → c.missing = []) (hops : (bankOf s n).ops = []) (hbank : bankIdle s n = true)
    (hpaused : s.awl.paused = false) (hslots : slotsUsed s < 1536) : ¬RebuildBlocked n s := by
  have hcovers : ¬∃ c, tget? s.model.covers n = some c ∧ c.missing ≠ [] := fun ⟨c, hc, hmissing⟩ => hmissing (hcover c hc)
  simp only [RebuildBlocked, hcovers, hdue, hidle, hops, hbank, hpaused, Nat.not_le.2 hslots]
  decide

/-- R312, R313: the whole of a rebuild cycle that starts. -/
theorem execRebuildCycle_elsewhere (hn : bankExists s n = true) (h : ¬RebuildBlocked n s)
    (himage : (rebuildImage s n (tkeys (schedOf s n).failing)).2 = [])
    (hspare : ¬((remapColumns (tkeys (schedOf s n).failing) (bankOf s n)).2 = true ∧ (bankOf s n).state ≠ .worn ∧
      (bankOf s n).state ≠ .retired)) : let v := markedFailing n (tkeys (schedOf s n).failing) s
    (rebuildTarget v n target = none → execRebuildCycle n target s = .next v) ∧
    ∀ k, rebuildTarget v n target = some k → ∃ u, execRebuildCycle n target s = .next (sealIfStorage k u) ∧
      (bankOf u k).reserved = true ∧ (bankOf u k).storageMode = (bankOf s n).storageMode ∧ (schedOf u k).moveFrom = some n ∧
      (schedOf u n).rebuilding = true ∧ bankOf u n = bankOf v n ∧ u.model.slots = s.model.slots := by
  extract_lets v
  rw [execRebuildCycle_starts hn h]
  extract_lets image
  rw [if_neg (not_not.2 himage), rebuildFrom_elsewhere hspare]
  refine ⟨fun hnone => ?_, fun k hsome => ?_⟩
  · rw [show rebuildTarget (markedFailing n _ s) n target = none from hnone]
  · rw [show rebuildTarget (markedFailing n _ s) n target = some k from hsome]
    let t := modSched n (fun d => { d with rebuilding := true }) v
    obtain ⟨hreserved, hmode, hfrom, hsched, hbank, hmodel⟩ :=
      programmedInto_spec (rebuildTarget_ne hsome) (bankOf s n).storageMode image.1 t
    have hrebuilding : (schedOf t n).rebuilding = true := by rw [schedOf_modSched_self]
    have hslots : v.model = s.model := (markedFailing_only n _ s).2 .model (by decide)
    exact ⟨programmedInto n k (bankOf s n).storageMode image.1 t, rfl, hreserved, hmode, hfrom, by rw [hsched, hrebuilding], hbank,
      by rw [hmodel, show t.model = v.model from rfl, hslots]⟩

end Rebuild

/-- Settles O55: the outcomes of a full test, of a margin sample, of a retest and of a rebuild cycle, each by what upkeep leaves. -/
theorem cobblerTestsAndRebuilds : Obligations.CobblerTestsAndRebuilds := by
  unfold Obligations.CobblerTestsAndRebuilds
  refine ⟨?refused, ?tests, ?seals, ?samples, ?retests, ?blocked, ?rebuilds⟩
  case refused =>
    intro n r s hn hallowed
    refine ⟨?_, execColumnRetestTimer_refuses hn (.inl hallowed)⟩
    show execFullKnownSumTest n r s = _
    rw [execFullKnownSumTest, if_neg (by simp [hn]), if_pos (by simp [hallowed])]
  case tests =>
    intro n r s hn hallowed
    refine ⟨fullTest n r s, ?_, ?_⟩
    · show execFullKnownSumTest n r s = _
      rw [execFullKnownSumTest, if_neg (by simp [hn]), if_neg (by simp [hallowed])]
    · refine ⟨fun j hcut hfrom hto => ?_, fun hcut => ⟨fullTest_measured hcut, fullTest_passes hcut, fullTest_names hcut,
        fullTest_again hcut, fullTest_retires hcut⟩, fullTest_only n r s⟩
      obtain ⟨cols, unnamed, htest⟩ := fullTest_cut (n := n) (s := s) hcut hfrom hto
      rw [htest, schedOf_modSched_self]
      exact ⟨rfl, rfl, modSched_only ..⟩
  case seals =>
    intro n s htested hstate
    obtain ⟨hdrift, hsealed⟩ := sealNow_seals n s
    exact ⟨sealTested_seals htested hstate, hdrift, hsealed⟩
  case samples =>
    intro n steps s hn
    extract_lets b
    split
    next h => exact marginSample_completes hn steps h
    next h => exact execMarginSample_refuses hn steps h
  case retests =>
    intro n r s hn hallowed
    split
    next h => exact execColumnRetestTimer_refuses hn (.inr h)
    next h => exact columnRetest_completes hn hallowed h
  case blocked => exact fun n target s hn h => execRebuildCycle_refuses hn h
  case rebuilds =>
    intro n target s hn hdue hidle hcover hops hbank hpaused hslots
    have hstarts := not_rebuildBlocked hdue hidle hcover hops hbank hpaused hslots
    have hexec := execRebuildCycle_starts (target := target) hn hstarts
    have hmoved := execRebuildCycle_elsewhere (target := target) hn hstarts
    intro b cols
    generalize rebuildImage s n cols = image at hexec hmoved ⊢
    intro rows lost spared
    by_cases hlost : lost = []
    · rw [if_neg (not_not.2 hlost)]
      by_cases hspare : spared.2 = true ∧ b.state ≠ .worn ∧ b.state ≠ .retired
      · obtain ⟨hfree, hworn, hretired⟩ := hspare
        rw [if_pos ⟨hfree, hworn, hretired⟩]
        refine ⟨rebuiltHere n cols rows s, ?_, rebuiltHere_spec n cols rows s⟩
        rw [← rebuildFrom_here (target := target) hfree hworn hretired]
        exact hexec.trans (if_neg (not_not.2 hlost))
      · rw [if_neg hspare]
        exact ⟨markedFailing_state n cols s, hmoved hlost hspare⟩
    · rw [if_pos hlost]
      exact ⟨rebuildLost n lost s, hexec.trans (if_pos hlost), rebuildLost_spec n lost s⟩

end Sys2Proof.Laws
end

section
/-! SUPPORT. Which descriptor takes which slot, and what a descriptor does once it has its turn (R182 to R184). -/

namespace Sys2Proof.Laws

open Sys2Proof.Machine

/-! ## The order of descriptors (R23, R182) -/

/-- R23: a deadline's place in the order, 0 standing for none and coming last. -/
def dueRank (d : BitVec 64) : Nat := if d = 0 then 2 ^ 64 else d.toNat

/-- R182: earliest deadline first, then age. -/
theorem dueBefore_iff (a b : BitVec 64 × Nat) :
    dueBefore a b = true ↔ dueRank a.1 < dueRank b.1 ∨ dueRank a.1 = dueRank b.1 ∧ a.2 < b.2 := by
  have ha : a.1.toNat < 2 ^ 64 := a.1.isLt
  have hb : b.1.toNat < 2 ^ 64 := b.1.isLt
  unfold dueBefore dueRank
  by_cases hza : a.1 = 0#64 <;> by_cases hzb : b.1 = 0#64
  · simp [hza, hzb]
  · simp [hza, hzb]; omega
  · simp [hza, hzb]; omega
  · simp [hza, hzb, BitVec.toNat_inj]

/-- Between two descriptors that each do not go before the next, the first does not go before the last. -/
theorem not_dueBefore_trans {a b c : BitVec 64 × Nat} (hab : dueBefore a b = false) (hbc : dueBefore b c = false) :
    dueBefore a c = false := by
  rw [Bool.eq_false_iff, ne_eq, dueBefore_iff] at *
  omega

theorem dueBefore_asymm {a b : BitVec 64 × Nat} (h : dueBefore a b = true) : dueBefore b a = false := by
  rw [dueBefore_iff] at h
  rw [Bool.eq_false_iff, ne_eq, dueBefore_iff]
  omega

theorem firstWaiting_eq_none {l : List (Nat × Desc)} (h : firstWaiting l = none) : l = [] := by
  cases l with
  | nil => rfl
  | cons e t =>
    simp only [firstWaiting] at h
    split at h
    · cases h
    · split at h <;> cases h

/-- R182: the waiting descriptor that goes first is one that no other goes before. -/
theorem firstWaiting_least {l : List (Nat × Desc)} {e : Nat × Desc} (h : firstWaiting l = some e) :
    e ∈ l ∧ ∀ k ∈ l, dueBefore (k.2.deadline, k.1) (e.2.deadline, e.1) = false := by
  induction l generalizing e with
  | nil => cases h
  | cons a t ih =>
    have hself : dueBefore (a.2.deadline, a.1) (a.2.deadline, a.1) = false := by
      rw [Bool.eq_false_iff, ne_eq, dueBefore_iff]
      omega
    simp only [firstWaiting] at h
    split at h
    next hnone =>
      cases h
      rw [firstWaiting_eq_none hnone]
      exact ⟨List.mem_singleton.2 rfl, fun k hk => List.mem_singleton.1 hk ▸ hself⟩
    next m hm =>
      obtain ⟨hmem, hleast⟩ := ih hm
      split at h
      next hbefore =>
        cases h
        refine ⟨List.mem_cons_of_mem _ hmem, fun k hk => ?_⟩
        obtain rfl | hk := List.mem_cons.1 hk
        · exact dueBefore_asymm hbefore
        · exact hleast k hk
      next hnot =>
        cases h
        refine ⟨List.mem_cons_self, fun k hk => ?_⟩
        obtain rfl | hk := List.mem_cons.1 hk
        · exact hself
        · exact not_dueBefore_trans (hleast k hk) (Bool.eq_false_iff.2 hnot)

/-! ## The Ferry that a descriptor goes to (R182) -/

/-- R182: a Ferry that may take a stream. -/
def hasSlot (s : State) (f : Nat) : Bool := !((ferryOf s f).retired || decide (16 ≤ (ferryOf s f).streams.length))

theorem emptiestFerry_eq (s : State) : emptiestFerry s =
    ((List.range 256).filter (hasSlot s)).argmin fun f => (ferryOf s f).streams.length := by
  rw [emptiestFerry, List.argmin, List.foldl_filter]
  congr 1
  funext best f
  have hfull : ((ferryOf s f).retired || decide (16 ≤ (ferryOf s f).streams.length)) = true ↔ ¬hasSlot s f = true := by
    rw [hasSlot, Bool.not_eq_true, Bool.not_eq_false']
  by_cases hslot : hasSlot s f = true
  · rw [if_pos hslot]
    refine (if_neg (mt hfull.1 (not_not.2 hslot))).trans ?_
    cases best <;> rfl
  · rw [if_neg hslot]
    exact if_pos (hfull.2 hslot)

/-- R182: a free slot of the Ferry with the fewest active streams. -/
theorem emptiestFerry_least {s : State} {f : Nat} (h : emptiestFerry s = some f) :
    f < 256 ∧ (ferryOf s f).retired = false ∧ (ferryOf s f).streams.length < 16 ∧
      ∀ g, g < 256 → (ferryOf s g).retired = false → (ferryOf s f).streams.length ≤ (ferryOf s g).streams.length := by
  rw [emptiestFerry_eq] at h
  obtain ⟨hrange, hslot⟩ := List.mem_filter.1 (List.argmin_mem h)
  obtain ⟨hserves, hfree⟩ : (ferryOf s f).retired = false ∧ (ferryOf s f).streams.length < 16 := by simpa [hasSlot] using hslot
  refine ⟨List.mem_range.1 hrange, hserves, hfree, fun g hg hserving => ?_⟩
  by_cases hfull : 16 ≤ (ferryOf s g).streams.length
  · omega
  · exact List.le_of_mem_argmin (f := fun f => (ferryOf s f).streams.length)
      (List.mem_filter.2 ⟨List.mem_range.2 hg, by simpa [hasSlot, hserving] using hfull⟩) h

theorem emptiestFerry_congr {s t : State} (h : t.flow.ferries = s.flow.ferries) : emptiestFerry t = emptiestFerry s := by
  have hferry : ferryOf t = ferryOf s := by funext f; rw [ferryOf, h, ferryOf]
  rw [emptiestFerry_eq, emptiestFerry_eq, hferry, show hasSlot t = hasSlot s by unfold hasSlot; rw [hferry]]

end Sys2Proof.Laws
end

section
/-! SUPPORT. How a descriptor starts, or is turned away (R182 to R184). -/

namespace Sys2Proof.Laws

open Sys2Proof.Machine

/-! ## What an update of one Lace leaves of the flow -/

theorem modLace_flow (n : Nat) (g : Lace → Lace) (s : State) :
    (modLace n g s).flow = { s.flow with laces := (modLace n g s).flow.laces } := by
  unfold modLace
  split <;> rfl

theorem bindDrain_flow (f k : Nat) (d : Desc) (s : State) :
    (bindDrain f k d s).flow = { s.flow with laces := (bindDrain f k d s).flow.laces } := by
  unfold bindDrain
  extract_lets mine bind
  split
  · rfl
  · exact modLace_flow ..

/-! ## Starting a stream (R182, R184) -/

/-- R182, R185: a stream as it starts. -/
def newStream (order : Nat) (d : Desc) (dud : Bool) : Stream :=
  { desc := d, order, pos := 0, seq := 0, filling := [], cancelled := false, dud, blocksDone := 0, vecs := 0, xs := [],
    ex := 0, special := false, poison := false, buf := [], bufBad := [], bufSpecial := false, bufSlabs := 0 }

theorem beginStream_free {f order k : Nat} {d : Desc} {dud : Bool} {s : State} (hk : freeKey (ferryOf s f).streams 16 = some k) :
    beginStream f order d dud s =
      bindDrain f k d (modFerry f (fun y => { y with streams := tset y.streams k (newStream order d dud) }) s) := by
  simp [beginStream, hk, newStream]

/-- R182: a stream that starts takes the free slot, and the other Ferries and the descriptors that wait are as before. -/
theorem beginStream_spec {f order k : Nat} {d : Desc} {dud : Bool} {s : State} (hk : freeKey (ferryOf s f).streams 16 = some k) :
    let t := beginStream f order d dud s
    streamOf t f k = some (newStream order d dud) ∧ (∀ g, g ≠ f → ferryOf t g = ferryOf s g) ∧
      t.flow.nextOrder = s.flow.nextOrder ∧ t.flow.waiting = s.flow.waiting := by
  rw [beginStream_free hk]
  generalize hu : modFerry f (fun y => { y with streams := tset y.streams k (newStream order d dud) }) s = u
  have hferries : ∀ g, ferryOf (bindDrain f k d u) g = ferryOf u g := fun g => by rw [ferryOf, bindDrain_flow, ferryOf]
  refine ⟨?stream, fun g hg => ?others, ?order, ?waiting⟩
  case stream => rw [streamOf, hferries, ← hu, ferryOf_modFerry_self, tget?_tset_self]
  case others => rw [hferries, ← hu, ferryOf_modFerry_ne _ _ hg]
  case order => rw [bindDrain_flow, ← hu]; rfl
  case waiting => rw [bindDrain_flow, ← hu]; rfl

theorem startStream_good {d : Desc} (h : descBad d = false) (f order : Nat) (s : State) :
    startStream f order d s = beginStream f order d false s := if_neg (by simp [h])

/-- R184: a descriptor that is not executed has been counted and reported. -/
def badReported (f : Nat) (s : State) : State := raise .badDescriptor 5 f (bump (ob 0x4023 1) s)

theorem startStream_poisons {d : Desc} {f : Nat} {s : State} (h : descBad d = true)
    (hdud : descMcast d = false ∨ dudDesc (badReported f s) d = none) (order : Nat) :
    startStream f order d s = poisonStream f d (badReported f s) := by
  have hnone : (if descMcast d then dudDesc (badReported f s) d else none) = none := by
    obtain hmcast | hdud := hdud
    · exact if_neg (by simp [hmcast])
    · simp [hdud]
  simp only [startStream, h, if_true]
  rw [← badReported, hnone]

theorem startStream_replaces {d e : Desc} {f : Nat} {s : State} (h : descBad d = true) (hmcast : descMcast d = true)
    (hdud : dudDesc (badReported f s) d = some e) (order : Nat) :
    startStream f order d s = beginStream f order e true (badReported f s) := by
  simp only [startStream, h, hmcast, if_true]
  rw [← badReported, hdud]

theorem badReported_only (f : Nat) (s : State) : Only [.counters, .events, .held, .out] s (badReported f s) :=
  Only.step (raise_only ..) rfl ((bump_only ..).mono rfl)

theorem badReported_counts (f : Nat) (s : State) : counterOf (badReported f s) (ob 0x4023 1) = counterOf s (ob 0x4023 1) + 1 := by
  rw [badReported, counterOf_raise (by decide) (by decide), counterOf_bump_self]

theorem dudDesc_congr {s t : State} (hreqs : t.que.reqs = s.que.reqs) (hmodel : t.model = s.model) (d : Desc) :
    dudDesc t d = dudDesc s d := by
  unfold dudDesc planOf slotOf
  rw [hreqs, hmodel]

/-- R184: the transfer that stands for a multicast descriptor is a good one, of the same stream. -/
theorem dudDesc_good {s : State} {d e : Desc} (h : dudDesc s d = some e) :
    descBad e = false ∧ e.request = d.request ∧ e.stream = d.stream := by
  unfold dudDesc at h
  extract_lets a at h
  split at h
  · split at h
    · cases h
    · extract_lets x at h
      split at h
      · cases h
      next hgood =>
        obtain rfl := Option.some.inj h
        exact ⟨Bool.eq_false_iff.2 hgood, rfl, rfl⟩
  · cases h

/-! ## FERRY_DESCRIPTOR_ISSUE and FERRY_SLOT_START (R182) -/

theorem execFerryDescriptorIssue_ignores {b : Bytes} {s : State}
    (h : reqRecalled s (descOf (fit b 64)).request.toNat = true ∨ streamKnown s (descOf (fit b 64)) = true) :
    execFerryDescriptorIssue b s = .next s := if_pos (by simpa using h)

theorem execFerryDescriptorIssue_issues {b : Bytes} {s : State} (hlive : reqRecalled s (descOf (fit b 64)).request.toNat = false)
    (hnew : streamKnown s (descOf (fit b 64)) = false) :
    execFerryDescriptorIssue b s = .next (issueDesc (descOf (fit b 64)) s) := if_neg (by simp [hlive, hnew])

/-- R182: a descriptor waits behind those that wait already. -/
def descQueued (d : Desc) (s : State) : State := { s with flow := { s.flow with
  nextOrder := s.flow.nextOrder + 1, waiting := s.flow.waiting ++ [(s.flow.nextOrder, d)] } }

theorem issueDesc_eq (d : Desc) (s : State) :
    issueDesc d s = startWaiting (descQueued d s).flow.waiting.length (descQueued d s) := rfl

theorem emptiestFerry_descQueued (d : Desc) (s : State) : emptiestFerry (descQueued d s) = emptiestFerry s :=
  emptiestFerry_congr rfl

theorem startWaiting_full {s : State} (h : emptiestFerry s = none) (n : Nat) : startWaiting n s = s := by
  cases n with
  | zero => rfl
  | succ n => simp [startWaiting, h]

theorem issueDesc_full {s : State} (h : emptiestFerry s = none) (d : Desc) : issueDesc d s = descQueued d s := by
  rw [issueDesc_eq, startWaiting_full ((emptiestFerry_descQueued d s).trans h)]

/-- R182: a descriptor's place in the order has been taken, and none waits. -/
def turnTaken (s : State) : State := { s with flow := { s.flow with nextOrder := s.flow.nextOrder + 1, waiting := [] } }

/-- R182: a descriptor with none before it goes to the Ferry at once. -/
theorem issueDesc_alone {f : Nat} {s : State} (hnone : s.flow.waiting = []) (hf : emptiestFerry s = some f) (d : Desc) :
    issueDesc d s = startStream f s.flow.nextOrder d (turnTaken s) := by
  have hqueue : (descQueued d s).flow.waiting = [(s.flow.nextOrder, d)] := by simp [descQueued, hnone]
  rw [issueDesc_eq, hqueue]
  simp only [List.length_singleton, startWaiting, emptiestFerry_descQueued, hf, hqueue, firstWaiting]
  simp [descQueued, turnTaken]

/-- R182: a waiting descriptor has left the queue. -/
def dequeued (order : Nat) (s : State) : State :=
  { s with flow := { s.flow with waiting := s.flow.waiting.filter fun k => k.1 ≠ order } }

theorem execFerrySlotStart_starts {f : Fin 256} {e : Nat × Desc} {s : State} (hf : emptiestFerry s = some f.val)
    (he : firstWaiting s.flow.waiting = some e) :
    execFerrySlotStart f s = .next (startStream f.val e.1 e.2 (dequeued e.1 s)) := by
  simp [execFerrySlotStart, hf, he, dequeued]

theorem withFlow_only (s : State) (x : Flow) : Only [.flow] s { s with flow := x } := by
  refine Only.upd (Only.refl _ s) fun p hp => ?_
  cases p
  case flow => exact absurd (by decide) hp
  case gov | events | monitors => exact ⟨rfl, rfl, rfl⟩
  all_goals rfl

/-- R182: the clause on a good descriptor with none before it. -/
theorem ferryDescriptorIssue_starts {b : Bytes} {f k : Nat} {s : State}
    (hlive : reqRecalled s (descOf (fit b 64)).request.toNat = false) (hnew : streamKnown s (descOf (fit b 64)) = false)
    (hnone : s.flow.waiting = []) (hgood : descBad (descOf (fit b 64)) = false) (hf : emptiestFerry s = some f)
    (hk : freeKey (ferryOf s f).streams 16 = some k) : Completes (.ferryDescriptorIssue b) s fun t =>
      streamOf t f k = some (newStream s.flow.nextOrder (descOf (fit b 64)) false) ∧ (∀ g, g ≠ f → ferryOf t g = ferryOf s g) ∧
      t.flow.nextOrder = s.flow.nextOrder + 1 ∧ t.flow.waiting = [] ∧ Only [.flow] s t := by
  have hexec := execFerryDescriptorIssue_issues hlive hnew
  rw [issueDesc_alone hnone hf, startStream_good hgood] at hexec
  obtain ⟨hstream, hothers, horder, hwaiting⟩ :=
    beginStream_spec (s := turnTaken s) (order := s.flow.nextOrder) (d := descOf (fit b 64)) (dud := false) hk
  exact ⟨_, hexec, hstream, hothers, horder, hwaiting, Only.step (beginStream_only ..) rfl (withFlow_only s _)⟩

/-- R184: the clause on a bad descriptor with none before it. -/
theorem ferryDescriptorIssue_turnsAway {b : Bytes} {f : Nat} {s : State}
    (hlive : reqRecalled s (descOf (fit b 64)).request.toNat = false) (hnew : streamKnown s (descOf (fit b 64)) = false)
    (hnone : s.flow.waiting = []) (hbad : descBad (descOf (fit b 64)) = true) (hf : emptiestFerry s = some f) :
    let d := descOf (fit b 64)
    let u := badReported f (turnTaken s)
    (descMcast d = false ∨ dudDesc s d = none → exec (.ferryDescriptorIssue b) s = .next (poisonStream f d u)) ∧
    (∀ e, descMcast d = true → dudDesc s d = some e →
      exec (.ferryDescriptorIssue b) s = .next (beginStream f s.flow.nextOrder e true u) ∧
      descBad e = false ∧ e.request = d.request ∧ e.stream = d.stream) := by
  intro d u
  have hexec : exec (.ferryDescriptorIssue b) s = .next (startStream f s.flow.nextOrder d (turnTaken s)) := by
    rw [← issueDesc_alone hnone hf]
    exact execFerryDescriptorIssue_issues hlive hnew
  have hdud : dudDesc u d = dudDesc s d :=
    dudDesc_congr ((badReported_only f (turnTaken s)).reqs_eq (by decide)) ((badReported_only f (turnTaken s)).2 .model (by decide)) d
  rw [hexec]
  refine ⟨fun h => ?_, fun e hmcast he => ⟨?_, dudDesc_good he⟩⟩
  · rw [startStream_poisons hbad (hdud ▸ h)]
  · rw [startStream_replaces hbad hmcast (hdud.trans he)]

theorem badReported_spec (f : Nat) (s : State) : let u := badReported f (turnTaken s)
    u.flow.ferries = s.flow.ferries ∧ u.flow.waiting = [] ∧ Raised .badDescriptor 5 f s u ∧
      counterOf u (ob 0x4023 1) = counterOf s (ob 0x4023 1) + 1 ∧ Only [.counters, .events, .held, .flow, .out] s u := by
  intro u
  have honly := badReported_only f (turnTaken s)
  have hflow : u.flow = (turnTaken s).flow := honly.2 .flow (by decide)
  refine ⟨by rw [hflow]; rfl, by rw [hflow]; rfl, raised_raise_bump (by decide) .badDescriptor 5 f (turnTaken s),
    badReported_counts f (turnTaken s), Only.step honly rfl ((withFlow_only s _).mono rfl)⟩

/-- R182: the clause on a waiting descriptor that takes a slot. -/
theorem ferrySlotStart_starts {f : Fin 256} {e : Nat × Desc} {k : Nat} {s : State} (hf : emptiestFerry s = some f.val)
    (he : firstWaiting s.flow.waiting = some e) (hgood : descBad e.2 = false) (hk : freeKey (ferryOf s f).streams 16 = some k) :
    Completes (.ferrySlotStart f) s fun t => streamOf t f k = some (newStream e.1 e.2 false) ∧
      t.flow.waiting = s.flow.waiting.filter (fun x => x.1 ≠ e.1) ∧ Only [.flow] s t := by
  have hexec := execFerrySlotStart_starts hf he
  rw [startStream_good hgood] at hexec
  obtain ⟨hstream, -, -, hwaiting⟩ := beginStream_spec (s := dequeued e.1 s) (order := e.1) (d := e.2) (dud := false) hk
  exact ⟨_, hexec, hstream, hwaiting, Only.step (beginStream_only ..) rfl (withFlow_only s _)⟩

end Sys2Proof.Laws
end

section
/-! SUPPORT. What accesses to the Harbour leave (R165, R321 to R323, R336): of what the module counts its time by, Tide. -/

namespace Sys2Proof.Laws

open Sys2Proof.Machine

/-- From `s` to `t` lie only accesses to the Harbour: powered time may have been stored with a failure (R491), but Tide's count is as
before. -/
def Accessed (s t : State) : Prop :=
  Only [.time, .cause, .counters, .events, .held, .hbr, .integ, .out] s t ∧ t.time.pll = s.time.pll

namespace Accessed

variable {s t u : State}

theorem refl (s : State) : Accessed s s := ⟨Only.refl _ s, rfl⟩

theorem trans (h : Accessed s t) (k : Accessed t u) : Accessed s u := ⟨h.1.trans k.1, k.2.trans h.2⟩

/-- What changes no time is an access where it changes no more than an access may. -/
theorem of_only {P : List Part} (h : Only P s t) (hp : subParts P [.time, .cause, .counters, .events, .held, .hbr, .integ, .out] = true)
    (ht : Part.time ∉ P) : Accessed s t := ⟨h.mono hp, congrArg Time.pll (h.2 .time ht)⟩

theorem foldl {α : Type} {f : State → α → State} (hf : ∀ s a, Accessed s (f s a)) (l : List α) (s : State) :
    Accessed s (l.foldl f s) := by
  induction l generalizing s with
  | nil => exact refl s
  | cons a l ih => exact (hf s a).trans (ih _)

theorem ite {c : Prop} [Decidable c] (ht : Accessed s t) (hu : Accessed s u) : Accessed s (if c then t else u) := by
  split
  · exact ht
  · exact hu

theorem bankHit (bank : Nat) (s : State) : Accessed s (Machine.bankHit bank s) := by
  refine ⟨(bankHit_only bank s).mono rfl, ?_⟩
  have hcount : (countFailure .harbourBank bank s).1.time.pll = s.time.pll := by
    simp only [countFailure]
    split
    · rfl
    · split <;> rfl
  simp only [Machine.bankHit]
  split
  · rw [(permanentEvent_only ..).2 .time (by decide), hcount]
  · exact hcount

theorem touchWord (word : Nat) (s : State) : Accessed s (Machine.touchWord word s) := by
  have hcorrect (bit : Nat) : Accessed s (harbourCorrect word bit s) := of_only (harbourCorrect_only word bit s) rfl (by decide)
  unfold Machine.touchWord
  split
  · exact refl s
  · exact refl s
  · exact hcorrect _
  · exact hcorrect _
  · exact (of_only (uncorrectable_only ..) rfl (by decide)).trans (bankHit ..)

theorem touchGranule (g : Nat) (s : State) : Accessed s (Machine.touchGranule g s) :=
  ite (foldl (fun s k => touchWord (8 * g + k) s) _ s) (refl s)

theorem useSlot (bank cls : Nat) (s : State) : Accessed s (Machine.useSlot bank cls s) := of_only (useSlot_only ..) rfl (by decide)

theorem touchRun (port : BitVec 12) (a len : Nat) (s : State) : Accessed s (Machine.touchRun port a len s) :=
  foldl (fun s _ => ite ((useSlot ..).trans (touchGranule ..)) (refl s)) _ s

theorem storeRun (port : BitVec 12) (a : Nat) (d : Bytes) (poison : Bool) (s : State) :
    Accessed s (Machine.storeRun port a d poison s) := by
  unfold Machine.storeRun
  refine ite (refl s) ?_
  refine (foldl (fun s g => ?_) (granulesOf a d.length) s).trans (of_only (harbWrite_only ..) rfl (by decide))
  exact (useSlot ..).trans (ite (refl _) (touchGranule ..))

theorem fetchRuns (port : BitVec 12) (runs : List (Nat × Nat)) (s : State) : Accessed s (Machine.fetchRuns port runs s).2 := by
  unfold Machine.fetchRuns
  generalize (([], []) : Bytes × List Bool) = got
  induction runs generalizing got s with
  | nil => exact refl s
  | cons r l ih => exact (touchRun port r.1 r.2 s).trans (ih _ _)

theorem stageLong (f k : Nat) (d : Desc) (b : Bytes) (bad : Bool) (s : State) : Accessed s (Machine.stageLong f k d b bad s).2 := by
  unfold Machine.stageLong
  split
  · exact refl s
  · exact (storeRun ..).trans ((touchRun ..).trans (touchRun ..))

theorem flow_eq (h : Accessed s t) : t.flow = s.flow := h.1.2 .flow (by decide)

theorem tideOf_eq (h : Accessed s t) : tideOf t = tideOf s := by
  have hregs : { t.regs with intCause := s.regs.intCause } = s.regs := h.1.2 .regs (by decide)
  have hoffset : t.regs.offsetActive = s.regs.offsetActive := (congrArg Regs.offsetActive hregs :)
  rw [tideOf, h.2, hoffset, tideOf]

end Accessed

end Sys2Proof.Laws
end

section
/-! SUPPORT. A stream takes a slab to fill (R180, R185, R186, R189), and a cancelled one gives its slabs up (R190, R191). -/

namespace Sys2Proof.Laws

open Sys2Proof.Machine

@[simp] theorem streamOf_modLace (n f k : Nat) (g : Lace → Lace) (s : State) : streamOf (modLace n g s) f k = streamOf s f k := by
  rw [streamOf, ferryOf, modLace_flow, streamOf, ferryOf]

@[simp] theorem modLace_ferries (n : Nat) (g : Lace → Lace) (s : State) : (modLace n g s).flow.ferries = s.flow.ferries := by
  rw [modLace_flow]

theorem modLaunch_flow (l : Nat) (g : Launch → Launch) (s : State) : (modLaunch l g s).flow = s.flow :=
  (modLaunch_only ..).2 .flow (by decide)

@[simp] theorem modLace_model (n : Nat) (g : Lace → Lace) (s : State) : (modLace n g s).model = s.model :=
  (modLace_only ..).2 .model (by decide)

theorem tget?_modLaunch {l : Nat} {x : Launch} {s : State} (g : Launch → Launch) (h : tget? s.model.launches l = some x) :
    tget? (modLaunch l g s).model.launches l = some (g x) := by
  simp [modLaunch, h]

@[simp] theorem modStream_laces (f k : Nat) (g : Stream → Stream) (s : State) : (modStream f k g s).flow.laces = s.flow.laces := rfl

@[simp] theorem modStream_model (f k : Nat) (g : Stream → Stream) (s : State) : (modStream f k g s).model = s.model := rfl

/-- R178, R180: a slab that a Lace has just taken of its launch's reservation for a Ferry to fill. -/
def takenSlab (h : BitVec 16) (reqs : List Nat) (la : Lace) : Held :=
  { h, reqs, waits := List.range la.consumers.length, vec := 0, off := 0, ferry := true }

theorem laceTake_takes {n : Nat} {la : Lace} {x : Launch} {h : BitVec 16} {rest : List (BitVec 16)} {s : State}
    (hla : tget? s.flow.laces n = some la) (hroom : la.held.length < la.depth) (hx : tget? s.model.launches la.launch = some x)
    (hres : x.reserved = h :: rest) (reqs : List Nat) :
    laceTake n reqs 0 0 true s = some (h, modLace n (fun y => { y with held := y.held ++ [takenSlab h reqs la] })
      (modLaunch la.launch (fun l => { l with reserved := rest }) s)) := by
  simp [laceTake, hla, hx, hres, Nat.not_le.2 hroom, takenSlab]

section Start

variable {f : Fin 256} {j : Fin 16} {st : Stream} {n : Nat} {la : Lace} {s : State}
variable (hst : streamOf s f j = some st) (hfills : fillsSlabs st.desc = true) (hready : readyToFetch s f j st = true)
  (hfirst : firstStream s f j st = true) (hdest : destLace s st.desc = some n) (hla : tget? s.flow.laces n = some la)
include hst hfills hready hfirst hdest hla

/-- R186, R189: the stream goes on with the slab that its Lace's former stream left open. -/
theorem slabFillStart_continues {o : OpenSlab} (ho : openFor s n st = some o) : Completes (.slabFillStart f j) s fun t =>
    streamOf t f j = some { st with filling := [o.h] } ∧ Only [.flow] s t ∧
    tget? t.flow.laces n = some { la with
      held := la.held.map fun k => if k.h = o.h then { k with reqs := k.reqs ++ [st.desc.request.toNat] } else k } := by
  have hexec : execSlabFillStart f j s = .next (modStream f j (fun t => { t with filling := [o.h] }) (modLace n (fun la =>
      { la with held := la.held.map fun k => if k.h = o.h then { k with reqs := k.reqs ++ [st.desc.request.toNat] } else k }) s)) := by
    simp [execSlabFillStart, hst, hfills, hready, hfirst, hdest, ho]
  refine ⟨_, hexec, streamOf_modStream _ (by rw [streamOf_modLace, hst]), ?only, tget?_modLace _ hla⟩
  case only => exact Only.step (modStream_only ..) rfl (modLace_only ..)

/-- R180, R185: the stream takes the first reserved handle of its launch. -/
theorem slabFillStart_takes {x : Launch} {h : BitVec 16} {rest : List (BitVec 16)} (ho : openFor s n st = none)
    (hroom : la.held.length < la.depth) (hx : tget? s.model.launches la.launch = some x) (hres : x.reserved = h :: rest) :
    Completes (.slabFillStart f j) s fun t => streamOf t f j = some { st with filling := st.filling ++ [h] } ∧
      tget? t.flow.laces n = some { la with held := la.held ++ [takenSlab h [st.desc.request.toNat] la] } ∧
      tget? t.model.launches la.launch = some { x with reserved := rest } ∧ Only [.model, .flow] s t := by
  have htake := laceTake_takes hla hroom hx hres [st.desc.request.toNat]
  have hexec : execSlabFillStart f j s = .next (modStream f j (fun t => { t with filling := t.filling ++ [h] }) (modLace n
      (fun y => { y with held := y.held ++ [takenSlab h [st.desc.request.toNat] la] })
      (modLaunch la.launch (fun l => { l with reserved := rest }) s))) := by
    simp [execSlabFillStart, hst, hfills, hready, hfirst, hdest, ho, htake]
  refine ⟨_, hexec, streamOf_modStream _ ?stream, tget?_modLace _ ?lace, ?launch, ?only⟩
  case stream => rw [streamOf_modLace, streamOf, ferryOf, modLaunch_flow]; exact hst
  case lace => rw [modLaunch_flow, hla]
  case launch => rw [modStream_model, modLace_model, tget?_modLaunch _ hx]
  case only => exact Only.step (modStream_only ..) rfl (Only.step (modLace_only ..) rfl ((modLaunch_only ..).mono rfl))

end Start

/-! ## CANCELLED_SLAB_RECALL (R190, R191) -/

/-- R190: a cancelled stream is left without its first handle, and gone once it had no other. -/
def handleLeft (f k : Nat) (rest : List (BitVec 16)) (s : State) : State :=
  if rest = [] then dropStream f k s else modStream f k (fun t => { t with filling := rest }) s

theorem handleLeft_only (f k : Nat) (rest : List (BitVec 16)) (s : State) : Only [.flow] s (handleLeft f k rest s) :=
  Only.ite (fun _ => dropStream_only ..) fun _ => modStream_only ..

theorem handleLeft_flow (f k : Nat) (rest : List (BitVec 16)) (s : State) :
    (handleLeft f k rest s).flow = { s.flow with ferries := (handleLeft f k rest s).flow.ferries } := by
  unfold handleLeft
  split <;> rfl

theorem handleLeft_stream {f k : Nat} {st : Stream} {rest : List (BitVec 16)} {s : State} (hst : streamOf s f k = some st) :
    if rest = [] then (ferryOf (handleLeft f k rest s) f).streams = tdel (ferryOf s f).streams k
    else streamOf (handleLeft f k rest s) f k = some { st with filling := rest } := by
  unfold handleLeft
  split
  · rw [dropStream, ferryOf_modFerry_self]
  · exact streamOf_modStream _ hst

/-- R191: the cancelled slab has been counted, and its handle taken from the stream. -/
def slabCounted (f k : Nat) (rest : List (BitVec 16)) (s : State) : State := handleLeft f k rest (bump (ob 0x4022 1) s)

theorem slabCounted_only (f k : Nat) (rest : List (BitVec 16)) (s : State) : Only [.counters, .flow] s (slabCounted f k rest s) :=
  Only.step (handleLeft_only ..) rfl ((bump_only ..).mono rfl)

theorem slabCounted_counts (f k : Nat) (rest : List (BitVec 16)) (s : State) :
    counterOf (slabCounted f k rest s) (ob 0x4022 1) = counterOf s (ob 0x4022 1) + 1 := by
  rw [slabCounted, (handleLeft_only ..).counterOf_eq (by decide), counterOf_bump_self]

theorem slabCounted_flow (f k : Nat) (rest : List (BitVec 16)) (s : State) :
    (slabCounted f k rest s).flow = { s.flow with ferries := (slabCounted f k rest s).flow.ferries } := handleLeft_flow ..

theorem laceOfHandle_slabCounted (h : BitVec 16) (f k : Nat) (rest : List (BitVec 16)) (s : State) :
    laceOfHandle (slabCounted f k rest s) h = laceOfHandle s h := by
  rw [laceOfHandle, slabCounted_flow, laceOfHandle]

/-- R191: a slab that nobody has to release any more. -/
def givenUp (h : BitVec 16) (la : Lace) : Lace :=
  { la with held := la.held.map fun k => if k.h = h then { k with waits := [] } else k }

theorem givenUp_keeps {g h : BitVec 16} {la : Lace} (hheld : ∃ x ∈ la.held, x.h = g) : ∃ x ∈ (givenUp h la).held, x.h = g := by
  obtain ⟨x, hx, rfl⟩ := hheld
  refine ⟨_, List.mem_map_of_mem hx, ?_⟩
  split <;> rfl

theorem givenUp_frees {h : BitVec 16} {la : Lace} (hheld : ∃ x ∈ la.held, x.h = h) :
    ∃ x ∈ (givenUp h la).held, x.h = h ∧ x.waits = [] := by
  obtain ⟨x, hx, hxh⟩ := hheld
  exact ⟨{ x with waits := [] }, List.mem_map.2 ⟨x, hx, if_pos hxh⟩, hxh, rfl⟩

theorem laceOfHandle_holds {h : BitVec 16} {n : Nat} {la : Lace} {s : State} (hl : laceOfHandle s h = some (n, la)) :
    ∃ x ∈ la.held, x.h = h := by
  have hheld := List.find?_some (p := fun e : Nat × Lace => e.2.held.any fun x => x.h = h) hl
  simpa using hheld

/-- The Lace that holds a handle is still the one after a change of it that keeps the handle. -/
theorem laceOfHandle_modLace {h : BitVec 16} {n : Nat} {la : Lace} {g : Lace → Lace} {s : State}
    (hl : laceOfHandle s h = some (n, la)) (hla : tget? s.flow.laces n = some la)
    (hkeeps : (∃ x ∈ la.held, x.h = h) → ∃ x ∈ (g la).held, x.h = h) : laceOfHandle (modLace n g s) h = some (n, g la) := by
  have hkept := hkeeps (laceOfHandle_holds hl)
  simp only [laceOfHandle, modLace, hla] at hl ⊢
  exact find?_tset (p := fun la : Lace => la.held.any fun x => x.h = h) _ hl hla (by simpa using hkept)

theorem clearReleased_flow (h : BitVec 16) (s : State) :
    (clearReleased h s).flow = { s.flow with clearing := (clearReleased h s).flow.clearing } := by
  unfold clearReleased
  split
  · rfl
  · extract_lets free pool
    split <;> rfl

theorem clearReleased_ferries (h : BitVec 16) (s : State) : (clearReleased h s).flow.ferries = s.flow.ferries := by
  rw [clearReleased_flow]

section Recall

variable {f : Fin 256} {j : Fin 16} {st : Stream} {s : State}
variable (hst : streamOf s f j = some st) (hcancelled : st.cancelled = true)
include hst hcancelled

theorem execSlabPush_cancelled (r : HostRead) : execSlabPush f j r s = .next s := by
  simp [execSlabPush, hst, hcancelled]

theorem cancelledSlabRecall_ends (hnone : st.filling = []) : ∃ u,
    exec (.cancelledSlabRecall f j) s = .next (endFor st.desc.request.toNat u) ∧
    (ferryOf u f).streams = tdel (ferryOf s f).streams j ∧ Only [.flow] s u := by
  have hexec : execCancelledSlabRecall f j s = .next (endFor st.desc.request.toNat (dropStream f j s)) := by
    simp [execCancelledSlabRecall, hst, hcancelled, hnone]
  refine ⟨_, hexec, ?_, dropStream_only ..⟩
  rw [dropStream, ferryOf_modFerry_self]

variable {h : BitVec 16} {rest : List (BitVec 16)} {n : Nat} {la : Lace}

/-- R189 to R191: a cancelled slab is counted; what becomes of it turns on whether it is the one that the Lace has open, and on whether it
holds other requests' data. -/
theorem execCancelledSlabRecall_slab (hfill : st.filling = h :: rest) (hl : laceOfHandle s h = some (n, la))
    (hla : tget? s.flow.laces n = some la) : execCancelledSlabRecall f j s =
      let u := slabCounted f j rest s
      if (decide (la.partialSlab.map (fun o => o.h) = some h) &&
          la.held.any fun k => k.h = h && !onlyStopped u st.desc.request.toNat k) = true then
        .next (endFor st.desc.request.toNat (discardLate (flushOpen n u)))
      else .next (endFor st.desc.request.toNat (clearReleased h (modLace n (fun y => { givenUp h y with
        partialSlab := if la.partialSlab.map (fun o => o.h) = some h then none else y.partialSlab }) u))) := by
  have hcounted : (if rest = [] then dropStream f j (bump (ob 0x4022 1) s)
      else modStream f j (fun t => { t with filling := rest }) (bump (ob 0x4022 1) s)) = slabCounted f j rest s := rfl
  have hl' : laceOfHandle (slabCounted f j rest s) h = some (n, la) := (laceOfHandle_slabCounted ..).trans hl
  have hla' : tget? (slabCounted f j rest s).flow.laces n = some la := by rw [slabCounted_flow]; exact hla
  unfold execCancelledSlabRecall
  simp only [hst, hcancelled, hfill, hcounted, hl', hla']
  simp [givenUp]

/-- R191: a slab of the cancelled stream alone is given up to its clear. -/
theorem cancelledSlabRecall_clears (hfill : st.filling = h :: rest) (hl : laceOfHandle s h = some (n, la))
    (hla : tget? s.flow.laces n = some la) (hopen : la.partialSlab = none) : ∃ u,
    exec (.cancelledSlabRecall f j) s = .next (endFor st.desc.request.toNat u) ∧
    counterOf u (ob 0x4022 1) = counterOf s (ob 0x4022 1) + 1 ∧
    (if rest = [] then (ferryOf u f).streams = tdel (ferryOf s f).streams j else streamOf u f j = some { st with filling := rest }) ∧
    tget? u.flow.laces n = some (givenUp h la) ∧
    (h ∉ s.flow.recomputeHolds → (∀ c ∈ s.flow.clearing, c.1 ≠ h) →
      (∃ p, u.flow.clearing = s.flow.clearing ++ [(h, p)]) ∧
      u.hbr = { s.hbr with clears := s.hbr.clears ++ [(slabAddr h.toNat, 16384)] }) ∧
    Only [.counters, .flow, .hbr] s u := by
  have hexec : execCancelledSlabRecall f j s =
      .next (endFor st.desc.request.toNat (clearReleased h (modLace n (givenUp h) (slabCounted f j rest s)))) := by
    rw [execCancelledSlabRecall_slab hst hcancelled hfill hl hla, hopen]
    rfl
  have hfound : laceOfHandle (modLace n (givenUp h) (slabCounted f j rest s)) h = some (n, givenUp h la) :=
    laceOfHandle_modLace ((laceOfHandle_slabCounted ..).trans hl) (by rw [slabCounted_flow]; exact hla) givenUp_keeps
  have honly : Only [.counters, .flow] s (modLace n (givenUp h) (slabCounted f j rest s)) :=
    Only.step (modLace_only ..) rfl (slabCounted_only ..)
  have hstream := handleLeft_stream (f := f) (k := j) (rest := rest) (s := bump (ob 0x4022 1) s) hst
  refine ⟨_, hexec, ?counted, ?stream, ?lace, fun hholds hclearing => ?cleared, ?only⟩
  case counted =>
    rw [(clearReleased_only ..).counterOf_eq (by decide), (modLace_only ..).counterOf_eq (by decide), slabCounted_counts]
  case stream =>
    rw [streamOf, ferryOf, clearReleased_ferries, modLace_ferries]
    exact hstream
  case lace =>
    rw [clearReleased_flow]
    exact tget?_modLace _ (by rw [slabCounted_flow]; exact hla)
  case cleared =>
    obtain ⟨⟨p, hflow⟩, hhbr⟩ := clearReleased_clears hfound ⟨givenUp_frees (laceOfHandle_holds hl),
      by rw [modLace_flow, slabCounted_flow]; exact hholds, by rw [modLace_flow, slabCounted_flow]; exact hclearing⟩
    rw [hhbr, hbr_eq_of_only honly (by decide) (by decide)]
    refine ⟨⟨p, ?_⟩, rfl⟩
    rw [hflow, modLace_flow, slabCounted_flow]
  case only => exact Only.step (clearReleased_only ..) rfl (honly.mono rfl)

/-- R189: a slab that holds other requests' data too goes on to them. -/
theorem cancelledSlabRecall_passesOn {o : OpenSlab} (hfill : st.filling = h :: rest) (hl : laceOfHandle s h = some (n, la))
    (hla : tget? s.flow.laces n = some la) (hopen : la.partialSlab = some o) (hoh : o.h = h)
    (hothers : ∃ k ∈ la.held, k.h = h ∧ onlyStopped s st.desc.request.toNat k = false) : ∃ u,
    exec (.cancelledSlabRecall f j) s = .next (endFor st.desc.request.toNat (discardLate (flushOpen n u))) ∧
    counterOf u (ob 0x4022 1) = counterOf s (ob 0x4022 1) + 1 ∧ u.flow.laces = s.flow.laces ∧ Only [.counters, .flow] s u := by
  have hstopped (k : Held) : onlyStopped (slabCounted f j rest s) st.desc.request.toNat k = onlyStopped s st.desc.request.toNat k := by
    unfold onlyStopped reqStopped
    rw [(slabCounted_only ..).reqs_eq (by decide)]
  have hguard : (decide (la.partialSlab.map (fun o => o.h) = some h) && la.held.any fun k => k.h = h &&
      !onlyStopped (slabCounted f j rest s) st.desc.request.toNat k) = true := by
    obtain ⟨k, hk, hkh, hgoes⟩ := hothers
    have hsome : (la.held.any fun k => k.h = h && !onlyStopped (slabCounted f j rest s) st.desc.request.toNat k) = true :=
      List.any_eq_true.2 ⟨k, hk, by simp [hkh, hstopped, hgoes]⟩
    simp [hopen, hoh, hsome]
  refine ⟨slabCounted f j rest s, ?exec, slabCounted_counts .., ?laces, slabCounted_only ..⟩
  case exec => exact (execCancelledSlabRecall_slab hst hcancelled hfill hl hla).trans (if_pos hguard)
  case laces => rw [slabCounted_flow]

end Recall

end Sys2Proof.Laws
end

section
/-! SUPPORT. A slab that a Ferry has filled of a Harbour source is written, converted, and pushed (R120, R179, R185, R186, R189, R193). -/

namespace Sys2Proof.Laws

open Sys2Proof.Machine

/-! ## Tables in rising order -/

theorem mem_tkeys_of_tget? {α : Type} {t : Tab α} {n : Nat} {v : α} (h : tget? t n = some v) : n ∈ tkeys t := by
  induction t with
  | nil => cases h
  | cons e t ih =>
    obtain ⟨k, w⟩ := e
    by_cases hk : k = n
    · exact hk ▸ List.mem_cons_self
    · exact List.mem_cons_of_mem k (ih (by simpa [tget?, hk] using h))

/-- A write of an entry that is listed leaves the numbers of a rising table. -/
theorem tkeys_tset_listed {α : Type} {t : Tab α} {n : Nat} (v : α) (hup : (tkeys t).Pairwise (· < ·)) (hn : n ∈ tkeys t) :
    tkeys (tset t n v) = tkeys t := by
  induction t with
  | nil => cases hn
  | cons e t ih =>
    obtain ⟨k, w⟩ := e
    obtain ⟨hfirst, hrest⟩ := List.pairwise_cons.1 hup
    obtain rfl | hn := List.mem_cons.1 hn
    · simp [tset, tkeys]
    · have hk : k < n := hfirst n hn
      have hset : tset ((k, w) :: t) n v = (k, w) :: tset t n v := by simp [tset, hk.not_gt, hk.ne']
      rw [hset]
      exact congrArg (k :: ·) (ih hrest hn)

/-- A rising table lists no entry twice: a removed entry is gone. -/
theorem tget?_tdel_self {α : Type} {t : Tab α} (hup : (tkeys t).Pairwise (· < ·)) (n : Nat) : tget? (tdel t n) n = none := by
  induction t with
  | nil => rfl
  | cons e t ih =>
    obtain ⟨k, w⟩ := e
    obtain ⟨hfirst, hrest⟩ := List.pairwise_cons.1 hup
    by_cases hk : k = n
    · rw [show tdel ((k, w) :: t) n = t from if_pos hk]
      by_contra hlisted
      obtain ⟨v, hv⟩ := Option.ne_none_iff_exists'.1 hlisted
      exact absurd (hfirst n (mem_tkeys_of_tget? hv)) (by omega)
    · simp [tdel, tget?, hk, ih hrest]

/-! ## Before the push -/

/-- From `s` to `w` slot `k` of Ferry `f` has read what fills its slab of Lace `n` and has moved on to `st'`; of the Lace, only where its
slabs begin may have been noted. -/
structure SlabFilled (f k n : Nat) (st' : Stream) (la : Lace) (s w : State) : Prop where
  stream : streamOf w f k = some st'
  keys : (tkeys (ferryOf w f).streams).Pairwise (· < ·)
  lace : ∃ held, tget? w.flow.laces n = some { la with held } ∧ held.map (fun k => k.h) = la.held.map (fun k => k.h)
  tide : tideOf w = tideOf s
  only : Only [.time, .cause, .counters, .events, .held, .flow, .hbr, .integ, .out] s w

theorem placeHeld_lace {n : Nat} {la : Lace} {s : State} (hla : tget? s.flow.laces n = some la) (h : BitVec 16) (a vec off : Nat) :
    ∃ held, tget? (placeHeld n h a vec off s).flow.laces n = some { la with held } ∧
      held.map (fun k => k.h) = la.held.map (fun k => k.h) := by
  refine ⟨_, tget?_modLace _ hla, ?_⟩
  rw [List.map_map]
  refine List.map_congr_left fun k _ => ?_
  simp only [Function.comp_apply]
  split <;> rfl

theorem placeHeld_ferries (n : Nat) (h : BitVec 16) (a vec off : Nat) (s : State) :
    (placeHeld n h a vec off s).flow.ferries = s.flow.ferries := modLace_ferries ..

theorem modStream_keys {f k : Nat} {st : Stream} {s : State} (g : Stream → Stream) (hst : streamOf s f k = some st)
    (hup : (tkeys (ferryOf s f).streams).Pairwise (· < ·)) : (tkeys (ferryOf (modStream f k g s) f).streams).Pairwise (· < ·) := by
  have hget : tget? (ferryOf s f).streams k = some st := hst
  rw [modStream, ferryOf_modFerry_self, hget]
  show (tkeys (tset (ferryOf s f).streams k (g st))).Pairwise (· < ·)
  rw [tkeys_tset_listed _ hup (mem_tkeys_of_tget? hget)]
  exact hup

theorem SlabFilled.of_accessed {f k n : Nat} {st : Stream} {la : Lace} {s v : State} (hv : Accessed s v)
    (hup : (tkeys (ferryOf s f).streams).Pairwise (· < ·)) (hst : streamOf s f k = some st) (hla : tget? s.flow.laces n = some la)
    (g : Stream → Stream) (h : BitVec 16) (a vec off : Nat) :
    SlabFilled f k n (g st) la s (placeHeld n h a vec off (modStream f k g v)) := by
  have hferry : ferryOf v f = ferryOf s f := by rw [ferryOf, hv.flow_eq, ferryOf]
  have hst' : streamOf v f k = some st := by rw [streamOf, hferry]; exact hst
  have hmoved : Only [.flow] v (placeHeld n h a vec off (modStream f k g v)) :=
    Only.step (placeHeld_only ..) rfl (modStream_only ..)
  refine ⟨?stream, ?keys, placeHeld_lace ?lace h a vec off, ?tide, Only.step hmoved rfl (hv.1.mono rfl)⟩
  case stream => rw [streamOf, ferryOf, placeHeld_ferries]; exact streamOf_modStream g hst'
  case keys => rw [ferryOf, placeHeld_ferries]; exact modStream_keys g hst' (hferry ▸ hup)
  case lace => rw [modStream_laces, hv.flow_eq, hla]
  case tide => rw [hmoved.tideOf_eq (by decide) (by decide) (by decide), hv.tideOf_eq]

/-! ## The push (R177, R179, R189) -/

/-- R177: the entry that a slab in time is pushed as. -/
def slabEntry (s : State) (la : Lace) (o : OpenSlab) (planes last : Bool) : LaceEntry :=
  { slab := o.h, fill := BitVec.ofNat 15 (openBytes planes o).length, poison := o.poison, special := o.special, last, late := false
    gen := ((tget? s.model.launches la.launch).map fun x => x.gen).getD 0, seq := BitVec.ofNat 12 la.pushed }

/-- R189: a stream that has moved its last slab has fed its Lace and is gone. -/
def streamEnded (f k n a : Nat) (last : Bool) (s : State) : State :=
  if last then dropStream f k (modLace n (fun la => { la with fed := la.fed ++ [a] }) s) else s

theorem streamEnded_only (f k n a : Nat) (last : Bool) (s : State) : Only [.flow] s (streamEnded f k n a last s) :=
  Only.ite (fun _ => Only.step (dropStream_only ..) rfl (modLace_only ..)) fun _ => Only.refl _ s

theorem streamEnded_lace {n : Nat} {la : Lace} {s : State} (hla : tget? s.flow.laces n = some la) (f k a : Nat) (last : Bool) :
    tget? (streamEnded f k n a last s).flow.laces n = some { la with fed := if last then la.fed ++ [a] else la.fed } := by
  cases last
  · exact hla
  · exact tget?_modLace _ hla

theorem streamEnded_stream {f k : Nat} {st : Stream} {s : State} (hst : streamOf s f k = some st)
    (hup : (tkeys (ferryOf s f).streams).Pairwise (· < ·)) (n a : Nat) (last : Bool) :
    streamOf (streamEnded f k n a last s) f k = if last then none else some st := by
  cases last
  case false => exact hst
  case true =>
    show streamOf (dropStream f k (modLace n _ s)) f k = none
    rw [dropStream, streamOf, ferryOf_modFerry_self, ferryOf, modLace_ferries]
    exact tget?_tdel_self hup k

theorem pushFilled_eq {n : Nat} {la : Lace} {s : State} (hla : tget? s.flow.laces n = some la) (port : BitVec 12) (o : OpenSlab)
    (planes last : Bool) : pushFilled port n o planes last false s =
      pushEntry n (slabEntry s la o planes last) (storeRun port (slabAddr o.h.toNat) (openBytes planes o) o.poison s) := by
  simp [pushFilled, hla, slabEntry]

theorem SlabFilled.stillToFeed_eq {f k n : Nat} {st' : Stream} {la : Lace} {s w : State} (hw : SlabFilled f k n st' la s w)
    (hla : tget? s.flow.laces n = some la) : stillToFeed w n = stillToFeed s n := by
  obtain ⟨held, hlace, -⟩ := hw.lace
  have hmodel : w.model = s.model := hw.only.2 .model (by decide)
  have hstopped : reqStopped w = reqStopped s := by
    funext a
    rw [reqStopped, hw.only.reqs_eq (by decide), reqStopped]
  simp only [stillToFeed, hlace, hla, hmodel, hstopped]

/-- R193: a slab whose one deadline has not passed is late for nobody. -/
theorem lateFor_inTime {s : State} {d : BitVec 64} (h : pastDue s d = false) (a : Nat) : lateFor s [(a, d)] = [] := by
  simp [lateFor, h]

/-- R193: the slab with the deadline of the request whose data it carries. -/
def slabDue (d : Desc) (o : OpenSlab) : OpenSlab := { o with dues := [(d.request.toNat, d.deadline)] }

/-- R189: the slab is open no longer. -/
def slabClosed (h : BitVec 16) (la : Lace) : Lace :=
  { la with partialSlab := if (la.partialSlab.map fun p => p.h) = some h then none else la.partialSlab }

section Push

variable {f k n : Nat} {st st' : Stream} {la : Lace} {s w : State} {o : OpenSlab}
variable (hw : SlabFilled f k n st' la s w) (hdst : st.desc.dstKind = 0) (hmcast : descMcast st.desc = false)
  (hn : n = st.desc.laceOut.toNat) (hla : tget? s.flow.laces n = some la) (hopen : la.partialSlab = none)
  (hdue : slabLate s st.desc = false) (hturn : ∀ a ∈ stillToFeed s n, a = st.desc.request.toNat) (ho : o.dues = [])
include hw hdst hmcast hn hla hdue hturn ho

/-- R189, R193: a slab in time of a Lace that no further request is to feed is written and pushed. -/
theorem pushSlab_eq (planes room last : Bool) : pushSlab f k st o planes room last w =
    pushFilled (ferryPort f st.desc) n (slabDue st.desc o) planes last false
      (modLace n (slabClosed o.h) (streamEnded f k n st.desc.request.toNat last w)) := by
  have hdest : destLace w st.desc = some n := by simp [destLace, hmcast, hdst, hn]
  have hmore : ((stillToFeed w n).any fun b => decide (b ≠ st.desc.request.toNat)) = false := by
    rw [hw.stillToFeed_eq hla, List.any_eq_false]
    simpa using hturn
  have htime : pastDue w st.desc.deadline = false := by
    unfold pastDue
    rw [hw.tide]
    exact hdue
  have hlate : lateFor w (o.dues ++ [(st.desc.request.toNat, st.desc.deadline)]) = [] := by
    rw [ho]
    exact lateFor_inTime htime _
  have hdues : ({ o with dues := o.dues ++ [(st.desc.request.toNat, st.desc.deadline)] } : OpenSlab) = slabDue st.desc o := by
    rw [ho]
    rfl
  unfold pushSlab
  simp only [hdest, hmore, hdues, hlate, hmcast, Bool.and_false, Bool.false_eq_true, if_false, Bool.not_false, Bool.and_true, ne_eq,
    not_true_eq_false, decide_false]
  rfl

include hopen

/-- R177 to R179, R189: the clause on a filled slab that is pushed. -/
theorem pushSlab_spec (planes room last : Bool) : let u := pushSlab f k st o planes room last w
    let e := slabEntry s la o planes last
    (∃ v, u.hbr = (storeRun (ferryPort f st.desc) (slabAddr o.h.toNat) (openBytes planes o) o.poison v).hbr) ∧
    (∃ la', tget? u.flow.laces n = some la' ∧ la'.pushed = la.pushed + 1 ∧
      la'.held.map (fun k => k.h) = la.held.map (fun k => k.h) ∧ la'.partialSlab = none ∧
      la'.fed = (if last then la.fed ++ [st.desc.request.toNat] else la.fed) ∧
      la'.consumers = la.consumers.map fun c => { c with waiting := c.waiting ++ [e] }) ∧
    streamOf u f k = (if last then none else some st') ∧
    Only [.time, .cause, .counters, .events, .held, .flow, .hbr, .integ, .out] s u := by
  obtain ⟨held, hlace, hheld⟩ := hw.lace
  extract_lets u e
  let x := modLace n (slabClosed o.h) (streamEnded f k n st.desc.request.toNat last w)
  let y := storeRun (ferryPort f st.desc) (slabAddr o.h.toNat) (openBytes planes o) o.poison x
  have hx : Only [.flow] w x := Only.step (modLace_only ..) rfl (streamEnded_only ..)
  have hy : Accessed x y := Accessed.storeRun ..
  have hlacex : tget? x.flow.laces n = some { la with held, fed := if last then la.fed ++ [st.desc.request.toNat] else la.fed } := by
    rw [tget?_modLace _ (streamEnded_lace hlace f k st.desc.request.toNat last)]
    simp [slabClosed, hopen]
  have hlacey : tget? y.flow.laces n = some { la with held, fed := if last then la.fed ++ [st.desc.request.toNat] else la.fed } := by
    rw [hy.flow_eq]
    exact hlacex
  have hentry : slabEntry x { la with held, fed := if last then la.fed ++ [st.desc.request.toNat] else la.fed }
      (slabDue st.desc o) planes last = e := by
    have hmodel : x.model = s.model := (Only.step hx rfl hw.only).2 .model (by decide)
    simp only [slabEntry, hmodel, e]
    rfl
  have hu : u = pushEntry n e y := by
    rw [show u = _ from pushSlab_eq hw hdst hmcast hn hla hdue hturn ho planes room last, pushFilled_eq hlacex, hentry]
    rfl
  rw [hu]
  refine ⟨⟨x, ?bytes⟩, ⟨_, tget?_modLace _ hlacey, rfl, hheld, hopen, rfl, rfl⟩, ?stream, ?only⟩
  case bytes => exact hbr_eq_of_only (pushEntry_only n e y) (by decide) (by decide)
  case stream =>
    rw [pushEntry, streamOf_modLace, streamOf, ferryOf, hy.flow_eq]
    exact (streamOf_modLace ..).trans (streamEnded_stream hw.stream hw.keys ..)
  case only => exact Only.step (pushEntry_only ..) rfl (Only.step hy.1 rfl (Only.step hx rfl hw.only))

end Push

end Sys2Proof.Laws
end

section
/-! SUPPORT. SLAB_PUSH of a Harbour source, and of a source that cannot be read (R181, R185, R186, R193). -/

namespace Sys2Proof.Laws

open Sys2Proof.Machine

/-- R186: a slab that nothing has filled yet. -/
def freshSlab (h : BitVec 16) (cont : Bool) : OpenSlab :=
  { h, cont, heads := [], blocks := [], data := [], poison := false, special := false, dues := [] }

@[simp] theorem freshSlab_data (h : BitVec 16) (cont : Bool) : (freshSlab h cont).data = [] := rfl

@[simp] theorem freshSlab_blocks (h : BitVec 16) (cont : Bool) : (freshSlab h cont).blocks = [] := rfl

@[simp] theorem freshSlab_poison (h : BitVec 16) (cont : Bool) : (freshSlab h cont).poison = false := rfl

@[simp] theorem freshSlab_special (h : BitVec 16) (cont : Bool) : (freshSlab h cont).special = false := rfl

/-- A slab of a Lace that has none open is a fresh one. -/
theorem slabInHand_fresh {n : Nat} {la : Lace} {s : State} (hla : tget? s.flow.laces n = some la) (hopen : la.partialSlab = none)
    (h : BitVec 16) (cont : Bool) : slabInHand s (some n) h cont = freshSlab h cont := by
  simp [slabInHand, hla, hopen, freshSlab]

theorem sourceBytes_harbour {st : Stream} (hdud : st.dud = false) (hsrc : st.desc.srcKind = 1) (f : Nat) (runs : List (Nat × Nat))
    (len : Nat) (source : HostRead) (s : State) : sourceBytes f st runs len source s =
      (some (fetchRuns (ferryPort f st.desc) runs s).1, (fetchRuns (ferryPort f st.desc) runs s).2) := by
  simp [sourceBytes, hdud, hsrc]

/-- R181: nothing is known of a source whose read failed. -/
theorem sourceBytes_failed {st : Stream} (hdud : st.dud = false) (hsrc : 2 ≤ st.desc.srcKind.toNat) (f : Nat) (runs : List (Nat × Nat))
    (len : Nat) (s : State) : sourceBytes f st runs len .failed s = (none, s) := by
  have hharbour : st.desc.srcKind ≠ 1#8 := fun h => absurd (h ▸ hsrc) (by decide)
  have hlace : st.desc.srcKind ≠ 0#8 := fun h => absurd (h ▸ hsrc) (by decide)
  simp [sourceBytes, hdud, hharbour, hlace, sourceRead]

/-- The push is that of slab `o` of Lace `n`, after accesses to the Harbour and the stream's step to its next slab. -/
def PushesSlab (f k n : Nat) (st : Stream) (rest : List (BitVec 16)) (o : OpenSlab) (planes last : Bool) (s t : State) : Prop :=
  ∃ (v : State) (g : Stream → Stream) (vec off : Nat) (room : Bool), Accessed s v ∧ (g st).filling = rest ∧
    (g st).seq = st.seq + 1 ∧
    t = pushSlab f k st o planes room last (placeHeld n o.h st.desc.request.toNat vec off (modStream f k g v))

section Push

variable {f k n : Nat} {st : Stream} {h : BitVec 16} {rest : List (BitVec 16)} {la : Lace} {s : State}

theorem execSlabPush_fills {f : Fin 256} {j : Fin 16} (r : HostRead) (hst : streamOf s f j = some st) (hlive : st.cancelled = false)
    (hready : runsWait s (pushRuns s f j st) = false) (hfills : fillsSlabs st.desc = true) (hfill : st.filling = h :: rest) :
    execSlabPush f j r s = .next (endFor st.desc.request.toNat
      (if descPlanes st.desc then pushPlanes f j st h rest r s else pushBytes f j st h rest r s)) := by
  simp [execSlabPush, hst, hlive, hready, hfills, hfill]

/-- R181: the clause on a source that cannot be read. -/
theorem execSlabPush_unreadable {f : Fin 256} {j : Fin 16} (hst : streamOf s f j = some st) (hlive : st.cancelled = false)
    (hready : runsWait s (pushRuns s f j st) = false) (hfills : fillsSlabs st.desc = true) (hdud : st.dud = false)
    (hfill : st.filling = h :: rest) (hsrc : 2 ≤ st.desc.srcKind.toNat) : execSlabPush f j .failed s =
      .next (endFor st.desc.request.toNat (stopRequest st.desc.request.toNat St.hostAccess (streamDetail s st.desc) false s)) := by
  rw [execSlabPush_fills .failed hst hlive hready hfills hfill]
  refine congrArg (fun t => Host.Outcome.next (endFor st.desc.request.toNat t)) ?_
  split
  · simp [pushPlanes, sourceBytes_failed hdud hsrc]
  · simp [pushBytes, sourceBytes_failed hdud hsrc]

variable (hdest : ∀ s, destLace s st.desc = some n) (hdud : st.dud = false) (hsrc : st.desc.srcKind = 1)
  (hla : tget? s.flow.laces n = some la) (hopen : la.partialSlab = none)
include hdest hdud hsrc hla hopen

/-- R120 to R124, R186: a slab of planes. -/
theorem pushPlanes_pushes (r : HostRead) : ∃ o last, o.h = h ∧ o.dues = [] ∧
    PushesSlab f k n st rest o true last s (pushPlanes f k st h rest r s) := by
  unfold pushPlanes
  simp only [hdest, slabInHand_fresh hla hopen, sourceBytes_harbour hdud hsrc]
  have hread := Accessed.fetchRuns (ferryPort f st.desc) (vectorRuns st.desc st.vecs (vecsBegun s st h)) s
  generalize fetchRuns (ferryPort f st.desc) (vectorRuns st.desc st.vecs (vecsBegun s st h)) s = got at hread ⊢
  have hstaged := hread.trans (Accessed.stageLong f k st.desc got.1.1 (got.1.2.any id) got.2)
  generalize stageLong f k st.desc got.1.1 (got.1.2.any id) got.2 = staged at hstaged ⊢
  generalize fillPlanes st.desc _ _ = p
  simp only [freshSlab_blocks, if_true]
  exact ⟨_, _, rfl, rfl, _, _, _, _, _, (hstaged.trans (.of_only (bumpBy_only ..) rfl (by decide))).trans
    (.of_only (bumpBy_only ..) rfl (by decide)), rfl, rfl, rfl⟩

/-- R125, R185: a slab without planes. -/
theorem pushBytes_pushes (r : HostRead) : let len := bytesNext s st h
    let got := (fetchRuns (ferryPort f st.desc) (srcRuns st.desc st.pos len) s).1
    PushesSlab f k n st rest { freshSlab h false with data := convertBytes st.desc got.1, poison := got.2.any id } false
      (decide (st.desc.length.toNat ≤ st.pos + len)) s (pushBytes f k st h rest r s) := by
  unfold pushBytes
  simp only [hdest, slabInHand_fresh hla hopen, sourceBytes_harbour hdud hsrc]
  have hread := Accessed.fetchRuns (ferryPort f st.desc) (srcRuns st.desc st.pos (bytesNext s st h)) s
  generalize fetchRuns (ferryPort f st.desc) (srcRuns st.desc st.pos (bytesNext s st h)) s = got at hread ⊢
  have hlace : decide (st.desc.srcKind = 0) = false := by rw [hsrc]; rfl
  simp only [freshSlab_data, if_true, List.nil_append, freshSlab_poison, freshSlab_special, hlace, Bool.false_and, Bool.false_or]
  exact ⟨_, _, _, _, _, hread, rfl, rfl, rfl⟩

end Push

theorem destLace_own {d : Desc} (hdst : d.dstKind = 0) (hmcast : descMcast d = false) (s : State) :
    destLace s d = some d.laceOut.toNat := by
  simp [destLace, hdst, hmcast]

/-- R185: a fresh slab takes as many source bytes as fill it, or what is left of them. -/
theorem bytesNext_fresh {n : Nat} {st : Stream} {la : Lace} {s : State} (hdest : destLace s st.desc = some n)
    (hla : tget? s.flow.laces n = some la) (hopen : la.partialSlab = none) (h : BitVec 16) :
    bytesNext s st h = min (srcPerSlab st.desc) (st.desc.length.toNat - st.pos) := by
  simp [bytesNext, hdest, slabInHand_fresh hla hopen, srcPerSlab]

/-- R181, R322: what a Ferry reads of a source that lies in one run. -/
theorem fetchRuns_unsplit {d : Desc} (hsplit : descSplit d = false) (port : BitVec 12) (pos len : Nat) (s : State) :
    (fetchRuns port (srcRuns d pos len) s).1 = (harbRead s (d.srcAddr.toNat + pos) len, badBytes s (d.srcAddr.toNat + pos) len) := by
  have hruns : srcRuns d pos len = if len = 0 then [] else [(d.srcAddr.toNat + pos, len)] := by simp [srcRuns, tensorRuns, hsplit]
  rw [hruns]
  by_cases hlen : len = 0
  · subst hlen
    rfl
  · rw [if_neg hlen, fetchRuns_one]

/-- R177 to R179, R185, R189: what the push of slab `o` of Lace `n` leaves. -/
def SlabPushed (f k n : Nat) (st : Stream) (rest : List (BitVec 16)) (la : Lace) (o : OpenSlab) (planes last : Bool) (s u : State) : Prop :=
  (∃ v, u.hbr = (storeRun (ferryPort f st.desc) (slabAddr o.h.toNat) (openBytes planes o) o.poison v).hbr) ∧
  (∃ la', tget? u.flow.laces n = some la' ∧ la'.pushed = la.pushed + 1 ∧
    la'.held.map (fun k => k.h) = la.held.map (fun k => k.h) ∧ la'.partialSlab = none ∧
    la'.fed = (if last then la.fed ++ [st.desc.request.toNat] else la.fed) ∧
    la'.consumers = la.consumers.map fun c => { c with waiting := c.waiting ++ [slabEntry s la o planes last] }) ∧
  (if last then streamOf u f k = none else ∃ st', streamOf u f k = some st' ∧ st'.filling = rest ∧ st'.seq = st.seq + 1) ∧
  Only [.time, .cause, .counters, .events, .held, .flow, .hbr, .integ, .out] s u

theorem PushesSlab.pushed {f k n : Nat} {st : Stream} {rest : List (BitVec 16)} {la : Lace} {o : OpenSlab} {planes last : Bool}
    {s u : State} (hpush : PushesSlab f k n st rest o planes last s u) (hup : (tkeys (ferryOf s f).streams).Pairwise (· < ·))
    (hst : streamOf s f k = some st) (hdst : st.desc.dstKind = 0) (hmcast : descMcast st.desc = false)
    (hn : n = st.desc.laceOut.toNat) (hla : tget? s.flow.laces n = some la) (hopen : la.partialSlab = none)
    (hdue : slabLate s st.desc = false) (hturn : ∀ a ∈ stillToFeed s n, a = st.desc.request.toNat) (ho : o.dues = []) :
    SlabPushed f k n st rest la o planes last s u := by
  obtain ⟨v, g, vec, off, room, hv, hfilling, hseq, rfl⟩ := hpush
  have hfilled := SlabFilled.of_accessed hv hup hst hla g o.h st.desc.request.toNat vec off
  obtain ⟨hbytes, hlace, hstream, honly⟩ := pushSlab_spec hfilled hdst hmcast hn hla hopen hdue hturn ho planes room last
  refine ⟨hbytes, hlace, ?_, honly⟩
  cases last
  · exact ⟨g st, hstream, hfilling, hseq⟩
  · exact hstream

section Slab

variable {f : Fin 256} {j : Fin 16} {st : Stream} {n : Nat} {la : Lace} {h : BitVec 16} {rest : List (BitVec 16)} {s : State}
variable (hup : (tkeys (ferryOf s f).streams).Pairwise (· < ·)) (hst : streamOf s f j = some st) (hlive : st.cancelled = false)
  (hready : runsWait s (pushRuns s f j st) = false) (hdst : st.desc.dstKind = 0) (hmcast : descMcast st.desc = false)
  (hdud : st.dud = false) (hfill : st.filling = h :: rest) (hsrc : st.desc.srcKind = 1) (hdue : slabLate s st.desc = false)
  (hn : n = st.desc.laceOut.toNat) (hla : tget? s.flow.laces n = some la) (hopen : la.partialSlab = none)
  (hturn : ∀ a ∈ stillToFeed s n, a = st.desc.request.toNat)
include hup hst hlive hready hdst hmcast hdud hfill hsrc hdue hn hla hopen hturn

/-- R120, R179, R185, R193: a filled slab of a Harbour source is pushed; where it is not of planes and its source lies in one run, it has
the converted bytes of that run. -/
theorem slabPush_pushes (r : HostRead) : ∃ u o last, exec (.slabPush f j r) s = .next (endFor st.desc.request.toNat u) ∧ o.h = h ∧
    SlabPushed f j n st rest la o (descPlanes st.desc) last s u ∧
    (descPlanes st.desc = false → descSplit st.desc = false →
      let len := min (srcPerSlab st.desc) (st.desc.length.toNat - st.pos)
      let a := st.desc.srcAddr.toNat + st.pos
      openBytes false o = convertBytes st.desc (harbRead s a len) ∧ o.special = false ∧ o.poison = (badBytes s a len).any id ∧
      last = decide (st.desc.length.toNat ≤ st.pos + len)) := by
  have hdest (s : State) : destLace s st.desc = some n := hn ▸ destLace_own hdst hmcast s
  have hexec : exec (.slabPush f j r) s = _ := execSlabPush_fills r hst hlive hready (by simp [fillsSlabs, hdst]) hfill
  have hpushed {o : OpenSlab} {planes last : Bool} {u : State} (hpush : PushesSlab f j n st rest o planes last s u) (ho : o.dues = []) :=
    hpush.pushed hup hst hdst hmcast hn hla hopen hdue hturn ho
  cases hplanes : descPlanes st.desc
  case true =>
    obtain ⟨o, last, hoh, hdues, hpush⟩ := pushPlanes_pushes (h := h) hdest hdud hsrc hla hopen r
    exact ⟨_, o, last, by simpa [hplanes] using hexec, hoh, hpushed hpush hdues, nofun⟩
  case false =>
    have hpush := pushBytes_pushes (f := f) (k := j) (h := h) (rest := rest) hdest hdud hsrc hla hopen r
    refine ⟨_, _, _, by simpa [hplanes] using hexec, rfl, hpushed hpush rfl, fun _ hsplit => ?_⟩
    rw [bytesNext_fresh (hdest s) hla hopen, fetchRuns_unsplit hsplit]
    exact ⟨rfl, rfl, rfl, rfl⟩

end Slab

end Sys2Proof.Laws
end

section
/-! SUPPORT. The Ferries' descriptors, fills and pushes, settled (R120, R179, R181 to R186, R189, R190, R192, R193). -/

namespace Sys2Proof.Laws

open Sys2Proof.Machine

/-- Settles O48: each clause is the lemma on its command above; the push of a filled slab turns on its reads leaving Tide, so that a slab
in time stays so, and on the stream table being in rising order, so that a stream that has ended is gone. -/
theorem ferryStreams : Obligations.FerryStreams := by
  refine ⟨fun b s h => ?ignored, fun b f k s => ?starts, fun b f s => ?turnedAway, fun b s => ?waits,
    fun s f h => emptiestFerry_least h, fun f s h => ?notEmptiest, fun f e k s hf he hgood hk => ?slot,
    fun l e h => firstWaiting_least h, fun f j st n la s hst hfills hready hfirst hdest hla => ?fill,
    fun f j r st n la h rest s => ?push, fun f j st h rest s => ?unreadable, fun f j r st s hst hcancelled => ?cancelled⟩
  case ignored => exact execFerryDescriptorIssue_ignores h
  case starts =>
    intro d hlive hnew hnone hgood hf hk
    obtain ⟨t, hexec, hstream, hothers, horder, hwaiting, honly⟩ := ferryDescriptorIssue_starts hlive hnew hnone hgood hf hk
    exact ⟨t, hexec, ⟨_, hstream, rfl, rfl, rfl, rfl, rfl, rfl⟩, hothers, horder, hwaiting, honly⟩
  case turnedAway =>
    intro d hlive hnew hnone hbad hf
    obtain ⟨hferries, hwaiting, hraised, hcounted, honly⟩ := badReported_spec f s
    exact ⟨_, hferries, hwaiting, hraised, hcounted, honly, ferryDescriptorIssue_turnsAway hlive hnew hnone hbad hf⟩
  case waits =>
    intro d hlive hnew hfull
    rw [← descQueued, ← issueDesc_full hfull]
    exact execFerryDescriptorIssue_issues hlive hnew
  case notEmptiest => exact if_pos h
  case slot =>
    obtain ⟨t, hexec, hstream, hwaiting, honly⟩ := ferrySlotStart_starts hf he hgood hk
    exact ⟨t, hexec, ⟨_, hstream, rfl, rfl, rfl⟩, hwaiting, honly⟩
  case fill =>
    exact ⟨fun o ho => slabFillStart_continues hst hfills hready hfirst hdest hla ho,
      fun x h rest ho hroom hx hres => slabFillStart_takes hst hfills hready hfirst hdest hla ho hroom hx hres⟩
  case push =>
    intro hup hst hlive hready hdst hmcast hdud hfill hsrc hdue hn hla hopen hturn
    obtain ⟨u, o, last, hexec, hoh, ⟨⟨v, hbytes⟩, hlace, hstream, honly⟩, hplain⟩ :=
      slabPush_pushes hup hst hlive hready hdst hmcast hdud hfill hsrc hdue hn hla hopen hturn r
    refine ⟨u, hexec, openBytes (descPlanes st.desc) o, slabEntry s la o (descPlanes st.desc) last, v, ?_, hoh, rfl, rfl, rfl, ?_,
      hlace, hstream, fun hplanes hsplit => ?_, honly⟩
    · rw [hbytes, hoh]
      rfl
    · intro x hx
      simp [slabEntry, hx]
    · obtain ⟨hb, hspecial, hpoison, hlast⟩ := hplain hplanes hsplit
      rw [hplanes]
      refine ⟨hb, hspecial, hpoison.trans ?_, hlast⟩
      rw [badBytes, List.any_map]
      rfl
  case unreadable =>
    exact fun hst hlive hready hfills hdud hfill hsrc => execSlabPush_unreadable hst hlive hready hfills hdud hfill hsrc
  case cancelled =>
    exact ⟨execSlabPush_cancelled hst hcancelled r, cancelledSlabRecall_ends hst hcancelled,
      fun h rest n la hfill hl hla hopen => cancelledSlabRecall_clears hst hcancelled hfill hl hla hopen,
      fun h rest n la o hfill hl hla hopen hoh hothers => cancelledSlabRecall_passesOn hst hcancelled hfill hl hla hopen hoh hothers⟩

end Sys2Proof.Laws
end

section
/-! SUPPORT. CTX_RESTORE of a saved context without KV slabs (R377), and the refutation of O22: in a state whose KV table lists a context
twice, such a restore leaves the context holding the slabs of the second entry. -/

namespace Sys2Proof.Laws

open Sys2Proof.Machine

/-! ## A completion leaves the KV table (R358, R366) -/

theorem kv_eq_of_only {P : List Part} {s t : State} (h : Only P s t) (hq : Part.que ∉ P) : t.que.kv = s.que.kv := by
  have hrest : { t.que with held := s.que.held } = s.que := h.2 .que hq
  exact (congrArg Que.kv hrest :)

theorem sendPort_kv (p : Port) (m : OutMsg) (s : State) : (sendPort p m s).que.kv = s.que.kv :=
  kv_eq_of_only (sendPort_only p m s) (by decide)

theorem countCompletion_kv (q : Nat) (s : State) : (countCompletion q s).que.kv = s.que.kv := by
  unfold countCompletion
  dsimp only
  split
  · exact sendPort_kv _ _ _
  · rfl

theorem postEntry_kv (q key : Nat) (r : Reply) (orig : Nat) (noIntr : Bool) (readAt : BitVec 64) (s : State) :
    (postEntry q key r orig noIntr readAt s).que.kv = s.que.kv := by
  unfold postEntry
  extract_lets p entry addr written wrap counted sampled
  have hwritten : written.que.kv = s.que.kv := by
    unfold written
    split
    · exact kv_eq_of_only (coreWrite_only _ _ _) (by decide)
    · exact sendPort_kv _ _ _
  split
  · exact hwritten
  · exact (countCompletion_kv q sampled).trans hwritten

theorem finish_kv (a : Nat) (r : Reply) (s : State) : (finish a r s).que.kv = s.que.kv := by
  unfold finish
  split
  · rfl
  · split
    · rfl
    · exact (postEntry_kv _ _ _ _ _ _ _).trans (kv_eq_of_only (logEntry_only _ _ _ _) (by decide))

/-! ## A restore of no slabs (R377) -/

theorem execCtxRestore_noSlabs {a : Fin 4096} {c : Cmd} {b : Bytes} {n : Nat} {s : State} (hc : cmdAt s a.val 5 = some c)
    (hfree : fld (ctxRecord s (entArg c.entry)) 0 1 = 0) (hslot : groupSlot s c.group.toNat = some n)
    (hok : savedOk (b.take (fld c.entry 0x18 8)) (fld c.entry 0x18 8) = true)
    (hhash : sub (b.take (fld c.entry 0x18 8)) 0x10 48 = fit (slotOf s n).lastHash 48)
    (hadapter : bitAt (fld (b.take (fld c.entry 0x18 8)) (128 + 6) 2) 0 = false)
    (hnone : fld (b.take (fld c.entry 0x18 8)) 0x44 4 = 0) :
    ∃ u, execCtxRestore a (.data b) s = .next (finishSt a.val St.success u) ∧ u.que.kv = tdel s.que.kv (entArg c.entry) := by
  refine ⟨_, by simp [execCtxRestore, hc, hfree, readData, hslot, hok, hhash, hadapter, hnone, slabRuns, runsWait, poolTake]; rfl, ?_⟩
  refine (kv_eq_of_only (noteKv_only _ _) (by decide)).trans ?_
  refine (kv_eq_of_only (restoreSlabs_only _ _ _ _) (by decide)).trans ?_
  exact (kv_eq_of_only (harbWrite_only _ _ _ _) (by decide))

/-! ## The counterexample -/

/-- A CTX_RESTORE into context 0 of data of 384 bytes, from a pair of context group 0. -/
def restoreCmd : Cmd :=
  { pair := 0, group := 0, entry := leBytes 1 5 ++ leBytes 23 0 ++ leBytes 8 384 ++ leBytes 32 0, order := 0, stage := .admitted,
    readAt := 0, waitsFor := [], drainFrom := 0 }

/-- Context 0 is FREE, and the KV table lists it twice: without slabs, and with slab 5. -/
def listedTwice : State :=
  { State.reset with que := { State.reset.que with
      cmds := [(0, restoreCmd)], groups := [(0, 0)], kv := [(0, []), (0, [(5, 0, 0)])] } }

/-- R376: a saved context without slabs, with this record. -/
def savedEmpty (record : Bytes) (crc : BitVec 32) : Bytes := savedHeader 0 384 [] 0 0 crc.toNat ++ record

theorem savedEmpty_crc (record : Bytes) (crc : BitVec 32) : fld (savedEmpty record crc) 0x48 4 = crc.toNat := leNat_leBytes_word crc

theorem fld_savedEmpty_flags (record : Bytes) (crc : BitVec 32) : fld (savedEmpty record crc) (128 + 6) 2 = fld record 6 2 := rfl

theorem splice_savedEmpty (record : Bytes) (crc : BitVec 32) :
    splice (savedEmpty record crc) 0x48 [0, 0, 0, 0] = savedEmpty record 0 := rfl

theorem savedEmpty_length {record : Bytes} (h : record.length = 256) (crc : BitVec 32) : (savedEmpty record crc).length = 384 := by
  rw [savedEmpty, List.length_append, h]
  rfl

/-- R377 check 2: it is sound when its CRC is that of itself with a CRC field of zeros. -/
theorem savedOk_savedEmpty {record : Bytes} (h : record.length = 256) :
    savedOk (savedEmpty record (crc32c (savedEmpty record 0))) 384 = true := by
  have hcrc : fld (savedEmpty record (crc32c (savedEmpty record 0))) 0x48 4 =
      (crc32c (splice (savedEmpty record (crc32c (savedEmpty record 0))) 0x48 [0, 0, 0, 0])).toNat := by
    rw [splice_savedEmpty, savedEmpty_crc]
  generalize crc32c (savedEmpty record 0) = crc at hcrc ⊢
  have hmagic : fld (savedEmpty record crc) 0 4 = 0x58435856 := leNat_leBytes 4 _
  have hversion : fld (savedEmpty record crc) 4 2 = 1 := leNat_leBytes 2 _
  have hbytes : fld (savedEmpty record crc) 8 8 = 384 := leNat_leBytes 8 384
  have hslabs : fld (savedEmpty record crc) 0x44 4 = 0 := leNat_leBytes 4 _
  have hlength : savedLength 0 = 384 := rfl
  have htake : (savedEmpty record crc).take 384 = savedEmpty record crc := List.take_of_length_le (savedEmpty_length h crc).le
  simp [savedOk, hmagic, hversion, hbytes, hslabs, hlength, htake, hcrc]

/-- Refutes O22: its last clause speaks of every state, also of `listedTwice`. There CTX_RESTORE of a saved context without slabs takes
none from the pool and removes the first entry of context 0 alone, so that the context holds slab 5 of the second. -/
theorem not_contextCommands : ¬ Obligations.ContextCommands := by
  rintro ⟨-, -, -, -, -, -, -, hrestore⟩
  obtain ⟨record, hrecord, hflags⟩ : ∃ record : Bytes, record.length = 256 ∧ fld record 6 2 = 0 :=
    ⟨List.replicate 256 0, List.length_replicate, by decide⟩
  obtain ⟨x, hx⟩ : ∃ x, x = savedEmpty record (crc32c (savedEmpty record 0)) := ⟨_, rfl⟩
  have hroom : fld restoreCmd.entry 0x18 8 = 384 := by decide
  have htake : x.take (fld restoreCmd.entry 0x18 8) = x := by
    rw [hroom, hx]
    exact List.take_of_length_le (savedEmpty_length hrecord _).le
  have hfree : fld (ctxRecord listedTwice (entArg restoreCmd.entry)) 0 1 = 0 := by decide
  have hok : savedOk x (fld restoreCmd.entry 0x18 8) = true := by
    rw [hroom, hx]
    exact savedOk_savedEmpty hrecord
  have hhash : sub x 0x10 48 = fit (slotOf listedTwice 0).lastHash 48 := hx ▸ rfl
  have hadapter : bitAt (fld x (128 + 6) 2) 0 = false := by
    rw [hx, fld_savedEmpty_flags, hflags]
    rfl
  have hnone : fld x 0x44 4 = 0 := hx ▸ rfl
  rw [← htake] at hok hhash hadapter hnone
  obtain ⟨r, u, hexec, -, -, hheld, -⟩ := hrestore 0 restoreCmd x 0 listedTwice rfl hfree rfl hok hhash hadapter
    (hnone ▸ Nat.zero_le _) (by rw [hnone]; rfl)
  obtain ⟨v, hv, hkv⟩ := execCtxRestore_noSlabs (a := 0) (c := restoreCmd) (s := listedTwice) rfl hfree rfl hok hhash hadapter hnone
  have hend : finish 0 r u = finishSt 0 St.success v := Host.Outcome.next.inj (hexec.symm.trans hv)
  have hleft : u.que.kv = [(0, [(5, 0, 0)])] := by
    rw [← finish_kv 0 r u, hend, finishSt, finish_kv, hkv]
    rfl
  rw [hnone, hleft] at hheld
  exact absurd hheld (by decide)

end Sys2Proof.Laws
end

section
/-! SUPPORT. Tiles of the Shank clusters (R136, R144): the tile that is taken next, the tile that a recompute request becomes, the start of a
recompute's streaming read, and the tile that ends with its packet. -/

namespace Sys2Proof.Laws

open Sys2Proof.Machine

/-! ## The next tile (R136) -/

/-- R136: of a tile and the best before it, the better. -/
def betterTile (best : Option Tile) (t : Tile) : Option Tile :=
  match best with
  | none => some t
  | some b => if t.prio < b.prio || (t.prio = b.prio && tileBefore t b) then some t else best

theorem nextTile_eq (l : List Tile) : nextTile l = l.foldl betterTile none := rfl

/-- The better of two is one of them, and of no lower priority than either. -/
theorem betterTile_least (best : Option Tile) (t : Tile) : ∃ k, betterTile best t = some k ∧ (best = some k ∨ k = t) ∧
    k.prio ≤ t.prio ∧ ∀ b, best = some b → k.prio ≤ b.prio := by
  match best with
  | none => exact ⟨t, rfl, .inr rfl, le_rfl, nofun⟩
  | some b =>
    by_cases h : (t.prio < b.prio || (t.prio = b.prio && tileBefore t b)) = true
    · refine ⟨t, if_pos h, .inr rfl, le_rfl, ?_⟩
      rintro _ ⟨⟩
      simp only [Bool.or_eq_true, Bool.and_eq_true, decide_eq_true_eq] at h
      omega
    · refine ⟨b, if_neg h, .inl rfl, ?_, fun _ hb => by cases hb; rfl⟩
      simp only [Bool.or_eq_true, Bool.and_eq_true, decide_eq_true_eq] at h
      omega

theorem foldl_betterTile (l : List Tile) {best : Option Tile} {t : Tile} (h : l.foldl betterTile best = some t) :
    (best = some t ∨ t ∈ l) ∧ (∀ b, best = some b → t.prio ≤ b.prio) ∧ ∀ u ∈ l, t.prio ≤ u.prio := by
  induction l generalizing best with
  | nil => exact ⟨.inl h, fun b hb => by cases hb.symm.trans h; rfl, nofun⟩
  | cons a l ih =>
    obtain ⟨k, hk, hfrom, hka, hkb⟩ := betterTile_least best a
    obtain ⟨hmem, hbest, hleast⟩ := ih h
    have htk : t.prio ≤ k.prio := hbest k hk
    refine ⟨?_, fun b hb => htk.trans (hkb b hb), ?_⟩
    · rcases hmem with heq | hl
      · obtain rfl : k = t := Option.some.inj (hk.symm.trans heq)
        exact hfrom.imp_right fun heq => List.mem_cons.2 (.inl heq)
      · exact .inr (List.mem_cons_of_mem _ hl)
    · rintro u hu
      rcases List.mem_cons.1 hu with rfl | hu
      · exact htk.trans hka
      · exact hleast u hu

theorem nextTile_least {l : List Tile} {t : Tile} (h : nextTile l = some t) : t ∈ l ∧ ∀ u ∈ l, t.prio ≤ u.prio := by
  obtain ⟨hmem, -, hleast⟩ := foldl_betterTile l h
  exact ⟨hmem.resolve_left nofun, hleast⟩

theorem foldl_betterTile_some (l : List Tile) (b : Tile) : l.foldl betterTile (some b) ≠ none := by
  induction l generalizing b with
  | nil => nofun
  | cons a l ih =>
    obtain ⟨k, hk, -⟩ := betterTile_least (some b) a
    rw [List.foldl_cons, hk]
    exact ih k

theorem nextTile_eq_none_iff {l : List Tile} : nextTile l = none ↔ l = [] := by
  match l with
  | [] => exact iff_of_true rfl rfl
  | a :: l => exact iff_of_false (foldl_betterTile_some l a) nofun

/-! ## A tile is queued (R136, R146, R484) -/

theorem clusterOf_addTile (c : Nat) (t : Tile) (s : State) :
    clusterOf (addTile c t s) c = { clusterOf s c with tiles := (clusterOf s c).tiles ++ [t] } := by
  unfold addTile
  dsimp only
  split
  · exact clusterOf_modCluster_self ..
  · exact ((pushWork_only _ _).clusterOf_eq (by decide) c).trans (clusterOf_modCluster_self ..)

/-- R484: the cluster's power is asked for, where it is not yet. -/
theorem addTile_asks {c : Nat} {t : Tile} {s : State} (h : clusterAsked s c = false) :
    ∃ g, (addTile c t s).power.waiting = s.power.waiting ++ [g] ∧ g.work = .cluster c := by
  have hasked : clusterAsked (modCluster c (fun y => { y with tiles := y.tiles ++ [t] }) s) c = false := h
  exact ⟨{ order := s.power.nextOrder, work := .cluster c, counted := false }, by simp [addTile, hasked, pushWork], rfl⟩

/-- R136: the tile of a recompute. -/
def recomputeTile (n : Nat) : Tile := { prio := 1, deadline := none, order := n, work := .recompute n }

theorem recomputeReceive_queues {c : Fin 16} {n : Nat} {s : State} (h : newRecompute (clusterOf s c) = some n) :
    Completes (.recomputeReceive c) s fun t =>
      (clusterOf t c).tiles = (clusterOf s c).tiles ++ [recomputeTile n] ∧ (clusterOf t c).recomputes = (clusterOf s c).recomputes ∧
      (clusterAsked s c = false → ∃ g, t.power.waiting = s.power.waiting ++ [g] ∧ g.work = .cluster c) ∧
      Only [.doms, .gov, .cause, .counters, .clusters] s t := by
  have hwake : Only [.doms, .cause, .counters] (addTile c (recomputeTile n) s) (wakeForRecomputes (addTile c (recomputeTile n) s)) :=
    wakeForRecomputes_only _
  refine ⟨wakeForRecomputes (addTile c (recomputeTile n) s), ?_, ?_, ?_, fun hasked => ?_, ?_⟩
  · show execRecomputeReceive c s = _
    simp [execRecomputeReceive, h, recomputeTile]
  · rw [hwake.clusterOf_eq (by decide), clusterOf_addTile]
  · rw [hwake.clusterOf_eq (by decide), clusterOf_addTile]
  · obtain ⟨hwaiting, -⟩ := hwake.2 .gov (by decide)
    rw [hwaiting]
    exact addTile_asks hasked
  · exact ((addTile_only c (recomputeTile n) s).mono rfl).trans (hwake.mono rfl)

theorem execRecomputeReceive_none {c : Fin 16} {s : State} (h : newRecompute (clusterOf s c) = none) :
    execRecomputeReceive c s = .next s := by
  simp [execRecomputeReceive, h]

/-! ## The start of a streaming read (R136, R145) -/

/-- R144: the request with the rows of its remaining integers before it. -/
def startedRecompute (s : State) (r : Recompute) : Recompute :=
  { r with
    started := true, rowsLeft := (List.range r.rows).filter (fun i => (remainingInts s r).getD i 0 ≠ 0)
    poisoned := r.poisoned || hPoison s.hbr (recomputeRun r).1 (recomputeRun r).2 }

/-- Of the cluster itself, a recompute's start changes its record alone. -/
theorem clusterOf_startRecompute (c n : Nat) (s : State) : ∃ l, clusterOf (startRecompute c n s) c = { clusterOf s c with recomputes := l } ∧
    ∀ r, tget? (clusterOf s c).recomputes n = some r → r.started = false → runWaits s (recomputeRun r).1 (recomputeRun r).2 = false →
      tget? l n = some (startedRecompute s r) := by
  unfold startRecompute
  split
  case h_1 h => exact ⟨_, rfl, fun r hr => absurd (hr.symm.trans h) nofun⟩
  case h_2 r h =>
    dsimp only
    split
    next hstarted => exact ⟨_, rfl, fun r' hr' hnot => by cases h.symm.trans hr'; simp [hnot] at hstarted⟩
    next =>
      split
      next hwaits =>
        refine ⟨_, (runWake_only _ _ _).clusterOf_eq (by decide) c, fun r' hr' _ hruns => ?_⟩
        cases h.symm.trans hr'
        simp [hruns] at hwaits
      next =>
        refine ⟨tset (clusterOf s c).recomputes n (startedRecompute s r), ?_, fun r' hr' _ _ => ?_⟩
        · rw [(preemptRun_only _ _).clusterOf_eq (by decide), (touchRun_only _ _ _ _).clusterOf_eq (by decide), clusterOf_modCluster_self]
          rfl
        · cases h.symm.trans hr'
          exact tget?_tset_self ..

/-- R136: what a waiting tile starts. -/
def startTile (c : Nat) (s : State) (t : Tile) : State :=
  match t.work with
  | .recompute n => startRecompute c n s
  | _ => s

theorem startQueued_eq (c : Nat) (s : State) : startQueued c s = (clusterOf s c).tiles.foldl (startTile c) s := rfl

theorem startTile_recompute {t : Tile} {n : Nat} (h : t.work = .recompute n) (c : Nat) (s : State) :
    startTile c s t = startRecompute c n s := by
  simp [startTile, h]

theorem clusterOf_startTile (c : Nat) (s : State) (t : Tile) :
    ∃ l, clusterOf (startTile c s t) c = { clusterOf s c with recomputes := l } := by
  unfold startTile
  split
  · obtain ⟨l, h, -⟩ := clusterOf_startRecompute c ‹Nat› s
    exact ⟨l, h⟩
  · exact ⟨_, rfl⟩

theorem clusterOf_startQueued (c : Nat) (s : State) : ∃ l, clusterOf (startQueued c s) c = { clusterOf s c with recomputes := l } := by
  rw [startQueued_eq]
  refine List.foldlRecOn (motive := fun t => ∃ l, clusterOf t c = { clusterOf s c with recomputes := l }) _ _ ⟨_, rfl⟩ ?_
  rintro t ⟨l, ht⟩ k -
  obtain ⟨l', hk⟩ := clusterOf_startTile c t k
  exact ⟨l', by rw [hk, ht]⟩

/-! ## The tile is taken (R136) -/

/-- The cluster with this tile in progress. -/
def tileTaken (next : Option Tile) (y : Cluster) : Cluster :=
  { y with current := next, tiles := (next.map y.tiles.erase).getD y.tiles }

/-- Taking a tile changes the cluster's tiles, after the start of its recomputes, and its operand buffer. -/
theorem clusterOf_takeTile (c : Nat) (s : State) : let y := clusterOf (startQueued c s) c
    ∃ b d, clusterOf (takeTile c s) c = { tileTaken (nextTile y.tiles) y with buffer := b, bufferDev := d } := by
  unfold takeTile
  dsimp only
  split
  case h_1 hnone => exact ⟨_, _, (clusterOf_modCluster_self ..).trans (by rw [hnone]; rfl)⟩
  case h_2 t hsome =>
    exact ⟨_, [], (clusterOf_modCluster_self ..).trans (by rw [clusterOf_modCluster_self, hsome]; rfl)⟩

theorem takeTile_takes (c : Nat) (s : State) : let t := takeTile c s
    (clusterOf t c).current = nextTile (clusterOf s c).tiles ∧
    (clusterOf t c).tiles = ((nextTile (clusterOf s c).tiles).map (clusterOf s c).tiles.erase).getD (clusterOf s c).tiles ∧
    (clusterOf t c).recomputes = (clusterOf (startQueued c s) c).recomputes := by
  obtain ⟨b, d, h⟩ := clusterOf_takeTile c s
  obtain ⟨l, hl⟩ := clusterOf_startQueued c s
  dsimp only at h ⊢
  rw [h, hl]
  exact ⟨rfl, rfl, rfl⟩

/-- R136, R144: the only waiting tile is that of a recompute, whose streaming read starts. -/
theorem takeTile_starts {c n : Nat} {k : Tile} {r : Recompute} {s : State} (hk : (clusterOf s c).tiles = [k])
    (hwork : k.work = .recompute n) (hr : tget? (clusterOf s c).recomputes n = some r) (hnot : r.started = false)
    (hready : runWaits s (recomputeRun r).1 (recomputeRun r).2 = false) :
    tget? (clusterOf (takeTile c s) c).recomputes n = some (startedRecompute s r) := by
  obtain ⟨-, -, hrecomputes⟩ := takeTile_takes c s
  obtain ⟨l, hl, hstarted⟩ := clusterOf_startRecompute c n s
  rw [hrecomputes, startQueued_eq, hk, List.foldl_cons, List.foldl_nil, startTile_recompute hwork, hl]
  exact hstarted r hr hnot hready

/-! ## SHANK_TILE_BOUNDARY (R136, R143, R144) -/

section Boundary

variable {c : Fin 16} {s : State}

theorem execShankTileBoundary_stopped (us : List (Nat × Nat)) (h : clusterRuns s c = false) :
    execShankTileBoundary c us s = .next s := by
  simp [execShankTileBoundary, h]

theorem execShankTileBoundary_between (us : List (Nat × Nat)) (hruns : clusterRuns s c = true) (hidle : (clusterOf s c).current = none) :
    execShankTileBoundary c us s = .next (takeTile c s) := by
  simp [execShankTileBoundary, hruns, hidle]

/-- The cluster between tiles, its operand buffer read. -/
def tileEnded (c : Nat) (s : State) : State := modCluster c (fun y => { y with current := none }) (modCluster c (fun y => y) s)

theorem clusterOf_tileEnded (c : Nat) (s : State) : clusterOf (tileEnded c s) c = { clusterOf s c with current := none } := by
  rw [tileEnded, clusterOf_modCluster_self, clusterOf_modCluster_self]

/-- R99, R144: the packet of a recompute with every row added. -/
def recomputePacket (c : Nat) (r : Recompute) (s : State) : List Flit :=
  longSumPacket (selfId s) r.island (selfId s) true c r.join r.firstOutput r.lanes (fun _ => r.poisoned) true

/-- The recompute's packet is held and sent. -/
def recomputeSent (c : Nat) (r : Recompute) (s : State) : State :=
  sendHeld (homePort r.island) (recomputePacket c r s) r.poisoned (tileEnded c s)

theorem readBuffer_clean {c : Nat} {s : State} (h : (clusterOf s c).bufferDev = []) : readBuffer c s = (false, s) := by
  simp [readBuffer, h]

variable {k : Tile} {n : Nat} {r : Recompute} {j : Join}

theorem endTile_sends {c : Nat} {t : State} (hwork : k.work = .recompute n) (hr : tget? (clusterOf t c).recomputes n = some r)
    (hstarted : r.started = true) (hrows : r.rowsLeft = []) (hj : tget? (islandOf t r.island).joins r.join = some j) :
    endTile c k t = (none, sendHeld (homePort r.island) (recomputePacket c r t) r.poisoned t) := by
  simp [endTile, tileWaits, tileBanks, tileRuns, runsWait, tileUses, sendRecompute, hwork, hr, hstarted, hrows, hj, clusterPacket,
    recomputePacket]

theorem execShankTileBoundary_sends (hruns : clusterRuns s c = true) (hk : (clusterOf s c).current = some k)
    (hclean : (clusterOf s c).bufferDev = []) (hwork : k.work = .recompute n) (hr : tget? (clusterOf s c).recomputes n = some r)
    (hstarted : r.started = true) (hrows : r.rowsLeft = []) (hj : tget? (islandOf s r.island).joins r.join = some j) :
    execShankTileBoundary c [] s = .next (endLaunch j.launch (settleLaunch j.launch (dropShank c (takeTile c (recomputeSent c r s))))) := by
  have hread : readBuffer c (modCluster c (fun y => y) s) = (false, modCluster c (fun y => y) s) := readBuffer_clean (by simpa using hclean)
  have hlaunch : tileLaunch (modCluster c (fun y => y) s) c k = some j.launch := by
    have hj' : tget? (islandOf (modCluster c (fun y => y) s) r.island).joins r.join = some j := hj
    simp [tileLaunch, hwork, hr, hj']
  have hend : endTile c k (tileEnded c s) = (none, recomputeSent c r s) :=
    endTile_sends hwork ((congrArg (fun y => tget? y.recomputes n) (clusterOf_tileEnded c s)).trans hr) hstarted hrows hj
  rw [tileEnded] at hend
  simp only [execShankTileBoundary, hruns, hk, List.foldl_nil, hread, hend, keepTile, hlaunch]
  rfl

theorem recomputeSent_spec (c : Nat) (r : Recompute) (s : State) : let v := recomputeSent c r s
    v.out = s.out ++ [.soundData (homePort r.island) (recomputePacket c r s) r.poisoned] ∧ (clusterOf v c).current = none ∧
    (clusterOf v c).tiles = (clusterOf s c).tiles ∧ Only [.clusters, .flow, .out] s v := by
  have hcluster : clusterOf (recomputeSent c r s) c = { clusterOf s c with current := none } := by
    rw [recomputeSent, (sendHeld_only _ _ _ _).clusterOf_eq (by decide), clusterOf_tileEnded]
  refine ⟨rfl, by rw [hcluster], by rw [hcluster], ?_⟩
  exact (((modCluster_only ..).trans (modCluster_only ..)).mono rfl).trans ((sendHeld_only _ _ _ _).mono rfl)

end Boundary

end Sys2Proof.Laws
end

section
/-! SUPPORT. STREAM_READ_ROW (R145, R330): the row that arrives leaves its list and is added into its lanes; what a poisoned row is counted
as leaves the time of the bank's last use. -/

namespace Sys2Proof.Laws

open Sys2Proof.Machine

/-! ## Failures of an array leave the time of last use (R306, R331) -/

theorem markRetired_lastUse (n b : Nat) (s : State) : (bankOf (markRetired n s) b).lastUse = (bankOf s b).lastUse := by
  have hevents : ∀ t, bankOf (raise .throughputFall 1 n (raise .bankRetired 1 n t)) b = bankOf t b := fun t =>
    ((raise_only ..).trans (raise_only ..)).bankOf_eq (by decide) b
  rw [markRetired, hevents, setBankState, bankOf_modBank]
  split
  next h => rw [h]
  next => rfl

theorem retireArray_lastUse (a b : Nat) (s : State) : (bankOf (retireArray a s) b).lastUse = (bankOf s b).lastUse := by
  refine List.foldlRecOn (motive := fun t => (bankOf t b).lastUse = (bankOf s b).lastUse) _ _ rfl fun t ht n _ => ?_
  split
  · exact ht
  · exact (markRetired_lastUse n b t).trans ht

theorem arrayFailure_lastUse (n b : Nat) (s : State) : (bankOf (arrayFailure n s) b).lastUse = (bankOf s b).lastUse := by
  have hcounted : bankOf (countFailure .array (bankArray n) s).1 b = bankOf s b := (countFailure_only ..).bankOf_eq (by decide) b
  rw [arrayFailure, ← hcounted]
  dsimp only
  split
  · rw [retireArray_lastUse, (permanentEvent_only ..).bankOf_eq (by decide)]
  · rfl

theorem nvPoisoned_lastUse (n k b : Nat) (s : State) : (bankOf (nvPoisoned n k s) b).lastUse = (bankOf s b).lastUse :=
  List.foldlRecOn (motive := fun t => (bankOf t b).lastUse = (bankOf s b).lastUse) _ _ rfl fun _ ht _ _ =>
    (arrayFailure_lastUse ..).trans ht

/-! ## A row arrives (R136, R145) -/

/-- The launch that a recompute works for. -/
def recomputeLaunch (s : State) (r : Recompute) : Option Launch :=
  (tget? (islandOf s r.island).joins r.join).bind fun j => tget? s.model.launches j.launch

/-- R144: the scale of an output's weights in a row. -/
def rowScale (s : State) (r : Recompute) (row k : Nat) : Int :=
  match recomputeLaunch s r with
  | some l => if r.scaled then sliceScale s l.slot l.gen r.slice r.outputs (row / 32) k else 0
  | none => 0

theorem rowScale_unscaled {r : Recompute} (h : r.scaled = false) (s : State) (row : Nat) : rowScale s r row = fun _ => 0 := by
  funext k
  unfold rowScale
  split <;> simp [h]

/-- R145: the row's bits added, or the recompute marked where no read of the row passed. -/
def withRow (s : State) (row : Nat) (rest : List Nat) (bits : Option Nat) (again : Nat) (r : Recompute) : Recompute :=
  { r with
    rowsLeft := rest
    lanes := match bits with
      | some v => addRow ((remainingInts s r).getD row 0) r.cols r.frac r.outputs (rowScale s r row) v r.lanes
      | none => r.lanes
    poisoned := r.poisoned || bits.isNone
    rereads := r.rereads + again }

theorem withRow_none (s : State) (row : Nat) (rest : List Nat) (again : Nat) (r : Recompute) :
    (withRow s row rest none again r).lanes = r.lanes ∧ (withRow s row rest none again r).poisoned = true :=
  ⟨rfl, Bool.or_true _⟩

theorem withRow_some (s : State) (row : Nat) (rest : List Nat) (v again : Nat) (r : Recompute) :
    (withRow s row rest (some v) again r).poisoned = r.poisoned ∧ (r.scaled = false → (withRow s row rest (some v) again r).lanes =
      addRow ((remainingInts s r).getD row 0) r.cols r.frac r.outputs (fun _ => 0) v r.lanes) :=
  ⟨Bool.or_false _, fun h => by rw [← rowScale_unscaled h s row]; rfl⟩

/-- R330, R331: how a row that took more than one read, or stays poisoned, is counted. -/
def rowCounted (launch : Option Launch) (row : Nat) (reads : List Bytes) (bits : Option Nat) (again : Nat) (r : Recompute) (s : State) :
    State :=
  match bits, launch with
  | none, some l => nvPoisoned r.bank 1 (flagSlice l r.slice (bump (ob 0x5013 1) s))
  | none, none => nvPoisoned r.bank 1 (bump (ob 0x5013 1) s)
  | some _, _ => if 0 < again && again ≤ 3 && passedRead s r.bank row reads then nvRetried s else s

theorem rowCounted_only (launch : Option Launch) (row : Nat) (reads : List Bytes) (bits : Option Nat) (again : Nat) (r : Recompute)
    (s : State) : Only [.time, .counters, .events, .held, .model, .banks, .integ, .out] s (rowCounted launch row reads bits again r s) := by
  unfold rowCounted
  split
  next => exact (((bump_only ..).mono rfl).trans ((flagSlice_only ..).mono rfl)).trans ((nvPoisoned_only ..).mono rfl)
  next => exact ((bump_only ..).mono rfl).trans ((nvPoisoned_only ..).mono rfl)
  next => exact Only.ite (fun _ => (nvRetried_only s).mono rfl) fun _ => Only.refl _ s

theorem rowCounted_lastUse (launch : Option Launch) (row : Nat) (reads : List Bytes) (bits : Option Nat) (again : Nat) (r : Recompute)
    (s : State) (b : Nat) : (bankOf (rowCounted launch row reads bits again r s) b).lastUse = (bankOf s b).lastUse := by
  unfold rowCounted
  split
  next => rw [nvPoisoned_lastUse, (flagSlice_only ..).bankOf_eq (by decide), (bump_only ..).bankOf_eq (by decide)]
  next => rw [nvPoisoned_lastUse, (bump_only ..).bankOf_eq (by decide)]
  next =>
    split
    · rw [(nvRetried_only s).bankOf_eq (by decide)]
    · rfl

/-- The state once the row has been added and counted. -/
def rowArrived (c n row : Nat) (rest : List Nat) (reads : List Bytes) (bits : Option Nat) (again : Nat) (r : Recompute) (s : State) :
    State :=
  rowCounted (recomputeLaunch s r) row reads bits again r (noteUse r.bank
    (modCluster c (fun y => { y with recomputes := tset y.recomputes n (withRow s row rest bits again r) }) s))

/-- A tile of the recompute waits or is in progress. -/
def recomputeQueued (n : Nat) (y : Cluster) : Bool :=
  (y.current.toList ++ y.tiles).any fun t => match t.work with
    | .recompute m => m = n
    | _ => false

theorem recomputeQueued_tile {n : Nat} {y : Cluster} (h : recomputeQueued n y = true) :
    ∃ k ∈ y.current.toList ++ y.tiles, k.work = .recompute n := by
  obtain ⟨k, hk, hwork⟩ := List.any_eq_true.1 h
  refine ⟨k, hk, ?_⟩
  split at hwork
  next m hm => rw [hm, of_decide_eq_true hwork]
  next => cases hwork

/-- R136: after its last row a recompute has a tile. -/
def rowEnded (c n : Nat) (rest : List Nat) (s : State) : State :=
  if rest = [] && !recomputeQueued n (clusterOf s c) then addTile c (recomputeTile n) s else s

section Row

variable {c : Fin 16} {n row : Nat} {rest : List Nat} {reads : List Bytes} {bits : Option Nat} {again : Nat} {r : Recompute} {s : State}

theorem execStreamReadRow_adds (hr : tget? (clusterOf s c).recomputes n = some r) (hstarted : r.started = true)
    (hrows : r.rowsLeft = row :: rest) (hruns : clusterRuns s c = true) (hbusy : bankBusy s r.bank = false)
    (hpulsing : bankPulsing s r.bank = false) (hread : tryReads s r.bank row reads = (bits, again)) :
    execStreamReadRow c n reads s = .next (rowEnded c n rest (rowArrived c n row rest reads bits again r s)) := by
  have hfound : ((tget? (clusterOf s c).recomputes n).bind fun r => if r.started then some r else none) = some r := by
    simp [hr, hstarted]
  unfold execStreamReadRow
  extract_lets cv
  unfold cv
  simp -zeta only [hfound, hrows, hruns, hbusy, hpulsing, Bool.not_true, Bool.or_false,
    Bool.false_eq_true, if_false, hread]
  rfl

/-- R145: without rows to come, or before its start, nothing is read for a recompute. -/
theorem execStreamReadRow_idle (h : ∀ r, tget? (clusterOf s c).recomputes n = some r → r.started = false ∨ r.rowsLeft = []) :
    execStreamReadRow c n reads s = .next s := by
  unfold execStreamReadRow
  extract_lets cv
  unfold cv
  split
  next => rfl
  next r hfound =>
    obtain ⟨r', hr, hsome⟩ := Option.bind_eq_some_iff.1 hfound
    split at hsome
    next hstarted =>
      cases hsome
      have hrows : r.rowsLeft = [] := (h r hr).resolve_left (by simp [hstarted])
      split
      next => rfl
      next hcons => cases hrows.symm.trans hcons
    next => cases hsome

theorem rowArrived_spec : let u := rowArrived c n row rest reads bits again r s
    tget? (clusterOf u c).recomputes n = some (withRow s row rest bits again r) ∧ (bankOf u r.bank).lastUse = some (tideOf s) := by
  dsimp only
  refine ⟨?_, ?_⟩
  · rw [rowArrived, (rowCounted_only ..).clusterOf_eq (by decide), (noteUse_only ..).clusterOf_eq (by decide), clusterOf_modCluster_self]
    exact tget?_tset_self ..
  · rw [rowArrived, rowCounted_lastUse, noteUse, bankOf_modBank_self]
    rfl

theorem rowEnded_spec (c n : Nat) (rest : List Nat) (u : State) : let t := rowEnded c n rest u
    (clusterOf t c).recomputes = (clusterOf u c).recomputes ∧ (∀ b, bankOf t b = bankOf u b) ∧
    (rest = [] → ∃ k ∈ (clusterOf t c).current.toList ++ (clusterOf t c).tiles, k.work = .recompute n) := by
  unfold rowEnded
  dsimp only
  split
  next =>
    rw [clusterOf_addTile]
    exact ⟨rfl, (addTile_only ..).bankOf_eq (by decide), fun _ => ⟨recomputeTile n, by simp, rfl⟩⟩
  next hqueued =>
    refine ⟨rfl, fun _ => rfl, fun hlast => recomputeQueued_tile ?_⟩
    simpa [hlast] using hqueued

theorem streamReadRow_adds (hr : tget? (clusterOf s c).recomputes n = some r) (hstarted : r.started = true)
    (hrows : r.rowsLeft = row :: rest) (hruns : clusterRuns s c = true) (hbusy : bankBusy s r.bank = false)
    (hpulsing : bankPulsing s r.bank = false) (hread : tryReads s r.bank row reads = (bits, again)) :
    Completes (.streamReadRow c n reads) s fun t =>
      tget? (clusterOf t c).recomputes n = some (withRow s row rest bits again r) ∧
      (rest = [] → ∃ k ∈ (clusterOf t c).current.toList ++ (clusterOf t c).tiles, k.work = .recompute n) ∧
      (bankOf t r.bank).lastUse = some (tideOf s) ∧
      Only [.gov, .time, .cause, .counters, .events, .held, .model, .hbr, .banks, .clusters, .awl, .scheds, .integ, .out] s t := by
  have hexec := execStreamReadRow_adds hr hstarted hrows hruns hbusy hpulsing hread
  obtain ⟨hadded, huse⟩ := rowArrived_spec (c := c) (n := n) (row := row) (rest := rest) (reads := reads) (bits := bits) (again := again)
    (r := r) (s := s)
  obtain ⟨hrecomputes, hbanks, htile⟩ := rowEnded_spec c n rest (rowArrived c n row rest reads bits again r s)
  exact ⟨_, hexec, by rw [hrecomputes, hadded], htile, by rw [hbanks, huse], execStreamReadRow_only c n reads s _ hexec⟩

end Row

end Sys2Proof.Laws
end
section
/-! SUPPORT. Covers of banks (R147, R330): no cover, a cover without a copy, and a cover with its copy in 8 SHARED slabs. -/

namespace Sys2Proof.Laws

open Sys2Proof.Machine

theorem execCoverStart_bank {b : Nat} {s : State} (h : bankExists s b = true) : execCoverStart (.bank b) s = .next (coverBank b s) :=
  if_pos h

theorem execCoverStart_absent {b : Nat} {s : State} (h : bankExists s b = false) : execCoverStart (.bank b) s = .fault .absentUnit := by
  simp [execCoverStart, h]

theorem coverBank_uncovered {b : Nat} {s : State} (h : bankCovered s b = false) : coverBank b s = s := by
  simp [coverBank, h]

/-- The bank's top-ups are held off (R305): a read for a copy preempts them. -/
def windowClosed (b : Nat) (s : State) : State := modSched b (fun d => { d with window := false }) s

theorem coverRow_windowClosed (m n row : Nat) (s : State) : coverRow (windowClosed m s) n row = coverRow s n row := by
  have hfailing : (schedOf (windowClosed m s) n).failing = (schedOf s n).failing := by
    rw [windowClosed, schedOf_modSched]
    split
    next h => rw [h]
    next => rfl
  have hbank : bankOf (windowClosed m s) n = bankOf s n := rfl
  simp only [coverRow, streamRow, hfailing, hbank]

/-- R330: the rows of a bank that cannot be copied. -/
def lostRows (s : State) (n : Nat) : List Nat := (List.range 1024).filter fun r => (coverRow s n r).isNone

theorem lostRows_windowClosed (m n : Nat) (s : State) : lostRows (windowClosed m s) n = lostRows s n := by
  simp only [lostRows, coverRow_windowClosed]

/-- The covers with that of bank `n`. -/
def withCover (n : Nat) (cov : Cover) (s : State) : State := { s with model := { s.model with covers := tset s.model.covers n cov } }

theorem withCover_covers (n : Nat) (cov : Cover) (s : State) : tget? (withCover n cov s).model.covers n = some cov :=
  tget?_tset_self ..

/-- R147: the cover of a bank that had none. -/
theorem copyBank_covers {n : Nat} {s : State} (hnone : tget? s.model.covers n = none) (slabs : List (BitVec 16)) :
    tget? (copyBank n slabs s).model.covers n = some { forced := false, slabs := slabs, missing := lostRows s n } := by
  have hmissing : (((List.range 1024).map fun r => (r, coverRow s n r)).filter fun e => e.2.isNone).map Prod.fst = lostRows s n := by
    simp [lostRows, List.filter_map, Function.comp_def]
  unfold copyBank
  extract_lets rows missing cov copied counted
  have hcov : ({ cov with slabs := slabs, missing := missing } : Cover) = { forced := false, slabs := slabs, missing := lostRows s n } := by
    unfold cov missing rows
    rw [hnone, hmissing]
    rfl
  rw [hcov]
  clear_value counted
  exact tget?_tset_self ..

section Cover

variable {b : Nat} {s : State} (hcovered : bankCovered s b = true) (hcompute : (bankOf s b).storageMode = false)
  (hplaced : bankPlaced s b = true) (hnone : tget? s.model.covers b = none) (hidle : (schedOf s b).run = none)
include hcovered hcompute hplaced hnone hidle

theorem coverBank_overBudget (hbudget : 8 * dictNum s (ob 0x5020 1) < coverCopies s + 1) :
    coverBank b s = withCover b { forced := false, slabs := [], missing := [] } (windowClosed b s) := by
  have hspent : ¬coverCopies (windowClosed b s) + 1 ≤ 8 * dictNum (windowClosed b s) (ob 0x5020 1) := Nat.not_le.2 hbudget
  rw [windowClosed] at hspent
  simp [coverBank, hcovered, hcompute, hplaced, hnone, preemptRun_idle hidle, hspent, withCover, windowClosed]

theorem coverBank_copies (hbudget : coverCopies s + 1 ≤ 8 * dictNum s (ob 0x5020 1)) (hroom : 8 ≤ (sharedSlabs s).length)
    (hbusy : bankBusy s b = false) (hpulsing : bankPulsing s b = false)
    (hready : runsWait s (((sharedSlabs s).take 8).map fun h => (slabAddr h.toNat, 16384)) = false) :
    coverBank b s = copyBank b ((sharedSlabs s).take 8) (windowClosed b s) := by
  have hbudget' : coverCopies (windowClosed b s) + 1 ≤ 8 * dictNum (windowClosed b s) (ob 0x5020 1) := hbudget
  have hslabs : sharedSlabs (windowClosed b s) = sharedSlabs s := rfl
  have hbusy' : bankBusy (windowClosed b s) b = false := hbusy
  have hpulsing' : bankPulsing (windowClosed b s) b = false := hpulsing
  have hready' : runsWait (windowClosed b s) (((sharedSlabs s).map fun h => (slabAddr h.toNat, 16384)).take 8) = false := by
    rw [← List.map_take]
    exact hready
  rw [coverBank, preemptRun_idle hidle, ← windowClosed]
  simp [hcovered, hcompute, hplaced, hnone, hslabs, hbudget', hroom, hbusy', hpulsing', hready']

end Cover

end Sys2Proof.Laws
end

section
/-! SUPPORT. The Shank clusters' tiles, streaming reads and covers, settled (R134 to R147, R330). -/

namespace Sys2Proof.Laws

open Sys2Proof.Machine

/-- Settles O52: each clause is the lemma on its command above; that the start of the recomputes leaves the waiting tiles, and that the
counting of a poisoned row leaves the bank's time of use, are the two facts that they turn on. -/
theorem shankWork : Obligations.ShankWork := by
  refine ⟨fun c n s => recomputeReceive_queues, fun c s => execRecomputeReceive_none,
    fun l => ⟨nextTile_eq_none_iff, fun t => nextTile_least⟩, fun c us s => execShankTileBoundary_stopped us,
    fun c us s hruns hidle => ?takes, fun c k n r j s hruns hk hclean hwork hr hstarted hrows hj => ?sends,
    fun c reads n row rest r s hr hstarted hrows hruns hbusy hpulsing => ?row, fun c n reads s h => ?idle,
    fun b s hb huncovered => ?uncovered, fun b s hb hcovered hcompute hplaced hnone hidle => ⟨fun hbudget => ?spent, ?copied⟩,
    fun b s => execCoverStart_absent⟩
  case takes =>
    obtain ⟨hcurrent, htiles, -⟩ := takeTile_takes c s
    refine ⟨_, execShankTileBoundary_between us hruns hidle, takeTile_only c s, hcurrent, htiles.trans ?_,
      fun k n r hk hwork hr hnot hready => takeTile_starts hk hwork hr hnot hready⟩
    cases nextTile (clusterOf s c).tiles <;> rfl
  case sends =>
    obtain ⟨hout, hcurrent, htiles, honly⟩ := recomputeSent_spec c r s
    exact ⟨_, execShankTileBoundary_sends hruns hk hclean hwork hr hstarted hrows hj, hout, hcurrent, htiles, honly⟩
  case row =>
    obtain ⟨t, hexec, hrecompute, htile, huse, honly⟩ := streamReadRow_adds (reads := reads) (bits := (tryReads s r.bank row reads).1)
      (again := (tryReads s r.bank row reads).2) hr hstarted hrows hruns hbusy hpulsing Prod.mk.eta.symm
    refine ⟨t, hexec, ⟨_, hrecompute, rfl, ?_⟩, htile, huse, honly⟩
    generalize (tryReads s r.bank row reads).1 = bits
    cases bits with
    | none => exact withRow_none ..
    | some v => exact withRow_some ..
  case idle => exact execStreamReadRow_idle (reads := reads) h
  case uncovered => exact (execCoverStart_bank hb).trans (congrArg Host.Outcome.next (coverBank_uncovered huncovered))
  case spent =>
    refine ⟨_, execCoverStart_bank hb, ?_⟩
    rw [coverBank_overBudget hcovered hcompute hplaced hnone hidle hbudget]
    refine ⟨withCover_covers .., rfl, ?_⟩
    rw [← coverBank_overBudget hcovered hcompute hplaced hnone hidle hbudget]
    exact coverBank_only b s
  case copied =>
    intro hbudget hroom hbusy hpulsing hready
    refine ⟨_, execCoverStart_bank hb, lostRows s b, ?_, rfl, coverBank_only b s⟩
    rw [coverBank_copies hcovered hcompute hplaced hnone hidle hbudget hroom hbusy hpulsing hready,
      copyBank_covers (s := windowClosed b s) hnone, lostRows_windowClosed]

end Sys2Proof.Laws
end

section
/-! SUPPORT. The Harbour's list of bytes stays canonical (R157, R162): the laws of the form, by which the operations compose. -/

namespace Sys2Proof

open Sys2Proof.Machine

/-- Each next state of a result has a canonical Harbour list. -/
def CanonicalR (r : Res) : Prop := ∀ t, r = .next t → HarbourCanonical t

/-- The state that an operation may answer has a canonical Harbour list. -/
def CanonicalO (r : Option State) : Prop := ∀ t, r = some t → HarbourCanonical t

section Laws

variable {α : Type} {P : List Part} {s t : State} {c : Prop} [Decidable c]

/-- Every part but the Harbour may change. -/
theorem Only.canonical (h : Only P s t) (hp : P.contains .hbr = false) (w : HarbourCanonical s) : HarbourCanonical t := by
  have hrest : { t.hbr with segs := s.hbr.segs } = s.hbr := h.2 .hbr (by simpa using hp)
  have hdata : t.hbr.data = s.hbr.data := (congrArg Harbour.data hrest :)
  rwa [HarbourCanonical, hdata]

theorem OnlyR.canonicalR {r : Res} (h : OnlyR P s r) (hp : P.contains .hbr = false) (w : HarbourCanonical s) : CanonicalR r :=
  fun t ht => (h t ht).canonical hp w

theorem OnlyO.canonicalO {r : Option State} (h : OnlyO P s r) (hp : P.contains .hbr = false) (w : HarbourCanonical s) :
    CanonicalO r :=
  fun t ht => (h t ht).canonical hp w

theorem HarbourCanonical.ite (ha : HarbourCanonical s) (hb : HarbourCanonical t) : HarbourCanonical (if c then s else t) := by
  split <;> assumption

theorem HarbourCanonical.ite2 {p q : α × State} (hp : HarbourCanonical p.2) (hq : HarbourCanonical q.2) :
    HarbourCanonical (if c then p else q).2 := by
  split <;> assumption

theorem HarbourCanonical.of_snd {p : α × State} {a : α} (e : p = (a, t)) (w : HarbourCanonical p.2) : HarbourCanonical t := by
  subst e
  exact w

theorem HarbourCanonical.of_fst {p : State × α} {a : α} (e : p = (t, a)) (w : HarbourCanonical p.1) : HarbourCanonical t := by
  subst e
  exact w

theorem HarbourCanonical.foldl {f : State → α → State} {l : List α} (hf : ∀ x a, HarbourCanonical x → HarbourCanonical (f x a))
    (w : HarbourCanonical s) : HarbourCanonical (l.foldl f s) :=
  List.foldlRecOn l f w fun x hx a _ => hf x a hx

theorem HarbourCanonical.foldr {f : α → State → State} {l : List α} (hf : ∀ a x, HarbourCanonical x → HarbourCanonical (f a x))
    (w : HarbourCanonical s) : HarbourCanonical (l.foldr f s) :=
  List.foldrRecOn l f w fun x hx a _ => hf a x hx

theorem CanonicalR.next (w : HarbourCanonical s) : CanonicalR (.next s) := by
  intro t ht
  cases ht
  exact w

theorem CanonicalR.fault {f : Fault} : CanonicalR (.fault f) := by
  intro t ht
  cases ht

theorem CanonicalR.refused {f : Refusal} : CanonicalR (.refused f) := by
  intro t ht
  cases ht

theorem CanonicalR.ite {a b : Res} (ha : CanonicalR a) (hb : CanonicalR b) : CanonicalR (if c then a else b) := by
  split <;> assumption

theorem CanonicalR.after {r : Res} (h : CanonicalR r) (w : HarbourCanonical s) : HarbourCanonical (stateAfter s r) := by
  unfold stateAfter
  split
  · exact h _ rfl
  · exact w

theorem CanonicalO.some (w : HarbourCanonical s) : CanonicalO (some s) := by
  intro t ht
  cases ht
  exact w

theorem CanonicalO.none : CanonicalO none := by
  intro t ht
  cases ht

theorem CanonicalO.ite {a b : Option State} (ha : CanonicalO a) (hb : CanonicalO b) : CanonicalO (if c then a else b) := by
  split <;> assumption

theorem CanonicalO.bind {o : Option State} {f : State → Option State} (h : CanonicalO o)
    (hf : ∀ x, HarbourCanonical x → CanonicalO (f x)) : CanonicalO (o.bind f) := by
  intro t ht
  obtain ⟨x, hx, hft⟩ := Option.bind_eq_some_iff.1 ht
  exact hf x (h x hx) t hft

end Laws

end Sys2Proof
end

section
/-! SUPPORT. The Harbour's list of bytes stays canonical (R157, R162): the accesses to the Harbour, the queue pairs, the banks and the store. -/

namespace Sys2Proof.Laws

open Sys2Proof.Machine

variable {s : State}

theorem harbWrite_canonical {a : Nat} {d : Bytes} {poison : Bool} (hwf : HarbourCanonical s) :
    HarbourCanonical (harbWrite a d poison s) :=
  .ite hwf (wf_hWrite _ _ _ _ hwf)

theorem ctxWrite_canonical {n off : Nat} {d : Bytes} (hwf : HarbourCanonical s) : HarbourCanonical (ctxWrite n off d s) :=
  harbWrite_canonical hwf

theorem useSlot_canonical {bank cls : Nat} (hwf : HarbourCanonical s) : HarbourCanonical (useSlot bank cls s) := hwf

theorem harbourCorrect_canonical {word bit : Nat} (hwf : HarbourCanonical s) : HarbourCanonical (harbourCorrect word bit s) := by
  unfold harbourCorrect
  extract_lets bank hard s₁
  have hwf₁ : HarbourCanonical s₁ := (correctedError_only ..).canonical rfl hwf
  exact .ite hwf₁ (useSlot_canonical (wf_writeBack _ _ hwf₁))

theorem touchWord_canonical {word : Nat} (hwf : HarbourCanonical s) : HarbourCanonical (touchWord word s) := by
  unfold touchWord
  extract_lets
  split
  · exact hwf
  · exact hwf
  · exact harbourCorrect_canonical hwf
  · exact harbourCorrect_canonical hwf
  · exact (bankHit_only ..).canonical rfl ((uncorrectable_only ..).canonical rfl hwf)

theorem touchGranule_canonical {g : Nat} (hwf : HarbourCanonical s) : HarbourCanonical (touchGranule g s) :=
  .ite (.foldl (fun _ _ h => touchWord_canonical h) hwf) hwf

theorem touchRun_canonical {port : BitVec 12} {a len : Nat} (hwf : HarbourCanonical s) : HarbourCanonical (touchRun port a len s) :=
  .foldl (fun _ _ h => .ite (touchGranule_canonical (useSlot_canonical h)) h) hwf

theorem fetchRun_canonical {port : BitVec 12} {a len : Nat} (hwf : HarbourCanonical s) :
    HarbourCanonical (fetchRun port a len s).2 :=
  touchRun_canonical hwf

theorem fetchRuns_canonical {port : BitVec 12} {runs : List (Nat × Nat)} (hwf : HarbourCanonical s) :
    HarbourCanonical (fetchRuns port runs s).2 :=
  List.foldlRecOn (motive := fun acc : (Bytes × List Bool) × State => HarbourCanonical acc.2) runs _ hwf
    fun _ h _ _ => fetchRun_canonical h

theorem storeRun_canonical {port : BitVec 12} {a : Nat} {d : Bytes} {poison : Bool} (hwf : HarbourCanonical s) :
    HarbourCanonical (storeRun port a d poison s) := by
  unfold storeRun
  extract_lets cls s₁
  have hwf₁ : HarbourCanonical s₁ := .foldl (fun _ _ h => .ite (useSlot_canonical h) (touchGranule_canonical (useSlot_canonical h))) hwf
  exact .ite hwf (harbWrite_canonical hwf₁)

theorem storeMarked_canonical {port : BitVec 12} {a : Nat} {d : Bytes} {bad : List Bool} (hwf : HarbourCanonical s) :
    HarbourCanonical (storeMarked port a d bad s) := by
  refine .ite hwf (.foldl (fun _ _ h => wf_writeGranule _ _ _ _ _ ?_) hwf)
  exact HarbourCanonical.ite (useSlot_canonical h) (touchGranule_canonical (useSlot_canonical h))

theorem noteCleared_canonical {len : Nat} (hwf : HarbourCanonical s) : HarbourCanonical (noteCleared len s) :=
  (bumpBy_only ..).canonical rfl hwf

theorem serveRead_canonical {port : BitVec 12} {a n : Nat} (hwf : HarbourCanonical s) : HarbourCanonical (serveRead port a n s) :=
  .ite ((send_only ..).canonical rfl hwf) ((send_only ..).canonical rfl (touchRun_canonical hwf))

theorem serveWrite_canonical {port : BitVec 12} {a : Nat} {d : Bytes} {poison : BitVec 8} (hwf : HarbourCanonical s) :
    HarbourCanonical (serveWrite port a d poison s) :=
  .ite hwf (wf_writeGranule _ _ _ _ _ (useSlot_canonical hwf))

theorem servePartial_canonical {port : BitVec 12} {a : Nat} {d : Bytes} {poison : BitVec 8} (hwf : HarbourCanonical s) :
    HarbourCanonical (servePartial port a d poison s) :=
  .ite hwf (wf_writeGranule _ _ _ _ _ (touchGranule_canonical (useSlot_canonical hwf)))

theorem servePort_canonical {i : Initiator} {port : BitVec 12} {a len : Nat} {data : Option Bytes} (hwf : HarbourCanonical s) :
    HarbourCanonical (servePort i port a len data s) := by
  unfold servePort
  extract_lets
  split
  · exact (send_only ..).canonical rfl (touchRun_canonical hwf)
  · exact storeRun_canonical hwf

theorem serve_canonical {x : Access} (hwf : HarbourCanonical s) : HarbourCanonical (serve x s) := by
  unfold serve
  split
  · exact serveRead_canonical hwf
  · exact serveWrite_canonical hwf
  · exact servePartial_canonical hwf
  · exact servePort_canonical hwf
  · exact servePort_canonical hwf

theorem access_canonical {x : Access} (hwf : HarbourCanonical s) : HarbourCanonical (access x s) :=
  .ite ((runWake_only ..).canonical rfl hwf) (serve_canonical hwf)

theorem serveNext_canonical {fuel : Nat} {s : State} (hwf : HarbourCanonical s) : HarbourCanonical (serveNext fuel s) := by
  induction fuel generalizing s with
  | zero => exact hwf
  | succ fuel ih =>
    unfold serveNext
    split
    · exact hwf
    · exact ih (serve_canonical hwf)

theorem serveWaiting_canonical (hwf : HarbourCanonical s) : HarbourCanonical (serveWaiting s) := serveNext_canonical hwf

theorem coreWrite_canonical {a : Nat} {d : Bytes} (hwf : HarbourCanonical s) : HarbourCanonical (coreWrite a d s) :=
  access_canonical hwf

theorem postEntry_canonical {q key : Nat} {r : Reply} {orig : Nat} {noIntr : Bool} {readAt : BitVec 64} (hwf : HarbourCanonical s) :
    HarbourCanonical (postEntry q key r orig noIntr readAt s) := by
  unfold postEntry
  extract_lets p entry addr s₁ wrap s₂ s₃
  have hwf₁ : HarbourCanonical s₁ := .ite (coreWrite_canonical hwf) ((sendPort_only ..).canonical rfl hwf)
  have hwf₂ : HarbourCanonical s₂ := (modPair_only ..).canonical rfl hwf₁
  have hwf₃ : HarbourCanonical s₃ := (sample_only ..).canonical rfl hwf₂
  exact .ite hwf₃ ((countCompletion_only ..).canonical rfl hwf₃)

theorem logEntry_canonical {q key : Nat} {r : Reply} (hwf : HarbourCanonical s) : HarbourCanonical (logEntry q key r s) :=
  .ite (coreWrite_canonical hwf) ((sendPort_only ..).canonical rfl hwf)

theorem logAndPost_canonical {q key : Nat} {r : Reply} {noIntr : Bool} {readAt : BitVec 64} (hwf : HarbourCanonical s) :
    HarbourCanonical (logAndPost q key r noIntr readAt s) :=
  postEntry_canonical (logEntry_canonical hwf)

theorem finish_canonical {a : Nat} {r : Reply} (hwf : HarbourCanonical s) : HarbourCanonical (finish a r s) := by
  unfold finish
  extract_lets
  split
  · exact hwf
  · exact .ite hwf ((freeSlot_only ..).canonical rfl (logAndPost_canonical hwf))

theorem finishSt_canonical {a status : Nat} (hwf : HarbourCanonical s) : HarbourCanonical (finishSt a status s) :=
  finish_canonical hwf

theorem finishAt_canonical {a status detail : Nat} (hwf : HarbourCanonical s) : HarbourCanonical (finishAt a status detail s) :=
  finish_canonical hwf

theorem answer_canonical {r : Requester} {rep : Reply} (hwf : HarbourCanonical s) : HarbourCanonical (answer r rep s) := by
  unfold answer
  split
  · exact finish_canonical hwf
  · exact (send_only ..).canonical rfl hwf

theorem takeEntry_canonical {a q : Nat} {e : Bytes} (hwf : HarbourCanonical s) : HarbourCanonical (takeEntry a q e s) := by
  unfold takeEntry
  extract_lets p key now s₁
  have hwf₁ : HarbourCanonical s₁ := (modPair_only ..).canonical rfl hwf
  split
  · exact postEntry_canonical hwf
  · split
    · exact postEntry_canonical ((bump_only ..).canonical rfl hwf)
    · exact (modPair_only ..).canonical rfl hwf
    · split
      · exact logAndPost_canonical hwf₁
      · exact (admitEntry_only ..).canonical rfl hwf₁

theorem ringRead_canonical {harbour : Bool} {a len : Nat} {port : HostRead} (hwf : HarbourCanonical s) :
    HarbourCanonical (ringRead harbour a len port s).2 := by
  unfold ringRead
  split
  · split
    · rename_i e₁
      have hwf₁ : HarbourCanonical _ := .of_snd e₁ (fetchRun_canonical hwf)
      exact hwf₁
  · exact hwf

theorem execSubmissionRead_canonical {pair : Fin 16384} {entry : HostRead} (hwf : HarbourCanonical s) :
    CanonicalR (execSubmissionRead pair entry s) := by
  unfold execSubmissionRead
  extract_lets
  split
  · exact .next hwf
  · split
    · exact .next ((runWake_only ..).canonical rfl hwf)
    · split
      · exact .next ((bump_only ..).canonical rfl hwf)
      · split
        · rename_i e₁
          have hwf₁ : HarbourCanonical _ := .of_snd e₁ (ringRead_canonical hwf)
          extract_lets burst _ s₂ s₃
          have hwf₃ : HarbourCanonical s₃ := (modPair_only ..).canonical rfl hwf₁
          split
          · exact .next (takeEntry_canonical hwf₃)
          · exact .next ((pairError_only ..).canonical rfl hwf₃)

theorem execDuplicateReplay_canonical {pair : Fin 16384} {key : BitVec 64} {log : HostRead} (hwf : HarbourCanonical s) :
    CanonicalR (execDuplicateReplay pair key log s) := by
  unfold execDuplicateReplay
  extract_lets
  split
  · exact .next hwf
  · split
    · exact .next hwf
    · split
      · exact .next ((runWake_only ..).canonical rfl hwf)
      · split
        · rename_i e₁
          have hwf₁ : HarbourCanonical _ := .of_snd e₁ (ringRead_canonical hwf)
          extract_lets s₂
          have hwf₂ : HarbourCanonical s₂ := (modPair_only ..).canonical rfl hwf₁
          split
          · exact .ite (.next (postEntry_canonical ((bump_only ..).canonical rfl hwf₂))) (.next (postEntry_canonical ((bump_only
              ..).canonical rfl hwf₂)))
          · exact .next (postEntry_canonical ((bump_only ..).canonical rfl hwf₂))

theorem unpark_canonical {q : Nat} (hwf : HarbourCanonical s) : HarbourCanonical (unpark q s) :=
  .foldl (fun _ _ h => finish_canonical h) hwf

theorem disablePair_canonical {q : Nat} (hwf : HarbourCanonical s) : HarbourCanonical (disablePair q s) := by
  unfold disablePair
  split
  · exact (modPair_only ..).canonical rfl hwf
  · exact unpark_canonical ((modPair_only ..).canonical rfl hwf)
  · exact hwf

theorem disableRecord_canonical {q : Nat} {b : Bytes} (hwf : HarbourCanonical s) : HarbourCanonical (disableRecord q b s).2 :=
  .ite2 hwf (.ite2 hwf (disablePair_canonical hwf))

theorem admCtrlWrite_canonical {i : Initiator} {v : BitVec 32} (hwf : HarbourCanonical s) : HarbourCanonical (admCtrlWrite i v s) := by
  unfold admCtrlWrite
  extract_lets
  exact .ite ((privDrop_only ..).canonical rfl hwf) (.ite (.ite ((modPair_only ..).canonical rfl hwf) hwf) (disablePair_canonical hwf))

end Sys2Proof.Laws
end

section
/-! SUPPORT. The Harbour's list of bytes stays canonical (R157, R162): Awl and Cobbler. -/

namespace Sys2Proof.Laws

open Sys2Proof.Machine

variable {s : State}

theorem startProgram_canonical {n : Nat} {o : AwlOp} (hwf : HarbourCanonical s) : HarbourCanonical (startProgram n o s) := by
  unfold startProgram
  extract_lets first s₁
  have hwf₁ : HarbourCanonical s₁ := (modSched_only ..).canonical rfl ((modBank_only ..).canonical rfl hwf)
  split
  · extract_lets errs o s₂ s₃ s₄ s₅
    have hwf₂ : HarbourCanonical s₂ := .ite (touchRun_canonical hwf₁) hwf₁
    have hwf₃ : HarbourCanonical s₃ := (modOp_only ..).canonical rfl hwf₂
    have hwf₄ : HarbourCanonical s₄ := .ite ((bump_only ..).canonical rfl hwf₃) hwf₃
    have hwf₅ : HarbourCanonical s₅ := .ite ((bump_only ..).canonical rfl hwf₄) hwf₄
    exact .ite hwf₃ ((endOp_only ..).canonical rfl hwf₅)

theorem startOp_canonical {n : Nat} {o : AwlOp} (hwf : HarbourCanonical s) : HarbourCanonical (startOp n o s) := by
  unfold startOp
  extract_lets s₁
  have hwf₁ : HarbourCanonical s₁ := .ite ((setBankState_only ..).canonical rfl hwf) hwf
  split
  · exact (modOp_only ..).canonical rfl hwf₁
  · split
    · exact (endOp_only ..).canonical rfl hwf
    · split
      · exact startProgram_canonical hwf
      · exact startProgram_canonical hwf
      · exact (startErase_only ..).canonical rfl hwf
      · exact (modOp_only ..).canonical rfl hwf

theorem queueOp_canonical {n : Nat} {o : AwlOp} (hwf : HarbourCanonical s) : HarbourCanonical (queueOp n o s) := by
  unfold queueOp
  extract_lets _ s₁ s₂
  have hwf₂ : HarbourCanonical s₂ := (modBank_only ..).canonical rfl hwf
  exact .ite (startOp_canonical hwf₂) ((bufferWake_only ..).canonical rfl hwf₂)

theorem operationCmd_canonical {c : Fin 8} {k : AwlKind} (hwf : HarbourCanonical s) : HarbourCanonical (operationCmd c k s) := by
  unfold operationCmd
  extract_lets n ch b row keyOk wordOk o s₁ s₂
  have hwf₁ : HarbourCanonical s₁ := (acceptCmd_only ..).canonical rfl hwf
  have hwf₂ : HarbourCanonical s₂ := (modChan_only ..).canonical rfl hwf₁
  exact .ite ((setErr_only ..).canonical rfl hwf) (.ite ((rejectBusy_only ..).canonical rfl hwf) (.ite ((seqError_only ..).canonical rfl
    hwf) (.ite ((setErr_only ..).canonical rfl hwf) (.ite ((setErr_only ..).canonical rfl hwf) (queueOp_canonical hwf₂)))))

/-- R268: an operation that an unlocked channel runs. -/
theorem unlocked_canonical {i : Initiator} {c : Nat} {k : State → State} (hk : ∀ x, HarbourCanonical x → HarbourCanonical (k x))
    (hwf : HarbourCanonical s) : CanonicalR (unlocked i c s k) :=
  .ite (.next ((privDrop_only ..).canonical rfl hwf)) (.ite (.next (hk _ ((modChan_only ..).canonical rfl hwf)))
    (.next ((seqError_only ..).canonical rfl hwf)))

theorem execProgramRow_canonical {i : Initiator} {ch : Fin 8} (hwf : HarbourCanonical s) : CanonicalR (execProgramRow i ch s) :=
  unlocked_canonical (fun _ h => operationCmd_canonical h) hwf

theorem execProgramWord_canonical {i : Initiator} {ch : Fin 8} (hwf : HarbourCanonical s) : CanonicalR (execProgramWord i ch s) :=
  unlocked_canonical (fun _ h => operationCmd_canonical h) hwf

theorem execEraseBank_canonical {i : Initiator} {ch : Fin 8} (hwf : HarbourCanonical s) : CanonicalR (execEraseBank i ch s) :=
  unlocked_canonical (fun _ h => operationCmd_canonical h) hwf

theorem execTopUpRow_canonical {i : Initiator} {ch : Fin 8} (hwf : HarbourCanonical s) : CanonicalR (execTopUpRow i ch s) :=
  unlocked_canonical (fun _ h => operationCmd_canonical h) hwf

theorem execReadRow_canonical {i : Initiator} {ch : Fin 8} (hwf : HarbourCanonical s) : CanonicalR (execReadRow i ch s) :=
  unlocked_canonical (fun _ h => operationCmd_canonical h) hwf

theorem execReadMargin_canonical {i : Initiator} {ch : Fin 8} (hwf : HarbourCanonical s) : CanonicalR (execReadMargin i ch s) :=
  unlocked_canonical (fun _ h => operationCmd_canonical h) hwf

theorem resumeBank_canonical {n : Nat} (hwf : HarbourCanonical s) : HarbourCanonical (resumeBank n s) := by
  unfold resumeBank
  split
  · exact hwf
  · exact .ite (startOp_canonical ((modOp_only ..).canonical rfl hwf)) ((modOp_only ..).canonical rfl hwf)

theorem resumeByte_canonical {c : Nat} (hwf : HarbourCanonical s) : HarbourCanonical (resumeByte c s) :=
  resumeBank_canonical ((noSuchBank_only ..).canonical rfl ((modChan_only ..).canonical rfl hwf))

theorem execResume_canonical {i : Initiator} {ch : Fin 8} (hwf : HarbourCanonical s) : CanonicalR (execResume i ch s) :=
  .ite (.next ((privDrop_only ..).canonical rfl hwf)) (.next (resumeByte_canonical hwf))

theorem execAwlOpStart_canonical {bank : Nat} (hwf : HarbourCanonical s) : CanonicalR (execAwlOpStart bank s) := by
  unfold execAwlOpStart
  split
  · exact .fault
  · split
    · exact .next (.foldl (fun _ _ h => (bufferWake_only ..).canonical rfl h) hwf)
    · exact .next (startOp_canonical hwf)

theorem endRead_canonical {n : Nat} {o : AwlOp} (hwf : HarbourCanonical s) : HarbourCanonical (endRead n o s) := by
  unfold endRead
  extract_lets b
  split
  · rename_i e
    have hwf₁ : HarbourCanonical _ := (readOut_only n o.row.toNat s).canonical rfl hwf
    rw [e] at hwf₁
    exact (noteUse_only ..).canonical rfl ((endOp_only ..).canonical rfl (storeRun_canonical (storeRun_canonical hwf₁)))

theorem endRun_canonical {n : Nat} {run : Run} (hwf : HarbourCanonical s) : HarbourCanonical (endRun n run s) := by
  unfold endRun
  extract_lets s₁ s₂ s₃
  have hwf₁ : HarbourCanonical s₁ := (modSched_only ..).canonical rfl hwf
  have hwf₂ : HarbourCanonical s₂ := (bump_only ..).canonical rfl (.ite ((bump_only ..).canonical rfl hwf₁) hwf₁)
  have hwf₃ : HarbourCanonical s₃ := (refreshSymptoms_only ..).canonical rfl hwf₂
  exact .ite (resumeBank_canonical hwf₃) hwf₃

theorem endTopUp_canonical {n : Nat} {o : AwlOp} {r : OpEnd} (hwf : HarbourCanonical s) : HarbourCanonical (endTopUp n o r s) := by
  unfold endTopUp
  extract_lets s₁ s₂
  have hwf₁ : HarbourCanonical s₁ := by
    unfold s₁
    split
    · exact (modChan_only ..).canonical rfl hwf
    · exact hwf
  have hwf₂ : HarbourCanonical s₂ := (endOp_only ..).canonical rfl ((bumpBy_only ..).canonical rfl hwf₁)
  split
  · exact hwf₂
  · split
    · exact hwf₂
    · extract_lets s₃
      have hwf₃ : HarbourCanonical s₃ := (modSched_only ..).canonical rfl hwf₂
      exact .ite (endRun_canonical hwf₂) (.ite (.ite (resumeBank_canonical hwf₃) hwf₃) ((modBank_only ..).canonical rfl hwf₃))

theorem execAwlOpComplete_canonical {bank : Nat} {r : OpEnd} (hwf : HarbourCanonical s) : CanonicalR (execAwlOpComplete bank r s) := by
  unfold execAwlOpComplete
  split
  · exact .fault
  · split
    · exact .next hwf
    · split
      · exact .next hwf
      · split
        · exact .next ((endProgram_only ..).canonical rfl hwf)
        · exact .next ((endProgram_only ..).canonical rfl hwf)
        · exact .next ((endErase_only ..).canonical rfl hwf)
        · exact .next (endTopUp_canonical hwf)
        · exact .ite (.next ((runWake_only ..).canonical rfl hwf)) (.next (endRead_canonical hwf))
        · exact .next ((endMargin_only ..).canonical rfl hwf)

theorem releaseBank_canonical {n : Nat} (hwf : HarbourCanonical s) : HarbourCanonical (releaseBank n s) := by
  unfold releaseBank
  extract_lets s₁
  have hwf₁ : HarbourCanonical s₁ := (modBank_only ..).canonical rfl hwf
  exact .ite (queueOp_canonical hwf₁) hwf₁

theorem execTopupRunStart_canonical {bank : Nat} (hwf : HarbourCanonical s) : CanonicalR (execTopupRunStart bank s) := by
  unfold execTopupRunStart
  extract_lets d floor permille s₁ s₂
  have hwf₁ : HarbourCanonical s₁ := .ite ((floorSuspend_only ..).canonical rfl hwf) hwf
  have hwf₂ : HarbourCanonical s₂ := (modSched_only ..).canonical rfl hwf₁
  exact .ite .fault (.ite (.next hwf) (.next (queueOp_canonical hwf₂)))

theorem execTopupResume_canonical {bank : Nat} (hwf : HarbourCanonical s) : CanonicalR (execTopupResume bank s) := by
  unfold execTopupResume
  split
  · exact .fault
  · split
    · exact .next hwf
    · extract_lets s₁ s₂
      have hwf₁ : HarbourCanonical s₁ := .ite ((floorSuspend_only ..).canonical rfl hwf) hwf
      have hwf₂ : HarbourCanonical s₂ := (modSched_only ..).canonical rfl hwf₁
      exact .ite (.next hwf) (.next (queueOp_canonical hwf₂))

theorem preemptRun_canonical {n : Nat} (hwf : HarbourCanonical s) : HarbourCanonical (preemptRun n s) := by
  unfold preemptRun
  extract_lets s₁
  have hwf₁ : HarbourCanonical s₁ := (modSched_only ..).canonical rfl hwf
  split
  · exact hwf₁
  · extract_lets s₂ waits s₃ s₄
    have hwf₂ : HarbourCanonical s₂ := (modSched_only ..).canonical rfl hwf₁
    have hwf₃ : HarbourCanonical s₃ := (modBank_only ..).canonical rfl hwf₂
    have hwf₄ : HarbourCanonical s₄ := (bump_only ..).canonical rfl hwf₃
    exact .ite hwf₁ (.ite (resumeBank_canonical hwf₄) hwf₄)

theorem moveSlices_canonical {from_ to_ : Nat} (hwf : HarbourCanonical s) : HarbourCanonical (moveSlices from_ to_ s) := by
  unfold moveSlices
  extract_lets b move slots count _ s₁ s₂
  have hwf₂ : HarbourCanonical s₂ := (modBank_only ..).canonical rfl hwf
  exact releaseBank_canonical ((raise_only ..).canonical rfl ((bumpBy_only ..).canonical rfl hwf₂))

theorem sealedMoves_canonical {t : Nat} (hwf : HarbourCanonical s) : HarbourCanonical (sealedMoves t s) := by
  unfold sealedMoves
  extract_lets d s₁
  have hwf₁ : HarbourCanonical s₁ := (modSched_only ..).canonical rfl hwf
  split
  · exact .ite ((rebuilt_only ..).canonical rfl (moveSlices_canonical hwf₁)) (moveSlices_canonical hwf₁)
  · exact .ite ((rebuilt_only ..).canonical rfl hwf₁) hwf₁

theorem sealIfStorage_canonical {n : Nat} (hwf : HarbourCanonical s) : HarbourCanonical (sealIfStorage n s) :=
  .ite (sealedMoves_canonical ((sealNow_only ..).canonical rfl hwf)) hwf

theorem programInto_canonical {n t : Nat} {storage : Bool} {rows : List (Nat × Nat)} (hwf : HarbourCanonical s) :
    HarbourCanonical (programInto n t storage rows s) := by
  unfold programInto
  extract_lets s₁
  have hwf₁ : HarbourCanonical s₁ := (writeBank_only ..).canonical rfl ((modBank_only ..).canonical rfl hwf)
  exact sealIfStorage_canonical ((modSched_only ..).canonical rfl hwf₁)

theorem rebuildFrom_canonical {bank : Nat} {target : Option Nat} {cols : List Nat} {rows : List (Nat × Nat)}
    (hwf : HarbourCanonical s) :
    HarbourCanonical (rebuildFrom bank target cols rows s) := by
  unfold rebuildFrom
  extract_lets b s₁
  have hwf₁ : HarbourCanonical s₁ := (modBank_only ..).canonical rfl hwf
  split
  · extract_lets b' s₂ s₃ s₄
    have hwf₂ : HarbourCanonical s₂ := (modBank_only ..).canonical rfl hwf
    have hwf₃ : HarbourCanonical s₃ := (modSched_only ..).canonical rfl hwf₂
    have hwf₄ : HarbourCanonical s₄ := .ite hwf₁ ((markRetired_only ..).canonical rfl hwf₁)
    split
    · exact sealIfStorage_canonical ((refreshSymptoms_only ..).canonical rfl hwf₃)
    · split
      · exact programInto_canonical ((modSched_only ..).canonical rfl hwf₄)
      · exact hwf₄

theorem execRebuildCycle_canonical {bank : Nat} {target : Option Nat} (hwf : HarbourCanonical s) :
    CanonicalR (execRebuildCycle bank target s) := by
  unfold execRebuildCycle
  extract_lets
  split
  · exact .fault
  · split
    · exact .next hwf
    · split
      · split
        · split
          · extract_lets s₁
            have hwf₁ : HarbourCanonical s₁ := .ite hwf ((markRetired_only ..).canonical rfl ((modBank_only ..).canonical rfl hwf))
            exact .next ((nvPoisoned_only ..).canonical rfl ((bump_only ..).canonical rfl ((flagBank_only ..).canonical rfl hwf₁)))
        · exact .next (rebuildFrom_canonical hwf)

theorem sealTested_canonical {n : Nat} (hwf : HarbourCanonical s) : HarbourCanonical (sealTested n s) :=
  .ite (sealedMoves_canonical ((sealNow_only ..).canonical rfl hwf)) hwf

end Sys2Proof.Laws
end

section
/-! SUPPORT. The Harbour's list of bytes stays canonical (R157, R162): the joins, the Laces and the Ferries, the Welts and the Shank clusters. -/

namespace Sys2Proof.Laws

open Sys2Proof.Machine

variable {s : State}

theorem clearReleased_canonical {h : BitVec 16} (hwf : HarbourCanonical s) : HarbourCanonical (clearReleased h s) := by
  unfold clearReleased
  extract_lets
  split
  · exact hwf
  · exact .ite hwf hwf

theorem releaseHandle_canonical {n : Nat} {h : BitVec 16} {c : Nat} (hwf : HarbourCanonical s) :
    HarbourCanonical (releaseHandle n h c s) :=
  clearReleased_canonical ((modLace_only ..).canonical rfl hwf)

theorem deliver_canonical {port : BitVec 12} {l lace plan vec fmt : Nat} {o : JoinOut} {special : Bool} (hwf : HarbourCanonical s) :
    CanonicalO (deliver port l lace plan vec fmt o special s) := by
  unfold deliver
  extract_lets
  split
  · exact .none
  · split
    · split
      · exact .none
      · rename_i e₁
        have hwf₁ : HarbourCanonical _ := (laceTake_only _ _ _ _ _ _ _ _ e₁).canonical rfl hwf
        extract_lets s₂ seq e' s₃ s₄ s₅
        have hwf₂ : HarbourCanonical s₂ := storeMarked_canonical hwf₁
        have hwf₃ : HarbourCanonical s₃ := (pushEntry_only ..).canonical rfl hwf₂
        have hwf₄ : HarbourCanonical s₄ := (modLaunch_only ..).canonical rfl hwf₃
        have hwf₅ : HarbourCanonical s₅ := .ite ((modReq_only ..).canonical rfl hwf₄) hwf₄
        exact .some ((countOut_only ..).canonical rfl hwf₅)
    · exact .none

theorem endJoin_canonical {home id : Nat} {j : Join} {x : Launch} {ending : JoinEnd} (hwf : HarbourCanonical s) :
    HarbourCanonical (endJoin home id j x ending s) := by
  unfold endJoin
  split
  · extract_lets s₁ s₂
    have hwf₁ : HarbourCanonical s₁ := (setHomeJoins_only ..).canonical rfl ((forwardJoin_only ..).canonical rfl hwf)
    have hwf₂ : HarbourCanonical s₂ := (modLaunch_only ..).canonical rfl hwf₁
    split
    · exact (countOut_only ..).canonical rfl hwf₂
    · exact hwf₂
  · extract_lets
    split
    · exact (deliverWake_only ..).canonical rfl hwf
    · split
      · exact hwf
      · rename_i e₃
        have hwf₃ : HarbourCanonical _ := (deliver_canonical hwf) _ e₃
        extract_lets s₄
        have hwf₄ : HarbourCanonical s₄ := (bumpBy_only ..).canonical rfl ((bumpBy_only ..).canonical rfl ((bumpBy_only ..).canonical rfl
          hwf₃))
        exact (setHomeJoins_only ..).canonical rfl hwf₄

theorem settleJoin_canonical {home id : Nat} (hwf : HarbourCanonical s) : HarbourCanonical (settleJoin home id s) := by
  unfold settleJoin
  extract_lets ended s₁
  have hwf₁ : HarbourCanonical s₁ := .ite ((joinRead_only ..).canonical rfl hwf) hwf
  split
  · exact hwf₁
  · split
    · exact hwf₁
    · split
      · exact hwf₁
      · split
        · exact (setHomeJoins_only ..).canonical rfl ((forwardHere_only ..).canonical rfl hwf₁)
        · split
          · exact hwf₁
          · exact .ite hwf₁ (.ite (endJoin_canonical hwf₁) hwf₁)

theorem settleLaunch_canonical {l : Nat} (hwf : HarbourCanonical s) : HarbourCanonical (settleLaunch l s) :=
  .foldl (fun _ _ h => settleJoin_canonical h) hwf

theorem markFinals_canonical {i t : Nat} (hwf : HarbourCanonical s) : HarbourCanonical (markFinals i t s) := by
  unfold markFinals
  split
  · exact hwf
  · split
    · extract_lets vs s₁ allDone s₂
      have hwf₁ : HarbourCanonical s₁ := .foldl (fun _ _ h => .foldl (fun _ _ h1 => .ite ((modJoin_only ..).canonical rfl h1) h1) h) hwf
      have hwf₂ : HarbourCanonical s₂ := .ite ((dropCharge_only ..).canonical rfl ((modIsland_only ..).canonical rfl hwf₁)) hwf₁
      exact (endLaunch_only ..).canonical rfl (settleLaunch_canonical hwf₂)
    · exact hwf

theorem markLaunch_canonical {l : Nat} (hwf : HarbourCanonical s) : HarbourCanonical (markLaunch l s) :=
  .foldl (fun _ _ h => .foldl (fun _ _ h1 => .ite (markFinals_canonical h1) h1) h) hwf

theorem pushFilled_canonical {port : BitVec 12} {n : Nat} {o : OpenSlab} {planes last late : Bool} (hwf : HarbourCanonical s) :
    HarbourCanonical (pushFilled port n o planes last late s) := by
  unfold pushFilled
  extract_lets
  split
  · exact hwf
  · exact (pushEntry_only ..).canonical rfl (storeRun_canonical hwf)

theorem flushOpen_canonical {n : Nat} (hwf : HarbourCanonical s) : HarbourCanonical (flushOpen n s) := by
  unfold flushOpen
  split
  · exact hwf
  · exact .ite hwf ((markLate_only ..).canonical rfl (pushFilled_canonical ((modLace_only ..).canonical rfl hwf)))

theorem recallLace_canonical {n a : Nat} (hwf : HarbourCanonical s) : HarbourCanonical (recallLace n a s) := by
  unfold recallLace
  split
  · exact hwf
  · extract_lets slabs mine isOpen unread s₁ s₂
    have hwf₁ : HarbourCanonical s₁ := (bumpBy_only ..).canonical rfl hwf
    have hwf₂ : HarbourCanonical s₂ := (modLace_only ..).canonical rfl hwf₁
    exact flushOpen_canonical (.foldl (fun _ _ h => clearReleased_canonical h) hwf₂)

theorem stopInLaunch_canonical {a l : Nat} (hwf : HarbourCanonical s) : HarbourCanonical (stopInLaunch a l s) := by
  unfold stopInLaunch
  split
  · exact hwf
  · split
    · exact hwf
    · extract_lets s₁ mine s₂ s₃ s₄
      have hwf₁ : HarbourCanonical s₁ := (dropJoins_only ..).canonical rfl ((dropGroups_only ..).canonical rfl hwf)
      have hwf₃ : HarbourCanonical s₃ := .foldl (fun _ _ h => recallLace_canonical h) hwf₁
      have hwf₄ : HarbourCanonical s₄ := (modLaunch_only ..).canonical rfl hwf₃
      exact .ite ((endLaunch_only ..).canonical rfl hwf₄) ((endLaunch_only ..).canonical rfl (settleLaunch_canonical (markLaunch_canonical
        hwf₃)))

theorem recallRequest_canonical {a : Nat} (hwf : HarbourCanonical s) : HarbourCanonical (recallRequest a s) :=
  .foldl (fun _ _ h => stopInLaunch_canonical h) hwf

theorem noteKv_canonical {ctx : Nat} (hwf : HarbourCanonical s) : HarbourCanonical (noteKv ctx s) :=
  ctxWrite_canonical (ctxWrite_canonical hwf)

theorem revertKv_canonical {a : Nat} (hwf : HarbourCanonical s) : HarbourCanonical (revertKv a s) := by
  unfold revertKv
  extract_lets
  split
  · exact hwf
  · exact .ite hwf ((poolReturn_only ..).canonical rfl (noteKv_canonical hwf))

theorem stopRequest_canonical {a status detail : Nat} {discarded : Bool} (hwf : HarbourCanonical s) :
    HarbourCanonical (stopRequest a status detail discarded s) := by
  unfold stopRequest
  extract_lets s₁ s₂
  have hwf₁ : HarbourCanonical s₁ := (modReq_only ..).canonical rfl hwf
  have hwf₂ : HarbourCanonical s₂ := revertKv_canonical (recallRequest_canonical hwf₁)
  split
  · exact hwf
  · exact .ite hwf (finish_canonical hwf₂)

theorem discardRequest_canonical {a : Nat} (hwf : HarbourCanonical s) : HarbourCanonical (discardRequest a s) := by
  unfold discardRequest
  split
  · exact hwf
  · exact .ite hwf (stopRequest_canonical ((bump_only ..).canonical rfl ((countMiss_only ..).canonical rfl hwf)))

theorem discardLate_canonical (hwf : HarbourCanonical s) : HarbourCanonical (discardLate s) :=
  .foldl (fun _ _ h => .ite (discardRequest_canonical h) h) hwf

theorem lateSlabs_canonical {as_ : List Nat} (hwf : HarbourCanonical s) : HarbourCanonical (lateSlabs as_ s) :=
  .ite hwf (discardLate_canonical ((markLate_only ..).canonical rfl hwf))

theorem lateSlab_canonical {a : Nat} (hwf : HarbourCanonical s) : HarbourCanonical (lateSlab a s) := lateSlabs_canonical hwf

theorem execHandleRelease_canonical {handle : BitVec 16} {consumer : Nat} (hwf : HarbourCanonical s) :
    CanonicalR (execHandleRelease handle consumer s) := by
  unfold execHandleRelease
  split
  · exact .next hwf
  · split
    · exact .next hwf
    · exact .ite (.next hwf) (.next (releaseHandle_canonical hwf))

theorem execSlabCleared_canonical {handle : BitVec 16} (hwf : HarbourCanonical s) : CanonicalR (execSlabCleared handle s) := by
  unfold execSlabCleared
  extract_lets h' _ s₁ s₂
  have hwf₁ : HarbourCanonical s₁ := wf_hClear _ _ _ hwf
  have hwf₂ : HarbourCanonical s₂ := serveWaiting_canonical (noteCleared_canonical hwf₁)
  split
  · exact .next hwf
  · split
    · exact .next ((poolReturn_only ..).canonical rfl hwf₂)
    · extract_lets s₃
      have hwf₃ : HarbourCanonical s₃ := (modLace_only ..).canonical rfl hwf₂
      split
      · exact .next ((poolReturn_only ..).canonical rfl hwf₃)
      · split
        · rename_i e₄
          have hwf₄ : HarbourCanonical _ := .of_fst e₄ ((mcastReturn_only ..).canonical rfl hwf₃)
          extract_lets s₅
          have hwf₅ : HarbourCanonical s₅ := .ite ((modLace_only ..).canonical rfl hwf₄) ((modLaunch_only ..).canonical rfl hwf₄)
          exact .next ((endLaunch_only ..).canonical rfl (settleLaunch_canonical hwf₅))

theorem poisonVectors_canonical {n a : Nat} (hwf : HarbourCanonical s) : HarbourCanonical (poisonVectors n a s) := by
  unfold poisonVectors
  split
  · exact hwf
  · extract_lets
    split
    · exact hwf
    · extract_lets vs s₁ s₂ s₃
      have hwf₁ : HarbourCanonical s₁ := (modLace_only ..).canonical rfl hwf
      have hwf₂ : HarbourCanonical s₂ := .foldl (fun _ _ h => (feedVector_only ..).canonical rfl h) hwf₁
      have hwf₃ : HarbourCanonical s₃ := by
        unfold s₃
        refine .foldl (fun _ _ h₄ => ?_) hwf₂
        split
        · exact .foldl (fun _ _ h => .ite ((addTile_only ..).canonical rfl h) ((vectorTiles_only ..).canonical rfl h)) h₄
        · exact h₄
      exact flushOpen_canonical (markLaunch_canonical hwf₃)

theorem pushSlab_canonical {f k : Nat} {st : Stream} {o : OpenSlab} {planes room last : Bool} (hwf : HarbourCanonical s) :
    HarbourCanonical (pushSlab f k st o planes room last s) := by
  unfold pushSlab
  extract_lets d a o late s₁
  have hwf₁ : HarbourCanonical s₁ := (pushAway_only ..).canonical rfl hwf
  split
  · exact lateSlabs_canonical (.ite ((dropStream_only ..).canonical rfl hwf₁) hwf₁)
  · extract_lets more s₂ s₃ s₄
    have hwf₂ : HarbourCanonical s₂ := .ite ((dropStream_only ..).canonical rfl ((modLace_only ..).canonical rfl hwf)) hwf
    have hwf₃ : HarbourCanonical s₃ := (modLace_only ..).canonical rfl hwf₂
    have hwf₄ : HarbourCanonical s₄ := .ite ((pushAway_only ..).canonical rfl hwf₃) hwf₃
    exact .ite ((modLace_only ..).canonical rfl hwf₂) (lateSlabs_canonical (pushFilled_canonical hwf₄))

theorem stageLong_canonical {f k : Nat} {d : Desc} {b : Bytes} {bad : Bool} (hwf : HarbourCanonical s) :
    HarbourCanonical (stageLong f k d b bad s).2 := by
  unfold stageLong
  extract_lets
  split
  · exact hwf
  · exact fetchRun_canonical (touchRun_canonical (storeRun_canonical hwf))

theorem sourceBytes_canonical {f : Nat} {st : Stream} {runs : List (Nat × Nat)} {len : Nat} {source : HostRead}
    (hwf : HarbourCanonical s) :
    HarbourCanonical (sourceBytes f st runs len source s).2 := by
  unfold sourceBytes
  extract_lets
  split
  · exact hwf
  · split
    · split
      · rename_i e₁
        have hwf₁ : HarbourCanonical _ := .of_snd e₁ (fetchRuns_canonical hwf)
        exact hwf₁
    · exact .ite2 hwf hwf

theorem pushPlanes_canonical {f k : Nat} {st : Stream} {h : BitVec 16} {rest : List (BitVec 16)} {source : HostRead}
    (hwf : HarbourCanonical s) :
    HarbourCanonical (pushPlanes f k st h rest source s) := by
  unfold pushPlanes
  extract_lets d n o begun used
  split
  rename_i e
  have hread : HarbourCanonical _ := .of_snd e (sourceBytes_canonical hwf)
  split
  · exact stopRequest_canonical hread
  · split
    rename_i e
    have hstaged : HarbourCanonical _ := .of_snd e (stageLong_canonical hread)
    extract_lets p poison counted last next moved held
    have hmoved : HarbourCanonical moved :=
      (modStream_only ..).canonical rfl ((bumpBy_only ..).canonical rfl ((bumpBy_only ..).canonical rfl hstaged))
    have hheld : HarbourCanonical held := by
      unfold held
      clear_value n
      cases n with
      | some n => exact .ite ((placeHeld_only ..).canonical rfl hmoved) hmoved
      | none => exact hmoved
    exact pushSlab_canonical hheld

theorem pushBytes_canonical {f k : Nat} {st : Stream} {h : BitVec 16} {rest : List (BitVec 16)} {source : HostRead}
    (hwf : HarbourCanonical s) :
    HarbourCanonical (pushBytes f k st h rest source s) := by
  unfold pushBytes
  extract_lets d n o len
  split
  rename_i e
  have hread : HarbourCanonical _ := .of_snd e (sourceBytes_canonical hwf)
  split
  · exact stopRequest_canonical hread
  · extract_lets bad vb moved held
    have hmoved : HarbourCanonical moved := (modStream_only ..).canonical rfl hread
    have hheld : HarbourCanonical held := by
      unfold held
      clear_value n
      cases n with
      | some n => exact .ite ((placeHeld_only ..).canonical rfl hmoved) hmoved
      | none => exact hmoved
    exact pushSlab_canonical hheld

theorem issueWrite_canonical {f : Nat} {d : Desc} {w : OutWrite} (hwf : HarbourCanonical s) :
    HarbourCanonical (issueWrite f d w s) := by
  unfold issueWrite
  refine .foldl (fun _ _ h₁ => ?_) hwf
  extract_lets
  split
  · exact storeRun_canonical h₁
  · exact (sendPort_only ..).canonical rfl h₁
  · exact (sendPort_only ..).canonical rfl h₁
  · exact (sendRemote_only ..).canonical rfl h₁

theorem writeOut_canonical {f k : Nat} {st : Stream} (hwf : HarbourCanonical s) : HarbourCanonical (writeOut f k st s) := by
  unfold writeOut
  extract_lets
  split
  · extract_lets s₁ n s₂ late pos left s₃ s₄
    have hwf₁ : HarbourCanonical s₁ := .foldl (fun _ _ h => issueWrite_canonical h) hwf
    have hwf₂ : HarbourCanonical s₂ := (countResult_only ..).canonical rfl hwf₁
    have hwf₃ : HarbourCanonical s₃ := (modStream_only ..).canonical rfl hwf₂
    have hwf₄ : HarbourCanonical s₄ := .ite ((dropStream_only ..).canonical rfl hwf₃) hwf₃
    exact .ite hwf (.ite (lateSlab_canonical ((bumpBy_only ..).canonical rfl hwf₄)) hwf₄)

theorem writeThrough_canonical {f k : Nat} {st : Stream} {source : HostRead} (hwf : HarbourCanonical s) :
    HarbourCanonical (writeThrough f k st source s) := by
  unfold writeThrough
  extract_lets
  split
  · split
    · rename_i e₂
      have hwf₂ : HarbourCanonical _ := .of_snd e₂ (sourceBytes_canonical hwf)
      exact stopRequest_canonical hwf₂
    · rename_i e₃
      have hwf₃ : HarbourCanonical _ := .of_snd e₃ (sourceBytes_canonical hwf)
      extract_lets out s₄ s₅ late s₆ s₇
      have hwf₄ : HarbourCanonical s₄ := issueWrite_canonical hwf₃
      have hwf₅ : HarbourCanonical s₅ := (countResult_only ..).canonical rfl hwf₄
      have hwf₆ : HarbourCanonical s₆ := (modStream_only ..).canonical rfl hwf₅
      have hwf₇ : HarbourCanonical s₇ := .ite ((dropStream_only ..).canonical rfl hwf₆) hwf₆
      exact .ite (lateSlab_canonical hwf₇) hwf₇

theorem execSlabPush_canonical {f : Fin 256} {stream : Fin 16} {source : HostRead} (hwf : HarbourCanonical s) :
    CanonicalR (execSlabPush f stream source s) := by
  unfold execSlabPush
  split
  · exact .next hwf
  · split
    · exact .next hwf
    · split
      · exact .next ((runsWake_only ..).canonical rfl hwf)
      · split
        · split
          · exact .next hwf
          · exact .next ((endFor_only ..).canonical rfl (.ite (pushPlanes_canonical hwf) (pushBytes_canonical hwf)))
        · exact .ite (.next ((endFor_only ..).canonical rfl (writeOut_canonical hwf))) (.next ((endFor_only ..).canonical rfl
            (writeThrough_canonical hwf)))

theorem poisonStream_canonical {f : Nat} {d : Desc} (hwf : HarbourCanonical s) : HarbourCanonical (poisonStream f d s) := by
  unfold poisonStream
  extract_lets a len s₁ s₂
  have hwf₁ : HarbourCanonical s₁ := .ite ((mcastSend_only ..).canonical rfl hwf) hwf
  have hwf₂ : HarbourCanonical s₂ := issueWrite_canonical hwf₁
  split
  · split
    · exact poisonVectors_canonical hwf₁
    · exact hwf₁
  · exact (flushResults_only ..).canonical rfl ((modReq_only ..).canonical rfl hwf₂)

theorem startStream_canonical {f order : Nat} {d : Desc} (hwf : HarbourCanonical s) : HarbourCanonical (startStream f order d s) := by
  unfold startStream
  extract_lets s₁
  have hwf₁ : HarbourCanonical s₁ := (raise_only ..).canonical rfl ((bump_only ..).canonical rfl hwf)
  split
  · split
    · exact (beginStream_only ..).canonical rfl hwf₁
    · exact poisonStream_canonical hwf₁
  · exact (beginStream_only ..).canonical rfl hwf

theorem startWaiting_canonical {n : Nat} {s : State} (hwf : HarbourCanonical s) : HarbourCanonical (startWaiting n s) := by
  induction n generalizing s with
  | zero => exact hwf
  | succ n ih =>
    unfold startWaiting
    split
    · exact ih (startStream_canonical hwf)
    · exact hwf

theorem issueDesc_canonical {d : Desc} (hwf : HarbourCanonical s) : HarbourCanonical (issueDesc d s) := startWaiting_canonical hwf

theorem execFerryDescriptorIssue_canonical {desc : Bytes} (hwf : HarbourCanonical s) :
    CanonicalR (execFerryDescriptorIssue desc s) :=
  .ite (.next hwf) (.next (issueDesc_canonical hwf))

theorem execFerrySlotStart_canonical {f : Fin 256} (hwf : HarbourCanonical s) : CanonicalR (execFerrySlotStart f s) := by
  unfold execFerrySlotStart
  extract_lets
  split
  · exact .next hwf
  · split
    · exact .next hwf
    · exact .next (startStream_canonical hwf)

theorem execCancelledSlabRecall_canonical {f : Fin 256} {stream : Fin 16} (hwf : HarbourCanonical s) :
    CanonicalR (execCancelledSlabRecall f stream s) := by
  unfold execCancelledSlabRecall
  extract_lets s₁
  have hwf₁ : HarbourCanonical s₁ := (bump_only ..).canonical rfl hwf
  split
  · exact .next hwf
  · split
    · exact .next hwf
    · split
      · exact .next ((endFor_only ..).canonical rfl ((dropStream_only ..).canonical rfl hwf))
      · extract_lets s₂
        have hwf₂ : HarbourCanonical s₂ := .ite ((dropStream_only ..).canonical rfl hwf₁) ((modStream_only ..).canonical rfl hwf₁)
        split
        · exact .next ((endFor_only ..).canonical rfl hwf₂)
        · extract_lets open_ others s₃
          have hwf₃ : HarbourCanonical s₃ := (modLace_only ..).canonical rfl hwf₂
          exact .ite (.next ((endFor_only ..).canonical rfl (discardLate_canonical (flushOpen_canonical hwf₂)))) (.next ((endFor_only
            ..).canonical rfl (clearReleased_canonical hwf₃)))

theorem execRequestDeadlinePass_canonical {a : Fin 4096} (hwf : HarbourCanonical s) : CanonicalR (execRequestDeadlinePass a s) := by
  unfold execRequestDeadlinePass
  split
  · exact .next hwf
  · split
    · exact .next hwf
    · exact .ite (.next (discardRequest_canonical hwf)) (.next hwf)

theorem receiveThread_canonical {n k i t : Nat} {c : LaceConsumer} {e : LaceEntry} (hwf : HarbourCanonical s) :
    HarbourCanonical (receiveThread n k i t c e s) := by
  unfold receiveThread
  extract_lets
  split
  · rename_i e₁
    have hwf₁ : HarbourCanonical _ := .of_snd e₁ (fetchRun_canonical hwf)
    extract_lets
    split
    · extract_lets
      split
      · extract_lets c' s₂
        have hwf₂ : HarbourCanonical s₂ := (setConsumer_only ..).canonical rfl hwf₁
        split
        · exact hwf₂
        · split
          · exact hwf₂
          · extract_lets refs add s₃ s₄ s₅
            have hwf₃ : HarbourCanonical s₃ := (modIsland_only ..).canonical rfl hwf₂
            have hwf₄ : HarbourCanonical s₄ := .foldl (fun _ _ h => preemptRun_canonical h) hwf₃
            have hwf₅ : HarbourCanonical s₅ := .foldl (fun _ _ h => (feedVector_only ..).canonical rfl h) hwf₄
            exact markFinals_canonical hwf₅

theorem receiveWelt_canonical {n k i : Nat} {c : LaceConsumer} {e : LaceEntry} (hwf : HarbourCanonical s) :
    HarbourCanonical (receiveWelt n k i c e s) := by
  unfold receiveWelt
  split
  · exact hwf
  · split
    · rename_i e₁
      have hwf₁ : HarbourCanonical _ := .of_snd e₁ (fetchRun_canonical hwf)
      extract_lets
      split
      · split
        · extract_lets s₂ s₃
          have hwf₂ : HarbourCanonical s₂ := (setConsumer_only ..).canonical rfl hwf₁
          have hwf₃ : HarbourCanonical s₃ := .foldl (fun _ _ h => (feedVector_only ..).canonical rfl h) hwf₂
          exact (endLaunch_only ..).canonical rfl (settleLaunch_canonical hwf₃)

theorem receiveCluster_canonical {n k c : Nat} {x : LaceConsumer} {e : LaceEntry} (hwf : HarbourCanonical s) :
    HarbourCanonical (receiveCluster n k c x e s) := by
  unfold receiveCluster
  extract_lets a x
  split
  · exact hwf
  · extract_lets
    split
    · rename_i e₁
      have hwf₁ : HarbourCanonical _ := .of_snd e₁ (fetchRun_canonical hwf)
      extract_lets bad place step nb vb x x' s₂
      have hwf₂ : HarbourCanonical s₂ := (setConsumer_only ..).canonical rfl hwf₁
      split
      · split
        · exact (setConsumer_only ..).canonical rfl hwf₁
        · extract_lets
          split
          · split
            · exact (stepGather_only ..).canonical rfl ((setConsumer_only ..).canonical rfl hwf₁)
      · split
        · split
          · split
            · split
              · rename_i e₃
                have hwf₃ : HarbourCanonical _ := .of_snd e₃ ((clusterBlocks_only ..).canonical rfl hwf₁)
                exact (setConsumer_only ..).canonical rfl hwf₃
        · exact (stepGather_only ..).canonical rfl hwf₂

theorem receiveFerry_canonical {n k f t : Nat} {x : LaceConsumer} {e : LaceEntry} (hwf : HarbourCanonical s) :
    HarbourCanonical (receiveFerry n k f t x e s) := by
  unfold receiveFerry
  extract_lets s₁
  have hwf₁ : HarbourCanonical s₁ := (setConsumer_only ..).canonical rfl hwf
  split
  · exact (setConsumer_only ..).canonical rfl hwf
  · extract_lets
    split
    · exact (setConsumer_only ..).canonical rfl hwf
    · split
      · exact hwf
      · split
        · rename_i e₂
          have hwf₂ : HarbourCanonical _ := .of_snd e₂ (fetchRuns_canonical hwf₁)
          exact (modStream_only ..).canonical rfl (.ite ((modReq_only ..).canonical rfl hwf₂) hwf₂)

theorem execLaceEntryReceive_canonical {lace : Fin 4096} {consumer : Nat} (hwf : HarbourCanonical s) :
    CanonicalR (execLaceEntryReceive lace consumer s) := by
  unfold execLaceEntryReceive
  extract_lets
  split
  · exact .next hwf
  · split
    · exact .next hwf
    · split
      · exact .next hwf
      · extract_lets
        split
        · exact .next ((runWake_only ..).canonical rfl hwf)
        · split
          · exact .ite (.next (receiveThread_canonical hwf)) (.next hwf)
          · exact .next (receiveWelt_canonical hwf)
          · exact .next (receiveCluster_canonical hwf)
          · exact .next (receiveFerry_canonical hwf)
          · exact .ite (.next hwf) (.next ((setConsumer_only ..).canonical rfl hwf))

theorem execRowGroupStart_canonical {island : Nat} {array : Fin 256} (hwf : HarbourCanonical s) :
    CanonicalR (execRowGroupStart island array s) := by
  unfold execRowGroupStart
  extract_lets
  split
  · exact .fault
  · split
    · exact .next hwf
    · split
      · exact .next hwf
      · extract_lets s₁
        have hwf₁ : HarbourCanonical s₁ := preemptRun_canonical hwf
        split
        · exact .next hwf₁
        · split
          · exact .next hwf₁
          · exact .next ((modIsland_only ..).canonical rfl ((setWork_only ..).canonical rfl hwf₁))

theorem execWeltAccept_canonical {island : Nat} {array : Fin 256} {upsets : List (Nat × Nat × Nat)} (hwf : HarbourCanonical s) :
    CanonicalR (execWeltAccept island array upsets s) := by
  unfold execWeltAccept
  split
  · exact .fault
  · split
    · exact .next hwf
    · extract_lets
      split
      · exact .next hwf
      · split
        · exact .next ((dropPulse_only ..).canonical rfl hwf)
        · extract_lets id s₁ s₂ fail s₃ s₄
          have hwf₁ : HarbourCanonical s₁ := (modJoin_only ..).canonical rfl hwf
          have hwf₂ : HarbourCanonical s₂ := (touchLanes_only ..).canonical rfl hwf₁
          have hwf₃ : HarbourCanonical s₃ := .ite ((arrayFailure_only ..).canonical rfl ((dropPulse_only ..).canonical rfl hwf₁))
            ((dropPulse_only ..).canonical rfl hwf₁)
          have hwf₄ : HarbourCanonical s₄ := (setWork_only ..).canonical rfl hwf₃
          split
          · exact .next ((dropPulse_only ..).canonical rfl hwf)
          · extract_lets s₅
            have hwf₅ : HarbourCanonical s₅ := (modJoin_only ..).canonical rfl ((dropPulse_only ..).canonical rfl hwf₂)
            split
            · exact .next (markFinals_canonical ((setWork_only ..).canonical rfl hwf₅))
            · split
              · exact .next ((countRerun_only ..).canonical rfl ((bump_only ..).canonical rfl hwf₄))
              · split
                · exact .next hwf₁
                · exact .next (markFinals_canonical ((setWork_only ..).canonical rfl ((requestRecompute_only ..).canonical rfl hwf₃)))

theorem endRecompute_canonical {c n : Nat} {r : Recompute} (hwf : HarbourCanonical s) : HarbourCanonical (endRecompute c n r s) := by
  unfold endRecompute
  extract_lets t s₁ _ s₂ s₃
  have hwf₁ : HarbourCanonical s₁ := (modCluster_only ..).canonical rfl hwf
  have hwf₃ : HarbourCanonical s₃ := (sample_only ..).canonical rfl (clearReleased_canonical hwf₁)
  exact .ite ((bump_only ..).canonical rfl hwf₃) hwf₃

theorem recomputeAccepted_canonical {c island id : Nat} (hwf : HarbourCanonical s) :
    HarbourCanonical (recomputeAccepted c island id s) := by
  unfold recomputeAccepted
  split
  · exact endRecompute_canonical hwf
  · exact hwf

theorem execLongSumReceive_canonical {island : Nat} {packet : List Flit} (hwf : HarbourCanonical s) :
    CanonicalR (execLongSumReceive island packet s) := by
  unfold execLongSumReceive
  extract_lets ds
  split
  · exact .fault
  · clear_value ds
    split
    · exact .next hwf
    · extract_lets header s₁ id s₂
      have hwf₁ : HarbourCanonical s₁ := .ite hwf ((ackPacket_only ..).canonical rfl hwf)
      have hwf₂ : HarbourCanonical s₂ := (raise_only ..).canonical rfl ((bump_only ..).canonical rfl hwf₁)
      split
      · exact .next hwf₂
      · extract_lets s₃
        have hwf₃ : HarbourCanonical s₃ := (touchLanes_only ..).canonical rfl hwf₁
        split
        · exact .next hwf₂
        · extract_lets named known s₄ s₅
          have hwf₄ : HarbourCanonical s₄ := (modJoin_only ..).canonical rfl hwf₃
          have hwf₅ : HarbourCanonical s₅ := .ite (recomputeAccepted_canonical hwf₄) hwf₄
          exact .ite (.next hwf₂) (.next ((endLaunch_only ..).canonical rfl (settleLaunch_canonical hwf₅)))

theorem shankAdd_canonical {c l plan vec replaces first : Nat} {lanes : List (BitVec 320)} {poison : Bool} (hwf : HarbourCanonical s)
    :
    HarbourCanonical (shankAdd c l plan vec replaces first lanes poison s) := by
  unfold shankAdd
  extract_lets
  split
  · exact hwf
  · extract_lets sum s₁
    have hwf₁ : HarbourCanonical s₁ := (modJoin_only ..).canonical rfl hwf
    exact .ite ((endLaunch_only ..).canonical rfl (settleLaunch_canonical hwf₁)) ((sendHeld_only ..).canonical rfl hwf)

theorem startRecompute_canonical {c n : Nat} (hwf : HarbourCanonical s) : HarbourCanonical (startRecompute c n s) := by
  unfold startRecompute
  split
  · exact hwf
  · extract_lets
    split
    · exact .ite hwf (.ite ((runWake_only ..).canonical rfl hwf) (preemptRun_canonical (touchRun_canonical ((modCluster_only ..).canonical
        rfl hwf))))

theorem sendRecompute_canonical {c n : Nat} (hwf : HarbourCanonical s) : HarbourCanonical (sendRecompute c n s) := by
  unfold sendRecompute
  split
  · exact hwf
  · exact .ite hwf (.ite ((sendHeld_only ..).canonical rfl hwf) (endRecompute_canonical hwf))

theorem coverTile_canonical {c l slice vec : Nat} {xs : List Int} {poison : Bool} (hwf : HarbourCanonical s) :
    HarbourCanonical (coverTile c l slice vec xs poison s) := by
  unfold coverTile
  split
  · exact hwf
  · split
    · split
      · extract_lets s₁
        have hwf₁ : HarbourCanonical s₁ := .ite hwf (.ite ((nvPoisoned_only ..).canonical rfl ((flagSlice_only ..).canonical rfl hwf))
          ((nvPoisoned_only ..).canonical rfl ((flagSlice_only ..).canonical rfl ((bumpBy_only ..).canonical rfl hwf))))
        exact shankAdd_canonical hwf₁
    · exact hwf

theorem cacheKeep_canonical {c a : Nat} {b : Bytes} (hwf : HarbourCanonical s) : HarbourCanonical (cacheKeep c a b s) := by
  unfold cacheKeep
  extract_lets n s₁ hs s₂
  have hwf₁ : HarbourCanonical s₁ := (cacheRoom_only ..).canonical rfl hwf
  have hwf₂ : HarbourCanonical s₂ := .foldl (fun _ _ h => storeRun_canonical h) hwf₁
  exact .ite hwf (.ite hwf₁ hwf₂)

theorem adapterFetch_canonical {c k : Nat} {a : Adapter} (hwf : HarbourCanonical s) : HarbourCanonical (adapterFetch c k a s).2 := by
  unfold adapterFetch
  extract_lets
  split
  · extract_lets bad b s₁
    have hwf₁ : HarbourCanonical s₁ := .foldl (fun _ _ h => touchRun_canonical h) hwf
    exact .ite2 ((cacheDrop_only ..).canonical rfl hwf₁) hwf₁
  · split
    · exact .ite (cacheKeep_canonical hwf) hwf

theorem adapterTile_canonical {c l ctx vec : Nat} {xs : List Int} {poison : Bool} (hwf : HarbourCanonical s) :
    HarbourCanonical (adapterTile c l ctx vec xs poison s) := by
  unfold adapterTile
  split
  · split
    · exact hwf
    · split
      · rename_i e₁
        have hwf₁ : HarbourCanonical _ := .of_snd e₁ (adapterFetch_canonical hwf)
        extract_lets _ s₂ s₃
        have hwf₂ : HarbourCanonical s₂ := by
          unfold s₂
          split
          · exact hwf₁
          · split
            · exact (raise_only ..).canonical rfl hwf₁
            · exact hwf₁
        have hwf₃ : HarbourCanonical s₃ := .ite hwf₂ ((adapterLost_only ..).canonical rfl hwf₂)
        refine .foldl (fun _ _ h₄ => ?_) hwf₃
        split
        · exact h₄
        · exact shankAdd_canonical h₄
  · exact hwf

theorem kvStore_canonical {c : Nat} {y : LayerPlan} {ctx token : Nat} {b : Bytes} {poison : Bool} (hwf : HarbourCanonical s) :
    HarbourCanonical (kvStore c y ctx token b poison s) := by
  unfold kvStore
  split
  · exact hwf
  · exact storeRun_canonical hwf

theorem kvPut_canonical {c l : Nat} {x : Launch} {y : LayerPlan} {v : Nat} {input : Bytes} {poison : Bool} (hwf : HarbourCanonical s)
    :
    HarbourCanonical (kvPut c l x y v input poison s) := by
  unfold kvPut
  split
  · exact .ite hwf ((modLaunch_only ..).canonical rfl (kvStore_canonical hwf))
  · exact hwf

theorem stepEnd_canonical {c l vec : Nat} {x : Launch} {y : LayerPlan} {rs : List StepNum} {bad : List Bool} {special poison : Bool}
    (hwf : HarbourCanonical s) :
    CanonicalO (stepEnd c l vec x y rs bad special poison s) := by
  unfold stepEnd
  extract_lets pol o o' nans s₁ s₂
  have hwf₁ : HarbourCanonical s₁ := (bumpBy_only ..).canonical rfl hwf
  have hwf₂ : HarbourCanonical s₂ := (bumpBy_only ..).canonical rfl ((bumpBy_only ..).canonical rfl hwf₁)
  exact deliver_canonical hwf₂

theorem stepOut_canonical {c l vec : Nat} {x : Launch} {y : LayerPlan} {t : Tile} {rs : List StepNum} {bad : List Bool}
    {special poison : Bool} {lose : State → State} (hlose : ∀ x, HarbourCanonical x → HarbourCanonical (lose x))
    (hwf : HarbourCanonical s) : HarbourCanonical (stepOut c l vec x y t rs bad special poison lose s).2 := by
  unfold stepOut
  extract_lets ready
  refine .ite2 ((deliverWake_only ..).canonical rfl hwf) ?_
  split
  · rename_i e
    exact stepEnd_canonical (hlose s hwf) _ e
  · exact hlose s hwf

theorem kvRead_canonical {c : Nat} {x : Launch} {y : LayerPlan} {v : Nat} (hwf : HarbourCanonical s) :
    HarbourCanonical (kvRead c x y v s).2 := by
  unfold kvRead
  split
  · rename_i e₁
    have hwf₁ : HarbourCanonical _ := .of_snd e₁ (fetchRuns_canonical hwf)
    exact hwf₁

theorem stepTile_canonical {c : Nat} {t : Tile} {l vec : Nat} {input : Bytes} {special poison : Bool} {done : List StepNum}
    (hwf : HarbourCanonical s) :
    HarbourCanonical (stepTile c t l vec input special poison done s).2 := by
  unfold stepTile
  extract_lets
  split
  · exact hwf
  · extract_lets runs s₁
    have hwf₁ : HarbourCanonical s₁ := kvPut_canonical hwf
    split
    · exact stepOut_canonical (fun _ h => (lookupLost_only ..).canonical rfl h) hwf
    · split
      · exact (runsWake_only ..).canonical rfl hwf
      · split
        · exact hwf₁
        · split
          · exact hwf₁
          · split
            · rename_i e₂
              have hwf₂ : HarbourCanonical _ := .of_snd e₂ (.ite2 hwf₁ (kvRead_canonical hwf₁))
              split
              · rename_i e₃
                have hwf₃ : HarbourCanonical _ := .of_snd e₃ ((stepMore_only ..).canonical rfl hwf₂)
                exact .ite2 hwf₃ (stepOut_canonical (fun _ h => h) hwf₃)

theorem tileAsks_canonical {t : Tile} (hwf : HarbourCanonical s) : HarbourCanonical (tileAsks t s) :=
  (runsWake_only ..).canonical rfl (.foldl (fun _ _ h => preemptRun_canonical h) hwf)

theorem tileUses_canonical {c : Nat} {t : Tile} (hwf : HarbourCanonical s) : HarbourCanonical (tileUses c t s) := by
  unfold tileUses
  extract_lets s₁
  have hwf₁ : HarbourCanonical s₁ := by
    unfold s₁
    split
    · exact hwf
    · exact .foldl (fun _ _ h => touchRun_canonical h) hwf
  exact .foldl (fun _ _ h => (noteUse_only ..).canonical rfl (preemptRun_canonical h)) hwf₁

theorem endTile_canonical {c : Nat} {t : Tile} (hwf : HarbourCanonical s) : HarbourCanonical (endTile c t s).2 := by
  unfold endTile
  extract_lets s₁
  have hwf₁ : HarbourCanonical s₁ := tileUses_canonical hwf
  split
  · exact tileAsks_canonical hwf
  · split
    · exact sendRecompute_canonical hwf₁
    · exact coverTile_canonical hwf₁
    · exact stepTile_canonical hwf₁
    · exact .ite2 hwf₁ (adapterTile_canonical hwf₁)

theorem startQueued_canonical {c : Nat} (hwf : HarbourCanonical s) : HarbourCanonical (startQueued c s) := by
  unfold startQueued
  refine .foldl (fun _ _ h₁ => ?_) hwf
  split
  · exact startRecompute_canonical h₁
  · exact h₁

theorem takeTile_canonical {c : Nat} (hwf : HarbourCanonical s) : HarbourCanonical (takeTile c s) := by
  unfold takeTile
  extract_lets s₁
  have hwf₁ : HarbourCanonical s₁ := startQueued_canonical hwf
  split
  · exact (modCluster_only ..).canonical rfl hwf₁
  · exact (loadBuffer_only ..).canonical rfl ((modCluster_only ..).canonical rfl hwf₁)

theorem execShankTileBoundary_canonical {cluster : Fin 16} {upsets : List (Nat × Nat)} (hwf : HarbourCanonical s) :
    CanonicalR (execShankTileBoundary cluster upsets s) := by
  unfold execShankTileBoundary
  extract_lets c s₁
  have hwf₁ : HarbourCanonical s₁ := (modCluster_only ..).canonical rfl hwf
  split
  · exact .next hwf
  · split
    · exact .next (takeTile_canonical hwf)
    · split
      · rename_i e₂
        have hwf₂ : HarbourCanonical _ := .of_snd e₂ ((readBuffer_only ..).canonical rfl hwf₁)
        split
        · exact .next ((clusterFailure_only ..).canonical rfl hwf₂)
        · split
          · rename_i e₃
            have hwf₃ : HarbourCanonical _ := .of_snd e₃ (endTile_canonical ((modCluster_only ..).canonical rfl hwf₂))
            extract_lets s₄
            have hwf₄ : HarbourCanonical s₄ := (dropShank_only ..).canonical rfl (takeTile_canonical ((keepTile_only ..).canonical rfl
              hwf₃))
            split
            · exact .next ((endLaunch_only ..).canonical rfl (settleLaunch_canonical hwf₄))
            · exact .next hwf₄

theorem execStreamReadRow_canonical {cluster : Fin 16} {n : Nat} {reads : List Bytes} (hwf : HarbourCanonical s) :
    CanonicalR (execStreamReadRow cluster n reads s) := by
  unfold execStreamReadRow
  extract_lets
  split
  · exact .next hwf
  · extract_lets launch
    split
    · exact .next hwf
    · extract_lets
      split
      · exact .next hwf
      · split
        · exact .next (preemptRun_canonical hwf)
        · split
          · extract_lets lanes r' s₁ s₂ s₃
            have hwf₃ : HarbourCanonical s₃ := by
              unfold s₃
              clear_value launch
              split
              · exact (nvPoisoned_only ..).canonical rfl ((flagSlice_only ..).canonical rfl ((bump_only ..).canonical rfl ((noteUse_only
                  ..).canonical rfl ((modCluster_only ..).canonical rfl hwf))))
              · exact (nvPoisoned_only ..).canonical rfl ((bump_only ..).canonical rfl ((noteUse_only ..).canonical rfl ((modCluster_only
                  ..).canonical rfl hwf)))
              · exact .ite ((nvRetried_only ..).canonical rfl ((noteUse_only ..).canonical rfl ((modCluster_only ..).canonical rfl hwf)))
                  ((noteUse_only ..).canonical rfl ((modCluster_only ..).canonical rfl hwf))
            exact .next (.ite ((addTile_only ..).canonical rfl hwf₃) hwf₃)

theorem copyBank_canonical {n : Nat} {slabs : List (BitVec 16)} (hwf : HarbourCanonical s) : HarbourCanonical (copyBank n slabs
    s) := by
  unfold copyBank
  extract_lets rows missing cov copied counted
  have hcopied : HarbourCanonical copied := by
    unfold copied
    with_reducible apply HarbourCanonical.foldl _ hwf
    intro x e hx
    split
    · exact storeRun_canonical hx
    · exact hx
  have hcounted : HarbourCanonical counted := (nvPoisoned_only ..).canonical rfl ((bumpBy_only ..).canonical rfl hcopied)
  clear_value counted missing
  exact (noteUse_only ..).canonical rfl hcounted

theorem coverBank_canonical {n : Nat} (hwf : HarbourCanonical s) : HarbourCanonical (coverBank n s) :=
  .ite hwf (.ite (copyBank_canonical (preemptRun_canonical hwf)) (preemptRun_canonical hwf))

theorem execCoverStart_canonical {c : CoverRef} (hwf : HarbourCanonical s) : CanonicalR (execCoverStart c s) := by
  unfold execCoverStart
  split
  · exact .ite (.next (coverBank_canonical hwf)) .fault
  · exact .ite .fault (.next (.foldl (fun _ _ h => coverBank_canonical h) hwf))

end Sys2Proof.Laws
end

section
/-! SUPPORT. The Harbour's list of bytes stays canonical (R157, R162): the launches and the requests, the commands on contexts. -/

namespace Sys2Proof.Laws

open Sys2Proof.Machine

variable {s : State}

theorem takeKv_canonical {a : Nat} {r : Req} {p : LastPlan} (hwf : HarbourCanonical s) : CanonicalO (takeKv a r p s) := by
  unfold takeKv
  extract_lets
  split
  · exact .none
  · split
    · rename_i e₁
      have hwf₁ : HarbourCanonical _ := .of_snd e₁ ((poolTake_only ..).canonical rfl hwf)
      exact .some ((modReq_only ..).canonical rfl (noteKv_canonical hwf₁))

theorem startKv_canonical {a : Nat} {r : Req} {p : LastPlan} (hwf : HarbourCanonical s) : CanonicalO (startKv a r p s) :=
  .ite (takeKv_canonical hwf) (.some hwf)

theorem askOne_canonical {a : Nat} (hwf : HarbourCanonical s) : HarbourCanonical (askOne a s) := by
  unfold askOne
  split
  · exact hwf
  · split
    · exact hwf
    · split
      · split
        · exact .ite hwf ((bump_only ..).canonical rfl ((modReq_only ..).canonical rfl hwf))
        · split
          · exact stopRequest_canonical hwf
          · rename_i e₁
            have hwf₁ : HarbourCanonical _ := (startKv_canonical hwf) _ e₁
            exact (askStep_only ..).canonical rfl hwf₁
      · exact hwf

theorem askAgreed_canonical {g : List (BitVec 64) × BitVec 16 × BitVec 64} (hwf : HarbourCanonical s) :
    HarbourCanonical (askAgreed g s) := by
  unfold askAgreed
  extract_lets as one asked live
  have hone : HarbourCanonical asked := by
    refine .foldl (fun x a h => ?_) hwf
    unfold one
    split
    · exact h
    · extract_lets r t
      have ht : HarbourCanonical t := ctxWrite_canonical ((modReq_only ..).canonical rfl h)
      split
      · split
        · exact stopRequest_canonical ht
        · rename_i e
          exact (modReq_only ..).canonical rfl (startKv_canonical ht _ e)
      · exact ht
  clear_value live
  split
  · exact hone
  · split
    · exact hone
    · exact .ite ((pushWork_only ..).canonical rfl hone) (.foldl (fun _ _ h => (pushWork_only ..).canonical rfl h) hone)

theorem refuseAgreed_canonical {g : List (BitVec 64) × BitVec 16 × BitVec 64} (hwf : HarbourCanonical s) :
    HarbourCanonical (refuseAgreed g s) :=
  .foldl (fun _ _ h => stopRequest_canonical h) hwf

theorem sweepAgreed_canonical (hwf : HarbourCanonical s) : HarbourCanonical (sweepAgreed s) :=
  .foldl (fun _ _ h => .ite (refuseAgreed_canonical h) (.ite (askAgreed_canonical h) h)) hwf

theorem askReady_canonical (hwf : HarbourCanonical s) : HarbourCanonical (askReady s) := by
  unfold askReady
  extract_lets order s₁ s₂
  have hwf₁ : HarbourCanonical s₁ := .foldl (fun _ _ h => askOne_canonical h) hwf
  have hwf₂ : HarbourCanonical s₂ := (dropReports_only ..).canonical rfl hwf₁
  exact .ite hwf₁ (sweepAgreed_canonical (.ite ((formLaunches_only ..).canonical rfl hwf₂) hwf₂))

theorem issueStreams_canonical {x : LaunchSpec} {laces : List (LacePlan × Nat)} {offsets : List (Nat × Nat)}
    (hwf : HarbourCanonical s) :
    HarbourCanonical (issueStreams x laces offsets s) := by
  unfold issueStreams
  extract_lets
  refine .foldl (fun _ _ h₁ => ?_) hwf
  extract_lets
  refine .foldl (fun _ _ h₂ => ?_) h₁
  split
  · exact .ite h₂ (issueDesc_canonical h₂)
  · exact h₂

theorem admitLaunch_canonical {x : LaunchSpec} (hwf : HarbourCanonical s) : HarbourCanonical (admitLaunch x s) := by
  unfold admitLaunch
  extract_lets
  split
  · rename_i e₁
    have hwf₁ : HarbourCanonical _ := .of_snd e₁ ((poolTake_only ..).canonical rfl hwf)
    extract_lets laces threads deadline order k s₂ _ s₃ _' s₄ _' s₅ works ctxOf s₆ s₇ made _' s₈ s₉ shed s₁₀ s₁₁
    have hwf₂ : HarbourCanonical s₂ := .foldl (fun _ _ h => (modReq_only ..).canonical rfl h) hwf₁
    have hwf₆ : HarbourCanonical s₆ := (openJoins_only ..).canonical rfl hwf₂
    have hwf₇ : HarbourCanonical s₇ := .foldl (fun _ _ h => (modIsland_only ..).canonical rfl h) hwf₆
    have hwf₉ : HarbourCanonical s₉ := (grantMcast_only ..).canonical rfl hwf₇
    have hwf₁₀ : HarbourCanonical s₁₀ := .ite ((bump_only ..).canonical rfl hwf₉) hwf₉
    have hwf₁₁ : HarbourCanonical s₁₁ := .ite ((bump_only ..).canonical rfl hwf₁₀) hwf₁₀
    exact settleLaunch_canonical (issueStreams_canonical hwf₁₁)

theorem admitHead_canonical {g : GovItem} {rest : List GovItem} (hwf : HarbourCanonical s) : HarbourCanonical (admitHead g rest
    s) := by
  unfold admitHead
  extract_lets
  split
  · exact .ite hwf (.ite hwf hwf)
  · extract_lets
    split
    · split
      · exact hwf
      · exact .ite ((wakeFor_only ..).canonical rfl hwf) (.ite ((countWait_only ..).canonical rfl hwf) (.ite hwf (admitLaunch_canonical
          hwf)))

theorem execLaunchAdmit_canonical (hwf : HarbourCanonical s) : CanonicalR (execLaunchAdmit s) := by
  unfold execLaunchAdmit
  extract_lets s₁ s₂
  have hwf₁ : HarbourCanonical s₁ := askReady_canonical hwf
  have hwf₂ : HarbourCanonical s₂ := (activateNow_only ..).canonical rfl hwf₁
  split
  · exact .next hwf₁
  · split
    · exact .next hwf₂
    · exact .next (admitHead_canonical hwf₂)

theorem execInfer_canonical {a : Fin 4096} {list : HostRead} (hwf : HarbourCanonical s) : CanonicalR (execInfer a list s) := by
  unfold execInfer
  extract_lets
  split
  · exact .next hwf
  · extract_lets
    split
    · exact .next (finishSt_canonical hwf)
    · extract_lets
      split
      · exact .next (finishSt_canonical hwf)
      · split
        · exact .next (finishSt_canonical hwf)
        · split
          · exact .next ((runWake_only ..).canonical rfl hwf)
          · split
            · exact .next (finishAt_canonical hwf)
            · extract_lets r s₁ s₂ s₃
              have hwf₂ : HarbourCanonical s₂ := (setStage_only ..).canonical rfl (ctxWrite_canonical hwf)
              have hwf₃ : HarbourCanonical s₃ := .ite ((reportRequest_only ..).canonical rfl hwf₂) hwf₂
              exact .next (askReady_canonical hwf₃)

theorem advanceContext_canonical {r : Req} (hwf : HarbourCanonical s) : HarbourCanonical (advanceContext s r) := by
  unfold advanceContext
  extract_lets rec_ draws s₁ s₂
  have hwf₁ : HarbourCanonical s₁ := ctxWrite_canonical hwf
  have hwf₂ : HarbourCanonical s₂ := ctxWrite_canonical hwf₁
  split
  · exact hwf₂
  · split
    · rename_i e₃
      have hwf₃ : HarbourCanonical _ := .of_snd e₃ ((takeFree_only ..).canonical rfl hwf₂)
      exact ctxWrite_canonical hwf₃

theorem execInferComplete_canonical {a : Fin 4096} (hwf : HarbourCanonical s) : CanonicalR (execInferComplete a s) := by
  unfold execInferComplete
  split
  · exact .next hwf
  · extract_lets late s₁ missed s₂ s₃
    have hwf₁ : HarbourCanonical s₁ := .ite ((bump_only ..).canonical rfl hwf) hwf
    have hwf₂ : HarbourCanonical s₂ := .ite ((countMiss_only ..).canonical rfl hwf₁) hwf₁
    have hwf₃ : HarbourCanonical s₃ := (modReq_only ..).canonical rfl (advanceContext_canonical hwf₂)
    exact .ite (.next hwf) (.ite (.next (askReady_canonical (discardRequest_canonical hwf))) (.next (askReady_canonical (finish_canonical
      hwf₃))))

theorem execCtxOpen_canonical {a : Fin 4096} (hwf : HarbourCanonical s) : CanonicalR (execCtxOpen a s) := by
  unfold execCtxOpen
  split
  · exact .next hwf
  · extract_lets
    split
    · exact .next (finishSt_canonical hwf)
    · exact .ite (.next (finishSt_canonical hwf)) (.next (finishSt_canonical (ctxWrite_canonical hwf)))

theorem freeContext_canonical {ctx : Nat} (hwf : HarbourCanonical s) : HarbourCanonical (freeContext ctx s) :=
  (poolReturn_only ..).canonical rfl (ctxWrite_canonical hwf)

theorem execCtxCloseRelease_canonical {a : Fin 4096} (hwf : HarbourCanonical s) : CanonicalR (execCtxCloseRelease a s) := by
  unfold execCtxCloseRelease
  split
  · exact .next hwf
  · exact .next (finishSt_canonical (freeContext_canonical hwf))

theorem execCtxSaveWrite_canonical {a : Fin 4096} (hwf : HarbourCanonical s) : CanonicalR (execCtxSaveWrite a s) := by
  unfold execCtxSaveWrite
  extract_lets
  split
  · exact .next hwf
  · extract_lets ctx need s₁ p bad image s₂ s₃
    have hwf₂ : HarbourCanonical s₂ := .foldl (fun _ _ h => touchRun_canonical h) hwf
    have hwf₃ : HarbourCanonical s₃ := (sendPort_only ..).canonical rfl hwf₂
    exact .ite (.next (finish_canonical hwf)) (.ite (.next ((runsWake_only ..).canonical rfl hwf)) (.next (finish_canonical
      (freeContext_canonical hwf₃))))

theorem restoreSlabs_canonical {b : Bytes} {bad : Bool} {hs : List (BitVec 16)} (hwf : HarbourCanonical s) :
    HarbourCanonical (restoreSlabs b bad hs s) :=
  .foldl (fun _ _ h => storeRun_canonical h) hwf

theorem execCtxRestore_canonical {a : Fin 4096} {saved : HostRead} (hwf : HarbourCanonical s) :
    CanonicalR (execCtxRestore a saved s) := by
  unfold execCtxRestore
  split
  · exact .next hwf
  · extract_lets
    split
    · exact .next (finishSt_canonical hwf)
    · split
      · extract_lets b k r
        split
        · exact .next (finishSt_canonical hwf)
        · split
          · exact .next (finishSt_canonical hwf)
          · extract_lets
            split
            · exact .next (finishSt_canonical hwf)
            · split
              · exact .next (finishSt_canonical hwf)
              · split
                · exact .next (finishSt_canonical hwf)
                · split
                  · exact .next ((runsWake_only ..).canonical rfl hwf)
                  · split
                    · rename_i e₁
                      have hwf₁ : HarbourCanonical _ := .of_snd e₁ ((poolTake_only ..).canonical rfl hwf)
                      exact .next (finishSt_canonical (noteKv_canonical (restoreSlabs_canonical (harbWrite_canonical hwf₁))))
      · exact .next (finishAt_canonical hwf)

theorem execFenceRelease_canonical {a : Fin 4096} (hwf : HarbourCanonical s) : CanonicalR (execFenceRelease a s) := by
  unfold execFenceRelease
  split
  · exact .next hwf
  · exact .ite (.next (finishSt_canonical hwf)) (.next hwf)

end Sys2Proof.Laws
end

section
/-! SUPPORT. The Harbour's list of bytes stays canonical (R157, R162): the images, the placement and the swaps. -/

namespace Sys2Proof.Laws

open Sys2Proof.Machine

variable {s : State}

theorem execLoadManifest_canonical {a : Fin 4096} {manifest : HostRead} (hwf : HarbourCanonical s) :
    CanonicalR (execLoadManifest a manifest s) := by
  unfold execLoadManifest
  extract_lets
  split
  · exact .next hwf
  · extract_lets
    split
    · exact .next hwf
    · split
      · exact .next (finishAt_canonical hwf)
      · extract_lets
        split
        · exact .next (finish_canonical ((bump_only ..).canonical rfl hwf))
        · split
          · exact .next (finish_canonical hwf)
          · split
            · exact .next (finish_canonical hwf)
            · exact .ite (.next (finish_canonical hwf)) (.ite (.next (finish_canonical hwf)) (.next (finish_canonical ((setImage_only
                ..).canonical rfl hwf))))

theorem execLoadShard_canonical {a : Fin 4096} {hash : HostRead} (hwf : HarbourCanonical s) : CanonicalR (execLoadShard a hash s) := by
  unfold execLoadShard
  extract_lets
  split
  · exact .next hwf
  · extract_lets
    split
    · exact .next hwf
    · split
      · exact .next (finishAt_canonical hwf)
      · split
        · exact .next (finishSt_canonical hwf)
        · exact .ite (.next (finishAt_canonical hwf)) (.ite (.next (finishSt_canonical hwf)) (.ite (.next (finishSt_canonical hwf)) (.ite
            (.next (finishSt_canonical hwf)) (.next ((setStage_only ..).canonical rfl hwf)))))

theorem endLoad_canonical {a st : Nat} {l : Load} (hwf : HarbourCanonical s) : HarbourCanonical (endLoad a st l s) :=
  finish_canonical (.ite ((bump_only ..).canonical rfl hwf) hwf)

theorem retryLoad_canonical {a : Nat} {l : Load} (hwf : HarbourCanonical s) : HarbourCanonical (retryLoad a l s) :=
  .ite ((bump_only ..).canonical rfl hwf) (endLoad_canonical ((bump_only ..).canonical rfl hwf))

theorem execVerifyPassDone_canonical {a : Fin 4096} {shard : HostRead} (hwf : HarbourCanonical s) :
    CanonicalR (execVerifyPassDone a shard s) := by
  unfold execVerifyPassDone
  extract_lets
  split
  · exact .next hwf
  · split
    · exact .next hwf
    · split
      · exact .next (finishAt_canonical hwf)
      · exact .ite (.next (retryLoad_canonical hwf)) (.ite (.next (endLoad_canonical hwf)) (.next hwf))

theorem settleImages_canonical (hwf : HarbourCanonical s) : HarbourCanonical (settleImages s) := by
  unfold settleImages
  extract_lets s₁
  have hwf₁ : HarbourCanonical s₁ := by
    unfold s₁
    refine .foldl (fun _ _ h₂ => ?_) hwf
    refine .foldl (fun _ _ h₃ => ?_) h₂
    split
    · exact .ite ((setImage_only ..).canonical rfl h₃) h₃
    · exact h₃
  refine .foldl (fun _ _ h₄ => ?_) hwf₁
  split
  · exact .ite (endLoad_canonical h₄) h₄
  · exact h₄

theorem sealReady_canonical {img : ImageRec} {t : Target} (hwf : HarbourCanonical s) : HarbourCanonical (sealReady img t s) :=
  .foldl (fun _ _ h => .ite (sealIfStorage_canonical h) h) hwf

theorem unsealPieces_canonical {k : Nat} {banks : List Nat} (hwf : HarbourCanonical s) : HarbourCanonical (unsealPieces k banks
    s) := by
  unfold unsealPieces
  extract_lets gone s₁
  have hwf₁ : HarbourCanonical s₁ := .foldl (fun _ _ h => queueOp_canonical h) hwf
  split
  · exact hwf₁
  · exact (setImage_only ..).canonical rfl hwf₁

theorem undoLoad_canonical {l : Load} (hwf : HarbourCanonical s) : HarbourCanonical (undoLoad l s) := by
  unfold undoLoad
  split
  · extract_lets banks s₁
    have hwf₁ : HarbourCanonical s₁ := unsealPieces_canonical hwf
    split
    · exact (setImage_only ..).canonical rfl hwf₁
    · exact hwf₁
  · exact hwf

theorem replaceSlice_canonical {from_ : Nat} {t : Placed} (hwf : HarbourCanonical s) : HarbourCanonical (replaceSlice from_ t s) := by
  unfold replaceSlice
  extract_lets move swap owners _ s₁ s₂ s₃
  have hwf₂ : HarbourCanonical s₂ := (modBank_only ..).canonical rfl hwf
  have hwf₃ : HarbourCanonical s₃ := (bump_only ..).canonical rfl ((raise_only ..).canonical rfl hwf₂)
  exact .ite hwf₃ (releaseBank_canonical hwf₃)

theorem movePiece_canonical {l : Load} {t : Target} {p : Piece} (hwf : HarbourCanonical s) : CanonicalO (movePiece l t p s) := by
  unfold movePiece
  extract_lets
  split
  · exact .some hwf
  · split
    · exact .some hwf
    · split
      · exact .some (replaceSlice_canonical hwf)
      · exact .none

theorem movePieces_canonical {l : Load} {ps : List Piece} {ts : List Target} (hwf : HarbourCanonical s) :
    CanonicalO (movePieces l ps ts s) :=
  List.foldlRecOn (motive := CanonicalO) ts _ (.some hwf) fun _ h _ _ =>
    List.foldlRecOn (motive := CanonicalO) ps _ h fun _ h _ _ => h.bind fun _ hx => movePiece_canonical hx

theorem passWritten_canonical {a : Nat} {l : Load} {ps : List Piece} {b : Bytes} (hwf : HarbourCanonical s) :
    HarbourCanonical (passWritten a l ps b s) := by
  unfold passWritten
  extract_lets
  split
  · exact hwf
  · extract_lets img s₁ s₂
    have hwf₁ : HarbourCanonical s₁ := (setImage_only ..).canonical rfl hwf
    have hwf₂ : HarbourCanonical s₂ := .foldl (fun _ _ h => sealReady_canonical h) hwf₁
    exact settleImages_canonical ((resumeFront_only ..).canonical rfl hwf₂)

theorem weightPass_canonical {a : Nat} {l : Load} {img : ImageRec} {r : ShardRec} {b : Bytes} {sound : Bool}
    (hwf : HarbourCanonical s) :
    HarbourCanonical (weightPass a l img r b sound s) := by
  unfold weightPass
  extract_lets
  split
  · exact endLoad_canonical (undoLoad_canonical hwf)
  · rename_i e₁
    have hwf₁ : HarbourCanonical _ := (movePieces_canonical hwf) _ e₁
    extract_lets ts s₂
    have hwf₂ : HarbourCanonical s₂ := .foldl (fun _ _ h => .foldl (fun _ _ h1 => (programPiece_only ..).canonical rfl h1) h) hwf₁
    exact .ite hwf₁ (.ite (.ite (settleImages_canonical hwf₂) (retryLoad_canonical (undoLoad_canonical hwf₂))) (.ite (retryLoad_canonical
      (unsealPieces_canonical hwf₂)) (passWritten_canonical hwf₂)))

theorem sealPool_canonical (hwf : HarbourCanonical s) : HarbourCanonical (sealPool s) :=
  .foldl (fun _ _ h => .ite (sealIfStorage_canonical h) h) hwf

theorem dropAdapter_canonical {slot : Nat} (hwf : HarbourCanonical s) : HarbourCanonical (dropAdapter slot s) :=
  .foldl (fun _ _ h => .ite h (releaseBank_canonical h)) ((cacheDrop_only ..).canonical rfl hwf)

theorem adapterPass_canonical {a : Nat} {l : Load} {img : ImageRec} {r : ShardRec} {b : Bytes} {sound : Bool}
    (hwf : HarbourCanonical s) :
    HarbourCanonical (adapterPass a l img r b sound s) := by
  unfold adapterPass
  extract_lets ps named mine usable dropped stored
  have hdropped : HarbourCanonical dropped := .foldl (fun _ _ h => dropAdapter_canonical h) hwf
  have hstored : CanonicalO stored :=
    List.foldlRecOn (motive := CanonicalO) named _ (.some hdropped) fun _ h _ _ =>
      h.bind fun _ hx => (writeAdapter_only _ _ _ _).canonicalO rfl hx
  refine .ite (endLoad_canonical hwf) (.ite (retryLoad_canonical hwf) ?_)
  clear_value stored
  cases stored with
  | none => exact endLoad_canonical hwf
  | some x => exact endLoad_canonical ((setImage_only ..).canonical rfl (sealPool_canonical (hstored x rfl)))

theorem execProgramPassDone_canonical {a : Fin 4096} {shard : HostRead} (hwf : HarbourCanonical s) :
    CanonicalR (execProgramPassDone a shard s) := by
  unfold execProgramPassDone
  split
  · exact .next hwf
  · extract_lets s₁
    have hwf₁ : HarbourCanonical s₁ := undoLoad_canonical hwf
    split
    · exact .next hwf
    · split
      · exact .next (finishAt_canonical hwf₁)
      · exact .ite (.next (adapterPass_canonical hwf)) (.next (weightPass_canonical hwf))

theorem stopLoad_canonical {a : Nat} (hwf : HarbourCanonical s) : HarbourCanonical (stopLoad a s) := by
  unfold stopLoad
  split
  · exact endLoad_canonical (undoLoad_canonical hwf)
  · exact hwf

theorem execCommitImage_canonical {a : Fin 4096} {hash : HostRead} (hwf : HarbourCanonical s) :
    CanonicalR (execCommitImage a hash s) := by
  unfold execCommitImage
  split
  · exact .next hwf
  · split
    · exact .next (finishAt_canonical hwf)
    · split
      · exact .next (finishSt_canonical hwf)
      · extract_lets
        split
        · exact .next (finish_canonical hwf)
        · exact .next (finishSt_canonical ((commitImage_only ..).canonical rfl hwf))

theorem execDropImage_canonical {a : Fin 4096} {hash : HostRead} (hwf : HarbourCanonical s) : CanonicalR (execDropImage a hash s) := by
  unfold execDropImage
  split
  · exact .next hwf
  · split
    · exact .next (finishAt_canonical hwf)
    · split
      · exact .next (finishSt_canonical hwf)
      · extract_lets mine s₁
        have hwf₁ : HarbourCanonical s₁ := .foldl (fun _ _ h => dropAdapter_canonical h) hwf
        exact .ite (.next (finishSt_canonical hwf)) (.next (finishSt_canonical hwf₁))

theorem placeFails_canonical {a : Nat} {c : Cmd} {st : Nat} {rep : Bytes} (hwf : HarbourCanonical s) :
    HarbourCanonical (placeFails a c st rep s) :=
  finish_canonical ((sendReport_only ..).canonical rfl hwf)

theorem placeChecked_canonical {a : Nat} {c : Cmd} {f : LastFile} {choice : List Placed} (hwf : HarbourCanonical s) :
    HarbourCanonical (placeChecked a c f choice s) := by
  unfold placeChecked
  split
  · exact placeFails_canonical hwf
  · extract_lets
    split
    · extract_lets rep s₁
      have hwf₁ : HarbourCanonical s₁ := .foldl (fun _ _ h => (modBank_only ..).canonical rfl h) hwf
      exact finish_canonical ((sendReport_only ..).canonical rfl ((setSlot_only ..).canonical rfl hwf₁))
    · split
      · exact placeFails_canonical hwf
      · exact .ite (placeFails_canonical hwf) (finish_canonical ((sendReport_only ..).canonical rfl ((setSlot_only ..).canonical rfl
          ((placedAnew_only ..).canonical rfl ((takeBanks_only ..).canonical rfl hwf)))))

theorem execPlace_canonical {a : Fin 4096} {file : HostRead} {choice : List Placed} (hwf : HarbourCanonical s) :
    CanonicalR (execPlace a file choice s) := by
  unfold execPlace
  split
  · exact .next hwf
  · split
    · exact .next (finishAt_canonical ((sendReport_only ..).canonical rfl hwf))
    · split
      · exact .next (placeFails_canonical hwf)
      · exact .next (placeChecked_canonical hwf)

theorem finishDrain_canonical {a : Nat} (hwf : HarbourCanonical s) : HarbourCanonical (finishDrain a s) := finish_canonical hwf

theorem bindProgress_canonical {a : Nat} (hwf : HarbourCanonical s) : HarbourCanonical (bindProgress a s) := by
  unfold bindProgress
  split
  · exact hwf
  · extract_lets n rs s₁
    have hwf₁ : HarbourCanonical s₁ := .foldl (fun _ _ h => (detachNow_only ..).canonical rfl h) ((endDrain_only ..).canonical rfl hwf)
    exact .ite (.ite (finishDrain_canonical ((detachNow_only ..).canonical rfl ((endDrain_only ..).canonical rfl hwf))) hwf) (.ite hwf
      (.ite (finishDrain_canonical ((attachNow_only ..).canonical rfl hwf₁)) (.foldl (fun _ _ h => .ite h ((wantOn_only ..).canonical rfl
      h)) hwf₁)))

theorem execAttach_canonical {a : Fin 4096} {groups : HostRead} (hwf : HarbourCanonical s) : CanonicalR (execAttach a groups s) := by
  unfold execAttach
  extract_lets
  split
  · exact .next hwf
  · extract_lets
    split
    · exact .next hwf
    · split
      · exact .next (finishAt_canonical hwf)
      · split
        · exact .next (finishSt_canonical hwf)
        · split
          · exact .next (finishSt_canonical hwf)
          · split
            · exact .next (finishSt_canonical hwf)
            · split
              · exact .next (finishAt_canonical hwf)
              · split
                · exact .next (finishAt_canonical hwf)
                · extract_lets gs s₁ s₂
                  have hwf₂ : HarbourCanonical s₂ := (bumpBy_only ..).canonical rfl (.foldl (fun _ _ h => (modSlot_only ..).canonical rfl
                    h) hwf)
                  exact .ite (.next (finishAt_canonical hwf)) (.ite (.next (finishSt_canonical hwf)) (.next (bindProgress_canonical
                    ((startDrain_only ..).canonical rfl hwf₂))))

theorem execDetach_canonical {a : Fin 4096} (hwf : HarbourCanonical s) : CanonicalR (execDetach a s) := by
  unfold execDetach
  split
  · exact .next hwf
  · extract_lets n sl s₁
    have hwf₁ : HarbourCanonical s₁ := (modSlot_only ..).canonical rfl hwf
    exact .ite (.next hwf) (.ite (.next (finishAt_canonical hwf)) (.ite (.next (finishSt_canonical hwf)) (.ite (.next (finishSt_canonical
      hwf)) (.next (bindProgress_canonical ((startDrain_only ..).canonical rfl hwf₁))))))

theorem returnBanks_canonical {n : Nat} {banks : List Nat} (hwf : HarbourCanonical s) : HarbourCanonical (returnBanks n banks s) :=
  .foldl (fun _ _ h => .ite ((modBank_only ..).canonical rfl h) (releaseBank_canonical h)) hwf

theorem abandonMoves_canonical {n : Nat} {banks : List Nat} (hwf : HarbourCanonical s) : HarbourCanonical (abandonMoves n banks
    s) := by
  unfold abandonMoves
  extract_lets gone mine s₁
  have hwf₁ : HarbourCanonical s₁ := .foldl (fun _ _ h => releaseBank_canonical ((modSched_only ..).canonical rfl h)) hwf
  exact .foldl (fun _ _ h => .ite ((modSched_only ..).canonical rfl h) h) hwf₁

theorem stopOrphanLoads_canonical {hash : Digest} (hwf : HarbourCanonical s) : HarbourCanonical (stopOrphanLoads hash s) :=
  .ite hwf (.foldl (fun _ _ h => stopLoad_canonical h) hwf)

theorem execRelease_canonical {a : Fin 4096} (hwf : HarbourCanonical s) : CanonicalR (execRelease a s) := by
  unfold execRelease
  split
  · exact .next hwf
  · extract_lets n sl s₁ _ _' s₂ s₃
    have hwf₁ : HarbourCanonical s₁ := (setSlot_only ..).canonical rfl hwf
    have hwf₃ : HarbourCanonical s₃ := returnBanks_canonical (abandonMoves_canonical hwf₁)
    exact .ite (.next hwf) (.ite (.next (finishAt_canonical hwf)) (.ite (.next (finishSt_canonical hwf)) (.ite (.next (finishSt_canonical
      hwf)) (.next (finish_canonical ((imageReleased_only ..).canonical rfl (stopOrphanLoads_canonical hwf₃)))))))

theorem execBindQueue_canonical {a : Fin 4096} (hwf : HarbourCanonical s) : CanonicalR (execBindQueue a s) := by
  unfold execBindQueue
  split
  · exact .next hwf
  · exact .ite (.next hwf) (.ite (.next (finishAt_canonical hwf)) (.ite (.next (finishAt_canonical hwf)) (.next (finish_canonical
      ((modPair_only ..).canonical rfl hwf)))))

theorem execBindSegment_canonical {a : Fin 4096} (hwf : HarbourCanonical s) : CanonicalR (execBindSegment a s) := by
  unfold execBindSegment
  split
  · exact .next hwf
  · exact .ite (.next hwf) (.ite (.next (finishAt_canonical hwf)) (.ite (.next (finishAt_canonical hwf)) (.ite (.next (finishAt_canonical
      hwf)) (.ite (.next (finishSt_canonical hwf)) (.ite (.next (finishSt_canonical hwf)) (.next ((startDrain_only ..).canonical rfl
      ((segChange_only ..).canonical rfl hwf))))))))

theorem execUnbindSegment_canonical {a : Fin 4096} (hwf : HarbourCanonical s) : CanonicalR (execUnbindSegment a s) := by
  unfold execUnbindSegment
  split
  · exact .next hwf
  · extract_lets n s₁
    have hwf₁ : HarbourCanonical s₁ := (modSeg_only ..).canonical rfl ((dropCopies_only ..).canonical rfl ((dropFree_only ..).canonical
      rfl hwf))
    exact .ite (.next hwf) (.ite (.next (finishAt_canonical hwf)) (.ite (.next (finish_canonical hwf₁)) (.ite (.next (finishSt_canonical
      hwf)) (.next ((startDrain_only ..).canonical rfl ((segChange_only ..).canonical rfl hwf))))))

theorem execBindDrainEnd_canonical {a : Fin 4096} (hwf : HarbourCanonical s) : CanonicalR (execBindDrainEnd a s) := by
  unfold execBindDrainEnd
  split
  · exact .next hwf
  · exact .ite (.next (bindProgress_canonical hwf)) (.next hwf)

theorem execSegmentHandover_canonical {seg : Fin 16} (hwf : HarbourCanonical s) : CanonicalR (execSegmentHandover seg s) := by
  unfold execSegmentHandover
  extract_lets n g base s₁
  have hwf₁ : HarbourCanonical s₁ := by
    unfold s₁
    split
    · exact (endDrain_only ..).canonical rfl hwf
    · exact hwf
  exact .ite (.next hwf) (.next hwf₁)

theorem replaceBank_canonical {from_ to_ : Nat} {spill : Bool} (hwf : HarbourCanonical s) :
    HarbourCanonical (replaceBank from_ to_ spill s) :=
  .ite ((afterMoves_only ..).canonical rfl (moveSlices_canonical ((modBank_only ..).canonical rfl hwf))) (.ite hwf (.ite ((nvPoisoned_only
    ..).canonical rfl ((flagBank_only ..).canonical rfl hwf)) ((afterMoves_only ..).canonical rfl (programInto_canonical hwf))))

theorem spillInto_canonical {n : Nat} {t : List Placed} (hwf : HarbourCanonical s) : HarbourCanonical (spillInto n t s) := by
  unfold spillInto
  extract_lets old one moved
  have hmoved : HarbourCanonical moved := by
    refine .foldl (fun x a h => ?_) hwf
    unfold one
    split
    · exact h
    · split
      · exact (nvPoisoned_only ..).canonical rfl ((flagBank_only ..).canonical rfl h)
      · exact replaceSlice_canonical (.ite h ((modBank_only ..).canonical rfl h))
  split
  · exact (afterMoves_only ..).canonical rfl (.foldl (fun _ _ h => sealReady_canonical h) hmoved)
  · exact hmoved

theorem execRePlacement_canonical {slot : Fin 64} {slice : Nat} {target : Option Placed} (hwf : HarbourCanonical s) :
    CanonicalR (execRePlacement slot slice target s) := by
  unfold execRePlacement
  extract_lets
  split
  · split
    · exact .next hwf
    · split
      · exact .next (replaceBank_canonical hwf)
      · split
        · exact .next (spillInto_canonical hwf)
        · exact .next (.ite ((cannotPlace_only ..).canonical rfl hwf) hwf)
  · exact .next hwf

theorem stageInPlace_canonical {a n : Nat} {f : LastFile} {table : HostRead} (hwf : HarbourCanonical s) :
    HarbourCanonical (stageInPlace a n f table s) := by
  unfold stageInPlace
  extract_lets
  split
  · exact finishSt_canonical hwf
  · split
    · exact finishAt_canonical hwf
    · exact finish_canonical ((placedAnew_only ..).canonical rfl ((modSlot_only ..).canonical rfl hwf))

theorem stageShadow_canonical {a : Nat} {c : Cmd} {n : Nat} {f : LastFile} {l : List Placed} {shared : Bool}
    (hwf : HarbourCanonical s) :
    HarbourCanonical (stageShadow a c n f l shared s) := by
  unfold stageShadow
  extract_lets sl rep w s₁ s₂
  have hwf₁ : HarbourCanonical s₁ := .ite hwf ((placedAnew_only ..).canonical rfl ((takeBanks_only ..).canonical rfl hwf))
  have hwf₂ : HarbourCanonical s₂ := (modSlot_only ..).canonical rfl hwf₁
  exact finish_canonical ((sendReport_only ..).canonical rfl ((secondPrograms_only ..).canonical rfl hwf₂))

theorem stageChecked_canonical {a : Nat} {c : Cmd} {n : Nat} {f : LastFile} {table : HostRead} {choice : List Placed}
    (hwf : HarbourCanonical s) :
    HarbourCanonical (stageChecked a c n f table choice s) := by
  unfold stageChecked
  extract_lets
  split
  · exact stageInPlace_canonical hwf
  · split
    · exact .ite (finishSt_canonical ((sendReport_only ..).canonical rfl hwf)) (stageShadow_canonical hwf)
    · split
      · exact .ite (stageInPlace_canonical hwf) (finishSt_canonical ((sendReport_only ..).canonical rfl hwf))
      · exact .ite (finishSt_canonical hwf) (stageShadow_canonical hwf)

theorem resumeStage_canonical {a n : Nat} {f : LastFile} {w : Swap} {table : HostRead} (hwf : HarbourCanonical s) :
    HarbourCanonical (resumeStage a n f w table s) := by
  unfold resumeStage
  split
  · exact finishAt_canonical hwf
  · exact finish_canonical ((modSlot_only ..).canonical rfl hwf)

theorem execSwapStage_canonical {a : Fin 4096} {file table : HostRead} {choice : List Placed} (hwf : HarbourCanonical s) :
    CanonicalR (execSwapStage a file table choice s) := by
  unfold execSwapStage
  split
  · exact .next hwf
  · extract_lets
    split
    · exact .next (finishAt_canonical hwf)
    · split
      · exact .next (finishAt_canonical hwf)
      · split
        · exact .next (finishSt_canonical hwf)
        · split
          · exact .next (finishSt_canonical hwf)
          · split
            · exact .next (finishAt_canonical hwf)
            · split
              · exact .next (finishSt_canonical hwf)
              · split
                · exact .ite (.ite (.next (resumeStage_canonical hwf)) (.next (finishSt_canonical hwf))) (.ite (.next
                    (stageChecked_canonical hwf)) (.next (finishSt_canonical hwf)))
                · exact .ite (.next (stageChecked_canonical hwf)) (.next (finishSt_canonical hwf))

theorem execSwapSwitch_canonical {a : Fin 4096} (hwf : HarbourCanonical s) : CanonicalR (execSwapSwitch a s) := by
  unfold execSwapSwitch
  split
  · exact .next hwf
  · extract_lets
    split
    · exact .next hwf
    · split
      · exact .next (finishAt_canonical hwf)
      · split
        · exact .next (finishSt_canonical hwf)
        · extract_lets s₁
          have hwf₁ : HarbourCanonical s₁ := .ite ((switchNow_only ..).canonical rfl hwf) ((modSlot_only ..).canonical rfl hwf)
          exact .ite (.next (finishSt_canonical hwf)) (.ite (.next (finishAt_canonical hwf)) (.ite (.next (finishSt_canonical hwf)) (.next
            (finish_canonical hwf₁))))

theorem abortSwap_canonical {n : Nat} {w : Swap} (hwf : HarbourCanonical s) : HarbourCanonical (abortSwap n w s) := by
  unfold abortSwap
  extract_lets mine back s₁
  have hwf₁ : HarbourCanonical s₁ := (modSlot_only ..).canonical rfl hwf
  exact (imageReleased_only ..).canonical rfl (stopOrphanLoads_canonical (returnBanks_canonical (abandonMoves_canonical hwf₁)))

theorem execSwapAbort_canonical {a : Fin 4096} (hwf : HarbourCanonical s) : CanonicalR (execSwapAbort a s) := by
  unfold execSwapAbort
  split
  · exact .next hwf
  · extract_lets
    split
    · exact .next (finishAt_canonical hwf)
    · split
      · exact .next (finishSt_canonical hwf)
      · exact .ite (.next (finishSt_canonical hwf)) (.next (finishSt_canonical (abortSwap_canonical hwf)))

theorem retireShadow_canonical {n : Nat} {w : Swap} (hwf : HarbourCanonical s) : HarbourCanonical (retireShadow n w s) := by
  unfold retireShadow
  extract_lets sl gone moved
  have hmoved : HarbourCanonical moved := (setSlot_only ..).canonical rfl hwf
  exact (dropUnused_only ..).canonical rfl (returnBanks_canonical hmoved)

theorem execGenerationRetire_canonical {slot : Fin 64} (hwf : HarbourCanonical s) : CanonicalR (execGenerationRetire slot s) := by
  unfold execGenerationRetire
  extract_lets
  split
  · exact .ite (.next hwf) (.ite (.next (retireShadow_canonical hwf)) (.next ((modSlot_only ..).canonical rfl hwf)))
  · exact .next hwf

theorem rewriteShard_canonical {t : Target} {image k : Nat} {again : Bool} {b : Bytes} (hwf : HarbourCanonical s) :
    CanonicalO (rewriteShard t image k again b s) := by
  unfold rewriteShard
  split
  · exact .some hwf
  · intro t ht
    obtain ⟨x, hx, rfl⟩ := Option.map_eq_some_iff.1 ht
    exact (setImage_only ..).canonical rfl (.foldl (fun _ _ h => (programPiece_only ..).canonical rfl h) (movePieces_canonical hwf x hx))

theorem rewriteShards_canonical {t : Target} {image : Nat} {again : Bool} {l : List (Nat × Bytes)} (hwf : HarbourCanonical s) :
    CanonicalO (rewriteShards t image again l s) :=
  List.foldlRecOn (motive := CanonicalO) l _ (.some hwf) fun _ h _ _ => h.bind fun _ hx => rewriteShard_canonical hx

theorem openBarrier_canonical {n image : Nat} {w : Swap} (hwf : HarbourCanonical s) : HarbourCanonical (openBarrier n image w s) := by
  unfold openBarrier
  extract_lets rest s₁
  have hwf₁ : HarbourCanonical s₁ := (modSlot_only ..).canonical rfl hwf
  exact askReady_canonical (.ite ((swapComplete_only ..).canonical rfl hwf₁) hwf₁)

theorem programLayer_canonical {n image : Nat} {img : ImageRec} {w : Swap} {t : Target} {reads : List (Nat × HostRead)}
    (hwf : HarbourCanonical s) :
    HarbourCanonical (programLayer n image img w t reads s) := by
  unfold programLayer
  extract_lets
  split
  · exact (stopFront_only ..).canonical rfl hwf
  · rename_i e₁
    have hwf₁ : HarbourCanonical _ := (rewriteShards_canonical hwf) _ e₁
    extract_lets s₂
    have hwf₂ : HarbourCanonical s₂ := by
      unfold s₂
      split
      · exact settleImages_canonical (sealReady_canonical hwf₁)
      · exact hwf₁
    exact .ite ((stopFront_only ..).canonical rfl hwf₂) ((modSlot_only ..).canonical rfl hwf₂)

theorem reprogramLayer_canonical {n image : Nat} {img : ImageRec} {w : Swap} {t : Target} {layer : Nat} {reads : List (Nat ×
    HostRead)} (hwf : HarbourCanonical s) :
    HarbourCanonical (reprogramLayer n image img w t layer reads s) := by
  unfold reprogramLayer
  extract_lets
  split
  · exact openBarrier_canonical hwf
  · split
    · exact (stopFront_only ..).canonical rfl hwf
    · rename_i e₁
      have hwf₁ : HarbourCanonical _ := (rewriteShards_canonical hwf) _ e₁
      split
      · exact settleImages_canonical (sealReady_canonical hwf₁)
      · exact hwf₁

theorem execLayerRewriteDone_canonical {slot : Fin 64} {layer : Nat} {shards : List HostRead} (hwf : HarbourCanonical s) :
    CanonicalR (execLayerRewriteDone slot layer shards s) := by
  unfold execLayerRewriteDone
  extract_lets
  split
  · exact .next hwf
  · extract_lets
    split
    · exact .next hwf
    · exact .ite (.next hwf) (.ite (.next (reprogramLayer_canonical hwf)) (.ite (.next hwf) (.next (programLayer_canonical hwf))))

theorem cancelCmd_canonical {t : Nat} {c : Cmd} (hwf : HarbourCanonical s) : HarbourCanonical (cancelCmd t c s).2 := by
  unfold cancelCmd
  extract_lets
  split
  · exact hwf
  · split
    · split
      · exact .ite2 hwf (askReady_canonical (stopRequest_canonical hwf))
      · exact finishSt_canonical hwf
    · exact .ite2 (.ite (stopLoad_canonical hwf) (finishSt_canonical hwf)) (.ite2 (finishSt_canonical hwf) hwf)

theorem execCancel_canonical {a : Fin 4096} (hwf : HarbourCanonical s) : CanonicalR (execCancel a s) := by
  unfold execCancel
  extract_lets
  split
  · exact .next hwf
  · extract_lets
    split
    · exact .next (finishSt_canonical hwf)
    · split
      · split
        · rename_i e₁
          have hwf₁ : HarbourCanonical _ := .of_snd e₁ (cancelCmd_canonical hwf)
          exact .next (finish_canonical hwf₁)
      · exact .next (finish_canonical hwf)

end Sys2Proof.Laws
end

section
/-! SUPPORT. The Harbour's list of bytes stays canonical (R157, R162): the Harbour rows, Strait and the ports. -/

namespace Sys2Proof.Laws

open Sys2Proof.Machine

variable {s : State}

theorem afterSeal_canonical (hwf : HarbourCanonical s) : HarbourCanonical (afterSeal s) :=
  (afterMoves_only ..).canonical rfl (settleImages_canonical hwf)

theorem execFullKnownSumTest_canonical {bank : Nat} {r : KsResult} (hwf : HarbourCanonical s) :
    CanonicalR (execFullKnownSumTest bank r s) :=
  .ite .fault (.ite (.next hwf) (.next (afterSeal_canonical (sealTested_canonical ((fullTest_only ..).canonical rfl hwf)))))

theorem sealCmd_canonical {c : Fin 8} (hwf : HarbourCanonical s) : HarbourCanonical (sealCmd c s) :=
  .ite ((setErr_only ..).canonical rfl hwf) (.ite ((rejectBusy_only ..).canonical rfl hwf) (.ite ((setErr_only ..).canonical rfl hwf)
    (.ite ((setErr_only ..).canonical rfl hwf) (afterSeal_canonical (sealedMoves_canonical ((sealNow_only ..).canonical rfl
    ((acceptCmd_only ..).canonical rfl hwf)))))))

theorem execSealBank_canonical {i : Initiator} {ch : Fin 8} (hwf : HarbourCanonical s) : CanonicalR (execSealBank i ch s) :=
  unlocked_canonical (fun _ h => sealCmd_canonical h) hwf

theorem codeCmd_canonical {c : Fin 8} {code : Nat} (hwf : HarbourCanonical s) : HarbourCanonical (codeCmd c code s) := by
  unfold codeCmd
  split
  · exact operationCmd_canonical hwf
  · exact operationCmd_canonical hwf
  · exact operationCmd_canonical hwf
  · exact operationCmd_canonical hwf
  · exact operationCmd_canonical hwf
  · exact operationCmd_canonical hwf
  · exact .ite ((setErr_only ..).canonical rfl hwf) (.ite ((rejectBusy_only ..).canonical rfl hwf) (.ite ((setErr_only ..).canonical rfl
      hwf) (.ite ((setErr_only ..).canonical rfl hwf) ((setMode_only ..).canonical rfl ((acceptCmd_only ..).canonical rfl hwf)))))
  · exact .ite ((setErr_only ..).canonical rfl hwf) (.ite ((rejectBusy_only ..).canonical rfl hwf) (.ite ((setErr_only ..).canonical rfl
      hwf) (.ite ((setErr_only ..).canonical rfl hwf) ((setMode_only ..).canonical rfl ((acceptCmd_only ..).canonical rfl hwf)))))
  · exact sealCmd_canonical hwf
  · exact (markCmd_only ..).canonical rfl hwf
  · exact (channelCmd_only ..).canonical rfl hwf
  · exact (channelCmd_only ..).canonical rfl hwf
  · exact (seqError_only ..).canonical rfl hwf

theorem windowByte_canonical {c : Fin 8} {offset : BitVec 12} {byte : Byte} (hwf : HarbourCanonical s) :
    HarbourCanonical (windowByte c offset byte s) := by
  unfold windowByte
  split
  · exact (suspendByte_only ..).canonical rfl hwf
  · split
    · exact resumeByte_canonical hwf
    · split
      · exact .ite ((modChan_only ..).canonical rfl hwf) ((seqError_only ..).canonical rfl hwf)
      · exact .ite ((modChan_only ..).canonical rfl hwf) ((seqError_only ..).canonical rfl hwf)
      · exact .ite (codeCmd_canonical ((modChan_only ..).canonical rfl hwf)) ((seqError_only ..).canonical rfl hwf)

theorem execAwlUnlockStep_canonical {i : Initiator} {ch : Fin 8} {offset : BitVec 12} {byte : Byte} (hwf : HarbourCanonical s) :
    CanonicalR (execAwlUnlockStep i ch offset byte s) :=
  .ite (.next ((privDrop_only ..).canonical rfl hwf)) (.next (windowByte_canonical hwf))

theorem execAwlStrayByte_canonical {i : Initiator} {ch : Fin 8} {offset : BitVec 12} {byte : Byte} (hwf : HarbourCanonical s) :
    CanonicalR (execAwlStrayByte i ch offset byte s) :=
  .ite (.next ((privDrop_only ..).canonical rfl hwf)) (.next (windowByte_canonical hwf))

theorem execHarbourRead_canonical {port : BitVec 12} {h : BitVec 30} {flits : Nat} {upsets : List (Nat × Nat)}
    (hwf : HarbourCanonical s) :
    CanonicalR (execHarbourRead port h flits upsets s) := by
  have hupset : ∀ hb (e : Nat × Nat), Memory.wf hb.data = true →
      Memory.wf (if e.1 < 8 then upsetBit (8 * (h.toNat / 64) + e.1) e.2 hb else hb).data = true := by
    intro hb e hw
    split
    · exact wf_upsetBit _ _ _ hw
    · exact hw
  exact .next (access_canonical (wf_foldl hupset upsets hwf))

theorem execHarbourWrite_canonical {port : BitVec 12} {h : BitVec 30} {data : Bytes} {poison : BitVec 8} (hwf : HarbourCanonical s) :
    CanonicalR (execHarbourWrite port h data poison s) :=
  .next (access_canonical hwf)

theorem execHarbourPartialWrite_canonical {port : BitVec 12} {h : BitVec 30} {data : Bytes} {poison : BitVec 8}
    (hwf : HarbourCanonical s) :
    CanonicalR (execHarbourPartialWrite port h data poison s) :=
  .next (access_canonical hwf)

theorem handOver_canonical {n : Nat} (hwf : HarbourCanonical s) : HarbourCanonical (handOver n s) := by
  unfold handOver
  extract_lets
  split
  · exact hwf
  · extract_lets s₁ s₂
    have hwf₁ : HarbourCanonical s₁ := (modSeg_only ..).canonical rfl hwf
    have hwf₂ : HarbourCanonical s₂ := by
      unfold s₂
      split
      · exact (poolReturn_only ..).canonical rfl ((modSeg_only ..).canonical rfl hwf)
      · exact (poolReturn_only ..).canonical rfl ((modSeg_only ..).canonical rfl hwf)
      · exact hwf₁
    split
    · exact finishDrain_canonical hwf₂
    · exact hwf₂

theorem execRegionClearDone_canonical {base : BitVec 30} (hwf : HarbourCanonical s) : CanonicalR (execRegionClearDone base s) := by
  unfold execRegionClearDone
  extract_lets
  split
  · exact .next hwf
  · extract_lets h' s₁ s₂
    have hwf₁ : HarbourCanonical s₁ := noteCleared_canonical (wf_hClear _ _ _ hwf)
    have hwf₂ : HarbourCanonical s₂ := .ite (handOver_canonical hwf₁) hwf₁
    exact .next (serveWaiting_canonical hwf₂)

theorem execBar4Access_canonical {i : Initiator} {x : BitVec 30} {len : Nat} {write : Option Bytes} (hwf : HarbourCanonical s) :
    CanonicalR (execBar4Access i x len write s) :=
  .ite (.next (access_canonical hwf)) (.next ((barDrop_only ..).canonical rfl hwf))

theorem execPatrolScrub_canonical {upsets : List (Nat × Nat)} (hwf : HarbourCanonical s) : CanonicalR (execPatrolScrub upsets s) :=
  .next (.foldl (fun _ _ h => touchGranule_canonical h) (wf_foldl (fun _ _ hw => wf_upsetBit _ _ _ hw) upsets hwf))

theorem abortKeys_canonical {unit : Nat} {keys : List (BitVec 64)} (hwf : HarbourCanonical s) :
    HarbourCanonical (abortKeys unit keys s) := by
  unfold abortKeys
  extract_lets as_ s₁ s₂
  have hwf₂ : HarbourCanonical s₂ := .foldl (fun _ _ h => stopRequest_canonical h) hwf
  exact .ite hwf ((raise_only ..).canonical rfl ((bump_only ..).canonical rfl hwf₂))

theorem sendAbort_canonical {unit : Nat} {keys : List (BitVec 64)} (hwf : HarbourCanonical s) :
    HarbourCanonical (sendAbort unit keys s) := by
  unfold sendAbort
  extract_lets s₁ s₂
  have hwf₁ : HarbourCanonical s₁ := .foldl (fun _ _ h => (sendCtl_only ..).canonical rfl h) hwf
  have hwf₂ : HarbourCanonical s₂ := abortKeys_canonical hwf₁
  exact .ite hwf (.ite ((raise_only ..).canonical rfl ((bump_only ..).canonical rfl hwf₂)) hwf₂)

theorem abortRunning_canonical {unit : Nat} (hwf : HarbourCanonical s) : HarbourCanonical (abortRunning unit s) :=
  sendAbort_canonical hwf

theorem gangLost_canonical {m : Nat} (hwf : HarbourCanonical s) : HarbourCanonical (gangLost m s) :=
  .ite (abortRunning_canonical ((startDisagree_only ..).canonical rfl hwf)) hwf

theorem loseLink_canonical {k : Nat} {accepted : BitVec 12} (hwf : HarbourCanonical s) : HarbourCanonical (loseLink k accepted s) := by
  unfold loseLink
  extract_lets l m st s₁
  have hwf₁ : HarbourCanonical s₁ := (setLink_only ..).canonical rfl ((modLink_only ..).canonical rfl hwf)
  split
  · exact hwf
  · split
    · exact gangLost_canonical hwf₁
    · exact .foldl (fun _ _ h => (resendOn_only ..).canonical rfl h) ((modLink_only ..).canonical rfl hwf₁)

theorem retireLane_canonical {k lane : Nat} (hwf : HarbourCanonical s) : HarbourCanonical (retireLane k lane s) := by
  unfold retireLane
  extract_lets s₁ bit s₂ s₃ s₄
  have hwf₁ : HarbourCanonical s₁ := (permanentEvent_only ..).canonical rfl hwf
  have hwf₂ : HarbourCanonical s₂ := (modLink_only ..).canonical rfl hwf₁
  have hwf₃ : HarbourCanonical s₃ := (modLink_only ..).canonical rfl hwf₂
  have hwf₄ : HarbourCanonical s₄ := (raise_only ..).canonical rfl ((setLink_only ..).canonical rfl ((modLink_only ..).canonical rfl
    hwf₃))
  exact .ite (.ite (gangLost_canonical hwf₄) hwf₄) hwf₃

theorem laneEpisode_canonical {k lane : Nat} (hwf : HarbourCanonical s) : HarbourCanonical (laneEpisode k lane s) := by
  unfold laneEpisode
  extract_lets fresh s₁
  have hwf₁ : HarbourCanonical s₁ := (modLink_only ..).canonical rfl hwf
  split
  · exact hwf
  · split
    · rename_i e₂
      have hwf₂ : HarbourCanonical _ := .of_fst e₂ ((countFailure_only ..).canonical rfl hwf₁)
      exact .ite (retireLane_canonical hwf₂) hwf₂

theorem execLaneCeInterval_canonical {half : Fin 14} {lane : Fin 4} (hwf : HarbourCanonical s) :
    CanonicalR (execLaneCeInterval half lane s) := by
  unfold execLaneCeInterval
  extract_lets k n s₁
  have hwf₁ : HarbourCanonical s₁ := (modLink_only ..).canonical rfl hwf
  exact .next (.ite (laneEpisode_canonical hwf₁) hwf₁)

theorem execLinkLost_canonical {half : Fin 14} {accepted : BitVec 12} (hwf : HarbourCanonical s) :
    CanonicalR (execLinkLost half accepted s) :=
  .next (loseLink_canonical hwf)

theorem execFlitReceive_canonical {half : Fin 14} {flit : Bytes} {badLanes : BitVec 4} {corrected : List Nat}
    (hwf : HarbourCanonical s) :
    CanonicalR (execFlitReceive half flit badLanes corrected s) := by
  unfold execFlitReceive
  extract_lets k l f s₁ s₂ head seq s₃
  have hwf₁ : HarbourCanonical s₁ := (addCorrected_only ..).canonical rfl hwf
  have hwf₂ : HarbourCanonical s₂ := (send_only ..).canonical rfl hwf₁
  have hwf₃ : HarbourCanonical s₃ := (acknowledge_only ..).canonical rfl ((modLink_only ..).canonical rfl hwf₁)
  split
  · exact .next hwf
  · split
    · split
      · exact .next (laneEpisode_canonical hwf₂)
      · exact .next hwf₂
    · exact .ite (.next hwf₁) (.ite (.next ((drainPackets_only ..).canonical rfl hwf₃)) (.next hwf₃))

theorem execManifestReceive_canonical {manifest : Bytes} (hwf : HarbourCanonical s) : CanonicalR (execManifestReceive manifest s) :=
  .ite (.next hwf) (.next (askReady_canonical ((afterManifest_only ..).canonical rfl hwf)))

theorem execSyncMessage_canonical {half : Fin 14} {t1 : BitVec 64} {t4 : Option (BitVec 64 × BitVec 64 × BitVec 64)}
    (hwf : HarbourCanonical s) :
    CanonicalR (execSyncMessage half t1 t4 s) := by
  unfold execSyncMessage
  extract_lets
  split
  · exact .next hwf
  · split
    · exact .next ((sendCtl_only ..).canonical rfl hwf)
    · exact .ite (.next hwf) (.next (askReady_canonical ((afterManifest_only ..).canonical rfl hwf)))

theorem memberLeaves_canonical {m : Nat} (hwf : HarbourCanonical s) : HarbourCanonical (memberLeaves m s) := by
  unfold memberLeaves
  extract_lets mine gangs s₁ s₂ s₃
  have hwf₁ : HarbourCanonical s₁ := .foldl (fun _ _ h => .ite h ((bump_only ..).canonical rfl ((cause_only ..).canonical rfl
    ((setGang_only ..).canonical rfl h)))) hwf
  have hwf₂ : HarbourCanonical s₂ := (raise_only ..).canonical rfl hwf₁
  have hwf₃ : HarbourCanonical s₃ := .ite ((bump_only ..).canonical rfl hwf₂) hwf₂
  exact abortRunning_canonical ((startDisagree_only ..).canonical rfl hwf₃)

theorem execSyncTimer_canonical {member : BitVec 3} {results : List Int} (hwf : HarbourCanonical s) :
    CanonicalR (execSyncTimer member results s) := by
  unfold execSyncTimer
  extract_lets m mine s₁
  have hwf₁ : HarbourCanonical s₁ := .ite ((sendCtl_only ..).canonical rfl hwf) hwf
  split
  · exact .next hwf
  · split
    · exact .next hwf₁
    · extract_lets ms found
      clear_value found
      split
      · exact .next (.ite hwf₁ hwf₁)
      · exact .ite (.next (.ite hwf₁ hwf₁)) (.next (memberLeaves_canonical hwf₁))

theorem execRequestReport_canonical {member : BitVec 3} {slot : Fin 64} {key : BitVec 64} {ctx : BitVec 32} (hwf : HarbourCanonical s)
    :
    CanonicalR (execRequestReport member slot key ctx s) :=
  .ite (.next (askReady_canonical ((addReport_only ..).canonical rfl hwf))) (.next hwf)

theorem execLaunchMessage_canonical {keys : List (BitVec 64)} {gen : BitVec 16} {tl : BitVec 64} (hwf : HarbourCanonical s) :
    CanonicalR (execLaunchMessage keys gen tl s) :=
  .ite (.next hwf) (.next (askReady_canonical (.ite ((bump_only ..).canonical rfl hwf) hwf)))

theorem execGroupLaunchAtTide_canonical {launch : Nat} (hwf : HarbourCanonical s) : CanonicalR (execGroupLaunchAtTide launch s) := by
  unfold execGroupLaunchAtTide
  split
  · exact .next hwf
  · split
    · exact .next hwf
    · exact .ite (.next hwf) (.ite (.next (refuseAgreed_canonical hwf)) (.next ((modLaunch_only ..).canonical rfl hwf)))

theorem execBarrierDeadline_canonical {launch : Nat} (hwf : HarbourCanonical s) : CanonicalR (execBarrierDeadline launch s) := by
  unfold execBarrierDeadline
  split
  · exact .next hwf
  · split
    · exact .ite (.next (askReady_canonical (sendAbort_canonical hwf))) (.next hwf)
    · exact .next hwf

theorem execReportTimeout_canonical {key : BitVec 64} (hwf : HarbourCanonical s) : CanonicalR (execReportTimeout key s) := by
  unfold execReportTimeout
  split
  · exact .next hwf
  · extract_lets silent
    clear_value silent
    split
    · exact .next hwf
    · exact .ite (.next (askReady_canonical (sendAbort_canonical hwf))) (.next hwf)

theorem execAbortMessage_canonical {keys : List (BitVec 64)} (hwf : HarbourCanonical s) : CanonicalR (execAbortMessage keys s) :=
  .next (askReady_canonical (abortKeys_canonical hwf))

theorem execShedStallTimeout_canonical {slot : Fin 64} {group : Fin 256} {member : BitVec 3} (hwf : HarbourCanonical s) :
    CanonicalR (execShedStallTimeout slot group member s) := by
  unfold execShedStallTimeout
  extract_lets
  split
  · exact .next hwf
  · exact .ite (.next hwf) (.ite (.ite (.next hwf) (.next (askReady_canonical (.foldl (fun _ _ h => stopRequest_canonical h) hwf)))) (.ite
      (.next ((sendCtl_only ..).canonical rfl ((bump_only ..).canonical rfl ((modMcast_only ..).canonical rfl hwf)))) (.next hwf)))

theorem dropCmd_canonical {a : Nat} (hwf : HarbourCanonical s) : HarbourCanonical (dropCmd a s) := by
  unfold dropCmd
  split
  · exact hwf
  · extract_lets s₁ _ s₂ s₃ _' s₄ s₅ n undo s₆
    have hwf₁ : HarbourCanonical s₁ := (modPair_only ..).canonical rfl hwf
    have hwf₃ : HarbourCanonical s₃ := revertKv_canonical (recallRequest_canonical hwf₁)
    have hwf₅ : HarbourCanonical s₅ := stopLoad_canonical hwf₃
    have hwf₆ : HarbourCanonical s₆ := .foldl (fun _ _ h => (modSlot_only ..).canonical rfl h) hwf₅
    exact hwf₆

theorem dropPair_canonical {q : Nat} (hwf : HarbourCanonical s) : HarbourCanonical (dropPair q s) :=
  (modPair_only ..).canonical rfl (.foldl (fun _ _ h => dropCmd_canonical h) hwf)

theorem portQueues_canonical {p : Port} (hwf : HarbourCanonical s) : HarbourCanonical (portQueues p s) :=
  .ite hwf (askReady_canonical (.foldl (fun _ _ h => dropPair_canonical h) hwf))

theorem portLinkDown_canonical {p : Port} (hwf : HarbourCanonical s) : HarbourCanonical (portLinkDown p s) :=
  (dropEngine_only ..).canonical rfl ((modPort_only ..).canonical rfl (portQueues_canonical hwf))

theorem execFunctionLevelReset_canonical {port : Port} (hwf : HarbourCanonical s) : CanonicalR (execFunctionLevelReset port s) :=
  .ite (.next (portQueues_canonical hwf)) (.next hwf)

theorem execPerstNAssert_canonical {port : Port} (hwf : HarbourCanonical s) : CanonicalR (execPerstNAssert port s) :=
  .next ((portOff_only ..).canonical rfl ((modPort_only ..).canonical rfl (portLinkDown_canonical hwf)))

theorem execPcieLinkDown_canonical {port : Port} (hwf : HarbourCanonical s) : CanonicalR (execPcieLinkDown port s) :=
  .ite (.next hwf) (.next (portLinkDown_canonical (.ite ((modDom_only ..).canonical rfl hwf) hwf)))

theorem execEngineHarbourAccess_canonical {addr : BitVec 64} {len : Nat} {write : Option Bytes} (hwf : HarbourCanonical s) :
    CanonicalR (execEngineHarbourAccess addr len write s) :=
  .ite (.next hwf) (.ite (.next ((send_only ..).canonical rfl hwf)) (.ite (.next (access_canonical hwf)) (.next ((barDrop_only
    ..).canonical rfl hwf))))

theorem execDownstreamWindowAccess_canonical {i : Initiator} {offset : BitVec 24} {write : Option Bytes} {engine : HostRead}
    (hwf : HarbourCanonical s) :
    CanonicalR (execDownstreamWindowAccess i offset write engine s) := by
  unfold execDownstreamWindowAccess
  extract_lets s₁ answer
  have hwf₁ : HarbourCanonical s₁ := .ite ((send_only ..).canonical rfl hwf) hwf
  split
  · exact .next hwf
  · split
    · exact .next (.ite ((send_only ..).canonical rfl hwf) hwf)
    · clear_value answer
      split
      · exact .next (.ite ((send_only ..).canonical rfl hwf₁) hwf₁)
      · exact .next (.ite ((send_only ..).canonical rfl hwf₁) hwf₁)
      · exact .next (.ite ((send_only ..).canonical rfl ((bump_only ..).canonical rfl hwf₁)) ((bump_only ..).canonical rfl hwf₁))

theorem execHostAccessError_canonical {a : Fin 4096} {e : AccessError} {detail : BitVec 16} (hwf : HarbourCanonical s) :
    CanonicalR (execHostAccessError a e detail s) := by
  unfold execHostAccessError
  split
  · exact .next hwf
  · extract_lets s₁ _ s₂ s₃
    have hwf₁ : HarbourCanonical s₁ := .ite ((modPort_only ..).canonical rfl hwf) hwf
    have hwf₃ : HarbourCanonical s₃ := .ite ((sendReport_only ..).canonical rfl hwf₁) hwf₁
    split
    · exact .next hwf₁
    · split
      · exact .next (askReady_canonical (stopRequest_canonical hwf₁))
      · split
        · exact .next (finish_canonical (undoLoad_canonical hwf₁))
        · exact .next (finishAt_canonical hwf₃)

end Sys2Proof.Laws
end

section
/-! SUPPORT. The Harbour's list of bytes stays canonical (R157, R162): the domain requests, the boot, the security and the dictionary. -/

namespace Sys2Proof.Laws

open Sys2Proof.Machine

variable {s : State}

/-- R430: a write with an effect of its own, from a queue or a management bus. -/
theorem ownWrite_canonical {i : Instr} {r : Requester} {obj arg : Nat} {data : Bytes} {f : Bytes → State → Nat × State}
    (hf : ∀ b x, HarbourCanonical x → HarbourCanonical (f b x).2) (hwf : HarbourCanonical s) :
    HarbourCanonical (ownWrite i r obj arg data f s) := by
  unfold ownWrite
  split
  · split
    · exact hwf
    · exact .ite hwf (finish_canonical (hf _ s hwf))
  · exact .ite ((holdMessage_only ..).canonical rfl hwf) (.ite (answer_canonical hwf) (answer_canonical (hf _ s hwf)))

theorem requestRow_canonical {i : Instr} {src : DomSource} {n : Nat} {t : PTarget} (hwf : HarbourCanonical s) :
    CanonicalR (requestRow i src n t s) := by
  unfold requestRow
  split
  · exact .ite (.next ((privDrop_only ..).canonical rfl hwf)) (.ite (.next hwf) (.next (.ite ((cause_only ..).canonical rfl hwf) (.ite
      ((domainRequest_only ..).canonical rfl hwf) ((domainRequest_only ..).canonical rfl hwf)))))
  · exact .ite (.next hwf) (.next (ownWrite_canonical (fun _ _ h => .ite2 ((domainRequest_only ..).canonical rfl h) h) hwf))
  · exact .ite (.next ((domainRequest_only ..).canonical rfl hwf)) (.next hwf)

theorem execDomainRequestOn_canonical {src : DomSource} {dom : Nat} (hwf : HarbourCanonical s) :
    CanonicalR (execDomainRequestOn src dom s) :=
  requestRow_canonical hwf

theorem execDomainRequestRet_canonical {src : DomSource} {dom : Nat} (hwf : HarbourCanonical s) :
    CanonicalR (execDomainRequestRet src dom s) :=
  requestRow_canonical hwf

theorem execDomainRequestOff_canonical {src : DomSource} {dom : Nat} (hwf : HarbourCanonical s) :
    CanonicalR (execDomainRequestOff src dom s) :=
  requestRow_canonical hwf

/-- R77, R482: the reset loses the Harbour. -/
theorem resetState_canonical {aux : Bool} : HarbourCanonical (resetState aux s) := rfl

theorem startReset_canonical {c : ResetCause} : HarbourCanonical (startReset c s) :=
  .ite ((assertFault_only ..).canonical rfl resetState_canonical) resetState_canonical

theorem execModuleReset_canonical {cause : ResetCause} (hwf : HarbourCanonical s) : CanonicalR (execModuleReset cause s) :=
  .ite (.next hwf) (.ite (.next hwf) (.next startReset_canonical))

theorem enterRecovery_canonical {reason : Nat} (hwf : HarbourCanonical s) : HarbourCanonical (enterRecovery reason s) := by
  unfold enterRecovery
  extract_lets _ s₁
  have hwf₁ : HarbourCanonical s₁ := (portOff_only ..).canonical rfl (portLinkDown_canonical hwf)
  exact (wakePort_only ..).canonical rfl ((assertFault_only ..).canonical rfl ((romRecord_only ..).canonical rfl hwf₁))

theorem execBootRomRun_canonical {unwrapOk : Bool} (hwf : HarbourCanonical s) : CanonicalR (execBootRomRun unwrapOk s) := by
  unfold execBootRomRun
  extract_lets s₁
  have hwf₁ : HarbourCanonical s₁ := (unwrapIdentity_only ..).canonical rfl hwf
  exact .ite (.next hwf) (.ite (.next (enterRecovery_canonical hwf₁)) (.next (.ite ((startFirmware_only ..).canonical rfl hwf₁)
    (enterRecovery_canonical hwf₁))))

theorem execRecoveryTimeout_canonical (hwf : HarbourCanonical s) : CanonicalR (execRecoveryTimeout s) :=
  .ite (.next (enterRecovery_canonical hwf)) (.next hwf)

theorem bootErase_canonical {n : Nat} (hwf : HarbourCanonical s) : HarbourCanonical (bootErase n s) :=
  .ite hwf (queueOp_canonical ((modBank_only ..).canonical rfl hwf))

theorem execUzomelReady_canonical {lost : List Nat} (hwf : HarbourCanonical s) : CanonicalR (execUzomelReady lost s) := by
  unfold execUzomelReady
  extract_lets s₁ s₂ s₃ s₄ _ s₅ s₆
  have hwf₂ : HarbourCanonical s₂ := .foldl (fun _ _ h => (loseObject_only ..).canonical rfl h) hwf
  have hwf₃ : HarbourCanonical s₃ := .foldl (fun _ _ h => bootErase_canonical h) hwf₂
  have hwf₄ : HarbourCanonical s₄ := (syncRegisters_only ..).canonical rfl hwf₃
  have hwf₆ : HarbourCanonical s₆ := .ite ((raise_only ..).canonical rfl hwf₄) hwf₄
  exact .ite (.next hwf) (.next ((raiseRefetch_only ..).canonical rfl ((wakeLinks_only ..).canonical rfl hwf₆)))

theorem execSecFwStage_canonical {r : Requester} {image : Bytes} (hwf : HarbourCanonical s) :
    CanonicalR (execSecFwStage r image s) :=
  .next (ownWrite_canonical (fun _ _ h => .ite2 ((stageWrite_only ..).canonical rfl h) h) hwf)

theorem execSecFwCommit_canonical {r : Requester} {data : Bytes} (hwf : HarbourCanonical s) :
    CanonicalR (execSecFwCommit r data s) :=
  .next (ownWrite_canonical (fun _ _ h => .ite2 ((commitFirmware_only ..).canonical rfl h) h) hwf)

theorem execFwSlotWriteDone_canonical {ok : Bool} (hwf : HarbourCanonical s) : CanonicalR (execFwSlotWriteDone ok s) := by
  unfold execFwSlotWriteDone
  extract_lets s₁ s₂
  have hwf₂ : HarbourCanonical s₂ := .ite ((setStageStatus_only ..).canonical rfl ((slotWritten_only ..).canonical rfl hwf))
    ((setStageStatus_only ..).canonical rfl ((slotSpoilt_only ..).canonical rfl hwf))
  exact .ite (.next hwf) (.next (.ite startReset_canonical hwf₂))

theorem execSecModuleReset_canonical {r : Requester} {data : Bytes} (hwf : HarbourCanonical s) :
    CanonicalR (execSecModuleReset r data s) :=
  .next (ownWrite_canonical (fun _ _ h => .ite2 ((resetWrite_only ..).canonical rfl h) h) hwf)

theorem execSecPolicyWrite_canonical {r : Requester} {data : Bytes} (hwf : HarbourCanonical s) :
    CanonicalR (execSecPolicyWrite r data s) :=
  .next (ownWrite_canonical (fun _ _ h => (policyWrite_only ..).canonical rfl h) hwf)

theorem execPubkeyWrite_canonical {r : Requester} {slot : Nat} {data : Bytes} (hwf : HarbourCanonical s) :
    CanonicalR (execPubkeyWrite r slot data s) :=
  .next (ownWrite_canonical (fun _ _ h => (keyWrite_only ..).canonical rfl h) hwf)

theorem pairWrite_canonical {r : Requester} {q : Nat} {b : Bytes} (hwf : HarbourCanonical s) :
    HarbourCanonical (pairWrite r q b s).2 :=
  .ite2 hwf (.ite2 (disableRecord_canonical hwf) ((enableRecord_only ..).canonical rfl hwf))

/-- What holds of the first of two optional values and of the second holds of the one that is taken. -/
theorem of_ite_some {β : Type} {P : β → Prop} {c : Prop} [Decidable c] {g : β} {o : Option β} (hg : P g)
    (ho : ∀ f, o = some f → P f) : ∀ f, (if c then some g else o) = some f → P f := by
  intro f e
  split at e
  · cases e
    exact hg
  · exact ho f e

/-- R427: the effect of a write on the object that it names. -/
def KeepsCanonical (f : Bytes → State → Nat × State) : Prop := ∀ b x, HarbourCanonical x → HarbourCanonical (f b x).2

theorem effectWrite_canonical (r : Requester) (obj arg : Nat) : ∀ f, effectWrite r obj arg = some f → KeepsCanonical f :=
  of_ite_some (fun _ _ h => (commitWrite_only ..).canonical rfl h) <|
  of_ite_some (fun _ _ h => (clearWrite_only ..).canonical rfl h) <|
  of_ite_some (fun _ _ h => (domainWrite_only ..).canonical rfl h) <|
  of_ite_some (fun _ _ h => pairWrite_canonical h) <|
  of_ite_some (fun _ _ h => (configWrite_only ..).canonical rfl h) <|
  of_ite_some (fun _ _ h => (policyWrite_only ..).canonical rfl h) <|
  of_ite_some (fun _ _ h => (stageWrite_only ..).canonical rfl h) <|
  of_ite_some (fun _ _ h => (commitFirmware_only ..).canonical rfl h) <|
  of_ite_some (fun _ _ h => (resetWrite_only ..).canonical rfl h) <|
  of_ite_some (fun _ _ h => (keyWrite_only ..).canonical rfl h) nofun

theorem writeObject_canonical {r : Requester} {obj arg : Nat} {b : Bytes} (hwf : HarbourCanonical s) :
    HarbourCanonical (writeObject r obj arg b s).2 := by
  unfold writeObject
  split
  · exact hwf
  · refine .ite2 hwf (.ite2 hwf ?_)
    split
    · rename_i e
      exact effectWrite_canonical _ _ _ _ e _ _ hwf
    · exact (plainWrite_only ..).canonical rfl hwf

theorem execDictRead_canonical {a : Fin 4096} {hash : HostRead} (hwf : HarbourCanonical s) : CanonicalR (execDictRead a hash s) := by
  unfold execDictRead
  extract_lets
  split
  · exact .next hwf
  · extract_lets
    split
    · exact .next hwf
    · split
      · exact .next (finishAt_canonical hwf)
      · split
        · exact .next (finishAt_canonical hwf)
        · extract_lets s₁
          have hwf₁ : HarbourCanonical s₁ := (sendPort_only ..).canonical rfl hwf
          exact .ite (.next (finish_canonical hwf)) (.next (finish_canonical ((afterRead_only ..).canonical rfl hwf₁)))

theorem execDictWrite_canonical {a : Fin 4096} {value : HostRead} (hwf : HarbourCanonical s) :
    CanonicalR (execDictWrite a value s) := by
  unfold execDictWrite
  split
  · exact .next hwf
  · extract_lets
    split
    · exact .next hwf
    · split
      · exact .next (finishAt_canonical hwf)
      · split
        · rename_i e₁
          have hwf₁ : HarbourCanonical _ := .of_snd e₁ (writeObject_canonical hwf)
          exact .next (finish_canonical hwf₁)

theorem execQueuePairEnable_canonical {w : QpWrite} (hwf : HarbourCanonical s) : CanonicalR (execQueuePairEnable w s) := by
  unfold execQueuePairEnable
  split
  · exact .ite (.next hwf) (.next (ownWrite_canonical (fun _ _ h => pairWrite_canonical h) hwf))
  · exact .next (admCtrlWrite_canonical hwf)

theorem execQueuePairDisable_canonical {w : QpWrite} (hwf : HarbourCanonical s) : CanonicalR (execQueuePairDisable w s) := by
  unfold execQueuePairDisable
  split
  · exact .ite (.next hwf) (.next (ownWrite_canonical (fun _ _ h => pairWrite_canonical h) hwf))
  · exact .next (admCtrlWrite_canonical hwf)

theorem execCfgCommit_canonical {r : Requester} {data : Bytes} (hwf : HarbourCanonical s) : CanonicalR (execCfgCommit r data s) :=
  .next (ownWrite_canonical (fun _ _ h => (commitWrite_only ..).canonical rfl h) hwf)

theorem execMonClear_canonical {r : Requester} {data : Bytes} (hwf : HarbourCanonical s) : CanonicalR (execMonClear r data s) :=
  .next (ownWrite_canonical (fun _ _ h => (clearWrite_only ..).canonical rfl h) hwf)

theorem execMctpDictWrite_canonical {ep : Nat} {tag flags : Byte} {index : BitVec 16} {sub : Byte} {argument : BitVec 64} {offset :
    BitVec 32} {data : Bytes} (hwf : HarbourCanonical s) :
    CanonicalR (execMctpDictWrite ep tag flags index sub argument offset data s) := by
  unfold execMctpDictWrite
  extract_lets
  split
  · exact .next hwf
  · split
    · exact .next ((holdMessage_only ..).canonical rfl hwf)
    · split
      · exact .next ((mctpWriteAnswer_only ..).canonical rfl hwf)
      · split
        · exact .next ((mctpWriteAnswer_only ..).canonical rfl hwf)
        · split
          · exact .next ((mctpWriteAnswer_only ..).canonical rfl ((dropPieces_only ..).canonical rfl hwf))
          · split
            · split
              · rename_i e₁
                have hwf₁ : HarbourCanonical _ := .of_snd e₁ (writeObject_canonical ((dropPieces_only ..).canonical rfl hwf))
                exact .next ((mctpWriteAnswer_only ..).canonical rfl hwf₁)
            · exact .next ((mctpWriteAnswer_only ..).canonical rfl hwf)

end Sys2Proof.Laws
end

section
/-! SUPPORT. The Harbour's list of bytes stays canonical (R157, R162): the power domains, the supply and the registers. -/

namespace Sys2Proof.Laws

open Sys2Proof.Machine

variable {s : State}

theorem linkAsleep_canonical {keep : Bool} {k : Nat} {st : LinkState} (hwf : HarbourCanonical s) :
    HarbourCanonical (linkAsleep keep k st s) := by
  unfold linkAsleep
  extract_lets l m was bare next s₁ s₂
  have hwf₁ : HarbourCanonical s₁ := (modLink_only ..).canonical rfl hwf
  have hwf₂ : HarbourCanonical s₂ := .ite hwf₁ ((setLink_only ..).canonical rfl hwf₁)
  exact .ite (gangLost_canonical hwf₂) hwf₂

theorem linkBoth_canonical {keep : Bool} {n : Nat} {st : LinkState} (hwf : HarbourCanonical s) :
    HarbourCanonical (linkBoth keep n st s) :=
  linkAsleep_canonical (linkAsleep_canonical hwf)

theorem segLost_canonical {g : Nat} (hwf : HarbourCanonical s) : HarbourCanonical (segLost g s) := wf_hClear _ _ _ hwf

theorem domLost_canonical {n : Nat} (hwf : HarbourCanonical s) : HarbourCanonical (domLost n s) := by
  unfold domLost
  split
  · exact (islandLost_only ..).canonical rfl hwf
  · exact segLost_canonical hwf
  · exact (modCluster_only ..).canonical rfl hwf
  · exact linkBoth_canonical hwf
  · exact hwf

theorem serveMessage_canonical {i : Instr} (hwf : HarbourCanonical s) : HarbourCanonical (serveMessage i s) := by
  unfold serveMessage
  split
  · exact ((execGetVersion_only _ _ _).canonicalR rfl hwf).after hwf
  · exact ((execGetCapabilities_only _ _ _).canonicalR rfl hwf).after hwf
  · exact ((execNegotiateAlgorithms_only _ _ _ _ _).canonicalR rfl hwf).after hwf
  · exact ((execGetDigests_only _ _ _).canonicalR rfl hwf).after hwf
  · exact ((execGetCertificate_only _ _ _ _ _ _).canonicalR rfl hwf).after hwf
  · exact ((execChallenge_only _ _ _ _).canonicalR rfl hwf).after hwf
  · exact ((execGetMeasurements_only _ _ _ _ _ _).canonicalR rfl hwf).after hwf
  · exact ((execChunkSend_only _ _ _ _).canonicalR rfl hwf).after hwf
  · exact ((execChunkGet_only _ _ _).canonicalR rfl hwf).after hwf
  · exact ((execPqSign_only _ _ _).canonicalR rfl hwf).after hwf
  · exact (execSecFwStage_canonical hwf).after hwf
  · exact (execSecFwCommit_canonical hwf).after hwf
  · exact (execSecModuleReset_canonical hwf).after hwf
  · exact (execSecPolicyWrite_canonical hwf).after hwf
  · exact (execPubkeyWrite_canonical hwf).after hwf
  · exact (execQueuePairEnable_canonical hwf).after hwf
  · exact (execQueuePairDisable_canonical hwf).after hwf
  · exact (execCfgCommit_canonical hwf).after hwf
  · exact (execMonClear_canonical hwf).after hwf
  · exact (execDomainRequestOn_canonical hwf).after hwf
  · exact (execDomainRequestRet_canonical hwf).after hwf
  · exact (execDomainRequestOff_canonical hwf).after hwf
  · exact ((execMctpDictRead_only _ _ _ _ _ _ _ _ _ _).canonicalR rfl hwf).after hwf
  · exact (execMctpDictWrite_canonical hwf).after hwf
  · exact hwf

theorem coreWakes_canonical (hwf : HarbourCanonical s) : HarbourCanonical (coreWakes s) := by
  unfold coreWakes
  extract_lets s₁ s₂
  have hwf₁ : HarbourCanonical s₁ := (modDom_only ..).canonical rfl ((modDom_only ..).canonical rfl hwf)
  have hwf₂ : HarbourCanonical s₂ := (raiseRefetch_only ..).canonical rfl ((driftOverSleep_only ..).canonical rfl hwf₁)
  exact serveWaiting_canonical (.foldl (fun _ _ h => serveMessage_canonical h) hwf₂)

theorem wakeEffects_canonical {n : Nat} {was : PState} {tests : List (Nat × KsResult)} (hwf : HarbourCanonical s) :
    HarbourCanonical (wakeEffects n was tests s) := by
  unfold wakeEffects
  extract_lets s₁ tests s₂ g s₃ hs back s₄
  have hwf₁ : HarbourCanonical s₁ := (islandReload_only ..).canonical rfl hwf
  have hwf₂ : HarbourCanonical s₂ := .foldl (fun _ _ h => (fullTest_only ..).canonical rfl h) hwf₁
  have hwf₃ : HarbourCanonical s₃ := .ite hwf (segLost_canonical hwf)
  have hwf₄ : HarbourCanonical s₄ := by
    unfold s₄
    split
    · exact hwf₃
    · split
      · exact (poolReturn_only ..).canonical rfl hwf₃
      · exact (poolReturn_only ..).canonical rfl hwf₃
      · exact hwf₃
  split
  · exact (firstWake_only ..).canonical rfl hwf₂
  · exact serveWaiting_canonical hwf₄
  · exact coreWakes_canonical hwf
  · exact .ite ((linkAwake_only ..).canonical rfl ((linkAwake_only ..).canonical rfl hwf)) hwf
  · exact hwf

theorem execDomainWakeDone_canonical {dom : Nat} {tests : List (Nat × KsResult)} (hwf : HarbourCanonical s) :
    CanonicalR (execDomainWakeDone dom tests s) := by
  unfold execDomainWakeDone
  extract_lets d s₁
  have hwf₁ : HarbourCanonical s₁ := (modDom_only ..).canonical rfl hwf
  exact .ite .fault (.ite (.next hwf) (.next ((runQueued_only ..).canonical rfl ((cause_only ..).canonical rfl (wakeEffects_canonical
    hwf₁)))))

theorem execDomainDownDone_canonical {dom : Nat} (hwf : HarbourCanonical s) : CanonicalR (execDomainDownDone dom s) := by
  unfold execDomainDownDone
  extract_lets s₁
  have hwf₁ : HarbourCanonical s₁ := by
    unfold s₁
    split
    · exact domLost_canonical hwf
    · exact (coreRests_only ..).canonical rfl hwf
    · exact linkBoth_canonical hwf
    · exact hwf
  split
  · exact .fault
  · split
    · exact .next ((runQueued_only ..).canonical rfl ((cause_only ..).canonical rfl ((modDom_only ..).canonical rfl hwf₁)))
    · exact .next ((runQueued_only ..).canonical rfl ((cause_only ..).canonical rfl ((modDom_only ..).canonical rfl (domLost_canonical
        hwf))))
    · exact .next hwf

theorem segFailed_canonical {g : Nat} (hwf : HarbourCanonical s) : HarbourCanonical (segFailed g s) := by
  unfold segFailed
  extract_lets s₁ hit _ s₂ w
  have hwf₁ : HarbourCanonical s₁ := (dropCopies_only ..).canonical rfl ((dropFree_only ..).canonical rfl hwf)
  clear_value w
  split
  · exact finishSt_canonical ((modSeg_only ..).canonical rfl hwf₁)
  · exact (modSeg_only ..).canonical rfl hwf₁

theorem wakeFailed_canonical {n : Nat} (hwf : HarbourCanonical s) : HarbourCanonical (wakeFailed n s) := by
  unfold wakeFailed
  extract_lets
  split
  · exact .ite ((moduleFault_only ..).canonical rfl hwf) (serveWaiting_canonical (segFailed_canonical hwf))
  · exact (retireCluster_only ..).canonical rfl ((setHistory_only ..).canonical rfl hwf)
  · exact (moduleFault_only ..).canonical rfl hwf
  · exact portLinkDown_canonical hwf
  · exact (raise_only ..).canonical rfl ((setLink_only ..).canonical rfl (linkBoth_canonical hwf))
  · exact hwf

theorem execWakeStepTimeout_canonical {dom : Nat} (hwf : HarbourCanonical s) : CanonicalR (execWakeStepTimeout dom s) := by
  unfold execWakeStepTimeout
  extract_lets d s₁ s₂ s₃
  have hwf₁ : HarbourCanonical s₁ := .ite (domLost_canonical hwf) hwf
  have hwf₂ : HarbourCanonical s₂ := (modDom_only ..).canonical rfl hwf₁
  have hwf₃ : HarbourCanonical s₃ := (cause_only ..).canonical rfl ((raise_only ..).canonical rfl ((bump_only ..).canonical rfl hwf₂))
  exact .ite .fault (.ite (.next hwf) (.ite (.next ((modDom_only ..).canonical rfl hwf₁)) (.next ((runQueued_only ..).canonical rfl
    (wakeFailed_canonical hwf₃)))))

theorem execTjSample_canonical {key : Nat} {quarterDegrees : Int} (hwf : HarbourCanonical s) :
    CanonicalR (execTjSample key quarterDegrees s) := by
  unfold execTjSample
  extract_lets logic v s₁ s₂ _ s₃ s₄
  have hwf₁ : HarbourCanonical s₁ := (sample_only ..).canonical rfl hwf
  have hwf₂ : HarbourCanonical s₂ := .ite ((logicHeat_only ..).canonical rfl hwf₁) ((islandHeat_only ..).canonical rfl hwf₁)
  have hwf₃ : HarbourCanonical s₃ := .ite hwf₂ hwf₂
  have hwf₄ : HarbourCanonical s₄ := (thermPin_only ..).canonical rfl hwf₃
  exact .ite .fault (.ite (.next hwf) (.next (.ite startReset_canonical hwf₄)))

theorem execTideSourceChange_canonical {present : Bool} (hwf : HarbourCanonical s) : CanonicalR (execTideSourceChange present s) := by
  unfold execTideSourceChange
  extract_lets _ _' s₁ s₂ s₃
  have hwf₂ : HarbourCanonical s₂ := .ite ((raise_only ..).canonical rfl hwf) hwf
  have hwf₃ : HarbourCanonical s₃ := .ite (.foldl (fun _ _ h => .ite ((setLink_only ..).canonical rfl h) h) hwf₂) hwf₂
  exact .ite (.next hwf) (.ite (.next (.ite ((wakeLinks_only ..).canonical rfl hwf₃) hwf₃)) (.next (.foldl (fun _ _ h =>
    linkBoth_canonical h) hwf₂)))

theorem wordStore_canonical {i : Initiator} {o : Nat} {v : BitVec 32} (hwf : HarbourCanonical s) :
    HarbourCanonical (wordStore i o v s) := by
  unfold wordStore
  extract_lets
  split
  · exact hwf
  · exact hwf
  · exact (statusClear_only ..).canonical rfl hwf
  · exact (crcRefWrite_only ..).canonical rfl hwf
  · exact (holdWrite_only ..).canonical rfl hwf
  · exact (dirtyPass_only ..).canonical rfl hwf
  · exact (dirtyPass_only ..).canonical rfl ((capWrite_only ..).canonical rfl hwf)
  · exact hwf
  · exact (domReqWrite_only ..).canonical rfl hwf
  · exact (dirtyPass_only ..).canonical rfl ((splitWrite_only ..).canonical rfl hwf)
  · exact admCtrlWrite_canonical hwf
  · exact (awlCtrlWrite_only ..).canonical rfl hwf
  · exact (causeClear_only ..).canonical rfl hwf
  · exact hwf
  · exact hwf
  · exact hwf
  · exact .ite ((seqError_only ..).canonical rfl hwf) (.ite ((awlRegWrite_only ..).canonical rfl hwf) hwf)

theorem openStore_canonical {i : Initiator} {o : Nat} {v : BitVec 32} (hwf : HarbourCanonical s) :
    HarbourCanonical (openStore i o v s) :=
  .ite ((setHalf_only ..).canonical rfl ((pairStore_only ..).canonical rfl hwf)) (wordStore_canonical hwf)

theorem regStore_canonical {i : Initiator} {o : Nat} {v : BitVec 32} (hwf : HarbourCanonical s) :
    HarbourCanonical (regStore i o v s) := by
  unfold regStore
  split
  · exact hwf
  · exact (privDrop_only ..).canonical rfl hwf
  · exact (domainOff_only ..).canonical rfl hwf
  · exact .ite ((setHalf_only ..).canonical rfl hwf) (.ite (openStore_canonical hwf) (.ite ((cause_only ..).canonical rfl hwf) (.ite
      (openStore_canonical hwf) (openStore_canonical hwf))))

theorem kindWrite_canonical {ok : Nat → Bool} {i : Initiator} {offset : BitVec 24} {v : BitVec 32} (hwf : HarbourCanonical s) :
    CanonicalR (kindWrite ok i offset v s) :=
  .ite (.next hwf) (.ite (.next ((badAccess_only ..).canonical rfl hwf)) (.next (regStore_canonical hwf)))

theorem plainStore_canonical {i : Initiator} {o : Nat} {v : BitVec 32} (hwf : HarbourCanonical s) :
    HarbourCanonical (plainStore i o v s) :=
  .ite ((msixWrite_only ..).canonical rfl hwf) (regStore_canonical hwf)

theorem wideStore_canonical {i : Initiator} {o : Nat} {value : BitVec 64} (hwf : HarbourCanonical s) :
    HarbourCanonical (wideStore i o value s) :=
  .ite (regStore_canonical (regStore_canonical hwf)) (plainStore_canonical (plainStore_canonical hwf))

theorem execRegWrite_canonical {i : Initiator} {offset : BitVec 24} {size : Nat} {value : BitVec 64} (hwf : HarbourCanonical s) :
    CanonicalR (execRegWrite i offset size value s) :=
  .ite (.next hwf) (.ite (.next ((badAccess_only ..).canonical rfl hwf)) (.ite (.ite (.next hwf) (.next (regStore_canonical hwf))) (.ite
    (.next (plainStore_canonical hwf)) (.ite (.next (wideStore_canonical hwf)) (.next ((badAccess_only ..).canonical rfl hwf))))))

theorem execMwWrite_canonical {i : Initiator} {offset : BitVec 24} {value : BitVec 32} (hwf : HarbourCanonical s) :
    CanonicalR (execMwWrite i offset value s) :=
  kindWrite_canonical hwf

theorem execPairHiWrite_canonical {i : Initiator} {offset : BitVec 24} {value : BitVec 32} (hwf : HarbourCanonical s) :
    CanonicalR (execPairHiWrite i offset value s) :=
  kindWrite_canonical hwf

theorem execPairLoWrite_canonical {i : Initiator} {offset : BitVec 24} {value : BitVec 32} (hwf : HarbourCanonical s) :
    CanonicalR (execPairLoWrite i offset value s) :=
  kindWrite_canonical hwf

theorem execW1cWrite_canonical {i : Initiator} {offset : BitVec 24} {value : BitVec 32} (hwf : HarbourCanonical s) :
    CanonicalR (execW1cWrite i offset value s) :=
  kindWrite_canonical hwf

theorem execConfigRegWrite_canonical {i : Initiator} {offset : BitVec 24} {value : BitVec 32} (hwf : HarbourCanonical s) :
    CanonicalR (execConfigRegWrite i offset value s) :=
  kindWrite_canonical hwf

theorem execCfgCrcRefWrite_canonical {i : Initiator} {value : BitVec 32} (hwf : HarbourCanonical s) :
    CanonicalR (execCfgCrcRefWrite i value s) :=
  kindWrite_canonical hwf

theorem execCfgHoldWrite_canonical {i : Initiator} {value : BitVec 32} (hwf : HarbourCanonical s) :
    CanonicalR (execCfgHoldWrite i value s) :=
  kindWrite_canonical hwf

theorem execTideAlarmWrite_canonical {i : Initiator} {lo : BitVec 32} (hwf : HarbourCanonical s) :
    CanonicalR (execTideAlarmWrite i lo s) :=
  kindWrite_canonical hwf

end Sys2Proof.Laws
end

section
/-! SUPPORT. The Harbour's list of bytes stays canonical (R157, R162): every command, every step. -/

namespace Sys2Proof.Laws

open Sys2Proof.Machine

variable {s : State}

/-- Every command keeps the canonical form: by its own lemma where its meaning may write the Harbour, else by its frame. -/
theorem exec_canonical (c : Instr) (hwf : HarbourCanonical s) : CanonicalR (exec c s) := by
  unfold exec
  split
  · exact (execAuxPowerUp_only s).canonicalR rfl hwf
  · exact (execMainPowerUp_only s).canonicalR rfl hwf
  · exact (execModuleResetEnd_only _ s).canonicalR rfl hwf
  · exact execModuleReset_canonical hwf
  · exact (execBootOscTimeout_only s).canonicalR rfl hwf
  · exact execBootRomRun_canonical hwf
  · exact execUzomelReady_canonical hwf
  · exact execRecoveryTimeout_canonical hwf
  · exact (execSecRcvGo_only _ _ _ s).canonicalR rfl hwf
  · exact (execRecoveryImageDone_only _ s).canonicalR rfl hwf
  · exact (execRequestUpdate_only s).canonicalR rfl hwf
  · exact (execPassComponentTable_only _ s).canonicalR rfl hwf
  · exact (execUpdateComponent_only _ _ s).canonicalR rfl hwf
  · exact (execRequestFirmwareData_only _ _ s).canonicalR rfl hwf
  · exact (execTransferComplete_only _ s).canonicalR rfl hwf
  · exact (execVerifyComplete_only s).canonicalR rfl hwf
  · exact (execApplyComplete_only _ s).canonicalR rfl hwf
  · exact (execActivateFirmware_only s).canonicalR rfl hwf
  · exact (execCancelUpdate_only s).canonicalR rfl hwf
  · exact (execGetVersion_only _ _ s).canonicalR rfl hwf
  · exact (execGetCapabilities_only _ _ s).canonicalR rfl hwf
  · exact (execNegotiateAlgorithms_only _ _ _ _ s).canonicalR rfl hwf
  · exact (execGetDigests_only _ _ s).canonicalR rfl hwf
  · exact (execGetCertificate_only _ _ _ _ _ s).canonicalR rfl hwf
  · exact (execChallenge_only _ _ _ s).canonicalR rfl hwf
  · exact (execGetMeasurements_only _ _ _ _ _ s).canonicalR rfl hwf
  · exact (execChunkSend_only _ _ _ s).canonicalR rfl hwf
  · exact (execChunkGet_only _ _ s).canonicalR rfl hwf
  · exact (execPqSign_only _ _ s).canonicalR rfl hwf
  · exact execSecFwStage_canonical hwf
  · exact execSecFwCommit_canonical hwf
  · exact execFwSlotWriteDone_canonical hwf
  · exact execSecModuleReset_canonical hwf
  · exact execSecPolicyWrite_canonical hwf
  · exact execPubkeyWrite_canonical hwf
  · exact execSubmissionRead_canonical hwf
  · exact execDuplicateReplay_canonical hwf
  · exact (execSqTailDoorbell_only _ _ _ s).canonicalR rfl hwf
  · exact (execCqHeadDoorbell_only _ _ _ s).canonicalR rfl hwf
  · exact (execInterruptTimer_only _ s).canonicalR rfl hwf
  · exact execInfer_canonical hwf
  · exact execInferComplete_canonical hwf
  · exact execCtxOpen_canonical hwf
  · exact (execCtxClose_only _ s).canonicalR rfl hwf
  · exact execCtxCloseRelease_canonical hwf
  · exact (execCtxSave_only _ s).canonicalR rfl hwf
  · exact execCtxSaveWrite_canonical hwf
  · exact execCtxRestore_canonical hwf
  · exact execCancel_canonical hwf
  · exact (execFence_only _ s).canonicalR rfl hwf
  · exact execFenceRelease_canonical hwf
  · exact execLoadManifest_canonical hwf
  · exact execLoadShard_canonical hwf
  · exact execVerifyPassDone_canonical hwf
  · exact execProgramPassDone_canonical hwf
  · exact execCommitImage_canonical hwf
  · exact execDropImage_canonical hwf
  · exact (execRefetchReminder_only s).canonicalR rfl hwf
  · exact execSwapStage_canonical hwf
  · exact execSwapSwitch_canonical hwf
  · exact execSwapAbort_canonical hwf
  · exact (execGroupSwitchTide_only _ s).canonicalR rfl hwf
  · exact execGenerationRetire_canonical hwf
  · exact execLayerRewriteDone_canonical hwf
  · exact execPlace_canonical hwf
  · exact execAttach_canonical hwf
  · exact execBindQueue_canonical hwf
  · exact execBindSegment_canonical hwf
  · exact execDetach_canonical hwf
  · exact execRelease_canonical hwf
  · exact execUnbindSegment_canonical hwf
  · exact execBindDrainEnd_canonical hwf
  · exact (execLastSlotFreed_only _ s).canonicalR rfl hwf
  · exact execSegmentHandover_canonical hwf
  · exact (execSharedSegmentTake_only _ s).canonicalR rfl hwf
  · exact (execSharedSegmentReturn_only _ s).canonicalR rfl hwf
  · exact execRePlacement_canonical hwf
  · exact execDictRead_canonical hwf
  · exact execDictWrite_canonical hwf
  · exact execQueuePairEnable_canonical hwf
  · exact execQueuePairDisable_canonical hwf
  · exact (execQueuePairDisabled_only _ s).canonicalR rfl hwf
  · exact execCfgCommit_canonical hwf
  · exact execMonClear_canonical hwf
  · exact (execMctpDictRead_only _ _ _ _ _ _ _ _ _ s).canonicalR rfl hwf
  · exact execMctpDictWrite_canonical hwf
  · exact (execMctpSnapshotExpiry_only _ s).canonicalR rfl hwf
  · exact (execMctpWriteTimeout_only _ s).canonicalR rfl hwf
  · exact execRegWrite_canonical hwf
  · exact execMwWrite_canonical hwf
  · exact (execPairLoRead_only _ _ s).canonicalR rfl hwf
  · exact execPairHiWrite_canonical hwf
  · exact execPairLoWrite_canonical hwf
  · exact execW1cWrite_canonical hwf
  · exact execConfigRegWrite_canonical hwf
  · exact execCfgCrcRefWrite_canonical hwf
  · exact execCfgHoldWrite_canonical hwf
  · exact (execHoldLongTimer_only s).canonicalR rfl hwf
  · exact (execCheckPassEnd_only s).canonicalR rfl hwf
  · exact (execConfigActivate_only s).canonicalR rfl hwf
  · exact (execXdomCrossingDone_only s).canonicalR rfl hwf
  · exact execTideAlarmWrite_canonical hwf
  · exact (execTideAlarmFire_only s).canonicalR rfl hwf
  · exact (execTideEpochOpen_only s).canonicalR rfl hwf
  · exact (execAwlCplPop_only _ s).canonicalR rfl hwf
  · exact (execAwlBankSelWrite_only _ _ _ s).canonicalR rfl hwf
  · exact execAwlUnlockStep_canonical hwf
  · exact (execAwlWideWrite_only _ _ _ s).canonicalR rfl hwf
  · exact execAwlStrayByte_canonical hwf
  · exact execProgramRow_canonical hwf
  · exact execProgramWord_canonical hwf
  · exact execEraseBank_canonical hwf
  · exact execTopUpRow_canonical hwf
  · exact execReadRow_canonical hwf
  · exact execReadMargin_canonical hwf
  · exact (execSetComputeMode_only _ _ s).canonicalR rfl hwf
  · exact (execSetStorageMode_only _ _ s).canonicalR rfl hwf
  · exact execSealBank_canonical hwf
  · exact (execMarkBank_only _ _ s).canonicalR rfl hwf
  · exact (execReadStatus_only _ _ s).canonicalR rfl hwf
  · exact (execResetToRead_only _ _ s).canonicalR rfl hwf
  · exact (execSuspend_only _ _ s).canonicalR rfl hwf
  · exact execResume_canonical hwf
  · exact execAwlOpStart_canonical hwf
  · exact execAwlOpComplete_canonical hwf
  · exact (execEraseStarvation_only _ s).canonicalR rfl hwf
  · exact execLaunchAdmit_canonical hwf
  · exact execFerryDescriptorIssue_canonical hwf
  · exact execFerrySlotStart_canonical hwf
  · exact (execSlabFillStart_only _ _ s).canonicalR rfl hwf
  · exact execSlabPush_canonical hwf
  · exact execRequestDeadlinePass_canonical hwf
  · exact execLaceEntryReceive_canonical hwf
  · exact execHandleRelease_canonical hwf
  · exact execSlabCleared_canonical hwf
  · exact execCancelledSlabRecall_canonical hwf
  · exact execRowGroupStart_canonical hwf
  · exact (execPulseCycleEnd_only _ _ _ s).canonicalR rfl hwf
  · exact execWeltAccept_canonical hwf
  · exact execLongSumReceive_canonical hwf
  · exact (execRecomputeReceive_only _ s).canonicalR rfl hwf
  · exact execShankTileBoundary_canonical hwf
  · exact execStreamReadRow_canonical hwf
  · exact execCoverStart_canonical hwf
  · exact execHarbourRead_canonical hwf
  · exact execHarbourWrite_canonical hwf
  · exact execHarbourPartialWrite_canonical hwf
  · exact execRegionClearDone_canonical hwf
  · exact execPatrolScrub_canonical hwf
  · exact execBar4Access_canonical hwf
  · exact (execSoundHop_only _ _ _ s).canonicalR rfl hwf
  · exact (execHandshakeWatchdog_only _ s).canonicalR rfl hwf
  · exact (execCeBucketDrain_only _ s).canonicalR rfl hwf
  · exact (execDriftAgeTick_only s).canonicalR rfl hwf
  · exact execTopupRunStart_canonical hwf
  · exact execTopupResume_canonical hwf
  · exact execFullKnownSumTest_canonical hwf
  · exact (execMarginSample_only _ _ s).canonicalR rfl hwf
  · exact (execKsPeriodTimer_only _ s).canonicalR rfl hwf
  · exact (execIdleWindowOpen_only _ _ s).canonicalR rfl hwf
  · exact (execForceAfterTimer_only _ s).canonicalR rfl hwf
  · exact (execColumnRetestTimer_only _ _ s).canonicalR rfl hwf
  · exact execRebuildCycle_canonical hwf
  · exact (execRerunBucketRoll_only s).canonicalR rfl hwf
  · exact (execPoweredTimeStore_only s).canonicalR rfl hwf
  · exact execDomainRequestOn_canonical hwf
  · exact execDomainRequestRet_canonical hwf
  · exact execDomainRequestOff_canonical hwf
  · exact (execDomainIdleRetTimer_only _ s).canonicalR rfl hwf
  · exact (execDomainIdleOffTimer_only _ s).canonicalR rfl hwf
  · exact (execDomainDrainEnd_only _ s).canonicalR rfl hwf
  · exact execWakeStepTimeout_canonical hwf
  · exact execDomainWakeDone_canonical hwf
  · exact execDomainDownDone_canonical hwf
  · exact (execPowerSample_only _ s).canonicalR rfl hwf
  · exact (execGovernorPeriodEnd_only s).canonicalR rfl hwf
  · exact execTjSample_canonical hwf
  · exact (execVcoreSample_only _ s).canonicalR rfl hwf
  · exact (execOccupancySample_only s).canonicalR rfl hwf
  · exact (execVcoreWarningTrip_only s).canonicalR rfl hwf
  · exact (execVcoreRecover_only s).canonicalR rfl hwf
  · exact (execDipHoldEnd_only _ s).canonicalR rfl hwf
  · exact (execDipResume_only s).canonicalR rfl hwf
  · exact execTideSourceChange_canonical hwf
  · exact execFunctionLevelReset_canonical hwf
  · exact execPerstNAssert_canonical hwf
  · exact (execPerstNRelease_only _ s).canonicalR rfl hwf
  · exact execPcieLinkDown_canonical hwf
  · exact (execD3hotEntry_only _ s).canonicalR rfl hwf
  · exact (execD0Return_only _ s).canonicalR rfl hwf
  · exact (execRootPortEnumerate_only _ s).canonicalR rfl hwf
  · exact (execEngineInterruptWrite_only _ s).canonicalR rfl hwf
  · exact execEngineHarbourAccess_canonical hwf
  · exact execDownstreamWindowAccess_canonical hwf
  · exact (execLinkTraining_only _ _ _ _ _ s).canonicalR rfl hwf
  · exact (execLinkTrained_only _ s).canonicalR rfl hwf
  · exact execManifestReceive_canonical hwf
  · exact execFlitReceive_canonical hwf
  · exact execLaneCeInterval_canonical hwf
  · exact (execLinkRetrainDone_only _ s).canonicalR rfl hwf
  · exact (execNakReceive_only _ _ s).canonicalR rfl hwf
  · exact execLinkLost_canonical hwf
  · exact execSyncTimer_canonical hwf
  · exact execSyncMessage_canonical hwf
  · exact (execSlewTick_only s).canonicalR rfl hwf
  · exact (execGroupCommit_only s).canonicalR rfl hwf
  · exact execRequestReport_canonical hwf
  · exact execLaunchMessage_canonical hwf
  · exact execGroupLaunchAtTide_canonical hwf
  · exact execBarrierDeadline_canonical hwf
  · exact execReportTimeout_canonical hwf
  · exact execAbortMessage_canonical hwf
  · exact (execMcastGrant_only _ _ _ _ s).canonicalR rfl hwf
  · exact (execMcastPush_only _ _ _ s).canonicalR rfl hwf
  · exact (execMcastCredit_only _ _ _ _ s).canonicalR rfl hwf
  · exact execShedStallTimeout_canonical hwf
  · exact (execCoreWatchdogExpiry_only _ _ s).canonicalR rfl hwf
  · exact execHostAccessError_canonical hwf
  · exact (execPcieLinkUp_only _ _ _ _ s).canonicalR rfl hwf
  · exact (execSuspendTakesEffect_only _ s).canonicalR rfl hwf

theorem step_canonical (hwf : HarbourCanonical s) : CanonicalR (step s) := by
  unfold step
  split
  · exact .next ((tick_only s).canonical rfl hwf)
  · exact exec_canonical _ hwf

/-- Settles O6: each operation that may write the Harbour is made of writes of whole runs, clears, bit flips and write-backs, which keep
the form (Laws/Memory.lean), and every other command leaves the Harbour by its frame. -/
theorem harbourListStaysCanonical : Obligations.HarbourListStaysCanonical :=
  fun _ t hwf hstep => step_canonical hwf t hstep

end Sys2Proof.Laws
end

section
/-! SUPPORT. INFER and INFER_COMPLETE (R246, R345, R361, R362, R402): each outcome as one equation, settled. -/

namespace Sys2Proof

open Sys2Proof.Machine

theorem Only.cmds_eq {P : List Part} {s t : State} (h : Only P s t) (hq : Part.que ∉ P) : t.que.cmds = s.que.cmds := by
  have hrest : { t.que with held := s.que.held } = s.que := h.2 .que hq
  exact (congrArg Que.cmds hrest :)

/-- The queues but for the messages held for a port. -/
theorem Only.setQue (s : State) (q : Que) (hheld : q.held = s.que.held) : Only [.que] s { s with que := q } := by
  refine ⟨⟨rfl, rfl, rfl, rfl⟩, fun p hp => ?_⟩
  cases p
  case que => exact absurd (List.mem_singleton.2 rfl) hp
  case held => exact hheld
  case gov | events | monitors => exact ⟨rfl, rfl, rfl⟩
  all_goals rfl

end Sys2Proof

namespace Sys2Proof.Laws

open Sys2Proof.Machine

theorem cmds_of_cmdAt {s : State} {a op : Nat} {c : Cmd} (h : cmdAt s a op = some c) : tget? s.que.cmds a = some c := by
  unfold cmdAt at h
  split at h
  next hfound =>
    split at h
    · exact hfound.trans h
    · cases h
  next => cases h

theorem setStage_reqs (a : Nat) (st : CmdStage) (s : State) : (setStage a st s).que.reqs = s.que.reqs := by
  unfold setStage
  split <;> rfl

theorem setStage_cmds {a : Nat} {c : Cmd} {s : State} (h : tget? s.que.cmds a = some c) (st : CmdStage) :
    tget? (setStage a st s).que.cmds a = some { c with stage := st } := by
  simp [setStage, h]

/-! ## INFER (R246, R361, R362) -/

/-- R361, R362: the request of an INFER whose fields pass. -/
def inferRequest (s : State) (c : Cmd) (n : Nat) (p : LastPlan) (fs : List IoField) : Req :=
  { slot := n, ctx := entArg c.entry, gen := (slotOf s n).gen, vectors := ioVectors p fs, deadline := inferDeadline s (pairOf s c.pair) c
    streams := fs.map fun f => f.io, step := 0, asked := false, barred := false, written := 0, poison := 0, late := false
    stopped := none, discarded := false, done := false, kvTaken := [], left := 0, taken := 0 }

/-- R246: the request is entered, the context's record takes the generation, and the command runs. -/
def inferEntered (a : Nat) (c : Cmd) (n : Nat) (r : Req) (s : State) : State :=
  setStage a .running (ctxWrite (entArg c.entry) 4 (leBytes 2 (slotOf s n).gen.toNat)
    { s with que := { s.que with reqs := tset s.que.reqs a r } })

/-- R402: the request of a group's Last is reported. -/
def inferStarted (a : Nat) (c : Cmd) (n : Nat) (r : Req) (s : State) : State :=
  if groupLast (inferEntered a c n r s) n then
    reportRequest n (entArg c.entry) (BitVec.ofNat 64 (entKey c.entry)) (inferEntered a c n r s)
  else inferEntered a c n r s

theorem inferEntered_spec {a : Nat} {c : Cmd} {s : State} (hc : tget? s.que.cmds a = some c) (n : Nat) (r : Req) :
    let u := inferEntered a c n r s
    tget? u.que.reqs a = some r ∧ tget? u.que.cmds a = some { c with stage := .running } ∧ Only [.que, .hbr] s u := by
  have hwrite := ctxWrite_only (entArg c.entry) 4 (leBytes 2 (slotOf s n).gen.toNat)
    { s with que := { s.que with reqs := tset s.que.reqs a r } }
  have henter : Only [.que] s { s with que := { s.que with reqs := tset s.que.reqs a r } } := Only.setQue s _ rfl
  refine ⟨?_, setStage_cmds ?_ _, ((henter.mono rfl).trans (hwrite.mono rfl)).trans ((setStage_only _ _ _).mono rfl)⟩
  · rw [inferEntered, setStage_reqs, hwrite.reqs_eq (by decide)]
    exact tget?_tset_self ..
  · rw [hwrite.cmds_eq (by decide)]
    exact hc

theorem inferStarted_spec {a : Nat} {c : Cmd} {s : State} (hc : tget? s.que.cmds a = some c) (n : Nat) (r : Req) :
    let u := inferStarted a c n r s
    tget? u.que.reqs a = some r ∧ tget? u.que.cmds a = some { c with stage := .running } ∧ Only [.que, .hbr, .strait, .out] s u := by
  obtain ⟨hreqs, hcmds, honly⟩ := inferEntered_spec hc n r
  unfold inferStarted
  dsimp only
  split
  · have hreport := reportRequest_only n (entArg c.entry) (BitVec.ofNat 64 (entKey c.entry)) (inferEntered a c n r s)
    rw [hreport.reqs_eq (by decide), hreport.cmds_eq (by decide)]
    exact ⟨hreqs, hcmds, (honly.mono rfl).trans (hreport.mono rfl)⟩
  · exact ⟨hreqs, hcmds, honly.mono rfl⟩

/-- R391: a Last of this module alone, or of the group's size, is launched. -/
theorem not_otherSize {m g : Nat} (h : m ≤ 1 ∨ m = g) : (decide (1 < m) && decide (m ≠ g)) = false := by
  simp only [Bool.and_eq_false_iff, decide_eq_false_iff_not]
  omega

section Infer

variable {a : Fin 4096} {list : HostRead} {c : Cmd} {n : Nat} {p : LastPlan} {s : State} (hc : cmdAt s a.val 1 = some c)
  (hslot : groupSlot s c.group.toNat = some n) (hplan : (slotOf s n).plan = some p)
include hc hslot hplan

theorem execInfer_otherSize (hgroup : 1 < (slotOf s n).modules) (hsize : (slotOf s n).modules ≠ groupSize s) :
    execInfer a list s = .next (finishSt a.val St.groupQuarantined s) := by
  simp [execInfer, hc, hslot, hplan, hgroup, hsize]

variable (hsize : (slotOf s n).modules ≤ 1 ∨ (slotOf s n).modules = groupSize s)
  (hready : runWaits s (listRun c.entry).1 (listRun c.entry).2 = false)
include hsize hready

theorem execInfer_faulty {st d : Nat} (hfields : inferFields s (pairOf s c.pair) p c.entry list = .inl (st, d)) :
    execInfer a list s = .next (finishAt a.val st d s) := by
  simp only [execInfer, hc, hslot, hplan, hready, hfields, not_otherSize hsize, Bool.false_eq_true, if_false]

theorem execInfer_starts {fs : List IoField} (hfields : inferFields s (pairOf s c.pair) p c.entry list = .inr fs) :
    execInfer a list s = .next (askReady (inferStarted a.val c n (inferRequest s c n p fs) s)) := by
  simp only [execInfer, hc, hslot, hplan, hready, hfields, not_otherSize hsize, Bool.false_eq_true, if_false]
  rfl

end Infer

/-! ## INFER_COMPLETE (R193 to R195, R345, R360) -/

section InferComplete

variable {a : Fin 4096} {r : Req} {s : State} (hr : tget? s.que.reqs a.val = some r) (hlive : r.stopped = none)
  (hdone : inferDone s r = true)
include hr hlive hdone

theorem execInferComplete_inTime (htime : r.deadline = none ∨ ∃ d, r.deadline = some d ∧ (tideOf s).toNat ≤ d.toNat)
    (hlate : r.late = false) : execInferComplete a s = .next (askReady (finish a.val
      { status := St.success, result := inferResult r, poison := r.poison }
      (modReq a.val (fun r => { r with done := true }) (advanceContext s r)))) := by
  obtain hnone | ⟨d, hd, hle⟩ := htime
  · simp [execInferComplete, hr, hlive, hdone, hnone, hlate]
  · simp [execInferComplete, hr, hlive, hdone, hd, Nat.not_lt.2 hle, hlate]

theorem execInferComplete_missed {d : BitVec 64} (hd : r.deadline = some d) (hpast : d.toNat < (tideOf s).toNat)
    (hkeeps : reqDiscards s a.val = false) : execInferComplete a s = .next (askReady (finish a.val
      { status := St.deadlineMissed, result := inferResult r, poison := r.poison }
      (modReq a.val (fun r => { r with done := true }) (advanceContext (countMiss a.val (bump (ob 0x4052 1) s)) r)))) := by
  simp [execInferComplete, hr, hlive, hdone, hd, hpast, hkeeps]

end InferComplete

/-- Settles O24: each outcome of the two commands is one equation, and the request, its command's stage and the frame are followed
through the small updates of an entered request. -/
theorem inferCommands : Obligations.InferCommands := by
  refine ⟨fun a list c n p fs s hc hslot hplan hsize hready hfields => ?starts,
    fun a list c n p st d s hc hslot hplan hsize hready hfields => execInfer_faulty hc hslot hplan hsize hready hfields,
    fun a list c n p s hc hslot hplan hgroup hsize => ⟨_, s, execInfer_otherSize hc hslot hplan hgroup hsize, rfl, rfl⟩,
    fun a r s hr hlive hdone hlate htime => execInferComplete_inTime hr hlive hdone htime hlate,
    fun a r d s hr hlive hdone hd hpast hkeeps => ?missed⟩
  case starts =>
    obtain ⟨hreqs, hcmds, honly⟩ := inferStarted_spec (cmds_of_cmdAt hc) n (inferRequest s c n p fs)
    exact ⟨_, execInfer_starts hc hslot hplan hsize hready hfields, hreqs, hcmds, honly⟩
  case missed =>
    refine ⟨_, execInferComplete_missed hr hlive hdone hd hpast hkeeps, ?_⟩
    exact ((((bump_only ..).mono rfl).trans ((countMiss_only ..).mono rfl)).trans ((advanceContext_only ..).mono rfl)).trans
      ((modReq_only ..).mono rfl)

end Sys2Proof.Laws
end

section
/-! SUPPORT. Changing the use of a segment (R159 to R161, R164, R219, R354): what begins a change, the handover, SHARED segments, settled. -/

namespace Sys2Proof

open Sys2Proof.Machine

theorem Only.segOf_eq {P : List Part} {s t : State} (h : Only P s t) (hp : Part.segs ∉ P) (n : Nat) : segOf t n = segOf s n :=
  congrArg (fun l => tget l n ({} : Segment)) (h.2 .segs hp)

theorem Only.pools_eq {P : List Part} {s t : State} (h : Only P s t) (hp : Part.flow ∉ P) : t.flow.pools = s.flow.pools :=
  congrArg Flow.pools (h.2 .flow hp)

/-- The Harbour is in two parts of the frame, its segments and the rest. -/
theorem Only.hbr_eq {P : List Part} {s t : State} (h : Only P s t) (hh : Part.hbr ∉ P) (hg : Part.segs ∉ P) : t.hbr = s.hbr := by
  have hrest : { t.hbr with segs := s.hbr.segs } = s.hbr := h.2 .hbr hh
  have hsegs : t.hbr.segs = s.hbr.segs := h.2 .segs hg
  rw [← hsegs] at hrest
  exact hrest

end Sys2Proof

namespace Sys2Proof.Laws

open Sys2Proof.Machine

/-- R161 step 1: no pool keeps a handle of the segment. -/
theorem dropFree_pools (n : Nat) (s : State) : ∀ p ∈ (dropFree n s).flow.pools, ∀ h ∈ p.2, inSeg n h = false := by
  intro p hp h hh
  obtain ⟨q, -, rfl⟩ := List.mem_map.1 hp
  exact (Bool.not_eq_true' _).mp (List.mem_filter.1 hh).2

/-- R161: the change is noted with its waiter, and the segment's free handles have left the pools. -/
theorem segChange_spec (n : Nat) (use : SegUse) (holder : Nat) (waiter : Option Nat) (s : State) :
    let u := segChange n use holder waiter s
    segOf u n = { segOf s n with next := some (use, BitVec.ofNat 16 holder), waiter } ∧
    (∀ p ∈ u.flow.pools, ∀ h ∈ p.2, inSeg n h = false) ∧ Only [.doms, .cause, .counters, .model, .flow, .segs] s u := by
  have hwake := wantOn_only (domSeg n)
    (modSeg n (fun g => { g with next := some (use, BitVec.ofNat 16 holder), waiter }) (dropCopies n (dropFree n s)))
  refine ⟨?_, ?_, segChange_only n use holder waiter s⟩
  · rw [segChange, hwake.segOf_eq (by decide), segOf_modSeg_self]
    rfl
  · rw [segChange, hwake.pools_eq (by decide)]
    exact dropFree_pools n s

section Command

variable {a : Fin 4096} {c : Cmd} {s : State}

theorem execBindSegment_outside (hc : cmdSub s a.val 0x18 3 = some c) (hwaits : bindWaits s c = false)
    (hn : entArg c.entry < 2 ∨ 15 < entArg c.entry) :
    execBindSegment a s = .next (finish a.val { status := St.outOfRange, detail := 4 } s) := by
  have houtside : (decide (entArg c.entry < 2) || decide (15 < entArg c.entry)) = true := by simpa using hn
  simp only [execBindSegment, hc, hwaits, houtside, Bool.false_eq_true, if_false, if_true, finishAt]

theorem execBindSegment_host (hc : cmdSub s a.val 0x18 3 = some c) (hwaits : bindWaits s c = false) (hlow : 2 ≤ entArg c.entry)
    (hhigh : entArg c.entry ≤ 15) (huse : fld c.entry 0x10 1 = 5) (hlive : domState s (domSeg (entArg c.entry)) ≠ .failed)
    (hspare : onlySegment s (entArg c.entry) = false) (hrings : pairInSeg s (entArg c.entry) = false)
    (hsettled : (segOf s (entArg c.entry)).next = none) : execBindSegment a s =
      .next (startDrain a.val (!segHeld s (entArg c.entry)) (segChange (entArg c.entry) .host 0xFFFF (some a.val) s)) := by
  simp [execBindSegment, hc, hwaits, huse, Nat.not_lt.2 hlow, Nat.not_lt.2 hhigh, hlive, hspare, hrings, hsettled]

variable (hc : cmdSub s a.val 0x19 2 = some c) (hwaits : bindWaits s c = false) (hlow : 2 ≤ entArg c.entry)
  (hhigh : entArg c.entry ≤ 15)
include hc hwaits hlow hhigh

/-- R476: a FAILED segment holds nothing: it is FREE at once. -/
theorem execUnbindSegment_failed (hfailed : domState s (domSeg (entArg c.entry)) = .failed) :
    execUnbindSegment a s = .next (finish a.val { status := St.success, result := 0 } (modSeg (entArg c.entry)
      (fun _ => { use := .free, holder := 0xFFFF, next := none, waiter := none })
      (dropCopies (entArg c.entry) (dropFree (entArg c.entry) s)))) := by
  simp [execUnbindSegment, hc, hwaits, Nat.not_lt.2 hlow, Nat.not_lt.2 hhigh, hfailed]

theorem execUnbindSegment_busy (hlive : domState s (domSeg (entArg c.entry)) ≠ .failed)
    (hbusy : pairInSeg s (entArg c.entry) = true ∨ (segOf s (entArg c.entry)).next ≠ none) :
    execUnbindSegment a s = .next (finishSt a.val St.segmentBusy s) := by
  have hheld : (pairInSeg s (entArg c.entry) || (segOf s (entArg c.entry)).next.isSome) = true := by
    simpa [Option.isSome_iff_ne_none] using hbusy
  have hinside : (decide (entArg c.entry < 2) || decide (15 < entArg c.entry)) = false := by
    simp [Nat.not_lt.2 hlow, Nat.not_lt.2 hhigh]
  have hsound : (domState s (domSeg (entArg c.entry)) == .failed) = false := beq_false_of_ne hlive
  simp only [execUnbindSegment, hc, hwaits, hinside, hsound, hheld, Bool.false_eq_true, if_false, if_true]

theorem execUnbindSegment_begins (hlive : domState s (domSeg (entArg c.entry)) ≠ .failed)
    (hidle : ¬(pairInSeg s (entArg c.entry) = true ∨ (segOf s (entArg c.entry)).next ≠ none)) : execUnbindSegment a s =
      .next (startDrain a.val (!segHeld s (entArg c.entry)) (segChange (entArg c.entry) .free 0xFFFF (some a.val) s)) := by
  obtain ⟨hrings, hsettled⟩ := not_or.1 hidle
  simp [execUnbindSegment, hc, hwaits, Nat.not_lt.2 hlow, Nat.not_lt.2 hhigh, hlive, eq_false_of_ne_true hrings, not_not.1 hsettled]

end Command

section Row

variable {seg : Fin 16} {s : State}

/-- R161: the last held handle has returned. -/
def handedOver (n : Nat) (s : State) : State :=
  match (segOf s n).waiter with
  | some a => endDrain a s
  | none => s

theorem handedOver_only (n : Nat) (s : State) : Only [.que] s (handedOver n s) := by
  unfold handedOver
  split
  · exact endDrain_only _ s
  · exact .refl _ s

theorem execSegmentHandover_clears (hchange : (segOf s seg.val).next.isSome = true) (hfree : segHeld s seg.val = false)
    (hon : domIsOn s (domSeg seg.val) = true) (hclear : underClear s (seg.val * 2 ^ 26) = false) :
    execSegmentHandover seg s = .next { handedOver seg.val s with hbr := { (handedOver seg.val s).hbr with
      clears := (handedOver seg.val s).hbr.clears ++ [(seg.val * 2 ^ 26, 2 ^ 26)] } } := by
  have hsome : (segOf s seg.val).next.isNone = false := by rw [← Option.not_isSome, hchange]; rfl
  unfold execSegmentHandover
  dsimp only
  rw [if_neg (by simp [hsome, hfree, hon, hclear, -Nat.reducePow])]
  rfl

theorem execSegmentHandover_held (h : segHeld s seg.val = true) : execSegmentHandover seg s = .next s := by
  simp [execSegmentHandover, h]

/-- The SHARED segments, with those on their way to it (R160). -/
def sharedHeld (s : State) : Nat :=
  ((List.range 16).filter fun i => (segOf s i).use == .shared || (segOf s i).next == some (.shared, 0xFFFF)).length

variable (hsettled : (segOf s seg.val).next = none)
include hsettled

theorem execSharedSegmentTake_free (hlow : 2 ≤ seg.val) (huse : (segOf s seg.val).use = .free)
    (hlive : domState s (domSeg seg.val) ≠ .failed) : execSharedSegmentTake seg s =
      .next (if sharedNeeded s = true ∧ sharedHeld s < sharedLimit s then segChange seg.val .shared 0xFFFF none s else s) := by
  have hguard : (sharedNeeded s && decide (2 ≤ seg.val) && (segOf s seg.val).use == .free && (segOf s seg.val).next.isNone &&
      !(domState s (domSeg seg.val) == .failed) && decide (sharedHeld s < sharedLimit s)) = true ↔
      sharedNeeded s = true ∧ sharedHeld s < sharedLimit s := by
    simp [hlow, huse, hsettled, hlive]
  by_cases h : sharedNeeded s = true ∧ sharedHeld s < sharedLimit s
  · rw [if_pos h]
    exact if_pos (hguard.2 h)
  · rw [if_neg h]
    exact if_neg (mt hguard.1 h)

theorem execSharedSegmentReturn_unused (huse : (segOf s seg.val).use = .shared)
    (hcovers : ∀ c ∈ s.model.covers, ∀ h ∈ c.2.slabs, inSeg seg.val h = false)
    (hcache : ∀ e ∈ s.model.cache, ∀ h ∈ e.2, inSeg seg.val h = false) :
    execSharedSegmentReturn seg s = .next (segChange seg.val .free 0xFFFF none s) := by
  have hunused : ((s.model.covers.any fun c => c.2.slabs.any (inSeg seg.val)) || s.model.cache.any fun e => e.2.any (inSeg seg.val)) = false := by
    simpa [List.any_eq_false] using And.intro hcovers hcache
  simp [execSharedSegmentReturn, huse, hsettled, hunused]

end Row

/-- Settles O31: each outcome is one equation on its command; that a change of use is noted and empties the pools is one lemma for the
four rows that begin one. -/
theorem segmentCommands : Obligations.SegmentCommands := by
  refine ⟨fun a c s hc hwaits hlow hhigh huse hlive hspare hrings hsettled => ?host,
    fun a c s hc hwaits hn => execBindSegment_outside hc hwaits hn, fun a c s hc hwaits hlow hhigh => ?unbind,
    fun seg s hchange hfree hon hclear => ?handover, fun seg s => execSegmentHandover_held,
    fun seg s hlow huse hsettled hlive => ?take, fun seg s huse hsettled hcovers hcache => ?back⟩
  case host =>
    exact ⟨_, execBindSegment_host hc hwaits hlow hhigh huse hlive hspare hrings hsettled, segChange_spec _ .host 0xFFFF _ s⟩
  case unbind =>
    split
    next hfailed =>
      refine ⟨_, _, execUnbindSegment_failed hc hwaits hlow hhigh hfailed, rfl, segOf_modSeg_self .., ?_⟩
      exact (((dropFree_only ..).mono rfl).trans ((dropCopies_only ..).mono rfl)).trans ((modSeg_only ..).mono rfl)
    next hlive =>
      split
      next hbusy => exact ⟨_, s, execUnbindSegment_busy hc hwaits hlow hhigh hlive hbusy, rfl, rfl⟩
      next hidle =>
        obtain ⟨hseg, -, honly⟩ := segChange_spec (entArg c.entry) .free 0xFFFF (some a.val) s
        exact ⟨_, execUnbindSegment_begins hc hwaits hlow hhigh hlive hidle, hseg, honly⟩
  case handover =>
    have hexec := execSegmentHandover_clears hchange hfree hon hclear
    refine ⟨_, hexec, ?_, (execSegmentHandover_only seg s _ hexec).mono rfl⟩
    exact congrArg (fun h : Harbour => h.clears ++ _) ((handedOver_only seg.val s).hbr_eq (by decide) (by decide))
  case take =>
    have hexec := execSharedSegmentTake_free hsettled hlow huse hlive
    obtain ⟨hseg, -, honly⟩ := segChange_spec seg.val .shared 0xFFFF none s
    dsimp only
    split
    next h => exact ⟨_, hexec.trans (congrArg _ (if_pos h)), by rw [hseg]; rfl, honly⟩
    next h => exact hexec.trans (congrArg _ (if_neg h))
  case back =>
    obtain ⟨hseg, -, honly⟩ := segChange_spec seg.val .free 0xFFFF none s
    exact ⟨_, execSharedSegmentReturn_unused hsettled huse hcovers hcache, by rw [hseg]; rfl, honly⟩

end Sys2Proof.Laws
end

section
/-! SUPPORT. The words and bytes of the Harbour after an upset, its correction, and the write of a granule (R162, R163, R321 to R323). -/

namespace Sys2Proof.Laws

open Sys2Proof.Machine

/-! ## Rising tables -/

theorem mem_of_mem_tkeys_tdel {α : Type} {t : Tab α} {n m : Nat} (h : m ∈ tkeys (tdel t n)) : m ∈ tkeys t := by
  induction t with
  | nil => exact h
  | cons e t ih =>
    obtain ⟨k, w⟩ := e
    simp only [tdel] at h
    split at h
    · exact List.mem_cons_of_mem k h
    · obtain rfl | h := List.mem_cons.1 h
      · exact List.mem_cons_self
      · exact List.mem_cons_of_mem k (ih h)

/-- A write keeps a table rising. -/
theorem rising_tset {α : Type} {t : Tab α} (n : Nat) (v : α) (hup : (tkeys t).Pairwise (· < ·)) :
    (tkeys (tset t n v)).Pairwise (· < ·) := by
  induction t with
  | nil => exact List.pairwise_singleton ..
  | cons e t ih =>
    obtain ⟨k, w⟩ := e
    obtain ⟨hfirst, hrest⟩ := List.pairwise_cons.1 hup
    simp only [tset]
    split
    next hlt => exact List.pairwise_cons.2 ⟨fun m hm => by
      obtain rfl | hm := List.mem_cons.1 hm
      · exact hlt
      · exact hlt.trans (hfirst m hm), hup⟩
    next hge =>
      split
      next heq => exact heq ▸ hup
      next hne => exact List.pairwise_cons.2 ⟨fun m hm => ((mem_tkeys_tset ..).1 hm).elim (fun h => by omega) (hfirst m), ih hrest⟩

/-- A removal keeps a table rising. -/
theorem rising_tdel {α : Type} {t : Tab α} (n : Nat) (hup : (tkeys t).Pairwise (· < ·)) : (tkeys (tdel t n)).Pairwise (· < ·) := by
  induction t with
  | nil => exact hup
  | cons e t ih =>
    obtain ⟨k, w⟩ := e
    obtain ⟨hfirst, hrest⟩ := List.pairwise_cons.1 hup
    simp only [tdel]
    split
    · exact hrest
    · exact List.pairwise_cons.2 ⟨fun m hm => hfirst m (mem_of_mem_tkeys_tdel hm), ih hrest⟩

/-- An entry that was not listed is gone again once it is removed. -/
theorem tget?_tdel_tset {α : Type} {t : Tab α} {n : Nat} (v : α) (h : tget? t n = none) : tget? (tdel (tset t n v) n) n = none := by
  induction t with
  | nil => simp [tset, tdel, tget?]
  | cons e t ih =>
    obtain ⟨k, w⟩ := e
    have hk : k ≠ n := fun hk => by simp [tget?, hk] at h
    have hrest : tget? t n = none := by simpa [tget?, hk] using h
    simp only [tset]
    split
    · simp [tdel, tget?, hk, hrest]
    · simp [hk.symm, tdel, tget?, hk, ih hrest]

/-! ## Syndromes -/

theorem tget_devSet_ne {t : Tab (BitVec 8)} {n m : Nat} (v : BitVec 8) (h : m ≠ n) : tget (devSet t n v) m 0 = tget t m 0 := by
  unfold devSet
  split
  · rw [tget, tget?_tdel_ne t h, tget]
  · exact tget_tset_ne t v 0 h

theorem tget_devSet_self {t : Tab (BitVec 8)} (hup : (tkeys t).Pairwise (· < ·)) (n : Nat) (v : BitVec 8) :
    tget (devSet t n v) n 0 = v := by
  unfold devSet
  split
  next hv => rw [tget, tget?_tdel_self hup, hv]; rfl
  next => exact tget_tset_self t n v 0

theorem rising_devSet {t : Tab (BitVec 8)} (n : Nat) (v : BitVec 8) (hup : (tkeys t).Pairwise (· < ·)) :
    (tkeys (devSet t n v)).Pairwise (· < ·) := by
  unfold devSet
  split
  · exact rising_tdel n hup
  · exact rising_tset n v hup

theorem wordSyn_invalid {h : Harbour} {w : Nat} (hv : isValid h (w / 8) = false) : wordSyn h w = 0 := by simp [wordSyn, hv]

theorem wordSyn_unlisted {h : Harbour} {w : Nat} (hw : tget? h.dev w = none) : wordSyn h w = 0 := by simp [wordSyn, tget, hw]

theorem wordBad_clean {h : Harbour} {w : Nat} (hw : wordSyn h w = 0) : wordBad h w = false := by rw [wordBad, hw]; rfl

theorem byteAt_clean {h : Harbour} {a : Nat} (hw : wordSyn h (a / 8) = 0) : byteAt h a = rawByte h a := by rw [byteAt, hw]; rfl

theorem byteAt_poison {h : Harbour} {a : Nat} (hw : wordSyn h (a / 8) = 0xFF) : byteAt h a = rawByte h a := by rw [byteAt, hw]; rfl

theorem hRead_congr {g h : Harbour} {a len : Nat} (hbyte : ∀ b, byteAt g b = byteAt h b) : hRead g a len = hRead h a len :=
  List.map_congr_left fun _ _ => hbyte _

/-! ## One upset and its correction (R321, R323) -/

/-- R320, R321: the column of a data bit decodes to that bit. -/
theorem eccDecode_column : ∀ b < 64, eccDecode (BitVec.ofNat 8 (hCols.getD b 0)) = .dataBit b := by decide +kernel

theorem column_ne_zero : ∀ b < 64, BitVec.ofNat 8 (hCols.getD b 0) ≠ 0 := by decide +kernel

section Upset

variable {h : Harbour} {w b : Nat} (hv : isValid h (w / 8) = true) (hw : tget? h.dev w = none) (hb : b < 64)
include hv hw hb

/-- An upset of a data bit of a word without error: the byte flipped, the bit's column as the syndrome. -/
theorem upsetBit_data : upsetBit w b h =
    { h with data := cellSet h.data (8 * w + b / 8) (cellGet h.data (8 * w + b / 8) ^^^ BitVec.ofNat 8 (2 ^ (b % 8)))
             dev := tset h.dev w (BitVec.ofNat 8 (hCols.getD b 0)) } := by
  have hsyn : tget h.dev w 0 = 0 := by simp [tget, hw]
  have hset : devSet h.dev w (BitVec.ofNat 8 (hCols.getD b 0)) = tset h.dev w (BitVec.ofNat 8 (hCols.getD b 0)) :=
    if_neg (column_ne_zero b hb)
  unfold upsetBit
  rw [hv, hsyn, if_neg (by simp; omega)]
  simp only [if_pos hb]
  rw [show (0 : BitVec 8) ^^^ BitVec.ofNat 8 (hCols.getD b 0) = BitVec.ofNat 8 (hCols.getD b 0) from BitVec.zero_xor, hset]

theorem wordSyn_upsetBit_self : wordSyn (upsetBit w b h) w = BitVec.ofNat 8 (hCols.getD b 0) := by
  have hvalid : isValid (upsetBit w b h) (w / 8) = true := by rw [upsetBit_data hv hw hb]; exact hv
  rw [wordSyn, if_pos hvalid, upsetBit_data hv hw hb, tget_tset_self]

theorem wordSyn_upsetBit_ne {v : Nat} (hne : v ≠ w) : wordSyn (upsetBit w b h) v = wordSyn h v := by
  have hvalid : isValid (upsetBit w b h) (v / 8) = isValid h (v / 8) := by rw [upsetBit_data hv hw hb]; rfl
  rw [wordSyn, wordSyn, hvalid, upsetBit_data hv hw hb, tget_tset_ne _ _ _ hne]

/-- R321: what a reader is delivered is as before the upset. -/
theorem byteAt_upsetBit (wf : Memory.wf h.data = true) (a : Nat) : byteAt (upsetBit w b h) a = byteAt h a := by
  by_cases hin : a / 8 = w
  · have hclean : wordSyn h (a / 8) = 0 := hin ▸ wordSyn_unlisted hw
    have hdecode : eccDecode (wordSyn (upsetBit w b h) (a / 8)) = .dataBit b := by
      rw [hin, wordSyn_upsetBit_self hv hw hb, eccDecode_column b hb]
    have hvalid : h.valid.contains (a / 64) = true := by rwa [← hin, Nat.div_div_eq_div_mul] at hv
    rw [byteAt_clean hclean, byteAt, hdecode]
    simp only [rawByte, isValid, upsetBit_data hv hw hb, hvalid, if_true, cellGet_cellSet wf]
    by_cases hbyte : b / 8 = a % 8
    · have ha : a = 8 * w + b / 8 := by omega
      rw [if_pos hbyte, if_pos ha, ← ha, BitVec.xor_assoc, BitVec.xor_self, BitVec.xor_zero]
    · rw [if_neg hbyte, if_neg (by omega)]
  · rw [upsetBit_data hv hw hb]
    refine byteAt_congr rfl (tget_tset_ne _ _ _ hin) ?_
    rw [cellGet_cellSet wf, if_neg (by omega)]

end Upset

theorem getD_map_range {α : Type} (f : Nat → α) (d : α) {n i : Nat} (hi : i < n) : ((List.range n).map f).getD i d = f i := by
  simp [List.getD_eq_getElem?_getD, hi]

theorem getD_hRead {h : Harbour} {a len i : Nat} (hi : i < len) : (hRead h a len).getD i 0 = byteAt h (a + i) :=
  getD_map_range _ _ hi

/-- R323: a write-back leaves what a reader is delivered as it was. -/
theorem byteAt_writeBack {h : Harbour} {w : Nat} (wf : Memory.wf h.data = true) (hw : tget? (tdel h.dev w) w = none) (a : Nat) :
    byteAt (writeBack w h) a = byteAt h a := by
  have hlen : (hRead h (8 * w) 8).length = 8 := by simp [hRead]
  by_cases hv : isValid h (a / 64) = true
  case neg =>
    have hv : isValid h (a / 64) = false := by simpa using hv
    rw [byteAt_invalid (h := writeBack w h) hv, byteAt_invalid hv]
  by_cases hin : a / 8 = w
  · have hclean : wordSyn (writeBack w h) (a / 8) = 0 := wordSyn_unlisted (by rw [hin]; exact hw)
    rw [byteAt_clean hclean, rawByte, if_pos (show isValid (writeBack w h) (a / 64) = true from hv)]
    refine (cellGet_cellsWrite _ _ _ _ wf).trans ?_
    rw [hlen, if_pos (by omega), getD_hRead (by omega)]
    exact congrArg (byteAt h) (by omega)
  · refine byteAt_congr rfl (tget_devSet_ne (t := h.dev) 0 hin) ((cellGet_cellsWrite _ _ _ _ wf).trans ?_)
    rw [hlen, if_neg (by omega)]

/-! ## The write of a granule (R162, R163) -/

theorem mem_insertUp {n m : Nat} {l : List Nat} : m ∈ insertUp n l ↔ m = n ∨ m ∈ l := by
  induction l with
  | nil => simp [insertUp]
  | cons k l ih =>
    simp only [insertUp]
    split
    · simp
    · split
      next hn => simp [hn]
      next => simp only [List.mem_cons, ih, or_left_comm]

/-- The byte that the write of a granule puts at place `i`. -/
def mergedByte (h : Harbour) (g : Nat) (mask : List Bool) (data : Bytes) (i : Nat) : Byte :=
  if mask.getD i false then data.getD i 0
  else if ((mask.drop (i / 8 * 8)).take 8).any id then byteAt h (64 * g + i) else rawByte h (64 * g + i)

/-- The syndrome that the write of a granule leaves at its word `k`. -/
def mergedSyn (h : Harbour) (g : Nat) (mask : List Bool) (poison : BitVec 8) (k : Nat) : BitVec 8 :=
  wordAfter h (8 * g + k) (((mask.drop (8 * k)).take 8).filter id).length (poison.getLsbD k)

section WriteGranule

variable (h : Harbour) (g : Nat) (mask : List Bool) (data : Bytes) (poison : BitVec 8)

theorem isValid_writeGranule (m : Nat) : isValid (writeGranule h g mask data poison) m = (decide (m = g) || isValid h m) := by
  have hvalid : (writeGranule h g mask data poison).valid = insertUp g h.valid := rfl
  simp [isValid, hvalid, mem_insertUp]

theorem writeGranule_dev : (writeGranule h g mask data poison).dev =
    (List.range 8).foldl (fun t k => devSet t (8 * g + k) (((List.range 8).map (mergedSyn h g mask poison)).getD k 0)) h.dev := rfl

theorem foldl_devSet_ne (f : Nat → BitVec 8) {w : Nat} {l : List Nat} (hw : ∀ k ∈ l, w ≠ 8 * g + k) (t : Tab (BitVec 8)) :
    tget (l.foldl (fun t k => devSet t (8 * g + k) (f k)) t) w 0 = tget t w 0 := by
  induction l generalizing t with
  | nil => rfl
  | cons k l ih =>
    exact (ih (fun j hj => hw j (List.mem_cons_of_mem k hj)) _).trans (tget_devSet_ne _ (hw k List.mem_cons_self))

theorem foldl_devSet_mem (f : Nat → BitVec 8) {k : Nat} {l : List Nat} (hnd : l.Nodup) (hk : k ∈ l) {t : Tab (BitVec 8)}
    (hup : (tkeys t).Pairwise (· < ·)) : tget (l.foldl (fun t k => devSet t (8 * g + k) (f k)) t) (8 * g + k) 0 = f k := by
  induction l generalizing t with
  | nil => cases hk
  | cons j l ih =>
    obtain ⟨hj, hnd⟩ := List.nodup_cons.1 hnd
    rw [List.foldl_cons]
    obtain rfl | hk := List.mem_cons.1 hk
    · have hother : ∀ i ∈ l, 8 * g + k ≠ 8 * g + i := fun i hi he => hj (by rwa [show k = i by omega])
      exact (foldl_devSet_ne g f hother _).trans (tget_devSet_self hup _ _)
    · exact ih hnd hk (rising_devSet _ _ hup)

theorem wordSyn_writeGranule_self (hup : (tkeys h.dev).Pairwise (· < ·)) {k : Nat} (hk : k < 8) :
    wordSyn (writeGranule h g mask data poison) (8 * g + k) = mergedSyn h g mask poison k := by
  have hvalid : isValid (writeGranule h g mask data poison) ((8 * g + k) / 8) = true := by
    rw [isValid_writeGranule, show (8 * g + k) / 8 = g by omega, decide_eq_true rfl, Bool.true_or]
  rw [wordSyn, if_pos hvalid, writeGranule_dev, foldl_devSet_mem g _ List.nodup_range (List.mem_range.2 hk) hup,
    getD_map_range _ _ hk]

theorem writeGranule_data :
    (writeGranule h g mask data poison).data = cellsWrite h.data (64 * g) ((List.range 64).map (mergedByte h g mask data)) := by
  unfold writeGranule
  extract_lets merged syns
  have hmerged : merged = (List.range 64).map (mergedByte h g mask data) := List.map_congr_left fun i _ => by rw [mergedByte]
  clear_value syns
  rw [← hmerged]

theorem cellGet_writeGranule (wf : Memory.wf h.data = true) (a : Nat) : cellGet (writeGranule h g mask data poison).data a =
    if a / 64 = g then mergedByte h g mask data (a % 64) else cellGet h.data a := by
  rw [writeGranule_data, cellGet_cellsWrite _ _ _ _ wf, List.length_map, List.length_range]
  by_cases ha : a / 64 = g
  · rw [if_pos ha, if_pos (by omega), show a - 64 * g = a % 64 by omega, getD_map_range _ _ (Nat.mod_lt _ (by decide))]
  · rw [if_neg ha, if_neg (by omega)]

theorem rawByte_writeGranule (wf : Memory.wf h.data = true) {a : Nat} (ha : a / 64 = g) :
    rawByte (writeGranule h g mask data poison) a = mergedByte h g mask data (a % 64) := by
  rw [rawByte, isValid_writeGranule, ha, decide_eq_true rfl, Bool.true_or, if_pos rfl, cellGet_writeGranule h g mask data poison wf, if_pos ha]

/-- No byte of another granule changes. -/
theorem byteAt_writeGranule_ne (wf : Memory.wf h.data = true) {a : Nat} (ha : a / 64 ≠ g) :
    byteAt (writeGranule h g mask data poison) a = byteAt h a := by
  refine byteAt_congr ?_ ?_ ?_
  · rw [isValid_writeGranule, decide_eq_false ha, Bool.false_or]
  · rw [writeGranule_dev]
    exact foldl_devSet_ne g _ (fun k hk => by have := List.mem_range.1 hk; omega) _
  · rw [cellGet_writeGranule h g mask data poison wf, if_neg ha]

theorem byteAt_windows (w : Tab SlotWindow) (a : Nat) : byteAt { h with windows := w } a = byteAt h a := by
  unfold byteAt
  rfl

theorem wordAfter_windows (w : Tab SlotWindow) (k n : Nat) (mark : Bool) :
    wordAfter { h with windows := w } k n mark = wordAfter h k n mark := by
  unfold wordAfter wordBad
  rfl

theorem rawByte_windows (w : Tab SlotWindow) (a : Nat) : rawByte { h with windows := w } a = rawByte h a := by
  unfold rawByte
  rfl

/-- The write of a granule does not look at the slot windows. -/
theorem writeGranule_windows (w : Tab SlotWindow) : writeGranule { h with windows := w } g mask data poison =
    { writeGranule h g mask data poison with windows := w } := by
  simp only [writeGranule, byteAt_windows, rawByte_windows, wordAfter_windows]

end WriteGranule

theorem foldl_windows {β : Type} {f : Harbour → β → Harbour} {w : Tab SlotWindow}
    (hf : ∀ h x, f { h with windows := w } x = { f h x with windows := w }) (l : List β) (h : Harbour) :
    l.foldl f { h with windows := w } = { l.foldl f h with windows := w } := by
  induction l generalizing h with
  | nil => rfl
  | cons x l ih => rw [List.foldl_cons, List.foldl_cons, hf, ih]

theorem hWrite_windows (h : Harbour) (a : Nat) (d : Bytes) (poison : Bool) (w : Tab SlotWindow) :
    hWrite { h with windows := w } a d poison = { hWrite h a d poison with windows := w } := by
  unfold hWrite
  split
  · rfl
  · exact foldl_windows (fun h _ => writeGranule_windows h ..) _ h

theorem filter_replicate_window (n k : Nat) :
    (((List.replicate n true).drop k).take 8).filter id = List.replicate (min 8 (n - k)) true := by
  simp [List.drop_replicate, List.take_replicate]

/-- A write of a whole granule leaves no word as it was. -/
theorem mergedSyn_whole (h : Harbour) (g : Nat) (poison : BitVec 8) {k : Nat} (hk : k < 8) :
    mergedSyn h g (List.replicate 64 true) poison k = if poison.getLsbD k then 0xFF else 0 := by
  rw [mergedSyn, filter_replicate_window, List.length_replicate, show min 8 (64 - 8 * k) = 8 by omega, wordAfter, if_pos rfl]

theorem mergedByte_whole (h : Harbour) (g : Nat) (d : Bytes) {i : Nat} (hi : i < 64) :
    mergedByte h g (List.replicate 64 true) d i = d.getD i 0 := by
  rw [mergedByte, List.getD_replicate _ hi, if_pos rfl]

end Sys2Proof.Laws
end

section
/-! SUPPORT. What a read and a write of a run of granules change (R162, R163, R169, R321 to R323): of words without error, the slot
windows alone. -/

namespace Sys2Proof.Laws

open Sys2Proof.Machine

/-- The state with other slot windows. -/
def withWindows (w : Tab SlotWindow) (s : State) : State := { s with hbr := { s.hbr with windows := w } }

theorem withWindows_only (w : Tab SlotWindow) (s : State) : Only [.hbr] s (withWindows w s) := Only.hbr (Only.refl _ s) rfl rfl

theorem useSlot_windows (bank cls : Nat) (s : State) : ∃ w, useSlot bank cls s = withWindows w s := ⟨_, rfl⟩

theorem mem_granulesOf {a len g : Nat} : g ∈ granulesOf a len ↔ a / 64 ≤ g ∧ g < (a + len + 63) / 64 := by
  simp only [granulesOf, List.mem_map, List.mem_range]
  constructor
  · rintro ⟨k, hk, rfl⟩
    omega
  · rintro ⟨hlo, hhi⟩
    exact ⟨g - a / 64, by omega, by omega⟩

/-- The words of a granule carry no error. -/
def GranuleClean (h : Harbour) (g : Nat) : Prop := ∀ k < 8, wordSyn h (8 * g + k) = 0

theorem touchWord_clean {w : Nat} {s : State} (hw : wordSyn s.hbr w = 0) : touchWord w s = s := by rw [touchWord, hw]; rfl

theorem foldl_touchWord_clean {g : Nat} {s : State} {l : List Nat} (hl : ∀ k ∈ l, wordSyn s.hbr (8 * g + k) = 0) :
    l.foldl (fun s k => touchWord (8 * g + k) s) s = s := by
  induction l with
  | nil => rfl
  | cons k l ih =>
    rw [List.foldl_cons, touchWord_clean (hl k List.mem_cons_self)]
    exact ih fun j hj => hl j (List.mem_cons_of_mem k hj)

theorem touchGranule_clean {g : Nat} {s : State} (hg : GranuleClean s.hbr g) : touchGranule g s = s := by
  unfold touchGranule
  split
  · exact foldl_touchWord_clean fun k hk => hg k (List.mem_range.1 hk)
  · rfl

theorem touchRun_clean {port : BitVec 12} {a len : Nat} {s : State} (hg : ∀ g ∈ granulesOf a len, GranuleClean s.hbr g) :
    ∃ w, touchRun port a len s = withWindows w s := by
  unfold touchRun
  generalize granulesOf a len = l at hg
  refine List.foldlRecOn (motive := fun t => ∃ w, t = withWindows w s) l _ ⟨s.hbr.windows, rfl⟩ ?_
  rintro _ ⟨w, rfl⟩ g hmem
  split
  · obtain ⟨v, hv⟩ := useSlot_windows (addrBank (64 * g)) (accessClass port false) (withWindows w s)
    exact ⟨v, by rw [hv]; exact touchGranule_clean (hg g hmem)⟩
  · exact ⟨w, rfl⟩

theorem touchRun_invalid {port : BitVec 12} {a len : Nat} {s : State} (hg : ∀ g ∈ granulesOf a len, isValid s.hbr g = false) :
    touchRun port a len s = s := by
  unfold touchRun
  generalize granulesOf a len = l at hg
  refine List.foldlRecOn (motive := fun t => t = s) l _ rfl ?_
  rintro _ rfl g hmem
  rw [hg g hmem, if_neg Bool.false_ne_true]

/-- R163: a write of words without error writes its bytes and uses slots. -/
theorem storeRun_clean {port : BitVec 12} {a : Nat} {d : Bytes} {poison : Bool} {s : State}
    (hg : ∀ g ∈ granulesOf a d.length, GranuleClean s.hbr g) :
    ∃ w, storeRun port a d poison s = if d = [] then s else harbWrite a d poison (withWindows w s) := by
  unfold storeRun
  split
  next => exact ⟨[], rfl⟩
  next =>
    extract_lets cls stored
    suffices hfold : ∃ w, stored = withWindows w s by
      obtain ⟨w, hw⟩ := hfold
      exact ⟨w, congrArg (harbWrite a d poison) hw⟩
    unfold stored
    generalize granulesOf a d.length = l at hg
    refine List.foldlRecOn (motive := fun t => ∃ w, t = withWindows w s) l _ ⟨s.hbr.windows, rfl⟩ ?_
    rintro _ ⟨w, rfl⟩ g hmem
    obtain ⟨v, hv⟩ := useSlot_windows (addrBank (64 * g)) cls (withWindows w s)
    refine ⟨v, ?_⟩
    simp only [hv]
    split
    · rfl
    · exact touchGranule_clean (hg g hmem)

theorem hPoison_false {h : Harbour} {a len : Nat} (hw : ∀ w, a / 8 ≤ w → w < (a + len + 7) / 8 → wordBad h w = false) :
    hPoison h a len = false := by
  rw [hPoison, List.any_eq_false]
  intro i hi
  have hi := List.mem_range.1 hi
  rw [hw _ (by omega) (by omega)]
  exact Bool.false_ne_true

theorem readFlits_good {h : Harbour} {a n : Nat} (hw : ∀ k < n, wordBad h ((a + 8 * k) / 8) = false) :
    readFlits h a n = (List.range n).map fun k => mkFlit (BitVec.ofNat 64 (leNat (hRead h (a + 8 * k) 8))) := by
  refine List.map_congr_left fun k hk => ?_
  rw [hw k (List.mem_range.1 hk)]
  rfl

/-! ## One upset (R323) -/

theorem send_out (m : OutMsg) (s : State) : s.out <+: (send m s).out := ⟨[m], rfl⟩

theorem sendPort_out (p : Port) (m : OutMsg) (s : State) : s.out <+: (sendPort p m s).out := by
  unfold sendPort
  split
  · exact List.prefix_rfl
  · exact send_out m s

theorem logEvent_out (e : Event) (s : State) : s.out <+: (logEvent e s).out := by
  unfold logEvent
  extract_lets lost counted logged faulted sent
  have hcounted : counted.out = s.out := by unfold counted; split <;> rfl
  have hfaulted : faulted.out = s.out := by unfold faulted; split <;> exact hcounted
  have hsent : s.out <+: sent.out := hfaulted ▸ sendPort_out ..
  clear_value sent
  split
  · split
    · exact hsent.trans (send_out ..)
    · exact hsent
  · rw [hfaulted]

theorem raise_out (name : EventName) (k u : Nat) (s : State) : s.out <+: (raise name k u s).out := by
  simp only [raise, raiseSev]
  split
  · exact List.prefix_rfl
  · exact logEvent_out ..

theorem bucketAdd_out (kind n : Nat) (s : State) : s.out <+: (bucketAdd kind n s).out := by
  unfold bucketAdd
  extract_lets key emptied
  have hcaused : (cause 3 (bump (ob 0x8045 1) emptied)).out = s.out := rfl
  split
  · exact hcaused ▸ raise_out ..
  · exact List.prefix_rfl

/-- A corrected error takes no message back. -/
theorem correctedError_out (kind n word bit : Nat) (s : State) : s.out <+: (correctedError kind n word bit s).out := by
  unfold correctedError
  extract_lets key counted b added now rest keep
  have hadded : s.out <+: added.out := bucketAdd_out kind n counted
  clear_value added
  split
  · exact List.prefix_rfl
  split
  · exact hadded
  split
  · exact hadded
  extract_lets seen
  split
  · exact hadded
  split
  · split
    · refine List.IsPrefix.trans ?_ (raise_out ..)
      exact hadded
    · exact hadded
  · exact hadded

/-- R323: a correction at a word that is not hard there is written back. -/
theorem harbourCorrect_soft {word bit : Nat} {s : State} (hsoft : isHard s 0 (addrBank (8 * word)) word bit = false) :
    s.out <+: (harbourCorrect word bit s).out ∧ ∃ w, (harbourCorrect word bit s).hbr = { writeBack word s.hbr with windows := w } := by
  have hhbr : (correctedError 0 (addrBank (8 * word)) word bit s).hbr = s.hbr := by
    have honly := correctedError_only 0 (addrBank (8 * word)) word bit s
    exact honly.hbr_eq (by decide) (by decide)
  simp only [harbourCorrect, hsoft, Bool.false_eq_true, if_false]
  refine ⟨correctedError_out .., ?_⟩
  rw [hhbr]
  exact ⟨_, rfl⟩

theorem wordSyn_windows (h : Harbour) (w : Tab SlotWindow) (v : Nat) : wordSyn { h with windows := w } v = wordSyn h v := rfl

theorem wordSyn_writeBack_ne {h : Harbour} {w v : Nat} (hne : v ≠ w) : wordSyn (writeBack w h) v = wordSyn h v := by
  have hdev : tget (writeBack w h).dev v 0 = tget h.dev v 0 := tget_devSet_ne (t := h.dev) 0 hne
  rw [wordSyn, hdev]
  rfl

/-- R323: a granule of which one word has an upset data bit is touched by one correction. -/
theorem touchGranule_upset {g k b : Nat} {s : State} (hv : isValid s.hbr g = true) (hk : k < 8)
    (hsyn : eccDecode (wordSyn s.hbr (8 * g + k)) = .dataBit b) (hrest : ∀ j < 8, j ≠ k → wordSyn s.hbr (8 * g + j) = 0)
    (hsoft : isHard s 0 (addrBank (8 * (8 * g + k))) (8 * g + k) b = false) :
    touchGranule g s = harbourCorrect (8 * g + k) b s := by
  obtain ⟨before, after, hl⟩ := List.append_of_mem (List.mem_range.2 hk)
  have hnodup : (before ++ k :: after).Nodup := hl ▸ List.nodup_range
  obtain ⟨-, hafter, hapart⟩ := List.nodup_append.1 hnodup
  have hclean {j : Nat} (hj : j ∈ before ++ k :: after) (hne : j ≠ k) : wordSyn s.hbr (8 * g + j) = 0 :=
    hrest j (List.mem_range.1 (hl ▸ hj)) hne
  have hword : touchWord (8 * g + k) s = harbourCorrect (8 * g + k) b s := by rw [touchWord, hsyn]
  obtain ⟨-, w, hhbr⟩ := harbourCorrect_soft hsoft
  rw [touchGranule, if_pos hv, hl, List.foldl_append,
    foldl_touchWord_clean fun j hj => hclean (List.mem_append_left _ hj) (hapart j hj k List.mem_cons_self), List.foldl_cons, hword]
  refine foldl_touchWord_clean fun j hj => ?_
  have hne : j ≠ k := fun hjk => (List.nodup_cons.1 hafter).1 (hjk ▸ hj)
  rw [hhbr, wordSyn_windows, wordSyn_writeBack_ne (by omega)]
  exact hclean (List.mem_append_right _ (List.mem_cons_of_mem k hj)) hne

/-! ## Accesses (R158, R164, R166) -/

theorem access_served {x : Access} {s : State} (hw : s.hbr.waiting = []) (hr : runWaits s (accessRun x).1 (accessRun x).2 = false) :
    access x s = serve x s := by
  simp [access, accessHeld, hw, hr]

theorem access_held {x : Access} {s : State} (hr : runWaits s (accessRun x).1 (accessRun x).2 = true) :
    access x s = runWake (accessRun x).1 (accessRun x).2 { s with hbr := { s.hbr with waiting := s.hbr.waiting ++ [x] } } := by
  simp [access, accessHeld, hr]

theorem serveRead_open {port : BitVec 12} {a n : Nat} {s : State} (hopen : domState s (domSeg (addrSeg (a / 8 * 8))) ≠ .failed)
    (hw : ∀ w, a / 8 ≤ w → w < a / 8 + n → wordBad s.hbr w = false) :
    serveRead port a n s = send (.soundData port (dataHeader s port (a / 8 * 8) n false ::
        (List.range n).map fun k => mkFlit (BitVec.ofNat 64 (leNat (hRead s.hbr (a / 8 * 8 + 8 * k) 8)))) false)
      (touchRun (classPort s port (a / 8 * 8)) (a / 8 * 8) (8 * n) s) := by
  have hpoison : hPoison s.hbr (a / 8 * 8) (8 * n) = false := hPoison_false fun w hlo hhi => hw w (by omega) (by omega)
  have hflits : readFlits s.hbr (a / 8 * 8) n =
      (List.range n).map fun k => mkFlit (BitVec.ofNat 64 (leNat (hRead s.hbr (a / 8 * 8 + 8 * k) 8))) :=
    readFlits_good fun k hk => hw _ (by omega) (by omega)
  have hbeq : (domState s (domSeg (addrSeg (a / 8 * 8))) == .failed) = false := by simpa using hopen
  simp only [serveRead, hbeq, Bool.false_eq_true, if_false, hpoison, hflits]

/-- A wake of a segment in RET is in progress or waits (R166, R471). -/
theorem wantOn_asked {n : Nat} {s : State} (hret : domState s n = .ret) :
    (domOf (wantOn n s) n).current = some .on ∨ (domOf (wantOn n s) n).queued = some .on := by
  have hstate : (domOf s n).state = .ret := hret
  unfold wantOn
  extract_lets d counted
  have hd : d.state = .ret := hstate
  split
  next h => simp [hd] at h
  next =>
    split
    next h => simpa [d] using h
    next =>
      split
      next => right; simp [domOf, modDom]
      next => left; simp [hd, domOf, modDom]

theorem domOf_wantOn_ne {n m : Nat} (s : State) (h : m ≠ n) : domOf (wantOn n s) m = domOf s m := by
  unfold wantOn
  extract_lets d counted
  have hcounted : (if d.queued.isSome = true then bump (ob 0x2009 1) s else s).power = s.power := by split <;> rfl
  have hmod (f : Domain → Domain) (u : State) (hu : u.power = s.power) : domOf (modDom n f u) m = domOf s m := by
    simp only [domOf, modDom, tget_tmod_ne _ _ _ h, hu]
  split
  · rfl
  split
  · rfl
  split
  · exact hmod _ _ hcounted
  split
  · exact hmod _ _ hcounted
  · exact hmod _ _ hcounted

/-- R166: a held access asks the first segment of its run to wake, where that is in RET. -/
theorem runWake_asked {a len : Nat} {s : State} (hlen : len ≠ 0) (hret : domState s (domSeg (addrSeg a)) = .ret) :
    (domOf (runWake a len s) (domSeg (addrSeg a))).current = some .on ∨
      (domOf (runWake a len s) (domSeg (addrSeg a))).queued = some .on := by
  have hfirst : addrSeg (a + len - 1) + 1 - addrSeg a = (addrSeg (a + len - 1) - addrSeg a) + 1 := by
    have : addrSeg a ≤ addrSeg (a + len - 1) := Nat.div_le_div_right (by omega)
    omega
  rw [runWake, if_neg hlen, hfirst, List.range_succ_eq_map, List.foldl_cons, List.foldl_map]
  have hone : (domState s (domSeg (addrSeg a)) == .ret) = true := by simpa using hret
  rw [Nat.add_zero, if_pos hone]
  refine List.foldlRecOn (motive := fun t : State => (domOf t (domSeg (addrSeg a))).current = some .on ∨
    (domOf t (domSeg (addrSeg a))).queued = some .on) _ _ (wantOn_asked hret) ?_
  intro t ht k _
  extract_lets d
  split
  · rw [domOf_wantOn_ne t (by simp only [d, domSeg]; omega)]
    exact ht
  · exact ht

end Sys2Proof.Laws
end

section
/-! SUPPORT. The rows of the Harbour's granules (R158, R162 to R167, R321 to R327), each outcome as one equation, settled. -/

namespace Sys2Proof.Laws

open Sys2Proof.Machine

/-! ## HARBOUR_READ (R162, R321, R323) -/

theorem execHarbourRead_open {port : BitVec 12} {h : BitVec 30} {n : Nat} {s : State} (hwait : s.hbr.waiting = [])
    (hrun : runWaits s (h.toNat / 8 * 8) (8 * n) = false) (hopen : domState s (domSeg (addrSeg (h.toNat / 8 * 8))) ≠ .failed)
    (hw : ∀ w, h.toNat / 8 ≤ w → w < h.toNat / 8 + n → wordBad s.hbr w = false) :
    access { port, h, kind := .read n } s = send (.soundData port (dataHeader s port (h.toNat / 8 * 8) n false ::
        (List.range n).map fun k => mkFlit (BitVec.ofNat 64 (leNat (hRead s.hbr (h.toNat / 8 * 8 + 8 * k) 8)))) false)
      (touchRun (classPort s port (h.toNat / 8 * 8)) (h.toNat / 8 * 8) (8 * n) s) :=
  (access_served (x := { port, h, kind := .read n }) hwait hrun).trans (serveRead_open hopen hw)

/-- A word of a run lies in one of its granules. -/
theorem granule_of_word {a n w : Nat} (hlo : a / 8 ≤ w) (hhi : w < a / 8 + n) : w / 8 ∈ granulesOf (a / 8 * 8) (8 * n) :=
  mem_granulesOf.2 ⟨by omega, by omega⟩

theorem leNat_zero {b : Bytes} (hb : ∀ x ∈ b, x = 0) : leNat b = 0 := by
  induction b with
  | nil => rfl
  | cons x b ih => rw [leNat, hb x List.mem_cons_self, ih fun y hy => hb y (List.mem_cons_of_mem x hy)]; rfl

/-- R162: eight bytes of granules whose valid bits are clear make a zero word. -/
theorem leNat_hRead_invalid {h : Harbour} {a len : Nat} (hv : ∀ i < len, isValid h ((a + i) / 64) = false) :
    leNat (hRead h a len) = 0 := by
  refine leNat_zero fun x hx => ?_
  obtain ⟨i, hi, rfl⟩ := List.mem_map.1 hx
  exact byteAt_invalid (hv i (List.mem_range.1 hi))

section Read

variable {port : BitVec 12} {h : BitVec 30} {n : Nat} {s : State} (hwait : s.hbr.waiting = [])
  (hrun : runWaits s (h.toNat / 8 * 8) (8 * n) = false) (hopen : domState s (domSeg (addrSeg (h.toNat / 8 * 8))) ≠ .failed)
include hwait hrun hopen

/-- R162: a read of granules whose valid bits are clear answers zero flits, and touches nothing. -/
theorem read_invalid (hv : ∀ g ∈ granulesOf (h.toNat / 8 * 8) (8 * n), isValid s.hbr g = false) :
    access { port, h, kind := .read n } s = { s with out := s.out ++
      [.soundData port (dataHeader s port (h.toNat / 8 * 8) n false :: List.replicate n (mkFlit 0)) false] } := by
  have hword (w : Nat) (hlo : h.toNat / 8 ≤ w) (hhi : w < h.toNat / 8 + n) : wordBad s.hbr w = false :=
    wordBad_clean (wordSyn_invalid (hv _ (granule_of_word hlo hhi)))
  have hflits : ((List.range n).map fun k => mkFlit (BitVec.ofNat 64 (leNat (hRead s.hbr (h.toNat / 8 * 8 + 8 * k) 8)))) =
      List.replicate n (mkFlit 0) := by
    rw [← List.length_range (n := n), ← List.map_const', List.length_range]
    refine List.map_congr_left fun k hk => ?_
    have hk := List.mem_range.1 hk
    rw [leNat_hRead_invalid fun i hi => hv _ (mem_granulesOf.2 ⟨by omega, by omega⟩)]
    rfl
  rw [execHarbourRead_open hwait hrun hopen hword, touchRun_invalid hv, hflits]
  rfl

/-- R158, R321: granules without error are answered as stored; they cost slots alone. -/
theorem read_clean (hg : ∀ g ∈ granulesOf (h.toNat / 8 * 8) (8 * n), GranuleClean s.hbr g) :
    ∃ w, access { port, h, kind := .read n } s = send (.soundData port (dataHeader s port (h.toNat / 8 * 8) n false ::
      (List.range n).map fun k => mkFlit (BitVec.ofNat 64 (leNat (hRead s.hbr (h.toNat / 8 * 8 + 8 * k) 8)))) false)
      (withWindows w s) := by
  have hword (w : Nat) (hlo : h.toNat / 8 ≤ w) (hhi : w < h.toNat / 8 + n) : wordBad s.hbr w = false := by
    have hclean := hg _ (granule_of_word hlo hhi) (w % 8) (Nat.mod_lt _ (by decide))
    exact wordBad_clean (by rwa [Nat.div_add_mod] at hclean)
  obtain ⟨w, hw⟩ := touchRun_clean hg
  exact ⟨w, by rw [execHarbourRead_open hwait hrun hopen hword, hw]⟩

end Read

theorem granulesOf_one (g : Nat) : granulesOf (64 * g) 64 = [g] := by
  have hone : (64 * g + 64 + 63) / 64 - 64 * g / 64 = 1 := by omega
  rw [granulesOf, hone, Nat.mul_div_cancel_left g (by decide)]
  rfl

/-- R321, R323: a read of one granule with one upset data bit answers it corrected and writes the correction back. -/
theorem read_upset {port : BitVec 12} {h : BitVec 30} {k b : Nat} {s : State} (hwait : s.hbr.waiting = [])
    (haligned : h.toNat % 64 = 0) (hrun : runWaits s h.toNat 64 = false) (hopen : domState s (domSeg (addrSeg h.toNat)) ≠ .failed)
    (hv : isValid s.hbr (h.toNat / 64) = true) (wf : HarbourCanonical s) (hk : k < 8) (hb : b < 64)
    (hdev : ∀ j < 8, tget? s.hbr.dev (8 * (h.toNat / 64) + j) = none)
    (hsoft : isHard s 0 (addrBank (8 * (8 * (h.toNat / 64) + k))) (8 * (h.toNat / 64) + k) b = false) :
    Completes (.harbourRead port h 8 [(k, b)]) s fun t =>
      (∃ l, t.out = s.out ++ l ++ [.soundData port (dataHeader s port h.toNat 8 false :: (List.range 8).map fun j =>
        mkFlit (BitVec.ofNat 64 (leNat (hRead s.hbr (h.toNat + 8 * j) 8)))) false]) ∧
      (∀ a, byteAt t.hbr a = byteAt s.hbr a) := by
  obtain ⟨g, hg⟩ : ∃ g, h.toNat = 64 * g := ⟨h.toNat / 64, by omega⟩
  rw [hg, Nat.mul_div_cancel_left g (by decide)] at hsoft hdev hv
  have hstart : h.toNat / 8 * 8 = h.toNat := by omega
  have hvalid : isValid s.hbr ((8 * g + k) / 8) = true := by rwa [show (8 * g + k) / 8 = g by omega]
  -- the state with the upset bit
  let u : State := { s with hbr := upsetBit (8 * g + k) b s.hbr }
  have huhbr : u.hbr = upsetBit (8 * g + k) b s.hbr := rfl
  have hbytes (a : Nat) : byteAt u.hbr a = byteAt s.hbr a := byteAt_upsetBit hvalid (hdev k hk) hb wf a
  have hsyn : eccDecode (wordSyn u.hbr (8 * g + k)) = .dataBit b := by
    rw [huhbr, wordSyn_upsetBit_self hvalid (hdev k hk) hb, eccDecode_column b hb]
  have hrest (j : Nat) (hj : j < 8) (hne : j ≠ k) : wordSyn u.hbr (8 * g + j) = 0 := by
    rw [huhbr, wordSyn_upsetBit_ne hvalid (hdev k hk) hb (by omega), wordSyn_unlisted (hdev j hj)]
  have hword (w : Nat) (hlo : h.toNat / 8 ≤ w) (hhi : w < h.toNat / 8 + 8) : wordBad u.hbr w = false := by
    obtain ⟨j, hj, rfl⟩ : ∃ j, j < 8 ∧ w = 8 * g + j := ⟨w - 8 * g, by omega, by omega⟩
    by_cases hne : j = k
    · rw [hne, wordBad, hsyn]
    · exact wordBad_clean (hrest j hj hne)
  have huwait : u.hbr.waiting = [] := by rw [huhbr, upsetBit_data hvalid (hdev k hk) hb]; exact hwait
  have huvalid : isValid u.hbr g = true := by rw [huhbr, upsetBit_data hvalid (hdev k hk) hb]; exact hv
  have hurun : runWaits u h.toNat (8 * 8) = false := by
    have hclears : u.hbr.clears = s.hbr.clears := by rw [huhbr, upsetBit_data hvalid (hdev k hk) hb]
    have hsame (a : Nat) : accessWaits u a = accessWaits s a := by rw [accessWaits, accessWaits, underClear, underClear, hclears]; rfl
    rw [← hrun, runWaits, runWaits, funext fun g => hsame (64 * g)]
  have haccess := execHarbourRead_open (port := port) (h := h) huwait (by rw [hstart]; exact hurun) (by rw [hstart]; exact hopen) hword
  rw [hstart] at haccess
  -- what the read does to the granule
  have htouch : touchRun (classPort u port h.toNat) h.toNat (8 * 8) u = harbourCorrect (8 * g + k) b
      (useSlot (addrBank (64 * g)) (accessClass (classPort u port h.toNat) false) u) := by
    have hrun : granulesOf h.toNat (8 * 8) = [g] := hg ▸ granulesOf_one g
    rw [touchRun, hrun, List.foldl_cons, List.foldl_nil, if_pos huvalid]
    exact touchGranule_upset huvalid hk hsyn hrest hsoft
  obtain ⟨w, hslot⟩ := useSlot_windows (addrBank (64 * g)) (accessClass (classPort u port h.toNat) false) u
  obtain ⟨⟨l, hout⟩, v, hhbr⟩ := harbourCorrect_soft (word := 8 * g + k) (bit := b) (s := withWindows w u) hsoft
  rw [htouch, hslot] at haccess
  have hreads (a : Nat) : hRead u.hbr a 8 = hRead s.hbr a 8 := hRead_congr hbytes
  have hupset : exec (.harbourRead port h 8 [(k, b)]) s = .next (access { port, h, kind := .read 8 }
      { s with hbr := if k < 8 then upsetBit (8 * (h.toNat / 64) + k) b s.hbr else s.hbr }) := rfl
  rw [if_pos hk, show h.toNat / 64 = g by omega] at hupset
  refine ⟨_, hupset.trans (congrArg Host.Outcome.next haccess), ⟨l, ?out⟩, fun a => ?bytes⟩
  case out =>
    refine (congrArg (· ++ _) hout.symm).trans ?_
    simp only [hreads]
    rfl
  case bytes =>
    have hcorrected : tget? (tdel (withWindows w u).hbr.dev (8 * g + k)) (8 * g + k) = none := by
      have hudev : (withWindows w u).hbr.dev = tset s.hbr.dev (8 * g + k) (BitVec.ofNat 8 (hCols.getD b 0)) :=
        congrArg Harbour.dev (upsetBit_data hvalid (hdev k hk) hb)
      rw [hudev]
      exact tget?_tdel_tset _ (hdev k hk)
    have hwf : Memory.wf (withWindows w u).hbr.data = true := wf_upsetBit _ _ _ wf
    calc byteAt (harbourCorrect (8 * g + k) b (withWindows w u)).hbr a
        = byteAt (writeBack (8 * g + k) (withWindows w u).hbr) a := by rw [hhbr, byteAt_windows]
      _ = byteAt (withWindows w u).hbr a := byteAt_writeBack hwf hcorrected a
      _ = byteAt u.hbr a := byteAt_windows ..
      _ = byteAt s.hbr a := hbytes a

end Sys2Proof.Laws
end

section
/-! SUPPORT. Writes of granules, held accesses, clears, BAR4, the scrub and the drain (R158, R162 to R167, R324, R327). -/

namespace Sys2Proof.Laws

open Sys2Proof.Machine

/-! ## Writes (R158, R162, R163) -/

/-- A write of a granule, which has used a slot. -/
def granuleWritten (w : Tab SlotWindow) (g : Nat) (mask : List Bool) (data : Bytes) (poison : BitVec 8) (s : State) : State :=
  { s with hbr := writeGranule { s.hbr with windows := w } g mask data poison }

theorem granuleWritten_only (w : Tab SlotWindow) (g : Nat) (mask : List Bool) (data : Bytes) (poison : BitVec 8) (s : State) :
    Only [.hbr] s (granuleWritten w g mask data poison s) :=
  Only.hbr (Only.refl _ s) (writeGranule_segs ..) rfl

/-- R163: the places of the bytes of a partial write in their granule. -/
def partialMask (o len : Nat) : List Bool := (List.range 64).map fun i => decide (o ≤ i) && decide (i < o + len)

/-- The bytes of a partial write at their places. -/
def partialBytes (o : Nat) (d : Bytes) : Bytes := (List.range 64).map fun i => if o ≤ i then d.getD (i - o) 0 else 0

section Write

variable {port : BitVec 12} {h : BitVec 30} {d : Bytes} {s : State} (hwait : s.hbr.waiting = [])
  (hrun : runWaits s (64 * (h.toNat / 64)) 64 = false) (hopen : domState s (domSeg (addrSeg h.toNat)) ≠ .failed)
include hwait hrun hopen

/-- R158, R162: a write of a whole granule uses a slot and writes every byte of it. -/
theorem write_whole (p : BitVec 8) : ∃ w, access { port, h, kind := .write d p } s =
    granuleWritten w (h.toNat / 64) (List.replicate 64 true) (fit d 64) p s := by
  have hheld : runWaits s (h.toNat / 64 * 64) 64 = false := by rwa [Nat.mul_comm]
  have hbeq : (domState s (domSeg (addrSeg h.toNat)) == .failed) = false := by simpa using hopen
  obtain ⟨w, hslot⟩ := useSlot_windows (addrBank h.toNat) (accessClass (classPort s port h.toNat) true) s
  refine ⟨w, (access_served (x := { port, h, kind := .write d p }) hwait hheld).trans ?_⟩
  show serveWrite port h.toNat d p s = _
  simp only [serveWrite, hbeq, Bool.false_eq_true, if_false, hslot]
  rfl

/-- R163: a partial write merges its bytes with a granule without error. -/
theorem write_partial (p : BitVec 8) (hclean : GranuleClean s.hbr (h.toNat / 64)) :
    ∃ w, access { port, h, kind := .partialWrite d p } s =
      granuleWritten w (h.toNat / 64) (partialMask (h.toNat % 64) (d.take (64 - h.toNat % 64)).length)
        (partialBytes (h.toNat % 64) (d.take (64 - h.toNat % 64))) p s := by
  have hgranule : granulesOf h.toNat (min (max 1 d.length) (64 - h.toNat % 64)) = [h.toNat / 64] := by
    have hone : (h.toNat + min (max 1 d.length) (64 - h.toNat % 64) + 63) / 64 - h.toNat / 64 = 1 := by omega
    rw [granulesOf, hone]
    rfl
  have hheld : runWaits s h.toNat (min (max 1 d.length) (64 - h.toNat % 64)) = false := by
    rw [runWaits, granulesOf_one] at hrun
    rw [runWaits, hgranule, hrun]
  have hbeq : (domState s (domSeg (addrSeg h.toNat)) == .failed) = false := by simpa using hopen
  obtain ⟨w, hslot⟩ := useSlot_windows (addrBank h.toNat) (accessClass (classPort s port h.toNat) true) s
  have htouch : touchGranule (h.toNat / 64) (withWindows w s) = withWindows w s := touchGranule_clean hclean
  refine ⟨w, (access_served (x := { port, h, kind := .partialWrite d p }) hwait hheld).trans ?_⟩
  show servePartial port h.toNat d p s = _
  simp only [servePartial, hbeq, Bool.false_eq_true, if_false, hslot, htouch]
  rfl

end Write

/-- R162: after a write of a whole granule. -/
theorem whole_written {g : Nat} {h : Harbour} {d : Bytes} {p : BitVec 8} (wf : Memory.wf h.data = true)
    (hup : (tkeys h.dev).Pairwise (· < ·)) (hlen : d.length = 64) :
    hRead (writeGranule h g (List.replicate 64 true) d p) (64 * g) 64 = d ∧
      ∀ k < 8, wordBad (writeGranule h g (List.replicate 64 true) d p) (8 * g + k) = p.getLsbD k := by
  have hsyn (k : Nat) (hk : k < 8) : wordSyn (writeGranule h g (List.replicate 64 true) d p) (8 * g + k) =
      if p.getLsbD k then 0xFF else 0 := by
    rw [wordSyn_writeGranule_self h g _ d p hup hk, mergedSyn_whole h g p hk]
  constructor
  · refine List.ext_getElem (by simp [hRead, hlen]) fun i hi _ => ?_
    have hi : i < 64 := by simpa [hRead] using hi
    have hraw : rawByte (writeGranule h g (List.replicate 64 true) d p) (64 * g + i) = d.getD i 0 := by
      rw [rawByte_writeGranule h g _ d p wf (by omega), show (64 * g + i) % 64 = i by omega, mergedByte_whole h g d hi]
    have hword : (64 * g + i) / 8 = 8 * g + i / 8 := by omega
    have hbyte : byteAt (writeGranule h g (List.replicate 64 true) d p) (64 * g + i) = d.getD i 0 := by
      rw [← hraw]
      have hsyn := hsyn (i / 8) (by omega)
      rw [← hword] at hsyn
      split at hsyn
      · exact byteAt_poison hsyn
      · exact byteAt_clean hsyn
    simpa [hRead, List.getD_eq_getElem?_getD, hlen, hi] using hbyte
  · intro k hk
    rw [wordBad, hsyn k hk]
    cases p.getLsbD k <;> rfl

/-- R163: after a write of some bytes of a granule without error, without a mark. -/
theorem partial_written {g o len : Nat} {h : Harbour} {d : Bytes} (wf : Memory.wf h.data = true)
    (hup : (tkeys h.dev).Pairwise (· < ·)) (hclean : GranuleClean h g) (a : Nat) :
    byteAt (writeGranule h g (partialMask o len) (partialBytes o d) 0) a =
      if a / 64 = g ∧ o ≤ a % 64 ∧ a % 64 < o + len then d.getD (a % 64 - o) 0 else byteAt h a := by
  by_cases ha : a / 64 = g
  case neg => rw [byteAt_writeGranule_ne h g _ _ 0 wf ha, if_neg fun hin => ha hin.1]
  have hmod : a % 64 < 64 := Nat.mod_lt _ (by decide)
  have hword : a / 8 = 8 * g + a / 8 % 8 := by omega
  have hold : wordSyn h (a / 8) = 0 := by rw [hword]; exact hclean _ (by omega)
  have hsyn : wordSyn (writeGranule h g (partialMask o len) (partialBytes o d) 0) (a / 8) = 0 := by
    rw [hword, wordSyn_writeGranule_self h g _ _ 0 hup (by omega), mergedSyn, ← hword, wordAfter, wordBad_clean hold, hold]
    simp
  rw [byteAt_clean hsyn, rawByte_writeGranule h g _ _ 0 wf ha, mergedByte, partialMask, getD_map_range _ _ hmod, partialBytes,
    getD_map_range _ _ hmod, show 64 * g + a % 64 = a by omega, ← byteAt_clean hold, ite_self]
  by_cases hin : o ≤ a % 64 ∧ a % 64 < o + len
  · rw [if_pos (by simpa using hin), if_pos hin.1, if_pos ⟨ha, hin⟩]
  · rw [if_neg (by simpa using hin), if_neg fun h => hin h.2]

/-! ## Held accesses (R164, R166) -/

/-- R164, R166: an access whose run's first granule waits is held, and its segment is asked to wake from RET. -/
theorem access_waits {x : Access} {s : State} (hx : 64 * (x.h.toNat / 64) = 64 * ((accessRun x).1 / 64))
    (hseg : addrSeg (accessRun x).1 = addrSeg x.h.toNat) (hlen : (accessRun x).2 ≠ 0)
    (hwait : accessWaits s (64 * (x.h.toNat / 64)) = true) :
    (access x s).hbr = { s.hbr with waiting := s.hbr.waiting ++ [x] } ∧ (access x s).out = s.out ∧
      (domState s (domSeg (addrSeg x.h.toNat)) = .ret → (domOf (access x s) (domSeg (addrSeg x.h.toNat))).current = some .on ∨
        (domOf (access x s) (domSeg (addrSeg x.h.toNat))).queued = some .on) ∧
      Only [.doms, .cause, .counters, .hbr] s (access x s) := by
  have hrun : runWaits s (accessRun x).1 (accessRun x).2 = true :=
    List.any_eq_true.2 ⟨(accessRun x).1 / 64, mem_granulesOf.2 ⟨le_rfl, by omega⟩, hx ▸ hwait⟩
  let u : State := { s with hbr := { s.hbr with waiting := s.hbr.waiting ++ [x] } }
  have hheld : Only [.hbr] s u := Only.hbr (Only.refl _ s) rfl rfl
  rw [access_held hrun]
  have hwake := runWake_only (accessRun x).1 (accessRun x).2 u
  refine ⟨hwake.hbr_eq (by decide) (by decide), hwake.2 .out (by decide), fun hret => ?_,
    (hheld.mono rfl).trans (hwake.mono rfl)⟩
  rw [← hseg] at hret ⊢
  exact runWake_asked hlen hret

/-! ## Clears (R164, R196) -/

theorem serveWaiting_none {s : State} (hwait : s.hbr.waiting = []) : serveWaiting s = s := by rw [serveWaiting, hwait]; rfl

/-- The state in which a region's clear has ended. -/
def regionCleared (base len : Nat) (s : State) : State :=
  let h := hClear s.hbr base len
  noteCleared len { s with hbr := { h with clears := h.clears.erase (base, len) } }

theorem execRegionClearDone_part {base : BitVec 30} {len : Nat} {s : State}
    (hfind : s.hbr.clears.find? (fun r => r.1 = base.toNat) = some (base.toNat, len)) (hlen : len < 2 ^ 26)
    (hwait : s.hbr.waiting = []) : execRegionClearDone base s = .next (regionCleared base.toNat len s) := by
  have hpart : (decide (base.toNat = addrSeg base.toNat * 2 ^ 26) && decide (len = 2 ^ 26)) = false := by
    rw [decide_eq_false hlen.ne, Bool.and_false]
  simp only [execRegionClearDone, hfind, hpart, Bool.false_eq_true, if_false]
  exact congrArg Host.Outcome.next (serveWaiting_none (s := regionCleared base.toNat len s) hwait)

/-! ## BAR4 (R167) -/

theorem execBar4Access_closed {i : Initiator} {x : BitVec 30} {s : State} (hclosed : i = .portD ∨
    ((segOf s (addrSeg x.toNat)).use ≠ .host ∧ (privileged s i = false ∨
      ((segOf s (addrSeg x.toNat)).use ≠ .context ∧ (segOf s (addrSeg x.toNat)).use ≠ .system)))) (len : Nat) (write : Option Bytes) :
    execBar4Access i x len write s = .next (barDrop i len write s) := by
  unfold execBar4Access
  extract_lets a n g open_ inside
  have hopen : open_ = false := by
    obtain rfl | ⟨hhost, hpriv | ⟨hcontext, hsystem⟩⟩ := hclosed
    · rfl
    · cases i <;> simp [open_, g, n, a, hhost, hpriv]
    · cases i <;> simp [open_, g, n, a, hhost, hcontext, hsystem]
  rw [hopen]
  rfl

theorem fit_length (d : Bytes) : fit d d.length = d := by simp [fit]

/-- R163, R167: a write to an open segment whose words carry no error. -/
theorem execBar4Access_write {i : Initiator} {x : BitVec 30} {d : Bytes} {s : State} (huse : (segOf s (addrSeg x.toNat)).use = .host)
    (hi : i ≠ .portD) (hd : d ≠ []) (hseg : addrSeg (x.toNat + d.length - 1) = addrSeg x.toNat) (hwait : s.hbr.waiting = [])
    (hrun : runWaits s x.toNat d.length = false) (hopen : domState s (domSeg (addrSeg x.toNat)) ≠ .failed)
    (hclean : ∀ w, wordSyn s.hbr w = 0) : ∃ w, execBar4Access i x d.length (some d) s = .next
      { s with hbr := { hWrite s.hbr x.toNat d false with windows := w } } := by
  have hlen : 0 < d.length := List.length_pos_of_ne_nil hd
  have hbeq : (domState s (domSeg (addrSeg x.toNat)) == .failed) = false := by simpa using hopen
  have hserved : execBar4Access i x d.length (some d) s =
      .next (access { port := initPort i, h := x, kind := .bar i d.length (some d) } s) := by
    unfold execBar4Access
    cases i
    case portD => exact absurd rfl hi
    all_goals simp [huse, hlen, hseg, hopen]
  obtain ⟨w, hstore⟩ := storeRun_clean (port := initPort i) (a := x.toNat) (d := d) (poison := false) (s := s)
    fun g _ k _ => hclean _
  rw [if_neg hd] at hstore
  have hwindows : (domState (withWindows w s) (domSeg (addrSeg x.toNat)) == .failed) = false := hbeq
  refine ⟨w, hserved.trans (congrArg Host.Outcome.next ?_)⟩
  rw [access_served (x := { port := initPort i, h := x, kind := .bar i d.length (some d) }) hwait hrun]
  show storeRun (initPort i) x.toNat (fit d d.length) false s = _
  rw [fit_length, hstore, harbWrite, hwindows, if_neg Bool.false_ne_true]
  exact congrArg (fun k => { s with hbr := k }) (hWrite_windows ..)

/-! ## The scrub and the drain (R324, R327) -/

theorem execPatrolScrub_clean {s : State} (hclean : ∀ w, wordSyn s.hbr w = 0) : execPatrolScrub [] s = .next s := by
  unfold execPatrolScrub
  extract_lets u due
  have hu : u = s := rfl
  refine congrArg Host.Outcome.next ?_
  rw [hu]
  refine List.foldlRecOn (motive := fun t => t = s) due _ rfl ?_
  rintro _ rfl g _
  exact touchGranule_clean fun k _ => hclean _

end Sys2Proof.Laws

namespace Sys2Proof

open Sys2Proof.Machine

theorem Only.setInteg (s : State) (x : Integ) : Only [.integ] s { s with integ := x } := by
  refine ⟨⟨rfl, rfl, rfl, rfl⟩, fun p hp => ?_⟩
  cases p
  case integ => exact absurd (List.mem_singleton.2 rfl) hp
  case gov | events | monitors => exact ⟨rfl, rfl, rfl⟩
  all_goals rfl

end Sys2Proof

namespace Sys2Proof.Laws

open Sys2Proof.Machine

/-- Settles O53: a read costs what its words' syndromes say, a write is the write of one granule, read back byte by byte; what waits is
held; the end of a clear, BAR4, a clean scrub and the drain are one equation each. -/
theorem harbourGranules : Obligations.HarbourGranules := by
  refine ⟨fun port h flits s => ?read, fun port h k b s hwait hal hrun hopen hv wf hk hb hdev hsoft =>
      read_upset hwait hal hrun hopen hv wf hk hb hdev hsoft, fun port h d p s hwait hrun hopen wf hup => ⟨?whole, ?part⟩,
    fun port h d p flits s hwait => ?held, fun base len s hfind hlen hbase hmult hwait => ?clear, fun i x len s hclosed => ?closed,
    fun i x d s huse hi hd hseg hwait hrun hopen hclean => ?bar, fun s hclean => execPatrolScrub_clean hclean, fun kind s => ?drain⟩
  case read =>
    intro n a hwait hrun hopen
    refine ⟨fun hv => congrArg Host.Outcome.next (read_invalid hwait hrun hopen hv), fun hg => ?_⟩
    obtain ⟨w, hread⟩ := read_clean (port := port) hwait hrun hopen hg
    exact ⟨_, congrArg Host.Outcome.next hread, rfl, rfl, rfl, rfl,
      ((withWindows_only w s).mono rfl).trans ((send_only _ _).mono rfl)⟩
  case whole =>
    obtain ⟨w, hwrite⟩ := write_whole (port := port) (d := d) hwait hrun hopen p
    obtain ⟨hback, hmarks⟩ := whole_written (g := h.toNat / 64) (h := { s.hbr with windows := w }) (d := fit d 64) (p := p) wf hup
      (by simp [fit]; omega)
    refine ⟨_, congrArg Host.Outcome.next hwrite, ?_, hback, hmarks, fun a ha => ?_, wf_writeGranule _ _ _ _ _ wf,
      granuleWritten_only ..⟩
    · rw [granuleWritten, isValid_writeGranule, decide_eq_true rfl, Bool.true_or]
    · exact (byteAt_writeGranule_ne _ _ _ _ _ wf ha).trans (byteAt_windows ..)
  case part =>
    intro hdev
    have hclean : GranuleClean s.hbr (h.toNat / 64) := fun k hk => wordSyn_unlisted (hdev k hk)
    obtain ⟨w, hwrite⟩ := write_partial (port := port) (d := d) hwait hrun hopen 0 hclean
    refine ⟨_, congrArg Host.Outcome.next hwrite, ?_, granuleWritten_only .., fun a => ?_⟩
    · rw [granuleWritten, isValid_writeGranule, decide_eq_true rfl, Bool.true_or]
    · refine (partial_written (h := { s.hbr with windows := w }) wf hup hclean a).trans ?_
      rw [byteAt_windows, List.length_take]
      by_cases hin : h.toNat ≤ a ∧ a < h.toNat + min d.length (64 - h.toNat % 64)
      · rw [if_pos hin, if_pos (by omega), show a % 64 - h.toNat % 64 = a - h.toNat by omega,
          List.getD_eq_getElem?_getD, List.getElem?_take_of_lt (by omega), List.getD_eq_getElem?_getD]
      · rw [if_neg hin, if_neg (by omega)]
  case held =>
    intro held
    have hheld (k : AccessKind) (hrun : (accessRun { port, h, kind := k }).1 / 64 = h.toNat / 64)
        (hlen : (accessRun { port, h, kind := k }).2 ≠ 0) :=
      access_waits (x := { port, h, kind := k }) (s := s) (by rw [hrun])
        (show (accessRun { port, h, kind := k }).1 / 2 ^ 26 = h.toNat / 2 ^ 26 by omega) hlen hwait
    exact ⟨⟨_, rfl, hheld (.read (max 1 (min 32 flits))) (by simp only [accessRun]; omega) (by simp only [accessRun]; omega)⟩,
      ⟨_, rfl, hheld (.write d p) (by simp only [accessRun]; omega) (by simp only [accessRun]; omega)⟩,
      ⟨_, rfl, hheld (.partialWrite d p) rfl (by simp only [accessRun]; omega)⟩⟩
  case clear =>
    have hexec := execRegionClearDone_part hfind hlen hwait
    have hregion : Only [.hbr] s { s with hbr := { hClear s.hbr base.toNat len with
        clears := (hClear s.hbr base.toNat len).clears.erase (base.toNat, len) } } := Only.hbr (Only.refl _ s) rfl rfl
    refine ⟨_, hexec, fun a => ?_, rfl, rfl, ?_, (hregion.mono rfl).trans ((noteCleared_only ..).mono rfl)⟩
    · have hbytes := byteAt_hClear s.hbr (base.toNat / 64) (len / 64) a
      rw [show 64 * (base.toNat / 64) = base.toNat by omega, show 64 * (len / 64) = len by omega] at hbytes
      exact hbytes
    · simp only [regionCleared, noteCleared, counterOf, bumpBy, modDict, tget_tmod_self]
      rfl
  case closed =>
    refine ⟨fun d => execBar4Access_closed hclosed len (some d), _, execBar4Access_closed hclosed len none, rfl,
      counterOf_bump_self _ s, ?_⟩
    exact ((bump_only _ s).mono rfl).trans ((send_only _ _).mono rfl)
  case bar =>
    obtain ⟨w, hexec⟩ := execBar4Access_write huse hi hd hseg hwait hrun hopen hclean
    exact ⟨_, hexec, rfl, rfl, Only.hbr (Only.refl _ s) (hWrite_segs ..) rfl⟩
  case drain =>
    refine ⟨_, rfl, fun k => ?_, rfl, Only.setInteg s _⟩
    have hmap : (s.integ.buckets.map fun e => if e.1 / 65536 = kind.val then (e.1, { e.2 with count := e.2.count - 1 }) else e) =
        s.integ.buckets.map fun e => (e.1, if e.1 / 65536 = kind.val then { e.2 with count := e.2.count - 1 } else e.2) :=
      List.map_congr_left fun e _ => by split <;> rfl
    exact (congrArg (tget? · k) hmap).trans (tget?_map s.integ.buckets k fun n b =>
      if n / 65536 = kind.val then { b with count := b.count - 1 } else b)

end Sys2Proof.Laws
end

section
/-! SUPPORT. A request that is stopped beside another of its launch ends the launch's joins (R96, R190), and a third limb beyond
correction in a join of a Shank cluster's block retires the cluster (R98, R336): its domain, 2,064 + its number, reads FAILED for good.
The model's table of clusters does not bound their numbers: cluster 17 would share Port U's domain number 2,081, and cluster 19 link 0's,
2,083. Two states with such a cluster, and what the model makes of them. -/

namespace Sys2Proof.Laws

open Sys2Proof.Machine

/-- A join of vector 1 whose sources have all finished; limb 0 of its lane 0 is beyond correction. -/
def brokenJoin : Join := {
  launch := 0, plan := 0, vec := 1, island := 0, lanes := [], dev := [(0, 3)], bad := [], sources := [], ex := 0
  known := false, special := false, poisoned := false, tolerant := false }

/-- A launch of the requests of admission slots 0 and 1, one vector each. -/
def pairLaunch : Launch := {
  slot := 0, gen := 0, layer := 0, reqs := [(0, 1), (1, 1)], order := 0, deadline := none, laces := [], reserved := [], vectors := 2
  shank := [], adapters := [], delivered := [], stored := [], arrays := 0, charged := false, agreed := some 0, begun := true
  cancelled := false, offsets := [], strict := false, values := [] }

/-- A running request of one vector. -/
def oneVector : Req := {
  slot := 0, ctx := 0, gen := 0, vectors := 1, deadline := none, streams := [], step := 0, asked := true, barred := false, written := 0
  poison := 0, late := false, stopped := none, discarded := false, done := false, kvTaken := [], left := 0, taken := 0 }

/-- Its command of pair 0, with KEY `k`. -/
def runningInfer (k : Nat) : Cmd := {
  pair := 0, group := 0, entry := leBytes 8 0 ++ leBytes 8 k, order := 0, stage := .running, readAt := 0, waitsFor := [], drainFrom := 0 }

/-- An event of this Tide is in the log, so that a second one of its triple is only counted (R439). -/
def justLogged (name : EventName) (kind unit : Nat) : Event := {
  seq := 0, tide := 0, epoch := 0, pcycle := 0, name := name, severity := 0, unitKind := kind, unit := unit }

/-- The launch runs for both requests of an enabled pair, and cluster `c` holds the broken join after two failures. -/
def brokenCluster (c : Nat) : State := { ({} : State) with
  dict := { events := [justLogged .uncorrectable 6 c, justLogged .permanentFault 6 c, justLogged .groupAborted 8 257] }
  que := { pairs := [(0, { state := .enabled })], cmds := [(0, runningInfer 1), (1, runningInfer 2)], reqs := [(0, oneVector), (1, oneVector)] }
  model := { launches := [(0, pairLaunch)], slots := [(0, { modules := 2 })] }
  clusters := [(c, { joins := [(0, brokenJoin)] })]
  integ := { history := [(.cluster, c, { stamps := [(0, 0), (0, 0)] })] } }

/-- Domain `n` after a command. -/
def domAfter (c : Instr) (n : Nat) (s : State) : Option Domain :=
  match exec c s with
  | .next t => some (domOf t n)
  | _ => none

theorem domOf_of_domAfter {c : Instr} {n : Nat} {s t : State} {d : Domain} (hexec : exec c s = .next t) (hafter : domAfter c n s = some d) :
    domOf t n = d := by
  rw [domAfter, hexec] at hafter
  exact Option.some.inj hafter

/-- Link 0 to member 1 of a group of two goes to RET; cluster 19 has link 0's domain number. -/
def linkGoesToRet : State := { brokenCluster 19 with
  power := { doms := [(2083, { state := .on, current := some .ret })] }
  strait := { members := 3, links := [(0, { state := .exchange, peerA := 1 })] } }

/-- With the last link of the gang the group launch is aborted, and the stop of its requests retires the link's domain. -/
theorem linkGoesToRet_after : domAfter (.domainDownDone 2083) 2083 linkGoesToRet = some { state := .ret, retired := true } := by
  decide +kernel

/-- Refutes O56: where a cluster's table entry has link 0's domain number, the end of the link's transition to RET also retires the
domain, and does not only leave it in RET. -/
theorem not_powerDomains : ¬ Obligations.PowerDomains := by
  rintro ⟨-, -, -, -, -, hdown⟩
  obtain ⟨t, hexec, hdom, -⟩ := (hdown 2083 linkGoesToRet rfl rfl).1 rfl
  exact absurd (hdom.symm.trans (domOf_of_domAfter hexec linkGoesToRet_after)) (by decide)

end Sys2Proof.Laws
end

section
/-! SUPPORT. The same at a port: a link down drops the port's commands (R190, R347), and with them the launch's joins end. -/

namespace Sys2Proof.Laws

open Sys2Proof.Machine

/-- Port U's link is up and its domain in RET; cluster 17 has Port U's domain number. -/
def portSleeps : State := { brokenCluster 17 with
  power := { doms := [(2081, { state := .ret })] }
  portU := { linkUp := true } }

/-- The stop of the first command's request leaves the port's domain FAILED. -/
theorem portSleeps_after : domAfter (.pcieLinkDown .u) 2081 portSleeps = some { state := .failed, retired := true } := by
  decide +kernel

/-- Refutes O58: where a cluster's table entry has Port U's domain number, a link down of the port in RET leaves its domain FAILED, and
not ON. -/
theorem not_portsAndTheEngine : ¬ Obligations.PortsAndTheEngine := by
  rintro ⟨hports, -⟩
  obtain ⟨-, -, hdown, -⟩ := hports .u portSleeps (List.pairwise_singleton ..)
  obtain ⟨t, hexec, -, -, hon, -⟩ := hdown rfl
  have hfailed : domState t (domPort .u) = .failed := congrArg Domain.state (domOf_of_domAfter hexec portSleeps_after)
  exact absurd ((hon rfl).symm.trans hfailed) (by decide)

end Sys2Proof.Laws
end

section
/-! SUPPORT. What a stop of requests leaves (R190, R403, R466): every INT_CAUSE bit that is set, and every link record. -/

namespace Sys2Proof

open Sys2Proof.Machine

/-- Every INT_CAUSE bit that is set in `s` is set in `t`, and the link records are the same. -/
def Steady (s t : State) : Prop :=
  (∀ k, s.regs.intCause.getLsbD k = true → t.regs.intCause.getLsbD k = true) ∧ t.strait.links = s.strait.links

/-- The state that an operation may answer is steady. -/
def SteadyO (s : State) (r : Option State) : Prop := ∀ t, r = some t → Steady s t

section Laws

variable {α : Type} {P : List Part} {s₀ s t : State} {c : Prop} [Decidable c]

namespace Steady

theorem refl (s : State) : Steady s s := ⟨fun _ h => h, rfl⟩

theorem trans (h : Steady s₀ s) (k : Steady s t) : Steady s₀ t := ⟨fun i hi => k.1 i (h.1 i hi), k.2.trans h.2⟩

theorem ite (ha : Steady s₀ s) (hb : Steady s₀ t) : Steady s₀ (if c then s else t) := by
  split <;> assumption

theorem ite2 {p q : α × State} (hp : Steady s₀ p.2) (hq : Steady s₀ q.2) : Steady s₀ (if c then p else q).2 := by
  split <;> assumption

theorem setHbr (h : Steady s₀ s) (x : Harbour) : Steady s₀ { s with hbr := x } := h

theorem of_snd {p : α × State} {a : α} (e : p = (a, t)) (h : Steady s₀ p.2) : Steady s₀ t := by
  subst e
  exact h

theorem of_fst {p : State × α} {a : α} (e : p = (t, a)) (h : Steady s₀ p.1) : Steady s₀ t := by
  subst e
  exact h

theorem foldl {f : State → α → State} {l : List α} (hf : ∀ x a, Steady s₀ x → Steady s₀ (f x a)) (h : Steady s₀ s) :
    Steady s₀ (l.foldl f s) :=
  List.foldlRecOn l f h fun x hx a _ => hf x a hx

theorem foldr {f : α → State → State} {l : List α} (hf : ∀ a x, Steady s₀ x → Steady s₀ (f a x)) (h : Steady s₀ s) :
    Steady s₀ (l.foldr f s) :=
  List.foldrRecOn l f h fun x hx a _ => hf a x hx

end Steady

/-- INT_CAUSE and Strait are not among the parts that may change. -/
theorem Only.steady (h : Only P s t) (hp : (P.contains .cause || P.contains .strait) = false) (hs : Steady s₀ s) : Steady s₀ t := by
  have hparts : Part.cause ∉ P ∧ Part.strait ∉ P := by simpa using hp
  have hcause : t.regs.intCause = s.regs.intCause := h.2 .cause hparts.1
  have hstrait : t.strait = s.strait := h.2 .strait hparts.2
  exact ⟨fun k hk => hcause ▸ hs.1 k hk, hstrait ▸ hs.2⟩

theorem OnlyO.steadyO {r : Option State} (h : OnlyO P s r) (hp : (P.contains .cause || P.contains .strait) = false) (hs : Steady s₀ s) :
    SteadyO s₀ r :=
  fun t ht => (h t ht).steady hp hs

theorem SteadyO.some (h : Steady s₀ s) : SteadyO s₀ (some s) := by
  intro t ht
  cases ht
  exact h

theorem SteadyO.none : SteadyO s₀ none := by
  intro t ht
  cases ht

theorem SteadyO.ite {a b : Option State} (ha : SteadyO s₀ a) (hb : SteadyO s₀ b) : SteadyO s₀ (if c then a else b) := by
  split <;> assumption

end Laws

end Sys2Proof

namespace Sys2Proof.Laws

open Sys2Proof.Machine

theorem cause_steady {k : Nat} {s₀ s : State} (h : Steady s₀ s) : Steady s₀ (cause k s) :=
  ⟨fun i hi => by simp only [cause, BitVec.getLsbD_or, h.1 i hi, Bool.true_or], h.2⟩

variable {s₀ s : State}

theorem bucketAdd_steady {kind n : Nat} (hs : Steady s₀ s) : Steady s₀ (bucketAdd kind n s) := by
  unfold bucketAdd
  extract_lets key s₁
  have hs₁ : Steady s₀ s₁ := (modBucket_only ..).steady rfl hs
  exact .ite ((raise_only ..).steady rfl (cause_steady ((bump_only ..).steady rfl hs₁))) ((modBucket_only ..).steady rfl hs)

theorem correctedError_steady {kind n word bit : Nat} (hs : Steady s₀ s) : Steady s₀ (correctedError kind n word bit s) := by
  unfold correctedError
  extract_lets key s₁ b s₂ now rest keep s₃
  have hs₁ : Steady s₀ s₁ := (bump_only ..).steady rfl hs
  have hs₂ : Steady s₀ s₂ := bucketAdd_steady hs₁
  have hs₃ : Steady s₀ s₃ := (modBucket_only ..).steady rfl hs₂
  split
  · exact (bump_only ..).steady rfl hs₁
  · split
    · exact hs₂
    · split
      · exact (modBucket_only ..).steady rfl hs₂
      · exact .ite ((bump_only ..).steady rfl hs₂) (.ite (.ite ((raise_only ..).steady rfl hs₃) hs₃) ((modBucket_only ..).steady rfl
          hs₂))

theorem uncorrectable_steady {unitKind n : Nat} (hs : Steady s₀ s) : Steady s₀ (uncorrectable unitKind n s) :=
  (raise_only ..).steady rfl (cause_steady ((bump_only ..).steady rfl hs))

theorem wantOn_steady {n : Nat} (hs : Steady s₀ s) : Steady s₀ (wantOn n s) := by
  unfold wantOn
  extract_lets d s₁
  have hs₁ : Steady s₀ s₁ := .ite ((bump_only ..).steady rfl hs) hs
  exact .ite hs (.ite hs (.ite ((modDom_only ..).steady rfl (.ite ((bump_only ..).steady rfl hs) hs)) (.ite (cause_steady
    ((modDom_only ..).steady rfl hs₁)) ((modDom_only ..).steady rfl hs₁))))

theorem harbourCorrect_steady {word bit : Nat} (hs : Steady s₀ s) : Steady s₀ (harbourCorrect word bit s) :=
  .ite (correctedError_steady hs) ((useSlot_only ..).steady rfl (correctedError_steady hs))

theorem touchWord_steady {word : Nat} (hs : Steady s₀ s) : Steady s₀ (touchWord word s) := by
  unfold touchWord
  extract_lets
  split
  · exact hs
  · exact hs
  · exact harbourCorrect_steady hs
  · exact harbourCorrect_steady hs
  · exact (bankHit_only ..).steady rfl (uncorrectable_steady hs)

theorem touchGranule_steady {g : Nat} (hs : Steady s₀ s) : Steady s₀ (touchGranule g s) :=
  .ite (.foldl (fun _ _ h => touchWord_steady h) hs) hs

theorem runWake_steady {a len : Nat} (hs : Steady s₀ s) : Steady s₀ (runWake a len s) :=
  .ite hs (.foldl (fun _ _ h => .ite (wantOn_steady h) h) hs)

theorem touchRun_steady {port : BitVec 12} {a len : Nat} (hs : Steady s₀ s) : Steady s₀ (touchRun port a len s) :=
  .foldl (fun _ _ h => .ite (touchGranule_steady ((useSlot_only ..).steady rfl h)) h) hs

theorem storeRun_steady {port : BitVec 12} {a : Nat} {d : Bytes} {poison : Bool} (hs : Steady s₀ s) :
    Steady s₀ (storeRun port a d poison s) := by
  unfold storeRun
  extract_lets cls s₁
  have hs₁ : Steady s₀ s₁ := by
    refine .foldl (fun _ _ h => ?_) hs
    exact Steady.ite ((useSlot_only ..).steady rfl h) (touchGranule_steady ((useSlot_only ..).steady rfl h))
  exact .ite hs ((harbWrite_only ..).steady rfl hs₁)

theorem storeMarked_steady {port : BitVec 12} {a : Nat} {d : Bytes} {bad : List Bool} (hs : Steady s₀ s) :
    Steady s₀ (storeMarked port a d bad s) := by
  refine .ite hs (.foldl (fun _ _ h => .setHbr ?_ _) hs)
  exact Steady.ite ((useSlot_only ..).steady rfl h) (touchGranule_steady ((useSlot_only ..).steady rfl h))

theorem serveRead_steady {port : BitVec 12} {a n : Nat} (hs : Steady s₀ s) : Steady s₀ (serveRead port a n s) :=
  .ite ((send_only ..).steady rfl hs) ((send_only ..).steady rfl (touchRun_steady hs))

theorem servePartial_steady {port : BitVec 12} {a : Nat} {d : Bytes} {poison : BitVec 8} (hs : Steady s₀ s) :
    Steady s₀ (servePartial port a d poison s) :=
  .ite hs ((touchGranule_steady ((useSlot_only ..).steady rfl hs)).setHbr _)

theorem servePort_steady {i : Initiator} {port : BitVec 12} {a len : Nat} {data : Option Bytes} (hs : Steady s₀ s) :
    Steady s₀ (servePort i port a len data s) := by
  unfold servePort
  extract_lets
  split
  · exact (send_only ..).steady rfl (touchRun_steady hs)
  · exact storeRun_steady hs

theorem serve_steady {x : Access} (hs : Steady s₀ s) : Steady s₀ (serve x s) := by
  unfold serve
  split
  · exact serveRead_steady hs
  · exact (serveWrite_only ..).steady rfl hs
  · exact servePartial_steady hs
  · exact servePort_steady hs
  · exact servePort_steady hs

theorem access_steady {x : Access} (hs : Steady s₀ s) : Steady s₀ (access x s) := .ite (runWake_steady hs) (serve_steady hs)

theorem coreWrite_steady {a : Nat} {d : Bytes} (hs : Steady s₀ s) : Steady s₀ (coreWrite a d s) := access_steady hs

theorem postEntry_steady {q key : Nat} {r : Reply} {orig : Nat} {noIntr : Bool} {readAt : BitVec 64} (hs : Steady s₀ s) :
    Steady s₀ (postEntry q key r orig noIntr readAt s) := by
  unfold postEntry
  extract_lets p entry addr s₁ wrap s₂ s₃
  have hs₁ : Steady s₀ s₁ := .ite (coreWrite_steady hs) ((sendPort_only ..).steady rfl hs)
  have hs₂ : Steady s₀ s₂ := (modPair_only ..).steady rfl hs₁
  have hs₃ : Steady s₀ s₃ := (sample_only ..).steady rfl hs₂
  exact .ite hs₃ ((countCompletion_only ..).steady rfl hs₃)

theorem logEntry_steady {q key : Nat} {r : Reply} (hs : Steady s₀ s) : Steady s₀ (logEntry q key r s) :=
  .ite (coreWrite_steady hs) ((sendPort_only ..).steady rfl hs)

theorem logAndPost_steady {q key : Nat} {r : Reply} {noIntr : Bool} {readAt : BitVec 64} (hs : Steady s₀ s) :
    Steady s₀ (logAndPost q key r noIntr readAt s) :=
  postEntry_steady (logEntry_steady hs)

theorem finish_steady {a : Nat} {r : Reply} (hs : Steady s₀ s) : Steady s₀ (finish a r s) := by
  unfold finish
  extract_lets
  split
  · exact hs
  · exact .ite hs ((freeSlot_only ..).steady rfl (logAndPost_steady hs))

theorem takeStanding_steady (hs : Steady s₀ s) : Steady s₀ (takeStanding s) := by
  unfold takeStanding
  extract_lets
  split
  · exact hs
  · split
    · exact hs
    · exact wantOn_steady hs

theorem moveCluster_steady {c d : Nat} (hs : Steady s₀ s) : Steady s₀ (moveCluster c d s) := by
  unfold moveCluster
  extract_lets y s₁ s₂
  have hs₁ : Steady s₀ s₁ := (modCluster_only ..).steady rfl hs
  have hs₂ : Steady s₀ s₂ := (modCluster_only ..).steady rfl hs₁
  exact .ite (wantOn_steady ((pushWork_only ..).steady rfl hs₂)) hs₂

theorem retireCluster_steady {c : Nat} (hs : Steady s₀ s) : Steady s₀ (retireCluster c s) := by
  unfold retireCluster
  extract_lets s₁ s₂ was _ s₃ s₄
  have hs₁ : Steady s₀ s₁ := (modCluster_only ..).steady rfl hs
  have hs₂ : Steady s₀ s₂ := (modDom_only ..).steady rfl hs₁
  have hs₄ : Steady s₀ s₄ := by
    unfold s₄
    split
    · exact moveCluster_steady hs₂
    · exact hs₂
  exact (permanentEvent_only ..).steady rfl (.ite (takeStanding_steady hs₄) hs₄)

theorem clusterFailure_steady {c : Nat} (hs : Steady s₀ s) : Steady s₀ (clusterFailure c s) := by
  unfold clusterFailure
  split
  · rename_i e₁
    have hs₁ : Steady s₀ _ := .of_fst e₁ ((countFailure_only ..).steady rfl hs)
    exact .ite (retireCluster_steady hs₁) ((modCluster_only ..).steady rfl hs₁)

theorem deliverWake_steady {l lace : Nat} (hs : Steady s₀ s) : Steady s₀ (deliverWake l lace s) := by
  unfold deliverWake
  split
  · exact runWake_steady hs
  · exact hs

theorem deliver_steady {port : BitVec 12} {l lace plan vec fmt : Nat} {o : JoinOut} {special : Bool} (hs : Steady s₀ s) :
    SteadyO s₀ (deliver port l lace plan vec fmt o special s) := by
  unfold deliver
  extract_lets
  split
  · exact .none
  · split
    · split
      · exact .none
      · rename_i e₁
        have hs₁ : Steady s₀ _ := (laceTake_only _ _ _ _ _ _ _ _ e₁).steady rfl hs
        extract_lets s₂ seq e' s₃ s₄ s₅
        have hs₂ : Steady s₀ s₂ := storeMarked_steady hs₁
        have hs₃ : Steady s₀ s₃ := (pushEntry_only ..).steady rfl hs₂
        have hs₄ : Steady s₀ s₄ := (modLaunch_only ..).steady rfl hs₃
        have hs₅ : Steady s₀ s₅ := .ite ((modReq_only ..).steady rfl hs₄) hs₄
        exact .some ((countOut_only ..).steady rfl hs₅)
    · exact .none

theorem forwardHere_steady {home : Nat} {j : Join} {plan : Nat} (hs : Steady s₀ s) : Steady s₀ (forwardHere home j plan s) := by
  unfold forwardHere
  extract_lets
  split
  · exact (sendHeld_only ..).steady rfl hs
  · exact hs

theorem forwardJoin_steady {home : Nat} {j : Join} {rank join : Nat} (hs : Steady s₀ s) :
    Steady s₀ (forwardJoin home j rank join s) := by
  unfold forwardJoin
  extract_lets
  split
  · exact forwardHere_steady hs
  · split
    · split
      · rename_i e₁
        have hs₁ : Steady s₀ _ := .of_snd e₁ ((takeFree_only ..).steady rfl hs)
        split
        · rename_i e₂
          have hs₂ : Steady s₀ _ := .of_snd e₂ ((takeFree_only ..).steady rfl hs₁)
          exact (sendHeld_only ..).steady rfl hs₂
    · exact (bump_only ..).steady rfl hs

theorem limbFailure_steady {home : Nat} (hs : Steady s₀ s) : Steady s₀ (limbFailure home s) :=
  .ite ((islandFailure_only ..).steady rfl (uncorrectable_steady hs)) (clusterFailure_steady (uncorrectable_steady hs))

theorem limbRead_steady {home : Nat} {touched : Nat → Bool} {j : Join} (hs : Steady s₀ s) : Steady s₀ (limbRead home touched j s).2 := by
  unfold limbRead
  refine List.foldlRecOn (motive := fun acc : Join × State => Steady s₀ acc.2) j.dev _ hs ?_
  rintro ⟨k, u⟩ hu e -
  refine .ite2 hu ?_
  split
  · exact hu
  · exact hu
  · exact (correctedError_steady hu :)
  · exact (correctedError_steady hu :)
  · exact (limbFailure_steady hu :)

theorem joinRead_steady {home id : Nat} (hs : Steady s₀ s) : Steady s₀ (joinRead home id s) := by
  unfold joinRead
  split
  · exact hs
  · split
    · exact hs
    · split
      · rename_i e₁
        have hs₁ : Steady s₀ _ := .of_snd e₁ (limbRead_steady hs)
        exact (setHomeJoins_only ..).steady rfl hs₁

theorem endJoin_steady {home id : Nat} {j : Join} {x : Launch} {ending : JoinEnd} (hs : Steady s₀ s) :
    Steady s₀ (endJoin home id j x ending s) := by
  unfold endJoin
  split
  · extract_lets s₁ s₂
    have hs₁ : Steady s₀ s₁ := (setHomeJoins_only ..).steady rfl (forwardJoin_steady hs)
    have hs₂ : Steady s₀ s₂ := (modLaunch_only ..).steady rfl hs₁
    split
    · exact (countOut_only ..).steady rfl hs₂
    · exact hs₂
  · extract_lets
    split
    · exact deliverWake_steady hs
    · split
      · exact hs
      · rename_i e₃
        have hs₃ : Steady s₀ _ := (deliver_steady hs) _ e₃
        extract_lets s₄
        have hs₄ : Steady s₀ s₄ := (bumpBy_only ..).steady rfl ((bumpBy_only ..).steady rfl ((bumpBy_only ..).steady rfl hs₃))
        exact (setHomeJoins_only ..).steady rfl hs₄

theorem settleJoin_steady {home id : Nat} (hs : Steady s₀ s) : Steady s₀ (settleJoin home id s) := by
  unfold settleJoin
  extract_lets ended s₁
  have hs₁ : Steady s₀ s₁ := .ite (joinRead_steady hs) hs
  split
  · exact hs₁
  · split
    · exact hs₁
    · split
      · exact hs₁
      · split
        · exact (setHomeJoins_only ..).steady rfl (forwardHere_steady hs₁)
        · split
          · exact hs₁
          · exact .ite hs₁ (.ite (endJoin_steady hs₁) hs₁)

theorem settleLaunch_steady {l : Nat} (hs : Steady s₀ s) : Steady s₀ (settleLaunch l s) :=
  .foldl (fun _ _ h => settleJoin_steady h) hs

theorem endLaunch_steady {l : Nat} (hs : Steady s₀ s) : Steady s₀ (endLaunch l s) := by
  unfold endLaunch
  extract_lets
  split
  · exact hs
  · exact .ite ((poolReturn_only ..).steady rfl hs) hs

theorem markFinals_steady {i t : Nat} (hs : Steady s₀ s) : Steady s₀ (markFinals i t s) := by
  unfold markFinals
  split
  · exact hs
  · split
    · extract_lets vs s₁ allDone s₂
      have hs₁ : Steady s₀ s₁ := .foldl (fun _ _ h => .foldl (fun _ _ h1 => .ite ((modJoin_only ..).steady rfl h1) h1) h) hs
      have hs₂ : Steady s₀ s₂ := .ite ((dropCharge_only ..).steady rfl ((modIsland_only ..).steady rfl hs₁)) hs₁
      exact endLaunch_steady (settleLaunch_steady hs₂)
    · exact hs

theorem markLaunch_steady {l : Nat} (hs : Steady s₀ s) : Steady s₀ (markLaunch l s) :=
  .foldl (fun _ _ h => .foldl (fun _ _ h1 => .ite (markFinals_steady h1) h1) h) hs

theorem pushFilled_steady {port : BitVec 12} {n : Nat} {o : OpenSlab} {planes last late : Bool} (hs : Steady s₀ s) :
    Steady s₀ (pushFilled port n o planes last late s) := by
  unfold pushFilled
  extract_lets
  split
  · exact hs
  · exact (pushEntry_only ..).steady rfl (storeRun_steady hs)

theorem flushOpen_steady {n : Nat} (hs : Steady s₀ s) : Steady s₀ (flushOpen n s) := by
  unfold flushOpen
  split
  · exact hs
  · exact .ite hs ((markLate_only ..).steady rfl (pushFilled_steady ((modLace_only ..).steady rfl hs)))

theorem recallLace_steady {n a : Nat} (hs : Steady s₀ s) : Steady s₀ (recallLace n a s) := by
  unfold recallLace
  split
  · exact hs
  · extract_lets slabs mine isOpen unread s₁ s₂
    have hs₁ : Steady s₀ s₁ := (bumpBy_only ..).steady rfl hs
    have hs₂ : Steady s₀ s₂ := (modLace_only ..).steady rfl hs₁
    exact flushOpen_steady (.foldl (fun _ _ h => (clearReleased_only ..).steady rfl h) hs₂)

theorem stopInLaunch_steady {a l : Nat} (hs : Steady s₀ s) : Steady s₀ (stopInLaunch a l s) := by
  unfold stopInLaunch
  split
  · exact hs
  · split
    · exact hs
    · extract_lets s₁ mine s₂ s₃ s₄
      have hs₁ : Steady s₀ s₁ := (dropJoins_only ..).steady rfl ((dropGroups_only ..).steady rfl hs)
      have hs₃ : Steady s₀ s₃ := .foldl (fun _ _ h => recallLace_steady h) hs₁
      have hs₄ : Steady s₀ s₄ := (modLaunch_only ..).steady rfl hs₃
      exact .ite (endLaunch_steady hs₄) (endLaunch_steady (settleLaunch_steady (markLaunch_steady hs₃)))

theorem recallRequest_steady {a : Nat} (hs : Steady s₀ s) : Steady s₀ (recallRequest a s) :=
  .foldl (fun _ _ h => stopInLaunch_steady h) hs

theorem stopRequest_steady {a status detail : Nat} {discarded : Bool} (hs : Steady s₀ s) :
    Steady s₀ (stopRequest a status detail discarded s) := by
  unfold stopRequest
  extract_lets s₁ s₂
  have hs₁ : Steady s₀ s₁ := (modReq_only ..).steady rfl hs
  have hs₂ : Steady s₀ s₂ := (revertKv_only ..).steady rfl (recallRequest_steady hs₁)
  split
  · exact hs
  · exact .ite hs (finish_steady hs₂)

end Sys2Proof.Laws
end

section
/-! SUPPORT. The records of Strait links (R380 to R389): what is sent changes a record's SEQ and replay buffer, and of a link in
EXCHANGE alone. -/

namespace Sys2Proof.Laws

open Sys2Proof.Machine

/-! ## One record -/

theorem linkOf_modLink_self (k : Nat) (f : Link → Link) (s : State) : linkOf (modLink k f s) k = f (linkOf s k) :=
  tget_tmod_self s.strait.links k {} f

theorem linkOf_modLink_ne {k o : Nat} (f : Link → Link) (s : State) (h : o ≠ k) : linkOf (modLink k f s) o = linkOf s o :=
  tget_tmod_ne s.strait.links {} f h

theorem linkOf_setLink_self (k : Nat) (st : LinkState) (s : State) : linkOf (setLink k st s) k = { linkOf s k with state := st } := by
  unfold setLink
  split
  next h =>
    have hst : (linkOf s k).state = st := by simpa using h
    rw [← hst]
  next => exact linkOf_modLink_self k _ s

theorem linkOf_setLink_ne {k o : Nat} (st : LinkState) (s : State) (h : o ≠ k) : linkOf (setLink k st s) o = linkOf s o := by
  unfold setLink
  split
  · rfl
  · exact linkOf_modLink_ne _ s h

/-- Strait is not among the parts that may change. -/
theorem only_linkOf_eq {P : List Part} {s t : State} (h : Only P s t) (hp : Part.strait ∉ P) (k : Nat) :
    linkOf t k = linkOf s k :=
  congrArg (fun g : Strait => tget g.links k {}) (h.2 .strait hp)

/-! ## What is sent -/

/-- The same record but for what has been sent on it, and the same one where the link is not in EXCHANGE. -/
structure LinkSent (l m : Link) : Prop where
  same : { m with txSeq := l.txSeq, replay := l.replay } = l
  idle : l.state ≠ .exchange → m = l

namespace LinkSent

variable {l m n : Link}

theorem refl (l : Link) : LinkSent l l := ⟨rfl, fun _ => rfl⟩

theorem state_eq (h : LinkSent l m) : m.state = l.state := (congrArg Link.state h.same :)

theorem trans (h : LinkSent l m) (k : LinkSent m n) : LinkSent l n :=
  ⟨(congrArg (fun x : Link => { x with txSeq := l.txSeq, replay := l.replay }) k.same).trans h.same,
    fun hl => (k.idle (by rwa [h.state_eq])).trans (h.idle hl)⟩

end LinkSent

/-- From `s` to `t` every INT_CAUSE bit has stayed set, and of the link records only what is sent has changed. -/
def Sent (s t : State) : Prop :=
  (∀ k, s.regs.intCause.getLsbD k = true → t.regs.intCause.getLsbD k = true) ∧ ∀ k, LinkSent (linkOf s k) (linkOf t k)

namespace Sent

variable {s t u : State}

theorem refl (s : State) : Sent s s := ⟨fun _ h => h, fun _ => .refl _⟩

theorem trans (h : Sent s t) (k : Sent t u) : Sent s u := ⟨fun i hi => k.1 i (h.1 i hi), fun i => (h.2 i).trans (k.2 i)⟩

theorem of_steady (h : Steady s t) : Sent s t :=
  ⟨h.1, fun k => by rw [show linkOf t k = linkOf s k from congrArg (fun l => tget l k ({} : Link)) h.2]; exact .refl _⟩

theorem of_only {P : List Part} (h : Only P s t) (hp : (P.contains .cause || P.contains .strait) = false) : Sent s t :=
  of_steady (h.steady hp (Steady.refl s))

theorem state_eq (h : Sent s t) (k : Nat) : (linkOf t k).state = (linkOf s k).state := (h.2 k).state_eq

theorem foldl {α : Type} {f : State → α → State} {l : List α} (hf : ∀ x a, Sent s x → Sent s (f x a)) (h : Sent s t) :
    Sent s (l.foldl f t) :=
  List.foldlRecOn l f h fun x hx a _ => hf x a hx

end Sent

/-- A FLIT leaves on a link in EXCHANGE (R385). -/
theorem transmit_sent {k : Nat} {s : State} (hk : (linkOf s k).state = .exchange) (type poison : Nat) (words : List Nat) :
    Sent s (transmit k type poison words s) := by
  unfold transmit
  extract_lets l seq f queued
  have hqueued : Sent s queued := by
    refine ⟨fun _ h => h, fun o => ?_⟩
    by_cases ho : o = k
    · rw [ho, linkOf_modLink_self]
      exact ⟨rfl, fun hidle => absurd hk hidle⟩
    · rw [linkOf_modLink_ne _ s ho]
      exact .refl _
  split
  · exact hqueued
  · exact hqueued.trans (.of_only (send_only ..) rfl)

/-- A run of FLITs on a link in EXCHANGE. -/
theorem foldl_transmit_sent {α : Type} {k : Nat} {s : State} (hk : (linkOf s k).state = .exchange) (type poison : α → Nat)
    (words : α → List Nat) (l : List α) : Sent s (l.foldl (fun s c => transmit k (type c) (poison c) (words c) s) s) :=
  .foldl (fun x _ hx => hx.trans (transmit_sent (by rw [hx.state_eq, hk]) ..)) (.refl s)

theorem exchange_of_gangLink {s : State} {m src k : Nat} (h : gangLink s m src = some k) : (linkOf s k).state = .exchange := by
  have hmem : k ∈ gangLinks s m := List.mem_of_getElem? h
  have hreaches := (List.mem_filter.1 hmem).2
  simp only [linkReaches, Bool.and_eq_true, beq_iff_eq] at hreaches
  exact hreaches.1

theorem sendCtl_sent (m kind : Nat) (ws : List Nat) (s : State) : Sent s (sendCtl m kind ws s) := by
  unfold sendCtl sendCtlBy
  split
  · exact .refl s
  next k hlink =>
    have hmessage : Sent s (send (.straitControl m kind ws) s) := .of_only (send_only ..) rfl
    exact hmessage.trans (foldl_transmit_sent (by rw [hmessage.state_eq, exchange_of_gangLink hlink]) (fun _ => 2) (fun _ => 0) id _)

/-! ## Aborts and lost gangs (R386, R403) -/

theorem abortKeys_sent (unit : Nat) (keys : List (BitVec 64)) (s : State) : Sent s (abortKeys unit keys s) := by
  unfold abortKeys
  extract_lets as_ forgotten stopped
  have hforgotten : Steady s forgotten := .refl s
  have hstopped : Steady s stopped := .foldl (fun _ _ h => stopRequest_steady h) hforgotten
  split
  · exact .of_steady hforgotten
  · exact .of_steady ((raise_only ..).steady rfl ((bump_only ..).steady rfl hstopped))

theorem sendAbort_sent (unit : Nat) (keys : List (BitVec 64)) (s : State) : Sent s (sendAbort unit keys s) := by
  unfold sendAbort
  extract_lets told aborted
  have htold : Sent s told := .foldl (fun _ _ h => h.trans (sendCtl_sent ..)) (.refl s)
  have haborted : Sent s aborted := htold.trans (abortKeys_sent ..)
  split
  · exact .refl s
  split
  · exact haborted.trans (.of_steady ((raise_only ..).steady rfl ((bump_only ..).steady rfl (.refl _))))
  · exact haborted

theorem gangLost_sent (m : Nat) (s : State) : Sent s (gangLost m s) := by
  unfold gangLost
  split
  · extract_lets lost
    have hlost : Steady s lost := .refl s
    exact (Sent.of_steady hlost).trans (sendAbort_sent ..)
  · exact .of_steady (.refl s)

theorem resendOn_sent {k : Nat} {s : State} (hk : (linkOf s k).state = .exchange) (f : Bytes) : Sent s (resendOn k f s) :=
  transmit_sent hk ..

theorem setLink_cause {k : Nat} {st : LinkState} {s : State} (h : (linkOf s k).state ≠ st) :
    (setLink k st s).regs.intCause.getLsbD 7 = true := by
  have hbeq : ((linkOf s k).state == st) = false := by simpa using h
  rw [setLink, hbeq, if_neg Bool.false_ne_true]
  exact cause_getLsbD_self _ (by decide)

theorem setLink_keepsCause (k : Nat) (st : LinkState) (s : State) {i : Nat} (h : s.regs.intCause.getLsbD i = true) :
    (setLink k st s).regs.intCause.getLsbD i = true := by
  unfold setLink
  split
  · exact h
  · exact (cause_steady (s := modLink k (fun l => { l with state := st }) s) ⟨fun _ hi => hi, rfl⟩).1 i h

/-! ## A lost link (R386) -/

/-- R386: where traffic goes on over another link of the gang, or the gang is lost. -/
def lostLinkGoesOn (k : Nat) (accepted : BitVec 12) (l : Link) (s : State) : State :=
  match gangLink s l.peerA.toNat (k % 7) with
  | none => gangLost l.peerA.toNat s
  | some o =>
    (afterAck accepted l.replay).foldl (fun s e => resendOn o e.2 s)
      (modLink o (fun y => if y.partialPacket = [] then { y with partialPacket := l.partialPacket } else y) s)

/-- The record of a lost link. -/
def linkGone (k : Nat) (s : State) : State :=
  setLink k (if (linkOf s k).lanes = 0 then .failed else .down)
    (modLink k (fun l => { l with replay := [], partialPacket := [], retraining := false }) s)

theorem loseLink_eq {k : Nat} {accepted : BitVec 12} {s : State}
    (h : (linkOf s k).state = .exchange ∨ ((linkOf s k).state = .failed ∧ (linkOf s k).replay ≠ [])) :
    loseLink k accepted s = lostLinkGoesOn k accepted (linkOf s k) (linkGone k s) := by
  have hguard : (!((linkOf s k).state == .exchange || ((linkOf s k).state == .failed && decide ((linkOf s k).replay ≠ [])))) = false := by
    simpa [← imp_iff_not_or, or_iff_not_imp_left] using h
  unfold loseLink
  extract_lets l m st gone
  rw [hguard, if_neg Bool.false_ne_true]
  rfl

theorem linkOf_linkGone_self (k : Nat) (s : State) : linkOf (linkGone k s) k = { linkOf s k with
    state := if (linkOf s k).lanes = 0 then .failed else .down, replay := [], partialPacket := [], retraining := false } := by
  rw [linkGone, linkOf_setLink_self, linkOf_modLink_self]

theorem linkOf_linkGone_ne {k o : Nat} (s : State) (h : o ≠ k) : linkOf (linkGone k s) o = linkOf s o := by
  rw [linkGone, linkOf_setLink_ne _ _ h, linkOf_modLink_ne _ _ h]

/-- What goes on leaves every state, the record of a link that is not in EXCHANGE, and INT_CAUSE. -/
theorem lostLinkGoesOn_keeps (k : Nat) (accepted : BitVec 12) (l : Link) (s : State) :
    (∀ i, s.regs.intCause.getLsbD i = true → (lostLinkGoesOn k accepted l s).regs.intCause.getLsbD i = true) ∧
      (∀ o, (linkOf (lostLinkGoesOn k accepted l s) o).state = (linkOf s o).state) ∧
      ∀ o, (linkOf s o).state ≠ .exchange → linkOf (lostLinkGoesOn k accepted l s) o = linkOf s o := by
  unfold lostLinkGoesOn
  split
  next =>
    have hsent := gangLost_sent l.peerA.toNat s
    exact ⟨hsent.1, hsent.state_eq, fun o ho => (hsent.2 o).idle ho⟩
  next g hlink =>
    have hg : (linkOf s g).state = .exchange := exchange_of_gangLink hlink
    generalize hu : modLink g (fun y => if y.partialPacket = [] then { y with partialPacket := l.partialPacket } else y) s = u
    have hself : (linkOf u g).state = .exchange := by
      rw [← hu, linkOf_modLink_self]
      split <;> exact hg
    have hne (o : Nat) (ho : o ≠ g) : linkOf u o = linkOf s o := by rw [← hu, linkOf_modLink_ne _ _ ho]
    have hstate (o : Nat) : (linkOf u o).state = (linkOf s o).state := by
      by_cases ho : o = g
      · rw [ho, hself, hg]
      · rw [hne o ho]
    have hcause : u.regs = s.regs := by rw [← hu, modLink_regs]
    have hsent : Sent u ((afterAck accepted l.replay).foldl (fun s e => resendOn g e.2 s) u) :=
      .foldl (fun x e hx => hx.trans (resendOn_sent (by rw [hx.state_eq, hself]) e.2)) (.refl u)
    refine ⟨fun i hi => hsent.1 i (hcause ▸ hi), fun o => (hsent.state_eq o).trans (hstate o), fun o ho => ?_⟩
    have hog : o ≠ g := fun hog => ho (hog ▸ hg)
    rw [(hsent.2 o).idle (by rwa [hstate]), hne o hog]

end Sys2Proof.Laws
end

section
/-! SUPPORT. The replay buffer of a link, retraining, NAKs, error episodes and lost links (R385 to R389). -/

namespace Sys2Proof.Laws

open Sys2Proof.Machine

/-! ## Runs of messages -/

/-- A run of messages leaves in order, and nothing else changes. -/
theorem foldl_send {α : Type} (m : α → OutMsg) (l : List α) (s : State) :
    l.foldl (fun s e => send (m e) s) s = { s with out := s.out ++ l.map m } := by
  induction l generalizing s with
  | nil => simp
  | cons e l ih => rw [List.foldl_cons, ih, send, List.map_cons, List.append_assoc, List.singleton_append]

/-! ## The replay buffer (R385) -/

/-- What is left of a replay buffer is its end. -/
theorem afterAck_suffix (ack : BitVec 12) (l : List (BitVec 12 × Bytes)) : afterAck ack l <:+ l := by
  unfold afterAck
  split
  · exact (List.drop_suffix 1 _).trans (List.dropWhile_suffix _)
  · exact List.suffix_rfl

/-- A buffer that does not overflow has sent everything: an acknowledgement frees and sends nothing new. -/
theorem acknowledge_eq {k : Nat} {s : State} (ack : BitVec 12) (h : (linkOf s k).replay.length ≤ 2048) :
    acknowledge k ack s = modLink k (fun l => { l with replay := afterAck ack (linkOf s k).replay }) s := by
  have hleft : (afterAck ack (linkOf s k).replay).length ≤ (linkOf s k).replay.length := (afterAck_suffix ..).length_le
  have hnew : ((afterAck ack (linkOf s k).replay).take replayDepth).drop
      (min replayDepth (linkOf s k).replay.length - ((linkOf s k).replay.length - (afterAck ack (linkOf s k).replay).length)) = [] := by
    rw [List.drop_eq_nil_iff, List.length_take]
    simp only [replayDepth]
    omega
  simp only [acknowledge, hnew, List.foldl_nil, ite_self]

/-- R385: the whole buffer that a replay sends again. -/
theorem replayAll_spec (k : Nat) (s : State) :
    linkOf (replayAll k s) k = { linkOf s k with replays := (linkOf (replayAll k s) k).replays } ∧
      (replayAll k s).out = s.out ++ ((linkOf s k).replay.take 2048).map (fun e => .straitFlit k e.1 e.2) ∧
      counterOf (replayAll k s) (ob 0x6212 1) = (counterOf s (ob 0x6212 1) + if (linkOf s k).replay = [] then 0 else 1) := by
  unfold replayAll
  extract_lets l bumped
  split
  next hnil =>
    refine ⟨rfl, ?_, (BitVec.add_zero _).symm⟩
    rw [show (linkOf s k).replay = [] from hnil, List.take_nil, List.map_nil, List.append_nil]
  next hnil =>
    rw [foldl_send]
    refine ⟨?_, rfl, counterOf_bump_self _ s⟩
    show linkOf bumped k = { linkOf s k with replays := (linkOf bumped k).replays }
    rw [show linkOf bumped k = _ from linkOf_modLink_self k _ _]
    rfl

/-- R388: the end of a retrain. -/
theorem linkRetrainDone_spec {half : Fin 14} {s : State} (h : (linkOf s (linkKey half.val)).retraining = true) :
    Completes (.linkRetrainDone half) s fun t =>
      (linkOf t (linkKey half.val)).retraining = false ∧
      (linkOf t (linkKey half.val)).replay = (linkOf s (linkKey half.val)).replay ∧
      t.out = s.out ++ ((linkOf s (linkKey half.val)).replay.take 2048).map (fun e => .straitFlit (linkKey half.val) e.1 e.2) ∧
      counterOf t (ob 0x6212 1) =
        (counterOf s (ob 0x6212 1) + if (linkOf s (linkKey half.val)).replay = [] then 0 else 1) ∧
      Only [.counters, .strait, .out] s t := by
  generalize hk : linkKey half.val = k at h ⊢
  have hexec : execLinkRetrainDone half s = .next (replayAll k (modLink k (fun l => { l with retraining := false }) s)) := by
    unfold execLinkRetrainDone
    rw [hk]
    exact if_pos h
  obtain ⟨hlink, hout, hcount⟩ := replayAll_spec k (modLink k (fun l => { l with retraining := false }) s)
  rw [linkOf_modLink_self] at hlink hout hcount
  refine ⟨_, hexec, ?_, ?_, hout, hcount, execLinkRetrainDone_only _ s _ hexec⟩
  · rw [hlink]
  · rw [hlink]

/-- R385: a NAK. -/
theorem nakReceive_spec {half : Fin 14} {s : State} (ack : BitVec 12) (h : (linkOf s (linkKey half.val)).state = .exchange)
    (hfits : (linkOf s (linkKey half.val)).replay.length ≤ 2048) :
    Completes (.nakReceive half ack) s fun t =>
      (linkOf t (linkKey half.val)).replay = afterAck ack (linkOf s (linkKey half.val)).replay ∧
      t.out = s.out ++ (afterAck ack (linkOf s (linkKey half.val)).replay).map (fun e => .straitFlit (linkKey half.val) e.1 e.2) ∧
      counterOf t (ob 0x6212 1) =
        (counterOf s (ob 0x6212 1) + if afterAck ack (linkOf s (linkKey half.val)).replay = [] then 0 else 1) ∧
      Only [.counters, .strait, .out] s t := by
  generalize hk : linkKey half.val = k at h hfits ⊢
  have hexec : execNakReceive half ack s = .next (replayAll k (acknowledge k ack s)) := by
    unfold execNakReceive
    rw [hk]
    exact if_pos (by rw [h]; rfl)
  have hleft : (afterAck ack (linkOf s k).replay).length ≤ 2048 := (afterAck_suffix ..).length_le.trans hfits
  obtain ⟨hlink, hout, hcount⟩ := replayAll_spec k (acknowledge k ack s)
  rw [acknowledge_eq ack hfits, linkOf_modLink_self] at hlink hout hcount
  rw [List.take_of_length_le hleft] at hout
  refine ⟨_, hexec, ?_, ?_, ?_, execNakReceive_only _ _ s _ hexec⟩ <;> rw [acknowledge_eq ack hfits]
  · rw [hlink]
  · exact hout
  · exact hcount

/-! ## Lost links (R386) -/

theorem linkLost_spec {half : Fin 14} {s : State} (acc : BitVec 12)
    (h : (linkOf s (linkKey half.val)).state = .exchange ∨
      ((linkOf s (linkKey half.val)).state = .failed ∧ (linkOf s (linkKey half.val)).replay ≠ [])) :
    Completes (.linkLost half acc) s fun t =>
      (linkOf t (linkKey half.val)).state = (if (linkOf s (linkKey half.val)).lanes = 0 then .failed else .down) ∧
      (linkOf t (linkKey half.val)).replay = [] ∧
      (∀ o, o ≠ linkKey half.val → (linkOf t o).state = (linkOf s o).state) ∧
      ((linkOf s (linkKey half.val)).state = .exchange → t.regs.intCause.getLsbD 7 = true) ∧
      Only [.power, .doms, .gov, .time, .cause, .counters, .events, .monitors, .que, .held, .model, .flow, .hbr, .islands,
        .clusters, .integ, .strait, .out, .free] s t := by
  generalize hk : linkKey half.val = k at h ⊢
  obtain ⟨hcause, hstate, hidle⟩ := lostLinkGoesOn_keeps k acc (linkOf s k) (linkGone k s)
  have hexec : execLinkLost half acc s = .next (lostLinkGoesOn k acc (linkOf s k) (linkGone k s)) := by
    rw [execLinkLost, hk, loseLink_eq h]
  have hgone := linkOf_linkGone_self k s
  have hdown : (linkOf (linkGone k s) k).state ≠ .exchange := by
    rw [hgone]
    dsimp only
    split <;> decide
  refine ⟨_, hexec, ?_, ?_, fun o ho => ?_, fun hwas => hcause 7 (setLink_cause ?_), execLinkLost_only half acc s _ hexec⟩
  · rw [hidle k hdown, hgone]
  · rw [hidle k hdown, hgone]
  · rw [hstate o, linkOf_linkGone_ne s ho]
  · rw [linkOf_modLink_self, hwas]
    split <;> decide

end Sys2Proof.Laws
end

section
/-! SUPPORT. The error intervals and episodes of a lane (R387, R388). -/

namespace Sys2Proof.Laws

open Sys2Proof.Machine

/-- From `s` to `t` what `f` reads of a link record has stayed, in every record. -/
structure LinksKeep {α : Type} (f : Link → α) (s t : State) : Prop where
  eq : ∀ o, f (linkOf t o) = f (linkOf s o)

namespace LinksKeep

variable {α : Type} {f : Link → α} {s t u : State} {P : List Part}

theorem refl (s : State) : LinksKeep f s s := ⟨fun _ => rfl⟩

theorem trans (h : LinksKeep f s t) (k : LinksKeep f t u) : LinksKeep f s u := ⟨fun o => (k.eq o).trans (h.eq o)⟩

theorem of_only (h : Only P s t) (hp : Part.strait ∉ P) : LinksKeep f s t := ⟨fun o => by rw [only_linkOf_eq h hp o]⟩

theorem of_sent (hf : ∀ (l : Link) (n : BitVec 12) (r), f { l with txSeq := n, replay := r } = f l) (h : Sent s t) :
    LinksKeep f s t :=
  ⟨fun o => by rw [← hf (linkOf t o) (linkOf s o).txSeq (linkOf s o).replay, (h.2 o).same]⟩

theorem modLink {g : Link → Link} (hf : ∀ l, f (g l) = f l) (k : Nat) (s : State) : LinksKeep f s (modLink k g s) := by
  refine ⟨fun o => ?_⟩
  by_cases ho : o = k
  · rw [ho, linkOf_modLink_self, hf]
  · rw [linkOf_modLink_ne _ s ho]

theorem setLink (hf : ∀ (l : Link) (st : LinkState), f { l with state := st } = f l) (k : Nat) (st : LinkState) (s : State) :
    LinksKeep f s (setLink k st s) := by
  refine ⟨fun o => ?_⟩
  by_cases ho : o = k
  · rw [ho, linkOf_setLink_self, hf]
  · rw [linkOf_setLink_ne _ s ho]

theorem foldl {β : Type} {g : State → β → State} {l : List β} (hg : ∀ x a, LinksKeep f s x → LinksKeep f s (g x a))
    (h : LinksKeep f s t) : LinksKeep f s (l.foldl g t) :=
  List.foldlRecOn l g h fun x hx a _ => hg x a hx

end LinksKeep

/-- What has been counted on the lanes of a link: its FEC counts and its episodes (R387). -/
def laneCounts (l : Link) : Tab Nat × Tab (BitVec 64) := (l.corrected, l.episodes)

/-- R388: retiring a lane keeps what has been counted on every lane. -/
theorem retireLane_laneCounts (k lane : Nat) (s : State) : LinksKeep laneCounts s (retireLane k lane s) := by
  unfold retireLane
  extract_lets told bit retired narrowed stopped m
  have htold : LinksKeep laneCounts s told := .of_only (permanentEvent_only ..) (by decide)
  have hretired : LinksKeep laneCounts told retired := .modLink (by intro _; rfl) ..
  have hnarrowed : LinksKeep laneCounts retired narrowed := .modLink (by intro _; rfl) ..
  have hall : LinksKeep laneCounts s narrowed := (htold.trans hretired).trans hnarrowed
  have hstopped : LinksKeep laneCounts narrowed stopped :=
    .trans (.trans (.modLink (by intro _; rfl) ..) (.setLink (by intros; rfl) ..)) (.of_only (raise_only ..) (by decide))
  split
  · split
    · exact (hall.trans hstopped).trans (.of_sent (by intros; rfl) (gangLost_sent ..))
    · exact hall.trans hstopped
  · exact hall

/-- A lane error episode within 1 ms of another is not one of its own. -/
def episodeFresh (k lane : Nat) (s : State) : Bool :=
  match tget? (linkOf s k).episodes lane with
  | some t => decide (1000000 ≤ (tideOf s - t).toNat)
  | none => true

/-- R387: an episode records its time, and nothing else of what has been counted. -/
theorem laneEpisode_laneCounts (k lane : Nat) (s : State) : if episodeFresh k lane s = true then
    LinksKeep laneCounts (modLink k (fun l => { l with episodes := tset l.episodes lane (tideOf s) }) s) (laneEpisode k lane s)
    else laneEpisode k lane s = s := by
  unfold laneEpisode
  extract_lets fresh noted
  rw [show fresh = episodeFresh k lane s from rfl]
  cases episodeFresh k lane s
  case false => rfl
  case true =>
    simp only [if_true, Bool.not_true, Bool.false_eq_true, if_false]
    have hcounted : LinksKeep laneCounts noted (countFailure .lane (4 * (k % 7) + lane) noted).1 :=
      .of_only (countFailure_only ..) (by decide)
    split
    · exact hcounted.trans (retireLane_laneCounts ..)
    · exact hcounted

/-- R387: the end of an interval of FEC corrections. -/
theorem laneCeInterval_spec (half : Fin 14) (lane : Fin 4) (s : State) : Completes (.laneCeInterval half lane) s fun t =>
    (linkOf t (linkKey half.val)).corrected = tdel (linkOf s (linkKey half.val)).corrected lane.val ∧
    Only [.power, .doms, .gov, .time, .cause, .counters, .events, .monitors, .que, .held, .model, .flow, .hbr, .islands,
      .clusters, .integ, .strait, .out, .free] s t ∧
    if tget (linkOf s (linkKey half.val)).corrected lane.val 0 ≤ dictNum s (ob 0x6211 1) then
      linkOf t (linkKey half.val) =
        { linkOf s (linkKey half.val) with corrected := tdel (linkOf s (linkKey half.val)).corrected lane.val } ∧ Only [.strait] s t
    else tget? (linkOf s (linkKey half.val)).episodes lane.val = none →
      tget? (linkOf t (linkKey half.val)).episodes lane.val = some (tideOf s) := by
  have hexec : execLaneCeInterval half lane s = .next _ := rfl
  refine ⟨_, hexec, ?_, execLaneCeInterval_only half lane s _ hexec, ?_⟩
  all_goals
    generalize linkKey half.val = k
    generalize hv : modLink k (fun l => { l with corrected := tdel l.corrected lane.val }) s = v
    have hself : linkOf v k = { linkOf s k with corrected := tdel (linkOf s k).corrected lane.val } := by
      rw [← hv, linkOf_modLink_self]
    have hnum : dictNum v (ob 0x6211 1) = dictNum s (ob 0x6211 1) := by rw [← hv]; rfl
    have htide : tideOf v = tideOf s := by rw [← hv]; rfl
    have hepisode := laneEpisode_laneCounts k lane.val v
  case refine_1 =>
    split
    next =>
      split at hepisode
      next =>
        have hcounts := (congrArg Prod.fst (hepisode.eq k) :)
        rw [linkOf_modLink_self] at hcounts
        exact hcounts.trans (congrArg Link.corrected hself)
      next => rw [hepisode, hself]
    next => rw [hself]
  case refine_2 =>
    rw [hnum]
    split
    next hle =>
      rw [if_neg (Nat.not_lt.2 hle)]
      exact ⟨hself, hv ▸ modLink_only ..⟩
    next hgt =>
      intro hnone
      have hfresh : episodeFresh k lane.val v = true := by
        rw [episodeFresh, hself]
        simp only [hnone]
      rw [if_pos hfresh] at hepisode
      have hcounts := (congrArg Prod.snd (hepisode.eq k) :)
      rw [linkOf_modLink_self] at hcounts
      rw [if_pos (Nat.not_le.1 hgt), ← htide]
      exact (congrArg (tget? · lane.val) hcounts).trans (tget?_tset_self ..)

end Sys2Proof.Laws
end

section
/-! SUPPORT. Receiving a FLIT (R383 to R386). -/

namespace Sys2Proof.Laws

open Sys2Proof.Machine

/-! ## What is received keeps the SEQ that was taken -/

theorem transmit_rxSeq (k type poison : Nat) (words : List Nat) (s : State) :
    LinksKeep Link.rxSeq s (transmit k type poison words s) := by
  unfold transmit
  extract_lets l seq f queued
  have hqueued : LinksKeep Link.rxSeq s queued := .modLink (by intro _; rfl) ..
  split
  · exact hqueued
  · exact hqueued.trans (.of_only (send_only ..) (by decide))

theorem sendPacket_rxSeq (port : Nat) (h : Flit) (body : List Flit) (s : State) :
    LinksKeep Link.rxSeq s (sendPacket port h body s) := by
  have hbump : LinksKeep Link.rxSeq s (bump (ob 0x6214 1) s) := .of_only (bump_only ..) (by decide)
  unfold sendPacket
  extract_lets dm t
  split
  · exact hbump
  split
  · exact .foldl (fun _ _ hx => hx.trans (transmit_rxSeq ..)) (.refl s)
  split
  · exact .of_only (send_only ..) (by decide)
  · exact hbump

theorem receivePacket_rxSeq (k : Nat) (h : Flit) (body : List Flit) (s : State) :
    LinksKeep Link.rxSeq s (receivePacket k h body s) := by
  have hsend (m : OutMsg) : LinksKeep Link.rxSeq s (send m s) := .of_only (send_only ..) (by decide)
  unfold receivePacket
  extract_lets n poison port counted m back
  have hcounted : LinksKeep Link.rxSeq s counted := .of_only (bump_only ..) (by decide)
  split
  · exact hsend _
  split
  · split
    · exact hsend _
    split
    · clear_value back
      split
      · exact hcounted
      · exact hcounted.trans (sendPacket_rxSeq ..)
    · exact hcounted
  · exact hsend _

theorem drainPackets_rxSeq (k n : Nat) (l : List Flit) (s : State) : LinksKeep Link.rxSeq s (drainPackets k n l s) := by
  induction n generalizing l s with
  | zero => exact .modLink (by intro _; rfl) ..
  | succ n ih =>
    match l with
    | [] => exact .modLink (by intro _; rfl) ..
    | h :: t =>
      simp only [drainPackets]
      split
      · exact ih ..
      split
      · exact .modLink (by intro _; rfl) ..
      · exact (receivePacket_rxSeq ..).trans (ih ..)

theorem acknowledge_rxSeq (k : Nat) (ack : BitVec 12) (s : State) : LinksKeep Link.rxSeq s (acknowledge k ack s) := by
  unfold acknowledge
  extract_lets l left sent freed
  have hfreed : LinksKeep Link.rxSeq s freed := .modLink (by intro _; rfl) ..
  split
  · exact hfreed
  · exact .foldl (fun _ _ hx => hx.trans (.of_only (send_only ..) (by decide))) hfreed

/-! ## The cases of a FLIT -/

theorem fit_self {b : Bytes} {n : Nat} (h : b.length = n) : fit b n = b := by
  rw [fit, h, Nat.sub_self, List.take_of_length_le h.le, List.replicate_zero, List.append_nil]

/-- A field of a number as a bit vector does not need its top cut. -/
theorem ofNat_bitsAt {n lo : Nat} : BitVec.ofNat 12 (bitsAt n (lo + 11) lo) = BitVec.ofNat 12 (n / 2 ^ lo) := by
  apply BitVec.eq_of_toNat_eq
  simp [bitsAt, Nat.shiftRight_eq_div_pow, show lo + 11 + 1 - lo = 12 by omega]

section Receive

variable {half : Fin 14} {flit : Bytes} {bad : BitVec 4} {s : State}

theorem execFlitReceive_closed (h : (linkOf s (linkKey half.val)).state ≠ .exchange ∨ (linkOf s (linkKey half.val)).retraining = true) :
    execFlitReceive half flit bad [] s = .next s := by
  unfold execFlitReceive
  extract_lets k l
  refine if_pos ?_
  rcases h with h | h
  · rw [show (l.state == .exchange) = false by simpa using h]
    rfl
  · rw [show l.retraining = true from h, Bool.or_true]

variable (hlen : flit.length = 256) (hstate : (linkOf s (linkKey half.val)).state = .exchange)
  (hretrain : (linkOf s (linkKey half.val)).retraining = false)
include hlen hstate hretrain

/-- A FLIT on an open link, without corrected bytes: bad CRC, out of order, or good. -/
theorem execFlitReceive_open : execFlitReceive half flit bad [] s =
    let k := linkKey half.val
    let head := fld flit 0 8
    let good := acknowledge k (BitVec.ofNat 12 (head / 2 ^ 16)) (modLink k (fun l => { l with rxSeq := BitVec.ofNat 12 (head / 16) }) s)
    let ws := (linkOf s k).partialPacket ++ flitPayload flit
    if fld flit 248 4 ≠ (crc32c (flit.take 248)).toNat then
      .next (match onlyLane bad with
        | some lane => laneEpisode k lane (send (.straitNak k (linkOf s k).rxSeq) s)
        | none => send (.straitNak k (linkOf s k).rxSeq) s)
    else if BitVec.ofNat 12 (head / 16) ≠ (linkOf s k).rxSeq + 1 then .next s
    else if head % 16 = 1 then .next (drainPackets k (ws.length + 1) ws good) else .next good := by
  have hopen : (!((linkOf s (linkKey half.val)).state == .exchange) || (linkOf s (linkKey half.val)).retraining) = false := by
    rw [hstate, hretrain]
    rfl
  simp only [execFlitReceive, hopen, Bool.false_eq_true, if_false, fit_self hlen, ofNat_bitsAt (lo := 4), ofNat_bitsAt (lo := 16)]
  rfl

theorem execFlitReceive_bad (hcrc : fld flit 248 4 ≠ (crc32c (flit.take 248)).toNat) (hlane : onlyLane bad = none) :
    execFlitReceive half flit bad [] s =
      .next { s with out := s.out ++ [.straitNak (linkKey half.val) (linkOf s (linkKey half.val)).rxSeq] } := by
  rw [execFlitReceive_open hlen hstate hretrain]
  simp only [if_pos hcrc, hlane]
  rfl

variable (hcrc : fld flit 248 4 = (crc32c (flit.take 248)).toNat)
include hcrc

theorem execFlitReceive_stray (hseq : BitVec.ofNat 12 (fld flit 0 8 / 16) ≠ (linkOf s (linkKey half.val)).rxSeq + 1) :
    execFlitReceive half flit bad [] s = .next s := by
  rw [execFlitReceive_open hlen hstate hretrain]
  simp only [hcrc, ne_eq, not_true, if_false, if_pos hseq]

theorem flitReceive_good (hseq : BitVec.ofNat 12 (fld flit 0 8 / 16) = (linkOf s (linkKey half.val)).rxSeq + 1) :
    Completes (.flitReceive half flit bad []) s fun t =>
      (linkOf t (linkKey half.val)).rxSeq = BitVec.ofNat 12 (fld flit 0 8 / 16) ∧
      Only [.power, .doms, .gov, .time, .cause, .counters, .events, .monitors, .que, .held, .model, .flow, .hbr, .islands,
        .clusters, .integ, .strait, .out, .free] s t ∧
      (fld flit 0 8 % 16 ≠ 1 → (linkOf s (linkKey half.val)).replay.length ≤ 2048 →
        linkOf t (linkKey half.val) = { linkOf s (linkKey half.val) with
          rxSeq := BitVec.ofNat 12 (fld flit 0 8 / 16)
          replay := afterAck (BitVec.ofNat 12 (fld flit 0 8 / 2 ^ 16)) (linkOf s (linkKey half.val)).replay } ∧ Only [.strait] s t) := by
  have hexec := execFlitReceive_open (bad := bad) hlen hstate hretrain
  simp only [hcrc, hseq, ne_eq, not_true, if_false] at hexec
  rw [← hseq] at hexec
  generalize linkKey half.val = k at hexec ⊢
  generalize hv : modLink k (fun l => { l with rxSeq := BitVec.ofNat 12 (fld flit 0 8 / 16) }) s = v at hexec
  have htaken : linkOf v k = { linkOf s k with rxSeq := BitVec.ofNat 12 (fld flit 0 8 / 16) } := by
    rw [← hv, linkOf_modLink_self]
  have hacked := (acknowledge_rxSeq k (BitVec.ofNat 12 (fld flit 0 8 / 2 ^ 16)) v).eq k
  rw [htaken] at hacked
  by_cases htype : fld flit 0 8 % 16 = 1
  · rw [if_pos htype] at hexec
    refine ⟨_, hexec, ?_, execFlitReceive_only _ _ _ _ s _ hexec, fun hne => absurd htype hne⟩
    exact ((drainPackets_rxSeq ..).eq k).trans hacked
  · rw [if_neg htype] at hexec
    refine ⟨_, hexec, hacked, execFlitReceive_only _ _ _ _ s _ hexec, fun _ hfits => ?_⟩
    rw [acknowledge_eq _ (by rw [htaken]; exact hfits), linkOf_modLink_self, htaken]
    exact ⟨rfl, (hv ▸ modLink_only ..).trans (modLink_only ..)⟩

end Receive

end Sys2Proof.Laws
end

section
/-! SUPPORT. Training of a link, and what a trained link starts (R380, R382, R389, R394, R400). -/

namespace Sys2Proof.Laws

open Sys2Proof.Machine

/-! ## Strait beside its link records -/

/-- From `s` to `t` the whole of Strait has stayed but for the link records. -/
structure BesideLinks (s t : State) : Prop where
  eq : { t.strait with links := s.strait.links } = s.strait

namespace BesideLinks

variable {s t u : State} {P : List Part}

theorem refl (s : State) : BesideLinks s s := ⟨rfl⟩

theorem trans (h : BesideLinks s t) (k : BesideLinks t u) : BesideLinks s u :=
  ⟨(congrArg (fun g : Strait => { g with links := s.strait.links }) k.eq).trans h.eq⟩

theorem of_only (h : Only P s t) (hp : Part.strait ∉ P) : BesideLinks s t :=
  ⟨congrArg (fun g : Strait => { g with links := s.strait.links }) (h.2 .strait hp)⟩

theorem foldl {β : Type} {g : State → β → State} {l : List β} (hg : ∀ x a, BesideLinks s x → BesideLinks s (g x a))
    (h : BesideLinks s t) : BesideLinks s (l.foldl g t) :=
  List.foldlRecOn l g h fun x hx a _ => hg x a hx

theorem membersOf_eq (h : BesideLinks s t) : membersOf t = membersOf s :=
  (congrArg (fun g : Strait => if g.refused then [] else (List.range 8).filter fun m => g.members.getLsbD m) h.eq :)

theorem gangs_eq (h : BesideLinks s t) : t.strait.gangs = s.strait.gangs := (congrArg Strait.gangs h.eq :)

theorem joining_eq (h : BesideLinks s t) : t.strait.joining = s.strait.joining := (congrArg Strait.joining h.eq :)

theorem collected_eq (h : BesideLinks s t) : t.strait.collected = s.strait.collected := (congrArg Strait.collected h.eq :)

theorem setLink (k : Nat) (st : LinkState) (s : State) : BesideLinks s (setLink k st s) := by
  unfold Machine.setLink
  split
  · exact refl s
  · exact ⟨rfl⟩

theorem transmit (k type poison : Nat) (words : List Nat) (s : State) : BesideLinks s (transmit k type poison words s) := by
  unfold Machine.transmit
  extract_lets l seq f queued
  have hqueued : BesideLinks s queued := ⟨rfl⟩
  split
  · exact hqueued
  · exact hqueued.trans (.of_only (send_only ..) (by decide))

theorem sendCtl (m kind : Nat) (ws : List Nat) (s : State) : BesideLinks s (sendCtl m kind ws s) := by
  unfold Machine.sendCtl sendCtlBy
  split
  · exact refl s
  next =>
    have hmessage : BesideLinks s (send (.straitControl m kind ws) s) := .of_only (send_only ..) (by decide)
    exact foldl (fun _ _ hx => hx.trans (transmit ..)) hmessage

theorem sendManifest (s : State) : BesideLinks s (sendManifest s) := by
  unfold Machine.sendManifest
  refine foldl (fun x m hx => ?_) (refl s)
  split
  · exact hx
  · exact hx.trans (sendCtl ..)

end BesideLinks

theorem sendManifest_sent (s : State) : Sent s (sendManifest s) := by
  unfold sendManifest
  refine .foldl (fun x m hx => ?_) (.refl s)
  split
  · exact hx
  · exact hx.trans (sendCtl_sent ..)

/-! ## A record after training -/

/-- The state in which training leaves a record (R389). -/
def trainedState (lanes retired : BitVec 4) (member : Bool) : LinkState :=
  if lanes = 0 then (if retired = 15 then .failed else .down) else if member then .training else .disabled

/-- The record of link `k` after training. -/
def trainedLink (k : Nat) (lanes : BitVec 4) (halves : Bool) (a b : BitVec 3) (s : State) : Link :=
  { state := trainedState lanes (retiredLanes s k) ((membersOf s).contains a.toNat), halves, lanes
    retired := (linkOf s k).retired, peerA := a, peerB := b, replays := (linkOf s k).replays, episodes := (linkOf s k).episodes }

section Record

variable (k : Nat) (lanes : BitVec 4) (halves : Bool) (a b : BitVec 3) (s : State)

/-- Training sets one record's state, and names a second module of this MOD_ID. -/
theorem trainRecord_eq : ∃ (fresh : Link) (u : State),
    { fresh with state := trainedState lanes (retiredLanes s k) ((membersOf s).contains a.toNat) } =
      trainedLink k lanes halves a b s ∧
    u = setLink k (trainedState lanes (retiredLanes s k) ((membersOf s).contains a.toNat))
      { s with strait := { s.strait with links := tset s.strait.links k fresh } } ∧
    (trainRecord k lanes halves a b s).strait = u.strait := by
  unfold trainRecord
  extract_lets g l st fresh u
  have hst : st = trainedState lanes (retiredLanes s k) ((membersOf s).contains a.toNat) := by
    simp only [st, trainedState]
    split <;> cases (membersOf s).contains a.toNat <;> rfl
  refine ⟨fresh, u, rfl, hst ▸ rfl, ?_⟩
  split
  · exact (raise_only ..).2 .strait (by decide)
  · rfl

theorem linkOf_trainRecord_self : linkOf (trainRecord k lanes halves a b s) k = trainedLink k lanes halves a b s := by
  obtain ⟨fresh, u, hfresh, hu, hstrait⟩ := trainRecord_eq k lanes halves a b s
  have hlink : linkOf { s with strait := { s.strait with links := tset s.strait.links k fresh } } k = fresh := tget_tset_self ..
  rw [linkOf, hstrait, ← linkOf, hu, linkOf_setLink_self, hlink, hfresh]

theorem trainRecord_links {o : Nat} (h : o ≠ k) : tget? (trainRecord k lanes halves a b s).strait.links o = tget? s.strait.links o := by
  obtain ⟨fresh, u, hfresh, hu, hstrait⟩ := trainRecord_eq k lanes halves a b s
  rw [hstrait, hu, setLink]
  split
  · exact tget?_tset_ne _ _ h
  · exact (tget?_tset_ne _ _ h).trans (tget?_tset_ne _ _ h)

theorem linkOf_trainRecord_ne {o : Nat} (h : o ≠ k) : linkOf (trainRecord k lanes halves a b s) o = linkOf s o :=
  congrArg (fun l : Option Link => l.getD {}) (trainRecord_links k lanes halves a b s h)

theorem membersOf_trainRecord : membersOf (trainRecord k lanes halves a b s) = membersOf s := by
  obtain ⟨fresh, u, hfresh, hu, hstrait⟩ := trainRecord_eq k lanes halves a b s
  have hset : BesideLinks s { s with strait := { s.strait with links := tset s.strait.links k fresh } } := ⟨rfl⟩
  have hbeside : BesideLinks s u := hu ▸ hset.trans (.setLink ..)
  rw [membersOf, hstrait, ← membersOf, hbeside.membersOf_eq]

end Record

/-! ## LINK_TRAINING (R380, R389) -/

/-- A record that training may find: neither trained nor failed. -/
def trainable (s : State) (k : Nat) : Bool := decide ((linkOf s k).state ≠ .exchange ∧ (linkOf s k).state ≠ .failed)

theorem not_beq_or_beq (st : LinkState) : (!(st == .exchange || st == .failed)) = decide (st ≠ .exchange ∧ st ≠ .failed) := by
  cases st <;> rfl

section Training

variable {n : Fin 7} {s : State}

theorem execLinkTraining_eq (lanes : BitVec 4) (halves : Bool) (a b : BitVec 3) :
    execLinkTraining n lanes halves a b s =
      if linksEnabled s = true ∧ domIsOn s (2083 + n.val) = true ∧ trainable s n.val = true ∧ trainable s (n.val + 7) = true then
        if halves = true ∧ a ≠ b then
          .next (trainRecord (n.val + 7) ((lanes &&& ~~~(linkOf s n.val).retired) &&& 12) true b b
            (trainRecord n.val ((lanes &&& ~~~(linkOf s n.val).retired) &&& 3) true a b s))
        else .next (trainRecord n.val (lanes &&& ~~~(linkOf s n.val).retired) false a a
          { s with strait := { s.strait with links := tdel s.strait.links (n.val + 7) } })
      else .next s := by
  have hretired : retiredLanes s n.val = (linkOf s n.val).retired := by rw [retiredLanes, Nat.mod_eq_of_lt n.isLt]
  simp only [execLinkTraining, not_beq_or_beq, hretired, domLink]
  have hguard : (!linksEnabled s || !domIsOn s (2083 + n.val) || !trainable s n.val || !trainable s (n.val + 7)) = true ↔
      ¬(linksEnabled s = true ∧ domIsOn s (2083 + n.val) = true ∧ trainable s n.val = true ∧ trainable s (n.val + 7) = true) := by
    simp only [Bool.or_eq_true, Bool.not_eq_true', not_and_or, Bool.not_eq_true, or_assoc]
  by_cases h : linksEnabled s = true ∧ domIsOn s (2083 + n.val) = true ∧ trainable s n.val = true ∧ trainable s (n.val + 7) = true
  · rw [if_pos h]
    refine (if_neg (mt hguard.1 (not_not.2 h))).trans ?_
    simp only [Bool.and_eq_true, decide_eq_true_eq]
  · rw [if_neg h]
    exact if_pos (hguard.2 h)

variable {lanes : BitVec 4} {halves : Bool} {a b : BitVec 3}

/-- R382: a split link trains into two halves, each with its own peer. -/
theorem linkTraining_halves (hexec : execLinkTraining n lanes halves a b s =
      .next (trainRecord (n.val + 7) ((lanes &&& ~~~(linkOf s n.val).retired) &&& 12) true b b
        (trainRecord n.val ((lanes &&& ~~~(linkOf s n.val).retired) &&& 3) true a b s))) :
    Completes (.linkTraining n lanes halves a b) s fun t => Only [.cause, .counters, .events, .held, .strait, .out] s t ∧
      linkOf t n.val = trainedLink n.val ((lanes &&& ~~~(linkOf s n.val).retired) &&& 3) true a b s ∧
      linkOf t (n.val + 7) = { trainedLink (n.val + 7) ((lanes &&& ~~~(linkOf s n.val).retired) &&& 12) true b b s with
        state := trainedState ((lanes &&& ~~~(linkOf s n.val).retired) &&& 12) (linkOf s n.val).retired
          ((membersOf s).contains b.toNat) } := by
  refine ⟨_, hexec, execLinkTraining_only _ _ _ _ _ s _ hexec, ?_, ?_⟩
  · rw [linkOf_trainRecord_ne _ _ _ _ _ _ (by omega), linkOf_trainRecord_self]
  · have hmod : (n.val + 7) % 7 = n.val := by omega
    rw [linkOf_trainRecord_self, trainedLink, membersOf_trainRecord, linkOf_trainRecord_ne _ _ _ _ _ _ (by omega), retiredLanes,
      hmod, linkOf_trainRecord_self]
    rfl

/-- R380: a whole link trains with one peer. -/
theorem linkTraining_whole (hexec : execLinkTraining n lanes halves a b s =
      .next (trainRecord n.val (lanes &&& ~~~(linkOf s n.val).retired) false a a
        { s with strait := { s.strait with links := tdel s.strait.links (n.val + 7) } })) :
    Completes (.linkTraining n lanes halves a b) s fun t => Only [.cause, .counters, .events, .held, .strait, .out] s t ∧
      linkOf t n.val = trainedLink n.val (lanes &&& ~~~(linkOf s n.val).retired) false a a s ∧
      ((tkeys s.strait.links).Pairwise (· < ·) → tget? t.strait.links (n.val + 7) = none) := by
  refine ⟨_, hexec, execLinkTraining_only _ _ _ _ _ s _ hexec, ?_, fun hup => ?_⟩
  · have hlink : linkOf { s with strait := { s.strait with links := tdel s.strait.links (n.val + 7) } } n.val = linkOf s n.val :=
      congrArg (fun l : Option Link => l.getD {}) (tget?_tdel_ne _ (by omega))
    rw [linkOf_trainRecord_self, trainedLink, retiredLanes, Nat.mod_eq_of_lt n.isLt, hlink, trainedLink, retiredLanes,
      Nat.mod_eq_of_lt n.isLt]
    rfl
  · rw [trainRecord_links _ _ _ _ _ _ (by omega)]
    exact tget?_tdel_self hup _

end Training

/-! ## LINK_TRAINED (R389, R394, R400) -/

theorem linkOf_foldl_setLink (ks : List Nat) (st : LinkState) (s : State) (o : Nat) :
    (linkOf (ks.foldl (fun s k => setLink k st s) s) o).state = if o ∈ ks then st else (linkOf s o).state := by
  induction ks generalizing s with
  | nil => rfl
  | cons k ks ih =>
    rw [List.foldl_cons, ih]
    by_cases ho : o = k
    · subst ho
      simp [linkOf_setLink_self]
    · simp [linkOf_setLink_ne _ _ ho, ho]

/-- R394, R400: a gang that enters EXCHANGE opens a join and waits for every manifest. -/
theorem enterExchange_spec {s : State} (m : Nat) (h : membersOf s ≠ []) :
    (∀ o, (linkOf (enterExchange m s) o).state = (linkOf s o).state) ∧
      tget? (enterExchange m s).strait.gangs m = some .exchange ∧ (enterExchange m s).strait.joining = true ∧
      (enterExchange m s).strait.collected = [] ∧ (enterExchange m s).regs.intCause.getLsbD 7 = true := by
  unfold enterExchange
  extract_lets joined
  have hmembers : membersOf joined ≠ [] := h
  rw [startExchange, if_neg hmembers]
  generalize hv : modStrait (fun g => { g with collected := [] }) joined = v
  have hbeside := BesideLinks.sendManifest v
  have hsent := sendManifest_sent v
  have hcause : joined.regs.intCause.getLsbD 7 = true := cause_getLsbD_self _ (by decide)
  refine ⟨fun o => ?_, ?_, ?_, ?_, hsent.1 7 ?_⟩
  · rw [hsent.state_eq, ← hv]
    rfl
  · rw [hbeside.gangs_eq, ← hv]
    exact tget?_tset_self ..
  · rw [hbeside.joining_eq, ← hv]
    rfl
  · rw [hbeside.collected_eq, ← hv]
    rfl
  · rw [← hv]
    exact hcause

section Trained

variable {peer : BitVec 3} {s : State}

/-- The records that have found this member in training. -/
def trainingKeys (s : State) (m : Nat) : List Nat :=
  (List.range 14).filter fun k => decide ((linkOf s k).state = .training ∧ (linkOf s k).peerA.toNat = m)

/-- The member has left, or this module has, and its gang is up in QUARANTINE (R400). -/
def comesBack (s : State) (m : Nat) : Bool := gangState s m == .quarantine && (s.strait.left || s.strait.gone.contains m)

theorem execLinkTrained_eq : execLinkTrained peer s =
    if linksEnabled s = false ∨ (peersOf s).contains peer.toNat = false ∨
        (trainingKeys s peer.toNat = [] ∧ comesBack s peer.toNat = false) then .next s
    else .next (if gangLinks s peer.toNat = [] ∨ comesBack s peer.toNat = true then
        enterExchange peer.toNat ((trainingKeys s peer.toNat).foldl (fun s k => setLink k .exchange s) s)
      else (trainingKeys s peer.toNat).foldl (fun s k => setLink k .exchange s) s) := by
  have hks : ((List.range 14).filter fun k => (linkOf s k).state == .training && decide ((linkOf s k).peerA.toNat = peer.toNat)) =
      trainingKeys s peer.toNat := by
    unfold trainingKeys
    congr 1
    funext k
    rw [Bool.decide_and]
    cases (linkOf s k).state <;> rfl
  simp only [execLinkTrained, hks]
  have hguard : (!linksEnabled s || !(peersOf s).contains peer.toNat ||
      (decide (trainingKeys s peer.toNat = []) && !comesBack s peer.toNat)) = true ↔
      linksEnabled s = false ∨ (peersOf s).contains peer.toNat = false ∨
        (trainingKeys s peer.toNat = [] ∧ comesBack s peer.toNat = false) := by
    simp only [Bool.or_eq_true, Bool.and_eq_true, Bool.not_eq_true', decide_eq_true_eq, or_assoc]
  have hstays : (decide (gangLinks s peer.toNat ≠ []) && !comesBack s peer.toNat) = true ↔
      ¬(gangLinks s peer.toNat = [] ∨ comesBack s peer.toNat = true) := by
    simp only [Bool.and_eq_true, Bool.not_eq_true', decide_eq_true_eq, not_or, Bool.not_eq_true, ne_eq]
  by_cases h : linksEnabled s = false ∨ (peersOf s).contains peer.toNat = false ∨
      (trainingKeys s peer.toNat = [] ∧ comesBack s peer.toNat = false)
  · rw [if_pos h]
    exact if_pos (hguard.2 h)
  · rw [if_neg h]
    refine (if_neg (mt hguard.1 h)).trans (congrArg Host.Outcome.next ?_)
    by_cases hjoin : gangLinks s peer.toNat = [] ∨ comesBack s peer.toNat = true
    · rw [if_pos hjoin]
      exact if_neg (mt hstays.1 (not_not.2 hjoin))
    · rw [if_neg hjoin]
      exact if_pos (hstays.2 hjoin)

theorem linkTrained_spec (henabled : linksEnabled s = true) (hpeer : (peersOf s).contains peer.toNat = true)
    (hsome : ¬(trainingKeys s peer.toNat = [] ∧ comesBack s peer.toNat = false)) :
    Completes (.linkTrained peer) s fun t => (∀ k ∈ trainingKeys s peer.toNat, (linkOf t k).state = .exchange) ∧
      (∀ k, k ∉ trainingKeys s peer.toNat → (linkOf t k).state = (linkOf s k).state) ∧
      (gangLinks s peer.toNat = [] ∨ comesBack s peer.toNat = true → tget? t.strait.gangs peer.toNat = some .exchange ∧
        t.strait.joining = true ∧ t.strait.collected = [] ∧ t.regs.intCause.getLsbD 7 = true) ∧ Only [.cause, .strait, .out] s t := by
  have hgo : ¬(linksEnabled s = false ∨ (peersOf s).contains peer.toNat = false ∨
      (trainingKeys s peer.toNat = [] ∧ comesBack s peer.toNat = false)) := by
    rintro (h | h | h)
    · exact absurd (henabled.symm.trans h) (by decide)
    · exact absurd (hpeer.symm.trans h) (by decide)
    · exact hsome h
  have hexec : execLinkTrained peer s = .next _ := execLinkTrained_eq.trans (if_neg hgo)
  have hstate := linkOf_foldl_setLink (trainingKeys s peer.toNat) .exchange s
  have hbeside : BesideLinks s ((trainingKeys s peer.toNat).foldl (fun s k => setLink k .exchange s) s) :=
    .foldl (fun _ _ hx => hx.trans (.setLink ..)) (.refl s)
  have hmembers : membersOf s ≠ [] := by
    simp only [linksEnabled, Bool.and_eq_true, decide_eq_true_eq] at henabled
    exact henabled.2
  have henter := enterExchange_spec peer.toNat (hbeside.membersOf_eq ▸ hmembers)
  refine ⟨_, hexec, fun k hk => ?_, fun k hk => ?_, fun hjoin => ?_, execLinkTrained_only _ s _ hexec⟩
  · split
    · rw [henter.1, hstate, if_pos hk]
    · rw [hstate, if_pos hk]
  · split
    · rw [henter.1, hstate, if_neg hk]
    · rw [hstate, if_neg hk]
  · rw [if_pos hjoin]
    exact henter.2

end Trained

end Sys2Proof.Laws
end

section
/-! SUPPORT. A packet's hop over the Sound (R172 to R175, R336). -/

namespace Sys2Proof.Laws

open Sys2Proof.Machine

/-! ## What happens on the side of a hop -/

/-- The counters that corrections, failures and events move on the side. -/
def hopSideCounters : List Nat := [ob 0x8042 1, ob 0x8045 1, ob 0x8048 1, ob 0x9041 4, ob 0x9043 1]

/-- A packet that leaves for a Sound port. -/
def isSoundData (m : OutMsg) : Bool := match m with | .soundData _ _ _ => true | _ => false

/-- From `s` to `t` no counter but the side counters has moved, and no packet has left. -/
structure Quiet (s t : State) : Prop where
  counters : ∀ c, c ∉ hopSideCounters → counterOf t c = counterOf s c
  packets : t.out.filter isSoundData = s.out.filter isSoundData

namespace Quiet

variable {s t u : State} {P : List Part}

theorem refl (s : State) : Quiet s s := ⟨fun _ _ => rfl, rfl⟩

theorem trans (h : Quiet s t) (k : Quiet t u) : Quiet s u :=
  ⟨fun c hc => (k.counters c hc).trans (h.counters c hc), k.packets.trans h.packets⟩

theorem of_only (h : Only P s t) (hc : Part.counters ∉ P) (ho : Part.out ∉ P) : Quiet s t :=
  ⟨fun c _ => h.counterOf_eq hc c, by rw [h.2 .out ho]⟩

theorem bump {o : Nat} (ho : o ∈ hopSideCounters) (s : State) : Quiet s (bump o s) :=
  ⟨fun _ hc => counterOf_bump_ne (by rintro rfl; exact hc ho) s, rfl⟩

theorem send {m : OutMsg} (hm : isSoundData m = false) (s : State) : Quiet s (send m s) := by
  refine ⟨fun c _ => rfl, ?_⟩
  rw [Machine.send, List.filter_append, List.filter_cons_of_neg (by rw [hm]; exact Bool.false_ne_true), List.filter_nil,
    List.append_nil]

theorem sendPort (p : Port) {m : OutMsg} (hm : isSoundData m = false) (s : State) : Quiet s (sendPort p m s) := by
  unfold Machine.sendPort
  split
  · exact ⟨fun _ _ => rfl, rfl⟩
  · exact .send hm s

theorem logEvent (e : Event) (s : State) : Quiet s (logEvent e s) := by
  unfold Machine.logEvent
  extract_lets lost counted logged faulted sent
  have hcounted : Quiet s counted := by
    unfold counted
    split
    · exact .bump (by decide) s
    · exact .refl s
  have hfaulted : Quiet counted faulted := by
    unfold faulted
    split <;> exact ⟨fun _ _ => rfl, rfl⟩
  have hsent : Quiet faulted sent := .sendPort _ rfl _
  have hall : Quiet s sent := (hcounted.trans hfaulted).trans hsent
  clear_value sent
  split
  · split
    · exact hall.trans (.send rfl _)
    · exact hall
  · exact hcounted.trans hfaulted

theorem raise (name : EventName) (k u : Nat) (s : State) : Quiet s (raise name k u s) := by
  simp only [Machine.raise, raiseSev]
  split
  · exact .bump (by decide) s
  · exact .logEvent ..

theorem bucketAdd (kind n : Nat) (s : State) : Quiet s (bucketAdd kind n s) := by
  unfold Machine.bucketAdd
  extract_lets key emptied
  have hcounted : Quiet s (cause 3 (Machine.bump (ob 0x8045 1) emptied)) :=
    ⟨(Quiet.bump (o := ob 0x8045 1) (by decide) emptied).counters, rfl⟩
  split
  · exact hcounted.trans (.raise ..)
  · exact ⟨fun _ _ => rfl, rfl⟩

theorem countFailure (k : UnitKind) (n : Nat) (s : State) : Quiet s (countFailure k n s).1 := by
  unfold Machine.countFailure
  extract_lets h now kept stamps perm
  split
  · exact .bump (by decide) s
  split
  · exact .refl s
  · exact ⟨fun _ _ => rfl, rfl⟩

theorem quarantineIsland (i : Nat) (s : State) : Quiet s (quarantineIsland i s) := by
  unfold Machine.quarantineIsland
  extract_lets out
  have hout : Quiet s out := .of_only (modIsland_only ..) (by decide) (by decide)
  exact (hout.trans (.raise ..)).trans (.raise ..)

/-- R336: one failure of an island. -/
theorem islandFailure (i : Nat) (s : State) : Quiet s (islandFailure i s) := by
  unfold Machine.islandFailure
  split
  next counted perm hcount =>
    have hcounted : Quiet s counted := by
      have hquiet := Quiet.countFailure .island i s
      rwa [hcount] at hquiet
    have hagain : Quiet counted (reissueIsland i counted) := .of_only (reissueIsland_only ..) (by decide) (by decide)
    split
    · exact (hcounted.trans hagain).trans (.quarantineIsland ..)
    · exact hcounted.trans hagain

end Quiet

/-! ## What the hop counts (R175) -/

theorem counterOf_bumpBy_self (o n : Nat) (s : State) : counterOf (bumpBy o n s) o = counterOf s o + BitVec.ofNat 64 n :=
  tget_tmod_self s.dict.counters o 0 fun c => c + BitVec.ofNat 64 n

theorem counterOf_bumpBy_ne {o c : Nat} (h : c ≠ o) (n : Nat) (s : State) : counterOf (bumpBy o n s) c = counterOf s c :=
  tget_tmod_ne s.dict.counters 0 (fun v => v + BitVec.ofNat 64 n) h

/-- R175, R323: the corrected flits are counted, each in its port's bucket. -/
theorem countCorrected_spec (port : BitVec 12) (p : List Flit) (s : State) :
    Quiet (bumpBy (ob 0x4030 1) (p.filter flitCorrected).length s) (countCorrected port p s) := by
  unfold countCorrected
  induction p.filter flitCorrected generalizing s with
  | nil =>
    refine ⟨fun c _ => ?_, rfl⟩
    by_cases hc : c = ob 0x4030 1
    · rw [hc, counterOf_bumpBy_self]
      exact (BitVec.add_zero _).symm
    · rw [counterOf_bumpBy_ne hc]
      rfl
  | cons f l ih =>
    have hone : Quiet (bump (ob 0x4030 1) s) (bucketAdd 4 port.toNat (bump (ob 0x8042 1) (bump (ob 0x4030 1) s))) :=
      (Quiet.bump (by decide) _).trans (.bucketAdd ..)
    refine ⟨fun c hc => ((ih _).counters c hc).trans ?_, (ih _).packets.trans hone.packets⟩
    by_cases hself : c = ob 0x4030 1
    · rw [hself, counterOf_bumpBy_self, counterOf_bumpBy_self, hone.counters _ (by decide), counterOf_bump_self, List.length_cons,
        BitVec.add_assoc, Nat.add_comm l.length 1, BitVec.ofNat_add]
      rfl
    · rw [counterOf_bumpBy_ne hself, counterOf_bumpBy_ne hself, hone.counters c hc, counterOf_bump_ne hself]

/-- R175: how often the flits of a packet were sent again. -/
def hopResends (p : List Flit) (resends : List Nat) : Nat :=
  (((List.range p.length).zip p).map fun e => if flitBroken e.2 then 2 else min 2 (resends.getD e.1 0)).sum

/-- A packet on its hop, with its corrected flits and resends counted. -/
def hopCounted (port : BitVec 12) (p : List Flit) (resends : List Nat) (s : State) : State :=
  countCorrected port p (bumpBy (ob 0x4031 1) (hopResends p resends) s)

theorem hopResends_whole {p : List Flit} (h : ∀ f ∈ p, flitBroken f = false) (resends : List Nat) :
    hopResends p resends = ((List.range p.length).map fun k => min 2 (resends.getD k 0)).sum := by
  have hone : ∀ e ∈ (List.range p.length).zip p, (if flitBroken e.2 then 2 else min 2 (resends.getD e.1 0)) =
      (fun k => min 2 (resends.getD k 0)) e.1 := fun e he => by
    rw [h e.2 (List.of_mem_zip he).2]
    rfl
  rw [hopResends, List.map_congr_left hone]
  change ((List.map ((fun k => min 2 (resends.getD k 0)) ∘ Prod.fst) _)).sum = _
  rw [← List.map_map, List.map_fst_zip (by rw [List.length_range])]

/-- A discarded packet is sent again by a sender that still holds it, and nothing else changes. -/
theorem resendLost_out (port : BitVec 12) (p : List Flit) (s : State) : Only [.out] s (resendLost port p s) := by
  unfold resendLost
  extract_lets agrees
  split
  · exact send_only ..
  · exact .refl _ s

/-! ## The cases of a hop (R172, R175) -/

/-- R172: a type that no packet has. -/
def hopReserved (h : Flit) : Bool := decide (packetType h = 0 ∨ 8 ≤ packetType h)

/-- A DATA packet delivered with its broken flits and its header poisoned (R175). -/
def poisonedData (h : Flit) (body : List Flit) : List Flit :=
  mkFlit (h.data ||| BitVec.ofNat 64 (2 ^ 27)) :: body.map fun f => if flitBroken f then poisonFlit f else f

/-- The packet as a hop delivers it: none where the hop discards it. -/
def hopDelivered (h0 : Flit) (rest : List Flit) : Option (List Flit) :=
  if flitBroken h0 || hopReserved (hopFlit h0) then none
  else if rest.any flitBroken = false then some (hopFlit h0 :: rest.map hopFlit)
  else if packetType (hopFlit h0) = 2 then some (poisonedData (hopFlit h0) (rest.map hopFlit))
  else if packetType (hopFlit h0) = 3 then some (hopFlit h0 :: (rest.map hopFlit).map poisonFlit) else none

/-- What a discarded packet leaves before its sender sends it again: an island's port counts a failure of the island (R336). -/
def hopDiscarded (port : BitVec 12) (s : State) : State :=
  if port.toNat < 2048 then islandFailure port.toNat (bump (ob 0x4032 1) s) else bump (ob 0x4032 1) s

section Hop

variable {port : BitVec 12} {h0 : Flit} {rest : List Flit} {r : List Nat} {s : State} (hport : portExists s port = true)

/-- A packet that goes on to a unit's port. -/
theorem hopDeliver_unit (hunit : port.toNat < 2339) (h : Flit) (body : List Flit) (s : State) :
    hopDeliver port h body s = send (.soundData port (h :: body) (packetPoison (h :: body))) s :=
  if_neg (Nat.not_le.2 hunit)

include hport

/-- A hop, by the packet's header, its type and its payload. -/
theorem execSoundHop_eq : execSoundHop port (h0 :: rest) r s =
    .next (if flitBroken h0 = true then hopFault port (h0 :: rest) true (hopCounted port (h0 :: rest) r s)
      else if hopReserved (hopFlit h0) = true then
        raise .snBadType 8 port.toNat (bump (ob 0x4033 1) (hopCounted port (h0 :: rest) r s))
      else if rest.any flitBroken = false then
        hopDeliver port (hopFlit h0) (rest.map hopFlit) (hopCounted port (h0 :: rest) r s)
      else if packetType (hopFlit h0) = 2 then hopFault port (h0 :: rest) false
        (hopDeliver port (mkFlit ((hopFlit h0).data ||| BitVec.ofNat 64 (2 ^ 27)))
          ((rest.map hopFlit).map fun f => if flitBroken f then poisonFlit f else f) (hopCounted port (h0 :: rest) r s))
      else if packetType (hopFlit h0) = 3 then hopFault port (h0 :: rest) false
        (hopDeliver port (hopFlit h0) ((rest.map hopFlit).map poisonFlit) (hopCounted port (h0 :: rest) r s))
      else hopFault port (h0 :: rest) true (hopCounted port (h0 :: rest) r s)) := by
  have hres : (decide (packetType (hopFlit h0) = 0) || decide (8 ≤ packetType (hopFlit h0))) = hopReserved (hopFlit h0) :=
    (Bool.decide_or ..).symm
  unfold execSoundHop
  rw [hport, Bool.not_true, if_neg Bool.false_ne_true]
  simp only [hres, Bool.not_eq_true', apply_ite Host.Outcome.next]
  rfl

end Hop

/-! ## What a hop has counted and let go -/

/-- From `v` to `t` one fault is counted where `fault`, and one reserved type where `bad`; neither the corrections nor the resends
have moved. -/
structure HopAdds (v t : State) (fault bad : Bool) : Prop where
  corrections : counterOf t (ob 0x4030 1) = counterOf v (ob 0x4030 1)
  resends : counterOf t (ob 0x4031 1) = counterOf v (ob 0x4031 1)
  faults : counterOf t (ob 0x4032 1) = (counterOf v (ob 0x4032 1) + if fault then 1 else 0)
  bads : counterOf t (ob 0x4033 1) = (counterOf v (ob 0x4033 1) + if bad then 1 else 0)

namespace HopAdds

variable {v t : State} {port : BitVec 12}

/-- What happens on the side of a fault adds nothing. -/
theorem of_fault (h : ∀ c, c ∉ hopSideCounters → counterOf t c = counterOf (bump (ob 0x4032 1) v) c) : HopAdds v t true false := by
  refine ⟨(h _ (by decide)).trans (counterOf_bump_ne (by decide) v), (h _ (by decide)).trans (counterOf_bump_ne (by decide) v),
    (h _ (by decide)).trans (counterOf_bump_self _ v), ?_⟩
  rw [h _ (by decide), counterOf_bump_ne (by decide)]
  exact (BitVec.add_zero _).symm

theorem discarded (p : List Flit) (v : State) : HopAdds v (resendLost port p (hopDiscarded port v)) true false := by
  refine of_fault fun c hc => ((resendLost_out ..).counterOf_eq (by decide) c).trans ?_
  unfold hopDiscarded
  split
  · exact (Quiet.islandFailure ..).counters c hc
  · rfl

theorem poisoned (m : OutMsg) (v : State) : HopAdds v (bump (ob 0x4032 1) (send m v)) true false := of_fault fun _ _ => rfl

theorem delivered (m : OutMsg) (v : State) : HopAdds v (send m v) false false :=
  ⟨rfl, rfl, (BitVec.add_zero _).symm, (BitVec.add_zero _).symm⟩

theorem reserved (u : Nat) (v : State) : HopAdds v (raise .snBadType 8 u (bump (ob 0x4033 1) v)) false true := by
  have hraise (c : Nat) (hc : c ∉ hopSideCounters) := (Quiet.raise .snBadType 8 u (bump (ob 0x4033 1) v)).counters c hc
  refine ⟨(hraise _ (by decide)).trans (counterOf_bump_ne (by decide) v), (hraise _ (by decide)).trans (counterOf_bump_ne (by decide) v),
    ?_, (hraise _ (by decide)).trans (counterOf_bump_self _ v)⟩
  rw [hraise _ (by decide), counterOf_bump_ne (by decide)]
  exact (BitVec.add_zero _).symm

end HopAdds

/-- What leaves on a hop to a unit's port: the packet as delivered, or, where the hop discards it, what its sender still holds. -/
def HopLeaves (port : BitVec 12) (h0 : Flit) (rest : List Flit) (s t : State) : Prop :=
  match hopDelivered h0 rest with
  | some q => t.out.getLast? = some (.soundData port q (packetPoison q))
  | none => if flitBroken h0 || !hopReserved (hopFlit h0)
    then ∃ v, t = resendLost port (h0 :: rest) v ∧ v.out.filter isSoundData = s.out.filter isSoundData ∧
      (2048 ≤ port.toNat → v.flow = s.flow)
    else t.out.filter isSoundData = s.out.filter isSoundData

section Hop

variable {port : BitVec 12} {h0 : Flit} {rest : List Flit} {r : List Nat} {s : State}

theorem hopCounted_packets (p : List Flit) : (hopCounted port p r s).out.filter isSoundData = s.out.filter isSoundData :=
  (countCorrected_spec ..).packets

theorem hopCounted_flow (p : List Flit) : (hopCounted port p r s).flow = s.flow :=
  (countCorrected_only ..).2 .flow (by decide)

/-- A discarded packet: what a failure of its port leaves holds every message and, at no island's port, what senders hold. -/
theorem hopLeaves_discarded (hnone : hopDelivered h0 rest = none) (hlost : (flitBroken h0 || !hopReserved (hopFlit h0)) = true) :
    HopLeaves port h0 rest s (resendLost port (h0 :: rest) (hopDiscarded port (hopCounted port (h0 :: rest) r s))) := by
  unfold HopLeaves
  rw [hnone]
  refine (if_pos hlost).mpr ⟨_, rfl, ?_, fun hfar => ?_⟩
  · refine Eq.trans ?_ (hopCounted_packets (port := port) (r := r) (h0 :: rest))
    unfold hopDiscarded
    split
    · exact (Quiet.islandFailure ..).packets
    · rfl
  · rw [hopDiscarded, if_neg (by omega)]
    exact hopCounted_flow ..

/-- A hop to a unit's port has one of four ends. -/
theorem soundHop_ends (hport : portExists s port = true) (hunit : port.toNat < 2339) :
    ∃ t, execSoundHop port (h0 :: rest) r s = .next t ∧
      HopAdds (hopCounted port (h0 :: rest) r s) t (flitBroken h0 || (!hopReserved (hopFlit h0) && rest.any flitBroken))
        (!flitBroken h0 && hopReserved (hopFlit h0)) ∧ HopLeaves port h0 rest s t := by
  refine ⟨_, execSoundHop_eq hport, ?_⟩
  cases hbroken : flitBroken h0
  case true =>
    exact ⟨.discarded .., hopLeaves_discarded (by simp [hopDelivered, hbroken]) (by simp [hbroken])⟩
  case false =>
  cases hres : hopReserved (hopFlit h0)
  case true =>
    refine ⟨.reserved .., ?_⟩
    simp only [HopLeaves, hopDelivered, hbroken, hres, Bool.false_or, if_true]
    exact (Quiet.raise ..).packets.trans (hopCounted_packets ..)
  case false =>
  simp only [Bool.false_eq_true, if_false, hopDeliver_unit hunit]
  cases hany : rest.any flitBroken
  case false =>
    refine ⟨.delivered .., ?_⟩
    simp only [HopLeaves, hopDelivered, hbroken, hres, hany, Bool.false_or, if_true]
    exact List.getLast?_concat
  case true =>
  by_cases htwo : packetType (hopFlit h0) = 2
  · rw [if_pos htwo]
    refine ⟨.poisoned .., ?_⟩
    simp only [HopLeaves, hopDelivered, hbroken, hres, hany, Bool.false_or, if_pos htwo]
    exact List.getLast?_concat
  by_cases hthree : packetType (hopFlit h0) = 3
  · rw [if_neg htwo, if_pos hthree]
    refine ⟨.poisoned .., ?_⟩
    simp only [HopLeaves, hopDelivered, hbroken, hres, hany, Bool.false_or, if_neg htwo, if_pos hthree]
    exact List.getLast?_concat
  · rw [if_neg htwo, if_neg hthree]
    exact ⟨.discarded .., hopLeaves_discarded (by simp [hopDelivered, hbroken, hres, hany, htwo, hthree]) (by simp [hres])⟩

theorem soundHop_spec (hport : portExists s port = true) (hunit : port.toNat < 2339) :
    Completes (.soundHop port (h0 :: rest) r) s fun t =>
      Only [.time, .cause, .counters, .events, .held, .flow, .islands, .integ, .strait, .out] s t ∧
      counterOf t (ob 0x4030 1) = counterOf s (ob 0x4030 1) + BitVec.ofNat 64 ((h0 :: rest).filter flitCorrected).length ∧
      counterOf t (ob 0x4032 1) = (counterOf s (ob 0x4032 1) +
        if flitBroken h0 || (!hopReserved (hopFlit h0) && rest.any flitBroken) then 1 else 0) ∧
      counterOf t (ob 0x4033 1) = (counterOf s (ob 0x4033 1) + if !flitBroken h0 && hopReserved (hopFlit h0) then 1 else 0) ∧
      ((∀ f ∈ h0 :: rest, flitBroken f = false) → counterOf t (ob 0x4031 1) = counterOf s (ob 0x4031 1) +
        BitVec.ofNat 64 ((List.range (rest.length + 1)).map fun k => min 2 (r.getD k 0)).sum) ∧
      HopLeaves port h0 rest s t := by
  obtain ⟨t, hexec, hadds, hleaves⟩ := soundHop_ends (h0 := h0) (rest := rest) (r := r) hport hunit
  have hcounted := (countCorrected_spec port (h0 :: rest) (bumpBy (ob 0x4031 1) (hopResends (h0 :: rest) r) s)).counters
  have hfault : counterOf (hopCounted port (h0 :: rest) r s) (ob 0x4032 1) = counterOf s (ob 0x4032 1) := by
    rw [hopCounted, hcounted _ (by decide), counterOf_bumpBy_ne (by decide), counterOf_bumpBy_ne (by decide)]
  have hbad : counterOf (hopCounted port (h0 :: rest) r s) (ob 0x4033 1) = counterOf s (ob 0x4033 1) := by
    rw [hopCounted, hcounted _ (by decide), counterOf_bumpBy_ne (by decide), counterOf_bumpBy_ne (by decide)]
  refine ⟨t, hexec, execSoundHop_only _ _ _ s _ hexec, ?_, ?_, ?_, fun hwhole => ?_, hleaves⟩
  · rw [hadds.corrections, hopCounted, hcounted _ (by decide), counterOf_bumpBy_self, counterOf_bumpBy_ne (by decide)]
  · rw [hadds.faults, hfault]
  · rw [hadds.bads, hbad]
  · rw [hadds.resends, hopCounted, hcounted _ (by decide), counterOf_bumpBy_ne (by decide), counterOf_bumpBy_self,
      hopResends_whole hwhole, List.length_cons]

end Hop

end Sys2Proof.Laws
end

section
/-! SUPPORT. A packet at a sending link port (R102, R384, R385, R405). -/

namespace Sys2Proof.Laws

open Sys2Proof.Machine

/-! ## A FLIT leaves (R385) -/

/-- The FLIT that link `k` sends next with this payload. -/
def nextFlit (k type poison : Nat) (words : List Nat) (s : State) : Bytes :=
  flitBytes type ((linkOf s k).txSeq + 1).toNat (linkOf s k).rxSeq.toNat false poison words

theorem linkOf_transmit (k type poison : Nat) (words : List Nat) (s : State) : linkOf (transmit k type poison words s) k =
    { linkOf s k with
      txSeq := (linkOf s k).txSeq + 1
      replay := (linkOf s k).replay ++ [((linkOf s k).txSeq + 1, nextFlit k type poison words s)] } := by
  unfold transmit
  extract_lets l seq f queued
  have hqueued : linkOf queued k = _ := linkOf_modLink_self k _ s
  split
  · exact hqueued
  · exact (only_linkOf_eq (send_only ..) (by decide) k).trans hqueued

theorem out_transmit (k type poison : Nat) (words : List Nat) (s : State) : (transmit k type poison words s).out =
    s.out ++ (if (linkOf s k).retraining = true ∨ 2048 ≤ (linkOf s k).replay.length then []
      else [.straitFlit k ((linkOf s k).txSeq + 1) (nextFlit k type poison words s)]) := by
  unfold transmit
  extract_lets l seq f queued
  have hguard : (l.retraining || decide (replayDepth ≤ l.replay.length)) = true ↔ l.retraining = true ∨ 2048 ≤ l.replay.length := by
    rw [Bool.or_eq_true, decide_eq_true_iff, replayDepth]
  by_cases hwait : l.retraining = true ∨ 2048 ≤ l.replay.length
  · rw [if_pos hwait, if_pos (hguard.2 hwait), List.append_nil]
    rfl
  · rw [if_neg hwait, if_neg (mt hguard.1 hwait)]
    rfl

/-! ## A packet without errors (R175) -/

theorem hopFlit_clean {f : Flit} (h : flitCorrected f = false) : hopFlit f = f := by
  unfold flitCorrected at h
  unfold hopFlit
  cases hsyn : eccDecode (syndrome f.data f.check) <;> simp_all

theorem chunksOf_single {α : Type} {n : Nat} {l : List α} (hne : l ≠ []) (hlen : l.length ≤ n) (fuel : Nat) :
    chunksOf n (fuel + 1) l = [l] := by
  match l with
  | [] => exact absurd rfl hne
  | a :: l =>
    rw [chunksOf, List.take_of_length_le hlen, List.drop_eq_nil_of_le hlen]
    · cases fuel <;> rfl
    · exact List.cons_ne_nil a l

section Clean

variable {port : BitVec 12} {h : Flit} {body : List Flit} {s : State}
  (hclean : ∀ f ∈ h :: body, flitBroken f = false ∧ flitCorrected f = false)
include hclean

theorem hopCounted_clean : hopCounted port (h :: body) [] s = bumpBy (ob 0x4031 1) 0 s := by
  have hnone : (h :: body).filter flitCorrected = [] := List.filter_eq_nil_iff.2 fun f hf => by simp [(hclean f hf).2]
  have hresends : hopResends (h :: body) [] = 0 := by
    rw [hopResends_whole fun f hf => (hclean f hf).1]
    exact List.sum_eq_zero fun n hn => by obtain ⟨k, -, rfl⟩ := List.mem_map.1 hn; rfl
  rw [hopCounted, hresends, countCorrected, hnone, List.foldl_nil]

/-- A packet without errors goes on to its link as it is, and its sender lets go of it (R102). -/
theorem execSoundHop_link (hlow : 2339 ≤ port.toNat) (hhigh : port.toNat ≤ 2345) (htype : 1 ≤ packetType h ∧ packetType h ≤ 3) :
    execSoundHop port (h :: body) [] s = .next (ackPacket [h] (sendPacket port.toNat h body (bumpBy (ob 0x4031 1) 0 s))) := by
  have hport : portExists s port = true := by
    simp only [portExists, Bool.or_eq_true, Bool.and_eq_true, decide_eq_true_eq]
    omega
  have hhead : hopFlit h = h := hopFlit_clean (hclean h List.mem_cons_self).2
  have hbody : body.map hopFlit = body :=
    (List.map_congr_left fun f hf => hopFlit_clean (hclean f (List.mem_cons_of_mem _ hf)).2).trans (List.map_id' body)
  have hres : hopReserved h = false := by
    simp only [hopReserved, decide_eq_false_iff_not]
    omega
  have hwhole : body.any flitBroken = false := List.any_eq_false.2 fun f hf => by simp [(hclean f (List.mem_cons_of_mem _ hf)).1]
  rw [execSoundHop_eq hport, hhead, hbody, hres, hwhole, (hclean h List.mem_cons_self).1, hopCounted_clean hclean]
  simp only [Bool.false_eq_true, if_false, if_true, hopDeliver, if_pos hlow]

end Clean

/-- R384, R396, R405: the cases of a packet for another module. -/
theorem sendPacket_eq {port : Nat} {h : Flit} {body : List Flit} {s : State} (hlen : body.length < 30)
    (htype : 1 ≤ packetType h ∧ packetType h ≤ 3) : sendPacket port h body s =
      match (if mayCarry s (h.data.toNat / 2 ^ 57 % 8) then portLink s port (h.data.toNat / 2 ^ 57 % 8) else none) with
      | some k => transmit k 1 (flitWords (h :: body)).1 (flitWords (h :: body)).2 s
      | none => if packetType h = 1 then send (.soundData (BitVec.ofNat 12 (packetSender h)) (poisonAnswer h) true) s
        else bump (ob 0x6214 1) s := by
  have hmember : bitsAt h.data.toNat 59 57 = h.data.toNat / 2 ^ 57 % 8 := by
    rw [bitsAt, Nat.shiftRight_eq_div_pow]
    rfl
  have hknown : (decide (packetType h ≠ 1) && decide (packetType h ≠ 2) && decide (packetType h ≠ 3)) = false := by
    simp only [Bool.and_eq_false_iff, decide_eq_false_iff_not]
    omega
  unfold sendPacket
  extract_lets dm t
  rw [if_neg (by rw [hknown]; exact Bool.false_ne_true), show dm = _ from hmember,
    chunksOf_single (List.cons_ne_nil _ _) (by rw [List.length_cons]; omega)]
  rfl

theorem soundHop_link {port : BitVec 12} {h : Flit} {body : List Flit} {s : State} (hlow : 2339 ≤ port.toNat)
    (hhigh : port.toNat ≤ 2345) (hlen : body.length < 30)
    (hclean : ∀ f ∈ h :: body, flitBroken f = false ∧ flitCorrected f = false) (htype : 1 ≤ packetType h ∧ packetType h ≤ 3) :
    Completes (.soundHop port (h :: body) []) s fun t =>
      match (if mayCarry s (h.data.toNat / 2 ^ 57 % 8) then portLink s port.toNat (h.data.toNat / 2 ^ 57 % 8) else none) with
      | some k =>
        linkOf t k = { linkOf s k with
          txSeq := (linkOf s k).txSeq + 1
          replay := (linkOf s k).replay ++
            [((linkOf s k).txSeq + 1, nextFlit k 1 (flitWords (h :: body)).1 (flitWords (h :: body)).2 s)] } ∧
        t.out = s.out ++ (if (linkOf s k).retraining = true ∨ 2048 ≤ (linkOf s k).replay.length then []
          else [.straitFlit k ((linkOf s k).txSeq + 1) (nextFlit k 1 (flitWords (h :: body)).1 (flitWords (h :: body)).2 s)]) ∧
        Only [.counters, .flow, .strait, .out] s t
      | none =>
        if packetType h = 1 then
          t.out = s.out ++ [.soundData (BitVec.ofNat 12 (packetSender h)) (poisonAnswer h) true] ∧ Only [.counters, .flow, .out] s t
        else counterOf t (ob 0x6214 1) = counterOf s (ob 0x6214 1) + 1 ∧ Only [.counters, .flow] s t := by
  refine ⟨_, execSoundHop_link hclean hlow hhigh htype, ?_⟩
  generalize hv : bumpBy (ob 0x4031 1) 0 s = v
  have hcounted : Only [.counters] s v := hv ▸ bumpBy_only ..
  have hlink (k : Nat) : linkOf v k = linkOf s k := only_linkOf_eq hcounted (by decide) k
  have hout : v.out = s.out := hcounted.2 .out (by decide)
  have hack (t : State) := ackPacket_only [h] t
  have hcarry (m : Nat) : (if mayCarry v m then portLink v port.toNat m else none) =
      if mayCarry s m then portLink s port.toNat m else none := by rw [← hv]; rfl
  rw [sendPacket_eq hlen htype, hcarry]
  generalize (if mayCarry s (h.data.toNat / 2 ^ 57 % 8) then portLink s port.toNat (h.data.toNat / 2 ^ 57 % 8) else none) = carrier
  cases carrier with
  | some k =>
    refine ⟨?_, ?_, ((hcounted.mono rfl).trans ((transmit_only ..).mono rfl)).trans ((hack _).mono rfl)⟩
    · rw [only_linkOf_eq (hack _) (by decide), linkOf_transmit, nextFlit, hlink]
      rfl
    · rw [show (ackPacket [h] _).out = _ from (hack _).2 .out (by decide), out_transmit, nextFlit, hlink, hout]
      rfl
  | none =>
    by_cases hread : packetType h = 1
    · rw [if_pos hread]
      simp only [if_pos hread]
      refine ⟨?_, ((hcounted.mono rfl).trans ((send_only ..).mono rfl)).trans ((hack _).mono rfl)⟩
      rw [show (ackPacket [h] _).out = _ from (hack _).2 .out (by decide), send, hout]
    · rw [if_neg hread]
      simp only [if_neg hread]
      refine ⟨?_, ((hcounted.mono rfl).trans ((bump_only ..).mono rfl)).trans ((hack _).mono rfl)⟩
      rw [(hack _).counterOf_eq (by decide), counterOf_bump_self, ← hv, counterOf_bumpBy_ne (by decide)]

end Sys2Proof.Laws
end

section
/-! PROOF of O59 (R172 to R175, R380 to R389). -/

namespace Sys2Proof.Laws

open Sys2Proof.Machine

theorem loseLink_idle {k : Nat} {accepted : BitVec 12} {s : State}
    (h : ¬((linkOf s k).state = .exchange ∨ ((linkOf s k).state = .failed ∧ (linkOf s k).replay ≠ []))) :
    loseLink k accepted s = s := by
  unfold loseLink
  refine if_pos ?_
  rw [Bool.not_eq_true', Bool.or_eq_false_iff, Bool.and_eq_false_iff]
  simpa [imp_iff_not_or] using h

/-- Settles O59, hop by hop and link by link: every clause is a lemma about its command, and what an abort or a replay sends
changes a link record's SEQ and buffer alone (`Sent`). -/
theorem soundHopsAndStraitLinks : Obligations.SoundHopsAndStraitLinks := by
  refine ⟨fun port p r s hport => ?absent, fun port r s hport => ?empty,
    fun port h0 rest r s hport hunit => soundHop_spec hport hunit,
    fun port h body s hlow hhigh hlen hclean hlo hhi => soundHop_link hlow hhigh hlen hclean ⟨hlo, hhi⟩,
    fun n lanes halves a b s => ?training, fun peer s => ?trained, fun half flit bad s hlen => ?receive,
    fun half lane s => laneCeInterval_spec half lane s, fun half s => ?retrained, fun half ack s => ?nak, fun half acc s => ?lost⟩
  case absent =>
    exact if_pos (by rw [hport]; rfl)
  case empty =>
    exact if_neg (by rw [hport]; decide)
  case training =>
    intro idle kept state
    have hstate (ls : BitVec 4) (p : BitVec 3) :
        trainedState ls (linkOf s n.val).retired ((membersOf s).contains p.toNat) = state ls p := by
      simp only [trainedState, state, List.contains_iff_mem]
    have hretired : retiredLanes s n.val = (linkOf s n.val).retired := by rw [retiredLanes, Nat.mod_eq_of_lt n.isLt]
    have htrained (ls : BitVec 4) (f : Bool) (p q : BitVec 3) : (trainedLink n.val ls f p q s).state = state ls p := by
      simp only [trainedLink, hretired]
      exact hstate ..
    have hexec := execLinkTraining_eq (n := n) (s := s) lanes halves a b
    split
    next h =>
      replace hexec := hexec.trans (if_pos h)
      by_cases hsplit : halves = true ∧ a ≠ b
      · replace hexec := hexec.trans (if_pos hsplit)
        obtain ⟨t, hstep, honly, hfirst, hsecond⟩ := linkTraining_halves hexec
        refine ⟨t, hstep, honly, ?_⟩
        rw [if_pos hsplit, hfirst, hsecond]
        exact ⟨rfl, rfl, htrained .., rfl, rfl, hstate ..⟩
      · replace hexec := hexec.trans (if_neg hsplit)
        obtain ⟨t, hstep, honly, hwhole, hgone⟩ := linkTraining_whole hexec
        refine ⟨t, hstep, honly, ?_⟩
        rw [if_neg hsplit, hwhole]
        exact ⟨rfl, rfl, rfl, htrained .., hgone⟩
    next h => exact hexec.trans (if_neg h)
  case trained =>
    intro m ks back
    split
    next h => exact execLinkTrained_eq.trans (if_pos h)
    next h =>
      obtain ⟨henabled, hpeer, hsome⟩ := not_or.1 h |>.imp_right not_or.1
      exact linkTrained_spec (by simpa using henabled) (by simpa using hpeer) hsome
  case receive =>
    intro k l head seq
    split
    next h => exact execFlitReceive_closed h
    next h =>
      obtain ⟨hstate, hretrain⟩ := not_or.1 h
      have hopen : l.state = .exchange := not_not.1 hstate
      have hflows : l.retraining = false := by simpa using hretrain
      split
      next hcrc => exact fun hlane => execFlitReceive_bad hlen hopen hflows hcrc hlane
      next hcrc =>
        split
        next hseq => exact execFlitReceive_stray hlen hopen hflows (not_not.1 hcrc) hseq
        next hseq => exact flitReceive_good hlen hopen hflows (not_not.1 hcrc) (not_not.1 hseq)
  case retrained =>
    intro k l
    split
    next h => exact if_neg (by rw [h]; exact Bool.false_ne_true)
    next h => exact linkRetrainDone_spec (by simpa using h)
  case nak =>
    intro k l left
    split
    next h => exact if_neg (by simpa using h)
    next h => exact fun hfits => nakReceive_spec ack (not_not.1 h) hfits
  case lost =>
    intro k l
    split
    next h => exact linkLost_spec acc h
    next h => exact congrArg Host.Outcome.next (loseLink_idle h)

end Sys2Proof.Laws
end

section
/-! SUPPORT. Placing, releasing and re-placing a Last (R26, R201 to R214): what each command answers in each of its cases, settled. -/

namespace Sys2Proof

open Sys2Proof.Machine

/-- The power state is in three parts of the frame: power domains, the governor's queue, and the rest. -/
theorem Only.power_eq {P : List Part} {s t : State} (h : Only P s t) (hp : Part.power ∉ P) (hd : Part.doms ∉ P) (hg : Part.gov ∉ P) :
    t.power = s.power := by
  have hrest : { t.power with
      doms := s.power.doms, waiting := s.power.waiting, nextOrder := s.power.nextOrder
      shankCharged := s.power.shankCharged } = s.power := h.2 .power hp
  have hdoms : t.power.doms = s.power.doms := h.2 .doms hd
  obtain ⟨hwaiting, horder, hshank⟩ := h.2 .gov hg
  rw [← hdoms, ← hwaiting, ← horder, ← hshank] at hrest
  exact hrest

theorem Only.setModel (s : State) (m : Model) : Only [.model] s { s with model := m } := by
  refine ⟨⟨rfl, rfl, rfl, rfl⟩, fun p hp => ?_⟩
  cases p
  case model => exact absurd (by decide) hp
  all_goals first | rfl | exact ⟨rfl, rfl, rfl⟩

end Sys2Proof

namespace Sys2Proof.Laws

open Sys2Proof.Machine

@[simp] theorem slotOf_setSlot_self (n : Nat) (sl : Slot) (s : State) : slotOf (setSlot n sl s) n = sl := tget_tset_self _ _ _ _

section Place

variable {a : Fin 4096} {c : Cmd} {choice : List Placed} {s : State}

/-- R203: the slot shares the banks of a placement that another slot holds. -/
def shareBanks (n : Nat) (l : List Placed) (s : State) : State :=
  l.foldl (fun s q => modBank q.bank (fun b => { b with owners := insertUp n b.owners }) s) s

theorem shareBanks_only (n : Nat) (l : List Placed) (s : State) : Only [.banks] s (shareBanks n l s) :=
  .foldl (fun t q ht => ht.trans (modBank_only q.bank _ t)) (.refl _ s)

/-- A Last takes slot `n`, on banks that are already its own. -/
theorem setSlot_newSlot_spec {t : State} (n : Nat) (f : LastFile) (st : LastState) (l : List Placed) (rep : Bytes)
    (h : Only [.model, .banks] s t) :
    let u := setSlot n (newSlot f st l rep) t
    (slotOf u n).state = st ∧ (slotOf u n).places = l ∧ Only [.model, .banks] s u := by
  dsimp only
  rw [slotOf_setSlot_self]
  exact ⟨rfl, rfl, .step (setSlot_only n _ t) rfl h⟩

theorem execPlace_unread (hc : cmdSub s a.val 0x18 0 = some c) : execPlace a .failed choice s =
    .next (finish a.val { status := St.hostAccess, detail := 0x10 } (sendReport c (failedReport s none 0) s)) := by
  simp only [execPlace, hc, hostData, finishAt]

section Read

variable {file : HostRead} {b : Bytes} (hc : cmdSub s a.val 0x18 0 = some c) (hread : hostData (fld c.entry 0x18 8) file = some b)
include hc hread

theorem execPlace_unsound {st : Nat} (hcheck : checkLast s b = .inl st) :
    execPlace a file choice s = .next (placeFails a.val c st (failedReport s (reportPlan b) 0) s) := by
  simp only [execPlace, hc, hread, hcheck]

theorem execPlace_sound {f : LastFile} (hcheck : checkLast s b = .inr f) :
    execPlace a file choice s = .next (placeChecked a.val c f choice s) := by
  simp only [execPlace, hc, hread, hcheck]

end Read

variable {f : LastFile} {n k : Nat}

theorem placeChecked_noSlot (hfree : freeSlotNumber s = none) :
    placeChecked k c f choice s = placeFails k c St.resourceLimit (failedReport s (some f.plan) 0) s := by
  simp only [placeChecked, hfree]

/-- R203: an image that is resident keeps its banks, and the slot is RESIDENT at once. -/
theorem placeChecked_resident {other : Nat × Slot} (hfree : freeSlotNumber s = some n) (hres : residentOn s f.image = some other) :
    let rep := placementReport s n 2 n f.plan other.2.places true 0
    placeChecked k c f choice s = finish k { status := St.success, result := n }
      (sendReport c rep (setSlot n (newSlot f .resident other.2.places rep) (shareBanks n other.2.places s))) := by
  simp only [placeChecked, hfree, hres, shareBanks]

variable (hfree : freeSlotNumber s = some n) (hres : residentOn s f.image = none)
include hfree hres

theorem placeChecked_noFit (hplacer : placerChoice s n f.plan false [] (fun _ => none) choice = none) :
    placeChecked k c f choice s = placeFails k c St.capacity (failedReport s (some f.plan) (shortfallBanks s f.plan)) s := by
  simp only [placeChecked, hfree, hres, hplacer]

variable {l : List Placed} (hplacer : placerChoice s n f.plan false [] (fun _ => none) choice = some l)
include hplacer

theorem placeChecked_refused (hloss : dictNum s (ob 0x7011 1) < expectedLoss f.plan l) :
    placeChecked k c f choice s = placeFails k c St.spillRefused (placementReport s n 0 0xFF f.plan l false 0) s := by
  simp only [placeChecked, hfree, hres, hplacer, if_pos hloss]

theorem placeChecked_placed (hloss : ¬dictNum s (ob 0x7011 1) < expectedLoss f.plan l) :
    let rep := placementReport s n 1 n f.plan l false 0
    placeChecked k c f choice s = finish k { status := St.success, result := n }
      (sendReport c rep (setSlot n (newSlot f .placed l rep) (placedAnew f.image (takeBanks n l s)))) := by
  simp only [placeChecked, hfree, hres, hplacer, if_neg hloss]

end Place

section Release

variable {a : Fin 4096} {c : Cmd} {s : State}

/-- R202, R219: a slot that begins to be released gives up its placement, its swap and its groups; R26 no longer concerns it. -/
def beginRelease (n : Nat) (s : State) : State :=
  let s := setSlot n
    { slotOf s n with state := .releasing, plan := none, places := [], oldPlaces := [], swap := none, detaching := false } s
  { s with que := { s.que with groups := s.que.groups.filter fun g => g.2 ≠ n },
           power := { s.power with unplaceable := s.power.unplaceable.filter fun m => m ≠ n } }

theorem slotOf_beginRelease (n : Nat) (s : State) : slotOf (beginRelease n s) n =
    { slotOf s n with state := .releasing, plan := none, places := [], oldPlaces := [], swap := none, detaching := false } :=
  slotOf_setSlot_self n _ s

theorem beginRelease_groups (n : Nat) (s : State) : ∀ g ∈ (beginRelease n s).que.groups, g.2 ≠ n := fun _ hg =>
  of_decide_eq_true (List.mem_filter.1 hg).2

theorem beginRelease_only (n : Nat) (s : State) : Only [.model, .que, .power] s (beginRelease n s) := by
  refine ⟨⟨rfl, rfl, rfl, rfl⟩, fun p hp => ?_⟩
  cases p
  case model | que | power => exact absurd (by decide) hp
  all_goals first | rfl | exact ⟨rfl, rfl, rfl⟩

variable (hc : cmdSub s a.val 0x19 1 = some c) (hwaits : bindWaits s c = false) (hslot : entSlot c.entry < 64)
include hc hwaits hslot

theorem execRelease_begins
    (hstate : (slotOf s (entSlot c.entry)).state = .placed ∨ (slotOf s (entSlot c.entry)).state = .resident)
    (hswap : swapBusy s (slotOf s (entSlot c.entry)) = false) :
    let n := entSlot c.entry
    let sl := slotOf s n
    execRelease a s = .next (finish a.val { status := St.success, result := 0 } (imageReleased sl.imageHash
      (stopOrphanLoads sl.imageHash (returnBanks n (slotBanks sl) (abandonMoves n (slotBanks sl) (beginRelease n s)))))) := by
  have hready : (!((slotOf s (entSlot c.entry)).state == .placed || (slotOf s (entSlot c.entry)).state == .resident)) = false := by
    rcases hstate with hstate | hstate <;> rw [hstate] <;> rfl
  simp only [execRelease, hc, hwaits, Nat.not_le.2 hslot, hready, hswap, Bool.false_eq_true, if_false, beginRelease]

theorem execRelease_otherState (hplaced : (slotOf s (entSlot c.entry)).state ≠ .placed)
    (hresident : (slotOf s (entSlot c.entry)).state ≠ .resident) :
    execRelease a s = .next (finish a.val { status := St.lastState } s) := by
  have hready : (!((slotOf s (entSlot c.entry)).state == .placed || (slotOf s (entSlot c.entry)).state == .resident)) = true := by
    simp [hplaced, hresident]
  simp only [execRelease, hc, hwaits, Nat.not_le.2 hslot, hready, Bool.false_eq_true, if_false, if_true, finishSt]

end Release

section Freed

variable {slot : Fin 64} {s : State}

theorem execLastSlotFreed_owning (howns : (s.banks.any fun b => b.2.owners.contains slot.val) = true) :
    execLastSlotFreed slot s = .next s := by
  simp only [execLastSlotFreed, howns, Bool.not_true, Bool.and_false, Bool.false_eq_true, if_false]

theorem execLastSlotFreed_free (hstate : (slotOf s slot.val).state = .releasing)
    (howns : ¬(s.banks.any fun b => b.2.owners.contains slot.val) = true) :
    execLastSlotFreed slot s = .next { s with model := { s.model with slots := tdel s.model.slots slot.val } } := by
  have hfree : ((slotOf s slot.val).state == .releasing && !(s.banks.any fun b => b.2.owners.contains slot.val)) = true := by
    simp only [hstate, eq_false_of_ne_true howns]
    rfl
  exact if_pos hfree

end Freed

section RePlacement

variable {slot : Fin 64} {slice : Nat} {target : Option Placed} {q : Placed} {p : LastPlan} {s : State}

/-- R26: a Last that the module cannot place asserts FAULT_N, and its placement stands. -/
theorem cannotPlace_spec {n : Nat} (hnew : s.power.unplaceable.contains n = false) :
    let t := cannotPlace n s
    t.power.unplaceable = insertUp n s.power.unplaceable ∧ t.power.faultN = true ∧ t.model = s.model ∧ t.banks = s.banks := by
  have hframe := cannotPlace_only n s
  have hpower : (cannotPlace n s).power = { s.power with unplaceable := insertUp n s.power.unplaceable, faultN := true } := by
    rw [cannotPlace, if_neg (ne_true_of_eq_false hnew)]
    exact (raiseFault_only ..).power_eq (by decide) (by decide) (by decide)
  exact ⟨congrArg Power.unplaceable hpower, congrArg Power.faultN hpower, hframe.2 .model (by decide), hframe.2 .banks (by decide)⟩

theorem cannotPlace_again {n : Nat} (hknown : s.power.unplaceable.contains n = true) : cannotPlace n s = s := if_pos hknown

/-- A lost place of a live Last is due for a move, unless one is under way. -/
theorem rePlacement_due
    (hlive : (slotOf s slot.val).state = .placed ∨ (slotOf s slot.val).state = .resident ∨ (slotOf s slot.val).state = .bound)
    (hlost : placeLost s q = true) (hstill : moving s q.bank = false) :
    (!((slotOf s slot.val).state == .placed || (slotOf s slot.val).state == .resident || (slotOf s slot.val).state == .bound) ||
      !placeLost s q || moving s q.bank) = false := by
  rw [hlost, hstill]
  rcases hlive with hlive | hlive | hlive <;> rw [hlive] <;> rfl

variable (hplace : ((slotOf s slot.val).places.find? fun q => q.slice = slice) = some q)
include hplace

theorem execRePlacement_kept (hlost : placeLost s q = false) : execRePlacement slot slice target s = .next s := by
  cases hplan : (slotOf s slot.val).plan <;> simp only [execRePlacement, hplace, hplan, hlost, Bool.not_false, Bool.or_true,
    Bool.true_or, if_true]

variable (hplan : (slotOf s slot.val).plan = some p)
  (hlive : (slotOf s slot.val).state = .placed ∨ (slotOf s slot.val).state = .resident ∨ (slotOf s slot.val).state = .bound)
  (hlost : placeLost s q = true) (hstill : moving s q.bank = false)
include hplan hlive hlost hstill

theorem execRePlacement_moves {n : Nat} (hfresh : freshBank s slot.val p (slotOf s slot.val).places q.bank slice q.spill
    (target.map fun t => t.bank) = some n) : execRePlacement slot slice target s = .next (replaceBank q.bank n q.spill s) := by
  simp only [execRePlacement, hplace, hplan, rePlacement_due hlive hlost hstill, Bool.false_eq_true, if_false, hfresh]

variable (hfresh : freshBank s slot.val p (slotOf s slot.val).places q.bank slice q.spill (target.map fun t => t.bank) = none)
include hfresh

theorem execRePlacement_spills {l : List Placed}
    (hspill : (if q.spill then none else (recOf p slice).bind fun r => spillFor s p (slotOf s slot.val).places r) = some l) :
    execRePlacement slot slice target s = .next (spillInto slot.val l s) := by
  simp only [execRePlacement, hplace, hplan, rePlacement_due hlive hlost hstill, Bool.false_eq_true, if_false, hfresh, hspill]

theorem execRePlacement_stuck
    (hspill : (if q.spill then none else (recOf p slice).bind fun r => spillFor s p (slotOf s slot.val).places r) = none) :
    execRePlacement slot slice target s = .next (if (slotOf s slot.val).state = .bound then cannotPlace slot.val s else s) := by
  simp only [execRePlacement, hplace, hplan, rePlacement_due hlive hlost hstill, Bool.false_eq_true, if_false, hfresh, hspill, beq_iff_eq]

end RePlacement

/-- Settles O29: each outcome of a command is one equation; that a slot taken is on its banks is one lemma for both ways of placing. -/
theorem placementCommands : Obligations.PlacementCommands := by
  refine ⟨fun a c file choice b s hc hread => ?place, fun a c choice s hc => ⟨_, execPlace_unread (choice := choice) hc⟩,
    fun a c s hc hwaits hslot hstate hswap => ?release,
    fun a c s hc hwaits hslot hplaced hresident => ⟨_, s, execRelease_otherState hc hwaits hslot hplaced hresident, rfl, rfl⟩,
    fun slot s hstate => ?freed, fun slot slice target q p s hlive hplace hplan hlost hstill => ?replace,
    fun slot slice q target s hplace hlost => execRePlacement_kept hplace hlost⟩
  case place =>
    split
    next st hcheck => exact ⟨_, execPlace_unsound hc hread hcheck⟩
    next f hcheck =>
      have hexec := execPlace_sound (choice := choice) hc hread hcheck
      split
      next hfree => exact ⟨_, hexec.trans (congrArg _ (placeChecked_noSlot hfree))⟩
      next n hfree =>
        split
        next other hres =>
          exact ⟨_, _, hexec.trans (congrArg _ (placeChecked_resident hfree hres)),
            setSlot_newSlot_spec n f .resident other.2.places _ ((shareBanks_only ..).mono rfl)⟩
        next hres =>
          split
          next hplacer => exact ⟨_, hexec.trans (congrArg _ (placeChecked_noFit hfree hres hplacer))⟩
          next l hplacer =>
            split
            next hloss => exact ⟨_, hexec.trans (congrArg _ (placeChecked_refused hfree hres hplacer hloss))⟩
            next hloss =>
              exact ⟨_, _, hexec.trans (congrArg _ (placeChecked_placed hfree hres hplacer hloss)),
                setSlot_newSlot_spec n f .placed l _
                  (.step (placedAnew_only ..) rfl ((takeBanks_only n l s).mono rfl))⟩
  case release =>
    have hbegun := slotOf_beginRelease (entSlot c.entry) s
    exact ⟨_, beginRelease (entSlot c.entry) s, execRelease_begins hc hwaits hslot hstate hswap, by rw [hbegun], by rw [hbegun],
      by rw [hbegun], rfl, beginRelease_groups _ s, beginRelease_only ..⟩
  case freed =>
    split
    next howns => exact execLastSlotFreed_owning howns
    next howns => exact ⟨_, execLastSlotFreed_free hstate howns, rfl, Only.setModel ..⟩
  case replace =>
    split
    next n hfresh => exact ⟨_, execRePlacement_moves hplace hplan hlive hlost hstill hfresh, rfl, replaceBank_only ..⟩
    next hfresh =>
      split
      next l hspill => exact ⟨_, execRePlacement_spills hplace hplan hlive hlost hstill hfresh hspill, rfl, spillInto_only ..⟩
      next hspill =>
        have hexec := execRePlacement_stuck hplace hplan hlive hlost hstill hfresh hspill
        split
        next hbound =>
          obtain ⟨hstate, hnew⟩ := hbound
          exact ⟨_, hexec.trans (congrArg _ (if_pos hstate)), cannotPlace_spec hnew⟩
        next hother =>
          refine hexec.trans (congrArg _ ?_)
          split
          next hstate => exact cannotPlace_again (by simpa [hstate] using hother)
          next => rfl

end Sys2Proof.Laws
end

section
/-! SUPPORT. LOAD_MANIFEST and LOAD_SHARD (R228, R231, R234 to R236, R240): each outcome as one equation. -/

namespace Sys2Proof.Laws

open Sys2Proof.Machine

/-! ## LOAD_MANIFEST (R228, R234, R236) -/

section LoadManifest

variable {a : Fin 4096} {c : Cmd} {m : HostRead} {b : Bytes} {s : State} (hc : cmdAt s a.val 0x10 = some c)
  (hlist : entArg c.entry = 0xFFFFFFFF) (hread : hostData (fld c.entry 0x18 8) m = some b)
include hc hlist hread

theorem execLoadManifest_malformed (hform : manifestOk b (fld c.entry 0x18 8) = false) :
    execLoadManifest a m s = .next (finish a.val { status := St.shardFormat, result := 1 } (bump (ob 0x7044 1) s)) := by
  simp [execLoadManifest, hc, hlist, hread, hform]

variable (hform : manifestOk b (fld c.entry 0x18 8) = true)
include hform

theorem execLoadManifest_known (hknown : (imageNamed s (manifestHash b)).isSome = true) :
    execLoadManifest a m s = .next (finish a.val { status := St.success, result := 1 } s) := by
  simp [execLoadManifest, hc, hlist, hread, hform, hknown]

variable {k : Nat} (hnew : imageNamed s (manifestHash b) = none) (hfree : freeKey s.model.images 128 = some k)
include hnew hfree

theorem execLoadManifest_unsigned
    (hsigned : publisherSigned s (newImage b).keySlot (newImage b).hash (newImage b).rsaSig (newImage b).slhSig = false) :
    execLoadManifest a m s = .next (finish a.val { status := St.signatureInvalid, result := 1 } s) := by
  simp [execLoadManifest, hc, hlist, hread, hform, hnew, hfree, hsigned]

variable (hsigned : publisherSigned s (newImage b).keySlot (newImage b).hash (newImage b).rsaSig (newImage b).slhSig = true)
include hsigned

theorem execLoadManifest_noBase (hadapters : (newImage b).adapters = true)
    (hbase : ¬∃ e, imageNamed s (newImage b).target = some e ∧ e.2.adapters = false) :
    execLoadManifest a m s = .next (finish a.val { status := St.imageUnknown, result := 1 } s) := by
  cases htarget : imageNamed s (newImage b).target with
  | none => simp [execLoadManifest, hc, hlist, hread, hform, hnew, hfree, hsigned, hadapters, htarget]
  | some e =>
    have he : e.2.adapters = true := Bool.not_eq_false _ ▸ fun h => hbase ⟨e, htarget, h⟩
    simp [execLoadManifest, hc, hlist, hread, hform, hnew, hfree, hsigned, hadapters, htarget, he]

theorem execLoadManifest_recorded
    (hbase : (newImage b).adapters = true → ∃ e, imageNamed s (newImage b).target = some e ∧ e.2.adapters = false) :
    execLoadManifest a m s = .next (finish a.val { status := St.success, result := 1 } (setImage k (newImage b) s)) := by
  cases hadapters : (newImage b).adapters with
  | false => simp [execLoadManifest, hc, hlist, hread, hform, hnew, hfree, hsigned, hadapters]
  | true =>
    obtain ⟨e, htarget, he⟩ := hbase hadapters
    simp [execLoadManifest, hc, hlist, hread, hform, hnew, hfree, hsigned, hadapters, htarget, he]

end LoadManifest

/-! ## LOAD_SHARD (R234, R235, R240) -/

/-- R235: a load as LOAD_SHARD begins it, of shard `n` of the image `r` in record `k`. -/
def newLoad (k n : Nat) (r : ImageRec) : Load :=
  { image := k, shard := n, attempt := 1, programming := false, sealing := false
    refetch := (tget? r.refetch n).isSome && r.present.contains n }

/-- The record of the load of command `a` is written. -/
def setLoad (a : Nat) (l : Load) (s : State) : State := { s with model := { s.model with loads := tset s.model.loads a l } }

theorem setLoad_only (a : Nat) (l : Load) (s : State) : Only [.model] s (setLoad a l s) := Only.setModel s _

theorem loads_setLoad_self (a : Nat) (l : Load) (s : State) : tget? (setLoad a l s).model.loads a = some l := tget?_tset_self ..

/-- R235: the load is entered, and its command runs. -/
theorem setStage_setLoad_spec {a : Nat} {c : Cmd} {s : State} (hc : tget? s.que.cmds a = some c) (l : Load) :
    let u := setStage a .running (setLoad a l s)
    tget? u.model.loads a = some l ∧ tget? u.que.cmds a = some { c with stage := .running } ∧ Only [.model, .que] s u := by
  have hstage := setStage_only a .running (setLoad a l s)
  refine ⟨?_, setStage_cmds (s := setLoad a l s) hc .running, ((setLoad_only ..).mono rfl).trans (hstage.mono rfl)⟩
  rw [hstage.2 .model (by decide)]
  exact loads_setLoad_self ..

theorem execLoadShard_begins {a : Fin 4096} {c : Cmd} {hash : HostRead} {h : Bytes} {k : Nat} {r : ImageRec} {s : State}
    (hc : cmdAt s a.val 0x10 = some c) (hshard : entArg c.entry ≠ 0xFFFFFFFF) (hread : hostData 48 hash = some h)
    (himage : imageNamed s h = some (k, r)) (hlisted : entArg c.entry < r.shards.length)
    (hidle : (s.model.loads.any fun l => l.2.image = k && l.2.shard = entArg c.entry) = false)
    (hmissing : (r.present.contains (entArg c.entry) = false ∧ r.written.contains (entArg c.entry) = false) ∨
      (tget? r.refetch (entArg c.entry)).isSome = true)
    (hplaced : r.adapters = true ∨ imageTargets s r.hash (tget? r.refetch (entArg c.entry)).isSome ≠ []) :
    execLoadShard a hash s = .next (setStage a.val .running (setLoad a.val (newLoad k (entArg c.entry) r) s)) := by
  have hwanted : ((r.present.contains (entArg c.entry) || r.written.contains (entArg c.entry)) &&
      !(tget? r.refetch (entArg c.entry)).isSome) = false := by
    obtain ⟨hpresent, hwritten⟩ | hflagged := hmissing
    · rw [hpresent, hwritten]; rfl
    · rw [hflagged, Bool.not_true, Bool.and_false]
  have hplace : (!r.adapters && (imageTargets s r.hash (tget? r.refetch (entArg c.entry)).isSome).isEmpty) = false := by
    obtain hadapters | htargets := hplaced
    · rw [hadapters]; rfl
    · rw [List.isEmpty_eq_false_iff.2 htargets, Bool.and_false]
  simp only [execLoadShard, hc, hshard, hread, himage, Nat.not_le.2 hlisted, hidle, hwanted, hplace, Bool.false_eq_true, if_false]
  rfl

end Sys2Proof.Laws
end

section
/-! SUPPORT. The verify pass and the program pass of a load (R235, R237, R239, R240, R243, R285): each outcome as one equation. -/

namespace Sys2Proof.Laws

open Sys2Proof.Machine

/-! ## The end of a load, and another attempt (R237, R360) -/

/-- R360: the load of an ended command is forgotten. -/
def forgetLoad (a : Nat) (s : State) : State := { s with model := { s.model with loads := tdel s.model.loads a } }

theorem forgetLoad_only (a : Nat) (s : State) : Only [.model] s (forgetLoad a s) := Only.setModel s _

theorem endLoad_shardFormat (a : Nat) (l : Load) (s : State) : endLoad a St.shardFormat l s =
    finish a { status := St.shardFormat, result := l.attempt } (forgetLoad a (bump (ob 0x7044 1) s)) := rfl

theorem endLoad_other {st : Nat} (h : st ≠ St.shardFormat) (a : Nat) (l : Load) (s : State) :
    endLoad a st l s = finish a { status := st, result := l.attempt } (forgetLoad a s) := by
  simp only [endLoad, if_neg h, forgetLoad]

/-- A load that does not wait for its seals has no written shard to undo (R232, R240). -/
theorem undoLoad_unsealed {l : Load} (h : l.sealing = false) (s : State) : undoLoad l s = s := by simp only [undoLoad, h]

theorem retryLoad_again {l : Load} {s : State} (h : l.attempt ≤ dictNum s (ob 0x7042 1)) (a : Nat) : retryLoad a l s =
    bump (ob 0x7043 1) (setLoad a { l with attempt := l.attempt + 1, programming := false, sealing := false } s) := if_pos h

theorem retryLoad_rejected {l : Load} {s : State} (h : ¬l.attempt ≤ dictNum s (ob 0x7042 1)) (a : Nat) : retryLoad a l s =
    finish a { status := St.shardRejected, result := l.attempt } (forgetLoad a (bump (ob 0x7044 1) s)) :=
  (if_neg h).trans (endLoad_other (by decide) ..)

theorem counted_forgetLoad_spec (a : Nat) (s : State) : let u := forgetLoad a (bump (ob 0x7044 1) s)
    u.model.loads = tdel s.model.loads a ∧ counterOf u (ob 0x7044 1) = counterOf s (ob 0x7044 1) + 1 ∧ Only [.model, .counters] s u :=
  ⟨rfl, counterOf_bump_self _ s, ((bump_only _ s).mono rfl).trans ((forgetLoad_only a _).mono rfl)⟩

/-! ## VERIFY_PASS_DONE (R235, R237, R238) -/

section Verify

variable {a : Fin 4096} {l : Load} {img : ImageRec} {r : ShardRec} {shard : HostRead} {s : State}
  (hl : loadOf s a.val = some (l, img, r)) (hverify : l.programming = false)
include hl hverify

theorem execVerifyPassDone_unread : execVerifyPassDone a .failed s =
    .next (finish a.val { status := St.hostAccess, detail := 0x10 } (forgetLoad a.val s)) := by
  simp only [execVerifyPassDone, hl, hverify, passData, Bool.false_eq_true, if_false, finishAt, forgetLoad]

variable {b : Bytes} {sound : Bool} (hread : passData (loadRoom s a.val) shard = some (b, sound))
include hread

theorem execVerifyPassDone_other (hmatch : shardMatches r b sound = false) :
    execVerifyPassDone a shard s = .next (retryLoad a.val l s) := by
  simp only [execVerifyPassDone, hl, hverify, hread, hmatch, Bool.false_eq_true, if_false, Bool.not_false, if_true]

variable (hmatch : shardMatches r b sound = true)
include hmatch

theorem execVerifyPassDone_malformed (hform : shardFormatOk s img l.shard r l.refetch b = false) :
    execVerifyPassDone a shard s = .next (endLoad a.val St.shardFormat l s) := by
  simp only [execVerifyPassDone, hl, hverify, hread, hmatch, hform, Bool.false_eq_true, if_false, Bool.not_true, Bool.not_false, if_true]

theorem execVerifyPassDone_sound (hform : shardFormatOk s img l.shard r l.refetch b = true) :
    execVerifyPassDone a shard s = .next (setLoad a.val { l with programming := true } s) := by
  simp only [execVerifyPassDone, hl, hverify, hread, hmatch, hform, Bool.false_eq_true, if_false, Bool.not_true, setLoad]

end Verify

/-! ## PROGRAM_PASS_DONE (R235, R237, R239, R243, R285, R309) -/

/-- R243, R285: pulses are not paused, and a program slot is free. -/
theorem not_passWaits {l : Load} {s : State} (hprogram : l.programming = true)
    (hready : ¬(s.awl.paused = true ∨ 1536 ≤ slotsUsed s)) :
    (!l.programming || s.awl.paused || decide (1536 ≤ slotsUsed s)) = false := by
  simpa [hprogram] using hready

section Program

variable {a : Fin 4096} {l : Load} {img : ImageRec} {r : ShardRec} {shard : HostRead} {s : State}
  (hl : loadOf s a.val = some (l, img, r)) (hprogram : l.programming = true)
include hl hprogram

theorem execProgramPassDone_waits (h : s.awl.paused = true ∨ 1536 ≤ slotsUsed s) : execProgramPassDone a shard s = .next s := by
  have hwaits : (!l.programming || s.awl.paused || decide (1536 ≤ slotsUsed s)) = true := by simpa [hprogram] using h
  simp only [execProgramPassDone, hl, hwaits, if_true]

variable (hready : ¬(s.awl.paused = true ∨ 1536 ≤ slotsUsed s))
include hready

theorem execProgramPassDone_unread (hunsealed : l.sealing = false) : execProgramPassDone a .failed s =
    .next (finish a.val { status := St.hostAccess, detail := 0x10 } (forgetLoad a.val s)) := by
  simp only [execProgramPassDone, hl, not_passWaits hprogram hready, passData, undoLoad_unsealed hunsealed, Bool.false_eq_true,
    if_false, finishAt, forgetLoad]

variable {b : Bytes} {sound : Bool} (hread : passData (loadRoom s a.val) shard = some (b, sound))
include hread

theorem execProgramPassDone_ends : execProgramPassDone a shard s =
    .next (if img.adapters then adapterPass a.val l img r b sound s else weightPass a.val l img r b sound s) := by
  simp only [execProgramPassDone, hl, not_passWaits hprogram hready, hread, Bool.false_eq_true, if_false]
  exact (apply_ite Host.Outcome.next _ _ _).symm

end Program

/-- R309: where a piece must move and finds no bank, the load ends. -/
theorem weightPass_noBank {a : Nat} {l : Load} {img : ImageRec} {r : ShardRec} {b : Bytes} {s : State} (hunsealed : l.sealing = false)
    (hmoves : movePieces l (loadPieces l img r b) (imageTargets s img.hash l.refetch) s = none) (sound : Bool) :
    weightPass a l img r b sound s = finish a { status := St.capacity, result := l.attempt } (forgetLoad a s) := by
  simp only [weightPass, hmoves, undoLoad_unsealed hunsealed]
  exact endLoad_other (by decide) ..

end Sys2Proof.Laws
end

section
/-! PROOF of O25 (R228, R231 to R233, R235 to R237, R239, R240, R260). -/

namespace Sys2Proof.Laws

open Sys2Proof.Machine

/-- Settles O25: each outcome of the four commands is one equation. -/
theorem imageLoading : Obligations.ImageLoading := by
  refine ⟨fun a c m b k s hc hlist hread hform hfree => ?manifest,
    fun a c m b s hc hlist hread hform => ⟨_, _, execLoadManifest_malformed hc hlist hread hform, rfl, rfl⟩,
    fun a c hash h k r s hc hshard hread himage hlisted hidle hmissing hplaced => ?begins,
    fun a l img r shard b sound s hl hverify hread => ?verify,
    fun a l img r s hl hverify => ⟨_, _, execVerifyPassDone_unread hl hverify, rfl, rfl, forgetLoad_only ..⟩,
    fun a l img r s hl hprogram hunsealed hpulses hslots => ?unread,
    fun a l img r shard b sound s hl hprogram hread => ?program,
    fun a l img r shard b sound s hl hprogram hunsealed hweights hread hpulses hslots hmoves => ?noBank⟩
  case manifest =>
    intro r o status
    by_cases hknown : (imageNamed s (manifestHash b)).isSome = true
    · refine ⟨_, s, execLoadManifest_known hc hlist hread hform hknown, (if_pos hknown).symm, .refl _ s, (if_neg fun h => ?_).symm⟩
      rw [h.2] at hknown
      cases hknown
    have hnew : imageNamed s (manifestHash b) = none := Option.not_isSome_iff_eq_none.1 hknown
    cases hsigned : publisherSigned s r.keySlot r.hash r.rsaSig r.slhSig with
    | false =>
      have hst : status = St.signatureInvalid := (if_neg hknown).trans (if_pos hsigned)
      exact ⟨_, s, execLoadManifest_unsigned hc hlist hread hform hnew hfree hsigned, hst.symm, .refl _ s, by rw [hst]; rfl⟩
    | true =>
      have hst : status = _ := (if_neg hknown).trans (if_neg (ne_true_of_eq_false · hsigned))
      by_cases hbase : r.adapters = true ∧ ¬∃ e, imageNamed s r.target = some e ∧ e.2.adapters = false
      · replace hst := hst.trans (if_pos hbase)
        exact ⟨_, s, execLoadManifest_noBase hc hlist hread hform hnew hfree hsigned hbase.1 hbase.2, hst.symm, .refl _ s,
          by rw [hst]; rfl⟩
      · replace hst := hst.trans (if_neg hbase)
        refine ⟨_, _, execLoadManifest_recorded hc hlist hread hform hnew hfree hsigned fun h => ?_, hst.symm, setImage_only .., ?_⟩
        · exact not_not.1 fun hnone => hbase ⟨h, hnone⟩
        · rw [if_pos ⟨hst, hnew⟩]
          rfl
  case begins =>
    exact ⟨_, execLoadShard_begins hc hshard hread himage hlisted hidle hmissing hplaced, setStage_setLoad_spec (cmds_of_cmdAt hc) _⟩
  case verify =>
    split
    next hmatch =>
      have hexec := execVerifyPassDone_other hl hverify hread hmatch
      split
      next hagain =>
        exact ⟨_, hexec.trans (congrArg _ (retryLoad_again hagain a.val)), loads_setLoad_self .., counterOf_bump_self ..,
          ((setLoad_only ..).mono rfl).trans ((bump_only ..).mono rfl)⟩
      next hlast =>
        exact ⟨_, _, hexec.trans (congrArg _ (retryLoad_rejected hlast a.val)), rfl, counted_forgetLoad_spec ..⟩
    next hmatch =>
      replace hmatch := Bool.eq_true_of_not_eq_false hmatch
      split
      next hform =>
        exact ⟨_, _, execVerifyPassDone_malformed hl hverify hread hmatch hform, rfl, counted_forgetLoad_spec ..⟩
      next hform =>
        exact ⟨_, execVerifyPassDone_sound hl hverify hread hmatch (Bool.eq_true_of_not_eq_false hform), loads_setLoad_self ..,
          setLoad_only ..⟩
  case unread =>
    have hready : ¬(s.awl.paused = true ∨ 1536 ≤ slotsUsed s) := by simp [hpulses, hslots]
    exact ⟨_, _, execProgramPassDone_unread hl hprogram hready hunsealed, rfl, rfl, forgetLoad_only ..⟩
  case program =>
    split
    next hwaits => exact execProgramPassDone_waits hl hprogram hwaits
    next hready =>
      refine ⟨_, execProgramPassDone_ends hl hprogram hready hread, rfl, ?_⟩
      split
      · exact adapterPass_only ..
      · exact weightPass_only ..
  case noBank =>
    have hready : ¬(s.awl.paused = true ∨ 1536 ≤ slotsUsed s) := by simp [hpulses, hslots]
    have hexec := execProgramPassDone_ends hl hprogram hready hread
    rw [if_neg (ne_true_of_eq_false hweights), weightPass_noBank hunsealed hmoves] at hexec
    exact ⟨_, _, hexec, rfl, rfl, forgetLoad_only ..⟩

end Sys2Proof.Laws
end

section
/-! SUPPORT. Loads, adapters and banks that are given up leave the Last slots, and adapters and banks the image records too. -/

namespace Sys2Proof

open Sys2Proof.Machine

theorem Only.model_eq {P : List Part} {s t : State} (h : Only P s t) (hp : Part.model ∉ P) : t.model = s.model := h.2 .model hp

end Sys2Proof

namespace Sys2Proof.Laws

open Sys2Proof.Machine

/-- What each step of a fold leaves alone, the fold leaves alone. -/
theorem foldl_keeps {α β : Type} {f : State → α → State} (g : State → β) (hf : ∀ t x, g (f t x) = g t) (l : List α) (s : State) :
    g (l.foldl f s) = g s :=
  List.foldlRecOn (motive := fun t => g t = g s) l f rfl fun t ht x _ => (hf t x).trans ht

/-! ## Banks and adapters that are given back (R209, R233, R243, R260) -/

theorem releaseBank_model (n : Nat) (s : State) :
    (releaseBank n s).model = { s.model with covers := tdel s.model.covers n } := by
  unfold releaseBank
  dsimp only
  split
  · rw [(queueOp_only ..).model_eq (by decide)]
    rfl
  · rfl

theorem returnBanks_slots (n : Nat) (banks : List Nat) (s : State) : (returnBanks n banks s).model.slots = s.model.slots := by
  refine foldl_keeps (fun t => t.model.slots) (fun t k => ?_) banks s
  split
  · rfl
  · rw [releaseBank_model]

theorem dropAdapter_records (n : Nat) (s : State) :
    (dropAdapter n s).model.images = s.model.images ∧ (dropAdapter n s).model.slots = s.model.slots := by
  rw [← Prod.mk.injEq]
  refine foldl_keeps (fun t => (t.model.images, t.model.slots)) (fun t k => ?_) _ _
  split
  · rfl
  · rw [releaseBank_model]

/-! ## Loads that are stopped (R237, R240) -/

theorem endLoad_slots (a st : Nat) (l : Load) (s : State) : (endLoad a st l s).model.slots = s.model.slots := by
  obtain rfl | hst := eq_or_ne st St.shardFormat
  · rw [endLoad_shardFormat, (finish_only ..).model_eq (by decide)]
    rfl
  · rw [endLoad_other hst, (finish_only ..).model_eq (by decide)]
    rfl

theorem unsealPieces_slots (k : Nat) (banks : List Nat) (s : State) : (unsealPieces k banks s).model.slots = s.model.slots := by
  have herase := foldl_keeps (fun t => t.model.slots)
    (fun t n => congrArg Model.slots ((queueOp_only n (newOp t .eraseBank none 0 false false) t).model_eq (by decide)))
    (banks.filter fun n => (bankOf s n).state == .programming) s
  unfold unsealPieces
  dsimp only
  split <;> exact herase

theorem undoLoad_slots (l : Load) (s : State) : (undoLoad l s).model.slots = s.model.slots := by
  unfold undoLoad
  split
  · dsimp only
    split <;> exact unsealPieces_slots ..
  · rfl

theorem stopLoad_slots (a : Nat) (s : State) : (stopLoad a s).model.slots = s.model.slots := by
  unfold stopLoad
  split
  · rw [endLoad_slots, undoLoad_slots]
  · rfl

theorem stopOrphanLoads_slots (hash : Digest) (s : State) : (stopOrphanLoads hash s).model.slots = s.model.slots := by
  unfold stopOrphanLoads
  split
  · rfl
  · exact foldl_keeps (fun t => t.model.slots) (fun t (l : Nat × Load) => stopLoad_slots l.1 t) _ s

/-! ## A placement that is given up (R210, R231 to R233, R253) -/

theorem abandonMoves_slots (n : Nat) (banks : List Nat) (s : State) : (abandonMoves n banks s).model.slots = s.model.slots := by
  unfold abandonMoves
  dsimp only
  rw [foldl_keeps (fun t => t.model.slots) fun t k => ?rebuilds, foldl_keeps (fun t => t.model.slots) fun t k => ?moves]
  case rebuilds => split <;> rfl
  case moves => rw [releaseBank_model]; rfl

theorem placedAnew_slots (hash : Digest) (s : State) : (placedAnew hash s).model.slots = s.model.slots := by
  unfold placedAnew
  split <;> rfl

theorem imageReleased_slots (hash : Digest) (s : State) : (imageReleased hash s).model.slots = s.model.slots := by
  unfold imageReleased
  split
  · exact placedAnew_slots ..
  · rfl

theorem dropUnused_slots (hash : Digest) (s : State) : (dropUnused hash s).model.slots = s.model.slots := by
  unfold dropUnused
  split
  · split <;> rfl
  · rfl

end Sys2Proof.Laws
end

section
/-! PROOF of O27 (R233, R241, R242, R245, R260). -/

namespace Sys2Proof.Laws

open Sys2Proof.Machine

/-! ## COMMIT_IMAGE (R241, R260) -/

section Commit

variable {a : Fin 4096} {c : Cmd} {hash : HostRead} {h : Bytes} {s : State} (hc : cmdAt s a.val 0x11 = some c)
  (hread : hostData 48 hash = some h)
include hc hread

theorem execCommitImage_unknown (himage : imageNamed s h = none) :
    execCommitImage a hash s = .next (finish a.val { status := St.imageUnknown } s) := by
  simp only [execCommitImage, hc, hread, himage, finishSt]

variable {k : Nat} {r : ImageRec} (himage : imageNamed s h = some (k, r))
include himage

theorem execCommitImage_partly (hpartly : r.state = .partly) :
    let missing := (List.range r.shards.length).filter fun n => !r.present.contains n
    execCommitImage a hash s = .next
      (finish a.val { status := St.imagePartial, result := missing.length + missing.headD 0 * 2 ^ 32 } s) := by
  simp only [execCommitImage, hc, hread, himage, hpartly]

theorem execCommitImage_whole (hwhole : r.state ≠ .partly) :
    execCommitImage a hash s = .next (finish a.val { status := St.success } (commitImage k r s)) := by
  cases hstate : r.state with
  | partly => exact absurd hstate hwhole
  | complete | committed => simp only [execCommitImage, hc, hread, himage, hstate, finishSt]

end Commit

theorem commitImage_image (k : Nat) (r : ImageRec) (s : State) :
    tget? (commitImage k r s).model.images k = some { r with state := .committed } := tget?_tset_self ..

theorem firstGen_gen (sl : Slot) : (firstGen sl).gen = if sl.gen = 0 then 1 else sl.gen := by
  unfold firstGen
  split <;> rfl

theorem firstGen_state (sl : Slot) : (firstGen sl).state = sl.state := by
  unfold firstGen
  split <;> rfl

/-- R241, R245: what a commit of the image of hash `hash` does to a slot. -/
def committedSlot (hash : Digest) (sl : Slot) : Slot :=
  let sl := { sl with swap := sl.swap.map fun w => if w.imageHash = hash then { w with committed := true } else w }
  if sl.state == .placed && sl.imageHash = hash then firstGen { sl with state := .resident } else sl

/-- R260: what a commit of image `k` does to an adapter. -/
def committedAdapter (k : Nat) (x : Adapter) : Adapter := if x.image = k then { x with usable := true } else x

theorem commitImage_slot (k n : Nat) (r : ImageRec) (s : State) :
    tget? (commitImage k r s).model.slots n = (tget? s.model.slots n).map (committedSlot r.hash) :=
  tget?_map s.model.slots n fun _ => committedSlot r.hash

theorem commitImage_adapter (k n : Nat) (r : ImageRec) (s : State) :
    tget? (commitImage k r s).model.adapters n = (tget? s.model.adapters n).map (committedAdapter k) :=
  tget?_map s.model.adapters n fun _ => committedAdapter k

theorem committedSlot_placed {sl : Slot} (hplaced : sl.state = .placed) :
    (committedSlot sl.imageHash sl).state = .resident ∧
      (committedSlot sl.imageHash sl).gen = if sl.gen = 0 then 1 else sl.gen := by
  simp [committedSlot, hplaced, firstGen_state, firstGen_gen]

theorem committedAdapter_usable (x : Adapter) : (committedAdapter x.image x).usable = true := by simp [committedAdapter]

/-! ## DROP_IMAGE (R233, R260) -/

section Drop

variable {a : Fin 4096} {c : Cmd} {hash : HostRead} {h : Bytes} {k : Nat} {r : ImageRec} {s : State}
  (hc : cmdSub s a.val 0x19 3 = some c) (hread : hostData 48 hash = some h) (himage : imageNamed s h = some (k, r))

/-- The adapters of image `k` are given back. -/
def dropAdapters (k : Nat) (s : State) : State :=
  ((s.model.adapters.filter fun e => e.2.image = k).map Prod.fst).foldl (fun s n => dropAdapter n s) s

theorem dropAdapters_records (k : Nat) (s : State) :
    (dropAdapters k s).model.images = s.model.images ∧ (dropAdapters k s).model.slots = s.model.slots := by
  rw [← Prod.mk.injEq]
  exact foldl_keeps (fun t => (t.model.images, t.model.slots)) (fun t n => Prod.mk.injEq .. ▸ dropAdapter_records n t) _ s

theorem dropAdapters_only (k : Nat) (s : State) :
    Only [.doms, .time, .cause, .counters, .events, .held, .model, .hbr, .banks, .awl, .scheds, .integ, .out] s (dropAdapters k s) :=
  .foldl (fun t n ht => ht.trans (dropAdapter_only n t)) (.refl _ s)

include hc hread himage

theorem execDropImage_used
    (hused : imageUsed s r.hash = true ∨ adapterInUse s k = true ∨ (s.model.loads.any fun l => l.2.image = k) = true) :
    execDropImage a hash s = .next (finish a.val { status := St.busy } s) := by
  have hbusy : (imageUsed s r.hash || adapterInUse s k || s.model.loads.any fun l => l.2.image = k) = true := by
    simpa only [Bool.or_eq_true, or_assoc] using hused
  simp only [execDropImage, hc, hread, himage, hbusy, if_true, finishSt]

theorem execDropImage_unused
    (hidle : ¬(imageUsed s r.hash = true ∨ adapterInUse s k = true ∨ (s.model.loads.any fun l => l.2.image = k) = true)) :
    execDropImage a hash s = .next (finish a.val { status := St.success } { dropAdapters k s with
      model := { (dropAdapters k s).model with images := tdel (dropAdapters k s).model.images k } }) := by
  have hfree : ¬(imageUsed s r.hash || adapterInUse s k || s.model.loads.any fun l => l.2.image = k) = true := by
    simpa only [Bool.or_eq_true, or_assoc] using hidle
  simp only [execDropImage, hc, hread, himage, if_neg hfree, finishSt, dropAdapters]

end Drop

/-- Settles O27: each outcome is one equation; a commit is read entry by entry through its maps over the tables, and a drop gives back
adapters, which leaves the images and the slots. -/
theorem imageCommitAndDrop : Obligations.ImageCommitAndDrop := by
  refine ⟨fun a c hash h s hc hread himage => ⟨_, s, execCommitImage_unknown hc hread himage, rfl, rfl⟩,
    fun a c hash h k r s hc hread himage hpartly => execCommitImage_partly hc hread himage hpartly,
    fun a c hash h k r s hc hread himage hwhole => ?commit,
    fun a c hash h k r s hc hread himage => ?drop, fun s hruns => ⟨_, if_pos hruns, raiseRefetch_only s⟩⟩
  case commit =>
    refine ⟨_, _, execCommitImage_whole hc hread himage hwhole, rfl, commitImage_image .., commitImage_only .., ?_, ?_⟩
    · intro n sl hsl hplaced hhash
      exact ⟨_, by rw [commitImage_slot, hsl, Option.map_some], hhash ▸ committedSlot_placed hplaced⟩
    · intro n x hx hk
      exact ⟨_, by rw [commitImage_adapter, hx, Option.map_some], hk ▸ committedAdapter_usable x⟩
  case drop =>
    split
    next hused => exact ⟨_, s, execDropImage_used hc hread himage hused, rfl, rfl⟩
    next hidle =>
      obtain ⟨himages, hslots⟩ := dropAdapters_records k s
      exact ⟨_, _, execDropImage_unused hc hread himage hidle, rfl, congrArg (tdel · k) himages, hslots,
        (dropAdapters_only k s).trans ((Only.setModel ..).mono rfl)⟩

end Sys2Proof.Laws
end

section
/-! SUPPORT. SWAP_STAGE, SWAP_SWITCH and SWAP_ABORT (R245, R248, R250, R251, R253 to R255, R257, R258): each outcome as one equation. -/

namespace Sys2Proof.Laws

open Sys2Proof.Machine

theorem slotOf_of_slots {s t : State} (h : t.model.slots = s.model.slots) (n : Nat) : slotOf t n = slotOf s n :=
  congrArg (fun l => tget l n ({} : Slot)) h

/-! ## SWAP_STAGE (R248, R249, R254) -/

section Stage

variable {a : Fin 4096} {c : Cmd} {file table : HostRead} {choice : List Placed} {s : State} (hc : cmdSub s a.val 0x12 0 = some c)
  (hslot : entSlot c.entry < 64) (hmode : entArg c.entry ≤ 2)
include hc hslot hmode

theorem execSwapStage_otherState (hresident : (slotOf s (entSlot c.entry)).state ≠ .resident)
    (hbound : (slotOf s (entSlot c.entry)).state ≠ .bound) :
    execSwapStage a file table choice s = .next (finish a.val { status := St.lastState } s) := by
  have hlive : (!((slotOf s (entSlot c.entry)).state == .resident || (slotOf s (entSlot c.entry)).state == .bound)) = true := by
    simp [hresident, hbound]
  simp only [execSwapStage, hc, Nat.not_le.2 hslot, Nat.not_lt.2 hmode, hlive, if_false, if_true, finishSt]

variable {b : Bytes} (hlive : (slotOf s (entSlot c.entry)).state = .resident ∨ (slotOf s (entSlot c.entry)).state = .bound)
  (hstays : (slotOf s (entSlot c.entry)).detaching = false) (hswap : (slotOf s (entSlot c.entry)).swap = none)
  (hread : hostData (fld c.entry 0x18 8) file = some b)
include hlive hstays hswap hread

/-- R204, R248: a file that was read is checked, and staged where the new Last may replace the slot's. -/
theorem execSwapStage_reads : execSwapStage a file table choice s = .next (match checkLast s b with
    | .inl st => finish a.val { status := st } s
    | .inr f =>
      if swapCompatible (slotOf s (entSlot c.entry)) f = true then stageChecked a.val c (entSlot c.entry) f table choice s
      else finish a.val { status := St.swapIncompatible } s) := by
  have hready : (!((slotOf s (entSlot c.entry)).state == .resident || (slotOf s (entSlot c.entry)).state == .bound)) = false := by
    rcases hlive with hlive | hlive <;> rw [hlive] <;> rfl
  simp only [execSwapStage, hc, Nat.not_le.2 hslot, Nat.not_lt.2 hmode, hready, hstays, hswap, swapBusy, hread, Bool.false_and,
    Bool.or_self, Bool.false_eq_true, if_false, finishSt]
  cases checkLast s b with
  | inl st => rfl
  | inr f => exact (apply_ite Host.Outcome.next _ _ _).symm

end Stage

/-- R250: a shadow swap whose image is not committed. -/
theorem shadowPartly_iff (s : State) (w : Swap) :
    (w.mode == .shadow && !(w.committed && (imageNamed s w.imageHash).any fun e => e.2.state == .committed)) = true ↔
      w.mode = .shadow ∧ (w.committed = false ∨ ((imageNamed s w.imageHash).any fun e => e.2.state == .committed) = false) := by
  rw [Bool.and_eq_true, beq_iff_eq, Bool.not_eq_true', Bool.and_eq_false_iff]

/-! ## SWAP_SWITCH (R245, R250, R251, R255, R258) -/

/-- R251: no request waits to take its generation. -/
theorem not_early {s : State} (h : ∀ e ∈ s.que.cmds, e.2.stage ≠ .admitted ∨ entOpcode e.2.entry ≠ 1) (order n : Nat) :
    (s.que.cmds.any fun e => entOpcode e.2.entry = 1 && e.2.stage == .admitted && decide (e.2.order < order) &&
      groupSlot s e.2.group.toNat = some n) = false := by
  refine List.any_eq_false.2 fun e he => ?_
  rcases h e he with h | h <;> simp [h]

section Switch

variable {a : Fin 4096} {c : Cmd} {s : State} (hc : cmdSub s a.val 0x12 1 = some c) (hslot : entSlot c.entry < 64)
  (hready : ∀ e ∈ s.que.cmds, e.2.stage ≠ .admitted ∨ entOpcode e.2.entry ≠ 1)
include hc hslot hready

theorem execSwapSwitch_noSwap (hswap : (slotOf s (entSlot c.entry)).swap = none) :
    execSwapSwitch a s = .next (finish a.val { status := St.swapState } s) := by
  simp only [execSwapSwitch, hc, not_early hready, Nat.not_le.2 hslot, hswap, Bool.false_eq_true, if_false, finishSt]

variable {w : Swap} (hswap : (slotOf s (entSlot c.entry)).swap = some w) (hpending : w.switched = false)
  (hwhole : w.interrupted = false) (htide : w.switchTide = none)
include hswap hpending hwhole htide

section Alone

variable (halone : (slotOf s (entSlot c.entry)).modules ≤ 1) (hnow : fld c.entry 0x10 8 = 0)
include halone hnow

/-- R250, R258: the switch of a slot outside a group, at once: the image of a shadow swap has to be committed. -/
theorem execSwapSwitch_alone : execSwapSwitch a s = .next (
    if w.mode == .shadow && !(w.committed && (imageNamed s w.imageHash).any fun e => e.2.state == .committed) then
      finish a.val { status := St.imagePartial } s
    else finish a.val { status := St.success } (switchNow (entSlot c.entry) s)) := by
  have hopen : (w.switched || w.interrupted || w.switchTide.isSome) = false := by rw [hpending, hwhole, htide]; rfl
  have hgroup : swapInGroup s (slotOf s (entSlot c.entry)) = false := by simp [swapInGroup, Nat.not_lt.2 halone]
  simp only [execSwapSwitch, hc, not_early hready, Nat.not_le.2 hslot, hswap, hopen, hgroup, hnow, Bool.false_eq_true, eq_self,
    eq_iff_iff, iff_false, not_true_eq_false, if_false, if_true, finishSt]
  exact (apply_ite Host.Outcome.next _ _ _).symm

end Alone

/-- R258: in a group the switch waits for its Tide. -/
theorem execSwapSwitch_later (hgroup : 1 < (slotOf s (entSlot c.entry)).modules) (hmembers : membersOf s ≠ [])
    (hmode : w.mode = .inPlace) (hlater : fld c.entry 0x10 8 ≠ 0) :
    execSwapSwitch a s = .next (finish a.val { status := St.success } (modSlot (entSlot c.entry)
      (fun sl => { sl with swap := some { w with switchTide := some (BitVec.ofNat 64 (fld c.entry 0x10 8)) } }) s)) := by
  simp [execSwapSwitch, hc, not_early hready, Nat.not_le.2 hslot, hswap, hpending, hwhole, htide, swapInGroup, hgroup, hmembers, hmode, hlater]

end Switch

/-- R245, R251, R255: the slot once the switch of its swap `w` has taken effect. -/
def switchedSlot (sl : Slot) (w : Swap) : Slot :=
  if sl.lastHash = w.lastHash && w.mode == .inPlace then { sl with swap := some { w with switched := true, switchTide := none } }
  else
    { sl with gen := nextGen sl.gen, oldGen := some sl.gen, oldPlaces := sl.places, oldPlan := sl.plan, oldImage := sl.imageHash,
              lastHash := w.lastHash, imageHash := w.imageHash, plan := some w.plan, places := w.places, keySlot := w.keySlot,
              slicesSection := w.slicesSection, swap := some { w with switched := true, switchTide := none } }

theorem slotOf_switchNow {n : Nat} {w : Swap} {s : State} (hswap : (slotOf s n).swap = some w) :
    slotOf (switchNow n s) n = switchedSlot (slotOf s n) w := by
  have hcounted (t : State) : (if w.mode == .shadow then bump (ob 0x7050 1) t else t).model = t.model := by split <;> rfl
  have hlisted (sl : Slot) (t : State) : (if groupBound sl then groupListChange t else t).model = t.model := by
    split
    · exact (groupListChange_only t).model_eq (by decide)
    · rfl
  simp only [switchNow, hswap]
  refine (slotOf_of_slots (congrArg Model.slots ((hlisted ..).trans (hcounted _))) n).trans ?_
  exact slotOf_setSlot_self ..

theorem switchedSlot_spec (sl : Slot) (w : Swap) : let new := switchedSlot sl w
    (if sl.lastHash = w.lastHash ∧ w.mode = .inPlace then new.gen = sl.gen
     else new.gen = nextGen sl.gen ∧ new.oldGen = some sl.gen ∧ new.oldPlan = sl.plan ∧ new.oldPlaces = sl.places ∧
      new.oldImage = sl.imageHash) ∧
    (sl.lastHash = w.lastHash ∧ w.mode = .inPlace ∨ (new.plan = some w.plan ∧ new.places = w.places ∧ new.lastHash = w.lastHash)) ∧
    new.swap = some { w with switched := true, switchTide := none } := by
  by_cases hresumed : sl.lastHash = w.lastHash ∧ w.mode = .inPlace
  · simp [switchedSlot, hresumed]
  · have hfresh : ¬(decide (sl.lastHash = w.lastHash) && w.mode == .inPlace) = true := by simpa using hresumed
    simp only [switchedSlot, if_neg hresumed, if_neg hfresh, and_self, or_true]

/-! ## SWAP_ABORT (R253, R257) -/

section Abort

variable {a : Fin 4096} {c : Cmd} {s : State} (hc : cmdSub s a.val 0x12 2 = some c) (hslot : entSlot c.entry < 64)
include hc hslot

theorem execSwapAbort_noSwap (hswap : (slotOf s (entSlot c.entry)).swap = none) :
    execSwapAbort a s = .next (finish a.val { status := St.swapState } s) := by
  simp only [execSwapAbort, hc, Nat.not_le.2 hslot, hswap, if_false, finishSt]

variable {w : Swap} (hswap : (slotOf s (entSlot c.entry)).swap = some w)
include hswap

theorem execSwapAbort_late (hafter : afterSwitch (slotOf s (entSlot c.entry)) w = true) :
    execSwapAbort a s = .next (finish a.val { status := St.swapState } s) := by
  simp only [execSwapAbort, hc, Nat.not_le.2 hslot, hswap, hafter, if_false, if_true, finishSt]

theorem execSwapAbort_early (hbefore : afterSwitch (slotOf s (entSlot c.entry)) w = false) :
    execSwapAbort a s = .next (finish a.val { status := St.success } (abortSwap (entSlot c.entry) w s)) := by
  simp only [execSwapAbort, hc, Nat.not_le.2 hslot, hswap, hbefore, Bool.false_eq_true, if_false, finishSt]

end Abort

theorem afterSwitch_iff (sl : Slot) (w : Swap) : afterSwitch sl w = true ↔
    w.switched = true ∨ w.interrupted = true ∨ w.switchTide ≠ none ∨ (w.mode = .inPlace ∧ sl.lastHash = w.lastHash) := by
  simp [afterSwitch, or_assoc, Option.isSome_iff_ne_none]

theorem slotOf_abortSwap (n : Nat) (w : Swap) (s : State) : slotOf (abortSwap n w s) n = { slotOf s n with swap := none } := by
  unfold abortSwap
  dsimp only
  refine (slotOf_of_slots ?_ n).trans (slotOf_modSlot_self s n fun sl => { sl with swap := none })
  rw [imageReleased_slots, stopOrphanLoads_slots, returnBanks_slots, abandonMoves_slots]

end Sys2Proof.Laws
end

section
/-! SUPPORT. The old generation retires, and the rewrite front moves (R247, R252, R255 to R257). -/

namespace Sys2Proof.Laws

open Sys2Proof.Machine

/-! ## GENERATION_RETIRE (R247, R252, R255) -/

/-- The old generation of a slot is gone, and its current one stays. -/
def OldRetired (sl new : Slot) : Prop := new.oldGen = none ∧ new.oldPlaces = [] ∧ new.oldPlan = none ∧ new.gen = sl.gen

theorem retireShadow_retires (n : Nat) (w : Swap) (s : State) : OldRetired (slotOf s n) (slotOf (retireShadow n w s) n) := by
  unfold retireShadow
  dsimp only
  rw [slotOf_of_slots ((dropUnused_slots ..).trans (returnBanks_slots ..)) n]
  refine (slotOf_setSlot_self n _ s).symm ▸ ?_
  exact ⟨rfl, rfl, rfl, rfl⟩

section Retire

variable {slot : Fin 64} {g : BitVec 16} {s : State} (hold : (slotOf s slot.val).oldGen = some g)
include hold

theorem execGenerationRetire_waits (hbusy : genRetired s slot.val g = false) : execGenerationRetire slot s = .next s := by
  cases hswap : (slotOf s slot.val).swap <;>
    simp only [execGenerationRetire, hold, hswap, hbusy, Bool.not_false, if_true]

theorem execGenerationRetire_retires {w : Swap} (hswap : (slotOf s slot.val).swap = some w) (hdone : genRetired s slot.val g = true) :
    ∃ t, execGenerationRetire slot s = .next t ∧ OldRetired (slotOf s slot.val) (slotOf t slot.val) := by
  cases hmode : w.mode with
  | shadow =>
    refine ⟨retireShadow slot.val w s, ?_, retireShadow_retires ..⟩
    simp [execGenerationRetire, hold, hswap, hdone, hmode]
  | inPlace =>
    refine ⟨modSlot slot.val (fun sl => { sl with oldGen := none, oldPlaces := [], oldPlan := none }) s, ?_, ?_⟩
    · simp [execGenerationRetire, hold, hswap, hdone, hmode]
    · rw [slotOf_modSlot_self]
      exact ⟨rfl, rfl, rfl, rfl⟩

end Retire

/-! ## LAYER_REWRITE_DONE (R255, R256) -/

/-- R255: the places that an in-place swap `w` of slot `n` rewrites. -/
def rewriteTarget (n : Nat) (w : Swap) : Target := { slot := n, plan := w.plan, places := w.places, pending := true, inPlace := true }

section Rewrite

variable {slot : Fin 64} {layer k : Nat} {shards : List HostRead} {w : Swap} {img : ImageRec} {s : State}
  (hswap : (slotOf s slot.val).swap = some w) (himage : imageNamed s w.imageHash = some (k, img))
include hswap himage

theorem execLayerRewriteDone_waits (hwaits : s.awl.paused = true ∨ 1536 ≤ slotsUsed s) :
    execLayerRewriteDone slot layer shards s = .next s := by
  rcases hwaits with h | h <;> simp [execLayerRewriteDone, hswap, himage, h]

variable (hmode : w.mode = .inPlace) (hswitched : w.switched = true) (hwhole : w.interrupted = false)
  (hold : (slotOf s slot.val).oldGen = none) (hfront : w.front.head? = some layer)
  (hready : ¬(s.awl.paused = true ∨ 1536 ≤ slotsUsed s))
include hmode hswitched hwhole hold hfront hready

/-- R255: past its switch, and with no old generation left, the front of an in-place swap takes up its layer. -/
theorem execLayerRewriteDone_front : execLayerRewriteDone slot layer shards s = .next (
    let t := rewriteTarget slot.val w
    let need := layerShards t layer img
    if w.rewritten then reprogramLayer slot.val k img w t layer ((shardsOfLayer t layer).zip shards) s
    else if shards.length < need.length then s else programLayer slot.val k img w t (need.zip shards) s) := by
  have hfree : (!(w.mode == .inPlace && w.switched && !w.interrupted && (slotOf s slot.val).oldGen.isNone &&
      decide (w.front.head? = some layer)) || s.awl.paused || decide (1536 ≤ slotsUsed s)) = false := by
    simpa [hmode, hswitched, hwhole, hold, hfront] using hready
  simp only [execLayerRewriteDone, hswap, himage, hfree, Bool.false_eq_true, if_false]
  simp only [apply_ite Host.Outcome.next]
  rfl

end Rewrite

/-- R255: a barrier behind which layers are left lets the waiting requests go on. -/
theorem reprogramLayer_opens {n k layer : Nat} {w : Swap} {img : ImageRec} {t : Target} {s : State}
    (hsealed : layerSealed s t layer img = true) (hmore : 1 < w.front.length) (reads : List (Nat × HostRead)) :
    reprogramLayer n k img w t layer reads s = askReady (modSlot n (fun sl => { sl with
      swap := sl.swap.map fun x => { x with front := w.front.drop 1, stopped := false, rewritten := false } }) s) := by
  have hrest : w.front.drop 1 ≠ [] := mt List.drop_eq_nil_iff.1 (Nat.not_le.2 hmore)
  simp only [reprogramLayer, hsealed, if_true, openBarrier, if_neg hrest]

end Sys2Proof.Laws
end

section
/-! PROOF of O28 (R245, R248, R250 to R253, R255, R257, R258). -/

namespace Sys2Proof.Laws

open Sys2Proof.Machine

/-- Settles O28: each outcome is one equation; what a switch, an abort and a retirement leave of the slot is one lemma each, since the
banks and images that they give up leave the slots. -/
theorem swapCommands : Obligations.SwapCommands := by
  refine ⟨fun a c file table choice s hc hslot hmode hresident hbound =>
      ⟨_, s, execSwapStage_otherState hc hslot hmode hresident hbound, rfl, rfl⟩,
    fun a c file table choice b s hc hslot hmode hlive hstays hswap hread => ?stage,
    fun a c s hc hslot hready hswap => ⟨_, s, execSwapSwitch_noSwap hc hslot hready hswap, rfl, rfl⟩,
    fun a c w s hc hslot hready hswap hpending hwhole htide halone hnow => ?switch,
    fun a c w s hc hslot hready hswap hpending hwhole htide hgroup hmembers hmode hlater =>
      ⟨_, _, execSwapSwitch_later hc hslot hready hswap hpending hwhole htide hgroup hmembers hmode hlater, rfl,
        congrArg Slot.swap (slotOf_modSlot_self ..), modSlot_only ..⟩,
    fun slot w tide s hswap htide => ?tide,
    fun a c w s hc hslot hswap hpending hwhole htide hfirst => ?abort,
    fun a c w s hc hslot hswap hafter =>
      ⟨_, s, execSwapAbort_late hc hslot hswap ((afterSwitch_iff ..).2 hafter), rfl, rfl⟩,
    fun a c s hc hslot hswap => ⟨_, s, execSwapAbort_noSwap hc hslot hswap, rfl, rfl⟩,
    fun slot g w s hold hswap hdone => ?retire,
    fun slot g s hold hbusy => execGenerationRetire_waits hold hbusy,
    fun slot layer k shards w img s hswap hmode hswitched hwhole hold hfront himage => ?rewrite⟩
  case stage =>
    have hexec := execSwapStage_reads (table := table) (choice := choice) hc hslot hmode hlive hstays hswap hread
    split
    next st hcheck =>
      rw [hcheck] at hexec
      exact ⟨_, s, hexec, rfl, rfl⟩
    next f hcheck =>
      rw [hcheck] at hexec
      split
      next hother => exact ⟨_, s, hexec.trans (congrArg _ (if_neg (ne_true_of_eq_false hother))), rfl, rfl⟩
      next hsame =>
        exact ⟨_, hexec.trans (congrArg _ (if_pos (Bool.eq_true_of_not_eq_false hsame))), rfl, stageChecked_only ..⟩
  case switch =>
    have hexec := execSwapSwitch_alone hc hslot hready hswap hpending hwhole htide halone hnow
    split
    next hpartly => exact ⟨_, s, hexec.trans (congrArg _ (if_pos ((shadowPartly_iff s w).2 hpartly))), rfl, rfl⟩
    next hwhole =>
      refine ⟨_, _, hexec.trans (congrArg _ (if_neg (mt (shadowPartly_iff s w).1 hwhole))), rfl, ?_⟩
      obtain ⟨hgen, hplan, hpast⟩ := switchedSlot_spec (slotOf s (entSlot c.entry)) w
      rw [slotOf_switchNow hswap]
      exact ⟨hgen, hplan, hpast, switchNow_only ..⟩
  case tide =>
    have hexec : execGroupSwitchTide slot s = if tide.toNat ≤ (tideOf s).toNat then .next (switchNow slot.val s) else .next s := by
      simp only [execGroupSwitchTide, hswap, htide]
    split
    next hdue => exact ⟨_, hexec.trans (if_pos hdue), rfl, switchNow_only ..⟩
    next hearly => exact hexec.trans (if_neg hearly)
  case abort =>
    have hbefore : afterSwitch (slotOf s (entSlot c.entry)) w = false :=
      Bool.eq_false_iff.2 (mt (afterSwitch_iff ..).1 (by simpa [hpending, hwhole, htide] using hfirst))
    exact ⟨_, _, execSwapAbort_early hc hslot hswap hbefore, rfl, rfl, congrArg Slot.swap (slotOf_abortSwap ..)⟩
  case retire =>
    obtain ⟨t, hexec, hgen, hplaces, hplan, hstays⟩ := execGenerationRetire_retires hold hswap hdone
    exact ⟨t, hexec, hgen, hplaces, hplan, hstays, execGenerationRetire_only slot s t hexec⟩
  case rewrite =>
    intro target need
    split
    next hwaits => exact execLayerRewriteDone_waits hswap himage hwaits
    next hready =>
      have hexec := execLayerRewriteDone_front (shards := shards) hswap himage hmode hswitched hwhole hold hfront hready
      have honly := execLayerRewriteDone_only slot layer shards s
      split
      next h =>
        obtain ⟨hfirst, hlong⟩ := h
        replace hexec := hexec.trans (congrArg _ ((if_neg (ne_true_of_eq_false hfirst)).trans (if_neg (Nat.not_lt.2 hlong))))
        exact ⟨_, hexec, rfl, honly _ hexec⟩
      next h =>
        split
        next hfirst =>
          exact hexec.trans (congrArg _ ((if_neg (ne_true_of_eq_false hfirst)).trans
            (if_pos (Nat.not_le.1 fun hlong => h ⟨hfirst, hlong⟩))))
        next hagain =>
          replace hexec := hexec.trans (congrArg _ (if_pos (Bool.eq_true_of_not_eq_false hagain)))
          split
          next hsealed => exact ⟨_, hexec, reprogramLayer_opens hsealed.1 hsealed.2 _⟩
          next => exact ⟨_, hexec, honly _ hexec⟩

end Sys2Proof.Laws
end

section
/-! SUPPORT. SEAL_BANK beside a suspended program (R268), and the refutation of O46: the table of R268 admits SEAL_BANK only with no
operation running or suspended, so that the model sets STATE_REJ, where the statement takes PROGRAMMING alone as the condition of the
command and asks for BUSY_REJ. -/

namespace Sys2Proof.Laws

open Sys2Proof.Machine

/-- R268: with an operation stopped and none running, the bank's state does not allow SEAL_BANK. -/
theorem sealCmd_stopped {c : Fin 8} {s : State} (hn : bankExists s (selBank s c) = true)
    (hidle : (bankOf s (selBank s c)).ops.any opRunning = false) (hstopped : (bankOf s (selBank s c)).ops.any opStopped = true) :
    sealCmd c s = setErr c errState s := by
  simp [sealCmd, stateCmd, hn, hidle, hstopped]

/-- R268: after the unlock sequence, SEAL_BANK beside a suspended operation sets STATE_REJ alone. -/
theorem exec_sealBank_stopped {i : Initiator} {c : Fin 8} {s : State} (hcore : isCore i = true)
    (hunlock : (chanOf s c).unlock = .unlock2) (hn : bankExists s (selBank s c) = true)
    (hidle : (bankOf s (selBank s c)).ops.any opRunning = false) (hstopped : (bankOf s (selBank s c)).ops.any opStopped = true) :
    Completes (.sealBank i c) s (ChanStep c (markErr (2 ^ errState)) s) := by
  obtain ⟨hsel, -, -, hbank, hexists⟩ := relocked_reads c s
  have hexec : exec (.sealBank i c) s = .next (sealCmd c (relocked c s)) := unlocked_relocked (sealCmd c) hcore hunlock
  rw [sealCmd_stopped (by rw [hexists, hsel, hn]) (by rw [hsel, hbank, hidle]) (by rw [hsel, hbank, hstopped])] at hexec
  exact ⟨_, hexec, chanStep_setErr ..⟩

/-! ## The counterexample -/

/-- A suspended program of row 0, from channel 0. -/
def suspendedProgram : AwlOp := { newOp {} .programRow (some 0) 0 false false with phase := .suspended }

/-- Channel 0 is unlocked and selects bank 0, which is in PROGRAMMING with its program suspended. -/
def sealBesideSuspended : State := { ({} : State) with
  awl := { chans := [(0, { unlock := .unlock2 })] }
  banks := [(0, { state := .programming, ops := [suspendedProgram] })] }

/-- Refutes O46: in `sealBesideSuspended` SEAL_BANK sets STATE_REJ, and the statement asks for BUSY_REJ. -/
theorem not_awlChannels : ¬ Obligations.AwlChannels := by
  rintro ⟨-, -, -, -, hstate, -⟩
  have hbank := hstate (.core 0) 0 sealBesideSuspended rfl rfl
  dsimp only at hbank
  rw [if_neg (by decide), if_neg (by decide), if_pos (by decide)] at hbank
  obtain ⟨t, hexec, ⟨hbusy, -⟩, -⟩ :=
    hbank (true, .sealBank (.core 0) 0) (.tail _ (.tail _ (.head _)))
  obtain ⟨u, hexec', hrej, -⟩ := exec_sealBank_stopped (i := .core 0) (c := 0) (s := sealBesideSuspended) rfl rfl (by decide) rfl rfl
  obtain rfl : t = u := Host.Outcome.next.inj (hexec.symm.trans hexec')
  exact absurd (hbusy.symm.trans hrej) (by decide)

end Sys2Proof.Laws
end

section
/-! SUPPORT. What the upkeep of one bank leaves of the other banks' maintenance records, and of the placement that a bank's class reads. -/

namespace Sys2Proof.Laws

open Sys2Proof.Machine

/-! ## The other banks' maintenance records -/

/-- From `s` to `t`, no maintenance record but that of bank `n` has changed. -/
structure SchedWithin (n : Nat) (s t : State) : Prop where
  others : ∀ k, k ≠ n → schedOf t k = schedOf s k

namespace SchedWithin

variable {n : Nat} {s t u : State}

theorem refl (n : Nat) (s : State) : SchedWithin n s s := ⟨fun _ _ => rfl⟩

theorem trans (h : SchedWithin n s t) (k : SchedWithin n t u) : SchedWithin n s u :=
  ⟨fun j hj => (k.others j hj).trans (h.others j hj)⟩

theorem of_only {P : List Part} (h : Only P s t) (hs : Part.scheds ∉ P) : SchedWithin n s t :=
  ⟨fun k _ => congrArg (fun l => tget l k ({} : Sched)) (h.2 .scheds hs)⟩

theorem modSched (n : Nat) (f : Sched → Sched) (s : State) : SchedWithin n s (Machine.modSched n f s) :=
  ⟨fun _ hk => schedOf_modSched_ne s f hk⟩

theorem raise (name : EventName) (k u : Nat) (n : Nat) (s : State) : SchedWithin n s (Machine.raise name k u s) :=
  of_only (raise_only ..) (by decide)

theorem ite {c : Prop} [Decidable c] (ht : SchedWithin n s t) (hu : SchedWithin n s u) : SchedWithin n s (if c then t else u) := by
  split
  next => exact ht
  next => exact hu

theorem noteFloor (n : Nat) (s : State) : SchedWithin n s (Machine.noteFloor n s) := by
  unfold Machine.noteFloor
  split
  next => exact ite ((modSched ..).trans (raise ..)) (refl ..)
  next => exact ite (refl ..) ((modSched ..).trans (raise ..))

theorem refreshDue (n : Nat) (s : State) : SchedWithin n s (Machine.refreshDue n s) := by
  unfold Machine.refreshDue
  extract_lets due floor sNoted sFloor
  have hnoted : SchedWithin n s sNoted := (modSched ..).trans (noteFloor ..)
  have hfloor : SchedWithin n s sFloor := ite (hnoted.trans ((modSched ..).trans (of_only (modBank_only ..) (by decide)))) hnoted
  exact ite hfloor (hfloor.trans (of_only (dropCover_only ..) (by decide)))

theorem setSymptom (n k : Nat) (was now : Bool) (put : Sched → Sched) (s : State) :
    SchedWithin n s (Machine.setSymptom n k was now put s) :=
  ite ((modSched ..).trans (raise ..)) (modSched ..)

theorem refreshSymptoms (n : Nat) (s : State) : SchedWithin n s (Machine.refreshSymptoms n s) :=
  (((setSymptom ..).trans (setSymptom ..)).trans (setSymptom ..)).trans (modSched ..)

end SchedWithin

/-! ## The placement that a bank's class reads (R293) -/

/-- Ending a cover (R304) leaves the pool and the slots. -/
theorem dropCover_placement (n : Nat) (s : State) :
    (dropCover n s).model.pool = s.model.pool ∧ (dropCover n s).model.slots = s.model.slots := by
  unfold dropCover
  split
  next => exact ⟨rfl, rfl⟩
  next =>
    dsimp only
    split <;> exact ⟨rfl, rfl⟩

theorem refreshDue_placement (n : Nat) (s : State) :
    (refreshDue n s).model.pool = s.model.pool ∧ (refreshDue n s).model.slots = s.model.slots := by
  unfold refreshDue
  extract_lets due floor sNoted sFloor
  have hnoted : sNoted.model = s.model := (noteFloor_only ..).model_eq (by decide)
  have hfloor : sFloor.model = s.model := by
    unfold sFloor
    split
    · exact hnoted
    · exact hnoted
  split
  next => rw [hfloor]; exact ⟨rfl, rfl⟩
  next =>
    have hdrop := dropCover_placement n sFloor
    rwa [hfloor] at hdrop

/-- R293: a bank's class reads its owners and its mode, the adapter pool, the slots and the strict mode. -/
theorem bankClass_congr {n : Nat} {s t : State} (hbank : noOps (bankOf t n) = noOps (bankOf s n)) (hpool : t.model.pool = s.model.pool)
    (hslots : t.model.slots = s.model.slots) (hregs : t.regs = s.regs) : bankClass t n = bankClass s n := by
  have howners : (bankOf t n).owners = (bankOf s n).owners := (congrArg Bank.owners hbank :)
  have hmode : (bankOf t n).storageMode = (bankOf s n).storageMode := (congrArg Bank.storageMode hbank :)
  have hslices : slicesOn t n = slicesOn s n := by rw [slicesOn, hslots, slicesOn]
  have hstrict : strictOn t = strictOn s := by rw [strictOn, hregs, strictOn]
  simp only [bankClass, howners, hmode, hpool, hslices, hstrict]

theorem refreshDue_bankClass (n k : Nat) (s : State) : bankClass (refreshDue n s) k = bankClass s k := by
  have hup : Upkeep n s (refreshDue n s) := .refreshDue ..
  obtain ⟨hpool, hslots⟩ := refreshDue_placement n s
  refine bankClass_congr ?_ hpool hslots (refreshDue_regs n s)
  obtain rfl | hk := eq_or_ne k n
  · exact hup.bank
  · rw [bankOf, tget, hup.others k hk, bankOf, tget]

/-! ## A fold over numbers, seen at each -/

/-- A fold whose step at a number changes the view at that number alone, by `h`: each number listed is changed once, where none is
listed twice or where a second change does nothing. `P` holds throughout. -/
theorem foldl_each {β : Type} {f : State → Nat → State} (view : State → Nat → β) {h : Nat → β → β} {P : State → Prop} {l : List Nat}
    (hl : l.Nodup ∨ ∀ k x, h k (h k x) = h k x) (hP : ∀ t k, P t → P (f t k))
    (hf : ∀ t k m, P t → view (f t k) m = if m = k then h k (view t k) else view t m) {s : State} (hs : P s) (m : Nat) :
    view (l.foldl f s) m = if m ∈ l then h m (view s m) else view s m := by
  induction l generalizing s with
  | nil => rfl
  | cons k l ih =>
    have hrest := ih (hl.imp_left fun hnd => (List.nodup_cons.1 hnd).2) (hP s k hs)
    rw [List.foldl_cons, hrest, hf s k m hs]
    obtain rfl | hm := eq_or_ne m k
    · simp only [if_true, List.mem_cons, true_or]
      split
      next hmem =>
        rcases hl with hnd | hidem
        · exact absurd hmem (List.nodup_cons.1 hnd).1
        · exact hidem ..
      next => rfl
    · simp only [List.mem_cons, hm, false_or, if_false]

end Sys2Proof.Laws
end

section
/-! SUPPORT. One second of drift age (R294, R296): which banks age, and by how much. -/

namespace Sys2Proof.Laws

open Sys2Proof.Machine

/-! ## The placed banks stand once each -/

theorem insertUp_rising {n : Nat} {l : List Nat} (h : l.Pairwise (· < ·)) : (insertUp n l).Pairwise (· < ·) := by
  induction l with
  | nil => exact List.pairwise_singleton ..
  | cons k l ih =>
    obtain ⟨hk, hl⟩ := List.pairwise_cons.1 h
    unfold insertUp
    split
    next hn => exact List.pairwise_cons.2 ⟨List.forall_mem_cons.2 ⟨hn, fun m hm => hn.trans (hk m hm)⟩, h⟩
    next hn =>
      split
      next => exact h
      next hne =>
        refine List.pairwise_cons.2 ⟨fun m hm => ?_, ih hl⟩
        rcases mem_insertUp.1 hm with rfl | hm
        · omega
        · exact hk m hm

theorem placedBanks_nodup {s : State} (h : (tkeys s.banks).Pairwise (· < ·)) : (placedBanks s).Nodup := by
  refine List.Pairwise.imp (fun hlt => Nat.ne_of_lt hlt) ?_
  refine List.foldlRecOn (motive := fun l : List Nat => l.Pairwise (· < ·)) _ _ ?_ fun l hl n _ => insertUp_rising hl
  exact h.sublist (List.filter_sublist.map Prod.fst)

/-! ## The share of one second (R294) -/

/-- What one second adds to the drift age of a bank, before the limit of its field. -/
def secondShare (s : State) (n : Nat) : Nat := driftPerSecond (topupCurve s) (bankClass s n = 2) (islandTj s (bankIsland n))

/-- One second at its island's temperature ages a bank, and what is due of it is set again. -/
def aged (n : Nat) (s : State) : State := refreshDue n (modSched n (driftAdd s n 1 (islandTj s (bankIsland n))) s)

theorem aged_only (n : Nat) (s : State) : Only [.counters, .events, .held, .model, .banks, .scheds, .out] s (aged n s) :=
  (refreshDue_only ..).step (by decide) ((modSched_only ..).mono (by decide))

/-- Ageing a bank moves no bank's share. -/
theorem secondShare_aged (n k : Nat) (s : State) : secondShare (aged n s) k = secondShare s k := by
  have honly := aged_only n s
  have hclass : bankClass (aged n s) k = bankClass s k := refreshDue_bankClass ..
  have hcurve : topupCurve (aged n s) = topupCurve s := by
    have hvalues : { (aged n s).dict with
        counters := s.dict.counters, events := s.dict.events, nextSeq := s.dict.nextSeq, faultLog := s.dict.faultLog
        monitors := s.dict.monitors, monClears := s.dict.monClears, monLast := s.dict.monLast } = s.dict := honly.2 .values (by decide)
    have hliquid : (aged n s).liquid = s.liquid := honly.1.2.2.1
    have hactive : (aged n s).dict.active = s.dict.active := (congrArg Dict.active hvalues :)
    simp only [topupCurve, dictActive, hactive, hliquid]
  have htj : ∀ i, islandTj (aged n s) i = islandTj s i := fun i => by
    obtain ⟨hmon, hclears, -⟩ := honly.2 .monitors (by decide)
    simp only [islandTj, monOf, monEmpty, hmon, hclears]
  simp only [secondShare, hclass, hcurve, htj]

/-- R294: only the bank that ages changes its drift age, which its field limits. -/
theorem drift_aged (n m : Nat) (s : State) : (schedOf (aged n s) m).drift =
    if m = n then min (2 ^ 64 - 1) ((schedOf s n).drift + secondShare s n) else (schedOf s m).drift := by
  split
  next h =>
    subst h
    have hup := (Upkeep.refreshDue m (modSched m (driftAdd s m 1 (islandTj s (bankIsland m))) s)).sched
    rw [schedOf_modSched_self] at hup
    refine (congrArg Sched.drift hup :).trans ?_
    simp only [upkept, driftAdd, one_mul, secondShare]
  next h =>
    have hothers : SchedWithin n s (aged n s) := (SchedWithin.modSched ..).trans (.refreshDue ..)
    rw [hothers.others m h]

/-- One more second is counted, and the placed banks age. -/
def secondPassed (s : State) : State :=
  (placedBanks s).foldl (fun t n => aged n t) { s with time := { s.time with driftAt := s.time.driftAt + 1 } }

theorem secondPassed_time (s : State) : (secondPassed s).time = { s.time with driftAt := s.time.driftAt + 1 } :=
  foldl_keeps State.time (fun t n => (aged_only n t).2 .time (by decide)) ..

/-- R294: every placed bank ages once, by its own share, and no other bank. -/
theorem secondPassed_drift {s : State} (hrising : (tkeys s.banks).Pairwise (· < ·)) (n : Nat) : (schedOf (secondPassed s) n).drift =
    if n ∈ placedBanks s then min (2 ^ 64 - 1) ((schedOf s n).drift + secondShare s n) else (schedOf s n).drift :=
  foldl_each (f := fun t k => aged k t) (fun t k => (schedOf t k).drift) (h := fun k x => min (2 ^ 64 - 1) (x + secondShare s k))
    (P := fun t => ∀ k, secondShare t k = secondShare s k) (.inl (placedBanks_nodup hrising))
    (fun t k ht j => (secondShare_aged k j t).trans (ht j)) (fun t k m ht => by rw [drift_aged, ht k])
    (s := { s with time := { s.time with driftAt := s.time.driftAt + 1 } }) (fun _ => rfl) n

theorem execDriftAgeTick_passed {s : State} (h : ¬(uzomelRuns s = false ∨ poweredS s ≤ s.time.driftAt)) :
    execDriftAgeTick s = .next (secondPassed s) := if_neg (by simpa using h)

theorem execDriftAgeTick_waits {s : State} (h : uzomelRuns s = false ∨ poweredS s ≤ s.time.driftAt) : execDriftAgeTick s = .next s :=
  if_pos (by simpa using h)

end Sys2Proof.Laws
end

section
/-! SUPPORT. The rows of a top-up run (R297, R298, R305, R306): a start and a resume each put one row's operation on the bank. -/

namespace Sys2Proof.Laws

open Sys2Proof.Machine

theorem sister_ne (n : Nat) : sister n ≠ n := by
  unfold sister
  split <;> omega

/-- R305: only a floor top-up touches the sister bank, and no other. -/
theorem tget?_floorSuspend {n k : Nat} (hk : k ≠ sister n) (s : State) : tget? (floorSuspend n s).banks k = tget? s.banks k := by
  unfold floorSuspend
  split
  · rfl
  · exact modBank_other _ _ hk

/-- R272: a top-up row that its bank's state allows waits, or starts and changes itself alone. -/
theorem queueOp_topUp {n : Nat} {o : AwlOp} {s : State} (hq : o.phase = .queued) (hk : o.kind = .topUpRow)
    (hok : opAllowed (bankOf s n).state .topUpRow = true) :
    queueOp n o s = enqueued n o s ∨ queueOp n o s =
      modBank n (mapOp o.order fun p => { p with phase := .running, held := false, started := s.time.pll }) (enqueued n o s) := by
  rw [queueOp_eq]
  split
  · refine .inr (startOp_plain hq ?_ (.inl hk))
    rw [hk, enqueued, bankOf_modBank_self]
    exact hok
  · refine .inl (if_neg ?_)
    simp [bufferWaits, hk]

theorem queueOp_topUp_spec {n : Nat} {o : AwlOp} {s : State} (hq : o.phase = .queued) (hk : o.kind = .topUpRow)
    (hok : opAllowed (bankOf s n).state .topUpRow = true) : let t := queueOp n o s
    (∃ q ∈ (bankOf t n).ops, q.kind = o.kind ∧ q.run = o.run ∧ q.row = o.row ∧ q.floor = o.floor) ∧
      (bankOf t n).state = (bankOf s n).state ∧ t.scheds = s.scheds ∧ ∀ k, k ≠ n → tget? t.banks k = tget? s.banks k := by
  have hbank : bankOf (enqueued n o s) n = { bankOf s n with ops := (bankOf s n).ops ++ [o] } := bankOf_modBank_self ..
  have hothers : ∀ k, k ≠ n → tget? (enqueued n o s).banks k = tget? s.banks k := fun k hk => modBank_other _ _ hk
  dsimp only
  rcases queueOp_topUp hq hk hok with heq | heq <;> rw [heq]
  · rw [hbank]
    exact ⟨⟨o, List.mem_append_right _ (List.mem_singleton_self o), rfl, rfl, rfl, rfl⟩, rfl, rfl, hothers⟩
  · rw [bankOf_modBank_self, hbank]
    refine ⟨⟨{ o with phase := .running, held := false, started := s.time.pll }, ?_, rfl, rfl, rfl, rfl⟩, rfl, rfl,
      fun k hk => (modBank_other _ _ hk).trans (hothers k hk)⟩
    exact List.mem_map.2 ⟨o, List.mem_append_right _ (List.mem_singleton_self o), if_pos rfl⟩

/-- A run that begins at row 0, with its permille of the interval (R315). -/
def firstRun (d : Sched) : Run := { next := 0, floor := d.dueFloor, preempted := false, permille := min 1000 (d.drift * 1000 / 2 ^ 48) }

/-- The run `r` stands in the bank's record, and a floor top-up has asked the sister bank to stop (R305). -/
def runEntered (n : Nat) (r : Run) (s : State) : State :=
  modSched n (fun d => { d with run := some r }) (if r.floor then floorSuspend n s else s)

/-- The run `r` goes on, or begins, with its next row. -/
def rowIssued (n : Nat) (r : Run) (s : State) : State :=
  queueOp n (newOp (runEntered n r s) .topUpRow none r.next r.floor true) (runEntered n r s)

theorem rowIssued_spec {n : Nat} (r : Run) {s : State} (hok : opAllowed (bankOf s n).state .topUpRow = true) :
    let t := rowIssued n r s
    (schedOf t n).run = some r ∧
      (∃ o ∈ (bankOf t n).ops, o.kind = .topUpRow ∧ o.run = true ∧ o.row = BitVec.ofNat 11 r.next ∧ o.floor = r.floor) ∧
      (bankOf t n).state = (bankOf s n).state ∧
      ∀ k, k ≠ n → (k ≠ sister n ∨ r.floor = false) → tget? t.banks k = tget? s.banks k := by
  have hentered : ∀ k, (k ≠ sister n ∨ r.floor = false) → tget? (runEntered n r s).banks k = tget? s.banks k := by
    intro k hk
    show tget? (if r.floor then floorSuspend n s else s).banks k = _
    split
    next hfloor => exact tget?_floorSuspend (hk.resolve_right (ne_false_of_eq_true hfloor)) s
    next => rfl
  have hbank : bankOf (runEntered n r s) n = bankOf s n := by
    rw [bankOf, tget, hentered n (.inl (sister_ne n).symm), bankOf, tget]
  obtain ⟨hop, hstate, hscheds, hothers⟩ :=
    queueOp_topUp_spec (n := n) (o := newOp (runEntered n r s) .topUpRow none r.next r.floor true) (s := runEntered n r s) rfl rfl
      (by rw [hbank]; exact hok)
  refine ⟨?_, hop, hstate.trans (by rw [hbank]), fun k hk hsister => (hothers k hk).trans (hentered k hsister)⟩
  have hsched : schedOf (rowIssued n r s) n = schedOf (runEntered n r s) n := congrArg (fun l => tget l n ({} : Sched)) hscheds
  rw [hsched, runEntered, schedOf_modSched_self]

section Commands

variable {n : Nat} {s : State} (hn : bankExists s n = true)
include hn

theorem execTopupRunStart_starts (hallowed : runAllowed s n = true) (hfirst : (schedOf s n).dueFloor = true ∨ windowElsewhere s n = false) :
    execTopupRunStart n s = .next (rowIssued n (firstRun (schedOf s n)) s) := by
  unfold execTopupRunStart
  rw [if_neg (by simp [hn]), if_neg (by rcases hfirst with h | h <;> simp [hallowed, h])]
  rfl

theorem execTopupRunStart_stays (h : ¬(runAllowed s n = true ∧ ((schedOf s n).dueFloor = true ∨ windowElsewhere s n = false))) :
    execTopupRunStart n s = .next s := by
  unfold execTopupRunStart
  rw [if_neg (by simp [hn]), if_pos]
  rw [not_and_or, not_or] at h
  simpa using h

theorem execTopupResume_noRun (h : (schedOf s n).run = none) : execTopupResume n s = .next s := by
  simp [execTopupResume, hn, h]

variable {run : Run} (hrun : (schedOf s n).run = some run)
include hrun

theorem execTopupResume_resumes (h : run.preempted = true ∧ bankIdle s n = true ∧ (bankOf s n).ops = []) :
    execTopupResume n s = .next (rowIssued n { run with preempted := false } s) := by
  obtain ⟨hpreempted, hidle, hops⟩ := h
  simp only [execTopupResume, hn, hrun, hpreempted, hidle, hops]
  rfl

theorem execTopupResume_stays (h : ¬(run.preempted = true ∧ bankIdle s n = true ∧ (bankOf s n).ops = [])) :
    execTopupResume n s = .next s := by
  simp only [execTopupResume, hn, hrun]
  refine (if_neg (by simp)).trans (if_pos ?_)
  rw [not_and_or, not_and_or] at h
  simpa [or_assoc] using h

end Commands

/-- R298: a run starts on a bank in a state in which its rows may be topped up (R268). -/
theorem opAllowed_of_runAllowed {n : Nat} {s : State} (h : runAllowed s n = true) : opAllowed (bankOf s n).state .topUpRow = true := by
  simp only [runAllowed, Bool.and_eq_true] at h
  obtain ⟨⟨⟨-, hstate⟩, -⟩, -⟩ := h
  exact hstate

end Sys2Proof.Laws
end

section
/-! SUPPORT. The timers of maintenance (R302 to R304, R315): the period of a test, idle windows, late work and re-run buckets. -/

namespace Sys2Proof.Laws

open Sys2Proof.Machine

/-! ## The period of a test (R302) -/

section Period

variable {n : Nat} {s : State} (hn : bankExists s n = true)
include hn

theorem execKsPeriodTimer_due (h : bankPlaced s n = true ∧ (schedOf s n).measuredAt + dictNum s (ob 0x8004 1) ≤ poweredS s) :
    execKsPeriodTimer n s = .next (modSched n (fun d => stampDue (poweredS s) { d with dueKs := true }) s) := by
  unfold execKsPeriodTimer
  rw [if_neg (by simp [hn]), if_pos (by simpa using h)]

theorem execKsPeriodTimer_early (h : ¬(bankPlaced s n = true ∧ (schedOf s n).measuredAt + dictNum s (ob 0x8004 1) ≤ poweredS s)) :
    execKsPeriodTimer n s = .next s := by
  unfold execKsPeriodTimer
  rw [if_neg (by simp [hn]), if_neg (by simpa using h)]

end Period

/-! ## Idle windows (R303) -/

/-- The banks on which an idle window of group `g` opens: those of the group's slices, where the plan declares such a window. -/
def windowBanks (p : LastPlan) (places : List Placed) (g : Nat) : List Nat :=
  let slices := if p.idle.any (fun e => e.1 = g) then
    (p.slices.filter fun (r : SliceRec) => r.spillGroup = g).map fun (r : SliceRec) => r.slice else []
  (places.filter fun q => slices.contains q.slice).map fun q => q.bank

theorem mem_windowBanks {p : LastPlan} {places : List Placed} {g n : Nat} : n ∈ windowBanks p places g ↔
    (∃ e ∈ p.idle, e.1 = g) ∧ ∃ r ∈ p.slices, r.spillGroup = g ∧ ∃ q ∈ places, q.slice = r.slice ∧ q.bank = n := by
  unfold windowBanks
  dsimp only
  split
  next hidle =>
    have hdeclared : ∃ e ∈ p.idle, e.1 = g := by simpa using hidle
    simp only [List.mem_map, List.mem_filter, List.contains_iff_mem, decide_eq_true_eq]
    constructor
    · rintro ⟨q, ⟨hq, r, ⟨hr, hgroup⟩, hslice⟩, hbank⟩
      exact ⟨hdeclared, r, hr, hgroup, q, hq, hslice.symm, hbank⟩
    · rintro ⟨-, r, hr, hgroup, q, hq, hslice, hbank⟩
      exact ⟨q, ⟨hq, r, ⟨hr, hgroup⟩, hslice.symm⟩, hbank⟩
  next hidle =>
    have hnone : ¬∃ e ∈ p.idle, e.1 = g := by simpa using hidle
    simp [hnone]

/-- A window has opened on each listed bank. -/
def windowsOpened (banks : List Nat) (s : State) : State := banks.foldl (fun s n => modSched n (fun d => { d with window := true }) s) s

theorem schedOf_windowsOpened (banks : List Nat) (s : State) (n : Nat) : schedOf (windowsOpened banks s) n =
    if n ∈ banks then { schedOf s n with window := true } else schedOf s n :=
  foldl_each (P := fun _ => True) schedOf (h := fun _ d => { d with window := true }) (.inr fun _ _ => rfl) (fun _ _ _ => trivial)
    (fun t k m _ => schedOf_modSched t k m _) trivial n

theorem execIdleWindowOpen_planned {slot : Fin 64} {s : State} {p : LastPlan} (hp : (slotOf s slot.val).plan = some p) (g : Nat) :
    execIdleWindowOpen slot g s = .next (windowsOpened (windowBanks p (slotOf s slot.val).places g) s) := by
  simp only [execIdleWindowOpen, hp]
  rfl

theorem execIdleWindowOpen_unplanned {slot : Fin 64} {s : State} (hp : (slotOf s slot.val).plan = none) (g : Nat) :
    execIdleWindowOpen slot g s = .next s := by
  simp [execIdleWindowOpen, hp]

/-! ## Work that is late (R304) -/

/-- The force bit stands in the bank's record, and the cover is forced. -/
def coverForced (n : Nat) (s : State) : State :=
  let t := modSched n (fun d => { d with dueForced := true }) s
  let cov := (tget? s.model.covers n).getD { forced := true, slabs := [], missing := [] }
  { t with model := { t.model with covers := tset s.model.covers n { cov with forced := true } } }

theorem coverForced_only (n : Nat) (s : State) : Only [.model, .scheds] s (coverForced n s) :=
  (Only.setModel ..).step (by decide) ((modSched_only ..).mono (by decide))

/-- One kind of work has been due for longer than the limit. -/
def lateSince (s : State) (t : Option Nat) : Bool := t.any fun t => decide (t + dictNum s (ob 0x8005 1) < poweredS s)

theorem overdue_eq (s : State) (d : Sched) :
    overdue s d = (lateSince s d.sinceTopup || lateSince s d.sinceKs || lateSince s d.sinceRebuild) := by
  simp [overdue, lateSince, Bool.or_assoc]

section Late

variable {n : Nat} {s : State} (hn : bankExists s n = true)
include hn

theorem execForceAfterTimer_forces (h : (schedOf s n).dueForced = false ∧ bankPlaced s n = true ∧ overdue s (schedOf s n) = true) :
    execForceAfterTimer n s = .next (bump (ob 0x8016 1) (raise .forcedCover 1 n (coverForced n s))) := by
  obtain ⟨hnew, hplaced, hlate⟩ := h
  unfold execForceAfterTimer
  rw [if_neg (by simp [hn]), if_neg (by simp [hnew, hplaced, hlate])]
  rfl

theorem execForceAfterTimer_stays (h : ¬((schedOf s n).dueForced = false ∧ bankPlaced s n = true ∧ overdue s (schedOf s n) = true)) :
    execForceAfterTimer n s = .next s := by
  unfold execForceAfterTimer
  rw [if_neg (by simp [hn]), if_pos]
  rw [not_and_or, not_and_or] at h
  simpa [or_assoc] using h

end Late

/-- R304: what a forced cover leaves: the force bit, the cover, one event and one count. -/
theorem forced_spec (n : Nat) (s : State) : let t := bump (ob 0x8016 1) (raise .forcedCover 1 n (coverForced n s))
    schedOf t n = { schedOf s n with dueForced := true } ∧ (∃ c, tget? t.model.covers n = some c ∧ c.forced = true) ∧
      Raised .forcedCover 1 n s t ∧ counterOf t (ob 0x8016 1) = counterOf s (ob 0x8016 1) + 1 := by
  have hafter : Only [.counters, .events, .held, .out] (coverForced n s) (bump (ob 0x8016 1) (raise .forcedCover 1 n (coverForced n s))) :=
    (bump_only ..).step (by decide) ((raise_only ..).mono (by decide))
  have hforced := coverForced_only n s
  refine ⟨?_, ?_, ?_, ?_⟩
  · refine (congrArg (fun l => tget l n ({} : Sched)) (hafter.2 .scheds (by decide)) :).trans ?_
    exact schedOf_modSched_self s n fun d => { d with dueForced := true }
  · rw [hafter.model_eq (by decide)]
    exact ⟨_, tget?_tset_self .., rfl⟩
  · exact hforced.raised (by decide) (by decide) (raised_bump (by decide) (raised_raise ..))
  · rw [counterOf_bump_self, counterOf_raise (by decide) (by decide), hforced.counterOf_eq (by decide)]

/-! ## Re-run buckets (R315) -/

/-- The bank's oldest bucket has made room for a new one, and its symptoms are set again. -/
def bucketOpened (n : Nat) (s : State) : State := refreshSymptoms n (modSched n (fun d => { d with reruns := (0 :: d.reruns).take 24 }) s)

theorem bucketOpened_only (n : Nat) (s : State) : Only [.counters, .events, .held, .scheds, .out] s (bucketOpened n s) :=
  (refreshSymptoms_only ..).step (by decide) ((modSched_only ..).mono (by decide))

theorem bucketOpened_buckets (n m : Nat) (s : State) :
    ((schedOf (bucketOpened n s) m).reruns, (schedOf (bucketOpened n s) m).drift) =
      if m = n then ((0 :: (schedOf s n).reruns).take 24, (schedOf s n).drift) else ((schedOf s m).reruns, (schedOf s m).drift) := by
  split
  next h =>
    subst h
    have hup := (Upkeep.refreshSymptoms m (modSched m (fun d => { d with reruns := (0 :: d.reruns).take 24 }) s)).sched
    rw [schedOf_modSched_self] at hup
    exact (congrArg (fun d : Sched => (d.reruns, d.drift)) hup :)
  next h =>
    have hothers : SchedWithin n s (bucketOpened n s) := (SchedWithin.modSched ..).trans (.refreshSymptoms ..)
    rw [hothers.others m h]

/-- One more hour is counted, and every listed bank opens a bucket. -/
def hourPassed (s : State) : State :=
  (tkeys s.scheds).foldl (fun t n => bucketOpened n t) { s with time := { s.time with bucketHour := s.time.bucketHour + 1 } }

theorem hourPassed_time (s : State) : (hourPassed s).time = { s.time with bucketHour := s.time.bucketHour + 1 } :=
  foldl_keeps State.time (fun t n => (bucketOpened_only n t).2 .time (by decide)) ..

/-- R315: a bank with a maintenance record opens one bucket, and its drift age stays. -/
theorem hourPassed_buckets {s : State} (hrising : (tkeys s.scheds).Pairwise (· < ·)) {n : Nat} {d : Sched}
    (hd : tget? s.scheds n = some d) :
    (schedOf (hourPassed s) n).reruns = (0 :: d.reruns).take 24 ∧ (schedOf (hourPassed s) n).drift = d.drift := by
  have hopened := foldl_each (f := fun t k => bucketOpened k t) (fun t k => ((schedOf t k).reruns, (schedOf t k).drift))
    (h := fun _ x => ((0 :: x.1).take 24, x.2)) (P := fun _ => True) (.inl (hrising.imp fun hlt => Nat.ne_of_lt hlt))
    (fun _ _ _ => trivial) (fun t k m _ => bucketOpened_buckets k m t)
    (s := { s with time := { s.time with bucketHour := s.time.bucketHour + 1 } }) trivial n
  have hsched : schedOf s n = d := by rw [schedOf, tget, hd]; rfl
  rw [if_pos (mem_tkeys_of_tget? hd)] at hopened
  rw [← hsched]
  exact Prod.mk.inj hopened

theorem execRerunBucketRoll_hour {s : State} (h : ¬poweredS s / 3600 ≤ s.time.bucketHour) :
    execRerunBucketRoll s = .next (hourPassed s) := if_neg h

end Sys2Proof.Laws
end

section
/-! SUPPORT. The store of powered time (R426, R491): what is appended is the newest value of its object and key. -/

namespace Sys2Proof.Laws

open Sys2Proof.Machine

/-- The newer of the best entry so far and `e`, of the entries of one object and key. -/
def newerEntry (object key : Nat) (best : Option StoreEntry) (e : StoreEntry) : Option StoreEntry :=
  if e.object = object && e.key = key then
    match best with
    | none => some e
    | some b => if b.seq < e.seq then some e else some b
  else best

theorem storedValue_eq (d : Dict) (object key : Nat) :
    storedValue d object key = ((d.area0 ++ d.area1).foldl (newerEntry object key) none).map fun e => e.value := rfl

/-- An entry that is newer than all others stays the best. -/
theorem foldl_newerEntry_keeps {e : StoreEntry} (object key : Nat) {l : List StoreEntry} (hl : ∀ x ∈ l, x = e ∨ x.seq < e.seq) :
    l.foldl (newerEntry object key) (some e) = some e := by
  refine List.foldlRecOn (motive := (· = some e)) l _ rfl fun best hbest x hx => ?_
  subst hbest
  unfold newerEntry
  dsimp only
  rcases hl x hx with rfl | hlt
  · simp
  · simp [Nat.le_of_lt hlt]

/-- An entry that is newer than all others is the best. -/
theorem foldl_newerEntry {e : StoreEntry} {l : List StoreEntry} (hmem : e ∈ l) (hl : ∀ x ∈ l, x = e ∨ x.seq < e.seq)
    {best : Option StoreEntry} (hbest : ∀ b, best = some b → b = e ∨ b.seq < e.seq) :
    l.foldl (newerEntry e.object e.key) best = some e := by
  induction l generalizing best with
  | nil => cases hmem
  | cons x l ih =>
    obtain ⟨hx, hrest⟩ := List.forall_mem_cons.1 hl
    rw [List.foldl_cons]
    rcases List.mem_cons.1 hmem with rfl | hmem
    · have htaken : newerEntry e.object e.key best e = some e := by
        rcases best with _ | b
        · simp [newerEntry]
        · rcases hbest b rfl with rfl | hlt
          · simp [newerEntry]
          · simp [newerEntry, hlt]
      rw [htaken]
      exact foldl_newerEntry_keeps _ _ hrest
    · refine ih hmem hrest fun b hb => ?_
      have hone : some b = some x ∨ some b = best := by
        rw [← hb]
        unfold newerEntry
        split
        · split
          · exact .inl rfl
          · split
            · exact .inl rfl
            · exact .inr rfl
        · exact .inr rfl
      rcases hone with h | h
      · rw [Option.some.inj h]; exact hx
      · exact hbest b h.symm

theorem mem_of_mem_liveEntries {x : StoreEntry} {l : List StoreEntry} (h : x ∈ liveEntries l) : x ∈ l := by
  induction l with
  | nil => exact h
  | cons e l ih =>
    rcases List.mem_cons.1 h with rfl | h
    · exact List.mem_cons_self
    · exact List.mem_cons_of_mem _ (ih (List.mem_filter.1 h).1)

/-- R426: compaction keeps an entry that stands at the front of both areas, and brings in none that stood in neither. -/
theorem compactStore_keeps {d : Dict} {e : StoreEntry} {a b : List StoreEntry} (ha : d.area0 = e :: a) (hb : d.area1 = e :: b) :
    e ∈ (compactStore d).area0 ++ (compactStore d).area1 ∧
      ∀ x ∈ (compactStore d).area0 ++ (compactStore d).area1, x ∈ d.area0 ++ d.area1 := by
  have hlive : ∀ l, e ∈ liveEntries (e :: l) := fun l => List.mem_cons_self
  unfold compactStore
  extract_lets d'
  have hfront : ∃ l, d'.area1 = e :: l := by
    unfold d'
    split
    · exact ⟨_, by rw [ha]; rfl⟩
    · exact ⟨b, hb⟩
  have hold : ∀ x ∈ d'.area0 ++ d'.area1, x ∈ d.area0 ++ d.area1 := by
    intro x hx
    unfold d' at hx
    split at hx
    · rcases List.mem_append.1 hx with hx | hx
      · cases hx
      · exact (List.mem_append.1 hx).elim (fun h => List.mem_append_left _ (mem_of_mem_liveEntries h)) (List.mem_append_right _)
    · exact hx
  obtain ⟨l, hl⟩ := hfront
  split
  · refine ⟨List.mem_append_left _ (List.mem_append_left _ ?_), fun x hx => hold x ?_⟩
    · show e ∈ liveEntries d'.area1
      rw [hl]
      exact hlive l
    · rcases List.mem_append.1 hx with hx | hx
      · exact (List.mem_append.1 hx).elim (fun h => List.mem_append_right _ (mem_of_mem_liveEntries h)) (List.mem_append_left _)
      · cases hx
  · exact ⟨List.mem_append_right _ (by rw [hl]; exact List.mem_cons_self), hold⟩

/-- R426: the value that has been appended is the one that is stored. -/
theorem storedValue_storeAppend {s : State} (h : ∀ e ∈ s.dict.area0 ++ s.dict.area1, e.seq < s.dict.storeSeq) (object key : Nat)
    (value : Bytes) : storedValue (storeAppend object key value s).dict object key = some value := by
  let e : StoreEntry := { object, key, seq := s.dict.storeSeq, value }
  obtain ⟨hmem, hall⟩ := compactStore_keeps (e := e)
    (d := { s.dict with area0 := e :: s.dict.area0, area1 := e :: s.dict.area1, storeSeq := s.dict.storeSeq + 1 }) rfl rfl
  have hnewest : ∀ x ∈ (storeAppend object key value s).dict.area0 ++ (storeAppend object key value s).dict.area1,
      x = e ∨ x.seq < e.seq := by
    intro x hx
    have hold : x ∈ (e :: s.dict.area0) ++ (e :: s.dict.area1) := hall x hx
    simp only [List.mem_append, List.mem_cons] at hold
    rcases hold with (rfl | hx) | (rfl | hx)
    · exact .inl rfl
    · exact .inr (h x (List.mem_append_left _ hx))
    · exact .inl rfl
    · exact .inr (h x (List.mem_append_right _ hx))
  rw [storedValue_eq]
  exact congrArg (Option.map _) (foldl_newerEntry (e := e) hmem hnewest (by rintro b ⟨⟩))

/-- R491: powered time, drift ages and re-run buckets are stored together. -/
theorem storePoweredTime_spec {s : State} (h : ∀ e ∈ s.dict.area0 ++ s.dict.area1, e.seq < s.dict.storeSeq) :
    let t := storePoweredTime s
    t.time = { s.time with storedTotal := poweredS s, storedAt := s.time.pll, storedAllAt := poweredS s } ∧
      storedValue t.dict (ob 0x2021 1) 0 = some (leBytes 8 (poweredS s)) ∧
      ∀ n d, tget? s.scheds n = some d → tget? t.scheds n = some { d with storedDrift := d.drift, storedReruns := d.reruns } := by
  refine ⟨rfl, storedValue_storeAppend h .., fun n d hd => ?_⟩
  refine (tget?_map s.scheds n fun _ d => { d with storedDrift := d.drift, storedReruns := d.reruns }).trans ?_
  rw [hd]
  rfl

theorem execPoweredTimeStore_due {s : State} (h : uzomelRuns s = true ∧ s.time.storedAllAt + 60 ≤ poweredS s) :
    execPoweredTimeStore s = .next (storePoweredTime s) := if_pos (by simpa using h)

theorem execPoweredTimeStore_early {s : State} (h : ¬(uzomelRuns s = true ∧ s.time.storedAllAt + 60 ≤ poweredS s)) :
    execPoweredTimeStore s = .next s := if_neg (by simpa using h)

end Sys2Proof.Laws
end

section
/-! PROOF of O54 (R294, R296, R297, R302 to R306, R315, R491). -/

namespace Sys2Proof.Laws

open Sys2Proof.Machine

/-- Settles O54: each outcome is one equation of the command; the second and the hour that pass are one fold each, seen at every bank, and
the start and the resume of a run issue one row alike. -/
theorem cobblerDueWork : Obligations.CobblerDueWork := by
  refine ⟨fun s hrising => ?drift, fun n s hn => ?start, fun n run s hn hrun => ?resume,
    fun n s hn hrun => execTopupResume_noRun hn hrun, fun n s hn => ?period, fun slot g s => ?window, fun n s hn => ?force,
    fun s hrising => ?bucket, fun s hstore => ?store⟩
  case drift =>
    split
    next h => exact execDriftAgeTick_waits h
    next h =>
      have hexec := execDriftAgeTick_passed h
      exact ⟨_, hexec, secondPassed_time s, secondPassed_drift hrising, execDriftAgeTick_only s _ hexec⟩
  case start =>
    intro d
    split
    next h =>
      obtain ⟨hallowed, hfirst⟩ := h
      have hexec := execTopupRunStart_starts hn hallowed hfirst
      obtain ⟨hrun, hop, hstate, hothers⟩ := rowIssued_spec (firstRun d) (opAllowed_of_runAllowed hallowed)
      exact ⟨_, hexec, hrun, hop, hstate, hothers, execTopupRunStart_only n s _ hexec⟩
    next h => exact execTopupRunStart_stays hn h
  case resume =>
    split
    next h =>
      intro hok
      have hexec := execTopupResume_resumes hn hrun h
      obtain ⟨hgoes, hop, -, hothers⟩ := rowIssued_spec { run with preempted := false } hok
      exact ⟨_, hexec, hgoes, hop, hothers, execTopupResume_only n s _ hexec⟩
    next h => exact execTopupResume_stays hn hrun h
  case period =>
    intro d
    split
    next h =>
      have hsched := schedOf_modSched_self s n fun d => stampDue (poweredS s) { d with dueKs := true }
      exact ⟨_, execKsPeriodTimer_due hn h, hsched, congrArg Sched.sinceKs hsched, fun k hk => tget?_tset_ne _ _ hk, modSched_only ..⟩
    next h => exact execKsPeriodTimer_early hn h
  case window =>
    cases hplan : (slotOf s slot.val).plan with
    | none => exact ⟨s, execIdleWindowOpen_unplanned hplan g, fun _ => rfl, .refl ..⟩
    | some p =>
      have hexec := execIdleWindowOpen_planned hplan g
      refine ⟨_, hexec, fun n => ?_, execIdleWindowOpen_only slot g s _ hexec⟩
      exact (schedOf_windowsOpened ..).trans (if_congr mem_windowBanks rfl rfl)
  case force =>
    intro d late
    have hlate : (late d.sinceTopup || late d.sinceKs || late d.sinceRebuild) = overdue s d := (overdue_eq s d).symm
    rw [hlate]
    split
    next h =>
      have hexec := execForceAfterTimer_forces hn h
      obtain ⟨hsched, hcover, hraised, hcount⟩ := forced_spec n s
      exact ⟨_, hexec, hsched, hcover, hraised, hcount, execForceAfterTimer_only n s _ hexec⟩
    next h => exact execForceAfterTimer_stays hn h
  case bucket =>
    split
    next h => exact if_pos h
    next h =>
      have hexec := execRerunBucketRoll_hour h
      exact ⟨_, hexec, hourPassed_time s, fun _ _ hd => hourPassed_buckets hrising hd, execRerunBucketRoll_only s _ hexec⟩
  case store =>
    split
    next h =>
      have hexec := execPoweredTimeStore_due h
      obtain ⟨htime, hvalue, hscheds⟩ := storePoweredTime_spec hstore
      exact ⟨_, hexec, htime, hvalue, hscheds, storePoweredTime_only s⟩
    next h => exact execPoweredTimeStore_early h

end Sys2Proof.Laws
end

section
/-! SUPPORT. What holds at reset (R467). -/

namespace Sys2Proof.Laws

open Sys2Proof.Machine

/-- R467: below the core complex, only segments 0 and 1 are ON at reset. -/
theorem domState_reset {n : Nat} (h : n < 2080) : domState State.reset n = if n < 2048 ∨ 2049 < n then .off else .on := by
  have hdoms : State.reset.power.doms =
    [(2048, { state := .on }), (2049, { state := .on }), (2080, { state := .on }), (2090, { state := .on })] := rfl
  by_cases hfirst : n = 2048
  · subst hfirst; rfl
  by_cases hsecond : n = 2049
  · subst hsecond; rfl
  have hnone : tget? State.reset.power.doms n = none := by
    simp [hdoms, tget?, Ne.symm hfirst, Ne.symm hsecond, show 2080 ≠ n by omega, show 2090 ≠ n by omega]
  rw [if_pos (by omega), domState, domOf, tget, hnone]
  rfl

theorem pairOf_reset (q : Nat) : pairOf State.reset q = {} := rfl

/-- Settles O2: the fields hold these values by the definition of the reset state; the domains are read entry by entry. -/
theorem resetValuesOfTheSpec : Obligations.ResetValuesOfTheSpec :=
  ⟨rfl, rfl, rfl, rfl, rfl, fun q => by rw [pairOf_reset], rfl, rfl, rfl, rfl, rfl, rfl, rfl, fun n h => domState_reset h⟩

end Sys2Proof.Laws
end

section
/-! SUPPORT. The key window of a queue pair (R365): what taking a number leaves of every number's mark. -/

namespace Sys2Proof.Laws

open Sys2Proof.Machine

/-- The marks that `windowMove` gathers: bit `k` is set where it was, or where `k` is the place of a number passed. -/
theorem testBit_foldl_or (f : Nat → Nat) (l : List Nat) (m k : Nat) :
    (l.foldl (fun m i => m ||| 2 ^ f i) m).testBit k = (m.testBit k || l.any fun i => f i == k) := by
  induction l generalizing m with
  | nil => simp
  | cons i l ih => simp [ih, Nat.testBit_or, Nat.testBit_two_pow, Bool.or_assoc, Bool.beq_eq_decide_eq]

theorem windowMove_getLsbD {seen : BitVec 4096} {hs n k : Nat} (hk : k < 4096) (hnear : n - hs < 4096) :
    (windowMove seen hs n).getLsbD k =
      (seen.getLsbD k && !(List.range (n - hs)).any fun i => (hs + 1 + i) % 4096 == k) := by
  simp only [windowMove, if_neg (Nat.not_le.mpr hnear), BitVec.getLsbD_and, BitVec.getLsbD_not, BitVec.getLsbD_ofNat,
    testBit_foldl_or, hk, decide_true, Nat.zero_testBit, Bool.true_and, Bool.false_or]

theorem windowMove_keeps {seen : BitVec 4096} {hs n m : Nat} (hold : m ≤ hs) (hin : n < m + 4096) :
    (windowMove seen hs n).getLsbD (m % 4096) = seen.getLsbD (m % 4096) := by
  rw [windowMove_getLsbD (Nat.mod_lt _ (by decide)) (by omega)]
  have hbeside : ((List.range (n - hs)).any fun i => (hs + 1 + i) % 4096 == m % 4096) = false := by
    simp only [List.any_eq_false, List.mem_range, beq_iff_eq]
    omega
  simp [hbeside]

theorem windowMove_clears {seen : BitVec 4096} {hs n m : Nat} (habove : hs < m) (hpassed : m ≤ n) :
    (windowMove seen hs n).getLsbD (m % 4096) = false := by
  by_cases hnear : n - hs < 4096
  · rw [windowMove_getLsbD (Nat.mod_lt _ (by decide)) hnear]
    have hgone : ((List.range (n - hs)).any fun i => (hs + 1 + i) % 4096 == m % 4096) = true := by
      simp only [List.any_eq_true, List.mem_range, beq_iff_eq]
      exact ⟨m - hs - 1, by omega, by congr 1; omega⟩
    simp [hgone]
  · simp [windowMove, Nat.not_lt.mp hnear]

variable {p : QPair} {n m : Nat}

theorem keyTake_hs (n : Nat) (p : QPair) : (keyTake n p).hs = max p.hs n := by
  unfold keyTake
  split <;> simp only <;> omega

theorem keyTake_seen (n : Nat) (p : QPair) :
    (keyTake n p).seen = (if p.hs < n then windowMove p.seen p.hs n else p.seen) ||| BitVec.ofNat 4096 (2 ^ (n % 4096)) := by
  unfold keyTake
  split <;> rfl

theorem keyTake_getLsbD_self (n : Nat) (p : QPair) : (keyTake n p).seen.getLsbD (n % 4096) = true := by
  simp only [keyTake_seen, BitVec.getLsbD_or, BitVec.getLsbD_ofNat, Nat.testBit_two_pow_self, Nat.mod_lt n (Nat.zero_lt_succ 4095),
    decide_true, Bool.and_true, Bool.or_true]

theorem keyTake_getLsbD_ne (hne : m % 4096 ≠ n % 4096) : (keyTake n p).seen.getLsbD (m % 4096) =
    (if p.hs < n then windowMove p.seen p.hs n else p.seen).getLsbD (m % 4096) := by
  simp only [keyTake_seen, BitVec.getLsbD_or, BitVec.getLsbD_ofNat, Nat.testBit_two_pow, Ne.symm hne, decide_false, Bool.and_false,
    Bool.or_false]

theorem keyClass_above (h : p.hs < n) : keyClass p n = .new := if_pos h

theorem keyClass_below (h : n + 4096 ≤ p.hs) : keyClass p n = .stale := by
  simp [keyClass, h, show ¬p.hs < n by omega]

theorem keyClass_inside (hle : n ≤ p.hs) (hin : p.hs < n + 4096) :
    keyClass p n = if p.seen.getLsbD (n % 4096) then .duplicate else .new := by
  simp [keyClass, Nat.not_lt.mpr hle, Nat.not_le.mpr hin]

/-- A number that is new is not below the window. -/
theorem hs_lt_of_new (h : keyClass p n = .new) : p.hs < n + 4096 := by
  by_contra hbelow
  simp [keyClass_below (Nat.not_lt.mp hbelow)] at h

theorem keyClass_keyTake_self (h : keyClass p n = .new) : keyClass (keyTake n p) n = .duplicate := by
  have hin := hs_lt_of_new h
  rw [keyClass_inside (by rw [keyTake_hs]; omega) (by rw [keyTake_hs]; omega), keyTake_getLsbD_self, if_pos rfl]

/-- Inside the window, a number passed has no mark, and a number that was in the window keeps its mark. -/
theorem keyClass_keyTake_inside (h : keyClass p n = .new) (hne : m ≠ n) (hle : m ≤ max p.hs n) (hin : max p.hs n < m + 4096) :
    keyClass (keyTake n p) m = if p.hs < m then .new else keyClass p m := by
  have hnew := hs_lt_of_new h
  rw [keyClass_inside (by rwa [keyTake_hs]) (by rwa [keyTake_hs]), keyTake_getLsbD_ne (by omega)]
  by_cases habove : p.hs < m
  · rw [if_pos (show p.hs < n by omega), windowMove_clears habove (by omega), if_pos habove]
    rfl
  · rw [if_neg habove, keyClass_inside (by omega) (by omega)]
    by_cases hmoves : p.hs < n
    · rw [if_pos hmoves, windowMove_keeps (by omega) (by omega)]
    · rw [if_neg hmoves]

/-- Settles O17: below the window by its new HS, above it by definition, and inside it by the marks that the move clears or keeps. -/
theorem keyWindowMoves : Obligations.KeyWindowMoves := by
  intro p n h
  refine ⟨keyTake_hs n p, keyClass_keyTake_self h, fun m hne => ?_⟩
  split
  next hbelow => exact keyClass_below (by rwa [keyTake_hs])
  next hin =>
    by_cases hle : m ≤ max p.hs n
    · exact keyClass_keyTake_inside h hne hle (by omega)
    · rw [keyClass_above (by rw [keyTake_hs]; omega), if_pos (by omega)]

end Sys2Proof.Laws
end

section
/-! SUPPORT. What the end of a command writes to host memory, and what it leaves of its pair (R355, R358, R364, R366). -/

namespace Sys2Proof.Laws

open Sys2Proof.Machine

variable {a q key orig : Nat} {r : Reply} {readAt : BitVec 64} {s : State} {c : Cmd}

@[simp] theorem pairOf_send (m : OutMsg) (s : State) (q : Nat) : pairOf (send m s) q = pairOf s q := rfl
@[simp] theorem pairOf_sample (o u v : Nat) (s : State) (q : Nat) : pairOf (sample o u v s) q = pairOf s q := rfl

/-- R346: a port that is not in D3hot holds nothing back. -/
theorem sendPort_awake {p : Port} (h : (portOf s p).d3hot = false) (m : OutMsg) : sendPort p m s = send m s := by
  simp [sendPort, h]

/-! ## The interrupt (R358) -/

/-- What counting a completion may do: one interrupt or none, and the pair's counts alone. -/
structure Counted (q : Nat) (s t : State) : Prop where
  out : ∃ l, t.out = s.out ++ l ∧ (l = [] ∨ l = [.msix (pairOf s q).port (pairOf s q).vector.toNat])
  cqTail : (pairOf t q).cqTail = (pairOf s q).cqTail
  phase : (pairOf t q).phase = (pairOf s q).phase
  cmds : t.que.cmds = s.que.cmds
  hbr : t.hbr = s.hbr

theorem Counted.refl (q : Nat) (s : State) : Counted q s s := ⟨⟨[], by simp⟩, rfl, rfl, rfl, rfl⟩

theorem pairInterrupt_counted (hawake : (portOf s (pairOf s q).port).d3hot = false) : Counted q s (pairInterrupt q s) := by
  have hsent := sendPort_awake (s := modPair q (fun p => { p with unsignalled := 0, firstUnsignalled := none }) s) hawake
    (.msix (pairOf s q).port (pairOf s q).vector.toNat)
  rw [show pairInterrupt q s = _ from hsent]
  refine ⟨⟨_, rfl, .inr rfl⟩, ?_, ?_, rfl, rfl⟩ <;> simp

theorem countCompletion_counted (hawake : (portOf s (pairOf s q).port).d3hot = false) : Counted q s (countCompletion q s) := by
  unfold countCompletion
  extract_lets p
  split
  · exact pairInterrupt_counted hawake
  · refine ⟨⟨[], ?_, .inl rfl⟩, ?_, ?_, rfl, rfl⟩ <;> simp

/-! ## The completion entry and the log record (R364, R366) -/

/-- The ring pointer after an entry, and the sample of the queue's latency (R358, R443). -/
def entryTaken (q : Nat) (readAt : BitVec 64) (s : State) : State :=
  let wrap := decide ((pairOf s q).cqEntries ≤ (pairOf s q).cqTail + 1)
  sample (ob 0x9010 0) q ((tideOf s - readAt).toNat) (modPair q (fun p =>
    { p with cqTail := if wrap then 0 else p.cqTail + 1, phase := if wrap then !p.phase else p.phase }) s)

/-- The log record of a command, with PHASE 0, at its key's place in the log (R366). -/
def logMessage (q key : Nat) (r : Reply) (s : State) : OutMsg :=
  .hostWrite (pairOf s q).port (BitVec.ofNat 64 ((pairOf s q).logBase.toNat + 32 * (keySeq key % 4096)))
    (cplEntry key r (tideOf s).toNat (pairOf s q).sqHead 0 false) false

/-- The completion entry of a command, with the pair's PHASE, at the ring's tail (R358, R364). -/
def entryMessage (q key : Nat) (r : Reply) (orig : Nat) (s : State) : OutMsg :=
  .completion (pairOf s q).port (BitVec.ofNat 64 ((pairOf s q).cqBase.toNat + 32 * (pairOf s q).cqTail))
    (cplEntry key r (tideOf s).toNat (pairOf s q).sqHead orig (pairOf s q).phase)

section HostMemory

variable (hawake : (portOf s (pairOf s q).port).d3hot = false)

include hawake

theorem logEntry_host (hlog : pairLogHarbour (pairOf s q) = false) : logEntry q key r s = send (logMessage q key r s) s := by
  simp only [logEntry, hlog, Bool.false_eq_true, if_false, sendPort_awake hawake]
  rfl

theorem postEntry_host (hring : pairCqHarbour (pairOf s q) = false) (noIntr : Bool) : postEntry q key r orig noIntr readAt s =
    if noIntr then entryTaken q readAt (send (entryMessage q key r orig s) s)
    else countCompletion q (entryTaken q readAt (send (entryMessage q key r orig s) s)) := by
  simp only [postEntry, hring, Bool.false_eq_true, if_false, sendPort_awake hawake]
  rfl

end HostMemory

theorem entryTaken_pair (q : Nat) (readAt : BitVec 64) (s : State) : pairOf (entryTaken q readAt s) q =
    { pairOf s q with
      cqTail := if (pairOf s q).cqEntries ≤ (pairOf s q).cqTail + 1 then 0 else (pairOf s q).cqTail + 1
      phase := if (pairOf s q).cqEntries ≤ (pairOf s q).cqTail + 1 then !(pairOf s q).phase else (pairOf s q).phase } := by
  simp [entryTaken]

/-- The two messages stand in the order log record, completion entry; an interrupt is counted after them. -/
theorem logAndPost_counted (hawake : (portOf s (pairOf s q).port).d3hot = false) (hring : pairCqHarbour (pairOf s q) = false)
    (hlog : pairLogHarbour (pairOf s q) = false) (noIntr : Bool) :
    Counted q (entryTaken q readAt (send (entryMessage q key r 0 s) (send (logMessage q key r s) s)))
      (logAndPost q key r noIntr readAt s) := by
  have hposted := postEntry_host (s := send (logMessage q key r s) s) (key := key) (r := r) (orig := 0) (readAt := readAt) hawake
    hring noIntr
  rw [logAndPost, logEntry_host hawake hlog, hposted]
  split
  · exact .refl ..
  · exact countCompletion_counted (by rw [entryTaken_pair]; exact hawake)

/-! ## The end of a command (R355, R366) -/

theorem finish_posts (hc : tget? s.que.cmds a = some c) (hlive : (pairOf s c.pair).state ≠ .error) :
    finish a r s = freeSlot a c.pair (logAndPost c.pair (entKey c.entry) r (entNoIntr c.entry) c.readAt s) := by
  simp [finish, hc, hlive]

theorem finish_parks (hc : tget? s.que.cmds a = some c) (herror : (pairOf s c.pair).state = .error) :
    finish a r s = { s with que := { s.que with
      cmds := tset s.que.cmds a { c with stage := .parked }, parked := s.que.parked ++ [(a, r)] } } := by
  simp [finish, hc, herror]

/-- R357, R372: a freed slot leaves its pair as it was, but for the FENCE that it held. -/
theorem freeSlot_pair (a q : Nat) (s : State) :
    (pairOf (freeSlot a q s) q).cqTail = (pairOf s q).cqTail ∧ (pairOf (freeSlot a q s) q).phase = (pairOf s q).phase := by
  have hpair : pairOf (freeSlot a q s) q =
      if (pairOf s q).fence = some a then { pairOf s q with fence := none } else pairOf s q := pairOf_modPair_self ..
  rw [hpair]
  split <;> exact ⟨rfl, rfl⟩

/-- Settles O18: in host memory the log record, the entry and the interrupt are each one message sent; on a pair in ERROR the
completion is parked. -/
theorem finishWritesLogThenCompletion : Obligations.FinishWritesLogThenCompletion := by
  refine ⟨fun a r s c hc hlive hring hlog hawake => ?posts, fun a r s c hc herror => ?parks⟩
  case posts =>
    intro p key tide t
    have ht : t = freeSlot a c.pair (logAndPost c.pair key r (entNoIntr c.entry) c.readAt s) := finish_posts hc hlive
    obtain ⟨⟨l, hout, hl⟩, htail, hphase, hcmds, hhbr⟩ :=
      logAndPost_counted (key := key) (r := r) (readAt := c.readAt) hawake hring hlog (entNoIntr c.entry)
    obtain ⟨hfreedTail, hfreedPhase⟩ := freeSlot_pair a c.pair (logAndPost c.pair key r (entNoIntr c.entry) c.readAt s)
    rw [entryTaken_pair] at htail hphase hl
    rw [ht]
    refine ⟨congrArg (tdel · a) hcmds, ⟨l, hout.trans ?_, hl⟩, hfreedTail.trans htail, hfreedPhase.trans hphase, hhbr⟩
    exact congrArg (· ++ l) (List.append_assoc s.out [_] [_])
  case parks =>
    intro t
    have ht : t = _ := finish_parks hc herror
    rw [ht]
    exact ⟨rfl, rfl, rfl, tget?_tset_self ..⟩

end Sys2Proof.Laws
end

section
/-! SUPPORT. FENCE and CANCEL (R371, R372). -/

namespace Sys2Proof.Laws

open Sys2Proof.Machine

variable {a : Fin 4096} {c : Cmd} {s : State}

/-! ## FENCE (R372) -/

/-- The commands that FENCE `c` waits for: admitted before it, of its pair or, with ALL_QUEUES, of every pair of its port. -/
def fencedBy (s : State) (c : Cmd) : List (Nat × Cmd) :=
  s.que.cmds.filter fun e => decide (e.2.order < c.order) &&
    (e.2.pair = c.pair || (bitAt (entFlags c.entry) 0 && (pairOf s e.2.pair).port == cmdPort s c))

theorem execFence_admitted (hc : cmdAt s a.val 9 = some c) : execFence a s = .next { s with que := { s.que with
    cmds := tset s.que.cmds a.val { c with stage := .running, waitsFor := (fencedBy s c).map fun e => e.2.order } } } := by
  simp only [execFence, hc]
  rfl

theorem mem_fencedBy_orders (s : State) (c : Cmd) (n : Nat) :
    (n ∈ (fencedBy s c).map fun e => e.2.order) ↔ ∃ e, e ∈ s.que.cmds ∧ e.2.order = n ∧ e.2.order < c.order ∧
      (e.2.pair = c.pair ∨ (bitAt (entFlags c.entry) 0 = true ∧ (pairOf s e.2.pair).port = cmdPort s c)) := by
  simp only [fencedBy, List.mem_map, List.mem_filter, Bool.and_eq_true, Bool.or_eq_true, decide_eq_true_eq, beq_iff_eq]
  exact exists_congr fun e => by tauto

theorem execFenceRelease_clear (hc : tget? s.que.cmds a.val = some c) (hop : entOpcode c.entry = 9) (hrun : c.stage = .running)
    (hclear : ∀ e, e ∈ s.que.cmds → e.2.order ∉ c.waitsFor) :
    execFenceRelease a s = .next (finish a.val { status := St.success } s) := by
  have hnone : (s.que.cmds.any fun e => c.waitsFor.contains e.2.order) = false := by simpa using hclear
  simp only [execFenceRelease, hc, hop, hrun, hnone, finishSt]
  rfl

theorem execFenceRelease_waits {e : Nat × Cmd} (hc : tget? s.que.cmds a.val = some c) (he : e ∈ s.que.cmds)
    (hwaits : e.2.order ∈ c.waitsFor) : execFenceRelease a s = .next s := by
  have hsome : (s.que.cmds.any fun e => c.waitsFor.contains e.2.order) = true :=
    List.any_eq_true.2 ⟨e, he, by simpa using hwaits⟩
  simp only [execFenceRelease, hc, hsome, Bool.not_true, Bool.and_false, Bool.false_eq_true, if_false]

/-! ## CANCEL (R371) -/

theorem execCancel_notPermitted (hc : cmdAt s a.val 8 = some c) (hother : keyPair (fld c.entry 0x10 8) ≠ c.pair)
    (hplain : pairAdmin (pairOf s c.pair) = false) :
    execCancel a s = .next (finish a.val { status := St.notPermitted } s) := by
  simp [execCancel, hc, hother, hplain, finishSt]

/-- Who may cancel the key (R371): a pair its own, an ADMIN pair every pair's. -/
theorem cancel_permitted (hmay : keyPair (fld c.entry 0x10 8) = c.pair ∨ pairAdmin (pairOf s c.pair) = true) :
    (decide (keyPair (fld c.entry 0x10 8) ≠ c.pair) && !pairAdmin (pairOf s c.pair)) = false := by
  simpa [or_iff_not_imp_left] using hmay

section Permitted

variable (hc : cmdAt s a.val 8 = some c) (hmay : keyPair (fld c.entry 0x10 8) = c.pair ∨ pairAdmin (pairOf s c.pair) = true)

include hc hmay

theorem execCancel_ended (hnone : cmdOfKey s (fld c.entry 0x10 8) = none) : execCancel a s = .next
    (finish a.val { status := St.success, result := if keyDone s (fld c.entry 0x10 8) then 1 else 2 } s) := by
  simp only [execCancel, hc, cancel_permitted hmay, hnone, Bool.false_eq_true, if_false]

theorem execCancel_outstanding {t : Nat} {k : Cmd} (hk : cmdOfKey s (fld c.entry 0x10 8) = some (t, k)) : execCancel a s = .next
    (finish a.val { status := St.success, result := (cancelCmd t k s).1 } (cancelCmd t k s).2) := by
  simp only [execCancel, hc, cancel_permitted hmay, hk, Bool.false_eq_true, if_false]

end Permitted

theorem cancelCmd_infer {t : Nat} {k : Cmd} {r : Req} (hop : entOpcode k.entry = 1) (hstage : k.stage ≠ .parked)
    (hr : tget? s.que.reqs t = some r) (hlive : r.stopped = none) :
    cancelCmd t k s = (0, askReady (stopRequest t St.cancelled 0 false s)) := by
  simp [cancelCmd, hop, hstage, hr, hlive]

theorem cancelCmd_uncancellable {t : Nat} {k : Cmd}
    (hk : k.stage = .parked ∨ (entOpcode k.entry ≠ 1 ∧ entOpcode k.entry ≠ 0x10 ∧ entOpcode k.entry ≠ 0x12)) :
    cancelCmd t k s = (3, s) := by
  obtain hparked | ⟨hinfer, hload, hplace⟩ := hk
  · simp [cancelCmd, hparked]
  · simp [cancelCmd, hinfer, hload, hplace]

/-- Settles O23: each outcome of the three commands is one equation; what a FENCE waits for is a filter of the commands outstanding. -/
theorem fencesAndCancels : Obligations.FencesAndCancels := by
  refine ⟨fun a c s hc => ⟨_, execFence_admitted hc, ⟨_, tget?_tset_self .., mem_fencedBy_orders s c⟩, ?frame⟩,
    fun a c s hc hop hrun hclear => ⟨_, s, execFenceRelease_clear hc hop hrun hclear, rfl, rfl⟩,
    fun a c e s hc _ he hwaits => execFenceRelease_waits hc he hwaits,
    fun a c s hc hother hplain => ⟨_, s, execCancel_notPermitted hc hother hplain, rfl, rfl⟩,
    fun a c s hc hmay hnone => execCancel_ended hc hmay hnone,
    fun a c t k r s hc hmay hk hop hstage hr hlive => ?infer,
    fun a c t k s hc hmay hk hfixed => ?fixed⟩
  case frame => exact execFence_only a s _ (execFence_admitted hc)
  case infer => exact (execCancel_outstanding hc hmay hk).trans (by rw [cancelCmd_infer hop hstage hr hlive])
  case fixed => exact (execCancel_outstanding hc hmay hk).trans (by rw [cancelCmd_uncancellable hfixed])

end Sys2Proof.Laws
end

section
/-! SUPPORT. DICT_WRITE (R360, R417 to R420, R422, R423). -/

namespace Sys2Proof.Laws

open Sys2Proof.Machine

section Write

variable {r : Requester} {obj arg : Nat} {b : Bytes} {d : ObjDef} {s : State}

theorem writeObject_unknown (hd : findObj s.liquid obj = none) : writeObject r obj arg b s = (St.objectUnknown, s) := by
  simp [writeObject, hd]

theorem writeObject_denied (hd : findObj s.liquid obj = some d) (hacc : d.acc = .ro ∨ (d.acc = .priv ∧ reqPrivileged s r = false)) :
    writeObject r obj arg b s = (St.accessDenied, s) := by
  simp only [writeObject, hd]
  exact if_pos (by simpa using hacc)

section Allowed

variable (hd : findObj s.liquid obj = some d) (hacc : ¬(d.acc = .ro ∨ (d.acc = .priv ∧ reqPrivileged s r = false)))

include hd hacc

theorem writeObject_badKey (hkey : keyOk s d arg = false) : writeObject r obj arg b s = (St.outOfRange, s) := by
  simp only [writeObject, hd, hkey]
  rw [if_neg (by simpa using hacc)]
  rfl

theorem writeObject_plain (hkey : ¬keyOk s d arg = false) (hplain : effectWrite r obj arg = none) :
    writeObject r obj arg b s = plainWrite d arg b s := by
  simp only [writeObject, hd, hplain, hkey]
  rw [if_neg (by simpa using hacc)]
  rfl

end Allowed

theorem plainWrite_refused (hb : b ≠ [] ∧ valueOk d b = false) : plainWrite d arg b s = (St.outOfRange, s) := by
  simp [plainWrite, hb]

/-- The value that a write leaves: length 0 writes the default (R422). -/
def writtenValue (s : State) (d : ObjDef) (b : Bytes) : Bytes := if b = [] then dfltOf s.liquid d.obj else b

theorem plainWrite_stages (hb : ¬(b ≠ [] ∧ valueOk d b = false)) (hacc : d.acc = .rws) : plainWrite d arg b s =
    (St.success, modDict (fun x => { x with staged := tset x.staged (okey d.obj arg) (writtenValue s d b) }) s) := by
  simp only [plainWrite, hacc]
  exact if_neg (by simpa using hb)

theorem plainWrite_activates (hb : ¬(b ≠ [] ∧ valueOk d b = false)) (hacc : d.acc ≠ .rws) : plainWrite d arg b s =
    (St.success, modDict (fun x => { x with active := tset x.active (okey d.obj arg) (writtenValue s d b) }) s) := by
  have hfits : ¬(b ≠ [] && !valueOk d b) = true := by simpa using hb
  simp only [plainWrite, if_neg hfits]
  cases h : d.acc with
  | rws => exact absurd h hacc
  | _ => rfl

/-- R419, R422: an accepted value is staged or active at once, and nothing else changes. -/
theorem plainWrite_accepts (arg : Nat) (s : State) (hb : ¬(b ≠ [] ∧ valueOk d b = false)) :
    (plainWrite d arg b s).1 = St.success ∧ Only [.values] s (plainWrite d arg b s).2 ∧
      if d.acc = .rws then
        (plainWrite d arg b s).2.dict = { s.dict with staged := tset s.dict.staged (okey d.obj arg) (writtenValue s d b) }
      else (plainWrite d arg b s).2.dict = { s.dict with active := tset s.dict.active (okey d.obj arg) (writtenValue s d b) } := by
  have honly := plainWrite_only d arg b s
  split
  next h => exact ⟨by rw [plainWrite_stages hb h], honly, by rw [plainWrite_stages hb h]; rfl⟩
  next h => exact ⟨by rw [plainWrite_activates hb h], honly, by rw [plainWrite_activates hb h]; rfl⟩

end Write

section Command

variable {a : Fin 4096} {b : Bytes} {c : Cmd} {s : State}

/-- An admitted DICT_WRITE whose buffer was read ends with the status of the write, on the state that the write leaves. -/
theorem execDictWrite_finishes {post : State → Prop} (hc : cmdAt s a.val 0x21 = some c) (hready : isReady s = true) {st : Nat} {t : State}
    (hwrite : writeObject (.queue a) (entObject c.entry) (fld c.entry 0x18 8) (fit b (fld c.entry 0x28 4)) s = (st, t)) (ht : post t) :
    Finishes (.dictWrite a (.data b)) s a st post := by
  refine ⟨writeReply s (entObject c.entry) (fld c.entry 0x18 8) (fit b (fld c.entry 0x28 4)) st, t, ?_, rfl, ht⟩
  show execDictWrite a (.data b) s = _
  simp only [execDictWrite, hc, hready, hostData, hwrite]
  rfl

theorem execDictWrite_unread {v : HostRead} (hc : cmdAt s a.val 0x21 = some c) (hready : isReady s = true) (hv : ∀ b, v ≠ .data b) :
    execDictWrite a v s = .next (finish a.val { status := St.hostAccess } s) := by
  have hnone : hostData (fld c.entry 0x28 4) v = none := by
    cases v with
    | data b => exact absurd rfl (hv b)
    | _ => rfl
  simp only [execDictWrite, hc, hready, hnone]
  rfl

theorem execDictWrite_unheard {v : HostRead} (h : cmdAt s a.val 0x21 = none ∨ isReady s = false) : execDictWrite a v s = .next s := by
  unfold execDictWrite
  split
  · rfl
  next c hc =>
    obtain hnone | hready := h
    · simp [hc] at hnone
    · simp [hready]

end Command

/-- Settles O40: an admitted command ends as the write of its object does, and that has one equation for each outcome. -/
theorem dictionaryWrites : Obligations.DictionaryWrites := by
  refine ⟨fun a b c s hc hready => ?served, fun a v c s hc hready hv => ⟨_, s, execDictWrite_unread hc hready hv, rfl, rfl⟩,
    fun a v s h => execDictWrite_unheard h⟩
  intro obj arg v
  split
  next hd => exact execDictWrite_finishes hc hready (writeObject_unknown hd) rfl
  next d hd =>
    split
    next hacc => exact execDictWrite_finishes hc hready (writeObject_denied hd hacc) rfl
    next hacc =>
      split
      next hkey => exact execDictWrite_finishes hc hready (writeObject_badKey hd hacc hkey) rfl
      next hkey =>
        intro hplain
        have hwrite : writeObject (.queue a) obj arg v s = plainWrite d arg v s := writeObject_plain hd hacc hkey hplain
        split
        next hb => exact execDictWrite_finishes hc hready (hwrite.trans (plainWrite_refused hb)) rfl
        next hb =>
          obtain ⟨hst, hleft⟩ := plainWrite_accepts arg s hb
          exact execDictWrite_finishes hc hready (hwrite.trans (Prod.ext hst rfl)) hleft

end Sys2Proof.Laws
end

section
/-! SUPPORT. DICT_READ (R360, R417, R419, R423, R429, R438). -/

namespace Sys2Proof.Laws

open Sys2Proof.Machine

variable {a : Fin 4096} {h : HostRead} {c : Cmd} {s : State}

/-! ## One read -/

section Read

variable {priv staged : Bool} {obj arg : Nat} {hash : Digest} {d : ObjDef}

theorem readObject_unknown (hd : findObj s.liquid obj = none) : readObject s priv obj arg hash staged = .inl St.objectUnknown := by
  simp [readObject, hd]

theorem readObject_denied (hd : findObj s.liquid obj = some d) (hacc : d.acc = .wo ∨ (d.acc = .priv ∧ priv = false)) :
    readObject s priv obj arg hash staged = .inl St.accessDenied := by
  simp only [readObject, hd]
  exact if_pos (by simpa using hacc)

/-- A read that is allowed gives the object's value, where the key names something. -/
theorem readObject_allowed (hd : findObj s.liquid obj = some d) (hacc : ¬(d.acc = .wo ∨ (d.acc = .priv ∧ priv = false))) :
    readObject s priv obj arg hash staged = (objValue s d arg hash staged).elim (.inl St.outOfRange) .inr := by
  simp only [readObject, hd]
  rw [if_neg (by simpa using hacc)]
  cases objValue s d arg hash staged <;> rfl

end Read

/-! ## The bytes sent to the buffer (R346, R438) -/

/-- The write of the bytes read to a command's buffer, and the side of the read. -/
def readSent (s : State) (c : Cmd) (b : Bytes) : State :=
  afterRead (entObject c.entry) (fld c.entry 0x18 8) none
    (sendPort (cmdPort s c) (.hostWrite (cmdPort s c) (BitVec.ofNat 64 (fld c.entry 0x20 8)) b false) s)

theorem afterRead_que (obj arg : Nat) (ep : Option Nat) (s : State) : (afterRead obj arg ep s).que = s.que := by
  unfold afterRead; split <;> rfl

theorem afterRead_out (obj arg : Nat) (ep : Option Nat) (s : State) : (afterRead obj arg ep s).out = s.out := by
  unfold afterRead; split <;> rfl

theorem afterRead_other {obj : Nat} (hobj : obj ≠ ob 0x9040 0) (arg : Nat) (ep : Option Nat) (s : State) : afterRead obj arg ep s = s :=
  if_neg hobj

/-- R346: a write towards a port in D3hot is held; it leaves at once otherwise. -/
theorem sendPort_held_or_sent (p : Port) (m : OutMsg) (s : State) :
    if (portOf s p).d3hot then (sendPort p m s).que.held = s.que.held ++ [m] ∧ (sendPort p m s).out = s.out
    else (sendPort p m s).out = s.out ++ [m] ∧ (sendPort p m s).que.held = s.que.held := by
  unfold sendPort
  split <;> exact ⟨rfl, rfl⟩

theorem readSent_spec (s : State) (c : Cmd) (b : Bytes) :
    let w := OutMsg.hostWrite (cmdPort s c) (BitVec.ofNat 64 (fld c.entry 0x20 8)) b false
    (if (portOf s (cmdPort s c)).d3hot then (readSent s c b).que.held = s.que.held ++ [w] ∧ (readSent s c b).out = s.out
     else (readSent s c b).out = s.out ++ [w] ∧ (readSent s c b).que.held = s.que.held) ∧
    Only [.events, .values, .held, .out] s (readSent s c b) ∧ (entObject c.entry ≠ ob 0x9040 0 → (readSent s c b).dict = s.dict) := by
  refine ⟨?sent, ?frame, fun hobj => ?same⟩
  case sent =>
    rw [readSent, afterRead_que, afterRead_out]
    exact sendPort_held_or_sent ..
  case frame => exact ((sendPort_only ..).mono rfl).trans ((afterRead_only ..).mono rfl)
  case same => rw [readSent, afterRead_other hobj, sendPort_dict]

/-! ## The command -/

/-- What the read of an admitted DICT_READ gives. -/
def readFor (s : State) (a : Fin 4096) (h : HostRead) (c : Cmd) : Sum Nat Bytes :=
  readObject s (reqPrivileged s (.queue a)) (entObject c.entry) (fld c.entry 0x18 8) ((hostData 48 h).getD [])
    (bitAt (entFlags c.entry) 0)

/-- What a DICT_READ ends with: the status of a read that was refused, BUFFER_TOO_SMALL, or the bytes sent. -/
def readEnds (s : State) (a : Fin 4096) (c : Cmd) : Sum Nat Bytes → State
  | .inl st => finish a.val { status := st, detail := if st = St.outOfRange then 0x18 else 0 } s
  | .inr b =>
    if fld c.entry 0x28 4 < b.length then finish a.val { status := St.bufferTooSmall, result := b.length } s
    else finish a.val { status := St.success, result := b.length } (readSent s c b)

section Command

variable (hc : cmdAt s a.val 0x20 = some c) (hready : isReady s = true)

include hc hready

theorem execDictRead_noHash (hhash : hashKeyed s (entObject c.entry) = true ∧ hostData 48 h = none) :
    execDictRead a h s = .next (finish a.val { status := St.hostAccess } s) := by
  simp [execDictRead, hc, hready, hhash, finishAt]

/-- Once its hash, where it needs one, has been read, a DICT_READ ends as its read does. -/
theorem execDictRead_reads (hhash : ¬(hashKeyed s (entObject c.entry) = true ∧ hostData 48 h = none)) :
    execDictRead a h s = .next (readEnds s a c (readFor s a h c)) := by
  have hheard : ¬(hashKeyed s (entObject c.entry) && (hostData 48 h).isNone) = true := by simpa using hhash
  simp only [execDictRead, hc, hready, if_neg hheard, readFor]
  cases readObject s (reqPrivileged s (.queue a)) (entObject c.entry) (fld c.entry 0x18 8) ((hostData 48 h).getD [])
    (bitAt (entFlags c.entry) 0) with
  | inl st => rfl
  | inr b => exact (apply_ite Host.Outcome.next _ _ _).symm

end Command

/-- Settles O41: what refuses a read is one equation each, and the bytes are sent by one write to the buffer. -/
theorem dictionaryReads : Obligations.DictionaryReads := by
  intro a h c s hc hready obj arg hash
  split
  next hhash => exact ⟨_, s, execDictRead_noHash hc hready hhash, rfl, rfl⟩
  next hhash =>
    have hexec := execDictRead_reads hc hready hhash
    split
    next hd =>
      rw [readFor, readObject_unknown hd] at hexec
      exact ⟨_, s, hexec, rfl, rfl⟩
    next d hd =>
      split
      next hacc =>
        rw [readFor, readObject_denied hd hacc] at hexec
        exact ⟨_, s, hexec, rfl, rfl⟩
      next hacc =>
        rw [readFor, readObject_allowed hd hacc] at hexec
        split
        next hvalue => exact hexec.trans (by rw [hvalue]; rfl)
        next b hvalue =>
          have hends : execDictRead a h s = .next (readEnds s a c (.inr b)) := hexec.trans (by rw [hvalue]; rfl)
          split
          next hlen => exact hends.trans (congrArg Host.Outcome.next (if_pos hlen))
          next hlen => exact ⟨_, hends.trans (congrArg Host.Outcome.next (if_neg hlen)), _, rfl, readSent_spec s c b⟩

end Sys2Proof.Laws
end

section
/-! SUPPORT. Enabling and disabling a queue pair (R352 to R355). -/

namespace Sys2Proof.Laws

open Sys2Proof.Machine

/-! ## A write that is served (R419, R429, R430) -/

/-- A write that is heard is answered with the status that its effect gives, on the state that the effect leaves. -/
theorem ownWrite_answers {i : Instr} {r : Requester} {obj arg : Nat} {data : Bytes} {f : Bytes → State → Nat × State} {s : State}
    (hheard : heard s r obj arg = true) : ∃ rep : Reply, ownWrite i r obj arg data f s = answer r rep (f (valueFrom s r data) s).2 ∧
      rep.status = (f (valueFrom s r data) s).1 := by
  cases r with
  | queue a =>
    cases hc : cmdAt s a.val 0x21 with
    | none => simp [heard, hc] at hheard
    | some c =>
      obtain ⟨⟨hready, hobj⟩, harg⟩ : (isReady s = true ∧ entObject c.entry = obj) ∧ fld c.entry 0x18 8 = arg := by
        simpa [heard, hc] using hheard
      refine ⟨writeReply s obj arg (fit data (fld c.entry 0x28 4)) (f (fit data (fld c.entry 0x28 4)) s).1, ?_, ?_⟩
      · simp [ownWrite, hc, hready, hobj, harg, valueFrom, answer]
      · simp [writeReply, valueFrom, hc]
  | mctp ep tag =>
    obtain ⟨hawake, hruns⟩ : coreSleeps s = false ∧ uzomelRuns s = true := by simpa [heard] using hheard
    exact ⟨{ status := (f data s).1 }, by simp [ownWrite, hawake, hruns, valueFrom], rfl⟩

section Record

variable {r : Requester} {q : Nat} {b : Bytes} {s : State}

/-! ## STATE 1 (R354, R355) -/

section Enable

variable (hlen : b.length = 64) (hone : fld b 0 1 = 1)

include hlen hone

theorem pairWrite_pairZero (hzero : q = 0) : pairWrite r q b s = (St.accessDenied, s) := by
  simp [pairWrite, enableRecord, hlen, hone, hzero]

variable (hq : q < 16384) (hnz : q ≠ 0)

include hq hnz

theorem pairWrite_notDisabled (hstate : (pairOf s q).state ≠ .disabled) : pairWrite r q b s = (St.busy, s) := by
  simp only [pairWrite, enableRecord, hlen, hone]
  cases hst : (pairOf s q).state with
  | disabled => exact absurd hst hstate
  | _ => simp [hnz, Nat.not_le.mpr hq]

variable (hstate : (pairOf s q).state = .disabled)

include hstate

theorem pairWrite_invalid (hvalid : recordValid s b = false) : pairWrite r q b s = (St.outOfRange, s) := by
  simp [pairWrite, enableRecord, hlen, hone, hnz, Nat.not_le.mpr hq, hstate, hvalid]

theorem pairWrite_adminRefused (hvalid : recordValid s b = true) (hadmin : bitAt (fld b 2 2) 0 = true ∧ maySetAdmin s r = false) :
    pairWrite r q b s = (St.accessDenied, s) := by
  simp [pairWrite, enableRecord, hlen, hone, hnz, Nat.not_le.mpr hq, hstate, hvalid, hadmin]

theorem pairWrite_enables (hvalid : recordValid s b = true) (hadmin : ¬(bitAt (fld b 2 2) 0 = true ∧ maySetAdmin s r = false)) :
    pairWrite r q b s = (St.success, modPair q (pairFromRecord b) s) := by
  have hmay : ¬(bitAt (fld b 2 2) 0 && !maySetAdmin s r) = true := by simpa using hadmin
  simp [pairWrite, enableRecord, hlen, hone, hnz, Nat.not_le.mpr hq, hstate, hvalid, hmay]

end Enable

/-! ## A disable (R355) -/

/-- R355: the disable of a pair that is not in ERROR turns an ENABLED pair to its disable, and does nothing more. -/
theorem disablePair_eq (herror : (pairOf s q).state ≠ .error) : disablePair q s =
    if (pairOf s q).state = .enabled then modPair q (fun p => { p with state := .disabling }) s else s := by
  unfold disablePair
  cases hst : (pairOf s q).state with
  | error => exact absurd hst herror
  | _ => rfl

theorem disablePair_spec (herror : (pairOf s q).state ≠ .error) :
    (pairOf (disablePair q s) q).state = (if (pairOf s q).state = .enabled then .disabling else (pairOf s q).state) ∧
    (∀ p, p ≠ q → pairOf (disablePair q s) p = pairOf s p) ∧ Only [.que] s (disablePair q s) := by
  rw [disablePair_eq herror]
  split
  · exact ⟨by rw [pairOf_modPair_self], fun p hp => pairOf_modPair_ne _ _ hp, modPair_only ..⟩
  · exact ⟨rfl, fun _ _ => rfl, .refl ..⟩

theorem pairWrite_disables (hlen : b.length = 64) (hq : q < 16384) (hzero : fld b 0 1 = 0) (hnz : 0 < q) :
    pairWrite r q b s = (St.success, disablePair q s) := by
  simp [pairWrite, disableRecord, hlen, hzero, Nat.not_le.mpr hq, Nat.ne_of_gt hnz]

/-! ## The record's two rows -/

variable {st : Nat} {t : State} {post : State → Prop}

theorem queuePairEnable_answers (hheard : heard s r (ob 0x6100 0) q = true) (hone : fld b 0 1 = 1) (hvalue : valueFrom s r b = b)
    (hwrite : pairWrite r q b s = (st, t)) (ht : post t) : Answers (.queuePairEnable (.record r q b)) s r st post := by
  obtain ⟨rep, hanswer, hst⟩ := ownWrite_answers (i := .queuePairEnable (.record r q b)) (data := b) (f := pairWrite r q) hheard
  rw [hvalue, hwrite] at hanswer hst
  refine ⟨rep, t, ?_, hst, ht⟩
  show execQueuePairEnable (.record r q b) s = _
  simp only [execQueuePairEnable, hone, hanswer]
  rfl

theorem queuePairDisable_answers (hheard : heard s r (ob 0x6100 0) q = true) (hzero : fld b 0 1 = 0) (hvalue : valueFrom s r b = b)
    (hwrite : pairWrite r q b s = (st, t)) (ht : post t) : Answers (.queuePairDisable (.record r q b)) s r st post := by
  obtain ⟨rep, hanswer, hst⟩ := ownWrite_answers (i := .queuePairDisable (.record r q b)) (data := b) (f := pairWrite r q) hheard
  rw [hvalue, hwrite] at hanswer hst
  refine ⟨rep, t, ?_, hst, ht⟩
  show execQueuePairDisable (.record r q b) s = _
  simp only [execQueuePairDisable, hzero, hanswer]
  rfl

end Record

/-! ## QUE_ADM_CTRL (R352, R355) -/

section Adm

variable {i : Initiator} {v : BitVec 32} {s : State}

/-- QUE_ADM_CTRL as written. -/
def admStored (v : BitVec 32) (s : State) : State := { s with regs := { s.regs with admCtrl := v } }

theorem admStored_only (v : BitVec 32) (s : State) : Only [.regs] s (admStored v s) := .setRegs s _ rfl

theorem admValid_admStored (v : BitVec 32) (s : State) (n : Nat) : admValid (admStored v s) n = admValid s n := rfl

theorem admValid_modPair (q : Nat) (f : QPair → QPair) (s : State) (n : Nat) : admValid (modPair q f s) n = admValid s n := rfl

theorem admCtrlWrite_enable (hclass : classU i = true) (hbit : bitAt v.toNat 0 = true) : admCtrlWrite i v s =
    if (pairOf s 0).state = .disabled ∧ admValid s v.toNat = true ∧ s.power.phase = .ready then
      modPair 0 (admPair s v.toNat) (admStored v s)
    else admStored v s := by
  have hwrite : admCtrlWrite i v s =
      if ((pairOf s 0).state == .disabled && admValid s v.toNat && s.power.phase == .ready) = true then
        modPair 0 (admPair s v.toNat) (admStored v s)
      else admStored v s := by
    simp only [admCtrlWrite, hclass, hbit]
    rfl
  rw [hwrite]
  exact if_congr (by simp [and_assoc]) rfl rfl

theorem admCtrlWrite_disable (hclass : classU i = true) (hbit : bitAt v.toNat 0 = false) :
    admCtrlWrite i v s = disablePair 0 (admStored v s) := by
  simp only [admCtrlWrite, hclass, hbit]
  rfl

end Adm

/-- Settles O42: each outcome of the record's write is one equation; QUE_ADM_CTRL is stored first, then pair 0 follows its bit 0. -/
theorem queuePairLifecycle : Obligations.QueuePairLifecycle := by
  refine ⟨fun r q b s hheard hone hvalue hlen hq => ?enable, fun r q b s hheard hzero hvalue hlen hnz hq herror => ?disable,
    fun i v s hclass => ?admEnable, fun i v s hclass herror => ?admDisable⟩
  case enable =>
    intro c
    split
    next hz => exact queuePairEnable_answers hheard hone hvalue (pairWrite_pairZero hlen hone hz) rfl
    next hnz =>
      split
      next hstate => exact queuePairEnable_answers hheard hone hvalue (pairWrite_notDisabled hlen hone hq hnz hstate) rfl
      next hstate =>
        have hdisabled : (pairOf s q).state = .disabled := not_not.mp hstate
        split
        next hvalid => exact queuePairEnable_answers hheard hone hvalue (pairWrite_invalid hlen hone hq hnz hdisabled hvalid) rfl
        next hvalid =>
          have hok : recordValid s b = true := by simpa using hvalid
          split
          next hadmin =>
            exact queuePairEnable_answers hheard hone hvalue (pairWrite_adminRefused hlen hone hq hnz hdisabled hok hadmin) rfl
          next hadmin =>
            refine queuePairEnable_answers hheard hone hvalue (pairWrite_enables hlen hone hq hnz hdisabled hok hadmin) ?_
            have hpair := pairOf_modPair_self (s := s) q (pairFromRecord b)
            exact ⟨hpair, hpair ▸ rfl, hpair ▸ rfl, hpair ▸ rfl, fun p hp => pairOf_modPair_ne _ _ hp, modPair_only ..⟩
  case disable =>
    exact queuePairDisable_answers hheard hzero hvalue (pairWrite_disables hlen hq hzero hnz) (disablePair_spec herror)
  case admEnable =>
    have hbit : bitAt (v ||| 1).toNat 0 = true := by rw [bitAt_toNat]; simp
    have hwrite := admCtrlWrite_enable (s := s) hclass hbit
    split at hwrite
    next hon =>
      refine ⟨_, congrArg Host.Outcome.next hwrite, rfl, ?_⟩
      rw [admValid_modPair, admValid_admStored, if_pos hon, pairOf_modPair_self]
      exact ⟨rfl, rfl, rfl, rfl, ((admStored_only ..).mono rfl).trans ((modPair_only ..).mono rfl)⟩
    next hoff =>
      refine ⟨_, congrArg Host.Outcome.next hwrite, rfl, ?_⟩
      rw [admValid_admStored, if_neg hoff]
      exact admStored_only ..
  case admDisable =>
    have hbit : bitAt (v &&& ~~~(1 : BitVec 32)).toNat 0 = false := by rw [bitAt_toNat]; simp
    refine ⟨_, congrArg Host.Outcome.next (admCtrlWrite_disable hclass hbit), ?_⟩
    obtain ⟨hstate, -, honly⟩ := disablePair_spec (s := admStored (v &&& ~~~(1 : BitVec 32)) s) (q := 0) herror
    exact ⟨honly.regs_eq (by decide) (by decide), ((admStored_only ..).mono rfl).trans (honly.mono rfl), hstate⟩

end Sys2Proof.Laws
end

section
/-! SUPPORT. What a step leaves of `sec.policy` (R427, R510): a write that is taken clears bits and keeps a firmware key and a recovery
path open; every other operation leaves the policy as it is. -/

namespace Sys2Proof.Laws

open Sys2Proof.Machine

/-- From `s` to `t`, bits of the policy are only cleared, and what R510 keeps open stays open. -/
structure PolicyKept (s t : State) : Prop where
  shrinks : PolicyShrinks s t
  stays : PolicyOpen s → PolicyOpen t

/-- Each next state of a result keeps the policy so. -/
structure PolicyKeptR (s : State) (r : Res) : Prop where
  kept : ∀ t, r = .next t → PolicyKept s t

variable {s₀ s t : State} {c : Prop} [Decidable c]

namespace PolicyKept

theorem of_eq (h : t.sec.policy = s.sec.policy) : PolicyKept s t :=
  ⟨fun n hn => h ▸ hn, fun ho => by rwa [PolicyOpen, h]⟩

theorem refl (s : State) : PolicyKept s s := .of_eq rfl

theorem trans (h : PolicyKept s₀ s) (k : PolicyKept s t) : PolicyKept s₀ t :=
  ⟨fun n hn => h.shrinks n (k.shrinks n hn), fun ho => k.stays (h.stays ho)⟩

theorem ite (ha : c → PolicyKept s₀ s) (hb : ¬c → PolicyKept s₀ t) : PolicyKept s₀ (if c then s else t) := by
  split
  · exact ha ‹_›
  · exact hb ‹_›

theorem foldl {α : Type} {f : State → α → State} (l : List α) (hf : ∀ x a, PolicyKept x (f x a)) (s : State) :
    PolicyKept s (l.foldl f s) :=
  List.foldlRecOn l f (refl s) fun _ hx a _ => hx.trans (hf _ a)

end PolicyKept

end Sys2Proof.Laws

namespace Sys2Proof

open Sys2Proof.Machine Laws

variable {P : List Part} {s t : State}

theorem Only.sec_eq (h : Only P s t) (hp : P.contains .sec = false) : t.sec = s.sec := h.2 .sec (by simpa using hp)

theorem Only.policyKept (h : Only P s t) (hp : P.contains .sec = false) : PolicyKept s t := .of_eq (congrArg Sec.policy (h.sec_eq hp))

theorem OnlyR.policyKeptR {r : Res} (h : OnlyR P s r) (hp : P.contains .sec = false) : PolicyKeptR s r :=
  ⟨fun t ht => (h t ht).policyKept hp⟩

end Sys2Proof

namespace Sys2Proof.Laws

open Sys2Proof.Machine

variable {s₀ s t : State} {c : Prop} [Decidable c]

namespace PolicyKeptR

theorem next (h : PolicyKept s t) : PolicyKeptR s (.next t) := by
  refine ⟨fun u hu => ?_⟩
  cases hu
  exact h

theorem next_eq (h : t.sec.policy = s.sec.policy) : PolicyKeptR s (.next t) := next (.of_eq h)

theorem fault {f : Fault} : PolicyKeptR s (.fault f) := by
  refine ⟨fun u hu => ?_⟩
  cases hu

theorem ite {a b : Res} (ha : PolicyKeptR s a) (hb : PolicyKeptR s b) : PolicyKeptR s (if c then a else b) := by
  split <;> assumption

theorem after {r : Res} (h : PolicyKeptR s r) : PolicyKept s (stateAfter s r) := by
  unfold stateAfter
  split
  · exact h.kept _ rfl
  · exact .refl s

end PolicyKeptR

/-! ## A write of the policy (R510) -/

/-- What R510 asks of a value that a write leaves: no new bit, no reserved bit cleared, and of the keys and of the recovery paths
never both closed. -/
theorem policyRefused_false {new : BitVec 64} (h : policyRefused s new = false) :
    (new &&& s.sec.policy = new) ∧ (∀ n, 7 ≤ n → n < 64 → clearsBit s.sec.policy new n = false) ∧
      (∀ a b, (a, b) ∈ [(3, 4), (4, 3), (5, 6), (6, 5)] → clearsBit s.sec.policy new a = true → new.getLsbD b = true) := by
  simp only [policyRefused, Bool.or_eq_false_iff, decide_eq_false_iff_not, not_not, List.any_eq_false, List.mem_range,
    Bool.and_eq_false_iff, Bool.not_eq_false'] at h
  obtain ⟨⟨⟨⟨⟨hand, hres⟩, h3⟩, h4⟩, h5⟩, h6⟩ := h
  refine ⟨hand, fun n hn hn' => ?_, fun a b hab hgone => ?_⟩
  · have := hres (n - 7) (by omega)
    rwa [Nat.sub_add_cancel hn, Bool.not_eq_true] at this
  · simp only [List.mem_cons, Prod.mk.injEq, List.not_mem_nil, or_false] at hab
    obtain ⟨rfl, rfl⟩ | ⟨rfl, rfl⟩ | ⟨rfl, rfl⟩ | ⟨rfl, rfl⟩ := hab
    · exact (h3.resolve_left (by simp [hgone])).2
    · exact (h4.resolve_left (by simp [hgone])).2
    · exact h5.resolve_left (by simp [hgone])
    · exact h6.resolve_left (by simp [hgone])

/-- Of two bits that a write may not both leave closed, one stays open. -/
theorem clearsBit_open {old new : BitVec 64} {a b : Nat} (hab : clearsBit old new a = true → new.getLsbD b = true)
    (hba : clearsBit old new b = true → new.getLsbD a = true) (h : (old.getLsbD a || old.getLsbD b) = true) :
    (new.getLsbD a || new.getLsbD b) = true := by
  simp only [clearsBit, Bool.and_eq_true, Bool.not_eq_true'] at hab hba
  cases ha : new.getLsbD a <;> cases hb : new.getLsbD b <;> simp_all

theorem policyKept_of_accepted {new : BitVec 64} (h : policyRefused s new = false) :
    PolicyKept s { s with sec := { s.sec with policy := new } } := by
  obtain ⟨hand, hres, hpaths⟩ := policyRefused_false h
  refine ⟨fun n hn => ?_, fun ⟨hkeys, hways, hrest⟩ => ⟨?_, ?_, fun n hn hn' => ?_⟩⟩
  · have hn : new.getLsbD n = true := hn
    rw [← hand, BitVec.getLsbD_and, Bool.and_eq_true] at hn
    exact hn.2
  · exact clearsBit_open (hpaths 3 4 (by decide)) (hpaths 4 3 (by decide)) hkeys
  · exact clearsBit_open (hpaths 5 6 (by decide)) (hpaths 6 5 (by decide)) hways
  · simpa [clearsBit, hrest n hn hn'] using hres n hn hn'

theorem policyWrite_kept (r : Requester) (b : Bytes) (s : State) : PolicyKept s (policyWrite r b s).2 := by
  unfold policyWrite
  split
  · exact .refl s
  · split
    · exact .refl s
    · extract_lets new
      split
      · exact .refl s
      next hok => exact policyKept_of_accepted (Bool.not_eq_true _ ▸ hok)

/-! ## Writes of objects -/

theorem stageWrite_policy (b : Bytes) (s : State) : (stageWrite b s).2.sec.policy = s.sec.policy := by
  unfold stageWrite
  split
  · rfl
  · split
    · rfl
    · extract_lets reason u
      simp only [takeFree]
      split <;> rfl

theorem commitFirmware_policy (b : Bytes) (s : State) : (commitFirmware b s).2.sec.policy = s.sec.policy := by
  unfold commitFirmware
  split
  · rfl
  · split <;> rfl

theorem resetWrite_policy (b : Bytes) (s : State) : (resetWrite b s).2.sec.policy = s.sec.policy := by
  unfold resetWrite
  split
  · rfl
  · split <;> rfl

@[simp] theorem storeAppend_sec (o k : Nat) (b : Bytes) (s : State) : (storeAppend o k b s).sec = s.sec :=
  (storeAppend_only o k b s).sec_eq rfl

@[simp] theorem keepKey_policy (n : Nat) (k : Option PubKey) (s : State) : (keepKey n k s).sec.policy = s.sec.policy := by
  simp [keepKey, modSec]

theorem keyWrite_policy (r : Requester) (n : Nat) (b : Bytes) (s : State) : (keyWrite r n b s).2.sec.policy = s.sec.policy := by
  unfold keyWrite
  extract_lets k
  repeat' split
  all_goals simp

theorem privWrite_kept {f : Bytes → State → Nat × State} (hf : ∀ b x, PolicyKept x (f b x).2) (r : Requester) (b : Bytes) (s : State) :
    PolicyKept s (privWrite r f b s).2 := by
  unfold privWrite
  split
  · exact hf b s
  · exact .refl s

/-- The effect of a write keeps the policy: by its own lemma where it touches security, else by its frame. -/
theorem effectWrite_kept {r : Requester} {obj arg : Nat} {f : Bytes → State → Nat × State} (h : effectWrite r obj arg = some f)
    (b : Bytes) (s : State) : PolicyKept s (f b s).2 := by
  unfold effectWrite at h
  repeat' split at h
  all_goals cases h
  · exact (commitWrite_only ..).policyKept rfl
  · exact (clearWrite_only ..).policyKept rfl
  · exact (domainWrite_only ..).policyKept rfl
  · exact (pairWrite_only ..).policyKept rfl
  · exact (configWrite_only ..).policyKept rfl
  · exact policyWrite_kept ..
  · exact .of_eq (stageWrite_policy ..)
  · exact .of_eq (commitFirmware_policy ..)
  · exact .of_eq (resetWrite_policy ..)
  · exact .of_eq (keyWrite_policy ..)

theorem writeObject_kept (r : Requester) (obj arg : Nat) (b : Bytes) (s : State) : PolicyKept s (writeObject r obj arg b s).2 := by
  unfold writeObject
  split
  · exact .refl s
  · split
    · exact .refl s
    · split
      · exact .refl s
      · split
        next hf => exact effectWrite_kept hf b s
        · exact (plainWrite_only ..).policyKept rfl

theorem ownWrite_kept {f : Bytes → State → Nat × State} (hf : ∀ b x, PolicyKept x (f b x).2) (i : Instr) (r : Requester)
    (obj arg : Nat) (data : Bytes) (s : State) : PolicyKept s (ownWrite i r obj arg data f s) := by
  unfold ownWrite
  split
  · split
    · exact .refl s
    · refine .ite (fun _ => .refl s) fun _ => ?_
      exact (hf ..).trans ((finish_only ..).policyKept rfl)
  · refine .ite (fun _ => (holdMessage_only ..).policyKept rfl) fun _ => .ite (fun _ => (answer_only ..).policyKept rfl) fun _ => ?_
    exact (hf ..).trans ((answer_only ..).policyKept rfl)

theorem execDictWrite_kept (a : Fin 4096) (v : HostRead) (s : State) : PolicyKeptR s (execDictWrite a v s) := by
  unfold execDictWrite
  split
  · exact .next (.refl s)
  · refine .ite (.next (.refl s)) ?_
    extract_lets e
    split
    · exact .next ((finish_only ..).policyKept rfl)
    next b _ => exact .next ((writeObject_kept (.queue a) _ _ b s).trans ((finish_only ..).policyKept rfl))

theorem execMctpDictWrite_kept (ep : Nat) (tag flags : Byte) (index : BitVec 16) (sub : Byte) (argument : BitVec 64)
    (offset : BitVec 32) (data : Bytes) (s : State) :
    PolicyKeptR s (execMctpDictWrite ep tag flags index sub argument offset data s) := by
  unfold execMctpDictWrite
  extract_lets obj arg
  refine .ite (.next (.refl s)) (.ite (.next ((holdMessage_only ..).policyKept rfl)) (.ite (.next_eq rfl) (.ite (.next_eq rfl) ?_)))
  split
  · exact .next_eq rfl
  next p _ =>
    refine .ite (.next ?_) (.next_eq rfl)
    have hdrop : PolicyKept s (dropPieces ep s) := .of_eq rfl
    have hwrite := writeObject_kept (.mctp ep tag) obj arg p.bytes (dropPieces ep s)
    exact hdrop.trans (hwrite.trans ((mctpWriteAnswer_only ..).policyKept rfl))

/-! ## Module resets, the boot ROM and recovery -/

theorem startReset_policy (k : ResetCause) (s : State) : (startReset k s).sec.policy = s.sec.policy := by
  cases k <;> rfl

theorem unwrapIdentity_policy (ok : Bool) (s : State) : (unwrapIdentity ok s).sec.policy = s.sec.policy := by
  cases ok <;> rfl

theorem startFirmware_policy (s : State) : (startFirmware s).sec.policy = s.sec.policy := rfl

@[simp] theorem wakePort_sec (p : Port) (s : State) : (wakePort p s).sec = s.sec := (wakePort_only p s).sec_eq rfl
@[simp] theorem portOff_sec (p : Port) (s : State) : (portOff p s).sec = s.sec := (portOff_only p s).sec_eq rfl
@[simp] theorem portLinkDown_sec (p : Port) (s : State) : (portLinkDown p s).sec = s.sec := (portLinkDown_only p s).sec_eq rfl
@[simp] theorem assertFault_sec (s : State) : (assertFault s).sec = s.sec := rfl
@[simp] theorem romRecord_sec (n : EventName) (u : Nat) (s : State) : (romRecord n u s).sec = s.sec := rfl
@[simp] theorem moduleFault_sec (s : State) : (moduleFault s).sec = s.sec := (moduleFault_only s).sec_eq rfl
@[simp] theorem raise_sec (n : EventName) (k u : Nat) (s : State) : (raise n k u s).sec = s.sec := (raise_only n k u s).sec_eq rfl

theorem enterRecovery_policy (reason : Nat) (s : State) : (enterRecovery reason s).sec.policy = s.sec.policy := by
  simp [enterRecovery, modSec]

theorem execBootRomRun_kept (ok : Bool) (s : State) : PolicyKeptR s (execBootRomRun ok s) := by
  have hunwrap := unwrapIdentity_policy ok s
  refine .ite (.next (.refl s)) (.ite (.next_eq ((enterRecovery_policy ..).trans hunwrap)) (.next ?_))
  exact .ite (fun _ => .of_eq ((startFirmware_policy _).trans hunwrap)) fun _ => .of_eq ((enterRecovery_policy ..).trans hunwrap)

/-- Of security, only the publisher keys may differ. -/
def BesideKeys (s t : State) : Prop := { t.sec with keys := s.sec.keys } = s.sec

namespace BesideKeys

theorem of_eq (h : t.sec = s.sec) : BesideKeys s t := by rw [BesideKeys, h]

theorem trans (h : BesideKeys s₀ s) (k : BesideKeys s t) : BesideKeys s₀ t := by
  rw [BesideKeys] at *
  rw [← h, ← k]

theorem policy (h : BesideKeys s t) : t.sec.policy = s.sec.policy := (congrArg Sec.policy h :)

end BesideKeys

theorem loseObject_besideKeys (o : Nat) (s : State) : BesideKeys s (loseObject o s) := by
  unfold loseObject
  split
  · split
    · exact .of_eq (by simp)
    · exact .of_eq rfl
  · split
    · exact .of_eq rfl
    · split
      · dsimp only
        split <;> simp [BesideKeys, modSec, modDict]
      · exact .of_eq rfl
      · exact .of_eq (by simp)

/-- Uzomel has read the store: what was lost in it is gone (R428, R489, R497 t7). -/
def storeRead (lost : List Nat) (s : State) : State :=
  lost.foldl (fun s o => loseObject o s)
    (modSec (fun x => { x with cyclePairs := ratchetAdvance x.cyclePairs (ratchetCount x.cyclePairs + 1) }) s)

/-- The erases that a boot issues are queued, and the registers show the active values (R77, R428). -/
def banksRestarted (lost : List Nat) (s : State) : State :=
  syncRegisters ((tkeys (storeRead lost s).banks).foldl (fun s n => bootErase n s) (storeRead lost s))

/-- t7 is reached (R497). -/
def setReady (s : State) : State := { s with power := { s.power with phase := .ready } }

/-- A module that is no member of its group says so (R390). -/
def refusalRaised (s : State) : State := if s.strait.refused then raise .groupRefused 0 0 s else s

theorem execUzomelReady_eq (lost : List Nat) (h : s.power.phase = .firmware) :
    execUzomelReady lost s = .next (raiseRefetch (wakeLinks (refusalRaised (setReady (banksRestarted lost s))))) := by
  rw [execUzomelReady, h]
  rfl

theorem storeRead_besideKeys (lost : List Nat) (s : State) :
    BesideKeys (modSec (fun x => { x with cyclePairs := ratchetAdvance x.cyclePairs (ratchetCount x.cyclePairs + 1) }) s)
      (storeRead lost s) :=
  List.foldlRecOn lost _ (.of_eq rfl) fun _ hx o _ => hx.trans (loseObject_besideKeys o _)

theorem banksRestarted_sec (lost : List Nat) (s : State) : (banksRestarted lost s).sec = (storeRead lost s).sec :=
  ((syncRegisters_only _).sec_eq rfl).trans (List.foldlRecOn (motive := fun x => x.sec = (storeRead lost s).sec) _ _ rfl
    fun x hx n _ => ((bootErase_only n x).sec_eq rfl).trans hx)

theorem refusalRaised_sec (s : State) : (refusalRaised s).sec = s.sec := by
  unfold refusalRaised
  split <;> simp

theorem execUzomelReady_sec {lost : List Nat} (h : execUzomelReady lost s = .next t) (hphase : s.power.phase = .firmware) :
    { t.sec with keys := s.sec.keys } = { s.sec with cyclePairs := ratchetAdvance s.sec.cyclePairs (pcycleOf s + 1) } := by
  rw [execUzomelReady_eq lost hphase] at h
  have hlast : t.sec = (storeRead lost s).sec := by
    cases h
    rw [(raiseRefetch_only _).sec_eq rfl, (wakeLinks_only _).sec_eq rfl, refusalRaised_sec]
    exact banksRestarted_sec lost s
  rw [hlast]
  exact storeRead_besideKeys lost s

theorem execUzomelReady_kept (lost : List Nat) (s : State) : PolicyKeptR s (execUzomelReady lost s) := by
  refine ⟨fun t ht => ?_⟩
  by_cases hphase : s.power.phase = .firmware
  · exact .of_eq (congrArg Sec.policy (execUzomelReady_sec ht hphase) :)
  · rw [execUzomelReady, if_pos (by simpa using hphase)] at ht
    cases ht
    exact .refl s

/-- What a write of SEC_RCV_CTRL does once it has crossed (R507, R509). -/
def rcvTaken (v : BitVec 32) (image : HostRead) (u s : State) : State :=
  let len := bitsAt u.regs.rcvLen.toNat 24 0
  if !v.getLsbD 0 || (1 ≤ u.regs.rcvState.toNat && u.regs.rcvState.toNat ≤ 3) then s
  else match image with
    | .failed => setRcv 5 9 s
    | .data b =>
      if slotBytes < len then setRcv 5 2 s
      else
        let r := receiveImage (fit b len) false s
        if r.1 = 0 then setRcv 3 0 r.2 else setRcv 5 r.1 r.2
    | .poisoned b =>
      if slotBytes < len then setRcv 5 2 s
      else
        let r := receiveImage (fit b len) true s
        setRcv 5 r.1 r.2

theorem execSecRcvGo_eq (i : Initiator) (v : BitVec 32) (image : HostRead) (s : State) : execSecRcvGo i v image s =
    if !classU i then .next (privDrop s) else if !mailboxOn s then .next s else .next (crossing (rcvTaken v image s) s) := by
  cases image <;> rfl

theorem rcvTaken_policy (v : BitVec 32) (image : HostRead) (u s : State) : (rcvTaken v image u s).sec.policy = s.sec.policy := by
  unfold rcvTaken
  extract_lets len
  split
  · rfl
  · split
    · rfl
    · split
      · rfl
      · dsimp only
        split <;> rfl
    · split <;> rfl

theorem crossing_policy {f : State → State} (hf : ∀ x, (f x).sec.policy = x.sec.policy) (s : State) :
    (crossing f s).sec.policy = s.sec.policy := by
  unfold crossing
  split
  · rfl
  · dsimp only
    split <;> exact hf s

theorem execSecRcvGo_kept (i : Initiator) (v : BitVec 32) (image : HostRead) (s : State) : PolicyKeptR s (execSecRcvGo i v image s) := by
  rw [execSecRcvGo_eq]
  exact .ite (.next ((privDrop_only s).policyKept rfl)) (.ite (.next (.refl s)) (.next_eq (crossing_policy (rcvTaken_policy v image s) s)))

theorem execFwSlotWriteDone_kept (ok : Bool) (s : State) : PolicyKeptR s (execFwSlotWriteDone ok s) := by
  unfold execFwSlotWriteDone
  refine .ite (.next (.refl s)) ?_
  extract_lets u v
  have hv : v.sec.policy = s.sec.policy := by
    unfold v
    split <;> rfl
  exact .next (.ite (fun _ => .of_eq ((startReset_policy _ v).trans hv)) fun _ => .of_eq hv)

/-! ## PLDM and SPDM -/

theorem execRequestUpdate_kept (s : State) : PolicyKeptR s (execRequestUpdate s) :=
  .ite (.next (.refl s)) (.ite (.next_eq rfl) (.next_eq rfl))

theorem execPassComponentTable_kept (k : BitVec 16) (s : State) : PolicyKeptR s (execPassComponentTable k s) := by
  refine .ite (.next (.refl s)) ?_
  split
  · exact .next_eq rfl
  · exact .ite (.next_eq rfl) (.next_eq rfl)
  · exact .next_eq rfl

theorem execUpdateComponent_kept (k : BitVec 16) (n : BitVec 32) (s : State) : PolicyKeptR s (execUpdateComponent k n s) := by
  refine .ite (.next (.refl s)) ?_
  split
  · exact .next_eq rfl
  · exact .ite (.next_eq rfl) (.next_eq rfl)
  · exact .next_eq rfl

theorem execRequestFirmwareData_kept (o : BitVec 32) (b : Bytes) (s : State) : PolicyKeptR s (execRequestFirmwareData o b s) :=
  .ite (.next (.refl s)) (.next_eq rfl)

theorem execTransferComplete_kept (ok : Bool) (s : State) : PolicyKeptR s (execTransferComplete ok s) :=
  .ite (.next (.refl s)) (.ite (.ite (.next_eq rfl) (.next (.refl s))) (.next_eq rfl))

theorem execVerifyComplete_kept (s : State) : PolicyKeptR s (execVerifyComplete s) :=
  .ite (.next (.refl s)) (.next_eq rfl)

theorem execApplyComplete_kept (ok : Bool) (s : State) : PolicyKeptR s (execApplyComplete ok s) :=
  .ite (.next (.refl s)) (.ite (.next_eq rfl) (.next_eq rfl))

theorem execActivateFirmware_kept (s : State) : PolicyKeptR s (execActivateFirmware s) := by
  refine .ite (.next (.refl s)) ?_
  split <;> exact .next_eq rfl

theorem execCancelUpdate_kept (s : State) : PolicyKeptR s (execCancelUpdate s) :=
  .ite (.next (.refl s)) (.ite (.next_eq rfl) (.next_eq rfl))

theorem execRecoveryImageDone_kept (ok : Bool) (s : State) : PolicyKeptR s (execRecoveryImageDone ok s) :=
  .ite (.next (.refl s)) (.ite (.next_eq rfl) (.next_eq rfl))

theorem spdmRow_kept {f : State → State} (hf : ∀ x, (f x).sec.policy = x.sec.policy) (i : Instr) (conn stage : Nat) (s : State) :
    PolicyKeptR s (spdmRow i conn stage f s) :=
  .ite (.next (.refl s)) (.ite (.next ((holdMessage_only i s).policyKept rfl))
    (.ite (.next_eq rfl) (.ite (.next_eq rfl) (.next_eq (hf s)))))

theorem execGetVersion_kept (conn : Nat) (m : Bytes) (s : State) : PolicyKeptR s (execGetVersion conn m s) := by
  refine spdmRow_kept (fun x => ?_) ..
  rfl

theorem execGetCapabilities_kept (conn : Nat) (m : Bytes) (s : State) : PolicyKeptR s (execGetCapabilities conn m s) := by
  refine spdmRow_kept (fun x => ?_) ..
  rfl

theorem execGetDigests_kept (conn : Nat) (m : Bytes) (s : State) : PolicyKeptR s (execGetDigests conn m s) := by
  refine spdmRow_kept (fun x => ?_) ..
  rfl

theorem execChunkSend_kept (conn : Nat) (m : Bytes) (last : Bool) (s : State) : PolicyKeptR s (execChunkSend conn m last s) := by
  refine spdmRow_kept (fun x => ?_) ..
  rfl

theorem execGetCertificate_kept (conn : Nat) (m : Bytes) (k : BitVec 8) (o l : BitVec 16) (s : State) :
    PolicyKeptR s (execGetCertificate conn m k o l s) := by
  refine spdmRow_kept (fun x => ?_) ..
  dsimp only
  split <;> rfl

theorem execNegotiateAlgorithms_kept (conn : Nat) (m : Bytes) (a b : Bool) (s : State) :
    PolicyKeptR s (execNegotiateAlgorithms conn m a b s) := by
  refine spdmRow_kept (fun x => ?_) ..
  split <;> rfl

theorem execChallenge_kept (conn : Nat) (m : Bytes) (k : BitVec 8) (s : State) : PolicyKeptR s (execChallenge conn m k s) := by
  refine spdmRow_kept (fun x => ?_) ..
  repeat' split
  all_goals rfl

theorem execGetMeasurements_kept (conn : Nat) (m : Bytes) (k n : BitVec 8) (g : Bool) (s : State) :
    PolicyKeptR s (execGetMeasurements conn m k n g s) := by
  refine spdmRow_kept (fun x => ?_) ..
  repeat' split
  all_goals rfl

theorem execChunkGet_kept (conn n : Nat) (s : State) : PolicyKeptR s (execChunkGet conn n s) := by
  refine spdmRow_kept (fun x => ?_) ..
  dsimp only
  split <;> rfl

theorem execPqSign_kept (conn : Nat) (m : Bytes) (s : State) : PolicyKeptR s (execPqSign conn m s) := by
  refine spdmRow_kept (fun x => ?_) ..
  repeat' split
  all_goals rfl

/-! ## The core complex wakes, and heat -/

theorem privStage_kept (r : Requester) (b : Bytes) (s : State) : PolicyKept s (privWrite r stageWrite b s).2 :=
  privWrite_kept (fun b x => .of_eq (stageWrite_policy b x)) r b s

theorem privCommit_kept (r : Requester) (b : Bytes) (s : State) : PolicyKept s (privWrite r commitFirmware b s).2 :=
  privWrite_kept (fun b x => .of_eq (commitFirmware_policy b x)) r b s

theorem privReset_kept (r : Requester) (b : Bytes) (s : State) : PolicyKept s (privWrite r resetWrite b s).2 :=
  privWrite_kept (fun b x => .of_eq (resetWrite_policy b x)) r b s

/-- A message that has waited keeps the policy as its own row does (R471). -/
theorem serveMessage_kept (i : Instr) (s : State) : PolicyKept s (serveMessage i s) := by
  unfold serveMessage
  split
  · exact (execGetVersion_kept ..).after
  · exact (execGetCapabilities_kept ..).after
  · exact (execNegotiateAlgorithms_kept ..).after
  · exact (execGetDigests_kept ..).after
  · exact (execGetCertificate_kept ..).after
  · exact (execChallenge_kept ..).after
  · exact (execGetMeasurements_kept ..).after
  · exact (execChunkSend_kept ..).after
  · exact (execChunkGet_kept ..).after
  · exact (execPqSign_kept ..).after
  · exact (PolicyKeptR.next (ownWrite_kept (privStage_kept _) ..)).after
  · exact (PolicyKeptR.next (ownWrite_kept (privCommit_kept _) ..)).after
  · exact (PolicyKeptR.next (ownWrite_kept (privReset_kept _) ..)).after
  · exact (PolicyKeptR.next (ownWrite_kept (policyWrite_kept _) ..)).after
  · exact (PolicyKeptR.next (ownWrite_kept (fun b x => .of_eq (keyWrite_policy _ _ b x)) ..)).after
  · exact ((execQueuePairEnable_only _ s).policyKeptR rfl).after
  · exact ((execQueuePairDisable_only _ s).policyKeptR rfl).after
  · exact ((execCfgCommit_only _ _ s).policyKeptR rfl).after
  · exact ((execMonClear_only _ _ s).policyKeptR rfl).after
  · exact ((execDomainRequestOn_only _ _ s).policyKeptR rfl).after
  · exact ((execDomainRequestRet_only _ _ s).policyKeptR rfl).after
  · exact ((execDomainRequestOff_only _ _ s).policyKeptR rfl).after
  · exact ((execMctpDictRead_only _ _ _ _ _ _ _ _ _ s).policyKeptR rfl).after
  · exact (execMctpDictWrite_kept ..).after
  · exact .refl s

theorem coreWakes_kept (s : State) : PolicyKept s (coreWakes s) := by
  unfold coreWakes
  extract_lets u v msgs
  have hu : PolicyKept s u := .of_eq rfl
  have hv : PolicyKept u v := ((driftOverSleep_only u).policyKept rfl).trans ((raiseRefetch_only _).policyKept rfl)
  have hw : PolicyKept v (modDict (fun d => { d with waitingMsgs := [] }) v) := .of_eq rfl
  exact hu.trans (hv.trans (hw.trans ((PolicyKept.foldl msgs (fun x i => serveMessage_kept i x) _).trans
    ((serveWaiting_only _).policyKept rfl))))

theorem wakeEffects_kept (n : Nat) (was : PState) (tests : List (Nat × KsResult)) (s : State) :
    PolicyKept s (wakeEffects n was tests s) := by
  unfold wakeEffects
  split
  · extract_lets u tested v
    have hu : PolicyKept s u := (islandReload_only n s).policyKept rfl
    have hv : PolicyKept u v := .foldl _ (fun x t => (fullTest_only ..).policyKept rfl) u
    exact hu.trans (hv.trans ((firstWake_only n v).policyKept rfl))
  · extract_lets g u hs back v
    have hu : PolicyKept s u := .ite (fun _ => .refl s) fun _ => (segLost_only g s).policyKept rfl
    have hv : PolicyKept u v := by
      refine .ite (fun _ => .refl u) fun _ => ?_
      split
      · exact (poolReturn_only ..).policyKept rfl
      · exact (poolReturn_only ..).policyKept rfl
      · exact .refl u
    exact hu.trans (hv.trans ((serveWaiting_only v).policyKept rfl))
  · exact coreWakes_kept s
  · exact .ite (fun _ => ((linkAwake_only _ s).policyKept rfl).trans ((linkAwake_only ..).policyKept rfl)) fun _ => .refl s
  · exact .refl s

theorem execDomainWakeDone_kept (n : Nat) (tests : List (Nat × KsResult)) (s : State) : PolicyKeptR s (execDomainWakeDone n tests s) := by
  unfold execDomainWakeDone
  refine .ite .fault (.ite (.next (.refl s)) (.next ?_))
  have hdom := (modDom_only n (fun d => { d with state := .on, current := none, attempts := 0, wakes := d.wakes + 1 }) s).policyKept rfl
  exact hdom.trans ((wakeEffects_kept ..).trans (((cause_only ..).policyKept rfl).trans ((runQueued_only ..).policyKept rfl)))

theorem execTjSample_kept (key : Nat) (q : Int) (s : State) : PolicyKeptR s (execTjSample key q s) := by
  unfold execTjSample
  extract_lets logic v u w retHot x y trip
  refine .ite .fault (.ite (.next (.refl s)) (.next ?_))
  have hu : PolicyKept s u := (sample_only ..).policyKept rfl
  have hw : PolicyKept u w := .ite (fun _ => (logicHeat_only u).policyKept rfl) fun _ => (islandHeat_only key v u).policyKept rfl
  have hx : PolicyKept w x := .ite (fun _ => .of_eq rfl) fun _ => .refl w
  have hy : PolicyKept x y := (thermPin_only x).policyKept rfl
  exact (hu.trans (hw.trans (hx.trans hy))).trans (.ite (fun _ => PolicyKept.of_eq (startReset_policy _ y)) fun _ => .refl y)

/-! ## Every command -/

/-- Every command keeps the policy: by its own lemma where its meaning may change security, else by its frame. -/
theorem exec_policyKept (i : Instr) (s : State) : PolicyKeptR s (exec i s) := by
  unfold exec
  split
  · exact (execAuxPowerUp_only s).policyKeptR rfl
  · exact (execMainPowerUp_only s).policyKeptR rfl
  · exact (execModuleResetEnd_only _ s).policyKeptR rfl
  · exact .ite (.next (.refl s)) (.ite (.next (.refl s)) (.next_eq (startReset_policy _ s)))
  · exact (execBootOscTimeout_only s).policyKeptR rfl
  · exact execBootRomRun_kept _ s
  · exact execUzomelReady_kept _ s
  · exact .ite (.next_eq (enterRecovery_policy 0 s)) (.next (.refl s))
  · exact execSecRcvGo_kept _ _ _ s
  · exact execRecoveryImageDone_kept _ s
  · exact execRequestUpdate_kept s
  · exact execPassComponentTable_kept _ s
  · exact execUpdateComponent_kept _ _ s
  · exact execRequestFirmwareData_kept _ _ s
  · exact execTransferComplete_kept _ s
  · exact execVerifyComplete_kept s
  · exact execApplyComplete_kept _ s
  · exact execActivateFirmware_kept s
  · exact execCancelUpdate_kept s
  · exact execGetVersion_kept _ _ s
  · exact execGetCapabilities_kept _ _ s
  · exact execNegotiateAlgorithms_kept _ _ _ _ s
  · exact execGetDigests_kept _ _ s
  · exact execGetCertificate_kept _ _ _ _ _ s
  · exact execChallenge_kept _ _ _ s
  · exact execGetMeasurements_kept _ _ _ _ _ s
  · exact execChunkSend_kept _ _ _ s
  · exact execChunkGet_kept _ _ s
  · exact execPqSign_kept _ _ s
  · exact .next (ownWrite_kept (privStage_kept _) ..)
  · exact .next (ownWrite_kept (privCommit_kept _) ..)
  · exact execFwSlotWriteDone_kept _ s
  · exact .next (ownWrite_kept (privReset_kept _) ..)
  · exact .next (ownWrite_kept (policyWrite_kept _) ..)
  · exact .next (ownWrite_kept (fun b x => .of_eq (keyWrite_policy _ _ b x)) ..)
  · exact (execSubmissionRead_only _ _ s).policyKeptR rfl
  · exact (execDuplicateReplay_only _ _ _ s).policyKeptR rfl
  · exact (execSqTailDoorbell_only _ _ _ s).policyKeptR rfl
  · exact (execCqHeadDoorbell_only _ _ _ s).policyKeptR rfl
  · exact (execInterruptTimer_only _ s).policyKeptR rfl
  · exact (execInfer_only _ _ s).policyKeptR rfl
  · exact (execInferComplete_only _ s).policyKeptR rfl
  · exact (execCtxOpen_only _ s).policyKeptR rfl
  · exact (execCtxClose_only _ s).policyKeptR rfl
  · exact (execCtxCloseRelease_only _ s).policyKeptR rfl
  · exact (execCtxSave_only _ s).policyKeptR rfl
  · exact (execCtxSaveWrite_only _ s).policyKeptR rfl
  · exact (execCtxRestore_only _ _ s).policyKeptR rfl
  · exact (execCancel_only _ s).policyKeptR rfl
  · exact (execFence_only _ s).policyKeptR rfl
  · exact (execFenceRelease_only _ s).policyKeptR rfl
  · exact (execLoadManifest_only _ _ s).policyKeptR rfl
  · exact (execLoadShard_only _ _ s).policyKeptR rfl
  · exact (execVerifyPassDone_only _ _ s).policyKeptR rfl
  · exact (execProgramPassDone_only _ _ s).policyKeptR rfl
  · exact (execCommitImage_only _ _ s).policyKeptR rfl
  · exact (execDropImage_only _ _ s).policyKeptR rfl
  · exact (execRefetchReminder_only s).policyKeptR rfl
  · exact (execSwapStage_only _ _ _ _ s).policyKeptR rfl
  · exact (execSwapSwitch_only _ s).policyKeptR rfl
  · exact (execSwapAbort_only _ s).policyKeptR rfl
  · exact (execGroupSwitchTide_only _ s).policyKeptR rfl
  · exact (execGenerationRetire_only _ s).policyKeptR rfl
  · exact (execLayerRewriteDone_only _ _ _ s).policyKeptR rfl
  · exact (execPlace_only _ _ _ s).policyKeptR rfl
  · exact (execAttach_only _ _ s).policyKeptR rfl
  · exact (execBindQueue_only _ s).policyKeptR rfl
  · exact (execBindSegment_only _ s).policyKeptR rfl
  · exact (execDetach_only _ s).policyKeptR rfl
  · exact (execRelease_only _ s).policyKeptR rfl
  · exact (execUnbindSegment_only _ s).policyKeptR rfl
  · exact (execBindDrainEnd_only _ s).policyKeptR rfl
  · exact (execLastSlotFreed_only _ s).policyKeptR rfl
  · exact (execSegmentHandover_only _ s).policyKeptR rfl
  · exact (execSharedSegmentTake_only _ s).policyKeptR rfl
  · exact (execSharedSegmentReturn_only _ s).policyKeptR rfl
  · exact (execRePlacement_only _ _ _ s).policyKeptR rfl
  · exact (execDictRead_only _ _ s).policyKeptR rfl
  · exact execDictWrite_kept _ _ s
  · exact (execQueuePairEnable_only _ s).policyKeptR rfl
  · exact (execQueuePairDisable_only _ s).policyKeptR rfl
  · exact (execQueuePairDisabled_only _ s).policyKeptR rfl
  · exact (execCfgCommit_only _ _ s).policyKeptR rfl
  · exact (execMonClear_only _ _ s).policyKeptR rfl
  · exact (execMctpDictRead_only _ _ _ _ _ _ _ _ _ s).policyKeptR rfl
  · exact execMctpDictWrite_kept _ _ _ _ _ _ _ _ s
  · exact (execMctpSnapshotExpiry_only _ s).policyKeptR rfl
  · exact (execMctpWriteTimeout_only _ s).policyKeptR rfl
  · exact (execRegWrite_only _ _ _ _ s).policyKeptR rfl
  · exact (execMwWrite_only _ _ _ s).policyKeptR rfl
  · exact (execPairLoRead_only _ _ s).policyKeptR rfl
  · exact (execPairHiWrite_only _ _ _ s).policyKeptR rfl
  · exact (execPairLoWrite_only _ _ _ s).policyKeptR rfl
  · exact (execW1cWrite_only _ _ _ s).policyKeptR rfl
  · exact (execConfigRegWrite_only _ _ _ s).policyKeptR rfl
  · exact (execCfgCrcRefWrite_only _ _ s).policyKeptR rfl
  · exact (execCfgHoldWrite_only _ _ s).policyKeptR rfl
  · exact (execHoldLongTimer_only s).policyKeptR rfl
  · exact (execCheckPassEnd_only s).policyKeptR rfl
  · exact (execConfigActivate_only s).policyKeptR rfl
  · exact (execXdomCrossingDone_only s).policyKeptR rfl
  · exact (execTideAlarmWrite_only _ _ s).policyKeptR rfl
  · exact (execTideAlarmFire_only s).policyKeptR rfl
  · exact (execTideEpochOpen_only s).policyKeptR rfl
  · exact (execAwlCplPop_only _ s).policyKeptR rfl
  · exact (execAwlBankSelWrite_only _ _ _ s).policyKeptR rfl
  · exact (execAwlUnlockStep_only _ _ _ _ s).policyKeptR rfl
  · exact (execAwlWideWrite_only _ _ _ s).policyKeptR rfl
  · exact (execAwlStrayByte_only _ _ _ _ s).policyKeptR rfl
  · exact (execProgramRow_only _ _ s).policyKeptR rfl
  · exact (execProgramWord_only _ _ s).policyKeptR rfl
  · exact (execEraseBank_only _ _ s).policyKeptR rfl
  · exact (execTopUpRow_only _ _ s).policyKeptR rfl
  · exact (execReadRow_only _ _ s).policyKeptR rfl
  · exact (execReadMargin_only _ _ s).policyKeptR rfl
  · exact (execSetComputeMode_only _ _ s).policyKeptR rfl
  · exact (execSetStorageMode_only _ _ s).policyKeptR rfl
  · exact (execSealBank_only _ _ s).policyKeptR rfl
  · exact (execMarkBank_only _ _ s).policyKeptR rfl
  · exact (execReadStatus_only _ _ s).policyKeptR rfl
  · exact (execResetToRead_only _ _ s).policyKeptR rfl
  · exact (execSuspend_only _ _ s).policyKeptR rfl
  · exact (execResume_only _ _ s).policyKeptR rfl
  · exact (execAwlOpStart_only _ s).policyKeptR rfl
  · exact (execAwlOpComplete_only _ _ s).policyKeptR rfl
  · exact (execEraseStarvation_only _ s).policyKeptR rfl
  · exact (execLaunchAdmit_only s).policyKeptR rfl
  · exact (execFerryDescriptorIssue_only _ s).policyKeptR rfl
  · exact (execFerrySlotStart_only _ s).policyKeptR rfl
  · exact (execSlabFillStart_only _ _ s).policyKeptR rfl
  · exact (execSlabPush_only _ _ _ s).policyKeptR rfl
  · exact (execRequestDeadlinePass_only _ s).policyKeptR rfl
  · exact (execLaceEntryReceive_only _ _ s).policyKeptR rfl
  · exact (execHandleRelease_only _ _ s).policyKeptR rfl
  · exact (execSlabCleared_only _ s).policyKeptR rfl
  · exact (execCancelledSlabRecall_only _ _ s).policyKeptR rfl
  · exact (execRowGroupStart_only _ _ s).policyKeptR rfl
  · exact (execPulseCycleEnd_only _ _ _ s).policyKeptR rfl
  · exact (execWeltAccept_only _ _ _ s).policyKeptR rfl
  · exact (execLongSumReceive_only _ _ s).policyKeptR rfl
  · exact (execRecomputeReceive_only _ s).policyKeptR rfl
  · exact (execShankTileBoundary_only _ _ s).policyKeptR rfl
  · exact (execStreamReadRow_only _ _ _ s).policyKeptR rfl
  · exact (execCoverStart_only _ s).policyKeptR rfl
  · exact (execHarbourRead_only _ _ _ _ s).policyKeptR rfl
  · exact (execHarbourWrite_only _ _ _ _ s).policyKeptR rfl
  · exact (execHarbourPartialWrite_only _ _ _ _ s).policyKeptR rfl
  · exact (execRegionClearDone_only _ s).policyKeptR rfl
  · exact (execPatrolScrub_only _ s).policyKeptR rfl
  · exact (execBar4Access_only _ _ _ _ s).policyKeptR rfl
  · exact (execSoundHop_only _ _ _ s).policyKeptR rfl
  · exact (execHandshakeWatchdog_only _ s).policyKeptR rfl
  · exact (execCeBucketDrain_only _ s).policyKeptR rfl
  · exact (execDriftAgeTick_only s).policyKeptR rfl
  · exact (execTopupRunStart_only _ s).policyKeptR rfl
  · exact (execTopupResume_only _ s).policyKeptR rfl
  · exact (execFullKnownSumTest_only _ _ s).policyKeptR rfl
  · exact (execMarginSample_only _ _ s).policyKeptR rfl
  · exact (execKsPeriodTimer_only _ s).policyKeptR rfl
  · exact (execIdleWindowOpen_only _ _ s).policyKeptR rfl
  · exact (execForceAfterTimer_only _ s).policyKeptR rfl
  · exact (execColumnRetestTimer_only _ _ s).policyKeptR rfl
  · exact (execRebuildCycle_only _ _ s).policyKeptR rfl
  · exact (execRerunBucketRoll_only s).policyKeptR rfl
  · exact (execPoweredTimeStore_only s).policyKeptR rfl
  · exact (execDomainRequestOn_only _ _ s).policyKeptR rfl
  · exact (execDomainRequestRet_only _ _ s).policyKeptR rfl
  · exact (execDomainRequestOff_only _ _ s).policyKeptR rfl
  · exact (execDomainIdleRetTimer_only _ s).policyKeptR rfl
  · exact (execDomainIdleOffTimer_only _ s).policyKeptR rfl
  · exact (execDomainDrainEnd_only _ s).policyKeptR rfl
  · exact (execWakeStepTimeout_only _ s).policyKeptR rfl
  · exact execDomainWakeDone_kept _ _ s
  · exact (execDomainDownDone_only _ s).policyKeptR rfl
  · exact (execPowerSample_only _ s).policyKeptR rfl
  · exact (execGovernorPeriodEnd_only s).policyKeptR rfl
  · exact execTjSample_kept _ _ s
  · exact (execVcoreSample_only _ s).policyKeptR rfl
  · exact (execOccupancySample_only s).policyKeptR rfl
  · exact (execVcoreWarningTrip_only s).policyKeptR rfl
  · exact (execVcoreRecover_only s).policyKeptR rfl
  · exact (execDipHoldEnd_only _ s).policyKeptR rfl
  · exact (execDipResume_only s).policyKeptR rfl
  · exact (execTideSourceChange_only _ s).policyKeptR rfl
  · exact (execFunctionLevelReset_only _ s).policyKeptR rfl
  · exact (execPerstNAssert_only _ s).policyKeptR rfl
  · exact (execPerstNRelease_only _ s).policyKeptR rfl
  · exact (execPcieLinkDown_only _ s).policyKeptR rfl
  · exact (execD3hotEntry_only _ s).policyKeptR rfl
  · exact (execD0Return_only _ s).policyKeptR rfl
  · exact (execRootPortEnumerate_only _ s).policyKeptR rfl
  · exact (execEngineInterruptWrite_only _ s).policyKeptR rfl
  · exact (execEngineHarbourAccess_only _ _ _ s).policyKeptR rfl
  · exact (execDownstreamWindowAccess_only _ _ _ _ s).policyKeptR rfl
  · exact (execLinkTraining_only _ _ _ _ _ s).policyKeptR rfl
  · exact (execLinkTrained_only _ s).policyKeptR rfl
  · exact (execManifestReceive_only _ s).policyKeptR rfl
  · exact (execFlitReceive_only _ _ _ _ s).policyKeptR rfl
  · exact (execLaneCeInterval_only _ _ s).policyKeptR rfl
  · exact (execLinkRetrainDone_only _ s).policyKeptR rfl
  · exact (execNakReceive_only _ _ s).policyKeptR rfl
  · exact (execLinkLost_only _ _ s).policyKeptR rfl
  · exact (execSyncTimer_only _ _ s).policyKeptR rfl
  · exact (execSyncMessage_only _ _ _ s).policyKeptR rfl
  · exact (execSlewTick_only s).policyKeptR rfl
  · exact (execGroupCommit_only s).policyKeptR rfl
  · exact (execRequestReport_only _ _ _ _ s).policyKeptR rfl
  · exact (execLaunchMessage_only _ _ _ s).policyKeptR rfl
  · exact (execGroupLaunchAtTide_only _ s).policyKeptR rfl
  · exact (execBarrierDeadline_only _ s).policyKeptR rfl
  · exact (execReportTimeout_only _ s).policyKeptR rfl
  · exact (execAbortMessage_only _ s).policyKeptR rfl
  · exact (execMcastGrant_only _ _ _ _ s).policyKeptR rfl
  · exact (execMcastPush_only _ _ _ s).policyKeptR rfl
  · exact (execMcastCredit_only _ _ _ _ s).policyKeptR rfl
  · exact (execShedStallTimeout_only _ _ _ s).policyKeptR rfl
  · exact (execCoreWatchdogExpiry_only _ _ s).policyKeptR rfl
  · exact (execHostAccessError_only _ _ _ s).policyKeptR rfl
  · exact (execPcieLinkUp_only _ _ _ _ s).policyKeptR rfl
  · exact (execSuspendTakesEffect_only _ s).policyKeptR rfl

theorem step_policyKept (s : State) : PolicyKeptR s (step s) := by
  unfold step
  split
  · exact .next ((tick_only s).policyKept rfl)
  next c rest _ =>
    have hrest : PolicyKept s { s with pending := rest } := .of_eq rfl
    exact ⟨fun t ht => hrest.trans ((exec_policyKept c _).kept t ht)⟩

/-- Settles O5: only a write of `sec.policy` changes the policy, and one that is taken clears bits. -/
theorem policyOnlyCleared : Obligations.PolicyOnlyCleared := fun s t hstep => ((step_policyKept s).kept t hstep).shrinks

/-- Settles O4: a write that would leave both keys or both recovery paths closed, or clear a reserved bit, is refused, and nothing else
changes the policy. -/
theorem recoveryAlwaysStaysOpen : Obligations.RecoveryAlwaysStaysOpen :=
  fun s t hopen hstep => ((step_policyKept s).kept t hstep).stays hopen

/-- Settles O3: at reset the policy is all ones (R510) and the Harbour lists no byte. -/
theorem invariantsAtReset : Obligations.InvariantsAtReset :=
  ⟨⟨by decide, by decide, fun n _ hn => by
    have hones : State.reset.sec.policy = BitVec.allOnes 64 := by decide
    rw [hones, BitVec.getLsbD_allOnes]
    simpa using hn⟩, by unfold HarbourCanonical; decide⟩

/-- Settles O1: a step is read off the queue. -/
theorem stepRunsFrontCommand : Obligations.StepRunsFrontCommand := by
  refine ⟨fun c rest s hqueue => ?_, fun s hqueue => ?_⟩
  · rw [step, hqueue]
  · rw [step, hqueue]

end Sys2Proof.Laws
end

section
/-! SUPPORT. Power-up and the module reset (R482, R505, R526 to R528, R531). -/

namespace Sys2Proof

open Sys2Proof.Machine

section

variable {P : List Part} {s t : State}

/-- A frame without `power` keeps what stands in it beside domains and the governor's queue. -/
theorem Only.powerRest_eq (h : Only P s t) (hp : P.contains .power = false) :
    { t.power with
      doms := s.power.doms, waiting := s.power.waiting, nextOrder := s.power.nextOrder
      shankCharged := s.power.shankCharged } = s.power :=
  h.2 .power (by simpa using hp)

theorem Only.phase_eq (h : Only P s t) (hp : P.contains .power = false) : t.power.phase = s.power.phase :=
  (congrArg Power.phase (h.powerRest_eq hp) :)

theorem Only.faultN_eq (h : Only P s t) (hp : P.contains .power = false) : t.power.faultN = s.power.faultN :=
  (congrArg Power.faultN (h.powerRest_eq hp) :)

theorem Only.pwrGood_eq (h : Only P s t) (hp : P.contains .power = false) : t.power.pwrGood = s.power.pwrGood :=
  (congrArg Power.pwrGood (h.powerRest_eq hp) :)

end

end Sys2Proof

namespace Sys2Proof.Laws

open Sys2Proof.Machine

variable {s : State}

/-- A row whose meaning answers a next state completes in it, inside the row's frame. -/
theorem completes_of_frame {c : Instr} {P : List Part} {t : State} {post : State → Prop} (hexec : exec c s = .next t)
    (hframe : OnlyR P s (exec c s)) (hpost : Only P s t → post t) : Completes c s post :=
  ⟨t, hexec, hpost (hframe t hexec)⟩

/-! ## Power-up (R526, R528, R532) -/

theorem execAuxPowerUp_off (h : s.power.phase = .off) : execAuxPowerUp s =
    .next (modDom domAlways (fun d => { d with state := .on }) { s with power := { s.power with phase := .aux } }) := by
  rw [execAuxPowerUp, h]
  rfl

theorem execMainPowerUp_untripped (haux : s.power.phase = .aux) (htrip : s.power.tripped = false) : execMainPowerUp s =
    .next { s with power := { s.power with phase := .rails, rails := [.vddio, .vser, .vcore, .vpp] } } := by
  rw [execMainPowerUp, haux, htrip]
  rfl

theorem execMainPowerUp_tripped (htrip : s.power.tripped = true) : execMainPowerUp s = .next s := by
  rw [execMainPowerUp, htrip, Bool.not_true, Bool.and_false]
  rfl

/-- The module reset has ended (R526): the ports whose PERST_N is released start. -/
def resetEnded (straps : BitVec 3) (s : State) : State :=
  wakePort .u (readAtReset straps { s with power := { s.power with phase := .rom, pwrGood := true } })

theorem execModuleResetEnd_rails (straps : BitVec 3) (h : s.power.phase = .rails) : execModuleResetEnd straps s =
    .next (if (resetEnded straps s).regs.dMode = 0 then wakePort .d (resetEnded straps s) else resetEnded straps s) := by
  rw [execModuleResetEnd, h]
  rfl

/-- Settles O8: each row is read off its one open case, and Laws/FrameSecurity.lean gives what it leaves alone. -/
theorem powerUpCommands : Obligations.PowerUpCommands := by
  refine ⟨fun s hoff => ?_, fun s haux htrip => ?_, fun s htrip => execMainPowerUp_tripped htrip, fun straps s hrails => ?_⟩
  · refine completes_of_frame (execAuxPowerUp_off hoff) (execAuxPowerUp_only s) fun hframe => ⟨rfl, ?_, hframe⟩
    simp [domState, domOf, modDom]
  · exact completes_of_frame (execMainPowerUp_untripped haux htrip) (execMainPowerUp_only s) fun hframe => ⟨rfl, rfl, hframe⟩
  · refine completes_of_frame (execModuleResetEnd_rails straps hrails) (execModuleResetEnd_only straps s) fun hframe => ?_
    have hports : Only [.doms] (readAtReset straps { s with power := { s.power with phase := .rom, pwrGood := true } })
        (if (resetEnded straps s).regs.dMode = 0 then wakePort .d (resetEnded straps s) else resetEnded straps s) :=
      (wakePort_only ..).trans (.ite (fun _ => wakePort_only ..) fun _ => .refl ..)
    exact ⟨hports.phase_eq rfl, hports.pwrGood_eq rfl, congrArg Regs.modId (hports.regs_eq (by decide) (by decide)), hframe⟩

/-! ## The module reset (R482, R488, R505, R527) -/

theorem startReset_free (k : ResetCause) (s : State) : (startReset k s).free = s.free := by
  cases k <;> rfl

theorem startReset_sec (k : ResetCause) (s : State) : (startReset k s).sec.policy = s.sec.policy ∧
    (startReset k s).sec.svnPairs = s.sec.svnPairs ∧ (startReset k s).sec.cyclePairs = s.sec.cyclePairs ∧
    (startReset k s).sec.keys = s.sec.keys := by
  cases k <;> exact ⟨rfl, rfl, rfl, rfl⟩

theorem startReset_power (k : ResetCause) (s : State) : (startReset k s).power.rails = [] ∧ (startReset k s).power.pwrGood = false ∧
    (startReset k s).power.phase = (if k = .auxLost then .off else .aux) ∧
    (startReset k s).power.faultN = decide (k = .thermalTrip) := by
  cases k <;> exact ⟨rfl, rfl, rfl, rfl⟩

theorem startReset_lost (k : ResetCause) (s : State) : tideOf (startReset k s) = 0 ∧ (startReset k s).time.epoch = 0 ∧
    (startReset k s).que.cmds = [] ∧ (startReset k s).out = s.out ∧ (startReset k s).portU.linkUp = false ∧
    (startReset k s).portD.linkUp = false ∧ (startReset k s).hbr.valid = [] := by
  cases k <;> exact ⟨rfl, rfl, rfl, rfl, rfl, rfl, rfl⟩

theorem execModuleReset_starts {k : ResetCause} (hon : s.power.phase ≠ .off)
    (hasked : k = .request → s.sec.deferredReset.isSome = true ∧ s.sec.slotWriting = false) :
    execModuleReset k s = .next (startReset k s) := by
  have hwait : ¬(k == .request && (s.sec.deferredReset.isNone || s.sec.slotWriting)) = true := by
    cases k <;> simp_all [Option.isSome_iff_ne_none]
  rw [execModuleReset, if_neg (by simpa using hon), if_neg hwait]

theorem execModuleReset_waits (hwriting : s.sec.slotWriting = true) : execModuleReset .request s = .next s := by
  rw [execModuleReset, hwriting]
  simp

/-- Settles O9: one state follows from every cause, and only a thermal trip asserts FAULT_N. -/
theorem moduleResetEffect : Obligations.ModuleResetEffect := by
  refine ⟨fun k s hon hasked => ?_, fun s => execModuleReset_waits⟩
  refine completes_of_frame (execModuleReset_starts hon hasked) (execModuleReset_only k s) fun hframe => ?_
  obtain ⟨hrails, hgood, hphase, hfault⟩ := startReset_power k s
  obtain ⟨htide, hepoch, hcmds, hout, hU, hD, hvalid⟩ := startReset_lost k s
  obtain ⟨hpolicy, hsvn, hcycle, hkeys⟩ := startReset_sec k s
  exact ⟨htide, hepoch, hrails, hgood, hphase, hfault, hcmds, hout, hU, hD, hvalid, hpolicy, hsvn, hcycle, hkeys, hframe.1,
    startReset_free k s⟩

end Sys2Proof.Laws
end

section
/-! SUPPORT. Recovery through the Port U mailbox and over the management bus (R507 to R509). -/

namespace Sys2Proof.Laws

open Sys2Proof.Machine

variable {s : State}

/-! ## The mailbox (R507, R509) -/

theorem crossing_free {f : State → State} (h : s.regs.xdomBusy = false) : crossing f s =
    if bitAt s.regs.sysCtrl.toNat 0 then { f s with regs := { (f s).regs with xdomBusy := true } } else f s := by
  rw [crossing, h]
  rfl

theorem execSecRcvGo_closed {i : Initiator} (hclass : classU i = true) (hoff : mailboxOn s = false) (v : BitVec 32) (image : HostRead) :
    execSecRcvGo i v image s = .next s := by
  rw [execSecRcvGo_eq, hclass, hoff]
  rfl

theorem execSecRcvGo_portD (v : BitVec 32) (image : HostRead) (s : State) : execSecRcvGo .portD v image s = .next (privDrop s) := by
  rw [execSecRcvGo_eq]
  rfl

/-- A GO that starts a transfer: STATE is not 1 to 3 (R509). -/
theorem rcvTaken_starts {v : BitVec 32} (hgo : v.getLsbD 0 = true) (hidle : s.regs.rcvState = 0 ∨ s.regs.rcvState = 5)
    (image : HostRead) (u : State) : rcvTaken v image s u =
      let len := bitsAt s.regs.rcvLen.toNat 24 0
      match image with
      | .failed => setRcv 5 9 u
      | .data b =>
        if slotBytes < len then setRcv 5 2 u
        else
          let r := receiveImage (fit b len) false u
          if r.1 = 0 then setRcv 3 0 r.2 else setRcv 5 r.1 r.2
      | .poisoned b =>
        if slotBytes < len then setRcv 5 2 u
        else
          let r := receiveImage (fit b len) true u
          setRcv 5 r.1 r.2 := by
  have hbusy : ¬(!v.getLsbD 0 || (1 ≤ s.regs.rcvState.toNat && s.regs.rcvState.toNat ≤ 3)) = true := by
    rw [hgo]
    obtain h | h := hidle <;> rw [h] <;> decide
  exact if_neg hbusy

/-- What a transfer that has started leaves, by what the host's memory gave (R498, R507). -/
def RcvOutcome (image : HostRead) (s t : State) : Prop :=
  t.sec.slot = s.sec.slot ∧ t.sec.policy = s.sec.policy ∧
  match image with
  | .failed => t.regs.rcvState = 5 ∧ t.regs.rcvReason = 9
  | .data b =>
    let len := bitsAt s.regs.rcvLen.toNat 24 0
    if slotBytes < len then t.regs.rcvState = 5 ∧ t.regs.rcvReason = 2
    else
      let r := imageReason s (fit b len) true
      t.sec.recoveryImage = fit b len ∧
        (if r = 0 then t.regs.rcvState = 3 else t.regs.rcvState = 5 ∧ t.regs.rcvReason = BitVec.ofNat 8 r)
  | .poisoned _ => t.regs.rcvState = 5

theorem rcvTaken_outcome {v : BitVec 32} (hgo : v.getLsbD 0 = true) (hidle : s.regs.rcvState = 0 ∨ s.regs.rcvState = 5)
    (image : HostRead) : RcvOutcome image s (rcvTaken v image s s) := by
  rw [rcvTaken_starts hgo hidle]
  cases image with
  | failed => exact ⟨rfl, rfl, rfl, rfl⟩
  | data b =>
    dsimp only
    split
    next hlong => exact ⟨rfl, rfl, (if_pos hlong).mpr ⟨rfl, rfl⟩⟩
    next hfits =>
      split
      next hpass => exact ⟨rfl, rfl, (if_neg hfits).mpr ⟨rfl, (if_pos hpass).mpr rfl⟩⟩
      next hfails => exact ⟨rfl, rfl, (if_neg hfits).mpr ⟨rfl, (if_neg hfails).mpr ⟨rfl, rfl⟩⟩⟩
  | poisoned b =>
    dsimp only
    split <;> exact ⟨rfl, rfl, rfl⟩

/-- POSTED mode adds SYS_STATUS.XDOM_BUSY alone (R458). -/
theorem RcvOutcome.crossing {f : State → State} {image : HostRead} (hbusy : s.regs.xdomBusy = false) (h : RcvOutcome image s (f s)) :
    RcvOutcome image s (crossing f s) := by
  rw [crossing_free hbusy]
  split
  · cases image <;> exact h
  · exact h

/-- Settles O11: what has crossed is `rcvTaken`, and the two ends of the slot write are read off their rows. -/
theorem recoveryMailbox : Obligations.RecoveryMailbox := by
  refine ⟨fun i v image s hclass hoff => execSecRcvGo_closed hclass hoff v image, execSecRcvGo_portD,
    fun i v image s hclass hon hbusy hgo hidle => ?_, fun ok s hon hwriting => ?_⟩
  · have hexec : execSecRcvGo i v image s = .next (crossing (rcvTaken v image s) s) := by
      rw [execSecRcvGo_eq, hclass, hon]
      rfl
    refine completes_of_frame hexec (execSecRcvGo_only i v image s) fun hframe => ?_
    obtain ⟨hslot, hpolicy, hcase⟩ := (rcvTaken_outcome hgo hidle image).crossing hbusy
    exact ⟨hslot, hpolicy, hframe, hcase⟩
  · have hopen : ¬(!mailboxOn s || decide (s.regs.rcvState ≠ 3)) = true := by simp [hon, hwriting]
    cases ok with
    | true =>
      have hexec : execRecoveryImageDone true s = .next (recoveryBoot (setRcv 4 0 (slotWritten s.sec.recoveryImage s))) := if_neg hopen
      exact completes_of_frame hexec (execRecoveryImageDone_only true s) fun hframe => ⟨hframe, rfl, rfl, rfl, rfl, rfl, rfl⟩
    | false =>
      have hexec : execRecoveryImageDone false s = .next (setRcv 5 10 (slotSpoilt s)) := if_neg hopen
      exact completes_of_frame hexec (execRecoveryImageDone_only false s) fun hframe => ⟨hframe, rfl, rfl, rfl, rfl, rfl⟩

/-! ## PLDM (R508) -/

section Pldm

variable (hopen : pldmOn s = true)
include hopen

theorem not_pldmClosed : ¬(!pldmOn s) = true := by simp [hopen]

theorem execRequestUpdate_starts (hstage : s.sec.pldm = .idle) : execRequestUpdate s =
    .next (pldmAnswer 0 [] (modSec (fun x => { x with pldm := .requested, recoveryImage := [], pldmReason := 0 }) s)) := by
  rw [execRequestUpdate, if_neg (not_pldmClosed hopen), hstage]
  rfl

theorem execPassComponentTable_described (hstage : s.sec.pldm = .requested) :
    execPassComponentTable 1 s = .next (pldmAnswer 0 [0] (setPldm .described s)) := by
  rw [execPassComponentTable, if_neg (not_pldmClosed hopen), hstage]
  rfl

theorem execUpdateComponent_starts {size : BitVec 32} (hstage : s.sec.pldm = .described) (hsize : size.toNat ≤ 25165824) :
    execUpdateComponent 1 size s = .next (pldmAnswer 0 [0]
      (modSec (fun x => { x with pldm := .transferring, pldmSize := size.toNat, recoveryImage := [] }) s)) := by
  rw [execUpdateComponent, if_neg (not_pldmClosed hopen), hstage]
  exact if_pos (by simp [slotBytes, hsize])

theorem execRequestFirmwareData_takes {offset : BitVec 32} {data : Bytes} (hstage : s.sec.pldm = .transferring)
    (hnext : offset.toNat = s.sec.recoveryImage.length) (hsome : 0 < data.length) (hmost : data.length ≤ 1024)
    (hroom : s.sec.recoveryImage.length + data.length ≤ s.sec.pldmSize) : execRequestFirmwareData offset data s =
      .next (modSec (fun x => { x with recoveryImage := x.recoveryImage ++ data })
        (pldmAnswer 0 (leBytes 4 offset.toNat ++ leBytes 4 data.length) s)) := by
  refine if_neg ?_
  simp [hopen, hstage, hnext, List.ne_nil_of_length_pos hsome, hmost, hroom]

theorem execTransferComplete_whole (hstage : s.sec.pldm = .transferring) (hwhole : s.sec.recoveryImage.length = s.sec.pldmSize) :
    execTransferComplete true s = .next (pldmAnswer 0 [0] (setPldm .transferred s)) := by
  rw [execTransferComplete, hopen, hstage, if_neg (by decide), if_pos rfl, if_pos hwhole]

theorem execVerifyComplete_checks (hstage : s.sec.pldm = .transferred) : execVerifyComplete s =
    let r := imageReason s s.sec.recoveryImage true
    .next (pldmAnswer 0 [BitVec.ofNat 8 r] (setPldm (if r = 0 then .verified else .described)
      (modSec (fun x => { x with pldmReason := BitVec.ofNat 8 r }) s))) := by
  rw [execVerifyComplete, hopen, hstage]
  rfl

theorem execApplyComplete_ends (ok : Bool) (hstage : s.sec.pldm = .verified) : execApplyComplete ok s =
    .next (if ok then pldmAnswer 0 [0] (setPldm .applied (slotWritten s.sec.recoveryImage s))
      else pldmAnswer 0 [10] (setPldm .described (modSec (fun x => { x with pldmReason := 10 }) (slotSpoilt s)))) := by
  rw [execApplyComplete, hopen, hstage]
  cases ok <;> rfl

theorem execActivateFirmware_boots (hstage : s.sec.pldm = .applied) :
    execActivateFirmware s = .next (recoveryBoot (setPldm .idle (pldmAnswer 0 [] s))) := by
  rw [execActivateFirmware, if_neg (not_pldmClosed hopen), hstage]

theorem execCancelUpdate_ends (hstage : s.sec.pldm ≠ .idle) : execCancelUpdate s =
    .next (pldmAnswer 0 [] (modSec (fun x => { x with pldm := .idle, recoveryImage := [] }) s)) := by
  rw [execCancelUpdate, if_neg (not_pldmClosed hopen), if_neg (by simpa using hstage)]

end Pldm

/-- Settles O12: each request is read off its open case, and its frame stands in Laws/FrameSecurity.lean. -/
theorem pldmRecovery : Obligations.PldmRecovery := by
  refine ⟨fun s hoff => ?closed, fun s hopen hstage => ?request, fun s hopen hstage => ?table, fun size s hopen hstage hsize => ?component,
    fun offset data s hopen hstage hnext hsome hmost hroom => ?piece, fun s hopen hstage hwhole => ?transferred,
    fun s hopen hstage => ?verify, fun ok s hopen hstage => ?apply, fun s hopen hstage => ?activate, fun s hopen hstage => ?cancel⟩
  case closed =>
    have hclosed : (!pldmOn s) = true := by simp [hoff]
    exact if_pos hclosed
  case request =>
    exact completes_of_frame (execRequestUpdate_starts hopen hstage) (execRequestUpdate_only s) fun hframe => ⟨rfl, rfl, hframe⟩
  case table =>
    exact completes_of_frame (execPassComponentTable_described hopen hstage) (execPassComponentTable_only 1 s) fun hframe =>
      ⟨rfl, rfl, hframe⟩
  case component =>
    exact completes_of_frame (execUpdateComponent_starts hopen hstage hsize) (execUpdateComponent_only 1 size s) fun hframe =>
      ⟨rfl, rfl, hframe⟩
  case piece =>
    exact completes_of_frame (execRequestFirmwareData_takes hopen hstage hnext hsome hmost hroom)
      (execRequestFirmwareData_only offset data s) fun hframe => ⟨rfl, rfl, hframe⟩
  case transferred =>
    exact completes_of_frame (execTransferComplete_whole hopen hstage hwhole) (execTransferComplete_only true s) fun hframe =>
      ⟨rfl, rfl, hframe⟩
  case verify =>
    exact completes_of_frame (execVerifyComplete_checks hopen hstage) (execVerifyComplete_only s) fun hframe => ⟨rfl, rfl, hframe⟩
  case apply =>
    refine completes_of_frame (execApplyComplete_ends hopen ok hstage) (execApplyComplete_only ok s) fun hframe => ?_
    cases ok <;> exact ⟨rfl, hframe, rfl⟩
  case activate =>
    exact completes_of_frame (execActivateFirmware_boots hopen hstage) (execActivateFirmware_only s) fun hframe =>
      ⟨rfl, rfl, rfl, hframe⟩
  case cancel =>
    exact completes_of_frame (execCancelUpdate_ends hopen hstage) (execCancelUpdate_only s) fun hframe => ⟨rfl, rfl, hframe⟩

end Sys2Proof.Laws
end

section
/-! SUPPORT. The SPDM responder (R515 to R519). -/

namespace Sys2Proof.Laws

open Sys2Proof.Machine

/-! ## Connections -/

@[simp] theorem connOf_modConn (c : Nat) (f : Conn → Conn) (s : State) : connOf (modConn c f s) c = f (connOf s c) :=
  tget_tmod_self ..

@[simp] theorem connOf_send (m : OutMsg) (s : State) (c : Nat) : connOf (send m s) c = connOf s c := rfl

/-- A reply joins the transcript with its request, and ends a large request (R519). -/
@[simp] theorem connOf_spdmReply (c : Nat) (msg resp : Bytes) (s : State) : connOf (spdmReply c msg resp s) c =
    { connOf s c with transcript := (connOf s c).transcript ++ msg ++ resp, inbound := [] } := by
  simp [spdmReply]

theorem signed_spdmSigned (c code : Nat) (msg : Bytes) (vals : List Bytes) (s : State) :
    (connOf (spdmSigned c code msg vals s) c).signed =
      some (Config.sha384 (Config.spdmCovered code ((connOf s c).transcript ++ msg ++ Config.spdmBody code msg vals))) := by
  simp [spdmSigned]

/-! ## What a request that is served does (R516 to R519) -/

def versionReply (conn : Nat) (msg : Bytes) (s : State) : State :=
  spdmReply conn msg (Config.spdmBody 0x04 msg []) (modConn conn (fun _ => { stage := 1 }) s)

def capabilitiesReply (conn : Nat) (msg : Bytes) (s : State) : State :=
  spdmReply conn msg (Config.spdmBody 0x61 msg []) (modConn conn (fun x => { x with stage := max 2 x.stage }) s)

def algorithmsReply (conn : Nat) (msg : Bytes) (rsa sha : Bool) (s : State) : State :=
  if rsa && sha then spdmReply conn msg (Config.spdmBody 0x63 msg []) (modConn conn (fun x => { x with stage := 3 }) s)
  else spdmFail conn spdmInvalid s

def digestsReply (conn : Nat) (msg : Bytes) (s : State) : State :=
  spdmReply conn msg (Config.spdmBody 0x01 msg [Config.sha384 (certChain 0), Config.sha384 (certChain 1)]) s

def certificateReply (conn : Nat) (msg : Bytes) (slot : BitVec 8) (offset length : BitVec 16) (s : State) : State :=
  let chain := certChain slot.toNat
  if 1 < slot.toNat || chain.length ≤ offset.toNat then spdmFail conn spdmInvalid s
  else
    let part := sub chain offset.toNat length.toNat
    spdmReply conn msg (Config.spdmBody 0x02 msg [part, leBytes 2 (chain.length - offset.toNat - part.length)]) s

def challengeReply (conn : Nat) (msg : Bytes) (slot : BitVec 8) (s : State) : State :=
  if slot ≠ 0 then spdmFail conn spdmInvalid s
  else if !s.sec.identity then spdmFail conn spdmUnspecified s
  else spdmSigned conn 0x03 msg [Config.sha384 (certChain 0)] s

/-- The reply to a GET_MEASUREMENTS that names the blocks `ks` (R518). -/
def blocksReply (conn : Nat) (msg : Bytes) (slot : BitVec 8) (signed : Bool) (ks : List Nat) (s : State) : State :=
  let vals := leBytes 1 8 :: ks.map (measurement s)
  if !signed then spdmReply conn msg (Config.spdmBody 0x60 msg vals) s
  else if slot ≠ 0 then spdmFail conn spdmInvalid s
  else if !s.sec.identity then spdmFail conn spdmUnspecified s
  else spdmSigned conn 0x60 msg vals s

def measurementsReply (conn : Nat) (msg : Bytes) (slot index : BitVec 8) (signed : Bool) (s : State) : State :=
  match askedBlocks index.toNat with
  | none => spdmFail conn spdmInvalid s
  | some ks => blocksReply conn msg slot signed ks s

def chunkTaken (conn : Nat) (chunk : Bytes) (last : Bool) (s : State) : State :=
  send (.spdm conn (Config.spdmBody 0x05 chunk [leBytes 1 (b2n last)])) (modConn conn (fun x => { x with inbound := x.inbound ++ chunk }) s)

def chunkGiven (conn size : Nat) (s : State) : State :=
  if (connOf s conn).outbound = [] then spdmFail conn spdmUnexpected s
  else send (.spdm conn ((connOf s conn).outbound.take size)) (modConn conn (fun x => { x with outbound := x.outbound.drop size }) s)

/-- The second signature over digest `d` waits for CHUNK_GET (R519). -/
def secondSigned (conn : Nat) (msg : Bytes) (d : Digest) (s : State) : State :=
  let resp := Config.spdmBody 0x7E msg [[0x81, 0, 0, 0] ++ Config.slhSign (Config.sha384 (vxpq ++ d))]
  spdmFail conn spdmLargeResponse
    (modConn conn (fun x => { x with outbound := resp, inbound := [], transcript := x.transcript ++ msg ++ resp }) s)

def pqReply (conn : Nat) (msg : Bytes) (s : State) : State :=
  match (connOf s conn).signed with
  | none => spdmFail conn spdmUnexpected s
  | some d => if !s.sec.identity then spdmFail conn spdmUnspecified s else secondSigned conn msg d s

/-! ## A request of an open connection (R433, R471, R517) -/

section Row

variable {conn : Nat} {s : State} (hopen : connOpen s conn = true) (hawake : coreSleeps s = false)
include hopen hawake

theorem spdmRow_serves (hruns : uzomelRuns s = true) {stage : Nat} (hstage : stage ≤ (connOf s conn).stage) {i : Instr}
    {f : State → State} : spdmRow i conn stage f s = .next (f s) := by
  simp [spdmRow, hopen, hawake, hruns, Nat.not_lt.2 hstage]

theorem spdmRow_unexpected (hruns : uzomelRuns s = true) {stage : Nat} (hstage : (connOf s conn).stage < stage) {i : Instr}
    {f : State → State} : spdmRow i conn stage f s = .next (spdmFail conn spdmUnexpected s) := by
  simp [spdmRow, hopen, hawake, hruns, hstage]

theorem spdmRow_busy (hstopped : uzomelRuns s = false) {i : Instr} {stage : Nat} {f : State → State} :
    spdmRow i conn stage f s = .next (spdmFail conn spdmBusy s) := by
  simp [spdmRow, hopen, hawake, hstopped]

/-- A request that the connection's stage allows completes in its effect, whose frame is security and messages sent. -/
theorem spdm_completes (hruns : uzomelRuns s = true) {c i : Instr} {stage : Nat} {f : State → State} {post : State → Prop}
    (hrow : exec c s = spdmRow i conn stage f s) (hstage : stage ≤ (connOf s conn).stage) (hpost : post (f s)) : Completes c s post :=
  ⟨f s, hrow.trans (spdmRow_serves hopen hawake hruns hstage), hpost⟩

end Row

variable {conn : Nat} {s : State}

theorem modConn_spdmReply_only (f : Conn → Conn) (msg resp : Bytes) : Only [.sec, .out] s (spdmReply conn msg resp (modConn conn f s)) :=
  ((modConn_only conn f s).mono rfl).trans (spdmReply_only ..)

theorem modConn_send_only (f : Conn → Conn) (m : OutMsg) : Only [.sec, .out] s (send m (modConn conn f s)) :=
  ((modConn_only conn f s).mono rfl).trans ((send_only ..).mono rfl)

/-- Settles O13: the row's guard is `spdmRow`, and a reply's transcript `connOf_spdmReply`. -/
theorem spdmSession : Obligations.SpdmSession := by
  refine ⟨fun conn msg s hopen hawake hruns => ?version, fun conn msg s hopen hawake hruns hstage => ?capabilities,
    fun conn msg rsa sha s hopen hawake hruns hstage => ?algorithms, fun conn msg s hopen hawake hruns hstage => ?unexpected,
    fun conn msg s hopen hawake hstopped => ?busy⟩
  case version =>
    have hrow : exec (.getVersion conn msg) s = spdmRow (.getVersion conn msg) conn 0 (versionReply conn msg) s := rfl
    exact spdm_completes hopen hawake hruns hrow (Nat.zero_le _) ⟨by simp [versionReply], rfl, modConn_spdmReply_only ..⟩
  case capabilities =>
    have hrow : exec (.getCapabilities conn msg) s = spdmRow (.getCapabilities conn msg) conn 1 (capabilitiesReply conn msg) s := rfl
    exact spdm_completes hopen hawake hruns hrow hstage ⟨by simp [capabilitiesReply], rfl, modConn_spdmReply_only ..⟩
  case algorithms =>
    have hrow : exec (.negotiateAlgorithms conn msg rsa sha) s =
      spdmRow (.negotiateAlgorithms conn msg rsa sha) conn 2 (algorithmsReply conn msg rsa sha) s := rfl
    refine spdm_completes hopen hawake hruns hrow hstage ?_
    unfold algorithmsReply
    split
    next => exact ⟨⟨by simp, rfl⟩, modConn_spdmReply_only ..⟩
    next => exact ⟨rfl, (spdmFail_only ..).mono rfl⟩
  case unexpected =>
    have hrow : exec (.getCapabilities conn msg) s = spdmRow (.getCapabilities conn msg) conn 1 (capabilitiesReply conn msg) s := rfl
    exact hrow.trans (spdmRow_unexpected hopen hawake hruns (by omega))
  case busy =>
    have hrow : exec (.getVersion conn msg) s = spdmRow (.getVersion conn msg) conn 0 (versionReply conn msg) s := rfl
    exact hrow.trans (spdmRow_busy hopen hawake hstopped)

/-- The blocks that GET_MEASUREMENTS names by an index (R518). -/
theorem askedBlocks_index {n : BitVec 8} (h : n.toNat ≤ 8 ∨ n = 0xFF) :
    askedBlocks n.toNat = some (if n = 0 then [] else if n = 0xFF then [1, 2, 3, 4, 5, 6, 7, 8] else [n.toNat]) := by
  have hzero : n.toNat = 0 ↔ n = 0 := by bv_omega
  obtain hle | rfl := h
  · have hne : n ≠ 0xFF := by
      rintro rfl
      exact absurd hle (by decide)
    rw [askedBlocks, if_neg hne]
    by_cases h0 : n = 0
    · rw [if_pos (hzero.2 h0), if_pos h0]
    · rw [if_neg (mt hzero.1 h0), if_neg h0, if_pos hle]
  · rfl

theorem execGetMeasurements_row (msg : Bytes) (slot index : BitVec 8) (signed : Bool) :
    exec (.getMeasurements conn msg slot index signed) s =
      spdmRow (.getMeasurements conn msg slot index signed) conn 3 (measurementsReply conn msg slot index signed) s := rfl

theorem measurementsReply_asked {index : BitVec 8} {ks : List Nat} (h : askedBlocks index.toNat = some ks) (msg : Bytes)
    (slot : BitVec 8) (signed : Bool) : measurementsReply conn msg slot index signed s = blocksReply conn msg slot signed ks s := by
  rw [measurementsReply, h]

theorem execPqSign_row (msg : Bytes) : exec (.pqSign conn msg) s = spdmRow (.pqSign conn msg) conn 0 (pqReply conn msg) s := rfl

/-- Settles O14: each request's effect has a name of its own, and what a signature keeps is `signed_spdmSigned`. -/
theorem spdmReads : Obligations.SpdmReads := by
  refine ⟨fun conn msg s hopen hawake hruns hstage => ?digests, fun conn msg slot offset length s hopen hawake hruns hstage => ?certificate,
    fun conn msg s hopen hawake hruns hstage hid => ?challenge, fun conn msg slot s hopen hawake hruns hstage hslot => ?badChallenge,
    fun conn msg slot index s hopen hawake hruns hstage hindex => ?unsigned,
    fun conn msg index s hopen hawake hruns hstage hindex hid => ?signed,
    fun conn msg slot index s hopen hawake hruns hstage hindex hslot => ?badSigned,
    fun conn chunk last s hopen hawake hruns hstage => ?chunkSend, fun conn size s hopen hawake hruns hstage hsome => ?chunkGet,
    fun conn msg d s hopen hawake hruns hsigned hid => ?pqSign, fun conn msg s hopen hawake hruns hnone => ?pqNone⟩
  case digests =>
    have hrow : exec (.getDigests conn msg) s = spdmRow (.getDigests conn msg) conn 3 (digestsReply conn msg) s := rfl
    exact spdm_completes hopen hawake hruns hrow hstage ⟨by simp [digestsReply], rfl, spdmReply_only ..⟩
  case certificate =>
    have hrow : exec (.getCertificate conn msg slot offset length) s =
      spdmRow (.getCertificate conn msg slot offset length) conn 3 (certificateReply conn msg slot offset length) s := rfl
    refine spdm_completes hopen hawake hruns hrow hstage ?_
    unfold certificateReply
    extract_lets chain part resp
    have hguard : (decide (1 < slot.toNat) || decide (chain.length ≤ offset.toNat)) = true ↔ 1 < slot.toNat ∨ chain.length ≤ offset.toNat := by
      simp
    by_cases hbad : 1 < slot.toNat ∨ chain.length ≤ offset.toNat
    · rw [if_pos (hguard.2 hbad), if_pos hbad]
      exact ⟨rfl, (spdmFail_only ..).mono rfl⟩
    · rw [if_neg (mt hguard.1 hbad), if_neg hbad]
      exact ⟨⟨rfl, by simp [resp, part]⟩, spdmReply_only ..⟩
  case challenge =>
    have hrow : exec (.challenge conn msg 0) s = spdmRow (.challenge conn msg 0) conn 3 (challengeReply conn msg 0) s := rfl
    refine spdm_completes hopen hawake hruns hrow hstage ?_
    have hreply : challengeReply conn msg 0 s = spdmSigned conn 0x03 msg [Config.sha384 (certChain 0)] s := by
      simp [challengeReply, hid]
    rw [hreply]
    exact ⟨signed_spdmSigned .., rfl, spdmSigned_only ..⟩
  case badChallenge =>
    have hrow : exec (.challenge conn msg slot) s = spdmRow (.challenge conn msg slot) conn 3 (challengeReply conn msg slot) s := rfl
    rw [hrow, spdmRow_serves hopen hawake hruns hstage, challengeReply, if_pos hslot]
    rfl
  case unsigned =>
    refine spdm_completes hopen hawake hruns (execGetMeasurements_row ..) hstage ?_
    rw [measurementsReply_asked (askedBlocks_index hindex)]
    exact ⟨rfl, spdmReply_only ..⟩
  case signed =>
    refine spdm_completes hopen hawake hruns (execGetMeasurements_row ..) hstage ?_
    rw [measurementsReply_asked (askedBlocks_index hindex)]
    extract_lets blocks body digest
    have hreply : blocksReply conn msg 0 true blocks s = spdmSigned conn 0x60 msg (leBytes 1 8 :: blocks.map (measurement s)) s := by
      simp [blocksReply, hid]
    rw [hreply]
    exact ⟨signed_spdmSigned .., rfl, spdmSigned_only ..⟩
  case badSigned =>
    rw [execGetMeasurements_row, spdmRow_serves hopen hawake hruns hstage, measurementsReply_asked (askedBlocks_index hindex)]
    simp only [blocksReply, Bool.not_true, Bool.false_eq_true, if_false, if_pos hslot]
    rfl
  case chunkSend =>
    have hrow : exec (.chunkSend conn chunk last) s = spdmRow (.chunkSend conn chunk last) conn 3 (chunkTaken conn chunk last) s := rfl
    exact spdm_completes hopen hawake hruns hrow hstage ⟨by simp [chunkTaken], rfl, modConn_send_only ..⟩
  case chunkGet =>
    have hrow : exec (.chunkGet conn size) s = spdmRow (.chunkGet conn size) conn 3 (chunkGiven conn size) s := rfl
    refine spdm_completes hopen hawake hruns hrow hstage ?_
    rw [chunkGiven, if_neg hsome]
    exact ⟨by simp, rfl, modConn_send_only ..⟩
  case pqSign =>
    refine spdm_completes hopen hawake hruns (execPqSign_row msg) (Nat.zero_le _) ?_
    have hreply : pqReply conn msg s = secondSigned conn msg d s := by simp [pqReply, hsigned, hid]
    rw [hreply]
    exact ⟨by simp [secondSigned, spdmFail], rfl, modConn_send_only ..⟩
  case pqNone =>
    rw [execPqSign_row, spdmRow_serves hopen hawake hruns (Nat.zero_le _), pqReply, hnone]
    rfl

end Sys2Proof.Laws
end

section
/-! SUPPORT. Firmware updates, the policy and the publisher keys (R503 to R505, R510 to R514). -/

namespace Sys2Proof.Laws

open Sys2Proof.Machine

variable {r : Requester} {b : Bytes} {s : State}

/-- A row that is one write of an object answers with what its effect gives for the value that the write carries. -/
theorem answers_of_effect {c i : Instr} {obj arg : Nat} {data : Bytes} {f : Bytes → State → Nat × State} {st : Nat} {u : State}
    {post : State → Prop} (hheard : heard s r obj arg = true) (hrow : exec c s = .next (ownWrite i r obj arg data f s))
    (heffect : f (valueFrom s r data) s = (st, u)) (hpost : post u) : Answers c s r st post := by
  obtain ⟨rep, hown, hstatus⟩ := ownWrite_answers (i := i) (data := data) (f := f) hheard
  rw [heffect] at hown hstatus
  exact ⟨rep, u, hrow.trans (congrArg Host.Outcome.next hown), hstatus, hpost⟩

theorem privWrite_allowed (h : reqPrivileged s r = true) (f : Bytes → State → Nat × State) (b : Bytes) : privWrite r f b s = f b s :=
  if_pos h

/-! ## Staging and committing (R503, R504) -/

/-- The image is staged, and the first check that it fails is reported (R498, R503). -/
def imageStaged (b : Bytes) (reason : Nat) (s : State) : State :=
  let u := (takeFree (modSec (fun x => { x with stage := b, stageId := BitVec.ofNat 32 (fld (firmwareHash b) 0 4) }) s)).2
  if reason = 0 then setStageStatus (Config.freeNat s.free % 5) 0 u else setStageStatus 5 reason u

theorem stageWrite_stages (hidle : s.sec.slotWriting = false) (hb : b ≠ []) :
    stageWrite b s = (St.success, imageStaged b (if slotBytes < b.length then 2 else imageReason s b true) s) := by
  rw [stageWrite, if_neg (by simp [hidle]), if_neg hb]
  rfl

theorem stageWrite_busy (hwriting : s.sec.slotWriting = true) (b : Bytes) : stageWrite b s = (St.busy, s) := if_pos hwriting

/-- The free STATE code of an image that has passed is none that says REJECTED. -/
theorem ofNat_mod_ne_rejected (n : Nat) : BitVec.ofNat 4 (n % 5) ≠ 5 := by
  have := Nat.mod_lt n (by decide : 0 < 5)
  bv_omega

theorem imageStaged_sec (b : Bytes) (reason : Nat) (s : State) : (imageStaged b reason s).sec.stage = b ∧
    (imageStaged b reason s).sec.stageId = BitVec.ofNat 32 (fld (firmwareHash b) 0 4) ∧
    (imageStaged b reason s).sec.stageReason = BitVec.ofNat 8 reason ∧
    ((imageStaged b reason s).sec.stageState = 5 ↔ reason ≠ 0) := by
  unfold imageStaged
  extract_lets u
  split
  next hpass =>
    subst hpass
    exact ⟨rfl, rfl, rfl, fun h => absurd h (ofNat_mod_ne_rejected _), fun h => absurd rfl h⟩
  next hfails => exact ⟨rfl, rfl, rfl, fun _ => hfails, fun _ => rfl⟩

theorem commitFirmware_starts (hlen : b.length = 4) (hid : leNat b = s.sec.stageId.toNat) (hpassed : stagePassed s = true)
    (hidle : s.sec.slotWriting = false) :
    commitFirmware b s = (St.success, setStageStatus 3 0 (modSec (fun x => { x with slotWriting := true }) s)) := by
  simp [commitFirmware, hlen, hid, hpassed, hidle]

theorem commitFirmware_otherId (hid : leNat b ≠ s.sec.stageId.toNat) : commitFirmware b s = (St.outOfRange, s) := by
  simp [commitFirmware, hid]

/-! ## The end of the slot write (R504, R505) -/

/-- The slot write has ended, and its status is reported. -/
def slotWriteEnded (ok : Bool) (s : State) : State :=
  let s := modSec (fun x => { x with slotWriting := false }) s
  if ok then setStageStatus 4 0 (slotWritten s.sec.stage s) else setStageStatus 5 10 (slotSpoilt s)

theorem slotWriteEnded_only (ok : Bool) (s : State) : Only [.sec] s (slotWriteEnded ok s) := by
  cases ok
  · exact ⟨⟨rfl, rfl, rfl, rfl⟩, fun p hp => by cases p <;> first | rfl | exact ⟨rfl, rfl, rfl⟩ | exact absurd (by decide) hp⟩
  · exact ⟨⟨rfl, rfl, rfl, rfl⟩, fun p hp => by cases p <;> first | rfl | exact ⟨rfl, rfl, rfl⟩ | exact absurd (by decide) hp⟩

theorem slotWriteEnded_deferred (ok : Bool) (s : State) : (slotWriteEnded ok s).sec.deferredReset = s.sec.deferredReset := by
  cases ok <;> rfl

theorem execFwSlotWriteDone_eq (ok : Bool) (hwriting : s.sec.slotWriting = true) : execFwSlotWriteDone ok s =
    .next (if s.sec.deferredReset.isSome then startReset .request (slotWriteEnded ok s) else slotWriteEnded ok s) := by
  rw [execFwSlotWriteDone, if_neg (by simp [hwriting]), ← slotWriteEnded_deferred ok s]
  rfl

/-- What a requested reset keeps of the slot, and how the boot ROM learns of a recovery that was asked for (R505, R506). -/
theorem startReset_request (s : State) : (startReset .request s).power.phase = .aux ∧ (startReset .request s).sec.slotWriting = false ∧
    (startReset .request s).sec.slot = s.sec.slot ∧
    (startReset .request s).sec.recoveryAsked = decide (s.sec.deferredReset = some 2) :=
  ⟨rfl, rfl, rfl, Bool.and_true _⟩

/-- Settles O15: each write is `ownWrite` of its effect, and the slot write ends in `slotWriteEnded`. -/
theorem firmwareUpdate : Obligations.FirmwareUpdate := by
  refine ⟨fun r image s hheard hpriv hidle hsome => ?stages, fun r image s hheard hpriv hwriting => ?busy,
    fun r data s hheard hpriv hlen hid hpassed hidle => ?commits, fun r data s hheard hpriv hid => ?otherId,
    fun ok s hwriting hnone => ?ends, fun ok s hwriting hsome => ?resets, fun r data n s hheard hpriv hvalue hn => ?asks,
    fun r data s hheard hpriv h1 h2 => ?otherReset⟩
  case stages =>
    have hwrite := (privWrite_allowed hpriv stageWrite (valueFrom s r image)).trans (stageWrite_stages hidle hsome)
    obtain ⟨hstage, hstageId, hreason, hstate⟩ := imageStaged_sec (valueFrom s r image)
      (if slotBytes < (valueFrom s r image).length then 2 else imageReason s (valueFrom s r image) true) s
    have hframe := stageWrite_only (valueFrom s r image) s
    rw [stageWrite_stages hidle hsome] at hframe
    exact answers_of_effect hheard rfl hwrite ⟨hstage, hstageId, hreason, hstate, hframe⟩
  case busy => exact answers_of_effect hheard rfl ((privWrite_allowed hpriv ..).trans (stageWrite_busy hwriting _)) rfl
  case commits =>
    have hwrite := (privWrite_allowed hpriv commitFirmware (valueFrom s r data)).trans (commitFirmware_starts hlen hid hpassed hidle)
    have hframe := commitFirmware_only (valueFrom s r data) s
    rw [commitFirmware_starts hlen hid hpassed hidle] at hframe
    exact answers_of_effect hheard rfl hwrite ⟨rfl, hframe⟩
  case otherId => exact answers_of_effect hheard rfl ((privWrite_allowed hpriv ..).trans (commitFirmware_otherId hid)) rfl
  case ends =>
    refine ⟨_, execFwSlotWriteDone_eq ok hwriting, ?_⟩
    rw [if_neg (by simp [hnone])]
    refine ⟨by cases ok <;> rfl, slotWriteEnded_only ok s, ?_⟩
    cases ok
    · exact ⟨rfl, rfl, rfl⟩
    · exact ⟨rfl, rfl, rfl, rfl⟩
  case resets =>
    refine ⟨_, execFwSlotWriteDone_eq ok hwriting, ?_⟩
    rw [if_pos hsome]
    obtain ⟨hphase, hdone, hslot, hasked⟩ := startReset_request (slotWriteEnded ok s)
    refine ⟨hphase, hdone, hslot.trans ?_, hasked.trans ?_⟩
    · cases ok <;> rfl
    · rw [slotWriteEnded_deferred]
  case asks =>
    have hwrite : resetWrite (valueFrom s r data) s = (St.success, modSec (fun x => { x with deferredReset := some n }) s) := by
      obtain rfl | rfl := hn <;> simp [resetWrite, hvalue]
    have hframe := resetWrite_only (valueFrom s r data) s
    rw [hwrite] at hframe
    exact answers_of_effect hheard rfl ((privWrite_allowed hpriv ..).trans hwrite) ⟨rfl, hframe⟩
  case otherReset =>
    have hwrite : resetWrite (valueFrom s r data) s = (St.outOfRange, s) := by rw [resetWrite, if_neg h1, if_neg h2]
    exact answers_of_effect hheard rfl ((privWrite_allowed hpriv ..).trans hwrite) rfl

/-! ## The policy and the keys (R510, R513, R514) -/

theorem policyWrite_value (hpriv : reqPrivileged s r = true) (hlen : b.length = 8) : policyWrite r b s =
    if policyRefused s (BitVec.ofNat 64 (leNat b)) then (St.outOfRange, s)
    else (St.success, modSec (fun x => { x with policy := BitVec.ofNat 64 (leNat b) }) s) := by
  have hsome : b ≠ [] := List.ne_nil_of_length_pos (by omega)
  rw [policyWrite, if_neg (by simp [hpriv, hsome]), if_neg (by simp [hlen])]

/-- A value has a bit that the old one lacks exactly where masking it with the old one changes it. -/
theorem and_ne_iff {new old : BitVec 64} : new &&& old ≠ new ↔ ∃ n, n < 64 ∧ new.getLsbD n = true ∧ old.getLsbD n = false := by
  constructor
  · intro hne
    by_contra hnone
    push Not at hnone
    refine hne (BitVec.eq_of_getLsbD_eq fun n hn => ?_)
    rw [BitVec.getLsbD_and]
    cases hnew : new.getLsbD n with
    | false => rfl
    | true => simpa using hnone n hn hnew
  · rintro ⟨n, -, hnew, hold⟩ heq
    rw [← heq, BitVec.getLsbD_and, hold, Bool.and_false] at hnew
    exact absurd hnew (by decide)

theorem policyRefused_iff (s : State) (new : BitVec 64) : policyRefused s new = true ↔
    (∃ n, n < 64 ∧ new.getLsbD n = true ∧ s.sec.policy.getLsbD n = false) ∨
    (∃ n, n < 64 ∧ clearsBit s.sec.policy new n = true ∧
      (7 ≤ n ∨ (n = 3 ∧ (s.sec.runningKey = 0 ∨ new.getLsbD 4 = false)) ∨ (n = 4 ∧ (s.sec.runningKey = 1 ∨ new.getLsbD 3 = false)) ∨
        (n = 5 ∧ new.getLsbD 6 = false) ∨ (n = 6 ∧ new.getLsbD 5 = false))) := by
  have hres : (List.range 57).any (fun i => clearsBit s.sec.policy new (i + 7)) = true ↔
      ∃ n, n < 64 ∧ clearsBit s.sec.policy new n = true ∧ 7 ≤ n := by
    rw [List.any_eq_true]
    constructor
    · rintro ⟨i, hi, hgone⟩
      exact ⟨i + 7, by have := List.mem_range.1 hi; omega, hgone, by omega⟩
    · rintro ⟨n, hn, hgone, h7⟩
      exact ⟨n - 7, List.mem_range.2 (by omega), by rwa [Nat.sub_add_cancel h7]⟩
  simp only [policyRefused, Bool.or_eq_true, Bool.and_eq_true, decide_eq_true_eq, Bool.not_eq_true', hres, ← and_ne_iff]
  constructor
  · rintro (((((hnew | ⟨n, hn, hgone, h7⟩) | h3) | h4) | h5) | h6)
    · exact .inl hnew
    · exact .inr ⟨n, hn, hgone, .inl h7⟩
    · exact .inr ⟨3, by decide, h3.1, .inr (.inl ⟨rfl, h3.2⟩)⟩
    · exact .inr ⟨4, by decide, h4.1, .inr (.inr (.inl ⟨rfl, h4.2⟩))⟩
    · exact .inr ⟨5, by decide, h5.1, .inr (.inr (.inr (.inl ⟨rfl, h5.2⟩)))⟩
    · exact .inr ⟨6, by decide, h6.1, .inr (.inr (.inr (.inr ⟨rfl, h6.2⟩)))⟩
  · rintro (hnew | ⟨n, hn, hgone, h7 | ⟨rfl, h3⟩ | ⟨rfl, h4⟩ | ⟨rfl, h5⟩ | ⟨rfl, h6⟩⟩)
    · exact .inl (.inl (.inl (.inl (.inl hnew))))
    · exact .inl (.inl (.inl (.inl (.inr ⟨n, hn, hgone, h7⟩))))
    · exact .inl (.inl (.inl (.inr ⟨hgone, h3⟩)))
    · exact .inl (.inl (.inr ⟨hgone, h4⟩))
    · exact .inl (.inr ⟨hgone, h5⟩)
    · exact .inr ⟨hgone, h6⟩

section Key

variable {n : Nat} (hpriv : reqPrivileged s r = true) (hn : n < 16)
include hpriv hn

theorem keyWrite_closed (hclosed : s.sec.policy.getLsbD 2 = false) : keyWrite r n b s = (St.accessDenied, s) := by
  rw [keyWrite, if_neg (by simp [hpriv]), if_neg (by omega), if_pos (by rw [hclosed]; rfl)]

variable (hopen : s.sec.policy.getLsbD 2 = true)
include hopen

theorem keyWrite_installs (hlen : b.length = 512) (hstate : fld b 0 1 = 1) (hempty : (tget s.sec.keys n {}).trusted = false)
    (hformed : keyFormed b = true) : keyWrite r n b s = (St.success, keepKey n (some (keyOfRecord b)) s) := by
  rw [keyWrite, if_neg (by simp [hpriv]), if_neg (by omega), if_neg (by rw [hopen]; decide), if_neg (by simp [hlen]), if_pos hstate,
    if_neg (by rw [hempty, hformed]; decide)]

theorem keyWrite_empties (hunnamed : keyNamed s n = false) : keyWrite r n [] s = (St.success, keepKey n none s) := by
  have hzero : fld [] 0 1 = 0 := by decide
  rw [keyWrite, if_neg (by simp [hpriv]), if_neg (by omega), if_neg (by rw [hopen]; decide), if_neg (by simp), if_neg (by omega),
    if_pos hzero, if_neg (by simp [hunnamed])]

end Key

theorem keepKey_sec (n : Nat) (k : Option PubKey) (s : State) : (keepKey n k s).sec =
    { s.sec with keys := match k with | some k => tset s.sec.keys n k | none => tdel s.sec.keys n } := by
  cases k <;> simp [keepKey, modSec]

/-- Settles O16: the effects are `policyWrite` and `keyWrite`; what a refusal names bit by bit is `policyRefused_iff`. -/
theorem policyAndKeyWrites : Obligations.PolicyAndKeyWrites := by
  refine ⟨fun r data s hheard hpriv hlen => ?policy, policyRefused_iff, fun r data s hheard hplain => ?denied,
    fun r n data s hheard hpriv hn hopen hlen hstate hempty hformed => ?installs,
    fun r n data s hheard hpriv hn hopen hnil hunnamed => ?empties, fun r n data s hheard hpriv hn hclosed => ?closed⟩
  case policy =>
    extract_lets new
    have hwrite := policyWrite_value hpriv hlen
    have hframe := policyWrite_only r (valueFrom s r data) s
    rw [hwrite] at hframe
    split
    next href => exact answers_of_effect hheard rfl (hwrite.trans (if_pos href)) rfl
    next hok =>
      rw [if_neg hok] at hframe
      exact answers_of_effect hheard rfl (hwrite.trans (if_neg hok)) ⟨rfl, hframe⟩
  case denied =>
    have hwrite : policyWrite r (valueFrom s r data) s = (St.accessDenied, s) := by simp [policyWrite, hplain]
    exact answers_of_effect hheard rfl hwrite rfl
  case installs =>
    exact answers_of_effect hheard rfl (keyWrite_installs hpriv hn hopen hlen hstate hempty hformed)
      ⟨keepKey_sec .., (keepKey_only ..).mono rfl⟩
  case empties =>
    have hwrite : keyWrite r n (valueFrom s r data) s = (St.success, keepKey n none s) := by
      rw [hnil]
      exact keyWrite_empties hpriv hn hopen hunnamed
    exact answers_of_effect hheard rfl hwrite ⟨keepKey_sec .., (keepKey_only ..).mono rfl⟩
  case closed => exact answers_of_effect hheard rfl (keyWrite_closed hpriv hn hclosed) rfl

end Sys2Proof.Laws
end

section
/-! SUPPORT. Monitors: the bin of a sample, the sample, the merge and the clear (R441 to R444). -/

namespace Sys2Proof.Laws

open Sys2Proof.Machine

/-! ## Bins (R442) -/

theorem monBin_pos {v : Nat} (h : v ≠ 0) : monBin v = min 31 (Nat.log2 v + 1) := if_neg h

theorem monBin_eq_zero {v : Nat} : monBin v = 0 ↔ v = 0 := by
  constructor
  · intro h
    by_contra hv
    rw [monBin_pos hv] at h
    omega
  · rintro rfl
    rfl

theorem monBin_eq_iff {v k : Nat} (h1 : 1 ≤ k) (h30 : k ≤ 30) : monBin v = k ↔ 2 ^ (k - 1) ≤ v ∧ v < 2 ^ k := by
  obtain rfl | hv := eq_or_ne v 0
  · simp only [monBin_eq_zero.2 rfl]
    constructor
    · omega
    · rintro ⟨hle, -⟩
      exact absurd hle (Nat.not_le.2 (Nat.two_pow_pos _))
  · rw [monBin_pos hv, ← Nat.le_log2 hv, ← Nat.log2_lt hv]
    omega

theorem monBin_eq_last {v : Nat} : monBin v = 31 ↔ 2 ^ 30 ≤ v := by
  obtain rfl | hv := eq_or_ne v 0
  · simp [monBin_eq_zero.2 rfl]
  · rw [monBin_pos hv, ← Nat.le_log2 hv]
    omega

/-! ## One sample (R441) -/

theorem monSample_spec {v : Nat} (m : Mon) (hv : v < 2 ^ 32) : (monSample v m).count = m.count + 1 ∧
    (monSample v m).sum = m.sum + BitVec.ofNat 64 v ∧ (monSample v m).min.toNat = min m.min.toNat v ∧
    (monSample v m).max.toNat = max m.max.toNat v ∧ (monSample v m).last.toNat = v ∧
    ∀ k, tget (monSample v m).bins k 0 = tget m.bins k 0 + (if k = monBin v then 1 else 0) := by
  have hcap : min v 0xFFFFFFFF = v := by omega
  have hmin := m.min.isLt
  have hmax := m.max.isLt
  unfold monSample
  rw [hcap]
  refine ⟨rfl, rfl, ?_, ?_, ?_, fun k => ?_⟩
  · exact Nat.mod_eq_of_lt (lt_of_le_of_lt (Nat.min_le_right ..) hv)
  · exact Nat.mod_eq_of_lt (Nat.max_lt.2 ⟨hmax, hv⟩)
  · exact Nat.mod_eq_of_lt hv
  · dsimp only
    rw [tget_tmod]
    split
    next h => rw [h]
    next => simp

theorem monOf_sample_self (obj unit v : Nat) (s : State) : monOf (sample obj unit v s) obj unit = monSample v (monOf s obj unit) :=
  tget_tset_self ..

theorem monitors_sample_ne {obj unit k : Nat} (v : Nat) (s : State) (h : k ≠ okey obj unit) :
    tget? (sample obj unit v s).dict.monitors k = tget? s.dict.monitors k :=
  tget?_tset_ne _ _ h

/-! ## The merge of a keyed monitor (R442) -/

/-- Adding a field over a run of merges. -/
theorem foldl_monMerge_add {f : Mon → BitVec 64} (hf : ∀ a b, f (monMerge a b) = f a + f b) (us : List Mon) (m : Mon) :
    f (us.foldl monMerge m) = f m + (us.map f).sum := by
  induction us generalizing m with
  | nil => simp
  | cons u us ih => rw [List.foldl_cons, ih, hf, List.map_cons, List.sum_cons, BitVec.add_assoc]

theorem tget_eq_zero_of_not_mem {t : Tab (BitVec 64)} {k : Nat} (h : k ∉ tkeys t) : tget t k 0 = 0 := by
  induction t with
  | nil => rfl
  | cons e t ih =>
    obtain ⟨n, v⟩ := e
    simp only [tkeys, List.map_cons, List.mem_cons, not_or] at h
    simpa [tget, tget?, Ne.symm h.1] using ih h.2

/-- Adding the listed bins of one record to another adds each bin's count. -/
theorem tget_foldl_addBins (l t : Tab (BitVec 64)) (hl : (tkeys l).Nodup) (k : Nat) :
    tget (l.foldl (fun t e => tmod t e.1 0 fun c => c + e.2) t) k 0 = tget t k 0 + tget l k 0 := by
  induction l generalizing t with
  | nil => simp [tget, tget?]
  | cons e l ih =>
    obtain ⟨n, v⟩ := e
    obtain ⟨hn, hl⟩ := List.nodup_cons.1 hl
    rw [List.foldl_cons, ih _ hl, tget_tmod]
    split
    next h =>
      subst h
      rw [tget_eq_zero_of_not_mem hn]
      simp [tget, tget?]
    next h =>
      have hlist : tget ((n, v) :: l) k 0 = tget l k 0 := by simp [tget, tget?, Ne.symm h]
      rw [hlist]

theorem bins_foldl_monMerge (us : List Mon) (m : Mon) (hus : ∀ u ∈ us, (tkeys u.bins).Nodup) (k : Nat) :
    tget (us.foldl monMerge m).bins k 0 = tget m.bins k 0 + (us.map fun u => tget u.bins k 0).sum := by
  induction us generalizing m with
  | nil => simp
  | cons u us ih =>
    rw [List.foldl_cons, ih _ fun w hw => hus w (.tail _ hw), List.map_cons, List.sum_cons, ← BitVec.add_assoc]
    congr 1
    exact tget_foldl_addBins u.bins m.bins (hus u (.head _)) k

theorem min_monMerge (a b : Mon) : (monMerge a b).min.toNat ≤ a.min.toNat ∧ (monMerge a b).min.toNat ≤ b.min.toNat ∧
    ((monMerge a b).min = a.min ∨ (monMerge a b).min = b.min) := by
  unfold monMerge
  dsimp only
  split <;> exact ⟨by omega, by omega, by simp⟩

theorem max_monMerge (a b : Mon) : a.max.toNat ≤ (monMerge a b).max.toNat ∧ b.max.toNat ≤ (monMerge a b).max.toNat ∧
    ((monMerge a b).max = a.max ∨ (monMerge a b).max = b.max) := by
  unfold monMerge
  dsimp only
  split <;> exact ⟨by omega, by omega, by simp⟩

theorem min_foldl_monMerge (us : List Mon) (m : Mon) : (us.foldl monMerge m).min.toNat ≤ m.min.toNat ∧
    (∀ u ∈ us, (us.foldl monMerge m).min.toNat ≤ u.min.toNat) ∧
    ((us.foldl monMerge m).min = m.min ∨ ∃ u ∈ us, (us.foldl monMerge m).min = u.min) := by
  induction us generalizing m with
  | nil => exact ⟨Nat.le_refl _, nofun, .inl rfl⟩
  | cons u us ih =>
    obtain ⟨hm, hus, hone⟩ := ih (monMerge m u)
    obtain ⟨hleft, hright, hwhich⟩ := min_monMerge m u
    refine ⟨hm.trans hleft, fun w hw => ?_, ?_⟩
    · obtain rfl | hw := List.mem_cons.1 hw
      · exact hm.trans hright
      · exact hus w hw
    · obtain h | ⟨w, hw, h⟩ := hone
      · rw [List.foldl_cons, h]
        exact hwhich.imp_right fun hu => ⟨u, .head _, hu⟩
      · exact .inr ⟨w, .tail _ hw, h⟩

theorem max_foldl_monMerge (us : List Mon) (m : Mon) : m.max.toNat ≤ (us.foldl monMerge m).max.toNat ∧
    (∀ u ∈ us, u.max.toNat ≤ (us.foldl monMerge m).max.toNat) ∧
    ((us.foldl monMerge m).max = m.max ∨ ∃ u ∈ us, (us.foldl monMerge m).max = u.max) := by
  induction us generalizing m with
  | nil => exact ⟨Nat.le_refl _, nofun, .inl rfl⟩
  | cons u us ih =>
    obtain ⟨hm, hus, hone⟩ := ih (monMerge m u)
    obtain ⟨hleft, hright, hwhich⟩ := max_monMerge m u
    refine ⟨hleft.trans hm, fun w hw => ?_, ?_⟩
    · obtain rfl | hw := List.mem_cons.1 hw
      · exact hright.trans hm
      · exact hus w hw
    · obtain h | ⟨w, hw, h⟩ := hone
      · rw [List.foldl_cons, h]
        exact hwhich.imp_right fun hu => ⟨u, .head _, hu⟩
      · exact .inr ⟨w, .tail _ hw, h⟩

/-- The records of a monitor's units. -/
def unitRecords (s : State) (obj : Nat) : List Mon := (s.dict.monitors.filter fun e => e.1 / 2 ^ 64 = obj).map Prod.snd

/-- The merge of a monitor, but for LAST. -/
theorem monAll_eq (s : State) (obj : Nat) : monAll s obj =
    { (unitRecords s obj).foldl monMerge (monEmpty s obj) with
      last := ((tget? s.dict.monLast obj).map fun u => (monOf s obj u).last).getD
        ((unitRecords s obj).foldl monMerge (monEmpty s obj)).last } := by
  rw [unitRecords, List.foldl_map, monAll]
  cases tget? s.dict.monLast obj <;> rfl

/-- The least MIN is some unit's: an empty record's MIN is the largest value of the field. -/
theorem exists_min_foldl {us : List Mon} {m : Mon} (hm : m.min = 0xFFFFFFFF) (hus : us ≠ []) :
    ∃ u ∈ us, (us.foldl monMerge m).min = u.min := by
  obtain ⟨-, hle, hone⟩ := min_foldl_monMerge us m
  refine hone.elim (fun h => ?_) id
  obtain ⟨u, hu⟩ := List.exists_mem_of_ne_nil us hus
  refine ⟨u, hu, ?_⟩
  have hu := hle u hu
  rw [h, hm] at hu ⊢
  bv_omega

/-- The largest MAX is some unit's: an empty record's MAX is 0. -/
theorem exists_max_foldl {us : List Mon} {m : Mon} (hm : m.max = 0) (hus : us ≠ []) :
    ∃ u ∈ us, (us.foldl monMerge m).max = u.max := by
  obtain ⟨-, hle, hone⟩ := max_foldl_monMerge us m
  refine hone.elim (fun h => ?_) id
  obtain ⟨u, hu⟩ := List.exists_mem_of_ne_nil us hus
  refine ⟨u, hu, ?_⟩
  have hu := hle u hu
  rw [h, hm] at hu ⊢
  bv_omega

/-- The monitors that have units (R443). -/
def keyedMonitors : List Nat := [ob 0x9010 0, ob 0x9011 0, ob 0x9012 0, ob 0x9031 0]

theorem recordBytes_monitor {obj : Nat} (h : obj ∈ keyedMonitors) (s : State) : recordBytes s obj mergeArg = some (monBytes obj (monAll s obj)) := by
  simp only [keyedMonitors, List.mem_cons, List.not_mem_nil, or_false] at h
  obtain rfl | rfl | rfl | rfl := h <;> rfl

/-- The definition of a monitor that has units: a record, keyed by unit. -/
theorem findObj_monitor {obj : Nat} (h : obj ∈ keyedMonitors) (liquid : Bool) : ∃ d, findObj liquid obj = some d ∧ d.obj = obj ∧
    d.acc = .ro ∧ (d.key = .pair ∨ d.key = .island ∨ d.key = .tjSensor) := by
  simp only [keyedMonitors, List.mem_cons, List.not_mem_nil, or_false] at h
  obtain rfl | rfl | rfl | rfl := h
  · exact ⟨objBlob 0x9010 0 .pair, by cases liquid <;> rfl, rfl, rfl, .inl rfl⟩
  · exact ⟨objBlob 0x9011 0 .island, by cases liquid <;> rfl, rfl, rfl, .inr (.inl rfl)⟩
  · exact ⟨objBlob 0x9012 0 .island, by cases liquid <;> rfl, rfl, rfl, .inr (.inl rfl)⟩
  · exact ⟨objBlob 0x9031 0 .tjSensor, by cases liquid <;> rfl, rfl, rfl, .inr (.inr rfl)⟩

/-- The merge argument names every unit of a monitor that has units (R442). -/
theorem keyOk_merge {obj : Nat} (h : obj ∈ keyedMonitors) (s : State) {d : ObjDef} (hobj : d.obj = obj)
    (hkey : d.key = .pair ∨ d.key = .island ∨ d.key = .tjSensor) : keyOk s d mergeArg = true := by
  have hmon : monObjs.contains obj = true := by
    simp only [keyedMonitors, List.mem_cons, List.not_mem_nil, or_false] at h
    obtain rfl | rfl | rfl | rfl := h <;> decide
  unfold keyOk
  rw [hobj, hmon]
  obtain hk | hk | hk := hkey <;> rw [hk] <;> simp

theorem readObject_merge {obj : Nat} (h : obj ∈ keyedMonitors) (s : State) (priv : Bool) :
    readObject s priv obj mergeArg [] false = .inr (monBytes obj (monAll s obj)) := by
  obtain ⟨d, hfind, hobj, hacc, hkey⟩ := findObj_monitor h s.liquid
  have hplain : d.obj ≠ ob 0x7041 0 ∧ d.obj ≠ ob 0x1002 2 := by
    rw [hobj]
    simp only [keyedMonitors, List.mem_cons, List.not_mem_nil, or_false] at h
    obtain rfl | rfl | rfl | rfl := h <;> decide
  rw [readObject_allowed hfind (by simp [hacc]), objValue, keyOk_merge h s hobj hkey, if_neg (by decide), if_neg hplain.1,
    if_neg hplain.2, hobj, recordBytes_monitor h s]
  rfl

/-! ## The clear (R444) -/

theorem clearWrite_names {b : Bytes} (s : State) (h : b.length = 4 ∧ ob (leNat b / 65536) (leNat b / 256 % 256) ∈ monObjs) :
    clearWrite b s = (St.success, monClearAll (ob (leNat b / 65536) (leNat b / 256 % 256)) s) := by
  simp [clearWrite, h.1, h.2]

theorem clearWrite_other {b : Bytes} (s : State) (h : ¬(b.length = 4 ∧ ob (leNat b / 65536) (leNat b / 256 % 256) ∈ monObjs)) :
    clearWrite b s = (St.outOfRange, s) := by
  simp only [clearWrite, Bool.and_eq_true, decide_eq_true_eq, List.contains_iff_mem, if_neg h]

theorem monitors_monClearAll (obj k : Nat) (s : State) : tget? (monClearAll obj s).dict.monitors k =
    (tget? s.dict.monitors k).map fun m => if k / 2 ^ 64 = obj then monCleared s m else m := by
  have hmap : (monClearAll obj s).dict.monitors =
      s.dict.monitors.map fun e => (e.1, if e.1 / 2 ^ 64 = obj then monCleared s e.2 else e.2) := by
    refine List.map_congr_left fun e _ => ?_
    split <;> rfl
  rw [hmap]
  exact tget?_map s.dict.monitors k fun n m => if n / 2 ^ 64 = obj then monCleared s m else m

theorem monitors_monClearAll_self {obj k : Nat} (h : k / 2 ^ 64 = obj) (s : State) :
    tget? (monClearAll obj s).dict.monitors k = (tget? s.dict.monitors k).map (monCleared s) := by
  rw [monitors_monClearAll]
  exact congrArg (Option.map · _) (funext fun m => if_pos h)

theorem monitors_monClearAll_ne {obj k : Nat} (h : k / 2 ^ 64 ≠ obj) (s : State) :
    tget? (monClearAll obj s).dict.monitors k = tget? s.dict.monitors k := by
  rw [monitors_monClearAll]
  exact (congrArg (Option.map · _) (funext fun m => if_neg h)).trans Option.map_id'

/-- Settles O44: bins by logarithms, the merge by induction over the units, and the clear by one map of the records. -/
theorem monitorsSampleAndClear : Obligations.MonitorsSampleAndClear := by
  refine ⟨fun v => monBin_eq_zero, fun v k h1 h30 => monBin_eq_iff h1 h30, fun v => monBin_eq_last, fun v m hv => monSample_spec m hv,
    fun s obj => ?merge, fun s priv obj h => readObject_merge h s priv, fun mv s hon => ?vcore, fun s hrails => ?occupancy,
    fun r data s hheard => ?clear⟩
  case merge =>
    intro us m hus
    have hm : m = _ := monAll_eq s obj
    refine ⟨?_, ?_, fun k => ?_, fun u hu => ⟨?_, ?_⟩, fun hne => ⟨?_, ?_⟩, fun unit hunit => ?_⟩
    · rw [hm]
      exact (foldl_monMerge_add (f := Mon.count) (fun _ _ => rfl) _ _).trans (BitVec.zero_add _)
    · rw [hm]
      exact (foldl_monMerge_add (f := Mon.sum) (fun _ _ => rfl) _ _).trans (BitVec.zero_add _)
    · rw [hm]
      exact (bins_foldl_monMerge (unitRecords s obj) (monEmpty s obj) hus k).trans (BitVec.zero_add _)
    · rw [hm]
      exact (min_foldl_monMerge (unitRecords s obj) (monEmpty s obj)).2.1 u hu
    · rw [hm]
      exact (max_foldl_monMerge (unitRecords s obj) (monEmpty s obj)).2.1 u hu
    · rw [hm]
      exact exists_min_foldl (us := unitRecords s obj) rfl hne
    · rw [hm]
      exact exists_max_foldl (us := unitRecords s obj) rfl hne
    · rw [hm, hunit]
      rfl
  case vcore =>
    have hexec : execVcoreSample mv s = .next (sample (ob 0x9030 1) 0 mv.toNat s) := if_neg (by simpa using hon)
    exact ⟨_, hexec, monOf_sample_self .., fun k => monitors_sample_ne _ s, sample_only ..⟩
  case occupancy =>
    have hexec : execOccupancySample s = .next (sample (ob 0x9020 1) 0 (handlesHeld s) s) := if_neg hrails
    exact ⟨_, hexec, monOf_sample_self .., fun k => monitors_sample_ne _ s, sample_only ..⟩
  case clear =>
    intro v obj
    by_cases hnames : v.length = 4 ∧ obj ∈ monObjs
    · rw [if_pos hnames]
      refine answers_of_effect hheard rfl (clearWrite_names s hnames) ⟨monClearAll_only .., fun k => ⟨fun hk => ?_, fun hk => ?_⟩⟩
      · exact monitors_monClearAll_ne hk s
      · exact monitors_monClearAll_self hk s
    · rw [if_neg hnames]
      exact answers_of_effect hheard rfl (clearWrite_other s hnames) rfl

end Sys2Proof.Laws
end

section
/-! SUPPORT. The gate of the register interface: which offsets name a register, and what every row of a register write does
once the gate is known (R445, R447, R459, R461). -/

namespace Sys2Proof.Laws

open Sys2Proof.Machine

/-! ## The offsets of registers (R461) -/

/-- An offset of BAR0 that is no word of an MSI-X table (R351, R445). -/
def RegOffset (o : Nat) : Prop := o < 0x800000 ∧ ¬(0x500000 ≤ o ∧ o < 0x508100)

theorem inGroupAt_range {o base stride count : Nat} {offs : List Nat} (h : inGroupAt o base stride count offs = true) :
    base ≤ o ∧ o < base + stride * count := by
  simp only [inGroupAt, regGroup, Bool.and_eq_true] at h
  by_contra hout
  simp [hout] at h

theorem nIslands_le (s : State) : nIslands s ≤ 2048 := by
  unfold nIslands
  split <;> decide

theorem RegOffset.of_group {o base stride count : Nat} {offs : List Nat} (h : inGroupAt o base stride count offs = true)
    (hbase : base + stride * count ≤ 0x500000 ∨ 0x508100 ≤ base ∧ base + stride * count ≤ 0x800000) : RegOffset o := by
  have := inGroupAt_range h
  constructor <;> omega

theorem RegOffset.of_list {o : Nat} {l : List Nat} (h : l.contains o = true) (hl : ∀ n ∈ l, RegOffset n) : RegOffset o :=
  hl o (List.contains_iff_mem.1 h)

theorem coreReg_offset {o : Nat} {c : RegClass} (h : coreReg o = some c) : RegOffset o := by
  unfold coreReg at h
  split at h
  next hl => exact .of_list hl (by simp [RegOffset])
  split at h
  next hl => exact .of_list hl (by simp [RegOffset])
  split at h
  next hg => exact (Bool.or_eq_true _ _ ▸ hg).elim (.of_group · (by decide)) (.of_group · (by decide))
  split at h
  next hg =>
    simp only [Bool.or_eq_true, decide_eq_true_eq] at hg
    obtain (hg | rfl) | rfl := hg
    · exact .of_group hg (by decide)
    · simp [RegOffset]
    · simp [RegOffset]
  split at h
  next hw => constructor <;> omega
  split at h
  next hg => exact .of_group hg (by decide)
  split at h
  next hg => exact (Bool.or_eq_true _ _ ▸ hg).elim (.of_group · (by decide)) (.of_list · (by simp [RegOffset]))
  split at h
  next hl => exact .of_list hl (by simp [RegOffset])
  cases h

theorem outerReg_offset {s : State} {o : Nat} {x : RegClass × Nat} (h : outerReg s o = some x) : RegOffset o := by
  have hn := nIslands_le s
  unfold outerReg at h
  split at h
  next hl => exact .of_list hl (by simp [RegOffset])
  split at h
  next hl => exact .of_list hl (by simp [RegOffset])
  split at h
  next hl => exact .of_list hl (by simp [RegOffset])
  split at h
  next hg => exact .of_group (Bool.and_eq_true _ _ ▸ hg).1 (by decide)
  split at h
  next hg => exact .of_group hg (by omega)
  split at h
  next hg => exact .of_group hg (by decide)
  split at h
  next ho => subst ho; simp [RegOffset]
  split at h
  next ho => subst ho; simp [RegOffset]
  split at h
  next hg => exact .of_group hg (by decide)
  cases h

/-- R445, R461: a register lies at a whole word of BAR0, beside the MSI-X tables. -/
theorem regInfo_offset {s : State} {o : Nat} {x : RegClass × Nat} (h : regInfo s o = some x) : o % 4 = 0 ∧ RegOffset o := by
  unfold regInfo at h
  split at h
  next => cases h
  next hword =>
    refine ⟨not_not.1 hword, ?_⟩
    split at h
    next hcore => exact coreReg_offset hcore
    next => exact outerReg_offset h

/-! ## The gate (R447, R459) -/

theorem regGate_denied {s : State} {i : Initiator} {o d : Nat} {c : RegClass} (hinfo : regInfo s o = some (c, d))
    (hclass : inClass s i c = false) : regGate s i o = .denied := by
  simp [regGate, hinfo, hclass]

theorem regGate_asleep {s : State} {i : Initiator} {o d : Nat} {c : RegClass} (hinfo : regInfo s o = some (c, d))
    (hclass : inClass s i c = true) (hdom : domState s d = .ret ∨ domState s d = .off) : regGate s i o = .asleep := by
  obtain hd | hd := hdom <;> simp [regGate, hinfo, hclass, hd]

/-- R447: a dropped write is counted, up to the counter's end. -/
theorem privDrop_eq (s : State) : privDrop s = { s with regs := { s.regs with
    privDrops := if s.regs.privDrops = 0xFFFFFFFF then 0xFFFFFFFF else s.regs.privDrops + 1 } } := by
  unfold privDrop
  split
  next h => rw [← h]
  next => rfl

/-! ## The rows of a register access, where the gate alone decides -/

/-- An access by one of the rows that O32 and O33 list: every write leaves `t`, and the read leaves `u`. -/
def AccessEnds (i : Initiator) (o : BitVec 24) (v : BitVec 32) (w : BitVec 64) (s t u : State) : Prop :=
  exec (.pairLoRead i o) s = .next u ∧
  exec (.regWrite i o 4 w) s = .next t ∧
  (o = 0x8 ∨ o = 0x700008 → exec (.mwWrite i o v) s = .next t) ∧
  (isPairHi o.toNat = true → exec (.pairHiWrite i o v) s = .next t) ∧
  (isPairLo o.toNat = true → exec (.pairLoWrite i o v) s = .next t) ∧
  (o = 0xC ∨ o = 0x700000 → exec (.w1cWrite i o v) s = .next t) ∧
  (o ∈ [0x24, 0x10000, 0x20010, 0x20014, 0x200040] → exec (.configRegWrite i o v) s = .next t) ∧
  (o = 0x14 → exec (.cfgCrcRefWrite i v) s = .next t) ∧
  (o = 0x18 → exec (.cfgHoldWrite i v) s = .next t) ∧
  (o = 0x20018 → exec (.tideAlarmWrite i v) s = .next t)

section Rows

variable {i : Initiator} {o : BitVec 24} {s : State} (hup : barUp s = true) (hseen : barSeen s i = true)
include hup hseen

/-- A read of a register is `regRead` (R445). -/
theorem exec_read_register (hword : o.toNat % 4 = 0) (hoff : RegOffset o.toNat) :
    exec (.pairLoRead i o) s = .next (regRead i o.toNat s) := by
  obtain ⟨hbar, hmsix⟩ := hoff
  change execPairLoRead i o s = _
  unfold execPairLoRead
  rw [if_neg (by simp [hup, hbar]), if_neg (by simp [hword, hseen]), if_neg hmsix]

/-- An aligned 4-byte write is `plainStore`, and 0 goes to the Awl windows (R445, R448). -/
theorem exec_write_register (w : BitVec 64) (hword : o.toNat % 4 = 0) (hoff : RegOffset o.toNat) :
    exec (.regWrite i o 4 w) s = .next (regStore i o.toNat
      (if 0x600000 ≤ o.toNat ∧ o.toNat < 0x608000 then 0 else w.setWidth 32) s) := by
  obtain ⟨hbar, hmsix⟩ := hoff
  have hwhole : o.toNat / 4 * 4 = o.toNat := Nat.div_mul_cancel (Nat.dvd_of_mod_eq_zero hword)
  change execRegWrite i o 4 w s = _
  by_cases hwin : 0x600000 ≤ o.toNat ∧ o.toNat < 0x608000
  · simp [execRegWrite, hup, hseen, Nat.not_le.2 hbar, hwin, hwhole]
  · simp [execRegWrite, hup, hseen, Nat.not_le.2 hbar, if_neg hwin, hword, plainStore, if_neg hmsix]

/-- Where a store has one effect whatever the value, every row of a write has it. -/
theorem accessEnds_of_store {t : State} (v : BitVec 32) (w : BitVec 64) (hword : o.toNat % 4 = 0) (hoff : RegOffset o.toNat)
    (hstore : ∀ x, regStore i o.toNat x s = t) : AccessEnds i o v w s t (regRead i o.toNat s) := by
  have hkind : ∀ {ok : Nat → Bool}, ok o.toNat = true → kindWrite ok i o v s = .next t := fun hok =>
    (kindWrite_open hup hseen hok).trans (congrArg _ (hstore v))
  refine ⟨exec_read_register hup hseen hword hoff, ?_, ?_, hkind, hkind, ?_, ?_, ?_, ?_, ?_⟩
  · exact (exec_write_register hup hseen w hword hoff).trans (congrArg _ (hstore _))
  · rintro (rfl | rfl) <;> exact hkind (ok := fun n => n = 0x8 || n = 0x700008) (by decide)
  · rintro (rfl | rfl) <;> exact hkind (ok := fun n => n = 0xC || n = 0x700000) (by decide)
  · intro ho
    refine hkind ?_
    simp only [List.mem_cons, List.not_mem_nil, or_false] at ho
    obtain rfl | rfl | rfl | rfl | rfl := ho <;> decide
  all_goals
    rintro rfl
    exact hkind (ok := fun _ => true) rfl

theorem accessEnds_denied (v : BitVec 32) (w : BitVec 64) {c : RegClass} {d : Nat} (hinfo : regInfo s o.toNat = some (c, d))
    (hclass : inClass s i c = false) : AccessEnds i o v w s (privDrop s) (send (.regData i 0) s) := by
  have hgate := regGate_denied hinfo hclass
  obtain ⟨hword, hoff⟩ := regInfo_offset hinfo
  have hread : regRead i o.toNat s = send (.regData i 0) s := by simp [regRead, hgate]
  exact hread ▸ accessEnds_of_store hup hseen v w hword hoff fun x => by simp [regStore, hgate]

theorem accessEnds_asleep (v : BitVec 32) (w : BitVec 64) {c : RegClass} {d : Nat} (hinfo : regInfo s o.toNat = some (c, d))
    (hclass : inClass s i c = true) (hdom : domState s d = .ret ∨ domState s d = .off) :
    AccessEnds i o v w s (domainOff s) (send (.regData i 0) (domainOff s)) := by
  have hgate := regGate_asleep hinfo hclass hdom
  obtain ⟨hword, hoff⟩ := regInfo_offset hinfo
  have hread : regRead i o.toNat s = send (.regData i 0) (domainOff s) := by simp [regRead, hgate]
  exact hread ▸ accessEnds_of_store hup hseen v w hword hoff fun x => by simp [regStore, hgate]

end Rows

/-! ## Awl's windows, of class CORE -/

theorem unlocked_denied {i : Initiator} {s : State} (hcore : isCore i = false) (c : Nat) (k : State → State) :
    unlocked i c s k = .next (privDrop s) := if_pos (by simp [hcore])

/-- The rows of a byte of an Awl window (R262, R266). -/
def windowRows (i : Initiator) (ch : Fin 8) (o : BitVec 12) (b : Byte) (v : BitVec 32) : List Instr :=
  [.awlBankSelWrite i ch v, .awlUnlockStep i ch o b, .awlWideWrite i ch o, .awlStrayByte i ch o b, .programRow i ch,
    .programWord i ch, .eraseBank i ch, .topUpRow i ch, .readRow i ch, .readMargin i ch, .setComputeMode i ch,
    .setStorageMode i ch, .sealBank i ch, .markBank i ch, .readStatus i ch, .resetToRead i ch, .suspend i ch, .resume i ch]

/-- R447: each row of a window first asks whether a core writes. -/
theorem exec_windowRow_denied {i : Initiator} {s : State} (hcore : isCore i = false) (ch : Fin 8) (o : BitVec 12) (b : Byte)
    (v : BitVec 32) : ∀ c ∈ windowRows i ch o b v, exec c s = .next (privDrop s) := by
  have hguard : (!isCore i) = true := by simp [hcore]
  simp only [windowRows, List.forall_mem_cons, List.not_mem_nil, false_imp_iff, implies_true, and_true]
  exact ⟨if_pos hguard, if_pos hguard, if_pos hguard, if_pos hguard, unlocked_denied hcore .., unlocked_denied hcore ..,
    unlocked_denied hcore .., unlocked_denied hcore .., unlocked_denied hcore .., unlocked_denied hcore ..,
    unlocked_denied hcore .., unlocked_denied hcore .., unlocked_denied hcore .., unlocked_denied hcore ..,
    unlocked_denied hcore .., unlocked_denied hcore .., if_pos hguard, if_pos hguard⟩

theorem exec_awlCplPop_denied {i : Initiator} {s : State} (hcore : isCore i = false) :
    exec (.awlCplPop i) s = .next (send (.regData i 0) s) := by
  cases i
  case core => cases hcore
  all_goals rfl

/-- Settles O32: the gate is `denied`, so that each row of a write comes to the counted drop and a read to a zero; every row of
an Awl window asks for a core first. -/
theorem accessesOutsideTheClass : Obligations.AccessesOutsideTheClass := by
  refine ⟨fun i o v w s c d hup hseen hinfo hclass => ?_, fun i ch o b v s hcore => ?_⟩
  · extract_lets regs dropped
    have hdrop : dropped = privDrop s := (privDrop_eq s).symm
    rw [hdrop]
    exact accessEnds_denied hup hseen v w hinfo hclass
  · extract_lets regs dropped
    have hdrop : dropped = privDrop s := (privDrop_eq s).symm
    rw [hdrop]
    exact ⟨exec_awlCplPop_denied hcore, exec_windowRow_denied hcore ch o b v⟩

theorem sysStatus_domOff {s : State} (h : s.regs.domOff = true) : bitAt (sysStatus s) 4 = true := by
  have hb : ∀ b : Bool, b2n b ≤ 1 := by decide
  simp only [bitAt, sysStatus, h, decide_eq_true_eq]
  have h0 := hb s.regs.cfgMatch
  have h1 := hb (cfgPending s)
  have h2 := hb s.regs.xdomBusy
  have h3 := hb s.regs.xdomDrop
  have h4 : b2n true = 1 := rfl
  omega

/-- Settles O33: the gate is `asleep`, so that each row of a write comes to the mark DOM_OFF alone and a read answers zero. -/
theorem sleepingDomainsAreNotWoken : Obligations.SleepingDomainsAreNotWoken := by
  intro i o v w s c d hup hseen hinfo hclass hdom
  obtain ⟨hread, hwrite, hmask, hhi, hlo, hclear, hconfig, hcrc, hhold, halarm⟩ :=
    accessEnds_asleep hup hseen v w hinfo hclass hdom
  exact ⟨hread, hwrite, hmask, hhi, hlo, hclear, hconfig, hcrc, hhold, halarm, sysStatus_domOff rfl⟩

end Sys2Proof.Laws
end

section
/-! SUPPORT. Writes of single registers: the mask-write helpers, the registers cleared by writing 1, the plain registers, and
the accesses that no register takes (R445, R448, R449, R458, R462 to R466). -/

namespace Sys2Proof

open Sys2Proof.Machine

/-- INT_CAUSE has a part of the frame of its own. -/
theorem Only.setCause (s : State) (v : BitVec 32) : Only [.cause] s { s with regs := { s.regs with intCause := v } } := by
  refine ⟨⟨rfl, rfl, rfl, rfl⟩, fun p hp => ?_⟩
  cases p
  case cause => exact absurd (List.mem_singleton.2 rfl) hp
  case gov | events | monitors => exact ⟨rfl, rfl, rfl⟩
  all_goals rfl

end Sys2Proof

namespace Sys2Proof.Laws

open Sys2Proof.Machine

/-! ## The mask-write helpers (R449) -/

theorem getLsbD_maskWrite (mask base v : BitVec 32) (n : Nat) : (maskWrite mask base v).getLsbD n =
    if n < 16 ∧ mask.getLsbD n = true ∧ v.getLsbD (16 + n) = true then v.getLsbD n else base.getLsbD n := by
  have hlow : (0xFFFF : BitVec 32).getLsbD n = decide (n < 16) := by
    change (BitVec.ofNat 32 (2 ^ 16 - 1)).getLsbD n = _
    rw [BitVec.getLsbD_ofNat, Nat.testBit_two_pow_sub_one, ← Bool.decide_and]
    exact decide_eq_decide.2 (by omega)
  by_cases hn : n < 32
  · simp only [maskWrite, BitVec.getLsbD_or, BitVec.getLsbD_and, BitVec.getLsbD_not, BitVec.getLsbD_ushiftRight, hlow, hn]
    by_cases h : n < 16 ∧ mask.getLsbD n = true ∧ v.getLsbD (16 + n) = true
    · obtain ⟨h16, hmask, hsel⟩ := h
      simp [h16, hmask, hsel]
    · rw [if_neg h]
      have hno : (v.getLsbD (16 + n) && mask.getLsbD n && decide (n < 16)) = false := by
        rw [← Bool.not_eq_true]
        simp only [Bool.and_eq_true, decide_eq_true_eq]
        exact fun ⟨⟨hsel, hmask⟩, h16⟩ => h ⟨h16, hmask, hsel⟩
      rw [hno]
      simp
  · rw [if_neg (fun h => hn (by omega)), BitVec.getLsbD_of_ge _ _ (Nat.not_lt.1 hn), BitVec.getLsbD_of_ge _ _ (Nat.not_lt.1 hn)]

/-- The defined bits are the low `k`. -/
theorem getLsbD_maskWrite_low {mask : BitVec 32} {k : Nat} (hk : k ≤ 16) (hmask : ∀ n, mask.getLsbD n = decide (n < k))
    (base v : BitVec 32) (n : Nat) : (maskWrite mask base v).getLsbD n =
      if n < k ∧ v.getLsbD (16 + n) = true then v.getLsbD n else base.getLsbD n := by
  rw [getLsbD_maskWrite, hmask]
  exact if_congr (by simp; omega) rfl rfl

theorem getLsbD_lowMask {k : Nat} (hk : k ≤ 32) (n : Nat) : (BitVec.ofNat 32 (2 ^ k - 1)).getLsbD n = decide (n < k) := by
  rw [BitVec.getLsbD_ofNat, Nat.testBit_two_pow_sub_one, ← Bool.decide_and]
  exact decide_eq_decide.2 (by omega)

/-! ## Rows that reach a word register -/

section Reach

variable {i : Initiator} {s : State} (hup : barUp s = true) (hseen : barSeen s i = true)
include hup hseen

theorem exec_kind_word {ok : Nat → Bool} {o : BitVec 24} (v : BitVec 32) (hok : ok o.toNat = true)
    (hgate : regGate s i o.toNat = .reach domCore) (hhi : pairWritable (o.toNat - 4) = false)
    (hlo : pairWritable o.toNat = false) : kindWrite ok i o v s = .next (wordStore i o.toNat v s) :=
  (kindWrite_open hup hseen hok).trans (congrArg _ (regStore_core hgate hhi hlo))

theorem exec_plain_word {o : BitVec 24} (w : BitVec 64) (hword : o.toNat % 4 = 0) (hoff : RegOffset o.toNat)
    (hwin : ¬(0x600000 ≤ o.toNat ∧ o.toNat < 0x608000)) (hgate : regGate s i o.toNat = .reach domCore)
    (hhi : pairWritable (o.toNat - 4) = false) (hlo : pairWritable o.toNat = false) :
    exec (.regWrite i o 4 w) s = .next (wordStore i o.toNat (w.setWidth 32) s) := by
  rw [exec_write_register hup hseen w hword hoff, if_neg hwin, regStore_core hgate hhi hlo]

/-- A read of a word that is no status register answers its value (R450, R500). -/
theorem exec_read_word {o : BitVec 24} {d : Nat} (hword : o.toNat % 4 = 0) (hoff : RegOffset o.toNat)
    (hgate : regGate s i o.toNat = .reach d) (hhi : isPairHi o.toNat = false) (hlo : isPairLo o.toNat = false)
    (hreset : statusReset s o.toNat = none) :
    exec (.pairLoRead i o) s = .next (send (.regData i (BitVec.ofNat 64 (wordRead s o.toNat))) s) := by
  have hfifo : o.toNat ≠ 0x608400 := by
    intro ho
    rw [ho] at hlo
    exact absurd hlo (by decide)
  have hvisible : visibleRead s i o.toNat = wordRead s o.toNat := by
    unfold visibleRead
    split
    next hv => split at hv <;> simp_all
    next => rfl
  rw [exec_read_register hup hseen hword hoff]
  simp [regRead, hgate, hfifo, hhi, hlo, hvisible]

end Reach

/-- A row of one kind answers an offset of another with nothing. -/
theorem kindWrite_other {ok : Nat → Bool} {o : BitVec 24} (i : Initiator) (v : BitVec 32) (s : State)
    (hok : ok o.toNat = false) : kindWrite ok i o v s = .next s := by
  simp [kindWrite, hok]

theorem toNat_ne {o : BitVec 24} {n : Nat} (hn : n < 2 ^ 24) (h : o ≠ BitVec.ofNat 24 n) : o.toNat ≠ n := fun ho =>
  h (BitVec.eq_of_toNat_eq (by rw [ho, BitVec.toNat_ofNat, Nat.mod_eq_of_lt hn]))

/-- Settles O34: each row reaches its word register, whose new value is read bit by bit; a read of a helper is a read of a word
register, and a helper has its base's line of the map. -/
theorem maskWriteHelpers : Obligations.MaskWriteHelpers := by
  refine ⟨fun i v s hup hseen hgate => ?intMask, fun i v s hup hseen hgate => ?sysCtrl, fun i s hup hseen => ?reads,
    fun s => ⟨rfl, rfl⟩, fun i o v s h8 h7 => ?noHelper, fun i v s hup hseen hgate => ?intCause,
    fun i v s hup hseen hgate => ?status, fun i o v s hc h7 => ?noClear⟩
  case intMask =>
    exact ⟨_, exec_kind_word (ok := fun n => n = 0x8 || n = 0x700008) hup hseen v (by decide) hgate (by decide) (by decide),
      rfl, Only.setRegs s _ rfl, getLsbD_maskWrite_low (by decide) (getLsbD_lowMask (k := 9) (by decide)) _ _⟩
  case sysCtrl =>
    exact ⟨_, exec_kind_word (ok := fun n => n = 0x8 || n = 0x700008) hup hseen v (by decide) hgate (by decide) (by decide),
      rfl, Only.setRegs s _ rfl, getLsbD_maskWrite_low (by decide) (getLsbD_lowMask (k := 1) (by decide)) _ _⟩
  case reads =>
    exact ⟨fun hgate => exec_read_word hup hseen (by decide) ⟨by decide, by decide⟩ hgate (by decide) (by decide) rfl,
      fun hgate => exec_read_word hup hseen (by decide) ⟨by decide, by decide⟩ hgate (by decide) (by decide) rfl⟩
  case noHelper =>
    exact kindWrite_other (ok := fun n => n = 0x8 || n = 0x700008) i v s
      (by simp [toNat_ne (n := 0x8) (by decide) h8, toNat_ne (n := 0x700008) (by decide) h7])
  case intCause =>
    refine ⟨_, exec_kind_word (ok := fun n => n = 0xC || n = 0x700000) hup hseen v (by decide) hgate (by decide) (by decide),
      fun n => ?_, Only.setCause s _⟩
    change (s.regs.intCause &&& ~~~v).getLsbD n = _
    by_cases hn : n < 32
    · simp [hn]
    · rw [BitVec.getLsbD_of_ge _ _ (Nat.not_lt.1 hn), BitVec.getLsbD_of_ge _ _ (Nat.not_lt.1 hn)]
      rfl
  case status =>
    exact exec_kind_word (ok := fun n => n = 0xC || n = 0x700000) hup hseen v (by decide) hgate (by decide) (by decide)
  case noClear =>
    exact kindWrite_other (ok := fun n => n = 0xC || n = 0x700000) i v s
      (by simp [toNat_ne (n := 0xC) (by decide) hc, toNat_ne (n := 0x700000) (by decide) h7])

/-! ## Plain writes (R445, R448, R458) -/

/-- A write into another domain while no crossing is in progress starts one in POSTED mode. -/
theorem regStore_domSel {i : Initiator} {s : State} (v : BitVec 32) (hgate : regGate s i 0x10004 = .reach domAlways)
    (hbusy : s.regs.xdomBusy = false) : regStore i 0x10004 v s = { s with regs := { s.regs with
      domSel := v, xdomBusy := s.regs.sysCtrl.getLsbD 0 } } := by
  rw [regStore_outer hgate (by decide) (by decide) (by decide) hbusy]
  change { s with regs := { s.regs with domSel := v, xdomBusy := s.regs.sysCtrl.getLsbD 0 || s.regs.xdomBusy } } = _
  rw [hbusy, Bool.or_false]

/-- R458: while a crossing is in progress a write into another domain is dropped. -/
theorem regStore_busy {i : Initiator} {s : State} {o d : Nat} (v : BitVec 32) (hgate : regGate s i o = .reach d)
    (hd : d ≠ domCore) (hhi : pairWritable (o - 4) = false) (hbusy : s.regs.xdomBusy = true) :
    regStore i o v s = { s with regs := { s.regs with xdomDrop := true, intCause := s.regs.intCause ||| 0x20 } } := by
  have hdropped : crossing (openStore i o v) s = cause 5 { s with regs := { s.regs with xdomDrop := true } } := if_pos hbusy
  simp [regStore, hgate, hhi, hd, hdropped, cause]

theorem regStore_absent {i : Initiator} {s : State} {o : Nat} (v : BitVec 32) (hinfo : regInfo s o = none) :
    regStore i o v s = s := by
  simp [regStore, regGate, hinfo]

/-- An aligned write that no table names changes nothing, at whatever part of BAR0 it is (R445). -/
theorem exec_absent_write {i : Initiator} {o : BitVec 24} {s : State} (w : BitVec 64) (hseen : barSeen s i = true)
    (hword : o.toNat % 4 = 0) (hinfo : regInfo s o.toNat = none) (hmsix : ¬(0x500000 ≤ o.toNat ∧ o.toNat < 0x508100)) :
    exec (.regWrite i o 4 w) s = .next s := by
  by_cases hopen : (!barUp s || decide (0x800000 ≤ o.toNat)) = true
  · exact if_pos hopen
  · simp only [Bool.or_eq_true, Bool.not_eq_true', decide_eq_true_eq, not_or, Bool.not_eq_false, Nat.not_le] at hopen
    obtain ⟨hup, hbar⟩ := hopen
    rw [exec_write_register hup hseen w hword ⟨hbar, hmsix⟩, regStore_absent _ hinfo]

theorem badAccess_eq (i : Initiator) (s : State) : badAccess i s =
    { s with out := s.out ++ [if isCore i then .accessFault i else .unsupported i] } := by
  cases i <;> rfl

/-- R445: a write of another width or alignment is no access. -/
theorem exec_badly_sized_write {i : Initiator} {o : BitVec 24} {n : Nat} {s : State} (w : BitVec 64) (hup : barUp s = true)
    (hseen : barSeen s i = true) (hbar : o.toNat < 0x800000) (hwin : ¬(0x600000 ≤ o.toNat ∧ o.toNat < 0x608000)) (h4 : ¬(n = 4 ∧ o.toNat % 4 = 0))
    (h8 : ¬(n = 8 ∧ o.toNat % 8 = 0)) : exec (.regWrite i o n w) s = .next (badAccess i s) := by
  change execRegWrite i o n w s = _
  unfold execRegWrite
  rw [if_neg (by simp [hup, hbar]), if_neg (by simp [hseen]), if_neg hwin, if_neg (by simpa using h4),
    if_neg (by simpa using h8)]

/-- Settles O36: each write is one register's store, alone or in a crossing, and the other accesses end at the guards of
REG_WRITE. -/
theorem plainRegisterWrites : Obligations.PlainRegisterWrites := by
  refine ⟨fun i w s hup hseen => ⟨fun hgate => ?sysCtrl, fun hgate => ?intMask, fun hgate hbusy => ?crosses,
      fun hgate hbusy => ?dropped⟩, fun i o w s hseen hword hinfo hmsix => exec_absent_write w hseen hword hinfo hmsix,
    fun i o n w s hup hseen hbar hwin h4 h8 => ?bad, fun s => rfl⟩
  case sysCtrl =>
    exact exec_plain_word hup hseen w (by decide) ⟨by decide, by decide⟩ (by decide) hgate (by decide) (by decide)
  case intMask =>
    exact exec_plain_word hup hseen w (by decide) ⟨by decide, by decide⟩ (by decide) hgate (by decide) (by decide)
  case crosses =>
    exact (exec_write_register hup hseen w (by decide) ⟨by decide, by decide⟩).trans
      (congrArg _ (regStore_domSel _ hgate hbusy))
  case dropped =>
    exact (exec_write_register hup hseen w (by decide) ⟨by decide, by decide⟩).trans
      (congrArg _ (regStore_busy _ hgate (by decide) (by decide) hbusy))
  case bad => rw [exec_badly_sized_write w hup hseen hbar hwin h4 h8, badAccess_eq]

end Sys2Proof.Laws
end

section
/-! SUPPORT. Register pairs (R450, R451): where they lie, what a low half stores and what a high half leaves. With them the
Tide alarm, a pair whose store may fire at once, and the opening of an epoch (R400, R453, R464). -/

namespace Sys2Proof.Laws

open Sys2Proof.Machine

/-! ## Where the pairs lie (R461) -/

/-- The low halves, one by one: those of `isPairLo`, with Awl's two of each channel. -/
def pairOffsets : List Nat :=
  [0x20000, 0x20010, 0x20018, 0x400000, 0x400008, 0x400010, 0x410000, 0x608400, 0x780000, 0x780010] ++
    (List.range 8).flatMap fun c => [0x608000 + 0x40 * c + 0xC, 0x608000 + 0x40 * c + 0x14]

theorem mem_pairOffsets {o : Nat} (h : isPairLo o = true) : o ∈ pairOffsets := by
  simp only [isPairLo, Bool.or_eq_true] at h
  obtain h | h := h
  · exact List.mem_append_left _ (List.contains_iff_mem.1 h)
  · have hrange := inGroupAt_range h
    simp only [inGroupAt, Bool.and_eq_true, List.contains_iff_mem, List.mem_cons, List.not_mem_nil, or_false] at h
    obtain ⟨-, hrem⟩ := h
    refine List.mem_append_right _ (List.mem_flatMap.2 ⟨(o - 0x608000) / 0x40, List.mem_range.2 (by omega), ?_⟩)
    simp only [List.mem_cons, List.not_mem_nil, or_false]
    omega

/-- The neighbourhood of a pair: its two words are registers beside the Awl windows, and no pair overlaps another. -/
structure PairPlace (o : Nat) : Prop where
  word : o % 4 = 0
  low : o < 0x7FFFFC
  beside : ¬(0x4FFFFC ≤ o ∧ o < 0x508100) ∧ ¬(0x5FFFFC ≤ o ∧ o < 0x608000)
  notHigh : isPairLo (o - 4) = false
  highNotLow : isPairLo (o + 4) = false

theorem pairPlace_of_mem : ∀ o ∈ pairOffsets, o % 4 = 0 ∧ o < 0x7FFFFC ∧
    (¬(0x4FFFFC ≤ o ∧ o < 0x508100) ∧ ¬(0x5FFFFC ≤ o ∧ o < 0x608000)) ∧ isPairLo (o - 4) = false ∧
    isPairLo (o + 4) = false := by
  decide

theorem pairPlace {o : Nat} (h : isPairLo o = true) : PairPlace o := by
  obtain ⟨hword, hlow, hbeside, hnot, hhigh⟩ := pairPlace_of_mem o (mem_pairOffsets h)
  exact ⟨hword, hlow, hbeside, hnot, hhigh⟩

theorem isPairLo_of_writable {o : Nat} (h : pairWritable o = true) : isPairLo o = true := by
  rw [pairWritable, Bool.and_eq_true] at h
  exact h.1

theorem not_writable_of_not_pairLo {o : Nat} (h : isPairLo o = false) : pairWritable o = false := by
  simp [pairWritable, h]

/-- Four bytes above a low half, in 24 bits. -/
theorem toNat_add_four {o : BitVec 24} (h : o.toNat < 0x7FFFFC) : (o + 4).toNat = o.toNat + 4 := by
  rw [BitVec.toNat_add]
  exact Nat.mod_eq_of_lt (by change o.toNat + 4 < 2 ^ 24; omega)

section Reads

variable {i : Initiator} {o : BitVec 24} {d : Nat} {s : State}

/-- R450: a read of a low half answers it, and keeps the high half of the same instant. -/
theorem regRead_pairLo {o : Nat} (hpair : isPairLo o = true) (hfifo : o ≠ 0x608400) (hgate : regGate s i o = .reach d) :
    regRead i o s = send (.regData i ((visiblePair s i o).setWidth 32).toNat)
      (setShadow i o (BitVec.ofNat 32 ((visiblePair s i o).toNat / 2 ^ 32)) s) := by
  simp [regRead, hgate, hfifo, hpair]

/-- R450: a read of a high half answers the shadow. -/
theorem regRead_pairHi {o : Nat} (hpair : isPairLo o = true) (hgate : regGate s i (o + 4) = .reach d) :
    regRead i (o + 4) s = send (.regData i (tget s.regs.shadows (halfKey i o) 0).toNat) s := by
  have hhigh := (pairPlace hpair).highNotLow
  have hfifo : o + 4 ≠ 0x608400 := by
    intro ho
    rw [ho] at hhigh
    exact absurd hhigh (by decide)
  simp [regRead, hgate, hfifo, hhigh, isPairHi, hpair]

/-- A read of a high half is `regRead` four bytes above the low half (R445). -/
theorem exec_read_pairHi (hup : barUp s = true) (hseen : barSeen s i = true) (hpair : isPairLo o.toNat = true) :
    exec (.pairLoRead i (o + 4)) s = .next (regRead i (o.toNat + 4) s) := by
  obtain ⟨hword, hlow, ⟨hmsix, -⟩, -, -⟩ := pairPlace hpair
  have hfour := toNat_add_four hlow
  rw [exec_read_register hup hseen (by omega) ⟨by omega, by omega⟩, hfour]

end Reads

/-! ## What a pair's store leaves (R451) -/

/-- An alarm that has been reached: its mark and its cause, and a wake of a core complex in RET, which is no cause (R464, R471). -/
theorem alarmReached_regs (s : State) : (alarmReached s).regs =
    { s.regs with alarmFired := true, intCause := s.regs.intCause ||| 2 } := by
  unfold alarmReached
  extract_lets regs marked
  split
  next hret =>
    have hstate : (domOf marked domCore).state = .ret := by simpa [domState] using hret
    have hkeeps : (wantOn domCore marked).regs = marked.regs := by
      unfold wantOn
      extract_lets d counted
      have hd : d.state = .ret := hstate
      have hcounted : counted.regs = marked.regs := by
        unfold counted
        split <;> rfl
      simp only [hd]
      split
      · rfl
      split
      · rfl
      split
      · exact hcounted
      · exact hcounted
    exact hkeeps
  next => rfl

theorem alarmWrite_regs (v : BitVec 64) (s : State) : (alarmWrite v s).regs =
    if v.toNat ≤ (tideOf s).toNat then
      { s.regs with alarm := v, alarmFired := true, intCause := s.regs.intCause ||| 2 }
    else { s.regs with alarm := v, alarmFired := false } := by
  unfold alarmWrite
  extract_lets regs armed
  have htide : tideOf armed = tideOf s := rfl
  rw [htide]
  split
  · exact alarmReached_regs armed
  · rfl

/-- No store of a pair touches a stage. -/
theorem pairStore_stages (o : Nat) (v : BitVec 64) (s : State) : (pairStore o v s).regs.stages = s.regs.stages := by
  unfold pairStore
  by_cases halarm : o = 0x20018
  · subst halarm
    rw [if_neg (by decide), if_pos rfl, alarmWrite_regs]
    split <;> rfl
  · rw [if_neg halarm]
    repeat' split
    all_goals rfl

theorem chanOf_modChan_self (c : Nat) (f : Channel → Channel) (s : State) : chanOf (modChan c f s) c = f (chanOf s c) := by
  simp [chanOf, modChan, tmod]

/-- R451: the pair has the value that was stored. -/
theorem pairValue_pairStore {o : Nat} (hwrite : pairWritable o = true) (v : BitVec 64) (s : State) :
    pairValue (pairStore o v s) o = v := by
  have hmem := mem_pairOffsets (isPairLo_of_writable hwrite)
  rw [pairOffsets, List.mem_append] at hmem
  obtain hmem | hmem := hmem
  · simp only [List.mem_cons, List.not_mem_nil, or_false] at hmem
    obtain rfl | rfl | rfl | rfl | rfl | rfl | rfl | rfl | rfl | rfl := hmem
    case inr.inr.inl =>
      change (alarmWrite v s).regs.alarm = v
      rw [alarmWrite_regs]
      split <;> rfl
    case inl => exact absurd hwrite (by decide)
    case inr.inr.inr.inr.inr.inr.inr.inl => exact absurd hwrite (by decide)
    case inr.inr.inr.inr.inr.inr.inr.inr.inl => exact absurd hwrite (by decide)
    all_goals rfl
  · obtain ⟨c, hc, hmem⟩ := List.mem_flatMap.1 hmem
    have hc8 := List.mem_range.1 hc
    simp only [List.mem_cons, List.not_mem_nil, or_false] at hmem
    obtain rfl | rfl := hmem
    · have hchan : (0x608000 + 0x40 * c + 0xC - 0x608000) / 0x40 = c := by omega
      have hhalf : (0x608000 + 0x40 * c + 0xC - 0x608000) % 0x40 = 0xC := by omega
      have hrange : 0x608000 ≤ 0x608000 + 0x40 * c + 0xC ∧ 0x608000 + 0x40 * c + 0xC < 0x608200 := by omega
      unfold pairValue pairStore
      rw [hchan, hhalf]
      repeat rw [if_neg (by omega : ¬(0x608000 + 0x40 * c + 0xC = _))]
      simp only [if_pos hrange, chanOf_modChan_self, if_true]
    · have hchan : (0x608000 + 0x40 * c + 0x14 - 0x608000) / 0x40 = c := by omega
      have hhalf : (0x608000 + 0x40 * c + 0x14 - 0x608000) % 0x40 ≠ 0xC := by omega
      have hrange : 0x608000 ≤ 0x608000 + 0x40 * c + 0x14 ∧ 0x608000 + 0x40 * c + 0x14 < 0x608200 := by omega
      unfold pairValue pairStore
      rw [hchan]
      repeat rw [if_neg (by omega : ¬(0x608000 + 0x40 * c + 0x14 = _))]
      simp only [if_pos hrange, chanOf_modChan_self, if_neg hhalf]

/-! ## Writes of the halves (R451, R458) -/

def setBusy (b : Bool) (s : State) : State := { s with regs := { s.regs with xdomBusy := b } }

section Writes

variable {i : Initiator} {d : Nat} {s : State}

/-- R451: a high half goes to its initiator's stage, with no crossing. -/
theorem regStore_pairHi {o : Nat} (v : BitVec 32) (hwrite : pairWritable o = true) (hgate : regGate s i (o + 4) = .reach d) :
    regStore i (o + 4) v s = setHalf i o v s := by
  simp [regStore, hgate, hwrite]

/-- R451, R458: a low half writes the pair and clears its stage; in POSTED mode it is then still crossing. -/
theorem regStore_pairLo {o : Nat} (v : BitVec 32) (hwrite : pairWritable o = true) (hgate : regGate s i o = .reach d)
    (hopen : d = domCore ∨ s.regs.xdomBusy = false) :
    ∃ b, regStore i o v s = setBusy b (setHalf i o 0 (pairStore o (stagedPair i o v s) s)) := by
  have hlow : (4 ≤ o && pairWritable (o - 4)) = false := by
    rw [not_writable_of_not_pairLo (pairPlace (isPairLo_of_writable hwrite)).notHigh, Bool.and_false]
  have hstore : openStore i o v s = setHalf i o 0 (pairStore o (stagedPair i o v s) s) := if_pos hwrite
  by_cases hd : d = domCore
  · exact ⟨(setHalf i o 0 (pairStore o (stagedPair i o v s) s)).regs.xdomBusy, by
      simp [regStore, hgate, hlow, hd, hstore, setBusy]⟩
  · have hbusy := hopen.resolve_left hd
    cases hposted : bitAt s.regs.sysCtrl.toNat 0
    case true => exact ⟨true, by simp [regStore, hgate, hlow, hd, crossing, hbusy, hposted, hstore, setBusy]⟩
    case false =>
      exact ⟨(setHalf i o 0 (pairStore o (stagedPair i o v s) s)).regs.xdomBusy, by
        simp [regStore, hgate, hlow, hd, crossing, hbusy, hposted, hstore, setBusy]⟩

/-- R451: the stage and the written half become the value together, and that stage alone is cleared. -/
theorem regStore_pairLo_value {o : Nat} (v : BitVec 32) (hwrite : pairWritable o = true) (hgate : regGate s i o = .reach d)
    (hopen : d = domCore ∨ s.regs.xdomBusy = false) :
    pairValue (regStore i o v s) o = stagedPair i o v s ∧
      (regStore i o v s).regs.stages = tset s.regs.stages (halfKey i o) 0 := by
  obtain ⟨b, hstore⟩ := regStore_pairLo v hwrite hgate hopen
  rw [hstore]
  have hvalue : pairValue (setBusy b (setHalf i o 0 (pairStore o (stagedPair i o v s) s))) o =
      pairValue (pairStore o (stagedPair i o v s) s) o := rfl
  refine ⟨hvalue.trans (pairValue_pairStore hwrite _ s), ?_⟩
  change tset (pairStore o (stagedPair i o v s) s).regs.stages (halfKey i o) 0 = _
  rw [pairStore_stages]

theorem stagedPair_setHalf (o : Nat) (hi lo : BitVec 32) : stagedPair i o lo (setHalf i o hi s) = hi ++ lo := by
  simp [stagedPair, setHalf]

/-- The two halves of a 64-bit value. -/
theorem append_halves (w : BitVec 64) : (w >>> 32).setWidth 32 ++ w.setWidth 32 = w := by
  apply BitVec.eq_of_toNat_eq
  rw [BitVec.toNat_append]
  simp only [BitVec.toNat_setWidth, BitVec.toNat_ushiftRight]
  rw [← Nat.shiftLeft_add_eq_or_of_lt (Nat.mod_lt _ (Nat.two_pow_pos 32)), Nat.shiftLeft_eq, Nat.shiftRight_eq_div_pow]
  omega

/-- R445: an aligned 8-byte write of a pair is its two stores, the high half first. -/
theorem exec_wide_pair {o : BitVec 24} (w : BitVec 64) (hup : barUp s = true) (hseen : barSeen s i = true)
    (hpair : isPairLo o.toNat = true) (haligned : o.toNat % 8 = 0) :
    exec (.regWrite i o 8 w) s = .next (regStore i o.toNat (w.setWidth 32)
      (regStore i (o.toNat + 4) ((w >>> 32).setWidth 32) s)) := by
  obtain ⟨-, hlow, ⟨-, hwin⟩, -, -⟩ := pairPlace hpair
  have hwide : wideStore i o.toNat w s = regStore i o.toNat (w.setWidth 32)
      (regStore i (o.toNat + 4) ((w >>> 32).setWidth 32) s) := if_pos hpair
  change execRegWrite i o 8 w s = _
  unfold execRegWrite
  rw [if_neg (by simp [hup]; omega), if_neg (by simp [hseen]), if_neg (by omega), if_neg (by simp),
    if_pos (by simp [haligned]), hwide]

end Writes

/-- Settles O35: each half's access is one store or one read of `regRead`; the store of a pair keeps the stages, so that the
cleared stage is the only one that moves. -/
theorem registerPairsDoNotTear : Obligations.RegisterPairsDoNotTear := by
  refine ⟨fun i o d s hup hseen hpair hfifo hgate => ?read, fun i o d v s hup hseen h4 hwrite hgate => ?high,
    fun i o d v s hup hseen hwrite hgate hopen => ?low, fun i o d w s hup hseen hwrite haligned hgate hhigh hopen => ?wide⟩
  case read =>
    obtain ⟨hword, hlow, ⟨hmsix, -⟩, -, -⟩ := pairPlace hpair
    have hread := (exec_read_register hup hseen hword ⟨by omega, by omega⟩).trans
      (congrArg _ (regRead_pairLo hpair (toNat_ne (n := 0x608400) (by decide) hfifo) hgate))
    have hhalf : (visiblePair s i o.toNat).toNat / 2 ^ 32 < 2 ^ 32 := by omega
    refine ⟨_, hread, ?_, ?_, rfl, ?_, ?_⟩
    · change s.out ++ _ = s.out ++ _
      rw [BitVec.toNat_setWidth]
      rfl
    · change (tget (tset s.regs.shadows _ _) _ _).toNat = _
      rw [tget_tset_self, BitVec.toNat_ofNat, Nat.mod_eq_of_lt hhalf]
    · exact Only.step (send_only _ _) rfl ((setShadow_only _ _ _ s).mono rfl)
    · refine ⟨_, exec_read_pairHi (s := send _ (setShadow i o.toNat _ s)) hup hseen hpair, fun hhigh => ?_⟩
      have hgate' : ∀ m v, regGate (send m (setShadow i o.toNat v s)) i (o.toNat + 4) = .reach d := fun _ _ => hhigh
      rw [regRead_pairHi hpair (hgate' _ _)]
      refine ⟨?_, send_only _ _⟩
      change _ ++ [OutMsg.regData i (BitVec.ofNat 64 (tget (tset s.regs.shadows _ _) _ _).toNat)] = _
      rw [tget_tset_self, BitVec.toNat_ofNat, Nat.mod_eq_of_lt hhalf]
  case high =>
    have hplus : o.toNat - 4 + 4 = o.toNat := Nat.sub_add_cancel h4
    have hhi : isPairHi o.toNat = true := by simp [isPairHi, h4, isPairLo_of_writable hwrite]
    refine (kindWrite_open hup hseen hhi).trans (congrArg _ ?_)
    have hstore := regStore_pairHi v hwrite (hplus.symm ▸ hgate : regGate s i (o.toNat - 4 + 4) = .reach d)
    rwa [hplus] at hstore
  case low =>
    have hexec : exec (.pairLoWrite i o v) s = .next (regStore i o.toNat v s) :=
      kindWrite_open hup hseen (isPairLo_of_writable hwrite)
    obtain ⟨hvalue, hstages⟩ := regStore_pairLo_value v hwrite hgate hopen
    refine ⟨_, hexec, hvalue, ?_, fun k hk => ?_, execPairLoWrite_only i o v s _ hexec⟩
    · rw [hstages, tget_tset_self]
    · rw [hstages, tget?_tset_ne _ _ hk]
  case wide =>
    have hexec := exec_wide_pair w hup hseen (isPairLo_of_writable hwrite) haligned
    rw [regStore_pairHi _ hwrite hhigh] at hexec
    have hgate' : regGate (setHalf i o.toNat ((w >>> 32).setWidth 32) s) i o.toNat = .reach d := hgate
    obtain ⟨hvalue, -⟩ := regStore_pairLo_value (w.setWidth 32) hwrite hgate' hopen
    refine ⟨_, hexec, hvalue.trans ?_, execRegWrite_only i o 8 w s _ hexec⟩
    rw [stagedPair_setHalf, append_halves]

end Sys2Proof.Laws
end

section
/-! SUPPORT. The Tide alarm (R464), a register pair whose store may fire at once, and the opening of an epoch on a module in no
group (R400, R453). -/

namespace Sys2Proof.Laws

open Sys2Proof.Machine

/-! ## The write of TIDE_ALARM -/

section Write

variable {i : Initiator} {s : State} (lo : BitVec 32) (hup : barUp s = true) (hseen : barSeen s i = true)
  (hgate : regGate s i 0x20018 = .reach domAlways) (hbusy : s.regs.xdomBusy = false)
include hup hseen hgate hbusy

/-- R451, R458, R464: the write of the low half is the alarm's store with the stage, and a crossing beside. -/
theorem exec_alarm_write : ∃ b, exec (.tideAlarmWrite i lo) s =
    .next (setBusy b (setHalf i 0x20018 0 (alarmWrite (stagedPair i 0x20018 lo s) s))) := by
  obtain ⟨b, hstore⟩ := regStore_pairLo (o := 0x20018) lo (by decide) hgate (.inr hbusy)
  exact ⟨b, (kindWrite_open (ok := fun _ => true) (o := 0x20018) hup hseen rfl).trans (congrArg _ hstore)⟩

theorem tideAlarmWrite_completes : Completes (.tideAlarmWrite i lo) s fun t =>
    t.regs.alarm = stagedPair i 0x20018 lo s ∧ tget t.regs.stages (halfKey i 0x20018) 0 = 0 ∧
    (if (stagedPair i 0x20018 lo s).toNat ≤ (tideOf s).toNat then
      t.regs.alarmFired = true ∧ t.regs.intCause = s.regs.intCause ||| 2
     else t.regs.alarmFired = false ∧ t.regs.intCause = s.regs.intCause) ∧ Only [.doms, .regs, .cause, .counters] s t := by
  obtain ⟨b, hexec⟩ := exec_alarm_write lo hup hseen hgate hbusy
  have hregs := alarmWrite_regs (stagedPair i 0x20018 lo s) s
  refine ⟨_, hexec, ?_, tget_tset_self .., ?_, ?_⟩
  · change (alarmWrite _ s).regs.alarm = _
    rw [hregs]
    split <;> rfl
  · change if _ then (alarmWrite _ s).regs.alarmFired = true ∧ (alarmWrite _ s).regs.intCause = _
      else (alarmWrite _ s).regs.alarmFired = false ∧ (alarmWrite _ s).regs.intCause = _
    rw [hregs]
    split
    · exact ⟨rfl, rfl⟩
    · exact ⟨rfl, rfl⟩
  · have hhalf := Only.step (setHalf_only i 0x20018 0 _) rfl (alarmWrite_only (stagedPair i 0x20018 lo s) s)
    exact Only.step (Only.setRegs _ { (setHalf i 0x20018 0 _).regs with xdomBusy := b } rfl) rfl hhalf

end Write

/-! ## TIDE_ALARM_FIRE -/

theorem execTideAlarmFire_idle {s : State} (h : s.regs.alarmFired = true ∨ (tideOf s).toNat < s.regs.alarm.toNat) :
    exec .tideAlarmFire s = .next s := if_pos (by simpa using h)

theorem execTideAlarmFire_fires {s : State} (hnew : s.regs.alarmFired = false) (hdue : s.regs.alarm.toNat ≤ (tideOf s).toNat) :
    exec .tideAlarmFire s = .next (alarmReached s) := if_neg (by simp [hnew, hdue])

/-- R471: a core complex in RET wakes, or waits to. -/
theorem alarmReached_wakes {s : State} (hret : domState s domCore = .ret) :
    (domOf (alarmReached s) domCore).current = some .on ∨ (domOf (alarmReached s) domCore).queued = some .on := by
  unfold alarmReached
  extract_lets regs marked
  have hmarked : domState marked domCore = .ret := hret
  rw [if_pos (by rw [hmarked]; rfl)]
  exact wantOn_asked hmarked

/-! ## TIDE_EPOCH_OPEN -/

/-- A moved offset is counted (R453). -/
def offsetCounted (s : State) : State :=
  if s.regs.offsetPending = s.regs.offsetActive then s else bump (ob 0x2011 1) s

theorem offsetCounted_kept (s : State) : (offsetCounted s).regs = s.regs ∧ (offsetCounted s).time = s.time := by
  unfold offsetCounted
  split <;> exact ⟨rfl, rfl⟩

/-- The pending offset becomes active and the epoch is the next (R400, R453). -/
def epochOpened (s : State) : State :=
  { s with regs := { s.regs with offsetActive := s.regs.offsetPending }
           time := { s.time with epoch := s.time.epoch + 1, epochDue := false } }

theorem execTideEpochOpen_opens {s : State} (hruns : uzomelRuns s = true) (halone : membersOf s = [])
    (hdue : s.time.epochDue = true) : exec .tideEpochOpen s = .next (rearmAlarm (epochOpened (offsetCounted s))) :=
  if_neg (by simp [hruns, halone, hdue])

/-- Settles O39: the write is the alarm's store, a fired alarm is not fired again, and an epoch on a module alone is one
update after the count of the moved offset. -/
theorem tideAlarmAndEpoch : Obligations.TideAlarmAndEpoch := by
  refine ⟨fun i lo s hup hseen hgate hbusy => tideAlarmWrite_completes lo hup hseen hgate hbusy,
    fun s hnew hdue => ?fires, fun s h => execTideAlarmFire_idle h, fun s hruns halone hdue => ?opens, fun s h => ?idle⟩
  case fires =>
    have hexec := execTideAlarmFire_fires hnew hdue
    refine ⟨_, hexec, alarmReached_regs s, fun hret => alarmReached_wakes hret, execTideAlarmFire_only s _ hexec, ?_⟩
    exact execTideAlarmFire_idle (.inl (by rw [alarmReached_regs]))
  case opens =>
    have hexec := execTideEpochOpen_opens hruns halone hdue
    obtain ⟨hregs, htime⟩ := offsetCounted_kept s
    refine ⟨_, hexec, ?_, ?_, ?_, ?_, rfl, execTideEpochOpen_only s _ hexec⟩
    · change (offsetCounted s).regs.offsetPending = _
      rw [hregs]
    · change (offsetCounted s).regs.offsetPending = _
      rw [hregs]
    · change (offsetCounted s).time.pll + (offsetCounted s).regs.offsetPending = _
      rw [hregs, htime]
    · change (offsetCounted s).time.epoch + 1 = _
      rw [htime]
  case idle => exact if_pos (by simp only [Bool.or_eq_true, decide_eq_true_eq, Bool.not_eq_true']; tauto)

end Sys2Proof.Laws
end

section
/-! SUPPORT. What goes on in the module while requests are stopped and steps are asked for: the boot phase, the slew, the number
of the next launch, the group's counters and what Strait holds of the group stay, messages sent are not taken back, and no
request that has been stopped runs again (R190, R396, R402, R403). -/

namespace Sys2Proof

open Sys2Proof.Machine Sys2Proof.Laws

/-! ## The relation -/

/-- The counters of the group that only its own rows move: members that left, and launches that came too late. -/
def groupCounters : List Nat := [ob 0x2012 1, ob 0x620A 1]

/-- What of a state `Onward` speaks of. -/
structure RunView where
  phase : Phase
  slew : Int
  nextLaunch : Nat
  out : List OutMsg
  counters : Tab (BitVec 64)
  reqs : Tab Req
  strait : Strait

def runView (s : State) : RunView :=
  ⟨s.power.phase, s.time.slew, s.model.nextLaunch, s.out, s.dict.counters, s.que.reqs, s.strait⟩

/-- In a rising table, requests go or stay, and a stopped one stays stopped. -/
def ReqsOnward (r q : Tab Req) : Prop :=
  (tkeys r).Pairwise (· < ·) → (tkeys q).Pairwise (· < ·) ∧
    ∀ a x, tget? q a = some x → ∃ y, tget? r a = some y ∧ (y.stopped.isSome = true → x.stopped.isSome = true)

/-- Of the group's record, what is sent over links, multicast groups, reports and agreed launches may move: reports only go, and
a launch is agreed only of requests that have been reported. -/
structure StraitOnward (g h : Strait) : Prop where
  rest : { h with links := g.links, mcasts := g.mcasts, reports := g.reports, agreed := g.agreed } = g
  links : ∀ k, LinkSent (tget g.links k {}) (tget h.links k {})
  reports : ∀ r ∈ h.reports, r ∈ g.reports
  agreed : ∀ x ∈ h.agreed, x ∈ g.agreed ∨ ∀ k ∈ x.1, ∃ r ∈ g.reports, r.key = k

structure RunView.Onward (v w : RunView) : Prop where
  phase : w.phase = v.phase
  slew : w.slew = v.slew
  nextLaunch : w.nextLaunch = v.nextLaunch
  out : ∀ m ∈ v.out, m ∈ w.out
  counters : ∀ c ∈ groupCounters, tget w.counters c 0 = tget v.counters c 0
  reqs : ReqsOnward v.reqs w.reqs
  strait : StraitOnward v.strait w.strait

/-- From `s` to `t` the module has gone on. -/
def Onward (s t : State) : Prop := (runView s).Onward (runView t)

/-- The state that an operation may answer has gone on. -/
def OnwardO (s : State) (r : Option State) : Prop := ∀ t, r = some t → Onward s t

theorem ReqsOnward.refl (r : Tab Req) : ReqsOnward r r := fun hup => ⟨hup, fun _ x hx => ⟨x, hx, id⟩⟩

theorem ReqsOnward.trans {r q u : Tab Req} (h : ReqsOnward r q) (k : ReqsOnward q u) : ReqsOnward r u := by
  intro hup
  obtain ⟨hq, hmid⟩ := h hup
  obtain ⟨hu, hend⟩ := k hq
  refine ⟨hu, fun a x hx => ?_⟩
  obtain ⟨y, hy, hstop⟩ := hend a x hx
  obtain ⟨z, hz, hstop'⟩ := hmid a y hy
  exact ⟨z, hz, hstop ∘ hstop'⟩

theorem ReqsOnward.tset {r : Tab Req} {a : Nat} {x y : Req} (hy : tget? r a = some y)
    (hstop : y.stopped.isSome = true → x.stopped.isSome = true) : ReqsOnward r (tset r a x) := by
  intro hup
  refine ⟨rising_tset _ _ hup, fun b z hz => ?_⟩
  obtain rfl | hb := eq_or_ne b a
  · rw [tget?_tset_self] at hz
    cases hz
    exact ⟨y, hy, hstop⟩
  · rw [tget?_tset_ne _ _ hb] at hz
    exact ⟨z, hz, id⟩

theorem ReqsOnward.tdel (r : Tab Req) (a : Nat) : ReqsOnward r (tdel r a) := by
  intro hup
  refine ⟨rising_tdel _ hup, fun b z hz => ?_⟩
  obtain rfl | hb := eq_or_ne b a
  · rw [tget?_tdel_self hup] at hz
    cases hz
  · rw [tget?_tdel_ne _ hb] at hz
    exact ⟨z, hz, id⟩

theorem StraitOnward.refl (g : Strait) : StraitOnward g g := ⟨rfl, fun _ => .refl _, fun _ h => h, fun _ h => .inl h⟩

theorem StraitOnward.trans {g h i : Strait} (a : StraitOnward g h) (b : StraitOnward h i) : StraitOnward g i where
  rest := (congrArg (fun x : Strait => { x with links := g.links, mcasts := g.mcasts, reports := g.reports, agreed := g.agreed })
    b.rest).trans a.rest
  links k := (a.links k).trans (b.links k)
  reports r hr := a.reports r (b.reports r hr)
  agreed x hx := by
    obtain hold | hnew := b.agreed x hx
    · exact a.agreed x hold
    · refine .inr fun k hk => ?_
      obtain ⟨r, hr, hkey⟩ := hnew k hk
      exact ⟨r, a.reports r hr, hkey⟩

section Laws

variable {α : Type} {P : List Part} {s₀ s t : State} {c : Prop} [Decidable c]

namespace Onward

theorem refl (s : State) : Onward s s :=
  ⟨rfl, rfl, rfl, fun _ h => h, fun _ _ => rfl, .refl _, .refl _⟩

theorem trans (h : Onward s₀ s) (k : Onward s t) : Onward s₀ t where
  phase := k.phase.trans h.phase
  slew := k.slew.trans h.slew
  nextLaunch := k.nextLaunch.trans h.nextLaunch
  out m hm := k.out m (h.out m hm)
  counters c hc := (k.counters c hc).trans (h.counters c hc)
  reqs := h.reqs.trans k.reqs
  strait := h.strait.trans k.strait

theorem ite (ha : Onward s₀ s) (hb : Onward s₀ t) : Onward s₀ (if c then s else t) := by
  split <;> assumption

theorem ite2 {p q : α × State} (hp : Onward s₀ p.2) (hq : Onward s₀ q.2) : Onward s₀ (if c then p else q).2 := by
  split <;> assumption

/-- A change of what `runView` does not hold. -/
theorem of_view (h : Onward s₀ s) (hview : runView t = runView s) : Onward s₀ t := by
  unfold Onward at h ⊢
  rwa [hview]

theorem setHbr (h : Onward s₀ s) (x : Harbour) : Onward s₀ { s with hbr := x } := h

theorem of_snd {p : α × State} {a : α} (e : p = (a, t)) (h : Onward s₀ p.2) : Onward s₀ t := by
  subst e
  exact h

theorem of_fst {p : State × α} {a : α} (e : p = (t, a)) (h : Onward s₀ p.1) : Onward s₀ t := by
  subst e
  exact h

theorem foldl {f : State → α → State} {l : List α} (hf : ∀ x a, Onward s₀ x → Onward s₀ (f x a)) (h : Onward s₀ s) :
    Onward s₀ (l.foldl f s) :=
  List.foldlRecOn l f h fun x hx a _ => hf x a hx

theorem counterOf_eq (h : Onward s t) {o : Nat} (ho : o ∈ groupCounters) : counterOf t o = counterOf s o := h.counters o ho

end Onward

/-- The parts that hold what `runView` shows. -/
def runParts : List Part := [.power, .time, .model, .out, .counters, .que, .strait]

/-- None of those parts is among the ones that may change. -/
theorem Only.onward (h : Only P s t) (hp : (runParts.any fun p => P.contains p) = false) (hs : Onward s₀ s) : Onward s₀ t := by
  have hparts : ∀ p ∈ runParts, p ∉ P := by simpa using hp
  have hpower : t.power.phase = s.power.phase := h.phase_eq (by simpa using hparts .power (by decide))
  have htime : t.time = s.time := h.2 .time (hparts .time (by decide))
  have hmodel : t.model = s.model := h.2 .model (hparts .model (by decide))
  have hout : t.out = s.out := h.2 .out (hparts .out (by decide))
  have hcounters : t.dict.counters = s.dict.counters := h.2 .counters (hparts .counters (by decide))
  have hreqs : t.que.reqs = s.que.reqs := h.reqs_eq (hparts .que (by decide))
  have hstrait : t.strait = s.strait := h.2 .strait (hparts .strait (by decide))
  refine hs.of_view ?_
  rw [runView, runView, hpower, htime, hmodel, hout, hcounters, hreqs, hstrait]

theorem OnwardO.some (h : Onward s₀ s) : OnwardO s₀ (some s) := by
  intro t ht
  cases ht
  exact h

theorem OnwardO.none : OnwardO s₀ none := by
  intro t ht
  cases ht

theorem OnwardO.ite {a b : Option State} (ha : OnwardO s₀ a) (hb : OnwardO s₀ b) : OnwardO s₀ (if c then a else b) := by
  split <;> assumption

end Laws

end Sys2Proof

namespace Sys2Proof.Laws

open Sys2Proof.Machine

variable {s₀ s : State}

/-! ## Single operations -/

theorem bumpBy_onward {o n : Nat} (ho : o ∉ groupCounters) (hs : Onward s₀ s) : Onward s₀ (bumpBy o n s) :=
  { hs with counters := fun c hc => (counterOf_bumpBy_ne (by rintro rfl; exact ho hc) n s).trans (hs.counters c hc) }

theorem bump_onward {o : Nat} (ho : o ∉ groupCounters) (hs : Onward s₀ s) : Onward s₀ (bump o s) := bumpBy_onward ho hs

theorem send_onward {m : OutMsg} (hs : Onward s₀ s) : Onward s₀ (send m s) :=
  { hs with out := fun x hx => List.mem_append_left _ (hs.out x hx) }

theorem sendPort_onward {p : Port} {m : OutMsg} (hs : Onward s₀ s) : Onward s₀ (sendPort p m s) := .ite hs (send_onward hs)

theorem modReq_onward {a : Nat} {f : Req → Req} (hf : ∀ r : Req, r.stopped.isSome = true → (f r).stopped.isSome = true)
    (hs : Onward s₀ s) : Onward s₀ (modReq a f s) := by
  unfold modReq
  split
  next r hr => exact { hs with reqs := hs.reqs.trans (.tset hr (hf r)) }
  next => exact hs

theorem modLaunch_onward {l : Nat} {f : Launch → Launch} (hs : Onward s₀ s) : Onward s₀ (modLaunch l f s) := by
  unfold modLaunch
  split
  · exact hs
  · exact hs

/-! ## Events, failures and wakes -/

theorem logEvent_onward {e : Event} (hs : Onward s₀ s) : Onward s₀ (logEvent e s) := by
  unfold logEvent
  extract_lets lost counted logged faulted sent
  have hcounted : Onward s₀ counted := .ite (bump_onward (by decide) hs) hs
  have hfaulted : Onward s₀ faulted := .ite ((faultRecord_only ..).onward rfl hcounted) hcounted
  have hsent : Onward s₀ sent := sendPort_onward hfaulted
  split
  next =>
    split
    · exact send_onward hsent
    · exact hsent
  next => exact hfaulted

theorem raise_onward {name : EventName} {k u : Nat} (hs : Onward s₀ s) : Onward s₀ (raise name k u s) :=
  .ite (bump_onward (by decide) hs) (logEvent_onward hs)

theorem storeTotal_onward (hs : Onward s₀ s) : Onward s₀ (storeTotal s) := hs

theorem countFailure_onward {k : UnitKind} {n : Nat} (hs : Onward s₀ s) : Onward s₀ (countFailure k n s).1 := by
  unfold countFailure
  split
  · exact bump_onward (by decide) hs
  · extract_lets h
    split
    · exact hs
    · exact storeTotal_onward ((setHistory_only ..).onward rfl hs)

theorem permanentEvent_onward {k : UnitKind} {n : Nat} (hs : Onward s₀ s) : Onward s₀ (permanentEvent k n s) := raise_onward hs

theorem cause_onward {k : Nat} (hs : Onward s₀ s) : Onward s₀ (cause k s) := hs

theorem bucketAdd_onward {kind n : Nat} (hs : Onward s₀ s) : Onward s₀ (bucketAdd kind n s) := by
  unfold bucketAdd
  extract_lets key s₁
  have hs₁ : Onward s₀ s₁ := (modBucket_only ..).onward rfl hs
  exact .ite (raise_onward (cause_onward (bump_onward (by decide) hs₁))) ((modBucket_only ..).onward rfl hs)

theorem correctedError_onward {kind n word bit : Nat} (hs : Onward s₀ s) : Onward s₀ (correctedError kind n word bit s) := by
  unfold correctedError
  extract_lets key s₁ b s₂ now rest keep s₃
  have hs₁ : Onward s₀ s₁ := bump_onward (by decide) hs
  have hs₂ : Onward s₀ s₂ := bucketAdd_onward hs₁
  have hs₃ : Onward s₀ s₃ := (modBucket_only ..).onward rfl hs₂
  have hkeep : ∀ l, Onward s₀ (keep l) := fun l => (modBucket_only ..).onward rfl hs₂
  split
  · exact bump_onward (by decide) hs₁
  · split
    · exact hs₂
    · split
      · exact hkeep _
      · exact .ite (bump_onward (by decide) hs₂) (.ite (.ite (raise_onward hs₃) hs₃) (hkeep _))

theorem uncorrectable_onward {unitKind n : Nat} (hs : Onward s₀ s) : Onward s₀ (uncorrectable unitKind n s) :=
  raise_onward (cause_onward (bump_onward (by decide) hs))

theorem wantOn_onward {n : Nat} (hs : Onward s₀ s) : Onward s₀ (wantOn n s) := by
  unfold wantOn
  extract_lets d s₁
  have hs₁ : Onward s₀ s₁ := .ite (bump_onward (by decide) hs) hs
  exact .ite hs (.ite hs (.ite ((modDom_only ..).onward rfl hs₁) (.ite (cause_onward ((modDom_only ..).onward rfl hs₁))
    ((modDom_only ..).onward rfl hs₁))))

/-! ## Accesses to the Harbour -/

theorem bankHit_onward {bank : Nat} (hs : Onward s₀ s) : Onward s₀ (bankHit bank s) := by
  unfold bankHit
  split
  next e =>
    have hcounted : Onward s₀ _ := .of_fst e (countFailure_onward hs)
    exact .ite (permanentEvent_onward hcounted) hcounted

theorem harbourCorrect_onward {word bit : Nat} (hs : Onward s₀ s) : Onward s₀ (harbourCorrect word bit s) :=
  .ite (correctedError_onward hs) ((useSlot_only ..).onward rfl ((correctedError_onward hs).setHbr _))

theorem touchWord_onward {word : Nat} (hs : Onward s₀ s) : Onward s₀ (touchWord word s) := by
  unfold touchWord
  extract_lets
  split
  · exact hs
  · exact hs
  · exact harbourCorrect_onward hs
  · exact harbourCorrect_onward hs
  · exact bankHit_onward (uncorrectable_onward hs)

theorem touchGranule_onward {g : Nat} (hs : Onward s₀ s) : Onward s₀ (touchGranule g s) :=
  .ite (.foldl (fun _ _ h => touchWord_onward h) hs) hs

theorem runWake_onward {a len : Nat} (hs : Onward s₀ s) : Onward s₀ (runWake a len s) :=
  .ite hs (.foldl (fun _ _ h => .ite (wantOn_onward h) h) hs)

theorem touchRun_onward {port : BitVec 12} {a len : Nat} (hs : Onward s₀ s) : Onward s₀ (touchRun port a len s) :=
  .foldl (fun _ _ h => .ite (touchGranule_onward ((useSlot_only ..).onward rfl h)) h) hs

theorem storeRun_onward {port : BitVec 12} {a : Nat} {d : Bytes} {poison : Bool} (hs : Onward s₀ s) :
    Onward s₀ (storeRun port a d poison s) := by
  unfold storeRun
  extract_lets cls s₁
  have hs₁ : Onward s₀ s₁ := by
    refine .foldl (fun _ _ h => ?_) hs
    exact Onward.ite ((useSlot_only ..).onward rfl h) (touchGranule_onward ((useSlot_only ..).onward rfl h))
  exact .ite hs ((harbWrite_only ..).onward rfl hs₁)

theorem storeMarked_onward {port : BitVec 12} {a : Nat} {d : Bytes} {bad : List Bool} (hs : Onward s₀ s) :
    Onward s₀ (storeMarked port a d bad s) := by
  refine .ite hs (.foldl (fun _ _ h => .setHbr ?_ _) hs)
  exact Onward.ite ((useSlot_only ..).onward rfl h) (touchGranule_onward ((useSlot_only ..).onward rfl h))

theorem serveRead_onward {port : BitVec 12} {a n : Nat} (hs : Onward s₀ s) : Onward s₀ (serveRead port a n s) :=
  .ite (send_onward hs) (send_onward (touchRun_onward hs))

theorem servePartial_onward {port : BitVec 12} {a : Nat} {d : Bytes} {poison : BitVec 8} (hs : Onward s₀ s) :
    Onward s₀ (servePartial port a d poison s) :=
  .ite hs ((touchGranule_onward ((useSlot_only ..).onward rfl hs)).setHbr _)

theorem servePort_onward {i : Initiator} {port : BitVec 12} {a len : Nat} {data : Option Bytes} (hs : Onward s₀ s) :
    Onward s₀ (servePort i port a len data s) := by
  unfold servePort
  extract_lets
  split
  · exact send_onward (touchRun_onward hs)
  · exact storeRun_onward hs

theorem serve_onward {x : Access} (hs : Onward s₀ s) : Onward s₀ (serve x s) := by
  unfold serve
  split
  · exact serveRead_onward hs
  · exact (serveWrite_only ..).onward rfl hs
  · exact servePartial_onward hs
  · exact servePort_onward hs
  · exact servePort_onward hs

theorem access_onward {x : Access} (hs : Onward s₀ s) : Onward s₀ (access x s) := .ite (runWake_onward hs) (serve_onward hs)

theorem coreWrite_onward {a : Nat} {d : Bytes} (hs : Onward s₀ s) : Onward s₀ (coreWrite a d s) := access_onward hs

/-! ## Completions -/

theorem countCompletion_onward {q : Nat} (hs : Onward s₀ s) : Onward s₀ (countCompletion q s) :=
  .ite (sendPort_onward hs) hs

theorem postEntry_onward {q key : Nat} {r : Reply} {orig : Nat} {noIntr : Bool} {readAt : BitVec 64} (hs : Onward s₀ s) :
    Onward s₀ (postEntry q key r orig noIntr readAt s) := by
  unfold postEntry
  extract_lets p entry addr s₁ wrap s₂ s₃
  have hs₁ : Onward s₀ s₁ := .ite (coreWrite_onward hs) (sendPort_onward hs)
  have hs₃ : Onward s₀ s₃ := (sample_only ..).onward rfl (hs₁ : Onward s₀ s₂)
  exact .ite hs₃ (countCompletion_onward hs₃)

theorem logEntry_onward {q key : Nat} {r : Reply} (hs : Onward s₀ s) : Onward s₀ (logEntry q key r s) :=
  .ite (coreWrite_onward hs) (sendPort_onward hs)

theorem logAndPost_onward {q key : Nat} {r : Reply} {noIntr : Bool} {readAt : BitVec 64} (hs : Onward s₀ s) :
    Onward s₀ (logAndPost q key r noIntr readAt s) :=
  postEntry_onward (logEntry_onward hs)

theorem freeSlot_onward {a q : Nat} (hs : Onward s₀ s) : Onward s₀ (freeSlot a q s) :=
  { hs with reqs := hs.reqs.trans (.tdel s.que.reqs a) }

theorem finish_onward {a : Nat} {r : Reply} (hs : Onward s₀ s) : Onward s₀ (finish a r s) := by
  unfold finish
  split
  · exact hs
  · exact .ite hs (freeSlot_onward (logAndPost_onward hs))

end Sys2Proof.Laws
end

section
/-! SUPPORT. Launches, stopped requests and asked steps go on as `Onward` says. -/

namespace Sys2Proof.Laws

open Sys2Proof.Machine

variable {s₀ s : State}

/-! ## Clusters (R336) -/

theorem takeStanding_onward (hs : Onward s₀ s) : Onward s₀ (takeStanding s) := by
  unfold takeStanding
  extract_lets
  split
  · exact hs
  · split
    · exact hs
    · exact wantOn_onward hs

theorem moveCluster_onward {c d : Nat} (hs : Onward s₀ s) : Onward s₀ (moveCluster c d s) := by
  unfold moveCluster
  extract_lets y s₁ s₂
  have hs₁ : Onward s₀ s₁ := (modCluster_only ..).onward rfl hs
  have hs₂ : Onward s₀ s₂ := (modCluster_only ..).onward rfl hs₁
  exact .ite (wantOn_onward ((pushWork_only ..).onward rfl hs₂)) hs₂

theorem retireCluster_onward {c : Nat} (hs : Onward s₀ s) : Onward s₀ (retireCluster c s) := by
  unfold retireCluster
  extract_lets s₁ s₂ was _ s₃ s₄
  have hs₁ : Onward s₀ s₁ := (modCluster_only ..).onward rfl hs
  have hs₂ : Onward s₀ s₂ := (modDom_only ..).onward rfl hs₁
  have hs₄ : Onward s₀ s₄ := by
    unfold s₄
    split
    · exact moveCluster_onward hs₂
    · exact hs₂
  exact permanentEvent_onward (.ite (takeStanding_onward hs₄) hs₄)

theorem clusterFailure_onward {c : Nat} (hs : Onward s₀ s) : Onward s₀ (clusterFailure c s) := by
  unfold clusterFailure
  split
  next e =>
    have hcounted : Onward s₀ _ := .of_fst e (countFailure_onward hs)
    exact .ite (retireCluster_onward hcounted) ((modCluster_only ..).onward rfl hcounted)

theorem quarantineIsland_onward {i : Nat} (hs : Onward s₀ s) : Onward s₀ (quarantineIsland i s) :=
  raise_onward (raise_onward ((modIsland_only ..).onward rfl hs))

theorem islandFailure_onward {i : Nat} (hs : Onward s₀ s) : Onward s₀ (islandFailure i s) := by
  unfold islandFailure
  split
  next e =>
    have hcounted : Onward s₀ _ := .of_fst e (countFailure_onward hs)
    have hissued : Onward s₀ (reissueIsland i _) := (reissueIsland_only ..).onward rfl hcounted
    exact .ite (quarantineIsland_onward hissued) hissued

/-! ## Joins and their ends -/

theorem deliverWake_onward {l lace : Nat} (hs : Onward s₀ s) : Onward s₀ (deliverWake l lace s) := by
  unfold deliverWake
  split
  · exact runWake_onward hs
  · exact hs

theorem countOut_onward {a n : Nat} (hs : Onward s₀ s) : Onward s₀ (countOut a n s) := by
  refine modReq_onward (fun r hr => ?_) hs
  extract_lets left
  split <;> exact hr

theorem laceTake_onward {n vec off : Nat} {reqs : List Nat} {ferry : Bool} {h : BitVec 16} {t : State} (hs : Onward s₀ s)
    (e : laceTake n reqs vec off ferry s = some (h, t)) : Onward s₀ t := by
  unfold laceTake at e
  split at e
  next => cases e
  split at e
  next => cases e
  split at e
  next => cases e
  split at e
  next => cases e
  next =>
    cases e
    exact (modLace_only ..).onward rfl (modLaunch_onward hs)

theorem deliver_onward {port : BitVec 12} {l lace plan vec fmt : Nat} {o : JoinOut} {special : Bool} (hs : Onward s₀ s) :
    OnwardO s₀ (deliver port l lace plan vec fmt o special s) := by
  unfold deliver
  extract_lets
  split
  · exact .none
  · split
    · split
      · exact .none
      next e =>
        have hs₁ : Onward s₀ _ := laceTake_onward hs e
        extract_lets s₂ seq e' s₃ s₄ s₅
        have hs₂ : Onward s₀ s₂ := storeMarked_onward hs₁
        have hs₃ : Onward s₀ s₃ := (pushEntry_only ..).onward rfl hs₂
        have hs₄ : Onward s₀ s₄ := modLaunch_onward hs₃
        have hs₅ : Onward s₀ s₅ := .ite (modReq_onward (fun _ h => h) hs₄) hs₄
        exact .some (countOut_onward hs₅)
    · exact .none

theorem sendHeld_onward {port : BitVec 12} {p : List Flit} {poison : Bool} (hs : Onward s₀ s) :
    Onward s₀ (sendHeld port p poison s) := send_onward hs

theorem forwardHere_onward {home : Nat} {j : Join} {plan : Nat} (hs : Onward s₀ s) : Onward s₀ (forwardHere home j plan s) := by
  unfold forwardHere
  extract_lets
  split
  · exact sendHeld_onward hs
  · exact hs

theorem forwardJoin_onward {home : Nat} {j : Join} {rank join : Nat} (hs : Onward s₀ s) :
    Onward s₀ (forwardJoin home j rank join s) := by
  unfold forwardJoin
  extract_lets
  split
  · exact forwardHere_onward hs
  · split
    · split
      next e₁ =>
        have hs₁ : Onward s₀ _ := .of_snd e₁ ((takeFree_only ..).onward rfl hs)
        split
        next e₂ =>
          have hs₂ : Onward s₀ _ := .of_snd e₂ ((takeFree_only ..).onward rfl hs₁)
          exact sendHeld_onward hs₂
    · exact bump_onward (by decide) hs

theorem limbFailure_onward {home : Nat} (hs : Onward s₀ s) : Onward s₀ (limbFailure home s) :=
  .ite (islandFailure_onward (uncorrectable_onward hs)) (clusterFailure_onward (uncorrectable_onward hs))

theorem limbRead_onward {home : Nat} {touched : Nat → Bool} {j : Join} (hs : Onward s₀ s) :
    Onward s₀ (limbRead home touched j s).2 := by
  unfold limbRead
  refine List.foldlRecOn (motive := fun acc : Join × State => Onward s₀ acc.2) j.dev _ hs ?_
  rintro ⟨k, u⟩ hu e -
  refine .ite2 hu ?_
  split
  · exact hu
  · exact hu
  · exact (correctedError_onward hu :)
  · exact (correctedError_onward hu :)
  · exact (limbFailure_onward hu :)

theorem joinRead_onward {home id : Nat} (hs : Onward s₀ s) : Onward s₀ (joinRead home id s) := by
  unfold joinRead
  split
  · exact hs
  · split
    · exact hs
    · split
      next e =>
        have hread : Onward s₀ _ := .of_snd e (limbRead_onward hs)
        exact (setHomeJoins_only ..).onward rfl hread

theorem endJoin_onward {home id : Nat} {j : Join} {x : Launch} {ending : JoinEnd} (hs : Onward s₀ s) :
    Onward s₀ (endJoin home id j x ending s) := by
  unfold endJoin
  split
  · extract_lets s₁ s₂
    have hs₁ : Onward s₀ s₁ := (setHomeJoins_only ..).onward rfl (forwardJoin_onward hs)
    have hs₂ : Onward s₀ s₂ := modLaunch_onward hs₁
    split
    · exact countOut_onward hs₂
    · exact hs₂
  · extract_lets
    split
    · exact deliverWake_onward hs
    · split
      · exact hs
      next e =>
        have hs₃ : Onward s₀ _ := deliver_onward hs _ e
        extract_lets s₄
        have hs₄ : Onward s₀ s₄ := bumpBy_onward (by decide) (bumpBy_onward (by decide) (bumpBy_onward (by decide) hs₃))
        exact (setHomeJoins_only ..).onward rfl hs₄

theorem settleJoin_onward {home id : Nat} (hs : Onward s₀ s) : Onward s₀ (settleJoin home id s) := by
  unfold settleJoin
  extract_lets ended s₁
  have hs₁ : Onward s₀ s₁ := .ite (joinRead_onward hs) hs
  split
  · exact hs₁
  · split
    · exact hs₁
    · split
      · exact hs₁
      · split
        · exact (setHomeJoins_only ..).onward rfl (forwardHere_onward hs₁)
        · split
          · exact hs₁
          · exact .ite hs₁ (.ite (endJoin_onward hs₁) hs₁)

theorem settleLaunch_onward {l : Nat} (hs : Onward s₀ s) : Onward s₀ (settleLaunch l s) :=
  .foldl (fun _ _ h => settleJoin_onward h) hs

/-! ## Ends of launches -/

theorem endLaunch_onward {l : Nat} (hs : Onward s₀ s) : Onward s₀ (endLaunch l s) := by
  unfold endLaunch
  split
  · exact hs
  · split
    · refine (poolReturn_only ..).onward rfl ?_
      exact { hs with strait := hs.strait.trans ⟨rfl, fun _ => .refl _, fun _ h => h, fun _ h => .inl h⟩ }
    · exact hs

theorem dropCharge_onward {l : Nat} (hs : Onward s₀ s) : Onward s₀ (dropCharge l s) := .ite hs (modLaunch_onward hs)

theorem markFinals_onward {i t : Nat} (hs : Onward s₀ s) : Onward s₀ (markFinals i t s) := by
  unfold markFinals
  split
  · exact hs
  · split
    · extract_lets vs s₁ allDone s₂
      have hs₁ : Onward s₀ s₁ := .foldl (fun _ _ h => .foldl (fun _ _ h1 => .ite ((modJoin_only ..).onward rfl h1) h1) h) hs
      have hs₂ : Onward s₀ s₂ := .ite (dropCharge_onward ((modIsland_only ..).onward rfl hs₁)) hs₁
      exact endLaunch_onward (settleLaunch_onward hs₂)
    · exact hs

theorem markLaunch_onward {l : Nat} (hs : Onward s₀ s) : Onward s₀ (markLaunch l s) :=
  .foldl (fun _ _ h => .foldl (fun _ _ h1 => .ite (markFinals_onward h1) h1) h) hs

/-! ## Recalls -/

theorem pushFilled_onward {port : BitVec 12} {n : Nat} {o : OpenSlab} {planes last late : Bool} (hs : Onward s₀ s) :
    Onward s₀ (pushFilled port n o planes last late s) := by
  unfold pushFilled
  extract_lets
  split
  · exact hs
  · exact (pushEntry_only ..).onward rfl (storeRun_onward hs)

theorem markLate_onward {as_ : List Nat} (hs : Onward s₀ s) : Onward s₀ (markLate as_ s) :=
  .ite hs (.foldl (fun _ _ h => modReq_onward (fun _ h => h) h) (bump_onward (by decide) hs))

theorem flushOpen_onward {n : Nat} (hs : Onward s₀ s) : Onward s₀ (flushOpen n s) := by
  unfold flushOpen
  split
  · exact hs
  · exact .ite hs (markLate_onward (pushFilled_onward ((modLace_only ..).onward rfl hs)))

theorem recallLace_onward {n a : Nat} (hs : Onward s₀ s) : Onward s₀ (recallLace n a s) := by
  unfold recallLace
  split
  · exact hs
  · extract_lets slabs mine isOpen unread s₁ s₂
    have hs₁ : Onward s₀ s₁ := bumpBy_onward (by decide) hs
    have hs₂ : Onward s₀ s₂ := (modLace_only ..).onward rfl hs₁
    exact flushOpen_onward (.foldl (fun _ _ h => (clearReleased_only ..).onward rfl h) hs₂)

theorem dropJoins_onward {l start n : Nat} (hs : Onward s₀ s) : Onward s₀ (dropJoins l start n s) := modLaunch_onward hs

theorem stopInLaunch_onward {a l : Nat} (hs : Onward s₀ s) : Onward s₀ (stopInLaunch a l s) := by
  unfold stopInLaunch
  split
  · exact hs
  · split
    · exact hs
    · extract_lets s₁ mine s₂ s₃ s₄
      have hs₁ : Onward s₀ s₁ := dropJoins_onward ((dropGroups_only ..).onward rfl hs)
      have hs₃ : Onward s₀ s₃ := .foldl (fun _ _ h => recallLace_onward h) hs₁
      have hs₄ : Onward s₀ s₄ := modLaunch_onward hs₃
      exact .ite (endLaunch_onward hs₄) (endLaunch_onward (settleLaunch_onward (markLaunch_onward hs₃)))

theorem recallRequest_onward {a : Nat} (hs : Onward s₀ s) : Onward s₀ (recallRequest a s) :=
  .foldl (fun _ _ h => stopInLaunch_onward h) hs

theorem revertKv_onward {a : Nat} (hs : Onward s₀ s) : Onward s₀ (revertKv a s) := by
  unfold revertKv
  split
  · exact hs
  · split
    · exact hs
    · exact (poolReturn_only ..).onward rfl ((noteKv_only ..).onward rfl hs)

theorem stopRequest_onward {a status detail : Nat} {discarded : Bool} (hs : Onward s₀ s) :
    Onward s₀ (stopRequest a status detail discarded s) := by
  unfold stopRequest
  split
  · exact hs
  · split
    · exact hs
    · extract_lets s₁ s₂
      have hs₁ : Onward s₀ s₁ := modReq_onward (fun _ _ => rfl) hs
      exact finish_onward (revertKv_onward (recallRequest_onward hs₁))

/-! ## Messages to members (R384) -/

theorem modLink_onward {k : Nat} {f : Link → Link} (hf : ∀ l, tget s.strait.links k {} = l → LinkSent l (f l)) (hs : Onward s₀ s) :
    Onward s₀ (modLink k f s) := by
  refine { hs with strait := hs.strait.trans ⟨rfl, fun o => ?_, fun _ h => h, fun _ h => .inl h⟩ }
  change LinkSent (linkOf s o) (linkOf (modLink k f s) o)
  obtain rfl | ho := eq_or_ne o k
  · rw [linkOf_modLink_self]
    exact hf _ rfl
  · rw [linkOf_modLink_ne f s ho]
    exact .refl _

theorem transmit_onward {k type poison : Nat} {words : List Nat} (hk : (linkOf s k).state = .exchange) (hs : Onward s₀ s) :
    Onward s₀ (transmit k type poison words s) := by
  unfold transmit
  extract_lets l seq f queued
  have hqueued : Onward s₀ queued := modLink_onward (fun l hl => ⟨rfl, fun hidle => absurd (hl ▸ hk) hidle⟩) hs
  exact .ite hqueued (send_onward hqueued)

theorem sendCtl_onward {m kind : Nat} {ws : List Nat} (hs : Onward s₀ s) : Onward s₀ (sendCtl m kind ws s) := by
  unfold sendCtl sendCtlBy
  split
  · exact hs
  next k hlink =>
    have hopen : ∀ {t : State}, Onward s t → (linkOf t k).state = .exchange := fun h =>
      (h.strait.links k).state_eq.trans (exchange_of_gangLink hlink)
    refine hs.trans (.foldl (fun x _ hx => transmit_onward (hopen hx) hx) ?_)
    exact send_onward (.refl s)

theorem foldl_sendCtl_onward {l : List Nat} {kind : Nat} {ws : List Nat} (hs : Onward s₀ s) :
    Onward s₀ (l.foldl (fun s m => sendCtl m kind ws s) s) := .foldl (fun _ _ h => sendCtl_onward h) hs

/-! ## Asked steps (R189, R402) -/

theorem startKv_onward {a : Nat} {r : Req} {p : LastPlan} (hs : Onward s₀ s) : OnwardO s₀ (startKv a r p s) := by
  unfold startKv takeKv
  extract_lets rec_ g want
  refine .ite (.ite .none ?_) (.some hs)
  split
  next e =>
    extract_lets new que s₂
    have htaken : Onward s₀ _ := .of_snd e ((poolTake_only ..).onward rfl hs)
    have hs₂ : Onward s₀ s₂ := htaken
    exact .some (modReq_onward (fun _ h => h) ((noteKv_only ..).onward rfl hs₂))

theorem askStep_onward {a : Nat} {r : Req} {p : LastPlan} {y : LayerPlan} (hs : Onward s₀ s) : Onward s₀ (askStep a r p y s) :=
  .foldl (fun _ _ h => (pushWork_only ..).onward rfl h) (modReq_onward (fun _ h => h) hs)

theorem askOne_onward {a : Nat} (hs : Onward s₀ s) : Onward s₀ (askOne a s) := by
  unfold askOne
  split
  · exact hs
  · split
    · exact hs
    · split
      · split
        · exact .ite hs (bump_onward (by decide) (modReq_onward (fun _ h => h) hs))
        · split
          · exact stopRequest_onward hs
          next e => exact askStep_onward (startKv_onward hs _ e)
      · exact hs

theorem askAgreed_onward {g : List (BitVec 64) × BitVec 16 × BitVec 64} (hs : Onward s₀ s) : Onward s₀ (askAgreed g s) := by
  unfold askAgreed
  extract_lets as_ one s₁ live all
  have hone : ∀ x a, Onward s₀ x → Onward s₀ (one x a) := by
    intro x a hx
    unfold one
    split
    · exact hx
    · extract_lets r' x₁
      have hx₁ : Onward s₀ x₁ := (ctxWrite_only ..).onward rfl (modReq_onward (fun _ h => h) hx)
      split
      · split
        · exact stopRequest_onward hx₁
        next e => exact modReq_onward (fun _ h => h) (startKv_onward hx₁ _ e)
      · exact hx₁
  have hs₁ : Onward s₀ s₁ := .foldl hone hs
  clear_value live
  split
  · exact hs₁
  · split
    · exact hs₁
    · exact .ite ((pushWork_only ..).onward rfl hs₁) (.foldl (fun _ _ h => (pushWork_only ..).onward rfl h) hs₁)

theorem refuseAgreed_onward {g : List (BitVec 64) × BitVec 16 × BitVec 64} (hs : Onward s₀ s) : Onward s₀ (refuseAgreed g s) :=
  .foldl (fun _ _ h => stopRequest_onward h) hs

theorem forgetAgreed_onward {g : List (BitVec 64) × BitVec 16 × BitVec 64} (hs : Onward s₀ s) :
    Onward s₀ (modStrait (fun x => { x with agreed := x.agreed.erase g }) s) :=
  { hs with strait := hs.strait.trans ⟨rfl, fun _ => .refl _, fun _ h => h, fun _ h => .inl (List.mem_of_mem_erase h)⟩ }

theorem sweepAgreed_onward (hs : Onward s₀ s) : Onward s₀ (sweepAgreed s) :=
  .foldl (fun _ _ h => .ite (refuseAgreed_onward (forgetAgreed_onward h)) (.ite (askAgreed_onward (forgetAgreed_onward h)) h)) hs

theorem dropReports_onward (hs : Onward s₀ s) : Onward s₀ (dropReports s) :=
  { hs with strait := hs.strait.trans ⟨rfl, fun _ => .refl _, fun _ h => (List.mem_filter.1 h).1, fun _ h => .inl h⟩ }

/-- A request that may go into a launch has been reported (R402). -/
theorem reported_of_groupReady {a : Nat} (h : groupReady s a = true) : ∃ r ∈ s.strait.reports, r.key = keyAt s a := by
  unfold groupReady at h
  split at h
  next => cases h
  next =>
    simp only [Bool.and_eq_true] at h
    obtain ⟨⟨⟨-, hreported⟩, -⟩, -⟩ := h
    obtain ⟨r, hr, hkey⟩ := List.any_eq_true.1 hreported
    simp only [Bool.and_eq_true, decide_eq_true_eq] at hkey
    exact ⟨r, hr, hkey.1⟩

/-- A batch adds ready requests alone. -/
theorem groupBatch_ready {r : Req} {mb : Nat} (l acc : List Nat) :
    ∃ more, groupBatch s r mb l acc = acc ++ more ∧ ∀ b ∈ more, groupReady s b = true := by
  induction l generalizing acc with
  | nil => exact ⟨[], (List.append_nil _).symm, fun _ h => absurd h (List.not_mem_nil)⟩
  | cons b l ih =>
    unfold groupBatch
    extract_lets fits
    cases hfits : fits with
    | false => exact ih acc
    | true =>
      obtain ⟨more, hbatch, hready⟩ := ih (acc ++ [b])
      refine ⟨b :: more, by rw [if_pos rfl, hbatch, List.append_assoc]; rfl, ?_⟩
      rintro c (_ | ⟨_, hc⟩)
      · unfold fits at hfits
        split at hfits
        · cases hfits
        · simp only [Bool.and_eq_true] at hfits
          obtain ⟨⟨⟨⟨⟨hb, -⟩, -⟩, -⟩, -⟩, -⟩ := hfits
          exact hb
      · exact hready c hc

theorem formLaunches_onward {order : List Nat} (fuel : Nat) (hs : Onward s₀ s) : Onward s₀ (formLaunches fuel order s) := by
  induction fuel generalizing s with
  | zero => exact hs
  | succ fuel ih =>
    unfold formLaunches
    split
    · exact hs
    next a ha =>
      split
      · exact hs
      · extract_lets mb batch t gen keys s₁ s₂
        have hready : ∀ b ∈ batch, groupReady s b = true := by
          obtain ⟨more, hbatch, hmore⟩ := groupBatch_ready (s := s) (r := _) (mb := mb) (order.filter fun b => b ≠ a) [a]
          intro b hb
          obtain rfl | hb := List.mem_cons.1 hb
          · exact List.find?_some ha
          · rw [hbatch] at hb
            exact hmore b hb
        have hs₁ : Onward s₀ s₁ := by
          refine hs.trans { Onward.refl s with strait := ⟨rfl, fun _ => .refl _, fun _ h => h, fun x hx => ?_⟩ }
          obtain hx | hx := List.mem_append.1 hx
          · exact .inl hx
          · rw [List.mem_singleton.1 hx]
            refine .inr fun k hk => ?_
            obtain ⟨b, hb, rfl⟩ := List.mem_map.1 hk
            exact reported_of_groupReady (hready b hb)
        exact ih (foldl_sendCtl_onward hs₁)

/-- Asking for steps goes on as `Onward` says. -/
theorem askReady_onward (hs : Onward s₀ s) : Onward s₀ (askReady s) := by
  unfold askReady
  extract_lets order s₁ s₂
  have hs₁ : Onward s₀ s₁ := .foldl (fun _ _ h => askOne_onward h) hs
  have hs₂ : Onward s₀ s₂ := dropReports_onward hs₁
  exact .ite hs₁ (sweepAgreed_onward (.ite (formLaunches_onward _ hs₂) hs₂))

end Sys2Proof.Laws
end

section
/-! SUPPORT. HOLD (R455, R456): what its write sets, and what it holds back. -/

namespace Sys2Proof.Laws

open Sys2Proof.Machine

/-! ## The write of SYS_CFG_CTRL -/

theorem holdWrite_regs (v : BitVec 32) (s : State) : (holdWrite v s).regs = { s.regs with
    cfgCtrl := v
    holdSince := if v.getLsbD 0 && !cfgHeld s then tideOf s else s.regs.holdSince
    holdRaised := v.getLsbD 0 && cfgHeld s && s.regs.holdRaised } := by
  cases hv : v.getLsbD 0 <;> cases hheld : cfgHeld s <;> simp only [holdWrite, hv, hheld] <;> rfl

/-! ## What HOLD holds back -/

/-- Asking for steps moves no register but INT_CAUSE. -/
theorem askReady_held (s : State) : cfgHeld (askReady s) = cfgHeld s ∧ (askReady s).regs.cfgMatch = s.regs.cfgMatch := by
  have hregs : { (askReady s).regs with intCause := s.regs.intCause } = s.regs := (askReady_only s).2 .regs (by decide)
  have hctrl : (askReady s).regs.cfgCtrl = s.regs.cfgCtrl := (congrArg Regs.cfgCtrl hregs :)
  exact ⟨congrArg (fun v : BitVec 32 => bitAt v.toNat 0) hctrl, (congrArg Regs.cfgMatch hregs :)⟩

theorem execLaunchAdmit_held {s : State} (h : cfgHeld s = true ∨ s.regs.cfgMatch = false) :
    exec .launchAdmit s = .next (askReady s) := by
  obtain ⟨hheld, hmatch⟩ := askReady_held s
  have hclosed : admissionClosed (askReady s) = true := by
    rw [admissionClosed, hheld, hmatch]
    obtain h | h := h <;> simp [h]
  exact if_pos hclosed

theorem execConfigActivate_held {s : State} (h : cfgHeld s = true ∨ s.regs.cfgMatch = false) :
    exec .configActivate s = .next s := if_pos (by obtain h | h := h <;> simp [h])

/-- R455: a pass under HOLD stores its comparison and tells nobody. -/
theorem execCheckPassEnd_held {s : State} (hheld : cfgHeld s = true) (hon : domIsOn s domCore = true) :
    Completes .checkPassEnd s fun t => Only [.regs] s t := by
  cases hdirty : s.regs.passDirty
  case true =>
    have hexec : exec .checkPassEnd s = .next { s with regs := { s.regs with passDirty := false } } := by
      simp [exec, execCheckPassEnd, hon, hdirty]
    exact ⟨_, hexec, Only.setRegs s _ rfl⟩
  case false =>
    refine ⟨_, execCheckPassEnd_complete hon hdirty, ?_⟩
    rw [if_neg (by simp [hheld])]
    exact Only.setRegs s _ rfl

/-! ## HOLD_LONG (R456) -/

/-- HOLD has been 1 for too long, and the event has been raised. -/
def holdNoted (s : State) : State := { s with regs := { s.regs with holdLong := true, holdRaised := true } }

theorem execHoldLongTimer_notes {s : State} (hheld : cfgHeld s = true) (hnew : s.regs.holdRaised = false)
    (hlong : 10000000 < (tideOf s - s.regs.holdSince).toNat) :
    exec .holdLongTimer s = .next (raise .holdLong 0 0 (holdNoted s)) :=
  if_neg (by rw [hheld, hnew, decide_eq_false (Nat.not_le.2 hlong)]; decide)

theorem execHoldLongTimer_idle {s : State}
    (h : cfgHeld s = false ∨ s.regs.holdRaised = true ∨ (tideOf s - s.regs.holdSince).toNat ≤ 10000000) :
    exec .holdLongTimer s = .next s :=
  if_pos (by simp only [Bool.or_eq_true, decide_eq_true_eq, Bool.not_eq_true']; tauto)

/-- Settles O38: the write is read field by field; HOLD closes the admission, the activation and the telling of a mismatch, and
the mark that the timer leaves stops it from a second event. -/
theorem configurationHold : Obligations.ConfigurationHold := by
  refine ⟨fun i v s hup hseen hgate => ?write, fun s h => ⟨execLaunchAdmit_held h, execConfigActivate_held h⟩,
    fun s => (askReady_onward (.refl s)).nextLaunch, fun s hheld hon => execCheckPassEnd_held hheld hon,
    fun s hheld hnew hlong => ?long, fun s h => execHoldLongTimer_idle (h.imp_right .inr)⟩
  case write =>
    have hexec : exec (.cfgHoldWrite i v) s = .next (holdWrite v s) :=
      exec_kind_word (ok := fun _ => true) (o := 0x18) hup hseen v rfl hgate (by decide) (by decide)
    have hheld : cfgHeld (holdWrite v s) = v.getLsbD 0 := by rw [cfgHeld, holdWrite_regs, bitAt_toNat]
    refine ⟨_, hexec, ?_, hheld, ?_, ?_, ?_, holdWrite_only v s⟩
    all_goals rw [holdWrite_regs]
  case long =>
    have hexec := execHoldLongTimer_notes hheld hnew hlong
    have honly : Only [.regs] s (holdNoted s) := Only.setRegs s _ rfl
    refine ⟨_, hexec, raise_regs .., honly.raised (by decide) (by decide) (raised_raise .holdLong 0 0 (holdNoted s)),
      execHoldLongTimer_only s _ hexec, ?_⟩
    exact execHoldLongTimer_idle (.inr (.inl (by rw [raise_regs]; rfl)))

end Sys2Proof.Laws
end

section
/-! SUPPORT. The boot ROM, its timeouts and the start of Uzomel (R477, R489, R497 to R499, R506): what a port's link going down
leaves of the boot phase, and the states that the boot ends in. -/

namespace Sys2Proof

open Sys2Proof.Machine

/-- The queues have two parts in the frame, the messages held for a port and the rest. -/
theorem Only.que_eq_held {P : List Part} {s t : State} (h : Only P s t) (hq : Part.que ∉ P) :
    t.que = { s.que with held := t.que.held } := by
  have hrest : { t.que with held := s.que.held } = s.que := h.2 .que hq
  rw [← hrest]

end Sys2Proof

namespace Sys2Proof.Laws

open Sys2Proof.Machine

/-! ## A port's link goes down in the phase that it is (R347) -/

theorem foldl_phase {α : Type} {f : State → α → State} (hf : ∀ x a, (f x a).power.phase = x.power.phase) (l : List α) (s : State) :
    (l.foldl f s).power.phase = s.power.phase :=
  List.foldlRecOn (motive := fun x => x.power.phase = s.power.phase) l f rfl fun x hx a _ => (hf x a).trans hx

theorem recallRequest_phase (a : Nat) (s : State) : (recallRequest a s).power.phase = s.power.phase :=
  (recallRequest_onward (.refl s)).phase

theorem dropCmd_phase (a : Nat) (s : State) : (dropCmd a s).power.phase = s.power.phase := by
  unfold dropCmd
  split
  · rfl
  · extract_lets forgotten _ unlisted reverted _ unasked unloaded n undo restored _
    have hreverted : reverted.power.phase = s.power.phase :=
      ((revertKv_only ..).phase_eq rfl).trans (recallRequest_phase a unlisted)
    have hunloaded : unloaded.power.phase = s.power.phase := ((stopLoad_only a unasked).phase_eq rfl).trans hreverted
    exact (foldl_phase (fun x m => (modSlot_only m _ x).phase_eq rfl) undo unloaded).trans hunloaded

theorem dropPair_phase (q : Nat) (s : State) : (dropPair q s).power.phase = s.power.phase :=
  foldl_phase (fun x a => dropCmd_phase a x) _ s

theorem portQueues_phase (p : Port) (s : State) : (portQueues p s).power.phase = s.power.phase := by
  unfold portQueues
  split
  · rfl
  · exact (askReady_onward (.refl _)).phase.trans (foldl_phase (fun x q => dropPair_phase q x) _ s)

theorem portLinkDown_phase (p : Port) (s : State) : (portLinkDown p s).power.phase = s.power.phase :=
  ((dropEngine_only p _).phase_eq rfl).trans (((modPort_only p _ _).phase_eq rfl).trans (portQueues_phase p s))

/-! ## The entry into recovery (R506) -/

/-- What the ROM notes before it wakes Port U: the reason, the end of what was under way, a record and FAULT_N. -/
def recoveryNoted (reason : Nat) (s : State) : State :=
  let s := { s with regs := { s.regs with rcvState := 0, rcvReason := BitVec.ofNat 8 reason } }
  assertFault (romRecord .recovery reason (modSec (fun x => { x with recoveryAsked := false, pldm := .idle, recoveryImage := [] }) s))

theorem enterRecovery_eq (reason : Nat) (s : State) : enterRecovery reason s = wakePort .u (recoveryNoted reason
    (portOff .d (portLinkDown .d { s with power := { s.power with phase := .recovery } }))) := rfl

/-- R506, R509: recovery with its reason, FAULT_N, and security as it was but for what recovery ends. -/
theorem enterRecovery_spec (reason : Nat) (s : State) :
    (enterRecovery reason s).power.phase = .recovery ∧ (enterRecovery reason s).regs.rcvReason = BitVec.ofNat 8 reason ∧
      (enterRecovery reason s).power.faultN = true ∧
      (enterRecovery reason s).sec = { s.sec with recoveryAsked := false, pldm := .idle, recoveryImage := [] } := by
  rw [enterRecovery_eq]
  generalize hdown : portOff .d (portLinkDown .d { s with power := { s.power with phase := .recovery } }) = u
  have hphase : u.power.phase = .recovery := by
    rw [← hdown]
    exact ((portOff_only ..).phase_eq rfl).trans (portLinkDown_phase .d _)
  have hsec : u.sec = s.sec := by
    rw [← hdown, portOff_sec, portLinkDown_sec]
  have hwake := wakePort_only .u (recoveryNoted reason u)
  refine ⟨(hwake.phase_eq rfl).trans hphase, ?_, hwake.faultN_eq rfl, ?_⟩
  · rw [hwake.regs_eq (by decide) (by decide)]
    rfl
  · rw [wakePort_sec]
    change { u.sec with recoveryAsked := false, pldm := .idle, recoveryImage := [] } = _
    rw [hsec]

/-! ## BOOT_ROM_RUN -/

/-- The identity keys are noted in security, and a loss is told elsewhere (R515). -/
theorem unwrapIdentity_spec (ok : Bool) (s : State) :
    (unwrapIdentity ok s).sec = { s.sec with identity := ok } ∧ (unwrapIdentity ok s).part816 = s.part816 := by
  cases ok <;> exact ⟨rfl, rfl⟩

/-- The checks of R498 read the policy, the firmware counter and the part of the state alone. -/
theorem imageReason_congr {s t : State} (hpolicy : t.sec.policy = s.sec.policy) (hpairs : t.sec.svnPairs = s.sec.svnPairs)
    (hpart : t.part816 = s.part816) (b : Bytes) (readable : Bool) : imageReason t b readable = imageReason s b readable := by
  simp only [imageReason, hpolicy, hpairs, hpart]

theorem exec_bootRomRun {ok : Bool} {s : State} (hrom : s.power.phase = .rom) : exec (.bootRomRun ok) s =
    .next (if s.sec.recoveryAsked then enterRecovery 0 (unwrapIdentity ok s)
      else if imageReason s s.sec.slot s.sec.slotReadable = 0 then startFirmware (unwrapIdentity ok s)
      else enterRecovery (imageReason s s.sec.slot s.sec.slotReadable) (unwrapIdentity ok s)) := by
  obtain ⟨hsec, hpart⟩ := unwrapIdentity_spec ok s
  have hreason := imageReason_congr (s := s) (t := unwrapIdentity ok s) (by rw [hsec]) (by rw [hsec]) hpart
    s.sec.slot s.sec.slotReadable
  change execBootRomRun ok s = _
  unfold execBootRomRun
  rw [if_neg (by rw [hrom]; decide)]
  simp only [hsec, hreason]
  split <;> rfl

theorem bootRomRun_asked {ok : Bool} {s : State} (hrom : s.power.phase = .rom) (hasked : s.sec.recoveryAsked = true) :
    Completes (.bootRomRun ok) s fun t =>
      t.power.phase = .recovery ∧ t.regs.rcvReason = 0 ∧ t.power.faultN = true ∧ t.sec.identity = ok ∧
      t.sec.recoveryAsked = false ∧ t.sec.policy = s.sec.policy := by
  have hexec := exec_bootRomRun (ok := ok) hrom
  rw [if_pos hasked] at hexec
  obtain ⟨hphase, hreason, hfault, hsec⟩ := enterRecovery_spec 0 (unwrapIdentity ok s)
  rw [(unwrapIdentity_spec ok s).1] at hsec
  exact ⟨_, hexec, hphase, hreason, hfault, by rw [hsec], by rw [hsec], by rw [hsec]⟩

theorem bootRomRun_checked {ok : Bool} {s : State} (hrom : s.power.phase = .rom) (hasked : s.sec.recoveryAsked = false) :
    Completes (.bootRomRun ok) s fun t =>
      if imageReason s s.sec.slot s.sec.slotReadable = 0 then
        t.power.phase = .firmware ∧ t.sec.locked = true ∧ t.sec.measure2 = firmwareHash s.sec.slot ∧ t.sec.identity = ok ∧
        t.sec.svnPairs = (if ratchetCount s.sec.svnPairs < fld s.sec.slot 0xC 2
          then ratchetAdvance s.sec.svnPairs (fld s.sec.slot 0xC 2) else s.sec.svnPairs) ∧
        t.sec.policy = s.sec.policy
      else
        t.power.phase = .recovery ∧ t.regs.rcvReason = BitVec.ofNat 8 (imageReason s s.sec.slot s.sec.slotReadable) ∧
        t.power.faultN = true ∧ t.sec.identity = ok ∧ t.sec.svnPairs = s.sec.svnPairs ∧ t.sec.policy = s.sec.policy := by
  have hexec := exec_bootRomRun (ok := ok) hrom
  rw [if_neg (by simp [hasked])] at hexec
  obtain ⟨hunwrapped, -⟩ := unwrapIdentity_spec ok s
  refine ⟨_, hexec, ?_⟩
  by_cases hpass : imageReason s s.sec.slot s.sec.slotReadable = 0
  · simp only [if_pos hpass, startFirmware, modSec, hunwrapped, and_self]
  · simp only [if_neg hpass]
    obtain ⟨hphase, hreason, hfault, hsec⟩ :=
      enterRecovery_spec (imageReason s s.sec.slot s.sec.slotReadable) (unwrapIdentity ok s)
    rw [hunwrapped] at hsec
    exact ⟨hphase, hreason, hfault, by rw [hsec], by rw [hsec], by rw [hsec]⟩

/-! ## BOOT_OSC_TIMEOUT -/

theorem domState_portOff_self (p : Port) (s : State) : domState (portOff p s) (domPort p) = .off := by
  simp [domState, domOf, portOff, modDom, tmod]

theorem domState_portOff_other {p q : Port} (h : q ≠ p) (s : State) :
    domState (portOff p s) (domPort q) = domState s (domPort q) := by
  have hdom : domPort q ≠ domPort p := by
    cases p <;> cases q
    · exact absurd rfl h
    · decide
    · decide
    · exact absurd rfl h
  simp [domState, domOf, portOff, modDom, tget_tmod_ne _ _ _ hdom]

/-- Settles O10: the ROM's rows end in `enterRecovery` or `startFirmware`, whose states are read once; the start of Uzomel moves
security by the power-cycle pairs alone. -/
theorem bootRomCommands : Obligations.BootRomCommands := by
  refine ⟨fun s hrom => ?osc, fun ok s hrom hasked => bootRomRun_asked hrom hasked,
    fun ok s hrom hasked => bootRomRun_checked hrom hasked, fun s hfirm => ?timeout, fun lost s hfirm => ?ready⟩
  case osc =>
    have hexec : exec .bootOscTimeout s = .next (assertFault (romRecord .oscFailed 0
        (portOff .d (portOff .u { s with power := { s.power with phase := .oscFailed } })))) :=
      if_neg (by rw [hrom]; decide)
    refine ⟨_, hexec, rfl, rfl, ?_, domState_portOff_self .d _, execBootOscTimeout_only s _ hexec⟩
    exact (domState_portOff_other (by decide) _).trans (domState_portOff_self .u _)
  case timeout =>
    have hexec : exec .recoveryTimeout s = .next (enterRecovery 0 s) := if_pos (by rw [hfirm]; decide)
    obtain ⟨hphase, hreason, hfault, hsec⟩ := enterRecovery_spec 0 s
    exact ⟨_, hexec, hphase, hreason, hfault, by rw [hsec]⟩
  case ready =>
    have hexec := execUzomelReady_eq lost hfirm
    have honly := execUzomelReady_only lost s _ hexec
    have hsec := execUzomelReady_sec hexec hfirm
    refine ⟨_, hexec, ?_, (congrArg Sec.cyclePairs hsec :), (congrArg Sec.policy hsec :), (congrArg Sec.svnPairs hsec :),
      honly.que_eq_held (by decide), honly⟩
    · rw [(raiseRefetch_only _).phase_eq rfl, (wakeLinks_only _).phase_eq rfl]
      unfold refusalRaised
      split
      · exact (raise_only ..).phase_eq rfl
      · rfl

end Sys2Proof.Laws
end

section
/-! SUPPORT. Messages and aborts of a device group (R384, R403): what is sent reaches the gang's link, an abort goes on as
`Onward` says and leaves nothing of its keys, and a stopped request is gone or stays stopped. -/

namespace Sys2Proof

open Sys2Proof.Machine Sys2Proof.Laws

section Gangs

variable {s t : State}

/-! ## Gangs under `Onward` (R381, R389) -/

theorem Onward.gangLinks_eq (h : Onward s t) (m : Nat) : gangLinks t m = gangLinks s m := by
  unfold gangLinks
  refine List.filter_congr fun n _ => ?_
  have hsame := (h.strait.links n).same
  have hstate : (linkOf t n).state = (linkOf s n).state := (congrArg Link.state hsame :)
  have hpeer : (linkOf t n).peerA = (linkOf s n).peerA := (congrArg Link.peerA hsame :)
  rw [linkReaches, linkReaches, hstate, hpeer]

theorem Onward.gangs_eq (h : Onward s t) : t.strait.gangs = s.strait.gangs := (congrArg Strait.gangs h.strait.rest :)

theorem Onward.gangState_eq (h : Onward s t) (m : Nat) : gangState t m = gangState s m := by
  rw [gangState, gangState, h.gangLinks_eq, h.gangs_eq]

end Gangs

end Sys2Proof

namespace Sys2Proof.Laws

open Sys2Proof.Machine

variable {s₀ s t : State}

theorem gangLinks_of_exchange {k m : Nat} (hk : k < 14) (hopen : (linkOf s k).state = .exchange)
    (hpeer : (linkOf s k).peerA.toNat = m) : gangLinks s m ≠ [] :=
  List.ne_nil_of_mem (List.mem_filter.2 ⟨List.mem_range.2 hk, by simp [linkReaches, hopen, hpeer]⟩)

/-! ## What is sent (R384, R386) -/

/-- R384: a gang that has a link carries the message. -/
theorem sendCtl_sends {m : Nat} (kind : Nat) (ws : List Nat) (hgang : gangLinks s m ≠ []) :
    .straitControl m kind ws ∈ (sendCtl m kind ws s).out := by
  have hlen : 0 < (gangLinks s m).length := List.length_pos_of_ne_nil hgang
  have hlink : gangLink s m 2336 = some ((gangLinks s m)[2336 % (gangLinks s m).length]'(Nat.mod_lt _ hlen)) := by
    have hmax : max 1 (gangLinks s m).length = (gangLinks s m).length := Nat.max_eq_right hlen
    simp only [gangLink, hmax, List.getElem?_eq_getElem (Nat.mod_lt _ hlen)]
  unfold sendCtl sendCtlBy
  rw [hlink]
  generalize (gangLinks s m)[2336 % (gangLinks s m).length]'(Nat.mod_lt _ hlen) = k at hlink
  have hsent : Onward s (send (.straitControl m kind ws) s) := send_onward (.refl s)
  have hopen : ∀ {u : State}, Onward s u → (linkOf u k).state = .exchange := fun h =>
    (h.strait.links k).state_eq.trans (exchange_of_gangLink hlink)
  refine List.foldlRecOn (motive := fun u => Onward s u ∧ OutMsg.straitControl m kind ws ∈ u.out) _ _
    ⟨hsent, List.mem_append_right _ (List.mem_singleton.2 rfl)⟩ (fun u hu c _ => ?_) |>.2
  have hnext := transmit_onward (type := 2) (poison := 0) (words := c) (hopen hu.1) (.refl u)
  exact ⟨hu.1.trans hnext, hnext.out _ hu.2⟩

/-- Each member whose gang has a link gets the message. -/
theorem foldl_sendCtl_sends {l : List Nat} {p : Nat} (kind : Nat) (ws : List Nat) (hp : p ∈ l) (hgang : gangLinks s p ≠ []) :
    .straitControl p kind ws ∈ (l.foldl (fun s m => sendCtl m kind ws s) s).out := by
  induction l generalizing s with
  | nil => cases hp
  | cons q l ih =>
    rw [List.foldl_cons]
    have hsent : Onward s (sendCtl q kind ws s) := sendCtl_onward (.refl s)
    obtain rfl | hp := List.mem_cons.1 hp
    · exact (foldl_sendCtl_onward (.refl _)).out _ (sendCtl_sends kind ws hgang)
    · exact ih hp (by rwa [hsent.gangLinks_eq])

theorem sendManifest_onward (hs : Onward s₀ s) : Onward s₀ (sendManifest s) :=
  .foldl (fun _ _ h => .ite h (sendCtl_onward h)) hs

/-! ## Aborts (R403) -/

/-- What is agreed and reported of these KEYs is forgotten. -/
def keysForgotten (keys : List (BitVec 64)) (s : State) : State :=
  modStrait (fun g => { g with agreed := g.agreed.filter (fun e => !(e.1.any fun k => keys.contains k))
                               reports := g.reports.filter fun r => !keys.contains r.key }) s

theorem keysForgotten_onward {keys : List (BitVec 64)} (hs : Onward s₀ s) : Onward s₀ (keysForgotten keys s) :=
  { hs with strait := hs.strait.trans ⟨rfl, fun _ => .refl _, fun _ h => (List.mem_filter.1 h).1,
      fun _ h => .inl (List.mem_filter.1 h).1⟩ }

theorem foldl_stopRequest_onward {l : List Nat} {status : Nat} (hs : Onward s₀ s) :
    Onward s₀ (l.foldl (fun s a => stopRequest a status 0 false s) s) := .foldl (fun _ _ h => stopRequest_onward h) hs

/-- The requests of these KEYs are stopped once what was agreed of them is forgotten, and one abort is told. -/
theorem abortKeys_eq (unit : Nat) (keys : List (BitVec 64)) (s : State) : abortKeys unit keys s =
    if groupReqs s keys = [] then keysForgotten keys s
    else raise .groupAborted 8 unit (bump (ob 0x6208 1)
      ((groupReqs s keys).foldl (fun s a => stopRequest a St.groupAborted 0 false s) (keysForgotten keys s))) := rfl

theorem abortKeys_from {unit : Nat} {keys : List (BitVec 64)} : Onward (keysForgotten keys s) (abortKeys unit keys s) := by
  rw [abortKeys_eq]
  exact .ite (.refl _) (raise_onward (bump_onward (by decide) (foldl_stopRequest_onward (.refl _))))

theorem abortKeys_onward {unit : Nat} {keys : List (BitVec 64)} (hs : Onward s₀ s) : Onward s₀ (abortKeys unit keys s) :=
  (keysForgotten_onward hs).trans abortKeys_from

/-- Where ABORT is sent first, the abort here follows, and one without requests of its own is told all the same. -/
theorem sendAbort_from {unit : Nat} {keys : List (BitVec 64)} (hkeys : keys ≠ []) :
    Onward (abortKeys unit keys ((peersOf s).foldl (fun s m => sendCtl m ctlAbort (keys.map BitVec.toNat) s) s))
      (sendAbort unit keys s) := by
  unfold sendAbort
  rw [if_neg hkeys]
  exact .ite (raise_onward (bump_onward (by decide) (.refl _))) (.refl _)

theorem sendAbort_onward {unit : Nat} {keys : List (BitVec 64)} (hs : Onward s₀ s) : Onward s₀ (sendAbort unit keys s) := by
  by_cases hkeys : keys = []
  · unfold sendAbort
    rwa [if_pos hkeys]
  · exact (abortKeys_onward (foldl_sendCtl_onward hs)).trans (sendAbort_from hkeys)

theorem abortRunning_onward {unit : Nat} (hs : Onward s₀ s) : Onward s₀ (abortRunning unit s) := sendAbort_onward hs

theorem keysForgotten_reports {keys : List (BitVec 64)} {r : GroupReq} (h : r ∈ (keysForgotten keys s).strait.reports) :
    r.key ∉ keys := by
  have hkept := (List.mem_filter.1 h).2
  simpa using hkept

theorem keysForgotten_agreed {keys : List (BitVec 64)} {g : List (BitVec 64) × BitVec 16 × BitVec 64}
    (h : g ∈ (keysForgotten keys s).strait.agreed) : ∀ k ∈ g.1, k ∉ keys := by
  have hkept := (List.mem_filter.1 h).2
  simpa using hkept

/-- What has been forgotten is not agreed again, for a launch is agreed of reported requests alone. -/
theorem forgotten_of_onward {keys : List (BitVec 64)} (h : Onward (keysForgotten keys s) t) :
    (∀ r ∈ t.strait.reports, r.key ∉ keys) ∧ ∀ g ∈ t.strait.agreed, ∀ k ∈ g.1, k ∉ keys := by
  refine ⟨fun r hr => keysForgotten_reports (h.strait.reports r hr), fun g hg k hk => ?_⟩
  obtain hold | hnew := h.strait.agreed g hg
  · exact keysForgotten_agreed hold k hk
  · obtain ⟨r, hr, rfl⟩ := hnew k hk
    exact keysForgotten_reports hr

theorem sendAbort_reports {unit : Nat} {keys : List (BitVec 64)} (hkeys : keys ≠ []) :
    ∀ r ∈ (sendAbort unit keys s).strait.reports, r.key ∉ keys :=
  (forgotten_of_onward (abortKeys_from.trans (sendAbort_from hkeys))).1

theorem sendAbort_sends {unit : Nat} {keys : List (BitVec 64)} {p : Nat} (hkeys : keys ≠ []) (hp : p ∈ peersOf s)
    (hgang : gangLinks s p ≠ []) : .straitControl p ctlAbort (keys.map BitVec.toNat) ∈ (sendAbort unit keys s).out :=
  ((abortKeys_onward (.refl _)).trans (sendAbort_from hkeys)).out _ (foldl_sendCtl_sends ctlAbort _ hp hgang)

/-! ## Stopped requests (R190) -/

/-- In a rising table the request, if it is still there, has been stopped. -/
def Ended (a : Nat) (s : State) : Prop :=
  (tkeys s.que.reqs).Pairwise (· < ·) ∧ ∀ q, tget? s.que.reqs a = some q → q.stopped.isSome = true

theorem Ended.onward {a : Nat} (h : Ended a s) (k : Onward s t) : Ended a t := by
  obtain ⟨hup, hstop⟩ := h
  obtain ⟨hup', hold⟩ := k.reqs hup
  refine ⟨hup', fun q hq => ?_⟩
  obtain ⟨p, hp, hkeep⟩ := hold a q hq
  exact hkeep (hstop p hp)

theorem modReq_ended {a : Nat} {f : Req → Req} (hf : ∀ r, (f r).stopped.isSome = true) (hup : (tkeys s.que.reqs).Pairwise (· < ·)) :
    Ended a (modReq a f s) := by
  unfold modReq
  split
  next r hr =>
    refine ⟨rising_tset _ _ hup, fun q hq => ?_⟩
    rw [tget?_tset_self] at hq
    cases hq
    exact hf r
  next hnone =>
    refine ⟨hup, fun q hq => ?_⟩
    rw [hnone] at hq
    cases hq

/-- R190: a stopped request is gone, or stays stopped. -/
theorem stopRequest_ended {a status detail : Nat} {discarded : Bool} (hup : (tkeys s.que.reqs).Pairwise (· < ·)) :
    Ended a (stopRequest a status detail discarded s) := by
  unfold stopRequest
  split
  next hnone => exact ⟨hup, fun q hq => by rw [hnone] at hq; cases hq⟩
  next r hr =>
    split
    next hstop =>
      refine ⟨hup, fun q hq => ?_⟩
      rw [hr] at hq
      cases hq
      exact hstop
    next => exact (modReq_ended (fun _ => rfl) hup).onward (finish_onward (revertKv_onward (recallRequest_onward (.refl _))))

theorem foldl_stopRequest_ended {l : List Nat} {status a : Nat} (ha : a ∈ l) (hup : (tkeys s.que.reqs).Pairwise (· < ·)) :
    Ended a (l.foldl (fun s a => stopRequest a status 0 false s) s) := by
  induction l generalizing s with
  | nil => cases ha
  | cons b l ih =>
    rw [List.foldl_cons]
    have hstopped : Ended b (stopRequest b status 0 false s) := stopRequest_ended hup
    obtain rfl | ha := List.mem_cons.1 ha
    · exact hstopped.onward (foldl_stopRequest_onward (.refl _))
    · exact ih ha hstopped.1

end Sys2Proof.Laws
end

section
/-! SUPPORT. Manifests and Tide measurements (R392, R394, R399, R400): what an epoch and a judgement leave of the group's record,
and where each gang stands once the manifests have been compared. -/

namespace Sys2Proof.Laws

open Sys2Proof.Machine

variable {s t : State}

/-! ## The judgement of the manifests (R394) -/

/-- The member's manifest is the reference but for its own number. -/
def agreesIn (s : State) (m : Nat) : Bool := decide (comparedPart (manifestOf s m) = referenceManifest s)

/-- Where the gang to member m stands by the manifests. -/
def verdict (agrees : Nat → Bool) (s : State) (m : Nat) : LinkState :=
  if agrees m && agrees (selfId s) && !s.strait.left then .active else .quarantine

/-- The judgement of one gang. -/
def judgeGang (agrees : Nat → Bool) (s : State) (m : Nat) : State :=
  if gangLinks s m = [] then s
  else if agrees m && agrees (selfId s) && !s.strait.left then cause 7 (setGang m .active s)
  else if gangState s m == .quarantine then s
  else bump (ob 0x6209 1) (cause 7 (setGang m .quarantine s))

def gangsJudged (s : State) : State := (peersOf s).foldl (judgeGang (agreesIn s)) s

/-- The members that differ are named (R394). -/
def differencesTold (agrees : Nat → Bool) (ref : Bytes) (s : State) : State :=
  (membersOf s).foldl (fun s m =>
    if agrees m then s else raise .disagree 8 (m + 256 * fieldMask (comparedPart (manifestOf s m)) ref) s) s

/-- Since when the group disagrees (R396). -/
def disagreementNoted (s : State) : State :=
  modStrait (fun g => { g with
    disagreeSince := if reconciled s then none else some (s.strait.disagreeSince.getD (tideOf s)) }) s

theorem judgeManifests_eq (s : State) : judgeManifests s =
    disagreementNoted (differencesTold (agreesIn s) (referenceManifest s) (gangsJudged s)) := by
  have htold : ∀ u : State, (membersOf u).foldl (fun s' m =>
      if comparedPart (manifestOf s m) = referenceManifest s then s'
      else raise .disagree 8 (m + 256 * fieldMask (comparedPart (manifestOf s' m)) (referenceManifest s)) s') u =
      differencesTold (agreesIn s) (referenceManifest s) u := by
    intro u
    simp only [differencesTold, agreesIn, decide_eq_true_eq]
  exact congrArg disagreementNoted (htold (gangsJudged s))

/-- Of the group's record, only the gangs have moved, and the module is the same member. -/
def BesideGangs (s t : State) : Prop := { t.strait with gangs := s.strait.gangs } = s.strait ∧ selfId t = selfId s

theorem BesideGangs.refl (s : State) : BesideGangs s s := ⟨rfl, rfl⟩

theorem BesideGangs.trans {u : State} (h : BesideGangs s t) (k : BesideGangs t u) : BesideGangs s u :=
  ⟨(congrArg (fun g : Strait => { g with gangs := s.strait.gangs }) k.1).trans h.1, k.2.trans h.2⟩

theorem BesideGangs.gangLinks_eq (h : BesideGangs s t) (m : Nat) : gangLinks t m = gangLinks s m := by
  have hlinks : t.strait.links = s.strait.links := (congrArg Strait.links h.1 :)
  simp only [gangLinks, linkOf, hlinks]

theorem BesideGangs.verdict_eq (h : BesideGangs s t) (agrees : Nat → Bool) (m : Nat) : verdict agrees t m = verdict agrees s m := by
  have hleft : t.strait.left = s.strait.left := (congrArg Strait.left h.1 :)
  rw [verdict, verdict, h.2, hleft]

theorem judgeGang_besideGangs (agrees : Nat → Bool) (s : State) (m : Nat) : BesideGangs s (judgeGang agrees s m) := by
  unfold judgeGang
  split
  · exact .refl s
  split
  · exact ⟨rfl, rfl⟩
  split
  · exact .refl s
  · exact ⟨rfl, rfl⟩

theorem gangState_setGang_self {m : Nat} (st : LinkState) (hgang : gangLinks s m ≠ []) : gangState (setGang m st s) m = st := by
  have hlinks : gangLinks (setGang m st s) m = gangLinks s m := rfl
  rw [gangState, hlinks, if_neg hgang]
  exact tget_tset_self ..

theorem gangState_setGang_ne {m p : Nat} (st : LinkState) (h : p ≠ m) : gangState (setGang m st s) p = gangState s p := by
  have hlinks : gangLinks (setGang m st s) p = gangLinks s p := rfl
  rw [gangState, gangState, hlinks]
  exact if_congr Iff.rfl rfl (tget_tset_ne _ _ _ h)

theorem gangState_judgeGang_self (agrees : Nat → Bool) {m : Nat} (hgang : gangLinks s m ≠ []) :
    gangState (judgeGang agrees s m) m = verdict agrees s m := by
  unfold judgeGang verdict
  rw [if_neg hgang]
  split
  · exact gangState_setGang_self .active hgang
  split
  next h => exact beq_iff_eq.1 h
  next => exact gangState_setGang_self .quarantine hgang

theorem gangState_judgeGang_ne (agrees : Nat → Bool) {m p : Nat} (h : p ≠ m) :
    gangState (judgeGang agrees s m) p = gangState s p := by
  unfold judgeGang
  split
  · rfl
  split
  · exact gangState_setGang_ne .active h
  split
  · rfl
  · exact gangState_setGang_ne .quarantine h

theorem foldl_judgeGang_besideGangs (agrees : Nat → Bool) (l : List Nat) (s : State) :
    BesideGangs s (l.foldl (judgeGang agrees) s) :=
  List.foldlRecOn l _ (.refl s) fun _ hx m _ => hx.trans (judgeGang_besideGangs agrees _ m)

/-- A gang that is judged, or that stands as the verdict has it, stands so after the round. -/
theorem gangState_foldl_judgeGang (agrees : Nat → Bool) {p : Nat} (l : List Nat) (s : State) (hgang : gangLinks s p ≠ [])
    (h : p ∈ l ∨ gangState s p = verdict agrees s p) : gangState (l.foldl (judgeGang agrees) s) p = verdict agrees s p := by
  induction l generalizing s with
  | nil => exact h.resolve_left List.not_mem_nil
  | cons m l ih =>
    have hkept := judgeGang_besideGangs agrees s m
    rw [List.foldl_cons, ih _ (by rwa [hkept.gangLinks_eq]), hkept.verdict_eq]
    rw [hkept.verdict_eq]
    obtain rfl | hpm := eq_or_ne p m
    · exact .inr (gangState_judgeGang_self agrees hgang)
    · rw [gangState_judgeGang_ne agrees hpm]
      exact h.imp_left fun hmem => (List.mem_cons.1 hmem).resolve_left hpm

theorem gangState_of_strait (h : t.strait = s.strait) (m : Nat) : gangState t m = gangState s m := by
  unfold gangState gangLinks linkOf
  rw [h]

theorem differencesTold_strait (agrees : Nat → Bool) (ref : Bytes) (s : State) :
    (differencesTold agrees ref s).strait = s.strait :=
  List.foldlRecOn (motive := fun u => u.strait = s.strait) _ _ rfl fun (u : State) hu m _ => by
    split
    · exact hu
    · have hraised := raise_only .disagree 8 (m + 256 * fieldMask (comparedPart (manifestOf u m)) ref) u
      have hsame : (raise _ _ _ u).strait = u.strait := hraised.2 .strait (by decide)
      exact hsame.trans hu

/-- R394: a gang is ACTIVE where both manifests agree with the reference, and QUARANTINE elsewhere. -/
theorem gangState_judgeManifests {p : Nat} (hp : p ∈ peersOf s) (hgang : gangLinks s p ≠ []) :
    gangState (judgeManifests s) p = verdict (agreesIn s) s p := by
  have hstrait := differencesTold_strait (agreesIn s) (referenceManifest s) (gangsJudged s)
  have hlast : gangState (judgeManifests s) p = gangState (gangsJudged s) p := by
    rw [judgeManifests_eq]
    exact gangState_of_strait hstrait p
  rw [hlast]
  exact gangState_foldl_judgeGang (agreesIn s) _ s hgang (.inl hp)

/-- A judgement moves the gangs and the start of the disagreement alone. -/
theorem judgeManifests_strait (s : State) :
    { (judgeManifests s).strait with gangs := s.strait.gangs, disagreeSince := s.strait.disagreeSince } = s.strait := by
  have hgangs : { (gangsJudged s).strait with gangs := s.strait.gangs } = s.strait :=
    (foldl_judgeGang_besideGangs (agreesIn s) (peersOf s) s).1
  have htold := differencesTold_strait (agreesIn s) (referenceManifest s) (gangsJudged s)
  have hnoted : ∀ u : State, { (disagreementNoted u).strait with gangs := s.strait.gangs, disagreeSince := s.strait.disagreeSince } =
      { u.strait with gangs := s.strait.gangs, disagreeSince := s.strait.disagreeSince } := fun _ => rfl
  rw [judgeManifests_eq, hnoted, htold]
  exact (congrArg (fun g : Strait => { g with disagreeSince := s.strait.disagreeSince }) hgangs :)

/-! ## The opening of a group epoch (R400) -/

/-- The manifests that have come are kept, and no exchange of an ended measurement comes back. -/
def MeasuresKept (s t : State) : Prop :=
  t.strait.manifests = s.strait.manifests ∧ (s.strait.thetas = [] → t.strait.thetas = [])

theorem openGroupEpoch_measuresKept (e : Nat) (step : Int) (s : State) : MeasuresKept s (openGroupEpoch e step s) := by
  unfold openGroupEpoch
  extract_lets counted off _ _ stepped rearmed opened sent
  have hsent : Onward opened sent := sendManifest_onward (.refl opened)
  have hmanifests : sent.strait.manifests = opened.strait.manifests := (congrArg Strait.manifests hsent.strait.rest :)
  have hthetas : sent.strait.thetas = opened.strait.thetas := (congrArg Strait.thetas hsent.strait.rest :)
  have hcounted : counted.strait = s.strait := by
    unfold counted
    split <;> rfl
  refine ⟨?_, fun _ => hthetas⟩
  have hopened : opened.strait.manifests = counted.strait.manifests := rfl
  exact hmanifests.trans (hopened.trans (congrArg Strait.manifests hcounted))

theorem tryOpenEpoch_measuresKept (s : State) : MeasuresKept s (tryOpenEpoch s) := by
  have hsame : MeasuresKept s s := ⟨rfl, id⟩
  unfold tryOpenEpoch
  split
  · exact hsame
  split
  · split
    · exact openGroupEpoch_measuresKept ..
    · exact hsame
  split
  · exact hsame
  extract_lets e
  split
  · exact hsame
  split
  · exact openGroupEpoch_measuresKept ..
  split
  · exact openGroupEpoch_measuresKept ..
  · exact hsame

theorem tryOpenEpoch_settled (h : s.strait.joining = false) : tryOpenEpoch s = s := if_pos (by simp [h])

/-- With no join open, the manifests are judged once all have come. -/
theorem afterManifest_settled (h : s.strait.joining = false) :
    afterManifest s = if allCollected s then judgeManifests s else s := by
  unfold afterManifest
  rw [tryOpenEpoch_settled h]
  by_cases hall : allCollected s = true <;> simp [h, hall]

theorem afterManifest_measuresKept (s : State) : MeasuresKept s (afterManifest s) := by
  have hopened := tryOpenEpoch_measuresKept s
  unfold afterManifest
  extract_lets opened
  split
  · exact hopened
  · have hjudged := judgeManifests_strait opened
    have hmanifests : (judgeManifests opened).strait.manifests = opened.strait.manifests := (congrArg Strait.manifests hjudged :)
    have hthetas : (judgeManifests opened).strait.thetas = opened.strait.thetas := (congrArg Strait.thetas hjudged :)
    exact ⟨hmanifests.trans hopened.1, fun h => hthetas.trans (hopened.2 h)⟩

theorem MeasuresKept.onward {u : State} (h : MeasuresKept s t) (k : Onward t u) : MeasuresKept s u := by
  have hmanifests : u.strait.manifests = t.strait.manifests := (congrArg Strait.manifests k.strait.rest :)
  have hthetas : u.strait.thetas = t.strait.thetas := (congrArg Strait.thetas k.strait.rest :)
  exact ⟨hmanifests.trans h.1, fun hs => hthetas.trans (h.2 hs)⟩

/-! ## MANIFEST_RECEIVE -/

/-- The manifest of member m has come. -/
def manifestTaken (m : Nat) (b : Bytes) (s : State) : State :=
  modStrait (fun g => { g with manifests := tset g.manifests m b, collected := insertUp m g.collected }) s

theorem exec_manifestReceive_idle {b : Bytes} (h : (peersOf s).contains (fld b 6 1) = false ∨ gangLinks s (fld b 6 1) = []) :
    exec (.manifestReceive b) s = .next s := by
  refine if_pos ?_
  obtain h | h := h
  · rw [h]
    rfl
  · simp [h]

theorem exec_manifestReceive_taken {b : Bytes} (hpeer : (peersOf s).contains (fld b 6 1) = true)
    (hgang : gangLinks s (fld b 6 1) ≠ []) :
    exec (.manifestReceive b) s = .next (askReady (afterManifest (manifestTaken (fld b 6 1) b s))) :=
  if_neg (by rw [hpeer, decide_eq_false hgang]; decide)

/-- R394: the judgement that the last manifest brings. -/
theorem gangState_manifestTaken {m p : Nat} {b : Bytes} (hjoin : s.strait.joining = false)
    (hall : ∀ q ∈ peersOf s, q = m ∨ q ∈ s.strait.collected) (hp : p ∈ peersOf s) (hgang : gangLinks s p ≠ []) :
    gangState (askReady (afterManifest (manifestTaken m b s))) p =
      verdict (agreesIn (manifestTaken m b s)) (manifestTaken m b s) p := by
  have hcollected : allCollected (manifestTaken m b s) = true := by
    unfold allCollected
    rw [List.all_eq_true]
    intro q hq
    rw [List.contains_iff_mem]
    exact mem_insertUp.2 (hall q hq)
  rw [(askReady_onward (.refl _)).gangState_eq, afterManifest_settled (s := manifestTaken m b s) hjoin,
    if_pos hcollected]
  exact gangState_judgeManifests hp hgang

end Sys2Proof.Laws
end

section
/-! SUPPORT. Tide alignment and the group commit (R395, R399, R401): a measurement of sixteen exchanges, the sync timer with a
member that leaves, and what the commit makes active. -/

namespace Sys2Proof.Laws

open Sys2Proof.Machine

variable {s t : State}

/-! ## A measurement (R399) -/

theorem syncTheta_eq (t1 t2 t3 t4 : BitVec 64) : syncTheta t1 t2 t3 t4 =
    if ((t2 - t1).toInt + (t3 - t4).toInt) % 2 = 0 ∨ ((t2 - t1).toInt + (t3 - t4).toInt) / 2 % 2 = 0
    then ((t2 - t1).toInt + (t3 - t4).toInt) / 2 else ((t2 - t1).toInt + (t3 - t4).toInt) / 2 + 1 := by
  unfold syncTheta rneDiv tideDiff
  generalize (t2 - t1).toInt + (t3 - t4).toInt = d
  extract_lets q r
  have hq : q = d / 2 := rfl
  have hr : r = d % 2 := rfl
  have htwo : ((2 : Nat) : Int) = 2 := rfl
  rw [htwo, hq, hr]
  obtain heven | hodd := Int.emod_two_eq_zero_or_one d
  · rw [if_pos (by omega), if_pos (.inl heven)]
  · rw [if_neg (by omega), if_neg (by omega)]
    exact if_congr (by simp [hodd]) rfl rfl

theorem foldr_insertInt (l : List Int) : l.foldr insertInt [] = l.insertionSort (· ≤ ·) := by
  have hinsert : ∀ (n : Int) (t : List Int), insertInt n t = t.orderedInsert (· ≤ ·) n := by
    intro n t
    induction t with
    | nil => rfl
    | cons k t ih => rw [insertInt, List.orderedInsert_cons, ih]
  induction l with
  | nil => rfl
  | cons n l ih => rw [List.foldr_cons, hinsert, ih, List.insertionSort_cons]

/-- The 8th of a rising list has at most seven below it, and eight that it is not below. -/
theorem eighth_of_rising {l : List Int} (hup : l.Pairwise (· ≤ ·)) (hlen : 8 ≤ l.length) :
    l.getD 7 0 ∈ l ∧ (l.filter fun y => decide (y < l.getD 7 0)).length ≤ 7 ∧
      8 ≤ (l.filter fun y => decide (y ≤ l.getD 7 0)).length := by
  have hget : l.getD 7 0 = l[7] := List.getD_eq_getElem _ _ (by omega)
  rw [hget]
  refine ⟨List.getElem_mem _, ?_, ?_⟩
  · have hsplit : l.filter (fun y => decide (y < l[7])) =
        (l.take 7).filter (fun y => decide (y < l[7])) ++ (l.drop 7).filter (fun y => decide (y < l[7])) := by
      rw [← List.filter_append, List.take_append_drop]
    have hnone : (l.drop 7).filter (fun y => decide (y < l[7])) = [] := by
      rw [List.filter_eq_nil_iff]
      intro y hy
      obtain ⟨i, hi, rfl⟩ := List.getElem_of_mem hy
      rw [List.getElem_drop]
      have hle : l[7] ≤ l[7 + i]'(by simp at hi; omega) := by
        obtain rfl | hpos := Nat.eq_zero_or_pos i
        · exact le_refl _
        · exact List.pairwise_iff_getElem.1 hup _ _ _ _ (by omega)
      simpa using hle
    rw [hsplit, hnone, List.append_nil]
    exact (List.length_filter_le _ _).trans (by simp)
  · have hall : (l.take 8).filter (fun y => decide (y ≤ l[7])) = l.take 8 := by
      rw [List.filter_eq_self]
      intro y hy
      obtain ⟨i, hi, rfl⟩ := List.getElem_of_mem hy
      rw [List.getElem_take]
      have hi8 : i < 8 := by simp at hi; omega
      have hle : l[i]'(by omega) ≤ l[7] := by
        obtain rfl | hlt := eq_or_lt_of_le (Nat.le_of_lt_succ hi8)
        · exact le_refl _
        · exact List.pairwise_iff_getElem.1 hup _ _ _ _ hlt
      simpa using hle
    have hsub : ((l.take 8).filter fun y => decide (y ≤ l[7])).length ≤ (l.filter fun y => decide (y ≤ l[7])).length :=
      ((List.take_sublist 8 l).filter _).length_le
    rw [hall, List.length_take, Nat.min_eq_left hlen] at hsub
    exact hsub

/-- R399: the result of a measurement is the 8th smallest of its θ. -/
theorem measureResult_spec {l : List Int} (hlen : 8 ≤ l.length) :
    measureResult l ∈ l ∧ (l.filter fun y => decide (y < measureResult l)).length ≤ 7 ∧
      8 ≤ (l.filter fun y => decide (y ≤ measureResult l)).length := by
  have hperm : (l.insertionSort (· ≤ ·)).Perm l := List.perm_insertionSort _ l
  have hup : (l.insertionSort (· ≤ ·)).Pairwise (· ≤ ·) := List.pairwise_insertionSort (· ≤ ·) l
  obtain ⟨hmem, hbelow, hupto⟩ := eighth_of_rising hup (by rwa [hperm.length_eq])
  rw [measureResult, foldr_insertInt]
  exact ⟨hperm.mem_iff.1 hmem, (hperm.filter _).length_eq ▸ hbelow, (hperm.filter _).length_eq ▸ hupto⟩

/-! ## SYNC_MESSAGE -/

/-- The sixteenth exchange ends the measurement. -/
def measureTaken (l : List Int) (s : State) : State :=
  modStrait (fun g => { g with thetas := [], theta := some (measureResult l) }) s

theorem measureTaken_theta {l : List Int} (hjoin : s.strait.joining = false) :
    (askReady (afterManifest (measureTaken l s))).strait.theta = some (measureResult l) := by
  have hasked : (askReady (afterManifest (measureTaken l s))).strait.theta = (afterManifest (measureTaken l s)).strait.theta :=
    (congrArg Strait.theta (askReady_onward (.refl _)).strait.rest :)
  rw [hasked, afterManifest_settled (s := measureTaken l s) hjoin]
  split
  · exact (congrArg Strait.theta (judgeManifests_strait (measureTaken l s)) :)
  · rfl

theorem measureTaken_thetas (l : List Int) (s : State) : (askReady (afterManifest (measureTaken l s))).strait.thetas = [] :=
  ((afterManifest_measuresKept (measureTaken l s)).onward (askReady_onward (.refl _))).2 rfl

section SyncMessage

variable {half : Fin 14} {t1 t2 t3 t4 : BitVec 64}

theorem exec_syncMessage_closed (h : (linkOf s (linkKey half.val)).state ≠ .exchange)
    (x : Option (BitVec 64 × BitVec 64 × BitVec 64)) : exec (.syncMessage half t1 x) s = .next s := if_pos (by simp [h])

theorem exec_syncMessage_asked (h : (linkOf s (linkKey half.val)).state = .exchange) : exec (.syncMessage half t1 none) s =
    .next (sendCtl (linkOf s (linkKey half.val)).peerA.toNat ctlSync [t1.toNat, (tideOf s).toNat, (tideOf s).toNat] s) :=
  if_neg (by simp [h])

theorem exec_syncMessage_closes (h : (linkOf s (linkKey half.val)).state = .exchange) :
    exec (.syncMessage half t1 (some (t2, t3, t4))) s =
      if (s.strait.thetas ++ [syncTheta t1 t2 t3 t4]).length < 16
      then .next { s with strait := { s.strait with thetas := s.strait.thetas ++ [syncTheta t1 t2 t3 t4] } }
      else .next (askReady (afterManifest (measureTaken (s.strait.thetas ++ [syncTheta t1 t2 t3 t4]) s))) :=
  if_neg (by simp [h])

theorem linkKey_lt (half : Fin 14) : linkKey half.val < 14 := by
  have := half.isLt
  unfold linkKey
  omega

end SyncMessage

/-! ## A member leaves (R401, R403) -/

/-- The gangs of a member that leaves are in QUARANTINE. -/
def quarantineGang (s : State) (k : Nat) : State :=
  if gangLinks s k = [] || gangState s k == .quarantine then s
  else bump (ob 0x6209 1) (cause 7 (setGang k .quarantine s))

/-- The member that leaves is named, its gangs being in QUARANTINE. -/
def leavingNamed (m : Nat) (s : State) : State :=
  raise .memberLeft 8 (m + 2 ^ 16) ((if decide (m = selfId s) then peersOf s else [m]).foldl quarantineGang s)

/-- The disagreement begins, and where this module is the one that leaves its own alignment and its slew end. -/
def departed (m : Nat) (mine : Bool) (s : State) : State :=
  let s := if mine then bump (ob 0x2012 1) (modStrait (fun g => { g with left := true, aligned := false, measures := 0 }) s)
    else modStrait (fun g => { g with gone := insertUp m g.gone }) s
  startDisagree { s with time := { s.time with slew := if mine then 0 else s.time.slew } }

theorem memberLeaves_eq (m : Nat) (s : State) :
    memberLeaves m s = abortRunning m (departed m (decide (m = selfId s)) (leavingNamed m s)) := rfl

theorem departed_self (m : Nat) (u : State) :
    (departed m true u).strait.left = true ∧ (departed m true u).strait.aligned = false ∧ (departed m true u).strait.measures = 0 ∧
      (departed m true u).time.slew = 0 ∧ (departed m true u).strait.disagreeSince.isSome = true ∧
      counterOf (departed m true u) (ob 0x2012 1) = counterOf u (ob 0x2012 1) + 1 :=
  ⟨rfl, rfl, rfl, rfl, rfl, counterOf_bump_self (ob 0x2012 1) (modStrait _ u)⟩

theorem departed_other (m : Nat) (u : State) :
    m ∈ (departed m false u).strait.gone ∧ gangState (departed m false u) m = gangState u m :=
  ⟨mem_insertUp.2 (.inl rfl), rfl⟩

theorem quarantineGang_kept (s : State) (k : Nat) :
    { (quarantineGang s k).strait with gangs := s.strait.gangs } = s.strait ∧
      counterOf (quarantineGang s k) (ob 0x2012 1) = counterOf s (ob 0x2012 1) := by
  unfold quarantineGang
  split
  · exact ⟨rfl, rfl⟩
  · exact ⟨rfl, counterOf_bump_ne (by decide) _⟩

theorem foldl_quarantineGang_kept (l : List Nat) (s : State) :
    { (l.foldl quarantineGang s).strait with gangs := s.strait.gangs } = s.strait ∧
      counterOf (l.foldl quarantineGang s) (ob 0x2012 1) = counterOf s (ob 0x2012 1) :=
  List.foldlRecOn (motive := fun u : State => { u.strait with gangs := s.strait.gangs } = s.strait ∧
      counterOf u (ob 0x2012 1) = counterOf s (ob 0x2012 1)) l _ ⟨rfl, rfl⟩ fun u hu k _ => by
    obtain ⟨hgangs, hcount⟩ := quarantineGang_kept u k
    exact ⟨(congrArg (fun g : Strait => { g with gangs := s.strait.gangs }) hgangs).trans hu.1, hcount.trans hu.2⟩

theorem gangState_quarantineGang_self {k : Nat} (hgang : gangLinks s k ≠ []) : gangState (quarantineGang s k) k = .quarantine := by
  unfold quarantineGang
  split
  next h => simpa [hgang] using h
  next => exact gangState_setGang_self .quarantine hgang

theorem raise_strait (name : EventName) (k u : Nat) (s : State) : (raise name k u s).strait = s.strait :=
  (raise_only name k u s).2 .strait (by decide)

/-- This module leaves: its alignment and its slew end, the disagreement begins, and the departure is counted. -/
theorem memberLeaves_self {m : Nat} (hm : m = selfId s) :
    (memberLeaves m s).strait.left = true ∧ (memberLeaves m s).strait.aligned = false ∧ (memberLeaves m s).strait.measures = 0 ∧
      (memberLeaves m s).time.slew = 0 ∧ (memberLeaves m s).strait.disagreeSince.isSome = true ∧
      counterOf (memberLeaves m s) (ob 0x2012 1) = counterOf s (ob 0x2012 1) + 1 := by
  have hnamed : counterOf (leavingNamed m s) (ob 0x2012 1) = counterOf s (ob 0x2012 1) :=
    (counterOf_raise (by decide) (by decide) ..).trans (foldl_quarantineGang_kept _ s).2
  obtain ⟨hleft, haligned, hmeasures, hslew, hsince, hcount⟩ := departed_self m (leavingNamed m s)
  have habort : Onward (departed m true (leavingNamed m s)) (memberLeaves m s) := by
    rw [memberLeaves_eq, decide_eq_true hm]
    exact abortRunning_onward (.refl _)
  have hrest := habort.strait.rest
  refine ⟨(congrArg Strait.left hrest :).trans hleft, (congrArg Strait.aligned hrest :).trans haligned,
    (congrArg Strait.measures hrest :).trans hmeasures, habort.slew.trans hslew, ?_, ?_⟩
  · rw [show (memberLeaves m s).strait.disagreeSince = _ from (congrArg Strait.disagreeSince hrest :)]
    exact hsince
  · rw [habort.counterOf_eq (by decide), hcount, hnamed]

/-- Another member leaves: it is among those that have, and its gang is in QUARANTINE. -/
theorem memberLeaves_other {m : Nat} (hm : m ≠ selfId s) : m ∈ (memberLeaves m s).strait.gone ∧
    (gangLinks s m ≠ [] → gangState (memberLeaves m s) m = .quarantine) := by
  obtain ⟨hgone, hgangs⟩ := departed_other m (leavingNamed m s)
  have habort : Onward (departed m false (leavingNamed m s)) (memberLeaves m s) := by
    rw [memberLeaves_eq, decide_eq_false hm]
    exact abortRunning_onward (.refl _)
  have hnamed : leavingNamed m s = raise .memberLeft 8 (m + 2 ^ 16) (quarantineGang s m) := by
    unfold leavingNamed
    rw [decide_eq_false hm]
    rfl
  refine ⟨?_, fun hgang => ?_⟩
  · rw [show (memberLeaves m s).strait.gone = _ from (congrArg Strait.gone habort.strait.rest :)]
    exact hgone
  · rw [habort.gangState_eq, hgangs, hnamed, gangState_of_strait (raise_strait ..)]
    exact gangState_quarantineGang_self hgang

end Sys2Proof.Laws
end

section
/-! SUPPORT. The rows of a group's timers and messages: the sync timer (R401), the group commit (R395), reports and agreed
launches (R402, R403). -/

namespace Sys2Proof

open Sys2Proof.Machine

section Frames

variable {P : List Part} {s t : State}

theorem Only.active_eq (h : Only P s t) (hp : Part.values ∉ P) : t.dict.active = s.dict.active :=
  (congrArg Dict.active (h.2 .values hp) :)

theorem Only.heldGroup_eq (h : Only P s t) (hp : Part.values ∉ P) :
    t.dict.heldGroup = s.dict.heldGroup ∧ t.dict.groupPending = s.dict.groupPending :=
  ⟨(congrArg Dict.heldGroup (h.2 .values hp) :), (congrArg Dict.groupPending (h.2 .values hp) :)⟩

end Frames

end Sys2Proof

namespace Sys2Proof.Laws

open Sys2Proof.Machine

variable {s t : State}

/-! ## SYNC_TIMER (R401) -/

/-- θ exceeds two ticks. -/
def bigTheta (x : Int) : Bool := decide (2 < x.natAbs)

theorem smallTheta_eq (x : Int) : smallTheta x = !bigTheta x := by
  rw [smallTheta, bigTheta, ← decide_not]
  exact decide_eq_decide.2 Nat.not_lt.symm

/-- The leader opens the exchange. -/
def syncAsked (m : Nat) (s : State) : State := if isLeader s then sendCtl m ctlSync [(tideOf s).toNat] s else s

/-- What the exchange and the measurements after it bring. -/
def syncOutcome (m : Nat) (mine : Bool) (results : List Int) (s : State) : State :=
  match results with
  | [] => s
  | x :: rest =>
    let taken := rest.take (3 - s.strait.measures)
    match (if smallTheta x then some x else taken.find? smallTheta) with
    | some th => if mine then modStrait (fun g => { g with measures := 0 }) { s with time := { s.time with slew := th } } else s
    | none =>
      if s.strait.measures + taken.length < 3 then
        if mine then modStrait (fun g => { g with measures := g.measures + taken.length }) s else s
      else memberLeaves m s

/-- The timer passes over a member that is not aligned by it. -/
def syncSkips (m : Nat) (s : State) : Prop :=
  (membersOf s).contains m = false ∨ leaderOf s = none ∨ (m = selfId s ∧ (isLeader s = true ∨ s.strait.aligned = false))

theorem syncGuard_iff {m : Nat} : (!(membersOf s).contains m || decide (leaderOf s = none) ||
    (decide (m = selfId s) && (isLeader s || !s.strait.aligned))) = true ↔ syncSkips m s := by
  unfold syncSkips
  cases (membersOf s).contains m <;> cases isLeader s <;> cases s.strait.aligned <;> simp

theorem exec_syncTimer_skips {member : BitVec 3} (results : List Int) (h : syncSkips member.toNat s) :
    exec (.syncTimer member results) s = .next s := if_pos (syncGuard_iff.2 h)

theorem exec_syncTimer_open {member : BitVec 3} (results : List Int) (h : ¬syncSkips member.toNat s) :
    exec (.syncTimer member results) s =
      .next (syncOutcome member.toNat (decide (member.toNat = selfId s)) results (syncAsked member.toNat s)) := by
  change execSyncTimer member results s = _
  unfold execSyncTimer
  extract_lets m mine asked time
  rw [if_neg (mt syncGuard_iff.1 h)]
  change _ = Host.Outcome.next (syncOutcome m mine results asked)
  cases results with
  | nil => rfl
  | cons x rest =>
    unfold syncOutcome
    dsimp only
    generalize (if smallTheta x = true then some x else (rest.take (3 - asked.strait.measures)).find? smallTheta) = found
    cases found with
    | some th => rfl
    | none =>
      dsimp only
      split <;> rfl

theorem syncOutcome_small {m : Nat} {mine : Bool} {x : Int} (rest : List Int) (hx : bigTheta x = false) :
    syncOutcome m mine (x :: rest) s =
      if mine then { s with time := { s.time with slew := x }, strait := { s.strait with measures := 0 } } else s := by
  have hfound : (if smallTheta x = true then some x else (rest.take (3 - s.strait.measures)).find? smallTheta) = some x :=
    if_pos (by simp [smallTheta_eq, hx])
  unfold syncOutcome
  simp only [hfound]
  rfl

/-- R401: three measurements in a row that exceed two ticks take the member out of the group. -/
theorem syncOutcome_leaves {m : Nat} {mine : Bool} {x : Int} {rest : List Int} (hx : bigTheta x = true)
    (hrest : rest.all bigTheta = true) (hthree : 3 ≤ s.strait.measures + rest.length) (hmax : s.strait.measures ≤ 3) :
    syncOutcome m mine (x :: rest) s = memberLeaves m s := by
  have hnone : (rest.take (3 - s.strait.measures)).find? smallTheta = none := by
    rw [List.find?_eq_none]
    intro y hy
    have hbig := List.all_eq_true.1 hrest y (List.mem_of_mem_take hy)
    simp [smallTheta_eq, hbig]
  have hfound : (if smallTheta x = true then some x else (rest.take (3 - s.strait.measures)).find? smallTheta) = none := by
    rw [if_neg (by simp [smallTheta_eq, hx]), hnone]
  have hlen : ¬s.strait.measures + (rest.take (3 - s.strait.measures)).length < 3 := by
    rw [List.length_take]
    omega
  unfold syncOutcome
  simp only [hfound, if_neg hlen]

/-- No message is taken back by the outcome for another member. -/
theorem syncOutcome_out {m : Nat} (results : List Int) {x : OutMsg} (hx : x ∈ s.out) : x ∈ (syncOutcome m false results s).out := by
  have hleaves : x ∈ (memberLeaves m s).out := by
    have hquarantine : ∀ (l : List Nat) (u : State), (l.foldl quarantineGang u).out = u.out := fun l u =>
      List.foldlRecOn (motive := fun v : State => v.out = u.out) l _ rfl fun v hv k _ => by
        unfold quarantineGang
        split
        · exact hv
        · exact hv
    rw [memberLeaves_eq]
    refine (abortRunning_onward (.refl _)).out x ?_
    have hnamed : x ∈ (leavingNamed m s).out := by
      refine (raise_onward (.refl _)).out x ?_
      change x ∈ (List.foldl quarantineGang s _).out
      rwa [hquarantine]
    have hdeparted : ∀ (mine : Bool) (u : State), (departed m mine u).out = u.out := by
      intro mine u
      cases mine <;> rfl
    change x ∈ (departed m _ _).out
    rwa [hdeparted]
  unfold syncOutcome
  split
  · exact hx
  · extract_lets taken
    split
    · exact hx
    · split
      · exact hx
      · exact hleaves

/-! ## GROUP_COMMIT (R395) -/

/-- In a rising table the writes of all its entries leave each with its value. -/
theorem tget?_foldl_tset {α : Type} {l t : Tab α} (hup : (tkeys l).Pairwise (· < ·)) {k : Nat} {v : α} (hk : tget? l k = some v) :
    tget? (l.foldl (fun t e => tset t e.1 e.2) t) k = some v := by
  induction l generalizing t with
  | nil => cases hk
  | cons e l ih =>
    obtain ⟨n, w⟩ := e
    obtain ⟨hfirst, hrest⟩ := List.pairwise_cons.1 hup
    rw [List.foldl_cons]
    by_cases hn : n = k
    · subst hn
      have hw : w = v := by simpa [tget?] using hk
      subst hw
      refine List.foldlRecOn (motive := fun u => tget? u n = some w) l _ (tget?_tset_self ..) fun u hu e he => ?_
      rw [tget?_tset_ne _ _ (Nat.ne_of_lt (hfirst e.1 (List.mem_map_of_mem he)))]
      exact hu
    · exact ih hrest (by simpa [tget?, hn] using hk)

/-- The held changes apply as one (R395). -/
def commitApplied (s : State) : State := if s.dict.heldGroup = [] then s else applyValues s.dict.heldGroup s

/-- The commit is over, and the list of group Lasts is that of now. -/
def commitListed (s : State) : State :=
  let s := modDict (fun d => { d with heldGroup := [], groupPending := false }) (commitApplied s)
  modStrait (fun g => { g with listed := listedNow s }) s

theorem exec_groupCommit_waits (h : membersOf s = [] ∨ dictNum s (ob 0x6204 1) = 0 ∨ (tideOf s).toNat < dictNum s (ob 0x6204 1)) :
    exec .groupCommit s = .next s := if_pos (by simpa [or_assoc] using h)

theorem exec_groupCommit_commits
    (h : ¬(membersOf s = [] ∨ dictNum s (ob 0x6204 1) = 0 ∨ (tideOf s).toNat < dictNum s (ob 0x6204 1))) :
    exec .groupCommit s = .next (startExchange (commitListed s)) := if_neg (by simpa [or_assoc] using h)

theorem commitApplied_only (s : State) : Only [.regs, .values, .integ] s (commitApplied s) := by
  unfold commitApplied
  split
  · exact Only.refl _ s
  · exact applyValues_only _ s

theorem commitApplied_active (hup : (tkeys s.dict.heldGroup).Pairwise (· < ·)) {k : Nat} {v : Bytes}
    (hk : tget? s.dict.heldGroup k = some v) : tget? (commitApplied s).dict.active k = some v := by
  have hne : s.dict.heldGroup ≠ [] := by
    intro hnil
    rw [hnil] at hk
    cases hk
  unfold commitApplied applyValues
  rw [if_neg hne]
  extract_lets old stored written
  rw [(syncRegisters_only _).active_eq (by decide), (resetBuckets_only ..).active_eq (by decide)]
  exact tget?_foldl_tset hup hk

theorem startExchange_group (h : membersOf s ≠ []) :
    BesideLinks (modStrait (fun g => { g with collected := [] }) s) (startExchange s) := by
  unfold startExchange
  rw [if_neg h]
  exact .sendManifest _

theorem commitListed_exchange (hgroup : membersOf s ≠ []) :
    (startExchange (commitListed s)).dict.heldGroup = [] ∧ (startExchange (commitListed s)).dict.groupPending = false ∧
      (startExchange (commitListed s)).strait.listed = listedNow s ∧ (startExchange (commitListed s)).strait.collected = [] ∧
      (startExchange (commitListed s)).dict.active = (commitApplied s).dict.active := by
  have honly := startExchange_only (commitListed s)
  have happlied := commitApplied_only s
  have hstrait : (commitApplied s).strait = s.strait := happlied.2 .strait (by decide)
  have hmodel : (commitApplied s).model = s.model := happlied.2 .model (by decide)
  have hmembers : membersOf (commitListed s) ≠ [] := by
    change membersOf (commitApplied s) ≠ []
    rwa [membersOf, hstrait]
  have hlisted : listedNow (commitApplied s) = listedNow s := by rw [listedNow, hmodel, listedNow]
  have hexchange := (startExchange_group hmembers).eq
  obtain ⟨hheld, hpending⟩ := honly.heldGroup_eq (by decide)
  refine ⟨hheld, hpending, ?_, (congrArg Strait.collected hexchange :), honly.active_eq (by decide)⟩
  exact (congrArg Strait.listed hexchange : (startExchange (commitListed s)).strait.listed = listedNow (commitApplied s)).trans hlisted

/-! ## Reports and agreed launches (R402) -/

/-- With no request here, asking for steps keeps the reports that this module has no part in. -/
theorem askReady_reports (hreqs : s.que.reqs = []) {r : GroupReq} (hr : r ∈ s.strait.reports) (hself : selfId s ∉ r.members) :
    r ∈ (askReady s).strait.reports := by
  have hnone : ∀ (u : State) (keys : List (BitVec 64)), u.que.reqs = [] → reqsOfKeys u keys = [] := by
    intro u keys hu
    rw [reqsOfKeys, hu]
    exact List.filterMap_eq_nil_iff.2 fun k _ => rfl
  have hrefuse : ∀ (u : State) g, u.que.reqs = [] → refuseAgreed g u = u := by
    intro u g hu
    rw [refuseAgreed, hnone u g.1 hu]
    rfl
  have hask : ∀ (u : State) g, u.que.reqs = [] → askAgreed g u = u := by
    intro u g hu
    simp only [askAgreed, hnone u g.1 hu, List.foldl_nil, List.filterMap_nil]
  have hsweep : ∀ u : State, u.que.reqs = [] → (sweepAgreed u).strait.reports = u.strait.reports := by
    intro u hu
    refine (List.foldlRecOn (motive := fun v : State => v.que.reqs = [] ∧ v.strait.reports = u.strait.reports)
      u.strait.agreed _ ⟨hu, rfl⟩ fun v hv g _ => ?_).2
    obtain ⟨hvreqs, hvreports⟩ := hv
    split
    · rw [hrefuse (modStrait _ v) g hvreqs]
      exact ⟨hvreqs, hvreports⟩
    split
    · rw [hask (modStrait _ v) g hvreqs]
      exact ⟨hvreqs, hvreports⟩
    · exact ⟨hvreqs, hvreports⟩
  have horder : (tkeys s.que.reqs).foldr (insertSlot s) [] = [] := by
    rw [hreqs]
    rfl
  unfold askReady
  rw [horder]
  simp only [List.foldl_nil, List.length_nil, formLaunches, ite_self]
  split
  · exact hr
  · rw [hsweep (dropReports s) hreqs]
    exact List.mem_filter.2 ⟨hr, by simp [hself]⟩

theorem addReport_reports {m slot ctx : Nat} {key : BitVec 64} (hm : m ≠ selfId s) (hself : ∀ r ∈ s.strait.reports, selfId s ∉ r.members) :
    ∃ r ∈ (addReport m slot ctx key s).strait.reports, r.key = key ∧ m ∈ r.members ∧ selfId s ∉ r.members := by
  unfold addReport modStrait
  cases hfind : s.strait.reports.find? fun r => r.key = key with
  | some r =>
    have hmem := List.mem_of_find?_eq_some hfind
    have hkey : r.key = key := by simpa using List.find?_some hfind
    simp only [hfind]
    refine ⟨{ r with members := insertUp m r.members }, List.mem_map.2 ⟨r, hmem, if_pos hkey⟩, hkey, mem_insertUp.2 (.inl rfl), ?_⟩
    rw [mem_insertUp]
    rintro (h | h)
    · exact hm h.symm
    · exact hself r hmem h
  | none =>
    simp only [hfind]
    refine ⟨_, List.mem_append_right _ (List.mem_singleton.2 rfl), rfl, List.mem_singleton.2 rfl, ?_⟩
    rw [List.mem_singleton]
    exact fun h => hm h.symm

theorem exec_requestReport_ignored {member : BitVec 3} (slot : Fin 64) (key : BitVec 64) (ctx : BitVec 32)
    (h : isLeader s = false ∨ (peersOf s).contains member.toNat = false) :
    exec (.requestReport member slot key ctx) s = .next s := by
  refine if_neg ?_
  rw [Bool.and_eq_true, not_and_or, Bool.not_eq_true, Bool.not_eq_true]
  exact h

theorem exec_requestReport_taken {member : BitVec 3} (slot : Fin 64) (key : BitVec 64) (ctx : BitVec 32)
    (h : ¬(isLeader s = false ∨ (peersOf s).contains member.toNat = false)) :
    exec (.requestReport member slot key ctx) s = .next (askReady (addReport member.toNat slot.val ctx.toNat key s)) := by
  refine if_pos ?_
  rw [not_or, Bool.not_eq_false, Bool.not_eq_false] at h
  rw [Bool.and_eq_true]
  exact h

/-- A launch that comes after its count is counted as late (R402). -/
def lateCounted (tl : BitVec 64) (s : State) : State := if tl.toNat < (tideOf s).toNat then bump (ob 0x620A 1) s else s

theorem counterOf_lateCounted (tl : BitVec 64) (s : State) : counterOf (lateCounted tl s) (ob 0x620A 1) =
    counterOf s (ob 0x620A 1) + if tl.toNat < (tideOf s).toNat then 1 else 0 := by
  unfold lateCounted
  split
  · exact counterOf_bump_self ..
  · exact (BitVec.add_zero _).symm

theorem exec_launchMessage_agreed {keys : List (BitVec 64)} (gen : BitVec 16) (tl : BitVec 64)
    (h : ¬(membersOf s = [] ∨ reqsOfKeys s keys = [])) : exec (.launchMessage keys gen tl) s =
      .next (askReady (modStrait (fun g => { g with agreed := g.agreed ++ [(keys, gen, tl)] }) (lateCounted tl s))) :=
  if_neg (by simpa using h)

end Sys2Proof.Laws
end

section
/-! SUPPORT. Multicast between modules (R407 to R411), and launches at an agreed count (R402, R403). -/

namespace Sys2Proof.Laws

open Sys2Proof.Machine

variable {s t : State}

/-! ## Launches at their Tide (R396, R402) -/

section Launch

variable {l : Nat} {x : Launch} {at_ : BitVec 64}

theorem exec_launchRows_absent (hl : tget? s.model.launches l = none) :
    exec (.groupLaunchAtTide l) s = .next s ∧ exec (.barrierDeadline l) s = .next s := by
  change execGroupLaunchAtTide l s = _ ∧ execBarrierDeadline l s = _
  unfold execGroupLaunchAtTide execBarrierDeadline
  rw [hl]
  exact ⟨rfl, rfl⟩

variable (hl : tget? s.model.launches l = some x)
include hl

theorem exec_launchRows_unagreed (hat : x.agreed = none) :
    exec (.groupLaunchAtTide l) s = .next s ∧ exec (.barrierDeadline l) s = .next s := by
  change execGroupLaunchAtTide l s = _ ∧ execBarrierDeadline l s = _
  unfold execGroupLaunchAtTide execBarrierDeadline
  rw [hl]
  dsimp only
  rw [hat]
  exact ⟨rfl, rfl⟩

theorem exec_groupLaunchAtTide_agreed (hat : x.agreed = some at_) : exec (.groupLaunchAtTide l) s =
    if (x.begun || decide ((tideOf s).toNat < at_.toNat)) = true then .next s
    else if groupRefuses s at_ = true then .next (refuseAgreed (launchKeys s x, x.gen, at_) s)
    else .next (modLaunch l (fun x => { x with begun := true }) s) := by
  change execGroupLaunchAtTide l s = _
  unfold execGroupLaunchAtTide
  rw [hl]
  dsimp only
  rw [hat]

theorem exec_barrierDeadline_whole (hnone : missingRemote s l = none) : exec (.barrierDeadline l) s = .next s := by
  change execBarrierDeadline l s = _
  unfold execBarrierDeadline
  rw [hl]
  dsimp only
  rw [hnone]
  split
  next hmissing => cases hmissing
  next => rfl

theorem exec_barrierDeadline_missing (hat : x.agreed = some at_) {m : Nat} (hm : missingRemote s l = some m) :
    exec (.barrierDeadline l) s = if at_.toNat + 1000 * dictNum s (ob 0x6206 1) ≤ (tideOf s).toNat
      then .next (askReady (sendAbort m (launchKeys s x) s)) else .next s := by
  change execBarrierDeadline l s = _
  unfold execBarrierDeadline
  rw [hl]
  dsimp only
  rw [hat, hm]

end Launch

/-- After an abort of these KEYs no report of them is left, and every member with a gang has been told. -/
theorem askReady_sendAbort (unit : Nat) (keys : List (BitVec 64)) (s : State) :
    (∀ r ∈ (askReady (sendAbort unit keys s)).strait.reports, r.key ∉ keys) ∧
      ∀ p ∈ peersOf s, gangLinks s p ≠ [] → keys ≠ [] →
        .straitControl p ctlAbort (keys.map BitVec.toNat) ∈ (askReady (sendAbort unit keys s)).out := by
  have hasked : Onward (sendAbort unit keys s) (askReady (sendAbort unit keys s)) := askReady_onward (.refl _)
  refine ⟨fun r hr => ?_, fun p hp hgang hkeys => hasked.out _ (sendAbort_sends hkeys hp hgang)⟩
  by_cases hkeys : keys = []
  · rw [hkeys]
    exact List.not_mem_nil
  · exact sendAbort_reports hkeys r (hasked.strait.reports r hr)

theorem exec_reportTimeout_found {key : BitVec 64} {r : GroupReq} (hr : s.strait.reports.find? (fun r => r.key = key) = some r) :
    exec (.reportTimeout key) s = match (membersOf s).find? fun m => !r.members.contains m with
      | none => .next s
      | some m => if (isLeader s && decide (1000 * dictNum s (ob 0x6206 1) ≤ (tideOf s - r.since).toNat)) = true
        then .next (askReady (sendAbort m [key] s)) else .next s := by
  change execReportTimeout key s = _
  unfold execReportTimeout
  rw [hr] <;> rfl

/-- Some member has not reported. -/
theorem silent_iff {r : GroupReq} :
    ((membersOf s).find? fun m => !r.members.contains m).isSome = true ↔ ∃ m ∈ membersOf s, m ∉ r.members := by
  rw [List.find?_isSome]
  simp

/-! ## Multicast groups (R408 to R410) -/

/-- The multicast group of this slot with this number. -/
def mcastHere (slot : Fin 64) (group : Fin 256) (m : Mcast) : Bool := decide (m.slot = slot.val ∧ m.plan.group = group.val)

/-- A change of that group. -/
def mcastPut (slot : Fin 64) (group : Fin 256) (f : Mcast → Mcast) (s : State) : State :=
  { s with strait := { s.strait with mcasts := s.strait.mcasts.map fun m => if mcastHere slot group m then f m else m } }

/-- This module sends for the group. -/
def mcastSender (s : State) (m : Mcast) : Bool := decide (membersOf s ≠ [] ∧ m.plan.sender = rankOf s (selfId s))

theorem mcastSends_eq (m : Mcast) : mcastSends s m = mcastSender s m := (Bool.decide_and _ _).symm

section Mcast

variable {slot : Fin 64} {group : Fin 256} {member : BitVec 3}

theorem modMcast_eq (f : Mcast → Mcast) (s : State) : modMcast slot.val group.val f s = mcastPut slot group f s := by
  have hhere : (fun m : Mcast => if (decide (m.slot = slot.val) && decide (m.plan.group = group.val)) = true then f m else m) =
      fun m => if mcastHere slot group m = true then f m else m := by
    funext m
    rw [mcastHere, Bool.decide_and]
  exact congrArg (fun g : Mcast → Mcast => { s with strait := { s.strait with mcasts := s.strait.mcasts.map g } }) hhere

theorem mcastOf_eq : mcastOf s slot.val group.val = s.strait.mcasts.find? (mcastHere slot group) := by
  have hhere : (fun m : Mcast => decide (m.slot = slot.val) && decide (m.plan.group = group.val)) = mcastHere slot group := by
    funext m
    exact (Bool.decide_and _ _).symm
  exact congrArg (fun p : Mcast → Bool => s.strait.mcasts.find? p) hhere

theorem exec_mcastCredit (hd : BitVec 16) : exec (.mcastCredit slot group member hd) s = .next (mcastPut slot group (fun m =>
    match m.credits.find? (fun c => c.1 = member.toNat && c.2.1 = hd) with
    | some c => { m with credits := m.credits.erase c }
    | none => m) s) :=
  congrArg _ (modMcast_eq _ s)

theorem exec_mcastRows_absent (hnone : s.strait.mcasts.find? (mcastHere slot group) = none) (h : BitVec 30) :
    exec (.mcastGrant slot group member h) s = .next s ∧ exec (.shedStallTimeout slot group member) s = .next s := by
  change execMcastGrant slot group member h s = _ ∧ execShedStallTimeout slot group member s = _
  unfold execMcastGrant execShedStallTimeout
  rw [mcastOf_eq, hnone]
  exact ⟨rfl, rfl⟩

variable {m : Mcast} (hm : s.strait.mcasts.find? (mcastHere slot group) = some m)
include hm

theorem exec_mcastGrant_found (h : BitVec 30) : exec (.mcastGrant slot group member h) s =
    .next (if mcastSender s m && m.plan.receivers.getLsbD (rankOf s member.toNat) && (peersOf s).contains member.toNat then
      mcastPut slot group (fun m => { m with grants := m.grants ++ [(member.toNat, h)] }) s else s) := by
  change execMcastGrant slot group member h s = _
  unfold execMcastGrant
  rw [mcastOf_eq, hm]
  dsimp only
  rw [mcastSends_eq, modMcast_eq]
  split <;> rfl

/-- The requests of a receiver that has been cut are stopped (R411). -/
def mcastStopped (m : Mcast) (s : State) : State :=
  askReady ((mcastReqs s m).foldl (fun s a => stopRequest a St.streamBroken 0 false s) s)

/-- A stalled receiver is cut and told (R410). -/
def receiverCut (slot : Fin 64) (group : Fin 256) (k : Nat) (s : State) : State :=
  sendCtl k ctlCut [slot.val, group.val] (bump (ob 0x6221 1) (mcastPut slot group (fun m => { m with
    cut := insertUp k m.cut, grants := m.grants.filter (fun g => g.1 ≠ k), credits := m.credits.filter fun c => c.1 ≠ k }) s))

theorem exec_shedStallTimeout_found : exec (.shedStallTimeout slot group member) s =
    if (!m.plan.shed || strictOn s) = true then .next s
    else if member.toNat = selfId s then
      if (mcastSender s m || !m.plan.receivers.getLsbD (rankOf s member.toNat)) = true then .next s
      else .next (mcastStopped m s)
    else if (mcastSender s m && (mcastRemotes s m).contains member.toNat && mcastStalled s m member.toNat) = true then
      .next (receiverCut slot group member.toNat s)
    else .next s := by
  change execShedStallTimeout slot group member s = _
  unfold execShedStallTimeout
  rw [mcastOf_eq, hm]
  dsimp only
  rw [mcastSends_eq, modMcast_eq]
  rfl

omit hm in
theorem mcastStopped_ended {a : Nat} (ha : a ∈ mcastReqs s m) (hup : (tkeys s.que.reqs).Pairwise (· < ·)) :
    Ended a (mcastStopped m s) := (foldl_stopRequest_ended ha hup).onward (askReady_onward (.refl _))

omit hm in
theorem receiverCut_spec (k : Nat) (s : State) :
    (receiverCut slot group k s).strait.mcasts = (mcastPut slot group (fun m => { m with
      cut := insertUp k m.cut, grants := m.grants.filter (fun g => g.1 ≠ k), credits := m.credits.filter fun c => c.1 ≠ k })
      s).strait.mcasts ∧
    counterOf (receiverCut slot group k s) (ob 0x6221 1) = counterOf s (ob 0x6221 1) + 1 ∧
    Only [.counters, .strait, .out] s (receiverCut slot group k s) := by
  unfold receiverCut
  generalize hput : mcastPut slot group _ s = u
  have hcounters : counterOf u (ob 0x6221 1) = counterOf s (ob 0x6221 1) := by
    rw [← hput]
    rfl
  have honly : Only [.counters, .strait, .out] s u := by
    rw [← hput, ← modMcast_eq]
    exact (modMcast_only ..).mono rfl
  refine ⟨(congrArg Strait.mcasts (BesideLinks.sendCtl k ctlCut [slot.val, group.val] (bump (ob 0x6221 1) u)).eq :), ?_, ?_⟩
  · rw [(sendCtl_only ..).counterOf_eq (by decide), counterOf_bump_self, hcounters]
  · exact Only.step (sendCtl_only ..) rfl (Only.step (bump_only ..) rfl honly)

end Mcast

/-! ## MCAST_PUSH (R408) -/

/-- The Lace `n` is the destination of a launch that granted this slab. -/
def takesPush (s : State) (lace : Fin 4096) (h : BitVec 16) (n : Nat) : Prop :=
  ∃ x ∈ s.model.launches, ∃ y ∈ x.2.laces, y.1 = lace.val ∧ y.2 = n ∧
    ∃ la, tget? s.flow.laces n = some la ∧ ∃ k ∈ la.held, k.h = h ∧ k.awaits = true

/-- A destination with the slab held for a copy. -/
def awaitsCopy (s : State) (lace : Fin 4096) (h : BitVec 16) (y : Nat × Nat) : Bool :=
  decide (y.1 = lace.val) && ((tget? s.flow.laces y.2).map fun la => la.held.any fun k => decide (k.h = h) && k.awaits).getD false

/-- The first destination that awaits the copy. -/
def pushTarget (s : State) (lace : Fin 4096) (h : BitVec 16) : Option Nat :=
  s.model.launches.findSome? fun x => (x.2.laces.find? (awaitsCopy s lace h)).map Prod.snd

theorem awaitsCopy_iff {lace : Fin 4096} {h : BitVec 16} {y : Nat × Nat} : awaitsCopy s lace h y = true ↔
    y.1 = lace.val ∧ ∃ la, tget? s.flow.laces y.2 = some la ∧ ∃ k ∈ la.held, k.h = h ∧ k.awaits = true := by
  unfold awaitsCopy
  cases tget? s.flow.laces y.2 <;> simp

theorem takesPush_of_target {lace : Fin 4096} {h : BitVec 16} {n : Nat} (hn : pushTarget s lace h = some n) :
    takesPush s lace h n := by
  obtain ⟨x, hx, hfound⟩ := List.exists_of_findSome?_eq_some hn
  obtain ⟨y, hy, rfl⟩ := Option.map_eq_some_iff.1 hfound
  obtain ⟨hlace, hla⟩ := awaitsCopy_iff.1 (List.find?_some hy)
  exact ⟨x, hx, y, List.mem_of_find?_eq_some hy, hlace, rfl, hla⟩

theorem pushTarget_isSome {lace : Fin 4096} {h : BitVec 16} {n : Nat} (hn : takesPush s lace h n) :
    ∃ j, pushTarget s lace h = some j := by
  obtain ⟨x, hx, y, hy, hlace, rfl, hla⟩ := hn
  rw [← Option.isSome_iff_exists, pushTarget, List.findSome?_isSome_iff]
  refine ⟨x, hx, ?_⟩
  rw [Option.isSome_map, List.find?_isSome]
  exact ⟨y, hy, awaitsCopy_iff.2 ⟨hlace, hla⟩⟩

section Push

variable {half : Fin 14} {lace : Fin 4096} {entry : BitVec 64}

theorem exec_mcastPush_closed (h : (linkOf s (linkKey half.val)).state ≠ .exchange) :
    exec (.mcastPush half lace entry) s = .next s := if_pos (by simp [h])

theorem exec_mcastPush_open (h : (linkOf s (linkKey half.val)).state = .exchange) :
    exec (.mcastPush half lace entry) s = match pushTarget s lace (entryOfWord entry.toNat).slab with
      | none => .next s
      | some n => .next (pushEntry n (entryOfWord entry.toNat) (placeCopy n (entryOfWord entry.toNat) s)) := if_neg (by simp [h])

/-- The copy's place is noted in the slab that it fills. -/
theorem placeCopy_lace {n : Nat} {la : Lace} (e : LaceEntry) (hla : tget? s.flow.laces n = some la) :
    ∃ la', tget? (placeCopy n e s).flow.laces n = some la' ∧ la'.pushed = la.pushed ∧ la'.consumers = la.consumers ∧
      la'.held.map (fun k => k.h) = la.held.map (fun k => k.h) ∧ la'.fed = la.fed := by
  unfold placeCopy
  rw [hla]
  dsimp only
  refine ⟨_, tget?_modLace _ hla, rfl, rfl, ?_, rfl⟩
  rw [List.map_map]
  refine List.map_congr_left fun k _ => ?_
  simp only [Function.comp_apply]
  split <;> rfl

theorem pushEntry_placeCopy {n : Nat} {la : Lace} (e : LaceEntry) (hla : tget? s.flow.laces n = some la) :
    (∃ la', tget? (pushEntry n e (placeCopy n e s)).flow.laces n = some la' ∧ la'.pushed = la.pushed + 1 ∧
      la'.consumers = (la.consumers.map fun c => { c with waiting := c.waiting ++ [e] }) ∧
      la'.held.map (fun k => k.h) = la.held.map (fun k => k.h) ∧ la'.fed = la.fed) := by
  obtain ⟨la', hplaced, hpushed, hconsumers, hheld, hfed⟩ := placeCopy_lace e hla
  exact ⟨_, tget?_modLace _ hplaced, by rw [hpushed], by rw [hconsumers], hheld, hfed⟩

end Push

end Sys2Proof.Laws
end

section
/-! SUPPORT. The device group's rows, one by one, as O60 states them. -/

namespace Sys2Proof.Laws

open Sys2Proof.Machine

/-! ## Single rows -/

/-- R401: one tick of a slew, towards 0. -/
theorem execSlewTick_eq (s : State) : exec .slewTick s = .next { s with time := { s.time with
    slew := s.time.slew - Int.sign s.time.slew, pll := if s.time.slew < 0 then s.time.pll + 2 else s.time.pll } } := by
  change execSlewTick s = _
  unfold execSlewTick
  extract_lets w
  have hw : s.time.slew = w := rfl
  rw [hw]
  obtain hneg | hzero | hpos := lt_trichotomy w 0
  · rw [if_neg (by omega), if_neg (by omega), Int.sign_eq_neg_one_of_neg hneg, if_pos hneg, Int.sub_neg]
  · rw [if_pos hzero, if_neg (by omega), hzero]
    have hkept : s.time = { s.time with slew := 0 } := by rw [← hzero, ← hw]
    exact congrArg (fun x : Time => Host.Outcome.next { s with time := x }) hkept
  · rw [if_neg (by omega), if_pos hpos, Int.sign_eq_one_of_pos hpos, if_neg (by omega)]

/-- Another member's exchange that is small, or that has not been held, brings nothing here. -/
theorem syncOutcome_other {s : State} {m : Nat} {results : List Int}
    (h : results = [] ∨ (m ≠ selfId s ∧ results.head?.any (fun x => !bigTheta x) = true)) :
    syncOutcome m (decide (m = selfId s)) results s = s := by
  obtain rfl | ⟨hother, hhead⟩ := h
  · rfl
  · cases results with
    | nil => rfl
    | cons x rest =>
      have hx : bigTheta x = false := by simpa using hhead
      rw [decide_eq_false hother]
      exact (syncOutcome_small rest hx).trans (if_neg Bool.false_ne_true)

/-- The leader, which has opened the exchange, sees the member leave. -/
theorem leaderOutcome_leaves {s : State} {m : Nat} {ws : List Nat} {results : List Int} (hother : m ≠ selfId s)
    (hhead : results.head?.any bigTheta = true) (hall : results.all bigTheta = true)
    (hthree : 3 ≤ s.strait.measures + (results.length - 1)) (hmax : s.strait.measures ≤ 3) :
    m ∈ (syncOutcome m false results (sendCtl m ctlSync ws s)).strait.gone ∧
      (gangLinks s m ≠ [] → gangState (syncOutcome m false results (sendCtl m ctlSync ws s)) m = .quarantine) := by
  have hsent : Onward s (sendCtl m ctlSync ws s) := sendCtl_onward (.refl s)
  have hmeasures : (sendCtl m ctlSync ws s).strait.measures = s.strait.measures := (congrArg Strait.measures hsent.strait.rest :)
  have hself : m ≠ selfId (sendCtl m ctlSync ws s) := by
    rwa [selfId, (sendCtl_only ..).regs_eq (by decide) (by decide)]
  cases results with
  | nil => cases hhead
  | cons x rest =>
    have hx : bigTheta x = true := by simpa using hhead
    rw [List.all_cons, Bool.and_eq_true] at hall
    rw [syncOutcome_leaves hx hall.2 (by rw [hmeasures]; exact hthree) (by rwa [hmeasures]), ← hsent.gangLinks_eq]
    exact memberLeaves_other hself

/-- R403: a request whose report some member owes for too long is aborted by the leader. -/
theorem reportTimeout_found {s : State} {key : BitVec 64} {r : GroupReq}
    (hr : s.strait.reports.find? (fun r => r.key = key) = some r) :
    if isLeader s = true ∧ (∃ m ∈ membersOf s, m ∉ r.members) ∧
        1000 * dictNum s (ob 0x6206 1) ≤ (tideOf s - r.since).toNat then
      Completes (.reportTimeout key) s fun t =>
        Only [.power, .doms, .gov, .time, .cause, .counters, .events, .monitors, .que, .held, .model, .flow, .hbr, .islands,
          .clusters, .integ, .strait, .out, .free] s t ∧ (∀ r ∈ t.strait.reports, r.key ≠ key) ∧
        ∀ p ∈ peersOf s, gangLinks s p ≠ [] → .straitControl p 4 [key.toNat] ∈ t.out
    else exec (.reportTimeout key) s = .next s := by
  have hexec := exec_reportTimeout_found hr
  cases hsilent : (membersOf s).find? fun m => !r.members.contains m with
  | none =>
    have hall : ¬∃ m ∈ membersOf s, m ∉ r.members := by
      rw [← silent_iff, hsilent]
      exact Bool.false_ne_true
    rw [hsilent] at hexec
    rw [if_neg fun h => hall h.2.1]
    exact hexec
  | some m =>
    have hsome : ∃ m ∈ membersOf s, m ∉ r.members := by
      rw [← silent_iff, hsilent]
      rfl
    rw [hsilent] at hexec
    split
    next h =>
      obtain ⟨hlead, -, hlate⟩ := h
      have haborted := hexec.trans (if_pos (by rw [hlead, decide_eq_true hlate]; rfl))
      obtain ⟨hreports, hsent⟩ := askReady_sendAbort m [key] s
      refine ⟨_, haborted, execReportTimeout_only key s _ haborted, fun r hr => ?_, fun p hp hgang => hsent p hp hgang (by simp)⟩
      exact fun hkey => hreports r hr (List.mem_singleton.2 hkey)
    next h =>
      refine hexec.trans (if_neg fun hdue => h ?_)
      rw [Bool.and_eq_true, decide_eq_true_eq] at hdue
      exact ⟨hdue.1, hsome, hdue.2⟩

/-- R403: an abort here stops each request of its keys that is a group's. -/
theorem abortKeys_ended {s : State} {unit a : Nat} {keys : List (BitVec 64)} (ha : a ∈ groupReqs s keys)
    (hup : (tkeys s.que.reqs).Pairwise (· < ·)) : Ended a (abortKeys unit keys s) := by
  have hstopped : Ended a ((groupReqs s keys).foldl (fun s a => stopRequest a St.groupAborted 0 false s) (keysForgotten keys s)) :=
    foldl_stopRequest_ended ha hup
  rw [abortKeys_eq, if_neg (List.ne_nil_of_mem ha)]
  exact hstopped.onward (raise_onward (bump_onward (by decide) (.refl _)))

/-- Settles O60: manifests are judged gang by gang; a measurement is an insertion sort; the rows that stop requests and ask for
steps go on as `Onward` says, so that messages sent, the group's record and stopped requests stay. -/
theorem deviceGroups : Obligations.DeviceGroups := by
  refine ⟨fun b s => ?manifest, fun half t1 s h x => exec_syncMessage_closed h x, fun half t1 s h => ?asked,
    fun half t1 t2 t3 t4 s h => ?closes, fun member results s => ?timer, fun s => ?slew, fun s => ?commit,
    fun member slot key ctx s => ?report, fun keys gen tl s => ?launch, fun l s => ?atTide, fun key s => ?silent,
    fun keys s => ?abort, fun slot group member h hd s => ?mcast, fun half lace entry s => ?push⟩
  case manifest =>
    extract_lets m strait u agrees
    split
    next h => exact exec_manifestReceive_idle h
    next h =>
      rw [not_or, Bool.not_eq_false] at h
      obtain ⟨hpeer, hgang⟩ := h
      have hexec := exec_manifestReceive_taken hpeer hgang
      have hkept := (afterManifest_measuresKept (manifestTaken m b s)).onward (askReady_onward (.refl _))
      refine ⟨_, hexec, ?_, execManifestReceive_only b s _ hexec, fun hjoin hall p hp hp' => ?_⟩
      · rw [hkept.1]
        exact tget?_tset_self ..
      · exact gangState_manifestTaken hjoin hall hp hp'
  case asked =>
    have hexec := exec_syncMessage_asked (t1 := t1) h
    exact ⟨_, hexec, sendCtl_sends _ _ (gangLinks_of_exchange (linkKey_lt half) h rfl), sendCtl_only ..⟩
  case closes =>
    extract_lets d theta l
    have htheta : syncTheta t1 t2 t3 t4 = theta := syncTheta_eq t1 t2 t3 t4
    have hexec := exec_syncMessage_closes (t1 := t1) (t2 := t2) (t3 := t3) (t4 := t4) h
    rw [htheta] at hexec
    split
    next hfew => exact hexec.trans (if_pos hfew)
    next hmany =>
      have hexec' := hexec.trans (if_neg hmany)
      refine ⟨_, hexec', measureTaken_thetas l s, execSyncMessage_only half t1 (some (t2, t3, t4)) s _ hexec', fun hjoin => ?_⟩
      exact ⟨_, measureTaken_theta hjoin, measureResult_spec (Nat.le_trans (by decide) (Nat.not_lt.1 hmany))⟩
  case timer =>
    extract_lets m big
    split
    next h => exact exec_syncTimer_skips results h
    next hopen =>
      have hexec := exec_syncTimer_open results hopen
      split
      next hfollow =>
        have hasked : syncAsked m s = s := if_neg (by simp [hfollow])
        rw [hasked] at hexec
        split
        next h => exact hexec.trans (congrArg _ (syncOutcome_other h))
        next =>
          rintro x rest rfl hself
          rw [decide_eq_true hself] at hexec
          split
          next hx => exact hexec.trans (congrArg _ ((syncOutcome_small rest hx).trans (if_pos rfl)))
          next hx =>
            intro hall hthree hmax
            have hexec' := hexec.trans (congrArg _ (syncOutcome_leaves (Bool.not_eq_false _ ▸ hx) hall hthree hmax))
            obtain ⟨hleft, haligned, hmeasures, hslew, hsince, hcount⟩ := memberLeaves_self hself
            exact ⟨_, hexec', hleft, haligned, hmeasures, hslew, hsince, hcount, execSyncTimer_only member (x :: rest) s _ hexec'⟩
      next hlead =>
        have hlead' : isLeader s = true := Bool.not_eq_false _ ▸ hlead
        have hother : m ≠ selfId s := fun hself => hopen (.inr (.inr ⟨hself, .inl hlead'⟩))
        have hasked : syncAsked m s = sendCtl m ctlSync [(tideOf s).toNat] s := if_pos hlead'
        rw [hasked, decide_eq_false hother] at hexec
        refine ⟨_, hexec, execSyncTimer_only member results s _ hexec,
          fun hgang => syncOutcome_out results (sendCtl_sends ctlSync _ hgang), fun hhead hall hthree hmax => ?_⟩
        exact leaderOutcome_leaves hother hhead hall hthree hmax
  case slew => exact execSlewTick_eq s
  case commit =>
    extract_lets at_
    split
    next h => exact exec_groupCommit_waits h
    next h =>
      have hexec := exec_groupCommit_commits h
      obtain ⟨hheld, hpending, hlisted, hcollected, hactive⟩ := commitListed_exchange (not_or.1 h).1
      refine ⟨_, hexec, hheld, hpending, hlisted, hcollected, fun hup k v hk => ?_, execGroupCommit_only s _ hexec⟩
      rw [hactive]
      exact commitApplied_active hup hk
  case report =>
    split
    next h => exact exec_requestReport_ignored slot key ctx h
    next h =>
      have hexec := exec_requestReport_taken slot key ctx h
      refine ⟨_, hexec, execRequestReport_only member slot key ctx s _ hexec, fun hreqs hself => ?_⟩
      rw [not_or, Bool.not_eq_false, Bool.not_eq_false, List.contains_iff_mem] at h
      have hother : member.toNat ≠ selfId s := by simpa using (List.mem_filter.1 h.2).2
      obtain ⟨r, hr, hkey, hmember, hhere⟩ := addReport_reports (slot := slot.val) (ctx := ctx.toNat) (key := key) hother hself
      exact ⟨r, askReady_reports (s := addReport member.toNat slot.val ctx.toNat key s) hreqs hr hhere, hkey, hmember⟩
  case launch =>
    split
    next h => exact if_pos (by simpa using h)
    next h =>
      have hexec := exec_launchMessage_agreed gen tl h
      refine ⟨_, hexec, execLaunchMessage_only keys gen tl s _ hexec, ?_⟩
      rw [(askReady_onward (.refl _)).counterOf_eq (by decide)]
      exact counterOf_lateCounted tl s
  case atTide =>
    split
    next hl => exact exec_launchRows_absent hl
    next x hl =>
      split
      next hat => exact exec_launchRows_unagreed hl hat
      next at_ hat =>
        refine ⟨?_, ?_⟩
        · have hexec := exec_groupLaunchAtTide_agreed hl hat
          split
          next h => exact hexec.trans (if_pos (by simpa using h))
          next h =>
            have hexec' := hexec.trans (if_neg (by simpa using h))
            split
            next hkept =>
              have hbegun := hexec'.trans (if_neg (by simp [hkept]))
              exact ⟨_, hbegun, tget?_modLaunch _ hl, modLaunch_only ..⟩
            next hrefused =>
              have hstopped := hexec'.trans (if_pos (Bool.not_eq_false _ ▸ hrefused))
              exact ⟨_, hstopped, execGroupLaunchAtTide_only l s _ hstopped⟩
        · split
          next hnone => exact exec_barrierDeadline_whole hl hnone
          next m hm =>
            have hexec := exec_barrierDeadline_missing hl hat hm
            split
            next hlate =>
              have haborted := hexec.trans (if_pos hlate)
              obtain ⟨hreports, hsent⟩ := askReady_sendAbort m (launchKeys s x) s
              exact ⟨_, haborted, execBarrierDeadline_only l s _ haborted, hreports, hsent⟩
            next hearly => exact hexec.trans (if_neg hearly)
  case silent =>
    split
    next hnone =>
      change execReportTimeout key s = _
      unfold execReportTimeout
      rw [hnone]
    next r hr => exact reportTimeout_found hr
  case abort =>
    have hexec : exec (.abortMessage keys) s = .next (askReady (abortKeys 255 keys s)) := rfl
    have hgone : Onward (keysForgotten keys s) (askReady (abortKeys 255 keys s)) := abortKeys_from.trans (askReady_onward (.refl _))
    obtain ⟨hreports, hagreed⟩ := forgotten_of_onward hgone
    refine ⟨_, hexec, execAbortMessage_only keys s _ hexec, hreports, hagreed, fun hup a ha r hr hlast q hq => ?_⟩
    have hgroup : a ∈ groupReqs s keys := List.mem_filter.2 ⟨ha, by simp [hr, hlast]⟩
    exact ((abortKeys_ended hgroup hup).onward (askReady_onward (.refl _))).2 q hq
  case mcast =>
    extract_lets here put credited k
    refine ⟨exec_mcastCredit hd, ?_⟩
    split
    next hnone => exact exec_mcastRows_absent hnone h
    next m hm =>
      extract_lets sends
      refine ⟨exec_mcastGrant_found hm h, ?_⟩
      have hexec := exec_shedStallTimeout_found (member := member) hm
      split
      next hoff => exact hexec.trans (if_pos (by simpa using hoff))
      next hon =>
        have hexec := hexec.trans (if_neg (by simpa using hon))
        split
        next hself =>
          have hexec := hexec.trans (if_pos hself)
          split
          next hout => exact hexec.trans (if_pos (by rw [Bool.or_eq_true, Bool.not_eq_true']; exact hout))
          next hin =>
            have hstopped := hexec.trans (if_neg (by rw [Bool.or_eq_true, Bool.not_eq_true']; exact hin))
            exact ⟨_, hstopped, execShedStallTimeout_only slot group member s _ hstopped,
              fun hup a ha => (mcastStopped_ended ha hup).2⟩
        next hother =>
          have hexec := hexec.trans (if_neg hother)
          split
          next hstalled =>
            obtain ⟨hmcasts, hcount, honly⟩ := receiverCut_spec (slot := slot) (group := group) k s
            exact ⟨_, hexec.trans (if_pos hstalled), hmcasts, hcount, honly⟩
          next hfine => exact hexec.trans (if_neg hfine)
  case push =>
    extract_lets e takes
    have hopen := exec_mcastPush_open (s := s) (half := half) (lace := lace) (entry := entry)
    refine ⟨fun h => ?_, fun n la hlink hn honly hla => ?_⟩
    · by_cases hlink : (linkOf s (linkKey half.val)).state = .exchange
      · have hnone : pushTarget s lace e.slab = none := by
          rw [Option.eq_none_iff_forall_ne_some]
          exact fun n hn => h.resolve_left (not_not.2 hlink) n (takesPush_of_target hn)
        rw [hopen hlink, hnone]
      · exact exec_mcastPush_closed hlink
    · obtain ⟨j, hj⟩ := pushTarget_isSome hn
      obtain rfl := honly j (takesPush_of_target hj)
      have hexec : exec (.mcastPush half lace entry) s = .next (pushEntry j e (placeCopy j e s)) := by rw [hopen hlink, hj]
      exact ⟨_, hexec, pushEntry_placeCopy e hla, execMcastPush_only half lace entry s _ hexec⟩

end Sys2Proof.Laws
end
